-- ==== Sys2Proof/Word.lean ====
section
/-! DEFINITION. The word types of the Yellika: what spec/ counts in bits. -/

namespace Sys2Proof

abbrev Byte := BitVec 8
abbrev W16 := BitVec 16
abbrev W32 := BitVec 32
abbrev W64 := BitVec 64

/-- Sparse bytes by address: addresses strictly rising, no entry equal to what an unlisted byte reads as (0). -/
abbrev Mem := List (Nat × Byte)

/-- A sparse map by a number. -/
abbrev NatMap (α : Type) := List (Nat × α)

end Sys2Proof
end

