-- ==== Sys2Proof/Syntax.lean ====
section
/-! DEFINITION. The commands and events of spec/opcode_table.json, one constructor of `Instr` for each row,
with the operands that the row's rule gives it. -/

namespace Sys2Proof

/-- The four requesters of chapter 16; a host's is named by its function f = 64 x port + n (R295). -/
inductive Requester where
  | host (fn : Nat)
  | firmware
  | mgmt
  deriving DecidableEq, Repr

/-- The guarded registers of R447. -/
inductive GReg where
  | pkgrst | pwrLimit | pwrClkctl | secAlarm | secErase | secSlot | secTest | secScrub
  deriving DecidableEq, Repr

/-- A host access through BAR4 (R306). -/
inductive Bar4Acc where
  | read (n : Nat)
  | write (bytes : List Byte)
  deriving DecidableEq, Repr

/-- Which check of R86 or R99 failed: a vector check, or a pass check of a column. -/
inductive ArrCheck where
  | vector (i : Nat)
  | pass (col : Nat)
  deriving DecidableEq, Repr

/-- How a memory controller answers a read or write of one word (R58, R378). -/
inductive EccResult where
  | clean | corrected | uncorrectable
  deriving DecidableEq, Repr

/-- How a horizon request ended (R204, R223, R378). -/
inductive HzAnswer where
  | ok
  | poisoned
  | unsupported      -- the host answered Unsupported Request (R223)
  | completerAbort   -- the host answered Completer Abort (R223)
  deriving DecidableEq, Repr

/-- The request pools of R206. -/
inductive Pool where
  | hz1 (stack : Nat)
  | tdie (t : Nat)
  | port (p : Nat)
  | ldie (l : Nat)
  deriving DecidableEq, Repr

/-- The channels of R199 and R418. -/
inductive Chan where
  | hz1 (stack pc : Nat)
  | hz2 (ch : Nat)
  deriving DecidableEq, Repr

/-- What an NVMe completion reports (R219, R380): ok, data whose CRC does not match at some LBAs of its Read, or an error
with its status code. -/
inductive NvmeResult where
  | ok | crcMismatch (lbas : List Nat) | error (status : W16)
  deriving DecidableEq, Repr

/-- Why a drive is declared failed (R221, causes as R495 codes them). -/
inductive DriveCause where
  | linkLoss | fatalStatus | timeout
  deriving DecidableEq, Repr

/-- Why a secure point failed (R362). -/
inductive SecureFail where
  | ackTimeout (buddy : Nat)
  | siltOverflow (buddy : Nat)
  | digest (neighbour : Nat) (theirs : W64)
  deriving DecidableEq, Repr

/-- What the always-on comparators sample at one ao tick (R391, R432, R484, R486, R490). -/
structure AoSample where
  /-- the standby supply of H0's and of H1's domain lies in its window -/
  h0Standby : Bool
  h1Standby : Bool
  /-- a main or standby rail lies outside its alarm window -/
  mainRailOut : Bool
  standbyOut : Bool
  /-- rails outside their operating window but inside their alarm window: number and millivolts -/
  railWarn : List (Nat × W16)
  /-- a reference clock or a PLL lies outside its alarm window -/
  clockOut : Bool
  /-- the always-on domain itself lies outside -20 to 110 degrees -/
  aoTempOut : Bool
  /-- hottest junction temperature of each die sampled, in degrees -/
  dieTemps : List (Nat × Int)
  /-- a lid loop is open, shorted or fails to follow its drive pattern -/
  meshBroken : Bool
  /-- the level of TAMPER_EXT_N is low -/
  tamperExtLow : Bool
  /-- debug logic is enabled -/
  debugEnabled : Bool
  /-- a die whose PCC copy differs from the active H-die's (R393) -/
  pccMismatch : Option Nat
  deriving DecidableEq, Repr

/-- What one T-die's DDR5 training found (R217). -/
structure TDieTrain where
  tdie : Nat
  trained : List Bool      -- one for each of its 8 channels
  dpc : Nat                -- DIMMs per channel
  gib : Nat                -- capacity of one DIMM, GiB
  ranks : Nat
  devWidth : Nat
  grade : Nat              -- rated speed, MT/s
  uniform : Bool           -- every DIMM of the T-die is alike
  deriving DecidableEq, Repr

/-- What enumeration found on one root port (R220). -/
structure DriveFound where
  drive : Nat
  gen : Nat                -- trained PCIe generation
  width : Nat
  nvme14 : Bool
  xfer64k : Bool
  lba4096 : Bool
  deallocZero : Bool
  direct : Bool            -- attached with no switch
  ready : Bool             -- ready by the end of its 8,000 ms
  sizeBytes : Nat
  deriving DecidableEq, Repr

/-- The SPDM transports of R431. -/
inductive Transport where
  | doe (port : Nat) | i3c | smbus
  deriving DecidableEq, Repr

/-- A flit as it is received: its 256 bytes (R261). DESIGN CHOICE (log 98). -/
abbrev Flit := List Byte

/-- An IDENT flit's content (R255). -/
structure Ident where
  pkg : Nat
  dir : Nat
  ldie : Nat
  deriving DecidableEq, Repr

/-- What a window flit carries that the header of R272 has no field for: the bytes that count, the clod that covers
the put (R374), poison (R378), and for a put the semaphore of RSEM, its descriptor's number at the source, and the window
bytes that the descriptor writes (R268). DESIGN CHOICE (log 94, 98). -/
structure WinSide where
  bytes : Nat
  clod : Option Nat
  rsem : Nat
  poison : Bool
  desc : Nat
  doff : Nat
  dlen : Nat
  deriving DecidableEq, Repr

/-- A debug token as it is presented (R435). -/
structure Token where
  serial : W64
  nonce : BitVec 128
  signature : List Byte
  deriving DecidableEq, Repr

/-- What the manufacturing of a silicon part answers at one start of the ROM: the unclonable function's seed,
when it reconstructs (R423). -/
structure RomInputs where
  recoveryLow : Bool
  seed : Option (BitVec 256)
  deriving DecidableEq, Repr

/-- Where COMMAND_FETCH finds its commands: a ring (R312), or a message of the management path (R438). -/
inductive FetchFrom where
  | ring (n : Nat)
  | message (b : List Byte)
  deriving DecidableEq, Repr

/-- The commands and events. `cid` numbers a fetched command, `g` is a logical grain id, `t` a thread,
`ser` the serial number of an issued descriptor. -/
inductive Instr where
  -- host commands, carried out by the ring engine or by Horica on a fetched packet
  | ping (cid : Nat)
  | ctxCreate (cid : Nat)
  | ctxDestroy (cid : Nat)
  | ctxKill (cid : Nat)
  | setShare (cid : Nat)
  | objAlloc (cid : Nat)
  | objFree (cid : Nat)
  | objPlace (cid : Nat)
  | objMigrate (cid : Nat)
  | objFallback (cid : Nat)
  | planLoad (cid : Nat)
  | planUnload (cid : Nat)
  | segRun (cid : Nat)
  | segFence (cid : Nat)
  | winOpen (cid : Nat)
  | winClose (cid : Nat)
  | groupSet (cid : Nat)
  | bucketPolicy (cid : Nat)
  | secureNow (cid : Nat)
  | securePolicy (cid : Nat)
  | rollback (cid : Nat) (serves : List (Nat × Bool))   -- buddies asked: package id, reachable
  | replayStep (cid : Nat)
  | digestQuery (cid : Nat)
  | strataRead (cid : Nat)
  | selfTest (cid : Nat)
  | calibrate (cid : Nat) (slack : Nat)                 -- the monitors' reading, for KIND 3
  | pmcConfig (cid : Nat)
  | pmcSnapshot (cid : Nat)
  | sampleConfig (cid : Nat)
  | fwChunk (cid : Nat)
  | fwStatus (cid : Nat)
  | fwActivate (cid : Nat)
  | fwAbort (cid : Nat)
  | attestQuote (cid : Nat)
  | measureLog (cid : Nat)
  | dumpConfig (cid : Nat)
  | tilthRead (cid : Nat)
  -- host interface
  | commandFetch (fn : Nat) (ctx : Option Nat) (ring : FetchFrom)   -- ctx none: the function's admin ring
  | completionWrite (cid : Nat)
  | interruptTimeExpire (ctx cq : Nat)
  | commandRingDoorbell (fn page ring : Nat) (val : W64)
  | adminDoorbell (fn : Nat) (val : W64)
  | pedDoorbell (fn page ring : Nat) (val : W64)
  | adminRingEnable (fn : Nat)
  | adminRingDisable (fn : Nat)
  | ringTableWrite (rq : Requester) (ctx : Nat) (val : W64)
  | fnAperWrite (fn : Nat) (val : W64)
  | bar4Access (port off : Nat) (acc : Bar4Acc)
  | busMasterDisable (fn : Nat)
  | busMasterEnable (fn : Nat)
  | portReset (port : Nat)
  | perstDeassert (port : Nat)
  | hostLinkDownTimeout (port : Nat)
  | pfFlr (port : Nat)
  | vfFlr (port : Nat) (vf : Option Nat)                -- none: VF Enable cleared
  | hubPkgrstPair (rq : Requester) (vb : W32)           -- the B write
  | pkgrstRequestLapse (port : Nat)
  | pkgrstPin
  -- segments and scheduling
  | segmentStart (ctx : Nat)
  | segmentEnd (ctx : Nat)
  | segmentWatchdog (ctx : Nat)
  | deepSaveDone (ctx ped2 : Nat)
  | deepRestoreDone (ctx ped2 : Nat)
  | fabricDrainEnd (ctx : Nat)
  | diePark (c : Nat)
  | grainPllLock (c : Nat)
  | hubTransferStart (ctx idx : Nat)
  | hubTransferComplete (ctx idx : Nat)
  -- threads and descriptors
  | descriptorBurstArrive (g t b : Nat)
  | notbeforeReached (g t : Nat)
  | descriptorComplete (g ser : Nat)
  | arrPass (g t : Nat)
  | arrConv (g t : Nat)
  | arrLoadw (g t : Nat)
  | mv (g t : Nat)
  | vec (g t : Nat)
  | vecDeriv (g t : Nat)
  | rngFill (g t : Nat)
  | dmaGet (g t : Nat)
  | dmaPut (g t : Nat)
  | dmaPutFlush (g t : Nat)
  | winPut (g t : Nat)
  | winGet (g t : Nat)
  | sieveGather (g t : Nat)
  | sieveScatterAdd (g t : Nat)
  | sieveScatterApply (g t : Nat)
  | redPost (g t : Nat)
  | redWait (g t : Nat)
  | barrier (g t : Nat)
  | semWait (g t : Nat)
  | semSignal (g t : Nat)
  | deadline (g t : Nat)
  | deadlineDue (g t : Nat)
  | deadlineRung2Cutoff (g t : Nat)
  | deadlineRung3Cutoff (g t : Nat)
  | clodBegin (g t : Nat)
  | clodCommit (g t : Nat)
  | clodDecision (ctx clod : Nat)
  | clodDecisionApply (pkg clod : Nat) (commit : Bool)
  | clodAbort (g t : Nat)
  | specBegin (g t : Nat)
  | specResolve (g t : Nat)
  | route (g t : Nat)
  | secureMark (g t : Nat)
  | pmcMark (g t : Nat)
  | ballast (g t : Nat)
  | endOp (g t : Nat)
  -- array, checks, local store
  | arrayIdle (g : Nat)
  | ballastGapExpire (g : Nat)
  | arrayChecksumFault (g : Nat) (ser : Option Nat) (chk : ArrCheck)   -- ser none: hub-inserted ballast
  | mvRowCheckFault (g ser row : Nat)
  | vectorCheckFault (g ser elem : Nat)
  | spareCheckDone (ped2 : Nat) (ok : Bool)
  | patrolScrubSlot (g : Nat) (banks : List EccResult)
  | cacheFillDone (g t : Nat)
  -- horizons
  | tagGrant (pool : Pool)
  | horizonResponse (req : Nat) (ans : HzAnswer)
  | calibrationWindowStart (ch : Chan)
  | calibrationWindowEnd (ch : Chan)
  | migrationCopyDone (handle granule : Nat)
  | promotionCopyDone (handle granule : Nat)
  | nvmeCompletion (drive cmd : Nat) (res : NvmeResult)
  | driveFailed (drive : Nat) (cause : DriveCause) (status : W16)
  | ddr5ChannelFailed (ch : Nat)
  | sieveRowArrive (g ser slot : Nat)
  | dlogMergeGranuleDone (table granule : Nat)
  -- fabric
  | lnkPortEnable (rq : Requester) (port : Nat) (val : W64)
  | portTrained (port : Nat) (ok : Bool)
  | identReceived (port : Nat) (id : Ident)
  | flitReceive (port : Nat) (flit : Flit)
  | nakReceived (port : Nat) (ackseq : BitVec 12)
  | portRetrainDone (port : Nat) (ok : Bool)
  | portLeaveUp (port : Nat)
  | windowAccessArrive (flit : Flit) (side : WinSide)
  | windowResponseArrive (flit : Flit) (poison : Bool)
  | remoteTimeout (rtag : Nat)
  | reductionFlitArrive (flit : Flit)
  | bucketTimeout (tag : Nat)
  | bucketFailureNotice (tag : Nat) (status : W16) (pkg : Nat)
  | bucketHoldNotice (tag chunk pkg : Nat)
  | bucketResumeNotice (tag chunk pkg : Nat)
  | lnkTorusWrite (rq : Requester) (val : W32)
  | lnkRouteWrite (rq : Requester) (id : Nat) (val : Byte)
  | lnkCreditWrite (rq : Requester) (val : W64)
  -- resilience
  | riskExchangeResult (ctx risk : Nat) (now : Bool)
  | securePointComplete (ctx : Nat)
  | securePointFail (ctx : Nat) (why : SecureFail)
  | tilthPeriod (slack : List Nat)
  | clockSlewDone
  | errRingTailWrite (rq : Requester) (val : W64)
  | errFatalClear (rq : Requester) (mask : W64)
  | fatalError
  | lockstepMismatch (hdie : Nat)
  | hubLogicMismatch (die block : Nat)
  -- clocks and power
  | aoTick (smp : AoSample)
  | helperEraseDone
  | powerSample (pkgW : Nat) (dieW : List Nat) (lid : Int)
  | throttleSaturationTimeout
  | boundaryHoldAdjust
  | ped1Prewake (ped1 : Nat)
  | avsbusTimeout (c : Nat)
  | powerOn
  | mainEnAssert
  | mainEnDeassert
  -- start-up and test
  | coldStart
  | firmwareLoadDone (rom : RomInputs)
  | dieBringupDone (bridgesOk : Bool) (deadDies : List Nat) (nonce : BitVec 128)
  | configRecordSelect
  | hbmTrainingDone (stack : Nat) (ok : Bool)
  | ddr5TrainingDone (found : List TDieTrain)
  | nvmeEnumDone (found : List DriveFound)
  | startupSelftestDone (failed : List (Nat × Nat)) (notRun : List Nat)   -- (ped-2, grain) pairs; C-dies whose test could not run
  | enabledMapBuild
  | configRecordWrite
  | trialBootTimeout
  | backgroundTestPiece (ped2 : Nat)
  | backgroundPieceDone (ped2 : Nat) (failed : List Nat)
  | intrusiveTestDone (cid : Nat) (failed : List (Nat × Nat))
  | calibrationDone (kind unit : Nat)
  | snapshotStamp
  | snapshotWriteDone
  -- firmware update and security
  | fwVerifyDone
  | fwLoadDone
  | fwHandoverDone
  | fwSwitchStamp
  | fwCommit
  | fwActivateDeadline
  | fwRevertDone
  | fwStandbyReady
  | debugUnlock (tok : Token)
  | getVersion (tr : Transport)
  | getCapabilities (tr : Transport)
  | negotiateAlgorithms (tr : Transport) (hasSm2 hasSm3 : Bool)
  | getDigests (tr : Transport)
  | getCertificate (tr : Transport) (slot off len : Nat)
  | challenge (tr : Transport) (slot : Nat) (nonce : BitVec 256)
  | getMeasurements (tr : Transport) (index : Nat) (signed : Bool) (nonce : BitVec 256)
  | spdmUnsupportedRequest (tr : Transport) (code : Byte)
  -- registers
  | guardedWriteA (rq : Requester) (reg : GReg) (va : W32)
  | guardedWindowExpire (rq : Requester) (reg : GReg)
  | pwrLimitPair (rq : Requester) (vb : W32)
  | pwrClkctlPair (rq : Requester) (vb : W32)
  | secAlarmPair (rq : Requester) (vb : W32)
  | secAlarmClear (rq : Requester) (vb : W32)
  | secEraseVolatile (rq : Requester) (vb : W32)
  | secEraseHelper (rq : Requester) (vb : W32)
  | secSlotPair (rq : Requester) (vb : W32)
  | secTestPair (rq : Requester) (vb : W32)
  | secScrubPair (rq : Requester) (vb : W32)
  | hubNumctlWrite (rq : Requester) (ctx : Nat) (val : W64)
  | hubNumringWrite (rq : Requester) (ctx : Nat) (val : W64)
  | hubSpecWrite (rq : Requester) (ctx : Nat) (val : W64)
  | pwrBallastWrite (rq : Requester) (val : W32)
  | pwrCtlWrite (rq : Requester) (val : W32)
  | errTilthWWrite (rq : Requester) (val : W64)
  | pmcSmpTailWrite (rq : Requester) (ctx : Nat) (val : W32)
  | registerWrite (rq : Requester) (off size : Nat) (val : W64)
  | registerReadLatch (rq : Requester) (off size : Nat)
  | hostLinkUp (port width gen : Nat)
  | hostLinkDown (port : Nat)
  | portReadyAgain (port : Nat)
  | pkgrstOtherPortNoLink (port : Nat)
  | identTimeout (port : Nat)
  deriving DecidableEq, Repr

end Sys2Proof
end

