-- ==== Sys2Proof/Config.lean ====
section
/-! DEFINITION. What the spec leaves open: every constant here is opaque, so nothing can prove a value of it, and a
statement about the model holds whatever these are. notes/assumptions/ names each of them. -/

namespace Sys2Proof.Config

/-- The n-th free value that the run takes: a result that the spec leaves undefined or does not state.
DESIGN CHOICE (log 5). -/
opaque freeValue {w : Nat} (n : Nat) : BitVec w

/-- The n-th free choice of a number (a frame, an order that the spec leaves open). DESIGN CHOICE (log 5). -/
opaque freeNat (n : Nat) : Nat

/-- The n-th free truth value. DESIGN CHOICE (log 5). -/
opaque freeBool (n : Nat) : Bool

/-- R57, R68: how many gc after its issue a descriptor writes a lane of the local store, at the earliest.
DESIGN CHOICE (log 84). -/
opaque laneDelay (ser lane : Nat) : Nat

/-- R58, R77, R381: the error that a check of this gc finds, if it finds one, as eccStep numbers it: kind of place,
place, word of it, and whether it cannot be corrected. DESIGN CHOICE (log 116). -/
opaque eccFound (n : Nat) : Nat × Nat × Nat × Bool

/-- R81: the array's input stage is short of the next vector of a running pass in a gc. DESIGN CHOICE (log 36). -/
opaque starved (ser : Nat) (pcc : W64) : Bool

/-- R56, R58: the four check bytes of a word of 32 data bytes, under the Reed-Solomon code that the spec names and does
not write out. DESIGN CHOICE (log 8). -/
opaque rsCode (word : List Byte) : BitVec 32

/-! ## Functions that R126, R146, R157 and R174 bound but do not fix: candidates for a result, held to the bound. -/

/-- Read from the spec by inference: DEDUCED (log 6). -/
opaque sigmoid (x : W32) : W32
/-- Read from the spec by inference: DEDUCED (log 6). -/
opaque tanh (x : W32) : W32
/-- Read from the spec by inference: DEDUCED (log 6). -/
opaque exp (x : W32) : W32
/-- Read from the spec by inference: DEDUCED (log 6). -/
opaque log (x : W32) : W32
/-- Read from the spec by inference: DEDUCED (log 6). -/
opaque recip (x : W32) : W32
/-- Read from the spec by inference: DEDUCED (log 6). -/
opaque rsqrt (x : W32) : W32
/-- Read from the spec by inference: DEDUCED (log 6). -/
opaque gelu (x : W32) : W32
/-- Read from the spec by inference: DEDUCED (log 6). -/
opaque silu (x : W32) : W32
/-- Read from the spec by inference: DEDUCED (log 6). -/
opaque geluDeriv (x g : W32) : W32
/-- Read from the spec by inference: DEDUCED (log 6). -/
opaque siluDeriv (x g : W32) : W32
/-- One element of a softmax over a row: the row and the index (R127). DEDUCED (log 6). -/
opaque softmax (row : List W32) (i : Nat) : W32
/-- The sum that a softmax row was divided by, for the ROUTE gates (R175). DEDUCED (log 6). -/
opaque gate (row : List W32) (i : Nat) : W32
/-- The normal deviate of two random words (R157). DEDUCED (log 6). -/
opaque normal (a b : W32) : W32

/-! ## Cryptography (chapter 15): the algorithms are named by the spec, not restated in it. -/

/-- Open in the spec: DESIGN CHOICE (log 7). -/
opaque sm3 (msg : List Byte) : BitVec 256
/-- Open in the spec: DESIGN CHOICE (log 7). -/
opaque sm2Verify (key msg sig : List Byte) : Bool
/-- Open in the spec: DESIGN CHOICE (log 7). -/
opaque sm2Sign (seed : BitVec 256) (msg : List Byte) : List Byte
/-- Open in the spec: DESIGN CHOICE (log 7). -/
opaque identityPub (seed : BitVec 256) : List Byte
/-- The Quogrim root public key, whose hash the ROM holds (R435, R436). DESIGN CHOICE (log 7). -/
opaque vendorKey : List Byte
/-- The ROM code that index 1 measures (R425). DESIGN CHOICE (log 7). -/
opaque romCode : List Byte
/-- The signature of a factory part by the manufacturing key (R410). DESIGN CHOICE (log 7, 70). -/
opaque factorySign (msg : List Byte) : List Byte
/-- The signature that a field part carries in flash (R412). DESIGN CHOICE (log 7, 70). -/
opaque fieldSign (msg : List Byte) : List Byte

/-! ## Hashes that the spec uses and does not define. -/

/-- R259: the hash of (SRC, DST, TC, KEYSEL) that chooses a flit's port within a bundle. DESIGN CHOICE (log 8). -/
opaque portHash (src dst tc keysel : Nat) : Nat
/-- R195: where in HZ1 firmware keeps a granule entry: a byte address of its region. DESIGN CHOICE (log 8). -/
opaque tableAt (handle : W32) (granule : Nat) : Nat
/-- R246: the slot of a delta-row log where the search for a row id begins. DESIGN CHOICE (log 8). -/
opaque dlogProbe (salt : W32) (id : Nat) : Nat
/-- R234: the set of a hot-row cache that a row id falls in. DESIGN CHOICE (log 8). -/
opaque hotSet (salt : W32) (id : Nat) : Nat

end Sys2Proof.Config
end

