-- ==== Sys2Proof/Machine/State.lean ====
section
/-! DEFINITION. The state of one Yellika: every register, buffer, table, queue and pin that spec/ gives the package,
as plain data, and the state right after reset. -/

namespace Sys2Proof.Machine

/-- The faults of a step. None of the spec's rules stops the package, so no meaning raises one. Raised by nobody; safe. -/
inductive Fault where
  /-- An access to an address that the spec says does not exist. Raised by nobody: every access of the spec to such an
  address has an answer of its own (R453, R455). Safe. -/
  | noSuchAddress
  deriving DecidableEq, Repr

/-- The refusals of a step. -/
inductive Refusal where
  /-- Raised by the dispatch for a command whose meaning is not written; safe (the model stops where the package goes on). -/
  | notModelled (mnemonic : String)
  deriving DecidableEq, Repr

/-! ## Clocks, pins and power (chapters 13 and 18) -/

structure Clk where
  vstby : Bool            -- the standby rail is up (R405)
  mainEn : Bool           -- level of MAIN_EN (R487)
  pccRun : Bool           -- the PCC copies have been released (R393)
  pcc : W64
  rtc : W64               -- ao ticks since power-on (R391)
  tbPcc : W64             -- the timebase latch (R403)
  tbRtc : W64
  aoh1 : Bool             -- the active always-on domain is H1's (R391)
  h0Lost : Bool           -- H0's standby supply has left its window
  wallUs : Rat            -- wall time since the PCC's release, in microseconds (R338)
  tamperLow : Nat         -- consecutive ao ticks with TAMPER_EXT_N low, at most 2 (R490)
  deriving DecidableEq, Repr

inductive DState where
  | active | idle | parked
  deriving DecidableEq, Repr

inductive Thermal where
  | normal | warning | hot
  deriving DecidableEq, Repr

/-- Power and ageing state of one C-die (R394, R400, R404). -/
structure DiePwr where
  w : Nat
  temp : Int
  thermal : Thermal
  vstep : Nat
  slack : Nat
  dstate : DState
  idleSince : Rat         -- wall time at which it became IDLE (R9, R394)
  avsOk : Bool            -- its AVSBus link answers (R485)
  deriving DecidableEq, Repr

structure Pwr where
  pkgW : Nat
  level : Nat             -- throttle level 0-8 (R397)
  clk : Nat               -- package clock, MHz (R402)
  clkNext : Option Nat    -- the clock that a slew goes to
  cause : BitVec 6
  ctl : W32               -- PWR_CTL, RWP bits included
  limit : W32             -- PWR_LIMIT as it reads
  limitInForce : W32      -- as the last 1,024-gc sample took it (R404)
  clkctl : W32
  clkctlInForce : W32     -- as the last tilth period's end took it
  ballast : W32           -- PWR_BALLAST as it reads
  ballastDie : NatMap W32 -- in force on a C-die, where a segment boundary has taken a write (R104)
  stretch : W64
  lowGc : Nat             -- consecutive gc of low power, in samples of 1,024 gc (R398)
  move : Option Bool      -- the level's change at the next PCC multiple of 16: up or down (R398)
  saturated : Bool        -- the level is 8 with P above PKG
  hold : Option Nat       -- HOLD of the boundary hold in force (R399)
  lidHot : Bool           -- lid sensor above 70 degrees (R491)
  railWarned : List Nat   -- rails with a CONFIG_WARN record since the cold start (R487)
  dies : NatMap DiePwr    -- 0-47
  otherThermal : NatMap Thermal  -- dies 48-63 (R392)
  crit : List Nat         -- dies in the critical state (R392)
  deriving DecidableEq, Repr

/-! ## Start-up, flash, firmware and security (chapters 14 and 15) -/

/-- One die's entry of the factory part (R411). -/
structure DieEntry where
  fbin : Nat
  vceil0 : Nat
  lot : W64
  deriving DecidableEq, Repr

structure FactoryPart where
  valid : Bool            -- MAGIC, VERSION and the manufacturing signature verify
  serial : W64
  rev : Byte
  dies : NatMap DieEntry
  failed0 : NatMap (BitVec 256)
  deriving DecidableEq, Repr

structure FieldPart where
  valid : Bool            -- MAGIC and the identity signature verify
  seq : Nat
  pclk : Nat
  vstep : NatMap Nat
  retired : List Nat
  failed : NatMap (BitVec 256)
  frames : List (Nat × Nat × Nat)   -- horizon, channel, frame
  deriving DecidableEq, Repr

/-- The slot directory (R422). -/
structure Dir where
  valid : Bool
  seq : Nat
  active : Nat
  pend : Option Nat       -- PENDING
  tries : Nat
  stage : Option Nat
  svnFloor : Nat
  nchunk : Nat
  mdigest : BitVec 256
  bitmap : BitVec 512
  deriving DecidableEq, Repr

/-- Boot flash: what the regions of R421 hold. -/
structure Flash where
  dir0 : Dir
  dir1 : Dir
  helper0 : Bool          -- the helper-data regions hold their data
  helper1 : Bool
  factA : FactoryPart
  factB : FactoryPart
  fieldA : FieldPart
  fieldB : FieldPart
  slotA : Mem             -- firmware slots, 32 MiB each
  slotB : Mem
  certChain : List Byte
  deriving DecidableEq, Repr

inductive FwSt where
  | idle | staging | staged | verify | load | handover | switch | commit | revert | pendingCold
  deriving DecidableEq, Repr

/-- The directory as it is in force, and an activation in progress (R437-R443). -/
structure Fw where
  dir : Dir
  dirWritable : Bool      -- the directory can be written: the identity key is available (R438)
  st : FwSt
  slotRun : Nat           -- HUB_BOOT.SLOT: 0 A, 1 B, 2 recovery (R420)
  svn : Nat               -- running SVN
  actCid : Option Nat     -- the FW_ACTIVATE in progress
  actLive : Bool
  stamp : Option W64      -- the switch stamp (R441)
  switched : List Nat     -- ped-2s that have switched
  unitsSwitched : Bool    -- L- and T-dies and idle ped-2s have switched
  loadUs : Option Rat     -- wall time at the start of LOAD (R441)
  abortCid : Option Nat   -- the FW_ABORT that waits for the revert
  standby : Bool          -- the standby pairs run the active firmware
  standbyUsed : List Nat  -- H-dies whose standby pair has taken over
  trial : Bool            -- this cold start is a trial boot of PENDING (R443)
  recStage : Nat          -- recovery mode: the slot that is staged (R445)
  deriving DecidableEq, Repr

/-- One entry of the measurement log (R426). -/
structure LogEnt where
  seq : Nat
  rtc : W64
  index : Nat
  event : Nat
  version : W32
  digest : BitVec 256
  deriving DecidableEq, Repr

structure Spdm where
  versioned : Bool
  caps : Bool
  negotiated : Bool
  transcript : Nat        -- requests answered since GET_VERSION; erased with the volatile keys
  deriving DecidableEq, Repr

structure Sec where
  idok : Bool
  seed : Option (BitVec 256)
  dbg : Bool
  level : Nat
  cause : BitVec 5
  srcActive : BitVec 5    -- the sources active at the last ao tick
  alarm : W32             -- SEC_ALARM, levels and RWP bits
  erasePending : Bool     -- a level-2 erase has not completed (R433)
  test : W32
  scrub : W32
  nonce : BitVec 128
  meas : NatMap (BitVec 256)        -- current value of each index 1-10 (R425)
  measVer : NatMap W32
  log : List LogEnt       -- the newest 4,096, oldest first
  logNext : Nat
  chain : BitVec 256
  chainOld : List (BitVec 256)      -- chain digest before each held entry
  spdm : List (Transport × Spdm)
  deriving DecidableEq, Repr

structure Boot where
  running : Bool          -- a cold start is in progress
  phase : Nat             -- HUB_BOOT.PHASE, 0-6, 15 = DONE. DEDUCED (log 14)
  outcome : Nat           -- 0 in progress, 1 READY, 2 DEGRADED, 3 HELD
  reason : Nat
  elapsedMs : Nat
  p0Rtc : W64             -- RTC at the start of P0
  hbmDone : List Nat      -- stacks trained
  hbmFailed : List Nat    -- stacks that failed their first training
  ddrDone : Bool
  nvmeDone : Bool
  testDone : Bool
  degraded : Bool         -- something was left out
  ready : Bool            -- configuration space answers (R407). DEDUCED (log 13)
  serialShown : Bool      -- P3 has ended
  kind : Nat
  kindValid : Bool
  clkbin : Nat
  fact : FactoryPart      -- as verified in P3
  field : FieldPart       -- as selected and as learned since (R412)
  fieldCopyA : Bool       -- the selected field part is copy A's
  fieldWritable : Bool    -- R410: field parts are written in this cold start. DEDUCED (log 28)
  recPending : Bool       -- a CONFIG_RECORD_WRITE is due (R413)
  recovery : Bool
  deriving DecidableEq, Repr

/-! ## The enabled map (chapter 01) -/

structure EMap where
  built : Bool
  enabled : NatMap (BitVec 256)     -- by ped-2 index c x 25 + p
  spare : NatMap (BitVec 256)
  cold : NatMap (BitVec 256)        -- the enabled bitmap of the cold start (R26)
  subst : List (Nat × Nat)          -- physical linear ids: cold-start position, grain that holds it now
  retired : List Nat                -- ped-2s retired
  gen : BitVec 16
  deriving DecidableEq, Repr

/-! ## Host interface (chapter 10) -/

structure DumpCfg where
  bus : W64
  size : Nat
  en : Bool
  lstore : Bool
  deriving DecidableEq, Repr

structure Port where
  linkUp : Bool
  width : Nat
  gen : Nat
  downRtc : W64           -- RTC when its link went down (R325)
  perst : Bool            -- PERST# asserted
  inReset : Bool          -- the port has not become ready again (R324)
  pkgReq : Bool           -- its package-reset request is pending (R325)
  dump : Option DumpCfg
  weight : Nat            -- W_p (R336)
  weightF : Nat           -- as the last scheduling decision took it (R337)
  vfEnable : Bool         -- VF Enable of its PF (R298)
  bar4 : Nat              -- the size of BAR4 in bytes (R297, R299)
  deriving DecidableEq, Repr

structure SubRing where
  loaded : Bool
  base : W64
  size : Nat
  kind : Nat
  ped : W32
  pos : Nat               -- fetch position
  tail : Nat
  deriving DecidableEq, Repr

structure CplRing where
  loaded : Bool
  base : W64
  size : Nat
  en : Bool
  vector : Nat
  icount : Nat
  itime : Nat
  pos : Nat               -- index of the next entry
  fill : Nat              -- entries not consumed
  gen : W32
  since : Nat             -- entries written since the last message (R322)
  deriving DecidableEq, Repr

/-- Read from the spec by inference: DEDUCED (log 61). -/
structure Fn where
  bme : Bool              -- Bus Master Enable
  mse : Bool              -- Memory Space Enable (R323)
  d3hot : Bool            -- its power state (R297)
  inReset : Bool          -- an FLR has not ended
  asq : W64
  acq : W64
  ctl : W64               -- FN_CTL without ARDY
  ardy : Bool
  aenHeld : Bool          -- AEN = 1 waits for DONE (R407)
  asqr : SubRing          -- the admin rings as AEN took them
  acqr : CplRing
  disabling : Bool        -- AEN = 0 written, commands still in flight
  aperMiss : Nat
  dbDrop : Nat
  aper : W64
  slots : List (Nat × Nat)      -- VF slots: slot, context
  replies : NatMap (List Byte)  -- reply slots, 32 bytes each
  replyCid : NatMap Nat         -- the command that a reply slot reports
  msix : NatMap (BitVec 128)    -- MSI-X table entries written
  pba : List Nat                -- pending vectors
  msixEn : Bool                 -- MSI-X Enable and Function Mask of its MSI-X capability (R297, R322)
  msixMask : Bool
  weight : Nat            -- W_f (R336)
  weightF : Nat           -- as the last scheduling decision took it (R337)
  deriving DecidableEq, Repr

/-- A fetched command (R311, R312). -/
structure Cmd where
  cid : Nat
  fn : Nat                -- 128 for the management path
  ctx : Option Nat        -- its ring's context; none on an admin ring
  ring : Nat
  cq : Nat
  opcode : Nat
  cflags : W16
  pctx : Nat              -- the packet's CTX
  tag : W32
  param : List Byte       -- 48 bytes
  data : List Byte        -- the chunk that came with it over MCTP (R438)
  fetchPcc : W64
  started : Bool
  deferred : Option (List Byte)    -- a DEFERRED completion not yet written
  deferredSent : Bool
  deferredHeld : Bool     -- the DEFERRED completion waits for a full ring (R314)
  done : Option (W16 × List Byte)  -- the final status and result
  written : Bool          -- its completion waits in the package for a full ring
  deriving DecidableEq, Repr

/-! ## Plans and segments (chapter 06) -/

/-- A tensor view (R47). -/
structure View where
  handle : W32
  off : Nat
  sz0 : Nat
  sz1 : Nat
  sz2 : Nat
  sz3 : Nat
  st0 : Nat
  st1 : Nat
  st2 : Nat
  st3 : Nat
  fmt : Nat
  cache : Bool
  sp24 : Bool
  mask : Bool
  gix : Bool
  scale : Nat
  masksel : Nat
  deriving DecidableEq, Repr

structure MaskEnt where
  block : Bool
  rbase : Nat
  nbits : Nat
  bits : List Byte
  deriving DecidableEq, Repr

structure Stream where
  handle : W32
  off : Nat
  home : W32
  deriving DecidableEq, Repr

structure Prog where
  ped2 : Nat
  paired : Bool
  cache : Nat
  views : List View
  masks : List (Option MaskEnt)
  wheels : List W64       -- four, bank 0 first
  streams : List (Option Stream)   -- eight
  deriving DecidableEq, Repr

structure BarEnt where
  ped : W32
  planned : Nat
  threads : Byte
  deriving DecidableEq, Repr

structure XferEnt where
  start : Nat
  kind : Nat
  sem : Nat
  ped : W32
  handle : W32
  off : Nat
  bytes : Nat
  dest : Nat
  deriving DecidableEq, Repr

structure SegD where
  length : Nat
  regrow : Bool
  last : Bool
  source : Nat
  reserve : Nat
  progs : List Prog
  bars : List BarEnt
  xfers : List XferEnt
  chks : List (Nat × Nat) -- ped-2 index, view index
  deriving DecidableEq, Repr

structure Plan where
  id : Nat
  handle : W32
  off : Nat
  peds : List (Nat × List W32)
  segs : List SegD
  fixed : List (Nat × W32)    -- SCALE of the FIXED entries of its scale table (R120)
  deriving DecidableEq, Repr

/-- A SEG_RUN that has not completed (R317). -/
structure SegRun where
  cid : Nat
  plan : Nat
  seg : Nat
  count : Nat
  seed : Option W64
  ended : Nat             -- segments of it that have ended
  firstGc0 : Option W64
  overrun : Nat
  status : Option W16     -- the first failure
  faultRes : Option (List Byte)   -- the RESULT of a descriptor fault
  deriving DecidableEq, Repr

inductive StopCause where
  | descFault | gridRetired | vectorCheck | memory | watchdog | killed | fatal
  deriving DecidableEq, Repr

/-- One barrier of a running segment (R170). -/
structure BarSt where
  arrived : List (Nat × Nat)   -- grain, thread
  done : Bool
  deriving DecidableEq, Repr

structure XferSt where
  started : Bool
  done : Bool
  stale : List Nat        -- granules written while a KIND 1 transfer copies them (R213)
  frames : NatMap Nat     -- frames that a KIND 1 transfer's copies go to, by granule
  bad : Bool              -- it has read poison
  deriving DecidableEq, Repr

/-- A context's running segment (R162, R163). -/
structure RunSeg where
  ctx : Nat
  cid : Nat
  plan : Nat
  seg : Nat
  d : SegD                -- with the view formats that R138 substitutes
  gc0 : W64
  leaseUs : Rat           -- wall time at the lease's start
  runUs : Rat             -- wall time at the run's first lease (R339)
  grains : Nat            -- grains of the footprint
  dueUs : Option Rat      -- wall time at gc LENGTH, once it is reached (R346)
  bars : List BarSt
  xfers : List XferSt
  stop : Option StopCause
  status : Option W16     -- the first failure in the segment
  specActive : Bool
  rsem : List (W32 × Nat) -- shared-group semaphores (R344)
  chkBytes : List (Nat × Nat × NatMap Byte)   -- ped-2 x 256 + view, grain, and the bytes it wrote through it (R152)
  deriving DecidableEq, Repr

/-! ## Grains (chapters 02-05) -/

inductive TSt where
  | off | ready | waitFetch | waitTime | waitEngine | waitWindow | waitSync | done | fault
  deriving DecidableEq, Repr

inductive SpecSt where
  | none | spec | skip | resolving | commit | alt
  deriving DecidableEq, Repr

/-- The six counters of R113, the first invalid operation (R129) and the two sticky causes of R115. -/
structure Counts where
  sat : Nat
  flush : Nat
  invalid : Nat
  nanin : Nat
  ovf : Nat
  nanout : Nat
  inv : Option (Nat × Nat × Nat)
  ftzHit : Bool
  ufl : Bool
  deriving DecidableEq, Repr

/-- Scale-bank figures of one descriptor for one entry (R118). -/
structure StatFig where
  entry : Nat
  amax : W32
  nz : Nat
  uf : Nat
  deriving DecidableEq, Repr

/-- What an issued descriptor still waits for. -/
inductive OWait where
  | nothing               -- its work is done; it may complete
  | requests              -- horizon requests outstanding
  | units                 -- window units outstanding
  | weights (ser : Nat)   -- a pass that waits for its weights (R83)
  | barrier (bid : Nat)
  | sem (ped : W32) (idx n : Nat)
  | clod (cid : Nat)
  | gather
  | adds (n : Nat)        -- ADD contributions not acknowledged
  | apply                 -- an APPLY that waits for delta-log room
  | red                   -- RED_WAIT, RED_POST of a later instance
  | fill (va : Nat)       -- a cache line fill
  | resolve
  | ballast
  | threadEnd             -- END waits for the thread's earlier descriptors
  deriving DecidableEq, Repr

/-- An issued descriptor that has not completed (R41). -/
structure OutD where
  ser : Nat
  t : Nat
  pos : Nat               -- index within the stream
  daddr : W64
  desc : List Byte        -- 32 bytes
  issue : W64
  wait : OWait
  sig : Nat               -- SIG, 0 = none; 0 in paired mode
  stats : List StatFig
  counts : Counts
  counted : Bool          -- one of the opcodes of R129
  redo : Bool             -- issued by an array replay
  counted1 : Bool         -- its statistics were counted before the replay
  held : Bool             -- held back by a speculative task (R179)
  stalled : Nat
  cause : Nat
  sampled : Bool
  marked : Bool
  failed : Option W16     -- a failure that its completion reports
  guarded : Bool          -- a fetch guarded by DEADLINE
  moves : List (Nat × Nat × Nat)   -- a guarded fetch's moves: bit within the source, local bit, width
  lines : List (Nat × List Byte × Bool)   -- cache lines it has touched: address, data, poison
  checked : Option (List Nat)   -- a pass that is checked, and its vectors that are (R86, R87); an MV and its rows (R99)
  checksOk : Bool         -- the comparisons of R86 and R99 hold of its results
  deriving DecidableEq, Repr

/-- An armed DEADLINE and the late granules of its fetch (R184-R186). -/
structure Guard where
  due : Nat
  step1 : Nat
  step2 : Nat
  fetch : Option Nat      -- serial of the guarded fetch
  stage : Nat             -- 0 before DUE, 1 rung 1, 2 rung 2, 3 rung 3
  late : List Nat         -- granules late and not served
  deriving DecidableEq, Repr

structure SpecTask where
  stage : Nat
  stageLen : Nat
  first : Nat             -- the task's first descriptor, by its position
  size : Nat              -- SPECLEN
  left : Nat              -- descriptors of the task not yet issued
  altLeft : Nat
  deriving DecidableEq, Repr

structure Thr where
  st : TSt
  stream : Option Stream
  pos : Nat
  bufs : NatMap (List Byte)   -- bursts held, by burst number
  reqd : List Nat             -- bursts requested and not arrived
  spec : SpecSt
  task : Option SpecTask
  heldSig : List OutD         -- completed descriptors of the task, held back (R179)
  guards : List Guard         -- armed (no fetch yet) or guarding a fetch
  clod : Option Nat           -- index of its open clod
  redo : List Nat             -- ARR-engine positions to issue again (R90)
  redoTill : Nat              -- position of the faulting descriptor
  charged : NatMap Nat        -- gc charged since its last issue, by fine cause
  cause : Nat                 -- fine cause of its present wait, 0 = none. DEDUCED (log 36)
  deriving DecidableEq, Repr

structure AccRow where
  vals : List W32
  open_ : Bool
  tagA : Nat
  tagW : Nat
  poison : Bool
  deriving DecidableEq, Repr

/-- A weight block: raw element codes, row k, column n, in the dense layout (R82, R94). -/
structure Wts where
  fmt : Nat
  scale : Nat
  sp24 : Bool
  nt : Nat
  w : List (List Nat)
  poison : Bool
  deriving DecidableEq, Repr

structure Retry where
  pos : Nat
  active : Option Wts
  shadow : Option Wts
  deriving DecidableEq, Repr

inductive Bal where
  | planned (ser : Nat) (start : W64) | hub (level : Nat) (limited : Bool)
  deriving DecidableEq, Repr

/-- The state of a grain under its logical id: threads, array, ports. -/
structure Grain where
  ctx : Nat
  ped2 : Nat
  rank : Nat
  thr : NatMap Thr
  out : List OutD
  acc : NatMap AccRow
  active : Option Wts
  shadow : Option Wts
  loading : Option Nat      -- serial of an ARR_LOADW not complete
  arrT : Option Nat         -- the thread that fixed the ARR stream (R496)
  arrLog : List (Nat × Bool)   -- ARR-engine positions issued since the latest retry point, and whether completed
  retry : List Retry        -- newest first
  bal : Option Bal
  gated : Bool              -- the array's cells are clock-gated (R103)
  fifos : List Nat          -- paired-queue token counts (R55)
  samples : List (List Byte)
  issued : Nat              -- descriptors issued in the segment (R477)
  stall : List Nat          -- the 8 fixed counters (R467)
  engGc : NatMap W64        -- by engine, the gc of its last issue (R40)
  deriving DecidableEq, Repr

structure CacheLine where
  ctx : Nat
  va : Nat
  dirty : Bool
  data : List Byte
  poison : Bool
  lru : Nat
  deriving DecidableEq, Repr

/-- Whose lanes pass through a grain's slots (R63): a descriptor's results; those of rung n of its ladder (R185), zeros
among them; a hub transfer's data (R168); those of an incoming window access (R69); a cache line that comes in or goes
back (R61); a descriptor burst from the scratchpad (R52). -/
inductive LaneFor where
  | desc | rung (n : Nat) | xfer (idx : Nat) | access (id : Nat) | fill (va : Nat) | back (va : Nat) | burst (t b : Nat)
  deriving DecidableEq, Repr

/-- Lanes of a local store that wait for slots of their owner (R57, R63): writes, and an incoming access's reads. A
descriptor that writes completes when its last lane is written (R41). Bit addresses count from the partition's base, or,
of writes through the cache, from the object's. -/
structure PendW where
  id : Nat                  -- unique in its store
  ser : Nat                 -- the descriptor; 0 where it is none
  ctx : Nat
  g : Nat                   -- the logical grain
  why : LaneFor
  issue : W64
  owner : Nat               -- code on the wheels (R63)
  far : Bool                -- written through the cache, at completion
  view : Nat                -- the view written through; 0xFF where it is none
  all : List (Nat × Nat × Nat × Bool)  -- every write: bit, width, code, poison
  ws : List (Nat × Nat × Nat × Bool)   -- what is not written yet, cut at lanes
  rd : List (Nat × Nat × Nat)          -- what is not read yet: byte, byte of the access, count
  deriving DecidableEq, Repr

/-- What stays with a physical grain: its local store, patrol and strikes. -/
structure Phys where
  ls : Mem
  pend : List PendW         -- lanes that wait for their slots, oldest first
  poison : List Nat         -- poisoned words 0-3,071
  patrol : List Nat         -- next row of each bank
  lines : List CacheLine
  lastStrike : Option W64
  strikes : Nat
  replaying : Bool
  deriving DecidableEq, Repr

/-! ## Ped-2s, residency and leases (chapter 11) -/

structure LsPart where
  ctx : Nat
  base : Nat
  size : Nat
  cache : Nat
  lastUs : Rat              -- wall time of the last lease
  deriving DecidableEq, Repr

structure Lease where
  ctx : Nat
  startUs : Rat
  deriving DecidableEq, Repr

structure SpareCheck where
  lg : Nat                  -- logical id that moves
  old : Nat                 -- physical linear id retired
  failed : List Nat         -- spares that failed their check
  cause : Nat               -- as R495 codes GRAIN_RETIRED
  deriving DecidableEq, Repr

structure Ped2 where
  slots : NatMap LsPart
  wheels : List W64
  paired : Bool
  lease : Option Lease
  holder : Option Nat       -- the context whose live counters the ped-2 holds (R473)
  reserved : Option Nat
  saving : List Nat         -- contexts whose deep save is in progress
  restoring : Bool
  checks : List SpareCheck  -- the first one runs
  bgRunning : Bool
  ctr : List W64            -- 16 programmable counters
  prev : List (Nat × Nat)   -- for counters with EDGE: counter, and grain rank x 8 + thread that held it a gc ago (R471)
  latebar : Nat
  latemax : Nat
  refused : Nat
  corr : Nat
  gated : List Nat          -- ped-1s whose clock is stopped
  prewake : List (Nat × W64)   -- ped-1s that wake ahead of a NOTBEFORE, and the PCC at which the wake ends (R396)
  holdTill : Option W64     -- PCC before which a boundary hold lets no segment begin here (R399)
  deriving DecidableEq, Repr

/-- A deep context's saved residency on one ped-2 (R343). -/
structure SaveArea where
  ctx : Nat
  ped2 : Nat
  horizon : Nat             -- 1 NEAR, 2 HZ2, 3 HZ1 WIDE
  frames : List Nat
  saved : Bool
  data : NatMap Mem         -- by rank
  bad : NatMap (List Nat)   -- poisoned words of the data, by rank
  deriving DecidableEq, Repr

/-! ## Contexts -/

inductive CtxSt where
  | free | idle | ready | running | killing
  deriving DecidableEq, Repr

structure NumCtl where
  head : BitVec 16
  tail : BitVec 16
  size : Nat
  stk : BitVec 7            -- [6] UFL .. [0] FLUSH, as HUB_NUMCTL [14:8]
  en : Bool
  ftz : Bool
  rwp : W64
  ring : W32                -- HUB_NUMRING.HANDLE as it reads
  ringRwp : W64
  enF : Bool                -- in force
  ftzF : Bool
  sizeF : Nat
  ringF : W32
  seq : BitVec 16
  deriving DecidableEq, Repr

structure NumSum where
  ops : W64
  sat : W64
  flush : W64
  invalid : W64
  nanin : W64
  ovf : W64
  nanout : W64
  lost : W64
  deriving DecidableEq, Repr

/-- A scale-bank entry (R117). -/
structure ScaleEnt where
  scale : W32
  amaxCur : W32
  nzCur : Nat
  ufCur : Nat
  amaxHist : List W32       -- 16
  ufrHist : List Nat        -- 16
  head : Nat
  histN : Nat
  policy : Nat
  margin : Nat
  cfmt : Nat
  allow : Nat               -- [0] E4M3, [1] E5M2, [2] BF16
  tUp : Nat
  tDown : Nat
  since : Nat
  deriving DecidableEq, Repr

structure SpecReg where
  discards : BitVec 24
  commits : BitVec 24
  active : Bool
  en : Bool
  enF : Bool
  rwp : W64
  deriving DecidableEq, Repr

/-- The counters of SCH_ACCT, exact; they read in whole units, modulo 2^64 (R340). -/
structure Acct where
  leased : Rat
  arr : Rat
  mvp : Rat
  vec : Rat
  dma : Rat
  sve : Rat
  red : Rat
  debt : Rat
  deriving DecidableEq, Repr

structure SemWaiter where
  ped : W32
  idx : Nat
  n : Nat
  g : Nat
  t : Nat
  ser : Nat
  deriving DecidableEq, Repr

structure SecPol where
  kmin : Nat
  kmax : Nat
  sgroup : Nat
  bstride : Nat
  nbuddy : Nat
  en : Bool
  regs : List (W32 × Bool × Nat)   -- handle, EXPLICIT, tag
  regtab : W32
  silt : W32
  strata : W32
  mirror : W32
  deriving DecidableEq, Repr

structure Group where
  ctx : Nat
  rank : Nat
  members : List Nat
  shape : List Nat
  digest : W64
  listObj : W32            -- the object that holds its list (R198)
  deriving DecidableEq, Repr

structure Bucket where
  ctx : Nat
  group : Nat
  mode : Byte
  wfmt : Nat
  flits : Nat               -- F
  elems : Nat
  local_ : Nat
  scale : Nat
  timeout : Nat
  bytes : List Byte         -- parameter bytes 2-19
  deriving DecidableEq, Repr

/-- One secured generation of this context, as its buddies hold it (R360-R362). -/
structure SecGen where
  valid : Bool
  step : W64
  bank : NatMap ScaleEnt
  groups : NatMap Group             -- the group table (R360)
  buckets : NatMap Bucket
  expl : List (W32 × Mem)           -- EXPLICIT objects
  silt : List (W32 × Mem)
  deriving DecidableEq, Repr

structure BatchRec where
  who : W32
  seg : Nat
  data : List Byte
  deriving DecidableEq, Repr

structure RungRec where
  daddr : W64
  rung : Nat
  g : Nat
  granule : Nat
  deriving DecidableEq, Repr

structure ScaleRec where
  idx : Nat
  cfmt : Nat
  changed : Bool
  scale : W32
  deriving DecidableEq, Repr

/-- A strata entry (R355). -/
structure StrataEnt where
  step : W64
  seed : W64
  pcc0 : W64
  nseg : Nat
  lost : Bool
  secure : Bool
  gen : Bool
  rerun : Bool
  delivx : W64
  risk : Nat
  batches : List BatchRec
  scales : List ScaleRec
  rungs : List RungRec
  off : Nat                 -- where it lies in the strata object
  complete : Bool
  deriving DecidableEq, Repr

structure Secure where
  pol : Option SecPol
  gen0 : SecGen
  gen1 : SecGen
  nowreq : Bool
  nowCids : List Nat        -- SECURE_NOWs whose flag has not been sent
  nowSent : List Nat        -- SECURE_NOWs whose flag an exchange has carried
  pointCids : List Nat      -- SECURE_NOWs that the point in progress answers
  exch : Bool               -- an exchange of R359 is outstanding
  siltDone : List Nat       -- tags whose first instance after the point has ended (R361)
  rjob : Nat
  lastPoint : Option W64    -- p
  nextPoint : Option W64    -- a secure point that waits for the one in progress: its step (R359)
  nextCids : List Nat       -- SECURE_NOWs that the next secure point answers
  resend : Bool             -- a drain has aborted its securing units: they go again at the next lease (R345)
  acked : Bool              -- every buddy has acknowledged the explicit items of the point in progress (R360)
  sent : Nat                -- granules that the point in progress sends to each buddy
  pointPcc : W64            -- when the point in progress began (R362)
  sentRisk : Nat            -- what this package sent in the exchange that is outstanding (R359)
  sentNow : Bool
  recvAt : W64              -- recvX as it stood at the end of step b + 1 (R362)
  agreed : Bool             -- the exchange of the present boundary has answered: next boundary is a secure point
  point : Option (W64 × Bool)  -- a secure point in progress: its step and its target generation (false = gen0)
  sentX : W64               -- XOR of slot-0 SENT digests since p (R362)
  recvX : W64               -- XOR of slot-1 RECV digests since p
  pointX : W64 × W64        -- both as they stood at the point in progress
  strata : List StrataEnt   -- complete and written entries, oldest first
  strataPos : Nat
  cur : StrataEnt           -- the current step's entry as it grows
  rerunTill : Option W64    -- re-run mode until this step's LAST segment ends
  replayCid : Option Nat
  replayFlags : Nat
  failStep : Bool           -- a secure point failed: the current step is lost at its end
  fill : List Nat           -- ped-2s that lost a grain since the lost step (R371)
  deriving DecidableEq, Repr

structure Pmc where
  sel : List W64            -- 16 selectors in force
  selNext : NatMap W64
  scope : W32
  scopeNext : Option W32
  sums : NatMap (List W64)  -- per ped-2: 8 class sums, 16 counters, LATEBAR, LATEMAX, REFUSED
  late : List W64           -- RUNG1, RUNG2, RUNG3, LATE_ARR
  smpHead : W32
  smpTail : W32
  smpLost : W32
  smpHandle : W32
  smpSize : Nat
  smpEn : Bool
  smpPeriod : Nat
  smpNext : Option (W32 × Nat × Bool × Nat)
  deriving DecidableEq, Repr

/-- The first bursts of a segment's streams, from HZ1 (R52). -/
structure FirstLoad where
  cid : Nat                 -- the SEG_RUN and the segment that they are for
  seg : Nat
  got : List (Nat × Nat × List Byte × Bool)   -- grain, thread, bytes, poisoned
  deriving DecidableEq, Repr

structure Ctx where
  num : Nat
  st : CtxSt
  owner : Nat               -- creating function
  rsize : Nat
  deep : Bool
  deepNext : Bool           -- SWKIND as SET_SHARE left it for the next lease (R337)
  domain : W32
  weight : Nat
  limit : Nat
  slice : Nat
  weightF : Nat             -- WEIGHT, LIMIT and SLICE as the last scheduling decision took them (R337)
  limitF : Nat
  sliceF : Nat
  bankFrames : List Nat     -- the HZ1 frames of its scale bank (R117)
  first : Option FirstLoad  -- the first bursts of its next segment, once they are asked for (R52)
  deficit : Rat             -- grain-ms
  runStart : Option Rat     -- wall time at the first lease of the present run
  step : W64
  stepSeed : W64
  loadedOnce : Bool
  lost : Option W64         -- the lost step
  stepFresh : Bool          -- the next segment is the first of a step
  num_ : NumCtl
  sum : NumSum
  bank : NatMap ScaleEnt
  sems : List ((W32 × Nat) × Nat)
  waiters : List SemWaiter
  spec : SpecReg
  acct : Acct
  plans : List Plan
  runs : List SegRun        -- oldest first
  fences : List Nat         -- SEG_FENCEs that wait for the running segment to end (R210)
  rtBase : W64              -- RING_TABLE with its RWP bits
  rtEn : Bool
  dbDrop : Nat
  cmdDrop : Nat
  cqHold : Nat
  sq : NatMap SubRing
  cq : NatMap CplRing
  heldSigs : List (W32 × Nat × Nat)
  sec : Secure
  pmc : Pmc
  draining : Bool
  srcDig : List (Nat × Nat × Nat × W64)   -- segment, ped-2 x 256 + view, grain, CRC-64 of a source segment (R152)
  deriving DecidableEq, Repr

/-! ## Horizons (chapter 07) -/

structure Gran where
  promo : Bool
  dirty : Bool
  mig : Bool
  pin : Bool
  pframe : Nat
  hzn : Nat
  unit : Nat
  loc : Nat
  gen0 : Bool               -- dirty bits of the two secured generations (R360)
  gen1 : Bool
  lru : Nat
  deriving DecidableEq, Repr

structure Obj where
  ctx : Nat
  idx : Nat
  base : Nat
  size : Nat
  spread : Nat
  home : Nat
  pin : Bool
  promote : Bool
  rdonly : Bool
  port : Nat
  promoMax : Nat
  rung1 : W32
  rung2 : W32
  fbMode : Nat
  gran : List Gran
  deriving DecidableEq, Repr

structure MigG where
  granule : Nat
  frame : Nat               -- the new location
  begun : Bool              -- its copy has begun
  copied : Bool
  dirtied : Bool
  deriving DecidableEq, Repr

structure Mig where
  cid : Option Nat
  handle : W32
  hzn : Nat
  spread : Nat
  home : Nat
  unit : Nat
  first : Nat               -- the command's range, in granules: first and end
  fin : Nat
  setPin : Bool
  apply : Option (Nat × Bool × Bool × Bool × Nat)   -- OBJ_PLACE attributes taken at its end
  left : List MigG
  moved : Nat
  recopies : Nat
  deriving DecidableEq, Repr

structure PromoC where
  handle : W32
  granule : Nat
  frame : Nat
  copied : Bool
  dirtied : Bool
  deriving DecidableEq, Repr

/-- What a copy of 256-byte units moves: R212, R213 (on demand, KIND 1, and written back), R235, R248. -/
inductive CopyOf where
  | move (granule : Nat)
  | promo (granule : Nat)
  | evict (granule : Nat)
  | xfer (idx granule : Nat)
  | hotRow (table replica slot : Nat)
  | merge (table granule : Nat)
  deriving DecidableEq, Repr

inductive ReqKind where
  | read (moves : List (Nat × Nat × Nat))     -- bit within the object, local bit, width
  | write (bits : List (Nat × Nat × Nat × Bool))     -- device bit, width, value, poison
  | rung (n : Nat) (moves : List (Nat × Nat × Nat))   -- from rung n of the ladder
  | burst (t b : Nat)                         -- a descriptor burst
  | fill (t va : Nat)                         -- a cache line
  | row (src : Nat) (slots : List Nat)        -- rows of a SIEVE_GATHER: from 0 hot copies, 1 the log, 2 the home, 3 and 4 rungs
  | xfer (idx off len : Nat)                  -- a KIND 0 hub transfer's read for one die hub (R168)
  | entry (granule : Nat)                     -- a granule entry that a translation cache missed (R195)
  | copy (w : CopyOf) (write : Bool) (unit : Nat)   -- one unit of a copy; unit 256: the whole granule
  | window (f : Flit) (side : WinSide) (win : Nat)  -- a remote access to an object here (R270)
  | first (t : Nat)                           -- the first burst of a stream, before gc 0 (R52)
  | back (bytes : List (Nat × Byte)) (bad : Bool)   -- a cache line that goes back (R61): bytes of the object, poisoned
  | add (idx id : Nat) (xs : List W32) (scale : W32) (bad : Bool)   -- an ADD's contribution to a table's pool (R240)
  | apply (idx slot stage : Nat)              -- an APPLY's access for a pooled row: 0 and 1 read, 2 writes (R242)
  | aper (access : Nat) (places : List (Nat × Nat)) (data : Option (List Byte))   -- part of a BAR4 access (R306): byte of
                                              -- the access and of the object; what a write brings
  deriving DecidableEq, Repr

structure Req where
  id : Nat
  ctx : Nat
  g : Nat
  ser : Nat
  handle : W32
  unit : Nat                -- device virtual address >> 8
  kind : ReqKind
  pool : Pool
  chan : Nat                -- channel number within its pool
  tagged : Bool
  dead : Bool               -- abandoned at a cut-off (R185)
  clod : Option Nat         -- the clod that it is a part of
  part : Nat                -- its place among the descriptor's requests
  die : Nat                 -- the die hub that issues it
  since : W64               -- when it arrived there (R207)
  miss : Bool               -- it waits for its granule entry (R195)
  nv : Option (Nat × List Nat)   -- HZ3: drive and the LBAs that it covers (R204)
  ans : HzAnswer            -- how the horizon answered, where a row of its own takes the data (R223)
  deriving DecidableEq, Repr

/-- A BAR4 read that waits for its parts (R306). -/
structure AperAcc where
  id : Nat
  port : Nat
  len : Nat
  got : List (Nat × Byte)   -- bytes read, by their place
  bad : Bool                -- one of them is poisoned
  deriving DecidableEq, Repr

structure NvmeCmd where
  id : Nat
  drive : Nat
  op : Nat                  -- 0 Read, 1 Write, 2 Flush, 3 Deallocate
  lbas : List Nat
  queue : Option Nat        -- its I/O queue, 0-7; none: it waits for room in one (R219)
  reqs : List Nat           -- requests that it serves
  deriving DecidableEq, Repr

/-- The translation cache of a die hub (R195): object entries and granule entries, each with its last use. -/
structure Xlat where
  objs : List (W32 × Nat)
  grans : List (W32 × Nat × Nat)
  deriving DecidableEq, Repr

structure Hz where
  objs : List Obj
  idxSeq : NatMap Nat
  hz1 : Mem
  hz2 : Mem
  hz3 : NatMap Mem
  host0 : Mem
  host1 : Mem
  pois1 : List Nat          -- poisoned 64-byte words
  pois2 : List Nat
  pois3 : List (Nat × Nat)  -- drive, LBA
  crc3 : NatMap (NatMap W32) -- by drive and LBA: the CRC-32C that was written with it (R380)
  used1 : List Nat
  used2 : List Nat
  used3 : List (Nat × Nat)
  retFrames : List (Nat × Nat)      -- horizon, frame
  toRetire : List (Nat × Nat × Nat) -- frames with an uncorrectable error, not yet replaced: horizon, frame, channel
  channels : List Nat               -- HZ2 channels in the interleave
  failedCh : List Nat
  dpc : Nat
  dimmGib : Nat
  speed : Nat
  drives : List Nat                 -- in service
  failedDrives : List Nat
  driveGran : Nat                   -- 64 KiB granules that each drive contributes
  reduced : List Nat                -- drives at half rate
  cfgFinal : Bool                   -- HZN_CFG shows its fields
  migs : List Mig
  promos : List PromoC
  reqs : List Req                   -- oldest first
  copyBad : List (W32 × CopyOf × Nat × Bool)   -- HZ4 units of a copy that the host did not complete (R223): handle, copy,
                                    -- unit, written
  xlat : NatMap Xlat                -- by die
  mergeWarned : List Nat            -- drives with a warning record of R248 since the cold start
  unpromoted : Nat                  -- granules that a KIND 1 transfer left unpromoted (R213)
  nextReq : Nat   -- the model's own numbering: DESIGN CHOICE (log 101)
  apers : List AperAcc              -- BAR4 reads that are being served
  evicting : List (W32 × Nat)       -- promoted copies that go back to their home (R213): handle, granule
  calib : List Chan                 -- channels inside their window
  nvme : List NvmeCmd
  nextNvme : Nat   -- DESIGN CHOICE (log 101)
  hz4Failed : List (Nat × W32)      -- context, handle with a record in this segment (R223)
  deriving DecidableEq, Repr

/-! ## Sieve tables (chapter 08) -/

/-- An entry of a gradient pool, as R239 lays it out in the POOL object. -/
structure PoolEnt where
  id : Nat
  nan : Bool
  sat : Bool
  poison : Bool
  acc : List (BitVec 128)
  deriving DecidableEq, Repr

/-- An entry of a hot-row cache; its bytes lie in the cache's frames of HZ1 (R234). -/
structure HotRow where
  replica : Nat
  id : Nat
  slot : Nat
  lru : Nat
  deriving DecidableEq, Repr

/-- An entry of a delta-row log, as it lies in the DLOG object (R246). -/
structure DlogEnt where
  slot : Nat
  id : Nat
  seq : Nat
  row : List Byte
  state : List Byte
  bad : Bool                -- a byte of it is poisoned
  done : List Nat           -- granules that a merge has written with this value
  deriving DecidableEq, Repr

/-- The merge of one granule of a table (R248). -/
structure MergeSt where
  granule : Nat
  phase : Nat               -- 0 Read, 2 Write, 3 Flush, 4 written and flushed
  frame : Nat               -- the granule of the drive that it is written to
  seq : Nat                 -- the highest sequence number written
  flush : Nat               -- the NVMe Flush
  deriving DecidableEq, Repr

/-- A SIEVE_GATHER in progress. -/
structure Gather where
  g : Nat
  ser : Nat
  ids : List (Option Nat)   -- pads are none
  weights : List W32        -- FP32 bits
  poolm : Nat
  baglen : Nat
  nbag : Nat
  vc : View
  got : NatMap (List W32 × Bool)   -- row elements in FP32, poisoned
  rung : NatMap Nat
  bad : List Nat            -- bags with a poisoned id or weight
  cs : Counts               -- of dequantising weights and rows (R232)
  deriving DecidableEq, Repr

structure Sieve where
  idx : Nat
  handle : W32
  dim : Nat
  tfmt : Nat
  opt : Nat
  hot : Nat
  repl : Bool
  sr : Bool
  rstride : Nat
  stateOff : Nat
  tscale : Nat
  pool : W32
  dlog : W32
  salt : W32
  shStride : Nat
  hotRows : List HotRow
  misses : List (Nat × Nat)        -- replica, id missed once in this step
  marked : List (Nat × Nat)        -- to be admitted
  overflow : Bool
  dropped : List Nat               -- ids dropped in this pool period
  nextEnts : List PoolEnt          -- ADDs that arrive while an APPLY runs
  applying : Option (Nat × Nat × List Byte)  -- grain, serial and hyperparameters of the APPLY that runs
  left : List Nat                  -- pool slots whose rows it has still to update
  waits : List Nat                 -- those of them that wait for a log entry (R249)
  dlSeq : Nat
  dlDone : NatMap (List Nat)       -- by log slot: granules that merges have written with the entry's value
  merge : Option MergeSt           -- the merge in progress
  merging : List (Nat × Nat × Nat) -- merged granules not switched in: granule, new frame, highest sequence number
  oldLbas : List (Nat × Nat)       -- merged granules kept until the next secure point (R362): drive, granule
  hotFrames : List Nat
  ctrs : List W64                  -- the 16 counters of R251
  deriving DecidableEq, Repr

/-! ## Fabric (chapter 09) -/

inductive PSt where
  | down | training | ident | up | failed | miscabled
  deriving DecidableEq, Repr

structure FPort where
  st : PSt
  en : Bool
  peer : Nat
  peerdir : Nat
  replays : Nat
  retrains : Nat
  rwp : W64
  txSeq : BitVec 12
  rxSeq : BitVec 12         -- next SEQ expected
  buf : List Flit           -- replay buffer, oldest first
  wait : List (Flit × Option (Nat × Nat))  -- flits that wait for a credit or for room in the replay buffer, each with the
                            -- port and lane whose credit it holds here (R263)
  turn : Nat                -- the weighted class that is served, and the flits left of its turn
  left : Nat
  naks : Nat                -- consecutive NAKs for one SEQ
  nakSeq : BitVec 12
  credits : List Nat        -- by 2 x TC + VL
  rejoin : Bool             -- waits to rejoin the hash (R259)
  retraining : Bool
  identing : Bool           -- it retrains before the peer's IDENT flit has let it in (R255)
  retrainCid : Option Nat   -- a CALIBRATE KIND 2
  deriving DecidableEq, Repr

structure Win where
  ctx : Nat
  kind : Nat
  rights : Nat
  peerMap : Option (List Byte)   -- PEERMODE 1: the copied bitmap
  peerBox : W32
  key : W32
  target : W32
  off : Nat
  size : Nat
  closing : Option Nat      -- the WIN_CLOSE that waits
  deriving DecidableEq, Repr

structure WReq where
  rtag : Nat                -- its 16-bit tag; until it holds one, a number from 65,536 on of its own (R270)
  ldie : Nat
  dst : Nat
  g : Nat
  ser : Nat
  isGet : Bool
  win : Nat
  woff : Nat
  len : Nat
  moves : List (Nat × Nat × Nat)  -- GET: bit of the response, local bit, width
  sent : W64
  tagged : Bool
  flits : List Flit
  sides : List WinSide      -- what goes with each flit
  clod : Option Nat
  part : Nat
  ctx : Nat
  dead : Bool               -- given up: it holds its tag until the answer comes
  cut : Bool                -- given up at a cut-off (R185)
  deriving DecidableEq, Repr

/-- A window write that an L-die here holds prepared for a remote clod (R374). -/
structure PrepW where
  src : Nat
  clod : Nat
  ldie : Nat
  win : Nat
  woff : Nat
  data : List Byte
  side : WinSide
  deriving DecidableEq, Repr

/-- A put's descriptor whose bytes for a member grain are not all visible yet (R268). -/
structure RsemRun where
  src : Nat
  desc : Nat
  win : Nat
  member : Nat
  left : Nat
  deriving DecidableEq, Repr

/-- An accepted access to scratchpads whose lanes are not all through (R69). -/
structure WinAcc where
  id : Nat
  win : Nat
  src : Nat
  side : WinSide
  off : Nat
  len : Nat
  flit : Option Flit        -- what it answers; none for a prepared write that a decision applies (R375)
  got : List (Nat × Byte × Bool)   -- bytes read, by their place in the access
  deriving DecidableEq, Repr

/-- A flit of a chunk as it is received: neighbour, phase, index within the chunk, payload, and PROMO. -/
structure RxFlit where
  src : Nat
  result : Bool
  idx : Nat
  payload : List Byte
  promo : Bool
  deriving DecidableEq, Repr

/-- One chunk of an instance at this package. -/
structure Chunk where
  posts : List (Nat × List W32)     -- grain and FP32 elements, in arrival order
  contrib : Option (List W32)       -- this package's contribution
  parts : List (Nat × List W32)     -- neighbour slot and partial, 255 = the contribution, in arrival order
  sentUp : Bool
  promoted : Bool
  result : Option (List W32)
  crc : W64                         -- chunk CRC of the result (R290)
  rx : List RxFlit
  nancnt : Nat
  invcnt : Nat
  nanelem : Option Nat
  nanrank : Nat
  amax : W32
  deriving DecidableEq, Repr

/-- What the chunks that other ranks own add to the totals of R279 where nothing brings them here (REDUCE_SCATTER): free
values. DESIGN CHOICE (log 97). -/
structure RestTot where
  nan : Nat
  inv : Nat
  elem : Option Nat
  pkg : Nat
  promoted : Nat
  amax : W32
  deriving DecidableEq, Repr

/-- The latest instance of a bucket: in flight until `done` (R280). DESIGN CHOICE (log 98). -/
structure Inst where
  tag : Nat
  step : W64
  done : Bool
  status : W16
  firstPost : Option W64
  chunks : NatMap Chunk
  delivered : List Nat
  sentX : NatMap W64                -- by neighbour slot
  recvX : NatMap W64
  promoted : Nat
  nancnt : Nat
  invcnt : Nat
  nanelem : Option Nat
  nanrank : Nat
  amax : W32
  rest : Option RestTot
  deriving DecidableEq, Repr

structure Fab where
  torus : W32
  ctl : W64
  credit : W64
  ports : NatMap FPort
  routeOv : NatMap Byte             -- entries rewritten since the table was filled
  wins : NatMap Win
  wreqs : List WReq
  nextTag : Nat
  groups : NatMap Group
  buckets : NatMap Bucket
  insts : List Inst
  digests : List (Nat × List Byte)  -- the digest ring, oldest first: context and record
  preparedWin : List PrepW          -- in order of arrival
  rsems : List RsemRun
  acks : List (Nat × Flit)          -- units whose last flit is in and whose bytes are not all visible: window, that flit
  accs : List WinAcc                -- accesses whose lanes are not all through, oldest first
  gots : List ((Nat × Nat × Nat) × Nat × Byte × Bool)   -- bytes read for a GET of an object that is not answered yet
  hopDrops : Nat
  lateChunks : Nat
  redFlush : NatMap Nat             -- the reducer statistics of an L-die: FLUSH counts (R136)
  held : List (Nat × Nat × Nat)     -- HOLDs in force: tag, chunk, package (R345)
  early : List Flit                 -- reduction flits of instances that have not started here (R280)
  goneTags : List (Nat × Nat)       -- tag and step of instances that ended with their context (R280, R332)
  owed : List (Nat × Nat × Nat)     -- TC 0 credits that flits of an instance not yet started hold: tag, port, lane
  deriving DecidableEq, Repr

/-! ## Clods (chapter 12) -/

inductive Prep where
  | mem (handle : W32) (view : Nat) (bits : List (Nat × Nat × Nat × Bool))   -- through a view
  | win (dst : Nat)                 -- held at the target package
  | add (table : Nat) (id : Nat) (xs : List W32) (scale : W32)
  | sem (ped : W32) (idx n : Nat)
  | loc (g ser : Nat) (bits : List (Nat × Nat × Nat × Bool))   -- local writes of an ATOM read
  deriving DecidableEq, Repr

structure Clod where
  key : Nat
  ctx : Nat
  cid : Nat
  ped : W32
  t : Nat
  members : List Nat
  committed : List Nat              -- members that have issued CLOD_COMMIT
  preps : List (Nat × Nat × Prep)   -- grain, bytes, write
  failed : Option (W16 × Nat × Nat × W64)   -- cause, grain, part, descriptor address
  explicitAbort : Bool
  size : Nat                        -- of an ATOM descriptor: its bytes, which count from its issue on (R377)
  atom : Option (Nat × Nat)         -- the ATOM descriptor it stands for: grain, serial
  deriving DecidableEq, Repr

/-! ## Error block and tilth (chapter 12) -/

structure Coal where
  first : List Byte
  last : List Byte
  count : W64
  active : Bool
  deriving DecidableEq, Repr

structure ErrRing where
  recs : NatMap (List Byte)         -- by index mod 4,096
  head : BitVec 16
  tail : BitVec 16
  lost : Nat
  coal : NatMap Coal                -- by class
  deriving DecidableEq, Repr

structure Err where
  ring0 : ErrRing
  ring1 : ErrRing
  flost : Nat
  slots : NatMap (List Byte)        -- fatal slots
  valid : W64                       -- ERR_FATAL
  fseq : BitVec 16                  -- the fatal sequence number
  stopped : Option Nat              -- fatal handling: the slot of the record that began it (DEDUCED, log 54)
  dumped : Bool
  stopCls : Nat                     -- the class of the record that began the fatal handling (R390)
  barred : List Nat                 -- H-dies without a surviving pair: their ports write no dump (R388)
  noDump : List (Nat × Nat)         -- fatal slot and port: the slot records that the port wrote no dump (R388)
  risk : Nat
  periods : BitVec 16
  w : W64                           -- ERR_TILTH_W
  wInForce : W64   -- DEDUCED (log 39)
  cCe : Nat
  cLr : Nat
  cAf : Nat
  cTh : Nat
  deriving DecidableEq, Repr

/-! ## Self-test and calibration (chapter 14) -/

structure Test where
  background : List Nat             -- ped-2s under BACKGROUND
  intrusive : List (Nat × List Nat × Bool)   -- cid, ped-2s, running
  calib : List (Nat × Nat × Nat)    -- KIND, UNIT, cid
  deriving DecidableEq, Repr

/-! ## Register access (chapter 16) and counters (chapter 17) -/

structure RegIf where
  pend : List (Requester × GReg × W32)        -- open guarded slots
  shadow : List (Requester × Nat × List Byte) -- reader, register offset, its bytes
  wshadow : List (Requester × Nat × W32)      -- writer, register offset, held low word
  gFails : Nat
  gReq : Nat
  gCause : Nat
  gFn : Nat
  gOff : W32
  badsize : Nat
  rwpw : Nat
  rwpt : Bool
  boundsVoid : Bool       -- no bound of the manual holds until the next cold start (R454, R487)
  rwp : NatMap W64                            -- changed RWP bits of registers that hold no other field for them
  gsel : NatMap W32                           -- DIE_GSEL by C-die (R482)
  deriving DecidableEq, Repr

/-- What every counter in scope held at the stamp (R475), and the command that waits. -/
structure Snap where
  stamp : W64
  isPending : Bool
  ctx : Nat                                   -- 0xFFFF for raw
  cid : Option Nat
  latched : Option (List Byte)                -- the bytes of R476, taken at the stamp
  deriving DecidableEq, Repr

/-- What the package drives out: messages, responses and flits, newest last. -/
inductive Out where
  | msix (fn vector : Nat)
  | regRead (rq : Requester) (off : Nat) (data : List Byte)
  | bar4Read (port : Nat) (data : List Byte) (poisoned : Bool)
  | unsupported (rq : Requester) (bar off : Nat)       -- a read that completes with Unsupported Request (R323)
  | flit (port : Nat) (f : Flit)
  | window (f : Flit) (side : WinSide)                 -- what goes with a window flit of this package (log 98)
  | notice (pkg kind tag chunk : Nat) (status : W16)   -- TC 1: 0 failure, 1 HOLD, 2 RESUME
  | ctl (pkg kind ctx : Nat) (val : W64)               -- TC 5 and 6: risk exchange, digests, securing
  | clodDecision (pkg clod : Nat) (commit : Bool)
  | spdm (tr : Transport) (code : Byte) (data : List Byte)
  | hostWrite (port : Nat) (addr len : Nat)
  | mctp (data : List Byte)                            -- to the management path: completions (R438)
  deriving DecidableEq, Repr

/-- The package. -/
structure State where
  clk : Clk
  pwr : Pwr
  boot : Boot
  flash : Flash
  fw : Fw
  sec : Sec
  emap : EMap
  port0 : Port
  port1 : Port
  fns : NatMap Fn
  cmds : List Cmd                 -- fetched and not completed, oldest first
  nextCid : Nat   -- DESIGN CHOICE (log 101)
  ctxs : NatMap Ctx               -- every context that is not FREE
  tLast : Rat                     -- wall time of the last scheduling decision (R338)
  segs : List RunSeg
  grains : NatMap Grain           -- by logical id
  phys : NatMap Phys              -- by physical linear id
  ped2s : NatMap Ped2
  saves : List SaveArea
  nextSer : Nat   -- DESIGN CHOICE (log 101)
  hz : Hz
  sieves : List Sieve
  gathers : List Gather
  fab : Fab
  clods : List Clod
  nextClod : Nat   -- DESIGN CHOICE (log 101)
  err : Err
  test : Test
  reg : RegIf
  snap : Snap
  out : List Out   -- DESIGN CHOICE (log 100)
  freeCtr : Nat                   -- how many free values the steps have taken (the model's own). DESIGN CHOICE (log 5)
  pending : List Instr            -- commands waiting, first in, first out
  deriving DecidableEq, Repr

/-! ## Reset: the package at power-on, before the standby supply is up (R405). A value the spec gives is cited; every
other value is named in notes/assumptions/1.md. -/

/-- R391, R393, R403: RTC and PCC 0; R483: the pins' levels before power-on. The rest: DESIGN CHOICE (log 1). -/
def Clk.reset : Clk :=
  { vstby := false, mainEn := false, pccRun := false, pcc := 0, rtc := 0, tbPcc := 0, tbRtc := 0, aoh1 := false,
    h0Lost := false, wallUs := 0, tamperLow := 0 }

/-- R404: PWR_CTL 3, PWR_LIMIT 0x01B861A8, PWR_CLKCTL, CLK 0x640; R104: PWR_BALLAST. The rest: DESIGN CHOICE (log 1). -/
def Pwr.reset : Pwr :=
  { pkgW := 0, level := 0, clk := 0x640, clkNext := none, cause := 0, ctl := 3, limit := 0x01B861A8,
    limitInForce := 0x01B861A8, clkctl := 0x00100640, clkctlInForce := 0x00100640, ballast := 0x00160200,
    ballastDie := [], stretch := 0, lowGc := 0, saturated := false, hold := none, lidHot := false, railWarned := [],
    dies := [], otherThermal := [], crit := [], move := none }

def FactoryPart.blank : FactoryPart := { valid := false, serial := 0, rev := 0, dies := [], failed0 := [] }

/-- Read from the spec by inference: DEDUCED (log 25). -/
def FieldPart.blank : FieldPart :=
  { valid := false, seq := 0, pclk := 0, vstep := [], retired := [], failed := [], frames := [] }

/-- R422: the values of a directory none of whose copies is valid. -/
def Dir.blank : Dir :=
  { valid := false, seq := 0, active := 0, pend := none, tries := 0, stage := none, svnFloor := 0, nchunk := 0,
    mdigest := 0, bitmap := 0 }

/-- Boot flash as it leaves the factory in this model: a valid factory part that records no failed grain.
DESIGN CHOICE (log 1, 33). -/
def Flash.reset : Flash :=
  { dir0 := Dir.blank, dir1 := Dir.blank, helper0 := true, helper1 := true,
    factA := { FactoryPart.blank with valid := true }, factB := { FactoryPart.blank with valid := true },
    fieldA := FieldPart.blank, fieldB := FieldPart.blank, slotA := [], slotB := [], certChain := [] }

/-- Where the spec gives no value: DESIGN CHOICE (log 1). -/
def Fw.reset : Fw :=
  { dir := Dir.blank, dirWritable := false, st := .idle, slotRun := 0, svn := 0, actCid := none, actLive := false,
    stamp := none, switched := [], unitsSwitched := false, loadUs := none, abortCid := none, standby := false,
    standbyUsed := [], trial := false, recStage := 0 }

/-- R446: SEC_ALARM 2, 2, 1, 1, 1 for DEBUG, TAMPER, TEMP, CLOCK, VOLT. The rest: DESIGN CHOICE (log 1). -/
def Sec.reset : Sec :=
  { idok := false, seed := none, dbg := false, level := 0, cause := 0, srcActive := 0,
    alarm := 0x295, erasePending := false, test := 0, scrub := 0,
    nonce := 0, meas := [], measVer := [], log := [], logNext := 0, chain := 0, chainOld := [], spdm := [] }

/-- R420: HUB_BOOT 0. The rest: DESIGN CHOICE (log 1). -/
def Boot.reset : Boot :=
  { running := false, phase := 0, outcome := 0, reason := 0, elapsedMs := 0, p0Rtc := 0, hbmDone := [],
    hbmFailed := [], ddrDone := false, nvmeDone := false, testDone := false,
    degraded := false, ready := false, serialShown := false, kind := 0, kindValid := false,
    clkbin := 0, fact := FactoryPart.blank, field := FieldPart.blank, fieldCopyA := false, fieldWritable := false,
    recPending := false, recovery := false }

/-- Where the spec gives no value: DESIGN CHOICE (log 1). -/
def EMap.reset : EMap :=
  { built := false, enabled := [], spare := [], cold := [], subst := [], retired := [], gen := 0 }

/-- Where the spec gives no value: DESIGN CHOICE (log 1). -/
def Port.reset : Port :=
  { linkUp := false, width := 0, gen := 0, downRtc := 0, perst := true, inReset := true, pkgReq := false,
    dump := none, weight := 1, weightF := 1, vfEnable := false, bar4 := 68719476736 }

/-- Where the spec gives no value: DESIGN CHOICE (log 1). -/
def Hz.reset : Hz :=
  { objs := [], idxSeq := [], hz1 := [], hz2 := [], hz3 := [], host0 := [], host1 := [], pois1 := [], pois2 := [],
    pois3 := [], crc3 := [], used1 := [], used2 := [], used3 := [], retFrames := [], toRetire := [], channels := [],
    failedCh := [], dpc := 0, dimmGib := 0, speed := 0, drives := [], failedDrives := [], driveGran := 0,
    reduced := [], cfgFinal := false, migs := [], promos := [], reqs := [], copyBad := [], xlat := [], mergeWarned := [], unpromoted := 0, nextReq := 0, apers := [], evicting := [], calib := [],
    nvme := [], nextNvme := 0, hz4Failed := [] }

/-- R294: LNK_TORUS 0, LNK_CTL 0x186A00, LNK_CREDIT 160, 16, 96, 32, 96, 64, 32, 16 from byte 0.
The rest: DESIGN CHOICE (log 1). -/
def Fab.reset : Fab :=
  { torus := 0, ctl := 0x186A00, credit := 0x10204060206010A0, ports := [], routeOv := [], wins := [], wreqs := [],
    nextTag := 0, groups := [], buckets := [], insts := [], digests := [], preparedWin := [], rsems := [], acks := [], accs := [], gots := [], hopDrops := 0,
    lateChunks := 0, redFlush := [], held := [], early := [], goneTags := [], owed := [] }

/-- Where the spec gives no value: DESIGN CHOICE (log 1). -/
def ErrRing.reset : ErrRing := { recs := [], head := 0, tail := 0, lost := 0, coal := [] }

/-- R386: ERR_FATAL 0 at power-on; R387: ERR_TILTH_W 0x20, 0x20, 0xFF, 0x40, 0x01. The rest: DESIGN CHOICE (log 1). -/
def Err.reset : Err :=
  { ring0 := ErrRing.reset, ring1 := ErrRing.reset, flost := 0, slots := [], valid := 0, fseq := 0, stopped := none,
    dumped := false, stopCls := 0, barred := [], noDump := [], risk := 0, periods := 0, w := 0x2020FF4001,
    wInForce := 0x2020FF4001, cCe := 0, cLr := 0, cAf := 0, cTh := 0 }

/-- Where the spec gives no value: DESIGN CHOICE (log 1). -/
def Test.reset : Test :=
  { background := [], intrusive := [], calib := [] }

/-- R449, R464: HUB_GUARD and HUB_ACCERR 0. The rest: DESIGN CHOICE (log 1). -/
def RegIf.reset : RegIf :=
  { pend := [], shadow := [], wshadow := [], gFails := 0, gReq := 0, gCause := 0, gFn := 0, gOff := 0, badsize := 0,
    rwpw := 0, rwpt := false, boundsVoid := false, rwp := [], gsel := [] }

/-- Where the spec gives no value: DESIGN CHOICE (log 1). -/
def Snap.reset : Snap := { stamp := 0, isPending := false, ctx := 0, cid := none, latched := none }

/-- The package at power-on. The rest: DESIGN CHOICE (log 1). -/
def State.reset : State :=
  { clk := Clk.reset, pwr := Pwr.reset, boot := Boot.reset, flash := Flash.reset, fw := Fw.reset, sec := Sec.reset,
    emap := EMap.reset, port0 := Port.reset, port1 := Port.reset, fns := [], cmds := [], nextCid := 0, ctxs := [],
    tLast := 0, segs := [], grains := [], phys := [], ped2s := [], saves := [], nextSer := 1, hz := Hz.reset,
    sieves := [], gathers := [], fab := Fab.reset, clods := [], nextClod := 0, err := Err.reset, test := Test.reset,
    reg := RegIf.reset, snap := Snap.reset, out := [], freeCtr := 0, pending := [] }

end Sys2Proof.Machine
end

