-- ==== Sys2Proof/Machine/Ops.lean ====
section
/-! DEFINITION. The named operations that every family of commands uses: bytes and sparse maps, grain numbering and
peds (chapter 01), free values, messages and error records (chapters 10 and 12), completing a command, objects and
the bytes of the horizons (chapter 07). -/

namespace Sys2Proof.Machine

open Sys2Proof

/-! ## Bytes and bits -/

/-- The n low bytes of v, little-endian (R7). -/
def leBytes : Nat → Nat → List Byte
  | 0, _ => []
  | n + 1, v => BitVec.ofNat 8 (v % 256) :: leBytes n (v / 256)

/-- The number that bytes spell, little-endian (R7). -/
def leNat : List Byte → Nat
  | [] => 0
  | b :: r => b.toNat + 256 * leNat r

/-- Bits [lo+w-1:lo] of v. -/
def bits (v lo w : Nat) : Nat := v / 2 ^ lo % 2 ^ w

def bitAt (v i : Nat) : Bool := v / 2 ^ i % 2 == 1

def slice (l : List Byte) (off n : Nat) : List Byte := (l.drop off).take n

def u8 (l : List Byte) (off : Nat) : Nat := leNat (slice l off 1)
def u16 (l : List Byte) (off : Nat) : Nat := leNat (slice l off 2)
def u32 (l : List Byte) (off : Nat) : Nat := leNat (slice l off 4)
def u64 (l : List Byte) (off : Nat) : Nat := leNat (slice l off 8)

def allZero (l : List Byte) : Bool := l.all (· == 0)

/-- l cut or filled with zeros to n bytes. -/
def pad (n : Nat) (l : List Byte) : List Byte := l.take n ++ List.replicate (n - l.length) 0

/-- l with the bytes at off replaced by b. -/
def patch (l : List Byte) (off : Nat) (b : List Byte) : List Byte :=
  l.take off ++ b ++ l.drop (off + b.length)

def b2n (b : Bool) : Nat := if b then 1 else 0

/-- Saturating addition to a field of w bits. -/
def satAdd (w a b : Nat) : Nat := min (a + b) (2 ^ w - 1)

def ceilDiv (a b : Nat) : Nat := (a + b - 1) / b

/-! ## Sparse maps and sparse bytes -/

def nmGet {α : Type} : NatMap α → Nat → Option α
  | [], _ => none
  | (a, x) :: r, k => if a = k then some x else nmGet r k

def nmGetD {α : Type} (m : NatMap α) (k : Nat) (d : α) : α := (nmGet m k).getD d

/-- The map with x at k; keys stay rising. -/
def nmSet {α : Type} (k : Nat) (x : α) : NatMap α → NatMap α
  | [] => [(k, x)]
  | (a, y) :: r => if k < a then (k, x) :: (a, y) :: r else if a = k then (k, x) :: r else (a, y) :: nmSet k x r

def nmDel {α : Type} (k : Nat) (m : NatMap α) : NatMap α := m.filter (fun e => e.1 != k)

/-- The map with f applied to the value at k, where there is one. -/
def nmUpd {α : Type} (k : Nat) (f : α → α) (m : NatMap α) : NatMap α :=
  m.map (fun e => if e.1 = k then (e.1, f e.2) else e)

/-- The map with f applied to the value at k, or to d where there is none. -/
def nmUpdD {α : Type} (k : Nat) (d : α) (f : α → α) (m : NatMap α) : NatMap α := nmSet k (f (nmGetD m k d)) m

/-- What a byte reads as: 0 where nothing is listed. DESIGN CHOICE (log 10). -/
def memByte : Mem → Nat → Byte
  | [], _ => 0
  | (a, b) :: r, k => if a = k then b else memByte r k

/-- The memory with byte v at k, in the canonical form: addresses rising, no zero listed. -/
def memSet (k : Nat) (v : Byte) : Mem → Mem
  | [] => if v = 0 then [] else [(k, v)]
  | (a, b) :: r =>
    if k < a then (if v = 0 then (a, b) :: r else (k, v) :: (a, b) :: r)
    else if a = k then (if v = 0 then r else (k, v) :: r)
    else (a, b) :: memSet k v r

def memRead (m : Mem) (a : Nat) : Nat → List Byte
  | 0 => []
  | n + 1 => memByte m a :: memRead m (a + 1) n

def memWrite (m : Mem) (a : Nat) : List Byte → Mem
  | [] => m
  | b :: r => memWrite (memSet a b m) (a + 1) r

/-- The memory with every byte of [a, a+n) zero. -/
def memClear (a n : Nat) (m : Mem) : Mem := m.filter (fun e => e.1 < a || a + n ≤ e.1)

/-- The bytes of [a, a+n), moved to start at b. -/
def memMove (a n b : Nat) (m : Mem) : Mem :=
  (m.filter (fun e => a ≤ e.1 && e.1 < a + n)).map (fun e => (e.1 - a + b, e.2))

/-- Addresses strictly rising. -/
def rising : Mem → Bool
  | [] => true
  | [_] => true
  | (a, _) :: (b, y) :: r => a < b && rising ((b, y) :: r)

/-- The canonical form of a sparse memory. DESIGN CHOICE (log 10). -/
def Memory.wf (m : Mem) : Bool := rising m && m.all (fun e => e.2 != 0)

/-! ## CRCs (R492) -/

def crc64Bits : Nat → W64 → W64
  | 0, c => c
  | n + 1, c => crc64Bits n (if c.getLsbD 63 then (c <<< 1) ^^^ 0x42F0E1EBA9EA3693 else c <<< 1)

/-- CRC-64 over bytes, continuing from c. -/
def crc64From (c : W64) (l : List Byte) : W64 :=
  l.foldl (fun (c : W64) (b : Byte) => crc64Bits 8 (c ^^^ (b ++ (0 : BitVec 56)))) c

def crc64 (l : List Byte) : W64 := crc64From 0 l

def crc32cBits : Nat → W32 → W32
  | 0, c => c
  | n + 1, c => crc32cBits n (if c.getLsbD 0 then (c >>> 1) ^^^ 0x82F63B78 else c >>> 1)

def crc32c (l : List Byte) : W32 :=
  (l.foldl (fun (c : W32) b => crc32cBits 8 (c ^^^ b.zeroExtend 32)) 0xFFFFFFFF) ^^^ 0xFFFFFFFF

/-- A list with x added at its end unless it is there. -/
def addOnce {α : Type} [DecidableEq α] (x : α) (l : List α) : List α := if x ∈ l then l else l ++ [x]

def del {α : Type} [DecidableEq α] (x : α) (l : List α) : List α := l.filter (fun y => y != x)

def sumNat (l : List Nat) : Nat := l.foldl (· + ·) 0

/-- The list with f applied to every element that p picks. -/
def updWhere {α : Type} (p : α → Bool) (f : α → α) (l : List α) : List α := l.map (fun x => if p x then f x else x)

/-! ## Free values -/

/-- A fresh value that nothing constrains. DESIGN CHOICE (log 5). -/
def freeBits (w : Nat) (s : State) : BitVec w × State :=
  (Config.freeValue s.freeCtr, { s with freeCtr := s.freeCtr + 1 })

/-- A fresh choice below n (0 where n is 0). DESIGN CHOICE (log 5). -/
def freeBelow (n : Nat) (s : State) : Nat × State :=
  (Config.freeNat s.freeCtr % max n 1, { s with freeCtr := s.freeCtr + 1 })

def freeBool (s : State) : Bool × State := (Config.freeBool s.freeCtr, { s with freeCtr := s.freeCtr + 1 })

/-! ## Places in State -/

/-- Open in the spec: DESIGN CHOICE (log 100). -/
def emit (o : Out) (s : State) : State := { s with out := s.out ++ [o] }

def portOf (s : State) (p : Nat) : Port := if p = 0 then s.port0 else s.port1

def updPort (p : Nat) (f : Port → Port) (s : State) : State :=
  if p = 0 then { s with port0 := f s.port0 } else { s with port1 := f s.port1 }

def subRingOff : SubRing := { loaded := false, base := 0, size := 0, kind := 0, ped := 0, pos := 0, tail := 0 }

def cplRingOff : CplRing :=
  { loaded := false, base := 0, size := 0, en := false, vector := 0xFFFF, icount := 1, itime := 0, pos := 0, fill := 0,
    gen := 1, since := 0 }

/-- A function at reset (R302). No row writes configuration space, so Memory Space Enable and MSI-X Enable stand as a host
sets them. DESIGN CHOICE (log 1, 66); DEDUCED (log 60). -/
def fnReset : Fn :=
  { bme := false, mse := true, d3hot := false, inReset := false, asq := 0, acq := 0, ctl := 0, ardy := false,
    aenHeld := false, asqr := subRingOff, acqr := cplRingOff, disabling := false, aperMiss := 0, dbDrop := 0,
    aper := 0, slots := [], replies := [], replyCid := [], msix := [], pba := [], msixEn := true, msixMask := false, weight := 1, weightF := 1 }

def fnOf (s : State) (fn : Nat) : Fn := nmGetD s.fns fn fnReset

def updFn (fn : Nat) (f : Fn → Fn) (s : State) : State :=
  { s with fns := nmUpdD fn fnReset f s.fns }

def ctxOf (s : State) (c : Nat) : Option Ctx := nmGet s.ctxs c

def updCtx (c : Nat) (f : Ctx → Ctx) (s : State) : State := { s with ctxs := nmUpd c f s.ctxs }

def cmdOf (s : State) (cid : Nat) : Option Cmd := s.cmds.find? (fun c => c.cid == cid)

def updCmd (cid : Nat) (f : Cmd → Cmd) (s : State) : State :=
  { s with cmds := updWhere (fun c => c.cid == cid) f s.cmds }

def segOf (s : State) (c : Nat) : Option RunSeg := s.segs.find? (fun r => r.ctx == c)

def updSeg (c : Nat) (f : RunSeg → RunSeg) (s : State) : State :=
  { s with segs := updWhere (fun r => r.ctx == c) f s.segs }

/-- Open in the spec: DESIGN CHOICE (log 1). -/
def ped2Reset : Ped2 :=
  { slots := [], wheels := [], paired := false, lease := none, holder := none, reserved := none, saving := [],
    restoring := false, checks := [], bgRunning := false, ctr := [], prev := [], latebar := 0, latemax := 0, refused := 0, corr := 0,
    gated := [], prewake := [], holdTill := none }

def ped2Of (s : State) (p : Nat) : Ped2 := nmGetD s.ped2s p ped2Reset

def updPed2 (p : Nat) (f : Ped2 → Ped2) (s : State) : State := { s with ped2s := nmUpdD p ped2Reset f s.ped2s }

/-- Open in the spec: DESIGN CHOICE (log 1). -/
def physReset : Phys :=
  { ls := [], pend := [], poison := [], patrol := [], lines := [], lastStrike := none, strikes := 0, replaying := false }

def physOf (s : State) (q : Nat) : Phys := nmGetD s.phys q physReset

def updPhys (q : Nat) (f : Phys → Phys) (s : State) : State := { s with phys := nmUpdD q physReset f s.phys }

def updGrain (g : Nat) (f : Grain → Grain) (s : State) : State := { s with grains := nmUpd g f s.grains }

def updThr (g t : Nat) (f : Thr → Thr) (s : State) : State :=
  updGrain g (fun gr => { gr with thr := nmUpd t f gr.thr }) s

def updOut (g ser : Nat) (f : OutD → OutD) (s : State) : State :=
  updGrain g (fun gr => { gr with out := updWhere (fun o => o.ser == ser) f gr.out }) s

def outDOf (s : State) (g ser : Nat) : Option OutD :=
  (nmGet s.grains g).bind (fun gr => gr.out.find? (fun o => o.ser == ser))

def updObj (h : W32) (f : Obj → Obj) (s : State) : State :=
  { s with hz := { s.hz with
      objs := updWhere (fun o => o.ctx == h.toNat / 2 ^ 22 && o.idx == h.toNat % 2 ^ 22) f s.hz.objs } }

def updSieve (i : Nat) (f : Sieve → Sieve) (s : State) : State :=
  { s with sieves := updWhere (fun t => t.idx == i) f s.sieves }

/-! ## Grain numbering (R21-R26) -/

def ped2Count : Nat := 1200

/-- How many of the first n positions a bitmap sets. -/
def popBelow (m : BitVec 256) : Nat → Nat
  | 0 => 0
  | n + 1 => popBelow m n + b2n (m.getLsbD n)

def popCount (m : BitVec 256) : Nat := popBelow m 256

/-- The position of the k-th set bit among positions lo, lo+1, …, with `fuel` positions to look at. -/
def nthBit (m : BitVec 256) : Nat → Nat → Nat → Option Nat
  | _, _, 0 => none
  | k, lo, fuel + 1 =>
    if m.getLsbD lo then (if k = 0 then some lo else nthBit m (k - 1) (lo + 1) fuel) else nthBit m k (lo + 1) fuel

/-- R25: the ped-2 index and the rank that a logical id spells. -/
def logicalPed2 (g : Nat) : Nat := g / 250
def logicalRank (g : Nat) : Nat := g % 250
def logicalId (p k : Nat) : Nat := p * 250 + k

def ped2InService (s : State) (p : Nat) : Bool := p < ped2Count && !(nmGetD s.emap.enabled p 0 == 0)

def assigned (s : State) (g : Nat) : Bool := ped2InService s (logicalPed2 g)

/-- R26: the cold-start position of the grain of rank k. -/
def coldPos (s : State) (p k : Nat) : Option Nat := nthBit (nmGetD s.emap.cold p 0) k 0 256

/-- R23, R26: the physical linear id that holds logical id g now. -/
def physId (s : State) (g : Nat) : Nat :=
  let q := logicalPed2 g * 256 + (coldPos s (logicalPed2 g) (logicalRank g)).getD 0
  match s.emap.subst.find? (fun e => e.1 == q) with
  | some e => e.2
  | none => q

def dieOfPed2 (p : Nat) : Nat := p / 25

/-- R15: the quadrant of a C-die. -/
def quadOf (c : Nat) : Nat := 2 * b2n (3 ≤ c / 8) + b2n (4 ≤ c % 8)

def quadDies (q : Nat) : List Nat := (List.range 48).filter (fun c => quadOf c == q)

/-- R17-R19: the place of a die (0-47 C, 48-55 L, 56-61 T, 62-63 H) and the port C-die of an end (R18). -/
def refPos (d : Nat) : Nat × Nat :=
  if d < 48 then (d / 8, d % 8)
  else if d < 52 then (0, 2 * (d - 48))
  else if d < 56 then (5, 2 * (d - 52))
  else if d < 59 then (2 * (d - 56), 0)
  else if d < 62 then (2 * (d - 59), 7)
  else if d = 62 then (0, 0) else (5, 7)

def absDiff (a b : Nat) : Nat := (a - b) + (b - a)

/-- The port C-die of die d for the other end at (row, col), and the bridges between d and it. -/
def portDie (d : Nat) (other : Nat × Nat) : Nat × Nat :=
  let nearer (x y t : Nat) : Nat := if absDiff y t < absDiff x t then y else x
  let l (d : Nat) : Nat := (refPos d).1 * 8 + nearer (refPos d).2 ((refPos d).2 + 1) other.2
  let t (d : Nat) : Nat := nearer (refPos d).1 ((refPos d).1 + 1) other.1 * 8 + (refPos d).2
  if d < 48 then (d, 0)
  else if d < 56 then (l d, 1)
  else if d < 62 then (t d, 1)
  else if d = 62 then (if other.1 ≤ 2 then (l 48, 2) else (t 56, 2))
  else (if 3 ≤ other.1 then (l 55, 2) else (t 61, 2))

/-- R19: bridge hops between two dies. -/
def hops (a b : Nat) : Nat :=
  if a = b then 0
  else if (a, b) ∈ [(62, 48), (48, 62), (62, 56), (56, 62), (63, 55), (55, 63), (63, 61), (61, 63)] then 1
  else
    let pa := portDie a (refPos b)
    let pb := portDie b (refPos a)
    let sharedL := if 48 ≤ a && a < 62 && 48 ≤ b && b < 62 then
        let fa := if a < 56 then [(refPos a).1 * 8 + (refPos a).2, (refPos a).1 * 8 + (refPos a).2 + 1]
          else [(refPos a).1 * 8 + (refPos a).2, ((refPos a).1 + 1) * 8 + (refPos a).2]
        let fb := if b < 56 then [(refPos b).1 * 8 + (refPos b).2, (refPos b).1 * 8 + (refPos b).2 + 1]
          else [(refPos b).1 * 8 + (refPos b).2, ((refPos b).1 + 1) * 8 + (refPos b).2]
        fa.any (fun c => c ∈ fb)
      else false
    if sharedL then 2
    else pa.2 + pb.2 + absDiff (pa.1 / 8) (pb.1 / 8) + absDiff (pa.1 % 8) (pb.1 % 8)

/-! ## Ped addresses (R31, R32) -/

/-- A set of grains: ped-2s, each with the ranks it takes part with (none: every enabled grain). -/
abbrev PedSet := List (Nat × Option (List Nat))

def pedSetMem (l : PedSet) (g : Nat) : Bool :=
  l.any (fun e => e.1 == logicalPed2 g && (match e.2 with | none => true | some r => logicalRank g ∈ r))

def pedSetCount (l : PedSet) : Nat :=
  l.foldl (fun n e => n + (match e.2 with | none => 250 | some r => r.length)) 0

/-- The grains of a set, in ascending logical id, ped-2 by ped-2. -/
def pedSetGrains (l : PedSet) : List Nat :=
  l.flatMap (fun e => match e.2 with
    | none => (List.range 250).map (logicalId e.1)
    | some r => r.map (logicalId e.1))

def pedSetPed2s (l : PedSet) : List Nat := l.map (·.1)

/-- R31: the ped address holds a value out of its range: a C-die above 47, a ped-2 above 24, an id above 299,999. -/
def pedOutOfRange (a : Nat) : Bool :=
  let kind := bits a 28 4
  (kind ≤ 3 && 47 < bits a 22 6) || (kind ≤ 2 && 24 < bits a 17 5) || (kind == 9 && 299999 < bits a 0 19)

/-- Why a ped address names nothing that may be named. -/
inductive PedBad where
  | reserved      -- a reserved KIND or a set bit that is not listed
  | unassigned    -- a die, ped-2 or grain that does not exist or is out of service
  | unknown       -- a logical ped that the context does not declare
  deriving DecidableEq, Repr

/-- R26: ranks of ped-2 p whose cold-start position p picks. -/
def ranksAt (s : State) (p : Nat) (pick : Nat → Bool) : List Nat :=
  (List.range 250).filter (fun k => match coldPos s p k with | some x => pick x | none => false)

/-- R420: the outcome moves from READY to DEGRADED in service. DEDUCED (log 81). -/
def reportDegraded (s : State) : State :=
  { s with boot := { s.boot with outcome := if s.boot.outcome = 1 then 2 else s.boot.outcome } }

/-- The grains of a physical ped. A ped-3, ped-4 or ped-5 that holds a retired ped-2 stays usable with the ped-2s that
are left to it, as a member of a logical ped too: the spec makes a ped unusable where a member ped-2 retires whole and
leaves a larger member open (R32, R36). DESIGN CHOICE (log 106). -/
def physPed (s : State) (a : Nat) : Except PedBad PedSet :=
  let kind := bits a 28 4
  let c := bits a 22 6
  let p := bits a 17 5
  let whole (l : List Nat) : Except PedBad PedSet :=
    match l.filter (ped2InService s) with
    | [] => .error .unassigned
    | l => .ok (l.map (fun q => (q, none)))
  if kind = 0 then
    if bits a 0 9 ≠ 0 then .error .reserved
    else if 47 < c || 24 < p || !(ped2InService s (c * 25 + p)) then .error .unassigned
    else match ranksAt s (c * 25 + p) (fun x => x == bits a 9 8) with
      | [] => .error .unassigned
      | r => .ok [(c * 25 + p, some r)]
  else if kind = 1 then
    if bits a 0 13 ≠ 0 then .error .reserved
    else if 47 < c || 24 < p || !(ped2InService s (c * 25 + p)) then .error .unassigned
    else .ok [(c * 25 + p, some (ranksAt s (c * 25 + p) (fun x => x / 16 == bits a 13 4)))]
  else if kind = 2 then
    if bits a 0 17 ≠ 0 then .error .reserved
    else if 47 < c || 24 < p || !(ped2InService s (c * 25 + p)) then .error .unassigned
    else .ok [(c * 25 + p, none)]
  else if kind = 3 then
    if bits a 0 22 ≠ 0 then .error .reserved
    else if 47 < c then .error .unassigned
    else whole ((List.range 25).map (fun i => c * 25 + i))
  else if kind = 4 then
    if bits a 0 22 ≠ 0 || bits a 24 4 ≠ 0 then .error .reserved
    else whole ((quadDies (bits a 22 2)).flatMap (fun d => (List.range 25).map (fun i => d * 25 + i)))
  else if kind = 5 then
    if bits a 0 28 ≠ 0 then .error .reserved else whole (List.range ped2Count)
  else if kind = 9 then
    if bits a 19 9 ≠ 0 then .error .reserved
    else if !(assigned s (bits a 0 19)) then .error .unassigned
    else .ok [(logicalPed2 (bits a 0 19), some [logicalRank (bits a 0 19)])]
  else .error .reserved

/-- Two sets joined: a whole ped-2 takes in its ranks. -/
def pedSetJoin (a b : PedSet) : PedSet :=
  b.foldl (fun l e =>
    match l.find? (fun x => x.1 == e.1) with
    | none => l ++ [e]
    | some (_, none) => l
    | some (_, some r) => updWhere (fun x => x.1 == e.1)
        (fun _ => (e.1, match e.2 with | none => none | some q => some (q.foldl (fun z k => addOnce k z) r))) l) a

/-- R33: the logical peds of a table, each resolved from those before it; a bad member leaves out its ped.
DEDUCED (log 78). -/
def resolvePeds (s : State) (tab : List (Nat × List W32)) : List (Nat × Except PedBad PedSet) :=
  tab.foldl (fun acc e =>
    acc ++ [(e.1, e.2.foldl (fun r m =>
      match r with
      | .error x => .error x
      | .ok l =>
        let one : Except PedBad PedSet :=
          if bits m.toNat 28 4 = 8 then
            if bits m.toNat 16 12 ≠ 0 then .error .reserved
            else match acc.find? (fun y => y.1 == bits m.toNat 0 16) with
              | some y => y.2
              | none => .error .unknown
          else physPed s m.toNat
        match one with
        | .error x => .error x
        | .ok q => .ok (pedSetJoin l q)) (.ok []))]) []

/-- The grains that a ped address names for a context. -/
def pedOf (s : State) (ctx : Nat) (a : W32) : Except PedBad PedSet :=
  if bits a.toNat 28 4 = 8 then
    if bits a.toNat 16 12 ≠ 0 then .error .reserved
    else
      let plans := match ctxOf s ctx with | some x => x.plans | none => []
      match plans.find? (fun pl => pl.peds.any (fun e => e.1 == bits a.toNat 0 16)) with
      | none => .error .unknown
      | some pl => match (resolvePeds s pl.peds).find? (fun y => y.1 == bits a.toNat 0 16) with
        | some y => y.2
        | none => .error .unknown
  else physPed s a.toNat

/-- R30, R71: one name for a ped: a grain's two addresses name the same ped. -/
def canonPed (s : State) (a : W32) : W32 :=
  if bits a.toNat 28 4 = 9 then
    let g := bits a.toNat 0 19
    match coldPos s (logicalPed2 g) (logicalRank g) with
    | some x => BitVec.ofNat 32 ((logicalPed2 g / 25) * 2 ^ 22 + (logicalPed2 g % 25) * 2 ^ 17 + x * 2 ^ 9)
    | none => a
  else a

def leasedTo (s : State) (ctx p : Nat) : Bool :=
  match (ped2Of s p).lease with
  | some l => l.ctx == ctx
  | none => false

/-- R32: every ped-2 of the set is leased to the context. DEDUCED (log 95). -/
def pedLeased (s : State) (ctx : Nat) (l : PedSet) : Bool := l.all (fun e => leasedTo s ctx e.1)

/-! ## Messages (R300, R322) -/

/-- A message on vector v of function fn: sent, or pending while the vector, the function or MSI-X as a whole is masked or
without bus mastering. PRESUMED (log 66). -/
def signal (fn v : Nat) (s : State) : State :=
  let f := fnOf s fn
  let masked := match nmGet f.msix v with
    | some e => e.getLsbD 96
    | none => true
  if masked || f.msixMask || !f.msixEn || !f.bme then updFn fn (fun f => { f with pba := addOnce v f.pba }) s else emit (.msix fn v) s

/-- Pending vectors that are no longer masked are sent. PRESUMED (log 66). -/
def flushPba (fn : Nat) (s : State) : State :=
  (fnOf s fn).pba.foldl (fun s v => signal fn v (updFn fn (fun f => { f with pba := del v f.pba }) s)) s

/-! ## Error records (R382-R387, R495) -/

/-- The 64 bytes of a record but for SEQ. `detail` lists pieces of DETAIL by offset. -/
def mkRec (s : State) (cls sev : Nat) (ctx : Option Nat) (die unit : Nat) (detail : List (Nat × Nat × Nat)) :
    List Byte :=
  let fn := match ctx.bind (ctxOf s) with | some c => c.owner | none => 0xFF
  let step := match ctx.bind (ctxOf s) with | some c => c.step.toNat | none => 0
  let det := detail.foldl (fun l e => patch l e.1 (leBytes e.2.1 e.2.2)) (List.replicate 32 0)
  leBytes 8 s.clk.pcc.toNat ++ leBytes 8 s.clk.rtc.toNat ++ leBytes 1 cls ++ leBytes 1 sev ++ leBytes 2 0 ++
    leBytes 2 (ctx.getD 0xFFFF) ++ leBytes 1 fn ++ leBytes 1 die ++ leBytes 4 unit ++ leBytes 4 step ++ det

def withSeq (r : List Byte) (seq : Nat) : List Byte := patch r 18 (leBytes 2 seq)

def ringFull (r : ErrRing) : Bool := r.head - r.tail == 4096

/-- One record written at HEAD. -/
def ringPut (r : ErrRing) (b : List Byte) : ErrRing :=
  { r with recs := nmSet (r.head.toNat % 4096) (withSeq b r.head.toNat) r.recs, head := r.head + 1 }

/-- R385: a record of SEV 0-2 that finds the ring full. DEDUCED (log 87). -/
def ringCoalesce (r : ErrRing) (cls : Nat) (b : List Byte) : ErrRing :=
  let b := withSeq b r.head.toNat
  let old := nmGetD r.coal cls { first := [], last := [], count := 0, active := false }
  let new : Coal :=
    if old.active then { old with last := b, count := old.count + 1 }
    else { first := b, last := b, count := 1, active := true }
  { r with coal := nmSet cls new r.coal, lost := satAdd 16 r.lost 1 }

def ringAdd (r : ErrRing) (cls sev : Nat) (b : List Byte) : ErrRing :=
  if ringFull r then (if sev < 3 then ringCoalesce r cls b else r) else ringPut r b

def ringOf (s : State) (h : Nat) : ErrRing := if h = 0 then s.err.ring0 else s.err.ring1

def updRing (h : Nat) (f : ErrRing → ErrRing) (s : State) : State :=
  if h = 0 then { s with err := { s.err with ring0 := f s.err.ring0 } }
  else { s with err := { s.err with ring1 := f s.err.ring1 } }

/-- R385: the COALESCED records of the classes of `cls`, in order, while the ring has room. -/
def ringDrain (s : State) : List Nat → ErrRing → ErrRing
  | [], r => r
  | c :: cs, r =>
    match nmGet r.coal c with
    | some e =>
      if e.active && !(ringFull r) then
        let b := mkRec s 0x1F 0 none 0xFF 0xFFFFFFFF
          [(0, 1, c), (4, 4, min e.count.toNat 0xFFFFFFFF), (8, 8, u64 e.first 0), (16, 8, u64 e.last 0)]
        ringDrain s cs { ringPut r b with coal := nmSet c { e with active := false, count := 0 } r.coal }
      else ringDrain s cs r
    | none => ringDrain s cs r

/-- The lowest fatal slot that is free. -/
def freeSlot (v : W64) : Option Nat := (List.range 64).find? (fun i => !(v.getLsbD i))

/-- R386: a record of SEV 3 takes a fatal slot, or advances FLOST; it stops the package (R388). -/
def fatalPut (b : List Byte) (s : State) : State :=
  let e := s.err
  let s := { s with err := { e with
    fseq := e.fseq + 1, stopCls := if e.stopped.isSome then e.stopCls else u8 b 16 } }
  match freeSlot e.valid with
  | some i => { s with err := { s.err with
      slots := nmSet i (withSeq b e.fseq.toNat) e.slots
      valid := e.valid ||| BitVec.ofNat 64 (2 ^ i)
      stopped := if e.stopped.isSome then e.stopped else some i } }
  | none => { s with err := { s.err with
      flost := satAdd 8 e.flost 1
      stopped := if e.stopped.isSome then e.stopped else some 64 } }

/-- R384: a record to the ring of its context's port, or to both, and its vector-0 messages. One of SEV 3 that finds
every fatal slot taken only advances FLOST (R386). DEDUCED (log 41). -/
def postRec (cls sev : Nat) (ctx : Option Nat) (die unit : Nat) (detail : List (Nat × Nat × Nat)) (s : State) :
    State :=
  let b := mkRec s cls sev ctx die unit detail
  let lost := sev = 3 && (freeSlot s.err.valid).isNone
  let s := if sev = 3 then fatalPut b s else s
  if lost then s
  else match ctx.bind (ctxOf s) with
  | some c =>
    signal c.owner 0 (updRing (c.owner / 64) (fun r => ringAdd r cls sev b) s)
  | none =>
    signal 64 0 (signal 0 0 (updRing 1 (fun r => ringAdd r cls sev b) (updRing 0 (fun r => ringAdd r cls sev b) s)))

/-- A CONFIG_WARN record (R495). -/
def configWarn (kind idx reason val : Nat) (s : State) : State :=
  postRec 0x01 0 none (if kind = 0 then idx else 0xFF) 0xFFFFFFFF
    [(0, 1, kind), (2, 2, idx), (4, 4, reason), (8, 8, val)] s

/-! ## Register writes that several families share (R452, R454) -/

/-- R454: a write has changed an RWP bit. -/
def noteRwp (changed : Bool) (s : State) : State :=
  if changed then
    { s with reg := { s.reg with rwpw := satAdd 16 s.reg.rwpw 1, rwpt := true, boundsVoid := true } }
  else s

/-- R452: a held low word is discarded when its writer writes any other register. -/
def dropHeld (rq : Requester) (s : State) : State :=
  { s with reg := { s.reg with wshadow := s.reg.wshadow.filter (fun e => e.1 != rq) } }

/-- R420: the ms since P0 began. -/
def elapsed (s : State) : Nat := min 0xFFFFFFFF ((s.clk.rtc - s.boot.p0Rtc).toNat * 1000 / 32768)

/-- The function is in reset, or its port is. DEDUCED (log 61). -/
def fnOff (s : State) (fn : Nat) : Bool := 127 < fn || (fnOf s fn).inReset || (portOf s (fn / 64)).inReset

/-- R323: the function answers no access to its BARs: it is in reset, or its Memory Space Enable is clear. -/
def barOff (s : State) (fn : Nat) : Bool := fnOff s fn || !(fnOf s fn).mse

/-- The requester is a function whose BARs answer no access (R323). DEDUCED (log 67). -/
def rqOff (s : State) (rq : Requester) : Bool := match rq with | .host fn => barOff s fn | _ => false

/-- A write of a whole register by a requester whose BARs answer (R323, R452). -/
def onBar (rq : Requester) (f : State → State) (s : State) : State := if rqOff s rq then s else f (dropHeld rq s)

/-- A PF of either port, firmware or the management path. -/
def pfOrAbove (rq : Requester) : Bool :=
  match rq with
  | .host fn => fn % 64 == 0
  | _ => true

/-! ## Completing commands (R312-R318) -/

def stOK : W16 := 0x0000
def stPENDING : W16 := 0x0001
def stDEFERRED : W16 := 0x0002
def stBAD_OPCODE : W16 := 0x0010
def stBAD_PARAM : W16 := 0x0011
def stNO_RESOURCE : W16 := 0x0012
def stNOT_PERMITTED : W16 := 0x0013
def stABORTED_TXN : W16 := 0x0020
def stUNCORRECTABLE : W16 := 0x0021
def stSTEP_LOST : W16 := 0x0022
def stBUSY : W16 := 0x0030
def stDEGRADED : W16 := 0x0031
def stINTERNAL : W16 := 0x00FF

def zeros (n : Nat) : List Byte := List.replicate n 0

/-- The command has ended with a status and a result of 16 bytes; its entry is written by COMPLETION_WRITE. -/
def finish (cid : Nat) (st : W16) (res : List Byte) (s : State) : State :=
  updCmd cid (fun c => if c.done.isSome then c else { c with done := some (st, pad 16 res) }) s

/-- A command that ends with a status and RESULT zeros. -/
def finish0 (cid : Nat) (st : W16) (s : State) : State := finish cid st [] s

/-- R318: a DEFERRED first completion. -/
def defer (cid : Nat) (res : List Byte) (s : State) : State :=
  updCmd cid (fun c => { c with deferred := some (pad 16 res) }) s

/-- R311, R319: every earlier command of the ring has started, and with ORD has completed. -/
def ordOk (s : State) (c : Cmd) : Bool :=
  s.cmds.all (fun d => !(d.fn == c.fn && d.ctx == c.ctx && d.ring == c.ring && d.cid < c.cid) || d.done.isSome ||
    (d.started && !(c.cflags.getLsbD 0)))

/-- R442: firmware commands wait from HANDOVER until the activation has ended, but for SEG_RUN and SEG_FENCE, which are
not firmware's, and FW_ABORT, whose answers there R439 gives. -/
def fwWaits (s : State) (op : Nat) : Bool :=
  (s.fw.st == .handover || s.fw.st == .switch || s.fw.st == .commit || s.fw.st == .revert) &&
    !(op ∈ [0x32, 0x33, 0x83])

/-- The command that a row may carry out: fetched, of the opcode, not begun, let through by ORD and by a firmware
activation, and with no fatal error that waits for a package reset (R388). DEDUCED (log 54). -/
def ready (s : State) (cid op : Nat) : Option Cmd :=
  match cmdOf s cid with
  | some c => if c.opcode = op && !c.started && c.done.isNone && ordOk s c && s.err.stopped.isNone && !(fwWaits s op) then some c else none
  | none => none

def startCmd (cid : Nat) (s : State) : State := updCmd cid (fun c => { c with started := true }) s

/-! ## Objects and the horizons' bytes (R193-R199, R204, R378) -/

def objOf (s : State) (h : W32) : Option Obj :=
  s.hz.objs.find? (fun o => o.ctx == h.toNat / 2 ^ 22 && o.idx == h.toNat % 2 ^ 22)

def handleOf (o : Obj) : W32 := BitVec.ofNat 32 (o.ctx * 2 ^ 22 + o.idx)

/-- R194: the object of a handle, live and of the context. -/
def ownObj (s : State) (ctx : Nat) (h : W32) : Option Obj :=
  match objOf s h with
  | some o => if o.ctx = ctx then some o else none
  | none => none

/-- Where a byte of an object lies. -/
inductive Loc where
  | hz1 (a : Nat)
  | hz2 (a : Nat)
  | hz3 (drive a : Nat)
  | hz4 (port a : Nat)
  deriving DecidableEq, Repr

def granDead : Gran :=
  { promo := false, dirty := false, mig := false, pin := false, pframe := 0, hzn := 1, unit := 0, loc := 0,
    gen0 := false, gen1 := false, lru := 0 }

def granOf (o : Obj) (j : Nat) : Gran := o.gran.getD j granDead

/-- The home location of byte off. -/
def homeLoc (o : Obj) (off : Nat) : Loc :=
  let g := granOf o (off / 65536)
  let r := off % 65536
  if g.hzn = 1 then .hz1 (g.loc * 65536 + r)
  else if g.hzn = 2 then .hz2 (g.loc * 65536 + r)
  else if g.hzn = 3 then .hz3 g.unit (g.loc * 65536 + r)
  else .hz4 (g.unit % 2) (g.loc * 65536 + r)

/-- The location that serves byte off: a valid promoted copy, else the home (R213). -/
def locOf (o : Obj) (off : Nat) : Loc :=
  let g := granOf o (off / 65536)
  if g.promo then .hz1 (g.pframe * 65536 + off % 65536) else homeLoc o off

def hostMem (s : State) (p : Nat) : Mem := if p = 0 then s.hz.host0 else s.hz.host1

def locByte (s : State) : Loc → Byte
  | .hz1 a => memByte s.hz.hz1 a
  | .hz2 a => memByte s.hz.hz2 a
  | .hz3 d a => memByte (nmGetD s.hz.hz3 d []) a
  | .hz4 p a => memByte (hostMem s p) a

/-- R199: the 256-byte-unit hash of a device virtual address. -/
def unitHash (va : Nat) : Nat :=
  let u := va / 256
  (Nat.xor (Nat.xor u (u / 2 ^ 13)) (Nat.xor (u / 2 ^ 26) (u / 2 ^ 39))) % 2 ^ 32

/-- R199: stack and pseudo-channel of an HZ1 home or copy. -/
def hz1Chan (o : Obj) (va : Nat) : Nat × Nat :=
  let h := unitHash va
  let stack := if o.spread = 0 then o.home
    else if o.spread = 1 then (quadDies o.home).getD (h / 64 % 12) 0
    else h / 64 % 48
  (stack, h % 64)

/-- R199: the HZ2 channel, 8 x T-die + channel. -/
def hz2Chan (s : State) (va : Nat) : Nat := s.hz.channels.getD (unitHash va % max s.hz.channels.length 1) 0

/-- R218, R221, R223, R378: the byte reads as poison where it lies. -/
def locPoison (s : State) (o : Obj) (va : Nat) : Loc → Bool
  | .hz1 a => a / 64 ∈ s.hz.pois1
  | .hz2 a => a / 64 ∈ s.hz.pois2 || hz2Chan s va ∈ s.hz.failedCh
  | .hz3 d a => d ∈ s.hz.failedDrives || (d, a / 4096) ∈ s.hz.pois3
  | .hz4 p _ =>
    let owner := match ctxOf s o.ctx with | some c => c.owner | none => 0
    (portOf s p).inReset || !(fnOf s owner).bme

def objByte (s : State) (o : Obj) (off : Nat) : Byte := locByte s (locOf o off)

def objPoison (s : State) (o : Obj) (off : Nat) : Bool := locPoison s o (o.base + off) (locOf o off)

/-- Read from the spec by inference: DEDUCED (log 78). -/
def objRead (s : State) (o : Obj) (off : Nat) : Nat → List Byte
  | 0 => []
  | n + 1 => objByte s o off :: objRead s o (off + 1) n

def updHz (f : Hz → Hz) (s : State) : State := { s with hz := f s.hz }

/-- One byte written where it lies. A write that fails at its home (R221, R223) is dropped. -/
def locSet (v : Byte) (l : Loc) (s : State) : State :=
  match l with
  | .hz1 a => updHz (fun h => { h with hz1 := memSet a v h.hz1 }) s
  | .hz2 a => updHz (fun h => { h with hz2 := memSet a v h.hz2 }) s
  | .hz3 d a => updHz (fun h => { h with hz3 := nmUpdD d [] (memSet a v) h.hz3 }) s
  | .hz4 p a =>
    if p = 0 then updHz (fun h => { h with host0 := memSet a v h.host0 }) s
    else updHz (fun h => { h with host1 := memSet a v h.host1 }) s

/-- Poison of the words that a write covers whole is cleared (R378). -/
def clearPoison (locs : List Loc) (s : State) : State :=
  let covered (mk : Nat → Loc) (w : Nat) : Bool := (List.range 64).all (fun i => mk (w * 64 + i) ∈ locs)
  updHz (fun h => { h with
    pois1 := h.pois1.filter (fun w => !(covered .hz1 w))
    pois2 := h.pois2.filter (fun w => !(covered .hz2 w))
    pois3 := h.pois3.filter (fun e => !((List.range 4096).all (fun i => .hz3 e.1 (e.2 * 4096 + i) ∈ locs))) }) s

/-- R212, R213, R360: a write marks its granule: a promoted copy is dirty, a copy in progress is stale, and both
secured generations see a change. -/
def noteWrite (h : W32) (j : Nat) (s : State) : State :=
  let s := updObj h (fun o => { o with
    gran := o.gran.set j (let g := granOf o j; { g with
      dirty := g.dirty || g.promo, gen0 := true, gen1 := true, lru := if g.promo then s.clk.pcc.toNat else g.lru }) }) s
  { s with
    hz := { s.hz with
      migs := updWhere (fun m => m.handle == h)
        (fun m => { m with left := updWhere (fun x => x.granule == j) (fun x => { x with dirtied := x.dirtied || x.begun }) m.left })
        s.hz.migs
      promos := updWhere (fun p => p.handle == h && p.granule == j) (fun p => { p with dirtied := true }) s.hz.promos }
    segs := s.segs.map (fun r => { r with
      xfers := (List.zip r.xfers r.d.xfers).map (fun e =>
        if e.2.kind = 1 && e.2.handle == h && e.2.off / 65536 ≤ j && j < ceilDiv (e.2.off + e.2.bytes) 65536 then
          { e.1 with stale := if e.1.started then addOnce j e.1.stale else e.1.stale } else e.1) }) }

/-- R380: the CRCs of LBAs of a drive, of what they hold now. -/
def putCrcs (d : Nat) (lbas : List Nat) (s : State) : State :=
  updHz (fun h => { h with crc3 := lbas.foldl (fun m l =>
    nmUpdD d [] (nmSet l (crc32c (memRead (nmGetD h.hz3 d []) (4096 * l) 4096))) m) h.crc3 }) s

/-- R380: the LBAs of a Read whose data does not match the CRC that was written with them. -/
def badCrcs (s : State) (d : Nat) (lbas : List Nat) : List Nat :=
  lbas.filter (fun l => match nmGet (nmGetD s.hz.crc3 d []) l with
    | some c => crc32c (memRead (nmGetD s.hz.hz3 d []) (4096 * l) 4096) != c
    | none => false)

/-- The LBAs of drives among some places. -/
def driveLbas (ls : List Loc) : List (Nat × Nat) :=
  ls.foldl (fun l x => match x with | .hz3 d a => addOnce (d, a / 4096) l | _ => l) []

/-- R223: why host memory does not serve a request, if it does not. -/
def hz4CauseAt (s : State) (o : Obj) (l : Loc) (ans : HzAnswer) : Option Nat :=
  match l with
  | .hz4 p _ =>
    let owner := match ctxOf s o.ctx with | some c => c.owner | none => 0
    if (portOf s p).inReset then some 0
    else if !(fnOf s owner).bme then some 1
    else if ans = .unsupported then some 2
    else if ans = .completerAbort then some 3 else none
  | _ => none

/-- R223: one record for each failing object and segment. -/
def hz4Failure (o : Obj) (off cause : Nat) (s : State) : State :=
  if (o.ctx, handleOf o) ∈ s.hz.hz4Failed then s
  else
    let s := updHz (fun h => { h with hz4Failed := h.hz4Failed ++ [(o.ctx, handleOf o)] }) s
    postRec 0x11 2 (some o.ctx) (62 + o.port) o.port [(0, 4, (handleOf o).toNat), (4, 1, cause), (8, 8, o.base + off)] s

/-- Bytes written to an object, as one request: offset and value. What host memory cannot take is dropped, with its
record (R223). -/
def objWrite (h : W32) (bs : List (Nat × Byte)) (s : State) : State :=
  match objOf s h with
  | none => s
  | some o =>
    let s := match bs.findSome? (fun e => if e.1 < o.size then (hz4CauseAt s o (locOf o e.1) .ok).map (fun c => (e.1, c)) else none) with
      | some x => hz4Failure o x.1 x.2 s
      | none => s
    let fails (off : Nat) : Bool := match locOf o off with
      | .hz3 d _ => d ∈ s.hz.failedDrives
      | .hz4 p a => locPoison s o (o.base + off) (.hz4 p a)
      | _ => false
    let bs := bs.filter (fun e => e.1 < o.size && !(fails e.1))
    let s := bs.foldl (fun s e => locSet e.2 (locOf o e.1) s) s
    let s := clearPoison (bs.map (fun e => locOf o e.1)) s
    let s := (driveLbas (bs.map (fun e => locOf o e.1))).foldl (fun s e => putCrcs e.1 [e.2] s) s
    (bs.map (fun e => e.1 / 65536)).foldl (fun (a : List Nat × State) j =>
      if j ∈ a.1 then a else (j :: a.1, noteWrite h j a.2)) ([], s) |>.2

/-- A run of bytes as offset and value. -/
def runAt (off : Nat) : List Byte → List (Nat × Byte)
  | [] => []
  | b :: r => (off, b) :: runAt (off + 1) r

def objWriteAt (h : W32) (off : Nat) (b : List Byte) (s : State) : State := objWrite h (runAt off b) s

/-- Poison put on the 64-byte words that hold bytes of an object (R379: poison is kept with the data). -/
def objSetPoison (h : W32) (offs : List Nat) (s : State) : State :=
  match objOf s h with
  | none => s
  | some o => offs.foldl (fun s off =>
      match locOf o off with
      | .hz1 a => updHz (fun z => { z with pois1 := addOnce (a / 64) z.pois1 }) s
      | .hz2 a => updHz (fun z => { z with pois2 := addOnce (a / 64) z.pois2 }) s
      | .hz3 d a => updHz (fun z => { z with pois3 := addOnce (d, a / 4096) z.pois3 }) s
      | .hz4 _ _ => s) s

/-- Sparse bytes with bits written at a bit address. -/
def memBits (m : Mem) (b w v : Nat) : Mem :=
  if b % 8 = 0 && w % 8 = 0 then memWrite m (b / 8) (leBytes (w / 8) v)
  else
    let n := (b % 8 + w + 7) / 8
    let old := leNat (memRead m (b / 8) n)
    let hi := old / 2 ^ (b % 8 + w) * 2 ^ (b % 8 + w)
    memWrite m (b / 8) (leBytes n (hi + v % 2 ^ w * 2 ^ (b % 8) + old % 2 ^ (b % 8)))

/-- Elements written to an object as one request: bit, width, code, poison. -/
def objWriteBits (h : W32) (ws : List (Nat × Nat × Nat × Bool)) (s : State) : State :=
  match objOf s h with
  | none => s
  | some o =>
    let bytes := ws.foldl (fun l x =>
      (List.range ((x.1 % 8 + x.2.1 + 7) / 8)).foldl (fun l i => addOnce (x.1 / 8 + i) l) l) []
    let m := bytes.foldl (fun m a => memSet a (objByte s o a) m) []
    let m := ws.foldl (fun m x => memBits m x.1 x.2.1 x.2.2.1) m
    let bad := (ws.filter (fun x => x.2.2.2)).map (fun x => x.1 / 8)
    objSetPoison h bad (objWrite h (bytes.map (fun a => (a, memByte m a))) s)

/-! ### Frames (R195, R197) -/

/-- HZ1 frames that the object table and the granule tables take (R195). -/
def tableFrames (s : State) : Nat :=
  ceilDiv (s.hz.objs.foldl (fun n o => n + 32 + 16 * o.gran.length) 0) 65536

/-- R380: HZ2 frames that the CRCs of HZ3 objects take. -/
def crcFrames (s : State) : Nat :=
  ceilDiv (s.hz.objs.foldl (fun n o => n + 64 * (o.gran.filter (fun g => g.hzn == 3)).length) 0) 65536

def hz2Frames (s : State) : Nat := s.hz.channels.length * s.hz.dpc * s.hz.dimmGib * 16384

def freeFrames (s : State) (hzn : Nat) : Nat :=
  let ret := (s.hz.retFrames.filter (fun e => e.1 == hzn)).length
  if hzn = 1 then 50331648 - s.hz.used1.length - ret - tableFrames s
  else if hzn = 2 then hz2Frames s - s.hz.used2.length - ret - crcFrames s
  else 0

/-- The first of f, f+1, … (modulo total) that is not in `used`. -/
def nextFree (used : List Nat) (total : Nat) : Nat → Nat → Nat
  | f, 0 => f
  | f, fuel + 1 => if f ∈ used then nextFree used total ((f + 1) % max total 1) fuel else f

/-- A free frame of HZ1 or HZ2; which one is a free choice. DESIGN CHOICE (log 9). -/
def allocFrame (hzn : Nat) (s : State) : Nat × State :=
  let total := if hzn = 1 then 50331648 else hz2Frames s
  let used := (if hzn = 1 then s.hz.used1 else s.hz.used2) ++
    (s.hz.retFrames.filter (fun e => e.1 == hzn)).map (·.2)
  let r0 := freeBelow total s
  let f0 := r0.1
  let s := r0.2
  let f := nextFree used total f0 (used.length + 1)
  if hzn = 1 then (f, updHz (fun h => { h with used1 := f :: h.used1 }) s)
  else (f, updHz (fun h => { h with used2 := f :: h.used2 }) s)

/-- n more HZ1 frames: of a scale bank (R117), of a hot-row cache (R234). -/
def allocFrames : Nat → List Nat → State → List Nat × State
  | 0, l, s => (l, s)
  | n + 1, l, s => let a := allocFrame 1 s; allocFrames n (l ++ [a.1]) a.2

def freeFrame (hzn f : Nat) (s : State) : State :=
  if hzn = 1 then updHz (fun h => { h with
    used1 := del f h.used1, hz1 := memClear (f * 65536) 65536 h.hz1
    pois1 := h.pois1.filter (fun w => w / 1024 != f) }) s
  else updHz (fun h => { h with
    used2 := del f h.used2, hz2 := memClear (f * 65536) 65536 h.hz2
    pois2 := h.pois2.filter (fun w => w / 1024 != f) }) s

/-- A free 64 KiB granule of a drive, if it has one. DESIGN CHOICE (log 9). -/
def allocDrive (d : Nat) (s : State) : Option (Nat × State) :=
  let used := (s.hz.used3.filter (fun e => e.1 == d)).map (·.2)
  if s.hz.driveGran ≤ used.length then none
  else
    let r0 := freeBelow s.hz.driveGran s
    let f0 := r0.1
    let s := r0.2
    let f := nextFree used s.hz.driveGran f0 (used.length + 1)
    some (f, updHz (fun h => { h with used3 := (d, f) :: h.used3 }) s)

/-- R219: an I/O queue of the drive with room: at most 256 commands of each of the 8 are outstanding.
DESIGN CHOICE (log 81). -/
def nvmeQueue (s : State) (d : Nat) : Option Nat :=
  (List.range 8).find? (fun k => (s.hz.nvme.filter (fun n => n.drive == d && n.queue == some k)).length < 256)

/-- An NVMe command is given to a drive, or waits for room in a queue. -/
def nvmePut (d op : Nat) (lbas reqs : List Nat) (s : State) : State :=
  updHz (fun h => { h with
    nvme := h.nvme ++ [{ id := h.nextNvme, drive := d, op := op, lbas := lbas, queue := nvmeQueue s d, reqs := reqs }]
    nextNvme := h.nextNvme + 1 }) s

/-- R219: the 16 LBAs of a granule of a drive. -/
def granLbas (f : Nat) : List Nat := (List.range 16).map (fun i => f * 16 + i)

/-- R219, R220: a Deallocate of a granule, which then reads as zero. -/
def freeDrive (d f : Nat) (s : State) : State :=
  nvmePut d 3 (granLbas f) [] (updHz (fun h => { h with
    used3 := del (d, f) h.used3
    hz3 := nmUpdD d [] (memClear (f * 65536) 65536) h.hz3
    pois3 := h.pois3.filter (fun e => !(e.1 == d && e.2 / 16 == f))
    crc3 := nmUpdD d [] (fun m => m.filter (fun e => e.1 / 16 != f)) h.crc3 }) s)

/-- The home storage of a granule is freed. -/
def freeHome (g : Gran) (s : State) : State :=
  if g.hzn = 1 then freeFrame 1 g.loc s
  else if g.hzn = 2 then freeFrame 2 g.loc s
  else if g.hzn = 3 then freeDrive g.unit g.loc s
  else s

/-- R218, R221, R223: granule j of an object reads as poison, in words of 64 bytes, at a place. -/
def poisonAt (s : State) (o : Obj) (j : Nat) (src : Loc) : List Nat :=
  match src with
  | .hz1 a => (s.hz.pois1.filter (fun w => w / 1024 == a / 65536)).map (fun w => w % 1024)
  | .hz2 a => (List.range 1024).filter (fun w =>
      a / 64 + w ∈ s.hz.pois2 || hz2Chan s (o.base + j * 65536 + 64 * w) ∈ s.hz.failedCh)
  | .hz3 d a => if d ∈ s.hz.failedDrives then List.range 1024
      else (s.hz.pois3.filter (fun e => e.1 == d && e.2 / 16 == a / 65536)).flatMap
        (fun e => (List.range 64).map (fun i => e.2 % 16 * 64 + i))
  | .hz4 p a => if locPoison s o (o.base + j * 65536) (.hz4 p a) then List.range 1024 else []

/-- R221, R223: a write at a place is dropped: its drive has failed, or host memory cannot be reached. -/
def dropsAt (s : State) (o : Obj) (j : Nat) (dst : Loc) : Bool :=
  match dst with
  | .hz3 d _ => d ∈ s.hz.failedDrives
  | .hz4 p a => locPoison s o (o.base + j * 65536) (.hz4 p a)
  | _ => false

/-- The bytes of granule j of an object copied from one place to another, with their poison. -/
def copyGranule (o : Obj) (j : Nat) (src dst : Loc) (s : State) : State :=
  if dropsAt s o j dst then s else
  let data : Mem := match src with
    | .hz1 a => memMove a 65536 0 s.hz.hz1
    | .hz2 a => memMove a 65536 0 s.hz.hz2
    | .hz3 d a => memMove a 65536 0 (nmGetD s.hz.hz3 d [])
    | .hz4 p a => memMove a 65536 0 (hostMem s p)
  let bad : List Nat := poisonAt s o j src
  let put (b : Nat) (m : Mem) : Mem := data.foldl (fun m e => memSet (b + e.1) e.2 m) (memClear b 65536 m)
  match dst with
  | .hz1 b => updHz (fun h => { h with
      hz1 := put b h.hz1
      pois1 := h.pois1.filter (fun w => w / 1024 != b / 65536) ++ bad.map (fun w => b / 64 + w) }) s
  | .hz2 b => updHz (fun h => { h with
      hz2 := put b h.hz2
      pois2 := h.pois2.filter (fun w => w / 1024 != b / 65536) ++ bad.map (fun w => b / 64 + w) }) s
  | .hz3 d b => putCrcs d ((List.range 16).map (fun i => b / 4096 + i)) <| updHz (fun h => { h with
      hz3 := nmUpdD d [] (put b) h.hz3
      pois3 := h.pois3.filter (fun e => !(e.1 == d && e.2 / 16 == b / 65536)) ++
        (bad.foldl (fun l w => addOnce (d, b / 4096 + w / 64) l) []) }) s
  | .hz4 p b =>
    if p = 0 then updHz (fun h => { h with host0 := put b h.host0 }) s
    else updHz (fun h => { h with host1 := put b h.host1 }) s

/-- Host memory written by the package. -/
def hostWrite (p a : Nat) (b : List Byte) (s : State) : State :=
  let s := if p = 0 then updHz (fun h => { h with host0 := memWrite h.host0 a b }) s
    else updHz (fun h => { h with host1 := memWrite h.host1 a b }) s
  emit (.hostWrite p a b.length) s

/-- The function number that stands for the management path, which has none. DESIGN CHOICE (log 77). -/
def mgmtFn : Nat := 128

/-- What a command writes to its requester: to host memory, or with its MCTP messages. DESIGN CHOICE (log 77). -/
def answerWrite (k : Cmd) (a : Nat) (b : List Byte) (s : State) : State :=
  if k.fn = mgmtFn then emit (.mctp b) s else hostWrite (k.fn / 64) a b s

/-! ## Semaphores (R71-R73) -/

def semVal (c : Ctx) (ped : W32) (i : Nat) : Nat :=
  match c.sems.find? (fun e => e.1.1 == ped && e.1.2 == i) with
  | some e => e.2
  | none => 0

def semPut (ped : W32) (i v : Nat) (c : Ctx) : Ctx :=
  let rest := c.sems.filter (fun e => !(e.1.1 == ped && e.1.2 == i))
  { c with sems := if v = 0 then rest else ((ped, i), v) :: rest }

/-- Waiters in ascending logical grain id, then thread (R73). -/
def waiterBefore (a b : SemWaiter) : Bool := a.g < b.g || (a.g == b.g && a.t < b.t)

def insertWaiter (w : SemWaiter) : List SemWaiter → List SemWaiter
  | [] => [w]
  | x :: r => if waiterBefore w x then w :: x :: r else x :: insertWaiter w r

/-- R73: grants in order over the waiters of a semaphore, the value tested again before each. -/
def semGrant (ctx : Nat) (ped : W32) (i : Nat) : List SemWaiter → State → State
  | [], s => s
  | w :: ws, s =>
    match ctxOf s ctx with
    | none => s
    | some c =>
      if w.ped == ped && w.idx == i && w.n ≤ semVal c ped i then
        let s := updCtx ctx (fun c => { semPut ped i (semVal c ped i - w.n) c with
          waiters := c.waiters.filter (fun x => !(x.g == w.g && x.ser == w.ser)) }) s
        semGrant ctx ped i ws (updOut w.g w.ser (fun o => { o with wait := .nothing }) s)
      else semGrant ctx ped i ws s

/-! ## Programmable counters: occurrences (R468-R471) -/

/-- R468: the context's SCOPE takes the grain in. -/
def inScope (s : State) (ctx : Nat) (scope : W32) (g : Nat) : Bool :=
  if scope = 0xFFFFFFFF then true
  else match pedOf s ctx scope with
    | .ok l => pedSetMem l g
    | .error _ => false

/-- R469: selector w counts event ev of grain g, thread t (none: an event without T) and engine e.
DEDUCED (log 37). -/
def selHits (w : W64) (ev g : Nat) (t : Option Nat) (e : Nat) : Bool :=
  let v := w.toNat
  bits v 0 8 == ev && ev != 0 && (bits v 28 9 == 0x1FF || bits v 28 9 == logicalRank g) &&
    (match t with
      | none => true
      | some t => (bits v 20 8 == 0 || bitAt v (20 + t)) && (bits v 9 3 == 0 || bits v 9 3 == e))

/-- R473: the 27 sums of a ped-2 in a context's counter area. -/
def sums0 : List W64 := List.replicate 27 0

/-- n occurrences of a type O event of grain g. -/
def bumpT (g : Nat) (t : Option Nat) (e ev n : Nat) (s : State) : State :=
  let p := logicalPed2 g
  match (ped2Of s p).lease.bind (fun l => ctxOf s l.ctx) with
  | none => s
  | some c =>
    if inScope s c.num c.pmc.scope g then
      updPed2 p (fun d => { d with
        ctr := (List.range 16).map (fun i =>
          d.ctr.getD i 0 + (if selHits (c.pmc.sel.getD i 0) ev g t e then BitVec.ofNat 64 n else 0)) }) s
    else s

/-- n occurrences of an event that THREADS and ENG do not filter. -/
def bump (g ev n : Nat) (s : State) : State := bumpT g none 0 ev n s

/-- R72, R73: n added to a semaphore, saturating, and the waiters granted. `g` is the grain that a saturation is
counted at. -/
def semAdd (ctx : Nat) (ped : W32) (i n g : Nat) (s : State) : State :=
  match ctxOf s ctx with
  | none => s
  | some c =>
    let v := semVal c ped i + n
    let s := if 65535 < v then bump g 0x18 1 s else s
    let s := updCtx ctx (semPut ped i (min v 65535)) s
    semGrant ctx ped i c.waiters s

end Sys2Proof.Machine
end

