-- ==== Sys2Proof/Machine/Numerics.lean ====
section
/-! DEFINITION. Number formats and their conversions (R107-R115, R134-R136), exact sums (R85, R122), FP32 steps,
scales and the scale-bank entry (R116-R121, R137), and the Marl-10 generator (R155). Finite values are exact
rationals, so that each rounding of the spec is one function. -/

namespace Sys2Proof.Machine

open Sys2Proof

/-- A value of a format: a NaN has neither sign nor payload (R110); a zero keeps its sign. -/
inductive FVal where
  | nan
  | inf (neg : Bool)
  | num (neg : Bool) (mag : Rat)
  deriving DecidableEq, Repr

/-- Open in the spec: DESIGN CHOICE (log 10). -/
def FVal.zero : FVal := .num false 0

/-- 2 to the e. -/
def pow2 (e : Int) : Rat :=
  if 0 ≤ e then mkRat (Int.ofNat (2 ^ e.toNat)) 1 else mkRat 1 (2 ^ (-e).toNat)

/-- The greatest e with 2^e at most q, for q above 0. -/
def floorLog2 (q : Rat) : Int :=
  let e : Int := (Nat.log2 q.num.natAbs : Int) - (Nat.log2 q.den : Int)
  if q < pow2 e then e - 1 else e

/-- The least e with q at most 2^e, for q above 0. -/
def ceilLog2 (q : Rat) : Int :=
  let e := floorLog2 q
  if pow2 e < q then e + 1 else e

/-- The nearest integer to q, at least 0; ties to even (R111). -/
def rne (q : Rat) : Nat :=
  let n := q.num.natAbs
  let d := q.den
  let f := n / d
  let r := n % d
  if 2 * r < d then f else if d < 2 * r then f + 1 else if f % 2 = 0 then f else f + 1

/-! ## Formats (R107, R108) -/

/-- Width of an element in bits (R107). -/
def fmtW (f : Nat) : Nat :=
  match f with
  | 0 => 32 | 1 => 16 | 2 => 16 | 3 => 8 | 4 => 8 | 5 => 6 | 6 => 6 | 7 => 4 | 8 => 8 | 9 => 4 | 10 => 8 | _ => 8

def isInt (f : Nat) : Bool := f == 8 || f == 9

/-- Mantissa bits of a floating-point format; a BS8 element is E4M3. -/
def mantB (f : Nat) : Nat :=
  match f with
  | 0 => 23 | 1 => 7 | 2 => 10 | 3 => 3 | 4 => 2 | 5 => 2 | 6 => 3 | 7 => 1 | _ => 3

def expB (f : Nat) : Nat :=
  match f with
  | 0 => 8 | 1 => 8 | 2 => 5 | 3 => 4 | 4 => 5 | 5 => 3 | 6 => 2 | 7 => 2 | _ => 4

def biasOf (f : Nat) : Nat :=
  match f with
  | 0 => 127 | 1 => 127 | 2 => 15 | 3 => 7 | 4 => 15 | 5 => 3 | 6 => 1 | 7 => 1 | _ => 7

/-- The format encodes infinities and NaNs under exponent all ones. -/
def isIeee (f : Nat) : Bool := f == 0 || f == 1 || f == 2 || f == 4

/-- The format is E4M3: one NaN, no infinity. -/
def isE4m3 (f : Nat) : Bool := f == 3 || f == 10

def minNormal (f : Nat) : Rat := pow2 (1 - (biasOf f : Int))

/-- Largest finite magnitude (R108, R121). -/
def maxFinite (f : Nat) : Rat :=
  match f with
  | 0 => (2 - pow2 (-23)) * pow2 127
  | 1 => (2 - pow2 (-7)) * pow2 127
  | 2 => 65504
  | 3 => 448
  | 4 => 57344
  | 5 => 28
  | 6 => mkRat 15 2
  | 7 => 6
  | 8 => 127
  | 9 => 7
  | _ => 448

/-- The value of a code. -/
def decodeF (f code : Nat) : FVal :=
  if isInt f then
    let w := fmtW f
    let c := code % 2 ^ w
    if 2 ^ (w - 1) ≤ c then .num true (mkRat (Int.ofNat (2 ^ w - c)) 1) else .num false (mkRat (Int.ofNat c) 1)
  else
    let m := mantB f
    let neg := bitAt code (expB f + m)
    let ex := bits code m (expB f)
    let mt := code % 2 ^ m
    if isIeee f && ex == 2 ^ expB f - 1 then (if mt = 0 then .inf neg else .nan)
    else if isE4m3 f && ex == 15 && mt == 7 then .nan
    else if ex = 0 then .num neg (mkRat (Int.ofNat mt) 1 * pow2 (1 - (biasOf f : Int) - m))
    else .num neg (mkRat (Int.ofNat (2 ^ m + mt)) 1 * pow2 ((ex : Int) - biasOf f - m))

/-- The code of a value that the format holds exactly; NaN in its canonical encoding (R110). -/
def pack (f : Nat) (x : FVal) : Nat :=
  if isInt f then
    match x with
    | .num neg q => if neg then (2 ^ fmtW f - rne q) % 2 ^ fmtW f else rne q % 2 ^ fmtW f
    | _ => 0
  else
    let m := mantB f
    let sgn (neg : Bool) : Nat := b2n neg * 2 ^ (expB f + m)
    match x with
    | .nan => if isE4m3 f then 0x7F else (2 ^ expB f - 1) * 2 ^ m + 2 ^ (m - 1)
    | .inf neg => sgn neg + (2 ^ expB f - 1) * 2 ^ m
    | .num neg q =>
      if q = 0 then sgn neg
      else
        let e := floorLog2 q
        if e < 1 - (biasOf f : Int) then sgn neg + rne (q * pow2 (m + biasOf f - 1))
        else sgn neg + (e + biasOf f).toNat * 2 ^ m + (rne (q * pow2 (m - e)) - 2 ^ m)

/-! ## Counters (R113) -/

def Counts.none : Counts :=
  { sat := 0, flush := 0, invalid := 0, nanin := 0, ovf := 0, nanout := 0, inv := .none, ftzHit := false,
    ufl := false }

/-- R129: the lower of two coordinates. -/
def coordMin (a b : Nat × Nat × Nat) : Nat × Nat × Nat :=
  if a.1 < b.1 then a else if b.1 < a.1 then b
  else if a.2.1 < b.2.1 then a else if b.2.1 < a.2.1 then b
  else if a.2.2 ≤ b.2.2 then a else b

def Counts.invalidAt (at_ : Nat × Nat × Nat) (c : Counts) : Counts :=
  { c with
    invalid := c.invalid + 1
    inv := some (match c.inv with | some x => coordMin x at_ | Option.none => at_) }

def Counts.add (a b : Counts) : Counts :=
  { sat := a.sat + b.sat, flush := a.flush + b.flush, invalid := a.invalid + b.invalid, nanin := a.nanin + b.nanin,
    ovf := a.ovf + b.ovf, nanout := a.nanout + b.nanout,
    inv := (match a.inv, b.inv with
      | some x, some y => some (coordMin x y)
      | some x, Option.none => some x
      | Option.none, y => y),
    ftzHit := a.ftzHit || b.ftzHit, ufl := a.ufl || b.ufl }

def Counts.any (c : Counts) : Bool :=
  c.sat != 0 || c.flush != 0 || c.invalid != 0 || c.nanin != 0 || c.ovf != 0 || c.nanout != 0

def Counts.flushed (c : Counts) : Counts := { c with flush := c.flush + 1, ftzHit := true }

/-- A value to ±0 by rounding: R115 sets STK_UFL in keep mode. -/
def Counts.rounded0 (ftz : Bool) (c : Counts) : Counts := { c with flush := c.flush + 1, ufl := c.ufl || !ftz }

/-! ## Reading and converting (R111-R114) -/

/-- An element as an engine reads it: flush mode reads a subnormal as a zero; a NaN counts NANIN. -/
def readElem (ftz : Bool) (f code : Nat) (c : Counts) : FVal × Counts :=
  match decodeF f code with
  | .nan => (.nan, { c with nanin := c.nanin + 1 })
  | .num neg q =>
    if ftz && !(isInt f) && q != 0 && q < minNormal f then (.num neg 0, c.flushed) else (.num neg q, c)
  | x => (x, c)

/-- One conversion to a format: rounded once, the edges of R112. -/
def convert (ftz : Bool) (f : Nat) (x : FVal) (c : Counts) : FVal × Counts :=
  if isInt f then
    let hi : Nat := if f = 8 then 127 else 7
    match x with
    | .nan => (FVal.zero, { c with nanout := c.nanout + 1 })
    | .inf neg => (.num neg (mkRat (Int.ofNat (if neg then hi + 1 else hi)) 1), { c with sat := c.sat + 1 })
    | .num neg q =>
      let n := rne q
      let lim := if neg then hi + 1 else hi
      if lim < n then (.num neg (mkRat (Int.ofNat lim) 1), { c with sat := c.sat + 1 })
      else if n = 0 then (FVal.zero, if q = 0 then c else c.rounded0 ftz)
      else (.num neg (mkRat (Int.ofNat n) 1), c)
  else
    match x with
    | .nan => if isIeee f || isE4m3 f then (.nan, c) else (FVal.zero, { c with nanout := c.nanout + 1 })
    | .inf neg => if isIeee f then (.inf neg, c) else (.num neg (maxFinite f), { c with sat := c.sat + 1 })
    | .num neg q =>
      if q = 0 then (.num neg 0, c)
      else
        let e := max (floorLog2 q) (1 - (biasOf f : Int))
        let ulp := pow2 (e - mantB f)
        let r := mkRat (Int.ofNat (rne (q / ulp))) 1 * ulp
        if maxFinite f < r then
          (if f ≤ 2 then .inf neg else .num neg (maxFinite f), { c with ovf := c.ovf + 1 })
        else if r = 0 then (.num neg 0, c.rounded0 ftz)
        else if ftz && r < minNormal f then (.num neg 0, c.flushed)
        else (.num neg r, c)

/-- RNE32 of the spec. -/
def rne32 (ftz : Bool) (x : FVal) (c : Counts) : FVal × Counts := convert ftz 0 x c

/-! ## Products and sums of values -/

def FVal.negate : FVal → FVal
  | .nan => .nan
  | .inf n => .inf (!n)
  | .num n q => .num (!n) q

def FVal.signed : FVal → Rat
  | .num true q => -q
  | .num false q => q
  | _ => 0

def FVal.isZero : FVal → Bool
  | .num _ q => q == 0
  | _ => false

def FVal.isInf : FVal → Bool
  | .inf _ => true
  | _ => false

/-- A signed rational as a value; a zero takes the sign given. -/
def FVal.ofRat (q : Rat) (zneg : Bool) : FVal :=
  if q = 0 then .num zneg 0 else if q < 0 then .num true (-q) else .num false q

def FVal.isNeg : FVal → Bool
  | .nan => false
  | .inf n => n
  | .num n _ => n

/-- The exact product; 0 × ∞ is invalid (R113). -/
def fmul (at_ : Nat × Nat × Nat) (a b : FVal) (c : Counts) : FVal × Counts :=
  match a, b with
  | .nan, _ => (.nan, c)
  | _, .nan => (.nan, c)
  | .num m p, .num n q => (.num (m != n) (p * q), c)
  | a, b =>
    if a.isZero || b.isZero then (.nan, c.invalidAt at_) else (.inf (a.isNeg != b.isNeg), c)

/-- The exact sum of two values; ∞ − ∞ is invalid (R113); an exact zero is +0 unless both are −0. -/
def fadd (at_ : Nat × Nat × Nat) (a b : FVal) (c : Counts) : FVal × Counts :=
  match a, b with
  | .nan, _ => (.nan, c)
  | _, .nan => (.nan, c)
  | .inf m, .inf n => if m = n then (.inf m, c) else (.nan, c.invalidAt at_)
  | .inf m, _ => (.inf m, c)
  | _, .inf n => (.inf n, c)
  | a, b => (FVal.ofRat (a.signed + b.signed) (a.isNeg && b.isNeg), c)

/-- The coordinate of the first infinity whose sign differs from an earlier one. DEDUCED (log 83). -/
def infClash (at_ : Nat → Nat × Nat × Nat) : Option Bool → Nat → List FVal → Option (Nat × Nat × Nat)
  | _, _, [] => none
  | none, k, .inf n :: r => infClash at_ (some n) (k + 1) r
  | some m, k, .inf n :: r => if m = n then infClash at_ (some m) (k + 1) r else some (at_ k)
  | m, k, _ :: r => infClash at_ m (k + 1) r

/-- The exact sum of finite values. -/
def ratSum (l : List FVal) : Rat := l.foldl (fun q x => q + x.signed) 0

/-- a and the products of one output, added exactly (R78, R85, R97): any NaN gives NaN; infinities of both signs are
one invalid sum. An exact zero is +0. DEDUCED (log 83). -/
def exactSum (at_ : Nat → Nat × Nat × Nat) (a : FVal) (ps : List FVal) (c : Counts) : FVal × Counts :=
  if (a :: ps).any (fun x => x == .nan) then (.nan, c)
  else
    let first : Option Bool := match a with | .inf n => some n | _ => none
    match infClash at_ first 0 ps with
    | some w => (.nan, c.invalidAt w)
    | none =>
      match (a :: ps).find? FVal.isInf with
      | some x => (x, c)
      | none => (FVal.ofRat (ratSum (a :: ps)) false, c)

/-- R85, R122: BF16 and FP16 products lose what lies below 2^(E−48), E the exponent of the largest. -/
def truncWindow (ps : List FVal) : List FVal :=
  let big := ps.foldl (fun m x => match x with | .num _ q => max m q | _ => m) 0
  if big = 0 then ps
  else
    let u := pow2 (floorLog2 big - 48)
    ps.map (fun x => match x with
      | .num n q => .num n (mkRat (Int.ofNat ((q / u).num.natAbs / (q / u).den)) 1 * u)
      | y => y)

/-- The products of one output of the array or the matrix-vector path, as they are summed for a format pair. -/
def windowed (f : Nat) (ps : List FVal) : List FVal := if f = 1 || f = 2 then truncWindow ps else ps

/-! ## FP32 words -/

def f32 (w : W32) : FVal := decodeF 0 w.toNat
def w32 (x : FVal) : W32 := BitVec.ofNat 32 (pack 0 x)

/-- The order of values that are not NaN. -/
def fle (a b : FVal) : Bool :=
  match a, b with
  | .inf true, _ => true
  | _, .inf false => true
  | .inf false, _ => false
  | _, .inf true => false
  | a, b => a.signed ≤ b.signed

def flt (a b : FVal) : Bool := fle a b && !(fle b a)

/-! ## Scales (R116) -/

/-- element × s rounded once to FP32; flush mode applies to the product too. -/
def dequant (ftz : Bool) (f code : Nat) (s : FVal) (c : Counts) : FVal × Counts :=
  let (x, c) := readElem ftz f code c
  match x with
  | .num _ _ => let (p, c) := fmul (0, 0, 0) x s c; rne32 ftz p c
  | x => (x, c)

/-- u / s, formed exactly. -/
def descale (u s : FVal) : FVal :=
  match u, s with
  | .num n p, .num _ q => .num n (p / q)
  | u, _ => u

/-- Open in the spec: DESIGN CHOICE (log 10). -/
def StatFig.zero (e : Nat) : StatFig := { entry := e, amax := 0, nz := 0, uf := 0 }

/-- R117, R118: the figures of one quantised value. `tiny`: the result is ±0 or subnormal. -/
def tally (u : FVal) (tiny : Bool) (st : StatFig) : StatFig :=
  match u with
  | .num _ q =>
    if q = 0 then st
    else { st with
      amax := (let w := w32 (.num false q); if st.amax.toNat < w.toNat then w else st.amax)
      nz := satAdd 32 st.nz 1
      uf := satAdd 32 st.uf (b2n tiny) }
  | _ => st

def isTiny (f : Nat) (r : FVal) : Bool :=
  match r with
  | .num _ q => q == 0 || (!(isInt f) && q < minNormal f)
  | _ => false

/-- R116: u quantised into a view's format and scale. -/
def quantise (ftz : Bool) (f : Nat) (s u : FVal) (c : Counts) (st : StatFig) : Nat × Counts × StatFig :=
  let (r, c) := convert ftz f (descale u s) c
  (pack f r, c, tally u (isTiny f r) st)

/-! ## BS8 blocks (R134-R136) -/

/-- Element j of a block, as value before the tensor scale. -/
def bs8Elem (ftz : Bool) (blk : List Byte) (j : Nat) (c : Counts) : FVal × Counts :=
  let b := u8 blk 0
  if b = 0 then (FVal.zero, c)
  else if b = 0xFF then (.nan, { c with nanin := c.nanin + 1 })
  else
    let (x, c) := readElem ftz 3 (u8 blk (j + 1)) c
    match x with
    | .num n q => (.num n (q * pow2 ((b : Int) - 127)), c)
    | x => (x, c)

def bs8Dequant (ftz : Bool) (blk : List Byte) (j : Nat) (s : FVal) (c : Counts) : FVal × Counts :=
  let (x, c) := bs8Elem ftz blk j c
  match x with
  | .num _ _ => let (p, c) := fmul (0, 0, 0) x s c; rne32 ftz p c
  | x => (x, c)

/-- R136: 32 FP32 values as a block. -/
def bs8Encode (ftz : Bool) (s : FVal) (us : List FVal) (c : Counts) (st : StatFig) : List Byte × Counts × StatFig :=
  let vs := us.map (fun u => descale u s)
  let m := vs.foldl (fun m v => match v with | .num _ q => max m q | _ => m) 0
  if m = 0 && vs.all FVal.isZero then (zeros 33, c, st)
  else
    let e : Int := if m = 0 then 0 else ceilLog2 (m / 448)
    let b := max 1 (min 254 (e + 127))
    let k := pow2 (b - 127)
    let r := (List.zip us vs).foldl (fun (a : List Byte × Counts × StatFig) p =>
      match p.2 with
      | .nan => (a.1 ++ [0x7F], a.2)
      | .inf _ => (a.1 ++ [0x7F], { a.2.1 with sat := a.2.1.sat + 1 }, a.2.2)
      | .num n q =>
        let (x, c) := convert ftz 10 (.num n (q / k)) a.2.1
        (a.1 ++ [BitVec.ofNat 8 (pack 3 x)], c, tally p.1 (isTiny 3 x) a.2.2)) ([], c, st)
    (BitVec.ofNat 8 b.toNat :: r.1, r.2)

/-! ## Square roots -/

/-- The greatest x below 2^n, from acc on, with x² at most v. -/
def isqrt (v : Nat) : Nat → Nat → Nat
  | 0, acc => acc
  | n + 1, acc => isqrt v n (let t := acc + 2 ^ n; if t * t ≤ v then t else acc)

/-- The correctly rounded FP32 square root of q > 0. -/
def sqrt32 (q : Rat) : Rat :=
  let h := floorLog2 q / 2
  let ulp := pow2 (h - 23)
  let t := q / (ulp * ulp)
  let m := isqrt (t.num.natAbs / t.den) 26 0
  let mid := mkRat (Int.ofNat (2 * m + 1)) 2
  let n := if mid * mid < t then m + 1 else if t < mid * mid then m else if m % 2 = 0 then m else m + 1
  mkRat (Int.ofNat n) 1 * ulp

def ulp32 (q : Rat) : Rat := if q = 0 then pow2 (-149) else pow2 (max (floorLog2 q) (-126) - 23)

/-! ## The scale bank (R117-R121, R137) -/

/-- R117: an entry that no plan has listed. -/
def scaleDefault : ScaleEnt :=
  { scale := 0x3F800000, amaxCur := 0, nzCur := 0, ufCur := 0, amaxHist := List.replicate 16 0,
    ufrHist := List.replicate 16 0, head := 0, histN := 0, policy := 0, margin := 0, cfmt := 0, allow := 0, tUp := 0,
    tDown := 0, since := 0 }

def scaleEntOf (b : NatMap ScaleEnt) (i : Nat) : ScaleEnt := nmGetD b i scaleDefault

def scaleOf (b : NatMap ScaleEnt) (i : Nat) : FVal := f32 (scaleEntOf b i).scale

/-- R118: a descriptor's figures merged into an entry. -/
def scaleMerge (b : NatMap ScaleEnt) (st : StatFig) : NatMap ScaleEnt :=
  if st.nz = 0 then b
  else nmUpdD st.entry scaleDefault (fun e => { e with
    amaxCur := if e.amaxCur.toNat < st.amax.toNat then st.amax else e.amaxCur
    nzCur := satAdd 32 e.nzCur st.nz
    ufCur := satAdd 32 e.ufCur st.uf }) b

def listMax (l : List Nat) : Nat := l.foldl max 0

/-- The newest k of a history ring. -/
def newest {α : Type} (l : List α) (head k : Nat) (d : α) : List α :=
  (List.range k).map (fun i => l.getD ((head + 16 - i) % 16) d)

/-- The formats of the chooser, narrow to wide, that ALLOW lets in. -/
def allowed (allow : Nat) : List Nat :=
  (if bitAt allow 0 then [3] else []) ++ (if bitAt allow 1 then [4] else []) ++ (if bitAt allow 2 then [1] else [])

/-- R137. -/
def chooseFmt (e : ScaleEnt) : ScaleEnt :=
  let fs := allowed e.allow
  let i := fs.findIdx (fun f => f == e.cfmt)
  let u4 := listMax (newest e.ufrHist e.head (min 4 e.histN) 0)
  let u16 := listMax (newest e.ufrHist e.head e.histN 0)
  if fs.length ≤ i then e
  else if 4 ≤ e.since && e.tUp < u4 && i + 1 < fs.length then { e with cfmt := fs.getD (i + 1) 0, since := 0 }
  else if 16 ≤ e.since && e.histN == 16 && u16 < e.tDown && i != 0 then
    { e with cfmt := fs.getD (i - 1) 0, since := 0 }
  else e

/-- R121. -/
def newScale (e : ScaleEnt) : W32 :=
  let a := (newest e.amaxHist e.head e.histN 0).foldl (fun m w => max m (f32 w).signed) 0
  if e.histN = 0 || a = 0 then e.scale
  else
    let x := ceilLog2 (a * pow2 e.margin / maxFinite e.cfmt)
    w32 (.num false (pow2 (max (-126) (min 127 x))))

/-- R120: one entry at the end of a step. -/
def scaleStep (e : ScaleEnt) : ScaleEnt :=
  if e.nzCur = 0 then e
  else
    let ufr := min 255 (256 * e.ufCur / e.nzCur)
    let h := (e.head + 1) % 16
    let e := { e with
      head := h, amaxHist := e.amaxHist.set h e.amaxCur, ufrHist := e.ufrHist.set h ufr
      histN := min 16 (e.histN + 1) }
    let e := if e.policy = 2 then chooseFmt e else e
    let e := { e with since := min 255 (e.since + 1) }
    let e := if e.policy = 0 then e else { e with scale := newScale e }
    { e with amaxCur := 0, nzCur := 0, ufCur := 0 }

/-! ## Marl-10 (R154, R155) -/

def rotl (x : W32) (n : Nat) : W32 := x.rotateLeft n

def marlRounds : Nat → W32 → W32 → W32 × W32 × W32 × W32 → W32 × W32 × W32 × W32
  | 0, _, _, w => w
  | n + 1, k0, k1, (w0, w1, w2, w3) =>
    let w0 := w0 + k0
    let w2 := w2 + k1
    let w1 := w1 ^^^ rotl w0 8
    let w3 := w3 ^^^ rotl w2 20
    let w0 := w0 + w3
    let w2 := w2 + w1
    marlRounds n (k0 + 0x6C8E9CF5) (k1 + 0x3B1D4A97) (w1, w2, w3, w0)

/-- The four words for a seed, a step, a 64-bit block index and a tensor id. -/
def marl10 (seed : W64) (step : W64) (block : W64) (tensor : W32) : W32 × W32 × W32 × W32 :=
  marlRounds 10 (seed.extractLsb' 0 32) (seed.extractLsb' 32 32)
    (step.extractLsb' 0 32, block.extractLsb' 0 32, block.extractLsb' 32 32, tensor)

def marlWord (w : W32 × W32 × W32 × W32) (i : Nat) : W32 :=
  if i = 0 then w.1 else if i = 1 then w.2.1 else if i = 2 then w.2.2.1 else w.2.2.2

end Sys2Proof.Machine
end

