-- ==== Sys2Proof/Machine/Operands.lean ====
section
/-! DEFINITION. Operands of descriptors: the fields of a descriptor (R43), tensor views and their addresses (R47-R49),
the placement of operands (R50), the local store and its poison (R56-R58, R378), the cache (R61), and elements read
and written through views (R109, R116, R134). -/

namespace Sys2Proof.Machine

open Sys2Proof

/-! ## Descriptors (R43, R44) -/

def dOp (d : List Byte) : Nat := u8 d 0
def dFlags (d : List Byte) : Nat := u8 d 1
def dNotBefore (d : List Byte) : Nat := leNat (slice d 2 3)
def dSig (d : List Byte) : Nat := u8 d 5
def dVA (d : List Byte) : Nat := u8 d 6
def dVB (d : List Byte) : Nat := u8 d 7
def dVC (d : List Byte) : Nat := u8 d 8
def dVD (d : List Byte) : Nat := u8 d 9
def dOrd (d : List Byte) : Bool := bitAt (dFlags d) 7
def dAtom (d : List Byte) : Bool := bitAt (dFlags d) 6
def dMark (d : List Byte) : Bool := bitAt (dFlags d) 5

/-- Bytes a to 31 of the descriptor are zero. -/
def tailZero (d : List Byte) (a : Nat) : Bool := allZero (d.drop a)

def u24 (l : List Byte) (off : Nat) : Nat := leNat (slice l off 3)
def u48 (l : List Byte) (off : Nat) : Nat := leNat (slice l off 6)

/-- R51: the engine of an opcode: 1 ARR, 2 MVP, 3 VEC, 4 DMA, 5 SVE, 6 RED, 7 SYN; none for a reserved opcode. -/
def engineOf (op : Nat) : Option Nat :=
  if op ∈ [0x01, 0x02, 0x03, 0x3C] then some 1
  else if op = 0x04 then some 2
  else if op ∈ [0x05, 0x06, 0x08, 0x30] then some 3
  else if op ∈ [0x10, 0x11, 0x12, 0x13] then some 4
  else if op ∈ [0x14, 0x15] then some 5
  else if op ∈ [0x18, 0x19] then some 6
  else if op ∈ [0x20, 0x21, 0x22, 0x24, 0x28, 0x29, 0x2A, 0x2C, 0x2D, 0x34, 0x38, 0x3F] then some 7
  else none

/-- R41: the opcodes that hold their thread until they complete. -/
def blocking (op : Nat) : Bool := op ∈ [0x20, 0x21, 0x19, 0x29, 0x2D, 0x3F]

/-- R63: the wheel owner of an engine's local-store slots; none for SYN. -/
def ownerOf (op : Nat) : Option Nat :=
  match engineOf op with
  | some 1 => some 1
  | some 2 => some 2
  | some 3 => some 4
  | some 7 => none
  | some _ => some 3
  | none => none

/-! ## Views (R47-R49) -/

/-- A view-file entry that no view table fills. -/
def View.blank : View :=
  { handle := 0, off := 0, sz0 := 0, sz1 := 0, sz2 := 0, sz3 := 0, st0 := 0, st1 := 0, st2 := 0, st3 := 0, fmt := 0,
    cache := false, sp24 := false, mask := false, gix := false, scale := 0, masksel := 0 }

def parseView (b : List Byte) : View :=
  let st := leNat (slice b 18 10)
  let f := u8 b 28
  { handle := BitVec.ofNat 32 (u32 b 0), off := u48 b 4, sz0 := u16 b 10, sz1 := u16 b 12, sz2 := u16 b 14,
    sz3 := u16 b 16, st0 := bits st 0 20, st1 := bits st 20 20, st2 := bits st 40 20, st3 := bits st 60 20,
    fmt := bits f 4 4, cache := bitAt f 3, sp24 := bitAt f 2, mask := bitAt f 1, gix := bitAt f 0,
    scale := u16 b 29, masksel := u8 b 31 }

def isLocal (v : View) : Bool := v.handle == 0

def isEmpty (v : View) : Bool := v.sz0 == 0 || v.sz1 == 0 || v.sz2 == 0 || v.sz3 == 0

def nvec (v : View) : Nat := v.sz1 * v.sz2 * v.sz3
def nelem (v : View) : Nat := v.sz0 * nvec v

def sameSizes (a b : View) : Bool := a.sz0 == b.sz0 && a.sz1 == b.sz1 && a.sz2 == b.sz2 && a.sz3 == b.sz3

/-- R48: the bit address of element (i0, i1, i2, i3) for the grain of rank k. -/
def elemBit (v : View) (k i0 i1 i2 i3 : Nat) : Nat :=
  8 * v.off + fmtW v.fmt * (i0 * v.st0 + i1 * v.st1 + i2 * v.st2 + (i3 + (if v.gix then k else 0)) * v.st3)

/-- The coordinates of linear index n, i0 fastest. -/
def coordOf (v : View) (n : Nat) : Nat × Nat × Nat × Nat :=
  (n % max v.sz0 1, n / max v.sz0 1 % max v.sz1 1, n / max (v.sz0 * v.sz1) 1 % max v.sz2 1,
    n / max (v.sz0 * v.sz1 * v.sz2) 1)

/-- The bit address of the element of linear index n. -/
def linBit (v : View) (k n : Nat) : Nat :=
  let c := coordOf v n
  elemBit v k c.1 c.2.1 c.2.2.1 c.2.2.2

/-- The end of the highest byte that a view reaches, in bytes; 0 for an empty view. -/
def viewEnd (v : View) (k : Nat) : Nat :=
  if isEmpty v then 0
  else
    let b := elemBit v k (v.sz0 - 1) (v.sz1 - 1) (v.sz2 - 1) (v.sz3 - 1)
    if v.fmt = 10 then 33 * (b / 8 / 32 + 1) else ceilDiv (b + fmtW v.fmt) 8

/-- R49. -/
def bs8Ok (v : View) : Bool :=
  v.fmt != 10 || (v.off % 32 == 0 && v.sz0 % 32 == 0 && v.st0 == 1 && v.st1 % 32 == 0 && v.st2 % 32 == 0 &&
    v.st3 % 32 == 0)

/-! ## The partition (R60) -/

/-- The context's partition on a ped-2. -/
def lsPartOf (s : State) (p ctx : Nat) : Option LsPart :=
  ((ped2Of s p).slots.map (·.2)).find? (fun x => x.ctx == ctx)

def scratchOf (x : LsPart) : Nat := (x.size - x.cache) * 16384

/-- What a grain's engines work on: its physical store, the partition's base and the scratchpad's size in bytes. -/
structure Place where
  q : Nat
  base : Nat
  scratch : Nat
  cacheUnits : Nat
  ctx : Nat
  k : Nat
  deriving DecidableEq, Repr

def placeOf (s : State) (g : Nat) : Place :=
  match nmGet s.grains g with
  | some gr =>
    match lsPartOf s gr.ped2 gr.ctx with
    | some x => { q := physId s g, base := x.base * 16384, scratch := scratchOf x, cacheUnits := x.cache,
                  ctx := gr.ctx, k := gr.rank }
    | none => { q := physId s g, base := 0, scratch := 0, cacheUnits := 0, ctx := gr.ctx, k := gr.rank }
  | none => { q := physId s g, base := 0, scratch := 0, cacheUnits := 0, ctx := 0, k := 0 }

/-- A byte of a physical store as an access reads it now, and its poison (R68). -/
def storeByte (s : State) (q a : Nat) : Byte × Bool := (memByte (physOf s q).ls a, decide (a / 32 ∈ (physOf s q).poison))

/-- A byte of the scratchpad and its poison. -/
def lsByte (s : State) (p : Place) (a : Nat) : Byte × Bool := storeByte s p.q (p.base + a)

def lsRead (s : State) (p : Place) (a n : Nat) : List Byte := (List.range n).map (fun i => (lsByte s p (a + i)).1)

/-- Some word of [a, a+n) of the scratchpad is poisoned. -/
def lsPoisoned (s : State) (p : Place) (a n : Nat) : Bool := (List.range n).any (fun i => (lsByte s p (a + i)).2)

/-- R56: the check bytes that stand beside word w of a physical store: those of its data, as every write leaves them
(R57). -/
def checkBytes (s : State) (q w : Nat) : List Byte :=
  let b := memRead (physOf s q).ls (32 * w) 32
  if allZero b then leBytes 4 0 else leBytes 4 (Config.rsCode b).toNat

/-! ## Elements -/

/-- w bits at bit address b, of bytes given one by one; and whether one of them is poisoned. -/
def bitsFrom (byteAt : Nat → Byte × Bool) (b w : Nat) : Nat × Bool :=
  let n := (b % 8 + w + 7) / 8
  let l := (List.range n).map (fun i => byteAt (b / 8 + i))
  (leNat (l.map (·.1)) / 2 ^ (b % 8) % 2 ^ w, l.any (·.2))

/-- One write of an element: bit address, width, code, poison. -/
abbrev BitW := Nat × Nat × Nat × Bool

/-- The bytes that writes touch, each once. -/
def touched (ws : List BitW) : List Nat :=
  ws.foldl (fun l x => (List.range ((x.1 % 8 + x.2.1 + 7) / 8)).foldl (fun l i => addOnce (x.1 / 8 + i) l) l) []

/-- The later write of one bit address wins. -/
def lastWrites (ws : List BitW) : List BitW :=
  ws.foldl (fun l x => l.filter (fun y => y.1 != x.1) ++ [x]) []

/-- Bits of [lo, lo+n) that writes cover. -/
def bitsIn (ws : List BitW) (lo n : Nat) : Nat :=
  ws.foldl (fun c x => c + (min (x.1 + x.2.1) (lo + n) - max x.1 lo)) 0

/-- Elements written to the local store: the bytes merge into their words; a poisoned element poisons its word, and a
word that the writes cover whole loses its poison (R378). Addresses count from the partition's base. -/
def lsWrite (p : Place) (ws : List BitW) (s : State) : State :=
  let words := (touched ws).foldl (fun l a => addOnce ((p.base + a) / 32) l) []
  let u := lastWrites ws
  updPhys p.q (fun x =>
    { x with
      ls := ws.foldl (fun m w => memBits m (8 * p.base + w.1) w.2.1 w.2.2.1) x.ls
      poison := words.foldl (fun l w =>
        if u.any (fun y => y.2.2.2 && (8 * p.base + y.1) / 256 ≤ w && w ≤ (8 * p.base + y.1 + y.2.1 - 1) / 256) then
          addOnce w l
        else if bitsIn (u.map (fun y => (8 * p.base + y.1, y.2))) (256 * w) 256 = 256 then del w l
        else l) x.poison }) s

/-! ### Lanes and their slots (R57, R63, R68) -/

/-- Writes cut where they cross a 4-byte lane (R57); one of no bits goes. -/
def cutLanes (ws : List BitW) : List BitW :=
  (ws.filter (fun w => w.2.1 != 0)).flatMap (fun w =>
    (List.range ((w.1 + w.2.1 - 1) / 32 + 1 - w.1 / 32)).map (fun i =>
      let lo := max w.1 (32 * (w.1 / 32 + i))
      let hi := min (w.1 + w.2.1) (32 * (w.1 / 32 + i + 1))
      (lo, hi - lo, w.2.2.1 / 2 ^ (lo - w.1) % 2 ^ (hi - lo), w.2.2.2)))

/-- Lanes join those that wait at a physical store. -/
def queueLanes (q : Nat) (e : PendW) (s : State) : State :=
  updPhys q (fun x => { x with pend := x.pend ++ [{ e with id := listMax (x.pend.map (·.id)) + 1 }] }) s

/-- The lane may pass in this gc: a free number of gc after its descriptor issued, or its data came.
DESIGN CHOICE (log 84). -/
def laneReady (now : W64) (e : PendW) (lane : Nat) : Bool :=
  decide (Config.laneDelay e.ser lane < (now - e.issue).toNat)

/-- R57, R63, R67, R168: the lane of bank b that passes in a slot of `owner`: the oldest one that is ready, a hub
transfer's first; none where the owner has nothing to move. -/
def nextLane (now : W64) (owner b : Nat) (l : List PendW) : Option (PendW × Nat) :=
  let hub (e : PendW) : Bool := match e.why with | .xfer _ => true | _ => false
  (l.filter hub ++ l.filter (fun e => !(hub e))).findSome? (fun (e : PendW) =>
    if e.far || e.owner != owner then none
    else ((e.ws.map (fun (w : BitW) => w.1 / 32) ++ e.rd.map (fun (r : Nat × Nat × Nat) => r.1 / 4)).find? (fun n =>
      n / 8 % 4 == b && laneReady now e n)).map (fun n => (e, n)))

/-- R57, R378: the writes of one lane are merged into its word in one access: a poisoned element poisons the word, and the
last lane of writes that cover the word whole clears its poison. `base`: of the partition, in bytes. -/
def landLane (q base : Nat) (e : PendW) (lane : Nat) (s : State) : State :=
  let mine := e.ws.filter (fun w => w.1 / 32 == lane)
  let rest := e.ws.filter (fun w => w.1 / 32 != lane)
  let u := lastWrites e.all
  let lo := 256 * (lane / 8)
  let whole := bitsIn u lo 256 = 256 && !(rest.any (fun w => w.1 / 256 == lane / 8)) &&
    !(u.any (fun y => y.2.2.2 && y.1 < lo + 256 && lo < y.1 + y.2.1))
  let word := base / 32 + lane / 8
  updPhys q (fun x => { x with
    ls := mine.foldl (fun m w => memBits m (8 * base + w.1) w.2.1 w.2.2.1) x.ls
    poison := if (lastWrites mine).any (·.2.2.2) then addOnce word x.poison
      else if whole && mine != [] then del word x.poison
      else x.poison
    pend := updWhere (fun y => y.id == e.id)
      (fun y => { y with ws := rest, rd := y.rd.filter (fun r => r.1 / 4 != lane) }) x.pend }) s

/-- Lanes that still wait for a descriptor's results, or whatever else `pick` names, at a physical store. -/
def lanesWait (s : State) (q : Nat) (pick : PendW → Bool) : Bool := (physOf s q).pend.any (fun e => !e.far && pick e)

def byteWrites (a : Nat) (b : List Byte) (poison : Bool) : List BitW :=
  (runAt a b).map (fun e => (8 * e.1, 8, e.2.toNat, poison))

def lsWriteBytes (p : Place) (a : Nat) (b : List Byte) (s : State) : State := lsWrite p (byteWrites a b false) s

/-! ## The cache (R61, R62) -/

def lineOf (va : Nat) : Nat := va / 64 * 64

def cacheFind (x : Phys) (ctx va : Nat) : Option CacheLine :=
  x.lines.find? (fun l => l.ctx == ctx && l.va == lineOf va)

def cacheSets (p : Place) : Nat := max (p.cacheUnits * 64) 1

/-- The object of the context that holds a device virtual address. -/
def objAt (s : State) (ctx va : Nat) : Option Obj :=
  s.hz.objs.find? (fun o => o.ctx == ctx && o.base ≤ va && va < o.base + o.size)

/-- R61: a line's words in the store, read or written in CCH slots. Which way of its set a line lies in shows nowhere.
DESIGN CHOICE (log 84). -/
def lineLanes (p : Place) (va : Nat) : List (Nat × Nat × Nat) :=
  (List.range 16).map (fun i => (p.scratch + 64 * (va / 64 % cacheSets p) + 4 * i, 0, 0))

/-- A line's bytes as writes, by bit. -/
def lineBits (data : List (Byte × Bool)) : List BitW :=
  (List.zip data (List.range 64)).map (fun e => (8 * e.2, 8, e.1.1.toNat, e.1.2))

/-- A dirty line goes back to its horizon (R61): out of the store in CCH slots, then as a request. `ser`: the descriptor
that waits for it, 0 where none does. -/
def writeBack (g ser : Nat) (p : Place) (l : CacheLine) (s : State) : State :=
  if !l.dirty then s
  else queueLanes p.q
    { id := 0, ser := ser, ctx := l.ctx, g := g, why := .back l.va, issue := s.clk.pcc, owner := 5, far := false
      view := 0xFF, all := lineBits (l.data.map (fun b => (b, l.poison))), ws := [], rd := lineLanes p l.va } s

/-- Lines of the cache in the set of va. -/
def inSet (p : Place) (va : Nat) (l : CacheLine) : Bool := l.va / 64 % cacheSets p == va / 64 % cacheSets p

def lruNext (x : Phys) : Nat := listMax (x.lines.map (·.lru)) + 1

/-- A line comes in; the least recently used line of a full set goes out (R61). -/
def fillLine (g : Nat) (p : Place) (va : Nat) (data : List Byte) (bad : Bool) (s : State) : State :=
  let x := physOf s p.q
  let mine := x.lines.filter (inSet p va)
  let s :=
    if mine.length < 4 then s
    else
      let low := mine.foldl (fun m l => min m l.lru) (lruNext x)
      match mine.find? (fun l => l.lru == low) with
      | some v =>
        let s := writeBack g 0 p v s
        let s := if v.dirty then bump g 0x22 1 s else s
        updPhys p.q (fun x => { x with lines := x.lines.filter (fun l => !(l.ctx == v.ctx && l.va == v.va)) }) s
      | none => s
  updPhys p.q (fun x => { x with
    lines := x.lines ++ [{ ctx := p.ctx, va := va, dirty := false, data := data, poison := bad, lru := lruNext x }] }) s

/-- A line that another thread's fill has evicted since its descriptor touched it comes in again as the horizon stands
now. DESIGN CHOICE (log 84). -/
def cacheFill (g : Nat) (p : Place) (va : Nat) (s : State) : State :=
  let va := lineOf va
  match objAt s p.ctx va with
  | some o => fillLine g p va (objRead s o (va - o.base) 64)
      ((List.range 64).any (fun i => objPoison s o (va - o.base + i))) s
  | none => s

def cacheTouch (p : Place) (va : Nat) (s : State) : State :=
  updPhys p.q (fun x => { x with
    lines := updWhere (fun l => l.ctx == p.ctx && l.va == lineOf va) (fun l => { l with lru := lruNext x }) x.lines }) s

/-- R378: a line that the writes cover whole keeps the poison of the writes alone. -/
def lineCovered (o : Obj) (ws : List BitW) (p : Place) (l : CacheLine) : CacheLine :=
  let lo := 8 * (l.va - o.base)
  if l.ctx = p.ctx && o.base ≤ l.va && bitsIn (lastWrites ws) lo 512 = 512 then
    { l with poison := (lastWrites ws).any (fun w => w.2.2.2 && w.1 < lo + 512 && lo < w.1 + w.2.1) }
  else l

/-- Bytes written through the cache; a missing line is filled first. -/
def cacheWrite (g : Nat) (p : Place) (o : Obj) (ws : List BitW) (s : State) : State :=
  (fun s => updPhys p.q (fun x => { x with lines := x.lines.map (lineCovered o ws p) }) s) <| ws.foldl (fun s w =>
    (List.range ((w.1 % 8 + w.2.1 + 7) / 8)).foldl (fun s i =>
      let va := o.base + w.1 / 8 + i
      let s := match cacheFind (physOf s p.q) p.ctx va with | some _ => s | none => cacheFill g p va s
      -- the bits of this byte that the element covers
      let lo := max w.1 (8 * (w.1 / 8 + i))
      let n := min (w.1 + w.2.1) (8 * (w.1 / 8 + i) + 8) - lo
      let part := w.2.2.1 / 2 ^ (lo - w.1) % 2 ^ n
      updPhys p.q (fun x => { x with
        lines := updWhere (fun l => l.ctx == p.ctx && l.va == lineOf va) (fun l =>
          let old := (l.data.getD (va - l.va) 0).toNat
          let sh := lo % 8
          let new := old / 2 ^ (sh + n) * 2 ^ (sh + n) + part * 2 ^ sh + old % 2 ^ sh
          { l with dirty := true, data := l.data.set (va - l.va) (BitVec.ofNat 8 new)
                   poison := l.poison || w.2.2.2 }) x.lines }) s) s) s

/-- Every line of the context goes back and out (R62), for a descriptor that waits for it or for none (`ser` 0). -/
def flushLines (g ser : Nat) (p : Place) (s : State) : State :=
  let mine := (physOf s p.q).lines.filter (fun l => l.ctx == p.ctx)
  let s := mine.foldl (fun s l => writeBack g ser p l s) s
  let s := bump g 0x22 (mine.filter (·.dirty)).length s
  updPhys p.q (fun x => { x with lines := x.lines.filter (fun l => l.ctx != p.ctx) }) s

/-! ## Views read and written -/

/-- How an engine reads a view's bytes: the scratchpad, or the cache lines that the descriptor has touched. -/
def viewBytes (s : State) (p : Place) (lines : List (Nat × List Byte × Bool)) (v : View) : Nat → Byte × Bool :=
  if isLocal v then lsByte s p
  else match ownObj s p.ctx v.handle with
    | some o => fun a =>
      match lines.find? (fun l => l.1 == lineOf (o.base + a)) with
      | some l => (l.2.1.getD (o.base + a - l.1) 0, l.2.2)
      | none => (0, false)
    | none => fun _ => (0, false)

/-- The raw code and poison of an element at a bit address; a BS8 element is one byte of its block. -/
def elemCode (byteAt : Nat → Byte × Bool) (v : View) (b : Nat) : Nat × Bool := bitsFrom byteAt b (fmtW v.fmt)

/-- The 33 bytes of the block that element address e lies in, and their poison. -/
def blockAt (byteAt : Nat → Byte × Bool) (e : Nat) : List Byte × Bool :=
  let l := (List.range 33).map (fun i => byteAt (33 * (e / 32) + i))
  (l.map (·.1), l.any (·.2))

/-- R116, R135: the FP32 value of an element. -/
def elemVal (ftz : Bool) (byteAt : Nat → Byte × Bool) (v : View) (sc : FVal) (b : Nat) (c : Counts) :
    FVal × Bool × Counts :=
  if v.fmt = 10 then
    let blk := blockAt byteAt (b / 8)
    let r := bs8Dequant ftz blk.1 (b / 8 % 32) sc c
    (r.1, blk.2, r.2)
  else
    let x := elemCode byteAt v b
    let r := dequant ftz v.fmt x.1 sc c
    (r.1, x.2, r.2)

/-- Every element of a view in linear order, dequantised. -/
def viewVals (ftz : Bool) (byteAt : Nat → Byte × Bool) (v : View) (k : Nat) (sc : FVal) (c : Counts) :
    List (FVal × Bool) × Counts :=
  (List.range (nelem v)).foldl (fun (a : List (FVal × Bool) × Counts) n =>
    let r := elemVal ftz byteAt v sc (linBit v k n) a.2
    (a.1 ++ [(r.1, r.2.1)], r.2.2)) ([], c)

/-- Values quantised into a view, in linear order: the writes of its elements. -/
def quantView (ftz : Bool) (v : View) (k : Nat) (sc : FVal) (us : List (FVal × Bool)) (c : Counts) (st : StatFig) :
    List BitW × Counts × StatFig :=
  if v.fmt = 10 then
    (List.range ((us.length + 31) / 32)).foldl (fun (a : List BitW × Counts × StatFig) i =>
      let us' := slice' us (32 * i) 32
      let r := bs8Encode ftz sc (us'.map (·.1)) a.2.1 a.2.2
      let e := linBit v k (32 * i) / 8
      (a.1 ++ byteWrites (33 * (e / 32)) r.1 (us'.any (·.2)), r.2.1, r.2.2)) ([], c, st)
  else
    (List.range us.length).foldl (fun (a : List BitW × Counts × StatFig) n =>
      let u := us.getD n (FVal.zero, false)
      let r := quantise ftz v.fmt sc u.1 a.2.1 a.2.2
      (a.1 ++ [(linBit v k n, fmtW v.fmt, r.1, u.2)], r.2.1, r.2.2)) ([], c, st)
where
  slice' (l : List (FVal × Bool)) (off n : Nat) : List (FVal × Bool) := (l.drop off).take n

/-- Raw codes written to a view's elements in linear order. -/
def rawView (v : View) (k : Nat) (codes : List (Nat × Bool)) : List BitW :=
  (List.range codes.length).map (fun n =>
    let u := codes.getD n (0, false)
    (linBit v k n, fmtW v.fmt, u.1, u.2))

/-- R152: bytes that a grain has written through a checked view. -/
def noteBytes (ctx g vi : Nat) (bytes : List (Nat × Byte)) (s : State) : State :=
  let key := logicalPed2 g * 256 + vi
  match segOf s ctx with
  | none => s
  | some r =>
    if !(r.chkBytes.any (fun e => e.1 == key && e.2.1 == g)) then s
    else updSeg ctx (fun r => { r with
      chkBytes := updWhere (fun e => e.1 == key && e.2.1 == g)
        (fun e => (e.1, e.2.1, bytes.foldl (fun m b => nmSet b.1 b.2 m) e.2.2)) r.chkBytes }) s

/-- R152: the bytes that element writes have left in the scratchpad, or in the cache's lines. -/
def noteChk (g vi : Nat) (p : Place) (v : View) (ws : List BitW) (s : State) : State :=
  let base := match ownObj s p.ctx v.handle with | some o => o.base | none => 0
  noteBytes p.ctx g vi ((touched ws).map (fun a => (a,
    if isLocal v then (lsByte s p a).1
    else match cacheFind (physOf s p.q) p.ctx (base + a) with
      | some l => l.data.getD (base + a - l.va) 0
      | none => match ownObj s p.ctx v.handle with | some o => objByte s o a | none => 0))) s

/-- R152: the bytes that writes have left in an object. -/
def noteObj (ctx g vi : Nat) (h : W32) (ws : List BitW) (s : State) : State :=
  match objOf s h with
  | some o => noteBytes ctx g vi ((touched (ws.filter (fun w => w.2.1 != 0))).map (fun a => (a, objByte s o a))) s
  | none => s

/-- Element writes through view vi, to the scratchpad or the cache. -/
def writeView (g vi : Nat) (p : Place) (v : View) (ws : List BitW) (s : State) : State :=
  let s :=
    if isLocal v then lsWrite p ws s
    else match ownObj s p.ctx v.handle with
      | some o => cacheWrite g p o ws s
      | none => s
  noteChk g vi p v ws s

/-- The cache lines that a cached view takes in, in order, each once. -/
def viewLines (s : State) (p : Place) (v : View) : List Nat :=
  if isLocal v then []
  else match ownObj s p.ctx v.handle with
    | none => []
    | some o =>
      let ends (n : Nat) : List Nat :=
        let b := linBit v p.k n
        if v.fmt = 10 then [33 * (b / 8 / 32), 33 * (b / 8 / 32) + 32] else [b / 8, (b + fmtW v.fmt - 1) / 8]
      (List.range (nelem v)).foldl (fun l n =>
        (ends n).foldl (fun l a => addOnce (lineOf (o.base + a)) l) l) []

end Sys2Proof.Machine
end

