-- ==== Sys2Proof/Machine/Flags.lean ====
section
/-! DEFINITION. What a counted descriptor leaves in its context: the sticky bits, the summary counters, the scale-bank
statistics and the numeric record (R113-R119, R129-R133). -/

namespace Sys2Proof.Machine

open Sys2Proof

/-- R129: the opcodes whose work is counted. -/
def countedOp (op : Nat) : Bool := op ∈ [0x01, 0x02, 0x04, 0x05, 0x06, 0x30]

/-- R132: the sticky bits that counts set, as HUB_NUMCTL [14:8] orders them. -/
def stickies (c : Counts) : BitVec 7 :=
  BitVec.ofNat 7 (b2n c.ftzHit + 2 * b2n (c.sat != 0) + 4 * b2n (c.invalid != 0) + 8 * b2n (c.nanin != 0) +
    16 * b2n (c.ovf != 0) + 32 * b2n (c.nanout != 0) + 64 * b2n c.ufl)

/-- R115: the sticky bits of work that is no counted descriptor: STK_FLUSH in flush mode, STK_UFL in keep mode. -/
def noteStk (ctx : Nat) (k : Counts) (s : State) : State :=
  updCtx ctx (fun c => { c with num_ := { c.num_ with stk := c.num_.stk ||| stickies { Counts.none with
    ftzHit := c.num_.ftzF && k.ftzHit, ufl := !c.num_.ftzF && k.ufl } } }) s

def addSum (c : Counts) (n : NumSum) : NumSum :=
  { n with
    ops := n.ops + 1
    sat := n.sat + BitVec.ofNat 64 c.sat
    flush := n.flush + BitVec.ofNat 64 c.flush
    invalid := n.invalid + BitVec.ofNat 64 c.invalid
    nanin := n.nanin + BitVec.ofNat 64 c.nanin
    ovf := n.ovf + BitVec.ofNat 64 c.ovf
    nanout := n.nanout + BitVec.ofNat 64 c.nanout }

def sat32 (n : Nat) : Nat := min n 0xFFFFFFFF

/-- R130: the 64 bytes of a numeric record. -/
def numRecord (s : State) (c : Ctx) (g : Nat) (o : OutD) (regrow replay : Bool) : List Byte :=
  let k := o.counts
  let inv := k.inv.getD (0, 0, 0)
  leBytes 8 s.clk.pcc.toNat ++
  leBytes 4 (c.num * 2 ^ 22 + o.t * 2 ^ 19 + g) ++
  leBytes 1 (dOp o.desc) ++ leBytes 1 (if dOp o.desc = 5 then u8 o.desc 10 else 0) ++
  leBytes 1 (b2n k.inv.isSome + 2 * b2n regrow + 4 * b2n replay + 8 * b2n c.num_.ftzF) ++ leBytes 1 0 ++
  leBytes 8 o.daddr.toNat ++
  leBytes 4 (sat32 k.sat) ++ leBytes 4 (sat32 k.flush) ++ leBytes 4 (sat32 k.invalid) ++ leBytes 4 (sat32 k.nanin) ++
  leBytes 4 (sat32 k.ovf) ++ leBytes 4 (sat32 k.nanout) ++
  leBytes 4 inv.1 ++ leBytes 2 inv.2.1 ++ leBytes 2 inv.2.2 ++
  leBytes 4 c.step.toNat ++ leBytes 2 c.num_.seq.toNat ++ leBytes 2 0

/-- R131: a record is written at HEAD, or counts as lost. The rule places the ring in HZ1, HZ2 or HZ4 and says nothing of a
HANDLE whose object lies in HZ3: the model writes the record there all the same. DESIGN CHOICE (log 108). -/
def putNumRecord (ctx g : Nat) (b : List Byte) (s : State) : State :=
  match ctxOf s ctx with
  | none => s
  | some c =>
    let n := c.num_
    let size := 2 ^ (n.sizeF + 6)
    let lost := updCtx ctx (fun c => { c with
      num_ := { c.num_ with seq := c.num_.seq + 1 }, sum := { c.sum with lost := c.sum.lost + 1 } }) s
    if !n.enF || n.ringF == 0 then lost
    else match ownObj s ctx n.ringF with
      | none => lost
      | some o =>
        if o.size < 64 * size || (n.head - n.tail).toNat == size then lost
        else
          let s := bump g 0x26 1 (objWriteAt n.ringF (n.head.toNat % size * 64) b s)
          updCtx ctx (fun c => { c with
            num_ := { c.num_ with seq := c.num_.seq + 1, head := c.num_.head + 1 } }) s

/-- R118, R119, R129-R133: a counted descriptor's counts, statistics and record take effect. -/
def releaseCounts (g : Nat) (o : OutD) (ctx : Nat) (s : State) : State :=
  match ctxOf s ctx with
  | none => s
  | some c =>
    let regrow := match segOf s ctx with | some r => r.d.regrow | none => false
    let s :=
      if o.counted then
        updCtx ctx (fun c => { c with sum := addSum o.counts c.sum }) s
      else s
    let s := updCtx ctx (fun c => { c with num_ := { c.num_ with stk := c.num_.stk ||| stickies o.counts } }) s
    let s :=
      if regrow then s
      else updCtx ctx (fun c => { c with bank := o.stats.foldl scaleMerge c.bank }) s
    if o.counted && o.counts.any then
      let replay := (o.redo) || c.sec.replayCid.isSome
      putNumRecord ctx g (numRecord s c g o regrow replay) s
    else s

end Sys2Proof.Machine
end

