-- ==== Sys2Proof/Machine/Issue.lean ====
section
/-! DEFINITION. How threads issue and complete descriptors: the running segment (R162), descriptor faults (R46), burst
requests (R52), horizon requests and their tags (R204-R207), the waits before an issue (R40, R41, R44, R45, R54, R55),
samples (R477-R479), and completion (R41). -/

namespace Sys2Proof.Machine

open Sys2Proof

/-! ## The running segment -/

def segGc (s : State) (r : RunSeg) : Nat := (s.clk.pcc - r.gc0).toNat

def progOf (r : RunSeg) (p : Nat) : Option Prog := r.d.progs.find? (fun x => x.ped2 == p)

/-- Read from the spec by inference: DEDUCED (log 87). -/
def viewAt (r : RunSeg) (p i : Nat) : View :=
  match progOf r p with
  | some x => x.views.getD i View.blank
  | none => View.blank

def ctxFtz (s : State) (ctx : Nat) : Bool := match ctxOf s ctx with | some c => c.num_.ftzF | none => false
def ctxScale (s : State) (ctx i : Nat) : FVal := match ctxOf s ctx with | some c => scaleOf c.bank i | none => .num false 1

/-- R493: the address of descriptor `pos` of a stream. -/
def descAddr (s : State) (ctx : Nat) (st : Stream) (pos : Nat) : W64 :=
  if st.handle = 0 then BitVec.ofNat 64 (2 ^ 63 + st.off + 32 * pos)
  else match ownObj s ctx st.handle with
    | some o => BitVec.ofNat 64 (o.base + st.off + 32 * pos)
    | none => 0

/-- A status that does not stop the segment: the first one stands, but ABORTED_TXN gives way (R376). -/
def segStatus (ctx : Nat) (st : W16) (s : State) : State :=
  updSeg ctx (fun r => { r with
    status := match r.status with
      | none => some st
      | some x => if x = stABORTED_TXN then some st else some x }) s

/-- The packages that hold prepared window writes of a clod. -/
def clodTargets (c : Clod) : List Nat :=
  c.preps.foldl (fun l p => match p.2.2 with | .win d => addOnce d l | _ => l) []

/-- The clods of a context are discarded: their prepared writes are dropped, and remote targets hear ABORT. -/
def dropClods (ctx : Nat) (s : State) : State :=
  let s := (s.clods.filter (fun c => c.ctx == ctx)).foldl (fun s c =>
    (clodTargets c).foldl (fun s d => emit (.clodDecision d c.key false) s) s) s
  { s with clods := s.clods.filter (fun c => c.ctx != ctx) }

/-- R376: the open clods that grain g is a member of abort as it faults or is retired: the record of the part that failed
first, or of this. -/
def abortClods (g : Nat) (cause : W16) (a : W64) (s : State) : State :=
  let mine := s.clods.filter (fun c => g ∈ c.members)
  mine.foldl (fun s c =>
    let x := c.failed.getD (cause, g, 0, a)
    postRec 0x09 1 (some c.ctx) (dieOfPed2 (logicalPed2 x.2.1)) x.2.1
      [(0, 1, c.cid), (2, 2, x.1.toNat), (4, 4, x.2.2.1), (8, 8, x.2.2.2.toNat)] s) s

/-- R46: the threads of the context's segment stop; open clods and speculative buffers are discarded. -/
def stopSeg (ctx : Nat) (why : StopCause) (st : W16) (s : State) : State :=
  match segOf s ctx with
  | none => s
  | some r =>
    if r.stop.isSome then s
    else
      let s := updSeg ctx (fun r => { r with stop := some why, status := some st }) s
      let s := dropClods ctx s
      let halt (e : Nat × Grain) : Nat × Grain := if e.2.ctx = ctx then (e.1, { e.2 with
          thr := e.2.thr.map (fun t => (t.1, { t.2 with heldSig := [], spec := .none, task := none, clod := none })) }) else e
      let s : State := { s with grains := s.grains.map halt }
      -- R62: the lines of its grains go back
      (s.grains.filter (fun e => e.2.ctx == ctx && e.2.thr != [])).foldl (fun s e => flushLines e.1 0 (placeOf s e.1) s) s

/-- The run that the segment belongs to. -/
def updRun (ctx cid : Nat) (f : SegRun → SegRun) (s : State) : State :=
  updCtx ctx (fun c => { c with runs := updWhere (fun r => r.cid == cid) f c.runs }) s

/-- R46: a descriptor fault of thread t at descriptor address `a`. -/
def faultAt (g t code : Nat) (a : W64) (s : State) : State :=
  match nmGet s.grains g with
  | none => s
  | some gr =>
    match segOf s gr.ctx with
    | some r =>
      let s := updThr g t (fun th => { th with st := .fault }) s
      let s := postRec 0x02 2 (some gr.ctx) (dieOfPed2 gr.ped2) g
        [(0, 8, a.toNat), (8, 1, t), (9, 1, code), (10, 2, r.seg), (12, 4, r.plan)] s
      let res := leBytes 8 a.toNat ++ leBytes 3 (g + t * 2 ^ 19) ++ leBytes 1 code ++ leBytes 4 r.seg
      let s := if r.stop.isSome then s else updRun gr.ctx r.cid (fun x => { x with faultRes := some res }) s
      stopSeg gr.ctx .descFault stBAD_PARAM (if r.stop.isSome then s else abortClods g stBAD_PARAM a s)
    | none => s

/-- R46: a descriptor fault of thread t at its next descriptor. -/
def descFault (g t code : Nat) (s : State) : State :=
  match (nmGet s.grains g).bind (fun gr => (nmGet gr.thr t).map (fun th => (gr, th))) with
  | none => s
  | some (gr, th) =>
    faultAt g t code (match th.stream with | some st => descAddr s gr.ctx st th.pos | none => 0) s

/-- R378: a descriptor or an engine has consumed a poisoned word. DEDUCED (log 91). -/
def consumePoison (ctx g horizon consumer : Nat) (h : W32) (addr : Nat) (daddr : W64) (s : State) : State :=
  let s := postRec 0x07 2 (some ctx) (dieOfPed2 (logicalPed2 g)) g
    [(0, 1, horizon), (1, 1, consumer), (4, 4, h.toNat), (8, 8, addr), (16, 8, daddr.toNat)] s
  segStatus ctx stUNCORRECTABLE s

/-! ## Horizon requests and tags (R204-R208) -/

/-- The pool and channel of a byte of device address va of an object that lies at a place. -/
def poolAt (s : State) (o : Obj) (va : Nat) (l : Loc) : Pool × Nat :=
  let c := hz1Chan o va
  match l with
  | .hz1 _ => (.hz1 c.1, c.2)
  | .hz2 _ => let ch := hz2Chan s va; (.tdie (ch / 8), ch % 8)
  | .hz3 d _ => (.tdie (d / 4), 8 + d % 4)
  | .hz4 p _ => (.port p, 0)

/-- The pool and channel that serve a byte of an object. -/
def servedBy (s : State) (o : Obj) (off : Nat) : Pool × Nat := poolAt s o (o.base + off) (locOf o off)

def poolSize : Pool → Nat
  | .hz1 _ => 4096
  | .tdie _ => 8192
  | .port _ => 768
  | .ldie _ => 2048

def quota : Pool → Nat
  | .hz1 _ => 1024
  | .tdie _ => 2048
  | .port _ => 768
  | .ldie _ => 512

/-- The channel lies inside its calibration window. DESIGN CHOICE (log 103). -/
def inCalib (s : State) (p : Pool) (ch : Nat) : Bool :=
  match p with
  | .hz1 st => Chan.hz1 st ch ∈ s.hz.calib
  | .tdie t => ch < 8 && Chan.hz2 (t * 8 + ch) ∈ s.hz.calib
  | _ => false

/-- The request reads; an ADD's contribution, which its pool's die takes in, counts as a write. -/
def isRead : ReqKind → Bool
  | .write _ => false
  | .copy _ w _ => !w
  | .back _ _ => false
  | .add _ _ _ _ _ => false
  | .apply _ _ stage => stage != 2
  | .aper _ _ d => d.isNone
  | _ => true

/-- R208: an HZ4 write holds no tag. -/
def needsTag (q : Req) : Bool := match q.pool with | .port _ => isRead q.kind | _ => true

/-- R214: copies that share one sixteenth of each pool; a KIND 1 transfer draws on all of it. -/
def isShared : ReqKind → Bool
  | .copy (.xfer _ _) _ _ => false
  | .copy _ _ _ => true
  | _ => false

/-- R206, R207, R214: the request's pool has a tag, its channel has room for one more and is outside its window, and
what it shares of the pool is not used up. -/
def tagFree (s : State) (q : Req) : Bool :=
  let held := s.hz.reqs.filter (fun x => x.tagged && x.pool == q.pool && needsTag x)
  !q.miss && held.length < poolSize q.pool && (held.filter (fun x => x.chan == q.chan)).length < quota q.pool &&
    !(inCalib s q.pool q.chan) &&
    (!(isShared q.kind) || (held.filter (fun x => isShared x.kind)).length < poolSize q.pool / 16)

/-- R207: the order of waiting requests: arrival, then requesting die, then channel. DEDUCED (log 88). -/
def waitsBefore (a b : Req) : Bool :=
  let x := a.since.toNat
  let y := b.since.toNat
  x < y || (x == y && (a.die < b.die || (a.die == b.die && (a.chan < b.chan || (a.chan == b.chan && a.id < b.id)))))

/-- R207: the waiting request of a pool that a free tag goes to. -/
def nextWaiter (s : State) (p : Pool) : Option Req :=
  (s.hz.reqs.filter (fun q => !q.tagged && q.pool == p && tagFree s q)).foldl (fun m q =>
    match m with
    | none => some q
    | some x => if waitsBefore q x then some q else some x) none

/-- R204: a request to HZ3 that holds its tag is one NVMe command. -/
def reqStarts (q : Req) (s : State) : State :=
  match q.nv with
  | some (d, l) => nvmePut d (if isRead q.kind then 0 else 1) l [q.id] s
  | none => s

/-- R207: a request arrives at its die hub: it takes a tag, unless a request that waits is due it. -/
def enterReq (q : Req) (s : State) : State :=
  let q := { q with id := s.hz.nextReq, since := s.clk.pcc }
  let q := { q with tagged := !q.miss && (!(needsTag q) || (tagFree s q && (nextWaiter s q.pool).isNone)) }
  let s := updHz (fun h => { h with reqs := h.reqs ++ [q], nextReq := h.nextReq + 1 }) s
  if q.tagged then reqStarts q s else s

/-- A waiting request takes a tag. -/
def grantReq (q : Req) (s : State) : State :=
  reqStarts q (updHz (fun h => { h with
    reqs := updWhere (fun x => x.id == q.id) (fun x => { x with tagged := true }) h.reqs }) s)

/-! ### Translation caches (R195) -/

def xlatOf (s : State) (die : Nat) : Xlat := nmGetD s.hz.xlat die { objs := [], grans := [] }

/-- The die hub holds the granule entry. -/
def xlatHit (s : State) (die : Nat) (h : W32) (j : Nat) : Bool :=
  (xlatOf s die).grans.any (fun e => e.1 == h && e.2.1 == j)

/-- A list of at most 4 entries of a set, the least recently used giving way. -/
def lruAdd {α : Type} (inSet : α → Bool) (age : α → Nat) (same : α → Bool) (x : α) (l : List α) : List α :=
  let l := l.filter (fun y => !(same y))
  let mine := l.filter inSet
  match mine with
  | [] => l ++ [x]
  | y :: ys =>
    if mine.length < 4 then l ++ [x]
    else
      let old := ys.foldl (fun m z => if age z < age m then z else m) y
      l.eraseP (fun z => inSet z && age z == age old) ++ [x]

/-- R195: 1,024 object entries in 256 sets of 4: an object's set is its index. DESIGN CHOICE (log 88). -/
def xlatObj (die : Nat) (h : W32) (s : State) : State :=
  let x := xlatOf s die
  let set (w : W32) : Nat := w.toNat % 256
  updHz (fun z => { z with xlat := nmSet die { x with
    objs := lruAdd (fun e => set e.1 == set h) (·.2) (fun e => e.1 == h) (h, s.clk.pcc.toNat) x.objs } z.xlat }) s

/-- R195: 8,192 granule entries in 2,048 sets of 4: a granule's set is its number. DESIGN CHOICE (log 88). -/
def xlatGran (die : Nat) (h : W32) (j : Nat) (s : State) : State :=
  let x := xlatOf s die
  updHz (fun z => { z with xlat := nmSet die { x with
    grans := lruAdd (fun e => e.2.1 % 2048 == j % 2048) (·.2.2) (fun e => e.1 == h && e.2.1 == j)
      (h, j, s.clk.pcc.toNat) x.grans } z.xlat }) s

/-- A request, but for what its arrival fixes. -/
def reqNew (ctx g ser : Nat) (h : W32) (unit : Nat) (kind : ReqKind) (sv : Pool × Nat) (die : Nat) : Req :=
  { id := 0, ctx := ctx, g := g, ser := ser, handle := h, unit := unit, kind := kind, pool := sv.1, chan := sv.2,
    tagged := false, dead := false, clod := none, part := 0, die := die, since := 0, miss := false, nv := none, ans := .ok }

/-- R195: the translation of granule j of an object at a die hub: a granule entry that is missing is read from HZ1
once. -/
def translate (die : Nat) (o : Obj) (j : Nat) (s : State) : State :=
  let h := handleOf o
  let s := xlatObj die h s
  if xlatHit s die h j then xlatGran die h j s
  else if s.hz.reqs.any (fun q => q.die == die && q.handle == h && q.kind == .entry j) then s
  else
    let a := Config.tableAt h j
    enterReq (reqNew o.ctx 0xFFFFFFFF 0 h (a / 256) (.entry j) (.hz1 (a / 256 / 64 % 48), a / 256 % 64) die) s

/-- The LBAs of an HZ3 home that the bytes of a request lie in (R204). -/
def lbasOf (o : Obj) (offs : List Nat) : Option (Nat × List Nat) :=
  offs.foldl (fun r off =>
    match locOf o off with
    | .hz3 d a => (match r with | none => some (d, [a / 4096]) | some (e, l) => some (e, addOnce (a / 4096) l))
    | _ => r) none

/-- A request of die hub `die` for bytes of an object that begin at `off` and lie at `offs`. -/
def addReqAt (die ctx g ser : Nat) (o : Obj) (off : Nat) (offs : List Nat) (kind : ReqKind) (clod : Option Nat)
    (part : Nat) (s : State) : State :=
  let j := off / 65536
  let hit := xlatHit s die (handleOf o) j
  let s := translate die o j s
  let q := reqNew ctx g ser (handleOf o) ((o.base + off) / 256) kind (servedBy s o off) die
  enterReq { q with miss := !hit, nv := lbasOf o offs, clod := clod, part := part } s

/-- The byte offsets of an object that a request of a descriptor touches. -/
def kindOffs (off : Nat) : ReqKind → List Nat
  | .read ms => ms.flatMap (fun m => [m.1 / 8, (m.1 + (m.2.2 - 1)) / 8])
  | .rung _ ms => ms.flatMap (fun m => [m.1 / 8, (m.1 + (m.2.2 - 1)) / 8])
  | .write bs => bs.flatMap (fun b => [b.1 / 8, (b.1 + (b.2.1 - 1)) / 8])
  | _ => [off]

/-- A request of a grain's descriptor (R204): counted at the grain (R470). -/
def addReq (ctx g ser : Nat) (o : Obj) (off : Nat) (kind : ReqKind) (s : State) : State :=
  bump g 0x24 1 (addReqAt (dieOfPed2 (logicalPed2 g)) ctx g ser o off (kindOffs off kind) kind none 0 s)

/-! ### Serving (R191, R418) -/

/-- The place of a channel's calibration window in the period that the PCC gives. DESIGN CHOICE (log 103). -/
def windowAt : Chan → Nat
  | .hz1 _ pc => 24576 * pc
  | .hz2 n => 32768 * n

/-- The PCC lies inside the channel's window. DESIGN CHOICE (log 103). -/
def windowOpen (pcc : W64) (ch : Chan) : Bool :=
  let t := pcc.toNat % 1600000
  windowAt ch ≤ t && t < windowAt ch + 3200

/-- The gc from the PCC to the channel's next window. -/
def windowIn (pcc : W64) (ch : Chan) : Nat := (windowAt ch + 1600000 - pcc.toNat % 1600000) % 1600000

def chanOf (p : Pool) (ch : Nat) : Option Chan :=
  match p with
  | .hz1 st => some (.hz1 st ch)
  | .tdie t => if ch < 8 then some (.hz2 (t * 8 + ch)) else none
  | _ => none

/-- R191: the gc that 256 bytes take on a channel: 20 B/gc in HZ1; 32, 28 or 24 in HZ2, by its speed.
DEDUCED (log 103). -/
def transferGc (s : State) (p : Pool) : Nat :=
  match p with
  | .hz1 _ => 13
  | .tdie _ => if s.hz.speed = 3 then 8 else if s.hz.speed = 2 then 10 else 11
  | _ => 0

/-- R191: the transfer would run into the channel's next window, so the request waits until it ends. -/
def runsInto (s : State) (q : Req) : Bool :=
  match chanOf q.pool q.chan with
  | some ch => windowIn s.clk.pcc ch < transferGc s q.pool
  | none => false

/-- The request may be served: it holds its tag, its channel is outside its window and will be for the transfer, and a
drive that it waits for has answered. -/
def mayServe (s : State) (q : Req) : Bool :=
  q.tagged && !(inCalib s q.pool q.chan) && !(runsInto s q) && !(s.hz.nvme.any (fun n => q.id ∈ n.reqs))

/-- R195: a granule entry is in: what waited for it arrives now. -/
def entryServed (q : Req) (j : Nat) (s : State) : State :=
  let mine (x : Req) : Bool := x.miss && x.die == q.die && x.handle == q.handle &&
    (match objOf s q.handle with | some o => (x.unit * 256 - o.base) / 65536 == j | none => true)
  let s := xlatGran q.die q.handle j s
  (s.hz.reqs.filter mine).foldl (fun s x =>
    let x := { x with miss := false, since := s.clk.pcc }
    let s := updHz (fun h => { h with
      reqs := updWhere (fun y => y.id == x.id) (fun y => { y with miss := false, since := s.clk.pcc }) h.reqs }) s
    if !(needsTag x) || (nextWaiter s x.pool).map (·.id) == some x.id then grantReq x s else s) s

/-! ## Bursts (R52, R53) -/

/-- Burst b of a stream lies wholly inside its object or the scratchpad. -/
def burstExists (s : State) (ctx g : Nat) (st : Stream) (b : Nat) : Bool :=
  if st.handle = 0 then st.off + 256 * (b + 1) ≤ (placeOf s g).scratch
  else match ownObj s ctx st.handle with
    | some o => st.off + 256 * (b + 1) ≤ o.size
    | none => false

/-- The bytes of a burst as they stand now, and their poison. -/
def burstBytes (s : State) (ctx g : Nat) (st : Stream) (b : Nat) : List Byte × Bool :=
  if st.handle = 0 then
    let p := placeOf s g
    (lsRead s p (st.off + 256 * b) 256, lsPoisoned s p (st.off + 256 * b) 256)
  else match ownObj s ctx st.handle with
    | some o => (objRead s o (st.off + 256 * b) 256,
        (List.range 256).any (fun i => objPoison s o (st.off + 256 * b + i)))
    | none => (zeros 256, false)

/-- A burst is requested unless it is held, requested already, or beyond the end. -/
def requestBurst (g t b : Nat) (s : State) : State :=
  match nmGet s.grains g with
  | none => s
  | some gr =>
    match nmGet gr.thr t with
    | none => s
    | some th =>
      match th.stream with
      | none => s
      | some st =>
        if (nmGet th.bufs b).isSome || b ∈ th.reqd || !(burstExists s gr.ctx g st b) then s
        else
          let s := updThr g t (fun th => { th with reqd := th.reqd ++ [b] }) s
          -- R52, R63: 256 bytes of the scratchpad come in THR slots
          if st.handle = 0 then queueLanes (physId s g)
            { id := 0, ser := 0, ctx := gr.ctx, g := g, why := .burst t b, issue := s.clk.pcc, owner := 4, far := false
              view := 0xFF, all := [], ws := [], rd := (List.range 64).map (fun i => (st.off + 256 * b + 4 * i, 0, 0)) } s
          else match ownObj s gr.ctx st.handle with
            | some o => addReq gr.ctx g 0 o (st.off + 256 * b) (.burst t b) s
            | none => s

/-- The thread moves to descriptor `pos`; bursts it has left are given up. -/
def moveTo (g t pos : Nat) (s : State) : State :=
  updThr g t (fun th => { th with pos := pos, bufs := th.bufs.filter (fun e => pos / 8 ≤ e.1) }) s

/-- The thread jumps over descriptors; the bursts at its new place are requested. -/
def jumpTo (g t pos : Nat) (s : State) : State :=
  requestBurst g t (pos / 8 + 2) (requestBurst g t (pos / 8 + 1) (requestBurst g t (pos / 8) (moveTo g t pos s)))

/-! ## Samples (R477-R479) -/

/-- A grain's buffered samples go to the context's ring. -/
def flushSamples (g : Nat) (s : State) : State :=
  match nmGet s.grains g with
  | none => s
  | some gr =>
    let s := updGrain g (fun gr => { gr with samples := [] }) s
    gr.samples.foldl (fun s b =>
      match ctxOf s gr.ctx with
      | none => s
      | some c =>
        let lost := updCtx gr.ctx (fun c => { c with pmc := { c.pmc with
          smpLost := if c.pmc.smpLost = 0xFFFFFFFF then c.pmc.smpLost else c.pmc.smpLost + 1 } }) s
        let n := 64 * 2 ^ c.pmc.smpSize
        match ownObj s gr.ctx c.pmc.smpHandle with
        | none => lost
        | some _ =>
          if (c.pmc.smpHead - c.pmc.smpTail).toNat == n then lost
          else
            let s := objWriteAt c.pmc.smpHandle (32 * (c.pmc.smpHead.toNat % n)) b s
            updCtx gr.ctx (fun c => { c with pmc := { c.pmc with smpHead := c.pmc.smpHead + 1 } }) s) s

def addSample (g : Nat) (b : List Byte) (s : State) : State :=
  match nmGet s.grains g with
  | none => s
  | some gr =>
    if gr.samples.length ≥ 64 then
      updCtx gr.ctx (fun c => { c with pmc := { c.pmc with
        smpLost := if c.pmc.smpLost = 0xFFFFFFFF then c.pmc.smpLost else c.pmc.smpLost + 1 } }) s
    else
      let s := updGrain g (fun gr => { gr with samples := gr.samples ++ [b] }) s
      if 32 ≤ gr.samples.length + 1 then flushSamples g s else s

/-- R478: the 32 bytes of a sample. -/
def sampleRec (g : Nat) (o : OutD) (flags latency cause : Nat) : List Byte :=
  leBytes 8 o.issue.toNat ++ leBytes 8 (o.daddr.toNat + o.t * 2 ^ 52) ++ leBytes 1 (dOp o.desc) ++
  leBytes 1 flags ++ leBytes 4 (sat32 latency) ++ leBytes 4 (sat32 o.stalled) ++ leBytes 1 cause ++ leBytes 1 0 ++
  leBytes 4 g

/-! ## Waits before an issue -/

/-- The thread's outstanding descriptors, oldest first. -/
def outOf (gr : Grain) (t : Nat) : List OutD := gr.out.filter (fun o => o.t == t)

/-- Its next descriptor, when its burst is held. -/
def bufDesc (th : Thr) : Option (List Byte) :=
  (nmGet th.bufs (th.pos / 8)).map (fun b => slice b (32 * (th.pos % 8)) 32)

/-- The thread may go on issuing: it has a stream, has neither ended nor faulted, and is not being stopped. -/
def live (s : State) (gr : Grain) (th : Thr) : Bool :=
  th.stream.isSome && th.st != .off && th.st != .done && th.st != .fault &&
    (match segOf s gr.ctx with | some r => r.stop.isNone | none => false) && s.err.stopped.isNone

def pqPop (d : List Byte) : Bool := bitAt (dSig d) 7
def pqPopQ (d : List Byte) : Nat := bits (dSig d) 5 2
def pqPush (d : List Byte) : Bool := bitAt (dSig d) 4
def pqPushQ (d : List Byte) : Nat := bits (dSig d) 2 2

/-- R55: a FIFO in the wrong direction, or a reserved bit. -/
def pqBad (t : Nat) (d : List Byte) : Bool :=
  bits (dSig d) 0 2 ≠ 0 ||
    (pqPop d && (if t = 0 then pqPopQ d < 2 else 2 ≤ pqPopQ d)) ||
    (pqPush d && (if t = 0 then 2 ≤ pqPushQ d else pqPushQ d < 2))

/-- R179, R181: the descriptor at `pos` is one of the thread's open task, a replayed one too (R90); in SKIP only its
DMA_GETs are. -/
def inTask (th : Thr) (pos op : Nat) : Bool :=
  (th.spec == .spec || th.spec == .resolving || (th.spec == .skip && op == 0x10)) &&
    (match th.task with | some k => k.first ≤ pos && pos < k.first + k.size | none => false)

/-- The array replays or re-issues a descriptor of the thread (R90): NOTBEFORE no longer counts. -/
def isRedo (th : Thr) : Bool := th.redo != []

/-- R465, R207: the cause that holds a descriptor whose horizon requests are outstanding: one without its tag waits for
its channel's window, for a tag of the pool, or for the channel's quota; else the data or the acknowledgement is due. -/
def requestCause (s : State) (g ser due : Nat) : Nat :=
  let mine := s.hz.reqs.filter (fun q => q.g == g && q.ser == ser && !q.dead)
  match mine.find? (fun q => !q.tagged) with
  | some q =>
    if q.miss then 0x02
    else if inCalib s q.pool q.chan then 0x12
    else if poolSize q.pool ≤ (s.hz.reqs.filter (fun x => x.tagged && x.pool == q.pool && needsTag x)).length then 0x11
    else 0x10
  | none => if mine.any (fun q => runsInto s q || inCalib s q.pool q.chan) then 0x12 else due

/-- R168, R465: a hub transfer writes to the grain's store, in the DMA slots of its wheels. DEDUCED (log 36). -/
def hubWrites (s : State) (gr : Grain) : Bool :=
  match segOf s gr.ctx with
  | none => false
  | some r => (List.zip r.xfers r.d.xfers).any (fun e => e.1.started && !e.1.done && e.2.kind == 0 &&
      (match pedOf s gr.ctx e.2.ped with | .ok l => pedSetMem l (logicalId gr.ped2 gr.rank) | .error _ => false))

/-- R465, R466: the fine cause that holds an outstanding descriptor, 0 where nothing does. DEDUCED (log 36). -/
def heldBy (s : State) (gr : Grain) (o : OutD) : Nat :=
  let g := logicalId gr.ped2 gr.rank
  match o.wait with
  | .nothing =>
    if (match segOf s gr.ctx with | some r => (match progOf r gr.ped2 with | some x => x.paired | none => false) | none => false) &&
        bitAt (dSig o.desc) 4 && 16 ≤ gr.fifos.getD (bits (dSig o.desc) 2 2) 0 then 0x07
    else if (dOp o.desc = 0x01 || dOp o.desc = 0x02) && Config.starved o.ser s.clk.pcc then 0x0C
    else if ownerOf (dOp o.desc) == some 3 && hubWrites s gr then 0x0F
    else 0
  | .requests => requestCause s g o.ser (if dOp o.desc = 0x15 then 0x16 else 0x13)
  | .units => if s.fab.wreqs.any (fun w => w.g == g && w.ser == o.ser && !w.tagged && !w.dead) then 0x10 else 0x15
  | .weights _ => 0x0D
  | .barrier _ => 0x05
  | .sem _ _ _ => 0x06
  | .clod _ => 0x08
  | .gather => requestCause s g o.ser 0x16
  | .adds _ => 0x16
  | .apply => 0x16
  | .red => 0x0A
  | .fill _ => requestCause s g o.ser 0x0E
  | .resolve => 0x09
  | .ballast => 0
  | .threadEnd => 0

/-- R466: an ORD flag or an END is held by what holds the oldest other descriptor of the thread. -/
def heldOldest (s : State) (gr : Grain) (mine : List OutD) : Nat :=
  match mine.find? (fun o => dOp o.desc != 0x3F) with
  | some o => heldBy s gr o
  | none => 0

/-- R41, R466: a blocking descriptor holds the thread with its own cause, an END with that of the oldest other. -/
def blockCause (s : State) (gr : Grain) (mine : List OutD) (o : OutD) : Nat :=
  if dOp o.desc = 0x3F then heldOldest s gr mine else heldBy s gr o

/-- R466: a full window is charged to what holds its oldest descriptor, else to itself. -/
def windowCause (s : State) (gr : Grain) (mine : List OutD) : Nat :=
  match mine with
  | [] => 0x04
  | o :: _ => let c := if dOp o.desc = 0x3F then heldOldest s gr mine else heldBy s gr o; if c = 0 then 0x04 else c

/-- What holds the thread's next descriptor, but for the engine. A descriptor that the array issues again (R90) waits
neither for a blocking descriptor that follows it in the stream nor for NOTBEFORE, and an ORD flag of it only for what
precedes it. DEDUCED (log 36). -/
def waitBefore (s : State) (gr : Grain) (t : Nat) (th : Thr) (r : RunSeg) (paired : Bool) (d : List Byte) :
    Option (TSt × Nat) :=
  let mine := outOf gr t
  let before := match th.redo with | [] => mine | q :: _ => mine.filter (fun o => o.pos < q)
  match if isRedo th then none else mine.find? (fun o => blocking (dOp o.desc)) with
  | some o => some (.waitSync, blockCause s gr mine o)
  | none =>
    if 4 ≤ mine.length then some (.waitWindow, windowCause s gr mine)
    else if dOrd d && before != [] then some (.waitSync, heldOldest s gr before)
    else if !(isRedo th) && segGc s r < dNotBefore d then some (.waitTime, 0)
    else if paired && !(pqBad t d) && pqPop d && gr.fifos.getD (pqPopQ d) 0 = 0 then some (.waitSync, 0x07)
    else none

/-- A lower-numbered thread that could issue to the same engine in this gc (R40). DEDUCED (log 34). -/
def lowerReady (s : State) (gr : Grain) (t : Nat) (r : RunSeg) (paired : Bool) (e : Option Nat) : Bool :=
  (List.range t).any (fun u =>
    match nmGet gr.thr u with
    | none => false
    | some th =>
      live s gr th && (match bufDesc th with
        | none => false
        | some d => engineOf (dOp d) == e && (waitBefore s gr u th r paired d).isNone))

/-- R40: the engine took a descriptor in this gc already, or a lower thread comes first. DEDUCED (log 34). -/
def engineBusy (s : State) (gr : Grain) (t : Nat) (r : RunSeg) (paired : Bool) (e : Option Nat) : Bool :=
  nmGet gr.engGc (e.getD 0) == some s.clk.pcc || lowerReady s gr t r paired e

/-! ## Common faults (R46, R496) -/

/-- The lowest code among the conditions that hold. DEDUCED (log 34). -/
def lowest (l : List (Bool × Nat)) : Option Nat :=
  l.foldl (fun m e => if e.1 then (match m with | none => some e.2 | some x => some (min x e.2)) else m) none

/-- R54: an opcode that the paired thread may not run. -/
def pairedBad (t op : Nat) : Bool :=
  if t = 0 then !(op ∈ [0x10, 0x11, 0x12, 0x13, 0x14, 0x15, 0x20, 0x3F])
  else (0x24 ≤ op && op ≤ 0x2D) || op == 0x30

/-- R66, R496: some bank's wheel has a slot of the owner. -/
def wheelHas (ws : List W64) (owner : Nat) : Bool :=
  ws.any (fun w => (List.range 16).any (fun i => bits w.toNat (3 * i) 3 == owner))

/-- R149: opcodes that a regrow segment may not hold. -/
def regrowBad (op : Nat) : Bool := op ∈ [0x14, 0x15, 0x24, 0x18, 0x19, 0x12, 0x13]

/-- R178: opcodes that a speculative task may hold. -/
def taskOk (op : Nat) : Bool := op ∈ [0x01, 0x02, 0x03, 0x04, 0x05, 0x06, 0x08, 0x30, 0x10, 0x14, 0x3C, 0x38]

def altBad (op : Nat) : Bool := op ∈ [0x20, 0x3F, 0x2C, 0x2D]

/-- R100: shapes that must be written as MV, as a descriptor alone shows them. -/
def thinShape (op : Nat) (d : List Byte) (r : RunSeg) (p : Nat) : Bool :=
  (op == 0x01 && nvec (viewAt r p (dVA d)) == 1) || (op == 0x02 && u16 d 18 * u16 d 20 == 1) ||
    (op == 0x03 && (viewAt r p (dVD d)).sz0 == 1)

/-- The conditions of R496 that concern a descriptor at its issue. -/
def cond496 (gr : Grain) (th : Thr) (t : Nat) (r : RunSeg) (x : Prog) (d : List Byte) : Bool :=
  let op := dOp d
  (match ownerOf op with | some w => !(wheelHas x.wheels w) | none => false) ||
  (engineOf op == some 1 && (match gr.arrT with | some u => u != t | none => false)) ||
  thinShape op d r x.ped2 ||
  (r.d.regrow && regrowBad op) ||
  r.d.length ≤ dNotBefore d ||
  (op == 0x24 && r.d.length ≤ u24 d 10 + u24 d 13 + u24 d 16) ||
  (op == 0x20 && r.d.bars.length ≤ u16 d 10) ||
  (match th.task with
    | some k =>
      if th.spec == .spec || th.spec == .skip then (if k.left = 0 then op != 0x2D else !(taskOk op))
      else if th.spec == .alt then k.altLeft != 0 && altBad op
      else false
    | none => op == 0x2D) ||
  (th.guards.any (fun u => u.fetch.isNone) && (!(op ∈ [0x10, 0x13, 0x14]) || dAtom d))

/-- R496 at an issue: a descriptor that the array issues again met the conditions at its first issue (R90). -/
def breaks496 (gr : Grain) (th : Thr) (t : Nat) (r : RunSeg) (x : Prog) (d : List Byte) : Bool :=
  !(isRedo th) && cond496 gr th t r x d

/-- R44: an opcode that ATOM may stand on. -/
def atomOk (op : Nat) : Bool := op ∈ [0x10, 0x11, 0x12, 0x13, 0x14, 0x15]

/-- R51: which slots an opcode uses; `some true` used, `some false` unused, none: either. -/
def slotsOf (op : Nat) (d : List Byte) : List (Option Bool) :=
  let out : Bool := 2 ≤ bits (u8 d 12) 0 2
  let bias : Option Bool := if out then none else some false
  match op with
  | 0x01 => [some true, some false, some out, bias]
  | 0x02 => [some true, some false, some out, bias]
  | 0x03 => [some false, some false, some false, some true]
  | 0x04 => [some true, some false, some true, some true]
  | 0x05 => [some true, none, some true, some false]
  | 0x06 => [some true, some true, some true, some false]
  | 0x08 => [some false, some false, some true, some false]
  | 0x10 => [some true, some false, some true, some false]
  | 0x11 => if bitAt (u8 d 10) 0 then [none, none, none, none]
      else [some true, some false, some true, some false]
  | 0x12 => [some true, some false, some false, some false]
  | 0x13 => [some false, some false, some true, some false]
  | 0x14 => [some true, none, some true, some false]
  | 0x15 => if u8 d 10 = 0 then [some true, some true, some false, some false]
      else [some false, some false, some false, some false]
  | 0x18 => [some true, some false, some false, some false]
  | 0x19 => [some false, some false, some true, some false]
  | 0x30 => [some true, some false, some true, some false]
  | _ => [some false, some false, some false, some false]

def slotVals (d : List Byte) : List Nat := [dVA d, dVB d, dVC d, dVD d]

def slotFault (op : Nat) (d : List Byte) : Bool :=
  (List.zip (slotsOf op d) (slotVals d)).any (fun e =>
    match e.1 with
    | some u => u == (e.2 == 0xFF)
    | none => false)

/-- The views that a descriptor names. -/
def namedViews (r : RunSeg) (p : Nat) (d : List Byte) : List View :=
  ((slotVals d).filter (fun i => i != 0xFF)).map (viewAt r p)

/-- R46 codes 0x04 and 0x06 for one view: its extent, its object and its format. -/
def viewFaults (s : State) (ctx : Nat) (pl : Place) (v : View) : List (Bool × Nat) :=
  [((if isLocal v then pl.scratch < viewEnd v pl.k
     else match ownObj s ctx v.handle with
       | none => true
       | some o => o.size < viewEnd v pl.k), 0x04),
   (11 ≤ v.fmt || !(bs8Ok v), 0x06)]

/-- Faults that every opcode shares. DEDUCED (log 34). -/
def commonFaults (s : State) (gr : Grain) (th : Thr) (t : Nat) (r : RunSeg) (x : Prog) (pl : Place) (d : List Byte) :
    List (Bool × Nat) :=
  let op := dOp d
  [((engineOf op).isNone || (x.paired && pairedBad t op), 0x01),
   (bits (dFlags d) 0 5 != 0, 0x02),
   (slotFault op d, 0x03),
   (x.paired && pqBad t d, 0x09),
   (((slotVals d).zip (slotsOf op d)).any (fun e => e.1 != 0xFF && (viewAt r x.ped2 e.1).mask &&
      !(op == 0x01 && e.1 == dVA d)), 0x0A),
   (breaks496 gr th t r x d, 0x0B)] ++
  (if (engineOf op).isNone || slotFault op d then []
   else (namedViews r x.ped2 d).flatMap (viewFaults s gr.ctx pl))

/-! ## Issue -/

/-- What an opcode's own rules see. -/
structure Iss where
  g : Nat
  t : Nat
  ser : Nat
  ctx : Nat
  ped2 : Nat
  pl : Place
  r : RunSeg
  d : List Byte
  daddr : W64
  pos : Nat
  home : W32
  deriving DecidableEq, Repr

def Iss.va (i : Iss) : View := viewAt i.r i.ped2 (dVA i.d)
def Iss.vb (i : Iss) : View := viewAt i.r i.ped2 (dVB i.d)
def Iss.vc (i : Iss) : View := viewAt i.r i.ped2 (dVC i.d)
def Iss.vd (i : Iss) : View := viewAt i.r i.ped2 (dVD i.d)

/-- R465, R478: the fine cause that was charged longest since the thread's last issue, ties to the lower code. -/
def longest (m : NatMap Nat) : Nat :=
  (m.foldl (fun (b : Nat × Nat) e => if b.2 < e.2 then e else b) (0, 0)).1

/-- R477: the sampler takes this issue. -/
def sampledNow (c : Ctx) (n : Nat) : Bool :=
  c.pmc.smpEn && c.pmc.smpHandle != 0 && c.pmc.smpPeriod != 0 && n % c.pmc.smpPeriod == 0

/-- R90: with no row open, the array records a retry point ahead of its descriptor at `pos`, and keeps the points that
an outstanding descriptor may still need. `again`: the descriptor is in the log already. -/
def retryPoint (pos : Nat) (again : Bool) (gr : Grain) : Grain :=
  let open_ := gr.acc.any (fun e => e.2.open_)
  let pts := if open_ then gr.retry
    else { pos := pos, active := gr.active, shadow := gr.shadow } :: gr.retry.filter (fun p => p.pos < pos)
  let oldest := (gr.out.filter (fun o => engineOf (dOp o.desc) == some 1)).foldl (fun m o => min m o.pos) pos
  let keep := (pts.find? (fun p => p.pos ≤ oldest)).map (·.pos)
  let from_ := keep.getD 0
  { gr with
    retry := pts.filter (fun p => from_ ≤ p.pos)
    arrLog := (gr.arrLog.filter (fun e => from_ ≤ e.1)) ++ (if again then [] else [(pos, false)]) }

/-- R102: a real descriptor of the array, at which planned ballast stops. -/
def realArr (op : Nat) : Bool := engineOf op == some 1 && op != 0x3C

/-- The descriptor is issued: it joins the outstanding ones and the thread moves on (R40, R41, R52). -/
def issueDesc (i : Iss) (s : State) : State :=
  match nmGet s.grains i.g, ctxOf s i.ctx with
  | some gr, some c =>
    match nmGet gr.thr i.t with
    | none => s
    | some th =>
      let op := dOp i.d
      let paired := match progOf i.r i.ped2 with | some x => x.paired | none => false
      let pos := match th.redo with | [] => th.pos | q :: _ => q
      let again := isRedo th
      let done1 := again && gr.arrLog.any (fun e => e.1 == pos && e.2)
      let sampling := c.pmc.smpEn && c.pmc.smpHandle != 0
      let o : OutD :=
        { ser := i.ser, t := i.t, pos := pos, daddr := i.daddr, desc := i.d, issue := s.clk.pcc, wait := .nothing,
          sig := if paired || done1 then 0 else dSig i.d, stats := [], counts := Counts.none, counted := countedOp op,
          redo := again && pos ≤ th.redoTill, counted1 := done1, held := inTask th pos op, stalled := (th.charged.map (·.2)).foldl (· + ·) 0,
          cause := longest th.charged, sampled := sampling && (dMark i.d || sampledNow c (gr.issued + 1)),
          marked := dMark i.d, failed := none, checked := none, checksOk := true,
          guarded := !again && th.guards.any (fun u => u.fetch.isNone) && op ∈ [0x10, 0x13, 0x14],
          moves := [], lines := [] }
      let s := { s with nextSer := s.nextSer + 1 }
      let s := if engineOf op == some 1 then updGrain i.g (retryPoint pos again) s else s
      let s := updGrain i.g (fun gr => { gr with
        out := (if realArr op then updWhere (fun x => x.wait == .ballast) (fun x => { x with wait := .nothing }) gr.out
          else gr.out) ++ [o]
        issued := gr.issued + 1, bal := (if realArr op then none else gr.bal)
        gated := (if engineOf op == some 1 then false else gr.gated)
        arrT := (if engineOf op == some 1 then (match gr.arrT with | some u => some u | none => some i.t) else gr.arrT)
        engGc := nmSet ((engineOf op).getD 0) s.clk.pcc gr.engGc
        fifos := (if paired && pqPop i.d then gr.fifos.set (pqPopQ i.d) (gr.fifos.getD (pqPopQ i.d) 0 - 1)
                  else gr.fifos) }) s
      let s := updThr i.g i.t (fun th => { th with
        charged := [], st := if blocking op then .waitSync else .ready
        redo := th.redo.drop 1
        guards := (if again then th.guards
          else updWhere (fun u => u.fetch.isNone) (fun u => { u with fetch := some i.ser }) th.guards)
        task := (match th.task with
          | some k => some (if again then k
              else if th.spec == .spec || th.spec == .skip then { k with left := k.left - 1 }
              else if th.spec == .alt then { k with altLeft := k.altLeft - 1 } else k)
          | none => none) }) s
      let s := if again then s else moveTo i.g i.t (th.pos + 1) s
      let s := updThr i.g i.t (fun th =>
        if th.spec == .alt && (match th.task with | some k => k.altLeft == 0 | none => true) then
          { th with spec := .none, task := none } else th) s
      let s := if !again && th.pos % 8 = 0 then
          requestBurst i.g i.t (th.pos / 8 + 2) (requestBurst i.g i.t (th.pos / 8 + 1) s) else s
      let e := (engineOf op).getD 0
      let s := if o.redo then bump i.g 0x14 1 s else s
      let s := bumpT i.g (some i.t) e 0x08 1 s
      if dMark i.d then bumpT i.g (some i.t) e 0x09 1 s else s
  | _, _ => s

/-- The thread waits; its state and the cause it is charged to show why. DEDUCED (log 36). -/
def setWait (g t : Nat) (w : TSt × Nat) (s : State) : State :=
  updThr g t (fun th => { th with st := w.1, cause := w.2 }) s

/-- The descriptor that the thread would issue next: a replayed one of the array first (R90), else that of its
stream. A replayed descriptor is read from its stream again. DEDUCED (log 35). -/
def nextDesc (s : State) (g : Nat) (gr : Grain) (th : Thr) : Option (List Byte) :=
  match th.redo, th.stream with
  | q :: _, some st => some (slice (burstBytes s gr.ctx g st (q / 8)).1 (32 * (q % 8)) 32)
  | _, _ => bufDesc th

/-- R52, R195: a thread whose burst is not held waits for it, or for its translation. -/
def fetchCause (s : State) (g t : Nat) : Nat :=
  if s.hz.reqs.any (fun q => q.g == g && q.miss && (match q.kind with | .burst u _ => u == t | _ => false)) then 0x02
  else 0x01

/-- R39: the state that the table gives the thread now, and the cause that it is charged to: what holds its next
descriptor, WAIT_FETCH where its burst is not held, and READY where nothing does; WAIT_ENGINE stands while its engine is
taken. DEDUCED (log 36). -/
def heldNow (s : State) (gr : Grain) (t : Nat) (th : Thr) (r : RunSeg) (paired : Bool) (d : Option (List Byte)) :
    TSt × Nat :=
  if !(live s gr th) then (th.st, 0)
  else match d with
    | none =>
      let mine := outOf gr t
      match mine.find? (fun o => blocking (dOp o.desc)) with
      | some o => (.waitSync, blockCause s gr mine o)
      | none => if 4 ≤ mine.length then (.waitWindow, windowCause s gr mine) else (.waitFetch, fetchCause s (logicalId gr.ped2 gr.rank) t)
    | some d =>
      match waitBefore s gr t th r paired d with
      | some w => w
      | none =>
        if th.st == .waitEngine && engineBusy s gr t r paired (engineOf (dOp d)) then (.waitEngine, 0x03) else (.ready, 0)

/-- The threads of a grain with the states that the table gives them now. -/
def settled (s : State) (g : Nat) (gr : Grain) : Grain :=
  match segOf s gr.ctx with
  | none => gr
  | some r =>
    let paired := match progOf r gr.ped2 with | some x => x.paired | none => false
    { gr with thr := gr.thr.map (fun e =>
        let w := heldNow s gr e.1 e.2 r paired (nextDesc s g gr e.2)
        (e.1, { e.2 with st := w.1, cause := w.2 })) }

/-- R39: the threads of the grain enter the states that the table gives them. -/
def settle (g : Nat) (s : State) : State := updGrain g (settled s g) s

/-- A descriptor of a task that runs in SKIP is passed over (R181). DEDUCED (log 35). -/
def skipDesc (g t : Nat) (s : State) : State :=
  match nmGet s.grains g with
  | none => s
  | some gr =>
    match nmGet gr.thr t with
    | none => s
    | some th =>
      let s := updThr g t (fun th => { th with task := th.task.map (fun k => { k with left := k.left - 1 }) }) s
      let s := moveTo g t (th.pos + 1) s
      if th.pos % 8 = 0 then requestBurst g t (th.pos / 8 + 2) (requestBurst g t (th.pos / 8 + 1) s) else s

/-- A thread's turn to issue a descriptor that `pick` recognises. `faults` gives the faults of the opcode's own rules,
`act` its effect, after it has joined the outstanding descriptors. DEDUCED (log 34, 35). -/
def issueRow (pick : List Byte → Bool) (faults : State → Iss → List (Bool × Nat)) (act : Iss → State → State)
    (g t : Nat) (s : State) : State :=
  match nmGet s.grains g with
  | none => s
  | some gr =>
    match nmGet gr.thr t, segOf s gr.ctx with
    | some th, some r =>
      match progOf r gr.ped2, th.stream with
      | some x, some st =>
        if !(live s gr th) then s
        else match nextDesc s g gr th with
          | none =>
            if burstExists s gr.ctx g st (th.pos / 8) then settle g s
            else if (outOf gr t).any (fun o => blocking (dOp o.desc)) then s
            else descFault g t 0x08 s
          | some d =>
            if (engineOf (dOp d)).isSome && !(pick d) then s
            else if th.spec == .skip && !(isRedo th) && (match th.task with | some k => k.left != 0 | none => false) &&
                dOp d != 0x10 then skipDesc g t s
            else match waitBefore s gr t th r x.paired d with
              | some w => setWait g t w s
              | none =>
                let pl := placeOf s g
                let pos := match th.redo with | [] => th.pos | q :: _ => q
                let i : Iss := { g := g, t := t, ser := s.nextSer, ctx := gr.ctx, ped2 := gr.ped2, pl := pl, r := r,
                                 d := d, daddr := descAddr s gr.ctx st pos, pos := pos, home := st.home }
                let common := commonFaults s gr th t r x pl d
                let own := if (engineOf (dOp d)).isNone || slotFault (dOp d) d then [] else faults s i
                if engineBusy s gr t r x.paired (engineOf (dOp d)) then setWait g t (.waitEngine, 0x03) s
                else match lowest (common ++ own) with
                  | some code => descFault g t code s
                  | none => settle g (act i (issueDesc i s))
      | _, _ => s
    | _, _ => s

/-! ## Completion (R41) -/

/-- The home ped's semaphore that a SIG byte names receives 1, or waits in the thread's clod (R374). -/
def releaseSig (g : Nat) (o : OutD) (ctx : Nat) (home : W32) (clod : Option Nat) (s : State) : State :=
  if o.sig = 0 then s
  else match clod with
    | some key => { s with
        clods := updWhere (fun c => c.key == key) (fun c => { c with preps := c.preps ++ [(g, 0, .sem (canonPed s home) o.sig 1)] }) s.clods }
    | none => semAdd ctx (canonPed s home) o.sig 1 g s

/-- R467: a descriptor's sample, when it was taken. -/
def releaseSample (g : Nat) (o : OutD) (inTask : Bool) (s : State) : State :=
  if !o.sampled then s
  else addSample g (sampleRec g o (b2n o.marked + 2 * b2n inTask + 4 * b2n o.redo)
    ((s.clk.pcc - o.issue).toNat) o.cause) s

/-- What a completing descriptor releases at once: its figures, its record and its SIG. -/
def releaseOut (g : Nat) (o : OutD) (ctx : Nat) (home : W32) (clod : Option Nat) (s : State) : State :=
  let s := if o.counted1 then s else releaseCounts g o ctx s
  releaseSig g o ctx home clod s

/-- R102: a planned ballast begins once no real descriptor of the array and no other planned ballast stands before it:
its LEN gc count from there. -/
def nextBallast (now : W64) (gr : Grain) : Grain :=
  let planned : Bool := match gr.bal with | some (.planned _ _) => true | _ => false
  if planned || gr.out.any (fun x => realArr (dOp x.desc)) then gr
  else match gr.out.find? (fun x => x.wait == .ballast) with
    | some x => { gr with bal := some (.planned x.ser now) }
    | none => gr

/-- The descriptor is no longer outstanding; an END has ended its thread (R39, R41). -/
def retireOut (g : Nat) (o : OutD) (s : State) : State :=
  let s := updGrain g (fun gr => nextBallast s.clk.pcc { gr with
    out := (gr.out.filter (fun x => x.ser != o.ser)).map (fun x =>
      if x.wait == .weights o.ser then { x with wait := .nothing } else x)
    loading := if gr.loading == some o.ser then none else gr.loading
    bal := (match gr.bal with
      | some (.planned x st) => if x = o.ser then none else some (.planned x st)
      | b => b)
    arrLog := gr.arrLog.map (fun e => if e.1 = o.pos && engineOf (dOp o.desc) == some 1 then (e.1, true) else e) }) s
  let till := match (nmGet s.grains g).bind (fun gr => nmGet gr.thr o.t) with | some th => th.redoTill | none => 0
  let s := if o.redo && o.pos == till then updPhys (physId s g) (fun x => { x with replaying := false }) s else s
  updThr g o.t (fun th =>
    if th.st == .fault || th.st == .off then th
    else if dOp o.desc = 0x3F then { th with st := .done, cause := 0 }
    else { th with guards := th.guards.filter (fun u => u.fetch != some o.ser) }) s

/-- R102: the LEN gc of a planned ballast have run. -/
def ballastRun (now : W64) (gr : Grain) (o : OutD) : Bool :=
  o.wait == .ballast && (match gr.bal with
    | some (.planned x start) => x == o.ser && u32 o.desc 10 ≤ (now - start).toNat
    | _ => false)

/-- May descriptor `o` complete: its work is done, or its LEN gc of ballast have run (R102); the checks of its results
hold (R88, R99); END follows every earlier descriptor, those that the array has still to issue again among them (R41,
R90); and a push finds room (R55). -/
def mayComplete (now : W64) (gr : Grain) (o : OutD) (paired : Bool) : Bool :=
  (o.wait == .nothing || ballastRun now gr o) && o.checksOk &&
    (dOp o.desc != 0x3F || ((outOf gr o.t).all (fun x => x.ser == o.ser) &&
      (match nmGet gr.thr o.t with | some th => !(isRedo th) | none => true))) &&
    (!paired || !(pqPush o.desc) || gr.fifos.getD (pqPushQ o.desc) 0 < 16)

/-- R106: the pass, or other work of the array, of a descriptor is abandoned: its segment is stopped, or the package is. -/
def abandoned (s : State) (r : RunSeg) (o : OutD) : Bool :=
  (engineOf (dOp o.desc) == some 1 || dOp o.desc == 0x04) && (r.stop.isSome || s.err.stopped.isSome)

/-- An outstanding descriptor as its rules saw it at its issue. -/
def issOf (s : State) (g : Nat) (o : OutD) : Option Iss :=
  match nmGet s.grains g with
  | none => none
  | some gr =>
    match segOf s gr.ctx with
    | none => none
    | some r => some { g := g, t := o.t, ser := o.ser, ctx := gr.ctx, ped2 := gr.ped2, pl := placeOf s g, r := r,
                       d := o.desc, daddr := o.daddr, pos := o.pos,
                       home := (match (nmGet gr.thr o.t).bind (·.stream) with | some st => st.home | none => 0) }

/-- The writes of a descriptor's results wait for its slots, lane by lane, or, through the cache, for its completion (R41,
R57, R68, R88). DESIGN CHOICE (log 84). -/
def holdWrites (i : Iss) (v : View) (ws : List BitW) (s : State) : State :=
  queueLanes i.pl.q
    { id := 0, ser := i.ser, ctx := i.ctx, g := i.g, why := .desc, issue := s.clk.pcc, owner := (ownerOf (dOp i.d)).getD 0,
      far := !(isLocal v), view := dVC i.d, all := ws, ws := if isLocal v then cutLanes ws else ws, rd := [] } s

/-- Every lane of a descriptor's results is written (R41). -/
def lanesIn (s : State) (g ser : Nat) : Bool := !(lanesWait s (physId s g) (fun e => e.ser == ser && e.ws != []))

/-- The writes of an abandoned descriptor that have not reached the store are dropped (R88, R90). -/
def dropWrites (q : Nat) (sers : List Nat) (s : State) : State :=
  updPhys q (fun x => { x with pend := x.pend.filter (fun e => !(e.ser ∈ sers)) }) s

/-- R61: a completing descriptor's results are in the cache. -/
def finishWrites (g : Nat) (o : OutD) (s : State) : State :=
  match issOf s g o with
  | none => s
  | some i =>
    match (physOf s i.pl.q).pend.find? (fun e => e.ser == o.ser && e.far) with
    | none => s
    | some e => writeView g (dVC o.desc) i.pl i.vc e.ws (dropWrites i.pl.q [o.ser] s)

/-- The threads of a grain are all DONE or OFF. -/
def grainDone (gr : Grain) : Bool := gr.thr.all (fun t => t.2.st == .done || t.2.st == .off)

/-- R62, R163: the grain's last thread has ended: its cache is written back and invalidated. -/
def flushDone (g : Nat) (s : State) : State :=
  match nmGet s.grains g with
  | some gr => if grainDone gr then flushLines g 0 (placeOf s g) s else s
  | none => s

/-- DESCRIPTOR_COMPLETE: the descriptor of serial `ser` completes. -/
def doDescriptorComplete (g ser : Nat) (s : State) : State :=
  match nmGet s.grains g with
  | none => s
  | some gr =>
    match gr.out.find? (fun o => o.ser == ser) with
    | none => s
    | some o =>
      match nmGet gr.thr o.t, segOf s gr.ctx with
      | some th, some r =>
        let paired := match progOf r gr.ped2 with | some x => x.paired | none => false
        if !(mayComplete s.clk.pcc gr o paired) || !(lanesIn s g ser) || abandoned s r o then settle g s
        else
          let home := match th.stream with | some st => st.home | none => 0
          let s := finishWrites g o s
          let s := releaseSample g o (o.held || th.spec == .skip) s
          let s := if o.held then updThr g o.t (fun th => { th with heldSig := th.heldSig ++ [o] }) s
            else releaseOut g o gr.ctx home th.clod s
          let s := if paired && pqPush o.desc then
              updGrain g (fun gr => { gr with
                fifos := gr.fifos.set (pqPushQ o.desc) ((gr.fifos.getD (pqPushQ o.desc) 0) + 1) }) s
            else s
          let s := retireOut g o s
          settle g (if dOp o.desc = 0x3F then flushDone g s else s)
      | _, _ => s

/-- A descriptor with no effect completes in its issue gc, and nothing of it is counted (R101, R127, R144). -/
def noEffect (i : Iss) (s : State) : State :=
  doDescriptorComplete i.g i.ser (updOut i.g i.ser (fun o => { o with counted := false }) s)

/-- Some work of an issued descriptor has ended: nothing more holds it. -/
def workDone (g ser : Nat) (s : State) : State := updOut g ser (fun o => { o with wait := .nothing }) s

def setWaitFor (i : Iss) (w : OWait) (s : State) : State := updOut i.g i.ser (fun o => { o with wait := w }) s

/-- The figures that a descriptor's work gave. -/
def setCounts (i : Iss) (c : Counts) (sts : List StatFig) (s : State) : State :=
  updOut i.g i.ser (fun o => { o with counts := c, stats := sts }) s

/-- Views of the engines that take cached far views (R50): HANDLE 0, or HANDLE ≠ 0 with CACHE. -/
def placedCached (v : View) : Bool := isLocal v || v.cache

/-- R196: a destination in a read-only object. -/
def rdonlyDest (s : State) (ctx : Nat) (v : View) : Bool :=
  !(isLocal v) && (match ownObj s ctx v.handle with | some o => o.rdonly | none => false)

/-- The byte address of the first poisoned element of a view. -/
def firstPoison (byteAt : Nat → Byte × Bool) (v : View) (k : Nat) : Option Nat :=
  (List.range (nelem v)).findSome? (fun n =>
    let b := linBit v k n
    let bad := if v.fmt = 10 then (blockAt byteAt (b / 8)).2 else (elemCode byteAt v b).2
    if bad then some (if v.fmt = 10 then 33 * (b / 8 / 32) else b / 8) else none)

/-- R378: a descriptor that has read a poisoned element of a view consumes it: one record for each view. -/
def consumeView (i : Iss) (byteAt : Nat → Byte × Bool) (v : View) (s : State) : State :=
  match firstPoison byteAt v i.pl.k with
  | none => s
  | some a =>
    let o := ownObj s i.ctx v.handle
    let hzn := match o with | some o => (granOf o (a / 65536)).hzn | none => 0
    let base := match o with | some o => o.base | none => 0
    consumePoison i.ctx i.g hzn 0 v.handle (base + a) i.daddr s

/-- R179: bytes [a, b) of a scratchpad write of a task lie in its staging range. -/
def outsideStage (s : State) (i : Iss) (v : View) : Bool :=
  match (nmGet s.grains i.g).bind (fun gr => nmGet gr.thr i.t) with
  | none => false
  | some th =>
    match th.task with
    | none => false
    | some k => inTask th i.pos (dOp i.d) && !(isEmpty v) &&
        (!(isLocal v) || lo v < k.stage || k.stage + k.stageLen < viewEnd v i.pl.k)
where
  lo (v : View) : Nat :=
    let b := elemBit v i.pl.k 0 0 0 0
    if v.fmt = 10 then 33 * (b / 8 / 32) else b / 8

end Sys2Proof.Machine
end

