-- ==== Sys2Proof/Machine/Retire.lean ====
section
/-! DEFINITION. Strikes and the retirement of grains: R91, R371, R372, the maps of R26-R28, and what the field part
learns (R412). -/

namespace Sys2Proof.Machine

open Sys2Proof

/-- Bit x of a ped-2's map, set or cleared. -/
def mapSet (x : Nat) (v : Bool) (m : BitVec 256) : BitVec 256 :=
  if v then m ||| BitVec.ofNat 256 (2 ^ x) else m &&& ~~~(BitVec.ofNat 256 (2 ^ x))

/-- R412: the field part learns a failed grain. -/
def learnFailed (q : Nat) (s : State) : State :=
  { s with boot := { s.boot with
      field := { s.boot.field with failed := nmUpdD (q / 256) 0 (mapSet (q % 256) true) s.boot.field.failed }
      recPending := true } }

/-- R412: the field part learns a retired ped-2. -/
def learnPed2 (p : Nat) (s : State) : State :=
  { s with boot := { s.boot with
      field := { s.boot.field with retired := addOnce p s.boot.field.retired }, recPending := true } }

/-- R412: the field part learns a retired frame. -/
def learnFrame (hzn ch f : Nat) (s : State) : State :=
  { s with boot := { s.boot with
      field := { s.boot.field with frames := addOnce (hzn, ch, f) s.boot.field.frames }, recPending := true } }

/-- The lowest-numbered spare of ped-2 p that is not among `failed`, as a physical linear id. -/
def nextSpare (s : State) (p : Nat) (failed : List Nat) : Option Nat :=
  ((List.range 256).find? (fun x => (nmGetD s.emap.spare p 0).getLsbD x && !(p * 256 + x ∈ failed))).map
    (fun x => p * 256 + x)

/-- Read from the spec by inference: DEDUCED (log 87). -/
def retiredRec (c : SpareCheck) (old : Nat) (new cause : Nat) (s : State) : State :=
  postRec 0x05 2 none (dieOfPed2 (logicalPed2 c.lg)) c.lg [(0, 4, old), (4, 4, new), (8, 1, cause)] s

/-- A ped-2 goes out of service (R22): none of its grains is enabled, it is leased to nobody from then on, and the
package reports DEGRADED (R22, R372, R420). -/
def retirePed2 (p cause : Nat) (bad : List Nat) (s : State) : State :=
  let good := bad.foldl (fun m q => mapSet (q % 256) false m)
    (nmGetD s.emap.enabled p 0 ||| nmGetD s.emap.spare p 0)
  let s := { s with emap := { s.emap with
      enabled := nmSet p 0 s.emap.enabled, spare := nmSet p good s.emap.spare
      retired := addOnce p s.emap.retired, gen := s.emap.gen + 1 } }
  let s := updPed2 p (fun d => { d with checks := [] }) s
  reportDegraded
    (postRec 0x06 2 none (dieOfPed2 p) 0xFFFFFFFF [(0, 2, p), (2, 1, cause), (4, 2, popCount good)] (learnPed2 p s))

/-- R371: the checks of one retirement have ended with spare q, and the map changes in one step. DEDUCED (log 84). -/
def mapSpare (p : Nat) (c : SpareCheck) (q : Nat) (s : State) : State :=
  let pos := logicalPed2 c.lg * 256 + (coldPos s (logicalPed2 c.lg) (logicalRank c.lg)).getD 0
  let dead := c.old :: c.failed
  let en := mapSet (q % 256) true (mapSet (c.old % 256) false (nmGetD s.emap.enabled p 0))
  let sp := mapSet (q % 256) false (c.failed.foldl (fun m x => mapSet (x % 256) false m) (nmGetD s.emap.spare p 0))
  let s := { s with emap := { s.emap with
      enabled := nmSet p en s.emap.enabled, spare := nmSet p sp s.emap.spare
      subst := (pos, q) :: s.emap.subst.filter (fun e => e.1 != pos), gen := s.emap.gen + 1 } }
  let s := dead.foldl (fun s x => learnFailed x s) s
  let s := retiredRec c c.old q c.cause s
  c.failed.foldl (fun s x => retiredRec c x q 1 s) s

/-- R372, R417: no spare is left for the retirements of `cs`: the ped-2 goes out of service. DEDUCED (log 32). -/
def noSpare (p : Nat) (cs : List SpareCheck) (s : State) : State :=
  let dead := cs.flatMap (fun c => c.old :: c.failed)
  let s := dead.foldl (fun s x => learnFailed x s) s
  let s := cs.foldl (fun s c =>
    c.failed.foldl (fun s x => retiredRec c x 0xFFFFFFFF 1 s) (retiredRec c c.old 0xFFFFFFFF c.cause s)) s
  retirePed2 p (if cs.any (fun c => c.cause == 2) then 3 else 1) dead s

/-- R22, R27: a grain of a ped-2 that is out of service fails: no spare takes its id, and the map shows it as failed. -/
def failOut (p : Nat) (c : SpareCheck) (s : State) : State :=
  retiredRec c c.old 0xFFFFFFFF c.cause (learnFailed c.old { s with emap := { s.emap with
    spare := nmUpd p (mapSet (c.old % 256) false) s.emap.spare, gen := s.emap.gen + 1 } })

/-- R26, R371: the grains of ped-2 p that hold the logical ids `lgs` are retired together; the check of the first spare
begins, or waits for the checks of the ped-2 that run already. Without a spare the ped-2 goes out of service with all of
them failed. -/
def retireGrains (p : Nat) (lgs : List Nat) (cause : Nat) (s : State) : State :=
  let cs := (lgs.filter (fun lg => !((ped2Of s p).checks.any (fun x => x.lg == lg)))).map (fun lg =>
    ({ lg := lg, old := physId s lg, failed := [], cause := cause } : SpareCheck))
  if cs = [] then s
  else if !(ped2InService s p) then cs.foldl (fun s c => failOut p c s) s
  else match nextSpare s p [] with
    | some _ => updPed2 p (fun d => { d with checks := d.checks ++ cs }) s
    | none => noSpare p ((ped2Of s p).checks ++ cs) s

def retireGrain (lg cause : Nat) (s : State) : State := retireGrains (logicalPed2 lg) [lg] cause s

/-- R91: does this fault retire the grain: it replays already, or its last strike lies within 2^30 gc. -/
def secondStrike (s : State) (g : Nat) : Bool :=
  let x := physOf s (physId s g)
  x.replaying || (match x.lastStrike with | some w => (s.clk.pcc - w).toNat ≤ 2 ^ 30 | none => false)

/-- R91, R372, R381: a strike; a second one retires the grain and ends the context's segment with STEP_LOST. -/
def takeStrike (g : Nat) (s : State) : State :=
  let second := secondStrike s g
  let s := updPhys (physId s g) (fun x => { x with lastStrike := some s.clk.pcc, strikes := x.strikes + 1 }) s
  let s := { s with err := { s.err with cAf := s.err.cAf + 1 } }
  if !second then s
  else match nmGet s.grains g with
    | none => retireGrain g 0 s
    | some gr =>
      let p := logicalPed2 g
      let filling := match ctxOf s gr.ctx with | some c => decide (p ∈ c.sec.fill) | none => false
      let s := updCtx gr.ctx (fun c => { c with sec := { c.sec with fill := addOnce p c.sec.fill } }) s
      stopSeg gr.ctx .gridRetired stSTEP_LOST (retireGrain g (if filling then 3 else 0) (abortClods g stSTEP_LOST 0 s))

/-- SPARE_CHECK_DONE (R371): the spare under check passes and takes the logical id, or fails and the next is tried. -/
def doSpareCheckDone (p : Nat) (ok : Bool) (s : State) : State :=
  match (ped2Of s p).checks with
  | [] => s
  | c :: rest =>
    match nextSpare s p c.failed with
    | none => noSpare p (c :: rest) s
    | some q =>
      let s :=
        if ok then updPed2 p (fun d => { d with checks := rest }) (mapSpare p c q s)
        else updPed2 p (fun d => { d with checks := { c with failed := c.failed ++ [q] } :: rest }) s
      match (ped2Of s p).checks with
      | [] => s
      | c :: rest => match nextSpare s p c.failed with
        | some _ => s
        | none => noSpare p (c :: rest) s

end Sys2Proof.Machine
end

