-- ==== Sys2Proof/Machine/Array.lean ====
section
/-! DEFINITION. The matrix array and the matrix-vector path (chapter 03), with the masks of R140-R144. -/

namespace Sys2Proof.Machine

open Sys2Proof

/-! ## Formats (R75, R98) -/

/-- Elements of a dense vector, for the formats the array takes. -/
def epv (f : Nat) : Option Nat :=
  if f = 7 then some 16 else if f ∈ [1, 2, 3, 4, 5, 6, 8] then some 8 else none

def fp86 (f : Nat) : Bool := f == 3 || f == 4 || f == 5 || f == 6

def arrPair (a w : Nat) : Bool := (fp86 a && fp86 w) || (a == w && (a == 7 || a == 8 || a == 1 || a == 2))

def mvPair (a w : Nat) : Bool :=
  ((a == 3 || a == 4) && (w == 3 || w == 4)) || (a == w && (a == 8 || a == 1 || a == 2))

/-- R79: formats of VC. -/
def outFmt (f : Nat) : Bool := f ≤ 6 || f == 8

def biasFmt (f : Nat) : Bool := f ≤ 2

/-! ## Parameters (R80, R92) -/

structure PassPar where
  abase : Nat
  mode : Nat
  neww : Bool
  skipz : Bool
  deriving DecidableEq, Repr

def passPar (d : List Byte) : PassPar :=
  { abase := bits (u16 d 10) 0 9, mode := bits (u8 d 12) 0 2, neww := bitAt (u8 d 12) 2, skipz := bitAt (u8 d 12) 3 }

/-- R80, R92: a reserved bit that is set, or a value out of its range. -/
def passParBad (d : List Byte) : Bool :=
  bits (u16 d 10) 9 7 != 0 || bits (u8 d 12) 4 4 != 0 ||
  (if dOp d = 1 then !(tailZero d 13)
   else
    let rng (x lo hi : Nat) : Bool := x < lo || hi < x
    u8 d 13 != 0 || !(tailZero d 28) || rng (u16 d 18) 1 4096 || rng (u16 d 20) 1 4096 || 15 < u8 d 22 ||
      15 < u8 d 23 || rng (bits (u8 d 24) 0 4) 1 8 || rng (bits (u8 d 24) 4 4) 1 8 || rng (bits (u8 d 25) 0 4) 1 8 ||
      rng (bits (u8 d 25) 4 4) 1 8 || 15 < u8 d 26 || 15 < u8 d 27)

/-- Vectors of the pass, masked ones included. -/
def passM (va : View) (d : List Byte) : Nat := if dOp d = 1 then nvec va else u16 d 18 * u16 d 20

/-- R101: M = 0. -/
def passEmpty (va : View) (d : List Byte) : Bool :=
  va.sz1 == 0 || va.sz2 == 0 || va.sz3 == 0 || passM va d == 0

/-! ## Masks (R141, R142) -/

def maskOf (r : RunSeg) (p : Nat) (v : View) : Option MaskEnt :=
  (progOf r p).bind (fun x => (x.masks.getD v.masksel none))

/-- The bit of the mask that vector i reads. -/
def maskBit (m : MaskEnt) (v : View) (k i : Nat) : Nat :=
  let lin := i + (if v.gix then k * v.sz1 * v.sz2 else 0)
  if m.block then (m.rbase + lin) / 64 else m.rbase + lin

def maskOn (m : MaskEnt) (b : Nat) : Bool := bitAt (m.bits.getD (b / 8) 0).toNat (b % 8)

def isMasked (i : Iss) : Bool := dOp i.d == 1 && i.va.mask

/-- The vectors that the pass streams, in order. -/
def streamed (i : Iss) : List Nat :=
  let all := List.range (passM i.va i.d)
  if isMasked i then
    match maskOf i.r i.ped2 i.va with
    | some m => all.filter (fun v => maskOn m (maskBit m i.va i.pl.k v))
    | none => []
  else all

/-- R142: the mask has no bit for the first or the last vector. -/
def maskBad (i : Iss) : Bool :=
  isMasked i && (match maskOf i.r i.ped2 i.va with
    | some m => m.nbits ≤ maskBit m i.va i.pl.k 0 || m.nbits ≤ maskBit m i.va i.pl.k (passM i.va i.d - 1)
    | none => true)

/-! ## Weights and rows -/

/-- The weights that the pass computes with. -/
def passWts (gr : Grain) (p : PassPar) : Option Wts := if p.neww then gr.shadow else gr.active

def accRow (gr : Grain) (r : Nat) : AccRow :=
  nmGetD gr.acc r { vals := List.replicate 8 0, open_ := false, tagA := 0, tagW := 0, poison := false }

/-- R78: the row is as the mode needs it. -/
def rowOk (gr : Grain) (mode tagA tagW r : Nat) : Bool :=
  let x := accRow gr r
  if mode = 1 || mode = 2 then x.open_ && x.tagA == tagA && x.tagW == tagW else !x.open_

/-- Some row would stay open after the pass (R89). -/
def leavesOpen (gr : Grain) (p : PassPar) (vs : List Nat) : Bool :=
  let rows := vs.map (fun v => (p.abase + v) % 512)
  gr.acc.any (fun e => e.2.open_ && !(2 ≤ p.mode && e.1 ∈ rows)) || (p.mode < 2 && rows != [])

/-! ## The faults of a pass -/

def notLocal (l : List (Nat × View)) : Bool := l.any (fun e => e.1 != 0xFF && !(isLocal e.2))

/-- The faults of ARR_PASS. A VA whose SIZE0 differs from the K_t of the block that the pass uses raises none: the pass runs
over VA's SIZE0, and weights beyond the block are zero; the spec does not say. DESIGN CHOICE (log 121). -/
def passFaults (s : State) (i : Iss) : List (Bool × Nat) :=
  let p := passPar i.d
  let va := i.va
  let out := 2 ≤ p.mode
  let bias := out && dVD i.d != 0xFF
  let st : List (Bool × Nat) :=
    [(notLocal [(dVA i.d, va), (dVC i.d, i.vc), (dVD i.d, i.vd)] || (out && outsideStage s i i.vc), 0x05),
     ((epv va.fmt).isNone || (out && !(outFmt i.vc.fmt)) || (bias && !(biasFmt i.vd.fmt)), 0x06),
     (passParBad i.d || 4096 < passM va i.d, 0x0A)]
  if passEmpty va i.d then st
  else match nmGet s.grains i.g with
    | none => st
    | some gr =>
      match passWts gr p with
      | none => st ++ [(true, 0x0A)]
      | some w =>
        let vs := streamed i
        let m := passM va i.d
        st ++
        [(!(arrPair va.fmt w.fmt), 0x06),
         ((epv va.fmt).getD 0 * (if w.sp24 then 2 else 1) < va.sz0, 0x0A),
         (out && (i.vc.sz0 != w.nt || nvec i.vc != m), 0x0A),
         (bias && i.vd.sz0 != w.nt, 0x0A),
         (p.mode < 3 && 512 < p.abase + m, 0x0A),
         (maskBad i, 0x0A),
         (vs != [] && vs.any (fun v => !(rowOk gr p.mode va.scale w.scale ((p.abase + v) % 512))), 0x0A),
         (vs != [] && !(match progOf i.r i.ped2 with | some x => x.paired | none => false) && dSig i.d != 0 &&
            leavesOpen gr p vs, 0x0A)]

/-! ## The products -/

/-- The code that stands for a weight a 2:4 block does not keep (R94). -/
def notKept : Nat := 65536

/-- The weights as a pass reads them; each is counted once for the pass (R113). -/
def readWts (ftz : Bool) (w : Wts) (c : Counts) : List (List (Option FVal)) × Counts :=
  w.w.foldl (fun (a : List (List (Option FVal)) × Counts) row =>
    let r := row.foldl (fun (b : List (Option FVal) × Counts) code =>
      if code = notKept then (b.1 ++ [none], b.2)
      else let x := readElem ftz w.fmt code b.2; (b.1 ++ [some x.1], x.2)) ([], a.2)
    (a.1 ++ [r.1], r.2)) ([], c)

def nonFinite : FVal → Bool
  | .num _ _ => false
  | _ => true

/-- R93: the coordinates of the map that vector v of a convolution reads. -/
def convAt (d : List Byte) (v : Nat) : Int × Int :=
  let owt := max (u16 d 20) 1
  let y := v / owt
  let x := v % owt
  (((u16 d 14 + y) * bits (u8 d 24) 0 4 + u8 d 22 * bits (u8 d 25) 0 4 : Nat) - (u8 d 26 : Nat),
   ((u16 d 16 + x) * bits (u8 d 24) 4 4 + u8 d 23 * bits (u8 d 25) 4 4 : Nat) - (u8 d 27 : Nat))

/-- Where the elements of vector v begin: i1, i2, i3; none for a vector of padding. -/
def vecAt (va : View) (d : List Byte) (v : Nat) : Option (Nat × Nat × Nat) :=
  if dOp d = 1 then some (v % max va.sz1 1, v / max va.sz1 1 % max va.sz2 1, v / max (va.sz1 * va.sz2) 1)
  else
    let c := convAt d v
    if 0 ≤ c.1 && c.1 < va.sz2 && 0 ≤ c.2 && c.2 < va.sz1 then some (c.2.toNat, c.1.toNat, 0) else none

/-- The element codes of vector v, each with its poison. -/
def vecCodes (s : State) (i : Iss) (v : Nat) : List (Nat × Bool) :=
  let va := i.va
  let byteAt := viewBytes s i.pl [] va
  match vecAt va i.d v with
  | some (a, b, c) => (List.range va.sz0).map (fun k => elemCode byteAt va (elemBit va i.pl.k k a b c))
  | none => (List.range va.sz0).map (fun _ => (0, false))

/-- The weight of row k, column n in the dense block: none where a 2:4 block keeps nothing (R94), zero beyond it (R76). -/
def wtAt (w : List (List (Option FVal))) (k n : Nat) : Option FVal :=
  match w[k]? with
  | some row => row.getD n (some FVal.zero)
  | none => some FVal.zero

/-- The products of column n of vector v, each with its reduction index k. DEDUCED (log 83). -/
def colProds (v n : Nat) (xs : List FVal) (w : List (List (Option FVal))) (c : Counts) :
    List (Nat × FVal) × Counts :=
  (List.range xs.length).foldl (fun (a : List (Nat × FVal) × Counts) k =>
    match wtAt w k n with
    | none => a
    | some y => let r := fmul (v, n, k) (xs.getD k FVal.zero) y a.2; (a.1 ++ [(k, r.1)], r.2)) ([], c)

/-! ## The checksums (R86, R87, R95) -/

def sumRat (l : List Rat) : Rat := l.foldl (· + ·) 0

/-- The number that a weight stands for in the dense block that the checksum column and row use (R95). -/
def wtNum (w : List (List (Option FVal))) (k n : Nat) : Rat :=
  match wtAt w k n with
  | some y => y.signed
  | none => 0

/-- c_k, the checksum column of a weight block: the sum of its row k over nt columns. -/
def sumCol (w : List (List (Option FVal))) (nt k : Nat) : Rat := sumRat ((List.range nt).map (wtNum w k))

/-- C_i, the checksum of a vector's products. -/
def checkSum (w : List (List (Option FVal))) (nt : Nat) (xs : List FVal) : Rat :=
  sumRat ((List.range xs.length).map (fun k => (xs.getD k FVal.zero).signed * sumCol w nt k))

/-- What the checksum row and column hold while a pass streams: the vectors taken in, σ_k, T_n, the largest product, and
whether every vector check has held. -/
structure PassChk where
  vecs : List Nat
  sig : List Rat
  tot : List Rat
  big : Rat
  ok : Bool
  deriving DecidableEq, Repr

def PassChk.start : PassChk := { vecs := [], sig := [], tot := [], big := 0, ok := true }

/-- R87: equal, or for BF16 and FP16 within 2^(E - d), E the exponent of the largest product. -/
def agree (f : Nat) (big : Rat) (d : Int) (x y : Rat) : Bool :=
  if (f = 1 || f = 2) && big != 0 then decide ((if x < y then y - x else x - y) ≤ pow2 (floorLog2 big - d)) else x == y

/-- The sum of two lists of numbers, the shorter filled with zeros. -/
def addRats : List Rat → List Rat → List Rat
  | [], l => l
  | l, [] => l
  | x :: r, y :: q => (x + y) :: addRats r q

/-- One vector in the checksums: its sums S before the prior row is added, against C (R86). A vector that holds a NaN or
an infinity is left out (R87). -/
def chkVec (f : Nat) (w : List (List (Option FVal))) (nt : Nat) (xs : List FVal) (v : Nat) (a : PassChk) : PassChk :=
  if xs.any (fun x => x == .nan || x.isInf) then a
  else
    let ps := (List.range nt).map (fun n => ((colProds v n xs w Counts.none).1.map (·.2)))
    let ss := ps.map (fun l => ratSum (windowed f l))
    let big := (ps.flatMap id).foldl (fun m x => match x with | .num _ q => max m q | _ => m) 0
    { vecs := a.vecs ++ [v], sig := addRats a.sig (xs.map FVal.signed), tot := addRats a.tot ss, big := max a.big big
      ok := a.ok && agree f big 40 (sumRat ss) (checkSum w nt xs) }

/-- The pass check: T_n against R_n for each column, and their sum against that of σ_k × c_k (R86). -/
def chkPass (f : Nat) (w : List (List (Option FVal))) (nt : Nat) (a : PassChk) : Bool :=
  let r (n : Nat) : Rat := sumRat ((List.range a.sig.length).map (fun k => a.sig.getD k 0 * wtNum w k n))
  (List.range nt).all (fun n => agree f a.big 30 (a.tot.getD n 0) (r n)) &&
    agree f a.big 30 (sumRat a.tot) (sumRat ((List.range a.sig.length).map (fun k => a.sig.getD k 0 * sumCol w nt k)))

/-- The running result of a pass. -/
structure PassAcc where
  acc : NatMap AccRow
  ws : List BitW
  counts : Counts
  stat : StatFig
  chk : PassChk
  unchecked : Nat
  zeroVecs : List Bool
  deriving DecidableEq, Repr

/-- What a pass computes with, the same for every vector. -/
structure PassCtx where
  ftz : Bool
  p : FVal
  sc : FVal
  bias : Option (List (FVal × Bool))
  w : Wts
  wv : List (List (Option FVal))
  deriving DecidableEq, Repr

/-- One column of one vector, from S's products: the row's new value, and the write to VC (R78, R79). R129 gives k as a
reduction index; for an invalid operation that comes after the sum (the product with p, the bias) it gives none, and the
model takes 0. DEDUCED (log 83); k after the sum: DESIGN CHOICE (log 108). -/
def passCol (i : Iss) (pp : PassPar) (x : PassCtx) (v n : Nat) (row : AccRow) (bad : Bool) (ps : List (Nat × FVal))
    (a : List W32 × List BitW × Counts × StatFig) : List W32 × List BitW × Counts × StatFig :=
  let old : FVal := if pp.mode = 1 || pp.mode = 2 then f32 (row.vals.getD n 0) else FVal.zero
  let s := exactSum (fun j => (v, n, (ps.getD j (0, FVal.zero)).1)) old (windowed i.va.fmt (ps.map (·.2))) a.2.2.1
  let t := rne32 x.ftz s.1 s.2
  if pp.mode < 2 then (a.1 ++ [w32 t.1], a.2.1, t.2, a.2.2.2)
  else
    let m := fmul (v, n, 0) t.1 x.p t.2
    let u := rne32 x.ftz m.1 m.2
    let (u, b) := match x.bias with
      | some l =>
        let e := l.getD n (FVal.zero, false)
        let y := fadd (v, n, 0) u.1 e.1 u.2
        (rne32 x.ftz y.1 y.2, e.2)
      | none => (u, false)
    let q := quantise x.ftz i.vc.fmt x.sc u.1 u.2 a.2.2.2
    (a.1 ++ [0], a.2.1 ++ [(linBit i.vc i.pl.k (v * x.w.nt + n), fmtW i.vc.fmt, q.1, bad || b)], q.2.1, q.2.2)

/-- One vector of a pass. -/
def passVec (s : State) (i : Iss) (pp : PassPar) (x : PassCtx) (a : PassAcc) (v : Nat) : PassAcc :=
  let k0 := i.va.sz0 = 0
  let codes := vecCodes s i v
  let xs := codes.foldl (fun (b : List FVal × Counts) e =>
    let r := readElem x.ftz i.va.fmt e.1 b.2; (b.1 ++ [r.1], r.2)) ([], a.counts)
  let r := (pp.abase + v) % 512
  let row := nmGetD a.acc r { vals := List.replicate 8 0, open_ := false, tagA := 0, tagW := 0, poison := false }
  let bad := codes.any (·.2) || (!k0 && x.w.poison) || ((pp.mode = 1 || pp.mode = 2) && row.poison)
  let cols := (List.range x.w.nt).foldl (fun b n =>
    let ps := colProds v n xs.1 x.wv b.2.2.1
    passCol i pp x v n row bad ps.1 (b.1, b.2.1, ps.2, b.2.2.2)) ([], a.ws, xs.2, a.stat)
  let new : AccRow :=
    if 2 ≤ pp.mode then
      { vals := List.replicate x.w.nt 0 ++ row.vals.drop x.w.nt, open_ := false, tagA := 0, tagW := 0, poison := false }
    else if k0 && pp.mode = 1 then row
    else { vals := cols.1 ++ row.vals.drop x.w.nt, open_ := true, tagA := i.va.scale, tagW := x.w.scale,
           poison := bad }
  { acc := nmSet r new a.acc, ws := cols.2.1, counts := cols.2.2.1, stat := cols.2.2.2
    chk := chkVec i.va.fmt x.wv x.w.nt xs.1 v a.chk
    unchecked := a.unchecked + b2n (xs.1.any nonFinite)
    zeroVecs := a.zeroVecs ++ [xs.1.all FVal.isZero] }

/-- R96: blocks of 8 streamed vectors that are all zero. -/
def zeroBlocks : List Bool → Nat
  | a :: b :: c :: d :: e :: f :: g :: h :: r => b2n (a && b && c && d && e && f && g && h) + zeroBlocks r
  | _ => 0

/-- The bias of an EMIT pass, rounded once for the pass. -/
def passBias (s : State) (i : Iss) (ftz : Bool) (nt : Nat) (c : Counts) : List (FVal × Bool) × Counts :=
  let byteAt := viewBytes s i.pl [] i.vd
  let sv := ctxScale s i.ctx i.vd.scale
  (List.range nt).foldl (fun (a : List (FVal × Bool) × Counts) n =>
    let e := elemCode byteAt i.vd (elemBit i.vd i.pl.k n 0 0 0)
    let x := readElem ftz i.vd.fmt e.1 a.2
    let y := fmul (0, n, 0) x.1 sv x.2
    let r := rne32 ftz y.1 y.2
    (a.1 ++ [(r.1, e.2)], r.2)) ([], c)

/-- The poison that a pass reads is consumed (R378). -/
def passPoison (i : Iss) (s0 : State) (vs : List Nat) (bias : Bool) (s : State) : State :=
  let s := if vs.any (fun v => (vecCodes s0 i v).any (·.2)) then consumeView i (viewBytes s0 i.pl [] i.va) i.va s else s
  if bias then consumeView i (viewBytes s0 i.pl [] i.vd) i.vd s else s

/-- A pass with vectors to stream (R74-R96). With K = 0 no pass runs (R101): under NEWW = 1 the pass still asks for
weights, whose columns and scale its results need, and leaves the shadow untaken, on which the spec is silent.
How many of the all-zero blocks are skipped depends on how far the input stage has read ahead (R96): a free choice, up
to all. DEDUCED (log 83); the shadow at K = 0 and the blocks skipped: DESIGN CHOICE (log 108). -/
def passRun (i : Iss) (pp : PassPar) (w : Wts) (vs : List Nat) (s : State) : State :=
  match nmGet s.grains i.g with
  | none => s
  | some gr =>
    let ftz := ctxFtz s i.ctx
    let k0 := i.va.sz0 = 0
    let out := 2 ≤ pp.mode
    let useBias := out && dVD i.d != 0xFF
    let wr := if k0 then ([], Counts.none) else readWts ftz w Counts.none
    let p := if out then
        (let m := fmul (0, 0, 0) (ctxScale s i.ctx i.va.scale) (ctxScale s i.ctx w.scale) wr.2; rne32 ftz m.1 m.2)
      else (FVal.zero, wr.2)
    let bs := if useBias then (let b := passBias s i ftz w.nt p.2; (some b.1, b.2)) else (none, p.2)
    let x : PassCtx := { ftz := ftz, p := p.1, sc := ctxScale s i.ctx i.vc.scale, bias := bs.1, w := w, wv := wr.1 }
    let a := vs.foldl (passVec s i pp x)
      { acc := gr.acc, ws := [], counts := bs.2, stat := StatFig.zero i.vc.scale, chk := PassChk.start, unchecked := 0, zeroVecs := [] }
    let wBad := wr.1.any (fun row => row.any (fun e => match e with | some y => nonFinite y | none => false))
    let s1 := updGrain i.g (fun gr => { gr with
      acc := a.acc.filter (fun e => e.2.open_ || e.2.vals.any (· != 0))
      active := if pp.neww && !k0 then gr.shadow else gr.active
      shadow := if pp.neww && !k0 then none else gr.shadow }) s
    let s1 := passPoison i s vs useBias s1
    let s1 := if out then holdWrites i i.vc a.ws s1 else s1
    let s1 := setCounts i a.counts (if out then [a.stat] else []) s1
    let s1 := if k0 then bump i.g 0x11 1 s1 else s1
    let s1 := if k0 then s1 else bump i.g 0x13 (if wBad then 1 else a.unchecked) s1
    let s1 := if k0 || wBad then s1
      else updOut i.g i.ser (fun o => { o with
        checked := some a.chk.vecs, checksOk := a.chk.ok && chkPass i.va.fmt wr.1 w.nt a.chk }) s1
    let s1 := if pp.skipz && !k0 && !wBad then
        (let r := freeBelow (zeroBlocks a.zeroVecs + 1) s1; bump i.g 0x10 r.1 r.2) else s1
    match gr.loading with
    | some ser => if pp.neww && !k0 then setWaitFor i (.weights ser) s1 else s1
    | none => s1

/-- What ARR_PASS and ARR_CONV do at their issue. DEDUCED (log 84). -/
def passAct (i : Iss) (s : State) : State :=
  let pp := passPar i.d
  if passEmpty i.va i.d then noEffect i s
  else
    let vs := streamed i
    if vs = [] then bump i.g 0x12 1 (noEffect i s)
    else match (nmGet s.grains i.g).bind (fun gr => passWts gr pp) with
      | some w => passRun i pp w vs s
      | none => s

def doArrPass (g t : Nat) (s : State) : State := issueRow (fun d => dOp d == 0x01) passFaults passAct g t s

def doArrConv (g t : Nat) (s : State) : State := issueRow (fun d => dOp d == 0x02) passFaults passAct g t s

/-! ## ARR_LOADW (R82, R94) -/

/-- The metadata view of a 2:4 block: the entry after VD. -/
def metaView (i : Iss) : View := viewAt i.r i.ped2 (dVD i.d + 1)

/-- The metadata of group j of column n. -/
def metaAt (s : State) (i : Iss) (j n : Nat) : Nat :=
  let m := metaView i
  (elemCode (viewBytes s i.pl [] m) m (elemBit m i.pl.k j n 0 0)).1

def loadwKt (v : View) : Nat := if v.sp24 then 2 * v.sz1 else v.sz1

def loadwFaults (s : State) (i : Iss) : List (Bool × Nat) :=
  let v := i.vd
  let m := metaView i
  let kt := loadwKt v
  let groups := (List.range (kt / 4)).flatMap (fun j => (List.range v.sz0).map (fun n => metaAt s i j n))
  [(v.sp24 && dVD i.d == 0xFE, 0x03),
   (v.sp24 && dVD i.d != 0xFE && isLocal m && i.pl.scratch < viewEnd m i.pl.k, 0x04),
   (!(isLocal v) || (v.sp24 && !(isLocal m)), 0x05),
   ((epv v.fmt).isNone || (v.sp24 && m.fmt != 9), 0x06),
   (!(tailZero i.d 10), 0x0A),
   (v.sz0 < 1 || 8 < v.sz0 || v.sz2 != 1 || v.sz3 != 1, 0x0A),
   ((epv v.fmt).getD 0 * (if v.sp24 then 2 else 1) < kt, 0x0A),
   (v.sp24 && (kt % 4 != 0 || m.sz0 != kt / 4 || m.sz1 != v.sz0), 0x0A),
   (v.sp24 && groups.any (fun x => bits x 2 2 ≤ bits x 0 2), 0x0A),
   ((match nmGet s.grains i.g with | some gr => gr.shadow.isSome | none => false), 0x0A)]

/-- Row k of the weight block in its dense layout. -/
def loadwRow (s : State) (i : Iss) (k : Nat) : List (Nat × Bool) :=
  let v := i.vd
  let byteAt := viewBytes s i.pl [] v
  (List.range v.sz0).map (fun n =>
    if v.sp24 then
      let x := metaAt s i (k / 4) n
      if k % 4 = bits x 0 2 then elemCode byteAt v (elemBit v i.pl.k n (k / 4 * 2) 0 0)
      else if k % 4 = bits x 2 2 then elemCode byteAt v (elemBit v i.pl.k n (k / 4 * 2 + 1) 0 0)
      else (notKept, false)
    else elemCode byteAt v (elemBit v i.pl.k n k 0 0))

def loadwAct (i : Iss) (s : State) : State :=
  let v := i.vd
  let rows := (List.range (loadwKt v)).map (loadwRow s i)
  let m := metaView i
  let bad := rows.any (fun r => r.any (·.2)) || (v.sp24 && (firstPoison (viewBytes s i.pl [] m) m i.pl.k).isSome)
  let w : Wts := { fmt := v.fmt, scale := v.scale, sp24 := v.sp24, nt := v.sz0,
                   w := rows.map (fun r => r.map (·.1)), poison := bad }
  let s1 := updGrain i.g (fun gr => { gr with shadow := some w, loading := some i.ser }) s
  let s1 := consumeView i (viewBytes s i.pl [] v) v s1
  if v.sp24 then consumeView i (viewBytes s i.pl [] m) m s1 else s1

def doArrLoadw (g t : Nat) (s : State) : State := issueRow (fun d => dOp d == 0x03) loadwFaults loadwAct g t s

/-! ## MV (R97-R101) -/

def mvFaults (s : State) (i : Iss) : List (Bool × Nat) :=
  let x := i.va
  let w := i.vd
  let y := i.vc
  let one (v : View) : Bool := v.sz2 == 1 && v.sz3 == 1
  [(notLocal [(dVA i.d, x), (dVC i.d, y), (dVD i.d, w)] || outsideStage s i y, 0x05),
   (!(mvPair x.fmt w.fmt) || !(outFmt y.fmt) || (bitAt (u8 i.d 10) 0 && y.fmt != 0), 0x06),
   (bits (u8 i.d 10) 1 7 != 0 || !(tailZero i.d 11), 0x0A),
   (4096 < x.sz0 || x.sz1 != 1 || !(one x) || w.sz0 != x.sz0 || !(one w) || w.sz1 < 1 ||
      y.sz0 != w.sz1 || y.sz1 != 1 || !(one y), 0x0A)]

/-- R99: the 17th lane's sum of a row, in groups of 16 products, equals the row's. -/
def laneOk (f : Nat) (ps : List FVal) : Bool :=
  let l := windowed f ps
  if l.any (fun x => x == .nan || x.isInf) then true
  else ratSum l == sumRat ((List.range ((l.length + 15) / 16)).map (fun j => ratSum ((l.drop (16 * j)).take 16)))

def mvAct (i : Iss) (s : State) : State :=
  let ftz := ctxFtz s i.ctx
  let acc := bitAt (u8 i.d 10) 0
  let x := i.va
  let w := i.vd
  let y := i.vc
  let xb := viewBytes s i.pl [] x
  let wb := viewBytes s i.pl [] w
  let yb := viewBytes s i.pl [] y
  let xs := (List.range x.sz0).foldl (fun (a : List FVal × Bool × Counts) k =>
    let e := elemCode xb x (linBit x i.pl.k k)
    let r := readElem ftz x.fmt e.1 a.2.2
    (a.1 ++ [r.1], a.2.1 || e.2, r.2)) ([], false, Counts.none)
  let pm := fmul (0, 0, 0) (ctxScale s i.ctx x.scale) (ctxScale s i.ctx w.scale) xs.2.2
  let p := rne32 ftz pm.1 pm.2
  let sc := ctxScale s i.ctx y.scale
  let row (b : (List BitW × Counts × StatFig) × Bool) (r : Nat) : (List BitW × Counts × StatFig) × Bool :=
    let a := b.1
    let ws := (List.range x.sz0).foldl (fun (b : List FVal × Bool × Counts) k =>
      let e := elemCode wb w (linBit w i.pl.k (r * x.sz0 + k))
      let v := readElem ftz w.fmt e.1 b.2.2
      let m := fmul (r, 0, k) (xs.1.getD k FVal.zero) v.1 v.2
      (b.1 ++ [m.1], b.2.1 || e.2, m.2)) ([], false, a.2.1)
    let prev := elemCode yb y (linBit y i.pl.k r)
    let old : FVal × Counts := if acc then readElem ftz 0 prev.1 ws.2.2 else (FVal.zero, ws.2.2)
    let t0 := exactSum (fun k => (r, 0, k)) old.1 (windowed w.fmt ws.1) old.2
    let t := rne32 ftz t0.1 t0.2
    let u0 := fmul (r, 0, 0) t.1 p.1 t.2
    let u := rne32 ftz u0.1 u0.2
    let q := quantise ftz y.fmt sc u.1 u.2 a.2.2
    ((a.1 ++ [(linBit y i.pl.k r, fmtW y.fmt, q.1, xs.2.1 || ws.2.1 || (acc && prev.2))], q.2.1, q.2.2),
      b.2 && laneOk w.fmt ws.1)
  let skip := acc && x.sz0 == 0
  let rs := if skip then (([], p.2, StatFig.zero y.scale), true)
    else (List.range w.sz1).foldl row (([], p.2, StatFig.zero y.scale), true)
  let r := rs.1
  let s1 := consumeView i xb x s
  let s1 := consumeView i wb w s1
  let s1 := if acc && !skip then consumeView i yb y s1 else s1
  let s1 := holdWrites i y r.1 s1
  let s1 := updOut i.g i.ser (fun o => { o with checked := some (List.range w.sz1), checksOk := rs.2 }) s1
  let s1 := setCounts i r.2.1 [r.2.2] s1
  if x.sz0 = 0 then bump i.g 0x11 1 s1 else s1

def doMv (g t : Nat) (s : State) : State := issueRow (fun d => dOp d == 0x04) mvFaults mvAct g t s

/-! ## Ballast (R102-R105) -/

def ballastFaults (_ : State) (i : Iss) : List (Bool × Nat) :=
  [(u32 i.d 10 = 0 || 16777216 < u32 i.d 10 || 8 < u8 i.d 14 || !(tailZero i.d 15), 0x0A)]

def ballastAct (i : Iss) (s : State) : State :=
  updGrain i.g (nextBallast s.clk.pcc) (setWaitFor i .ballast s)

def doBallast (g t : Nat) (s : State) : State := issueRow (fun d => dOp d == 0x3C) ballastFaults ballastAct g t s

/-- PWR_BALLAST as a C-die runs with it (R104): at reset its reset value. -/
def ballastOf (s : State) (c : Nat) : W32 := nmGetD s.pwr.ballastDie c 0x00160200

/-- How far ahead the NOTBEFORE of the grain's next buffered ARR-engine descriptor lies; none where no such
descriptor is buffered or it has no NOTBEFORE. -/
def nextArrGap (s : State) (gr : Grain) (r : RunSeg) : Option Nat :=
  gr.thr.findSome? (fun e =>
    let th := e.2
    if !(live s gr th) then none
    else
      let held := (List.range 24).filterMap (fun n =>
        (nmGet th.bufs ((th.pos + n) / 8)).map (fun b => slice b (32 * ((th.pos + n) % 8)) 32))
      match held.find? (fun d => engineOf (dOp d) == some 1) with
      | some d => if dNotBefore d = 0 then none else some (dNotBefore d - segGc s r)
      | none => none)

/-- ARRAY_IDLE (R103): the hub fills a short gap, or gates the cells over a long one. With ENF = 0 the hub inserts no
ballast; whether it still gates the cells over a long or unknown gap the spec does not say: the model leaves them
ungated. DESIGN CHOICE (log 108). -/
def doArrayIdle (g : Nat) (s : State) : State :=
  match nmGet s.grains g with
  | none => s
  | some gr =>
    if gr.out.any (fun o => engineOf (dOp o.desc) == some 1) || gr.bal.isSome || gr.gated then s
    else match segOf s gr.ctx with
      | none => s
      | some r =>
        let b := (ballastOf s (dieOfPed2 gr.ped2)).toNat
        let level := min (bits b 16 4) 8
        if !(bitAt b 20) then s
        else match nextArrGap s gr r with
          | some n =>
            if n < bits b 0 16 then updGrain g (fun gr => { gr with bal := some (.hub level false) }) s
            else updGrain g (fun gr => { gr with gated := true }) s
          | none => updGrain g (fun gr => { gr with bal := some (.hub level true) }) s

/-- BALLAST_GAP_EXPIRE (R103): hub ballast of a gap of unknown length ends, and the cells are gated. -/
def doBallastGapExpire (g : Nat) (s : State) : State :=
  updGrain g (fun gr => match gr.bal with
    | some (.hub _ true) => { gr with bal := none, gated := true }
    | _ => gr) s

/-! ## Checks (R86-R91, R99, R105) -/

/-- The ARRAY_CHECK record of R495. -/
def checkRecord (gr : Grain) (g : Nat) (daddr : W64) (chk strikes t idx col : Nat) (s : State) : State :=
  postRec 0x03 1 (some gr.ctx) (dieOfPed2 gr.ped2) g
    [(0, 8, daddr.toNat), (8, 1, chk), (9, 1, strikes), (10, 1, t), (12, 4, idx), (16, 2, col)] s

/-- R90: the array gives up the faulting descriptor and what follows it, goes back to the retry point and issues again
from there. DEDUCED (log 84). -/
def replayFrom (g : Nat) (o : OutD) (s : State) : State :=
  match nmGet s.grains g with
  | none => s
  | some gr =>
    let pt : Retry := (gr.retry.find? (fun p => p.pos ≤ o.pos)).getD { pos := o.pos, active := gr.active, shadow := gr.shadow }
    let gone (x : OutD) : Bool := x.t == o.t && engineOf (dOp x.desc) == some 1 && pt.pos ≤ x.pos
    let s := dropWrites (physId s g) ((gr.out.filter gone).map (·.ser)) s
    let s := updGrain g (fun gr => { gr with
      out := gr.out.filter (fun x => !(gone x))
      acc := [], active := pt.active, shadow := pt.shadow
      loading := gr.loading.filter (fun l => gr.out.any (fun x => x.ser == l && x.pos < pt.pos))
      bal := none }) s
    let s := updThr g o.t (fun th => { th with
      redo := (gr.arrLog.map (·.1)).filter (fun q => pt.pos ≤ q), redoTill := o.pos }) s
    settle g (updPhys (physId s g) (fun x => { x with replaying := true }) s)

/-- R87: a check that the array makes: of a vector that is not exempt, or of a pass that is checked; of ballast always
(R105). -/
def checkMade (o : OutD) (chk : ArrCheck) : Bool :=
  dOp o.desc == 0x3C || (match o.checked, chk with
    | some l, .vector i => i ∈ l
    | some _, .pass _ => true
    | none, _ => false)

/-- ARRAY_CHECKSUM_FAULT (R88, R90, R91, R105): a check that the array makes has found a mismatch. -/
def doArrayChecksumFault (g : Nat) (ser : Option Nat) (chk : ArrCheck) (s : State) : State :=
  match nmGet s.grains g with
  | none => s
  | some gr =>
    let c := match chk with | .vector _ => 0 | .pass _ => 1
    let idx := match chk with | .vector i => i | .pass _ => 0
    let col := match chk with | .vector _ => 0xFFFF | .pass n => if n < 8 then n else 0xFFFF
    let n := if secondStrike s g then 2 else 1
    match ser with
    | none =>
      match gr.bal with
      | some (.hub _ _) => takeStrike g (checkRecord gr g 0 c n (gr.arrT.getD 0) idx col s)
      | _ => s
    | some ser =>
      match gr.out.find? (fun o => o.ser == ser) with
      | none => s
      | some o =>
        if !(dOp o.desc ∈ [0x01, 0x02, 0x3C]) || !(checkMade o chk) then s
        else
          let s := takeStrike g (checkRecord gr g o.daddr c n o.t idx col s)
          if n = 2 || dOp o.desc = 0x3C then s else replayFrom g o s

/-- MV_ROW_CHECK_FAULT (R99): the row is run again; the rows that are written stand. -/
def doMvRowCheckFault (g ser row : Nat) (s : State) : State :=
  match nmGet s.grains g with
  | none => s
  | some gr =>
    match gr.out.find? (fun o => o.ser == ser) with
    | none => s
    | some o =>
      if dOp o.desc != 0x04 || !(checkMade o (.vector row)) then s
      else takeStrike g (checkRecord gr g o.daddr 2 (if secondStrike s g then 2 else 1) o.t row 0xFFFF s)

/-! ## Meanings -/

def execArrPass (g t : Nat) (s : State) : Host.Outcome State Fault Refusal := .next (doArrPass g t s)
def execArrConv (g t : Nat) (s : State) : Host.Outcome State Fault Refusal := .next (doArrConv g t s)
def execArrLoadw (g t : Nat) (s : State) : Host.Outcome State Fault Refusal := .next (doArrLoadw g t s)
def execMv (g t : Nat) (s : State) : Host.Outcome State Fault Refusal := .next (doMv g t s)
def execBallast (g t : Nat) (s : State) : Host.Outcome State Fault Refusal := .next (doBallast g t s)
def execArrayIdle (g : Nat) (s : State) : Host.Outcome State Fault Refusal := .next (doArrayIdle g s)
def execBallastGapExpire (g : Nat) (s : State) : Host.Outcome State Fault Refusal := .next (doBallastGapExpire g s)
def execArrayChecksumFault (g : Nat) (ser : Option Nat) (chk : ArrCheck) (s : State) :
    Host.Outcome State Fault Refusal := .next (doArrayChecksumFault g ser chk s)
def execMvRowCheckFault (g ser row : Nat) (s : State) : Host.Outcome State Fault Refusal :=
  .next (doMvRowCheckFault g ser row s)

end Sys2Proof.Machine
end

