-- ==== Sys2Proof/Machine/Gate.lean ====
section
/-! DEFINITION. Clock gating of ped-1s (R26, R395, R396). Gating follows silicon: a ped-1 is its 16 physical positions. -/

namespace Sys2Proof.Machine

open Sys2Proof

/-- `PWR_CTL.GATE_EN`. DEDUCED (log 31). -/
def gateEn (s : State) : Bool := s.pwr.ctl.getLsbD 1

/-- The PWR_BALLAST value in force on a C-die (R104). -/
def ballastIn (s : State) (c : Nat) : W32 := nmGetD s.pwr.ballastDie c s.pwr.ballast

/-- The ped-1, within its ped-2, that a logical grain sits in. -/
def ped1Of (s : State) (g : Nat) : Nat := physId s g % 256 / 16

/-- The logical grains that sit in ped-1 i of ped-2 p. -/
def ped1Grains (s : State) (p i : Nat) : List Nat :=
  ((List.range 250).map (logicalId p)).filter (fun g => ped1Of s g == i)

/-- R395: nothing runs on the grain, and every thread is at rest or waits in WAIT_TIME for a NOTBEFORE at least `far` gc
ahead. -/
def restsFor (s : State) (far : Nat) (gr : Grain) : Bool :=
  gr.out == [] && gr.loading.isNone && gr.thr.all (fun e =>
    e.2.st == .off || e.2.st == .done || (e.2.st == .waitTime && (match segOf s gr.ctx, bufDesc e.2 with
      | some r, some d => segGc s r + far ≤ dNotBefore d
      | _, _ => false)))

/-- How far ahead a NOTBEFORE lies for a ped-1 to be gated. -/
def gateGap (s : State) (p : Nat) : Nat := max (bits (ballastIn s (dieOfPed2 p)).toNat 0 16) 192

/-- R395: nothing runs on the grain, and every thread is at rest or far from its NOTBEFORE. -/
def quietGrain (s : State) (g : Nat) : Bool :=
  match nmGet s.grains g with
  | none => true
  | some gr => restsFor s (gateGap s gr.ped2) gr

/-- The die hub stops the clock of a ped-1 that is quiet; hub ballast on it ends. -/
def gatePed1 (p i : Nat) (s : State) : State :=
  let gs := ped1Grains s p i
  if !(gateEn s) || i ∈ (ped2Of s p).gated || !(gs.all (quietGrain s)) then s
  else
    let s := gs.foldl (fun s g => updGrain g (fun gr => { gr with bal := none }) s) s
    updPed2 p (fun d => { d with gated := addOnce i d.gated }) s

/-- The ped-1 of a grain, after something on it has ended. -/
def gateAt (g : Nat) (s : State) : State :=
  if (nmGet s.grains g).isNone then s else gatePed1 (logicalPed2 g) (ped1Of s g) s

def wakePed1 (p i : Nat) (s : State) : State := updPed2 p (fun d => { d with gated := del i d.gated, prewake := d.prewake.filter (fun e => e.1 != i) }) s

/-- Every ped-1 of a ped-2 that nothing runs on. -/
def gateAll (s : State) : List Nat := if gateEn s then List.range 16 else []

/-- The gc of the earliest NOTBEFORE that a thread of ped-1 i waits for. -/
def earliestWait (s : State) (p i : Nat) : Option Nat :=
  ((ped1Grains s p i).flatMap (fun g => match nmGet s.grains g with
    | none => []
    | some gr => gr.thr.filterMap (fun e => if e.2.st == .waitTime then (bufDesc e.2).map dNotBefore else none))).foldl
    (fun m n => match m with | none => some n | some x => some (min x n)) none

/-- The gc of the segment that runs on ped-1 i. -/
def ped1Gc (s : State) (p i : Nat) : Option Nat :=
  (ped1Grains s p i).findSome? (fun g =>
    (nmGet s.grains g).bind (fun gr => (segOf s gr.ctx).map (fun r => segGc s r)))

/-- PED1_PREWAKE (R396): from 128 gc before that NOTBEFORE the ped-1 wakes, in 64 gc. `ped1` is 16 x ped-2 + its index. -/
def doPed1Prewake (ped1 : Nat) (s : State) : State :=
  let p := ped1 / 16
  let i := ped1 % 16
  match earliestWait s p i, ped1Gc s p i with
  | some n, some gc =>
    if !(decide (i ∈ (ped2Of s p).gated)) || gc + 128 < n then s
    else updPed2 p (fun d => { d with prewake := d.prewake ++ [(i, s.clk.pcc + 64)] }) (wakePed1 p i s)
  | _, _ => s

/-- R396: between the end of a wake and the NOTBEFORE that it came for, the hub runs ballast on the ped-1. -/
def endWake (p i : Nat) (s : State) : State :=
  let s := updPed2 p (fun d => { d with prewake := d.prewake.filter (fun e => e.1 != i) }) s
  match earliestWait s p i, ped1Gc s p i with
  | some n, some gc =>
    if n ≤ gc then s
    else
      let b := (ballastIn s (dieOfPed2 p)).toNat
      let bal : Option Bal := if bitAt b 20 then some (.hub (min (bits b 16 4) 8) false) else none
      (ped1Grains s p i).foldl (fun s g => updGrain g (fun gr => { gr with bal := bal, gated := false }) s) s
  | _, _ => s

/-- The ped-1s of a ped-2 whose clock is stopped in this gc: those that are quiet, and of those that were stopped the ones
that nothing but the time to a NOTBEFORE has come near (R395, R396). -/
def gatedNow (s : State) (p : Nat) (d : Ped2) : List Nat :=
  if !(gateEn s) then []
  else
    let busy (far : Nat) : List Nat := s.grains.filterMap (fun e =>
      if e.2.ped2 = p && !(restsFor s far e.2) then some (ped1Of s e.1) else none)
    let near := busy (gateGap s p)
    let awake := busy 0
    (List.range 16).filter (fun i => if i ∈ d.gated then !(decide (i ∈ awake)) else !(decide (i ∈ near)))

/-- Every gc: quiet ped-1s stop, ped-1s that anything but a NOTBEFORE wakes start at once, and wakes end. -/
def gateStep (s : State) : State :=
  let stop (e : Nat × Ped2) : Nat × Ped2 := (e.1, { e.2 with gated := gatedNow s e.1 e.2 })
  let quiet (e : Nat × Grain) : Nat × Grain :=
    match nmGet s.ped2s e.2.ped2 with
    | some d => if e.2.bal.isSome && ped1Of s e.1 ∈ gatedNow s e.2.ped2 d then (e.1, { e.2 with bal := none }) else e
    | none => e
  let s' := { s with ped2s := s.ped2s.map stop, grains := s.grains.map quiet }
  s'.ped2s.foldl (fun s e => (e.2.prewake.filter (fun w => w.2.toNat ≤ s.clk.pcc.toNat)).foldl
    (fun s w => endWake e.1 w.1 s) s) s'

def execPed1Prewake (ped1 : Nat) (s : State) : Host.Outcome State Fault Refusal := .next (doPed1Prewake ped1 s)

end Sys2Proof.Machine
end

