-- ==== Sys2Proof/Machine/Approx.lean ====
section
/-! DEFINITION. The elementary functions that R126, R146, R157 and R174 bound in ulp: each to far more than 200 bits, in
integers of scale 2^512, so that a candidate result of Config is held to the spec's bound. -/

namespace Sys2Proof.Machine

open Sys2Proof

/-! ## Fixed point -/

def fxOne : Int := 2 ^ 512

/-- q in units of 2^-512. -/
def fxOf (q : Rat) : Int := q.num * fxOne / (q.den : Int)

def fxMul (a b : Int) : Int := a * b / fxOne

def fxRat (a : Int) : Rat := mkRat a (2 ^ 512)

/-- ln 2, π and 1 / √(2π) in units of 2^-512. -/
def fxLn2 : Int :=
  0xb17217f7d1cf79abc9e3b39803f2f6af40f343267298b62d8a0d175b8baafa2be7b876206debac98559552fb4afa1b10ed2eae35c138214427573b291169b825
def fxPi : Int :=
  0x3243f6a8885a308d313198a2e03707344a4093822299f31d0082efa98ec4e6c89452821e638d01377be5466cf34e90c6cc0ac29b7c97c50dd3f84d5b5b5470917
def fxInvSqrt2Pi : Int :=
  0x662114cf50d942343f2cf1402eae38bfd3829f30512706d8c0471b4802639d2e9df8ac55447d3db723f5d3abb374e88deb14277970be1513278e993445f08cff

/-! ## Exponential and logarithm -/

/-- The sum of n terms of e^r, from term k on, whose value is t. -/
def expTerms (r : Int) : Nat → Nat → Int → Int
  | 0, _, _ => 0
  | n + 1, k, t => t + expTerms r n (k + 1) (fxMul t r / ((k + 1 : Nat) : Int))

/-- e^x; beyond ±400, far outside FP32, the value at ±400. -/
def expQ (x : Rat) : Rat :=
  let a := fxOf (max (-400) (min 400 x))
  let n := (2 * a + fxLn2) / (2 * fxLn2)
  fxRat (expTerms (a - n * fxLn2) 110 0 fxOne) * pow2 n

/-- The sum of z^(2k+1) / (2k+1), n terms from k on; t is z^(2k+1). -/
def atanhTerms (z2 : Int) : Nat → Nat → Int → Int
  | 0, _, _ => 0
  | n + 1, k, t => t / ((2 * k + 1 : Nat) : Int) + atanhTerms z2 n (k + 1) (fxMul t z2)

/-- ln q for q above 0. -/
def logQ (q : Rat) : Rat :=
  let e := floorLog2 q
  let m := q / pow2 e
  let m' := if mkRat 4 3 ≤ m then m / 2 else m
  let e' := if mkRat 4 3 ≤ m then e + 1 else e
  let z := fxOf ((m' - 1) / (m' + 1))
  fxRat (2 * atanhTerms (fxMul z z) 120 0 z + e' * fxLn2)

def sigmoidQ (x : Rat) : Rat := 1 / (1 + expQ (-x))
def tanhQ (x : Rat) : Rat := let t := expQ (2 * x); (t - 1) / (t + 1)
def siluQ (x : Rat) : Rat := x / (1 + expQ (-x))
def siluDerivQ (x : Rat) : Rat := let s := sigmoidQ x; s * (1 + x * (1 - s))

/-! ## The normal distribution -/

/-- The standard normal density. -/
def densityQ (x : Rat) : Rat := fxRat fxInvSqrt2Pi * expQ (-(x * x) / 2)

/-- The sum of x^(2k+1) / (2k+1)!!, n terms from k on, whose value is t. -/
def phiTerms (x2 : Int) : Nat → Nat → Int → Int
  | 0, _, _ => 0
  | n + 1, k, t => t + phiTerms x2 n (k + 1) (fxMul t x2 / ((2 * k + 3 : Nat) : Int))

/-- The standard normal distribution; beyond ±16 it lies within 2^-180 of 0 or 1. -/
def phiQ (x : Rat) : Rat :=
  if x < -16 then 0 else if 16 < x then 1
  else let a := fxOf x; mkRat 1 2 + densityQ x * fxRat (phiTerms (fxMul a a) 640 0 a)

def geluQ (x : Rat) : Rat := x * phiQ x
def geluDerivQ (x : Rat) : Rat := phiQ x + x * densityQ x

/-! ## Roots and circular functions -/

/-- √q for q from 0 to 2^60. -/
def sqrtQ (q : Rat) : Rat := mkRat (Int.ofNat (isqrt (fxOf (q * pow2 88)).toNat 331 0)) (2 ^ 300)

/-- The alternating sum of a circular function's terms: term k is t, the next divides by (d+1)(d+2). -/
def circTerms (a2 : Int) : Nat → Nat → Int → Int
  | 0, _, _ => 0
  | n + 1, d, t => t - circTerms a2 n (d + 2) (fxMul t a2 / (((d + 1) * (d + 2) : Nat) : Int))

/-- cos 2πw and sin 2πw for w from 0 to 1/8. -/
def cosQ (w : Rat) : Rat := let a := fxMul (2 * fxPi) (fxOf w); fxRat (circTerms (fxMul a a) 60 0 fxOne)
def sinQ (w : Rat) : Rat := let a := fxMul (2 * fxPi) (fxOf w); fxRat (circTerms (fxMul a a) 60 1 a)

/-- cos 2πu for u from 0 up to 1. -/
def cosTurn (u : Rat) : Rat :=
  let v := if mkRat 1 2 < u then 1 - u else u
  let quarter (w : Rat) : Rat := if mkRat 1 8 < w then sinQ (mkRat 1 4 - w) else cosQ w
  if mkRat 1 4 < v then -(quarter (mkRat 1 2 - v)) else quarter v

/-- R157: the normal deviate of u1 and u2. -/
def normalQ (u1 u2 : Rat) : Rat := sqrtQ (-(2 * logQ u1)) * cosTurn u2

/-! ## Results that a bound in ulp holds -/

def ratAbs (q : Rat) : Rat := if q < 0 then -q else q

/-- The candidate lies within n ulp of q. -/
def nearTo (q n : Rat) (x : FVal) : Bool :=
  match x with
  | .num _ _ => decide (ratAbs (x.signed - q) ≤ ulp32 (ratAbs q) * n)
  | _ => false

/-- A result whose exact value is q: a candidate within n ulp of it, or else q rounded once. `neg` is the sign of a
zero. DEDUCED (log 6). -/
def bounded (q n : Rat) (neg : Bool) (cand : W32) : FVal :=
  let x := f32 cand
  if nearTo q n x then x else (convert false 0 (FVal.ofRat q neg) Counts.none).1

end Sys2Proof.Machine
end

