-- ==== Sys2Proof/Machine/Vector.lean ====
section
/-! DEFINITION. The vector unit: VEC (R125-R128), VEC_DERIV (R145-R148), RNG_FILL (R156-R158), ROUTE (R173-R177), and the
cached operands of all four (R61). -/

namespace Sys2Proof.Machine

open Sys2Proof

/-! ## FP32 steps -/

/-- One FP32 rounding inside a VEC or VEC_DERIV: flush mode applies to what is read and to what is written, not to a step
between them; the array's and MV's t, p, u and bias steps are flushed. R114 names results in a destination format, FP32
accumulator results among them, and no other step. DESIGN CHOICE (log 108). -/
def stepR (ftz : Bool) (x : FVal × Counts) : FVal × Counts :=
  let r := convert false 0 x.1 x.2
  (r.1, if ftz then { r.2 with ufl := x.2.ufl } else r.2)

def one : FVal := .num false 1

/-- The functions of R126. -/
def vecFuncs : List Nat :=
  [0x00, 0x01, 0x02, 0x03, 0x04, 0x05, 0x06, 0x08, 0x09, 0x10, 0x11, 0x12, 0x13, 0x14, 0x15, 0x16, 0x17, 0x18, 0x19,
   0x1A, 0x20, 0x21, 0x22, 0x23]

def vecTwo (f : Nat) : Bool := f ∈ [0x01, 0x02, 0x03, 0x04, 0x05, 0x06]

def vecRed (f : Nat) : Bool := f == 0x20 || f == 0x21 || f == 0x23

/-! ## Functions that R126 bounds -/

/-- R113: a result of ±0 of a nonzero exact value counts FLUSH, an infinite one of a finite value counts OVF. -/
def tally0 (ftz nonzero finite : Bool) (r : FVal) (c : Counts) : FVal × Counts :=
  if r.isZero && nonzero then (r, c.rounded0 ftz)
  else if r.isInf && finite then (r, { c with ovf := c.ovf + 1 })
  else (r, c)

/-- RSQRT of q > 0: within 1 ulp of the exact value 1 / √q, whose binade is that of 1 / q halved. -/
def rsqrtOf (q : Rat) (a : FVal) : FVal :=
  let x := f32 (Config.rsqrt (w32 a))
  let u := pow2 (max (floorLog2 (1 / q) / 2) (-126) - 23)
  let good (m : Rat) : Bool :=
    let lo := m - u
    let hi := m + u
    (lo ≤ 0 || lo * lo * q ≤ 1) && 1 ≤ hi * hi * q
  match x with
  | .num false m => if 0 < m && good m then x else .num false (sqrt32 (1 / q))
  | _ => .num false (sqrt32 (1 / q))

/-- The class T functions of an infinity (R126): the function's limit there, and its operation's own rule where the
limit is not reached by the expression of the table (0 × ∞ and ∞ / ∞ at GELU and SILU of -∞, which the spec does not
state: free values). DEDUCED (log 6). -/
def vecTInf (f : Nat) (neg : Bool) (w : W32) (at_ : Nat × Nat × Nat) (c : Counts) : FVal × Counts :=
  if f = 0x12 then (if neg then FVal.zero else one, c)
  else if f = 0x13 then (.num neg 1, c)
  else if f = 0x14 then (if neg then FVal.zero else .inf false, c)
  else if f = 0x16 then (.num neg 0, c)
  else if f = 0x15 || f = 0x17 then (if neg then (.nan, c.invalidAt at_) else (.inf false, c))
  else if f = 0x18 then (if neg then (.nan, c.invalidAt at_) else (FVal.zero, c))
  else if !neg then (.inf false, c)
  else (f32 (if f = 0x19 then Config.gelu w else Config.silu w), c)

/-- The class T functions of one operand (R126): within the bound of the exact function, or exact where the table's value
is (LOG of ±0 is -∞, RSQRT of +0 is +∞; of -0 the spec does not state it: a free value). DEDUCED (log 6). TANH, GELU and
SILU of a signed zero are that zero, which the bound alone would not fix. DESIGN CHOICE (log 6). -/
def vecT (ftz : Bool) (f : Nat) (a : FVal) (at_ : Nat × Nat × Nat) (c : Counts) : FVal × Counts :=
  let w := w32 a
  match a with
  | .nan => (.nan, c)
  | .inf neg => vecTInf f neg w at_ c
  | .num neg q =>
    let z := q == 0
    let x := a.signed
    if f = 0x12 then tally0 ftz true true (bounded (sigmoidQ x) 2 false (Config.sigmoid w)) c
    else if f = 0x13 then
      if z then (a, c) else tally0 ftz true true (bounded (tanhQ x) 2 neg (Config.tanh w)) c
    else if f = 0x14 then tally0 ftz true true (bounded (expQ x) (3 / 2) false (Config.exp w)) c
    else if f = 0x15 then
      if z then (.inf true, c)
      else if neg then (.nan, c.invalidAt at_)
      else tally0 ftz (q != 1) true (bounded (logQ q) (3 / 2) false (Config.log w)) c
    else if f = 0x16 then
      if z then (.inf neg, c) else tally0 ftz true true (bounded (1 / x) 1 neg (Config.recip w)) c
    else if f = 0x17 then
      if z then (a, c) else if neg then (.nan, c.invalidAt at_) else (.num false (sqrt32 q), c)
    else if f = 0x18 then
      if z then (if neg then f32 (Config.rsqrt w) else .inf false, c)
      else if neg then (.nan, c.invalidAt at_) else (rsqrtOf q a, c)
    else if z then (a, c)
    else if f = 0x19 then tally0 ftz true true (bounded (geluQ x) 3 neg (Config.gelu w)) c
    else tally0 ftz true true (bounded (siluQ x) 2 neg (Config.silu w)) c

/-! ## VEC -/

/-- R126: one element of the elementwise functions. -/
def vecElem (ftz : Bool) (f : Nat) (imm a b : FVal) (at_ : Nat × Nat × Nat) (c : Counts) : FVal × Counts :=
  if f = 0x00 then (a, c)
  else if f = 0x01 then stepR ftz (fadd at_ a b c)
  else if f = 0x02 then stepR ftz (fadd at_ a b.negate c)
  else if f = 0x03 then stepR ftz (fmul at_ a b c)
  else if f = 0x04 then let m := fmul at_ a imm c; stepR ftz (fadd at_ m.1 b m.2)
  else if f = 0x05 then
    if a == .nan || b == .nan then (.nan, c)
    else if a.isZero && b.isZero then (.num (a.isNeg && b.isNeg) 0, c)
    else (if flt a b then b else a, c)
  else if f = 0x06 then
    if a == .nan || b == .nan then (.nan, c)
    else if a.isZero && b.isZero then (.num (a.isNeg || b.isNeg) 0, c)
    else (if flt b a then b else a, c)
  else if f = 0x08 then stepR ftz (fmul at_ a imm c)
  else if f = 0x09 then stepR ftz (fadd at_ a imm c)
  else if f = 0x10 then if a == .nan then (.nan, c) else (if flt FVal.zero a then a else FVal.zero, c)
  else if f = 0x11 then
    if a == .nan then (.nan, c) else if fle FVal.zero a then (a, c) else stepR ftz (fmul at_ a imm c)
  else vecT ftz f a at_ c

/-- R127: a sum in ascending i0 with one rounding for each addition, from the first term. -/
def sumUp (ftz : Bool) (row : Nat) : Nat → FVal → List FVal → Counts → FVal × Counts
  | _, acc, [], c => (acc, c)
  | k, acc, x :: r, c => let y := stepR ftz (fadd (row, 0, k) acc x c); sumUp ftz row (k + 1) y.1 r y.2

def rmax (l : List FVal) : FVal :=
  if l.any (fun x => x == .nan) then .nan
  else l.foldl (fun m x => if m.isZero && x.isZero then .num (m.isNeg && x.isNeg) 0 else if flt m x then x else m)
    (.inf true)

/-- One i0 reduction. -/
def vecReduce (ftz : Bool) (f row : Nat) (xs : List FVal) (c : Counts) : FVal × Counts :=
  if f = 0x21 then (rmax xs, c)
  else
    let ts := if f = 0x20 then (xs, c)
      else (List.range xs.length).foldl (fun (a : List FVal × Counts) k =>
        let x := xs.getD k FVal.zero
        let m := stepR ftz (fmul (row, 0, k) x x a.2)
        (a.1 ++ [m.1], m.2)) ([], c)
    match ts.1 with
    | [] => (FVal.zero, ts.2)
    | x :: r => sumUp ftz row 1 x r ts.2

/-- Shares of a sum of exponentials of `xs` against the largest, `m` (R126, R174): each within 4 ulp of the exact share;
a NaN difference makes all NaN, and the share of one term is exactly 1, which the bound alone would not fix.
DESIGN CHOICE (log 6). -/
def shares (ftz : Bool) (share : List W32 → Nat → W32) (at_ : Nat → Nat × Nat × Nat) (m : FVal) (xs : List FVal)
    (c : Counts) : List FVal × Counts :=
  if xs.any (fun x => x == .nan) || m == .nan then (xs.map (fun _ => .nan), c)
  else
    let ds := (List.range xs.length).foldl (fun (a : List FVal × Counts) k =>
      let d := fadd (at_ k) (xs.getD k FVal.zero) m.negate a.2
      (a.1 ++ [d.1], d.2)) ([], c)
    if ds.1.any (fun d => d == .nan) then (xs.map (fun _ => .nan), ds.2)
    else
      let ws := xs.map w32
      let es := ds.1.map (fun d => if d.isInf then 0 else expQ d.signed)
      let sum := es.foldl (· + ·) 0
      (List.range xs.length).foldl (fun (a : List FVal × Counts) k =>
        let t :=
          if xs.length = 1 then (one, a.2)
          else if (ds.1.getD k FVal.zero).isInf then (FVal.zero, a.2)
          else tally0 ftz true true (bounded (es.getD k 0 / sum) 4 false (share ws k)) a.2
        (a.1 ++ [t.1], t.2)) ([], ds.2)

/-- The rows along i0 of n0 elements each. -/
def rowsOf {α : Type} (n0 n : Nat) (l : List α) : List (List α) := (List.range n).map (fun j => (l.drop (j * n0)).take n0)

/-- R125: the element of VB that belongs to linear index n of VA. -/
def bcast (va vb : View) (n : Nat) : Nat :=
  let c := coordOf va n
  let p (size x : Nat) : Nat := if size = 1 then 0 else x
  p vb.sz0 c.1 + vb.sz0 * (p vb.sz1 c.2.1 + vb.sz1 * (p vb.sz2 c.2.2.1 + vb.sz2 * p vb.sz3 c.2.2.2))

/-- The FP32 results of a VEC in linear order of VC, each with its poison. The k of an invalid operation of a SOFTMAX is i0,
as of a reduction: R129 speaks of reductions only, and R125 counts those with one result a row. DESIGN CHOICE (log 108). -/
def vecVals (ftz : Bool) (f : Nat) (imm : FVal) (va vb : View) (xs ys : List (FVal × Bool)) (c : Counts) :
    List (FVal × Bool) × Counts :=
  if vecRed f then
    (List.range (nvec va)).foldl (fun (a : List (FVal × Bool) × Counts) j =>
      let row := (xs.drop (j * va.sz0)).take va.sz0
      let r := vecReduce ftz f j (row.map (·.1)) a.2
      (a.1 ++ [(r.1, row.any (·.2))], r.2)) ([], c)
  else if f = 0x22 then
    (List.range (nvec va)).foldl (fun (a : List (FVal × Bool) × Counts) j =>
      let row := (xs.drop (j * va.sz0)).take va.sz0
      let v := row.map (·.1)
      let r := shares ftz Config.softmax (fun k => (j * va.sz0 + k, 0, k)) (rmax v) v a.2
      (a.1 ++ r.1.map (fun x => (x, row.any (·.2))), r.2)) ([], c)
  else
    (List.range xs.length).foldl (fun (a : List (FVal × Bool) × Counts) n =>
      let x := xs.getD n (FVal.zero, false)
      let y := if vecTwo f then ys.getD (bcast va vb n) (FVal.zero, false) else (FVal.zero, false)
      let r := vecElem ftz f imm x.1 y.1 (n, 0, 0) a.2
      (a.1 ++ [(r.1, x.2 || y.2)], r.2)) ([], c)

/-- Formats and places that the four opcodes share: R50, R179, R196. -/
def vecPlaces (s : State) (i : Iss) (l : List View) : List (Bool × Nat) :=
  [(l.any (fun v => !(placedCached v)) || rdonlyDest s i.ctx i.vc || outsideStage s i i.vc, 0x05)]

def vecFaults (s : State) (i : Iss) : List (Bool × Nat) :=
  let f := u8 i.d 10
  let va := i.va
  let vb := i.vb
  let vc := i.vc
  let dimBad (a b : Nat) : Bool := b != a && b != 1
  vecPlaces s i ([va, vc] ++ (if dVB i.d = 0xFF then [] else [vb])) ++
  [(vecFuncs.contains f && (vecTwo f == (dVB i.d == 0xFF)), 0x03),
   (!(vecFuncs.contains f) || u8 i.d 11 != 0 || !(tailZero i.d 16), 0x0A),
   ((if vecRed f then vc.sz0 != 1 else vc.sz0 != va.sz0) || vc.sz1 != va.sz1 || vc.sz2 != va.sz2 || vc.sz3 != va.sz3,
     0x0A),
   (vecTwo f && dVB i.d != 0xFF &&
      (dimBad va.sz0 vb.sz0 || dimBad va.sz1 vb.sz1 || dimBad va.sz2 vb.sz2 || dimBad va.sz3 vb.sz3), 0x0A)]

/-- What VEC computes and writes. A subnormal IMM is no element: flush mode keeps it as it stands, on which R114 is silent.
DESIGN CHOICE (log 108). -/
def vecWork (i : Iss) (lines : List (Nat × List Byte × Bool)) (s : State) : State :=
  let f := u8 i.d 10
  let ftz := ctxFtz s i.ctx
  let ab := viewBytes s i.pl lines i.va
  let bb := viewBytes s i.pl lines i.vb
  let xs := viewVals ftz ab i.va i.pl.k (ctxScale s i.ctx i.va.scale) Counts.none
  let ys := if vecTwo f then viewVals ftz bb i.vb i.pl.k (ctxScale s i.ctx i.vb.scale) xs.2 else ([], xs.2)
  let us := vecVals ftz f (f32 (BitVec.ofNat 32 (u32 i.d 12))) i.va i.vb xs.1 ys.1 ys.2
  let q := quantView ftz i.vc i.pl.k (ctxScale s i.ctx i.vc.scale) us.1 us.2 (StatFig.zero i.vc.scale)
  let s1 := consumeView i ab i.va s
  let s1 := if vecTwo f then consumeView i bb i.vb s1 else s1
  setCounts i q.2.1 [q.2.2] (holdWrites i i.vc q.1 s1)

/-! ## VEC_DERIV -/

def derivFuncs : List Nat := [0x10, 0x11, 0x12, 0x13, 0x14, 0x19, 0x1A, 0x22]

def derivFaults (s : State) (i : Iss) : List (Bool × Nat) :=
  let finite := match f32 (BitVec.ofNat 32 (u32 i.d 12)) with | .num _ _ => true | _ => false
  vecPlaces s i [i.va, i.vb, i.vc] ++
  [(i.va.fmt == 10 || i.vb.fmt == 10 || i.vc.fmt == 10, 0x06),
   (!(derivFuncs.contains (u8 i.d 10)) || u8 i.d 11 != 0 || !(tailZero i.d 16) || !finite, 0x0A),
   (!(sameSizes i.va i.vb) || !(sameSizes i.va i.vc), 0x0A)]

/-- R146: one function of x, rounded once to nearest even: the value `num` of a number, or its limit at an infinity. -/
def fnStep (ftz : Bool) (num : Rat → Rat) (lim : Bool → FVal) (x : FVal) (c : Counts) : FVal × Counts :=
  match x with
  | .nan => (.nan, c)
  | .inf n => (lim n, c)
  | .num _ _ => stepR ftz (FVal.ofRat (num x.signed) false, c)

/-- R146: GELU's derivative as the table evaluates it, each step rounded once: g × (Φ(x) + x × φ(x)). -/
def geluSteps (ftz : Bool) (x g : FVal) (at_ : Nat × Nat × Nat) (c : Counts) : FVal × Counts :=
  let p := fnStep ftz phiQ (fun n => if n then FVal.zero else one) x c
  let d := fnStep ftz densityQ (fun _ => FVal.zero) x p.2
  let m := stepR ftz (fmul at_ x d.1 d.2)
  let t := stepR ftz (fadd at_ p.1 m.1 m.2)
  stepR ftz (fmul at_ g t.1 t.2)

/-- R146: SILU's derivative as the table evaluates it: σ := 1 / (1 + e^−x); g × σ × (1 + x × (1 − σ)). -/
def siluSteps (ftz : Bool) (x g : FVal) (at_ : Nat × Nat × Nat) (c : Counts) : FVal × Counts :=
  let e := fnStep ftz expQ (fun n => if n then FVal.zero else .inf false) x.negate c
  let d := stepR ftz (fadd at_ one e.1 e.2)
  let r : FVal × Counts := match d.1 with
    | .num _ q => stepR ftz (FVal.ofRat (1 / q) false, d.2)
    | .inf _ => (FVal.zero, d.2)
    | .nan => (.nan, d.2)
  let m := stepR ftz (fadd at_ one r.1.negate r.2)
  let m := stepR ftz (fmul at_ x m.1 m.2)
  let m := stepR ftz (fadd at_ one m.1 m.2)
  let t := stepR ftz (fmul at_ g r.1 m.2)
  stepR ftz (fmul at_ t.1 m.1 t.2)

/-- R146: g times the derivative of GELU or SILU at x: the steps of the table, or, where the rounding of the steps leaves
the table's bound of 4 ulp, a value within the bound. The rule gives both and does not say which yields.
DESIGN CHOICE (log 6). -/
def derivT (ftz : Bool) (f : Nat) (x g : FVal) (at_ : Nat × Nat × Nat) (c : Counts) : FVal × Counts :=
  let r := if f = 0x19 then geluSteps ftz x g at_ c else siluSteps ftz x g at_ c
  match x, g with
  | .num _ _, .num n q =>
    let e := if f = 0x19 then geluDerivQ x.signed else siluDerivQ x.signed
    let d := if f = 0x19 then Config.geluDeriv (w32 x) (w32 g) else Config.siluDeriv (w32 x) (w32 g)
    if q = 0 || nearTo (g.signed * e) 4 r.1 then r
    else tally0 ftz true true (bounded (g.signed * e) 4 (n != decide (e < 0)) d) c
  | _, _ => r

/-- R146, R148: one element of the elementwise derivatives. -/
def derivElem (ftz : Bool) (f : Nat) (imm y g : FVal) (at_ : Nat × Nat × Nat) (c : Counts) : FVal × Counts :=
  if y == .nan || g == .nan then (.nan, c)
  else if f = 0x10 then (if flt FVal.zero y then g else FVal.zero, c)
  else if f = 0x11 then if fle FVal.zero y then (g, c) else stepR ftz (fmul at_ g imm c)
  else if f = 0x12 then
    let t := stepR ftz (fadd at_ one y.negate c)
    let t := stepR ftz (fmul at_ y t.1 t.2)
    stepR ftz (fmul at_ g t.1 t.2)
  else if f = 0x13 then
    let m := if y.isNeg then y.negate else y
    let a := stepR ftz (fadd at_ one m.negate c)
    let b := stepR ftz (fadd at_ one m a.2)
    let t := stepR ftz (fmul at_ a.1 b.1 b.2)
    stepR ftz (fmul at_ g t.1 t.2)
  else if f = 0x14 then stepR ftz (fmul at_ g y c)
  else derivT ftz f y g at_ c

/-- R146: SOFTMAX's derivative over one row. The k of an invalid operation is i0, for the sum and for the element's own
final product, which R129 leaves open. DESIGN CHOICE (log 108). -/
def derivSoftmax (ftz : Bool) (base : Nat) (ys gs : List FVal) (c : Counts) : List FVal × Counts :=
  let ps := (List.range ys.length).foldl (fun (a : List FVal × Counts) k =>
    let m := stepR ftz (fmul (base + k, 0, k) (gs.getD k FVal.zero) (ys.getD k FVal.zero) a.2)
    (a.1 ++ [m.1], m.2)) ([], c)
  let sm : FVal × Counts := match ps.1 with
    | [] => (FVal.zero, ps.2)
    | x :: r => r.foldl (fun (a : (FVal × Counts) × Nat) y =>
        (stepR ftz (fadd (base + a.2, 0, a.2) a.1.1 y a.1.2), a.2 + 1)) ((x, ps.2), 1) |>.1
  (List.range ys.length).foldl (fun (a : List FVal × Counts) k =>
    let at_ := (base + k, 0, k)
    let t := stepR ftz (fadd at_ (gs.getD k FVal.zero) sm.1.negate a.2)
    let m := stepR ftz (fmul at_ (ys.getD k FVal.zero) t.1 t.2)
    (a.1 ++ [m.1], m.2)) ([], sm.2)

def derivVals (ftz : Bool) (f : Nat) (imm : FVal) (va : View) (ys gs : List (FVal × Bool)) (c : Counts) :
    List (FVal × Bool) × Counts :=
  if f = 0x22 then
    (List.range (nvec va)).foldl (fun (a : List (FVal × Bool) × Counts) j =>
      let y := (ys.drop (j * va.sz0)).take va.sz0
      let g := (gs.drop (j * va.sz0)).take va.sz0
      let bad := y.any (·.2) || g.any (·.2)
      let r := derivSoftmax ftz (j * va.sz0) (y.map (·.1)) (g.map (·.1)) a.2
      (a.1 ++ r.1.map (fun x => (x, bad)), r.2)) ([], c)
  else
    (List.range ys.length).foldl (fun (a : List (FVal × Bool) × Counts) n =>
      let y := ys.getD n (FVal.zero, false)
      let g := gs.getD n (FVal.zero, false)
      let r := derivElem ftz f imm y.1 g.1 (n, 0, 0) a.2
      (a.1 ++ [(r.1, y.2 || g.2)], r.2)) ([], c)

def derivWork (i : Iss) (lines : List (Nat × List Byte × Bool)) (s : State) : State :=
  let ftz := ctxFtz s i.ctx
  let ab := viewBytes s i.pl lines i.va
  let bb := viewBytes s i.pl lines i.vb
  let ys := viewVals ftz ab i.va i.pl.k (ctxScale s i.ctx i.va.scale) Counts.none
  let gs := viewVals ftz bb i.vb i.pl.k (ctxScale s i.ctx i.vb.scale) ys.2
  let us := derivVals ftz (u8 i.d 10) (f32 (BitVec.ofNat 32 (u32 i.d 12))) i.va ys.1 gs.1 gs.2
  let q := quantView ftz i.vc i.pl.k (ctxScale s i.ctx i.vc.scale) us.1 us.2 (StatFig.zero i.vc.scale)
  let s1 := consumeView i bb i.vb (consumeView i ab i.va s)
  setCounts i q.2.1 [q.2.2] (holdWrites i i.vc q.1 s1)

/-! ## RNG_FILL -/

def rngFaults (s : State) (i : Iss) : List (Bool × Nat) :=
  vecPlaces s i [i.vc] ++
  [(i.vc.fmt == 10, 0x06),
   (2 < u8 i.d 10 || u8 i.d 11 != 0 || !(tailZero i.d 30) || (u32 i.d 22 != 0 && !i.vc.gix) ||
      (u32 i.d 26 != 0 && u8 i.d 10 != 1), 0x0A)]

/-- R157: the element index of linear index n, modulo 2^64. -/
def rngIndex (i : Iss) (n : Nat) : Nat :=
  (u48 i.d 16 + n + (if i.vc.gix then i.pl.k * u32 i.d 22 else 0)) % 2 ^ 64

/-- R157: the value that a UNIFORM or NORMAL element is quantised from. -/
def rngVal (c : Ctx) (i : Iss) (n : Nat) : FVal :=
  let e := rngIndex i n
  let tensor := BitVec.ofNat 32 (u32 i.d 12)
  if u8 i.d 10 = 0 then
    let w := marlWord (marl10 c.stepSeed c.step (BitVec.ofNat 64 (e / 4)) tensor) (e % 4)
    .num false (mkRat (Int.ofNat (w.toNat / 256)) (2 ^ 24))
  else
    let b := marl10 c.stepSeed c.step (BitVec.ofNat 64 (e / 2)) tensor
    let wa := marlWord b (2 * (e % 2))
    let wb := marlWord b (2 * (e % 2) + 1)
    let z := normalQ (mkRat (Int.ofNat (wa.toNat / 256 + 1)) (2 ^ 24)) (mkRat (Int.ofNat (wb.toNat / 256)) (2 ^ 24))
    bounded z 6 false (Config.normal wa wb)

/-- R157: a BERNOULLI element: the encoding of 0 or of 1. -/
def rngBit (c : Ctx) (i : Iss) (n : Nat) : Nat :=
  let e := rngIndex i n
  let w := marlWord (marl10 c.stepSeed c.step (BitVec.ofNat 64 (e / 4)) (BitVec.ofNat 32 (u32 i.d 12))) (e % 4)
  if w.toNat < u32 i.d 26 then 0 else pack i.vc.fmt one

/-- Read from the spec by inference: DEDUCED (log 85). -/
def rngWork (i : Iss) (_ : List (Nat × List Byte × Bool)) (s : State) : State :=
  match ctxOf s i.ctx with
  | none => s
  | some c =>
    let ns := List.range (nelem i.vc)
    if u8 i.d 10 = 1 then
      holdWrites i i.vc (rawView i.vc i.pl.k (ns.map (fun n => (rngBit c i n, false)))) s
    else
      let q := quantView (ctxFtz s i.ctx) i.vc i.pl.k (ctxScale s i.ctx i.vc.scale)
        (ns.map (fun n => (rngVal c i n, false))) Counts.none (StatFig.zero i.vc.scale)
      let marks : Counts := { Counts.none with ftzHit := q.2.1.ftzHit, ufl := q.2.1.ufl }
      setCounts i marks [q.2.2] (holdWrites i i.vc q.1 s)

/-! ## ROUTE -/

def routeWords (i : Iss) : Nat :=
  let e := i.va.sz0
  16 + e + 2 * e * u16 i.d 12 + nvec i.va * u8 i.d 10

def routeFaults (s : State) (i : Iss) : List (Bool × Nat) :=
  let e := i.va.sz0
  let t := nvec i.va
  let k := u8 i.d 10
  vecPlaces s i [i.va, i.vc] ++
  [(decide (4 < i.va.fmt), 0x06),
   (e < 1 || 256 < e || t < 1 || 65535 < t || k < 1 || 8 < k || e < k || 1 < u8 i.d 11 || u16 i.d 12 < 1 ||
      4096 < u16 i.d 12 || !(tailZero i.d 14), 0x0A),
   (decide (65535 < routeWords i), 0x0A),
   (i.vc.fmt != 0 || i.vc.st0 != 1 || i.vc.sz1 != 1 || i.vc.sz2 != 1 || i.vc.sz3 != 1 || i.vc.sz0 < routeWords i, 0x0A)]

/-- R174: a ranks before b. -/
def ranksAbove (a b : FVal) : Bool :=
  match a, b with
  | .nan, _ => false
  | _, .nan => true
  | a, b => flt b a

/-- Expert x put into a ranking, after those that do not rank below it. -/
def rankIn (row : List FVal) (x : Nat) : List Nat → List Nat
  | [] => [x]
  | y :: r => if ranksAbove (row.getD x .nan) (row.getD y .nan) then x :: y :: r else y :: rankIn row x r

/-- R174: the experts of a token, largest score first, TOPK of them. -/
def topk (k : Nat) (row : List FVal) : List Nat :=
  ((List.range row.length).foldl (fun l x => rankIn row x l) []).take k

structure RouteAcc where
  words : NatMap Nat
  count : NatMap Nat
  placed : Nat
  dropped : Nat
  hit : List Nat        -- experts that dropped an assignment
  counts : Counts
  deriving DecidableEq, Repr

/-- R175, R176: one token. -/
def routeToken (ftz : Bool) (e k cap gate : Nat) (a : RouteAcc) (t : Nat) (row : List FVal) : RouteAcc :=
  let tm := 16 + e + 2 * e * cap
  let sel := topk k row
  let ss := sel.map (fun x => row.getD x .nan)
  let gs : List FVal × Counts :=
    if gate = 0 then (ss, a.counts)
    else shares ftz Config.gate (fun r => (tm + k * t + r, 0, r)) (ss.getD 0 .nan) ss a.counts
  (List.range sel.length).foldl (fun (a : RouteAcc) r =>
    let x := sel.getD r 0
    let g := if gate = 0 then (gs.1.getD r .nan, a.counts) else rne32 ftz (gs.1.getD r .nan) a.counts
    let a := { a with counts := g.2 }
    let n := nmGetD a.count x 0
    if n < cap then
      let w := 16 + e + 2 * (x * cap + n)
      { a with words := nmSet (tm + k * t + r) (x * cap + n) (nmSet (w + 1) (w32 g.1).toNat (nmSet w t a.words))
               count := nmSet x (n + 1) a.count, placed := a.placed + 1 }
    else
      { a with words := nmSet (tm + k * t + r) 0xFFFFFFFF a.words, dropped := a.dropped + 1, hit := addOnce x a.hit })
    { a with counts := gs.2 }

/-- Read from the spec by inference: DEDUCED (log 85). -/
def routeWork (i : Iss) (lines : List (Nat × List Byte × Bool)) (s : State) : State :=
  let ftz := ctxFtz s i.ctx
  let e := i.va.sz0
  let t := nvec i.va
  let k := u8 i.d 10
  let cap := u16 i.d 12
  let ab := viewBytes s i.pl lines i.va
  let xs := viewVals ftz ab i.va i.pl.k (ctxScale s i.ctx i.va.scale) Counts.none
  let vals := xs.1.map (·.1)
  let bad := xs.1.any (·.2)
  let a := (List.range t).foldl (fun a n => routeToken ftz e k cap (u8 i.d 11) a n ((vals.drop (n * e)).take e))
    { words := [], count := [], placed := 0, dropped := 0, hit := [], counts := xs.2 }
  let nans := (vals.filter (fun x => x == .nan)).length
  let hdr := [t, e, k, cap, t * k, a.placed, a.dropped, a.hit.length, nans]
  let word (n : Nat) : Nat :=
    if n < 16 then hdr.getD n 0
    else if n < 16 + e then nmGetD a.count (n - 16) 0
    else match nmGet a.words n with
      | some w => w
      | none => if (n - 16 - e) % 2 = 0 then 0xFFFFFFFF else 0
  let ws := (List.range (routeWords i)).map (fun n => (elemBit i.vc i.pl.k n 0 0 0, 32, word n, bad))
  let s1 := consumeView i ab i.va s
  let s1 := setCounts i a.counts [] (holdWrites i i.vc ws s1)
  bump i.g 0x1A (e * cap - a.placed) (bump i.g 0x19 a.dropped s1)

/-! ## Cached operands (R61) -/

/-- The views that the descriptor reads or writes through the cache. -/
def vecViews (i : Iss) : List View :=
  let op := dOp i.d
  (if op = 0x08 then [] else [i.va]) ++ (if (op = 0x05 && vecTwo (u8 i.d 10)) || op = 0x06 then [i.vb] else []) ++ [i.vc]

def vecEmpty (i : Iss) : Bool := nelem i.vc == 0

/-- Read from the spec by inference: DEDUCED (log 84). -/
def vecDo (i : Iss) (lines : List (Nat × List Byte × Bool)) (s : State) : State :=
  let s := setWaitFor i .nothing s
  if dOp i.d = 0x05 then vecWork i lines s
  else if dOp i.d = 0x06 then derivWork i lines s
  else if dOp i.d = 0x08 then rngWork i lines s
  else routeWork i lines s

/-- The lines of the descriptor, in order: the first that is missing is requested and holds it; when none is, it runs. -/
def touchLines (i : Iss) : List Nat → State → State
  | [], s =>
    match outDOf s i.g i.ser with
    | some o => vecDo i o.lines s
    | none => s
  | va :: r, s =>
    match outDOf s i.g i.ser with
    | none => s
    | some o =>
      if o.lines.any (fun l => l.1 == va) then touchLines i r s
      else match cacheFind (physOf s i.pl.q) i.ctx va with
        | some l =>
          let s := bump i.g 0x20 1 (cacheTouch i.pl va s)
          touchLines i r (updOut i.g i.ser (fun o => { o with lines := o.lines ++ [(va, l.data, l.poison)] }) s)
        | none =>
          let s := setWaitFor i (.fill va) (bump i.g 0x21 1 s)
          match objAt s i.ctx va with
          | some o => addReq i.ctx i.g i.ser o (va - o.base) (.fill i.t va) s
          | none => s

/-- The lines of every cached operand. -/
def vecLines (s : State) (i : Iss) : List Nat :=
  (vecViews i).foldl (fun l v => (viewLines s i.pl v).foldl (fun l a => addOnce a l) l) []

def vecAct (i : Iss) (s : State) : State :=
  if vecEmpty i then noEffect i s else touchLines i (vecLines s i) s

def doVec (g t : Nat) (s : State) : State := issueRow (fun d => dOp d == 0x05) vecFaults vecAct g t s
def doVecDeriv (g t : Nat) (s : State) : State := issueRow (fun d => dOp d == 0x06) derivFaults vecAct g t s
def doRngFill (g t : Nat) (s : State) : State := issueRow (fun d => dOp d == 0x08) rngFaults vecAct g t s
def doRoute (g t : Nat) (s : State) : State := issueRow (fun d => dOp d == 0x30) routeFaults vecAct g t s

/-- VECTOR_CHECK_FAULT (R381): a record, a strike, and the step is lost. -/
def doVectorCheckFault (g ser elem : Nat) (s : State) : State :=
  match nmGet s.grains g with
  | none => s
  | some gr =>
    match gr.out.find? (fun o => o.ser == ser) with
    | none => s
    | some o =>
      if engineOf (dOp o.desc) != some 3 then s
      else
        let s := postRec 0x04 2 (some gr.ctx) (dieOfPed2 gr.ped2) g [(0, 8, o.daddr.toNat), (8, 1, o.t), (12, 4, elem)] s
        stopSeg gr.ctx .vectorCheck stSTEP_LOST (takeStrike g s)

def execVec (g t : Nat) (s : State) : Host.Outcome State Fault Refusal := .next (doVec g t s)
def execVecDeriv (g t : Nat) (s : State) : Host.Outcome State Fault Refusal := .next (doVecDeriv g t s)
def execRngFill (g t : Nat) (s : State) : Host.Outcome State Fault Refusal := .next (doRngFill g t s)
def execRoute (g t : Nat) (s : State) : Host.Outcome State Fault Refusal := .next (doRoute g t s)
def execVectorCheckFault (g ser elem : Nat) (s : State) : Host.Outcome State Fault Refusal :=
  .next (doVectorCheckFault g ser elem s)

end Sys2Proof.Machine
end

