-- ==== Sys2Proof/Machine/Dma.lean ====
section
/-! DEFINITION. Transfers between the local store and the horizons (R201-R208): DMA_GET and DMA_PUT, their requests and
the answers to them, tags (R206, R207), ATOM descriptors (R377), and the ladder of a guarded DMA_GET (R185, R215). -/

namespace Sys2Proof.Machine

open Sys2Proof

/-! ## Clods, as the covered writes see them (R374, R376, R377) -/

def clodKeyOf (s : State) (g t : Nat) : Option Nat :=
  ((nmGet s.grains g).bind (fun gr => nmGet gr.thr t)).bind (·.clod)

def clodBy (s : State) (key : Nat) : Option Clod := s.clods.find? (fun c => c.key == key)

def updClod (key : Nat) (f : Clod → Clod) (s : State) : State :=
  { s with clods := updWhere (fun c => c.key == key) f s.clods }

/-- Prepared bytes of a ped-2 (R374): those of an ATOM descriptor count whole from its issue on (R377).
DEDUCED (log 89). -/
def pedPrepared (s : State) (p : Nat) : Nat :=
  s.clods.foldl (fun n c =>
    let here := c.preps.foldl (fun n e => if logicalPed2 e.1 = p then n + e.2.1 else n) 0
    n + match c.atom with
      | some (g, _) => if logicalPed2 g = p then max c.size here else here
      | none => here) 0

def pedClods (s : State) (p : Nat) : Nat := (s.clods.filter (fun c => c.members.any (fun g => logicalPed2 g == p))).length

/-- R374, R377: a covered write, or an ATOM descriptor, of `n` bytes more would pass a limit of its ped-2.
DEDUCED (log 86). -/
def preparedBad (s : State) (i : Iss) (covered : Bool) (n : Nat) : Bool :=
  let inClod := covered && (clodKeyOf s i.g i.t).isSome
  ((inClod || dAtom i.d) && 65536 < pedPrepared s i.ped2 + n) || (dAtom i.d && !inClod && 16 ≤ pedClods s i.ped2)

/-- R377: the bytes that an ATOM descriptor prepares at its ped-2: of a SIEVE_SCATTER its ids, of a WIN_PUT none, since
its target holds them (R374), of another one what it moves. DEDUCED (log 86). -/
def atomBytes (i : Iss) : Nat :=
  if dOp i.d = 0x15 then 4 * nelem i.vb
  else if dOp i.d = 0x12 then 0
  else (nelem i.vc * fmtW i.vc.fmt + 7) / 8

/-- R377: an ATOM descriptor is a clod of its own. DEDUCED (log 86). -/
def openAtom (i : Iss) (s : State) : Nat × State :=
  (s.nextClod, { s with
    nextClod := s.nextClod + 1
    clods := s.clods ++ [{ key := s.nextClod, ctx := i.ctx, cid := 0, ped := 0, t := i.t, members := [i.g],
                           committed := [], preps := [], failed := none, explicitAbort := false, size := atomBytes i
                           atom := some (i.g, i.ser) }] })

/-- A part of a clod failed: the first failure stands. -/
def failClod (key : Nat) (cause : W16) (g part : Nat) (daddr : W64) (s : State) : State :=
  updClod key (fun c => { c with failed := match c.failed with | none => some (cause, g, part, daddr) | x => x }) s

def addPrep (key g bytes : Nat) (p : Prep) (s : State) : State :=
  updClod key (fun c => { c with preps := c.preps ++ [(g, bytes, p)] }) s

/-- R376: the record of an abort that was not explicit, and its status. DEDUCED (log 90). -/
def clodAbortRec (c : Clod) (s : State) : State :=
  match c.failed with
  | none => s
  | some (cause, g, part, a) =>
    let s := postRec 0x09 1 (some c.ctx) (dieOfPed2 (logicalPed2 g)) g
      [(0, 1, c.cid), (2, 2, cause.toNat), (4, 4, part), (8, 8, a.toNat)] s
    match segOf s c.ctx with
    | some r => if r.status.isNone then segStatus c.ctx stABORTED_TXN s else s
    | none => s

/-- The local writes of an outstanding descriptor wait for the DMA slots of its grain (R63). -/
def laneWrite (why : LaneFor) (g ser : Nat) (ws : List BitW) (s : State) : State :=
  match nmGet s.grains g, cutLanes ws with
  | some gr, w :: r =>
    queueLanes (physId s g)
      { id := 0, ser := ser, ctx := gr.ctx, g := g, why := why, issue := s.clk.pcc, owner := 3, far := false
        view := match outDOf s g ser with | some o => dVC o.desc | none => 0xFF
        all := ws, ws := w :: r, rd := [] } s
  | _, _ => s

def localWrite (g ser : Nat) (ws : List BitW) (s : State) : State := laneWrite .desc g ser ws s

/-- A prepared write takes effect, but for contributions to a sieve table. -/
def applyPrep (ctx : Nat) (e : Nat × Nat × Prep) (s : State) : State :=
  match e.2.2 with
  | .mem h vi bits => noteObj ctx e.1 vi h bits (objWriteBits h bits s)
  | .loc g ser bits => localWrite g ser bits s
  | .sem ped idx n => semAdd ctx ped idx n e.1 s
  | .win _ => s
  | .add _ _ _ _ => s

/-- Prepared writes take effect, in order. -/
def applyAll (ctx : Nat) (l : List (Nat × Nat × Prep)) (s : State) : State := l.foldl (fun s e => applyPrep ctx e s) s

/-- The ATOM descriptor has every answer: its parts take effect together, or none does (R377). -/
def endAtom (g ser : Nat) (apply : Nat → List (Nat × Nat × Prep) → State → State) (s : State) : State :=
  match s.clods.find? (fun c => c.atom == some (g, ser)) with
  | none => s
  | some c =>
    let s := { s with clods := s.clods.filter (fun x => x.key != c.key) }
    let s := (clodTargets c).foldl (fun s d => emit (.clodDecision d c.key c.failed.isNone) s) s
    if c.failed.isNone then apply c.ctx c.preps s else clodAbortRec c s

/-! ## Copies of granules and their requests (R212-R214) -/

/-- The die whose hub a copy's requests are issued at: the one that serves them. DEDUCED (log 88). -/
def dieOfPool : Pool → Nat
  | .hz1 st => st
  | .tdie t => 56 + t
  | .port p => 62 + p
  | .ldie l => 48 + l

/-- R167: the die hubs of a hub transfer's ped. -/
def xferDies (s : State) (ctx idx : Nat) : List Nat :=
  match (segOf s ctx).bind (fun r => r.d.xfers[idx]?) with
  | none => []
  | some e => match pedOf s ctx e.ped with
    | .ok l => (pedSetPed2s l).foldl (fun l p => addOnce (dieOfPed2 p) l) []
    | .error _ => []

/-- The die hub of a copy's requests: that of the ped for a KIND 1 transfer (R167), taken in turn granule by granule, and
the one that serves them for every other copy. DESIGN CHOICE (log 88). -/
def copyDie (w : CopyOf) (o : Obj) (s : State) (p : Pool) : Nat :=
  match w with
  | .xfer idx j => let l := xferDies s o.ctx idx; l.getD (j % max l.length 1) (dieOfPool p)
  | _ => dieOfPool p

/-- The request of unit u of a copy of granule j, at a place of it. -/
def copyReq (w : CopyOf) (write : Bool) (o : Obj) (j : Nat) (l : Loc) (u : Nat) (s : State) : Req :=
  let va := o.base + j * 65536 + 256 * (u % 256)
  let sv := poolAt s o va l
  { reqNew o.ctx 0xFFFFFFFF 0 (handleOf o) (va / 256) (.copy w write u) sv (copyDie w o s sv.1) with
    nv := (match l with | .hz3 d a => some (d, (List.range 16).map (fun i => a / 4096 + i)) | _ => none) }

/-- The requests of a copy of granule j at a place: one for each unit, or one for a granule of a drive (R204). -/
def copyUnits (w : CopyOf) (write : Bool) (o : Obj) (j : Nat) (l : Loc) (s : State) : State :=
  match l with
  | .hz3 _ _ => enterReq (copyReq w write o j l 256 s) s
  | _ => (List.range 256).foldl (fun s u => enterReq (copyReq w write o j l u s) s) s

/-- A request of the copy is open: with `reads`, one that reads. -/
def copyOpen (s : State) (h : W32) (w : CopyOf) (reads : Bool) : Bool :=
  s.hz.reqs.any (fun q => q.handle == h && (match q.kind with
    | .copy x wr _ => x == w && !(reads && wr)
    | _ => false))

/-- Requests of a copy that is given up are dropped. -/
def dropCopy (h : W32) (pick : CopyOf → Bool) (s : State) : State :=
  let gone := (s.hz.reqs.filter (fun q => q.handle == h && (match q.kind with | .copy x _ _ => pick x | _ => false))).map (·.id)
  updHz (fun z => { z with
    reqs := z.reqs.filter (fun q => !(q.id ∈ gone))
    copyBad := z.copyBad.filter (fun e => !(e.1 == h && pick e.2.1))
    nvme := z.nvme.filter (fun n => n.reqs = [] || !(n.reqs.all (fun r => r ∈ gone))) }) s

/-- Where a granule of a migration goes. -/
def moveDest (s : State) (m : Mig) (o : Obj) (x : MigG) : Loc :=
  if m.hzn = 1 then .hz1 (x.frame * 65536)
  else if m.hzn = 2 then .hz2 (x.frame * 65536)
  else if m.hzn = 3 then .hz3 (s.hz.drives.getD ((x.granule + o.idx) % max s.hz.drives.length 1) 0) (x.frame * 65536)
  else .hz4 m.unit (x.frame * 65536)

/-- The granule and the place that a copy writes to, and its object as it is spread there. -/
def copyDest (s : State) (o : Obj) (w : CopyOf) : Option (Obj × Nat × Loc) :=
  match w with
  | .move j =>
    (s.hz.migs.find? (fun m => m.handle == handleOf o && m.left.any (fun x => x.granule == j))).bind (fun m =>
      (m.left.find? (fun x => x.granule == j)).map (fun x =>
        ({ o with spread := m.spread, home := m.home }, j, moveDest s m o x)))
  | .promo j =>
    (s.hz.promos.find? (fun p => p.handle == handleOf o && p.granule == j)).map (fun p => (o, j, .hz1 (p.frame * 65536)))
  | .xfer idx j =>
    (segOf s o.ctx).bind (fun r => (r.xfers[idx]?).bind (fun x => (nmGet x.frames j).map (fun f =>
      (o, j, .hz1 (f * 65536)))))
  | .evict j => some (o, j, homeLoc o (j * 65536))
  | _ => none

/-- R379: an HZ1 or HZ2 frame that returned an uncorrectable error is to be retired. -/
def noteBadFrame (o : Obj) (off : Nat) (s : State) : State :=
  match locOf o off with
  | .hz1 a => updHz (fun h => { h with toRetire := addOnce (1, a / 65536, (hz1Chan o (o.base + off)).1) h.toRetire }) s
  | .hz2 a => updHz (fun h => { h with toRetire := addOnce (2, a / 65536, hz2Chan s (o.base + off)) h.toRetire }) s
  | _ => s

/-- How a request of a copy ended (R223, R378): host memory that failed is noted, and bad data poisons its words. -/
def copyAnswer (q : Req) (w : CopyOf) (write : Bool) (u : Nat) (ans : HzAnswer) (s : State) : State :=
  match objOf s q.handle with
  | none => s
  | some o =>
    let off := q.unit * 256 - o.base
    let l : Loc := match q.pool with | .port p => .hz4 p 0 | _ => .hz1 0
    match hz4CauseAt s o l ans with
    | some c =>
      let s := hz4Failure o off c s
      (match w with
        | .hotRow _ _ _ => s
        | .merge _ _ => s
        | _ => updHz (fun z => { z with copyBad := z.copyBad ++ [(q.handle, w, u, write)] }) s)
    | none => if ans = .poisoned && !write then
        noteBadFrame o off (objSetPoison q.handle ((List.range 256).map (fun i => off + i)) s) else s

/-- The granule of a copy whose requests have all been answered is copied; a unit that host memory did not give is
poisoned, and one that it did not take is not written (R223). -/
def copyNow (o : Obj) (w : CopyOf) (j : Nat) (src dst : Loc) (s : State) : State :=
  let bad := s.hz.copyBad.filter (fun e => e.1 == handleOf o && e.2.1 == w)
  let lost := (bad.filter (·.2.2.2)).map (·.2.2.1)
  let gone := (bad.filter (fun e => !e.2.2.2)).map (·.2.2.1)
  let old : List (Nat × Nat × List Byte) := match dst with
    | .hz4 p a => lost.map (fun u => (p, a + 256 * u, memRead (hostMem s p) (a + 256 * u) 256))
    | _ => []
  let s := copyGranule o j src dst s
  let s := old.foldl (fun s e =>
    if e.1 = 0 then updHz (fun h => { h with host0 := memWrite h.host0 e.2.1 e.2.2 }) s
    else updHz (fun h => { h with host1 := memWrite h.host1 e.2.1 e.2.2 }) s) s
  let words (a : Nat) : List Nat := gone.flatMap (fun u => (List.range 4).map (fun i => a / 64 + 4 * u + i))
  updHz (fun z => { z with
    copyBad := z.copyBad.filter (fun e => !(e.1 == handleOf o && e.2.1 == w))
    pois1 := (match dst with | .hz1 a => (words a).foldl (fun l x => addOnce x l) z.pois1 | _ => z.pois1)
    pois2 := (match dst with | .hz2 a => (words a).foldl (fun l x => addOnce x l) z.pois2 | _ => z.pois2)
    pois3 := (match dst with
      | .hz3 d a => gone.foldl (fun l u => addOnce (d, a / 4096 + u / 16) l) z.pois3
      | _ => z.pois3) }) s

/-- R213: a copy that goes back to its home has been written there, and its frame is free; one that was written again
meanwhile stays. DEDUCED (log 81). -/
def evictDone (h : W32) (j : Nat) (s : State) : State :=
  let s := updHz (fun z => { z with evicting := z.evicting.filter (fun e => !(e.1 == h && e.2 == j)) }) s
  match objOf s h with
  | none => s
  | some o =>
    let g := granOf o j
    let s := if g.promo then copyNow o (.evict j) j (.hz1 (g.pframe * 65536)) (homeLoc o (j * 65536)) s else s
    if g.dirty || !g.promo then s
    else freeFrame 1 g.pframe (updObj h (fun o => { o with
      gran := o.gran.set j { granOf o j with promo := false, pframe := 0 } }) s)

/-- A unit of a copy has been read, and is written where the copy goes; a drive is written once the granule is in. The
write of a copy's eviction ends it. DEDUCED (log 88). -/
def copyServed (q : Req) (w : CopyOf) (write : Bool) (u : Nat) (s : State) : State :=
  if write then
    match w with
    | .evict j => if copyOpen s q.handle w false then s else evictDone q.handle j s
    | _ => s
  else match objOf s q.handle with
    | none => s
    | some o =>
      match copyDest s o w with
      | none => s
      | some (o', j, dst) =>
        let whole := u = 256 || (match dst with | .hz3 _ _ => true | _ => false)
        if whole then (if copyOpen s q.handle w true then s else copyUnits w true o' j dst s)
        else enterReq (copyReq w true o' j dst u s) s

/-! ## Reads seen by the horizons: promotion on demand (R213) -/

/-- A read of granule j: its copy's use is noted, or a copy is begun. -/
def noteRead (h : W32) (j : Nat) (s : State) : State :=
  match objOf s h with
  | none => s
  | some o =>
    let e := granOf o j
    if e.promo then
      updObj h (fun o => { o with gran := o.gran.set j { granOf o j with lru := s.clk.pcc.toNat } }) s
    else if o.promote && e.hzn != 1 && !(s.hz.promos.any (fun p => p.handle == h && p.granule == j)) &&
        (o.gran.filter (·.promo)).length < o.promoMax && 0 < freeFrames s 1 then
      let r0 := allocFrame 1 s
      let f := r0.1
      let s := r0.2
      copyUnits (.promo j) false o j (homeLoc o (j * 65536)) (updHz (fun z => { z with promos := z.promos ++
        [{ handle := h, granule := j, frame := f, copied := false, dirtied := false }] }) s)
    else s

/-- The granules of bytes that have been read. -/
def noteReads (h : W32) (offs : List Nat) (s : State) : State :=
  (offs.foldl (fun l off => addOnce (off / 65536) l) []).foldl (fun s j => noteRead h j s) s

/-! ## Moves (R202, R203) -/

/-- A bit within the far object, a bit of the scratchpad, and a width. -/
abbrev Move := Nat × Nat × Nat

/-- One piece of a transfer: far bit (none: zeros come from nowhere), local bit (none: zeros go out), width. -/
abbrev Piece := Option Nat × Option Nat × Nat

/-- Where the elements or blocks of row r begin, each with its width, in ascending i0. -/
def rowBits (v : View) (k r : Nat) : List (Nat × Nat) :=
  if v.fmt = 10 then
    (List.range (v.sz0 / 32)).flatMap (fun b =>
      (List.range 33).map (fun x => (8 * (33 * (linBit v k (r * v.sz0 + 32 * b) / 8 / 32) + x), 8)))
  else (List.range v.sz0).map (fun x => (linBit v k (r * v.sz0 + x), fmtW v.fmt))

def rowMove (far loc : View) (k rf rl : Nat) : List Piece :=
  (List.zip (rowBits far k rf) (rowBits loc k rl)).map (fun e => (some e.1.1, some e.2.1, e.1.2))

def isIndexed (d : List Byte) : Bool := bitAt (u8 d 10) 1
def idxSide (d : List Byte) : Bool := bitAt (u8 d 10) 2

/-- The index entries, each with its poison. -/
def idxList (s : State) (p : Place) (d : List Byte) : List (Nat × Bool) :=
  (List.range (u16 d 18)).map (fun n =>
    let a := u32 d 12 + 4 * u16 d 16 * n
    (leNat (lsRead s p a 4), lsPoisoned s p a 4))

/-- The pieces of a transfer in the order in which it moves them. `get`: the far view is the source. -/
def dmaPieces (s : State) (i : Iss) (get : Bool) (far loc : View) : List Piece :=
  let k := i.pl.k
  if !(isIndexed i.d) then (List.range (nvec far)).flatMap (fun r => rowMove far loc k r r)
  else
    let src := if get then far else loc
    let dst := if get then loc else far
    let pair (rs rd : Nat) : List Piece := if get then rowMove far loc k rs rd else rowMove far loc k rd rs
    ((idxList s i.pl i.d).zip (List.range (u16 i.d 18))).flatMap (fun e =>
      let x := e.1.1
      let n := e.2
      if !(idxSide i.d) then
        if x = 0xFFFFFFFF || nvec src ≤ x then
          (rowBits dst k n).map (fun b => if get then (none, some b.1, b.2) else (some b.1, none, b.2))
        else pair x n
      else if x = 0xFFFFFFFF || nvec dst ≤ x then [] else pair n x)

/-- Out-of-range entries (R203). -/
def badIndices (s : State) (i : Iss) (get : Bool) (far loc : View) : Nat :=
  if !(isIndexed i.d) then 0
  else
    let side := if idxSide i.d == get then loc else far
    ((idxList s i.pl i.d).filter (fun e => e.1 == 0xFFFFFFFF || nvec side ≤ e.1)).length

/-- The key of a later piece hides an earlier one with the same key: the later row stands (R203). DEDUCED (log 86). -/
def hideOld {α : Type} (key : α → Option Nat) (off : α → α) : List α → List α
  | [] => []
  | x :: r => (if (key x).isSome && r.any (fun y => key y == key x) then off x else x) :: hideOld key off r

/-- A move cut where it crosses a 256-byte unit. -/
def cutMove (m : Move) : List Move :=
  let room := 2048 - m.1 % 2048
  if m.2.2 ≤ room then [m] else [(m.1, m.2.1, room), (m.1 + room, m.2.1 + room, m.2.2 - room)]

/-- R204: maximal runs of moves whose bytes lie in one unit. -/
def groupMoves (ms : List Move) : List (List Move) :=
  (ms.foldl (fun (a : List (Nat × List Move)) m =>
    match a with
    | (u, l) :: r => if u = m.1 / 2048 then (u, l ++ [m]) :: r else (m.1 / 2048, [m]) :: (u, l) :: r
    | [] => [(m.1 / 2048, [m])]) []).reverse.map (·.2)

/-- R204: requests to HZ3 in one granule are folded into one. DEDUCED (log 88). -/
def foldHz3 (o : Obj) (gs : List (List Move)) : List (List Move) :=
  let gran (l : List Move) : Option Nat :=
    match l with
    | [] => none
    | m :: _ => match locOf o (m.1 / 8) with | .hz3 _ _ => some (m.1 / 8 / 65536) | _ => none
  gs.foldl (fun acc l =>
    match gran l with
    | none => acc ++ [l]
    | some j => if acc.any (fun x => gran x == some j) then updWhere (fun x => gran x == some j) (fun x => x ++ l) acc
        else acc ++ [l]) []

/-- A request of a descriptor, as a part of a clod where it is one. -/
def addPart (i : Iss) (o : Obj) (off part : Nat) (clod : Option Nat) (kind : ReqKind) (s : State) : State :=
  bump i.g 0x24 1
    (addReqAt (dieOfPed2 i.ped2) i.ctx i.g i.ser o off (kindOffs off kind) kind clod part s)

/-- Read requests for moves out of an object. -/
def readParts (i : Iss) (o : Obj) (clod : Option Nat) (mk : List Move → ReqKind) (ms : List Move) (s : State) : State :=
  let gs := foldHz3 o (groupMoves (ms.flatMap cutMove))
  (List.zip gs (List.range gs.length)).foldl (fun s e =>
    match e.1 with
    | [] => s
    | m :: _ => addPart i o (m.1 / 8) e.2 clod (mk e.1) s) s

/-! ## Faults -/

def dmaFlush (d : List Byte) : Bool := dOp d == 0x11 && bitAt (u8 d 10) 0

/-- Read from the spec by inference: DEDUCED (log 85). -/
def dmaFaults (s : State) (i : Iss) : List (Bool × Nat) :=
  let get := dOp i.d == 0x10
  let far := if get then i.va else i.vc
  let loc := if get then i.vc else i.va
  let src := i.va
  let dst := i.vc
  let idx := isIndexed i.d
  let fl := bitAt (u8 i.d 10) 0
  let tail : List (Bool × Nat) :=
    [(bits (u8 i.d 10) 3 5 != 0 || u8 i.d 11 != 0 || !(tailZero i.d 20), 0x0A),
     (!idx && (idxSide i.d || !(allZero (slice i.d 12 8))), 0x0A)]
  if dmaFlush i.d && dVA i.d = 0xFF && dVC i.d = 0xFF then tail ++ [(idx, 0x0A)]
  else
    let fixed := if idxSide i.d then src else dst
    tail ++
    [(fl, 0x0A),
     (idx && i.pl.scratch < u32 i.d 12 + 4 * u16 i.d 16 * (u16 i.d 18 - 1) + 4, 0x04),
     (isLocal far || !(isLocal loc) || (!get && rdonlyDest s i.ctx far) || (get && outsideStage s i loc), 0x05),
     (src.fmt != dst.fmt, 0x06),
     (!idx && !(sameSizes src dst), 0x0A),
     (idx && (src.sz0 != dst.sz0 || nvec fixed != u16 i.d 18 || u32 i.d 12 % 4 != 0 || u16 i.d 16 == 0 || u16 i.d 18 == 0),
       0x0A),
     (preparedBad s i (!get) ((nelem dst * fmtW dst.fmt + 7) / 8), 0x0A)]

/-! ## The ladder (R185-R187, R215) -/

/-- The guard of a fetch. -/
def guardOf (s : State) (g ser : Nat) : Option Guard :=
  (nmGet s.grains g).bind (fun gr =>
    (gr.thr.flatMap (fun e => e.2.guards)).find? (fun u => u.fetch == some ser))

def updGuard (g ser : Nat) (f : Guard → Guard) (s : State) : State :=
  updGrain g (fun gr => { gr with
    thr := gr.thr.map (fun e => (e.1, { e.2 with guards := updWhere (fun u => u.fetch == some ser) f e.2.guards })) }) s

/-- The granule of the destination that holds a local bit: 256 bytes each, from the lowest byte that is written.
DEDUCED (log 86). -/
def granuleOf (o : OutD) (bit : Nat) : Nat :=
  let low := o.moves.foldl (fun m e => min m (e.2.1 / 8)) (match o.moves with | e :: _ => e.2.1 / 8 | [] => 0)
  (bit / 8 - low) / 256

/-- R186, R187: a rung served a granule: it is counted and logged. -/
def noteRung (ctx g : Nat) (daddr : W64) (rung granule : Nat) (s : State) : State :=
  updCtx ctx (fun c => { c with
    pmc := { c.pmc with late := c.pmc.late.set (rung - 1) (c.pmc.late.getD (rung - 1) 0 + 1) }
    sec := { c.sec with cur := { c.sec.cur with
      rungs := c.sec.cur.rungs ++ [{ daddr := daddr, rung := rung, g := g, granule := granule }] } } }) s

/-- R185: data of an abandoned source came after its cut-off: one late arrival for each request of it that is answered; the
rule does not say whether granules, rows or requests are counted. DESIGN CHOICE (log 117). -/
def noteLateArr (ctx : Nat) (s : State) : State :=
  updCtx ctx (fun c => { c with pmc := { c.pmc with late := c.pmc.late.set 3 (c.pmc.late.getD 3 0 + 1) } }) s

/-- The step runs again: R366-R369. -/
def inRerun (s : State) (ctx : Nat) : Bool :=
  match ctxOf s ctx with
  | some c => c.sec.rerunTill.isSome || c.sec.replayCid.isSome
  | none => false

/-- The complete strata entry of the step that runs again (R368, R369). -/
def logEntry (s : State) (ctx : Nat) : Option StrataEnt :=
  match ctxOf s ctx with
  | none => none
  | some c => if inRerun s ctx then c.sec.strata.find? (fun e => e.step == c.step && e.complete) else none

/-- R187, R368: the step runs from its log. The lost step has no complete entry: it runs as a new step. -/
def fromLog (s : State) (ctx : Nat) : Bool := (logEntry s ctx).isSome

/-- R187: the rungs that the log holds for a guarded fetch of the step that runs again: granule and rung. -/
def loggedRungs (s : State) (ctx g : Nat) (daddr : W64) : List (Nat × Nat) :=
  match logEntry s ctx with
  | none => []
  | some e => (e.rungs.filter (fun r => r.daddr == daddr && r.g == g)).map (fun r => (r.granule, r.rung))

/-- Does the descriptor still wait for something: a live request, a line that goes back, or an unserved granule. -/
def fetchOpen (s : State) (g ser : Nat) : Bool :=
  s.hz.reqs.any (fun q => q.g == g && q.ser == ser && !q.dead) ||
    lanesWait s (physId s g) (fun e => e.g == g && e.ser == ser && (match e.why with | .back _ => true | _ => false)) ||
    (match guardOf s g ser with | some u => u.late != [] | none => false)


/-- Granules that rung n serves are counted and leave the ladder, once their data is in and written (R185). -/
def rungServed (g ser n : Nat) (js : List Nat) (s : State) : State :=
  match outDOf s g ser, nmGet s.grains g, guardOf s g ser with
  | some o, some gr, some u =>
    let reqsOf (j : Nat) : Bool := s.hz.reqs.any (fun r => r.g == g && r.ser == ser && !r.dead &&
      (match r.kind with | .rung _ l => l.any (fun m => m.2.2 != 0 && granuleOf o m.2.1 == j) | _ => false))
    let lanesOf (j : Nat) : Bool := lanesWait s (physId s g) (fun e => e.ser == ser && e.why == .rung n &&
      e.ws.any (fun w => granuleOf o w.1 == j))
    (js.filter (fun j => j ∈ u.late && !(reqsOf j) && !(lanesOf j))).foldl (fun s j =>
      updGuard g ser (fun u => { u with late := del j u.late }) (noteRung gr.ctx g o.daddr n j s)) s
  | _, _, _ => s

/-- R185: what a cut-off source has brought and the slots have not written yet is given up; zeros stay. -/
def dropSource (g ser : Nat) (s : State) : State :=
  updPhys (physId s g) (fun x => { x with pend := x.pend.filter (fun e => !(e.ser == ser && e.g == g && e.why != .rung 3)) }) s

/-- Zeros written to the late granules' bytes (rung 3). -/
def rung3 (i : Iss) (o : OutD) (late : List Nat) (s : State) : State :=
  let ms := o.moves.filter (fun m => granuleOf o m.2.1 ∈ late)
  let s := laneWrite (.rung 3) i.g o.ser (ms.map (fun m => (m.2.1, m.2.2, 0, false))) s
  let s := late.foldl (fun s j => noteRung i.ctx i.g o.daddr 3 j s) s
  updGuard i.g o.ser (fun u => { u with stage := 3, late := [] }) s

/-- R185, R215: late granules go to rung n of a GRANULE ladder, or on where the object lacks it. -/
def rungFrom (i : Iss) (o : OutD) (late : List Nat) (n : Nat) (s : State) : State :=
  let ms := o.moves.filter (fun m => granuleOf o m.2.1 ∈ late)
  let src := ownObj s i.ctx i.va.handle
  let obj1 := (src.bind (fun x => if x.rung1 = 0 || x.fbMode ≠ 0 then none else ownObj s i.ctx x.rung1))
  let obj2 := (src.bind (fun x => if x.rung2 = 0 || x.fbMode ≠ 0 then none else ownObj s i.ctx x.rung2))
  let from2 (s : State) : State :=
    match obj2 with
    | some x =>
      let s := updGuard i.g o.ser (fun u => { u with stage := 2, late := late }) s
      readParts i x none (.rung 2) (ms.map (fun m => (m.1 % (8 * x.size), m.2))) s
    | none => rung3 i o late s
  if n = 1 then
    match obj1 with
    | some x =>
      let s := updGuard i.g o.ser (fun u => { u with stage := 1, late := late }) s
      readParts i x none (.rung 1) ms s
    | none => from2 s
  else if n = 2 then from2 s
  else rung3 i o late s

/-- Every live request of a fetch is abandoned. -/
def abandon (g ser : Nat) (s : State) : State :=
  updHz (fun h => { h with
    reqs := updWhere (fun q => q.g == g && q.ser == ser && !q.dead) (fun q => { q with dead := true }) h.reqs }) s

/-- The granules whose data is in and not wholly written. -/
def unwritten (s : State) (g : Nat) (o : OutD) : List Nat :=
  ((physOf s (physId s g)).pend.filter (fun e => e.ser == o.ser && e.g == g && e.why == .desc)).foldl (fun l e =>
    e.ws.foldl (fun l w => addOnce (granuleOf o w.1) l) l) []

/-- A cut-off of a guarded DMA_GET: stage n of the ladder begins. -/
def dmaCutoff (g ser n : Nat) (s : State) : State :=
  match outDOf s g ser, guardOf s g ser with
  | some o, some u =>
    match issOf s g o with
    | none => s
    | some i =>
      let late :=
        if n = 1 then
          (s.hz.reqs.filter (fun q => q.g == g && q.ser == ser && !q.dead)).foldl (fun l q =>
            match q.kind with
            | .read ms => (ms.filter (fun m => m.2.2 != 0)).foldl (fun l m => addOnce (granuleOf o m.2.1) l) l
            | _ => l) (unwritten s g o)
        else u.late
      let s := dropSource g ser (abandon g ser s)
      let s := if late = [] then updGuard g ser (fun u => { u with stage := n, late := [] }) s else rungFrom i o late n s
      if fetchOpen s g ser then s else workDone g ser s
  | _, _ => s

/-! ## DMA_GET and DMA_PUT -/

/-- R378: a poisoned index entry is consumed. -/
def consumeIdx (i : Iss) (s : State) : State :=
  if isIndexed i.d && (idxList s i.pl i.d).any (·.2) then consumePoison i.ctx i.g 0 0 0 (u32 i.d 12) i.daddr s else s

def getAct (i : Iss) (s : State) : State :=
  match ownObj s i.ctx i.va.handle with
  | none => s
  | some o =>
    let ps := hideOld (fun (p : Piece) => p.2.1) (fun p => (p.1, none, p.2.2)) (dmaPieces s i true i.va i.vc)
    let zs : List BitW := ps.filterMap (fun p => match p.1, p.2.1 with | none, some l => some (l, p.2.2, 0, false) | _, _ => none)
    -- a row that a later entry overwrites is read all the same, to no local bit: beyond the local store
    let ms : List Move := ps.filterMap (fun p => p.1.map (fun f => (f, p.2.1.getD (2 ^ 40), p.2.2)))
    let live : List Move := ps.filterMap (fun p => match p.1, p.2.1 with | some f, some l => some (f, l, p.2.2) | _, _ => none)
    let s := bump i.g 0x23 (badIndices s i true i.va i.vc) s
    let s := consumeIdx i s
    let guarded : Bool := match outDOf s i.g i.ser with | some x => x.guarded | none => false
    let s := laneWrite (.rung 3) i.g i.ser zs s
    let r0 := if dAtom i.d then (let a := openAtom i s; (some a.1, a.2)) else (none, s)
    let clod := r0.1
    let s := r0.2
    let s := setWaitFor i .requests s
    let s := if guarded then updOut i.g i.ser (fun o => { o with moves := live }) s else s
    let strip (l : List Move) : ReqKind := .read (l.map (fun m => if 2 ^ 40 ≤ m.2.1 then (m.1, 0, 0) else m))
    let logged : List (Nat × Nat) := if guarded then loggedRungs s i.ctx i.g i.daddr else []
    let s :=
      if logged = [] then readParts i o clod strip ms s
      else
        match outDOf s i.g i.ser with
        | none => s
        | some x =>
          let rungOf (m : Move) : Option Nat := (logged.find? (fun e => e.1 == granuleOf x m.2.1)).map (·.2)
          let s := readParts i o clod strip (live.filter (fun m => (rungOf m).isNone)) s
          let late (n : Nat) : List Nat := (logged.filter (fun e => e.2 == n)).map (·.1)
          let s := if late 1 = [] then s else rungFrom i x (late 1) 1 s
          let s := if late 2 = [] then s else rungFrom i x (late 2) 2 s
          let s := if late 3 = [] then s else rung3 i x (late 3) s
          updGuard i.g i.ser (fun u => { u with late := late 1 ++ late 2 }) s
    let s := if guarded && fromLog s i.ctx then updGuard i.g i.ser (fun u => { u with stage := 3 }) s else s
    let s :=
      match guardOf s i.g i.ser with
      | some u => if u.stage = 0 && u.due ≤ segGc s i.r then dmaCutoff i.g i.ser 1 s else s
      | none => s
    if fetchOpen s i.g i.ser then s else workDone i.g i.ser (endAtom i.g i.ser applyAll s)

/-- The values that a DMA_PUT writes: far bit, width, code, poison, each with whether it stands. -/
def putWrites (s : State) (p : Place) (ps : List (Piece × Bool)) (bad : Bool) : List (BitW × Bool) :=
  ps.filterMap (fun e =>
    match e.1.1 with
    | none => none
    | some f =>
      match e.1.2.1 with
      | none => some ((f, e.1.2.2, 0, bad), e.2)
      | some l => let x := bitsFrom (lsByte s p) l e.1.2.2; some ((f, e.1.2.2, x.1, x.2 || bad), e.2))

/-- Bit writes cut at 256-byte units and grouped as R204 says; those of a row that a later entry overwrites form
requests and write no bit. -/
def groupWrites (ws : List (BitW × Bool)) : List (List BitW) :=
  let cut := ws.flatMap (fun (x : BitW × Bool) =>
    let w := x.1
    let room := 2048 - w.1 % 2048
    if w.2.1 ≤ room then [x]
    else [((w.1, room, w.2.2.1 % 2 ^ room, w.2.2.2), x.2),
          ((w.1 + room, w.2.1 - room, w.2.2.1 / 2 ^ room, w.2.2.2), x.2)])
  (cut.foldl (fun (a : List (Nat × List BitW)) x =>
    let w : BitW := if x.2 then x.1 else (x.1.1, 0, 0, false)
    match a with
    | (u, l) :: r => if u = w.1 / 2048 then (u, l ++ [w]) :: r else (w.1 / 2048, [w]) :: (u, l) :: r
    | [] => [(w.1 / 2048, [w])]) []).reverse.map (·.2)

/-- Read from the spec by inference: DEDUCED (log 86). -/
def putAct (i : Iss) (s : State) : State :=
  if dmaFlush i.d then
    let s := flushLines i.g i.ser i.pl s
    if fetchOpen s i.g i.ser then setWaitFor i .requests s else s
  else match ownObj s i.ctx i.vc.handle with
    | none => s
    | some o =>
      let ps := hideOld (fun (p : Piece × Bool) => if p.2 then p.1.1 else none) (fun p => (p.1, false))
        ((dmaPieces s i false i.vc i.va).map (fun p => (p, true)))
      let bad := isIndexed i.d && (idxList s i.pl i.d).any (·.2)
      let ws := putWrites s i.pl ps bad
      let s := bump i.g 0x23 (badIndices s i false i.vc i.va) s
      let r0 := match clodKeyOf s i.g i.t with
        | some k => (some k, s)
        | none => if dAtom i.d then (let a := openAtom i s; (some a.1, a.2)) else (none, s)
      let clod := r0.1
      let s := r0.2
      let poison := ws.any (fun w => w.2 && w.1.2.2.2)
      let s :=
        if !poison then s
        else
          let a := (firstPoison (viewBytes s i.pl [] i.va) i.va i.pl.k).getD (u32 i.d 12)
          match clod with
          | some k => failClod k stUNCORRECTABLE i.g 0 i.daddr
              (postRec 0x07 2 (some i.ctx) (dieOfPed2 i.ped2) i.g [(8, 8, a), (16, 8, i.daddr.toNat)] s)
          | none => consumePoison i.ctx i.g 0 0 0 a i.daddr s
      let gs := groupWrites ws
      let s := if gs = [] then s else setWaitFor i .requests s
      let s := (List.zip gs (List.range gs.length)).foldl (fun s e =>
        match e.1 with
        | [] => s
        | w :: _ =>
          let s := match clod with
            | some k => addPrep k i.g ((e.1.foldl (fun n x => n + x.2.1) 0 + 7) / 8) (.mem i.vc.handle (dVC i.d) e.1) s
            | none => s
          addPart i o (w.1 / 8) e.2 clod (.write e.1) s) s
      if gs = [] then endAtom i.g i.ser applyAll s else s

def doDmaGet (g t : Nat) (s : State) : State := issueRow (fun d => dOp d == 0x10) dmaFaults getAct g t s

/-- A DMA_PUT that moves data. -/
def doDmaPut (g t : Nat) (s : State) : State :=
  issueRow (fun d => dOp d == 0x11 && !(dmaFlush d)) dmaFaults putAct g t s

/-- DMA_PUT with FLUSH (R51, R62). -/
def doDmaPutFlush (g t : Nat) (s : State) : State := issueRow (fun d => dmaFlush d) dmaFaults putAct g t s

/-! ## Answers (R204, R223, R378, R379) -/

/-- Why the HZ4 request fails, if it does. -/
def hz4Cause (s : State) (o : Obj) (off : Nat) (ans : HzAnswer) : Option Nat :=
  hz4CauseAt s o (locOf o off) ans

/-- R209, R213, R223, R378: what a served read of the bytes `offs` of an object gives, byte by byte with its poison; a
failure of host memory is recorded, bad data poisons its words, and the granules count as read. -/
def sourceRead (q : Req) (o : Obj) (offs : List Nat) (ans : HzAnswer) (s : State) : (Nat → Byte × Bool) × State :=
  let off0 := offs.headD 0
  let fail := hz4Cause s o off0 ans
  let s := match fail with | some c => hz4Failure o off0 c s | none => s
  let newBad := ans == .poisoned
  let s := if newBad then noteBadFrame o off0 (objSetPoison q.handle offs s) else s
  let at0 := s
  (fun a => (objByte at0 o a, objPoison at0 o a || fail.isSome || newBad), noteReads q.handle offs s)

/-- A line of the grain on its way back, which a fill of the same line must not overtake. -/
def backOpen (s : State) (g : Nat) (o : Obj) (va : Nat) : Bool :=
  lanesWait s (physId s g) (fun e => e.g == g && e.why == .back va) ||
    s.hz.reqs.any (fun q => q.g == g && q.handle == handleOf o && (match q.kind with
      | .back ((off, _) :: _) _ => o.base + off == va
      | _ => false))

/-- CACHE_FILL_DONE (R61): the data of a line that a held descriptor of the thread waits for is in, and goes to the store
in CCH slots. -/
def doCacheFillDone (g t : Nat) (s : State) : State :=
  match nmGet s.grains g with
  | none => s
  | some gr =>
    match s.hz.reqs.find? (fun q => q.g == g && mayServe s q && (match q.kind with | .fill u _ => u == t | _ => false)) with
    | none => s
    | some q =>
      match q.kind, objOf s q.handle with
      | .fill _ va, some o =>
        if backOpen s g o va then s
        else
          let s := updHz (fun h => { h with reqs := h.reqs.filter (fun x => x.id != q.id) }) s
          let offs := (List.range 64).map (fun i => va - o.base + i)
          let r := sourceRead q o offs q.ans s
          queueLanes (physId s g)
            { id := 0, ser := q.ser, ctx := gr.ctx, g := g, why := .fill va, issue := s.clk.pcc, owner := 5, far := false
              view := 0xFF, all := lineBits (offs.map r.1), ws := [], rd := lineLanes (placeOf s g) va } r.2
      | _, _ => updHz (fun h => { h with reqs := h.reqs.filter (fun x => x.id != q.id) }) s

/-- A read has been served: its data goes to the local store, or waits in its clod. -/
def readServed (q : Req) (ms : List Move) (rung : Option Nat) (ans : HzAnswer) (s : State) : State :=
  match objOf s q.handle, ms with
  | some o, m0 :: _ =>
    let off0 := m0.1 / 8
    let r0 := sourceRead q o (ms.map (fun m => m.1 / 8)) ans s
    let byteAt := r0.1
    let s := r0.2
    let ws : List BitW := ms.map (fun m => let x := bitsFrom byteAt m.1 m.2.2; (m.2.1, m.2.2, x.1, x.2))
    let bad := ws.any (fun w => w.2.2.2)
    let daddr := match outDOf s q.g q.ser with | some x => x.daddr | none => 0
    let hzn := if (granOf o (off0 / 65536)).promo then 1 else (granOf o (off0 / 65536)).hzn
    match q.clod with
    | some k =>
      if bad then failClod k stUNCORRECTABLE q.g q.part daddr
        (postRec 0x07 2 (some q.ctx) (dieOfPed2 (logicalPed2 q.g)) q.g
          [(0, 1, hzn), (4, 4, q.handle.toNat), (8, 8, o.base + off0), (16, 8, daddr.toNat)] s)
      else addPrep k q.g ((ws.foldl (fun n w => n + w.2.1) 0 + 7) / 8)
        (.loc q.g q.ser (ws.filter (fun w => w.2.1 != 0))) s
    | none =>
      let s := if bad then consumePoison q.ctx q.g hzn 0 q.handle (o.base + off0) daddr s else s
      laneWrite (match rung with | some n => .rung n | none => .desc) q.g q.ser ws s
  | _, _ => s

/-- A write has been acknowledged: it takes effect, or is prepared in its clod. -/
def writeServed (q : Req) (ws : List BitW) (ans : HzAnswer) (s : State) : State :=
  match objOf s q.handle, ws with
  | some o, w :: _ =>
    let off := w.1 / 8
    let daddr := match outDOf s q.g q.ser with | some x => x.daddr | none => 0
    match hz4Cause s o off ans with
    | some c =>
      let s := hz4Failure o off c s
      (match q.clod with | some k => failClod k stUNCORRECTABLE q.g q.part daddr s | none => s)
    | none =>
      (match q.clod with
        | some k => if ans = .poisoned then failClod k stUNCORRECTABLE q.g q.part daddr s else s
        | none => noteObj q.ctx q.g (match outDOf s q.g q.ser with | some x => dVC x.desc | none => 0xFF) q.handle ws
            (objWriteBits q.handle ws s))
  | _, _ => s

/-- A line that goes back is acknowledged: its bytes are in its object. -/
def backServed (q : Req) (bs : List (Nat × Byte)) (bad : Bool) (ans : HzAnswer) (s : State) : State :=
  match objOf s q.handle, bs with
  | some o, (off, _) :: _ =>
    match hz4Cause s o off ans with
    | some c => hz4Failure o off c s
    | none =>
      let s := objWrite q.handle bs s
      if bad then objSetPoison q.handle (bs.map (·.1)) s else s
  | _, _ => s

/-- The record of a host read that consumes poison (R306, R378). -/
def bar4Poison (x : Obj) (off : Nat) (s : State) : State :=
  let hz := match locOf x off with | .hz1 _ => 1 | .hz2 _ => 2 | .hz3 _ _ => 3 | .hz4 _ _ => 4
  postRec 0x07 2 (some x.ctx) 0xFF 0xFFFFFFFF [(0, 1, hz), (1, 1, 1), (4, 4, (handleOf x).toNat), (8, 8, x.base + off)] s

/-- A part of a BAR4 access is open. -/
def aperOpen (s : State) (id : Nat) : Bool :=
  s.hz.reqs.any (fun q => match q.kind with | .aper n _ _ => n == id | _ => false)

/-- BAR4 reads with no part left are answered; a byte whose object is gone reads as ones. -/
def settleApers (s : State) : State :=
  let mine (a : AperAcc) : Bool := !(aperOpen s a.id)
  (s.hz.apers.filter mine).foldl (fun s a =>
    let byte (k : Nat) : Byte := match a.got.find? (fun e => e.1 == k) with | some e => e.2 | none => 0xFF
    if (portOf s a.port).inReset then s else emit (.bar4Read a.port ((List.range a.len).map byte) a.bad) s)
    (updHz (fun h => { h with apers := h.apers.filter (fun a => !(mine a)) }) s)

/-- A part of a BAR4 access is served (R209, R306). -/
def aperServed (q : Req) (id : Nat) (places : List (Nat × Nat)) (data : Option (List Byte)) (ans : HzAnswer) (s : State) :
    State :=
  match objOf s q.handle, data with
  | none, _ => settleApers s
  | some _, some d => objWrite q.handle (List.zip (places.map (·.2)) d) s
  | some o, none =>
    let r := sourceRead q o (places.map (·.2)) ans s
    let told : Bool := s.hz.apers.any (fun a => a.id == id && a.bad)
    let s := match places.find? (fun e => (r.1 e.2).2) with
      | some e => if told then r.2 else bar4Poison o e.2 r.2
      | none => r.2
    settleApers (updHz (fun h => { h with apers := updWhere (fun a => a.id == id) (fun a => { a with
      got := a.got ++ places.map (fun e => (e.1, (r.1 e.2).1))
      bad := a.bad || places.any (fun e => (r.1 e.2).2) }) h.apers }) s)

/-- R52: the first burst of a stream has been read, before gc 0. -/
def firstServed (q : Req) (t : Nat) (ans : HzAnswer) (s : State) : State :=
  match objOf s q.handle with
  | none => s
  | some o =>
    let r := sourceRead q o ((List.range 256).map (fun i => q.unit * 256 - o.base + i)) ans s
    let b := (List.range 256).map (fun i => r.1 (q.unit * 256 - o.base + i))
    updCtx q.ctx (fun c => { c with first := c.first.map (fun f => { f with
      got := f.got ++ [(q.g, t, b.map (·.1), b.any (·.2))] }) }) r.2

/-- R378: a hub transfer has read poison: one record for the transfer. -/
def xferPoison (q : Req) (o : Obj) (idx off : Nat) (s : State) : State :=
  match (segOf s q.ctx).bind (fun r => r.xfers[idx]?) with
  | none => s
  | some x =>
    if x.bad then s
    else
      let hz := match locOf o off with | .hz1 _ => 1 | .hz2 _ => 2 | .hz3 _ _ => 3 | .hz4 _ _ => 4
      let s := updSeg q.ctx (fun r => { r with xfers := r.xfers.set idx { x with bad := true } }) s
      segStatus q.ctx stUNCORRECTABLE (postRec 0x07 2 (some q.ctx) 0xFF 0xFFFFFFFF
        [(0, 1, hz), (1, 1, 2), (4, 4, q.handle.toNat), (8, 8, o.base + off)] s)

/-- R168: bytes of a KIND 0 transfer have been read, as they stand: every grain of its ped on the die receives them. -/
def xferServed (q : Req) (idx off len : Nat) (ans : HzAnswer) (s : State) : State :=
  match objOf s q.handle, (segOf s q.ctx).bind (fun r => r.d.xfers[idx]?) with
  | some o, some e =>
    let offs := (List.range len).map (fun i => off + i)
    let r0 := sourceRead q o offs ans s
    let ws : List BitW := offs.map (fun a => let b := r0.1 a; (8 * (e.dest + (a - e.off)), 8, b.1.toNat, b.2))
    let s := match ws.find? (fun w => w.2.2.2) with
      | some w => xferPoison q o idx (w.1 / 8 - e.dest + e.off) r0.2
      | none => r0.2
    match pedOf s q.ctx e.ped with
    | .ok l => (pedSetGrains (l.filter (fun x => dieOfPed2 x.1 == q.die))).foldl (fun s g => queueLanes (physId s g)
        { id := 0, ser := 0, ctx := q.ctx, g := g, why := .xfer idx, issue := s.clk.pcc, owner := 3, far := false
          view := 0xFF, all := ws, ws := cutLanes ws, rd := [] } s) s
    | .error _ => s
  | _, _ => s

/-- A request is answered: it gives its tag back, and its descriptor may be done. -/
def respond (q : Req) (ans : HzAnswer) (s : State) : State :=
  let s := updHz (fun h => { h with reqs := h.reqs.filter (fun x => x.id != q.id) }) s
  if q.dead then
    -- R379: the answer of a source that was cut off may still be uncorrectable
    let s := match objOf s q.handle with
      | some o => if ans = .poisoned && isRead q.kind then
          let offs := kindOffs (q.unit * 256 - o.base) q.kind
          noteBadFrame o (offs.headD 0) (objSetPoison q.handle offs s) else s
      | none => s
    noteLateArr q.ctx s
  else
    let s := match q.kind with
      | .read ms => readServed q ms none ans s
      | .rung n ms => readServed q ms (some n) ans s
      | .write ws => writeServed q ws ans s
      | .xfer idx off len => xferServed q idx off len ans s
      | .entry j => entryServed q j s
      | .copy w wr u => copyServed q w wr u (copyAnswer q w wr u ans s)
      | .back bs bad => backServed q bs bad ans s
      | .first t => firstServed q t ans s
      | .aper id ps d => aperServed q id ps d ans s
      | _ => s
    match outDOf s q.g q.ser with
    | none => s
    | some _ => if fetchOpen s q.g q.ser then s else workDone q.g q.ser (endAtom q.g q.ser applyAll s)

def execDmaGet (g t : Nat) (s : State) : Host.Outcome State Fault Refusal := .next (doDmaGet g t s)
def execDmaPut (g t : Nat) (s : State) : Host.Outcome State Fault Refusal := .next (doDmaPut g t s)
def execCacheFillDone (g t : Nat) (s : State) : Host.Outcome State Fault Refusal := .next (doCacheFillDone g t s)
def execDmaPutFlush (g t : Nat) (s : State) : Host.Outcome State Fault Refusal := .next (doDmaPutFlush g t s)

end Sys2Proof.Machine
end

