-- ==== Sys2Proof/Machine/Sieve.lean ====
section
/-! DEFINITION. The sieve engine (chapter 08): gathers and their ladder (R228-R237), the hot-row cache (R234-R236),
the gradient pool (R238-R241), APPLY (R242-R245), and the delta-row log with its merges (R246-R249). -/

namespace Sys2Proof.Machine

open Sys2Proof

/-! ## Tables (R225, R226) -/

def sieveOf (s : State) (ctx : Nat) (h : W32) : Option Sieve :=
  if h.toNat / 2 ^ 22 = ctx then s.sieves.find? (fun t => t.handle == h) else none

def sieveAt (s : State) (idx : Nat) : Option Sieve := s.sieves.find? (fun t => t.idx == idx)

def sieveCtx (t : Sieve) : Nat := t.handle.toNat / 2 ^ 22

def rowBytes (t : Sieve) : Nat := (t.dim * fmtW t.tfmt + 7) / 8

def sstride (opt dim : Nat) : Nat := if opt = 1 then 4 else if opt = 2 then 4 * ((2 * dim + 4 + 3) / 4) else 0

def nrows (t : Sieve) : Nat := t.stateOff / max t.rstride 1

def padId : Nat := 2 ^ 64 - 1

/-- R251: n added to counter k of a table. -/
def sieveCount (idx k n : Nat) (s : State) : State :=
  updSieve idx (fun t => { t with ctrs := t.ctrs.set k (t.ctrs.getD k 0 + BitVec.ofNat 64 n) }) s

/-- R251: NUMERIC: hi added to SAT and OVF of APPLY, lo to FLUSH of ADD. -/
def sieveNumeric (idx hi lo : Nat) (s : State) : State :=
  updSieve idx (fun t =>
    let v := (t.ctrs.getD 15 0).toNat
    { t with ctrs := t.ctrs.set 15 (BitVec.ofNat 64 (satAdd 32 (v / 2 ^ 32) hi * 2 ^ 32 + satAdd 32 (v % 2 ^ 32) lo)) }) s

/-- R234: rows that one replica of the hot-row cache holds. -/
def hotCap (t : Sieve) : Nat :=
  let all := t.hot * 2 ^ 33
  (if t.repl then all / 4 else all) / (ceilDiv (rowBytes t) 32 * 32 + 8)

/-- R234: bytes of an entry: the row rounded up to 32, and a tag of 8. -/
def hotEntry (t : Sieve) : Nat := ceilDiv (rowBytes t) 32 * 32 + 8

/-- The address in HZ1 of byte b of the cache's frames; entry k begins at k times its length, its row first, then its
id as the tag. DESIGN CHOICE (log 92). -/
def hotAddr (t : Sieve) (b : Nat) : Nat := t.hotFrames.getD (b / 65536) 0 * 65536 + b % 65536

/-- The row bytes of an entry, and whether one is poisoned. -/
def hotBytes (s : State) (t : Sieve) (slot : Nat) : List Byte × Bool :=
  let as := (List.range (rowBytes t)).map (fun i => hotAddr t (slot * hotEntry t + i))
  (as.map (memByte s.hz.hz1), as.any (fun a => a / 64 ∈ s.hz.pois1))

/-- An entry is written. -/
def hotPut (t : Sieve) (slot id : Nat) (row : List Byte) (s : State) : State :=
  let bs := pad (hotEntry t - 8) (row.take (rowBytes t)) ++ leBytes 8 id
  let ws := (runAt (slot * hotEntry t) bs).map (fun e => (hotAddr t e.1, e.2))
  clearPoison (ws.map (fun e => .hz1 e.1)) (ws.foldl (fun s e => locSet e.2 (.hz1 e.1) s) s)

/-- R199, R234: the channel of an entry: WIDE, or in its replica's quadrant, by its place in the cache.
DESIGN CHOICE (log 92). -/
def hotPool (t : Sieve) (rep slot : Nat) : Pool × Nat :=
  let h := unitHash (slot * hotEntry t)
  (.hz1 (if t.repl then (quadDies rep).getD (h / 64 % 12) 0 else h / 64 % 48), h % 64)

def replicaOf (t : Sieve) (cdie : Nat) : Nat := if t.repl then quadOf cdie else 0

/-- Open in the spec: DESIGN CHOICE (log 8). -/
def hotFind (t : Sieve) (rep id : Nat) : Option HotRow := t.hotRows.find? (fun r => r.replica == rep && r.id == id)

def isHz3 (o : Obj) : Bool := (granOf o 0).hzn == 3

/-- The bytes [off, off+n) of an object, and whether one is poisoned. -/
def objSpan (s : State) (o : Obj) (off n : Nat) : List Byte × Bool :=
  (objRead s o off n, (List.range n).any (fun i => objPoison s o (off + i)))

/-! ## The delta-row log in its object (R246) -/

def dlogEntry (t : Sieve) : Nat := 32 * ceilDiv (16 + t.rstride + sstride t.opt t.dim) 32

/-- R246: the log's slots and capacity. -/
def dlogSlots (s : State) (t : Sieve) : Nat :=
  match objOf s t.dlog with
  | some o => o.size / dlogEntry t
  | none => 0

def dlogCap (s : State) (t : Sieve) : Nat := dlogSlots s t * 3 / 4

/-- Slot k of the log; an id of all ones marks it empty. DESIGN CHOICE (log 92). -/
def dlogAt (s : State) (t : Sieve) (k : Nat) : Option DlogEnt :=
  match objOf s t.dlog with
  | none => none
  | some o =>
    let a := k * dlogEntry t
    let id := leNat (objRead s o a 8)
    if id = padId then none
    else
      let b := objSpan s o a (dlogEntry t)
      some { slot := k, id := id, seq := u64 b.1 8, row := slice b.1 16 t.rstride,
             state := slice b.1 (16 + t.rstride) (sstride t.opt t.dim), bad := b.2, done := nmGetD t.dlDone k [] }

def dlogEnts (s : State) (t : Sieve) : List DlogEnt := (List.range (dlogSlots s t)).filterMap (dlogAt s t)

def dlogFind (s : State) (t : Sieve) (id : Nat) : Option DlogEnt := (dlogEnts s t).find? (fun e => e.id == id)

/-- The slot that a row's entry is written to: its own, else the first that is empty. DESIGN CHOICE (log 92). -/
def dlogSlot (s : State) (t : Sieve) (id : Nat) : Option Nat :=
  match dlogFind s t id with
  | some e => some e.slot
  | none => (List.range (dlogSlots s t)).find? (fun k => (dlogAt s t k).isNone)

/-- R247: a row's value goes into the log with the next sequence number. -/
def dlogPut (t : Sieve) (id : Nat) (row state : List Byte) (s : State) : State :=
  match dlogSlot s t id with
  | none => s
  | some k =>
    let b := leBytes 8 id ++ leBytes 8 t.dlSeq ++ pad t.rstride row ++ pad (sstride t.opt t.dim) state
    updSieve t.idx (fun t => { t with dlSeq := t.dlSeq + 1, dlDone := nmDel k t.dlDone })
      (objWriteAt t.dlog (k * dlogEntry t) (pad (dlogEntry t) b) s)

/-- A slot of the log is empty again. -/
def dlogClear (t : Sieve) (k : Nat) (s : State) : State :=
  updSieve t.idx (fun t => { t with dlDone := nmDel k t.dlDone })
    (objWriteAt t.dlog (k * dlogEntry t) (pad (dlogEntry t) (leBytes 8 padId)) s)

/-- R251: DLOG_USED. -/
def dlogUsed (s : State) (t : Sieve) : Nat := (dlogEnts s t).length

/-! ## Rows -/

/-- R231, R247: a row's current bytes but for hot copies, its state, and poison. -/
def rowCurrent (s : State) (t : Sieve) (o : Obj) (id : Nat) : List Byte × List Byte × Bool :=
  match if isHz3 o then dlogFind s t id else none with
  | some e => (e.row, e.state, e.bad)
  | none =>
    let r := objSpan s o (id * t.rstride) t.rstride
    let n := sstride t.opt t.dim
    let q := objSpan s o (t.stateOff + id * n) n
    (r.1, q.1, r.2 || q.2)

def listByte (l : List Byte) (a : Nat) : Byte × Bool := (l.getD a 0, false)

/-- R232: the elements of a row's bytes, dequantised, and what that counts. DEDUCED (log 92). -/
def rowVals (t : Sieve) (sc : FVal) (b : List Byte) : List FVal × Counts :=
  (List.range t.dim).foldl (fun (a : List FVal × Counts) j =>
    let r := dequant false t.tfmt (bitsFrom (listByte b) (j * fmtW t.tfmt) (fmtW t.tfmt)).1 sc a.2
    (a.1 ++ [r.1], r.2)) ([], Counts.none)

/-- R237, rung 1: a shadow row: FP16 factor times INT4 elements, exactly. DEDUCED (log 92). -/
def shadowVals (t : Sieve) (b : List Byte) : List FVal × Counts :=
  let f := decodeF 2 (u16 b 0)
  ((List.range t.dim).map (fun j =>
    (fmul (0, 0, 0) (decodeF 9 (bitsFrom (listByte b) (16 + 4 * j) 4).1) f Counts.none).1), Counts.none)

/-- R237, rung 2: the shared row of an id. -/
def sharedRow (t : Sieve) (o : Obj) (id : Nat) : Nat :=
  let x := Nat.xor (Nat.xor (id % 2 ^ 32) (id / 2 ^ 32 % 2 ^ 32)) t.salt.toNat
  x * (o.size / max t.rstride 1) / 2 ^ 32

/-! ## Faults -/

def floatFmt (f : Nat) : Bool := f ≤ 7

def gatherFaults (s : State) (i : Iss) : List (Bool × Nat) :=
  let bag := u16 i.d 16
  let nbag := u16 i.d 18
  let pm := bits (u8 i.d 14) 0 4
  let tab := sieveOf s i.ctx (BitVec.ofNat 32 (u32 i.d 10))
  let dim := match tab with | some t => t.dim | none => 0
  let used := dVB i.d != 0xFF
  [(used != (pm == 3), 0x03),
   (!(isLocal i.va) || !(isLocal i.vc) || (used && !(isLocal i.vb)) || outsideStage s i i.vc, 0x05),
   (i.va.fmt != 0 || 4 < i.vc.fmt || (used && !(floatFmt i.vb.fmt)), 0x06),
   (tab.isNone || 3 < pm || 16 ≤ u8 i.d 14 || u8 i.d 15 != 0 || !(tailZero i.d 20), 0x0A),
   (bag < 1 || 4096 < bag || nbag < 1, 0x0A),
   (i.va.sz0 != 2 * bag || nvec i.va != nbag, 0x0A),
   (used && (i.vb.sz0 != bag || nvec i.vb != nbag), 0x0A),
   (i.vc.sz0 != dim || nvec i.vc != (if pm = 0 then nbag * bag else nbag), 0x0A),
   (preparedBad s i false ((nelem i.vc * fmtW i.vc.fmt + 7) / 8), 0x0A)]

/-! ## Gathers -/

def gatherOf (s : State) (g ser : Nat) : Option Gather := s.gathers.find? (fun x => x.g == g && x.ser == ser)

def updGather (g ser : Nat) (f : Gather → Gather) (s : State) : State :=
  { s with gathers := updWhere (fun x => x.g == g && x.ser == ser) f s.gathers }

/-- FP32 rounding of one pooling or optimiser operation. -/
def r1 (x : FVal) : FVal := (rne32 false x Counts.none).1

def fadd1 (a b : FVal) : FVal := r1 (fadd (0, 0, 0) a b Counts.none).1
def fsub1 (a b : FVal) : FVal := fadd1 a b.negate
def fmul1 (a b : FVal) : FVal := r1 (fmul (0, 0, 0) a b Counts.none).1

/-- A quotient rounded once. -/
def fdiv1 (a b : FVal) : FVal :=
  match a, b with
  | .nan, _ => .nan
  | _, .nan => .nan
  | .inf _, .inf _ => .nan
  | .inf m, y => .inf (m != y.isNeg)
  | x, .inf n => .num (x.isNeg != n) 0
  | .num m p, .num n q =>
    if q = 0 then (if p = 0 then .nan else .inf (m != n)) else r1 (.num (m != n) (p / q))

def fsqrt1 (a : FVal) : FVal :=
  match a with
  | .nan => .nan
  | .inf n => if n then .nan else .inf false
  | .num n q => if q = 0 then .num n 0 else if n then .nan else .num false (sqrt32 q)

/-- One FP32 operation of a pooling: a result and what it counts. -/
def poolAdd1 (a b : FVal) (c : Counts) : FVal × Counts :=
  let r := fadd (0, 0, 0) a b c
  rne32 false r.1 r.2

def poolMul1 (a b : FVal) (c : Counts) : FVal × Counts :=
  let r := fmul (0, 0, 0) a b c
  rne32 false r.1 r.2

def poolMean1 (a : FVal) (n : Nat) (c : Counts) : FVal × Counts :=
  match a with
  | .num m p => rne32 false (.num m (p / mkRat (Int.ofNat n) 1)) c
  | x => (x, c)

/-- R232: one bag's slots pooled, element j. DEDUCED (log 92). -/
def poolElem (poolm : Nat) (slots : List (Option (FVal × List FVal))) (j : Nat) (c : Counts) : FVal × Counts :=
  let live := slots.filterMap id
  let sum := live.foldl (fun (p : FVal × Counts) x =>
    let e := x.2.getD j FVal.zero
    let y := if poolm = 3 then poolMul1 x.1 e p.2 else (e, p.2)
    poolAdd1 p.1 y.1 y.2) (FVal.zero, c)
  if poolm = 2 then (if live = [] then (FVal.zero, c) else poolMean1 sum.1 live.length sum.2) else sum

/-- The values of VC in linear order, each with its poison, and what pooling them counts. -/
def gatherVals (ga : Gather) (dim : Nat) : List (FVal × Bool) × Counts :=
  let slot (n : Nat) : Option (FVal × List FVal × Bool) :=
    match ga.ids.getD n none, nmGet ga.got n with
    | some _, some x => some (f32 (ga.weights.getD n 0), x.1.map f32, x.2)
    | _, _ => none
  (List.range ga.nbag).foldl (fun (a : List (FVal × Bool) × Counts) b =>
    let ns := (List.range ga.baglen).map (fun n => b * ga.baglen + n)
    let xs := ns.map slot
    if ga.poolm = 0 then
      (a.1 ++ xs.flatMap (fun x => (List.range dim).map (fun j =>
        match x with
        | some y => (y.2.1.getD j FVal.zero, y.2.2 || decide (b ∈ ga.bad))
        | none => (FVal.zero, decide (b ∈ ga.bad)))), a.2)
    else
      let bad := decide (b ∈ ga.bad) || xs.any (fun x => match x with | some y => y.2.2 | none => false)
      let ys := xs.map (fun x => x.map (fun y => (y.1, y.2.1)))
      (List.range dim).foldl (fun (a : List (FVal × Bool) × Counts) j =>
        let r := poolElem ga.poolm ys j a.2
        (a.1 ++ [(r.1, bad)], r.2)) a) ([], ga.cs)

/-- Every non-pad slot is served. -/
def gatherFull (ga : Gather) : Bool :=
  (List.range ga.ids.length).all (fun n => (ga.ids.getD n none).isNone || (nmGet ga.got n).isSome)

/-- The gather has every row: it pools, writes VC and may complete (R233). Its SAT, OVF and FLUSH, of dequantising, pooling
and quantising, go where the table's counters keep those of APPLY and ADD, which R251 alone names.
DESIGN CHOICE (log 92). -/
def gatherEnd (i : Iss) (s : State) : State :=
  match gatherOf s i.g i.ser, sieveOf s i.ctx (BitVec.ofNat 32 (u32 i.d 10)) with
  | some ga, some t =>
    if !(gatherFull ga) then s
    else
      let us := gatherVals ga t.dim
      let r := quantView false i.vc i.pl.k (ctxScale s i.ctx i.vc.scale) us.1 us.2 (StatFig.zero i.vc.scale)
      let s := { s with gathers := s.gathers.filter (fun x => !(x.g == i.g && x.ser == i.ser)) }
      let s := noteStk i.ctx r.2.1 (sieveNumeric t.idx (r.2.1.sat + r.2.1.ovf) r.2.1.flush (setCounts i Counts.none [r.2.2] s))
      match s.clods.find? (fun c => c.atom == some (i.g, i.ser)) with
      | some c =>
        let s := addPrep c.key i.g ((r.1.foldl (fun n w => n + w.2.1) 0 + 7) / 8) (.loc i.g (dVC i.d) r.1) s
        workDone i.g i.ser (endAtom i.g i.ser applyAll s)
      | none => workDone i.g i.ser (localWrite i.g i.ser r.1 s)
  | _, _ => s

/-- A row's data is in: `src` 0 hot, 1 log, 2 home, 3 and 4 rungs 1 and 2, 5 rung 3. -/
def slotServed (i : Iss) (idx slot src : Nat) (xs : List FVal) (bad : Bool) (s : State) : State :=
  let s := updGather i.g i.ser (fun ga => { ga with got := nmSet slot (xs.map w32, bad) ga.got }) s
  let s := sieveCount idx 0 1 s
  let s := if src = 0 then sieveCount idx 1 1 s else if src = 1 then sieveCount idx 2 1 s
    else if 3 ≤ src then sieveCount idx src 1 (noteRung i.ctx i.g i.daddr (src - 2) slot s) else s
  updGuard i.g i.ser (fun u => { u with late := del slot u.late }) s

/-- R204, R206, R250: the requests for a row's bytes: one for each 256-byte unit that they lie in. -/
def rowReq (i : Iss) (o : Obj) (off len src slot : Nat) (s : State) : State :=
  (List.range ((off + len - 1) / 256 - off / 256 + 1)).foldl (fun s u =>
    addReq i.ctx i.g i.ser o (max off ((off / 256 + u) * 256)) (.row src [slot]) s) s

/-- One more row for a Read: its slot and its LBAs. -/
def rowJoin (slot : Nat) (ls : Option (Nat × List Nat)) (q : Req) : Req :=
  let kind := match q.kind with
    | .row k l => .row k (l ++ [slot])
    | y => y
  let nv := match q.nv, ls with
    | some (d, a), some (_, b) => some (d, b.foldl (fun l y => addOnce y l) a)
    | y, _ => y
  { q with kind := kind, nv := nv }

/-- R204, R206: the pieces of bytes [off, off + len) of an object, each within one 256-byte unit, or within one granule of
a drive. -/
def spanOf (o : Obj) (off len : Nat) : List (Nat × Nat) :=
  let u := if (match locOf o off with | .hz3 _ _ => true | _ => false) then 65536 else 256
  if len = 0 then []
  else (List.range ((off + len - 1) / u - off / u + 1)).map (fun k =>
    let a := max off ((off / u + k) * u)
    (a, min (off + len) ((off / u + k + 1) * u) - a))

/-- R231, R250: a row is read at its home; rows of one descriptor in one granule of a drive are one Read (R204) while
that waits for its tag, and a row that lies in two granules is read on both drives. -/
def homeReq (i : Iss) (t : Sieve) (o : Obj) (id slot : Nat) (s : State) : State :=
  let off := id * t.rstride
  if !(isHz3 o) then rowReq i o off (rowBytes t) 2 slot s
  else
    (spanOf o off (rowBytes t)).foldl (fun s p =>
      let offs := [p.1, p.1 + p.2 - 1]
      let folds (q : Req) : Bool := q.g == i.g && q.ser == i.ser && !q.tagged && !q.dead && q.handle == t.handle &&
        (match q.kind with | .row 2 _ => true | _ => false) && (q.unit * 256 - o.base) / 65536 == p.1 / 65536
      match s.hz.reqs.find? folds with
      | some q => bump i.g 0x24 1 (updHz (fun h => { h with
          reqs := updWhere (fun x => x.id == q.id) (fun x => rowJoin slot (lbasOf o offs) x) h.reqs }) s)
      | none => bump i.g 0x24 1 (addReqAt (dieOfPed2 i.ped2) i.ctx i.g i.ser o p.1 offs (.row 2 [slot]) none 0 s)) s

/-- R231, R246: the log's bucket that a row's search reads first. -/
def logReq (i : Iss) (t : Sieve) (id slot : Nat) (s : State) : State :=
  match objOf s t.dlog with
  | none => s
  | some o =>
    let k := match dlogFind s t id with
      | some e => e.slot
      | none => Config.dlogProbe t.salt id % max (dlogSlots s t) 1
    addReq i.ctx i.g i.ser o (k * dlogEntry t) (.row 1 [slot]) s

/-- A hot copy is read in HZ1. -/
def hotReq (i : Iss) (t : Sieve) (r : HotRow) (slot : Nat) (s : State) : State :=
  let q := reqNew i.ctx i.g i.ser t.handle 0 (.row 0 [slot]) (hotPool t r.replica r.slot) (dieOfPed2 i.ped2)
  bump i.g 0x24 1 (enterReq q s)

/-- The horizon that serves a byte of an object. -/
def hznAtOff (o : Obj) (off : Nat) : Nat :=
  match locOf o off with | .hz1 _ => 1 | .hz2 _ => 2 | .hz3 _ _ => 3 | .hz4 _ _ => 4

/-- R378: a poisoned row is consumed; in an ATOM gather it fails the clod instead. `hot`: its copy in HZ1. -/
def consumeRow (i : Iss) (hot : Bool) (h : W32) (off slot : Nat) (s : State) : State :=
  let o := ownObj s i.ctx h
  let hzn := if hot then 1 else match o with | some o => hznAtOff o off | none => 0
  let base := match o with | some o => o.base | none => 0
  match s.clods.find? (fun c => c.atom == some (i.g, i.ser)) with
  | some c => failClod c.key stUNCORRECTABLE i.g slot i.daddr
      (postRec 0x07 2 (some i.ctx) (dieOfPed2 i.ped2) i.g
        [(0, 1, hzn), (4, 4, h.toNat), (8, 8, base + off), (16, 8, i.daddr.toNat)] s)
  | none => consumePoison i.ctx i.g hzn 0 h (base + off) i.daddr s

/-- Zeros for a slot that no rung serves (R185, R232). -/
def slotZero (i : Iss) (t : Sieve) (slot : Nat) (s : State) : State :=
  slotServed i t.idx slot 5 (List.replicate t.dim FVal.zero) false s

/-- A late slot goes to rung n or, where the table lacks it, on. -/
def slotRung (i : Iss) (t : Sieve) (slot n : Nat) (s : State) : State :=
  match gatherOf s i.g i.ser, ownObj s i.ctx t.handle with
  | some ga, some o =>
    let id := (ga.ids.getD slot none).getD 0
    let r1 := if n ≤ 1 && o.rung1 != 0 then ownObj s i.ctx o.rung1 else none
    let r2 := if n ≤ 2 && o.rung2 != 0 then ownObj s i.ctx o.rung2 else none
    let mark (k : Nat) (s : State) : State :=
      updGuard i.g i.ser (fun u => { u with late := addOnce slot u.late })
        (updGather i.g i.ser (fun x => { x with rung := nmSet slot k x.rung }) s)
    match r1, r2 with
    | some x, _ => rowReq i x (id * t.shStride) (2 + (t.dim + 1) / 2) 3 slot (mark 1 s)
    | none, some x => rowReq i x (sharedRow t x id * t.rstride) (rowBytes t) 4 slot (mark 2 s)
    | none, none => slotZero i t slot s
  | _, _ => s

/-- A cut-off of a guarded SIEVE_GATHER: stage n of the ladder begins (R185, R237). -/
def gatherCutoff (g ser n : Nat) (s : State) : State :=
  match outDOf s g ser, gatherOf s g ser with
  | some o, some ga =>
    match issOf s g o with
    | none => s
    | some i =>
      match sieveOf s i.ctx (BitVec.ofNat 32 (u32 i.d 10)) with
      | none => s
      | some t =>
        let late := (List.range ga.ids.length).filter (fun k =>
          (ga.ids.getD k none).isSome && (nmGet ga.got k).isNone && nmGetD ga.rung k 0 < n)
        let s := updHz (fun h => { h with
          reqs := updWhere (fun q => q.g == g && q.ser == ser && !q.dead &&
            (match q.kind with | .row _ l => l.any (fun k => decide (k ∈ late)) | _ => false)) (fun q => { q with dead := true }) h.reqs }) s
        let s := updGuard g ser (fun u => { u with stage := n }) s
        gatherEnd i (late.foldl (fun s k => slotRung i t k n s) s)
  | _, _ => s

/-- A miss of the hot-row cache: the second in one step marks the row (R235). DEDUCED (log 92). -/
def noteMiss (t : Sieve) (rep id : Nat) (s : State) : State :=
  if t.hot = 0 then s
  else updSieve t.idx (fun t =>
    if (rep, id) ∈ t.misses then { t with marked := addOnce (rep, id) t.marked }
    else { t with misses := (rep, id) :: t.misses }) s

def gatherAct (i : Iss) (s : State) : State :=
  match sieveOf s i.ctx (BitVec.ofNat 32 (u32 i.d 10)), ownObj s i.ctx (BitVec.ofNat 32 (u32 i.d 10)) with
  | some t, some o =>
    let bag := u16 i.d 16
    let nbag := u16 i.d 18
    let pm := bits (u8 i.d 14) 0 4
    let ab := viewBytes s i.pl [] i.va
    let raw := (List.range (nbag * bag)).map (fun n =>
      let b := n / bag
      let e (k : Nat) := bitsFrom ab (linBit i.va i.pl.k (b * (2 * bag) + 2 * (n % bag) + k)) 32
      ((e 0).1 + (e 1).1 * 2 ^ 32, (e 0).2 || (e 1).2))
    let wb := viewBytes s i.pl [] i.vb
    let wr := if pm = 3 then viewVals false wb i.vb i.pl.k (ctxScale s i.ctx i.vb.scale) Counts.none else ([], Counts.none)
    let ws := wr.1
    let badBag (n : Nat) : Bool := (raw.getD n (0, false)).2 || (ws.getD n (FVal.zero, false)).2
    let ids : List (Option Nat) := raw.map (fun x => if nrows t ≤ x.1 then none else some x.1)
    let ga : Gather :=
      { g := i.g, ser := i.ser, ids := ids, weights := ws.map (fun x => w32 x.1), poolm := pm, baglen := bag,
        nbag := nbag, vc := i.vc, got := [], rung := [],
        bad := ((List.range (nbag * bag)).filter badBag).foldl (fun l n => addOnce (n / bag) l) [], cs := wr.2 }
    let s := sieveCount t.idx 6 (raw.filter (fun x => nrows t ≤ x.1 && x.1 != padId)).length s
    let s := { s with gathers := s.gathers ++ [ga] }
    let s := setWaitFor i .gather s
    let s := if dAtom i.d then (openAtom i s).2 else s
    let s := consumeView i ab i.va s
    let s := if pm = 3 then consumeView i wb i.vb s else s
    let s := if dAtom i.d && ga.bad != [] then
        (match s.clods.find? (fun c => c.atom == some (i.g, i.ser)) with
          | some c => failClod c.key stUNCORRECTABLE i.g 0 i.daddr s
          | none => s)
      else s
    let guarded : Bool := match outDOf s i.g i.ser with | some x => x.guarded | none => false
    let logged : List (Nat × Nat) := if guarded then loggedRungs s i.ctx i.g i.daddr else []
    let rep := replicaOf t (dieOfPed2 i.ped2)
    let s := (List.zip ids (List.range ids.length)).foldl (fun s e =>
      match e.1 with
      | none => s
      | some id =>
        match logged.find? (fun l => l.1 == e.2) with
        | some l => if l.2 = 3 then slotZero i t e.2 s else slotRung i t e.2 l.2 s
        | none =>
          match hotFind t rep id with
          | some r => hotReq i t r e.2 (updSieve t.idx (fun t => { t with
              hotRows := updWhere (fun r => r.replica == rep && r.id == id)
                (fun r => { r with lru := s.clk.pcc.toNat }) t.hotRows }) s)
          | none =>
            let s := noteMiss t rep id s
            if isHz3 o then logReq i t id e.2 s else homeReq i t o id e.2 s) s
    let s := if guarded && fromLog s i.ctx then updGuard i.g i.ser (fun u => { u with stage := 3 }) s else s
    let s := gatherEnd i s
    match guardOf s i.g i.ser with
    | some u => if u.stage = 0 && u.due ≤ segGc s i.r then gatherCutoff i.g i.ser 1 s else s
    | none => s
  | _, _ => s

def doSieveGather (g t : Nat) (s : State) : State := issueRow (fun d => dOp d == 0x14) gatherFaults gatherAct g t s

/-- The requests that a slot's row waits for. -/
def rowReqs (s : State) (g ser slot : Nat) : List Req :=
  s.hz.reqs.filter (fun q => q.g == g && q.ser == ser && !q.dead &&
    (match q.kind with | .row _ l => decide (slot ∈ l) | _ => false))

/-- The request without the slot. -/
def rowLess (slot : Nat) (q : Req) : Req :=
  match q.kind with
  | .row k l => { q with kind := .row k (l.filter (fun x => x != slot)) }
  | _ => q

/-- The slot's part of its requests has been answered; one with nothing left gives its tag back. -/
def rowTaken (g ser slot : Nat) (s : State) : State :=
  let mine (q : Req) : Bool := q.g == g && q.ser == ser && !q.dead
  let left (q : Req) : Bool := !(mine q) || (match q.kind with | .row _ l => l != [] | _ => true)
  updHz (fun h => { h with reqs := (h.reqs.map (fun q => if mine q then rowLess slot q else q)).filter left }) s

/-- A row's values serve its slot; what dequantising them counts joins the gather's counts. -/
def rowVal (i : Iss) (t : Sieve) (src slot : Nat) (v : List FVal × Counts) (bad : Bool) (s : State) : State :=
  slotServed i t.idx slot src v.1 bad (updGather i.g i.ser (fun ga => { ga with cs := ga.cs.add v.2 }) s)

/-- A row of an object is in: its values, or the poison that it was read with (R209, R378). -/
def rowIn (i : Iss) (t : Sieve) (src slot : Nat) (o : Obj) (off len : Nat) (vals : List Byte → List FVal × Counts)
    (ans : HzAnswer) (s : State) : State :=
  let q := reqNew i.ctx i.g i.ser (handleOf o) ((o.base + off) / 256) (.row src [slot]) (servedBy s o off) 0
  let r := sourceRead q o ((List.range len).map (fun k => off + k)) ans s
  let b := (List.range len).map (fun k => r.1 (off + k))
  let bad := b.any (·.2)
  let s := if bad then consumeRow i false (handleOf o) off slot r.2 else r.2
  rowVal i t src slot (vals (b.map (·.1))) bad s

/-- SIEVE_ROW_ARRIVE (R231): a slot's row arrives from the first source that holds it, or from its rung. A search of the
log that finds no entry goes on to flash (R246). -/
def doSieveRowArrive (g ser slot : Nat) (s : State) : State :=
  match outDOf s g ser, gatherOf s g ser with
  | some o, some ga =>
    match issOf s g o with
    | none => s
    | some i =>
      match sieveOf s i.ctx (BitVec.ofNat 32 (u32 i.d 10)), ga.ids.getD slot none,
          ownObj s i.ctx (BitVec.ofNat 32 (u32 i.d 10)) with
      | some t, some id, some ob =>
        let reqs := rowReqs s g ser slot
        if reqs.any (fun q => !(mayServe s q)) || (nmGet ga.got slot).isSome then s
        else
          let src := match reqs with | q :: _ => (match q.kind with | .row k _ => k | _ => 2) | [] => 2
          -- R223: one answer that is not good spoils the row
          let ans := reqs.foldl (fun a q => if a = .ok then q.ans else a) HzAnswer.ok
          let s := rowTaken g ser slot s
          let sc := ctxScale s i.ctx t.tscale
          let home (s : State) : State := rowIn i t 2 slot ob (id * t.rstride) (rowBytes t) (rowVals t sc) ans s
          let s :=
            match nmGet ga.rung slot with
            | some 1 =>
              match ownObj s i.ctx ob.rung1 with
              | some x => rowIn i t 3 slot x (id * t.shStride) (2 + (t.dim + 1) / 2) (shadowVals t) ans s
              | none => slotZero i t slot s
            | some _ =>
              match ownObj s i.ctx ob.rung2 with
              | some x => rowIn i t 4 slot x (sharedRow t x id * t.rstride) (rowBytes t) (rowVals t sc) ans s
              | none => slotZero i t slot s
            | none =>
              match src, hotFind t (replicaOf t (dieOfPed2 i.ped2)) id, dlogFind s t id with
              | 0, some r, _ =>
                let b := hotBytes s t r.slot
                let s := if b.2 then consumeRow i true t.handle (id * t.rstride) slot s else s
                rowVal i t 0 slot (rowVals t sc b.1) b.2 s
              | 1, _, some e =>
                let s := if e.bad then consumeRow i false t.dlog (e.slot * dlogEntry t) slot s else s
                rowVal i t 1 slot (rowVals t sc e.row) e.bad s
              | 1, _, none => homeReq i t ob id slot s
              | _, _, _ => home s
          gatherEnd i s
      | _, _, _ => s
  | _, _ => s

/-! ## The gradient pool -/

/-- R239: the pool's slots, and its capacity: three quarters of them. -/
def poolEntry (t : Sieve) : Nat := 16 + 16 * t.dim

def poolSlots (s : State) (t : Sieve) : Nat :=
  match objOf s t.pool with
  | some o => o.size / poolEntry t
  | none => 0

def poolCap (s : State) (t : Sieve) : Nat := poolSlots s t * 3 / 4

/-- Slot k of the pool: its entry, unless its ID is all ones (R239). -/
def poolEntAt (s : State) (t : Sieve) (k : Nat) : Option PoolEnt :=
  match objOf s t.pool with
  | none => none
  | some o =>
    let a := k * poolEntry t
    let id := leNat (objRead s o a 8)
    if id = padId then none
    else
      let b := objSpan s o a (poolEntry t)
      some { id := id, nan := bitAt (u8 b.1 8) 0, sat := bitAt (u8 b.1 8) 1, poison := bitAt (u8 b.1 8) 2 || b.2,
             acc := (List.range t.dim).map (fun j => BitVec.ofNat 128 (leNat (slice b.1 (16 + 16 * j) 16))) }

/-- The pool's entries, each with its slot. -/
def poolEnts (s : State) (t : Sieve) : List (Nat × PoolEnt) :=
  (List.range (poolSlots s t)).filterMap (fun k => (poolEntAt s t k).map (fun e => (k, e)))

/-- R239: the bytes of an entry. -/
def entBytes (e : PoolEnt) : List Byte :=
  leBytes 8 e.id ++ leBytes 1 (b2n e.nan + 2 * b2n e.sat + 4 * b2n e.poison) ++ zeros 7 ++
    e.acc.flatMap (fun a => leBytes 16 a.toNat)

def poolPut (t : Sieve) (k : Nat) (e : PoolEnt) (s : State) : State := objWriteAt t.pool (k * poolEntry t) (entBytes e) s

/-- A slot is empty: its ID is all ones. -/
def poolClear (t : Sieve) (k : Nat) (s : State) : State :=
  objWriteAt t.pool (k * poolEntry t) (pad (poolEntry t) (leBytes 8 padId)) s

/-- The pool, emptied (R239, R241). -/
def poolEmpty (t : Sieve) (s : State) : State := (List.range (poolSlots s t)).foldl (fun s k => poolClear t k s) s

/-- The first slot that is empty. Which one an open-addressed table would take, the spec does not say.
DESIGN CHOICE (log 92). -/
def poolFree (s : State) (t : Sieve) : Option Nat :=
  (List.range (poolSlots s t)).find? (fun k => (poolEntAt s t k).isNone)

def poolInsert (t : Sieve) (e : PoolEnt) (s : State) : State :=
  match poolFree s t with
  | some k => poolPut t k e s
  | none => s

/-- R244: the APPLY of the table still runs. -/
def applyRuns (s : State) (t : Sieve) : Bool :=
  match t.applying with
  | some a => (outDOf s a.1 a.2.1).isSome
  | none => false

/-- R244: no APPLY runs any more; what was added meanwhile lies in the pool. -/
def nextPeriod (t : Sieve) (s : State) : State :=
  updSieve t.idx (fun t => { t with applying := none, left := [], waits := [], nextEnts := [] })
    (t.nextEnts.foldl (fun s e => poolInsert t e s) s)

/-- An APPLY that has been given up with its segment hands the pool on to the next period. -/
def settlePool (idx : Nat) (s : State) : State :=
  match sieveAt s idx with
  | none => s
  | some t =>
    if t.applying.isSome && !(applyRuns s t) then nextPeriod t s else s

def emptyEnt (id dim : Nat) : PoolEnt :=
  { id := id, nan := false, sat := false, poison := false, acc := List.replicate dim 0 }

/-- R240: one contribution: entry, FLUSH count. -/
def contribute (st : FVal) (xs : List FVal) (bad : Bool) (e : PoolEnt) : PoolEnt × Nat :=
  let unit : Rat := match st with | .num _ q => q * pow2 (-64) | _ => 0
  (List.range e.acc.length).foldl (fun (a : PoolEnt × Nat) j =>
    match xs.getD j FVal.zero with
    | .num neg q =>
      let v := q / unit
      let n := v.num.natAbs / v.den
      if n = 0 then (a.1, a.2 + b2n (q != 0))
      else if 2 ^ 100 < n then ({ a.1 with sat := true }, a.2)
      else
        let w : BitVec 128 := BitVec.ofNat 128 n
        let old := a.1.acc.getD j 0
        ({ a.1 with acc := a.1.acc.set j (if neg then old - w else old + w) }, a.2)
    | _ => ({ a.1 with nan := true }, a.2)) ({ e with poison := e.poison || bad }, 0)

/-- The entries that an ADD finds: those of the next pool period while an APPLY runs (R244). -/
def poolNow (s : State) (t : Sieve) : List PoolEnt :=
  if t.applying.isSome then t.nextEnts else (poolEnts s t).map (·.2)

/-- R241: a contribution is dropped: counted, and the first of a pool period costs the step. -/
def poolDrop (t : Sieve) (id : Nat) (s : State) : State :=
  let ctx := sieveCtx t
  let s := sieveCount t.idx 10 1 (updSieve t.idx (fun t => { t with overflow := true, dropped := addOnce id t.dropped }) s)
  if t.overflow then s
  else segStatus ctx stSTEP_LOST (postRec 0x1C 2 (some ctx) 0xFF 0xFFFFFFFF [(0, 2, t.idx), (8, 8, id)] s)

/-- R240, R241: a contribution reaches the pool of a table, or is dropped where the pool holds its capacity or has
dropped its id before. -/
def poolAdd (idx id : Nat) (xs : List FVal) (bad : Bool) (s : State) : State :=
  let s := settlePool idx s
  match sieveAt s idx with
  | none => s
  | some t =>
    let st := ctxScale s (sieveCtx t) t.tscale
    let count (f : Nat) (s : State) : State := sieveNumeric idx 0 f (sieveCount idx 7 1 s)
    if t.applying.isSome then
      match t.nextEnts.find? (fun e => e.id == id) with
      | some e =>
        let r := contribute st xs bad e
        count r.2 (updSieve idx (fun t => { t with nextEnts := updWhere (fun x => x.id == id) (fun _ => r.1) t.nextEnts }) s)
      | none =>
        if poolCap s t ≤ t.nextEnts.length || id ∈ t.dropped then poolDrop t id s
        else
          let r := contribute st xs bad (emptyEnt id t.dim)
          count r.2 (updSieve idx (fun t => { t with nextEnts := t.nextEnts ++ [r.1] }) s)
    else
      match (poolEnts s t).find? (fun e => e.2.id == id) with
      | some e =>
        let r := contribute st xs bad e.2
        count r.2 (poolPut t e.1 r.1 s)
      | none =>
        if poolCap s t ≤ (poolEnts s t).length || id ∈ t.dropped then poolDrop t id s
        else
          let r := contribute st xs bad (emptyEnt id t.dim)
          count r.2 (poolInsert t r.1 s)

/-- R245: the new ids among prepared contributions to a table find room in its pool. -/
def addsFit (s : State) (idx : Nat) (l : List (Nat × Nat × Prep)) : Bool :=
  match sieveAt s idx with
  | none => true
  | some t =>
    let have_ := (poolNow s t).map (·.id)
    let new := l.foldl (fun ids e => match e.2.2 with
      | .add k id _ _ => if k = idx && !(id ∈ have_) then addOnce id ids else ids
      | _ => ids) []
    have_.length + new.length ≤ poolCap s t && new.all (fun id => !(id ∈ t.dropped))

/-- A prepared write takes effect; of the contributions to a table that has no room for all of them, none does (R245).
DEDUCED (log 92). -/
def applyPrepS (ctx : Nat) (fits : Nat → Bool) (e : Nat × Nat × Prep) (s : State) : State :=
  match e.2.2 with
  | .add idx id xs sc =>
    if fits idx then poolAdd idx id (xs.map (fun x => (fmul (0, 0, 0) (f32 x) (f32 sc) Counts.none).1)) false s
    else (match sieveAt s idx with | some t => poolDrop t id s | none => s)
  | _ => applyPrep ctx e s

/-- Prepared writes take effect, in order, contributions to sieve tables among them. -/
def applyAllS (ctx : Nat) (l : List (Nat × Nat × Prep)) (s : State) : State :=
  let s := l.foldl (fun s e => match e.2.2 with | .add idx _ _ _ => settlePool idx s | _ => s) s
  let at0 := s
  l.foldl (fun s e => applyPrepS ctx (fun idx => addsFit at0 idx l) e s) s

def isApply (d : List Byte) : Bool := dOp d == 0x15 && u8 d 10 != 0

def scatterFaults (s : State) (i : Iss) : List (Bool × Nat) :=
  let ops := u8 i.d 10
  let tab := sieveOf s i.ctx (BitVec.ofNat 32 (u32 i.d 12))
  let n := u16 i.d 16
  let hyp := u32 i.d 18
  let dim := match tab with | some t => t.dim | none => 0
  [(1 < ops || u8 i.d 11 != 0 || !(tailZero i.d 22), 0x0A),
   ((match tab with | some t => t.pool == 0 | none => true), 0x0A)] ++
  (if ops = 0 then
    [(!(isLocal i.va) || !(isLocal i.vb), 0x05),
     (i.va.fmt != 0 || !(floatFmt i.vb.fmt), 0x06),
     (n < 1 || hyp != 0 || i.va.sz0 != 2 || nvec i.va != n || i.vb.sz0 != dim || nvec i.vb != n, 0x0A),
     (preparedBad s i true (4 * nelem i.vb), 0x0A)]
  else
    [(n != 0 || hyp % 32 != 0, 0x0A),
     (i.pl.scratch < hyp + 32, 0x04),
     (dAtom i.d, 0x02),
     ((clodKeyOf s i.g i.t).isSome, 0x0A),
     ((match tab with | some t => applyRuns s t | none => false), 0x0A)])

/-- R206, R240: a contribution is a request to the die that serves the granule of its pool entry. -/
def addReq1 (i : Iss) (t : Sieve) (id part : Nat) (clod : Option Nat) (kind : ReqKind) (s : State) : State :=
  match objOf s t.pool with
  | none => s
  | some o =>
    let k := match (poolEnts s t).find? (fun e => e.2.id == id) with
      | some e => e.1
      | none => (poolFree s t).getD 0
    addPart i o (k * poolEntry t) part clod kind s

/-- A contribution is acknowledged: it is in the pool, or prepared in its clod (R240, R245). -/
def addAnswered (q : Req) (idx id : Nat) (xs : List W32) (sc : W32) (bad : Bool) (ans : HzAnswer) (s : State) : State :=
  let s := updHz (fun h => { h with reqs := h.reqs.filter (fun x => x.id != q.id) }) s
  let s := match objOf s q.handle with
    | some o => if ans = .poisoned then
        noteBadFrame o (q.unit * 256 - o.base) (objSetPoison q.handle [q.unit * 256 - o.base] s) else s
    | none => s
  let s := if q.clod.isSome then s
    else poolAdd idx id (xs.map (fun x => (fmul (0, 0, 0) (f32 x) (f32 sc) Counts.none).1)) bad s
  match outDOf s q.g q.ser with
  | none => s
  | some _ => if fetchOpen s q.g q.ser then s else workDone q.g q.ser (endAtom q.g q.ser applyAllS s)

/-- ADD: it completes when every contribution has been acknowledged (R240). -/
def addAct (i : Iss) (s : State) : State :=
  match sieveOf s i.ctx (BitVec.ofNat 32 (u32 i.d 12)) with
  | none => s
  | some t =>
    let ab := viewBytes s i.pl [] i.va
    let bb := viewBytes s i.pl [] i.vb
    let sg := ctxScale s i.ctx i.vb.scale
    let n := u16 i.d 16
    let ents := (List.range n).map (fun e =>
      let a (k : Nat) := bitsFrom ab (linBit i.va i.pl.k (2 * e + k)) 32
      let xs := (List.range t.dim).map (fun j =>
        let c := bitsFrom bb (linBit i.vb i.pl.k (e * t.dim + j)) (fmtW i.vb.fmt)
        (decodeF i.vb.fmt c.1, c.2))
      ((a 0).1 + (a 1).1 * 2 ^ 32, xs.map (·.1), (a 0).2 || (a 1).2 || xs.any (·.2)))
    let r0 := match clodKeyOf s i.g i.t with
      | some k => (some k, s)
      | none => if dAtom i.d then (let a := openAtom i s; (some a.1, a.2)) else (none, s)
    let clod := r0.1
    let s := r0.2
    let s := sieveCount t.idx 6 (ents.filter (fun e => nrows t ≤ e.1 && e.1 != padId)).length s
    let s := (List.zip ents (List.range n)).foldl (fun s e =>
      let x := e.1
      if nrows t ≤ x.1 then s
      else
        let s := match clod with
          | some k =>
            let s := if x.2.2 then failClod k stUNCORRECTABLE i.g e.2 i.daddr s else s
            addPrep k i.g (4 * t.dim) (.add t.idx x.1 (x.2.1.map w32) (w32 sg)) s
          | none => s
        addReq1 i t x.1 e.2 clod (.add t.idx x.1 (x.2.1.map w32) (w32 sg) x.2.2) s) s
    let bad := ents.any (fun e => e.2.2)
    let s :=
      if !bad then s
      else match clod with
        | some _ => postRec 0x07 2 (some i.ctx) (dieOfPed2 i.ped2) i.g
            [(8, 8, (firstPoison bb i.vb i.pl.k).getD ((firstPoison ab i.va i.pl.k).getD 0)), (16, 8, i.daddr.toNat)] s
        | none => consumeView i bb i.vb (consumeView i ab i.va s)
    if fetchOpen s i.g i.ser then setWaitFor i .requests s else endAtom i.g i.ser applyAllS s

def doSieveScatterAdd (g t : Nat) (s : State) : State :=
  issueRow (fun d => dOp d == 0x15 && !(isApply d)) scatterFaults addAct g t s

/-! ## APPLY (R242-R245) -/

/-- The hyperparameters at HYP: LR, EPS, B1, B2, C1, C2. -/
structure Hyp where
  lr : FVal
  eps : FVal
  b1 : FVal
  b2 : FVal
  c1 : FVal
  c2 : FVal
  deriving DecidableEq, Repr

def hypOf (b : List Byte) : Hyp :=
  let f (n : Nat) : FVal := decodeF 0 (u32 b (4 * n))
  { lr := f 0, eps := f 1, b1 := f 2, b2 := f 3, c1 := f 4, c2 := f 5 }

def natQ (n : Nat) : FVal := .num false (mkRat (Int.ofNat n) 1)

/-- R242: the gradient of a pooled element: exact value, one rounding. -/
def gradOf (st : FVal) (a : BitVec 128) : FVal :=
  match st with
  | .num _ q => r1 (FVal.ofRat (mkRat a.toInt 1 * q * pow2 (-64)) false)
  | x => x

/-- R242: new elements and new state of a row. -/
def optStep (opt : Nat) (h : Hyp) (ws gs : List FVal) (st : List Byte) : List FVal × List Byte :=
  let n := ws.length
  let at_ (l : List FVal) (j : Nat) : FVal := l.getD j FVal.zero
  if opt = 0 then ((List.range n).map (fun j => fadd1 (at_ ws j) (at_ gs j).negate), st)
  else
    let q := fdiv1 (vecReduce false 0x23 0 gs Counts.none).1 (natQ n)
    if opt = 1 then
      let g := fadd1 (decodeF 0 (u32 st 0)) q
      let k := fdiv1 h.lr (fadd1 (fsqrt1 g) h.eps)
      ((List.range n).map (fun j => fsub1 (at_ ws j) (fmul1 k (at_ gs j))), patch st 0 (leBytes 4 (pack 0 g)))
    else
      let one1 : FVal := natQ 1
      let ms := (List.range n).map (fun j =>
        (convert false 1 (fadd1 (fmul1 h.b1 (decodeF 1 (u16 st (4 + 2 * j)))) (fmul1 (fsub1 one1 h.b1) (at_ gs j)))
          Counts.none).1)
      let v := fadd1 (fmul1 h.b2 (decodeF 0 (u32 st 0))) (fmul1 (fsub1 one1 h.b2) q)
      let k := fdiv1 h.lr (fadd1 (fsqrt1 (fmul1 h.c2 v)) h.eps)
      let st := patch st 0 (leBytes 4 (pack 0 v))
      ((List.range n).map (fun j => fsub1 (at_ ws j) (fmul1 k (fmul1 h.c1 (at_ ms j)))),
       (List.range n).foldl (fun st j => patch st (4 + 2 * j) (leBytes 2 (pack 1 (at_ ms j)))) st)

/-- R242, SR: floor(w / s_t + u), clamped. -/
def srCode (t : Sieve) (c : Ctx) (st : FVal) (id j : Nat) (w : FVal) (cs : Counts) : Nat × Counts :=
  let blk := marl10 c.stepSeed c.step (BitVec.ofNat 64 (id * 2 ^ 8 + j / 4)) (BitVec.ofNat 32 (0xFFFF0000 + t.idx))
  let u := mkRat (Int.ofNat ((marlWord blk (j % 4)).toNat / 256)) 1 * pow2 (-24)
  match descale w st with
  | .num neg q =>
    let x : Int := ((if neg then -q else q) + u).floor
    if x < -128 then (128, { cs with sat := cs.sat + 1 })
    else if 127 < x then (127, { cs with sat := cs.sat + 1 })
    else ((x % 256).toNat, cs)
  | y => let r := convert false 8 y cs; (pack 8 r.1, r.2)

/-- R242: the row's codes after an update, and the SAT and OVF counts. -/
def rowCodes (t : Sieve) (c : Ctx) (st : FVal) (id : Nat) (ws : List FVal) : List Nat × Counts :=
  (List.range ws.length).foldl (fun (a : List Nat × Counts) j =>
    let w := ws.getD j FVal.zero
    if t.sr then let r := srCode t c st id j w a.2; (a.1 ++ [r.1], r.2)
    else let r := convert false t.tfmt (descale w st) a.2; (a.1 ++ [pack t.tfmt r.1], r.2)) ([], Counts.none)

/-- n free codes of four bits. DESIGN CHOICE (log 105). -/
def freeCodes : Nat → State → List Nat × State
  | 0, s => ([], s)
  | n + 1, s =>
    let a := freeBits 4 s
    let r := freeCodes n a.2
    (a.1.toNat :: r.1, r.2)

/-- R243: the shadow of a row whose quantised elements times s_t are `ws`. What the spec gives no value is free.
DESIGN CHOICE (log 105). -/
def shadowRow (dim : Nat) (ws : List FVal) (s : State) : List Byte × State :=
  let pack4 (f : Nat) (cs : List Nat) : List Byte :=
    leBytes 2 f ++ leBytes ((dim + 1) / 2) (cs.reverse.foldl (fun v c => v * 16 + c % 16) 0)
  if ws.any nonFinite then
    let f := freeBits 16 s
    let r := freeCodes dim f.2
    (pack4 f.1.toNat r.1, r.2)
  else
    let m := ws.foldl (fun m x => max m (match x with | .num _ q => q | _ => 0)) 0
    if m = 0 then (pack4 0 (List.replicate dim 0), s)
    else
      let f := (convert false 2 (.num false (m / 7)) Counts.none).1
      if f.isZero then
        let r := freeCodes dim s
        (pack4 (pack 2 f) r.1, r.2)
      else
        (pack4 (pack 2 f) (ws.map (fun w => pack 9 (convert false 9 (fdivX w f) Counts.none).1)), s)
where
  fdivX (w f : FVal) : FVal :=
    match w, f with
    | .num n p, .num _ q => .num n (p / q)
    | .num n _, _ => .num n 0
    | w, _ => w

/-- The row's update has no log entry to go to (R249). -/
def dlogFull (s : State) (t : Sieve) (o : Obj) (id : Nat) : Bool :=
  isHz3 o && (dlogFind s t id).isNone && dlogCap s t ≤ dlogUsed s t

/-- R245, R378: where the poison of a row that APPLY leaves lies: in its pool entry, its log entry, its row or its
state. -/
def poisonOf (s : State) (t : Sieve) (o : Obj) (k : Nat) (e : PoolEnt) : W32 × Nat :=
  if e.poison then (t.pool, k * poolEntry t)
  else match if isHz3 o then dlogFind s t e.id else none with
    | some l => (t.dlog, l.slot * dlogEntry t)
    | none => if (objSpan s o (e.id * t.rstride) t.rstride).2 then (t.handle, e.id * t.rstride)
        else (t.handle, t.stateOff + e.id * sstride t.opt t.dim)

/-- The record of an APPLY that consumes poison. -/
def consumeApply (g : Nat) (daddr : W64) (at_ : W32 × Nat) (s : State) : State :=
  match objOf s at_.1 with
  | some o => consumePoison o.ctx g (hznAtOff o at_.2) 0 at_.1 (o.base + at_.2) daddr s
  | none => s

/-- One pooled row is updated, with its state, hot copies and shadow, as one step (R244, R247). DEDUCED (log 92). -/
def applyRow (g : Nat) (daddr : W64) (hyp : List Byte) (t : Sieve) (o : Obj) (k : Nat) (e : PoolEnt) (s : State) : State :=
  let ctx := sieveCtx t
  let idx := t.idx
  let at_ := poisonOf s t o k e
  let s := poolClear t k s
  let cur := rowCurrent s t o e.id
  match ctxOf s ctx with
  | none => s
  | some c =>
    if e.nan || e.sat || e.poison || cur.2.2 then
      let s := sieveCount idx 9 1 s
      if e.poison || cur.2.2 then consumeApply g daddr at_ s else s
    else
      let st := ctxScale s ctx t.tscale
      let r := optStep t.opt (hypOf hyp) (rowVals t st cur.1).1 (e.acc.map (gradOf st)) cur.2.1
      let codes := rowCodes t c st e.id r.1
      let nb := fmtW t.tfmt / 8
      let row := (List.zip codes.1 (List.range codes.1.length)).foldl
        (fun b x => patch b (x.2 * nb) (leBytes nb x.1)) cur.1
      let s := sieveNumeric idx (codes.2.sat + codes.2.ovf) 0 (sieveCount idx 8 1 s)
      let s := (t.hotRows.filter (fun h => h.id == e.id)).foldl (fun s h => hotPut t h.slot e.id row s) s
      let s :=
        if isHz3 o then
          (match sieveAt s idx with | some t => dlogPut t e.id row r.2 s | none => s)
        else
          let w := runAt (e.id * t.rstride) (row.take (rowBytes t)) ++
            runAt (t.stateOff + e.id * sstride t.opt t.dim) r.2
          objWrite t.handle w s
      if o.rung1 = 0 then s
      else
        let vs := codes.1.map (fun x => (fmul (0, 0, 0) (decodeF t.tfmt x) st Counts.none).1)
        let sh := shadowRow t.dim vs s
        objWriteAt o.rung1 (e.id * t.shStride) sh.1 sh.2

/-- The granules of the table that a row's bytes and state lie in. -/
def rowGranules (t : Sieve) (id : Nat) : List Nat :=
  let n := sstride t.opt t.dim
  let a := id * t.rstride
  let b := t.stateOff + id * n
  let g (x len : Nat) : List Nat := if len = 0 then [] else [x / 65536, (x + len - 1) / 65536]
  (g a t.rstride ++ g b n).foldl (fun l x => addOnce x l) []

/-- The log's entries that a merge of granule j has still to write. -/
def mergeEnts (s : State) (t : Sieve) (j : Nat) : List DlogEnt :=
  (dlogEnts s t).filter (fun e => j ∈ rowGranules t e.id && !(j ∈ e.done))

/-- A drive has a free 64 KiB granule. -/
def driveRoom (s : State) (d : Nat) : Bool := (s.hz.used3.filter (fun e => e.1 == d)).length < s.hz.driveGran

/-- R248: with the log at least half full, of its slots, the merge of the lowest granule that has entries begins: the granule
is read. Merges of a drive without a free granule wait, and a warning is written, one for each drive in a cold start. Which
granule comes first, half of what, and how many warnings, the spec leaves open. DESIGN CHOICE (log 92). -/
def mergeStart (idx : Nat) (s : State) : State :=
  match sieveAt s idx with
  | none => s
  | some t =>
    match objOf s t.handle with
    | none => s
    | some o =>
      if !(isHz3 o) || t.merge.isSome || dlogUsed s t * 2 < dlogSlots s t then s
      else
        let js := (dlogEnts s t).flatMap (fun e => (rowGranules t e.id).filter (fun j =>
          !(j ∈ e.done) && !(t.merging.any (fun m => m.1 == j))))
        let full := (js.map (fun j => (granOf o j).unit)).foldl (fun l d => if driveRoom s d then l else addOnce d l) []
        let s := full.foldl (fun s d => if d ∈ s.hz.mergeWarned then s
          else configWarn 2 d 6 0 (updHz (fun h => { h with mergeWarned := addOnce d h.mergeWarned }) s)) s
        match js.filter (fun j => !((granOf o j).unit ∈ full)) with
        | [] => s
        | j0 :: r =>
          let j := r.foldl min j0
          copyUnits (.merge idx j) false o j (homeLoc o (j * 65536)) (updSieve idx (fun t => { t with
            merge := some { granule := j, phase := 0, frame := 0, seq := 0, flush := 0 } }) s)

/-! ### Switching merges in (R248) -/

/-- One merged granule is switched in, and the entries that it holds are freed. A promoted copy of the granule (R213)
stays valid, as the spec does not say otherwise. DESIGN CHOICE (log 92). -/
def switchOne (idx : Nat) (m : Nat × Nat × Nat) (s : State) : State :=
  match sieveAt s idx with
  | none => s
  | some t =>
    match objOf s t.handle with
    | none => s
    | some o =>
      let old := granOf o m.1
      let keep := match ctxOf s (sieveCtx t) with
        | some c => (match c.sec.pol with | some p => p.en | none => false)
        | none => false
      let s := updObj t.handle (fun o => { o with gran := o.gran.set m.1 { granOf o m.1 with loc := m.2.1 } }) s
      let s := if keep then updSieve idx (fun t => { t with oldLbas := t.oldLbas ++ [(old.unit, old.loc)] }) s
        else freeDrive old.unit old.loc s
      let s := sieveCount idx 13 1 (updSieve idx (fun t => { t with merging := t.merging.filter (fun x => x.1 != m.1) }) s)
      (dlogEnts s t).foldl (fun s e =>
        if e.seq ≤ m.2.2 && m.1 ∈ rowGranules t e.id then
          let done := addOnce m.1 e.done
          if (rowGranules t e.id).all (fun g => g ∈ done) then dlogClear t e.slot s
          else updSieve idx (fun t => { t with dlDone := nmSet e.slot done t.dlDone }) s
        else s) s

/-- The merges of a table that are written are switched in; the next one begins (R248). -/
def switchMerged (idx : Nat) (s : State) : State :=
  match sieveAt s idx with
  | none => s
  | some t => mergeStart idx (t.merging.foldl (fun s m => switchOne idx m s) s)

/-! ### The accesses of an APPLY (R206, R242, R247) -/

/-- Requests of the far end for bytes of an object. -/
def spanReq (kind : ReqKind) (die : Nat) (o : Obj) (off len : Nat) (s : State) : State :=
  (spanOf o off len).foldl (fun s p =>
    addReqAt die o.ctx 0xFFFFFFFF 0 o p.1 [p.1, p.1 + p.2 - 1] kind none 0 s) s

/-- The row's entry moves nothing but itself (R245). -/
def applySkips (e : PoolEnt) : Bool := e.nan || e.sat || e.poison

/-- The requests of one pooled row, from the die that serves its pool entry: it reads the entry with the row and its
state, or the log (stage 0); then flash, where the log lacks the row (stage 1); then it writes the row with its state,
hot copies and shadow, and empties the entry (stage 2). DESIGN CHOICE (log 92). -/
def applyAsk (t : Sieve) (o po : Obj) (k stage : Nat) (e : PoolEnt) (s : State) : State :=
  let die := dieOfPool (servedBy s po (k * poolEntry t)).1
  let kind : ReqKind := .apply t.idx k stage
  let n := sstride t.opt t.dim
  let home (s : State) : State :=
    spanReq kind die o (t.stateOff + e.id * n) n (spanReq kind die o (e.id * t.rstride) (rowBytes t) s)
  let log (slot : Nat) (s : State) : State := match objOf s t.dlog with
    | some l => spanReq kind die l (slot * dlogEntry t) (if stage = 2 then dlogEntry t else 1) s
    | none => s
  if stage = 1 then home s
  else
    let s := spanReq kind die po (k * poolEntry t) (poolEntry t) s
    if applySkips e || (stage = 2 && (rowCurrent s t o e.id).2.2) then s
    else if stage = 0 then
      if !(isHz3 o) then home s
      else log (match dlogFind s t e.id with
        | some l => l.slot
        | none => Config.dlogProbe t.salt e.id % max (dlogSlots s t) 1) s
    else
      let s := if isHz3 o then log ((dlogSlot s t e.id).getD 0) s else home s
      let s := (t.hotRows.filter (fun h => h.id == e.id)).foldl (fun s h =>
        enterReq (reqNew o.ctx 0xFFFFFFFF 0 t.handle 0 kind (hotPool t h.replica h.slot) die) s) s
      match (if o.rung1 = 0 then none else objOf s o.rung1) with
      | some r => spanReq kind die r (e.id * t.shStride) (2 + (t.dim + 1) / 2) s
      | none => s

/-- The writes of a row are sent, unless it must wait for a log entry (R249). -/
def applyTry (idx k : Nat) (s : State) : State :=
  match sieveAt s idx with
  | none => s
  | some t =>
    match objOf s t.handle, objOf s t.pool, poolEntAt s t k with
    | some o, some po, some e =>
      if dlogFull s t o e.id && !(applySkips e) then updSieve idx (fun t => { t with waits := addOnce k t.waits }) s
      else applyAsk t o po k 2 e (updSieve idx (fun t => { t with waits := del k t.waits }) s)
    | _, _, _ => s

/-- R249: rows wait for the log. Merges that are written are switched in at once, since the segment has no boundary before
its APPLY completes, and the rows try again. DEDUCED (log 92). -/
def applyWaits (idx : Nat) (s : State) : State :=
  match sieveAt s idx with
  | none => s
  | some t =>
    if t.waits = [] then s
    else if t.merging = [] then mergeStart idx s
    else t.waits.foldl (fun s k => applyTry idx k s) (switchMerged idx s)

/-- APPLY has completed once every pooled row is updated; the pool is empty but for what was added meanwhile (R242,
R244). -/
def applyEnd (idx : Nat) (s : State) : State :=
  match sieveAt s idx with
  | none => s
  | some t =>
    match t.applying with
    | some (g, ser, _) => if t.left = [] then settle g (workDone g ser (nextPeriod t s)) else s
    | none => s

/-- The row has had every answer of a stage: the next stage begins, or its update takes effect. -/
def applyNext (idx k stage : Nat) (s : State) : State :=
  if s.hz.reqs.any (fun q => match q.kind with | .apply x y _ => x == idx && y == k | _ => false) then s
  else match sieveAt s idx with
    | none => s
    | some t =>
      match objOf s t.handle, objOf s t.pool, poolEntAt s t k, t.applying with
      | some o, some po, some e, some (g, ser, hyp) =>
        if stage = 0 && isHz3 o && !(applySkips e) && (dlogFind s t e.id).isNone then applyAsk t o po k 1 e s
        else if stage ≤ 1 || (dlogFull s t o e.id && !(applySkips e)) then applyWaits idx (applyTry idx k s)
        else
          let daddr := match outDOf s g ser with | some d => d.daddr | none => 0
          let s := applyRow g daddr hyp t o k e s
          mergeStart idx (applyEnd idx (updSieve idx (fun t => { t with left := del k t.left }) s))
      | _, _, _, _ => applyEnd idx (updSieve idx (fun t => { t with left := del k t.left }) s)

/-- An answer to an APPLY's access; bad data poisons what was read. -/
def applyAnswered (q : Req) (idx k stage : Nat) (ans : HzAnswer) (s : State) : State :=
  let s := updHz (fun h => { h with reqs := h.reqs.filter (fun x => x.id != q.id) }) s
  let s := match objOf s q.handle with
    | some o =>
      let off := q.unit * 256 - o.base
      if ans = .ok || stage = 2 || q.unit = 0 then s
      else match hz4CauseAt s o (locOf o off) ans with
        | some c => hz4Failure o off c s
        | none => noteBadFrame o off (objSetPoison q.handle [off] s)
    | none => s
  applyNext idx k stage s

/-- A request is answered: a contribution's, an APPLY's, or any other. -/
def answerReq (q : Req) (ans : HzAnswer) (s : State) : State :=
  match q.kind with
  | .add idx id xs sc bad => addAnswered q idx id xs sc bad ans s
  | .apply idx k stage => applyAnswered q idx k stage ans s
  | _ => respond q ans s

/-- APPLY (R242): the hyperparameters are read when it issues, and the requests of every row of the pool go out. -/
def applyAct (i : Iss) (s : State) : State :=
  match sieveOf s i.ctx (BitVec.ofNat 32 (u32 i.d 12)) with
  | none => s
  | some t =>
    let s := settlePool t.idx s
    let a := u32 i.d 18
    let hyp := lsRead s i.pl a 32
    let s := if lsPoisoned s i.pl a 32 then
        (poolEnts s t).foldl (fun s e => poolPut t e.1 { e.2 with poison := true } s)
          (consumePoison i.ctx i.g 0 0 0 a i.daddr s)
      else s
    let es := poolEnts s t
    let s := updSieve t.idx (fun t => { t with
      applying := some (i.g, i.ser, hyp), left := es.map (·.1), waits := [], overflow := false, dropped := [] }) s
    let s := setWaitFor i .apply s
    match objOf s t.handle, objOf s t.pool with
    | some o, some po => mergeStart t.idx (applyEnd t.idx (es.foldl (fun s e => applyAsk t o po e.1 0 e.2 s) s))
    | _, _ => s

def doSieveScatterApply (g t : Nat) (s : State) : State := issueRow isApply scatterFaults applyAct g t s

/-! ## Merges (R248) and segment boundaries (R235) -/

/-- R248: the granule has been read: the log's entries are applied and the result goes to free LBAs of its drive. With
no free granule there any more, the merge waits, and others may go on. -/
def mergeWrite (idx : Nat) (s : State) : State :=
  match sieveAt s idx with
  | none => s
  | some t =>
    match t.merge, objOf s t.handle with
    | some m, some o =>
      let d := (granOf o m.granule).unit
      let es := mergeEnts s t m.granule
      match allocDrive d s with
      | none => mergeStart idx (updSieve idx (fun t => { t with merge := none }) s)
      | some (f, s) =>
        let dst : Loc := .hz3 d (f * 65536)
        let s := copyGranule o m.granule (homeLoc o (m.granule * 65536)) dst s
        let n := sstride t.opt t.dim
        let bytes := es.flatMap (fun e =>
          runAt (e.id * t.rstride) (e.row.take t.rstride) ++ runAt (t.stateOff + e.id * n) (e.state.take n))
        let mine := bytes.filter (fun b => b.1 / 65536 == m.granule)
        let s := mine.foldl (fun s b => locSet b.2 (.hz3 d (f * 65536 + b.1 % 65536)) s) s
        copyUnits (.merge idx m.granule) true o m.granule dst (updSieve idx (fun t => { t with
          merge := some { m with phase := 2, frame := f, seq := es.foldl (fun a e => max a e.seq) 0 } }) s)
    | _, _ => s

/-- R248, R219: a step of a merge has ended at its drive: the Read is followed by the Write, and that by a Flush. -/
def mergeStep (w : CopyOf) (write : Bool) (s : State) : State :=
  match w with
  | .merge idx j =>
    (match (sieveAt s idx).bind (·.merge) with
    | some m =>
      if m.granule ≠ j then s
      else if !write then mergeWrite idx s
      else
        let d := match (sieveAt s idx).bind (fun t => objOf s t.handle) with | some o => (granOf o j).unit | none => 0
        updSieve idx (fun t => { t with merge := some { m with phase := 3, flush := s.hz.nextNvme } }) (nvmePut d 2 [] [] s)
    | none => s)
  | _ => s

/-- A Flush has completed: the merge that waits for it is written. -/
def mergeFlushed (cmd : Nat) (s : State) : State :=
  { s with sieves := s.sieves.map (fun t => { t with
      merge := t.merge.map (fun m => if m.phase = 3 && m.flush = cmd then { m with phase := 4 } else m) }) }

/-- R248: merges of a context's tables are switched in at a segment boundary. -/
def mergeSwitch (ctx : Nat) (s : State) : State :=
  (s.sieves.filter (fun t => sieveCtx t == ctx)).foldl (fun s t => switchMerged t.idx s) s

/-- DLOG_MERGE_GRANULE_DONE: a granule with log entries has been rewritten to free LBAs of its drive and flushed; it
waits for the context's boundary. A merge that waits for free LBAs tries again. -/
def doDlogMergeGranuleDone (table j : Nat) (s : State) : State :=
  match sieveAt s table with
  | none => s
  | some t =>
    match t.merge with
    | none => mergeStart table s
    | some m =>
      if m.granule ≠ j || m.phase ≠ 4 then s
      else applyWaits table (mergeStart table (updSieve table (fun t => { t with
        merge := none, merging := t.merging ++ [(j, m.frame, m.seq)] }) s))

def insertById (x : Nat × Nat) : List (Nat × Nat) → List (Nat × Nat)
  | [] => [x]
  | y :: r => if x.2 < y.2 || (x.2 == y.2 && x.1 ≤ y.1) then x :: y :: r else y :: insertById x r

/-- R234, R235: one row admitted to a replica, in place of the least recently gathered of its set; its copy is read at
its home and written in HZ1 within the share of R214. DEDUCED (log 92). -/
def admitOne (idx : Nat) (m : Nat × Nat) (s : State) : State :=
  match sieveAt s idx with
  | none => s
  | some t =>
    match objOf s t.handle with
    | none => s
    | some o =>
      let sets := max (hotCap t / 8) 1
      let ways := min 8 (hotCap t)
      let set := Config.hotSet t.salt m.2 % sets
      let base := m.1 * hotCap t + set * 8
      let cur := rowCurrent s t o m.2
      if (hotFind t m.1 m.2).isSome || cur.2.2 || hotCap t = 0 then s
      else
        let mine := t.hotRows.filter (fun r => r.replica == m.1 && base ≤ r.slot && r.slot < base + ways)
        let free := (List.range ways).find? (fun w => !(mine.any (fun r => r.slot == base + w)))
        let old := mine.foldl (fun (v : Option HotRow) r =>
          match v with
          | none => some r
          | some x => if r.lru < x.lru then some r else some x) none
        let slot := match free, old with
          | some w, _ => base + w
          | none, some v => v.slot
          | none, none => base
        let row : HotRow := { replica := m.1, id := m.2, slot := slot, lru := s.clk.pcc.toNat }
        let s := hotPut t slot m.2 cur.1 (updSieve idx (fun t => { t with
          hotRows := t.hotRows.filter (fun r => r.slot != slot) ++ [row] }) s)
        let w : CopyOf := .hotRow idx m.1 slot
        let off := m.2 * t.rstride
        let s := enterReq (copyReq w false o (off / 65536) (locOf o (off / 65536 * 65536)) (off % 65536 / 256) s) s
        let sv := hotPool t m.1 slot
        let s := enterReq (reqNew o.ctx 0xFFFFFFFF 0 t.handle 0 (.copy w true 0) sv (dieOfPool sv.1)) s
        sieveCount idx 11 1 s

/-- R235: at a segment boundary the marked rows are admitted, in ascending id. -/
def admitHot (ctx : Nat) (s : State) : State :=
  (s.sieves.filter (fun t => sieveCtx t == ctx)).foldl (fun s t =>
    let ms := t.marked.foldl (fun l m => insertById m l) []
    ms.foldl (fun s m => admitOne t.idx m s) (updSieve t.idx (fun t => { t with marked := [] }) s)) s

/-- R235: misses are counted within one step. -/
def sieveStepEnd (ctx : Nat) (s : State) : State :=
  { s with sieves := s.sieves.map (fun t => if sieveCtx t = ctx then { t with misses := [] } else t) }

/-- R362: old LBAs of merged granules are given back once a secure point has completed. DEDUCED (log 92). -/
def freeOldLbas (ctx : Nat) (s : State) : State :=
  (s.sieves.filter (fun t => sieveCtx t == ctx)).foldl (fun s t =>
    t.oldLbas.foldl (fun s x => freeDrive x.1 x.2 s) (updSieve t.idx (fun t => { t with oldLbas := [] }) s)) s

def execSieveGather (g t : Nat) (s : State) : Host.Outcome State Fault Refusal := .next (doSieveGather g t s)
def execSieveRowArrive (g ser slot : Nat) (s : State) : Host.Outcome State Fault Refusal :=
  .next (doSieveRowArrive g ser slot s)
def execSieveScatterAdd (g t : Nat) (s : State) : Host.Outcome State Fault Refusal := .next (doSieveScatterAdd g t s)
def execSieveScatterApply (g t : Nat) (s : State) : Host.Outcome State Fault Refusal := .next (doSieveScatterApply g t s)
def execDlogMergeGranuleDone (table granule : Nat) (s : State) : Host.Outcome State Fault Refusal :=
  .next (doDlogMergeGranuleDone table granule s)

end Sys2Proof.Machine
end

