-- ==== Sys2Proof/Machine/Fabric.lean ====
section
/-! DEFINITION. The loess fabric (chapter 09): ports and their training (R252-R255), coordinates and routes
(R256-R259), flits, replay and credits (R261-R263), and the fabric registers (R294). -/

namespace Sys2Proof.Machine

open Sys2Proof

/-! ## Coordinates and routes -/

def pkgId (s : State) : Nat := bits s.fab.torus.toNat 0 14

/-- R256, R294: size of dimension d. -/
def dimSize (t : W32) (d : Nat) : Nat :=
  1 + (if d = 0 then bits t.toNat 16 3 else if d = 1 then bits t.toNat 19 3
    else if d = 2 then bits t.toNat 22 4 else bits t.toNat 26 4)

/-- R256: coordinate d of a package id. -/
def dimCoord (id d : Nat) : Nat :=
  if d = 0 then bits id 0 3 else if d = 1 then bits id 3 3 else if d = 2 then bits id 6 4 else bits id 10 4

def idInTorus (t : W32) (id : Nat) : Bool :=
  id < 16384 && (List.range 4).all (fun d => dimCoord id d < dimSize t d)

/-- R257: the entry that firmware fills in: dimensions a, b, c, d in order, the shorter way, + when equal. -/
def routeDefault (t : W32) (id : Nat) : Nat :=
  let me := bits t.toNat 0 14
  if !(idInTorus t id) then 16
  else if id = me then 8
  else
    let d := ((List.range 4).find? (fun d => dimCoord id d != dimCoord me d)).getD 0
    let n := dimSize t d
    let fwd := (dimCoord id d + n - dimCoord me d % n) % n
    2 * d + b2n (n - fwd < fwd)

def routeByte (s : State) (id : Nat) : Nat :=
  match nmGet s.fab.routeOv id with
  | some b => b.toNat
  | none => routeDefault s.fab.torus id

/-- Open in the spec: DESIGN CHOICE (log 1). -/
def fportReset : FPort :=
  { st := .down, en := false, peer := 0, peerdir := 0, replays := 0, retrains := 0, rwp := 0, txSeq := 0, rxSeq := 0,
    buf := [], wait := [], turn := 0, left := 8, naks := 0, nakSeq := 0, credits := [], rejoin := false, retraining := false,
    identing := false, retrainCid := none }

def fportOf (s : State) (p : Nat) : FPort := nmGetD s.fab.ports p fportReset

def updFab (f : Fab → Fab) (s : State) : State := { s with fab := f s.fab }

def updFport (p : Nat) (f : FPort → FPort) (s : State) : State :=
  updFab (fun b => { b with ports := nmUpdD p fportReset f b.ports }) s

/-- The L-dies whose port of direction dir is in the hash (R259): those that are UP; one that has returned waits to
rejoin, unless no other port of the bundle is UP. DEDUCED (log 93). -/
def upLdies (s : State) (dir : Nat) : List Nat :=
  let up := (List.range 8).filter (fun l => (fportOf s (8 * l + dir)).st == .up)
  match up.filter (fun l => !(fportOf s (8 * l + dir)).rejoin) with
  | [] => up
  | l => l

/-- Where a flit to a package goes. -/
inductive Hop where
  | drop
  | inside
  | dir (d : Nat)
  deriving DecidableEq, Repr

/-- R257, R259: the next hop; a bundle that is down counts as DROP. -/
def nextHop (s : State) (dst : Nat) : Hop :=
  let r := routeByte s dst
  if bitAt r 4 then .drop
  else if bitAt r 3 then .inside
  else if upLdies s (r % 8) = [] then .drop else .dir (r % 8)

/-- R259: the hash chooses one of the ports `l`; where that one is not in the hash (`up`), it chooses again among the
others. A port that leaves UP so moves the flows that it carried and no other. DEDUCED (log 93). -/
def pickFrom (up : List Nat) : Nat → Nat → List Nat → Nat
  | 0, _, _ => 0
  | fuel + 1, h, l =>
    let n := max l.length 1
    let x := l.getD (h % n) 0
    if x ∈ up then x else pickFrom up fuel (h / n) (l.erase x)

/-- R259: the L-die that a flow takes. -/
def pickLdie (s : State) (src dst tc key dir : Nat) : Nat :=
  pickFrom (upLdies s dir) 8 (Config.portHash src dst tc key) (List.range 8)

/-- The L-die that traffic to a package leaves by; to this package itself the hash is taken over all eight. -/
def ldieFor (s : State) (dst tc key : Nat) : Nat :=
  match nextHop s dst with
  | .dir d => pickLdie s (pkgId s) dst tc key d
  | _ => Config.portHash (pkgId s) dst tc key % 8

/-! ## Flits -/

def flitTc (f : Flit) : Nat := bits (u64 f 0) 28 3
def flitVl (f : Flit) : Nat := bits (u64 f 0) 31 1
def flitFt (f : Flit) : Nat := bits (u64 f 0) 25 3
def flitSeq (f : Flit) : BitVec 12 := BitVec.ofNat 12 (u64 f 0)
def flitAck (f : Flit) : BitVec 12 := BitVec.ofNat 12 (bits (u64 f 0) 12 12)
def flitNak (f : Flit) : Bool := bitAt (u64 f 0) 24
def flitOp (f : Flit) : Nat := bits (u8 f 8) 0 4
def flitHops (f : Flit) : Nat := u8 f 9
def flitDst (f : Flit) : Nat := bits (u16 f 10) 0 14
def flitSrc (f : Flit) : Nat := bits (u16 f 12) 0 14

/-- R261: the CRC of bytes 0-251 agrees, and the flit has its 256 bytes. -/
def flitGood (f : Flit) : Bool := f.length == 256 && (crc32c (f.take 252)).toNat == u32 f 252

/-- A flit with its link word set and its CRC computed. -/
def sealFlit (link : Nat) (f : Flit) : Flit :=
  let b := patch (pad 256 f) 0 (leBytes 8 link)
  patch b 252 (leBytes 4 (crc32c (b.take 252)).toNat)

/-- A DATA flit before transmission: class, lane, 20 header bytes, payload. -/
def dataFlit (tc vl : Nat) (hdr payload : List Byte) : Flit :=
  leBytes 8 (vl * 2 ^ 31 + tc * 2 ^ 28) ++ pad 20 hdr ++ pad 224 payload ++ zeros 4

/-- R263, R294: the credits of each class and lane at bring-up. -/
def creditInit (s : State) : List Nat :=
  (List.range 16).map (fun i => bits s.fab.credit.toNat (8 * (i / 2)) 8 / 2)

/-- A flit leaves a port: it takes the next SEQ, carries what has been received, and is kept for replay (R262). -/
def sendNow (p : Nat) (f : Flit) (s : State) : State :=
  let fp := fportOf s p
  let link := flitVl f * 2 ^ 31 + flitTc f * 2 ^ 28 + flitFt f * 2 ^ 25 + (fp.rxSeq - 1).toNat * 2 ^ 12 + fp.txSeq.toNat
  let out := sealFlit link f
  let i := 2 * flitTc f + flitVl f
  let s := updFport p (fun x => { x with
    txSeq := x.txSeq + 1, buf := x.buf ++ [out], credits := x.credits.set i (x.credits.getD i 0 - 1) }) s
  emit (.flit p out) s

/-- R262, R263: a flit may leave: its class and lane have a credit and the replay buffer has room. -/
def maySend (fp : FPort) (f : Flit) : Bool :=
  0 < fp.credits.getD (2 * flitTc f + flitVl f) 0 && fp.buf.length < 1024

/-- A NULL flit: what has been received, a NAK, credits returned (R261). -/
def sendNull (p : Nat) (nak : Bool) (rcnt rtc rvl : Nat) (s : State) : State :=
  let fp := fportOf s p
  let link := rcnt * 2 ^ 36 + rvl * 2 ^ 35 + rtc * 2 ^ 32 + 2 ^ 25 + b2n nak * 2 ^ 24 +
    (fp.rxSeq - 1).toNat * 2 ^ 12
  emit (.flit p (sealFlit link (zeros 256))) s

/-- R263: a flit that came in on port `org.1`, lane `org.2`, has been passed on, or dropped: its credit goes back. -/
def giveBack (org : Option (Nat × Nat)) (f : Flit) (s : State) : State :=
  match org with
  | some (p, vl) => sendNull p false 1 (flitTc f) vl s
  | none => s

/-- A flit is transmitted, or waits behind those of its class and lane. DEDUCED (log 93). -/
def txFlit (p : Nat) (org : Option (Nat × Nat)) (f : Flit) (s : State) : State :=
  let fp := fportOf s p
  if maySend fp f && !(fp.wait.any (fun w => flitTc w.1 == flitTc f && flitVl w.1 == flitVl f)) then
    giveBack org f (sendNow p f s)
  else updFport p (fun x => { x with wait := x.wait ++ [(f, org)] }) s

/-- R263: the flits of a class's turn; 0 for the strict classes. -/
def tcWeight (tc : Nat) : Nat := [8, 0, 4, 2, 4, 2, 1, 0].getD tc 0

/-- The waiting flit of a class that may leave. -/
def tcReady (fp : FPort) (tc : Nat) : Option (Flit × Option (Nat × Nat)) :=
  fp.wait.find? (fun w => flitTc w.1 == tc && maySend fp w.1)

/-- R263: the deficit round-robin: the class that is served while its turn lasts, else the next one that is ready. -/
def nextTurn (fp : FPort) : Nat → Nat → Nat → Option (Nat × Nat × Nat)
  | _, _, 0 => none
  | turn, left, fuel + 1 =>
    if 0 < left && (tcReady fp turn).isSome then some (turn, turn, left - 1)
    else nextTurn fp ((turn + 1) % 8) (tcWeight ((turn + 1) % 8)) fuel

/-- R263: the class that a transmitter serves: TC 7, then TC 1, then the weighted ones in turn. -/
def tcNext (fp : FPort) : Option (Nat × Nat × Nat) :=
  if (tcReady fp 7).isSome then some (7, fp.turn, fp.left)
  else if (tcReady fp 1).isSome then some (1, fp.turn, fp.left)
  else nextTurn fp fp.turn fp.left 9

/-- Waiting flits that may leave now do so, in the order of R263. -/
def drainPort (p : Nat) : Nat → State → State
  | 0, s => s
  | fuel + 1, s =>
    let fp := fportOf s p
    match (tcNext fp).bind (fun t => (tcReady fp t.1).map (fun w => (t, w))) with
    | none => s
    | some (t, w) =>
      drainPort p fuel (giveBack w.2 w.1 (sendNow p w.1 (updFport p (fun x => { x with
        wait := x.wait.erase w, turn := t.2.1, left := t.2.2 }) s)))

def drainWait (p : Nat) (s : State) : State := drainPort p (fportOf s p).wait.length s

/-- R258: the lane of a flit on the next link: 1 from the crossing of a dateline on. DESIGN CHOICE (log 8). -/
def laneFor (s : State) (dir vl : Nat) : Nat :=
  let x := dimCoord (pkgId s) (dir / 2)
  let n := dimSize s.fab.torus (dir / 2)
  if dir % 2 = 0 && x + 1 = n then 1 else if dir % 2 = 1 && x = 0 then 1 else vl

/-- A flit goes toward its destination; `key` is KEYSEL (R259). To this package itself it stays on the inner mesh,
which is written here as port 64. Nothing is sent to an unreachable package. DEDUCED (log 93). -/
def routeFrom (org : Option (Nat × Nat)) (key : Nat) (f : Flit) (s : State) : State :=
  match nextHop s (flitDst f) with
  | .drop => giveBack org f s
  | .inside => giveBack org f (emit (.flit 64 (sealFlit (flitTc f * 2 ^ 28) f)) s)
  | .dir d =>
    let l := pickLdie s (flitSrc f) (flitDst f) (flitTc f) key d
    let link := laneFor s d (flitVl f) * 2 ^ 31 + flitTc f * 2 ^ 28
    txFlit (8 * l + d) org (patch f 0 (leBytes 8 link)) s

/-- A flit of this package goes toward its destination. -/
def routeFlit (key : Nat) (f : Flit) (s : State) : State := routeFrom none key f s

/-- R259: KEYSEL of a flit that is forwarded. -/
def keysel (f : Flit) : Nat :=
  if 8 ≤ flitOp f then u16 f 14 + 2 ^ 16 * bits (u32 f 18) 0 24
  else bits (u16 f 14) 0 12 + 2 ^ 12 * (leNat (slice f 20 5) / 4096)

/-- R259: a port that returned to UP rejoins once its bundle has nothing unacknowledged. Flits that still wait for a
credit are then sent by the hash as it is from now on, those of one flow in their order. -/
def rejoinBundle (dir : Nat) (s : State) : State :=
  let ports := (List.range 8).map (fun l => 8 * l + dir)
  if ports.any (fun p => (fportOf s p).buf != []) || !(ports.any (fun p => (fportOf s p).rejoin)) then s
  else
    let ws := ports.flatMap (fun p => (fportOf s p).wait)
    let s := ports.foldl (fun s p => updFport p (fun x => { x with rejoin := false, wait := [] }) s) s
    ws.foldl (fun s w => routeFrom w.2 (keysel w.1) w.1 s) s

/-- The flits up to SEQ `a` have been received. -/
def ackBack (p : Nat) (a : BitVec 12) (s : State) : State :=
  let fp := fportOf s p
  match fp.buf.findIdx? (fun f => flitSeq f == a) with
  | some i => rejoinBundle (p % 8) (drainWait p (updFport p (fun x => { x with buf := x.buf.drop (i + 1) }) s))
  | none => s

def pstCode : PSt → Nat
  | .down => 0 | .training => 1 | .ident => 2 | .up => 3 | .failed => 4 | .miscabled => 5

/-- A PORT record: event 0 state change, 1 retrain, 2 miscabled (R495). DEDUCED (log 93). -/
def portRec (p event : Nat) (s : State) : State :=
  let fp := fportOf s p
  postRec 0x0D 1 none (48 + p / 8) p
    [(0, 1, pstCode fp.st), (1, 1, event), (2, 2, fp.retrains), (4, 2, if fp.peer = 0 && fp.st != .up then 0xFFFF else fp.peer),
     (6, 1, fp.peerdir)] s

/-- R259: a port has left UP: what it had not delivered goes to the other ports of its bundle, ahead of later flits. An
IDENT flit that has not been acknowledged is kept (R262). -/
def leaveUp (p : Nat) (st : PSt) (s : State) : State :=
  let fp := fportOf s p
  let fs := fp.buf.map (fun f => (f, none)) ++ fp.wait
  let s := updFport p (fun x => { x with
    st := st, buf := fp.buf.filter (fun f => flitFt f == 2), wait := [], naks := 0, rejoin := false }) s
  let s := rejoinBundle (p % 8) s
  fs.foldl (fun s f => if flitFt f.1 = 0 then routeFrom f.2 (keysel f.1) f.1 s else s) s

/-- R262: a port retrains; the tilth monitor counts it. -/
def startRetrain (p : Nat) (s : State) : State :=
  let ident := (fportOf s p).st == .ident
  let s := leaveUp p .training s
  let s := updFport p (fun x => { x with retrains := satAdd 16 x.retrains 1, retraining := true, identing := ident }) s
  portRec p 1 { s with err := { s.err with cLr := s.err.cLr + 1 } }

/-- R262: a NAK: the sender sends again from ACKSEQ + 1; the eighth in a row for one SEQ retrains the port. -/
def nakBack (p : Nat) (a : BitVec 12) (s : State) : State :=
  let s := ackBack p a s
  let fp := fportOf s p
  let n := if fp.naks ≠ 0 && fp.nakSeq = a + 1 then fp.naks + 1 else 1
  let s := updFport p (fun x => { x with naks := n, nakSeq := a + 1, replays := satAdd 16 x.replays 1 }) s
  if 8 ≤ n then startRetrain p s
  else (fportOf s p).buf.foldl (fun s f => emit (.flit p f) s) s

/-- R280: fewer than 4,096 instances are in flight. -/
def instRoom (s : State) : Bool := (s.fab.insts.filter (fun i => !i.done)).length < 4096

/-- R280: a chunk of that tag and step belongs to an instance in flight here, or starts one. -/
def redHere (s : State) (tag step16 : Nat) : Bool :=
  match s.fab.insts.find? (fun t => t.tag == tag && !t.done) with
  | some t => t.step.toNat % 65536 == step16
  | none => match (nmGet s.fab.buckets tag).bind (fun b => ctxOf s b.ctx) with
    | some c => instRoom s && c.step.toNat % 65536 == step16 && !(s.fab.insts.any (fun t => t.tag == tag && t.step == c.step))
    | none => false

/-- R280: a flit of that tag and step waits in the chunk buffer: this package has not started its instance yet, because
the tag has no policy here, because the step has not begun, or because an earlier instance is in flight. -/
def redWaits (s : State) (tag step16 : Nat) : Bool :=
  !(redHere s tag step16) &&
  (match nmGet s.fab.buckets tag with
    | none => !((tag, step16) ∈ s.fab.goneTags)
    | some b => match ctxOf s b.ctx with
      | none => false
      | some c =>
        let d := (step16 + 65536 - c.step.toNat % 65536) % 65536
        if d = 0 then !(s.fab.insts.any (fun t => t.tag == tag && t.step == c.step)) else d < 32768)

/-- The TC 0 credits that waiting flits of the tags hold go back (R263). -/
def freeOwed (p : Nat → Bool) (s : State) : State :=
  let mine := s.fab.owed.filter (fun e => p e.1)
  mine.foldl (fun s e => sendNull e.2.1 false 1 0 e.2.2 s)
    (updFab (fun b => { b with owed := b.owed.filter (fun e => !(p e.1)) }) s)

/-- A control message goes to a package in a flit of class `tc`. The spec gives its header and payload no layout: beyond
DST and SRC its bytes are free values, and `o` says what it carries. DESIGN CHOICE (log 114). -/
def sendCtl (tc dst : Nat) (o : Out) (s : State) : State :=
  let a := freeBelow 6 s
  let b := freeBits 1904 a.2
  let v := leBytes 238 b.1.toNat
  let f := dataFlit tc 0 (leBytes 1 (10 + a.1) ++ leBytes 1 0 ++ leBytes 2 dst ++ leBytes 2 (pkgId s) ++ v.take 14) (v.drop 14)
  routeFlit (keysel f) f (emit o b.2)

/-- NAK_RECEIVED (R262). -/
def doNakReceived (p : Nat) (a : BitVec 12) (s : State) : State :=
  if (fportOf s p).st != .up && (fportOf s p).st != .ident then s else nakBack p a s

/-- PORT_LEAVE_UP (R259): a port loses its link while UP, and retrains. DEDUCED (log 93). -/
def doPortLeaveUp (p : Nat) (s : State) : State :=
  if (fportOf s p).st != .up then s
  else portRec p 0 (startRetrain p s)

/-- PORT_RETRAIN_DONE (R262): the port is UP again, and rejoins its bundle's hash (R259), or FAILED; one that had not
been let in yet is in IDENT again (R255). An IDENT flit that was not acknowledged is sent again. DEDUCED (log 93). -/
def doPortRetrainDone (p : Nat) (ok : Bool) (s : State) : State :=
  let fp := fportOf s p
  if !fp.retraining then s
  else
    let up := ok && !fp.identing
    let s := updFport p (fun x => { x with
      retraining := false, identing := false, st := if !ok then .failed else if up then .up else .ident
      txSeq := BitVec.ofNat 12 fp.buf.length, rxSeq := 0, credits := creditInit s, buf := if ok then x.buf else []
      rejoin := up, retrainCid := none }) s
    let s := if ok then fp.buf.foldl (fun s f => emit (.flit p f) s) s else s
    let s := portRec p 0 s
    let s := if up then rejoinBundle (p % 8) s else s
    match fp.retrainCid with
    | some cid => finish0 cid (if ok then stOK else stDEGRADED)
        { s with test := { s.test with calib := s.test.calib.filter (fun c => c.2.2 != cid) } }
    | none => s

/-- PORT_TRAINED (R255): the lanes have trained and the port sends its IDENT flit, or it fails. -/
def doPortTrained (p : Nat) (ok : Bool) (s : State) : State :=
  let fp := fportOf s p
  if fp.st != .training || fp.retraining || !fp.en then s
  else if !ok then portRec p 0 (updFport p (fun x => { x with st := .failed }) s)
  else
    let hdr := leBytes 2 (pkgId s) ++ leBytes 1 (p % 8) ++ leBytes 1 (p / 8)
    let f := sealFlit (2 * 2 ^ 25 + (0xFFF : Nat) * 2 ^ 12) (zeros 8 ++ pad 248 hdr)
    let s := updFport p (fun x => { x with
      st := .ident, txSeq := 1, rxSeq := 0, buf := [f], wait := [], credits := creditInit s }) s
    emit (.flit p f) s

/-- R255: the three conditions for UP. -/
def identOk (s : State) (p : Nat) (id : Ident) : Bool :=
  let dir := p % 8
  let d := dir / 2
  let n := dimSize s.fab.torus d
  let x := dimCoord (pkgId s) d
  1 < n && (if dir % 2 = 0 then id.dir == dir + 1 else id.dir + 1 == dir) && id.ldie == p / 8 &&
    dimCoord id.pkg d == (if dir % 2 = 0 then (x + 1) % n else (x + n - 1) % n)

/-- The peer's IDENT flit is in: UP, or MISCABLED with one record (R255). -/
def doIdentReceived (p : Nat) (id : Ident) (s : State) : State :=
  if (fportOf s p).st != .ident then s
  else
    let s := updFport p (fun x => { x with peer := id.pkg, peerdir := id.dir }) s
    if identOk s p id then
      rejoinBundle (p % 8) (portRec p 0 (updFport p (fun x => { x with st := .up, rejoin := true }) s))
    else portRec p 2 (updFport p (fun x => { x with st := .miscabled, buf := [], wait := [] }) s)

/-- R262: the receiver takes the flit: it is whole, and a DATA or IDENT flit is the next one expected. -/
def inSequence (s : State) (p : Nat) (f : Flit) : Bool :=
  flitGood f && (flitFt f = 1 || 3 ≤ flitFt f || flitSeq f == (fportOf s p).rxSeq)

/-- R257: a DATA flit that has made its 64 hops without coming to its destination. -/
def hopsOut (s : State) (p : Nat) (f : Flit) : Bool :=
  (fportOf s p).st == .up && inSequence s p f && flitFt f == 0 && nextHop s (flitDst f) != .inside && 63 ≤ flitHops f

/-- A flit comes in at a port (R261-R263, R257). DEDUCED (log 93). -/
def flitIn (p : Nat) (f : Flit) (s : State) : State :=
  let fp := fportOf s p
  if fp.st != .up && fp.st != .ident then s
  else if !(inSequence s p f) then sendNull p true 0 0 0 s
  else if 3 ≤ flitFt f then s
  else
    let s := if flitFt f = 1 then s else updFport p (fun x => { x with rxSeq := x.rxSeq + 1 }) s
    -- credits that the peer returns
    let w := u64 f 0
    let i := 2 * bits w 32 3 + bits w 35 1
    let s := if bits w 36 8 = 0 then s
      else drainWait p (updFport p (fun x => { x with
        credits := x.credits.set i (min ((creditInit s).getD i 0) (x.credits.getD i 0 + bits w 36 8)) }) s)
    let s := if flitNak f then nakBack p (flitAck f) s
      else ackBack p (flitAck f) (updFport p (fun x => { x with naks := 0 }) s)
    if flitFt f = 1 then s
    else if flitFt f = 2 then doIdentReceived p { pkg := bits (u16 f 8) 0 14, dir := u8 f 10, ldie := u8 f 11 } s
    else if fp.st != .up then s
    else
      -- a reduction flit of an instance that has not started here keeps its credit (R280)
      let here := nextHop s (flitDst f) == .inside
      let early := here && (flitOp f = 8 || flitOp f = 9) && flitTc f = 0 && redWaits s (u16 f 14) (u16 f 16)
      let org := some (p, flitVl f)
      if early then
        updFab (fun b => { b with owed := b.owed ++ [(u16 f 14, p, flitVl f)] }) (sendNull p false 0 0 0 s)
      else if here then giveBack org f s
      else if 63 ≤ flitHops f then giveBack org f (updFab (fun b => { b with hopDrops := b.hopDrops + 1 }) s)
      else routeFrom org (keysel f) (patch f 9 (leBytes 1 (flitHops f + 1))) (sendNull p false 0 0 0 s)

/-- IDENT_TIMEOUT (R407): 1 ms without an IDENT flit. DESIGN CHOICE (log 65). -/
def doIdentTimeout (p : Nat) (s : State) : State :=
  if (fportOf s p).st != .ident then s
  else portRec p 0 (updFport p (fun x => { x with st := .failed, buf := [], wait := [] }) s)

/-! ## Registers (R294) -/

def allDown (s : State) : Bool := s.fab.ports.all (fun e => e.2.st == .down)

/-- RWP bits of LNK_PORTn: [31:25] and [7:4]. -/
def lnkPortRwp : W64 := 0xFE0000F0

/-- LNK_PORT_ENABLE: a write to LNK_PORTn. -/
def doLnkPortEnable (rq : Requester) (p : Nat) (val : W64) (s : State) : State :=
  if 64 ≤ p || !(pfOrAbove rq) then s
  else
    let fp := fportOf s p
    let s := noteRwp (fp.rwp != val &&& lnkPortRwp) s
    let s := updFport p (fun x => { x with rwp := val &&& lnkPortRwp }) s
    if val.getLsbD 3 then
      if fp.en then s
      else updFport p (fun x => { x with en := true, st := .training }) s
    else if !fp.en then s
    else
      let s := if fp.st = .up then leaveUp p .down s else s
      let s := updFport p (fun x => { x with
        en := false, st := .down, retraining := false, identing := false, rejoin := false, buf := [], wait := [], peer := 0, peerdir := 0
        retrainCid := none }) s
      match fp.retrainCid with
      | some cid => finish0 cid stDEGRADED
          { s with test := { s.test with calib := s.test.calib.filter (fun c => c.2.2 != cid) } }
      | none => s

/-- LNK_TORUS_WRITE: while every port is DOWN the write is taken and the routing table filled again. -/
def doLnkTorusWrite (rq : Requester) (val : W32) (s : State) : State :=
  if !(pfOrAbove rq) then s
  else if !(allDown s) then configWarn 5 0 9 0x00600000 s
  else
    let s := noteRwp ((val &&& 0xC000C000) != (s.fab.torus &&& 0xC000C000)) s
    updFab (fun b => { b with torus := val, routeOv := [] }) s

/-- LNK_ROUTE_WRITE: an entry is rewritten (a PF or the management path). -/
def doLnkRouteWrite (rq : Requester) (id : Nat) (val : Byte) (s : State) : State :=
  if 16384 ≤ id || !(pfOrAbove rq) then s
  else updFab (fun b => { b with routeOv := nmSet id (val &&& 0x1F) b.routeOv }) s

/-- R294: every field even and at least 4, the sum at most 512. -/
def creditOk (val : W64) : Bool :=
  let fs := (List.range 8).map (fun i => bits val.toNat (8 * i) 8)
  fs.all (fun x => x % 2 == 0 && 4 ≤ x) && fs.foldl (· + ·) 0 ≤ 512

/-- LNK_CREDIT_WRITE. -/
def doLnkCreditWrite (rq : Requester) (val : W64) (s : State) : State :=
  if !(pfOrAbove rq) then s
  else if !(allDown s) then configWarn 5 0x10 9 0x00600010 s
  else if creditOk val then updFab (fun b => { b with credit := val }) s
  else s

def execPortRetrainDone (port : Nat) (ok : Bool) (s : State) : Host.Outcome State Fault Refusal :=
  .next (doPortRetrainDone port ok s)
def execPortTrained (port : Nat) (ok : Bool) (s : State) : Host.Outcome State Fault Refusal :=
  .next (doPortTrained port ok s)
/-- IDENT_RECEIVED: the peer's first flit, of SEQ 0 (R262). -/
def execIdentReceived (port : Nat) (id : Ident) (s : State) : Host.Outcome State Fault Refusal :=
  .next (doIdentReceived port id (if (fportOf s port).st == .ident then updFport port (fun x => { x with rxSeq := 1 }) s
    else s))
def execIdentTimeout (port : Nat) (s : State) : Host.Outcome State Fault Refusal := .next (doIdentTimeout port s)
def execLnkTorusWrite (rq : Requester) (val : W32) (s : State) : Host.Outcome State Fault Refusal :=
  .next (onBar rq (doLnkTorusWrite rq val) s)
def execLnkCreditWrite (rq : Requester) (val : W64) (s : State) : Host.Outcome State Fault Refusal :=
  .next (onBar rq (doLnkCreditWrite rq val) s)

end Sys2Proof.Machine
end

