-- ==== Sys2Proof/Machine/Windows.lean ====
section
/-! DEFINITION. Remote windows (R69, R70, R264-R273): WIN_OPEN and WIN_CLOSE, WIN_PUT and WIN_GET with their units,
requests and tags, what the target does with an access, the answer of a horizon to any request (R204), and TAG_GRANT for
every pool (R206, R207, R270). -/

namespace Sys2Proof.Machine

open Sys2Proof

/-! ## Opening and closing (R264-R266) -/

/-- The member grains of a KIND 0 window, in ascending logical id (R265). -/
def winMembers (s : State) (w : Win) : List Nat :=
  match pedOf s w.ctx w.target with
  | .ok l => (pedSetGrains l).mergeSort (fun a b => a ≤ b)
  | .error _ => []

def winTotal (s : State) (w : Win) : Nat := if w.kind = 0 then w.size * (winMembers s w).length else w.size

/-- R69: a grain of the set holds 8 open scratchpad windows already. -/
def grainWinsFull (s : State) (l : PedSet) : Bool :=
  let ws := (s.fab.wins.filter (fun e => e.2.kind == 0)).filterMap (fun e =>
    match pedOf s e.2.ctx e.2.target with | .ok q => some q | .error _ => none)
  7 < ws.length && (pedSetGrains l).any (fun g => 8 ≤ (ws.filter (fun q => pedSetMem q g)).length)

/-- The lowest number from `n` on, among `fuel`, that no window has. -/
def freeWin (m : NatMap Win) : Nat → Nat → Option Nat
  | _, 0 => none
  | n, fuel + 1 => if (nmGet m n).isNone then some n else freeWin m (n + 1) fuel

def boxBad (b : Nat) : Bool := (List.range 4).any (fun d => bits b (8 * d + 4) 4 < bits b (8 * d) 4)

/-- R267: a move of the object under way would give a granule of the window's range a home in HZ3 or HZ4 or, where the
window grants write, make the object RDONLY. -/
def breaksWin (h : W32) (off size : Nat) (write : Bool) (m : Mig) : Bool :=
  m.handle == h &&
    ((2 < m.hzn && m.left.any (fun x => 65536 * x.granule < off + size && off < 65536 * (x.granule + 1))) ||
      (write && (match m.apply with | some (_, _, _, ro, _) => ro | none => false)))

/-- A move is given up: what it had copied is freed, and its command completes with NOT_PERMITTED. -/
def dropMove (m : Mig) (s : State) : State :=
  match objOf s m.handle with
  | none => s
  | some o =>
    let unit (j : Nat) : Nat :=
      if m.hzn = 3 then s.hz.drives.getD ((j + o.idx) % max s.hz.drives.length 1) 0 else if m.hzn = 4 then m.unit else 0
    let mine (j : Nat) : Bool := m.left.any (fun x => x.granule == j)
    let s := dropCopy m.handle (fun w => match w with | .move j => mine j | _ => false) s
    let s := m.left.foldl (fun s x => freeHome { granOf o x.granule with hzn := m.hzn, unit := unit x.granule, loc := x.frame } s) s
    let s := updObj m.handle (fun o => { o with
      gran := (List.zip o.gran (List.range o.gran.length)).map (fun e => if mine e.2 then { e.1 with mig := false } else e.1) }) s
    let s := updHz (fun z => { z with migs := z.migs.filter (fun y => !(y.handle == m.handle && y.cid == m.cid)) }) s
    match m.cid with
    | some cid => finish0 cid stNOT_PERMITTED s
    | none => s

/-- R265, R267: a window opens onto an object that is being moved; a move that the window forbids ends, and what it has
not switched stays where it is. DESIGN CHOICE (log 95). -/
def endBreaking (h : W32) (off size : Nat) (write : Bool) (s : State) : State :=
  (s.hz.migs.filter (breaksWin h off size write)).foldl (fun s m => dropMove m s) s

/-- WIN_OPEN. DEDUCED (log 95). -/
def doWinOpen (cid : Nat) (s : State) : State :=
  match ready s cid 0x40 with
  | none => s
  | some c =>
    let s := startCmd cid s
    let p := c.param
    let ctx := c.ctx.getD 0
    let kind := u8 p 0
    let rights := u8 p 1
    let pm := u8 p 2
    let target : W32 := BitVec.ofNat 32 (u32 p 8)
    let off := u64 p 12
    let size := u64 p 20
    let map : W32 := BitVec.ofNat 32 (u32 p 32)
    let open_ (s : State) : State :=
      let bitmap := if pm = 1 then (match ownObj s ctx map with | some o => some (objRead s o 0 2048) | none => none) else none
      let w : Win := { ctx := ctx, kind := kind, rights := rights, peerMap := bitmap,
                       peerBox := BitVec.ofNat 32 (u32 p 28), key := BitVec.ofNat 32 (u32 p 4), target := target,
                       off := off, size := size, closing := none }
      match freeWin s.fab.wins 0 4096 with
      | none => finish0 cid stNO_RESOURCE s
      | some n => finish cid stOK (leBytes 2 n) (updFab (fun b => { b with wins := nmSet n w b.wins }) s)
    if 1 < kind || rights = 0 || 3 < rights || 1 < pm || u8 p 3 ≠ 0 || !(allZero (p.drop 36)) || u32 p 4 = 0 ||
        (pm = 0 && boxBad (u32 p 28)) then finish0 cid stBAD_PARAM s
    else if pm = 1 && (match ownObj s ctx map with | some _ => false | none => true) then
      finish0 cid stNOT_PERMITTED s
    else if kind = 0 then
      match pedOf s ctx target with
      | .error .unknown => finish0 cid stNOT_PERMITTED s
      | .error _ => finish0 cid stBAD_PARAM s
      | .ok l =>
        let room := match ctxOf s ctx with | some x => x.rsize * 16384 | none => 0
        if !(pedLeased s ctx l) then finish0 cid stNOT_PERMITTED s
        else if off % 32 ≠ 0 || size % 32 ≠ 0 || room < off + size || 2 ^ 40 < size * pedSetCount l then
          finish0 cid stBAD_PARAM s
        else if grainWinsFull s l then finish0 cid stNO_RESOURCE s
        else open_ s
    else
      match ownObj s ctx target with
      | none => finish0 cid stNOT_PERMITTED s
      | some o =>
        if (o.gran.any (fun g => g.hzn != 1 && g.hzn != 2)) || (bitAt rights 1 && o.rdonly) || o.size < off + size || 2 ^ 40 < size then finish0 cid stBAD_PARAM s
        else if (freeWin s.fab.wins 0 4096).isNone then finish0 cid stNO_RESOURCE s
        else open_ (endBreaking target off size (bitAt rights 1) s)

/-- R266: a closing window that holds no unfinished access is gone. -/
def closeIfIdle (n : Nat) (s : State) : State :=
  match nmGet s.fab.wins n with
  | none => s
  | some w =>
    match w.closing with
    | none => s
    | some cid =>
      if s.fab.preparedWin.any (fun x => x.win == n) || s.fab.accs.any (fun a => a.win == n) ||
          s.hz.reqs.any (fun q => match q.kind with | .window _ _ m => m == n | _ => false) then s
      else finish0 cid stOK (updFab (fun b => { b with
        wins := nmDel n b.wins, rsems := b.rsems.filter (fun x => x.win != n) }) s)

/-- WIN_CLOSE: accesses that arrive later are refused; it completes once the accepted ones have finished. -/
def doWinClose (cid : Nat) (s : State) : State :=
  match ready s cid 0x41 with
  | none => s
  | some c =>
    let s := startCmd cid s
    let n := u16 c.param 0
    match nmGet s.fab.wins n with
    | none => finish0 cid stBAD_PARAM s
    | some w =>
      if !(allZero (c.param.drop 2)) then finish0 cid stBAD_PARAM s
      else if some w.ctx ≠ c.ctx then finish0 cid stNOT_PERMITTED s
      else if w.closing.isSome then finish0 cid stBUSY s
      else closeIfIdle n (updFab (fun b => { b with wins := nmUpd n (fun w => { w with closing := some cid }) b.wins }) s)

/-! ## Window descriptors (R268-R270) -/

def winIsGet (d : List Byte) : Bool := dOp d == 0x13
def winDst (d : List Byte) : Nat := bits (u16 d 10) 0 14
def winId (d : List Byte) : Nat := bits (u16 d 12) 0 12
def winOff (d : List Byte) : Nat := u48 d 18

def winFaults (s : State) (i : Iss) : List (Bool × Nat) :=
  let get := winIsGet i.d
  let v := if get then i.vc else i.va
  [(!(isLocal v) || (get && outsideStage s i v), 0x05),
   (v.fmt = 10, 0x06),
   (bits (u16 i.d 10) 14 2 != 0 || bits (u16 i.d 12) 12 4 != 0 || 2 ^ 40 ≤ winOff i.d || (get && u8 i.d 24 != 0) ||
      !(tailZero i.d 25), 0x0A),
   (preparedBad s i (!get) (if get then (nelem v * fmtW v.fmt + 7) / 8 else 0), 0x0A)]

/-- R270: the tag pool of L-die l has room, and its destination. -/
def winTagFree (s : State) (l dst : Nat) : Bool :=
  let held := s.fab.wreqs.filter (fun q => q.tagged && q.ldie == l)
  held.length < poolSize (.ldie l) && (held.filter (fun q => q.dst == dst)).length < quota (.ldie l)

/-- R272: a window flit with its RTAG. -/
def setTag (rtag : Nat) (f : Flit) : Flit := f.take 25 ++ leBytes 2 rtag ++ f.drop 27

/-- R270: the request takes a tag that no outstanding one holds, and its flits leave, each with what goes with it. -/
def winSend (q : WReq) (s : State) : State :=
  let held := (s.fab.wreqs.filter (·.tagged)).map (·.rtag)
  let t := nextFree held 65536 65536 (q.rtag % 65536)
  let s := updFab (fun b => { b with
    wreqs := updWhere (fun x => x.rtag == q.rtag)
      (fun x => { x with rtag := t, tagged := true, sent := s.clk.pcc, flits := x.flits.map (setTag t) }) b.wreqs }) s
  (List.zip (q.flits.map (setTag t)) q.sides).foldl (fun s e => routeFlit (keysel e.1) e.1 (emit (.window e.1 e.2) s)) s

/-- A request takes a tag, or waits behind those of its destination (R270). -/
def winAdd (q : WReq) (s : State) : State :=
  let ahead := s.fab.wreqs.any (fun x => !x.tagged && x.ldie == q.ldie && x.dst == q.dst)
  let s := updFab (fun b => { b with wreqs := b.wreqs ++ [q], nextTag := b.nextTag + 1 }) s
  if winTagFree s q.ldie q.dst && !ahead then winSend q s else s

/-- The 20 header bytes of a window flit (R272). -/
def winHdr (s : State) (op len : Nat) (last : Bool) (dst win key off rtag status : Nat) : List Byte :=
  leBytes 1 (op + 16 * len + 128 * b2n last) ++ leBytes 1 0 ++ leBytes 2 dst ++ leBytes 2 (pkgId s) ++ leBytes 2 win ++
    leBytes 4 key ++ leBytes 5 off ++ leBytes 2 rtag ++ leBytes 1 status

/-- Bytes cut into pieces of at most n. -/
def chunksOf (n : Nat) (l : List Byte) : List (List Byte) :=
  (List.range (ceilDiv l.length n)).map (fun k => (l.drop (k * n)).take n)

/-- R269: the units of a put: pieces that do not cross an aligned 4 KiB of the window. -/
def unitsOf (off : Nat) (l : List Byte) : List (Nat × List Byte) :=
  let first := min l.length (4096 - off % 4096)
  let rest := (List.range (ceilDiv (l.length - first) 4096)).map (fun k =>
    (off + first + 4096 * k, (l.drop (first + 4096 * k)).take 4096))
  if l = [] then [] else (off, l.take first) :: rest

/-- The bits of a local view in linear order: local bit and width. -/
def viewRun (v : View) (k : Nat) : List (Nat × Nat) := (List.range (nelem v)).map (fun n => (linBit v k n, fmtW v.fmt))

/-- The bytes that WIN_PUT sends, and the elements that are poisoned. -/
def putBytes (s : State) (i : Iss) : List Byte × List Bool :=
  let w := fmtW i.va.fmt
  let xs := (viewRun i.va i.pl.k).map (fun e => bitsFrom (lsByte s i.pl) e.1 e.2)
  let n := (xs.length * w + 7) / 8
  (leBytes n (xs.reverse.foldl (fun v x => v * 2 ^ w + x.1) 0), xs.map (·.2))

/-- Whether an element of `bad` has bits in bytes [a, b). -/
def badIn (w : Nat) (bad : List Bool) (a b : Nat) : Bool :=
  ((bad.drop (8 * a / w)).take ((8 * b + w - 1) / w - 8 * a / w)).any id

/-- The descriptor's requests have all been answered. -/
def winSettled (s : State) (g ser : Nat) : Bool := !(s.fab.wreqs.any (fun q => q.g == g && q.ser == ser && !q.dead))

def winGuardOpen (s : State) (g ser : Nat) : Bool :=
  match guardOf s g ser with | some u => u.late != [] | none => false

def winMaybeDone (g ser : Nat) (s : State) : State :=
  if winSettled s g ser && !(winGuardOpen s g ser) then
    match outDOf s g ser with
    | some o => if o.wait == .units then workDone g ser (endAtom g ser applyAll s) else s
    | none => s
  else s

/-- R273: the local bytes that a failed GET has not filled are poisoned. -/
def poisonMoves (g : Nat) (ms : List (Nat × Nat × Nat)) (s : State) : State :=
  let p := placeOf s g
  let words := ms.flatMap (fun m =>
    let lo := (8 * p.base + m.2.1) / 256
    (List.range ((8 * p.base + m.2.1 + m.2.2 - 1) / 256 + 1 - lo)).map (fun i => lo + i))
  updPhys p.q (fun x => { x with poison := words.foldl (fun l w => addOnce w l) x.poison }) s

/-- R270: a descriptor that fails gives up its other requests: one that is out holds its tag until its answer. -/
def giveUp (q : WReq) (l : List WReq) : List WReq :=
  let mine (x : WReq) : Bool := x.g == q.g && x.ser == q.ser && !x.dead
  updWhere mine (fun x => { x with dead := true })
    (l.filter (fun x => x.rtag != q.rtag && !(mine x && !x.tagged)))

/-- R273: a request of a window descriptor fails: cause 0 refused, 1 timeout, 2 unreachable. -/
def winFail (q : WReq) (status : W16) (cause : Nat) (s : State) : State :=
  match outDOf s q.g q.ser, nmGet s.grains q.g with
  | some o, some gr =>
    match q.clod with
    | some k =>
      let s := updFab (fun b => { b with wreqs := b.wreqs.filter (fun x => x.rtag != q.rtag) }) s
      winMaybeDone q.g q.ser (failClod k status q.g q.part o.daddr s)
    | none =>
      match guardOf s q.g q.ser with
      | some _ =>
        let s := updFab (fun b => { b with wreqs := b.wreqs.filter (fun x => x.rtag != q.rtag) }) s
        updGuard q.g q.ser (fun u => { u with
          late := q.moves.foldl (fun l m => addOnce (granuleOf o m.2.1) l) u.late }) s
      | none =>
        let mine := s.fab.wreqs.filter (fun x => x.g == q.g && x.ser == q.ser && !x.dead)
        let s := poisonMoves q.g (mine.flatMap (·.moves)) s
        let s := updFab (fun b => { b with wreqs := giveUp q b.wreqs }) s
        let s := postRec 0x0E 2 (some gr.ctx) (dieOfPed2 gr.ped2) q.g
          [(0, 8, o.daddr.toNat), (8, 2, q.dst), (10, 2, q.win), (12, 2, status.toNat), (14, 1, cause)] s
        workDone q.g q.ser (segStatus gr.ctx status s)
  | _, _ => updFab (fun b => { b with wreqs := b.wreqs.filter (fun x => x.rtag != q.rtag) }) s

/-- R273: requests that wait or are outstanding and whose destination is DROP fail. -/
def failUnreachable (s : State) : State :=
  (s.fab.wreqs.filter (fun q => nextHop s q.dst == .drop)).foldl (fun s q =>
    if !(s.fab.wreqs.any (fun x => x.rtag == q.rtag)) then s
    else if q.dead then updFab (fun b => { b with wreqs := b.wreqs.filter (fun x => x.rtag != q.rtag) }) s
    else winFail q stDEGRADED 2 s) s

def winPutAct (i : Iss) (s : State) : State :=
  let b := putBytes s i
  let r0 := match clodKeyOf s i.g i.t with
    | some k => (some k, s)
    | none => if dAtom i.d then (let a := openAtom i s; (some a.1, a.2)) else (none, s)
  let clod := r0.1
  let s := r0.2
  let s := if !(b.2.any id) then s
    else
      let a := (firstPoison (viewBytes s i.pl [] i.va) i.va i.pl.k).getD 0
      match clod with
      | some k => failClod k stUNCORRECTABLE i.g 0 i.daddr
          (postRec 0x07 2 (some i.ctx) (dieOfPed2 i.ped2) i.g [(8, 8, a), (16, 8, i.daddr.toNat)] s)
      | none => consumePoison i.ctx i.g 0 0 0 a i.daddr s
  let dst := winDst i.d
  let us := unitsOf (winOff i.d) b.1
  let s := setWaitFor i .units s
  let s := match clod with
    | some k => if us = [] then s else addPrep k i.g 0 (.win dst) s
    | none => s
  let s := (List.zip us (List.range us.length)).foldl (fun s e =>
    let (off, data) := e.1
    let key := winId i.d + 2 ^ 12 * (off / 4096)
    let cs := chunksOf 224 data
    let at0 := off - winOff i.d
    let sides := (List.zip cs (List.range cs.length)).map (fun c =>
      let a := at0 + 224 * c.2
      ({ bytes := c.1.length, clod := clod, rsem := u8 i.d 24, poison := badIn (fmtW i.va.fmt) b.2 a (a + c.1.length),
         desc := i.ser, doff := winOff i.d, dlen := b.1.length } : WinSide))
    let fs := (List.zip cs (List.range cs.length)).map (fun c =>
      dataFlit 2 0 (winHdr s 1 (ceilDiv c.1.length 32) (c.2 + 1 == cs.length) dst (winId i.d) (u32 i.d 14)
        (off + 224 * c.2) 0 0) c.1)
    winAdd { rtag := 65536 + s.fab.nextTag, ldie := ldieFor s dst 2 key, dst := dst, g := i.g, ser := i.ser, isGet := false,
             win := winId i.d, woff := off, len := data.length, moves := [], sent := 0, tagged := false, flits := fs, sides := sides,
             clod := clod, part := e.2, ctx := i.ctx, dead := false, cut := false } s) s
  winMaybeDone i.g i.ser (failUnreachable s)

/-- Bits of a run cut at multiples of 224 bytes: stream bit, local bit, width. -/
def getMoves (v : View) (k : Nat) : List (Nat × Nat × Nat) :=
  let w := fmtW v.fmt
  let run := viewRun v k
  (List.zip run (List.range run.length)).flatMap (fun e =>
    let b := e.2 * w
    let room := 1792 - b % 1792
    if w ≤ room then [(b, e.1.1, w)] else [(b, e.1.1, room), (b + room, e.1.1 + room, w - room)])

/-- A local write of a WIN_GET, seen by a checked view. -/
def winLocalWrite (g ser : Nat) (ws : List BitW) (s : State) : State := localWrite g ser ws s

/-- Zeros for granules that rung 3 serves. -/
def winRung3 (g ser : Nat) (js : List Nat) (s : State) : State :=
  match outDOf s g ser, nmGet s.grains g with
  | some o, some gr =>
    let ms := o.moves.filter (fun m => granuleOf o m.2.1 ∈ js)
    let s := laneWrite (.rung 3) g ser (ms.map (fun m => (m.2.1, m.2.2, 0, false))) s
    let s := js.foldl (fun s j => noteRung gr.ctx g o.daddr 3 j s) s
    updGuard g ser (fun u => { u with late := u.late.filter (fun j => !(j ∈ js)) }) s
  | _, _ => s

/-- A cut-off of a guarded WIN_GET: it has rung 3 alone, so what is late at DUE takes zeros at once; a granule that
failed takes them at the last cut-off (R185, R273). DEDUCED (log 95). -/
def winCutoff (g ser n : Nat) (s : State) : State :=
  match outDOf s g ser with
  | none => s
  | some o =>
    let s := updGuard g ser (fun u => { u with stage := n }) s
    let live := s.fab.wreqs.filter (fun q => q.g == g && q.ser == ser && !q.dead)
    let js := live.foldl (fun l q => q.moves.foldl (fun l m => addOnce (granuleOf o m.2.1) l) l)
      (if n = 1 then unwritten s g o else [])
    let s := if n = 1 then dropSource g ser s else s
    let s := updFab (fun b => { b with
      wreqs := (b.wreqs.filter (fun q => !(q.g == g && q.ser == ser && !q.dead && !q.tagged))).map (fun q =>
        if q.g == g && q.ser == ser && !q.dead then { q with dead := true, cut := true } else q) }) s
    let failed := match guardOf s g ser with | some u => u.late | none => []
    let s := winRung3 g ser (if n = 3 then failed.foldl (fun l j => addOnce j l) js else js) s
    winMaybeDone g ser s

def winGetAct (i : Iss) (s : State) : State :=
  let dst := winDst i.d
  let all := getMoves i.vc i.pl.k
  let guarded : Bool := match outDOf s i.g i.ser with | some x => x.guarded | none => false
  let s := setWaitFor i .units s
  let s := if guarded then updOut i.g i.ser (fun o => { o with moves := all }) s else s
  let logged : List Nat := if guarded then (loggedRungs s i.ctx i.g i.daddr).map (·.1) else []
  let s := if logged = [] then s else winRung3 i.g i.ser logged s
  let ms := match outDOf s i.g i.ser with
    | some o => if logged = [] then all else all.filter (fun m => !(granuleOf o m.2.1 ∈ logged))
    | none => all
  let r0 := if dAtom i.d then (let a := openAtom i s; (some a.1, a.2)) else (none, s)
  let clod := r0.1
  let s := r0.2
  let len := (nelem i.vc * fmtW i.vc.fmt + 7) / 8
  let s := (List.range (ceilDiv len 224)).foldl (fun s k =>
    let mine := (ms.filter (fun m => m.1 / 1792 == k)).map (fun m => (m.1 % 1792, m.2.1, m.2.2))
    if mine.isEmpty then s
    else
      let n := min 224 (len - 224 * k)
      let off := winOff i.d + 224 * k
      let key := winId i.d + 2 ^ 12 * (off / 4096)
      let f := dataFlit 3 0 (winHdr s 2 (ceilDiv n 32) true dst (winId i.d) (u32 i.d 14) off 0 0) []
      winAdd { rtag := 65536 + s.fab.nextTag, ldie := ldieFor s dst 3 key, dst := dst, g := i.g, ser := i.ser, isGet := true,
               win := winId i.d, woff := off, len := n, moves := mine, sent := 0, tagged := false, flits := [f]
               sides := [{ bytes := n, clod := none, rsem := 0, poison := false, desc := i.ser, doff := winOff i.d,
                           dlen := len }]
               clod := clod, part := k, ctx := i.ctx, dead := false, cut := false } s) s
  let s := if guarded && fromLog s i.ctx then updGuard i.g i.ser (fun u => { u with stage := 3 }) s else s
  let s := failUnreachable s
  let s := match guardOf s i.g i.ser with
    | some u => if u.stage = 0 && u.due ≤ segGc s i.r then winCutoff i.g i.ser 1 s else s
    | none => s
  winMaybeDone i.g i.ser s

def doWinPut (g t : Nat) (s : State) : State := issueRow (fun d => dOp d == 0x12) winFaults winPutAct g t s
def doWinGet (g t : Nat) (s : State) : State := issueRow (fun d => dOp d == 0x13) winFaults winGetAct g t s

/-! ## The target (R271) -/

def popBit (l : List Byte) (i : Nat) : Bool := bitAt (l.getD (i / 8) 0).toNat (i % 8)

def peerOk (w : Win) (src : Nat) : Bool :=
  match w.peerMap with
  | some m => popBit m src
  | none => (List.range 4).all (fun d =>
      bits w.peerBox.toNat (8 * d) 4 ≤ dimCoord src d && dimCoord src d ≤ bits w.peerBox.toNat (8 * d + 4) 4)

/-- The place of a resident context on the grain of a logical id, leased or not. -/
def residentPlace (s : State) (ctx g : Nat) : Option Place :=
  (lsPartOf s (logicalPed2 g) ctx).map (fun x =>
    { q := physId s g, base := x.base * 16384,
      scratch := if leasedTo s ctx (logicalPed2 g) then scratchOf x else x.size * 16384,
      cacheUnits := 0, ctx := ctx, k := logicalRank g })

/-- The member grains that [off, off+n) of a KIND 0 window touches. -/
def winGrains (s : State) (w : Win) (off n : Nat) : List Nat :=
  let ms := winMembers s w
  if n = 0 then [] else
    (List.range ((off + n - 1) / max w.size 1 - off / max w.size 1 + 1)).filterMap (fun k =>
      ms[off / max w.size 1 + k]?)

/-- R271: the status of a refusal, or none. -/
def winRefusal (s : State) (w : Option Win) (key : W32) (src : Nat) (write : Bool) (off n : Nat) : Option W16 :=
  match w with
  | none => some stNOT_PERMITTED
  | some w =>
    if w.closing.isSome || w.key != key || !(peerOk w src) || !(bitAt w.rights (if write then 1 else 0)) ||
        winTotal s w < off + n then some stNOT_PERMITTED
    else if w.kind ≠ 0 then none
    else
      let gs := winGrains s w off n
      if gs.any (fun g => (residentPlace s w.ctx g).isNone) then some stBUSY
      else if gs.any (fun g => match residentPlace s w.ctx g with
          | some p => p.scratch < w.off + w.size
          | none => true) then some stNOT_PERMITTED
      else none

/-- A refused access of a context's window counts at ped-2 p and grain g: in the ped-2's live counters while they are the
context's, else in its sums (R472, R473). -/
def refusedAt (ctx p g : Nat) (s : State) : State :=
  match ctxOf s ctx with
  | none => s
  | some c =>
    let hit (i : Nat) : W64 :=
      if inScope s ctx c.pmc.scope g && selHits (c.pmc.sel.getD i 0) 0x25 g none 0 then 1 else 0
    if (ped2Of s p).holder = some ctx then
      updPed2 p (fun d => { d with
        refused := d.refused + 1, ctr := (List.range 16).map (fun i => d.ctr.getD i 0 + hit i) }) s
    else
      updCtx ctx (fun c => { c with pmc := { c.pmc with
        sums := nmUpdD p sums0 (fun l => (List.range 27).map (fun i =>
          l.getD i 0 + (if i = 26 then 1 else if 8 ≤ i && i < 24 then hit (i - 8) else 0))) c.pmc.sums } }) s

/-- R70, R271: a refusal is counted in the owner's counters: at the ped-2 of the first member grain that the access
touches; for a KIND 1 window at the lowest ped-2 leased to the owner, or else in service. DEDUCED (log 95). -/
def countRefused (s0 : State) (w : Option Win) (off n : Nat) (s : State) : State :=
  match w with
  | none => s
  | some w =>
    if w.kind = 0 then
      match (match (winGrains s0 w off (max n 1)).head? with | some g => some g | none => (winMembers s0 w).head?) with
      | some g => refusedAt w.ctx (logicalPed2 g) g s
      | none => s
    else
      let any := (List.range ped2Count).find? (ped2InService s0)
      match (match (List.range ped2Count).find? (fun p => leasedTo s0 w.ctx p) with | some p => some p | none => any) with
      | some p => refusedAt w.ctx p (logicalId p 0) s
      | none => s

/-- R265: where byte o of a KIND 0 window lies: grain and scratchpad byte. -/
def winPlace (s : State) (w : Win) (o : Nat) : Option (Nat × Nat) :=
  ((winMembers s w)[o / max w.size 1]?).map (fun g => (g, w.off + o % max w.size 1))

/-- Bytes put into an open window onto an object. -/
def winStore (w : Win) (off : Nat) (data : List Byte) (poison : Bool) (s : State) : State :=
  let s := objWriteAt w.target (w.off + off) data s
  if poison then objSetPoison w.target ((List.range data.length).map (fun i => w.off + off + i)) s else s

/-- R268, R344: `n` bytes of a put for member k of a KIND 0 window have become visible: its grain's semaphore of RSEM
receives 1 with the last of the descriptor's bytes for it, and is remembered as shared where a remote package signals it. -/
def rsemPart (n : Nat) (w : Win) (x : WinSide) (src k bytes : Nat) (s : State) : State :=
  let total := min (x.doff + x.dlen) ((k + 1) * w.size) - max x.doff (k * w.size)
  let mine (r : RsemRun) : Bool := r.src == src && r.desc == x.desc && r.win == n && r.member == k
  let left := (match s.fab.rsems.find? mine with | some r => r.left | none => total) - bytes
  let s := updFab (fun b => { b with rsems := b.rsems.filter (fun r => !(mine r)) }) s
  if left ≠ 0 then
    updFab (fun b => { b with rsems := b.rsems ++
      [{ src := src, desc := x.desc, win := n, member := k, left := left }] }) s
  else
    let ped := canonPed s w.target
    let s := semAdd w.ctx ped x.rsem 1 ((winMembers s w).getD k 0) s
    if src = pkgId s then s else updSeg w.ctx (fun r => { r with rsem := addOnce (ped, x.rsem) r.rsem }) s

/-- R268: window bytes [off, off+len) of a put have become visible. -/
def winSignal (n : Nat) (w : Win) (x : WinSide) (src off len : Nat) (s : State) : State :=
  if x.rsem = 0 || w.kind ≠ 0 || len = 0 then s
  else
    let size := max w.size 1
    (List.range ((off + len - 1) / size - off / size + 1)).foldl (fun s j =>
      let k := off / size + j
      rsemPart n w x src k (min (off + len) ((k + 1) * size) - max off (k * size)) s) s

/-- R374: the bytes that L-die l holds prepared. -/
def preparedAt (s : State) (l : Nat) : Nat :=
  s.fab.preparedWin.foldl (fun n x => if x.ldie = l then n + x.data.length else n) 0

def accessOff (f : Flit) : Nat := leNat (slice f 20 5)

/-- The bytes of the window that an access counts. -/
def accessLen (f : Flit) (x : WinSide) : Nat := min x.bytes (32 * bits (u8 f 8) 4 3)

/-- The L-die that an access comes in at (R259, R374). -/
def accessLdie (s : State) (f : Flit) : Nat :=
  Config.portHash (flitSrc f) (pkgId s) (flitTc f) (bits (u16 f 14) 0 12 + 2 ^ 12 * (accessOff f / 4096)) % 8

/-- A flit of TC 4 that answers an access (R272). -/
def winReply (f : Flit) (op len status : Nat) (payload : List Byte) (bad : Bool) (s : State) : State :=
  let n := bits (u16 f 14) 0 12
  let r := dataFlit 4 0 (winHdr s op len true (flitSrc f) n (u32 f 16) (accessOff f) (u16 f 25) status) payload
  let s := if op ≠ 3 then s
    else emit (.window r { bytes := payload.length, clod := none, rsem := 0, poison := bad, desc := 0, doff := 0,
                           dlen := 0 }) s
  routeFlit (n + 2 ^ 12 * (accessOff f / 4096)) r s

/-- Requests of the access's unit are open at the horizons, or lanes of it wait in the stores. -/
def unitOpen (s : State) (n : Nat) (f : Flit) : Bool :=
  s.hz.reqs.any (fun q => match q.kind with
    | .window h _ m => m == n && flitSrc h == flitSrc f && u16 h 25 == u16 f 25
    | _ => false) ||
  s.fab.accs.any (fun a => a.win == n && (match a.flit with
    | some h => flitSrc h == flitSrc f && u16 h 25 == u16 f 25
    | none => false))

/-- R269: the unit is acknowledged once its last flit is in and all its bytes are visible. -/
def ackUnit (n : Nat) (f : Flit) (s : State) : State :=
  let mine (e : Nat × Flit) : Bool := e.1 == n && flitSrc e.2 == flitSrc f && u16 e.2 25 == u16 f 25
  if unitOpen s n f then s
  else match s.fab.acks.find? mine with
    | none => s
    | some e => winReply e.2 4 0 0 [] false (updFab (fun b => { b with acks := b.acks.filter (fun e => !(mine e)) }) s)

/-- What tells the units of a window apart: window, source and RTAG. -/
def winKey (n : Nat) (f : Flit) : Nat × Nat × Nat := (n, flitSrc f, u16 f 25)

/-- R272: the response to a GET, of the bytes that were read, each as it was read. -/
def winRead (f : Flit) (len : Nat) (got : List (Nat × Byte × Bool)) (s : State) : State :=
  let at_ (k : Nat) : Byte × Bool := match got.find? (fun e => e.1 == k) with | some e => e.2 | none => (0, false)
  let d := (List.range len).map at_
  winReply f 3 (ceilDiv len 32) 0 (d.map (·.1)) (d.any (·.2)) s

/-- R270: an accepted access to an object: one request for each 256-byte unit that it touches, at the L-die's own port
into the pools of R206. DEDUCED (log 94). -/
def winRequests (n : Nat) (w : Win) (o : Obj) (f : Flit) (x : WinSide) (s : State) : State :=
  let a := w.off + accessOff f
  let len := accessLen f x
  let u0 := (o.base + a) / 256
  (List.range ((o.base + a + len - 1) / 256 - u0 + 1)).foldl (fun s j =>
    let off := max a (256 * (u0 + j) - o.base)
    addReqAt (48 + accessLdie s f) w.ctx 0xFFFFFFFF 0 o off [off] (.window f x n) none j s) s

/-- A unit of an accepted access has been served where the granule lies now (R267): a put's bytes are visible, and a get
is answered with its last one. -/
def winServed (q : Req) (f : Flit) (x : WinSide) (n : Nat) (ans : HzAnswer) (s : State) : State :=
  match nmGet s.fab.wins n, objOf s q.handle with
  | some w, some o =>
    let a := w.off + accessOff f
    let offs := ((List.range (accessLen f x)).map (fun i => a + i)).filter (fun b => (o.base + b) / 256 == q.unit)
    let off := offs.headD a
    closeIfIdle n (
      if flitOp f = 1 then
        ackUnit n f (winStore w (off - w.off) (((slice f 28 224).drop (off - a)).take offs.length) x.poison s)
      else
        let r0 := sourceRead q o offs ans s
        let s := updFab (fun b => { b with gots := b.gots ++ offs.map (fun c => (winKey n f, c - a, r0.1 c)) }) r0.2
        if unitOpen s n f then s
        else
          let mine := s.fab.gots.filter (fun e => e.1 == winKey n f)
          winRead f (accessLen f x) (mine.map (·.2))
            (updFab (fun b => { b with gots := b.gots.filter (fun e => e.1 != winKey n f) }) s))
  | _, _ => s

/-- R69: an access whose lanes have all passed: a put's bytes are visible, and a get is answered. -/
def endAccess (a : WinAcc) (s : State) : State :=
  let s := updFab (fun b => { b with accs := b.accs.filter (fun e => e.id != a.id) }) s
  match nmGet s.fab.wins a.win with
  | none => s
  | some w =>
    let get : Bool := match a.flit with | some f => flitOp f == 2 | none => false
    let s := if get then s else winSignal a.win w a.side a.src a.off a.len s
    closeIfIdle a.win (match a.flit with
      | some f => if get then winRead f a.len a.got s else ackUnit a.win f s
      | none => s)

/-- The lanes of an access wait somewhere. -/
def accessWaits (s : State) (id : Nat) : Bool := s.phys.any (fun e => lanesWait s e.1 (fun x => x.why == .access id))

/-- R69: an access to scratchpads goes through the DMA slots of the grains that it touches; `f`: what it answers. -/
def serveScratch (n : Nat) (w : Win) (f : Option Flit) (x : WinSide) (src off len : Nat) (data : List Byte) (s : State) :
    State :=
  let id := listMax (s.fab.accs.map (·.id)) + 1
  let a : WinAcc := { id := id, win := n, src := src, side := x, off := off, len := len, flit := f, got := [] }
  let s := updFab (fun b => { b with accs := b.accs ++ [a] }) s
  let get : Bool := match f with | some f => flitOp f == 2 | none => false
  let at_ : List (Nat × Nat × Nat) := (List.range len).filterMap (fun k =>
    (winPlace s w (off + k)).map (fun p => (p.1, p.2, k)))
  let s := (at_.foldl (fun l e => addOnce e.1 l) []).foldl (fun s g =>
    let mine := at_.filter (fun e => e.1 == g)
    let ws : List BitW := if get then [] else mine.map (fun e => (8 * e.2.1, 8, (data.getD e.2.2 0).toNat, x.poison))
    queueLanes (physId s g)
      { id := 0, ser := 0, ctx := w.ctx, g := g, why := .access id, issue := s.clk.pcc, owner := 3, far := false
        view := 0xFF, all := ws, ws := cutLanes ws, rd := if get then mine.map (fun e => (e.2.1, e.2.2, 1)) else [] } s) s
  if accessWaits s id then s else endAccess a s

/-- WINDOW_ACCESS_ARRIVE: checked, then served or refused; a refused access writes nothing. DESIGN CHOICE (log 94). -/
def doWindowAccessArrive (f : Flit) (x : WinSide) (s : State) : State :=
  let op := flitOp f
  let n := bits (u16 f 14) 0 12
  let off := accessOff f
  let src := flitSrc f
  let len := accessLen f x
  let w := nmGet s.fab.wins n
  if op ≠ 1 && op ≠ 2 then s
  else
    match winRefusal s w (BitVec.ofNat 32 (u32 f 16)) src (op == 1) off len, w with
    | some st, _ => winReply f 5 0 (st.toNat % 256) [] false (countRefused s w off len s)
    | none, none => s
    | none, some w =>
      let last := op == 1 && bitAt (u8 f 8) 7
      let due (s : State) : State := if last then updFab (fun b => { b with acks := b.acks ++ [(n, f)] }) s else s
      let data := (slice f 28 224).take len
      match x.clod with
      | some k =>
        if op = 2 then s
        else if 2 ^ 20 < preparedAt s (accessLdie s f) + len then
          winReply f 5 0 stBUSY.toNat [] false (countRefused s (some w) off len s)
        else ackUnit n f (due (updFab (fun b => { b with preparedWin := b.preparedWin ++
          [{ src := src, clod := k, ldie := accessLdie s f, win := n, woff := off, data := data, side := x }] }) s))
      | none =>
        match objOf s w.target with
        | some o =>
          if w.kind = 1 && len ≠ 0 then winRequests n w o f x (due s)
          else serveScratch n w (some f) x src off len data (due s)
        | none => serveScratch n w (some f) x src off len data (due s)

/-- CLOD_DECISION_APPLY (R375): prepared window writes of a remote clod take effect, or are dropped; semaphores are
released either way. -/
def doClodDecisionApply (pkg clod : Nat) (commit : Bool) (s : State) : State :=
  let mine := s.fab.preparedWin.filter (fun x => x.src == pkg && x.clod == clod)
  let s := updFab (fun b => { b with preparedWin := b.preparedWin.filter (fun x => !(x.src == pkg && x.clod == clod)) }) s
  mine.foldl (fun s x =>
    match nmGet s.fab.wins x.win with
    | none => s
    | some w =>
      if commit && w.kind = 0 then serveScratch x.win w none x.side pkg x.woff x.data.length x.data s
      else
        let s := if commit then winStore w x.woff x.data x.side.poison s else s
        closeIfIdle x.win (winSignal x.win w x.side pkg x.woff x.data.length s)) s

/-! ## Answers at the source (R269, R273) -/

/-- WINDOW_RESPONSE_ARRIVE: an acknowledgement, a response or a refusal gives the request's tag back.
DESIGN CHOICE (log 94). -/
def doWindowResponseArrive (f : Flit) (poison : Bool) (s : State) : State :=
  match s.fab.wreqs.find? (fun q => q.rtag == u16 f 25 && q.tagged) with
  | none => s
  | some q =>
    let op := flitOp f
    let drop (s : State) : State := updFab (fun b => { b with wreqs := b.wreqs.filter (fun x => x.rtag != q.rtag) }) s
    let ctx := q.ctx
    if q.dead then (if op = 3 || op = 4 || op = 5 then (if q.cut then noteLateArr ctx (drop s) else drop s) else s)
    else if op = 5 then winFail q (BitVec.ofNat 16 (u8 f 27)) 0 s
    else if op = 4 && !q.isGet then winMaybeDone q.g q.ser (drop s)
    else if op = 3 && q.isGet then
      let byteAt (a : Nat) : Byte × Bool := (f.getD (28 + a) 0, poison)
      let ws : List BitW := q.moves.map (fun m => let x := bitsFrom byteAt m.1 m.2.2; (m.2.1, m.2.2, x.1, poison))
      let daddr := match outDOf s q.g q.ser with | some o => o.daddr | none => 0
      let s := drop s
      let s := match q.clod with
        | some k => if poison then failClod k stUNCORRECTABLE q.g q.part daddr s
            else addPrep k q.g q.len (.loc q.g q.ser ws) s
        | none =>
          let s := if poison then consumePoison ctx q.g 0 0 0 0 daddr s else s
          winLocalWrite q.g q.ser ws s
      winMaybeDone q.g q.ser s
    else s

/-- REMOTE_TIMEOUT (R273): LNK_CTL.RTO gc have passed since the request was sent. -/
def doRemoteTimeout (rtag : Nat) (s : State) : State :=
  match s.fab.wreqs.find? (fun q => q.rtag == rtag && q.tagged) with
  | none => s
  | some q =>
    let rto := max 1 (bits s.fab.ctl.toNat 0 32)
    if (s.clk.pcc - q.sent).toNat < rto then s
    else if q.dead then updFab (fun b => { b with wreqs := b.wreqs.filter (fun x => x.rtag != rtag) }) s
    else winFail q stSTEP_LOST 1 s

/-! ## Tags (R207, R270) -/

/-- TAG_GRANT: the earliest waiting request of the pool whose channel, or destination package, is below its quota
takes the tag; a channel inside a calibration window takes none (R207). A window request whose destination has become DROP
fails instead (R273). -/
def doTagGrant (pool : Pool) (s : State) : State :=
  match pool with
  | .ldie l =>
    let s := failUnreachable s
    match s.fab.wreqs.find? (fun q => !q.tagged && !q.dead && q.ldie == l && winTagFree s l q.dst) with
    | none => s
    | some q => settle q.g (winSend q s)
  | pool =>
    match nextWaiter s pool with
    | none => s
    | some q => settle q.g (grantReq q s)

def execWinOpen (cid : Nat) (s : State) : Host.Outcome State Fault Refusal := .next (doWinOpen cid s)
def execWinClose (cid : Nat) (s : State) : Host.Outcome State Fault Refusal := .next (doWinClose cid s)
def execWinPut (g t : Nat) (s : State) : Host.Outcome State Fault Refusal := .next (doWinPut g t s)
def execWinGet (g t : Nat) (s : State) : Host.Outcome State Fault Refusal := .next (doWinGet g t s)
def execWindowAccessArrive (flit : Flit) (side : WinSide) (s : State) : Host.Outcome State Fault Refusal :=
  .next (doWindowAccessArrive flit side s)
def execWindowResponseArrive (flit : Flit) (poison : Bool) (s : State) : Host.Outcome State Fault Refusal :=
  .next (doWindowResponseArrive flit poison s)
def execRemoteTimeout (rtag : Nat) (s : State) : Host.Outcome State Fault Refusal := .next (doRemoteTimeout rtag s)
def execClodDecisionApply (pkg clod : Nat) (commit : Bool) (s : State) : Host.Outcome State Fault Refusal :=
  .next (doClodDecisionApply pkg clod commit s)
def execTagGrant (pool : Pool) (s : State) : Host.Outcome State Fault Refusal := .next (doTagGrant pool s)

end Sys2Proof.Machine
end

