-- ==== Sys2Proof/Machine/Sync.lean ====
section
/-! DEFINITION. The SYN engine and the events of threads: barriers (R169-R172), semaphores (R71-R73), deadlines
(R184-R187), clods (R373-R377), speculation (R178-R183), marks (R356, R480), END, bursts (R52), completion (R41) and the
patrol scrub (R59). -/

namespace Sys2Proof.Machine

open Sys2Proof

/-- A ped operand: 0xFFFFFFFF names the thread's home ped (R72, R373). -/
def pedOperand (i : Iss) (a : Nat) : W32 := if a = 0xFFFFFFFF then i.home else BitVec.ofNat 32 a

/-- R32, R46: the ped may not be named by the context. -/
def pedBad (s : State) (ctx : Nat) (a : W32) : Bool :=
  match pedOf s ctx a with
  | .error _ => true
  | .ok l => !(pedLeased s ctx l)

/-- R374: the thread holds an open clod. -/
def clodHeld (s : State) (i : Iss) : Bool := (clodKeyOf s i.g i.t).isSome

/-! ## Barriers (R169-R172) -/

def barOf (i : Iss) : Option (BarEnt × BarSt) :=
  match i.r.d.bars[u16 i.d 10]?, i.r.bars[u16 i.d 10]? with
  | some e, some b => some (e, b)
  | _, _ => none

def barrierFaults (s : State) (i : Iss) : List (Bool × Nat) :=
  [(!(tailZero i.d 12), 0x0A), (clodHeld s i, 0x0A)] ++
  (match barOf i with
    | some (e, b) => [(pedBad s i.ctx e.ped, 0x07), (!(bitAt e.threads.toNat i.t), 0x0A), ((i.g, i.t) ∈ b.arrived, 0x0A)]
    | none => [])

/-- R172: a barrier that completes after its PLANNED gc is late, at the ped-2 of the last arriving grain. -/
def noteLateBarrier (i : Iss) (planned : Nat) (s : State) : State :=
  let gc := segGc s i.r
  if gc ≤ planned then s
  else updPed2 i.ped2 (fun p => { p with latebar := p.latebar + 1, latemax := max p.latemax (gc - planned) }) s

/-- R170: every waiting BARRIER of the context that names the id completes. -/
def releaseBarrier (ctx bid : Nat) (s : State) : State :=
  { s with grains := s.grains.map (fun e =>
      if e.2.ctx = ctx then (e.1, { e.2 with
        out := updWhere (fun o => o.wait == .barrier bid) (fun o => { o with wait := .nothing }) e.2.out })
      else e) }

/-- Read from the spec by inference: DEDUCED (log 90). -/
def barrierAct (i : Iss) (s : State) : State :=
  match barOf i with
  | none => s
  | some (e, b) =>
    let bid := u16 i.d 10
    if b.done then
      updSeg i.ctx (fun r => { r with bars := r.bars.set bid { b with arrived := b.arrived ++ [(i.g, i.t)] } }) s
    else
      let l := match pedOf s i.ctx e.ped with | .ok l => l | .error _ => []
      let arrived := b.arrived ++ [(i.g, i.t)]
      let need := pedSetCount l * ((List.range 8).filter (fun t => bitAt e.threads.toNat t)).length
      let have_ := (arrived.filter (fun a => pedSetMem l a.1)).length
      let full := need ≤ have_
      let s := updSeg i.ctx (fun r => { r with bars := r.bars.set bid { arrived := arrived, done := full } }) s
      let s := setWaitFor i (.barrier bid) s
      if full then releaseBarrier i.ctx bid (noteLateBarrier i e.planned s) else s

def doBarrier (g t : Nat) (s : State) : State := issueRow (fun d => dOp d == 0x20) barrierFaults barrierAct g t s

/-! ## Semaphores (R71-R73) -/

def semFaults (s : State) (i : Iss) : List (Bool × Nat) :=
  [(u8 i.d 15 != 0 || !(tailZero i.d 18) || u16 i.d 16 == 0, 0x0A), (pedBad s i.ctx (pedOperand i (u32 i.d 10)), 0x07)]

/-- R73: the waiter joins, and is granted at once where the value allows it and no earlier waiter takes it. -/
def semWaitAct (i : Iss) (s : State) : State :=
  let ped := canonPed s (pedOperand i (u32 i.d 10))
  let idx := u8 i.d 14
  let n := u16 i.d 16
  let s := setWaitFor i (.sem ped idx n) s
  let s := updCtx i.ctx (fun c => { c with
    waiters := insertWaiter { ped := ped, idx := idx, n := n, g := i.g, t := i.t, ser := i.ser } c.waiters }) s
  match ctxOf s i.ctx with
  | some c => semGrant i.ctx ped idx c.waiters s
  | none => s

def semSignalAct (i : Iss) (s : State) : State :=
  let ped := canonPed s (pedOperand i (u32 i.d 10))
  match clodKeyOf s i.g i.t with
  | some k => addPrep k i.g 0 (.sem ped (u8 i.d 14) (u16 i.d 16)) s
  | none => semAdd i.ctx ped (u8 i.d 14) (u16 i.d 16) i.g s

def doSemWait (g t : Nat) (s : State) : State := issueRow (fun d => dOp d == 0x21) semFaults semWaitAct g t s
def doSemSignal (g t : Nat) (s : State) : State := issueRow (fun d => dOp d == 0x22) semFaults semSignalAct g t s

/-! ## Deadlines (R184-R187) -/

def deadlineFaults (s : State) (i : Iss) : List (Bool × Nat) :=
  [(!(tailZero i.d 19) || u24 i.d 10 == 0, 0x0A), (clodHeld s i, 0x0A)]

def deadlineAct (i : Iss) (s : State) : State :=
  updThr i.g i.t (fun th => { th with
    guards := th.guards ++ [{ due := u24 i.d 10, step1 := u24 i.d 13, step2 := u24 i.d 16, fetch := none, stage := 0,
                              late := [] }] }) s

def doDeadline (g t : Nat) (s : State) : State := issueRow (fun d => dOp d == 0x24) deadlineFaults deadlineAct g t s

/-- A cut-off of a guarded fetch, by its opcode. -/
def cutoff (g ser n : Nat) (s : State) : State :=
  match outDOf s g ser with
  | none => s
  | some o =>
    if dOp o.desc = 0x10 then dmaCutoff g ser n s
    else if dOp o.desc = 0x14 then gatherCutoff g ser n s
    else winCutoff g ser n s

/-- The guards of a thread that stand before cut-off n and whose gc has come. -/
def dueGuards (s : State) (g t n : Nat) : List Nat :=
  match nmGet s.grains g with
  | none => []
  | some gr =>
    match nmGet gr.thr t, segOf s gr.ctx with
    | some th, some r =>
      let gc := segGc s r
      (th.guards.filter (fun u =>
        let at_ := if n = 1 then u.due else if n = 2 then u.due + u.step1 else u.due + u.step1 + u.step2
        u.stage + 1 == n && at_ ≤ gc)).filterMap (·.fetch)
    | _, _ => []

def cutoffs (g t n : Nat) (s : State) : State := (dueGuards s g t n).foldl (fun s ser => cutoff g ser n s) s

def doDeadlineDue (g t : Nat) (s : State) : State := cutoffs g t 1 s
def doDeadlineRung2Cutoff (g t : Nat) (s : State) : State := cutoffs g t 2 s
def doDeadlineRung3Cutoff (g t : Nat) (s : State) : State := cutoffs g t 3 s

/-! ## Clods (R373-R377) -/

/-- The open clod that a CLOD_BEGIN joins: same ped, CID and thread, and the grain has not taken part in it. -/
def clodToJoin (s : State) (i : Iss) : Option Clod :=
  let ped := canonPed s (pedOperand i (u32 i.d 10))
  s.clods.find? (fun c => c.ctx == i.ctx && c.atom.isNone && c.ped == ped && c.cid == u8 i.d 14 && c.t == i.t &&
    !(i.g ∈ c.committed) && clodKeyOf s i.g i.t != some c.key)

def clodPed2s (c : Clod) : List Nat := c.members.foldl (fun l g => addOnce (logicalPed2 g) l) []

/-- Read from the spec by inference: DEDUCED (log 86). -/
def clodBeginFaults (s : State) (i : Iss) : List (Bool × Nat) :=
  let ped := pedOperand i (u32 i.d 10)
  let cover := match pedOf s i.ctx ped with | .ok l => pedSetPed2s l | .error _ => []
  let clash := (clodToJoin s i).isNone && s.clods.any (fun c => c.atom.isNone && c.cid == u8 i.d 14 &&
    (clodPed2s c).any (fun p => p ∈ cover))
  let full := (clodToJoin s i).isNone && cover.any (fun p => 16 ≤ pedClods s p)
  [(15 < u8 i.d 14 || !(tailZero i.d 15), 0x0A), (pedBad s i.ctx ped, 0x07), (clash, 0x0A), (clodHeld s i, 0x0A),
   (full, 0x0A)]

def clodBeginAct (i : Iss) (s : State) : State :=
  match clodToJoin s i with
  | some c => updThr i.g i.t (fun th => { th with clod := some c.key }) s
  | none =>
    let ped := pedOperand i (u32 i.d 10)
    let members := match pedOf s i.ctx ped with | .ok l => pedSetGrains l | .error _ => []
    let key := s.nextClod
    let s := { s with
      nextClod := key + 1
      clods := s.clods ++ [{ key := key, ctx := i.ctx, cid := u8 i.d 14, ped := canonPed s ped, t := i.t,
                             members := members, committed := [], preps := [], failed := none, explicitAbort := false,
                             size := 0, atom := none }] }
    updThr i.g i.t (fun th => { th with clod := some key }) s

/-- The thread holds the clod of that CID. -/
def holdsCid (s : State) (i : Iss) (cid : Nat) : Bool :=
  match (clodKeyOf s i.g i.t).bind (clodBy s) with
  | some c => c.cid == cid
  | none => false

def clodCommitFaults (s : State) (i : Iss) : List (Bool × Nat) :=
  [(!(allZero (slice i.d 10 4)) || u8 i.d 15 != 0 || !(tailZero i.d 20), 0x0A),
   (!(holdsCid s i (u8 i.d 14)), 0x0A),
   (u32 i.d 16 != 0xFFFFFFFF && i.pl.scratch < u32 i.d 16 + 4, 0x04)]

def clodCommitAct (i : Iss) (s : State) : State :=
  match clodKeyOf s i.g i.t with
  | none => s
  | some k =>
    setWaitFor i (.clod k) (updClod k (fun c => { c with committed := addOnce i.g c.committed }) s)

def clodAbortFaults (s : State) (i : Iss) : List (Bool × Nat) :=
  [(!(allZero (slice i.d 10 4)) || !(tailZero i.d 15), 0x0A), (!(holdsCid s i (u8 i.d 14)), 0x0A)]

/-- R376: an explicit abort; the member takes no further part. -/
def clodAbortAct (i : Iss) (s : State) : State :=
  match clodKeyOf s i.g i.t with
  | none => s
  | some k =>
    updThr i.g i.t (fun th => { th with clod := none })
      (updClod k (fun c => { c with committed := addOnce i.g c.committed, explicitAbort := true }) s)

def doClodBegin (g t : Nat) (s : State) : State := issueRow (fun d => dOp d == 0x28) clodBeginFaults clodBeginAct g t s
def doClodCommit (g t : Nat) (s : State) : State :=
  issueRow (fun d => dOp d == 0x29) clodCommitFaults clodCommitAct g t s
def doClodAbort (g t : Nat) (s : State) : State := issueRow (fun d => dOp d == 0x2A) clodAbortFaults clodAbortAct g t s

/-- R375: every member has ended its part, and every prepared write is acknowledged. -/
def clodReady (s : State) (c : Clod) : Bool :=
  c.atom.isNone && c.members.all (fun g => g ∈ c.committed) &&
    !(s.hz.reqs.any (fun q => q.clod == some c.key)) && !(s.fab.wreqs.any (fun q => q.clod == some c.key && !q.dead))

/-- The CLOD_COMMITs that wait for the decision complete, each with its outcome word (R375). DEDUCED (log 89). -/
def releaseCommits (key outcome : Nat) (s : State) : State :=
  (s.grains.filter (fun e => e.2.out.any (fun o => o.wait == .clod key))).foldl (fun s e =>
    (e.2.out.filter (fun o => o.wait == .clod key)).foldl (fun s o =>
      let res := u32 o.desc 16
      let s := if res = 0xFFFFFFFF then s else lsWriteBytes (placeOf s e.1) res (leBytes 4 outcome) s
      updThr e.1 o.t (fun th => { th with clod := none }) (workDone e.1 o.ser s)) s) s

/-- A prepared item takes effect at an abort only if it is a semaphore increment (R375). -/
def semOnly (p : Prep) : Bool := match p with | .sem _ _ _ => true | _ => false

/-- CLOD_DECISION: the votes are collected, and the prepared writes take effect together or are dropped.
DEDUCED (log 89). -/
def doClodDecision (ctx key : Nat) (s : State) : State :=
  match s.clods.find? (fun c => c.key == key && c.ctx == ctx) with
  | none => s
  | some c =>
    if !(clodReady s c) then s
    else
      let commit := c.failed.isNone && !c.explicitAbort
      let s := { s with clods := s.clods.filter (fun x => x.key != key) }
      let s := (clodTargets c).foldl (fun s d => emit (.clodDecision d key commit) s) s
      let s := applyAllS ctx (c.preps.filter (fun e => commit || semOnly e.2.2)) s
      let s := clodAbortRec c s
      let outcome := match c.failed with
        | some (cause, _) => cause.toNat
        | none => if commit then 0 else stABORTED_TXN.toNat
      releaseCommits key outcome s

/-! ## Speculation (R178-R183) -/

def specBeginFaults (_ : State) (i : Iss) : List (Bool × Nat) :=
  let n := u16 i.d 10
  let a := u32 i.d 12
  let len := u32 i.d 16
  [(n == 0 || 4095 < n || a % 32 != 0 || len < 32 || 98304 < len || len % 32 != 0 || !(tailZero i.d 20), 0x0A),
   (i.pl.scratch < a + len, 0x04)]

def specBeginAct (i : Iss) (s : State) : State :=
  let k : SpecTask := { stage := u32 i.d 12, stageLen := u32 i.d 16, first := i.pos + 1, size := u16 i.d 10,
                        left := u16 i.d 10, altLeft := 0 }
  let s := updThr i.g i.t (fun th => { th with
    spec := if i.r.specActive then .spec else .skip, task := some k, heldSig := [] }) s
  if i.r.specActive then s else bump i.g 0x1D 1 s

def doSpecBegin (g t : Nat) (s : State) : State := issueRow (fun d => dOp d == 0x2C) specBeginFaults specBeginAct g t s

def specResolveFaults (s : State) (i : Iss) : List (Bool × Nat) :=
  let n := u16 i.d 16
  let open_ := match nmGet s.grains i.g with | some gr => gr.acc.any (fun e => e.2.open_) | none => false
  [(4095 < u16 i.d 10 || n < 4 || 4096 < n || n % 4 != 0 || !(tailZero i.d 22) || open_, 0x0A),
   (i.pl.scratch < u32 i.d 12 + n || i.pl.scratch < u32 i.d 18 + n, 0x04)]

/-- The held items of a task are dropped, those of descriptors that have not completed among them, and the alternative
runs (R180, R181). -/
def enterAlt (g t altLen : Nat) (s : State) : State :=
  let s := updGrain g (fun gr => { gr with
    out := updWhere (fun o => o.t == t && o.held) (fun o => { o with held := false, sig := 0, counted1 := true }) gr.out }) s
  updThr g t (fun th => { th with
    heldSig := []
    spec := if altLen = 0 then .none else .alt
    task := if altLen = 0 then none else th.task.map (fun k => { k with altLeft := altLen }) }) s

/-- A discarded task leaves its staging range undefined (R180): free values. DEDUCED (log 90);
DESIGN CHOICE (log 105). -/
def undefStage (i : Iss) (k : SpecTask) (s : State) : State :=
  let r0 := freeBits (8 * k.stageLen) s
  let v := r0.1
  let s := r0.2
  let r0 := freeBool s
  let p := r0.1
  let s := r0.2
  lsWrite i.pl (byteWrites k.stage (leBytes k.stageLen v.toNat) p) s

/-- The task is decided, once every descriptor of it has completed, those that the array has still to issue again among
them (R180, R90); one that ran in SKIP goes to its alternative
then (R181). -/
def settleSpec (g ser : Nat) (s : State) : State :=
  match outDOf s g ser with
  | none => s
  | some o =>
    match issOf s g o, (nmGet s.grains g).bind (fun gr => nmGet gr.thr o.t), nmGet s.grains g with
    | some i, some th, some gr =>
      if o.wait != .resolve || isRedo th || gr.out.any (fun x => x.t == o.t && x.held) then s
      else if th.spec == .skip then workDone g ser (enterAlt g o.t (u16 o.desc 10) s)
      else
        let n := u16 o.desc 16
        let pred := u32 o.desc 12
        let act := u32 o.desc 18
        let same := lsRead s i.pl pred n == lsRead s i.pl act n
        let s := if lsPoisoned s i.pl pred n then consumePoison i.ctx g 0 0 0 pred o.daddr s else s
        let s := if lsPoisoned s i.pl act n then consumePoison i.ctx g 0 0 0 act o.daddr s else s
        let s := workDone g ser s
        if same then
          let home := match th.stream with | some st => st.home | none => 0
          let s := th.heldSig.foldl (fun s x => releaseOut g x i.ctx home th.clod s) s
          let s := updThr g o.t (fun th => { th with heldSig := [], spec := .none, task := none }) s
          let s := updCtx i.ctx (fun c => { c with spec := { c.spec with commits := c.spec.commits + 1 } }) s
          bump g 0x1B 1 (jumpTo g o.t (th.pos + u16 o.desc 10) s)
        else
          let s := match th.task with | some k => undefStage i k s | none => s
          let s := enterAlt g o.t (u16 o.desc 10) s
          let s := updCtx i.ctx (fun c => { c with spec := { c.spec with discards := c.spec.discards + 1 } }) s
          bump g 0x1C 1 s
    | _, _, _ => s

def specResolveAct (i : Iss) (s : State) : State :=
  match (nmGet s.grains i.g).bind (fun gr => nmGet gr.thr i.t) with
  | none => s
  | some th =>
    let s := if th.spec == .skip then s else updThr i.g i.t (fun th => { th with spec := .resolving }) s
    settleSpec i.g i.ser (setWaitFor i .resolve s)

def doSpecResolve (g t : Nat) (s : State) : State :=
  issueRow (fun d => dOp d == 0x2D) specResolveFaults specResolveAct g t s

/-! ## Marks and END -/

/-- R356: the descriptor writes a record, on this grain and in this segment. -/
def marks (i : Iss) : Bool := !i.r.d.regrow && (!(bitAt (u8 i.d 16) 0) || i.pl.k == 0)

def secureMarkFaults (s : State) (i : Iss) : List (Bool × Nat) :=
  let len := u16 i.d 10
  let off := u32 i.d 12
  let n := match ctxOf s i.ctx with | some c => c.sec.cur.batches.length | none => 0
  [(len == 0 || 56 < len || off % 4 != 0 || 1 < u8 i.d 16 || !(tailZero i.d 17), 0x0A),
   (marks i && 65536 ≤ n, 0x0A),
   (i.pl.scratch < off + len, 0x04)]

def indexWhere {α : Type} (p : α → Bool) : List α → Nat → Nat → Option (Nat × α)
  | [], _, _ => none
  | x :: r, k, i => if p x then (if k = 0 then some (i, x) else indexWhere p r (k - 1) (i + 1)) else indexWhere p r k (i + 1)

/-- R368: a RERUN_DIFF record; a mismatch shows in the flags of REPLAY_STEP. DEDUCED (log 91). -/
def rerunDiff (ctx item idx : Nat) (s : State) : State :=
  let step := match ctxOf s ctx with | some c => c.step.toNat | none => 0
  let s := postRec 0x14 1 (some ctx) 0xFF 0xFFFFFFFF [(0, 8, step), (8, 1, item), (12, 4, idx)] s
  updCtx ctx (fun c => { c with sec := { c.sec with
    replayFlags := if bitAt c.sec.replayFlags item then c.sec.replayFlags else c.sec.replayFlags + 2 ^ item } }) s

/-- Read from the spec by inference: DEDUCED (log 91). -/
def secureMarkAct (i : Iss) (s : State) : State :=
  if !(marks i) then s
  else
    let off := u32 i.d 12
    let b : BatchRec := { who := BitVec.ofNat 32 (i.g + i.t * 2 ^ 19), seg := i.r.seg, data := lsRead s i.pl off (u16 i.d 10) }
    let s := if lsPoisoned s i.pl off (u16 i.d 10) then consumePoison i.ctx i.g 0 0 0 off i.daddr s else s
    match ctxOf s i.ctx with
    | none => s
    | some c =>
      let same (x : BatchRec) : Bool := x.who == b.who && x.seg == b.seg
      let k := (c.sec.cur.batches.filter same).length
      let s := updCtx i.ctx (fun c => { c with sec := { c.sec with cur := { c.sec.cur with
        batches := c.sec.cur.batches ++ [b] } } }) s
      match logEntry s i.ctx with
      | none => s
      | some e =>
        match indexWhere same e.batches k 0 with
        | some (n, x) => if x == b then s else segStatus i.ctx stSTEP_LOST (rerunDiff i.ctx 0 n s)
        | none => segStatus i.ctx stSTEP_LOST (rerunDiff i.ctx 0 0 s)

def doSecureMark (g t : Nat) (s : State) : State :=
  issueRow (fun d => dOp d == 0x34) secureMarkFaults secureMarkAct g t s

def pmcMarkFaults (_ : State) (i : Iss) : List (Bool × Nat) := [(!(tailZero i.d 14), 0x0A)]

/-- R480: the marker record is the descriptor's sample; it completes in its issue gc. DEDUCED (log 91). -/
def pmcMarkAct (i : Iss) (s : State) : State :=
  match outDOf s i.g i.ser, ctxOf s i.ctx with
  | some o, some c =>
    let on := c.pmc.smpEn && c.pmc.smpHandle != 0
    let s := if on then addSample i.g (sampleRec i.g o (b2n o.marked + 2 * b2n o.held + 8) (u32 i.d 10) 0xFF) s else s
    doDescriptorComplete i.g i.ser (updOut i.g i.ser (fun o => { o with sampled := false }) s)
  | _, _ => s

def doPmcMark (g t : Nat) (s : State) : State := issueRow (fun d => dOp d == 0x38) pmcMarkFaults pmcMarkAct g t s

def endFaults (s : State) (i : Iss) : List (Bool × Nat) := [(!(tailZero i.d 10), 0x0A), (clodHeld s i, 0x0A)]

/-- R376: a member's thread that ends without having taken part fails the clod. DEDUCED (log 90). -/
def endClods (i : Iss) (s : State) : State :=
  (s.clods.filter (fun c => c.ctx == i.ctx && c.atom.isNone && c.t == i.t && i.g ∈ c.members && !(i.g ∈ c.committed))).foldl
    (fun s c => updClod c.key (fun c => { c with committed := addOnce i.g c.committed })
      (failClod c.key stABORTED_TXN i.g 0 i.daddr s)) s

def endAct (i : Iss) (s : State) : State :=
  let earlier := match nmGet s.grains i.g with
    | some gr => gr.out.any (fun o => o.t == i.t && o.ser != i.ser)
    | none => false
  let s := endClods i s
  if earlier then s else doDescriptorComplete i.g i.ser s

def doEndOp (g t : Nat) (s : State) : State := issueRow (fun d => dOp d == 0x3F) endFaults endAct g t s

/-! ## Events of a thread -/

/-- NOTBEFORE_REACHED (R45): the thread's next descriptor may issue. -/
def doNotbeforeReached (g t : Nat) (s : State) : State :=
  match nmGet s.grains g with
  | none => s
  | some gr =>
    match nmGet gr.thr t, segOf s gr.ctx with
    | some th, some r =>
      (match bufDesc th with
        | some d => if th.st == .waitTime && dNotBefore d ≤ segGc s r then
            settle g (wakePed1 gr.ped2 (ped1Of s g) s) else s
        | none => s)
    | _, _ => s

/-- DESCRIPTOR_BURST_ARRIVE (R52, R53): the burst's snapshot is taken and the thread's buffer holds it.
DEDUCED (log 91). -/
def doDescriptorBurstArrive (g t b : Nat) (s : State) : State :=
  match nmGet s.grains g with
  | none => s
  | some gr =>
    match nmGet gr.thr t with
    | none => s
    | some th =>
      match th.stream with
      | none => s
      | some st =>
        let mine (q : Req) : Bool := q.g == g && q.kind == .burst t b
        let q := s.hz.reqs.find? mine
        if !(b ∈ th.reqd) || (st.handle != 0 && !(q.any (mayServe s))) ||
            lanesWait s (physId s g) (fun e => e.g == g && e.why == .burst t b) then s
        else
          let s := updHz (fun h => { h with reqs := h.reqs.filter (fun q => !(mine q)) }) s
          let offs := (List.range 256).map (fun i => st.off + 256 * b + i)
          let r : List Byte × Bool × State := match q.bind (fun q => (objOf s q.handle).map (fun o => (q, o))) with
            | some x => (let y := sourceRead x.1 x.2 offs x.1.ans s; (offs.map (fun a => (y.1 a).1), offs.any (fun a => (y.1 a).2), y.2))
            | none => (let y := burstBytes s gr.ctx g st b; (y.1, y.2, s))
          let d := (r.1, r.2.1)
          let s := r.2.2
          let s := updThr g t (fun th => { th with
            reqd := del b th.reqd
            bufs := if th.pos / 8 ≤ b then nmSet b d.1 th.bufs else th.bufs }) s
          let s := settle g s
          if d.2 then
            let s := consumePoison gr.ctx g (if st.handle = 0 then 0 else 1) 2 st.handle (st.off + 256 * b) 0 s
            segStatus gr.ctx stSTEP_LOST s
          else s

/-- R59, R63: the slot of this gc on the wheel of a bank is SCB. -/
def scrubSlot (s : State) (p bank : Nat) : Bool :=
  bits ((ped2Of s p).wheels.getD bank 0).toNat (3 * (s.clk.pcc.toNat % 16)) 3 == 6

/-- PATROL_SCRUB_SLOT (R58, R59): each bank whose slot is SCB in this gc checks its next row. SEC_SCRUB stops it while debug
is unlocked (R446). -/
def doPatrolScrubSlot (g : Nat) (banks : List EccResult) (s : State) : State :=
  if !(assigned s g) || (s.sec.dbg && s.sec.scrub.getLsbD 0) then s
  else
    let q := physId s g
    ((List.zip banks [0, 1, 2, 3]).filter (fun e => scrubSlot s (q / 256) e.2)).foldl (fun s e =>
      let row := (physOf s q).patrol.getD e.2 0
      let s := updPhys q (fun x => { x with
        patrol := (pad4 x.patrol).set e.2 ((row + 1) % 768)
        poison := if e.1 = .uncorrectable then addOnce (4 * row + e.2) x.poison else x.poison }) s
      if e.1 = .corrected then
        let s := updPed2 (logicalPed2 g) (fun p => { p with corr := p.corr + 1 }) s
        { s with err := { s.err with cCe := s.err.cCe + 1 } }
      else s) s
where
  pad4 (l : List Nat) : List Nat := l ++ List.replicate (4 - l.length) 0

/-- DESCRIPTOR_COMPLETE (R41): a SPEC_RESOLVE settles its task first; a ped-1 that is quiet then is gated (R395). -/
def doComplete (g ser : Nat) (s : State) : State := gateAt g (doDescriptorComplete g ser (settleSpec g ser s))

def execBarrier (g t : Nat) (s : State) : Host.Outcome State Fault Refusal := .next (doBarrier g t s)
def execSemWait (g t : Nat) (s : State) : Host.Outcome State Fault Refusal := .next (doSemWait g t s)
def execSemSignal (g t : Nat) (s : State) : Host.Outcome State Fault Refusal := .next (doSemSignal g t s)
def execDeadline (g t : Nat) (s : State) : Host.Outcome State Fault Refusal := .next (doDeadline g t s)
def execDeadlineDue (g t : Nat) (s : State) : Host.Outcome State Fault Refusal := .next (doDeadlineDue g t s)
def execDeadlineRung2Cutoff (g t : Nat) (s : State) : Host.Outcome State Fault Refusal :=
  .next (doDeadlineRung2Cutoff g t s)
def execDeadlineRung3Cutoff (g t : Nat) (s : State) : Host.Outcome State Fault Refusal :=
  .next (doDeadlineRung3Cutoff g t s)
def execClodBegin (g t : Nat) (s : State) : Host.Outcome State Fault Refusal := .next (doClodBegin g t s)
def execClodCommit (g t : Nat) (s : State) : Host.Outcome State Fault Refusal := .next (doClodCommit g t s)
def execClodAbort (g t : Nat) (s : State) : Host.Outcome State Fault Refusal := .next (doClodAbort g t s)
def execClodDecision (ctx clod : Nat) (s : State) : Host.Outcome State Fault Refusal := .next (doClodDecision ctx clod s)
def execSpecBegin (g t : Nat) (s : State) : Host.Outcome State Fault Refusal := .next (doSpecBegin g t s)
def execSpecResolve (g t : Nat) (s : State) : Host.Outcome State Fault Refusal := .next (doSpecResolve g t s)
def execSecureMark (g t : Nat) (s : State) : Host.Outcome State Fault Refusal := .next (doSecureMark g t s)
def execPmcMark (g t : Nat) (s : State) : Host.Outcome State Fault Refusal := .next (doPmcMark g t s)
def execEndOp (g t : Nat) (s : State) : Host.Outcome State Fault Refusal := .next (doEndOp g t s)
def execNotbeforeReached (g t : Nat) (s : State) : Host.Outcome State Fault Refusal := .next (doNotbeforeReached g t s)
def execDescriptorBurstArrive (g t b : Nat) (s : State) : Host.Outcome State Fault Refusal :=
  .next (doDescriptorBurstArrive g t b s)
def execPatrolScrubSlot (g : Nat) (banks : List EccResult) (s : State) : Host.Outcome State Fault Refusal :=
  .next (doPatrolScrubSlot g banks s)
def execDescriptorComplete (g ser : Nat) (s : State) : Host.Outcome State Fault Refusal := .next (doComplete g ser s)

end Sys2Proof.Machine
end

