-- ==== Sys2Proof/Machine/Objects.lean ====
section
/-! DEFINITION. Objects (R193-R198, R215, R222, R225-R227): their commands, migration and promotion (R211-R214) and what
a segment boundary does to both, frames that are retired (R379), NVMe completions and failures (R218-R221), and the
calibration windows (R418). -/

namespace Sys2Proof.Machine

open Sys2Proof

/-! ## Who names an object (R198) -/

def plansOf (s : State) (ctx : Nat) : List Plan := match ctxOf s ctx with | some c => c.plans | none => []

/-- A loaded plan of the context names the object as a stream (R52). -/
def isStream (s : State) (ctx : Nat) (h : W32) : Bool :=
  (plansOf s ctx).any (fun p => p.segs.any (fun d => d.progs.any (fun x => x.streams.any (fun st =>
    match st with | some y => y.handle == h | none => false))))

def planNames (h : W32) (p : Plan) : Bool :=
  p.handle == h || p.segs.any (fun d =>
    d.xfers.any (fun x => x.handle == h) ||
    d.progs.any (fun x => x.views.any (fun v => v.handle == h) ||
      x.streams.any (fun st => match st with | some y => y.handle == h | none => false)))

/-- R215: the object serves as a rung. -/
def isRung (s : State) (h : W32) : Bool := s.hz.objs.any (fun o => o.rung1 == h || o.rung2 == h)

/-- R198: the object is a rung of another object's ladder. -/
def rungOfOther (s : State) (h : W32) : Bool := s.hz.objs.any (fun o => handleOf o != h && (o.rung1 == h || o.rung2 == h))

def polNames (h : W32) (p : SecPol) : Bool :=
  p.en && (p.regtab == h || p.silt == h || p.strata == h || p.mirror == h || p.regs.any (fun r => r.1 == h))

/-- R198: something still names the object. -/
def objHeld (s : State) (ctx : Nat) (h : W32) : Bool :=
  let c := ctxOf s ctx
  (plansOf s ctx).any (planNames h) ||
  s.fab.wins.any (fun e => e.2.kind == 1 && e.2.target == h) ||
  rungOfOther s h ||
  s.sieves.any (fun t => t.handle == h || t.pool == h || t.dlog == h) ||
  (match c with
    | some c => (match c.sec.pol with | some p => polNames h p | none => false) ||
        c.num_.ring == h || c.num_.ringF == h || c.pmc.smpHandle == h ||
        (match c.pmc.smpNext with | some x => x.1 == h | none => false)
    | none => false) ||
  s.hz.migs.any (fun m => m.handle == h) ||
  s.cmds.any (fun k => k.started && k.done.isNone && k.opcode == 0x71 && u32 k.param 8 == h.toNat)

/-- R274: a group of the context names its list object while it stands. -/
def groupNames (s : State) (ctx : Nat) (h : W32) : Bool :=
  s.fab.groups.any (fun e => e.2.ctx == ctx && e.2.listObj == h)

/-! ## Allocating -/

/-- R193: the lowest base at which the size fits. -/
def findBase (s : State) (ctx size : Nat) : Option Nat :=
  let mine := s.hz.objs.filter (fun o => o.ctx == ctx)
  let fits (b : Nat) : Bool := b + size ≤ 2 ^ 52 && mine.all (fun o => b + size ≤ o.base || o.base + o.size ≤ b)
  (0x10000 :: mine.map (fun o => o.base + o.size)).foldl (fun r b =>
    if fits b then (match r with | none => some b | some x => some (min x b)) else r) none

/-- R193: the next index of the context's sequence that no live object has. -/
def nextIndex (s : State) (ctx : Nat) : Nat → Nat → Nat
  | i, 0 => i
  | i, fuel + 1 =>
    if s.hz.objs.any (fun o => o.ctx == ctx && o.idx == i) then nextIndex s ctx (if i = 4194303 then 1 else i + 1) fuel else i

def pickIndex (s : State) (ctx : Nat) : Nat :=
  let last := nmGetD s.hz.idxSeq ctx 0
  nextIndex s ctx (if last = 4194303 then 1 else last + 1) (s.hz.objs.length + 1)

/-- R196, R1: the horizon that a HORIZON code names. -/
def resolveHzn (s : State) (h : Nat) : Nat := if h = 5 then (if s.boot.kind = 2 then 4 else 2) else h

/-- The parameters that OBJ_ALLOC and OBJ_PLACE share. -/
structure PlaceP where
  horizon : Nat
  spread : Nat
  home : Nat
  pin : Bool
  promote : Bool
  rdonly : Bool
  port : Nat
  promoMax : Nat
  hostlist : Nat
  deriving DecidableEq, Repr

def parsePlace (p : List Byte) : PlaceP :=
  let f := u8 p 11
  { horizon := u8 p 8, spread := u8 p 9, home := u8 p 10, pin := bitAt f 0, promote := bitAt f 1, rdonly := bitAt f 2,
    port := b2n (bitAt f 3), promoMax := u32 p 12, hostlist := u64 p 16 }

/-- The host's granule list (R222). -/
def hostGranules (s : State) (p : PlaceP) (n : Nat) : List Nat :=
  (List.range n).map (fun j => leNat (memRead (hostMem s p.port) (p.hostlist + 8 * j) 8))

def homeBad (spread home : Nat) : Bool :=
  2 < spread || (spread = 0 && 47 < home) || (spread = 1 && 3 < home) || (spread = 2 && home ≠ 0)

/-- R197: the parameter conditions on a target horizon. `size` 0: OBJ_MIGRATE, which has no host list. -/
def hznBad (s : State) (horizon : Nat) (rdonly : Bool) (port hostlist : Nat) : Bool :=
  let h := resolveHzn s horizon
  horizon = 0 || 5 < horizon || (h = 2 && s.hz.channels = []) || (h = 3 && (s.boot.kind ≠ 0 || !rdonly)) ||
    (h = 4 && (!(portOf s port).linkUp || hostlist = 0)) || (horizon ≤ 3 && hostlist ≠ 0)

/-- Read from the spec by inference: DEDUCED (log 80). -/
def placeBad (s : State) (p : List Byte) (size : Nat) : Bool :=
  let q := parsePlace p
  q.horizon = 0 || 5 < q.horizon || homeBad q.spread q.home || 2 ^ 4 ≤ u8 p 11 || 50331648 < q.promoMax ||
    !(allZero (p.drop 24)) || hznBad s q.horizon q.rdonly q.port q.hostlist ||
    (resolveHzn s q.horizon = 4 && (hostGranules s q (ceilDiv size 65536)).any (fun a => a % 65536 ≠ 0))

/-- R199: the drive of granule j of the object of index i. -/
def driveOf (s : State) (i j : Nat) : Nat := s.hz.drives.getD ((j + i) % max s.hz.drives.length 1) 0

/-- R197: free frames for the granules `js` of the object of index i on a horizon, beside `extraTab` bytes more of
tables. -/
def roomFor (s : State) (hzn i : Nat) (js : List Nat) (extraTab : Nat) : Bool :=
  let n := js.length
  let ret (h : Nat) : Nat := (s.hz.retFrames.filter (fun e => e.1 == h)).length
  let tabs := ceilDiv (s.hz.objs.foldl (fun n o => n + 32 + 16 * o.gran.length) extraTab) 65536
  let crcs := ceilDiv (s.hz.objs.foldl (fun n o => n + 64 * (o.gran.filter (fun g => g.hzn == 3)).length)
    (if hzn = 3 then 64 * n else 0)) 65536
  let n1 := if hzn = 1 then n else 0
  let n2 := if hzn = 2 then n else 0
  s.hz.used1.length + ret 1 + tabs + n1 ≤ 50331648 &&
  (if hzn = 2 || hzn = 3 then s.hz.used2.length + ret 2 + crcs + n2 ≤ hz2Frames s else true) &&
  (if hzn = 3 then s.hz.drives != [] && s.hz.drives.all (fun d =>
      (s.hz.used3.filter (fun e => e.1 == d)).length + (js.filter (fun j => driveOf s i j == d)).length ≤ s.hz.driveGran)
   else true)

/-- A granule of an object on its target horizon: unit and location. -/
def allocOn (hzn i j : Nat) (host : Nat × Nat) (s : State) : Nat × Nat × State :=
  if hzn = 1 || hzn = 2 then (let a := allocFrame hzn s; (0, a.1, a.2))
  else if hzn = 3 then
    match allocDrive (driveOf s i j) s with
    | some (f, s) => (driveOf s i j, f, s)
    | none => (driveOf s i j, 0, s)
  else (host.1, host.2 / 65536, s)

def newGran (pin : Bool) (hzn unit loc : Nat) : Gran :=
  { promo := false, dirty := false, mig := false, pin := pin, pframe := 0, hzn := hzn, unit := unit, loc := loc,
    gen0 := true, gen1 := true, lru := 0 }

/-- OBJ_ALLOC. -/
def doObjAlloc (cid : Nat) (s : State) : State :=
  match ready s cid 0x20 with
  | none => s
  | some c =>
    let s := startCmd cid s
    let p := c.param
    let ctx := c.ctx.getD 0
    let size := u64 p 0
    let q := parsePlace p
    let n := size / 65536
    if size = 0 || size % 65536 ≠ 0 || 2 ^ 48 < size || placeBad s p size then finish0 cid stBAD_PARAM s
    else
      let hzn := resolveHzn s q.horizon
      let i := pickIndex s ctx
      if 1048576 ≤ s.hz.objs.length || !(roomFor s hzn i (List.range n) (32 + 16 * n)) then finish0 cid stNO_RESOURCE s
      else match findBase s ctx size with
        | none => finish0 cid stNO_RESOURCE s
        | some base =>
          let host := if hzn = 4 then hostGranules s q n else []
          let r := (List.range n).foldl (fun (a : List Gran × State) j =>
            let x := allocOn hzn i j (q.port, host.getD j 0) a.2
            (a.1 ++ [newGran q.pin hzn x.1 x.2.1], x.2.2)) ([], s)
          let o : Obj := { ctx := ctx, idx := i, base := base, size := size, spread := q.spread, home := q.home,
                           pin := q.pin, promote := q.promote, rdonly := q.rdonly, port := q.port,
                           promoMax := q.promoMax, rung1 := 0, rung2 := 0, fbMode := 0, gran := r.1 }
          let s := updHz (fun h => { h with objs := h.objs ++ [o], idxSeq := nmSet ctx i h.idxSeq }) r.2
          -- R197, R219: the LBAs of a new object are deallocated
          let s := if hzn = 3 then r.1.foldl (fun s g => nvmePut g.unit 3 (granLbas g.loc) [] s) s else s
          finish cid stOK (leBytes 4 (handleOf o).toNat ++ leBytes 8 base) s

/-! ## Freeing -/

/-- The object's homes, copies and copies in progress are freed, and the object is gone from the tables and from every
translation cache. -/
def dropObj (o : Obj) (s : State) : State :=
  let h := handleOf o
  let s := dropCopy h (fun _ => true) s
  let s := o.gran.foldl (fun s g => freeHome g (if g.promo then freeFrame 1 g.pframe s else s)) s
  let s := (s.hz.promos.filter (fun p => p.handle == h)).foldl (fun s p => freeFrame 1 p.frame s) s
  let s := (s.hz.migs.filter (fun m => m.handle == h)).foldl (fun s m =>
    m.left.foldl (fun s x => freeHome (newGran false m.hzn (if m.hzn = 3 then driveOf s o.idx x.granule else m.unit) x.frame) s) s) s
  updHz (fun z => { z with
    objs := z.objs.filter (fun x => !(x.ctx == o.ctx && x.idx == o.idx))
    promos := z.promos.filter (fun p => p.handle != h)
    evicting := z.evicting.filter (fun e => e.1 != h)
    xlat := z.xlat.map (fun e => (e.1, { e.2 with
      objs := e.2.objs.filter (fun x => x.1 != h), grans := e.2.grans.filter (fun x => x.1 != h) }))
    reqs := z.reqs.filter (fun q => !(q.handle == h && (match q.kind with | .entry _ => true | _ => false)))
    migs := z.migs.filter (fun m => m.handle != h) }) s

/-- OBJ_FREE. -/
def doObjFree (cid : Nat) (s : State) : State :=
  match ready s cid 0x21 with
  | none => s
  | some c =>
    let s := startCmd cid s
    let ctx := c.ctx.getD 0
    let h : W32 := BitVec.ofNat 32 (u32 c.param 0)
    if !(allZero (c.param.drop 4)) then finish0 cid stBAD_PARAM s
    else match ownObj s ctx h with
      | none => finish0 cid stNOT_PERMITTED s
      | some o =>
        if objHeld s ctx h || groupNames s ctx h then finish0 cid stBUSY s
        else finish0 cid stOK (dropObj o s)

/-! ## Moving (R211, R212) -/

/-- R267: open windows onto the object's range, with a right that `w` asks for. -/
def winOnRange (s : State) (h : W32) (off len : Nat) : Bool :=
  s.fab.wins.any (fun e => e.2.kind == 1 && e.2.target == h && e.2.off < off + len && off < e.2.off + e.2.size)

def winWrites (s : State) (h : W32) : Bool :=
  s.fab.wins.any (fun e => e.2.kind == 1 && e.2.target == h && bitAt e.2.rights 1)

/-- What a command changes about an object: target, attributes at the end. -/
structure MoveP where
  hzn : Nat
  spread : Nat
  home : Nat
  port : Nat
  setPin : Bool
  apply : Option (Nat × Bool × Bool × Bool × Nat)
  host : List Nat
  deriving DecidableEq, Repr

/-- R212: a migration takes its next granule, one at a time: MIG is set, and the copy is requested where the granule is
served now. DEDUCED (log 82). -/
def beginNext (h : W32) (cid : Option Nat) (s : State) : State :=
  match s.hz.migs.find? (fun m => m.handle == h && m.cid == cid), objOf s h with
  | some m, some o =>
    if m.left.any (fun x => x.begun && !x.copied) then s
    else match m.left.find? (fun x => !x.begun) with
      | none => s
      | some x =>
        let j := x.granule
        let s := updHz (fun z => { z with migs := updWhere (fun y => y.handle == h && y.cid == cid) (fun y => { y with
          left := updWhere (fun y => y.granule == j) (fun y => { y with begun := true }) y.left }) z.migs }) s
        let s := updObj h (fun o => { o with gran := o.gran.set j { granOf o j with mig := true } }) s
        copyUnits (.move j) false o j (locOf o (j * 65536)) s
  | _, _ => s

/-- R212: the granules `js`, of the command's range [first, fin), are to move. DEDUCED (log 82, 88). -/
def startMove (cid : Nat) (o : Obj) (first fin : Nat) (js : List Nat) (q : MoveP) (s : State) : State :=
  let r := js.foldl (fun (a : List MigG × State) j =>
    let x := allocOn q.hzn o.idx j (q.port, q.host.getD j 0) a.2
    (a.1 ++ [{ granule := j, frame := x.2.1, begun := false, copied := false, dirtied := false }], x.2.2)) ([], s)
  beginNext (handleOf o) (some cid) (updHz (fun h => { h with migs := h.migs ++
    [{ cid := some cid, handle := handleOf o, hzn := q.hzn, spread := q.spread, home := q.home, unit := q.port,
       first := first, fin := fin, setPin := q.setPin, apply := q.apply, left := r.1, moved := 0, recopies := 0 }] }) r.2)

/-- A migration that has no granule left completes its command (R211, R197). -/
def endMoves (s : State) : State :=
  (s.hz.migs.filter (fun m => m.left == [])).foldl (fun s m =>
    let s := match m.apply with
      | some (pm, pin, pr, ro, port) => updObj m.handle (fun o => { o with
          promoMax := pm, pin := pin, promote := pr, rdonly := ro, port := port, spread := m.spread, home := m.home
          gran := o.gran.map (fun g => { g with pin := pin }) }) s
      | none => s
    let s := updHz (fun h => { h with migs := h.migs.filter (fun x => !(x.left == [] && x.handle == m.handle)) }) s
    match m.cid with
    | some cid => finish cid stOK (if m.apply.isSome then [] else leBytes 8 m.moved ++ leBytes 8 m.recopies) s
    | none => s) s

/-- A copy is on its way back to its home. -/
def isEvicting (s : State) (h : W32) (j : Nat) : Bool := s.hz.evicting.any (fun e => e.1 == h && e.2 == j)

/-- R212: a granule whose copy is good takes its new home; the old one is freed. The copy holds what the granule held,
so a promoted copy is clean, and one of an HZ1 home is given up. -/
def switchGran (m : Mig) (x : MigG) (s : State) : State :=
  match objOf s m.handle with
  | none => s
  | some o =>
    let old := granOf o x.granule
    let unit := if m.hzn = 3 then driveOf s o.idx x.granule else if m.hzn = 4 then m.unit else 0
    let new : Gran := { old with mig := false, hzn := m.hzn, unit := unit, loc := x.frame, dirty := false
                                 pin := old.pin || m.setPin }
    let new : Gran := if m.hzn = 1 then { new with promo := false, pframe := 0 } else new
    let s := updObj m.handle (fun o => { o with gran := o.gran.set x.granule new }) s
    let s := if m.hzn = 1 && isEvicting s m.handle x.granule then dropCopy m.handle (fun w => w == .evict x.granule)
        (updHz (fun z => { z with evicting := z.evicting.filter (fun e => !(e.1 == m.handle && e.2 == x.granule)) }) s)
      else s
    freeHome old (if old.promo && m.hzn = 1 then freeFrame 1 old.pframe s else s)

/-- R212 at a segment boundary of the context: copies switch, or are made again where a write came in between. -/
def switchMoves (ctx : Nat) (s : State) : State :=
  let s := (s.hz.migs.filter (fun m => m.handle.toNat / 2 ^ 22 == ctx)).foldl (fun s m =>
    let good := m.left.filter (fun x => x.copied && !x.dirtied)
    let redo := m.left.filter (fun x => x.copied && x.dirtied)
    let s := good.foldl (fun s x => switchGran m x s) s
    let s := updHz (fun h => { h with migs := updWhere (fun y => y.handle == m.handle && y.cid == m.cid) (fun y => { y with
      left := (m.left.filter (fun x => !(x.copied && !x.dirtied))).map (fun x =>
        if x.copied then { x with begun := false, copied := false, dirtied := false } else x)
      moved := y.moved + good.length, recopies := y.recopies + redo.length }) h.migs }) s
    beginNext m.handle m.cid s) s
  endMoves s

/-- R223: a copy reaches host memory that cannot be reached. -/
def copyReach (o : Obj) (j : Nat) (l : Loc) (s : State) : State :=
  match hz4CauseAt s o l .ok with
  | some c => hz4Failure o (j * 65536) c s
  | none => s

/-- MIGRATION_COPY_DONE: the copy of one granule has been made, with the last of its requests answered; the next granule
is taken. -/
def doMigrationCopyDone (handle granule : Nat) (s : State) : State :=
  let h : W32 := BitVec.ofNat 32 handle
  match s.hz.migs.find? (fun m => m.handle == h && m.left.any (fun x => x.granule == granule && x.begun && !x.copied)),
      objOf s h with
  | some m, some o =>
    match m.left.find? (fun x => x.granule == granule && x.begun && !x.copied) with
    | none => s
    | some x =>
      if copyOpen s h (.move granule) false then s
      else
        let src := locOf o (granule * 65536)
        let dst := moveDest s m o x
        let s := copyReach o granule dst (copyReach o granule src s)
        let s := copyNow { o with spread := m.spread, home := m.home } (.move granule) granule src dst s
        let s := updHz (fun z => { z with migs := updWhere (fun y => y.handle == h && y.cid == m.cid) (fun y => { y with
          left := updWhere (fun y => y.granule == granule) (fun y => { y with copied := true }) y.left }) z.migs }) s
        let s := beginNext h m.cid s
        if (segOf s o.ctx).isNone then switchMoves o.ctx s else s
  | _, _ => s

/-- The move is refused (R52, R215, R267): it would take a granule out of HZ1 or into HZ3 or HZ4. -/
def moveBarred (s : State) (o : Obj) (hzn off len : Nat) : Bool :=
  let h := handleOf o
  (hzn != 1 && (isStream s o.ctx h || isRung s h)) || ((hzn == 3 || hzn == 4) && winOnRange s h off len)

/-- OBJ_PLACE. DEDUCED (log 80). -/
def doObjPlace (cid : Nat) (s : State) : State :=
  match ready s cid 0x22 with
  | none => s
  | some c =>
    let s := startCmd cid s
    let p := c.param
    let ctx := c.ctx.getD 0
    let h : W32 := BitVec.ofNat 32 (u32 p 0)
    let q := parsePlace p
    let size := match ownObj s ctx h with | some o => o.size | none => 0
    if u32 p 4 ≠ 0 || placeBad s p size then finish0 cid stBAD_PARAM s
    else match ownObj s ctx h with
      | none => finish0 cid stNOT_PERMITTED s
      | some o =>
        let hzn := resolveHzn s q.horizon
        let respread := hzn = 1 && (o.spread ≠ q.spread || o.home ≠ q.home)
        let js := (List.range o.gran.length).filter (fun j => (granOf o j).hzn ≠ hzn || respread)
        let gs := (List.range o.gran.length).filter (fun j => hzn == 4 && (granOf o j).hzn == 4)
        if !q.rdonly && (o.gran.any (fun g => g.hzn == 3) || s.hz.migs.any (fun m => m.handle == h && m.hzn == 3)) then finish0 cid stBAD_PARAM s
        else if (js ≠ [] && moveBarred s o hzn 0 o.size) || (isRung s h && !q.pin) ||
            (q.rdonly && !o.rdonly && winWrites s h) then finish0 cid stNOT_PERMITTED s
        else if js ≠ [] && s.hz.migs.any (fun m => m.handle == h) then finish0 cid stBUSY s
        else if !(roomFor s hzn o.idx js 0) then finish0 cid stNO_RESOURCE s
        else
          let attrs := (q.promoMax, q.pin, q.promote, q.rdonly, q.port)
          let host := if hzn = 4 then hostGranules s q o.gran.length else []
          -- R222: granules that stay in HZ4 take their place in the list at once
          let s := gs.foldl (fun s j => updObj h (fun o => { o with
            gran := o.gran.set j { granOf o j with unit := q.port, loc := host.getD j 0 / 65536 } }) s) s
          endMoves (startMove cid o 0 o.gran.length js
            { hzn := hzn, spread := q.spread, home := q.home, port := q.port, setPin := false, apply := some attrs,
              host := host } s)

/-- OBJ_MIGRATE. DEDUCED (log 80). -/
def doObjMigrate (cid : Nat) (s : State) : State :=
  match ready s cid 0x23 with
  | none => s
  | some c =>
    let s := startCmd cid s
    let p := c.param
    let ctx := c.ctx.getD 0
    let h : W32 := BitVec.ofNat 32 (u32 p 0)
    let off := u64 p 8
    let len := u64 p 16
    if u32 p 4 ≠ 0 || off % 65536 ≠ 0 || len = 0 || len % 65536 ≠ 0 || u8 p 24 = 0 || 5 < u8 p 24 || 1 < u8 p 25 ||
        !(allZero (p.drop 26)) then finish0 cid stBAD_PARAM s
    else match ownObj s ctx h with
      | none => finish0 cid stNOT_PERMITTED s
      | some o =>
        let hzn := resolveHzn s (u8 p 24)
        let js := ((List.range (len / 65536)).map (fun j => off / 65536 + j)).filter (fun j => (granOf o j).hzn ≠ hzn)
        if o.size < off + len || hznBad s (u8 p 24) o.rdonly o.port 0 then finish0 cid stBAD_PARAM s
        else if moveBarred s o hzn off len then finish0 cid stNOT_PERMITTED s
        else if s.hz.migs.any (fun m => m.handle == h && m.first < (off + len) / 65536 && off / 65536 < m.fin) then
          finish0 cid stBUSY s
        else if !(roomFor s hzn o.idx js 0) then finish0 cid stNO_RESOURCE s
        else endMoves (startMove cid o (off / 65536) ((off + len) / 65536) js
          { hzn := hzn, spread := o.spread, home := o.home, port := o.port, setPin := bitAt (u8 p 25) 0, apply := none,
            host := [] } s)

/-! ## Promotion (R213) -/

/-- PROMOTION_COPY_DONE: a demand promotion's copy has been made, with the last of its requests answered; it waits for
the boundary. -/
def doPromotionCopyDone (handle granule : Nat) (s : State) : State :=
  let h : W32 := BitVec.ofNat 32 handle
  match s.hz.promos.find? (fun p => p.handle == h && p.granule == granule && !p.copied), objOf s h with
  | some p, some o =>
    if copyOpen s h (.promo granule) false then s
    else
      let src := homeLoc o (granule * 65536)
      let s := copyNow o (.promo granule) granule src (.hz1 (p.frame * 65536)) (copyReach o granule src s)
      updHz (fun z => { z with
        promos := updWhere (fun x => x.handle == h && x.granule == granule) (fun x => { x with copied := true }) z.promos }) s
  | _, _ => s

/-- A copy becomes valid. DEDUCED (log 82). -/
def validatePromo (h : W32) (j frame : Nat) (s : State) : State :=
  updObj h (fun o => { o with
    gran := o.gran.set j { granOf o j with promo := true, dirty := false, pframe := frame, lru := s.clk.pcc.toNat } }) s

/-- The least recently used copy of the context's objects without PIN. DEDUCED (log 81). -/
def lruCopy (s : State) (ctx : Nat) : Option (W32 × Nat × Gran) :=
  (s.hz.objs.filter (fun o => o.ctx == ctx && !o.pin)).foldl (fun r o =>
    (List.zip o.gran (List.range o.gran.length)).foldl (fun r e =>
      if e.1.promo && !(isEvicting s (handleOf o) e.2) then (match r with
        | none => some (handleOf o, e.2, e.1)
        | some (_, _, g) => if e.1.lru < g.lru then some (handleOf o, e.2, e.1) else r) else r) r) none

/-- A copy is evicted; one that was written goes back to its home first, read and written in requests of its own (R206,
R214), and serves accesses until it is there. DEDUCED (log 81, 88). -/
def evictCopy (h : W32) (j : Nat) (s : State) : State :=
  match objOf s h with
  | none => s
  | some o =>
    let g := granOf o j
    if g.dirty then
      let s := updObj h (fun o => { o with gran := o.gran.set j { granOf o j with dirty := false } }) s
      copyUnits (.evict j) false o j (.hz1 (g.pframe * 65536)) (updHz (fun z => { z with evicting := z.evicting ++ [(h, j)] }) s)
    else
      freeFrame 1 g.pframe (updObj h (fun o => { o with
        gran := o.gran.set j { granOf o j with promo := false, dirty := false, pframe := 0 } }) s)

/-- R213: the least recently used copies are evicted until HZ1 has a free frame, or will have one. DEDUCED (log 81). -/
def evictFor (ctx : Nat) : Nat → State → State
  | 0, s => s
  | fuel + 1, s =>
    if 0 < freeFrames s 1 || s.hz.evicting != [] then s
    else match lruCopy s ctx with
      | some (h, j, _) => evictFor ctx fuel (evictCopy h j s)
      | none => s

/-- R213 at a segment boundary: good copies become valid, stale ones are discarded, and copies are evicted where HZ1
has no free frame. DEDUCED (log 81). -/
def settlePromos (ctx : Nat) (s : State) : State :=
  let mine (p : PromoC) : Bool := p.handle.toNat / 2 ^ 22 == ctx && p.copied
  let s := (s.hz.promos.filter mine).foldl (fun s p =>
    let full := match objOf s p.handle with
      | some o => o.promoMax ≤ (o.gran.filter (·.promo)).length || (granOf o p.granule).promo ||
          (granOf o p.granule).hzn == 1
      | none => true
    if p.dirtied || full then freeFrame 1 p.frame s else validatePromo p.handle p.granule p.frame s) s
  let s := updHz (fun z => { z with promos := z.promos.filter (fun p => !(mine p)) }) s
  evictFor ctx (s.hz.objs.foldl (fun n o => n + o.gran.length) 0) s

/-! ## Retired frames (R379) -/

/-- The granules of the context that lie in a frame to be retired move to fresh ones with their poison. -/
def retireFrames (ctx : Nat) (s : State) : State :=
  s.hz.toRetire.foldl (fun s e =>
    let (hzn, f, ch) := e
    let owner := s.hz.objs.findSome? (fun o =>
      if o.ctx = ctx then
        (List.zip o.gran (List.range o.gran.length)).findSome? (fun x =>
          if (x.1.hzn = hzn && x.1.loc = f) || (hzn = 1 && x.1.promo && x.1.pframe = f) then some (o, x.2, x.1) else none)
      else none)
    let table := s.sieves.find? (fun t => sieveCtx t == ctx && hzn == 1 && f ∈ t.hotFrames)
    let mk (a : Nat) : Loc := if hzn = 1 then .hz1 (a * 65536) else .hz2 (a * 65536)
    match (match owner with
      | some (o, j, g) => some (o, some (j, g))
      | none => (table.bind (fun t => objOf s t.handle)).map (fun o => (o, none))) with
    | none => s
    | some (o, what) =>
      let r0 := allocFrame hzn s
      let n := r0.1
      let s := r0.2
      let s := copyGranule o (match what with | some (j, _) => j | none => 0) (mk f) (mk n) s
      let s := match what with
        | some (j, g) =>
          let new : Gran := if g.hzn = hzn && g.loc = f then { g with loc := n } else { g with pframe := n }
          updObj (handleOf o) (fun o => { o with gran := o.gran.set j new }) s
        | none => { s with sieves := s.sieves.map (fun t => { t with
            hotFrames := t.hotFrames.map (fun x => if x = f then n else x) }) }
      let s := freeFrame hzn f s
      let s := updHz (fun z => { z with
        retFrames := addOnce (hzn, f) z.retFrames, toRetire := z.toRetire.filter (fun x => x != e) }) s
      let s := learnFrame hzn ch f s
      postRec 0x08 1 none (if hzn = 1 then ch else 56 + ch / 8) 0xFFFFFFFF
        [(0, 1, hzn), (1, 1, if hzn = 1 then 0 else ch % 8), (2, 1, if hzn = 1 then ch else ch / 8), (8, 8, f)] s) s

/-! ## OBJ_FALLBACK (R215, R225, R227) -/

/-- R215: a rung object: of the context, homed in HZ1, with PIN. -/
def rungBad (s : State) (ctx : Nat) (h : W32) : Bool :=
  h != 0 && (match ownObj s ctx h with
    | some o => !o.pin || o.gran.any (fun g => g.hzn != 1)
    | none => true)

def rungSize (s : State) (ctx : Nat) (h : W32) : Nat := match ownObj s ctx h with | some o => o.size | none => 0

/-- R227: a pool or log object: homed in `hs`, with PIN. -/
def tableObjBad (s : State) (ctx : Nat) (h : W32) (hs : List Nat) : Bool :=
  match ownObj s ctx h with
  | some o => !o.pin || o.gran.any (fun g => !(g.hzn ∈ hs))
  | none => true

/-- The 16 counters of a table at its declaration. -/
def sieveCtrs0 : List W64 := List.replicate 16 0

/-- R225, R227: the ROW declaration's own conditions. -/
def rowDeclBad (s : State) (ctx : Nat) (o : Obj) (p : List Byte) : Bool :=
  let dim := u16 p 16
  let fmt := bits (u8 p 18) 0 4
  let opt := bits (u8 p 18) 4 4
  let hot := bits (u8 p 19) 0 6
  let sr := bitAt (u8 p 19) 7
  let rs := u32 p 20
  let so := u48 p 24
  let ts := u16 p 30
  let pool : W32 := BitVec.ofNat 32 (u32 p 32)
  let dlog : W32 := BitVec.ofNat 32 (u32 p 36)
  let sh := u16 p 44
  let r1 : W32 := BitVec.ofNat 32 (u32 p 4)
  let r2 : W32 := BitVec.ofNat 32 (u32 p 8)
  let rowB := (dim * fmtW fmt + 7) / 8
  let n := so / max rs 1
  let fixed := match ctxOf s ctx with
    | some c => (match nmGet c.bank ts with | some e => e.policy == 0 | none => true)
    | none => false
  dim = 0 || 1024 < dim || !(fmt ∈ [0, 1, 2, 3, 4, 8]) || 2 < opt || 61 < hot || (sr && fmt ≠ 8) || rs % 32 ≠ 0 ||
    rs < rowB || 4096 < rs || rs = 0 || so % max rs 1 ≠ 0 || !fixed || u16 p 46 ≠ 0 || o.size < so + n * sstride opt dim ||
    (pool ≠ 0 && tableObjBad s ctx pool [1, 2]) || (isHz3 o && dlog = 0) || (!(isHz3 o) && dlog ≠ 0) ||
    (dlog ≠ 0 && tableObjBad s ctx dlog [2]) || (r1 ≠ 0 && (sh < 2 + (dim + 1) / 2 || rungSize s ctx r1 < n * sh)) ||
    (r1 = 0 && sh ≠ 0) || (r2 ≠ 0 && (rungSize s ctx r2 = 0 || rungSize s ctx r2 % max rs 1 ≠ 0))

/-- The lowest table index that is free. -/
def freeSieve (s : State) : Option Nat := (List.range 256).find? (fun i => !(s.sieves.any (fun t => t.idx == i)))

/-- A declaration ends: the frames and LBAs that its table holds are free again, and its copies are given up. -/
def dropTable (t : Sieve) (s : State) : State :=
  let s := dropCopy t.handle (fun w => match w with | .hotRow _ _ _ => true | .merge _ _ => true | _ => false) s
  let s := t.hotFrames.foldl (fun s f => freeFrame 1 f s) s
  let s := t.oldLbas.foldl (fun s x => freeDrive x.1 x.2 s) s
  let s := match objOf s t.handle with
    | some o =>
      let s := t.merging.foldl (fun s (m : Nat × Nat × Nat) => freeDrive (granOf o m.1).unit m.2.1 s) s
      (match t.merge with
        | some m => if 2 ≤ m.phase then freeDrive (granOf o m.granule).unit m.frame s else s
        | none => s)
    | none => s
  { s with sieves := s.sieves.filter (fun x => x.idx != t.idx) }

/-- OBJ_FALLBACK. DEDUCED (log 80). -/
def doObjFallback (cid : Nat) (s : State) : State :=
  match ready s cid 0x24 with
  | none => s
  | some c =>
    let s := startCmd cid s
    let p := c.param
    let ctx := c.ctx.getD 0
    let h : W32 := BitVec.ofNat 32 (u32 p 0)
    let r1 : W32 := BitVec.ofNat 32 (u32 p 4)
    let r2 : W32 := BitVec.ofNat 32 (u32 p 8)
    let mode := u8 p 12
    if 1 < mode || !(allZero (slice p 13 3)) || (mode = 0 && !(allZero (p.drop 16))) then finish0 cid stBAD_PARAM s
    else match ownObj s ctx h with
      | none => finish0 cid stNOT_PERMITTED s
      | some o =>
        let ladder (s : State) : State := updObj h (fun o => { o with rung1 := r1, rung2 := r2, fbMode := mode }) s
        if rungBad s ctx r1 || rungBad s ctx r2 then finish0 cid stBAD_PARAM s
        else if mode = 0 then
          if r1 ≠ 0 && rungSize s ctx r1 < o.size then finish0 cid stBAD_PARAM s
          else
            finish0 cid stOK (ladder ((s.sieves.filter (fun t => t.handle == h)).foldl (fun s t => dropTable t s) s))
        else if rowDeclBad s ctx o p then finish0 cid stBAD_PARAM s
        else
          let old := s.sieves.find? (fun t => t.handle == h)
          let n := bits (u8 p 19) 0 6 * 131072
          let freed := match old with | some t => t.hotFrames.length | none => 0
          let idx := match old with | some t => some t.idx | none => freeSieve s
          if (plansOf s ctx).any (planNames h) then finish0 cid stBUSY s
          else if freeFrames s 1 + freed < n then finish0 cid stNO_RESOURCE s
          else match idx with
            | none => finish0 cid stNO_RESOURCE s
            | some i =>
              let s := match old with | some t => dropTable t s | none => s
              let r0 := allocFrames n [] s
              let fs := r0.1
              let s := r0.2
              let t : Sieve :=
                { idx := i, handle := h, dim := u16 p 16, tfmt := bits (u8 p 18) 0 4, opt := bits (u8 p 18) 4 4,
                  hot := bits (u8 p 19) 0 6, repl := bitAt (u8 p 19) 6, sr := bitAt (u8 p 19) 7, rstride := u32 p 20,
                  stateOff := u48 p 24, tscale := u16 p 30, pool := BitVec.ofNat 32 (u32 p 32),
                  dlog := BitVec.ofNat 32 (u32 p 36), salt := BitVec.ofNat 32 (u32 p 40), shStride := u16 p 44,
                  hotRows := [], misses := [], marked := [], overflow := false, dropped := [], nextEnts := [],
                  applying := none, left := [], waits := [], dlSeq := 0, dlDone := [], merge := none, merging := [], oldLbas := [],
                  hotFrames := fs, ctrs := sieveCtrs0 }
              let s := { s with sieves := s.sieves ++ [t] }
              -- R239, R246: the pool and the log begin empty
              let s := if t.pool = 0 then s else poolEmpty t s
              let s := if t.dlog = 0 then s else (List.range (dlogSlots s t)).foldl (fun s k => dlogClear t k s) s
              finish cid stOK (leBytes 2 i) (ladder s)

/-! ## NVMe (R219-R221) -/

/-- R380: the LBAs of a Read that its completion finds bad: all of one that fails, and those whose CRC does not match. -/
def readBad (s : State) (n : NvmeCmd) (res : NvmeResult) : List Nat :=
  if n.op ≠ 0 then []
  else match res with
    | .error _ => n.lbas
    | .crcMismatch l => n.lbas.filter (fun b => b ∈ l || b ∈ badCrcs s n.drive n.lbas)
    | .ok => badCrcs s n.drive n.lbas

/-- A command of a drive ends: what a Read finds bad is poisoned, LBA by LBA (R380), its queue takes the oldest command that waits
(R219), and the requests that it serves are answered; those of bursts, cache lines and sieve rows end by rows of their
own. DEDUCED (log 81). -/
def nvmeEnds (n : NvmeCmd) (res : NvmeResult) (s : State) : State :=
  let s := updHz (fun h => { h with nvme := h.nvme.filter (fun x => x.id != n.id) }) s
  let bad := res != .ok && n.op ≠ 0
  let lost := readBad s n res
  let s := updHz (fun h => { h with pois3 := lost.foldl (fun l b => addOnce (n.drive, b) l) h.pois3 }) s
  let s := match n.queue, s.hz.nvme.find? (fun x => x.drive == n.drive && x.queue.isNone) with
    | some k, some x => updHz (fun h => { h with
        nvme := updWhere (fun y => y.id == x.id) (fun y => { y with queue := some k }) h.nvme }) s
    | _, _ => s
  let s := if n.op = 2 then mergeFlushed n.id s else s
  n.reqs.foldl (fun s r =>
    match s.hz.reqs.find? (fun q => q.id == r) with
    | none => s
    | some q =>
      let ans : HzAnswer := if bad then .poisoned else .ok
      match q.kind with
      | .row _ _ => if q.dead then respond q .ok s else s
      | .burst _ _ => s
      | .fill _ _ => s
      | .copy w wr _ => mergeStep w wr (respond q ans s)
      | _ => settle q.g (answerReq q ans s)) s

/-- PCIe keeps a BAR4 access behind the writes that came before it. -/
def aperBehind (s : State) (q : Req) : Bool :=
  match q.kind with
  | .aper _ _ _ => s.hz.reqs.any (fun x => x.die == q.die && x.id < q.id && (match x.kind with
      | .aper _ _ (some _) => true
      | _ => false))
  | _ => false

/-- HORIZON_RESPONSE (R204): a horizon answers a request that holds its tag, which gives the tag back. The requests of
bursts, cache lines and sieve rows end by rows of their own, with this answer. -/
def doHorizonResponse (req : Nat) (ans : HzAnswer) (s : State) : State :=
  let note (s : State) : State := updHz (fun h => { h with
    reqs := updWhere (fun y => y.id == req) (fun y => { y with ans := ans }) h.reqs }) s
  match s.hz.reqs.find? (fun q => q.id == req) with
  | none => s
  | some q =>
    if !(mayServe s q) || aperBehind s q then s
    else match q.kind with
      | .burst _ _ => note s
      | .fill _ _ => note s
      | .row _ _ => if q.dead then respond q ans s else note s
      | .window f x n => winServed q f x n ans (updHz (fun h => { h with reqs := h.reqs.filter (fun y => y.id != q.id) }) s)
      | _ => settle q.g (answerReq q ans s)

/-- NVME_COMPLETION: the T-die polls the completion of a command that it has given to a queue of the drive (R219). -/
def doNvmeCompletion (drive cmd : Nat) (res : NvmeResult) (s : State) : State :=
  match s.hz.nvme.find? (fun n => n.drive == drive && n.id == cmd && n.queue.isSome) with
  | none => s
  | some n => nvmeEnds n res s

/-- DRIVE_FAILED: reads of its granules return poison from now on. DEDUCED (log 81). -/
def doDriveFailed (drive : Nat) (cause : DriveCause) (status : W16) (s : State) : State :=
  if !(drive ∈ s.hz.drives) || drive ∈ s.hz.failedDrives then s
  else
    let s := updHz (fun h => { h with failedDrives := h.failedDrives ++ [drive] }) s
    let code := match cause with | .linkLoss => 0 | .fatalStatus => 1 | .timeout => 2
    let s := reportDegraded (postRec 0x10 2 none (56 + drive / 4) drive [(0, 1, code), (2, 2, status.toNat)] s)
    let mine := s.hz.nvme.filter (fun n => n.drive == drive)
    mine.foldl (fun s n => nvmeEnds n .ok s) s

/-- DDR5_CHANNEL_FAILED: the channel's data reads as poison (R218). -/
def doDdr5ChannelFailed (ch : Nat) (s : State) : State :=
  if !(ch ∈ s.hz.channels) || ch ∈ s.hz.failedCh then s
  else reportDegraded (updHz (fun h => { h with failedCh := h.failedCh ++ [ch] }) s)

/-! ## Calibration windows (R418) -/

/-- Open in the spec: DESIGN CHOICE (log 103). -/
def doCalibrationWindowStart (ch : Chan) (s : State) : State :=
  if windowOpen s.clk.pcc ch then updHz (fun h => { h with calib := addOnce ch h.calib }) s else s

/-- Open in the spec: DESIGN CHOICE (log 103). -/
def doCalibrationWindowEnd (ch : Chan) (s : State) : State :=
  if windowOpen s.clk.pcc ch then s else updHz (fun h => { h with calib := del ch h.calib }) s

def execObjAlloc (cid : Nat) (s : State) : Host.Outcome State Fault Refusal := .next (doObjAlloc cid s)
def execObjFree (cid : Nat) (s : State) : Host.Outcome State Fault Refusal := .next (doObjFree cid s)
def execObjPlace (cid : Nat) (s : State) : Host.Outcome State Fault Refusal := .next (doObjPlace cid s)
def execObjMigrate (cid : Nat) (s : State) : Host.Outcome State Fault Refusal := .next (doObjMigrate cid s)
def execObjFallback (cid : Nat) (s : State) : Host.Outcome State Fault Refusal := .next (doObjFallback cid s)
def execMigrationCopyDone (handle granule : Nat) (s : State) : Host.Outcome State Fault Refusal :=
  .next (doMigrationCopyDone handle granule s)
def execPromotionCopyDone (handle granule : Nat) (s : State) : Host.Outcome State Fault Refusal :=
  .next (doPromotionCopyDone handle granule s)
def execNvmeCompletion (drive cmd : Nat) (res : NvmeResult) (s : State) : Host.Outcome State Fault Refusal :=
  .next (doNvmeCompletion drive cmd res s)
def execDriveFailed (drive : Nat) (cause : DriveCause) (status : W16) (s : State) : Host.Outcome State Fault Refusal :=
  .next (doDriveFailed drive cause status s)
def execDdr5ChannelFailed (ch : Nat) (s : State) : Host.Outcome State Fault Refusal := .next (doDdr5ChannelFailed ch s)
def execHorizonResponse (req : Nat) (ans : HzAnswer) (s : State) : Host.Outcome State Fault Refusal :=
  .next (doHorizonResponse req ans s)
def execCalibrationWindowStart (ch : Chan) (s : State) : Host.Outcome State Fault Refusal :=
  .next (doCalibrationWindowStart ch s)
def execCalibrationWindowEnd (ch : Chan) (s : State) : Host.Outcome State Fault Refusal :=
  .next (doCalibrationWindowEnd ch s)

end Sys2Proof.Machine
end

