-- ==== Sys2Proof/Machine/Reduction.lean ====
section
/-! DEFINITION. Groups, buckets and the reduction engine (R274-R292): contributions and results, the order in which
partial sums are formed, reduction flits, failure, digests, and what a drain holds (R345). -/

namespace Sys2Proof.Machine

open Sys2Proof

/-! ## Groups and buckets (R274-R277) -/

def groupDigest (nmem : Nat) (shape : List Nat) (ids : List Nat) : W64 :=
  crc64 (leBytes 2 nmem ++ shape.map (fun x => BitVec.ofNat 8 x) ++ ids.flatMap (leBytes 2))

def distinct : List Nat → Bool
  | [] => true
  | x :: r => !(x ∈ r) && distinct r

def tagBusy (s : State) (tag : Nat) : Bool := s.fab.insts.any (fun i => i.tag == tag && !i.done)

def groupBusy (s : State) (g : Nat) : Bool := s.fab.buckets.any (fun e => e.2.group == g && tagBusy s e.1)

/-- GROUP_SET. -/
def doGroupSet (cid : Nat) (s : State) : State :=
  match ready s cid 0x42 with
  | none => s
  | some c =>
    let s := startCmd cid s
    let p := c.param
    let ctx := c.ctx.getD 0
    let n := u16 p 2
    let g := u16 p 0
    let shape := [u8 p 20, u8 p 21, u8 p 22, u8 p 23]
    let noBox := shape.all (· == 0)
    let h : W32 := BitVec.ofNat 32 (u32 p 8)
    let off := u64 p 12
    if 1023 < g || n = 0 || 16384 < n || n ≤ u16 p 4 || u16 p 6 ≠ 0 || off % 2 ≠ 0 || !(allZero (p.drop 24)) ||
        (!noBox && (shape.any (fun x => x == 0 || 16 < x) || shape.foldl (· * ·) 1 ≠ n)) then finish0 cid stBAD_PARAM s
    else match ownObj s ctx h with
      | none => finish0 cid stNOT_PERMITTED s
      | some o =>
        let ids := (List.range n).map (fun i => leNat (objRead s o (off + 2 * i) 2))
        if (match nmGet s.fab.groups g with | some x => x.ctx != ctx | none => false) then finish0 cid stNOT_PERMITTED s
        else if o.size < off + 2 * n || ids.getD (u16 p 4) 0 ≠ pkgId s || !(distinct ids) ||
            ids.any (fun x => !(idInTorus s.fab.torus x)) then finish0 cid stBAD_PARAM s
        else if groupBusy s g then finish0 cid stBUSY s
        else
          let x : Group := { ctx := ctx, rank := u16 p 4, members := ids, shape := if noBox then [] else shape,
                             digest := groupDigest n shape ids, listObj := h }
          finish0 cid stOK (updFab (fun b => { b with groups := nmSet g x b.groups }) s)

def bOper (b : Bucket) : Nat := bits b.mode.toNat 0 2
def bAlg (b : Bucket) : Nat := bits b.mode.toNat 2 2
def bFixed (b : Bucket) : Bool := bitAt b.mode.toNat 4
def bNanFail (b : Bucket) : Bool := bitAt b.mode.toNat 5

/-- BUCKET_POLICY. -/
def doBucketPolicy (cid : Nat) (s : State) : State :=
  match ready s cid 0x43 with
  | none => s
  | some c =>
    let s := startCmd cid s
    let p := c.param
    let ctx := c.ctx.getD 0
    let tag := u16 p 0
    let g := u16 p 2
    let mode := u8 p 4
    let wf := u8 p 5
    let ent := match ctxOf s ctx with | some x => scaleEntOf x.bank (u16 p 14) | none => scaleDefault
    if bits mode 0 2 = 3 || bits mode 2 2 = 3 || 64 ≤ mode || !(wf ∈ [0, 1, 10]) || u16 p 6 = 0 || 256 < u16 p 6 ||
        u32 p 8 = 0 || 2 ^ 28 < u32 p 8 || u16 p 12 = 0 || 4096 < u16 p 12 || (wf ≠ 10 && u16 p 14 ≠ 0) ||
        u32 p 16 = 0 || !(allZero (p.drop 20)) || 1023 < g || (nmGet s.fab.groups g).isNone then finish0 cid stBAD_PARAM s
    else if (match nmGet s.fab.groups g with | some x => x.ctx != ctx | none => false) ||
        (match nmGet s.fab.buckets tag with | some x => x.ctx != ctx | none => false) then finish0 cid stNOT_PERMITTED s
    else if (bits mode 2 2 = 2 && (match nmGet s.fab.groups g with | some x => x.shape == [] | none => true)) ||
        (wf = 10 && (ent.policy ≠ 1 || ent.cfmt ≠ 10)) then finish0 cid stBAD_PARAM s
    else if tagBusy s tag then finish0 cid stBUSY s
    else
      let b : Bucket := { ctx := ctx, group := g, mode := BitVec.ofNat 8 mode, wfmt := wf, flits := u16 p 6,
                          elems := u32 p 8, local_ := u16 p 12, scale := u16 p 14, timeout := u32 p 16,
                          bytes := slice p 2 18 }
      finish0 cid stOK (updFab (fun f => { f with
        buckets := nmSet tag b f.buckets, insts := f.insts.filter (fun i => i.tag != tag)
        goneTags := f.goneTags.filter (fun e => e.1 != tag) }) s)

def bucketOf (s : State) (ctx tag : Nat) : Option Bucket :=
  match nmGet s.fab.buckets tag with
  | some b => if b.ctx = ctx then some b else none
  | none => none

def groupBlank : Group := { ctx := 0, rank := 0, members := [], shape := [], digest := 0, listObj := 0 }

def groupOf (s : State) (b : Bucket) : Group := nmGetD s.fab.groups b.group groupBlank

/-- R276: the policy digest. -/
def policyDigest (s : State) (b : Bucket) : W64 := crc64 (b.bytes ++ leBytes 8 (groupOf s b).digest.toNat)

def perFlit (wf : Nat) : Nat := if wf = 0 then 56 else if wf = 1 then 112 else 192
def chunkLen (b : Bucket) : Nat := b.flits * perFlit b.wfmt
def nChunks (b : Bucket) : Nat := ceilDiv b.elems (chunkLen b)
/-- Elements of chunk k; the last one may be short. -/
def lenOf (b : Bucket) (k : Nat) : Nat := min (chunkLen b) (b.elems - k * chunkLen b)

/-- The coordinates of a rank in its group's box. -/
def boxCoords (shape : List Nat) (r : Nat) : List Nat :=
  (shape.foldl (fun (a : List Nat × Nat) x => (a.1 ++ [a.2 % max x 1], a.2 / max x 1)) ([], r)).1

def boxRank (shape coords : List Nat) : Nat :=
  (List.zip shape coords).foldr (fun e a => e.2 + e.1 * a) 0

/-- R277: the rank that owns chunk k. DEDUCED (log 96). -/
def ownerRank (g : Group) (b : Bucket) (k : Nat) : Nat :=
  if bAlg b = 1 then 0
  else if bAlg b = 2 then boxRank g.shape (boxCoords g.shape k)
  else k % max g.members.length 1

/-! ## Who sends to whom (R282) -/

/-- On a ring of n, where position p sends its partial on its way to o: the position, and 0 for +, 1 for −. -/
def ringUp (n o p : Nat) (fixed : Bool) : Option (Nat × Nat) :=
  if p = o then none
  else
    let d := (o + n - p) % max n 1
    if fixed || d ≤ (n - 1 + 1) / 2 then some ((p + 1) % max n 1, 0) else some ((p + n - 1) % max n 1, 1)

/-- Positions whose partials reach p, each with the slot it has here: 1 the previous one, 0 the next one. -/
def ringDown (n o p : Nat) (fixed : Bool) : List (Nat × Nat) :=
  let q := (p + n - 1) % max n 1
  let r := (p + 1) % max n 1
  (if ringUp n o q fixed == some (p, 0) then [(q, 1)] else []) ++
  (if ringUp n o r fixed == some (p, 1) then [(r, 0)] else [])

def withAt (l : List Nat) (d x : Nat) : List Nat := l.set d x

/-- Where this rank sends its partial of chunk k: rank and slot; none at the owner. -/
def upOf (g : Group) (b : Bucket) (k r : Nat) : Option (Nat × Nat) :=
  let n := g.members.length
  if bAlg b = 0 then (ringUp n (ownerRank g b k) r (bFixed b)).map (fun e => (e.1, e.2))
  else if bAlg b = 1 then (if r = 0 then none else some ((r - 1) / 2, 0))
  else
    let v := boxCoords g.shape r
    let x := boxCoords g.shape (ownerRank g b k)
    (List.range 4).findSome? (fun d =>
      if v.getD d 0 = x.getD d 0 then none
      else (ringUp (g.shape.getD d 1) (x.getD d 0) (v.getD d 0) (bFixed b)).map (fun e =>
        (boxRank g.shape (withAt v d e.1), 2 * d + e.2)))

/-- Whose partials of chunk k reach this rank, in the groups in which they are added: rank and slot. -/
def downOf (g : Group) (b : Bucket) (k r : Nat) : List (List (Nat × Nat)) :=
  let n := g.members.length
  if bAlg b = 0 then [ringDown n (ownerRank g b k) r (bFixed b)]
  else if bAlg b = 1 then [((if 2 * r + 1 < n then [(2 * r + 1, 1)] else []) ++ (if 2 * r + 2 < n then [(2 * r + 2, 2)] else []))]
  else
    let v := boxCoords g.shape r
    let x := boxCoords g.shape (ownerRank g b k)
    (List.range 4).map (fun d =>
      if (List.range d).all (fun i => v.getD i 0 == x.getD i 0) then
        (ringDown (g.shape.getD d 1) (x.getD d 0) (v.getD d 0) (bFixed b)).map (fun e =>
          (boxRank g.shape (withAt v d e.1), 2 * d + e.2))
      else [])

/-- The neighbour slots in use, each with its package (R290, R291). -/
def slotsUsed (g : Group) (b : Bucket) : List (Nat × Nat) :=
  let n := g.members.length
  let r := g.rank
  let pk (x : Nat) : Nat := g.members.getD x 0
  if bAlg b = 0 then [(0, pk ((r + 1) % max n 1)), (1, pk ((r + n - 1) % max n 1))]
  else if bAlg b = 1 then
    (if r = 0 then [] else [(0, pk ((r - 1) / 2))]) ++ (if 2 * r + 1 < n then [(1, pk (2 * r + 1))] else []) ++
      (if 2 * r + 2 < n then [(2, pk (2 * r + 2))] else [])
  else
    let v := boxCoords g.shape r
    (List.range 4).flatMap (fun d =>
      let m := g.shape.getD d 1
      if m ≤ 1 then []
      else [(2 * d, pk (boxRank g.shape (withAt v d ((v.getD d 0 + 1) % m)))),
            (2 * d + 1, pk (boxRank g.shape (withAt v d ((v.getD d 0 + m - 1) % m))))])

/-! ## Elements (R281, R286, R287) -/

/-- One addition in FP32, and whether it was ∞ − ∞. DEDUCED (log 97). -/
def redAdd (a b : W32) : W32 × Bool :=
  let r := fadd (0, 0, 0) (f32 a) (f32 b) Counts.none
  (w32 (rne32 false r.1 Counts.none).1, r.2.invalid != 0)

def addVecs (a b : List W32) : List W32 × Nat :=
  (List.zip a b).foldl (fun (r : List W32 × Nat) e => let y := redAdd e.1 e.2; (r.1 ++ [y.1], r.2 + b2n y.2)) ([], 0)

/-- The largest magnitude among values that are numbers. -/
def amaxOf (m : W32) (l : List W32) : W32 :=
  l.foldl (fun m x => if f32 x == .nan then m
    else let a := x &&& 0x7FFFFFFF; if m.toNat < a.toNat then a else m) m

def blocks : Nat → List W32 → List (List W32)
  | 0, _ => []
  | n + 1, l => if l == [] then [] else l.take 32 :: blocks n (l.drop 32)

/-- R287: some value does not fit a block on the wire. DEDUCED (log 96). -/
def mustPromote (sc : FVal) (l : List W32) : Bool :=
  l.any (fun x => match descale (f32 x) sc with | .nan => false | .inf _ => true | .num _ q => 448 < q)

/-- R277: the L-die that serves a chunk. -/
def chunkLdie (k : Nat) : Nat := k % 8

/-- What encoding a chunk's data flits counts. -/
def wireCounts (ftz : Bool) (b : Bucket) (sc : FVal) (promo : Bool) (l : List W32) : Counts :=
  if promo then l.foldl (fun c x => (convert false 1 (descale (f32 x) sc) c).2) Counts.none
  else if b.wfmt = 0 then Counts.none
  else if b.wfmt = 1 then l.foldl (fun c x => (convert false 1 (f32 x) c).2) Counts.none
  else (blocks l.length l).foldl (fun c u =>
    (bs8Encode ftz sc ((u ++ List.replicate (32 - u.length) 0).map f32) c (StatFig.zero 0)).2.1) Counts.none

/-- R136: flushes of BS8 blocks of chunk k count in the reducer statistics: the model keeps one FLUSH total for each L-die,
that of the chunk, since chapter 09 gives the statistics no layout. DESIGN CHOICE (log 118). -/
def flushAt (k n : Nat) (s : State) : State :=
  if n = 0 then s else updFab (fun f => { f with redFlush := nmUpdD (chunkLdie k) 0 (· + n) f.redFlush }) s

/-- R115, R136: what encoding a chunk flushes: in the reducer statistics where the wire format is BS8, and in the sticky
bits. -/
def noteFlush (ftz : Bool) (b : Bucket) (sc : FVal) (promo : Bool) (k : Nat) (l : List W32) (s : State) : State :=
  let c := wireCounts ftz b sc promo l
  noteStk b.ctx c (if promo || b.wfmt ≠ 10 then s else flushAt k c.flush s)

/-- The payloads of a chunk's data flits. The mode of R114 applies to the elements of BS8 blocks alone. -/
def wireOf (ftz : Bool) (b : Bucket) (sc : FVal) (promo : Bool) (l : List W32) : List (List Byte) :=
  let bytes : List Byte :=
    if promo then l.flatMap (fun x => leBytes 2 (pack 1 (convert false 1 (descale (f32 x) sc) Counts.none).1))
    else if b.wfmt = 0 then l.flatMap (fun x => leBytes 4 x.toNat)
    else if b.wfmt = 1 then l.flatMap (fun x => leBytes 2 (pack 1 (convert false 1 (f32 x) Counts.none).1))
    else (blocks l.length l).flatMap (fun u =>
      (bs8Encode ftz sc ((u ++ List.replicate (32 - u.length) 0).map f32) Counts.none (StatFig.zero 0)).1)
  let room := if promo || b.wfmt ≠ 10 then 224 else 198
  (List.range (ceilDiv bytes.length room)).map (fun i => pad 224 (slice bytes (room * i) room))

/-- R116, R135: element j of a block as the reduction engine reads it. -/
def redElem (ftz : Bool) (blk : List Byte) (j : Nat) (sc : FVal) (c : Counts) : FVal × Counts :=
  let e := bs8Elem ftz blk j c
  match e.1 with
  | .num n q => let m := fmul (0, 0, 0) (.num n q) sc e.2; rne32 false m.1 m.2
  | x => (x, e.2)

/-- The elements of a contribution, each with its poison (R278). -/
def postVals (ftz : Bool) (byteAt : Nat → Byte × Bool) (v : View) (k : Nat) (sc : FVal) : List (FVal × Bool) × Counts :=
  if v.fmt = 10 then
    (List.range (nelem v)).foldl (fun (a : List (FVal × Bool) × Counts) n =>
      let b := linBit v k n
      let blk := blockAt byteAt (b / 8)
      let r := redElem ftz blk.1 (b / 8 % 32) sc a.2
      (a.1 ++ [(r.1, blk.2)], r.2)) ([], Counts.none)
  else viewVals false byteAt v k sc Counts.none

/-- The elements that payloads carry. -/
def unwire (ftz : Bool) (b : Bucket) (sc : FVal) (promo : Bool) (n : Nat) (fs : List (List Byte)) : List W32 × Counts :=
  let room := if promo || b.wfmt ≠ 10 then 224 else 198
  let bytes := fs.flatMap (fun f => f.take room)
  (List.range n).foldl (fun (a : List W32 × Counts) i =>
    if promo then let r := dequant false 1 (leNat (slice bytes (2 * i) 2)) sc a.2; (a.1 ++ [w32 r.1], r.2)
    else if b.wfmt = 0 then (a.1 ++ [BitVec.ofNat 32 (leNat (slice bytes (4 * i) 4))], a.2)
    else if b.wfmt = 1 then (a.1 ++ [w32 (decodeF 1 (leNat (slice bytes (2 * i) 2)))], a.2)
    else let r := redElem ftz (slice bytes (33 * (i / 32)) 33) (i % 32) sc a.2; (a.1 ++ [w32 r.1], r.2))
    ([], Counts.none)

/-- R290: the chunk CRC. -/
def chunkCrc (tag step k phase : Nat) (fs : List (List Byte)) : W64 :=
  crc64 (leBytes 2 tag ++ leBytes 2 step ++ leBytes 3 k ++ leBytes 1 phase ++ fs.flatten)

/-! ## Instances -/

def chunkBlank : Chunk :=
  { posts := [], contrib := none, parts := [], sentUp := false, promoted := false, result := none, crc := 0, rx := [],
    nancnt := 0, invcnt := 0, nanelem := none, nanrank := 0, amax := 0 }

def instOf (s : State) (tag : Nat) : Option Inst := s.fab.insts.find? (fun i => i.tag == tag)

def updInst (tag : Nat) (f : Inst → Inst) (s : State) : State :=
  updFab (fun b => { b with insts := updWhere (fun i => i.tag == tag) f b.insts }) s

def chunkOf (i : Inst) (k : Nat) : Chunk := nmGetD i.chunks k chunkBlank

def updChunk (tag k : Nat) (f : Chunk → Chunk) (s : State) : State :=
  updInst tag (fun i => { i with chunks := nmUpdD k chunkBlank f i.chunks }) s

def stepOf (s : State) (ctx : Nat) : W64 := match ctxOf s ctx with | some c => c.step | none => 0

def newInst (tag : Nat) (step : W64) : Inst :=
  { tag := tag, step := step, done := false, status := stOK, firstPost := none, chunks := [], delivered := [],
    sentX := [], recvX := [], promoted := 0, nancnt := 0, invcnt := 0, nanelem := none, nanrank := 0, amax := 0, rest := none }

/-- An instance begins: the credits that its early flits held go back (R280). -/
def startInst (tag : Nat) (step : W64) (s : State) : State :=
  updFab (fun b => { b with insts := b.insts.filter (fun i => i.tag != tag) ++ [newInst tag step] })
    (freeOwed (· == tag) s)

/-- The lowest element index, ties to the lowest rank (R284). -/
def firstNan (a : Option Nat) (ra : Nat) (b : Option Nat) (rb : Nat) : Option Nat × Nat :=
  match a, b with
  | none, _ => (b, rb)
  | _, none => (a, ra)
  | some x, some y => if y < x || (y = x && rb < ra) then (b, rb) else (a, ra)

/-- Read from the spec by inference: DEDUCED (log 97). -/
def mergeCounts (nan inv : Nat) (el : Option Nat) (rk : Nat) (am : W32) (c : Chunk) : Chunk :=
  let f := firstNan c.nanelem c.nanrank el rk
  { c with nancnt := c.nancnt + nan, invcnt := c.invcnt + inv, nanelem := f.1, nanrank := f.2
           amax := if c.amax.toNat < am.toNat then am else c.amax }

/-! ## Sending a chunk (R284, R290) -/

/-- A chunk's data flits and its end go to a neighbour. -/
def sendChunk (b : Bucket) (tag k phase dst slot : Nat) (promo : Bool) (fs : List (List Byte)) (c : Chunk) (s : State) :
    State :=
  match instOf s tag with
  | none => s
  | some i =>
    let step := i.step.toNat % 65536
    let hdr (op idx : Nat) : List Byte :=
      leBytes 1 op ++ leBytes 1 0 ++ leBytes 2 dst ++ leBytes 2 (pkgId s) ++ leBytes 2 tag ++ leBytes 2 step ++
        leBytes 4 (k + idx * 2 ^ 24) ++ leBytes 1 (phase + 2 * b2n promo) ++ leBytes 1 (if promo then 1 else b.wfmt) ++ zeros 4
    let crc := chunkCrc tag step k phase fs
    let fin : List Byte := leBytes 8 crc.toNat ++ leBytes 4 c.nancnt ++ leBytes 4 c.invcnt ++
      leBytes 4 (c.nanelem.getD 0xFFFFFFFF) ++ leBytes 2 c.nanrank ++ leBytes 2 0 ++ leBytes 4 c.amax.toNat ++
      leBytes 4 ((policyDigest s b).toNat % 2 ^ 32)
    let put (f : List Byte) (s : State) : State := routeFlit (keysel f) f s
    let s := (List.zip fs (List.range fs.length)).foldl (fun s e => put (dataFlit 0 0 (hdr 8 e.2) e.1) s) s
    let s := put (dataFlit 0 0 (hdr 9 0) fin) s
    updInst tag (fun i => { i with sentX := nmUpdD slot 0 (fun x => x ^^^ crc) i.sentX }) s

/-! ## Results, waits, failure -/

/-- Chunks that this package delivers: its own alone under REDUCE_SCATTER. -/
def dueChunks (g : Group) (b : Bucket) : List Nat :=
  (List.range (nChunks b)).filter (fun k => bOper b != 1 || ownerRank g b k == g.rank)

/-- R291: the digest record of an instance that ends. DEDUCED (log 96). -/
def digestRecord (s : State) (b : Bucket) (i : Inst) : List Byte :=
  let g := groupOf s b
  let sl := slotsUsed g b
  let deliv := i.delivered.foldl (fun (x : W64) k => x ^^^ (chunkOf i k).crc) 0
  let base := leBytes 2 i.tag ++ leBytes 2 b.group ++ leBytes 4 i.step.toNat ++ leBytes 2 i.status.toNat ++
    leBytes 1 (max 1 sl.length) ++ leBytes 1 b.mode.toNat ++ leBytes 4 i.delivered.length ++ leBytes 8 deliv.toNat ++
    zeros 8 ++
    (List.range 8).flatMap (fun n => leBytes 8 (nmGetD i.sentX n 0).toNat ++ leBytes 8 (nmGetD i.recvX n 0).toNat)
  pad 192 (base ++ (List.range 8).flatMap (fun n =>
    leBytes 2 (match sl.find? (fun e => e.1 == n) with | some e => e.2 | none => 0)))

/-- R279, R287: what this package's own partial sums of chunks that others own carried to them: the owners' totals are at
least these. -/
def sentTot (i : Inst) (others : List Nat) : RestTot :=
  others.foldl (fun r k =>
    let c := chunkOf i k
    let f := firstNan r.elem r.pkg c.nanelem c.nanrank
    { nan := r.nan + c.nancnt, inv := r.inv + c.invcnt, elem := f.1, pkg := f.2, promoted := r.promoted + b2n c.promoted
      amax := r.amax }) { nan := 0, inv := 0, elem := none, pkg := 0, promoted := 0, amax := 0 }

/-- R279: the totals of the bucket that this package cannot know: of the chunks that other ranks own under
REDUCE_SCATTER, whose sums stop at their owners (R282). Beyond what its own partial sums carried they are free values,
taken once. DESIGN CHOICE (log 97). -/
def drawRest (tag : Nat) (s : State) : State :=
  match instOf s tag, nmGet s.fab.buckets tag with
  | some i, some b =>
    if i.rest.isSome || bOper b ≠ 1 || (dueChunks (groupOf s b) b).length = nChunks b then s
    else
      let n := freeBits 32 s
      let v := freeBits 32 n.2
      let e := freeBits 32 v.2
      let p := freeBits 14 e.2
      let q := freeBits 32 p.2
      let a := freeBits 32 q.2
      let some_ := freeBool a.2
      let g := groupOf s b
      let own := sentTot i ((List.range (nChunks b)).filter (fun k => !(k ∈ dueChunks g b)))
      let el := firstNan own.elem (g.members.getD own.pkg 0) (if some_.1 then some e.1.toNat else none) p.1.toNat
      let r : RestTot :=
        { nan := own.nan + n.1.toNat, inv := own.inv + v.1.toNat, elem := el.1, pkg := el.2
          promoted := own.promoted + q.1.toNat, amax := a.1 &&& 0x7FFFFFFF }
      updInst tag (fun i => { i with rest := some r }) some_.2
  | _, _ => s

def wMax (a b : W32) : W32 := if a.toNat < b.toNat then b else a

/-- R279: AMAX over the bucket, of every partial sum that this package has seen. -/
def amaxAll (i : Inst) : W32 :=
  i.chunks.foldl (fun m e => wMax m e.2.amax) (match i.rest with | some r => wMax i.amax r.amax | none => i.amax)

/-- R288: a bucket's scale-bank entry takes the agreed AMAX, a finite one. DEDUCED (log 97). -/
def raiseAmax (b : Bucket) (m : W32) (k : NatMap ScaleEnt) : NatMap ScaleEnt :=
  if b.wfmt ≠ 10 || m.toNat = 0 || 0x7F800000 ≤ m.toNat then k
  else nmUpdD b.scale scaleDefault (fun e => { e with amaxCur := wMax e.amaxCur m }) k

/-- An instance ends: its digests are recorded, its amax is raised (R288), and the step's DELIV takes it in.
DEDUCED (log 97). -/
def endInst (tag : Nat) (s : State) : State :=
  let s := drawRest tag s
  match instOf s tag, nmGet s.fab.buckets tag with
  | some i, some b =>
    if i.done then s
    else
      let rec_ := digestRecord s b i
      let deliv := i.delivered.foldl (fun (x : W64) k => x ^^^ (chunkOf i k).crc) 0
      let s := updInst tag (fun i => { i with done := true }) s
      let s := updFab (fun f => { f with
        digests := (if f.digests.length < 16384 then f.digests else f.digests.drop 1) ++ [(b.ctx, rec_)] }) s
      updCtx b.ctx (fun c =>
        let inGroup := match c.sec.pol with | some p => p.sgroup == b.group && bAlg b != 1 | none => false
        { c with
          bank := if i.status = stOK then raiseAmax b (amaxAll i) c.bank else c.bank
          sec := { c.sec with
            siltDone := addOnce tag c.sec.siltDone
            cur := { c.sec.cur with delivx := c.sec.cur.delivx ^^^ deliv }
            sentX := if inGroup then c.sec.sentX ^^^ nmGetD i.sentX 0 0 else c.sec.sentX
            recvX := if inGroup then c.sec.recvX ^^^ nmGetD i.recvX 1 0 else c.sec.recvX } }) s
  | _, _ => s

/-- The chunks that a RED_WAIT's view covers. -/
def waitChunks (b : Bucket) (elem0 n : Nat) : List Nat :=
  if n = 0 then [] else (List.range (nChunks b)).filter (fun k =>
    k * chunkLen b < elem0 + n && elem0 < (k + 1) * chunkLen b)

/-- The completion record of R279. DEDUCED (log 97). -/
def waitRecord (s : State) (b : Bucket) (i : Inst) : List Byte :=
  let r := i.rest.getD { nan := 0, inv := 0, elem := none, pkg := 0, promoted := 0, amax := 0 }
  let mine : Bool := match i.nanelem, r.elem with
    | some x, some y => decide (x ≤ y)
    | some _, none => true
    | none, _ => false
  let elem := if mine then i.nanelem else r.elem
  let pkg := if elem.isNone then 0 else if mine then (groupOf s b).members.getD i.nanrank 0 else r.pkg
  leBytes 2 i.tag ++ leBytes 2 i.status.toNat ++ leBytes 4 i.step.toNat ++ leBytes 4 (i.nancnt + r.nan) ++
    leBytes 4 (i.invcnt + r.inv) ++ leBytes 4 (elem.getD 0xFFFFFFFF) ++ leBytes 2 pkg ++ leBytes 2 0 ++
    leBytes 4 (i.promoted + r.promoted) ++ leBytes 4 (amaxAll i).toNat

/-- R280, R282: nothing of the instance is left to do here: its results are delivered, and of the chunks that others own
under REDUCE_SCATTER this package's partial sums have gone on. DEDUCED (log 97). -/
def instOver (s : State) (b : Bucket) (i : Inst) : Bool :=
  (dueChunks (groupOf s b) b).all (fun k => k ∈ i.delivered) &&
    (bOper b != 1 || (List.range (nChunks b)).all (fun k => (chunkOf i k).sentUp))

def endIfOver (tag : Nat) (s : State) : State :=
  match instOf s tag, nmGet s.fab.buckets tag with
  | some i, some b => if !i.done && instOver s b i then endInst tag s else s
  | _, _ => s

/-- A RED_WAIT is served where every element is there, or where the instance has failed (R279, R285); one with a
completion record once every result that is to come here has come, since the record holds the bucket's totals.
DEDUCED (log 97). -/
def serveWait (g : Nat) (o : OutD) (s : State) : State :=
  match issOf s g o with
  | none => s
  | some x =>
    let tag := u16 o.desc 10
    match instOf s tag, bucketOf s x.ctx tag with
    | some i, some b =>
      let n := nelem x.vc
      let e0 := u32 o.desc 12
      let ks := waitChunks b e0 n
      let failed := i.done && i.status != stOK
      let crec := u32 o.desc 16
      let need := if crec = 0xFFFFFFFF then ks else dueChunks (groupOf s b) b
      if i.step != stepOf s x.ctx then s
      else if !failed && need.any (fun k => (chunkOf i k).result.isNone) then s
      else
        let val (j : Nat) : FVal × Bool :=
          match (chunkOf i ((e0 + j) / chunkLen b)).result with
          | some l => (f32 (l.getD ((e0 + j) % chunkLen b) 0), false)
          | none => (FVal.zero, true)
        let ftz := x.vc.fmt = 10 && ctxFtz s x.ctx
        let r := quantView ftz x.vc x.pl.k (ctxScale s x.ctx x.vc.scale) ((List.range n).map val) Counts.none
          (StatFig.zero x.vc.scale)
        let s := noteStk x.ctx r.2.1 (setCounts x Counts.none [r.2.2] (localWrite g o.ser r.1 s))
        -- a block counts at the L-die of the chunk that its first element lies in
        let flushes (k : Nat) : Nat := ((List.range ((n + 31) / 32)).filter (fun j =>
          (e0 + 32 * j) / chunkLen b == k)).foldl (fun a j => a + (bs8Encode ftz (ctxScale s x.ctx x.vc.scale)
            ((List.range 32).map (fun m => (val (32 * j + m)).1)) Counts.none (StatFig.zero 0)).2.1.flush) 0
        let s := if x.vc.fmt ≠ 10 then s else ks.foldl (fun s k => flushAt k (flushes k) s) s
        let s := drawRest tag s
        let i := (instOf s tag).getD i
        let s := if crec = 0xFFFFFFFF then s else localWrite g o.ser (byteWrites crec (waitRecord s b i) false) s
        let s := workDone g o.ser s
        endIfOver tag (updInst tag (fun i => { i with delivered := ks.foldl (fun l k => addOnce k l) i.delivered }) s)
    | _, _ => s

/-- Outstanding reduction descriptors of a tag that wait, oldest first. -/
def redWaiting (s : State) (op tag : Nat) : List (Nat × OutD) :=
  (s.grains.flatMap (fun e => (e.2.out.filter (fun o =>
    o.wait == .red && dOp o.desc == op && u16 o.desc 10 == tag)).map (fun o => (e.1, o)))).mergeSort
      (fun a b => a.2.ser ≤ b.2.ser)

def serveWaits (tag : Nat) (s : State) : State :=
  (redWaiting s 0x19 tag).foldl (fun s e => serveWait e.1 e.2 s) s

/-- R289: an instance fails: a record, notices where `tell`, its waits end with poison, and the segment's status.
DEDUCED (log 97). -/
def failInst (tag : Nat) (status : W16) (cause pkg : Nat) (tell : Bool) (s : State) : State :=
  match instOf s tag, nmGet s.fab.buckets tag with
  | some i, some b =>
    if i.done then s
    else
      let s := updInst tag (fun i => { i with status := status }) s
      let s := postRec 0x0F 2 (some b.ctx) 0xFF 0xFFFFFFFF
        [(0, 2, tag), (2, 2, status.toNat), (4, 4, i.step.toNat % 2 ^ 32), (8, 2, b.group), (10, 2, pkg), (12, 1, cause),
         (16, 4, i.nanelem.getD 0xFFFFFFFF)] s
      let s := if tell then
          (groupOf s b).members.foldl (fun s m => if m = pkgId s then s else sendCtl 1 m (.notice m 0 tag 0 status) s) s
        else s
      segStatus b.ctx status (serveWaits tag (endInst tag s))
  | _, _ => s

/-- R353: bytes of the registered objects. -/
def regBytes (s : State) (ctx : Nat) (rs : List (W32 × Bool × Nat)) (explicit : Bool) : Nat :=
  sumNat ((rs.filter (fun r => r.2.1 == explicit)).map (fun r => match ownObj s ctx r.1 with | some o => o.size | none => 0))

def nineMib : Nat := 9437184

/-- R353: the ranks of this package's wards in its silt group, the ward of buddy distance j + 1 at place j. -/
def wards (g : Group) (p : SecPol) : List Nat :=
  let n := max g.members.length 1
  (List.range p.nbuddy).map (fun j => (g.rank + n - (j + 1) * p.bstride % n) % n)

/-- R361: the registered SILT object that an instance carries the copy of: the first one of its tag in the step after
secure point p, for the generation `second`. -/
def siltReg (c : Ctx) (tag : Nat) : Option ((W32 × Bool × Nat) × SecPol × Bool) :=
  match c.sec.point, c.sec.pol with
  | some (p, second), some pol =>
    if c.step != p + 1 || tag ∈ c.sec.siltDone then none
    else (pol.regs.find? (fun r => !r.2.1 && r.2.2 == tag)).map (fun r => (r, pol, second))
  | _, _ => none

/-- Where chunk k lies among the chunks that its owner owns, in bytes, and its length (R351). -/
def siltSpan (g : Group) (b : Bucket) (k : Nat) : Nat × Nat :=
  let w := if b.wfmt = 0 then 4 else 2
  ((if bAlg b = 1 then k else k / max g.members.length 1) * chunkLen b * w, lenOf b k * w)

/-- R361: a result chunk that this package owns goes to its buddies with the first instance after a secure point.
DEDUCED (log 57). -/
def siltCopy (b : Bucket) (tag k : Nat) (fs : List (List Byte)) (s : State) : State :=
  updCtx b.ctx (fun c =>
    match siltReg c tag with
    | none => c
    | some (r, _, second) =>
      let x := siltSpan (nmGetD s.fab.groups b.group groupBlank) b k
      let put (gen : SecGen) : SecGen :=
        let m := match gen.silt.find? (fun e => e.1 == r.1) with | some e => e.2 | none => []
        { gen with silt := gen.silt.filter (fun e => e.1 != r.1) ++ [(r.1, memWrite m x.1 (fs.flatten.take x.2))] }
      { c with sec := if second then { c.sec with gen1 := put c.sec.gen1 } else { c.sec with gen0 := put c.sec.gen0 } }) s

/-- The part of the silt area that keeps generation `second` of ward j, and in it the place of a SILT object: the
objects stand in the order of their registration. The spec gives the area no layout. DESIGN CHOICE (log 113). -/
def siltSlot (s : State) (ctx : Nat) (p : SecPol) (j : Nat) (second : Bool) (r : W32 × Bool × Nat) : Nat :=
  let part := regBytes s ctx p.regs false + regBytes s ctx p.regs true + nineMib
  (2 * j + b2n second) * part + regBytes s ctx (p.regs.takeWhile (fun x => x != r)) false

/-- R361: a buddy writes a result chunk that its ward owns into the silt area as it arrives. DESIGN CHOICE (log 113). -/
def siltKeep (b : Bucket) (tag k : Nat) (fs : List (List Byte)) (s : State) : State :=
  match (ctxOf s b.ctx).bind (fun c => siltReg c tag) with
  | none => s
  | some (r, pol, second) =>
    let g := nmGetD s.fab.groups b.group groupBlank
    let x := siltSpan g b k
    let ws := wards g pol
    (List.zip ws (List.range ws.length)).foldl (fun s e =>
      if e.1 = ownerRank g b k then
        objWriteAt pol.silt (siltSlot s b.ctx pol e.2 second r + x.1) (fs.flatten.take x.2) s
      else s) s

/-- A chunk's result is known here: it goes back to those whose partials came this way, and to waiting descriptors.
DEDUCED (log 96). -/
def setResult (b : Bucket) (tag k : Nat) (l : List W32) (promo : Bool) (fs : List (List Byte)) (s : State) : State :=
  match instOf s tag with
  | none => s
  | some i =>
    let g := groupOf s b
    let c := chunkOf i k
    let owner := ownerRank g b k = g.rank
    if bNanFail b && owner && 0 < c.nancnt + c.invcnt then
      failInst tag stSTEP_LOST 3 (pkgId s) true
        (updInst tag (fun i => { i with nanelem := (firstNan i.nanelem i.nanrank c.nanelem c.nanrank).1 }) s)
    else
      let s := updChunk tag k (fun c => { c with
        result := some l, promoted := promo, crc := chunkCrc tag (i.step.toNat % 65536) k 1 fs }) s
      let f := firstNan i.nanelem i.nanrank c.nanelem c.nanrank
      let s := updInst tag (fun i => { i with
        promoted := i.promoted + b2n promo, nancnt := i.nancnt + c.nancnt, invcnt := i.invcnt + c.invcnt
        nanelem := f.1, nanrank := f.2, amax := if i.amax.toNat < c.amax.toNat then c.amax else i.amax }) s
      let s := if owner then siltCopy b tag k fs s else siltKeep b tag k fs s
      let s := if bOper b = 1 then s
        else (downOf g b k g.rank).flatten.foldl (fun s e =>
          sendChunk b tag k 1 (g.members.getD e.1 0) e.2 promo fs c s) s
      serveWaits tag s

/-- A peer cannot be reached (R289). -/
def peerGone (s : State) (pkg : Nat) : Bool := nextHop s pkg == .drop

/-- R289: a peer that the instance still needs and that is DROP: one that a chunk without its result here is sent to or
received from, on the way to its owner or back. -/
def goneFor (s : State) (b : Bucket) (i : Inst) : Option Nat :=
  let g := groupOf s b
  (List.range (nChunks b)).findSome? (fun k =>
    let c := chunkOf i k
    if c.result.isSome || (bOper b = 1 && c.sentUp) then none
    else ((match upOf g b k g.rank with | some e => [e] | none => []) ++ (downOf g b k g.rank).flatten).findSome? (fun e =>
      let p := g.members.getD e.1 0
      if peerGone s p then some p else none))

def failGone (tag : Nat) (s : State) : State :=
  match instOf s tag, nmGet s.fab.buckets tag with
  | some i, some b =>
    if i.done then s
    else match goneFor s b i with
      | some p => failInst tag stDEGRADED 1 p true s
      | none => s
  | _, _ => s

/-- R281, R282: the sum of a chunk at this rank, once everything has arrived. -/
def chunkSum (g : Group) (b : Bucket) (k : Nat) (c : Chunk) : List W32 × Nat × W32 :=
  let groups : List (List Nat) := match downOf g b k g.rank with
    | [] => [[255]]
    | d :: r => (255 :: d.map (·.2)) :: r.map (fun x => x.map (·.2))
  let order := groups.flatMap (fun gr =>
    if bFixed b then gr.filterMap (fun sl => (c.parts.find? (fun e => e.1 == sl)).map (·.2))
    else (c.parts.filter (fun e => e.1 ∈ gr)).map (·.2))
  match order with
  | [] => ([], 0, 0)
  | x :: r => r.foldl (fun a y => let z := addVecs a.1 y; (z.1, a.2.1 + z.2, amaxOf a.2.2 z.1)) (x, 0, amaxOf 0 x)

/-- A chunk goes on once its contribution and every partial are here. -/
def advanceChunk (tag k : Nat) (s : State) : State :=
  match instOf s tag, nmGet s.fab.buckets tag with
  | some i, some b =>
    let g := groupOf s b
    let c := chunkOf i k
    let kids := if bOper b = 2 then [] else (downOf g b k g.rank).flatten
    let full := c.contrib.isSome && kids.all (fun e => c.parts.any (fun p => p.1 == e.2))
    if i.done || c.sentUp || !full || s.fab.held.any (fun h => h.1 == tag && h.2.1 == k) then s
    else
      let sc := match ctxOf s b.ctx with | some x => scaleOf x.bank b.scale | none => FVal.zero
      let t := if bOper b = 2 then (c.contrib.getD [], 0, amaxOf 0 (c.contrib.getD [])) else chunkSum g b k c
      let ftz := ctxFtz s b.ctx
      let sends := match upOf g b k g.rank with
        | none => bOper b ≠ 1 && 1 < g.members.length
        | some _ => bOper b ≠ 2
      let promo := c.promoted || (sends && b.wfmt = 10 && mustPromote sc t.1)
      let fs := wireOf ftz b sc promo t.1
      let s := if sends then noteFlush ftz b sc promo k t.1 s else s
      let s := updChunk tag k (fun c => mergeCounts 0 t.2.1 none 0 t.2.2 { c with sentUp := true, promoted := promo }) s
      let c := match instOf s tag with | some i => chunkOf i k | none => c
      match upOf g b k g.rank with
      | none =>
        let r := unwire ftz b sc promo (lenOf b k) fs
        if sends then setResult b tag k r.1 promo fs (noteStk b.ctx r.2 s) else setResult b tag k t.1 promo fs s
      | some (r, slot) =>
        if bOper b = 2 then s
        else if peerGone s (g.members.getD r 0) then failInst tag stDEGRADED 1 (g.members.getD r 0) true s
        else endIfOver tag (sendChunk b tag k 0 (g.members.getD r 0) slot promo fs c s)
  | _, _ => s

/-! ## Flits of an instance (R280, R284) -/

/-- One reduction flit of an instance in flight. -/
def takeFlit (b : Bucket) (f : Flit) (s : State) : State :=
  let tag := u16 f 14
  let k := bits (u32 f 18) 0 24
  let idx := bits (u32 f 18) 24 8
  let res := bitAt (u8 f 22) 0
  let promo := bitAt (u8 f 22) 1
  let src := flitSrc f
  let g := groupOf s b
  let body := slice f 28 224
  match instOf s tag with
  | none => s
  | some i =>
    if flitOp f = 9 && u32 body 28 ≠ (policyDigest s b).toNat % 2 ^ 32 then failInst tag stBAD_PARAM 2 src true s
    else if nChunks b ≤ k then s
    else if flitOp f = 8 then
      updChunk tag k (fun c => { c with
        rx := c.rx ++ [{ src := src, result := res, idx := idx, payload := body, promo := promo }] }) s
    else
      let c := chunkOf i k
      let mine (x : RxFlit) : Bool := x.src == src && x.result == res
      -- flits of one chunk take one port and come in order (R259); their 8-bit index wraps in a promoted chunk (R287)
      let fs := (c.rx.filter mine).map (·.payload)
      let ftz := ctxFtz s b.ctx
      let s := updChunk tag k (fun c => { c with rx := c.rx.filter (fun x => !(mine x)) }) s
      let sc := match ctxOf s b.ctx with | some x => scaleOf x.bank b.scale | none => FVal.zero
      let crc := chunkCrc tag (u16 f 16) k (b2n res) fs
      let edge := if res then (match upOf g b k g.rank with
          | some e => if g.members.getD e.1 0 = src then some e.2 else none
          | none => none)
        else ((downOf g b k g.rank).flatten.find? (fun e => g.members.getD e.1 0 == src)).map (·.2)
      let nan := u32 body 8
      let inv := u32 body 12
      let el := if u32 body 16 = 0xFFFFFFFF then none else some (u32 body 16)
      let rk := u16 body 20
      let am : W32 := BitVec.ofNat 32 (u32 body 24)
      match edge with
      | none => s
      | some slot =>
        let s := updInst tag (fun i => { i with recvX := nmUpdD slot 0 (fun x => x ^^^ crc) i.recvX }) s
        let r := unwire ftz b sc promo (lenOf b k) fs
        if res then
          let s := updChunk tag k (fun c => { c with
            nancnt := nan, invcnt := inv, nanelem := el, nanrank := rk, amax := am }) s
          setResult b tag k r.1 promo fs (noteStk b.ctx r.2 s)
        else if s.fab.held.any (fun h => h.1 == tag && h.2.1 == k) then s
        else
          let s := updChunk tag k (fun c => mergeCounts nan inv el rk am { c with
            parts := c.parts.filter (fun p => p.1 != slot) ++ [(slot, r.1)]
            promoted := c.promoted || promo }) (noteStk b.ctx r.2 s)
          advanceChunk tag k s

/-- Early flits whose instance has started are taken, in order (R280). -/
def takeEarly (tag : Nat) (s : State) : State :=
  match nmGet s.fab.buckets tag, instOf s tag with
  | some b, some i =>
    let mine (f : Flit) : Bool := u16 f 14 == tag && u16 f 16 == i.step.toNat % 65536
    let fs := s.fab.early.filter mine
    let s := updFab (fun b => { b with early := b.early.filter (fun f => !(mine f)) }) s
    fs.foldl (fun s f => takeFlit b f s) s
  | _, _ => s

/-! ## RED_POST and RED_WAIT -/

def isNanW (x : W32) : Bool := f32 x == .nan

/-- Read from the spec by inference: DEDUCED (log 97). -/
def insertPost (x : Nat × List W32) : List (Nat × List W32) → List (Nat × List W32)
  | [] => [x]
  | y :: r => if x.1 < y.1 then x :: y :: r else y :: insertPost x r

/-- A chunk has its LOCAL posts: they are added into the package's contribution (R281). -/
def redContribute (b : Bucket) (k rank : Nat) (c : Chunk) : Chunk :=
  let ps := if bFixed b then c.posts.foldl (fun l p => insertPost p l) [] else c.posts
  match ps.map (·.2) with
  | [] => c
  | x :: r =>
    let t := r.foldl (fun (a : List W32 × Nat) y => let z := addVecs a.1 y; (z.1, a.2 + z.2)) (x, 0)
    let nans := (List.range t.1.length).filter (fun j => ps.any (fun p => isNanW (p.2.getD j 0)))
    mergeCounts nans.length t.2 (nans.head?.map (fun j => k * chunkLen b + j)) rank (amaxOf 0 t.1)
      { c with contrib := some t.1, parts := c.parts ++ [(255, t.1)] }

def postChunks (b : Bucket) (e0 n : Nat) : List Nat :=
  (List.range (ceilDiv n (max (chunkLen b) 1))).map (fun j => e0 / max (chunkLen b) 1 + j)

def redPostFaults (s : State) (i : Iss) : List (Bool × Nat) :=
  let tag := u16 i.d 10
  let e0 := u32 i.d 12
  let n := nelem i.va
  [(!(tailZero i.d 16), 0x0A), (clodHeld s i, 0x0A), (!(isLocal i.va), 0x05), (i.va.fmt ∈ [5, 6, 7, 9], 0x06)] ++
  (match bucketOf s i.ctx tag with
    | none => [(true, 0x0A)]
    | some b =>
      let g := groupOf s b
      let full (k : Nat) : Bool := match instOf s tag with
        | some x => x.step == stepOf s i.ctx && b.local_ ≤ (chunkOf x k).posts.length
        | none => false
      [(e0 % chunkLen b != 0 || b.elems < e0 + n || (n % chunkLen b != 0 && e0 + n != b.elems), 0x0A),
       (bOper b == 2 && (postChunks b e0 n).any (fun k => ownerRank g b k != g.rank), 0x0A),
       ((postChunks b e0 n).any full, 0x0A)])

/-- The post's elements reach the instance of this step, or wait while an earlier one is in flight (R280). A post that
waited and finds a chunk with its LOCAL posts faults then (R278). -/
def postNow (i : Iss) (s : State) : State :=
  let tag := u16 i.d 10
  let step := stepOf s i.ctx
  match bucketOf s i.ctx tag with
  | none => s
  | some b =>
    let open_ := match instOf s tag with | some x => x.step == step | none => false
    let blocked := !open_ && (tagBusy s tag || !(instRoom s))
    if blocked then setWaitFor i .red s
    else
      let s := if open_ then s else takeEarly tag (startInst tag step s)
      let ok := match instOf s tag with | some x => !x.done | none => false
      let full := match instOf s tag with
        | some x => (postChunks b (u32 i.d 12) (nelem i.va)).any (fun k => b.local_ ≤ (chunkOf x k).posts.length)
        | none => false
      let s := workDone i.g i.ser s
      if !ok then s
      else if full then faultAt i.g i.t 0x0A i.daddr s
      else
        let r := postVals (ctxFtz s i.ctx) (viewBytes s i.pl [] i.va) i.va i.pl.k (ctxScale s i.ctx i.va.scale)
        let xs := r.1
        let s := noteStk i.ctx r.2 s
        if xs.any (·.2) then
          let a := (firstPoison (viewBytes s i.pl [] i.va) i.va i.pl.k).getD 0
          let s := postRec 0x07 2 (some i.ctx) (dieOfPed2 i.ped2) i.g [(8, 8, a), (16, 8, i.daddr.toNat)] s
          failInst tag stSTEP_LOST 4 (pkgId s) true s
        else
          let vals := xs.map (fun x => w32 x.1)
          let e0 := u32 i.d 12
          let s := updInst tag (fun x => { x with firstPost := match x.firstPost with | none => some s.clk.pcc | y => y }) s
          let rank := (groupOf s b).rank
          (postChunks b e0 vals.length).foldl (fun s k =>
            let mine := (vals.drop (k * chunkLen b - e0)).take (lenOf b k)
            let s := updChunk tag k (fun c =>
              let c := { c with posts := c.posts ++ [(i.g, mine)] }
              if c.posts.length = b.local_ then redContribute b k rank c else c) s
            advanceChunk tag k s) s

def doRedPost (g t : Nat) (s : State) : State := issueRow (fun d => dOp d == 0x18) redPostFaults postNow g t s

def redWaitFaults (s : State) (i : Iss) : List (Bool × Nat) :=
  let tag := u16 i.d 10
  let e0 := u32 i.d 12
  let crec := u32 i.d 16
  let n := nelem i.vc
  [(!(tailZero i.d 20) || (crec != 0xFFFFFFFF && crec % 32 != 0), 0x0A), (clodHeld s i, 0x0A),
   (!(isLocal i.vc), 0x05), (crec != 0xFFFFFFFF && i.pl.scratch < crec + 32, 0x04)] ++
  (match bucketOf s i.ctx tag with
    | none => [(true, 0x0A)]
    | some b =>
      let g := groupOf s b
      [(b.elems < e0 + n, 0x0A),
       (bOper b == 1 && (waitChunks b e0 n).any (fun k => ownerRank g b k != g.rank), 0x0A)])

def redWaitAct (i : Iss) (s : State) : State :=
  let s := setWaitFor i .red s
  match outDOf s i.g i.ser with
  | some o => serveWait i.g o s
  | none => s

def doRedWait (g t : Nat) (s : State) : State := issueRow (fun d => dOp d == 0x19) redWaitFaults redWaitAct g t s

/-! ## Flits (R280, R284) -/

/-- REDUCTION_FLIT_ARRIVE. -/
def doReductionFlitArrive (f : Flit) (s : State) : State :=
  let tag := u16 f 14
  let step := u16 f 16
  -- a chunk counts once, with its end (R289)
  let late (s : State) : State := if flitOp f = 9 then updFab (fun b => { b with lateChunks := b.lateChunks + 1 }) s else s
  if flitOp f ≠ 8 && flitOp f ≠ 9 then s
  else match nmGet s.fab.buckets tag with
    | none => if redWaits s tag step then updFab (fun x => { x with early := x.early ++ [f] }) s else late s
    | some b =>
      let cur := stepOf s b.ctx
      if redHere s tag step then
        let s := if tagBusy s tag then s else takeEarly tag (startInst tag cur s)
        takeFlit b f s
      else if redWaits s tag step then updFab (fun x => { x with early := x.early ++ [f] }) s
      else match instOf s tag with
        | some i => if i.step.toNat % 65536 = step && i.done && i.status == stOK then s else late s
        | none => late s

/-- Posts that waited for an earlier instance go on, oldest first (R280). -/
def servePosts (tag : Nat) (s : State) : State :=
  (redWaiting s 0x18 tag).foldl (fun s e =>
    match issOf s e.1 e.2 with
    | some i => takeEarly tag (postNow i s)
    | none => s) s

/-- Flits that waited start their instances, where those may start now (R280). -/
def wakeEarly (s : State) : State :=
  s.fab.early.foldl (fun s f =>
    let tag := u16 f 14
    if !(f ∈ s.fab.early) || !(redHere s tag (u16 f 16)) then s
    else match nmGet s.fab.buckets tag with
      | some b => takeEarly tag (if tagBusy s tag then s else startInst tag (stepOf s b.ctx) s)
      | none => s) s

/-- What any reduction event leads to: posts that waited go on, early flits start their instances, and an instance that
needs a peer that is DROP fails (R280, R289). -/
def redAfter (s : State) : State :=
  let s := s.fab.buckets.foldl (fun s e => if redWaiting s 0x18 e.1 == [] then s else servePosts e.1 s) s
  let s := wakeEarly s
  (s.fab.insts.filter (fun i => !i.done)).foldl (fun s i => failGone i.tag s) s

/-- BUCKET_TIMEOUT. -/
def doBucketTimeout (tag : Nat) (s : State) : State :=
  match instOf s tag, nmGet s.fab.buckets tag with
  | some i, some b =>
    match i.firstPost with
    | some t0 => if !i.done && b.timeout ≤ (s.clk.pcc - t0).toNat then
        redAfter (failInst tag stSTEP_LOST 0 (pkgId s) true s) else s
    | none => s
  | _, _ => s

/-- BUCKET_FAILURE_NOTICE. Where this package has not started the step's instance yet, it fails it as it starts.
DEDUCED (log 97). -/
def doBucketFailureNotice (tag : Nat) (status : W16) (pkg : Nat) (s : State) : State :=
  let s := match nmGet s.fab.buckets tag with
    | none => s
    | some b =>
      let cur := stepOf s b.ctx
      if tagBusy s tag || s.fab.insts.any (fun i => i.tag == tag && i.step == cur) then s
      else takeEarly tag (startInst tag cur s)
  redAfter (failInst tag status 5 pkg false s)

/-- R345: the partial sums of a chunk are dropped with what they counted; the contribution is kept. -/
def dropPartials (tag k : Nat) (s : State) : State :=
  match nmGet s.fab.buckets tag with
  | none => s
  | some b =>
    let rank := (groupOf s b).rank
    updChunk tag k (fun c =>
      let c0 : Chunk := { c with
        parts := [], rx := [], sentUp := false, promoted := false, nancnt := 0, invcnt := 0, nanelem := none, nanrank := 0
        amax := 0 }
      if c.contrib.isSome then redContribute b k rank c0 else c0) s

/-- BUCKET_HOLD_NOTICE. -/
def doBucketHoldNotice (tag chunk pkg : Nat) (s : State) : State :=
  match instOf s tag with
  | none => s
  | some i =>
    if i.done || (chunkOf i chunk).result.isSome then s
    else dropPartials tag chunk (updFab (fun b => { b with held := addOnce (tag, chunk, pkg) b.held }) s)

/-- BUCKET_RESUME_NOTICE: the chunk restarts. -/
def doBucketResumeNotice (tag chunk pkg : Nat) (s : State) : State :=
  let s := updFab (fun b => { b with held := del (tag, chunk, pkg) b.held }) s
  match instOf s tag with
  | none => s
  | some i =>
    if i.done || (chunkOf i chunk).result.isSome then s
    else advanceChunk tag chunk (dropPartials tag chunk s)

/-- R345: at the end of a drain, chunks still being reduced are held, and the credits of early flits go back. -/
def holdChunks (ctx : Nat) (s : State) : State :=
  let tags := (s.fab.buckets.filter (fun e => e.2.ctx == ctx)).map (·.1)
  tags.foldl (fun s tag =>
    let s := updFab (fun b => { b with early := b.early.filter (fun f => u16 f 14 != tag) }) (freeOwed (· == tag) s)
    match instOf s tag, nmGet s.fab.buckets tag with
    | some i, some b =>
      if i.done then s
      else (i.chunks.filter (fun e => e.2.result.isNone && (e.2.posts != [] || e.2.parts != [] || e.2.rx != []))).foldl
        (fun s e =>
          let s := dropPartials tag e.1 (updFab (fun x => { x with held := addOnce (tag, e.1, pkgId s) x.held }) s)
          (groupOf s b).members.foldl (fun s m => if m = pkgId s then s else sendCtl 1 m (.notice m 1 tag e.1 0) s) s) s
    | _, _ => s) s

/-- R345: at the context's next lease the chunks that it holds resume. -/
def resumeChunks (ctx : Nat) (s : State) : State :=
  let mine := s.fab.held.filter (fun h => h.2.2 == pkgId s &&
    (match nmGet s.fab.buckets h.1 with | some b => b.ctx == ctx | none => false))
  mine.foldl (fun s h =>
    let s := match nmGet s.fab.buckets h.1 with
      | some b => (groupOf s b).members.foldl (fun s m => if m = pkgId s then s else sendCtl 1 m (.notice m 2 h.1 h.2.1 0) s) s
      | none => s
    doBucketResumeNotice h.1 h.2.1 h.2.2 s) s

/-! ## DIGEST_QUERY (R292) -/

def doDigestQuery (cid : Nat) (s : State) : State :=
  match ready s cid 0x54 with
  | none => s
  | some c =>
    let s := startCmd cid s
    let p := c.param
    let ctx := c.ctx.getD 0
    let tag := u16 p 0
    let h : W32 := BitVec.ofNat 32 (u32 p 12)
    let off := u64 p 16
    if u16 p 2 ≠ 0 || off % 64 ≠ 0 || !(allZero (p.drop 24)) then finish0 cid stBAD_PARAM s
    else if (match nmGet s.fab.buckets tag with | some b => b.ctx != ctx | none => false) then
      finish0 cid stNOT_PERMITTED s
    else match ownObj s ctx h with
      | none => finish0 cid stNOT_PERMITTED s
      | some o =>
        if o.size < off + 192 then finish0 cid stBAD_PARAM s
        else match s.fab.digests.reverse.find? (fun r => r.1 == ctx && u16 r.2 0 == tag && u32 r.2 4 == u64 p 4 % 2 ^ 32) with
          | none => finish0 cid stNO_RESOURCE s
          | some r => finish cid stOK (slice r.2 16 8) (objWriteAt h off r.2 s)

def doRedPostThen (g t : Nat) (s : State) : State := redAfter (doRedPost g t s)
def doRedWaitThen (g t : Nat) (s : State) : State := redAfter (doRedWait g t s)
def doRedFlitThen (f : Flit) (s : State) : State := redAfter (doReductionFlitArrive f s)

/-! ## Links that go down (R257, R259, R273, R289) -/

/-- A port has left UP or a route has changed: what can no longer be reached fails. -/
def linksChanged (s : State) : State := redAfter (failUnreachable s)

/-- R257: a flit of this package that has made 64 hops: its operation fails as if its destination were unreachable. -/
def hopFail (f : Flit) (s : State) : State :=
  if flitOp f = 8 || flitOp f = 9 then failInst (u16 f 14) stDEGRADED 1 (flitDst f) true s
  else if flitOp f = 1 || flitOp f = 2 then
    match s.fab.wreqs.find? (fun q => q.rtag == u16 f 25 && q.tagged && !q.dead) with
    | some q => winFail q stDEGRADED 2 s
    | none => s
  else s

/-- FLIT_RECEIVE (R262). -/
def doFlitReceive (p : Nat) (f : Flit) (s : State) : State :=
  let out := hopsOut s p f && flitSrc f == pkgId s
  let s := flitIn p f s
  linksChanged (if out then hopFail f s else s)

def execFlitReceive (port : Nat) (flit : Flit) (s : State) : Host.Outcome State Fault Refusal :=
  .next (doFlitReceive port flit s)
def execNakReceived (port : Nat) (ackseq : BitVec 12) (s : State) : Host.Outcome State Fault Refusal :=
  .next (linksChanged (doNakReceived port ackseq s))
def execPortLeaveUp (port : Nat) (s : State) : Host.Outcome State Fault Refusal :=
  .next (linksChanged (doPortLeaveUp port s))
def execLnkPortEnable (rq : Requester) (port : Nat) (val : W64) (s : State) : Host.Outcome State Fault Refusal :=
  .next (linksChanged (onBar rq (doLnkPortEnable rq port val) s))
def execLnkRouteWrite (rq : Requester) (id : Nat) (val : Byte) (s : State) : Host.Outcome State Fault Refusal :=
  .next (linksChanged (onBar rq (doLnkRouteWrite rq id val) s))
def execGroupSet (cid : Nat) (s : State) : Host.Outcome State Fault Refusal := .next (doGroupSet cid s)
def execBucketPolicy (cid : Nat) (s : State) : Host.Outcome State Fault Refusal :=
  .next (wakeEarly (doBucketPolicy cid s))
def execDigestQuery (cid : Nat) (s : State) : Host.Outcome State Fault Refusal := .next (doDigestQuery cid s)
def execRedPost (g t : Nat) (s : State) : Host.Outcome State Fault Refusal := .next (doRedPostThen g t s)
def execRedWait (g t : Nat) (s : State) : Host.Outcome State Fault Refusal := .next (doRedWaitThen g t s)
def execReductionFlitArrive (flit : Flit) (s : State) : Host.Outcome State Fault Refusal := .next (doRedFlitThen flit s)
def execBucketTimeout (tag : Nat) (s : State) : Host.Outcome State Fault Refusal := .next (doBucketTimeout tag s)
def execBucketFailureNotice (tag : Nat) (status : W16) (pkg : Nat) (s : State) : Host.Outcome State Fault Refusal :=
  .next (doBucketFailureNotice tag status pkg s)
def execBucketHoldNotice (tag chunk pkg : Nat) (s : State) : Host.Outcome State Fault Refusal :=
  .next (doBucketHoldNotice tag chunk pkg s)
def execBucketResumeNotice (tag chunk pkg : Nat) (s : State) : Host.Outcome State Fault Refusal :=
  .next (doBucketResumeNotice tag chunk pkg s)

end Sys2Proof.Machine
end

