-- ==== Sys2Proof/Machine/Strata.lean ====
section
/-! DEFINITION. What a step boundary does (chapter 12): the scale bank's update (R120) and its log (R139), the strata
entry (R354-R357), the risk exchange (R359) and the start of a secure point (R358-R361). -/

namespace Sys2Proof.Machine

open Sys2Proof

/-! ## Strata entries (R355, R356) -/

def entryNew (step seed pcc0 : W64) (risk : Nat) (rerun : Bool) : StrataEnt :=
  { step := step, seed := seed, pcc0 := pcc0, nseg := 0, lost := false, secure := false, gen := false, rerun := rerun,
    delivx := 0, risk := risk, batches := [], scales := [], rungs := [], off := 0, complete := false }

def batchBytes (b : BatchRec) : List Byte :=
  leBytes 4 b.who.toNat ++ leBytes 2 b.data.length ++ leBytes 2 b.seg ++ pad 56 b.data

def scaleBytes (r : ScaleRec) : List Byte :=
  leBytes 2 r.idx ++ leBytes 1 r.cfmt ++ leBytes 1 (b2n r.changed) ++ leBytes 4 r.scale.toNat

def rungBytes (r : RungRec) : List Byte :=
  leBytes 8 (r.daddr.toNat % 2 ^ 52 + r.rung * 2 ^ 52 + r.daddr.toNat / 2 ^ 54 * 2 ^ 54) ++ leBytes 4 r.g ++
    leBytes 4 r.granule

/-- R355: the length of an entry, a multiple of 64. -/
def entryLen (e : StrataEnt) : Nat :=
  64 * ceilDiv (128 + 64 * e.batches.length + 8 * e.scales.length + 16 * e.rungs.length) 64

/-- R355: the bytes of an entry, its CRC in place. -/
def entryBytes (e : StrataEnt) : List Byte :=
  let head := leBytes 8 e.step.toNat ++ leBytes 8 e.seed.toNat ++ leBytes 8 e.pcc0.toNat ++ leBytes 4 e.nseg ++
    leBytes 4 (b2n e.lost + 2 * b2n e.secure + 4 * b2n e.gen + 8 * b2n e.rerun) ++ leBytes 8 e.delivx.toNat ++
    leBytes 4 (entryLen e) ++ leBytes 4 e.batches.length ++ leBytes 4 e.scales.length ++ leBytes 4 e.rungs.length ++
    leBytes 4 (e.risk % 65536) ++ zeros 68
  let b := pad (entryLen e) (pad 128 head ++ e.batches.flatMap batchBytes ++ e.scales.flatMap scaleBytes ++
    e.rungs.flatMap rungBytes)
  patch b 64 (leBytes 8 (crc64 b).toNat)

/-- The step of the oldest valid generation: entries of later steps are still needed (R357). DEDUCED (log 43). -/
def neededAfter (x : Secure) : Option Nat :=
  match x.gen0.valid, x.gen1.valid with
  | true, true => some (min x.gen0.step.toNat x.gen1.step.toNat)
  | true, false => some x.gen0.step.toNat
  | false, true => some x.gen1.step.toNat
  | false, false => none

/-- Read from the spec by inference: DEDUCED (log 43). -/
def needed (x : Secure) (e : StrataEnt) : Bool := match neededAfter x with | some p => p < e.step.toNat | none => false

/-- R357: the older generation is invalid for ROLLBACK from now on. -/
def dropOlder (x : Secure) : Secure :=
  let zeroOlder := !x.gen1.valid || (x.gen0.valid && x.gen0.step.toNat ≤ x.gen1.step.toNat)
  if zeroOlder then { x with gen0 := { x.gen0 with valid := false } } else { x with gen1 := { x.gen1 with valid := false } }

/-- Where an entry goes in the ring of a log of `size` bytes, and the entries that it would overwrite.
DEDUCED (log 43). -/
def entryPlace (x : Secure) (size : Nat) (e : StrataEnt) : Nat × List StrataEnt :=
  let n := entryLen e
  let at_ := if size < x.strataPos + n then 0 else x.strataPos
  (at_, x.strata.filter (fun y => y.complete && at_ < y.off + entryLen y && y.off < at_ + n))

/-- R354, R357: an entry is written to the log and to its mirror, or waits for the secure point that it forces; later
entries wait behind it. One that has `waited` overwrites what it must. DEDUCED (log 43). -/
def writeEntry (ctx : Nat) (e : StrataEnt) (waited : Bool) (s : State) : State :=
  match ctxOf s ctx with
  | none => s
  | some c =>
    match c.sec.pol with
    | none => s
    | some p =>
      let size := match ownObj s ctx p.strata with | some o => o.size / 64 * 64 | none => 0
      let x := entryPlace c.sec size e
      let old := x.2.filter (needed c.sec)
      let forced := c.step.toNat + 1
      let behind := c.sec.strata.any (fun y => !y.complete)
      if size < entryLen e then s
      else if behind && !waited then
        updCtx ctx (fun c => { c with sec := { c.sec with
          strata := c.sec.strata.filter (fun y => y.step != e.step) ++ [e] } }) s
      else if old ≠ [] && !waited then
        postRec 0x15 1 (some ctx) 0xFF 0xFFFFFFFF [(0, 8, forced), (8, 8, 2 ^ 64 - 1)]
          (updCtx ctx (fun c => { c with sec := { c.sec with
            nowreq := true, strata := c.sec.strata.filter (fun y => y.step != e.step) ++ [e] } }) s)
      else
        let b := entryBytes e
        let s := objWriteAt p.strata x.1 b s
        let s := if p.mirror = 0 then s else objWriteAt p.mirror x.1 b s
        let s := updCtx ctx (fun c => { c with sec :=
          (fun z : Secure => if old = [] then z else dropOlder z) { c.sec with
            strataPos := x.1 + b.length
            strata := c.sec.strata.filter (fun y => !(y ∈ x.2) && y.step != e.step) ++
              [{ e with off := x.1, complete := true }] } }) s
        match old with
        | [] => s
        | y :: _ => postRec 0x15 1 (some ctx) 0xFF 0xFFFFFFFF [(0, 8, forced), (8, 8, y.step.toNat)] s

/-- R357: the entries that waited for a secure point go on once point b has ended: one of a step before b is written
now, over what is still needed if it must be; a later one is as new. DEDUCED (log 43). -/
def flushEntries (ctx : Nat) (b : W64) (s : State) : State :=
  match ctxOf s ctx with
  | none => s
  | some c =>
    let ws := c.sec.strata.filter (fun e => !e.complete)
    if ws = [] then s
    else ws.foldl (fun s e => writeEntry ctx e (decide (e.step.toNat < b.toNat)) s)
      (updCtx ctx (fun c => { c with sec := { c.sec with strata := c.sec.strata.filter (·.complete) } }) s)

/-! ## The scale bank at a step boundary (R120, R139, R368) -/

def scaleRecs (old new : NatMap ScaleEnt) : List ScaleRec :=
  new.filterMap (fun e =>
    let x := scaleEntOf old e.1
    if x.scale ≠ e.2.scale || x.cfmt ≠ e.2.cfmt then
      some { idx := e.1, cfmt := e.2.cfmt, changed := x.cfmt != e.2.cfmt, scale := e.2.scale }
    else none)

/-- R120: every entry that the step has quantised through. -/
def bankStep (b : NatMap ScaleEnt) : NatMap ScaleEnt := b.map (fun e => (e.1, scaleStep e.2))

/-- The bank's update, and the records that the log holds of it. In a re-run the logged records are installed. -/
def updateBank (ctx : Nat) (s : State) : State :=
  match ctxOf s ctx with
  | none => s
  | some c =>
    let new := bankStep c.bank
    let recs := scaleRecs c.bank new
    match logEntry s ctx with
    | none => updCtx ctx (fun c => { c with bank := new, sec := { c.sec with cur := { c.sec.cur with scales := recs } } }) s
    | some e =>
      let put := e.scales.foldl (fun b r =>
        nmUpdD r.idx scaleDefault (fun x => { x with scale := r.scale, cfmt := r.cfmt }) b) new
      let s := updCtx ctx (fun c => { c with bank := put, sec := { c.sec with cur := { c.sec.cur with scales := recs } } }) s
      let bad := (recs.filter (fun r => !(r ∈ e.scales))).map (·.idx) ++
        (e.scales.filter (fun r => !(recs.any (fun q => q.idx == r.idx)))).map (·.idx)
      bad.foldl (fun s i => rerunDiff ctx 1 i s) s

/-! ## Secure points (R358-R362, R365) -/

/-- R365. -/
def secK (p : SecPol) (r : Nat) : Nat := p.kmax - (p.kmax - p.kmin) * r / 65535

def secGroup (s : State) (p : SecPol) : Group := nmGetD s.fab.groups p.sgroup groupBlank

/-- R353: the buddies of this package, as package ids. -/
def buddies (s : State) (p : SecPol) : List Nat :=
  let g := secGroup s p
  (List.range p.nbuddy).map (fun j => g.members.getD ((g.rank + (j + 1) * p.bstride) % max g.members.length 1) 0)

/-- The bytes of one granule of an object, at their offsets in the object. -/
def granMem (s : State) (o : Obj) (j : Nat) : Mem :=
  match locOf o (j * 65536) with
  | .hz1 a => memMove a 65536 (j * 65536) s.hz.hz1
  | .hz2 a => memMove a 65536 (j * 65536) s.hz.hz2
  | .hz3 d a => memMove a 65536 (j * 65536) (nmGetD s.hz.hz3 d [])
  | .hz4 p a => memMove a 65536 (j * 65536) (hostMem s p)

/-- The granules of an object that have been written since the last copy into generation `one`. DEDUCED (log 46). -/
def dirtyFor (one : Bool) (o : Obj) : List Nat :=
  (List.range o.gran.length).filter (fun j => if one then (granOf o j).gen1 else (granOf o j).gen0)

def copyDirty (s : State) (one : Bool) (o : Obj) (m : Mem) : Mem :=
  (dirtyFor one o).foldl (fun m j => (granMem s o j).foldl (fun m e => memSet e.1 e.2 m) (memClear (j * 65536) 65536 m)) m

def clearDirty (one : Bool) (o : Obj) : Obj :=
  { o with gran := o.gran.map (fun g => if one then { g with gen1 := false } else { g with gen0 := false }) }

/-- R362: the older generation, `true` for generation 1. DEDUCED (log 45). -/
def targetGen (x : Secure) : Bool :=
  if !x.gen0.valid then false else if !x.gen1.valid then true else x.gen1.step.toNat < x.gen0.step.toNat

/-- R360: the explicit items of secure point b go to every buddy in TC 5: the scale bank with the group table, and
`sent` granules. -/
def sendUnits (ctx : Nat) (p : SecPol) (b : W64) (sent : Nat) (s : State) : State :=
  (buddies s p).foldl (fun s d =>
    sendCtl 5 d (.ctl d 2 ctx (BitVec.ofNat 64 sent)) (sendCtl 5 d (.ctl d 1 ctx b) s)) s

/-- R360: at secure point b the scale bank, the group table and the dirty granules go to the buddies.
DESIGN CHOICE (log 44); DEDUCED (log 45). -/
def startPoint (ctx : Nat) (b : W64) (s : State) : State :=
  match ctxOf s ctx with
  | none => s
  | some c =>
    match c.sec.pol with
    | none => s
    | some p =>
      let one := targetGen c.sec
      let old := if one then c.sec.gen1 else c.sec.gen0
      let hs := (p.regs.filter (fun r => r.2.1)).map (·.1)
      let expl := hs.filterMap (fun h => (ownObj s ctx h).map (fun o =>
        (h, copyDirty s one o (((old.expl.find? (fun e => e.1 == h)).map (·.2)).getD []))))
      let sent := hs.foldl (fun n h => n + (match ownObj s ctx h with | some o => (dirtyFor one o).length | none => 0)) 0
      let g : SecGen := { valid := false, step := b, bank := c.bank
                          groups := s.fab.groups.filter (fun e => e.2.ctx == ctx)
                          buckets := s.fab.buckets.filter (fun e => e.2.ctx == ctx)
                          expl := expl, silt := [] }
      let s := hs.foldl (fun s h => updObj h (clearDirty one) s) s
      let s := updCtx ctx (fun c => { c with sec := { c.sec with
        gen0 := if one then c.sec.gen0 else g, gen1 := if one then g else c.sec.gen1
        point := some (b, one), nextPoint := none, acked := false, pointPcc := s.clk.pcc
        pointX := (c.sec.sentX, c.sec.recvX), recvAt := c.sec.recvX
        pointCids := c.sec.nextCids, nextCids := [], resend := false, sent := sent, siltDone := [] } }) s
      sendUnits ctx p b sent s

/-- R359: the risk and NOWREQ go to rank 0. DEDUCED (log 52). -/
def sendRisk (ctx : Nat) (s : State) : State :=
  match ctxOf s ctx with
  | none => s
  | some c =>
    match c.sec.pol with
    | none => s
    | some p =>
      let v := BitVec.ofNat 64 (s.err.risk + 65536 * b2n c.sec.nowreq)
      sendCtl 6 ((secGroup s p).members.getD 0 0) (.ctl ((secGroup s p).members.getD 0 0) 0 ctx v)
        (updCtx ctx (fun c => { c with sec := { c.sec with
          nowreq := false, exch := true, sentRisk := s.err.risk, sentNow := c.sec.nowreq
          nowSent := c.sec.nowSent ++ c.sec.nowCids, nowCids := [] } }) s)

/-- R359: boundary b is a secure point: it begins, or waits for the point in progress to end. DEDUCED (log 52). -/
def takePoint (ctx : Nat) (b : W64) (s : State) : State :=
  match ctxOf s ctx with
  | none => s
  | some c =>
    let s := updCtx ctx (fun c => { c with sec := { c.sec with
      lastPoint := some b, agreed := false, nextPoint := some b, nextCids := c.sec.nowSent, nowSent := [] } }) s
    if c.sec.point.isSome then s else startPoint ctx b s

/-- R345: the securing units that a drain has aborted are sent again at the context's next lease: the explicit items, or
once those are acknowledged the silt copies. DEDUCED (log 44). -/
def resendUnits (ctx : Nat) (s : State) : State :=
  match ctxOf s ctx with
  | none => s
  | some c =>
    match c.sec.pol, c.sec.point with
    | some p, some (b, _) =>
      if !c.sec.resend then s
      else
        let s := updCtx ctx (fun c => { c with sec := { c.sec with resend := false, pointPcc := s.clk.pcc } }) s
        if c.sec.acked then (buddies s p).foldl (fun s d => sendCtl 5 d (.ctl d 5 ctx b) s) s
        else sendUnits ctx p b c.sec.sent s
    | _, _ => s

/-- R345: what a drain has held or aborted goes on at the context's next lease. -/
def resumeLease (ctx : Nat) (s : State) : State := resendUnits ctx (resumeChunks ctx s)

/-- R362: the XOR of the slot-0 SENT digests goes to the next neighbour at the end of step b + 1. -/
def sendDigest (ctx : Nat) (s : State) : State :=
  match ctxOf s ctx with
  | none => s
  | some c =>
    match c.sec.pol, c.sec.point with
    | some p, some (b, _) =>
      let g := secGroup s p
      if c.step = b + 1 then
        let d := g.members.getD ((g.rank + 1) % max g.members.length 1) 0
        sendCtl 6 d (.ctl d 3 ctx c.sec.sentX)
          (updCtx ctx (fun c => { c with sec := { c.sec with recvAt := c.sec.recvX } }) s)
      else s
    | _, _ => s

/-! ## The boundary (R165) -/

/-- The context re-runs a step that the log holds (R368): it writes no fresh entry. -/
def rerunLogged (s : State) (ctx : Nat) : Bool := (logEntry s ctx).isSome

/-- R369: a REPLAY_STEP ends with the step's LAST segment. -/
def endReplay (ctx : Nat) (s : State) : State :=
  match ctxOf s ctx with
  | none => s
  | some c =>
    match c.sec.replayCid with
    | none => s
    | some cid =>
      let res := leBytes 4 c.sec.replayFlags ++ zeros 4 ++ leBytes 8 c.sec.cur.delivx.toNat
      finish cid stOK res (updCtx ctx (fun c => { c with sec := { c.sec with replayCid := none, replayFlags := 0 } }) s)

/-- R349: the step is lost by a status other than OK and ABORTED_TXN. DEDUCED (log 52). -/
def losing (st : W16) : Bool := st != stOK && st != stABORTED_TXN

/-- The end of a LAST segment: R120, R137, R139, R165, R354, R357, R359, R360, R368. `st` is the segment's status.
DEDUCED (log 45). -/
def stepBoundary (ctx : Nat) (st : W16) (s : State) : State :=
  match ctxOf s ctx with
  | none => s
  | some c =>
    let logged := logEntry s ctx
    let s := updateBank ctx s
    let s := match logged with
      | some e => if e.delivx = c.sec.cur.delivx then s else rerunDiff ctx 2 0 s
      | none => s
    let rerun := c.sec.rerunTill.isSome || c.sec.replayCid.isSome
    let on := match c.sec.pol with | some p => p.en | none => false
    let secure := on && c.sec.agreed && !rerun && !(losing st)
    let s := if !on || secure || c.sec.point.isSome then s else flushEntries ctx c.step s
    let s := if !on || logged.isSome then s
      else match ctxOf s ctx with
        | none => s
        | some c =>
          let gen := match c.sec.point with | some (_, one) => !one | none => targetGen c.sec
          writeEntry ctx { c.sec.cur with lost := losing st, secure := secure, gen := secure && gen } false s
    let s := sendDigest ctx s
    let s := if secure then takePoint ctx c.step s else s
    let s := if on then sendRisk ctx s else s
    let s := endReplay ctx s
    updCtx ctx (fun c => { c with
      step := c.step + 1, stepFresh := true
      sec := (fun z : Secure => if z.rerunTill == some c.step then { z with rerunTill := none, fill := [] } else z) c.sec }) s

end Sys2Proof.Machine
end

