-- ==== Sys2Proof/Machine/Schedule.lean ====
section
/-! DEFINITION. Runs of segments and the hub scheduler (chapter 11): shares and deficits (R336, R338), completing a
SEG_RUN (R317, R349), residency and its save areas (R333, R334, R343, R494), scrubbing (R341), the counter handover
(R473), and leases (R335, R338, R339). -/

namespace Sys2Proof.Machine

open Sys2Proof

/-! ## The next segment of a context -/

def planOf (c : Ctx) (id : Nat) : Option Plan := c.plans.find? (fun p => p.id == id)

/-- R210: a SEG_FENCE that was fetched before command `cid` has not completed. -/
def fenced (s : State) (c : Ctx) (cid : Nat) : Bool :=
  c.fences.any (fun f => f < cid) ||
    s.cmds.any (fun k => k.ctx == some c.num && k.opcode == 0x33 && k.done.isNone && k.cid < cid)

/-- The oldest SEG_RUN, its plan, and the segment that comes next. A SEG_RUN behind a SEG_FENCE waits (R210). -/
def nextSeg (s : State) (c : Ctx) : Option (SegRun × Plan × Nat × SegD) :=
  match c.runs with
  | [] => none
  | r :: _ =>
    if fenced s c r.cid then none
    else match planOf c r.plan with
      | none => none
      | some p => (p.segs[r.seg + r.ended]?).map (fun d => (r, p, r.seg + r.ended, d))

def footprint (d : SegD) : List Nat := d.progs.map (·.ped2)

def footGrains (d : SegD) : Nat := 250 * d.progs.length

/-! ## Completing SEG_RUNs (R317, R349) -/

/-- The RESULT of a SEG_RUN. -/
def runResult (r : SegRun) (st : W16) : List Byte :=
  match r.faultRes with
  | some b => if st = stBAD_PARAM then b else std
  | none => if st = stBAD_PARAM then zeros 12 ++ leBytes 2 (r.seg + r.ended) else std
where
  std : List Byte :=
    match r.firstGc0 with
    | some g => if r.ended = 0 then List.replicate 12 0xFF else
        leBytes 8 g.toNat ++ leBytes 4 (r.seg + r.ended - 1) ++ leBytes 4 (min r.overrun 0xFFFFFFFF)
    | none => List.replicate 12 0xFF

/-- SEG_FENCEs complete, with the PCC, when the segment that ran at their fetch has ended (R210, R317). -/
def settleFences (ctx : Nat) (s : State) : State :=
  match ctxOf s ctx with
  | none => s
  | some c =>
    c.fences.foldl (fun s f => finish f stOK (leBytes 8 s.clk.pcc.toNat) s) (updCtx ctx (fun c => { c with fences := [] }) s)

/-- A SEG_RUN of the context is outstanding: fetched and not completed, started or not (R326, R330). DEDUCED (log 63). -/
def runOut (s : State) (ctx : Nat) : Bool :=
  (match ctxOf s ctx with | some c => c.runs != [] | none => false) ||
    s.cmds.any (fun k => k.ctx == some ctx && k.opcode == 0x32 && k.done.isNone)

/-- The state that a context's SEG_RUNs leave it in (R326). -/
def settleState (ctx : Nat) (s : State) : State :=
  updCtx ctx (fun c => if c.st = .killing then c else { c with
    st := if !(runOut s ctx) then .idle else if s.ped2s.any (fun e => (match e.2.lease with | some l => l.ctx == ctx | none => false))
      then .running else .ready }) s

/-- The oldest SEG_RUN completes; a failure after a segment has run makes the context lost, and every other SEG_RUN
then completes with STEP_LOST (R349). `step` is the step that would be lost. -/
def endRun (ctx : Nat) (st : W16) (step : W64) (s : State) : State :=
  match ctxOf s ctx with
  | none => s
  | some c =>
    match c.runs with
    | [] => s
    | r :: rest =>
      let s := finish r.cid st (runResult r st) s
      let lost := if c.lost.isSome then c.lost else if losing st && r.firstGc0.isSome then some step else none
      let s := if lost.isSome then rest.foldl (fun s q => finish q.cid stSTEP_LOST (runResult q stSTEP_LOST) s) s else s
      let s := updCtx ctx (fun c => { c with lost := lost, runs := if lost.isSome then [] else rest }) s
      settleState ctx s

/-! ## Shares (R336, R338) -/

def active (c : Ctx) : Bool := c.st == .ready || c.st == .running

def actives (s : State) : List Ctx := (s.ctxs.map (·.2)).filter active


/-- e_x. -/
def effShare (s : State) (c : Ctx) : Rat :=
  let act := actives s
  let ports := [0, 1].filter (fun p => act.any (fun x => x.owner / 64 == p))
  let wp := sumNat (ports.map (fun p => (portOf s p).weightF))
  let fns := (act.map (·.owner)).foldl (fun l f => if f / 64 = c.owner / 64 then addOnce f l else l) []
  let wf := sumNat (fns.map (fun f => (fnOf s f).weightF))
  let wx := sumNat ((act.filter (fun x => x.owner == c.owner)).map (·.weightF))
  mkRat (Int.ofNat ((portOf s (c.owner / 64)).weightF * (fnOf s c.owner).weightF * c.weightF)) (wp * wf * wx)

def enabledGrains (s : State) : Nat := 250 * (s.emap.enabled.filter (fun e => e.1 < ped2Count && !(e.2 == 0))).length

def domainOf (s : State) (c : Ctx) : List Nat :=
  match pedOf s c.num c.domain with
  | .ok l => (pedSetPed2s l).filter (ped2InService s)
  | .error _ => []

/-- a_x, in grains. -/
def accrual (s : State) (c : Ctx) : Rat :=
  min (effShare s c * mkRat (Int.ofNat (enabledGrains s)) 1) (mkRat (Int.ofNat (250 * (domainOf s c).length)) 1)

/-- Deficits saturate. -/
def satDef (q : Rat) : Rat := max (-2147483647) (min q 2147483647)

/-- R338: what each active context has earned since the last decision. -/
def earn (s : State) : State :=
  let dt := (s.clk.wallUs - s.tLast) / 1000
  let s' := { s with tLast := s.clk.wallUs }
  { s' with ctxs := s.ctxs.map (fun e =>
      if active e.2 then (e.1, { e.2 with deficit := satDef (e.2.deficit + accrual s e.2 * dt) }) else e) }

/-- R337: what SET_SHARE has set takes effect at a scheduling decision; the deficits that it settles were earned under the
shares before it. DEDUCED (log 110). -/
def takeShares (s : State) : State :=
  { s with
    ctxs := s.ctxs.map (fun e => (e.1, { e.2 with weightF := e.2.weight, limitF := e.2.limit, sliceF := e.2.slice }))
    fns := s.fns.map (fun e => (e.1, { e.2 with weightF := e.2.weight }))
    port0 := { s.port0 with weightF := s.port0.weight }
    port1 := { s.port1 with weightF := s.port1.weight } }

/-- Wall time of n gc at the clock in force. -/
def gcUs (s : State) (n : Nat) : Rat := mkRat (Int.ofNat n) (max s.pwr.clk 1)

/-! ## Scrub and handover (R341, R473) -/

/-- Units of every local store of a ped-2 are zeroed, and their poison with them. -/
def scrubUnits (p base size : Nat) (s : State) : State :=
  { s with phys := s.phys.map (fun e =>
      if e.1 / 256 = p then (e.1, { e.2 with
        ls := memClear (base * 16384) (size * 16384) e.2.ls
        poison := e.2.poison.filter (fun w => w < base * 512 || (base + size) * 512 ≤ w) }) else e) }

/-- The live values of ped-2 p, in the order of the sums. -/
def liveSums (s : State) (p : Nat) : List W64 :=
  let d := ped2Of s p
  let gs := (s.grains.map (·.2)).filter (fun gr => gr.ped2 == p && d.holder == some gr.ctx)
  (List.range 8).map (fun k => gs.foldl (fun (a : W64) gr => a + BitVec.ofNat 64 (gr.stall.getD k 0)) 0) ++
    (List.range 16).map (fun i => d.ctr.getD i 0) ++
    [BitVec.ofNat 64 d.latebar, BitVec.ofNat 64 d.latemax, BitVec.ofNat 64 d.refused]

/-- Sums of two sets of values; LATEMAX by maximum. -/
def addSums (a b : List W64) : List W64 :=
  (List.range 27).map (fun i =>
    let x := a.getD i 0
    let y := b.getD i 0
    if i = 25 then (if x.toNat < y.toNat then y else x) else x + y)

/-- R473, R341: ped-2 p changes from the context it was last leased to: that context's live counters join its sums, and
its grains are cleared. -/
def handover (p ctx : Nat) (s : State) : State :=
  let d := ped2Of s p
  if d.holder = some ctx then s
  else
    let live := liveSums s p
    let s := match d.holder with
      | some y => updCtx y (fun c => { c with pmc := { c.pmc with
          sums := nmUpdD p sums0 (fun l => addSums l live) c.pmc.sums } }) s
      | none => s
    let s := updPed2 p (fun d => { d with
      holder := some ctx, ctr := [], prev := [], latebar := 0, latemax := 0, refused := 0 }) s
    { s with grains := s.grains.filter (fun e => !(e.2.ped2 == p)) }

/-! ## Residency (R333, R334, R338, R343, R494) -/

def isDeep (s : State) (ctx : Nat) : Bool := match ctxOf s ctx with | some c => c.deep | none => false

/-- The residents of a ped-2. -/
def residents (s : State) (p : Nat) : List LsPart := (ped2Of s p).slots.map (·.2)

def unitsFree (l : List LsPart) (b n : Nat) : Bool :=
  b + n ≤ 6 && l.all (fun x => b + n ≤ x.base || x.base + x.size ≤ b)

/-- The lowest BASE at which n free units lie. -/
def lowestBase (l : List LsPart) (n : Nat) : Option Nat := (List.range 6).find? (fun b => unitsFree l b n)

/-- R338, R494: the deep residents that yield, least recently leased first, until a slot and n units in one run are
free. -/
def yielding (s : State) (n : Nat) : List LsPart → List LsPart → List Nat
  | [], _ => []
  | x :: rest, l =>
    if l.length < 4 && (lowestBase l n).isSome then []
    else x.ctx :: yielding s n rest (l.filter (fun y => y.ctx != x.ctx))

def insertLru (x : LsPart) : List LsPart → List LsPart
  | [] => [x]
  | y :: r => if x.lastUs < y.lastUs then x :: y :: r else y :: insertLru x r

def insertBase (x : LsPart) : List LsPart → List LsPart
  | [] => [x]
  | y :: r => if x.base < y.base then x :: y :: r else y :: insertBase x r

/-- A unit range of every local store of a ped-2 moves, with its check bytes and poison (R494). -/
def moveUnits (p base n dest : Nat) (s : State) : State :=
  if base = dest then s
  else { s with phys := s.phys.map (fun e =>
    if e.1 / 256 = p then (e.1,
      let data := memMove (base * 16384) (n * 16384) (dest * 16384) e.2.ls
      let bad := (e.2.poison.filter (fun w => base * 512 ≤ w && w < (base + n) * 512)).map (fun w => w - base * 512 + dest * 512)
      { e.2 with
        ls := data.foldl (fun m b => memSet b.1 b.2 m)
          (memClear (dest * 16384) (n * 16384) (memClear (base * 16384) (n * 16384) e.2.ls))
        poison := e.2.poison.filter (fun w => !(base * 512 ≤ w && w < (base + n) * 512) &&
          !(dest * 512 ≤ w && w < (dest + n) * 512)) ++ bad }) else e) }

def setPart (p : Nat) (x : LsPart) (s : State) : State :=
  updPed2 p (fun d => { d with slots := d.slots.map (fun e => if e.2.ctx = x.ctx then (e.1, x) else e) }) s

/-- R494: each shallow resident, in ascending BASE, goes to the lowest free BASE at or below its present one. -/
def relocate (p : Nat) (s : State) : State :=
  let order := ((residents s p).filter (fun x => !(isDeep s x.ctx))).foldl (fun l x => insertBase x l) []
  order.foldl (fun s x =>
    let others := (residents s p).filter (fun y => y.ctx != x.ctx)
    match lowestBase others x.size with
    | some b => if b < x.base then setPart p { x with base := b } (moveUnits p x.base x.size b s) else s
    | none => s) s

/-- R333: the lowest free slot. -/
def freeResSlot (d : Ped2) : Nat := ((List.range 4).find? (fun i => (nmGet d.slots i).isNone)).getD 3

/-- Read from the spec by inference: DEDUCED (log 48). -/
def areaOf (s : State) (ctx p : Nat) : Option SaveArea := s.saves.find? (fun a => a.ctx == ctx && a.ped2 == p)

/-- Once nothing waits to be saved, the context that leases ped-2 p is granted its residency there, and is restored from
its save area if it has one that holds a save (R333, R342). -/
def grantResidency (p : Nat) (s : State) : State :=
  let d := ped2Of s p
  match d.lease with
  | none => s
  | some l =>
    if d.saving ≠ [] || (lsPartOf s p l.ctx).isSome then s
    else match ctxOf s l.ctx with
      | none => s
      | some c =>
        let s := if (lowestBase (residents s p) c.rsize).isSome then s else relocate p s
        match lowestBase (residents s p) c.rsize with
        | none => s
        | some b =>
          let back : Bool := match areaOf s l.ctx p with | some a => a.saved | none => false
          updPed2 p (fun d => { d with
            slots := nmSet (freeResSlot d) { ctx := l.ctx, base := b, size := c.rsize, cache := 0, lastUs := s.clk.wallUs } d.slots
            restoring := back }) s

/-- A residency ends: its units are scrubbed and its slot is free. -/
def dropResidency (ctx p : Nat) (s : State) : State :=
  let s := match lsPartOf s p ctx with
    | some x => scrubUnits p x.base x.size s
    | none => s
  updPed2 p (fun d => { d with slots := d.slots.filter (fun e => e.2.ctx != ctx), saving := del ctx d.saving }) s

/-- R199: what a 64 KiB frame takes of stack c, in 1/48 of a frame: all of it NEAR, 1/12 QUAD, 1/48 WIDE. -/
def stackShare (spread home c : Nat) : Nat :=
  if spread = 0 then (if home = c then 48 else 0) else if spread = 1 then (if quadOf c = home then 4 else 0) else 1

/-- The frames of HZ1 that do not lie WIDE: how many, with their SPREAD and HOME: homes and promoted copies of objects,
and save areas on their ped-2's own stack. -/
def narrowFrames (s : State) : List (Nat × Nat × Nat) :=
  (s.hz.objs.filter (fun o => o.spread != 2)).map (fun o =>
    ((o.gran.filter (fun g => g.hzn == 1)).length + (o.gran.filter (·.promo)).length, o.spread, o.home)) ++
  (s.saves.filter (fun a => a.horizon == 1)).map (fun a => (a.frames.length, 0, dieOfPed2 a.ped2))

/-- Stack c has room for n frames NEAR. Every other frame that is taken, the scale banks' among them (R117), lies WIDE.
DEDUCED (log 48). -/
def stackRoom (s : State) (c n : Nat) : Bool :=
  let taken := s.hz.used1.length + (s.hz.retFrames.filter (fun e => e.1 == 1)).length + tableFrames s
  let narrow := narrowFrames s
  let load := narrow.foldl (fun t e => t + e.1 * stackShare e.2.1 e.2.2 c) (taken - sumNat (narrow.map (·.1)))
  load + 48 * n ≤ 48 * 1048576

/-- R343: a save area on ped-2 p: HZ1 frames of its own stack NEAR, else HZ2, else HZ1 frames of any stack WIDE; none where
none has the frames. DEDUCED (log 48). -/
def reserveArea (ctx rsize p : Nat) (s : State) : Option State :=
  if (areaOf s ctx p).isSome then some s
  else
    let n := ceilDiv (rsize * 250 * 16384) 65536
    let take (hzn kind : Nat) : State :=
      let r := (List.range n).foldl (fun (a : List Nat × State) _ => let x := allocFrame hzn a.2; (a.1 ++ [x.1], x.2)) ([], s)
      { r.2 with saves := r.2.saves ++ [{ ctx := ctx, ped2 := p, horizon := kind, frames := r.1, saved := false,
                                           data := [], bad := [] }] }
    if n ≤ freeFrames s 1 && stackRoom s (dieOfPed2 p) n then some (take 1 1)
    else if n ≤ freeFrames s 2 then some (take 2 2)
    else if n ≤ freeFrames s 1 then some (take 1 3)
    else none

def reserveAreas (ctx rsize : Nat) : List Nat → State → Option State
  | [], s => some s
  | p :: r, s => (reserveArea ctx rsize p s).bind (reserveAreas ctx rsize r)

/-- A context's save areas are freed with it. -/
def freeAreas (ctx : Nat) (s : State) : State :=
  let s := (s.saves.filter (fun a => a.ctx == ctx)).foldl (fun s a =>
    a.frames.foldl (fun s f => freeFrame (if a.horizon = 2 then 2 else 1) f s) s) s
  { s with saves := s.saves.filter (fun a => a.ctx != ctx) }

/-! ## Leases (R335, R338, R339, R342) -/

/-- R394: what a die's leases make of its state. -/
def settleDie (c : Nat) (s : State) : State :=
  let leased := (List.range 25).any (fun i => (ped2Of s (c * 25 + i)).lease.isSome)
  { s with pwr := { s.pwr with dies := nmUpd c (fun d =>
      if leased then (if d.dstate = .idle then { d with dstate := .active } else d)
      else if d.dstate = .active then { d with dstate := .idle, idleSince := s.clk.wallUs } else d) s.pwr.dies } }

/-- R416: a lease stops a background piece, and the units that it wrote are scrubbed. -/
def stopPiece (p : Nat) (s : State) : State :=
  if !(ped2Of s p).bgRunning then s
  else
    let s := (List.range 6).foldl (fun s u => if unitsFree (residents s p) u 1 then scrubUnits p u 1 s else s) s
    updPed2 p (fun d => { d with bgRunning := false }) s

/-- Ped-2 p is leased to the context: the switch into it begins. -/
def leasePed2 (ctx rsize p : Nat) (s : State) : State :=
  let s := handover p ctx (stopPiece p s)
  let s := updPed2 p (fun d => { d with
    lease := some { ctx := ctx, startUs := s.clk.wallUs }, reserved := none
    holdTill := d.holdTill.filter (fun t => decide (s.clk.pcc.toNat < t.toNat)) }) s
  let s := match lsPartOf s p ctx with
    | some x => setPart p { x with lastUs := s.clk.wallUs } s
    | none =>
      let deep := ((residents s p).filter (fun x => isDeep s x.ctx)).foldl (fun l x => insertLru x l) []
      let out := yielding s rsize deep (residents s p)
      grantResidency p (updPed2 p (fun d => { d with saving := out.foldl (fun l x => addOnce x l) d.saving }) s)
  settleDie (dieOfPed2 p) s

/-- A lease ends. -/
def releasePed2 (p : Nat) (s : State) : State :=
  settleDie (dieOfPed2 p) (updPed2 p (fun d => { d with lease := none, restoring := false, gated := gateAll s, prewake := [] }) s)

/-- R417: an intrusive test is pending or running on ped-2 p. -/
def underTest (s : State) (p : Nat) : Bool := s.test.intrusive.any (fun x => decide (p ∈ x.2.1))

/-- The context may take ped-2 p now: in service, free, not under a spare check or an intrusive test, and not reserved
for another. -/
def ped2Free (s : State) (p : Nat) : Bool :=
  let d := ped2Of s p
  ped2InService s p && d.lease.isNone && d.checks == [] &&
    !(underTest s p)

/-- R338: the time by which the ped-2s of a footprint are free, as declared lengths tell it. -/
def readyAt (s : State) (fp : List Nat) : Rat :=
  fp.foldl (fun t p =>
    match (ped2Of s p).lease with
    | none => t
    | some l =>
      let left := match segOf s l.ctx with
        | some r => r.d.length - segGc s r
        | none => match (ctxOf s l.ctx).bind (nextSeg s) with | some x => x.2.2.2.length | none => 0
      max t (s.clk.wallUs + gcUs s left)) s.clk.wallUs

/-- R36, R32: the segment uses a ped that has been retired. -/
def segDegraded (s : State) (ctx : Nat) (d : SegD) : Bool :=
  let gone (a : W32) : Bool := match pedOf s ctx a with
    | .error .unassigned => true
    | _ => false
  d.progs.any (fun p => !(ped2InService s p.ped2) || p.streams.any (fun t => match t with | some t => gone t.home | none => false)) ||
    d.bars.any (fun b => gone b.ped) || d.xfers.any (fun x => gone x.ped)

/-- R329: the footprint holds no more grains than LIMIT allows. -/
def limitOk (s : State) (c : Ctx) (d : SegD) : Bool := c.limitF == 0 || footGrains d * 256 ≤ c.limitF * enabledGrains s

/-- Read from the spec by inference: DEDUCED (log 47). -/
def domainOk (s : State) (c : Ctx) (d : SegD) : Bool := (footprint d).all (fun p => p ∈ domainOf s c)

/-- R338: contexts that wait for a lease, first choice first. DEDUCED (log 47). -/
def before (a b : Ctx) : Bool :=
  let pa := decide (0 ≤ a.deficit)
  let pb := decide (0 ≤ b.deficit)
  if pa != pb then pa else b.deficit < a.deficit || (a.deficit == b.deficit && a.num < b.num)

def insertCand (x : Ctx) : List Ctx → List Ctx
  | [] => [x]
  | y :: r => if before x y then x :: y :: r else y :: insertCand x r

/-- R36: the SEG_RUNs of a context whose next segment cannot run complete, oldest first, up to one that can. -/
def cleanRuns (ctx : Nat) : Nat → State → State
  | 0, s => s
  | n + 1, s =>
    match ctxOf s ctx with
    | none => s
    | some c =>
      match c.st, nextSeg s c with
      | .ready, some (_, _, _, d) =>
        if segDegraded s ctx d then cleanRuns ctx n (endRun ctx stDEGRADED c.step s) else s
      | _, _ => s

/-- Every SEG_RUN whose next segment cannot run completes before a decision is taken. -/
def cleanRun (s : State) (c : Ctx) : State := cleanRuns c.num c.runs.length s

/-- The lease of a footprint: save areas first (R343), then each ped-2. -/
def leaseAll (c : Ctx) (d : SegD) (s : State) : State :=
  let s := updCtx c.num (fun c => { c with deep := c.deepNext }) s
  -- R343: a context that turns deep reserves its areas on every ped-2 where it is resident
  let held := (s.ped2s.map (·.1)).filter (fun p => (lsPartOf s p c.num).isSome && !(p ∈ footprint d))
  let areas := if c.deepNext then reserveAreas c.num c.rsize (footprint d ++ held) s else some s
  match areas with
  | none => endRun c.num stNO_RESOURCE c.step s
  | some s =>
    let s := (footprint d).foldl (fun s p => leasePed2 c.num c.rsize p s) s
    resumeLease c.num (updCtx c.num (fun c => { c with
      st := .running, draining := false, runStart := some s.clk.wallUs }) s)

/-- One pass over the contexts that wait. `blocked`: a context before this one has reserved what is free.
DEDUCED (log 47). -/
def decideEach : List Nat → Bool → State → State
  | [], _, s => s
  | x :: rest, blocked, s =>
    match ctxOf s x with
    | none => decideEach rest blocked s
    | some c =>
      match nextSeg s c with
      | none => decideEach rest blocked s
      | some (_, _, _, d) =>
        let fp := footprint d
        let ends := s.clk.wallUs + gcUs s d.length
        let mine (p : Nat) : Bool := match (ped2Of s p).reserved with
          | none => true
          | some y => y == x || (match (ctxOf s y).bind (nextSeg s) with
              | some z => ends ≤ readyAt s (footprint z.2.2.2)
              | none => true)
        if fp.all (fun p => ped2Free s p && mine p) then decideEach rest blocked (leaseAll c d s)
        else if blocked then decideEach rest true s
        else
          let s := fp.foldl (fun s p =>
            if ped2Free s p && (ped2Of s p).reserved.isNone then updPed2 p (fun q => { q with reserved := some x }) s else s) s
          decideEach rest true s

/-- R338: each decision reserves anew, for the context that is first then. -/
def dropReserved (s : State) : State :=
  { s with ped2s := s.ped2s.map (fun e => (e.1, { e.2 with reserved := none })) }

/-- R417: a free ped-2 of an intrusive test is leased to context 0; its deep residents are to be saved. -/
def claimPed2 (p : Nat) (s : State) : State :=
  let d := ped2Of s p
  if d.lease.isSome || d.checks ≠ [] || !(ped2InService s p) then s
  else
    let s := handover p 0 (stopPiece p s)
    let deep := (residents s p).filter (fun x => isDeep s x.ctx)
    settleDie (dieOfPed2 p) (updPed2 p (fun d => { d with
      lease := some { ctx := 0, startUs := s.clk.wallUs }, reserved := none
      saving := deep.foldl (fun l x => addOnce x.ctx l) d.saving }) s)

/-- R417: pending tests take their ped-2s before any context, and begin once they hold them all. DEDUCED (log 58). -/
def claimTests (s : State) : State :=
  let s := s.test.intrusive.foldl (fun s x => x.2.1.foldl (fun s p => claimPed2 p s) s) s
  let on (x : Nat × List Nat × Bool) : Nat × List Nat × Bool :=
    (x.1, x.2.1, x.2.2 || x.2.1.all (fun p => leasedTo s 0 p || !(ped2InService s p)))
  { s with test := { s.test with intrusive := s.test.intrusive.map on } }

/-- SCHEDULING_DECISION (R338). -/
def decideLeases (s : State) : State :=
  let s := takeShares (earn (claimTests s))
  let s := dropReserved ((s.ctxs.map (·.2)).foldl cleanRun s)
  let cands := (s.ctxs.map (·.2)).filter (fun c =>
    c.st == .ready && (match nextSeg s c with
      | some x => domainOk s c x.2.2.2 && limitOk s c x.2.2.2
      | none => false))
  decideEach ((cands.foldl (fun l c => insertCand c l) []).map (·.num)) false s

end Sys2Proof.Machine
end

