-- ==== Sys2Proof/Machine/Segments.lean ====
section
/-! DEFINITION. Segments (R162-R168): their start and end, the watchdog (R347), hub transfers, deep saves and restores
(R343), the fabric drain (R345), and the states of a C-die's clock (R394). -/

namespace Sys2Proof.Machine

open Sys2Proof

/-! ## Changes that wait for a segment boundary (R104, R132, R183, R468, R477) -/

/-- Read from the spec by inference: DEDUCED (log 50). -/
def takeNumCtl (n : NumCtl) : NumCtl :=
  let moved := n.size ≠ n.sizeF || n.ring ≠ n.ringF
  { n with enF := n.en, ftzF := n.ftz, sizeF := n.size, ringF := n.ring
           head := if moved then 0 else n.head, tail := if moved then 0 else n.tail }

/-- Read from the spec by inference: DEDUCED (log 50). -/
def takeSampling (m : Pmc) : Pmc :=
  match m.smpNext with
  | none => m
  | some (h, size, en, period) =>
    { m with smpHandle := h, smpSize := size, smpEn := en, smpPeriod := period, smpHead := 0, smpTail := 0, smpNext := none }

/-- R468: new selectors; the counters that they replace restart at 0 in the context's sums and on its ped-2s.
DEDUCED (log 50). -/
def takeSelectors (ctx : Nat) (s : State) : State :=
  match ctxOf s ctx with
  | none => s
  | some c =>
    let is := c.pmc.selNext.map (·.1)
    let zero (l : List W64) (off : Nat) : List W64 :=
      (List.range l.length).map (fun i => if off ≤ i && i - off ∈ is && i - off < 16 then 0 else l.getD i 0)
    let s := updCtx ctx (fun c => { c with pmc := { c.pmc with
      sel := (List.range 16).map (fun i => (nmGet c.pmc.selNext i).getD (c.pmc.sel.getD i 0))
      selNext := [], scope := c.pmc.scopeNext.getD c.pmc.scope, scopeNext := none
      sums := if is = [] then c.pmc.sums else c.pmc.sums.map (fun e => (e.1, zero e.2 8)) } }) s
    if is = [] then s
    else { s with ped2s := s.ped2s.map (fun e =>
      if e.2.holder = some ctx then (e.1, { e.2 with ctr := zero e.2.ctr 0 }) else e) }

/-- Everything that takes effect at the context's next segment boundary. DEDUCED (log 50). -/
def takeBoundary (ctx : Nat) (s : State) : State :=
  takeSelectors ctx (updCtx ctx (fun c => { c with
    num_ := takeNumCtl c.num_, spec := { c.spec with enF := c.spec.en }, pmc := takeSampling c.pmc }) s)

/-- R104: PWR_BALLAST takes effect at each C-die's next segment boundary. DEDUCED (log 50). -/
def takeBallast (fp : List Nat) (s : State) : State :=
  { s with pwr := { s.pwr with
      ballastDie := fp.foldl (fun m p => nmSet (dieOfPed2 p) s.pwr.ballast m) s.pwr.ballastDie } }

/-! ## Starting (R162) -/

/-- R138: the format of a view whose SCALE names a CHOOSE entry. -/
def loadView (b : NatMap ScaleEnt) (v : View) : View :=
  let e := scaleEntOf b v.scale
  if e.policy = 2 then { v with fmt := e.cfmt } else v

/-- R152: the views whose bytes this segment keeps: its own checked views, or those of the regrow segments that name it
as their source. -/
def keptViews (p : Plan) (n : Nat) (d : SegD) : List (Nat × Nat) :=
  (if d.regrow then d.chks else []) ++
    (p.segs.filter (fun x => x.regrow && x.source == n)).flatMap (·.chks)

def thrNew (st : Option Stream) (off : Bool) : Thr :=
  { st := if off || st.isNone then .off else .ready, stream := if off then none else st, pos := 0, bufs := [], reqd := [],
    spec := .none, task := none, heldSig := [], guards := [], clod := none, redo := [], redoTill := 0, charged := [],
    cause := 0 }

/-- A grain at gc 0: rows closed, no weights, no retry point (R77, R83, R90). The sampler's count starts at the rank
modulo PERIOD (R477). -/
def grainNew (ctx p k period : Nat) (x : Prog) (old : Option Grain) : Grain :=
  { ctx := ctx, ped2 := p, rank := k
    thr := (List.range 8).map (fun t => (t, thrNew ((x.streams.getD t none)) (x.paired && 2 ≤ t)))
    out := [], acc := [], active := none, shadow := none, loading := none, arrT := none, arrLog := [], retry := []
    bal := none, gated := false, fifos := [0, 0, 0, 0], samples := []
    issued := if period = 0 then 0 else k % period
    stall := match old with | some g => g.stall | none => List.replicate 8 0
    engGc := [] }

/-- R52: the first burst of a stream is in its buffer at gc 0: from HZ1 as the die hub has read it, from the scratchpad as
it stands. -/
def loadFirst (g t : Nat) (s : State) : State :=
  match (nmGet s.grains g).bind (fun gr => (nmGet gr.thr t).bind (fun th => th.stream.map (fun st => (gr, st)))) with
  | none => s
  | some (gr, st) =>
    if !(burstExists s gr.ctx g st 0) then s
    else
      let got := ((ctxOf s gr.ctx).bind (·.first)).bind (fun f =>
        f.got.find? (fun e => e.1 == logicalId gr.ped2 0 && e.2.1 == t))
      let d := match got with
        | some e => e.2.2
        | none => burstBytes s gr.ctx g st 0
      let s := updThr g t (fun th => { th with bufs := nmSet 0 d.1 th.bufs }) s
      if d.2 then
        segStatus gr.ctx stSTEP_LOST
          (consumePoison gr.ctx g (if st.handle = 0 then 0 else 1) 2 st.handle st.off 0 s)
      else s

/-- R52, R206: each die hub asks for the first burst of every stream of its ped-2s that lies in HZ1, one request for the
250 grains of a ped-2. DESIGN CHOICE (log 119). -/
def askFirst (ctx cid n : Nat) (d : SegD) (s : State) : State :=
  let s := updHz (fun h => { h with reqs := h.reqs.filter (fun q => !(q.ctx == ctx && (match q.kind with | .first _ => true | _ => false))) })
    (updCtx ctx (fun c => { c with first := some { cid := cid, seg := n, got := [] } }) s)
  d.progs.foldl (fun s x => (List.range 8).foldl (fun s t =>
    match x.streams.getD t none with
    | none => s
    | some st =>
      if st.handle = 0 || (x.paired && 2 ≤ t) then s
      else match ownObj s ctx st.handle with
        | some o => if st.off + 256 ≤ o.size then
            addReqAt (dieOfPed2 x.ped2) ctx (logicalId x.ped2 0) 0 o st.off [st.off] (.first t) none 0 s else s
        | none => s) s) s

/-- The first bursts of the segment are in. -/
def firstIn (s : State) (ctx cid n : Nat) : Bool :=
  (match (ctxOf s ctx).bind (·.first) with | some f => f.cid == cid && f.seg == n | none => false) &&
    !(s.hz.reqs.any (fun q => q.ctx == ctx && (match q.kind with | .first _ => true | _ => false)))

/-- The threads of one ped-2 are released. -/
def startPed2 (ctx period : Nat) (x : Prog) (s : State) : State :=
  let p := x.ped2
  let s := match lsPartOf s p ctx with
    | some l => setPart p { l with cache := x.cache } s
    | none => s
  let s := updPed2 p (fun d => { d with wheels := x.wheels, paired := x.paired, gated := [], prewake := [] }) s
  let clean (e : Nat × Phys) : Nat × Phys :=
    if e.1 / 256 = p then (e.1, { e.2 with lines := e.2.lines.filter (fun l => l.ctx != ctx) }) else e
  let s := { s with
    phys := s.phys.map clean
    grains := (List.range 250).foldl (fun (m : NatMap Grain) k =>
      nmSet (logicalId p k) (grainNew ctx p k period x (nmGet s.grains (logicalId p k))) m) s.grains }
  (List.range 250).foldl (fun s k =>
    settle (logicalId p k) ((List.range 8).foldl (fun s t => loadFirst (logicalId p k) t s) s)) s

/-- R195: before gc 0 each die hub of the footprint loads the object entries of the handles that its ped-2s' views and
streams name, and those of the hub transfers. -/
def loadEntries (d : SegD) (s : State) : State :=
  d.progs.foldl (fun s x =>
    let hs := x.views.map (·.handle) ++ x.streams.filterMap (fun t => t.map (·.handle)) ++ d.xfers.map (·.handle)
    (hs.foldl (fun l h => if h = 0 then l else addOnce h l) []).foldl (fun s h =>
      if (objOf s h).isSome then xlatObj (dieOfPed2 x.ped2) h s else s) s) s

/-- The switch into ped-2 p is over: nothing is being saved or restored there, and its die is clocked. -/
def ped2Ready (s : State) (ctx p : Nat) : Bool :=
  let d := ped2Of s p
  leasedTo s ctx p && d.saving == [] && !d.restoring && d.checks == [] && (lsPartOf s p ctx).isSome &&
    (match nmGet s.pwr.dies (dieOfPed2 p) with | some x => x.dstate == .active | none => true)

/-- R182: speculation is active in the context's segments. -/
def specOn (c : Ctx) : Bool := c.spec.enF && c.sec.rerunTill.isNone && c.sec.replayCid.isNone

/-- R120: at a step boundary the plan that runs next writes SCALE of its FIXED entries. DEDUCED (log 79). -/
def fixScales (pl : Plan) (b : NatMap ScaleEnt) : NatMap ScaleEnt :=
  pl.fixed.foldl (fun b e => if (scaleEntOf b e.1).policy = 0 then
    nmUpdD e.1 scaleDefault (fun x => { x with scale := e.2 }) b else b) b

/-- R165, R159, R354: the first segment of a step fixes its seed and opens its strata entry. A plan's first segment
begins a step (`first`), as does the segment after a LAST one. -/
def openStep (ctx : Nat) (first : Bool) (pl : Plan) (seed : Option W64) (s : State) : State :=
  match ctxOf s ctx with
  | none => s
  | some c =>
    if !(c.stepFresh || first || seed.isSome) then s
    else
      let sd := match logEntry s ctx with
        | some e => e.seed
        | none => seed.getD c.stepSeed
      let rerun := c.sec.rerunTill.isSome || c.sec.replayCid.isSome
      updCtx ctx (fun c => { c with
        stepFresh := false, stepSeed := sd, bank := if c.stepFresh then fixScales pl c.bank else c.bank
        sec := { c.sec with cur := entryNew c.step sd s.clk.pcc c.sec.rjob rerun } }) s

/-- Gc 0 of segment n of the plan, which the SEG_RUN reaches. -/
def startSegment (ctx : Nat) (r : SegRun) (pl : Plan) (n : Nat) (d : SegD) (s : State) : State :=
  let fp := footprint d
  let s := takeBallast fp (takeBoundary ctx s)
  let s := openStep ctx (n = 0) pl (if r.ended = 0 then r.seed else none) s
  match ctxOf s ctx with
  | none => s
  | some c =>
    let d := { d with progs := d.progs.map (fun x => { x with views := x.views.map (loadView c.bank) }) }
    let keys := (keptViews pl n d).flatMap (fun e =>
      if e.1 ∈ fp then (List.range 250).map (fun k => (e.1 * 256 + e.2, logicalId e.1 k, ([] : NatMap Byte))) else [])
    let lease := match (ped2Of s (fp.headD 0)).lease with | some l => l.startUs | none => s.clk.wallUs
    let seg : RunSeg :=
      { ctx := ctx, cid := r.cid, plan := r.plan, seg := n, d := d, gc0 := s.clk.pcc, leaseUs := lease
        runUs := c.runStart.getD lease, grains := footGrains d, dueUs := none
        bars := d.bars.map (fun _ => { arrived := [], done := false })
        xfers := d.xfers.map (fun _ => { started := false, done := false, stale := [], frames := [], bad := false })
        stop := none, status := none, specActive := specOn c, rsem := [], chkBytes := keys }
    let s := { s with segs := s.segs ++ [seg] }
    let s := updCtx ctx (fun c => { c with
      spec := { c.spec with active := specOn c }, heldSigs := []
      runs := updWhere (fun x => x.cid == r.cid) (fun x => { x with
        firstGc0 := match x.firstGc0 with | some g => some g | none => some s.clk.pcc }) c.runs
      sec := { c.sec with cur := { c.sec.cur with nseg := c.sec.cur.nseg + 1 } } }) s
    let s := d.progs.foldl (fun s x => startPed2 ctx c.pmc.smpPeriod x s) (loadEntries d s)
    let s := updCtx ctx (fun c => { c with first := none }) s
    c.heldSigs.foldl (fun s e => semAdd ctx e.1 e.2.1 e.2.2 (logicalId (fp.headD 0) 0) s) s

/-! ## Ending (R163) -/

def segGrains (s : State) (ctx : Nat) : List (Nat × Grain) := s.grains.filter (fun e => e.2.ctx == ctx && e.2.thr != [])

/-- R163: every hub transfer that writes to grains has completed. -/
def xfersIn (r : RunSeg) : Bool := (List.zip r.xfers r.d.xfers).all (fun e => e.1.done || e.2.kind != 0)

/-- Requests that a segment's end leaves alone: those of copies, of remote packages, of a host and of translation
caches. -/
def outlives : ReqKind → Bool
  | .copy (.xfer _ _) _ _ => false
  | .copy _ _ _ => true
  | .window _ _ _ => true
  | .entry _ => true
  | .aper _ _ _ => true
  | _ => false

/-- R62, R163: lines of the context are still on their way back. -/
def backsOut (s : State) (ctx : Nat) : Bool :=
  s.hz.reqs.any (fun q => q.ctx == ctx && (match q.kind with | .back _ _ => true | _ => false)) ||
    s.phys.any (fun e => lanesWait s e.1 (fun x => x.ctx == ctx && (match x.why with | .back _ => true | _ => false)))

/-- R163: the segment may end: at gc LENGTH or later with its end barrier complete, or stopped with every write
acknowledged or discarded. -/
def segOver (s : State) (r : RunSeg) : Bool :=
  if r.stop.isSome then
    !(s.hz.reqs.any (fun q => q.ctx == r.ctx && !(isRead q.kind) && !(outlives q.kind))) && !(backsOut s r.ctx) &&
      !(s.fab.wreqs.any (fun q => !q.isGet && !q.dead && (match nmGet s.grains q.g with | some gr => gr.ctx == r.ctx | none => false)))
  else
    r.d.length ≤ segGc s r && xfersIn r && (segGrains s r.ctx).all (fun e => grainDone e.2) && !(backsOut s r.ctx)

/-- R152: the digests of the views that the segment kept, compared with the source's in a regrow segment. The source's
are held until the last regrow segment of the plan that names it has ended. A view for which the source
holds no digest is compared with nothing; the spec does not say. DESIGN CHOICE (log 123). -/
def checkRegrow (r : RunSeg) (s : State) : State :=
  let digs := r.chkBytes.map (fun e => (e.1, e.2.1, crc64 (e.2.2.map (·.2))))
  let named (n from_ : Nat) : Bool := match (ctxOf s r.ctx).bind (fun c => planOf c r.plan) with
    | some p => (List.zip p.segs (List.range p.segs.length)).any (fun e => e.1.regrow && e.1.source == n && from_ ≤ e.2)
    | none => false
  let keep (s : State) : State := updCtx r.ctx (fun c => { c with
    srcDig := c.srcDig.filter (fun y => y.1 != r.seg) ++
      (if named r.seg 0 then digs.map (fun x => (r.seg, x.1, x.2.1, x.2.2)) else []) }) s
  if r.d.regrow then
    let own := digs.filter (fun x => (x.1 / 256, x.1 % 256) ∈ r.d.chks)
    let src (x : Nat × Nat × W64) : Option W64 := (ctxOf s r.ctx).bind (fun c =>
      (c.srcDig.find? (fun y => y.1 == r.d.source && y.2.1 == x.1 && y.2.2.1 == x.2.1)).map (·.2.2.2))
    let s := own.foldl (fun s x =>
      match src x with
      | some y =>
        if y = x.2.2 then s
        else segStatus r.ctx stSTEP_LOST (postRec 0x0A 2 (some r.ctx) (dieOfPed2 (logicalPed2 x.2.1)) x.2.1
          [(0, 1, x.1 % 256), (2, 2, r.seg), (4, 2, r.d.source), (8, 8, y.toNat), (16, 8, x.2.2.toNat)] s)
      | none => s) s
    let s := if named r.d.source (r.seg + 1) then s
      else updCtx r.ctx (fun c => { c with srcDig := c.srcDig.filter (fun y => y.1 != r.d.source) }) s
    keep s
  else keep s

/-- R344: semaphores that a remote package raised in the segment are released. -/
def releaseShared (r : RunSeg) (s : State) : State :=
  r.rsem.foldl (fun s e =>
    match ctxOf s r.ctx with
    | none => s
    | some c =>
      let v := semVal c e.1 e.2
      if v = 0 then s
      else postRec 0x0C 1 (some r.ctx) 0xFF 0xFFFFFFFF [(0, 4, e.1.toNat), (4, 1, e.2), (6, 2, v)]
        (updCtx r.ctx (semPut e.1 e.2 0) s)) s

/-- A KIND 1 transfer that has not completed is given up with its segment, and its frames are free again. The spec does
not say what becomes of it. DESIGN CHOICE (log 88). -/
def dropXfers (ctx : Nat) (s : State) : State :=
  match segOf s ctx with
  | none => s
  | some r =>
    let s := (List.zip r.xfers r.d.xfers).foldl (fun s e =>
      if e.1.done then s
      else e.1.frames.foldl (fun s f => freeFrame 1 f.2 s)
        (dropCopy e.2.handle (fun w => match w with | .xfer _ _ => true | _ => false) s)) s
    updSeg ctx (fun r => { r with xfers := r.xfers.map (fun x => { x with frames := [] }) }) s

/-- Threads, outstanding work, accumulators and requests of a context's grains end. -/
def clearWork (ctx : Nat) (s : State) : State :=
  { s with
    grains := s.grains.map (fun e => if e.2.ctx = ctx then (e.1, { e.2 with
      thr := [], out := [], acc := [], active := none, shadow := none, loading := none, arrT := none, arrLog := []
      retry := [], bal := none, gated := true, fifos := [0, 0, 0, 0], engGc := [] }) else e)
    gathers := s.gathers.filter (fun x => match nmGet s.grains x.g with | some gr => gr.ctx != ctx | none => false)
    hz := { s.hz with reqs := s.hz.reqs.filter (fun q => q.ctx != ctx || outlives q.kind || q.dead)
                      hz4Failed := s.hz.hz4Failed.filter (fun e => e.1 != ctx) }
    fab := { s.fab with wreqs := s.fab.wreqs.map (fun q =>
      match nmGet s.grains q.g with
      | some gr => if gr.ctx = ctx then { q with dead := true } else q
      | none => q) }
    phys := s.phys.map (fun e => (e.1, if (match s.grains.find? (fun g => g.2.ctx == ctx && g.2.ped2 == e.1 / 256) with
      | some _ => true | none => false) then { e.2 with
        replaying := false
        pend := e.2.pend.filter (fun x => x.ctx != ctx || (match x.why with | .access _ => true | _ => false)) } else e.2)) }

/-- What a segment leaves behind on its grains: samples go out, and everything else ends (R77, R479); a pool whose APPLY is
given up goes on (R244). -/
def clearGrains (ctx : Nat) (s : State) : State :=
  let s := (segGrains s ctx).foldl (fun s e => flushSamples e.1 s) (dropXfers ctx s)
  let s := clearWork ctx s
  (s.sieves.filter (fun t => sieveCtx t == ctx)).foldl (fun s t => settlePool t.idx s) s

/-- Wall time in 1/1,024 grain-microseconds. -/
def acctUnits (grains : Nat) (us : Rat) : Rat := us * mkRat (Int.ofNat (grains * 1024)) 1

/-- R338, R346, R348: the segment's lease is charged, with the debt that it ran up: the larger of the wall time since gc
LENGTH and, on the run's first segment and on one that overruns, of the slice excess. DEDUCED (log 38). -/
def charge (r : RunSeg) (s : State) : State :=
  let now := s.clk.wallUs
  let over_ := segGc s r - r.d.length
  let late := if over_ = 0 then 0 else match r.dueUs with | some t => now - t | none => gcUs s over_
  let slice := match ctxOf s r.ctx with | some c => mkRat (Int.ofNat c.sliceF) 1 | none => 0
  let excess := if r.runUs = r.leaseUs || over_ ≠ 0 then max 0 (now - (r.runUs + slice)) else 0
  let debt := max late excess
  updCtx r.ctx (fun c => { c with
    deficit := satDef (c.deficit - mkRat (Int.ofNat r.grains) 1000 * (now - r.leaseUs))
    acct := { c.acct with debt := c.acct.debt + acctUnits r.grains debt } }) s

/-- R338, R339: the context goes on with the same footprint, inside its slice. -/
def keepsLease (s : State) (ctx : Nat) (fp : List Nat) : Bool :=
  match ctxOf s ctx with
  | none => false
  | some c =>
    match nextSeg s c with
    | none => false
    | some (_, _, _, d) =>
      footprint d == fp && decide (0 ≤ c.deficit) && c.deepNext == c.deep && !(segDegraded s ctx d) && domainOk s c d &&
        limitOk s c d &&
        decide (s.clk.wallUs + gcUs s d.length ≤ c.runStart.getD s.clk.wallUs + mkRat (Int.ofNat c.sliceF) 1) &&
        fp.all (fun p => (ped2Of s p).checks == [] &&
          !(underTest s p))

/-- R345: the context has fabric traffic that must drain. -/
def mustDrain (s : State) (ctx : Nat) : Bool :=
  s.fab.insts.any (fun i => !i.done && (match nmGet s.fab.buckets i.tag with | some b => b.ctx == ctx | none => false)) ||
    (match ctxOf s ctx with | some c => c.sec.point.isSome | none => false)

/-- Leases that the context gives up, or keeps for its next segment. -/
def settleLease (ctx : Nat) (fp : List Nat) (s : State) : State :=
  if keepsLease s ctx fp then
    updCtx ctx (fun c => { c with st := .running })
      (fp.foldl (fun s p => updPed2 p (fun d => { d with lease := some { ctx := ctx, startUs := s.clk.wallUs } }) s) s)
  else
    let s := fp.foldl (fun s p => releasePed2 p s) s
    settleState ctx (updCtx ctx (fun c => { c with draining := mustDrain s ctx, runStart := none }) s)

/-- R379, R212, R213, R235, R248: what waits for the context's segment boundary. DEDUCED (log 40). -/
def boundaryWork (ctx : Nat) (s : State) : State :=
  admitHot ctx (mergeSwitch ctx (retireFrames ctx (settlePromos ctx (switchMoves ctx s))))

/-- R441: the ped-2s of the footprint take the new microcode at the first boundary at or after the stamp, or go back at
the first boundary of a revert. -/
def fwBoundary (fp : List Nat) (s : State) : State :=
  let due : Bool := match s.fw.stamp with | some t => t.toNat ≤ s.clk.pcc.toNat | none => false
  if s.fw.st = .switch && due then
    { s with fw := { s.fw with switched := fp.foldl (fun l p => addOnce p l) s.fw.switched } }
  else if s.fw.st = .revert then { s with fw := { s.fw with switched := s.fw.switched.filter (fun p => !(p ∈ fp)) } }
  else s

/-- The segment has ended: the SEG_RUN goes on, or completes. DEDUCED (log 40). -/
def afterSegment (r : RunSeg) (st : W16) (step : W64) (s : State) : State :=
  let s := updRun r.ctx r.cid (fun x => { x with
    ended := x.ended + 1, overrun := x.overrun + (segGc s r - r.d.length)
    status := match x.status with | some y => some y | none => if st = stOK then none else some st }) s
  match (ctxOf s r.ctx).bind (fun c => c.runs.head?) with
  | some x => if x.cid = r.cid && (st ≠ stOK || x.count ≤ x.ended) then endRun r.ctx st step s else s
  | none => s

/-! ## Boundary holds (R399) -/

/-- R399: at a segment boundary a hold in force keeps the next gc 0 of the footprint back, with every ped-1 gated. -/
def holdBoundary (fp : List Nat) (s : State) : State :=
  match s.pwr.hold with
  | none => s
  | some h =>
    let till := some (s.clk.pcc + BitVec.ofNat 64 h)
    fp.foldl (fun s p => updPed2 p (fun d => { d with holdTill := till, gated := gateAll s, prewake := [] }) s) s

/-- R399: a ped-2 is held back now. -/
def heldBack (s : State) (p : Nat) : Bool :=
  match (ped2Of s p).holdTill with
  | some t => decide (s.clk.pcc.toNat < t.toNat)
  | none => false

/-- R399: after a hold the lease begins with gc 0: the held time is part of no lease, and of no slice. DEDUCED (log 20). -/
def endHold (ctx : Nat) (fp : List Nat) (s : State) : State :=
  if fp.all (fun p => (ped2Of s p).holdTill.isNone) then s
  else
    let first := match (ped2Of s (fp.headD 0)).lease with | some l => l.startUs | none => s.clk.wallUs
    let s := updCtx ctx (fun c => { c with runStart := c.runStart.map (fun t => t + (s.clk.wallUs - first)) }) s
    fp.foldl (fun s p => updPed2 p (fun d => { d with
      holdTill := none, lease := some { ctx := ctx, startUs := s.clk.wallUs } }) s) s

/-- The whole work of a segment's end, at a boundary of the context. DEDUCED (log 40). -/
def endSegment (r : RunSeg) (s : State) : State :=
  let ctx := r.ctx
  let s := match segOf s ctx with
    | some r => if r.stop.isNone then checkRegrow r s else s
    | none => s
  let s := releaseShared r s
  let s := dropClods ctx s
  let s := clearGrains ctx s
  let s := if r.d.last then
      (match ctxOf s ctx with
        | some c => if c.sec.failStep then
            updCtx ctx (fun c => { c with sec := { c.sec with failStep := false } }) (segStatus ctx stSTEP_LOST s) else s
        | none => s)
    else s
  let st := ((segOf s ctx).bind (·.status)).getD stOK
  let step := match ctxOf s ctx with | some c => c.step | none => 0
  let s := if r.d.last then stepBoundary ctx st (sieveStepEnd ctx s) else s
  let s := charge r s
  let s := boundaryWork ctx s
  let s := fwBoundary (footprint r.d) (takeBallast (footprint r.d) (takeBoundary ctx s))
  let s := holdBoundary (footprint r.d) s
  let s := updCtx ctx (fun c => { c with spec := { c.spec with active := false } }) s
  let s := { s with segs := s.segs.filter (fun x => x.ctx != ctx) }
  afterSegment r st step s

/-- R360: gc 0 of a step's first segment is held until every buddy has acknowledged what the secure point at the end of
the step before has sent, and until a point that waits has begun. -/
def pointHolds (c : Ctx) : Bool := c.stepFresh && ((c.sec.point.isSome && !c.sec.acked) || c.sec.nextPoint.isSome)

/-- SEGMENT_START: gc 0 of the context's next segment, once its first bursts are in; they are asked for where that has not
been done. One that uses a retired ped completes its SEG_RUN with DEGRADED
instead, without running, and what it held is leased anew (R36). DEDUCED (log 111). -/
def doSegmentStart (ctx : Nat) (s : State) : State :=
  match ctxOf s ctx with
  | none => s
  | some c0 =>
    match nextSeg s c0 with
    | none => s
    | some (r, pl, n, d) =>
      let fp := footprint d
      if c0.st ≠ .running || (segOf s ctx).isSome || s.err.stopped.isSome || pointHolds c0 then s
      else if segDegraded s ctx d then
        decideLeases (settleLease ctx (fp.filter (leasedTo s ctx)) (endRun ctx stDEGRADED c0.step (earn s)))
      else if !(fp.all (ped2Ready s ctx)) || fp.any (heldBack s) then s
      else
        let asked := match c0.first with | some f => f.cid == r.cid && f.seg == n | none => false
        let s := if asked then s else askFirst ctx r.cid n d s
        if firstIn s ctx r.cid n then startSegment ctx r pl n d (endHold ctx fp s) else s

/-- SEGMENT_END. -/
def doSegmentEnd (ctx : Nat) (s : State) : State :=
  match segOf s ctx with
  | none => s
  | some r =>
    if s.err.stopped.isSome || !(segOver s r) then s
    else decideLeases (settleLease ctx (footprint r.d) (takeShares (settleFences ctx (endSegment r (earn s)))))

/-! ## The watchdog (R347) -/

/-- The code of R39. -/
def tstCode : TSt → Nat
  | .off => 0 | .ready => 1 | .waitFetch => 2 | .waitTime => 3 | .waitEngine => 4 | .waitWindow => 5 | .waitSync => 6
  | .done => 7 | .fault => 8

/-- The state of a thread as R39 defines it, from what it waits for. -/
def stateOf (s : State) (r : RunSeg) (x : Prog) (g : Nat) (gr : Grain) (t : Nat) (th : Thr) : TSt :=
  if th.st == .off || th.st == .done || th.st == .fault then th.st
  else match nextDesc s g gr th with
    | none => if (outOf gr t).any (fun o => blocking (dOp o.desc)) then .waitSync else .waitFetch
    | some d => match waitBefore s gr t th r x.paired d with
      | some w => w.1
      | none => if engineBusy s gr t r x.paired (engineOf (dOp d)) then .waitEngine else .ready

/-- A WATCHDOG record for one ped-2. -/
def watchdogRec (s0 : State) (r : RunSeg) (x : Prog) (s : State) : State :=
  let late := (segGrains s0 r.ctx).filter (fun e => e.2.ped2 == x.ped2 && !(grainDone e.2))
  match late with
  | [] => s
  | (g, gr) :: _ =>
    let states := (List.range 8).foldl (fun a t => a + (match nmGet gr.thr t with
      | some th => tstCode (stateOf s0 r x g gr t th)
      | none => 0) * 16 ^ t) 0
    postRec 0x0B 2 (some r.ctx) (dieOfPed2 x.ped2) 0xFFFFFFFF
      [(0, 2, x.ped2), (2, 2, r.seg), (4, 4, late.length), (8, 4, g), (12, 4, states), (16, 8, segGc s0 r - r.d.length)] s

/-- SEGMENT_WATCHDOG: at gc 2 x LENGTH the die hubs stop the segment. DEDUCED (log 102). -/
def doSegmentWatchdog (ctx : Nat) (s : State) : State :=
  match segOf s ctx with
  | none => s
  | some r =>
    if r.stop.isSome || segGc s r < 2 * r.d.length || segOver s r then s
    else stopSeg ctx .watchdog stSTEP_LOST (r.d.progs.foldl (fun a x => watchdogRec s r x a) s)

/-! ## Deep saves and restores, and the fabric drain (R343, R345) -/

/-- DEEP_SAVE_DONE: the scratchpad of every grain of the ped-2 is in the save area; the units are scrubbed. -/
def doDeepSaveDone (ctx p : Nat) (s : State) : State :=
  if !(ctx ∈ (ped2Of s p).saving) || s.err.stopped.isSome || s.phys.any (fun e => e.1 / 256 == p &&
      lanesWait s e.1 (fun x => x.ctx == ctx)) then s
  else
    let s := match lsPartOf s p ctx with
      | none => s
      | some x =>
        let from_ (k : Nat) : Phys := physOf s (physId s (logicalId p k))
        let n := scratchOf x
        let data := (List.range 250).filterMap (fun k =>
          match memMove (x.base * 16384) n 0 (from_ k).ls with | [] => none | m => some (k, m))
        let bad := (List.range 250).filterMap (fun k =>
          match ((from_ k).poison.filter (fun w => x.base * 512 ≤ w && w * 32 < x.base * 16384 + n)).map
              (fun w => w - x.base * 512) with
          | [] => none
          | l => some (k, l))
        let put (a : SaveArea) : SaveArea := { a with saved := true, data := data, bad := bad }
        { s with saves := updWhere (fun a => a.ctx == ctx && a.ped2 == p) put s.saves }
    grantResidency p (dropResidency ctx p s)

/-- DEEP_RESTORE_DONE: the bytes are back at the same offsets of the new partition. -/
def doDeepRestoreDone (ctx p : Nat) (s : State) : State :=
  if !((ped2Of s p).restoring && leasedTo s ctx p) then s
  else match lsPartOf s p ctx, areaOf s ctx p with
    | some x, some a =>
      let s := a.data.foldl (fun s e => updPhys (physId s (logicalId p e.1)) (fun q => { q with
          ls := e.2.foldl (fun m b => memSet (x.base * 16384 + b.1) b.2 m) q.ls }) s) s
      let s := a.bad.foldl (fun s e => updPhys (physId s (logicalId p e.1)) (fun q => { q with
        poison := e.2.foldl (fun l w => addOnce (x.base * 512 + w) l) q.poison }) s) s
      updPed2 p (fun d => { d with restoring := false }) s
    | _, _ => s

/-- FABRIC_DRAIN_END (R345): what has not finished is aborted; securing units are sent again later. -/
def doFabricDrainEnd (ctx : Nat) (s : State) : State :=
  match ctxOf s ctx with
  | none => s
  | some c => if !c.draining then s else holdChunks ctx (updCtx ctx (fun c => { c with
      draining := false, sec := { c.sec with resend := c.sec.point.isSome } }) s)

/-! ## A C-die's grain clock (R394) -/

/-- DIE_PARK: a die that has been IDLE for 10 ms of wall time is PARKED. DEDUCED (log 31). -/
def doDiePark (c : Nat) (s : State) : State :=
  match nmGet s.pwr.dies c with
  | none => s
  | some d =>
    if d.dstate = .idle && s.pwr.ctl.getLsbD 0 && decide (d.idleSince + 10000 ≤ s.clk.wallUs) then
      { s with pwr := { s.pwr with dies := nmSet c { d with dstate := .parked } s.pwr.dies } }
    else s

/-- GRAIN_PLL_LOCK: the clock that a lease has started on a PARKED die is locked. -/
def doGrainPllLock (c : Nat) (s : State) : State :=
  match nmGet s.pwr.dies c with
  | none => s
  | some d =>
    if d.dstate = .parked && (List.range 25).any (fun i => (ped2Of s (c * 25 + i)).lease.isSome) then
      { s with pwr := { s.pwr with dies := nmSet c { d with dstate := .active } s.pwr.dies } }
    else s

/-! ## Hub transfers (R167, R168, R213) -/

def xferAt (s : State) (ctx idx : Nat) : Option (RunSeg × XferEnt × XferSt) :=
  (segOf s ctx).bind (fun r => match r.d.xfers[idx]?, r.xfers[idx]? with
    | some e, some x => some (r, e, x)
    | _, _ => none)

def setXfer (ctx idx : Nat) (x : XferSt) (s : State) : State :=
  updSeg ctx (fun r => { r with xfers := r.xfers.set idx x }) s

/-- The granules of a hub transfer's range. -/
def xferRange (e : XferEnt) : List Nat :=
  (List.range (ceilDiv (e.off + e.bytes) 65536 - e.off / 65536)).map (fun i => e.off / 65536 + i)

/-- R168: a KIND 0 transfer's reads at one die hub, formed as a descriptor's are (R204): one for each unit, and one for
each granule of a drive. -/
def xferReads (die ctx idx : Nat) (e : XferEnt) (o : Obj) (s : State) : State :=
  let one (lo hi : Nat) (s : State) : State :=
    addReqAt die ctx 0xFFFFFFFF 0 o lo ((List.range (hi - lo)).map (fun k => lo + k)) (.xfer idx lo (hi - lo)) none 0 s
  (xferRange e).foldl (fun s j =>
    let lo := max e.off (65536 * j)
    let hi := min (e.off + e.bytes) (65536 * (j + 1))
    match locOf o lo with
    | .hz3 _ _ => one lo hi s
    | _ => (List.range ((hi - 1) / 256 + 1 - lo / 256)).foldl (fun s u =>
        one (max lo (256 * (lo / 256 + u))) (min hi (256 * (lo / 256 + u + 1))) s) s) s

/-- R213: the granule is resident in HZ1: it is homed there, or has a valid copy. -/
def resident (o : Obj) (j : Nat) : Bool := (granOf o j).hzn == 1 || (granOf o j).promo

/-- R213: a KIND 1 transfer begins the copies that it has still to make, as far as PROMO_MAX and the free frames go; a
write that came before a copy began does not make it stale. DEDUCED (log 88). An object without PROMOTE gets
no copy, so the transfer waits until its range is resident otherwise; the spec does not say. DESIGN CHOICE (log 124). -/
def xferCopies (ctx idx : Nat) (s : State) : State :=
  match xferAt s ctx idx with
  | none => s
  | some (_, e, _) =>
    (xferRange e).foldl (fun s j =>
      match xferAt s ctx idx, objOf s e.handle with
      | some (_, _, x), some o =>
        if resident o j || !o.promote || (nmGet x.frames j).isSome || freeFrames s 1 = 0 ||
            o.promoMax ≤ (o.gran.filter (·.promo)).length + x.frames.length then s
        else
          let a := allocFrame 1 s
          copyUnits (.xfer idx j) false o j (homeLoc o (j * 65536))
            (setXfer ctx idx { x with frames := nmSet j a.1 x.frames, stale := del j x.stale } a.2)
      | _, _ => s) s

/-- HUB_TRANSFER_START: the die hubs of its ped begin the transfer's reads. DEDUCED (log 88). -/
def doHubTransferStart (ctx idx : Nat) (s : State) : State :=
  match xferAt s ctx idx with
  | none => s
  | some (r, e, x) =>
    if r.stop.isSome || x.started || segGc s r < e.start then s
    else
      let s := setXfer ctx idx { x with started := true } s
      if e.kind = 0 then
        match ownObj s ctx e.handle with
        | some o => (xferDies s ctx idx).foldl (fun s d => xferReads d ctx idx e o s) s
        | none => s
      else xferCopies ctx idx s

/-- A KIND 0 transfer still has reads out, or grains that are not written. -/
def xferOpen (s : State) (ctx idx : Nat) : Bool :=
  s.hz.reqs.any (fun q => q.ctx == ctx && (match q.kind with | .xfer i _ _ => i == idx | _ => false)) ||
    s.phys.any (fun e => lanesWait s e.1 (fun x => x.ctx == ctx && x.why == .xfer idx))

/-- R168, R213: every granule of a KIND 1 transfer's range is resident, has a whole copy, or was written while it was
being copied. -/
def xferWhole (s : State) (e : XferEnt) (idx : Nat) (x : XferSt) (o : Obj) : Bool :=
  (xferRange e).all (fun j => resident o j || ((nmGet x.frames j).isSome && !(copyOpen s e.handle (.xfer idx j) false)))

/-- R213: the copies of a KIND 1 transfer become valid; a granule that was written meanwhile is left unpromoted and is
counted. -/
def xferValid (ctx idx : Nat) (e : XferEnt) (s : State) : State :=
  match xferAt s ctx idx with
  | none => s
  | some (_, _, x) =>
    let s := x.frames.foldl (fun s f =>
      match objOf s e.handle with
      | none => freeFrame 1 f.2 s
      | some o =>
        if resident o f.1 then freeFrame 1 f.2 s
        else if f.1 ∈ x.stale then updHz (fun h => { h with unpromoted := h.unpromoted + 1 }) (freeFrame 1 f.2 s)
        else
          let src := homeLoc o (f.1 * 65536)
          validatePromo e.handle f.1 f.2
            (copyNow o (.xfer idx f.1) f.1 src (.hz1 (f.2 * 65536)) (copyReach o f.1 src s))) s
    setXfer ctx idx { x with frames := [] } s

/-- HUB_TRANSFER_COMPLETE: every grain has been written (KIND 0), or the whole range is resident (KIND 1), and the
transfer's semaphore receives 1 (R167, R168). -/
def doHubTransferComplete (ctx idx : Nat) (s : State) : State :=
  match xferAt s ctx idx with
  | none => s
  | some (r, e, x) =>
    if r.stop.isSome || !x.started || x.done then s
    else
      let ends (s : State) : State :=
        let s := match xferAt s ctx idx with
          | some (_, _, x) => setXfer ctx idx { x with done := true } s
          | none => s
        if e.sem = 0 then s else semAdd ctx (canonPed s e.ped) e.sem 1 (logicalId ((footprint r.d).headD 0) 0) s
      if e.kind = 0 then (if xferOpen s ctx idx then s else ends s)
      else
        let whole : Bool := match ownObj s ctx e.handle with | some o => xferWhole s e idx x o | none => true
        if whole then ends (xferValid ctx idx e s) else xferCopies ctx idx s

def execSegmentStart (ctx : Nat) (s : State) : Host.Outcome State Fault Refusal := .next (doSegmentStart ctx s)
def execSegmentEnd (ctx : Nat) (s : State) : Host.Outcome State Fault Refusal := .next (doSegmentEnd ctx s)
def execSegmentWatchdog (ctx : Nat) (s : State) : Host.Outcome State Fault Refusal := .next (doSegmentWatchdog ctx s)
def execDeepSaveDone (ctx ped2 : Nat) (s : State) : Host.Outcome State Fault Refusal := .next (doDeepSaveDone ctx ped2 s)
def execDeepRestoreDone (ctx ped2 : Nat) (s : State) : Host.Outcome State Fault Refusal :=
  .next (doDeepRestoreDone ctx ped2 s)
def execFabricDrainEnd (ctx : Nat) (s : State) : Host.Outcome State Fault Refusal := .next (doFabricDrainEnd ctx s)
def execDiePark (c : Nat) (s : State) : Host.Outcome State Fault Refusal := .next (doDiePark c s)
def execGrainPllLock (c : Nat) (s : State) : Host.Outcome State Fault Refusal := .next (doGrainPllLock c s)
def execHubTransferStart (ctx idx : Nat) (s : State) : Host.Outcome State Fault Refusal :=
  .next (doHubTransferStart ctx idx s)
def execHubTransferComplete (ctx idx : Nat) (s : State) : Host.Outcome State Fault Refusal :=
  .next (doHubTransferComplete ctx idx s)

end Sys2Proof.Machine
end

