-- ==== Sys2Proof/Machine/Contexts.lean ====
section
/-! DEFINITION. The life of a context (R326-R332): creating, destroying, killing, and SET_SHARE (R337). -/

namespace Sys2Proof.Machine

open Sys2Proof

/-! ## A new context (R117, R132, R183, R304, R327, R340, R473, R481) -/

def numCtlReset : NumCtl :=
  { head := 0, tail := 0, size := 0, stk := 0, en := false, ftz := false, rwp := 0, ring := 0, ringRwp := 0, enF := false,
    ftzF := false, sizeF := 0, ringF := 0, seq := 0 }

def numSumReset : NumSum :=
  { ops := 0, sat := 0, flush := 0, invalid := 0, nanin := 0, ovf := 0, nanout := 0, lost := 0 }

def secGenNone : SecGen := { valid := false, step := 0, bank := [], groups := [], buckets := [], expl := [], silt := [] }

def secureReset : Secure :=
  { pol := none, gen0 := secGenNone, gen1 := secGenNone, nowreq := false, nowCids := [], nowSent := [], pointCids := [], exch := false, siltDone := [], rjob := 0, lastPoint := none,
    nextPoint := none, nextCids := [], resend := false, acked := false, sent := 0, pointPcc := 0, sentRisk := 0, sentNow := false, recvAt := 0,
    agreed := false, point := none, sentX := 0, recvX := 0, pointX := (0, 0), strata := [], strataPos := 0,
    cur := entryNew 0 0 0 0 false, rerunTill := none, replayCid := none, replayFlags := 0, failStep := false, fill := [] }

def pmcReset : Pmc :=
  { sel := List.replicate 16 0, selNext := [], scope := 0xFFFFFFFF, scopeNext := none, sums := [], late := [0, 0, 0, 0],
    smpHead := 0, smpTail := 0, smpLost := 0, smpHandle := 0, smpSize := 0, smpEn := false, smpPeriod := 0, smpNext := none }

def ctxNew (num owner rsize : Nat) (deep : Bool) (domain : W32) (weight limit slice : Nat) : Ctx :=
  { num := num, st := .idle, owner := owner, rsize := rsize, deep := deep, deepNext := deep, domain := domain
    weight := weight, limit := limit, slice := slice, weightF := weight, limitF := limit, sliceF := slice, bankFrames := []
    deficit := 0, runStart := none, step := 0
    stepSeed := 0, loadedOnce := false, lost := none, stepFresh := true, num_ := numCtlReset, sum := numSumReset, bank := []
    sems := [], waiters := []
    spec := { discards := 0, commits := 0, active := false, en := true, enF := true, rwp := 0 }
    acct := { leased := 0, arr := 0, mvp := 0, vec := 0, dma := 0, sve := 0, red := 0, debt := 0 }
    plans := [], runs := [], fences := [], rtBase := 0, rtEn := false, dbDrop := 0, cmdDrop := 0, cqHold := 0, sq := []
    cq := [], heldSigs := [], sec := secureReset, pmc := pmcReset, draining := false, srcDig := [], first := none }

/-! ## R334 -/

/-- On ped-2 p the residents that may meet there fit: at most 3 shallow slots, and their units with the largest deep
partition. -/
def fitsOn (s : State) (cs : List Ctx) (p : Nat) : Bool :=
  let here := cs.filter (fun c => p ∈ domainOf s c)
  let shallow := here.filter (fun c => !c.deepNext)
  let deep := here.filter (·.deepNext)
  shallow.length ≤ 3 && sumNat (shallow.map (·.rsize)) + listMax (deep.map (·.rsize)) ≤ 6

/-- R334 holds with context c as it would be, in the place of the context of its number. -/
def fits334 (s : State) (c : Ctx) : Bool :=
  (domainOf s c).all (fitsOn s (c :: (s.ctxs.map (·.2)).filter (fun x => x.num != c.num)))

/-! ## CTX_CREATE (R327, R328) -/

def ownedBy (s : State) (fn : Nat) : Nat := (s.ctxs.filter (fun e => e.2.owner == fn)).length

def lowestFree (s : State) : Option Nat := (List.range 1024).find? (fun i => i != 0 && (ctxOf s i).isNone)

/-- R31, R327: a DOMAIN has KIND 0x2 to 0x5, names what exists, and holds a ped-2 in service. -/
def domainBad (s : State) (a : W32) : Bool :=
  let k := bits a.toNat 28 4
  k < 2 || 5 < k || (match physPed s a.toNat with
    | .ok l => !((pedSetPed2s l).any (ped2InService s))
    | .error _ => true)

/-- Read from the spec by inference: DEDUCED (log 49). -/
def createBad (s : State) (c : Cmd) : Bool :=
  let p := c.param
  c.pctx ≠ 0xFFFF || u16 p 0 = 0 || (1023 < u16 p 0 && u16 p 0 ≠ 0xFFFF) || u8 p 2 = 0 || 6 < u8 p 2 || 1 < u8 p 3 ||
    domainBad s (BitVec.ofNat 32 (u32 p 4)) || u16 p 8 = 0 || u8 p 11 ≠ 0 || u32 p 12 < 100 || 100000 < u32 p 12 ||
    !(allZero (p.drop 16))

/-- The lowest VF slot that holds no context. -/
def freeFnSlot (f : Fn) : Nat := ((List.range 16).find? (fun i => !(f.slots.any (fun e => e.1 == i)))).getD 15

def doCtxCreate (cid : Nat) (s : State) : State :=
  match ready s cid 0x10 with
  | none => s
  | some c =>
    let s := startCmd cid s
    let p := c.param
    if createBad s c then finish0 cid stBAD_PARAM s
    else
      let num := if u16 p 0 = 0xFFFF then lowestFree s else if (ctxOf s (u16 p 0)).isSome then none else some (u16 p 0)
      match num with
      | none => finish0 cid stNO_RESOURCE s
      | some n =>
        let x := ctxNew n c.fn (u8 p 2) (u8 p 3 = 1) (BitVec.ofNat 32 (u32 p 4)) (u16 p 8) (u8 p 10) (u32 p 12)
        if (c.fn % 64 ≠ 0 && 16 ≤ ownedBy s c.fn) || freeFrames s 1 < 128 || !(fits334 s x) then
          finish0 cid stNO_RESOURCE s
        else
          -- R117: the frames of its scale bank
          let r := allocFrames 128 [] s
          let s := r.2
          let x := { x with bankFrames := r.1 }
          let s := { s with ctxs := nmSet n x s.ctxs, reg := { s.reg with rwp := nmDel (0x100000 + 16 * n) s.reg.rwp } }
          let s := if c.fn % 64 = 0 then s
            else updFn c.fn (fun f => { f with slots := f.slots ++ [(freeFnSlot f, n)] }) s
          finish cid stOK (leBytes 2 n) s

/-! ## Ending a context (R330-R332) -/

/-- The instances of the context's buckets that are in flight. -/
def liveTags (s : State) (ctx : Nat) : List Nat :=
  (s.fab.insts.filter (fun i => !i.done && (match nmGet s.fab.buckets i.tag with | some b => b.ctx == ctx | none => false))).map
    (·.tag)

/-- Windows of the context close, what remote packages have prepared in them is dropped, and the accesses that wait for
a horizon or a slot are refused (R70). -/
def closeWindows (ctx : Nat) (s : State) : State :=
  let mine := (s.fab.wins.filter (fun e => e.2.ctx == ctx)).map (·.1)
  let late := s.hz.reqs.filterMap (fun q => match q.kind with
    | .window f _ n => if n ∈ mine then some f else none
    | _ => none) ++ s.fab.accs.filterMap (fun a => if a.win ∈ mine then a.flit else none)
  let once := late.foldl (fun (l : List Flit) f =>
    if l.any (fun e => flitSrc e == flitSrc f && u16 e 25 == u16 f 25) then l else l ++ [f]) []
  let s := updHz (fun h => { h with reqs := h.reqs.filter (fun q => match q.kind with
    | .window _ _ n => !(n ∈ mine)
    | _ => true) }) s
  let s := updFab (fun f => { f with
    wins := f.wins.filter (fun e => e.2.ctx != ctx)
    rsems := f.rsems.filter (fun x => !(x.win ∈ mine))
    acks := f.acks.filter (fun e => !(e.1 ∈ mine))
    accs := f.accs.filter (fun a => !(a.win ∈ mine)), gots := f.gots.filter (fun e => !(e.1.1 ∈ mine))
    preparedWin := f.preparedWin.filter (fun x => !(x.win ∈ mine)) }) s
  once.foldl (fun s f => winReply f 5 0 (stNOT_PERMITTED.toNat % 256) [] false s) s

/-- Sieve tables of the context, with the frames and LBAs that they hold. -/
def dropSieves (ctx : Nat) (s : State) : State :=
  (s.sieves.filter (fun t => sieveCtx t == ctx)).foldl (fun s t => dropTable t s) s

/-- Residency, leases, reservations and save areas of the context on every ped-2. -/
def dropResidencies (ctx : Nat) (s : State) : State :=
  let ps := (s.ped2s.map (·.1))
  let s := ps.foldl (fun s p =>
    let s := if leasedTo s ctx p then releasePed2 p s else s
    let s := if (lsPartOf s p ctx).isSome || ctx ∈ (ped2Of s p).saving then grantResidency p (dropResidency ctx p s) else s
    updPed2 p (fun d => if d.holder = some ctx then
        { d with holder := none, ctr := [], prev := [], latebar := 0, latemax := 0, refused := 0
                 reserved := if d.reserved = some ctx then none else d.reserved }
      else { d with reserved := if d.reserved = some ctx then none else d.reserved }) s) s
  freeAreas ctx s

/-- Everything that the context owns is freed, and the context is FREE again. Its grains are cleared and its commands
but `keep` are forgotten. -/
def purgeCtx (ctx : Nat) (keep : Option Nat) (s : State) : State :=
  let s := dropXfers ctx (dropClods ctx s)
  let s := closeWindows ctx s
  let tags := (s.fab.buckets.filter (fun e => e.2.ctx == ctx)).map (·.1)
  let s := freeOwed (· ∈ tags) s
  let s := updFab (fun f => { f with
    goneTags := (f.insts.filter (fun i => i.tag ∈ tags)).foldl (fun l i => addOnce (i.tag, i.step.toNat % 65536) l) f.goneTags
    insts := f.insts.filter (fun i => !(i.tag ∈ tags)), held := f.held.filter (fun h => !(h.1 ∈ tags))
    early := f.early.filter (fun x => !(u16 x 14 ∈ tags))
    buckets := f.buckets.filter (fun e => e.2.ctx != ctx), groups := f.groups.filter (fun e => e.2.ctx != ctx)
    digests := f.digests.filter (fun e => e.1 != ctx)
    wreqs := f.wreqs.map (fun q => match nmGet s.grains q.g with
      | some gr => if gr.ctx = ctx then { q with dead := true } else q | none => q) }) s
  let clean (e : Nat × Phys) : Nat × Phys := (e.1, { e.2 with
    lines := e.2.lines.filter (fun l => l.ctx != ctx), pend := e.2.pend.filter (fun x => x.ctx != ctx) })
  let s := { s with
    segs := s.segs.filter (fun r => r.ctx != ctx)
    gathers := s.gathers.filter (fun x => match nmGet s.grains x.g with | some gr => gr.ctx != ctx | none => false)
    hz := { s.hz with reqs := s.hz.reqs.filter (fun q => q.ctx != ctx)
                      hz4Failed := s.hz.hz4Failed.filter (fun e => e.1 != ctx) }
    phys := s.phys.map clean }
  let s := settleApers s
  let s := { s with grains := s.grains.filter (fun e => e.2.ctx != ctx) }
  let s := dropSieves ctx s
  let s := (s.hz.objs.filter (fun o => o.ctx == ctx)).foldl (fun s o => dropObj o s) s
  let s := dropResidencies ctx s
  let s := (match ctxOf s ctx with | some c => c.bankFrames | none => []).foldl (fun s f => freeFrame 1 f s) s
  let owner := match ctxOf s ctx with | some c => c.owner | none => 0
  let s := updFn owner (fun f => { f with slots := f.slots.filter (fun e => e.2 != ctx) }) s
  { s with
    ctxs := nmDel ctx s.ctxs
    cmds := s.cmds.filter (fun k => k.ctx != some ctx || some k.cid == keep)
    snap := if s.snap.isPending && s.snap.ctx == ctx then { s.snap with isPending := false, cid := none, latched := none }
      else s.snap }

/-- R329: the function that made the context, or the PF of its port. -/
def mayManage (c : Ctx) (fn : Nat) : Bool := c.owner == fn || (fn % 64 == 0 && fn / 64 == c.owner / 64)

/-- CTX_DESTROY. DEDUCED (log 49). -/
def doCtxDestroy (cid : Nat) (s : State) : State :=
  match ready s cid 0x11 with
  | none => s
  | some c =>
    let s := startCmd cid s
    let n := u16 c.param 0
    if 1023 < n || !(allZero (c.param.drop 2)) then finish0 cid stBAD_PARAM s
    else if n = 0 then finish0 cid stNOT_PERMITTED s
    else match ctxOf s n with
      | none => finish0 cid stBAD_PARAM s
      | some x =>
        if !(mayManage x c.fn) then finish0 cid stNOT_PERMITTED s
        else if runOut s n || liveTags s n ≠ [] then finish0 cid stBUSY s
        else finish0 cid stOK (purgeCtx n (some cid) s)

/-- CTX_KILL, and what every reset of a port does to the contexts of its functions (R324, R331): its threads stop, its
instances fail on every member, and everything it owned is freed. Where this ends a segment, leases are decided
(R335). -/
def killCtx (ctx : Nat) (keep : Option Nat) (s : State) : State :=
  let ran := (segOf s ctx).isSome
  let s := updCtx ctx (fun c => { c with st := .killing }) s
  let s := stopSeg ctx .killed stSTEP_LOST s
  let s := (liveTags s ctx).foldl (fun s t => failInst t stSTEP_LOST 6 (pkgId s) true s) s
  let s := purgeCtx ctx keep s
  if ran then decideLeases s else s

/-- Read from the spec by inference: DEDUCED (log 49). -/
def doCtxKill (cid : Nat) (s : State) : State :=
  match ready s cid 0x12 with
  | none => s
  | some c =>
    let s := startCmd cid s
    let n := u16 c.param 0
    if 1023 < n || !(allZero (c.param.drop 2)) then finish0 cid stBAD_PARAM s
    else if n = 0 then finish0 cid stNOT_PERMITTED s
    else match ctxOf s n with
      | none => finish0 cid stBAD_PARAM s
      | some x =>
        if !(mayManage x c.fn) then finish0 cid stNOT_PERMITTED s
        else finish cid stOK (leBytes 8 s.clk.pcc.toNat) (killCtx n (some cid) s)

/-! ## SET_SHARE (R337) -/

def shareBad (p : List Byte) : Bool :=
  let lv := u8 p 0
  2 < lv || u8 p 1 ≠ 0 || u16 p 4 = 0 || !(allZero (p.drop 12)) ||
    (if lv = 2 then 1 < u8 p 7 || u32 p 8 < 100 || 100000 < u32 p 8 || 1023 < u16 p 2
     else u8 p 6 ≠ 0 || u8 p 7 ≠ 0 || u32 p 8 ≠ 0 || (if lv = 0 then 1 < u16 p 2 else 127 < u16 p 2))

/-- Read from the spec by inference: DEDUCED (log 49). -/
def doSetShare (cid : Nat) (s : State) : State :=
  match ready s cid 0x13 with
  | none => s
  | some c =>
    let s := startCmd cid s
    let p := c.param
    let t := u16 p 2
    if shareBad p then finish0 cid stBAD_PARAM s
    else if u8 p 0 = 0 then
      if c.fn ≠ mgmtFn then finish0 cid stNOT_PERMITTED s
      else finish0 cid stOK (updPort t (fun q => { q with weight := u16 p 4 }) s)
    else if u8 p 0 = 1 then
      if c.fn % 64 ≠ 0 || t / 64 ≠ c.fn / 64 then finish0 cid stNOT_PERMITTED s
      else finish0 cid stOK (updFn t (fun f => { f with weight := u16 p 4 }) s)
    else if t = 0 then finish0 cid stNOT_PERMITTED s
    else match ctxOf s t with
      | none => finish0 cid stBAD_PARAM s
      | some x =>
        if !(mayManage x c.fn) then finish0 cid stNOT_PERMITTED s
        else
          let y := { x with weight := u16 p 4, limit := u8 p 6, slice := u32 p 8, deepNext := u8 p 7 = 1 }
          if !(fits334 s y) then finish0 cid stNO_RESOURCE s
          else finish0 cid stOK (updCtx t (fun _ => y) s)

def execCtxCreate (cid : Nat) (s : State) : Host.Outcome State Fault Refusal := .next (doCtxCreate cid s)
def execCtxDestroy (cid : Nat) (s : State) : Host.Outcome State Fault Refusal := .next (doCtxDestroy cid s)
def execCtxKill (cid : Nat) (s : State) : Host.Outcome State Fault Refusal := .next (doCtxKill cid s)
def execSetShare (cid : Nat) (s : State) : Host.Outcome State Fault Refusal := .next (doSetShare cid s)

end Sys2Proof.Machine
end

