-- ==== Sys2Proof/Machine/Counters.lean ====
section
/-! DEFINITION. Performance counters and sampling (chapter 17): PMC_CONFIG, SAMPLE_CONFIG, PMC_SNAPSHOT, and the layout of
a snapshot (R476). -/

namespace Sys2Proof.Machine

open Sys2Proof

/-! ## Shared checks -/

/-- The context that a counter command names: its ring's, or on an admin ring the packet's CTX (R311, R315). -/
inductive CmdCtx where
  | ok (ctx : Nat)
  | raw                   -- the admin ring of a PF with CTX = 0xFFFF
  | fail (st : W16)
  deriving DecidableEq, Repr

def cmdCtx (s : State) (k : Cmd) : CmdCtx :=
  match k.ctx with
  | some x => .ok x
  | none =>
    if k.pctx = 0xFFFF then .raw
    else if k.pctx = 0 then .fail stNOT_PERMITTED
    else match ctxOf s k.pctx with
      | none => .fail stBAD_PARAM
      | some c => if mayManage c k.fn then .ok k.pctx else .fail stNOT_PERMITTED

/-- R32: why a context may not name a ped as its scope; none where it may. -/
def scopeBad (s : State) (ctx : Nat) (a : W32) : Option W16 :=
  if a = 0xFFFFFFFF then none
  else match pedOf s ctx a with
    | .error .unknown => some stNOT_PERMITTED
    | .error _ => some stBAD_PARAM
    | .ok l => if pedLeased s ctx l then none else some stNOT_PERMITTED

/-! ## PMC_CONFIG (R468-R470) -/

/-- Events that THREADS and ENG filter. -/
def eventT (e : Nat) : Bool := e ∈ [0x02, 0x05, 0x08, 0x09]

def eventKnown (e : Nat) : Bool :=
  e ≤ 0x05 || e ∈ [0x08, 0x09, 0x10, 0x11, 0x12, 0x13, 0x14, 0x18, 0x19, 0x1A, 0x1B, 0x1C, 0x1D, 0x20, 0x21, 0x22, 0x23,
    0x24, 0x25, 0x26]

/-- R465. -/
def causeKnown (c : Nat) : Bool := c ≤ 0x16 && c != 0x0B

/-- R469: a selector with a reserved value. -/
def selBad (w : Nat) : Bool :=
  let e := bits w 0 8
  bits w 37 27 ≠ 0 || (249 < bits w 28 9 && bits w 28 9 ≠ 0x1FF) || !(eventKnown e) || !(causeKnown (bits w 12 8)) ||
    (e ≠ 0x05 && bits w 12 8 ≠ 0) || (!(eventT e) && (bits w 20 8 ≠ 0 || bits w 9 3 ≠ 0)) || (e = 0x02 && bits w 9 3 = 0)

def doPmcConfig (cid : Nat) (s : State) : State :=
  match ready s cid 0x70 with
  | none => s
  | some k =>
    let s := startCmd cid s
    let p := k.param
    let first := u8 p 0
    let n := u8 p 1
    let scope : W32 := BitVec.ofNat 32 (u32 p 4)
    match cmdCtx s k with
    | .fail st => finish0 cid st s
    | .raw => finish0 cid stBAD_PARAM s
    | .ok ctx =>
      if 15 < first || n = 0 || 5 < n || 16 < first + n || u16 p 2 ≠ 0 || !(allZero (p.drop (8 + 8 * n))) ||
          (List.range n).any (fun i => selBad (u64 p (8 + 8 * i))) then finish0 cid stBAD_PARAM s
      else match scopeBad s ctx scope with
        | some st => finish0 cid st s
        | none =>
          finish0 cid stOK (updCtx ctx (fun c => { c with pmc := { c.pmc with
            scopeNext := some scope
            selNext := (List.range n).foldl (fun m i => nmSet (first + i) (BitVec.ofNat 64 (u64 p (8 + 8 * i))) m)
              c.pmc.selNext } }) s)

/-! ## SAMPLE_CONFIG (R477) -/

def doSampleConfig (cid : Nat) (s : State) : State :=
  match ready s cid 0x72 with
  | none => s
  | some k =>
    let s := startCmd cid s
    let p := k.param
    let h : W32 := BitVec.ofNat 32 (u32 p 0)
    match cmdCtx s k with
    | .fail st => finish0 cid st s
    | .raw => finish0 cid stBAD_PARAM s
    | .ok ctx =>
      let put : State := finish0 cid stOK (updCtx ctx (fun c => { c with pmc := { c.pmc with
        smpNext := some (h, u8 p 4, u8 p 5 = 1, u16 p 6) } }) s)
      if 12 < u8 p 4 || 1 < u8 p 5 || !(allZero (p.drop 8)) then finish0 cid stBAD_PARAM s
      else if h = 0 then put
      else match ownObj s ctx h with
        | none => finish0 cid stNOT_PERMITTED s
        | some o => if o.size < 2048 * 2 ^ u8 p 4 then finish0 cid stBAD_PARAM s else put

/-! ## The snapshot (R474-R476) -/

def acctBytes (a : Acct) : List Byte :=
  [a.leased, a.arr, a.mvp, a.vec, a.dma, a.sve, a.red, a.debt].flatMap (fun x => leBytes 8 x.floor.toNat)

def numSumBytes (n : NumSum) : List Byte :=
  [n.ops, n.sat, n.flush, n.invalid, n.nanin, n.ovf, n.nanout, n.lost].flatMap (fun x => leBytes 8 x.toNat)

/-- Ped-2s and grains in scope; `ctx` none for a raw snapshot. -/
def snapScope (s : State) (ctx : Option Nat) (scope : W32) : PedSet :=
  let held (p : Nat) : Bool := match (ped2Of s p).lease with
    | some l => (match ctx with | some c => l.ctx == c | none => true)
    | none => false
  let l : PedSet := if scope = 0xFFFFFFFF then ((List.range ped2Count).filter held).map (fun p => (p, none))
    else match (match ctx with | some c => pedOf s c scope | none => physPed s scope.toNat) with
      | .ok l => l
      | .error _ => []
  (List.range ped2Count).flatMap (fun p => l.filter (fun e => e.1 == p))

/-- R476: one ped-2 record. -/
def ped2Rec (s : State) (ctx : Option Nat) (p : Nat) : List Byte :=
  let d := ped2Of s p
  let live := liveSums s p
  let mine := match ctx with | some c => leasedTo s c p | none => d.lease.isSome
  let sums := match ctx.bind (ctxOf s) with | some c => nmGetD c.pmc.sums p sums0 | none => sums0
  let v := if ctx.isNone then live else if mine then addSums sums live else sums
  let who := match ctx with | some c => c | none => (match d.lease with | some l => l.ctx | none => 0xFFFF)
  leBytes 2 p ++ leBytes 2 who ++ leBytes 1 (b2n mine) ++ zeros 3 ++ leBytes 8 (if ctx.isNone then d.corr else 0) ++
    zeros 16 ++ (List.range 16).flatMap (fun i => leBytes 8 (v.getD (8 + i) 0).toNat) ++
    leBytes 8 (v.getD 24 0).toNat ++ leBytes 8 (v.getD 25 0).toNat ++ leBytes 8 (v.getD 26 0).toNat ++ zeros 8

/-- The context that holds grain g at this moment, and its fixed counters. -/
def grainVals (s : State) (ctx : Option Nat) (g : Nat) : Option Nat × List Nat :=
  let own := match (ped2Of s (logicalPed2 g)).lease with | some l => some l.ctx | none => none
  match own, nmGet s.grains g with
  | some y, some gr => if (ctx == none || ctx == some y) && gr.ctx == y then (some y, gr.stall) else (own, [])
  | _, _ => (own, [])

def grainBytes (id who leased : Nat) (v : List Nat) : List Byte :=
  leBytes 4 id ++ leBytes 2 who ++ leBytes 1 leased ++ zeros 9 ++ (List.range 8).flatMap (fun i => leBytes 6 (v.getD i 0))

def grainRec (s : State) (ctx : Option Nat) (g : Nat) : List Byte :=
  let x := grainVals s ctx g
  let leased := match ctx with | some c => x.1 == some c | none => x.1.isSome
  grainBytes g (match ctx with | some c => c | none => x.1.getD 0xFFFF) (b2n leased) x.2

/-- The sum record: each counter the saturating sum over the scope's grains. -/
def sumRec (s : State) (ctx : Option Nat) (gs : List Nat) : List Byte :=
  let v := (List.range 8).map (fun i => gs.foldl (fun a g => satAdd 48 a ((grainVals s ctx g).2.getD i 0)) 0)
  let any := gs.any (fun g => match ctx with | some c => (grainVals s ctx g).1 == some c | none => (grainVals s ctx g).1.isSome)
  grainBytes 0xFFFFFFFF (ctx.getD 0xFFFF) (b2n any) v

/-- Bytes that the layout takes. -/
def snapSize (content : Nat) (raw : Bool) (l : PedSet) : Nat :=
  64 + (if bitAt content 2 && !raw then 160 else 0) + (if bitAt content 1 then 192 * l.length else 0) +
    (if bitAt content 3 then 64 else if bitAt content 0 then 64 * pedSetCount l else 0)

/-- R476: the whole snapshot. -/
def snapBytes (s : State) (ctx : Option Nat) (content : Nat) (stamp : W64) (l : PedSet) : List Byte :=
  let gs := pedSetGrains l
  let sumOnly := bitAt content 3
  let ngrain := if sumOnly then 1 else if bitAt content 0 then gs.length else 0
  let nped := if bitAt content 1 then l.length else 0
  let head := pad 64 (leBytes 4 0x50414E53 ++ leBytes 2 1 ++ leBytes 1 content ++ zeros 1 ++ leBytes 8 stamp.toNat ++
    leBytes 2 (ctx.getD 0xFFFF) ++ zeros 2 ++ leBytes 4 ngrain ++ leBytes 2 nped ++ zeros 6 ++
    leBytes 8 s.pwr.stretch.toNat ++ leBytes 8 s.clk.tbPcc.toNat ++ leBytes 8 s.clk.tbRtc.toNat)
  let sect := match ctx.bind (ctxOf s) with
    | some c => if bitAt content 2 then acctBytes c.acct ++ numSumBytes c.sum ++
        (List.range 4).flatMap (fun i => leBytes 8 (c.pmc.late.getD i 0).toNat) else []
    | none => []
  head ++ sect ++ (if bitAt content 1 then l.flatMap (fun e => ped2Rec s ctx e.1) else []) ++
    (if sumOnly then sumRec s ctx gs else if bitAt content 0 then gs.flatMap (grainRec s ctx) else [])

/-- The destination of a snapshot: an object of the context, or for a raw one of a context that the PF manages. -/
def snapObj (s : State) (k : Cmd) (ctx : Option Nat) (h : W32) : Option Obj :=
  match ctx with
  | some c => ownObj s c h
  | none => match objOf s h with
    | some o => (ctxOf s o.ctx).bind (fun c => if mayManage c k.fn then some o else none)
    | none => none

/-- R475: a snapshot is pending from its fetch. -/
def snapBefore (s : State) (cid : Nat) : Bool :=
  s.cmds.any (fun x => x.opcode == 0x71 && decide (x.cid < cid) && x.done.isNone)

def doPmcSnapshot (cid : Nat) (s : State) : State :=
  match ready s cid 0x71 with
  | none => s
  | some k =>
    let s := startCmd cid s
    let p := k.param
    let h : W32 := BitVec.ofNat 32 (u32 p 8)
    let scope : W32 := BitVec.ofNat 32 (u32 p 12)
    let content := u8 p 24
    let t := u64 p 0
    let least := k.fetchPcc.toNat + 4096
    let go (ctx : Option Nat) : State :=
      let bad := match ctx with
        | some c => scopeBad s c scope
        | none => if scope = 0xFFFFFFFF then none
            else (match physPed s scope.toNat with | .ok _ => none | .error _ => some stBAD_PARAM)
      if u64 p 16 % 64 ≠ 0 || 15 < content || !(allZero (p.drop 25)) ||
          (t ≠ 0 && (t < least || k.fetchPcc.toNat + 2 ^ 32 < t)) then finish0 cid stBAD_PARAM s
      else match bad, snapObj s k ctx h with
        | some st, _ => finish0 cid st s
        | none, none => finish0 cid stNOT_PERMITTED s
        | none, some o =>
          if o.gran.any (fun g => g.hzn == 3) then finish0 cid stBAD_PARAM s
          else if s.snap.isPending || snapBefore s cid then finish0 cid stBUSY s
          else if o.size < u64 p 16 + snapSize content ctx.isNone (snapScope s ctx scope) then finish0 cid stNO_RESOURCE s
          else
            let stamp := if t = 0 then 16 * ceilDiv least 16 else t
            { s with snap := { stamp := BitVec.ofNat 64 stamp, isPending := true, ctx := ctx.getD 0xFFFF, cid := some cid
                               latched := none } }
    match cmdCtx s k with
    | .fail st => finish0 cid st s
    | .raw => if k.fn % 64 = 0 then go none else finish0 cid stNOT_PERMITTED s
    | .ok c => go (some c)

def snapCtx (s : State) : Option Nat := if s.snap.ctx = 0xFFFF then none else some s.snap.ctx

/-- The snapshot has ended: nothing is pending. -/
def snapEnd (s : State) : State := { s with snap := { s.snap with isPending := false, cid := none, latched := none } }

/-- SNAPSHOT_STAMP: every counter in scope is latched in the gc of the stamp. -/
def doSnapshotStamp (s : State) : State :=
  match s.snap.cid.bind (cmdOf s) with
  | none => s
  | some k =>
    if !s.snap.isPending || s.snap.latched.isSome || s.clk.pcc.toNat < s.snap.stamp.toNat then s
    else
      let ctx := snapCtx s
      let b := snapBytes s ctx (u8 k.param 24) s.snap.stamp (snapScope s ctx (BitVec.ofNat 32 (u32 k.param 12)))
      let size := match objOf s (BitVec.ofNat 32 (u32 k.param 8)) with | some o => o.size | none => 0
      if size < u64 k.param 16 + b.length then snapEnd (finish0 k.cid stNO_RESOURCE s)
      else { s with snap := { s.snap with latched := some b } }

/-- SNAPSHOT_WRITE_DONE: the latched bytes are visible in the object. -/
def doSnapshotWriteDone (s : State) : State :=
  match s.snap.cid.bind (cmdOf s), s.snap.latched with
  | some k, some b =>
    snapEnd (finish k.cid stOK (leBytes 8 s.snap.stamp.toNat ++ leBytes 8 b.length)
      (objWriteAt (BitVec.ofNat 32 (u32 k.param 8)) (u64 k.param 16) b s))
  | _, _ => s

def execPmcConfig (cid : Nat) (s : State) : Host.Outcome State Fault Refusal := .next (doPmcConfig cid s)
def execPmcSnapshot (cid : Nat) (s : State) : Host.Outcome State Fault Refusal := .next (doPmcSnapshot cid s)
def execSampleConfig (cid : Nat) (s : State) : Host.Outcome State Fault Refusal := .next (doSampleConfig cid s)
def execSnapshotStamp (s : State) : Host.Outcome State Fault Refusal := .next (doSnapshotStamp s)
def execSnapshotWriteDone (s : State) : Host.Outcome State Fault Refusal := .next (doSnapshotWriteDone s)

end Sys2Proof.Machine
end

