-- ==== Sys2Proof/Machine/Measure.lean ====
section
/-! DEFINITION. What chapter 15 shares: the configuration record as bytes (R411, R412), the slot directory (R422),
firmware images (R436), measurements and their log (R425, R426), key erasure and alarms (R424, R433). -/

namespace Sys2Proof.Machine

open Sys2Proof

def sm3Bytes (l : List Byte) : List Byte := leBytes 32 (Config.sm3 l).toNat

/-! ## The configuration record as bytes (R411, R412) -/

/-- R411: a die that the factory part does not list runs at the highest clock and ceiling. -/
def dieEntry (f : FactoryPart) (d : Nat) : DieEntry := nmGetD f.dies d { fbin := 16, vceil0 := 16, lot := 0 }

def mapBytes (m : NatMap (BitVec 256)) : List Byte :=
  (List.range ped2Count).flatMap (fun p => leBytes 32 (nmGetD m p 0).toNat)

/-- Bytes 0-39,487 of a factory part. -/
def factBytes (f : FactoryPart) : List Byte :=
  leBytes 4 0x47464351 ++ leBytes 2 1 ++ zeros 2 ++ leBytes 8 f.serial.toNat ++ leBytes 1 f.rev.toNat ++ zeros 47 ++
    (List.range 64).flatMap (fun d =>
      let e := dieEntry f d
      leBytes 1 e.fbin ++ leBytes 1 e.vceil0 ++ zeros 6 ++ leBytes 8 e.lot.toNat) ++ mapBytes f.failed0

/-- Every byte of a field part before its signature. -/
def fieldBytes (f : FieldPart) : List Byte :=
  let retired := f.retired.foldl (fun n p => if bitAt n p then n else n + 2 ^ p) 0
  leBytes 4 0x44464351 ++ zeros 4 ++ leBytes 8 f.seq ++ leBytes 2 f.pclk ++ leBytes 2 f.frames.length ++ zeros 44 ++
    (List.range 48).map (fun c => BitVec.ofNat 8 (nmGetD f.vstep c 0)) ++ leBytes 160 retired ++ mapBytes f.failed ++
    f.frames.flatMap (fun e => leBytes 8 (e.1 * 2 ^ 61 + (if e.1 = 2 then e.2.1 % 8 else 0) * 2 ^ 56 + e.2.2 % 2 ^ 56))

/-! ## The slot directory (R422) -/

/-- R422: the valid copy with the higher SEQ, or the defaults. -/
def pickDir (fl : Flash) : Dir :=
  if fl.dir0.valid && (!fl.dir1.valid || fl.dir1.seq ≤ fl.dir0.seq) then fl.dir0
  else if fl.dir1.valid then fl.dir1 else Dir.blank

/-- The directory changes: it is written to the copy that does not hold the higher valid SEQ, or, with no identity key,
kept in the package (R438). -/
def writeDir (f : Dir → Dir) (s : State) : State :=
  let cur := pickDir s.flash
  let d := f s.fw.dir
  if !s.fw.dirWritable then { s with fw := { s.fw with dir := d } }
  else
    let d := { d with seq := (if cur.valid then cur.seq else 0) + 1, valid := true }
    let zero := s.flash.dir0.valid && (!s.flash.dir1.valid || s.flash.dir1.seq ≤ s.flash.dir0.seq)
    { s with fw := { s.fw with dir := d }
             flash := if zero then { s.flash with dir1 := d } else { s.flash with dir0 := d } }

def dirReceived (d : Dir) : Nat := ((List.range 512).filter (fun n => d.bitmap.getLsbD n)).length

def dirComplete (d : Dir) : Bool := d.stage.isSome && d.nchunk != 0 && (List.range d.nchunk).all (fun n => d.bitmap.getLsbD n)

/-- The lowest chunk of the staged image that is missing. -/
def dirMissing (d : Dir) : Nat := ((List.range d.nchunk).find? (fun n => !(d.bitmap.getLsbD n))).getD 0xFFFF

/-! ## Firmware images (R436) -/

def slotRead (s : State) (slot off n : Nat) : List Byte :=
  memRead (if slot = 0 then s.flash.slotA else s.flash.slotB) off n

def manifest (s : State) (slot : Nat) : List Byte := slotRead s slot 0 65536

def mSvn (m : List Byte) : Nat := u32 m 8
def mFloor (m : List Byte) : Nat := u32 m 12
def mChunks (m : List Byte) : Nat := u32 m 16
def mCompat (m : List Byte) : Nat := u32 m 20
def mPart (m : List Byte) (k : Nat) : List Byte := slice m (64 + 64 * k) 64
def mChunkDigest (m : List Byte) (n : Nat) : List Byte := slice m (1088 + 32 * n) 32
def mDigest (m : List Byte) : BitVec 256 := Config.sm3 m

def partOf (m : List Byte) (ty : Nat) : Option (List Byte) :=
  ((List.range 5).map (mPart m)).find? (fun p => u8 p 0 == ty)

def partBad (m p : List Byte) : Bool :=
  u8 p 0 = 0 || 5 < u8 p 0 || !(allZero (slice p 1 3)) || u32 p 8 % 4096 ≠ 0 || u32 p 8 < 65536 ||
    mChunks m * 65536 < u32 p 8 + u32 p 12 || !(allZero (p.drop 48))

/-- R436: the manifest is valid under a floor. -/
def manifestOk (m : List Byte) (floor : Nat) : Bool :=
  u32 m 0 == 0x4E414D51 && u16 m 4 == 1 && u16 m 6 == 5 && mFloor m ≤ mSvn m && 2 ≤ mChunks m && mChunks m ≤ 512 &&
    allZero (slice m 32 32) && allZero (slice m 384 704) && allZero (m.drop 17600) &&
    (List.range 5).all (fun k => !(partBad m (mPart m k))) && [1, 2, 3, 4, 5].all (fun ty => (partOf m ty).isSome) &&
    (List.range 512).all (fun n => (n != 0 && n < mChunks m) || allZero (mChunkDigest m n)) &&
    Config.sm3 (slice m 17472 64) == Config.sm3 Config.vendorKey &&
    Config.sm2Verify (slice m 17472 64) (m.take 17536) (slice m 17536 64) && floor ≤ mSvn m

def partBytes (s : State) (slot : Nat) (p : List Byte) : List Byte := slotRead s slot (u32 p 8) (u32 p 12)

/-- Every part of the slot matches its digest. -/
def partsOk (s : State) (slot : Nat) : Bool :=
  let m := manifest s slot
  (List.range 5).all (fun k => sm3Bytes (partBytes s slot (mPart m k)) == slice (mPart m k) 16 32)

/-- The chunks of the slot that differ from the manifest's digests. -/
def badChunks (s : State) (slot : Nat) : List Nat :=
  let m := manifest s slot
  (List.range (mChunks m)).filter (fun n => n != 0 && sm3Bytes (slotRead s slot (n * 65536) 65536) != mChunkDigest m n)

/-! ## Measurements and the log (R425, R426) -/

/-- R425, index 10. -/
def secBytes (s : State) : List Byte :=
  leBytes 1 s.sec.level ++ leBytes 1 (b2n s.sec.dbg) ++ leBytes 1 s.fw.slotRun ++ leBytes 1 (b2n s.sec.idok) ++
    leBytes 4 s.fw.dir.svnFloor ++ leBytes 4 s.fw.svn ++ zeros 20

def logEntBytes (e : LogEnt) : List Byte :=
  leBytes 8 e.seq ++ leBytes 8 e.rtc.toNat ++ leBytes 1 e.index ++ leBytes 1 e.event ++ zeros 2 ++
    leBytes 4 e.version.toNat ++ leBytes 32 e.digest.toNat ++ zeros 8

/-- An index takes a value, and the log one entry for it. -/
def measure (index event : Nat) (ver : W32) (v : BitVec 256) (s : State) : State :=
  let e : LogEnt := { seq := s.sec.logNext, rtc := s.clk.rtc, index := index, event := event, version := ver, digest := v }
  let drop := s.sec.log.length - 4095
  { s with sec := { s.sec with
      meas := nmSet index v s.sec.meas, measVer := nmSet index ver s.sec.measVer
      log := (s.sec.log ++ [e]).drop drop, chainOld := (s.sec.chainOld ++ [s.sec.chain]).drop drop
      logNext := s.sec.logNext + 1, chain := Config.sm3 (leBytes 32 s.sec.chain.toNat ++ logEntBytes e) } }

def measureState (event : Nat) (s : State) : State := measure 10 event 0 (Config.sm3 (secBytes s)) s

/-- Indices 2-7 of the image in a slot. -/
def measureImage (slot event : Nat) (s : State) : State :=
  let m := manifest s slot
  let s := measure 2 event (BitVec.ofNat 32 (u16 m 4)) (Config.sm3 (m.take 17536)) s
  [1, 2, 3, 4, 5].foldl (fun s ty => match partOf m ty with
    | some p => measure (ty + 2) event (BitVec.ofNat 32 (u32 p 4)) (Config.sm3 (partBytes s slot p)) s
    | none => s) s

/-! ## Key erasure and alarms (R424, R433) -/

/-- R424, R433: the identity key, the seed and every key derived from them are gone. DEDUCED (log 28). -/
def eraseVolatile (s : State) : State :=
  let staging := s.fw.st == .staging || s.fw.st == .staged
  let clean (e : Transport × Spdm) : Transport × Spdm := (e.1, { e.2 with transcript := 0 })
  { s with
    sec := { s.sec with seed := none, idok := false, spdm := s.sec.spdm.map clean }
    fw := { s.fw with dir := Dir.blank, dirWritable := false, st := if staging then .idle else s.fw.st }
    boot := { s.boot with fieldWritable := false } }

/-- R446: the level of alarm source i; 0 reads as 1 and 3 as 2. -/
def alarmLevel (s : State) (i : Nat) : Nat :=
  let v := bits s.sec.alarm.toNat (2 * i) 2
  if v < 2 then 1 else 2

/-- R433: sources fire in one ao tick. DEDUCED (log 27). -/
def fireAlarm (src : List Nat) (s : State) : State :=
  if src = [] then s
  else
    let lv := src.foldl (fun m i => max m (alarmLevel s i)) 0
    let s := eraseVolatile s
    let s := { s with sec := { s.sec with
        level := max s.sec.level lv, cause := src.foldl (fun c i => c ||| BitVec.ofNat 5 (2 ^ i)) s.sec.cause
        erasePending := s.sec.erasePending || lv == 2 } }
    let s := measureState 3 s
    let s := if lv = 2 then { s with err := { s.err with barred := addOnce 1 (addOnce 0 s.err.barred) } } else s
    postRec 0x1A 3 none 0xFF 0xFFFFFFFF [(0, 1, s.sec.cause.toNat), (1, 1, s.sec.level)] s

/-- R489: the level of ball `ALARM_N`: low while LEVEL is nonzero and the standby rail is up. -/
def alarmN (s : State) : Bool := !(s.clk.vstby && s.sec.level != 0)

/-- HELPER_ERASE_DONE (R433, R446): both helper-data regions are erased. -/
def doHelperEraseDone (s : State) : State :=
  if !s.sec.erasePending then s
  else { s with sec := { s.sec with erasePending := false }
                flash := { s.flash with helper0 := false, helper1 := false } }

def execHelperEraseDone (s : State) : Host.Outcome State Fault Refusal := .next (doHelperEraseDone s)

end Sys2Proof.Machine
end

