-- ==== Sys2Proof/Machine/Power.lean ====
section
/-! DEFINITION. Clocks, power and ageing (chapter 13): the always-on domain's tick (R391, R403, R432, R487, R490),
temperatures (R392), the throttle (R397, R398), the boundary hold (R399), and voltage and clock steps (R400-R402). -/

namespace Sys2Proof.Machine

open Sys2Proof

/-- Open in the spec: DESIGN CHOICE (log 1). -/
def diePwrReset : DiePwr :=
  { w := 0, temp := 0, thermal := .normal, vstep := 0, slack := 0, dstate := .active, idleSince := 0, avsOk := true }

def dieOf (s : State) (c : Nat) : DiePwr := nmGetD s.pwr.dies c diePwrReset

def updDie (c : Nat) (f : DiePwr → DiePwr) (s : State) : State :=
  { s with pwr := { s.pwr with dies := nmUpdD c diePwrReset f s.pwr.dies } }

/-! ## Register values as they read (R404) -/

def clampTo (lo hi n : Nat) : Nat := max lo (min hi n)

/-- PWR_LIMIT: values outside are read as the nearer end. -/
def limitRead (v : W32) : W32 :=
  BitVec.ofNat 32 (clampTo 100 440 (bits v.toNat 16 16) * 65536 + clampTo 5000 25000 (bits v.toNat 0 16))

def limitPkg (s : State) : Nat := bits s.pwr.limitInForce.toNat 0 16
def limitDie (s : State) : Nat := bits s.pwr.limitInForce.toNat 16 16

/-- PWR_CLKCTL: VCEIL up to 16, CLKMAX a multiple of 25 from 1,200 to 1,600; reserved bits as written. -/
def clkctlRead (v : W32) : W32 :=
  let n := v.toNat
  BitVec.ofNat 32 (bits n 21 11 * 2 ^ 21 + min 16 (bits n 16 5) * 65536 + bits n 11 5 * 2048 +
    clampTo 1200 1600 (bits n 0 11 / 25 * 25))

def clkMax (s : State) : Nat := bits s.pwr.clkctlInForce.toNat 0 11
def vceil (s : State) : Nat := bits s.pwr.clkctlInForce.toNat 16 5

/-- R401: the ageing margin of a die. -/
def mage (s : State) (c : Nat) : Nat :=
  let vc := vceil s
  if vc = 0 then 256 else if vc < 16 then min 256 (256 * (dieOf s c).vstep / vc) else 16 * (dieOf s c).vstep

/-! ## Clock and voltage steps (R400, R402) -/

/-- The package clock goes to f: it shows the lower value from the start of the slew, and the record learns it. -/
def slewTo (f : Nat) (s : State) : State :=
  if s.pwr.clk ≤ f then s
  else { s with
    pwr := { s.pwr with clk := f, clkNext := some f }
    boot := { s.boot with field := { s.boot.field with pclk := f }, recPending := true } }

/-- R402: one step of 25 MHz, to no lower than 1,200 MHz. DEDUCED (log 21). -/
def clockStep (s : State) : State := slewTo (max 1200 (s.pwr.clk - 25)) s

def doClockSlewDone (s : State) : State := { s with pwr := { s.pwr with clkNext := none } }

/-- R400: a die's core rail rises by one step. -/
def voltageStep (c : Nat) (s : State) : State :=
  let s := updDie c (fun d => { d with vstep := d.vstep + 1 }) s
  { s with boot := { s.boot with
      field := { s.boot.field with vstep := nmSet c (dieOf s c).vstep s.boot.field.vstep }, recPending := true } }

/-- R485: the set point that die c's hub has written to its regulator, in microvolts. -/
def railSetPoint (s : State) (c : Nat) : Nat := 720000 + 2500 * (dieOf s c).vstep

/-- R402: every ped-2 of a die goes out of service. -/
def retireDie (c cause : Nat) (s : State) : State :=
  (List.range 25).foldl (fun s i =>
    if ped2InService s (c * 25 + i) then retirePed2 (c * 25 + i) cause [] s else s) s

/-- R404: PWR_CLKCTL as the end of a tilth period takes it. -/
def takeClkctl (s : State) : State :=
  let s := { s with pwr := { s.pwr with clkctlInForce := s.pwr.clkctl } }
  if clkMax s < s.pwr.clk then slewTo (clkMax s) s else s

/-- R400: the dies' slack at the end of a tilth period: steps of voltage, then one of the clock, or at 1,200 MHz the
die's retirement. DEDUCED (log 21). -/
def ageDies (slack : List Nat) (s : State) : State :=
  let s := (List.zip (List.range 48) slack).foldl (fun s e => updDie e.1 (fun d => { d with slack := min 1023 e.2 }) s) s
  let short := ((List.zip (List.range 48) slack).filter (fun e => e.2 < 12)).map (·.1)
  let up (c : Nat) : Bool := (dieOf s c).vstep < vceil s && (dieOf s c).avsOk
  let stuck := short.filter (fun c => !(up c))
  let low := s.pwr.clk ≤ 1200
  let s' := (short.filter up).foldl (fun s c => voltageStep c s) s
  if stuck = [] then s'
  else if !low then clockStep s'
  else (stuck.filter (fun c => vceil s ≤ (dieOf s c).vstep)).foldl (fun s c => retireDie c 2 s) s'

/-! ## Temperatures (R392) -/

def thermalOf (s : State) (d : Nat) : Thermal :=
  if d < 48 then (dieOf s d).thermal else nmGetD s.pwr.otherThermal d .normal

/-- Read from the spec by inference: DEDUCED (log 22). -/
def thermalRec (die ev : Nat) (temp : Int) (s : State) : State :=
  postRec 0x17 1 none die 0xFFFFFFFF [(0, 1, die), (1, 1, ev), (2, 2, (BitVec.ofInt 16 temp).toNat)] s

/-- The state that a temperature takes a die to: up at 95 and 105, down 3 degrees below. -/
def nextThermal (t : Thermal) (x : Int) : Thermal :=
  if 105 ≤ x then .hot
  else if t = .hot && 102 < x then .hot
  else if 95 ≤ x then .warning
  else if t ≠ .normal && 92 < x then .warning
  else .normal

/-- One die's temperature: records for the thresholds crossed, and the crossing that the tilth monitor counts.
DEDUCED (log 22). -/
def takeTemp (d : Nat) (x : Int) (s : State) : State :=
  let old := thermalOf s d
  let new := nextThermal old x
  let s := if d < 48 then updDie d (fun p => { p with temp := x, thermal := new }) s
    else { s with pwr := { s.pwr with otherThermal := nmSet d new s.pwr.otherThermal } }
  let crit := if 115 ≤ x then addOnce d s.pwr.crit else if x ≤ 112 then del d s.pwr.crit else s.pwr.crit
  let s := { s with pwr := { s.pwr with crit := crit } }
  let s := if old = .normal && new ≠ .normal then
      thermalRec d 0 x { s with err := { s.err with cTh := s.err.cTh + 1 } } else s
  let s := if old ≠ .hot && new = .hot then thermalRec d 1 x s else s
  let s := if old = .hot && new ≠ .hot then thermalRec d 4 x s else s
  if old ≠ .normal && new = .normal then thermalRec d 4 x s else s

def anyThermal (s : State) (t : Thermal) : Bool :=
  s.pwr.dies.any (fun e => e.2.thermal == t) || s.pwr.otherThermal.any (fun e => e.2 == t)

/-- The level that warnings and hot dies hold the throttle at. -/
def thermalFloor (s : State) : Nat :=
  if anyThermal s .hot then 8 else if anyThermal s .warning || s.pwr.lidHot then 4 else 0

/-! ## AO_TICK -/

/-- R487: a rail outside its operating window, once per cold start; no bound holds from then on. -/
def railOut (rail mv : Nat) (s : State) : State :=
  let s := { s with reg := { s.reg with boundsVoid := true } }
  if rail ∈ s.pwr.railWarned then s
  else configWarn 3 rail 8 mv { s with pwr := { s.pwr with railWarned := addOnce rail s.pwr.railWarned } }

/-- R391: the always-on domain of H1 takes over. PRESUMED (log 29). -/
def aoFailover (smp : AoSample) (s : State) : State :=
  let was := s.clk.h0Lost
  let s := { s with clk := { s.clk with h0Lost := !smp.h0Standby } }
  if smp.h0Standby || was || s.clk.aoh1 then s
  else postRec 0x18 1 none 62 0xFFFFFFFF [(0, 1, 0), (1, 1, 2)] { s with clk := { s.clk with aoh1 := true } }

/-- R432, R487, R490: the sources whose condition holds. -/
def alarmSources (smp : AoSample) (s : State) : List Nat :=
  let hot := smp.aoTempOut || s.pwr.crit != []
  (if (smp.mainRailOut && s.clk.mainEn) || smp.standbyOut then [0] else []) ++
  (if smp.clockOut then [1] else []) ++
  (if hot then [2] else []) ++
  (if smp.meshBroken || 2 ≤ s.clk.tamperLow then [3] else []) ++
  (if smp.debugEnabled && !s.sec.dbg then [4] else [])

/-- R433: the sources that were not active at the last tick fire. DEDUCED (log 27). -/
def takeAlarms (smp : AoSample) (s : State) : State :=
  let act := alarmSources smp s
  let new := act.filter (fun i => !(s.sec.srcActive.getLsbD i))
  let s := { s with sec := { s.sec with srcActive := act.foldl (fun m i => m ||| BitVec.ofNat 5 (2 ^ i)) 0 } }
  fireAlarm new s

/-- P or a die above its limit. -/
def overPower (s : State) : Bool := limitPkg s < s.pwr.pkgW || s.pwr.dies.any (fun e => limitDie s < e.2.w)

/-- PWR_STAT.CAUSE: the causes in force; bits 4 and 5 stay as they are. -/
def causesNow (s : State) : BitVec 6 :=
  (s.pwr.cause &&& 0x30) |||
    BitVec.ofNat 6 (b2n (limitPkg s < s.pwr.pkgW) + 2 * b2n (s.pwr.dies.any (fun e => limitDie s < e.2.w)) +
      4 * b2n (anyThermal s .warning || s.pwr.lidHot) + 8 * b2n (anyThermal s .hot))

/-- Open in the spec: DESIGN CHOICE (log 18). -/
def doAoTick (smp : AoSample) (s : State) : State :=
  if !s.clk.vstby then s
  else
    let s := { s with clk := { s.clk with
        rtc := s.clk.rtc + 1, tbPcc := s.clk.pcc, tbRtc := s.clk.rtc + 1
        tamperLow := if smp.tamperExtLow then min 2 (s.clk.tamperLow + 1) else 0 } }
    let s := aoFailover smp s
    let s := smp.dieTemps.foldl (fun s e => takeTemp e.1 e.2 s) s
    let s := { s with pwr := { s.pwr with cause := causesNow s } }
    let s := if s.clk.mainEn then smp.railWarn.foldl (fun s e => railOut e.1 e.2.toNat s) s else s
    let s := match smp.pccMismatch with
      | some d => if s.clk.pccRun then postRec 0x19 3 none d 0xFFFFFFFF [(0, 1, d), (1, 1, 2)] s else s
      | none => s
    takeAlarms smp s

/-! ## POWER_SAMPLE and the throttle (R397-R399) -/

/-- P and every C-die at or below 0.95 of their limits. DEDUCED (log 20). -/
def lowPower (s : State) : Bool :=
  100 * s.pwr.pkgW ≤ 95 * limitPkg s && s.pwr.dies.all (fun e => 100 * e.2.w ≤ 95 * limitDie s)

/-- R398: the change that a sample asks for at the next PCC multiple of 16: up, down or none. DEDUCED (log 19, 20). -/
def nextMove (s : State) : Option Bool :=
  if overPower s then some true
  else if 16384 ≤ s.pwr.lowGc && thermalFloor s = 0 then some false
  else none

/-- R398: the level after a PCC multiple of 16: the sample's change, or a step towards what warm dies hold it at; never
more than one. DEDUCED (log 19). -/
def nextLevel (s : State) : Nat :=
  if s.pwr.move = some true || s.pwr.level < thermalFloor s then min 8 (s.pwr.level + 1)
  else if s.pwr.move = some false && thermalFloor s = 0 then s.pwr.level - 1
  else s.pwr.level

/-- R398: whether the level stands at 8 with P above PKG. -/
def saturatedNow (s : State) : Bool := s.pwr.level == 8 && decide (limitPkg s < s.pwr.pkgW)

/-- At a PCC multiple of 16 the level changes (R397, R398). -/
def moveLevel (s : State) : State :=
  let s := { s with pwr := { s.pwr with level := nextLevel s, move := none } }
  { s with pwr := { s.pwr with saturated := saturatedNow s } }

/-- R491: the lid's centre sensor. -/
def takeLid (lid : Int) (s : State) : State :=
  let hot : Bool := 70 < lid
  let s' := { s with pwr := { s.pwr with lidHot := hot } }
  if hot && !s.pwr.lidHot then thermalRec 0xFF 2 lid s' else s'

/-- Open in the spec: DESIGN CHOICE (log 18). -/
def doPowerSample (pkgW : Nat) (dieW : List Nat) (lid : Int) (s : State) : State :=
  if !s.clk.mainEn then s
  else
    let s := { s with pwr := { s.pwr with limitInForce := s.pwr.limit, pkgW := min pkgW 65535 } }
    let s := (List.zip (List.range 48) dieW).foldl (fun s e => updDie e.1 (fun d => { d with w := min e.2 65535 }) s) s
    let s := takeLid lid s
    let s := { s with pwr := { s.pwr with lowGc := if lowPower s then min 16384 (s.pwr.lowGc + 1024) else 0 } }
    let s := { s with pwr := { s.pwr with cause := causesNow s } }
    let s := { s with pwr := { s.pwr with move := nextMove s } }
    { s with pwr := { s.pwr with saturated := saturatedNow s } }

/-- THROTTLE_SATURATION_TIMEOUT (R398, R399): 10 ms at level 8 with P above PKG. -/
def doThrottleSaturationTimeout (s : State) : State :=
  if !s.pwr.saturated then s
  else if 1200 < s.pwr.clk then
    clockStep { s with pwr := { s.pwr with cause := s.pwr.cause ||| 0x10 } }
  else if s.pwr.hold.isSome then s
  else thermalRec 0xFF 3 0 { s with pwr := { s.pwr with hold := some 1024, cause := s.pwr.cause ||| 0x20 } }

/-- BOUNDARY_HOLD_ADJUST (R399): a further 10 ms of a boundary hold. -/
def doBoundaryHoldAdjust (s : State) : State :=
  match s.pwr.hold with
  | none => s
  | some h =>
    if limitPkg s < s.pwr.pkgW then { s with pwr := { s.pwr with hold := some (min (2 ^ 20) (2 * h)) } }
    else if 100 * s.pwr.pkgW ≤ 95 * limitPkg s then
      if h / 2 < 1024 then { s with pwr := { s.pwr with hold := none, cause := s.pwr.cause &&& 0x1F } }
      else { s with pwr := { s.pwr with hold := some (h / 2) } }
    else s

/-- AVSBUS_TIMEOUT (R485): the rail counts as outside its operating window. Its voltage is not known.
DESIGN CHOICE (log 23). -/
def doAvsbusTimeout (c : Nat) (s : State) : State :=
  if 47 < c then s
  else
    let r0 := freeBits 16 s
    let mv := r0.1
    let s := r0.2
    railOut c mv.toNat (updDie c (fun d => { d with avsOk := false }) s)

/-! ## PWR_CTL and PWR_BALLAST (R104, R394, R395, R404) -/

/-- R395: a change of GATE_EN ungates every ped-1, or gates those that are quiet. -/
def applyGating (s : State) : State :=
  if !(gateEn s) then
    let open_ (e : Nat × Ped2) : Nat × Ped2 := (e.1, { e.2 with gated := [], prewake := [] })
    { s with ped2s := s.ped2s.map open_ }
  else (s.ped2s.map (·.1)).foldl (fun s p => (List.range 16).foldl (fun s i => gatePed1 p i s) s) s

def doPwrCtlWrite (rq : Requester) (val : W32) (s : State) : State :=
  if !(pfOrAbove rq) then s
  else
    let moved := (val ^^^ s.pwr.ctl) &&& 0xFFFFFFFC
    applyGating (noteRwp (moved != 0) { s with pwr := { s.pwr with ctl := val } })

/-- R404 lets the management path write it too, beside those that R104 names. DEDUCED (log 112). -/
def doPwrBallastWrite (rq : Requester) (val : W32) (s : State) : State :=
  if !(pfOrAbove rq) then s
  else
    let moved := (val ^^^ s.pwr.ballast) &&& 0xFFE00000
    let lv := min 8 (bits val.toNat 16 4)
    let v : W32 := (val &&& 0xFFF0FFFF) ||| BitVec.ofNat 32 (lv * 65536)
    noteRwp (moved != 0) { s with pwr := { s.pwr with ballast := v } }

def execClockSlewDone (s : State) : Host.Outcome State Fault Refusal := .next (doClockSlewDone s)
def execAoTick (smp : AoSample) (s : State) : Host.Outcome State Fault Refusal := .next (doAoTick smp s)
def execPowerSample (pkgW : Nat) (dieW : List Nat) (lid : Int) (s : State) : Host.Outcome State Fault Refusal :=
  .next (doPowerSample pkgW dieW lid s)
def execThrottleSaturationTimeout (s : State) : Host.Outcome State Fault Refusal := .next (doThrottleSaturationTimeout s)
def execBoundaryHoldAdjust (s : State) : Host.Outcome State Fault Refusal := .next (doBoundaryHoldAdjust s)
def execAvsbusTimeout (c : Nat) (s : State) : Host.Outcome State Fault Refusal := .next (doAvsbusTimeout c s)
def execPwrCtlWrite (rq : Requester) (val : W32) (s : State) : Host.Outcome State Fault Refusal :=
  .next (onBar rq (doPwrCtlWrite rq val) s)
def execPwrBallastWrite (rq : Requester) (val : W32) (s : State) : Host.Outcome State Fault Refusal :=
  .next (onBar rq (doPwrBallastWrite rq val) s)

end Sys2Proof.Machine
end

