-- ==== Sys2Proof/Machine/Startup.lean ====
section
/-! DEFINITION. Power, the cold start sequence and the package reset (R325, R405-R409, R487), the configuration record
(R410-R413), the slot that boots (R443-R445), memory and drive training (R217, R218, R220), and the start-up self-test
(R414). -/

namespace Sys2Proof.Machine

open Sys2Proof

/-! ## Power-on, and dies in reset (R405, R487) -/

/-- A port after a cold start: its link is down from now on. -/
def portCold (rtc : W64) (p : Port) : Port := { Port.reset with perst := p.perst, downRtc := rtc }

/-- Every die but the always-on domain in reset: what survives is the domain's own state, boot flash, the fatal slots,
alarm level and levels, the states of its temperature comparators (R391), and what lies outside the package.
DESIGN CHOICE (log 16). -/
def diesOff (s : State) : State :=
  { State.reset with
    clk := { s.clk with pccRun := false, pcc := 0, wallUs := 0 }
    flash := s.flash
    pwr := { Pwr.reset with dies := s.pwr.dies.map (fun e => (e.1, { diePwrReset with thermal := e.2.thermal }))
                            otherThermal := s.pwr.otherThermal, crit := s.pwr.crit }
    sec := { Sec.reset with level := s.sec.level, cause := s.sec.cause, srcActive := s.sec.srcActive
                            alarm := s.sec.alarm, erasePending := s.sec.erasePending }
    port0 := portCold s.clk.rtc s.port0
    port1 := portCold s.clk.rtc s.port1
    hz := { Hz.reset with host0 := s.hz.host0, host1 := s.hz.host1 }
    err := { Err.reset with slots := s.err.slots, valid := s.err.valid, fseq := s.err.fseq, noDump := s.err.noDump }
    nextCid := s.nextCid
    nextSer := s.nextSer
    out := s.out
    freeCtr := s.freeCtr
    pending := s.pending }

/-- The cold start begins: both H-dies are released, and the ROM loads Horica (R406).
DEDUCED (log 15, 17); DESIGN CHOICE (log 16). -/
def beginCold (s : State) : State :=
  let s := diesOff s
  { s with boot := { s.boot with running := true, phase := 1, p0Rtc := s.clk.rtc } }

/-- R325: a package reset. -/
def packageReset (s : State) : State := if s.clk.vstby && s.clk.mainEn then beginCold s else s

/-- POWER_ON: the always-on domain starts with the RTC at 0; a helper-data erase that was cut short is finished (R433).
DESIGN CHOICE (log 16). -/
def doPowerOn (s : State) : State :=
  let fl := if s.sec.erasePending then { s.flash with helper0 := false, helper1 := false } else s.flash
  { State.reset with
    clk := { Clk.reset with vstby := true }
    flash := fl
    port0 := portCold 0 s.port0
    port1 := portCold 0 s.port1
    hz := { Hz.reset with host0 := s.hz.host0, host1 := s.hz.host1 }
    nextCid := s.nextCid
    nextSer := s.nextSer
    out := s.out
    freeCtr := s.freeCtr
    pending := s.pending }

def doMainEnAssert (s : State) : State :=
  if !s.clk.vstby || s.clk.mainEn then s else beginCold { s with clk := { s.clk with mainEn := true } }

def doMainEnDeassert (s : State) : State :=
  if !s.clk.mainEn then s else diesOff { s with clk := { s.clk with mainEn := false } }

/-- COLD_START: on a request of the management path (R391, R405). -/
def doColdStart (s : State) : State := packageReset s

/-! ## The end of the sequence (R303, R407, R409, R443) -/

/-- R303: the ring engine takes the admin rings, and ARDY is set. DEDUCED (log 13, 64). -/
def takeAdmin (fn : Nat) (s : State) : State :=
  updFn fn (fun f =>
    let size (v : W64) : Nat := bits v.toNat 0 4
    let ok (v : W64) : Bool := 4 ≤ size v && size v ≤ 12
    { f with
      ardy := true, aenHeld := false, disabling := false
      asqr := { subRingOff with loaded := ok f.asq, base := f.asq &&& 0xFFFFFFFFFFFFF000, size := size f.asq, kind := if ok f.asq then 1 else 0 }
      acqr := { cplRingOff with loaded := ok f.acq, base := f.acq &&& 0xFFFFFFFFFFFFF000, size := size f.acq, en := ok f.acq
                                vector := bits f.ctl.toNat 16 11 } }) s

/-- R443: a trial boot that reaches DONE in time makes PENDING the active slot. -/
def trialCommit (s : State) : State :=
  if !s.fw.trial || 30000 < elapsed s then s
  else
    let n := s.fw.slotRun
    let floor := mFloor (manifest s n)
    let s := writeDir (fun d => { d with
      active := n, pend := none, stage := none, nchunk := 0, bitmap := 0, svnFloor := max d.svnFloor floor }) s
    let s := { s with fw := { s.fw with trial := false, st := .idle } }
    measureState 1 (measureImage n 1 s)

/-- The cold start ends: DONE with READY or DEGRADED, or HELD where it stands. Held admin rings come into service.
DEDUCED (log 12, 13). -/
def endCold (outcome reason : Nat) (s : State) : State :=
  let s := { s with boot := { s.boot with
      running := false, outcome := outcome, reason := reason, elapsedMs := elapsed s, ready := true
      phase := if outcome = 3 then s.boot.phase else 15 } }
  let s := if outcome = 3 then s else trialCommit s
  (s.fns.filter (fun e => e.2.aenHeld)).foldl (fun s e => takeAdmin e.1 s) s

/-! ## P1: the slot that boots (R423, R425, R443-R445) -/

def bootable (s : State) (n : Nat) : Bool := manifestOk (manifest s n) s.fw.dir.svnFloor && partsOk s n

/-- R445: the state that staging comes back in. -/
def stagedState (d : Dir) : FwSt := if d.stage.isNone then .idle else if dirComplete d then .staged else .staging

/-- R425, R426: the log restarts with every index, event 0. DEDUCED (log 26). -/
def measureStart (n : Nat) (event : Nat) (s : State) : State :=
  let s := measure 1 event 0 (Config.sm3 Config.romCode) s
  let s := if n = 2 then s else measureImage n event s
  let fact := if s.flash.factA.valid then s.flash.factA else s.flash.factB
  let s := measure 8 event 0 (Config.sm3 (factBytes fact)) s
  let pick (a b : FieldPart) : Option FieldPart :=
    if a.valid && (!b.valid || b.seq ≤ a.seq) then some a else if b.valid then some b else none
  let v : BitVec 256 := match (if s.sec.idok then pick s.flash.fieldA s.flash.fieldB else none) with
    | some f => Config.sm3 (fieldBytes f)
    | none => 0
  measureState event (measure 9 event 0 v s)

/-- Read from the spec by inference: DEDUCED (log 12, 26). -/
def doFirmwareLoadDone (rom : RomInputs) (s : State) : State :=
  if !s.boot.running || s.boot.phase ≠ 1 then s
  else
    let helper := if s.clk.aoh1 then s.flash.helper1 else s.flash.helper0
    let seed := if helper then rom.seed else none
    let d := if seed.isSome then pickDir s.flash else Dir.blank
    let s := { s with
      sec := { s.sec with seed := seed, idok := seed.isSome }
      fw := { s.fw with dir := d, dirWritable := seed.isSome } }
    let trial := d.pend.isSome && d.tries ≠ 0
    let revert := d.pend.isSome && d.tries = 0
    let s := if trial then writeDir (fun d => { d with tries := d.tries - 1 }) s else s
    let s := if revert then writeDir (fun d => { d with pend := none }) s else s
    let first := if trial then d.pend.getD 0 else d.active
    let n := if rom.recoveryLow then 2
      else if bootable s first then first
      else if bootable s (1 - first) then 1 - first
      else 2
    let rec_ := if !(bootable s 0) then 0 else if !(bootable s 1) then 1 else 1 - d.active
    let svn := if n = 2 then 0 else mSvn (manifest s n)
    let s := { s with fw := { s.fw with
        slotRun := n, svn := svn, standby := n != 2, trial := trial && some n == d.pend
        recStage := rec_, st := stagedState s.fw.dir } }
    let s := measureStart n 0 s
    let s := if revert then measureState 2 s else s
    if n = 2 then
      { s with boot := { s.boot with running := false, recovery := true, ready := true } } |> fun s =>
        (s.fns.filter (fun e => e.2.aenHeld)).foldl (fun s e => takeAdmin e.1 s) s
    else { s with boot := { s.boot with phase := 2 } }

/-- TRIAL_BOOT_TIMEOUT (R443): 30 s from P0 without DONE. DEDUCED (log 26). -/
def doTrialBootTimeout (s : State) : State :=
  if s.fw.trial && s.boot.phase ≠ 15 then packageReset s else s

/-! ## P2 and P3 (R393, R410, R412) -/

/-- P2 runs with the main rails on; PCC is let go once, at its end. DEDUCED (log 11). -/
def doDieBringupDone (bridgesOk : Bool) (dead : List Nat) (nonce : BitVec 128) (s : State) : State :=
  if !s.boot.running || s.boot.phase ≠ 2 || !s.clk.mainEn || s.clk.pccRun then s
  else
    let dies := (List.range 48).map (fun c => (c, { diePwrReset with dstate := .idle, thermal := (dieOf s c).thermal }))
    let s := { s with
      clk := { s.clk with pccRun := true, pcc := 0 }, sec := { s.sec with nonce := nonce }
      pwr := { s.pwr with dies := dies } }
    if !bridgesOk then endCold 3 3 s
    else if dead ≠ [] then endCold 3 4 s
    else { s with boot := { s.boot with phase := 3 } }

/-- R412: the package clock that the record gives. DEDUCED (log 11, 25). -/
def startClock (s : State) : Nat :=
  let bins := (List.range 48).foldl (fun m c => min m (1200 + 25 * (dieEntry s.boot.fact c).fbin)) 1600
  max 1200 (min (min s.boot.field.pclk bins) (clkMax s))

/-- Read from the spec by inference: DEDUCED (log 30). -/
def doConfigRecordSelect (s : State) : State :=
  if !s.boot.running || s.boot.phase ≠ 3 then s
  else
    let fl := s.flash
    if !fl.factA.valid && !fl.factB.valid then endCold 3 1 s
    else
      let fact := if fl.factA.valid then fl.factA else fl.factB
      let useA := fl.fieldA.valid && (!fl.fieldB.valid || fl.fieldB.seq ≤ fl.fieldA.seq)
      let have_ := s.sec.idok && (fl.fieldA.valid || fl.fieldB.valid)
      let field := if !have_ then { FieldPart.blank with pclk := 1600, failed := fact.failed0 }
        else if useA then fl.fieldA else fl.fieldB
      let s := { s with boot := { s.boot with
          fact := fact, field := field, fieldCopyA := useA, fieldWritable := have_, serialShown := true, ready := true
          phase := 4 } }
      let clk := startClock s
      let s := (List.range 48).foldl (fun s c => updDie c (fun d => { d with vstep := nmGetD field.vstep c 0 }) s) s
      let s := { s with
        pwr := { s.pwr with clk := clk, clkNext := none }
        boot := { s.boot with clkbin := (clk - 1200) / 25 }
        hz := { s.hz with retFrames := field.frames.map (fun e => (e.1, e.2.2)) } }
      if have_ then s else configWarn 4 0 7 0 s

/-! ## P4: training (R217, R218, R220, R409) -/

/-- Both P4 and P5 run. -/
def trainingNow (s : State) : Bool := s.boot.running && (s.boot.phase == 4 || s.boot.phase == 5)

/-- P4 has ended; P5 is shown while it still runs. DEDUCED (log 14). -/
def settleP4 (s : State) : State :=
  let over_ := s.boot.hbmDone.length == 48 && s.boot.ddrDone && (s.boot.nvmeDone || s.hz.channels == [])
  { s with
    boot := { s.boot with phase := if over_ then 5 else s.boot.phase }
    hz := { s.hz with cfgFinal := s.hz.cfgFinal || (s.boot.ddrDone && (s.boot.nvmeDone || s.hz.channels == [])) } }

def doHbmTrainingDone (stack : Nat) (ok : Bool) (s : State) : State :=
  if !(trainingNow s) || 47 < stack || stack ∈ s.boot.hbmDone then s
  else if ok then settleP4 { s with boot := { s.boot with hbmDone := addOnce stack s.boot.hbmDone } }
  else if stack ∈ s.boot.hbmFailed then endCold 3 2 s
  else { s with boot := { s.boot with hbmFailed := addOnce stack s.boot.hbmFailed } }

/-- R217: a T-die meets its own conditions. -/
def tdieOk (t : TDieTrain) : Bool :=
  t.tdie < 6 && t.trained.length == 8 && t.trained.all id && t.uniform && (t.dpc == 1 || t.dpc == 2) && 32 ≤ t.gib &&
    t.gib ≤ 256 && (t.devWidth == 4 || t.devWidth == 8)

/-- Read from the spec by inference: DEDUCED (log 24). -/
def tdieSame (a b : TDieTrain) : Bool :=
  a.dpc == b.dpc && a.gib == b.gib && a.ranks == b.ranks && a.devWidth == b.devWidth && a.grade == b.grade

/-- The T-die whose DIMMs the others must match: the lowest-numbered that meets its own conditions.
DEDUCED (log 24). -/
def tdieFirst (l : List TDieTrain) : Option TDieTrain :=
  (l.filter tdieOk).foldl (fun m t => match m with | none => some t | some x => if t.tdie < x.tdie then some t else some x) none

/-- R218, R495: the warning of a T-die that is left out. DEDUCED (log 24). -/
def tdieWarn (t : TDieTrain) (s : State) : State :=
  match (List.range 8).find? (fun i => !(t.trained.getD i false)) with
  | some i => configWarn 1 (8 * t.tdie + i) 2 0 s
  | none => configWarn 1 (8 * t.tdie) 3 0 s

def speedCode (mts : Nat) : Nat := if 6400 ≤ mts then 3 else if 5600 ≤ mts then 2 else 1

/-- Read from the spec by inference: DEDUCED (log 24). -/
def doDdr5TrainingDone (found : List TDieTrain) (s : State) : State :=
  if !(trainingNow s) || s.boot.ddrDone then s
  else
    let joins (x t : TDieTrain) : Bool := tdieOk t && tdieSame x t
    let s := { s with boot := { s.boot with ddrDone := true } }
    match tdieFirst found with
    | none => settleP4 (found.foldl (fun s t => tdieWarn t s) { s with boot := { s.boot with degraded := found != [] } })
    | some x =>
      let in_ := (List.range 6).filter (fun n => found.any (fun t => t.tdie == n && joins x t))
      let out := found.filter (fun t => !(joins x t))
      let s := { s with
        hz := { s.hz with
          channels := in_.flatMap (fun n => (List.range 8).map (fun i => 8 * n + i)), dpc := x.dpc, dimmGib := x.gib
          speed := speedCode (min x.grade (if x.dpc = 1 then 6400 else 5600)) }
        boot := { s.boot with degraded := s.boot.degraded || out != [] } }
      settleP4 (out.foldl (fun s t => tdieWarn t s) s)

/-- R220: a drive may join, at full or at half rate. -/
def driveOk (d : DriveFound) : Bool :=
  d.drive < 24 && d.direct && d.nvme14 && d.xfer64k && d.lba4096 && d.deallocZero && d.ready && d.width == 4 && 4 ≤ d.gen

/-- NVME_ENUM_DONE (R2, R220). The one CONFIG_WARN record of reason 1, where drives are found without DDR5, names the first
of the drives found; the spec does not say which. DESIGN CHOICE (log 120). -/
def doNvmeEnumDone (found : List DriveFound) (s : State) : State :=
  if !(trainingNow s) || s.boot.nvmeDone || !s.boot.ddrDone then s
  else
    let s := { s with boot := { s.boot with nvmeDone := true } }
    if s.hz.channels = [] then
      match found with
      | [] => settleP4 s
      | d :: _ => settleP4 (configWarn 2 d.drive 1 0 s)
    else
      let in_ := found.filter driveOk
      let out := found.filter (fun d => !(driveOk d))
      let half := in_.filter (fun d => d.gen == 4)
      let size := in_.foldl (fun m d => min m (d.sizeBytes / 65536)) (128000000000000 / 65536)
      let s := { s with
        hz := { s.hz with drives := (List.range 24).filter (fun n => in_.any (fun d => d.drive == n))
                          driveGran := if in_ = [] then 0 else size, reduced := half.map (·.drive) }
        boot := { s.boot with degraded := s.boot.degraded || out != [] } }
      let s := half.foldl (fun s d => configWarn 2 d.drive 4 (d.gen + 256 * d.width) s) s
      settleP4 (out.foldl (fun s d => configWarn 2 d.drive 5 0 s) s)

/-! ## P5 and P6 (R22, R25, R413, R414) -/

/-- The grain at position g of ped-2 p is marked in FAILED. -/
def isFailed (s : State) (p g : Nat) : Bool :=
  (nmGetD s.boot.field.failed p 0).getLsbD g || (nmGetD s.boot.fact.failed0 p 0).getLsbD g

def doStartupSelftestDone (failed : List (Nat × Nat)) (notRun : List Nat) (s : State) : State :=
  if !(trainingNow s) || s.boot.testDone then s
  else
    let new := failed.filter (fun e => e.1 < ped2Count && e.2 < 256 && !(isFailed s e.1 e.2))
    let s := { s with boot := { s.boot with testDone := true } }
    let s := new.foldl (fun s e => learnFailed (e.1 * 256 + e.2) s) s
    if notRun = [] then s
    else
      let ps := notRun.flatMap (fun c => (List.range 25).map (fun i => c * 25 + i))
      let field := { s.boot.field with retired := ps.foldl (fun l p => addOnce p l) s.boot.field.retired }
      endCold 3 4 { s with boot := { s.boot with field := field, recPending := true } }

/-- The lowest n set bits of a map. -/
def lowestBits (m : BitVec 256) (n : Nat) : BitVec 256 :=
  BitVec.ofNat 256 ((List.range 256).foldl (fun (a : Nat × Nat) i =>
    if m.getLsbD i && a.2 < n then (a.1 + 2 ^ i, a.2 + 1) else a) (0, 0)).1

/-- Ped-2 p joins the map, or is retired (R22). -/
def buildPed2 (p : Nat) (s : State) : State :=
  let good := ~~~(nmGetD s.boot.field.failed p 0 ||| nmGetD s.boot.fact.failed0 p 0)
  let was : Bool := p ∈ s.boot.field.retired
  let few : Bool := popCount good < 250
  let en := if was || few then 0 else lowestBits good 250
  let put (v : BitVec 256) (m : NatMap (BitVec 256)) : NatMap (BitVec 256) := if v = 0 then m else nmSet p v m
  let s := { s with emap := { s.emap with
      enabled := put en s.emap.enabled, spare := put (good &&& ~~~en) s.emap.spare, cold := put en s.emap.cold
      retired := if was || few then addOnce p s.emap.retired else s.emap.retired } }
  if few && !was then
    postRec 0x06 2 none (dieOfPed2 p) 0xFFFFFFFF [(0, 2, p), (2, 1, 0), (4, 2, popCount good)] (learnPed2 p s)
  else s

/-- The map of every ped-2, in order. -/
def buildPed2s (s : State) : State := (List.range ped2Count).foldl (fun s p => buildPed2 p s) s

/-- The map is whole: KIND is known, and the cold start ends (R406, R409). DEDUCED (log 30). -/
def endMap (s : State) : State :=
  let s := { s with
    emap := { s.emap with built := true }
    boot := { s.boot with
      kind := if s.hz.channels = [] then 2 else if s.hz.drives = [] then 1 else 0, kindValid := true } }
  let ready := s.emap.retired == [] && !s.boot.degraded && s.boot.field.frames == []
  endCold (if ready then 1 else 2) 0 s

/-- P6: the map, every local-store unit scrubbed, and the end of the cold start (R27, R341, R406, R409). -/
def doEnabledMapBuild (s : State) : State :=
  if !s.boot.running || s.boot.phase ≠ 5 || !s.boot.testDone then s
  else endMap (buildPed2s
    { s with emap := EMap.reset, phys := [], grains := [], boot := { s.boot with phase := 6 } })

/-- CONFIG_RECORD_WRITE (R413): the field part goes to the copy that does not hold the selected SEQ. -/
def doConfigRecordWrite (s : State) : State :=
  if !s.boot.recPending || !s.boot.fieldWritable then s
  else
    let top := max (if s.flash.fieldA.valid then s.flash.fieldA.seq else 0) (if s.flash.fieldB.valid then s.flash.fieldB.seq else 0)
    let f := { s.boot.field with valid := true, seq := top + 1 }
    { s with
      boot := { s.boot with field := f, recPending := false, fieldCopyA := !s.boot.fieldCopyA }
      flash := if s.boot.fieldCopyA then { s.flash with fieldB := f } else { s.flash with fieldA := f } }

def execPowerOn (s : State) : Host.Outcome State Fault Refusal := .next (doPowerOn s)
def execMainEnAssert (s : State) : Host.Outcome State Fault Refusal := .next (doMainEnAssert s)
def execMainEnDeassert (s : State) : Host.Outcome State Fault Refusal := .next (doMainEnDeassert s)
def execColdStart (s : State) : Host.Outcome State Fault Refusal := .next (doColdStart s)
def execFirmwareLoadDone (rom : RomInputs) (s : State) : Host.Outcome State Fault Refusal := .next (doFirmwareLoadDone rom s)
def execTrialBootTimeout (s : State) : Host.Outcome State Fault Refusal := .next (doTrialBootTimeout s)
def execDieBringupDone (bridgesOk : Bool) (deadDies : List Nat) (nonce : BitVec 128) (s : State) :
    Host.Outcome State Fault Refusal := .next (doDieBringupDone bridgesOk deadDies nonce s)
def execConfigRecordSelect (s : State) : Host.Outcome State Fault Refusal := .next (doConfigRecordSelect s)
def execHbmTrainingDone (stack : Nat) (ok : Bool) (s : State) : Host.Outcome State Fault Refusal :=
  .next (doHbmTrainingDone stack ok s)
def execDdr5TrainingDone (found : List TDieTrain) (s : State) : Host.Outcome State Fault Refusal :=
  .next (doDdr5TrainingDone found s)
def execNvmeEnumDone (found : List DriveFound) (s : State) : Host.Outcome State Fault Refusal := .next (doNvmeEnumDone found s)
def execStartupSelftestDone (failed : List (Nat × Nat)) (notRun : List Nat) (s : State) : Host.Outcome State Fault Refusal :=
  .next (doStartupSelftestDone failed notRun s)
def execEnabledMapBuild (s : State) : Host.Outcome State Fault Refusal := .next (doEnabledMapBuild s)
def execConfigRecordWrite (s : State) : Host.Outcome State Fault Refusal := .next (doConfigRecordWrite s)

end Sys2Proof.Machine
end

