-- ==== Sys2Proof/Machine/Resilience.lean ====
section
/-! DEFINITION. Securing, rollback and replay (R349-R370), the tilth monitor (R364), the error block's writes (R385-R387),
lockstep and logic comparison (R381), and the dump's buffer (R389). -/

namespace Sys2Proof.Machine

open Sys2Proof

/-! ## SECURE_POLICY (R350-R353) -/

/-- R351: one registration entry. -/
def regEntry (e : List Byte) : W32 × Bool × Nat := (BitVec.ofNat 32 (u32 e 0), u8 e 4 = 1, u16 e 6)

def parsePol (p : List Byte) (ents : List (List Byte)) : SecPol :=
  { kmin := u16 p 0, kmax := u16 p 2, sgroup := u16 p 4, bstride := u16 p 6, nbuddy := u8 p 8, en := bitAt (u8 p 9) 0
    regs := ents.map regEntry, regtab := BitVec.ofNat 32 (u32 p 12), silt := BitVec.ofNat 32 (u32 p 24)
    strata := BitVec.ofNat 32 (u32 p 28), mirror := BitVec.ofNat 32 (u32 p 32) }

def homedIn (o : Obj) (hs : List Nat) : Bool := o.gran.all (fun g => g.hzn ∈ hs)

/-- R351, R352: a registration entry that the policy may not hold. -/
def regBad (s : State) (ctx sgroup : Nat) (e : List Byte) : Bool :=
  1 < u8 e 4 || u8 e 5 ≠ 0 || !(allZero (slice e 8 8)) ||
    (match ownObj s ctx (regEntry e).1 with
      | none => true
      | some o =>
        if u8 e 4 = 1 then u16 e 6 ≠ 0 || !(homedIn o [1, 2, 4])
        else match nmGet s.fab.buckets (u16 e 6) with
          | none => true
          | some b => b.ctx != ctx || b.group != sgroup || bOper b != 2 || (b.wfmt != 0 && b.wfmt != 1))

/-- R352: a field of the policy is out of range, reserved, or names what it may not. DEDUCED (log 51). -/
def polBad (s : State) (ctx : Nat) (p : List Byte) (x : SecPol) (ents : List (List Byte)) (tabOk : Bool) : Bool :=
  let g := nmGet s.fab.groups x.sgroup
  let n := match g with | some g => g.members.length | none => 0
  x.kmin = 0 || x.kmax < x.kmin || 1 < u8 p 9 || x.nbuddy = 0 || 2 < x.nbuddy || 256 < u16 p 10 ||
    u64 p 16 % 16 ≠ 0 || !(allZero (p.drop 36)) || !tabOk ||
    (match g with | some g => g.ctx != ctx | none => true) || x.bstride = 0 || n ≤ x.bstride ||
    (x.nbuddy = 2 && (n < 3 || 2 * x.bstride % max n 1 = 0)) || ents.any (regBad s ctx x.sgroup) ||
    (match ownObj s ctx x.strata with | some o => !o.pin || !(homedIn o [resolveHzn s 5]) | none => true) ||
    (x.mirror ≠ 0 && (match ownObj s ctx x.mirror with | some o => !(homedIn o [4]) | none => true)) ||
    (match ownObj s ctx x.silt with
      | some o => !o.pin ||
          o.size < x.nbuddy * 2 * (regBytes s ctx x.regs false + regBytes s ctx x.regs true + nineMib)
      | none => true)

/-- Every granule counts as written since the last copy into either generation. -/
def dirtyAll (o : Obj) : Obj := { o with gran := o.gran.map (fun g => { g with gen0 := true, gen1 := true }) }

/-- The SECURE_NOWs of a point that cannot complete. DEDUCED (log 51). -/
def failNow (cids : List Nat) (s : State) : State := cids.foldl (fun s k => finish0 k stSTEP_LOST s) s

/-- Read from the spec by inference: DEDUCED (log 51). -/
def doSecurePolicy (cid : Nat) (s : State) : State :=
  match ready s cid 0x51 with
  | none => s
  | some k =>
    let s := startCmd cid s
    let ctx := k.ctx.getD 0
    match ctxOf s ctx with
    | none => s
    | some c =>
      if runOut s ctx || liveTags s ctx ≠ [] then finish0 cid stBUSY s
      else
        let p := k.param
        let tab := ownObj s ctx (BitVec.ofNat 32 (u32 p 12))
        let n := u16 p 10
        let tabOk := match tab with | some o => u64 p 16 + 16 * n ≤ o.size | none => false
        let ents := match tab with
          | some o => if tabOk && n ≤ 256 then (List.range n).map (fun i => objRead s o (u64 p 16 + 16 * i) 16) else []
          | none => []
        let x := parsePol p ents
        if polBad s ctx p x ents tabOk then finish0 cid stBAD_PARAM s
        else
          let s := failNow (c.sec.pointCids ++ c.sec.nextCids) s
          let s := (x.regs.filter (fun r => r.2.1)).foldl (fun s r => updObj r.1 dirtyAll s) s
          let same := match c.sec.pol with | some q => q.strata == x.strata | none => false
          finish0 cid stOK (updCtx ctx (fun c => { c with sec := { c.sec with
            pol := some x, gen0 := secGenNone, gen1 := secGenNone, lastPoint := none, agreed := false, point := none
            nextPoint := none, nextCids := [], resend := false, pointCids := [], sentX := 0, recvX := 0, pointX := (0, 0)
            strata := if same then c.sec.strata else [], strataPos := if same then c.sec.strataPos else 0 } }) s)

/-! ## Secure points (R359, R362, R366) -/

def doSecureNow (cid : Nat) (s : State) : State :=
  match ready s cid 0x50 with
  | none => s
  | some k =>
    let s := startCmd cid s
    let ctx := k.ctx.getD 0
    match (ctxOf s ctx).bind (fun c => c.sec.pol) with
    | none => finish0 cid stBAD_PARAM s
    | some p =>
      if !(allZero k.param) || !p.en then finish0 cid stBAD_PARAM s
      else updCtx ctx (fun c => { c with sec := { c.sec with nowreq := true, nowCids := c.sec.nowCids ++ [cid] } }) s

/-- RISK_EXCHANGE_RESULT: the agreed risk, and whether the end of the present step is a secure point. The outcome holds
what this package sent, and rank 0 returns it to every member. DEDUCED (log 52). -/
def doRiskExchangeResult (ctx risk : Nat) (now : Bool) (s : State) : State :=
  match ctxOf s ctx with
  | none => s
  | some c =>
    match c.sec.pol with
    | none => s
    | some p =>
      if !c.sec.exch then s
      else
        let rerun := c.sec.rerunTill.isSome || c.sec.replayCid.isSome
        let r := max (min risk 65535) c.sec.sentRisk
        let now := now || c.sec.sentNow
        let due := match c.sec.lastPoint with
          | none => true
          | some q => secK p r ≤ (c.step - q).toNat
        let on := !rerun && (now || due)
        let s := updCtx ctx (fun c => { c with sec := { c.sec with
          exch := false, rjob := r, agreed := on, sentNow := false
          nowreq := c.sec.nowreq || (now && !on && c.sec.nowSent != []) } }) s
        let g := secGroup s p
        if g.rank ≠ 0 then s
        else g.members.foldl (fun s m => if m = pkgId s then s
          else sendCtl 6 m (.ctl m 4 ctx (BitVec.ofNat 64 (r + 65536 * b2n now))) s) s

/-- R362: the old LBAs of merged granules go once the secure point has completed. -/
def dropOldLbas (ctx : Nat) (s : State) : State :=
  (s.sieves.filter (fun t => sieveCtx t == ctx)).foldl (fun s t =>
    updSieve t.idx (fun t => { t with oldLbas := [] }) (t.oldLbas.foldl (fun s x => freeDrive x.1 x.2 s) s)) s

/-- R357, R359: a secure point has ended: the entries that waited for it go on, and a point that waited begins. -/
def pointEnded (ctx : Nat) (b : W64) (s : State) : State :=
  let s := flushEntries ctx b s
  match (ctxOf s ctx).bind (fun c => c.sec.nextPoint) with
  | some q => startPoint ctx q s
  | none => s

/-- R361, R362: every SILT tag has had its first instance of step b + 1, or there is none. -/
def siltOver (x : Secure) : Bool :=
  match x.pol with
  | some p => p.regs.all (fun r => r.2.1 || r.2.2 ∈ x.siltDone)
  | none => true

/-- SECURE_POINT_COMPLETE. The buddies' acknowledgements of the explicit items let gc 0 of step b + 1 go (R360); those
of the silt copies, with the digest check of the end of step b + 1, complete the point (R362).
DESIGN CHOICE (log 44). -/
def doSecurePointComplete (ctx : Nat) (s : State) : State :=
  match ctxOf s ctx with
  | none => s
  | some c =>
    match c.sec.point with
    | none => s
    | some (b, one) =>
      if !c.sec.acked then updCtx ctx (fun c => { c with sec := { c.sec with acked := true } }) s
      else if c.step.toNat < b.toNat + 2 || !(siltOver c.sec) then s
      else
        let valid (g : SecGen) : SecGen := { g with valid := true }
        let s := updCtx ctx (fun c => { c with sec := { c.sec with
          gen0 := if one then c.sec.gen0 else valid c.sec.gen0, gen1 := if one then valid c.sec.gen1 else c.sec.gen1
          point := none, pointCids := []
          sentX := c.sec.sentX ^^^ c.sec.pointX.1, recvX := c.sec.recvX ^^^ c.sec.pointX.2 } }) s
        let s := dropOldLbas ctx s
        pointEnded ctx b (c.sec.pointCids.foldl (fun s k =>
          finish k stOK (leBytes 8 b.toNat ++ leBytes 1 (b2n one)) s) s)

/-- LNK_CTL.RTO; 0 is read as 1 (R294). -/
def lnkRto (s : State) : Nat := max 1 (bits s.fab.ctl.toNat 0 32)

/-- R362: the cause of a failure stands: a buddy that has not acknowledged in time, a silt area that overflows while its
copies arrive, or digests that differ. DEDUCED (log 44). -/
def failStands (s : State) (c : Ctx) (p : SecPol) (b : W64) (why : SecureFail) : Bool :=
  match why with
  | .ackTimeout d => d ∈ buddies s p && lnkRto s ≤ (s.clk.pcc - c.sec.pointPcc).toNat
  | .siltOverflow d => d ∈ buddies s p && b.toNat < c.step.toNat
  | .digest d x => d ∈ (secGroup s p).members && b.toNat + 2 ≤ c.step.toNat && x != c.sec.recvAt

/-- SECURE_POINT_FAIL. DESIGN CHOICE (log 44). -/
def doSecurePointFail (ctx : Nat) (why : SecureFail) (s : State) : State :=
  match ctxOf s ctx with
  | none => s
  | some c =>
    match c.sec.point, c.sec.pol with
    | some (b, _), some p =>
      if !(failStands s c p b why) then s
      else
      let s := match why with
        | .ackTimeout d => postRec 0x12 2 (some ctx) 0xFF 0xFFFFFFFF [(0, 8, b.toNat), (8, 2, d), (10, 1, 0)] s
        | .siltOverflow d => postRec 0x12 2 (some ctx) 0xFF 0xFFFFFFFF [(0, 8, b.toNat), (8, 2, d), (10, 1, 1)] s
        | .digest d x => postRec 0x13 2 (some ctx) 0xFF 0xFFFFFFFF
            [(0, 8, b.toNat), (8, 2, d), (16, 8, x.toNat), (24, 8, c.sec.recvAt.toNat)] s
      pointEnded ctx b (failNow c.sec.pointCids (updCtx ctx (fun c => { c with sec := { c.sec with
        point := none, pointCids := [], failStep := true
        sentX := c.sec.sentX ^^^ c.sec.pointX.1, recvX := c.sec.recvX ^^^ c.sec.pointX.2 } }) s))
    | _, _ => s

/-! ## ROLLBACK (R367, R368) -/

/-- The generation of a step that is valid. -/
def genOf (x : Secure) (step : W64) : Option SecGen :=
  if x.gen0.valid && x.gen0.step == step then some x.gen0
  else if x.gen1.valid && x.gen1.step == step then some x.gen1 else none

/-- An object's bytes taken from a generation. -/
def restoreObj (h : W32) (m : Mem) (s : State) : State :=
  match objOf s h with
  | none => s
  | some o => objWriteAt h 0 (memRead m 0 o.size) s

/-- R235: hot-row caches and gradient pools emptied. -/
def emptySieves (ctx : Nat) (s : State) : State :=
  let f (t : Sieve) : Sieve := { t with
    hotRows := [], misses := [], marked := [], overflow := false, dropped := [], left := [], waits := [], nextEnts := [] }
  let mine := s.sieves.filter (fun t => sieveCtx t == ctx)
  let s := { s with sieves := updWhere (fun t => sieveCtx t == ctx) f s.sieves }
  mine.foldl (fun s t => if t.pool = 0 then s else poolEmpty t s) s

/-- The step that re-run mode lasts through: the lost step; a loss within a re-run keeps the first lost step (R372).
DEDUCED (log 52). -/
def rerunEnd (c : Ctx) (step : W64) : Option W64 :=
  match c.sec.rerunTill, c.lost with
  | some a, some b => some (if a.toNat < b.toNat then b else a)
  | some a, none => some a
  | none, some b => some b
  | none, none => if step.toNat + 1 < c.step.toNat then some (c.step - 1) else none

/-- The restore of R367. DEDUCED (log 52). -/
def restore (ctx : Nat) (c : Ctx) (step : W64) (g : SecGen) (s : State) : State :=
  let s := g.silt.foldl (fun s e => restoreObj e.1 e.2 s) s
  let s := g.expl.foldl (fun s e => restoreObj e.1 e.2 s) s
  let s := updFab (fun f => { f with
    groups := g.groups.foldl (fun m e => nmSet e.1 e.2 m) (f.groups.filter (fun e => e.2.ctx != ctx))
    buckets := g.buckets.foldl (fun m e => nmSet e.1 e.2 m) (f.buckets.filter (fun e => e.2.ctx != ctx)) }) s
  let s := emptySieves ctx s
  let seed := match c.sec.strata.find? (fun e => e.step == step + 1) with | some e => e.seed | none => c.stepSeed
  let till := rerunEnd c step
  let gone (e : StrataEnt) : Bool := c.lost.isSome && some e.step == till
  let s := failNow (c.sec.pointCids ++ c.sec.nextCids ++ c.sec.replayCid.toList) s
  updCtx ctx (fun c => { c with
    bank := g.bank, step := step + 1, stepSeed := seed, stepFresh := true, lost := none, srcDig := []
    sec := { c.sec with
      strata := c.sec.strata.filter (fun e => !(gone e)), rerunTill := till, replayCid := none, replayFlags := 0
      sentX := 0, recvX := 0, pointX := (0, 0), point := none, nextPoint := none, nextCids := [], resend := false, pointCids := [], agreed := false, exch := false
      nowreq := c.sec.nowreq || c.sec.nowSent != [], failStep := false, lastPoint := some step } }) s

def doRollback (cid : Nat) (serves : List (Nat × Bool)) (s : State) : State :=
  match ready s cid 0x52 with
  | none => s
  | some k =>
    let s := startCmd cid s
    let ctx := k.ctx.getD 0
    match ctxOf s ctx with
    | none => s
    | some c =>
      let step : W64 := BitVec.ofNat 64 (u64 k.param 0)
      match c.sec.pol with
      | none => finish0 cid stBAD_PARAM s
      | some p =>
        if !(allZero (k.param.drop 8)) || !p.en then finish0 cid stBAD_PARAM s
        else if runOut s ctx || liveTags s ctx ≠ [] then finish0 cid stBUSY s
        else match genOf c.sec step with
          | none => finish0 cid stNO_RESOURCE s
          | some g =>
            let hold := serves.filter (fun e => e.1 ∈ buddies s p)
            if hold = [] then finish0 cid stNO_RESOURCE s
            else if hold.all (fun e => !e.2) then finish0 cid stDEGRADED s
            else
              let n := regBytes s ctx p.regs false + regBytes s ctx p.regs true + nineMib
              finish cid stOK (leBytes 8 (step.toNat + 1) ++ leBytes 8 n) (restore ctx c step g s)

/-! ## REPLAY_STEP and STRATA_READ (R369, R370) -/

def doReplayStep (cid : Nat) (s : State) : State :=
  match ready s cid 0x53 with
  | none => s
  | some k =>
    let s := startCmd cid s
    let ctx := k.ctx.getD 0
    match ctxOf s ctx with
    | none => s
    | some c =>
      let step := u64 k.param 0
      if !(allZero (k.param.drop 8)) || step ≠ c.step.toNat || !c.stepFresh ||
          !(c.sec.strata.any (fun e => e.complete && e.step == c.step)) then finish0 cid stBAD_PARAM s
      else if runOut s ctx || c.sec.replayCid.isSome then finish0 cid stBUSY s
      else updCtx ctx (fun c => { c with sec := { c.sec with replayCid := some cid, replayFlags := 0 } }) s

/-- The entries of consecutive steps from `step` on that the log holds. DEDUCED (log 53). -/
def entriesFrom (l : List StrataEnt) : Nat → Nat → List StrataEnt
  | _, 0 => []
  | step, n + 1 => match l.find? (fun e => e.complete && e.step.toNat == step) with
    | some e => e :: entriesFrom l (step + 1) n
    | none => []

/-- Read from the spec by inference: DEDUCED (log 53). -/
def doStrataRead (cid : Nat) (s : State) : State :=
  match ready s cid 0x55 with
  | none => s
  | some k =>
    let s := startCmd cid s
    let ctx := k.ctx.getD 0
    let p := k.param
    let n := u16 p 8
    let h : W32 := BitVec.ofNat 32 (u32 p 12)
    let off := u64 p 16
    if n = 0 || 1024 < n || u16 p 10 ≠ 0 || off % 64 ≠ 0 || !(allZero (p.drop 24)) then finish0 cid stBAD_PARAM s
    else match ownObj s ctx h, ctxOf s ctx with
      | some o, some c =>
        let log := match c.sec.pol with | some q => ownObj s ctx q.strata | none => none
        match log, entriesFrom c.sec.strata (u64 p 0) n with
        | some lo, e :: es =>
          let b := (e :: es).flatMap (fun x => objRead s lo x.off (entryLen x))
          if o.size < off + b.length then finish0 cid stBAD_PARAM s
          else finish cid stOK (leBytes 4 (e :: es).length ++ zeros 4 ++ leBytes 8 b.length) (objWriteAt h off b s)
        | _, _ => finish0 cid stNO_RESOURCE s
      | _, _ => finish0 cid stNOT_PERMITTED s

/-! ## The tilth monitor (R364, R366) -/

/-- The newest valid secured step; all ones for none. -/
def newestSecured (x : Secure) : Nat :=
  match x.gen0.valid, x.gen1.valid with
  | true, true => max x.gen0.step.toNat x.gen1.step.toNat
  | true, false => x.gen0.step.toNat
  | false, true => x.gen1.step.toNat
  | false, false => 2 ^ 64 - 1

/-- R366: the steps until the next secure point, the present one among them. The exchange of the present boundary
decides this step's end, that of the next one the step after; a re-run has no point. DEDUCED (log 57). -/
def stepsLeft (c : Ctx) (p : SecPol) : Nat :=
  let x := c.sec
  let due := match x.lastPoint with | some q => q.toNat + secK p x.rjob - (c.step.toNat - 1) | none => 0
  if x.agreed then 1
  else
    let n := if x.exch then (if x.sentNow then 1 else max 1 due) else if x.nowreq then 2 else max 2 due
    match x.rerunTill with
    | some r => max n (r.toNat + 2 - c.step.toNat)
    | none => n

/-- TILTH_READ. K and the steps left of a context without a policy are not stated: free values. DEDUCED (log 57). -/
def doTilthRead (cid : Nat) (s : State) : State :=
  match ready s cid 0xB0 with
  | none => s
  | some k =>
    let s := startCmd cid s
    if !(allZero k.param) || 1023 < k.pctx then finish0 cid stBAD_PARAM s
    else if k.pctx = 0 then finish0 cid stNOT_PERMITTED s
    else match ctxOf s k.pctx with
      | none => finish0 cid stBAD_PARAM s
      | some c =>
        if !(mayManage c k.fn) then finish0 cid stNOT_PERMITTED s
        else
          let x := match c.sec.pol with
            | some p => ((secK p c.sec.rjob, stepsLeft c p), s)
            | none =>
              let a := freeBits 16 s
              let b := freeBits 16 a.2
              ((a.1.toNat, b.1.toNat), b.2)
          finish cid stOK (leBytes 2 s.err.risk ++ leBytes 2 c.sec.rjob ++ leBytes 2 x.1.1 ++ leBytes 2 (min 65535 x.1.2) ++
            leBytes 8 (newestSecured c.sec)) x.2

/-- R364: the risk of a period. -/
def riskSum (w : W64) (ce lr af th age : Nat) : Nat :=
  bits w.toNat 0 8 * min ce 4095 + bits w.toNat 8 8 * min lr 255 + bits w.toNat 16 8 * min af 255 +
    bits w.toNat 24 8 * min th 255 + bits w.toNat 32 8 * age

def nextRisk (r sum : Nat) : Nat := min 65535 (max sum (r - ceilDiv r 16))

/-- R387: new weights take effect at the next period. DEDUCED (log 39). -/
def doTilthPeriod (slack : List Nat) (s : State) : State :=
  if !s.clk.pccRun then s
  else
    let age := (List.range 48).foldl (fun m c => max m (mage s c)) 0
    let e := s.err
    let s := { s with err := { e with
      wInForce := e.w, risk := nextRisk e.risk (riskSum e.wInForce e.cCe e.cLr e.cAf e.cTh age), periods := e.periods + 1
      cCe := 0, cLr := 0, cAf := 0, cTh := 0 } }
    ageDies slack (takeClkctl s)

/-! ## The error block (R385-R387) -/

/-- The written value of the RWP bits of a register that has no other home for them. DEDUCED (log 68). -/
def rwpWrite (off : Nat) (mask val : W64) (s : State) : State :=
  let old := nmGetD s.reg.rwp off 0
  let new := (old &&& ~~~mask) ||| (val &&& mask)
  noteRwp (new != old) { s with reg := { s.reg with rwp := if new = 0 then nmDel off s.reg.rwp else nmSet off new s.reg.rwp } }

/-- TAIL of ring h; a value beyond HEAD, one that HEAD does not lead by 0 to 4,096 records, is ignored. Each COALESCED
record that it makes room for signals vector 0 of both PFs (R384). DEDUCED (log 87). -/
def tailWrite (h : Nat) (val : W64) (s : State) : State :=
  let s := rwpWrite (0x800000 + 0x80000 * h) 0xFE val s
  let r := ringOf s h
  let t : BitVec 16 := BitVec.ofNat 16 (bits val.toNat 32 16)
  if 4096 < (r.head - t).toNat then s
  else
    let s := updRing h (fun r => ringDrain s (List.range 32) { r with tail := t }) s
    (List.range ((ringOf s h).head - r.head).toNat).foldl (fun s _ => signal 64 0 (signal 0 0 s)) s

/-- R387: a PF writes its own H-die's ring, the management path H0's at this offset. -/
def doErrRingTailWrite (rq : Requester) (val : W64) (s : State) : State :=
  match rq with
  | .host fn => if fn % 64 = 0 then tailWrite (fn / 64) val s else s
  | .mgmt => tailWrite 0 val s
  | .firmware => s

def errWriter (rq : Requester) : Bool := match rq with | .firmware => false | r => pfOrAbove r

def doErrFatalClear (rq : Requester) (mask : W64) (s : State) : State :=
  if !(errWriter rq) then s
  else { s with err := { s.err with
    valid := s.err.valid &&& ~~~mask, slots := s.err.slots.filter (fun e => !(mask.getLsbD e.1))
    noDump := s.err.noDump.filter (fun e => !(mask.getLsbD e.1)) } }

/-! ## Lockstep and logic comparison (R381, R441) -/

/-- LOCKSTEP_MISMATCH: the standby pair takes over; between the handover and the commit of an activation the old pairs
do; otherwise it is fatal, and the port of the H-die writes no dump. DEDUCED (log 55). -/
def doLockstepMismatch (hdie : Nat) (s : State) : State :=
  if 1 < hdie || !s.clk.mainEn then s
  else if s.fw.standby && !(hdie ∈ s.fw.standbyUsed) then
    postRec 0x18 1 none (62 + hdie) 0xFFFFFFFF [(0, 1, hdie), (1, 1, 0)]
      { s with fw := { s.fw with standbyUsed := addOnce hdie s.fw.standbyUsed } }
  else if s.fw.st = .switch then
    postRec 0x18 1 none (62 + hdie) 0xFFFFFFFF [(0, 1, hdie), (1, 1, 0)] { s with fw := { s.fw with st := .revert } }
  else
    postRec 0x18 3 none (62 + hdie) 0xFFFFFFFF [(0, 1, hdie), (1, 1, 1)]
      { s with err := { s.err with barred := addOnce hdie s.err.barred } }

def doHubLogicMismatch (die block : Nat) (s : State) : State :=
  if 63 < die || 1 < block || !s.clk.mainEn then s
  else postRec 0x19 3 none die 0xFFFFFFFF [(0, 1, die), (1, 1, block)] s

/-! ## The dump's buffer (R389) -/

def doDumpConfig (cid : Nat) (s : State) : State :=
  match ready s cid 0xA0 with
  | none => s
  | some k =>
    let s := startCmd cid s
    let p := k.param
    if u64 p 0 % 4096 ≠ 0 || u64 p 8 < 1048576 || 3 < u8 p 16 || !(allZero (p.drop 17)) then finish0 cid stBAD_PARAM s
    else
      let d : DumpCfg := { bus := BitVec.ofNat 64 (u64 p 0), size := u64 p 8, en := bitAt (u8 p 16) 0
                           lstore := bitAt (u8 p 16) 1 }
      finish0 cid stOK (updPort (k.fn / 64) (fun q => { q with dump := some d }) s)

def execSecureNow (cid : Nat) (s : State) : Host.Outcome State Fault Refusal := .next (doSecureNow cid s)
def execSecurePolicy (cid : Nat) (s : State) : Host.Outcome State Fault Refusal := .next (doSecurePolicy cid s)
def execRollback (cid : Nat) (serves : List (Nat × Bool)) (s : State) : Host.Outcome State Fault Refusal :=
  .next (doRollback cid serves s)
def execReplayStep (cid : Nat) (s : State) : Host.Outcome State Fault Refusal := .next (doReplayStep cid s)
def execStrataRead (cid : Nat) (s : State) : Host.Outcome State Fault Refusal := .next (doStrataRead cid s)
def execTilthRead (cid : Nat) (s : State) : Host.Outcome State Fault Refusal := .next (doTilthRead cid s)
def execRiskExchangeResult (ctx risk : Nat) (now : Bool) (s : State) : Host.Outcome State Fault Refusal :=
  .next (doRiskExchangeResult ctx risk now s)
def execSecurePointComplete (ctx : Nat) (s : State) : Host.Outcome State Fault Refusal := .next (doSecurePointComplete ctx s)
def execSecurePointFail (ctx : Nat) (why : SecureFail) (s : State) : Host.Outcome State Fault Refusal :=
  .next (doSecurePointFail ctx why s)
def execTilthPeriod (slack : List Nat) (s : State) : Host.Outcome State Fault Refusal := .next (doTilthPeriod slack s)
def execErrRingTailWrite (rq : Requester) (val : W64) (s : State) : Host.Outcome State Fault Refusal :=
  .next (onBar rq (doErrRingTailWrite rq val) s)
def execErrFatalClear (rq : Requester) (mask : W64) (s : State) : Host.Outcome State Fault Refusal :=
  .next (onBar rq (doErrFatalClear rq mask) s)
def execLockstepMismatch (hdie : Nat) (s : State) : Host.Outcome State Fault Refusal := .next (doLockstepMismatch hdie s)
def execHubLogicMismatch (die block : Nat) (s : State) : Host.Outcome State Fault Refusal :=
  .next (doHubLogicMismatch die block s)
def execDumpConfig (cid : Nat) (s : State) : Host.Outcome State Fault Refusal := .next (doDumpConfig cid s)

end Sys2Proof.Machine
end

