-- ==== Sys2Proof/Machine/Firmware.lean ====
section
/-! DEFINITION. Staging and activating firmware (R437-R445). -/

namespace Sys2Proof.Machine

open Sys2Proof

/-! ## Staging (R437-R439) -/

/-- The code of R441. -/
def fwCode : FwSt → Nat
  | .idle => 0 | .staging => 1 | .staged => 2 | .verify => 3 | .load => 4 | .handover => 5 | .switch => 6 | .commit => 7
  | .revert => 8 | .pendingCold => 9

/-- The slot that staging goes to: the one that does not run, or in recovery mode the one that R445 names. -/
def stagingSlot (s : State) : Nat := if s.fw.slotRun = 2 then s.fw.recStage else 1 - s.fw.slotRun

def slotWrite (slot off : Nat) (b : List Byte) (s : State) : State :=
  if slot = 0 then { s with flash := { s.flash with slotA := memWrite s.flash.slotA off b } }
  else { s with flash := { s.flash with slotB := memWrite s.flash.slotB off b } }

/-- The staging state as the directory gives it. -/
def settleStaging (s : State) : State := { s with fw := { s.fw with st := stagedState s.fw.dir } }

/-- A chunk is programmed and its bit set. -/
def holdChunk (slot n : Nat) (data : List Byte) (s : State) : State :=
  settleStaging (writeDir (fun d => { d with bitmap := d.bitmap ||| BitVec.ofNat 512 (2 ^ n) })
    (slotWrite slot (n * 65536) data s))

def chunkResult (d : Dir) : List Byte := leBytes 2 (dirReceived d) ++ leBytes 2 d.nchunk ++ leBytes 2 (dirMissing d)

def chunkOk (cid : Nat) (s : State) : State := finish cid stOK (chunkResult s.fw.dir) s

/-- INDEX 0: the manifest. DEDUCED (log 75). -/
def takeManifest (cid : Nat) (data : List Byte) (s : State) : State :=
  let d := s.fw.dir
  if !(manifestOk data d.svnFloor) then finish0 cid stBAD_PARAM s
  else match d.stage with
    | some slot =>
      if d.mdigest ≠ mDigest data then finish0 cid stBUSY s
      else if d.bitmap.getLsbD 0 then chunkOk cid s
      else chunkOk cid (holdChunk slot 0 data s)
    | none =>
      let slot := stagingSlot s
      chunkOk cid (settleStaging (writeDir (fun d => { d with
        stage := some slot, bitmap := 1, nchunk := mChunks data, mdigest := mDigest data }) (slotWrite slot 0 data s)))

/-- INDEX 1 and above. -/
def takeChunk (cid n : Nat) (digest data : List Byte) (s : State) : State :=
  let d := s.fw.dir
  match d.stage with
  | none => finish0 cid stBAD_PARAM s
  | some slot =>
    if d.nchunk ≤ n || digest ≠ mChunkDigest (manifest s slot) n then finish0 cid stBAD_PARAM s
    else if d.bitmap.getLsbD n then chunkOk cid s
    else chunkOk cid (holdChunk slot n data s)

/-- R437: an activation is between VERIFY and COMMIT. -/
def activating (s : State) : Bool :=
  s.fw.st == .verify || s.fw.st == .load || s.fw.st == .handover || s.fw.st == .switch || s.fw.st == .commit

/-- Read from the spec by inference: DEDUCED (log 75); DESIGN CHOICE (log 77). -/
def doFwChunk (cid : Nat) (s : State) : State :=
  match ready s cid 0x80 with
  | none => s
  | some k =>
    let s := startCmd cid s
    let p := k.param
    let n := u16 p 8
    let digest := slice p 16 32
    if u64 p 0 % 4096 ≠ 0 || !(allZero (slice p 10 6)) || (k.fn = mgmtFn && u64 p 0 ≠ 0) then finish0 cid stBAD_PARAM s
    else if activating s then finish0 cid stBUSY s
    else
      let data := if k.fn = mgmtFn then k.data else memRead (hostMem s (k.fn / 64)) (u64 p 0) 65536
      if sm3Bytes data ≠ digest then finish0 cid stBAD_PARAM s
      else if n = 0 then takeManifest cid data s else takeChunk cid n digest data s

/-- R439: the SVN of the staged image; 0 where no manifest is held. -/
def stagedSvn (s : State) : Nat :=
  match s.fw.dir.stage with
  | some slot => if s.fw.dir.bitmap.getLsbD 0 then mSvn (manifest s slot) else 0
  | none => 0

def doFwStatus (cid : Nat) (s : State) : State :=
  match ready s cid 0x81 with
  | none => s
  | some k =>
    let s := startCmd cid s
    let d := s.fw.dir
    if !(allZero k.param) then finish0 cid stBAD_PARAM s
    else finish cid stOK (leBytes 1 (fwCode s.fw.st) ++ leBytes 1 d.active ++ leBytes 1 (d.stage.getD 0xFF) ++
      leBytes 1 (d.pend.getD 0xFF) ++ leBytes 2 (dirReceived d) ++ leBytes 2 d.nchunk ++ leBytes 4 (stagedSvn s) ++
      leBytes 4 s.fw.svn) s

/-- The staging state is discarded. -/
def dropStaging (s : State) : State :=
  settleStaging (writeDir (fun d => { d with stage := none, nchunk := 0, bitmap := 0, mdigest := 0 }) s)

/-- Read from the spec by inference: DEDUCED (log 75). -/
def doFwAbort (cid : Nat) (s : State) : State :=
  match ready s cid 0x83 with
  | none => s
  | some k =>
    let s := startCmd cid s
    if !(allZero k.param) then finish0 cid stBAD_PARAM s
    else match s.fw.st with
      | .switch | .commit | .revert | .pendingCold => finish0 cid stBUSY s
      | .verify | .load | .handover => { s with fw := { s.fw with st := .revert, abortCid := some cid } }
      | .idle | .staging | .staged => finish0 cid stOK (dropStaging s)

/-! ## Activation (R440-R443, R445) -/

/-- Read from the spec by inference: DEDUCED (log 75). -/
def doFwActivate (cid : Nat) (s : State) : State :=
  match ready s cid 0x82 with
  | none => s
  | some k =>
    let s := startCmd cid s
    let live : Bool := u8 k.param 0 = 0
    let d := s.fw.dir
    let m := manifest s (d.stage.getD 0)
    if 1 < u8 k.param 0 || !(allZero (k.param.drop 1)) || !(dirComplete d) ||
        (live && (s.fw.svn < mCompat m || s.boot.recovery)) then finish0 cid stBAD_PARAM s
    else if activating s || s.fw.st = .revert || s.fw.st = .pendingCold then finish0 cid stBUSY s
    else { s with fw := { s.fw with st := .verify, actCid := some cid, actLive := live } }

/-- The FW_ACTIVATE in progress ends. -/
def endActivate (st : W16) (res : List Byte) (s : State) : State :=
  match s.fw.actCid with
  | some cid => finish cid st res { s with fw := { s.fw with actCid := none } }
  | none => s

/-- Chunks that VERIFY finds bad: those that differ from their digest, and those that hold a part that does. -/
def verifyBad (s : State) (slot : Nat) : List Nat :=
  let m := manifest s slot
  let parts := ((List.range 5).map (mPart m)).filter (fun p => sm3Bytes (partBytes s slot p) != slice p 16 32)
  let of (p : List Byte) : List Nat := (List.range 512).filter (fun n =>
    u32 p 8 / 65536 ≤ n && n * 65536 < u32 p 8 + u32 p 12)
  (if mDigest m = s.fw.dir.mdigest then [] else [0]) ++ badChunks s slot ++ parts.flatMap of

/-- FW_VERIFY_DONE. DEDUCED (log 75). -/
def doFwVerifyDone (s : State) : State :=
  match s.fw.st, s.fw.dir.stage with
  | .verify, some slot =>
    match verifyBad s slot with
    | n :: ns =>
      let clear (m : BitVec 512) : BitVec 512 := (n :: ns).foldl (fun m i => m &&& ~~~(BitVec.ofNat 512 (2 ^ i))) m
      let s := writeDir (fun d => { d with bitmap := clear d.bitmap }) s
      endActivate stBAD_PARAM [] { s with fw := { s.fw with st := .idle } }
    | [] =>
      if s.fw.actLive then
        { s with fw := { s.fw with st := .load, loadUs := some s.clk.wallUs, standby := false } }
      else if s.boot.recovery then
        packageReset (writeDir (fun d => { d with active := slot, stage := none, nchunk := 0, bitmap := 0, mdigest := 0 }) s)
      else
        let s := writeDir (fun d => { d with pend := some slot, tries := 1 }) s
        endActivate stOK [] { s with fw := { s.fw with st := .pendingCold } }
  | .verify, none => endActivate stBAD_PARAM [] { s with fw := { s.fw with st := .idle } }
  | _, _ => s

/-- FW_LOAD_DONE: both new pairs report loaded. -/
def doFwLoadDone (s : State) : State :=
  if s.fw.st = .load then { s with fw := { s.fw with st := .handover } } else s

/-- FW_HANDOVER_DONE: the new pairs report ready; the stamp lies 1,600,000 gc ahead. -/
def doFwHandoverDone (s : State) : State :=
  if s.fw.st = .handover then { s with fw := { s.fw with
    st := .switch, stamp := some (s.clk.pcc + 1600000), switched := [], unitsSwitched := false } }
  else s

/-- Ped-2s in service that run no segment. -/
def idlePed2s (s : State) : List Nat :=
  let busy := s.segs.flatMap (fun r => footprint r.d)
  (List.range ped2Count).filter (fun p => ped2InService s p && !(p ∈ busy))

/-- FW_SWITCH_STAMP: L- and T-dies and every ped-2 that runs nothing switch at the stamp. -/
def doFwSwitchStamp (s : State) : State :=
  match s.fw.stamp with
  | none => s
  | some t =>
    if s.fw.st ≠ .switch || s.fw.unitsSwitched || s.clk.pcc.toNat < t.toNat then s
    else { s with fw := { s.fw with
      unitsSwitched := true, switched := (idlePed2s s).foldl (fun l p => addOnce p l) s.fw.switched } }

/-- Every part reports switched. -/
def allSwitched (s : State) : Bool :=
  s.fw.unitsSwitched && (List.range ped2Count).all (fun p => !(ped2InService s p) || p ∈ s.fw.switched)

/-- FW_COMMIT: the directory is written, and indices 2-7 and 10 are measured. DEDUCED (log 75). -/
def doFwCommit (s : State) : State :=
  match s.fw.dir.stage with
  | none => s
  | some slot =>
    if s.fw.st ≠ .switch || !(allSwitched s) then s
    else
      let m := manifest s slot
      let s := writeDir (fun d => { d with
        active := slot, svnFloor := max d.svnFloor (mFloor m), stage := none, nchunk := 0, bitmap := 0, mdigest := 0 }) s
      let s := { s with fw := { s.fw with
        st := .idle, slotRun := slot, svn := mSvn m, stamp := none, switched := [], unitsSwitched := false, loadUs := none } }
      let s := measureState 1 (measureImage slot 1 s)
      endActivate stOK (leBytes 8 s.clk.pcc.toNat ++ leBytes 4 (mSvn m)) s

/-- FW_ACTIVATE_DEADLINE: a part has not reported within 500 ms of the start of LOAD. -/
def doFwActivateDeadline (s : State) : State :=
  match s.fw.loadUs with
  | none => s
  | some t =>
    if (s.fw.st = .load || s.fw.st = .handover || s.fw.st = .switch) && decide (t + 500000 ≤ s.clk.wallUs) then
      { s with fw := { s.fw with st := .revert } }
    else s

/-- FW_REVERT_DONE: no ped-2 that runs a segment has the new microcode. -/
def doFwRevertDone (s : State) : State :=
  let busy := s.segs.flatMap (fun r => footprint r.d)
  if s.fw.st ≠ .revert || s.fw.switched.any (fun p => p ∈ busy) then s
  else
    let s := settleStaging { s with fw := { s.fw with
      stamp := none, switched := [], unitsSwitched := false, loadUs := none } }
    let s := endActivate stABORTED_TXN [] s
    match s.fw.abortCid with
    | some cid => finish0 cid stOK (dropStaging { s with fw := { s.fw with abortCid := none } })
    | none => s

/-- FW_STANDBY_READY: the other pairs run the active firmware and stand by. -/
def doFwStandbyReady (s : State) : State :=
  if s.fw.slotRun = 2 || activating s || s.fw.st = .revert then s
  else { s with fw := { s.fw with standby := true } }

def execFwChunk (cid : Nat) (s : State) : Host.Outcome State Fault Refusal := .next (doFwChunk cid s)
def execFwStatus (cid : Nat) (s : State) : Host.Outcome State Fault Refusal := .next (doFwStatus cid s)
def execFwActivate (cid : Nat) (s : State) : Host.Outcome State Fault Refusal := .next (doFwActivate cid s)
def execFwAbort (cid : Nat) (s : State) : Host.Outcome State Fault Refusal := .next (doFwAbort cid s)
def execFwVerifyDone (s : State) : Host.Outcome State Fault Refusal := .next (doFwVerifyDone s)
def execFwLoadDone (s : State) : Host.Outcome State Fault Refusal := .next (doFwLoadDone s)
def execFwHandoverDone (s : State) : Host.Outcome State Fault Refusal := .next (doFwHandoverDone s)
def execFwSwitchStamp (s : State) : Host.Outcome State Fault Refusal := .next (doFwSwitchStamp s)
def execFwCommit (s : State) : Host.Outcome State Fault Refusal := .next (doFwCommit s)
def execFwActivateDeadline (s : State) : Host.Outcome State Fault Refusal := .next (doFwActivateDeadline s)
def execFwRevertDone (s : State) : Host.Outcome State Fault Refusal := .next (doFwRevertDone s)
def execFwStandbyReady (s : State) : Host.Outcome State Fault Refusal := .next (doFwStandbyReady s)

end Sys2Proof.Machine
end

