-- ==== Sys2Proof/Machine/HostIf.lean ====
section
/-! DEFINITION. The host interface (chapter 10): rings, doorbells, fetching and checking commands, completions, replies
and interrupts, the BAR4 aperture, and the resets of a port. -/

namespace Sys2Proof.Machine

open Sys2Proof

/-! ## Who may act -/

/-- R323, R297: the function's rings run: Bus Master Enable is set and it is not in D3hot. -/
def ringsOn (s : State) (fn : Nat) : Bool := (fnOf s fn).bme && !(fnOf s fn).d3hot

/-- R299, R301: the context of a doorbell page, where the function owns it. -/
def pageCtx (s : State) (fn page : Nat) : Option Ctx :=
  let n := if fn % 64 = 0 then some page else ((fnOf s fn).slots.find? (fun e => e.1 == page)).map (·.2)
  match n with
  | none => none
  | some n => if n = 0 then none else (ctxOf s n).bind (fun c => if c.owner = fn then some c else none)

/-- The command counts as outstanding: fetched, and neither completed nor waiting for room in its completion ring.
DEDUCED (log 63). -/
def outstanding (c : Cmd) : Bool := !(c.done.isSome && c.written)

def ctxCmds (s : State) (ctx : Nat) : List Cmd := s.cmds.filter (fun c => c.ctx == some ctx)

def adminCmds (s : State) (fn : Nat) : List Cmd := s.cmds.filter (fun c => c.ctx == none && c.fn == fn)

/-! ## Ring table entries (R304, R305) -/

def ringEntAt (s : State) (c : Ctx) (off : Nat) : List Byte :=
  memRead (hostMem s (c.owner / 64)) (c.rtBase.toNat / 4096 * 4096 + off) 32

/-- R305: a submission entry; KIND 0 where it holds a reserved or out-of-range value. -/
def subEntry (s : State) (c : Ctx) (n : Nat) : SubRing :=
  let e := ringEntAt s c (32 * n)
  let kind := u8 e 9
  let off_ : SubRing := { subRingOff with loaded := true }
  if u64 e 0 % 4096 ≠ 0 || u8 e 8 < 4 || 16 < u8 e 8 || (kind ≠ 1 && kind ≠ 2) || u16 e 10 ≠ 0 || !(allZero (e.drop 16)) ||
      (kind = 1 && u32 e 12 ≠ 0) then off_
  else if kind = 2 && (pedOutOfRange (u32 e 12) ||
      (match pedOf s c.num (BitVec.ofNat 32 (u32 e 12)) with | .error .reserved => true | _ => false)) then off_
  else { off_ with base := BitVec.ofNat 64 (u64 e 0), size := u8 e 8, kind := kind, ped := BitVec.ofNat 32 (u32 e 12) }

/-- R305: a completion entry; EN 0 where it holds a reserved or out-of-range value. DEDUCED (log 62). -/
def cplEntry (s : State) (c : Ctx) (m : Nat) : CplRing :=
  let e := ringEntAt s c (32768 + 32 * m)
  let off_ : CplRing := { cplRingOff with loaded := true }
  if u64 e 0 % 4096 ≠ 0 || u8 e 8 < 4 || 16 < u8 e 8 || u8 e 9 ≠ 1 || (2047 < u16 e 10 && u16 e 10 ≠ 0xFFFF) ||
      u16 e 12 = 0 || !(allZero (e.drop 16)) then off_
  else { off_ with base := BitVec.ofNat 64 (u64 e 0), size := u8 e 8, en := true, vector := u16 e 10, icount := u16 e 12
                   itime := u16 e 14 }

def updSq (ctx n : Nat) (r : SubRing) (s : State) : State := updCtx ctx (fun c => { c with sq := nmSet n r c.sq }) s
def updCq (ctx n : Nat) (r : CplRing) (s : State) : State := updCtx ctx (fun c => { c with cq := nmSet n r c.cq }) s

/-! ## Doorbells (R307-R310) -/

/-- R308: a completion ring after CQHEAD; none where the doorbell is dropped. -/
def takeHead (r : CplRing) (head : Nat) : Option CplRing :=
  if !r.en then (if head = 0 then some r else none)
  else
    let n := 2 ^ r.size
    let at_ := (r.pos + n - r.fill) % n
    let step := (head + n - at_) % n
    if n ≤ head || r.fill < step then none else some { r with fill := r.fill - step }

/-- The reserved bits of R308. -/
def dbReserved (v : Nat) : Bool := bits v 48 14 ≠ 0 || bits v 23 9 ≠ 0

/-- The submission ring after a doorbell: re-read, or read for the first time. DEDUCED (log 62). -/
def ringFor (s : State) (c : Ctx) (n : Nat) (rld : Bool) : SubRing :=
  let r := nmGetD c.sq n subRingOff
  if r.loaded && !rld then r
  else if c.rtEn && ringsOn s c.owner then subEntry s c n else subRingOff

def dropDb (ctx : Nat) (s : State) : State := updCtx ctx (fun c => { c with dbDrop := satAdd 16 c.dbDrop 1 }) s

def dropFnDb (fn : Nat) (s : State) : State := updFn fn (fun f => { f with dbDrop := satAdd 16 f.dbDrop 1 }) s

/-- COMMAND_RING_DOORBELL, on a ring that is no ped doorbell. DEDUCED (log 62). -/
def doCommandRingDoorbell (fn page ring : Nat) (val : W64) (s : State) : State :=
  if barOff s fn then s
  else match pageCtx s fn page with
    | none => dropFnDb fn s
    | some c =>
      let v := val.toNat
      let rld := bitAt v 63
      let r := ringFor s c ring rld
      let q := bits v 17 6
      let old := nmGetD c.cq q cplRingOff
      let cq := if bitAt v 62 then cplEntry s c q else old
      let busyS := (ctxCmds s c.num).any (fun k => outstanding k && k.ring == ring)
      let busyC := (ctxCmds s c.num).any (fun k => outstanding k && k.cq == q)
      let unread := bitAt v 62 && !(ringsOn s c.owner)
      if r.kind = 2 && !rld then s
      else if 1023 < ring || !c.rtEn || r.kind ≠ 1 || dbReserved v || 2 ^ r.size ≤ bits v 0 16 || (rld && busyS) ||
          (bitAt v 62 && busyC) || unread then dropDb c.num s
      else match (if bitAt v 16 then takeHead cq (bits v 32 16) else some cq) with
        | none => dropDb c.num s
        | some cq => updCq c.num q cq (updSq c.num ring { r with tail := bits v 0 16 } s)

/-- ADMIN_DOORBELL: FN_ADB, laid out as R308; it names the admin completion ring. DEDUCED (log 62). -/
def doAdminDoorbell (fn : Nat) (val : W64) (s : State) : State :=
  if barOff s fn then s
  else
    let v := val.toNat
    let f := fnOf s fn
    let rld := bitAt v 63
    let busy := (adminCmds s fn).any outstanding
    let r := if rld then { f.asqr with pos := 0 } else f.asqr
    let cq := if bitAt v 62 then { f.acqr with pos := 0, fill := 0, gen := 1, since := 0 } else f.acqr
    if !f.ardy || r.kind ≠ 1 || dbReserved v || bits v 17 6 ≠ 0 || 2 ^ r.size ≤ bits v 0 16 ||
        ((rld || bitAt v 62) && busy) then dropFnDb fn s
    else match (if bitAt v 16 then takeHead cq (bits v 32 16) else some cq) with
      | none => dropFnDb fn s
      | some cq => updFn fn (fun f => { f with asqr := { r with tail := bits v 0 16 }, acqr := cq }) s

/-- The context is resident on every ped-2 of a ped. -/
def residentOn (s : State) (ctx : Nat) (a : W32) : Bool :=
  match pedOf s ctx a with
  | .ok l => l.all (fun e => (lsPartOf s e.1 ctx).isSome)
  | .error _ => false

/-- PED_DOORBELL: COUNT is added to a semaphore at once, or held until the context's next lease. DEDUCED (log 62). -/
def doPedDoorbell (fn page ring : Nat) (val : W64) (s : State) : State :=
  if barOff s fn then s
  else match pageCtx s fn page with
    | none => dropFnDb fn s
    | some c =>
      let v := val.toNat
      let r := ringFor s c ring false
      if r.kind ≠ 2 then s
      else if 1023 < ring || !c.rtEn || 2 ^ 24 ≤ v || bits v 0 16 = 0 then dropDb c.num s
      else
        let ped := canonPed s r.ped
        if residentOn s c.num r.ped then
          let g := match pedOf s c.num r.ped with | .ok l => (pedSetGrains l).headD 0 | .error _ => 0
          semAdd c.num ped (bits v 16 8) (bits v 0 16) g (updSq c.num ring r s)
        else if 64 ≤ c.heldSigs.length then dropDb c.num s
        else updCtx c.num (fun c => { c with heldSigs := c.heldSigs ++ [(ped, bits v 16 8, bits v 0 16)] })
          (updSq c.num ring r s)

/-! ## Admin rings (R303, R407) -/

def doAdminRingEnable (fn : Nat) (s : State) : State :=
  let f := fnOf s fn
  if barOff s fn || f.ctl.getLsbD 0 then s
  else
    let s := updFn fn (fun f => { f with ctl := f.ctl ||| 1 }) s
    if s.boot.running then updFn fn (fun f => { f with aenHeld := true }) s else takeAdmin fn s

/-- The rings of a function leave service. -/
def adminOff (f : Fn) : Fn := { f with ardy := false, disabling := false, asqr := subRingOff, acqr := cplRingOff }

def doAdminRingDisable (fn : Nat) (s : State) : State :=
  let f := fnOf s fn
  if barOff s fn || !(f.ctl.getLsbD 0) then s
  else
    let off_ (f : Fn) : Fn := { f with ctl := f.ctl &&& ~~~1, aenHeld := false }
    if adminCmds s fn = [] then updFn fn (fun f => adminOff (off_ f)) s
    else updFn fn (fun f => { off_ f with disabling := true }) s

/-! ## RING_TABLE and FN_APER (R304, R306) -/

def doRingTableWrite (rq : Requester) (ctx : Nat) (val : W64) (s : State) : State :=
  match ctxOf s ctx with
  | none => s
  | some c =>
    let may : Bool := match rq with | .host fn => c.owner == fn && !(barOff s fn) | .firmware => true | .mgmt => false
    if !may then s
    else if (ctxCmds s ctx).any outstanding then dropDb ctx s
    else
      let same := c.rtEn && val.getLsbD 0 && c.rtBase &&& 0xFFFFFFFFFFFFF000 == val &&& 0xFFFFFFFFFFFFF000
      noteRwp ((val ^^^ c.rtBase) &&& 0xFFE != 0) (updCtx ctx (fun c => { c with
        rtBase := val &&& ~~~1, rtEn := val.getLsbD 0
        sq := if same then c.sq else [], cq := if same then c.cq else [] }) s)

def doFnAperWrite (fn : Nat) (val : W64) (s : State) : State :=
  if barOff s fn || fn % 64 ≠ 0 then s
  else
    let old := (fnOf s fn).aper
    noteRwp ((val ^^^ old) &&& 0x7FF000000000FC00 != 0) (updFn fn (fun f => { f with aper := val }) s)

/-! ## BAR4 (R306, R379) -/

/-- The object and the offset in it that a byte of the aperture reaches; none where it is refused. -/
def aperByte (s : State) (fn o : Nat) : Option (Obj × Nat) :=
  let a := (fnOf s fn).aper.toNat
  let ctx := bits a 0 10
  let va := bits a 16 36 * 65536 + o
  let mine := match ctxOf s ctx with | some c => c.owner == fn | none => false
  if !(bitAt a 63) || !mine then none
  else match s.hz.objs.find? (fun x => x.ctx == ctx && x.base ≤ va && va < x.base + x.size) with
    | none => none
    | some x =>
      let g := granOf x ((va - x.base) / 65536)
      if g.hzn = 1 || g.promo || g.hzn = 2 then some (x, va - x.base) else none

def aperMiss (fn : Nat) (s : State) : State := updFn fn (fun f => { f with aperMiss := satAdd 16 f.aperMiss 1 }) s

/-- R204: the parts of a BAR4 access: runs of its bytes within one 256-byte unit of an object. -/
def aperParts (ps : List (Obj × Nat)) : List (Obj × List (Nat × Nat)) :=
  (List.zip ps (List.range ps.length)).foldl (fun l e =>
    let o := e.1.1
    let here (x : Obj × List (Nat × Nat)) : Bool := handleOf x.1 == handleOf o &&
      (match x.2 with | y :: _ => y.2 / 256 == e.1.2 / 256 | [] => false)
    if l.any here then updWhere here (fun x => (x.1, x.2 ++ [(e.2, e.1.2)])) l else l ++ [(o, [(e.2, e.1.2)])]) []

/-- R206: each part of a BAR4 access is a request of the port's H-die, and is done when it is served. -/
def aperAsk (port id : Nat) (ps : List (Obj × Nat)) (data : Option (List Byte)) (s : State) : State :=
  (aperParts ps).foldl (fun s x =>
    let offs := x.2.map (·.2)
    let off := offs.headD 0
    addReqAt (62 + port) x.1.ctx 0xFFFFFFFF 0 x.1 off offs
      (.aper id x.2 (data.map (fun d => x.2.map (fun e => d.getD e.1 0)))) none 0 s) s

def doBar4Access (port off : Nat) (acc : Bar4Acc) (s : State) : State :=
  let fn := 64 * port
  let n := match acc with | .read n => n | .write b => b.length
  if 1 < port || fnOff s fn || (portOf s port).bar4 < off + n then s
  else if barOff s fn then
    -- R323: with Memory Space Enable clear a read completes with Unsupported Request
    (match acc with
      | .read _ => emit (.unsupported (.host fn) 4 off) s
      | .write _ => s)
  else
    let places := (List.range n).map (fun i => aperByte s fn (off + i))
    if places.any (·.isNone) then
      match acc with
      | .read n => emit (.bar4Read port (List.replicate n 0xFF) false) (aperMiss fn s)
      | .write _ => aperMiss fn s
    else
      let ps := places.filterMap id
      let id := s.hz.nextReq
      match acc with
      | .read n => settleApers (aperAsk port id ps none (updHz (fun h => { h with
          apers := h.apers ++ [{ id := id, port := port, len := n, got := [], bad := false }] }) s))
      | .write b => if ps.any (fun e => e.1.rdonly) then aperMiss fn s else aperAsk port id ps (some b) s

/-! ## Fetching commands (R311, R312, R314, R315) -/

/-- R315: where an opcode may be issued: on an admin ring, on a context ring, and by PFs only. -/
def opTable : List (Nat × Bool × Bool × Bool) :=
  [(0x01, true, true, false), (0x10, true, false, false), (0x11, true, false, false), (0x12, true, false, false),
   (0x13, true, false, false), (0x20, false, true, false), (0x21, false, true, false), (0x22, false, true, false),
   (0x23, false, true, false), (0x24, false, true, false), (0x30, false, true, false), (0x31, false, true, false),
   (0x32, false, true, false), (0x33, false, true, false), (0x40, false, true, false), (0x41, false, true, false),
   (0x42, false, true, false), (0x43, false, true, false), (0x50, false, true, false), (0x51, false, true, false),
   (0x52, false, true, false), (0x53, false, true, false), (0x54, false, true, false), (0x55, false, true, false),
   (0x60, true, false, true), (0x61, true, false, true), (0x70, true, true, false), (0x71, true, true, false),
   (0x72, true, true, false), (0x80, true, false, true), (0x81, true, false, true), (0x82, true, false, true),
   (0x83, true, false, true), (0x90, true, false, false), (0x91, true, false, false), (0xA0, true, false, true),
   (0xB0, true, false, false)]

/-- R409, R445: what a HELD package and recovery mode accept. -/
def servedNow (s : State) (fn op : Nat) : Bool :=
  if s.boot.recovery then op ∈ [0x01, 0x80, 0x81, 0x82, 0x83, 0x91] && fn % 64 == 0
  else if s.boot.outcome = 3 then op ∈ [0x01, 0x80, 0x81, 0x82, 0x83, 0x90, 0x91, 0xA0, 0xB0]
  else true

/-- R312: the status that a fetched packet fails with at once. -/
def packetStatus (s : State) (fn : Nat) (ctx : Option Nat) (b : List Byte) : Option W16 :=
  let op := u16 b 0
  let cf := u16 b 2
  match ctx with
  | some x => if u16 b 4 ≠ x then some stNOT_PERMITTED else go op cf
  | none => go op cf
where
  go (op cf : Nat) : Option W16 :=
    match opTable.find? (fun e => e.1 == op) with
    | none => some stBAD_OPCODE
    | some (_, a, c, pf) =>
      if (if ctx.isNone then !a else !c) || (pf && fn % 64 != 0) then some stNOT_PERMITTED
      else if bits cf 8 8 ≠ 0 || bitAt cf 3 || (bitAt cf 1 && !(bitAt cf 2)) || u8 b 7 ≠ 0 || u32 b 12 ≠ 0 then
        some stBAD_PARAM
      else if !(servedNow s fn op) then some stDEGRADED
      else none

/-- The submission ring that a command's ring number names. -/
def sqOf (s : State) (fn : Nat) (ctx : Option Nat) (ring : Nat) : SubRing :=
  match ctx with
  | none => (fnOf s fn).asqr
  | some x => match ctxOf s x with | some c => nmGetD c.sq ring subRingOff | none => subRingOff

def setSq (fn : Nat) (ctx : Option Nat) (ring : Nat) (r : SubRing) (s : State) : State :=
  match ctx with
  | none => updFn fn (fun f => { f with asqr := r }) s
  | some x => updSq x ring r s

def cqOf (s : State) (fn : Nat) (ctx : Option Nat) (q : Nat) : CplRing :=
  match ctx with
  | none => (fnOf s fn).acqr
  | some x => match ctxOf s x with | some c => nmGetD c.cq q cplRingOff | none => cplRingOff

def setCq (fn : Nat) (ctx : Option Nat) (q : Nat) (r : CplRing) (s : State) : State :=
  match ctx with
  | none => updFn fn (fun f => { f with acqr := r }) s
  | some x => updCq x q r s

/-- Completion ring q as a command names it: its entry is read where that has not been done (R308). -/
def nameCq (fn : Nat) (ctx : Option Nat) (q : Nat) (s : State) : State :=
  match ctx.bind (ctxOf s) with
  | none => s
  | some c => if 63 < q || (nmGetD c.cq q cplRingOff).loaded then s else setCq fn ctx q (cplEntry s c q) s

/-- R313: a completion entry. -/
def cplBytes (tag : W32) (st : W16) (gen : W32) (sq head : Nat) (res : List Byte) : List Byte :=
  leBytes 4 tag.toNat ++ leBytes 2 st.toNat ++ leBytes 1 (gen.toNat % 2) ++ zeros 1 ++ leBytes 4 gen.toNat ++ leBytes 2 sq ++
    leBytes 2 head ++ pad 16 res

def sqNumber (c : Cmd) : Nat := match c.ctx with | none => 0xFFFF | some _ => c.ring

def replySlot (c : Cmd) : Nat := bits c.cflags.toNat 4 4

/-- R321: a REPLY command takes its slot over: PENDING, with the next GEN of the slot. DEDUCED (log 64). -/
def takeReply (c : Cmd) (s : State) : State :=
  if !(c.cflags.getLsbD 2) then s
  else
    let n := replySlot c
    let gen := u32 (nmGetD (fnOf s c.fn).replies n (zeros 32)) 8 + 1
    let b := cplBytes c.tag stPENDING (BitVec.ofNat 32 gen) (sqNumber c) (sqOf s c.fn c.ctx c.ring).pos []
    updFn c.fn (fun f => { f with replies := nmSet n b f.replies, replyCid := nmSet n c.cid f.replyCid }) s

/-- The slot reports the command's state, unless a later command has taken it. DEDUCED (log 64). -/
def putReply (c : Cmd) (st : W16) (res : List Byte) (s : State) : State :=
  let n := replySlot c
  if !(c.cflags.getLsbD 2) || nmGet (fnOf s c.fn).replyCid n ≠ some c.cid then s
  else
    let gen := u32 (nmGetD (fnOf s c.fn).replies n (zeros 32)) 8
    let b := cplBytes c.tag st (BitVec.ofNat 32 gen) (sqNumber c) (sqOf s c.fn c.ctx c.ring).pos res
    updFn c.fn (fun f => { f with replies := nmSet n b f.replies }) s

/-- R326, R335, R338: the fetch of a SEG_RUN makes an idle context READY, with no deficit in its favour, and is a
scheduling decision; what the SEG_RUN itself asks for enters the decision that its own row takes. DEDUCED (log 111). -/
def noteFetch (c : Cmd) (s : State) : State :=
  match c.ctx with
  | none => s
  | some x =>
    if c.opcode ≠ 0x32 || c.done.isSome then s
    else decideLeases (updCtx x (fun k => if k.st = .idle then { k with st := .ready, deficit := min k.deficit 0 } else k) (earn s))

/-- One packet is fetched and checked. -/
def fetchOne (fn : Nat) (ctx : Option Nat) (ring : Nat) (s : State) : State :=
  let r := sqOf s fn ctx ring
  let b := memRead (hostMem s (fn / 64)) (r.base.toNat + 64 * r.pos) 64
  let s := setSq fn ctx ring { r with pos := (r.pos + 1) % 2 ^ r.size } s
  let q := if ctx.isNone then 0 else u8 b 6
  let s := nameCq fn ctx q s
  let off_ := 63 < q || !(cqOf s fn ctx q).en
  if off_ && !(bitAt (u16 b 2) 1) then
    match ctx with
    | some x => updCtx x (fun c => { c with cmdDrop := satAdd 16 c.cmdDrop 1 }) s
    | none => s
  else
    let c : Cmd :=
      { cid := s.nextCid, fn := fn, ctx := ctx, ring := ring, cq := q, opcode := u16 b 0, cflags := BitVec.ofNat 16 (u16 b 2)
        pctx := u16 b 4, tag := BitVec.ofNat 32 (u32 b 8), param := slice b 16 48, data := [], fetchPcc := s.clk.pcc, started := false
        deferred := none, deferredSent := false, deferredHeld := false, written := false
        done := (packetStatus s fn ctx b).map (fun st => (st, zeros 16)) }
    noteFetch c (takeReply c { s with cmds := s.cmds ++ [c], nextCid := s.nextCid + 1 })

/-- R314: completions of the port that wait for a full ring, final and DEFERRED ones. DEDUCED (log 63). -/
def waitingCpls (s : State) (port : Nat) : Nat :=
  (s.cmds.filter (fun c => (c.written || c.deferredHeld) && c.fn / 64 == port)).length

/-- The ring engine may fetch the ring's next command. DEDUCED (log 54); DESIGN CHOICE (log 104). -/
def mayFetch (s : State) (fn : Nat) (ctx : Option Nat) (ring : Nat) : Bool :=
  let r := sqOf s fn ctx ring
  let b := memRead (hostMem s (fn / 64)) (r.base.toNat + 64 * r.pos) 64
  let cq := cqOf s fn ctx (u8 b 6)
  let full := cq.en && 2 ^ cq.size ≤ cq.fill
  let room := match ctx with
    | some x => ((ctxCmds s x).filter outstanding).length < 4096 && (match ctxOf s x with | some c => c.rtEn | none => false)
    | none => ((adminCmds s fn).filter outstanding).length < 64 && (fnOf s fn).ardy && !(fnOf s fn).disabling
  !(fnOff s fn) && ringsOn s fn && s.err.stopped.isNone && r.kind == 1 && r.pos != r.tail && room &&
    !(full && 4096 ≤ waitingCpls s (fn / 64))

/-- Up to n commands, one after the other. DEDUCED (log 64). -/
def fetchSome (fn : Nat) (ctx : Option Nat) (ring : Nat) : Nat → State → State
  | 0, s => s
  | n + 1, s => if mayFetch s fn ctx ring then fetchSome fn ctx ring n (fetchOne fn ctx ring s) else s

/-- R438, R445: commands that the management path may send: the firmware's, PING and MEASURE_LOG, and SET_SHARE for the
port weights (R337). It has no completion ring and no reply slot. DESIGN CHOICE (log 77). -/
def mctpStatus (s : State) (b : List Byte) : Option W16 :=
  match packetStatus s mgmtFn none b with
  | some st => some st
  | none =>
    if !(u16 b 0 ∈ [0x01, 0x13, 0x80, 0x81, 0x82, 0x83, 0x91]) then some stNOT_PERMITTED
    else if bitAt (u16 b 2) 1 || bitAt (u16 b 2) 2 then some stBAD_PARAM
    else none

/-- R438: a message of the management path, one command packet, and for FW_CHUNK the chunk after it. It is served once
the cold start has ended, or in recovery mode. DESIGN CHOICE (log 77). -/
def takeMctp (b : List Byte) (s : State) : State :=
  if !s.clk.mainEn || s.err.stopped.isSome || (s.boot.outcome = 0 && !s.boot.recovery) then s
  else
    let c : Cmd :=
      { cid := s.nextCid, fn := mgmtFn, ctx := none, ring := 0, cq := 0, opcode := u16 b 0
        cflags := BitVec.ofNat 16 (u16 b 2), pctx := u16 b 4, tag := BitVec.ofNat 32 (u32 b 8), param := slice b 16 48
        data := b.drop 64, fetchPcc := s.clk.pcc, started := false, deferred := none, deferredSent := false, deferredHeld := false
        written := false, done := (mctpStatus s b).map (fun st => (st, zeros 16)) }
    { s with cmds := s.cmds ++ [c], nextCid := s.nextCid + 1 }

/-- COMMAND_FETCH: at most 8 entries of a ring, or one message. DESIGN CHOICE (log 77, 104). -/
def doCommandFetch (fn : Nat) (ctx : Option Nat) (ring : FetchFrom) (s : State) : State :=
  let mine := match ctx with
    | none => true
    | some x => (match ctxOf s x with | some c => c.owner == fn | none => false)
  match ring with
  | .message b => takeMctp b s
  | .ring n => if mine then fetchSome fn ctx n 8 s else s

/-! ## Completions and interrupts (R313, R314, R319, R322) -/

/-- An entry written: the ring moves on, and its interrupt is due or not. DEDUCED (log 64). -/
def writeEntryTo (c : Cmd) (st : W16) (res : List Byte) (s : State) : State :=
  let r := cqOf s c.fn c.ctx c.cq
  let b := cplBytes c.tag st r.gen (sqNumber c) (sqOf s c.fn c.ctx c.ring).pos res
  let s := hostWrite (c.fn / 64) (r.base.toNat + 32 * r.pos) b s
  let wrap : Bool := r.pos + 1 = 2 ^ r.size
  let fire : Bool := c.ctx.isNone || (r.vector != 0xFFFF && r.icount ≤ r.since + 1)
  let r := { r with
    pos := if wrap then 0 else r.pos + 1, gen := if wrap then r.gen + 1 else r.gen, fill := r.fill + 1
    since := if fire then 0 else r.since + 1 }
  let s := setCq c.fn c.ctx c.cq r s
  if fire then signal c.fn r.vector s else s

/-- R303: ARDY clears once the commands of a disabled admin ring have completed. -/
def settleAdmin (fn : Nat) (s : State) : State :=
  if (fnOf s fn).disabling && adminCmds s fn = [] then updFn fn adminOff s else s

/-- R438: the management path receives 32-byte completions. -/
def mctpComplete (c : Cmd) (s : State) : State :=
  match c.done with
  | none => s
  | some (st, res) =>
    emit (.mctp (cplBytes c.tag st 0 0xFFFF 0 res)) { s with cmds := s.cmds.filter (fun k => k.cid != c.cid) }

/-- COMPLETION_WRITE: a DEFERRED entry first, then the final one; a full ring makes it wait. -/
def doCompletionWrite (cid : Nat) (s : State) : State :=
  match cmdOf s cid with
  | none => s
  | some c =>
    if c.fn = mgmtFn then mctpComplete c s
    else if fnOff s c.fn || !(ringsOn s c.fn) then s
    else
      let r := cqOf s c.fn c.ctx c.cq
      let noCq := c.cflags.getLsbD 1 || !r.en
      let full := !noCq && 2 ^ r.size ≤ r.fill
      let hold (was : Bool) (f : Cmd → Cmd) (s : State) : State :=
        let s := updCmd cid f s
        match c.ctx with
        | some x => if was then s else updCtx x (fun k => { k with cqHold := satAdd 16 k.cqHold 1 }) s
        | none => s
      let put (st : W16) (res : List Byte) (s : State) : State :=
        let s := putReply c st res s
        if noCq then s else writeEntryTo c st res s
      match c.deferred, c.deferredSent, c.done with
      | some d, false, _ => if full then hold c.deferredHeld (fun c => { c with deferredHeld := true }) s
          else put stDEFERRED d (updCmd cid (fun c => { c with deferredSent := true, deferredHeld := false }) s)
      | _, _, some (st, res) => if full then hold c.written (fun c => { c with written := true }) s
          else settleAdmin c.fn (let s := put st res s; { s with cmds := s.cmds.filter (fun k => k.cid != cid) })
      | _, _, none => s

/-- INTERRUPT_TIME_EXPIRE: ITIME after the first entry not yet signalled. DESIGN CHOICE (log 65). -/
def doInterruptTimeExpire (ctx q : Nat) (s : State) : State :=
  match ctxOf s ctx with
  | none => s
  | some c =>
    let r := nmGetD c.cq q cplRingOff
    if !r.en || r.vector = 0xFFFF || r.itime = 0 || r.since = 0 then s
    else signal c.owner r.vector (updCq ctx q { r with since := 0 } s)

/-! ## PING (R316) -/

def doPing (cid : Nat) (s : State) : State :=
  match ready s cid 0x01 with
  | none => s
  | some k =>
    let s := startCmd cid s
    if !(allZero (k.param.drop 8)) then finish0 cid stBAD_PARAM s
    else finish cid stOK (slice k.param 0 8 ++ leBytes 8 s.clk.pcc.toNat) s

/-! ## Bus mastering and resets (R323-R325) -/

def doBusMasterDisable (fn : Nat) (s : State) : State :=
  if fnOff s fn then s else updFn fn (fun f => { f with bme := false }) s

def doBusMasterEnable (fn : Nat) (s : State) : State :=
  if fnOff s fn then s else flushPba fn (updFn fn (fun f => { f with bme := true }) s)

/-- R324: functions are reset, and their contexts killed; nothing completes. What is read-only stays.
DEDUCED (log 60). -/
def resetFns (pick : Nat → Bool) (s : State) : State :=
  let mine := (s.ctxs.filter (fun e => pick e.2.owner)).map (·.1)
  let s := mine.foldl (fun s x => killCtx x none s) s
  let fresh (f : Fn) : Fn := { fnReset with
    inReset := true, aperMiss := f.aperMiss, dbDrop := f.dbDrop, replies := f.replies }
  { s with
    cmds := s.cmds.filter (fun c => !(pick c.fn))
    fns := ((List.range 128).filter pick).foldl (fun m n => nmSet n (fresh (nmGetD s.fns n fnReset)) m) s.fns }

/-- Read from the spec by inference: DEDUCED (log 60). -/
def resetPort (port : Nat) (s : State) : State :=
  resetFns (fun f => f / 64 == port) (updPort port (fun p => { p with vfEnable := false }) s)

def doPortReset (port : Nat) (s : State) : State :=
  if 1 < port then s else resetPort port (updPort port (fun p => { p with perst := true, inReset := true }) s)

def doPerstDeassert (port : Nat) (s : State) : State :=
  if 1 < port then s else updPort port (fun p => { p with perst := false }) s

/-- Open in the spec: DESIGN CHOICE (log 65). -/
def doHostLinkDownTimeout (port : Nat) (s : State) : State :=
  if 1 < port || (portOf s port).linkUp then s
  else resetPort port (updPort port (fun p => { p with inReset := true }) s)

def doPfFlr (port : Nat) (s : State) : State :=
  if 1 < port || (portOf s port).inReset then s else resetPort port s

def doVfFlr (port : Nat) (vf : Option Nat) (s : State) : State :=
  if 1 < port || (portOf s port).inReset then s
  else
    let s := if vf.isNone then updPort port (fun p => { p with vfEnable := false }) s else s
    resetFns (fun f => f / 64 == port && f % 64 != 0 && (match vf with | some v => f % 64 == v | none => true)) s

/-- PORT_READY_AGAIN: the port, and its functions, are ready (R324, R407). -/
def doPortReadyAgain (port : Nat) (s : State) : State :=
  if 1 < port || (portOf s port).perst || !s.boot.ready then s
  else
    let on (e : Nat × Fn) : Nat × Fn := if e.1 / 64 = port then (e.1, { e.2 with inReset := false }) else e
    let s := updPort port (fun p => { p with inReset := false }) s
    { s with fns := s.fns.map on }

/-- R295: a width and a rate that a port trains at. -/
def linkOk (width gen : Nat) : Bool := width ∈ [1, 2, 4, 8, 16] && 1 ≤ gen && gen ≤ 5

def doHostLinkUp (port width gen : Nat) (s : State) : State :=
  if 1 < port || !s.clk.mainEn || (portOf s port).perst || !(linkOk width gen) then s
  else updPort port (fun p => { p with linkUp := true, width := width, gen := gen }) s

def doHostLinkDown (port : Nat) (s : State) : State :=
  if 1 < port || !(portOf s port).linkUp then s
  else updPort port (fun p => { p with linkUp := false, width := 0, gen := 0, downRtc := s.clk.rtc }) s

/-- R325: the port has had no link for at least 1 s. -/
def noLink1s (s : State) (port : Nat) : Bool :=
  !(portOf s port).linkUp && 32768 ≤ (s.clk.rtc - (portOf s port).downRtc).toNat

def doPkgrstRequestLapse (port : Nat) (s : State) : State :=
  if 1 < port then s else updPort port (fun p => { p with pkgReq := false }) s

/-- PKGRST_PIN (R489): the rising edge after 1 ms low. -/
def doPkgrstPin (s : State) : State := packageReset s

/-- PKGRST_OTHER_PORT_NO_LINK: `port` reaches 1 s without a link while the other port's request is pending. -/
def doPkgrstOtherPortNoLink (port : Nat) (s : State) : State :=
  if 1 < port || (portOf s port).linkUp || !(portOf s (1 - port)).pkgReq then s else packageReset s

def execPing (cid : Nat) (s : State) : Host.Outcome State Fault Refusal := .next (doPing cid s)
def execCommandFetch (fn : Nat) (ctx : Option Nat) (ring : FetchFrom) (s : State) : Host.Outcome State Fault Refusal :=
  .next (doCommandFetch fn ctx ring s)
def execCompletionWrite (cid : Nat) (s : State) : Host.Outcome State Fault Refusal := .next (doCompletionWrite cid s)
def execInterruptTimeExpire (ctx cq : Nat) (s : State) : Host.Outcome State Fault Refusal :=
  .next (doInterruptTimeExpire ctx cq s)
def execCommandRingDoorbell (fn page ring : Nat) (val : W64) (s : State) : Host.Outcome State Fault Refusal :=
  .next (doCommandRingDoorbell fn page ring val s)
def execAdminDoorbell (fn : Nat) (val : W64) (s : State) : Host.Outcome State Fault Refusal :=
  .next (onBar (.host fn) (doAdminDoorbell fn val) s)
def execPedDoorbell (fn page ring : Nat) (val : W64) (s : State) : Host.Outcome State Fault Refusal :=
  .next (doPedDoorbell fn page ring val s)
def execAdminRingEnable (fn : Nat) (s : State) : Host.Outcome State Fault Refusal :=
  .next (onBar (.host fn) (doAdminRingEnable fn) s)
def execAdminRingDisable (fn : Nat) (s : State) : Host.Outcome State Fault Refusal :=
  .next (onBar (.host fn) (doAdminRingDisable fn) s)
def execRingTableWrite (rq : Requester) (ctx : Nat) (val : W64) (s : State) : Host.Outcome State Fault Refusal :=
  .next (onBar rq (doRingTableWrite rq ctx val) s)
def execFnAperWrite (fn : Nat) (val : W64) (s : State) : Host.Outcome State Fault Refusal :=
  .next (onBar (.host fn) (doFnAperWrite fn val) s)
def execBar4Access (port off : Nat) (acc : Bar4Acc) (s : State) : Host.Outcome State Fault Refusal :=
  .next (doBar4Access port off acc s)
def execBusMasterDisable (fn : Nat) (s : State) : Host.Outcome State Fault Refusal := .next (doBusMasterDisable fn s)
def execBusMasterEnable (fn : Nat) (s : State) : Host.Outcome State Fault Refusal := .next (doBusMasterEnable fn s)
def execPortReset (port : Nat) (s : State) : Host.Outcome State Fault Refusal := .next (doPortReset port s)
def execPerstDeassert (port : Nat) (s : State) : Host.Outcome State Fault Refusal := .next (doPerstDeassert port s)
def execHostLinkDownTimeout (port : Nat) (s : State) : Host.Outcome State Fault Refusal := .next (doHostLinkDownTimeout port s)
def execPfFlr (port : Nat) (s : State) : Host.Outcome State Fault Refusal := .next (doPfFlr port s)
def execVfFlr (port : Nat) (vf : Option Nat) (s : State) : Host.Outcome State Fault Refusal := .next (doVfFlr port vf s)
def execPkgrstRequestLapse (port : Nat) (s : State) : Host.Outcome State Fault Refusal := .next (doPkgrstRequestLapse port s)
def execPkgrstPin (s : State) : Host.Outcome State Fault Refusal := .next (doPkgrstPin s)
def execHostLinkUp (port width gen : Nat) (s : State) : Host.Outcome State Fault Refusal := .next (doHostLinkUp port width gen s)
def execHostLinkDown (port : Nat) (s : State) : Host.Outcome State Fault Refusal := .next (doHostLinkDown port s)
def execPortReadyAgain (port : Nat) (s : State) : Host.Outcome State Fault Refusal := .next (doPortReadyAgain port s)
def execPkgrstOtherPortNoLink (port : Nat) (s : State) : Host.Outcome State Fault Refusal := .next (doPkgrstOtherPortNoLink port s)

end Sys2Proof.Machine
end

