-- ==== Sys2Proof/Machine/Security.lean ====
section
/-! DEFINITION. Attestation and the measurement log (R427-R429), debug unlock (R435), and the SPDM responder (R430,
R431). -/

namespace Sys2Proof.Machine

open Sys2Proof

/-! ## Quotes and the log (R427-R429) -/

/-- R428: a quote before its signature. -/
def quoteBytes (s : State) (fn : Nat) (nonce : List Byte) (mask : Nat) : List Byte :=
  let idx := (List.range 11).filter (fun i => bitAt mask i)
  pad 128 (leBytes 4 0x544F5551 ++ leBytes 2 1 ++ leBytes 2 idx.length ++ leBytes 8 s.boot.fact.serial.toNat ++
    leBytes 8 s.clk.rtc.toNat ++ leBytes 8 (s.sec.logNext - 1) ++ nonce ++ leBytes 32 s.sec.chain.toNat ++ leBytes 2 fn) ++
    idx.flatMap (fun i => leBytes 1 i ++ zeros 3 ++ leBytes 4 (nmGetD s.sec.measVer i 0).toNat ++
      leBytes 32 (nmGetD s.sec.meas i 0).toNat ++ zeros 8)

def doAttestQuote (cid : Nat) (s : State) : State :=
  match ready s cid 0x90 with
  | none => s
  | some k =>
    let s := startCmd cid s
    let p := k.param
    let mask := u32 p 40
    if mask = 0 || mask % 2 = 1 || 2048 ≤ mask || u64 p 32 % 64 ≠ 0 || u32 p 44 ≠ 0 then finish0 cid stBAD_PARAM s
    else match s.sec.seed with
      | none => finish0 cid stDEGRADED s
      | some d =>
        if !s.sec.idok then finish0 cid stDEGRADED s
        else
          let q := quoteBytes s k.fn (slice p 0 32) mask
          let b := q ++ pad 64 (Config.sm2Sign d q)
          finish cid stOK (leBytes 4 b.length ++ zeros 4 ++ leBytes 8 (s.sec.logNext - 1))
            (hostWrite (k.fn / 64) (u64 p 32) b s)

/-- The SEQ of the oldest entry held. -/
def oldestLog (s : State) : Nat := match s.sec.log with | e :: _ => e.seq | [] => s.sec.logNext

def doMeasureLog (cid : Nat) (s : State) : State :=
  match ready s cid 0x91 with
  | none => s
  | some k =>
    let s := startCmd cid s
    let p := k.param
    if u64 p 0 % 64 ≠ 0 || u64 p 8 < 128 || !(allZero (p.drop 24)) then finish0 cid stBAD_PARAM s
    else
      let first := max (u64 p 16) (oldestLog s)
      let skip := first - oldestLog s
      let es := (s.sec.log.drop skip).take ((u64 p 8 - 64) / 64)
      let chain := match s.sec.chainOld.drop skip with | d :: _ => d | [] => s.sec.chain
      let head := pad 64 (leBytes 8 first ++ leBytes 8 es.length ++ leBytes 32 chain.toNat)
      finish cid stOK (leBytes 8 es.length ++ leBytes 8 (first + es.length))
        (answerWrite k (u64 p 0) (head ++ es.flatMap logEntBytes) s)

/-! ## Debug unlock (R435) -/

def doDebugUnlock (tok : Token) (s : State) : State :=
  let msg := leBytes 8 tok.serial.toNat ++ leBytes 16 tok.nonce.toNat
  if !s.boot.serialShown || tok.serial ≠ s.boot.fact.serial || tok.nonce ≠ s.sec.nonce ||
      !(Config.sm2Verify Config.vendorKey msg tok.signature) then s
  else
    let s := eraseVolatile s
    measureState 4 { s with sec := { s.sec with dbg := true } }

/-! ## SPDM (R430, R431) -/

def spdmNew : Spdm := { versioned := false, caps := false, negotiated := false, transcript := 0 }

def spdmOf (s : State) (tr : Transport) : Spdm := ((s.sec.spdm.find? (fun e => e.1 == tr)).map (·.2)).getD spdmNew

def spdmSet (tr : Transport) (x : Spdm) (s : State) : State :=
  { s with sec := { s.sec with spdm := s.sec.spdm.filter (fun e => e.1 != tr) ++ [(tr, x)] } }

/-- The responder serves the transport: Horica or the ROM runs, after an alarm too (R424, R433), and a DOE mailbox answers
on its port. -/
def spdmServes (s : State) (tr : Transport) : Bool :=
  s.clk.mainEn && (2 ≤ s.boot.phase || s.boot.recovery) &&
    (match tr with | .doe p => s.boot.ready && !(portOf s p).inReset | _ => true)

/-- From outside the spec: PRESUMED (log 76). -/
def spdmError (tr : Transport) (code : Byte) (s : State) : State := emit (.spdm tr 0x7F [code]) s

/-- R431: a request; `go` answers it unless the transport is not served or an activation is handing over.
PRESUMED (log 76). -/
def spdmServe (tr : Transport) (go : State → State) (s : State) : State :=
  if !(spdmServes s tr) then s
  else if s.fw.st = .handover || s.fw.st = .switch then spdmError tr 0x03 s
  else go s

/-- A response, which the transcript takes in. -/
def spdmAnswer (tr : Transport) (code : Byte) (data : List Byte) (x : Spdm) (s : State) : State :=
  emit (.spdm tr code data) (spdmSet tr { x with transcript := x.transcript + 1 } s)

/-- Requests that need the algorithms negotiated first. -/
def spdmReady (tr : Transport) (go : State → State) (s : State) : State :=
  spdmServe tr (fun s => if (spdmOf s tr).negotiated then go s else spdmError tr 0x04 s) s

/-- R424: a response that is signed, over the transcript, both nonces and its content. -/
def spdmSigned (tr : Transport) (code : Byte) (nonce : BitVec 256) (data : List Byte) (s : State) : State :=
  match s.sec.seed with
  | none => spdmError tr 0x05 s
  | some d =>
    if !s.sec.idok then spdmError tr 0x05 s
    else
      let x := spdmOf s tr
      let r := freeBits 256 s
      let body := data ++ leBytes 32 r.1.toNat
      let sig := pad 64 (Config.sm2Sign d (leBytes 8 x.transcript ++ leBytes 32 nonce.toNat ++ body))
      spdmAnswer tr code (body ++ sig) x r.2

/-- From outside the spec: PRESUMED (log 76). -/
def doGetVersion (tr : Transport) (s : State) : State :=
  spdmServe tr (fun s => spdmAnswer tr 0x04 [0x12] { spdmNew with versioned := true } s) s

/-- CERT_CAP, CHAL_CAP, MEAS_CAP 10b and MEAS_FRESH_CAP, with CTExponent 17. -/
def doGetCapabilities (tr : Transport) (s : State) : State :=
  spdmServe tr (fun s =>
    let x := spdmOf s tr
    if x.versioned then spdmAnswer tr 0x61 ([17] ++ leBytes 4 0x36) { x with caps := true } s else spdmError tr 0x04 s) s

def doNegotiateAlgorithms (tr : Transport) (hasSm2 hasSm3 : Bool) (s : State) : State :=
  spdmServe tr (fun s =>
    let x := spdmOf s tr
    if !x.caps then spdmError tr 0x04 s
    else if !hasSm2 || !hasSm3 then spdmError tr 0x01 s
    else spdmAnswer tr 0x63 [1, 1] { x with negotiated := true } s) s

def doGetDigests (tr : Transport) (s : State) : State :=
  spdmReady tr (fun s => spdmAnswer tr 0x01 ([1] ++ sm3Bytes s.flash.certChain) (spdmOf s tr) s) s

/-- R431: a data object of a DOE mailbox is at most 16 KiB, 16 bytes of which a portion does not fill.
PRESUMED (log 76). -/
def portionMax (tr : Transport) : Nat := match tr with | .doe _ => 16368 | _ => 65535

/-- Slot 0 only: a portion of the chain, and how much remains. -/
def doGetCertificate (tr : Transport) (slot off len : Nat) (s : State) : State :=
  spdmReady tr (fun s =>
    let c := s.flash.certChain
    if slot ≠ 0 then spdmError tr 0x07 s
    else if c.length < off then spdmError tr 0x01 s
    else
      let b := slice c off (min len (portionMax tr))
      spdmAnswer tr 0x02 (leBytes 2 b.length ++ leBytes 2 (c.length - off - b.length) ++ b) (spdmOf s tr) s) s

def doChallenge (tr : Transport) (slot : Nat) (nonce : BitVec 256) (s : State) : State :=
  spdmReady tr (fun s =>
    if slot ≠ 0 then spdmError tr 0x07 s
    else spdmSigned tr 0x03 nonce (sm3Bytes s.flash.certChain ++
      ((List.range 11).drop 1).flatMap (fun i => leBytes 32 (nmGetD s.sec.meas i 0).toNat)) s) s

/-- One DMTF measurement block. -/
def measBlock (s : State) (i : Nat) : List Byte := leBytes 1 i ++ leBytes 32 (nmGetD s.sec.meas i 0).toNat

def doGetMeasurements (tr : Transport) (index : Nat) (signed : Bool) (nonce : BitVec 256) (s : State) : State :=
  spdmReady tr (fun s =>
    let is := if index = 0xFF then (List.range 11).drop 1 else [index]
    if index ≠ 0xFF && (index = 0 || 10 < index) then spdmError tr 0x07 s
    else
      let b := leBytes 1 is.length ++ is.flatMap (measBlock s)
      if signed then spdmSigned tr 0x60 nonce b s else spdmAnswer tr 0x60 b (spdmOf s tr) s) s

/-- A request outside the subset of R430. -/
def doSpdmUnsupportedRequest (tr : Transport) (_code : Byte) (s : State) : State :=
  spdmServe tr (fun s => spdmError tr 0x07 s) s

def execAttestQuote (cid : Nat) (s : State) : Host.Outcome State Fault Refusal := .next (doAttestQuote cid s)
def execMeasureLog (cid : Nat) (s : State) : Host.Outcome State Fault Refusal := .next (doMeasureLog cid s)
def execDebugUnlock (tok : Token) (s : State) : Host.Outcome State Fault Refusal := .next (doDebugUnlock tok s)
def execGetVersion (tr : Transport) (s : State) : Host.Outcome State Fault Refusal := .next (doGetVersion tr s)
def execGetCapabilities (tr : Transport) (s : State) : Host.Outcome State Fault Refusal := .next (doGetCapabilities tr s)
def execNegotiateAlgorithms (tr : Transport) (hasSm2 hasSm3 : Bool) (s : State) : Host.Outcome State Fault Refusal :=
  .next (doNegotiateAlgorithms tr hasSm2 hasSm3 s)
def execGetDigests (tr : Transport) (s : State) : Host.Outcome State Fault Refusal := .next (doGetDigests tr s)
def execGetCertificate (tr : Transport) (slot off len : Nat) (s : State) : Host.Outcome State Fault Refusal :=
  .next (doGetCertificate tr slot off len s)
def execChallenge (tr : Transport) (slot : Nat) (nonce : BitVec 256) (s : State) : Host.Outcome State Fault Refusal :=
  .next (doChallenge tr slot nonce s)
def execGetMeasurements (tr : Transport) (index : Nat) (signed : Bool) (nonce : BitVec 256) (s : State) :
    Host.Outcome State Fault Refusal := .next (doGetMeasurements tr index signed nonce s)
def execSpdmUnsupportedRequest (tr : Transport) (code : Byte) (s : State) : Host.Outcome State Fault Refusal :=
  .next (doSpdmUnsupportedRequest tr code s)

end Sys2Proof.Machine
end

