-- ==== Sys2Proof/Machine/Registers.lean ====
section
/-! DEFINITION. Registers (chapter 16): guarded pairs (R447-R450), the BAR0 map as it reads (R458-R464 and the register
tables of the other chapters), read shadows (R451), write shadows (R452), and writes to registers (R453-R456). -/

namespace Sys2Proof.Machine

open Sys2Proof

/-! ## Guarded pairs (R447-R450) -/

def gRegA : GReg → Nat
  | .pkgrst => 0x100 | .pwrLimit => 0x900010 | .pwrClkctl => 0x900020 | .secAlarm => 0xA00010 | .secErase => 0xA00020
  | .secSlot => 0xA00030 | .secTest => 0xA00040 | .secScrub => 0xA00050

def gRegB (g : GReg) : Nat := gRegA g + 8

/-- R447: the writers of each guarded register; a VF writes none (R449). -/
def gMay (rq : Requester) (g : GReg) : Bool :=
  match rq with
  | .host fn => fn % 64 == 0 && g != .secAlarm
  | .firmware => g == .pwrLimit || g == .pwrClkctl
  | .mgmt => g != .pkgrst

/-- R463: the code of a requester, and its function. -/
def rqCode : Requester → Nat
  | .host fn => fn / 64
  | .firmware => 2
  | .mgmt => 3

def rqFn : Requester → Nat
  | .host fn => fn % 128
  | _ => 0x7F

/-- R449: a pair fails: one record, FAILS, and what HUB_GUARD shows. DEDUCED (log 74). -/
def guardFail (rq : Requester) (cause off : Nat) (val : W32) (s : State) : State :=
  postRec 0x16 1 none 0xFF 0xFFFFFFFF [(0, 4, off), (4, 1, cause), (5, 1, rqCode rq), (6, 1, rqFn rq), (8, 4, val.toNat)]
    { s with reg := { s.reg with
        gFails := satAdd 16 s.reg.gFails 1, gReq := rqCode rq, gCause := cause, gFn := rqFn rq
        gOff := BitVec.ofNat 32 off } }

def pendOf (s : State) (rq : Requester) (g : GReg) : Option W32 :=
  (s.reg.pend.find? (fun e => e.1 == rq && e.2.1 == g)).map (·.2.2)

def closePend (rq : Requester) (g : GReg) (s : State) : State :=
  { s with reg := { s.reg with pend := s.reg.pend.filter (fun e => !(e.1 == rq && e.2.1 == g)) } }

def openPend (rq : Requester) (g : GReg) (v : W32) (s : State) : State :=
  let s := closePend rq g s
  { s with reg := { s.reg with pend := s.reg.pend ++ [(rq, g, v)] } }

/-- The A write of a pair. -/
def guardA (rq : Requester) (g : GReg) (va : W32) (s : State) : State :=
  if !(gMay rq g) then guardFail rq 5 (gRegA g) va s
  else if (pendOf s rq g).isSome then guardFail rq 4 (gRegA g) va (openPend rq g va s)
  else openPend rq g va s

/-- R449: the register rejects the value of an otherwise complete pair. DEDUCED (log 72, 73). -/
def gReject (rq : Requester) (g : GReg) (v : W32) (s : State) : Bool :=
  let lv := bits v.toNat 0 2
  match g with
  | .pkgrst => v != 1
  | .secErase => match rq with | .mgmt => lv == 0 || lv == 3 | _ => lv != 1
  | .secSlot => s.fw.st == .staging || !(manifestOk (manifest s (bits v.toNat 0 1)) s.fw.dir.svnFloor)
  | _ => false

/-- R446: a stored alarm level: 0 is read as 1 and 3 as 2. -/
def alarmNorm (v : W32) : W32 :=
  let lv (i : Nat) : Nat := if bits v.toNat (2 * i) 2 < 2 then 1 else 2
  (v &&& 0x7FFFFC00) ||| BitVec.ofNat 32 ((List.range 5).foldl (fun n i => n + lv i * 4 ^ i) 0)

/-- The register takes V at the B write (R448, R450). DEDUCED (log 27, 72). -/
def gTake (rq : Requester) (g : GReg) (v : W32) (s : State) : State :=
  match g with
  | .pkgrst =>
    let p := rqCode rq
    let s := updPort p (fun x => { x with pkgReq := true }) s
    if (portOf s (1 - p)).pkgReq || noLink1s s (1 - p) then packageReset s else s
  | .pwrLimit => { s with pwr := { s.pwr with limit := limitRead v } }
  | .pwrClkctl =>
    let moved := (v ^^^ s.pwr.clkctl) &&& 0xFFE0F800
    noteRwp (moved != 0) { s with pwr := { s.pwr with clkctl := clkctlRead v } }
  | .secAlarm =>
    let moved := (v ^^^ s.sec.alarm) &&& 0x7FFFFC00
    let s := noteRwp (moved != 0) { s with sec := { s.sec with alarm := alarmNorm v } }
    if v.getLsbD 31 && s.sec.srcActive == 0 then measureState 3 { s with sec := { s.sec with level := 0, cause := 0 } } else s
  | .secErase =>
    let s := rwpWrite 0xA00020 0xFFFFFFFC (v.setWidth 64) s
    let s := eraseVolatile s
    let s := if bits v.toNat 0 2 = 2 then { s with sec := { s.sec with erasePending := true } } else s
    measureState 5 s
  | .secSlot => writeDir (fun d => { d with active := bits v.toNat 0 1 }) (rwpWrite 0xA00030 0xFFFFFFFE (v.setWidth 64) s)
  | .secTest =>
    let moved := (v ^^^ s.sec.test) &&& 0xFFFFFF00
    noteRwp (moved != 0) { s with sec := { s.sec with test := v } }
  | .secScrub =>
    let moved := (v ^^^ s.sec.scrub) &&& 0xFFFFFFFE
    noteRwp (moved != 0) { s with sec := { s.sec with scrub := v } }

/-- The B write of a pair. -/
def guardB (rq : Requester) (g : GReg) (vb : W32) (s : State) : State :=
  if !(gMay rq g) then guardFail rq 5 (gRegB g) vb s
  else match pendOf s rq g with
    | none => guardFail rq 1 (gRegB g) vb s
    | some va =>
      let s := closePend rq g s
      if vb ≠ ~~~va then guardFail rq 3 (gRegB g) vb s
      else if gReject rq g va s then guardFail rq 6 (gRegA g) va s
      else gTake rq g va s

/-- The window ends with no B write. DESIGN CHOICE (log 65). -/
def doGuardedWindowExpire (rq : Requester) (g : GReg) (s : State) : State :=
  match pendOf s rq g with
  | none => s
  | some va => guardFail rq 2 (gRegA g) va (closePend rq g s)

def doGuardedWriteA (rq : Requester) (g : GReg) (va : W32) (s : State) : State := onBar rq (guardA rq g va) s

/-- The B write of the pair of register g. DEDUCED (log 72). -/
def doGuardedPair (g : GReg) (rq : Requester) (vb : W32) (s : State) : State := onBar rq (guardB rq g vb) s

/-! ## Registers with a row of their own -/

/-- R132, R183: the function that created the context, or firmware. -/
def ctxWriter (rq : Requester) (c : Ctx) : Bool :=
  match rq with | .host fn => c.owner == fn | .firmware => true | .mgmt => false

/-- RWP bits of HUB_NUMCTL: [27:15] and [7:2]. -/
def numctlRwp : W64 := 0x0FFF80FC

def numctlTake (val : W64) (n : NumCtl) : NumCtl :=
  let v := val.toNat
  let t : BitVec 16 := BitVec.ofNat 16 (bits v 32 16)
  { n with
    tail := if 64 * 2 ^ n.sizeF < (n.head - t).toNat then n.tail else t
    size := if bits v 28 4 < 10 then bits v 28 4 else n.size
    stk := n.stk &&& ~~~(BitVec.ofNat 7 (bits v 8 7)), en := bitAt v 1, ftz := bitAt v 0, rwp := val &&& numctlRwp }

def doHubNumctlWrite (rq : Requester) (ctx : Nat) (val : W64) (s : State) : State :=
  match ctxOf s ctx with
  | none => s
  | some c =>
    if !(ctxWriter rq c) then s
    else noteRwp (c.num_.rwp != val &&& numctlRwp) (updCtx ctx (fun c => { c with num_ := numctlTake val c.num_ }) s)

def doHubNumringWrite (rq : Requester) (ctx : Nat) (val : W64) (s : State) : State :=
  match ctxOf s ctx with
  | none => s
  | some c =>
    if !(ctxWriter rq c) then s
    else
      let r := val &&& 0xFFFFFFFF00000000
      noteRwp (c.num_.ringRwp != r) (updCtx ctx (fun c => { c with
        num_ := { c.num_ with ring := val.setWidth 32, ringRwp := r } }) s)

def doHubSpecWrite (rq : Requester) (ctx : Nat) (val : W64) (s : State) : State :=
  match ctxOf s ctx with
  | none => s
  | some c =>
    if !(ctxWriter rq c) then s
    else
      let r := val &&& 0xFFFC
      noteRwp (c.spec.rwp != r) (updCtx ctx (fun c => { c with spec := { c.spec with en := val.getLsbD 0, rwp := r } }) s)

/-- R387: a PF or the management path. -/
def doErrTilthWWrite (rq : Requester) (val : W64) (s : State) : State :=
  if !(errWriter rq) then s
  else
    let moved := (val ^^^ s.err.w) &&& 0xFFFFFF0000000000
    noteRwp (moved != 0) { s with err := { s.err with w := val } }

/-- R479, R481: a TAIL that would make HEAD - TAIL exceed the ring is ignored, as in R132. -/
def doPmcSmpTailWrite (rq : Requester) (ctx : Nat) (val : W32) (s : State) : State :=
  match ctxOf s ctx with
  | none => s
  | some c =>
    if !(ctxWriter rq c) || 64 * 2 ^ c.pmc.smpSize < (c.pmc.smpHead - val).toNat then s
    else updCtx ctx (fun c => { c with pmc := { c.pmc with smpTail := val } }) s

/-! ## The BAR0 map as it reads -/

/-- A register: its offset and its bytes. -/
abbrev RegVal := Nat × List Byte

def reg32 (b v : Nat) : RegVal := (b, leBytes 4 v)
def reg64 (b v : Nat) : RegVal := (b, leBytes 8 v)

/-- A word of a table of bytes at `base`. -/
def tableWord (base a : Nat) (l : List Byte) : RegVal := (a, pad 4 (slice l (a - base) 4))

/-- An offset that no chapter assigns (R455). -/
def regNone (a : Nat) : RegVal := (a, zeros 4)

/-- Changed RWP bits of a register without another field for them. -/
def rwpOf (s : State) (b : Nat) : Nat := (nmGetD s.reg.rwp b 0).toNat

/-- R455: a context that a reader sees: for a PF or a VF one that its port owns, and never context 0 (R304).
DEDUCED (log 69). -/
def ctxSeen (s : State) (rq : Requester) (ctx : Nat) : Option Ctx :=
  match ctxOf s ctx, rq with
  | some c, .host fn => if ctx ≠ 0 && c.owner / 64 = fn / 64 then some c else none
  | some c, _ => some c
  | none, _ => none

/-- R304: a context whose ring table and own hub registers a requester reaches: for a function, one that it created. -/
def ctxMine (s : State) (rq : Requester) (ctx : Nat) : Option Ctx :=
  (ctxSeen s rq ctx).bind (fun c => match rq with | .host fn => if c.owner = fn then some c else none | _ => some c)

/-- R300, R455: the registers of a port that a requester reaches. -/
def portSeen (rq : Requester) (p : Nat) : Bool := match rq with | .host fn => fn / 64 == p | _ => true

/-- HUB_NUMCTL (R132). Between a write and the boundary at which it takes effect, FTZ, EN and SIZE read as written; the spec
does not say. DESIGN CHOICE (log 122). -/
def numctlVal (n : NumCtl) : Nat :=
  n.head.toNat * 2 ^ 48 + n.tail.toNat * 2 ^ 32 + n.size * 2 ^ 28 + n.stk.toNat * 256 + 2 * b2n n.en + b2n n.ftz +
    n.rwp.toNat

def specVal (x : SpecReg) : Nat :=
  x.discards.toNat * 2 ^ 40 + x.commits.toNat * 65536 + 2 * b2n x.active + b2n x.en + x.rwp.toNat

/-- R462; what the cold start found reads its reset value before P6 ends (R457). -/
def hubConfigVal (s : State) : Nat :=
  let up := (s.fab.ports.filter (fun e => e.2.st == .up)).length
  up * 2 ^ 40 + b2n s.port1.linkUp * 2 ^ 33 + b2n s.port0.linkUp * 2 ^ 32 + b2n s.clk.aoh1 * 2 ^ 24 + (if s.emap.built then s.boot.clkbin else 0) * 65536 +
    4 * b2n s.boot.kindValid + (if s.boot.kindValid then s.boot.kind else 0)

/-- R28. -/
def hubGrainsVal (s : State) : Nat :=
  if !s.emap.built then 0
  else
    let served := (List.range ped2Count).filter (ped2InService s)
    let count (m : NatMap (BitVec 256)) : Nat := served.foldl (fun n p => n + popCount (nmGetD m p 0)) 0
    s.emap.gen.toNat * 2 ^ 48 + count s.emap.spare * 2 ^ 32 + s.emap.retired.length * 2 ^ 19 + count s.emap.enabled

/-- R420: ELAPSED counts until DONE, and on where the cold start is HELD. -/
def hubBootVal (s : State) : Nat :=
  let b := s.boot
  let ms := if b.phase = 15 || !s.clk.mainEn then b.elapsedMs else elapsed s
  min ms 0xFFFFFFFF * 2 ^ 32 + b.reason * 65536 + b.outcome * 256 + s.fw.slotRun * 64 + b.phase

def hubGuardVal (s : State) : Nat :=
  let r := s.reg
  r.gFails * 2 ^ 48 + r.gReq * 2 ^ 44 + r.gCause * 2 ^ 40 + r.gFn * 2 ^ 32 + r.gOff.toNat

/-- R4: the revision, as the factory part has it. DEDUCED (log 69). -/
def revision (s : State) : Nat := (if s.flash.factA.valid then s.flash.factA.rev else s.flash.factB.rev).toNat

/-- HUB block (R460). DEDUCED (log 69). -/
def hubAt (s : State) (rq : Requester) (a : Nat) : RegVal :=
  let w := a / 8 * 8
  if 0x10000 ≤ a && a < 0x22C00 then
    let p := (a - 0x10000) / 64
    tableWord (0x10000 + 64 * p) a (if s.emap.built then
      leBytes 32 (nmGetD s.emap.enabled p 0).toNat ++ leBytes 32 (nmGetD s.emap.spare p 0).toNat else [])
  else if 0x4000 ≤ a && a < 0x8000 then
    reg64 w (match ctxMine s rq ((a - 0x4000) / 16) with
      | some c => if a / 8 % 2 = 0 then numctlVal c.num_ else c.num_.ring.toNat + c.num_.ringRwp.toNat
      | none => 0)
  else if 0x30000 ≤ a && a < 0x40000 then
    (w, match ctxMine s rq ((a - 0x30000) / 64) with
      | some c => slice (numSumBytes c.sum) (w % 64) 8
      | none => zeros 8)
  else if 0x40000 ≤ a && a < 0x42000 then
    reg64 w (match ctxMine s rq ((a - 0x40000) / 8) with | some c => specVal c.spec | none => 0)
  else match w with
    | 0x00 => reg64 w (0x1F8C004800030100 + revision s * 2 ^ 24 + rwpOf s w)
    | 0x08 => reg64 w (hubConfigVal s + rwpOf s w)
    | 0x10 => reg64 w (if s.boot.serialShown then s.boot.fact.serial.toNat else 0)
    | 0x20 => reg64 w s.clk.pcc.toNat
    | 0x28 => if a = 0x28 then reg32 a (rqCode rq * 2 ^ 30 + rqFn rq + rwpOf s w) else regNone a
    | 0x30 => reg64 w (s.reg.badsize * 2 ^ 48 + s.reg.rwpw * 2 ^ 32 + b2n s.reg.rwpt + rwpOf s w)
    | 0x40 => reg64 w (hubGrainsVal s + rwpOf s w)
    | 0x80 => reg64 w (hubBootVal s + rwpOf s w)
    | 0x100 => if a = 0x100 then reg32 a (2 * b2n s.port1.pkgReq + b2n s.port0.pkgReq) else regNone a
    | 0x200 => reg64 w (hubGuardVal s + rwpOf s w)
    | _ => regNone a

def stCode : CtxSt → Nat
  | .free => 0 | .idle => 1 | .ready => 2 | .running => 3 | .killing => 4

/-- D_x rounded toward zero, 32 bits of two's complement. -/
def deficitWord (x : Rat) : Nat :=
  (BitVec.ofInt 32 (if x < 0 then -((-x).floor) else x.floor)).toNat

def shareVal (s : State) (b : Nat) (c : Ctx) : Nat :=
  c.weight * 2 ^ 48 + c.limit * 2 ^ 40 + b2n c.deepNext * 2 ^ 39 + stCode c.st * 2 ^ 36 + deficitWord c.deficit + rwpOf s b

/-- SCH block (R340). DEDUCED (log 69). -/
def schAt (s : State) (rq : Requester) (a : Nat) : RegVal :=
  let w := a / 8 * 8
  if a < 0x104000 then
    if a % 16 < 8 then
      reg64 w (match ctxSeen s rq ((a - 0x100000) / 16) with | some c => shareVal s w c | none => 0)
    else regNone a
  else if 0x110000 ≤ a && a < 0x120000 then
    (w, match ctxSeen s rq ((a - 0x110000) / 64) with
      | some c => slice (acctBytes c.acct) (w % 64) 8
      | none => zeros 8)
  else if 0x120000 ≤ a && a < 0x120400 then
    let f := (a - 0x120000) / 8
    reg64 w (if portSeen rq (f / 64) then
      (fnOf s f).weight * 2 ^ 48 + ((actives s).filter (fun c => c.owner == f)).length + rwpOf s w else 0)
  else if 0x120400 ≤ a && a < 0x120410 then
    let p := (a - 0x120400) / 8
    reg64 w (if portSeen rq p then
      (portOf s p).weight * 2 ^ 48 + ((actives s).filter (fun c => c.owner / 64 == p)).length + rwpOf s w else 0)
  else regNone a

/-- A function page (R302). -/
def pageAt (s : State) (f w a : Nat) : RegVal :=
  let x := fnOf s f
  match w % 256 with
  | 0x00 => reg64 w x.asq.toNat
  | 0x08 => reg64 w x.acq.toNat
  | 0x10 => reg64 w (x.ctl.toNat + 2 * b2n x.ardy)
  | 0x18 => reg64 w 0
  | 0x20 => reg64 w (ownedBy s f * 2 ^ 32 + x.aperMiss * 65536 + x.dbDrop + rwpOf s w)
  | 0x28 => reg64 w (if f % 64 = 0 then x.aper.toNat else 0)
  | _ =>
    if 0x40 ≤ a % 256 && a % 256 < 0x60 then
      tableWord (a / 256 * 256 + 0x40) a ((List.range 16).flatMap (fun i => match x.slots.find? (fun e => e.1 == i) with
        | some e => leBytes 2 (0x8000 + e.2)
        | none => zeros 2))
    else regNone a

/-- The MSI-X table entry of a vector; masked at reset. -/
def msixEnt (f : Fn) (v : Nat) : BitVec 128 := nmGetD f.msix v (BitVec.ofNat 128 (2 ^ 96))

/-- RING block (R300). -/
def ringAt (s : State) (rq : Requester) (a : Nat) : RegVal :=
  let w := a / 8 * 8
  if a < 0x210000 then
    match ctxMine s rq ((a - 0x200000) / 64), w % 64 with
    | some c, 0 => reg64 w (c.rtBase.toNat + b2n c.rtEn)
    | some c, 8 => reg64 w (c.dbDrop * 2 ^ 48 + c.cmdDrop * 2 ^ 32 + ((ctxCmds s c.num).filter outstanding).length * 65536 +
        c.cqHold)
    | none, 0 => reg64 w 0
    | none, 8 => reg64 w 0
    | _, _ => regNone a
  else if a < 0x218000 then
    let f := (a - 0x210000) / 256
    if portSeen rq (f / 64) then pageAt s f w a else regNone a
  else if 0x220000 ≤ a && a < 0x230000 then
    let f := (a - 0x220000) / 512
    (a / 32 * 32, if portSeen rq (f / 64) then nmGetD (fnOf s f).replies (a % 512 / 32) (zeros 32) else zeros 32)
  else match rq with
    | .host fn =>
      if 0x300000 ≤ a && a < 0x308000 then
        tableWord (a / 16 * 16) a (leBytes 16 (msixEnt (fnOf s fn) ((a - 0x300000) / 16)).toNat)
      else if 0x308000 ≤ a && a < 0x308100 then
        reg32 a ((List.range 32).foldl (fun n i => n + b2n ((a - 0x308000) * 8 + i ∈ (fnOf s fn).pba) * 2 ^ i) 0)
      else regNone a
    | _ => regNone a

/-- R224: what a channel or a drive that has failed held counts no more; the interleave keeps its channels (R218). -/
def hznCfgVal (s : State) : Nat :=
  let h := s.hz
  let up := h.channels.filter (fun c => !(c ∈ h.failedCh))
  let live := h.drives.filter (fun d => !(d ∈ h.failedDrives))
  if !h.cfgFinal then 0
  else
    up.length * h.dpc * h.dimmGib * 2 ^ 48 + h.channels.length * 2 ^ 42 + h.dpc * 2 ^ 40 +
      (if h.channels = [] then 0 else h.speed) * 2 ^ 36 + live.length * 2 ^ 31 + b2n s.port1.linkUp * 2 ^ 30 +
      b2n s.port0.linkUp * 2 ^ 29 + live.length * h.driveGran * 65536 / 10 ^ 12 * 2 ^ 16 + h.failedDrives.length

/-- HZN block (R224, R251). -/
def hznAt (s : State) (a : Nat) : RegVal :=
  let w := a / 8 * 8
  if a < 0x400008 then reg64 w (hznCfgVal s + rwpOf s w)
  else if 0x410000 ≤ a then
    reg64 w (match s.sieves.find? (fun t => t.idx == (a - 0x410000) / 128) with
      | some t => if w % 128 / 8 = 12 then (if t.dlog = 0 then 0 else dlogUsed s t)
          else (t.ctrs.getD (w % 128 / 8) 0).toNat
      | none => 0)
  else regNone a

/-- LNK block (R257, R294). -/
def lnkAt (s : State) (a : Nat) : RegVal :=
  let w := a / 8 * 8
  if 0x610000 ≤ a && a < 0x614000 then
    (a, (List.range 4).map (fun i => BitVec.ofNat 8 (routeByte s (a - 0x610000 + i))))
  else if 0x600100 ≤ a && a < 0x600300 then
    let p := fportOf s ((a - 0x600100) / 8)
    reg64 w (p.replays * 2 ^ 48 + p.retrains * 2 ^ 32 + p.peerdir * 2 ^ 22 + p.peer * 256 + 8 * b2n p.en + pstCode p.st +
      p.rwp.toNat)
  else match w with
    | 0x600000 => if a = w then reg32 a s.fab.torus.toNat else regNone a
    | 0x600008 => reg64 w s.fab.ctl.toNat
    | 0x600010 => reg64 w s.fab.credit.toNat
    | _ => regNone a

/-- One error ring's part of the ERR block, at offset o of it. DEDUCED (log 57, 71). -/
def errRingAt (s : State) (h base o : Nat) : RegVal :=
  let r := ringOf s h
  let a := base + o
  let w := a / 8 * 8
  let lost (x : Coal) : Bool := x.active
  if o < 8 then
    reg64 w (r.head.toNat * 2 ^ 48 + r.tail.toNat * 2 ^ 32 + r.lost * 65536 + s.err.flost * 256 +
      b2n (r.coal.any (fun e => lost e.2)) + rwpOf s (0x800000 + 0x80000 * h))
  else if 0x1000 ≤ o && o < 0x1100 then
    reg64 w (match nmGet r.coal ((o - 0x1000) / 8) with | some x => x.count.toNat | none => 0)
  else if 0x10000 ≤ o && o < 0x50000 then
    tableWord (a / 64 * 64) a (nmGetD r.recs ((o - 0x10000) / 64) (zeros 64))
  else if 0x60000 ≤ o && o < 0x61000 then
    let x := nmGetD r.coal ((o - 0x60000) / 128) { first := [], last := [], count := 0, active := false }
    (a / 16 * 16, slice (pad 64 x.first ++ pad 64 x.last) (a % 128 / 16 * 16) 16)
  else regNone a

/-- ERR block (R387). DEDUCED (log 71). -/
def errAt (s : State) (rq : Requester) (a : Nat) : RegVal :=
  let w := a / 8 * 8
  if 0x880000 ≤ a then
    match rq with
    | .host _ => regNone a
    | _ => errRingAt s 1 0x880000 (a - 0x880000)
  else if 0x850000 ≤ a && a < 0x851000 then
    tableWord (a / 64 * 64) a (nmGetD s.err.slots ((a - 0x850000) / 64) (zeros 64))
  else match w with
    | 0x800008 => reg64 w s.err.valid.toNat
    | 0x800100 => reg64 w (s.err.risk * 2 ^ 48 + s.err.periods.toNat * 2 ^ 32 + rwpOf s w)
    | 0x800108 => reg64 w s.err.w.toNat
    | _ => errRingAt s (match rq with | .host fn => fn / 64 | _ => 0) 0x800000 (a - 0x800000)

def dstateCode : DState → Nat
  | .active => 0 | .idle => 1 | .parked => 2

def pwrDieVal (s : State) (c : Nat) : Nat :=
  let d := dieOf s c
  d.w * 2 ^ 48 + (BitVec.ofInt 8 d.temp).toNat * 2 ^ 40 + mage s c * 2 ^ 31 + d.vstep * 2 ^ 26 + min d.slack 1023 * 65536 +
    dstateCode d.dstate

/-- PWR block (R104, R403, R404). -/
def pwrAt (s : State) (a : Nat) : RegVal :=
  let w := a / 8 * 8
  let p := s.pwr
  if 0x900100 ≤ a && a < 0x900280 then reg64 w (pwrDieVal s ((a - 0x900100) / 8) + rwpOf s w)
  else if 0x900060 ≤ a && a < 0x900070 then (0x900060, leBytes 8 s.clk.tbPcc.toNat ++ leBytes 8 s.clk.tbRtc.toNat)
  else match a with
    | 0x900008 => reg32 a p.ctl.toNat
    | 0x900010 => reg32 a p.limit.toNat
    | 0x900020 => reg32 a p.clkctl.toNat
    | 0x900040 => reg32 a p.ballast.toNat
    | _ => match w with
      | 0x900000 => reg64 w (p.pkgW * 2 ^ 48 + p.level * 2 ^ 36 + p.clk * 65536 + p.cause.toNat + rwpOf s w)
      | 0x900050 => reg64 w p.stretch.toNat
      | 0x900058 => reg64 w s.clk.rtc.toNat
      | _ => regNone a

def secStatVal (s : State) : Nat :=
  s.fw.svn * 2 ^ 32 + s.sec.cause.toNat * 65536 + s.sec.level * 4096 + b2n s.sec.idok * 512 + b2n s.sec.dbg * 256 +
    fwCode s.fw.st * 16 + b2n s.fw.dir.pend.isSome * 2 + s.fw.dir.active

/-- SEC block (R446). -/
def secAt (s : State) (a : Nat) : RegVal :=
  let x := s.sec
  if 0xA00060 ≤ a && a < 0xA00070 then (0xA00060, leBytes 16 x.nonce.toNat)
  else if 0xA00100 ≤ a && a < 0xA00140 then
    (0xA00100, match x.seed with | some d => if x.idok then pad 64 (Config.identityPub d) else zeros 64 | none => zeros 64)
  else match a with
    | 0xA00010 => reg32 a (x.alarm &&& 0x7FFFFFFF).toNat
    | 0xA00020 => reg32 a (rwpOf s a)
    | 0xA00030 => reg32 a (s.fw.dir.active + rwpOf s a)
    | 0xA00040 => reg32 a x.test.toNat
    | 0xA00050 => reg32 a x.scrub.toNat
    | _ => if a / 8 * 8 = 0xA00000 then reg64 0xA00000 (secStatVal s + rwpOf s 0xA00000) else regNone a

/-- PMC block (R481). DEDUCED (log 69). -/
def pmcAt (s : State) (rq : Requester) (a : Nat) : RegVal :=
  let w := a / 8 * 8
  if a < 0xB20000 then
    let i := w % 128 / 8
    reg64 w (match ctxSeen s rq ((a - 0xB00000) / 128) with
      | some c => (nmGetD c.pmc.selNext i (c.pmc.sel.getD i 0)).toNat
      | none => 0)
  else if a < 0xB28000 then
    reg64 w (match ctxSeen s rq ((a - 0xB20000) / 32) with
      | some c => (c.pmc.late.getD (w % 32 / 8) 0).toNat
      | none => 0)
  else if 0xB30000 ≤ a && a < 0xB34000 then
    reg64 w (match ctxSeen s rq ((a - 0xB30000) / 16) with
      | some c => if w % 16 = 0 then c.pmc.smpHead.toNat * 2 ^ 32 + c.pmc.smpTail.toNat
          else c.pmc.smpLost.toNat * 2 ^ 32 + c.pmc.smpHandle.toNat
      | none => 0)
  else if w = 0xB40000 then reg64 w s.snap.stamp.toNat
  else if w = 0xB40008 then reg64 w (s.snap.ctx * 65536 + b2n s.snap.isPending)
  else if 0xB50000 ≤ a && a < 0xB52580 then
    reg64 w (match rq with | .host _ => (ped2Of s ((a - 0xB50000) / 8)).corr | _ => 0)
  else regNone a

/-- CFGREC block (R413): the selected copy as last written. DESIGN CHOICE (log 70). -/
def cfgrecAt (s : State) (a : Nat) : RegVal :=
  if a < 0xC10000 then
    let b := factBytes s.boot.fact
    tableWord 0xC00000 a (if s.boot.fact.valid then b ++ Config.factorySign b else [])
  else
    let f := if s.boot.fieldCopyA then s.flash.fieldA else s.flash.fieldB
    let b := fieldBytes f
    tableWord 0xC10000 a (if f.valid then b ++ Config.fieldSign b else [])

def kindDie (d : Nat) : Nat × Nat :=
  if d < 48 then (0, d) else if d < 56 then (1, d - 48) else if d < 62 then (2, d - 56) else (3, d - 62)

/-- R482: a live view is for the PF of the port that owns the leased context. -/
def liveSeen (s : State) (rq : Requester) (p : Nat) : Bool :=
  match (ped2Of s p).lease, rq with
  | some l, .host fn => fn % 64 == 0 && (ctxSeen s rq l.ctx).isSome
  | _, _ => false

/-- The grain that sits at position g of ped-2 p. -/
def grainAt (s : State) (p g : Nat) : Option Grain :=
  ((List.range 250).find? (fun k => physId s (logicalId p k) == p * 256 + g)).bind (fun k => nmGet s.grains (logicalId p k))

/-- The page of a ped-2 in a C-die's window (R60, R64). -/
def ped2PageAt (s : State) (p a o : Nat) : RegVal :=
  let d := ped2Of s p
  let w := a / 8 * 8
  if o < 0x10 then
    reg32 a ((match nmGet d.slots (o / 4) with
      | some x => 2 ^ 26 + x.ctx * 65536 + x.size * 4096 + x.base * 256 + x.cache
      | none => 0) + rwpOf s a)
  else if 0x20 ≤ o && o < 0x40 then reg64 w ((d.wheels.getD ((o - 0x20) / 8) 0).toNat % 2 ^ 48 + rwpOf s w)
  else if o = 0x40 then reg32 a (b2n d.paired + rwpOf s a)
  else regNone a

/-- A die's window (R459, R482). -/
def dieAt (s : State) (rq : Requester) (a : Nat) : RegVal :=
  let d := (a - 0x1000000) / 0xC0000
  let o := (a - 0x1000000) % 0xC0000
  let w := a / 8 * 8
  let e := dieEntry s.boot.fact d
  if o < 8 then
    reg64 w ((kindDie d).1 * 2 ^ 52 + (kindDie d).2 * 2 ^ 46 + d * 2 ^ 40 +
      (if s.boot.fact.valid then e.fbin * 2 ^ 32 + e.vceil0 * 2 ^ 24 else 0) + rwpOf s w)
  else if o < 16 then reg64 w (if s.boot.fact.valid then e.lot.toNat else 0)
  else if 48 ≤ d then regNone a
  else if 0x8000 ≤ o && o < 0x9900 then ped2PageAt s (25 * d + (o - 0x8000) / 256) a (o % 256)
  else if 0x10000 ≤ o && o < 0x16400 then
    let p := 25 * d + (o - 0x10000) / 1024
    let i := o % 1024 / 8
    let x := ped2Of s p
    reg64 w (if !(liveSeen s rq p) then 0 else if i < 16 then (x.ctr.getD i 0).toNat else if i = 16 then x.latebar
      else if i = 17 then x.latemax else if i = 18 then x.refused else 0)
  else if o = 0x18000 then reg32 a (nmGetD s.reg.gsel d 0).toNat
  else
    let g := (nmGetD s.reg.gsel d 0).toNat
    let p := 25 * d + bits g 8 5
    let gr := if bits g 8 5 < 25 && liveSeen s rq p then grainAt s p (bits g 0 8) else none
    if 0x18008 ≤ o && o < 0x18048 then
      reg64 w (match gr with | some x => x.stall.getD ((o - 0x18008) / 8) 0 | none => 0)
    else if 0x20000 ≤ o && o < 0x20800 then
      tableWord (a / 32 * 32) a (match gr with | some x => x.samples.getD ((o - 0x20000) / 32) [] | none => [])
    else regNone a

/-- R458: the register that covers offset a of a PF's BAR0, with its present value. -/
def regAt (s : State) (rq : Requester) (a : Nat) : RegVal :=
  if a < 0x100000 then hubAt s rq a
  else if a < 0x200000 then schAt s rq a
  else if a < 0x400000 then ringAt s rq a
  else if a < 0x600000 then hznAt s a
  else if a < 0x800000 then lnkAt s a
  else if a < 0x900000 then errAt s rq a
  else if a < 0xA00000 then pwrAt s a
  else if a < 0xB00000 then secAt s a
  else if a < 0xC00000 then pmcAt s rq a
  else if a < 0xD00000 then cfgrecAt s a
  else if 0x1000000 ≤ a && a < 0x4000000 then dieAt s rq a
  else regNone a

/-- R301: where an offset of a VF's BAR0 lies in the map; none where nothing is assigned. DEDUCED (log 67). -/
def vfAddr (s : State) (fn off : Nat) : Option Nat :=
  if off < 0x100 then some (0x210000 + 256 * fn + off)
  else if 0x1000 ≤ off && off < 0x1200 then some (0x220000 + 512 * fn + (off - 0x1000))
  else if 0x2000 ≤ off && off < 0x3000 then
    match (fnOf s fn).slots.find? (fun e => e.1 == (off - 0x2000) / 256) with
    | none => none
    | some e =>
      let o := off % 256
      if o < 0x10 then some (0x200000 + 64 * e.2 + o)
      else if o < 0x20 then some (0x4000 + 16 * e.2 + (o - 0x10))
      else if o < 0x28 then some (0x40000 + 8 * e.2 + (o - 0x20))
      else if 0x40 ≤ o && o < 0x80 then some (0x30000 + 64 * e.2 + (o - 0x40))
      else none
  else if 0x4000 ≤ off && off < 0x4100 then some (0x308000 + (off - 0x4000))
  else if 0x8000 ≤ off && off < 0x10000 then some (0x300000 + (off - 0x8000))
  else none

/-- The offset of the map that a requester's access reaches. DEDUCED (log 67). -/
def mapAddr (s : State) (rq : Requester) (off : Nat) : Option Nat :=
  match rq with
  | .host fn => if fn % 64 = 0 then (if off < 0x4000000 then some off else none) else vfAddr s fn off
  | _ => if off < 0x4000000 then some off else none

/-! ## Reads (R451, R453, R456) -/

def shadowOf (s : State) (rq : Requester) : Option RegVal := (s.reg.shadow.find? (fun e => e.1 == rq)).map (·.2)

/-- The reader's shadow takes a register. DEDUCED (log 71). -/
def latch (rq : Requester) (x : RegVal) (s : State) : State :=
  { s with reg := { s.reg with shadow := s.reg.shadow.filter (fun e => e.1 != rq) ++ [(rq, x)] } }

/-- R451: one aligned word: byte 0 of a wide register latches it; a higher word comes from the shadow that holds it. -/
def readWord (rq : Requester) (a : Nat) (s : State) : List Byte × State :=
  let x := regAt s rq a
  if x.2.length ≤ 4 then (x.2, s)
  else if a = x.1 then (x.2.take 4, latch rq x s)
  else match shadowOf s rq with
    | some y => (slice (if y.1 = x.1 then y.2 else x.2) (a - x.1) 4, s)
    | none => (slice x.2 (a - x.1) 4, s)

/-- R464: an access that R453 refuses. -/
def badAccess (s : State) : State := { s with reg := { s.reg with badsize := satAdd 16 s.reg.badsize 1 } }

def sizeOk (off size : Nat) : Bool := (size == 4 || size == 8) && off % size == 0

def readWords (rq : Requester) (off : Nat) : Nat → State → List Byte × State
  | 0, s => ([], s)
  | n + 1, s =>
    let x := match mapAddr s rq off with
      | some a => readWord rq a s
      | none => (zeros 4, s)
    let y := readWords rq (off + 4) n x.2
    (x.1 ++ y.1, y.2)

/-- R323: a read of a BAR of a function whose Memory Space Enable is clear completes with Unsupported Request; one of a
function in reset is answered by nothing. -/
def doRegisterReadLatch (rq : Requester) (off size : Nat) (s : State) : State :=
  if rqOff s rq then (match rq with | .host fn => if fnOff s fn then s else emit (.unsupported rq 0 off) s | _ => s)
  else if !(sizeOk off size) then emit (.regRead rq off (List.replicate size 0xFF)) (badAccess s)
  else
    let x := readWords rq off (size / 4) s
    emit (.regRead rq off x.1) x.2

/-! ## Writes (R452-R456) -/

/-- A mask of bit fields, as high and low bit. -/
def fieldMask (l : List (Nat × Nat)) : W64 := BitVec.ofNat 64 (l.foldl (fun n e => n + (2 ^ (e.1 - e.2 + 1) - 1) * 2 ^ e.2) 0)

/-- The RWP bits of the registers all of whose other fields are RO. DEDUCED (log 68). -/
def roRwp (b : Nat) : W64 :=
  if 0x100000 ≤ b && b < 0x104000 then fieldMask [(35, 32)]
  else if 0x120000 ≤ b && b < 0x120410 then fieldMask [(47, 16)]
  else if 0x210000 ≤ b && b < 0x218000 then (if b % 256 = 0x20 then fieldMask [(63, 48)] else 0)
  else if 0x900100 ≤ b && b < 0x900280 then fieldMask [(15, 2)]
  else if 0x1000000 ≤ b then
    let o := (b - 0x1000000) % 0xC0000
    let c := (b - 0x1000000) / 0xC0000 < 48 && 0x8000 ≤ o && o < 0x9900
    if o = 0 then fieldMask [(63, 56), (23, 0)]
    else if c && o % 256 < 0x10 then fieldMask [(31, 27), (7, 3)]
    else if c && 0x20 ≤ o % 256 && o % 256 < 0x40 then fieldMask [(63, 48)]
    else if c && o % 256 = 0x40 then fieldMask [(31, 1)]
    else 0
  else match b with
    | 0x00 => fieldMask [(7, 0)]
    | 0x08 => fieldMask [(63, 48), (39, 34), (31, 25), (15, 3)]
    | 0x28 => fieldMask [(29, 7)]
    | 0x40 => fieldMask [(31, 30)]
    | 0x80 => fieldMask [(31, 24), (15, 10), (5, 4)]
    | 0x200 => fieldMask [(47, 46)]
    | 0x400000 => fieldMask [(15, 6)]
    | 0x800100 => fieldMask [(31, 0)]
    | 0x900000 => fieldMask [(47, 40), (35, 27), (15, 6)]
    | 0xA00000 => fieldMask [(31, 21), (15, 14), (11, 10), (3, 2)]
    | _ => 0

/-- R455: whether a requester reaches the register at b for a write. DEDUCED (log 67). -/
def regReached (s : State) (rq : Requester) (b : Nat) : Bool :=
  let ctx (n : Nat) : Bool := (ctxSeen s rq n).isSome
  let own (n : Nat) : Bool := (ctxMine s rq n).isSome
  if 0x4000 ≤ b && b < 0x8000 then own ((b - 0x4000) / 16)
  else if 0x40000 ≤ b && b < 0x42000 then own ((b - 0x40000) / 8)
  else if 0x100000 ≤ b && b < 0x104000 then ctx ((b - 0x100000) / 16)
  else if 0x120000 ≤ b && b < 0x120400 then portSeen rq ((b - 0x120000) / 512)
  else if 0x120400 ≤ b && b < 0x120410 then portSeen rq ((b - 0x120400) / 8)
  else if 0x200000 ≤ b && b < 0x210000 then own ((b - 0x200000) / 64)
  else if 0x210000 ≤ b && b < 0x218000 then portSeen rq ((b - 0x210000) / 16384)
  else if 0xB30000 ≤ b && b < 0xB34000 then ctx ((b - 0xB30000) / 16)
  else true

/-- FN_CTL's RWP bits: [63:27] and [15:2]. -/
def fnCtlRwp : W64 := fieldMask [(63, 27), (15, 2)]

/-- FN_CTL: AVEC while AEN is 0, then AEN. -/
def putFnCtl (f : Nat) (val : W64) (s : State) : State :=
  let old := (fnOf s f).ctl
  let avec : W64 := if old.getLsbD 0 then old &&& 0x7FF0000 else val &&& 0x7FF0000
  let s := noteRwp ((val ^^^ old) &&& fnCtlRwp != 0)
    (updFn f (fun x => { x with ctl := (old &&& 1) ||| avec ||| (val &&& fnCtlRwp) }) s)
  if val.getLsbD 0 then doAdminRingEnable f s else doAdminRingDisable f s

/-- A register of a function page. Writes of FN_ASQ and FN_ACQ are ignored while AEN is 1 (R303). -/
def putPage (f o : Nat) (val : W64) (s : State) : State :=
  let x := fnOf s f
  if fnOff s f then s
  else match o with
    | 0x00 => if x.ctl.getLsbD 0 then s
        else noteRwp ((val ^^^ x.asq) &&& 0xFF0 != 0) (updFn f (fun x => { x with asq := val }) s)
    | 0x08 => if x.ctl.getLsbD 0 then s
        else noteRwp ((val ^^^ x.acq) &&& 0xFF0 != 0) (updFn f (fun x => { x with acq := val }) s)
    | 0x10 => putFnCtl f val s
    | 0x18 => doAdminDoorbell f val s   -- a whole aligned write, see writeAt
    | 0x28 => doFnAperWrite f val s
    | _ => s

/-- HUB_ACCERR: RWPT is W1C. -/
def putAccerr (rq : Requester) (val : W64) (s : State) : State :=
  if !(pfOrAbove rq) then s
  else rwpWrite 0x30 0xFFFFFFFE val { s with reg := { s.reg with rwpt := s.reg.rwpt && !(val.getLsbD 0) } }

/-- LNK_CTL (R294): an RTO of 0 is read as 1. -/
def putLnkCtl (rq : Requester) (val : W64) (s : State) : State :=
  if !(pfOrAbove rq) then s
  else
    let moved := (val ^^^ s.fab.ctl) &&& 0xFFFFFFFF00000000
    let v := if val &&& 0xFFFFFFFF = 0 then val ||| 1 else val
    noteRwp (moved != 0) (updFab (fun b => { b with ctl := v }) s)

/-- DIE_GSEL (R482). -/
def putGsel (rq : Requester) (d : Nat) (val : W32) (s : State) : State :=
  if !(pfOrAbove rq) then s
  else
    let moved := (val ^^^ nmGetD s.reg.gsel d 0) &&& 0xFFFFE000
    noteRwp (moved != 0) { s with reg := { s.reg with gsel := nmSet d val s.reg.gsel } }

/-- A word of the MSI-X table; a vector that is unmasked sends its pending message (R322). PRESUMED (log 66). -/
def putMsix (fn v lane : Nat) (val : W32) (s : State) : State :=
  let old := msixEnt (fnOf s fn) v
  let m : BitVec 128 := BitVec.ofNat 128 (0xFFFFFFFF * 2 ^ (32 * lane))
  let new := (old &&& ~~~m) ||| BitVec.ofNat 128 (val.toNat * 2 ^ (32 * lane))
  flushPba fn (updFn fn (fun f => { f with msix := nmSet v new f.msix }) s)

/-- Four entries of the route table, from entry k on. -/
def putRoutes (rq : Requester) (k : Nat) (val : W64) (s : State) : State :=
  (List.range 4).foldl (fun s i => doLnkRouteWrite rq (k + i) (BitVec.ofNat 8 (bits val.toNat (8 * i) 8)) s) s

/-- R294: the registers of the LNK block. -/
def putLnk (rq : Requester) (b : Nat) (val : W64) (s : State) : State :=
  if 0x600100 ≤ b && b < 0x600300 then doLnkPortEnable rq ((b - 0x600100) / 8) val s
  else if 0x610000 ≤ b && b < 0x614000 then
    putRoutes rq (b - 0x610000) val s
  else if b = 0x600000 then doLnkTorusWrite rq (val.setWidth 32) s
  else if b = 0x600008 then putLnkCtl rq val s
  else if b = 0x600010 then doLnkCreditWrite rq val s
  else s

/-- R387: ERR_RING of either ring, ERR_FATAL and ERR_TILTH_W. -/
def putErr (rq : Requester) (b : Nat) (val : W64) (s : State) : State :=
  match b with
  | 0x800000 => doErrRingTailWrite rq val s
  | 0x800008 => doErrFatalClear rq val s
  | 0x800108 => doErrTilthWWrite rq val s
  | 0x880000 => match rq with | .mgmt => tailWrite 1 val s | _ => s
  | _ => s

/-- A register takes a whole value: a 64-bit register, or a word of anything narrower. -/
def putReg (rq : Requester) (b : Nat) (val : W64) (s : State) : State :=
  if !(regReached s rq b) then s
  else if roRwp b != 0 then rwpWrite b (roRwp b) val s
  else if b = 0x30 then putAccerr rq val s
  else if 0x4000 ≤ b && b < 0x8000 then
    if b % 16 = 0 then doHubNumctlWrite rq ((b - 0x4000) / 16) val s else doHubNumringWrite rq ((b - 0x4000) / 16) val s
  else if 0x40000 ≤ b && b < 0x42000 then doHubSpecWrite rq ((b - 0x40000) / 8) val s
  else if 0x200000 ≤ b && b < 0x210000 then
    if b % 64 = 0 then doRingTableWrite rq ((b - 0x200000) / 64) val s else s
  else if 0x210000 ≤ b && b < 0x218000 then putPage ((b - 0x210000) / 256) (b % 256) val s
  else if 0x300000 ≤ b && b < 0x308000 then
    match rq with
    | .host fn => putMsix fn ((b - 0x300000) / 16) (b % 16 / 4) (val.setWidth 32) s
    | _ => s
  else if 0x600000 ≤ b && b < 0x800000 then putLnk rq b val s
  else if 0x800000 ≤ b && b < 0x900000 then putErr rq b val s
  else if b = 0x900008 then doPwrCtlWrite rq (val.setWidth 32) s
  else if b = 0x900040 then doPwrBallastWrite rq (val.setWidth 32) s
  else if 0xB30000 ≤ b && b < 0xB34000 then
    if b % 16 = 0 then doPmcSmpTailWrite rq ((b - 0xB30000) / 16) (val.setWidth 32) s else s
  else if 0x1000000 ≤ b && (b - 0x1000000) % 0xC0000 = 0x18000 && (b - 0x1000000) / 0xC0000 < 48 then
    putGsel rq ((b - 0x1000000) / 0xC0000) (val.setWidth 32) s
  else s

/-- The W1C bits of a 64-bit register's low word (R452). -/
def w1cLow (b : Nat) : W64 :=
  if b = 0x800008 then 0xFFFFFFFF
  else if b = 0x30 then 1
  else if 0x4000 ≤ b && b < 0x8000 && b % 16 = 0 then 0x7F00
  else 0

/-- The guarded register whose A or B address is a, and whether it is the B address. -/
def gAddr (a : Nat) : Option (GReg × Bool) :=
  ([GReg.pkgrst, .pwrLimit, .pwrClkctl, .secAlarm, .secErase, .secSlot, .secTest, .secScrub].flatMap
    (fun g => [(gRegA g, g, false), (gRegB g, g, true)])).find? (fun e => e.1 == a) |>.map (·.2)

/-- A write that held no low word for register b is forgotten by writer rq (R452). -/
def keepHeld (rq : Requester) (b : Nat) (s : State) : State :=
  { s with reg := { s.reg with wshadow := s.reg.wshadow.filter (fun e => e.1 != rq || e.2.1 == b) } }

/-- One word of a write at map offset a (R452). DEDUCED (log 68). -/
def writeWord (rq : Requester) (a : Nat) (v : W32) (s : State) : State :=
  let x := regAt s rq a
  let s := keepHeld rq x.1 s
  if x.2.length ≠ 8 then (if x.2.length = 4 then putReg rq a (v.setWidth 64) s else s)
  else if a = x.1 then
    let s := dropHeld rq s
    { s with reg := { s.reg with wshadow := s.reg.wshadow ++ [(rq, x.1, v)] } }
  else
    let low : W64 := match s.reg.wshadow.find? (fun e => e.1 == rq && e.2.1 == x.1) with
      | some e => e.2.2.setWidth 64
      | none => BitVec.ofNat 64 (u32 x.2 0) &&& ~~~(w1cLow x.1)
    putReg rq x.1 (BitVec.ofNat 64 (v.toNat * 2 ^ 32) ||| low) (dropHeld rq s)

/-- R307: FN_ADB takes aligned 8-byte writes alone. -/
def isAdb (a : Nat) : Bool := 0x210000 ≤ a && a < 0x218000 && a % 256 / 8 == 3

/-- A write of 4 or 8 bytes at map offset a. -/
def writeAt (rq : Requester) (a size : Nat) (val : W64) (s : State) : State :=
  let x := regAt s rq a
  let hi : W32 := BitVec.ofNat 32 (val.toNat / 2 ^ 32)
  if isAdb a && size ≠ 8 then dropHeld rq s
  else if size = 8 && x.1 = a && x.2.length = 8 then putReg rq a val (dropHeld rq s)
  else if size = 8 then writeWord rq (a + 4) hi (writeWord rq a (val.setWidth 32) s)
  else writeWord rq a (val.setWidth 32) s

/-- A write at a guarded address (R448, R449). DEDUCED (log 74). -/
def writeGuarded (rq : Requester) (g : GReg) (isB : Bool) (size : Nat) (val : W64) (s : State) : State :=
  let off := if isB then gRegB g else gRegA g
  let v : W32 := val.setWidth 32
  let s := dropHeld rq s
  if !(gMay rq g) then guardFail rq 5 off v s
  else if size ≠ 4 then guardFail rq 7 off v s
  else if isB then guardB rq g v s else guardA rq g v s

/-- Read from the spec by inference: DEDUCED (log 68). -/
def doRegisterWrite (rq : Requester) (off size : Nat) (val : W64) (s : State) : State :=
  if rqOff s rq then s
  else
    let s := if sizeOk off size then s else badAccess s
    match mapAddr s rq off with
    | none => s
    | some a =>
      match gAddr (a / 4 * 4) with
      | some g => if size = 4 && off % 4 ≠ 0 then s else writeGuarded rq g.1 g.2 size val s
      | none => if sizeOk off size then writeAt rq a size val s else s

def execHubPkgrstPair (rq : Requester) (vb : W32) (s : State) : Host.Outcome State Fault Refusal :=
  .next (doGuardedPair .pkgrst rq vb s)
def execGuardedWriteA (rq : Requester) (reg : GReg) (va : W32) (s : State) : Host.Outcome State Fault Refusal :=
  .next (doGuardedWriteA rq reg va s)
def execGuardedWindowExpire (rq : Requester) (reg : GReg) (s : State) : Host.Outcome State Fault Refusal :=
  .next (doGuardedWindowExpire rq reg s)
def execPwrLimitPair (rq : Requester) (vb : W32) (s : State) : Host.Outcome State Fault Refusal :=
  .next (doGuardedPair .pwrLimit rq vb s)
def execPwrClkctlPair (rq : Requester) (vb : W32) (s : State) : Host.Outcome State Fault Refusal :=
  .next (doGuardedPair .pwrClkctl rq vb s)
def execSecAlarmPair (rq : Requester) (vb : W32) (s : State) : Host.Outcome State Fault Refusal :=
  .next (doGuardedPair .secAlarm rq vb s)
/-- SEC_ALARM_CLEAR: the B write of a pair of SEC_ALARM whose value has CLEAR set. -/
def execSecAlarmClear (rq : Requester) (vb : W32) (s : State) : Host.Outcome State Fault Refusal :=
  .next (doGuardedPair .secAlarm rq vb s)
def execSecEraseVolatile (rq : Requester) (vb : W32) (s : State) : Host.Outcome State Fault Refusal :=
  .next (doGuardedPair .secErase rq vb s)
/-- SEC_ERASE_HELPER: the B write of a pair of SEC_ERASE whose value names level 2. -/
def execSecEraseHelper (rq : Requester) (vb : W32) (s : State) : Host.Outcome State Fault Refusal :=
  .next (doGuardedPair .secErase rq vb s)
def execSecSlotPair (rq : Requester) (vb : W32) (s : State) : Host.Outcome State Fault Refusal :=
  .next (doGuardedPair .secSlot rq vb s)
def execSecTestPair (rq : Requester) (vb : W32) (s : State) : Host.Outcome State Fault Refusal :=
  .next (doGuardedPair .secTest rq vb s)
def execSecScrubPair (rq : Requester) (vb : W32) (s : State) : Host.Outcome State Fault Refusal :=
  .next (doGuardedPair .secScrub rq vb s)
def execHubNumctlWrite (rq : Requester) (ctx : Nat) (val : W64) (s : State) : Host.Outcome State Fault Refusal :=
  .next (onBar rq (doHubNumctlWrite rq ctx val) s)
def execHubNumringWrite (rq : Requester) (ctx : Nat) (val : W64) (s : State) : Host.Outcome State Fault Refusal :=
  .next (onBar rq (doHubNumringWrite rq ctx val) s)
def execHubSpecWrite (rq : Requester) (ctx : Nat) (val : W64) (s : State) : Host.Outcome State Fault Refusal :=
  .next (onBar rq (doHubSpecWrite rq ctx val) s)
def execErrTilthWWrite (rq : Requester) (val : W64) (s : State) : Host.Outcome State Fault Refusal :=
  .next (onBar rq (doErrTilthWWrite rq val) s)
def execPmcSmpTailWrite (rq : Requester) (ctx : Nat) (val : W32) (s : State) : Host.Outcome State Fault Refusal :=
  .next (onBar rq (doPmcSmpTailWrite rq ctx val) s)
def execRegisterWrite (rq : Requester) (off size : Nat) (val : W64) (s : State) : Host.Outcome State Fault Refusal :=
  .next (doRegisterWrite rq off size val s)
def execRegisterReadLatch (rq : Requester) (off size : Nat) (s : State) : Host.Outcome State Fault Refusal :=
  .next (doRegisterReadLatch rq off size s)

end Sys2Proof.Machine
end

