-- ==== Sys2Proof/Machine/Dump.lean ====
section
/-! DEFINITION. Fatal errors and their dump (R388-R390), and the failure of firmware (R318, R383). -/

namespace Sys2Proof.Machine

open Sys2Proof

/-! ## The sections of a dump (R390) -/

/-- The sections of a port's dump, in order: type and context. DESIGN CHOICE (log 56). -/
def dumpSections (p : Nat) (lstore : Bool) (s : State) : List (Nat × Nat) :=
  let cs := (s.ctxs.filter (fun e => e.2.owner / 64 == p && e.2.st != .killing)).map (·.1)
  [(1, 0xFFFF), (2, 0xFFFF), (3, 0xFFFF), (4, 0xFFFF)] ++ cs.map (fun c => (0x10, c)) ++ cs.map (fun c => (0x11, c)) ++
    (if lstore then cs.map (fun c => (0x12, c)) else [])

/-- n aligned 8-byte words of the register map from `a` on, as firmware reads them. -/
def mapWords (s : State) (a n : Nat) : List Byte :=
  (List.range n).flatMap (fun i =>
    let x := regAt s .firmware (a + 8 * i)
    pad 8 (slice x.2 (a + 8 * i - x.1) 8))

/-- TYPE 0x01: both rings, the fatal slots, and each ring's coalescing table with its counts. -/
def dumpErr (s : State) : List Byte :=
  let ring (r : ErrRing) : List Byte := (List.range 4096).flatMap (fun i => pad 64 (nmGetD r.recs i []))
  let coal (r : ErrRing) : List Byte := (List.range 32).flatMap (fun c =>
    let x := nmGetD r.coal c { first := [], last := [], count := 0, active := false }
    pad 64 x.first ++ pad 64 x.last ++ leBytes 8 x.count.toNat)
  ring s.err.ring0 ++ ring s.err.ring1 ++ (List.range 64).flatMap (fun i => pad 64 (nmGetD s.err.slots i [])) ++
    coal s.err.ring0 ++ coal s.err.ring1

/-- TYPE 0x02: the configuration record's two parts, HUB_EMAP and HUB_GRAINS. -/
def dumpMap (s : State) : List Byte :=
  factBytes s.boot.fact ++ fieldBytes s.boot.field ++ mapWords s 0x10000 9600 ++ mapWords s 0x40 1

/-- TYPE 0x03: the HUB, HZN, LNK, PWR and ERR registers, and the inputs of the present tilth period. -/
def dumpRegs (s : State) : List Byte :=
  [0x0, 0x8, 0x10, 0x20, 0x28, 0x30, 0x40, 0x80, 0x100, 0x200, 0x400000, 0x600000, 0x600008, 0x600010].flatMap
      (fun a => mapWords s a 1) ++
    mapWords s 0x600100 64 ++ [0x900000, 0x900008, 0x900010, 0x900020, 0x900040, 0x900050, 0x900058].flatMap
      (fun a => mapWords s a 1) ++
    mapWords s 0x900060 2 ++ mapWords s 0x900100 48 ++ [0x800000, 0x800008, 0x800100, 0x800108, 0x880000].flatMap
      (fun a => mapWords s a 1) ++
    leBytes 8 s.err.cCe ++ leBytes 8 s.err.cLr ++ leBytes 8 s.err.cAf ++ leBytes 8 s.err.cTh

/-- The threads of the ped-2s that are leased to a context: grain, thread, state (R39) and descriptor address (R493). -/
def dumpThreads (s : State) (c : Ctx) : List Byte :=
  (s.grains.filter (fun e => leasedTo s c.num e.2.ped2)).flatMap (fun e => e.2.thr.flatMap (fun t =>
    let st := match segOf s c.num with
      | some r => (match r.d.progs.find? (fun x => x.ped2 == e.2.ped2) with
          | some x => stateOf s r x e.1 e.2 t.1 t.2
          | none => t.2.st)
      | none => t.2.st
    let a : W64 := match t.2.stream with | some y => descAddr s c.num y t.2.pos | none => 0
    leBytes 4 e.1 ++ leBytes 1 t.1 ++ leBytes 1 (tstCode st) ++ zeros 2 ++ leBytes 8 a.toNat))

/-- TYPE 0x10. -/
def dumpCtx (s : State) (c : Ctx) : List Byte :=
  mapWords s (0x100000 + 16 * c.num) 1 ++ mapWords s (0x110000 + 64 * c.num) 8 ++ mapWords s (0x200008 + 64 * c.num) 1 ++
    c.plans.flatMap (fun p => leBytes 4 p.id) ++ dumpThreads s c ++
    (s.clods.filter (fun x => x.ctx == c.num)).flatMap (fun x => leBytes 4 x.ped.toNat ++ leBytes 2 x.cid ++ leBytes 2 x.t) ++
    leBytes 8 (if c.sec.gen0.valid then c.sec.gen0.step.toNat else 2 ^ 64 - 1) ++
    leBytes 8 (if c.sec.gen1.valid then c.sec.gen1.step.toNat else 2 ^ 64 - 1)

/-- TYPE 0x11. -/
def dumpNum (s : State) (c : Ctx) : List Byte :=
  mapWords s (0x30000 + 64 * c.num) 8 ++ mapWords s (0x40000 + 8 * c.num) 1 ++ mapWords s (0x4000 + 16 * c.num) 2

/-- TYPE 0x12: the scratchpad of every grain of each ped-2 where the context is resident. -/
def dumpStores (s : State) (c : Ctx) : List Byte :=
  (s.ped2s.map (·.1)).flatMap (fun p => match lsPartOf s p c.num with
    | none => []
    | some x => (List.range 250).flatMap (fun k =>
        memRead (physOf s (physId s (logicalId p k))).ls (x.base * 16384) (scratchOf x)))

/-- The content of a section. The spec names what each one holds and gives it no layout: the items stand in the order of
the table. What the Horica event log (TYPE 0x04) holds is not stated: its bytes and its length, up to `size`, are free
values. DESIGN CHOICE (log 56). -/
def dumpContent (size ty ctx : Nat) (s : State) : List Byte × State :=
  if ty = 1 then (dumpErr s, s)
  else if ty = 2 then (dumpMap s, s)
  else if ty = 3 then (dumpRegs s, s)
  else match ctxOf s ctx with
    | some c => (if ty = 0x10 then dumpCtx s c else if ty = 0x11 then dumpNum s c else dumpStores s c, s)
    | none =>
      let n := freeBelow (size + 1) s
      let v := freeBits (8 * n.1) n.2
      (leBytes n.1 v.1.toNat, v.2)

/-- The sections one after the other from `off` until the buffer is full: their entries and bytes, and whether one was
cut. DESIGN CHOICE (log 56). -/
def dumpFill (size : Nat) : List (Nat × Nat) → Nat → State → (List (List Byte) × List Byte × Bool) × State
  | [], _, s => (([], [], false), s)
  | (ty, c) :: r, off, s =>
    if size ≤ off then (([], [], true), s)
    else
      let v := dumpContent size ty c s
      let b := v.1.take (size - off)
      let e := leBytes 2 ty ++ leBytes 2 c ++ zeros 4 ++ leBytes 8 off ++ leBytes 8 b.length ++ leBytes 8 (crc64 b).toNat
      if b.length < v.1.length then (([e], b, true), v.2)
      else
        let x := dumpFill size r (off + b.length) v.2
        ((e :: x.1.1, b ++ x.1.2.1, x.1.2.2), x.2)

/-- R390: one port's dump, or the note of the fatal slot that it writes none (R388). DESIGN CHOICE (log 56). -/
def dumpPort (slot p : Nat) (s : State) : State :=
  let q := portOf s p
  let none_ := { s with err := { s.err with noDump := addOnce (slot, p) s.err.noDump } }
  match q.dump with
  | some d =>
    if !d.en || !q.linkUp || q.inReset || p ∈ s.err.barred then none_
    else
      let secs := dumpSections p d.lstore s
      let start := max 4096 (32 + 32 * secs.length)
      let x := dumpFill d.size secs start s
      let head := leBytes 4 0x504D5544 ++ leBytes 2 1 ++ leBytes 2 x.1.1.length ++ leBytes 8 s.clk.pcc.toNat ++
        leBytes 8 s.clk.rtc.toNat ++ leBytes 1 slot ++ leBytes 1 s.err.stopCls ++ leBytes 1 (b2n x.1.2.2 + 2) ++ zeros 5
      hostWrite p d.bus.toNat (pad start (head ++ x.1.1.flatten) ++ x.1.2.1) x.2
  | none => none_

/-! ## Fatal errors (R388) -/

/-- R318, R383: firmware fails. The record's code is not stated: a free value; the oldest command that has begun ends
with INTERNAL and an undefined result. DESIGN CHOICE (log 115). -/
def fwFails (s : State) : State :=
  let k := s.cmds.find? (fun k => k.started && k.done.isNone)
  let code := freeBits 32 s
  let s := postRec 0x1B 3 none 0xFF 0xFFFFFFFF
    [(0, 4, code.1.toNat), (4, 2, match k with | some k => k.opcode | none => 0)] code.2
  match k with
  | some k =>
    let r := freeBits 128 s
    finish k.cid stINTERNAL (leBytes 16 r.1.toNat) r.2
  | none => s

/-- FATAL_ERROR: every thread of every context stops, clods and speculative buffers are discarded, and the dumps are
written; from then on the package waits for a package reset. With no fatal record written yet, it is the failure of
firmware, which has no row of its own (log 115). -/
def doFatalError (s : State) : State :=
  let s := if s.err.stopped.isNone && s.clk.mainEn then fwFails s else s
  match s.err.stopped with
  | none => s
  | some slot =>
    if s.err.dumped then s
    else
      let s := (s.segs.map (·.ctx)).foldl (fun s c => stopSeg c .fatal stSTEP_LOST s) s
      let s := dumpPort slot 1 (dumpPort slot 0 s)
      { s with err := { s.err with dumped := true } }

def execFatalError (s : State) : Host.Outcome State Fault Refusal := .next (doFatalError s)

end Sys2Proof.Machine
end

