-- ==== Sys2Proof/Machine/Plans.lean ====
section
/-! DEFINITION. Plan images (R160, R161, R188, R496): reading and checking one, PLAN_LOAD and PLAN_UNLOAD, and the
commands SEG_RUN and SEG_FENCE (R210, R317). A reader of the image answers none where a condition of R188 fails. -/

namespace Sys2Proof.Machine

open Sys2Proof

def mapAll {α β : Type} (f : α → Option β) : List α → Option (List β)
  | [] => some []
  | x :: r => match f x with
    | none => none
    | some y => (mapAll f r).map (y :: ·)

/-- The value, where the condition holds. -/
def ensure {α : Type} (c : Bool) (x : Option α) : Option α := if c then x else none

/-- R160: the offsets of a table's entries: 64-byte aligned and within SIZE. A table that has entries may not begin
within the header: an offset of 0 with a nonzero count is refused, on which the spec is silent.
DESIGN CHOICE (log 107). -/
def tableAt (b : List Byte) (off n es : Nat) : Option (List Nat) :=
  if n = 0 then some []
  else if off < 64 || off % 64 ≠ 0 || b.length < off + n * es then none
  else some ((List.range n).map (fun i => off + es * i))

/-! ## Logical peds (R33, R34, R32) -/

/-- R32: a physical ped as a plan image may name it: every ped-2 of it, those out of service too. -/
def laxPhys (s : State) (a : Nat) : Option PedSet :=
  let kind := bits a 28 4
  let all (l : List Nat) : Option PedSet := some (l.map (fun q => (q, none)))
  match physPed s a with
  | .error .reserved => none
  | p =>
    if kind = 3 then (if bits a 22 6 ≤ 47 then all ((List.range 25).map (fun i => bits a 22 6 * 25 + i)) else none)
    else if kind = 4 then all ((quadDies (bits a 22 2)).flatMap (fun d => (List.range 25).map (fun i => d * 25 + i)))
    else if kind = 5 then all (List.range ped2Count)
    else match p with
    | .ok l => some l
    | .error _ =>
    let q := bits a 22 6 * 25 + bits a 17 5
    let real := bits a 22 6 ≤ 47 && bits a 17 5 ≤ 24 && !(ped2InService s q)
    if kind = 0 && real then some [(q, some (if nmGetD s.emap.cold q 0 = 0 then [bits a 9 8]
      else ranksAt s q (fun x => x == bits a 9 8)))]
    else if kind = 1 && real then some [(q, some (if nmGetD s.emap.cold q 0 = 0 then
        (List.range 16).map (fun i => bits a 13 4 * 16 + i)
      else ranksAt s q (fun x => x / 16 == bits a 13 4)))]
    else if kind = 2 && real then some [(q, none)]
    else if kind = 9 && bits a 0 19 < 300000 then some [(logicalPed2 (bits a 0 19), some [logicalRank (bits a 0 19)])]
    else none

/-- A ped as a plan image names it, over the logical peds resolved so far. -/
def laxPed (s : State) (known : List (Nat × PedSet)) (a : Nat) : Option PedSet :=
  if bits a 28 4 = 8 then
    if bits a 16 12 ≠ 0 then none else (known.find? (fun e => e.1 == bits a 0 16)).map (·.2)
  else laxPhys s a

/-- How many grains two sets share. -/
def pedSetMeet (a b : PedSet) : Nat :=
  sumNat (a.map (fun e => match b.find? (fun x => x.1 == e.1) with
    | none => 0
    | some x => match e.2, x.2 with
      | none, none => 250
      | none, some r => r.length
      | some r, none => r.length
      | some r, some q => (r.filter (fun k => decide (k ∈ q))).length))

/-- R34: disjoint, or one inside the other. -/
def nested (a b : PedSet) : Bool :=
  let m := pedSetMeet a b
  m == 0 || m == pedSetCount a || m == pedSetCount b

/-- R34: the members of a logical ped joined; none where two meet. -/
def joinAll : List PedSet → Option PedSet
  | [] => some []
  | x :: r => match joinAll r with
    | none => none
    | some y => if pedSetMeet x y = 0 then some (pedSetJoin x y) else none

/-- R33: the sets of a ped table's logical peds, each over those before it. -/
def laxTable (s : State) : List (Nat × List W32) → List (Nat × PedSet) → Option (List (Nat × PedSet))
  | [], acc => some acc
  | e :: r, acc =>
    if acc.any (fun x => x.1 == e.1) then none
    else match (mapAll (fun (m : W32) => laxPed s acc m.toNat) e.2).bind joinAll with
      | none => none
      | some l => laxTable s r (acc ++ [(e.1, l)])

/-- The logical peds of the plans that a context holds. -/
def ctxPeds (c : Ctx) : List (Nat × List W32) :=
  c.plans.foldl (fun l p => p.peds.foldl (fun l e => if l.any (fun x => x.1 == e.1) then l else l ++ [e]) l) []

/-- The ped table of an image, and every logical ped that the context then has. DEDUCED (log 78). -/
def readPeds (s : State) (c : Ctx) (b : List Byte) : Option (List (Nat × List W32) × List (Nat × PedSet)) :=
  let one (e : Nat) : Option (Nat × List W32) :=
    let n := u16 b (e + 2)
    if n = 0 then none
    else (tableAt b (u32 b (e + 4)) n 4).map (fun l => (u16 b e, l.map (fun o => BitVec.ofNat 32 (u32 b o))))
  match (tableAt b (u32 b 8) (u32 b 12) 8).bind (mapAll one) with
  | none => none
  | some own =>
    let old := ctxPeds c
    if own.any (fun e => old.any (fun x => x.1 == e.1 && x.2 != e.2)) then none
    else match laxTable s own [] with
      | none => none
      | some sets =>
        let before := c.plans.foldl (fun l p => match laxTable s p.peds [] with
          | some t => t.foldl (fun l e => if l.any (fun x => x.1 == e.1) then l else l ++ [e]) l
          | none => l) ([] : List (Nat × PedSet))
        let all := sets ++ before.filter (fun e => !(sets.any (fun x => x.1 == e.1)))
        if sets.all (fun a => all.all (fun z => nested a.2 z.2)) then some (own, all) else none

/-! ## The scale table (R117) -/

def readScale (b : List Byte) (e : Nat) : Option (Nat × ScaleEnt) :=
  let r := slice b (e + 8) 128
  let sc := u32 r 0
  let hist := (List.range 16).map (fun i => u32 r (16 + 4 * i))
  let pol := u8 r 98
  let fmt := bits (u8 r 100) 0 4
  let allow := bits (u8 r 100) 4 4
  let bad := 0xFFFF < u32 b e || u32 b (e + 4) ≠ 0 || sc < 0x00800000 || 0x7F800000 ≤ sc || u32 r 4 ≠ 0 ||
    u32 r 8 ≠ 0 || u32 r 12 ≠ 0 || hist.any (fun a => 0x7F800000 ≤ a) || 15 < u8 r 96 || 16 < u8 r 97 || 2 < pol ||
    15 < u8 r 99 || 10 < fmt || 7 < allow || (pol = 2 && !(decide (fmt ∈ allowed allow))) || !(allZero (slice r 104 24))
  if bad then none
  else some (u32 b e,
    { scale := BitVec.ofNat 32 sc, amaxCur := 0, nzCur := 0, ufCur := 0, amaxHist := hist.map (BitVec.ofNat 32 ·)
      ufrHist := (List.range 16).map (fun i => u8 r (80 + i)), head := u8 r 96, histN := u8 r 97, policy := pol
      margin := u8 r 99, cfmt := fmt, allow := allow, tUp := u8 r 101, tDown := u8 r 102, since := u8 r 103 })

def noRepeat : List Nat → Bool
  | [] => true
  | x :: r => !(decide (x ∈ r)) && noRepeat r

/-- Read from the spec by inference: DEDUCED (log 79). -/
def readScales (b : List Byte) : Option (NatMap ScaleEnt) :=
  match (tableAt b (u32 b 16) (u32 b 20) 136).bind (mapAll (readScale b)) with
  | none => none
  | some l => if noRepeat (l.map (·.1)) then some (l.foldl (fun (m : NatMap ScaleEnt) e => nmSet e.1 e.2 m) []) else none

/-! ## Streams: the conditions of R496 -/

/-- Where a scan of a stream stands: a DEADLINE that waits for its fetch, and a task (1), its SPEC_RESOLVE (2), or an
alternative (3) with the descriptors left. -/
structure ScanSt where
  guard : Bool
  mode : Nat
  left : Nat
  used : List Nat
  ended : Bool
  deriving DecidableEq, Repr

/-- One descriptor; none where a condition of R496 fails. A reserved opcode or END ends the scan. -/
def scanOne (views : List View) (length nbar : Nat) (regrow : Bool) (x : ScanSt) (d : List Byte) : Option ScanSt :=
  let op := dOp d
  let v (i : Nat) : View := views.getD i View.blank
  if x.guard && (!(op ∈ [0x10, 0x13, 0x14]) || dAtom d) then none
  else if (x.mode = 1 && !(taskOk op)) || (x.mode = 2 && op != 0x2D) || (x.mode = 3 && altBad op) ||
      (op == 0x2D && x.mode != 2) then none
  else if (engineOf op).isNone then some { x with ended := true }
  else if length ≤ dNotBefore d || (regrow && regrowBad op) || (op == 0x20 && nbar ≤ u16 d 10) then none
  else if op == 0x24 && length ≤ u24 d 10 + u24 d 13 + u24 d 16 then none
  else if (op == 0x01 && nvec (v (dVA d)) == 1) || (op == 0x02 && u16 d 18 * u16 d 20 == 1) ||
      (op == 0x03 && (v (dVD d)).sz0 == 1) then none
  else if op == 0x2C && (u16 d 10 = 0 || 4095 < u16 d 10) then none
  else
    let ml : Nat × Nat :=
      if op == 0x2C then (1, u16 d 10)
      else if op == 0x2D then (if u16 d 10 = 0 then (0, 0) else (3, u16 d 10))
      else if x.mode = 1 then (if x.left ≤ 1 then (2, 0) else (1, x.left - 1))
      else if x.mode = 3 then (if x.left ≤ 1 then (0, 0) else (3, x.left - 1))
      else (0, 0)
    some { guard := op == 0x24, mode := ml.1, left := ml.2, used := addOnce op x.used, ended := op == 0x3F }

def scanAll (views : List View) (length nbar : Nat) (regrow : Bool) (s : State) (o : Obj) :
    Nat → Nat → ScanSt → Option ScanSt
  | 0, _, x => if x.guard || x.mode != 0 then none else some x
  | n + 1, off, x =>
    match scanOne views length nbar regrow x (objRead s o off 32) with
    | none => none
    | some y => if y.ended then some y else scanAll views length nbar regrow s o n (off + 32) y

/-! ## Programs (R161) -/

def wheelWord (codes : List Nat) : W64 :=
  BitVec.ofNat 64 (codes.foldr (fun c n => c + 8 * n) 0)

/-- R65: the default wheels, with the codes of R63. -/
def defaultWheel (i : Nat) : W64 :=
  if i = 0 then wheelWord [1, 3, 1, 4, 1, 3, 1, 5, 1, 3, 1, 4, 1, 3, 1, 6]
  else if i = 1 then wheelWord [2, 2, 2, 3, 2, 2, 2, 4, 2, 2, 2, 3, 2, 2, 2, 6]
  else wheelWord [3, 5, 3, 4, 3, 5, 3, 4, 3, 5, 3, 4, 3, 5, 3, 6]

/-- R66: no reserved code, bits [63:48] clear, and an SCB slot. -/
def wheelOk (w : W64) : Bool := w.toNat < 2 ^ 48 && !(wheelHas [w] 7) && wheelHas [w] 6

/-- R140, R141: a mask entry. -/
def readMask (b : List Byte) (e : Nat) : Option (MaskEnt × Nat) :=
  let n := u32 b (e + 8)
  let len := ceilDiv n 8
  if b.length < e + 16 || 1 < u8 b e || !(allZero (slice b (e + 1) 3)) || n = 0 || 8192 < n ||
      !(allZero (slice b (e + 12) 4)) || b.length < e + 16 + len then none
  else some ({ block := u8 b e = 1, rbase := u32 b (e + 4), nbits := n, bits := slice b (e + 16) len }, 16 + len)

/-- The mask table of a program (R140, R161). An entry whose offset is 0 is absent, as no entry can lie in the header;
toward the 32 KiB count the 16 header bytes and the bitmap of each index, an entry that two indices share once for each,
and neither the offsets nor padding. The spec states neither. DESIGN CHOICE (log 107). -/
def readMasks (b : List Byte) (off n : Nat) : Option (List (Option MaskEnt)) :=
  match (tableAt b off n 4).bind (mapAll (fun o =>
      if u32 b o = 0 then some (none, 0) else (readMask b (u32 b o)).map (fun x => (some x.1, x.2)))) with
  | none => none
  | some l => if 32768 < sumNat (l.map (·.2)) then none else some (l.map (·.1))

/-- R66, R138, R140: what a view of a program may not be. -/
def viewBad (bank : NatMap ScaleEnt) (masks : List (Option MaskEnt)) (cache : Nat) (v : View) : Bool :=
  (v.cache && cache == 0) || (v.mask && (masks.getD v.masksel none).isNone) ||
    ((scaleEntOf bank v.scale).policy == 2 && v.fmt != 3)

/-- R38: every grain of the ped-2 lies in the set. -/
def encloses (l : PedSet) (p : Nat) : Bool :=
  l.any (fun e => e.1 == p && (match e.2 with | none => true | some r => r.length == 250))

/-- What the readers of programs and segments share. -/
structure PlanEnv where
  s : State
  c : Ctx
  b : List Byte
  bank : NatMap ScaleEnt
  peds : List (Nat × PedSet)

def readStream (v : PlanEnv) (p : Nat) (wheels : List W64) (views : List View) (length nbar : Nat) (regrow : Bool)
    (e : Nat) : Option (Stream × List Nat) :=
  let h : W32 := BitVec.ofNat 32 (u32 v.b e)
  let st : Stream := { handle := h, off := u48 v.b (e + 4), home := BitVec.ofNat 32 (u32 v.b (e + 12)) }
  let home : Bool := match laxPed v.s v.peds (u32 v.b (e + 12)) with
    | none => false
    | some l => encloses l p
  if st.off % 256 ≠ 0 || u16 v.b (e + 10) ≠ 0 || !home then none
  else if h = 0 then ensure (wheelHas wheels 4) (some (st, []))
  else match ownObj v.s v.c.num h with
    | none => none
    | some o =>
      if o.gran.any (fun g => g.hzn != 1) then none
      else (scanAll views length nbar regrow v.s o ((o.size - st.off) / 32) st.off
        { guard := false, mode := 0, left := 0, used := [], ended := false }).map (fun x => (st, x.used))

def readProg (v : PlanEnv) (wheel length nbar : Nat) (regrow : Bool) (e : Nat) : Option Prog :=
  let b := v.b
  let cache := u8 b (e + 3)
  let sbits := u8 b (e + 24)
  if 1199 < u16 b e || 1 < u8 b (e + 2) || v.c.rsize < cache || 256 < u16 b (e + 8) || 256 < u16 b (e + 10) ||
      !(allZero (slice b (e + 25) 39)) || (wheel == 3) != (u32 b (e + 16) != 0) then none
  else
    let wheels : Option (List W64) :=
      if wheel = 3 then (tableAt b (u32 b (e + 16)) 4 8).bind (fun l =>
        let ws : List W64 := l.map (fun o => BitVec.ofNat 64 (u64 b o))
        ensure (ws.all wheelOk) (some ws))
      else some (List.replicate 4 (defaultWheel wheel))
    match wheels, tableAt b (u32 b (e + 4)) (u16 b (e + 8)) 32, readMasks b (u32 b (e + 12)) (u16 b (e + 10)),
        (if sbits = 0 then some (List.replicate 8 0) else tableAt b (u32 b (e + 20)) 8 16) with
    | some ws, some vs, some masks, some sts =>
      let views := vs.map (fun o => parseView (slice b o 32))
      if views.any (viewBad v.bank masks cache) || (cache != 0 && !(wheelHas ws 5)) then none
      else
        let read (t : Nat) : Option (Option (Stream × List Nat)) :=
          if bitAt sbits t then (readStream v (u16 b e) ws views length nbar regrow (sts.getD t 0)).map some
          else some none
        match mapAll read (List.range 8) with
        | none => none
        | some l =>
          let used := l.map (fun x => match x with | some y => y.2 | none => [])
          let arr := used.filter (fun ops => ops.any (fun op => engineOf op == some 1))
          let owners : Bool := used.all (fun ops => ops.all (fun op => match ownerOf op with
            | some w => wheelHas ws w
            | none => true))
          if 1 < arr.length || !owners then none
          else some { ped2 := u16 b e, paired := u8 b (e + 2) = 1, cache := cache, views := views, masks := masks,
                      wheels := ws, streams := l.map (fun x => x.map (·.1)) }
    | _, _, _, _ => none

/-! ## Segments (R160, R167, R169) -/

def readBar (v : PlanEnv) (length : Nat) (fp : List Nat) (e : Nat) : Option BarEnt :=
  match laxPed v.s v.peds (u32 v.b e) with
  | none => none
  | some l =>
    if length ≤ u24 v.b (e + 4) || u8 v.b (e + 7) = 0 || !(allZero (slice v.b (e + 8) 8)) ||
        !((pedSetPed2s l).all (fun p => decide (p ∈ fp))) then none
    else some { ped := BitVec.ofNat 32 (u32 v.b e), planned := u24 v.b (e + 4), threads := BitVec.ofNat 8 (u8 v.b (e + 7)) }

def readXfer (v : PlanEnv) (length : Nat) (progs : List Prog) (e : Nat) : Option XferEnt :=
  let b := v.b
  let h : W32 := BitVec.ofNat 32 (u32 b (e + 12))
  let n := u32 b (e + 24)
  let dest := u32 b (e + 28)
  match laxPed v.s v.peds (u32 b (e + 8)), ownObj v.s v.c.num h with
  | some l, some o =>
    let room (p : Nat) : Bool := match progs.find? (fun x => x.ped2 == p) with
      | some x => dest + n ≤ (v.c.rsize - x.cache) * 16384
      | none => false
    if length ≤ u32 b e || 1 < u8 b (e + 4) || u16 b (e + 6) ≠ 0 || u16 b (e + 22) ≠ 0 || n < 32 || 16777216 < n ||
        n % 32 ≠ 0 || o.size < u48 b (e + 16) + n ||
        (if u8 b (e + 4) = 0 then dest % 32 ≠ 0 || !((pedSetPed2s l).all room) else dest ≠ 0) then none
    else some { start := u32 b e, kind := u8 b (e + 4), sem := u8 b (e + 5), ped := BitVec.ofNat 32 (u32 b (e + 8)),
                handle := h, off := u48 b (e + 16), bytes := n, dest := dest }
  | _, _ => none

/-- R149, R188: SOURCE, and no LAST from it up to the regrow segment. -/
def regrowSource (done : List SegD) (n src : Nat) : Bool := src < n && (done.drop src).all (fun x => !x.last)

def readSeg (v : PlanEnv) (done : List SegD) (e : Nat) : Option SegD :=
  let b := v.b
  let length := u32 b e
  let regrow := bitAt (u8 b (e + 4)) 0
  let src := u16 b (e + 6)
  let nprog := u16 b (e + 12)
  let nbar := u16 b (e + 14)
  if length = 0 || 16777216 < length || 3 < u8 b (e + 4) || 3 < u8 b (e + 5) || length < u32 b (e + 8) ||
      nprog = 0 || 1200 < nprog || 4096 < nbar || 4096 < u16 b (e + 24) || 16 < u16 b (e + 26) ||
      !(allZero (slice b (e + 36) 28)) || (if regrow then !(regrowSource done done.length src) else src ≠ 0) then none
  else
    match (tableAt b (u32 b (e + 16)) nprog 64).bind (mapAll (readProg v (u8 b (e + 5)) length nbar regrow)) with
    | none => none
    | some progs =>
      let fp := progs.map (·.ped2)
      match (tableAt b (u32 b (e + 20)) nbar 16).bind (mapAll (readBar v length fp)),
          (tableAt b (u32 b (e + 28)) (u16 b (e + 24)) 32).bind (mapAll (readXfer v length progs)),
          (tableAt b (u32 b (e + 32)) (u16 b (e + 26)) 4).bind (mapAll (fun o =>
            if u8 b (o + 3) = 0 then some (u16 b o, u8 b (o + 2)) else none)) with
      | some bars, some xfers, some chks =>
        if !(noRepeat fp) then none
        else some { length := length, regrow := regrow, last := bitAt (u8 b (e + 4)) 1, source := src,
                    reserve := u32 b (e + 8), progs := progs, bars := bars, xfers := xfers, chks := chks }
      | _, _, _ => none

def readSegs (v : PlanEnv) : List Nat → List SegD → Option (List SegD)
  | [], done => some done
  | e :: r, done => match readSeg v done e with
    | none => none
    | some d => readSegs v r (done ++ [d])

/-! ## PLAN_LOAD and PLAN_UNLOAD (R160, R165, R188, R317) -/

structure Image where
  peds : List (Nat × List W32)
  bank : NatMap ScaleEnt
  segs : List SegD
  step0 : W64
  seed : W64

/-- R160: the header's own conditions. -/
def headerBad (b : List Byte) : Bool :=
  u32 b 0 ≠ 0x4E4C5051 || u16 b 4 ≠ 1 || u16 b 6 = 0 || 4096 < u16 b 6 || 65536 < u32 b 12 || 65536 < u32 b 20 ||
    !(allZero (slice b 48 8)) || u64 b 56 ≠ (crc64 (patch b 56 (zeros 8))).toNat

/-- An image, where it meets every condition of R188. DEDUCED (log 78). -/
def readImage (s : State) (c : Ctx) (b : List Byte) : Option Image :=
  if headerBad b then none
  else match readPeds s c b, readScales b, tableAt b (u32 b 24) (u16 b 6) 64 with
    | some peds, some bank, some es =>
      let v : PlanEnv := { s := s, c := c, b := b, bank := if c.loadedOnce then c.bank else bank, peds := peds.2 }
      (readSegs v es []).map (fun segs =>
        { peds := peds.1, bank := bank, segs := segs, step0 := BitVec.ofNat 64 (u64 b 32), seed := BitVec.ofNat 64 (u64 b 40) })
    | _, _, _ => none

/-- R329: a ped-2 of the package's map inside DOMAIN, in service or not. -/
def inDomain (a : W32) (p : Nat) : Bool :=
  let k := bits a.toNat 28 4
  if k = 2 then p == bits a.toNat 22 6 * 25 + bits a.toNat 17 5
  else if k = 3 then p / 25 == bits a.toNat 22 6
  else if k = 4 then quadOf (p / 25) == bits a.toNat 22 2
  else k == 5

def lowestPlan (c : Ctx) : Option Nat := (List.range 64).find? (fun i => (planOf c i).isNone)

/-- R117, R165: what the first plan that a context loads sets. DEDUCED (log 79). -/
def firstLoad (m : Image) (c : Ctx) : Ctx :=
  if c.loadedOnce then c
  else { c with loadedOnce := true, bank := m.bank, step := m.step0, stepSeed := m.seed }

/-- Read from the spec by inference: DEDUCED (log 79). -/
def doPlanLoad (cid : Nat) (s : State) : State :=
  match ready s cid 0x30 with
  | none => s
  | some k =>
    let s := startCmd cid s
    let p := k.param
    let off := u64 p 8
    let h : W32 := BitVec.ofNat 32 (u32 p 0)
    match k.ctx.bind (ctxOf s) with
    | none => finish0 cid stNOT_PERMITTED s
    | some c =>
      if u32 p 4 ≠ 0 || !(allZero (p.drop 16)) || off % 256 ≠ 0 then finish0 cid stBAD_PARAM s
      else match ownObj s c.num h with
        | none => finish0 cid stNOT_PERMITTED s
        | some o =>
          if o.size < off + 64 then finish0 cid stBAD_PARAM s
          else
            let size := leNat (objRead s o (off + 28) 4)
            if size < 64 || o.size < off + size then finish0 cid stBAD_PARAM s
            else match readImage s c (objRead s o off size) with
              | none => finish0 cid stBAD_PARAM s
              | some m =>
                if m.segs.any (fun d => d.progs.any (fun x => !(inDomain c.domain x.ped2))) then
                  finish0 cid stNOT_PERMITTED s
                else match lowestPlan c with
                  | none => finish0 cid stNO_RESOURCE s
                  | some i =>
                    let fixed := (m.bank.filter (fun e => e.2.policy == 0)).map (fun e => (e.1, e.2.scale))
                    let pl : Plan := { id := i, handle := h, off := off, peds := m.peds, segs := m.segs, fixed := fixed }
                    finish cid stOK (leBytes 4 i ++ leBytes 2 m.segs.length)
                      (updCtx c.num (fun c => { firstLoad m c with plans := c.plans ++ [pl] }) s)

def doPlanUnload (cid : Nat) (s : State) : State :=
  match ready s cid 0x31 with
  | none => s
  | some k =>
    let s := startCmd cid s
    let p := k.param
    match k.ctx.bind (ctxOf s) with
    | none => finish0 cid stNOT_PERMITTED s
    | some c =>
      if !(allZero (p.drop 4)) || (planOf c (u32 p 0)).isNone then finish0 cid stBAD_PARAM s
      else if c.runs.any (fun r => r.plan == u32 p 0) || s.cmds.any (fun q => q.ctx == some c.num && q.opcode == 0x32 &&
          q.done.isNone && u32 q.param 0 == u32 p 0) then finish0 cid stBUSY s
      else finish0 cid stOK (updCtx c.num (fun c => { c with plans := c.plans.filter (fun x => x.id != u32 p 0) }) s)

/-! ## SEG_RUN and SEG_FENCE (R60, R165, R317, R349) -/

/-- R60: a program's CACHE fits the residency, and its scratchpad views fit beside it. -/
def progFits (c : Ctx) (x : Prog) : Bool :=
  x.cache ≤ c.rsize && x.views.all (fun v => !(isLocal v) || viewEnd (loadView c.bank v) 249 ≤ (c.rsize - x.cache) * 16384)

/-- The first segment of a run that does not fit. -/
def firstUnfit (c : Ctx) (pl : Plan) (seg count : Nat) : Option Nat :=
  ((List.range count).map (fun i => seg + i)).find? (fun n => match pl.segs[n]? with
    | some d => !(d.progs.all (progFits c))
    | none => true)

/-- The RESULT of a BAD_PARAM that SEG_RUN itself finds: code 0, and the segment. -/
def runBad (cid seg : Nat) (s : State) : State := finish cid stBAD_PARAM (zeros 12 ++ leBytes 2 seg) s

/-- R317: SEG is the first segment of a step. -/
def stepFirst (pl : Plan) (seg : Nat) : Bool :=
  seg == 0 || (match pl.segs[seg - 1]? with | some d => d.last | none => false)

/-- SEG_RUNs of a context start in the order of their fetch. -/
def runTurn (s : State) (k : Cmd) : Bool :=
  s.cmds.all (fun q => !(q.ctx == k.ctx && q.opcode == 0x32 && q.cid < k.cid && !q.started && q.done.isNone))

/-- Read from the spec by inference: DEDUCED (log 42). -/
def noRunResult : List Byte := List.replicate 12 0xFF

/-- SEG_RUN: the checks of the command, and its place among the context's runs in the decision that its fetch calls for
(R335). A SEG_RUN that ends at once leaves the context IDLE where none other is outstanding (R326). DEDUCED (log 42,
111). -/
def doSegRun (cid : Nat) (s : State) : State :=
  match ready s cid 0x32 with
  | none => s
  | some k =>
    if !(runTurn s k) then s
    else
      let s := startCmd cid s
      let p := k.param
      let seg := u16 p 4
      let count := u16 p 6
      let seedv := u8 p 8 = 1
      match k.ctx.bind (ctxOf s) with
      | none => finish0 cid stNOT_PERMITTED s
      | some c =>
        if c.lost.isSome then finish cid stSTEP_LOST noRunResult s
        else match planOf c (u32 p 0) with
          | none => runBad cid seg s
          | some pl =>
            if 1 < u8 p 8 || !(allZero (slice p 9 7)) || !(allZero (p.drop 24)) || count = 0 || 4096 < count ||
                pl.segs.length < seg + count || (seedv && !(stepFirst pl seg)) then runBad cid seg s
            else match firstUnfit c pl seg count with
              | some n => runBad cid n s
              | none =>
                if !((slice' pl.segs seg count).all (limitOk s c)) then finish cid stNO_RESOURCE noRunResult s
                else
                  let r : SegRun := { cid := cid, plan := pl.id, seg := seg, count := count,
                                      seed := if seedv then some (BitVec.ofNat 64 (u64 p 16)) else none,
                                      ended := 0, firstGc0 := none, overrun := 0, status := none, faultRes := none }
                  decideLeases (updCtx c.num (fun c => { c with
                    runs := c.runs ++ [r]
                    st := if c.st = .idle then .ready else c.st
                    deficit := if c.st = .idle then min c.deficit 0 else c.deficit }) (earn s))
where
  slice' (l : List SegD) (a n : Nat) : List SegD := (l.drop a).take n

/-- SEG_FENCE waits for a segment that started before the fence was fetched (R210). DEDUCED (log 42). -/
def doSegFence (cid : Nat) (s : State) : State :=
  match ready s cid 0x33 with
  | none => s
  | some k =>
    let s := startCmd cid s
    match k.ctx.bind (ctxOf s) with
    | none => finish0 cid stNOT_PERMITTED s
    | some c =>
      if !(allZero k.param) then finish0 cid stBAD_PARAM s
      else if (match segOf s c.num with | some r => decide (r.gc0.toNat ≤ k.fetchPcc.toNat) | none => false) then updCtx c.num (fun c => { c with fences := c.fences ++ [cid] }) s
      else finish cid stOK (leBytes 8 s.clk.pcc.toNat) s

def execPlanLoad (cid : Nat) (s : State) : Host.Outcome State Fault Refusal := .next (doPlanLoad cid s)
def execPlanUnload (cid : Nat) (s : State) : Host.Outcome State Fault Refusal := .next (doPlanUnload cid s)
def execSegRun (cid : Nat) (s : State) : Host.Outcome State Fault Refusal := .next (doSegRun cid s)
def execSegFence (cid : Nat) (s : State) : Host.Outcome State Fault Refusal := .next (doSegFence cid s)

end Sys2Proof.Machine
end

