-- ==== Sys2Proof/Machine/SelfTest.lean ====
section
/-! DEFINITION. Self-test and calibration while work runs (R415-R417, R419). -/

namespace Sys2Proof.Machine

open Sys2Proof

/-! ## SELF_TEST -/

/-- R163, R417: the latest declared end among the segments that run on the ped-2s. -/
def latestEnd (s : State) (ps : List Nat) : Nat :=
  (s.segs.filter (fun r => (footprint r.d).any (fun p => p ∈ ps))).foldl
    (fun m r => max m (r.gc0.toNat + r.d.length)) s.clk.pcc.toNat

/-- Read from the spec by inference: DEDUCED (log 58). -/
def doSelfTest (cid : Nat) (s : State) : State :=
  match ready s cid 0x60 with
  | none => s
  | some k =>
    let s := startCmd cid s
    let p := k.param
    let a : W32 := BitVec.ofNat 32 (u32 p 4)
    if 2 < u8 p 0 || !(allZero (slice p 1 3)) || !(allZero (p.drop 8)) || domainBad s a then finish0 cid stBAD_PARAM s
    else
      let ps := match physPed s a.toNat with
        | .ok l => (pedSetPed2s l).filter (ped2InService s)
        | .error _ => []
      if ps.any (underTest s) then finish0 cid stBUSY s
      else if u8 p 0 = 0 then
        finish0 cid stOK { s with test := { s.test with background := ps.foldl (fun l x => addOnce x l) s.test.background } }
      else if u8 p 0 = 2 then
        let s := { s with test := { s.test with background := s.test.background.filter (fun x => !(x ∈ ps)) } }
        finish0 cid stOK (ps.foldl (fun s x => stopPiece x s) s)
      else
        let wait := ps.any (fun x => (ped2Of s x).lease.isSome)
        let s := if wait then defer cid (leBytes 8 (latestEnd s ps)) s else s
        claimTests { s with test := { s.test with intrusive := s.test.intrusive ++ [(cid, ps, false)] } }

/-! ## What a test finds (R26, R417) -/

/-- The logical id that the grain at a physical linear id holds. -/
def logicalAt (s : State) (p q : Nat) : Option Nat :=
  ((List.range 250).map (logicalId p)).find? (fun g => physId s g == q)

/-- A spare that fails a test is failed from now on. DEDUCED (log 58). -/
def failSpare (p g : Nat) (s : State) : State :=
  learnFailed (p * 256 + g) { s with emap := { s.emap with
    spare := nmUpd p (mapSet g false) s.emap.spare, gen := s.emap.gen + 1 } }

/-- Grains of ped-2 p, by position, that failed: spares first, so that none of them takes a logical id. -/
def failGrains (p : Nat) (gs : List Nat) (s : State) : State :=
  let spares := gs.filter (fun g => (nmGetD s.emap.spare p 0).getLsbD g)
  let ids := (gs.filter (fun g => (nmGetD s.emap.enabled p 0).getLsbD g)).filterMap (fun g => logicalAt s p (p * 256 + g))
  let s := spares.foldl (fun s g => failSpare p g s) s
  retireGrains p ids 2 s

/-- The units that no resident holds are scrubbed before they are assigned again (R341). -/
def scrubFree (p : Nat) (s : State) : State :=
  (List.range 6).foldl (fun s u => if unitsFree (residents s p) u 1 then scrubUnits p u 1 s else s) s

/-! ## BACKGROUND (R416) -/

/-- R416: a reservation covers the ped-2 within the length of a piece, 65,536 gc. -/
def reservedSoon (s : State) (p : Nat) : Bool :=
  match (ped2Of s p).reserved with
  | none => false
  | some y => match (ctxOf s y).bind (nextSeg s) with
    | some z => decide (readyAt s (footprint z.2.2.2) < s.clk.wallUs + gcUs s 65536)
    | none => false

def doBackgroundTestPiece (p : Nat) (s : State) : State :=
  let d := ped2Of s p
  if !(p ∈ s.test.background) || !(ped2InService s p) || d.lease.isSome || reservedSoon s p || d.bgRunning ||
      d.checks ≠ [] || !((List.range 6).any (fun u => unitsFree (residents s p) u 1)) || s.err.stopped.isSome then s
  else updPed2 p (fun d => { d with bgRunning := true }) s

def doBackgroundPieceDone (p : Nat) (failed : List Nat) (s : State) : State :=
  if !(ped2Of s p).bgRunning || s.err.stopped.isSome then s
  else
    let s := scrubFree p (updPed2 p (fun d => { d with bgRunning := false }) s)
    failGrains p failed s

/-! ## INTRUSIVE (R417) -/

/-- The test's context-0 segments have ended: leases are decided (R335). -/
def doIntrusiveTestDone (cid : Nat) (failed : List (Nat × Nat)) (s : State) : State :=
  match s.test.intrusive.find? (fun x => x.1 == cid && x.2.2) with
  | none => s
  | some (_, ps, _) =>
    if s.err.stopped.isSome then s else
    let tests (p g : Nat) : Bool := (nmGetD s.emap.enabled p 0 ||| nmGetD s.emap.spare p 0).getLsbD g
    let bad := failed.filter (fun e => e.1 ∈ ps && ped2InService s e.1 && tests e.1 e.2)
    let n := (ps.filter (ped2InService s)).foldl (fun n p =>
      n + popCount (nmGetD s.emap.enabled p 0) + popCount (nmGetD s.emap.spare p 0)) 0
    let was := s.emap.retired.length
    let s := { s with test := { s.test with intrusive := s.test.intrusive.filter (fun x => x.1 != cid) } }
    let s := ps.foldl (fun s p => failGrains p ((bad.filter (fun e => e.1 == p)).map (·.2)) s) s
    let gone := s.emap.retired.length - was
    let s := ps.foldl (fun s p => if leasedTo s 0 p then releasePed2 p (scrubFree p s) else s) s
    decideLeases (finish cid stOK (leBytes 4 n ++ leBytes 4 bad.length ++ leBytes 2 gone) s)

/-! ## CALIBRATE (R418, R419) -/

/-- The PCC at or after t at which a window that starts at `off` of each 1,600,000 gc begins. -/
def windowFrom (t off : Nat) : Nat := t + (off + 1600000 - t % 1600000) % 1600000

def firstWindow (s : State) (kind unit : Nat) : Nat :=
  let t := s.clk.pcc.toNat
  if kind = 1 then windowFrom t (32768 * unit)
  else (List.range 64).foldl (fun m pc => min m (windowFrom t (24576 * pc))) (windowFrom t 0)

/-- R419, R259: the port is the only one of its bundle that is UP. -/
def lastOfBundle (s : State) (p : Nat) : Bool :=
  (fportOf s p).st == .up && (List.range 8).all (fun l => l * 8 + p % 8 == p || (fportOf s (l * 8 + p % 8)).st != .up)

/-- Read from the spec by inference: DEDUCED (log 59). -/
def doCalibrate (cid slack : Nat) (s : State) : State :=
  match ready s cid 0x61 with
  | none => s
  | some k =>
    let s := startCmd cid s
    let p := k.param
    let kind := u8 p 0
    let unit := u16 p 2
    if 3 < kind || u8 p 1 ≠ 0 || !(allZero (p.drop 4)) || (if kind = 2 then 64 else 48) ≤ unit then finish0 cid stBAD_PARAM s
    else if s.test.calib.any (fun c => c.1 == kind && c.2.1 == unit) then finish0 cid stBUSY s
    else
      let put (s : State) : State := { s with test := { s.test with calib := s.test.calib ++ [(kind, unit, cid)] } }
      if kind = 3 then finish cid stOK (leBytes 2 (min 1023 slack)) s
      else if kind = 2 then
        let st := (fportOf s unit).st
        if lastOfBundle s unit then finish0 cid stBUSY s
        else if st = .up then put (updFport unit (fun x => { x with retrainCid := some cid }) (linksChanged (startRetrain unit s)))
        else finish0 cid stDEGRADED s
      else if kind = 1 && !(unit ∈ s.hz.channels) then finish0 cid stDEGRADED s
      else put (defer cid (leBytes 8 (firstWindow s kind unit)) s)

/-- R419: the first window of a pending recalibration has begun. -/
def firstWindowOpen (s : State) (cid : Nat) : Bool :=
  match (cmdOf s cid).bind (·.deferred) with
  | some d => u64 d 0 ≤ s.clk.pcc.toNat
  | none => true

/-- CALIBRATION_DONE: the windows of a recalibration are over. DEDUCED (log 59). -/
def doCalibrationDone (kind unit : Nat) (s : State) : State :=
  if 1 < kind then s
  else match s.test.calib.find? (fun c => c.1 == kind && c.2.1 == unit) with
    | none => s
    | some c => if !(firstWindowOpen s c.2.2) then s else finish0 c.2.2 stOK
        { s with test := { s.test with calib := s.test.calib.filter (fun x => x.2.2 != c.2.2) } }

def execSpareCheckDone (ped2 : Nat) (ok : Bool) (s : State) : Host.Outcome State Fault Refusal :=
  .next (doSpareCheckDone ped2 ok s)
def execSelfTest (cid : Nat) (s : State) : Host.Outcome State Fault Refusal := .next (doSelfTest cid s)
def execCalibrate (cid slack : Nat) (s : State) : Host.Outcome State Fault Refusal := .next (doCalibrate cid slack s)
def execBackgroundTestPiece (ped2 : Nat) (s : State) : Host.Outcome State Fault Refusal :=
  .next (doBackgroundTestPiece ped2 s)
def execBackgroundPieceDone (ped2 : Nat) (failed : List Nat) (s : State) : Host.Outcome State Fault Refusal :=
  .next (doBackgroundPieceDone ped2 failed s)
def execIntrusiveTestDone (cid : Nat) (failed : List (Nat × Nat)) (s : State) : Host.Outcome State Fault Refusal :=
  .next (doIntrusiveTestDone cid failed s)
def execCalibrationDone (kind unit : Nat) (s : State) : Host.Outcome State Fault Refusal := .next (doCalibrationDone kind unit s)

end Sys2Proof.Machine
end

