-- ==== Sys2Proof/Machine/Dispatch.lean ====
section
/-! DEFINITION. One arm for every command of the block. -/

namespace Sys2Proof.Machine

open Sys2Proof

def exec (i : Instr) (s : State) : Host.Outcome State Fault Refusal :=
  match i with
  | .ping cid => Sys2Proof.Machine.execPing cid s
  | .ctxCreate cid => Sys2Proof.Machine.execCtxCreate cid s
  | .ctxDestroy cid => Sys2Proof.Machine.execCtxDestroy cid s
  | .ctxKill cid => Sys2Proof.Machine.execCtxKill cid s
  | .setShare cid => Sys2Proof.Machine.execSetShare cid s
  | .objAlloc cid => Sys2Proof.Machine.execObjAlloc cid s
  | .objFree cid => Sys2Proof.Machine.execObjFree cid s
  | .objPlace cid => Sys2Proof.Machine.execObjPlace cid s
  | .objMigrate cid => Sys2Proof.Machine.execObjMigrate cid s
  | .objFallback cid => Sys2Proof.Machine.execObjFallback cid s
  | .planLoad cid => Sys2Proof.Machine.execPlanLoad cid s
  | .planUnload cid => Sys2Proof.Machine.execPlanUnload cid s
  | .segRun cid => Sys2Proof.Machine.execSegRun cid s
  | .segFence cid => Sys2Proof.Machine.execSegFence cid s
  | .winOpen cid => Sys2Proof.Machine.execWinOpen cid s
  | .winClose cid => Sys2Proof.Machine.execWinClose cid s
  | .groupSet cid => Sys2Proof.Machine.execGroupSet cid s
  | .bucketPolicy cid => Sys2Proof.Machine.execBucketPolicy cid s
  | .secureNow cid => Sys2Proof.Machine.execSecureNow cid s
  | .securePolicy cid => Sys2Proof.Machine.execSecurePolicy cid s
  | .rollback cid serves => Sys2Proof.Machine.execRollback cid serves s
  | .replayStep cid => Sys2Proof.Machine.execReplayStep cid s
  | .digestQuery cid => Sys2Proof.Machine.execDigestQuery cid s
  | .strataRead cid => Sys2Proof.Machine.execStrataRead cid s
  | .selfTest cid => Sys2Proof.Machine.execSelfTest cid s
  | .calibrate cid slack => Sys2Proof.Machine.execCalibrate cid slack s
  | .pmcConfig cid => Sys2Proof.Machine.execPmcConfig cid s
  | .pmcSnapshot cid => Sys2Proof.Machine.execPmcSnapshot cid s
  | .sampleConfig cid => Sys2Proof.Machine.execSampleConfig cid s
  | .fwChunk cid => Sys2Proof.Machine.execFwChunk cid s
  | .fwStatus cid => Sys2Proof.Machine.execFwStatus cid s
  | .fwActivate cid => Sys2Proof.Machine.execFwActivate cid s
  | .fwAbort cid => Sys2Proof.Machine.execFwAbort cid s
  | .attestQuote cid => Sys2Proof.Machine.execAttestQuote cid s
  | .measureLog cid => Sys2Proof.Machine.execMeasureLog cid s
  | .dumpConfig cid => Sys2Proof.Machine.execDumpConfig cid s
  | .tilthRead cid => Sys2Proof.Machine.execTilthRead cid s
  | .commandFetch fn ctx ring => Sys2Proof.Machine.execCommandFetch fn ctx ring s
  | .completionWrite cid => Sys2Proof.Machine.execCompletionWrite cid s
  | .interruptTimeExpire ctx cq => Sys2Proof.Machine.execInterruptTimeExpire ctx cq s
  | .commandRingDoorbell fn page ring val => Sys2Proof.Machine.execCommandRingDoorbell fn page ring val s
  | .adminDoorbell fn val => Sys2Proof.Machine.execAdminDoorbell fn val s
  | .pedDoorbell fn page ring val => Sys2Proof.Machine.execPedDoorbell fn page ring val s
  | .adminRingEnable fn => Sys2Proof.Machine.execAdminRingEnable fn s
  | .adminRingDisable fn => Sys2Proof.Machine.execAdminRingDisable fn s
  | .ringTableWrite rq ctx val => Sys2Proof.Machine.execRingTableWrite rq ctx val s
  | .fnAperWrite fn val => Sys2Proof.Machine.execFnAperWrite fn val s
  | .bar4Access port off acc => Sys2Proof.Machine.execBar4Access port off acc s
  | .busMasterDisable fn => Sys2Proof.Machine.execBusMasterDisable fn s
  | .busMasterEnable fn => Sys2Proof.Machine.execBusMasterEnable fn s
  | .portReset port => Sys2Proof.Machine.execPortReset port s
  | .perstDeassert port => Sys2Proof.Machine.execPerstDeassert port s
  | .hostLinkDownTimeout port => Sys2Proof.Machine.execHostLinkDownTimeout port s
  | .pfFlr port => Sys2Proof.Machine.execPfFlr port s
  | .vfFlr port vf => Sys2Proof.Machine.execVfFlr port vf s
  | .hubPkgrstPair rq vb => Sys2Proof.Machine.execHubPkgrstPair rq vb s
  | .pkgrstRequestLapse port => Sys2Proof.Machine.execPkgrstRequestLapse port s
  | .pkgrstPin => Sys2Proof.Machine.execPkgrstPin s
  | .segmentStart ctx => Sys2Proof.Machine.execSegmentStart ctx s
  | .segmentEnd ctx => Sys2Proof.Machine.execSegmentEnd ctx s
  | .segmentWatchdog ctx => Sys2Proof.Machine.execSegmentWatchdog ctx s
  | .deepSaveDone ctx ped2 => Sys2Proof.Machine.execDeepSaveDone ctx ped2 s
  | .deepRestoreDone ctx ped2 => Sys2Proof.Machine.execDeepRestoreDone ctx ped2 s
  | .fabricDrainEnd ctx => Sys2Proof.Machine.execFabricDrainEnd ctx s
  | .diePark c => Sys2Proof.Machine.execDiePark c s
  | .grainPllLock c => Sys2Proof.Machine.execGrainPllLock c s
  | .hubTransferStart ctx idx => Sys2Proof.Machine.execHubTransferStart ctx idx s
  | .hubTransferComplete ctx idx => Sys2Proof.Machine.execHubTransferComplete ctx idx s
  | .descriptorBurstArrive g t b => Sys2Proof.Machine.execDescriptorBurstArrive g t b s
  | .notbeforeReached g t => Sys2Proof.Machine.execNotbeforeReached g t s
  | .descriptorComplete g ser => Sys2Proof.Machine.execDescriptorComplete g ser s
  | .arrPass g t => Sys2Proof.Machine.execArrPass g t s
  | .arrConv g t => Sys2Proof.Machine.execArrConv g t s
  | .arrLoadw g t => Sys2Proof.Machine.execArrLoadw g t s
  | .mv g t => Sys2Proof.Machine.execMv g t s
  | .vec g t => Sys2Proof.Machine.execVec g t s
  | .vecDeriv g t => Sys2Proof.Machine.execVecDeriv g t s
  | .rngFill g t => Sys2Proof.Machine.execRngFill g t s
  | .dmaGet g t => Sys2Proof.Machine.execDmaGet g t s
  | .dmaPut g t => Sys2Proof.Machine.execDmaPut g t s
  | .dmaPutFlush g t => Sys2Proof.Machine.execDmaPutFlush g t s
  | .winPut g t => Sys2Proof.Machine.execWinPut g t s
  | .winGet g t => Sys2Proof.Machine.execWinGet g t s
  | .sieveGather g t => Sys2Proof.Machine.execSieveGather g t s
  | .sieveScatterAdd g t => Sys2Proof.Machine.execSieveScatterAdd g t s
  | .sieveScatterApply g t => Sys2Proof.Machine.execSieveScatterApply g t s
  | .redPost g t => Sys2Proof.Machine.execRedPost g t s
  | .redWait g t => Sys2Proof.Machine.execRedWait g t s
  | .barrier g t => Sys2Proof.Machine.execBarrier g t s
  | .semWait g t => Sys2Proof.Machine.execSemWait g t s
  | .semSignal g t => Sys2Proof.Machine.execSemSignal g t s
  | .deadline g t => Sys2Proof.Machine.execDeadline g t s
  | .deadlineDue g t => Sys2Proof.Machine.execDeadlineDue g t s
  | .deadlineRung2Cutoff g t => Sys2Proof.Machine.execDeadlineRung2Cutoff g t s
  | .deadlineRung3Cutoff g t => Sys2Proof.Machine.execDeadlineRung3Cutoff g t s
  | .clodBegin g t => Sys2Proof.Machine.execClodBegin g t s
  | .clodCommit g t => Sys2Proof.Machine.execClodCommit g t s
  | .clodDecision ctx clod => Sys2Proof.Machine.execClodDecision ctx clod s
  | .clodDecisionApply pkg clod commit => Sys2Proof.Machine.execClodDecisionApply pkg clod commit s
  | .clodAbort g t => Sys2Proof.Machine.execClodAbort g t s
  | .specBegin g t => Sys2Proof.Machine.execSpecBegin g t s
  | .specResolve g t => Sys2Proof.Machine.execSpecResolve g t s
  | .route g t => Sys2Proof.Machine.execRoute g t s
  | .secureMark g t => Sys2Proof.Machine.execSecureMark g t s
  | .pmcMark g t => Sys2Proof.Machine.execPmcMark g t s
  | .ballast g t => Sys2Proof.Machine.execBallast g t s
  | .endOp g t => Sys2Proof.Machine.execEndOp g t s
  | .arrayIdle g => Sys2Proof.Machine.execArrayIdle g s
  | .ballastGapExpire g => Sys2Proof.Machine.execBallastGapExpire g s
  | .arrayChecksumFault g ser chk => Sys2Proof.Machine.execArrayChecksumFault g ser chk s
  | .mvRowCheckFault g ser row => Sys2Proof.Machine.execMvRowCheckFault g ser row s
  | .vectorCheckFault g ser elem => Sys2Proof.Machine.execVectorCheckFault g ser elem s
  | .spareCheckDone ped2 ok => Sys2Proof.Machine.execSpareCheckDone ped2 ok s
  | .patrolScrubSlot g banks => Sys2Proof.Machine.execPatrolScrubSlot g banks s
  | .cacheFillDone g t => Sys2Proof.Machine.execCacheFillDone g t s
  | .tagGrant pool => Sys2Proof.Machine.execTagGrant pool s
  | .horizonResponse req ans => Sys2Proof.Machine.execHorizonResponse req ans s
  | .calibrationWindowStart ch => Sys2Proof.Machine.execCalibrationWindowStart ch s
  | .calibrationWindowEnd ch => Sys2Proof.Machine.execCalibrationWindowEnd ch s
  | .migrationCopyDone handle granule => Sys2Proof.Machine.execMigrationCopyDone handle granule s
  | .promotionCopyDone handle granule => Sys2Proof.Machine.execPromotionCopyDone handle granule s
  | .nvmeCompletion drive cmd res => Sys2Proof.Machine.execNvmeCompletion drive cmd res s
  | .driveFailed drive cause status => Sys2Proof.Machine.execDriveFailed drive cause status s
  | .ddr5ChannelFailed ch => Sys2Proof.Machine.execDdr5ChannelFailed ch s
  | .sieveRowArrive g ser slot => Sys2Proof.Machine.execSieveRowArrive g ser slot s
  | .dlogMergeGranuleDone table granule => Sys2Proof.Machine.execDlogMergeGranuleDone table granule s
  | .lnkPortEnable rq port val => Sys2Proof.Machine.execLnkPortEnable rq port val s
  | .portTrained port ok => Sys2Proof.Machine.execPortTrained port ok s
  | .identReceived port id => Sys2Proof.Machine.execIdentReceived port id s
  | .flitReceive port flit => Sys2Proof.Machine.execFlitReceive port flit s
  | .nakReceived port ackseq => Sys2Proof.Machine.execNakReceived port ackseq s
  | .portRetrainDone port ok => Sys2Proof.Machine.execPortRetrainDone port ok s
  | .portLeaveUp port => Sys2Proof.Machine.execPortLeaveUp port s
  | .windowAccessArrive flit side => Sys2Proof.Machine.execWindowAccessArrive flit side s
  | .windowResponseArrive flit poison => Sys2Proof.Machine.execWindowResponseArrive flit poison s
  | .remoteTimeout rtag => Sys2Proof.Machine.execRemoteTimeout rtag s
  | .reductionFlitArrive flit => Sys2Proof.Machine.execReductionFlitArrive flit s
  | .bucketTimeout tag => Sys2Proof.Machine.execBucketTimeout tag s
  | .bucketFailureNotice tag status pkg => Sys2Proof.Machine.execBucketFailureNotice tag status pkg s
  | .bucketHoldNotice tag chunk pkg => Sys2Proof.Machine.execBucketHoldNotice tag chunk pkg s
  | .bucketResumeNotice tag chunk pkg => Sys2Proof.Machine.execBucketResumeNotice tag chunk pkg s
  | .lnkTorusWrite rq val => Sys2Proof.Machine.execLnkTorusWrite rq val s
  | .lnkRouteWrite rq id val => Sys2Proof.Machine.execLnkRouteWrite rq id val s
  | .lnkCreditWrite rq val => Sys2Proof.Machine.execLnkCreditWrite rq val s
  | .riskExchangeResult ctx risk now => Sys2Proof.Machine.execRiskExchangeResult ctx risk now s
  | .securePointComplete ctx => Sys2Proof.Machine.execSecurePointComplete ctx s
  | .securePointFail ctx why => Sys2Proof.Machine.execSecurePointFail ctx why s
  | .tilthPeriod slack => Sys2Proof.Machine.execTilthPeriod slack s
  | .clockSlewDone => Sys2Proof.Machine.execClockSlewDone s
  | .errRingTailWrite rq val => Sys2Proof.Machine.execErrRingTailWrite rq val s
  | .errFatalClear rq mask => Sys2Proof.Machine.execErrFatalClear rq mask s
  | .fatalError => Sys2Proof.Machine.execFatalError s
  | .lockstepMismatch hdie => Sys2Proof.Machine.execLockstepMismatch hdie s
  | .hubLogicMismatch die block => Sys2Proof.Machine.execHubLogicMismatch die block s
  | .aoTick smp => Sys2Proof.Machine.execAoTick smp s
  | .helperEraseDone => Sys2Proof.Machine.execHelperEraseDone s
  | .powerSample pkgW dieW lid => Sys2Proof.Machine.execPowerSample pkgW dieW lid s
  | .throttleSaturationTimeout => Sys2Proof.Machine.execThrottleSaturationTimeout s
  | .boundaryHoldAdjust => Sys2Proof.Machine.execBoundaryHoldAdjust s
  | .ped1Prewake ped1 => Sys2Proof.Machine.execPed1Prewake ped1 s
  | .avsbusTimeout c => Sys2Proof.Machine.execAvsbusTimeout c s
  | .powerOn => Sys2Proof.Machine.execPowerOn s
  | .mainEnAssert => Sys2Proof.Machine.execMainEnAssert s
  | .mainEnDeassert => Sys2Proof.Machine.execMainEnDeassert s
  | .coldStart => Sys2Proof.Machine.execColdStart s
  | .firmwareLoadDone rom => Sys2Proof.Machine.execFirmwareLoadDone rom s
  | .dieBringupDone bridgesOk deadDies nonce => Sys2Proof.Machine.execDieBringupDone bridgesOk deadDies nonce s
  | .configRecordSelect => Sys2Proof.Machine.execConfigRecordSelect s
  | .hbmTrainingDone stack ok => Sys2Proof.Machine.execHbmTrainingDone stack ok s
  | .ddr5TrainingDone found => Sys2Proof.Machine.execDdr5TrainingDone found s
  | .nvmeEnumDone found => Sys2Proof.Machine.execNvmeEnumDone found s
  | .startupSelftestDone failed notRun => Sys2Proof.Machine.execStartupSelftestDone failed notRun s
  | .enabledMapBuild => Sys2Proof.Machine.execEnabledMapBuild s
  | .configRecordWrite => Sys2Proof.Machine.execConfigRecordWrite s
  | .trialBootTimeout => Sys2Proof.Machine.execTrialBootTimeout s
  | .backgroundTestPiece ped2 => Sys2Proof.Machine.execBackgroundTestPiece ped2 s
  | .backgroundPieceDone ped2 failed => Sys2Proof.Machine.execBackgroundPieceDone ped2 failed s
  | .intrusiveTestDone cid failed => Sys2Proof.Machine.execIntrusiveTestDone cid failed s
  | .calibrationDone kind unit => Sys2Proof.Machine.execCalibrationDone kind unit s
  | .snapshotStamp => Sys2Proof.Machine.execSnapshotStamp s
  | .snapshotWriteDone => Sys2Proof.Machine.execSnapshotWriteDone s
  | .fwVerifyDone => Sys2Proof.Machine.execFwVerifyDone s
  | .fwLoadDone => Sys2Proof.Machine.execFwLoadDone s
  | .fwHandoverDone => Sys2Proof.Machine.execFwHandoverDone s
  | .fwSwitchStamp => Sys2Proof.Machine.execFwSwitchStamp s
  | .fwCommit => Sys2Proof.Machine.execFwCommit s
  | .fwActivateDeadline => Sys2Proof.Machine.execFwActivateDeadline s
  | .fwRevertDone => Sys2Proof.Machine.execFwRevertDone s
  | .fwStandbyReady => Sys2Proof.Machine.execFwStandbyReady s
  | .debugUnlock tok => Sys2Proof.Machine.execDebugUnlock tok s
  | .getVersion tr => Sys2Proof.Machine.execGetVersion tr s
  | .getCapabilities tr => Sys2Proof.Machine.execGetCapabilities tr s
  | .negotiateAlgorithms tr hasSm2 hasSm3 => Sys2Proof.Machine.execNegotiateAlgorithms tr hasSm2 hasSm3 s
  | .getDigests tr => Sys2Proof.Machine.execGetDigests tr s
  | .getCertificate tr slot off len => Sys2Proof.Machine.execGetCertificate tr slot off len s
  | .challenge tr slot nonce => Sys2Proof.Machine.execChallenge tr slot nonce s
  | .getMeasurements tr index signed nonce => Sys2Proof.Machine.execGetMeasurements tr index signed nonce s
  | .spdmUnsupportedRequest tr code => Sys2Proof.Machine.execSpdmUnsupportedRequest tr code s
  | .guardedWriteA rq reg va => Sys2Proof.Machine.execGuardedWriteA rq reg va s
  | .guardedWindowExpire rq reg => Sys2Proof.Machine.execGuardedWindowExpire rq reg s
  | .pwrLimitPair rq vb => Sys2Proof.Machine.execPwrLimitPair rq vb s
  | .pwrClkctlPair rq vb => Sys2Proof.Machine.execPwrClkctlPair rq vb s
  | .secAlarmPair rq vb => Sys2Proof.Machine.execSecAlarmPair rq vb s
  | .secAlarmClear rq vb => Sys2Proof.Machine.execSecAlarmClear rq vb s
  | .secEraseVolatile rq vb => Sys2Proof.Machine.execSecEraseVolatile rq vb s
  | .secEraseHelper rq vb => Sys2Proof.Machine.execSecEraseHelper rq vb s
  | .secSlotPair rq vb => Sys2Proof.Machine.execSecSlotPair rq vb s
  | .secTestPair rq vb => Sys2Proof.Machine.execSecTestPair rq vb s
  | .secScrubPair rq vb => Sys2Proof.Machine.execSecScrubPair rq vb s
  | .hubNumctlWrite rq ctx val => Sys2Proof.Machine.execHubNumctlWrite rq ctx val s
  | .hubNumringWrite rq ctx val => Sys2Proof.Machine.execHubNumringWrite rq ctx val s
  | .hubSpecWrite rq ctx val => Sys2Proof.Machine.execHubSpecWrite rq ctx val s
  | .pwrBallastWrite rq val => Sys2Proof.Machine.execPwrBallastWrite rq val s
  | .pwrCtlWrite rq val => Sys2Proof.Machine.execPwrCtlWrite rq val s
  | .errTilthWWrite rq val => Sys2Proof.Machine.execErrTilthWWrite rq val s
  | .pmcSmpTailWrite rq ctx val => Sys2Proof.Machine.execPmcSmpTailWrite rq ctx val s
  | .registerWrite rq off size val => Sys2Proof.Machine.execRegisterWrite rq off size val s
  | .registerReadLatch rq off size => Sys2Proof.Machine.execRegisterReadLatch rq off size s
  | .hostLinkUp port width gen => Sys2Proof.Machine.execHostLinkUp port width gen s
  | .hostLinkDown port => Sys2Proof.Machine.execHostLinkDown port s
  | .portReadyAgain port => Sys2Proof.Machine.execPortReadyAgain port s
  | .pkgrstOtherPortNoLink port => Sys2Proof.Machine.execPkgrstOtherPortNoLink port s
  | .identTimeout port => Sys2Proof.Machine.execIdentTimeout port s

end Sys2Proof.Machine
end

