-- ==== Sys2Proof/Machine/Lanes.lean ====
section
/-! DEFINITION. What the local stores do in a gc: a lane in each bank, for the owner of the slot (R57, R63, R67-R69), and
the errors that checks of memory find (R58, R77, R364, R379, R381). -/

namespace Sys2Proof.Machine

open Sys2Proof

/-- R61: a line is in its store: its descriptor goes on, unless its segment has been stopped. -/
def lineIn (e : PendW) (va : Nat) (s : State) : State :=
  let stopped : Bool := match segOf s e.ctx with | some r => r.stop.isSome | none => true
  match outDOf s e.g e.ser with
  | some d => match issOf s e.g d with
    | some i => if stopped then s
        else settle e.g (touchLines i (vecLines s i) (fillLine e.g i.pl (lineOf va)
          (e.all.map (fun w => BitVec.ofNat 8 w.2.2.1)) (e.all.any (fun w => w.2.2.2)) s))
    | none => s
  | none => s

/-- R61, R62: a line has left its store, and goes to its horizon as a request; a descriptor that waits for it is done where
its object is gone. -/
def lineOut (e : PendW) (va : Nat) (s : State) : State :=
  match objAt s e.ctx va with
  | some o =>
    let offs := (List.range 64).map (fun i => va - o.base + i)
    addReqAt (dieOfPed2 (logicalPed2 e.g)) e.ctx e.g e.ser o (va - o.base) offs
      (.back (List.zip offs (e.all.map (fun w => BitVec.ofNat 8 w.2.2.1))) (e.all.any (fun w => w.2.2.2))) none 0 s
  | none => match outDOf s e.g e.ser with
    | some d => if d.wait != .requests || fetchOpen s e.g e.ser then s else workDone e.g e.ser s
    | none => s

/-- What a lane that has passed brings about: bytes of a checked view (R152), bytes of a GET (R69), and, with the last
lane of its writes, a granule of a ladder that is served (R185) or an access that ends (R69). -/
def lanePassed (q base : Nat) (e : PendW) (lane : Nat) (s : State) : State :=
  let mine := e.ws.filter (fun w => w.1 / 32 == lane)
  let s := if e.view = 0xFF || mine == [] then s
    else noteBytes e.ctx e.g e.view ((touched mine).map (fun a => (a, (storeByte s q (base + a)).1))) s
  let got := (e.rd.filter (fun r => r.1 / 4 == lane)).flatMap (fun r =>
    (List.range r.2.2).map (fun i => (r.2.1 + i, storeByte s q (base + r.1 + i))))
  let done : Bool := e.ws.all (fun w => w.1 / 32 == lane) && e.rd.all (fun r => r.1 / 4 == lane)
  let s := if done then updPhys q (fun x => { x with pend := x.pend.filter (fun y => y.id != e.id) }) s else s
  match e.why with
  | .desc => s
  | .xfer _ => s
  | .burst _ _ => s
  | .fill va => if done then lineIn e va s else s
  | .back va => if done then lineOut e va s else s
  | .rung n =>
    match outDOf s e.g e.ser with
    | none => s
    | some o =>
      let js := mine.foldl (fun l w => addOnce (granuleOf o w.1) l) []
      let s := rungServed e.g e.ser n js s
      if o.wait != .requests || fetchOpen s e.g e.ser then s else workDone e.g e.ser s
  | .access id =>
    let s := updFab (fun b => { b with
      accs := updWhere (fun a => a.id == id) (fun a => { a with got := a.got ++ got }) b.accs }) s
    if accessWaits s id then s
    else match s.fab.accs.find? (fun a => a.id == id) with
      | some a => endAccess a s
      | none => s

/-- R106, R388: the lane belongs to a pass or an MV that is abandoned: what was emitted stands, and no more follows. -/
def laneGone (s : State) (e : PendW) : Bool :=
  e.why == .desc && (e.owner == 1 || e.owner == 2) &&
    (s.err.stopped.isSome || (match segOf s e.ctx with | some r => r.stop.isSome | none => false))

/-- R57: bank b of a store in this gc. A lane of a context whose partition is gone has nowhere to go. -/
def bankSlot (q b : Nat) (s : State) : State :=
  let owner := bits ((ped2Of s (q / 256)).wheels.getD b 0).toNat (3 * (s.clk.pcc.toNat % 16)) 3
  match nextLane s.clk.pcc owner b ((physOf s q).pend.filter (fun e => !(laneGone s e))) with
  | none => s
  | some (e, lane) =>
    match lsPartOf s (q / 256) e.ctx with
    | some x => lanePassed q (x.base * 16384) e lane (landLane q (x.base * 16384) e lane s)
    | none => updPhys q (fun x => { x with pend := x.pend.filter (fun y => y.id != e.id) }) s

/-- R63: the banks of every store with lanes to pass. -/
def laneStep (s : State) : State :=
  (s.phys.filter (fun e => e.2.pend != [])).foldl (fun s e =>
    bankSlot e.1 3 (bankSlot e.1 2 (bankSlot e.1 1 (bankSlot e.1 0 s)))) s

/-! ## Errors in memory (R58, R77, R364, R379, R381) -/

def noteCorrected (s : State) : State := { s with err := { s.err with cCe := s.err.cCe + 1 } }

/-- R381: the descriptor buffer, a view file or a mask table of a ped-2 holds an error that cannot be corrected. -/
def loseStep (ctx : Nat) (s : State) : State := stopSeg ctx .memory stSTEP_LOST s

/-- An error that a check of this gc finds. When one is found, where, and how bad it is, is a free choice: kind 1 word
`w` of local store q (an engine's access or the patrol), 2 row `w` of the accumulator file of grain q, 3 and 4 word `w` of
frame q of HZ1 or HZ2 (a read or the patrol), 5 a descriptor buffer of grain q, 6 the view file or mask table of ped-2 q.
A bank counts a correction in its ped-2 (R58). DESIGN CHOICE (log 116). -/
def eccStep (s : State) : State :=
  let f := Config.eccFound s.freeCtr
  let q := f.2.1
  let w := f.2.2.1
  let bad := f.2.2.2
  let s := { s with freeCtr := s.freeCtr + 1 }
  if f.1 = 1 && q / 256 < ped2Count && w < 3072 then
    if bad then updPhys q (fun x => { x with poison := addOnce w x.poison }) s
    else noteCorrected (updPed2 (q / 256) (fun p => { p with corr := p.corr + 1 }) s)
  else if f.1 = 2 && w < 512 && (nmGet s.grains q).isSome then
    if bad then updGrain q (fun gr => { gr with acc := nmSet w { nmGetD gr.acc w { vals := List.replicate 8 0, open_ := false, tagA := 0, tagW := 0, poison := false } with poison := true } gr.acc }) s
    else noteCorrected s
  else if f.1 = 3 && q < 50331648 && w < 1024 then
    if bad then updHz (fun h => { h with
      pois1 := addOnce (1024 * q + w) h.pois1
      toRetire := if q ∈ h.used1 then addOnce (1, q, w % 48) h.toRetire else h.toRetire }) s
    else noteCorrected s
  else if f.1 = 4 && q < hz2Frames s && w < 1024 then
    if bad then updHz (fun h => { h with
      pois2 := addOnce (1024 * q + w) h.pois2
      toRetire := if q ∈ h.used2 then addOnce (2, q, w % 48) h.toRetire else h.toRetire }) s
    else noteCorrected s
  else if f.1 = 5 && bad then
    match nmGet s.grains q with
    | some gr => loseStep gr.ctx s
    | none => s
  else if f.1 = 6 && bad then
    match (ped2Of s q).lease with
    | some l => loseStep l.ctx s
    | none => s
  else s

end Sys2Proof.Machine
end

