-- ==== Sys2Proof/Machine/Tick.lean ====
section
/-! DEFINITION. One gc: what happens at every gc whatever is commanded. The PCC advances, the throttle stretches (R397)
and its level changes (R398), waiting threads are charged (R466, R467), conditions are counted (R470, R471), leased and
busy grains are accounted (R340), and ped-1s are gated and woken (R395, R396). -/

namespace Sys2Proof.Machine

open Sys2Proof

/-! ## Stalls (R465-R467) -/

/-- R465: the class of a fine cause. -/
def causeClass (c : Nat) : Nat :=
  if c ≤ 0x02 then 0 else if c ≤ 0x04 then 1 else if c ≤ 0x0A then 2 else if c ≤ 0x0F then 3 else if c ≤ 0x12 then 4
  else if c = 0x13 then 5 else if c ≤ 0x15 then 6 else 7

/-- R466: the fine cause that a thread is charged to in this gc. -/
def chargedTo (th : Thr) : Option Nat :=
  if th.cause ≠ 0 && (th.st == .waitFetch || th.st == .waitEngine || th.st == .waitSync || th.st == .waitWindow)
  then some th.cause else none

def chargeThr (th : Thr) : Thr :=
  match chargedTo th with
  | some c => { th with charged := nmUpdD c 0 (· + 1) th.charged }
  | none => th

/-- R466: in this gc a thread stands in the state that the table of R39 gives it and is charged to what holds it now; one
in WAIT_TIME leaves it by NOTBEFORE_REACHED. -/
def refresh (s : State) (e : Nat × Grain) : Nat × Grain :=
  let now := settled s e.1 e.2
  (e.1, { e.2 with thr := (List.zip e.2.thr now.thr).map (fun x =>
    if x.1.2.st == .waitTime && x.2.2.st == .ready then x.1 else x.2) })

/-- R467: the fixed counters of a grain. -/
def chargeGrain (gr : Grain) : Grain :=
  let cs := gr.thr.filterMap (fun e => (chargedTo e.2).map causeClass)
  { gr with
    thr := gr.thr.map (fun e => (e.1, chargeThr e.2))
    stall := (List.range 8).map (fun k => satAdd 48 (gr.stall.getD k 0) (cs.filter (· == k)).length) }

/-! ## Conditions (R470, R471) -/

/-- R340, R470: an engine is busy while a descriptor issued to it has not completed. DEDUCED (log 37). -/
def engineRuns (gr : Grain) (e : Nat) (pick : Nat → Bool) : Bool :=
  gr.out.any (fun o => engineOf (dOp o.desc) == some e && pick o.t)

/-- The threads that a selector counts. -/
def selThread (v t : Nat) : Bool := bits v 20 8 == 0 || bitAt v (20 + t)

/-- A thread is charged to the cause that a STALL selector names, on the engine that it names. DEDUCED (log 37). -/
def stallHolds (v t : Nat) (th : Thr) : Bool :=
  match chargedTo th with
  | none => false
  | some c =>
    (bits v 12 8 == 0 || bits v 12 8 == c) && selThread v t &&
      (bits v 9 3 == 0 || (bufDesc th).bind (fun d => engineOf (dOp d)) == some (bits v 9 3))

/-- R470: where the condition of selector w holds on the grain of rank k, as rank x 8 + thread. -/
def holdsOn (s : State) (d : Ped2) (p k : Nat) (w : W64) : List Nat :=
  let v := w.toNat
  let g := logicalId p k
  let one (b : Bool) : List Nat := if b then [8 * k] else []
  match nmGet s.grains g with
  | none => match bits v 0 8 with
    | 0x01 => one true
    | 0x04 => one (decide (ped1Of s g ∈ d.gated))
    | _ => []
  | some gr => match bits v 0 8 with
    | 0x01 => one true
    | 0x02 => one (engineRuns gr (bits v 9 3) (selThread v))
    | 0x03 => one gr.bal.isSome
    | 0x04 => one (decide (ped1Of s g ∈ d.gated))
    | 0x05 => (gr.thr.filter (fun e => stallHolds v e.1 e.2)).map (fun e => 8 * k + e.1)
    | _ => []

/-- The ranks that a selector counts. -/
def selRanks (s : State) (c : Ctx) (p : Nat) (w : W64) : List Nat :=
  let r := bits w.toNat 28 9
  (List.range 250).filter (fun k => (r == 0x1FF || r == k) && inScope s c.num c.pmc.scope (logicalId p k))

def holdsNow (s : State) (c : Ctx) (d : Ped2) (p : Nat) (w : W64) : List Nat :=
  if 1 ≤ bits w.toNat 0 8 && bits w.toNat 0 8 ≤ 5 then (selRanks s c p w).flatMap (fun k => holdsOn s d p k w) else []

/-- R471: the type C events of a leased ped-2. The first gc of a lease follows one without any condition. -/
def countPed2 (s : State) (p : Nat) (d : Ped2) : Ped2 :=
  match d.lease with
  | none => { d with prev := [] }
  | some l =>
    match ctxOf s l.ctx with
    | none => d
    | some c =>
      let before := if l.startUs = s.clk.wallUs then [] else d.prev
      let now := (List.range 16).map (fun i => holdsNow s c d p (c.pmc.sel.getD i 0))
      let add (i : Nat) : Nat :=
        let h := now.getD i []
        if bitAt (c.pmc.sel.getD i 0).toNat 8 then (h.filter (fun x => !(decide ((i, x) ∈ before)))).length else h.length
      { d with
        ctr := if c.pmc.sel.all (· == 0) then d.ctr
          else (List.range 16).map (fun i => d.ctr.getD i 0 + BitVec.ofNat 64 (add i))
        prev := (List.range 16).flatMap (fun i =>
          if bitAt (c.pmc.sel.getD i 0).toNat 8 then (now.getD i []).map (fun x => (i, x)) else []) }

/-! ## SCH_ACCT (R340) -/

/-- Units of 1/1,024 grain-microsecond of n grains in a gc that lasts us. -/
def gcUnits (n : Nat) (us : Rat) : Rat := us * mkRat (Int.ofNat (n * 1024)) 1

/-- The grains of context c with engine e busy. -/
def busyGrains (s : State) (ctx e : Nat) : Nat :=
  (s.grains.filter (fun x => x.2.ctx == ctx && leasedTo s ctx x.2.ped2 && engineRuns x.2 e (fun _ => true))).length

/-- R399: time that a boundary hold takes is part of no lease. -/
def holdNow (s : State) (d : Ped2) : Bool :=
  match d.holdTill with | some t => decide (s.clk.pcc.toNat < t.toNat) | none => false

def leasedGrains (s : State) (ctx : Nat) : Nat :=
  250 * (s.ped2s.filter (fun e => match e.2.lease with | some l => l.ctx == ctx && !(holdNow s e.2) | none => false)).length

/-- Read from the spec by inference: DEDUCED (log 38). -/
def accountCtx (s : State) (us : Rat) (c : Ctx) : Ctx :=
  let u (e : Nat) : Rat := gcUnits (busyGrains s c.num e) us
  { c with acct := { c.acct with
      leased := c.acct.leased + gcUnits (leasedGrains s c.num) us, arr := c.acct.arr + u 1, mvp := c.acct.mvp + u 2
      vec := c.acct.vec + u 3, dma := c.acct.dma + u 4, sve := c.acct.sve + u 5, red := c.acct.red + u 6 } }

/-! ## Sieves (R249) -/

/-- DLOG_STALL: rows of an APPLY wait for delta-log entries. -/
def stallSieve (s : State) (t : Sieve) : Sieve :=
  if t.waits != [] && applyRuns s t then { t with ctrs := t.ctrs.set 14 (t.ctrs.getD 14 0 + 1) } else t

/-! ## The gc -/

/-- R397: the gc at PCC t lasts two periods at a level above t modulo 16. -/
def stretched (s : State) : Bool := decide (s.clk.pcc.toNat % 16 < s.pwr.level)

/-- R397, R398: the level changes at a multiple of 16 only. -/
def warmStep (s : State) : State := if s.clk.pcc.toNat % 16 = 0 then moveLevel s else s

/-- R346: the wall time at which a segment reaches gc LENGTH. -/
def noteDue (s : State) (r : RunSeg) : RunSeg :=
  if r.dueUs.isNone && r.d.length ≤ segGc s r then { r with dueUs := some s.clk.wallUs } else r

/-- One gc, once the PCC runs (R393). DESIGN CHOICE (log 2, 104). -/
def tick (s : State) : State :=
  if !s.clk.pccRun then s
  else
    let s := laneStep (eccStep s)
    let n := if stretched s then 2 else 1
    let us : Rat := mkRat n (max s.pwr.clk 1)
    let s := { s with grains := s.grains.map (refresh s) }
    let charge (e : Nat × Grain) : Nat × Grain := if leasedTo s e.2.ctx e.2.ped2 then (e.1, chargeGrain e.2) else e
    let s := warmStep { s with
      ctxs := s.ctxs.map (fun e => (e.1, accountCtx s us e.2))
      ped2s := s.ped2s.map (fun e => (e.1, countPed2 s e.1 e.2))
      grains := s.grains.map charge
      sieves := s.sieves.map (stallSieve s)
      pwr := { s.pwr with stretch := s.pwr.stretch + (if stretched s then 1 else 0) }
      clk := { s.clk with pcc := s.clk.pcc + 1, wallUs := s.clk.wallUs + us } }
    gateStep { s with segs := s.segs.map (noteDue s) }

end Sys2Proof.Machine
end

