-- ==== Sys2Proof/Machine/PciConfig.lean ====
section
/-! DEFINITION. Configuration space as a function of a port presents it (R4, R295-R299): its header, its base address
registers, and its capabilities with the state that they show. The commands of this block have no row for a configuration
access, so this is what such a read finds. The header's layout and the offsets in it are PCI Express's own.
PRESUMED (log 61). -/

namespace Sys2Proof.Machine

open Sys2Proof

/-- A base address register pair: 64-bit, of a size, prefetchable or not (R298, R299). -/
structure PciBar where
  index : Nat
  size : Nat
  prefetch : Bool
  deriving DecidableEq, Repr

/-- The base address registers of a PF (R299); of a VF those of the SR-IOV capability (R298). -/
def pciBars (s : State) (fn : Nat) : List PciBar :=
  if fn % 64 = 0 then
    [{ index := 0, size := 67108864, prefetch := false }, { index := 2, size := 8388608, prefetch := false },
     { index := 4, size := (portOf s (fn / 64)).bar4, prefetch := true }]
  else [{ index := 0, size := 65536, prefetch := false }, { index := 2, size := 131072, prefetch := false }]

/-- What a function's capabilities show (R297, R298). -/
inductive PciCap where
  | powerManagement (d3hot : Bool)                  -- D0 and D3hot
  | pciExpress (maxPayload : Nat) (flr extendedTags tenBitTags : Bool) (width rate : Nat)   -- with Link Status (R295)
  | msix (vectors : Nat) (enable mask : Bool)
  | aer
  | ari
  | sriov (totalVfs initialVfs firstOffset stride pages vfDevice : Nat) (enable : Bool) (bars : List PciBar)
  | resizableBar (bar least most size : Nat)
  | serialNumber (n : W64)
  | doe
  deriving DecidableEq, Repr

/-- R297: the capabilities of a function, and no others. -/
def pciCaps (s : State) (fn : Nat) : List PciCap :=
  let p := portOf s (fn / 64)
  let both := [PciCap.powerManagement (fnOf s fn).d3hot, .pciExpress 512 true true true p.width p.gen, .msix 2048 (fnOf s fn).msixEn (fnOf s fn).msixMask, .aer,
    .ari]
  if fn % 64 ≠ 0 then both
  else both ++ [.sriov 63 63 1 1 0x11 0x0049 p.vfEnable (pciBars s (fn + 1)), .resizableBar 4 268435456 68719476736 p.bar4,
    .serialNumber (if s.boot.serialShown then s.boot.fact.serial else 0), .doe]

/-- The Command register: Memory Space Enable and Bus Master Enable. -/
def pciCommand (f : Fn) : Nat := 2 * b2n f.mse + 4 * b2n f.bme

/-- The type bits of base address register i of a PF: 64-bit, prefetchable or not. -/
def pciBarWord (s : State) (fn i : Nat) : List Byte :=
  if fn % 64 ≠ 0 then zeros 4
  else match (pciBars s fn).find? (fun b => b.index == i) with
    | some b => leBytes 4 (4 + 8 * b2n b.prefetch)
    | none => zeros 4

/-- R296: the 64 bytes of a function's header, with its base addresses as they read unassigned. -/
def pciHeader (s : State) (fn : Nat) : List Byte :=
  let pf := fn % 64 = 0
  leBytes 2 (if pf then 0x1F8C else 0xFFFF) ++ leBytes 2 (if pf then 0x0048 else 0xFFFF) ++
    leBytes 2 (pciCommand (fnOf s fn)) ++ leBytes 2 0x10 ++ leBytes 1 (revision s) ++ leBytes 3 0x120000 ++ zeros 4 ++
    (List.range 6).flatMap (pciBarWord s fn) ++ zeros 4 ++ leBytes 2 0x1F8C ++ leBytes 2 (if pf then 0x0048 else 0x0049) ++
    zeros 13 ++ zeros 3

/-- How a configuration read ends: with Configuration Request Retry Status, or with data. -/
inductive CfgAnswer where
  | retry
  | data (b : List Byte)
  deriving DecidableEq, Repr

/-- R324, R407: a read of n header bytes at off. Until a port or function that was reset is ready again, the answer is
Configuration Request Retry Status. -/
def pciConfigRead (s : State) (fn off n : Nat) : CfgAnswer :=
  if fnOff s fn then .retry else .data (slice (pciHeader s fn) off n)

end Sys2Proof.Machine
end

