-- ==== Sys2Proof/Safety.lean ====
section
/-! DEFINITION. What a good run is, in the terms that the statements use: the outcome of a command, a command of a ring
that is answered, a descriptor that issues, and the shape that the clocks and the memories keep. -/

namespace Sys2Proof.Machine

open Sys2Proof

/-- The step answers a next state: no fault and no refusal. -/
def goesOn (s : State) : Prop := ∃ t, step s = .next t

/-- Command cid has ended with status st and these 16 bytes of result (R313). -/
def doneWith (s : State) (cid : Nat) (st : W16) (res : List Byte) : Prop :=
  (cmdOf s cid).bind (fun c => c.done) = some (st, pad 16 res)

/-- What the supplies and the reset say of the clocks (R393, R405, R487): the main rails need the standby rail, the PCC
runs only with the main rails on, and it stands at 0, with no wall time, while it is not let go. -/
def clocksOk (s : State) : Prop :=
  (s.clk.mainEn = true → s.clk.vstby = true) ∧ (s.clk.pccRun = true → s.clk.mainEn = true) ∧
    (s.clk.pccRun = false → s.clk.pcc = 0 ∧ s.clk.wallUs = 0)

/-- Every memory of the package, of its firmware slots and of its hosts in the canonical form. -/
def memoriesOk (s : State) : Prop :=
  Memory.wf s.hz.hz1 = true ∧ Memory.wf s.hz.hz2 = true ∧ (∀ d, Memory.wf (nmGetD s.hz.hz3 d []) = true) ∧
    Memory.wf s.hz.host0 = true ∧ Memory.wf s.hz.host1 = true ∧ Memory.wf s.flash.slotA = true ∧
    Memory.wf s.flash.slotB = true ∧ ∀ q, Memory.wf (physOf s q).ls = true

/-- Every byte of every memory of t is that of s: of the horizons, the hosts, the firmware slots and the local stores. -/
def sameBytes (s t : State) : Prop :=
  t.hz.hz1 = s.hz.hz1 ∧ t.hz.hz2 = s.hz.hz2 ∧ t.hz.hz3 = s.hz.hz3 ∧ t.hz.host0 = s.hz.host0 ∧ t.hz.host1 = s.hz.host1 ∧
    t.flash.slotA = s.flash.slotA ∧ t.flash.slotB = s.flash.slotB ∧ ∀ q, (physOf t q).ls = (physOf s q).ls

/-- Bit k of a memory, bit 0 the least significant of the byte at address 0 (R7). -/
def memBit (m : Mem) (k : Nat) : Bool := (memByte m (k / 8)).toNat.testBit (k % 8)

/-- The commands that store nothing: they move no byte of a horizon, a local store, a firmware slot or a host. MV and
ARR_LOADW are among them: results land lane by lane, in slots of their owner (R63, R68, log 84). -/
def storesNothing : Instr → Bool
  | .ping .. | .ctxCreate .. | .setShare .. | .objAlloc .. | .objPlace .. | .objMigrate .. | .planLoad ..
  | .planUnload .. | .segFence .. | .winClose .. | .groupSet .. | .secureNow .. | .securePolicy .. | .replayStep ..
  | .pmcConfig .. | .pmcSnapshot .. | .sampleConfig .. | .fwStatus .. | .fwActivate .. | .fwAbort ..
  | .dumpConfig .. | .tilthRead .. | .interruptTimeExpire .. | .commandRingDoorbell .. | .adminDoorbell ..
  | .pedDoorbell .. | .adminRingEnable .. | .adminRingDisable .. | .ringTableWrite .. | .fnAperWrite ..
  | .bar4Access .. | .busMasterDisable .. | .busMasterEnable .. | .perstDeassert .. | .pkgrstRequestLapse ..
  | .segmentWatchdog .. | .fabricDrainEnd .. | .diePark .. | .grainPllLock .. | .hubTransferStart ..
  | .descriptorBurstArrive .. | .notbeforeReached .. | .arrLoadw .. | .mv .. | .barrier .. | .semWait ..
  | .semSignal .. | .deadline .. | .clodBegin .. | .clodCommit .. | .clodAbort .. | .specBegin .. | .secureMark ..
  | .ballast .. | .arrayIdle .. | .ballastGapExpire .. | .arrayChecksumFault .. | .mvRowCheckFault ..
  | .vectorCheckFault .. | .spareCheckDone .. | .patrolScrubSlot .. | .cacheFillDone ..
  | .calibrationWindowStart .. | .calibrationWindowEnd .. | .ddr5ChannelFailed .. | .portTrained ..
  | .identReceived .. | .portRetrainDone .. | .windowAccessArrive .. | .bucketHoldNotice .. | .lnkTorusWrite ..
  | .lnkCreditWrite .. | .riskExchangeResult .. | .tilthPeriod .. | .clockSlewDone | .errRingTailWrite ..
  | .errFatalClear .. | .lockstepMismatch .. | .hubLogicMismatch .. | .aoTick .. | .helperEraseDone
  | .powerSample .. | .throttleSaturationTimeout | .boundaryHoldAdjust | .ped1Prewake .. | .avsbusTimeout ..
  | .firmwareLoadDone .. | .dieBringupDone .. | .configRecordSelect | .hbmTrainingDone .. | .ddr5TrainingDone ..
  | .nvmeEnumDone .. | .startupSelftestDone .. | .configRecordWrite | .backgroundTestPiece .. | .calibrationDone ..
  | .snapshotStamp | .fwLoadDone | .fwHandoverDone | .fwSwitchStamp | .fwCommit | .fwActivateDeadline
  | .fwRevertDone | .fwStandbyReady | .debugUnlock .. | .getVersion .. | .getCapabilities ..
  | .negotiateAlgorithms .. | .getDigests .. | .getCertificate .. | .challenge .. | .getMeasurements ..
  | .spdmUnsupportedRequest .. | .guardedWriteA .. | .guardedWindowExpire .. | .pwrLimitPair .. | .pwrClkctlPair ..
  | .secAlarmPair .. | .secAlarmClear .. | .secEraseVolatile .. | .secEraseHelper .. | .secSlotPair ..
  | .secTestPair .. | .secScrubPair .. | .hubNumctlWrite .. | .hubNumringWrite .. | .hubSpecWrite ..
  | .pwrBallastWrite .. | .pwrCtlWrite .. | .errTilthWWrite .. | .pmcSmpTailWrite .. | .registerReadLatch ..
  | .hostLinkUp .. | .hostLinkDown .. | .portReadyAgain .. | .identTimeout .. => true
  | .ctxDestroy .. | .ctxKill .. | .objFree .. | .objFallback .. | .segRun .. | .winOpen .. | .bucketPolicy ..
  | .rollback .. | .digestQuery .. | .strataRead .. | .selfTest .. | .calibrate .. | .fwChunk .. | .attestQuote ..
  | .measureLog .. | .commandFetch .. | .completionWrite .. | .portReset .. | .hostLinkDownTimeout .. | .pfFlr ..
  | .vfFlr .. | .hubPkgrstPair .. | .pkgrstPin | .segmentStart .. | .segmentEnd .. | .deepSaveDone ..
  | .deepRestoreDone .. | .hubTransferComplete .. | .descriptorComplete .. | .arrPass .. | .arrConv .. | .vec ..
  | .vecDeriv .. | .rngFill .. | .dmaGet .. | .dmaPut .. | .dmaPutFlush .. | .winPut .. | .winGet ..
  | .sieveGather .. | .sieveScatterAdd .. | .sieveScatterApply .. | .redPost .. | .redWait .. | .deadlineDue ..
  | .deadlineRung2Cutoff .. | .deadlineRung3Cutoff .. | .clodDecision .. | .clodDecisionApply .. | .specResolve ..
  | .route .. | .pmcMark .. | .endOp .. | .tagGrant .. | .horizonResponse .. | .migrationCopyDone ..
  | .promotionCopyDone .. | .nvmeCompletion .. | .driveFailed .. | .sieveRowArrive .. | .dlogMergeGranuleDone ..
  | .lnkPortEnable .. | .flitReceive .. | .nakReceived .. | .portLeaveUp .. | .windowResponseArrive ..
  | .remoteTimeout .. | .reductionFlitArrive .. | .bucketTimeout .. | .bucketFailureNotice ..
  | .bucketResumeNotice .. | .lnkRouteWrite .. | .securePointComplete .. | .securePointFail .. | .fatalError
  | .powerOn | .mainEnAssert | .mainEnDeassert | .coldStart | .enabledMapBuild | .trialBootTimeout
  | .backgroundPieceDone .. | .intrusiveTestDone .. | .snapshotWriteDone | .fwVerifyDone | .registerWrite ..
  | .pkgrstOtherPortNoLink .. => false

/-- Thread t of grain g issues the descriptor of i in this gc: it is at its turn, its engine is free, nothing holds the
descriptor back (R40, R41, R44, R45), and neither the conditions common to all opcodes nor those in `faults` hold
(R46). -/
def issues (op : Nat) (faults : State → Iss → List (Bool × Nat)) (g t : Nat) (s : State) (i : Iss) : Prop :=
  ∃ gr th r x st,
    nmGet s.grains g = some gr ∧ nmGet gr.thr t = some th ∧ segOf s gr.ctx = some r ∧ progOf r gr.ped2 = some x ∧
    th.stream = some st ∧ live s gr th = true ∧ nextDesc s g gr th = some i.d ∧ dOp i.d = op ∧
    (th.spec == .skip && !(isRedo th) && (match th.task with | some k => k.left != 0 | none => false) && op != 0x10) = false ∧
    waitBefore s gr t th r x.paired i.d = none ∧ engineBusy s gr t r x.paired (engineOf op) = false ∧
    i = { g := g, t := t, ser := s.nextSer, ctx := gr.ctx, ped2 := gr.ped2, pl := placeOf s g, r := r, d := i.d
          daddr := descAddr s gr.ctx st (match th.redo with | [] => th.pos | q :: _ => q)
          pos := (match th.redo with | [] => th.pos | q :: _ => q), home := st.home } ∧
    (commonFaults s gr th t r x i.pl i.d).all (fun e => !e.1) = true ∧ (faults s i).all (fun e => !e.1) = true

/-- Thread t of grain g has descriptor d before it: the segment of its context runs, the thread is live and its program
has a stream, and no task in SKIP passes d over (R181). -/
def atTurn (g t : Nat) (s : State) (gr : Grain) (th : Thr) (r : RunSeg) (x : Prog) (d : List Byte) : Prop :=
  nmGet s.grains g = some gr ∧ nmGet gr.thr t = some th ∧ segOf s gr.ctx = some r ∧ progOf r gr.ped2 = some x ∧
    th.stream.isSome = true ∧ live s gr th = true ∧ nextDesc s g gr th = some d ∧ th.spec ≠ .skip

end Sys2Proof.Machine
end

