-- ==== Sys2Proof/Certificates/Slice0/Obligations.lean ====
section
/-! DEFINITION. The statements about the model, for the provers: what each row does and that it completes, the rules of the
spec over the whole machine, and the invariants that every step keeps. -/

open Sys2Proof Sys2Proof.Machine

/-- Ports, links and bus mastering (R322-R325, R407): each row acts whenever its port is one of the two, and changes
nothing but what it names. PORT_RESET puts the port into reset; PERST# high again leaves it there; a link comes up
with its width and rate (R295: x1 to x16, rates 1 to 5) only with the main rails on and PERST# high, and a link that
goes down takes the time from the RTC; a port that is ready again, and every function of it, leave reset; a request
for a package reset lapses; a function's bus mastering is switched, and what was pending is sent. -/
def Obligations.PortRowsAct : Prop :=
  (∀ (s : State) (p : Nat), p ≤ 1 → ∃ t, exec (.portReset p) s = .next t ∧
    t = resetPort p (updPort p (fun x => { x with perst := true, inReset := true }) s)) ∧
  (∀ (s : State) (p : Nat), p ≤ 1 → ∃ t, exec (.perstDeassert p) s = .next t ∧
    portOf t p = { portOf s p with perst := false } ∧ portOf t (1 - p) = portOf s (1 - p) ∧
    t = { s with port0 := t.port0, port1 := t.port1 }) ∧
  (∀ (s : State) (p w g : Nat), p ≤ 1 → s.clk.mainEn = true → (portOf s p).perst = false → w ∈ [1, 2, 4, 8, 16] →
    1 ≤ g → g ≤ 5 → ∃ t, exec (.hostLinkUp p w g) s = .next t ∧
    portOf t p = { portOf s p with linkUp := true, width := w, gen := g } ∧ portOf t (1 - p) = portOf s (1 - p) ∧
    t = { s with port0 := t.port0, port1 := t.port1 }) ∧
  (∀ (s : State) (p : Nat), p ≤ 1 → (portOf s p).linkUp = true → ∃ t, exec (.hostLinkDown p) s = .next t ∧
    portOf t p = { portOf s p with linkUp := false, width := 0, gen := 0, downRtc := s.clk.rtc } ∧
    portOf t (1 - p) = portOf s (1 - p) ∧ t = { s with port0 := t.port0, port1 := t.port1 }) ∧
  (∀ (s : State) (p : Nat), p ≤ 1 → (portOf s p).linkUp = false → ∃ t, exec (.hostLinkDownTimeout p) s = .next t ∧
    t = resetPort p (updPort p (fun x => { x with inReset := true }) s)) ∧
  (∀ (s : State) (p : Nat), p ≤ 1 → (portOf s p).perst = false → s.boot.ready = true →
    ∃ t, exec (.portReadyAgain p) s = .next t ∧ portOf t p = { portOf s p with inReset := false } ∧
    portOf t (1 - p) = portOf s (1 - p) ∧
    (∀ fn f, nmGet s.fns fn = some f →
      nmGet t.fns fn = some (if fn / 64 = p then { f with inReset := false } else f)) ∧
    t = { s with port0 := t.port0, port1 := t.port1, fns := t.fns }) ∧
  (∀ (s : State) (p : Nat), p ≤ 1 → ∃ t, exec (.pkgrstRequestLapse p) s = .next t ∧
    portOf t p = { portOf s p with pkgReq := false } ∧ portOf t (1 - p) = portOf s (1 - p) ∧
    t = { s with port0 := t.port0, port1 := t.port1 }) ∧
  (∀ (s : State) (fn : Nat), fnOff s fn = false → ∃ t, exec (.busMasterDisable fn) s = .next t ∧
    fnOf t fn = { fnOf s fn with bme := false } ∧ (∀ k, k ≠ fn → fnOf t k = fnOf s k) ∧ t = { s with fns := t.fns }) ∧
  (∀ (s : State) (fn : Nat), fnOff s fn = false → (fnOf s fn).pba = [] → ∃ t, exec (.busMasterEnable fn) s = .next t ∧
    fnOf t fn = { fnOf s fn with bme := true } ∧ (∀ k, k ≠ fn → fnOf t k = fnOf s k) ∧ t = { s with fns := t.fns })

/-- Resets of functions and of the package (R324, R325, R489): FLR of a PF resets every function of its port, FLR of a
VF that VF, and with VF Enable cleared all VFs; the package-reset pin, and a port without a link for 1 s while the
other port's request is pending, start the sequence again. The reset kills the contexts of those functions, forgets
their commands, puts them in reset and clears VF Enable of the port where its PF or all its VFs are reset (R298),
and what is read-only stays (the model's reading, notes/assumptions/60). Each function shows its identities (R4,
R296), and a PF its SR-IOV and Resizable BAR values (R297, R298), in a header laid out as PCI Express lays it out
(the model's choice, notes/assumptions/61). -/
def Obligations.FunctionAndPackageResets : Prop :=
  (∀ (s : State) (p : Nat), p ≤ 1 → (portOf s p).inReset = false → ∃ t, exec (.pfFlr p) s = .next t ∧
    (∀ c ∈ t.cmds, c.fn / 64 ≠ p) ∧
    (∀ fn, fn < 128 → fn / 64 = p → (fnOf t fn).inReset = true ∧ (fnOf t fn).slots = [] ∧ (fnOf t fn).ctl = 0) ∧
    t = resetFns (fun f => f / 64 == p) (updPort p (fun x => { x with vfEnable := false }) s)) ∧
  (∀ (s : State) (p v : Nat), p ≤ 1 → (portOf s p).inReset = false → 1 ≤ v → v ≤ 63 →
    ∃ t, exec (.vfFlr p (some v)) s = .next t ∧ (∀ c ∈ t.cmds, c.fn ≠ 64 * p + v) ∧
    (fnOf t (64 * p + v)).inReset = true ∧ (fnOf t (64 * p + v)).slots = []) ∧
  (∀ (s : State) (p : Nat), p ≤ 1 → (portOf s p).inReset = false → ∃ t, exec (.vfFlr p none) s = .next t ∧
    (∀ fn, fn < 128 → fn / 64 = p → fn % 64 ≠ 0 → (fnOf t fn).inReset = true) ∧
    t = resetFns (fun f => f / 64 == p && f % 64 != 0) (updPort p (fun x => { x with vfEnable := false }) s)) ∧
  (∀ s : State, s.clk.vstby = true → s.clk.mainEn = true → ∃ t, exec .pkgrstPin s = .next t ∧
    t.boot.running = true ∧ t.boot.phase = 1 ∧ t.clk = { s.clk with pccRun := false, pcc := 0, wallUs := 0 } ∧
    t.ctxs = [] ∧ t.cmds = [] ∧ t.segs = [] ∧ t.flash = s.flash) ∧
  (∀ (s : State) (p : Nat), p ≤ 1 → s.clk.vstby = true → s.clk.mainEn = true → (portOf s p).linkUp = false →
    (portOf s (1 - p)).pkgReq = true → ∃ t, exec (.pkgrstOtherPortNoLink p) s = .next t ∧
    t.boot.running = true ∧ t.boot.phase = 1 ∧ t.ctxs = [] ∧ t.cmds = []) ∧
  (∀ (s : State) (fn : Nat), fn < 128 → (pciHeader s fn).length = 64 ∧
    slice (pciHeader s fn) 0 4 = (if fn % 64 = 0 then [0x8C, 0x1F, 0x48, 0] else [0xFF, 0xFF, 0xFF, 0xFF]) ∧
    slice (pciHeader s fn) 8 4 = BitVec.ofNat 8 (revision s) :: [0, 0, 0x12] ∧
    slice (pciHeader s fn) 44 4 = [0x8C, 0x1F, if fn % 64 = 0 then 0x48 else 0x49, 0] ∧
    slice (pciHeader s fn) 61 1 = [0]) ∧
  (∀ (s : State) (fn : Nat), fn % 64 = 0 →
    .sriov 63 63 1 1 0x11 0x0049 (portOf s (fn / 64)).vfEnable (pciBars s (fn + 1)) ∈ pciCaps s fn ∧
    .resizableBar 4 268435456 68719476736 (portOf s (fn / 64)).bar4 ∈ pciCaps s fn)

/-- Rings and doorbells (R299, R303-R310, R323): where the function answers accesses to its BARs, the ring table of a
context with no command outstanding takes its base and enable; the aperture register of a PF takes its value; an
admin ring that is enabled is taken into service, or held while the start-up sequence runs, and one that is disabled
with no command leaves service; a doorbell on a live, loaded command ring moves its TAIL; a doorbell on a ped ring
of a resident context adds COUNT to the semaphore at once. -/
def Obligations.RingRowsAct : Prop :=
  (∀ (s : State) (rq : Requester) (ctx : Nat) (val : W64) (c : Ctx), ctxOf s ctx = some c →
    (rq = .firmware ∨ (rq = .host c.owner ∧ barOff s c.owner = false)) → (ctxCmds s ctx).any outstanding = false →
    ∃ t y, exec (.ringTableWrite rq ctx val) s = .next t ∧ ctxOf t ctx = some y ∧ y.rtEn = val.getLsbD 0 ∧
      y.rtBase = val &&& ~~~1 ∧ t = { s with ctxs := t.ctxs, reg := t.reg }) ∧
  (∀ (s : State) (fn : Nat) (val : W64), barOff s fn = false → fn % 64 = 0 →
    ∃ t, exec (.fnAperWrite fn val) s = .next t ∧ fnOf t fn = { fnOf s fn with aper := val } ∧
      t = { s with fns := t.fns, reg := t.reg }) ∧
  (∀ (s : State) (fn : Nat), barOff s fn = false → (fnOf s fn).ctl.getLsbD 0 = false → s.boot.running = true →
    ∃ t, exec (.adminRingEnable fn) s = .next t ∧
      fnOf t fn = { fnOf s fn with ctl := (fnOf s fn).ctl ||| 1, aenHeld := true }) ∧
  (∀ (s : State) (fn : Nat), barOff s fn = false → (fnOf s fn).ctl.getLsbD 0 = false → s.boot.running = false →
    ∃ t, exec (.adminRingEnable fn) s = .next t ∧ (fnOf t fn).ardy = true ∧
      (fnOf t fn).ctl = (fnOf s fn).ctl ||| 1 ∧ (fnOf t fn).asqr.base = (fnOf s fn).asq &&& 0xFFFFFFFFFFFFF000 ∧
      (fnOf t fn).acqr.base = (fnOf s fn).acq &&& 0xFFFFFFFFFFFFF000) ∧
  (∀ (s : State) (fn : Nat), barOff s fn = false → (fnOf s fn).ctl.getLsbD 0 = true → adminCmds s fn = [] →
    ∃ t, exec (.adminRingDisable fn) s = .next t ∧ (fnOf t fn).ardy = false ∧ (fnOf t fn).ctl.getLsbD 0 = false) ∧
  (∀ (s : State) (fn page ring : Nat) (val : W64) (c : Ctx) (r : SubRing), barOff s fn = false →
    pageCtx s fn page = some c → nmGet s.ctxs c.num = some c → nmGet c.sq ring = some r → r.loaded = true →
    r.kind = 1 → c.rtEn = true → ring ≤ 1023 → val.toNat < 2 ^ 23 → bitAt val.toNat 16 = false →
    bits val.toNat 0 16 < 2 ^ r.size →
    ∃ t y, exec (.commandRingDoorbell fn page ring val) s = .next t ∧ ctxOf t c.num = some y ∧
      nmGet y.sq ring = some { r with tail := bits val.toNat 0 16 } ∧ t = { s with ctxs := t.ctxs }) ∧
  (∀ (s : State) (fn : Nat) (val : W64), barOff s fn = false → (fnOf s fn).ardy = true → (fnOf s fn).asqr.kind = 1 →
    val.toNat < 2 ^ 16 → val.toNat < 2 ^ (fnOf s fn).asqr.size →
    ∃ t, exec (.adminDoorbell fn val) s = .next t ∧
      fnOf t fn = { fnOf s fn with asqr := { (fnOf s fn).asqr with tail := val.toNat } }) ∧
  (∀ (s : State) (fn page ring : Nat) (val : W64) (c : Ctx) (r : SubRing) (l : PedSet), barOff s fn = false →
    pageCtx s fn page = some c → nmGet c.sq ring = some r → r.loaded = true → r.kind = 2 → c.rtEn = true →
    ring ≤ 1023 → val.toNat < 2 ^ 24 → bits val.toNat 0 16 ≠ 0 →
    residentOn s c.num r.ped = true → pedOf s c.num r.ped = .ok l →
    ∃ t, exec (.pedDoorbell fn page ring val) s = .next t ∧
      t = semAdd c.num (canonPed s r.ped) (bits val.toNat 16 8) (bits val.toNat 0 16) ((pedSetGrains l).headD 0)
        (updSq c.num ring r s))

/-- Fetching and answering (R306, R311, R313, R316, R438): the completion ring's timer sends its message; the ring
engine fetches up to eight packets; a message of the management path becomes a command, and its answer goes out with
a message (the model's reading of that path, notes/assumptions/77); PING returns its 8 bytes and the PCC; a command
that has ended, with a completion ring that has room, leaves the package; an access to the aperture that falls wholly
on bytes of its context becomes requests to their objects (R204), and when one of them is served its bytes reach the
object, or are kept for the answer that goes out with the last of them. -/
def Obligations.PingCompletionAndAperture : Prop :=
  (∀ (s : State) (cid : Nat) (k : Cmd), ready s cid 0x01 = some k → allZero (k.param.drop 8) = true →
    ∃ t, exec (.ping cid) s = .next t ∧
      doneWith t cid stOK (slice k.param 0 8 ++ leBytes 8 s.clk.pcc.toNat) ∧ t = { s with cmds := t.cmds }) ∧
  (∀ (s : State) (cid : Nat) (c : Cmd) (st : W16) (res : List Byte), cmdOf s cid = some c → c.fn ≠ mgmtFn →
    fnOff s c.fn = false → ringsOn s c.fn = true → c.deferred = none → c.done = some (st, res) →
    (cqOf s c.fn c.ctx c.cq).fill < 2 ^ (cqOf s c.fn c.ctx c.cq).size →
    ∃ t, exec (.completionWrite cid) s = .next t ∧ cmdOf t cid = none) ∧
  (∀ (s : State) (port off n : Nat) (l : List (Obj × Nat)), port ≤ 1 → barOff s (64 * port) = false →
    off + n ≤ (portOf s port).bar4 → (List.range n).map (fun i => aperByte s (64 * port) (off + i)) = l.map some →
    exec (.bar4Access port off (.read n)) s = .next (settleApers (aperAsk port s.hz.nextReq l none (updHz (fun h => { h with
      apers := h.apers ++ [{ id := s.hz.nextReq, port := port, len := n, got := [], bad := false }] }) s)))) ∧
  (∀ (s : State) (port off : Nat) (b : List Byte) (l : List (Obj × Nat)), port ≤ 1 → barOff s (64 * port) = false →
    off + b.length ≤ (portOf s port).bar4 →
    (List.range b.length).map (fun i => aperByte s (64 * port) (off + i)) = l.map some → (∀ e ∈ l, e.1.rdonly = false) →
    exec (.bar4Access port off (.write b)) s = .next (aperAsk port s.hz.nextReq l (some b) s)) ∧
  (∀ (s : State) (q : Req) (o : Obj) (id : Nat) (places : List (Nat × Nat)) (d : List Byte) (ans : HzAnswer),
    objOf s q.handle = some o →
    aperServed q id places (some d) ans s = objWrite q.handle (List.zip (places.map (·.2)) d) s) ∧
  (∀ (s : State) (q : Req) (o : Obj) (id : Nat) (places : List (Nat × Nat)) (ans : HzAnswer)
    (r : (Nat → Byte × Bool) × State), objOf s q.handle = some o → r = sourceRead q o (places.map (·.2)) ans s →
    (∀ e ∈ places, (r.1 e.2).2 = false) → aperServed q id places none ans s =
      settleApers (updHz (fun h => { h with apers := updWhere (fun a => a.id == id) (fun a => { a with
        got := a.got ++ places.map (fun e => (e.1, (r.1 e.2).1)) }) h.apers }) r.2)) ∧
  (∀ (s : State) (ctx q : Nat) (c : Ctx), ctxOf s ctx = some c → (nmGetD c.cq q cplRingOff).en = true →
    (nmGetD c.cq q cplRingOff).vector ≠ 0xFFFF → (nmGetD c.cq q cplRingOff).itime ≠ 0 →
    (nmGetD c.cq q cplRingOff).since ≠ 0 → ∃ t, exec (.interruptTimeExpire ctx q) s = .next t ∧
      t = signal c.owner (nmGetD c.cq q cplRingOff).vector
        (updCq ctx q { nmGetD c.cq q cplRingOff with since := 0 } s)) ∧
  (∀ (s : State) (fn ring : Nat) (ctx : Option Nat), (∀ x, ctx = some x → ∃ c, ctxOf s x = some c ∧ c.owner = fn) →
    mayFetch s fn ctx ring = true → ∃ t, exec (.commandFetch fn ctx (.ring ring)) s = .next t ∧
      t = fetchSome fn ctx ring 7 (fetchOne fn ctx ring s)) ∧
  (∀ (s : State) (fn : Nat) (ctx : Option Nat) (b : List Byte), s.clk.mainEn = true → s.err.stopped = none →
    s.boot.outcome ≠ 0 → ∃ t k, exec (.commandFetch fn ctx (.message b)) s = .next t ∧
      t = { s with cmds := s.cmds ++ [k], nextCid := s.nextCid + 1 } ∧ k.cid = s.nextCid ∧ k.fn = mgmtFn ∧ k.ctx = none ∧
      k.opcode = u16 b 0 ∧ k.param = slice b 16 48 ∧ k.data = b.drop 64 ∧
      k.done = (mctpStatus s b).map (fun st => (st, zeros 16))) ∧
  (∀ (s : State) (cid : Nat) (c : Cmd) (st : W16) (res : List Byte), cmdOf s cid = some c → c.fn = mgmtFn →
    c.done = some (st, res) → ∃ t, exec (.completionWrite cid) s = .next t ∧
      t = { s with cmds := s.cmds.filter (fun k => k.cid != c.cid),
                   out := s.out ++ [.mctp (cplBytes c.tag st 0 0xFFFF 0 res)] })

/-- Contexts (R327-R332, R337): CTX_CREATE makes the context of the number that was asked for, or the lowest free one,
with everything at its first value and 128 frames for its scale bank, and answers the number; CTX_DESTROY of an idle
context and CTX_KILL of any leave no context of the number; SET_SHARE writes weight, limit and slice of a context at
once, the weight of a function for the PF of its port, and the weight of a port for the management path (R337). A
context's owner, or the PF of its port, may manage it. -/
def Obligations.ContextCommandsAct : Prop :=
  (∀ (s : State) (cid n : Nat) (c : Cmd), ready s cid 0x10 = some c → createBad s c = false →
    (if u16 c.param 0 = 0xFFFF then lowestFree s else if (ctxOf s (u16 c.param 0)).isSome then none
      else some (u16 c.param 0)) = some n →
    (c.fn % 64 = 0 ∨ ownedBy s c.fn < 16) → 128 ≤ freeFrames s 1 →
    fits334 s (ctxNew n c.fn (u8 c.param 2) (u8 c.param 3 = 1) (BitVec.ofNat 32 (u32 c.param 4)) (u16 c.param 8)
      (u8 c.param 10) (u32 c.param 12)) = true →
    ∃ t, exec (.ctxCreate cid) s = .next t ∧ doneWith t cid stOK (leBytes 2 n) ∧
      ctxOf t n = some { ctxNew n c.fn (u8 c.param 2) (u8 c.param 3 = 1) (BitVec.ofNat 32 (u32 c.param 4))
        (u16 c.param 8) (u8 c.param 10) (u32 c.param 12) with bankFrames := (allocFrames 128 [] (startCmd cid s)).1 } ∧
      t.hz = (allocFrames 128 [] (startCmd cid s)).2.hz ∧ (∀ k, k ≠ n → ctxOf t k = ctxOf s k)) ∧
  (∀ (s : State) (cid n : Nat) (c : Cmd) (x : Ctx), ready s cid 0x11 = some c → u16 c.param 0 = n → n ≤ 1023 → n ≠ 0 →
    allZero (c.param.drop 2) = true → ctxOf s n = some x → mayManage x c.fn = true → runOut (startCmd cid s) n = false → liveTags s n = [] →
    ∃ t, exec (.ctxDestroy cid) s = .next t ∧ ctxOf t n = none ∧
      t = finish0 cid stOK (purgeCtx n (some cid) (startCmd cid s))) ∧
  (∀ (s : State) (cid n : Nat) (c : Cmd) (x : Ctx), ready s cid 0x12 = some c → u16 c.param 0 = n → n ≤ 1023 → n ≠ 0 →
    allZero (c.param.drop 2) = true → ctxOf s n = some x → mayManage x c.fn = true →
    ∃ t, exec (.ctxKill cid) s = .next t ∧
      t = finish cid stOK (leBytes 8 s.clk.pcc.toNat) (killCtx n (some cid) (startCmd cid s))) ∧
  (∀ (s : State) (cid n : Nat) (c : Cmd) (x : Ctx), ready s cid 0x13 = some c → shareBad c.param = false →
    u8 c.param 0 = 2 → u16 c.param 2 = n → n ≠ 0 → ctxOf s n = some x → mayManage x c.fn = true →
    fits334 s { x with weight := u16 c.param 4, limit := u8 c.param 6, slice := u32 c.param 8,
                       deepNext := u8 c.param 7 = 1 } = true →
    ∃ t, exec (.setShare cid) s = .next t ∧ doneWith t cid stOK [] ∧
      ctxOf t n = some { x with weight := u16 c.param 4, limit := u8 c.param 6, slice := u32 c.param 8,
                                deepNext := u8 c.param 7 = 1 } ∧
      t = { s with cmds := t.cmds, ctxs := t.ctxs }) ∧
  (∀ (s : State) (cid : Nat) (c : Cmd), ready s cid 0x13 = some c → shareBad c.param = false → u8 c.param 0 = 1 →
    c.fn % 64 = 0 → u16 c.param 2 / 64 = c.fn / 64 → ∃ t, exec (.setShare cid) s = .next t ∧ doneWith t cid stOK [] ∧
      fnOf t (u16 c.param 2) = { fnOf s (u16 c.param 2) with weight := u16 c.param 4 } ∧
      t = { s with cmds := t.cmds, fns := t.fns }) ∧
  (∀ (s : State) (cid : Nat) (c : Cmd), ready s cid 0x13 = some c → shareBad c.param = false → u8 c.param 0 = 0 →
    c.fn = mgmtFn → u16 c.param 2 ≤ 1 → ∃ t, exec (.setShare cid) s = .next t ∧ doneWith t cid stOK [] ∧
      portOf t (u16 c.param 2) = { portOf s (u16 c.param 2) with weight := u16 c.param 4 } ∧
      t = { s with cmds := t.cmds, port0 := t.port0, port1 := t.port1 })

/-- Plans, runs and fences (R160, R165, R317, R349): PLAN_LOAD of a valid image adds a plan under the lowest free id and
answers it with the number of segments; PLAN_UNLOAD takes an unused plan away; SEG_RUN of segments that exist, fit
and keep the seed rule joins the context's runs; SEG_FENCE answers the PCC, or waits for a segment that
started before the fence was fetched (R210). -/
def Obligations.PlanCommandsAct : Prop :=
  (∀ (s : State) (cid : Nat) (k : Cmd) (c : Ctx) (o : Obj) (m : Image) (i : Nat), ready s cid 0x30 = some k →
    k.ctx.bind (ctxOf s) = some c → ctxOf s c.num = some c → u32 k.param 4 = 0 → allZero (k.param.drop 16) = true →
    u64 k.param 8 % 256 = 0 → ownObj s c.num (BitVec.ofNat 32 (u32 k.param 0)) = some o →
    u64 k.param 8 + 64 ≤ o.size → 64 ≤ leNat (objRead s o (u64 k.param 8 + 28) 4) →
    u64 k.param 8 + leNat (objRead s o (u64 k.param 8 + 28) 4) ≤ o.size →
    readImage (startCmd cid s) c (objRead s o (u64 k.param 8) (leNat (objRead s o (u64 k.param 8 + 28) 4))) = some m →
    m.segs.any (fun d => d.progs.any (fun x => !(inDomain c.domain x.ped2))) = false → lowestPlan c = some i →
    ∃ t y, exec (.planLoad cid) s = .next t ∧ doneWith t cid stOK (leBytes 4 i ++ leBytes 2 m.segs.length) ∧
      ctxOf t c.num = some y ∧
      y.plans = c.plans ++ [{ id := i, handle := BitVec.ofNat 32 (u32 k.param 0), off := u64 k.param 8, peds := m.peds,
                              segs := m.segs,
                              fixed := (m.bank.filter (fun e => e.2.policy == 0)).map (fun e => (e.1, e.2.scale)) }] ∧ t = { s with cmds := t.cmds, ctxs := t.ctxs }) ∧
  (∀ (s : State) (cid : Nat) (k : Cmd) (c : Ctx), ready s cid 0x31 = some k → k.ctx.bind (ctxOf s) = some c →
    ctxOf s c.num = some c → allZero (k.param.drop 4) = true → (planOf c (u32 k.param 0)).isSome = true →
    c.runs.any (fun r => r.plan == u32 k.param 0) = false →
    s.cmds.any (fun q => q.ctx == some c.num && q.opcode == 0x32 && q.done.isNone && u32 q.param 0 == u32 k.param 0) = false →
    ∃ t y, exec (.planUnload cid) s = .next t ∧ doneWith t cid stOK [] ∧ ctxOf t c.num = some y ∧
      planOf y (u32 k.param 0) = none ∧ t = { s with cmds := t.cmds, ctxs := t.ctxs }) ∧
  (∀ (s : State) (cid : Nat) (k : Cmd) (c : Ctx) (pl : Plan), ready s cid 0x32 = some k → runTurn s k = true →
    k.ctx.bind (ctxOf s) = some c → c.lost = none → planOf c (u32 k.param 0) = some pl → u8 k.param 8 ≤ 1 →
    allZero (slice k.param 9 7) = true → allZero (k.param.drop 24) = true → 1 ≤ u16 k.param 6 → u16 k.param 6 ≤ 4096 →
    u16 k.param 4 + u16 k.param 6 ≤ pl.segs.length → (u8 k.param 8 = 1 → stepFirst pl (u16 k.param 4) = true) →
    firstUnfit c pl (u16 k.param 4) (u16 k.param 6) = none →
    ((pl.segs.drop (u16 k.param 4)).take (u16 k.param 6)).all (limitOk (startCmd cid s) c) = true →
    ∃ t, exec (.segRun cid) s = .next t ∧
      t = decideLeases (updCtx c.num (fun x => { x with
        runs := x.runs ++ [{ cid := cid, plan := pl.id, seg := u16 k.param 4, count := u16 k.param 6
                             seed := if u8 k.param 8 = 1 then some (BitVec.ofNat 64 (u64 k.param 16)) else none
                             ended := 0, firstGc0 := none, overrun := 0, status := none, faultRes := none }]
        st := if x.st = .idle then .ready else x.st
        deficit := if x.st = .idle then min x.deficit 0 else x.deficit }) (earn (startCmd cid s)))) ∧
  (∀ (s : State) (cid : Nat) (k : Cmd) (c : Ctx), ready s cid 0x33 = some k → k.ctx.bind (ctxOf s) = some c →
    allZero k.param = true → (∀ r, segOf s c.num = some r → k.fetchPcc.toNat < r.gc0.toNat) →
    ∃ t, exec (.segFence cid) s = .next t ∧ doneWith t cid stOK (leBytes 8 s.clk.pcc.toNat) ∧
      t = { s with cmds := t.cmds }) ∧
  (∀ (s : State) (cid : Nat) (k : Cmd) (c : Ctx) (r : RunSeg), ready s cid 0x33 = some k →
    k.ctx.bind (ctxOf s) = some c → ctxOf s c.num = some c → allZero k.param = true → segOf s c.num = some r →
    r.gc0.toNat ≤ k.fetchPcc.toNat →
    ∃ t y, exec (.segFence cid) s = .next t ∧ ctxOf t c.num = some y ∧ y.fences = c.fences ++ [cid] ∧
      t = { s with cmds := t.cmds, ctxs := t.ctxs })

/-- Object commands (R193-R198, R211, R222, R225): OBJ_ALLOC of a valid size and place makes an object under the next
free index at the lowest base that fits; OBJ_FREE of an object that nothing names takes it away; OBJ_PLACE and
OBJ_MIGRATE start the move of the granules that are not on their target yet, and complete at once where there is
none. -/
def Obligations.ObjectCommandsAct : Prop :=
  (∀ (s : State) (cid base : Nat) (c : Cmd), ready s cid 0x20 = some c → u64 c.param 0 ≠ 0 →
    u64 c.param 0 % 65536 = 0 → u64 c.param 0 ≤ 2 ^ 48 → placeBad s c.param (u64 c.param 0) = false →
    s.hz.objs.length < 1048576 →
    roomFor s (resolveHzn s (parsePlace c.param).horizon) (pickIndex s (c.ctx.getD 0))
      (List.range (u64 c.param 0 / 65536)) (32 + 16 * (u64 c.param 0 / 65536)) = true →
    findBase s (c.ctx.getD 0) (u64 c.param 0) = some base →
    ∃ t o, exec (.objAlloc cid) s = .next t ∧ t.hz.objs = s.hz.objs ++ [o] ∧ o.ctx = c.ctx.getD 0 ∧
      o.idx = pickIndex s (c.ctx.getD 0) ∧ o.base = base ∧ o.size = u64 c.param 0 ∧
      o.pin = (parsePlace c.param).pin ∧ o.rdonly = (parsePlace c.param).rdonly ∧
      o.gran.length = u64 c.param 0 / 65536 ∧ doneWith t cid stOK (leBytes 4 (handleOf o).toNat ++ leBytes 8 base)) ∧
  (∀ (s : State) (cid : Nat) (c : Cmd) (o : Obj), ready s cid 0x21 = some c → allZero (c.param.drop 4) = true →
    ownObj s (c.ctx.getD 0) (BitVec.ofNat 32 (u32 c.param 0)) = some o →
    objHeld (startCmd cid s) (c.ctx.getD 0) (BitVec.ofNat 32 (u32 c.param 0)) = false →
    groupNames s (c.ctx.getD 0) (BitVec.ofNat 32 (u32 c.param 0)) = false →
    ∃ t, exec (.objFree cid) s = .next t ∧ t = finish0 cid stOK (dropObj o (startCmd cid s)) ∧
      (∀ x ∈ t.hz.objs, ¬ (x.ctx = o.ctx ∧ x.idx = o.idx))) ∧
  (∀ (s : State) (cid : Nat) (c : Cmd) (o : Obj) (h : W32) (q : PlaceP) (js : List Nat), ready s cid 0x22 = some c →
    h = BitVec.ofNat 32 (u32 c.param 0) → q = parsePlace c.param → u32 c.param 4 = 0 →
    ownObj s (c.ctx.getD 0) h = some o → placeBad s c.param o.size = false →
    js = (List.range o.gran.length).filter (fun j => (granOf o j).hzn ≠ resolveHzn s q.horizon ||
      (resolveHzn s q.horizon = 1 && (o.spread ≠ q.spread || o.home ≠ q.home))) →
    (resolveHzn s q.horizon = 4 → o.gran.all (fun g => g.hzn != 4) = true) →
    (q.rdonly = true ∨ (o.gran.any (fun g => g.hzn == 3) = false ∧
      s.hz.migs.any (fun m => m.handle == h && m.hzn == 3) = false)) →
    (js = [] ∨ moveBarred s o (resolveHzn s q.horizon) 0 o.size = false) → (isRung s h = true → q.pin = true) →
    (q.rdonly = true → o.rdonly = true ∨ winWrites s h = false) →
    (js = [] ∨ s.hz.migs.any (fun m => m.handle == h) = false) →
    roomFor s (resolveHzn s q.horizon) o.idx js 0 = true →
    ∃ t, exec (.objPlace cid) s = .next t ∧
      t = endMoves (startMove cid o 0 o.gran.length js
        { hzn := resolveHzn s q.horizon, spread := q.spread, home := q.home, port := q.port, setPin := false
          apply := some (q.promoMax, q.pin, q.promote, q.rdonly, q.port)
          host := if resolveHzn s q.horizon = 4 then hostGranules s q o.gran.length else [] } (startCmd cid s))) ∧
  (∀ (s : State) (cid : Nat) (c : Cmd) (o : Obj) (h : W32) (off len hzn : Nat) (js : List Nat),
    ready s cid 0x23 = some c → h = BitVec.ofNat 32 (u32 c.param 0) → off = u64 c.param 8 → len = u64 c.param 16 →
    u32 c.param 4 = 0 → off % 65536 = 0 → len ≠ 0 → len % 65536 = 0 → u8 c.param 24 ≠ 0 → u8 c.param 24 ≤ 5 →
    u8 c.param 25 ≤ 1 → allZero (c.param.drop 26) = true → ownObj s (c.ctx.getD 0) h = some o →
    hzn = resolveHzn s (u8 c.param 24) → off + len ≤ o.size → hznBad s (u8 c.param 24) o.rdonly o.port 0 = false →
    js = ((List.range (len / 65536)).map (fun j => off / 65536 + j)).filter (fun j => (granOf o j).hzn ≠ hzn) →
    moveBarred s o hzn off len = false → s.hz.migs.any (fun m => m.handle == h && m.first < (off + len) / 65536 &&
      off / 65536 < m.fin) = false → roomFor s hzn o.idx js 0 = true →
    ∃ t, exec (.objMigrate cid) s = .next t ∧
      t = endMoves (startMove cid o (off / 65536) ((off + len) / 65536) js
        { hzn := hzn, spread := o.spread, home := o.home, port := o.port, setPin := bitAt (u8 c.param 25) 0
          apply := none, host := [] } (startCmd cid s)))

/-- The horizons' own events (R211-R213, R218-R221, R418): once all its requests are answered, a granule's copy is
made where it is served and marked, the next granule is taken, and with no running segment of the context it takes its
new home at once; a promoted copy is made; an NVMe command of a queue ends, with no other that waits for the queue,
and what its Read found bad is poisoned, LBA by LBA (R380); a drive and a DDR5 channel fail for good and the outcome
goes from READY to DEGRADED, and calibration windows open and close where the PCC says so. -/
def Obligations.HorizonEventsAct : Prop :=
  (∀ (s : State) (handle j : Nat) (m : Mig) (o : Obj) (x : MigG) (h : W32), h = BitVec.ofNat 32 handle →
    s.hz.migs.find? (fun m => m.handle == h && m.left.any (fun x => x.granule == j && x.begun && !x.copied)) = some m →
    objOf s h = some o → m.left.find? (fun x => x.granule == j && x.begun && !x.copied) = some x →
    copyOpen s h (.move j) false = false →
    ∃ t u, exec (.migrationCopyDone handle j) s = .next t ∧
      u = beginNext h m.cid (updHz (fun z => { z with
          migs := updWhere (fun y => y.handle == h && y.cid == m.cid) (fun y => { y with
            left := updWhere (fun y => y.granule == j) (fun y => { y with copied := true }) y.left }) z.migs })
        (copyNow { o with spread := m.spread, home := m.home } (.move j) j (locOf o (j * 65536)) (moveDest s m o x)
          (copyReach o j (moveDest s m o x) (copyReach o j (locOf o (j * 65536)) s)))) ∧
      t = (if (segOf u o.ctx).isNone then switchMoves o.ctx u else u)) ∧
  (∀ (s : State) (handle j : Nat) (p : PromoC) (o : Obj) (h : W32), h = BitVec.ofNat 32 handle →
    s.hz.promos.find? (fun p => p.handle == h && p.granule == j && !p.copied) = some p → objOf s h = some o →
    copyOpen s h (.promo j) false = false → ∃ t, exec (.promotionCopyDone handle j) s = .next t ∧
      t = updHz (fun z => { z with
          promos := updWhere (fun x => x.handle == h && x.granule == j) (fun x => { x with copied := true }) z.promos })
        (copyNow o (.promo j) j (homeLoc o (j * 65536)) (.hz1 (p.frame * 65536))
          (copyReach o j (homeLoc o (j * 65536)) s))) ∧
  (∀ (s : State) (drive cmd : Nat) (res : NvmeResult) (n : NvmeCmd),
    s.hz.nvme.find? (fun n => n.drive == drive && n.id == cmd && n.queue.isSome) = some n → n.reqs = [] → n.op ≠ 2 →
    s.hz.nvme.all (fun x => x.drive != drive || x.queue.isSome) = true →
    ∃ t, exec (.nvmeCompletion drive cmd res) s = .next t ∧
      t = updHz (fun h => { h with
        nvme := h.nvme.filter (fun x => x.id != cmd)
        pois3 := (readBad s n res).foldl (fun l b => addOnce (n.drive, b) l) h.pois3 }) s) ∧
  (∀ (s : State) (drive : Nat) (cause : DriveCause) (status : W16), drive ∈ s.hz.drives → drive ∉ s.hz.failedDrives →
    s.hz.nvme.all (fun n => n.drive != drive) = true →
    ∃ t, exec (.driveFailed drive cause status) s = .next t ∧ drive ∈ t.hz.failedDrives ∧
      t.boot.outcome = (if s.boot.outcome = 1 then 2 else s.boot.outcome)) ∧
  (∀ (s : State) (ch : Nat), ch ∈ s.hz.channels → ch ∉ s.hz.failedCh →
    ∃ t, exec (.ddr5ChannelFailed ch) s = .next t ∧ t.hz.failedCh = s.hz.failedCh ++ [ch] ∧
      t.boot.outcome = (if s.boot.outcome = 1 then 2 else s.boot.outcome)) ∧
  (∀ (s : State) (ch : Chan), windowOpen s.clk.pcc ch = true → ∃ t, exec (.calibrationWindowStart ch) s = .next t ∧
    ch ∈ t.hz.calib ∧ t = { s with hz := { s.hz with calib := t.hz.calib } }) ∧
  (∀ (s : State) (ch : Chan), windowOpen s.clk.pcc ch = false → ∃ t, exec (.calibrationWindowEnd ch) s = .next t ∧
    ch ∉ t.hz.calib ∧ t = { s with hz := { s.hz with calib := t.hz.calib } })

/-- Power (R104, R391, R394, R396-R404, R485, R487): the always-on tick advances the RTC and latches the timebase; a
power sample takes PWR_LIMIT into force, stores the powers with their ends, and asks for one level more while a limit
is exceeded; at a PCC multiple of 16 the level follows, to 8 at most; 10 ms of saturation step the clock by 25 MHz
down to 1,200 MHz, and there hold the boundary for 1,024 gc; a further 10 ms doubles the hold; a slew ends; a die
whose regulator does not answer is marked; a ped-1 wakes in 64 gc from 128 gc before its NOTBEFORE; a die parks after
10 ms of wall time and its clock locks again for a lease; and the registers of the block take their values, ballast
levels above 8 as 8. -/
def Obligations.PowerRowsAct : Prop :=
  (∀ s : State, ∃ t, exec .clockSlewDone s = .next t ∧ t = { s with pwr := { s.pwr with clkNext := none } }) ∧
  (∀ (s : State) (smp : AoSample), s.clk.vstby = true → ∃ t, exec (.aoTick smp) s = .next t ∧
    t.clk.rtc = s.clk.rtc + 1 ∧ t.clk.tbRtc = s.clk.rtc + 1 ∧ t.clk.tbPcc = s.clk.pcc ∧ t.clk.pcc = s.clk.pcc ∧
    t.clk.wallUs = s.clk.wallUs) ∧
  (∀ (s : State) (pkgW : Nat) (dieW : List Nat) (lid : Int), s.clk.mainEn = true →
    ∃ t, exec (.powerSample pkgW dieW lid) s = .next t ∧ t.pwr.pkgW = min pkgW 65535 ∧
    t.pwr.limitInForce = s.pwr.limit ∧ t.pwr.lidHot = decide (70 < lid) ∧
    (bits s.pwr.limit.toNat 0 16 < min pkgW 65535 → t.pwr.move = some true) ∧ t.pwr.level = s.pwr.level ∧
    t.pwr.ctl = s.pwr.ctl ∧ t.pwr.clkctl = s.pwr.clkctl ∧ t.pwr.ballast = s.pwr.ballast ∧ t.clk = s.clk) ∧
  (∀ s : State, (moveLevel s).pwr.move = none ∧
    (s.pwr.move = some true → (moveLevel s).pwr.level = min 8 (s.pwr.level + 1)) ∧
    (s.pwr.move = some false → thermalFloor s = 0 → (moveLevel s).pwr.level = s.pwr.level - 1) ∧
    moveLevel s = { s with pwr := (moveLevel s).pwr }) ∧
  (∀ s : State, s.pwr.saturated = true → 1200 < s.pwr.clk → ∃ t, exec .throttleSaturationTimeout s = .next t ∧
    t.pwr.clk = max 1200 (s.pwr.clk - 25) ∧ t.pwr.cause = s.pwr.cause ||| 0x10 ∧
    t.boot.field.pclk = max 1200 (s.pwr.clk - 25) ∧ t.boot.recPending = true) ∧
  (∀ s : State, s.pwr.saturated = true → s.pwr.clk ≤ 1200 → s.pwr.hold = none →
    ∃ t, exec .throttleSaturationTimeout s = .next t ∧ t.pwr.hold = some 1024 ∧ t.pwr.cause = s.pwr.cause ||| 0x20 ∧
    t.pwr.clk = s.pwr.clk) ∧
  (∀ (s : State) (h : Nat), s.pwr.hold = some h → limitPkg s < s.pwr.pkgW →
    ∃ t, exec .boundaryHoldAdjust s = .next t ∧
    t = { s with pwr := { s.pwr with hold := some (min (2 ^ 20) (2 * h)) } }) ∧
  (∀ (s : State) (c : Nat), c ≤ 47 → ∃ t, exec (.avsbusTimeout c) s = .next t ∧ (dieOf t c).avsOk = false ∧
    t.reg.boundsVoid = true) ∧
  (∀ (s : State) (ped1 n gc : Nat), earliestWait s (ped1 / 16) (ped1 % 16) = some n →
    ped1Gc s (ped1 / 16) (ped1 % 16) = some gc →
    ped1 % 16 ∈ (ped2Of s (ped1 / 16)).gated → n ≤ gc + 128 →
    ∃ t, exec (.ped1Prewake ped1) s = .next t ∧ ped1 % 16 ∉ (ped2Of t (ped1 / 16)).gated ∧
    (ped1 % 16, s.clk.pcc + 64) ∈ (ped2Of t (ped1 / 16)).prewake ∧ t = { s with ped2s := t.ped2s }) ∧
  (∀ (s : State) (rq : Requester) (val : W32), pfOrAbove rq = true → rqOff s rq = false → ∃ t, exec (.pwrCtlWrite rq val) s = .next t ∧
    t.pwr = { s.pwr with ctl := val } ∧ t = { s with pwr := t.pwr, reg := t.reg, ped2s := t.ped2s, grains := t.grains }) ∧
  (∀ (s : State) (rq : Requester) (val : W32), pfOrAbove rq = true → rqOff s rq = false →
    ∃ t, exec (.pwrBallastWrite rq val) s = .next t ∧
    t.pwr = { s.pwr with
      ballast := (val &&& 0xFFF0FFFF) ||| BitVec.ofNat 32 (min 8 (bits val.toNat 16 4) * 65536) } ∧ t = { s with pwr := t.pwr, reg := t.reg }) ∧
  (∀ (s : State) (c : Nat) (d : DiePwr), nmGet s.pwr.dies c = some d → d.dstate = .idle → s.pwr.ctl.getLsbD 0 = true →
    d.idleSince + 10000 ≤ s.clk.wallUs → ∃ t, exec (.diePark c) s = .next t ∧
      nmGet t.pwr.dies c = some { d with dstate := .parked } ∧ t = { s with pwr := { s.pwr with dies := t.pwr.dies } }) ∧
  (∀ (s : State) (c i : Nat) (d : DiePwr), nmGet s.pwr.dies c = some d → d.dstate = .parked → i < 25 →
    (ped2Of s (c * 25 + i)).lease.isSome = true → ∃ t, exec (.grainPllLock c) s = .next t ∧
      nmGet t.pwr.dies c = some { d with dstate := .active } ∧ t = { s with pwr := { s.pwr with dies := t.pwr.dies } })

/-- Power-on and the start-up sequence (R217, R220, R303, R393, R405-R414, R443): POWER_ON leaves the always-on domain
alone running with the RTC at 0; MAIN_EN high starts the sequence at P1 and MAIN_EN low puts every die into reset;
each row of the sequence acts in its phase and moves it on, and P6 ends it with READY where nothing is missing. -/
def Obligations.StartupRowsAct : Prop :=
  (∀ s : State, ∃ t, exec .powerOn s = .next t ∧ t.clk = { Clk.reset with vstby := true } ∧
    t.flash.factA = s.flash.factA ∧ t.flash.factB = s.flash.factB ∧ t.ctxs = [] ∧ t.cmds = [] ∧ t.boot = Boot.reset) ∧
  (∀ s : State, s.clk.vstby = true → s.clk.mainEn = false → ∃ t, exec .mainEnAssert s = .next t ∧
    t.clk.mainEn = true ∧ t.boot.running = true ∧ t.boot.phase = 1) ∧
  (∀ s : State, s.clk.mainEn = true → ∃ t, exec .mainEnDeassert s = .next t ∧ t.clk.mainEn = false ∧
    t.clk.pccRun = false ∧ t.clk.pcc = 0 ∧ t.boot.running = false ∧ t.ctxs = [] ∧ t.clk.rtc = s.clk.rtc) ∧
  (∀ s : State, s.clk.vstby = true → s.clk.mainEn = true → ∃ t, exec .coldStart s = .next t ∧
    t.boot.running = true ∧ t.boot.phase = 1 ∧ t.clk.pcc = 0 ∧ t.ctxs = [] ∧ t.fab = Fab.reset) ∧
  (∀ (s : State) (rom : RomInputs), s.boot.running = true → s.boot.phase = 1 → rom.recoveryLow = true →
    (s.fns.filter (fun e => e.2.aenHeld)) = [] →
    ∃ t, exec (.firmwareLoadDone rom) s = .next t ∧ t.boot.recovery = true ∧ t.boot.running = false ∧
    t.boot.ready = true ∧ t.fw.slotRun = 2 ∧ t.clk = s.clk) ∧
  (∀ (s : State) (nonce : BitVec 128), s.boot.running = true → s.boot.phase = 2 → s.clk.mainEn = true →
    s.clk.pccRun = false → ∃ t, exec (.dieBringupDone true [] nonce) s = .next t ∧ t.clk.pccRun = true ∧
    t.clk.pcc = 0 ∧ t.boot.phase = 3 ∧ t.sec.nonce = nonce) ∧
  (∀ s : State, s.boot.running = true → s.boot.phase = 3 → (s.flash.factA.valid = true ∨ s.flash.factB.valid = true) →
    ∃ t, exec .configRecordSelect s = .next t ∧ t.boot.phase = 4 ∧ t.boot.serialShown = true ∧
    t.boot.fact = (if s.flash.factA.valid then s.flash.factA else s.flash.factB)) ∧
  (∀ (s : State) (stack : Nat), trainingNow s = true → stack ≤ 47 → stack ∉ s.boot.hbmDone →
    ∃ t, exec (.hbmTrainingDone stack true) s = .next t ∧ stack ∈ t.boot.hbmDone) ∧
  (∀ s : State, trainingNow s = true → s.boot.ddrDone = false → ∃ t, exec (.ddr5TrainingDone []) s = .next t ∧
    t.boot.ddrDone = true ∧ t.hz.channels = s.hz.channels ∧ t.boot.degraded = false) ∧
  (∀ (s : State) (x : TDieTrain), trainingNow s = true → s.boot.ddrDone = false → tdieOk x = true →
    ∃ t, exec (.ddr5TrainingDone [x]) s = .next t ∧ t.boot.ddrDone = true ∧ t.hz.dpc = x.dpc ∧ t.hz.dimmGib = x.gib ∧
    t.hz.channels = (List.range 8).map (fun i => 8 * x.tdie + i)) ∧
  (∀ s : State, trainingNow s = true → s.boot.nvmeDone = false → s.boot.ddrDone = true →
    ∃ t, exec (.nvmeEnumDone []) s = .next t ∧ t.boot.nvmeDone = true ∧
    (s.hz.channels ≠ [] → t.hz.drives = [])) ∧
  (∀ s : State, trainingNow s = true → s.boot.testDone = false → ∃ t, exec (.startupSelftestDone [] []) s = .next t ∧
    t = { s with boot := { s.boot with testDone := true } }) ∧
  (∀ s : State, s.boot.running = true → s.boot.phase = 5 → s.boot.testDone = true →
    ∃ t, exec .enabledMapBuild s = .next t ∧ t.emap.built = true ∧ t.boot.phase = 15 ∧ t.boot.running = false ∧
    t.boot.ready = true ∧ (t.boot.outcome = 1 ∨ t.boot.outcome = 2)) ∧
  (∀ s : State, s.boot.recPending = true → s.boot.fieldWritable = true → ∃ t, exec .configRecordWrite s = .next t ∧
    t.boot.recPending = false ∧ t.boot.fieldCopyA = !s.boot.fieldCopyA ∧
    (if s.boot.fieldCopyA then t.flash.fieldB else t.flash.fieldA) = t.boot.field ∧
    (if s.boot.fieldCopyA then t.flash.fieldA = s.flash.fieldA else t.flash.fieldB = s.flash.fieldB)) ∧
  (∀ s : State, s.fw.trial = true → s.boot.phase ≠ 15 → s.clk.vstby = true → s.clk.mainEn = true →
    ∃ t, exec .trialBootTimeout s = .next t ∧ t.boot.running = true ∧ t.boot.phase = 1 ∧ t.ctxs = [])

/-- Windows of this package (R264-R267, R374, R375): WIN_OPEN of a scratchpad range of the context's leased ped, or of
an object range, opens the lowest free window number with the rights, the key and the peers that were given; a move
under way that the window forbids ends with NOT_PERMITTED (R267); WIN_CLOSE closes at once a window that holds no
unfinished access, and waits for the accepted ones otherwise; and the decision of a remote clod releases its prepared
writes. -/
def Obligations.WindowRowsAct : Prop :=
  (∀ (s : State) (cid n ctx : Nat) (c : Cmd) (l : PedSet) (x : Ctx), ready s cid 0x40 = some c → c.ctx.getD 0 = ctx →
    u8 c.param 0 = 0 → u8 c.param 1 ≠ 0 → u8 c.param 1 ≤ 3 → u8 c.param 2 = 0 → u8 c.param 3 = 0 →
    allZero (c.param.drop 36) = true → u32 c.param 4 ≠ 0 → boxBad (u32 c.param 28) = false →
    pedOf s ctx (BitVec.ofNat 32 (u32 c.param 8)) = .ok l → pedLeased s ctx l = true →
    u64 c.param 12 % 32 = 0 → u64 c.param 20 % 32 = 0 → ctxOf s ctx = some x →
    u64 c.param 12 + u64 c.param 20 ≤ x.rsize * 16384 → u64 c.param 20 * pedSetCount l ≤ 2 ^ 40 →
    grainWinsFull s l = false → freeWin s.fab.wins 0 4096 = some n →
    ∃ t, exec (.winOpen cid) s = .next t ∧ doneWith t cid stOK (leBytes 2 n) ∧
      t.fab.wins = nmSet n { ctx := ctx, kind := 0, rights := u8 c.param 1, peerMap := none
                             peerBox := BitVec.ofNat 32 (u32 c.param 28), key := BitVec.ofNat 32 (u32 c.param 4)
                             target := BitVec.ofNat 32 (u32 c.param 8), off := u64 c.param 12, size := u64 c.param 20
                             closing := none } s.fab.wins ∧
      t = { s with cmds := t.cmds, fab := { s.fab with wins := t.fab.wins } }) ∧
  (∀ (s : State) (cid n ctx : Nat) (c : Cmd) (m o : Obj), ready s cid 0x40 = some c → c.ctx.getD 0 = ctx →
    u8 c.param 0 = 1 → u8 c.param 1 ≠ 0 → u8 c.param 1 ≤ 3 → u8 c.param 2 = 1 → u8 c.param 3 = 0 →
    allZero (c.param.drop 36) = true → u32 c.param 4 ≠ 0 →
    ownObj s ctx (BitVec.ofNat 32 (u32 c.param 32)) = some m →
    ownObj s ctx (BitVec.ofNat 32 (u32 c.param 8)) = some o → (∀ g ∈ o.gran, g.hzn = 1 ∨ g.hzn = 2) →
    (bitAt (u8 c.param 1) 1 = true → o.rdonly = false) →
    s.hz.migs.any (breaksWin (BitVec.ofNat 32 (u32 c.param 8)) (u64 c.param 12) (u64 c.param 20)
      (bitAt (u8 c.param 1) 1)) = false →
    u64 c.param 12 + u64 c.param 20 ≤ o.size →
    u64 c.param 20 ≤ 2 ^ 40 → freeWin s.fab.wins 0 4096 = some n →
    ∃ t, exec (.winOpen cid) s = .next t ∧ doneWith t cid stOK (leBytes 2 n) ∧
      t.fab.wins = nmSet n { ctx := ctx, kind := 1, rights := u8 c.param 1, peerMap := some (objRead s m 0 2048)
                             peerBox := BitVec.ofNat 32 (u32 c.param 28), key := BitVec.ofNat 32 (u32 c.param 4)
                             target := BitVec.ofNat 32 (u32 c.param 8), off := u64 c.param 12, size := u64 c.param 20
                             closing := none } s.fab.wins ∧
      t = { s with cmds := t.cmds, fab := { s.fab with wins := t.fab.wins } }) ∧
  (∀ (s u : State) (cid n ctx : Nat) (c : Cmd) (o : Obj), ready s cid 0x40 = some c → c.ctx.getD 0 = ctx →
    u8 c.param 0 = 1 → u8 c.param 1 ≠ 0 → u8 c.param 1 ≤ 3 → u8 c.param 2 = 0 → u8 c.param 3 = 0 →
    allZero (c.param.drop 36) = true → u32 c.param 4 ≠ 0 → boxBad (u32 c.param 28) = false →
    ownObj s ctx (BitVec.ofNat 32 (u32 c.param 8)) = some o → (∀ g ∈ o.gran, g.hzn = 1 ∨ g.hzn = 2) →
    (bitAt (u8 c.param 1) 1 = true → o.rdonly = false) → u64 c.param 12 + u64 c.param 20 ≤ o.size →
    u64 c.param 20 ≤ 2 ^ 40 → (freeWin s.fab.wins 0 4096).isSome = true →
    u = endBreaking (BitVec.ofNat 32 (u32 c.param 8)) (u64 c.param 12) (u64 c.param 20) (bitAt (u8 c.param 1) 1)
      (startCmd cid s) → freeWin u.fab.wins 0 4096 = some n →
    exec (.winOpen cid) s = .next (finish cid stOK (leBytes 2 n) (updFab (fun b => { b with
      wins := nmSet n { ctx := ctx, kind := 1, rights := u8 c.param 1, peerMap := none
                        peerBox := BitVec.ofNat 32 (u32 c.param 28), key := BitVec.ofNat 32 (u32 c.param 4)
                        target := BitVec.ofNat 32 (u32 c.param 8), off := u64 c.param 12, size := u64 c.param 20
                        closing := none } b.wins }) u))) ∧
  (∀ (s : State) (m : Mig) (o : Obj) (k : Nat), objOf s m.handle = some o → m.cid = some k →
    ∃ u, dropMove m s = finish0 k stNOT_PERMITTED u ∧
      u.hz.migs.any (fun y => y.handle == m.handle && y.cid == m.cid) = false) ∧
  (∀ (s : State) (cid n : Nat) (c : Cmd) (w : Win), ready s cid 0x41 = some c → u16 c.param 0 = n →
    nmGet s.fab.wins n = some w → allZero (c.param.drop 2) = true → c.ctx = some w.ctx → w.closing = none →
    ∃ t, exec (.winClose cid) s = .next t ∧
      (if s.fab.preparedWin.any (fun x => x.win == n) || s.fab.accs.any (fun a => a.win == n) ||
          s.hz.reqs.any (fun q => match q.kind with | .window _ _ m => m == n | _ => false) then
        nmGet t.fab.wins n = some { w with closing := some cid }
       else doneWith t cid stOK [] ∧ nmGet t.fab.wins n = none) ∧
      (∀ k, k ≠ n → nmGet t.fab.wins k = nmGet s.fab.wins k) ∧
      t = { s with cmds := t.cmds, fab := { s.fab with wins := t.fab.wins, rsems := t.fab.rsems } }) ∧
  (∀ (s : State) (pkg clod : Nat) (x : PrepW) (w : Win) (commit : Bool),
    s.fab.preparedWin.filter (fun x => x.src == pkg && x.clod == clod) = [x] → nmGet s.fab.wins x.win = some w →
    ∃ t, exec (.clodDecisionApply pkg clod commit) s = .next t ∧
      (∃ u, u = updFab (fun b => { b with
          preparedWin := b.preparedWin.filter (fun x => !(x.src == pkg && x.clod == clod)) }) s ∧
        t = if commit = true ∧ w.kind = 0 then serveScratch x.win w none x.side pkg x.woff x.data.length x.data u
          else closeIfIdle x.win (winSignal x.win w x.side pkg x.woff x.data.length
            (if commit then winStore w x.woff x.data x.side.poison u else u))))

/-- The loess fabric (R252, R255, R257, R259, R261-R263, R289, R294, R407, R494): a flit with a bad CRC or out of
sequence is answered with a NAK and nothing else; a good one in sequence moves the sequence number on, takes what was
acknowledged out of the replay buffer and goes on its way, its credit returned once it has been passed on; one that
has made 63 hops is dropped and counted, and if this package sent it its operation fails as unreachable; the eighth
NAK for one SEQ retrains the port, and what it had sent and not been acknowledged for goes on by the other ports of
its bundle; an IDENT flit is sent again once it has retrained; training, identification, their failures and their time
limit set the port's state. After each of them what can no longer be reached fails, and with nothing under way nothing
does. -/
def Obligations.FabricRowsAct : Prop :=
  (∀ s : State, s.fab.wreqs = [] → s.fab.buckets = [] → s.fab.insts = [] → s.fab.early = [] → linksChanged s = s) ∧
  (∀ (s : State) (p : Nat) (f : Flit), (fportOf s p).st = .up →
    (flitGood f = false ∨ (flitFt f = 0 ∧ flitSeq f ≠ (fportOf s p).rxSeq)) →
    exec (.flitReceive p f) s = .next (linksChanged (sendNull p true 0 0 0 s))) ∧
  (∀ (s : State) (p : Nat) (f : Flit), (fportOf s p).st = .up → flitGood f = true → flitFt f = 0 →
    flitSeq f = (fportOf s p).rxSeq → bits (u64 f 0) 36 8 = 0 → flitNak f = false → nextHop s (flitDst f) ≠ .inside →
    (fportOf s p).buf = [] → ∃ t u, exec (.flitReceive p f) s = .next (linksChanged t) ∧
      u = updFport p (fun x => { x with naks := 0 }) (updFport p (fun x => { x with rxSeq := x.rxSeq + 1 }) s) ∧
      (flitHops f < 63 → t = routeFrom (some (p, flitVl f)) (keysel f) (patch f 9 (leBytes 1 (flitHops f + 1)))
        (sendNull p false 0 0 0 u)) ∧
      (63 ≤ flitHops f → ∃ v, v = sendNull p false 1 (flitTc f) (flitVl f)
          (updFab (fun b => { b with hopDrops := b.hopDrops + 1 }) u) ∧
        t = if flitSrc f = pkgId s then hopFail f v else v)) ∧
  (∀ (s : State) (p : Nat) (a : BitVec 12), ((fportOf s p).st = .up ∨ (fportOf s p).st = .ident) →
    (fportOf s p).naks = 7 → (fportOf s p).nakSeq = a + 1 → ∃ t, exec (.nakReceived p a) s = .next (linksChanged t) ∧
      (fportOf t p).st = .training ∧ (fportOf t p).retraining = true ∧
      (fportOf t p).identing = ((fportOf s p).st == .ident) ∧
      (fportOf t p).retrains = satAdd 16 (fportOf s p).retrains 1 ∧ t.err.cLr = s.err.cLr + 1) ∧
  (∀ (s : State) (p : Nat) (a : BitVec 12), ((fportOf s p).st = .up ∨ (fportOf s p).st = .ident) →
    ((fportOf s p).naks < 7 ∨ (fportOf s p).nakSeq ≠ a + 1) → ∃ t, exec (.nakReceived p a) s = .next (linksChanged t) ∧
      (fportOf t p).naks = (if (fportOf s p).naks ≠ 0 ∧ (fportOf s p).nakSeq = a + 1 then (fportOf s p).naks + 1 else 1) ∧
      (fportOf t p).replays = satAdd 16 (fportOf s p).replays 1 ∧
      ((fportOf s p).buf = [] → t = { s with fab := { s.fab with ports := t.fab.ports } })) ∧
  (∀ (s : State) (p : Nat), (fportOf s p).st = .up →
    ∃ t, exec (.portLeaveUp p) s = .next (linksChanged t) ∧ (fportOf t p).st = .training ∧
      (fportOf t p).retraining = true ∧ (fportOf t p).retrains = satAdd 16 (fportOf s p).retrains 1 ∧
      t.err.cLr = s.err.cLr + 1) ∧
  (∀ (s : State) (p : Nat), (fportOf s p).retraining = true → (fportOf s p).retrainCid = none →
    ∃ t, exec (.portRetrainDone p false) s = .next t ∧ (fportOf t p).st = .failed ∧
      (fportOf t p).retraining = false) ∧
  (∀ (s u : State) (p : Nat), (fportOf s p).retraining = true → (fportOf s p).retrainCid = none →
    u = portRec p 0 ((fportOf s p).buf.foldl (fun s f => emit (.flit p f) s) (updFport p (fun x => { x with
        retraining := false, identing := false, st := if (fportOf s p).identing then .ident else .up
        txSeq := BitVec.ofNat 12 (fportOf s p).buf.length, rxSeq := 0, credits := creditInit s
        rejoin := !(fportOf s p).identing, retrainCid := none }) s)) →
    exec (.portRetrainDone p true) s = .next (if (fportOf s p).identing then u else rejoinBundle (p % 8) u)) ∧
  (∀ (s : State) (p : Nat) (ok : Bool), (fportOf s p).st = .training → (fportOf s p).retraining = false →
    (fportOf s p).en = true → ∃ t, exec (.portTrained p ok) s = .next t ∧
      (fportOf t p).st = (if ok then .ident else .failed) ∧
      (ok = true → (fportOf t p).txSeq = 1 ∧ (fportOf t p).buf.length = 1 ∧ (fportOf t p).credits = creditInit s)) ∧
  (∀ (s : State) (p : Nat) (id : Ident), (fportOf s p).st = .ident → identOk s p id = true →
    ∃ t, exec (.identReceived p id) s = .next t ∧ t = rejoinBundle (p % 8) (portRec p 0 (updFport p (fun x => { x with
      peer := id.pkg, peerdir := id.dir, rxSeq := 1, st := .up, rejoin := true }) s))) ∧
  (∀ (s : State) (p : Nat) (id : Ident), (fportOf s p).st = .ident → identOk s p id = false →
    ∃ t, exec (.identReceived p id) s = .next t ∧ (fportOf t p).st = .miscabled ∧ (fportOf t p).peer = id.pkg ∧
      (fportOf t p).peerdir = id.dir) ∧
  (∀ (s : State) (p : Nat), (fportOf s p).st = .ident →
    ∃ t, exec (.identTimeout p) s = .next t ∧ (fportOf t p).st = .failed)

/-- Performance counters (R468-R470, R474-R477): PMC_CONFIG and SAMPLE_CONFIG leave their settings for the context's
next segment boundary and touch nothing else; PMC_SNAPSHOT sets the one pending snapshot with the stamp that was
asked for or the next multiple of 16 gc; at the stamp the bytes of every counter in scope are latched; and once they
are written the command ends with the stamp and their number. -/
def Obligations.CounterRowsAct : Prop :=
  (∀ (s : State) (cid ctx : Nat) (k : Cmd) (c : Ctx), ready s cid 0x70 = some k → cmdCtx s k = .ok ctx →
    ctxOf s ctx = some c → 1 ≤ u8 k.param 1 → u8 k.param 1 ≤ 5 → u8 k.param 0 + u8 k.param 1 ≤ 16 → u16 k.param 2 = 0 →
    allZero (k.param.drop (8 + 8 * u8 k.param 1)) = true →
    (∀ i < u8 k.param 1, selBad (u64 k.param (8 + 8 * i)) = false) →
    scopeBad s ctx (BitVec.ofNat 32 (u32 k.param 4)) = none →
    ∃ t d, exec (.pmcConfig cid) s = .next t ∧ doneWith t cid stOK [] ∧ ctxOf t ctx = some d ∧
      d.pmc.scopeNext = some (BitVec.ofNat 32 (u32 k.param 4)) ∧
      (∀ i < u8 k.param 1, nmGet d.pmc.selNext (u8 k.param 0 + i) =
        some (BitVec.ofNat 64 (u64 k.param (8 + 8 * i)))) ∧
      d = { c with pmc := { c.pmc with scopeNext := d.pmc.scopeNext, selNext := d.pmc.selNext } } ∧
      t = { s with cmds := t.cmds, ctxs := t.ctxs }) ∧
  (∀ (s : State) (cid ctx : Nat) (k : Cmd) (c : Ctx) (h : W32), ready s cid 0x72 = some k → cmdCtx s k = .ok ctx →
    ctxOf s ctx = some c → h = BitVec.ofNat 32 (u32 k.param 0) → u8 k.param 4 ≤ 12 → u8 k.param 5 ≤ 1 →
    allZero (k.param.drop 8) = true → (h = 0 ∨ ∃ o, ownObj s ctx h = some o ∧ 2048 * 2 ^ u8 k.param 4 ≤ o.size) →
    ∃ t, exec (.sampleConfig cid) s = .next t ∧ doneWith t cid stOK [] ∧
      ctxOf t ctx = some { c with pmc := { c.pmc with
        smpNext := some (h, u8 k.param 4, u8 k.param 5 = 1, u16 k.param 6) } } ∧
      t = { s with cmds := t.cmds, ctxs := t.ctxs }) ∧
  (∀ (s : State) (cid ctx : Nat) (k : Cmd) (o : Obj), ready s cid 0x71 = some k → cmdCtx s k = .ok ctx →
    u64 k.param 16 % 64 = 0 → u8 k.param 24 ≤ 15 → allZero (k.param.drop 25) = true →
    (u64 k.param 0 = 0 ∨ k.fetchPcc.toNat + 4096 ≤ u64 k.param 0 ∧ u64 k.param 0 ≤ k.fetchPcc.toNat + 2 ^ 32) →
    scopeBad s ctx (BitVec.ofNat 32 (u32 k.param 12)) = none →
    ownObj s ctx (BitVec.ofNat 32 (u32 k.param 8)) = some o → (∀ g ∈ o.gran, g.hzn ≠ 3) → s.snap.isPending = false →
    snapBefore s cid = false →
    u64 k.param 16 + snapSize (u8 k.param 24) false (snapScope s (some ctx) (BitVec.ofNat 32 (u32 k.param 12))) ≤ o.size →
    ∃ t, exec (.pmcSnapshot cid) s = .next t ∧ t.snap.isPending = true ∧ t.snap.ctx = ctx ∧ t.snap.cid = some cid ∧
      t.snap.latched = none ∧
      t.snap.stamp = BitVec.ofNat 64 (if u64 k.param 0 = 0 then 16 * ceilDiv (k.fetchPcc.toNat + 4096) 16
        else u64 k.param 0) ∧ t = { s with cmds := t.cmds, snap := t.snap }) ∧
  (∀ (s : State) (cid : Nat) (k : Cmd) (o : Obj) (b : List Byte), s.snap.cid = some cid → cmdOf s cid = some k →
    s.snap.isPending = true → s.snap.latched = none → s.snap.stamp.toNat ≤ s.clk.pcc.toNat →
    objOf s (BitVec.ofNat 32 (u32 k.param 8)) = some o →
    b = snapBytes s (snapCtx s) (u8 k.param 24) s.snap.stamp
      (snapScope s (snapCtx s) (BitVec.ofNat 32 (u32 k.param 12))) → u64 k.param 16 + b.length ≤ o.size →
    ∃ t, exec .snapshotStamp s = .next t ∧ t = { s with snap := { s.snap with latched := some b } }) ∧
  (∀ (s : State) (cid : Nat) (k : Cmd) (b : List Byte), s.snap.cid = some cid → cmdOf s cid = some k →
    s.snap.latched = some b → k.done = none → k.cid = cid →
    ∃ t, exec .snapshotWriteDone s = .next t ∧ t.snap.isPending = false ∧ t.snap.cid = none ∧ t.snap.latched = none ∧
      t.hz = (objWriteAt (BitVec.ofNat 32 (u32 k.param 8)) (u64 k.param 16) b s).hz)

/-- Self-test (R371, R415-R417): SELF_TEST turns background tests of the ped-2s in service on or off, or claims them for
an intrusive test; a background piece starts on a ped-2 that nothing uses or has reserved for the piece's time and
ends with what it found; an intrusive test ends with its counts; and a passed spare takes the logical id that was
waiting for it. -/
def Obligations.SelfTestRowsAct : Prop :=
  (∀ (s : State) (cid : Nat) (k : Cmd) (l : PedSet) (ps : List Nat), ready s cid 0x60 = some k → u8 k.param 0 ≤ 2 →
    allZero (slice k.param 1 3) = true → allZero (k.param.drop 8) = true →
    domainBad s (BitVec.ofNat 32 (u32 k.param 4)) = false →
    physPed s (BitVec.ofNat 32 (u32 k.param 4)).toNat = .ok l → ps = (pedSetPed2s l).filter (ped2InService s) →
    (∀ p ∈ ps, underTest s p = false) →
    ∃ t, exec (.selfTest cid) s = .next t ∧
      (u8 k.param 0 = 0 → doneWith t cid stOK [] ∧ (∀ p ∈ ps, p ∈ t.test.background) ∧
        t = { s with cmds := t.cmds, test := { s.test with background := t.test.background } }) ∧
      (u8 k.param 0 = 1 → (∀ p ∈ ps, (ped2Of s p).lease = none) → t = claimTests { startCmd cid s with
        test := { s.test with intrusive := s.test.intrusive ++ [(cid, ps, false)] } }) ∧
      (u8 k.param 0 = 2 → t = finish0 cid stOK (ps.foldl (fun s x => stopPiece x s) { startCmd cid s with
        test := { s.test with background := s.test.background.filter (fun x => !(x ∈ ps)) } }))) ∧
  (∀ (s : State) (p : Nat), p ∈ s.test.background → ped2InService s p = true → (ped2Of s p).lease = none →
    reservedSoon s p = false → (ped2Of s p).bgRunning = false → (ped2Of s p).checks = [] →
    (List.range 6).any (fun u => unitsFree (residents s p) u 1) = true → s.err.stopped = none →
    ∃ t, exec (.backgroundTestPiece p) s = .next t ∧ (ped2Of t p).bgRunning = true ∧
      (∀ q, q ≠ p → ped2Of t q = ped2Of s q) ∧ t = { s with ped2s := t.ped2s }) ∧
  (∀ (s : State) (p : Nat) (failed : List Nat), (ped2Of s p).bgRunning = true → s.err.stopped = none →
    ∃ t, exec (.backgroundPieceDone p failed) s = .next t ∧
      t = failGrains p failed (scrubFree p (updPed2 p (fun d => { d with bgRunning := false }) s))) ∧
  (∀ (s : State) (cid n : Nat) (ps : List Nat), s.test.intrusive.find? (fun x => x.1 == cid && x.2.2) = some (cid, ps, true) →
    s.err.stopped = none → n = (ps.filter (ped2InService s)).foldl (fun n p =>
      n + popCount (nmGetD s.emap.enabled p 0) + popCount (nmGetD s.emap.spare p 0)) 0 →
    ∃ t, exec (.intrusiveTestDone cid []) s = .next t ∧
      (∃ u, u = { s with test := { s.test with intrusive := s.test.intrusive.filter (fun x => x.1 != cid) } } ∧
        t = decideLeases (finish cid stOK (leBytes 4 n ++ leBytes 4 0 ++ leBytes 2 0)
          (ps.foldl (fun s p => if leasedTo s 0 p then releasePed2 p (scrubFree p s) else s) u)))) ∧
  (∀ (s : State) (p q : Nat) (c : SpareCheck), (ped2Of s p).checks = [c] →
    nextSpare s p c.failed = some q → ∃ t, exec (.spareCheckDone p true) s = .next t ∧
      t = updPed2 p (fun d => { d with checks := [] }) (mapSpare p c q s))

/-- Staging firmware (R411, R437-R439, R443): a chunk whose digest agrees is programmed and its bit set, and the
manifest starts a staging of its own, or answers BAD_PARAM where it is not valid, the data coming from host memory,
or with the command itself on the management path (notes/assumptions/77); FW_STATUS answers the eight fields;
FW_ABORT drops an idle staging or turns an activation back; the other pair stands by again; and the erase of the
helper data ends. -/
def Obligations.FirmwareRowsAct : Prop :=
  (∀ (s : State) (cid n slot : Nat) (k : Cmd) (data : List Byte), ready s cid 0x80 = some k → u16 k.param 8 = n → n ≠ 0 →
    u64 k.param 0 % 4096 = 0 → allZero (slice k.param 10 6) = true → activating s = false →
    data = (if k.fn = mgmtFn then k.data else memRead (hostMem s (k.fn / 64)) (u64 k.param 0) 65536) →
    (k.fn = mgmtFn → u64 k.param 0 = 0) → sm3Bytes data = slice k.param 16 32 → s.fw.dir.stage = some slot → n < s.fw.dir.nchunk → slice k.param 16 32 = mChunkDigest (manifest s slot) n →
    ∃ t, exec (.fwChunk cid) s = .next t ∧
      t = (if s.fw.dir.bitmap.getLsbD n then finish cid stOK (chunkResult s.fw.dir) (startCmd cid s)
        else finish cid stOK (chunkResult (holdChunk slot n data (startCmd cid s)).fw.dir)
          (holdChunk slot n data (startCmd cid s)))) ∧
  (∀ (s : State) (cid : Nat) (k : Cmd) (data : List Byte), ready s cid 0x80 = some k → u16 k.param 8 = 0 →
    u64 k.param 0 % 4096 = 0 → allZero (slice k.param 10 6) = true → activating s = false →
    data = (if k.fn = mgmtFn then k.data else memRead (hostMem s (k.fn / 64)) (u64 k.param 0) 65536) →
    (k.fn = mgmtFn → u64 k.param 0 = 0) → sm3Bytes data = slice k.param 16 32 → s.fw.dir.stage = none → ∃ t, exec (.fwChunk cid) s = .next t ∧
      (if manifestOk data s.fw.dir.svnFloor then t.fw.dir.stage = some (stagingSlot s) ∧ t.fw.dir.bitmap = 1 ∧
          t.fw.dir.nchunk = mChunks data ∧ t.fw.dir.mdigest = mDigest data ∧ t.fw.dir.active = s.fw.dir.active ∧
          doneWith t cid stOK (chunkResult t.fw.dir)
        else doneWith t cid stBAD_PARAM [] ∧ t = { s with cmds := t.cmds })) ∧
  (∀ (s : State) (cid : Nat) (k : Cmd), ready s cid 0x81 = some k → allZero k.param = true →
    ∃ t, exec (.fwStatus cid) s = .next t ∧
      doneWith t cid stOK (leBytes 1 (fwCode s.fw.st) ++ leBytes 1 s.fw.dir.active ++
        leBytes 1 (s.fw.dir.stage.getD 0xFF) ++ leBytes 1 (s.fw.dir.pend.getD 0xFF) ++ leBytes 2 (dirReceived s.fw.dir) ++
        leBytes 2 s.fw.dir.nchunk ++ leBytes 4 (stagedSvn s) ++ leBytes 4 s.fw.svn) ∧ t = { s with cmds := t.cmds }) ∧
  (∀ (s : State) (cid : Nat) (k : Cmd), ready s cid 0x83 = some k → allZero k.param = true →
    (s.fw.st = .verify ∨ s.fw.st = .load ∨ s.fw.st = .handover) →
    ∃ t, exec (.fwAbort cid) s = .next t ∧ t.fw = { s.fw with st := .revert, abortCid := some cid } ∧
      t = { s with cmds := t.cmds, fw := t.fw }) ∧
  (∀ (s : State) (cid : Nat) (k : Cmd), ready s cid 0x83 = some k → allZero k.param = true →
    (s.fw.st = .idle ∨ s.fw.st = .staging ∨ s.fw.st = .staged) →
    ∃ t, exec (.fwAbort cid) s = .next t ∧ doneWith t cid stOK [] ∧ t.fw.dir.stage = none ∧ t.fw.st = .idle ∧
      t = { s with cmds := t.cmds, fw := t.fw, flash := t.flash }) ∧
  (∀ s : State, s.fw.slotRun ≠ 2 → activating s = false → s.fw.st ≠ .revert →
    ∃ t, exec .fwStandbyReady s = .next t ∧ t = { s with fw := { s.fw with standby := true } }) ∧
  (∀ s : State, s.sec.erasePending = true → ∃ t, exec .helperEraseDone s = .next t ∧
    t = { s with sec := { s.sec with erasePending := false }
                 flash := { s.flash with helper0 := false, helper1 := false } })

/-- Debug unlock and SPDM (R430, R431, R435): a token for this serial number and nonce unlocks debug where its signature
is valid, and does nothing where it is not; and the responder takes the eight requests in their order, slot 0 alone,
a portion of the chain of at most what one message of its transport holds, and refuses every other code. -/
def Obligations.SecurityRowsAct : Prop :=
  (∀ (s : State) (tok : Token), s.boot.serialShown = true → tok.serial = s.boot.fact.serial → tok.nonce = s.sec.nonce →
    ∃ t, exec (.debugUnlock tok) s = .next t ∧
      (if Config.sm2Verify Config.vendorKey (leBytes 8 tok.serial.toNat ++ leBytes 16 tok.nonce.toNat) tok.signature then
          t.sec.dbg = true ∧ t.sec.seed = none ∧ t.sec.idok = false ∧ t.boot.fieldWritable = false
        else t = s)) ∧
  (∀ (s : State) (tr : Transport), spdmServes s tr = true → s.fw.st ≠ .handover → s.fw.st ≠ .switch →
    ∃ t, exec (.getVersion tr) s = .next t ∧ spdmOf t tr = { spdmNew with versioned := true, transcript := 1 } ∧
      t.out = s.out ++ [.spdm tr 0x04 [0x12]] ∧ t = { s with sec := { s.sec with spdm := t.sec.spdm }, out := t.out }) ∧
  (∀ (s : State) (tr : Transport), spdmServes s tr = true → s.fw.st ≠ .handover → s.fw.st ≠ .switch →
    (spdmOf s tr).versioned = true → ∃ t, exec (.getCapabilities tr) s = .next t ∧
      spdmOf t tr = { spdmOf s tr with caps := true, transcript := (spdmOf s tr).transcript + 1 } ∧
      t.out = s.out ++ [.spdm tr 0x61 ([17] ++ leBytes 4 0x36)] ∧
      t = { s with sec := { s.sec with spdm := t.sec.spdm }, out := t.out }) ∧
  (∀ (s : State) (tr : Transport), spdmServes s tr = true → s.fw.st ≠ .handover → s.fw.st ≠ .switch →
    (spdmOf s tr).caps = true → ∃ t, exec (.negotiateAlgorithms tr true true) s = .next t ∧
      (spdmOf t tr).negotiated = true ∧ t.out = s.out ++ [.spdm tr 0x63 [1, 1]] ∧
      t = { s with sec := { s.sec with spdm := t.sec.spdm }, out := t.out }) ∧
  (∀ (s : State) (tr : Transport), spdmServes s tr = true → s.fw.st ≠ .handover → s.fw.st ≠ .switch →
    (spdmOf s tr).negotiated = true → ∃ t, exec (.getDigests tr) s = .next t ∧
      t.out = s.out ++ [.spdm tr 0x01 ([1] ++ sm3Bytes s.flash.certChain)] ∧
      t = { s with sec := { s.sec with spdm := t.sec.spdm }, out := t.out }) ∧
  (∀ (s : State) (tr : Transport) (off len : Nat) (b : List Byte), spdmServes s tr = true → s.fw.st ≠ .handover →
    s.fw.st ≠ .switch → (spdmOf s tr).negotiated = true → off ≤ s.flash.certChain.length →
    b = slice s.flash.certChain off (min len (portionMax tr)) → ∃ t, exec (.getCertificate tr 0 off len) s = .next t ∧
      t.out = s.out ++ [.spdm tr 0x02 (leBytes 2 b.length ++ leBytes 2 (s.flash.certChain.length - off - b.length) ++ b)] ∧
      t = { s with sec := { s.sec with spdm := t.sec.spdm }, out := t.out }) ∧
  (∀ (s : State) (tr : Transport) (nonce : BitVec 256) (d : BitVec 256), spdmServes s tr = true → s.fw.st ≠ .handover →
    s.fw.st ≠ .switch → (spdmOf s tr).negotiated = true → s.sec.seed = some d → s.sec.idok = true →
    ∃ t body, exec (.challenge tr 0 nonce) s = .next t ∧
      body = sm3Bytes s.flash.certChain ++
        ((List.range 11).drop 1).flatMap (fun i => leBytes 32 (nmGetD s.sec.meas i 0).toNat) ++
        leBytes 32 (freeBits 256 s).1.toNat ∧
      t.out = s.out ++ [.spdm tr 0x03 (body ++ pad 64 (Config.sm2Sign d (leBytes 8 (spdmOf s tr).transcript ++
        leBytes 32 nonce.toNat ++ body)))] ∧
      t = { s with sec := { s.sec with spdm := t.sec.spdm }, out := t.out, freeCtr := t.freeCtr }) ∧
  (∀ (s : State) (tr : Transport) (index : Nat) (nonce : BitVec 256), spdmServes s tr = true → s.fw.st ≠ .handover →
    s.fw.st ≠ .switch → (spdmOf s tr).negotiated = true → 1 ≤ index → index ≤ 10 →
    ∃ t, exec (.getMeasurements tr index false nonce) s = .next t ∧
      t.out = s.out ++ [.spdm tr 0x60 (leBytes 1 1 ++ (leBytes 1 index ++ leBytes 32 (nmGetD s.sec.meas index 0).toNat))] ∧
      t = { s with sec := { s.sec with spdm := t.sec.spdm }, out := t.out }) ∧
  (∀ (s : State) (tr : Transport) (code : Byte), spdmServes s tr = true → s.fw.st ≠ .handover → s.fw.st ≠ .switch →
    ∃ t, exec (.spdmUnsupportedRequest tr code) s = .next t ∧ t = { s with out := s.out ++ [.spdm tr 0x7F [0x07]] })

/-- Securing and replay (R349-R353, R359, R362, R366-R370): SECURE_POLICY of valid fields replaces the policy and
empties both generations; SECURE_NOW is remembered; a point that is complete makes its generation valid, and one
that fails writes its record; ROLLBACK restores a generation that is held and answers the step; and REPLAY_STEP arms
the re-run of the present step. -/
def Obligations.SecureRowsAct : Prop :=
  (∀ (s : State) (cid ctx : Nat) (k : Cmd) (c : Ctx) (p : SecPol), ready s cid 0x50 = some k → k.ctx = some ctx →
    ctxOf s ctx = some c → c.sec.pol = some p → p.en = true → allZero k.param = true →
    ∃ t, exec (.secureNow cid) s = .next t ∧
      ctxOf t ctx = some { c with sec := { c.sec with nowreq := true, nowCids := c.sec.nowCids ++ [cid] } } ∧
      t = { s with cmds := t.cmds, ctxs := t.ctxs }) ∧
  (∀ (s : State) (cid ctx n : Nat) (k : Cmd) (c : Ctx) (o : Obj) (ents : List (List Byte)), ready s cid 0x51 = some k →
    k.ctx.getD 0 = ctx → ctxOf s ctx = some c → runOut s ctx = false → liveTags s ctx = [] → c.sec.pointCids = [] →
    c.sec.nextCids = [] → ownObj s ctx (BitVec.ofNat 32 (u32 k.param 12)) = some o → n = u16 k.param 10 → n ≤ 256 →
    u64 k.param 16 + 16 * n ≤ o.size → ents = (List.range n).map (fun i => objRead s o (u64 k.param 16 + 16 * i) 16) →
    polBad s ctx k.param (parsePol k.param ents) ents true = false →
    (∀ r ∈ (parsePol k.param ents).regs, r.2.1 = false) →
    ∃ t d, exec (.securePolicy cid) s = .next t ∧ doneWith t cid stOK [] ∧ ctxOf t ctx = some d ∧
      d.sec.pol = some (parsePol k.param ents) ∧ d.sec.gen0 = secGenNone ∧ d.sec.gen1 = secGenNone ∧
      d.sec.lastPoint = none ∧ d.sec.point = none ∧ d.sec.nextPoint = none ∧ d = { c with sec := d.sec } ∧
      t = { s with cmds := t.cmds, ctxs := t.ctxs }) ∧
  (∀ (s : State) (ctx : Nat) (c : Ctx) (b : W64) (one : Bool), ctxOf s ctx = some c → c.sec.point = some (b, one) →
    ∃ t, exec (.securePointComplete ctx) s = .next t ∧
      (c.sec.acked = false → ctxOf t ctx = some { c with sec := { c.sec with acked := true } } ∧
        t = { s with ctxs := t.ctxs }) ∧
      (c.sec.acked = true → b.toNat + 2 ≤ c.step.toNat → siltOver c.sec = true → c.sec.pointCids = [] →
        (∀ x ∈ s.sieves, sieveCtx x ≠ ctx) → ∃ u d, t = pointEnded ctx b u ∧ ctxOf u ctx = some d ∧
          d.sec.point = none ∧ (if one then d.sec.gen1.valid else d.sec.gen0.valid) = true ∧
          d.sec.lastPoint = c.sec.lastPoint ∧ u = { s with ctxs := u.ctxs })) ∧
  (∀ (s : State) (ctx dd : Nat) (c : Ctx) (p : SecPol) (b : W64) (one : Bool), ctxOf s ctx = some c →
    c.sec.point = some (b, one) → c.sec.pol = some p → dd ∈ buddies s p → lnkRto s ≤ (s.clk.pcc - c.sec.pointPcc).toNat →
    ∃ t, exec (.securePointFail ctx (.ackTimeout dd)) s = .next t ∧
      t = pointEnded ctx b (failNow c.sec.pointCids (updCtx ctx (fun c => { c with sec := { c.sec with
        point := none, pointCids := [], failStep := true, sentX := c.sec.sentX ^^^ c.sec.pointX.1
        recvX := c.sec.recvX ^^^ c.sec.pointX.2 } })
        (postRec 0x12 2 (some ctx) 0xFF 0xFFFFFFFF [(0, 8, b.toNat), (8, 2, dd), (10, 1, 0)] s)))) ∧
  (∀ (s : State) (cid ctx : Nat) (serves : List (Nat × Bool)) (k : Cmd) (c : Ctx) (p : SecPol) (g : SecGen) (step : W64),
    ready s cid 0x52 = some k → k.ctx.getD 0 = ctx → ctxOf s ctx = some c → c.sec.pol = some p → p.en = true →
    allZero (k.param.drop 8) = true → runOut s ctx = false → liveTags s ctx = [] → step = BitVec.ofNat 64 (u64 k.param 0) →
    genOf c.sec step = some g → (∃ e ∈ serves, e.1 ∈ buddies s p ∧ e.2 = true) →
    ∃ t, exec (.rollback cid serves) s = .next t ∧
      t = finish cid stOK (leBytes 8 (step.toNat + 1) ++
        leBytes 8 (regBytes s ctx p.regs false + regBytes s ctx p.regs true + nineMib))
        (restore ctx c step g (startCmd cid s))) ∧
  (∀ (s : State) (cid ctx : Nat) (k : Cmd) (c : Ctx), ready s cid 0x53 = some k → k.ctx.getD 0 = ctx →
    ctxOf s ctx = some c → allZero (k.param.drop 8) = true → u64 k.param 0 = c.step.toNat → c.stepFresh = true →
    (∃ e ∈ c.sec.strata, e.complete = true ∧ e.step = c.step) → runOut s ctx = false → c.sec.replayCid = none →
    ∃ t, exec (.replayStep cid) s = .next t ∧
      ctxOf t ctx = some { c with sec := { c.sec with replayCid := some cid, replayFlags := 0 } } ∧
      t = { s with cmds := t.cmds, ctxs := t.ctxs })

/-- Errors and the tilth monitor (R364, R381, R385-R390): a tilth period folds the counts of the period into the risk by
the weights that were in force, takes the new weights and starts counting again; TILTH_READ answers the risk; a
valid TAIL moves the ring on; a lockstep or logic mismatch has its record, and is fatal where no standby pair takes
over; DUMP_CONFIG sets the port's buffer; and a fatal error stops everything and writes the dumps. -/
def Obligations.ErrorRowsAct : Prop :=
  (∀ (s : State) (slack : List Nat), s.clk.pccRun = true → ∃ t u, exec (.tilthPeriod slack) s = .next t ∧
    u.err = { s.err with
      wInForce := s.err.w
      risk := nextRisk s.err.risk (riskSum s.err.wInForce s.err.cCe s.err.cLr s.err.cAf s.err.cTh
        ((List.range 48).foldl (fun m c => max m (mage s c)) 0))
      periods := s.err.periods + 1, cCe := 0, cLr := 0, cAf := 0, cTh := 0 } ∧ u = { s with err := u.err } ∧
    t = ageDies slack (takeClkctl u)) ∧
  (∀ (s : State) (cid : Nat) (k : Cmd) (c : Ctx) (p : SecPol), ready s cid 0xB0 = some k →
    allZero k.param = true → k.pctx ≤ 1023 → k.pctx ≠ 0 → ctxOf s k.pctx = some c → mayManage c k.fn = true →
    c.sec.pol = some p → ∃ t, exec (.tilthRead cid) s = .next t ∧
      doneWith t cid stOK (leBytes 2 s.err.risk ++ leBytes 2 c.sec.rjob ++ leBytes 2 (secK p c.sec.rjob) ++
        leBytes 2 (min 65535 (stepsLeft c p)) ++ leBytes 8 (newestSecured c.sec)) ∧
      t = { s with cmds := t.cmds }) ∧
  (∀ (s : State) (cid : Nat) (k : Cmd) (c : Ctx), ready s cid 0xB0 = some k →
    allZero k.param = true → k.pctx ≤ 1023 → k.pctx ≠ 0 → ctxOf s k.pctx = some c → mayManage c k.fn = true →
    c.sec.pol = none → ∃ t kk left, exec (.tilthRead cid) s = .next t ∧
      doneWith t cid stOK (leBytes 2 s.err.risk ++ leBytes 2 c.sec.rjob ++ leBytes 2 kk ++ leBytes 2 left ++
        leBytes 8 (newestSecured c.sec)) ∧ t = { s with cmds := t.cmds, freeCtr := t.freeCtr }) ∧
  (∀ (s : State) (fn : Nat) (val : W64), rqOff s (.host fn) = false → fn % 64 = 0 →
    ((ringOf s (fn / 64)).head - BitVec.ofNat 16 (bits val.toNat 32 16)).toNat ≤ 4096 →
    ∃ t u v, exec (.errRingTailWrite (.host fn) val) s = .next t ∧ u = { s with reg := u.reg } ∧
      v = updRing (fn / 64) (fun r => ringDrain u (List.range 32) { r with
        tail := BitVec.ofNat 16 (bits val.toNat 32 16) }) u ∧
      t = (List.range ((ringOf v (fn / 64)).head - (ringOf s (fn / 64)).head).toNat).foldl
        (fun s _ => signal 64 0 (signal 0 0 s)) v) ∧
  (∀ (s : State) (slot : Nat), s.err.stopped = some slot → s.err.dumped = false → ∃ t, exec .fatalError s = .next t ∧
    t.err.dumped = true ∧
    (∃ u, u = (s.segs.map (·.ctx)).foldl (fun s c => stopSeg c .fatal stSTEP_LOST s) s ∧
      t = { dumpPort slot 1 (dumpPort slot 0 u) with
            err := { (dumpPort slot 1 (dumpPort slot 0 u)).err with dumped := true } })) ∧
  (∀ (s : State) (h : Nat), h ≤ 1 → s.clk.mainEn = true → ∃ t, exec (.lockstepMismatch h) s = .next t ∧
    (s.fw.standby = true → h ∉ s.fw.standbyUsed → t = postRec 0x18 1 none (62 + h) 0xFFFFFFFF [(0, 1, h), (1, 1, 0)]
      { s with fw := { s.fw with standbyUsed := addOnce h s.fw.standbyUsed } }) ∧
    (s.fw.standby = false → s.fw.st ≠ .switch → t = postRec 0x18 3 none (62 + h) 0xFFFFFFFF [(0, 1, h), (1, 1, 1)]
      { s with err := { s.err with barred := addOnce h s.err.barred } })) ∧
  (∀ (s : State) (die block : Nat), die ≤ 63 → block ≤ 1 → s.clk.mainEn = true →
    ∃ t, exec (.hubLogicMismatch die block) s = .next t ∧
      t = postRec 0x19 3 none die 0xFFFFFFFF [(0, 1, die), (1, 1, block)] s) ∧
  (∀ (s : State) (cid : Nat) (k : Cmd), ready s cid 0xA0 = some k → u64 k.param 0 % 4096 = 0 →
    1048576 ≤ u64 k.param 8 → u8 k.param 16 ≤ 3 → allZero (k.param.drop 17) = true → k.fn / 64 ≤ 1 →
    ∃ t, exec (.dumpConfig cid) s = .next t ∧ doneWith t cid stOK [] ∧
      (portOf t (k.fn / 64)).dump = some { bus := BitVec.ofNat 64 (u64 k.param 0), size := u64 k.param 8
                                           en := bitAt (u8 k.param 16) 0, lstore := bitAt (u8 k.param 16) 1 } ∧
      t = { s with cmds := t.cmds, port0 := t.port0, port1 := t.port1 })

/-- The reduction engine (R278-R292, R345): DIGEST_QUERY copies the newest record of the tag and step; RED_POST and
RED_WAIT issue at their turn; a data flit of an instance in flight is kept until its chunk is whole, and a late
chunk is counted; a bucket fails at its time limit and by a member's notice; a chunk that a member holds drops its
partial sums and keeps the contribution, and goes on when it resumes. After each of them posts that waited go on,
early flits start their instances and what needs an unreachable peer fails; with nothing waiting and no instance in
flight nothing follows. -/
def Obligations.ReductionRowsAct : Prop :=
  (∀ (s : State) (cid ctx tag : Nat) (c : Cmd) (o : Obj) (r : List Byte), ready s cid 0x54 = some c →
    c.ctx.getD 0 = ctx → tag = u16 c.param 0 → u16 c.param 2 = 0 → u64 c.param 16 % 64 = 0 →
    allZero (c.param.drop 24) = true → (∀ b, nmGet s.fab.buckets tag = some b → b.ctx = ctx) →
    ownObj s ctx (BitVec.ofNat 32 (u32 c.param 12)) = some o → u64 c.param 16 + 192 ≤ o.size →
    s.fab.digests.reverse.find? (fun e => e.1 == ctx && u16 e.2 0 == tag && u32 e.2 4 == u64 c.param 4 % 2 ^ 32) =
      some (ctx, r) →
    ∃ t, exec (.digestQuery cid) s = .next t ∧ doneWith t cid stOK (slice r 16 8) ∧
      t = finish cid stOK (slice r 16 8)
        (objWriteAt (BitVec.ofNat 32 (u32 c.param 12)) (u64 c.param 16) r (startCmd cid s))) ∧
  (∀ (s : State) (g t : Nat) (i : Iss), issues 0x18 redPostFaults g t s i →
    exec (.redPost g t) s = .next (redAfter (settle g (postNow i (issueDesc i s))))) ∧
  (∀ (s : State) (g t : Nat) (i : Iss), issues 0x19 redWaitFaults g t s i →
    exec (.redWait g t) s = .next (redAfter (settle g (redWaitAct i (issueDesc i s))))) ∧
  (∀ (s : State) (f : Flit) (tag k : Nat) (b : Bucket) (i : Inst), flitOp f = 8 → tag = u16 f 14 →
    k = bits (u32 f 18) 0 24 → nmGet s.fab.buckets tag = some b → instOf s tag = some i → k < nChunks b →
    redHere s tag (u16 f 16) = true → tagBusy s tag = true → exec (.reductionFlitArrive f) s =
      .next (redAfter (updChunk tag k (fun c => { c with
        rx := c.rx ++ [{ src := flitSrc f, result := bitAt (u8 f 22) 0, idx := bits (u32 f 18) 24 8
                         payload := slice f 28 224, promo := bitAt (u8 f 22) 1 }] }) s))) ∧
  (∀ (s : State) (f : Flit), (flitOp f = 8 ∨ flitOp f = 9) → nmGet s.fab.buckets (u16 f 14) = none →
    (∀ i ∈ s.fab.insts, i.tag = u16 f 14 → i.done = true) → exec (.reductionFlitArrive f) s = .next (redAfter { s with fab := (if (u16 f 14, u16 f 16) ∈ s.fab.goneTags then
      { s.fab with lateChunks := if flitOp f = 9 then s.fab.lateChunks + 1 else s.fab.lateChunks }
      else { s.fab with early := s.fab.early ++ [f] }) })) ∧
  (∀ (s : State) (tag : Nat) (i : Inst) (b : Bucket) (t0 : W64), instOf s tag = some i →
    nmGet s.fab.buckets tag = some b → i.firstPost = some t0 → i.done = false → b.timeout ≤ (s.clk.pcc - t0).toNat →
    exec (.bucketTimeout tag) s = .next (redAfter (failInst tag stSTEP_LOST 0 (pkgId s) true s))) ∧
  (∀ (s : State) (tag pkg : Nat) (st : W16) (b : Bucket), nmGet s.fab.buckets tag = some b →
    (tagBusy s tag || s.fab.insts.any (fun i => i.tag == tag && i.step == stepOf s b.ctx)) = true →
    exec (.bucketFailureNotice tag st pkg) s = .next (redAfter (failInst tag st 5 pkg false s))) ∧
  (∀ (s : State) (tag k pkg : Nat) (i : Inst) (b : Bucket), instOf s tag = some i → nmGet s.fab.buckets tag = some b →
    i.done = false → (chunkOf i k).result = none →
    ∃ t j c, exec (.bucketHoldNotice tag k pkg) s = .next t ∧ (tag, k, pkg) ∈ t.fab.held ∧ instOf t tag = some j ∧
      c = { chunkOf i k with parts := [], rx := [], sentUp := false, promoted := false, nancnt := 0, invcnt := 0
                             nanelem := none, nanrank := 0, amax := 0 } ∧
      chunkOf j k = (if (chunkOf i k).contrib.isSome then redContribute b k (groupOf s b).rank c else c) ∧
      t = { s with fab := { s.fab with held := t.fab.held, insts := t.fab.insts } }) ∧
  (∀ (s : State) (tag k pkg : Nat) (i : Inst), instOf s tag = some i → i.done = false → (chunkOf i k).result = none →
    ∃ t, exec (.bucketResumeNotice tag k pkg) s = .next t ∧ t = advanceChunk tag k (dropPartials tag k
      (updFab (fun b => { b with held := del (tag, k, pkg) b.held }) s))) ∧
  (∀ s : State, (∀ e ∈ s.fab.buckets, redWaiting s 0x18 e.1 = []) → s.fab.early = [] →
    (∀ i ∈ s.fab.insts, i.done = true) → redAfter s = s)

/-- The array (R74-R105): a pass, a convolution, a weight load, a matrix-vector product and a ballast issue at their
turn; a pass without output elements has no effect and completes in its issue gc; an idle array fills a short gap or
gates its cells over a long one; ballast over a gap of unknown length ends gated; a checksum fault has its record and
its strike, and a first strike of a pass runs again from the retry point; a row fault of MV has its record and its
strike. -/
def Obligations.ArrayRowsAct : Prop :=
  (∀ (s : State) (g t : Nat) (i : Iss), issues 0x01 passFaults g t s i →
    exec (.arrPass g t) s = .next (settle g (passAct i (issueDesc i s)))) ∧
  (∀ (s : State) (g t : Nat) (i : Iss), issues 0x02 passFaults g t s i →
    exec (.arrConv g t) s = .next (settle g (passAct i (issueDesc i s)))) ∧
  (∀ (s : State) (g t : Nat) (i : Iss), issues 0x01 passFaults g t s i → passEmpty i.va i.d = true →
    exec (.arrPass g t) s = .next (settle g (noEffect i (issueDesc i s)))) ∧
  (∀ (s : State) (g t : Nat) (i : Iss), issues 0x03 loadwFaults g t s i →
    exec (.arrLoadw g t) s = .next (settle g (loadwAct i (issueDesc i s)))) ∧
  (∀ (s : State) (g t : Nat) (i : Iss), issues 0x04 mvFaults g t s i →
    exec (.mv g t) s = .next (settle g (mvAct i (issueDesc i s)))) ∧
  (∀ (s : State) (g t : Nat) (i : Iss), issues 0x3C ballastFaults g t s i →
    exec (.ballast g t) s = .next (settle g (updGrain i.g (nextBallast (issueDesc i s).clk.pcc)
      (setWaitFor i .ballast (issueDesc i s))))) ∧
  (∀ (s : State) (g b : Nat) (gr : Grain) (r : RunSeg), nmGet s.grains g = some gr →
    (∀ o ∈ gr.out, engineOf (dOp o.desc) ≠ some 1) → gr.bal = none → gr.gated = false → segOf s gr.ctx = some r →
    b = (ballastOf s (dieOfPed2 gr.ped2)).toNat → bitAt b 20 = true →
    ∃ t, exec (.arrayIdle g) s = .next t ∧ t = { s with grains := t.grains } ∧
      (∀ n, nextArrGap s gr r = some n → n < bits b 0 16 →
        nmGet t.grains g = some { gr with bal := some (.hub (min (bits b 16 4) 8) false) }) ∧
      (∀ n, nextArrGap s gr r = some n → bits b 0 16 ≤ n → nmGet t.grains g = some { gr with gated := true }) ∧
      (nextArrGap s gr r = none → nmGet t.grains g = some { gr with bal := some (.hub (min (bits b 16 4) 8) true) })) ∧
  (∀ (s : State) (g n : Nat) (gr : Grain), nmGet s.grains g = some gr → gr.bal = some (.hub n true) →
    ∃ t, exec (.ballastGapExpire g) s = .next t ∧ nmGet t.grains g = some { gr with bal := none, gated := true } ∧
      t = { s with grains := t.grains }) ∧
  (∀ (s : State) (g ser v : Nat) (gr : Grain) (o : OutD), nmGet s.grains g = some gr →
    gr.out.find? (fun o => o.ser == ser) = some o → (dOp o.desc = 0x01 ∨ dOp o.desc = 0x02) →
    checkMade o (.vector v) = true →
    ∃ t, exec (.arrayChecksumFault g (some ser) (.vector v)) s = .next t ∧
      t = (if secondStrike s g then takeStrike g (checkRecord gr g o.daddr 0 2 o.t v 0xFFFF s)
        else replayFrom g o (takeStrike g (checkRecord gr g o.daddr 0 1 o.t v 0xFFFF s)))) ∧
  (∀ (s : State) (g n lv : Nat) (gr : Grain) (x : Bool), nmGet s.grains g = some gr → gr.bal = some (.hub lv x) → n < 8 →
    ∃ t, exec (.arrayChecksumFault g none (.pass n)) s = .next t ∧
      t = takeStrike g (checkRecord gr g 0 1 (if secondStrike s g then 2 else 1) (gr.arrT.getD 0) 0 n s)) ∧
  (∀ (s : State) (g ser row : Nat) (gr : Grain) (o : OutD), nmGet s.grains g = some gr →
    gr.out.find? (fun o => o.ser == ser) = some o → dOp o.desc = 0x04 →
    checkMade o (.vector row) = true →
    ∃ t, exec (.mvRowCheckFault g ser row) s = .next t ∧
      t = takeStrike g (checkRecord gr g o.daddr 2 (if secondStrike s g then 2 else 1) o.t row 0xFFFF s))

/-- The vector unit (R61, R127-R154, R381): VEC, its derivatives, RNG_FILL and ROUTE issue at their turn; with no
element they have no effect and complete in their issue gc; otherwise the first cache line that is missing is
requested and holds the descriptor until its fill is in, and with none missing it runs; CACHE_FILL_DONE gives the data
that a line's request was answered with to the grain's CCH slots, unless the same line is still on its way back; a
check fault of an outstanding vector descriptor is recorded, is a strike, and ends the segment with STEP_LOST. -/
def Obligations.VectorRowsAct : Prop :=
  (∀ (s : State) (g t : Nat) (i : Iss), issues 0x05 vecFaults g t s i → exec (.vec g t) s = .next (settle g (vecAct i (issueDesc i s)))) ∧
  (∀ (s : State) (g t : Nat) (i : Iss), issues 0x06 derivFaults g t s i →
    exec (.vecDeriv g t) s = .next (settle g (vecAct i (issueDesc i s)))) ∧
  (∀ (s : State) (g t : Nat) (i : Iss), issues 0x08 rngFaults g t s i →
    exec (.rngFill g t) s = .next (settle g (vecAct i (issueDesc i s)))) ∧
  (∀ (s : State) (g t : Nat) (i : Iss), issues 0x30 routeFaults g t s i →
    exec (.route g t) s = .next (settle g (vecAct i (issueDesc i s)))) ∧
  (∀ (s : State) (g t : Nat) (i : Iss), issues 0x05 vecFaults g t s i → nelem i.vc = 0 →
    exec (.vec g t) s = .next (settle g (noEffect i (issueDesc i s)))) ∧
  (∀ (s : State) (g t : Nat) (i : Iss) (o : OutD), issues 0x05 vecFaults g t s i → nelem i.vc ≠ 0 →
    vecLines (issueDesc i s) i = [] → outDOf (issueDesc i s) i.g i.ser = some o →
    exec (.vec g t) s = .next (settle g (vecWork i o.lines (setWaitFor i .nothing (issueDesc i s))))) ∧
  (∀ (s u : State) (g t va : Nat) (gr : Grain) (q : Req) (ob : Obj) (f : Nat → Byte × Bool),
    nmGet s.grains g = some gr → s.hz.reqs.find? (fun q => q.g == g && mayServe s q &&
      (match q.kind with | .fill u _ => u == t | _ => false)) = some q → q.kind = .fill t va →
    objOf s q.handle = some ob →
    (f, u) = sourceRead q ob ((List.range 64).map (fun i => va - ob.base + i)) q.ans
      (updHz (fun h => { h with reqs := h.reqs.filter (fun x => x.id != q.id) }) s) →
    exec (.cacheFillDone g t) s = .next (if backOpen s g ob va then s else queueLanes (physId s g)
      { id := 0, ser := q.ser, ctx := gr.ctx, g := g, why := .fill va, issue := s.clk.pcc, owner := 5, far := false
        view := 0xFF, all := lineBits (((List.range 64).map (fun i => va - ob.base + i)).map f), ws := []
        rd := lineLanes (placeOf (updHz (fun h => { h with reqs := h.reqs.filter (fun x => x.id != q.id) }) s) g) va } u)) ∧
  (∀ (s : State) (g ser elem : Nat) (gr : Grain) (o : OutD), nmGet s.grains g = some gr →
    gr.out.find? (fun o => o.ser == ser) = some o → engineOf (dOp o.desc) = some 3 →
    exec (.vectorCheckFault g ser elem) s = .next (stopSeg gr.ctx .vectorCheck stSTEP_LOST (takeStrike g
      (postRec 0x04 2 (some gr.ctx) (dieOfPed2 gr.ped2) g [(0, 8, o.daddr.toNat), (8, 1, o.t), (12, 4, elem)] s))))

/-- DMA and window descriptors, their answers and their tags (R47-R51, R62, R204-R207, R267-R273): DMA_GET, DMA_PUT, its
flush, WIN_PUT and WIN_GET issue at their turn; a request that may be served and is not of another row's kind is
answered: it gives its tag back, its descriptor completes once none of its requests is open, and an acknowledged
write stores its bits; an access of another package is served where its granule lies; an acknowledgement, a response
and a refusal of a window request each end it; and a freed tag goes to the first request of its pool that waits for
one. -/
def Obligations.DmaRowsAct : Prop :=
  (∀ (s : State) (g t : Nat) (i : Iss), issues 0x10 dmaFaults g t s i →
    exec (.dmaGet g t) s = .next (settle g (getAct i (issueDesc i s)))) ∧
  (∀ (s : State) (g t : Nat) (i : Iss), issues 0x11 dmaFaults g t s i → dmaFlush i.d = false →
    exec (.dmaPut g t) s = .next (settle g (putAct i (issueDesc i s)))) ∧
  (∀ (s : State) (g t : Nat) (i : Iss), issues 0x11 dmaFaults g t s i → dmaFlush i.d = true →
    exec (.dmaPutFlush g t) s = .next (settle g (putAct i (issueDesc i s)))) ∧
  (∀ (s : State) (i : Iss), dmaFlush i.d = true → putAct i s =
    (if fetchOpen (flushLines i.g i.ser i.pl s) i.g i.ser then setWaitFor i .requests (flushLines i.g i.ser i.pl s)
      else flushLines i.g i.ser i.pl s)) ∧
  (∀ (s : State) (req : Nat) (ans : HzAnswer) (q : Req), s.hz.reqs.find? (fun q => q.id == req) = some q →
    mayServe s q = true → ((∃ ms, q.kind = .read ms) ∨ (∃ ws, q.kind = .write ws) ∨ (∃ n ms, q.kind = .rung n ms)) →
    exec (.horizonResponse req ans) s = .next (settle q.g (respond q ans s))) ∧
  (∀ (s : State) (ans : HzAnswer) (q : Req) (ws l : List BitW) (u : State) (o : Obj) (w : BitW), q.kind = .write ws →
    q.dead = false → q.clod = none → u = updHz (fun h => { h with reqs := h.reqs.filter (fun x => x.id != q.id) }) s →
    objOf s q.handle = some o → ws = w :: l → hz4Cause u o (w.1 / 8) ans = none →
    outDOf u q.g q.ser = none → outDOf (noteObj q.ctx q.g 0xFF q.handle ws (objWriteBits q.handle ws u)) q.g q.ser = none →
    respond q ans s = noteObj q.ctx q.g 0xFF q.handle ws (objWriteBits q.handle ws u)) ∧
  (∀ (s : State) (req n : Nat) (ans : HzAnswer) (q : Req) (f : Flit) (x : WinSide),
    s.hz.reqs.find? (fun q => q.id == req) = some q → mayServe s q = true → q.kind = .window f x n →
    exec (.horizonResponse req ans) s =
      .next (winServed q f x n ans (updHz (fun h => { h with reqs := h.reqs.filter (fun y => y.id != q.id) }) s))) ∧
  (∀ (s : State) (g t : Nat) (i : Iss), issues 0x12 winFaults g t s i →
    exec (.winPut g t) s = .next (settle g (winPutAct i (issueDesc i s)))) ∧
  (∀ (s : State) (g t : Nat) (i : Iss), issues 0x13 winFaults g t s i →
    exec (.winGet g t) s = .next (settle g (winGetAct i (issueDesc i s)))) ∧
  (∀ (s : State) (f : Flit) (p : Bool) (q : WReq), s.fab.wreqs.find? (fun q => q.rtag == u16 f 25 && q.tagged) = some q →
    q.dead = false → q.isGet = false → flitOp f = 4 → ∃ t, exec (.windowResponseArrive f p) s = .next t ∧
      t = winMaybeDone q.g q.ser
        (updFab (fun b => { b with wreqs := b.wreqs.filter (fun x => x.rtag != q.rtag) }) s)) ∧
  (∀ (s : State) (f : Flit) (q : WReq), s.fab.wreqs.find? (fun q => q.rtag == u16 f 25 && q.tagged) = some q →
    q.dead = false → q.isGet = true → q.clod = none → flitOp f = 3 →
    ∃ t, exec (.windowResponseArrive f false) s = .next t ∧
      t = winMaybeDone q.g q.ser (winLocalWrite q.g q.ser (q.moves.map (fun m =>
          (m.2.1, m.2.2, (bitsFrom (fun a => (f.getD (28 + a) 0, false)) m.1 m.2.2).1, false)))
        (updFab (fun b => { b with wreqs := b.wreqs.filter (fun x => x.rtag != q.rtag) }) s))) ∧
  (∀ (s : State) (f : Flit) (p : Bool) (q : WReq), s.fab.wreqs.find? (fun q => q.rtag == u16 f 25 && q.tagged) = some q →
    q.dead = false → flitOp f = 5 → ∃ t, exec (.windowResponseArrive f p) s = .next t ∧
      t = winFail q (BitVec.ofNat 16 (u8 f 27)) 0 s) ∧
  (∀ (s : State) (l : Nat) (q : WReq), s.fab.wreqs.all (fun q => nextHop s q.dst != .drop) = true →
    s.fab.wreqs.find? (fun q => !q.tagged && !q.dead && q.ldie == l && winTagFree s l q.dst) = some q →
    exec (.tagGrant (.ldie l)) s = .next (settle q.g (winSend q s))) ∧
  (∀ (s : State) (pool : Pool) (q : Req), (∀ l, pool ≠ .ldie l) → nextWaiter s pool = some q →
    exec (.tagGrant pool) s = .next (settle q.g (grantReq q s)))

/-- The sieve (R215, R229-R249): SIEVE_GATHER and SIEVE_SCATTER of both modes issue at their turn; an APPLY takes the
pool over and runs its rows until one must wait for the log; a row arrives, once its request may be served, from the
source that the request named, and is served once; a granule with log entries is rewritten to free LBAs of its drive
and waits, flushed, for the boundary, and rows that wait for the log try again; and OBJ_FALLBACK of valid rungs gives
the object its ladder. -/
def Obligations.SieveRowsAct : Prop :=
  (∀ (s : State) (g t : Nat) (i : Iss), issues 0x14 gatherFaults g t s i →
    exec (.sieveGather g t) s = .next (settle g (gatherAct i (issueDesc i s)))) ∧
  (∀ (s : State) (g t : Nat) (i : Iss), issues 0x15 scatterFaults g t s i → isApply i.d = false →
    exec (.sieveScatterAdd g t) s = .next (settle g (addAct i (issueDesc i s)))) ∧
  (∀ (s : State) (g t : Nat) (i : Iss), issues 0x15 scatterFaults g t s i → isApply i.d = true →
    exec (.sieveScatterApply g t) s = .next (settle g (applyAct i (issueDesc i s)))) ∧
  (∀ (s u : State) (g ser slot id src : Nat) (l : List Nat) (o : OutD) (ga : Gather) (i : Iss) (t : Sieve) (ob : Obj) (q : Req),
    outDOf s g ser = some o → gatherOf s g ser = some ga → issOf s g o = some i →
    sieveOf s i.ctx (BitVec.ofNat 32 (u32 i.d 10)) = some t → ga.ids.getD slot none = some id →
    ownObj s i.ctx (BitVec.ofNat 32 (u32 i.d 10)) = some ob → rowReqs s g ser slot = [q] → mayServe s q = true →
    q.kind = .row src l → nmGet ga.got slot = none → nmGet ga.rung slot = none → u = rowTaken g ser slot s →
    (src = 2 → exec (.sieveRowArrive g ser slot) s = .next (gatherEnd i (rowIn i t 2 slot ob (id * t.rstride) (rowBytes t)
      (rowVals t (ctxScale u i.ctx t.tscale)) q.ans u))) ∧
    (∀ r, src = 0 → hotFind t (replicaOf t (dieOfPed2 i.ped2)) id = some r → exec (.sieveRowArrive g ser slot) s =
      .next (gatherEnd i (rowVal i t 0 slot (rowVals t (ctxScale u i.ctx t.tscale) (hotBytes u t r.slot).1)
        (hotBytes u t r.slot).2
        (if (hotBytes u t r.slot).2 then consumeRow i true t.handle (id * t.rstride) slot u else u))))) ∧
  (∀ (s : State) (table j : Nat) (t : Sieve), sieveAt s table = some t →
    (t.merge = none → exec (.dlogMergeGranuleDone table j) s = .next (mergeStart table s)) ∧
    (∀ m, t.merge = some m → m.granule = j → m.phase = 4 → exec (.dlogMergeGranuleDone table j) s =
      .next (applyWaits table (mergeStart table
        (updSieve table (fun t => { t with merge := none, merging := t.merging ++ [(j, m.frame, m.seq)] }) s))))) ∧
  (∀ (s : State) (cid : Nat) (c : Cmd) (o : Obj) (h r1 r2 : W32), ready s cid 0x24 = some c →
    h = BitVec.ofNat 32 (u32 c.param 0) → r1 = BitVec.ofNat 32 (u32 c.param 4) → r2 = BitVec.ofNat 32 (u32 c.param 8) →
    u8 c.param 12 = 0 → allZero (slice c.param 13 3) = true → allZero (c.param.drop 16) = true →
    ownObj s (c.ctx.getD 0) h = some o → rungBad s (c.ctx.getD 0) r1 = false → rungBad s (c.ctx.getD 0) r2 = false →
    (r1 = 0 ∨ o.size ≤ rungSize s (c.ctx.getD 0) r1) → s.sieves.all (fun t => t.handle != h) = true →
    ∃ t, exec (.objFallback cid) s = .next t ∧ doneWith t cid stOK [] ∧
      t.hz.objs = updWhere (fun o => o.ctx == h.toNat / 2 ^ 22 && o.idx == h.toNat % 2 ^ 22)
        (fun o => { o with rung1 := r1, rung2 := r2, fbMode := 0 }) s.hz.objs ∧
      t = { s with cmds := t.cmds, hz := { s.hz with objs := t.hz.objs } })

/-- Segments (R36, R37, R160-R168, R212, R338-R348, R360, R399): SEGMENT_START of a running context whose ped-2s are
ready and not held back, and that no secure point holds, asks for the first bursts where that has not been done and,
once they are in, adds the segment at gc 0, starts its grains and gives the signals that were held, and one whose
segment needs retired hardware ends with DEGRADED; SEGMENT_END of a segment that is over does the boundary's work and
decides the leases; the watchdog stops a segment at twice its length; a deep save, once no lane of the context waits,
keeps the scratchpads and a restore puts them back; and a drain ends, holds what has not finished and notes a secure
point whose units must be sent again. -/
def Obligations.SegmentRowsAct : Prop :=
  (∀ (s : State) (ctx n : Nat) (c : Ctx) (r : SegRun) (pl : Plan) (d : SegD), ctxOf s ctx = some c →
    nextSeg s c = some (r, pl, n, d) → c.st = .running → segOf s ctx = none → s.err.stopped = none →
    pointHolds c = false → (segDegraded s ctx d = true → exec (.segmentStart ctx) s = .next (decideLeases (settleLease ctx
      ((footprint d).filter (leasedTo s ctx)) (endRun ctx stDEGRADED c.step (earn s))))) ∧
    (segDegraded s ctx d = false → (∀ p ∈ footprint d, ped2Ready s ctx p = true ∧ heldBack s p = false) →
      ∃ u, u = (if (match c.first with | some f => f.cid == r.cid && f.seg == n | none => false) = true then s
          else askFirst ctx r.cid n d s) ∧
        exec (.segmentStart ctx) s =
          .next (if firstIn u ctx r.cid n = true then startSegment ctx r pl n d (endHold ctx (footprint d) u) else u))) ∧
  (∀ (s u : State) (ctx n : Nat) (c : Ctx) (r : SegRun) (pl : Plan) (d : SegD),
    u = openStep ctx (n = 0) pl (if r.ended = 0 then r.seed else none)
      (takeBallast (footprint d) (takeBoundary ctx s)) → ctxOf u ctx = some c →
    ∃ v seg, v.segs = u.segs ++ [seg] ∧ seg.ctx = ctx ∧ seg.gc0 = u.clk.pcc ∧ seg.seg = n ∧ seg.plan = r.plan ∧
      seg.cid = r.cid ∧ seg.stop = none ∧ seg.status = none ∧ seg.specActive = specOn c ∧ seg.d.length = d.length ∧
      v = { u with segs := v.segs, ctxs := v.ctxs } ∧
      startSegment ctx r pl n d s = c.heldSigs.foldl (fun s e => semAdd ctx e.1 e.2.1 e.2.2
          (logicalId ((footprint d).headD 0) 0) s) (updCtx ctx (fun c => { c with first := none })
        (seg.d.progs.foldl (fun s x => startPed2 ctx c.pmc.smpPeriod x s) (loadEntries seg.d v)))) ∧
  (∀ (s : State) (ctx : Nat) (r : RunSeg), segOf s ctx = some r → s.err.stopped = none → segOver s r = true →
    exec (.segmentEnd ctx) s = .next (decideLeases (settleLease ctx (footprint r.d)
      (takeShares (settleFences ctx (endSegment r (earn s))))))) ∧
  (∀ (s : State) (ctx : Nat) (r : RunSeg), segOf s ctx = some r → r.stop = none → 2 * r.d.length ≤ segGc s r →
    segOver s r = false → exec (.segmentWatchdog ctx) s =
      .next (stopSeg ctx .watchdog stSTEP_LOST (r.d.progs.foldl (fun a x => watchdogRec s r x a) s))) ∧
  (∀ (s : State) (ctx p : Nat) (x : LsPart) (a : SaveArea), ctx ∈ (ped2Of s p).saving → lsPartOf s p ctx = some x →
    areaOf s ctx p = some a → s.err.stopped = none →
    (∀ e ∈ s.phys, e.1 / 256 = p → lanesWait s e.1 (fun x => x.ctx == ctx) = false) →
    ∃ t u b, exec (.deepSaveDone ctx p) s = .next t ∧
      t = grantResidency p (dropResidency ctx p u) ∧ u = { s with saves := u.saves } ∧ areaOf u ctx p = some b ∧
      b.saved = true ∧ (∀ k < 250, nmGetD b.data k [] = memMove (x.base * 16384) (scratchOf x) 0
        (physOf s (physId s (logicalId p k))).ls)) ∧
  (∀ (s : State) (ctx p : Nat) (x : LsPart) (a : SaveArea), (ped2Of s p).restoring = true → leasedTo s ctx p = true →
    lsPartOf s p ctx = some x → areaOf s ctx p = some a → ∃ t, exec (.deepRestoreDone ctx p) s = .next t ∧
      (ped2Of t p).restoring = false ∧ t = { s with phys := t.phys, ped2s := t.ped2s } ∧
      t = updPed2 p (fun d => { d with restoring := false })
        (a.bad.foldl (fun s e => updPhys (physId s (logicalId p e.1)) (fun q => { q with
            poison := e.2.foldl (fun l w => addOnce (x.base * 512 + w) l) q.poison }) s)
          (a.data.foldl (fun s e => updPhys (physId s (logicalId p e.1)) (fun q => { q with
            ls := e.2.foldl (fun m b => memSet (x.base * 16384 + b.1) b.2 m) q.ls }) s) s))) ∧
  (∀ (s : State) (ctx : Nat) (c : Ctx), ctxOf s ctx = some c → c.draining = true →
    exec (.fabricDrainEnd ctx) s = .next (holdChunks ctx (updCtx ctx (fun c => { c with
      draining := false, sec := { c.sec with resend := c.sec.point.isSome } }) s)))

/-- The SYN engine (R169-R172, R178-R187, R356, R373-R377, R480) and the patrol (R59): each of its descriptors issues at
its turn; a barrier that is done already, or whose last member this is, holds nobody; the cut-offs of a guarded
fetch act once their gc has come; a clod is decided once every member has ended its part; and the patrol checks the
next row of each bank whose slot is its own. -/
def Obligations.SyncRowsAct : Prop :=
  (∀ (s : State) (g t : Nat) (i : Iss), issues 0x20 barrierFaults g t s i →
    exec (.barrier g t) s = .next (settle g (barrierAct i (issueDesc i s)))) ∧
  (∀ (s : State) (g t : Nat) (i : Iss), issues 0x24 deadlineFaults g t s i →
    exec (.deadline g t) s = .next (settle g (updThr i.g i.t (fun th => { th with
      guards := th.guards ++ [{ due := u24 i.d 10, step1 := u24 i.d 13, step2 := u24 i.d 16, fetch := none, stage := 0,
                                late := [] }] }) (issueDesc i s)))) ∧
  (∀ (s : State) (g t ser : Nat), dueGuards s g t 1 = [ser] → exec (.deadlineDue g t) s = .next (cutoff g ser 1 s)) ∧
  (∀ (s : State) (g t ser : Nat), dueGuards s g t 2 = [ser] →
    exec (.deadlineRung2Cutoff g t) s = .next (cutoff g ser 2 s)) ∧
  (∀ (s : State) (g t ser : Nat), dueGuards s g t 3 = [ser] →
    exec (.deadlineRung3Cutoff g t) s = .next (cutoff g ser 3 s)) ∧
  (∀ (s : State) (g t : Nat) (i : Iss), issues 0x28 clodBeginFaults g t s i →
    exec (.clodBegin g t) s = .next (settle g (clodBeginAct i (issueDesc i s)))) ∧
  (∀ (s : State) (g t k : Nat) (i : Iss), issues 0x29 clodCommitFaults g t s i → clodKeyOf (issueDesc i s) i.g i.t = some k →
    exec (.clodCommit g t) s = .next (settle g (setWaitFor i (.clod k)
      (updClod k (fun c => { c with committed := addOnce i.g c.committed }) (issueDesc i s))))) ∧
  (∀ (s : State) (g t k : Nat) (i : Iss), issues 0x2A clodAbortFaults g t s i → clodKeyOf (issueDesc i s) i.g i.t = some k →
    exec (.clodAbort g t) s = .next (settle g (updThr i.g i.t (fun th => { th with clod := none }) (updClod k (fun c => { c with
      committed := addOnce i.g c.committed, explicitAbort := true }) (issueDesc i s))))) ∧
  (∀ (s : State) (ctx key : Nat) (c : Clod), s.clods.find? (fun c => c.key == key && c.ctx == ctx) = some c →
    clodReady s c = true → c.failed = none → c.explicitAbort = false →
    exec (.clodDecision ctx key) s = .next (releaseCommits key 0 (clodAbortRec c (applyAllS ctx c.preps
      ((clodTargets c).foldl (fun s d => emit (.clodDecision d key true) s)
        { s with clods := s.clods.filter (fun x => x.key != key) }))))) ∧
  (∀ (s : State) (g t : Nat) (i : Iss), issues 0x2C specBeginFaults g t s i → i.r.specActive = true →
    exec (.specBegin g t) s = .next (settle g (updThr i.g i.t (fun th => { th with
      spec := .spec, heldSig := []
      task := some { stage := u32 i.d 12, stageLen := u32 i.d 16, first := i.pos + 1, size := u16 i.d 10,
                     left := u16 i.d 10, altLeft := 0 } }) (issueDesc i s)))) ∧
  (∀ (s : State) (g t : Nat) (i : Iss), issues 0x2D specResolveFaults g t s i →
    exec (.specResolve g t) s = .next (settle g (specResolveAct i (issueDesc i s)))) ∧
  (∀ (s : State) (g t : Nat) (i : Iss), issues 0x34 secureMarkFaults g t s i →
    exec (.secureMark g t) s = .next (settle g (secureMarkAct i (issueDesc i s)))) ∧
  (∀ (s : State) (g t : Nat) (i : Iss), issues 0x38 pmcMarkFaults g t s i →
    exec (.pmcMark g t) s = .next (settle g (pmcMarkAct i (issueDesc i s)))) ∧
  (∀ (s : State) (g : Nat), assigned s g = true → s.sec.dbg = false → scrubSlot s (physId s g / 256) 0 = true →
    ∃ t, exec (.patrolScrubSlot g [.clean]) s = .next t ∧
    t = { s with phys := t.phys } ∧ (physOf t (physId s g)).ls = (physOf s (physId s g)).ls ∧
      (physOf t (physId s g)).patrol.head? = some (((physOf s (physId s g)).patrol.getD 0 0 + 1) % 768)) ∧
  (∀ (s : State) (g : Nat), assigned s g = true → s.sec.dbg = false →
    scrubSlot s (physId s g / 256) 0 = true → ∃ t,
    exec (.patrolScrubSlot g [.corrected]) s = .next t ∧ t.err.cCe = s.err.cCe + 1 ∧
      (ped2Of t (logicalPed2 g)).corr = (ped2Of s (logicalPed2 g)).corr + 1 ∧
      t = { s with phys := t.phys, ped2s := t.ped2s, err := { s.err with cCe := s.err.cCe + 1 } })

/-- Guarded registers (R325, R387, R404, R446-R450): the A write of a pair opens its window; the B write of a pair that
matches, of a value that the register takes, gives the register that value and its effect (a package reset waits
until every host that can has asked for it); a slot whose manifest is not valid fails the pair. -/
def Obligations.RegisterRowsAct : Prop :=
  (∀ (s : State) (rq : Requester) (g : GReg) (va : W32), rqOff s rq = false → gMay rq g = true → pendOf s rq g = none → ∃ t,
    exec (.guardedWriteA rq g va) s = .next t ∧ pendOf t rq g = some va ∧
      t = { dropHeld rq s with reg := { (dropHeld rq s).reg with pend := t.reg.pend } }) ∧
  (∀ (s u : State) (rq : Requester) (p : Nat), rqOff s rq = false → p < 2 → rq = .host (64 * p) → pendOf s rq .pkgrst = some 1 →
    u = closePend rq .pkgrst (dropHeld rq s) → (portOf s (1 - p)).pkgReq = false → noLink1s s (1 - p) = false →
    exec (.hubPkgrstPair rq (~~~1)) s = .next (updPort p (fun x => { x with pkgReq := true }) u)) ∧
  (∀ (s u : State) (rq : Requester) (p : Nat), rqOff s rq = false → p < 2 → rq = .host (64 * p) → pendOf s rq .pkgrst = some 1 →
    u = closePend rq .pkgrst (dropHeld rq s) → (portOf s (1 - p)).pkgReq = true →
    exec (.hubPkgrstPair rq (~~~1)) s = .next (packageReset (updPort p (fun x => { x with pkgReq := true }) u))) ∧
  (∀ (s u : State) (rq : Requester) (va : W32), rqOff s rq = false → gMay rq .pwrLimit = true → pendOf s rq .pwrLimit = some va →
    u = closePend rq .pwrLimit (dropHeld rq s) →
    exec (.pwrLimitPair rq (~~~va)) s = .next { u with pwr := { u.pwr with limit := limitRead va } }) ∧
  (∀ (s u : State) (rq : Requester) (va : W32), rqOff s rq = false → gMay rq .pwrClkctl = true → pendOf s rq .pwrClkctl = some va →
    u = closePend rq .pwrClkctl (dropHeld rq s) → exec (.pwrClkctlPair rq (~~~va)) s =
      .next (noteRwp ((va ^^^ s.pwr.clkctl) &&& 0xFFE0F800 != 0) { u with pwr := { u.pwr with clkctl := clkctlRead va } })) ∧
  (∀ (s u : State) (va : W32), pendOf s .mgmt .secAlarm = some va → u = closePend .mgmt .secAlarm (dropHeld .mgmt s) →
    va.getLsbD 31 = false → exec (.secAlarmPair .mgmt (~~~va)) s =
      .next (noteRwp ((va ^^^ s.sec.alarm) &&& 0x7FFFFC00 != 0) { u with sec := { u.sec with alarm := alarmNorm va } })) ∧
  (∀ (s u : State) (va : W32), pendOf s .mgmt .secAlarm = some va → u = closePend .mgmt .secAlarm (dropHeld .mgmt s) →
    va.getLsbD 31 = true → s.sec.srcActive = 0 → exec (.secAlarmClear .mgmt (~~~va)) s =
      .next (measureState 3 (noteRwp ((va ^^^ s.sec.alarm) &&& 0x7FFFFC00 != 0) { u with sec := { u.sec with
        alarm := alarmNorm va, level := 0, cause := 0 } }))) ∧
  (∀ (s u : State) (rq : Requester), rqOff s rq = false → gMay rq .secErase = true → pendOf s rq .secErase = some 1 →
    u = closePend rq .secErase (dropHeld rq s) → exec (.secEraseVolatile rq (~~~1)) s =
      .next (measureState 5 (eraseVolatile (rwpWrite 0xA00020 0xFFFFFFFC 1 u)))) ∧
  (∀ (s u : State), pendOf s .mgmt .secErase = some 2 → u = closePend .mgmt .secErase (dropHeld .mgmt s) →
    ∃ v, v = eraseVolatile (rwpWrite 0xA00020 0xFFFFFFFC 2 u) ∧ exec (.secEraseHelper .mgmt (~~~2)) s =
      .next (measureState 5 { v with sec := { v.sec with erasePending := true } })) ∧
  (∀ (s u : State) (rq : Requester) (va : W32), rqOff s rq = false → gMay rq .secSlot = true → pendOf s rq .secSlot = some va →
    u = closePend rq .secSlot (dropHeld rq s) → s.fw.st ≠ .staging → exec (.secSlotPair rq (~~~va)) s =
      .next (if manifestOk (manifest s (bits va.toNat 0 1)) s.fw.dir.svnFloor then
          writeDir (fun d => { d with active := bits va.toNat 0 1 }) (rwpWrite 0xA00030 0xFFFFFFFE (va.setWidth 64) u)
        else guardFail rq 6 (gRegA .secSlot) va u)) ∧
  (∀ (s u : State) (rq : Requester) (va : W32), rqOff s rq = false → gMay rq .secTest = true → pendOf s rq .secTest = some va →
    u = closePend rq .secTest (dropHeld rq s) → exec (.secTestPair rq (~~~va)) s =
      .next (noteRwp ((va ^^^ s.sec.test) &&& 0xFFFFFF00 != 0) { u with sec := { u.sec with test := va } })) ∧
  (∀ (s u : State) (rq : Requester) (va : W32), rqOff s rq = false → gMay rq .secScrub = true → pendOf s rq .secScrub = some va →
    u = closePend rq .secScrub (dropHeld rq s) → exec (.secScrubPair rq (~~~va)) s =
      .next (noteRwp ((va ^^^ s.sec.scrub) &&& 0xFFFFFFFE != 0) { u with sec := { u.sec with scrub := va } }))

/-- A step runs the command at the front of the queue, on the queue's rest; with no command waiting, one gc passes (the
model's choice, notes/assumptions/2). -/
def Obligations.StepRunsFrontCommand : Prop :=
  (∀ (s : State) (c : Instr) (rest : List Instr), s.pending = c :: rest → step s = exec c { s with pending := rest }) ∧
  (∀ s : State, s.pending = [] → step s = .next (tick s))

/-- The queue is served first in, first out: a step takes its front command, and no command puts one in or takes another
out. -/
def Obligations.QueueIsServedInOrder : Prop :=
  ∀ s t : State, step s = .next t → t.pending = s.pending.tail

/-- No command of the table stops the package by a fault or a refusal, in any state: what is wrong with it is answered
by a status, a record or a count, or drops it. -/
def Obligations.NoCommandStops : Prop :=
  (∀ (c : Instr) (s : State), ∃ t, exec c s = .next t) ∧ (∀ s : State, goesOn s)

/-- The state at reset meets the invariants of the clocks and of the memories, and no command waits. -/
def Obligations.ResetMeetsInvariants : Prop :=
  clocksOk State.reset ∧ memoriesOk State.reset ∧ State.reset.pending = []

/-- The values that the register tables give for reset (R104, R294, R300, R386, R387, R404, R420, R446, R449, R464):
power registers, alarm levels, links and credits, error rings and fatal slots, HUB_BOOT, HUB_GUARD and HUB_ACCERR. -/
def Obligations.ResetValues : Prop :=
  State.reset.pwr.ctl = 0x3 ∧ State.reset.pwr.limit = 0x01B861A8 ∧ State.reset.pwr.clkctl = 0x00100640 ∧
  State.reset.pwr.ballast = 0x00160200 ∧ State.reset.sec.alarm = 0x295 ∧ State.reset.sec.test = 0 ∧
  State.reset.sec.scrub = 0 ∧ State.reset.fab.torus = 0 ∧ State.reset.fab.ctl = 0x186A00 ∧
  State.reset.fab.credit = 0x10204060206010A0 ∧ State.reset.err.w = 0x2020FF4001 ∧ State.reset.err.valid = 0 ∧
  State.reset.err.ring0.head = 0 ∧ State.reset.err.ring0.tail = 0 ∧ State.reset.err.ring1.head = 0 ∧
  State.reset.err.ring1.tail = 0 ∧ State.reset.boot.phase = 0 ∧ State.reset.boot.outcome = 0 ∧ State.reset.reg.gFails = 0 ∧
  State.reset.reg.badsize = 0 ∧ State.reset.reg.rwpw = 0 ∧ State.reset.reg.rwpt = false ∧ State.reset.clk.pcc = 0 ∧
  State.reset.clk.rtc = 0 ∧ (∀ fn, (fnOf State.reset fn).asq = 0 ∧ (fnOf State.reset fn).acq = 0 ∧
    (fnOf State.reset fn).ardy = false ∧ (fnOf State.reset fn).aper = 0)

/-- The clocks keep their shape at every step, of any command and from any state that has it (R393, R405, R487): the
main rails need the standby rail, the PCC runs only with the main rails on, and it stands at 0 until it is let go. -/
def Obligations.ClocksKeepTheirShape : Prop :=
  ∀ s t : State, clocksOk s → step s = .next t → clocksOk t

/-- "The PCC never stops and never runs backwards while the main rails are up, and only a cold start sets it to 0"
(R393): at any step, of any command and from any state, a PCC that ran and still runs has not moved or moved on by
one gc; one that no longer runs stands at 0, and it was a command that stopped it, never the passing of a gc. -/
def Obligations.PccNeverRunsBackwards : Prop :=
  ∀ s t : State, step s = .next t → s.clk.pccRun = true →
    (t.clk.pccRun = true → t.clk.pcc = s.clk.pcc ∨ t.clk.pcc = s.clk.pcc + 1) ∧
    (t.clk.pccRun = false → t.clk.pcc = 0 ∧ s.pending ≠ [])

/-- "The factory part is written once by Quogrim" (R411): no step changes either copy of it, nor the certificate chain
beside it in boot flash. -/
def Obligations.FactoryPartNeverChanges : Prop :=
  ∀ s t : State, step s = .next t → t.flash.factA = s.flash.factA ∧ t.flash.factB = s.flash.factB ∧
    t.flash.certChain = s.flash.certChain

/-- One gc (R63, R393, R397): once the PCC runs, the lanes whose slot it is go through, which is nothing where none
waits, and what a check of this gc may find is noted (the model's free choice, notes/assumptions/116); then the PCC
advances by one, the wall time by one period of the package clock, or by two where the throttle stretches the gc, which
STRETCH counts; that leaves the memories, the registers and the queue alone; before the PCC runs nothing passes. -/
def Obligations.OneGcPasses : Prop :=
  (∀ s u : State, s.clk.pccRun = true → u = laneStep (eccStep s) → (tick s).clk.pcc = s.clk.pcc + 1 ∧
    (tick s).clk.wallUs = s.clk.wallUs + mkRat (if s.clk.pcc.toNat % 16 < u.pwr.level then 2 else 1) (max u.pwr.clk 1) ∧
    (tick s).pwr.stretch = u.pwr.stretch + (if s.clk.pcc.toNat % 16 < u.pwr.level then 1 else 0) ∧
    tick s = { u with clk := (tick s).clk, pwr := (tick s).pwr, ctxs := (tick s).ctxs, ped2s := (tick s).ped2s,
                      grains := (tick s).grains, sieves := (tick s).sieves, segs := (tick s).segs }) ∧
  (∀ s : State, (∀ e ∈ s.phys, e.2.pend = []) → laneStep s = s) ∧
  (∀ s : State, s.clk.pccRun = false → tick s = s)

/-- Semaphores (R71-R73): a signal adds n and saturates at 65,535; every other semaphore of the context, and every other
context, stays. A waiter that the value satisfies takes its n in the same step and stops waiting; one that it does
not satisfy keeps waiting and takes nothing; of two, the earlier is served first and the value is tested again.
SEM_WAIT and SEM_SIGNAL issue at their turn, and inside a clod the signal is prepared with it (R374). -/
def Obligations.SemaphoreSignals : Prop :=
  (∀ (s : State) (ctx i n g : Nat) (ped : W32) (c : Ctx), ctxOf s ctx = some c → c.waiters = [] →
    ∃ d, ctxOf (semAdd ctx ped i n g s) ctx = some d ∧ semVal d ped i = min (semVal c ped i + n) 65535 ∧
      (∀ q j, (q, j) ≠ (ped, i) → semVal d q j = semVal c q j) ∧ d = { c with sems := d.sems } ∧
      (∀ x, x ≠ ctx → ctxOf (semAdd ctx ped i n g s) x = ctxOf s x)) ∧
  (∀ (s : State) (ctx i n g : Nat) (ped : W32) (c : Ctx) (w : SemWaiter), ctxOf s ctx = some c → c.waiters = [w] →
    w.ped = ped → w.idx = i → w.n ≤ min (semVal c ped i + n) 65535 →
    ∃ d, ctxOf (semAdd ctx ped i n g s) ctx = some d ∧ d.waiters = [] ∧
      semVal d ped i = min (semVal c ped i + n) 65535 - w.n ∧
      (∀ q j, (q, j) ≠ (ped, i) → semVal d q j = semVal c q j)) ∧
  (∀ (s : State) (ctx i n g : Nat) (ped : W32) (c : Ctx) (w : SemWaiter), ctxOf s ctx = some c → c.waiters = [w] →
    w.ped = ped → w.idx = i → min (semVal c ped i + n) 65535 < w.n →
    ∃ d, ctxOf (semAdd ctx ped i n g s) ctx = some d ∧ d.waiters = [w] ∧
      semVal d ped i = min (semVal c ped i + n) 65535) ∧
  (∀ (s : State) (ctx i n g : Nat) (ped : W32) (c : Ctx) (v w : SemWaiter), ctxOf s ctx = some c → c.waiters = [v, w] →
    v.ped = ped → v.idx = i → w.ped = ped → w.idx = i → v.ser ≠ w.ser → v.n ≤ min (semVal c ped i + n) 65535 →
    min (semVal c ped i + n) 65535 < v.n + w.n →
    ∃ d, ctxOf (semAdd ctx ped i n g s) ctx = some d ∧ d.waiters = [w] ∧
      semVal d ped i = min (semVal c ped i + n) 65535 - v.n) ∧
  (∀ (s : State) (g t : Nat) (i : Iss), issues 0x21 semFaults g t s i →
    exec (.semWait g t) s = .next (settle g (semWaitAct i (issueDesc i s)))) ∧
  (∀ (s : State) (g t : Nat) (i : Iss), issues 0x22 semFaults g t s i → clodKeyOf (issueDesc i s) i.g i.t = none →
    exec (.semSignal g t) s = .next (settle g (semAdd i.ctx (canonPed (issueDesc i s) (pedOperand i (u32 i.d 10))) (u8 i.d 14)
      (u16 i.d 16) i.g (issueDesc i s)))) ∧
  (∀ (s : State) (g t k : Nat) (i : Iss), issues 0x22 semFaults g t s i → clodKeyOf (issueDesc i s) i.g i.t = some k →
    exec (.semSignal g t) s = .next (settle g (addPrep k i.g 0 (.sem (canonPed (issueDesc i s) (pedOperand i (u32 i.d 10)))
      (u8 i.d 14) (u16 i.d 16)) (issueDesc i s))))

/-- The waiters of a context stand in ascending grain id, then thread (R73), and a new one keeps that order. -/
def Obligations.WaitersStayInOrder : Prop :=
  ∀ (w : SemWaiter) (l : List SemWaiter), l.Pairwise (fun a b => waiterBefore b a = false) →
    (insertWaiter w l).Pairwise (fun a b => waiterBefore b a = false) ∧ (insertWaiter w l).Perm (w :: l)

/-- Accesses that are not aligned reads and writes of 4 or 8 bytes (R453): a read answers all-ones, a write outside
the guarded registers is dropped, both advance HUB_ACCERR.BADSIZE, and nothing else moves; an aligned access is
accepted, and a register's value stands in its bytes little-endian, bit 0 being bit 0 of the lowest byte. A write of
the low word of a 64-bit register waits for its high word, but one of a doorbell is dropped (R307), and a write of 8
bytes takes effect at once; a read of a low word latches the whole register, and a read of no register answers zeros
(R452, R455). A function whose BARs are off takes no write, and a read of it ends with Unsupported Request, or with
nothing while it is in reset (R323). -/
def Obligations.AccessSizes : Prop :=
  (∀ (s : State) (rq : Requester) (off size : Nat), rqOff s rq = false → ¬ ((size = 4 ∨ size = 8) ∧ off % size = 0) →
    ∃ t, exec (.registerReadLatch rq off size) s = .next t ∧
      t.out = s.out ++ [.regRead rq off (List.replicate size 0xFF)] ∧ t.reg.badsize = min (s.reg.badsize + 1) 65535 ∧
      t = { s with out := t.out, reg := { s.reg with badsize := t.reg.badsize } }) ∧
  (∀ (s : State) (rq : Requester) (off size : Nat) (val : W64), rqOff s rq = false →
    ¬ ((size = 4 ∨ size = 8) ∧ off % size = 0) → (∀ a, mapAddr s rq off = some a → gAddr (a / 4 * 4) = none) →
    ∃ t, exec (.registerWrite rq off size val) s = .next t ∧ t.reg.badsize = min (s.reg.badsize + 1) 65535 ∧
      t = { s with reg := { s.reg with badsize := t.reg.badsize } }) ∧
  (∀ (s : State) (rq : Requester) (off size : Nat), rqOff s rq = false → (size = 4 ∨ size = 8) → off % size = 0 →
    ∃ t, exec (.registerReadLatch rq off size) s = .next t ∧ t.reg.badsize = s.reg.badsize ∧
      t.out = s.out ++ [.regRead rq off (readWords rq off (size / 4) s).1]) ∧
  (∀ (s : State) (rq : Requester) (a : Nat) (val : W64), rqOff s rq = false → a % 8 = 0 → mapAddr s rq a = some a →
    gAddr a = none → (regAt s rq a).1 = a → (regAt s rq a).2.length = 8 →
    exec (.registerWrite rq a 8 val) s = .next (putReg rq a val (dropHeld rq s))) ∧
  (∀ (s : State) (rq : Requester) (a : Nat) (val : W64), rqOff s rq = false → a % 4 = 0 → mapAddr s rq a = some a →
    gAddr a = none → isAdb a = true → exec (.registerWrite rq a 4 val) s = .next (dropHeld rq s)) ∧
  (∀ (s : State) (rq : Requester) (a : Nat) (val : W64), rqOff s rq = false → a % 4 = 0 → mapAddr s rq a = some a →
    gAddr a = none → isAdb a = false → (regAt s rq a).1 = a → (regAt s rq a).2.length = 8 →
    ∃ t, exec (.registerWrite rq a 4 val) s = .next t ∧
      t.reg.wshadow = (s.reg.wshadow.filter (fun e => e.1 != rq)) ++ [(rq, a, val.setWidth 32)] ∧
      t = { s with reg := { s.reg with wshadow := t.reg.wshadow } }) ∧
  (∀ (s : State) (rq : Requester) (a : Nat), rqOff s rq = false → a % 4 = 0 → mapAddr s rq a = some a →
    (regAt s rq a).1 = a → 4 < (regAt s rq a).2.length → exec (.registerReadLatch rq a 4) s =
      .next (emit (.regRead rq a ((regAt s rq a).2.take 4)) (latch rq (regAt s rq a) s))) ∧
  (∀ (s : State) (rq : Requester) (a : Nat), rqOff s rq = false → a % 4 = 0 → mapAddr s rq a = none →
    exec (.registerReadLatch rq a 4) s = .next (emit (.regRead rq a (zeros 4)) s)) ∧
  (∀ (s : State) (fn off size : Nat) (val : W64), barOff s fn = true →
    exec (.registerWrite (.host fn) off size val) s = .next s ∧ exec (.registerReadLatch (.host fn) off size) s =
      .next (if fnOff s fn = true then s else emit (.unsupported (.host fn) 0 off) s)) ∧
  (∀ (b : Nat) (v : W64), (reg64 b v.toNat).2.length = 8 ∧
    (∀ i < 8, ∀ j < 8, ((reg64 b v.toNat).2.getD i 0).getLsbD j = v.getLsbD (8 * i + j)))

/-- Reads (R451, R456): a read of the low word of a wide register latches all of it for its reader; a later read of a
higher word by that reader answers what was latched, whatever the register holds by then; with no shadow, or the
shadow of another register, it answers the live word; a read by one requester leaves every other requester's shadow
alone; and no read changes any register. Writes by their writer reach HUB_NUMCTL, HUB_NUMRING, HUB_SPEC, ERR_TILTH_W
and PMC_SMP_TAIL (R132, R183, R387, R481), and set no other register. -/
def Obligations.ReadShadows : Prop :=
  (∀ (s : State) (rq : Requester) (a : Nat), 4 < (regAt s rq a).2.length → (regAt s rq a).1 = a →
    (readWord rq a s).1 = (regAt s rq a).2.take 4 ∧ shadowOf (readWord rq a s).2 rq = some (regAt s rq a) ∧
    (∀ q, q ≠ rq → shadowOf (readWord rq a s).2 q = shadowOf s q)) ∧
  (∀ (s : State) (rq : Requester) (a : Nat) (y : RegVal), 4 < (regAt s rq a).2.length → (regAt s rq a).1 ≠ a →
    shadowOf s rq = some y → (readWord rq a s).2 = s ∧
    (y.1 = (regAt s rq a).1 → (readWord rq a s).1 = slice y.2 (a - y.1) 4) ∧
    (y.1 ≠ (regAt s rq a).1 → (readWord rq a s).1 = slice (regAt s rq a).2 (a - (regAt s rq a).1) 4)) ∧
  (∀ (s : State) (rq : Requester) (a : Nat), (regAt s rq a).2.length ≤ 4 → readWord rq a s = ((regAt s rq a).2, s)) ∧
  (∀ (s t : State) (rq : Requester) (off size : Nat), exec (.registerReadLatch rq off size) s = .next t →
    t = { s with out := t.out, reg := { s.reg with shadow := t.reg.shadow, badsize := t.reg.badsize } }) ∧
  (∀ (s : State) (rq : Requester) (ctx : Nat) (val : W64) (c : Ctx), rqOff s rq = false → ctxOf s ctx = some c → ctxWriter rq c = true →
    ∃ t u, exec (.hubNumctlWrite rq ctx val) s = .next t ∧ t = noteRwp (c.num_.rwp != val &&& numctlRwp) u ∧
      u = { dropHeld rq s with ctxs := u.ctxs } ∧ ctxOf u ctx = some { c with num_ := numctlTake val c.num_ }) ∧
  (∀ (s : State) (rq : Requester) (ctx : Nat) (val : W64) (c : Ctx), rqOff s rq = false → ctxOf s ctx = some c → ctxWriter rq c = true →
    ∃ t u, exec (.hubNumringWrite rq ctx val) s = .next t ∧
      t = noteRwp (c.num_.ringRwp != val &&& 0xFFFFFFFF00000000) u ∧ u = { dropHeld rq s with ctxs := u.ctxs } ∧
      ctxOf u ctx = some { c with num_ := { c.num_ with ring := val.setWidth 32, ringRwp := val &&& 0xFFFFFFFF00000000 } }) ∧
  (∀ (s : State) (rq : Requester) (ctx : Nat) (val : W64) (c : Ctx), rqOff s rq = false → ctxOf s ctx = some c → ctxWriter rq c = true →
    ∃ t u, exec (.hubSpecWrite rq ctx val) s = .next t ∧ t = noteRwp (c.spec.rwp != val &&& 0xFFFC) u ∧
      u = { dropHeld rq s with ctxs := u.ctxs } ∧
      ctxOf u ctx = some { c with spec := { c.spec with en := val.getLsbD 0, rwp := val &&& 0xFFFC } }) ∧
  (∀ (s : State) (rq : Requester) (val : W64), rqOff s rq = false → errWriter rq = true → ∃ t, exec (.errTilthWWrite rq val) s = .next t ∧
    t.err = { s.err with w := val } ∧ t = { s with err := t.err, reg := t.reg }) ∧
  (∀ (s : State) (rq : Requester) (ctx : Nat) (val : W32) (c : Ctx), rqOff s rq = false → ctxOf s ctx = some c → ctxWriter rq c = true →
    (c.pmc.smpHead - val).toNat ≤ 64 * 2 ^ c.pmc.smpSize → ∃ t, exec (.pmcSmpTailWrite rq ctx val) s = .next t ∧
      ctxOf t ctx = some { c with pmc := { c.pmc with smpTail := val } } ∧ t = { dropHeld rq s with ctxs := t.ctxs })

/-- Guarded pairs that fail (R447-R449): a write by a requester that is no writer of the register (cause 5), a second A
write (cause 4, and its window stays open for the new value), a B write with no A pending (cause 1), a B value that
is not the complement (cause 3), a value that the register rejects (cause 6) and a window that ends without a B
write (cause 2). Each writes its record, advances FAILS, shows its cause, requester and offset in HUB_GUARD, and
changes no other register. -/
def Obligations.FailedPairs : Prop :=
  (∀ (s : State) (rq : Requester) (g : GReg) (v : W32), rqOff s rq = false → gMay rq g = false →
    exec (.guardedWriteA rq g v) s = .next (guardFail rq 5 (gRegA g) v (dropHeld rq s)) ∧
    doGuardedPair g rq v s = guardFail rq 5 (gRegB g) v (dropHeld rq s)) ∧
  (∀ (s : State) (rq : Requester) (g : GReg) (v w : W32), rqOff s rq = false → gMay rq g = true → pendOf s rq g = some w → ∃ t,
    exec (.guardedWriteA rq g v) s = .next t ∧ t = guardFail rq 4 (gRegA g) v (openPend rq g v (dropHeld rq s)) ∧
    pendOf t rq g = some v) ∧
  (∀ (s : State) (rq : Requester) (g : GReg) (v : W32), rqOff s rq = false → gMay rq g = true → pendOf s rq g = none →
    doGuardedPair g rq v s = guardFail rq 1 (gRegB g) v (dropHeld rq s)) ∧
  (∀ (s : State) (rq : Requester) (g : GReg) (v w : W32), rqOff s rq = false → gMay rq g = true → pendOf s rq g = some w → v ≠ ~~~w →
    doGuardedPair g rq v s = guardFail rq 3 (gRegB g) v (closePend rq g (dropHeld rq s))) ∧
  (∀ (s : State) (rq : Requester) (g : GReg) (w : W32), rqOff s rq = false → gMay rq g = true → pendOf s rq g = some w →
    gReject rq g w s = true →
    doGuardedPair g rq (~~~w) s = guardFail rq 6 (gRegA g) w (closePend rq g (dropHeld rq s))) ∧
  (∀ (s : State) (rq : Requester) (cause off : Nat) (v : W32), ∃ t, t = guardFail rq cause off v s ∧
    t.reg = { s.reg with gFails := min (s.reg.gFails + 1) 65535, gReq := rqCode rq, gCause := cause, gFn := rqFn rq,
                         gOff := BitVec.ofNat 32 off } ∧
    t = { s with reg := t.reg, err := { s.err with ring0 := t.err.ring0, ring1 := t.err.ring1 }, fns := t.fns,
                 out := t.out }) ∧
  (∀ (s : State) (rq : Requester) (g : GReg) (va : W32), pendOf s rq g = some va → ∃ t u,
    exec (.guardedWindowExpire rq g) s = .next t ∧ u = closePend rq g s ∧ pendOf u rq g = none ∧
      t = guardFail rq 2 (gRegA g) va u)

/-- Each requester, and each function of a host, has its own slot for each guarded register (R448, R450): an A write,
and a B write that fails, of one leave every other slot as it was. -/
def Obligations.PairsAreIndependent : Prop :=
  (∀ (s t : State) (rq q : Requester) (g r : GReg) (v : W32), (q, r) ≠ (rq, g) →
    exec (.guardedWriteA rq g v) s = .next t → pendOf t q r = pendOf s q r) ∧
  (∀ (s : State) (rq q : Requester) (g r : GReg) (v : W32), (q, r) ≠ (rq, g) →
    (∀ w, pendOf s rq g = some w → v ≠ ~~~w ∨ gReject rq g w s = true) →
    pendOf (doGuardedPair g rq v s) q r = pendOf s q r) ∧
  (∀ (s t : State) (rq q : Requester) (g r : GReg), (q, r) ≠ (rq, g) →
    exec (.guardedWindowExpire rq g) s = .next t → pendOf t q r = pendOf s q r)

/-- No virtual function reaches a word of the error block, of the power block or of the guarded registers through its
BAR0 (R301, R384, R449), while its slots name contexts of the package. The registers of the fabric (R255, R257,
R259, R294), which only a PF or a requester above it writes: LNK_PORTn enables and disables its port, and after it
what can no longer be reached fails; a routing entry takes its value at any time, the torus and the credits only
while every port is DOWN, and the credits only if each is even and at least 4 and their sum at most 512. -/
def Obligations.VfReachesNoPackageRegister : Prop :=
  (∀ (s : State) (fn off a : Nat), fn < 128 → fn % 64 ≠ 0 → (∀ e ∈ (fnOf s fn).slots, e.2 < 1024) →
    mapAddr s (.host fn) off = some a → ¬ (0x600000 ≤ a) ∧ gAddr (a / 4 * 4) = none) ∧
  (∀ (s : State) (rq : Requester) (p : Nat) (val : W64), rqOff s rq = false → p < 64 → pfOrAbove rq = true → val.getLsbD 3 = true →
    (fportOf s p).en = false →
    ∃ t, exec (.lnkPortEnable rq p val) s = .next (linksChanged t) ∧ (fportOf t p).en = true ∧
      (fportOf t p).st = .training ∧ (fportOf t p).rwp = val &&& lnkPortRwp ∧
      t = { s with fab := { s.fab with ports := t.fab.ports }, reg := t.reg }) ∧
  (∀ (s : State) (rq : Requester) (p : Nat) (val : W64), rqOff s rq = false → p < 64 → pfOrAbove rq = true → val.getLsbD 3 = false →
    (fportOf s p).en = true → (fportOf s p).retrainCid = none → (fportOf s p).st ≠ .up →
    ∃ t, exec (.lnkPortEnable rq p val) s = .next (linksChanged t) ∧ (fportOf t p).en = false ∧ (fportOf t p).st = .down ∧
      (fportOf t p).buf = [] ∧ (fportOf t p).wait = [] ∧
      t = { s with fab := { s.fab with ports := t.fab.ports }, reg := t.reg }) ∧
  (∀ (s : State) (rq : Requester) (val : W32), rqOff s rq = false → pfOrAbove rq = true → allDown s = true →
    ∃ t, exec (.lnkTorusWrite rq val) s = .next t ∧ t.fab = { s.fab with torus := val, routeOv := [] } ∧
      t = { s with fab := t.fab, reg := t.reg }) ∧
  (∀ (s : State) (rq : Requester) (val : W32), rqOff s rq = false → pfOrAbove rq = true → allDown s = false →
    ∃ t, exec (.lnkTorusWrite rq val) s = .next t ∧ t.fab = s.fab) ∧
  (∀ (s : State) (rq : Requester) (id : Nat) (val : Byte), rqOff s rq = false → id < 16384 → pfOrAbove rq = true →
    ∃ t, exec (.lnkRouteWrite rq id val) s = .next (linksChanged t) ∧ routeByte t id = (val &&& 0x1F).toNat ∧
      (∀ j, j ≠ id → routeByte t j = routeByte s j) ∧
      t = { s with fab := { s.fab with routeOv := t.fab.routeOv }, reg := t.reg }) ∧
  (∀ (s : State) (rq : Requester) (val : W64), rqOff s rq = false → pfOrAbove rq = true → allDown s = true →
    ∃ t, exec (.lnkCreditWrite rq val) s = .next t ∧
      t.fab = { s.fab with credit := if creditOk val then val else s.fab.credit } ∧
      t = { s with fab := t.fab, reg := t.reg }) ∧
  (∀ (s : State) (rq : Requester) (p id : Nat) (v : W32) (w : W64) (b : Byte), rqOff s rq = false → pfOrAbove rq = false →
    exec (.lnkTorusWrite rq v) s = .next (dropHeld rq s) ∧ exec (.lnkCreditWrite rq w) s = .next (dropHeld rq s) ∧
    exec (.lnkPortEnable rq p w) s = .next (linksChanged (dropHeld rq s)) ∧
    exec (.lnkRouteWrite rq id b) s = .next (linksChanged (dropHeld rq s)))

/-- Where a record goes (R384): one that names a context to the ring of that context's port, any other to both rings; it
takes the slot of its index modulo 4,096, advances HEAD and carries the ring's SEQ, unless the ring holds 4,096
records; a record of SEV 0-2 signals vector 0 of the context's function, or of both PFs. -/
def Obligations.RecordsReachTheirRing : Prop :=
  (∀ (s : State) (cls sev ctx die unit : Nat) (detail : List (Nat × Nat × Nat)) (c : Ctx), sev < 3 → ctxOf s ctx = some c →
    postRec cls sev (some ctx) die unit detail s = signal c.owner 0 (updRing (c.owner / 64)
      (fun r => ringAdd r cls sev (mkRec s cls sev (some ctx) die unit detail)) s)) ∧
  (∀ (s : State) (cls sev die unit : Nat) (detail : List (Nat × Nat × Nat)), sev < 3 → ∃ t u,
    t = postRec cls sev none die unit detail s ∧ t = signal 64 0 (signal 0 0 u) ∧
    u.err.ring0 = ringAdd s.err.ring0 cls sev (mkRec s cls sev none die unit detail) ∧
    u.err.ring1 = ringAdd s.err.ring1 cls sev (mkRec s cls sev none die unit detail) ∧
    t.err = { s.err with ring0 := u.err.ring0, ring1 := u.err.ring1 }) ∧
  (∀ (r : ErrRing) (cls sev : Nat) (b : List Byte), r.head - r.tail ≠ 4096 → ∃ x, x = ringAdd r cls sev b ∧
    x.head = r.head + 1 ∧ nmGet x.recs (r.head.toNat % 4096) = some (withSeq b r.head.toNat) ∧
    (∀ k, k ≠ r.head.toNat % 4096 → nmGet x.recs k = nmGet r.recs k) ∧ x = { r with head := x.head, recs := x.recs }) ∧
  (∀ (seq : Nat) (b : List Byte), b.length = 64 → u16 (withSeq b seq) 18 = seq % 65536)

/-- A full ring (R385): the first record of SEV 0-2 of its class is kept as FIRST, each replaces LAST and advances the
class count and LOST, no kept record is touched; and once TAIL has freed space one COALESCED record of the class is
written ahead of any new one, after which the class is at rest with its FIRST and LAST readable. -/
def Obligations.FullRingsCoalesce : Prop :=
  (∀ (r : ErrRing) (cls sev : Nat) (b : List Byte), r.head - r.tail = 4096 → sev < 3 →
    (∀ x, nmGet r.coal cls = some x → x.active = false) → ∃ y, y = ringAdd r cls sev b ∧
    nmGet y.coal cls = some { first := withSeq b r.head.toNat, last := withSeq b r.head.toNat, count := 1, active := true } ∧
    y.lost = min (r.lost + 1) 65535 ∧ y = { r with coal := y.coal, lost := y.lost }) ∧
  (∀ (r : ErrRing) (cls sev : Nat) (b : List Byte) (x : Coal), r.head - r.tail = 4096 → sev < 3 →
    nmGet r.coal cls = some x → x.active = true → ∃ y, y = ringAdd r cls sev b ∧
    nmGet y.coal cls = some { x with last := withSeq b r.head.toNat, count := x.count + 1 } ∧
    y.lost = min (r.lost + 1) 65535 ∧ y = { r with coal := y.coal, lost := y.lost }) ∧
  (∀ (s : State) (r : ErrRing) (cls : Nat) (x : Coal), nmGet r.coal cls = some x → x.active = true →
    r.head - r.tail ≠ 4096 → ∃ y, y = ringDrain s [cls] r ∧ y.head = r.head + 1 ∧
    nmGet y.coal cls = some { x with active := false, count := 0 } ∧ y.tail = r.tail ∧ y.lost = r.lost)

/-- Fatal records (R386): one takes the lowest free slot, sets its valid bit and carries the fatal sequence number,
which counts every fatal record; with all 64 slots valid it only advances FLOST, and goes to no ring; a slot that is
valid is never overwritten; a write of ones by a PF or the management path frees exactly those slots; and the slots,
their valid bits and the sequence number survive a package reset. -/
def Obligations.FatalSlots : Prop :=
  (∀ (b : List Byte) (s : State) (i : Nat), freeSlot s.err.valid = some i → ∃ t, t = fatalPut b s ∧ i < 64 ∧
    s.err.valid.getLsbD i = false ∧ (∀ j < i, s.err.valid.getLsbD j = true) ∧
    nmGet t.err.slots i = some (withSeq b s.err.fseq.toNat) ∧ t.err.valid.getLsbD i = true ∧
    (∀ j, j ≠ i → nmGet t.err.slots j = nmGet s.err.slots j ∧ t.err.valid.getLsbD j = s.err.valid.getLsbD j) ∧
    t.err.fseq = s.err.fseq + 1 ∧ t.err.flost = s.err.flost) ∧
  (∀ (b : List Byte) (s : State), s.err.valid = 0xFFFFFFFFFFFFFFFF → ∃ t, t = fatalPut b s ∧
    t.err.slots = s.err.slots ∧ t.err.valid = s.err.valid ∧ t.err.flost = min (s.err.flost + 1) 255 ∧
    t.err.fseq = s.err.fseq + 1) ∧
  (∀ (s : State) (cls die unit : Nat) (ctx : Option Nat) (detail : List (Nat × Nat × Nat)),
    s.err.valid = 0xFFFFFFFFFFFFFFFF →
    postRec cls 3 ctx die unit detail s = fatalPut (mkRec s cls 3 ctx die unit detail) s) ∧
  (∀ (s : State) (rq : Requester) (mask : W64), rqOff s rq = false → errWriter rq = true → ∃ t, exec (.errFatalClear rq mask) s = .next t ∧
    t.err.valid = s.err.valid &&& ~~~mask ∧ (∀ i, mask.getLsbD i = false → nmGet t.err.slots i = nmGet s.err.slots i) ∧
    t.err.fseq = s.err.fseq ∧ t.err.flost = s.err.flost) ∧
  (∀ s : State, (packageReset s).err.slots = s.err.slots ∧ (packageReset s).err.valid = s.err.valid ∧
    (packageReset s).err.fseq = s.err.fseq) ∧
  (∀ (s : State) (rq : Requester) (mask : W64), rqOff s rq = false → rq ≠ .firmware → pfOrAbove rq = true →
    ∃ t, exec (.errFatalClear rq mask) s = .next t ∧ t.err.valid = s.err.valid &&& ~~~mask ∧
      t.err.slots = s.err.slots.filter (fun e => !(mask.getLsbD e.1)) ∧
      t.err.noDump = s.err.noDump.filter (fun e => !(mask.getLsbD e.1)) ∧
      t = { s with err := { s.err with valid := t.err.valid, slots := t.err.slots, noDump := t.err.noDump }, reg := t.reg })

/-- The securing interval (R365, R359): K = KMAX - floor((KMAX - KMIN) x R_job / 65,535) for the agreed risk R_job, so
K is KMAX at risk 0 and KMIN at the highest; the exchange's answer stores the agreed risk, which holds what this
package sent and which rank 0 returns to every member, and makes the end of the present step a secure point when K
steps have passed since the last one, or a SECURE_NOW asks for it, unless the step runs again. STRATA_READ (R370)
copies consecutive complete entries and answers their number and bytes. -/
def Obligations.SecuringInterval : Prop :=
  (∀ (p : SecPol) (r : Nat), p.kmin ≤ p.kmax → r ≤ 65535 →
    (secK p r : Int) = (p.kmax : Int) - ⌊(((p.kmax - p.kmin : Nat) : Rat) * r / 65535)⌋ ∧
    p.kmin ≤ secK p r ∧ secK p r ≤ p.kmax ∧ secK p 0 = p.kmax ∧ secK p 65535 = p.kmin) ∧
  (∀ (s : State) (ctx risk : Nat) (now : Bool) (c : Ctx) (p : SecPol) (q : W64), ctxOf s ctx = some c →
    c.sec.pol = some p → c.sec.exch = true → c.sec.lastPoint = some q → risk ≤ 65535 → (secGroup s p).rank ≠ 0 → ∃ t d,
    exec (.riskExchangeResult ctx risk now) s = .next t ∧ ctxOf t ctx = some d ∧ d.sec.rjob = max risk c.sec.sentRisk ∧
    d.sec.exch = false ∧ t = { s with ctxs := t.ctxs } ∧
    (d.sec.agreed = true ↔ (c.sec.rerunTill = none ∧ c.sec.replayCid = none) ∧
      ((now = true ∨ c.sec.sentNow = true) ∨ secK p (max risk c.sec.sentRisk) ≤ (c.step - q).toNat))) ∧
  (∀ (s : State) (ctx risk : Nat) (now : Bool) (c : Ctx) (p : SecPol), ctxOf s ctx = some c → c.sec.pol = some p →
    c.sec.exch = true → ∃ t u d, exec (.riskExchangeResult ctx risk now) s = .next t ∧ ctxOf u ctx = some d ∧
      d.sec.exch = false ∧ d.sec.rjob = max (min risk 65535) c.sec.sentRisk ∧
      (d.sec.agreed = true ↔ c.sec.rerunTill = none ∧ c.sec.replayCid = none ∧ ((now = true ∨ c.sec.sentNow = true) ∨
        ∀ q, c.sec.lastPoint = some q → secK p (max (min risk 65535) c.sec.sentRisk) ≤ (c.step - q).toNat)) ∧
      u = { s with ctxs := u.ctxs } ∧ t = (if (secGroup s p).rank ≠ 0 then u
        else (secGroup s p).members.foldl (fun s m => if m = pkgId s then s else sendCtl 6 m
          (.ctl m 4 ctx (BitVec.ofNat 64 (max (min risk 65535) c.sec.sentRisk + 65536 * b2n (now || c.sec.sentNow)))) s) u)) ∧
  (∀ (s : State) (cid ctx n : Nat) (k : Cmd) (c : Ctx) (p : SecPol) (o lo : Obj) (es : List StrataEnt) (b : List Byte),
    ready s cid 0x55 = some k → k.ctx.getD 0 = ctx → n = u16 k.param 8 → 1 ≤ n → n ≤ 1024 → u16 k.param 10 = 0 →
    u64 k.param 16 % 64 = 0 → allZero (k.param.drop 24) = true →
    ownObj s ctx (BitVec.ofNat 32 (u32 k.param 12)) = some o → ctxOf s ctx = some c → c.sec.pol = some p →
    ownObj s ctx p.strata = some lo → es = entriesFrom c.sec.strata (u64 k.param 0) n → es ≠ [] →
    b = es.flatMap (fun x => objRead s lo x.off (entryLen x)) → u64 k.param 16 + b.length ≤ o.size →
    ∃ t, exec (.strataRead cid) s = .next t ∧
      doneWith t cid stOK (leBytes 4 es.length ++ zeros 4 ++ leBytes 8 b.length) ∧
      t = finish cid stOK (leBytes 4 es.length ++ zeros 4 ++ leBytes 8 b.length)
        (objWriteAt (BitVec.ofNat 32 (u32 k.param 12)) (u64 k.param 16) b (startCmd cid s)))

/-- The ageing margin (R401, R364): 16 x VSTEP, from 0 to 256; floor(256 x VSTEP / VCEIL) where VCEIL is below 16, and
256 where it is 0; the tilth monitor takes the largest of any C-die. CALIBRATE (R418, R419), which reads a C-die's
slack, answers it at once, or waits for the windows of its channel or stack, or retrains a port that is not the last
of its bundle; and CALIBRATION_DONE ends the one that waits. -/
def Obligations.AgeingMargin : Prop :=
  (∀ (s : State) (c : Nat), 16 ≤ vceil s → mage s c = 16 * (dieOf s c).vstep ∧
    ((dieOf s c).vstep ≤ 16 → mage s c ≤ 256)) ∧
  (∀ (s : State) (c : Nat), 0 < vceil s → vceil s < 16 → (dieOf s c).vstep ≤ vceil s →
    mage s c = 256 * (dieOf s c).vstep / vceil s ∧ mage s c ≤ 256) ∧
  (∀ (s : State) (c : Nat), vceil s = 0 → mage s c = 256) ∧
  (∀ (s : State) (slack : List Nat), s.clk.pccRun = true → ∃ u age,
    exec (.tilthPeriod slack) s = .next (ageDies slack (takeClkctl u)) ∧
    (∀ c < 48, mage s c ≤ age) ∧ (∃ c < 48, mage s c = age) ∧ u = { s with err := { s.err with
      risk := nextRisk s.err.risk (riskSum s.err.wInForce s.err.cCe s.err.cLr s.err.cAf s.err.cTh age)
      periods := s.err.periods + 1, wInForce := s.err.w, cCe := 0, cLr := 0, cAf := 0, cTh := 0 } }) ∧
  (∀ (s : State) (cid slack : Nat) (k : Cmd), ready s cid 0x61 = some k → u8 k.param 0 = 3 → u8 k.param 1 = 0 →
    allZero (k.param.drop 4) = true → u16 k.param 2 < 48 →
    s.test.calib.any (fun c => c.1 == 3 && c.2.1 == u16 k.param 2) = false →
    ∃ t, exec (.calibrate cid slack) s = .next t ∧ doneWith t cid stOK (leBytes 2 (min 1023 slack)) ∧
      t = { s with cmds := t.cmds }) ∧
  (∀ (s : State) (cid slack : Nat) (k : Cmd), ready s cid 0x61 = some k →
    (u8 k.param 0 = 0 ∨ u8 k.param 0 = 1 ∧ u16 k.param 2 ∈ s.hz.channels) → u8 k.param 1 = 0 →
    allZero (k.param.drop 4) = true → u16 k.param 2 < 48 →
    s.test.calib.any (fun c => c.1 == u8 k.param 0 && c.2.1 == u16 k.param 2) = false →
    ∃ t, exec (.calibrate cid slack) s = .next t ∧
      t.test.calib = s.test.calib ++ [(u8 k.param 0, u16 k.param 2, cid)] ∧
      (cmdOf t cid).bind (·.deferred) = some (pad 16 (leBytes 8 (firstWindow s (u8 k.param 0) (u16 k.param 2)))) ∧
      t = { s with cmds := t.cmds, test := { s.test with calib := t.test.calib } }) ∧
  (∀ (s : State) (cid slack : Nat) (k : Cmd), ready s cid 0x61 = some k → u8 k.param 0 = 2 → u8 k.param 1 = 0 →
    allZero (k.param.drop 4) = true → u16 k.param 2 < 64 →
    s.test.calib.any (fun c => c.1 == 2 && c.2.1 == u16 k.param 2) = false → (fportOf s (u16 k.param 2)).st = .up →
    lastOfBundle s (u16 k.param 2) = false → ∃ t, exec (.calibrate cid slack) s = .next t ∧
      (fportOf t (u16 k.param 2)).retrainCid = some cid ∧ (2, u16 k.param 2, cid) ∈ t.test.calib) ∧
  (∀ (s : State) (kind unit : Nat) (c : Nat × Nat × Nat) (k : Cmd), kind ≤ 1 →
    s.test.calib.find? (fun c => c.1 == kind && c.2.1 == unit) = some c → cmdOf s c.2.2 = some k → k.done = none →
    firstWindowOpen s c.2.2 = true →
    ∃ t, exec (.calibrationDone kind unit) s = .next t ∧ (cmdOf t c.2.2).bind (·.done) ≠ none ∧ c ∉ t.test.calib ∧
      t = { s with cmds := t.cmds, test := { s.test with calib := t.test.calib } })

/-- The bit address of element (i0, i1, i2, i3) of a view (R48): 8 x OFFSET + w x (i0 x STRIDE0 + ... + i3 x STRIDE3),
with the grain's rank added to i3 where GIX is 1, and the width w of each format. Hub transfers, which move byte
ranges (R167, R168, R213): one starts from its START on, its reads or copies going out from the die hubs of its ped;
it completes once none of its reads is open, or once every granule of its range is resident, makes its copies valid,
and its semaphore receives 1; a copy that is still missing is begun instead. -/
def Obligations.ElementAddress : Prop :=
  (∀ (v : View) (k i0 i1 i2 i3 : Nat), v.gix = false → elemBit v k i0 i1 i2 i3 =
    8 * v.off + fmtW v.fmt * (i0 * v.st0 + i1 * v.st1 + i2 * v.st2 + i3 * v.st3)) ∧
  (∀ (v : View) (k i0 i1 i2 i3 : Nat), v.gix = true → elemBit v k i0 i1 i2 i3 =
    8 * v.off + fmtW v.fmt * (i0 * v.st0 + i1 * v.st1 + i2 * v.st2 + (i3 + k) * v.st3)) ∧
  (fmtW 0 = 32 ∧ fmtW 1 = 16 ∧ fmtW 2 = 16 ∧ fmtW 3 = 8 ∧ fmtW 4 = 8 ∧ fmtW 8 = 8 ∧ fmtW 10 = 8 ∧ fmtW 5 = 6 ∧
    fmtW 6 = 6 ∧ fmtW 7 = 4 ∧ fmtW 9 = 4) ∧
  (∀ (s u : State) (ctx idx : Nat) (r : RunSeg) (e : XferEnt) (x : XferSt) (o : Obj), xferAt s ctx idx = some (r, e, x) →
    r.stop = none → x.started = false → e.start ≤ segGc s r → u = setXfer ctx idx { x with started := true } s →
    ownObj u ctx e.handle = some o → exec (.hubTransferStart ctx idx) s = .next (if e.kind = 0 then
      (xferDies u ctx idx).foldl (fun s d => xferReads d ctx idx e o s) u else xferCopies ctx idx u)) ∧
  (∀ (s u : State) (ctx idx : Nat) (r : RunSeg) (e : XferEnt) (x : XferSt), xferAt s ctx idx = some (r, e, x) →
    r.stop = none → x.started = true → x.done = false → e.kind = 0 → xferOpen s ctx idx = false →
    u = setXfer ctx idx { x with done := true } s → exec (.hubTransferComplete ctx idx) s = .next (if e.sem = 0 then u
      else semAdd ctx (canonPed u e.ped) e.sem 1 (logicalId ((footprint r.d).headD 0) 0) u)) ∧
  (∀ (s u v : State) (ctx idx : Nat) (r ru : RunSeg) (e eu : XferEnt) (x y : XferSt) (o : Obj),
    xferAt s ctx idx = some (r, e, x) → r.stop = none → x.started = true → x.done = false → e.kind ≠ 0 →
    ownObj s ctx e.handle = some o →
    (xferWhole s e idx x o = false → exec (.hubTransferComplete ctx idx) s = .next (xferCopies ctx idx s)) ∧
    (xferWhole s e idx x o = true → u = xferValid ctx idx e s → xferAt u ctx idx = some (ru, eu, y) →
      v = setXfer ctx idx { y with done := true } u → exec (.hubTransferComplete ctx idx) s = .next (if e.sem = 0 then v
        else semAdd ctx (canonPed v e.ped) e.sem 1 (logicalId ((footprint r.d).headD 0) 0) v)))

/-- Every code of every format survives being read and written (R107-R110): a code that is no NaN comes back as it was,
subnormals and both zeros among them, and a NaN of whatever sign and payload comes back as the canonical encoding of
its format. -/
def Obligations.CodesSurvive : Prop :=
  (∀ f c : Nat, f ≤ 10 → c < 2 ^ fmtW f → decodeF f c ≠ .nan → pack f (decodeF f c) = c) ∧
  (pack 0 .nan = 0x7FC00000 ∧ pack 1 .nan = 0x7FC0 ∧ pack 2 .nan = 0x7E00 ∧ pack 3 .nan = 0x7F ∧ pack 4 .nan = 0x7E ∧
    pack 10 .nan = 0x7F) ∧
  (∀ f : Nat, f ≤ 7 → decodeF f 0 = .num false 0 ∧ decodeF f (2 ^ (fmtW f - 1)) = .num true 0)

/-- An element of a BS8 block (R135): with block scale B = 0 it is +0 whatever its byte holds; with B of 1 to 254 it is
its E4M3 value times 2^(B - 127); with B = 255 it is a NaN, and counts NANIN. The buckets of the reduction engine,
which may carry BS8 (R274, R276): GROUP_SET of valid fields sets the group with the digest of its members, and
BUCKET_POLICY sets the bucket and ends what the tag's instance has left, after which flits that waited for the policy
start its instance. -/
def Obligations.BlockScaleElements : Prop :=
  (∀ (ftz : Bool) (blk : List Byte) (j : Nat) (c : Counts), u8 blk 0 = 0 →
    bs8Elem ftz blk j c = (.num false 0, c)) ∧
  (∀ (blk : List Byte) (j : Nat) (c : Counts) (n : Bool) (q : Rat), 0 < u8 blk 0 → u8 blk 0 < 255 →
    decodeF 3 (u8 blk (j + 1)) = .num n q →
    (bs8Elem false blk j c).1 = .num n (q * (2 : Rat) ^ ((u8 blk 0 : Int) - 127))) ∧
  (∀ (ftz : Bool) (blk : List Byte) (j : Nat) (c : Counts), u8 blk 0 = 255 →
    bs8Elem ftz blk j c = (.nan, { c with nanin := c.nanin + 1 })) ∧
  (∀ (s : State) (cid ctx n g off : Nat) (c : Cmd) (o : Obj) (ids shape : List Nat), ready s cid 0x42 = some c →
    c.ctx.getD 0 = ctx → n = u16 c.param 2 → g = u16 c.param 0 → off = u64 c.param 12 →
    shape = [u8 c.param 20, u8 c.param 21, u8 c.param 22, u8 c.param 23] → g ≤ 1023 → 1 ≤ n → n ≤ 16384 →
    u16 c.param 4 < n → u16 c.param 6 = 0 → off % 2 = 0 → allZero (c.param.drop 24) = true →
    (shape = [0, 0, 0, 0] ∨ (∀ x ∈ shape, 1 ≤ x ∧ x ≤ 16) ∧ shape.foldl (· * ·) 1 = n) →
    ownObj s ctx (BitVec.ofNat 32 (u32 c.param 8)) = some o →
    ids = (List.range n).map (fun i => leNat (objRead s o (off + 2 * i) 2)) → off + 2 * n ≤ o.size →
    ids.getD (u16 c.param 4) 0 = pkgId s → distinct ids = true → (∀ x ∈ ids, idInTorus s.fab.torus x = true) →
    (∀ x, nmGet s.fab.groups g = some x → x.ctx = ctx) → groupBusy s g = false →
    ∃ t, exec (.groupSet cid) s = .next t ∧ doneWith t cid stOK [] ∧
      t.fab.groups = nmSet g { ctx := ctx, rank := u16 c.param 4, members := ids
                               shape := if shape = [0, 0, 0, 0] then [] else shape, digest := groupDigest n shape ids
                               listObj := BitVec.ofNat 32 (u32 c.param 8) } s.fab.groups ∧
      t = { s with cmds := t.cmds, fab := { s.fab with groups := t.fab.groups } }) ∧
  (∀ (s : State) (cid ctx tag : Nat) (c : Cmd) (x : Sys2Proof.Machine.Group), ready s cid 0x43 = some c → c.ctx.getD 0 = ctx →
    tag = u16 c.param 0 → bits (u8 c.param 4) 0 2 ≠ 3 → bits (u8 c.param 4) 2 2 ≠ 3 → u8 c.param 4 < 64 →
    (u8 c.param 5 = 0 ∨ u8 c.param 5 = 1) → 1 ≤ u16 c.param 6 → u16 c.param 6 ≤ 256 → 1 ≤ u32 c.param 8 →
    u32 c.param 8 ≤ 2 ^ 28 → 1 ≤ u16 c.param 12 → u16 c.param 12 ≤ 4096 → u16 c.param 14 = 0 → 1 ≤ u32 c.param 16 →
    allZero (c.param.drop 20) = true → u16 c.param 2 ≤ 1023 → nmGet s.fab.groups (u16 c.param 2) = some x →
    x.ctx = ctx → (∀ b, nmGet s.fab.buckets tag = some b → b.ctx = ctx) →
    (bits (u8 c.param 4) 2 2 = 2 → x.shape ≠ []) → tagBusy s tag = false →
    ∃ t u b, exec (.bucketPolicy cid) s = .next t ∧ t = wakeEarly u ∧ doneWith u cid stOK [] ∧
      nmGet u.fab.buckets tag = some b ∧
      b = { ctx := ctx, group := u16 c.param 2, mode := BitVec.ofNat 8 (u8 c.param 4), wfmt := u8 c.param 5
            flits := u16 c.param 6, elems := u32 c.param 8, local_ := u16 c.param 12, scale := 0
            timeout := u32 c.param 16, bytes := slice c.param 2 18 } ∧ instOf u tag = none ∧
      (∀ k, k ≠ tag → nmGet u.fab.buckets k = nmGet s.fab.buckets k) ∧
      u = { s with cmds := u.cmds, fab := { s.fab with
        buckets := u.fab.buckets, insts := u.fab.insts, goneTags := s.fab.goneTags.filter (fun e => e.1 != tag) } })

/-- The checks of an access to a window of this package (R271): with the window closed or closing, another KEY, a
source outside the peer set, a right that is not held, or bytes beyond the window the access is refused with
NOT_PERMITTED; a KIND 0 window whose owner is not resident on a grain that it touches refuses with BUSY; a KIND 1
window that passes them is served. A refusal is counted for the owner, answers in TC 4 with its status, and writes
nothing. An accepted access to an object becomes requests of its units (R270); one to scratchpads goes through the
slots of the grains' stores, and once all of it has, a put is signalled and acknowledged and a get answered with the
bytes (R69, R268, R269); and a put of a clod is held prepared (R374). At the source, a request whose time has run out
fails, or gives its tag back where nothing waits for it any more (R273). -/
def Obligations.WindowChecks : Prop :=
  (∀ (s : State) (key : W32) (src off n : Nat) (wr : Bool), winRefusal s none key src wr off n = some stNOT_PERMITTED) ∧
  (∀ (s : State) (w : Win) (key : W32) (src off n : Nat) (wr : Bool),
    (w.closing.isSome = true ∨ w.key ≠ key ∨ peerOk w src = false ∨ bitAt w.rights (if wr then 1 else 0) = false ∨
      winTotal s w < off + n) → winRefusal s (some w) key src wr off n = some stNOT_PERMITTED) ∧
  (∀ (s : State) (w : Win) (key : W32) (src off n : Nat) (wr : Bool), w.closing = none → w.key = key →
    peerOk w src = true → bitAt w.rights (if wr then 1 else 0) = true → off + n ≤ winTotal s w → w.kind ≠ 0 →
    winRefusal s (some w) key src wr off n = none) ∧
  (∀ (s : State) (w : Win) (key : W32) (src off n g : Nat) (wr : Bool), w.closing = none → w.key = key →
    peerOk w src = true → bitAt w.rights (if wr then 1 else 0) = true → off + n ≤ winTotal s w → w.kind = 0 →
    g ∈ winGrains s w off n → residentPlace s w.ctx g = none →
    winRefusal s (some w) key src wr off n = some stBUSY) ∧
  (∀ (s : State) (f : Flit) (x : WinSide) (st : W16) (n off len : Nat) (w : Option Win), (flitOp f = 1 ∨ flitOp f = 2) →
    n = bits (u16 f 14) 0 12 → off = accessOff f → len = accessLen f x →
    w = nmGet s.fab.wins n → winRefusal s w (BitVec.ofNat 32 (u32 f 16)) (flitSrc f) (flitOp f == 1) off len = some st →
    ∃ t a, exec (.windowAccessArrive f x) s = .next t ∧
      t = routeFlit (n + 2 ^ 12 * (off / 4096)) a (countRefused s w off len s) ∧
      flitTc a = 4 ∧ t.hz = s.hz ∧ t.phys = s.phys ∧ t.fab.wins = s.fab.wins ∧ t.fab.preparedWin = s.fab.preparedWin) ∧
  (∀ (s u : State) (f : Flit) (x : WinSide) (w : Win) (n : Nat), (flitOp f = 1 ∨ flitOp f = 2) →
    n = bits (u16 f 14) 0 12 → nmGet s.fab.wins n = some w → winRefusal s (some w) (BitVec.ofNat 32 (u32 f 16)) (flitSrc f)
      (flitOp f == 1) (accessOff f) (accessLen f x) = none →
    u = (if flitOp f = 1 ∧ bitAt (u8 f 8) 7 = true then updFab (fun b => { b with acks := b.acks ++ [(n, f)] }) s else s) →
    (x.clod = none → w.kind = 1 → ∀ o, objOf s w.target = some o → accessLen f x ≠ 0 →
      ∃ t, exec (.windowAccessArrive f x) s = .next t ∧ t = winRequests n w o f x u) ∧
    (x.clod = none → w.kind = 0 → ∃ t, exec (.windowAccessArrive f x) s = .next t ∧
      t = serveScratch n w (some f) x (flitSrc f) (accessOff f) (accessLen f x)
        ((slice f 28 224).take (accessLen f x)) u) ∧
    (∀ (a : WinAcc) (v : State), a.win = n → a.flit = some f → v = updFab (fun b => { b with
        accs := b.accs.filter (fun e => e.id != a.id) }) s →
      (flitOp f = 1 → endAccess a s = closeIfIdle n (ackUnit n f (winSignal n w a.side a.src a.off a.len v))) ∧
      (flitOp f = 2 → endAccess a s = closeIfIdle n (winRead f a.len a.got v))) ∧
    (∀ k v, x.clod = some k → flitOp f = 1 → preparedAt s (accessLdie s f) + accessLen f x ≤ 2 ^ 20 →
      v = updFab (fun b => { b with preparedWin := b.preparedWin ++
        [{ src := flitSrc f, clod := k, ldie := accessLdie s f, win := n, woff := accessOff f,
           data := (slice f 28 224).take (accessLen f x), side := x }] }) s →
      ∃ t, exec (.windowAccessArrive f x) s = .next t ∧ t = ackUnit n f
        (if bitAt (u8 f 8) 7 then updFab (fun b => { b with acks := b.acks ++ [(n, f)] }) v else v))) ∧
  (∀ (s : State) (rtag : Nat) (q : WReq), s.fab.wreqs.find? (fun q => q.rtag == rtag && q.tagged) = some q →
    max 1 (bits s.fab.ctl.toNat 0 32) ≤ (s.clk.pcc - q.sent).toNat → ∃ t, exec (.remoteTimeout rtag) s = .next t ∧
      t = (if q.dead then updFab (fun b => { b with wreqs := b.wreqs.filter (fun x => x.rtag != rtag) }) s
        else winFail q stSTEP_LOST 1 s))

/-- FW_ACTIVATE (R440): BAD_PARAM for a MODE above 1 or a reserved byte that is not 0, unless all chunks are held, and
for LIVE when the running SVN is below COMPAT or in recovery mode; otherwise BUSY while another activation is in
progress, whichever requester started it; otherwise the verification starts, and the command answers at the
activation's end. The rows of an activation (R440-R445) then move its state on: a LIVE one loads, hands over,
switches the ped-2s that nothing runs on at its stamp, and commits the slot that every ped-2 has switched to; a COLD
one waits for the next cold start; one that outlasts its time limit turns back, and the revert answers. -/
def Obligations.FwActivateAnswers : Prop :=
  (∀ (s : State) (cid : Nat) (k : Cmd), ready s cid 0x82 = some k →
    (1 < u8 k.param 0 ∨ allZero (k.param.drop 1) = false ∨ dirComplete s.fw.dir = false ∨
      (u8 k.param 0 = 0 ∧ (s.fw.svn < mCompat (manifest s (s.fw.dir.stage.getD 0)) ∨ s.boot.recovery = true))) →
    ∃ t, exec (.fwActivate cid) s = .next t ∧ doneWith t cid stBAD_PARAM [] ∧ t = { s with cmds := t.cmds }) ∧
  (∀ (s : State) (cid : Nat) (k : Cmd), ready s cid 0x82 = some k → u8 k.param 0 ≤ 1 → allZero (k.param.drop 1) = true →
    dirComplete s.fw.dir = true →
    (u8 k.param 0 = 0 → mCompat (manifest s (s.fw.dir.stage.getD 0)) ≤ s.fw.svn ∧ s.boot.recovery = false) →
    activating s = true → ∃ t, exec (.fwActivate cid) s = .next t ∧ doneWith t cid stBUSY [] ∧
      t = { s with cmds := t.cmds }) ∧
  (∀ (s : State) (cid : Nat) (k : Cmd), ready s cid 0x82 = some k → u8 k.param 0 ≤ 1 → allZero (k.param.drop 1) = true →
    dirComplete s.fw.dir = true →
    (u8 k.param 0 = 0 → mCompat (manifest s (s.fw.dir.stage.getD 0)) ≤ s.fw.svn ∧ s.boot.recovery = false) →
    activating s = false → s.fw.st ≠ .revert → s.fw.st ≠ .pendingCold → ∃ t, exec (.fwActivate cid) s = .next t ∧
      t = { startCmd cid s with fw := { s.fw with st := .verify, actCid := some cid,
                                                  actLive := decide (u8 k.param 0 = 0) } }) ∧
  (∀ (s : State) (slot : Nat), s.fw.st = .verify → s.fw.dir.stage = some slot → verifyBad s slot = [] →
    s.fw.actLive = true → ∃ t, exec .fwVerifyDone s = .next t ∧
      t = { s with fw := { s.fw with st := .load, loadUs := some s.clk.wallUs, standby := false } }) ∧
  (∀ (s : State) (slot cid : Nat), s.fw.st = .verify → s.fw.dir.stage = some slot → verifyBad s slot = [] →
    s.fw.actLive = false → s.boot.recovery = false → s.fw.actCid = some cid →
    ∃ t, exec .fwVerifyDone s = .next t ∧ t.fw.st = .pendingCold ∧ t.fw.dir.pend = some slot ∧ t.fw.dir.tries = 1 ∧
      t.fw.actCid = none) ∧
  (∀ s : State, s.fw.st = .load → ∃ t, exec .fwLoadDone s = .next t ∧ t = { s with fw := { s.fw with st := .handover } }) ∧
  (∀ s : State, s.fw.st = .handover → ∃ t, exec .fwHandoverDone s = .next t ∧ t = { s with fw := { s.fw with
    st := .switch, stamp := some (s.clk.pcc + 1600000), switched := [], unitsSwitched := false } }) ∧
  (∀ (s : State) (x : W64), s.fw.stamp = some x → s.fw.st = .switch → s.fw.unitsSwitched = false →
    x.toNat ≤ s.clk.pcc.toNat → ∃ t, exec .fwSwitchStamp s = .next t ∧ t.fw.unitsSwitched = true ∧
      (∀ p ∈ idlePed2s s, p ∈ t.fw.switched) ∧
      t = { s with fw := { s.fw with unitsSwitched := true, switched := t.fw.switched } }) ∧
  (∀ (s : State) (slot cid : Nat), s.fw.dir.stage = some slot → s.fw.st = .switch → allSwitched s = true →
    s.fw.actCid = some cid → ∃ t, exec .fwCommit s = .next t ∧ t.fw.st = .idle ∧ t.fw.slotRun = slot ∧
      t.fw.svn = mSvn (manifest s slot) ∧ t.fw.dir.active = slot ∧ t.fw.dir.stage = none ∧
      t.fw.dir.svnFloor = max s.fw.dir.svnFloor (mFloor (manifest s slot)) ∧ t.fw.actCid = none) ∧
  (∀ (s : State) (u : Rat), s.fw.loadUs = some u → (s.fw.st = .load ∨ s.fw.st = .handover ∨ s.fw.st = .switch) →
    u + 500000 ≤ s.clk.wallUs → ∃ t, exec .fwActivateDeadline s = .next t ∧
      t = { s with fw := { s.fw with st := .revert } }) ∧
  (∀ (s : State) (cid : Nat), s.fw.st = .revert → s.fw.switched = [] → s.fw.actCid = some cid → s.fw.abortCid = none →
    ∃ t, exec .fwRevertDone s = .next t ∧ t.fw = { s.fw with
        st := stagedState s.fw.dir, stamp := none, switched := [], unitsSwitched := false, loadUs := none
        actCid := none } ∧
      t = { s with cmds := t.cmds, fw := t.fw })

/-- PING (R316): the cookie of parameter bytes 0-7 comes back in result bytes 0-7, with the PCC at completion in bytes
8-15; a reserved byte that is not 0 is BAD_PARAM. ATTEST_QUOTE (R427, R428): a quote of the indices asked for,
signed with the identity key, is written to host memory and its length and SEQ answered. MEASURE_LOG (R429) writes
the entries from the SEQ asked for on to host memory, or sends them with its answer on the management path
(notes/assumptions/77). -/
def Obligations.PingAnswers : Prop :=
  (∀ (s : State) (cid : Nat) (k : Cmd), ready s cid 0x01 = some k → allZero (k.param.drop 8) = true →
    ∃ t, exec (.ping cid) s = .next t ∧ doneWith t cid stOK (slice k.param 0 8 ++ leBytes 8 s.clk.pcc.toNat) ∧
      t = { s with cmds := t.cmds }) ∧
  (∀ (s : State) (cid : Nat) (k : Cmd), ready s cid 0x01 = some k → allZero (k.param.drop 8) = false →
    ∃ t, exec (.ping cid) s = .next t ∧ doneWith t cid stBAD_PARAM [] ∧ t = { s with cmds := t.cmds }) ∧
  (∀ (s : State) (cid mask : Nat) (k : Cmd) (d : BitVec 256) (q : List Byte), ready s cid 0x90 = some k →
    mask = u32 k.param 40 → mask ≠ 0 → mask % 2 = 0 → mask < 2048 → u64 k.param 32 % 64 = 0 → u32 k.param 44 = 0 →
    s.sec.seed = some d → s.sec.idok = true → q = quoteBytes s k.fn (slice k.param 0 32) mask →
    ∃ t, exec (.attestQuote cid) s = .next t ∧
      doneWith t cid stOK (leBytes 4 (q ++ pad 64 (Config.sm2Sign d q)).length ++ zeros 4 ++
        leBytes 8 (s.sec.logNext - 1)) ∧
      t = { s with cmds := t.cmds, out := t.out
                   hz := (hostWrite (k.fn / 64) (u64 k.param 32) (q ++ pad 64 (Config.sm2Sign d q)) s).hz }) ∧
  (∀ (s : State) (cid first : Nat) (k : Cmd) (es : List LogEnt) (ch : BitVec 256) (b : List Byte),
    ready s cid 0x91 = some k → u64 k.param 0 % 64 = 0 →
    128 ≤ u64 k.param 8 → allZero (k.param.drop 24) = true → first = max (u64 k.param 16) (oldestLog s) →
    es = (s.sec.log.drop (first - oldestLog s)).take ((u64 k.param 8 - 64) / 64) →
    ch = (s.sec.chainOld.drop (first - oldestLog s)).headD s.sec.chain →
    b = pad 64 (leBytes 8 first ++ leBytes 8 es.length ++ leBytes 32 ch.toNat) ++ es.flatMap logEntBytes →
    ∃ t, exec (.measureLog cid) s = .next t ∧ doneWith t cid stOK (leBytes 8 es.length ++ leBytes 8 (first + es.length)) ∧
      (k.fn = mgmtFn → t.out = s.out ++ [.mctp b] ∧ t = { s with cmds := t.cmds, out := t.out }) ∧
      (k.fn ≠ mgmtFn →
        t = { s with cmds := t.cmds, out := t.out, hz := (hostWrite (k.fn / 64) (u64 k.param 0) b s).hz }))

/-- A doorbell that is dropped is counted and changes nothing else (R309): it comes from a function that does not own
the page, names an empty slot or context 0 (counted for the function); the ring's KIND is 0, a reserved bit is 1,
TAIL is 2^SIZE or more, CQHEAD would pass the last completion, or RLD or CRLD names a ring with commands outstanding,
or CRLD one that cannot be read again because the function's accesses to host memory are off, notes/assumptions/62
(counted for the context). -/
def Obligations.DroppedDoorbells : Prop :=
  (∀ (s : State) (fn page ring : Nat) (val : W64), barOff s fn = false → pageCtx s fn page = none → ∃ t,
    exec (.commandRingDoorbell fn page ring val) s = .next t ∧
    fnOf t fn = { fnOf s fn with dbDrop := min ((fnOf s fn).dbDrop + 1) 65535 } ∧
    (∀ k, k ≠ fn → fnOf t k = fnOf s k) ∧ t = { s with fns := t.fns }) ∧
  (∀ (s : State) (fn page ring : Nat) (val : W64) (c : Ctx) (r : SubRing) (cq : CplRing), barOff s fn = false →
    pageCtx s fn page = some c → nmGet s.ctxs c.num = some c → r = ringFor s c ring (bitAt val.toNat 63) →
    cq = (if bitAt val.toNat 62 then cplEntry s c (bits val.toNat 17 6)
      else nmGetD c.cq (bits val.toNat 17 6) cplRingOff) → (r.kind = 2 → bitAt val.toNat 63 = true) →
    (r.kind = 0 ∨ dbReserved val.toNat = true ∨ 2 ^ r.size ≤ bits val.toNat 0 16 ∨
      (bitAt val.toNat 16 = true ∧ takeHead cq (bits val.toNat 32 16) = none) ∨
      (bitAt val.toNat 63 = true ∧ (ctxCmds s c.num).any (fun k => outstanding k && k.ring == ring) = true) ∨
      (bitAt val.toNat 62 = true ∧
        (ctxCmds s c.num).any (fun k => outstanding k && k.cq == bits val.toNat 17 6) = true) ∨
      (bitAt val.toNat 62 = true ∧ ringsOn s c.owner = false)) →
    ∃ t, exec (.commandRingDoorbell fn page ring val) s = .next t ∧
      ctxOf t c.num = some { c with dbDrop := min (c.dbDrop + 1) 65535 } ∧
      (∀ k, k ≠ c.num → ctxOf t k = ctxOf s k) ∧ t = { s with ctxs := t.ctxs }) ∧
  (∀ (n head : Nat) (r : CplRing), r.en = true → n = 2 ^ r.size → n ≤ head ∨
    r.fill < (head + n - (r.pos + n - r.fill) % n) % n → takeHead r head = none)

/-- What holds a thread's next descriptor (R40, R41, R45, R55, R465, R466), whatever row brings its turn: a blocking
descriptor that has not completed, four descriptors outstanding, ORD with one outstanding, a NOTBEFORE that lies
ahead, an empty FIFO to pop, or an engine that took a descriptor in this gc or that a lower ready thread comes first
to. The descriptor then does not issue: the thread waits in the state of that cause, charged to it (a blocking
descriptor's, a full window's or an ORD's cause is what holds the outstanding one), and nothing else changes. A
burst that is not held leaves the thread waiting. After any event of a grain its threads are in the states that
R39's table gives them. -/
def Obligations.HeldDescriptors : Prop :=
  (∀ (pick : List Byte → Bool) (faults : State → Iss → List (Bool × Nat)) (act : Iss → State → State) (g t : Nat) (s : State)
    (gr : Grain) (th : Thr) (r : RunSeg) (x : Prog) (d : List Byte), atTurn g t s gr th r x d → pick d = true →
    (∀ o, isRedo th = false → (outOf gr t).find? (fun o => blocking (dOp o.desc)) = some o →
      issueRow pick faults act g t s = setWait g t (.waitSync, blockCause s gr (outOf gr t) o) s) ∧
    ((∀ o ∈ outOf gr t, blocking (dOp o.desc) = false) → 4 ≤ (outOf gr t).length →
      issueRow pick faults act g t s = setWait g t (.waitWindow, windowCause s gr (outOf gr t)) s) ∧
    ((∀ o ∈ outOf gr t, blocking (dOp o.desc) = false) → (outOf gr t).length < 4 → dOrd d = true → th.redo = [] →
      outOf gr t ≠ [] → issueRow pick faults act g t s = setWait g t (.waitSync, heldOldest s gr (outOf gr t)) s) ∧
    ((∀ o ∈ outOf gr t, blocking (dOp o.desc) = false) → (outOf gr t).length < 4 → (dOrd d = false ∨ outOf gr t = []) →
      th.redo = [] → segGc s r < dNotBefore d → issueRow pick faults act g t s = setWait g t (.waitTime, 0) s) ∧
    ((∀ o ∈ outOf gr t, blocking (dOp o.desc) = false) → (outOf gr t).length < 4 → (dOrd d = false ∨ outOf gr t = []) →
      dNotBefore d ≤ segGc s r → x.paired = true → pqBad t d = false → pqPop d = true → gr.fifos.getD (pqPopQ d) 0 = 0 →
      issueRow pick faults act g t s = setWait g t (.waitSync, 0x07) s) ∧
    (waitBefore s gr t th r x.paired d = none → engineBusy s gr t r x.paired (engineOf (dOp d)) = true →
      issueRow pick faults act g t s = setWait g t (.waitEngine, 0x03) s) ∧
    (∀ w, ∃ y, setWait g t w s = { s with grains := y } ∧
      nmGet y g = some { gr with thr := nmUpd t (fun th => { th with st := w.1, cause := w.2 }) gr.thr } ∧
      (∀ k, k ≠ g → nmGet y k = nmGet s.grains k))) ∧
  (∀ (pick : List Byte → Bool) (faults : State → Iss → List (Bool × Nat)) (act : Iss → State → State) (g t : Nat) (s : State)
    (gr : Grain) (th : Thr) (r : RunSeg) (x : Prog) (st : Stream), nmGet s.grains g = some gr → nmGet gr.thr t = some th →
    segOf s gr.ctx = some r → progOf r gr.ped2 = some x → th.stream = some st → live s gr th = true →
    nextDesc s g gr th = none → burstExists s gr.ctx g st (th.pos / 8) = true →
    issueRow pick faults act g t s = settle g s) ∧
  (∀ (g : Nat) (s : State), ∃ y, settle g s = { s with grains := y } ∧ nmGet y g = (nmGet s.grains g).map (settled s g) ∧
    (∀ k, k ≠ g → nmGet y k = nmGet s.grains k)) ∧
  (∀ (s : State) (gr : Grain) (t : Nat) (th : Thr) (r : RunSeg) (p : Bool) (d : List Byte), live s gr th = true →
    (∀ w, waitBefore s gr t th r p d = some w → heldNow s gr t th r p (some d) = w) ∧
    (waitBefore s gr t th r p d = none → engineBusy s gr t r p (engineOf (dOp d)) = false →
      heldNow s gr t th r p (some d) = (.ready, 0)))

/-- A descriptor fault (R46): of the codes that hold the lowest is raised; the thread enters FAULT, one record of class
0x02 is posted, the SEG_RUN's result names the thread, the code and the segment, and the segment stops with
BAD_PARAM unless it had stopped before. The other ends of a descriptor and of a thread's waits (R41, R45, R52, R53,
R395): END issues at its turn; a NOTBEFORE that has come lets the thread go on; a descriptor burst fills its buffer;
and a descriptor whose work is done completes, its results written, its record, figures and SIG released or held,
while one that may not yet complete, whose lanes wait (log entry 84), or that a stopped segment has abandoned, stays.
A burst stays out while its request may not be served or its scratchpad lanes wait. -/
def Obligations.DescriptorFaults : Prop :=
  (∀ (pick : List Byte → Bool) (faults : State → Iss → List (Bool × Nat)) (act : Iss → State → State) (g t code : Nat)
    (s : State) (gr : Grain) (th : Thr) (r : RunSeg) (x : Prog) (d : List Byte), atTurn g t s gr th r x d →
    pick d = true → waitBefore s gr t th r x.paired d = none →
    engineBusy s gr t r x.paired (engineOf (dOp d)) = false →
    (true, code) ∈ commonFaults s gr th t r x (placeOf s g) d →
    (∀ e ∈ commonFaults s gr th t r x (placeOf s g) d, e.1 = true → code ≤ e.2) →
    (∀ i, ∀ e ∈ faults s i, e.1 = true → code ≤ e.2) →
    issueRow pick faults act g t s = descFault g t code s) ∧
  (∀ (g t code : Nat) (s : State) (gr : Grain) (th : Thr) (r : RunSeg), nmGet s.grains g = some gr →
    nmGet gr.thr t = some th → segOf s gr.ctx = some r → r.stop = none → ∃ u gr' th' r', u = descFault g t code s ∧
    segOf u gr.ctx = some r' ∧ r' = { r with stop := some .descFault, status := some stBAD_PARAM } ∧
    nmGet u.grains g = some gr' ∧ nmGet gr'.thr t = some th' ∧ th'.st = .fault ∧ th'.clod = none ∧ th'.task = none ∧
    gr'.out = gr.out ∧ u.hz = s.hz ∧ u.cmds = s.cmds ∧ sameBytes s u) ∧
  (∀ (s : State) (g t : Nat) (i : Iss), issues 0x3F endFaults g t s i →
    exec (.endOp g t) s = .next (settle g (endAct i (issueDesc i s)))) ∧
  (∀ (s : State) (g t : Nat) (gr : Grain) (th : Thr) (r : RunSeg) (d : List Byte), nmGet s.grains g = some gr →
    nmGet gr.thr t = some th → segOf s gr.ctx = some r → bufDesc th = some d → th.st = .waitTime →
    dNotBefore d ≤ segGc s r → exec (.notbeforeReached g t) s = .next (settle g (wakePed1 gr.ped2 (ped1Of s g) s))) ∧
  (∀ (s u : State) (g t b : Nat) (gr : Grain) (th : Thr) (st : Stream) (q : Option Req), nmGet s.grains g = some gr →
    nmGet gr.thr t = some th → th.stream = some st → s.hz.reqs.find? (fun q => q.g == g && q.kind == .burst t b) = q →
    u = updHz (fun h => { h with reqs := h.reqs.filter (fun q => !(q.g == g && q.kind == .burst t b)) }) s →
    ((b ∉ th.reqd ∨ (st.handle ≠ 0 ∧ ∀ x, q = some x → mayServe s x = false) ∨
      lanesWait s (physId s g) (fun e => e.g == g && e.why == .burst t b) = true) →
      exec (.descriptorBurstArrive g t b) s = .next s) ∧
    (∀ d, b ∈ th.reqd → lanesWait s (physId s g) (fun e => e.g == g && e.why == .burst t b) = false → st.handle = 0 →
      q = none → burstBytes u gr.ctx g st b = (d, false) →
      exec (.descriptorBurstArrive g t b) s = .next (settle g (updThr g t (fun th => { th with
        reqd := del b th.reqd, bufs := if th.pos / 8 ≤ b then nmSet b d th.bufs else th.bufs }) u))) ∧
    (∀ x y f v, b ∈ th.reqd → lanesWait s (physId s g) (fun e => e.g == g && e.why == .burst t b) = false → q = some x →
      mayServe s x = true → objOf u x.handle = some y →
      sourceRead x y ((List.range 256).map (fun i => st.off + 256 * b + i)) x.ans u = (f, v) →
      (∀ i, i < 256 → (f (st.off + 256 * b + i)).2 = false) →
      exec (.descriptorBurstArrive g t b) s = .next (settle g (updThr g t (fun th => { th with
        reqd := del b th.reqd, bufs := if th.pos / 8 ≤ b then
          nmSet b ((List.range 256).map (fun i => (f (st.off + 256 * b + i)).1)) th.bufs else th.bufs }) v)))) ∧
  (∀ (s : State) (g ser : Nat), exec (.descriptorComplete g ser) s =
    .next (gateAt g (doDescriptorComplete g ser (settleSpec g ser s)))) ∧
  (∀ (s : State) (g ser : Nat) (gr : Grain) (o : OutD) (th : Thr) (r : RunSeg) (x : Prog), nmGet s.grains g = some gr →
    gr.out.find? (fun o => o.ser == ser) = some o → nmGet gr.thr o.t = some th → segOf s gr.ctx = some r →
    progOf r gr.ped2 = some x → x.paired = false →
    (mayComplete s.clk.pcc gr o false = false ∨ lanesIn s g ser = false ∨ abandoned s r o = true → doDescriptorComplete g ser s = settle g s) ∧
    (mayComplete s.clk.pcc gr o false = true → lanesIn s g ser = true → abandoned s r o = false → ∃ u v,
      u = releaseSample g o (o.held || th.spec == .skip) (finishWrites g o s) ∧
      v = retireOut g o (if o.held then updThr g o.t (fun th => { th with heldSig := th.heldSig ++ [o] }) u
        else releaseOut g o gr.ctx (match th.stream with | some st => st.home | none => 0) th.clod u) ∧
      doDescriptorComplete g ser s = settle g (if dOp o.desc = 0x3F then flushDone g v else v)))

/-- What issuing moves (R40, R41, R52): the descriptor takes the next serial and joins the outstanding ones of its
thread, which goes on to the next descriptor; nothing but the grains, the requests and the scratchpad lanes that its
bursts make, and the event counters of its ped-2 changes, so no byte of any memory does. -/
def Obligations.IssueMoves : Prop :=
  (∀ (op : Nat) (faults : State → Iss → List (Bool × Nat)) (act : Iss → State → State) (g t : Nat) (s : State) (i : Iss),
    issues op faults g t s i → issueRow (fun d => dOp d == op) faults act g t s = settle g (act i (issueDesc i s))) ∧
  (∀ (i : Iss) (s : State), ∃ u, u = issueDesc i s ∧
    u = { s with nextSer := u.nextSer, grains := u.grains, ped2s := u.ped2s, hz := u.hz, phys := u.phys } ∧
    (∀ q, (physOf u q).ls = (physOf s q).ls) ∧
    u.hz = { s.hz with
      reqs := u.hz.reqs, nextReq := u.hz.nextReq, nvme := u.hz.nvme, nextNvme := u.hz.nextNvme, xlat := u.hz.xlat }) ∧
  (∀ (i : Iss) (s : State) (gr : Grain) (c : Ctx) (th : Thr), nmGet s.grains i.g = some gr → ctxOf s i.ctx = some c →
    nmGet gr.thr i.t = some th → ∃ u gr' o th', u = issueDesc i s ∧ u.nextSer = s.nextSer + 1 ∧
    nmGet u.grains i.g = some gr' ∧ gr'.out.getLast? = some o ∧ gr'.out.length = gr.out.length + 1 ∧ o.ser = i.ser ∧
    o.t = i.t ∧ o.desc = i.d ∧ o.issue = s.clk.pcc ∧ o.wait = .nothing ∧ nmGet gr'.thr i.t = some th' ∧
    (th.redo = [] → th'.pos = th.pos + 1) ∧ th'.st = (if blocking (dOp i.d) then .waitSync else .ready))

/-- Every step keeps every memory in the one canonical form, whatever the command and whether or not one waits: the
horizons, the hosts' memories, the two firmware slots and every local store. -/
def Obligations.MemoriesKeepForm : Prop :=
  ∀ s t : State, memoriesOk s → step s = .next t → memoriesOk t

/-- The frame of the bytes: of the rows, those that store nothing (136 of them, named one by one in storesNothing) leave
every byte of every memory as it was. The passing of a gc (log entry 2) moves only the bytes of the lanes that pass in
it (R57, log entry 84): the check that finds an error (log entry 116) moves none, nor does a gc with no lane waiting. -/
def Obligations.OnlyStoringRowsMoveBytes : Prop :=
  (∀ (c : Instr) (rest : List Instr) (s t : State), s.pending = c :: rest → storesNothing c = true → step s = .next t →
    sameBytes s t) ∧
  (∀ s t : State, s.pending = [] → step s = .next t → (s.clk.pccRun = false → t = s) ∧
    (s.clk.pccRun = true → sameBytes s (eccStep s) ∧ sameBytes (laneStep (eccStep s)) t ∧
      ((∀ e ∈ (eccStep s).phys, e.2.pend = []) → sameBytes s t)))

/-- What a store does, in whatever memory it lies (R7, R52, R378): a byte of a horizon is read back, and every other
byte of the horizons reads as before; a run of bytes written to host memory is read back and the rest of both hosts'
memories reads as before; a bit of the local store takes the bit of the last element written over it, every other
bit of it and every other local store reads as before. Nothing but the memory that is written moves, and of the
local store its words' poison. -/
def Obligations.StoresReachTheirBytes : Prop :=
  (∀ (v : Byte) (l k : Loc) (s : State), memoriesOk s → (∀ p a, l = .hz4 p a → p < 2) → (∀ p a, k = .hz4 p a → p < 2) →
    ∃ u, u = locSet v l s ∧ locByte u k = (if k = l then v else locByte s k) ∧ u = { s with hz := u.hz } ∧
    u.hz = { s.hz with hz1 := u.hz.hz1, hz2 := u.hz.hz2, hz3 := u.hz.hz3, host0 := u.hz.host0, host1 := u.hz.host1 }) ∧
  (∀ (p q a j : Nat) (b : List Byte) (s : State), memoriesOk s → p < 2 → q < 2 → ∃ u, u = hostWrite p a b s ∧
    memByte (hostMem u q) j = (if q = p ∧ a ≤ j ∧ j < a + b.length then b.getD (j - a) 0 else memByte (hostMem s q) j) ∧
    u = { s with hz := u.hz, out := u.out } ∧ u.hz = { s.hz with host0 := u.hz.host0, host1 := u.hz.host1 }) ∧
  (∀ (p : Place) (before after : List BitW) (x : BitW) (k : Nat) (s : State), memoriesOk s →
    8 * p.base + x.1 ≤ k → k < 8 * p.base + x.1 + x.2.1 →
    (∀ y ∈ after, k < 8 * p.base + y.1 ∨ 8 * p.base + y.1 + y.2.1 ≤ k) → ∃ u, u = lsWrite p (before ++ x :: after) s ∧
    memBit (physOf u p.q).ls k = x.2.2.1.testBit (k - (8 * p.base + x.1))) ∧
  (∀ (p : Place) (ws : List BitW) (k : Nat) (s : State), memoriesOk s →
    (∀ y ∈ ws, k < 8 * p.base + y.1 ∨ 8 * p.base + y.1 + y.2.1 ≤ k) →
    memBit (physOf (lsWrite p ws s) p.q).ls k = memBit (physOf s p.q).ls k) ∧
  (∀ (p : Place) (ws : List BitW) (s : State), ∃ u, u = lsWrite p ws s ∧ u = { s with phys := u.phys } ∧
    (∀ q, q ≠ p.q → physOf u q = physOf s q) ∧
    physOf u p.q = { physOf s p.q with ls := (physOf u p.q).ls, poison := (physOf u p.q).poison })
end

