-- ==== Sys2Proof/Laws/KeptOps.lean ====
section
/-! SUPPORT. What a step moves, part by part: the shared operations, operands, issue and retirement leave alone the clocks, the factory parts, the certificate chain and the
queue. -/

namespace Sys2Proof.Machine

open Sys2Proof

set_option maxRecDepth 4096
set_option linter.all false

/-- What only the power rows, the clocks and the sender of commands move. -/
@[reducible] def State.kept (s : State) : Clk × FactoryPart × FactoryPart × List Byte × List Instr :=
  (s.clk, s.flash.factA, s.flash.factB, s.flash.certChain, s.pending)
@[simp] theorem kept_ite (c : Prop) [Decidable c] (a b : State) : (if c then a else b).kept = if c then a.kept else b.kept := by split <;> rfl
theorem kept_foldl {α : Type} (f : State → α → State) (h : ∀ s a, (f s a).kept = s.kept) (l : List α) (s : State) :
    (l.foldl f s).kept = s.kept := by
  induction l generalizing s with
  | nil => rfl
  | cons a l ih => rw [List.foldl_cons, ih, h]
theorem kept_fold2 {α β : Type} (f : β × State → α → β × State) (h : ∀ s b a, (f (b, s) a).2.kept = s.kept) (l : List α)
    (x : β × State) : (l.foldl f x).2.kept = x.2.kept := by
  induction l generalizing x with
  | nil => rfl
  | cons a l ih => rw [List.foldl_cons, ih, ← h x.2 x.1 a]

/-! ## Ops -/

@[simp] theorem kept_freeBits (w : Nat) (s : State) :
    (freeBits w s).2.kept = s.kept := by
  unfold freeBits
  with_reducible rfl

@[simp] theorem kept_freeBelow (n : Nat) (s : State) :
    (freeBelow n s).2.kept = s.kept := by
  unfold freeBelow
  with_reducible rfl

@[simp] theorem kept_freeBool (s : State) :
    (freeBool s).2.kept = s.kept := by
  unfold freeBool
  with_reducible rfl

@[simp] theorem kept_emit (o : Out) (s : State) :
    (emit o s).kept = s.kept := by
  unfold emit
  with_reducible rfl

@[simp] theorem kept_updPort (p : Nat) (f : Port → Port) (s : State) :
    (updPort p f s).kept = s.kept := by
  unfold updPort
  split <;> with_reducible rfl

@[simp] theorem kept_updFn (fn : Nat) (f : Fn → Fn) (s : State) :
    (updFn fn f s).kept = s.kept := by
  unfold updFn
  with_reducible rfl

@[simp] theorem kept_updCtx (c : Nat) (f : Ctx → Ctx) (s : State) :
    (updCtx c f s).kept = s.kept := by
  unfold updCtx
  with_reducible rfl

@[simp] theorem kept_updCmd (cid : Nat) (f : Cmd → Cmd) (s : State) :
    (updCmd cid f s).kept = s.kept := by
  unfold updCmd
  with_reducible rfl

@[simp] theorem kept_updSeg (c : Nat) (f : RunSeg → RunSeg) (s : State) :
    (updSeg c f s).kept = s.kept := by
  unfold updSeg
  with_reducible rfl

@[simp] theorem kept_updPed2 (p : Nat) (f : Ped2 → Ped2) (s : State) :
    (updPed2 p f s).kept = s.kept := by
  unfold updPed2
  with_reducible rfl

@[simp] theorem kept_updPhys (q : Nat) (f : Phys → Phys) (s : State) :
    (updPhys q f s).kept = s.kept := by
  unfold updPhys
  with_reducible rfl

@[simp] theorem kept_updGrain (g : Nat) (f : Grain → Grain) (s : State) :
    (updGrain g f s).kept = s.kept := by
  unfold updGrain
  with_reducible rfl

@[simp] theorem kept_updThr (g t : Nat) (f : Thr → Thr) (s : State) :
    (updThr g t f s).kept = s.kept := by
  unfold updThr
  repeat' (first | with_reducible rfl | with_reducible refine (kept_updGrain ..).trans ?_ | split)

@[simp] theorem kept_updOut (g ser : Nat) (f : OutD → OutD) (s : State) :
    (updOut g ser f s).kept = s.kept := by
  unfold updOut
  repeat' (first | with_reducible rfl | with_reducible refine (kept_updGrain ..).trans ?_ | split)

@[simp] theorem kept_updObj (h : W32) (f : Obj → Obj) (s : State) :
    (updObj h f s).kept = s.kept := by
  unfold updObj
  with_reducible rfl

@[simp] theorem kept_updSieve (i : Nat) (f : Sieve → Sieve) (s : State) :
    (updSieve i f s).kept = s.kept := by
  unfold updSieve
  with_reducible rfl

@[simp] theorem kept_reportDegraded (s : State) :
    (reportDegraded s).kept = s.kept := by
  unfold reportDegraded
  with_reducible rfl

@[simp] theorem kept_signal (fn v : Nat) (s : State) :
    (signal fn v s).kept = s.kept := by
  unfold signal
  repeat' (first
    | with_reducible rfl
    | with_reducible assumption
    | (extract_lets +onlyGivenNames x; first
      | (have hx : State.kept x = s.kept := ?_; clear_value x; rename' x => y; on_goal 2 => (dsimp -zeta only [x] <;> clear x))
      | (clear_value x; rename' x => y)
      | (rename' x => y))
    | with_reducible refine (kept_updFn ..).trans ?_
    | with_reducible refine (kept_emit ..).trans ?_
    | split
    | dsimp -zeta only
    | simp -zeta only [*])

@[simp] theorem kept_flushPba (fn : Nat) (s : State) :
    (flushPba fn s).kept = s.kept := by
  unfold flushPba
  repeat' (first
    | with_reducible rfl
    | with_reducible refine (kept_signal ..).trans ?_
    | with_reducible refine (kept_updFn ..).trans ?_
    | with_reducible refine (kept_foldl _ ?_ _ _).trans ?_
    | with_reducible refine (kept_fold2 _ ?_ _ _).trans ?_
    | (intro s _ _)
    | (intro s _)
    | split
    | dsimp -zeta only)

@[simp] theorem kept_updRing (h : Nat) (f : ErrRing → ErrRing) (s : State) :
    (updRing h f s).kept = s.kept := by
  unfold updRing
  split <;> with_reducible rfl

@[simp] theorem kept_fatalPut (b : List Byte) (s : State) :
    (fatalPut b s).kept = s.kept := by
  unfold fatalPut
  repeat' (first
    | with_reducible rfl
    | with_reducible assumption
    | (extract_lets +onlyGivenNames x; first
      | (have hx : State.kept x = s.kept := ?_; clear_value x; rename' x => y; on_goal 2 => (dsimp -zeta only [x] <;> clear x))
      | (clear_value x; rename' x => y)
      | (rename' x => y))
    | split
    | dsimp -zeta only
    | simp -zeta only [*])

@[simp] theorem kept_postRec (cls sev : Nat) (ctx : Option Nat) (die unit : Nat) (detail : List (Nat × Nat × Nat)) (s : State) :
    (postRec cls sev ctx die unit detail s).kept = s.kept := by
  unfold postRec
  repeat' (first
    | with_reducible rfl
    | with_reducible assumption
    | (extract_lets +onlyGivenNames x; first
      | (have hx : State.kept x = s.kept := ?_; clear_value x; rename' x => y; on_goal 2 => (dsimp -zeta only [x] <;> clear x))
      | (clear_value x; rename' x => y)
      | (rename' x => y))
    | with_reducible refine (kept_fatalPut ..).trans ?_
    | with_reducible refine (kept_signal ..).trans ?_
    | with_reducible refine (kept_updRing ..).trans ?_
    | split
    | dsimp -zeta only
    | simp -zeta only [*])

@[simp] theorem kept_configWarn (kind idx reason val : Nat) (s : State) :
    (configWarn kind idx reason val s).kept = s.kept := by
  unfold configWarn
  repeat' (first | with_reducible rfl | with_reducible refine (kept_postRec ..).trans ?_ | split)

@[simp] theorem kept_noteRwp (changed : Bool) (s : State) :
    (noteRwp changed s).kept = s.kept := by
  unfold noteRwp
  split <;> with_reducible rfl

@[simp] theorem kept_dropHeld (rq : Requester) (s : State) :
    (dropHeld rq s).kept = s.kept := by
  unfold dropHeld
  with_reducible rfl

theorem kept_onBar (rq : Requester) (f : State → State) (h : ∀ s, (f s).kept = s.kept) (s : State) :
    (onBar rq f s).kept = s.kept := by
  unfold onBar; split
  · rfl
  · exact (h _).trans (kept_dropHeld ..)

@[simp] theorem kept_finish (cid : Nat) (st : W16) (res : List Byte) (s : State) :
    (finish cid st res s).kept = s.kept := by
  unfold finish
  repeat' (first | with_reducible rfl | with_reducible refine (kept_updCmd ..).trans ?_ | split)

@[simp] theorem kept_finish0 (cid : Nat) (st : W16) (s : State) :
    (finish0 cid st s).kept = s.kept := by
  unfold finish0
  repeat' (first | with_reducible rfl | with_reducible refine (kept_finish ..).trans ?_ | split)

@[simp] theorem kept_defer (cid : Nat) (res : List Byte) (s : State) :
    (defer cid res s).kept = s.kept := by
  unfold defer
  repeat' (first | with_reducible rfl | with_reducible refine (kept_updCmd ..).trans ?_ | split)

@[simp] theorem kept_startCmd (cid : Nat) (s : State) :
    (startCmd cid s).kept = s.kept := by
  unfold startCmd
  repeat' (first | with_reducible rfl | with_reducible refine (kept_updCmd ..).trans ?_ | split)

@[simp] theorem kept_updHz (f : Hz → Hz) (s : State) :
    (updHz f s).kept = s.kept := by
  unfold updHz
  with_reducible rfl

@[simp] theorem kept_locSet (v : Byte) (l : Loc) (s : State) :
    (locSet v l s).kept = s.kept := by
  unfold locSet
  repeat' (first | with_reducible rfl | with_reducible refine (kept_updHz ..).trans ?_ | split)

@[simp] theorem kept_clearPoison (locs : List Loc) (s : State) :
    (clearPoison locs s).kept = s.kept := by
  unfold clearPoison
  repeat' (first | with_reducible rfl | with_reducible refine (kept_updHz ..).trans ?_ | split)

@[simp] theorem kept_noteWrite (h : W32) (j : Nat) (s : State) :
    (noteWrite h j s).kept = s.kept := by
  unfold noteWrite
  repeat' (first | with_reducible rfl | with_reducible refine (kept_updObj ..).trans ?_ | split)

@[simp] theorem kept_putCrcs (d : Nat) (lbas : List Nat) (s : State) :
    (putCrcs d lbas s).kept = s.kept := by
  unfold putCrcs
  repeat' (first | with_reducible rfl | with_reducible refine (kept_updHz ..).trans ?_ | split)

@[simp] theorem kept_hz4Failure (o : Obj) (off cause : Nat) (s : State) :
    (hz4Failure o off cause s).kept = s.kept := by
  unfold hz4Failure
  repeat' (first | with_reducible rfl | with_reducible refine (kept_updHz ..).trans ?_ | with_reducible refine (kept_postRec ..).trans ?_ | split)

@[simp] theorem kept_objWrite (h : W32) (bs : List (Nat × Byte)) (s : State) :
    (objWrite h bs s).kept = s.kept := by
  unfold objWrite
  repeat' (first
    | with_reducible rfl
    | with_reducible refine (kept_hz4Failure ..).trans ?_
    | with_reducible refine (kept_locSet ..).trans ?_
    | with_reducible refine (kept_clearPoison ..).trans ?_
    | with_reducible refine (kept_putCrcs ..).trans ?_
    | with_reducible refine (kept_noteWrite ..).trans ?_
    | with_reducible refine (kept_foldl _ ?_ _ _).trans ?_
    | with_reducible refine (kept_fold2 _ ?_ _ _).trans ?_
    | (intro s _ _)
    | (intro s _)
    | split
    | dsimp -zeta only)

@[simp] theorem kept_objWriteAt (h : W32) (off : Nat) (b : List Byte) (s : State) :
    (objWriteAt h off b s).kept = s.kept := by
  unfold objWriteAt
  repeat' (first | with_reducible rfl | with_reducible refine (kept_objWrite ..).trans ?_ | split)

@[simp] theorem kept_objSetPoison (h : W32) (offs : List Nat) (s : State) :
    (objSetPoison h offs s).kept = s.kept := by
  unfold objSetPoison
  repeat' (first
    | with_reducible rfl
    | with_reducible refine (kept_updHz ..).trans ?_
    | with_reducible refine (kept_foldl _ ?_ _ _).trans ?_
    | with_reducible refine (kept_fold2 _ ?_ _ _).trans ?_
    | (intro s _ _)
    | (intro s _)
    | split
    | dsimp -zeta only)

@[simp] theorem kept_objWriteBits (h : W32) (ws : List (Nat × Nat × Nat × Bool)) (s : State) :
    (objWriteBits h ws s).kept = s.kept := by
  unfold objWriteBits
  repeat' (first | with_reducible rfl | with_reducible refine (kept_objSetPoison ..).trans ?_ | with_reducible refine (kept_objWrite ..).trans ?_ | split)

@[simp] theorem kept_allocFrame (hzn : Nat) (s : State) :
    (allocFrame hzn s).2.kept = s.kept := by
  unfold allocFrame
  repeat' (first | with_reducible rfl | with_reducible refine (kept_freeBelow ..).trans ?_ | with_reducible refine (kept_updHz ..).trans ?_ | split)

@[simp] theorem kept_allocFrames (n : Nat) (l : List Nat) (s : State) : (allocFrames n l s).2.kept = s.kept := by
  induction n generalizing l s with
  | zero => rfl
  | succ n ih => simp [-Prod.mk.injEq, allocFrames, ih]

@[simp] theorem kept_freeFrame (hzn f : Nat) (s : State) :
    (freeFrame hzn f s).kept = s.kept := by
  unfold freeFrame
  repeat' (first | with_reducible rfl | with_reducible refine (kept_updHz ..).trans ?_ | split)

theorem kept_allocDrive {d : Nat} {s : State} {r : Nat × State} (h : allocDrive d s = some r) : r.2.kept = s.kept := by
  unfold allocDrive at h; dsimp only at h; split at h
  · cases h
  · cases h; simp [-Prod.mk.injEq]

@[simp] theorem kept_nvmePut (d op : Nat) (lbas reqs : List Nat) (s : State) :
    (nvmePut d op lbas reqs s).kept = s.kept := by
  unfold nvmePut
  repeat' (first | with_reducible rfl | with_reducible refine (kept_updHz ..).trans ?_ | split)

@[simp] theorem kept_freeDrive (d f : Nat) (s : State) :
    (freeDrive d f s).kept = s.kept := by
  unfold freeDrive
  repeat' (first | with_reducible rfl | with_reducible refine (kept_nvmePut ..).trans ?_ | with_reducible refine (kept_updHz ..).trans ?_ | split)

@[simp] theorem kept_freeHome (g : Gran) (s : State) :
    (freeHome g s).kept = s.kept := by
  unfold freeHome
  repeat' (first | with_reducible rfl | with_reducible refine (kept_freeFrame ..).trans ?_ | with_reducible refine (kept_freeDrive ..).trans ?_ | split)

@[simp] theorem kept_copyGranule (o : Obj) (j : Nat) (src dst : Loc) (s : State) :
    (copyGranule o j src dst s).kept = s.kept := by
  unfold copyGranule
  repeat' (first | with_reducible rfl | with_reducible refine (kept_updHz ..).trans ?_ | with_reducible refine (kept_putCrcs ..).trans ?_ | split)

@[simp] theorem kept_hostWrite (p a : Nat) (b : List Byte) (s : State) :
    (hostWrite p a b s).kept = s.kept := by
  unfold hostWrite
  repeat' (first | with_reducible rfl | with_reducible refine (kept_updHz ..).trans ?_ | with_reducible refine (kept_emit ..).trans ?_ | split)

@[simp] theorem kept_answerWrite (k : Cmd) (a : Nat) (b : List Byte) (s : State) :
    (answerWrite k a b s).kept = s.kept := by
  unfold answerWrite
  repeat' (first | with_reducible rfl | with_reducible refine (kept_emit ..).trans ?_ | with_reducible refine (kept_hostWrite ..).trans ?_ | split)

@[simp] theorem kept_semGrant (ctx : Nat) (ped : W32) (i : Nat) (l : List SemWaiter) (s : State) :
    (semGrant ctx ped i l s).kept = s.kept := by
  induction l generalizing s with
  | nil => rfl
  | cons w l ih => unfold semGrant; repeat' (first | rfl | split | simp [-Prod.mk.injEq, ih])

@[simp] theorem kept_bumpT (g : Nat) (t : Option Nat) (e ev n : Nat) (s : State) :
    (bumpT g t e ev n s).kept = s.kept := by
  unfold bumpT
  repeat' (first
    | with_reducible rfl
    | with_reducible assumption
    | (extract_lets +onlyGivenNames x; first
      | (have hx : State.kept x = s.kept := ?_; clear_value x; rename' x => y; on_goal 2 => (dsimp -zeta only [x] <;> clear x))
      | (clear_value x; rename' x => y)
      | (rename' x => y))
    | with_reducible refine (kept_updPed2 ..).trans ?_
    | split
    | dsimp -zeta only
    | simp -zeta only [*])

@[simp] theorem kept_bump (g ev n : Nat) (s : State) :
    (bump g ev n s).kept = s.kept := by
  unfold bump
  repeat' (first | with_reducible rfl | with_reducible refine (kept_bumpT ..).trans ?_ | split)

@[simp] theorem kept_semAdd (ctx : Nat) (ped : W32) (i n g : Nat) (s : State) :
    (semAdd ctx ped i n g s).kept = s.kept := by
  unfold semAdd
  repeat' (first
    | with_reducible rfl
    | with_reducible refine (kept_bump ..).trans ?_
    | with_reducible refine (kept_updCtx ..).trans ?_
    | with_reducible refine (kept_semGrant ..).trans ?_
    | split
    | dsimp -zeta only)

/-! ## Numerics -/


/-! ## Operands -/

@[simp] theorem kept_lsWrite (p : Place) (ws : List BitW) (s : State) :
    (lsWrite p ws s).kept = s.kept := by
  unfold lsWrite
  repeat' (first | with_reducible rfl | with_reducible refine (kept_updPhys ..).trans ?_ | split)

@[simp] theorem kept_queueLanes (q : Nat) (e : PendW) (s : State) :
    (queueLanes q e s).kept = s.kept := by
  unfold queueLanes
  repeat' (first | with_reducible rfl | with_reducible refine (kept_updPhys ..).trans ?_ | split)

@[simp] theorem kept_landLane (q base : Nat) (e : PendW) (lane : Nat) (s : State) :
    (landLane q base e lane s).kept = s.kept := by
  unfold landLane
  repeat' (first | with_reducible rfl | with_reducible refine (kept_updPhys ..).trans ?_ | split)

@[simp] theorem kept_lsWriteBytes (p : Place) (a : Nat) (b : List Byte) (s : State) :
    (lsWriteBytes p a b s).kept = s.kept := by
  unfold lsWriteBytes
  repeat' (first | with_reducible rfl | with_reducible refine (kept_lsWrite ..).trans ?_ | split)

@[simp] theorem kept_writeBack (g ser : Nat) (p : Place) (l : CacheLine) (s : State) :
    (writeBack g ser p l s).kept = s.kept := by
  unfold writeBack
  repeat' (first | with_reducible rfl | with_reducible refine (kept_queueLanes ..).trans ?_ | split)

@[simp] theorem kept_fillLine (g : Nat) (p : Place) (va : Nat) (data : List Byte) (bad : Bool) (s : State) :
    (fillLine g p va data bad s).kept = s.kept := by
  unfold fillLine
  repeat' (first
    | with_reducible rfl
    | with_reducible assumption
    | (extract_lets +onlyGivenNames x; first
      | (have hx : State.kept x = s.kept := ?_; clear_value x; rename' x => y; on_goal 2 => (dsimp -zeta only [x] <;> clear x))
      | (clear_value x; rename' x => y)
      | (rename' x => y))
    | with_reducible refine (kept_writeBack ..).trans ?_
    | with_reducible refine (kept_bump ..).trans ?_
    | with_reducible refine (kept_updPhys ..).trans ?_
    | with_reducible refine (kept_foldl _ ?_ _ _).trans ?_
    | with_reducible refine (kept_fold2 _ ?_ _ _).trans ?_
    | (intro s _ _)
    | (intro s _)
    | split
    | dsimp -zeta only
    | simp -zeta only [*])

@[simp] theorem kept_cacheFill (g : Nat) (p : Place) (va : Nat) (s : State) :
    (cacheFill g p va s).kept = s.kept := by
  unfold cacheFill
  repeat' (first
    | with_reducible rfl
    | with_reducible assumption
    | (extract_lets +onlyGivenNames x; first
      | (have hx : State.kept x = s.kept := ?_; clear_value x; rename' x => y; on_goal 2 => (dsimp -zeta only [x] <;> clear x))
      | (clear_value x; rename' x => y)
      | (rename' x => y))
    | with_reducible refine (kept_fillLine ..).trans ?_
    | split
    | dsimp -zeta only
    | simp -zeta only [*])

@[simp] theorem kept_cacheTouch (p : Place) (va : Nat) (s : State) :
    (cacheTouch p va s).kept = s.kept := by
  unfold cacheTouch
  repeat' (first | with_reducible rfl | with_reducible refine (kept_updPhys ..).trans ?_ | split)

@[simp] theorem kept_cacheWrite (g : Nat) (p : Place) (o : Obj) (ws : List BitW) (s : State) :
    (cacheWrite g p o ws s).kept = s.kept := by
  unfold cacheWrite
  repeat' (first
    | with_reducible rfl
    | with_reducible refine (kept_updPhys ..).trans ?_
    | with_reducible refine (kept_cacheFill ..).trans ?_
    | with_reducible refine (kept_foldl _ ?_ _ _).trans ?_
    | with_reducible refine (kept_fold2 _ ?_ _ _).trans ?_
    | (intro s _ _)
    | (intro s _)
    | split
    | dsimp -zeta only)

@[simp] theorem kept_flushLines (g ser : Nat) (p : Place) (s : State) :
    (flushLines g ser p s).kept = s.kept := by
  unfold flushLines
  repeat' (first
    | with_reducible rfl
    | with_reducible refine (kept_writeBack ..).trans ?_
    | with_reducible refine (kept_bump ..).trans ?_
    | with_reducible refine (kept_updPhys ..).trans ?_
    | with_reducible refine (kept_foldl _ ?_ _ _).trans ?_
    | with_reducible refine (kept_fold2 _ ?_ _ _).trans ?_
    | (intro s _ _)
    | (intro s _)
    | split
    | dsimp -zeta only)

@[simp] theorem kept_noteBytes (ctx g vi : Nat) (bytes : List (Nat × Byte)) (s : State) :
    (noteBytes ctx g vi bytes s).kept = s.kept := by
  unfold noteBytes
  repeat' (first
    | with_reducible rfl
    | with_reducible assumption
    | (extract_lets +onlyGivenNames x; first
      | (have hx : State.kept x = s.kept := ?_; clear_value x; rename' x => y; on_goal 2 => (dsimp -zeta only [x] <;> clear x))
      | (clear_value x; rename' x => y)
      | (rename' x => y))
    | with_reducible refine (kept_updSeg ..).trans ?_
    | with_reducible refine (kept_foldl _ ?_ _ _).trans ?_
    | with_reducible refine (kept_fold2 _ ?_ _ _).trans ?_
    | (intro s _ _)
    | (intro s _)
    | split
    | dsimp -zeta only
    | simp -zeta only [*])

@[simp] theorem kept_noteChk (g vi : Nat) (p : Place) (v : View) (ws : List BitW) (s : State) :
    (noteChk g vi p v ws s).kept = s.kept := by
  unfold noteChk
  repeat' (first
    | with_reducible rfl
    | with_reducible assumption
    | (extract_lets +onlyGivenNames x; first
      | (have hx : State.kept x = s.kept := ?_; clear_value x; rename' x => y; on_goal 2 => (dsimp -zeta only [x] <;> clear x))
      | (clear_value x; rename' x => y)
      | (rename' x => y))
    | with_reducible refine (kept_noteBytes ..).trans ?_
    | split
    | dsimp -zeta only
    | simp -zeta only [*])

@[simp] theorem kept_noteObj (ctx g vi : Nat) (h : W32) (ws : List BitW) (s : State) :
    (noteObj ctx g vi h ws s).kept = s.kept := by
  unfold noteObj
  repeat' (first | with_reducible rfl | with_reducible refine (kept_noteBytes ..).trans ?_ | split)

@[simp] theorem kept_writeView (g vi : Nat) (p : Place) (v : View) (ws : List BitW) (s : State) :
    (writeView g vi p v ws s).kept = s.kept := by
  unfold writeView
  repeat' (first
    | with_reducible rfl
    | with_reducible refine (kept_lsWrite ..).trans ?_
    | with_reducible refine (kept_cacheWrite ..).trans ?_
    | with_reducible refine (kept_noteChk ..).trans ?_
    | split
    | dsimp -zeta only)

/-! ## Flags -/

@[simp] theorem kept_noteStk (ctx : Nat) (k : Counts) (s : State) :
    (noteStk ctx k s).kept = s.kept := by
  unfold noteStk
  repeat' (first | with_reducible rfl | with_reducible refine (kept_updCtx ..).trans ?_ | split)

@[simp] theorem kept_putNumRecord (ctx g : Nat) (b : List Byte) (s : State) :
    (putNumRecord ctx g b s).kept = s.kept := by
  unfold putNumRecord
  repeat' (first
    | with_reducible rfl
    | with_reducible assumption
    | (extract_lets +onlyGivenNames x; first
      | (have hx : State.kept x = s.kept := ?_; clear_value x; rename' x => y; on_goal 2 => (dsimp -zeta only [x] <;> clear x))
      | (clear_value x; rename' x => y)
      | (rename' x => y))
    | with_reducible refine (kept_updCtx ..).trans ?_
    | with_reducible refine (kept_bump ..).trans ?_
    | with_reducible refine (kept_objWriteAt ..).trans ?_
    | split
    | dsimp -zeta only
    | simp -zeta only [*])

@[simp] theorem kept_releaseCounts (g : Nat) (o : OutD) (ctx : Nat) (s : State) :
    (releaseCounts g o ctx s).kept = s.kept := by
  unfold releaseCounts
  repeat' (first
    | with_reducible rfl
    | with_reducible assumption
    | (extract_lets +onlyGivenNames x; first
      | (have hx : State.kept x = s.kept := ?_; clear_value x; rename' x => y; on_goal 2 => (dsimp -zeta only [x] <;> clear x))
      | (clear_value x; rename' x => y)
      | (rename' x => y))
    | with_reducible refine (kept_updCtx ..).trans ?_
    | with_reducible refine (kept_putNumRecord ..).trans ?_
    | with_reducible refine (kept_foldl _ ?_ _ _).trans ?_
    | with_reducible refine (kept_fold2 _ ?_ _ _).trans ?_
    | (intro s _ _)
    | (intro s _)
    | split
    | dsimp -zeta only
    | simp -zeta only [*])

/-! ## Issue -/

@[simp] theorem kept_segStatus (ctx : Nat) (st : W16) (s : State) :
    (segStatus ctx st s).kept = s.kept := by
  unfold segStatus
  repeat' (first | with_reducible rfl | with_reducible refine (kept_updSeg ..).trans ?_ | split)

@[simp] theorem kept_dropClods (ctx : Nat) (s : State) :
    (dropClods ctx s).kept = s.kept := by
  unfold dropClods
  repeat' (first
    | with_reducible rfl
    | with_reducible refine (kept_emit ..).trans ?_
    | with_reducible refine (kept_foldl _ ?_ _ _).trans ?_
    | with_reducible refine (kept_fold2 _ ?_ _ _).trans ?_
    | (intro s _ _)
    | (intro s _)
    | split
    | dsimp -zeta only)

@[simp] theorem kept_abortClods (g : Nat) (cause : W16) (a : W64) (s : State) :
    (abortClods g cause a s).kept = s.kept := by
  unfold abortClods
  repeat' (first
    | with_reducible rfl
    | with_reducible refine (kept_postRec ..).trans ?_
    | with_reducible refine (kept_foldl _ ?_ _ _).trans ?_
    | with_reducible refine (kept_fold2 _ ?_ _ _).trans ?_
    | (intro s _ _)
    | (intro s _)
    | split
    | dsimp -zeta only)

@[simp] theorem kept_stopSeg (ctx : Nat) (why : StopCause) (st : W16) (s : State) :
    (stopSeg ctx why st s).kept = s.kept := by
  unfold stopSeg
  repeat' (first
    | with_reducible rfl
    | with_reducible refine (kept_updSeg ..).trans ?_
    | with_reducible refine (kept_dropClods ..).trans ?_
    | with_reducible refine (kept_flushLines ..).trans ?_
    | with_reducible refine (kept_foldl _ ?_ _ _).trans ?_
    | with_reducible refine (kept_fold2 _ ?_ _ _).trans ?_
    | (intro s _ _)
    | (intro s _)
    | split
    | dsimp -zeta only)

@[simp] theorem kept_updRun (ctx cid : Nat) (f : SegRun → SegRun) (s : State) :
    (updRun ctx cid f s).kept = s.kept := by
  unfold updRun
  repeat' (first | with_reducible rfl | with_reducible refine (kept_updCtx ..).trans ?_ | split)

@[simp] theorem kept_faultAt (g t code : Nat) (a : W64) (s : State) :
    (faultAt g t code a s).kept = s.kept := by
  unfold faultAt
  repeat' (first
    | with_reducible rfl
    | with_reducible refine (kept_updThr ..).trans ?_
    | with_reducible refine (kept_postRec ..).trans ?_
    | with_reducible refine (kept_updRun ..).trans ?_
    | with_reducible refine (kept_stopSeg ..).trans ?_
    | with_reducible refine (kept_descFault ..).trans ?_
    | with_reducible refine (kept_abortClods ..).trans ?_
    | split
    | dsimp -zeta only)

@[simp] theorem kept_descFault (g t code : Nat) (s : State) :
    (descFault g t code s).kept = s.kept := by
  unfold descFault
  repeat' (first
    | with_reducible rfl
    | with_reducible refine (kept_faultAt ..).trans ?_
    | split
    | dsimp -zeta only)

@[simp] theorem kept_consumePoison (ctx g horizon consumer : Nat) (h : W32) (addr : Nat) (daddr : W64) (s : State) :
    (consumePoison ctx g horizon consumer h addr daddr s).kept = s.kept := by
  unfold consumePoison
  repeat' (first | with_reducible rfl | with_reducible refine (kept_postRec ..).trans ?_ | with_reducible refine (kept_segStatus ..).trans ?_ | split)

@[simp] theorem kept_reqStarts (q : Req) (s : State) :
    (reqStarts q s).kept = s.kept := by
  unfold reqStarts
  repeat' (first | with_reducible rfl | with_reducible refine (kept_nvmePut ..).trans ?_ | split)

@[simp] theorem kept_enterReq (q : Req) (s : State) :
    (enterReq q s).kept = s.kept := by
  unfold enterReq
  repeat' (first
    | with_reducible rfl
    | with_reducible assumption
    | (extract_lets +onlyGivenNames x; first
      | (have hx : State.kept x = s.kept := ?_; clear_value x; rename' x => y; on_goal 2 => (dsimp -zeta only [x] <;> clear x))
      | (clear_value x; rename' x => y)
      | (rename' x => y))
    | with_reducible refine (kept_updHz ..).trans ?_
    | with_reducible refine (kept_reqStarts ..).trans ?_
    | split
    | dsimp -zeta only
    | simp -zeta only [*])

@[simp] theorem kept_grantReq (q : Req) (s : State) :
    (grantReq q s).kept = s.kept := by
  unfold grantReq
  repeat' (first | with_reducible rfl | with_reducible refine (kept_reqStarts ..).trans ?_ | with_reducible refine (kept_updHz ..).trans ?_ | split)

@[simp] theorem kept_xlatObj (die : Nat) (h : W32) (s : State) :
    (xlatObj die h s).kept = s.kept := by
  unfold xlatObj
  repeat' (first | with_reducible rfl | with_reducible refine (kept_updHz ..).trans ?_ | split)

@[simp] theorem kept_xlatGran (die : Nat) (h : W32) (j : Nat) (s : State) :
    (xlatGran die h j s).kept = s.kept := by
  unfold xlatGran
  repeat' (first | with_reducible rfl | with_reducible refine (kept_updHz ..).trans ?_ | split)

@[simp] theorem kept_translate (die : Nat) (o : Obj) (j : Nat) (s : State) :
    (translate die o j s).kept = s.kept := by
  unfold translate
  repeat' (first
    | with_reducible rfl
    | with_reducible assumption
    | (extract_lets +onlyGivenNames x; first
      | (have hx : State.kept x = s.kept := ?_; clear_value x; rename' x => y; on_goal 2 => (dsimp -zeta only [x] <;> clear x))
      | (clear_value x; rename' x => y)
      | (rename' x => y))
    | with_reducible refine (kept_xlatObj ..).trans ?_
    | with_reducible refine (kept_xlatGran ..).trans ?_
    | with_reducible refine (kept_enterReq ..).trans ?_
    | split
    | dsimp -zeta only
    | simp -zeta only [*])

@[simp] theorem kept_addReqAt (die ctx g ser : Nat) (o : Obj) (off : Nat) (offs : List Nat) (kind : ReqKind) (clod : Option Nat) (part : Nat) (s : State) :
    (addReqAt die ctx g ser o off offs kind clod part s).kept = s.kept := by
  unfold addReqAt
  repeat' (first | with_reducible rfl | with_reducible refine (kept_translate ..).trans ?_ | with_reducible refine (kept_enterReq ..).trans ?_ | split)

@[simp] theorem kept_addReq (ctx g ser : Nat) (o : Obj) (off : Nat) (kind : ReqKind) (s : State) :
    (addReq ctx g ser o off kind s).kept = s.kept := by
  unfold addReq
  repeat' (first | with_reducible rfl | with_reducible refine (kept_bump ..).trans ?_ | with_reducible refine (kept_addReqAt ..).trans ?_ | split)

@[simp] theorem kept_entryServed (q : Req) (j : Nat) (s : State) :
    (entryServed q j s).kept = s.kept := by
  unfold entryServed
  repeat' (first
    | with_reducible rfl
    | with_reducible assumption
    | (extract_lets +onlyGivenNames x; first
      | (have hx : State.kept x = s.kept := ?_; clear_value x; rename' x => y; on_goal 2 => (dsimp -zeta only [x] <;> clear x))
      | (clear_value x; rename' x => y)
      | (rename' x => y))
    | with_reducible refine (kept_xlatGran ..).trans ?_
    | with_reducible refine (kept_updHz ..).trans ?_
    | with_reducible refine (kept_grantReq ..).trans ?_
    | with_reducible refine (kept_foldl _ ?_ _ _).trans ?_
    | with_reducible refine (kept_fold2 _ ?_ _ _).trans ?_
    | (intro s _ _)
    | (intro s _)
    | split
    | dsimp -zeta only
    | simp -zeta only [*])

@[simp] theorem kept_requestBurst (g t b : Nat) (s : State) :
    (requestBurst g t b s).kept = s.kept := by
  unfold requestBurst
  repeat' (first
    | with_reducible rfl
    | with_reducible assumption
    | (extract_lets +onlyGivenNames x; first
      | (have hx : State.kept x = s.kept := ?_; clear_value x; rename' x => y; on_goal 2 => (dsimp -zeta only [x] <;> clear x))
      | (clear_value x; rename' x => y)
      | (rename' x => y))
    | with_reducible refine (kept_updThr ..).trans ?_
    | with_reducible refine (kept_queueLanes ..).trans ?_
    | with_reducible refine (kept_addReq ..).trans ?_
    | split
    | dsimp -zeta only
    | simp -zeta only [*])

@[simp] theorem kept_moveTo (g t pos : Nat) (s : State) :
    (moveTo g t pos s).kept = s.kept := by
  unfold moveTo
  repeat' (first | with_reducible rfl | with_reducible refine (kept_updThr ..).trans ?_ | split)

@[simp] theorem kept_jumpTo (g t pos : Nat) (s : State) :
    (jumpTo g t pos s).kept = s.kept := by
  unfold jumpTo
  repeat' (first | with_reducible rfl | with_reducible refine (kept_requestBurst ..).trans ?_ | with_reducible refine (kept_moveTo ..).trans ?_ | split)

@[simp] theorem kept_flushSamples (g : Nat) (s : State) :
    (flushSamples g s).kept = s.kept := by
  unfold flushSamples
  repeat' (first
    | with_reducible rfl
    | with_reducible assumption
    | (extract_lets +onlyGivenNames x; first
      | (have hx : State.kept x = s.kept := ?_; clear_value x; rename' x => y; on_goal 2 => (dsimp -zeta only [x] <;> clear x))
      | (clear_value x; rename' x => y)
      | (rename' x => y))
    | with_reducible refine (kept_updGrain ..).trans ?_
    | with_reducible refine (kept_updCtx ..).trans ?_
    | with_reducible refine (kept_objWriteAt ..).trans ?_
    | with_reducible refine (kept_foldl _ ?_ _ _).trans ?_
    | with_reducible refine (kept_fold2 _ ?_ _ _).trans ?_
    | (intro s _ _)
    | (intro s _)
    | split
    | dsimp -zeta only
    | simp -zeta only [*])

@[simp] theorem kept_addSample (g : Nat) (b : List Byte) (s : State) :
    (addSample g b s).kept = s.kept := by
  unfold addSample
  repeat' (first
    | with_reducible rfl
    | with_reducible refine (kept_updCtx ..).trans ?_
    | with_reducible refine (kept_updGrain ..).trans ?_
    | with_reducible refine (kept_flushSamples ..).trans ?_
    | split
    | dsimp -zeta only)

@[simp] theorem kept_issueDesc (i : Iss) (s : State) :
    (issueDesc i s).kept = s.kept := by
  unfold issueDesc
  repeat' (first
    | with_reducible rfl
    | with_reducible assumption
    | (extract_lets +onlyGivenNames x; first
      | (have hx : State.kept x = s.kept := ?_; clear_value x; rename' x => y; on_goal 2 => (dsimp -zeta only [x] <;> clear x))
      | (clear_value x; rename' x => y)
      | (rename' x => y))
    | with_reducible refine (kept_updGrain ..).trans ?_
    | with_reducible refine (kept_updThr ..).trans ?_
    | with_reducible refine (kept_moveTo ..).trans ?_
    | with_reducible refine (kept_requestBurst ..).trans ?_
    | with_reducible refine (kept_bump ..).trans ?_
    | with_reducible refine (kept_bumpT ..).trans ?_
    | with_reducible refine (kept_foldl _ ?_ _ _).trans ?_
    | with_reducible refine (kept_fold2 _ ?_ _ _).trans ?_
    | (intro s _ _)
    | (intro s _)
    | split
    | dsimp -zeta only
    | simp -zeta only [*])

@[simp] theorem kept_setWait (g t : Nat) (w : TSt × Nat) (s : State) :
    (setWait g t w s).kept = s.kept := by
  unfold setWait
  repeat' (first | with_reducible rfl | with_reducible refine (kept_updThr ..).trans ?_ | split)

@[simp] theorem kept_settle (g : Nat) (s : State) :
    (settle g s).kept = s.kept := by
  unfold settle
  repeat' (first | with_reducible rfl | with_reducible refine (kept_updGrain ..).trans ?_ | split)

@[simp] theorem kept_skipDesc (g t : Nat) (s : State) :
    (skipDesc g t s).kept = s.kept := by
  unfold skipDesc
  repeat' (first
    | with_reducible rfl
    | with_reducible refine (kept_updThr ..).trans ?_
    | with_reducible refine (kept_moveTo ..).trans ?_
    | with_reducible refine (kept_requestBurst ..).trans ?_
    | split
    | dsimp -zeta only)

@[simp] theorem kept_issueRow (pick : List Byte → Bool) (faults : State → Iss → List (Bool × Nat)) (act : Iss → State → State)
    (hact : ∀ i s, (act i s).kept = s.kept) (g t : Nat) (s : State) : (issueRow pick faults act g t s).kept = s.kept := by
  unfold issueRow; (try dsimp only); repeat' (first | with_reducible rfl | split | simp [-Prod.mk.injEq, hact])

@[simp] theorem kept_releaseSig (g : Nat) (o : OutD) (ctx : Nat) (home : W32) (clod : Option Nat) (s : State) :
    (releaseSig g o ctx home clod s).kept = s.kept := by
  unfold releaseSig
  repeat' (first | with_reducible rfl | with_reducible refine (kept_semAdd ..).trans ?_ | split)

@[simp] theorem kept_releaseSample (g : Nat) (o : OutD) (inTask : Bool) (s : State) :
    (releaseSample g o inTask s).kept = s.kept := by
  unfold releaseSample
  repeat' (first | with_reducible rfl | with_reducible refine (kept_addSample ..).trans ?_ | split)

@[simp] theorem kept_releaseOut (g : Nat) (o : OutD) (ctx : Nat) (home : W32) (clod : Option Nat) (s : State) :
    (releaseOut g o ctx home clod s).kept = s.kept := by
  unfold releaseOut
  repeat' (first | with_reducible rfl | with_reducible refine (kept_releaseCounts ..).trans ?_ | with_reducible refine (kept_releaseSig ..).trans ?_ | split)

@[simp] theorem kept_retireOut (g : Nat) (o : OutD) (s : State) :
    (retireOut g o s).kept = s.kept := by
  unfold retireOut
  repeat' (first
    | with_reducible rfl
    | with_reducible refine (kept_updGrain ..).trans ?_
    | with_reducible refine (kept_updPhys ..).trans ?_
    | with_reducible refine (kept_updThr ..).trans ?_
    | split
    | dsimp -zeta only)

@[simp] theorem kept_holdWrites (i : Iss) (v : View) (ws : List BitW) (s : State) :
    (holdWrites i v ws s).kept = s.kept := by
  unfold holdWrites
  repeat' (first | with_reducible rfl | with_reducible refine (kept_queueLanes ..).trans ?_ | split)

@[simp] theorem kept_dropWrites (q : Nat) (sers : List Nat) (s : State) :
    (dropWrites q sers s).kept = s.kept := by
  unfold dropWrites
  repeat' (first | with_reducible rfl | with_reducible refine (kept_updPhys ..).trans ?_ | split)

@[simp] theorem kept_finishWrites (g : Nat) (o : OutD) (s : State) :
    (finishWrites g o s).kept = s.kept := by
  unfold finishWrites
  repeat' (first | with_reducible rfl | with_reducible refine (kept_writeView ..).trans ?_ | with_reducible refine (kept_dropWrites ..).trans ?_ | split)

@[simp] theorem kept_flushDone (g : Nat) (s : State) :
    (flushDone g s).kept = s.kept := by
  unfold flushDone
  repeat' (first | with_reducible rfl | with_reducible refine (kept_flushLines ..).trans ?_ | split)

@[simp] theorem kept_doDescriptorComplete (g ser : Nat) (s : State) :
    (doDescriptorComplete g ser s).kept = s.kept := by
  unfold doDescriptorComplete
  repeat' (first
    | with_reducible rfl
    | with_reducible assumption
    | (extract_lets +onlyGivenNames x; first
      | (have hx : State.kept x = s.kept := ?_; clear_value x; rename' x => y; on_goal 2 => (dsimp -zeta only [x] <;> clear x))
      | (clear_value x; rename' x => y)
      | (rename' x => y))
    | with_reducible refine (kept_settle ..).trans ?_
    | with_reducible refine (kept_finishWrites ..).trans ?_
    | with_reducible refine (kept_releaseSample ..).trans ?_
    | with_reducible refine (kept_updThr ..).trans ?_
    | with_reducible refine (kept_releaseOut ..).trans ?_
    | with_reducible refine (kept_updGrain ..).trans ?_
    | with_reducible refine (kept_retireOut ..).trans ?_
    | with_reducible refine (kept_flushDone ..).trans ?_
    | split
    | dsimp -zeta only
    | simp -zeta only [*])

@[simp] theorem kept_noEffect (i : Iss) (s : State) :
    (noEffect i s).kept = s.kept := by
  unfold noEffect
  repeat' (first | with_reducible rfl | with_reducible refine (kept_doDescriptorComplete ..).trans ?_ | with_reducible refine (kept_updOut ..).trans ?_ | split)

@[simp] theorem kept_workDone (g ser : Nat) (s : State) :
    (workDone g ser s).kept = s.kept := by
  unfold workDone
  repeat' (first | with_reducible rfl | with_reducible refine (kept_updOut ..).trans ?_ | split)

@[simp] theorem kept_setWaitFor (i : Iss) (w : OWait) (s : State) :
    (setWaitFor i w s).kept = s.kept := by
  unfold setWaitFor
  repeat' (first | with_reducible rfl | with_reducible refine (kept_updOut ..).trans ?_ | split)

@[simp] theorem kept_setCounts (i : Iss) (c : Counts) (sts : List StatFig) (s : State) :
    (setCounts i c sts s).kept = s.kept := by
  unfold setCounts
  repeat' (first | with_reducible rfl | with_reducible refine (kept_updOut ..).trans ?_ | split)

@[simp] theorem kept_consumeView (i : Iss) (byteAt : Nat → Byte × Bool) (v : View) (s : State) :
    (consumeView i byteAt v s).kept = s.kept := by
  unfold consumeView
  repeat' (first | with_reducible rfl | with_reducible refine (kept_consumePoison ..).trans ?_ | split)

/-! ## Gate -/

@[simp] theorem kept_gatePed1 (p i : Nat) (s : State) :
    (gatePed1 p i s).kept = s.kept := by
  unfold gatePed1
  repeat' (first
    | with_reducible rfl
    | with_reducible assumption
    | (extract_lets +onlyGivenNames x; first
      | (have hx : State.kept x = s.kept := ?_; clear_value x; rename' x => y; on_goal 2 => (dsimp -zeta only [x] <;> clear x))
      | (clear_value x; rename' x => y)
      | (rename' x => y))
    | with_reducible refine (kept_updGrain ..).trans ?_
    | with_reducible refine (kept_updPed2 ..).trans ?_
    | with_reducible refine (kept_foldl _ ?_ _ _).trans ?_
    | with_reducible refine (kept_fold2 _ ?_ _ _).trans ?_
    | (intro s _ _)
    | (intro s _)
    | split
    | dsimp -zeta only
    | simp -zeta only [*])

@[simp] theorem kept_gateAt (g : Nat) (s : State) :
    (gateAt g s).kept = s.kept := by
  unfold gateAt
  repeat' (first | with_reducible rfl | with_reducible refine (kept_gatePed1 ..).trans ?_ | split)

@[simp] theorem kept_wakePed1 (p i : Nat) (s : State) :
    (wakePed1 p i s).kept = s.kept := by
  unfold wakePed1
  repeat' (first | with_reducible rfl | with_reducible refine (kept_updPed2 ..).trans ?_ | split)

@[simp] theorem kept_doPed1Prewake (ped1 : Nat) (s : State) :
    (doPed1Prewake ped1 s).kept = s.kept := by
  unfold doPed1Prewake
  repeat' (first
    | with_reducible rfl
    | with_reducible assumption
    | (extract_lets +onlyGivenNames x; first
      | (have hx : State.kept x = s.kept := ?_; clear_value x; rename' x => y; on_goal 2 => (dsimp -zeta only [x] <;> clear x))
      | (clear_value x; rename' x => y)
      | (rename' x => y))
    | with_reducible refine (kept_updPed2 ..).trans ?_
    | with_reducible refine (kept_wakePed1 ..).trans ?_
    | split
    | dsimp -zeta only
    | simp -zeta only [*])

@[simp] theorem kept_endWake (p i : Nat) (s : State) :
    (endWake p i s).kept = s.kept := by
  unfold endWake
  repeat' (first
    | with_reducible rfl
    | with_reducible assumption
    | (extract_lets +onlyGivenNames x; first
      | (have hx : State.kept x = s.kept := ?_; clear_value x; rename' x => y; on_goal 2 => (dsimp -zeta only [x] <;> clear x))
      | (clear_value x; rename' x => y)
      | (rename' x => y))
    | with_reducible refine (kept_updPed2 ..).trans ?_
    | with_reducible refine (kept_updGrain ..).trans ?_
    | with_reducible refine (kept_foldl _ ?_ _ _).trans ?_
    | with_reducible refine (kept_fold2 _ ?_ _ _).trans ?_
    | (intro s _ _)
    | (intro s _)
    | split
    | dsimp -zeta only
    | simp -zeta only [*])

@[simp] theorem kept_gateStep (s : State) :
    (gateStep s).kept = s.kept := by
  unfold gateStep
  repeat' (first
    | with_reducible rfl
    | with_reducible refine (kept_endWake ..).trans ?_
    | with_reducible refine (kept_foldl _ ?_ _ _).trans ?_
    | with_reducible refine (kept_fold2 _ ?_ _ _).trans ?_
    | (intro s _ _)
    | (intro s _)
    | split
    | dsimp -zeta only)

/-! ## Retire -/

@[simp] theorem kept_learnFailed (q : Nat) (s : State) :
    (learnFailed q s).kept = s.kept := by
  unfold learnFailed
  with_reducible rfl

@[simp] theorem kept_learnPed2 (p : Nat) (s : State) :
    (learnPed2 p s).kept = s.kept := by
  unfold learnPed2
  with_reducible rfl

@[simp] theorem kept_learnFrame (hzn ch f : Nat) (s : State) :
    (learnFrame hzn ch f s).kept = s.kept := by
  unfold learnFrame
  with_reducible rfl

@[simp] theorem kept_retiredRec (c : SpareCheck) (old : Nat) (new cause : Nat) (s : State) :
    (retiredRec c old new cause s).kept = s.kept := by
  unfold retiredRec
  repeat' (first | with_reducible rfl | with_reducible refine (kept_postRec ..).trans ?_ | split)

@[simp] theorem kept_retirePed2 (p cause : Nat) (bad : List Nat) (s : State) :
    (retirePed2 p cause bad s).kept = s.kept := by
  unfold retirePed2
  repeat' (first
    | with_reducible rfl
    | with_reducible refine (kept_updPed2 ..).trans ?_
    | with_reducible refine (kept_reportDegraded ..).trans ?_
    | with_reducible refine (kept_postRec ..).trans ?_
    | with_reducible refine (kept_learnPed2 ..).trans ?_
    | with_reducible refine (kept_foldl _ ?_ _ _).trans ?_
    | with_reducible refine (kept_fold2 _ ?_ _ _).trans ?_
    | (intro s _ _)
    | (intro s _)
    | split
    | dsimp -zeta only)

@[simp] theorem kept_mapSpare (p : Nat) (c : SpareCheck) (q : Nat) (s : State) :
    (mapSpare p c q s).kept = s.kept := by
  unfold mapSpare
  repeat' (first
    | with_reducible rfl
    | with_reducible refine (kept_learnFailed ..).trans ?_
    | with_reducible refine (kept_retiredRec ..).trans ?_
    | with_reducible refine (kept_foldl _ ?_ _ _).trans ?_
    | with_reducible refine (kept_fold2 _ ?_ _ _).trans ?_
    | (intro s _ _)
    | (intro s _)
    | split
    | dsimp -zeta only)

@[simp] theorem kept_noSpare (p : Nat) (cs : List SpareCheck) (s : State) :
    (noSpare p cs s).kept = s.kept := by
  unfold noSpare
  repeat' (first
    | with_reducible rfl
    | with_reducible refine (kept_learnFailed ..).trans ?_
    | with_reducible refine (kept_retiredRec ..).trans ?_
    | with_reducible refine (kept_retirePed2 ..).trans ?_
    | with_reducible refine (kept_foldl _ ?_ _ _).trans ?_
    | with_reducible refine (kept_fold2 _ ?_ _ _).trans ?_
    | (intro s _ _)
    | (intro s _)
    | split
    | dsimp -zeta only)

@[simp] theorem kept_failOut (p : Nat) (c : SpareCheck) (s : State) :
    (failOut p c s).kept = s.kept := by
  unfold failOut
  repeat' (first | with_reducible rfl | with_reducible refine (kept_retiredRec ..).trans ?_ | with_reducible refine (kept_learnFailed ..).trans ?_ | split)

@[simp] theorem kept_retireGrains (p : Nat) (lgs : List Nat) (cause : Nat) (s : State) :
    (retireGrains p lgs cause s).kept = s.kept := by
  unfold retireGrains
  repeat' (first
    | with_reducible rfl
    | with_reducible assumption
    | (extract_lets +onlyGivenNames x; first
      | (have hx : State.kept x = s.kept := ?_; clear_value x; rename' x => y; on_goal 2 => (dsimp -zeta only [x] <;> clear x))
      | (clear_value x; rename' x => y)
      | (rename' x => y))
    | with_reducible refine (kept_failOut ..).trans ?_
    | with_reducible refine (kept_updPed2 ..).trans ?_
    | with_reducible refine (kept_noSpare ..).trans ?_
    | with_reducible refine (kept_foldl _ ?_ _ _).trans ?_
    | with_reducible refine (kept_fold2 _ ?_ _ _).trans ?_
    | (intro s _ _)
    | (intro s _)
    | split
    | dsimp -zeta only
    | simp -zeta only [*])

@[simp] theorem kept_retireGrain (lg cause : Nat) (s : State) :
    (retireGrain lg cause s).kept = s.kept := by
  unfold retireGrain
  repeat' (first
    | with_reducible rfl
    | with_reducible assumption
    | (extract_lets +onlyGivenNames x; first
      | (have hx : State.kept x = s.kept := ?_; clear_value x; rename' x => y; on_goal 2 => (dsimp -zeta only [x] <;> clear x))
      | (clear_value x; rename' x => y)
      | (rename' x => y))
    | with_reducible refine (kept_retireGrains ..).trans ?_
    | split
    | dsimp -zeta only
    | simp -zeta only [*])

@[simp] theorem kept_takeStrike (g : Nat) (s : State) :
    (takeStrike g s).kept = s.kept := by
  unfold takeStrike
  repeat' (first
    | with_reducible rfl
    | with_reducible assumption
    | (extract_lets +onlyGivenNames x; first
      | (have hx : State.kept x = s.kept := ?_; clear_value x; rename' x => y; on_goal 2 => (dsimp -zeta only [x] <;> clear x))
      | (clear_value x; rename' x => y)
      | (rename' x => y))
    | with_reducible refine (kept_updPhys ..).trans ?_
    | with_reducible refine (kept_retireGrain ..).trans ?_
    | with_reducible refine (kept_updCtx ..).trans ?_
    | with_reducible refine (kept_stopSeg ..).trans ?_
    | with_reducible refine (kept_abortClods ..).trans ?_
    | split
    | dsimp -zeta only
    | simp -zeta only [*])

@[simp] theorem kept_doSpareCheckDone (p : Nat) (ok : Bool) (s : State) :
    (doSpareCheckDone p ok s).kept = s.kept := by
  unfold doSpareCheckDone
  repeat' (first
    | with_reducible rfl
    | with_reducible assumption
    | (extract_lets +onlyGivenNames x; first
      | (have hx : State.kept x = s.kept := ?_; clear_value x; rename' x => y; on_goal 2 => (dsimp -zeta only [x] <;> clear x))
      | (clear_value x; rename' x => y)
      | (rename' x => y))
    | with_reducible refine (kept_noSpare ..).trans ?_
    | with_reducible refine (kept_updPed2 ..).trans ?_
    | with_reducible refine (kept_mapSpare ..).trans ?_
    | split
    | dsimp -zeta only
    | simp -zeta only [*])

/-! ## Measure -/

@[simp] theorem kept_writeDir (f : Dir → Dir) (s : State) : (writeDir f s).kept = s.kept := by
  unfold writeDir
  split
  · rfl
  · simp only [State.kept]
    split <;> rfl

@[simp] theorem kept_measure (index event : Nat) (ver : W32) (v : BitVec 256) (s : State) :
    (measure index event ver v s).kept = s.kept := by
  unfold measure
  with_reducible rfl

@[simp] theorem kept_measureState (event : Nat) (s : State) :
    (measureState event s).kept = s.kept := by
  unfold measureState
  repeat' (first | with_reducible rfl | with_reducible refine (kept_measure ..).trans ?_ | split)

@[simp] theorem kept_measureImage (slot event : Nat) (s : State) :
    (measureImage slot event s).kept = s.kept := by
  unfold measureImage
  repeat' (first
    | with_reducible rfl
    | with_reducible refine (kept_measure ..).trans ?_
    | with_reducible refine (kept_foldl _ ?_ _ _).trans ?_
    | with_reducible refine (kept_fold2 _ ?_ _ _).trans ?_
    | (intro s _ _)
    | (intro s _)
    | split
    | dsimp -zeta only)

@[simp] theorem kept_eraseVolatile (s : State) :
    (eraseVolatile s).kept = s.kept := by
  unfold eraseVolatile
  with_reducible rfl

@[simp] theorem kept_fireAlarm (src : List Nat) (s : State) :
    (fireAlarm src s).kept = s.kept := by
  unfold fireAlarm
  repeat' (first
    | with_reducible rfl
    | with_reducible refine (kept_eraseVolatile ..).trans ?_
    | with_reducible refine (kept_measureState ..).trans ?_
    | with_reducible refine (kept_postRec ..).trans ?_
    | with_reducible refine (kept_foldl _ ?_ _ _).trans ?_
    | with_reducible refine (kept_fold2 _ ?_ _ _).trans ?_
    | (intro s _ _)
    | (intro s _)
    | split
    | dsimp -zeta only)

@[simp] theorem kept_doHelperEraseDone (s : State) : (doHelperEraseDone s).kept = s.kept := by
  unfold doHelperEraseDone
  split <;> rfl

end Sys2Proof.Machine
end

