-- ==== Sys2Proof/Laws/KeptGrain.lean ====
section
/-! SUPPORT. What a step moves, part by part: the engines, the fabric, synchronisation and objects leave alone the clocks, the factory parts, the certificate chain and the
queue. -/

namespace Sys2Proof.Machine

open Sys2Proof

set_option maxRecDepth 4096
set_option linter.all false

/-! ## Array -/

@[simp] theorem kept_passPoison (i : Iss) (s0 : State) (vs : List Nat) (bias : Bool) (s : State) :
    (passPoison i s0 vs bias s).kept = s.kept := by
  unfold passPoison
  repeat' (first | with_reducible rfl | with_reducible refine (kept_consumeView ..).trans ?_ | split)

@[simp] theorem kept_passRun (i : Iss) (pp : PassPar) (w : Wts) (vs : List Nat) (s : State) :
    (passRun i pp w vs s).kept = s.kept := by
  unfold passRun
  repeat' (first
    | with_reducible rfl
    | with_reducible assumption
    | (extract_lets +onlyGivenNames x; first
      | (have hx : State.kept x = s.kept := ?_; clear_value x; rename' x => y; on_goal 2 => (dsimp -zeta only [x] <;> clear x))
      | (have hx : State.kept x.2 = s.kept := ?_; clear_value x; rename' x => y; on_goal 2 => (dsimp -zeta only [x] <;> clear x))
      | (have hx : State.kept x.2.2 = s.kept := ?_; clear_value x; rename' x => y; on_goal 2 => (dsimp -zeta only [x] <;> clear x))
      | (clear_value x; rename' x => y)
      | (rename' x => y))
    | with_reducible refine (kept_updGrain ..).trans ?_
    | with_reducible refine (kept_passPoison ..).trans ?_
    | with_reducible refine (kept_holdWrites ..).trans ?_
    | with_reducible refine (kept_setCounts ..).trans ?_
    | with_reducible refine (kept_bump ..).trans ?_
    | with_reducible refine (kept_updOut ..).trans ?_
    | with_reducible refine (kept_freeBelow ..).trans ?_
    | with_reducible refine (kept_setWaitFor ..).trans ?_
    | with_reducible refine (kept_foldl _ ?_ _ _).trans ?_
    | with_reducible refine (kept_fold2 _ ?_ _ _).trans ?_
    | (intro s _ _)
    | (intro s _)
    | split
    | dsimp -zeta only
    | simp -zeta only [*])

@[simp] theorem kept_passAct (i : Iss) (s : State) :
    (passAct i s).kept = s.kept := by
  unfold passAct
  repeat' (first
    | with_reducible rfl
    | with_reducible assumption
    | (extract_lets +onlyGivenNames x; first
      | (have hx : State.kept x = s.kept := ?_; clear_value x; rename' x => y; on_goal 2 => (dsimp -zeta only [x] <;> clear x))
      | (clear_value x; rename' x => y)
      | (rename' x => y))
    | with_reducible refine (kept_noEffect ..).trans ?_
    | with_reducible refine (kept_bump ..).trans ?_
    | with_reducible refine (kept_passRun ..).trans ?_
    | split
    | dsimp -zeta only
    | simp -zeta only [*])

@[simp] theorem kept_doArrPass (g t : Nat) (s : State) :
    (doArrPass g t s).kept = s.kept := by
  unfold doArrPass
  exact kept_issueRow _ _ _ (fun _ _ => kept_passAct ..) _ _ _

@[simp] theorem kept_doArrConv (g t : Nat) (s : State) :
    (doArrConv g t s).kept = s.kept := by
  unfold doArrConv
  exact kept_issueRow _ _ _ (fun _ _ => kept_passAct ..) _ _ _

@[simp] theorem kept_loadwAct (i : Iss) (s : State) :
    (loadwAct i s).kept = s.kept := by
  unfold loadwAct
  repeat' (first
    | with_reducible rfl
    | with_reducible assumption
    | (extract_lets +onlyGivenNames x; first
      | (have hx : State.kept x = s.kept := ?_; clear_value x; rename' x => y; on_goal 2 => (dsimp -zeta only [x] <;> clear x))
      | (clear_value x; rename' x => y)
      | (rename' x => y))
    | with_reducible refine (kept_updGrain ..).trans ?_
    | with_reducible refine (kept_consumeView ..).trans ?_
    | split
    | dsimp -zeta only
    | simp -zeta only [*])

@[simp] theorem kept_doArrLoadw (g t : Nat) (s : State) :
    (doArrLoadw g t s).kept = s.kept := by
  unfold doArrLoadw
  exact kept_issueRow _ _ _ (fun _ _ => kept_loadwAct ..) _ _ _

@[simp] theorem kept_mvAct (i : Iss) (s : State) :
    (mvAct i s).kept = s.kept := by
  unfold mvAct
  repeat' (first
    | with_reducible rfl
    | with_reducible assumption
    | (extract_lets +onlyGivenNames x; first
      | (have hx : State.kept x = s.kept := ?_; clear_value x; rename' x => y; on_goal 2 => (dsimp -zeta only [x] <;> clear x))
      | (clear_value x; rename' x => y)
      | (rename' x => y))
    | with_reducible refine (kept_consumeView ..).trans ?_
    | with_reducible refine (kept_holdWrites ..).trans ?_
    | with_reducible refine (kept_updOut ..).trans ?_
    | with_reducible refine (kept_setCounts ..).trans ?_
    | with_reducible refine (kept_bump ..).trans ?_
    | with_reducible refine (kept_foldl _ ?_ _ _).trans ?_
    | with_reducible refine (kept_fold2 _ ?_ _ _).trans ?_
    | (intro s _ _)
    | (intro s _)
    | split
    | dsimp -zeta only
    | simp -zeta only [*])

@[simp] theorem kept_doMv (g t : Nat) (s : State) :
    (doMv g t s).kept = s.kept := by
  unfold doMv
  exact kept_issueRow _ _ _ (fun _ _ => kept_mvAct ..) _ _ _

@[simp] theorem kept_ballastAct (i : Iss) (s : State) :
    (ballastAct i s).kept = s.kept := by
  unfold ballastAct
  repeat' (first | with_reducible rfl | with_reducible refine (kept_updGrain ..).trans ?_ | with_reducible refine (kept_setWaitFor ..).trans ?_ | split)

@[simp] theorem kept_doBallast (g t : Nat) (s : State) :
    (doBallast g t s).kept = s.kept := by
  unfold doBallast
  exact kept_issueRow _ _ _ (fun _ _ => kept_ballastAct ..) _ _ _

@[simp] theorem kept_doArrayIdle (g : Nat) (s : State) :
    (doArrayIdle g s).kept = s.kept := by
  unfold doArrayIdle
  repeat' (first
    | with_reducible rfl
    | with_reducible assumption
    | (extract_lets +onlyGivenNames x; first
      | (have hx : State.kept x = s.kept := ?_; clear_value x; rename' x => y; on_goal 2 => (dsimp -zeta only [x] <;> clear x))
      | (clear_value x; rename' x => y)
      | (rename' x => y))
    | with_reducible refine (kept_updGrain ..).trans ?_
    | split
    | dsimp -zeta only
    | simp -zeta only [*])

@[simp] theorem kept_doBallastGapExpire (g : Nat) (s : State) :
    (doBallastGapExpire g s).kept = s.kept := by
  unfold doBallastGapExpire
  repeat' (first | with_reducible rfl | with_reducible refine (kept_updGrain ..).trans ?_ | split)

@[simp] theorem kept_checkRecord (gr : Grain) (g : Nat) (daddr : W64) (chk strikes t idx col : Nat) (s : State) :
    (checkRecord gr g daddr chk strikes t idx col s).kept = s.kept := by
  unfold checkRecord
  repeat' (first | with_reducible rfl | with_reducible refine (kept_postRec ..).trans ?_ | split)

@[simp] theorem kept_replayFrom (g : Nat) (o : OutD) (s : State) :
    (replayFrom g o s).kept = s.kept := by
  unfold replayFrom
  repeat' (first
    | with_reducible rfl
    | with_reducible refine (kept_dropWrites ..).trans ?_
    | with_reducible refine (kept_updGrain ..).trans ?_
    | with_reducible refine (kept_updThr ..).trans ?_
    | with_reducible refine (kept_settle ..).trans ?_
    | with_reducible refine (kept_updPhys ..).trans ?_
    | split
    | dsimp -zeta only)

@[simp] theorem kept_doArrayChecksumFault (g : Nat) (ser : Option Nat) (chk : ArrCheck) (s : State) :
    (doArrayChecksumFault g ser chk s).kept = s.kept := by
  unfold doArrayChecksumFault
  repeat' (first
    | with_reducible rfl
    | with_reducible assumption
    | (extract_lets +onlyGivenNames x; first
      | (have hx : State.kept x = s.kept := ?_; clear_value x; rename' x => y; on_goal 2 => (dsimp -zeta only [x] <;> clear x))
      | (clear_value x; rename' x => y)
      | (rename' x => y))
    | with_reducible refine (kept_takeStrike ..).trans ?_
    | with_reducible refine (kept_checkRecord ..).trans ?_
    | with_reducible refine (kept_replayFrom ..).trans ?_
    | split
    | dsimp -zeta only
    | simp -zeta only [*])

@[simp] theorem kept_doMvRowCheckFault (g ser row : Nat) (s : State) :
    (doMvRowCheckFault g ser row s).kept = s.kept := by
  unfold doMvRowCheckFault
  repeat' (first | with_reducible rfl | with_reducible refine (kept_takeStrike ..).trans ?_ | with_reducible refine (kept_checkRecord ..).trans ?_ | split)

/-! ## Vector -/

@[simp] theorem kept_vecWork (i : Iss) (lines : List (Nat × List Byte × Bool)) (s : State) :
    (vecWork i lines s).kept = s.kept := by
  unfold vecWork
  repeat' (first
    | with_reducible rfl
    | with_reducible refine (kept_consumeView ..).trans ?_
    | with_reducible refine (kept_setCounts ..).trans ?_
    | with_reducible refine (kept_holdWrites ..).trans ?_
    | split
    | dsimp -zeta only)

@[simp] theorem kept_derivWork (i : Iss) (lines : List (Nat × List Byte × Bool)) (s : State) :
    (derivWork i lines s).kept = s.kept := by
  unfold derivWork
  repeat' (first
    | with_reducible rfl
    | with_reducible refine (kept_consumeView ..).trans ?_
    | with_reducible refine (kept_setCounts ..).trans ?_
    | with_reducible refine (kept_holdWrites ..).trans ?_
    | split
    | dsimp -zeta only)

@[simp] theorem kept_rngWork (i : Iss) (u1 : List (Nat × List Byte × Bool)) (s : State) :
    (rngWork i u1 s).kept = s.kept := by
  unfold rngWork
  repeat' (first | with_reducible rfl | with_reducible refine (kept_holdWrites ..).trans ?_ | with_reducible refine (kept_setCounts ..).trans ?_ | split)

@[simp] theorem kept_routeWork (i : Iss) (lines : List (Nat × List Byte × Bool)) (s : State) :
    (routeWork i lines s).kept = s.kept := by
  unfold routeWork
  repeat' (first
    | with_reducible rfl
    | with_reducible refine (kept_consumeView ..).trans ?_
    | with_reducible refine (kept_setCounts ..).trans ?_
    | with_reducible refine (kept_holdWrites ..).trans ?_
    | with_reducible refine (kept_bump ..).trans ?_
    | with_reducible refine (kept_foldl _ ?_ _ _).trans ?_
    | with_reducible refine (kept_fold2 _ ?_ _ _).trans ?_
    | (intro s _ _)
    | (intro s _)
    | split
    | dsimp -zeta only)

@[simp] theorem kept_vecDo (i : Iss) (lines : List (Nat × List Byte × Bool)) (s : State) :
    (vecDo i lines s).kept = s.kept := by
  unfold vecDo
  repeat' (first
    | with_reducible rfl
    | with_reducible refine (kept_setWaitFor ..).trans ?_
    | with_reducible refine (kept_vecWork ..).trans ?_
    | with_reducible refine (kept_derivWork ..).trans ?_
    | with_reducible refine (kept_rngWork ..).trans ?_
    | with_reducible refine (kept_routeWork ..).trans ?_
    | split
    | dsimp -zeta only)

@[simp] theorem kept_touchLines (i : Iss) (l : List Nat) (s : State) : (touchLines i l s).kept = s.kept := by
  induction l generalizing s with
  | nil => unfold touchLines; split <;> simp [-Prod.mk.injEq]
  | cons w l ih => unfold touchLines; repeat' (first | rfl | split | simp [-Prod.mk.injEq, ih])

@[simp] theorem kept_vecAct (i : Iss) (s : State) :
    (vecAct i s).kept = s.kept := by
  unfold vecAct
  repeat' (first
    | with_reducible rfl
    | with_reducible assumption
    | (extract_lets +onlyGivenNames x; first
      | (have hx : State.kept x = s.kept := ?_; clear_value x; rename' x => y; on_goal 2 => (dsimp -zeta only [x] <;> clear x))
      | (clear_value x; rename' x => y)
      | (rename' x => y))
    | with_reducible refine (kept_noEffect ..).trans ?_
    | with_reducible refine (kept_touchLines ..).trans ?_
    | split
    | dsimp -zeta only
    | simp -zeta only [*])

@[simp] theorem kept_doVec (g t : Nat) (s : State) :
    (doVec g t s).kept = s.kept := by
  unfold doVec
  exact kept_issueRow _ _ _ (fun _ _ => kept_vecAct ..) _ _ _

@[simp] theorem kept_doVecDeriv (g t : Nat) (s : State) :
    (doVecDeriv g t s).kept = s.kept := by
  unfold doVecDeriv
  exact kept_issueRow _ _ _ (fun _ _ => kept_vecAct ..) _ _ _

@[simp] theorem kept_doRngFill (g t : Nat) (s : State) :
    (doRngFill g t s).kept = s.kept := by
  unfold doRngFill
  exact kept_issueRow _ _ _ (fun _ _ => kept_vecAct ..) _ _ _

@[simp] theorem kept_doRoute (g t : Nat) (s : State) :
    (doRoute g t s).kept = s.kept := by
  unfold doRoute
  exact kept_issueRow _ _ _ (fun _ _ => kept_vecAct ..) _ _ _

@[simp] theorem kept_doVectorCheckFault (g ser elem : Nat) (s : State) :
    (doVectorCheckFault g ser elem s).kept = s.kept := by
  unfold doVectorCheckFault
  repeat' (first
    | with_reducible rfl
    | with_reducible refine (kept_postRec ..).trans ?_
    | with_reducible refine (kept_stopSeg ..).trans ?_
    | with_reducible refine (kept_takeStrike ..).trans ?_
    | split
    | dsimp -zeta only)

/-! ## Dma -/

@[simp] theorem kept_updClod (key : Nat) (f : Clod → Clod) (s : State) :
    (updClod key f s).kept = s.kept := by
  unfold updClod
  with_reducible rfl

@[simp] theorem kept_openAtom (i : Iss) (s : State) :
    (openAtom i s).2.kept = s.kept := by
  unfold openAtom
  with_reducible rfl

@[simp] theorem kept_failClod (key : Nat) (cause : W16) (g part : Nat) (daddr : W64) (s : State) :
    (failClod key cause g part daddr s).kept = s.kept := by
  unfold failClod
  repeat' (first | with_reducible rfl | with_reducible refine (kept_updClod ..).trans ?_ | split)

@[simp] theorem kept_addPrep (key g bytes : Nat) (p : Prep) (s : State) :
    (addPrep key g bytes p s).kept = s.kept := by
  unfold addPrep
  repeat' (first | with_reducible rfl | with_reducible refine (kept_updClod ..).trans ?_ | split)

@[simp] theorem kept_clodAbortRec (c : Clod) (s : State) :
    (clodAbortRec c s).kept = s.kept := by
  unfold clodAbortRec
  repeat' (first
    | with_reducible rfl
    | with_reducible assumption
    | (extract_lets +onlyGivenNames x; first
      | (have hx : State.kept x = s.kept := ?_; clear_value x; rename' x => y; on_goal 2 => (dsimp -zeta only [x] <;> clear x))
      | (clear_value x; rename' x => y)
      | (rename' x => y))
    | with_reducible refine (kept_postRec ..).trans ?_
    | with_reducible refine (kept_segStatus ..).trans ?_
    | split
    | dsimp -zeta only
    | simp -zeta only [*])

@[simp] theorem kept_laneWrite (why : LaneFor) (g ser : Nat) (ws : List BitW) (s : State) :
    (laneWrite why g ser ws s).kept = s.kept := by
  unfold laneWrite
  repeat' (first | with_reducible rfl | with_reducible refine (kept_queueLanes ..).trans ?_ | split)

@[simp] theorem kept_localWrite (g ser : Nat) (ws : List BitW) (s : State) :
    (localWrite g ser ws s).kept = s.kept := by
  unfold localWrite
  repeat' (first
    | with_reducible rfl
    | with_reducible assumption
    | (extract_lets +onlyGivenNames x; first
      | (have hx : State.kept x = s.kept := ?_; clear_value x; rename' x => y; on_goal 2 => (dsimp -zeta only [x] <;> clear x))
      | (clear_value x; rename' x => y)
      | (rename' x => y))
    | with_reducible refine (kept_laneWrite ..).trans ?_
    | split
    | dsimp -zeta only
    | simp -zeta only [*])

@[simp] theorem kept_applyPrep (ctx : Nat) (e : Nat × Nat × Prep) (s : State) :
    (applyPrep ctx e s).kept = s.kept := by
  unfold applyPrep
  repeat' (first
    | with_reducible rfl
    | with_reducible assumption
    | (extract_lets +onlyGivenNames x; first
      | (have hx : State.kept x = s.kept := ?_; clear_value x; rename' x => y; on_goal 2 => (dsimp -zeta only [x] <;> clear x))
      | (clear_value x; rename' x => y)
      | (rename' x => y))
    | with_reducible refine (kept_noteObj ..).trans ?_
    | with_reducible refine (kept_objWriteBits ..).trans ?_
    | with_reducible refine (kept_localWrite ..).trans ?_
    | with_reducible refine (kept_semAdd ..).trans ?_
    | split
    | dsimp -zeta only
    | simp -zeta only [*])

@[simp] theorem kept_applyAll (ctx : Nat) (l : List (Nat × Nat × Prep)) (s : State) :
    (applyAll ctx l s).kept = s.kept := by
  unfold applyAll
  repeat' (first
    | with_reducible rfl
    | with_reducible refine (kept_applyPrep ..).trans ?_
    | with_reducible refine (kept_foldl _ ?_ _ _).trans ?_
    | with_reducible refine (kept_fold2 _ ?_ _ _).trans ?_
    | (intro s _ _)
    | (intro s _)
    | split
    | dsimp -zeta only)

@[simp] theorem kept_endAtom (g ser : Nat) (apply : Nat → List (Nat × Nat × Prep) → State → State)
    (ha : ∀ c x s, (apply c x s).kept = s.kept) (s : State) : (endAtom g ser apply s).kept = s.kept := by
  unfold endAtom; (try dsimp only); repeat' (first | with_reducible rfl | split | (refine (ha _ _ _).trans ?_) | (refine (kept_foldl _ ?_ _ _).trans ?_) | (intro _ _) | simp [-Prod.mk.injEq])

@[simp] theorem kept_copyUnits (w : CopyOf) (write : Bool) (o : Obj) (j : Nat) (l : Loc) (s : State) :
    (copyUnits w write o j l s).kept = s.kept := by
  unfold copyUnits
  repeat' (first
    | with_reducible rfl
    | with_reducible refine (kept_enterReq ..).trans ?_
    | with_reducible refine (kept_foldl _ ?_ _ _).trans ?_
    | with_reducible refine (kept_fold2 _ ?_ _ _).trans ?_
    | (intro s _ _)
    | (intro s _)
    | split
    | dsimp -zeta only)

@[simp] theorem kept_dropCopy (h : W32) (pick : CopyOf → Bool) (s : State) :
    (dropCopy h pick s).kept = s.kept := by
  unfold dropCopy
  repeat' (first | with_reducible rfl | with_reducible refine (kept_updHz ..).trans ?_ | split)

@[simp] theorem kept_noteBadFrame (o : Obj) (off : Nat) (s : State) :
    (noteBadFrame o off s).kept = s.kept := by
  unfold noteBadFrame
  repeat' (first | with_reducible rfl | with_reducible refine (kept_updHz ..).trans ?_ | split)

@[simp] theorem kept_copyAnswer (q : Req) (w : CopyOf) (write : Bool) (u : Nat) (ans : HzAnswer) (s : State) :
    (copyAnswer q w write u ans s).kept = s.kept := by
  unfold copyAnswer
  repeat' (first
    | with_reducible rfl
    | with_reducible assumption
    | (extract_lets +onlyGivenNames x; first
      | (have hx : State.kept x = s.kept := ?_; clear_value x; rename' x => y; on_goal 2 => (dsimp -zeta only [x] <;> clear x))
      | (clear_value x; rename' x => y)
      | (rename' x => y))
    | with_reducible refine (kept_hz4Failure ..).trans ?_
    | with_reducible refine (kept_updHz ..).trans ?_
    | with_reducible refine (kept_noteBadFrame ..).trans ?_
    | with_reducible refine (kept_objSetPoison ..).trans ?_
    | split
    | dsimp -zeta only
    | simp -zeta only [*])

@[simp] theorem kept_copyNow (o : Obj) (w : CopyOf) (j : Nat) (src dst : Loc) (s : State) :
    (copyNow o w j src dst s).kept = s.kept := by
  unfold copyNow
  repeat' (first
    | with_reducible rfl
    | with_reducible refine (kept_copyGranule ..).trans ?_
    | with_reducible refine (kept_updHz ..).trans ?_
    | with_reducible refine (kept_foldl _ ?_ _ _).trans ?_
    | with_reducible refine (kept_fold2 _ ?_ _ _).trans ?_
    | (intro s _ _)
    | (intro s _)
    | split
    | dsimp -zeta only)

@[simp] theorem kept_evictDone (h : W32) (j : Nat) (s : State) :
    (evictDone h j s).kept = s.kept := by
  unfold evictDone
  repeat' (first
    | with_reducible rfl
    | with_reducible assumption
    | (extract_lets +onlyGivenNames x; first
      | (have hx : State.kept x = s.kept := ?_; clear_value x; rename' x => y; on_goal 2 => (dsimp -zeta only [x] <;> clear x))
      | (clear_value x; rename' x => y)
      | (rename' x => y))
    | with_reducible refine (kept_updHz ..).trans ?_
    | with_reducible refine (kept_copyNow ..).trans ?_
    | with_reducible refine (kept_freeFrame ..).trans ?_
    | with_reducible refine (kept_updObj ..).trans ?_
    | split
    | dsimp -zeta only
    | simp -zeta only [*])

@[simp] theorem kept_copyServed (q : Req) (w : CopyOf) (write : Bool) (u : Nat) (s : State) :
    (copyServed q w write u s).kept = s.kept := by
  unfold copyServed
  repeat' (first
    | with_reducible rfl
    | with_reducible assumption
    | (extract_lets +onlyGivenNames x; first
      | (have hx : State.kept x = s.kept := ?_; clear_value x; rename' x => y; on_goal 2 => (dsimp -zeta only [x] <;> clear x))
      | (clear_value x; rename' x => y)
      | (rename' x => y))
    | with_reducible refine (kept_evictDone ..).trans ?_
    | with_reducible refine (kept_copyUnits ..).trans ?_
    | with_reducible refine (kept_enterReq ..).trans ?_
    | split
    | dsimp -zeta only
    | simp -zeta only [*])

@[simp] theorem kept_noteRead (h : W32) (j : Nat) (s : State) :
    (noteRead h j s).kept = s.kept := by
  unfold noteRead
  repeat' (first
    | with_reducible rfl
    | with_reducible assumption
    | (extract_lets +onlyGivenNames x; first
      | (have hx : State.kept x = s.kept := ?_; clear_value x; rename' x => y; on_goal 2 => (dsimp -zeta only [x] <;> clear x))
      | (have hx : State.kept x.2 = s.kept := ?_; clear_value x; rename' x => y; on_goal 2 => (dsimp -zeta only [x] <;> clear x))
      | (have hx : State.kept x.2.2 = s.kept := ?_; clear_value x; rename' x => y; on_goal 2 => (dsimp -zeta only [x] <;> clear x))
      | (clear_value x; rename' x => y)
      | (rename' x => y))
    | with_reducible refine (kept_updObj ..).trans ?_
    | with_reducible refine (kept_allocFrame ..).trans ?_
    | with_reducible refine (kept_copyUnits ..).trans ?_
    | with_reducible refine (kept_updHz ..).trans ?_
    | split
    | dsimp -zeta only
    | simp -zeta only [*])

@[simp] theorem kept_noteReads (h : W32) (offs : List Nat) (s : State) :
    (noteReads h offs s).kept = s.kept := by
  unfold noteReads
  repeat' (first
    | with_reducible rfl
    | with_reducible refine (kept_noteRead ..).trans ?_
    | with_reducible refine (kept_foldl _ ?_ _ _).trans ?_
    | with_reducible refine (kept_fold2 _ ?_ _ _).trans ?_
    | (intro s _ _)
    | (intro s _)
    | split
    | dsimp -zeta only)

@[simp] theorem kept_addPart (i : Iss) (o : Obj) (off part : Nat) (clod : Option Nat) (kind : ReqKind) (s : State) :
    (addPart i o off part clod kind s).kept = s.kept := by
  unfold addPart
  repeat' (first | with_reducible rfl | with_reducible refine (kept_bump ..).trans ?_ | with_reducible refine (kept_addReqAt ..).trans ?_ | split)

@[simp] theorem kept_readParts (i : Iss) (o : Obj) (clod : Option Nat) (mk : List Move → ReqKind) (ms : List Move) (s : State) :
    (readParts i o clod mk ms s).kept = s.kept := by
  unfold readParts
  repeat' (first
    | with_reducible rfl
    | with_reducible refine (kept_addPart ..).trans ?_
    | with_reducible refine (kept_foldl _ ?_ _ _).trans ?_
    | with_reducible refine (kept_fold2 _ ?_ _ _).trans ?_
    | (intro s _ _)
    | (intro s _)
    | split
    | dsimp -zeta only)

@[simp] theorem kept_updGuard (g ser : Nat) (f : Guard → Guard) (s : State) :
    (updGuard g ser f s).kept = s.kept := by
  unfold updGuard
  repeat' (first | with_reducible rfl | with_reducible refine (kept_updGrain ..).trans ?_ | split)

@[simp] theorem kept_noteRung (ctx g : Nat) (daddr : W64) (rung granule : Nat) (s : State) :
    (noteRung ctx g daddr rung granule s).kept = s.kept := by
  unfold noteRung
  repeat' (first | with_reducible rfl | with_reducible refine (kept_updCtx ..).trans ?_ | split)

@[simp] theorem kept_noteLateArr (ctx : Nat) (s : State) :
    (noteLateArr ctx s).kept = s.kept := by
  unfold noteLateArr
  repeat' (first | with_reducible rfl | with_reducible refine (kept_updCtx ..).trans ?_ | split)

@[simp] theorem kept_rungServed (g ser n : Nat) (js : List Nat) (s : State) :
    (rungServed g ser n js s).kept = s.kept := by
  unfold rungServed
  repeat' (first
    | with_reducible rfl
    | with_reducible refine (kept_updGuard ..).trans ?_
    | with_reducible refine (kept_noteRung ..).trans ?_
    | with_reducible refine (kept_foldl _ ?_ _ _).trans ?_
    | with_reducible refine (kept_fold2 _ ?_ _ _).trans ?_
    | (intro s _ _)
    | (intro s _)
    | split
    | dsimp -zeta only)

@[simp] theorem kept_dropSource (g ser : Nat) (s : State) :
    (dropSource g ser s).kept = s.kept := by
  unfold dropSource
  repeat' (first | with_reducible rfl | with_reducible refine (kept_updPhys ..).trans ?_ | split)

@[simp] theorem kept_rung3 (i : Iss) (o : OutD) (late : List Nat) (s : State) :
    (rung3 i o late s).kept = s.kept := by
  unfold rung3
  repeat' (first
    | with_reducible rfl
    | with_reducible refine (kept_laneWrite ..).trans ?_
    | with_reducible refine (kept_noteRung ..).trans ?_
    | with_reducible refine (kept_updGuard ..).trans ?_
    | with_reducible refine (kept_foldl _ ?_ _ _).trans ?_
    | with_reducible refine (kept_fold2 _ ?_ _ _).trans ?_
    | (intro s _ _)
    | (intro s _)
    | split
    | dsimp -zeta only)

@[simp] theorem kept_rungFrom (i : Iss) (o : OutD) (late : List Nat) (n : Nat) (s : State) :
    (rungFrom i o late n s).kept = s.kept := by
  unfold rungFrom
  repeat' (first
    | with_reducible rfl
    | with_reducible assumption
    | (extract_lets +onlyGivenNames x; first
      | (have hx : State.kept x = s.kept := ?_; clear_value x; rename' x => y; on_goal 2 => (dsimp -zeta only [x] <;> clear x))
      | (have hx : State.kept x.2 = s.kept := ?_; clear_value x; rename' x => y; on_goal 2 => (dsimp -zeta only [x] <;> clear x))
      | (have hx : State.kept x.2.2 = s.kept := ?_; clear_value x; rename' x => y; on_goal 2 => (dsimp -zeta only [x] <;> clear x))
      | (have hx : ∀ s, State.kept (x s) = s.kept := ?_; clear_value x; rename' x => y; on_goal 2 => (intro s; dsimp -zeta only [x] <;> clear x))
      | (have hx : ∀ a, State.kept (x a) = s.kept := ?_; clear_value x; rename' x => y; on_goal 2 => (intro a; dsimp -zeta only [x] <;> clear x))
      | (have hx : ∀ a s, State.kept (x a s) = s.kept := ?_; clear_value x; rename' x => y; on_goal 2 => (intro a s; dsimp -zeta only [x] <;> clear x))
      | (clear_value x; rename' x => y)
      | (rename' x => y))
    | with_reducible refine (kept_updGuard ..).trans ?_
    | with_reducible refine (kept_readParts ..).trans ?_
    | with_reducible refine (kept_rung3 ..).trans ?_
    | split
    | dsimp -zeta only
    | simp -zeta only [*])

@[simp] theorem kept_abandon (g ser : Nat) (s : State) :
    (abandon g ser s).kept = s.kept := by
  unfold abandon
  repeat' (first | with_reducible rfl | with_reducible refine (kept_updHz ..).trans ?_ | split)

@[simp] theorem kept_dmaCutoff (g ser n : Nat) (s : State) :
    (dmaCutoff g ser n s).kept = s.kept := by
  unfold dmaCutoff
  repeat' (first
    | with_reducible rfl
    | with_reducible assumption
    | (extract_lets +onlyGivenNames x; first
      | (have hx : State.kept x = s.kept := ?_; clear_value x; rename' x => y; on_goal 2 => (dsimp -zeta only [x] <;> clear x))
      | (clear_value x; rename' x => y)
      | (rename' x => y))
    | with_reducible refine (kept_dropSource ..).trans ?_
    | with_reducible refine (kept_abandon ..).trans ?_
    | with_reducible refine (kept_updGuard ..).trans ?_
    | with_reducible refine (kept_rungFrom ..).trans ?_
    | with_reducible refine (kept_workDone ..).trans ?_
    | with_reducible refine (kept_foldl _ ?_ _ _).trans ?_
    | with_reducible refine (kept_fold2 _ ?_ _ _).trans ?_
    | (intro s _ _)
    | (intro s _)
    | split
    | dsimp -zeta only
    | simp -zeta only [*])

@[simp] theorem kept_consumeIdx (i : Iss) (s : State) :
    (consumeIdx i s).kept = s.kept := by
  unfold consumeIdx
  repeat' (first | with_reducible rfl | with_reducible refine (kept_consumePoison ..).trans ?_ | split)

@[simp] theorem kept_getAct (i : Iss) (s : State) :
    (getAct i s).kept = s.kept := by
  unfold getAct
  repeat' (first
    | with_reducible rfl
    | with_reducible assumption
    | (extract_lets +onlyGivenNames x; first
      | (have hx : State.kept x = s.kept := ?_; clear_value x; rename' x => y; on_goal 2 => (dsimp -zeta only [x] <;> clear x))
      | (have hx : State.kept x.2 = s.kept := ?_; clear_value x; rename' x => y; on_goal 2 => (dsimp -zeta only [x] <;> clear x))
      | (have hx : State.kept x.2.2 = s.kept := ?_; clear_value x; rename' x => y; on_goal 2 => (dsimp -zeta only [x] <;> clear x))
      | (clear_value x; rename' x => y)
      | (rename' x => y))
    | with_reducible refine (kept_bump ..).trans ?_
    | with_reducible refine (kept_consumeIdx ..).trans ?_
    | with_reducible refine (kept_laneWrite ..).trans ?_
    | with_reducible refine (kept_openAtom ..).trans ?_
    | with_reducible refine (kept_setWaitFor ..).trans ?_
    | with_reducible refine (kept_updOut ..).trans ?_
    | with_reducible refine (kept_readParts ..).trans ?_
    | with_reducible refine (kept_rungFrom ..).trans ?_
    | with_reducible refine (kept_rung3 ..).trans ?_
    | with_reducible refine (kept_updGuard ..).trans ?_
    | with_reducible refine (kept_dmaCutoff ..).trans ?_
    | with_reducible refine (kept_workDone ..).trans ?_
    | with_reducible refine (kept_endAtom _ _ _ ?_ _).trans ?_
    | with_reducible refine (kept_applyAll ..).trans ?_
    | (intro s _ _)
    | (intro s _)
    | (intro s)
    | split
    | dsimp -zeta only
    | simp -zeta only [*])

@[simp] theorem kept_putAct (i : Iss) (s : State) :
    (putAct i s).kept = s.kept := by
  unfold putAct
  repeat' (first
    | with_reducible rfl
    | with_reducible assumption
    | (extract_lets +onlyGivenNames x; first
      | (have hx : State.kept x = s.kept := ?_; clear_value x; rename' x => y; on_goal 2 => (dsimp -zeta only [x] <;> clear x))
      | (have hx : State.kept x.2 = s.kept := ?_; clear_value x; rename' x => y; on_goal 2 => (dsimp -zeta only [x] <;> clear x))
      | (have hx : State.kept x.2.2 = s.kept := ?_; clear_value x; rename' x => y; on_goal 2 => (dsimp -zeta only [x] <;> clear x))
      | (clear_value x; rename' x => y)
      | (rename' x => y))
    | with_reducible refine (kept_flushLines ..).trans ?_
    | with_reducible refine (kept_setWaitFor ..).trans ?_
    | with_reducible refine (kept_bump ..).trans ?_
    | with_reducible refine (kept_openAtom ..).trans ?_
    | with_reducible refine (kept_failClod ..).trans ?_
    | with_reducible refine (kept_postRec ..).trans ?_
    | with_reducible refine (kept_consumePoison ..).trans ?_
    | with_reducible refine (kept_addPrep ..).trans ?_
    | with_reducible refine (kept_addPart ..).trans ?_
    | with_reducible refine (kept_endAtom _ _ _ ?_ _).trans ?_
    | with_reducible refine (kept_applyAll ..).trans ?_
    | with_reducible refine (kept_foldl _ ?_ _ _).trans ?_
    | with_reducible refine (kept_fold2 _ ?_ _ _).trans ?_
    | (intro s _ _)
    | (intro s _)
    | split
    | dsimp -zeta only
    | simp -zeta only [*])

@[simp] theorem kept_doDmaGet (g t : Nat) (s : State) :
    (doDmaGet g t s).kept = s.kept := by
  unfold doDmaGet
  exact kept_issueRow _ _ _ (fun _ _ => kept_getAct ..) _ _ _

@[simp] theorem kept_doDmaPut (g t : Nat) (s : State) :
    (doDmaPut g t s).kept = s.kept := by
  unfold doDmaPut
  exact kept_issueRow _ _ _ (fun _ _ => kept_putAct ..) _ _ _

@[simp] theorem kept_doDmaPutFlush (g t : Nat) (s : State) :
    (doDmaPutFlush g t s).kept = s.kept := by
  unfold doDmaPutFlush
  exact kept_issueRow _ _ _ (fun _ _ => kept_putAct ..) _ _ _

@[simp] theorem kept_sourceRead (q : Req) (o : Obj) (offs : List Nat) (ans : HzAnswer) (s : State) :
    (sourceRead q o offs ans s).2.kept = s.kept := by
  unfold sourceRead
  repeat' (first
    | with_reducible rfl
    | with_reducible refine (kept_hz4Failure ..).trans ?_
    | with_reducible refine (kept_noteBadFrame ..).trans ?_
    | with_reducible refine (kept_objSetPoison ..).trans ?_
    | with_reducible refine (kept_noteReads ..).trans ?_
    | split
    | dsimp -zeta only)

@[simp] theorem kept_doCacheFillDone (g t : Nat) (s : State) :
    (doCacheFillDone g t s).kept = s.kept := by
  unfold doCacheFillDone
  repeat' (first
    | with_reducible rfl
    | with_reducible assumption
    | (extract_lets +onlyGivenNames x; first
      | (have hx : State.kept x = s.kept := ?_; clear_value x; rename' x => y; on_goal 2 => (dsimp -zeta only [x] <;> clear x))
      | (have hx : State.kept x.2 = s.kept := ?_; clear_value x; rename' x => y; on_goal 2 => (dsimp -zeta only [x] <;> clear x))
      | (have hx : State.kept x.2.2 = s.kept := ?_; clear_value x; rename' x => y; on_goal 2 => (dsimp -zeta only [x] <;> clear x))
      | (clear_value x; rename' x => y)
      | (rename' x => y))
    | with_reducible refine (kept_updHz ..).trans ?_
    | with_reducible refine (kept_sourceRead ..).trans ?_
    | with_reducible refine (kept_queueLanes ..).trans ?_
    | split
    | dsimp -zeta only
    | simp -zeta only [*])

@[simp] theorem kept_readServed (q : Req) (ms : List Move) (rung : Option Nat) (ans : HzAnswer) (s : State) :
    (readServed q ms rung ans s).kept = s.kept := by
  unfold readServed
  repeat' (first
    | with_reducible rfl
    | with_reducible assumption
    | (extract_lets +onlyGivenNames x; first
      | (have hx : State.kept x = s.kept := ?_; clear_value x; rename' x => y; on_goal 2 => (dsimp -zeta only [x] <;> clear x))
      | (have hx : State.kept x.2 = s.kept := ?_; clear_value x; rename' x => y; on_goal 2 => (dsimp -zeta only [x] <;> clear x))
      | (have hx : State.kept x.2.2 = s.kept := ?_; clear_value x; rename' x => y; on_goal 2 => (dsimp -zeta only [x] <;> clear x))
      | (clear_value x; rename' x => y)
      | (rename' x => y))
    | with_reducible refine (kept_sourceRead ..).trans ?_
    | with_reducible refine (kept_failClod ..).trans ?_
    | with_reducible refine (kept_postRec ..).trans ?_
    | with_reducible refine (kept_addPrep ..).trans ?_
    | with_reducible refine (kept_consumePoison ..).trans ?_
    | with_reducible refine (kept_laneWrite ..).trans ?_
    | with_reducible refine (kept_foldl _ ?_ _ _).trans ?_
    | with_reducible refine (kept_fold2 _ ?_ _ _).trans ?_
    | (intro s _ _)
    | (intro s _)
    | split
    | dsimp -zeta only
    | simp -zeta only [*])

@[simp] theorem kept_writeServed (q : Req) (ws : List BitW) (ans : HzAnswer) (s : State) :
    (writeServed q ws ans s).kept = s.kept := by
  unfold writeServed
  repeat' (first
    | with_reducible rfl
    | with_reducible assumption
    | (extract_lets +onlyGivenNames x; first
      | (have hx : State.kept x = s.kept := ?_; clear_value x; rename' x => y; on_goal 2 => (dsimp -zeta only [x] <;> clear x))
      | (clear_value x; rename' x => y)
      | (rename' x => y))
    | with_reducible refine (kept_hz4Failure ..).trans ?_
    | with_reducible refine (kept_failClod ..).trans ?_
    | with_reducible refine (kept_noteObj ..).trans ?_
    | with_reducible refine (kept_objWriteBits ..).trans ?_
    | split
    | dsimp -zeta only
    | simp -zeta only [*])

@[simp] theorem kept_backServed (q : Req) (bs : List (Nat × Byte)) (bad : Bool) (ans : HzAnswer) (s : State) :
    (backServed q bs bad ans s).kept = s.kept := by
  unfold backServed
  repeat' (first
    | with_reducible rfl
    | with_reducible refine (kept_hz4Failure ..).trans ?_
    | with_reducible refine (kept_objWrite ..).trans ?_
    | with_reducible refine (kept_objSetPoison ..).trans ?_
    | split
    | dsimp -zeta only)

@[simp] theorem kept_bar4Poison (x : Obj) (off : Nat) (s : State) :
    (bar4Poison x off s).kept = s.kept := by
  unfold bar4Poison
  repeat' (first | with_reducible rfl | with_reducible refine (kept_postRec ..).trans ?_ | split)

@[simp] theorem kept_settleApers (s : State) :
    (settleApers s).kept = s.kept := by
  unfold settleApers
  repeat' (first
    | with_reducible rfl
    | with_reducible refine (kept_emit ..).trans ?_
    | with_reducible refine (kept_updHz ..).trans ?_
    | with_reducible refine (kept_foldl _ ?_ _ _).trans ?_
    | with_reducible refine (kept_fold2 _ ?_ _ _).trans ?_
    | (intro s _ _)
    | (intro s _)
    | split
    | dsimp -zeta only)

@[simp] theorem kept_aperServed (q : Req) (id : Nat) (places : List (Nat × Nat)) (data : Option (List Byte)) (ans : HzAnswer) (s : State) :
    (aperServed q id places data ans s).kept = s.kept := by
  unfold aperServed
  repeat' (first
    | with_reducible rfl
    | with_reducible refine (kept_settleApers ..).trans ?_
    | with_reducible refine (kept_objWrite ..).trans ?_
    | with_reducible refine (kept_sourceRead ..).trans ?_
    | with_reducible refine (kept_bar4Poison ..).trans ?_
    | with_reducible refine (kept_updHz ..).trans ?_
    | split
    | dsimp -zeta only)

@[simp] theorem kept_firstServed (q : Req) (t : Nat) (ans : HzAnswer) (s : State) :
    (firstServed q t ans s).kept = s.kept := by
  unfold firstServed
  repeat' (first | with_reducible rfl | with_reducible refine (kept_sourceRead ..).trans ?_ | with_reducible refine (kept_updCtx ..).trans ?_ | split)

@[simp] theorem kept_xferPoison (q : Req) (o : Obj) (idx off : Nat) (s : State) :
    (xferPoison q o idx off s).kept = s.kept := by
  unfold xferPoison
  repeat' (first
    | with_reducible rfl
    | with_reducible refine (kept_updSeg ..).trans ?_
    | with_reducible refine (kept_segStatus ..).trans ?_
    | with_reducible refine (kept_postRec ..).trans ?_
    | split
    | dsimp -zeta only)

@[simp] theorem kept_xferServed (q : Req) (idx off len : Nat) (ans : HzAnswer) (s : State) :
    (xferServed q idx off len ans s).kept = s.kept := by
  unfold xferServed
  repeat' (first
    | with_reducible rfl
    | with_reducible assumption
    | (extract_lets +onlyGivenNames x; first
      | (have hx : State.kept x = s.kept := ?_; clear_value x; rename' x => y; on_goal 2 => (dsimp -zeta only [x] <;> clear x))
      | (have hx : State.kept x.2 = s.kept := ?_; clear_value x; rename' x => y; on_goal 2 => (dsimp -zeta only [x] <;> clear x))
      | (have hx : State.kept x.2.2 = s.kept := ?_; clear_value x; rename' x => y; on_goal 2 => (dsimp -zeta only [x] <;> clear x))
      | (clear_value x; rename' x => y)
      | (rename' x => y))
    | with_reducible refine (kept_sourceRead ..).trans ?_
    | with_reducible refine (kept_xferPoison ..).trans ?_
    | with_reducible refine (kept_queueLanes ..).trans ?_
    | with_reducible refine (kept_foldl _ ?_ _ _).trans ?_
    | with_reducible refine (kept_fold2 _ ?_ _ _).trans ?_
    | (intro s _ _)
    | (intro s _)
    | split
    | dsimp -zeta only
    | simp -zeta only [*])

@[simp] theorem kept_respond (q : Req) (ans : HzAnswer) (s : State) :
    (respond q ans s).kept = s.kept := by
  unfold respond
  repeat' (first
    | with_reducible rfl
    | with_reducible assumption
    | (extract_lets +onlyGivenNames x; first
      | (have hx : State.kept x = s.kept := ?_; clear_value x; rename' x => y; on_goal 2 => (dsimp -zeta only [x] <;> clear x))
      | (clear_value x; rename' x => y)
      | (rename' x => y))
    | with_reducible refine (kept_updHz ..).trans ?_
    | with_reducible refine (kept_noteBadFrame ..).trans ?_
    | with_reducible refine (kept_objSetPoison ..).trans ?_
    | with_reducible refine (kept_noteLateArr ..).trans ?_
    | with_reducible refine (kept_readServed ..).trans ?_
    | with_reducible refine (kept_writeServed ..).trans ?_
    | with_reducible refine (kept_xferServed ..).trans ?_
    | with_reducible refine (kept_entryServed ..).trans ?_
    | with_reducible refine (kept_copyServed ..).trans ?_
    | with_reducible refine (kept_copyAnswer ..).trans ?_
    | with_reducible refine (kept_backServed ..).trans ?_
    | with_reducible refine (kept_firstServed ..).trans ?_
    | with_reducible refine (kept_aperServed ..).trans ?_
    | with_reducible refine (kept_workDone ..).trans ?_
    | with_reducible refine (kept_endAtom _ _ _ ?_ _).trans ?_
    | with_reducible refine (kept_applyAll ..).trans ?_
    | (intro s _ _)
    | (intro s _)
    | (intro s)
    | split
    | dsimp -zeta only
    | simp -zeta only [*])

/-! ## Sieve -/

@[simp] theorem kept_sieveCount (idx k n : Nat) (s : State) :
    (sieveCount idx k n s).kept = s.kept := by
  unfold sieveCount
  repeat' (first | with_reducible rfl | with_reducible refine (kept_updSieve ..).trans ?_ | split)

@[simp] theorem kept_sieveNumeric (idx hi lo : Nat) (s : State) :
    (sieveNumeric idx hi lo s).kept = s.kept := by
  unfold sieveNumeric
  repeat' (first | with_reducible rfl | with_reducible refine (kept_updSieve ..).trans ?_ | split)

@[simp] theorem kept_hotPut (t : Sieve) (slot id : Nat) (row : List Byte) (s : State) :
    (hotPut t slot id row s).kept = s.kept := by
  unfold hotPut
  repeat' (first
    | with_reducible rfl
    | with_reducible refine (kept_clearPoison ..).trans ?_
    | with_reducible refine (kept_locSet ..).trans ?_
    | with_reducible refine (kept_foldl _ ?_ _ _).trans ?_
    | with_reducible refine (kept_fold2 _ ?_ _ _).trans ?_
    | (intro s _ _)
    | (intro s _)
    | split
    | dsimp -zeta only)

@[simp] theorem kept_dlogPut (t : Sieve) (id : Nat) (row state : List Byte) (s : State) :
    (dlogPut t id row state s).kept = s.kept := by
  unfold dlogPut
  repeat' (first | with_reducible rfl | with_reducible refine (kept_updSieve ..).trans ?_ | with_reducible refine (kept_objWriteAt ..).trans ?_ | split)

@[simp] theorem kept_dlogClear (t : Sieve) (k : Nat) (s : State) :
    (dlogClear t k s).kept = s.kept := by
  unfold dlogClear
  repeat' (first | with_reducible rfl | with_reducible refine (kept_updSieve ..).trans ?_ | with_reducible refine (kept_objWriteAt ..).trans ?_ | split)

@[simp] theorem kept_updGather (g ser : Nat) (f : Gather → Gather) (s : State) :
    (updGather g ser f s).kept = s.kept := by
  unfold updGather
  with_reducible rfl

@[simp] theorem kept_gatherEnd (i : Iss) (s : State) :
    (gatherEnd i s).kept = s.kept := by
  unfold gatherEnd
  repeat' (first
    | with_reducible rfl
    | with_reducible assumption
    | (extract_lets +onlyGivenNames x; first
      | (have hx : State.kept x = s.kept := ?_; clear_value x; rename' x => y; on_goal 2 => (dsimp -zeta only [x] <;> clear x))
      | (clear_value x; rename' x => y)
      | (rename' x => y))
    | with_reducible refine (kept_noteStk ..).trans ?_
    | with_reducible refine (kept_sieveNumeric ..).trans ?_
    | with_reducible refine (kept_setCounts ..).trans ?_
    | with_reducible refine (kept_addPrep ..).trans ?_
    | with_reducible refine (kept_workDone ..).trans ?_
    | with_reducible refine (kept_endAtom _ _ _ ?_ _).trans ?_
    | with_reducible refine (kept_applyAll ..).trans ?_
    | with_reducible refine (kept_localWrite ..).trans ?_
    | with_reducible refine (kept_foldl _ ?_ _ _).trans ?_
    | with_reducible refine (kept_fold2 _ ?_ _ _).trans ?_
    | (intro s _ _)
    | (intro s _)
    | split
    | dsimp -zeta only
    | simp -zeta only [*])

@[simp] theorem kept_slotServed (i : Iss) (idx slot src : Nat) (xs : List FVal) (bad : Bool) (s : State) :
    (slotServed i idx slot src xs bad s).kept = s.kept := by
  unfold slotServed
  repeat' (first
    | with_reducible rfl
    | with_reducible refine (kept_updGather ..).trans ?_
    | with_reducible refine (kept_sieveCount ..).trans ?_
    | with_reducible refine (kept_noteRung ..).trans ?_
    | with_reducible refine (kept_updGuard ..).trans ?_
    | split
    | dsimp -zeta only)

@[simp] theorem kept_rowReq (i : Iss) (o : Obj) (off len src slot : Nat) (s : State) :
    (rowReq i o off len src slot s).kept = s.kept := by
  unfold rowReq
  repeat' (first
    | with_reducible rfl
    | with_reducible refine (kept_addReq ..).trans ?_
    | with_reducible refine (kept_foldl _ ?_ _ _).trans ?_
    | with_reducible refine (kept_fold2 _ ?_ _ _).trans ?_
    | (intro s _ _)
    | (intro s _)
    | split
    | dsimp -zeta only)

@[simp] theorem kept_homeReq (i : Iss) (t : Sieve) (o : Obj) (id slot : Nat) (s : State) :
    (homeReq i t o id slot s).kept = s.kept := by
  unfold homeReq
  repeat' (first
    | with_reducible rfl
    | with_reducible assumption
    | (extract_lets +onlyGivenNames x; first
      | (have hx : State.kept x = s.kept := ?_; clear_value x; rename' x => y; on_goal 2 => (dsimp -zeta only [x] <;> clear x))
      | (clear_value x; rename' x => y)
      | (rename' x => y))
    | with_reducible refine (kept_rowReq ..).trans ?_
    | with_reducible refine (kept_bump ..).trans ?_
    | with_reducible refine (kept_updHz ..).trans ?_
    | with_reducible refine (kept_addReqAt ..).trans ?_
    | with_reducible refine (kept_foldl _ ?_ _ _).trans ?_
    | with_reducible refine (kept_fold2 _ ?_ _ _).trans ?_
    | (intro s _ _)
    | (intro s _)
    | split
    | dsimp -zeta only
    | simp -zeta only [*])

@[simp] theorem kept_logReq (i : Iss) (t : Sieve) (id slot : Nat) (s : State) :
    (logReq i t id slot s).kept = s.kept := by
  unfold logReq
  repeat' (first | with_reducible rfl | with_reducible refine (kept_addReq ..).trans ?_ | split)

@[simp] theorem kept_hotReq (i : Iss) (t : Sieve) (r : HotRow) (slot : Nat) (s : State) :
    (hotReq i t r slot s).kept = s.kept := by
  unfold hotReq
  repeat' (first | with_reducible rfl | with_reducible refine (kept_bump ..).trans ?_ | with_reducible refine (kept_enterReq ..).trans ?_ | split)

@[simp] theorem kept_consumeRow (i : Iss) (hot : Bool) (h : W32) (off slot : Nat) (s : State) :
    (consumeRow i hot h off slot s).kept = s.kept := by
  unfold consumeRow
  repeat' (first
    | with_reducible rfl
    | with_reducible refine (kept_failClod ..).trans ?_
    | with_reducible refine (kept_postRec ..).trans ?_
    | with_reducible refine (kept_consumePoison ..).trans ?_
    | split
    | dsimp -zeta only)

@[simp] theorem kept_slotZero (i : Iss) (t : Sieve) (slot : Nat) (s : State) :
    (slotZero i t slot s).kept = s.kept := by
  unfold slotZero
  repeat' (first | with_reducible rfl | with_reducible refine (kept_slotServed ..).trans ?_ | split)

@[simp] theorem kept_slotRung (i : Iss) (t : Sieve) (slot n : Nat) (s : State) :
    (slotRung i t slot n s).kept = s.kept := by
  unfold slotRung
  repeat' (first
    | with_reducible rfl
    | with_reducible assumption
    | (extract_lets +onlyGivenNames x; first
      | (have hx : State.kept x = s.kept := ?_; clear_value x; rename' x => y; on_goal 2 => (dsimp -zeta only [x] <;> clear x))
      | (have hx : State.kept x.2 = s.kept := ?_; clear_value x; rename' x => y; on_goal 2 => (dsimp -zeta only [x] <;> clear x))
      | (have hx : State.kept x.2.2 = s.kept := ?_; clear_value x; rename' x => y; on_goal 2 => (dsimp -zeta only [x] <;> clear x))
      | (have hx : ∀ s, State.kept (x s) = s.kept := ?_; clear_value x; rename' x => y; on_goal 2 => (intro s; dsimp -zeta only [x] <;> clear x))
      | (have hx : ∀ a, State.kept (x a) = s.kept := ?_; clear_value x; rename' x => y; on_goal 2 => (intro a; dsimp -zeta only [x] <;> clear x))
      | (have hx : ∀ a s, State.kept (x a s) = s.kept := ?_; clear_value x; rename' x => y; on_goal 2 => (intro a s; dsimp -zeta only [x] <;> clear x))
      | (clear_value x; rename' x => y)
      | (rename' x => y))
    | with_reducible refine (kept_updGuard ..).trans ?_
    | with_reducible refine (kept_updGather ..).trans ?_
    | with_reducible refine (kept_rowReq ..).trans ?_
    | with_reducible refine (kept_slotZero ..).trans ?_
    | split
    | dsimp -zeta only
    | simp -zeta only [*])

@[simp] theorem kept_gatherCutoff (g ser n : Nat) (s : State) :
    (gatherCutoff g ser n s).kept = s.kept := by
  unfold gatherCutoff
  repeat' (first
    | with_reducible rfl
    | with_reducible refine (kept_updHz ..).trans ?_
    | with_reducible refine (kept_updGuard ..).trans ?_
    | with_reducible refine (kept_gatherEnd ..).trans ?_
    | with_reducible refine (kept_slotRung ..).trans ?_
    | with_reducible refine (kept_foldl _ ?_ _ _).trans ?_
    | with_reducible refine (kept_fold2 _ ?_ _ _).trans ?_
    | (intro s _ _)
    | (intro s _)
    | split
    | dsimp -zeta only)

@[simp] theorem kept_noteMiss (t : Sieve) (rep id : Nat) (s : State) :
    (noteMiss t rep id s).kept = s.kept := by
  unfold noteMiss
  repeat' (first | with_reducible rfl | with_reducible refine (kept_updSieve ..).trans ?_ | split)

@[simp] theorem kept_gatherAct (i : Iss) (s : State) :
    (gatherAct i s).kept = s.kept := by
  unfold gatherAct
  repeat' (first
    | with_reducible rfl
    | with_reducible assumption
    | (extract_lets +onlyGivenNames x; first
      | (have hx : State.kept x = s.kept := ?_; clear_value x; rename' x => y; on_goal 2 => (dsimp -zeta only [x] <;> clear x))
      | (clear_value x; rename' x => y)
      | (rename' x => y))
    | with_reducible refine (kept_sieveCount ..).trans ?_
    | with_reducible refine (kept_setWaitFor ..).trans ?_
    | with_reducible refine (kept_openAtom ..).trans ?_
    | with_reducible refine (kept_consumeView ..).trans ?_
    | with_reducible refine (kept_failClod ..).trans ?_
    | with_reducible refine (kept_slotZero ..).trans ?_
    | with_reducible refine (kept_slotRung ..).trans ?_
    | with_reducible refine (kept_hotReq ..).trans ?_
    | with_reducible refine (kept_updSieve ..).trans ?_
    | with_reducible refine (kept_noteMiss ..).trans ?_
    | with_reducible refine (kept_logReq ..).trans ?_
    | with_reducible refine (kept_homeReq ..).trans ?_
    | with_reducible refine (kept_updGuard ..).trans ?_
    | with_reducible refine (kept_gatherEnd ..).trans ?_
    | with_reducible refine (kept_gatherCutoff ..).trans ?_
    | with_reducible refine (kept_foldl _ ?_ _ _).trans ?_
    | with_reducible refine (kept_fold2 _ ?_ _ _).trans ?_
    | (intro s _ _)
    | (intro s _)
    | split
    | dsimp -zeta only
    | simp -zeta only [*])

@[simp] theorem kept_doSieveGather (g t : Nat) (s : State) :
    (doSieveGather g t s).kept = s.kept := by
  unfold doSieveGather
  exact kept_issueRow _ _ _ (fun _ _ => kept_gatherAct ..) _ _ _

@[simp] theorem kept_rowTaken (g ser slot : Nat) (s : State) :
    (rowTaken g ser slot s).kept = s.kept := by
  unfold rowTaken
  repeat' (first | with_reducible rfl | with_reducible refine (kept_updHz ..).trans ?_ | split)

@[simp] theorem kept_rowVal (i : Iss) (t : Sieve) (src slot : Nat) (v : List FVal × Counts) (bad : Bool) (s : State) :
    (rowVal i t src slot v bad s).kept = s.kept := by
  unfold rowVal
  repeat' (first | with_reducible rfl | with_reducible refine (kept_slotServed ..).trans ?_ | with_reducible refine (kept_updGather ..).trans ?_ | split)

@[simp] theorem kept_rowIn (i : Iss) (t : Sieve) (src slot : Nat) (o : Obj) (off len : Nat) (vals : List Byte → List FVal × Counts) (ans : HzAnswer) (s : State) :
    (rowIn i t src slot o off len vals ans s).kept = s.kept := by
  unfold rowIn
  repeat' (first
    | with_reducible rfl
    | with_reducible refine (kept_sourceRead ..).trans ?_
    | with_reducible refine (kept_consumeRow ..).trans ?_
    | with_reducible refine (kept_rowVal ..).trans ?_
    | split
    | dsimp -zeta only)

@[simp] theorem kept_doSieveRowArrive (g ser slot : Nat) (s : State) :
    (doSieveRowArrive g ser slot s).kept = s.kept := by
  unfold doSieveRowArrive
  repeat' (first
    | with_reducible rfl
    | with_reducible assumption
    | (extract_lets +onlyGivenNames x; first
      | (have hx : State.kept x = s.kept := ?_; clear_value x; rename' x => y; on_goal 2 => (dsimp -zeta only [x] <;> clear x))
      | (have hx : State.kept x.2 = s.kept := ?_; clear_value x; rename' x => y; on_goal 2 => (dsimp -zeta only [x] <;> clear x))
      | (have hx : State.kept x.2.2 = s.kept := ?_; clear_value x; rename' x => y; on_goal 2 => (dsimp -zeta only [x] <;> clear x))
      | (have hx : ∀ s, State.kept (x s) = s.kept := ?_; clear_value x; rename' x => y; on_goal 2 => (intro s; dsimp -zeta only [x] <;> clear x))
      | (have hx : ∀ a, State.kept (x a) = s.kept := ?_; clear_value x; rename' x => y; on_goal 2 => (intro a; dsimp -zeta only [x] <;> clear x))
      | (have hx : ∀ a s, State.kept (x a s) = s.kept := ?_; clear_value x; rename' x => y; on_goal 2 => (intro a s; dsimp -zeta only [x] <;> clear x))
      | (clear_value x; rename' x => y)
      | (rename' x => y))
    | with_reducible refine (kept_rowTaken ..).trans ?_
    | with_reducible refine (kept_rowIn ..).trans ?_
    | with_reducible refine (kept_slotZero ..).trans ?_
    | with_reducible refine (kept_consumeRow ..).trans ?_
    | with_reducible refine (kept_rowVal ..).trans ?_
    | with_reducible refine (kept_homeReq ..).trans ?_
    | with_reducible refine (kept_gatherEnd ..).trans ?_
    | with_reducible refine (kept_foldl _ ?_ _ _).trans ?_
    | with_reducible refine (kept_fold2 _ ?_ _ _).trans ?_
    | (intro s _ _)
    | (intro s _)
    | split
    | dsimp -zeta only
    | simp -zeta only [*])

@[simp] theorem kept_poolPut (t : Sieve) (k : Nat) (e : PoolEnt) (s : State) :
    (poolPut t k e s).kept = s.kept := by
  unfold poolPut
  repeat' (first | with_reducible rfl | with_reducible refine (kept_objWriteAt ..).trans ?_ | split)

@[simp] theorem kept_poolClear (t : Sieve) (k : Nat) (s : State) :
    (poolClear t k s).kept = s.kept := by
  unfold poolClear
  repeat' (first | with_reducible rfl | with_reducible refine (kept_objWriteAt ..).trans ?_ | split)

@[simp] theorem kept_poolEmpty (t : Sieve) (s : State) :
    (poolEmpty t s).kept = s.kept := by
  unfold poolEmpty
  repeat' (first
    | with_reducible rfl
    | with_reducible refine (kept_poolClear ..).trans ?_
    | with_reducible refine (kept_foldl _ ?_ _ _).trans ?_
    | with_reducible refine (kept_fold2 _ ?_ _ _).trans ?_
    | (intro s _ _)
    | (intro s _)
    | split
    | dsimp -zeta only)

@[simp] theorem kept_poolInsert (t : Sieve) (e : PoolEnt) (s : State) :
    (poolInsert t e s).kept = s.kept := by
  unfold poolInsert
  repeat' (first | with_reducible rfl | with_reducible refine (kept_poolPut ..).trans ?_ | split)

@[simp] theorem kept_nextPeriod (t : Sieve) (s : State) :
    (nextPeriod t s).kept = s.kept := by
  unfold nextPeriod
  repeat' (first
    | with_reducible rfl
    | with_reducible refine (kept_updSieve ..).trans ?_
    | with_reducible refine (kept_poolInsert ..).trans ?_
    | with_reducible refine (kept_foldl _ ?_ _ _).trans ?_
    | with_reducible refine (kept_fold2 _ ?_ _ _).trans ?_
    | (intro s _ _)
    | (intro s _)
    | split
    | dsimp -zeta only)

@[simp] theorem kept_settlePool (idx : Nat) (s : State) :
    (settlePool idx s).kept = s.kept := by
  unfold settlePool
  repeat' (first
    | with_reducible rfl
    | with_reducible refine (kept_nextPeriod ..).trans ?_
    | split
    | dsimp -zeta only)

@[simp] theorem kept_poolDrop (t : Sieve) (id : Nat) (s : State) :
    (poolDrop t id s).kept = s.kept := by
  unfold poolDrop
  repeat' (first
    | with_reducible rfl
    | with_reducible refine (kept_sieveCount ..).trans ?_
    | with_reducible refine (kept_updSieve ..).trans ?_
    | with_reducible refine (kept_segStatus ..).trans ?_
    | with_reducible refine (kept_postRec ..).trans ?_
    | split
    | dsimp -zeta only)

@[simp] theorem kept_poolAdd (idx id : Nat) (xs : List FVal) (bad : Bool) (s : State) :
    (poolAdd idx id xs bad s).kept = s.kept := by
  unfold poolAdd
  repeat' (first
    | with_reducible rfl
    | with_reducible assumption
    | (extract_lets +onlyGivenNames x; first
      | (have hx : State.kept x = s.kept := ?_; clear_value x; rename' x => y; on_goal 2 => (dsimp -zeta only [x] <;> clear x))
      | (have hx : State.kept x.2 = s.kept := ?_; clear_value x; rename' x => y; on_goal 2 => (dsimp -zeta only [x] <;> clear x))
      | (have hx : State.kept x.2.2 = s.kept := ?_; clear_value x; rename' x => y; on_goal 2 => (dsimp -zeta only [x] <;> clear x))
      | (have hx : ∀ s, State.kept (x s) = s.kept := ?_; clear_value x; rename' x => y; on_goal 2 => (intro s; dsimp -zeta only [x] <;> clear x))
      | (have hx : ∀ a, State.kept (x a) = s.kept := ?_; clear_value x; rename' x => y; on_goal 2 => (intro a; dsimp -zeta only [x] <;> clear x))
      | (have hx : ∀ a s, State.kept (x a s) = s.kept := ?_; clear_value x; rename' x => y; on_goal 2 => (intro a s; dsimp -zeta only [x] <;> clear x))
      | (clear_value x; rename' x => y)
      | (rename' x => y))
    | with_reducible refine (kept_settlePool ..).trans ?_
    | with_reducible refine (kept_sieveNumeric ..).trans ?_
    | with_reducible refine (kept_sieveCount ..).trans ?_
    | with_reducible refine (kept_updSieve ..).trans ?_
    | with_reducible refine (kept_poolDrop ..).trans ?_
    | with_reducible refine (kept_poolPut ..).trans ?_
    | with_reducible refine (kept_poolInsert ..).trans ?_
    | split
    | dsimp -zeta only
    | simp -zeta only [*])

@[simp] theorem kept_applyPrepS (ctx : Nat) (fits : Nat → Bool) (e : Nat × Nat × Prep) (s : State) :
    (applyPrepS ctx fits e s).kept = s.kept := by
  unfold applyPrepS
  repeat' (first
    | with_reducible rfl
    | with_reducible refine (kept_poolAdd ..).trans ?_
    | with_reducible refine (kept_poolDrop ..).trans ?_
    | with_reducible refine (kept_applyPrep ..).trans ?_
    | split
    | dsimp -zeta only)

@[simp] theorem kept_applyAllS (ctx : Nat) (l : List (Nat × Nat × Prep)) (s : State) :
    (applyAllS ctx l s).kept = s.kept := by
  unfold applyAllS
  repeat' (first
    | with_reducible rfl
    | with_reducible refine (kept_settlePool ..).trans ?_
    | with_reducible refine (kept_applyPrepS ..).trans ?_
    | with_reducible refine (kept_foldl _ ?_ _ _).trans ?_
    | with_reducible refine (kept_fold2 _ ?_ _ _).trans ?_
    | (intro s _ _)
    | (intro s _)
    | split
    | dsimp -zeta only)

@[simp] theorem kept_addReq1 (i : Iss) (t : Sieve) (id part : Nat) (clod : Option Nat) (kind : ReqKind) (s : State) :
    (addReq1 i t id part clod kind s).kept = s.kept := by
  unfold addReq1
  repeat' (first | with_reducible rfl | with_reducible refine (kept_addPart ..).trans ?_ | split)

@[simp] theorem kept_addAnswered (q : Req) (idx id : Nat) (xs : List W32) (sc : W32) (bad : Bool) (ans : HzAnswer) (s : State) :
    (addAnswered q idx id xs sc bad ans s).kept = s.kept := by
  unfold addAnswered
  repeat' (first
    | with_reducible rfl
    | with_reducible assumption
    | (extract_lets +onlyGivenNames x; first
      | (have hx : State.kept x = s.kept := ?_; clear_value x; rename' x => y; on_goal 2 => (dsimp -zeta only [x] <;> clear x))
      | (clear_value x; rename' x => y)
      | (rename' x => y))
    | with_reducible refine (kept_updHz ..).trans ?_
    | with_reducible refine (kept_noteBadFrame ..).trans ?_
    | with_reducible refine (kept_objSetPoison ..).trans ?_
    | with_reducible refine (kept_poolAdd ..).trans ?_
    | with_reducible refine (kept_workDone ..).trans ?_
    | with_reducible refine (kept_endAtom _ _ _ ?_ _).trans ?_
    | with_reducible refine (kept_applyAllS ..).trans ?_
    | (intro s _ _)
    | (intro s _)
    | (intro s)
    | split
    | dsimp -zeta only
    | simp -zeta only [*])

@[simp] theorem kept_addAct (i : Iss) (s : State) :
    (addAct i s).kept = s.kept := by
  unfold addAct
  repeat' (first
    | with_reducible rfl
    | with_reducible assumption
    | (extract_lets +onlyGivenNames x; first
      | (have hx : State.kept x = s.kept := ?_; clear_value x; rename' x => y; on_goal 2 => (dsimp -zeta only [x] <;> clear x))
      | (have hx : State.kept x.2 = s.kept := ?_; clear_value x; rename' x => y; on_goal 2 => (dsimp -zeta only [x] <;> clear x))
      | (have hx : State.kept x.2.2 = s.kept := ?_; clear_value x; rename' x => y; on_goal 2 => (dsimp -zeta only [x] <;> clear x))
      | (clear_value x; rename' x => y)
      | (rename' x => y))
    | with_reducible refine (kept_openAtom ..).trans ?_
    | with_reducible refine (kept_sieveCount ..).trans ?_
    | with_reducible refine (kept_failClod ..).trans ?_
    | with_reducible refine (kept_addPrep ..).trans ?_
    | with_reducible refine (kept_addReq1 ..).trans ?_
    | with_reducible refine (kept_postRec ..).trans ?_
    | with_reducible refine (kept_consumeView ..).trans ?_
    | with_reducible refine (kept_setWaitFor ..).trans ?_
    | with_reducible refine (kept_endAtom _ _ _ ?_ _).trans ?_
    | with_reducible refine (kept_applyAllS ..).trans ?_
    | with_reducible refine (kept_foldl _ ?_ _ _).trans ?_
    | with_reducible refine (kept_fold2 _ ?_ _ _).trans ?_
    | (intro s _ _)
    | (intro s _)
    | split
    | dsimp -zeta only
    | simp -zeta only [*])

@[simp] theorem kept_doSieveScatterAdd (g t : Nat) (s : State) :
    (doSieveScatterAdd g t s).kept = s.kept := by
  unfold doSieveScatterAdd
  exact kept_issueRow _ _ _ (fun _ _ => kept_addAct ..) _ _ _

@[simp] theorem kept_freeCodes (n : Nat) (s : State) : (freeCodes n s).2.kept = s.kept := by
  induction n generalizing s with
  | zero => rfl
  | succ n ih => simp [-Prod.mk.injEq, freeCodes, ih]

@[simp] theorem kept_shadowRow (dim : Nat) (ws : List FVal) (s : State) :
    (shadowRow dim ws s).2.kept = s.kept := by
  unfold shadowRow
  repeat' (first
    | with_reducible rfl
    | with_reducible assumption
    | (extract_lets +onlyGivenNames x; first
      | (have hx : State.kept x = s.kept := ?_; clear_value x; rename' x => y; on_goal 2 => (dsimp -zeta only [x] <;> clear x))
      | (have hx : State.kept x.2 = s.kept := ?_; clear_value x; rename' x => y; on_goal 2 => (dsimp -zeta only [x] <;> clear x))
      | (have hx : State.kept x.2.2 = s.kept := ?_; clear_value x; rename' x => y; on_goal 2 => (dsimp -zeta only [x] <;> clear x))
      | (clear_value x; rename' x => y)
      | (rename' x => y))
    | with_reducible refine (kept_freeBits ..).trans ?_
    | with_reducible refine (kept_freeCodes ..).trans ?_
    | with_reducible refine (kept_foldl _ ?_ _ _).trans ?_
    | with_reducible refine (kept_fold2 _ ?_ _ _).trans ?_
    | (intro s _ _)
    | (intro s _)
    | split
    | dsimp -zeta only
    | simp -zeta only [*])

@[simp] theorem kept_consumeApply (g : Nat) (daddr : W64) (at_ : W32 × Nat) (s : State) :
    (consumeApply g daddr at_ s).kept = s.kept := by
  unfold consumeApply
  repeat' (first | with_reducible rfl | with_reducible refine (kept_consumePoison ..).trans ?_ | split)

@[simp] theorem kept_applyRow (g : Nat) (daddr : W64) (hyp : List Byte) (t : Sieve) (o : Obj) (k : Nat) (e : PoolEnt) (s : State) :
    (applyRow g daddr hyp t o k e s).kept = s.kept := by
  unfold applyRow
  repeat' (first
    | with_reducible rfl
    | with_reducible assumption
    | (extract_lets +onlyGivenNames x; first
      | (have hx : State.kept x = s.kept := ?_; clear_value x; rename' x => y; on_goal 2 => (dsimp -zeta only [x] <;> clear x))
      | (have hx : State.kept x.2 = s.kept := ?_; clear_value x; rename' x => y; on_goal 2 => (dsimp -zeta only [x] <;> clear x))
      | (have hx : State.kept x.2.2 = s.kept := ?_; clear_value x; rename' x => y; on_goal 2 => (dsimp -zeta only [x] <;> clear x))
      | (clear_value x; rename' x => y)
      | (rename' x => y))
    | with_reducible refine (kept_poolClear ..).trans ?_
    | with_reducible refine (kept_sieveCount ..).trans ?_
    | with_reducible refine (kept_consumeApply ..).trans ?_
    | with_reducible refine (kept_sieveNumeric ..).trans ?_
    | with_reducible refine (kept_hotPut ..).trans ?_
    | with_reducible refine (kept_dlogPut ..).trans ?_
    | with_reducible refine (kept_objWrite ..).trans ?_
    | with_reducible refine (kept_shadowRow ..).trans ?_
    | with_reducible refine (kept_objWriteAt ..).trans ?_
    | with_reducible refine (kept_foldl _ ?_ _ _).trans ?_
    | with_reducible refine (kept_fold2 _ ?_ _ _).trans ?_
    | (intro s _ _)
    | (intro s _)
    | split
    | dsimp -zeta only
    | simp -zeta only [*])

@[simp] theorem kept_mergeStart (idx : Nat) (s : State) :
    (mergeStart idx s).kept = s.kept := by
  unfold mergeStart
  repeat' (first
    | with_reducible rfl
    | with_reducible assumption
    | (extract_lets +onlyGivenNames x; first
      | (have hx : State.kept x = s.kept := ?_; clear_value x; rename' x => y; on_goal 2 => (dsimp -zeta only [x] <;> clear x))
      | (clear_value x; rename' x => y)
      | (rename' x => y))
    | with_reducible refine (kept_configWarn ..).trans ?_
    | with_reducible refine (kept_updHz ..).trans ?_
    | with_reducible refine (kept_copyUnits ..).trans ?_
    | with_reducible refine (kept_updSieve ..).trans ?_
    | with_reducible refine (kept_foldl _ ?_ _ _).trans ?_
    | with_reducible refine (kept_fold2 _ ?_ _ _).trans ?_
    | (intro s _ _)
    | (intro s _)
    | split
    | dsimp -zeta only
    | simp -zeta only [*])

@[simp] theorem kept_switchOne (idx : Nat) (m : Nat × Nat × Nat) (s : State) :
    (switchOne idx m s).kept = s.kept := by
  unfold switchOne
  repeat' (first
    | with_reducible rfl
    | with_reducible assumption
    | (extract_lets +onlyGivenNames x; first
      | (have hx : State.kept x = s.kept := ?_; clear_value x; rename' x => y; on_goal 2 => (dsimp -zeta only [x] <;> clear x))
      | (clear_value x; rename' x => y)
      | (rename' x => y))
    | with_reducible refine (kept_updObj ..).trans ?_
    | with_reducible refine (kept_updSieve ..).trans ?_
    | with_reducible refine (kept_freeDrive ..).trans ?_
    | with_reducible refine (kept_sieveCount ..).trans ?_
    | with_reducible refine (kept_dlogClear ..).trans ?_
    | with_reducible refine (kept_foldl _ ?_ _ _).trans ?_
    | with_reducible refine (kept_fold2 _ ?_ _ _).trans ?_
    | (intro s _ _)
    | (intro s _)
    | split
    | dsimp -zeta only
    | simp -zeta only [*])

@[simp] theorem kept_switchMerged (idx : Nat) (s : State) :
    (switchMerged idx s).kept = s.kept := by
  unfold switchMerged
  repeat' (first
    | with_reducible rfl
    | with_reducible refine (kept_mergeStart ..).trans ?_
    | with_reducible refine (kept_switchOne ..).trans ?_
    | with_reducible refine (kept_foldl _ ?_ _ _).trans ?_
    | with_reducible refine (kept_fold2 _ ?_ _ _).trans ?_
    | (intro s _ _)
    | (intro s _)
    | split
    | dsimp -zeta only)

@[simp] theorem kept_spanReq (kind : ReqKind) (die : Nat) (o : Obj) (off len : Nat) (s : State) :
    (spanReq kind die o off len s).kept = s.kept := by
  unfold spanReq
  repeat' (first
    | with_reducible rfl
    | with_reducible refine (kept_addReqAt ..).trans ?_
    | with_reducible refine (kept_foldl _ ?_ _ _).trans ?_
    | with_reducible refine (kept_fold2 _ ?_ _ _).trans ?_
    | (intro s _ _)
    | (intro s _)
    | split
    | dsimp -zeta only)

@[simp] theorem kept_applyAsk (t : Sieve) (o po : Obj) (k stage : Nat) (e : PoolEnt) (s : State) :
    (applyAsk t o po k stage e s).kept = s.kept := by
  unfold applyAsk
  repeat' (first
    | with_reducible rfl
    | with_reducible assumption
    | (extract_lets +onlyGivenNames x; first
      | (have hx : State.kept x = s.kept := ?_; clear_value x; rename' x => y; on_goal 2 => (dsimp -zeta only [x] <;> clear x))
      | (have hx : State.kept x.2 = s.kept := ?_; clear_value x; rename' x => y; on_goal 2 => (dsimp -zeta only [x] <;> clear x))
      | (have hx : State.kept x.2.2 = s.kept := ?_; clear_value x; rename' x => y; on_goal 2 => (dsimp -zeta only [x] <;> clear x))
      | (have hx : ∀ s, State.kept (x s) = s.kept := ?_; clear_value x; rename' x => y; on_goal 2 => (intro s; dsimp -zeta only [x] <;> clear x))
      | (have hx : ∀ a, State.kept (x a) = s.kept := ?_; clear_value x; rename' x => y; on_goal 2 => (intro a; dsimp -zeta only [x] <;> clear x))
      | (have hx : ∀ a s, State.kept (x a s) = s.kept := ?_; clear_value x; rename' x => y; on_goal 2 => (intro a s; dsimp -zeta only [x] <;> clear x))
      | (clear_value x; rename' x => y)
      | (rename' x => y))
    | with_reducible refine (kept_spanReq ..).trans ?_
    | with_reducible refine (kept_enterReq ..).trans ?_
    | with_reducible refine (kept_foldl _ ?_ _ _).trans ?_
    | with_reducible refine (kept_fold2 _ ?_ _ _).trans ?_
    | (intro s _ _)
    | (intro s _)
    | split
    | dsimp -zeta only
    | simp -zeta only [*])

@[simp] theorem kept_applyTry (idx k : Nat) (s : State) :
    (applyTry idx k s).kept = s.kept := by
  unfold applyTry
  repeat' (first | with_reducible rfl | with_reducible refine (kept_updSieve ..).trans ?_ | with_reducible refine (kept_applyAsk ..).trans ?_ | split)

@[simp] theorem kept_applyWaits (idx : Nat) (s : State) :
    (applyWaits idx s).kept = s.kept := by
  unfold applyWaits
  repeat' (first
    | with_reducible rfl
    | with_reducible refine (kept_mergeStart ..).trans ?_
    | with_reducible refine (kept_applyTry ..).trans ?_
    | with_reducible refine (kept_switchMerged ..).trans ?_
    | with_reducible refine (kept_foldl _ ?_ _ _).trans ?_
    | with_reducible refine (kept_fold2 _ ?_ _ _).trans ?_
    | (intro s _ _)
    | (intro s _)
    | split
    | dsimp -zeta only)

@[simp] theorem kept_applyEnd (idx : Nat) (s : State) :
    (applyEnd idx s).kept = s.kept := by
  unfold applyEnd
  repeat' (first
    | with_reducible rfl
    | with_reducible refine (kept_settle ..).trans ?_
    | with_reducible refine (kept_workDone ..).trans ?_
    | with_reducible refine (kept_nextPeriod ..).trans ?_
    | split
    | dsimp -zeta only)

@[simp] theorem kept_applyNext (idx k stage : Nat) (s : State) :
    (applyNext idx k stage s).kept = s.kept := by
  unfold applyNext
  repeat' (first
    | with_reducible rfl
    | with_reducible refine (kept_applyAsk ..).trans ?_
    | with_reducible refine (kept_applyWaits ..).trans ?_
    | with_reducible refine (kept_applyTry ..).trans ?_
    | with_reducible refine (kept_applyRow ..).trans ?_
    | with_reducible refine (kept_mergeStart ..).trans ?_
    | with_reducible refine (kept_applyEnd ..).trans ?_
    | with_reducible refine (kept_updSieve ..).trans ?_
    | split
    | dsimp -zeta only)

@[simp] theorem kept_applyAnswered (q : Req) (idx k stage : Nat) (ans : HzAnswer) (s : State) :
    (applyAnswered q idx k stage ans s).kept = s.kept := by
  unfold applyAnswered
  repeat' (first
    | with_reducible rfl
    | with_reducible assumption
    | (extract_lets +onlyGivenNames x; first
      | (have hx : State.kept x = s.kept := ?_; clear_value x; rename' x => y; on_goal 2 => (dsimp -zeta only [x] <;> clear x))
      | (clear_value x; rename' x => y)
      | (rename' x => y))
    | with_reducible refine (kept_updHz ..).trans ?_
    | with_reducible refine (kept_hz4Failure ..).trans ?_
    | with_reducible refine (kept_noteBadFrame ..).trans ?_
    | with_reducible refine (kept_objSetPoison ..).trans ?_
    | with_reducible refine (kept_applyNext ..).trans ?_
    | split
    | dsimp -zeta only
    | simp -zeta only [*])

@[simp] theorem kept_answerReq (q : Req) (ans : HzAnswer) (s : State) :
    (answerReq q ans s).kept = s.kept := by
  unfold answerReq
  repeat' (first
    | with_reducible rfl
    | with_reducible refine (kept_addAnswered ..).trans ?_
    | with_reducible refine (kept_applyAnswered ..).trans ?_
    | with_reducible refine (kept_respond ..).trans ?_
    | split
    | dsimp -zeta only)

@[simp] theorem kept_applyAct (i : Iss) (s : State) :
    (applyAct i s).kept = s.kept := by
  unfold applyAct
  repeat' (first
    | with_reducible rfl
    | with_reducible assumption
    | (extract_lets +onlyGivenNames x; first
      | (have hx : State.kept x = s.kept := ?_; clear_value x; rename' x => y; on_goal 2 => (dsimp -zeta only [x] <;> clear x))
      | (clear_value x; rename' x => y)
      | (rename' x => y))
    | with_reducible refine (kept_settlePool ..).trans ?_
    | with_reducible refine (kept_poolPut ..).trans ?_
    | with_reducible refine (kept_consumePoison ..).trans ?_
    | with_reducible refine (kept_updSieve ..).trans ?_
    | with_reducible refine (kept_setWaitFor ..).trans ?_
    | with_reducible refine (kept_mergeStart ..).trans ?_
    | with_reducible refine (kept_applyEnd ..).trans ?_
    | with_reducible refine (kept_applyAsk ..).trans ?_
    | with_reducible refine (kept_foldl _ ?_ _ _).trans ?_
    | with_reducible refine (kept_fold2 _ ?_ _ _).trans ?_
    | (intro s _ _)
    | (intro s _)
    | split
    | dsimp -zeta only
    | simp -zeta only [*])

@[simp] theorem kept_doSieveScatterApply (g t : Nat) (s : State) :
    (doSieveScatterApply g t s).kept = s.kept := by
  unfold doSieveScatterApply
  exact kept_issueRow _ _ _ (fun _ _ => kept_applyAct ..) _ _ _

@[simp] theorem kept_mergeWrite (idx : Nat) (s : State) :
    (mergeWrite idx s).kept = s.kept := by
  unfold mergeWrite
  repeat' (first
    | with_reducible rfl
    | with_reducible assumption
    | (extract_lets +onlyGivenNames x; first
      | (have hx : State.kept x = s.kept := ?_; clear_value x; rename' x => y; on_goal 2 => (dsimp -zeta only [x] <;> clear x))
      | (clear_value x; rename' x => y)
      | (rename' x => y))
    | exact kept_allocDrive (r := (_, _)) (by assumption)
    | exact (kept_allocDrive (r := (_, _)) (by assumption)).trans (by assumption)
    | with_reducible refine (kept_mergeStart ..).trans ?_
    | with_reducible refine (kept_updSieve ..).trans ?_
    | with_reducible refine (kept_copyGranule ..).trans ?_
    | with_reducible refine (kept_locSet ..).trans ?_
    | with_reducible refine (kept_copyUnits ..).trans ?_
    | with_reducible refine (kept_foldl _ ?_ _ _).trans ?_
    | with_reducible refine (kept_fold2 _ ?_ _ _).trans ?_
    | (intro s _ _)
    | (intro s _)
    | split
    | dsimp -zeta only
    | simp -zeta only [*])

@[simp] theorem kept_mergeStep (w : CopyOf) (write : Bool) (s : State) :
    (mergeStep w write s).kept = s.kept := by
  unfold mergeStep
  repeat' (first
    | with_reducible rfl
    | with_reducible refine (kept_mergeWrite ..).trans ?_
    | with_reducible refine (kept_updSieve ..).trans ?_
    | with_reducible refine (kept_nvmePut ..).trans ?_
    | split
    | dsimp -zeta only)

@[simp] theorem kept_mergeFlushed (cmd : Nat) (s : State) :
    (mergeFlushed cmd s).kept = s.kept := by
  unfold mergeFlushed
  with_reducible rfl

@[simp] theorem kept_mergeSwitch (ctx : Nat) (s : State) :
    (mergeSwitch ctx s).kept = s.kept := by
  unfold mergeSwitch
  repeat' (first
    | with_reducible rfl
    | with_reducible assumption
    | (extract_lets +onlyGivenNames x; first
      | (have hx : State.kept x = s.kept := ?_; clear_value x; rename' x => y; on_goal 2 => (dsimp -zeta only [x] <;> clear x))
      | (clear_value x; rename' x => y)
      | (rename' x => y))
    | with_reducible refine (kept_switchMerged ..).trans ?_
    | with_reducible refine (kept_foldl _ ?_ _ _).trans ?_
    | with_reducible refine (kept_fold2 _ ?_ _ _).trans ?_
    | (intro s _ _)
    | (intro s _)
    | split
    | dsimp -zeta only
    | simp -zeta only [*])

@[simp] theorem kept_doDlogMergeGranuleDone (table j : Nat) (s : State) :
    (doDlogMergeGranuleDone table j s).kept = s.kept := by
  unfold doDlogMergeGranuleDone
  repeat' (first
    | with_reducible rfl
    | with_reducible assumption
    | (extract_lets +onlyGivenNames x; first
      | (have hx : State.kept x = s.kept := ?_; clear_value x; rename' x => y; on_goal 2 => (dsimp -zeta only [x] <;> clear x))
      | (clear_value x; rename' x => y)
      | (rename' x => y))
    | with_reducible refine (kept_mergeStart ..).trans ?_
    | with_reducible refine (kept_applyWaits ..).trans ?_
    | with_reducible refine (kept_updSieve ..).trans ?_
    | split
    | dsimp -zeta only
    | simp -zeta only [*])

@[simp] theorem kept_admitOne (idx : Nat) (m : Nat × Nat) (s : State) :
    (admitOne idx m s).kept = s.kept := by
  unfold admitOne
  repeat' (first
    | with_reducible rfl
    | with_reducible assumption
    | (extract_lets +onlyGivenNames x; first
      | (have hx : State.kept x = s.kept := ?_; clear_value x; rename' x => y; on_goal 2 => (dsimp -zeta only [x] <;> clear x))
      | (clear_value x; rename' x => y)
      | (rename' x => y))
    | with_reducible refine (kept_hotPut ..).trans ?_
    | with_reducible refine (kept_updSieve ..).trans ?_
    | with_reducible refine (kept_enterReq ..).trans ?_
    | with_reducible refine (kept_sieveCount ..).trans ?_
    | with_reducible refine (kept_foldl _ ?_ _ _).trans ?_
    | with_reducible refine (kept_fold2 _ ?_ _ _).trans ?_
    | (intro s _ _)
    | (intro s _)
    | split
    | dsimp -zeta only
    | simp -zeta only [*])

@[simp] theorem kept_admitHot (ctx : Nat) (s : State) :
    (admitHot ctx s).kept = s.kept := by
  unfold admitHot
  repeat' (first
    | with_reducible rfl
    | with_reducible refine (kept_admitOne ..).trans ?_
    | with_reducible refine (kept_updSieve ..).trans ?_
    | with_reducible refine (kept_foldl _ ?_ _ _).trans ?_
    | with_reducible refine (kept_fold2 _ ?_ _ _).trans ?_
    | (intro s _ _)
    | (intro s _)
    | split
    | dsimp -zeta only)

@[simp] theorem kept_sieveStepEnd (ctx : Nat) (s : State) :
    (sieveStepEnd ctx s).kept = s.kept := by
  unfold sieveStepEnd
  with_reducible rfl

@[simp] theorem kept_freeOldLbas (ctx : Nat) (s : State) :
    (freeOldLbas ctx s).kept = s.kept := by
  unfold freeOldLbas
  repeat' (first
    | with_reducible rfl
    | with_reducible refine (kept_freeDrive ..).trans ?_
    | with_reducible refine (kept_updSieve ..).trans ?_
    | with_reducible refine (kept_foldl _ ?_ _ _).trans ?_
    | with_reducible refine (kept_fold2 _ ?_ _ _).trans ?_
    | (intro s _ _)
    | (intro s _)
    | split
    | dsimp -zeta only)

/-! ## Fabric -/

@[simp] theorem kept_updFab (f : Fab → Fab) (s : State) :
    (updFab f s).kept = s.kept := by
  unfold updFab
  with_reducible rfl

@[simp] theorem kept_updFport (p : Nat) (f : FPort → FPort) (s : State) :
    (updFport p f s).kept = s.kept := by
  unfold updFport
  repeat' (first | with_reducible rfl | with_reducible refine (kept_updFab ..).trans ?_ | split)

@[simp] theorem kept_sendNow (p : Nat) (f : Flit) (s : State) :
    (sendNow p f s).kept = s.kept := by
  unfold sendNow
  repeat' (first | with_reducible rfl | with_reducible refine (kept_updFport ..).trans ?_ | with_reducible refine (kept_emit ..).trans ?_ | split)

@[simp] theorem kept_sendNull (p : Nat) (nak : Bool) (rcnt rtc rvl : Nat) (s : State) :
    (sendNull p nak rcnt rtc rvl s).kept = s.kept := by
  unfold sendNull
  repeat' (first | with_reducible rfl | with_reducible refine (kept_emit ..).trans ?_ | split)

@[simp] theorem kept_giveBack (org : Option (Nat × Nat)) (f : Flit) (s : State) :
    (giveBack org f s).kept = s.kept := by
  unfold giveBack
  repeat' (first | with_reducible rfl | with_reducible refine (kept_sendNull ..).trans ?_ | split)

@[simp] theorem kept_txFlit (p : Nat) (org : Option (Nat × Nat)) (f : Flit) (s : State) :
    (txFlit p org f s).kept = s.kept := by
  unfold txFlit
  repeat' (first
    | with_reducible rfl
    | with_reducible assumption
    | (extract_lets +onlyGivenNames x; first
      | (have hx : State.kept x = s.kept := ?_; clear_value x; rename' x => y; on_goal 2 => (dsimp -zeta only [x] <;> clear x))
      | (clear_value x; rename' x => y)
      | (rename' x => y))
    | with_reducible refine (kept_giveBack ..).trans ?_
    | with_reducible refine (kept_sendNow ..).trans ?_
    | with_reducible refine (kept_updFport ..).trans ?_
    | split
    | dsimp -zeta only
    | simp -zeta only [*])

@[simp] theorem kept_drainPort (p n : Nat) (s : State) : (drainPort p n s).kept = s.kept := by
  induction n generalizing s with
  | zero => rfl
  | succ n ih => unfold drainPort; repeat' (first | rfl | split | simp [-Prod.mk.injEq, ih])

@[simp] theorem kept_drainWait (p : Nat) (s : State) :
    (drainWait p s).kept = s.kept := by
  unfold drainWait
  repeat' (first | with_reducible rfl | with_reducible refine (kept_drainPort ..).trans ?_ | split)

@[simp] theorem kept_routeFrom (org : Option (Nat × Nat)) (key : Nat) (f : Flit) (s : State) :
    (routeFrom org key f s).kept = s.kept := by
  unfold routeFrom
  repeat' (first
    | with_reducible rfl
    | with_reducible refine (kept_giveBack ..).trans ?_
    | with_reducible refine (kept_emit ..).trans ?_
    | with_reducible refine (kept_txFlit ..).trans ?_
    | split
    | dsimp -zeta only)

@[simp] theorem kept_routeFlit (key : Nat) (f : Flit) (s : State) :
    (routeFlit key f s).kept = s.kept := by
  unfold routeFlit
  repeat' (first | with_reducible rfl | with_reducible refine (kept_routeFrom ..).trans ?_ | split)

@[simp] theorem kept_rejoinBundle (dir : Nat) (s : State) :
    (rejoinBundle dir s).kept = s.kept := by
  unfold rejoinBundle
  repeat' (first
    | with_reducible rfl
    | with_reducible assumption
    | (extract_lets +onlyGivenNames x; first
      | (have hx : State.kept x = s.kept := ?_; clear_value x; rename' x => y; on_goal 2 => (dsimp -zeta only [x] <;> clear x))
      | (clear_value x; rename' x => y)
      | (rename' x => y))
    | with_reducible refine (kept_updFport ..).trans ?_
    | with_reducible refine (kept_routeFrom ..).trans ?_
    | with_reducible refine (kept_foldl _ ?_ _ _).trans ?_
    | with_reducible refine (kept_fold2 _ ?_ _ _).trans ?_
    | (intro s _ _)
    | (intro s _)
    | split
    | dsimp -zeta only
    | simp -zeta only [*])

@[simp] theorem kept_ackBack (p : Nat) (a : BitVec 12) (s : State) :
    (ackBack p a s).kept = s.kept := by
  unfold ackBack
  repeat' (first
    | with_reducible rfl
    | with_reducible assumption
    | (extract_lets +onlyGivenNames x; first
      | (have hx : State.kept x = s.kept := ?_; clear_value x; rename' x => y; on_goal 2 => (dsimp -zeta only [x] <;> clear x))
      | (clear_value x; rename' x => y)
      | (rename' x => y))
    | with_reducible refine (kept_rejoinBundle ..).trans ?_
    | with_reducible refine (kept_drainWait ..).trans ?_
    | with_reducible refine (kept_updFport ..).trans ?_
    | split
    | dsimp -zeta only
    | simp -zeta only [*])

@[simp] theorem kept_portRec (p event : Nat) (s : State) :
    (portRec p event s).kept = s.kept := by
  unfold portRec
  repeat' (first | with_reducible rfl | with_reducible refine (kept_postRec ..).trans ?_ | split)

@[simp] theorem kept_leaveUp (p : Nat) (st : PSt) (s : State) :
    (leaveUp p st s).kept = s.kept := by
  unfold leaveUp
  repeat' (first
    | with_reducible rfl
    | with_reducible refine (kept_updFport ..).trans ?_
    | with_reducible refine (kept_rejoinBundle ..).trans ?_
    | with_reducible refine (kept_routeFrom ..).trans ?_
    | with_reducible refine (kept_foldl _ ?_ _ _).trans ?_
    | with_reducible refine (kept_fold2 _ ?_ _ _).trans ?_
    | (intro s _ _)
    | (intro s _)
    | split
    | dsimp -zeta only)

@[simp] theorem kept_startRetrain (p : Nat) (s : State) :
    (startRetrain p s).kept = s.kept := by
  unfold startRetrain
  repeat' (first
    | with_reducible rfl
    | with_reducible refine (kept_leaveUp ..).trans ?_
    | with_reducible refine (kept_updFport ..).trans ?_
    | with_reducible refine (kept_portRec ..).trans ?_
    | split
    | dsimp -zeta only)

@[simp] theorem kept_nakBack (p : Nat) (a : BitVec 12) (s : State) :
    (nakBack p a s).kept = s.kept := by
  unfold nakBack
  repeat' (first
    | with_reducible rfl
    | with_reducible assumption
    | (extract_lets +onlyGivenNames x; first
      | (have hx : State.kept x = s.kept := ?_; clear_value x; rename' x => y; on_goal 2 => (dsimp -zeta only [x] <;> clear x))
      | (clear_value x; rename' x => y)
      | (rename' x => y))
    | with_reducible refine (kept_ackBack ..).trans ?_
    | with_reducible refine (kept_updFport ..).trans ?_
    | with_reducible refine (kept_startRetrain ..).trans ?_
    | with_reducible refine (kept_emit ..).trans ?_
    | with_reducible refine (kept_foldl _ ?_ _ _).trans ?_
    | with_reducible refine (kept_fold2 _ ?_ _ _).trans ?_
    | (intro s _ _)
    | (intro s _)
    | split
    | dsimp -zeta only
    | simp -zeta only [*])

@[simp] theorem kept_freeOwed (p : Nat → Bool) (s : State) :
    (freeOwed p s).kept = s.kept := by
  unfold freeOwed
  repeat' (first
    | with_reducible rfl
    | with_reducible refine (kept_sendNull ..).trans ?_
    | with_reducible refine (kept_updFab ..).trans ?_
    | with_reducible refine (kept_foldl _ ?_ _ _).trans ?_
    | with_reducible refine (kept_fold2 _ ?_ _ _).trans ?_
    | (intro s _ _)
    | (intro s _)
    | split
    | dsimp -zeta only)

@[simp] theorem kept_sendCtl (tc dst : Nat) (o : Out) (s : State) :
    (sendCtl tc dst o s).kept = s.kept := by
  unfold sendCtl
  repeat' (first
    | with_reducible rfl
    | with_reducible refine (kept_freeBelow ..).trans ?_
    | with_reducible refine (kept_freeBits ..).trans ?_
    | with_reducible refine (kept_routeFlit ..).trans ?_
    | with_reducible refine (kept_emit ..).trans ?_
    | split
    | dsimp -zeta only)

@[simp] theorem kept_doNakReceived (p : Nat) (a : BitVec 12) (s : State) :
    (doNakReceived p a s).kept = s.kept := by
  unfold doNakReceived
  repeat' (first | with_reducible rfl | with_reducible refine (kept_nakBack ..).trans ?_ | split)

@[simp] theorem kept_doPortLeaveUp (p : Nat) (s : State) :
    (doPortLeaveUp p s).kept = s.kept := by
  unfold doPortLeaveUp
  repeat' (first | with_reducible rfl | with_reducible refine (kept_portRec ..).trans ?_ | with_reducible refine (kept_startRetrain ..).trans ?_ | split)

@[simp] theorem kept_doPortRetrainDone (p : Nat) (ok : Bool) (s : State) :
    (doPortRetrainDone p ok s).kept = s.kept := by
  unfold doPortRetrainDone
  repeat' (first
    | with_reducible rfl
    | with_reducible assumption
    | (extract_lets +onlyGivenNames x; first
      | (have hx : State.kept x = s.kept := ?_; clear_value x; rename' x => y; on_goal 2 => (dsimp -zeta only [x] <;> clear x))
      | (clear_value x; rename' x => y)
      | (rename' x => y))
    | with_reducible refine (kept_updFport ..).trans ?_
    | with_reducible refine (kept_emit ..).trans ?_
    | with_reducible refine (kept_portRec ..).trans ?_
    | with_reducible refine (kept_rejoinBundle ..).trans ?_
    | with_reducible refine (kept_finish0 ..).trans ?_
    | with_reducible refine (kept_foldl _ ?_ _ _).trans ?_
    | with_reducible refine (kept_fold2 _ ?_ _ _).trans ?_
    | (intro s _ _)
    | (intro s _)
    | split
    | dsimp -zeta only
    | simp -zeta only [*])

@[simp] theorem kept_doPortTrained (p : Nat) (ok : Bool) (s : State) :
    (doPortTrained p ok s).kept = s.kept := by
  unfold doPortTrained
  repeat' (first
    | with_reducible rfl
    | with_reducible assumption
    | (extract_lets +onlyGivenNames x; first
      | (have hx : State.kept x = s.kept := ?_; clear_value x; rename' x => y; on_goal 2 => (dsimp -zeta only [x] <;> clear x))
      | (clear_value x; rename' x => y)
      | (rename' x => y))
    | with_reducible refine (kept_portRec ..).trans ?_
    | with_reducible refine (kept_updFport ..).trans ?_
    | with_reducible refine (kept_emit ..).trans ?_
    | split
    | dsimp -zeta only
    | simp -zeta only [*])

@[simp] theorem kept_doIdentReceived (p : Nat) (id : Ident) (s : State) :
    (doIdentReceived p id s).kept = s.kept := by
  unfold doIdentReceived
  repeat' (first
    | with_reducible rfl
    | with_reducible assumption
    | (extract_lets +onlyGivenNames x; first
      | (have hx : State.kept x = s.kept := ?_; clear_value x; rename' x => y; on_goal 2 => (dsimp -zeta only [x] <;> clear x))
      | (clear_value x; rename' x => y)
      | (rename' x => y))
    | with_reducible refine (kept_updFport ..).trans ?_
    | with_reducible refine (kept_rejoinBundle ..).trans ?_
    | with_reducible refine (kept_portRec ..).trans ?_
    | split
    | dsimp -zeta only
    | simp -zeta only [*])

@[simp] theorem kept_flitIn (p : Nat) (f : Flit) (s : State) :
    (flitIn p f s).kept = s.kept := by
  unfold flitIn
  repeat' (first
    | with_reducible rfl
    | with_reducible assumption
    | (extract_lets +onlyGivenNames x; first
      | (have hx : State.kept x = s.kept := ?_; clear_value x; rename' x => y; on_goal 2 => (dsimp -zeta only [x] <;> clear x))
      | (clear_value x; rename' x => y)
      | (rename' x => y))
    | with_reducible refine (kept_sendNull ..).trans ?_
    | with_reducible refine (kept_updFport ..).trans ?_
    | with_reducible refine (kept_drainWait ..).trans ?_
    | with_reducible refine (kept_nakBack ..).trans ?_
    | with_reducible refine (kept_ackBack ..).trans ?_
    | with_reducible refine (kept_doIdentReceived ..).trans ?_
    | with_reducible refine (kept_updFab ..).trans ?_
    | with_reducible refine (kept_giveBack ..).trans ?_
    | with_reducible refine (kept_routeFrom ..).trans ?_
    | split
    | dsimp -zeta only
    | simp -zeta only [*])

@[simp] theorem kept_doIdentTimeout (p : Nat) (s : State) :
    (doIdentTimeout p s).kept = s.kept := by
  unfold doIdentTimeout
  repeat' (first | with_reducible rfl | with_reducible refine (kept_portRec ..).trans ?_ | with_reducible refine (kept_updFport ..).trans ?_ | split)

@[simp] theorem kept_doLnkPortEnable (rq : Requester) (p : Nat) (val : W64) (s : State) :
    (doLnkPortEnable rq p val s).kept = s.kept := by
  unfold doLnkPortEnable
  repeat' (first
    | with_reducible rfl
    | with_reducible assumption
    | (extract_lets +onlyGivenNames x; first
      | (have hx : State.kept x = s.kept := ?_; clear_value x; rename' x => y; on_goal 2 => (dsimp -zeta only [x] <;> clear x))
      | (clear_value x; rename' x => y)
      | (rename' x => y))
    | with_reducible refine (kept_noteRwp ..).trans ?_
    | with_reducible refine (kept_updFport ..).trans ?_
    | with_reducible refine (kept_leaveUp ..).trans ?_
    | with_reducible refine (kept_finish0 ..).trans ?_
    | split
    | dsimp -zeta only
    | simp -zeta only [*])

@[simp] theorem kept_doLnkTorusWrite (rq : Requester) (val : W32) (s : State) :
    (doLnkTorusWrite rq val s).kept = s.kept := by
  unfold doLnkTorusWrite
  repeat' (first
    | with_reducible rfl
    | with_reducible refine (kept_configWarn ..).trans ?_
    | with_reducible refine (kept_noteRwp ..).trans ?_
    | with_reducible refine (kept_updFab ..).trans ?_
    | split
    | dsimp -zeta only)

@[simp] theorem kept_doLnkRouteWrite (rq : Requester) (id : Nat) (val : Byte) (s : State) :
    (doLnkRouteWrite rq id val s).kept = s.kept := by
  unfold doLnkRouteWrite
  repeat' (first | with_reducible rfl | with_reducible refine (kept_updFab ..).trans ?_ | split)

@[simp] theorem kept_doLnkCreditWrite (rq : Requester) (val : W64) (s : State) :
    (doLnkCreditWrite rq val s).kept = s.kept := by
  unfold doLnkCreditWrite
  repeat' (first | with_reducible rfl | with_reducible refine (kept_configWarn ..).trans ?_ | with_reducible refine (kept_updFab ..).trans ?_ | split)

/-! ## Windows -/

@[simp] theorem kept_dropMove (m : Mig) (s : State) :
    (dropMove m s).kept = s.kept := by
  unfold dropMove
  repeat' (first
    | with_reducible rfl
    | with_reducible refine (kept_dropCopy ..).trans ?_
    | with_reducible refine (kept_freeHome ..).trans ?_
    | with_reducible refine (kept_updObj ..).trans ?_
    | with_reducible refine (kept_updHz ..).trans ?_
    | with_reducible refine (kept_finish0 ..).trans ?_
    | with_reducible refine (kept_foldl _ ?_ _ _).trans ?_
    | with_reducible refine (kept_fold2 _ ?_ _ _).trans ?_
    | (intro s _ _)
    | (intro s _)
    | split
    | dsimp -zeta only)

@[simp] theorem kept_endBreaking (h : W32) (off size : Nat) (write : Bool) (s : State) :
    (endBreaking h off size write s).kept = s.kept := by
  unfold endBreaking
  repeat' (first
    | with_reducible rfl
    | with_reducible refine (kept_dropMove ..).trans ?_
    | with_reducible refine (kept_foldl _ ?_ _ _).trans ?_
    | with_reducible refine (kept_fold2 _ ?_ _ _).trans ?_
    | (intro s _ _)
    | (intro s _)
    | split
    | dsimp -zeta only)

@[simp] theorem kept_doWinOpen (cid : Nat) (s : State) :
    (doWinOpen cid s).kept = s.kept := by
  unfold doWinOpen
  repeat' (first
    | with_reducible rfl
    | with_reducible assumption
    | (extract_lets +onlyGivenNames x; first
      | (have hx : State.kept x = s.kept := ?_; clear_value x; rename' x => y; on_goal 2 => (dsimp -zeta only [x] <;> clear x))
      | (have hx : State.kept x.2 = s.kept := ?_; clear_value x; rename' x => y; on_goal 2 => (dsimp -zeta only [x] <;> clear x))
      | (have hx : State.kept x.2.2 = s.kept := ?_; clear_value x; rename' x => y; on_goal 2 => (dsimp -zeta only [x] <;> clear x))
      | (have hx : ∀ s, State.kept (x s) = s.kept := ?_; clear_value x; rename' x => y; on_goal 2 => (intro s; dsimp -zeta only [x] <;> clear x))
      | (have hx : ∀ a, State.kept (x a) = s.kept := ?_; clear_value x; rename' x => y; on_goal 2 => (intro a; dsimp -zeta only [x] <;> clear x))
      | (have hx : ∀ a s, State.kept (x a s) = s.kept := ?_; clear_value x; rename' x => y; on_goal 2 => (intro a s; dsimp -zeta only [x] <;> clear x))
      | (clear_value x; rename' x => y)
      | (rename' x => y))
    | with_reducible refine (kept_startCmd ..).trans ?_
    | with_reducible refine (kept_finish0 ..).trans ?_
    | with_reducible refine (kept_finish ..).trans ?_
    | with_reducible refine (kept_updFab ..).trans ?_
    | with_reducible refine (kept_endBreaking ..).trans ?_
    | split
    | dsimp -zeta only
    | simp -zeta only [*])

@[simp] theorem kept_closeIfIdle (n : Nat) (s : State) :
    (closeIfIdle n s).kept = s.kept := by
  unfold closeIfIdle
  repeat' (first | with_reducible rfl | with_reducible refine (kept_finish0 ..).trans ?_ | with_reducible refine (kept_updFab ..).trans ?_ | split)

@[simp] theorem kept_doWinClose (cid : Nat) (s : State) :
    (doWinClose cid s).kept = s.kept := by
  unfold doWinClose
  repeat' (first
    | with_reducible rfl
    | with_reducible assumption
    | (extract_lets +onlyGivenNames x; first
      | (have hx : State.kept x = s.kept := ?_; clear_value x; rename' x => y; on_goal 2 => (dsimp -zeta only [x] <;> clear x))
      | (clear_value x; rename' x => y)
      | (rename' x => y))
    | with_reducible refine (kept_startCmd ..).trans ?_
    | with_reducible refine (kept_finish0 ..).trans ?_
    | with_reducible refine (kept_closeIfIdle ..).trans ?_
    | with_reducible refine (kept_updFab ..).trans ?_
    | split
    | dsimp -zeta only
    | simp -zeta only [*])

@[simp] theorem kept_winSend (q : WReq) (s : State) :
    (winSend q s).kept = s.kept := by
  unfold winSend
  repeat' (first
    | with_reducible rfl
    | with_reducible refine (kept_updFab ..).trans ?_
    | with_reducible refine (kept_routeFlit ..).trans ?_
    | with_reducible refine (kept_emit ..).trans ?_
    | with_reducible refine (kept_foldl _ ?_ _ _).trans ?_
    | with_reducible refine (kept_fold2 _ ?_ _ _).trans ?_
    | (intro s _ _)
    | (intro s _)
    | split
    | dsimp -zeta only)

@[simp] theorem kept_winAdd (q : WReq) (s : State) :
    (winAdd q s).kept = s.kept := by
  unfold winAdd
  repeat' (first
    | with_reducible rfl
    | with_reducible assumption
    | (extract_lets +onlyGivenNames x; first
      | (have hx : State.kept x = s.kept := ?_; clear_value x; rename' x => y; on_goal 2 => (dsimp -zeta only [x] <;> clear x))
      | (clear_value x; rename' x => y)
      | (rename' x => y))
    | with_reducible refine (kept_updFab ..).trans ?_
    | with_reducible refine (kept_winSend ..).trans ?_
    | split
    | dsimp -zeta only
    | simp -zeta only [*])

@[simp] theorem kept_winMaybeDone (g ser : Nat) (s : State) :
    (winMaybeDone g ser s).kept = s.kept := by
  unfold winMaybeDone
  repeat' (first
    | with_reducible rfl
    | with_reducible refine (kept_workDone ..).trans ?_
    | with_reducible refine (kept_endAtom _ _ _ ?_ _).trans ?_
    | with_reducible refine (kept_applyAll ..).trans ?_
    | (intro s _ _)
    | (intro s _)
    | (intro s)
    | split
    | dsimp -zeta only)

@[simp] theorem kept_poisonMoves (g : Nat) (ms : List (Nat × Nat × Nat)) (s : State) :
    (poisonMoves g ms s).kept = s.kept := by
  unfold poisonMoves
  repeat' (first | with_reducible rfl | with_reducible refine (kept_updPhys ..).trans ?_ | split)

@[simp] theorem kept_winFail (q : WReq) (status : W16) (cause : Nat) (s : State) :
    (winFail q status cause s).kept = s.kept := by
  unfold winFail
  repeat' (first
    | with_reducible rfl
    | with_reducible refine (kept_updFab ..).trans ?_
    | with_reducible refine (kept_winMaybeDone ..).trans ?_
    | with_reducible refine (kept_failClod ..).trans ?_
    | with_reducible refine (kept_updGuard ..).trans ?_
    | with_reducible refine (kept_poisonMoves ..).trans ?_
    | with_reducible refine (kept_postRec ..).trans ?_
    | with_reducible refine (kept_workDone ..).trans ?_
    | with_reducible refine (kept_segStatus ..).trans ?_
    | with_reducible refine (kept_foldl _ ?_ _ _).trans ?_
    | with_reducible refine (kept_fold2 _ ?_ _ _).trans ?_
    | (intro s _ _)
    | (intro s _)
    | split
    | dsimp -zeta only)

@[simp] theorem kept_failUnreachable (s : State) :
    (failUnreachable s).kept = s.kept := by
  unfold failUnreachable
  repeat' (first
    | with_reducible rfl
    | with_reducible refine (kept_updFab ..).trans ?_
    | with_reducible refine (kept_winFail ..).trans ?_
    | with_reducible refine (kept_foldl _ ?_ _ _).trans ?_
    | with_reducible refine (kept_fold2 _ ?_ _ _).trans ?_
    | (intro s _ _)
    | (intro s _)
    | split
    | dsimp -zeta only)

@[simp] theorem kept_winPutAct (i : Iss) (s : State) :
    (winPutAct i s).kept = s.kept := by
  unfold winPutAct
  repeat' (first
    | with_reducible rfl
    | with_reducible refine (kept_openAtom ..).trans ?_
    | with_reducible refine (kept_failClod ..).trans ?_
    | with_reducible refine (kept_postRec ..).trans ?_
    | with_reducible refine (kept_consumePoison ..).trans ?_
    | with_reducible refine (kept_setWaitFor ..).trans ?_
    | with_reducible refine (kept_addPrep ..).trans ?_
    | with_reducible refine (kept_winAdd ..).trans ?_
    | with_reducible refine (kept_winMaybeDone ..).trans ?_
    | with_reducible refine (kept_failUnreachable ..).trans ?_
    | with_reducible refine (kept_foldl _ ?_ _ _).trans ?_
    | with_reducible refine (kept_fold2 _ ?_ _ _).trans ?_
    | (intro s _ _)
    | (intro s _)
    | split
    | dsimp -zeta only)

@[simp] theorem kept_winLocalWrite (g ser : Nat) (ws : List BitW) (s : State) :
    (winLocalWrite g ser ws s).kept = s.kept := by
  unfold winLocalWrite
  repeat' (first | with_reducible rfl | with_reducible refine (kept_localWrite ..).trans ?_ | split)

@[simp] theorem kept_winRung3 (g ser : Nat) (js : List Nat) (s : State) :
    (winRung3 g ser js s).kept = s.kept := by
  unfold winRung3
  repeat' (first
    | with_reducible rfl
    | with_reducible refine (kept_laneWrite ..).trans ?_
    | with_reducible refine (kept_noteRung ..).trans ?_
    | with_reducible refine (kept_updGuard ..).trans ?_
    | with_reducible refine (kept_foldl _ ?_ _ _).trans ?_
    | with_reducible refine (kept_fold2 _ ?_ _ _).trans ?_
    | (intro s _ _)
    | (intro s _)
    | split
    | dsimp -zeta only)

@[simp] theorem kept_winCutoff (g ser n : Nat) (s : State) :
    (winCutoff g ser n s).kept = s.kept := by
  unfold winCutoff
  repeat' (first
    | with_reducible rfl
    | with_reducible refine (kept_updGuard ..).trans ?_
    | with_reducible refine (kept_dropSource ..).trans ?_
    | with_reducible refine (kept_updFab ..).trans ?_
    | with_reducible refine (kept_winRung3 ..).trans ?_
    | with_reducible refine (kept_winMaybeDone ..).trans ?_
    | with_reducible refine (kept_foldl _ ?_ _ _).trans ?_
    | with_reducible refine (kept_fold2 _ ?_ _ _).trans ?_
    | (intro s _ _)
    | (intro s _)
    | split
    | dsimp -zeta only)

@[simp] theorem kept_winGetAct (i : Iss) (s : State) :
    (winGetAct i s).kept = s.kept := by
  unfold winGetAct
  repeat' (first
    | with_reducible rfl
    | with_reducible assumption
    | (extract_lets +onlyGivenNames x; first
      | (have hx : State.kept x = s.kept := ?_; clear_value x; rename' x => y; on_goal 2 => (dsimp -zeta only [x] <;> clear x))
      | (have hx : State.kept x.2 = s.kept := ?_; clear_value x; rename' x => y; on_goal 2 => (dsimp -zeta only [x] <;> clear x))
      | (have hx : State.kept x.2.2 = s.kept := ?_; clear_value x; rename' x => y; on_goal 2 => (dsimp -zeta only [x] <;> clear x))
      | (clear_value x; rename' x => y)
      | (rename' x => y))
    | with_reducible refine (kept_setWaitFor ..).trans ?_
    | with_reducible refine (kept_updOut ..).trans ?_
    | with_reducible refine (kept_winRung3 ..).trans ?_
    | with_reducible refine (kept_openAtom ..).trans ?_
    | with_reducible refine (kept_winAdd ..).trans ?_
    | with_reducible refine (kept_updGuard ..).trans ?_
    | with_reducible refine (kept_failUnreachable ..).trans ?_
    | with_reducible refine (kept_winCutoff ..).trans ?_
    | with_reducible refine (kept_winMaybeDone ..).trans ?_
    | with_reducible refine (kept_foldl _ ?_ _ _).trans ?_
    | with_reducible refine (kept_fold2 _ ?_ _ _).trans ?_
    | (intro s _ _)
    | (intro s _)
    | split
    | dsimp -zeta only
    | simp -zeta only [*])

@[simp] theorem kept_doWinPut (g t : Nat) (s : State) :
    (doWinPut g t s).kept = s.kept := by
  unfold doWinPut
  exact kept_issueRow _ _ _ (fun _ _ => kept_winPutAct ..) _ _ _

@[simp] theorem kept_doWinGet (g t : Nat) (s : State) :
    (doWinGet g t s).kept = s.kept := by
  unfold doWinGet
  exact kept_issueRow _ _ _ (fun _ _ => kept_winGetAct ..) _ _ _

@[simp] theorem kept_refusedAt (ctx p g : Nat) (s : State) :
    (refusedAt ctx p g s).kept = s.kept := by
  unfold refusedAt
  repeat' (first | with_reducible rfl | with_reducible refine (kept_updPed2 ..).trans ?_ | with_reducible refine (kept_updCtx ..).trans ?_ | split)

@[simp] theorem kept_countRefused (s0 : State) (w : Option Win) (off n : Nat) (s : State) :
    (countRefused s0 w off n s).kept = s.kept := by
  unfold countRefused
  repeat' (first
    | with_reducible rfl
    | with_reducible assumption
    | (extract_lets +onlyGivenNames x; first
      | (have hx : State.kept x = s.kept := ?_; clear_value x; rename' x => y; on_goal 2 => (dsimp -zeta only [x] <;> clear x))
      | (clear_value x; rename' x => y)
      | (rename' x => y))
    | with_reducible refine (kept_refusedAt ..).trans ?_
    | split
    | dsimp -zeta only
    | simp -zeta only [*])

@[simp] theorem kept_winStore (w : Win) (off : Nat) (data : List Byte) (poison : Bool) (s : State) :
    (winStore w off data poison s).kept = s.kept := by
  unfold winStore
  repeat' (first
    | with_reducible rfl
    | with_reducible refine (kept_objWriteAt ..).trans ?_
    | with_reducible refine (kept_objSetPoison ..).trans ?_
    | split
    | dsimp -zeta only)

@[simp] theorem kept_rsemPart (n : Nat) (w : Win) (x : WinSide) (src k bytes : Nat) (s : State) :
    (rsemPart n w x src k bytes s).kept = s.kept := by
  unfold rsemPart
  repeat' (first
    | with_reducible rfl
    | with_reducible assumption
    | (extract_lets +onlyGivenNames x; first
      | (have hx : State.kept x = s.kept := ?_; clear_value x; rename' x => y; on_goal 2 => (dsimp -zeta only [x] <;> clear x))
      | (clear_value x; rename' x => y)
      | (rename' x => y))
    | with_reducible refine (kept_updFab ..).trans ?_
    | with_reducible refine (kept_semAdd ..).trans ?_
    | with_reducible refine (kept_updSeg ..).trans ?_
    | split
    | dsimp -zeta only
    | simp -zeta only [*])

@[simp] theorem kept_winSignal (n : Nat) (w : Win) (x : WinSide) (src off len : Nat) (s : State) :
    (winSignal n w x src off len s).kept = s.kept := by
  unfold winSignal
  repeat' (first
    | with_reducible rfl
    | with_reducible assumption
    | (extract_lets +onlyGivenNames x; first
      | (have hx : State.kept x = s.kept := ?_; clear_value x; rename' x => y; on_goal 2 => (dsimp -zeta only [x] <;> clear x))
      | (clear_value x; rename' x => y)
      | (rename' x => y))
    | with_reducible refine (kept_rsemPart ..).trans ?_
    | with_reducible refine (kept_foldl _ ?_ _ _).trans ?_
    | with_reducible refine (kept_fold2 _ ?_ _ _).trans ?_
    | (intro s _ _)
    | (intro s _)
    | split
    | dsimp -zeta only
    | simp -zeta only [*])

@[simp] theorem kept_winReply (f : Flit) (op len status : Nat) (payload : List Byte) (bad : Bool) (s : State) :
    (winReply f op len status payload bad s).kept = s.kept := by
  unfold winReply
  repeat' (first | with_reducible rfl | with_reducible refine (kept_emit ..).trans ?_ | with_reducible refine (kept_routeFlit ..).trans ?_ | split)

@[simp] theorem kept_ackUnit (n : Nat) (f : Flit) (s : State) :
    (ackUnit n f s).kept = s.kept := by
  unfold ackUnit
  repeat' (first
    | with_reducible rfl
    | with_reducible assumption
    | (extract_lets +onlyGivenNames x; first
      | (have hx : State.kept x = s.kept := ?_; clear_value x; rename' x => y; on_goal 2 => (dsimp -zeta only [x] <;> clear x))
      | (clear_value x; rename' x => y)
      | (rename' x => y))
    | with_reducible refine (kept_winReply ..).trans ?_
    | with_reducible refine (kept_updFab ..).trans ?_
    | split
    | dsimp -zeta only
    | simp -zeta only [*])

@[simp] theorem kept_winRead (f : Flit) (len : Nat) (got : List (Nat × Byte × Bool)) (s : State) :
    (winRead f len got s).kept = s.kept := by
  unfold winRead
  repeat' (first | with_reducible rfl | with_reducible refine (kept_winReply ..).trans ?_ | split)

@[simp] theorem kept_winRequests (n : Nat) (w : Win) (o : Obj) (f : Flit) (x : WinSide) (s : State) :
    (winRequests n w o f x s).kept = s.kept := by
  unfold winRequests
  repeat' (first
    | with_reducible rfl
    | with_reducible refine (kept_addReqAt ..).trans ?_
    | with_reducible refine (kept_foldl _ ?_ _ _).trans ?_
    | with_reducible refine (kept_fold2 _ ?_ _ _).trans ?_
    | (intro s _ _)
    | (intro s _)
    | split
    | dsimp -zeta only)

@[simp] theorem kept_winServed (q : Req) (f : Flit) (x : WinSide) (n : Nat) (ans : HzAnswer) (s : State) :
    (winServed q f x n ans s).kept = s.kept := by
  unfold winServed
  repeat' (first
    | with_reducible rfl
    | with_reducible assumption
    | (extract_lets +onlyGivenNames x; first
      | (have hx : State.kept x = s.kept := ?_; clear_value x; rename' x => y; on_goal 2 => (dsimp -zeta only [x] <;> clear x))
      | (have hx : State.kept x.2 = s.kept := ?_; clear_value x; rename' x => y; on_goal 2 => (dsimp -zeta only [x] <;> clear x))
      | (have hx : State.kept x.2.2 = s.kept := ?_; clear_value x; rename' x => y; on_goal 2 => (dsimp -zeta only [x] <;> clear x))
      | (clear_value x; rename' x => y)
      | (rename' x => y))
    | with_reducible refine (kept_closeIfIdle ..).trans ?_
    | with_reducible refine (kept_ackUnit ..).trans ?_
    | with_reducible refine (kept_winStore ..).trans ?_
    | with_reducible refine (kept_sourceRead ..).trans ?_
    | with_reducible refine (kept_updFab ..).trans ?_
    | with_reducible refine (kept_winRead ..).trans ?_
    | split
    | dsimp -zeta only
    | simp -zeta only [*])

@[simp] theorem kept_endAccess (a : WinAcc) (s : State) :
    (endAccess a s).kept = s.kept := by
  unfold endAccess
  repeat' (first
    | with_reducible rfl
    | with_reducible assumption
    | (extract_lets +onlyGivenNames x; first
      | (have hx : State.kept x = s.kept := ?_; clear_value x; rename' x => y; on_goal 2 => (dsimp -zeta only [x] <;> clear x))
      | (clear_value x; rename' x => y)
      | (rename' x => y))
    | with_reducible refine (kept_updFab ..).trans ?_
    | with_reducible refine (kept_winSignal ..).trans ?_
    | with_reducible refine (kept_closeIfIdle ..).trans ?_
    | with_reducible refine (kept_winRead ..).trans ?_
    | with_reducible refine (kept_ackUnit ..).trans ?_
    | split
    | dsimp -zeta only
    | simp -zeta only [*])

@[simp] theorem kept_serveScratch (n : Nat) (w : Win) (f : Option Flit) (x : WinSide) (src off len : Nat) (data : List Byte) (s : State) :
    (serveScratch n w f x src off len data s).kept = s.kept := by
  unfold serveScratch
  repeat' (first
    | with_reducible rfl
    | with_reducible assumption
    | (extract_lets +onlyGivenNames x; first
      | (have hx : State.kept x = s.kept := ?_; clear_value x; rename' x => y; on_goal 2 => (dsimp -zeta only [x] <;> clear x))
      | (clear_value x; rename' x => y)
      | (rename' x => y))
    | with_reducible refine (kept_updFab ..).trans ?_
    | with_reducible refine (kept_queueLanes ..).trans ?_
    | with_reducible refine (kept_endAccess ..).trans ?_
    | with_reducible refine (kept_foldl _ ?_ _ _).trans ?_
    | with_reducible refine (kept_fold2 _ ?_ _ _).trans ?_
    | (intro s _ _)
    | (intro s _)
    | split
    | dsimp -zeta only
    | simp -zeta only [*])

@[simp] theorem kept_doWindowAccessArrive (f : Flit) (x : WinSide) (s : State) :
    (doWindowAccessArrive f x s).kept = s.kept := by
  unfold doWindowAccessArrive
  repeat' (first
    | with_reducible rfl
    | with_reducible assumption
    | (extract_lets +onlyGivenNames x; first
      | (have hx : State.kept x = s.kept := ?_; clear_value x; rename' x => y; on_goal 2 => (dsimp -zeta only [x] <;> clear x))
      | (have hx : State.kept x.2 = s.kept := ?_; clear_value x; rename' x => y; on_goal 2 => (dsimp -zeta only [x] <;> clear x))
      | (have hx : State.kept x.2.2 = s.kept := ?_; clear_value x; rename' x => y; on_goal 2 => (dsimp -zeta only [x] <;> clear x))
      | (have hx : ∀ s, State.kept (x s) = s.kept := ?_; clear_value x; rename' x => y; on_goal 2 => (intro s; dsimp -zeta only [x] <;> clear x))
      | (have hx : ∀ a, State.kept (x a) = s.kept := ?_; clear_value x; rename' x => y; on_goal 2 => (intro a; dsimp -zeta only [x] <;> clear x))
      | (have hx : ∀ a s, State.kept (x a s) = s.kept := ?_; clear_value x; rename' x => y; on_goal 2 => (intro a s; dsimp -zeta only [x] <;> clear x))
      | (have hx : ∀ a b s, State.kept (x a b s) = s.kept := ?_; clear_value x; rename' x => y; on_goal 2 => (intro a b s; dsimp -zeta only [x] <;> clear x))
      | (have hx : ∀ a b c s, State.kept (x a b c s) = s.kept := ?_; clear_value x; rename' x => y; on_goal 2 => (intro a b c s; dsimp -zeta only [x] <;> clear x))
      | (have hx : ∀ a b c d s, State.kept (x a b c d s) = s.kept := ?_; clear_value x; rename' x => y; on_goal 2 => (intro a b c d s; dsimp -zeta only [x] <;> clear x))
      | (have hx : ∀ a b c d e s, State.kept (x a b c d e s) = s.kept := ?_; clear_value x; rename' x => y; on_goal 2 => (intro a b c d e s; dsimp -zeta only [x] <;> clear x))
      | (have hx : ∀ a b, State.kept (x a b) = s.kept := ?_; clear_value x; rename' x => y; on_goal 2 => (intro a b; dsimp -zeta only [x] <;> clear x))
      | (have hx : ∀ a b c, State.kept (x a b c) = s.kept := ?_; clear_value x; rename' x => y; on_goal 2 => (intro a b c; dsimp -zeta only [x] <;> clear x))
      | (clear_value x; rename' x => y)
      | (rename' x => y))
    | with_reducible refine (kept_winReply ..).trans ?_
    | with_reducible refine (kept_countRefused ..).trans ?_
    | with_reducible refine (kept_updFab ..).trans ?_
    | with_reducible refine (kept_ackUnit ..).trans ?_
    | with_reducible refine (kept_winRequests ..).trans ?_
    | with_reducible refine (kept_serveScratch ..).trans ?_
    | split
    | dsimp -zeta only
    | simp -zeta only [*])

@[simp] theorem kept_doClodDecisionApply (pkg clod : Nat) (commit : Bool) (s : State) :
    (doClodDecisionApply pkg clod commit s).kept = s.kept := by
  unfold doClodDecisionApply
  repeat' (first
    | with_reducible rfl
    | with_reducible refine (kept_updFab ..).trans ?_
    | with_reducible refine (kept_serveScratch ..).trans ?_
    | with_reducible refine (kept_winStore ..).trans ?_
    | with_reducible refine (kept_closeIfIdle ..).trans ?_
    | with_reducible refine (kept_winSignal ..).trans ?_
    | with_reducible refine (kept_foldl _ ?_ _ _).trans ?_
    | with_reducible refine (kept_fold2 _ ?_ _ _).trans ?_
    | (intro s _ _)
    | (intro s _)
    | split
    | dsimp -zeta only)

@[simp] theorem kept_doWindowResponseArrive (f : Flit) (poison : Bool) (s : State) :
    (doWindowResponseArrive f poison s).kept = s.kept := by
  unfold doWindowResponseArrive
  repeat' (first
    | with_reducible rfl
    | with_reducible assumption
    | (extract_lets +onlyGivenNames x; first
      | (have hx : State.kept x = s.kept := ?_; clear_value x; rename' x => y; on_goal 2 => (dsimp -zeta only [x] <;> clear x))
      | (have hx : State.kept x.2 = s.kept := ?_; clear_value x; rename' x => y; on_goal 2 => (dsimp -zeta only [x] <;> clear x))
      | (have hx : State.kept x.2.2 = s.kept := ?_; clear_value x; rename' x => y; on_goal 2 => (dsimp -zeta only [x] <;> clear x))
      | (have hx : ∀ s, State.kept (x s) = s.kept := ?_; clear_value x; rename' x => y; on_goal 2 => (intro s; dsimp -zeta only [x] <;> clear x))
      | (have hx : ∀ a, State.kept (x a) = s.kept := ?_; clear_value x; rename' x => y; on_goal 2 => (intro a; dsimp -zeta only [x] <;> clear x))
      | (have hx : ∀ a s, State.kept (x a s) = s.kept := ?_; clear_value x; rename' x => y; on_goal 2 => (intro a s; dsimp -zeta only [x] <;> clear x))
      | (clear_value x; rename' x => y)
      | (rename' x => y))
    | with_reducible refine (kept_updFab ..).trans ?_
    | with_reducible refine (kept_noteLateArr ..).trans ?_
    | with_reducible refine (kept_winFail ..).trans ?_
    | with_reducible refine (kept_winMaybeDone ..).trans ?_
    | with_reducible refine (kept_failClod ..).trans ?_
    | with_reducible refine (kept_addPrep ..).trans ?_
    | with_reducible refine (kept_consumePoison ..).trans ?_
    | with_reducible refine (kept_winLocalWrite ..).trans ?_
    | split
    | dsimp -zeta only
    | simp -zeta only [*])

@[simp] theorem kept_doRemoteTimeout (rtag : Nat) (s : State) :
    (doRemoteTimeout rtag s).kept = s.kept := by
  unfold doRemoteTimeout
  repeat' (first
    | with_reducible rfl
    | with_reducible assumption
    | (extract_lets +onlyGivenNames x; first
      | (have hx : State.kept x = s.kept := ?_; clear_value x; rename' x => y; on_goal 2 => (dsimp -zeta only [x] <;> clear x))
      | (clear_value x; rename' x => y)
      | (rename' x => y))
    | with_reducible refine (kept_updFab ..).trans ?_
    | with_reducible refine (kept_winFail ..).trans ?_
    | split
    | dsimp -zeta only
    | simp -zeta only [*])

@[simp] theorem kept_doTagGrant (pool : Pool) (s : State) :
    (doTagGrant pool s).kept = s.kept := by
  unfold doTagGrant
  repeat' (first
    | with_reducible rfl
    | with_reducible assumption
    | (extract_lets +onlyGivenNames x; first
      | (have hx : State.kept x = s.kept := ?_; clear_value x; rename' x => y; on_goal 2 => (dsimp -zeta only [x] <;> clear x))
      | (clear_value x; rename' x => y)
      | (rename' x => y))
    | with_reducible refine (kept_failUnreachable ..).trans ?_
    | with_reducible refine (kept_settle ..).trans ?_
    | with_reducible refine (kept_winSend ..).trans ?_
    | with_reducible refine (kept_grantReq ..).trans ?_
    | split
    | dsimp -zeta only
    | simp -zeta only [*])

/-! ## Lanes -/

@[simp] theorem kept_lineIn (e : PendW) (va : Nat) (s : State) :
    (lineIn e va s).kept = s.kept := by
  unfold lineIn
  repeat' (first
    | with_reducible rfl
    | with_reducible assumption
    | (extract_lets +onlyGivenNames x; first
      | (have hx : State.kept x = s.kept := ?_; clear_value x; rename' x => y; on_goal 2 => (dsimp -zeta only [x] <;> clear x))
      | (clear_value x; rename' x => y)
      | (rename' x => y))
    | with_reducible refine (kept_settle ..).trans ?_
    | with_reducible refine (kept_touchLines ..).trans ?_
    | with_reducible refine (kept_fillLine ..).trans ?_
    | split
    | dsimp -zeta only
    | simp -zeta only [*])

@[simp] theorem kept_lineOut (e : PendW) (va : Nat) (s : State) :
    (lineOut e va s).kept = s.kept := by
  unfold lineOut
  repeat' (first | with_reducible rfl | with_reducible refine (kept_addReqAt ..).trans ?_ | with_reducible refine (kept_workDone ..).trans ?_ | split)

@[simp] theorem kept_lanePassed (q base : Nat) (e : PendW) (lane : Nat) (s : State) :
    (lanePassed q base e lane s).kept = s.kept := by
  unfold lanePassed
  repeat' (first
    | with_reducible rfl
    | with_reducible assumption
    | (extract_lets +onlyGivenNames x; first
      | (have hx : State.kept x = s.kept := ?_; clear_value x; rename' x => y; on_goal 2 => (dsimp -zeta only [x] <;> clear x))
      | (clear_value x; rename' x => y)
      | (rename' x => y))
    | with_reducible refine (kept_noteBytes ..).trans ?_
    | with_reducible refine (kept_updPhys ..).trans ?_
    | with_reducible refine (kept_lineIn ..).trans ?_
    | with_reducible refine (kept_lineOut ..).trans ?_
    | with_reducible refine (kept_rungServed ..).trans ?_
    | with_reducible refine (kept_workDone ..).trans ?_
    | with_reducible refine (kept_updFab ..).trans ?_
    | with_reducible refine (kept_endAccess ..).trans ?_
    | with_reducible refine (kept_foldl _ ?_ _ _).trans ?_
    | with_reducible refine (kept_fold2 _ ?_ _ _).trans ?_
    | (intro s _ _)
    | (intro s _)
    | split
    | dsimp -zeta only
    | simp -zeta only [*])

@[simp] theorem kept_bankSlot (q b : Nat) (s : State) :
    (bankSlot q b s).kept = s.kept := by
  unfold bankSlot
  repeat' (first
    | with_reducible rfl
    | with_reducible assumption
    | (extract_lets +onlyGivenNames x; first
      | (have hx : State.kept x = s.kept := ?_; clear_value x; rename' x => y; on_goal 2 => (dsimp -zeta only [x] <;> clear x))
      | (clear_value x; rename' x => y)
      | (rename' x => y))
    | with_reducible refine (kept_lanePassed ..).trans ?_
    | with_reducible refine (kept_landLane ..).trans ?_
    | with_reducible refine (kept_updPhys ..).trans ?_
    | split
    | dsimp -zeta only
    | simp -zeta only [*])

@[simp] theorem kept_laneStep (s : State) :
    (laneStep s).kept = s.kept := by
  unfold laneStep
  repeat' (first
    | with_reducible rfl
    | with_reducible refine (kept_bankSlot ..).trans ?_
    | with_reducible refine (kept_foldl _ ?_ _ _).trans ?_
    | with_reducible refine (kept_fold2 _ ?_ _ _).trans ?_
    | (intro s _ _)
    | (intro s _)
    | split
    | dsimp -zeta only)

@[simp] theorem kept_noteCorrected (s : State) :
    (noteCorrected s).kept = s.kept := by
  unfold noteCorrected
  with_reducible rfl

@[simp] theorem kept_loseStep (ctx : Nat) (s : State) :
    (loseStep ctx s).kept = s.kept := by
  unfold loseStep
  repeat' (first | with_reducible rfl | with_reducible refine (kept_stopSeg ..).trans ?_ | split)

@[simp] theorem kept_eccStep (s : State) :
    (eccStep s).kept = s.kept := by
  unfold eccStep
  repeat' (first
    | with_reducible rfl
    | with_reducible assumption
    | (extract_lets +onlyGivenNames x; first
      | (have hx : State.kept x = s.kept := ?_; clear_value x; rename' x => y; on_goal 2 => (dsimp -zeta only [x] <;> clear x))
      | (clear_value x; rename' x => y)
      | (rename' x => y))
    | with_reducible refine (kept_updPhys ..).trans ?_
    | with_reducible refine (kept_noteCorrected ..).trans ?_
    | with_reducible refine (kept_updPed2 ..).trans ?_
    | with_reducible refine (kept_updGrain ..).trans ?_
    | with_reducible refine (kept_updHz ..).trans ?_
    | with_reducible refine (kept_loseStep ..).trans ?_
    | split
    | dsimp -zeta only
    | simp -zeta only [*])

/-! ## Sync -/

@[simp] theorem kept_noteLateBarrier (i : Iss) (planned : Nat) (s : State) :
    (noteLateBarrier i planned s).kept = s.kept := by
  unfold noteLateBarrier
  repeat' (first
    | with_reducible rfl
    | with_reducible assumption
    | (extract_lets +onlyGivenNames x; first
      | (have hx : State.kept x = s.kept := ?_; clear_value x; rename' x => y; on_goal 2 => (dsimp -zeta only [x] <;> clear x))
      | (clear_value x; rename' x => y)
      | (rename' x => y))
    | with_reducible refine (kept_updPed2 ..).trans ?_
    | split
    | dsimp -zeta only
    | simp -zeta only [*])

@[simp] theorem kept_releaseBarrier (ctx bid : Nat) (s : State) :
    (releaseBarrier ctx bid s).kept = s.kept := by
  unfold releaseBarrier
  with_reducible rfl

@[simp] theorem kept_barrierAct (i : Iss) (s : State) :
    (barrierAct i s).kept = s.kept := by
  unfold barrierAct
  repeat' (first
    | with_reducible rfl
    | with_reducible assumption
    | (extract_lets +onlyGivenNames x; first
      | (have hx : State.kept x = s.kept := ?_; clear_value x; rename' x => y; on_goal 2 => (dsimp -zeta only [x] <;> clear x))
      | (clear_value x; rename' x => y)
      | (rename' x => y))
    | with_reducible refine (kept_updSeg ..).trans ?_
    | with_reducible refine (kept_setWaitFor ..).trans ?_
    | with_reducible refine (kept_releaseBarrier ..).trans ?_
    | with_reducible refine (kept_noteLateBarrier ..).trans ?_
    | split
    | dsimp -zeta only
    | simp -zeta only [*])

@[simp] theorem kept_doBarrier (g t : Nat) (s : State) :
    (doBarrier g t s).kept = s.kept := by
  unfold doBarrier
  exact kept_issueRow _ _ _ (fun _ _ => kept_barrierAct ..) _ _ _

@[simp] theorem kept_semWaitAct (i : Iss) (s : State) :
    (semWaitAct i s).kept = s.kept := by
  unfold semWaitAct
  repeat' (first
    | with_reducible rfl
    | with_reducible assumption
    | (extract_lets +onlyGivenNames x; first
      | (have hx : State.kept x = s.kept := ?_; clear_value x; rename' x => y; on_goal 2 => (dsimp -zeta only [x] <;> clear x))
      | (clear_value x; rename' x => y)
      | (rename' x => y))
    | with_reducible refine (kept_setWaitFor ..).trans ?_
    | with_reducible refine (kept_updCtx ..).trans ?_
    | with_reducible refine (kept_semGrant ..).trans ?_
    | split
    | dsimp -zeta only
    | simp -zeta only [*])

@[simp] theorem kept_semSignalAct (i : Iss) (s : State) :
    (semSignalAct i s).kept = s.kept := by
  unfold semSignalAct
  repeat' (first | with_reducible rfl | with_reducible refine (kept_addPrep ..).trans ?_ | with_reducible refine (kept_semAdd ..).trans ?_ | split)

@[simp] theorem kept_doSemWait (g t : Nat) (s : State) :
    (doSemWait g t s).kept = s.kept := by
  unfold doSemWait
  exact kept_issueRow _ _ _ (fun _ _ => kept_semWaitAct ..) _ _ _

@[simp] theorem kept_doSemSignal (g t : Nat) (s : State) :
    (doSemSignal g t s).kept = s.kept := by
  unfold doSemSignal
  exact kept_issueRow _ _ _ (fun _ _ => kept_semSignalAct ..) _ _ _

@[simp] theorem kept_deadlineAct (i : Iss) (s : State) :
    (deadlineAct i s).kept = s.kept := by
  unfold deadlineAct
  repeat' (first | with_reducible rfl | with_reducible refine (kept_updThr ..).trans ?_ | split)

@[simp] theorem kept_doDeadline (g t : Nat) (s : State) :
    (doDeadline g t s).kept = s.kept := by
  unfold doDeadline
  exact kept_issueRow _ _ _ (fun _ _ => kept_deadlineAct ..) _ _ _

@[simp] theorem kept_cutoff (g ser n : Nat) (s : State) :
    (cutoff g ser n s).kept = s.kept := by
  unfold cutoff
  repeat' (first
    | with_reducible rfl
    | with_reducible refine (kept_dmaCutoff ..).trans ?_
    | with_reducible refine (kept_gatherCutoff ..).trans ?_
    | with_reducible refine (kept_winCutoff ..).trans ?_
    | split
    | dsimp -zeta only)

@[simp] theorem kept_cutoffs (g t n : Nat) (s : State) :
    (cutoffs g t n s).kept = s.kept := by
  unfold cutoffs
  repeat' (first
    | with_reducible rfl
    | with_reducible refine (kept_cutoff ..).trans ?_
    | with_reducible refine (kept_foldl _ ?_ _ _).trans ?_
    | with_reducible refine (kept_fold2 _ ?_ _ _).trans ?_
    | (intro s _ _)
    | (intro s _)
    | split
    | dsimp -zeta only)

@[simp] theorem kept_doDeadlineDue (g t : Nat) (s : State) :
    (doDeadlineDue g t s).kept = s.kept := by
  unfold doDeadlineDue
  repeat' (first | with_reducible rfl | with_reducible refine (kept_cutoffs ..).trans ?_ | split)

@[simp] theorem kept_doDeadlineRung2Cutoff (g t : Nat) (s : State) :
    (doDeadlineRung2Cutoff g t s).kept = s.kept := by
  unfold doDeadlineRung2Cutoff
  repeat' (first | with_reducible rfl | with_reducible refine (kept_cutoffs ..).trans ?_ | split)

@[simp] theorem kept_doDeadlineRung3Cutoff (g t : Nat) (s : State) :
    (doDeadlineRung3Cutoff g t s).kept = s.kept := by
  unfold doDeadlineRung3Cutoff
  repeat' (first | with_reducible rfl | with_reducible refine (kept_cutoffs ..).trans ?_ | split)

@[simp] theorem kept_clodBeginAct (i : Iss) (s : State) :
    (clodBeginAct i s).kept = s.kept := by
  unfold clodBeginAct
  repeat' (first | with_reducible rfl | with_reducible refine (kept_updThr ..).trans ?_ | split)

@[simp] theorem kept_clodCommitAct (i : Iss) (s : State) :
    (clodCommitAct i s).kept = s.kept := by
  unfold clodCommitAct
  repeat' (first
    | with_reducible rfl
    | with_reducible refine (kept_setWaitFor ..).trans ?_
    | with_reducible refine (kept_updClod ..).trans ?_
    | split
    | dsimp -zeta only)

@[simp] theorem kept_clodAbortAct (i : Iss) (s : State) :
    (clodAbortAct i s).kept = s.kept := by
  unfold clodAbortAct
  repeat' (first | with_reducible rfl | with_reducible refine (kept_updThr ..).trans ?_ | with_reducible refine (kept_updClod ..).trans ?_ | split)

@[simp] theorem kept_doClodBegin (g t : Nat) (s : State) :
    (doClodBegin g t s).kept = s.kept := by
  unfold doClodBegin
  exact kept_issueRow _ _ _ (fun _ _ => kept_clodBeginAct ..) _ _ _

@[simp] theorem kept_doClodCommit (g t : Nat) (s : State) :
    (doClodCommit g t s).kept = s.kept := by
  unfold doClodCommit
  exact kept_issueRow _ _ _ (fun _ _ => kept_clodCommitAct ..) _ _ _

@[simp] theorem kept_doClodAbort (g t : Nat) (s : State) :
    (doClodAbort g t s).kept = s.kept := by
  unfold doClodAbort
  exact kept_issueRow _ _ _ (fun _ _ => kept_clodAbortAct ..) _ _ _

@[simp] theorem kept_releaseCommits (key outcome : Nat) (s : State) :
    (releaseCommits key outcome s).kept = s.kept := by
  unfold releaseCommits
  repeat' (first
    | with_reducible rfl
    | with_reducible refine (kept_lsWriteBytes ..).trans ?_
    | with_reducible refine (kept_updThr ..).trans ?_
    | with_reducible refine (kept_workDone ..).trans ?_
    | with_reducible refine (kept_foldl _ ?_ _ _).trans ?_
    | with_reducible refine (kept_fold2 _ ?_ _ _).trans ?_
    | (intro s _ _)
    | (intro s _)
    | split
    | dsimp -zeta only)

@[simp] theorem kept_doClodDecision (ctx key : Nat) (s : State) :
    (doClodDecision ctx key s).kept = s.kept := by
  unfold doClodDecision
  repeat' (first
    | with_reducible rfl
    | with_reducible refine (kept_emit ..).trans ?_
    | with_reducible refine (kept_applyAllS ..).trans ?_
    | with_reducible refine (kept_clodAbortRec ..).trans ?_
    | with_reducible refine (kept_releaseCommits ..).trans ?_
    | with_reducible refine (kept_foldl _ ?_ _ _).trans ?_
    | with_reducible refine (kept_fold2 _ ?_ _ _).trans ?_
    | (intro s _ _)
    | (intro s _)
    | split
    | dsimp -zeta only)

@[simp] theorem kept_specBeginAct (i : Iss) (s : State) :
    (specBeginAct i s).kept = s.kept := by
  unfold specBeginAct
  repeat' (first | with_reducible rfl | with_reducible refine (kept_updThr ..).trans ?_ | with_reducible refine (kept_bump ..).trans ?_ | split)

@[simp] theorem kept_doSpecBegin (g t : Nat) (s : State) :
    (doSpecBegin g t s).kept = s.kept := by
  unfold doSpecBegin
  exact kept_issueRow _ _ _ (fun _ _ => kept_specBeginAct ..) _ _ _

@[simp] theorem kept_enterAlt (g t altLen : Nat) (s : State) :
    (enterAlt g t altLen s).kept = s.kept := by
  unfold enterAlt
  repeat' (first | with_reducible rfl | with_reducible refine (kept_updGrain ..).trans ?_ | with_reducible refine (kept_updThr ..).trans ?_ | split)

@[simp] theorem kept_undefStage (i : Iss) (k : SpecTask) (s : State) :
    (undefStage i k s).kept = s.kept := by
  unfold undefStage
  repeat' (first
    | with_reducible rfl
    | with_reducible refine (kept_freeBits ..).trans ?_
    | with_reducible refine (kept_freeBool ..).trans ?_
    | with_reducible refine (kept_lsWrite ..).trans ?_
    | split
    | dsimp -zeta only)

@[simp] theorem kept_settleSpec (g ser : Nat) (s : State) :
    (settleSpec g ser s).kept = s.kept := by
  unfold settleSpec
  repeat' (first
    | with_reducible rfl
    | with_reducible assumption
    | (extract_lets +onlyGivenNames x; first
      | (have hx : State.kept x = s.kept := ?_; clear_value x; rename' x => y; on_goal 2 => (dsimp -zeta only [x] <;> clear x))
      | (clear_value x; rename' x => y)
      | (rename' x => y))
    | with_reducible refine (kept_workDone ..).trans ?_
    | with_reducible refine (kept_enterAlt ..).trans ?_
    | with_reducible refine (kept_consumePoison ..).trans ?_
    | with_reducible refine (kept_releaseOut ..).trans ?_
    | with_reducible refine (kept_updThr ..).trans ?_
    | with_reducible refine (kept_updCtx ..).trans ?_
    | with_reducible refine (kept_bump ..).trans ?_
    | with_reducible refine (kept_jumpTo ..).trans ?_
    | with_reducible refine (kept_undefStage ..).trans ?_
    | with_reducible refine (kept_foldl _ ?_ _ _).trans ?_
    | with_reducible refine (kept_fold2 _ ?_ _ _).trans ?_
    | (intro s _ _)
    | (intro s _)
    | split
    | dsimp -zeta only
    | simp -zeta only [*])

@[simp] theorem kept_specResolveAct (i : Iss) (s : State) :
    (specResolveAct i s).kept = s.kept := by
  unfold specResolveAct
  repeat' (first
    | with_reducible rfl
    | with_reducible refine (kept_updThr ..).trans ?_
    | with_reducible refine (kept_settleSpec ..).trans ?_
    | with_reducible refine (kept_setWaitFor ..).trans ?_
    | split
    | dsimp -zeta only)

@[simp] theorem kept_doSpecResolve (g t : Nat) (s : State) :
    (doSpecResolve g t s).kept = s.kept := by
  unfold doSpecResolve
  exact kept_issueRow _ _ _ (fun _ _ => kept_specResolveAct ..) _ _ _

@[simp] theorem kept_rerunDiff (ctx item idx : Nat) (s : State) :
    (rerunDiff ctx item idx s).kept = s.kept := by
  unfold rerunDiff
  repeat' (first | with_reducible rfl | with_reducible refine (kept_postRec ..).trans ?_ | with_reducible refine (kept_updCtx ..).trans ?_ | split)

@[simp] theorem kept_secureMarkAct (i : Iss) (s : State) :
    (secureMarkAct i s).kept = s.kept := by
  unfold secureMarkAct
  repeat' (first
    | with_reducible rfl
    | with_reducible assumption
    | (extract_lets +onlyGivenNames x; first
      | (have hx : State.kept x = s.kept := ?_; clear_value x; rename' x => y; on_goal 2 => (dsimp -zeta only [x] <;> clear x))
      | (clear_value x; rename' x => y)
      | (rename' x => y))
    | with_reducible refine (kept_consumePoison ..).trans ?_
    | with_reducible refine (kept_updCtx ..).trans ?_
    | with_reducible refine (kept_segStatus ..).trans ?_
    | with_reducible refine (kept_rerunDiff ..).trans ?_
    | split
    | dsimp -zeta only
    | simp -zeta only [*])

@[simp] theorem kept_doSecureMark (g t : Nat) (s : State) :
    (doSecureMark g t s).kept = s.kept := by
  unfold doSecureMark
  exact kept_issueRow _ _ _ (fun _ _ => kept_secureMarkAct ..) _ _ _

@[simp] theorem kept_pmcMarkAct (i : Iss) (s : State) :
    (pmcMarkAct i s).kept = s.kept := by
  unfold pmcMarkAct
  repeat' (first
    | with_reducible rfl
    | with_reducible refine (kept_addSample ..).trans ?_
    | with_reducible refine (kept_doDescriptorComplete ..).trans ?_
    | with_reducible refine (kept_updOut ..).trans ?_
    | split
    | dsimp -zeta only)

@[simp] theorem kept_doPmcMark (g t : Nat) (s : State) :
    (doPmcMark g t s).kept = s.kept := by
  unfold doPmcMark
  exact kept_issueRow _ _ _ (fun _ _ => kept_pmcMarkAct ..) _ _ _

@[simp] theorem kept_endClods (i : Iss) (s : State) :
    (endClods i s).kept = s.kept := by
  unfold endClods
  repeat' (first
    | with_reducible rfl
    | with_reducible refine (kept_updClod ..).trans ?_
    | with_reducible refine (kept_failClod ..).trans ?_
    | with_reducible refine (kept_foldl _ ?_ _ _).trans ?_
    | with_reducible refine (kept_fold2 _ ?_ _ _).trans ?_
    | (intro s _ _)
    | (intro s _)
    | split
    | dsimp -zeta only)

@[simp] theorem kept_endAct (i : Iss) (s : State) :
    (endAct i s).kept = s.kept := by
  unfold endAct
  repeat' (first
    | with_reducible rfl
    | with_reducible assumption
    | (extract_lets +onlyGivenNames x; first
      | (have hx : State.kept x = s.kept := ?_; clear_value x; rename' x => y; on_goal 2 => (dsimp -zeta only [x] <;> clear x))
      | (clear_value x; rename' x => y)
      | (rename' x => y))
    | with_reducible refine (kept_endClods ..).trans ?_
    | with_reducible refine (kept_doDescriptorComplete ..).trans ?_
    | split
    | dsimp -zeta only
    | simp -zeta only [*])

@[simp] theorem kept_doEndOp (g t : Nat) (s : State) :
    (doEndOp g t s).kept = s.kept := by
  unfold doEndOp
  exact kept_issueRow _ _ _ (fun _ _ => kept_endAct ..) _ _ _

@[simp] theorem kept_doNotbeforeReached (g t : Nat) (s : State) :
    (doNotbeforeReached g t s).kept = s.kept := by
  unfold doNotbeforeReached
  repeat' (first | with_reducible rfl | with_reducible refine (kept_settle ..).trans ?_ | with_reducible refine (kept_wakePed1 ..).trans ?_ | split)

@[simp] theorem kept_doDescriptorBurstArrive (g t b : Nat) (s : State) :
    (doDescriptorBurstArrive g t b s).kept = s.kept := by
  unfold doDescriptorBurstArrive
  repeat' (first
    | with_reducible rfl
    | with_reducible assumption
    | (extract_lets +onlyGivenNames x; first
      | (have hx : State.kept x = s.kept := ?_; clear_value x; rename' x => y; on_goal 2 => (dsimp -zeta only [x] <;> clear x))
      | (have hx : State.kept x.2 = s.kept := ?_; clear_value x; rename' x => y; on_goal 2 => (dsimp -zeta only [x] <;> clear x))
      | (have hx : State.kept x.2.2 = s.kept := ?_; clear_value x; rename' x => y; on_goal 2 => (dsimp -zeta only [x] <;> clear x))
      | (clear_value x; rename' x => y)
      | (rename' x => y))
    | with_reducible refine (kept_updHz ..).trans ?_
    | with_reducible refine (kept_sourceRead ..).trans ?_
    | with_reducible refine (kept_updThr ..).trans ?_
    | with_reducible refine (kept_settle ..).trans ?_
    | with_reducible refine (kept_consumePoison ..).trans ?_
    | with_reducible refine (kept_segStatus ..).trans ?_
    | split
    | dsimp -zeta only
    | simp -zeta only [*])

@[simp] theorem kept_doPatrolScrubSlot (g : Nat) (banks : List EccResult) (s : State) :
    (doPatrolScrubSlot g banks s).kept = s.kept := by
  unfold doPatrolScrubSlot
  repeat' (first
    | with_reducible rfl
    | with_reducible refine (kept_updPhys ..).trans ?_
    | with_reducible refine (kept_updPed2 ..).trans ?_
    | with_reducible refine (kept_foldl _ ?_ _ _).trans ?_
    | with_reducible refine (kept_fold2 _ ?_ _ _).trans ?_
    | (intro s _ _)
    | (intro s _)
    | split
    | dsimp -zeta only)

@[simp] theorem kept_doComplete (g ser : Nat) (s : State) :
    (doComplete g ser s).kept = s.kept := by
  unfold doComplete
  repeat' (first
    | with_reducible rfl
    | with_reducible refine (kept_gateAt ..).trans ?_
    | with_reducible refine (kept_doDescriptorComplete ..).trans ?_
    | with_reducible refine (kept_settleSpec ..).trans ?_
    | split
    | dsimp -zeta only)

/-! ## Objects -/

@[simp] theorem kept_allocOn (hzn i j : Nat) (host : Nat × Nat) (s : State) :
    (allocOn hzn i j host s).2.2.kept = s.kept := by
  unfold allocOn
  repeat' (first
    | with_reducible rfl
    | exact kept_allocDrive (r := (_, _)) (by assumption)
    | exact (kept_allocDrive (r := (_, _)) (by assumption)).trans (by assumption)
    | with_reducible refine (kept_allocFrame ..).trans ?_
    | split
    | dsimp -zeta only)

@[simp] theorem kept_doObjAlloc (cid : Nat) (s : State) :
    (doObjAlloc cid s).kept = s.kept := by
  unfold doObjAlloc
  repeat' (first
    | with_reducible rfl
    | with_reducible assumption
    | (extract_lets +onlyGivenNames x; first
      | (have hx : State.kept x = s.kept := ?_; clear_value x; rename' x => y; on_goal 2 => (dsimp -zeta only [x] <;> clear x))
      | (have hx : State.kept x.2 = s.kept := ?_; clear_value x; rename' x => y; on_goal 2 => (dsimp -zeta only [x] <;> clear x))
      | (have hx : State.kept x.2.2 = s.kept := ?_; clear_value x; rename' x => y; on_goal 2 => (dsimp -zeta only [x] <;> clear x))
      | (clear_value x; rename' x => y)
      | (rename' x => y))
    | with_reducible refine (kept_startCmd ..).trans ?_
    | with_reducible refine (kept_finish0 ..).trans ?_
    | with_reducible refine (kept_allocOn ..).trans ?_
    | with_reducible refine (kept_updHz ..).trans ?_
    | with_reducible refine (kept_nvmePut ..).trans ?_
    | with_reducible refine (kept_finish ..).trans ?_
    | with_reducible refine (kept_foldl _ ?_ _ _).trans ?_
    | with_reducible refine (kept_fold2 _ ?_ _ _).trans ?_
    | (intro s _ _)
    | (intro s _)
    | split
    | dsimp -zeta only
    | simp -zeta only [*])

@[simp] theorem kept_dropObj (o : Obj) (s : State) :
    (dropObj o s).kept = s.kept := by
  unfold dropObj
  repeat' (first
    | with_reducible rfl
    | with_reducible refine (kept_dropCopy ..).trans ?_
    | with_reducible refine (kept_freeHome ..).trans ?_
    | with_reducible refine (kept_freeFrame ..).trans ?_
    | with_reducible refine (kept_updHz ..).trans ?_
    | with_reducible refine (kept_foldl _ ?_ _ _).trans ?_
    | with_reducible refine (kept_fold2 _ ?_ _ _).trans ?_
    | (intro s _ _)
    | (intro s _)
    | split
    | dsimp -zeta only)

@[simp] theorem kept_doObjFree (cid : Nat) (s : State) :
    (doObjFree cid s).kept = s.kept := by
  unfold doObjFree
  repeat' (first
    | with_reducible rfl
    | with_reducible assumption
    | (extract_lets +onlyGivenNames x; first
      | (have hx : State.kept x = s.kept := ?_; clear_value x; rename' x => y; on_goal 2 => (dsimp -zeta only [x] <;> clear x))
      | (clear_value x; rename' x => y)
      | (rename' x => y))
    | with_reducible refine (kept_startCmd ..).trans ?_
    | with_reducible refine (kept_finish0 ..).trans ?_
    | with_reducible refine (kept_dropObj ..).trans ?_
    | split
    | dsimp -zeta only
    | simp -zeta only [*])

@[simp] theorem kept_beginNext (h : W32) (cid : Option Nat) (s : State) :
    (beginNext h cid s).kept = s.kept := by
  unfold beginNext
  repeat' (first
    | with_reducible rfl
    | with_reducible refine (kept_updHz ..).trans ?_
    | with_reducible refine (kept_updObj ..).trans ?_
    | with_reducible refine (kept_copyUnits ..).trans ?_
    | split
    | dsimp -zeta only)

@[simp] theorem kept_startMove (cid : Nat) (o : Obj) (first fin : Nat) (js : List Nat) (q : MoveP) (s : State) :
    (startMove cid o first fin js q s).kept = s.kept := by
  unfold startMove
  repeat' (first
    | with_reducible rfl
    | with_reducible refine (kept_allocOn ..).trans ?_
    | with_reducible refine (kept_beginNext ..).trans ?_
    | with_reducible refine (kept_updHz ..).trans ?_
    | with_reducible refine (kept_foldl _ ?_ _ _).trans ?_
    | with_reducible refine (kept_fold2 _ ?_ _ _).trans ?_
    | (intro s _ _)
    | (intro s _)
    | split
    | dsimp -zeta only)

@[simp] theorem kept_endMoves (s : State) :
    (endMoves s).kept = s.kept := by
  unfold endMoves
  repeat' (first
    | with_reducible rfl
    | with_reducible refine (kept_updObj ..).trans ?_
    | with_reducible refine (kept_updHz ..).trans ?_
    | with_reducible refine (kept_finish ..).trans ?_
    | with_reducible refine (kept_foldl _ ?_ _ _).trans ?_
    | with_reducible refine (kept_fold2 _ ?_ _ _).trans ?_
    | (intro s _ _)
    | (intro s _)
    | split
    | dsimp -zeta only)

@[simp] theorem kept_switchGran (m : Mig) (x : MigG) (s : State) :
    (switchGran m x s).kept = s.kept := by
  unfold switchGran
  repeat' (first
    | with_reducible rfl
    | with_reducible refine (kept_updObj ..).trans ?_
    | with_reducible refine (kept_dropCopy ..).trans ?_
    | with_reducible refine (kept_updHz ..).trans ?_
    | with_reducible refine (kept_freeHome ..).trans ?_
    | with_reducible refine (kept_freeFrame ..).trans ?_
    | split
    | dsimp -zeta only)

@[simp] theorem kept_switchMoves (ctx : Nat) (s : State) :
    (switchMoves ctx s).kept = s.kept := by
  unfold switchMoves
  repeat' (first
    | with_reducible rfl
    | with_reducible refine (kept_switchGran ..).trans ?_
    | with_reducible refine (kept_updHz ..).trans ?_
    | with_reducible refine (kept_beginNext ..).trans ?_
    | with_reducible refine (kept_endMoves ..).trans ?_
    | with_reducible refine (kept_foldl _ ?_ _ _).trans ?_
    | with_reducible refine (kept_fold2 _ ?_ _ _).trans ?_
    | (intro s _ _)
    | (intro s _)
    | split
    | dsimp -zeta only)

@[simp] theorem kept_copyReach (o : Obj) (j : Nat) (l : Loc) (s : State) :
    (copyReach o j l s).kept = s.kept := by
  unfold copyReach
  repeat' (first | with_reducible rfl | with_reducible refine (kept_hz4Failure ..).trans ?_ | split)

@[simp] theorem kept_doMigrationCopyDone (handle granule : Nat) (s : State) :
    (doMigrationCopyDone handle granule s).kept = s.kept := by
  unfold doMigrationCopyDone
  repeat' (first
    | with_reducible rfl
    | with_reducible assumption
    | (extract_lets +onlyGivenNames x; first
      | (have hx : State.kept x = s.kept := ?_; clear_value x; rename' x => y; on_goal 2 => (dsimp -zeta only [x] <;> clear x))
      | (clear_value x; rename' x => y)
      | (rename' x => y))
    | with_reducible refine (kept_copyReach ..).trans ?_
    | with_reducible refine (kept_copyNow ..).trans ?_
    | with_reducible refine (kept_updHz ..).trans ?_
    | with_reducible refine (kept_beginNext ..).trans ?_
    | with_reducible refine (kept_switchMoves ..).trans ?_
    | split
    | dsimp -zeta only
    | simp -zeta only [*])

@[simp] theorem kept_doObjPlace (cid : Nat) (s : State) :
    (doObjPlace cid s).kept = s.kept := by
  unfold doObjPlace
  repeat' (first
    | with_reducible rfl
    | with_reducible assumption
    | (extract_lets +onlyGivenNames x; first
      | (have hx : State.kept x = s.kept := ?_; clear_value x; rename' x => y; on_goal 2 => (dsimp -zeta only [x] <;> clear x))
      | (clear_value x; rename' x => y)
      | (rename' x => y))
    | with_reducible refine (kept_startCmd ..).trans ?_
    | with_reducible refine (kept_finish0 ..).trans ?_
    | with_reducible refine (kept_updObj ..).trans ?_
    | with_reducible refine (kept_endMoves ..).trans ?_
    | with_reducible refine (kept_startMove ..).trans ?_
    | with_reducible refine (kept_foldl _ ?_ _ _).trans ?_
    | with_reducible refine (kept_fold2 _ ?_ _ _).trans ?_
    | (intro s _ _)
    | (intro s _)
    | split
    | dsimp -zeta only
    | simp -zeta only [*])

@[simp] theorem kept_doObjMigrate (cid : Nat) (s : State) :
    (doObjMigrate cid s).kept = s.kept := by
  unfold doObjMigrate
  repeat' (first
    | with_reducible rfl
    | with_reducible assumption
    | (extract_lets +onlyGivenNames x; first
      | (have hx : State.kept x = s.kept := ?_; clear_value x; rename' x => y; on_goal 2 => (dsimp -zeta only [x] <;> clear x))
      | (clear_value x; rename' x => y)
      | (rename' x => y))
    | with_reducible refine (kept_startCmd ..).trans ?_
    | with_reducible refine (kept_finish0 ..).trans ?_
    | with_reducible refine (kept_endMoves ..).trans ?_
    | with_reducible refine (kept_startMove ..).trans ?_
    | split
    | dsimp -zeta only
    | simp -zeta only [*])

@[simp] theorem kept_doPromotionCopyDone (handle granule : Nat) (s : State) :
    (doPromotionCopyDone handle granule s).kept = s.kept := by
  unfold doPromotionCopyDone
  repeat' (first
    | with_reducible rfl
    | with_reducible assumption
    | (extract_lets +onlyGivenNames x; first
      | (have hx : State.kept x = s.kept := ?_; clear_value x; rename' x => y; on_goal 2 => (dsimp -zeta only [x] <;> clear x))
      | (clear_value x; rename' x => y)
      | (rename' x => y))
    | with_reducible refine (kept_copyNow ..).trans ?_
    | with_reducible refine (kept_copyReach ..).trans ?_
    | with_reducible refine (kept_updHz ..).trans ?_
    | split
    | dsimp -zeta only
    | simp -zeta only [*])

@[simp] theorem kept_validatePromo (h : W32) (j frame : Nat) (s : State) :
    (validatePromo h j frame s).kept = s.kept := by
  unfold validatePromo
  repeat' (first | with_reducible rfl | with_reducible refine (kept_updObj ..).trans ?_ | split)

@[simp] theorem kept_evictCopy (h : W32) (j : Nat) (s : State) :
    (evictCopy h j s).kept = s.kept := by
  unfold evictCopy
  repeat' (first
    | with_reducible rfl
    | with_reducible assumption
    | (extract_lets +onlyGivenNames x; first
      | (have hx : State.kept x = s.kept := ?_; clear_value x; rename' x => y; on_goal 2 => (dsimp -zeta only [x] <;> clear x))
      | (clear_value x; rename' x => y)
      | (rename' x => y))
    | with_reducible refine (kept_updObj ..).trans ?_
    | with_reducible refine (kept_copyUnits ..).trans ?_
    | with_reducible refine (kept_updHz ..).trans ?_
    | with_reducible refine (kept_freeFrame ..).trans ?_
    | split
    | dsimp -zeta only
    | simp -zeta only [*])

@[simp] theorem kept_evictFor (ctx n : Nat) (s : State) : (evictFor ctx n s).kept = s.kept := by
  induction n generalizing s with
  | zero => rfl
  | succ n ih => unfold evictFor; repeat' (first | rfl | split | simp [-Prod.mk.injEq, ih])

@[simp] theorem kept_settlePromos (ctx : Nat) (s : State) :
    (settlePromos ctx s).kept = s.kept := by
  unfold settlePromos
  repeat' (first
    | with_reducible rfl
    | with_reducible assumption
    | (extract_lets +onlyGivenNames x; first
      | (have hx : State.kept x = s.kept := ?_; clear_value x; rename' x => y; on_goal 2 => (dsimp -zeta only [x] <;> clear x))
      | (clear_value x; rename' x => y)
      | (rename' x => y))
    | with_reducible refine (kept_freeFrame ..).trans ?_
    | with_reducible refine (kept_validatePromo ..).trans ?_
    | with_reducible refine (kept_updHz ..).trans ?_
    | with_reducible refine (kept_evictFor ..).trans ?_
    | with_reducible refine (kept_foldl _ ?_ _ _).trans ?_
    | with_reducible refine (kept_fold2 _ ?_ _ _).trans ?_
    | (intro s _ _)
    | (intro s _)
    | split
    | dsimp -zeta only
    | simp -zeta only [*])

@[simp] theorem kept_retireFrames (ctx : Nat) (s : State) :
    (retireFrames ctx s).kept = s.kept := by
  unfold retireFrames
  repeat' (first
    | with_reducible rfl
    | with_reducible assumption
    | (extract_lets +onlyGivenNames x; first
      | (have hx : State.kept x = s.kept := ?_; clear_value x; rename' x => y; on_goal 2 => (dsimp -zeta only [x] <;> clear x))
      | (have hx : State.kept x.2 = s.kept := ?_; clear_value x; rename' x => y; on_goal 2 => (dsimp -zeta only [x] <;> clear x))
      | (have hx : State.kept x.2.2 = s.kept := ?_; clear_value x; rename' x => y; on_goal 2 => (dsimp -zeta only [x] <;> clear x))
      | (clear_value x; rename' x => y)
      | (rename' x => y))
    | with_reducible refine (kept_allocFrame ..).trans ?_
    | with_reducible refine (kept_copyGranule ..).trans ?_
    | with_reducible refine (kept_updObj ..).trans ?_
    | with_reducible refine (kept_freeFrame ..).trans ?_
    | with_reducible refine (kept_updHz ..).trans ?_
    | with_reducible refine (kept_learnFrame ..).trans ?_
    | with_reducible refine (kept_postRec ..).trans ?_
    | with_reducible refine (kept_foldl _ ?_ _ _).trans ?_
    | with_reducible refine (kept_fold2 _ ?_ _ _).trans ?_
    | (intro s _ _)
    | (intro s _)
    | split
    | dsimp -zeta only
    | simp -zeta only [*])

@[simp] theorem kept_dropTable (t : Sieve) (s : State) :
    (dropTable t s).kept = s.kept := by
  unfold dropTable
  repeat' (first
    | with_reducible rfl
    | with_reducible assumption
    | (extract_lets +onlyGivenNames x; first
      | (have hx : State.kept x = s.kept := ?_; clear_value x; rename' x => y; on_goal 2 => (dsimp -zeta only [x] <;> clear x))
      | (clear_value x; rename' x => y)
      | (rename' x => y))
    | with_reducible refine (kept_dropCopy ..).trans ?_
    | with_reducible refine (kept_freeFrame ..).trans ?_
    | with_reducible refine (kept_freeDrive ..).trans ?_
    | with_reducible refine (kept_foldl _ ?_ _ _).trans ?_
    | with_reducible refine (kept_fold2 _ ?_ _ _).trans ?_
    | (intro s _ _)
    | (intro s _)
    | split
    | dsimp -zeta only
    | simp -zeta only [*])

@[simp] theorem kept_doObjFallback (cid : Nat) (s : State) :
    (doObjFallback cid s).kept = s.kept := by
  unfold doObjFallback
  repeat' (first
    | with_reducible rfl
    | with_reducible assumption
    | (extract_lets +onlyGivenNames x; first
      | (have hx : State.kept x = s.kept := ?_; clear_value x; rename' x => y; on_goal 2 => (dsimp -zeta only [x] <;> clear x))
      | (have hx : State.kept x.2 = s.kept := ?_; clear_value x; rename' x => y; on_goal 2 => (dsimp -zeta only [x] <;> clear x))
      | (have hx : State.kept x.2.2 = s.kept := ?_; clear_value x; rename' x => y; on_goal 2 => (dsimp -zeta only [x] <;> clear x))
      | (have hx : ∀ s, State.kept (x s) = s.kept := ?_; clear_value x; rename' x => y; on_goal 2 => (intro s; dsimp -zeta only [x] <;> clear x))
      | (have hx : ∀ a, State.kept (x a) = s.kept := ?_; clear_value x; rename' x => y; on_goal 2 => (intro a; dsimp -zeta only [x] <;> clear x))
      | (have hx : ∀ a s, State.kept (x a s) = s.kept := ?_; clear_value x; rename' x => y; on_goal 2 => (intro a s; dsimp -zeta only [x] <;> clear x))
      | (clear_value x; rename' x => y)
      | (rename' x => y))
    | with_reducible refine (kept_startCmd ..).trans ?_
    | with_reducible refine (kept_finish0 ..).trans ?_
    | with_reducible refine (kept_updObj ..).trans ?_
    | with_reducible refine (kept_dropTable ..).trans ?_
    | with_reducible refine (kept_allocFrames ..).trans ?_
    | with_reducible refine (kept_poolEmpty ..).trans ?_
    | with_reducible refine (kept_dlogClear ..).trans ?_
    | with_reducible refine (kept_finish ..).trans ?_
    | with_reducible refine (kept_foldl _ ?_ _ _).trans ?_
    | with_reducible refine (kept_fold2 _ ?_ _ _).trans ?_
    | (intro s _ _)
    | (intro s _)
    | split
    | dsimp -zeta only
    | simp -zeta only [*])

@[simp] theorem kept_nvmeEnds (n : NvmeCmd) (res : NvmeResult) (s : State) :
    (nvmeEnds n res s).kept = s.kept := by
  unfold nvmeEnds
  repeat' (first
    | with_reducible rfl
    | with_reducible refine (kept_updHz ..).trans ?_
    | with_reducible refine (kept_mergeFlushed ..).trans ?_
    | with_reducible refine (kept_respond ..).trans ?_
    | with_reducible refine (kept_mergeStep ..).trans ?_
    | with_reducible refine (kept_settle ..).trans ?_
    | with_reducible refine (kept_answerReq ..).trans ?_
    | with_reducible refine (kept_foldl _ ?_ _ _).trans ?_
    | with_reducible refine (kept_fold2 _ ?_ _ _).trans ?_
    | (intro s _ _)
    | (intro s _)
    | split
    | dsimp -zeta only)

@[simp] theorem kept_doHorizonResponse (req : Nat) (ans : HzAnswer) (s : State) :
    (doHorizonResponse req ans s).kept = s.kept := by
  unfold doHorizonResponse
  repeat' (first
    | with_reducible rfl
    | with_reducible refine (kept_updHz ..).trans ?_
    | with_reducible refine (kept_respond ..).trans ?_
    | with_reducible refine (kept_winServed ..).trans ?_
    | with_reducible refine (kept_settle ..).trans ?_
    | with_reducible refine (kept_answerReq ..).trans ?_
    | split
    | dsimp -zeta only)

@[simp] theorem kept_doNvmeCompletion (drive cmd : Nat) (res : NvmeResult) (s : State) :
    (doNvmeCompletion drive cmd res s).kept = s.kept := by
  unfold doNvmeCompletion
  repeat' (first
    | with_reducible rfl
    | with_reducible refine (kept_nvmeEnds ..).trans ?_
    | split
    | dsimp -zeta only)

@[simp] theorem kept_doDriveFailed (drive : Nat) (cause : DriveCause) (status : W16) (s : State) :
    (doDriveFailed drive cause status s).kept = s.kept := by
  unfold doDriveFailed
  repeat' (first
    | with_reducible rfl
    | with_reducible refine (kept_updHz ..).trans ?_
    | with_reducible refine (kept_reportDegraded ..).trans ?_
    | with_reducible refine (kept_postRec ..).trans ?_
    | with_reducible refine (kept_nvmeEnds ..).trans ?_
    | with_reducible refine (kept_foldl _ ?_ _ _).trans ?_
    | with_reducible refine (kept_fold2 _ ?_ _ _).trans ?_
    | (intro s _ _)
    | (intro s _)
    | split
    | dsimp -zeta only)

@[simp] theorem kept_doDdr5ChannelFailed (ch : Nat) (s : State) :
    (doDdr5ChannelFailed ch s).kept = s.kept := by
  unfold doDdr5ChannelFailed
  repeat' (first | with_reducible rfl | with_reducible refine (kept_reportDegraded ..).trans ?_ | with_reducible refine (kept_updHz ..).trans ?_ | split)

@[simp] theorem kept_doCalibrationWindowStart (ch : Chan) (s : State) :
    (doCalibrationWindowStart ch s).kept = s.kept := by
  unfold doCalibrationWindowStart
  repeat' (first | with_reducible rfl | with_reducible refine (kept_updHz ..).trans ?_ | split)

@[simp] theorem kept_doCalibrationWindowEnd (ch : Chan) (s : State) :
    (doCalibrationWindowEnd ch s).kept = s.kept := by
  unfold doCalibrationWindowEnd
  repeat' (first | with_reducible rfl | with_reducible refine (kept_updHz ..).trans ?_ | split)

end Sys2Proof.Machine
end

