-- ==== Sys2Proof/Laws/KeptStep.lean ====
section
/-! SUPPORT. What a step moves, part by part: reductions, segments, steps and contexts leave alone the clocks, the factory parts, the certificate chain and the
queue. -/

namespace Sys2Proof.Machine

open Sys2Proof

set_option maxRecDepth 4096
set_option linter.all false

/-! ## Reduction -/

@[simp] theorem kept_doGroupSet (cid : Nat) (s : State) :
    (doGroupSet cid s).kept = s.kept := by
  unfold doGroupSet
  repeat' (first
    | with_reducible rfl
    | with_reducible assumption
    | (extract_lets +onlyGivenNames x; first
      | (have hx : State.kept x = s.kept := ?_; clear_value x; rename' x => y; on_goal 2 => (dsimp -zeta only [x] <;> clear x))
      | (clear_value x; rename' x => y)
      | (rename' x => y))
    | with_reducible refine (kept_startCmd ..).trans ?_
    | with_reducible refine (kept_finish0 ..).trans ?_
    | with_reducible refine (kept_updFab ..).trans ?_
    | with_reducible refine (kept_foldl _ ?_ _ _).trans ?_
    | with_reducible refine (kept_fold2 _ ?_ _ _).trans ?_
    | (intro s _ _)
    | (intro s _)
    | split
    | dsimp -zeta only
    | simp -zeta only [*])

@[simp] theorem kept_doBucketPolicy (cid : Nat) (s : State) :
    (doBucketPolicy cid s).kept = s.kept := by
  unfold doBucketPolicy
  repeat' (first
    | with_reducible rfl
    | with_reducible assumption
    | (extract_lets +onlyGivenNames x; first
      | (have hx : State.kept x = s.kept := ?_; clear_value x; rename' x => y; on_goal 2 => (dsimp -zeta only [x] <;> clear x))
      | (clear_value x; rename' x => y)
      | (rename' x => y))
    | with_reducible refine (kept_startCmd ..).trans ?_
    | with_reducible refine (kept_finish0 ..).trans ?_
    | with_reducible refine (kept_updFab ..).trans ?_
    | split
    | dsimp -zeta only
    | simp -zeta only [*])

@[simp] theorem kept_flushAt (k n : Nat) (s : State) :
    (flushAt k n s).kept = s.kept := by
  unfold flushAt
  repeat' (first | with_reducible rfl | with_reducible refine (kept_updFab ..).trans ?_ | split)

@[simp] theorem kept_noteFlush (ftz : Bool) (b : Bucket) (sc : FVal) (promo : Bool) (k : Nat) (l : List W32) (s : State) :
    (noteFlush ftz b sc promo k l s).kept = s.kept := by
  unfold noteFlush
  repeat' (first | with_reducible rfl | with_reducible refine (kept_noteStk ..).trans ?_ | with_reducible refine (kept_flushAt ..).trans ?_ | split)

@[simp] theorem kept_updInst (tag : Nat) (f : Inst → Inst) (s : State) :
    (updInst tag f s).kept = s.kept := by
  unfold updInst
  repeat' (first | with_reducible rfl | with_reducible refine (kept_updFab ..).trans ?_ | split)

@[simp] theorem kept_updChunk (tag k : Nat) (f : Chunk → Chunk) (s : State) :
    (updChunk tag k f s).kept = s.kept := by
  unfold updChunk
  repeat' (first | with_reducible rfl | with_reducible refine (kept_updInst ..).trans ?_ | split)

@[simp] theorem kept_startInst (tag : Nat) (step : W64) (s : State) :
    (startInst tag step s).kept = s.kept := by
  unfold startInst
  repeat' (first
    | with_reducible rfl
    | with_reducible refine (kept_updFab ..).trans ?_
    | with_reducible refine (kept_freeOwed ..).trans ?_
    | split
    | dsimp -zeta only)

@[simp] theorem kept_sendChunk (b : Bucket) (tag k phase dst slot : Nat) (promo : Bool) (fs : List (List Byte)) (c : Chunk) (s : State) :
    (sendChunk b tag k phase dst slot promo fs c s).kept = s.kept := by
  unfold sendChunk
  repeat' (first
    | with_reducible rfl
    | with_reducible refine (kept_routeFlit ..).trans ?_
    | with_reducible refine (kept_updInst ..).trans ?_
    | with_reducible refine (kept_foldl _ ?_ _ _).trans ?_
    | with_reducible refine (kept_fold2 _ ?_ _ _).trans ?_
    | (intro s _ _)
    | (intro s _)
    | split
    | dsimp -zeta only)

@[simp] theorem kept_drawRest (tag : Nat) (s : State) :
    (drawRest tag s).kept = s.kept := by
  unfold drawRest
  repeat' (first
    | with_reducible rfl
    | with_reducible refine (kept_freeBits ..).trans ?_
    | with_reducible refine (kept_freeBool ..).trans ?_
    | with_reducible refine (kept_updInst ..).trans ?_
    | split
    | dsimp -zeta only)

@[simp] theorem kept_endInst (tag : Nat) (s : State) :
    (endInst tag s).kept = s.kept := by
  unfold endInst
  repeat' (first
    | with_reducible rfl
    | with_reducible assumption
    | (extract_lets +onlyGivenNames x; first
      | (have hx : State.kept x = s.kept := ?_; clear_value x; rename' x => y; on_goal 2 => (dsimp -zeta only [x] <;> clear x))
      | (clear_value x; rename' x => y)
      | (rename' x => y))
    | with_reducible refine (kept_drawRest ..).trans ?_
    | with_reducible refine (kept_updInst ..).trans ?_
    | with_reducible refine (kept_updFab ..).trans ?_
    | with_reducible refine (kept_updCtx ..).trans ?_
    | with_reducible refine (kept_foldl _ ?_ _ _).trans ?_
    | with_reducible refine (kept_fold2 _ ?_ _ _).trans ?_
    | (intro s _ _)
    | (intro s _)
    | split
    | dsimp -zeta only
    | simp -zeta only [*])

@[simp] theorem kept_endIfOver (tag : Nat) (s : State) :
    (endIfOver tag s).kept = s.kept := by
  unfold endIfOver
  repeat' (first | with_reducible rfl | with_reducible refine (kept_endInst ..).trans ?_ | split)

@[simp] theorem kept_serveWait (g : Nat) (o : OutD) (s : State) :
    (serveWait g o s).kept = s.kept := by
  unfold serveWait
  repeat' (first
    | with_reducible rfl
    | with_reducible assumption
    | (extract_lets +onlyGivenNames x; first
      | (have hx : State.kept x = s.kept := ?_; clear_value x; rename' x => y; on_goal 2 => (dsimp -zeta only [x] <;> clear x))
      | (clear_value x; rename' x => y)
      | (rename' x => y))
    | with_reducible refine (kept_noteStk ..).trans ?_
    | with_reducible refine (kept_setCounts ..).trans ?_
    | with_reducible refine (kept_localWrite ..).trans ?_
    | with_reducible refine (kept_flushAt ..).trans ?_
    | with_reducible refine (kept_drawRest ..).trans ?_
    | with_reducible refine (kept_workDone ..).trans ?_
    | with_reducible refine (kept_endIfOver ..).trans ?_
    | with_reducible refine (kept_updInst ..).trans ?_
    | with_reducible refine (kept_foldl _ ?_ _ _).trans ?_
    | with_reducible refine (kept_fold2 _ ?_ _ _).trans ?_
    | (intro s _ _)
    | (intro s _)
    | split
    | dsimp -zeta only
    | simp -zeta only [*])

@[simp] theorem kept_serveWaits (tag : Nat) (s : State) :
    (serveWaits tag s).kept = s.kept := by
  unfold serveWaits
  repeat' (first
    | with_reducible rfl
    | with_reducible refine (kept_serveWait ..).trans ?_
    | with_reducible refine (kept_foldl _ ?_ _ _).trans ?_
    | with_reducible refine (kept_fold2 _ ?_ _ _).trans ?_
    | (intro s _ _)
    | (intro s _)
    | split
    | dsimp -zeta only)

@[simp] theorem kept_failInst (tag : Nat) (status : W16) (cause pkg : Nat) (tell : Bool) (s : State) :
    (failInst tag status cause pkg tell s).kept = s.kept := by
  unfold failInst
  repeat' (first
    | with_reducible rfl
    | with_reducible refine (kept_updInst ..).trans ?_
    | with_reducible refine (kept_postRec ..).trans ?_
    | with_reducible refine (kept_sendCtl ..).trans ?_
    | with_reducible refine (kept_segStatus ..).trans ?_
    | with_reducible refine (kept_serveWaits ..).trans ?_
    | with_reducible refine (kept_endInst ..).trans ?_
    | with_reducible refine (kept_foldl _ ?_ _ _).trans ?_
    | with_reducible refine (kept_fold2 _ ?_ _ _).trans ?_
    | (intro s _ _)
    | (intro s _)
    | split
    | dsimp -zeta only)

@[simp] theorem kept_siltCopy (b : Bucket) (tag k : Nat) (fs : List (List Byte)) (s : State) :
    (siltCopy b tag k fs s).kept = s.kept := by
  unfold siltCopy
  repeat' (first | with_reducible rfl | with_reducible refine (kept_updCtx ..).trans ?_ | split)

@[simp] theorem kept_siltKeep (b : Bucket) (tag k : Nat) (fs : List (List Byte)) (s : State) :
    (siltKeep b tag k fs s).kept = s.kept := by
  unfold siltKeep
  repeat' (first
    | with_reducible rfl
    | with_reducible refine (kept_objWriteAt ..).trans ?_
    | with_reducible refine (kept_foldl _ ?_ _ _).trans ?_
    | with_reducible refine (kept_fold2 _ ?_ _ _).trans ?_
    | (intro s _ _)
    | (intro s _)
    | split
    | dsimp -zeta only)

@[simp] theorem kept_setResult (b : Bucket) (tag k : Nat) (l : List W32) (promo : Bool) (fs : List (List Byte)) (s : State) :
    (setResult b tag k l promo fs s).kept = s.kept := by
  unfold setResult
  repeat' (first
    | with_reducible rfl
    | with_reducible assumption
    | (extract_lets +onlyGivenNames x; first
      | (have hx : State.kept x = s.kept := ?_; clear_value x; rename' x => y; on_goal 2 => (dsimp -zeta only [x] <;> clear x))
      | (clear_value x; rename' x => y)
      | (rename' x => y))
    | with_reducible refine (kept_failInst ..).trans ?_
    | with_reducible refine (kept_updInst ..).trans ?_
    | with_reducible refine (kept_updChunk ..).trans ?_
    | with_reducible refine (kept_siltCopy ..).trans ?_
    | with_reducible refine (kept_siltKeep ..).trans ?_
    | with_reducible refine (kept_sendChunk ..).trans ?_
    | with_reducible refine (kept_serveWaits ..).trans ?_
    | with_reducible refine (kept_foldl _ ?_ _ _).trans ?_
    | with_reducible refine (kept_fold2 _ ?_ _ _).trans ?_
    | (intro s _ _)
    | (intro s _)
    | split
    | dsimp -zeta only
    | simp -zeta only [*])

@[simp] theorem kept_failGone (tag : Nat) (s : State) :
    (failGone tag s).kept = s.kept := by
  unfold failGone
  repeat' (first | with_reducible rfl | with_reducible refine (kept_failInst ..).trans ?_ | split)

@[simp] theorem kept_advanceChunk (tag k : Nat) (s : State) :
    (advanceChunk tag k s).kept = s.kept := by
  unfold advanceChunk
  repeat' (first
    | with_reducible rfl
    | with_reducible assumption
    | (extract_lets +onlyGivenNames x; first
      | (have hx : State.kept x = s.kept := ?_; clear_value x; rename' x => y; on_goal 2 => (dsimp -zeta only [x] <;> clear x))
      | (clear_value x; rename' x => y)
      | (rename' x => y))
    | with_reducible refine (kept_noteFlush ..).trans ?_
    | with_reducible refine (kept_updChunk ..).trans ?_
    | with_reducible refine (kept_setResult ..).trans ?_
    | with_reducible refine (kept_noteStk ..).trans ?_
    | with_reducible refine (kept_failInst ..).trans ?_
    | with_reducible refine (kept_endIfOver ..).trans ?_
    | with_reducible refine (kept_sendChunk ..).trans ?_
    | split
    | dsimp -zeta only
    | simp -zeta only [*])

@[simp] theorem kept_takeFlit (b : Bucket) (f : Flit) (s : State) :
    (takeFlit b f s).kept = s.kept := by
  unfold takeFlit
  repeat' (first
    | with_reducible rfl
    | with_reducible assumption
    | (extract_lets +onlyGivenNames x; first
      | (have hx : State.kept x = s.kept := ?_; clear_value x; rename' x => y; on_goal 2 => (dsimp -zeta only [x] <;> clear x))
      | (clear_value x; rename' x => y)
      | (rename' x => y))
    | with_reducible refine (kept_failInst ..).trans ?_
    | with_reducible refine (kept_updChunk ..).trans ?_
    | with_reducible refine (kept_updInst ..).trans ?_
    | with_reducible refine (kept_setResult ..).trans ?_
    | with_reducible refine (kept_noteStk ..).trans ?_
    | with_reducible refine (kept_advanceChunk ..).trans ?_
    | split
    | dsimp -zeta only
    | simp -zeta only [*])

@[simp] theorem kept_takeEarly (tag : Nat) (s : State) :
    (takeEarly tag s).kept = s.kept := by
  unfold takeEarly
  repeat' (first
    | with_reducible rfl
    | with_reducible refine (kept_updFab ..).trans ?_
    | with_reducible refine (kept_takeFlit ..).trans ?_
    | with_reducible refine (kept_foldl _ ?_ _ _).trans ?_
    | with_reducible refine (kept_fold2 _ ?_ _ _).trans ?_
    | (intro s _ _)
    | (intro s _)
    | split
    | dsimp -zeta only)

@[simp] theorem kept_postNow (i : Iss) (s : State) :
    (postNow i s).kept = s.kept := by
  unfold postNow
  repeat' (first
    | with_reducible rfl
    | with_reducible assumption
    | (extract_lets +onlyGivenNames x; first
      | (have hx : State.kept x = s.kept := ?_; clear_value x; rename' x => y; on_goal 2 => (dsimp -zeta only [x] <;> clear x))
      | (clear_value x; rename' x => y)
      | (rename' x => y))
    | with_reducible refine (kept_setWaitFor ..).trans ?_
    | with_reducible refine (kept_takeEarly ..).trans ?_
    | with_reducible refine (kept_startInst ..).trans ?_
    | with_reducible refine (kept_workDone ..).trans ?_
    | with_reducible refine (kept_faultAt ..).trans ?_
    | with_reducible refine (kept_noteStk ..).trans ?_
    | with_reducible refine (kept_postRec ..).trans ?_
    | with_reducible refine (kept_failInst ..).trans ?_
    | with_reducible refine (kept_updInst ..).trans ?_
    | with_reducible refine (kept_updChunk ..).trans ?_
    | with_reducible refine (kept_advanceChunk ..).trans ?_
    | with_reducible refine (kept_foldl _ ?_ _ _).trans ?_
    | with_reducible refine (kept_fold2 _ ?_ _ _).trans ?_
    | (intro s _ _)
    | (intro s _)
    | split
    | dsimp -zeta only
    | simp -zeta only [*])

@[simp] theorem kept_doRedPost (g t : Nat) (s : State) :
    (doRedPost g t s).kept = s.kept := by
  unfold doRedPost
  exact kept_issueRow _ _ _ (fun _ _ => kept_postNow ..) _ _ _

@[simp] theorem kept_redWaitAct (i : Iss) (s : State) :
    (redWaitAct i s).kept = s.kept := by
  unfold redWaitAct
  repeat' (first
    | with_reducible rfl
    | with_reducible assumption
    | (extract_lets +onlyGivenNames x; first
      | (have hx : State.kept x = s.kept := ?_; clear_value x; rename' x => y; on_goal 2 => (dsimp -zeta only [x] <;> clear x))
      | (clear_value x; rename' x => y)
      | (rename' x => y))
    | with_reducible refine (kept_setWaitFor ..).trans ?_
    | with_reducible refine (kept_serveWait ..).trans ?_
    | split
    | dsimp -zeta only
    | simp -zeta only [*])

@[simp] theorem kept_doRedWait (g t : Nat) (s : State) :
    (doRedWait g t s).kept = s.kept := by
  unfold doRedWait
  exact kept_issueRow _ _ _ (fun _ _ => kept_redWaitAct ..) _ _ _

@[simp] theorem kept_doReductionFlitArrive (f : Flit) (s : State) :
    (doReductionFlitArrive f s).kept = s.kept := by
  unfold doReductionFlitArrive
  repeat' (first
    | with_reducible rfl
    | with_reducible assumption
    | (extract_lets +onlyGivenNames x; first
      | (have hx : State.kept x = s.kept := ?_; clear_value x; rename' x => y; on_goal 2 => (dsimp -zeta only [x] <;> clear x))
      | (have hx : State.kept x.2 = s.kept := ?_; clear_value x; rename' x => y; on_goal 2 => (dsimp -zeta only [x] <;> clear x))
      | (have hx : State.kept x.2.2 = s.kept := ?_; clear_value x; rename' x => y; on_goal 2 => (dsimp -zeta only [x] <;> clear x))
      | (have hx : ∀ s, State.kept (x s) = s.kept := ?_; clear_value x; rename' x => y; on_goal 2 => (intro s; dsimp -zeta only [x] <;> clear x))
      | (have hx : ∀ a, State.kept (x a) = s.kept := ?_; clear_value x; rename' x => y; on_goal 2 => (intro a; dsimp -zeta only [x] <;> clear x))
      | (have hx : ∀ a s, State.kept (x a s) = s.kept := ?_; clear_value x; rename' x => y; on_goal 2 => (intro a s; dsimp -zeta only [x] <;> clear x))
      | (clear_value x; rename' x => y)
      | (rename' x => y))
    | with_reducible refine (kept_updFab ..).trans ?_
    | with_reducible refine (kept_takeEarly ..).trans ?_
    | with_reducible refine (kept_startInst ..).trans ?_
    | with_reducible refine (kept_takeFlit ..).trans ?_
    | split
    | dsimp -zeta only
    | simp -zeta only [*])

@[simp] theorem kept_servePosts (tag : Nat) (s : State) :
    (servePosts tag s).kept = s.kept := by
  unfold servePosts
  repeat' (first
    | with_reducible rfl
    | with_reducible refine (kept_takeEarly ..).trans ?_
    | with_reducible refine (kept_postNow ..).trans ?_
    | with_reducible refine (kept_foldl _ ?_ _ _).trans ?_
    | with_reducible refine (kept_fold2 _ ?_ _ _).trans ?_
    | (intro s _ _)
    | (intro s _)
    | split
    | dsimp -zeta only)

@[simp] theorem kept_wakeEarly (s : State) :
    (wakeEarly s).kept = s.kept := by
  unfold wakeEarly
  repeat' (first
    | with_reducible rfl
    | with_reducible assumption
    | (extract_lets +onlyGivenNames x; first
      | (have hx : State.kept x = s.kept := ?_; clear_value x; rename' x => y; on_goal 2 => (dsimp -zeta only [x] <;> clear x))
      | (clear_value x; rename' x => y)
      | (rename' x => y))
    | with_reducible refine (kept_takeEarly ..).trans ?_
    | with_reducible refine (kept_startInst ..).trans ?_
    | with_reducible refine (kept_foldl _ ?_ _ _).trans ?_
    | with_reducible refine (kept_fold2 _ ?_ _ _).trans ?_
    | (intro s _ _)
    | (intro s _)
    | split
    | dsimp -zeta only
    | simp -zeta only [*])

@[simp] theorem kept_redAfter (s : State) :
    (redAfter s).kept = s.kept := by
  unfold redAfter
  repeat' (first
    | with_reducible rfl
    | with_reducible refine (kept_servePosts ..).trans ?_
    | with_reducible refine (kept_wakeEarly ..).trans ?_
    | with_reducible refine (kept_failGone ..).trans ?_
    | with_reducible refine (kept_foldl _ ?_ _ _).trans ?_
    | with_reducible refine (kept_fold2 _ ?_ _ _).trans ?_
    | (intro s _ _)
    | (intro s _)
    | split
    | dsimp -zeta only)

@[simp] theorem kept_doBucketTimeout (tag : Nat) (s : State) :
    (doBucketTimeout tag s).kept = s.kept := by
  unfold doBucketTimeout
  repeat' (first | with_reducible rfl | with_reducible refine (kept_redAfter ..).trans ?_ | with_reducible refine (kept_failInst ..).trans ?_ | split)

@[simp] theorem kept_doBucketFailureNotice (tag : Nat) (status : W16) (pkg : Nat) (s : State) :
    (doBucketFailureNotice tag status pkg s).kept = s.kept := by
  unfold doBucketFailureNotice
  repeat' (first
    | with_reducible rfl
    | with_reducible assumption
    | (extract_lets +onlyGivenNames x; first
      | (have hx : State.kept x = s.kept := ?_; clear_value x; rename' x => y; on_goal 2 => (dsimp -zeta only [x] <;> clear x))
      | (clear_value x; rename' x => y)
      | (rename' x => y))
    | with_reducible refine (kept_takeEarly ..).trans ?_
    | with_reducible refine (kept_startInst ..).trans ?_
    | with_reducible refine (kept_redAfter ..).trans ?_
    | with_reducible refine (kept_failInst ..).trans ?_
    | split
    | dsimp -zeta only
    | simp -zeta only [*])

@[simp] theorem kept_dropPartials (tag k : Nat) (s : State) :
    (dropPartials tag k s).kept = s.kept := by
  unfold dropPartials
  repeat' (first | with_reducible rfl | with_reducible refine (kept_updChunk ..).trans ?_ | split)

@[simp] theorem kept_doBucketHoldNotice (tag chunk pkg : Nat) (s : State) :
    (doBucketHoldNotice tag chunk pkg s).kept = s.kept := by
  unfold doBucketHoldNotice
  repeat' (first | with_reducible rfl | with_reducible refine (kept_dropPartials ..).trans ?_ | with_reducible refine (kept_updFab ..).trans ?_ | split)

@[simp] theorem kept_doBucketResumeNotice (tag chunk pkg : Nat) (s : State) :
    (doBucketResumeNotice tag chunk pkg s).kept = s.kept := by
  unfold doBucketResumeNotice
  repeat' (first
    | with_reducible rfl
    | with_reducible assumption
    | (extract_lets +onlyGivenNames x; first
      | (have hx : State.kept x = s.kept := ?_; clear_value x; rename' x => y; on_goal 2 => (dsimp -zeta only [x] <;> clear x))
      | (clear_value x; rename' x => y)
      | (rename' x => y))
    | with_reducible refine (kept_updFab ..).trans ?_
    | with_reducible refine (kept_advanceChunk ..).trans ?_
    | with_reducible refine (kept_dropPartials ..).trans ?_
    | split
    | dsimp -zeta only
    | simp -zeta only [*])

@[simp] theorem kept_holdChunks (ctx : Nat) (s : State) :
    (holdChunks ctx s).kept = s.kept := by
  unfold holdChunks
  repeat' (first
    | with_reducible rfl
    | with_reducible assumption
    | (extract_lets +onlyGivenNames x; first
      | (have hx : State.kept x = s.kept := ?_; clear_value x; rename' x => y; on_goal 2 => (dsimp -zeta only [x] <;> clear x))
      | (clear_value x; rename' x => y)
      | (rename' x => y))
    | with_reducible refine (kept_updFab ..).trans ?_
    | with_reducible refine (kept_freeOwed ..).trans ?_
    | with_reducible refine (kept_dropPartials ..).trans ?_
    | with_reducible refine (kept_sendCtl ..).trans ?_
    | with_reducible refine (kept_foldl _ ?_ _ _).trans ?_
    | with_reducible refine (kept_fold2 _ ?_ _ _).trans ?_
    | (intro s _ _)
    | (intro s _)
    | split
    | dsimp -zeta only
    | simp -zeta only [*])

@[simp] theorem kept_resumeChunks (ctx : Nat) (s : State) :
    (resumeChunks ctx s).kept = s.kept := by
  unfold resumeChunks
  repeat' (first
    | with_reducible rfl
    | with_reducible refine (kept_sendCtl ..).trans ?_
    | with_reducible refine (kept_doBucketResumeNotice ..).trans ?_
    | with_reducible refine (kept_foldl _ ?_ _ _).trans ?_
    | with_reducible refine (kept_fold2 _ ?_ _ _).trans ?_
    | (intro s _ _)
    | (intro s _)
    | split
    | dsimp -zeta only)

@[simp] theorem kept_doDigestQuery (cid : Nat) (s : State) :
    (doDigestQuery cid s).kept = s.kept := by
  unfold doDigestQuery
  repeat' (first
    | with_reducible rfl
    | with_reducible assumption
    | (extract_lets +onlyGivenNames x; first
      | (have hx : State.kept x = s.kept := ?_; clear_value x; rename' x => y; on_goal 2 => (dsimp -zeta only [x] <;> clear x))
      | (clear_value x; rename' x => y)
      | (rename' x => y))
    | with_reducible refine (kept_startCmd ..).trans ?_
    | with_reducible refine (kept_finish0 ..).trans ?_
    | with_reducible refine (kept_finish ..).trans ?_
    | with_reducible refine (kept_objWriteAt ..).trans ?_
    | split
    | dsimp -zeta only
    | simp -zeta only [*])

@[simp] theorem kept_doRedPostThen (g t : Nat) (s : State) :
    (doRedPostThen g t s).kept = s.kept := by
  unfold doRedPostThen
  repeat' (first
    | with_reducible rfl
    | with_reducible refine (kept_redAfter ..).trans ?_
    | with_reducible refine (kept_doRedPost ..).trans ?_
    | split
    | dsimp -zeta only)

@[simp] theorem kept_doRedWaitThen (g t : Nat) (s : State) :
    (doRedWaitThen g t s).kept = s.kept := by
  unfold doRedWaitThen
  repeat' (first
    | with_reducible rfl
    | with_reducible refine (kept_redAfter ..).trans ?_
    | with_reducible refine (kept_doRedWait ..).trans ?_
    | split
    | dsimp -zeta only)

@[simp] theorem kept_doRedFlitThen (f : Flit) (s : State) :
    (doRedFlitThen f s).kept = s.kept := by
  unfold doRedFlitThen
  repeat' (first | with_reducible rfl | with_reducible refine (kept_redAfter ..).trans ?_ | with_reducible refine (kept_doReductionFlitArrive ..).trans ?_ | split)

@[simp] theorem kept_linksChanged (s : State) :
    (linksChanged s).kept = s.kept := by
  unfold linksChanged
  repeat' (first | with_reducible rfl | with_reducible refine (kept_redAfter ..).trans ?_ | with_reducible refine (kept_failUnreachable ..).trans ?_ | split)

@[simp] theorem kept_hopFail (f : Flit) (s : State) :
    (hopFail f s).kept = s.kept := by
  unfold hopFail
  repeat' (first | with_reducible rfl | with_reducible refine (kept_failInst ..).trans ?_ | with_reducible refine (kept_winFail ..).trans ?_ | split)

@[simp] theorem kept_doFlitReceive (p : Nat) (f : Flit) (s : State) :
    (doFlitReceive p f s).kept = s.kept := by
  unfold doFlitReceive
  repeat' (first
    | with_reducible rfl
    | with_reducible refine (kept_flitIn ..).trans ?_
    | with_reducible refine (kept_linksChanged ..).trans ?_
    | with_reducible refine (kept_hopFail ..).trans ?_
    | split
    | dsimp -zeta only)

/-! ## Strata -/

@[simp] theorem kept_writeEntry (ctx : Nat) (e : StrataEnt) (waited : Bool) (s : State) :
    (writeEntry ctx e waited s).kept = s.kept := by
  unfold writeEntry
  repeat' (first
    | with_reducible rfl
    | with_reducible assumption
    | (extract_lets +onlyGivenNames x; first
      | (have hx : State.kept x = s.kept := ?_; clear_value x; rename' x => y; on_goal 2 => (dsimp -zeta only [x] <;> clear x))
      | (clear_value x; rename' x => y)
      | (rename' x => y))
    | with_reducible refine (kept_updCtx ..).trans ?_
    | with_reducible refine (kept_postRec ..).trans ?_
    | with_reducible refine (kept_objWriteAt ..).trans ?_
    | split
    | dsimp -zeta only
    | simp -zeta only [*])

@[simp] theorem kept_flushEntries (ctx : Nat) (b : W64) (s : State) :
    (flushEntries ctx b s).kept = s.kept := by
  unfold flushEntries
  repeat' (first
    | with_reducible rfl
    | with_reducible assumption
    | (extract_lets +onlyGivenNames x; first
      | (have hx : State.kept x = s.kept := ?_; clear_value x; rename' x => y; on_goal 2 => (dsimp -zeta only [x] <;> clear x))
      | (clear_value x; rename' x => y)
      | (rename' x => y))
    | with_reducible refine (kept_writeEntry ..).trans ?_
    | with_reducible refine (kept_updCtx ..).trans ?_
    | with_reducible refine (kept_foldl _ ?_ _ _).trans ?_
    | with_reducible refine (kept_fold2 _ ?_ _ _).trans ?_
    | (intro s _ _)
    | (intro s _)
    | split
    | dsimp -zeta only
    | simp -zeta only [*])

@[simp] theorem kept_updateBank (ctx : Nat) (s : State) :
    (updateBank ctx s).kept = s.kept := by
  unfold updateBank
  repeat' (first
    | with_reducible rfl
    | with_reducible refine (kept_updCtx ..).trans ?_
    | with_reducible refine (kept_rerunDiff ..).trans ?_
    | with_reducible refine (kept_foldl _ ?_ _ _).trans ?_
    | with_reducible refine (kept_fold2 _ ?_ _ _).trans ?_
    | (intro s _ _)
    | (intro s _)
    | split
    | dsimp -zeta only)

@[simp] theorem kept_sendUnits (ctx : Nat) (p : SecPol) (b : W64) (sent : Nat) (s : State) :
    (sendUnits ctx p b sent s).kept = s.kept := by
  unfold sendUnits
  repeat' (first
    | with_reducible rfl
    | with_reducible refine (kept_sendCtl ..).trans ?_
    | with_reducible refine (kept_foldl _ ?_ _ _).trans ?_
    | with_reducible refine (kept_fold2 _ ?_ _ _).trans ?_
    | (intro s _ _)
    | (intro s _)
    | split
    | dsimp -zeta only)

@[simp] theorem kept_startPoint (ctx : Nat) (b : W64) (s : State) :
    (startPoint ctx b s).kept = s.kept := by
  unfold startPoint
  repeat' (first
    | with_reducible rfl
    | with_reducible refine (kept_updObj ..).trans ?_
    | with_reducible refine (kept_updCtx ..).trans ?_
    | with_reducible refine (kept_sendUnits ..).trans ?_
    | with_reducible refine (kept_foldl _ ?_ _ _).trans ?_
    | with_reducible refine (kept_fold2 _ ?_ _ _).trans ?_
    | (intro s _ _)
    | (intro s _)
    | split
    | dsimp -zeta only)

@[simp] theorem kept_sendRisk (ctx : Nat) (s : State) :
    (sendRisk ctx s).kept = s.kept := by
  unfold sendRisk
  repeat' (first | with_reducible rfl | with_reducible refine (kept_sendCtl ..).trans ?_ | with_reducible refine (kept_updCtx ..).trans ?_ | split)

@[simp] theorem kept_takePoint (ctx : Nat) (b : W64) (s : State) :
    (takePoint ctx b s).kept = s.kept := by
  unfold takePoint
  repeat' (first | with_reducible rfl | with_reducible refine (kept_updCtx ..).trans ?_ | with_reducible refine (kept_startPoint ..).trans ?_ | split)

@[simp] theorem kept_resendUnits (ctx : Nat) (s : State) :
    (resendUnits ctx s).kept = s.kept := by
  unfold resendUnits
  repeat' (first
    | with_reducible rfl
    | with_reducible refine (kept_updCtx ..).trans ?_
    | with_reducible refine (kept_sendCtl ..).trans ?_
    | with_reducible refine (kept_sendUnits ..).trans ?_
    | with_reducible refine (kept_foldl _ ?_ _ _).trans ?_
    | with_reducible refine (kept_fold2 _ ?_ _ _).trans ?_
    | (intro s _ _)
    | (intro s _)
    | split
    | dsimp -zeta only)

@[simp] theorem kept_resumeLease (ctx : Nat) (s : State) :
    (resumeLease ctx s).kept = s.kept := by
  unfold resumeLease
  repeat' (first | with_reducible rfl | with_reducible refine (kept_resendUnits ..).trans ?_ | with_reducible refine (kept_resumeChunks ..).trans ?_ | split)

@[simp] theorem kept_sendDigest (ctx : Nat) (s : State) :
    (sendDigest ctx s).kept = s.kept := by
  unfold sendDigest
  repeat' (first | with_reducible rfl | with_reducible refine (kept_sendCtl ..).trans ?_ | with_reducible refine (kept_updCtx ..).trans ?_ | split)

@[simp] theorem kept_endReplay (ctx : Nat) (s : State) :
    (endReplay ctx s).kept = s.kept := by
  unfold endReplay
  repeat' (first | with_reducible rfl | with_reducible refine (kept_finish ..).trans ?_ | with_reducible refine (kept_updCtx ..).trans ?_ | split)

@[simp] theorem kept_stepBoundary (ctx : Nat) (st : W16) (s : State) :
    (stepBoundary ctx st s).kept = s.kept := by
  unfold stepBoundary
  repeat' (first
    | with_reducible rfl
    | with_reducible assumption
    | (extract_lets +onlyGivenNames x; first
      | (have hx : State.kept x = s.kept := ?_; clear_value x; rename' x => y; on_goal 2 => (dsimp -zeta only [x] <;> clear x))
      | (clear_value x; rename' x => y)
      | (rename' x => y))
    | with_reducible refine (kept_updateBank ..).trans ?_
    | with_reducible refine (kept_rerunDiff ..).trans ?_
    | with_reducible refine (kept_flushEntries ..).trans ?_
    | with_reducible refine (kept_writeEntry ..).trans ?_
    | with_reducible refine (kept_sendDigest ..).trans ?_
    | with_reducible refine (kept_takePoint ..).trans ?_
    | with_reducible refine (kept_sendRisk ..).trans ?_
    | with_reducible refine (kept_endReplay ..).trans ?_
    | with_reducible refine (kept_updCtx ..).trans ?_
    | split
    | dsimp -zeta only
    | simp -zeta only [*])

/-! ## Schedule -/

@[simp] theorem kept_settleFences (ctx : Nat) (s : State) :
    (settleFences ctx s).kept = s.kept := by
  unfold settleFences
  repeat' (first
    | with_reducible rfl
    | with_reducible refine (kept_finish ..).trans ?_
    | with_reducible refine (kept_updCtx ..).trans ?_
    | with_reducible refine (kept_foldl _ ?_ _ _).trans ?_
    | with_reducible refine (kept_fold2 _ ?_ _ _).trans ?_
    | (intro s _ _)
    | (intro s _)
    | split
    | dsimp -zeta only)

@[simp] theorem kept_settleState (ctx : Nat) (s : State) :
    (settleState ctx s).kept = s.kept := by
  unfold settleState
  repeat' (first | with_reducible rfl | with_reducible refine (kept_updCtx ..).trans ?_ | split)

@[simp] theorem kept_endRun (ctx : Nat) (st : W16) (step : W64) (s : State) :
    (endRun ctx st step s).kept = s.kept := by
  unfold endRun
  repeat' (first
    | with_reducible rfl
    | with_reducible refine (kept_finish ..).trans ?_
    | with_reducible refine (kept_updCtx ..).trans ?_
    | with_reducible refine (kept_settleState ..).trans ?_
    | with_reducible refine (kept_foldl _ ?_ _ _).trans ?_
    | with_reducible refine (kept_fold2 _ ?_ _ _).trans ?_
    | (intro s _ _)
    | (intro s _)
    | split
    | dsimp -zeta only)

@[simp] theorem kept_earn (s : State) :
    (earn s).kept = s.kept := by
  unfold earn
  with_reducible rfl

@[simp] theorem kept_takeShares (s : State) :
    (takeShares s).kept = s.kept := by
  unfold takeShares
  with_reducible rfl

@[simp] theorem kept_scrubUnits (p base size : Nat) (s : State) :
    (scrubUnits p base size s).kept = s.kept := by
  unfold scrubUnits
  with_reducible rfl

@[simp] theorem kept_handover (p ctx : Nat) (s : State) :
    (handover p ctx s).kept = s.kept := by
  unfold handover
  repeat' (first
    | with_reducible rfl
    | with_reducible assumption
    | (extract_lets +onlyGivenNames x; first
      | (have hx : State.kept x = s.kept := ?_; clear_value x; rename' x => y; on_goal 2 => (dsimp -zeta only [x] <;> clear x))
      | (clear_value x; rename' x => y)
      | (rename' x => y))
    | with_reducible refine (kept_updCtx ..).trans ?_
    | with_reducible refine (kept_updPed2 ..).trans ?_
    | split
    | dsimp -zeta only
    | simp -zeta only [*])

@[simp] theorem kept_moveUnits (p base n dest : Nat) (s : State) :
    (moveUnits p base n dest s).kept = s.kept := by
  unfold moveUnits
  split <;> with_reducible rfl

@[simp] theorem kept_setPart (p : Nat) (x : LsPart) (s : State) :
    (setPart p x s).kept = s.kept := by
  unfold setPart
  repeat' (first | with_reducible rfl | with_reducible refine (kept_updPed2 ..).trans ?_ | split)

@[simp] theorem kept_relocate (p : Nat) (s : State) :
    (relocate p s).kept = s.kept := by
  unfold relocate
  repeat' (first
    | with_reducible rfl
    | with_reducible assumption
    | (extract_lets +onlyGivenNames x; first
      | (have hx : State.kept x = s.kept := ?_; clear_value x; rename' x => y; on_goal 2 => (dsimp -zeta only [x] <;> clear x))
      | (clear_value x; rename' x => y)
      | (rename' x => y))
    | with_reducible refine (kept_setPart ..).trans ?_
    | with_reducible refine (kept_moveUnits ..).trans ?_
    | with_reducible refine (kept_foldl _ ?_ _ _).trans ?_
    | with_reducible refine (kept_fold2 _ ?_ _ _).trans ?_
    | (intro s _ _)
    | (intro s _)
    | split
    | dsimp -zeta only
    | simp -zeta only [*])

@[simp] theorem kept_grantResidency (p : Nat) (s : State) :
    (grantResidency p s).kept = s.kept := by
  unfold grantResidency
  repeat' (first
    | with_reducible rfl
    | with_reducible assumption
    | (extract_lets +onlyGivenNames x; first
      | (have hx : State.kept x = s.kept := ?_; clear_value x; rename' x => y; on_goal 2 => (dsimp -zeta only [x] <;> clear x))
      | (clear_value x; rename' x => y)
      | (rename' x => y))
    | with_reducible refine (kept_relocate ..).trans ?_
    | with_reducible refine (kept_updPed2 ..).trans ?_
    | split
    | dsimp -zeta only
    | simp -zeta only [*])

@[simp] theorem kept_dropResidency (ctx p : Nat) (s : State) :
    (dropResidency ctx p s).kept = s.kept := by
  unfold dropResidency
  repeat' (first | with_reducible rfl | with_reducible refine (kept_scrubUnits ..).trans ?_ | with_reducible refine (kept_updPed2 ..).trans ?_ | split)

theorem kept_reserveArea {ctx rsize p : Nat} {s r : State} (h : reserveArea ctx rsize p s = some r) : r.kept = s.kept := by
  unfold reserveArea at h; dsimp only at h
  repeat' split at h
  all_goals cases h
  · rfl
  all_goals exact kept_fold2 _ (fun _ _ _ => by simp) _ _

theorem kept_reserveAreas {ctx rsize : Nat} {l : List Nat} {s r : State} (h : reserveAreas ctx rsize l s = some r) :
    r.kept = s.kept := by
  induction l generalizing s with
  | nil => cases h; rfl
  | cons p l ih =>
    rw [reserveAreas, Option.bind_eq_some_iff] at h
    obtain ⟨a, ha, hb⟩ := h
    exact (ih hb).trans (kept_reserveArea ha)

@[simp] theorem kept_freeAreas (ctx : Nat) (s : State) :
    (freeAreas ctx s).kept = s.kept := by
  unfold freeAreas
  repeat' (first
    | with_reducible rfl
    | with_reducible refine (kept_freeFrame ..).trans ?_
    | with_reducible refine (kept_foldl _ ?_ _ _).trans ?_
    | with_reducible refine (kept_fold2 _ ?_ _ _).trans ?_
    | (intro s _ _)
    | (intro s _)
    | split
    | dsimp -zeta only)

@[simp] theorem kept_settleDie (c : Nat) (s : State) :
    (settleDie c s).kept = s.kept := by
  unfold settleDie
  with_reducible rfl

@[simp] theorem kept_stopPiece (p : Nat) (s : State) :
    (stopPiece p s).kept = s.kept := by
  unfold stopPiece
  repeat' (first
    | with_reducible rfl
    | with_reducible refine (kept_scrubUnits ..).trans ?_
    | with_reducible refine (kept_updPed2 ..).trans ?_
    | with_reducible refine (kept_foldl _ ?_ _ _).trans ?_
    | with_reducible refine (kept_fold2 _ ?_ _ _).trans ?_
    | (intro s _ _)
    | (intro s _)
    | split
    | dsimp -zeta only)

@[simp] theorem kept_leasePed2 (ctx rsize p : Nat) (s : State) :
    (leasePed2 ctx rsize p s).kept = s.kept := by
  unfold leasePed2
  repeat' (first
    | with_reducible rfl
    | with_reducible refine (kept_handover ..).trans ?_
    | with_reducible refine (kept_stopPiece ..).trans ?_
    | with_reducible refine (kept_updPed2 ..).trans ?_
    | with_reducible refine (kept_setPart ..).trans ?_
    | with_reducible refine (kept_grantResidency ..).trans ?_
    | with_reducible refine (kept_settleDie ..).trans ?_
    | with_reducible refine (kept_foldl _ ?_ _ _).trans ?_
    | with_reducible refine (kept_fold2 _ ?_ _ _).trans ?_
    | (intro s _ _)
    | (intro s _)
    | split
    | dsimp -zeta only)

@[simp] theorem kept_releasePed2 (p : Nat) (s : State) :
    (releasePed2 p s).kept = s.kept := by
  unfold releasePed2
  repeat' (first | with_reducible rfl | with_reducible refine (kept_settleDie ..).trans ?_ | with_reducible refine (kept_updPed2 ..).trans ?_ | split)

@[simp] theorem kept_cleanRuns (ctx n : Nat) (s : State) : (cleanRuns ctx n s).kept = s.kept := by
  induction n generalizing s with
  | zero => rfl
  | succ n ih => unfold cleanRuns; repeat' (first | rfl | split | simp [-Prod.mk.injEq, ih])

@[simp] theorem kept_cleanRun (s : State) (c : Ctx) :
    (cleanRun s c).kept = s.kept := by
  unfold cleanRun
  repeat' (first | with_reducible rfl | with_reducible refine (kept_cleanRuns ..).trans ?_ | split)

@[simp] theorem kept_leaseAll (c : Ctx) (d : SegD) (s : State) : (leaseAll c d s).kept = s.kept := by
  unfold leaseAll
  extract_lets s1 held areas
  have h1 : s1.kept = s.kept := by
    dsimp -zeta only [s1]
    repeat' (first
    | with_reducible rfl
    | with_reducible assumption
    | (extract_lets +onlyGivenNames x; first
      | (have hx : State.kept x = s.kept := ?_; clear_value x; rename' x => y; on_goal 2 => (dsimp -zeta only [x] <;> clear x))
      | (clear_value x; rename' x => y)
      | (rename' x => y))
    | exact kept_reserveAreas (by assumption)
    | with_reducible refine (kept_updCtx ..).trans ?_
    | with_reducible refine (kept_endRun ..).trans ?_
    | with_reducible refine (kept_leasePed2 ..).trans ?_
    | with_reducible refine (kept_resumeLease ..).trans ?_
    | with_reducible refine (kept_foldl _ ?_ _ _).trans ?_
    | with_reducible refine (kept_fold2 _ ?_ _ _).trans ?_
    | (intro s _ _)
    | (intro s _)
    | split
    | dsimp -zeta only
    | simp -zeta only [*])
  have h2 : ∀ t, areas = some t → t.kept = s.kept := by
    intro t ht
    dsimp -zeta only [areas] at ht
    split at ht
    · exact (kept_reserveAreas ht).trans h1
    · cases ht; exact h1
  clear_value s1 held areas
  split
  · exact (kept_endRun ..).trans h1
  · rename_i t
    have h3 := h2 _ rfl
    repeat' (first
    | with_reducible rfl
    | with_reducible assumption
    | (extract_lets +onlyGivenNames x; first
      | (have hx : State.kept x = s.kept := ?_; clear_value x; rename' x => y; on_goal 2 => (dsimp -zeta only [x] <;> clear x))
      | (clear_value x; rename' x => y)
      | (rename' x => y))
    | exact kept_reserveAreas (by assumption)
    | with_reducible refine (kept_updCtx ..).trans ?_
    | with_reducible refine (kept_endRun ..).trans ?_
    | with_reducible refine (kept_leasePed2 ..).trans ?_
    | with_reducible refine (kept_resumeLease ..).trans ?_
    | with_reducible refine (kept_foldl _ ?_ _ _).trans ?_
    | with_reducible refine (kept_fold2 _ ?_ _ _).trans ?_
    | (intro s _ _)
    | (intro s _)
    | split
    | dsimp -zeta only
    | simp -zeta only [*])

@[simp] theorem kept_decideEach (l : List Nat) (b : Bool) (s : State) : (decideEach l b s).kept = s.kept := by
  induction l generalizing b s with
  | nil => rfl
  | cons w l ih =>
    unfold decideEach
    split
    · exact ih ..
    · split
      · exact ih ..
      · dsimp only
        split
        · exact (ih ..).trans (kept_leaseAll ..)
        · split
          · exact ih ..
          · refine (ih ..).trans ((kept_foldl _ ?_ _ _).trans rfl)
            intro s a; split <;> simp [-Prod.mk.injEq]

@[simp] theorem kept_dropReserved (s : State) :
    (dropReserved s).kept = s.kept := by
  unfold dropReserved
  with_reducible rfl

@[simp] theorem kept_claimPed2 (p : Nat) (s : State) :
    (claimPed2 p s).kept = s.kept := by
  unfold claimPed2
  repeat' (first
    | with_reducible rfl
    | with_reducible assumption
    | (extract_lets +onlyGivenNames x; first
      | (have hx : State.kept x = s.kept := ?_; clear_value x; rename' x => y; on_goal 2 => (dsimp -zeta only [x] <;> clear x))
      | (clear_value x; rename' x => y)
      | (rename' x => y))
    | with_reducible refine (kept_handover ..).trans ?_
    | with_reducible refine (kept_stopPiece ..).trans ?_
    | with_reducible refine (kept_settleDie ..).trans ?_
    | with_reducible refine (kept_updPed2 ..).trans ?_
    | with_reducible refine (kept_foldl _ ?_ _ _).trans ?_
    | with_reducible refine (kept_fold2 _ ?_ _ _).trans ?_
    | (intro s _ _)
    | (intro s _)
    | split
    | dsimp -zeta only
    | simp -zeta only [*])

@[simp] theorem kept_claimTests (s : State) :
    (claimTests s).kept = s.kept := by
  unfold claimTests
  repeat' (first
    | with_reducible rfl
    | with_reducible refine (kept_claimPed2 ..).trans ?_
    | with_reducible refine (kept_foldl _ ?_ _ _).trans ?_
    | with_reducible refine (kept_fold2 _ ?_ _ _).trans ?_
    | (intro s _ _)
    | (intro s _)
    | split
    | dsimp -zeta only)

@[simp] theorem kept_decideLeases (s : State) :
    (decideLeases s).kept = s.kept := by
  unfold decideLeases
  repeat' (first
    | with_reducible rfl
    | with_reducible refine (kept_takeShares ..).trans ?_
    | with_reducible refine (kept_earn ..).trans ?_
    | with_reducible refine (kept_claimTests ..).trans ?_
    | with_reducible refine (kept_dropReserved ..).trans ?_
    | with_reducible refine (kept_cleanRun ..).trans ?_
    | with_reducible refine (kept_decideEach ..).trans ?_
    | with_reducible refine (kept_foldl _ ?_ _ _).trans ?_
    | with_reducible refine (kept_fold2 _ ?_ _ _).trans ?_
    | (intro s _ _)
    | (intro s _)
    | split
    | dsimp -zeta only)

/-! ## Segments -/

@[simp] theorem kept_takeSelectors (ctx : Nat) (s : State) :
    (takeSelectors ctx s).kept = s.kept := by
  unfold takeSelectors
  repeat' (first
    | with_reducible rfl
    | with_reducible assumption
    | (extract_lets +onlyGivenNames x; first
      | (have hx : State.kept x = s.kept := ?_; clear_value x; rename' x => y; on_goal 2 => (dsimp -zeta only [x] <;> clear x))
      | (clear_value x; rename' x => y)
      | (rename' x => y))
    | with_reducible refine (kept_updCtx ..).trans ?_
    | split
    | dsimp -zeta only
    | simp -zeta only [*])

@[simp] theorem kept_takeBoundary (ctx : Nat) (s : State) :
    (takeBoundary ctx s).kept = s.kept := by
  unfold takeBoundary
  repeat' (first | with_reducible rfl | with_reducible refine (kept_takeSelectors ..).trans ?_ | with_reducible refine (kept_updCtx ..).trans ?_ | split)

@[simp] theorem kept_takeBallast (fp : List Nat) (s : State) :
    (takeBallast fp s).kept = s.kept := by
  unfold takeBallast
  with_reducible rfl

@[simp] theorem kept_loadFirst (g t : Nat) (s : State) :
    (loadFirst g t s).kept = s.kept := by
  unfold loadFirst
  repeat' (first
    | with_reducible rfl
    | with_reducible assumption
    | (extract_lets +onlyGivenNames x; first
      | (have hx : State.kept x = s.kept := ?_; clear_value x; rename' x => y; on_goal 2 => (dsimp -zeta only [x] <;> clear x))
      | (clear_value x; rename' x => y)
      | (rename' x => y))
    | with_reducible refine (kept_updThr ..).trans ?_
    | with_reducible refine (kept_segStatus ..).trans ?_
    | with_reducible refine (kept_consumePoison ..).trans ?_
    | split
    | dsimp -zeta only
    | simp -zeta only [*])

@[simp] theorem kept_askFirst (ctx cid n : Nat) (d : SegD) (s : State) :
    (askFirst ctx cid n d s).kept = s.kept := by
  unfold askFirst
  repeat' (first
    | with_reducible rfl
    | with_reducible refine (kept_updHz ..).trans ?_
    | with_reducible refine (kept_updCtx ..).trans ?_
    | with_reducible refine (kept_addReqAt ..).trans ?_
    | with_reducible refine (kept_foldl _ ?_ _ _).trans ?_
    | with_reducible refine (kept_fold2 _ ?_ _ _).trans ?_
    | (intro s _ _)
    | (intro s _)
    | split
    | dsimp -zeta only)

@[simp] theorem kept_startPed2 (ctx period : Nat) (x : Prog) (s : State) : (startPed2 ctx period x s).kept = s.kept := by
  unfold startPed2
  extract_lets p s1 s2 clean s3
  have h1 : s1.kept = s.kept := by dsimp -zeta only [s1]; repeat' (first | with_reducible rfl | split | exact kept_setPart ..)
  have h2 : s2.kept = s1.kept := kept_updPed2 ..
  clear_value s1
  clear_value s2
  have h3 : s3.kept = s2.kept := by with_reducible rfl
  clear_value s3
  refine (kept_foldl _ ?_ _ _).trans (by rw [h3, h2, h1])
  intro s k
  refine (kept_settle ..).trans (kept_foldl _ ?_ _ _)
  intro s t
  exact kept_loadFirst ..

@[simp] theorem kept_loadEntries (d : SegD) (s : State) :
    (loadEntries d s).kept = s.kept := by
  unfold loadEntries
  repeat' (first
    | with_reducible rfl
    | with_reducible refine (kept_xlatObj ..).trans ?_
    | with_reducible refine (kept_foldl _ ?_ _ _).trans ?_
    | with_reducible refine (kept_fold2 _ ?_ _ _).trans ?_
    | (intro s _ _)
    | (intro s _)
    | split
    | dsimp -zeta only)

@[simp] theorem kept_openStep (ctx : Nat) (first : Bool) (pl : Plan) (seed : Option W64) (s : State) :
    (openStep ctx first pl seed s).kept = s.kept := by
  unfold openStep
  repeat' (first | with_reducible rfl | with_reducible refine (kept_updCtx ..).trans ?_ | split)

@[simp] theorem kept_startSegment (ctx : Nat) (r : SegRun) (pl : Plan) (n : Nat) (d : SegD) (s : State) :
    (startSegment ctx r pl n d s).kept = s.kept := by
  unfold startSegment
  extract_lets fp s1 s2 lease
  have h1 : s1.kept = s.kept := (kept_takeBallast ..).trans (kept_takeBoundary ..)
  have h2 : s2.kept = s1.kept := kept_openStep ..
  clear_value lease s2 s1
  split
  · rw [h2, h1]
  · extract_lets d keys seg s3 s4 s5 s6
    have h3 : s3.kept = s2.kept := by with_reducible rfl
    have h4 : s4.kept = s3.kept := kept_updCtx ..
    have h5 : s5.kept = s4.kept := (kept_foldl _ (fun _ _ => kept_startPed2 ..) _ _).trans (kept_loadEntries ..)
    have h6 : s6.kept = s5.kept := kept_updCtx ..
    exact (kept_foldl _ (fun _ _ => kept_semAdd ..) _ _).trans (by rw [h6, h5, h4, h3, h2, h1])

@[simp] theorem kept_checkRegrow (r : RunSeg) (s : State) :
    (checkRegrow r s).kept = s.kept := by
  unfold checkRegrow
  repeat' (first
    | with_reducible rfl
    | with_reducible refine (kept_updCtx ..).trans ?_
    | with_reducible refine (kept_segStatus ..).trans ?_
    | with_reducible refine (kept_postRec ..).trans ?_
    | with_reducible refine (kept_foldl _ ?_ _ _).trans ?_
    | with_reducible refine (kept_fold2 _ ?_ _ _).trans ?_
    | (intro s _ _)
    | (intro s _)
    | split
    | dsimp -zeta only)

@[simp] theorem kept_releaseShared (r : RunSeg) (s : State) :
    (releaseShared r s).kept = s.kept := by
  unfold releaseShared
  repeat' (first
    | with_reducible rfl
    | with_reducible assumption
    | (extract_lets +onlyGivenNames x; first
      | (have hx : State.kept x = s.kept := ?_; clear_value x; rename' x => y; on_goal 2 => (dsimp -zeta only [x] <;> clear x))
      | (clear_value x; rename' x => y)
      | (rename' x => y))
    | with_reducible refine (kept_postRec ..).trans ?_
    | with_reducible refine (kept_updCtx ..).trans ?_
    | with_reducible refine (kept_foldl _ ?_ _ _).trans ?_
    | with_reducible refine (kept_fold2 _ ?_ _ _).trans ?_
    | (intro s _ _)
    | (intro s _)
    | split
    | dsimp -zeta only
    | simp -zeta only [*])

@[simp] theorem kept_dropXfers (ctx : Nat) (s : State) :
    (dropXfers ctx s).kept = s.kept := by
  unfold dropXfers
  repeat' (first
    | with_reducible rfl
    | with_reducible refine (kept_freeFrame ..).trans ?_
    | with_reducible refine (kept_dropCopy ..).trans ?_
    | with_reducible refine (kept_updSeg ..).trans ?_
    | with_reducible refine (kept_foldl _ ?_ _ _).trans ?_
    | with_reducible refine (kept_fold2 _ ?_ _ _).trans ?_
    | (intro s _ _)
    | (intro s _)
    | split
    | dsimp -zeta only)

@[simp] theorem kept_clearWork (ctx : Nat) (s : State) :
    (clearWork ctx s).kept = s.kept := by
  unfold clearWork
  with_reducible rfl

@[simp] theorem kept_clearGrains (ctx : Nat) (s : State) :
    (clearGrains ctx s).kept = s.kept := by
  unfold clearGrains
  repeat' (first
    | with_reducible rfl
    | with_reducible refine (kept_flushSamples ..).trans ?_
    | with_reducible refine (kept_dropXfers ..).trans ?_
    | with_reducible refine (kept_clearWork ..).trans ?_
    | with_reducible refine (kept_settlePool ..).trans ?_
    | with_reducible refine (kept_foldl _ ?_ _ _).trans ?_
    | with_reducible refine (kept_fold2 _ ?_ _ _).trans ?_
    | (intro s _ _)
    | (intro s _)
    | split
    | dsimp -zeta only)

@[simp] theorem kept_charge (r : RunSeg) (s : State) :
    (charge r s).kept = s.kept := by
  unfold charge
  repeat' (first | with_reducible rfl | with_reducible refine (kept_updCtx ..).trans ?_ | split)

@[simp] theorem kept_settleLease (ctx : Nat) (fp : List Nat) (s : State) :
    (settleLease ctx fp s).kept = s.kept := by
  unfold settleLease
  repeat' (first
    | with_reducible rfl
    | with_reducible refine (kept_updCtx ..).trans ?_
    | with_reducible refine (kept_updPed2 ..).trans ?_
    | with_reducible refine (kept_releasePed2 ..).trans ?_
    | with_reducible refine (kept_settleState ..).trans ?_
    | with_reducible refine (kept_foldl _ ?_ _ _).trans ?_
    | with_reducible refine (kept_fold2 _ ?_ _ _).trans ?_
    | (intro s _ _)
    | (intro s _)
    | split
    | dsimp -zeta only)

@[simp] theorem kept_boundaryWork (ctx : Nat) (s : State) :
    (boundaryWork ctx s).kept = s.kept := by
  unfold boundaryWork
  repeat' (first
    | with_reducible rfl
    | with_reducible refine (kept_admitHot ..).trans ?_
    | with_reducible refine (kept_mergeSwitch ..).trans ?_
    | with_reducible refine (kept_retireFrames ..).trans ?_
    | with_reducible refine (kept_settlePromos ..).trans ?_
    | with_reducible refine (kept_switchMoves ..).trans ?_
    | split
    | dsimp -zeta only)

@[simp] theorem kept_fwBoundary (fp : List Nat) (s : State) :
    (fwBoundary fp s).kept = s.kept := by
  unfold fwBoundary
  repeat' (first
    | with_reducible rfl
    | with_reducible assumption
    | (extract_lets +onlyGivenNames x; first
      | (have hx : State.kept x = s.kept := ?_; clear_value x; rename' x => y; on_goal 2 => (dsimp -zeta only [x] <;> clear x))
      | (clear_value x; rename' x => y)
      | (rename' x => y))
    | with_reducible refine (kept_foldl _ ?_ _ _).trans ?_
    | with_reducible refine (kept_fold2 _ ?_ _ _).trans ?_
    | (intro s _ _)
    | (intro s _)
    | split
    | dsimp -zeta only
    | simp -zeta only [*])

@[simp] theorem kept_afterSegment (r : RunSeg) (st : W16) (step : W64) (s : State) :
    (afterSegment r st step s).kept = s.kept := by
  unfold afterSegment
  repeat' (first
    | with_reducible rfl
    | with_reducible assumption
    | (extract_lets +onlyGivenNames x; first
      | (have hx : State.kept x = s.kept := ?_; clear_value x; rename' x => y; on_goal 2 => (dsimp -zeta only [x] <;> clear x))
      | (clear_value x; rename' x => y)
      | (rename' x => y))
    | with_reducible refine (kept_updRun ..).trans ?_
    | with_reducible refine (kept_endRun ..).trans ?_
    | split
    | dsimp -zeta only
    | simp -zeta only [*])

@[simp] theorem kept_holdBoundary (fp : List Nat) (s : State) :
    (holdBoundary fp s).kept = s.kept := by
  unfold holdBoundary
  repeat' (first
    | with_reducible rfl
    | with_reducible refine (kept_updPed2 ..).trans ?_
    | with_reducible refine (kept_foldl _ ?_ _ _).trans ?_
    | with_reducible refine (kept_fold2 _ ?_ _ _).trans ?_
    | (intro s _ _)
    | (intro s _)
    | split
    | dsimp -zeta only)

@[simp] theorem kept_endHold (ctx : Nat) (fp : List Nat) (s : State) :
    (endHold ctx fp s).kept = s.kept := by
  unfold endHold
  repeat' (first
    | with_reducible rfl
    | with_reducible refine (kept_updCtx ..).trans ?_
    | with_reducible refine (kept_updPed2 ..).trans ?_
    | with_reducible refine (kept_foldl _ ?_ _ _).trans ?_
    | with_reducible refine (kept_fold2 _ ?_ _ _).trans ?_
    | (intro s _ _)
    | (intro s _)
    | split
    | dsimp -zeta only)

@[simp] theorem kept_endSegment (r : RunSeg) (s : State) : (endSegment r s).kept = s.kept := by
  unfold endSegment
  extract_lets ctx s1 s2 s3 s4 s5 st step s6 s7 s8 s9 s10 s11 s12
  have h12 : (afterSegment r st step s12).kept = s11.kept := by
    refine (kept_afterSegment r st step s12).trans ?_
    dsimp -zeta only [s12]
  refine h12.trans ?_
  clear h12 s12
  have h11 : s11.kept = s10.kept := by with_reducible exact kept_updCtx ctx _ s10
  refine h11.trans ?_
  clear h11 s11
  have h10 : s10.kept = s9.kept := by with_reducible exact kept_holdBoundary _ s9
  refine h10.trans ?_
  clear h10 s10
  have h9 : s9.kept = s8.kept := by with_reducible exact (kept_fwBoundary ..).trans ((kept_takeBallast ..).trans (kept_takeBoundary ctx s8))
  refine h9.trans ?_
  clear h9 s9
  have h8 : s8.kept = s7.kept := by with_reducible exact kept_boundaryWork ctx s7
  refine h8.trans ?_
  clear h8 s8
  have h7 : s7.kept = s6.kept := by with_reducible exact kept_charge r s6
  refine h7.trans ?_
  clear h7 s7
  have h6 : s6.kept = s5.kept := by
    dsimp -zeta only [s6]
    split
    · with_reducible exact (kept_stepBoundary ..).trans (kept_sieveStepEnd ctx s5)
    · with_reducible rfl
  refine h6.trans ?_
  clear h6 s6 step st
  have h5 : s5.kept = s4.kept := by
    dsimp -zeta only [s5]
    split
    · split
      · split
        · with_reducible exact (kept_updCtx ..).trans (kept_segStatus ctx _ s4)
        · with_reducible rfl
      · with_reducible rfl
    · with_reducible rfl
  refine h5.trans ?_
  clear h5 s5
  have h4 : s4.kept = s1.kept := by with_reducible exact (kept_clearGrains ctx s3).trans ((kept_dropClods ctx s2).trans (kept_releaseShared r s1))
  refine h4.trans ?_
  clear h4 s4 s3 s2
  dsimp -zeta only [s1]
  split
  · split
    · with_reducible exact kept_checkRegrow ..
    · with_reducible rfl
  · with_reducible rfl

@[simp] theorem kept_doSegmentStart (ctx : Nat) (s : State) :
    (doSegmentStart ctx s).kept = s.kept := by
  unfold doSegmentStart
  repeat' (first
    | with_reducible rfl
    | with_reducible assumption
    | (extract_lets +onlyGivenNames x; first
      | (have hx : State.kept x = s.kept := ?_; clear_value x; rename' x => y; on_goal 2 => (dsimp -zeta only [x] <;> clear x))
      | (clear_value x; rename' x => y)
      | (rename' x => y))
    | with_reducible refine (kept_decideLeases ..).trans ?_
    | with_reducible refine (kept_settleLease ..).trans ?_
    | with_reducible refine (kept_endRun ..).trans ?_
    | with_reducible refine (kept_earn ..).trans ?_
    | with_reducible refine (kept_askFirst ..).trans ?_
    | with_reducible refine (kept_startSegment ..).trans ?_
    | with_reducible refine (kept_endHold ..).trans ?_
    | split
    | dsimp -zeta only
    | simp -zeta only [*])

@[simp] theorem kept_doSegmentEnd (ctx : Nat) (s : State) : (doSegmentEnd ctx s).kept = s.kept := by
  unfold doSegmentEnd
  split
  · rfl
  · split
    · rfl
    · exact (kept_decideLeases ..).trans ((kept_settleLease ..).trans ((kept_takeShares ..).trans ((kept_settleFences ..).trans ((kept_endSegment ..).trans (kept_earn ..)))))

@[simp] theorem kept_watchdogRec (s0 : State) (r : RunSeg) (x : Prog) (s : State) :
    (watchdogRec s0 r x s).kept = s.kept := by
  unfold watchdogRec
  repeat' (first
    | with_reducible rfl
    | with_reducible assumption
    | (extract_lets +onlyGivenNames x; first
      | (have hx : State.kept x = s.kept := ?_; clear_value x; rename' x => y; on_goal 2 => (dsimp -zeta only [x] <;> clear x))
      | (clear_value x; rename' x => y)
      | (rename' x => y))
    | with_reducible refine (kept_postRec ..).trans ?_
    | with_reducible refine (kept_foldl _ ?_ _ _).trans ?_
    | with_reducible refine (kept_fold2 _ ?_ _ _).trans ?_
    | (intro s _ _)
    | (intro s _)
    | split
    | dsimp -zeta only
    | simp -zeta only [*])

@[simp] theorem kept_doSegmentWatchdog (ctx : Nat) (s : State) :
    (doSegmentWatchdog ctx s).kept = s.kept := by
  unfold doSegmentWatchdog
  repeat' (first
    | with_reducible rfl
    | with_reducible refine (kept_stopSeg ..).trans ?_
    | with_reducible refine (kept_watchdogRec ..).trans ?_
    | with_reducible refine (kept_foldl _ ?_ _ _).trans ?_
    | with_reducible refine (kept_fold2 _ ?_ _ _).trans ?_
    | (intro s _ _)
    | (intro s _)
    | split
    | dsimp -zeta only)

@[simp] theorem kept_doDeepSaveDone (ctx p : Nat) (s : State) :
    (doDeepSaveDone ctx p s).kept = s.kept := by
  unfold doDeepSaveDone
  repeat' (first | with_reducible rfl | with_reducible refine (kept_grantResidency ..).trans ?_ | with_reducible refine (kept_dropResidency ..).trans ?_ | split)

@[simp] theorem kept_doDeepRestoreDone (ctx p : Nat) (s : State) :
    (doDeepRestoreDone ctx p s).kept = s.kept := by
  unfold doDeepRestoreDone
  repeat' (first
    | with_reducible rfl
    | with_reducible refine (kept_updPhys ..).trans ?_
    | with_reducible refine (kept_updPed2 ..).trans ?_
    | with_reducible refine (kept_foldl _ ?_ _ _).trans ?_
    | with_reducible refine (kept_fold2 _ ?_ _ _).trans ?_
    | (intro s _ _)
    | (intro s _)
    | split
    | dsimp -zeta only)

@[simp] theorem kept_doFabricDrainEnd (ctx : Nat) (s : State) :
    (doFabricDrainEnd ctx s).kept = s.kept := by
  unfold doFabricDrainEnd
  repeat' (first | with_reducible rfl | with_reducible refine (kept_holdChunks ..).trans ?_ | with_reducible refine (kept_updCtx ..).trans ?_ | split)

@[simp] theorem kept_doDiePark (c : Nat) (s : State) :
    (doDiePark c s).kept = s.kept := by
  unfold doDiePark
  repeat' (first
    | with_reducible rfl
    | split
    | dsimp -zeta only)

@[simp] theorem kept_doGrainPllLock (c : Nat) (s : State) :
    (doGrainPllLock c s).kept = s.kept := by
  unfold doGrainPllLock
  repeat' (first
    | with_reducible rfl
    | split
    | dsimp -zeta only)

@[simp] theorem kept_setXfer (ctx idx : Nat) (x : XferSt) (s : State) :
    (setXfer ctx idx x s).kept = s.kept := by
  unfold setXfer
  repeat' (first | with_reducible rfl | with_reducible refine (kept_updSeg ..).trans ?_ | split)

@[simp] theorem kept_xferReads (die ctx idx : Nat) (e : XferEnt) (o : Obj) (s : State) :
    (xferReads die ctx idx e o s).kept = s.kept := by
  unfold xferReads
  repeat' (first
    | with_reducible rfl
    | with_reducible assumption
    | (extract_lets +onlyGivenNames x; first
      | (have hx : State.kept x = s.kept := ?_; clear_value x; rename' x => y; on_goal 2 => (dsimp -zeta only [x] <;> clear x))
      | (have hx : State.kept x.2 = s.kept := ?_; clear_value x; rename' x => y; on_goal 2 => (dsimp -zeta only [x] <;> clear x))
      | (have hx : State.kept x.2.2 = s.kept := ?_; clear_value x; rename' x => y; on_goal 2 => (dsimp -zeta only [x] <;> clear x))
      | (have hx : ∀ s, State.kept (x s) = s.kept := ?_; clear_value x; rename' x => y; on_goal 2 => (intro s; dsimp -zeta only [x] <;> clear x))
      | (have hx : ∀ a, State.kept (x a) = s.kept := ?_; clear_value x; rename' x => y; on_goal 2 => (intro a; dsimp -zeta only [x] <;> clear x))
      | (have hx : ∀ a s, State.kept (x a s) = s.kept := ?_; clear_value x; rename' x => y; on_goal 2 => (intro a s; dsimp -zeta only [x] <;> clear x))
      | (have hx : ∀ a b s, State.kept (x a b s) = s.kept := ?_; clear_value x; rename' x => y; on_goal 2 => (intro a b s; dsimp -zeta only [x] <;> clear x))
      | (have hx : ∀ a b c s, State.kept (x a b c s) = s.kept := ?_; clear_value x; rename' x => y; on_goal 2 => (intro a b c s; dsimp -zeta only [x] <;> clear x))
      | (have hx : ∀ a b c d s, State.kept (x a b c d s) = s.kept := ?_; clear_value x; rename' x => y; on_goal 2 => (intro a b c d s; dsimp -zeta only [x] <;> clear x))
      | (have hx : ∀ a b c d e s, State.kept (x a b c d e s) = s.kept := ?_; clear_value x; rename' x => y; on_goal 2 => (intro a b c d e s; dsimp -zeta only [x] <;> clear x))
      | (have hx : ∀ a b, State.kept (x a b) = s.kept := ?_; clear_value x; rename' x => y; on_goal 2 => (intro a b; dsimp -zeta only [x] <;> clear x))
      | (have hx : ∀ a b c, State.kept (x a b c) = s.kept := ?_; clear_value x; rename' x => y; on_goal 2 => (intro a b c; dsimp -zeta only [x] <;> clear x))
      | (clear_value x; rename' x => y)
      | (rename' x => y))
    | with_reducible refine (kept_addReqAt ..).trans ?_
    | with_reducible refine (kept_foldl _ ?_ _ _).trans ?_
    | with_reducible refine (kept_fold2 _ ?_ _ _).trans ?_
    | (intro s _ _)
    | (intro s _)
    | split
    | dsimp -zeta only
    | simp -zeta only [*])

@[simp] theorem kept_xferCopies (ctx idx : Nat) (s : State) :
    (xferCopies ctx idx s).kept = s.kept := by
  unfold xferCopies
  repeat' (first
    | with_reducible rfl
    | with_reducible refine (kept_allocFrame ..).trans ?_
    | with_reducible refine (kept_copyUnits ..).trans ?_
    | with_reducible refine (kept_setXfer ..).trans ?_
    | with_reducible refine (kept_foldl _ ?_ _ _).trans ?_
    | with_reducible refine (kept_fold2 _ ?_ _ _).trans ?_
    | (intro s _ _)
    | (intro s _)
    | split
    | dsimp -zeta only)

@[simp] theorem kept_doHubTransferStart (ctx idx : Nat) (s : State) :
    (doHubTransferStart ctx idx s).kept = s.kept := by
  unfold doHubTransferStart
  repeat' (first
    | with_reducible rfl
    | with_reducible assumption
    | (extract_lets +onlyGivenNames x; first
      | (have hx : State.kept x = s.kept := ?_; clear_value x; rename' x => y; on_goal 2 => (dsimp -zeta only [x] <;> clear x))
      | (clear_value x; rename' x => y)
      | (rename' x => y))
    | with_reducible refine (kept_setXfer ..).trans ?_
    | with_reducible refine (kept_xferReads ..).trans ?_
    | with_reducible refine (kept_xferCopies ..).trans ?_
    | with_reducible refine (kept_foldl _ ?_ _ _).trans ?_
    | with_reducible refine (kept_fold2 _ ?_ _ _).trans ?_
    | (intro s _ _)
    | (intro s _)
    | split
    | dsimp -zeta only
    | simp -zeta only [*])

@[simp] theorem kept_xferValid (ctx idx : Nat) (e : XferEnt) (s : State) :
    (xferValid ctx idx e s).kept = s.kept := by
  unfold xferValid
  repeat' (first
    | with_reducible rfl
    | with_reducible refine (kept_freeFrame ..).trans ?_
    | with_reducible refine (kept_updHz ..).trans ?_
    | with_reducible refine (kept_validatePromo ..).trans ?_
    | with_reducible refine (kept_copyNow ..).trans ?_
    | with_reducible refine (kept_copyReach ..).trans ?_
    | with_reducible refine (kept_setXfer ..).trans ?_
    | with_reducible refine (kept_foldl _ ?_ _ _).trans ?_
    | with_reducible refine (kept_fold2 _ ?_ _ _).trans ?_
    | (intro s _ _)
    | (intro s _)
    | split
    | dsimp -zeta only)

@[simp] theorem kept_doHubTransferComplete (ctx idx : Nat) (s : State) :
    (doHubTransferComplete ctx idx s).kept = s.kept := by
  unfold doHubTransferComplete
  repeat' (first
    | with_reducible rfl
    | with_reducible assumption
    | (extract_lets +onlyGivenNames x; first
      | (have hx : State.kept x = s.kept := ?_; clear_value x; rename' x => y; on_goal 2 => (dsimp -zeta only [x] <;> clear x))
      | (have hx : State.kept x.2 = s.kept := ?_; clear_value x; rename' x => y; on_goal 2 => (dsimp -zeta only [x] <;> clear x))
      | (have hx : State.kept x.2.2 = s.kept := ?_; clear_value x; rename' x => y; on_goal 2 => (dsimp -zeta only [x] <;> clear x))
      | (have hx : ∀ s, State.kept (x s) = s.kept := ?_; clear_value x; rename' x => y; on_goal 2 => (intro s; dsimp -zeta only [x] <;> clear x))
      | (have hx : ∀ a, State.kept (x a) = s.kept := ?_; clear_value x; rename' x => y; on_goal 2 => (intro a; dsimp -zeta only [x] <;> clear x))
      | (have hx : ∀ a s, State.kept (x a s) = s.kept := ?_; clear_value x; rename' x => y; on_goal 2 => (intro a s; dsimp -zeta only [x] <;> clear x))
      | (clear_value x; rename' x => y)
      | (rename' x => y))
    | with_reducible refine (kept_setXfer ..).trans ?_
    | with_reducible refine (kept_semAdd ..).trans ?_
    | with_reducible refine (kept_xferValid ..).trans ?_
    | with_reducible refine (kept_xferCopies ..).trans ?_
    | split
    | dsimp -zeta only
    | simp -zeta only [*])

/-! ## Contexts -/

@[simp] theorem kept_doCtxCreate (cid : Nat) (s : State) :
    (doCtxCreate cid s).kept = s.kept := by
  unfold doCtxCreate
  repeat' (first
    | with_reducible rfl
    | with_reducible assumption
    | (extract_lets +onlyGivenNames x; first
      | (have hx : State.kept x = s.kept := ?_; clear_value x; rename' x => y; on_goal 2 => (dsimp -zeta only [x] <;> clear x))
      | (have hx : State.kept x.2 = s.kept := ?_; clear_value x; rename' x => y; on_goal 2 => (dsimp -zeta only [x] <;> clear x))
      | (have hx : State.kept x.2.2 = s.kept := ?_; clear_value x; rename' x => y; on_goal 2 => (dsimp -zeta only [x] <;> clear x))
      | (clear_value x; rename' x => y)
      | (rename' x => y))
    | with_reducible refine (kept_startCmd ..).trans ?_
    | with_reducible refine (kept_finish0 ..).trans ?_
    | with_reducible refine (kept_allocFrames ..).trans ?_
    | with_reducible refine (kept_updFn ..).trans ?_
    | with_reducible refine (kept_finish ..).trans ?_
    | split
    | dsimp -zeta only
    | simp -zeta only [*])

@[simp] theorem kept_closeWindows (ctx : Nat) (s : State) :
    (closeWindows ctx s).kept = s.kept := by
  unfold closeWindows
  repeat' (first
    | with_reducible rfl
    | with_reducible refine (kept_updHz ..).trans ?_
    | with_reducible refine (kept_updFab ..).trans ?_
    | with_reducible refine (kept_winReply ..).trans ?_
    | with_reducible refine (kept_foldl _ ?_ _ _).trans ?_
    | with_reducible refine (kept_fold2 _ ?_ _ _).trans ?_
    | (intro s _ _)
    | (intro s _)
    | split
    | dsimp -zeta only)

@[simp] theorem kept_dropSieves (ctx : Nat) (s : State) :
    (dropSieves ctx s).kept = s.kept := by
  unfold dropSieves
  repeat' (first
    | with_reducible rfl
    | with_reducible assumption
    | (extract_lets +onlyGivenNames x; first
      | (have hx : State.kept x = s.kept := ?_; clear_value x; rename' x => y; on_goal 2 => (dsimp -zeta only [x] <;> clear x))
      | (clear_value x; rename' x => y)
      | (rename' x => y))
    | with_reducible refine (kept_dropTable ..).trans ?_
    | with_reducible refine (kept_foldl _ ?_ _ _).trans ?_
    | with_reducible refine (kept_fold2 _ ?_ _ _).trans ?_
    | (intro s _ _)
    | (intro s _)
    | split
    | dsimp -zeta only
    | simp -zeta only [*])

@[simp] theorem kept_dropResidencies (ctx : Nat) (s : State) :
    (dropResidencies ctx s).kept = s.kept := by
  unfold dropResidencies
  repeat' (first
    | with_reducible rfl
    | with_reducible refine (kept_releasePed2 ..).trans ?_
    | with_reducible refine (kept_grantResidency ..).trans ?_
    | with_reducible refine (kept_dropResidency ..).trans ?_
    | with_reducible refine (kept_updPed2 ..).trans ?_
    | with_reducible refine (kept_freeAreas ..).trans ?_
    | with_reducible refine (kept_foldl _ ?_ _ _).trans ?_
    | with_reducible refine (kept_fold2 _ ?_ _ _).trans ?_
    | (intro s _ _)
    | (intro s _)
    | split
    | dsimp -zeta only)

@[simp] theorem kept_purgeCtx (ctx : Nat) (keep : Option Nat) (s : State) :
    (purgeCtx ctx keep s).kept = s.kept := by
  unfold purgeCtx
  repeat' (first
    | with_reducible rfl
    | with_reducible refine (kept_dropXfers ..).trans ?_
    | with_reducible refine (kept_dropClods ..).trans ?_
    | with_reducible refine (kept_closeWindows ..).trans ?_
    | with_reducible refine (kept_freeOwed ..).trans ?_
    | with_reducible refine (kept_updFab ..).trans ?_
    | with_reducible refine (kept_settleApers ..).trans ?_
    | with_reducible refine (kept_dropSieves ..).trans ?_
    | with_reducible refine (kept_dropObj ..).trans ?_
    | with_reducible refine (kept_dropResidencies ..).trans ?_
    | with_reducible refine (kept_freeFrame ..).trans ?_
    | with_reducible refine (kept_updFn ..).trans ?_
    | with_reducible refine (kept_foldl _ ?_ _ _).trans ?_
    | with_reducible refine (kept_fold2 _ ?_ _ _).trans ?_
    | (intro s _ _)
    | (intro s _)
    | split
    | dsimp -zeta only)

@[simp] theorem kept_doCtxDestroy (cid : Nat) (s : State) :
    (doCtxDestroy cid s).kept = s.kept := by
  unfold doCtxDestroy
  repeat' (first
    | with_reducible rfl
    | with_reducible assumption
    | (extract_lets +onlyGivenNames x; first
      | (have hx : State.kept x = s.kept := ?_; clear_value x; rename' x => y; on_goal 2 => (dsimp -zeta only [x] <;> clear x))
      | (clear_value x; rename' x => y)
      | (rename' x => y))
    | with_reducible refine (kept_startCmd ..).trans ?_
    | with_reducible refine (kept_finish0 ..).trans ?_
    | with_reducible refine (kept_purgeCtx ..).trans ?_
    | split
    | dsimp -zeta only
    | simp -zeta only [*])

@[simp] theorem kept_killCtx (ctx : Nat) (keep : Option Nat) (s : State) : (killCtx ctx keep s).kept = s.kept := by
  unfold killCtx
  extract_lets ran s1 s2 s3 s4
  have h1 : s1.kept = s.kept := by with_reducible exact kept_updCtx ctx _ s
  have h2 : s2.kept = s1.kept := by with_reducible exact kept_stopSeg ctx _ _ s1
  have h3 : s3.kept = s2.kept := by with_reducible exact kept_foldl _ (fun _ _ => kept_failInst ..) _ s2
  have h4 : s4.kept = s3.kept := by with_reducible exact kept_purgeCtx ctx keep s3
  clear_value s4 s3 s2 s1
  split
  · with_reducible exact (kept_decideLeases _).trans (by rw [h4, h3, h2, h1])
  · rw [h4, h3, h2, h1]

@[simp] theorem kept_doCtxKill (cid : Nat) (s : State) :
    (doCtxKill cid s).kept = s.kept := by
  unfold doCtxKill
  repeat' (first
    | with_reducible rfl
    | with_reducible assumption
    | (extract_lets +onlyGivenNames x; first
      | (have hx : State.kept x = s.kept := ?_; clear_value x; rename' x => y; on_goal 2 => (dsimp -zeta only [x] <;> clear x))
      | (clear_value x; rename' x => y)
      | (rename' x => y))
    | with_reducible refine (kept_startCmd ..).trans ?_
    | with_reducible refine (kept_finish0 ..).trans ?_
    | with_reducible refine (kept_finish ..).trans ?_
    | with_reducible refine (kept_killCtx ..).trans ?_
    | split
    | dsimp -zeta only
    | simp -zeta only [*])

@[simp] theorem kept_doSetShare (cid : Nat) (s : State) :
    (doSetShare cid s).kept = s.kept := by
  unfold doSetShare
  repeat' (first
    | with_reducible rfl
    | with_reducible assumption
    | (extract_lets +onlyGivenNames x; first
      | (have hx : State.kept x = s.kept := ?_; clear_value x; rename' x => y; on_goal 2 => (dsimp -zeta only [x] <;> clear x))
      | (clear_value x; rename' x => y)
      | (rename' x => y))
    | with_reducible refine (kept_startCmd ..).trans ?_
    | with_reducible refine (kept_finish0 ..).trans ?_
    | with_reducible refine (kept_updPort ..).trans ?_
    | with_reducible refine (kept_updFn ..).trans ?_
    | with_reducible refine (kept_updCtx ..).trans ?_
    | split
    | dsimp -zeta only
    | simp -zeta only [*])

/-! ## Plans -/

@[simp] theorem kept_doPlanLoad (cid : Nat) (s : State) :
    (doPlanLoad cid s).kept = s.kept := by
  unfold doPlanLoad
  repeat' (first
    | with_reducible rfl
    | with_reducible assumption
    | (extract_lets +onlyGivenNames x; first
      | (have hx : State.kept x = s.kept := ?_; clear_value x; rename' x => y; on_goal 2 => (dsimp -zeta only [x] <;> clear x))
      | (clear_value x; rename' x => y)
      | (rename' x => y))
    | with_reducible refine (kept_startCmd ..).trans ?_
    | with_reducible refine (kept_finish0 ..).trans ?_
    | with_reducible refine (kept_finish ..).trans ?_
    | with_reducible refine (kept_updCtx ..).trans ?_
    | split
    | dsimp -zeta only
    | simp -zeta only [*])

@[simp] theorem kept_doPlanUnload (cid : Nat) (s : State) :
    (doPlanUnload cid s).kept = s.kept := by
  unfold doPlanUnload
  repeat' (first
    | with_reducible rfl
    | with_reducible assumption
    | (extract_lets +onlyGivenNames x; first
      | (have hx : State.kept x = s.kept := ?_; clear_value x; rename' x => y; on_goal 2 => (dsimp -zeta only [x] <;> clear x))
      | (clear_value x; rename' x => y)
      | (rename' x => y))
    | with_reducible refine (kept_startCmd ..).trans ?_
    | with_reducible refine (kept_finish0 ..).trans ?_
    | with_reducible refine (kept_updCtx ..).trans ?_
    | split
    | dsimp -zeta only
    | simp -zeta only [*])

@[simp] theorem kept_runBad (cid seg : Nat) (s : State) :
    (runBad cid seg s).kept = s.kept := by
  unfold runBad
  repeat' (first | with_reducible rfl | with_reducible refine (kept_finish ..).trans ?_ | split)

@[simp] theorem kept_doSegRun (cid : Nat) (s : State) :
    (doSegRun cid s).kept = s.kept := by
  unfold doSegRun
  repeat' (first
    | with_reducible rfl
    | with_reducible assumption
    | (extract_lets +onlyGivenNames x; first
      | (have hx : State.kept x = s.kept := ?_; clear_value x; rename' x => y; on_goal 2 => (dsimp -zeta only [x] <;> clear x))
      | (clear_value x; rename' x => y)
      | (rename' x => y))
    | with_reducible refine (kept_startCmd ..).trans ?_
    | with_reducible refine (kept_finish0 ..).trans ?_
    | with_reducible refine (kept_finish ..).trans ?_
    | with_reducible refine (kept_runBad ..).trans ?_
    | with_reducible refine (kept_decideLeases ..).trans ?_
    | with_reducible refine (kept_updCtx ..).trans ?_
    | with_reducible refine (kept_earn ..).trans ?_
    | split
    | dsimp -zeta only
    | simp -zeta only [*])

@[simp] theorem kept_doSegFence (cid : Nat) (s : State) :
    (doSegFence cid s).kept = s.kept := by
  unfold doSegFence
  repeat' (first
    | with_reducible rfl
    | with_reducible assumption
    | (extract_lets +onlyGivenNames x; first
      | (have hx : State.kept x = s.kept := ?_; clear_value x; rename' x => y; on_goal 2 => (dsimp -zeta only [x] <;> clear x))
      | (clear_value x; rename' x => y)
      | (rename' x => y))
    | with_reducible refine (kept_startCmd ..).trans ?_
    | with_reducible refine (kept_finish0 ..).trans ?_
    | with_reducible refine (kept_updCtx ..).trans ?_
    | with_reducible refine (kept_finish ..).trans ?_
    | split
    | dsimp -zeta only
    | simp -zeta only [*])

end Sys2Proof.Machine
end

