-- ==== Sys2Proof/Laws/KeptBoard.lean ====
section
/-! SUPPORT. What a step moves, part by part: power, start-up, resilience, security, the host interface and registers leave alone the clocks, the factory parts, the certificate chain and the
queue. -/

namespace Sys2Proof.Machine

open Sys2Proof

set_option maxRecDepth 4096
set_option linter.all false

/-! ## Power -/

@[simp] theorem kept_updDie (c : Nat) (f : DiePwr → DiePwr) (s : State) :
    (updDie c f s).kept = s.kept := by
  unfold updDie
  with_reducible rfl

@[simp] theorem kept_slewTo (f : Nat) (s : State) :
    (slewTo f s).kept = s.kept := by
  unfold slewTo
  split <;> with_reducible rfl

@[simp] theorem kept_clockStep (s : State) :
    (clockStep s).kept = s.kept := by
  unfold clockStep
  repeat' (first | with_reducible rfl | with_reducible refine (kept_slewTo ..).trans ?_ | split)

@[simp] theorem kept_doClockSlewDone (s : State) :
    (doClockSlewDone s).kept = s.kept := by
  unfold doClockSlewDone
  with_reducible rfl

@[simp] theorem kept_voltageStep (c : Nat) (s : State) :
    (voltageStep c s).kept = s.kept := by
  unfold voltageStep
  repeat' (first | with_reducible rfl | with_reducible refine (kept_updDie ..).trans ?_ | split)

@[simp] theorem kept_retireDie (c cause : Nat) (s : State) :
    (retireDie c cause s).kept = s.kept := by
  unfold retireDie
  repeat' (first
    | with_reducible rfl
    | with_reducible refine (kept_retirePed2 ..).trans ?_
    | with_reducible refine (kept_foldl _ ?_ _ _).trans ?_
    | with_reducible refine (kept_fold2 _ ?_ _ _).trans ?_
    | (intro s _ _)
    | (intro s _)
    | split
    | dsimp -zeta only)

@[simp] theorem kept_takeClkctl (s : State) :
    (takeClkctl s).kept = s.kept := by
  unfold takeClkctl
  repeat' (first
    | with_reducible rfl
    | with_reducible assumption
    | (extract_lets +onlyGivenNames x; first
      | (have hx : State.kept x = s.kept := ?_; clear_value x; rename' x => y; on_goal 2 => (dsimp -zeta only [x] <;> clear x))
      | (clear_value x; rename' x => y)
      | (rename' x => y))
    | with_reducible refine (kept_slewTo ..).trans ?_
    | split
    | dsimp -zeta only
    | simp -zeta only [*])

@[simp] theorem kept_ageDies (slack : List Nat) (s : State) :
    (ageDies slack s).kept = s.kept := by
  unfold ageDies
  repeat' (first
    | with_reducible rfl
    | with_reducible assumption
    | (extract_lets +onlyGivenNames x; first
      | (have hx : State.kept x = s.kept := ?_; clear_value x; rename' x => y; on_goal 2 => (dsimp -zeta only [x] <;> clear x))
      | (clear_value x; rename' x => y)
      | (rename' x => y))
    | with_reducible refine (kept_updDie ..).trans ?_
    | with_reducible refine (kept_voltageStep ..).trans ?_
    | with_reducible refine (kept_clockStep ..).trans ?_
    | with_reducible refine (kept_retireDie ..).trans ?_
    | with_reducible refine (kept_foldl _ ?_ _ _).trans ?_
    | with_reducible refine (kept_fold2 _ ?_ _ _).trans ?_
    | (intro s _ _)
    | (intro s _)
    | split
    | dsimp -zeta only
    | simp -zeta only [*])

@[simp] theorem kept_thermalRec (die ev : Nat) (temp : Int) (s : State) :
    (thermalRec die ev temp s).kept = s.kept := by
  unfold thermalRec
  repeat' (first | with_reducible rfl | with_reducible refine (kept_postRec ..).trans ?_ | split)

@[simp] theorem kept_takeTemp (d : Nat) (x : Int) (s : State) :
    (takeTemp d x s).kept = s.kept := by
  unfold takeTemp
  repeat' (first
    | with_reducible rfl
    | with_reducible assumption
    | (extract_lets +onlyGivenNames x; first
      | (have hx : State.kept x = s.kept := ?_; clear_value x; rename' x => y; on_goal 2 => (dsimp -zeta only [x] <;> clear x))
      | (clear_value x; rename' x => y)
      | (rename' x => y))
    | with_reducible refine (kept_updDie ..).trans ?_
    | with_reducible refine (kept_thermalRec ..).trans ?_
    | split
    | dsimp -zeta only
    | simp -zeta only [*])

@[simp] theorem kept_railOut (rail mv : Nat) (s : State) :
    (railOut rail mv s).kept = s.kept := by
  unfold railOut
  repeat' (first
    | with_reducible rfl
    | with_reducible assumption
    | (extract_lets +onlyGivenNames x; first
      | (have hx : State.kept x = s.kept := ?_; clear_value x; rename' x => y; on_goal 2 => (dsimp -zeta only [x] <;> clear x))
      | (clear_value x; rename' x => y)
      | (rename' x => y))
    | with_reducible refine (kept_configWarn ..).trans ?_
    | split
    | dsimp -zeta only
    | simp -zeta only [*])

@[simp] theorem kept_takeAlarms (smp : AoSample) (s : State) :
    (takeAlarms smp s).kept = s.kept := by
  unfold takeAlarms
  repeat' (first | with_reducible rfl | with_reducible refine (kept_fireAlarm ..).trans ?_ | split)

@[simp] theorem kept_moveLevel (s : State) :
    (moveLevel s).kept = s.kept := by
  unfold moveLevel
  with_reducible rfl

@[simp] theorem kept_takeLid (lid : Int) (s : State) :
    (takeLid lid s).kept = s.kept := by
  unfold takeLid
  repeat' (first
    | with_reducible rfl
    | with_reducible assumption
    | (extract_lets +onlyGivenNames x; first
      | (have hx : State.kept x = s.kept := ?_; clear_value x; rename' x => y; on_goal 2 => (dsimp -zeta only [x] <;> clear x))
      | (clear_value x; rename' x => y)
      | (rename' x => y))
    | with_reducible refine (kept_thermalRec ..).trans ?_
    | split
    | dsimp -zeta only
    | simp -zeta only [*])

@[simp] theorem kept_doPowerSample (pkgW : Nat) (dieW : List Nat) (lid : Int) (s : State) :
    (doPowerSample pkgW dieW lid s).kept = s.kept := by
  unfold doPowerSample
  repeat' (first
    | with_reducible rfl
    | with_reducible refine (kept_updDie ..).trans ?_
    | with_reducible refine (kept_takeLid ..).trans ?_
    | with_reducible refine (kept_foldl _ ?_ _ _).trans ?_
    | with_reducible refine (kept_fold2 _ ?_ _ _).trans ?_
    | (intro s _ _)
    | (intro s _)
    | split
    | dsimp -zeta only)

@[simp] theorem kept_doThrottleSaturationTimeout (s : State) :
    (doThrottleSaturationTimeout s).kept = s.kept := by
  unfold doThrottleSaturationTimeout
  repeat' (first | with_reducible rfl | with_reducible refine (kept_clockStep ..).trans ?_ | with_reducible refine (kept_thermalRec ..).trans ?_ | split)

@[simp] theorem kept_doBoundaryHoldAdjust (s : State) :
    (doBoundaryHoldAdjust s).kept = s.kept := by
  unfold doBoundaryHoldAdjust
  repeat' (first
    | with_reducible rfl
    | split
    | dsimp -zeta only)

@[simp] theorem kept_doAvsbusTimeout (c : Nat) (s : State) :
    (doAvsbusTimeout c s).kept = s.kept := by
  unfold doAvsbusTimeout
  repeat' (first
    | with_reducible rfl
    | with_reducible refine (kept_freeBits ..).trans ?_
    | with_reducible refine (kept_railOut ..).trans ?_
    | with_reducible refine (kept_updDie ..).trans ?_
    | split
    | dsimp -zeta only)

@[simp] theorem kept_applyGating (s : State) :
    (applyGating s).kept = s.kept := by
  unfold applyGating
  repeat' (first
    | with_reducible rfl
    | with_reducible refine (kept_gatePed1 ..).trans ?_
    | with_reducible refine (kept_foldl _ ?_ _ _).trans ?_
    | with_reducible refine (kept_fold2 _ ?_ _ _).trans ?_
    | (intro s _ _)
    | (intro s _)
    | split
    | dsimp -zeta only)

@[simp] theorem kept_doPwrCtlWrite (rq : Requester) (val : W32) (s : State) :
    (doPwrCtlWrite rq val s).kept = s.kept := by
  unfold doPwrCtlWrite
  repeat' (first | with_reducible rfl | with_reducible refine (kept_applyGating ..).trans ?_ | with_reducible refine (kept_noteRwp ..).trans ?_ | split)

@[simp] theorem kept_doPwrBallastWrite (rq : Requester) (val : W32) (s : State) :
    (doPwrBallastWrite rq val s).kept = s.kept := by
  unfold doPwrBallastWrite
  repeat' (first
    | with_reducible rfl
    | with_reducible assumption
    | (extract_lets +onlyGivenNames x; first
      | (have hx : State.kept x = s.kept := ?_; clear_value x; rename' x => y; on_goal 2 => (dsimp -zeta only [x] <;> clear x))
      | (clear_value x; rename' x => y)
      | (rename' x => y))
    | with_reducible refine (kept_noteRwp ..).trans ?_
    | split
    | dsimp -zeta only
    | simp -zeta only [*])

/-! ## Startup -/

@[simp] theorem kept_takeAdmin (fn : Nat) (s : State) :
    (takeAdmin fn s).kept = s.kept := by
  unfold takeAdmin
  repeat' (first | with_reducible rfl | with_reducible refine (kept_updFn ..).trans ?_ | split)

@[simp] theorem kept_trialCommit (s : State) :
    (trialCommit s).kept = s.kept := by
  unfold trialCommit
  repeat' (first
    | with_reducible rfl
    | with_reducible refine (kept_writeDir ..).trans ?_
    | with_reducible refine (kept_measureState ..).trans ?_
    | with_reducible refine (kept_measureImage ..).trans ?_
    | split
    | dsimp -zeta only)

@[simp] theorem kept_endCold (outcome reason : Nat) (s : State) :
    (endCold outcome reason s).kept = s.kept := by
  unfold endCold
  repeat' (first
    | with_reducible rfl
    | with_reducible refine (kept_trialCommit ..).trans ?_
    | with_reducible refine (kept_takeAdmin ..).trans ?_
    | with_reducible refine (kept_foldl _ ?_ _ _).trans ?_
    | with_reducible refine (kept_fold2 _ ?_ _ _).trans ?_
    | (intro s _ _)
    | (intro s _)
    | split
    | dsimp -zeta only)

@[simp] theorem kept_measureStart (n : Nat) (event : Nat) (s : State) :
    (measureStart n event s).kept = s.kept := by
  unfold measureStart
  repeat' (first
    | with_reducible rfl
    | with_reducible refine (kept_measure ..).trans ?_
    | with_reducible refine (kept_measureImage ..).trans ?_
    | with_reducible refine (kept_measureState ..).trans ?_
    | split
    | dsimp -zeta only)

@[simp] theorem kept_doFirmwareLoadDone (rom : RomInputs) (s : State) :
    (doFirmwareLoadDone rom s).kept = s.kept := by
  unfold doFirmwareLoadDone
  repeat' (first
    | with_reducible rfl
    | with_reducible assumption
    | (extract_lets +onlyGivenNames x; first
      | (have hx : State.kept x = s.kept := ?_; clear_value x; rename' x => y; on_goal 2 => (dsimp -zeta only [x] <;> clear x))
      | (clear_value x; rename' x => y)
      | (rename' x => y))
    | with_reducible refine (kept_writeDir ..).trans ?_
    | with_reducible refine (kept_measureStart ..).trans ?_
    | with_reducible refine (kept_measureState ..).trans ?_
    | with_reducible refine (kept_takeAdmin ..).trans ?_
    | with_reducible refine (kept_foldl _ ?_ _ _).trans ?_
    | with_reducible refine (kept_fold2 _ ?_ _ _).trans ?_
    | (intro s _ _)
    | (intro s _)
    | split
    | dsimp -zeta only
    | simp -zeta only [*])

@[simp] theorem kept_doConfigRecordSelect (s : State) :
    (doConfigRecordSelect s).kept = s.kept := by
  unfold doConfigRecordSelect
  repeat' (first
    | with_reducible rfl
    | with_reducible assumption
    | (extract_lets +onlyGivenNames x; first
      | (have hx : State.kept x = s.kept := ?_; clear_value x; rename' x => y; on_goal 2 => (dsimp -zeta only [x] <;> clear x))
      | (clear_value x; rename' x => y)
      | (rename' x => y))
    | with_reducible refine (kept_endCold ..).trans ?_
    | with_reducible refine (kept_updDie ..).trans ?_
    | with_reducible refine (kept_configWarn ..).trans ?_
    | with_reducible refine (kept_foldl _ ?_ _ _).trans ?_
    | with_reducible refine (kept_fold2 _ ?_ _ _).trans ?_
    | (intro s _ _)
    | (intro s _)
    | split
    | dsimp -zeta only
    | simp -zeta only [*])

@[simp] theorem kept_settleP4 (s : State) :
    (settleP4 s).kept = s.kept := by
  unfold settleP4
  with_reducible rfl

@[simp] theorem kept_doHbmTrainingDone (stack : Nat) (ok : Bool) (s : State) :
    (doHbmTrainingDone stack ok s).kept = s.kept := by
  unfold doHbmTrainingDone
  repeat' (first | with_reducible rfl | with_reducible refine (kept_settleP4 ..).trans ?_ | with_reducible refine (kept_endCold ..).trans ?_ | split)

@[simp] theorem kept_tdieWarn (t : TDieTrain) (s : State) :
    (tdieWarn t s).kept = s.kept := by
  unfold tdieWarn
  repeat' (first | with_reducible rfl | with_reducible refine (kept_configWarn ..).trans ?_ | split)

@[simp] theorem kept_doDdr5TrainingDone (found : List TDieTrain) (s : State) :
    (doDdr5TrainingDone found s).kept = s.kept := by
  unfold doDdr5TrainingDone
  repeat' (first
    | with_reducible rfl
    | with_reducible refine (kept_settleP4 ..).trans ?_
    | with_reducible refine (kept_tdieWarn ..).trans ?_
    | with_reducible refine (kept_foldl _ ?_ _ _).trans ?_
    | with_reducible refine (kept_fold2 _ ?_ _ _).trans ?_
    | (intro s _ _)
    | (intro s _)
    | split
    | dsimp -zeta only)

@[simp] theorem kept_doNvmeEnumDone (found : List DriveFound) (s : State) :
    (doNvmeEnumDone found s).kept = s.kept := by
  unfold doNvmeEnumDone
  repeat' (first
    | with_reducible rfl
    | with_reducible assumption
    | (extract_lets +onlyGivenNames x; first
      | (have hx : State.kept x = s.kept := ?_; clear_value x; rename' x => y; on_goal 2 => (dsimp -zeta only [x] <;> clear x))
      | (clear_value x; rename' x => y)
      | (rename' x => y))
    | with_reducible refine (kept_settleP4 ..).trans ?_
    | with_reducible refine (kept_configWarn ..).trans ?_
    | with_reducible refine (kept_foldl _ ?_ _ _).trans ?_
    | with_reducible refine (kept_fold2 _ ?_ _ _).trans ?_
    | (intro s _ _)
    | (intro s _)
    | split
    | dsimp -zeta only
    | simp -zeta only [*])

@[simp] theorem kept_doStartupSelftestDone (failed : List (Nat × Nat)) (notRun : List Nat) (s : State) :
    (doStartupSelftestDone failed notRun s).kept = s.kept := by
  unfold doStartupSelftestDone
  repeat' (first
    | with_reducible rfl
    | with_reducible refine (kept_learnFailed ..).trans ?_
    | with_reducible refine (kept_endCold ..).trans ?_
    | with_reducible refine (kept_foldl _ ?_ _ _).trans ?_
    | with_reducible refine (kept_fold2 _ ?_ _ _).trans ?_
    | (intro s _ _)
    | (intro s _)
    | split
    | dsimp -zeta only)

@[simp] theorem kept_buildPed2 (p : Nat) (s : State) :
    (buildPed2 p s).kept = s.kept := by
  unfold buildPed2
  repeat' (first
    | with_reducible rfl
    | with_reducible assumption
    | (extract_lets +onlyGivenNames x; first
      | (have hx : State.kept x = s.kept := ?_; clear_value x; rename' x => y; on_goal 2 => (dsimp -zeta only [x] <;> clear x))
      | (clear_value x; rename' x => y)
      | (rename' x => y))
    | with_reducible refine (kept_postRec ..).trans ?_
    | with_reducible refine (kept_learnPed2 ..).trans ?_
    | split
    | dsimp -zeta only
    | simp -zeta only [*])

@[simp] theorem kept_buildPed2s (s : State) :
    (buildPed2s s).kept = s.kept := by
  unfold buildPed2s
  repeat' (first
    | with_reducible rfl
    | with_reducible refine (kept_buildPed2 ..).trans ?_
    | with_reducible refine (kept_foldl _ ?_ _ _).trans ?_
    | with_reducible refine (kept_fold2 _ ?_ _ _).trans ?_
    | (intro s _ _)
    | (intro s _)
    | split
    | dsimp -zeta only)

@[simp] theorem kept_endMap (s : State) :
    (endMap s).kept = s.kept := by
  unfold endMap
  repeat' (first | with_reducible rfl | with_reducible refine (kept_endCold ..).trans ?_ | split)

@[simp] theorem kept_doEnabledMapBuild (s : State) : (doEnabledMapBuild s).kept = s.kept := by
  unfold doEnabledMapBuild
  split
  · with_reducible rfl
  · exact (kept_endMap _).trans (kept_buildPed2s _)

@[simp] theorem kept_doConfigRecordWrite (s : State) : (doConfigRecordWrite s).kept = s.kept := by
  unfold doConfigRecordWrite
  split
  · rfl
  · simp only [State.kept]
    split <;> rfl

/-! ## Resilience -/

@[simp] theorem kept_failNow (cids : List Nat) (s : State) :
    (failNow cids s).kept = s.kept := by
  unfold failNow
  repeat' (first
    | with_reducible rfl
    | with_reducible refine (kept_finish0 ..).trans ?_
    | with_reducible refine (kept_foldl _ ?_ _ _).trans ?_
    | with_reducible refine (kept_fold2 _ ?_ _ _).trans ?_
    | (intro s _ _)
    | (intro s _)
    | split
    | dsimp -zeta only)

@[simp] theorem kept_doSecurePolicy (cid : Nat) (s : State) :
    (doSecurePolicy cid s).kept = s.kept := by
  unfold doSecurePolicy
  repeat' (first
    | with_reducible rfl
    | with_reducible assumption
    | (extract_lets +onlyGivenNames x; first
      | (have hx : State.kept x = s.kept := ?_; clear_value x; rename' x => y; on_goal 2 => (dsimp -zeta only [x] <;> clear x))
      | (clear_value x; rename' x => y)
      | (rename' x => y))
    | with_reducible refine (kept_startCmd ..).trans ?_
    | with_reducible refine (kept_finish0 ..).trans ?_
    | with_reducible refine (kept_failNow ..).trans ?_
    | with_reducible refine (kept_updObj ..).trans ?_
    | with_reducible refine (kept_updCtx ..).trans ?_
    | with_reducible refine (kept_foldl _ ?_ _ _).trans ?_
    | with_reducible refine (kept_fold2 _ ?_ _ _).trans ?_
    | (intro s _ _)
    | (intro s _)
    | split
    | dsimp -zeta only
    | simp -zeta only [*])

@[simp] theorem kept_doSecureNow (cid : Nat) (s : State) :
    (doSecureNow cid s).kept = s.kept := by
  unfold doSecureNow
  repeat' (first
    | with_reducible rfl
    | with_reducible assumption
    | (extract_lets +onlyGivenNames x; first
      | (have hx : State.kept x = s.kept := ?_; clear_value x; rename' x => y; on_goal 2 => (dsimp -zeta only [x] <;> clear x))
      | (clear_value x; rename' x => y)
      | (rename' x => y))
    | with_reducible refine (kept_startCmd ..).trans ?_
    | with_reducible refine (kept_finish0 ..).trans ?_
    | with_reducible refine (kept_updCtx ..).trans ?_
    | split
    | dsimp -zeta only
    | simp -zeta only [*])

@[simp] theorem kept_doRiskExchangeResult (ctx risk : Nat) (now : Bool) (s : State) :
    (doRiskExchangeResult ctx risk now s).kept = s.kept := by
  unfold doRiskExchangeResult
  repeat' (first
    | with_reducible rfl
    | with_reducible assumption
    | (extract_lets +onlyGivenNames x; first
      | (have hx : State.kept x = s.kept := ?_; clear_value x; rename' x => y; on_goal 2 => (dsimp -zeta only [x] <;> clear x))
      | (clear_value x; rename' x => y)
      | (rename' x => y))
    | with_reducible refine (kept_updCtx ..).trans ?_
    | with_reducible refine (kept_sendCtl ..).trans ?_
    | with_reducible refine (kept_foldl _ ?_ _ _).trans ?_
    | with_reducible refine (kept_fold2 _ ?_ _ _).trans ?_
    | (intro s _ _)
    | (intro s _)
    | split
    | dsimp -zeta only
    | simp -zeta only [*])

@[simp] theorem kept_dropOldLbas (ctx : Nat) (s : State) :
    (dropOldLbas ctx s).kept = s.kept := by
  unfold dropOldLbas
  repeat' (first
    | with_reducible rfl
    | with_reducible refine (kept_updSieve ..).trans ?_
    | with_reducible refine (kept_freeDrive ..).trans ?_
    | with_reducible refine (kept_foldl _ ?_ _ _).trans ?_
    | with_reducible refine (kept_fold2 _ ?_ _ _).trans ?_
    | (intro s _ _)
    | (intro s _)
    | split
    | dsimp -zeta only)

@[simp] theorem kept_pointEnded (ctx : Nat) (b : W64) (s : State) :
    (pointEnded ctx b s).kept = s.kept := by
  unfold pointEnded
  repeat' (first
    | with_reducible rfl
    | with_reducible assumption
    | (extract_lets +onlyGivenNames x; first
      | (have hx : State.kept x = s.kept := ?_; clear_value x; rename' x => y; on_goal 2 => (dsimp -zeta only [x] <;> clear x))
      | (clear_value x; rename' x => y)
      | (rename' x => y))
    | with_reducible refine (kept_flushEntries ..).trans ?_
    | with_reducible refine (kept_startPoint ..).trans ?_
    | split
    | dsimp -zeta only
    | simp -zeta only [*])

@[simp] theorem kept_doSecurePointComplete (ctx : Nat) (s : State) :
    (doSecurePointComplete ctx s).kept = s.kept := by
  unfold doSecurePointComplete
  repeat' (first
    | with_reducible rfl
    | with_reducible refine (kept_updCtx ..).trans ?_
    | with_reducible refine (kept_dropOldLbas ..).trans ?_
    | with_reducible refine (kept_pointEnded ..).trans ?_
    | with_reducible refine (kept_finish ..).trans ?_
    | with_reducible refine (kept_foldl _ ?_ _ _).trans ?_
    | with_reducible refine (kept_fold2 _ ?_ _ _).trans ?_
    | (intro s _ _)
    | (intro s _)
    | split
    | dsimp -zeta only)

@[simp] theorem kept_doSecurePointFail (ctx : Nat) (why : SecureFail) (s : State) :
    (doSecurePointFail ctx why s).kept = s.kept := by
  unfold doSecurePointFail
  repeat' (first
    | with_reducible rfl
    | with_reducible refine (kept_postRec ..).trans ?_
    | with_reducible refine (kept_pointEnded ..).trans ?_
    | with_reducible refine (kept_failNow ..).trans ?_
    | with_reducible refine (kept_updCtx ..).trans ?_
    | split
    | dsimp -zeta only)

@[simp] theorem kept_restoreObj (h : W32) (m : Mem) (s : State) :
    (restoreObj h m s).kept = s.kept := by
  unfold restoreObj
  repeat' (first | with_reducible rfl | with_reducible refine (kept_objWriteAt ..).trans ?_ | split)

@[simp] theorem kept_emptySieves (ctx : Nat) (s : State) :
    (emptySieves ctx s).kept = s.kept := by
  unfold emptySieves
  repeat' (first
    | with_reducible rfl
    | with_reducible refine (kept_poolEmpty ..).trans ?_
    | with_reducible refine (kept_foldl _ ?_ _ _).trans ?_
    | with_reducible refine (kept_fold2 _ ?_ _ _).trans ?_
    | (intro s _ _)
    | (intro s _)
    | split
    | dsimp -zeta only)

@[simp] theorem kept_restore (ctx : Nat) (c : Ctx) (step : W64) (g : SecGen) (s : State) :
    (restore ctx c step g s).kept = s.kept := by
  unfold restore
  repeat' (first
    | with_reducible rfl
    | with_reducible refine (kept_restoreObj ..).trans ?_
    | with_reducible refine (kept_updFab ..).trans ?_
    | with_reducible refine (kept_emptySieves ..).trans ?_
    | with_reducible refine (kept_failNow ..).trans ?_
    | with_reducible refine (kept_updCtx ..).trans ?_
    | with_reducible refine (kept_foldl _ ?_ _ _).trans ?_
    | with_reducible refine (kept_fold2 _ ?_ _ _).trans ?_
    | (intro s _ _)
    | (intro s _)
    | split
    | dsimp -zeta only)

@[simp] theorem kept_doRollback (cid : Nat) (serves : List (Nat × Bool)) (s : State) :
    (doRollback cid serves s).kept = s.kept := by
  unfold doRollback
  repeat' (first
    | with_reducible rfl
    | with_reducible assumption
    | (extract_lets +onlyGivenNames x; first
      | (have hx : State.kept x = s.kept := ?_; clear_value x; rename' x => y; on_goal 2 => (dsimp -zeta only [x] <;> clear x))
      | (clear_value x; rename' x => y)
      | (rename' x => y))
    | with_reducible refine (kept_startCmd ..).trans ?_
    | with_reducible refine (kept_finish0 ..).trans ?_
    | with_reducible refine (kept_finish ..).trans ?_
    | with_reducible refine (kept_restore ..).trans ?_
    | split
    | dsimp -zeta only
    | simp -zeta only [*])

@[simp] theorem kept_doReplayStep (cid : Nat) (s : State) :
    (doReplayStep cid s).kept = s.kept := by
  unfold doReplayStep
  repeat' (first
    | with_reducible rfl
    | with_reducible assumption
    | (extract_lets +onlyGivenNames x; first
      | (have hx : State.kept x = s.kept := ?_; clear_value x; rename' x => y; on_goal 2 => (dsimp -zeta only [x] <;> clear x))
      | (clear_value x; rename' x => y)
      | (rename' x => y))
    | with_reducible refine (kept_startCmd ..).trans ?_
    | with_reducible refine (kept_finish0 ..).trans ?_
    | with_reducible refine (kept_updCtx ..).trans ?_
    | split
    | dsimp -zeta only
    | simp -zeta only [*])

@[simp] theorem kept_doStrataRead (cid : Nat) (s : State) :
    (doStrataRead cid s).kept = s.kept := by
  unfold doStrataRead
  repeat' (first
    | with_reducible rfl
    | with_reducible assumption
    | (extract_lets +onlyGivenNames x; first
      | (have hx : State.kept x = s.kept := ?_; clear_value x; rename' x => y; on_goal 2 => (dsimp -zeta only [x] <;> clear x))
      | (clear_value x; rename' x => y)
      | (rename' x => y))
    | with_reducible refine (kept_startCmd ..).trans ?_
    | with_reducible refine (kept_finish0 ..).trans ?_
    | with_reducible refine (kept_finish ..).trans ?_
    | with_reducible refine (kept_objWriteAt ..).trans ?_
    | split
    | dsimp -zeta only
    | simp -zeta only [*])

@[simp] theorem kept_doTilthRead (cid : Nat) (s : State) :
    (doTilthRead cid s).kept = s.kept := by
  unfold doTilthRead
  repeat' (first
    | with_reducible rfl
    | with_reducible assumption
    | (extract_lets +onlyGivenNames x; first
      | (have hx : State.kept x = s.kept := ?_; clear_value x; rename' x => y; on_goal 2 => (dsimp -zeta only [x] <;> clear x))
      | (have hx : State.kept x.2 = s.kept := ?_; clear_value x; rename' x => y; on_goal 2 => (dsimp -zeta only [x] <;> clear x))
      | (have hx : State.kept x.2.2 = s.kept := ?_; clear_value x; rename' x => y; on_goal 2 => (dsimp -zeta only [x] <;> clear x))
      | (clear_value x; rename' x => y)
      | (rename' x => y))
    | with_reducible refine (kept_startCmd ..).trans ?_
    | with_reducible refine (kept_finish0 ..).trans ?_
    | with_reducible refine (kept_freeBits ..).trans ?_
    | with_reducible refine (kept_finish ..).trans ?_
    | split
    | dsimp -zeta only
    | simp -zeta only [*])

@[simp] theorem kept_doTilthPeriod (slack : List Nat) (s : State) :
    (doTilthPeriod slack s).kept = s.kept := by
  unfold doTilthPeriod
  repeat' (first | with_reducible rfl | with_reducible refine (kept_ageDies ..).trans ?_ | with_reducible refine (kept_takeClkctl ..).trans ?_ | split)

@[simp] theorem kept_rwpWrite (off : Nat) (mask val : W64) (s : State) :
    (rwpWrite off mask val s).kept = s.kept := by
  unfold rwpWrite
  repeat' (first | with_reducible rfl | with_reducible refine (kept_noteRwp ..).trans ?_ | split)

@[simp] theorem kept_tailWrite (h : Nat) (val : W64) (s : State) :
    (tailWrite h val s).kept = s.kept := by
  unfold tailWrite
  repeat' (first
    | with_reducible rfl
    | with_reducible assumption
    | (extract_lets +onlyGivenNames x; first
      | (have hx : State.kept x = s.kept := ?_; clear_value x; rename' x => y; on_goal 2 => (dsimp -zeta only [x] <;> clear x))
      | (clear_value x; rename' x => y)
      | (rename' x => y))
    | with_reducible refine (kept_rwpWrite ..).trans ?_
    | with_reducible refine (kept_updRing ..).trans ?_
    | with_reducible refine (kept_signal ..).trans ?_
    | with_reducible refine (kept_foldl _ ?_ _ _).trans ?_
    | with_reducible refine (kept_fold2 _ ?_ _ _).trans ?_
    | (intro s _ _)
    | (intro s _)
    | split
    | dsimp -zeta only
    | simp -zeta only [*])

@[simp] theorem kept_doErrRingTailWrite (rq : Requester) (val : W64) (s : State) :
    (doErrRingTailWrite rq val s).kept = s.kept := by
  unfold doErrRingTailWrite
  repeat' (first | with_reducible rfl | with_reducible refine (kept_tailWrite ..).trans ?_ | split)

@[simp] theorem kept_doErrFatalClear (rq : Requester) (mask : W64) (s : State) :
    (doErrFatalClear rq mask s).kept = s.kept := by
  unfold doErrFatalClear
  split <;> with_reducible rfl

@[simp] theorem kept_doLockstepMismatch (hdie : Nat) (s : State) :
    (doLockstepMismatch hdie s).kept = s.kept := by
  unfold doLockstepMismatch
  repeat' (first | with_reducible rfl | with_reducible refine (kept_postRec ..).trans ?_ | split)

@[simp] theorem kept_doHubLogicMismatch (die block : Nat) (s : State) :
    (doHubLogicMismatch die block s).kept = s.kept := by
  unfold doHubLogicMismatch
  repeat' (first | with_reducible rfl | with_reducible refine (kept_postRec ..).trans ?_ | split)

@[simp] theorem kept_doDumpConfig (cid : Nat) (s : State) :
    (doDumpConfig cid s).kept = s.kept := by
  unfold doDumpConfig
  repeat' (first
    | with_reducible rfl
    | with_reducible assumption
    | (extract_lets +onlyGivenNames x; first
      | (have hx : State.kept x = s.kept := ?_; clear_value x; rename' x => y; on_goal 2 => (dsimp -zeta only [x] <;> clear x))
      | (clear_value x; rename' x => y)
      | (rename' x => y))
    | with_reducible refine (kept_startCmd ..).trans ?_
    | with_reducible refine (kept_finish0 ..).trans ?_
    | with_reducible refine (kept_updPort ..).trans ?_
    | split
    | dsimp -zeta only
    | simp -zeta only [*])

/-! ## SelfTest -/

@[simp] theorem kept_doSelfTest (cid : Nat) (s : State) :
    (doSelfTest cid s).kept = s.kept := by
  unfold doSelfTest
  repeat' (first
    | with_reducible rfl
    | with_reducible assumption
    | (extract_lets +onlyGivenNames x; first
      | (have hx : State.kept x = s.kept := ?_; clear_value x; rename' x => y; on_goal 2 => (dsimp -zeta only [x] <;> clear x))
      | (clear_value x; rename' x => y)
      | (rename' x => y))
    | with_reducible refine (kept_startCmd ..).trans ?_
    | with_reducible refine (kept_finish0 ..).trans ?_
    | with_reducible refine (kept_stopPiece ..).trans ?_
    | with_reducible refine (kept_defer ..).trans ?_
    | with_reducible refine (kept_claimTests ..).trans ?_
    | with_reducible refine (kept_foldl _ ?_ _ _).trans ?_
    | with_reducible refine (kept_fold2 _ ?_ _ _).trans ?_
    | (intro s _ _)
    | (intro s _)
    | split
    | dsimp -zeta only
    | simp -zeta only [*])

@[simp] theorem kept_failSpare (p g : Nat) (s : State) :
    (failSpare p g s).kept = s.kept := by
  unfold failSpare
  repeat' (first | with_reducible rfl | with_reducible refine (kept_learnFailed ..).trans ?_ | split)

@[simp] theorem kept_failGrains (p : Nat) (gs : List Nat) (s : State) :
    (failGrains p gs s).kept = s.kept := by
  unfold failGrains
  repeat' (first
    | with_reducible rfl
    | with_reducible refine (kept_failSpare ..).trans ?_
    | with_reducible refine (kept_retireGrains ..).trans ?_
    | with_reducible refine (kept_foldl _ ?_ _ _).trans ?_
    | with_reducible refine (kept_fold2 _ ?_ _ _).trans ?_
    | (intro s _ _)
    | (intro s _)
    | split
    | dsimp -zeta only)

@[simp] theorem kept_scrubFree (p : Nat) (s : State) :
    (scrubFree p s).kept = s.kept := by
  unfold scrubFree
  repeat' (first
    | with_reducible rfl
    | with_reducible refine (kept_scrubUnits ..).trans ?_
    | with_reducible refine (kept_foldl _ ?_ _ _).trans ?_
    | with_reducible refine (kept_fold2 _ ?_ _ _).trans ?_
    | (intro s _ _)
    | (intro s _)
    | split
    | dsimp -zeta only)

@[simp] theorem kept_doBackgroundTestPiece (p : Nat) (s : State) :
    (doBackgroundTestPiece p s).kept = s.kept := by
  unfold doBackgroundTestPiece
  repeat' (first
    | with_reducible rfl
    | with_reducible assumption
    | (extract_lets +onlyGivenNames x; first
      | (have hx : State.kept x = s.kept := ?_; clear_value x; rename' x => y; on_goal 2 => (dsimp -zeta only [x] <;> clear x))
      | (clear_value x; rename' x => y)
      | (rename' x => y))
    | with_reducible refine (kept_updPed2 ..).trans ?_
    | split
    | dsimp -zeta only
    | simp -zeta only [*])

@[simp] theorem kept_doBackgroundPieceDone (p : Nat) (failed : List Nat) (s : State) :
    (doBackgroundPieceDone p failed s).kept = s.kept := by
  unfold doBackgroundPieceDone
  repeat' (first
    | with_reducible rfl
    | with_reducible refine (kept_scrubFree ..).trans ?_
    | with_reducible refine (kept_updPed2 ..).trans ?_
    | with_reducible refine (kept_failGrains ..).trans ?_
    | split
    | dsimp -zeta only)

@[simp] theorem kept_doIntrusiveTestDone (cid : Nat) (failed : List (Nat × Nat)) (s : State) :
    (doIntrusiveTestDone cid failed s).kept = s.kept := by
  unfold doIntrusiveTestDone
  repeat' (first
    | with_reducible rfl
    | with_reducible refine (kept_failGrains ..).trans ?_
    | with_reducible refine (kept_releasePed2 ..).trans ?_
    | with_reducible refine (kept_scrubFree ..).trans ?_
    | with_reducible refine (kept_decideLeases ..).trans ?_
    | with_reducible refine (kept_finish ..).trans ?_
    | with_reducible refine (kept_foldl _ ?_ _ _).trans ?_
    | with_reducible refine (kept_fold2 _ ?_ _ _).trans ?_
    | (intro s _ _)
    | (intro s _)
    | split
    | dsimp -zeta only)

@[simp] theorem kept_doCalibrate (cid slack : Nat) (s : State) :
    (doCalibrate cid slack s).kept = s.kept := by
  unfold doCalibrate
  repeat' (first
    | with_reducible rfl
    | with_reducible assumption
    | (extract_lets +onlyGivenNames x; first
      | (have hx : State.kept x = s.kept := ?_; clear_value x; rename' x => y; on_goal 2 => (dsimp -zeta only [x] <;> clear x))
      | (have hx : State.kept x.2 = s.kept := ?_; clear_value x; rename' x => y; on_goal 2 => (dsimp -zeta only [x] <;> clear x))
      | (have hx : State.kept x.2.2 = s.kept := ?_; clear_value x; rename' x => y; on_goal 2 => (dsimp -zeta only [x] <;> clear x))
      | (have hx : ∀ s, State.kept (x s) = s.kept := ?_; clear_value x; rename' x => y; on_goal 2 => (intro s; dsimp -zeta only [x] <;> clear x))
      | (have hx : ∀ a, State.kept (x a) = s.kept := ?_; clear_value x; rename' x => y; on_goal 2 => (intro a; dsimp -zeta only [x] <;> clear x))
      | (have hx : ∀ a s, State.kept (x a s) = s.kept := ?_; clear_value x; rename' x => y; on_goal 2 => (intro a s; dsimp -zeta only [x] <;> clear x))
      | (clear_value x; rename' x => y)
      | (rename' x => y))
    | with_reducible refine (kept_startCmd ..).trans ?_
    | with_reducible refine (kept_finish0 ..).trans ?_
    | with_reducible refine (kept_finish ..).trans ?_
    | with_reducible refine (kept_updFport ..).trans ?_
    | with_reducible refine (kept_linksChanged ..).trans ?_
    | with_reducible refine (kept_startRetrain ..).trans ?_
    | with_reducible refine (kept_defer ..).trans ?_
    | split
    | dsimp -zeta only
    | simp -zeta only [*])

@[simp] theorem kept_doCalibrationDone (kind unit : Nat) (s : State) :
    (doCalibrationDone kind unit s).kept = s.kept := by
  unfold doCalibrationDone
  repeat' (first | with_reducible rfl | with_reducible refine (kept_finish0 ..).trans ?_ | split)

/-! ## Counters -/

@[simp] theorem kept_doPmcConfig (cid : Nat) (s : State) :
    (doPmcConfig cid s).kept = s.kept := by
  unfold doPmcConfig
  repeat' (first
    | with_reducible rfl
    | with_reducible assumption
    | (extract_lets +onlyGivenNames x; first
      | (have hx : State.kept x = s.kept := ?_; clear_value x; rename' x => y; on_goal 2 => (dsimp -zeta only [x] <;> clear x))
      | (clear_value x; rename' x => y)
      | (rename' x => y))
    | with_reducible refine (kept_startCmd ..).trans ?_
    | with_reducible refine (kept_finish0 ..).trans ?_
    | with_reducible refine (kept_updCtx ..).trans ?_
    | with_reducible refine (kept_foldl _ ?_ _ _).trans ?_
    | with_reducible refine (kept_fold2 _ ?_ _ _).trans ?_
    | (intro s _ _)
    | (intro s _)
    | split
    | dsimp -zeta only
    | simp -zeta only [*])

@[simp] theorem kept_doSampleConfig (cid : Nat) (s : State) :
    (doSampleConfig cid s).kept = s.kept := by
  unfold doSampleConfig
  repeat' (first
    | with_reducible rfl
    | with_reducible assumption
    | (extract_lets +onlyGivenNames x; first
      | (have hx : State.kept x = s.kept := ?_; clear_value x; rename' x => y; on_goal 2 => (dsimp -zeta only [x] <;> clear x))
      | (clear_value x; rename' x => y)
      | (rename' x => y))
    | with_reducible refine (kept_startCmd ..).trans ?_
    | with_reducible refine (kept_finish0 ..).trans ?_
    | with_reducible refine (kept_updCtx ..).trans ?_
    | split
    | dsimp -zeta only
    | simp -zeta only [*])

@[simp] theorem kept_doPmcSnapshot (cid : Nat) (s : State) :
    (doPmcSnapshot cid s).kept = s.kept := by
  unfold doPmcSnapshot
  repeat' (first
    | with_reducible rfl
    | with_reducible assumption
    | (extract_lets +onlyGivenNames x; first
      | (have hx : State.kept x = s.kept := ?_; clear_value x; rename' x => y; on_goal 2 => (dsimp -zeta only [x] <;> clear x))
      | (have hx : State.kept x.2 = s.kept := ?_; clear_value x; rename' x => y; on_goal 2 => (dsimp -zeta only [x] <;> clear x))
      | (have hx : State.kept x.2.2 = s.kept := ?_; clear_value x; rename' x => y; on_goal 2 => (dsimp -zeta only [x] <;> clear x))
      | (have hx : ∀ s, State.kept (x s) = s.kept := ?_; clear_value x; rename' x => y; on_goal 2 => (intro s; dsimp -zeta only [x] <;> clear x))
      | (have hx : ∀ a, State.kept (x a) = s.kept := ?_; clear_value x; rename' x => y; on_goal 2 => (intro a; dsimp -zeta only [x] <;> clear x))
      | (have hx : ∀ a s, State.kept (x a s) = s.kept := ?_; clear_value x; rename' x => y; on_goal 2 => (intro a s; dsimp -zeta only [x] <;> clear x))
      | (clear_value x; rename' x => y)
      | (rename' x => y))
    | with_reducible refine (kept_startCmd ..).trans ?_
    | with_reducible refine (kept_finish0 ..).trans ?_
    | split
    | dsimp -zeta only
    | simp -zeta only [*])

@[simp] theorem kept_snapEnd (s : State) :
    (snapEnd s).kept = s.kept := by
  unfold snapEnd
  with_reducible rfl

@[simp] theorem kept_doSnapshotStamp (s : State) :
    (doSnapshotStamp s).kept = s.kept := by
  unfold doSnapshotStamp
  repeat' (first
    | with_reducible rfl
    | with_reducible assumption
    | (extract_lets +onlyGivenNames x; first
      | (have hx : State.kept x = s.kept := ?_; clear_value x; rename' x => y; on_goal 2 => (dsimp -zeta only [x] <;> clear x))
      | (clear_value x; rename' x => y)
      | (rename' x => y))
    | with_reducible refine (kept_snapEnd ..).trans ?_
    | with_reducible refine (kept_finish0 ..).trans ?_
    | split
    | dsimp -zeta only
    | simp -zeta only [*])

@[simp] theorem kept_doSnapshotWriteDone (s : State) :
    (doSnapshotWriteDone s).kept = s.kept := by
  unfold doSnapshotWriteDone
  repeat' (first
    | with_reducible rfl
    | with_reducible refine (kept_snapEnd ..).trans ?_
    | with_reducible refine (kept_finish ..).trans ?_
    | with_reducible refine (kept_objWriteAt ..).trans ?_
    | split
    | dsimp -zeta only)

/-! ## Firmware -/

@[simp] theorem kept_slotWrite (slot off : Nat) (b : List Byte) (s : State) : (slotWrite slot off b s).kept = s.kept := by
  unfold slotWrite
  split <;> rfl

@[simp] theorem kept_settleStaging (s : State) :
    (settleStaging s).kept = s.kept := by
  unfold settleStaging
  with_reducible rfl

@[simp] theorem kept_holdChunk (slot n : Nat) (data : List Byte) (s : State) :
    (holdChunk slot n data s).kept = s.kept := by
  unfold holdChunk
  repeat' (first
    | with_reducible rfl
    | with_reducible refine (kept_settleStaging ..).trans ?_
    | with_reducible refine (kept_writeDir ..).trans ?_
    | with_reducible refine (kept_slotWrite ..).trans ?_
    | split
    | dsimp -zeta only)

@[simp] theorem kept_chunkOk (cid : Nat) (s : State) :
    (chunkOk cid s).kept = s.kept := by
  unfold chunkOk
  repeat' (first | with_reducible rfl | with_reducible refine (kept_finish ..).trans ?_ | split)

@[simp] theorem kept_takeManifest (cid : Nat) (data : List Byte) (s : State) :
    (takeManifest cid data s).kept = s.kept := by
  unfold takeManifest
  repeat' (first
    | with_reducible rfl
    | with_reducible assumption
    | (extract_lets +onlyGivenNames x; first
      | (have hx : State.kept x = s.kept := ?_; clear_value x; rename' x => y; on_goal 2 => (dsimp -zeta only [x] <;> clear x))
      | (clear_value x; rename' x => y)
      | (rename' x => y))
    | with_reducible refine (kept_finish0 ..).trans ?_
    | with_reducible refine (kept_chunkOk ..).trans ?_
    | with_reducible refine (kept_holdChunk ..).trans ?_
    | with_reducible refine (kept_settleStaging ..).trans ?_
    | with_reducible refine (kept_writeDir ..).trans ?_
    | with_reducible refine (kept_slotWrite ..).trans ?_
    | split
    | dsimp -zeta only
    | simp -zeta only [*])

@[simp] theorem kept_takeChunk (cid n : Nat) (digest data : List Byte) (s : State) :
    (takeChunk cid n digest data s).kept = s.kept := by
  unfold takeChunk
  repeat' (first
    | with_reducible rfl
    | with_reducible assumption
    | (extract_lets +onlyGivenNames x; first
      | (have hx : State.kept x = s.kept := ?_; clear_value x; rename' x => y; on_goal 2 => (dsimp -zeta only [x] <;> clear x))
      | (clear_value x; rename' x => y)
      | (rename' x => y))
    | with_reducible refine (kept_finish0 ..).trans ?_
    | with_reducible refine (kept_chunkOk ..).trans ?_
    | with_reducible refine (kept_holdChunk ..).trans ?_
    | split
    | dsimp -zeta only
    | simp -zeta only [*])

@[simp] theorem kept_doFwChunk (cid : Nat) (s : State) :
    (doFwChunk cid s).kept = s.kept := by
  unfold doFwChunk
  repeat' (first
    | with_reducible rfl
    | with_reducible assumption
    | (extract_lets +onlyGivenNames x; first
      | (have hx : State.kept x = s.kept := ?_; clear_value x; rename' x => y; on_goal 2 => (dsimp -zeta only [x] <;> clear x))
      | (clear_value x; rename' x => y)
      | (rename' x => y))
    | with_reducible refine (kept_startCmd ..).trans ?_
    | with_reducible refine (kept_finish0 ..).trans ?_
    | with_reducible refine (kept_takeManifest ..).trans ?_
    | with_reducible refine (kept_takeChunk ..).trans ?_
    | split
    | dsimp -zeta only
    | simp -zeta only [*])

@[simp] theorem kept_doFwStatus (cid : Nat) (s : State) :
    (doFwStatus cid s).kept = s.kept := by
  unfold doFwStatus
  repeat' (first
    | with_reducible rfl
    | with_reducible refine (kept_startCmd ..).trans ?_
    | with_reducible refine (kept_finish0 ..).trans ?_
    | with_reducible refine (kept_finish ..).trans ?_
    | split
    | dsimp -zeta only)

@[simp] theorem kept_dropStaging (s : State) :
    (dropStaging s).kept = s.kept := by
  unfold dropStaging
  repeat' (first | with_reducible rfl | with_reducible refine (kept_settleStaging ..).trans ?_ | with_reducible refine (kept_writeDir ..).trans ?_ | split)

@[simp] theorem kept_doFwAbort (cid : Nat) (s : State) :
    (doFwAbort cid s).kept = s.kept := by
  unfold doFwAbort
  repeat' (first
    | with_reducible rfl
    | with_reducible assumption
    | (extract_lets +onlyGivenNames x; first
      | (have hx : State.kept x = s.kept := ?_; clear_value x; rename' x => y; on_goal 2 => (dsimp -zeta only [x] <;> clear x))
      | (clear_value x; rename' x => y)
      | (rename' x => y))
    | with_reducible refine (kept_startCmd ..).trans ?_
    | with_reducible refine (kept_finish0 ..).trans ?_
    | with_reducible refine (kept_handover ..).trans ?_
    | with_reducible refine (kept_dropStaging ..).trans ?_
    | split
    | dsimp -zeta only
    | simp -zeta only [*])

@[simp] theorem kept_doFwActivate (cid : Nat) (s : State) :
    (doFwActivate cid s).kept = s.kept := by
  unfold doFwActivate
  repeat' (first
    | with_reducible rfl
    | with_reducible assumption
    | (extract_lets +onlyGivenNames x; first
      | (have hx : State.kept x = s.kept := ?_; clear_value x; rename' x => y; on_goal 2 => (dsimp -zeta only [x] <;> clear x))
      | (clear_value x; rename' x => y)
      | (rename' x => y))
    | with_reducible refine (kept_startCmd ..).trans ?_
    | with_reducible refine (kept_finish0 ..).trans ?_
    | split
    | dsimp -zeta only
    | simp -zeta only [*])

@[simp] theorem kept_endActivate (st : W16) (res : List Byte) (s : State) :
    (endActivate st res s).kept = s.kept := by
  unfold endActivate
  repeat' (first | with_reducible rfl | with_reducible refine (kept_finish ..).trans ?_ | split)

@[simp] theorem kept_doFwLoadDone (s : State) :
    (doFwLoadDone s).kept = s.kept := by
  unfold doFwLoadDone
  split <;> with_reducible rfl

@[simp] theorem kept_doFwHandoverDone (s : State) :
    (doFwHandoverDone s).kept = s.kept := by
  unfold doFwHandoverDone
  split <;> with_reducible rfl

@[simp] theorem kept_doFwSwitchStamp (s : State) :
    (doFwSwitchStamp s).kept = s.kept := by
  unfold doFwSwitchStamp
  repeat' (first
    | with_reducible rfl
    | with_reducible refine (kept_foldl _ ?_ _ _).trans ?_
    | with_reducible refine (kept_fold2 _ ?_ _ _).trans ?_
    | (intro s _ _)
    | (intro s _)
    | split
    | dsimp -zeta only)

@[simp] theorem kept_doFwCommit (s : State) :
    (doFwCommit s).kept = s.kept := by
  unfold doFwCommit
  repeat' (first
    | with_reducible rfl
    | with_reducible refine (kept_writeDir ..).trans ?_
    | with_reducible refine (kept_measureState ..).trans ?_
    | with_reducible refine (kept_measureImage ..).trans ?_
    | with_reducible refine (kept_endActivate ..).trans ?_
    | split
    | dsimp -zeta only)

@[simp] theorem kept_doFwActivateDeadline (s : State) :
    (doFwActivateDeadline s).kept = s.kept := by
  unfold doFwActivateDeadline
  repeat' (first | with_reducible rfl | with_reducible refine (kept_handover ..).trans ?_ | split)

@[simp] theorem kept_doFwRevertDone (s : State) :
    (doFwRevertDone s).kept = s.kept := by
  unfold doFwRevertDone
  repeat' (first
    | with_reducible rfl
    | with_reducible assumption
    | (extract_lets +onlyGivenNames x; first
      | (have hx : State.kept x = s.kept := ?_; clear_value x; rename' x => y; on_goal 2 => (dsimp -zeta only [x] <;> clear x))
      | (clear_value x; rename' x => y)
      | (rename' x => y))
    | with_reducible refine (kept_settleStaging ..).trans ?_
    | with_reducible refine (kept_endActivate ..).trans ?_
    | with_reducible refine (kept_finish0 ..).trans ?_
    | with_reducible refine (kept_dropStaging ..).trans ?_
    | split
    | dsimp -zeta only
    | simp -zeta only [*])

@[simp] theorem kept_doFwStandbyReady (s : State) :
    (doFwStandbyReady s).kept = s.kept := by
  unfold doFwStandbyReady
  split <;> with_reducible rfl

/-! ## Security -/

@[simp] theorem kept_doAttestQuote (cid : Nat) (s : State) :
    (doAttestQuote cid s).kept = s.kept := by
  unfold doAttestQuote
  repeat' (first
    | with_reducible rfl
    | with_reducible assumption
    | (extract_lets +onlyGivenNames x; first
      | (have hx : State.kept x = s.kept := ?_; clear_value x; rename' x => y; on_goal 2 => (dsimp -zeta only [x] <;> clear x))
      | (clear_value x; rename' x => y)
      | (rename' x => y))
    | with_reducible refine (kept_startCmd ..).trans ?_
    | with_reducible refine (kept_finish0 ..).trans ?_
    | with_reducible refine (kept_finish ..).trans ?_
    | with_reducible refine (kept_hostWrite ..).trans ?_
    | split
    | dsimp -zeta only
    | simp -zeta only [*])

@[simp] theorem kept_doMeasureLog (cid : Nat) (s : State) :
    (doMeasureLog cid s).kept = s.kept := by
  unfold doMeasureLog
  repeat' (first
    | with_reducible rfl
    | with_reducible assumption
    | (extract_lets +onlyGivenNames x; first
      | (have hx : State.kept x = s.kept := ?_; clear_value x; rename' x => y; on_goal 2 => (dsimp -zeta only [x] <;> clear x))
      | (clear_value x; rename' x => y)
      | (rename' x => y))
    | with_reducible refine (kept_startCmd ..).trans ?_
    | with_reducible refine (kept_finish0 ..).trans ?_
    | with_reducible refine (kept_finish ..).trans ?_
    | with_reducible refine (kept_answerWrite ..).trans ?_
    | split
    | dsimp -zeta only
    | simp -zeta only [*])

@[simp] theorem kept_doDebugUnlock (tok : Token) (s : State) :
    (doDebugUnlock tok s).kept = s.kept := by
  unfold doDebugUnlock
  repeat' (first
    | with_reducible rfl
    | with_reducible assumption
    | (extract_lets +onlyGivenNames x; first
      | (have hx : State.kept x = s.kept := ?_; clear_value x; rename' x => y; on_goal 2 => (dsimp -zeta only [x] <;> clear x))
      | (clear_value x; rename' x => y)
      | (rename' x => y))
    | with_reducible refine (kept_eraseVolatile ..).trans ?_
    | with_reducible refine (kept_measureState ..).trans ?_
    | split
    | dsimp -zeta only
    | simp -zeta only [*])

@[simp] theorem kept_spdmSet (tr : Transport) (x : Spdm) (s : State) :
    (spdmSet tr x s).kept = s.kept := by
  unfold spdmSet
  with_reducible rfl

@[simp] theorem kept_spdmError (tr : Transport) (code : Byte) (s : State) :
    (spdmError tr code s).kept = s.kept := by
  unfold spdmError
  repeat' (first | with_reducible rfl | with_reducible refine (kept_emit ..).trans ?_ | split)

@[simp] theorem kept_spdmServe (tr : Transport) (go : State → State) (hg : ∀ s, (go s).kept = s.kept) (s : State) :
    (spdmServe tr go s).kept = s.kept := by
  unfold spdmServe
  split
  · rfl
  · split
    · exact kept_spdmError ..
    · exact hg s

@[simp] theorem kept_spdmAnswer (tr : Transport) (code : Byte) (data : List Byte) (x : Spdm) (s : State) :
    (spdmAnswer tr code data x s).kept = s.kept := by
  unfold spdmAnswer
  repeat' (first | with_reducible rfl | with_reducible refine (kept_emit ..).trans ?_ | with_reducible refine (kept_spdmSet ..).trans ?_ | split)

@[simp] theorem kept_spdmReady (tr : Transport) (go : State → State) (hg : ∀ s, (go s).kept = s.kept) (s : State) :
    (spdmReady tr go s).kept = s.kept := by
  unfold spdmReady
  refine kept_spdmServe tr _ ?_ s
  intro s
  split
  · exact hg s
  · exact kept_spdmError ..

@[simp] theorem kept_spdmSigned (tr : Transport) (code : Byte) (nonce : BitVec 256) (data : List Byte) (s : State) :
    (spdmSigned tr code nonce data s).kept = s.kept := by
  unfold spdmSigned
  repeat' (first
    | with_reducible rfl
    | with_reducible refine (kept_spdmError ..).trans ?_
    | with_reducible refine (kept_freeBits ..).trans ?_
    | with_reducible refine (kept_spdmAnswer ..).trans ?_
    | split
    | dsimp -zeta only)

@[simp] theorem kept_doGetVersion (tr : Transport) (s : State) : (doGetVersion tr s).kept = s.kept := by
  unfold doGetVersion
  refine kept_spdmServe tr _ ?_ s
  intro s
  repeat' (first
    | with_reducible rfl
    | with_reducible assumption
    | (extract_lets +onlyGivenNames x; first
      | (have hx : State.kept x = s.kept := ?_; clear_value x; rename' x => y; on_goal 2 => (dsimp -zeta only [x] <;> clear x))
      | (clear_value x; rename' x => y)
      | (rename' x => y))
    | with_reducible refine (kept_spdmServe _ _ _ ?_ _).trans ?_
    | with_reducible refine (kept_spdmAnswer ..).trans ?_
    | (intro s _ _)
    | (intro s _)
    | (intro s)
    | split
    | dsimp -zeta only
    | simp -zeta only [*])

@[simp] theorem kept_doGetCapabilities (tr : Transport) (s : State) : (doGetCapabilities tr s).kept = s.kept := by
  unfold doGetCapabilities
  refine kept_spdmServe tr _ ?_ s
  intro s
  repeat' (first
    | with_reducible rfl
    | with_reducible assumption
    | (extract_lets +onlyGivenNames x; first
      | (have hx : State.kept x = s.kept := ?_; clear_value x; rename' x => y; on_goal 2 => (dsimp -zeta only [x] <;> clear x))
      | (clear_value x; rename' x => y)
      | (rename' x => y))
    | with_reducible refine (kept_spdmServe _ _ _ ?_ _).trans ?_
    | with_reducible refine (kept_spdmAnswer ..).trans ?_
    | with_reducible refine (kept_spdmError ..).trans ?_
    | (intro s _ _)
    | (intro s _)
    | (intro s)
    | split
    | dsimp -zeta only
    | simp -zeta only [*])

@[simp] theorem kept_doNegotiateAlgorithms (tr : Transport) (hasSm2 hasSm3 : Bool) (s : State) : (doNegotiateAlgorithms tr hasSm2 hasSm3 s).kept = s.kept := by
  unfold doNegotiateAlgorithms
  refine kept_spdmServe tr _ ?_ s
  intro s
  repeat' (first
    | with_reducible rfl
    | with_reducible assumption
    | (extract_lets +onlyGivenNames x; first
      | (have hx : State.kept x = s.kept := ?_; clear_value x; rename' x => y; on_goal 2 => (dsimp -zeta only [x] <;> clear x))
      | (clear_value x; rename' x => y)
      | (rename' x => y))
    | with_reducible refine (kept_spdmServe _ _ _ ?_ _).trans ?_
    | with_reducible refine (kept_spdmError ..).trans ?_
    | with_reducible refine (kept_spdmAnswer ..).trans ?_
    | (intro s _ _)
    | (intro s _)
    | (intro s)
    | split
    | dsimp -zeta only
    | simp -zeta only [*])

@[simp] theorem kept_doGetDigests (tr : Transport) (s : State) : (doGetDigests tr s).kept = s.kept := by
  unfold doGetDigests
  refine kept_spdmReady tr _ ?_ s
  intro s
  repeat' (first
    | with_reducible rfl
    | with_reducible assumption
    | (extract_lets +onlyGivenNames x; first
      | (have hx : State.kept x = s.kept := ?_; clear_value x; rename' x => y; on_goal 2 => (dsimp -zeta only [x] <;> clear x))
      | (clear_value x; rename' x => y)
      | (rename' x => y))
    | with_reducible refine (kept_spdmReady _ _ ?_ _).trans ?_
    | with_reducible refine (kept_spdmAnswer ..).trans ?_
    | (intro s _ _)
    | (intro s _)
    | (intro s)
    | split
    | dsimp -zeta only
    | simp -zeta only [*])

@[simp] theorem kept_doGetCertificate (tr : Transport) (slot off len : Nat) (s : State) : (doGetCertificate tr slot off len s).kept = s.kept := by
  unfold doGetCertificate
  refine kept_spdmReady tr _ ?_ s
  intro s
  repeat' (first
    | with_reducible rfl
    | with_reducible assumption
    | (extract_lets +onlyGivenNames x; first
      | (have hx : State.kept x = s.kept := ?_; clear_value x; rename' x => y; on_goal 2 => (dsimp -zeta only [x] <;> clear x))
      | (clear_value x; rename' x => y)
      | (rename' x => y))
    | with_reducible refine (kept_spdmReady _ _ ?_ _).trans ?_
    | with_reducible refine (kept_spdmError ..).trans ?_
    | with_reducible refine (kept_spdmAnswer ..).trans ?_
    | (intro s _ _)
    | (intro s _)
    | (intro s)
    | split
    | dsimp -zeta only
    | simp -zeta only [*])

@[simp] theorem kept_doChallenge (tr : Transport) (slot : Nat) (nonce : BitVec 256) (s : State) : (doChallenge tr slot nonce s).kept = s.kept := by
  unfold doChallenge
  refine kept_spdmReady tr _ ?_ s
  intro s
  repeat' (first
    | with_reducible rfl
    | with_reducible assumption
    | (extract_lets +onlyGivenNames x; first
      | (have hx : State.kept x = s.kept := ?_; clear_value x; rename' x => y; on_goal 2 => (dsimp -zeta only [x] <;> clear x))
      | (clear_value x; rename' x => y)
      | (rename' x => y))
    | with_reducible refine (kept_spdmReady _ _ ?_ _).trans ?_
    | with_reducible refine (kept_spdmError ..).trans ?_
    | with_reducible refine (kept_spdmSigned ..).trans ?_
    | (intro s _ _)
    | (intro s _)
    | (intro s)
    | split
    | dsimp -zeta only
    | simp -zeta only [*])

@[simp] theorem kept_doGetMeasurements (tr : Transport) (index : Nat) (signed : Bool) (nonce : BitVec 256) (s : State) : (doGetMeasurements tr index signed nonce s).kept = s.kept := by
  unfold doGetMeasurements
  refine kept_spdmReady tr _ ?_ s
  intro s
  repeat' (first
    | with_reducible rfl
    | with_reducible assumption
    | (extract_lets +onlyGivenNames x; first
      | (have hx : State.kept x = s.kept := ?_; clear_value x; rename' x => y; on_goal 2 => (dsimp -zeta only [x] <;> clear x))
      | (clear_value x; rename' x => y)
      | (rename' x => y))
    | with_reducible refine (kept_spdmReady _ _ ?_ _).trans ?_
    | with_reducible refine (kept_spdmError ..).trans ?_
    | with_reducible refine (kept_spdmSigned ..).trans ?_
    | with_reducible refine (kept_spdmAnswer ..).trans ?_
    | (intro s _ _)
    | (intro s _)
    | (intro s)
    | split
    | dsimp -zeta only
    | simp -zeta only [*])

@[simp] theorem kept_doSpdmUnsupportedRequest (tr : Transport) (_code : Byte) (s : State) : (doSpdmUnsupportedRequest tr _code s).kept = s.kept := by
  unfold doSpdmUnsupportedRequest
  refine kept_spdmServe tr _ ?_ s
  intro s
  repeat' (first
    | with_reducible rfl
    | with_reducible assumption
    | (extract_lets +onlyGivenNames x; first
      | (have hx : State.kept x = s.kept := ?_; clear_value x; rename' x => y; on_goal 2 => (dsimp -zeta only [x] <;> clear x))
      | (clear_value x; rename' x => y)
      | (rename' x => y))
    | with_reducible refine (kept_spdmServe _ _ _ ?_ _).trans ?_
    | with_reducible refine (kept_spdmError ..).trans ?_
    | (intro s _ _)
    | (intro s _)
    | (intro s)
    | split
    | dsimp -zeta only
    | simp -zeta only [*])

/-! ## HostIf -/

@[simp] theorem kept_updSq (ctx n : Nat) (r : SubRing) (s : State) :
    (updSq ctx n r s).kept = s.kept := by
  unfold updSq
  repeat' (first | with_reducible rfl | with_reducible refine (kept_updCtx ..).trans ?_ | split)

@[simp] theorem kept_updCq (ctx n : Nat) (r : CplRing) (s : State) :
    (updCq ctx n r s).kept = s.kept := by
  unfold updCq
  repeat' (first | with_reducible rfl | with_reducible refine (kept_updCtx ..).trans ?_ | split)

@[simp] theorem kept_dropDb (ctx : Nat) (s : State) :
    (dropDb ctx s).kept = s.kept := by
  unfold dropDb
  repeat' (first | with_reducible rfl | with_reducible refine (kept_updCtx ..).trans ?_ | split)

@[simp] theorem kept_dropFnDb (fn : Nat) (s : State) :
    (dropFnDb fn s).kept = s.kept := by
  unfold dropFnDb
  repeat' (first | with_reducible rfl | with_reducible refine (kept_updFn ..).trans ?_ | split)

@[simp] theorem kept_doCommandRingDoorbell (fn page ring : Nat) (val : W64) (s : State) :
    (doCommandRingDoorbell fn page ring val s).kept = s.kept := by
  unfold doCommandRingDoorbell
  repeat' (first
    | with_reducible rfl
    | with_reducible assumption
    | (extract_lets +onlyGivenNames x; first
      | (have hx : State.kept x = s.kept := ?_; clear_value x; rename' x => y; on_goal 2 => (dsimp -zeta only [x] <;> clear x))
      | (clear_value x; rename' x => y)
      | (rename' x => y))
    | with_reducible refine (kept_dropFnDb ..).trans ?_
    | with_reducible refine (kept_dropDb ..).trans ?_
    | with_reducible refine (kept_updCq ..).trans ?_
    | with_reducible refine (kept_updSq ..).trans ?_
    | split
    | dsimp -zeta only
    | simp -zeta only [*])

@[simp] theorem kept_doAdminDoorbell (fn : Nat) (val : W64) (s : State) :
    (doAdminDoorbell fn val s).kept = s.kept := by
  unfold doAdminDoorbell
  repeat' (first
    | with_reducible rfl
    | with_reducible assumption
    | (extract_lets +onlyGivenNames x; first
      | (have hx : State.kept x = s.kept := ?_; clear_value x; rename' x => y; on_goal 2 => (dsimp -zeta only [x] <;> clear x))
      | (clear_value x; rename' x => y)
      | (rename' x => y))
    | with_reducible refine (kept_dropFnDb ..).trans ?_
    | with_reducible refine (kept_updFn ..).trans ?_
    | split
    | dsimp -zeta only
    | simp -zeta only [*])

@[simp] theorem kept_doPedDoorbell (fn page ring : Nat) (val : W64) (s : State) :
    (doPedDoorbell fn page ring val s).kept = s.kept := by
  unfold doPedDoorbell
  repeat' (first
    | with_reducible rfl
    | with_reducible assumption
    | (extract_lets +onlyGivenNames x; first
      | (have hx : State.kept x = s.kept := ?_; clear_value x; rename' x => y; on_goal 2 => (dsimp -zeta only [x] <;> clear x))
      | (clear_value x; rename' x => y)
      | (rename' x => y))
    | with_reducible refine (kept_dropFnDb ..).trans ?_
    | with_reducible refine (kept_dropDb ..).trans ?_
    | with_reducible refine (kept_semAdd ..).trans ?_
    | with_reducible refine (kept_updSq ..).trans ?_
    | with_reducible refine (kept_updCtx ..).trans ?_
    | split
    | dsimp -zeta only
    | simp -zeta only [*])

@[simp] theorem kept_doAdminRingEnable (fn : Nat) (s : State) :
    (doAdminRingEnable fn s).kept = s.kept := by
  unfold doAdminRingEnable
  repeat' (first
    | with_reducible rfl
    | with_reducible assumption
    | (extract_lets +onlyGivenNames x; first
      | (have hx : State.kept x = s.kept := ?_; clear_value x; rename' x => y; on_goal 2 => (dsimp -zeta only [x] <;> clear x))
      | (clear_value x; rename' x => y)
      | (rename' x => y))
    | with_reducible refine (kept_updFn ..).trans ?_
    | with_reducible refine (kept_takeAdmin ..).trans ?_
    | split
    | dsimp -zeta only
    | simp -zeta only [*])

@[simp] theorem kept_doAdminRingDisable (fn : Nat) (s : State) :
    (doAdminRingDisable fn s).kept = s.kept := by
  unfold doAdminRingDisable
  repeat' (first
    | with_reducible rfl
    | with_reducible assumption
    | (extract_lets +onlyGivenNames x; first
      | (have hx : State.kept x = s.kept := ?_; clear_value x; rename' x => y; on_goal 2 => (dsimp -zeta only [x] <;> clear x))
      | (clear_value x; rename' x => y)
      | (rename' x => y))
    | with_reducible refine (kept_updFn ..).trans ?_
    | split
    | dsimp -zeta only
    | simp -zeta only [*])

@[simp] theorem kept_doRingTableWrite (rq : Requester) (ctx : Nat) (val : W64) (s : State) :
    (doRingTableWrite rq ctx val s).kept = s.kept := by
  unfold doRingTableWrite
  repeat' (first
    | with_reducible rfl
    | with_reducible assumption
    | (extract_lets +onlyGivenNames x; first
      | (have hx : State.kept x = s.kept := ?_; clear_value x; rename' x => y; on_goal 2 => (dsimp -zeta only [x] <;> clear x))
      | (clear_value x; rename' x => y)
      | (rename' x => y))
    | with_reducible refine (kept_dropDb ..).trans ?_
    | with_reducible refine (kept_noteRwp ..).trans ?_
    | with_reducible refine (kept_updCtx ..).trans ?_
    | split
    | dsimp -zeta only
    | simp -zeta only [*])

@[simp] theorem kept_doFnAperWrite (fn : Nat) (val : W64) (s : State) :
    (doFnAperWrite fn val s).kept = s.kept := by
  unfold doFnAperWrite
  repeat' (first | with_reducible rfl | with_reducible refine (kept_noteRwp ..).trans ?_ | with_reducible refine (kept_updFn ..).trans ?_ | split)

@[simp] theorem kept_aperMiss (fn : Nat) (s : State) :
    (aperMiss fn s).kept = s.kept := by
  unfold aperMiss
  repeat' (first | with_reducible rfl | with_reducible refine (kept_updFn ..).trans ?_ | split)

@[simp] theorem kept_aperAsk (port id : Nat) (ps : List (Obj × Nat)) (data : Option (List Byte)) (s : State) :
    (aperAsk port id ps data s).kept = s.kept := by
  unfold aperAsk
  repeat' (first
    | with_reducible rfl
    | with_reducible refine (kept_addReqAt ..).trans ?_
    | with_reducible refine (kept_foldl _ ?_ _ _).trans ?_
    | with_reducible refine (kept_fold2 _ ?_ _ _).trans ?_
    | (intro s _ _)
    | (intro s _)
    | split
    | dsimp -zeta only)

@[simp] theorem kept_doBar4Access (port off : Nat) (acc : Bar4Acc) (s : State) :
    (doBar4Access port off acc s).kept = s.kept := by
  unfold doBar4Access
  repeat' (first
    | with_reducible rfl
    | with_reducible assumption
    | (extract_lets +onlyGivenNames x; first
      | (have hx : State.kept x = s.kept := ?_; clear_value x; rename' x => y; on_goal 2 => (dsimp -zeta only [x] <;> clear x))
      | (clear_value x; rename' x => y)
      | (rename' x => y))
    | with_reducible refine (kept_emit ..).trans ?_
    | with_reducible refine (kept_aperMiss ..).trans ?_
    | with_reducible refine (kept_settleApers ..).trans ?_
    | with_reducible refine (kept_aperAsk ..).trans ?_
    | with_reducible refine (kept_updHz ..).trans ?_
    | split
    | dsimp -zeta only
    | simp -zeta only [*])

@[simp] theorem kept_setSq (fn : Nat) (ctx : Option Nat) (ring : Nat) (r : SubRing) (s : State) :
    (setSq fn ctx ring r s).kept = s.kept := by
  unfold setSq
  repeat' (first | with_reducible rfl | with_reducible refine (kept_updFn ..).trans ?_ | with_reducible refine (kept_updSq ..).trans ?_ | split)

@[simp] theorem kept_setCq (fn : Nat) (ctx : Option Nat) (q : Nat) (r : CplRing) (s : State) :
    (setCq fn ctx q r s).kept = s.kept := by
  unfold setCq
  repeat' (first | with_reducible rfl | with_reducible refine (kept_updFn ..).trans ?_ | with_reducible refine (kept_updCq ..).trans ?_ | split)

@[simp] theorem kept_nameCq (fn : Nat) (ctx : Option Nat) (q : Nat) (s : State) :
    (nameCq fn ctx q s).kept = s.kept := by
  unfold nameCq
  repeat' (first | with_reducible rfl | with_reducible refine (kept_setCq ..).trans ?_ | split)

@[simp] theorem kept_takeReply (c : Cmd) (s : State) :
    (takeReply c s).kept = s.kept := by
  unfold takeReply
  repeat' (first | with_reducible rfl | with_reducible refine (kept_updFn ..).trans ?_ | split)

@[simp] theorem kept_putReply (c : Cmd) (st : W16) (res : List Byte) (s : State) :
    (putReply c st res s).kept = s.kept := by
  unfold putReply
  repeat' (first
    | with_reducible rfl
    | with_reducible assumption
    | (extract_lets +onlyGivenNames x; first
      | (have hx : State.kept x = s.kept := ?_; clear_value x; rename' x => y; on_goal 2 => (dsimp -zeta only [x] <;> clear x))
      | (clear_value x; rename' x => y)
      | (rename' x => y))
    | with_reducible refine (kept_updFn ..).trans ?_
    | split
    | dsimp -zeta only
    | simp -zeta only [*])

@[simp] theorem kept_noteFetch (c : Cmd) (s : State) :
    (noteFetch c s).kept = s.kept := by
  unfold noteFetch
  repeat' (first
    | with_reducible rfl
    | with_reducible refine (kept_decideLeases ..).trans ?_
    | with_reducible refine (kept_updCtx ..).trans ?_
    | with_reducible refine (kept_earn ..).trans ?_
    | split
    | dsimp -zeta only)

@[simp] theorem kept_fetchOne (fn : Nat) (ctx : Option Nat) (ring : Nat) (s : State) :
    (fetchOne fn ctx ring s).kept = s.kept := by
  unfold fetchOne
  repeat' (first
    | with_reducible rfl
    | with_reducible assumption
    | (extract_lets +onlyGivenNames x; first
      | (have hx : State.kept x = s.kept := ?_; clear_value x; rename' x => y; on_goal 2 => (dsimp -zeta only [x] <;> clear x))
      | (clear_value x; rename' x => y)
      | (rename' x => y))
    | with_reducible refine (kept_setSq ..).trans ?_
    | with_reducible refine (kept_nameCq ..).trans ?_
    | with_reducible refine (kept_updCtx ..).trans ?_
    | with_reducible refine (kept_noteFetch ..).trans ?_
    | with_reducible refine (kept_takeReply ..).trans ?_
    | split
    | dsimp -zeta only
    | simp -zeta only [*])

@[simp] theorem kept_fetchSome (fn : Nat) (ctx : Option Nat) (ring n : Nat) (s : State) :
    (fetchSome fn ctx ring n s).kept = s.kept := by
  induction n generalizing s with
  | zero => rfl
  | succ n ih => unfold fetchSome; split <;> simp [-Prod.mk.injEq, ih]

@[simp] theorem kept_takeMctp (b : List Byte) (s : State) :
    (takeMctp b s).kept = s.kept := by
  unfold takeMctp
  split <;> with_reducible rfl

@[simp] theorem kept_doCommandFetch (fn : Nat) (ctx : Option Nat) (ring : FetchFrom) (s : State) :
    (doCommandFetch fn ctx ring s).kept = s.kept := by
  unfold doCommandFetch
  repeat' (first
    | with_reducible rfl
    | with_reducible assumption
    | (extract_lets +onlyGivenNames x; first
      | (have hx : State.kept x = s.kept := ?_; clear_value x; rename' x => y; on_goal 2 => (dsimp -zeta only [x] <;> clear x))
      | (clear_value x; rename' x => y)
      | (rename' x => y))
    | with_reducible refine (kept_takeMctp ..).trans ?_
    | with_reducible refine (kept_fetchSome ..).trans ?_
    | split
    | dsimp -zeta only
    | simp -zeta only [*])

@[simp] theorem kept_writeEntryTo (c : Cmd) (st : W16) (res : List Byte) (s : State) :
    (writeEntryTo c st res s).kept = s.kept := by
  unfold writeEntryTo
  repeat' (first
    | with_reducible rfl
    | with_reducible assumption
    | (extract_lets +onlyGivenNames x; first
      | (have hx : State.kept x = s.kept := ?_; clear_value x; rename' x => y; on_goal 2 => (dsimp -zeta only [x] <;> clear x))
      | (clear_value x; rename' x => y)
      | (rename' x => y))
    | with_reducible refine (kept_hostWrite ..).trans ?_
    | with_reducible refine (kept_setCq ..).trans ?_
    | with_reducible refine (kept_signal ..).trans ?_
    | split
    | dsimp -zeta only
    | simp -zeta only [*])

@[simp] theorem kept_settleAdmin (fn : Nat) (s : State) :
    (settleAdmin fn s).kept = s.kept := by
  unfold settleAdmin
  repeat' (first | with_reducible rfl | with_reducible refine (kept_updFn ..).trans ?_ | split)

@[simp] theorem kept_mctpComplete (c : Cmd) (s : State) :
    (mctpComplete c s).kept = s.kept := by
  unfold mctpComplete
  repeat' (first | with_reducible rfl | with_reducible refine (kept_emit ..).trans ?_ | split)

@[simp] theorem kept_doCompletionWrite (cid : Nat) (s : State) :
    (doCompletionWrite cid s).kept = s.kept := by
  unfold doCompletionWrite
  repeat' (first
    | with_reducible rfl
    | with_reducible assumption
    | (extract_lets +onlyGivenNames x; first
      | (have hx : State.kept x = s.kept := ?_; clear_value x; rename' x => y; on_goal 2 => (dsimp -zeta only [x] <;> clear x))
      | (have hx : State.kept x.2 = s.kept := ?_; clear_value x; rename' x => y; on_goal 2 => (dsimp -zeta only [x] <;> clear x))
      | (have hx : State.kept x.2.2 = s.kept := ?_; clear_value x; rename' x => y; on_goal 2 => (dsimp -zeta only [x] <;> clear x))
      | (have hx : ∀ s, State.kept (x s) = s.kept := ?_; clear_value x; rename' x => y; on_goal 2 => (intro s; dsimp -zeta only [x] <;> clear x))
      | (have hx : ∀ a, State.kept (x a) = s.kept := ?_; clear_value x; rename' x => y; on_goal 2 => (intro a; dsimp -zeta only [x] <;> clear x))
      | (have hx : ∀ a s, State.kept (x a s) = s.kept := ?_; clear_value x; rename' x => y; on_goal 2 => (intro a s; dsimp -zeta only [x] <;> clear x))
      | (have hx : ∀ a b s, State.kept (x a b s) = s.kept := ?_; clear_value x; rename' x => y; on_goal 2 => (intro a b s; dsimp -zeta only [x] <;> clear x))
      | (have hx : ∀ a b c s, State.kept (x a b c s) = s.kept := ?_; clear_value x; rename' x => y; on_goal 2 => (intro a b c s; dsimp -zeta only [x] <;> clear x))
      | (have hx : ∀ a b c d s, State.kept (x a b c d s) = s.kept := ?_; clear_value x; rename' x => y; on_goal 2 => (intro a b c d s; dsimp -zeta only [x] <;> clear x))
      | (have hx : ∀ a b c d e s, State.kept (x a b c d e s) = s.kept := ?_; clear_value x; rename' x => y; on_goal 2 => (intro a b c d e s; dsimp -zeta only [x] <;> clear x))
      | (have hx : ∀ a b, State.kept (x a b) = s.kept := ?_; clear_value x; rename' x => y; on_goal 2 => (intro a b; dsimp -zeta only [x] <;> clear x))
      | (have hx : ∀ a b c, State.kept (x a b c) = s.kept := ?_; clear_value x; rename' x => y; on_goal 2 => (intro a b c; dsimp -zeta only [x] <;> clear x))
      | (clear_value x; rename' x => y)
      | (rename' x => y))
    | with_reducible refine (kept_mctpComplete ..).trans ?_
    | with_reducible refine (kept_updCmd ..).trans ?_
    | with_reducible refine (kept_updCtx ..).trans ?_
    | with_reducible refine (kept_putReply ..).trans ?_
    | with_reducible refine (kept_writeEntryTo ..).trans ?_
    | with_reducible refine (kept_settleAdmin ..).trans ?_
    | split
    | dsimp -zeta only
    | simp -zeta only [*])

@[simp] theorem kept_doInterruptTimeExpire (ctx q : Nat) (s : State) :
    (doInterruptTimeExpire ctx q s).kept = s.kept := by
  unfold doInterruptTimeExpire
  repeat' (first
    | with_reducible rfl
    | with_reducible assumption
    | (extract_lets +onlyGivenNames x; first
      | (have hx : State.kept x = s.kept := ?_; clear_value x; rename' x => y; on_goal 2 => (dsimp -zeta only [x] <;> clear x))
      | (clear_value x; rename' x => y)
      | (rename' x => y))
    | with_reducible refine (kept_signal ..).trans ?_
    | with_reducible refine (kept_updCq ..).trans ?_
    | split
    | dsimp -zeta only
    | simp -zeta only [*])

@[simp] theorem kept_doPing (cid : Nat) (s : State) :
    (doPing cid s).kept = s.kept := by
  unfold doPing
  repeat' (first
    | with_reducible rfl
    | with_reducible refine (kept_startCmd ..).trans ?_
    | with_reducible refine (kept_finish0 ..).trans ?_
    | with_reducible refine (kept_finish ..).trans ?_
    | split
    | dsimp -zeta only)

@[simp] theorem kept_doBusMasterDisable (fn : Nat) (s : State) :
    (doBusMasterDisable fn s).kept = s.kept := by
  unfold doBusMasterDisable
  repeat' (first | with_reducible rfl | with_reducible refine (kept_updFn ..).trans ?_ | split)

@[simp] theorem kept_doBusMasterEnable (fn : Nat) (s : State) :
    (doBusMasterEnable fn s).kept = s.kept := by
  unfold doBusMasterEnable
  repeat' (first | with_reducible rfl | with_reducible refine (kept_flushPba ..).trans ?_ | with_reducible refine (kept_updFn ..).trans ?_ | split)

@[simp] theorem kept_resetFns (pick : Nat → Bool) (s : State) :
    (resetFns pick s).kept = s.kept := by
  unfold resetFns
  repeat' (first
    | with_reducible rfl
    | with_reducible refine (kept_killCtx ..).trans ?_
    | with_reducible refine (kept_aperMiss ..).trans ?_
    | with_reducible refine (kept_foldl _ ?_ _ _).trans ?_
    | with_reducible refine (kept_fold2 _ ?_ _ _).trans ?_
    | (intro s _ _)
    | (intro s _)
    | split
    | dsimp -zeta only)

@[simp] theorem kept_resetPort (port : Nat) (s : State) :
    (resetPort port s).kept = s.kept := by
  unfold resetPort
  repeat' (first | with_reducible rfl | with_reducible refine (kept_resetFns ..).trans ?_ | with_reducible refine (kept_updPort ..).trans ?_ | split)

@[simp] theorem kept_doPortReset (port : Nat) (s : State) :
    (doPortReset port s).kept = s.kept := by
  unfold doPortReset
  repeat' (first | with_reducible rfl | with_reducible refine (kept_resetPort ..).trans ?_ | with_reducible refine (kept_updPort ..).trans ?_ | split)

@[simp] theorem kept_doPerstDeassert (port : Nat) (s : State) :
    (doPerstDeassert port s).kept = s.kept := by
  unfold doPerstDeassert
  repeat' (first | with_reducible rfl | with_reducible refine (kept_updPort ..).trans ?_ | split)

@[simp] theorem kept_doHostLinkDownTimeout (port : Nat) (s : State) :
    (doHostLinkDownTimeout port s).kept = s.kept := by
  unfold doHostLinkDownTimeout
  repeat' (first | with_reducible rfl | with_reducible refine (kept_resetPort ..).trans ?_ | with_reducible refine (kept_updPort ..).trans ?_ | split)

@[simp] theorem kept_doPfFlr (port : Nat) (s : State) :
    (doPfFlr port s).kept = s.kept := by
  unfold doPfFlr
  repeat' (first | with_reducible rfl | with_reducible refine (kept_resetPort ..).trans ?_ | split)

@[simp] theorem kept_doVfFlr (port : Nat) (vf : Option Nat) (s : State) :
    (doVfFlr port vf s).kept = s.kept := by
  unfold doVfFlr
  repeat' (first | with_reducible rfl | with_reducible refine (kept_updPort ..).trans ?_ | with_reducible refine (kept_resetFns ..).trans ?_ | split)

@[simp] theorem kept_doPortReadyAgain (port : Nat) (s : State) :
    (doPortReadyAgain port s).kept = s.kept := by
  unfold doPortReadyAgain
  repeat' (first | with_reducible rfl | with_reducible refine (kept_updPort ..).trans ?_ | split)

@[simp] theorem kept_doHostLinkUp (port width gen : Nat) (s : State) :
    (doHostLinkUp port width gen s).kept = s.kept := by
  unfold doHostLinkUp
  repeat' (first | with_reducible rfl | with_reducible refine (kept_updPort ..).trans ?_ | split)

@[simp] theorem kept_doHostLinkDown (port : Nat) (s : State) :
    (doHostLinkDown port s).kept = s.kept := by
  unfold doHostLinkDown
  repeat' (first | with_reducible rfl | with_reducible refine (kept_updPort ..).trans ?_ | split)

@[simp] theorem kept_doPkgrstRequestLapse (port : Nat) (s : State) :
    (doPkgrstRequestLapse port s).kept = s.kept := by
  unfold doPkgrstRequestLapse
  repeat' (first | with_reducible rfl | with_reducible refine (kept_updPort ..).trans ?_ | split)

/-! ## Registers -/

@[simp] theorem kept_guardFail (rq : Requester) (cause off : Nat) (val : W32) (s : State) :
    (guardFail rq cause off val s).kept = s.kept := by
  unfold guardFail
  repeat' (first | with_reducible rfl | with_reducible refine (kept_postRec ..).trans ?_ | split)

@[simp] theorem kept_closePend (rq : Requester) (g : GReg) (s : State) :
    (closePend rq g s).kept = s.kept := by
  unfold closePend
  with_reducible rfl

@[simp] theorem kept_openPend (rq : Requester) (g : GReg) (v : W32) (s : State) :
    (openPend rq g v s).kept = s.kept := by
  unfold openPend
  repeat' (first | with_reducible rfl | with_reducible refine (kept_closePend ..).trans ?_ | split)

@[simp] theorem kept_guardA (rq : Requester) (g : GReg) (va : W32) (s : State) :
    (guardA rq g va s).kept = s.kept := by
  unfold guardA
  repeat' (first | with_reducible rfl | with_reducible refine (kept_guardFail ..).trans ?_ | with_reducible refine (kept_openPend ..).trans ?_ | split)

@[simp] theorem kept_doGuardedWindowExpire (rq : Requester) (g : GReg) (s : State) :
    (doGuardedWindowExpire rq g s).kept = s.kept := by
  unfold doGuardedWindowExpire
  repeat' (first | with_reducible rfl | with_reducible refine (kept_guardFail ..).trans ?_ | with_reducible refine (kept_closePend ..).trans ?_ | split)

@[simp] theorem kept_doGuardedWriteA (rq : Requester) (g : GReg) (va : W32) (s : State) :
    (doGuardedWriteA rq g va s).kept = s.kept := by
  unfold doGuardedWriteA
  repeat' (first
    | with_reducible rfl
    | with_reducible refine (kept_onBar _ _ ?_ _).trans ?_
    | with_reducible refine (kept_guardA ..).trans ?_
    | (intro s _ _)
    | (intro s _)
    | (intro s)
    | split
    | dsimp -zeta only)

@[simp] theorem kept_doHubNumctlWrite (rq : Requester) (ctx : Nat) (val : W64) (s : State) :
    (doHubNumctlWrite rq ctx val s).kept = s.kept := by
  unfold doHubNumctlWrite
  repeat' (first | with_reducible rfl | with_reducible refine (kept_noteRwp ..).trans ?_ | with_reducible refine (kept_updCtx ..).trans ?_ | split)

@[simp] theorem kept_doHubNumringWrite (rq : Requester) (ctx : Nat) (val : W64) (s : State) :
    (doHubNumringWrite rq ctx val s).kept = s.kept := by
  unfold doHubNumringWrite
  repeat' (first | with_reducible rfl | with_reducible refine (kept_noteRwp ..).trans ?_ | with_reducible refine (kept_updCtx ..).trans ?_ | split)

@[simp] theorem kept_doHubSpecWrite (rq : Requester) (ctx : Nat) (val : W64) (s : State) :
    (doHubSpecWrite rq ctx val s).kept = s.kept := by
  unfold doHubSpecWrite
  repeat' (first | with_reducible rfl | with_reducible refine (kept_noteRwp ..).trans ?_ | with_reducible refine (kept_updCtx ..).trans ?_ | split)

@[simp] theorem kept_doErrTilthWWrite (rq : Requester) (val : W64) (s : State) :
    (doErrTilthWWrite rq val s).kept = s.kept := by
  unfold doErrTilthWWrite
  repeat' (first | with_reducible rfl | with_reducible refine (kept_noteRwp ..).trans ?_ | split)

@[simp] theorem kept_doPmcSmpTailWrite (rq : Requester) (ctx : Nat) (val : W32) (s : State) :
    (doPmcSmpTailWrite rq ctx val s).kept = s.kept := by
  unfold doPmcSmpTailWrite
  repeat' (first | with_reducible rfl | with_reducible refine (kept_updCtx ..).trans ?_ | split)

@[simp] theorem kept_latch (rq : Requester) (x : RegVal) (s : State) :
    (latch rq x s).kept = s.kept := by
  unfold latch
  with_reducible rfl

@[simp] theorem kept_readWord (rq : Requester) (a : Nat) (s : State) :
    (readWord rq a s).2.kept = s.kept := by
  unfold readWord
  repeat' (first
    | with_reducible rfl
    | with_reducible assumption
    | (extract_lets +onlyGivenNames x; first
      | (have hx : State.kept x = s.kept := ?_; clear_value x; rename' x => y; on_goal 2 => (dsimp -zeta only [x] <;> clear x))
      | (clear_value x; rename' x => y)
      | (rename' x => y))
    | with_reducible refine (kept_latch ..).trans ?_
    | split
    | dsimp -zeta only
    | simp -zeta only [*])

@[simp] theorem kept_badAccess (s : State) :
    (badAccess s).kept = s.kept := by
  unfold badAccess
  with_reducible rfl

@[simp] theorem kept_readWords (rq : Requester) (off n : Nat) (s : State) : (readWords rq off n s).2.kept = s.kept := by
  induction n generalizing off s with
  | zero => rfl
  | succ n ih => unfold readWords; dsimp only; rw [ih]; split <;> simp [-Prod.mk.injEq]

@[simp] theorem kept_doRegisterReadLatch (rq : Requester) (off size : Nat) (s : State) :
    (doRegisterReadLatch rq off size s).kept = s.kept := by
  unfold doRegisterReadLatch
  repeat' (first
    | with_reducible rfl
    | with_reducible refine (kept_emit ..).trans ?_
    | with_reducible refine (kept_badAccess ..).trans ?_
    | with_reducible refine (kept_readWords ..).trans ?_
    | split
    | dsimp -zeta only)

@[simp] theorem kept_putFnCtl (f : Nat) (val : W64) (s : State) :
    (putFnCtl f val s).kept = s.kept := by
  unfold putFnCtl
  repeat' (first
    | with_reducible rfl
    | with_reducible refine (kept_noteRwp ..).trans ?_
    | with_reducible refine (kept_updFn ..).trans ?_
    | with_reducible refine (kept_doAdminRingEnable ..).trans ?_
    | with_reducible refine (kept_doAdminRingDisable ..).trans ?_
    | split
    | dsimp -zeta only)

@[simp] theorem kept_putPage (f o : Nat) (val : W64) (s : State) :
    (putPage f o val s).kept = s.kept := by
  unfold putPage
  repeat' (first
    | with_reducible rfl
    | with_reducible assumption
    | (extract_lets +onlyGivenNames x; first
      | (have hx : State.kept x = s.kept := ?_; clear_value x; rename' x => y; on_goal 2 => (dsimp -zeta only [x] <;> clear x))
      | (clear_value x; rename' x => y)
      | (rename' x => y))
    | with_reducible refine (kept_noteRwp ..).trans ?_
    | with_reducible refine (kept_updFn ..).trans ?_
    | with_reducible refine (kept_putFnCtl ..).trans ?_
    | with_reducible refine (kept_doAdminDoorbell ..).trans ?_
    | with_reducible refine (kept_doFnAperWrite ..).trans ?_
    | split
    | dsimp -zeta only
    | simp -zeta only [*])

@[simp] theorem kept_putAccerr (rq : Requester) (val : W64) (s : State) :
    (putAccerr rq val s).kept = s.kept := by
  unfold putAccerr
  repeat' (first | with_reducible rfl | with_reducible refine (kept_rwpWrite ..).trans ?_ | split)

@[simp] theorem kept_putLnkCtl (rq : Requester) (val : W64) (s : State) :
    (putLnkCtl rq val s).kept = s.kept := by
  unfold putLnkCtl
  repeat' (first | with_reducible rfl | with_reducible refine (kept_noteRwp ..).trans ?_ | with_reducible refine (kept_updFab ..).trans ?_ | split)

@[simp] theorem kept_putGsel (rq : Requester) (d : Nat) (val : W32) (s : State) :
    (putGsel rq d val s).kept = s.kept := by
  unfold putGsel
  repeat' (first | with_reducible rfl | with_reducible refine (kept_noteRwp ..).trans ?_ | split)

@[simp] theorem kept_putMsix (fn v lane : Nat) (val : W32) (s : State) :
    (putMsix fn v lane val s).kept = s.kept := by
  unfold putMsix
  repeat' (first | with_reducible rfl | with_reducible refine (kept_flushPba ..).trans ?_ | with_reducible refine (kept_updFn ..).trans ?_ | split)

@[simp] theorem kept_putRoutes (rq : Requester) (k : Nat) (val : W64) (s : State) :
    (putRoutes rq k val s).kept = s.kept := by
  unfold putRoutes
  repeat' (first
    | with_reducible rfl
    | with_reducible refine (kept_doLnkRouteWrite ..).trans ?_
    | with_reducible refine (kept_foldl _ ?_ _ _).trans ?_
    | with_reducible refine (kept_fold2 _ ?_ _ _).trans ?_
    | (intro s _ _)
    | (intro s _)
    | split
    | dsimp -zeta only)

@[simp] theorem kept_putLnk (rq : Requester) (b : Nat) (val : W64) (s : State) :
    (putLnk rq b val s).kept = s.kept := by
  unfold putLnk
  repeat' (first
    | with_reducible rfl
    | with_reducible refine (kept_doLnkPortEnable ..).trans ?_
    | with_reducible refine (kept_putRoutes ..).trans ?_
    | with_reducible refine (kept_doLnkTorusWrite ..).trans ?_
    | with_reducible refine (kept_putLnkCtl ..).trans ?_
    | with_reducible refine (kept_doLnkCreditWrite ..).trans ?_
    | split
    | dsimp -zeta only)

@[simp] theorem kept_putErr (rq : Requester) (b : Nat) (val : W64) (s : State) :
    (putErr rq b val s).kept = s.kept := by
  unfold putErr
  repeat' (first
    | with_reducible rfl
    | with_reducible refine (kept_doErrRingTailWrite ..).trans ?_
    | with_reducible refine (kept_doErrFatalClear ..).trans ?_
    | with_reducible refine (kept_doErrTilthWWrite ..).trans ?_
    | with_reducible refine (kept_tailWrite ..).trans ?_
    | split
    | dsimp -zeta only)

theorem kept_if {c : Prop} [Decidable c] {a b s : State} (ha : a.kept = s.kept) (hb : b.kept = s.kept) :
    (if c then a else b).kept = s.kept := by split <;> assumption
theorem kept_putMsixOf (rq : Requester) (k l : Nat) (v : W32) (s : State) :
    (match rq with | .host fn => putMsix fn k l v s | _ => s).kept = s.kept := by
  cases rq
  · exact kept_putMsix ..
  · rfl
  · rfl
@[simp] theorem kept_putReg (rq : Requester) (b : Nat) (val : W64) (s : State) : (putReg rq b val s).kept = s.kept := by
  unfold putReg
  repeat' (first
    | with_reducible rfl
    | with_reducible exact kept_rwpWrite ..
    | with_reducible exact kept_putAccerr ..
    | with_reducible exact kept_doHubNumctlWrite ..
    | with_reducible exact kept_doHubNumringWrite ..
    | with_reducible exact kept_doHubSpecWrite ..
    | with_reducible exact kept_doRingTableWrite ..
    | with_reducible exact kept_putPage ..
    | with_reducible exact kept_putMsixOf ..
    | with_reducible exact kept_putLnk ..
    | with_reducible exact kept_putErr ..
    | with_reducible exact kept_doPwrCtlWrite ..
    | with_reducible exact kept_doPwrBallastWrite ..
    | with_reducible exact kept_doPmcSmpTailWrite ..
    | with_reducible exact kept_putGsel ..
    | with_reducible refine kept_if ?_ ?_
    | exact kept_putMsixOf ..)

@[simp] theorem kept_keepHeld (rq : Requester) (b : Nat) (s : State) :
    (keepHeld rq b s).kept = s.kept := by
  unfold keepHeld
  with_reducible rfl

@[simp] theorem kept_writeWord (rq : Requester) (a : Nat) (v : W32) (s : State) :
    (writeWord rq a v s).kept = s.kept := by
  unfold writeWord
  repeat' (first
    | with_reducible rfl
    | with_reducible assumption
    | (extract_lets +onlyGivenNames x; first
      | (have hx : State.kept x = s.kept := ?_; clear_value x; rename' x => y; on_goal 2 => (dsimp -zeta only [x] <;> clear x))
      | (clear_value x; rename' x => y)
      | (rename' x => y))
    | with_reducible refine (kept_keepHeld ..).trans ?_
    | with_reducible refine (kept_putReg ..).trans ?_
    | with_reducible refine (kept_dropHeld ..).trans ?_
    | split
    | dsimp -zeta only
    | simp -zeta only [*])

/-! ## Dump -/

@[simp] theorem kept_dumpContent (size ty ctx : Nat) (s : State) :
    (dumpContent size ty ctx s).2.kept = s.kept := by
  unfold dumpContent
  repeat' (first | with_reducible rfl | with_reducible refine (kept_freeBelow ..).trans ?_ | with_reducible refine (kept_freeBits ..).trans ?_ | split)

@[simp] theorem kept_dumpFill (size : Nat) (l : List (Nat × Nat)) (off : Nat) (s : State) :
    (dumpFill size l off s).2.kept = s.kept := by
  induction l generalizing off s with
  | nil => rfl
  | cons w l ih => unfold dumpFill; dsimp only; repeat' (first | rfl | split | simp [-Prod.mk.injEq, ih])

@[simp] theorem kept_dumpPort (slot p : Nat) (s : State) :
    (dumpPort slot p s).kept = s.kept := by
  unfold dumpPort
  repeat' (first
    | with_reducible rfl
    | with_reducible assumption
    | (extract_lets +onlyGivenNames x; first
      | (have hx : State.kept x = s.kept := ?_; clear_value x; rename' x => y; on_goal 2 => (dsimp -zeta only [x] <;> clear x))
      | (have hx : State.kept x.2 = s.kept := ?_; clear_value x; rename' x => y; on_goal 2 => (dsimp -zeta only [x] <;> clear x))
      | (have hx : State.kept x.2.2 = s.kept := ?_; clear_value x; rename' x => y; on_goal 2 => (dsimp -zeta only [x] <;> clear x))
      | (clear_value x; rename' x => y)
      | (rename' x => y))
    | with_reducible refine (kept_dumpFill ..).trans ?_
    | with_reducible refine (kept_hostWrite ..).trans ?_
    | split
    | dsimp -zeta only
    | simp -zeta only [*])

@[simp] theorem kept_fwFails (s : State) :
    (fwFails s).kept = s.kept := by
  unfold fwFails
  repeat' (first
    | with_reducible rfl
    | with_reducible assumption
    | (extract_lets +onlyGivenNames x; first
      | (have hx : State.kept x = s.kept := ?_; clear_value x; rename' x => y; on_goal 2 => (dsimp -zeta only [x] <;> clear x))
      | (have hx : State.kept x.2 = s.kept := ?_; clear_value x; rename' x => y; on_goal 2 => (dsimp -zeta only [x] <;> clear x))
      | (have hx : State.kept x.2.2 = s.kept := ?_; clear_value x; rename' x => y; on_goal 2 => (dsimp -zeta only [x] <;> clear x))
      | (clear_value x; rename' x => y)
      | (rename' x => y))
    | with_reducible refine (kept_freeBits ..).trans ?_
    | with_reducible refine (kept_postRec ..).trans ?_
    | with_reducible refine (kept_finish ..).trans ?_
    | split
    | dsimp -zeta only
    | simp -zeta only [*])

@[simp] theorem kept_doFatalError (s : State) :
    (doFatalError s).kept = s.kept := by
  unfold doFatalError
  repeat' (first
    | with_reducible rfl
    | with_reducible assumption
    | (extract_lets +onlyGivenNames x; first
      | (have hx : State.kept x = s.kept := ?_; clear_value x; rename' x => y; on_goal 2 => (dsimp -zeta only [x] <;> clear x))
      | (clear_value x; rename' x => y)
      | (rename' x => y))
    | with_reducible refine (kept_fwFails ..).trans ?_
    | with_reducible refine (kept_stopSeg ..).trans ?_
    | with_reducible refine (kept_dumpPort ..).trans ?_
    | with_reducible refine (kept_foldl _ ?_ _ _).trans ?_
    | with_reducible refine (kept_fold2 _ ?_ _ _).trans ?_
    | (intro s _ _)
    | (intro s _)
    | split
    | dsimp -zeta only
    | simp -zeta only [*])

/-! ## Tick -/

@[simp] theorem kept_warmStep (s : State) :
    (warmStep s).kept = s.kept := by
  unfold warmStep
  repeat' (first | with_reducible rfl | with_reducible refine (kept_moveLevel ..).trans ?_ | split)

end Sys2Proof.Machine
end

