-- ==== Sys2Proof/Laws/Maps.lean ====
section
/-! SUPPORT. Reading a number-keyed map after it was written, changed or thinned, and small facts about the lists of the model. -/

namespace Sys2Proof.Machine

open Sys2Proof

theorem nmGet_nmSet {α : Type} (k : Nat) (x : α) (m : NatMap α) : nmGet (nmSet k x m) k = some x := by
  induction m with
  | nil => simp [nmSet, nmGet]
  | cons e m ih => obtain ⟨a, y⟩ := e; unfold nmSet; split
                   · simp [nmGet]
                   · split
                     · simp [nmGet]
                     · rename_i h; simp [nmGet, h, ih]

theorem nmGet_nmSet_ne {α : Type} (k j : Nat) (x : α) (m : NatMap α) (h : j ≠ k) : nmGet (nmSet k x m) j = nmGet m j := by
  induction m with
  | nil => simp [nmSet, nmGet, Ne.symm h]
  | cons e m ih =>
    obtain ⟨a, y⟩ := e; unfold nmSet; split
    · simp [nmGet, Ne.symm h]
    · split
      · rename_i h2; subst h2; simp [nmGet, Ne.symm h]
      · simp only [nmGet, ih]

theorem nmGet_map_at {α : Type} (m : NatMap α) (g : Nat → α → α) (k : Nat) (x : α) (h : nmGet m k = some x) :
    nmGet (m.map (fun e => (e.1, g e.1 e.2))) k = some (g k x) := by
  induction m with
  | nil => cases h
  | cons e m ih => obtain ⟨a, y⟩ := e; simp only [nmGet, List.map] at h ⊢; split at h
                   · rename_i h2; subst h2; cases h; simp
                   · rename_i h2; simp [h2, ih h]

theorem nmGet_foldl_nmSet (pick : Nat → Bool) (l : List Nat) (fr : Fn → Fn) (g : NatMap Fn) (m : NatMap Fn) (k : Nat) (h : k ∈ l) :
    nmGet (l.foldl (fun m n => nmSet n (fr (nmGetD g n fnReset)) m) m) k = some (fr (nmGetD g k fnReset)) := by
  induction l generalizing m with
  | nil => cases h
  | cons a l ih =>
    rw [List.foldl_cons]
    by_cases hk : k ∈ l
    · exact ih _ hk
    · have : k = a := by simpa [hk] using h
      subst this
      clear ih h
      have aux : ∀ m', nmGet m' k = some (fr (nmGetD g k fnReset)) → nmGet (l.foldl (fun m n => nmSet n (fr (nmGetD g n fnReset)) m) m') k = some (fr (nmGetD g k fnReset)) := by
        induction l with
        | nil => intro m' h; exact h
        | cons b l ih2 =>
          intro m' h
          rw [List.foldl_cons]
          have hb : k ≠ b := by intro e; apply hk; simp [e]
          exact ih2 (by intro e; apply hk; simp [e]) _ (by rw [nmGet_nmSet_ne _ _ _ _ hb]; exact h)
      exact aux _ (nmGet_nmSet ..)

theorem nmGet_nmUpd {α : Type} (k : Nat) (f : α → α) (m : NatMap α) : nmGet (nmUpd k f m) k = (nmGet m k).map f := by
  induction m with
  | nil => rfl
  | cons e m ih => obtain ⟨a, y⟩ := e; simp only [nmUpd, List.map, nmGet] at ih ⊢; split
                   · simp_all [nmGet]
                   · rename_i h; simp [nmGet, h, ih]

theorem nmGet_nmUpd_ne {α : Type} (k j : Nat) (f : α → α) (m : NatMap α) (h : j ≠ k) : nmGet (nmUpd k f m) j = nmGet m j := by
  induction m with
  | nil => rfl
  | cons e m ih => obtain ⟨a, y⟩ := e; simp only [nmUpd, List.map, nmGet] at ih ⊢; split
                   · rename_i h2; subst h2; simp [nmGet, Ne.symm h, ih]
                   · simp [nmGet, ih]

theorem nmGet_nmDel {α : Type} (k : Nat) (m : NatMap α) : nmGet (nmDel k m) k = none := by
  induction m with
  | nil => rfl
  | cons e m ih => obtain ⟨a, y⟩ := e
                   unfold nmDel at ih ⊢
                   by_cases h : a = k
                   · simp [h, ih]
                   · simp [h, nmGet, ih]

theorem lowest_none (l : List (Bool × Nat)) (h : l.all (fun e => !e.1) = true) : lowest l = none := by
  unfold lowest
  induction l with
  | nil => rfl
  | cons a l ih =>
    simp only [List.all_cons, Bool.and_eq_true, Bool.not_eq_true'] at h
    rw [List.foldl_cons]
    simp only [h.1, Bool.false_eq_true, if_false]
    exact ih h.2

theorem nmGet_nmDel_ne {α : Type} (k j : Nat) (m : NatMap α) (h : j ≠ k) : nmGet (nmDel k m) j = nmGet m j := by
  induction m with
  | nil => rfl
  | cons e m ih => obtain ⟨a, y⟩ := e
                   unfold nmDel at ih ⊢
                   by_cases h2 : a = k
                   · subst h2; simp [ih, nmGet, Ne.symm h]
                   · simp [h2, nmGet, ih]

theorem nmSet_nmSet {α : Type} (k : Nat) (x y : α) (m : NatMap α) : nmSet k x (nmSet k y m) = nmSet k x m := by
  induction m with
  | nil => simp [nmSet]
  | cons e m ih =>
    obtain ⟨a, z⟩ := e
    by_cases h1 : k < a
    · simp [nmSet, h1]
    · by_cases h2 : k = a
      · simp [nmSet, h2]
      · simp [nmSet, h1, Ne.symm h2, ih]

theorem selectors_foldl (n f : Nat) (p : List Byte) (m : NatMap W64) (i : Nat) (h : i < n) :
   nmGet ((List.range n).foldl (fun m i => nmSet (f + i) (BitVec.ofNat 64 (u64 p (8 + 8 * i))) m) m) (f + i) = some (BitVec.ofNat 64 (u64 p (8 + 8 * i))) := by
  induction n generalizing i with
  | zero => omega
  | succ n ih =>
    rw [List.range_succ, List.foldl_append]
    simp only [List.foldl_cons, List.foldl_nil]
    by_cases e : i = n
    · subst e; rw [nmGet_nmSet]
    · rw [nmGet_nmSet_ne _ _ _ _ (by omega)]; exact ih i (by omega)

theorem mem_foldl_addOnce (ps : List Nat) (b : List Nat) : ∀ x, (x ∈ ps ∨ x ∈ b) → x ∈ ps.foldl (fun l x => addOnce x l) b := by
  induction ps generalizing b with
  | nil => intro x h; simpa using h
  | cons a ps ih =>
    intro x h
    rw [List.foldl_cons]
    apply ih
    rcases h with h | h
    · rcases List.mem_cons.1 h with h | h
      · subst h; right; unfold addOnce; split <;> simp_all
      · left; exact h
    · right; unfold addOnce; split <;> simp_all

theorem find_filter_ne_none (l : List Inst) (tag : Nat) : (l.filter (fun i => i.tag != tag)).find? (fun i => i.tag == tag) = none := by
  rw [List.find?_eq_none]; intro e he; simp at he; simpa using he.2

theorem nmGetD_filterMap (f : Nat → Mem) (l : List Nat) (k : Nat) (hk : k ∈ l) :
   nmGetD (l.filterMap (fun k => match f k with | [] => none | m => some (k, m))) k [] = f k := by
  have key : ∀ l : List Nat, (k ∈ l → nmGetD (l.filterMap (fun k => match f k with | [] => none | m => some (k, m))) k [] = f k) ∧ (nmGetD (l.filterMap (fun k => match f k with | [] => none | m => some (k, m))) k [] = f k ∨ nmGetD (l.filterMap (fun k => match f k with | [] => none | m => some (k, m))) k [] = []) := by
    intro l
    induction l with
    | nil => exact ⟨by simp, Or.inr rfl⟩
    | cons a l ih =>
      by_cases ha : a = k
      · subst ha
        cases hf : f a with
        | nil =>
          have : List.filterMap (fun k => match f k with | [] => none | m => some (k, m)) (a :: l) = List.filterMap (fun k => match f k with | [] => none | m => some (k, m)) l := by
            rw [List.filterMap_cons]; simp [hf]
          have e2 : ([] : Mem) = f a := hf.symm
          rw [this]
          have ih2 := ih.2
          rw [hf] at ih2
          have ih3 := ih2.elim id id
          exact ⟨fun _ => ih3, Or.inr ih3⟩
        | cons b m =>
          have : List.filterMap (fun k => match f k with | [] => none | m => some (k, m)) (a :: l) = (a, b :: m) :: List.filterMap (fun k => match f k with | [] => none | m => some (k, m)) l := by
            rw [List.filterMap_cons]; simp [hf]
          rw [this]
          simp [nmGetD, nmGet]
      · have : nmGetD (List.filterMap (fun k => match f k with | [] => none | m => some (k, m)) (a :: l)) k [] = nmGetD (List.filterMap (fun k => match f k with | [] => none | m => some (k, m)) l) k [] := by
          rw [List.filterMap_cons]
          cases hf : f a with
          | nil => simp
          | cons b m => simp [nmGetD, nmGet, ha]
        rw [this]
        refine ⟨fun h => ih.1 ?_, ih.2⟩
        simpa [Ne.symm ha] using h
  exact (key l).1 hk

theorem find_updWhere_same (l : List SaveArea) (p : SaveArea → Bool) (f : SaveArea → SaveArea) (hf : ∀ a, p (f a) = p a) :
  (updWhere p f l).find? p = (l.find? p).map f := by
  unfold updWhere
  induction l with
  | nil => rfl
  | cons a l ih =>
    rw [List.map_cons, List.find?_cons, List.find?_cons]
    by_cases h : p a = true
    · simp only [h, if_true, hf]; rfl
    · simp only [Bool.not_eq_true] at h
      simp only [h, Bool.false_eq_true, if_false]
      exact ih

theorem lowest_eq (l : List (Bool × Nat)) (c : Nat) (h1 : (true, c) ∈ l) (h2 : ∀ e ∈ l, e.1 = true → c ≤ e.2) : lowest l = some c := by
  have key : ∀ (l : List (Bool × Nat)) (m : Option Nat), (∀ e ∈ l, e.1 = true → c ≤ e.2) → (∀ x, m = some x → c ≤ x) → ((true, c) ∈ l ∨ m = some c) →
      l.foldl (fun m e => if e.1 then (match m with | none => some e.2 | some x => some (min x e.2)) else m) m = some c := by
    intro l
    induction l with
    | nil => intro m _ _ h; simpa using h
    | cons e l ih =>
      intro m h2 hm h
      rw [List.foldl_cons]
      obtain ⟨b, y⟩ := e
      cases b
      · simp only [Bool.false_eq_true, if_false]
        apply ih _ (fun e he => h2 e (by simp [he])) hm
        rcases h with h | h
        · left; simpa using h
        · exact Or.inr h
      · simp only [if_true]
        have hy : c ≤ y := h2 (true, y) (by simp) rfl
        apply ih _ (fun e he => h2 e (by simp [he]))
        · intro x hx
          cases m with
          | none => simp at hx; omega
          | some z => simp at hx; have := hm z rfl; omega
        · rcases h with h | h
          · rcases List.mem_cons.1 h with h | h
            · right; cases h
              cases m with
              | none => rfl
              | some z => have := hm z rfl; simp; omega
            · exact Or.inl h
          · right; rw [h]; simp; omega
  exact key l none h2 (by intro x hx; cases hx) (Or.inl h1)

theorem nmGet_map_where (m : NatMap Grain) (p : Grain → Prop) [DecidablePred p] (f : Grain → Grain) (k : Nat) (x : Grain) (h : nmGet m k = some x) :
    nmGet (m.map (fun e => if p e.2 then (e.1, f e.2) else e)) k = some (if p x then f x else x) := by
  induction m with
  | nil => cases h
  | cons e m ih =>
    obtain ⟨a, y⟩ := e
    simp only [nmGet] at h
    rw [List.map_cons]
    split at h
    · rename_i ha; cases h; split
      · simp [nmGet, ha]
      · simp [nmGet, ha]
    · rename_i ha
      split <;> simp [nmGet, ha, ih h]

theorem nmGet_map_value (m : NatMap Thr) (f : Thr → Thr) (k : Nat) (x : Thr) (h : nmGet m k = some x) : nmGet (m.map (fun e => (e.1, f e.2))) k = some (f x) := by
  induction m with
  | nil => cases h
  | cons e m ih =>
    obtain ⟨a, y⟩ := e
    simp only [nmGet] at h
    rw [List.map_cons]
    split at h
    · rename_i ha; cases h; simp [nmGet, ha]
    · rename_i ha; simp [nmGet, ha, ih h]

theorem updWhere_length {α : Type} (p : α → Bool) (f : α → α) (l : List α) : (updWhere p f l).length = l.length := by
  unfold updWhere; simp

end Sys2Proof.Machine
end

