-- ==== Sys2Proof/Laws/BytesOps.lean ====
section
/-! SUPPORT. What leaves every byte of every memory as it was: the shared operations, operands, issue and retirement. -/

namespace Sys2Proof.Machine

open Sys2Proof

set_option maxRecDepth 4096
set_option linter.all false

/-- The local stores, by physical grain. -/
def lsOf (m : NatMap Phys) (q : Nat) : Mem := (nmGetD m q physReset).ls
/-- What a horizon part holds in bytes. -/
@[reducible] def Hz.mems (h : Hz) : Mem × Mem × NatMap Mem × Mem × Mem := (h.hz1, h.hz2, h.hz3, h.host0, h.host1)
/-- Every byte of the package's memories, its firmware slots and its hosts. -/
@[reducible] def State.mems (s : State) : (Mem × Mem × NatMap Mem × Mem × Mem) × (Mem × Mem) × (Nat → Mem) :=
  (s.hz.mems, (s.flash.slotA, s.flash.slotB), lsOf s.phys)
@[simp] theorem mems_ite (c : Prop) [Decidable c] (a b : State) : (if c then a else b).mems = if c then a.mems else b.mems := by split <;> rfl
theorem mems_foldl {α : Type} (f : State → α → State) (h : ∀ s a, (f s a).mems = s.mems) (l : List α) (s : State) :
    (l.foldl f s).mems = s.mems := by
  induction l generalizing s with
  | nil => rfl
  | cons a l ih => rw [List.foldl_cons, ih, h]
theorem mems_fold2 {α β : Type} (f : β × State → α → β × State) (h : ∀ s b a, (f (b, s) a).2.mems = s.mems) (l : List α)
    (x : β × State) : (l.foldl f x).2.mems = x.2.mems := by
  induction l generalizing x with
  | nil => rfl
  | cons a l ih => rw [List.foldl_cons, ih, ← h x.2 x.1 a]
/-- A change of a horizon part that leaves its bytes alone. -/
theorem mems_updHz (f : Hz → Hz) (s : State) (h : (f s.hz).mems = s.hz.mems) : (updHz f s).mems = s.mems := by
  unfold State.mems updHz
  rw [h]
/-- A change of a grain's private state that leaves its local store alone. -/
theorem mems_updPhys (q : Nat) (f : Phys → Phys) (s : State) (h : ∀ x, (f x).ls = x.ls) : (updPhys q f s).mems = s.mems := by
  unfold State.mems updPhys
  congr 2
  funext k
  unfold lsOf nmUpdD nmGetD
  by_cases hk : k = q
  · subst hk; rw [nmGet_nmSet]; exact h _
  · rw [nmGet_nmSet_ne _ _ _ _ hk]
/-- A change of every grain's private state that leaves the local stores alone. -/
theorem lsOf_map (m : NatMap Phys) (f : Nat × Phys → Nat × Phys) (h : ∀ e, (f e).1 = e.1 ∧ (f e).2.ls = e.2.ls) :
    lsOf (m.map f) = lsOf m := by
  funext q
  unfold lsOf nmGetD
  induction m with
  | nil => rfl
  | cons e m ih =>
    have k := h e
    rw [List.map_cons]
    obtain ⟨a, x⟩ := e
    generalize f (a, x) = y at k ⊢
    obtain ⟨b, z⟩ := y
    dsimp only at k
    obtain ⟨rfl, k⟩ := k
    unfold nmGet
    split
    · exact k
    · exact ih

/-! ## Ops -/

@[simp] theorem mems_freeBits (w : Nat) (s : State) :
    (freeBits w s).2.mems = s.mems := by
  unfold freeBits
  with_reducible rfl

@[simp] theorem mems_freeBelow (n : Nat) (s : State) :
    (freeBelow n s).2.mems = s.mems := by
  unfold freeBelow
  with_reducible rfl

@[simp] theorem mems_freeBool (s : State) :
    (freeBool s).2.mems = s.mems := by
  unfold freeBool
  with_reducible rfl

@[simp] theorem mems_emit (o : Out) (s : State) :
    (emit o s).mems = s.mems := by
  unfold emit
  with_reducible rfl

@[simp] theorem mems_updPort (p : Nat) (f : Port → Port) (s : State) :
    (updPort p f s).mems = s.mems := by
  unfold updPort
  split <;> with_reducible rfl

@[simp] theorem mems_updFn (fn : Nat) (f : Fn → Fn) (s : State) :
    (updFn fn f s).mems = s.mems := by
  unfold updFn
  with_reducible rfl

@[simp] theorem mems_updCtx (c : Nat) (f : Ctx → Ctx) (s : State) :
    (updCtx c f s).mems = s.mems := by
  unfold updCtx
  with_reducible rfl

@[simp] theorem mems_updCmd (cid : Nat) (f : Cmd → Cmd) (s : State) :
    (updCmd cid f s).mems = s.mems := by
  unfold updCmd
  with_reducible rfl

@[simp] theorem mems_updSeg (c : Nat) (f : RunSeg → RunSeg) (s : State) :
    (updSeg c f s).mems = s.mems := by
  unfold updSeg
  with_reducible rfl

@[simp] theorem mems_updPed2 (p : Nat) (f : Ped2 → Ped2) (s : State) :
    (updPed2 p f s).mems = s.mems := by
  unfold updPed2
  with_reducible rfl

@[simp] theorem mems_updGrain (g : Nat) (f : Grain → Grain) (s : State) :
    (updGrain g f s).mems = s.mems := by
  unfold updGrain
  with_reducible rfl

@[simp] theorem mems_updThr (g t : Nat) (f : Thr → Thr) (s : State) :
    (updThr g t f s).mems = s.mems := by
  unfold updThr
  repeat' (first | with_reducible rfl | with_reducible refine (mems_updGrain ..).trans ?_ | split)

@[simp] theorem mems_updOut (g ser : Nat) (f : OutD → OutD) (s : State) :
    (updOut g ser f s).mems = s.mems := by
  unfold updOut
  repeat' (first | with_reducible rfl | with_reducible refine (mems_updGrain ..).trans ?_ | split)

@[simp] theorem mems_updObj (h : W32) (f : Obj → Obj) (s : State) :
    (updObj h f s).mems = s.mems := by
  unfold updObj
  with_reducible rfl

@[simp] theorem mems_updSieve (i : Nat) (f : Sieve → Sieve) (s : State) :
    (updSieve i f s).mems = s.mems := by
  unfold updSieve
  with_reducible rfl

@[simp] theorem mems_reportDegraded (s : State) :
    (reportDegraded s).mems = s.mems := by
  unfold reportDegraded
  with_reducible rfl

@[simp] theorem mems_signal (fn v : Nat) (s : State) :
    (signal fn v s).mems = s.mems := by
  unfold signal
  repeat' (first
    | with_reducible rfl
    | with_reducible assumption
    | (extract_lets +onlyGivenNames x; first
      | (have hx : State.mems x = s.mems := ?_; clear_value x; rename' x => y; on_goal 2 => (dsimp -zeta only [x] <;> clear x))
      | (clear_value x; rename' x => y)
      | (rename' x => y))
    | with_reducible refine (mems_updFn ..).trans ?_
    | with_reducible refine (mems_emit ..).trans ?_
    | split
    | dsimp -zeta only
    | simp -zeta only [*])

@[simp] theorem mems_flushPba (fn : Nat) (s : State) :
    (flushPba fn s).mems = s.mems := by
  unfold flushPba
  repeat' (first
    | with_reducible rfl
    | with_reducible refine (mems_signal ..).trans ?_
    | with_reducible refine (mems_updFn ..).trans ?_
    | with_reducible refine (mems_foldl _ ?_ _ _).trans ?_
    | with_reducible refine (mems_fold2 _ ?_ _ _).trans ?_
    | (intro s _ _)
    | (intro s _)
    | split
    | dsimp -zeta only)

@[simp] theorem mems_updRing (h : Nat) (f : ErrRing → ErrRing) (s : State) :
    (updRing h f s).mems = s.mems := by
  unfold updRing
  split <;> with_reducible rfl

@[simp] theorem mems_fatalPut (b : List Byte) (s : State) :
    (fatalPut b s).mems = s.mems := by
  unfold fatalPut
  repeat' (first
    | with_reducible rfl
    | with_reducible assumption
    | (extract_lets +onlyGivenNames x; first
      | (have hx : State.mems x = s.mems := ?_; clear_value x; rename' x => y; on_goal 2 => (dsimp -zeta only [x] <;> clear x))
      | (clear_value x; rename' x => y)
      | (rename' x => y))
    | split
    | dsimp -zeta only
    | simp -zeta only [*])

@[simp] theorem mems_postRec (cls sev : Nat) (ctx : Option Nat) (die unit : Nat) (detail : List (Nat × Nat × Nat)) (s : State) :
    (postRec cls sev ctx die unit detail s).mems = s.mems := by
  unfold postRec
  repeat' (first
    | with_reducible rfl
    | with_reducible assumption
    | (extract_lets +onlyGivenNames x; first
      | (have hx : State.mems x = s.mems := ?_; clear_value x; rename' x => y; on_goal 2 => (dsimp -zeta only [x] <;> clear x))
      | (clear_value x; rename' x => y)
      | (rename' x => y))
    | with_reducible refine (mems_fatalPut ..).trans ?_
    | with_reducible refine (mems_signal ..).trans ?_
    | with_reducible refine (mems_updRing ..).trans ?_
    | split
    | dsimp -zeta only
    | simp -zeta only [*])

@[simp] theorem mems_configWarn (kind idx reason val : Nat) (s : State) :
    (configWarn kind idx reason val s).mems = s.mems := by
  unfold configWarn
  repeat' (first | with_reducible rfl | with_reducible refine (mems_postRec ..).trans ?_ | split)

@[simp] theorem mems_noteRwp (changed : Bool) (s : State) :
    (noteRwp changed s).mems = s.mems := by
  unfold noteRwp
  split <;> with_reducible rfl

@[simp] theorem mems_dropHeld (rq : Requester) (s : State) :
    (dropHeld rq s).mems = s.mems := by
  unfold dropHeld
  with_reducible rfl

theorem mems_onBar (rq : Requester) (f : State → State) (h : ∀ s, (f s).mems = s.mems) (s : State) :
    (onBar rq f s).mems = s.mems := by
  unfold onBar; split
  · rfl
  · exact (h _).trans (mems_dropHeld ..)

@[simp] theorem mems_finish (cid : Nat) (st : W16) (res : List Byte) (s : State) :
    (finish cid st res s).mems = s.mems := by
  unfold finish
  repeat' (first | with_reducible rfl | with_reducible refine (mems_updCmd ..).trans ?_ | split)

@[simp] theorem mems_finish0 (cid : Nat) (st : W16) (s : State) :
    (finish0 cid st s).mems = s.mems := by
  unfold finish0
  repeat' (first | with_reducible rfl | with_reducible refine (mems_finish ..).trans ?_ | split)

@[simp] theorem mems_defer (cid : Nat) (res : List Byte) (s : State) :
    (defer cid res s).mems = s.mems := by
  unfold defer
  repeat' (first | with_reducible rfl | with_reducible refine (mems_updCmd ..).trans ?_ | split)

@[simp] theorem mems_startCmd (cid : Nat) (s : State) :
    (startCmd cid s).mems = s.mems := by
  unfold startCmd
  repeat' (first | with_reducible rfl | with_reducible refine (mems_updCmd ..).trans ?_ | split)

@[simp] theorem mems_clearPoison (locs : List Loc) (s : State) :
    (clearPoison locs s).mems = s.mems := by
  unfold clearPoison
  repeat' (first
    | with_reducible rfl
    | with_reducible refine (mems_updHz _ _ (by rfl)).trans ?_
    | (intro s _ _)
    | (intro s _)
    | (intro s)
    | split
    | dsimp -zeta only)

@[simp] theorem mems_noteWrite (h : W32) (j : Nat) (s : State) :
    (noteWrite h j s).mems = s.mems := by
  unfold noteWrite
  repeat' (first | with_reducible rfl | with_reducible refine (mems_updObj ..).trans ?_ | split)

@[simp] theorem mems_putCrcs (d : Nat) (lbas : List Nat) (s : State) :
    (putCrcs d lbas s).mems = s.mems := by
  unfold putCrcs
  repeat' (first
    | with_reducible rfl
    | with_reducible refine (mems_updHz _ _ (by rfl)).trans ?_
    | with_reducible refine (mems_foldl _ ?_ _ _).trans ?_
    | with_reducible refine (mems_fold2 _ ?_ _ _).trans ?_
    | (intro s _ _)
    | (intro s _)
    | split
    | dsimp -zeta only)

@[simp] theorem mems_hz4Failure (o : Obj) (off cause : Nat) (s : State) :
    (hz4Failure o off cause s).mems = s.mems := by
  unfold hz4Failure
  repeat' (first
    | with_reducible rfl
    | with_reducible refine (mems_updHz _ _ (by rfl)).trans ?_
    | with_reducible refine (mems_postRec ..).trans ?_
    | (intro s _ _)
    | (intro s _)
    | (intro s)
    | split
    | dsimp -zeta only)

@[simp] theorem mems_objSetPoison (h : W32) (offs : List Nat) (s : State) :
    (objSetPoison h offs s).mems = s.mems := by
  unfold objSetPoison
  repeat' (first
    | with_reducible rfl
    | with_reducible refine (mems_updHz _ _ (by rfl)).trans ?_
    | with_reducible refine (mems_foldl _ ?_ _ _).trans ?_
    | with_reducible refine (mems_fold2 _ ?_ _ _).trans ?_
    | (intro s _ _)
    | (intro s _)
    | split
    | dsimp -zeta only)

@[simp] theorem mems_allocFrame (hzn : Nat) (s : State) :
    (allocFrame hzn s).2.mems = s.mems := by
  unfold allocFrame
  repeat' (first
    | with_reducible rfl
    | with_reducible refine (mems_freeBelow ..).trans ?_
    | with_reducible refine (mems_updHz _ _ (by rfl)).trans ?_
    | (intro s _ _)
    | (intro s _)
    | (intro s)
    | split
    | dsimp -zeta only)

@[simp] theorem mems_allocFrames (n : Nat) (l : List Nat) (s : State) : (allocFrames n l s).2.mems = s.mems := by
  induction n generalizing l s with
  | zero => rfl
  | succ n ih => simp [-Prod.mk.injEq, allocFrames, ih]

theorem mems_allocDrive {d : Nat} {s : State} {r : Nat × State} (h : allocDrive d s = some r) : r.2.mems = s.mems := by
  unfold allocDrive at h; dsimp only at h; split at h
  · cases h
  · cases h; exact (mems_updHz _ _ rfl).trans (mems_freeBelow ..)

@[simp] theorem mems_nvmePut (d op : Nat) (lbas reqs : List Nat) (s : State) :
    (nvmePut d op lbas reqs s).mems = s.mems := by
  unfold nvmePut
  repeat' (first
    | with_reducible rfl
    | with_reducible refine (mems_updHz _ _ (by rfl)).trans ?_
    | (intro s _ _)
    | (intro s _)
    | (intro s)
    | split
    | dsimp -zeta only)

@[simp] theorem mems_semGrant (ctx : Nat) (ped : W32) (i : Nat) (l : List SemWaiter) (s : State) :
    (semGrant ctx ped i l s).mems = s.mems := by
  induction l generalizing s with
  | nil => rfl
  | cons w l ih => unfold semGrant; repeat' (first | rfl | split | simp [-Prod.mk.injEq, ih])

@[simp] theorem mems_bumpT (g : Nat) (t : Option Nat) (e ev n : Nat) (s : State) :
    (bumpT g t e ev n s).mems = s.mems := by
  unfold bumpT
  repeat' (first
    | with_reducible rfl
    | with_reducible assumption
    | (extract_lets +onlyGivenNames x; first
      | (have hx : State.mems x = s.mems := ?_; clear_value x; rename' x => y; on_goal 2 => (dsimp -zeta only [x] <;> clear x))
      | (clear_value x; rename' x => y)
      | (rename' x => y))
    | with_reducible refine (mems_updPed2 ..).trans ?_
    | split
    | dsimp -zeta only
    | simp -zeta only [*])

@[simp] theorem mems_bump (g ev n : Nat) (s : State) :
    (bump g ev n s).mems = s.mems := by
  unfold bump
  repeat' (first | with_reducible rfl | with_reducible refine (mems_bumpT ..).trans ?_ | split)

@[simp] theorem mems_semAdd (ctx : Nat) (ped : W32) (i n g : Nat) (s : State) :
    (semAdd ctx ped i n g s).mems = s.mems := by
  unfold semAdd
  repeat' (first
    | with_reducible rfl
    | with_reducible refine (mems_bump ..).trans ?_
    | with_reducible refine (mems_updCtx ..).trans ?_
    | with_reducible refine (mems_semGrant ..).trans ?_
    | split
    | dsimp -zeta only)

/-! ## Numerics -/


/-! ## Operands -/

@[simp] theorem mems_queueLanes (q : Nat) (e : PendW) (s : State) :
    (queueLanes q e s).mems = s.mems := by
  unfold queueLanes
  repeat' (first
    | with_reducible rfl
    | with_reducible refine (mems_updPhys _ _ _ (by intro _; rfl)).trans ?_
    | (intro s _ _)
    | (intro s _)
    | (intro s)
    | split
    | dsimp -zeta only)

@[simp] theorem mems_writeBack (g ser : Nat) (p : Place) (l : CacheLine) (s : State) :
    (writeBack g ser p l s).mems = s.mems := by
  unfold writeBack
  repeat' (first | with_reducible rfl | with_reducible refine (mems_queueLanes ..).trans ?_ | split)

@[simp] theorem mems_fillLine (g : Nat) (p : Place) (va : Nat) (data : List Byte) (bad : Bool) (s : State) :
    (fillLine g p va data bad s).mems = s.mems := by
  unfold fillLine
  repeat' (first
    | with_reducible rfl
    | with_reducible assumption
    | (extract_lets +onlyGivenNames x; first
      | (have hx : State.mems x = s.mems := ?_; clear_value x; rename' x => y; on_goal 2 => (dsimp -zeta only [x] <;> clear x))
      | (clear_value x; rename' x => y)
      | (rename' x => y))
    | with_reducible refine (mems_writeBack ..).trans ?_
    | with_reducible refine (mems_bump ..).trans ?_
    | with_reducible refine (mems_updPhys _ _ _ (by intro _; rfl)).trans ?_
    | with_reducible refine (mems_foldl _ ?_ _ _).trans ?_
    | with_reducible refine (mems_fold2 _ ?_ _ _).trans ?_
    | (intro s _ _)
    | (intro s _)
    | split
    | dsimp -zeta only
    | simp -zeta only [*])

@[simp] theorem mems_cacheFill (g : Nat) (p : Place) (va : Nat) (s : State) :
    (cacheFill g p va s).mems = s.mems := by
  unfold cacheFill
  repeat' (first
    | with_reducible rfl
    | with_reducible assumption
    | (extract_lets +onlyGivenNames x; first
      | (have hx : State.mems x = s.mems := ?_; clear_value x; rename' x => y; on_goal 2 => (dsimp -zeta only [x] <;> clear x))
      | (clear_value x; rename' x => y)
      | (rename' x => y))
    | with_reducible refine (mems_fillLine ..).trans ?_
    | split
    | dsimp -zeta only
    | simp -zeta only [*])

@[simp] theorem mems_cacheTouch (p : Place) (va : Nat) (s : State) :
    (cacheTouch p va s).mems = s.mems := by
  unfold cacheTouch
  repeat' (first
    | with_reducible rfl
    | with_reducible refine (mems_updPhys _ _ _ (by intro _; rfl)).trans ?_
    | (intro s _ _)
    | (intro s _)
    | (intro s)
    | split
    | dsimp -zeta only)

@[simp] theorem mems_cacheWrite (g : Nat) (p : Place) (o : Obj) (ws : List BitW) (s : State) :
    (cacheWrite g p o ws s).mems = s.mems := by
  unfold cacheWrite
  repeat' (first
    | with_reducible rfl
    | with_reducible refine (mems_updPhys _ _ _ (by intro _; rfl)).trans ?_
    | with_reducible refine (mems_cacheFill ..).trans ?_
    | with_reducible refine (mems_foldl _ ?_ _ _).trans ?_
    | with_reducible refine (mems_fold2 _ ?_ _ _).trans ?_
    | (intro s _ _)
    | (intro s _)
    | split
    | dsimp -zeta only)

@[simp] theorem mems_flushLines (g ser : Nat) (p : Place) (s : State) :
    (flushLines g ser p s).mems = s.mems := by
  unfold flushLines
  repeat' (first
    | with_reducible rfl
    | with_reducible refine (mems_writeBack ..).trans ?_
    | with_reducible refine (mems_bump ..).trans ?_
    | with_reducible refine (mems_updPhys _ _ _ (by intro _; rfl)).trans ?_
    | with_reducible refine (mems_foldl _ ?_ _ _).trans ?_
    | with_reducible refine (mems_fold2 _ ?_ _ _).trans ?_
    | (intro s _ _)
    | (intro s _)
    | split
    | dsimp -zeta only)

@[simp] theorem mems_noteBytes (ctx g vi : Nat) (bytes : List (Nat × Byte)) (s : State) :
    (noteBytes ctx g vi bytes s).mems = s.mems := by
  unfold noteBytes
  repeat' (first
    | with_reducible rfl
    | with_reducible assumption
    | (extract_lets +onlyGivenNames x; first
      | (have hx : State.mems x = s.mems := ?_; clear_value x; rename' x => y; on_goal 2 => (dsimp -zeta only [x] <;> clear x))
      | (clear_value x; rename' x => y)
      | (rename' x => y))
    | with_reducible refine (mems_updSeg ..).trans ?_
    | with_reducible refine (mems_foldl _ ?_ _ _).trans ?_
    | with_reducible refine (mems_fold2 _ ?_ _ _).trans ?_
    | (intro s _ _)
    | (intro s _)
    | split
    | dsimp -zeta only
    | simp -zeta only [*])

@[simp] theorem mems_noteChk (g vi : Nat) (p : Place) (v : View) (ws : List BitW) (s : State) :
    (noteChk g vi p v ws s).mems = s.mems := by
  unfold noteChk
  repeat' (first
    | with_reducible rfl
    | with_reducible assumption
    | (extract_lets +onlyGivenNames x; first
      | (have hx : State.mems x = s.mems := ?_; clear_value x; rename' x => y; on_goal 2 => (dsimp -zeta only [x] <;> clear x))
      | (clear_value x; rename' x => y)
      | (rename' x => y))
    | with_reducible refine (mems_noteBytes ..).trans ?_
    | split
    | dsimp -zeta only
    | simp -zeta only [*])

@[simp] theorem mems_noteObj (ctx g vi : Nat) (h : W32) (ws : List BitW) (s : State) :
    (noteObj ctx g vi h ws s).mems = s.mems := by
  unfold noteObj
  repeat' (first | with_reducible rfl | with_reducible refine (mems_noteBytes ..).trans ?_ | split)

/-! ## Flags -/

@[simp] theorem mems_noteStk (ctx : Nat) (k : Counts) (s : State) :
    (noteStk ctx k s).mems = s.mems := by
  unfold noteStk
  repeat' (first | with_reducible rfl | with_reducible refine (mems_updCtx ..).trans ?_ | split)

/-! ## Issue -/

@[simp] theorem mems_segStatus (ctx : Nat) (st : W16) (s : State) :
    (segStatus ctx st s).mems = s.mems := by
  unfold segStatus
  repeat' (first | with_reducible rfl | with_reducible refine (mems_updSeg ..).trans ?_ | split)

@[simp] theorem mems_dropClods (ctx : Nat) (s : State) :
    (dropClods ctx s).mems = s.mems := by
  unfold dropClods
  repeat' (first
    | with_reducible rfl
    | with_reducible refine (mems_emit ..).trans ?_
    | with_reducible refine (mems_foldl _ ?_ _ _).trans ?_
    | with_reducible refine (mems_fold2 _ ?_ _ _).trans ?_
    | (intro s _ _)
    | (intro s _)
    | split
    | dsimp -zeta only)

@[simp] theorem mems_abortClods (g : Nat) (cause : W16) (a : W64) (s : State) :
    (abortClods g cause a s).mems = s.mems := by
  unfold abortClods
  repeat' (first
    | with_reducible rfl
    | with_reducible refine (mems_postRec ..).trans ?_
    | with_reducible refine (mems_foldl _ ?_ _ _).trans ?_
    | with_reducible refine (mems_fold2 _ ?_ _ _).trans ?_
    | (intro s _ _)
    | (intro s _)
    | split
    | dsimp -zeta only)

@[simp] theorem mems_stopSeg (ctx : Nat) (why : StopCause) (st : W16) (s : State) :
    (stopSeg ctx why st s).mems = s.mems := by
  unfold stopSeg
  repeat' (first
    | with_reducible rfl
    | with_reducible refine (mems_updSeg ..).trans ?_
    | with_reducible refine (mems_dropClods ..).trans ?_
    | with_reducible refine (mems_flushLines ..).trans ?_
    | with_reducible refine (mems_foldl _ ?_ _ _).trans ?_
    | with_reducible refine (mems_fold2 _ ?_ _ _).trans ?_
    | (intro s _ _)
    | (intro s _)
    | split
    | dsimp -zeta only)

@[simp] theorem mems_updRun (ctx cid : Nat) (f : SegRun → SegRun) (s : State) :
    (updRun ctx cid f s).mems = s.mems := by
  unfold updRun
  repeat' (first | with_reducible rfl | with_reducible refine (mems_updCtx ..).trans ?_ | split)

@[simp] theorem mems_faultAt (g t code : Nat) (a : W64) (s : State) :
    (faultAt g t code a s).mems = s.mems := by
  unfold faultAt
  repeat' (first
    | with_reducible rfl
    | with_reducible refine (mems_updThr ..).trans ?_
    | with_reducible refine (mems_postRec ..).trans ?_
    | with_reducible refine (mems_updRun ..).trans ?_
    | with_reducible refine (mems_stopSeg ..).trans ?_
    | with_reducible refine (mems_descFault ..).trans ?_
    | with_reducible refine (mems_abortClods ..).trans ?_
    | split
    | dsimp -zeta only)

@[simp] theorem mems_descFault (g t code : Nat) (s : State) :
    (descFault g t code s).mems = s.mems := by
  unfold descFault
  repeat' (first
    | with_reducible rfl
    | with_reducible refine (mems_faultAt ..).trans ?_
    | split
    | dsimp -zeta only)

@[simp] theorem mems_consumePoison (ctx g horizon consumer : Nat) (h : W32) (addr : Nat) (daddr : W64) (s : State) :
    (consumePoison ctx g horizon consumer h addr daddr s).mems = s.mems := by
  unfold consumePoison
  repeat' (first | with_reducible rfl | with_reducible refine (mems_postRec ..).trans ?_ | with_reducible refine (mems_segStatus ..).trans ?_ | split)

@[simp] theorem mems_reqStarts (q : Req) (s : State) :
    (reqStarts q s).mems = s.mems := by
  unfold reqStarts
  repeat' (first | with_reducible rfl | with_reducible refine (mems_nvmePut ..).trans ?_ | split)

@[simp] theorem mems_enterReq (q : Req) (s : State) :
    (enterReq q s).mems = s.mems := by
  unfold enterReq
  repeat' (first
    | with_reducible rfl
    | with_reducible assumption
    | (extract_lets +onlyGivenNames x; first
      | (have hx : State.mems x = s.mems := ?_; clear_value x; rename' x => y; on_goal 2 => (dsimp -zeta only [x] <;> clear x))
      | (clear_value x; rename' x => y)
      | (rename' x => y))
    | with_reducible refine (mems_updHz _ _ (by rfl)).trans ?_
    | with_reducible refine (mems_reqStarts ..).trans ?_
    | (intro s _ _)
    | (intro s _)
    | (intro s)
    | split
    | dsimp -zeta only
    | simp -zeta only [*])

@[simp] theorem mems_grantReq (q : Req) (s : State) :
    (grantReq q s).mems = s.mems := by
  unfold grantReq
  repeat' (first
    | with_reducible rfl
    | with_reducible refine (mems_reqStarts ..).trans ?_
    | with_reducible refine (mems_updHz _ _ (by rfl)).trans ?_
    | (intro s _ _)
    | (intro s _)
    | (intro s)
    | split
    | dsimp -zeta only)

@[simp] theorem mems_xlatObj (die : Nat) (h : W32) (s : State) :
    (xlatObj die h s).mems = s.mems := by
  unfold xlatObj
  repeat' (first
    | with_reducible rfl
    | with_reducible refine (mems_updHz _ _ (by rfl)).trans ?_
    | (intro s _ _)
    | (intro s _)
    | (intro s)
    | split
    | dsimp -zeta only)

@[simp] theorem mems_xlatGran (die : Nat) (h : W32) (j : Nat) (s : State) :
    (xlatGran die h j s).mems = s.mems := by
  unfold xlatGran
  repeat' (first
    | with_reducible rfl
    | with_reducible refine (mems_updHz _ _ (by rfl)).trans ?_
    | (intro s _ _)
    | (intro s _)
    | (intro s)
    | split
    | dsimp -zeta only)

@[simp] theorem mems_translate (die : Nat) (o : Obj) (j : Nat) (s : State) :
    (translate die o j s).mems = s.mems := by
  unfold translate
  repeat' (first
    | with_reducible rfl
    | with_reducible assumption
    | (extract_lets +onlyGivenNames x; first
      | (have hx : State.mems x = s.mems := ?_; clear_value x; rename' x => y; on_goal 2 => (dsimp -zeta only [x] <;> clear x))
      | (clear_value x; rename' x => y)
      | (rename' x => y))
    | with_reducible refine (mems_xlatObj ..).trans ?_
    | with_reducible refine (mems_xlatGran ..).trans ?_
    | with_reducible refine (mems_enterReq ..).trans ?_
    | split
    | dsimp -zeta only
    | simp -zeta only [*])

@[simp] theorem mems_addReqAt (die ctx g ser : Nat) (o : Obj) (off : Nat) (offs : List Nat) (kind : ReqKind) (clod : Option Nat) (part : Nat) (s : State) :
    (addReqAt die ctx g ser o off offs kind clod part s).mems = s.mems := by
  unfold addReqAt
  repeat' (first | with_reducible rfl | with_reducible refine (mems_translate ..).trans ?_ | with_reducible refine (mems_enterReq ..).trans ?_ | split)

@[simp] theorem mems_addReq (ctx g ser : Nat) (o : Obj) (off : Nat) (kind : ReqKind) (s : State) :
    (addReq ctx g ser o off kind s).mems = s.mems := by
  unfold addReq
  repeat' (first
    | with_reducible rfl
    | with_reducible refine (mems_bump ..).trans ?_
    | with_reducible refine (mems_addReqAt ..).trans ?_
    | split
    | dsimp -zeta only)

@[simp] theorem mems_entryServed (q : Req) (j : Nat) (s : State) :
    (entryServed q j s).mems = s.mems := by
  unfold entryServed
  repeat' (first
    | with_reducible rfl
    | with_reducible assumption
    | (extract_lets +onlyGivenNames x; first
      | (have hx : State.mems x = s.mems := ?_; clear_value x; rename' x => y; on_goal 2 => (dsimp -zeta only [x] <;> clear x))
      | (clear_value x; rename' x => y)
      | (rename' x => y))
    | with_reducible refine (mems_xlatGran ..).trans ?_
    | with_reducible refine (mems_updHz _ _ (by rfl)).trans ?_
    | with_reducible refine (mems_grantReq ..).trans ?_
    | with_reducible refine (mems_foldl _ ?_ _ _).trans ?_
    | with_reducible refine (mems_fold2 _ ?_ _ _).trans ?_
    | (intro s _ _)
    | (intro s _)
    | split
    | dsimp -zeta only
    | simp -zeta only [*])

@[simp] theorem mems_requestBurst (g t b : Nat) (s : State) :
    (requestBurst g t b s).mems = s.mems := by
  unfold requestBurst
  repeat' (first
    | with_reducible rfl
    | with_reducible assumption
    | (extract_lets +onlyGivenNames x; first
      | (have hx : State.mems x = s.mems := ?_; clear_value x; rename' x => y; on_goal 2 => (dsimp -zeta only [x] <;> clear x))
      | (clear_value x; rename' x => y)
      | (rename' x => y))
    | with_reducible refine (mems_updThr ..).trans ?_
    | with_reducible refine (mems_queueLanes ..).trans ?_
    | with_reducible refine (mems_addReq ..).trans ?_
    | split
    | dsimp -zeta only
    | simp -zeta only [*])

@[simp] theorem mems_moveTo (g t pos : Nat) (s : State) :
    (moveTo g t pos s).mems = s.mems := by
  unfold moveTo
  repeat' (first | with_reducible rfl | with_reducible refine (mems_updThr ..).trans ?_ | split)

@[simp] theorem mems_jumpTo (g t pos : Nat) (s : State) :
    (jumpTo g t pos s).mems = s.mems := by
  unfold jumpTo
  repeat' (first | with_reducible rfl | with_reducible refine (mems_requestBurst ..).trans ?_ | with_reducible refine (mems_moveTo ..).trans ?_ | split)

@[simp] theorem mems_issueDesc (i : Iss) (s : State) :
    (issueDesc i s).mems = s.mems := by
  unfold issueDesc
  repeat' (first
    | with_reducible rfl
    | with_reducible assumption
    | (extract_lets +onlyGivenNames x; first
      | (have hx : State.mems x = s.mems := ?_; clear_value x; rename' x => y; on_goal 2 => (dsimp -zeta only [x] <;> clear x))
      | (clear_value x; rename' x => y)
      | (rename' x => y))
    | with_reducible refine (mems_updGrain ..).trans ?_
    | with_reducible refine (mems_updThr ..).trans ?_
    | with_reducible refine (mems_moveTo ..).trans ?_
    | with_reducible refine (mems_requestBurst ..).trans ?_
    | with_reducible refine (mems_bump ..).trans ?_
    | with_reducible refine (mems_bumpT ..).trans ?_
    | with_reducible refine (mems_foldl _ ?_ _ _).trans ?_
    | with_reducible refine (mems_fold2 _ ?_ _ _).trans ?_
    | (intro s _ _)
    | (intro s _)
    | split
    | dsimp -zeta only
    | simp -zeta only [*])

@[simp] theorem mems_setWait (g t : Nat) (w : TSt × Nat) (s : State) :
    (setWait g t w s).mems = s.mems := by
  unfold setWait
  repeat' (first | with_reducible rfl | with_reducible refine (mems_updThr ..).trans ?_ | split)

@[simp] theorem mems_settle (g : Nat) (s : State) :
    (settle g s).mems = s.mems := by
  unfold settle
  repeat' (first | with_reducible rfl | with_reducible refine (mems_updGrain ..).trans ?_ | split)

@[simp] theorem mems_skipDesc (g t : Nat) (s : State) :
    (skipDesc g t s).mems = s.mems := by
  unfold skipDesc
  repeat' (first
    | with_reducible rfl
    | with_reducible refine (mems_updThr ..).trans ?_
    | with_reducible refine (mems_moveTo ..).trans ?_
    | with_reducible refine (mems_requestBurst ..).trans ?_
    | split
    | dsimp -zeta only)

@[simp] theorem mems_issueRow (pick : List Byte → Bool) (faults : State → Iss → List (Bool × Nat)) (act : Iss → State → State)
    (hact : ∀ i s, (act i s).mems = s.mems) (g t : Nat) (s : State) : (issueRow pick faults act g t s).mems = s.mems := by
  unfold issueRow; (try dsimp only); repeat' (first | with_reducible rfl | split | simp [-Prod.mk.injEq, hact])

@[simp] theorem mems_releaseSig (g : Nat) (o : OutD) (ctx : Nat) (home : W32) (clod : Option Nat) (s : State) :
    (releaseSig g o ctx home clod s).mems = s.mems := by
  unfold releaseSig
  repeat' (first | with_reducible rfl | with_reducible refine (mems_semAdd ..).trans ?_ | split)

@[simp] theorem mems_retireOut (g : Nat) (o : OutD) (s : State) :
    (retireOut g o s).mems = s.mems := by
  unfold retireOut
  repeat' (first
    | with_reducible rfl
    | with_reducible refine (mems_updGrain ..).trans ?_
    | with_reducible refine (mems_updPhys _ _ _ (by intro _; rfl)).trans ?_
    | with_reducible refine (mems_updThr ..).trans ?_
    | (intro s _ _)
    | (intro s _)
    | (intro s)
    | split
    | dsimp -zeta only)

@[simp] theorem mems_holdWrites (i : Iss) (v : View) (ws : List BitW) (s : State) :
    (holdWrites i v ws s).mems = s.mems := by
  unfold holdWrites
  repeat' (first
    | with_reducible rfl
    | with_reducible refine (mems_queueLanes ..).trans ?_
    | split
    | dsimp -zeta only)

@[simp] theorem mems_dropWrites (q : Nat) (sers : List Nat) (s : State) :
    (dropWrites q sers s).mems = s.mems := by
  unfold dropWrites
  repeat' (first
    | with_reducible rfl
    | with_reducible refine (mems_updPhys _ _ _ (by intro _; rfl)).trans ?_
    | (intro s _ _)
    | (intro s _)
    | (intro s)
    | split
    | dsimp -zeta only)

@[simp] theorem mems_flushDone (g : Nat) (s : State) :
    (flushDone g s).mems = s.mems := by
  unfold flushDone
  repeat' (first | with_reducible rfl | with_reducible refine (mems_flushLines ..).trans ?_ | split)

@[simp] theorem mems_workDone (g ser : Nat) (s : State) :
    (workDone g ser s).mems = s.mems := by
  unfold workDone
  repeat' (first | with_reducible rfl | with_reducible refine (mems_updOut ..).trans ?_ | split)

@[simp] theorem mems_setWaitFor (i : Iss) (w : OWait) (s : State) :
    (setWaitFor i w s).mems = s.mems := by
  unfold setWaitFor
  repeat' (first | with_reducible rfl | with_reducible refine (mems_updOut ..).trans ?_ | split)

@[simp] theorem mems_setCounts (i : Iss) (c : Counts) (sts : List StatFig) (s : State) :
    (setCounts i c sts s).mems = s.mems := by
  unfold setCounts
  repeat' (first | with_reducible rfl | with_reducible refine (mems_updOut ..).trans ?_ | split)

@[simp] theorem mems_consumeView (i : Iss) (byteAt : Nat → Byte × Bool) (v : View) (s : State) :
    (consumeView i byteAt v s).mems = s.mems := by
  unfold consumeView
  repeat' (first | with_reducible rfl | with_reducible refine (mems_consumePoison ..).trans ?_ | split)

/-! ## Gate -/

@[simp] theorem mems_gatePed1 (p i : Nat) (s : State) :
    (gatePed1 p i s).mems = s.mems := by
  unfold gatePed1
  repeat' (first
    | with_reducible rfl
    | with_reducible assumption
    | (extract_lets +onlyGivenNames x; first
      | (have hx : State.mems x = s.mems := ?_; clear_value x; rename' x => y; on_goal 2 => (dsimp -zeta only [x] <;> clear x))
      | (clear_value x; rename' x => y)
      | (rename' x => y))
    | with_reducible refine (mems_updGrain ..).trans ?_
    | with_reducible refine (mems_updPed2 ..).trans ?_
    | with_reducible refine (mems_foldl _ ?_ _ _).trans ?_
    | with_reducible refine (mems_fold2 _ ?_ _ _).trans ?_
    | (intro s _ _)
    | (intro s _)
    | split
    | dsimp -zeta only
    | simp -zeta only [*])

@[simp] theorem mems_gateAt (g : Nat) (s : State) :
    (gateAt g s).mems = s.mems := by
  unfold gateAt
  repeat' (first | with_reducible rfl | with_reducible refine (mems_gatePed1 ..).trans ?_ | split)

@[simp] theorem mems_wakePed1 (p i : Nat) (s : State) :
    (wakePed1 p i s).mems = s.mems := by
  unfold wakePed1
  repeat' (first | with_reducible rfl | with_reducible refine (mems_updPed2 ..).trans ?_ | split)

@[simp] theorem mems_doPed1Prewake (ped1 : Nat) (s : State) :
    (doPed1Prewake ped1 s).mems = s.mems := by
  unfold doPed1Prewake
  repeat' (first
    | with_reducible rfl
    | with_reducible assumption
    | (extract_lets +onlyGivenNames x; first
      | (have hx : State.mems x = s.mems := ?_; clear_value x; rename' x => y; on_goal 2 => (dsimp -zeta only [x] <;> clear x))
      | (clear_value x; rename' x => y)
      | (rename' x => y))
    | with_reducible refine (mems_updPed2 ..).trans ?_
    | with_reducible refine (mems_wakePed1 ..).trans ?_
    | split
    | dsimp -zeta only
    | simp -zeta only [*])

@[simp] theorem mems_endWake (p i : Nat) (s : State) :
    (endWake p i s).mems = s.mems := by
  unfold endWake
  repeat' (first
    | with_reducible rfl
    | with_reducible assumption
    | (extract_lets +onlyGivenNames x; first
      | (have hx : State.mems x = s.mems := ?_; clear_value x; rename' x => y; on_goal 2 => (dsimp -zeta only [x] <;> clear x))
      | (clear_value x; rename' x => y)
      | (rename' x => y))
    | with_reducible refine (mems_updPed2 ..).trans ?_
    | with_reducible refine (mems_updGrain ..).trans ?_
    | with_reducible refine (mems_foldl _ ?_ _ _).trans ?_
    | with_reducible refine (mems_fold2 _ ?_ _ _).trans ?_
    | (intro s _ _)
    | (intro s _)
    | split
    | dsimp -zeta only
    | simp -zeta only [*])

@[simp] theorem mems_gateStep (s : State) :
    (gateStep s).mems = s.mems := by
  unfold gateStep
  repeat' (first
    | with_reducible rfl
    | with_reducible refine (mems_endWake ..).trans ?_
    | with_reducible refine (mems_foldl _ ?_ _ _).trans ?_
    | with_reducible refine (mems_fold2 _ ?_ _ _).trans ?_
    | (intro s _ _)
    | (intro s _)
    | split
    | dsimp -zeta only)

/-! ## Retire -/

@[simp] theorem mems_learnFailed (q : Nat) (s : State) :
    (learnFailed q s).mems = s.mems := by
  unfold learnFailed
  with_reducible rfl

@[simp] theorem mems_learnPed2 (p : Nat) (s : State) :
    (learnPed2 p s).mems = s.mems := by
  unfold learnPed2
  with_reducible rfl

@[simp] theorem mems_learnFrame (hzn ch f : Nat) (s : State) :
    (learnFrame hzn ch f s).mems = s.mems := by
  unfold learnFrame
  with_reducible rfl

@[simp] theorem mems_retiredRec (c : SpareCheck) (old : Nat) (new cause : Nat) (s : State) :
    (retiredRec c old new cause s).mems = s.mems := by
  unfold retiredRec
  repeat' (first | with_reducible rfl | with_reducible refine (mems_postRec ..).trans ?_ | split)

@[simp] theorem mems_retirePed2 (p cause : Nat) (bad : List Nat) (s : State) :
    (retirePed2 p cause bad s).mems = s.mems := by
  unfold retirePed2
  repeat' (first
    | with_reducible rfl
    | with_reducible refine (mems_updPed2 ..).trans ?_
    | with_reducible refine (mems_reportDegraded ..).trans ?_
    | with_reducible refine (mems_postRec ..).trans ?_
    | with_reducible refine (mems_learnPed2 ..).trans ?_
    | with_reducible refine (mems_foldl _ ?_ _ _).trans ?_
    | with_reducible refine (mems_fold2 _ ?_ _ _).trans ?_
    | (intro s _ _)
    | (intro s _)
    | split
    | dsimp -zeta only)

@[simp] theorem mems_mapSpare (p : Nat) (c : SpareCheck) (q : Nat) (s : State) :
    (mapSpare p c q s).mems = s.mems := by
  unfold mapSpare
  repeat' (first
    | with_reducible rfl
    | with_reducible refine (mems_learnFailed ..).trans ?_
    | with_reducible refine (mems_retiredRec ..).trans ?_
    | with_reducible refine (mems_foldl _ ?_ _ _).trans ?_
    | with_reducible refine (mems_fold2 _ ?_ _ _).trans ?_
    | (intro s _ _)
    | (intro s _)
    | split
    | dsimp -zeta only)

@[simp] theorem mems_noSpare (p : Nat) (cs : List SpareCheck) (s : State) :
    (noSpare p cs s).mems = s.mems := by
  unfold noSpare
  repeat' (first
    | with_reducible rfl
    | with_reducible refine (mems_learnFailed ..).trans ?_
    | with_reducible refine (mems_retiredRec ..).trans ?_
    | with_reducible refine (mems_retirePed2 ..).trans ?_
    | with_reducible refine (mems_foldl _ ?_ _ _).trans ?_
    | with_reducible refine (mems_fold2 _ ?_ _ _).trans ?_
    | (intro s _ _)
    | (intro s _)
    | split
    | dsimp -zeta only)

@[simp] theorem mems_failOut (p : Nat) (c : SpareCheck) (s : State) :
    (failOut p c s).mems = s.mems := by
  unfold failOut
  repeat' (first | with_reducible rfl | with_reducible refine (mems_retiredRec ..).trans ?_ | with_reducible refine (mems_learnFailed ..).trans ?_ | split)

@[simp] theorem mems_retireGrains (p : Nat) (lgs : List Nat) (cause : Nat) (s : State) :
    (retireGrains p lgs cause s).mems = s.mems := by
  unfold retireGrains
  repeat' (first
    | with_reducible rfl
    | with_reducible assumption
    | (extract_lets +onlyGivenNames x; first
      | (have hx : State.mems x = s.mems := ?_; clear_value x; rename' x => y; on_goal 2 => (dsimp -zeta only [x] <;> clear x))
      | (clear_value x; rename' x => y)
      | (rename' x => y))
    | with_reducible refine (mems_failOut ..).trans ?_
    | with_reducible refine (mems_updPed2 ..).trans ?_
    | with_reducible refine (mems_noSpare ..).trans ?_
    | with_reducible refine (mems_foldl _ ?_ _ _).trans ?_
    | with_reducible refine (mems_fold2 _ ?_ _ _).trans ?_
    | (intro s _ _)
    | (intro s _)
    | split
    | dsimp -zeta only
    | simp -zeta only [*])

@[simp] theorem mems_retireGrain (lg cause : Nat) (s : State) :
    (retireGrain lg cause s).mems = s.mems := by
  unfold retireGrain
  repeat' (first
    | with_reducible rfl
    | with_reducible assumption
    | (extract_lets +onlyGivenNames x; first
      | (have hx : State.mems x = s.mems := ?_; clear_value x; rename' x => y; on_goal 2 => (dsimp -zeta only [x] <;> clear x))
      | (clear_value x; rename' x => y)
      | (rename' x => y))
    | with_reducible refine (mems_retireGrains ..).trans ?_
    | split
    | dsimp -zeta only
    | simp -zeta only [*])

@[simp] theorem mems_takeStrike (g : Nat) (s : State) :
    (takeStrike g s).mems = s.mems := by
  unfold takeStrike
  repeat' (first
    | with_reducible rfl
    | with_reducible assumption
    | (extract_lets +onlyGivenNames x; first
      | (have hx : State.mems x = s.mems := ?_; clear_value x; rename' x => y; on_goal 2 => (dsimp -zeta only [x] <;> clear x))
      | (clear_value x; rename' x => y)
      | (rename' x => y))
    | with_reducible refine (mems_updPhys _ _ _ (by intro _; rfl)).trans ?_
    | with_reducible refine (mems_retireGrain ..).trans ?_
    | with_reducible refine (mems_updCtx ..).trans ?_
    | with_reducible refine (mems_stopSeg ..).trans ?_
    | with_reducible refine (mems_abortClods ..).trans ?_
    | (intro s _ _)
    | (intro s _)
    | (intro s)
    | split
    | dsimp -zeta only
    | simp -zeta only [*])

@[simp] theorem mems_doSpareCheckDone (p : Nat) (ok : Bool) (s : State) :
    (doSpareCheckDone p ok s).mems = s.mems := by
  unfold doSpareCheckDone
  repeat' (first
    | with_reducible rfl
    | with_reducible assumption
    | (extract_lets +onlyGivenNames x; first
      | (have hx : State.mems x = s.mems := ?_; clear_value x; rename' x => y; on_goal 2 => (dsimp -zeta only [x] <;> clear x))
      | (clear_value x; rename' x => y)
      | (rename' x => y))
    | with_reducible refine (mems_noSpare ..).trans ?_
    | with_reducible refine (mems_updPed2 ..).trans ?_
    | with_reducible refine (mems_mapSpare ..).trans ?_
    | split
    | dsimp -zeta only
    | simp -zeta only [*])

/-! ## Measure -/

@[simp] theorem mems_writeDir (f : Dir → Dir) (s : State) : (writeDir f s).mems = s.mems := by
  unfold writeDir
  split
  · rfl
  · simp only [State.mems]
    split <;> rfl

@[simp] theorem mems_measure (index event : Nat) (ver : W32) (v : BitVec 256) (s : State) :
    (measure index event ver v s).mems = s.mems := by
  unfold measure
  with_reducible rfl

@[simp] theorem mems_measureState (event : Nat) (s : State) :
    (measureState event s).mems = s.mems := by
  unfold measureState
  repeat' (first | with_reducible rfl | with_reducible refine (mems_measure ..).trans ?_ | split)

@[simp] theorem mems_measureImage (slot event : Nat) (s : State) :
    (measureImage slot event s).mems = s.mems := by
  unfold measureImage
  repeat' (first
    | with_reducible rfl
    | with_reducible refine (mems_measure ..).trans ?_
    | with_reducible refine (mems_foldl _ ?_ _ _).trans ?_
    | with_reducible refine (mems_fold2 _ ?_ _ _).trans ?_
    | (intro s _ _)
    | (intro s _)
    | split
    | dsimp -zeta only)

@[simp] theorem mems_eraseVolatile (s : State) :
    (eraseVolatile s).mems = s.mems := by
  unfold eraseVolatile
  with_reducible rfl

@[simp] theorem mems_fireAlarm (src : List Nat) (s : State) :
    (fireAlarm src s).mems = s.mems := by
  unfold fireAlarm
  repeat' (first
    | with_reducible rfl
    | with_reducible refine (mems_eraseVolatile ..).trans ?_
    | with_reducible refine (mems_measureState ..).trans ?_
    | with_reducible refine (mems_postRec ..).trans ?_
    | with_reducible refine (mems_foldl _ ?_ _ _).trans ?_
    | with_reducible refine (mems_fold2 _ ?_ _ _).trans ?_
    | (intro s _ _)
    | (intro s _)
    | split
    | dsimp -zeta only)

@[simp] theorem mems_doHelperEraseDone (s : State) : (doHelperEraseDone s).mems = s.mems := by
  unfold doHelperEraseDone
  split <;> rfl

end Sys2Proof.Machine
end

