-- ==== Sys2Proof/Laws/BytesGrain.lean ====
section
/-! SUPPORT. What leaves every byte of every memory as it was: the engines, the fabric, synchronisation and objects. -/

namespace Sys2Proof.Machine

open Sys2Proof

set_option maxRecDepth 4096
set_option linter.all false

/-! ## Array -/

@[simp] theorem mems_passPoison (i : Iss) (s0 : State) (vs : List Nat) (bias : Bool) (s : State) :
    (passPoison i s0 vs bias s).mems = s.mems := by
  unfold passPoison
  repeat' (first | with_reducible rfl | with_reducible refine (mems_consumeView ..).trans ?_ | split)

@[simp] theorem mems_passRun (i : Iss) (pp : PassPar) (w : Wts) (vs : List Nat) (s : State) :
    (passRun i pp w vs s).mems = s.mems := by
  unfold passRun
  repeat' (first
    | with_reducible rfl
    | with_reducible assumption
    | (extract_lets +onlyGivenNames x; first
      | (have hx : State.mems x = s.mems := ?_; clear_value x; rename' x => y; on_goal 2 => (dsimp -zeta only [x] <;> clear x))
      | (have hx : State.mems x.2 = s.mems := ?_; clear_value x; rename' x => y; on_goal 2 => (dsimp -zeta only [x] <;> clear x))
      | (have hx : State.mems x.2.2 = s.mems := ?_; clear_value x; rename' x => y; on_goal 2 => (dsimp -zeta only [x] <;> clear x))
      | (clear_value x; rename' x => y)
      | (rename' x => y))
    | with_reducible refine (mems_updGrain ..).trans ?_
    | with_reducible refine (mems_passPoison ..).trans ?_
    | with_reducible refine (mems_holdWrites ..).trans ?_
    | with_reducible refine (mems_setCounts ..).trans ?_
    | with_reducible refine (mems_bump ..).trans ?_
    | with_reducible refine (mems_updOut ..).trans ?_
    | with_reducible refine (mems_freeBelow ..).trans ?_
    | with_reducible refine (mems_setWaitFor ..).trans ?_
    | with_reducible refine (mems_foldl _ ?_ _ _).trans ?_
    | with_reducible refine (mems_fold2 _ ?_ _ _).trans ?_
    | (intro s _ _)
    | (intro s _)
    | split
    | dsimp -zeta only
    | simp -zeta only [*])

@[simp] theorem mems_loadwAct (i : Iss) (s : State) :
    (loadwAct i s).mems = s.mems := by
  unfold loadwAct
  repeat' (first
    | with_reducible rfl
    | with_reducible assumption
    | (extract_lets +onlyGivenNames x; first
      | (have hx : State.mems x = s.mems := ?_; clear_value x; rename' x => y; on_goal 2 => (dsimp -zeta only [x] <;> clear x))
      | (clear_value x; rename' x => y)
      | (rename' x => y))
    | with_reducible refine (mems_updGrain ..).trans ?_
    | with_reducible refine (mems_consumeView ..).trans ?_
    | split
    | dsimp -zeta only
    | simp -zeta only [*])

@[simp] theorem mems_doArrLoadw (g t : Nat) (s : State) :
    (doArrLoadw g t s).mems = s.mems := by
  unfold doArrLoadw
  exact mems_issueRow _ _ _ (fun _ _ => mems_loadwAct ..) _ _ _

@[simp] theorem mems_mvAct (i : Iss) (s : State) :
    (mvAct i s).mems = s.mems := by
  unfold mvAct
  repeat' (first
    | with_reducible rfl
    | with_reducible assumption
    | (extract_lets +onlyGivenNames x; first
      | (have hx : State.mems x = s.mems := ?_; clear_value x; rename' x => y; on_goal 2 => (dsimp -zeta only [x] <;> clear x))
      | (clear_value x; rename' x => y)
      | (rename' x => y))
    | with_reducible refine (mems_consumeView ..).trans ?_
    | with_reducible refine (mems_holdWrites ..).trans ?_
    | with_reducible refine (mems_updOut ..).trans ?_
    | with_reducible refine (mems_setCounts ..).trans ?_
    | with_reducible refine (mems_bump ..).trans ?_
    | with_reducible refine (mems_foldl _ ?_ _ _).trans ?_
    | with_reducible refine (mems_fold2 _ ?_ _ _).trans ?_
    | (intro s _ _)
    | (intro s _)
    | split
    | dsimp -zeta only
    | simp -zeta only [*])

@[simp] theorem mems_doMv (g t : Nat) (s : State) :
    (doMv g t s).mems = s.mems := by
  unfold doMv
  exact mems_issueRow _ _ _ (fun _ _ => mems_mvAct ..) _ _ _

@[simp] theorem mems_ballastAct (i : Iss) (s : State) :
    (ballastAct i s).mems = s.mems := by
  unfold ballastAct
  repeat' (first | with_reducible rfl | with_reducible refine (mems_updGrain ..).trans ?_ | with_reducible refine (mems_setWaitFor ..).trans ?_ | split)

@[simp] theorem mems_doBallast (g t : Nat) (s : State) :
    (doBallast g t s).mems = s.mems := by
  unfold doBallast
  exact mems_issueRow _ _ _ (fun _ _ => mems_ballastAct ..) _ _ _

@[simp] theorem mems_doArrayIdle (g : Nat) (s : State) :
    (doArrayIdle g s).mems = s.mems := by
  unfold doArrayIdle
  repeat' (first
    | with_reducible rfl
    | with_reducible assumption
    | (extract_lets +onlyGivenNames x; first
      | (have hx : State.mems x = s.mems := ?_; clear_value x; rename' x => y; on_goal 2 => (dsimp -zeta only [x] <;> clear x))
      | (clear_value x; rename' x => y)
      | (rename' x => y))
    | with_reducible refine (mems_updGrain ..).trans ?_
    | split
    | dsimp -zeta only
    | simp -zeta only [*])

@[simp] theorem mems_doBallastGapExpire (g : Nat) (s : State) :
    (doBallastGapExpire g s).mems = s.mems := by
  unfold doBallastGapExpire
  repeat' (first | with_reducible rfl | with_reducible refine (mems_updGrain ..).trans ?_ | split)

@[simp] theorem mems_checkRecord (gr : Grain) (g : Nat) (daddr : W64) (chk strikes t idx col : Nat) (s : State) :
    (checkRecord gr g daddr chk strikes t idx col s).mems = s.mems := by
  unfold checkRecord
  repeat' (first | with_reducible rfl | with_reducible refine (mems_postRec ..).trans ?_ | split)

@[simp] theorem mems_replayFrom (g : Nat) (o : OutD) (s : State) :
    (replayFrom g o s).mems = s.mems := by
  unfold replayFrom
  repeat' (first
    | with_reducible rfl
    | with_reducible refine (mems_dropWrites ..).trans ?_
    | with_reducible refine (mems_updGrain ..).trans ?_
    | with_reducible refine (mems_updThr ..).trans ?_
    | with_reducible refine (mems_settle ..).trans ?_
    | with_reducible refine (mems_updPhys _ _ _ (by intro _; rfl)).trans ?_
    | (intro s _ _)
    | (intro s _)
    | (intro s)
    | split
    | dsimp -zeta only)

@[simp] theorem mems_doArrayChecksumFault (g : Nat) (ser : Option Nat) (chk : ArrCheck) (s : State) :
    (doArrayChecksumFault g ser chk s).mems = s.mems := by
  unfold doArrayChecksumFault
  repeat' (first
    | with_reducible rfl
    | with_reducible assumption
    | (extract_lets +onlyGivenNames x; first
      | (have hx : State.mems x = s.mems := ?_; clear_value x; rename' x => y; on_goal 2 => (dsimp -zeta only [x] <;> clear x))
      | (clear_value x; rename' x => y)
      | (rename' x => y))
    | with_reducible refine (mems_takeStrike ..).trans ?_
    | with_reducible refine (mems_checkRecord ..).trans ?_
    | with_reducible refine (mems_replayFrom ..).trans ?_
    | split
    | dsimp -zeta only
    | simp -zeta only [*])

@[simp] theorem mems_doMvRowCheckFault (g ser row : Nat) (s : State) :
    (doMvRowCheckFault g ser row s).mems = s.mems := by
  unfold doMvRowCheckFault
  repeat' (first | with_reducible rfl | with_reducible refine (mems_takeStrike ..).trans ?_ | with_reducible refine (mems_checkRecord ..).trans ?_ | split)

/-! ## Vector -/

@[simp] theorem mems_vecWork (i : Iss) (lines : List (Nat × List Byte × Bool)) (s : State) :
    (vecWork i lines s).mems = s.mems := by
  unfold vecWork
  repeat' (first
    | with_reducible rfl
    | with_reducible refine (mems_consumeView ..).trans ?_
    | with_reducible refine (mems_setCounts ..).trans ?_
    | with_reducible refine (mems_holdWrites ..).trans ?_
    | split
    | dsimp -zeta only)

@[simp] theorem mems_derivWork (i : Iss) (lines : List (Nat × List Byte × Bool)) (s : State) :
    (derivWork i lines s).mems = s.mems := by
  unfold derivWork
  repeat' (first
    | with_reducible rfl
    | with_reducible refine (mems_consumeView ..).trans ?_
    | with_reducible refine (mems_setCounts ..).trans ?_
    | with_reducible refine (mems_holdWrites ..).trans ?_
    | split
    | dsimp -zeta only)

@[simp] theorem mems_rngWork (i : Iss) (u1 : List (Nat × List Byte × Bool)) (s : State) :
    (rngWork i u1 s).mems = s.mems := by
  unfold rngWork
  repeat' (first | with_reducible rfl | with_reducible refine (mems_holdWrites ..).trans ?_ | with_reducible refine (mems_setCounts ..).trans ?_ | split)

@[simp] theorem mems_routeWork (i : Iss) (lines : List (Nat × List Byte × Bool)) (s : State) :
    (routeWork i lines s).mems = s.mems := by
  unfold routeWork
  repeat' (first
    | with_reducible rfl
    | with_reducible refine (mems_consumeView ..).trans ?_
    | with_reducible refine (mems_setCounts ..).trans ?_
    | with_reducible refine (mems_holdWrites ..).trans ?_
    | with_reducible refine (mems_bump ..).trans ?_
    | with_reducible refine (mems_foldl _ ?_ _ _).trans ?_
    | with_reducible refine (mems_fold2 _ ?_ _ _).trans ?_
    | (intro s _ _)
    | (intro s _)
    | split
    | dsimp -zeta only)

@[simp] theorem mems_vecDo (i : Iss) (lines : List (Nat × List Byte × Bool)) (s : State) :
    (vecDo i lines s).mems = s.mems := by
  unfold vecDo
  repeat' (first
    | with_reducible rfl
    | with_reducible refine (mems_setWaitFor ..).trans ?_
    | with_reducible refine (mems_vecWork ..).trans ?_
    | with_reducible refine (mems_derivWork ..).trans ?_
    | with_reducible refine (mems_rngWork ..).trans ?_
    | with_reducible refine (mems_routeWork ..).trans ?_
    | split
    | dsimp -zeta only)

@[simp] theorem mems_touchLines (i : Iss) (l : List Nat) (s : State) : (touchLines i l s).mems = s.mems := by
  induction l generalizing s with
  | nil => unfold touchLines; split <;> simp [-Prod.mk.injEq]
  | cons w l ih => unfold touchLines; repeat' (first | rfl | split | simp [-Prod.mk.injEq, ih])

@[simp] theorem mems_doVectorCheckFault (g ser elem : Nat) (s : State) :
    (doVectorCheckFault g ser elem s).mems = s.mems := by
  unfold doVectorCheckFault
  repeat' (first
    | with_reducible rfl
    | with_reducible refine (mems_postRec ..).trans ?_
    | with_reducible refine (mems_stopSeg ..).trans ?_
    | with_reducible refine (mems_takeStrike ..).trans ?_
    | split
    | dsimp -zeta only)

/-! ## Dma -/

@[simp] theorem mems_updClod (key : Nat) (f : Clod → Clod) (s : State) :
    (updClod key f s).mems = s.mems := by
  unfold updClod
  with_reducible rfl

@[simp] theorem mems_openAtom (i : Iss) (s : State) :
    (openAtom i s).2.mems = s.mems := by
  unfold openAtom
  with_reducible rfl

@[simp] theorem mems_failClod (key : Nat) (cause : W16) (g part : Nat) (daddr : W64) (s : State) :
    (failClod key cause g part daddr s).mems = s.mems := by
  unfold failClod
  repeat' (first | with_reducible rfl | with_reducible refine (mems_updClod ..).trans ?_ | split)

@[simp] theorem mems_addPrep (key g bytes : Nat) (p : Prep) (s : State) :
    (addPrep key g bytes p s).mems = s.mems := by
  unfold addPrep
  repeat' (first | with_reducible rfl | with_reducible refine (mems_updClod ..).trans ?_ | split)

@[simp] theorem mems_clodAbortRec (c : Clod) (s : State) :
    (clodAbortRec c s).mems = s.mems := by
  unfold clodAbortRec
  repeat' (first
    | with_reducible rfl
    | with_reducible assumption
    | (extract_lets +onlyGivenNames x; first
      | (have hx : State.mems x = s.mems := ?_; clear_value x; rename' x => y; on_goal 2 => (dsimp -zeta only [x] <;> clear x))
      | (clear_value x; rename' x => y)
      | (rename' x => y))
    | with_reducible refine (mems_postRec ..).trans ?_
    | with_reducible refine (mems_segStatus ..).trans ?_
    | split
    | dsimp -zeta only
    | simp -zeta only [*])

@[simp] theorem mems_laneWrite (why : LaneFor) (g ser : Nat) (ws : List BitW) (s : State) :
    (laneWrite why g ser ws s).mems = s.mems := by
  unfold laneWrite
  repeat' (first | with_reducible rfl | with_reducible refine (mems_queueLanes ..).trans ?_ | split)

@[simp] theorem mems_localWrite (g ser : Nat) (ws : List BitW) (s : State) :
    (localWrite g ser ws s).mems = s.mems := by
  unfold localWrite
  repeat' (first | with_reducible rfl | with_reducible refine (mems_laneWrite ..).trans ?_ | split)

@[simp] theorem mems_endAtom (g ser : Nat) (apply : Nat → List (Nat × Nat × Prep) → State → State)
    (ha : ∀ c x s, (apply c x s).mems = s.mems) (s : State) : (endAtom g ser apply s).mems = s.mems := by
  unfold endAtom; (try dsimp only); repeat' (first | with_reducible rfl | split | (refine (ha _ _ _).trans ?_) | (refine (mems_foldl _ ?_ _ _).trans ?_) | (intro _ _) | simp [-Prod.mk.injEq])

@[simp] theorem mems_copyUnits (w : CopyOf) (write : Bool) (o : Obj) (j : Nat) (l : Loc) (s : State) :
    (copyUnits w write o j l s).mems = s.mems := by
  unfold copyUnits
  repeat' (first
    | with_reducible rfl
    | with_reducible refine (mems_enterReq ..).trans ?_
    | with_reducible refine (mems_foldl _ ?_ _ _).trans ?_
    | with_reducible refine (mems_fold2 _ ?_ _ _).trans ?_
    | (intro s _ _)
    | (intro s _)
    | split
    | dsimp -zeta only)

@[simp] theorem mems_dropCopy (h : W32) (pick : CopyOf → Bool) (s : State) :
    (dropCopy h pick s).mems = s.mems := by
  unfold dropCopy
  repeat' (first
    | with_reducible rfl
    | with_reducible refine (mems_updHz _ _ (by rfl)).trans ?_
    | (intro s _ _)
    | (intro s _)
    | (intro s)
    | split
    | dsimp -zeta only)

@[simp] theorem mems_noteBadFrame (o : Obj) (off : Nat) (s : State) :
    (noteBadFrame o off s).mems = s.mems := by
  unfold noteBadFrame
  repeat' (first
    | with_reducible rfl
    | with_reducible refine (mems_updHz _ _ (by rfl)).trans ?_
    | (intro s _ _)
    | (intro s _)
    | (intro s)
    | split
    | dsimp -zeta only)

@[simp] theorem mems_copyAnswer (q : Req) (w : CopyOf) (write : Bool) (u : Nat) (ans : HzAnswer) (s : State) :
    (copyAnswer q w write u ans s).mems = s.mems := by
  unfold copyAnswer
  repeat' (first
    | with_reducible rfl
    | with_reducible assumption
    | (extract_lets +onlyGivenNames x; first
      | (have hx : State.mems x = s.mems := ?_; clear_value x; rename' x => y; on_goal 2 => (dsimp -zeta only [x] <;> clear x))
      | (clear_value x; rename' x => y)
      | (rename' x => y))
    | with_reducible refine (mems_hz4Failure ..).trans ?_
    | with_reducible refine (mems_updHz _ _ (by rfl)).trans ?_
    | with_reducible refine (mems_noteBadFrame ..).trans ?_
    | with_reducible refine (mems_objSetPoison ..).trans ?_
    | (intro s _ _)
    | (intro s _)
    | (intro s)
    | split
    | dsimp -zeta only
    | simp -zeta only [*])

@[simp] theorem mems_noteRead (h : W32) (j : Nat) (s : State) :
    (noteRead h j s).mems = s.mems := by
  unfold noteRead
  repeat' (first
    | with_reducible rfl
    | with_reducible assumption
    | (extract_lets +onlyGivenNames x; first
      | (have hx : State.mems x = s.mems := ?_; clear_value x; rename' x => y; on_goal 2 => (dsimp -zeta only [x] <;> clear x))
      | (have hx : State.mems x.2 = s.mems := ?_; clear_value x; rename' x => y; on_goal 2 => (dsimp -zeta only [x] <;> clear x))
      | (have hx : State.mems x.2.2 = s.mems := ?_; clear_value x; rename' x => y; on_goal 2 => (dsimp -zeta only [x] <;> clear x))
      | (clear_value x; rename' x => y)
      | (rename' x => y))
    | with_reducible refine (mems_updObj ..).trans ?_
    | with_reducible refine (mems_allocFrame ..).trans ?_
    | with_reducible refine (mems_copyUnits ..).trans ?_
    | with_reducible refine (mems_updHz _ _ (by rfl)).trans ?_
    | (intro s _ _)
    | (intro s _)
    | (intro s)
    | split
    | dsimp -zeta only
    | simp -zeta only [*])

@[simp] theorem mems_noteReads (h : W32) (offs : List Nat) (s : State) :
    (noteReads h offs s).mems = s.mems := by
  unfold noteReads
  repeat' (first
    | with_reducible rfl
    | with_reducible refine (mems_noteRead ..).trans ?_
    | with_reducible refine (mems_foldl _ ?_ _ _).trans ?_
    | with_reducible refine (mems_fold2 _ ?_ _ _).trans ?_
    | (intro s _ _)
    | (intro s _)
    | split
    | dsimp -zeta only)

@[simp] theorem mems_addPart (i : Iss) (o : Obj) (off part : Nat) (clod : Option Nat) (kind : ReqKind) (s : State) :
    (addPart i o off part clod kind s).mems = s.mems := by
  unfold addPart
  repeat' (first
    | with_reducible rfl
    | with_reducible refine (mems_bump ..).trans ?_
    | with_reducible refine (mems_addReqAt ..).trans ?_
    | split
    | dsimp -zeta only)

@[simp] theorem mems_readParts (i : Iss) (o : Obj) (clod : Option Nat) (mk : List Move → ReqKind) (ms : List Move) (s : State) :
    (readParts i o clod mk ms s).mems = s.mems := by
  unfold readParts
  repeat' (first
    | with_reducible rfl
    | with_reducible refine (mems_addPart ..).trans ?_
    | with_reducible refine (mems_foldl _ ?_ _ _).trans ?_
    | with_reducible refine (mems_fold2 _ ?_ _ _).trans ?_
    | (intro s _ _)
    | (intro s _)
    | split
    | dsimp -zeta only)

@[simp] theorem mems_updGuard (g ser : Nat) (f : Guard → Guard) (s : State) :
    (updGuard g ser f s).mems = s.mems := by
  unfold updGuard
  repeat' (first | with_reducible rfl | with_reducible refine (mems_updGrain ..).trans ?_ | split)

@[simp] theorem mems_noteRung (ctx g : Nat) (daddr : W64) (rung granule : Nat) (s : State) :
    (noteRung ctx g daddr rung granule s).mems = s.mems := by
  unfold noteRung
  repeat' (first | with_reducible rfl | with_reducible refine (mems_updCtx ..).trans ?_ | split)

@[simp] theorem mems_noteLateArr (ctx : Nat) (s : State) :
    (noteLateArr ctx s).mems = s.mems := by
  unfold noteLateArr
  repeat' (first | with_reducible rfl | with_reducible refine (mems_updCtx ..).trans ?_ | split)

@[simp] theorem mems_rungServed (g ser n : Nat) (js : List Nat) (s : State) :
    (rungServed g ser n js s).mems = s.mems := by
  unfold rungServed
  repeat' (first
    | with_reducible rfl
    | with_reducible refine (mems_updGuard ..).trans ?_
    | with_reducible refine (mems_noteRung ..).trans ?_
    | with_reducible refine (mems_foldl _ ?_ _ _).trans ?_
    | with_reducible refine (mems_fold2 _ ?_ _ _).trans ?_
    | (intro s _ _)
    | (intro s _)
    | split
    | dsimp -zeta only)

@[simp] theorem mems_dropSource (g ser : Nat) (s : State) :
    (dropSource g ser s).mems = s.mems := by
  unfold dropSource
  repeat' (first
    | with_reducible rfl
    | with_reducible refine (mems_updPhys _ _ _ (by intro _; rfl)).trans ?_
    | (intro s _ _)
    | (intro s _)
    | (intro s)
    | split
    | dsimp -zeta only)

@[simp] theorem mems_rung3 (i : Iss) (o : OutD) (late : List Nat) (s : State) :
    (rung3 i o late s).mems = s.mems := by
  unfold rung3
  repeat' (first
    | with_reducible rfl
    | with_reducible refine (mems_laneWrite ..).trans ?_
    | with_reducible refine (mems_noteRung ..).trans ?_
    | with_reducible refine (mems_updGuard ..).trans ?_
    | with_reducible refine (mems_foldl _ ?_ _ _).trans ?_
    | with_reducible refine (mems_fold2 _ ?_ _ _).trans ?_
    | (intro s _ _)
    | (intro s _)
    | split
    | dsimp -zeta only)

@[simp] theorem mems_rungFrom (i : Iss) (o : OutD) (late : List Nat) (n : Nat) (s : State) :
    (rungFrom i o late n s).mems = s.mems := by
  unfold rungFrom
  repeat' (first
    | with_reducible rfl
    | with_reducible assumption
    | (extract_lets +onlyGivenNames x; first
      | (have hx : State.mems x = s.mems := ?_; clear_value x; rename' x => y; on_goal 2 => (dsimp -zeta only [x] <;> clear x))
      | (have hx : State.mems x.2 = s.mems := ?_; clear_value x; rename' x => y; on_goal 2 => (dsimp -zeta only [x] <;> clear x))
      | (have hx : State.mems x.2.2 = s.mems := ?_; clear_value x; rename' x => y; on_goal 2 => (dsimp -zeta only [x] <;> clear x))
      | (have hx : ∀ s, State.mems (x s) = s.mems := ?_; clear_value x; rename' x => y; on_goal 2 => (intro s; dsimp -zeta only [x] <;> clear x))
      | (have hx : ∀ a, State.mems (x a) = s.mems := ?_; clear_value x; rename' x => y; on_goal 2 => (intro a; dsimp -zeta only [x] <;> clear x))
      | (have hx : ∀ a s, State.mems (x a s) = s.mems := ?_; clear_value x; rename' x => y; on_goal 2 => (intro a s; dsimp -zeta only [x] <;> clear x))
      | (clear_value x; rename' x => y)
      | (rename' x => y))
    | with_reducible refine (mems_updGuard ..).trans ?_
    | with_reducible refine (mems_readParts ..).trans ?_
    | with_reducible refine (mems_rung3 ..).trans ?_
    | split
    | dsimp -zeta only
    | simp -zeta only [*])

@[simp] theorem mems_abandon (g ser : Nat) (s : State) :
    (abandon g ser s).mems = s.mems := by
  unfold abandon
  repeat' (first
    | with_reducible rfl
    | with_reducible refine (mems_updHz _ _ (by rfl)).trans ?_
    | (intro s _ _)
    | (intro s _)
    | (intro s)
    | split
    | dsimp -zeta only)

@[simp] theorem mems_dmaCutoff (g ser n : Nat) (s : State) :
    (dmaCutoff g ser n s).mems = s.mems := by
  unfold dmaCutoff
  repeat' (first
    | with_reducible rfl
    | with_reducible assumption
    | (extract_lets +onlyGivenNames x; first
      | (have hx : State.mems x = s.mems := ?_; clear_value x; rename' x => y; on_goal 2 => (dsimp -zeta only [x] <;> clear x))
      | (clear_value x; rename' x => y)
      | (rename' x => y))
    | with_reducible refine (mems_dropSource ..).trans ?_
    | with_reducible refine (mems_abandon ..).trans ?_
    | with_reducible refine (mems_updGuard ..).trans ?_
    | with_reducible refine (mems_rungFrom ..).trans ?_
    | with_reducible refine (mems_workDone ..).trans ?_
    | with_reducible refine (mems_foldl _ ?_ _ _).trans ?_
    | with_reducible refine (mems_fold2 _ ?_ _ _).trans ?_
    | (intro s _ _)
    | (intro s _)
    | split
    | dsimp -zeta only
    | simp -zeta only [*])

@[simp] theorem mems_consumeIdx (i : Iss) (s : State) :
    (consumeIdx i s).mems = s.mems := by
  unfold consumeIdx
  repeat' (first | with_reducible rfl | with_reducible refine (mems_consumePoison ..).trans ?_ | split)

@[simp] theorem mems_sourceRead (q : Req) (o : Obj) (offs : List Nat) (ans : HzAnswer) (s : State) :
    (sourceRead q o offs ans s).2.mems = s.mems := by
  unfold sourceRead
  repeat' (first
    | with_reducible rfl
    | with_reducible refine (mems_hz4Failure ..).trans ?_
    | with_reducible refine (mems_noteBadFrame ..).trans ?_
    | with_reducible refine (mems_objSetPoison ..).trans ?_
    | with_reducible refine (mems_noteReads ..).trans ?_
    | split
    | dsimp -zeta only)

@[simp] theorem mems_doCacheFillDone (g t : Nat) (s : State) :
    (doCacheFillDone g t s).mems = s.mems := by
  unfold doCacheFillDone
  repeat' (first
    | with_reducible rfl
    | with_reducible refine (mems_updHz _ _ (by rfl)).trans ?_
    | with_reducible refine (mems_sourceRead ..).trans ?_
    | with_reducible refine (mems_queueLanes ..).trans ?_
    | (intro s _ _)
    | (intro s _)
    | (intro s)
    | split
    | dsimp -zeta only)

@[simp] theorem mems_readServed (q : Req) (ms : List Move) (rung : Option Nat) (ans : HzAnswer) (s : State) :
    (readServed q ms rung ans s).mems = s.mems := by
  unfold readServed
  repeat' (first
    | with_reducible rfl
    | with_reducible assumption
    | (extract_lets +onlyGivenNames x; first
      | (have hx : State.mems x = s.mems := ?_; clear_value x; rename' x => y; on_goal 2 => (dsimp -zeta only [x] <;> clear x))
      | (have hx : State.mems x.2 = s.mems := ?_; clear_value x; rename' x => y; on_goal 2 => (dsimp -zeta only [x] <;> clear x))
      | (have hx : State.mems x.2.2 = s.mems := ?_; clear_value x; rename' x => y; on_goal 2 => (dsimp -zeta only [x] <;> clear x))
      | (clear_value x; rename' x => y)
      | (rename' x => y))
    | with_reducible refine (mems_sourceRead ..).trans ?_
    | with_reducible refine (mems_failClod ..).trans ?_
    | with_reducible refine (mems_postRec ..).trans ?_
    | with_reducible refine (mems_addPrep ..).trans ?_
    | with_reducible refine (mems_consumePoison ..).trans ?_
    | with_reducible refine (mems_laneWrite ..).trans ?_
    | with_reducible refine (mems_foldl _ ?_ _ _).trans ?_
    | with_reducible refine (mems_fold2 _ ?_ _ _).trans ?_
    | (intro s _ _)
    | (intro s _)
    | split
    | dsimp -zeta only
    | simp -zeta only [*])

@[simp] theorem mems_bar4Poison (x : Obj) (off : Nat) (s : State) :
    (bar4Poison x off s).mems = s.mems := by
  unfold bar4Poison
  repeat' (first | with_reducible rfl | with_reducible refine (mems_postRec ..).trans ?_ | split)

@[simp] theorem mems_settleApers (s : State) :
    (settleApers s).mems = s.mems := by
  unfold settleApers
  repeat' (first
    | with_reducible rfl
    | with_reducible refine (mems_emit ..).trans ?_
    | with_reducible refine (mems_updHz _ _ (by rfl)).trans ?_
    | with_reducible refine (mems_foldl _ ?_ _ _).trans ?_
    | with_reducible refine (mems_fold2 _ ?_ _ _).trans ?_
    | (intro s _ _)
    | (intro s _)
    | split
    | dsimp -zeta only)

@[simp] theorem mems_firstServed (q : Req) (t : Nat) (ans : HzAnswer) (s : State) :
    (firstServed q t ans s).mems = s.mems := by
  unfold firstServed
  repeat' (first | with_reducible rfl | with_reducible refine (mems_sourceRead ..).trans ?_ | with_reducible refine (mems_updCtx ..).trans ?_ | split)

@[simp] theorem mems_xferPoison (q : Req) (o : Obj) (idx off : Nat) (s : State) :
    (xferPoison q o idx off s).mems = s.mems := by
  unfold xferPoison
  repeat' (first
    | with_reducible rfl
    | with_reducible refine (mems_updSeg ..).trans ?_
    | with_reducible refine (mems_segStatus ..).trans ?_
    | with_reducible refine (mems_postRec ..).trans ?_
    | split
    | dsimp -zeta only)

@[simp] theorem mems_xferServed (q : Req) (idx off len : Nat) (ans : HzAnswer) (s : State) :
    (xferServed q idx off len ans s).mems = s.mems := by
  unfold xferServed
  repeat' (first
    | with_reducible rfl
    | with_reducible assumption
    | (extract_lets +onlyGivenNames x; first
      | (have hx : State.mems x = s.mems := ?_; clear_value x; rename' x => y; on_goal 2 => (dsimp -zeta only [x] <;> clear x))
      | (have hx : State.mems x.2 = s.mems := ?_; clear_value x; rename' x => y; on_goal 2 => (dsimp -zeta only [x] <;> clear x))
      | (have hx : State.mems x.2.2 = s.mems := ?_; clear_value x; rename' x => y; on_goal 2 => (dsimp -zeta only [x] <;> clear x))
      | (clear_value x; rename' x => y)
      | (rename' x => y))
    | with_reducible refine (mems_sourceRead ..).trans ?_
    | with_reducible refine (mems_xferPoison ..).trans ?_
    | with_reducible refine (mems_queueLanes ..).trans ?_
    | with_reducible refine (mems_foldl _ ?_ _ _).trans ?_
    | with_reducible refine (mems_fold2 _ ?_ _ _).trans ?_
    | (intro s _ _)
    | (intro s _)
    | split
    | dsimp -zeta only
    | simp -zeta only [*])

/-! ## Sieve -/

@[simp] theorem mems_sieveCount (idx k n : Nat) (s : State) :
    (sieveCount idx k n s).mems = s.mems := by
  unfold sieveCount
  repeat' (first | with_reducible rfl | with_reducible refine (mems_updSieve ..).trans ?_ | split)

@[simp] theorem mems_sieveNumeric (idx hi lo : Nat) (s : State) :
    (sieveNumeric idx hi lo s).mems = s.mems := by
  unfold sieveNumeric
  repeat' (first | with_reducible rfl | with_reducible refine (mems_updSieve ..).trans ?_ | split)

@[simp] theorem mems_updGather (g ser : Nat) (f : Gather → Gather) (s : State) :
    (updGather g ser f s).mems = s.mems := by
  unfold updGather
  with_reducible rfl

@[simp] theorem mems_slotServed (i : Iss) (idx slot src : Nat) (xs : List FVal) (bad : Bool) (s : State) :
    (slotServed i idx slot src xs bad s).mems = s.mems := by
  unfold slotServed
  repeat' (first
    | with_reducible rfl
    | with_reducible refine (mems_updGather ..).trans ?_
    | with_reducible refine (mems_sieveCount ..).trans ?_
    | with_reducible refine (mems_noteRung ..).trans ?_
    | with_reducible refine (mems_updGuard ..).trans ?_
    | split
    | dsimp -zeta only)

@[simp] theorem mems_rowReq (i : Iss) (o : Obj) (off len src slot : Nat) (s : State) :
    (rowReq i o off len src slot s).mems = s.mems := by
  unfold rowReq
  repeat' (first
    | with_reducible rfl
    | with_reducible refine (mems_addReq ..).trans ?_
    | with_reducible refine (mems_foldl _ ?_ _ _).trans ?_
    | with_reducible refine (mems_fold2 _ ?_ _ _).trans ?_
    | (intro s _ _)
    | (intro s _)
    | split
    | dsimp -zeta only)

@[simp] theorem mems_homeReq (i : Iss) (t : Sieve) (o : Obj) (id slot : Nat) (s : State) :
    (homeReq i t o id slot s).mems = s.mems := by
  unfold homeReq
  repeat' (first
    | with_reducible rfl
    | with_reducible assumption
    | (extract_lets +onlyGivenNames x; first
      | (have hx : State.mems x = s.mems := ?_; clear_value x; rename' x => y; on_goal 2 => (dsimp -zeta only [x] <;> clear x))
      | (clear_value x; rename' x => y)
      | (rename' x => y))
    | with_reducible refine (mems_rowReq ..).trans ?_
    | with_reducible refine (mems_bump ..).trans ?_
    | with_reducible refine (mems_updHz _ _ (by rfl)).trans ?_
    | with_reducible refine (mems_addReqAt ..).trans ?_
    | with_reducible refine (mems_foldl _ ?_ _ _).trans ?_
    | with_reducible refine (mems_fold2 _ ?_ _ _).trans ?_
    | (intro s _ _)
    | (intro s _)
    | split
    | dsimp -zeta only
    | simp -zeta only [*])

@[simp] theorem mems_logReq (i : Iss) (t : Sieve) (id slot : Nat) (s : State) :
    (logReq i t id slot s).mems = s.mems := by
  unfold logReq
  repeat' (first | with_reducible rfl | with_reducible refine (mems_addReq ..).trans ?_ | split)

@[simp] theorem mems_hotReq (i : Iss) (t : Sieve) (r : HotRow) (slot : Nat) (s : State) :
    (hotReq i t r slot s).mems = s.mems := by
  unfold hotReq
  repeat' (first | with_reducible rfl | with_reducible refine (mems_bump ..).trans ?_ | with_reducible refine (mems_enterReq ..).trans ?_ | split)

@[simp] theorem mems_consumeRow (i : Iss) (hot : Bool) (h : W32) (off slot : Nat) (s : State) :
    (consumeRow i hot h off slot s).mems = s.mems := by
  unfold consumeRow
  repeat' (first
    | with_reducible rfl
    | with_reducible refine (mems_failClod ..).trans ?_
    | with_reducible refine (mems_postRec ..).trans ?_
    | with_reducible refine (mems_consumePoison ..).trans ?_
    | split
    | dsimp -zeta only)

@[simp] theorem mems_slotZero (i : Iss) (t : Sieve) (slot : Nat) (s : State) :
    (slotZero i t slot s).mems = s.mems := by
  unfold slotZero
  repeat' (first | with_reducible rfl | with_reducible refine (mems_slotServed ..).trans ?_ | split)

@[simp] theorem mems_slotRung (i : Iss) (t : Sieve) (slot n : Nat) (s : State) :
    (slotRung i t slot n s).mems = s.mems := by
  unfold slotRung
  repeat' (first
    | with_reducible rfl
    | with_reducible assumption
    | (extract_lets +onlyGivenNames x; first
      | (have hx : State.mems x = s.mems := ?_; clear_value x; rename' x => y; on_goal 2 => (dsimp -zeta only [x] <;> clear x))
      | (have hx : State.mems x.2 = s.mems := ?_; clear_value x; rename' x => y; on_goal 2 => (dsimp -zeta only [x] <;> clear x))
      | (have hx : State.mems x.2.2 = s.mems := ?_; clear_value x; rename' x => y; on_goal 2 => (dsimp -zeta only [x] <;> clear x))
      | (have hx : ∀ s, State.mems (x s) = s.mems := ?_; clear_value x; rename' x => y; on_goal 2 => (intro s; dsimp -zeta only [x] <;> clear x))
      | (have hx : ∀ a, State.mems (x a) = s.mems := ?_; clear_value x; rename' x => y; on_goal 2 => (intro a; dsimp -zeta only [x] <;> clear x))
      | (have hx : ∀ a s, State.mems (x a s) = s.mems := ?_; clear_value x; rename' x => y; on_goal 2 => (intro a s; dsimp -zeta only [x] <;> clear x))
      | (clear_value x; rename' x => y)
      | (rename' x => y))
    | with_reducible refine (mems_updGuard ..).trans ?_
    | with_reducible refine (mems_updGather ..).trans ?_
    | with_reducible refine (mems_rowReq ..).trans ?_
    | with_reducible refine (mems_slotZero ..).trans ?_
    | split
    | dsimp -zeta only
    | simp -zeta only [*])

@[simp] theorem mems_noteMiss (t : Sieve) (rep id : Nat) (s : State) :
    (noteMiss t rep id s).mems = s.mems := by
  unfold noteMiss
  repeat' (first | with_reducible rfl | with_reducible refine (mems_updSieve ..).trans ?_ | split)

@[simp] theorem mems_rowTaken (g ser slot : Nat) (s : State) :
    (rowTaken g ser slot s).mems = s.mems := by
  unfold rowTaken
  repeat' (first
    | with_reducible rfl
    | with_reducible refine (mems_updHz _ _ (by rfl)).trans ?_
    | (intro s _ _)
    | (intro s _)
    | (intro s)
    | split
    | dsimp -zeta only)

@[simp] theorem mems_rowVal (i : Iss) (t : Sieve) (src slot : Nat) (v : List FVal × Counts) (bad : Bool) (s : State) :
    (rowVal i t src slot v bad s).mems = s.mems := by
  unfold rowVal
  repeat' (first | with_reducible rfl | with_reducible refine (mems_slotServed ..).trans ?_ | with_reducible refine (mems_updGather ..).trans ?_ | split)

@[simp] theorem mems_rowIn (i : Iss) (t : Sieve) (src slot : Nat) (o : Obj) (off len : Nat) (vals : List Byte → List FVal × Counts) (ans : HzAnswer) (s : State) :
    (rowIn i t src slot o off len vals ans s).mems = s.mems := by
  unfold rowIn
  repeat' (first
    | with_reducible rfl
    | with_reducible refine (mems_sourceRead ..).trans ?_
    | with_reducible refine (mems_consumeRow ..).trans ?_
    | with_reducible refine (mems_rowVal ..).trans ?_
    | split
    | dsimp -zeta only)

@[simp] theorem mems_poolDrop (t : Sieve) (id : Nat) (s : State) :
    (poolDrop t id s).mems = s.mems := by
  unfold poolDrop
  repeat' (first
    | with_reducible rfl
    | with_reducible refine (mems_sieveCount ..).trans ?_
    | with_reducible refine (mems_updSieve ..).trans ?_
    | with_reducible refine (mems_segStatus ..).trans ?_
    | with_reducible refine (mems_postRec ..).trans ?_
    | split
    | dsimp -zeta only)

@[simp] theorem mems_addReq1 (i : Iss) (t : Sieve) (id part : Nat) (clod : Option Nat) (kind : ReqKind) (s : State) :
    (addReq1 i t id part clod kind s).mems = s.mems := by
  unfold addReq1
  repeat' (first | with_reducible rfl | with_reducible refine (mems_addPart ..).trans ?_ | split)

@[simp] theorem mems_freeCodes (n : Nat) (s : State) : (freeCodes n s).2.mems = s.mems := by
  induction n generalizing s with
  | zero => rfl
  | succ n ih => simp [-Prod.mk.injEq, freeCodes, ih]

@[simp] theorem mems_shadowRow (dim : Nat) (ws : List FVal) (s : State) :
    (shadowRow dim ws s).2.mems = s.mems := by
  unfold shadowRow
  repeat' (first
    | with_reducible rfl
    | with_reducible assumption
    | (extract_lets +onlyGivenNames x; first
      | (have hx : State.mems x = s.mems := ?_; clear_value x; rename' x => y; on_goal 2 => (dsimp -zeta only [x] <;> clear x))
      | (have hx : State.mems x.2 = s.mems := ?_; clear_value x; rename' x => y; on_goal 2 => (dsimp -zeta only [x] <;> clear x))
      | (have hx : State.mems x.2.2 = s.mems := ?_; clear_value x; rename' x => y; on_goal 2 => (dsimp -zeta only [x] <;> clear x))
      | (clear_value x; rename' x => y)
      | (rename' x => y))
    | with_reducible refine (mems_freeBits ..).trans ?_
    | with_reducible refine (mems_freeCodes ..).trans ?_
    | with_reducible refine (mems_foldl _ ?_ _ _).trans ?_
    | with_reducible refine (mems_fold2 _ ?_ _ _).trans ?_
    | (intro s _ _)
    | (intro s _)
    | split
    | dsimp -zeta only
    | simp -zeta only [*])

@[simp] theorem mems_consumeApply (g : Nat) (daddr : W64) (at_ : W32 × Nat) (s : State) :
    (consumeApply g daddr at_ s).mems = s.mems := by
  unfold consumeApply
  repeat' (first | with_reducible rfl | with_reducible refine (mems_consumePoison ..).trans ?_ | split)

@[simp] theorem mems_mergeStart (idx : Nat) (s : State) :
    (mergeStart idx s).mems = s.mems := by
  unfold mergeStart
  repeat' (first
    | with_reducible rfl
    | with_reducible assumption
    | (extract_lets +onlyGivenNames x; first
      | (have hx : State.mems x = s.mems := ?_; clear_value x; rename' x => y; on_goal 2 => (dsimp -zeta only [x] <;> clear x))
      | (clear_value x; rename' x => y)
      | (rename' x => y))
    | with_reducible refine (mems_configWarn ..).trans ?_
    | with_reducible refine (mems_updHz _ _ (by rfl)).trans ?_
    | with_reducible refine (mems_copyUnits ..).trans ?_
    | with_reducible refine (mems_updSieve ..).trans ?_
    | with_reducible refine (mems_foldl _ ?_ _ _).trans ?_
    | with_reducible refine (mems_fold2 _ ?_ _ _).trans ?_
    | (intro s _ _)
    | (intro s _)
    | split
    | dsimp -zeta only
    | simp -zeta only [*])

@[simp] theorem mems_spanReq (kind : ReqKind) (die : Nat) (o : Obj) (off len : Nat) (s : State) :
    (spanReq kind die o off len s).mems = s.mems := by
  unfold spanReq
  repeat' (first
    | with_reducible rfl
    | with_reducible refine (mems_addReqAt ..).trans ?_
    | with_reducible refine (mems_foldl _ ?_ _ _).trans ?_
    | with_reducible refine (mems_fold2 _ ?_ _ _).trans ?_
    | (intro s _ _)
    | (intro s _)
    | split
    | dsimp -zeta only)

@[simp] theorem mems_applyAsk (t : Sieve) (o po : Obj) (k stage : Nat) (e : PoolEnt) (s : State) :
    (applyAsk t o po k stage e s).mems = s.mems := by
  unfold applyAsk
  repeat' (first
    | with_reducible rfl
    | with_reducible assumption
    | (extract_lets +onlyGivenNames x; first
      | (have hx : State.mems x = s.mems := ?_; clear_value x; rename' x => y; on_goal 2 => (dsimp -zeta only [x] <;> clear x))
      | (have hx : State.mems x.2 = s.mems := ?_; clear_value x; rename' x => y; on_goal 2 => (dsimp -zeta only [x] <;> clear x))
      | (have hx : State.mems x.2.2 = s.mems := ?_; clear_value x; rename' x => y; on_goal 2 => (dsimp -zeta only [x] <;> clear x))
      | (have hx : ∀ s, State.mems (x s) = s.mems := ?_; clear_value x; rename' x => y; on_goal 2 => (intro s; dsimp -zeta only [x] <;> clear x))
      | (have hx : ∀ a, State.mems (x a) = s.mems := ?_; clear_value x; rename' x => y; on_goal 2 => (intro a; dsimp -zeta only [x] <;> clear x))
      | (have hx : ∀ a s, State.mems (x a s) = s.mems := ?_; clear_value x; rename' x => y; on_goal 2 => (intro a s; dsimp -zeta only [x] <;> clear x))
      | (clear_value x; rename' x => y)
      | (rename' x => y))
    | with_reducible refine (mems_spanReq ..).trans ?_
    | with_reducible refine (mems_enterReq ..).trans ?_
    | with_reducible refine (mems_foldl _ ?_ _ _).trans ?_
    | with_reducible refine (mems_fold2 _ ?_ _ _).trans ?_
    | (intro s _ _)
    | (intro s _)
    | split
    | dsimp -zeta only
    | simp -zeta only [*])

@[simp] theorem mems_applyTry (idx k : Nat) (s : State) :
    (applyTry idx k s).mems = s.mems := by
  unfold applyTry
  repeat' (first | with_reducible rfl | with_reducible refine (mems_updSieve ..).trans ?_ | with_reducible refine (mems_applyAsk ..).trans ?_ | split)

@[simp] theorem mems_mergeFlushed (cmd : Nat) (s : State) :
    (mergeFlushed cmd s).mems = s.mems := by
  unfold mergeFlushed
  with_reducible rfl

@[simp] theorem mems_sieveStepEnd (ctx : Nat) (s : State) :
    (sieveStepEnd ctx s).mems = s.mems := by
  unfold sieveStepEnd
  with_reducible rfl

/-! ## Fabric -/

@[simp] theorem mems_updFab (f : Fab → Fab) (s : State) :
    (updFab f s).mems = s.mems := by
  unfold updFab
  with_reducible rfl

@[simp] theorem mems_updFport (p : Nat) (f : FPort → FPort) (s : State) :
    (updFport p f s).mems = s.mems := by
  unfold updFport
  repeat' (first | with_reducible rfl | with_reducible refine (mems_updFab ..).trans ?_ | split)

@[simp] theorem mems_sendNow (p : Nat) (f : Flit) (s : State) :
    (sendNow p f s).mems = s.mems := by
  unfold sendNow
  repeat' (first | with_reducible rfl | with_reducible refine (mems_updFport ..).trans ?_ | with_reducible refine (mems_emit ..).trans ?_ | split)

@[simp] theorem mems_sendNull (p : Nat) (nak : Bool) (rcnt rtc rvl : Nat) (s : State) :
    (sendNull p nak rcnt rtc rvl s).mems = s.mems := by
  unfold sendNull
  repeat' (first | with_reducible rfl | with_reducible refine (mems_emit ..).trans ?_ | split)

@[simp] theorem mems_giveBack (org : Option (Nat × Nat)) (f : Flit) (s : State) :
    (giveBack org f s).mems = s.mems := by
  unfold giveBack
  repeat' (first | with_reducible rfl | with_reducible refine (mems_sendNull ..).trans ?_ | split)

@[simp] theorem mems_txFlit (p : Nat) (org : Option (Nat × Nat)) (f : Flit) (s : State) :
    (txFlit p org f s).mems = s.mems := by
  unfold txFlit
  repeat' (first
    | with_reducible rfl
    | with_reducible assumption
    | (extract_lets +onlyGivenNames x; first
      | (have hx : State.mems x = s.mems := ?_; clear_value x; rename' x => y; on_goal 2 => (dsimp -zeta only [x] <;> clear x))
      | (clear_value x; rename' x => y)
      | (rename' x => y))
    | with_reducible refine (mems_giveBack ..).trans ?_
    | with_reducible refine (mems_sendNow ..).trans ?_
    | with_reducible refine (mems_updFport ..).trans ?_
    | split
    | dsimp -zeta only
    | simp -zeta only [*])

@[simp] theorem mems_drainPort (p n : Nat) (s : State) : (drainPort p n s).mems = s.mems := by
  induction n generalizing s with
  | zero => rfl
  | succ n ih => unfold drainPort; repeat' (first | rfl | split | simp [-Prod.mk.injEq, ih])

@[simp] theorem mems_drainWait (p : Nat) (s : State) :
    (drainWait p s).mems = s.mems := by
  unfold drainWait
  repeat' (first | with_reducible rfl | with_reducible refine (mems_drainPort ..).trans ?_ | split)

@[simp] theorem mems_routeFrom (org : Option (Nat × Nat)) (key : Nat) (f : Flit) (s : State) :
    (routeFrom org key f s).mems = s.mems := by
  unfold routeFrom
  repeat' (first
    | with_reducible rfl
    | with_reducible refine (mems_giveBack ..).trans ?_
    | with_reducible refine (mems_emit ..).trans ?_
    | with_reducible refine (mems_txFlit ..).trans ?_
    | split
    | dsimp -zeta only)

@[simp] theorem mems_routeFlit (key : Nat) (f : Flit) (s : State) :
    (routeFlit key f s).mems = s.mems := by
  unfold routeFlit
  repeat' (first | with_reducible rfl | with_reducible refine (mems_routeFrom ..).trans ?_ | split)

@[simp] theorem mems_rejoinBundle (dir : Nat) (s : State) :
    (rejoinBundle dir s).mems = s.mems := by
  unfold rejoinBundle
  repeat' (first
    | with_reducible rfl
    | with_reducible assumption
    | (extract_lets +onlyGivenNames x; first
      | (have hx : State.mems x = s.mems := ?_; clear_value x; rename' x => y; on_goal 2 => (dsimp -zeta only [x] <;> clear x))
      | (clear_value x; rename' x => y)
      | (rename' x => y))
    | with_reducible refine (mems_updFport ..).trans ?_
    | with_reducible refine (mems_routeFrom ..).trans ?_
    | with_reducible refine (mems_foldl _ ?_ _ _).trans ?_
    | with_reducible refine (mems_fold2 _ ?_ _ _).trans ?_
    | (intro s _ _)
    | (intro s _)
    | split
    | dsimp -zeta only
    | simp -zeta only [*])

@[simp] theorem mems_ackBack (p : Nat) (a : BitVec 12) (s : State) :
    (ackBack p a s).mems = s.mems := by
  unfold ackBack
  repeat' (first
    | with_reducible rfl
    | with_reducible assumption
    | (extract_lets +onlyGivenNames x; first
      | (have hx : State.mems x = s.mems := ?_; clear_value x; rename' x => y; on_goal 2 => (dsimp -zeta only [x] <;> clear x))
      | (clear_value x; rename' x => y)
      | (rename' x => y))
    | with_reducible refine (mems_rejoinBundle ..).trans ?_
    | with_reducible refine (mems_drainWait ..).trans ?_
    | with_reducible refine (mems_updFport ..).trans ?_
    | split
    | dsimp -zeta only
    | simp -zeta only [*])

@[simp] theorem mems_portRec (p event : Nat) (s : State) :
    (portRec p event s).mems = s.mems := by
  unfold portRec
  repeat' (first | with_reducible rfl | with_reducible refine (mems_postRec ..).trans ?_ | split)

@[simp] theorem mems_leaveUp (p : Nat) (st : PSt) (s : State) :
    (leaveUp p st s).mems = s.mems := by
  unfold leaveUp
  repeat' (first
    | with_reducible rfl
    | with_reducible refine (mems_updFport ..).trans ?_
    | with_reducible refine (mems_rejoinBundle ..).trans ?_
    | with_reducible refine (mems_routeFrom ..).trans ?_
    | with_reducible refine (mems_foldl _ ?_ _ _).trans ?_
    | with_reducible refine (mems_fold2 _ ?_ _ _).trans ?_
    | (intro s _ _)
    | (intro s _)
    | split
    | dsimp -zeta only)

@[simp] theorem mems_startRetrain (p : Nat) (s : State) :
    (startRetrain p s).mems = s.mems := by
  unfold startRetrain
  repeat' (first
    | with_reducible rfl
    | with_reducible refine (mems_leaveUp ..).trans ?_
    | with_reducible refine (mems_updFport ..).trans ?_
    | with_reducible refine (mems_portRec ..).trans ?_
    | split
    | dsimp -zeta only)

@[simp] theorem mems_nakBack (p : Nat) (a : BitVec 12) (s : State) :
    (nakBack p a s).mems = s.mems := by
  unfold nakBack
  repeat' (first
    | with_reducible rfl
    | with_reducible assumption
    | (extract_lets +onlyGivenNames x; first
      | (have hx : State.mems x = s.mems := ?_; clear_value x; rename' x => y; on_goal 2 => (dsimp -zeta only [x] <;> clear x))
      | (clear_value x; rename' x => y)
      | (rename' x => y))
    | with_reducible refine (mems_ackBack ..).trans ?_
    | with_reducible refine (mems_updFport ..).trans ?_
    | with_reducible refine (mems_startRetrain ..).trans ?_
    | with_reducible refine (mems_emit ..).trans ?_
    | with_reducible refine (mems_foldl _ ?_ _ _).trans ?_
    | with_reducible refine (mems_fold2 _ ?_ _ _).trans ?_
    | (intro s _ _)
    | (intro s _)
    | split
    | dsimp -zeta only
    | simp -zeta only [*])

@[simp] theorem mems_freeOwed (p : Nat → Bool) (s : State) :
    (freeOwed p s).mems = s.mems := by
  unfold freeOwed
  repeat' (first
    | with_reducible rfl
    | with_reducible refine (mems_sendNull ..).trans ?_
    | with_reducible refine (mems_updFab ..).trans ?_
    | with_reducible refine (mems_foldl _ ?_ _ _).trans ?_
    | with_reducible refine (mems_fold2 _ ?_ _ _).trans ?_
    | (intro s _ _)
    | (intro s _)
    | split
    | dsimp -zeta only)

@[simp] theorem mems_sendCtl (tc dst : Nat) (o : Out) (s : State) :
    (sendCtl tc dst o s).mems = s.mems := by
  unfold sendCtl
  repeat' (first
    | with_reducible rfl
    | with_reducible refine (mems_freeBelow ..).trans ?_
    | with_reducible refine (mems_freeBits ..).trans ?_
    | with_reducible refine (mems_routeFlit ..).trans ?_
    | with_reducible refine (mems_emit ..).trans ?_
    | split
    | dsimp -zeta only)

@[simp] theorem mems_doNakReceived (p : Nat) (a : BitVec 12) (s : State) :
    (doNakReceived p a s).mems = s.mems := by
  unfold doNakReceived
  repeat' (first | with_reducible rfl | with_reducible refine (mems_nakBack ..).trans ?_ | split)

@[simp] theorem mems_doPortLeaveUp (p : Nat) (s : State) :
    (doPortLeaveUp p s).mems = s.mems := by
  unfold doPortLeaveUp
  repeat' (first | with_reducible rfl | with_reducible refine (mems_portRec ..).trans ?_ | with_reducible refine (mems_startRetrain ..).trans ?_ | split)

@[simp] theorem mems_doPortRetrainDone (p : Nat) (ok : Bool) (s : State) :
    (doPortRetrainDone p ok s).mems = s.mems := by
  unfold doPortRetrainDone
  repeat' (first
    | with_reducible rfl
    | with_reducible assumption
    | (extract_lets +onlyGivenNames x; first
      | (have hx : State.mems x = s.mems := ?_; clear_value x; rename' x => y; on_goal 2 => (dsimp -zeta only [x] <;> clear x))
      | (clear_value x; rename' x => y)
      | (rename' x => y))
    | with_reducible refine (mems_updFport ..).trans ?_
    | with_reducible refine (mems_emit ..).trans ?_
    | with_reducible refine (mems_portRec ..).trans ?_
    | with_reducible refine (mems_rejoinBundle ..).trans ?_
    | with_reducible refine (mems_finish0 ..).trans ?_
    | with_reducible refine (mems_foldl _ ?_ _ _).trans ?_
    | with_reducible refine (mems_fold2 _ ?_ _ _).trans ?_
    | (intro s _ _)
    | (intro s _)
    | split
    | dsimp -zeta only
    | simp -zeta only [*])

@[simp] theorem mems_doPortTrained (p : Nat) (ok : Bool) (s : State) :
    (doPortTrained p ok s).mems = s.mems := by
  unfold doPortTrained
  repeat' (first
    | with_reducible rfl
    | with_reducible assumption
    | (extract_lets +onlyGivenNames x; first
      | (have hx : State.mems x = s.mems := ?_; clear_value x; rename' x => y; on_goal 2 => (dsimp -zeta only [x] <;> clear x))
      | (clear_value x; rename' x => y)
      | (rename' x => y))
    | with_reducible refine (mems_portRec ..).trans ?_
    | with_reducible refine (mems_updFport ..).trans ?_
    | with_reducible refine (mems_emit ..).trans ?_
    | split
    | dsimp -zeta only
    | simp -zeta only [*])

@[simp] theorem mems_doIdentReceived (p : Nat) (id : Ident) (s : State) :
    (doIdentReceived p id s).mems = s.mems := by
  unfold doIdentReceived
  repeat' (first
    | with_reducible rfl
    | with_reducible assumption
    | (extract_lets +onlyGivenNames x; first
      | (have hx : State.mems x = s.mems := ?_; clear_value x; rename' x => y; on_goal 2 => (dsimp -zeta only [x] <;> clear x))
      | (clear_value x; rename' x => y)
      | (rename' x => y))
    | with_reducible refine (mems_updFport ..).trans ?_
    | with_reducible refine (mems_rejoinBundle ..).trans ?_
    | with_reducible refine (mems_portRec ..).trans ?_
    | split
    | dsimp -zeta only
    | simp -zeta only [*])

@[simp] theorem mems_flitIn (p : Nat) (f : Flit) (s : State) :
    (flitIn p f s).mems = s.mems := by
  unfold flitIn
  repeat' (first
    | with_reducible rfl
    | with_reducible assumption
    | (extract_lets +onlyGivenNames x; first
      | (have hx : State.mems x = s.mems := ?_; clear_value x; rename' x => y; on_goal 2 => (dsimp -zeta only [x] <;> clear x))
      | (clear_value x; rename' x => y)
      | (rename' x => y))
    | with_reducible refine (mems_sendNull ..).trans ?_
    | with_reducible refine (mems_updFport ..).trans ?_
    | with_reducible refine (mems_drainWait ..).trans ?_
    | with_reducible refine (mems_nakBack ..).trans ?_
    | with_reducible refine (mems_ackBack ..).trans ?_
    | with_reducible refine (mems_doIdentReceived ..).trans ?_
    | with_reducible refine (mems_updFab ..).trans ?_
    | with_reducible refine (mems_giveBack ..).trans ?_
    | with_reducible refine (mems_routeFrom ..).trans ?_
    | split
    | dsimp -zeta only
    | simp -zeta only [*])

@[simp] theorem mems_doIdentTimeout (p : Nat) (s : State) :
    (doIdentTimeout p s).mems = s.mems := by
  unfold doIdentTimeout
  repeat' (first | with_reducible rfl | with_reducible refine (mems_portRec ..).trans ?_ | with_reducible refine (mems_updFport ..).trans ?_ | split)

@[simp] theorem mems_doLnkPortEnable (rq : Requester) (p : Nat) (val : W64) (s : State) :
    (doLnkPortEnable rq p val s).mems = s.mems := by
  unfold doLnkPortEnable
  repeat' (first
    | with_reducible rfl
    | with_reducible assumption
    | (extract_lets +onlyGivenNames x; first
      | (have hx : State.mems x = s.mems := ?_; clear_value x; rename' x => y; on_goal 2 => (dsimp -zeta only [x] <;> clear x))
      | (clear_value x; rename' x => y)
      | (rename' x => y))
    | with_reducible refine (mems_noteRwp ..).trans ?_
    | with_reducible refine (mems_updFport ..).trans ?_
    | with_reducible refine (mems_leaveUp ..).trans ?_
    | with_reducible refine (mems_finish0 ..).trans ?_
    | split
    | dsimp -zeta only
    | simp -zeta only [*])

@[simp] theorem mems_doLnkTorusWrite (rq : Requester) (val : W32) (s : State) :
    (doLnkTorusWrite rq val s).mems = s.mems := by
  unfold doLnkTorusWrite
  repeat' (first
    | with_reducible rfl
    | with_reducible refine (mems_configWarn ..).trans ?_
    | with_reducible refine (mems_noteRwp ..).trans ?_
    | with_reducible refine (mems_updFab ..).trans ?_
    | split
    | dsimp -zeta only)

@[simp] theorem mems_doLnkRouteWrite (rq : Requester) (id : Nat) (val : Byte) (s : State) :
    (doLnkRouteWrite rq id val s).mems = s.mems := by
  unfold doLnkRouteWrite
  repeat' (first | with_reducible rfl | with_reducible refine (mems_updFab ..).trans ?_ | split)

@[simp] theorem mems_doLnkCreditWrite (rq : Requester) (val : W64) (s : State) :
    (doLnkCreditWrite rq val s).mems = s.mems := by
  unfold doLnkCreditWrite
  repeat' (first | with_reducible rfl | with_reducible refine (mems_configWarn ..).trans ?_ | with_reducible refine (mems_updFab ..).trans ?_ | split)

/-! ## Windows -/

@[simp] theorem mems_closeIfIdle (n : Nat) (s : State) :
    (closeIfIdle n s).mems = s.mems := by
  unfold closeIfIdle
  repeat' (first | with_reducible rfl | with_reducible refine (mems_finish0 ..).trans ?_ | with_reducible refine (mems_updFab ..).trans ?_ | split)

@[simp] theorem mems_doWinClose (cid : Nat) (s : State) :
    (doWinClose cid s).mems = s.mems := by
  unfold doWinClose
  repeat' (first
    | with_reducible rfl
    | with_reducible assumption
    | (extract_lets +onlyGivenNames x; first
      | (have hx : State.mems x = s.mems := ?_; clear_value x; rename' x => y; on_goal 2 => (dsimp -zeta only [x] <;> clear x))
      | (clear_value x; rename' x => y)
      | (rename' x => y))
    | with_reducible refine (mems_startCmd ..).trans ?_
    | with_reducible refine (mems_finish0 ..).trans ?_
    | with_reducible refine (mems_closeIfIdle ..).trans ?_
    | with_reducible refine (mems_updFab ..).trans ?_
    | split
    | dsimp -zeta only
    | simp -zeta only [*])

@[simp] theorem mems_winSend (q : WReq) (s : State) :
    (winSend q s).mems = s.mems := by
  unfold winSend
  repeat' (first
    | with_reducible rfl
    | with_reducible refine (mems_updFab ..).trans ?_
    | with_reducible refine (mems_routeFlit ..).trans ?_
    | with_reducible refine (mems_emit ..).trans ?_
    | with_reducible refine (mems_foldl _ ?_ _ _).trans ?_
    | with_reducible refine (mems_fold2 _ ?_ _ _).trans ?_
    | (intro s _ _)
    | (intro s _)
    | split
    | dsimp -zeta only)

@[simp] theorem mems_winAdd (q : WReq) (s : State) :
    (winAdd q s).mems = s.mems := by
  unfold winAdd
  repeat' (first
    | with_reducible rfl
    | with_reducible assumption
    | (extract_lets +onlyGivenNames x; first
      | (have hx : State.mems x = s.mems := ?_; clear_value x; rename' x => y; on_goal 2 => (dsimp -zeta only [x] <;> clear x))
      | (clear_value x; rename' x => y)
      | (rename' x => y))
    | with_reducible refine (mems_updFab ..).trans ?_
    | with_reducible refine (mems_winSend ..).trans ?_
    | split
    | dsimp -zeta only
    | simp -zeta only [*])

@[simp] theorem mems_poisonMoves (g : Nat) (ms : List (Nat × Nat × Nat)) (s : State) :
    (poisonMoves g ms s).mems = s.mems := by
  unfold poisonMoves
  repeat' (first
    | with_reducible rfl
    | with_reducible refine (mems_updPhys _ _ _ (by intro _; rfl)).trans ?_
    | with_reducible refine (mems_foldl _ ?_ _ _).trans ?_
    | with_reducible refine (mems_fold2 _ ?_ _ _).trans ?_
    | (intro s _ _)
    | (intro s _)
    | split
    | dsimp -zeta only)

@[simp] theorem mems_winLocalWrite (g ser : Nat) (ws : List BitW) (s : State) :
    (winLocalWrite g ser ws s).mems = s.mems := by
  unfold winLocalWrite
  repeat' (first | with_reducible rfl | with_reducible refine (mems_localWrite ..).trans ?_ | split)

@[simp] theorem mems_winRung3 (g ser : Nat) (js : List Nat) (s : State) :
    (winRung3 g ser js s).mems = s.mems := by
  unfold winRung3
  repeat' (first
    | with_reducible rfl
    | with_reducible refine (mems_laneWrite ..).trans ?_
    | with_reducible refine (mems_noteRung ..).trans ?_
    | with_reducible refine (mems_updGuard ..).trans ?_
    | with_reducible refine (mems_foldl _ ?_ _ _).trans ?_
    | with_reducible refine (mems_fold2 _ ?_ _ _).trans ?_
    | (intro s _ _)
    | (intro s _)
    | split
    | dsimp -zeta only)

@[simp] theorem mems_refusedAt (ctx p g : Nat) (s : State) :
    (refusedAt ctx p g s).mems = s.mems := by
  unfold refusedAt
  repeat' (first | with_reducible rfl | with_reducible refine (mems_updPed2 ..).trans ?_ | with_reducible refine (mems_updCtx ..).trans ?_ | split)

@[simp] theorem mems_countRefused (s0 : State) (w : Option Win) (off n : Nat) (s : State) :
    (countRefused s0 w off n s).mems = s.mems := by
  unfold countRefused
  repeat' (first
    | with_reducible rfl
    | with_reducible assumption
    | (extract_lets +onlyGivenNames x; first
      | (have hx : State.mems x = s.mems := ?_; clear_value x; rename' x => y; on_goal 2 => (dsimp -zeta only [x] <;> clear x))
      | (clear_value x; rename' x => y)
      | (rename' x => y))
    | with_reducible refine (mems_refusedAt ..).trans ?_
    | split
    | dsimp -zeta only
    | simp -zeta only [*])

@[simp] theorem mems_rsemPart (n : Nat) (w : Win) (x : WinSide) (src k bytes : Nat) (s : State) :
    (rsemPart n w x src k bytes s).mems = s.mems := by
  unfold rsemPart
  repeat' (first
    | with_reducible rfl
    | with_reducible assumption
    | (extract_lets +onlyGivenNames x; first
      | (have hx : State.mems x = s.mems := ?_; clear_value x; rename' x => y; on_goal 2 => (dsimp -zeta only [x] <;> clear x))
      | (clear_value x; rename' x => y)
      | (rename' x => y))
    | with_reducible refine (mems_updFab ..).trans ?_
    | with_reducible refine (mems_semAdd ..).trans ?_
    | with_reducible refine (mems_updSeg ..).trans ?_
    | split
    | dsimp -zeta only
    | simp -zeta only [*])

@[simp] theorem mems_winSignal (n : Nat) (w : Win) (x : WinSide) (src off len : Nat) (s : State) :
    (winSignal n w x src off len s).mems = s.mems := by
  unfold winSignal
  repeat' (first
    | with_reducible rfl
    | with_reducible assumption
    | (extract_lets +onlyGivenNames x; first
      | (have hx : State.mems x = s.mems := ?_; clear_value x; rename' x => y; on_goal 2 => (dsimp -zeta only [x] <;> clear x))
      | (clear_value x; rename' x => y)
      | (rename' x => y))
    | with_reducible refine (mems_rsemPart ..).trans ?_
    | with_reducible refine (mems_foldl _ ?_ _ _).trans ?_
    | with_reducible refine (mems_fold2 _ ?_ _ _).trans ?_
    | (intro s _ _)
    | (intro s _)
    | split
    | dsimp -zeta only
    | simp -zeta only [*])

@[simp] theorem mems_winReply (f : Flit) (op len status : Nat) (payload : List Byte) (bad : Bool) (s : State) :
    (winReply f op len status payload bad s).mems = s.mems := by
  unfold winReply
  repeat' (first | with_reducible rfl | with_reducible refine (mems_emit ..).trans ?_ | with_reducible refine (mems_routeFlit ..).trans ?_ | split)

@[simp] theorem mems_ackUnit (n : Nat) (f : Flit) (s : State) :
    (ackUnit n f s).mems = s.mems := by
  unfold ackUnit
  repeat' (first
    | with_reducible rfl
    | with_reducible assumption
    | (extract_lets +onlyGivenNames x; first
      | (have hx : State.mems x = s.mems := ?_; clear_value x; rename' x => y; on_goal 2 => (dsimp -zeta only [x] <;> clear x))
      | (clear_value x; rename' x => y)
      | (rename' x => y))
    | with_reducible refine (mems_winReply ..).trans ?_
    | with_reducible refine (mems_updFab ..).trans ?_
    | split
    | dsimp -zeta only
    | simp -zeta only [*])

@[simp] theorem mems_winRead (f : Flit) (len : Nat) (got : List (Nat × Byte × Bool)) (s : State) :
    (winRead f len got s).mems = s.mems := by
  unfold winRead
  repeat' (first | with_reducible rfl | with_reducible refine (mems_winReply ..).trans ?_ | split)

@[simp] theorem mems_winRequests (n : Nat) (w : Win) (o : Obj) (f : Flit) (x : WinSide) (s : State) :
    (winRequests n w o f x s).mems = s.mems := by
  unfold winRequests
  repeat' (first
    | with_reducible rfl
    | with_reducible refine (mems_addReqAt ..).trans ?_
    | with_reducible refine (mems_foldl _ ?_ _ _).trans ?_
    | with_reducible refine (mems_fold2 _ ?_ _ _).trans ?_
    | (intro s _ _)
    | (intro s _)
    | split
    | dsimp -zeta only)

@[simp] theorem mems_endAccess (a : WinAcc) (s : State) :
    (endAccess a s).mems = s.mems := by
  unfold endAccess
  repeat' (first
    | with_reducible rfl
    | with_reducible assumption
    | (extract_lets +onlyGivenNames x; first
      | (have hx : State.mems x = s.mems := ?_; clear_value x; rename' x => y; on_goal 2 => (dsimp -zeta only [x] <;> clear x))
      | (clear_value x; rename' x => y)
      | (rename' x => y))
    | with_reducible refine (mems_updFab ..).trans ?_
    | with_reducible refine (mems_winSignal ..).trans ?_
    | with_reducible refine (mems_closeIfIdle ..).trans ?_
    | with_reducible refine (mems_winRead ..).trans ?_
    | with_reducible refine (mems_ackUnit ..).trans ?_
    | split
    | dsimp -zeta only
    | simp -zeta only [*])

@[simp] theorem mems_serveScratch (n : Nat) (w : Win) (f : Option Flit) (x : WinSide) (src off len : Nat) (data : List Byte) (s : State) :
    (serveScratch n w f x src off len data s).mems = s.mems := by
  unfold serveScratch
  repeat' (first
    | with_reducible rfl
    | with_reducible assumption
    | (extract_lets +onlyGivenNames x; first
      | (have hx : State.mems x = s.mems := ?_; clear_value x; rename' x => y; on_goal 2 => (dsimp -zeta only [x] <;> clear x))
      | (clear_value x; rename' x => y)
      | (rename' x => y))
    | with_reducible refine (mems_updFab ..).trans ?_
    | with_reducible refine (mems_queueLanes ..).trans ?_
    | with_reducible refine (mems_endAccess ..).trans ?_
    | with_reducible refine (mems_foldl _ ?_ _ _).trans ?_
    | with_reducible refine (mems_fold2 _ ?_ _ _).trans ?_
    | (intro s _ _)
    | (intro s _)
    | split
    | dsimp -zeta only
    | simp -zeta only [*])

@[simp] theorem mems_doWindowAccessArrive (f : Flit) (x : WinSide) (s : State) :
    (doWindowAccessArrive f x s).mems = s.mems := by
  unfold doWindowAccessArrive
  repeat' (first
    | with_reducible rfl
    | with_reducible assumption
    | (extract_lets +onlyGivenNames x; first
      | (have hx : State.mems x = s.mems := ?_; clear_value x; rename' x => y; on_goal 2 => (dsimp -zeta only [x] <;> clear x))
      | (have hx : State.mems x.2 = s.mems := ?_; clear_value x; rename' x => y; on_goal 2 => (dsimp -zeta only [x] <;> clear x))
      | (have hx : State.mems x.2.2 = s.mems := ?_; clear_value x; rename' x => y; on_goal 2 => (dsimp -zeta only [x] <;> clear x))
      | (have hx : ∀ s, State.mems (x s) = s.mems := ?_; clear_value x; rename' x => y; on_goal 2 => (intro s; dsimp -zeta only [x] <;> clear x))
      | (have hx : ∀ a, State.mems (x a) = s.mems := ?_; clear_value x; rename' x => y; on_goal 2 => (intro a; dsimp -zeta only [x] <;> clear x))
      | (have hx : ∀ a s, State.mems (x a s) = s.mems := ?_; clear_value x; rename' x => y; on_goal 2 => (intro a s; dsimp -zeta only [x] <;> clear x))
      | (clear_value x; rename' x => y)
      | (rename' x => y))
    | with_reducible refine (mems_winReply ..).trans ?_
    | with_reducible refine (mems_countRefused ..).trans ?_
    | with_reducible refine (mems_updFab ..).trans ?_
    | with_reducible refine (mems_ackUnit ..).trans ?_
    | with_reducible refine (mems_winRequests ..).trans ?_
    | with_reducible refine (mems_serveScratch ..).trans ?_
    | split
    | dsimp -zeta only
    | simp -zeta only [*])

/-! ## Lanes -/

@[simp] theorem mems_lineIn (e : PendW) (va : Nat) (s : State) :
    (lineIn e va s).mems = s.mems := by
  unfold lineIn
  repeat' (first
    | with_reducible rfl
    | with_reducible assumption
    | (extract_lets +onlyGivenNames x; first
      | (have hx : State.mems x = s.mems := ?_; clear_value x; rename' x => y; on_goal 2 => (dsimp -zeta only [x] <;> clear x))
      | (clear_value x; rename' x => y)
      | (rename' x => y))
    | with_reducible refine (mems_settle ..).trans ?_
    | with_reducible refine (mems_touchLines ..).trans ?_
    | with_reducible refine (mems_fillLine ..).trans ?_
    | split
    | dsimp -zeta only
    | simp -zeta only [*])

@[simp] theorem mems_lineOut (e : PendW) (va : Nat) (s : State) :
    (lineOut e va s).mems = s.mems := by
  unfold lineOut
  repeat' (first | with_reducible rfl | with_reducible refine (mems_addReqAt ..).trans ?_ | with_reducible refine (mems_workDone ..).trans ?_ | split)

@[simp] theorem mems_lanePassed (q base : Nat) (e : PendW) (lane : Nat) (s : State) :
    (lanePassed q base e lane s).mems = s.mems := by
  unfold lanePassed
  repeat' (first
    | with_reducible rfl
    | with_reducible assumption
    | (extract_lets +onlyGivenNames x; first
      | (have hx : State.mems x = s.mems := ?_; clear_value x; rename' x => y; on_goal 2 => (dsimp -zeta only [x] <;> clear x))
      | (clear_value x; rename' x => y)
      | (rename' x => y))
    | with_reducible refine (mems_noteBytes ..).trans ?_
    | with_reducible refine (mems_updPhys _ _ _ (by intro _; rfl)).trans ?_
    | with_reducible refine (mems_lineIn ..).trans ?_
    | with_reducible refine (mems_lineOut ..).trans ?_
    | with_reducible refine (mems_rungServed ..).trans ?_
    | with_reducible refine (mems_workDone ..).trans ?_
    | with_reducible refine (mems_updFab ..).trans ?_
    | with_reducible refine (mems_endAccess ..).trans ?_
    | with_reducible refine (mems_foldl _ ?_ _ _).trans ?_
    | with_reducible refine (mems_fold2 _ ?_ _ _).trans ?_
    | (intro s _ _)
    | (intro s _)
    | split
    | dsimp -zeta only
    | simp -zeta only [*])

@[simp] theorem mems_noteCorrected (s : State) :
    (noteCorrected s).mems = s.mems := by
  unfold noteCorrected
  with_reducible rfl

@[simp] theorem mems_loseStep (ctx : Nat) (s : State) :
    (loseStep ctx s).mems = s.mems := by
  unfold loseStep
  repeat' (first | with_reducible rfl | with_reducible refine (mems_stopSeg ..).trans ?_ | split)

@[simp] theorem mems_eccStep (s : State) :
    (eccStep s).mems = s.mems := by
  unfold eccStep
  repeat' (first
    | with_reducible rfl
    | with_reducible assumption
    | (extract_lets +onlyGivenNames x; first
      | (have hx : State.mems x = s.mems := ?_; clear_value x; rename' x => y; on_goal 2 => (dsimp -zeta only [x] <;> clear x))
      | (clear_value x; rename' x => y)
      | (rename' x => y))
    | with_reducible refine (mems_updPhys _ _ _ (by intro _; rfl)).trans ?_
    | with_reducible refine (mems_noteCorrected ..).trans ?_
    | with_reducible refine (mems_updPed2 ..).trans ?_
    | with_reducible refine (mems_updGrain ..).trans ?_
    | with_reducible refine (mems_updHz _ _ (by rfl)).trans ?_
    | with_reducible refine (mems_loseStep ..).trans ?_
    | (intro s _ _)
    | (intro s _)
    | (intro s)
    | split
    | dsimp -zeta only
    | simp -zeta only [*])

/-! ## Sync -/

@[simp] theorem mems_noteLateBarrier (i : Iss) (planned : Nat) (s : State) :
    (noteLateBarrier i planned s).mems = s.mems := by
  unfold noteLateBarrier
  repeat' (first
    | with_reducible rfl
    | with_reducible assumption
    | (extract_lets +onlyGivenNames x; first
      | (have hx : State.mems x = s.mems := ?_; clear_value x; rename' x => y; on_goal 2 => (dsimp -zeta only [x] <;> clear x))
      | (clear_value x; rename' x => y)
      | (rename' x => y))
    | with_reducible refine (mems_updPed2 ..).trans ?_
    | split
    | dsimp -zeta only
    | simp -zeta only [*])

@[simp] theorem mems_releaseBarrier (ctx bid : Nat) (s : State) :
    (releaseBarrier ctx bid s).mems = s.mems := by
  unfold releaseBarrier
  with_reducible rfl

@[simp] theorem mems_barrierAct (i : Iss) (s : State) :
    (barrierAct i s).mems = s.mems := by
  unfold barrierAct
  repeat' (first
    | with_reducible rfl
    | with_reducible assumption
    | (extract_lets +onlyGivenNames x; first
      | (have hx : State.mems x = s.mems := ?_; clear_value x; rename' x => y; on_goal 2 => (dsimp -zeta only [x] <;> clear x))
      | (clear_value x; rename' x => y)
      | (rename' x => y))
    | with_reducible refine (mems_updSeg ..).trans ?_
    | with_reducible refine (mems_setWaitFor ..).trans ?_
    | with_reducible refine (mems_releaseBarrier ..).trans ?_
    | with_reducible refine (mems_noteLateBarrier ..).trans ?_
    | split
    | dsimp -zeta only
    | simp -zeta only [*])

@[simp] theorem mems_doBarrier (g t : Nat) (s : State) :
    (doBarrier g t s).mems = s.mems := by
  unfold doBarrier
  exact mems_issueRow _ _ _ (fun _ _ => mems_barrierAct ..) _ _ _

@[simp] theorem mems_semWaitAct (i : Iss) (s : State) :
    (semWaitAct i s).mems = s.mems := by
  unfold semWaitAct
  repeat' (first
    | with_reducible rfl
    | with_reducible assumption
    | (extract_lets +onlyGivenNames x; first
      | (have hx : State.mems x = s.mems := ?_; clear_value x; rename' x => y; on_goal 2 => (dsimp -zeta only [x] <;> clear x))
      | (clear_value x; rename' x => y)
      | (rename' x => y))
    | with_reducible refine (mems_setWaitFor ..).trans ?_
    | with_reducible refine (mems_updCtx ..).trans ?_
    | with_reducible refine (mems_semGrant ..).trans ?_
    | split
    | dsimp -zeta only
    | simp -zeta only [*])

@[simp] theorem mems_semSignalAct (i : Iss) (s : State) :
    (semSignalAct i s).mems = s.mems := by
  unfold semSignalAct
  repeat' (first | with_reducible rfl | with_reducible refine (mems_addPrep ..).trans ?_ | with_reducible refine (mems_semAdd ..).trans ?_ | split)

@[simp] theorem mems_doSemWait (g t : Nat) (s : State) :
    (doSemWait g t s).mems = s.mems := by
  unfold doSemWait
  exact mems_issueRow _ _ _ (fun _ _ => mems_semWaitAct ..) _ _ _

@[simp] theorem mems_doSemSignal (g t : Nat) (s : State) :
    (doSemSignal g t s).mems = s.mems := by
  unfold doSemSignal
  exact mems_issueRow _ _ _ (fun _ _ => mems_semSignalAct ..) _ _ _

@[simp] theorem mems_deadlineAct (i : Iss) (s : State) :
    (deadlineAct i s).mems = s.mems := by
  unfold deadlineAct
  repeat' (first | with_reducible rfl | with_reducible refine (mems_updThr ..).trans ?_ | split)

@[simp] theorem mems_doDeadline (g t : Nat) (s : State) :
    (doDeadline g t s).mems = s.mems := by
  unfold doDeadline
  exact mems_issueRow _ _ _ (fun _ _ => mems_deadlineAct ..) _ _ _

@[simp] theorem mems_clodBeginAct (i : Iss) (s : State) :
    (clodBeginAct i s).mems = s.mems := by
  unfold clodBeginAct
  repeat' (first | with_reducible rfl | with_reducible refine (mems_updThr ..).trans ?_ | split)

@[simp] theorem mems_clodCommitAct (i : Iss) (s : State) :
    (clodCommitAct i s).mems = s.mems := by
  unfold clodCommitAct
  repeat' (first
    | with_reducible rfl
    | with_reducible refine (mems_setWaitFor ..).trans ?_
    | with_reducible refine (mems_updClod ..).trans ?_
    | split
    | dsimp -zeta only)

@[simp] theorem mems_clodAbortAct (i : Iss) (s : State) :
    (clodAbortAct i s).mems = s.mems := by
  unfold clodAbortAct
  repeat' (first | with_reducible rfl | with_reducible refine (mems_updThr ..).trans ?_ | with_reducible refine (mems_updClod ..).trans ?_ | split)

@[simp] theorem mems_doClodBegin (g t : Nat) (s : State) :
    (doClodBegin g t s).mems = s.mems := by
  unfold doClodBegin
  exact mems_issueRow _ _ _ (fun _ _ => mems_clodBeginAct ..) _ _ _

@[simp] theorem mems_doClodCommit (g t : Nat) (s : State) :
    (doClodCommit g t s).mems = s.mems := by
  unfold doClodCommit
  exact mems_issueRow _ _ _ (fun _ _ => mems_clodCommitAct ..) _ _ _

@[simp] theorem mems_doClodAbort (g t : Nat) (s : State) :
    (doClodAbort g t s).mems = s.mems := by
  unfold doClodAbort
  exact mems_issueRow _ _ _ (fun _ _ => mems_clodAbortAct ..) _ _ _

@[simp] theorem mems_specBeginAct (i : Iss) (s : State) :
    (specBeginAct i s).mems = s.mems := by
  unfold specBeginAct
  repeat' (first | with_reducible rfl | with_reducible refine (mems_updThr ..).trans ?_ | with_reducible refine (mems_bump ..).trans ?_ | split)

@[simp] theorem mems_doSpecBegin (g t : Nat) (s : State) :
    (doSpecBegin g t s).mems = s.mems := by
  unfold doSpecBegin
  exact mems_issueRow _ _ _ (fun _ _ => mems_specBeginAct ..) _ _ _

@[simp] theorem mems_enterAlt (g t altLen : Nat) (s : State) :
    (enterAlt g t altLen s).mems = s.mems := by
  unfold enterAlt
  repeat' (first | with_reducible rfl | with_reducible refine (mems_updGrain ..).trans ?_ | with_reducible refine (mems_updThr ..).trans ?_ | split)

@[simp] theorem mems_rerunDiff (ctx item idx : Nat) (s : State) :
    (rerunDiff ctx item idx s).mems = s.mems := by
  unfold rerunDiff
  repeat' (first | with_reducible rfl | with_reducible refine (mems_postRec ..).trans ?_ | with_reducible refine (mems_updCtx ..).trans ?_ | split)

@[simp] theorem mems_secureMarkAct (i : Iss) (s : State) :
    (secureMarkAct i s).mems = s.mems := by
  unfold secureMarkAct
  repeat' (first
    | with_reducible rfl
    | with_reducible assumption
    | (extract_lets +onlyGivenNames x; first
      | (have hx : State.mems x = s.mems := ?_; clear_value x; rename' x => y; on_goal 2 => (dsimp -zeta only [x] <;> clear x))
      | (clear_value x; rename' x => y)
      | (rename' x => y))
    | with_reducible refine (mems_consumePoison ..).trans ?_
    | with_reducible refine (mems_updCtx ..).trans ?_
    | with_reducible refine (mems_segStatus ..).trans ?_
    | with_reducible refine (mems_rerunDiff ..).trans ?_
    | split
    | dsimp -zeta only
    | simp -zeta only [*])

@[simp] theorem mems_doSecureMark (g t : Nat) (s : State) :
    (doSecureMark g t s).mems = s.mems := by
  unfold doSecureMark
  exact mems_issueRow _ _ _ (fun _ _ => mems_secureMarkAct ..) _ _ _

@[simp] theorem mems_endClods (i : Iss) (s : State) :
    (endClods i s).mems = s.mems := by
  unfold endClods
  repeat' (first
    | with_reducible rfl
    | with_reducible refine (mems_updClod ..).trans ?_
    | with_reducible refine (mems_failClod ..).trans ?_
    | with_reducible refine (mems_foldl _ ?_ _ _).trans ?_
    | with_reducible refine (mems_fold2 _ ?_ _ _).trans ?_
    | (intro s _ _)
    | (intro s _)
    | split
    | dsimp -zeta only)

@[simp] theorem mems_doNotbeforeReached (g t : Nat) (s : State) :
    (doNotbeforeReached g t s).mems = s.mems := by
  unfold doNotbeforeReached
  repeat' (first | with_reducible rfl | with_reducible refine (mems_settle ..).trans ?_ | with_reducible refine (mems_wakePed1 ..).trans ?_ | split)

@[simp] theorem mems_doDescriptorBurstArrive (g t b : Nat) (s : State) :
    (doDescriptorBurstArrive g t b s).mems = s.mems := by
  unfold doDescriptorBurstArrive
  repeat' (first
    | with_reducible rfl
    | with_reducible assumption
    | (extract_lets +onlyGivenNames x; first
      | (have hx : State.mems x = s.mems := ?_; clear_value x; rename' x => y; on_goal 2 => (dsimp -zeta only [x] <;> clear x))
      | (have hx : State.mems x.2 = s.mems := ?_; clear_value x; rename' x => y; on_goal 2 => (dsimp -zeta only [x] <;> clear x))
      | (have hx : State.mems x.2.2 = s.mems := ?_; clear_value x; rename' x => y; on_goal 2 => (dsimp -zeta only [x] <;> clear x))
      | (clear_value x; rename' x => y)
      | (rename' x => y))
    | with_reducible refine (mems_updHz _ _ (by rfl)).trans ?_
    | with_reducible refine (mems_sourceRead ..).trans ?_
    | with_reducible refine (mems_updThr ..).trans ?_
    | with_reducible refine (mems_settle ..).trans ?_
    | with_reducible refine (mems_consumePoison ..).trans ?_
    | with_reducible refine (mems_segStatus ..).trans ?_
    | (intro s _ _)
    | (intro s _)
    | (intro s)
    | split
    | dsimp -zeta only
    | simp -zeta only [*])

@[simp] theorem mems_doPatrolScrubSlot (g : Nat) (banks : List EccResult) (s : State) :
    (doPatrolScrubSlot g banks s).mems = s.mems := by
  unfold doPatrolScrubSlot
  repeat' (first
    | with_reducible rfl
    | with_reducible refine (mems_updPhys _ _ _ (by intro _; rfl)).trans ?_
    | with_reducible refine (mems_updPed2 ..).trans ?_
    | with_reducible refine (mems_foldl _ ?_ _ _).trans ?_
    | with_reducible refine (mems_fold2 _ ?_ _ _).trans ?_
    | (intro s _ _)
    | (intro s _)
    | split
    | dsimp -zeta only)

/-! ## Objects -/

@[simp] theorem mems_allocOn (hzn i j : Nat) (host : Nat × Nat) (s : State) :
    (allocOn hzn i j host s).2.2.mems = s.mems := by
  unfold allocOn
  repeat' (first
    | with_reducible rfl
    | exact mems_allocDrive (r := (_, _)) (by assumption)
    | exact (mems_allocDrive (r := (_, _)) (by assumption)).trans (by assumption)
    | with_reducible refine (mems_allocFrame ..).trans ?_
    | split
    | dsimp -zeta only)

@[simp] theorem mems_doObjAlloc (cid : Nat) (s : State) :
    (doObjAlloc cid s).mems = s.mems := by
  unfold doObjAlloc
  repeat' (first
    | with_reducible rfl
    | with_reducible assumption
    | (extract_lets +onlyGivenNames x; first
      | (have hx : State.mems x = s.mems := ?_; clear_value x; rename' x => y; on_goal 2 => (dsimp -zeta only [x] <;> clear x))
      | (have hx : State.mems x.2 = s.mems := ?_; clear_value x; rename' x => y; on_goal 2 => (dsimp -zeta only [x] <;> clear x))
      | (have hx : State.mems x.2.2 = s.mems := ?_; clear_value x; rename' x => y; on_goal 2 => (dsimp -zeta only [x] <;> clear x))
      | (clear_value x; rename' x => y)
      | (rename' x => y))
    | with_reducible refine (mems_startCmd ..).trans ?_
    | with_reducible refine (mems_finish0 ..).trans ?_
    | with_reducible refine (mems_allocOn ..).trans ?_
    | with_reducible refine (mems_updHz _ _ (by rfl)).trans ?_
    | with_reducible refine (mems_nvmePut ..).trans ?_
    | with_reducible refine (mems_finish ..).trans ?_
    | with_reducible refine (mems_foldl _ ?_ _ _).trans ?_
    | with_reducible refine (mems_fold2 _ ?_ _ _).trans ?_
    | (intro s _ _)
    | (intro s _)
    | split
    | dsimp -zeta only
    | simp -zeta only [*])

@[simp] theorem mems_beginNext (h : W32) (cid : Option Nat) (s : State) :
    (beginNext h cid s).mems = s.mems := by
  unfold beginNext
  repeat' (first
    | with_reducible rfl
    | with_reducible refine (mems_updHz _ _ (by rfl)).trans ?_
    | with_reducible refine (mems_updObj ..).trans ?_
    | with_reducible refine (mems_copyUnits ..).trans ?_
    | (intro s _ _)
    | (intro s _)
    | (intro s)
    | split
    | dsimp -zeta only)

@[simp] theorem mems_startMove (cid : Nat) (o : Obj) (first fin : Nat) (js : List Nat) (q : MoveP) (s : State) :
    (startMove cid o first fin js q s).mems = s.mems := by
  unfold startMove
  repeat' (first
    | with_reducible rfl
    | with_reducible refine (mems_allocOn ..).trans ?_
    | with_reducible refine (mems_beginNext ..).trans ?_
    | with_reducible refine (mems_updHz _ _ (by rfl)).trans ?_
    | with_reducible refine (mems_foldl _ ?_ _ _).trans ?_
    | with_reducible refine (mems_fold2 _ ?_ _ _).trans ?_
    | (intro s _ _)
    | (intro s _)
    | split
    | dsimp -zeta only)

@[simp] theorem mems_endMoves (s : State) :
    (endMoves s).mems = s.mems := by
  unfold endMoves
  repeat' (first
    | with_reducible rfl
    | with_reducible refine (mems_updObj ..).trans ?_
    | with_reducible refine (mems_updHz _ _ (by rfl)).trans ?_
    | with_reducible refine (mems_finish ..).trans ?_
    | with_reducible refine (mems_foldl _ ?_ _ _).trans ?_
    | with_reducible refine (mems_fold2 _ ?_ _ _).trans ?_
    | (intro s _ _)
    | (intro s _)
    | split
    | dsimp -zeta only)

@[simp] theorem mems_copyReach (o : Obj) (j : Nat) (l : Loc) (s : State) :
    (copyReach o j l s).mems = s.mems := by
  unfold copyReach
  repeat' (first | with_reducible rfl | with_reducible refine (mems_hz4Failure ..).trans ?_ | split)

@[simp] theorem mems_doObjPlace (cid : Nat) (s : State) :
    (doObjPlace cid s).mems = s.mems := by
  unfold doObjPlace
  repeat' (first
    | with_reducible rfl
    | with_reducible assumption
    | (extract_lets +onlyGivenNames x; first
      | (have hx : State.mems x = s.mems := ?_; clear_value x; rename' x => y; on_goal 2 => (dsimp -zeta only [x] <;> clear x))
      | (clear_value x; rename' x => y)
      | (rename' x => y))
    | with_reducible refine (mems_startCmd ..).trans ?_
    | with_reducible refine (mems_finish0 ..).trans ?_
    | with_reducible refine (mems_updObj ..).trans ?_
    | with_reducible refine (mems_endMoves ..).trans ?_
    | with_reducible refine (mems_startMove ..).trans ?_
    | with_reducible refine (mems_foldl _ ?_ _ _).trans ?_
    | with_reducible refine (mems_fold2 _ ?_ _ _).trans ?_
    | (intro s _ _)
    | (intro s _)
    | split
    | dsimp -zeta only
    | simp -zeta only [*])

@[simp] theorem mems_doObjMigrate (cid : Nat) (s : State) :
    (doObjMigrate cid s).mems = s.mems := by
  unfold doObjMigrate
  repeat' (first
    | with_reducible rfl
    | with_reducible assumption
    | (extract_lets +onlyGivenNames x; first
      | (have hx : State.mems x = s.mems := ?_; clear_value x; rename' x => y; on_goal 2 => (dsimp -zeta only [x] <;> clear x))
      | (clear_value x; rename' x => y)
      | (rename' x => y))
    | with_reducible refine (mems_startCmd ..).trans ?_
    | with_reducible refine (mems_finish0 ..).trans ?_
    | with_reducible refine (mems_endMoves ..).trans ?_
    | with_reducible refine (mems_startMove ..).trans ?_
    | split
    | dsimp -zeta only
    | simp -zeta only [*])

@[simp] theorem mems_validatePromo (h : W32) (j frame : Nat) (s : State) :
    (validatePromo h j frame s).mems = s.mems := by
  unfold validatePromo
  repeat' (first | with_reducible rfl | with_reducible refine (mems_updObj ..).trans ?_ | split)

@[simp] theorem mems_doDdr5ChannelFailed (ch : Nat) (s : State) :
    (doDdr5ChannelFailed ch s).mems = s.mems := by
  unfold doDdr5ChannelFailed
  repeat' (first
    | with_reducible rfl
    | with_reducible refine (mems_reportDegraded ..).trans ?_
    | with_reducible refine (mems_updHz _ _ (by rfl)).trans ?_
    | (intro s _ _)
    | (intro s _)
    | (intro s)
    | split
    | dsimp -zeta only)

@[simp] theorem mems_doCalibrationWindowStart (ch : Chan) (s : State) :
    (doCalibrationWindowStart ch s).mems = s.mems := by
  unfold doCalibrationWindowStart
  repeat' (first
    | with_reducible rfl
    | with_reducible refine (mems_updHz _ _ (by rfl)).trans ?_
    | (intro s _ _)
    | (intro s _)
    | (intro s)
    | split
    | dsimp -zeta only)

@[simp] theorem mems_doCalibrationWindowEnd (ch : Chan) (s : State) :
    (doCalibrationWindowEnd ch s).mems = s.mems := by
  unfold doCalibrationWindowEnd
  repeat' (first
    | with_reducible rfl
    | with_reducible refine (mems_updHz _ _ (by rfl)).trans ?_
    | (intro s _ _)
    | (intro s _)
    | (intro s)
    | split
    | dsimp -zeta only)

end Sys2Proof.Machine
end

