-- ==== Sys2Proof/Laws/BytesStep.lean ====
section
/-! SUPPORT. What leaves every byte of every memory as it was: reductions, segments, steps and contexts. -/

namespace Sys2Proof.Machine

open Sys2Proof

set_option maxRecDepth 4096
set_option linter.all false

/-! ## Reduction -/

@[simp] theorem mems_doGroupSet (cid : Nat) (s : State) :
    (doGroupSet cid s).mems = s.mems := by
  unfold doGroupSet
  repeat' (first
    | with_reducible rfl
    | with_reducible assumption
    | (extract_lets +onlyGivenNames x; first
      | (have hx : State.mems x = s.mems := ?_; clear_value x; rename' x => y; on_goal 2 => (dsimp -zeta only [x] <;> clear x))
      | (clear_value x; rename' x => y)
      | (rename' x => y))
    | with_reducible refine (mems_startCmd ..).trans ?_
    | with_reducible refine (mems_finish0 ..).trans ?_
    | with_reducible refine (mems_updFab ..).trans ?_
    | with_reducible refine (mems_foldl _ ?_ _ _).trans ?_
    | with_reducible refine (mems_fold2 _ ?_ _ _).trans ?_
    | (intro s _ _)
    | (intro s _)
    | split
    | dsimp -zeta only
    | simp -zeta only [*])

@[simp] theorem mems_doBucketPolicy (cid : Nat) (s : State) :
    (doBucketPolicy cid s).mems = s.mems := by
  unfold doBucketPolicy
  repeat' (first
    | with_reducible rfl
    | with_reducible assumption
    | (extract_lets +onlyGivenNames x; first
      | (have hx : State.mems x = s.mems := ?_; clear_value x; rename' x => y; on_goal 2 => (dsimp -zeta only [x] <;> clear x))
      | (clear_value x; rename' x => y)
      | (rename' x => y))
    | with_reducible refine (mems_startCmd ..).trans ?_
    | with_reducible refine (mems_finish0 ..).trans ?_
    | with_reducible refine (mems_updFab ..).trans ?_
    | split
    | dsimp -zeta only
    | simp -zeta only [*])

@[simp] theorem mems_flushAt (k n : Nat) (s : State) :
    (flushAt k n s).mems = s.mems := by
  unfold flushAt
  repeat' (first | with_reducible rfl | with_reducible refine (mems_updFab ..).trans ?_ | split)

@[simp] theorem mems_noteFlush (ftz : Bool) (b : Bucket) (sc : FVal) (promo : Bool) (k : Nat) (l : List W32) (s : State) :
    (noteFlush ftz b sc promo k l s).mems = s.mems := by
  unfold noteFlush
  repeat' (first | with_reducible rfl | with_reducible refine (mems_noteStk ..).trans ?_ | with_reducible refine (mems_flushAt ..).trans ?_ | split)

@[simp] theorem mems_updInst (tag : Nat) (f : Inst → Inst) (s : State) :
    (updInst tag f s).mems = s.mems := by
  unfold updInst
  repeat' (first | with_reducible rfl | with_reducible refine (mems_updFab ..).trans ?_ | split)

@[simp] theorem mems_updChunk (tag k : Nat) (f : Chunk → Chunk) (s : State) :
    (updChunk tag k f s).mems = s.mems := by
  unfold updChunk
  repeat' (first | with_reducible rfl | with_reducible refine (mems_updInst ..).trans ?_ | split)

@[simp] theorem mems_startInst (tag : Nat) (step : W64) (s : State) :
    (startInst tag step s).mems = s.mems := by
  unfold startInst
  repeat' (first
    | with_reducible rfl
    | with_reducible refine (mems_updFab ..).trans ?_
    | with_reducible refine (mems_freeOwed ..).trans ?_
    | split
    | dsimp -zeta only)

@[simp] theorem mems_sendChunk (b : Bucket) (tag k phase dst slot : Nat) (promo : Bool) (fs : List (List Byte)) (c : Chunk) (s : State) :
    (sendChunk b tag k phase dst slot promo fs c s).mems = s.mems := by
  unfold sendChunk
  repeat' (first
    | with_reducible rfl
    | with_reducible refine (mems_routeFlit ..).trans ?_
    | with_reducible refine (mems_updInst ..).trans ?_
    | with_reducible refine (mems_foldl _ ?_ _ _).trans ?_
    | with_reducible refine (mems_fold2 _ ?_ _ _).trans ?_
    | (intro s _ _)
    | (intro s _)
    | split
    | dsimp -zeta only)

@[simp] theorem mems_drawRest (tag : Nat) (s : State) :
    (drawRest tag s).mems = s.mems := by
  unfold drawRest
  repeat' (first
    | with_reducible rfl
    | with_reducible refine (mems_freeBits ..).trans ?_
    | with_reducible refine (mems_freeBool ..).trans ?_
    | with_reducible refine (mems_updInst ..).trans ?_
    | split
    | dsimp -zeta only)

@[simp] theorem mems_endInst (tag : Nat) (s : State) :
    (endInst tag s).mems = s.mems := by
  unfold endInst
  repeat' (first
    | with_reducible rfl
    | with_reducible assumption
    | (extract_lets +onlyGivenNames x; first
      | (have hx : State.mems x = s.mems := ?_; clear_value x; rename' x => y; on_goal 2 => (dsimp -zeta only [x] <;> clear x))
      | (clear_value x; rename' x => y)
      | (rename' x => y))
    | with_reducible refine (mems_drawRest ..).trans ?_
    | with_reducible refine (mems_updInst ..).trans ?_
    | with_reducible refine (mems_updFab ..).trans ?_
    | with_reducible refine (mems_updCtx ..).trans ?_
    | with_reducible refine (mems_foldl _ ?_ _ _).trans ?_
    | with_reducible refine (mems_fold2 _ ?_ _ _).trans ?_
    | (intro s _ _)
    | (intro s _)
    | split
    | dsimp -zeta only
    | simp -zeta only [*])

@[simp] theorem mems_endIfOver (tag : Nat) (s : State) :
    (endIfOver tag s).mems = s.mems := by
  unfold endIfOver
  repeat' (first | with_reducible rfl | with_reducible refine (mems_endInst ..).trans ?_ | split)

@[simp] theorem mems_serveWait (g : Nat) (o : OutD) (s : State) :
    (serveWait g o s).mems = s.mems := by
  unfold serveWait
  repeat' (first
    | with_reducible rfl
    | with_reducible assumption
    | (extract_lets +onlyGivenNames x; first
      | (have hx : State.mems x = s.mems := ?_; clear_value x; rename' x => y; on_goal 2 => (dsimp -zeta only [x] <;> clear x))
      | (clear_value x; rename' x => y)
      | (rename' x => y))
    | with_reducible refine (mems_noteStk ..).trans ?_
    | with_reducible refine (mems_setCounts ..).trans ?_
    | with_reducible refine (mems_localWrite ..).trans ?_
    | with_reducible refine (mems_flushAt ..).trans ?_
    | with_reducible refine (mems_drawRest ..).trans ?_
    | with_reducible refine (mems_workDone ..).trans ?_
    | with_reducible refine (mems_endIfOver ..).trans ?_
    | with_reducible refine (mems_updInst ..).trans ?_
    | with_reducible refine (mems_foldl _ ?_ _ _).trans ?_
    | with_reducible refine (mems_fold2 _ ?_ _ _).trans ?_
    | (intro s _ _)
    | (intro s _)
    | split
    | dsimp -zeta only
    | simp -zeta only [*])

@[simp] theorem mems_serveWaits (tag : Nat) (s : State) :
    (serveWaits tag s).mems = s.mems := by
  unfold serveWaits
  repeat' (first
    | with_reducible rfl
    | with_reducible refine (mems_serveWait ..).trans ?_
    | with_reducible refine (mems_foldl _ ?_ _ _).trans ?_
    | with_reducible refine (mems_fold2 _ ?_ _ _).trans ?_
    | (intro s _ _)
    | (intro s _)
    | split
    | dsimp -zeta only)

@[simp] theorem mems_failInst (tag : Nat) (status : W16) (cause pkg : Nat) (tell : Bool) (s : State) :
    (failInst tag status cause pkg tell s).mems = s.mems := by
  unfold failInst
  repeat' (first
    | with_reducible rfl
    | with_reducible refine (mems_updInst ..).trans ?_
    | with_reducible refine (mems_postRec ..).trans ?_
    | with_reducible refine (mems_sendCtl ..).trans ?_
    | with_reducible refine (mems_segStatus ..).trans ?_
    | with_reducible refine (mems_serveWaits ..).trans ?_
    | with_reducible refine (mems_endInst ..).trans ?_
    | with_reducible refine (mems_foldl _ ?_ _ _).trans ?_
    | with_reducible refine (mems_fold2 _ ?_ _ _).trans ?_
    | (intro s _ _)
    | (intro s _)
    | split
    | dsimp -zeta only)

@[simp] theorem mems_siltCopy (b : Bucket) (tag k : Nat) (fs : List (List Byte)) (s : State) :
    (siltCopy b tag k fs s).mems = s.mems := by
  unfold siltCopy
  repeat' (first | with_reducible rfl | with_reducible refine (mems_updCtx ..).trans ?_ | split)

@[simp] theorem mems_failGone (tag : Nat) (s : State) :
    (failGone tag s).mems = s.mems := by
  unfold failGone
  repeat' (first | with_reducible rfl | with_reducible refine (mems_failInst ..).trans ?_ | split)

@[simp] theorem mems_redWaitAct (i : Iss) (s : State) :
    (redWaitAct i s).mems = s.mems := by
  unfold redWaitAct
  repeat' (first
    | with_reducible rfl
    | with_reducible assumption
    | (extract_lets +onlyGivenNames x; first
      | (have hx : State.mems x = s.mems := ?_; clear_value x; rename' x => y; on_goal 2 => (dsimp -zeta only [x] <;> clear x))
      | (clear_value x; rename' x => y)
      | (rename' x => y))
    | with_reducible refine (mems_setWaitFor ..).trans ?_
    | with_reducible refine (mems_serveWait ..).trans ?_
    | split
    | dsimp -zeta only
    | simp -zeta only [*])

@[simp] theorem mems_doRedWait (g t : Nat) (s : State) :
    (doRedWait g t s).mems = s.mems := by
  unfold doRedWait
  exact mems_issueRow _ _ _ (fun _ _ => mems_redWaitAct ..) _ _ _

@[simp] theorem mems_dropPartials (tag k : Nat) (s : State) :
    (dropPartials tag k s).mems = s.mems := by
  unfold dropPartials
  repeat' (first | with_reducible rfl | with_reducible refine (mems_updChunk ..).trans ?_ | split)

@[simp] theorem mems_doBucketHoldNotice (tag chunk pkg : Nat) (s : State) :
    (doBucketHoldNotice tag chunk pkg s).mems = s.mems := by
  unfold doBucketHoldNotice
  repeat' (first | with_reducible rfl | with_reducible refine (mems_dropPartials ..).trans ?_ | with_reducible refine (mems_updFab ..).trans ?_ | split)

@[simp] theorem mems_holdChunks (ctx : Nat) (s : State) :
    (holdChunks ctx s).mems = s.mems := by
  unfold holdChunks
  repeat' (first
    | with_reducible rfl
    | with_reducible assumption
    | (extract_lets +onlyGivenNames x; first
      | (have hx : State.mems x = s.mems := ?_; clear_value x; rename' x => y; on_goal 2 => (dsimp -zeta only [x] <;> clear x))
      | (clear_value x; rename' x => y)
      | (rename' x => y))
    | with_reducible refine (mems_updFab ..).trans ?_
    | with_reducible refine (mems_freeOwed ..).trans ?_
    | with_reducible refine (mems_dropPartials ..).trans ?_
    | with_reducible refine (mems_sendCtl ..).trans ?_
    | with_reducible refine (mems_foldl _ ?_ _ _).trans ?_
    | with_reducible refine (mems_fold2 _ ?_ _ _).trans ?_
    | (intro s _ _)
    | (intro s _)
    | split
    | dsimp -zeta only
    | simp -zeta only [*])

/-! ## Strata -/

@[simp] theorem mems_updateBank (ctx : Nat) (s : State) :
    (updateBank ctx s).mems = s.mems := by
  unfold updateBank
  repeat' (first
    | with_reducible rfl
    | with_reducible refine (mems_updCtx ..).trans ?_
    | with_reducible refine (mems_rerunDiff ..).trans ?_
    | with_reducible refine (mems_foldl _ ?_ _ _).trans ?_
    | with_reducible refine (mems_fold2 _ ?_ _ _).trans ?_
    | (intro s _ _)
    | (intro s _)
    | split
    | dsimp -zeta only)

@[simp] theorem mems_sendUnits (ctx : Nat) (p : SecPol) (b : W64) (sent : Nat) (s : State) :
    (sendUnits ctx p b sent s).mems = s.mems := by
  unfold sendUnits
  repeat' (first
    | with_reducible rfl
    | with_reducible refine (mems_sendCtl ..).trans ?_
    | with_reducible refine (mems_foldl _ ?_ _ _).trans ?_
    | with_reducible refine (mems_fold2 _ ?_ _ _).trans ?_
    | (intro s _ _)
    | (intro s _)
    | split
    | dsimp -zeta only)

@[simp] theorem mems_startPoint (ctx : Nat) (b : W64) (s : State) :
    (startPoint ctx b s).mems = s.mems := by
  unfold startPoint
  repeat' (first
    | with_reducible rfl
    | with_reducible refine (mems_updObj ..).trans ?_
    | with_reducible refine (mems_updCtx ..).trans ?_
    | with_reducible refine (mems_sendUnits ..).trans ?_
    | with_reducible refine (mems_foldl _ ?_ _ _).trans ?_
    | with_reducible refine (mems_fold2 _ ?_ _ _).trans ?_
    | (intro s _ _)
    | (intro s _)
    | split
    | dsimp -zeta only)

@[simp] theorem mems_sendRisk (ctx : Nat) (s : State) :
    (sendRisk ctx s).mems = s.mems := by
  unfold sendRisk
  repeat' (first | with_reducible rfl | with_reducible refine (mems_sendCtl ..).trans ?_ | with_reducible refine (mems_updCtx ..).trans ?_ | split)

@[simp] theorem mems_takePoint (ctx : Nat) (b : W64) (s : State) :
    (takePoint ctx b s).mems = s.mems := by
  unfold takePoint
  repeat' (first | with_reducible rfl | with_reducible refine (mems_updCtx ..).trans ?_ | with_reducible refine (mems_startPoint ..).trans ?_ | split)

@[simp] theorem mems_resendUnits (ctx : Nat) (s : State) :
    (resendUnits ctx s).mems = s.mems := by
  unfold resendUnits
  repeat' (first
    | with_reducible rfl
    | with_reducible refine (mems_updCtx ..).trans ?_
    | with_reducible refine (mems_sendCtl ..).trans ?_
    | with_reducible refine (mems_sendUnits ..).trans ?_
    | with_reducible refine (mems_foldl _ ?_ _ _).trans ?_
    | with_reducible refine (mems_fold2 _ ?_ _ _).trans ?_
    | (intro s _ _)
    | (intro s _)
    | split
    | dsimp -zeta only)

@[simp] theorem mems_sendDigest (ctx : Nat) (s : State) :
    (sendDigest ctx s).mems = s.mems := by
  unfold sendDigest
  repeat' (first | with_reducible rfl | with_reducible refine (mems_sendCtl ..).trans ?_ | with_reducible refine (mems_updCtx ..).trans ?_ | split)

@[simp] theorem mems_endReplay (ctx : Nat) (s : State) :
    (endReplay ctx s).mems = s.mems := by
  unfold endReplay
  repeat' (first | with_reducible rfl | with_reducible refine (mems_finish ..).trans ?_ | with_reducible refine (mems_updCtx ..).trans ?_ | split)

/-! ## Schedule -/

@[simp] theorem mems_settleFences (ctx : Nat) (s : State) :
    (settleFences ctx s).mems = s.mems := by
  unfold settleFences
  repeat' (first
    | with_reducible rfl
    | with_reducible refine (mems_finish ..).trans ?_
    | with_reducible refine (mems_updCtx ..).trans ?_
    | with_reducible refine (mems_foldl _ ?_ _ _).trans ?_
    | with_reducible refine (mems_fold2 _ ?_ _ _).trans ?_
    | (intro s _ _)
    | (intro s _)
    | split
    | dsimp -zeta only)

@[simp] theorem mems_settleState (ctx : Nat) (s : State) :
    (settleState ctx s).mems = s.mems := by
  unfold settleState
  repeat' (first | with_reducible rfl | with_reducible refine (mems_updCtx ..).trans ?_ | split)

@[simp] theorem mems_endRun (ctx : Nat) (st : W16) (step : W64) (s : State) :
    (endRun ctx st step s).mems = s.mems := by
  unfold endRun
  repeat' (first
    | with_reducible rfl
    | with_reducible refine (mems_finish ..).trans ?_
    | with_reducible refine (mems_updCtx ..).trans ?_
    | with_reducible refine (mems_settleState ..).trans ?_
    | with_reducible refine (mems_foldl _ ?_ _ _).trans ?_
    | with_reducible refine (mems_fold2 _ ?_ _ _).trans ?_
    | (intro s _ _)
    | (intro s _)
    | split
    | dsimp -zeta only)

@[simp] theorem mems_earn (s : State) :
    (earn s).mems = s.mems := by
  unfold earn
  with_reducible rfl

@[simp] theorem mems_takeShares (s : State) :
    (takeShares s).mems = s.mems := by
  unfold takeShares
  with_reducible rfl

@[simp] theorem mems_handover (p ctx : Nat) (s : State) :
    (handover p ctx s).mems = s.mems := by
  unfold handover
  repeat' (first
    | with_reducible rfl
    | with_reducible assumption
    | (extract_lets +onlyGivenNames x; first
      | (have hx : State.mems x = s.mems := ?_; clear_value x; rename' x => y; on_goal 2 => (dsimp -zeta only [x] <;> clear x))
      | (clear_value x; rename' x => y)
      | (rename' x => y))
    | with_reducible refine (mems_updCtx ..).trans ?_
    | with_reducible refine (mems_updPed2 ..).trans ?_
    | split
    | dsimp -zeta only
    | simp -zeta only [*])

@[simp] theorem mems_setPart (p : Nat) (x : LsPart) (s : State) :
    (setPart p x s).mems = s.mems := by
  unfold setPart
  repeat' (first | with_reducible rfl | with_reducible refine (mems_updPed2 ..).trans ?_ | split)

theorem mems_reserveArea {ctx rsize p : Nat} {s r : State} (h : reserveArea ctx rsize p s = some r) : r.mems = s.mems := by
  unfold reserveArea at h; dsimp only at h
  repeat' split at h
  all_goals cases h
  · rfl
  all_goals exact mems_fold2 _ (fun _ _ _ => by simp) _ _

theorem mems_reserveAreas {ctx rsize : Nat} {l : List Nat} {s r : State} (h : reserveAreas ctx rsize l s = some r) :
    r.mems = s.mems := by
  induction l generalizing s with
  | nil => cases h; rfl
  | cons p l ih =>
    rw [reserveAreas, Option.bind_eq_some_iff] at h
    obtain ⟨a, ha, hb⟩ := h
    exact (ih hb).trans (mems_reserveArea ha)

@[simp] theorem mems_settleDie (c : Nat) (s : State) :
    (settleDie c s).mems = s.mems := by
  unfold settleDie
  with_reducible rfl

@[simp] theorem mems_releasePed2 (p : Nat) (s : State) :
    (releasePed2 p s).mems = s.mems := by
  unfold releasePed2
  repeat' (first | with_reducible rfl | with_reducible refine (mems_settleDie ..).trans ?_ | with_reducible refine (mems_updPed2 ..).trans ?_ | split)

@[simp] theorem mems_cleanRuns (ctx n : Nat) (s : State) : (cleanRuns ctx n s).mems = s.mems := by
  induction n generalizing s with
  | zero => rfl
  | succ n ih => unfold cleanRuns; repeat' (first | rfl | split | simp [-Prod.mk.injEq, ih])

@[simp] theorem mems_cleanRun (s : State) (c : Ctx) :
    (cleanRun s c).mems = s.mems := by
  unfold cleanRun
  repeat' (first | with_reducible rfl | with_reducible refine (mems_cleanRuns ..).trans ?_ | split)

@[simp] theorem mems_dropReserved (s : State) :
    (dropReserved s).mems = s.mems := by
  unfold dropReserved
  with_reducible rfl

/-! ## Segments -/

@[simp] theorem mems_takeSelectors (ctx : Nat) (s : State) :
    (takeSelectors ctx s).mems = s.mems := by
  unfold takeSelectors
  repeat' (first
    | with_reducible rfl
    | with_reducible assumption
    | (extract_lets +onlyGivenNames x; first
      | (have hx : State.mems x = s.mems := ?_; clear_value x; rename' x => y; on_goal 2 => (dsimp -zeta only [x] <;> clear x))
      | (clear_value x; rename' x => y)
      | (rename' x => y))
    | with_reducible refine (mems_updCtx ..).trans ?_
    | split
    | dsimp -zeta only
    | simp -zeta only [*])

@[simp] theorem mems_takeBoundary (ctx : Nat) (s : State) :
    (takeBoundary ctx s).mems = s.mems := by
  unfold takeBoundary
  repeat' (first | with_reducible rfl | with_reducible refine (mems_takeSelectors ..).trans ?_ | with_reducible refine (mems_updCtx ..).trans ?_ | split)

@[simp] theorem mems_takeBallast (fp : List Nat) (s : State) :
    (takeBallast fp s).mems = s.mems := by
  unfold takeBallast
  with_reducible rfl

@[simp] theorem mems_loadFirst (g t : Nat) (s : State) :
    (loadFirst g t s).mems = s.mems := by
  unfold loadFirst
  repeat' (first
    | with_reducible rfl
    | with_reducible assumption
    | (extract_lets +onlyGivenNames x; first
      | (have hx : State.mems x = s.mems := ?_; clear_value x; rename' x => y; on_goal 2 => (dsimp -zeta only [x] <;> clear x))
      | (clear_value x; rename' x => y)
      | (rename' x => y))
    | with_reducible refine (mems_updThr ..).trans ?_
    | with_reducible refine (mems_segStatus ..).trans ?_
    | with_reducible refine (mems_consumePoison ..).trans ?_
    | split
    | dsimp -zeta only
    | simp -zeta only [*])

@[simp] theorem mems_askFirst (ctx cid n : Nat) (d : SegD) (s : State) :
    (askFirst ctx cid n d s).mems = s.mems := by
  unfold askFirst
  repeat' (first
    | with_reducible rfl
    | with_reducible refine (mems_updHz _ _ (by rfl)).trans ?_
    | with_reducible refine (mems_updCtx ..).trans ?_
    | with_reducible refine (mems_addReqAt ..).trans ?_
    | with_reducible refine (mems_foldl _ ?_ _ _).trans ?_
    | with_reducible refine (mems_fold2 _ ?_ _ _).trans ?_
    | (intro s _ _)
    | (intro s _)
    | split
    | dsimp -zeta only)

@[simp] theorem mems_startPed2 (ctx period : Nat) (x : Prog) (s : State) : (startPed2 ctx period x s).mems = s.mems := by
  unfold startPed2
  extract_lets p s1 s2 clean s3
  have h1 : s1.mems = s.mems := by dsimp -zeta only [s1]; repeat' (first | with_reducible rfl | split | exact mems_setPart ..)
  have h2 : s2.mems = s1.mems := mems_updPed2 ..
  clear_value s1
  clear_value s2
  have h3 : s3.mems = s2.mems := by
    unfold State.mems
    refine congrArg (Prod.mk _) (congrArg (Prod.mk _) (lsOf_map _ _ ?_))
    intro e
    dsimp only [clean]
    split <;> exact ⟨rfl, rfl⟩
  clear_value s3
  refine (mems_foldl _ ?_ _ _).trans (by rw [h3, h2, h1])
  intro s k
  refine (mems_settle ..).trans (mems_foldl _ ?_ _ _)
  intro s t
  exact mems_loadFirst ..

@[simp] theorem mems_loadEntries (d : SegD) (s : State) :
    (loadEntries d s).mems = s.mems := by
  unfold loadEntries
  repeat' (first
    | with_reducible rfl
    | with_reducible refine (mems_xlatObj ..).trans ?_
    | with_reducible refine (mems_foldl _ ?_ _ _).trans ?_
    | with_reducible refine (mems_fold2 _ ?_ _ _).trans ?_
    | (intro s _ _)
    | (intro s _)
    | split
    | dsimp -zeta only)

@[simp] theorem mems_openStep (ctx : Nat) (first : Bool) (pl : Plan) (seed : Option W64) (s : State) :
    (openStep ctx first pl seed s).mems = s.mems := by
  unfold openStep
  repeat' (first | with_reducible rfl | with_reducible refine (mems_updCtx ..).trans ?_ | split)

@[simp] theorem mems_startSegment (ctx : Nat) (r : SegRun) (pl : Plan) (n : Nat) (d : SegD) (s : State) :
    (startSegment ctx r pl n d s).mems = s.mems := by
  unfold startSegment
  repeat' (first
    | with_reducible rfl
    | with_reducible assumption
    | (extract_lets +onlyGivenNames x; first
      | (have hx : State.mems x = s.mems := ?_; clear_value x; rename' x => y; on_goal 2 => (dsimp -zeta only [x] <;> clear x))
      | (clear_value x; rename' x => y)
      | (rename' x => y))
    | with_reducible refine (mems_takeBallast ..).trans ?_
    | with_reducible refine (mems_takeBoundary ..).trans ?_
    | with_reducible refine (mems_openStep ..).trans ?_
    | with_reducible refine (mems_updCtx ..).trans ?_
    | with_reducible refine (mems_startPed2 ..).trans ?_
    | with_reducible refine (mems_loadEntries ..).trans ?_
    | with_reducible refine (mems_semAdd ..).trans ?_
    | with_reducible refine (mems_foldl _ ?_ _ _).trans ?_
    | with_reducible refine (mems_fold2 _ ?_ _ _).trans ?_
    | (intro s _ _)
    | (intro s _)
    | split
    | dsimp -zeta only
    | simp -zeta only [*])

@[simp] theorem mems_checkRegrow (r : RunSeg) (s : State) :
    (checkRegrow r s).mems = s.mems := by
  unfold checkRegrow
  repeat' (first
    | with_reducible rfl
    | with_reducible refine (mems_updCtx ..).trans ?_
    | with_reducible refine (mems_segStatus ..).trans ?_
    | with_reducible refine (mems_postRec ..).trans ?_
    | with_reducible refine (mems_foldl _ ?_ _ _).trans ?_
    | with_reducible refine (mems_fold2 _ ?_ _ _).trans ?_
    | (intro s _ _)
    | (intro s _)
    | split
    | dsimp -zeta only)

@[simp] theorem mems_releaseShared (r : RunSeg) (s : State) :
    (releaseShared r s).mems = s.mems := by
  unfold releaseShared
  repeat' (first
    | with_reducible rfl
    | with_reducible assumption
    | (extract_lets +onlyGivenNames x; first
      | (have hx : State.mems x = s.mems := ?_; clear_value x; rename' x => y; on_goal 2 => (dsimp -zeta only [x] <;> clear x))
      | (clear_value x; rename' x => y)
      | (rename' x => y))
    | with_reducible refine (mems_postRec ..).trans ?_
    | with_reducible refine (mems_updCtx ..).trans ?_
    | with_reducible refine (mems_foldl _ ?_ _ _).trans ?_
    | with_reducible refine (mems_fold2 _ ?_ _ _).trans ?_
    | (intro s _ _)
    | (intro s _)
    | split
    | dsimp -zeta only
    | simp -zeta only [*])

@[simp] theorem mems_charge (r : RunSeg) (s : State) :
    (charge r s).mems = s.mems := by
  unfold charge
  repeat' (first | with_reducible rfl | with_reducible refine (mems_updCtx ..).trans ?_ | split)

@[simp] theorem mems_settleLease (ctx : Nat) (fp : List Nat) (s : State) :
    (settleLease ctx fp s).mems = s.mems := by
  unfold settleLease
  repeat' (first
    | with_reducible rfl
    | with_reducible refine (mems_updCtx ..).trans ?_
    | with_reducible refine (mems_updPed2 ..).trans ?_
    | with_reducible refine (mems_releasePed2 ..).trans ?_
    | with_reducible refine (mems_settleState ..).trans ?_
    | with_reducible refine (mems_foldl _ ?_ _ _).trans ?_
    | with_reducible refine (mems_fold2 _ ?_ _ _).trans ?_
    | (intro s _ _)
    | (intro s _)
    | split
    | dsimp -zeta only)

@[simp] theorem mems_fwBoundary (fp : List Nat) (s : State) :
    (fwBoundary fp s).mems = s.mems := by
  unfold fwBoundary
  repeat' (first
    | with_reducible rfl
    | with_reducible assumption
    | (extract_lets +onlyGivenNames x; first
      | (have hx : State.mems x = s.mems := ?_; clear_value x; rename' x => y; on_goal 2 => (dsimp -zeta only [x] <;> clear x))
      | (clear_value x; rename' x => y)
      | (rename' x => y))
    | with_reducible refine (mems_foldl _ ?_ _ _).trans ?_
    | with_reducible refine (mems_fold2 _ ?_ _ _).trans ?_
    | (intro s _ _)
    | (intro s _)
    | split
    | dsimp -zeta only
    | simp -zeta only [*])

@[simp] theorem mems_afterSegment (r : RunSeg) (st : W16) (step : W64) (s : State) :
    (afterSegment r st step s).mems = s.mems := by
  unfold afterSegment
  repeat' (first
    | with_reducible rfl
    | with_reducible assumption
    | (extract_lets +onlyGivenNames x; first
      | (have hx : State.mems x = s.mems := ?_; clear_value x; rename' x => y; on_goal 2 => (dsimp -zeta only [x] <;> clear x))
      | (clear_value x; rename' x => y)
      | (rename' x => y))
    | with_reducible refine (mems_updRun ..).trans ?_
    | with_reducible refine (mems_endRun ..).trans ?_
    | split
    | dsimp -zeta only
    | simp -zeta only [*])

@[simp] theorem mems_holdBoundary (fp : List Nat) (s : State) :
    (holdBoundary fp s).mems = s.mems := by
  unfold holdBoundary
  repeat' (first
    | with_reducible rfl
    | with_reducible refine (mems_updPed2 ..).trans ?_
    | with_reducible refine (mems_foldl _ ?_ _ _).trans ?_
    | with_reducible refine (mems_fold2 _ ?_ _ _).trans ?_
    | (intro s _ _)
    | (intro s _)
    | split
    | dsimp -zeta only)

@[simp] theorem mems_endHold (ctx : Nat) (fp : List Nat) (s : State) :
    (endHold ctx fp s).mems = s.mems := by
  unfold endHold
  repeat' (first
    | with_reducible rfl
    | with_reducible refine (mems_updCtx ..).trans ?_
    | with_reducible refine (mems_updPed2 ..).trans ?_
    | with_reducible refine (mems_foldl _ ?_ _ _).trans ?_
    | with_reducible refine (mems_fold2 _ ?_ _ _).trans ?_
    | (intro s _ _)
    | (intro s _)
    | split
    | dsimp -zeta only)

@[simp] theorem mems_watchdogRec (s0 : State) (r : RunSeg) (x : Prog) (s : State) :
    (watchdogRec s0 r x s).mems = s.mems := by
  unfold watchdogRec
  repeat' (first
    | with_reducible rfl
    | with_reducible assumption
    | (extract_lets +onlyGivenNames x; first
      | (have hx : State.mems x = s.mems := ?_; clear_value x; rename' x => y; on_goal 2 => (dsimp -zeta only [x] <;> clear x))
      | (clear_value x; rename' x => y)
      | (rename' x => y))
    | with_reducible refine (mems_postRec ..).trans ?_
    | with_reducible refine (mems_foldl _ ?_ _ _).trans ?_
    | with_reducible refine (mems_fold2 _ ?_ _ _).trans ?_
    | (intro s _ _)
    | (intro s _)
    | split
    | dsimp -zeta only
    | simp -zeta only [*])

@[simp] theorem mems_doSegmentWatchdog (ctx : Nat) (s : State) :
    (doSegmentWatchdog ctx s).mems = s.mems := by
  unfold doSegmentWatchdog
  repeat' (first
    | with_reducible rfl
    | with_reducible refine (mems_stopSeg ..).trans ?_
    | with_reducible refine (mems_watchdogRec ..).trans ?_
    | with_reducible refine (mems_foldl _ ?_ _ _).trans ?_
    | with_reducible refine (mems_fold2 _ ?_ _ _).trans ?_
    | (intro s _ _)
    | (intro s _)
    | split
    | dsimp -zeta only)

@[simp] theorem mems_doFabricDrainEnd (ctx : Nat) (s : State) :
    (doFabricDrainEnd ctx s).mems = s.mems := by
  unfold doFabricDrainEnd
  repeat' (first | with_reducible rfl | with_reducible refine (mems_holdChunks ..).trans ?_ | with_reducible refine (mems_updCtx ..).trans ?_ | split)

@[simp] theorem mems_doDiePark (c : Nat) (s : State) :
    (doDiePark c s).mems = s.mems := by
  unfold doDiePark
  repeat' (first
    | with_reducible rfl
    | split
    | dsimp -zeta only)

@[simp] theorem mems_doGrainPllLock (c : Nat) (s : State) :
    (doGrainPllLock c s).mems = s.mems := by
  unfold doGrainPllLock
  repeat' (first
    | with_reducible rfl
    | split
    | dsimp -zeta only)

@[simp] theorem mems_setXfer (ctx idx : Nat) (x : XferSt) (s : State) :
    (setXfer ctx idx x s).mems = s.mems := by
  unfold setXfer
  repeat' (first | with_reducible rfl | with_reducible refine (mems_updSeg ..).trans ?_ | split)

@[simp] theorem mems_xferReads (die ctx idx : Nat) (e : XferEnt) (o : Obj) (s : State) :
    (xferReads die ctx idx e o s).mems = s.mems := by
  unfold xferReads
  repeat' (first
    | with_reducible rfl
    | with_reducible assumption
    | (extract_lets +onlyGivenNames x; first
      | (have hx : State.mems x = s.mems := ?_; clear_value x; rename' x => y; on_goal 2 => (dsimp -zeta only [x] <;> clear x))
      | (have hx : State.mems x.2 = s.mems := ?_; clear_value x; rename' x => y; on_goal 2 => (dsimp -zeta only [x] <;> clear x))
      | (have hx : State.mems x.2.2 = s.mems := ?_; clear_value x; rename' x => y; on_goal 2 => (dsimp -zeta only [x] <;> clear x))
      | (have hx : ∀ s, State.mems (x s) = s.mems := ?_; clear_value x; rename' x => y; on_goal 2 => (intro s; dsimp -zeta only [x] <;> clear x))
      | (have hx : ∀ a, State.mems (x a) = s.mems := ?_; clear_value x; rename' x => y; on_goal 2 => (intro a; dsimp -zeta only [x] <;> clear x))
      | (have hx : ∀ a s, State.mems (x a s) = s.mems := ?_; clear_value x; rename' x => y; on_goal 2 => (intro a s; dsimp -zeta only [x] <;> clear x))
      | (have hx : ∀ a b s, State.mems (x a b s) = s.mems := ?_; clear_value x; rename' x => y; on_goal 2 => (intro a b s; dsimp -zeta only [x] <;> clear x))
      | (have hx : ∀ a b c s, State.mems (x a b c s) = s.mems := ?_; clear_value x; rename' x => y; on_goal 2 => (intro a b c s; dsimp -zeta only [x] <;> clear x))
      | (have hx : ∀ a b c d s, State.mems (x a b c d s) = s.mems := ?_; clear_value x; rename' x => y; on_goal 2 => (intro a b c d s; dsimp -zeta only [x] <;> clear x))
      | (have hx : ∀ a b c d e s, State.mems (x a b c d e s) = s.mems := ?_; clear_value x; rename' x => y; on_goal 2 => (intro a b c d e s; dsimp -zeta only [x] <;> clear x))
      | (have hx : ∀ a b, State.mems (x a b) = s.mems := ?_; clear_value x; rename' x => y; on_goal 2 => (intro a b; dsimp -zeta only [x] <;> clear x))
      | (have hx : ∀ a b c, State.mems (x a b c) = s.mems := ?_; clear_value x; rename' x => y; on_goal 2 => (intro a b c; dsimp -zeta only [x] <;> clear x))
      | (clear_value x; rename' x => y)
      | (rename' x => y))
    | with_reducible refine (mems_addReqAt ..).trans ?_
    | with_reducible refine (mems_foldl _ ?_ _ _).trans ?_
    | with_reducible refine (mems_fold2 _ ?_ _ _).trans ?_
    | (intro s _ _)
    | (intro s _)
    | split
    | dsimp -zeta only
    | simp -zeta only [*])

@[simp] theorem mems_xferCopies (ctx idx : Nat) (s : State) :
    (xferCopies ctx idx s).mems = s.mems := by
  unfold xferCopies
  repeat' (first
    | with_reducible rfl
    | with_reducible refine (mems_allocFrame ..).trans ?_
    | with_reducible refine (mems_copyUnits ..).trans ?_
    | with_reducible refine (mems_setXfer ..).trans ?_
    | with_reducible refine (mems_foldl _ ?_ _ _).trans ?_
    | with_reducible refine (mems_fold2 _ ?_ _ _).trans ?_
    | (intro s _ _)
    | (intro s _)
    | split
    | dsimp -zeta only)

@[simp] theorem mems_doHubTransferStart (ctx idx : Nat) (s : State) :
    (doHubTransferStart ctx idx s).mems = s.mems := by
  unfold doHubTransferStart
  repeat' (first
    | with_reducible rfl
    | with_reducible assumption
    | (extract_lets +onlyGivenNames x; first
      | (have hx : State.mems x = s.mems := ?_; clear_value x; rename' x => y; on_goal 2 => (dsimp -zeta only [x] <;> clear x))
      | (clear_value x; rename' x => y)
      | (rename' x => y))
    | with_reducible refine (mems_setXfer ..).trans ?_
    | with_reducible refine (mems_xferReads ..).trans ?_
    | with_reducible refine (mems_xferCopies ..).trans ?_
    | with_reducible refine (mems_foldl _ ?_ _ _).trans ?_
    | with_reducible refine (mems_fold2 _ ?_ _ _).trans ?_
    | (intro s _ _)
    | (intro s _)
    | split
    | dsimp -zeta only
    | simp -zeta only [*])

/-! ## Contexts -/

@[simp] theorem mems_doCtxCreate (cid : Nat) (s : State) :
    (doCtxCreate cid s).mems = s.mems := by
  unfold doCtxCreate
  repeat' (first
    | with_reducible rfl
    | with_reducible assumption
    | (extract_lets +onlyGivenNames x; first
      | (have hx : State.mems x = s.mems := ?_; clear_value x; rename' x => y; on_goal 2 => (dsimp -zeta only [x] <;> clear x))
      | (have hx : State.mems x.2 = s.mems := ?_; clear_value x; rename' x => y; on_goal 2 => (dsimp -zeta only [x] <;> clear x))
      | (have hx : State.mems x.2.2 = s.mems := ?_; clear_value x; rename' x => y; on_goal 2 => (dsimp -zeta only [x] <;> clear x))
      | (clear_value x; rename' x => y)
      | (rename' x => y))
    | with_reducible refine (mems_startCmd ..).trans ?_
    | with_reducible refine (mems_finish0 ..).trans ?_
    | with_reducible refine (mems_allocFrames ..).trans ?_
    | with_reducible refine (mems_updFn ..).trans ?_
    | with_reducible refine (mems_finish ..).trans ?_
    | split
    | dsimp -zeta only
    | simp -zeta only [*])

@[simp] theorem mems_closeWindows (ctx : Nat) (s : State) :
    (closeWindows ctx s).mems = s.mems := by
  unfold closeWindows
  repeat' (first
    | with_reducible rfl
    | with_reducible refine (mems_updHz _ _ (by rfl)).trans ?_
    | with_reducible refine (mems_updFab ..).trans ?_
    | with_reducible refine (mems_winReply ..).trans ?_
    | with_reducible refine (mems_foldl _ ?_ _ _).trans ?_
    | with_reducible refine (mems_fold2 _ ?_ _ _).trans ?_
    | (intro s _ _)
    | (intro s _)
    | split
    | dsimp -zeta only)

@[simp] theorem mems_doSetShare (cid : Nat) (s : State) :
    (doSetShare cid s).mems = s.mems := by
  unfold doSetShare
  repeat' (first
    | with_reducible rfl
    | with_reducible assumption
    | (extract_lets +onlyGivenNames x; first
      | (have hx : State.mems x = s.mems := ?_; clear_value x; rename' x => y; on_goal 2 => (dsimp -zeta only [x] <;> clear x))
      | (clear_value x; rename' x => y)
      | (rename' x => y))
    | with_reducible refine (mems_startCmd ..).trans ?_
    | with_reducible refine (mems_finish0 ..).trans ?_
    | with_reducible refine (mems_updPort ..).trans ?_
    | with_reducible refine (mems_updFn ..).trans ?_
    | with_reducible refine (mems_updCtx ..).trans ?_
    | split
    | dsimp -zeta only
    | simp -zeta only [*])

/-! ## Plans -/

@[simp] theorem mems_doPlanLoad (cid : Nat) (s : State) :
    (doPlanLoad cid s).mems = s.mems := by
  unfold doPlanLoad
  repeat' (first
    | with_reducible rfl
    | with_reducible assumption
    | (extract_lets +onlyGivenNames x; first
      | (have hx : State.mems x = s.mems := ?_; clear_value x; rename' x => y; on_goal 2 => (dsimp -zeta only [x] <;> clear x))
      | (clear_value x; rename' x => y)
      | (rename' x => y))
    | with_reducible refine (mems_startCmd ..).trans ?_
    | with_reducible refine (mems_finish0 ..).trans ?_
    | with_reducible refine (mems_finish ..).trans ?_
    | with_reducible refine (mems_updCtx ..).trans ?_
    | split
    | dsimp -zeta only
    | simp -zeta only [*])

@[simp] theorem mems_doPlanUnload (cid : Nat) (s : State) :
    (doPlanUnload cid s).mems = s.mems := by
  unfold doPlanUnload
  repeat' (first
    | with_reducible rfl
    | with_reducible assumption
    | (extract_lets +onlyGivenNames x; first
      | (have hx : State.mems x = s.mems := ?_; clear_value x; rename' x => y; on_goal 2 => (dsimp -zeta only [x] <;> clear x))
      | (clear_value x; rename' x => y)
      | (rename' x => y))
    | with_reducible refine (mems_startCmd ..).trans ?_
    | with_reducible refine (mems_finish0 ..).trans ?_
    | with_reducible refine (mems_updCtx ..).trans ?_
    | split
    | dsimp -zeta only
    | simp -zeta only [*])

@[simp] theorem mems_runBad (cid seg : Nat) (s : State) :
    (runBad cid seg s).mems = s.mems := by
  unfold runBad
  repeat' (first | with_reducible rfl | with_reducible refine (mems_finish ..).trans ?_ | split)

@[simp] theorem mems_doSegFence (cid : Nat) (s : State) :
    (doSegFence cid s).mems = s.mems := by
  unfold doSegFence
  repeat' (first
    | with_reducible rfl
    | with_reducible assumption
    | (extract_lets +onlyGivenNames x; first
      | (have hx : State.mems x = s.mems := ?_; clear_value x; rename' x => y; on_goal 2 => (dsimp -zeta only [x] <;> clear x))
      | (clear_value x; rename' x => y)
      | (rename' x => y))
    | with_reducible refine (mems_startCmd ..).trans ?_
    | with_reducible refine (mems_finish0 ..).trans ?_
    | with_reducible refine (mems_updCtx ..).trans ?_
    | with_reducible refine (mems_finish ..).trans ?_
    | split
    | dsimp -zeta only
    | simp -zeta only [*])

end Sys2Proof.Machine
end

