-- ==== Sys2Proof/Laws/BytesBoard.lean ====
section
/-! SUPPORT. What leaves every byte of every memory as it was: power, start-up, resilience, security, the host interface and registers. -/

namespace Sys2Proof.Machine

open Sys2Proof

set_option maxRecDepth 4096
set_option linter.all false

/-! ## Power -/

@[simp] theorem mems_updDie (c : Nat) (f : DiePwr → DiePwr) (s : State) :
    (updDie c f s).mems = s.mems := by
  unfold updDie
  with_reducible rfl

@[simp] theorem mems_slewTo (f : Nat) (s : State) :
    (slewTo f s).mems = s.mems := by
  unfold slewTo
  split <;> with_reducible rfl

@[simp] theorem mems_clockStep (s : State) :
    (clockStep s).mems = s.mems := by
  unfold clockStep
  repeat' (first | with_reducible rfl | with_reducible refine (mems_slewTo ..).trans ?_ | split)

@[simp] theorem mems_doClockSlewDone (s : State) :
    (doClockSlewDone s).mems = s.mems := by
  unfold doClockSlewDone
  with_reducible rfl

@[simp] theorem mems_voltageStep (c : Nat) (s : State) :
    (voltageStep c s).mems = s.mems := by
  unfold voltageStep
  repeat' (first | with_reducible rfl | with_reducible refine (mems_updDie ..).trans ?_ | split)

@[simp] theorem mems_retireDie (c cause : Nat) (s : State) :
    (retireDie c cause s).mems = s.mems := by
  unfold retireDie
  repeat' (first
    | with_reducible rfl
    | with_reducible refine (mems_retirePed2 ..).trans ?_
    | with_reducible refine (mems_foldl _ ?_ _ _).trans ?_
    | with_reducible refine (mems_fold2 _ ?_ _ _).trans ?_
    | (intro s _ _)
    | (intro s _)
    | split
    | dsimp -zeta only)

@[simp] theorem mems_takeClkctl (s : State) :
    (takeClkctl s).mems = s.mems := by
  unfold takeClkctl
  repeat' (first
    | with_reducible rfl
    | with_reducible assumption
    | (extract_lets +onlyGivenNames x; first
      | (have hx : State.mems x = s.mems := ?_; clear_value x; rename' x => y; on_goal 2 => (dsimp -zeta only [x] <;> clear x))
      | (clear_value x; rename' x => y)
      | (rename' x => y))
    | with_reducible refine (mems_slewTo ..).trans ?_
    | split
    | dsimp -zeta only
    | simp -zeta only [*])

@[simp] theorem mems_ageDies (slack : List Nat) (s : State) :
    (ageDies slack s).mems = s.mems := by
  unfold ageDies
  repeat' (first
    | with_reducible rfl
    | with_reducible assumption
    | (extract_lets +onlyGivenNames x; first
      | (have hx : State.mems x = s.mems := ?_; clear_value x; rename' x => y; on_goal 2 => (dsimp -zeta only [x] <;> clear x))
      | (clear_value x; rename' x => y)
      | (rename' x => y))
    | with_reducible refine (mems_updDie ..).trans ?_
    | with_reducible refine (mems_voltageStep ..).trans ?_
    | with_reducible refine (mems_clockStep ..).trans ?_
    | with_reducible refine (mems_retireDie ..).trans ?_
    | with_reducible refine (mems_foldl _ ?_ _ _).trans ?_
    | with_reducible refine (mems_fold2 _ ?_ _ _).trans ?_
    | (intro s _ _)
    | (intro s _)
    | split
    | dsimp -zeta only
    | simp -zeta only [*])

@[simp] theorem mems_thermalRec (die ev : Nat) (temp : Int) (s : State) :
    (thermalRec die ev temp s).mems = s.mems := by
  unfold thermalRec
  repeat' (first | with_reducible rfl | with_reducible refine (mems_postRec ..).trans ?_ | split)

@[simp] theorem mems_takeTemp (d : Nat) (x : Int) (s : State) :
    (takeTemp d x s).mems = s.mems := by
  unfold takeTemp
  repeat' (first
    | with_reducible rfl
    | with_reducible assumption
    | (extract_lets +onlyGivenNames x; first
      | (have hx : State.mems x = s.mems := ?_; clear_value x; rename' x => y; on_goal 2 => (dsimp -zeta only [x] <;> clear x))
      | (clear_value x; rename' x => y)
      | (rename' x => y))
    | with_reducible refine (mems_updDie ..).trans ?_
    | with_reducible refine (mems_thermalRec ..).trans ?_
    | split
    | dsimp -zeta only
    | simp -zeta only [*])

@[simp] theorem mems_railOut (rail mv : Nat) (s : State) :
    (railOut rail mv s).mems = s.mems := by
  unfold railOut
  repeat' (first
    | with_reducible rfl
    | with_reducible assumption
    | (extract_lets +onlyGivenNames x; first
      | (have hx : State.mems x = s.mems := ?_; clear_value x; rename' x => y; on_goal 2 => (dsimp -zeta only [x] <;> clear x))
      | (clear_value x; rename' x => y)
      | (rename' x => y))
    | with_reducible refine (mems_configWarn ..).trans ?_
    | split
    | dsimp -zeta only
    | simp -zeta only [*])

@[simp] theorem mems_aoFailover (smp : AoSample) (s : State) :
    (aoFailover smp s).mems = s.mems := by
  unfold aoFailover
  repeat' (first
    | with_reducible rfl
    | with_reducible assumption
    | (extract_lets +onlyGivenNames x; first
      | (have hx : State.mems x = s.mems := ?_; clear_value x; rename' x => y; on_goal 2 => (dsimp -zeta only [x] <;> clear x))
      | (clear_value x; rename' x => y)
      | (rename' x => y))
    | with_reducible refine (mems_postRec ..).trans ?_
    | split
    | dsimp -zeta only
    | simp -zeta only [*])

@[simp] theorem mems_takeAlarms (smp : AoSample) (s : State) :
    (takeAlarms smp s).mems = s.mems := by
  unfold takeAlarms
  repeat' (first | with_reducible rfl | with_reducible refine (mems_fireAlarm ..).trans ?_ | split)

@[simp] theorem mems_doAoTick (smp : AoSample) (s : State) :
    (doAoTick smp s).mems = s.mems := by
  unfold doAoTick
  repeat' (first
    | with_reducible rfl
    | with_reducible refine (mems_aoFailover ..).trans ?_
    | with_reducible refine (mems_takeTemp ..).trans ?_
    | with_reducible refine (mems_railOut ..).trans ?_
    | with_reducible refine (mems_postRec ..).trans ?_
    | with_reducible refine (mems_takeAlarms ..).trans ?_
    | with_reducible refine (mems_foldl _ ?_ _ _).trans ?_
    | with_reducible refine (mems_fold2 _ ?_ _ _).trans ?_
    | (intro s _ _)
    | (intro s _)
    | split
    | dsimp -zeta only)

@[simp] theorem mems_moveLevel (s : State) :
    (moveLevel s).mems = s.mems := by
  unfold moveLevel
  with_reducible rfl

@[simp] theorem mems_takeLid (lid : Int) (s : State) :
    (takeLid lid s).mems = s.mems := by
  unfold takeLid
  repeat' (first
    | with_reducible rfl
    | with_reducible assumption
    | (extract_lets +onlyGivenNames x; first
      | (have hx : State.mems x = s.mems := ?_; clear_value x; rename' x => y; on_goal 2 => (dsimp -zeta only [x] <;> clear x))
      | (clear_value x; rename' x => y)
      | (rename' x => y))
    | with_reducible refine (mems_thermalRec ..).trans ?_
    | split
    | dsimp -zeta only
    | simp -zeta only [*])

@[simp] theorem mems_doPowerSample (pkgW : Nat) (dieW : List Nat) (lid : Int) (s : State) :
    (doPowerSample pkgW dieW lid s).mems = s.mems := by
  unfold doPowerSample
  repeat' (first
    | with_reducible rfl
    | with_reducible refine (mems_updDie ..).trans ?_
    | with_reducible refine (mems_takeLid ..).trans ?_
    | with_reducible refine (mems_foldl _ ?_ _ _).trans ?_
    | with_reducible refine (mems_fold2 _ ?_ _ _).trans ?_
    | (intro s _ _)
    | (intro s _)
    | split
    | dsimp -zeta only)

@[simp] theorem mems_doThrottleSaturationTimeout (s : State) :
    (doThrottleSaturationTimeout s).mems = s.mems := by
  unfold doThrottleSaturationTimeout
  repeat' (first | with_reducible rfl | with_reducible refine (mems_clockStep ..).trans ?_ | with_reducible refine (mems_thermalRec ..).trans ?_ | split)

@[simp] theorem mems_doBoundaryHoldAdjust (s : State) :
    (doBoundaryHoldAdjust s).mems = s.mems := by
  unfold doBoundaryHoldAdjust
  repeat' (first
    | with_reducible rfl
    | split
    | dsimp -zeta only)

@[simp] theorem mems_doAvsbusTimeout (c : Nat) (s : State) :
    (doAvsbusTimeout c s).mems = s.mems := by
  unfold doAvsbusTimeout
  repeat' (first
    | with_reducible rfl
    | with_reducible refine (mems_freeBits ..).trans ?_
    | with_reducible refine (mems_railOut ..).trans ?_
    | with_reducible refine (mems_updDie ..).trans ?_
    | split
    | dsimp -zeta only)

@[simp] theorem mems_applyGating (s : State) :
    (applyGating s).mems = s.mems := by
  unfold applyGating
  repeat' (first
    | with_reducible rfl
    | with_reducible refine (mems_gatePed1 ..).trans ?_
    | with_reducible refine (mems_foldl _ ?_ _ _).trans ?_
    | with_reducible refine (mems_fold2 _ ?_ _ _).trans ?_
    | (intro s _ _)
    | (intro s _)
    | split
    | dsimp -zeta only)

@[simp] theorem mems_doPwrCtlWrite (rq : Requester) (val : W32) (s : State) :
    (doPwrCtlWrite rq val s).mems = s.mems := by
  unfold doPwrCtlWrite
  repeat' (first | with_reducible rfl | with_reducible refine (mems_applyGating ..).trans ?_ | with_reducible refine (mems_noteRwp ..).trans ?_ | split)

@[simp] theorem mems_doPwrBallastWrite (rq : Requester) (val : W32) (s : State) :
    (doPwrBallastWrite rq val s).mems = s.mems := by
  unfold doPwrBallastWrite
  repeat' (first
    | with_reducible rfl
    | with_reducible assumption
    | (extract_lets +onlyGivenNames x; first
      | (have hx : State.mems x = s.mems := ?_; clear_value x; rename' x => y; on_goal 2 => (dsimp -zeta only [x] <;> clear x))
      | (clear_value x; rename' x => y)
      | (rename' x => y))
    | with_reducible refine (mems_noteRwp ..).trans ?_
    | split
    | dsimp -zeta only
    | simp -zeta only [*])

/-! ## Startup -/

@[simp] theorem mems_takeAdmin (fn : Nat) (s : State) :
    (takeAdmin fn s).mems = s.mems := by
  unfold takeAdmin
  repeat' (first | with_reducible rfl | with_reducible refine (mems_updFn ..).trans ?_ | split)

@[simp] theorem mems_trialCommit (s : State) :
    (trialCommit s).mems = s.mems := by
  unfold trialCommit
  repeat' (first
    | with_reducible rfl
    | with_reducible refine (mems_writeDir ..).trans ?_
    | with_reducible refine (mems_measureState ..).trans ?_
    | with_reducible refine (mems_measureImage ..).trans ?_
    | split
    | dsimp -zeta only)

@[simp] theorem mems_endCold (outcome reason : Nat) (s : State) :
    (endCold outcome reason s).mems = s.mems := by
  unfold endCold
  repeat' (first
    | with_reducible rfl
    | with_reducible refine (mems_trialCommit ..).trans ?_
    | with_reducible refine (mems_takeAdmin ..).trans ?_
    | with_reducible refine (mems_foldl _ ?_ _ _).trans ?_
    | with_reducible refine (mems_fold2 _ ?_ _ _).trans ?_
    | (intro s _ _)
    | (intro s _)
    | split
    | dsimp -zeta only)

@[simp] theorem mems_measureStart (n : Nat) (event : Nat) (s : State) :
    (measureStart n event s).mems = s.mems := by
  unfold measureStart
  repeat' (first
    | with_reducible rfl
    | with_reducible refine (mems_measure ..).trans ?_
    | with_reducible refine (mems_measureImage ..).trans ?_
    | with_reducible refine (mems_measureState ..).trans ?_
    | split
    | dsimp -zeta only)

@[simp] theorem mems_doFirmwareLoadDone (rom : RomInputs) (s : State) :
    (doFirmwareLoadDone rom s).mems = s.mems := by
  unfold doFirmwareLoadDone
  repeat' (first
    | with_reducible rfl
    | with_reducible assumption
    | (extract_lets +onlyGivenNames x; first
      | (have hx : State.mems x = s.mems := ?_; clear_value x; rename' x => y; on_goal 2 => (dsimp -zeta only [x] <;> clear x))
      | (clear_value x; rename' x => y)
      | (rename' x => y))
    | with_reducible refine (mems_writeDir ..).trans ?_
    | with_reducible refine (mems_measureStart ..).trans ?_
    | with_reducible refine (mems_measureState ..).trans ?_
    | with_reducible refine (mems_takeAdmin ..).trans ?_
    | with_reducible refine (mems_foldl _ ?_ _ _).trans ?_
    | with_reducible refine (mems_fold2 _ ?_ _ _).trans ?_
    | (intro s _ _)
    | (intro s _)
    | split
    | dsimp -zeta only
    | simp -zeta only [*])

@[simp] theorem mems_doDieBringupDone (bridgesOk : Bool) (dead : List Nat) (nonce : BitVec 128) (s : State) :
    (doDieBringupDone bridgesOk dead nonce s).mems = s.mems := by
  unfold doDieBringupDone
  repeat' (first | with_reducible rfl | with_reducible refine (mems_endCold ..).trans ?_ | split)

@[simp] theorem mems_doConfigRecordSelect (s : State) : (doConfigRecordSelect s).mems = s.mems := by
  unfold doConfigRecordSelect
  split
  · rfl
  · dsimp only
    split
    · exact mems_endCold ..
    · split
      · exact mems_foldl _ (fun _ _ => mems_updDie ..) _ { s with boot := _ }
      · exact (mems_configWarn ..).trans (mems_foldl _ (fun _ _ => mems_updDie ..) _ { s with boot := _ })

@[simp] theorem mems_settleP4 (s : State) :
    (settleP4 s).mems = s.mems := by
  unfold settleP4
  with_reducible rfl

@[simp] theorem mems_doHbmTrainingDone (stack : Nat) (ok : Bool) (s : State) :
    (doHbmTrainingDone stack ok s).mems = s.mems := by
  unfold doHbmTrainingDone
  repeat' (first | with_reducible rfl | with_reducible refine (mems_settleP4 ..).trans ?_ | with_reducible refine (mems_endCold ..).trans ?_ | split)

@[simp] theorem mems_tdieWarn (t : TDieTrain) (s : State) :
    (tdieWarn t s).mems = s.mems := by
  unfold tdieWarn
  repeat' (first | with_reducible rfl | with_reducible refine (mems_configWarn ..).trans ?_ | split)

@[simp] theorem mems_doDdr5TrainingDone (found : List TDieTrain) (s : State) :
    (doDdr5TrainingDone found s).mems = s.mems := by
  unfold doDdr5TrainingDone
  repeat' (first
    | with_reducible rfl
    | with_reducible refine (mems_settleP4 ..).trans ?_
    | with_reducible refine (mems_tdieWarn ..).trans ?_
    | with_reducible refine (mems_foldl _ ?_ _ _).trans ?_
    | with_reducible refine (mems_fold2 _ ?_ _ _).trans ?_
    | (intro s _ _)
    | (intro s _)
    | split
    | dsimp -zeta only)

@[simp] theorem mems_doNvmeEnumDone (found : List DriveFound) (s : State) : (doNvmeEnumDone found s).mems = s.mems := by
  unfold doNvmeEnumDone
  split
  · rfl
  · dsimp only
    split
    · split
      · exact mems_settleP4 _
      · exact (mems_settleP4 _).trans (mems_configWarn ..)
    · refine (mems_settleP4 _).trans ((mems_foldl _ (fun _ _ => mems_configWarn ..) _ _).trans ?_)
      exact mems_foldl _ (fun _ _ => mems_configWarn ..) _ { s with hz := _, boot := _ }

@[simp] theorem mems_doStartupSelftestDone (failed : List (Nat × Nat)) (notRun : List Nat) (s : State) :
    (doStartupSelftestDone failed notRun s).mems = s.mems := by
  unfold doStartupSelftestDone
  repeat' (first
    | with_reducible rfl
    | with_reducible refine (mems_learnFailed ..).trans ?_
    | with_reducible refine (mems_endCold ..).trans ?_
    | with_reducible refine (mems_foldl _ ?_ _ _).trans ?_
    | with_reducible refine (mems_fold2 _ ?_ _ _).trans ?_
    | (intro s _ _)
    | (intro s _)
    | split
    | dsimp -zeta only)

@[simp] theorem mems_buildPed2 (p : Nat) (s : State) :
    (buildPed2 p s).mems = s.mems := by
  unfold buildPed2
  repeat' (first
    | with_reducible rfl
    | with_reducible assumption
    | (extract_lets +onlyGivenNames x; first
      | (have hx : State.mems x = s.mems := ?_; clear_value x; rename' x => y; on_goal 2 => (dsimp -zeta only [x] <;> clear x))
      | (clear_value x; rename' x => y)
      | (rename' x => y))
    | with_reducible refine (mems_postRec ..).trans ?_
    | with_reducible refine (mems_learnPed2 ..).trans ?_
    | split
    | dsimp -zeta only
    | simp -zeta only [*])

@[simp] theorem mems_buildPed2s (s : State) :
    (buildPed2s s).mems = s.mems := by
  unfold buildPed2s
  repeat' (first
    | with_reducible rfl
    | with_reducible refine (mems_buildPed2 ..).trans ?_
    | with_reducible refine (mems_foldl _ ?_ _ _).trans ?_
    | with_reducible refine (mems_fold2 _ ?_ _ _).trans ?_
    | (intro s _ _)
    | (intro s _)
    | split
    | dsimp -zeta only)

@[simp] theorem mems_endMap (s : State) :
    (endMap s).mems = s.mems := by
  unfold endMap
  repeat' (first | with_reducible rfl | with_reducible refine (mems_endCold ..).trans ?_ | split)

@[simp] theorem mems_doConfigRecordWrite (s : State) : (doConfigRecordWrite s).mems = s.mems := by
  unfold doConfigRecordWrite
  split
  · rfl
  · simp only [State.mems]
    split <;> rfl

/-! ## Resilience -/

@[simp] theorem mems_failNow (cids : List Nat) (s : State) :
    (failNow cids s).mems = s.mems := by
  unfold failNow
  repeat' (first
    | with_reducible rfl
    | with_reducible refine (mems_finish0 ..).trans ?_
    | with_reducible refine (mems_foldl _ ?_ _ _).trans ?_
    | with_reducible refine (mems_fold2 _ ?_ _ _).trans ?_
    | (intro s _ _)
    | (intro s _)
    | split
    | dsimp -zeta only)

@[simp] theorem mems_doSecurePolicy (cid : Nat) (s : State) :
    (doSecurePolicy cid s).mems = s.mems := by
  unfold doSecurePolicy
  repeat' (first
    | with_reducible rfl
    | with_reducible assumption
    | (extract_lets +onlyGivenNames x; first
      | (have hx : State.mems x = s.mems := ?_; clear_value x; rename' x => y; on_goal 2 => (dsimp -zeta only [x] <;> clear x))
      | (clear_value x; rename' x => y)
      | (rename' x => y))
    | with_reducible refine (mems_startCmd ..).trans ?_
    | with_reducible refine (mems_finish0 ..).trans ?_
    | with_reducible refine (mems_failNow ..).trans ?_
    | with_reducible refine (mems_updObj ..).trans ?_
    | with_reducible refine (mems_updCtx ..).trans ?_
    | with_reducible refine (mems_foldl _ ?_ _ _).trans ?_
    | with_reducible refine (mems_fold2 _ ?_ _ _).trans ?_
    | (intro s _ _)
    | (intro s _)
    | split
    | dsimp -zeta only
    | simp -zeta only [*])

@[simp] theorem mems_doSecureNow (cid : Nat) (s : State) :
    (doSecureNow cid s).mems = s.mems := by
  unfold doSecureNow
  repeat' (first
    | with_reducible rfl
    | with_reducible assumption
    | (extract_lets +onlyGivenNames x; first
      | (have hx : State.mems x = s.mems := ?_; clear_value x; rename' x => y; on_goal 2 => (dsimp -zeta only [x] <;> clear x))
      | (clear_value x; rename' x => y)
      | (rename' x => y))
    | with_reducible refine (mems_startCmd ..).trans ?_
    | with_reducible refine (mems_finish0 ..).trans ?_
    | with_reducible refine (mems_updCtx ..).trans ?_
    | split
    | dsimp -zeta only
    | simp -zeta only [*])

@[simp] theorem mems_doRiskExchangeResult (ctx risk : Nat) (now : Bool) (s : State) :
    (doRiskExchangeResult ctx risk now s).mems = s.mems := by
  unfold doRiskExchangeResult
  repeat' (first
    | with_reducible rfl
    | with_reducible assumption
    | (extract_lets +onlyGivenNames x; first
      | (have hx : State.mems x = s.mems := ?_; clear_value x; rename' x => y; on_goal 2 => (dsimp -zeta only [x] <;> clear x))
      | (clear_value x; rename' x => y)
      | (rename' x => y))
    | with_reducible refine (mems_updCtx ..).trans ?_
    | with_reducible refine (mems_sendCtl ..).trans ?_
    | with_reducible refine (mems_foldl _ ?_ _ _).trans ?_
    | with_reducible refine (mems_fold2 _ ?_ _ _).trans ?_
    | (intro s _ _)
    | (intro s _)
    | split
    | dsimp -zeta only
    | simp -zeta only [*])

@[simp] theorem mems_doReplayStep (cid : Nat) (s : State) :
    (doReplayStep cid s).mems = s.mems := by
  unfold doReplayStep
  repeat' (first
    | with_reducible rfl
    | with_reducible assumption
    | (extract_lets +onlyGivenNames x; first
      | (have hx : State.mems x = s.mems := ?_; clear_value x; rename' x => y; on_goal 2 => (dsimp -zeta only [x] <;> clear x))
      | (clear_value x; rename' x => y)
      | (rename' x => y))
    | with_reducible refine (mems_startCmd ..).trans ?_
    | with_reducible refine (mems_finish0 ..).trans ?_
    | with_reducible refine (mems_updCtx ..).trans ?_
    | split
    | dsimp -zeta only
    | simp -zeta only [*])

@[simp] theorem mems_doTilthRead (cid : Nat) (s : State) :
    (doTilthRead cid s).mems = s.mems := by
  unfold doTilthRead
  repeat' (first
    | with_reducible rfl
    | with_reducible assumption
    | (extract_lets +onlyGivenNames x; first
      | (have hx : State.mems x = s.mems := ?_; clear_value x; rename' x => y; on_goal 2 => (dsimp -zeta only [x] <;> clear x))
      | (have hx : State.mems x.2 = s.mems := ?_; clear_value x; rename' x => y; on_goal 2 => (dsimp -zeta only [x] <;> clear x))
      | (have hx : State.mems x.2.2 = s.mems := ?_; clear_value x; rename' x => y; on_goal 2 => (dsimp -zeta only [x] <;> clear x))
      | (clear_value x; rename' x => y)
      | (rename' x => y))
    | with_reducible refine (mems_startCmd ..).trans ?_
    | with_reducible refine (mems_finish0 ..).trans ?_
    | with_reducible refine (mems_freeBits ..).trans ?_
    | with_reducible refine (mems_finish ..).trans ?_
    | split
    | dsimp -zeta only
    | simp -zeta only [*])

@[simp] theorem mems_doTilthPeriod (slack : List Nat) (s : State) :
    (doTilthPeriod slack s).mems = s.mems := by
  unfold doTilthPeriod
  repeat' (first | with_reducible rfl | with_reducible refine (mems_ageDies ..).trans ?_ | with_reducible refine (mems_takeClkctl ..).trans ?_ | split)

@[simp] theorem mems_rwpWrite (off : Nat) (mask val : W64) (s : State) :
    (rwpWrite off mask val s).mems = s.mems := by
  unfold rwpWrite
  repeat' (first | with_reducible rfl | with_reducible refine (mems_noteRwp ..).trans ?_ | split)

@[simp] theorem mems_tailWrite (h : Nat) (val : W64) (s : State) :
    (tailWrite h val s).mems = s.mems := by
  unfold tailWrite
  repeat' (first
    | with_reducible rfl
    | with_reducible assumption
    | (extract_lets +onlyGivenNames x; first
      | (have hx : State.mems x = s.mems := ?_; clear_value x; rename' x => y; on_goal 2 => (dsimp -zeta only [x] <;> clear x))
      | (clear_value x; rename' x => y)
      | (rename' x => y))
    | with_reducible refine (mems_rwpWrite ..).trans ?_
    | with_reducible refine (mems_updRing ..).trans ?_
    | with_reducible refine (mems_signal ..).trans ?_
    | with_reducible refine (mems_foldl _ ?_ _ _).trans ?_
    | with_reducible refine (mems_fold2 _ ?_ _ _).trans ?_
    | (intro s _ _)
    | (intro s _)
    | split
    | dsimp -zeta only
    | simp -zeta only [*])

@[simp] theorem mems_doErrRingTailWrite (rq : Requester) (val : W64) (s : State) :
    (doErrRingTailWrite rq val s).mems = s.mems := by
  unfold doErrRingTailWrite
  repeat' (first | with_reducible rfl | with_reducible refine (mems_tailWrite ..).trans ?_ | split)

@[simp] theorem mems_doErrFatalClear (rq : Requester) (mask : W64) (s : State) :
    (doErrFatalClear rq mask s).mems = s.mems := by
  unfold doErrFatalClear
  split <;> with_reducible rfl

@[simp] theorem mems_doLockstepMismatch (hdie : Nat) (s : State) :
    (doLockstepMismatch hdie s).mems = s.mems := by
  unfold doLockstepMismatch
  repeat' (first | with_reducible rfl | with_reducible refine (mems_postRec ..).trans ?_ | split)

@[simp] theorem mems_doHubLogicMismatch (die block : Nat) (s : State) :
    (doHubLogicMismatch die block s).mems = s.mems := by
  unfold doHubLogicMismatch
  repeat' (first | with_reducible rfl | with_reducible refine (mems_postRec ..).trans ?_ | split)

@[simp] theorem mems_doDumpConfig (cid : Nat) (s : State) :
    (doDumpConfig cid s).mems = s.mems := by
  unfold doDumpConfig
  repeat' (first
    | with_reducible rfl
    | with_reducible assumption
    | (extract_lets +onlyGivenNames x; first
      | (have hx : State.mems x = s.mems := ?_; clear_value x; rename' x => y; on_goal 2 => (dsimp -zeta only [x] <;> clear x))
      | (clear_value x; rename' x => y)
      | (rename' x => y))
    | with_reducible refine (mems_startCmd ..).trans ?_
    | with_reducible refine (mems_finish0 ..).trans ?_
    | with_reducible refine (mems_updPort ..).trans ?_
    | split
    | dsimp -zeta only
    | simp -zeta only [*])

/-! ## SelfTest -/

@[simp] theorem mems_failSpare (p g : Nat) (s : State) :
    (failSpare p g s).mems = s.mems := by
  unfold failSpare
  repeat' (first | with_reducible rfl | with_reducible refine (mems_learnFailed ..).trans ?_ | split)

@[simp] theorem mems_failGrains (p : Nat) (gs : List Nat) (s : State) :
    (failGrains p gs s).mems = s.mems := by
  unfold failGrains
  repeat' (first
    | with_reducible rfl
    | with_reducible refine (mems_failSpare ..).trans ?_
    | with_reducible refine (mems_retireGrains ..).trans ?_
    | with_reducible refine (mems_foldl _ ?_ _ _).trans ?_
    | with_reducible refine (mems_fold2 _ ?_ _ _).trans ?_
    | (intro s _ _)
    | (intro s _)
    | split
    | dsimp -zeta only)

@[simp] theorem mems_doBackgroundTestPiece (p : Nat) (s : State) :
    (doBackgroundTestPiece p s).mems = s.mems := by
  unfold doBackgroundTestPiece
  repeat' (first
    | with_reducible rfl
    | with_reducible assumption
    | (extract_lets +onlyGivenNames x; first
      | (have hx : State.mems x = s.mems := ?_; clear_value x; rename' x => y; on_goal 2 => (dsimp -zeta only [x] <;> clear x))
      | (clear_value x; rename' x => y)
      | (rename' x => y))
    | with_reducible refine (mems_updPed2 ..).trans ?_
    | split
    | dsimp -zeta only
    | simp -zeta only [*])

@[simp] theorem mems_doCalibrationDone (kind unit : Nat) (s : State) :
    (doCalibrationDone kind unit s).mems = s.mems := by
  unfold doCalibrationDone
  repeat' (first | with_reducible rfl | with_reducible refine (mems_finish0 ..).trans ?_ | split)

/-! ## Counters -/

@[simp] theorem mems_doPmcConfig (cid : Nat) (s : State) :
    (doPmcConfig cid s).mems = s.mems := by
  unfold doPmcConfig
  repeat' (first
    | with_reducible rfl
    | with_reducible assumption
    | (extract_lets +onlyGivenNames x; first
      | (have hx : State.mems x = s.mems := ?_; clear_value x; rename' x => y; on_goal 2 => (dsimp -zeta only [x] <;> clear x))
      | (clear_value x; rename' x => y)
      | (rename' x => y))
    | with_reducible refine (mems_startCmd ..).trans ?_
    | with_reducible refine (mems_finish0 ..).trans ?_
    | with_reducible refine (mems_updCtx ..).trans ?_
    | with_reducible refine (mems_foldl _ ?_ _ _).trans ?_
    | with_reducible refine (mems_fold2 _ ?_ _ _).trans ?_
    | (intro s _ _)
    | (intro s _)
    | split
    | dsimp -zeta only
    | simp -zeta only [*])

@[simp] theorem mems_doSampleConfig (cid : Nat) (s : State) :
    (doSampleConfig cid s).mems = s.mems := by
  unfold doSampleConfig
  repeat' (first
    | with_reducible rfl
    | with_reducible assumption
    | (extract_lets +onlyGivenNames x; first
      | (have hx : State.mems x = s.mems := ?_; clear_value x; rename' x => y; on_goal 2 => (dsimp -zeta only [x] <;> clear x))
      | (clear_value x; rename' x => y)
      | (rename' x => y))
    | with_reducible refine (mems_startCmd ..).trans ?_
    | with_reducible refine (mems_finish0 ..).trans ?_
    | with_reducible refine (mems_updCtx ..).trans ?_
    | split
    | dsimp -zeta only
    | simp -zeta only [*])

@[simp] theorem mems_doPmcSnapshot (cid : Nat) (s : State) :
    (doPmcSnapshot cid s).mems = s.mems := by
  unfold doPmcSnapshot
  repeat' (first
    | with_reducible rfl
    | with_reducible assumption
    | (extract_lets +onlyGivenNames x; first
      | (have hx : State.mems x = s.mems := ?_; clear_value x; rename' x => y; on_goal 2 => (dsimp -zeta only [x] <;> clear x))
      | (have hx : State.mems x.2 = s.mems := ?_; clear_value x; rename' x => y; on_goal 2 => (dsimp -zeta only [x] <;> clear x))
      | (have hx : State.mems x.2.2 = s.mems := ?_; clear_value x; rename' x => y; on_goal 2 => (dsimp -zeta only [x] <;> clear x))
      | (have hx : ∀ s, State.mems (x s) = s.mems := ?_; clear_value x; rename' x => y; on_goal 2 => (intro s; dsimp -zeta only [x] <;> clear x))
      | (have hx : ∀ a, State.mems (x a) = s.mems := ?_; clear_value x; rename' x => y; on_goal 2 => (intro a; dsimp -zeta only [x] <;> clear x))
      | (have hx : ∀ a s, State.mems (x a s) = s.mems := ?_; clear_value x; rename' x => y; on_goal 2 => (intro a s; dsimp -zeta only [x] <;> clear x))
      | (clear_value x; rename' x => y)
      | (rename' x => y))
    | with_reducible refine (mems_startCmd ..).trans ?_
    | with_reducible refine (mems_finish0 ..).trans ?_
    | split
    | dsimp -zeta only
    | simp -zeta only [*])

@[simp] theorem mems_snapEnd (s : State) :
    (snapEnd s).mems = s.mems := by
  unfold snapEnd
  with_reducible rfl

@[simp] theorem mems_doSnapshotStamp (s : State) :
    (doSnapshotStamp s).mems = s.mems := by
  unfold doSnapshotStamp
  repeat' (first
    | with_reducible rfl
    | with_reducible assumption
    | (extract_lets +onlyGivenNames x; first
      | (have hx : State.mems x = s.mems := ?_; clear_value x; rename' x => y; on_goal 2 => (dsimp -zeta only [x] <;> clear x))
      | (clear_value x; rename' x => y)
      | (rename' x => y))
    | with_reducible refine (mems_snapEnd ..).trans ?_
    | with_reducible refine (mems_finish0 ..).trans ?_
    | split
    | dsimp -zeta only
    | simp -zeta only [*])

/-! ## Firmware -/

@[simp] theorem mems_settleStaging (s : State) :
    (settleStaging s).mems = s.mems := by
  unfold settleStaging
  with_reducible rfl

@[simp] theorem mems_chunkOk (cid : Nat) (s : State) :
    (chunkOk cid s).mems = s.mems := by
  unfold chunkOk
  repeat' (first | with_reducible rfl | with_reducible refine (mems_finish ..).trans ?_ | split)

@[simp] theorem mems_doFwStatus (cid : Nat) (s : State) :
    (doFwStatus cid s).mems = s.mems := by
  unfold doFwStatus
  repeat' (first
    | with_reducible rfl
    | with_reducible refine (mems_startCmd ..).trans ?_
    | with_reducible refine (mems_finish0 ..).trans ?_
    | with_reducible refine (mems_finish ..).trans ?_
    | split
    | dsimp -zeta only)

@[simp] theorem mems_dropStaging (s : State) :
    (dropStaging s).mems = s.mems := by
  unfold dropStaging
  repeat' (first | with_reducible rfl | with_reducible refine (mems_settleStaging ..).trans ?_ | with_reducible refine (mems_writeDir ..).trans ?_ | split)

@[simp] theorem mems_doFwAbort (cid : Nat) (s : State) :
    (doFwAbort cid s).mems = s.mems := by
  unfold doFwAbort
  repeat' (first
    | with_reducible rfl
    | with_reducible assumption
    | (extract_lets +onlyGivenNames x; first
      | (have hx : State.mems x = s.mems := ?_; clear_value x; rename' x => y; on_goal 2 => (dsimp -zeta only [x] <;> clear x))
      | (clear_value x; rename' x => y)
      | (rename' x => y))
    | with_reducible refine (mems_startCmd ..).trans ?_
    | with_reducible refine (mems_finish0 ..).trans ?_
    | with_reducible refine (mems_handover ..).trans ?_
    | with_reducible refine (mems_dropStaging ..).trans ?_
    | split
    | dsimp -zeta only
    | simp -zeta only [*])

@[simp] theorem mems_doFwActivate (cid : Nat) (s : State) :
    (doFwActivate cid s).mems = s.mems := by
  unfold doFwActivate
  repeat' (first
    | with_reducible rfl
    | with_reducible assumption
    | (extract_lets +onlyGivenNames x; first
      | (have hx : State.mems x = s.mems := ?_; clear_value x; rename' x => y; on_goal 2 => (dsimp -zeta only [x] <;> clear x))
      | (clear_value x; rename' x => y)
      | (rename' x => y))
    | with_reducible refine (mems_startCmd ..).trans ?_
    | with_reducible refine (mems_finish0 ..).trans ?_
    | split
    | dsimp -zeta only
    | simp -zeta only [*])

@[simp] theorem mems_endActivate (st : W16) (res : List Byte) (s : State) :
    (endActivate st res s).mems = s.mems := by
  unfold endActivate
  repeat' (first | with_reducible rfl | with_reducible refine (mems_finish ..).trans ?_ | split)

@[simp] theorem mems_doFwLoadDone (s : State) :
    (doFwLoadDone s).mems = s.mems := by
  unfold doFwLoadDone
  split <;> with_reducible rfl

@[simp] theorem mems_doFwHandoverDone (s : State) :
    (doFwHandoverDone s).mems = s.mems := by
  unfold doFwHandoverDone
  split <;> with_reducible rfl

@[simp] theorem mems_doFwSwitchStamp (s : State) :
    (doFwSwitchStamp s).mems = s.mems := by
  unfold doFwSwitchStamp
  repeat' (first
    | with_reducible rfl
    | with_reducible refine (mems_foldl _ ?_ _ _).trans ?_
    | with_reducible refine (mems_fold2 _ ?_ _ _).trans ?_
    | (intro s _ _)
    | (intro s _)
    | split
    | dsimp -zeta only)

@[simp] theorem mems_doFwCommit (s : State) :
    (doFwCommit s).mems = s.mems := by
  unfold doFwCommit
  repeat' (first
    | with_reducible rfl
    | with_reducible refine (mems_writeDir ..).trans ?_
    | with_reducible refine (mems_measureState ..).trans ?_
    | with_reducible refine (mems_measureImage ..).trans ?_
    | with_reducible refine (mems_endActivate ..).trans ?_
    | split
    | dsimp -zeta only)

@[simp] theorem mems_doFwActivateDeadline (s : State) :
    (doFwActivateDeadline s).mems = s.mems := by
  unfold doFwActivateDeadline
  repeat' (first | with_reducible rfl | with_reducible refine (mems_handover ..).trans ?_ | split)

@[simp] theorem mems_doFwRevertDone (s : State) :
    (doFwRevertDone s).mems = s.mems := by
  unfold doFwRevertDone
  repeat' (first
    | with_reducible rfl
    | with_reducible assumption
    | (extract_lets +onlyGivenNames x; first
      | (have hx : State.mems x = s.mems := ?_; clear_value x; rename' x => y; on_goal 2 => (dsimp -zeta only [x] <;> clear x))
      | (clear_value x; rename' x => y)
      | (rename' x => y))
    | with_reducible refine (mems_settleStaging ..).trans ?_
    | with_reducible refine (mems_endActivate ..).trans ?_
    | with_reducible refine (mems_finish0 ..).trans ?_
    | with_reducible refine (mems_dropStaging ..).trans ?_
    | split
    | dsimp -zeta only
    | simp -zeta only [*])

@[simp] theorem mems_doFwStandbyReady (s : State) :
    (doFwStandbyReady s).mems = s.mems := by
  unfold doFwStandbyReady
  split <;> with_reducible rfl

/-! ## Security -/

@[simp] theorem mems_doDebugUnlock (tok : Token) (s : State) :
    (doDebugUnlock tok s).mems = s.mems := by
  unfold doDebugUnlock
  repeat' (first
    | with_reducible rfl
    | with_reducible assumption
    | (extract_lets +onlyGivenNames x; first
      | (have hx : State.mems x = s.mems := ?_; clear_value x; rename' x => y; on_goal 2 => (dsimp -zeta only [x] <;> clear x))
      | (clear_value x; rename' x => y)
      | (rename' x => y))
    | with_reducible refine (mems_eraseVolatile ..).trans ?_
    | with_reducible refine (mems_measureState ..).trans ?_
    | split
    | dsimp -zeta only
    | simp -zeta only [*])

@[simp] theorem mems_spdmSet (tr : Transport) (x : Spdm) (s : State) :
    (spdmSet tr x s).mems = s.mems := by
  unfold spdmSet
  with_reducible rfl

@[simp] theorem mems_spdmError (tr : Transport) (code : Byte) (s : State) :
    (spdmError tr code s).mems = s.mems := by
  unfold spdmError
  repeat' (first | with_reducible rfl | with_reducible refine (mems_emit ..).trans ?_ | split)

@[simp] theorem mems_spdmServe (tr : Transport) (go : State → State) (hg : ∀ s, (go s).mems = s.mems) (s : State) :
    (spdmServe tr go s).mems = s.mems := by
  unfold spdmServe
  split
  · rfl
  · split
    · exact mems_spdmError ..
    · exact hg s

@[simp] theorem mems_spdmAnswer (tr : Transport) (code : Byte) (data : List Byte) (x : Spdm) (s : State) :
    (spdmAnswer tr code data x s).mems = s.mems := by
  unfold spdmAnswer
  repeat' (first | with_reducible rfl | with_reducible refine (mems_emit ..).trans ?_ | with_reducible refine (mems_spdmSet ..).trans ?_ | split)

@[simp] theorem mems_spdmReady (tr : Transport) (go : State → State) (hg : ∀ s, (go s).mems = s.mems) (s : State) :
    (spdmReady tr go s).mems = s.mems := by
  unfold spdmReady
  refine mems_spdmServe tr _ ?_ s
  intro s
  split
  · exact hg s
  · exact mems_spdmError ..

@[simp] theorem mems_spdmSigned (tr : Transport) (code : Byte) (nonce : BitVec 256) (data : List Byte) (s : State) :
    (spdmSigned tr code nonce data s).mems = s.mems := by
  unfold spdmSigned
  repeat' (first
    | with_reducible rfl
    | with_reducible refine (mems_spdmError ..).trans ?_
    | with_reducible refine (mems_freeBits ..).trans ?_
    | with_reducible refine (mems_spdmAnswer ..).trans ?_
    | split
    | dsimp -zeta only)

@[simp] theorem mems_doGetVersion (tr : Transport) (s : State) : (doGetVersion tr s).mems = s.mems := by
  unfold doGetVersion
  refine mems_spdmServe tr _ ?_ s
  intro s
  repeat' (first
    | with_reducible rfl
    | with_reducible assumption
    | (extract_lets +onlyGivenNames x; first
      | (have hx : State.mems x = s.mems := ?_; clear_value x; rename' x => y; on_goal 2 => (dsimp -zeta only [x] <;> clear x))
      | (clear_value x; rename' x => y)
      | (rename' x => y))
    | with_reducible refine (mems_spdmServe _ _ _ ?_ _).trans ?_
    | with_reducible refine (mems_spdmAnswer ..).trans ?_
    | (intro s _ _)
    | (intro s _)
    | (intro s)
    | split
    | dsimp -zeta only
    | simp -zeta only [*])

@[simp] theorem mems_doGetCapabilities (tr : Transport) (s : State) : (doGetCapabilities tr s).mems = s.mems := by
  unfold doGetCapabilities
  refine mems_spdmServe tr _ ?_ s
  intro s
  repeat' (first
    | with_reducible rfl
    | with_reducible assumption
    | (extract_lets +onlyGivenNames x; first
      | (have hx : State.mems x = s.mems := ?_; clear_value x; rename' x => y; on_goal 2 => (dsimp -zeta only [x] <;> clear x))
      | (clear_value x; rename' x => y)
      | (rename' x => y))
    | with_reducible refine (mems_spdmServe _ _ _ ?_ _).trans ?_
    | with_reducible refine (mems_spdmAnswer ..).trans ?_
    | with_reducible refine (mems_spdmError ..).trans ?_
    | (intro s _ _)
    | (intro s _)
    | (intro s)
    | split
    | dsimp -zeta only
    | simp -zeta only [*])

@[simp] theorem mems_doNegotiateAlgorithms (tr : Transport) (hasSm2 hasSm3 : Bool) (s : State) : (doNegotiateAlgorithms tr hasSm2 hasSm3 s).mems = s.mems := by
  unfold doNegotiateAlgorithms
  refine mems_spdmServe tr _ ?_ s
  intro s
  repeat' (first
    | with_reducible rfl
    | with_reducible assumption
    | (extract_lets +onlyGivenNames x; first
      | (have hx : State.mems x = s.mems := ?_; clear_value x; rename' x => y; on_goal 2 => (dsimp -zeta only [x] <;> clear x))
      | (clear_value x; rename' x => y)
      | (rename' x => y))
    | with_reducible refine (mems_spdmServe _ _ _ ?_ _).trans ?_
    | with_reducible refine (mems_spdmError ..).trans ?_
    | with_reducible refine (mems_spdmAnswer ..).trans ?_
    | (intro s _ _)
    | (intro s _)
    | (intro s)
    | split
    | dsimp -zeta only
    | simp -zeta only [*])

@[simp] theorem mems_doGetDigests (tr : Transport) (s : State) : (doGetDigests tr s).mems = s.mems := by
  unfold doGetDigests
  refine mems_spdmReady tr _ ?_ s
  intro s
  repeat' (first
    | with_reducible rfl
    | with_reducible assumption
    | (extract_lets +onlyGivenNames x; first
      | (have hx : State.mems x = s.mems := ?_; clear_value x; rename' x => y; on_goal 2 => (dsimp -zeta only [x] <;> clear x))
      | (clear_value x; rename' x => y)
      | (rename' x => y))
    | with_reducible refine (mems_spdmReady _ _ ?_ _).trans ?_
    | with_reducible refine (mems_spdmAnswer ..).trans ?_
    | (intro s _ _)
    | (intro s _)
    | (intro s)
    | split
    | dsimp -zeta only
    | simp -zeta only [*])

@[simp] theorem mems_doGetCertificate (tr : Transport) (slot off len : Nat) (s : State) : (doGetCertificate tr slot off len s).mems = s.mems := by
  unfold doGetCertificate
  refine mems_spdmReady tr _ ?_ s
  intro s
  repeat' (first
    | with_reducible rfl
    | with_reducible assumption
    | (extract_lets +onlyGivenNames x; first
      | (have hx : State.mems x = s.mems := ?_; clear_value x; rename' x => y; on_goal 2 => (dsimp -zeta only [x] <;> clear x))
      | (clear_value x; rename' x => y)
      | (rename' x => y))
    | with_reducible refine (mems_spdmReady _ _ ?_ _).trans ?_
    | with_reducible refine (mems_spdmError ..).trans ?_
    | with_reducible refine (mems_spdmAnswer ..).trans ?_
    | (intro s _ _)
    | (intro s _)
    | (intro s)
    | split
    | dsimp -zeta only
    | simp -zeta only [*])

@[simp] theorem mems_doChallenge (tr : Transport) (slot : Nat) (nonce : BitVec 256) (s : State) : (doChallenge tr slot nonce s).mems = s.mems := by
  unfold doChallenge
  refine mems_spdmReady tr _ ?_ s
  intro s
  repeat' (first
    | with_reducible rfl
    | with_reducible assumption
    | (extract_lets +onlyGivenNames x; first
      | (have hx : State.mems x = s.mems := ?_; clear_value x; rename' x => y; on_goal 2 => (dsimp -zeta only [x] <;> clear x))
      | (clear_value x; rename' x => y)
      | (rename' x => y))
    | with_reducible refine (mems_spdmReady _ _ ?_ _).trans ?_
    | with_reducible refine (mems_spdmError ..).trans ?_
    | with_reducible refine (mems_spdmSigned ..).trans ?_
    | (intro s _ _)
    | (intro s _)
    | (intro s)
    | split
    | dsimp -zeta only
    | simp -zeta only [*])

@[simp] theorem mems_doGetMeasurements (tr : Transport) (index : Nat) (signed : Bool) (nonce : BitVec 256) (s : State) : (doGetMeasurements tr index signed nonce s).mems = s.mems := by
  unfold doGetMeasurements
  refine mems_spdmReady tr _ ?_ s
  intro s
  repeat' (first
    | with_reducible rfl
    | with_reducible assumption
    | (extract_lets +onlyGivenNames x; first
      | (have hx : State.mems x = s.mems := ?_; clear_value x; rename' x => y; on_goal 2 => (dsimp -zeta only [x] <;> clear x))
      | (clear_value x; rename' x => y)
      | (rename' x => y))
    | with_reducible refine (mems_spdmReady _ _ ?_ _).trans ?_
    | with_reducible refine (mems_spdmError ..).trans ?_
    | with_reducible refine (mems_spdmSigned ..).trans ?_
    | with_reducible refine (mems_spdmAnswer ..).trans ?_
    | (intro s _ _)
    | (intro s _)
    | (intro s)
    | split
    | dsimp -zeta only
    | simp -zeta only [*])

@[simp] theorem mems_doSpdmUnsupportedRequest (tr : Transport) (_code : Byte) (s : State) : (doSpdmUnsupportedRequest tr _code s).mems = s.mems := by
  unfold doSpdmUnsupportedRequest
  refine mems_spdmServe tr _ ?_ s
  intro s
  repeat' (first
    | with_reducible rfl
    | with_reducible assumption
    | (extract_lets +onlyGivenNames x; first
      | (have hx : State.mems x = s.mems := ?_; clear_value x; rename' x => y; on_goal 2 => (dsimp -zeta only [x] <;> clear x))
      | (clear_value x; rename' x => y)
      | (rename' x => y))
    | with_reducible refine (mems_spdmServe _ _ _ ?_ _).trans ?_
    | with_reducible refine (mems_spdmError ..).trans ?_
    | (intro s _ _)
    | (intro s _)
    | (intro s)
    | split
    | dsimp -zeta only
    | simp -zeta only [*])

/-! ## HostIf -/

@[simp] theorem mems_updSq (ctx n : Nat) (r : SubRing) (s : State) :
    (updSq ctx n r s).mems = s.mems := by
  unfold updSq
  repeat' (first | with_reducible rfl | with_reducible refine (mems_updCtx ..).trans ?_ | split)

@[simp] theorem mems_updCq (ctx n : Nat) (r : CplRing) (s : State) :
    (updCq ctx n r s).mems = s.mems := by
  unfold updCq
  repeat' (first | with_reducible rfl | with_reducible refine (mems_updCtx ..).trans ?_ | split)

@[simp] theorem mems_dropDb (ctx : Nat) (s : State) :
    (dropDb ctx s).mems = s.mems := by
  unfold dropDb
  repeat' (first | with_reducible rfl | with_reducible refine (mems_updCtx ..).trans ?_ | split)

@[simp] theorem mems_dropFnDb (fn : Nat) (s : State) :
    (dropFnDb fn s).mems = s.mems := by
  unfold dropFnDb
  repeat' (first | with_reducible rfl | with_reducible refine (mems_updFn ..).trans ?_ | split)

@[simp] theorem mems_doCommandRingDoorbell (fn page ring : Nat) (val : W64) (s : State) :
    (doCommandRingDoorbell fn page ring val s).mems = s.mems := by
  unfold doCommandRingDoorbell
  repeat' (first
    | with_reducible rfl
    | with_reducible assumption
    | (extract_lets +onlyGivenNames x; first
      | (have hx : State.mems x = s.mems := ?_; clear_value x; rename' x => y; on_goal 2 => (dsimp -zeta only [x] <;> clear x))
      | (clear_value x; rename' x => y)
      | (rename' x => y))
    | with_reducible refine (mems_dropFnDb ..).trans ?_
    | with_reducible refine (mems_dropDb ..).trans ?_
    | with_reducible refine (mems_updCq ..).trans ?_
    | with_reducible refine (mems_updSq ..).trans ?_
    | split
    | dsimp -zeta only
    | simp -zeta only [*])

@[simp] theorem mems_doAdminDoorbell (fn : Nat) (val : W64) (s : State) :
    (doAdminDoorbell fn val s).mems = s.mems := by
  unfold doAdminDoorbell
  repeat' (first
    | with_reducible rfl
    | with_reducible assumption
    | (extract_lets +onlyGivenNames x; first
      | (have hx : State.mems x = s.mems := ?_; clear_value x; rename' x => y; on_goal 2 => (dsimp -zeta only [x] <;> clear x))
      | (clear_value x; rename' x => y)
      | (rename' x => y))
    | with_reducible refine (mems_dropFnDb ..).trans ?_
    | with_reducible refine (mems_updFn ..).trans ?_
    | split
    | dsimp -zeta only
    | simp -zeta only [*])

@[simp] theorem mems_doPedDoorbell (fn page ring : Nat) (val : W64) (s : State) :
    (doPedDoorbell fn page ring val s).mems = s.mems := by
  unfold doPedDoorbell
  repeat' (first
    | with_reducible rfl
    | with_reducible assumption
    | (extract_lets +onlyGivenNames x; first
      | (have hx : State.mems x = s.mems := ?_; clear_value x; rename' x => y; on_goal 2 => (dsimp -zeta only [x] <;> clear x))
      | (clear_value x; rename' x => y)
      | (rename' x => y))
    | with_reducible refine (mems_dropFnDb ..).trans ?_
    | with_reducible refine (mems_dropDb ..).trans ?_
    | with_reducible refine (mems_semAdd ..).trans ?_
    | with_reducible refine (mems_updSq ..).trans ?_
    | with_reducible refine (mems_updCtx ..).trans ?_
    | split
    | dsimp -zeta only
    | simp -zeta only [*])

@[simp] theorem mems_doAdminRingEnable (fn : Nat) (s : State) :
    (doAdminRingEnable fn s).mems = s.mems := by
  unfold doAdminRingEnable
  repeat' (first
    | with_reducible rfl
    | with_reducible assumption
    | (extract_lets +onlyGivenNames x; first
      | (have hx : State.mems x = s.mems := ?_; clear_value x; rename' x => y; on_goal 2 => (dsimp -zeta only [x] <;> clear x))
      | (clear_value x; rename' x => y)
      | (rename' x => y))
    | with_reducible refine (mems_updFn ..).trans ?_
    | with_reducible refine (mems_takeAdmin ..).trans ?_
    | split
    | dsimp -zeta only
    | simp -zeta only [*])

@[simp] theorem mems_doAdminRingDisable (fn : Nat) (s : State) :
    (doAdminRingDisable fn s).mems = s.mems := by
  unfold doAdminRingDisable
  repeat' (first
    | with_reducible rfl
    | with_reducible assumption
    | (extract_lets +onlyGivenNames x; first
      | (have hx : State.mems x = s.mems := ?_; clear_value x; rename' x => y; on_goal 2 => (dsimp -zeta only [x] <;> clear x))
      | (clear_value x; rename' x => y)
      | (rename' x => y))
    | with_reducible refine (mems_updFn ..).trans ?_
    | split
    | dsimp -zeta only
    | simp -zeta only [*])

@[simp] theorem mems_doRingTableWrite (rq : Requester) (ctx : Nat) (val : W64) (s : State) :
    (doRingTableWrite rq ctx val s).mems = s.mems := by
  unfold doRingTableWrite
  repeat' (first
    | with_reducible rfl
    | with_reducible assumption
    | (extract_lets +onlyGivenNames x; first
      | (have hx : State.mems x = s.mems := ?_; clear_value x; rename' x => y; on_goal 2 => (dsimp -zeta only [x] <;> clear x))
      | (clear_value x; rename' x => y)
      | (rename' x => y))
    | with_reducible refine (mems_dropDb ..).trans ?_
    | with_reducible refine (mems_noteRwp ..).trans ?_
    | with_reducible refine (mems_updCtx ..).trans ?_
    | split
    | dsimp -zeta only
    | simp -zeta only [*])

@[simp] theorem mems_doFnAperWrite (fn : Nat) (val : W64) (s : State) :
    (doFnAperWrite fn val s).mems = s.mems := by
  unfold doFnAperWrite
  repeat' (first | with_reducible rfl | with_reducible refine (mems_noteRwp ..).trans ?_ | with_reducible refine (mems_updFn ..).trans ?_ | split)

@[simp] theorem mems_aperMiss (fn : Nat) (s : State) :
    (aperMiss fn s).mems = s.mems := by
  unfold aperMiss
  repeat' (first | with_reducible rfl | with_reducible refine (mems_updFn ..).trans ?_ | split)

@[simp] theorem mems_aperAsk (port id : Nat) (ps : List (Obj × Nat)) (data : Option (List Byte)) (s : State) :
    (aperAsk port id ps data s).mems = s.mems := by
  unfold aperAsk
  repeat' (first
    | with_reducible rfl
    | with_reducible refine (mems_addReqAt ..).trans ?_
    | with_reducible refine (mems_foldl _ ?_ _ _).trans ?_
    | with_reducible refine (mems_fold2 _ ?_ _ _).trans ?_
    | (intro s _ _)
    | (intro s _)
    | split
    | dsimp -zeta only)

@[simp] theorem mems_doBar4Access (port off : Nat) (acc : Bar4Acc) (s : State) :
    (doBar4Access port off acc s).mems = s.mems := by
  unfold doBar4Access
  repeat' (first
    | with_reducible rfl
    | with_reducible assumption
    | (extract_lets +onlyGivenNames x; first
      | (have hx : State.mems x = s.mems := ?_; clear_value x; rename' x => y; on_goal 2 => (dsimp -zeta only [x] <;> clear x))
      | (clear_value x; rename' x => y)
      | (rename' x => y))
    | with_reducible refine (mems_emit ..).trans ?_
    | with_reducible refine (mems_aperMiss ..).trans ?_
    | with_reducible refine (mems_settleApers ..).trans ?_
    | with_reducible refine (mems_aperAsk ..).trans ?_
    | with_reducible refine (mems_updHz _ _ (by rfl)).trans ?_
    | (intro s _ _)
    | (intro s _)
    | (intro s)
    | split
    | dsimp -zeta only
    | simp -zeta only [*])

@[simp] theorem mems_setSq (fn : Nat) (ctx : Option Nat) (ring : Nat) (r : SubRing) (s : State) :
    (setSq fn ctx ring r s).mems = s.mems := by
  unfold setSq
  repeat' (first | with_reducible rfl | with_reducible refine (mems_updFn ..).trans ?_ | with_reducible refine (mems_updSq ..).trans ?_ | split)

@[simp] theorem mems_setCq (fn : Nat) (ctx : Option Nat) (q : Nat) (r : CplRing) (s : State) :
    (setCq fn ctx q r s).mems = s.mems := by
  unfold setCq
  repeat' (first | with_reducible rfl | with_reducible refine (mems_updFn ..).trans ?_ | with_reducible refine (mems_updCq ..).trans ?_ | split)

@[simp] theorem mems_nameCq (fn : Nat) (ctx : Option Nat) (q : Nat) (s : State) :
    (nameCq fn ctx q s).mems = s.mems := by
  unfold nameCq
  repeat' (first | with_reducible rfl | with_reducible refine (mems_setCq ..).trans ?_ | split)

@[simp] theorem mems_takeReply (c : Cmd) (s : State) :
    (takeReply c s).mems = s.mems := by
  unfold takeReply
  repeat' (first | with_reducible rfl | with_reducible refine (mems_updFn ..).trans ?_ | split)

@[simp] theorem mems_putReply (c : Cmd) (st : W16) (res : List Byte) (s : State) :
    (putReply c st res s).mems = s.mems := by
  unfold putReply
  repeat' (first
    | with_reducible rfl
    | with_reducible assumption
    | (extract_lets +onlyGivenNames x; first
      | (have hx : State.mems x = s.mems := ?_; clear_value x; rename' x => y; on_goal 2 => (dsimp -zeta only [x] <;> clear x))
      | (clear_value x; rename' x => y)
      | (rename' x => y))
    | with_reducible refine (mems_updFn ..).trans ?_
    | split
    | dsimp -zeta only
    | simp -zeta only [*])

@[simp] theorem mems_takeMctp (b : List Byte) (s : State) :
    (takeMctp b s).mems = s.mems := by
  unfold takeMctp
  split <;> with_reducible rfl

@[simp] theorem mems_settleAdmin (fn : Nat) (s : State) :
    (settleAdmin fn s).mems = s.mems := by
  unfold settleAdmin
  repeat' (first | with_reducible rfl | with_reducible refine (mems_updFn ..).trans ?_ | split)

@[simp] theorem mems_mctpComplete (c : Cmd) (s : State) :
    (mctpComplete c s).mems = s.mems := by
  unfold mctpComplete
  repeat' (first | with_reducible rfl | with_reducible refine (mems_emit ..).trans ?_ | split)

@[simp] theorem mems_doInterruptTimeExpire (ctx q : Nat) (s : State) :
    (doInterruptTimeExpire ctx q s).mems = s.mems := by
  unfold doInterruptTimeExpire
  repeat' (first
    | with_reducible rfl
    | with_reducible assumption
    | (extract_lets +onlyGivenNames x; first
      | (have hx : State.mems x = s.mems := ?_; clear_value x; rename' x => y; on_goal 2 => (dsimp -zeta only [x] <;> clear x))
      | (clear_value x; rename' x => y)
      | (rename' x => y))
    | with_reducible refine (mems_signal ..).trans ?_
    | with_reducible refine (mems_updCq ..).trans ?_
    | split
    | dsimp -zeta only
    | simp -zeta only [*])

@[simp] theorem mems_doPing (cid : Nat) (s : State) :
    (doPing cid s).mems = s.mems := by
  unfold doPing
  repeat' (first
    | with_reducible rfl
    | with_reducible refine (mems_startCmd ..).trans ?_
    | with_reducible refine (mems_finish0 ..).trans ?_
    | with_reducible refine (mems_finish ..).trans ?_
    | split
    | dsimp -zeta only)

@[simp] theorem mems_doBusMasterDisable (fn : Nat) (s : State) :
    (doBusMasterDisable fn s).mems = s.mems := by
  unfold doBusMasterDisable
  repeat' (first | with_reducible rfl | with_reducible refine (mems_updFn ..).trans ?_ | split)

@[simp] theorem mems_doBusMasterEnable (fn : Nat) (s : State) :
    (doBusMasterEnable fn s).mems = s.mems := by
  unfold doBusMasterEnable
  repeat' (first | with_reducible rfl | with_reducible refine (mems_flushPba ..).trans ?_ | with_reducible refine (mems_updFn ..).trans ?_ | split)

@[simp] theorem mems_doPerstDeassert (port : Nat) (s : State) :
    (doPerstDeassert port s).mems = s.mems := by
  unfold doPerstDeassert
  repeat' (first | with_reducible rfl | with_reducible refine (mems_updPort ..).trans ?_ | split)

@[simp] theorem mems_doPortReadyAgain (port : Nat) (s : State) :
    (doPortReadyAgain port s).mems = s.mems := by
  unfold doPortReadyAgain
  repeat' (first | with_reducible rfl | with_reducible refine (mems_updPort ..).trans ?_ | split)

@[simp] theorem mems_doHostLinkUp (port width gen : Nat) (s : State) :
    (doHostLinkUp port width gen s).mems = s.mems := by
  unfold doHostLinkUp
  repeat' (first | with_reducible rfl | with_reducible refine (mems_updPort ..).trans ?_ | split)

@[simp] theorem mems_doHostLinkDown (port : Nat) (s : State) :
    (doHostLinkDown port s).mems = s.mems := by
  unfold doHostLinkDown
  repeat' (first | with_reducible rfl | with_reducible refine (mems_updPort ..).trans ?_ | split)

@[simp] theorem mems_doPkgrstRequestLapse (port : Nat) (s : State) :
    (doPkgrstRequestLapse port s).mems = s.mems := by
  unfold doPkgrstRequestLapse
  repeat' (first | with_reducible rfl | with_reducible refine (mems_updPort ..).trans ?_ | split)

/-! ## Registers -/

@[simp] theorem mems_guardFail (rq : Requester) (cause off : Nat) (val : W32) (s : State) :
    (guardFail rq cause off val s).mems = s.mems := by
  unfold guardFail
  repeat' (first | with_reducible rfl | with_reducible refine (mems_postRec ..).trans ?_ | split)

@[simp] theorem mems_closePend (rq : Requester) (g : GReg) (s : State) :
    (closePend rq g s).mems = s.mems := by
  unfold closePend
  with_reducible rfl

@[simp] theorem mems_openPend (rq : Requester) (g : GReg) (v : W32) (s : State) :
    (openPend rq g v s).mems = s.mems := by
  unfold openPend
  repeat' (first | with_reducible rfl | with_reducible refine (mems_closePend ..).trans ?_ | split)

@[simp] theorem mems_guardA (rq : Requester) (g : GReg) (va : W32) (s : State) :
    (guardA rq g va s).mems = s.mems := by
  unfold guardA
  repeat' (first | with_reducible rfl | with_reducible refine (mems_guardFail ..).trans ?_ | with_reducible refine (mems_openPend ..).trans ?_ | split)

@[simp] theorem mems_doGuardedWindowExpire (rq : Requester) (g : GReg) (s : State) :
    (doGuardedWindowExpire rq g s).mems = s.mems := by
  unfold doGuardedWindowExpire
  repeat' (first | with_reducible rfl | with_reducible refine (mems_guardFail ..).trans ?_ | with_reducible refine (mems_closePend ..).trans ?_ | split)

@[simp] theorem mems_doGuardedWriteA (rq : Requester) (g : GReg) (va : W32) (s : State) :
    (doGuardedWriteA rq g va s).mems = s.mems := by
  unfold doGuardedWriteA
  repeat' (first
    | with_reducible rfl
    | with_reducible refine (mems_onBar _ _ ?_ _).trans ?_
    | with_reducible refine (mems_guardA ..).trans ?_
    | (intro s _ _)
    | (intro s _)
    | (intro s)
    | split
    | dsimp -zeta only)

@[simp] theorem mems_doHubNumctlWrite (rq : Requester) (ctx : Nat) (val : W64) (s : State) :
    (doHubNumctlWrite rq ctx val s).mems = s.mems := by
  unfold doHubNumctlWrite
  repeat' (first | with_reducible rfl | with_reducible refine (mems_noteRwp ..).trans ?_ | with_reducible refine (mems_updCtx ..).trans ?_ | split)

@[simp] theorem mems_doHubNumringWrite (rq : Requester) (ctx : Nat) (val : W64) (s : State) :
    (doHubNumringWrite rq ctx val s).mems = s.mems := by
  unfold doHubNumringWrite
  repeat' (first | with_reducible rfl | with_reducible refine (mems_noteRwp ..).trans ?_ | with_reducible refine (mems_updCtx ..).trans ?_ | split)

@[simp] theorem mems_doHubSpecWrite (rq : Requester) (ctx : Nat) (val : W64) (s : State) :
    (doHubSpecWrite rq ctx val s).mems = s.mems := by
  unfold doHubSpecWrite
  repeat' (first | with_reducible rfl | with_reducible refine (mems_noteRwp ..).trans ?_ | with_reducible refine (mems_updCtx ..).trans ?_ | split)

@[simp] theorem mems_doErrTilthWWrite (rq : Requester) (val : W64) (s : State) :
    (doErrTilthWWrite rq val s).mems = s.mems := by
  unfold doErrTilthWWrite
  repeat' (first | with_reducible rfl | with_reducible refine (mems_noteRwp ..).trans ?_ | split)

@[simp] theorem mems_doPmcSmpTailWrite (rq : Requester) (ctx : Nat) (val : W32) (s : State) :
    (doPmcSmpTailWrite rq ctx val s).mems = s.mems := by
  unfold doPmcSmpTailWrite
  repeat' (first | with_reducible rfl | with_reducible refine (mems_updCtx ..).trans ?_ | split)

@[simp] theorem mems_latch (rq : Requester) (x : RegVal) (s : State) :
    (latch rq x s).mems = s.mems := by
  unfold latch
  with_reducible rfl

@[simp] theorem mems_readWord (rq : Requester) (a : Nat) (s : State) :
    (readWord rq a s).2.mems = s.mems := by
  unfold readWord
  repeat' (first
    | with_reducible rfl
    | with_reducible assumption
    | (extract_lets +onlyGivenNames x; first
      | (have hx : State.mems x = s.mems := ?_; clear_value x; rename' x => y; on_goal 2 => (dsimp -zeta only [x] <;> clear x))
      | (clear_value x; rename' x => y)
      | (rename' x => y))
    | with_reducible refine (mems_latch ..).trans ?_
    | split
    | dsimp -zeta only
    | simp -zeta only [*])

@[simp] theorem mems_badAccess (s : State) :
    (badAccess s).mems = s.mems := by
  unfold badAccess
  with_reducible rfl

@[simp] theorem mems_readWords (rq : Requester) (off n : Nat) (s : State) : (readWords rq off n s).2.mems = s.mems := by
  induction n generalizing off s with
  | zero => rfl
  | succ n ih => unfold readWords; dsimp only; rw [ih]; split <;> simp [-Prod.mk.injEq]

@[simp] theorem mems_doRegisterReadLatch (rq : Requester) (off size : Nat) (s : State) :
    (doRegisterReadLatch rq off size s).mems = s.mems := by
  unfold doRegisterReadLatch
  repeat' (first
    | with_reducible rfl
    | with_reducible refine (mems_emit ..).trans ?_
    | with_reducible refine (mems_badAccess ..).trans ?_
    | with_reducible refine (mems_readWords ..).trans ?_
    | split
    | dsimp -zeta only)

@[simp] theorem mems_putFnCtl (f : Nat) (val : W64) (s : State) :
    (putFnCtl f val s).mems = s.mems := by
  unfold putFnCtl
  repeat' (first
    | with_reducible rfl
    | with_reducible refine (mems_noteRwp ..).trans ?_
    | with_reducible refine (mems_updFn ..).trans ?_
    | with_reducible refine (mems_doAdminRingEnable ..).trans ?_
    | with_reducible refine (mems_doAdminRingDisable ..).trans ?_
    | split
    | dsimp -zeta only)

@[simp] theorem mems_putPage (f o : Nat) (val : W64) (s : State) :
    (putPage f o val s).mems = s.mems := by
  unfold putPage
  repeat' (first
    | with_reducible rfl
    | with_reducible assumption
    | (extract_lets +onlyGivenNames x; first
      | (have hx : State.mems x = s.mems := ?_; clear_value x; rename' x => y; on_goal 2 => (dsimp -zeta only [x] <;> clear x))
      | (clear_value x; rename' x => y)
      | (rename' x => y))
    | with_reducible refine (mems_noteRwp ..).trans ?_
    | with_reducible refine (mems_updFn ..).trans ?_
    | with_reducible refine (mems_putFnCtl ..).trans ?_
    | with_reducible refine (mems_doAdminDoorbell ..).trans ?_
    | with_reducible refine (mems_writeAt ..).trans ?_
    | with_reducible refine (mems_doFnAperWrite ..).trans ?_
    | split
    | dsimp -zeta only
    | simp -zeta only [*])

@[simp] theorem mems_putAccerr (rq : Requester) (val : W64) (s : State) :
    (putAccerr rq val s).mems = s.mems := by
  unfold putAccerr
  repeat' (first | with_reducible rfl | with_reducible refine (mems_rwpWrite ..).trans ?_ | split)

@[simp] theorem mems_putLnkCtl (rq : Requester) (val : W64) (s : State) :
    (putLnkCtl rq val s).mems = s.mems := by
  unfold putLnkCtl
  repeat' (first | with_reducible rfl | with_reducible refine (mems_noteRwp ..).trans ?_ | with_reducible refine (mems_updFab ..).trans ?_ | split)

@[simp] theorem mems_putGsel (rq : Requester) (d : Nat) (val : W32) (s : State) :
    (putGsel rq d val s).mems = s.mems := by
  unfold putGsel
  repeat' (first | with_reducible rfl | with_reducible refine (mems_noteRwp ..).trans ?_ | split)

@[simp] theorem mems_putMsix (fn v lane : Nat) (val : W32) (s : State) :
    (putMsix fn v lane val s).mems = s.mems := by
  unfold putMsix
  repeat' (first | with_reducible rfl | with_reducible refine (mems_flushPba ..).trans ?_ | with_reducible refine (mems_updFn ..).trans ?_ | split)

@[simp] theorem mems_putRoutes (rq : Requester) (k : Nat) (val : W64) (s : State) :
    (putRoutes rq k val s).mems = s.mems := by
  unfold putRoutes
  repeat' (first
    | with_reducible rfl
    | with_reducible refine (mems_doLnkRouteWrite ..).trans ?_
    | with_reducible refine (mems_foldl _ ?_ _ _).trans ?_
    | with_reducible refine (mems_fold2 _ ?_ _ _).trans ?_
    | (intro s _ _)
    | (intro s _)
    | split
    | dsimp -zeta only)

@[simp] theorem mems_putLnk (rq : Requester) (b : Nat) (val : W64) (s : State) :
    (putLnk rq b val s).mems = s.mems := by
  unfold putLnk
  repeat' (first
    | with_reducible rfl
    | with_reducible refine (mems_doLnkPortEnable ..).trans ?_
    | with_reducible refine (mems_putRoutes ..).trans ?_
    | with_reducible refine (mems_doLnkTorusWrite ..).trans ?_
    | with_reducible refine (mems_putLnkCtl ..).trans ?_
    | with_reducible refine (mems_doLnkCreditWrite ..).trans ?_
    | split
    | dsimp -zeta only)

@[simp] theorem mems_putErr (rq : Requester) (b : Nat) (val : W64) (s : State) :
    (putErr rq b val s).mems = s.mems := by
  unfold putErr
  repeat' (first
    | with_reducible rfl
    | with_reducible refine (mems_doErrRingTailWrite ..).trans ?_
    | with_reducible refine (mems_doErrFatalClear ..).trans ?_
    | with_reducible refine (mems_doErrTilthWWrite ..).trans ?_
    | with_reducible refine (mems_tailWrite ..).trans ?_
    | split
    | dsimp -zeta only)

theorem mems_if {c : Prop} [Decidable c] {a b s : State} (ha : a.mems = s.mems) (hb : b.mems = s.mems) :
    (if c then a else b).mems = s.mems := by split <;> assumption
theorem mems_putMsixOf (rq : Requester) (k l : Nat) (v : W32) (s : State) :
    (match rq with | .host fn => putMsix fn k l v s | _ => s).mems = s.mems := by
  cases rq
  · exact mems_putMsix ..
  · rfl
  · rfl
@[simp] theorem mems_putReg (rq : Requester) (b : Nat) (val : W64) (s : State) : (putReg rq b val s).mems = s.mems := by
  unfold putReg
  repeat' (first
    | with_reducible rfl
    | with_reducible exact mems_rwpWrite ..
    | with_reducible exact mems_putAccerr ..
    | with_reducible exact mems_doHubNumctlWrite ..
    | with_reducible exact mems_doHubNumringWrite ..
    | with_reducible exact mems_doHubSpecWrite ..
    | with_reducible exact mems_doRingTableWrite ..
    | with_reducible exact mems_putPage ..
    | with_reducible exact mems_putMsixOf ..
    | with_reducible exact mems_putLnk ..
    | with_reducible exact mems_putErr ..
    | with_reducible exact mems_doPwrCtlWrite ..
    | with_reducible exact mems_doPwrBallastWrite ..
    | with_reducible exact mems_doPmcSmpTailWrite ..
    | with_reducible exact mems_putGsel ..
    | with_reducible refine mems_if ?_ ?_
    | exact mems_putMsixOf ..)

@[simp] theorem mems_keepHeld (rq : Requester) (b : Nat) (s : State) :
    (keepHeld rq b s).mems = s.mems := by
  unfold keepHeld
  with_reducible rfl

@[simp] theorem mems_writeWord (rq : Requester) (a : Nat) (v : W32) (s : State) :
    (writeWord rq a v s).mems = s.mems := by
  unfold writeWord
  repeat' (first
    | with_reducible rfl
    | with_reducible assumption
    | (extract_lets +onlyGivenNames x; first
      | (have hx : State.mems x = s.mems := ?_; clear_value x; rename' x => y; on_goal 2 => (dsimp -zeta only [x] <;> clear x))
      | (clear_value x; rename' x => y)
      | (rename' x => y))
    | with_reducible refine (mems_keepHeld ..).trans ?_
    | with_reducible refine (mems_putReg ..).trans ?_
    | with_reducible refine (mems_dropHeld ..).trans ?_
    | split
    | dsimp -zeta only
    | simp -zeta only [*])

@[simp] theorem mems_writeAt (rq : Requester) (a size : Nat) (val : W64) (s : State) :
    (writeAt rq a size val s).mems = s.mems := by
  unfold writeAt
  repeat' (first
    | with_reducible rfl
    | with_reducible assumption
    | (extract_lets +onlyGivenNames x; first
      | (have hx : State.mems x = s.mems := ?_; clear_value x; rename' x => y; on_goal 2 => (dsimp -zeta only [x] <;> clear x))
      | (clear_value x; rename' x => y)
      | (rename' x => y))
    | with_reducible refine (mems_dropHeld ..).trans ?_
    | with_reducible refine (mems_putReg ..).trans ?_
    | with_reducible refine (mems_writeWord ..).trans ?_
    | split
    | dsimp -zeta only
    | simp -zeta only [*])

/-! ## Dump -/

@[simp] theorem mems_dumpContent (size ty ctx : Nat) (s : State) :
    (dumpContent size ty ctx s).2.mems = s.mems := by
  unfold dumpContent
  repeat' (first | with_reducible rfl | with_reducible refine (mems_freeBelow ..).trans ?_ | with_reducible refine (mems_freeBits ..).trans ?_ | split)

@[simp] theorem mems_dumpFill (size : Nat) (l : List (Nat × Nat)) (off : Nat) (s : State) :
    (dumpFill size l off s).2.mems = s.mems := by
  induction l generalizing off s with
  | nil => rfl
  | cons w l ih => unfold dumpFill; dsimp only; repeat' (first | rfl | split | simp [-Prod.mk.injEq, ih])

@[simp] theorem mems_fwFails (s : State) :
    (fwFails s).mems = s.mems := by
  unfold fwFails
  repeat' (first
    | with_reducible rfl
    | with_reducible assumption
    | (extract_lets +onlyGivenNames x; first
      | (have hx : State.mems x = s.mems := ?_; clear_value x; rename' x => y; on_goal 2 => (dsimp -zeta only [x] <;> clear x))
      | (have hx : State.mems x.2 = s.mems := ?_; clear_value x; rename' x => y; on_goal 2 => (dsimp -zeta only [x] <;> clear x))
      | (have hx : State.mems x.2.2 = s.mems := ?_; clear_value x; rename' x => y; on_goal 2 => (dsimp -zeta only [x] <;> clear x))
      | (clear_value x; rename' x => y)
      | (rename' x => y))
    | with_reducible refine (mems_freeBits ..).trans ?_
    | with_reducible refine (mems_postRec ..).trans ?_
    | with_reducible refine (mems_finish ..).trans ?_
    | split
    | dsimp -zeta only
    | simp -zeta only [*])

/-! ## Tick -/

@[simp] theorem mems_warmStep (s : State) :
    (warmStep s).mems = s.mems := by
  unfold warmStep
  repeat' (first | with_reducible rfl | with_reducible refine (mems_moveLevel ..).trans ?_ | split)

/-- The passing of a gc moves only the bytes of the lanes that pass in it. -/
theorem mems_tick (s : State) (h : s.clk.pccRun = true) : (tick s).mems = (laneStep (eccStep s)).mems := by
  unfold tick
  rw [if_neg (by simp [h])]
  extract_lets s1 n us s2 charge
  refine (mems_gateStep ..).trans ?_
  exact (mems_warmStep ..).trans rfl

end Sys2Proof.Machine
end

