-- ==== Sys2Proof/Laws/Memory.lean ====
section
/-! SUPPORT. The sparse memories: every operation on one keeps the canonical form, a byte reads as what was last written
to it, and two memories in the canonical form that read alike are the same list. -/

namespace Sys2Proof.Machine

open Sys2Proof

theorem rising_iff (m : Mem) : rising m = true ↔ m.Pairwise (fun a b => a.1 < b.1) := by
  induction m with
  | nil => simp [rising]
  | cons e m ih =>
    cases m with
    | nil => simp [rising]
    | cons f m =>
      simp only [rising, Bool.and_eq_true, decide_eq_true_eq, ih]
      constructor
      · rintro ⟨h, k⟩
        refine List.pairwise_cons.2 ⟨?_, k⟩
        intro x hx
        rcases List.mem_cons.1 hx with rfl | hx
        · exact h
        · exact h.trans ((List.pairwise_cons.1 k).1 x hx)
      · intro h
        exact ⟨(List.pairwise_cons.1 h).1 f (by simp), (List.pairwise_cons.1 h).2⟩

theorem wf_iff (m : Mem) : Memory.wf m = true ↔ m.Pairwise (fun a b => a.1 < b.1) ∧ ∀ e ∈ m, e.2 ≠ 0 := by
  simp [Memory.wf, rising_iff]

theorem wf_nil : Memory.wf [] = true := rfl

theorem wf_cons (e : Host.Cell) (m : Mem) :
    Memory.wf (e :: m) = true ↔ (∀ x ∈ m, e.1 < x.1) ∧ e.2 ≠ 0 ∧ Memory.wf m = true := by
  simp only [wf_iff, List.pairwise_cons, List.mem_cons, forall_eq_or_imp]
  tauto

theorem mem_memSet {k : Nat} {v : Byte} {m : Mem} {x : Host.Cell} (h : x ∈ memSet k v m) : x = (k, v) ∨ x ∈ m := by
  induction m with
  | nil => unfold memSet at h; split at h <;> simp_all
  | cons e m ih =>
    obtain ⟨a, b⟩ := e
    unfold memSet at h
    split at h
    · split at h
      · exact .inr h
      · simpa using h
    · split at h
      · split at h
        · exact .inr (List.mem_cons_of_mem _ h)
        · rcases List.mem_cons.1 h with h | h
          · exact .inl h
          · exact .inr (List.mem_cons_of_mem _ h)
      · rcases List.mem_cons.1 h with h | h
        · exact .inr (by rw [h]; simp)
        · rcases ih h with h | h
          · exact .inl h
          · exact .inr (List.mem_cons_of_mem _ h)

/-- A byte that is written keeps the canonical form. -/
theorem wf_memSet (k : Nat) (v : Byte) (m : Mem) (h : Memory.wf m = true) : Memory.wf (memSet k v m) = true := by
  induction m with
  | nil =>
    unfold memSet
    split
    · rfl
    · rename_i hv; simpa [Memory.wf, rising] using hv
  | cons e m ih =>
    obtain ⟨a, b⟩ := e
    have hc := (wf_cons _ _).1 h
    unfold memSet
    split
    · rename_i hk
      split
      · exact h
      · rename_i hv
        refine (wf_cons _ _).2 ⟨?_, hv, h⟩
        intro x hx
        rcases List.mem_cons.1 hx with rfl | hx
        · exact hk
        · exact hk.trans (hc.1 x hx)
    · rename_i hk
      split
      · rename_i ha
        split
        · exact hc.2.2
        · rename_i hv
          refine (wf_cons _ _).2 ⟨?_, hv, hc.2.2⟩
          intro x hx
          have := hc.1 x hx
          dsimp only at this ⊢
          omega
      · rename_i ha
        refine (wf_cons _ _).2 ⟨?_, hc.2.1, ih hc.2.2⟩
        intro x hx
        rcases mem_memSet hx with rfl | hx
        · dsimp only; omega
        · exact hc.1 x hx

/-- An address below every one listed reads as 0. -/
theorem memByte_below {k : Nat} {m : Mem} (h : ∀ x ∈ m, k < x.1) : memByte m k = 0 := by
  induction m with
  | nil => rfl
  | cons e m ih =>
    obtain ⟨a, b⟩ := e
    have := h (a, b) (by simp)
    unfold memByte
    rw [if_neg (by dsimp only at this; omega)]
    exact ih (fun x hx => h x (List.mem_cons_of_mem _ hx))

/-- A read after a write of one byte. -/
theorem memByte_memSet (k j : Nat) (v : Byte) (m : Mem) (h : Memory.wf m = true) :
    memByte (memSet k v m) j = if j = k then v else memByte m j := by
  induction m with
  | nil =>
    unfold memSet
    split
    · rename_i hv; subst hv; split <;> rfl
    · simp only [memByte, eq_comm]
  | cons e m ih =>
    obtain ⟨a, b⟩ := e
    have hc := (wf_cons _ _).1 h
    dsimp only at hc
    unfold memSet
    split
    · rename_i hk
      split
      · rename_i hv
        subst hv
        split
        · rename_i hj
          subst hj
          refine memByte_below ?_
          intro x hx
          rcases List.mem_cons.1 hx with rfl | hx
          · exact hk
          · exact hk.trans (hc.1 x hx)
        · rfl
      · rw [memByte]; simp only [eq_comm]
    · split
      · rename_i hk ha
        subst ha
        split
        · rename_i hv
          subst hv
          split
          · rename_i hj; subst hj; exact memByte_below hc.1
          · rename_i hj; rw [memByte, if_neg (Ne.symm hj)]
        · by_cases hj : j = a
          · subst hj; simp [memByte]
          · simp [memByte, hj, Ne.symm hj]
      · rename_i hk ha
        by_cases hj : a = j
        · subst hj; simp [memByte, ha]
        · simp only [memByte, if_neg hj, ih hc.2.2]

theorem wf_memWrite (a : Nat) (l : List Byte) (m : Mem) (h : Memory.wf m = true) : Memory.wf (memWrite m a l) = true := by
  induction l generalizing a m with
  | nil => exact h
  | cons b l ih => exact ih (a + 1) _ (wf_memSet a b m h)

/-- A read after a write of a run of bytes. -/
theorem memByte_memWrite (a j : Nat) (l : List Byte) (m : Mem) (h : Memory.wf m = true) :
    memByte (memWrite m a l) j = if a ≤ j ∧ j < a + l.length then l.getD (j - a) 0 else memByte m j := by
  induction l generalizing a m with
  | nil => rw [if_neg (by simp)]; rfl
  | cons b l ih =>
    rw [memWrite, ih (a + 1) _ (wf_memSet a b m h), memByte_memSet a j b m h, List.length_cons]
    by_cases h1 : a + 1 ≤ j ∧ j < a + 1 + l.length
    · rw [if_pos h1, if_pos (by omega), show j - a = (j - (a + 1)) + 1 by omega]
      rfl
    · rw [if_neg h1]
      by_cases h2 : j = a
      · rw [if_pos h2, if_pos (by omega), h2, Nat.sub_self]; rfl
      · rw [if_neg h2, if_neg (by omega)]

theorem wf_filter (p : Host.Cell → Bool) (m : Mem) (h : Memory.wf m = true) : Memory.wf (m.filter p) = true := by
  rw [wf_iff] at h ⊢
  exact ⟨h.1.sublist List.filter_sublist, fun e he => h.2 e (List.mem_of_mem_filter he)⟩

theorem wf_memClear (a n : Nat) (m : Mem) (h : Memory.wf m = true) : Memory.wf (memClear a n m) = true := wf_filter _ m h

/-- A cleared range reads as 0, and the rest as before. -/
theorem memByte_memClear (a n j : Nat) (m : Mem) :
    memByte (memClear a n m) j = if a ≤ j ∧ j < a + n then 0 else memByte m j := by
  induction m with
  | nil => split <;> rfl
  | cons e m ih =>
    obtain ⟨b, v⟩ := e
    unfold memClear at ih ⊢
    by_cases hb : (b < a || a + n ≤ b) = true
    · rw [List.filter_cons_of_pos (by exact hb), memByte, memByte, ih]
      simp only [Bool.or_eq_true, decide_eq_true_eq] at hb
      by_cases hj : b = j
      · subst hj; rw [if_pos rfl, if_neg (by omega), if_pos rfl]
      · rw [if_neg hj, if_neg hj]
    · rw [List.filter_cons_of_neg (by exact hb), memByte, ih]
      simp only [Bool.or_eq_true, decide_eq_true_eq] at hb
      by_cases hj : b = j
      · subst hj; rw [if_pos (by omega), if_pos (by omega)]
      · rw [if_neg hj]

theorem wf_memMove (a n b : Nat) (m : Mem) (h : Memory.wf m = true) : Memory.wf (memMove a n b m) = true := by
  have hf := (wf_iff _).1 (wf_filter (fun e => a ≤ e.1 && e.1 < a + n) m h)
  unfold memMove
  rw [wf_iff]
  constructor
  · rw [List.pairwise_map]
    refine hf.1.imp_of_mem ?_
    intro x y hx hy hxy
    have h1 := List.of_mem_filter hx
    simp only [Bool.and_eq_true, decide_eq_true_eq] at h1
    dsimp only
    omega
  · intro e he
    obtain ⟨x, hx, rfl⟩ := List.mem_map.1 he
    exact hf.2 x hx

/-- Bytes that are moved read at their new place as they did at their old one; nothing else is there. -/
theorem memByte_memMove (a n b j : Nat) (m : Mem) :
    memByte (memMove a n b m) j = if b ≤ j ∧ j < b + n then memByte m (a + (j - b)) else 0 := by
  induction m with
  | nil => split <;> rfl
  | cons e m ih =>
    obtain ⟨c, v⟩ := e
    unfold memMove at ih ⊢
    by_cases hc : (a ≤ c && c < a + n) = true
    · rw [List.filter_cons_of_pos (by exact hc), List.map_cons, memByte, ih]
      simp only [Bool.and_eq_true, decide_eq_true_eq] at hc
      dsimp only
      by_cases hj : c - a + b = j
      · rw [if_pos hj, if_pos (by omega), memByte, if_pos (by omega)]
      · rw [if_neg hj]
        split
        · rw [memByte, if_neg (by omega)]
        · rfl
    · rw [List.filter_cons_of_neg (by exact hc), ih]
      simp only [Bool.and_eq_true, decide_eq_true_eq] at hc
      split
      · rw [memByte, if_neg (by omega)]
      · rfl

theorem wf_memBits (m : Mem) (b w v : Nat) (h : Memory.wf m = true) : Memory.wf (memBits m b w v) = true := by
  unfold memBits
  split
  · exact wf_memWrite _ _ _ h
  · exact wf_memWrite _ _ _ h

/-- A run of writes, one after the other. -/
theorem wf_foldl {α : Type} (f : Mem → α → Mem) (hf : ∀ m a, Memory.wf m = true → Memory.wf (f m a) = true) (l : List α)
    (m : Mem) (h : Memory.wf m = true) : Memory.wf (l.foldl f m) = true := by
  induction l generalizing m with
  | nil => exact h
  | cons a l ih => exact ih _ (hf m a h)

/-- Memories in the canonical form that read alike are equal. -/
theorem wf_ext (m n : Mem) (hm : Memory.wf m = true) (hn : Memory.wf n = true) (h : ∀ k, memByte m k = memByte n k) :
    m = n := by
  induction m generalizing n with
  | nil =>
    cases n with
    | nil => rfl
    | cons e n =>
      have := h e.1
      rw [memByte, memByte, if_pos rfl] at this
      exact absurd this.symm ((wf_cons _ _).1 hn).2.1
  | cons d m ih =>
    obtain ⟨a, v⟩ := d
    have hm' := (wf_cons _ _).1 hm
    cases n with
    | nil =>
      have := h a
      rw [memByte, memByte, if_pos rfl] at this
      exact absurd this hm'.2.1
    | cons e n =>
      obtain ⟨b, w⟩ := e
      have hn' := (wf_cons _ _).1 hn
      dsimp only at hm' hn'
      have hab : a = b := by
        rcases Nat.lt_trichotomy a b with hl | he | hg
        · have := h a
          rw [memByte, if_pos rfl, memByte, if_neg (by omega), memByte_below (fun x hx => hl.trans (hn'.1 x hx))] at this
          exact absurd this hm'.2.1
        · exact he
        · have := h b
          rw [memByte, if_neg (by omega), memByte, if_pos rfl, memByte_below (fun x hx => hg.trans (hm'.1 x hx))] at this
          exact absurd this.symm hn'.2.1
      subst hab
      have hv := h a
      rw [memByte, if_pos rfl, memByte, if_pos rfl] at hv
      subst hv
      congr 1
      refine ih n hm'.2.2 hn'.2.2 ?_
      intro k
      by_cases hk : a = k
      · subst hk; rw [memByte_below hm'.1, memByte_below hn'.1]
      · have := h k
        rwa [memByte, if_neg hk, memByte, if_neg hk] at this

theorem length_leBytes (n v : Nat) : (leBytes n v).length = n := by
  induction n generalizing v with
  | zero => rfl
  | succ n ih => rw [leBytes, List.length_cons, ih]

/-- Bit c of byte i of a number written little-endian (R7). -/
theorem testBit_leBytes (n v i c : Nat) (hi : i < n) (hc : c < 8) :
    ((leBytes n v).getD i 0).toNat.testBit c = v.testBit (8 * i + c) := by
  induction n generalizing v i with
  | zero => omega
  | succ n ih =>
    rw [leBytes]
    cases i with
    | zero =>
      rw [List.getD_cons_zero, BitVec.toNat_ofNat, Nat.mod_mod]
      rw [show 256 = 2 ^ 8 from rfl, Nat.testBit_mod_two_pow]
      simp [hc]
    | succ i =>
      rw [List.getD_cons_succ, ih _ _ (by omega), show 256 = 2 ^ 8 from rfl, Nat.testBit_div_two_pow]
      congr 1
      omega

/-- Bit c of byte i of bytes read little-endian (R7). -/
theorem testBit_leNat (l : List Byte) (i c : Nat) (hc : c < 8) :
    (leNat l).testBit (8 * i + c) = (l.getD i 0).toNat.testBit c := by
  induction l generalizing i with
  | nil => simp [leNat]
  | cons b l ih =>
    have hb : b.toNat < 2 ^ 8 := b.isLt
    rw [leNat, Nat.add_comm, show 256 = 2 ^ 8 from rfl, Nat.testBit_two_pow_mul_add _ hb]
    cases i with
    | zero => rw [if_pos (by omega), List.getD_cons_zero]; congr 1; omega
    | succ i =>
      rw [if_neg (by omega), List.getD_cons_succ, ← ih]
      congr 1
      omega

theorem getD_memRead (m : Mem) (a n i : Nat) : (memRead m a n).getD i 0 = if i < n then memByte m (a + i) else 0 := by
  induction n generalizing a i with
  | zero => rfl
  | succ n ih =>
    rw [memRead]
    cases i with
    | zero => rfl
    | succ i =>
      rw [List.getD_cons_succ, ih, Nat.add_right_comm, Nat.add_assoc]
      split <;> split <;> first | rfl | omega

/-- A read after a write of one element, bit by bit. -/
theorem memBit_memBits (m : Mem) (b w v k : Nat) (h : Memory.wf m = true) :
    memBit (memBits m b w v) k = if b ≤ k ∧ k < b + w then v.testBit (k - b) else memBit m k := by
  have hk : k % 8 < 8 := Nat.mod_lt _ (by decide)
  unfold memBits memBit
  split
  · rename_i hb
    simp only [Bool.and_eq_true, decide_eq_true_eq] at hb
    rw [memByte_memWrite _ _ _ _ h, length_leBytes]
    split
    · rw [testBit_leBytes _ _ _ _ (by omega) hk, if_pos (by omega)]
      congr 1
      omega
    · rw [if_neg (by omega)]
  · dsimp only
    generalize hr : b % 8 = r
    have hr8 : r < 8 := by omega
    generalize hn : (r + w + 7) / 8 = n
    generalize ho : leNat (memRead m (b / 8) n) = old
    rw [memByte_memWrite _ _ _ _ h, length_leBytes]
    have hv : old / 2 ^ (r + w) * 2 ^ (r + w) + v % 2 ^ w * 2 ^ r + old % 2 ^ r =
        2 ^ r * (2 ^ w * (old / 2 ^ (r + w)) + v % 2 ^ w) + old % 2 ^ r := by ring
    rw [hv]
    split
    · rename_i hj
      rw [testBit_leBytes _ _ _ _ (by omega) hk]
      have hob : old.testBit (8 * (k / 8 - b / 8) + k % 8) = (memByte m (k / 8)).toNat.testBit (k % 8) := by
        rw [← ho, testBit_leNat _ _ _ hk, getD_memRead, if_pos (by omega)]
        congr 3
        omega
      have e : 8 * (k / 8 - b / 8) + k % 8 + b = k + r := by omega
      rw [← hob]
      generalize 8 * (k / 8 - b / 8) + k % 8 = x at e
      rw [Nat.testBit_two_pow_mul_add _ (Nat.mod_lt _ (Nat.two_pow_pos r))]
      by_cases h1 : x < r
      · rw [if_pos h1, if_neg (by omega), Nat.testBit_mod_two_pow]; simp [h1]
      · rw [if_neg h1, Nat.testBit_two_pow_mul_add _ (Nat.mod_lt _ (Nat.two_pow_pos w))]
        by_cases h2 : x - r < w
        · rw [if_pos h2, if_pos (by omega), Nat.testBit_mod_two_pow]
          simp only [h2, decide_true, Bool.true_and]
          congr 1
          omega
        · rw [if_neg h2, if_neg (by omega), Nat.testBit_div_two_pow]
          congr 1
          omega
    · rw [if_neg (by omega)]

end Sys2Proof.Machine
end

