-- ==== Sys2Proof/Laws/FormOps.lean ====
section
/-! SUPPORT. What stores keeps the canonical form of every memory: the shared operations, operands, issue and retirement. -/

namespace Sys2Proof.Machine

open Sys2Proof

set_option maxRecDepth 4096
set_option linter.all false

/-- Memories in the canonical form. -/
def memsOk (m : (Mem × Mem × NatMap Mem × Mem × Mem) × (Mem × Mem) × (Nat → Mem)) : Prop :=
  Memory.wf m.1.1 = true ∧ Memory.wf m.1.2.1 = true ∧ (∀ d, Memory.wf (nmGetD m.1.2.2.1 d []) = true) ∧
    Memory.wf m.1.2.2.2.1 = true ∧ Memory.wf m.1.2.2.2.2 = true ∧ Memory.wf m.2.1.1 = true ∧ Memory.wf m.2.1.2 = true ∧
    ∀ q, Memory.wf (m.2.2 q) = true
/-- Every memory of the state in the canonical form. -/
@[reducible] def memOk (s : State) : Prop := memsOk s.mems
theorem memOk_of_mems {s t : State} (h : t.mems = s.mems) (hs : memOk s) : memOk t := by unfold memOk; rw [h]; exact hs
theorem ok_foldl {α : Type} (f : State → α → State) (l : List α) (s : State) (h : memOk s)
    (hf : ∀ s a, memOk s → memOk (f s a)) : memOk (l.foldl f s) := by
  induction l generalizing s with
  | nil => exact h
  | cons a l ih => exact ih _ (hf _ _ h)
theorem ok_fold2 {α β : Type} (f : β × State → α → β × State) (l : List α) (x : β × State) (h : memOk x.2)
    (hf : ∀ s b a, memOk s → memOk (f (b, s) a).2) : memOk (l.foldl f x).2 := by
  induction l generalizing x with
  | nil => exact h
  | cons a l ih => exact ih _ (hf x.2 x.1 a h)
/-- A run of changes of a drive's bytes. -/
theorem wf_nmUpdD (m : NatMap Mem) (d : Nat) (f : Mem → Mem) (hf : ∀ x, Memory.wf x = true → Memory.wf (f x) = true)
    (h : ∀ d, Memory.wf (nmGetD m d []) = true) (e : Nat) : Memory.wf (nmGetD (nmUpdD d [] f m) e []) = true := by
  unfold nmUpdD nmGetD
  by_cases he : e = d
  · subst he; rw [nmGet_nmSet]; exact hf _ (h e)
  · rw [nmGet_nmSet_ne _ _ _ _ he]; exact h e
/-- A change of the horizons' bytes that keeps their form. -/
theorem ok_updHz (f : Hz → Hz) (s : State) (h : memOk s) (h1 : Memory.wf (f s.hz).hz1 = true) (h2 : Memory.wf (f s.hz).hz2 = true)
    (h3 : ∀ d, Memory.wf (nmGetD (f s.hz).hz3 d []) = true) (h4 : Memory.wf (f s.hz).host0 = true)
    (h5 : Memory.wf (f s.hz).host1 = true) : memOk (updHz f s) := by
  obtain ⟨-, -, -, -, -, h6, h7, h8⟩ := h
  exact ⟨h1, h2, h3, h4, h5, h6, h7, h8⟩
/-- A change of one local store that keeps its form. -/
theorem ok_updPhys (q : Nat) (f : Phys → Phys) (s : State) (h : memOk s)
    (hf : ∀ x, Memory.wf x.ls = true → Memory.wf (f x).ls = true) : memOk (updPhys q f s) := by
  obtain ⟨h1, h2, h3, h4, h5, h6, h7, h8⟩ := h
  refine ⟨h1, h2, h3, h4, h5, h6, h7, ?_⟩
  intro k
  show Memory.wf (lsOf (nmUpdD q physReset f s.phys) k) = true
  unfold lsOf nmUpdD nmGetD
  by_cases hk : k = q
  · subst hk; rw [nmGet_nmSet]; exact hf _ (h8 k)
  · rw [nmGet_nmSet_ne _ _ _ _ hk]; exact h8 k
/-- A change of every local store that keeps its form. -/
theorem wf_lsOf_map (m : NatMap Phys) (f : Nat × Phys → Nat × Phys)
    (hf : ∀ e, (f e).1 = e.1 ∧ (Memory.wf e.2.ls = true → Memory.wf (f e).2.ls = true))
    (h : ∀ q, Memory.wf (lsOf m q) = true) (q : Nat) : Memory.wf (lsOf (m.map f) q) = true := by
  have aux : ∀ x, nmGet (m.map f) q = some x → ∃ y, nmGet m q = some y ∧ (Memory.wf y.ls = true → Memory.wf x.ls = true) := by
    clear h
    induction m with
    | nil => intro x hx; cases hx
    | cons e m ih =>
      intro x hx
      have k := hf e
      rw [List.map_cons] at hx
      obtain ⟨a, y⟩ := e
      generalize f (a, y) = z at k hx
      obtain ⟨b, z⟩ := z
      dsimp only at k
      obtain ⟨rfl, k⟩ := k
      unfold nmGet at hx ⊢
      split at hx
      · rename_i hb; rw [if_pos hb]; cases hx; exact ⟨y, rfl, k⟩
      · rename_i hb; rw [if_neg hb]; exact ih x hx
  have hq := h q
  unfold lsOf nmGetD at hq ⊢
  cases hx : nmGet (m.map f) q with
  | none => rfl
  | some x =>
    obtain ⟨y, hy, k⟩ := aux x hx
    rw [hy] at hq
    exact k hq

/-! ## Ops -/

theorem ok_onBar (rq : Requester) (f : State → State) (s : State) (h : ∀ s, memOk s → memOk (f s)) (hok : memOk s) :
    memOk (onBar rq f s) := by
  unfold onBar; split
  · exact hok
  · exact h _ (memOk_of_mems (mems_dropHeld ..) hok)

theorem ok_locSet (v : Byte) (l : Loc) (s : State) (h : memOk s) : memOk (locSet v l s) := by
  obtain ⟨h1, h2, h3, h4, h5, -⟩ := id h
  unfold locSet
  split
  · exact ok_updHz _ _ h (wf_memSet _ _ _ h1) h2 h3 h4 h5
  · exact ok_updHz _ _ h h1 (wf_memSet _ _ _ h2) h3 h4 h5
  · exact ok_updHz _ _ h h1 h2 (wf_nmUpdD _ _ _ (wf_memSet _ _) h3) h4 h5
  · split
    · exact ok_updHz _ _ h h1 h2 h3 (wf_memSet _ _ _ h4) h5
    · exact ok_updHz _ _ h h1 h2 h3 h4 (wf_memSet _ _ _ h5)

theorem ok_objWrite (h : W32) (bs : List (Nat × Byte)) (s : State) (hok : memOk s) :
    memOk (objWrite h bs s) := by
  unfold objWrite
  repeat' (first
    | with_reducible assumption
    | (extract_lets +onlyGivenNames x; first
      | (have hx : memOk x := ?_; clear_value x; rename' x => y; on_goal 2 => (dsimp -zeta only [x] <;> clear x))
      | (clear_value x; rename' x => y)
      | (rename' x => y))
    | with_reducible refine memOk_of_mems (mems_hz4Failure ..) ?_
    | with_reducible apply ok_locSet
    | with_reducible refine memOk_of_mems (mems_clearPoison ..) ?_
    | with_reducible refine memOk_of_mems (mems_putCrcs ..) ?_
    | with_reducible refine memOk_of_mems (mems_noteWrite ..) ?_
    | with_reducible apply ok_foldl
    | with_reducible apply ok_fold2
    | (intro _ _ _ _)
    | (intro _ _ _)
    | (intro _ _)
    | split
    | dsimp -zeta only)

theorem ok_objWriteAt (h : W32) (off : Nat) (b : List Byte) (s : State) (hok : memOk s) :
    memOk (objWriteAt h off b s) := by
  unfold objWriteAt
  repeat' (first | with_reducible assumption | with_reducible apply ok_objWrite | split)

theorem ok_objWriteBits (h : W32) (ws : List (Nat × Nat × Nat × Bool)) (s : State) (hok : memOk s) :
    memOk (objWriteBits h ws s) := by
  unfold objWriteBits
  repeat' (first
    | with_reducible assumption
    | (extract_lets +onlyGivenNames x; first
      | (have hx : memOk x := ?_; clear_value x; rename' x => y; on_goal 2 => (dsimp -zeta only [x] <;> clear x))
      | (clear_value x; rename' x => y)
      | (rename' x => y))
    | with_reducible apply ok_objWrite
    | with_reducible refine memOk_of_mems (mems_objSetPoison ..) ?_
    | with_reducible apply ok_foldl
    | with_reducible apply ok_fold2
    | (intro _ _ _ _)
    | (intro _ _ _)
    | (intro _ _)
    | split
    | dsimp -zeta only)

theorem ok_freeFrame (hzn f : Nat) (s : State) (h : memOk s) : memOk (freeFrame hzn f s) := by
  obtain ⟨h1, h2, h3, h4, h5, -⟩ := id h
  unfold freeFrame
  split
  · exact ok_updHz _ _ h (wf_memClear _ _ _ h1) h2 h3 h4 h5
  · exact ok_updHz _ _ h h1 (wf_memClear _ _ _ h2) h3 h4 h5

theorem ok_freeDrive (d f : Nat) (s : State) (h : memOk s) : memOk (freeDrive d f s) := by
  obtain ⟨h1, h2, h3, h4, h5, -⟩ := id h
  exact memOk_of_mems (mems_nvmePut ..) (ok_updHz _ _ h h1 h2 (wf_nmUpdD _ _ _ (wf_memClear _ _) h3) h4 h5)

theorem ok_freeHome (g : Gran) (s : State) (hok : memOk s) :
    memOk (freeHome g s) := by
  unfold freeHome
  repeat' (first | with_reducible assumption | with_reducible apply ok_freeFrame | with_reducible apply ok_freeDrive | split)

theorem ok_copyGranule (o : Obj) (j : Nat) (src dst : Loc) (s : State) (h : memOk s) :
    memOk (copyGranule o j src dst s) := by
  obtain ⟨h1, h2, h3, h4, h5, -⟩ := id h
  unfold copyGranule
  split
  · exact h
  · extract_lets data bad put
    have hp : ∀ b m, Memory.wf m = true → Memory.wf (put b m) = true := fun b m hm =>
      wf_foldl _ (fun m e hm => wf_memSet _ _ m hm) _ _ (wf_memClear _ _ _ hm)
    clear_value data bad put
    split
    · exact ok_updHz _ _ h (hp _ _ h1) h2 h3 h4 h5
    · exact ok_updHz _ _ h h1 (hp _ _ h2) h3 h4 h5
    · exact memOk_of_mems (mems_putCrcs ..) (ok_updHz _ _ h h1 h2 (wf_nmUpdD _ _ _ (hp _) h3) h4 h5)
    · split
      · exact ok_updHz _ _ h h1 h2 h3 (hp _ _ h4) h5
      · exact ok_updHz _ _ h h1 h2 h3 h4 (hp _ _ h5)

theorem ok_hostWrite (p a : Nat) (b : List Byte) (s : State) (h : memOk s) : memOk (hostWrite p a b s) := by
  obtain ⟨h1, h2, h3, h4, h5, -⟩ := id h
  unfold hostWrite
  refine memOk_of_mems (mems_emit ..) ?_
  split
  · exact ok_updHz _ _ h h1 h2 h3 (wf_memWrite _ _ _ h4) h5
  · exact ok_updHz _ _ h h1 h2 h3 h4 (wf_memWrite _ _ _ h5)

theorem ok_answerWrite (k : Cmd) (a : Nat) (b : List Byte) (s : State) (hok : memOk s) :
    memOk (answerWrite k a b s) := by
  unfold answerWrite
  repeat' (first
    | with_reducible assumption
    | (extract_lets +onlyGivenNames x; first
      | (have hx : memOk x := ?_; clear_value x; rename' x => y; on_goal 2 => (dsimp -zeta only [x] <;> clear x))
      | (clear_value x; rename' x => y)
      | (rename' x => y))
    | with_reducible refine memOk_of_mems (mems_emit ..) ?_
    | with_reducible apply ok_hostWrite
    | (intro _ _ _ _)
    | (intro _ _ _)
    | (intro _ _)
    | split
    | dsimp -zeta only)

/-! ## Operands -/

theorem ok_lsWrite (p : Place) (ws : List BitW) (s : State) (h : memOk s) : memOk (lsWrite p ws s) :=
  ok_updPhys _ _ _ h (fun _ hx => wf_foldl _ (fun _ _ hm => wf_memBits _ _ _ _ hm) _ _ hx)

theorem ok_landLane (q base : Nat) (e : PendW) (lane : Nat) (s : State) (h : memOk s) : memOk (landLane q base e lane s) :=
  ok_updPhys _ _ _ h (fun _ hx => wf_foldl _ (fun _ _ hm => wf_memBits _ _ _ _ hm) _ _ hx)

theorem ok_lsWriteBytes (p : Place) (a : Nat) (b : List Byte) (s : State) (hok : memOk s) :
    memOk (lsWriteBytes p a b s) := by
  unfold lsWriteBytes
  repeat' (first | with_reducible assumption | with_reducible apply ok_lsWrite | split)

theorem ok_writeView (g vi : Nat) (p : Place) (v : View) (ws : List BitW) (s : State) (hok : memOk s) :
    memOk (writeView g vi p v ws s) := by
  unfold writeView
  repeat' (first
    | with_reducible assumption
    | (extract_lets +onlyGivenNames x; first
      | (have hx : memOk x := ?_; clear_value x; rename' x => y; on_goal 2 => (dsimp -zeta only [x] <;> clear x))
      | (clear_value x; rename' x => y)
      | (rename' x => y))
    | with_reducible apply ok_lsWrite
    | with_reducible refine memOk_of_mems (mems_cacheWrite ..) ?_
    | with_reducible refine memOk_of_mems (mems_noteChk ..) ?_
    | (intro _ _ _ _)
    | (intro _ _ _)
    | (intro _ _)
    | split
    | dsimp -zeta only)

/-! ## Flags -/

theorem ok_putNumRecord (ctx g : Nat) (b : List Byte) (s : State) (hok : memOk s) :
    memOk (putNumRecord ctx g b s) := by
  unfold putNumRecord
  repeat' (first
    | with_reducible assumption
    | (extract_lets +onlyGivenNames x; first
      | (have hx : memOk x := ?_; clear_value x; rename' x => y; on_goal 2 => (dsimp -zeta only [x] <;> clear x))
      | (clear_value x; rename' x => y)
      | (rename' x => y))
    | with_reducible apply ok_objWriteAt
    | with_reducible refine memOk_of_mems (mems_updCtx ..) ?_
    | with_reducible refine memOk_of_mems (mems_bump ..) ?_
    | split
    | dsimp -zeta only)

theorem ok_releaseCounts (g : Nat) (o : OutD) (ctx : Nat) (s : State) (hok : memOk s) :
    memOk (releaseCounts g o ctx s) := by
  unfold releaseCounts
  repeat' (first
    | with_reducible assumption
    | (extract_lets +onlyGivenNames x; first
      | (have hx : memOk x := ?_; clear_value x; rename' x => y; on_goal 2 => (dsimp -zeta only [x] <;> clear x))
      | (clear_value x; rename' x => y)
      | (rename' x => y))
    | with_reducible apply ok_putNumRecord
    | with_reducible refine memOk_of_mems (mems_updCtx ..) ?_
    | with_reducible apply ok_foldl
    | with_reducible apply ok_fold2
    | (intro _ _ _ _)
    | (intro _ _ _)
    | (intro _ _)
    | split
    | dsimp -zeta only)

/-! ## Issue -/

theorem ok_flushSamples (g : Nat) (s : State) (hok : memOk s) :
    memOk (flushSamples g s) := by
  unfold flushSamples
  repeat' (first
    | with_reducible assumption
    | (extract_lets +onlyGivenNames x; first
      | (have hx : memOk x := ?_; clear_value x; rename' x => y; on_goal 2 => (dsimp -zeta only [x] <;> clear x))
      | (clear_value x; rename' x => y)
      | (rename' x => y))
    | with_reducible apply ok_objWriteAt
    | with_reducible refine memOk_of_mems (mems_updGrain ..) ?_
    | with_reducible refine memOk_of_mems (mems_updCtx ..) ?_
    | with_reducible apply ok_foldl
    | with_reducible apply ok_fold2
    | (intro _ _ _ _)
    | (intro _ _ _)
    | (intro _ _)
    | split
    | dsimp -zeta only)

theorem ok_addSample (g : Nat) (b : List Byte) (s : State) (hok : memOk s) :
    memOk (addSample g b s) := by
  unfold addSample
  repeat' (first | with_reducible assumption | with_reducible apply ok_flushSamples | with_reducible refine memOk_of_mems (mems_updCtx ..) ?_ | with_reducible refine memOk_of_mems (mems_updGrain ..) ?_ | split)

theorem ok_issueRow (pick : List Byte → Bool) (faults : State → Iss → List (Bool × Nat)) (act : Iss → State → State)
    (g t : Nat) (s : State) (h : memOk s) (hact : ∀ i s, memOk s → memOk (act i s)) : memOk (issueRow pick faults act g t s) := by
  unfold issueRow
  (try dsimp only)
  repeat' (first
    | with_reducible exact h
    | with_reducible exact memOk_of_mems (mems_skipDesc ..) h
    | with_reducible exact memOk_of_mems (mems_setWait ..) h
    | with_reducible exact memOk_of_mems (mems_descFault ..) h
    | with_reducible exact memOk_of_mems (mems_settle ..) h
    | with_reducible exact memOk_of_mems (mems_settle ..) (hact _ _ (memOk_of_mems (mems_issueDesc ..) h))
    | split)

theorem ok_releaseSample (g : Nat) (o : OutD) (inTask : Bool) (s : State) (hok : memOk s) :
    memOk (releaseSample g o inTask s) := by
  unfold releaseSample
  repeat' (first | with_reducible assumption | with_reducible apply ok_addSample | split)

theorem ok_releaseOut (g : Nat) (o : OutD) (ctx : Nat) (home : W32) (clod : Option Nat) (s : State) (hok : memOk s) :
    memOk (releaseOut g o ctx home clod s) := by
  unfold releaseOut
  repeat' (first | with_reducible assumption | with_reducible apply ok_releaseCounts | with_reducible refine memOk_of_mems (mems_releaseSig ..) ?_ | split)

theorem ok_finishWrites (g : Nat) (o : OutD) (s : State) (hok : memOk s) :
    memOk (finishWrites g o s) := by
  unfold finishWrites
  repeat' (first
    | with_reducible assumption
    | (extract_lets +onlyGivenNames x; first
      | (have hx : memOk x := ?_; clear_value x; rename' x => y; on_goal 2 => (dsimp -zeta only [x] <;> clear x))
      | (clear_value x; rename' x => y)
      | (rename' x => y))
    | with_reducible apply ok_writeView
    | with_reducible refine memOk_of_mems (mems_dropWrites ..) ?_
    | (intro _ _ _ _)
    | (intro _ _ _)
    | (intro _ _)
    | split
    | dsimp -zeta only)

theorem ok_doDescriptorComplete (g ser : Nat) (s : State) (hok : memOk s) :
    memOk (doDescriptorComplete g ser s) := by
  unfold doDescriptorComplete
  repeat' (first
    | with_reducible assumption
    | (extract_lets +onlyGivenNames x; first
      | (have hx : memOk x := ?_; clear_value x; rename' x => y; on_goal 2 => (dsimp -zeta only [x] <;> clear x))
      | (clear_value x; rename' x => y)
      | (rename' x => y))
    | with_reducible refine memOk_of_mems (mems_settle ..) ?_
    | with_reducible apply ok_finishWrites
    | with_reducible apply ok_releaseSample
    | with_reducible refine memOk_of_mems (mems_updThr ..) ?_
    | with_reducible apply ok_releaseOut
    | with_reducible refine memOk_of_mems (mems_updGrain ..) ?_
    | with_reducible refine memOk_of_mems (mems_retireOut ..) ?_
    | with_reducible refine memOk_of_mems (mems_flushDone ..) ?_
    | (intro _ _ _ _)
    | (intro _ _ _)
    | (intro _ _)
    | split
    | dsimp -zeta only)

theorem ok_noEffect (i : Iss) (s : State) (hok : memOk s) :
    memOk (noEffect i s) := by
  unfold noEffect
  repeat' (first
    | with_reducible assumption
    | (extract_lets +onlyGivenNames x; first
      | (have hx : memOk x := ?_; clear_value x; rename' x => y; on_goal 2 => (dsimp -zeta only [x] <;> clear x))
      | (clear_value x; rename' x => y)
      | (rename' x => y))
    | with_reducible apply ok_doDescriptorComplete
    | with_reducible refine memOk_of_mems (mems_updOut ..) ?_
    | (intro _ _ _ _)
    | (intro _ _ _)
    | (intro _ _)
    | split
    | dsimp -zeta only)

end Sys2Proof.Machine
end

