-- ==== Sys2Proof/Laws/FormGrain.lean ====
section
/-! SUPPORT. What stores keeps the canonical form of every memory: the engines, the fabric, synchronisation and objects. -/

namespace Sys2Proof.Machine

open Sys2Proof

set_option maxRecDepth 4096
set_option linter.all false

/-! ## Array -/

theorem ok_passAct (i : Iss) (s : State) (hok : memOk s) :
    memOk (passAct i s) := by
  unfold passAct
  repeat' (first
    | with_reducible assumption
    | (extract_lets +onlyGivenNames x; first
      | (have hx : memOk x := ?_; clear_value x; rename' x => y; on_goal 2 => (dsimp -zeta only [x] <;> clear x))
      | (clear_value x; rename' x => y)
      | (rename' x => y))
    | with_reducible apply ok_noEffect
    | with_reducible refine memOk_of_mems (mems_bump ..) ?_
    | with_reducible refine memOk_of_mems (mems_passRun ..) ?_
    | (intro _ _ _ _)
    | (intro _ _ _)
    | (intro _ _)
    | split
    | dsimp -zeta only)

theorem ok_doArrPass (g t : Nat) (s : State) (hok : memOk s) :
    memOk (doArrPass g t s) := by
  unfold doArrPass
  repeat' (first
    | with_reducible assumption
    | (extract_lets +onlyGivenNames x; first
      | (have hx : memOk x := ?_; clear_value x; rename' x => y; on_goal 2 => (dsimp -zeta only [x] <;> clear x))
      | (clear_value x; rename' x => y)
      | (rename' x => y))
    | with_reducible apply ok_issueRow
    | with_reducible apply ok_passAct
    | (intro _ _ _ _)
    | (intro _ _ _)
    | (intro _ _)
    | split
    | dsimp -zeta only)

theorem ok_doArrConv (g t : Nat) (s : State) (hok : memOk s) :
    memOk (doArrConv g t s) := by
  unfold doArrConv
  repeat' (first
    | with_reducible assumption
    | (extract_lets +onlyGivenNames x; first
      | (have hx : memOk x := ?_; clear_value x; rename' x => y; on_goal 2 => (dsimp -zeta only [x] <;> clear x))
      | (clear_value x; rename' x => y)
      | (rename' x => y))
    | with_reducible apply ok_issueRow
    | with_reducible apply ok_passAct
    | (intro _ _ _ _)
    | (intro _ _ _)
    | (intro _ _)
    | split
    | dsimp -zeta only)

/-! ## Vector -/

theorem ok_vecAct (i : Iss) (s : State) (hok : memOk s) :
    memOk (vecAct i s) := by
  unfold vecAct
  repeat' (first
    | with_reducible assumption
    | (extract_lets +onlyGivenNames x; first
      | (have hx : memOk x := ?_; clear_value x; rename' x => y; on_goal 2 => (dsimp -zeta only [x] <;> clear x))
      | (clear_value x; rename' x => y)
      | (rename' x => y))
    | with_reducible apply ok_noEffect
    | with_reducible refine memOk_of_mems (mems_touchLines ..) ?_
    | (intro _ _ _ _)
    | (intro _ _ _)
    | (intro _ _)
    | split
    | dsimp -zeta only)

theorem ok_doVec (g t : Nat) (s : State) (hok : memOk s) :
    memOk (doVec g t s) := by
  unfold doVec
  repeat' (first
    | with_reducible assumption
    | (extract_lets +onlyGivenNames x; first
      | (have hx : memOk x := ?_; clear_value x; rename' x => y; on_goal 2 => (dsimp -zeta only [x] <;> clear x))
      | (clear_value x; rename' x => y)
      | (rename' x => y))
    | with_reducible apply ok_issueRow
    | with_reducible apply ok_vecAct
    | (intro _ _ _ _)
    | (intro _ _ _)
    | (intro _ _)
    | split
    | dsimp -zeta only)

theorem ok_doVecDeriv (g t : Nat) (s : State) (hok : memOk s) :
    memOk (doVecDeriv g t s) := by
  unfold doVecDeriv
  repeat' (first
    | with_reducible assumption
    | (extract_lets +onlyGivenNames x; first
      | (have hx : memOk x := ?_; clear_value x; rename' x => y; on_goal 2 => (dsimp -zeta only [x] <;> clear x))
      | (clear_value x; rename' x => y)
      | (rename' x => y))
    | with_reducible apply ok_issueRow
    | with_reducible apply ok_vecAct
    | (intro _ _ _ _)
    | (intro _ _ _)
    | (intro _ _)
    | split
    | dsimp -zeta only)

theorem ok_doRngFill (g t : Nat) (s : State) (hok : memOk s) :
    memOk (doRngFill g t s) := by
  unfold doRngFill
  repeat' (first
    | with_reducible assumption
    | (extract_lets +onlyGivenNames x; first
      | (have hx : memOk x := ?_; clear_value x; rename' x => y; on_goal 2 => (dsimp -zeta only [x] <;> clear x))
      | (clear_value x; rename' x => y)
      | (rename' x => y))
    | with_reducible apply ok_issueRow
    | with_reducible apply ok_vecAct
    | (intro _ _ _ _)
    | (intro _ _ _)
    | (intro _ _)
    | split
    | dsimp -zeta only)

theorem ok_doRoute (g t : Nat) (s : State) (hok : memOk s) :
    memOk (doRoute g t s) := by
  unfold doRoute
  repeat' (first
    | with_reducible assumption
    | (extract_lets +onlyGivenNames x; first
      | (have hx : memOk x := ?_; clear_value x; rename' x => y; on_goal 2 => (dsimp -zeta only [x] <;> clear x))
      | (clear_value x; rename' x => y)
      | (rename' x => y))
    | with_reducible apply ok_issueRow
    | with_reducible apply ok_vecAct
    | (intro _ _ _ _)
    | (intro _ _ _)
    | (intro _ _)
    | split
    | dsimp -zeta only)

/-! ## Dma -/

theorem ok_applyPrep (ctx : Nat) (e : Nat × Nat × Prep) (s : State) (hok : memOk s) :
    memOk (applyPrep ctx e s) := by
  unfold applyPrep
  repeat' (first
    | with_reducible assumption
    | (extract_lets +onlyGivenNames x; first
      | (have hx : memOk x := ?_; clear_value x; rename' x => y; on_goal 2 => (dsimp -zeta only [x] <;> clear x))
      | (clear_value x; rename' x => y)
      | (rename' x => y))
    | with_reducible refine memOk_of_mems (mems_noteObj ..) ?_
    | with_reducible apply ok_objWriteBits
    | with_reducible refine memOk_of_mems (mems_localWrite ..) ?_
    | with_reducible refine memOk_of_mems (mems_semAdd ..) ?_
    | (intro _ _ _ _)
    | (intro _ _ _)
    | (intro _ _)
    | split
    | dsimp -zeta only)

theorem ok_applyAll (ctx : Nat) (l : List (Nat × Nat × Prep)) (s : State) (hok : memOk s) :
    memOk (applyAll ctx l s) := by
  unfold applyAll
  repeat' (first
    | with_reducible assumption
    | (extract_lets +onlyGivenNames x; first
      | (have hx : memOk x := ?_; clear_value x; rename' x => y; on_goal 2 => (dsimp -zeta only [x] <;> clear x))
      | (clear_value x; rename' x => y)
      | (rename' x => y))
    | with_reducible apply ok_applyPrep
    | with_reducible apply ok_foldl
    | with_reducible apply ok_fold2
    | (intro _ _ _ _)
    | (intro _ _ _)
    | (intro _ _)
    | split
    | dsimp -zeta only)

theorem ok_endAtom (g ser : Nat) (apply : Nat → List (Nat × Nat × Prep) → State → State) (s : State) (h : memOk s)
    (ha : ∀ c x s, memOk s → memOk (apply c x s)) : memOk (endAtom g ser apply s) := by
  unfold endAtom
  split
  · exact h
  · extract_lets s1 s2
    have h2 : memOk s2 := ok_foldl _ _ _ (memOk_of_mems (s := s) rfl h) (fun s _ hs => memOk_of_mems (mems_emit ..) hs)
    split
    · exact ha _ _ _ h2
    · exact memOk_of_mems (mems_clodAbortRec ..) h2

theorem ok_copyNow (o : Obj) (w : CopyOf) (j : Nat) (src dst : Loc) (s : State) (h : memOk s) :
    memOk (copyNow o w j src dst s) := by
  unfold copyNow
  extract_lets bad lost gone old s1 s2 words
  have h1 : memOk s1 := ok_copyGranule _ _ _ _ _ h
  have h2 : memOk s2 := by
    refine ok_foldl _ _ _ h1 (fun s e hs => ?_)
    obtain ⟨a1, a2, a3, a4, a5, -⟩ := id hs
    split
    · exact ok_updHz _ _ hs a1 a2 a3 (wf_memWrite _ _ _ a4) a5
    · exact ok_updHz _ _ hs a1 a2 a3 a4 (wf_memWrite _ _ _ a5)
  exact memOk_of_mems (mems_updHz _ _ (by rfl)) h2

theorem ok_evictDone (h : W32) (j : Nat) (s : State) (hok : memOk s) :
    memOk (evictDone h j s) := by
  unfold evictDone
  repeat' (first
    | with_reducible assumption
    | (extract_lets +onlyGivenNames x; first
      | (have hx : memOk x := ?_; clear_value x; rename' x => y; on_goal 2 => (dsimp -zeta only [x] <;> clear x))
      | (clear_value x; rename' x => y)
      | (rename' x => y))
    | with_reducible refine memOk_of_mems (mems_updHz _ _ (by rfl)) ?_
    | with_reducible apply ok_copyNow
    | with_reducible apply ok_freeFrame
    | with_reducible refine memOk_of_mems (mems_updObj ..) ?_
    | (intro _ _ _ _)
    | (intro _ _ _)
    | (intro _ _)
    | split
    | dsimp -zeta only)

theorem ok_copyServed (q : Req) (w : CopyOf) (write : Bool) (u : Nat) (s : State) (hok : memOk s) :
    memOk (copyServed q w write u s) := by
  unfold copyServed
  repeat' (first
    | with_reducible assumption
    | (extract_lets +onlyGivenNames x; first
      | (have hx : memOk x := ?_; clear_value x; rename' x => y; on_goal 2 => (dsimp -zeta only [x] <;> clear x))
      | (clear_value x; rename' x => y)
      | (rename' x => y))
    | with_reducible apply ok_evictDone
    | with_reducible refine memOk_of_mems (mems_copyUnits ..) ?_
    | with_reducible refine memOk_of_mems (mems_enterReq ..) ?_
    | (intro _ _ _ _)
    | (intro _ _ _)
    | (intro _ _)
    | split
    | dsimp -zeta only)

theorem ok_getAct (i : Iss) (s : State) (hok : memOk s) :
    memOk (getAct i s) := by
  unfold getAct
  repeat' (first
    | with_reducible assumption
    | (extract_lets +onlyGivenNames x; first
      | (have hx : memOk x := ?_; clear_value x; rename' x => y; on_goal 2 => (dsimp -zeta only [x] <;> clear x))
      | (have hx : memOk x.2 := ?_; clear_value x; rename' x => y; on_goal 2 => (dsimp -zeta only [x] <;> clear x))
      | (have hx : memOk x.2.2 := ?_; clear_value x; rename' x => y; on_goal 2 => (dsimp -zeta only [x] <;> clear x))
      | (clear_value x; rename' x => y)
      | (rename' x => y))
    | with_reducible refine memOk_of_mems (mems_bump ..) ?_
    | with_reducible refine memOk_of_mems (mems_consumeIdx ..) ?_
    | with_reducible refine memOk_of_mems (mems_laneWrite ..) ?_
    | with_reducible refine memOk_of_mems (mems_openAtom ..) ?_
    | with_reducible refine memOk_of_mems (mems_setWaitFor ..) ?_
    | with_reducible refine memOk_of_mems (mems_updOut ..) ?_
    | with_reducible refine memOk_of_mems (mems_readParts ..) ?_
    | with_reducible refine memOk_of_mems (mems_rungFrom ..) ?_
    | with_reducible refine memOk_of_mems (mems_rung3 ..) ?_
    | with_reducible refine memOk_of_mems (mems_updGuard ..) ?_
    | with_reducible refine memOk_of_mems (mems_dmaCutoff ..) ?_
    | with_reducible refine memOk_of_mems (mems_workDone ..) ?_
    | with_reducible apply ok_endAtom
    | with_reducible apply ok_applyAll
    | (intro _ _ _ _)
    | (intro _ _ _)
    | (intro _ _)
    | split
    | dsimp -zeta only
    | exact memOk_of_mems (s := s) rfl (by assumption)
    | exact memOk_of_mems rfl (by assumption))

theorem ok_putAct (i : Iss) (s : State) (hok : memOk s) :
    memOk (putAct i s) := by
  unfold putAct
  repeat' (first
    | with_reducible assumption
    | (extract_lets +onlyGivenNames x; first
      | (have hx : memOk x := ?_; clear_value x; rename' x => y; on_goal 2 => (dsimp -zeta only [x] <;> clear x))
      | (have hx : memOk x.2 := ?_; clear_value x; rename' x => y; on_goal 2 => (dsimp -zeta only [x] <;> clear x))
      | (have hx : memOk x.2.2 := ?_; clear_value x; rename' x => y; on_goal 2 => (dsimp -zeta only [x] <;> clear x))
      | (clear_value x; rename' x => y)
      | (rename' x => y))
    | with_reducible refine memOk_of_mems (mems_flushLines ..) ?_
    | with_reducible refine memOk_of_mems (mems_setWaitFor ..) ?_
    | with_reducible refine memOk_of_mems (mems_bump ..) ?_
    | with_reducible refine memOk_of_mems (mems_openAtom ..) ?_
    | with_reducible refine memOk_of_mems (mems_failClod ..) ?_
    | with_reducible refine memOk_of_mems (mems_postRec ..) ?_
    | with_reducible refine memOk_of_mems (mems_consumePoison ..) ?_
    | with_reducible refine memOk_of_mems (mems_addPrep ..) ?_
    | with_reducible refine memOk_of_mems (mems_addPart ..) ?_
    | with_reducible apply ok_endAtom
    | with_reducible apply ok_applyAll
    | with_reducible apply ok_foldl
    | with_reducible apply ok_fold2
    | (intro _ _ _ _)
    | (intro _ _ _)
    | (intro _ _)
    | split
    | dsimp -zeta only
    | exact memOk_of_mems (s := s) rfl (by assumption)
    | exact memOk_of_mems rfl (by assumption))

theorem ok_doDmaGet (g t : Nat) (s : State) (hok : memOk s) :
    memOk (doDmaGet g t s) := by
  unfold doDmaGet
  repeat' (first
    | with_reducible assumption
    | (extract_lets +onlyGivenNames x; first
      | (have hx : memOk x := ?_; clear_value x; rename' x => y; on_goal 2 => (dsimp -zeta only [x] <;> clear x))
      | (clear_value x; rename' x => y)
      | (rename' x => y))
    | with_reducible apply ok_getAct
    | with_reducible apply ok_issueRow
    | (intro _ _ _ _)
    | (intro _ _ _)
    | (intro _ _)
    | split
    | dsimp -zeta only)

theorem ok_doDmaPut (g t : Nat) (s : State) (hok : memOk s) :
    memOk (doDmaPut g t s) := by
  unfold doDmaPut
  repeat' (first
    | with_reducible assumption
    | (extract_lets +onlyGivenNames x; first
      | (have hx : memOk x := ?_; clear_value x; rename' x => y; on_goal 2 => (dsimp -zeta only [x] <;> clear x))
      | (clear_value x; rename' x => y)
      | (rename' x => y))
    | with_reducible apply ok_putAct
    | with_reducible apply ok_issueRow
    | (intro _ _ _ _)
    | (intro _ _ _)
    | (intro _ _)
    | split
    | dsimp -zeta only)

theorem ok_doDmaPutFlush (g t : Nat) (s : State) (hok : memOk s) :
    memOk (doDmaPutFlush g t s) := by
  unfold doDmaPutFlush
  repeat' (first
    | with_reducible assumption
    | (extract_lets +onlyGivenNames x; first
      | (have hx : memOk x := ?_; clear_value x; rename' x => y; on_goal 2 => (dsimp -zeta only [x] <;> clear x))
      | (clear_value x; rename' x => y)
      | (rename' x => y))
    | with_reducible apply ok_putAct
    | with_reducible apply ok_issueRow
    | (intro _ _ _ _)
    | (intro _ _ _)
    | (intro _ _)
    | split
    | dsimp -zeta only)

theorem ok_writeServed (q : Req) (ws : List BitW) (ans : HzAnswer) (s : State) (hok : memOk s) :
    memOk (writeServed q ws ans s) := by
  unfold writeServed
  repeat' (first
    | with_reducible assumption
    | (extract_lets +onlyGivenNames x; first
      | (have hx : memOk x := ?_; clear_value x; rename' x => y; on_goal 2 => (dsimp -zeta only [x] <;> clear x))
      | (clear_value x; rename' x => y)
      | (rename' x => y))
    | with_reducible refine memOk_of_mems (mems_hz4Failure ..) ?_
    | with_reducible refine memOk_of_mems (mems_failClod ..) ?_
    | with_reducible refine memOk_of_mems (mems_noteObj ..) ?_
    | with_reducible apply ok_objWriteBits
    | (intro _ _ _ _)
    | (intro _ _ _)
    | (intro _ _)
    | split
    | dsimp -zeta only)

theorem ok_backServed (q : Req) (bs : List (Nat × Byte)) (bad : Bool) (ans : HzAnswer) (s : State) (hok : memOk s) :
    memOk (backServed q bs bad ans s) := by
  unfold backServed
  repeat' (first
    | with_reducible assumption
    | (extract_lets +onlyGivenNames x; first
      | (have hx : memOk x := ?_; clear_value x; rename' x => y; on_goal 2 => (dsimp -zeta only [x] <;> clear x))
      | (clear_value x; rename' x => y)
      | (rename' x => y))
    | with_reducible refine memOk_of_mems (mems_hz4Failure ..) ?_
    | with_reducible apply ok_objWrite
    | with_reducible refine memOk_of_mems (mems_objSetPoison ..) ?_
    | (intro _ _ _ _)
    | (intro _ _ _)
    | (intro _ _)
    | split
    | dsimp -zeta only)

theorem ok_aperServed (q : Req) (id : Nat) (places : List (Nat × Nat)) (data : Option (List Byte)) (ans : HzAnswer) (s : State) (hok : memOk s) :
    memOk (aperServed q id places data ans s) := by
  unfold aperServed
  repeat' (first
    | with_reducible assumption
    | (extract_lets +onlyGivenNames x; first
      | (have hx : memOk x := ?_; clear_value x; rename' x => y; on_goal 2 => (dsimp -zeta only [x] <;> clear x))
      | (have hx : memOk x.2 := ?_; clear_value x; rename' x => y; on_goal 2 => (dsimp -zeta only [x] <;> clear x))
      | (have hx : memOk x.2.2 := ?_; clear_value x; rename' x => y; on_goal 2 => (dsimp -zeta only [x] <;> clear x))
      | (clear_value x; rename' x => y)
      | (rename' x => y))
    | with_reducible refine memOk_of_mems (mems_settleApers ..) ?_
    | with_reducible apply ok_objWrite
    | with_reducible refine memOk_of_mems (mems_sourceRead ..) ?_
    | with_reducible refine memOk_of_mems (mems_bar4Poison ..) ?_
    | with_reducible refine memOk_of_mems (mems_updHz _ _ (by rfl)) ?_
    | (intro _ _ _ _)
    | (intro _ _ _)
    | (intro _ _)
    | split
    | dsimp -zeta only
    | exact memOk_of_mems (s := s) rfl (by assumption)
    | exact memOk_of_mems rfl (by assumption))

theorem ok_respond (q : Req) (ans : HzAnswer) (s : State) (hok : memOk s) :
    memOk (respond q ans s) := by
  unfold respond
  repeat' (first
    | with_reducible assumption
    | (extract_lets +onlyGivenNames x; first
      | (have hx : memOk x := ?_; clear_value x; rename' x => y; on_goal 2 => (dsimp -zeta only [x] <;> clear x))
      | (clear_value x; rename' x => y)
      | (rename' x => y))
    | with_reducible refine memOk_of_mems (mems_updHz _ _ (by rfl)) ?_
    | with_reducible refine memOk_of_mems (mems_noteBadFrame ..) ?_
    | with_reducible refine memOk_of_mems (mems_objSetPoison ..) ?_
    | with_reducible refine memOk_of_mems (mems_noteLateArr ..) ?_
    | with_reducible refine memOk_of_mems (mems_readServed ..) ?_
    | with_reducible apply ok_writeServed
    | with_reducible refine memOk_of_mems (mems_xferServed ..) ?_
    | with_reducible refine memOk_of_mems (mems_entryServed ..) ?_
    | with_reducible apply ok_copyServed
    | with_reducible refine memOk_of_mems (mems_copyAnswer ..) ?_
    | with_reducible apply ok_backServed
    | with_reducible refine memOk_of_mems (mems_firstServed ..) ?_
    | with_reducible apply ok_aperServed
    | with_reducible refine memOk_of_mems (mems_workDone ..) ?_
    | with_reducible apply ok_endAtom
    | with_reducible apply ok_applyAll
    | (intro _ _ _ _)
    | (intro _ _ _)
    | (intro _ _)
    | split
    | dsimp -zeta only)

/-! ## Sieve -/

theorem ok_hotPut (t : Sieve) (slot id : Nat) (row : List Byte) (s : State) (hok : memOk s) :
    memOk (hotPut t slot id row s) := by
  unfold hotPut
  repeat' (first
    | with_reducible assumption
    | (extract_lets +onlyGivenNames x; first
      | (have hx : memOk x := ?_; clear_value x; rename' x => y; on_goal 2 => (dsimp -zeta only [x] <;> clear x))
      | (clear_value x; rename' x => y)
      | (rename' x => y))
    | with_reducible refine memOk_of_mems (mems_clearPoison ..) ?_
    | with_reducible apply ok_locSet
    | with_reducible apply ok_foldl
    | with_reducible apply ok_fold2
    | (intro _ _ _ _)
    | (intro _ _ _)
    | (intro _ _)
    | split
    | dsimp -zeta only)

theorem ok_dlogPut (t : Sieve) (id : Nat) (row state : List Byte) (s : State) (hok : memOk s) :
    memOk (dlogPut t id row state s) := by
  unfold dlogPut
  repeat' (first
    | with_reducible assumption
    | (extract_lets +onlyGivenNames x; first
      | (have hx : memOk x := ?_; clear_value x; rename' x => y; on_goal 2 => (dsimp -zeta only [x] <;> clear x))
      | (clear_value x; rename' x => y)
      | (rename' x => y))
    | with_reducible refine memOk_of_mems (mems_updSieve ..) ?_
    | with_reducible apply ok_objWriteAt
    | (intro _ _ _ _)
    | (intro _ _ _)
    | (intro _ _)
    | split
    | dsimp -zeta only)

theorem ok_dlogClear (t : Sieve) (k : Nat) (s : State) (hok : memOk s) :
    memOk (dlogClear t k s) := by
  unfold dlogClear
  repeat' (first
    | with_reducible assumption
    | (extract_lets +onlyGivenNames x; first
      | (have hx : memOk x := ?_; clear_value x; rename' x => y; on_goal 2 => (dsimp -zeta only [x] <;> clear x))
      | (clear_value x; rename' x => y)
      | (rename' x => y))
    | with_reducible refine memOk_of_mems (mems_updSieve ..) ?_
    | with_reducible apply ok_objWriteAt
    | (intro _ _ _ _)
    | (intro _ _ _)
    | (intro _ _)
    | split
    | dsimp -zeta only)

theorem ok_gatherEnd (i : Iss) (s : State) (hok : memOk s) :
    memOk (gatherEnd i s) := by
  unfold gatherEnd
  repeat' (first
    | with_reducible assumption
    | (extract_lets +onlyGivenNames x; first
      | (have hx : memOk x := ?_; clear_value x; rename' x => y; on_goal 2 => (dsimp -zeta only [x] <;> clear x))
      | (clear_value x; rename' x => y)
      | (rename' x => y))
    | with_reducible refine memOk_of_mems (mems_noteStk ..) ?_
    | with_reducible refine memOk_of_mems (mems_sieveNumeric ..) ?_
    | with_reducible refine memOk_of_mems (mems_setCounts ..) ?_
    | with_reducible refine memOk_of_mems (mems_addPrep ..) ?_
    | with_reducible refine memOk_of_mems (mems_workDone ..) ?_
    | with_reducible apply ok_endAtom
    | with_reducible apply ok_applyAll
    | with_reducible refine memOk_of_mems (mems_localWrite ..) ?_
    | with_reducible apply ok_foldl
    | with_reducible apply ok_fold2
    | (intro _ _ _ _)
    | (intro _ _ _)
    | (intro _ _)
    | split
    | dsimp -zeta only)

theorem ok_gatherCutoff (g ser n : Nat) (s : State) (hok : memOk s) :
    memOk (gatherCutoff g ser n s) := by
  unfold gatherCutoff
  repeat' (first
    | with_reducible assumption
    | (extract_lets +onlyGivenNames x; first
      | (have hx : memOk x := ?_; clear_value x; rename' x => y; on_goal 2 => (dsimp -zeta only [x] <;> clear x))
      | (clear_value x; rename' x => y)
      | (rename' x => y))
    | with_reducible apply ok_gatherEnd
    | with_reducible refine memOk_of_mems (mems_updHz _ _ (by rfl)) ?_
    | with_reducible refine memOk_of_mems (mems_updGuard ..) ?_
    | with_reducible refine memOk_of_mems (mems_slotRung ..) ?_
    | with_reducible apply ok_foldl
    | with_reducible apply ok_fold2
    | (intro _ _ _ _)
    | (intro _ _ _)
    | (intro _ _)
    | split
    | dsimp -zeta only)

theorem ok_gatherAct (i : Iss) (s : State) (hok : memOk s) :
    memOk (gatherAct i s) := by
  unfold gatherAct
  repeat' (first
    | with_reducible assumption
    | (extract_lets +onlyGivenNames x; first
      | (have hx : memOk x := ?_; clear_value x; rename' x => y; on_goal 2 => (dsimp -zeta only [x] <;> clear x))
      | (clear_value x; rename' x => y)
      | (rename' x => y))
    | with_reducible refine memOk_of_mems (mems_sieveCount ..) ?_
    | with_reducible refine memOk_of_mems (mems_setWaitFor ..) ?_
    | with_reducible refine memOk_of_mems (mems_openAtom ..) ?_
    | with_reducible refine memOk_of_mems (mems_consumeView ..) ?_
    | with_reducible refine memOk_of_mems (mems_failClod ..) ?_
    | with_reducible refine memOk_of_mems (mems_slotZero ..) ?_
    | with_reducible refine memOk_of_mems (mems_slotRung ..) ?_
    | with_reducible refine memOk_of_mems (mems_hotReq ..) ?_
    | with_reducible refine memOk_of_mems (mems_updSieve ..) ?_
    | with_reducible refine memOk_of_mems (mems_noteMiss ..) ?_
    | with_reducible refine memOk_of_mems (mems_logReq ..) ?_
    | with_reducible refine memOk_of_mems (mems_homeReq ..) ?_
    | with_reducible refine memOk_of_mems (mems_updGuard ..) ?_
    | with_reducible apply ok_gatherEnd
    | with_reducible apply ok_gatherCutoff
    | with_reducible apply ok_foldl
    | with_reducible apply ok_fold2
    | (intro _ _ _ _)
    | (intro _ _ _)
    | (intro _ _)
    | split
    | dsimp -zeta only)

theorem ok_doSieveGather (g t : Nat) (s : State) (hok : memOk s) :
    memOk (doSieveGather g t s) := by
  unfold doSieveGather
  repeat' (first
    | with_reducible assumption
    | (extract_lets +onlyGivenNames x; first
      | (have hx : memOk x := ?_; clear_value x; rename' x => y; on_goal 2 => (dsimp -zeta only [x] <;> clear x))
      | (clear_value x; rename' x => y)
      | (rename' x => y))
    | with_reducible apply ok_gatherAct
    | with_reducible apply ok_issueRow
    | (intro _ _ _ _)
    | (intro _ _ _)
    | (intro _ _)
    | split
    | dsimp -zeta only)

theorem ok_doSieveRowArrive (g ser slot : Nat) (s : State) (hok : memOk s) :
    memOk (doSieveRowArrive g ser slot s) := by
  unfold doSieveRowArrive
  repeat' (first
    | with_reducible assumption
    | (extract_lets +onlyGivenNames x; first
      | (have hx : memOk x := ?_; clear_value x; rename' x => y; on_goal 2 => (dsimp -zeta only [x] <;> clear x))
      | (have hx : memOk x.2 := ?_; clear_value x; rename' x => y; on_goal 2 => (dsimp -zeta only [x] <;> clear x))
      | (have hx : memOk x.2.2 := ?_; clear_value x; rename' x => y; on_goal 2 => (dsimp -zeta only [x] <;> clear x))
      | (have hx : ∀ s, memOk s → memOk (x s) := ?_; clear_value x; rename' x => y; on_goal 2 => (intro s hs; dsimp -zeta only [x] <;> clear x))
      | (have hx : ∀ a s, memOk s → memOk (x a s) := ?_; clear_value x; rename' x => y; on_goal 2 => (intro a s hs; dsimp -zeta only [x] <;> clear x))
      | (clear_value x; rename' x => y)
      | (rename' x => y))
    | with_reducible refine memOk_of_mems (mems_rowTaken ..) ?_
    | with_reducible refine memOk_of_mems (mems_rowIn ..) ?_
    | with_reducible refine memOk_of_mems (mems_slotZero ..) ?_
    | with_reducible refine memOk_of_mems (mems_consumeRow ..) ?_
    | with_reducible refine memOk_of_mems (mems_rowVal ..) ?_
    | with_reducible refine memOk_of_mems (mems_homeReq ..) ?_
    | with_reducible apply ok_gatherEnd
    | with_reducible apply ok_foldl
    | with_reducible apply ok_fold2
    | (intro _ _ _ _)
    | (intro _ _ _)
    | (intro _ _)
    | split
    | dsimp -zeta only
    | (apply_assumption -symm -exfalso (transparency := .reducible))
    | exact memOk_of_mems (s := s) rfl (by assumption)
    | exact memOk_of_mems rfl (by assumption))

theorem ok_poolPut (t : Sieve) (k : Nat) (e : PoolEnt) (s : State) (hok : memOk s) :
    memOk (poolPut t k e s) := by
  unfold poolPut
  repeat' (first
    | with_reducible assumption
    | (extract_lets +onlyGivenNames x; first
      | (have hx : memOk x := ?_; clear_value x; rename' x => y; on_goal 2 => (dsimp -zeta only [x] <;> clear x))
      | (clear_value x; rename' x => y)
      | (rename' x => y))
    | with_reducible apply ok_objWriteAt
    | (intro _ _ _ _)
    | (intro _ _ _)
    | (intro _ _)
    | split
    | dsimp -zeta only)

theorem ok_poolClear (t : Sieve) (k : Nat) (s : State) (hok : memOk s) :
    memOk (poolClear t k s) := by
  unfold poolClear
  repeat' (first
    | with_reducible assumption
    | (extract_lets +onlyGivenNames x; first
      | (have hx : memOk x := ?_; clear_value x; rename' x => y; on_goal 2 => (dsimp -zeta only [x] <;> clear x))
      | (clear_value x; rename' x => y)
      | (rename' x => y))
    | with_reducible apply ok_objWriteAt
    | (intro _ _ _ _)
    | (intro _ _ _)
    | (intro _ _)
    | split
    | dsimp -zeta only)

theorem ok_poolEmpty (t : Sieve) (s : State) (hok : memOk s) :
    memOk (poolEmpty t s) := by
  unfold poolEmpty
  repeat' (first
    | with_reducible assumption
    | (extract_lets +onlyGivenNames x; first
      | (have hx : memOk x := ?_; clear_value x; rename' x => y; on_goal 2 => (dsimp -zeta only [x] <;> clear x))
      | (clear_value x; rename' x => y)
      | (rename' x => y))
    | with_reducible apply ok_poolClear
    | with_reducible apply ok_foldl
    | with_reducible apply ok_fold2
    | (intro _ _ _ _)
    | (intro _ _ _)
    | (intro _ _)
    | split
    | dsimp -zeta only)

theorem ok_poolInsert (t : Sieve) (e : PoolEnt) (s : State) (hok : memOk s) :
    memOk (poolInsert t e s) := by
  unfold poolInsert
  repeat' (first
    | with_reducible assumption
    | (extract_lets +onlyGivenNames x; first
      | (have hx : memOk x := ?_; clear_value x; rename' x => y; on_goal 2 => (dsimp -zeta only [x] <;> clear x))
      | (clear_value x; rename' x => y)
      | (rename' x => y))
    | with_reducible apply ok_poolPut
    | (intro _ _ _ _)
    | (intro _ _ _)
    | (intro _ _)
    | split
    | dsimp -zeta only)

theorem ok_nextPeriod (t : Sieve) (s : State) (hok : memOk s) :
    memOk (nextPeriod t s) := by
  unfold nextPeriod
  repeat' (first
    | with_reducible assumption
    | (extract_lets +onlyGivenNames x; first
      | (have hx : memOk x := ?_; clear_value x; rename' x => y; on_goal 2 => (dsimp -zeta only [x] <;> clear x))
      | (clear_value x; rename' x => y)
      | (rename' x => y))
    | with_reducible refine memOk_of_mems (mems_updSieve ..) ?_
    | with_reducible apply ok_poolInsert
    | with_reducible apply ok_foldl
    | with_reducible apply ok_fold2
    | (intro _ _ _ _)
    | (intro _ _ _)
    | (intro _ _)
    | split
    | dsimp -zeta only)

theorem ok_settlePool (idx : Nat) (s : State) (hok : memOk s) :
    memOk (settlePool idx s) := by
  unfold settlePool
  repeat' (first
    | with_reducible assumption
    | (extract_lets +onlyGivenNames x; first
      | (have hx : memOk x := ?_; clear_value x; rename' x => y; on_goal 2 => (dsimp -zeta only [x] <;> clear x))
      | (clear_value x; rename' x => y)
      | (rename' x => y))
    | with_reducible apply ok_nextPeriod
    | (intro _ _ _ _)
    | (intro _ _ _)
    | (intro _ _)
    | split
    | dsimp -zeta only)

theorem ok_poolAdd (idx id : Nat) (xs : List FVal) (bad : Bool) (s : State) (hok : memOk s) :
    memOk (poolAdd idx id xs bad s) := by
  unfold poolAdd
  repeat' (first
    | with_reducible assumption
    | (extract_lets +onlyGivenNames x; first
      | (have hx : memOk x := ?_; clear_value x; rename' x => y; on_goal 2 => (dsimp -zeta only [x] <;> clear x))
      | (have hx : memOk x.2 := ?_; clear_value x; rename' x => y; on_goal 2 => (dsimp -zeta only [x] <;> clear x))
      | (have hx : memOk x.2.2 := ?_; clear_value x; rename' x => y; on_goal 2 => (dsimp -zeta only [x] <;> clear x))
      | (have hx : ∀ s, memOk s → memOk (x s) := ?_; clear_value x; rename' x => y; on_goal 2 => (intro s hs; dsimp -zeta only [x] <;> clear x))
      | (have hx : ∀ a s, memOk s → memOk (x a s) := ?_; clear_value x; rename' x => y; on_goal 2 => (intro a s hs; dsimp -zeta only [x] <;> clear x))
      | (clear_value x; rename' x => y)
      | (rename' x => y))
    | with_reducible apply ok_settlePool
    | with_reducible refine memOk_of_mems (mems_sieveNumeric ..) ?_
    | with_reducible refine memOk_of_mems (mems_sieveCount ..) ?_
    | with_reducible refine memOk_of_mems (mems_updSieve ..) ?_
    | with_reducible refine memOk_of_mems (mems_poolDrop ..) ?_
    | with_reducible apply ok_poolPut
    | with_reducible apply ok_poolInsert
    | (intro _ _ _ _)
    | (intro _ _ _)
    | (intro _ _)
    | split
    | dsimp -zeta only
    | (apply_assumption -symm -exfalso (transparency := .reducible))
    | exact memOk_of_mems (s := s) rfl (by assumption)
    | exact memOk_of_mems rfl (by assumption))

theorem ok_applyPrepS (ctx : Nat) (fits : Nat → Bool) (e : Nat × Nat × Prep) (s : State) (hok : memOk s) :
    memOk (applyPrepS ctx fits e s) := by
  unfold applyPrepS
  repeat' (first
    | with_reducible assumption
    | (extract_lets +onlyGivenNames x; first
      | (have hx : memOk x := ?_; clear_value x; rename' x => y; on_goal 2 => (dsimp -zeta only [x] <;> clear x))
      | (clear_value x; rename' x => y)
      | (rename' x => y))
    | with_reducible apply ok_poolAdd
    | with_reducible refine memOk_of_mems (mems_poolDrop ..) ?_
    | with_reducible apply ok_applyPrep
    | (intro _ _ _ _)
    | (intro _ _ _)
    | (intro _ _)
    | split
    | dsimp -zeta only)

theorem ok_applyAllS (ctx : Nat) (l : List (Nat × Nat × Prep)) (s : State) (hok : memOk s) :
    memOk (applyAllS ctx l s) := by
  unfold applyAllS
  repeat' (first
    | with_reducible assumption
    | (extract_lets +onlyGivenNames x; first
      | (have hx : memOk x := ?_; clear_value x; rename' x => y; on_goal 2 => (dsimp -zeta only [x] <;> clear x))
      | (have hx : memOk x.2 := ?_; clear_value x; rename' x => y; on_goal 2 => (dsimp -zeta only [x] <;> clear x))
      | (have hx : memOk x.2.2 := ?_; clear_value x; rename' x => y; on_goal 2 => (dsimp -zeta only [x] <;> clear x))
      | (clear_value x; rename' x => y)
      | (rename' x => y))
    | with_reducible apply ok_settlePool
    | with_reducible apply ok_applyPrepS
    | with_reducible apply ok_foldl
    | with_reducible apply ok_fold2
    | (intro _ _ _ _)
    | (intro _ _ _)
    | (intro _ _)
    | split
    | dsimp -zeta only
    | exact memOk_of_mems (s := s) rfl (by assumption)
    | exact memOk_of_mems rfl (by assumption))

theorem ok_addAnswered (q : Req) (idx id : Nat) (xs : List W32) (sc : W32) (bad : Bool) (ans : HzAnswer) (s : State) (hok : memOk s) :
    memOk (addAnswered q idx id xs sc bad ans s) := by
  unfold addAnswered
  repeat' (first
    | with_reducible assumption
    | (extract_lets +onlyGivenNames x; first
      | (have hx : memOk x := ?_; clear_value x; rename' x => y; on_goal 2 => (dsimp -zeta only [x] <;> clear x))
      | (clear_value x; rename' x => y)
      | (rename' x => y))
    | with_reducible refine memOk_of_mems (mems_updHz _ _ (by rfl)) ?_
    | with_reducible refine memOk_of_mems (mems_noteBadFrame ..) ?_
    | with_reducible refine memOk_of_mems (mems_objSetPoison ..) ?_
    | with_reducible apply ok_poolAdd
    | with_reducible refine memOk_of_mems (mems_workDone ..) ?_
    | with_reducible apply ok_endAtom
    | with_reducible apply ok_applyAllS
    | (intro _ _ _ _)
    | (intro _ _ _)
    | (intro _ _)
    | split
    | dsimp -zeta only)

theorem ok_addAct (i : Iss) (s : State) (hok : memOk s) :
    memOk (addAct i s) := by
  unfold addAct
  repeat' (first
    | with_reducible assumption
    | (extract_lets +onlyGivenNames x; first
      | (have hx : memOk x := ?_; clear_value x; rename' x => y; on_goal 2 => (dsimp -zeta only [x] <;> clear x))
      | (have hx : memOk x.2 := ?_; clear_value x; rename' x => y; on_goal 2 => (dsimp -zeta only [x] <;> clear x))
      | (have hx : memOk x.2.2 := ?_; clear_value x; rename' x => y; on_goal 2 => (dsimp -zeta only [x] <;> clear x))
      | (clear_value x; rename' x => y)
      | (rename' x => y))
    | with_reducible refine memOk_of_mems (mems_openAtom ..) ?_
    | with_reducible refine memOk_of_mems (mems_sieveCount ..) ?_
    | with_reducible refine memOk_of_mems (mems_failClod ..) ?_
    | with_reducible refine memOk_of_mems (mems_addPrep ..) ?_
    | with_reducible refine memOk_of_mems (mems_addReq1 ..) ?_
    | with_reducible refine memOk_of_mems (mems_postRec ..) ?_
    | with_reducible refine memOk_of_mems (mems_consumeView ..) ?_
    | with_reducible refine memOk_of_mems (mems_setWaitFor ..) ?_
    | with_reducible apply ok_endAtom
    | with_reducible apply ok_applyAllS
    | with_reducible apply ok_foldl
    | with_reducible apply ok_fold2
    | (intro _ _ _ _)
    | (intro _ _ _)
    | (intro _ _)
    | split
    | dsimp -zeta only
    | exact memOk_of_mems (s := s) rfl (by assumption)
    | exact memOk_of_mems rfl (by assumption))

theorem ok_doSieveScatterAdd (g t : Nat) (s : State) (hok : memOk s) :
    memOk (doSieveScatterAdd g t s) := by
  unfold doSieveScatterAdd
  repeat' (first
    | with_reducible assumption
    | (extract_lets +onlyGivenNames x; first
      | (have hx : memOk x := ?_; clear_value x; rename' x => y; on_goal 2 => (dsimp -zeta only [x] <;> clear x))
      | (clear_value x; rename' x => y)
      | (rename' x => y))
    | with_reducible apply ok_addAct
    | with_reducible apply ok_issueRow
    | (intro _ _ _ _)
    | (intro _ _ _)
    | (intro _ _)
    | split
    | dsimp -zeta only)

theorem ok_applyRow (g : Nat) (daddr : W64) (hyp : List Byte) (t : Sieve) (o : Obj) (k : Nat) (e : PoolEnt) (s : State) (hok : memOk s) :
    memOk (applyRow g daddr hyp t o k e s) := by
  unfold applyRow
  repeat' (first
    | with_reducible assumption
    | (extract_lets +onlyGivenNames x; first
      | (have hx : memOk x := ?_; clear_value x; rename' x => y; on_goal 2 => (dsimp -zeta only [x] <;> clear x))
      | (have hx : memOk x.2 := ?_; clear_value x; rename' x => y; on_goal 2 => (dsimp -zeta only [x] <;> clear x))
      | (have hx : memOk x.2.2 := ?_; clear_value x; rename' x => y; on_goal 2 => (dsimp -zeta only [x] <;> clear x))
      | (clear_value x; rename' x => y)
      | (rename' x => y))
    | with_reducible apply ok_poolClear
    | with_reducible refine memOk_of_mems (mems_sieveCount ..) ?_
    | with_reducible refine memOk_of_mems (mems_consumeApply ..) ?_
    | with_reducible refine memOk_of_mems (mems_sieveNumeric ..) ?_
    | with_reducible apply ok_hotPut
    | with_reducible apply ok_dlogPut
    | with_reducible apply ok_objWrite
    | with_reducible refine memOk_of_mems (mems_shadowRow ..) ?_
    | with_reducible apply ok_objWriteAt
    | with_reducible apply ok_foldl
    | with_reducible apply ok_fold2
    | (intro _ _ _ _)
    | (intro _ _ _)
    | (intro _ _)
    | split
    | dsimp -zeta only
    | exact memOk_of_mems (s := s) rfl (by assumption)
    | exact memOk_of_mems rfl (by assumption))

theorem ok_switchOne (idx : Nat) (m : Nat × Nat × Nat) (s : State) (hok : memOk s) :
    memOk (switchOne idx m s) := by
  unfold switchOne
  repeat' (first
    | with_reducible assumption
    | (extract_lets +onlyGivenNames x; first
      | (have hx : memOk x := ?_; clear_value x; rename' x => y; on_goal 2 => (dsimp -zeta only [x] <;> clear x))
      | (clear_value x; rename' x => y)
      | (rename' x => y))
    | with_reducible refine memOk_of_mems (mems_updObj ..) ?_
    | with_reducible refine memOk_of_mems (mems_updSieve ..) ?_
    | with_reducible apply ok_freeDrive
    | with_reducible refine memOk_of_mems (mems_sieveCount ..) ?_
    | with_reducible apply ok_dlogClear
    | with_reducible apply ok_foldl
    | with_reducible apply ok_fold2
    | (intro _ _ _ _)
    | (intro _ _ _)
    | (intro _ _)
    | split
    | dsimp -zeta only)

theorem ok_switchMerged (idx : Nat) (s : State) (hok : memOk s) :
    memOk (switchMerged idx s) := by
  unfold switchMerged
  repeat' (first
    | with_reducible assumption
    | (extract_lets +onlyGivenNames x; first
      | (have hx : memOk x := ?_; clear_value x; rename' x => y; on_goal 2 => (dsimp -zeta only [x] <;> clear x))
      | (clear_value x; rename' x => y)
      | (rename' x => y))
    | with_reducible refine memOk_of_mems (mems_mergeStart ..) ?_
    | with_reducible apply ok_switchOne
    | with_reducible apply ok_foldl
    | with_reducible apply ok_fold2
    | (intro _ _ _ _)
    | (intro _ _ _)
    | (intro _ _)
    | split
    | dsimp -zeta only)

theorem ok_applyWaits (idx : Nat) (s : State) (hok : memOk s) :
    memOk (applyWaits idx s) := by
  unfold applyWaits
  repeat' (first
    | with_reducible assumption
    | (extract_lets +onlyGivenNames x; first
      | (have hx : memOk x := ?_; clear_value x; rename' x => y; on_goal 2 => (dsimp -zeta only [x] <;> clear x))
      | (clear_value x; rename' x => y)
      | (rename' x => y))
    | with_reducible refine memOk_of_mems (mems_mergeStart ..) ?_
    | with_reducible refine memOk_of_mems (mems_applyTry ..) ?_
    | with_reducible apply ok_switchMerged
    | with_reducible apply ok_foldl
    | with_reducible apply ok_fold2
    | (intro _ _ _ _)
    | (intro _ _ _)
    | (intro _ _)
    | split
    | dsimp -zeta only)

theorem ok_applyEnd (idx : Nat) (s : State) (hok : memOk s) :
    memOk (applyEnd idx s) := by
  unfold applyEnd
  repeat' (first
    | with_reducible assumption
    | (extract_lets +onlyGivenNames x; first
      | (have hx : memOk x := ?_; clear_value x; rename' x => y; on_goal 2 => (dsimp -zeta only [x] <;> clear x))
      | (clear_value x; rename' x => y)
      | (rename' x => y))
    | with_reducible refine memOk_of_mems (mems_settle ..) ?_
    | with_reducible refine memOk_of_mems (mems_workDone ..) ?_
    | with_reducible apply ok_nextPeriod
    | (intro _ _ _ _)
    | (intro _ _ _)
    | (intro _ _)
    | split
    | dsimp -zeta only)

theorem ok_applyNext (idx k stage : Nat) (s : State) (hok : memOk s) :
    memOk (applyNext idx k stage s) := by
  unfold applyNext
  repeat' (first
    | with_reducible assumption
    | (extract_lets +onlyGivenNames x; first
      | (have hx : memOk x := ?_; clear_value x; rename' x => y; on_goal 2 => (dsimp -zeta only [x] <;> clear x))
      | (clear_value x; rename' x => y)
      | (rename' x => y))
    | with_reducible refine memOk_of_mems (mems_applyAsk ..) ?_
    | with_reducible apply ok_applyWaits
    | with_reducible refine memOk_of_mems (mems_applyTry ..) ?_
    | with_reducible apply ok_applyRow
    | with_reducible refine memOk_of_mems (mems_mergeStart ..) ?_
    | with_reducible apply ok_applyEnd
    | with_reducible refine memOk_of_mems (mems_updSieve ..) ?_
    | (intro _ _ _ _)
    | (intro _ _ _)
    | (intro _ _)
    | split
    | dsimp -zeta only)

theorem ok_applyAnswered (q : Req) (idx k stage : Nat) (ans : HzAnswer) (s : State) (hok : memOk s) :
    memOk (applyAnswered q idx k stage ans s) := by
  unfold applyAnswered
  repeat' (first
    | with_reducible assumption
    | (extract_lets +onlyGivenNames x; first
      | (have hx : memOk x := ?_; clear_value x; rename' x => y; on_goal 2 => (dsimp -zeta only [x] <;> clear x))
      | (clear_value x; rename' x => y)
      | (rename' x => y))
    | with_reducible refine memOk_of_mems (mems_updHz _ _ (by rfl)) ?_
    | with_reducible refine memOk_of_mems (mems_hz4Failure ..) ?_
    | with_reducible refine memOk_of_mems (mems_noteBadFrame ..) ?_
    | with_reducible refine memOk_of_mems (mems_objSetPoison ..) ?_
    | with_reducible apply ok_applyNext
    | (intro _ _ _ _)
    | (intro _ _ _)
    | (intro _ _)
    | split
    | dsimp -zeta only)

theorem ok_answerReq (q : Req) (ans : HzAnswer) (s : State) (hok : memOk s) :
    memOk (answerReq q ans s) := by
  unfold answerReq
  repeat' (first
    | with_reducible assumption
    | (extract_lets +onlyGivenNames x; first
      | (have hx : memOk x := ?_; clear_value x; rename' x => y; on_goal 2 => (dsimp -zeta only [x] <;> clear x))
      | (clear_value x; rename' x => y)
      | (rename' x => y))
    | with_reducible apply ok_addAnswered
    | with_reducible apply ok_applyAnswered
    | with_reducible apply ok_respond
    | (intro _ _ _ _)
    | (intro _ _ _)
    | (intro _ _)
    | split
    | dsimp -zeta only)

theorem ok_applyAct (i : Iss) (s : State) (hok : memOk s) :
    memOk (applyAct i s) := by
  unfold applyAct
  repeat' (first
    | with_reducible assumption
    | (extract_lets +onlyGivenNames x; first
      | (have hx : memOk x := ?_; clear_value x; rename' x => y; on_goal 2 => (dsimp -zeta only [x] <;> clear x))
      | (clear_value x; rename' x => y)
      | (rename' x => y))
    | with_reducible apply ok_settlePool
    | with_reducible apply ok_poolPut
    | with_reducible refine memOk_of_mems (mems_consumePoison ..) ?_
    | with_reducible refine memOk_of_mems (mems_updSieve ..) ?_
    | with_reducible refine memOk_of_mems (mems_setWaitFor ..) ?_
    | with_reducible refine memOk_of_mems (mems_mergeStart ..) ?_
    | with_reducible apply ok_applyEnd
    | with_reducible refine memOk_of_mems (mems_applyAsk ..) ?_
    | with_reducible apply ok_foldl
    | with_reducible apply ok_fold2
    | (intro _ _ _ _)
    | (intro _ _ _)
    | (intro _ _)
    | split
    | dsimp -zeta only)

theorem ok_doSieveScatterApply (g t : Nat) (s : State) (hok : memOk s) :
    memOk (doSieveScatterApply g t s) := by
  unfold doSieveScatterApply
  repeat' (first
    | with_reducible assumption
    | (extract_lets +onlyGivenNames x; first
      | (have hx : memOk x := ?_; clear_value x; rename' x => y; on_goal 2 => (dsimp -zeta only [x] <;> clear x))
      | (clear_value x; rename' x => y)
      | (rename' x => y))
    | with_reducible apply ok_applyAct
    | with_reducible apply ok_issueRow
    | (intro _ _ _ _)
    | (intro _ _ _)
    | (intro _ _)
    | split
    | dsimp -zeta only)

theorem ok_mergeWrite (idx : Nat) (s : State) (hok : memOk s) :
    memOk (mergeWrite idx s) := by
  unfold mergeWrite
  repeat' (first
    | with_reducible assumption
    | (extract_lets +onlyGivenNames x; first
      | (have hx : memOk x := ?_; clear_value x; rename' x => y; on_goal 2 => (dsimp -zeta only [x] <;> clear x))
      | (clear_value x; rename' x => y)
      | (rename' x => y))
    | exact memOk_of_mems (mems_allocDrive (r := (_, _)) (by assumption)) (by assumption)
    | with_reducible refine memOk_of_mems (mems_mergeStart ..) ?_
    | with_reducible refine memOk_of_mems (mems_updSieve ..) ?_
    | with_reducible apply ok_copyGranule
    | with_reducible apply ok_locSet
    | with_reducible refine memOk_of_mems (mems_copyUnits ..) ?_
    | with_reducible apply ok_foldl
    | with_reducible apply ok_fold2
    | (intro _ _ _ _)
    | (intro _ _ _)
    | (intro _ _)
    | split
    | dsimp -zeta only)

theorem ok_mergeStep (w : CopyOf) (write : Bool) (s : State) (hok : memOk s) :
    memOk (mergeStep w write s) := by
  unfold mergeStep
  repeat' (first
    | with_reducible assumption
    | (extract_lets +onlyGivenNames x; first
      | (have hx : memOk x := ?_; clear_value x; rename' x => y; on_goal 2 => (dsimp -zeta only [x] <;> clear x))
      | (clear_value x; rename' x => y)
      | (rename' x => y))
    | with_reducible apply ok_mergeWrite
    | with_reducible refine memOk_of_mems (mems_updSieve ..) ?_
    | with_reducible refine memOk_of_mems (mems_nvmePut ..) ?_
    | (intro _ _ _ _)
    | (intro _ _ _)
    | (intro _ _)
    | split
    | dsimp -zeta only)

theorem ok_mergeSwitch (ctx : Nat) (s : State) (hok : memOk s) :
    memOk (mergeSwitch ctx s) := by
  unfold mergeSwitch
  repeat' (first
    | with_reducible assumption
    | (extract_lets +onlyGivenNames x; first
      | (have hx : memOk x := ?_; clear_value x; rename' x => y; on_goal 2 => (dsimp -zeta only [x] <;> clear x))
      | (clear_value x; rename' x => y)
      | (rename' x => y))
    | with_reducible apply ok_switchMerged
    | with_reducible apply ok_foldl
    | with_reducible apply ok_fold2
    | (intro _ _ _ _)
    | (intro _ _ _)
    | (intro _ _)
    | split
    | dsimp -zeta only)

theorem ok_doDlogMergeGranuleDone (table j : Nat) (s : State) (hok : memOk s) :
    memOk (doDlogMergeGranuleDone table j s) := by
  unfold doDlogMergeGranuleDone
  repeat' (first
    | with_reducible assumption
    | (extract_lets +onlyGivenNames x; first
      | (have hx : memOk x := ?_; clear_value x; rename' x => y; on_goal 2 => (dsimp -zeta only [x] <;> clear x))
      | (clear_value x; rename' x => y)
      | (rename' x => y))
    | with_reducible refine memOk_of_mems (mems_mergeStart ..) ?_
    | with_reducible apply ok_applyWaits
    | with_reducible refine memOk_of_mems (mems_updSieve ..) ?_
    | (intro _ _ _ _)
    | (intro _ _ _)
    | (intro _ _)
    | split
    | dsimp -zeta only)

theorem ok_admitOne (idx : Nat) (m : Nat × Nat) (s : State) (hok : memOk s) :
    memOk (admitOne idx m s) := by
  unfold admitOne
  repeat' (first
    | with_reducible assumption
    | (extract_lets +onlyGivenNames x; first
      | (have hx : memOk x := ?_; clear_value x; rename' x => y; on_goal 2 => (dsimp -zeta only [x] <;> clear x))
      | (clear_value x; rename' x => y)
      | (rename' x => y))
    | with_reducible apply ok_hotPut
    | with_reducible refine memOk_of_mems (mems_updSieve ..) ?_
    | with_reducible refine memOk_of_mems (mems_enterReq ..) ?_
    | with_reducible refine memOk_of_mems (mems_sieveCount ..) ?_
    | with_reducible apply ok_foldl
    | with_reducible apply ok_fold2
    | (intro _ _ _ _)
    | (intro _ _ _)
    | (intro _ _)
    | split
    | dsimp -zeta only)

theorem ok_admitHot (ctx : Nat) (s : State) (hok : memOk s) :
    memOk (admitHot ctx s) := by
  unfold admitHot
  repeat' (first
    | with_reducible assumption
    | (extract_lets +onlyGivenNames x; first
      | (have hx : memOk x := ?_; clear_value x; rename' x => y; on_goal 2 => (dsimp -zeta only [x] <;> clear x))
      | (clear_value x; rename' x => y)
      | (rename' x => y))
    | with_reducible apply ok_admitOne
    | with_reducible refine memOk_of_mems (mems_updSieve ..) ?_
    | with_reducible apply ok_foldl
    | with_reducible apply ok_fold2
    | (intro _ _ _ _)
    | (intro _ _ _)
    | (intro _ _)
    | split
    | dsimp -zeta only)

theorem ok_freeOldLbas (ctx : Nat) (s : State) (hok : memOk s) :
    memOk (freeOldLbas ctx s) := by
  unfold freeOldLbas
  repeat' (first
    | with_reducible assumption
    | (extract_lets +onlyGivenNames x; first
      | (have hx : memOk x := ?_; clear_value x; rename' x => y; on_goal 2 => (dsimp -zeta only [x] <;> clear x))
      | (clear_value x; rename' x => y)
      | (rename' x => y))
    | with_reducible apply ok_freeDrive
    | with_reducible refine memOk_of_mems (mems_updSieve ..) ?_
    | with_reducible apply ok_foldl
    | with_reducible apply ok_fold2
    | (intro _ _ _ _)
    | (intro _ _ _)
    | (intro _ _)
    | split
    | dsimp -zeta only)

/-! ## Windows -/

theorem ok_dropMove (m : Mig) (s : State) (hok : memOk s) :
    memOk (dropMove m s) := by
  unfold dropMove
  repeat' (first
    | with_reducible assumption
    | (extract_lets +onlyGivenNames x; first
      | (have hx : memOk x := ?_; clear_value x; rename' x => y; on_goal 2 => (dsimp -zeta only [x] <;> clear x))
      | (clear_value x; rename' x => y)
      | (rename' x => y))
    | with_reducible refine memOk_of_mems (mems_dropCopy ..) ?_
    | with_reducible apply ok_freeHome
    | with_reducible refine memOk_of_mems (mems_updObj ..) ?_
    | with_reducible refine memOk_of_mems (mems_updHz _ _ (by rfl)) ?_
    | with_reducible refine memOk_of_mems (mems_finish0 ..) ?_
    | with_reducible apply ok_foldl
    | with_reducible apply ok_fold2
    | (intro _ _ _ _)
    | (intro _ _ _)
    | (intro _ _)
    | split
    | dsimp -zeta only)

theorem ok_endBreaking (h : W32) (off size : Nat) (write : Bool) (s : State) (hok : memOk s) :
    memOk (endBreaking h off size write s) := by
  unfold endBreaking
  repeat' (first
    | with_reducible assumption
    | (extract_lets +onlyGivenNames x; first
      | (have hx : memOk x := ?_; clear_value x; rename' x => y; on_goal 2 => (dsimp -zeta only [x] <;> clear x))
      | (clear_value x; rename' x => y)
      | (rename' x => y))
    | with_reducible apply ok_dropMove
    | with_reducible apply ok_foldl
    | with_reducible apply ok_fold2
    | (intro _ _ _ _)
    | (intro _ _ _)
    | (intro _ _)
    | split
    | dsimp -zeta only)

theorem ok_doWinOpen (cid : Nat) (s : State) (hok : memOk s) :
    memOk (doWinOpen cid s) := by
  unfold doWinOpen
  repeat' (first
    | with_reducible assumption
    | (extract_lets +onlyGivenNames x; first
      | (have hx : memOk x := ?_; clear_value x; rename' x => y; on_goal 2 => (dsimp -zeta only [x] <;> clear x))
      | (have hx : memOk x.2 := ?_; clear_value x; rename' x => y; on_goal 2 => (dsimp -zeta only [x] <;> clear x))
      | (have hx : memOk x.2.2 := ?_; clear_value x; rename' x => y; on_goal 2 => (dsimp -zeta only [x] <;> clear x))
      | (have hx : ∀ s, memOk s → memOk (x s) := ?_; clear_value x; rename' x => y; on_goal 2 => (intro s hs; dsimp -zeta only [x] <;> clear x))
      | (have hx : ∀ a s, memOk s → memOk (x a s) := ?_; clear_value x; rename' x => y; on_goal 2 => (intro a s hs; dsimp -zeta only [x] <;> clear x))
      | (clear_value x; rename' x => y)
      | (rename' x => y))
    | with_reducible refine memOk_of_mems (mems_startCmd ..) ?_
    | with_reducible refine memOk_of_mems (mems_finish0 ..) ?_
    | with_reducible refine memOk_of_mems (mems_finish ..) ?_
    | with_reducible refine memOk_of_mems (mems_updFab ..) ?_
    | with_reducible apply ok_endBreaking
    | (intro _ _ _ _)
    | (intro _ _ _)
    | (intro _ _)
    | split
    | dsimp -zeta only
    | (apply_assumption -symm -exfalso (transparency := .reducible))
    | exact memOk_of_mems (s := s) rfl (by assumption)
    | exact memOk_of_mems rfl (by assumption))

theorem ok_winMaybeDone (g ser : Nat) (s : State) (hok : memOk s) :
    memOk (winMaybeDone g ser s) := by
  unfold winMaybeDone
  repeat' (first
    | with_reducible assumption
    | (extract_lets +onlyGivenNames x; first
      | (have hx : memOk x := ?_; clear_value x; rename' x => y; on_goal 2 => (dsimp -zeta only [x] <;> clear x))
      | (clear_value x; rename' x => y)
      | (rename' x => y))
    | with_reducible refine memOk_of_mems (mems_workDone ..) ?_
    | with_reducible apply ok_endAtom
    | with_reducible apply ok_applyAll
    | (intro _ _ _ _)
    | (intro _ _ _)
    | (intro _ _)
    | split
    | dsimp -zeta only)

theorem ok_winFail (q : WReq) (status : W16) (cause : Nat) (s : State) (hok : memOk s) :
    memOk (winFail q status cause s) := by
  unfold winFail
  repeat' (first
    | with_reducible assumption
    | (extract_lets +onlyGivenNames x; first
      | (have hx : memOk x := ?_; clear_value x; rename' x => y; on_goal 2 => (dsimp -zeta only [x] <;> clear x))
      | (clear_value x; rename' x => y)
      | (rename' x => y))
    | with_reducible refine memOk_of_mems (mems_updFab ..) ?_
    | with_reducible apply ok_winMaybeDone
    | with_reducible refine memOk_of_mems (mems_failClod ..) ?_
    | with_reducible refine memOk_of_mems (mems_updGuard ..) ?_
    | with_reducible refine memOk_of_mems (mems_poisonMoves ..) ?_
    | with_reducible refine memOk_of_mems (mems_postRec ..) ?_
    | with_reducible refine memOk_of_mems (mems_workDone ..) ?_
    | with_reducible refine memOk_of_mems (mems_segStatus ..) ?_
    | with_reducible apply ok_foldl
    | with_reducible apply ok_fold2
    | (intro _ _ _ _)
    | (intro _ _ _)
    | (intro _ _)
    | split
    | dsimp -zeta only)

theorem ok_failUnreachable (s : State) (hok : memOk s) :
    memOk (failUnreachable s) := by
  unfold failUnreachable
  repeat' (first
    | with_reducible assumption
    | (extract_lets +onlyGivenNames x; first
      | (have hx : memOk x := ?_; clear_value x; rename' x => y; on_goal 2 => (dsimp -zeta only [x] <;> clear x))
      | (clear_value x; rename' x => y)
      | (rename' x => y))
    | with_reducible refine memOk_of_mems (mems_updFab ..) ?_
    | with_reducible apply ok_winFail
    | with_reducible apply ok_foldl
    | with_reducible apply ok_fold2
    | (intro _ _ _ _)
    | (intro _ _ _)
    | (intro _ _)
    | split
    | dsimp -zeta only)

theorem ok_winPutAct (i : Iss) (s : State) (hok : memOk s) :
    memOk (winPutAct i s) := by
  unfold winPutAct
  repeat' (first
    | with_reducible assumption
    | (extract_lets +onlyGivenNames x; first
      | (have hx : memOk x := ?_; clear_value x; rename' x => y; on_goal 2 => (dsimp -zeta only [x] <;> clear x))
      | (have hx : memOk x.2 := ?_; clear_value x; rename' x => y; on_goal 2 => (dsimp -zeta only [x] <;> clear x))
      | (have hx : memOk x.2.2 := ?_; clear_value x; rename' x => y; on_goal 2 => (dsimp -zeta only [x] <;> clear x))
      | (clear_value x; rename' x => y)
      | (rename' x => y))
    | with_reducible refine memOk_of_mems (mems_openAtom ..) ?_
    | with_reducible refine memOk_of_mems (mems_failClod ..) ?_
    | with_reducible refine memOk_of_mems (mems_postRec ..) ?_
    | with_reducible refine memOk_of_mems (mems_consumePoison ..) ?_
    | with_reducible refine memOk_of_mems (mems_setWaitFor ..) ?_
    | with_reducible refine memOk_of_mems (mems_addPrep ..) ?_
    | with_reducible refine memOk_of_mems (mems_winAdd ..) ?_
    | with_reducible apply ok_winMaybeDone
    | with_reducible apply ok_failUnreachable
    | with_reducible apply ok_foldl
    | with_reducible apply ok_fold2
    | (intro _ _ _ _)
    | (intro _ _ _)
    | (intro _ _)
    | split
    | dsimp -zeta only
    | exact memOk_of_mems (s := s) rfl (by assumption)
    | exact memOk_of_mems rfl (by assumption))

theorem ok_winCutoff (g ser n : Nat) (s : State) (hok : memOk s) :
    memOk (winCutoff g ser n s) := by
  unfold winCutoff
  repeat' (first
    | with_reducible assumption
    | (extract_lets +onlyGivenNames x; first
      | (have hx : memOk x := ?_; clear_value x; rename' x => y; on_goal 2 => (dsimp -zeta only [x] <;> clear x))
      | (clear_value x; rename' x => y)
      | (rename' x => y))
    | with_reducible refine memOk_of_mems (mems_updGuard ..) ?_
    | with_reducible refine memOk_of_mems (mems_dropSource ..) ?_
    | with_reducible refine memOk_of_mems (mems_updFab ..) ?_
    | with_reducible refine memOk_of_mems (mems_winRung3 ..) ?_
    | with_reducible apply ok_winMaybeDone
    | with_reducible apply ok_foldl
    | with_reducible apply ok_fold2
    | (intro _ _ _ _)
    | (intro _ _ _)
    | (intro _ _)
    | split
    | dsimp -zeta only)

theorem ok_winGetAct (i : Iss) (s : State) (hok : memOk s) :
    memOk (winGetAct i s) := by
  unfold winGetAct
  repeat' (first
    | with_reducible assumption
    | (extract_lets +onlyGivenNames x; first
      | (have hx : memOk x := ?_; clear_value x; rename' x => y; on_goal 2 => (dsimp -zeta only [x] <;> clear x))
      | (have hx : memOk x.2 := ?_; clear_value x; rename' x => y; on_goal 2 => (dsimp -zeta only [x] <;> clear x))
      | (have hx : memOk x.2.2 := ?_; clear_value x; rename' x => y; on_goal 2 => (dsimp -zeta only [x] <;> clear x))
      | (clear_value x; rename' x => y)
      | (rename' x => y))
    | with_reducible refine memOk_of_mems (mems_setWaitFor ..) ?_
    | with_reducible refine memOk_of_mems (mems_updOut ..) ?_
    | with_reducible refine memOk_of_mems (mems_winRung3 ..) ?_
    | with_reducible refine memOk_of_mems (mems_openAtom ..) ?_
    | with_reducible refine memOk_of_mems (mems_winAdd ..) ?_
    | with_reducible refine memOk_of_mems (mems_updGuard ..) ?_
    | with_reducible apply ok_failUnreachable
    | with_reducible apply ok_winCutoff
    | with_reducible apply ok_winMaybeDone
    | with_reducible apply ok_foldl
    | with_reducible apply ok_fold2
    | (intro _ _ _ _)
    | (intro _ _ _)
    | (intro _ _)
    | split
    | dsimp -zeta only
    | exact memOk_of_mems (s := s) rfl (by assumption)
    | exact memOk_of_mems rfl (by assumption))

theorem ok_doWinPut (g t : Nat) (s : State) (hok : memOk s) :
    memOk (doWinPut g t s) := by
  unfold doWinPut
  repeat' (first
    | with_reducible assumption
    | (extract_lets +onlyGivenNames x; first
      | (have hx : memOk x := ?_; clear_value x; rename' x => y; on_goal 2 => (dsimp -zeta only [x] <;> clear x))
      | (clear_value x; rename' x => y)
      | (rename' x => y))
    | with_reducible apply ok_winPutAct
    | with_reducible apply ok_issueRow
    | (intro _ _ _ _)
    | (intro _ _ _)
    | (intro _ _)
    | split
    | dsimp -zeta only)

theorem ok_doWinGet (g t : Nat) (s : State) (hok : memOk s) :
    memOk (doWinGet g t s) := by
  unfold doWinGet
  repeat' (first
    | with_reducible assumption
    | (extract_lets +onlyGivenNames x; first
      | (have hx : memOk x := ?_; clear_value x; rename' x => y; on_goal 2 => (dsimp -zeta only [x] <;> clear x))
      | (clear_value x; rename' x => y)
      | (rename' x => y))
    | with_reducible apply ok_winGetAct
    | with_reducible apply ok_issueRow
    | (intro _ _ _ _)
    | (intro _ _ _)
    | (intro _ _)
    | split
    | dsimp -zeta only)

theorem ok_winStore (w : Win) (off : Nat) (data : List Byte) (poison : Bool) (s : State) (hok : memOk s) :
    memOk (winStore w off data poison s) := by
  unfold winStore
  repeat' (first
    | with_reducible assumption
    | (extract_lets +onlyGivenNames x; first
      | (have hx : memOk x := ?_; clear_value x; rename' x => y; on_goal 2 => (dsimp -zeta only [x] <;> clear x))
      | (clear_value x; rename' x => y)
      | (rename' x => y))
    | with_reducible apply ok_objWriteAt
    | with_reducible apply ok_lsWrite
    | with_reducible refine memOk_of_mems (mems_objSetPoison ..) ?_
    | with_reducible apply ok_foldl
    | with_reducible apply ok_fold2
    | (intro _ _ _ _)
    | (intro _ _ _)
    | (intro _ _)
    | split
    | dsimp -zeta only)

theorem ok_winServed (q : Req) (f : Flit) (x : WinSide) (n : Nat) (ans : HzAnswer) (s : State) (hok : memOk s) :
    memOk (winServed q f x n ans s) := by
  unfold winServed
  repeat' (first
    | with_reducible assumption
    | (extract_lets +onlyGivenNames x; first
      | (have hx : memOk x := ?_; clear_value x; rename' x => y; on_goal 2 => (dsimp -zeta only [x] <;> clear x))
      | (have hx : memOk x.2 := ?_; clear_value x; rename' x => y; on_goal 2 => (dsimp -zeta only [x] <;> clear x))
      | (have hx : memOk x.2.2 := ?_; clear_value x; rename' x => y; on_goal 2 => (dsimp -zeta only [x] <;> clear x))
      | (clear_value x; rename' x => y)
      | (rename' x => y))
    | with_reducible refine memOk_of_mems (mems_closeIfIdle ..) ?_
    | with_reducible refine memOk_of_mems (mems_ackUnit ..) ?_
    | with_reducible apply ok_winStore
    | with_reducible refine memOk_of_mems (mems_sourceRead ..) ?_
    | with_reducible refine memOk_of_mems (mems_updFab ..) ?_
    | with_reducible refine memOk_of_mems (mems_winRead ..) ?_
    | (intro _ _ _ _)
    | (intro _ _ _)
    | (intro _ _)
    | split
    | dsimp -zeta only
    | exact memOk_of_mems (s := s) rfl (by assumption)
    | exact memOk_of_mems rfl (by assumption))

theorem ok_doClodDecisionApply (pkg clod : Nat) (commit : Bool) (s : State) (hok : memOk s) :
    memOk (doClodDecisionApply pkg clod commit s) := by
  unfold doClodDecisionApply
  repeat' (first
    | with_reducible assumption
    | (extract_lets +onlyGivenNames x; first
      | (have hx : memOk x := ?_; clear_value x; rename' x => y; on_goal 2 => (dsimp -zeta only [x] <;> clear x))
      | (clear_value x; rename' x => y)
      | (rename' x => y))
    | with_reducible refine memOk_of_mems (mems_updFab ..) ?_
    | with_reducible refine memOk_of_mems (mems_serveScratch ..) ?_
    | with_reducible apply ok_winStore
    | with_reducible refine memOk_of_mems (mems_closeIfIdle ..) ?_
    | with_reducible refine memOk_of_mems (mems_winSignal ..) ?_
    | with_reducible apply ok_foldl
    | with_reducible apply ok_fold2
    | (intro _ _ _ _)
    | (intro _ _ _)
    | (intro _ _)
    | split
    | dsimp -zeta only)

theorem ok_doWindowResponseArrive (f : Flit) (poison : Bool) (s : State) (hok : memOk s) :
    memOk (doWindowResponseArrive f poison s) := by
  unfold doWindowResponseArrive
  repeat' (first
    | with_reducible assumption
    | (extract_lets +onlyGivenNames x; first
      | (have hx : memOk x := ?_; clear_value x; rename' x => y; on_goal 2 => (dsimp -zeta only [x] <;> clear x))
      | (have hx : memOk x.2 := ?_; clear_value x; rename' x => y; on_goal 2 => (dsimp -zeta only [x] <;> clear x))
      | (have hx : memOk x.2.2 := ?_; clear_value x; rename' x => y; on_goal 2 => (dsimp -zeta only [x] <;> clear x))
      | (have hx : ∀ s, memOk s → memOk (x s) := ?_; clear_value x; rename' x => y; on_goal 2 => (intro s hs; dsimp -zeta only [x] <;> clear x))
      | (have hx : ∀ a s, memOk s → memOk (x a s) := ?_; clear_value x; rename' x => y; on_goal 2 => (intro a s hs; dsimp -zeta only [x] <;> clear x))
      | (clear_value x; rename' x => y)
      | (rename' x => y))
    | with_reducible refine memOk_of_mems (mems_updFab ..) ?_
    | with_reducible refine memOk_of_mems (mems_noteLateArr ..) ?_
    | with_reducible apply ok_winFail
    | with_reducible apply ok_winMaybeDone
    | with_reducible refine memOk_of_mems (mems_failClod ..) ?_
    | with_reducible refine memOk_of_mems (mems_addPrep ..) ?_
    | with_reducible refine memOk_of_mems (mems_consumePoison ..) ?_
    | with_reducible refine memOk_of_mems (mems_winLocalWrite ..) ?_
    | (intro _ _ _ _)
    | (intro _ _ _)
    | (intro _ _)
    | split
    | dsimp -zeta only
    | (apply_assumption -symm -exfalso (transparency := .reducible))
    | exact memOk_of_mems (s := s) rfl (by assumption)
    | exact memOk_of_mems rfl (by assumption))

theorem ok_doRemoteTimeout (rtag : Nat) (s : State) (hok : memOk s) :
    memOk (doRemoteTimeout rtag s) := by
  unfold doRemoteTimeout
  repeat' (first
    | with_reducible assumption
    | (extract_lets +onlyGivenNames x; first
      | (have hx : memOk x := ?_; clear_value x; rename' x => y; on_goal 2 => (dsimp -zeta only [x] <;> clear x))
      | (clear_value x; rename' x => y)
      | (rename' x => y))
    | with_reducible apply ok_winFail
    | with_reducible refine memOk_of_mems (mems_updFab ..) ?_
    | split
    | dsimp -zeta only)

theorem ok_doTagGrant (pool : Pool) (s : State) (hok : memOk s) :
    memOk (doTagGrant pool s) := by
  unfold doTagGrant
  repeat' (first
    | with_reducible assumption
    | (extract_lets +onlyGivenNames x; first
      | (have hx : memOk x := ?_; clear_value x; rename' x => y; on_goal 2 => (dsimp -zeta only [x] <;> clear x))
      | (have hx : memOk x.2 := ?_; clear_value x; rename' x => y; on_goal 2 => (dsimp -zeta only [x] <;> clear x))
      | (have hx : memOk x.2.2 := ?_; clear_value x; rename' x => y; on_goal 2 => (dsimp -zeta only [x] <;> clear x))
      | (clear_value x; rename' x => y)
      | (rename' x => y))
    | with_reducible apply ok_failUnreachable
    | with_reducible refine memOk_of_mems (mems_settle ..) ?_
    | with_reducible refine memOk_of_mems (mems_winSend ..) ?_
    | with_reducible refine memOk_of_mems (mems_grantReq ..) ?_
    | (intro _ _ _ _)
    | (intro _ _ _)
    | (intro _ _)
    | split
    | dsimp -zeta only
    | exact memOk_of_mems (s := s) rfl (by assumption)
    | exact memOk_of_mems rfl (by assumption))

/-! ## Lanes -/

theorem ok_bankSlot (q b : Nat) (s : State) (hok : memOk s) :
    memOk (bankSlot q b s) := by
  unfold bankSlot
  repeat' (first
    | with_reducible assumption
    | (extract_lets +onlyGivenNames x; first
      | (have hx : memOk x := ?_; clear_value x; rename' x => y; on_goal 2 => (dsimp -zeta only [x] <;> clear x))
      | (clear_value x; rename' x => y)
      | (rename' x => y))
    | with_reducible refine memOk_of_mems (mems_lanePassed ..) ?_
    | with_reducible apply ok_landLane
    | with_reducible refine memOk_of_mems (mems_updPhys _ _ _ (by intro _; rfl)) ?_
    | (intro _ _ _ _)
    | (intro _ _ _)
    | (intro _ _)
    | split
    | dsimp -zeta only)

theorem ok_laneStep (s : State) (hok : memOk s) :
    memOk (laneStep s) := by
  unfold laneStep
  repeat' (first
    | with_reducible assumption
    | (extract_lets +onlyGivenNames x; first
      | (have hx : memOk x := ?_; clear_value x; rename' x => y; on_goal 2 => (dsimp -zeta only [x] <;> clear x))
      | (clear_value x; rename' x => y)
      | (rename' x => y))
    | with_reducible apply ok_bankSlot
    | with_reducible apply ok_foldl
    | with_reducible apply ok_fold2
    | (intro _ _ _ _)
    | (intro _ _ _)
    | (intro _ _)
    | split
    | dsimp -zeta only)

/-! ## Sync -/

theorem ok_cutoff (g ser n : Nat) (s : State) (hok : memOk s) :
    memOk (cutoff g ser n s) := by
  unfold cutoff
  repeat' (first
    | with_reducible assumption
    | (extract_lets +onlyGivenNames x; first
      | (have hx : memOk x := ?_; clear_value x; rename' x => y; on_goal 2 => (dsimp -zeta only [x] <;> clear x))
      | (clear_value x; rename' x => y)
      | (rename' x => y))
    | with_reducible refine memOk_of_mems (mems_dmaCutoff ..) ?_
    | with_reducible apply ok_gatherCutoff
    | with_reducible apply ok_winCutoff
    | (intro _ _ _ _)
    | (intro _ _ _)
    | (intro _ _)
    | split
    | dsimp -zeta only)

theorem ok_cutoffs (g t n : Nat) (s : State) (hok : memOk s) :
    memOk (cutoffs g t n s) := by
  unfold cutoffs
  repeat' (first
    | with_reducible assumption
    | (extract_lets +onlyGivenNames x; first
      | (have hx : memOk x := ?_; clear_value x; rename' x => y; on_goal 2 => (dsimp -zeta only [x] <;> clear x))
      | (clear_value x; rename' x => y)
      | (rename' x => y))
    | with_reducible apply ok_cutoff
    | with_reducible apply ok_foldl
    | with_reducible apply ok_fold2
    | (intro _ _ _ _)
    | (intro _ _ _)
    | (intro _ _)
    | split
    | dsimp -zeta only)

theorem ok_doDeadlineDue (g t : Nat) (s : State) (hok : memOk s) :
    memOk (doDeadlineDue g t s) := by
  unfold doDeadlineDue
  repeat' (first | with_reducible assumption | with_reducible apply ok_cutoffs | split)

theorem ok_doDeadlineRung2Cutoff (g t : Nat) (s : State) (hok : memOk s) :
    memOk (doDeadlineRung2Cutoff g t s) := by
  unfold doDeadlineRung2Cutoff
  repeat' (first | with_reducible assumption | with_reducible apply ok_cutoffs | split)

theorem ok_doDeadlineRung3Cutoff (g t : Nat) (s : State) (hok : memOk s) :
    memOk (doDeadlineRung3Cutoff g t s) := by
  unfold doDeadlineRung3Cutoff
  repeat' (first | with_reducible assumption | with_reducible apply ok_cutoffs | split)

theorem ok_releaseCommits (key outcome : Nat) (s : State) (hok : memOk s) :
    memOk (releaseCommits key outcome s) := by
  unfold releaseCommits
  repeat' (first
    | with_reducible assumption
    | (extract_lets +onlyGivenNames x; first
      | (have hx : memOk x := ?_; clear_value x; rename' x => y; on_goal 2 => (dsimp -zeta only [x] <;> clear x))
      | (clear_value x; rename' x => y)
      | (rename' x => y))
    | with_reducible apply ok_lsWriteBytes
    | with_reducible refine memOk_of_mems (mems_updThr ..) ?_
    | with_reducible refine memOk_of_mems (mems_workDone ..) ?_
    | with_reducible apply ok_foldl
    | with_reducible apply ok_fold2
    | (intro _ _ _ _)
    | (intro _ _ _)
    | (intro _ _)
    | split
    | dsimp -zeta only)

theorem ok_doClodDecision (ctx key : Nat) (s : State) (hok : memOk s) :
    memOk (doClodDecision ctx key s) := by
  unfold doClodDecision
  repeat' (first
    | with_reducible assumption
    | (extract_lets +onlyGivenNames x; first
      | (have hx : memOk x := ?_; clear_value x; rename' x => y; on_goal 2 => (dsimp -zeta only [x] <;> clear x))
      | (clear_value x; rename' x => y)
      | (rename' x => y))
    | with_reducible refine memOk_of_mems (mems_emit ..) ?_
    | with_reducible apply ok_applyAllS
    | with_reducible refine memOk_of_mems (mems_clodAbortRec ..) ?_
    | with_reducible apply ok_releaseCommits
    | with_reducible apply ok_foldl
    | with_reducible apply ok_fold2
    | (intro _ _ _ _)
    | (intro _ _ _)
    | (intro _ _)
    | split
    | dsimp -zeta only)

theorem ok_undefStage (i : Iss) (k : SpecTask) (s : State) (hok : memOk s) :
    memOk (undefStage i k s) := by
  unfold undefStage
  repeat' (first | with_reducible assumption | with_reducible apply ok_lsWrite | with_reducible refine memOk_of_mems (mems_freeBits ..) ?_ | with_reducible refine memOk_of_mems (mems_freeBool ..) ?_ | split)

theorem ok_settleSpec (g ser : Nat) (s : State) (hok : memOk s) :
    memOk (settleSpec g ser s) := by
  unfold settleSpec
  repeat' (first
    | with_reducible assumption
    | (extract_lets +onlyGivenNames x; first
      | (have hx : memOk x := ?_; clear_value x; rename' x => y; on_goal 2 => (dsimp -zeta only [x] <;> clear x))
      | (clear_value x; rename' x => y)
      | (rename' x => y))
    | with_reducible apply ok_releaseOut
    | with_reducible apply ok_undefStage
    | with_reducible refine memOk_of_mems (mems_consumePoison ..) ?_
    | with_reducible refine memOk_of_mems (mems_workDone ..) ?_
    | with_reducible refine memOk_of_mems (mems_updThr ..) ?_
    | with_reducible refine memOk_of_mems (mems_updCtx ..) ?_
    | with_reducible refine memOk_of_mems (mems_bump ..) ?_
    | with_reducible refine memOk_of_mems (mems_jumpTo ..) ?_
    | with_reducible refine memOk_of_mems (mems_enterAlt ..) ?_
    | with_reducible apply ok_foldl
    | with_reducible apply ok_fold2
    | (intro _ _ _ _)
    | (intro _ _ _)
    | (intro _ _)
    | split
    | dsimp -zeta only)

theorem ok_specResolveAct (i : Iss) (s : State) (hok : memOk s) :
    memOk (specResolveAct i s) := by
  unfold specResolveAct
  repeat' (first
    | with_reducible assumption
    | (extract_lets +onlyGivenNames x; first
      | (have hx : memOk x := ?_; clear_value x; rename' x => y; on_goal 2 => (dsimp -zeta only [x] <;> clear x))
      | (clear_value x; rename' x => y)
      | (rename' x => y))
    | with_reducible apply ok_settleSpec
    | with_reducible refine memOk_of_mems (mems_enterAlt ..) ?_
    | with_reducible refine memOk_of_mems (mems_updThr ..) ?_
    | with_reducible refine memOk_of_mems (mems_setWaitFor ..) ?_
    | split
    | dsimp -zeta only)

theorem ok_doSpecResolve (g t : Nat) (s : State) (hok : memOk s) :
    memOk (doSpecResolve g t s) := by
  unfold doSpecResolve
  repeat' (first
    | with_reducible assumption
    | (extract_lets +onlyGivenNames x; first
      | (have hx : memOk x := ?_; clear_value x; rename' x => y; on_goal 2 => (dsimp -zeta only [x] <;> clear x))
      | (clear_value x; rename' x => y)
      | (rename' x => y))
    | with_reducible apply ok_specResolveAct
    | with_reducible apply ok_issueRow
    | (intro _ _ _ _)
    | (intro _ _ _)
    | (intro _ _)
    | split
    | dsimp -zeta only)

theorem ok_pmcMarkAct (i : Iss) (s : State) (hok : memOk s) :
    memOk (pmcMarkAct i s) := by
  unfold pmcMarkAct
  repeat' (first | with_reducible assumption | with_reducible apply ok_addSample | with_reducible apply ok_doDescriptorComplete | with_reducible refine memOk_of_mems (mems_updOut ..) ?_ | split)

theorem ok_doPmcMark (g t : Nat) (s : State) (hok : memOk s) :
    memOk (doPmcMark g t s) := by
  unfold doPmcMark
  repeat' (first
    | with_reducible assumption
    | (extract_lets +onlyGivenNames x; first
      | (have hx : memOk x := ?_; clear_value x; rename' x => y; on_goal 2 => (dsimp -zeta only [x] <;> clear x))
      | (clear_value x; rename' x => y)
      | (rename' x => y))
    | with_reducible apply ok_pmcMarkAct
    | with_reducible apply ok_issueRow
    | (intro _ _ _ _)
    | (intro _ _ _)
    | (intro _ _)
    | split
    | dsimp -zeta only)

theorem ok_endAct (i : Iss) (s : State) (hok : memOk s) :
    memOk (endAct i s) := by
  unfold endAct
  repeat' (first
    | with_reducible assumption
    | (extract_lets +onlyGivenNames x; first
      | (have hx : memOk x := ?_; clear_value x; rename' x => y; on_goal 2 => (dsimp -zeta only [x] <;> clear x))
      | (clear_value x; rename' x => y)
      | (rename' x => y))
    | with_reducible apply ok_doDescriptorComplete
    | with_reducible refine memOk_of_mems (mems_endClods ..) ?_
    | split
    | dsimp -zeta only)

theorem ok_doEndOp (g t : Nat) (s : State) (hok : memOk s) :
    memOk (doEndOp g t s) := by
  unfold doEndOp
  repeat' (first
    | with_reducible assumption
    | (extract_lets +onlyGivenNames x; first
      | (have hx : memOk x := ?_; clear_value x; rename' x => y; on_goal 2 => (dsimp -zeta only [x] <;> clear x))
      | (clear_value x; rename' x => y)
      | (rename' x => y))
    | with_reducible apply ok_endAct
    | with_reducible apply ok_issueRow
    | (intro _ _ _ _)
    | (intro _ _ _)
    | (intro _ _)
    | split
    | dsimp -zeta only)

theorem ok_doComplete (g ser : Nat) (s : State) (hok : memOk s) :
    memOk (doComplete g ser s) := by
  unfold doComplete
  repeat' (first | with_reducible assumption | with_reducible apply ok_doDescriptorComplete | with_reducible apply ok_settleSpec | with_reducible refine memOk_of_mems (mems_gateAt ..) ?_ | split)

/-! ## Objects -/

theorem ok_dropObj (o : Obj) (s : State) (hok : memOk s) :
    memOk (dropObj o s) := by
  unfold dropObj
  repeat' (first
    | with_reducible assumption
    | (extract_lets +onlyGivenNames x; first
      | (have hx : memOk x := ?_; clear_value x; rename' x => y; on_goal 2 => (dsimp -zeta only [x] <;> clear x))
      | (clear_value x; rename' x => y)
      | (rename' x => y))
    | with_reducible refine memOk_of_mems (mems_dropCopy ..) ?_
    | with_reducible apply ok_freeHome
    | with_reducible apply ok_freeFrame
    | with_reducible refine memOk_of_mems (mems_updHz _ _ (by rfl)) ?_
    | with_reducible apply ok_foldl
    | with_reducible apply ok_fold2
    | (intro _ _ _ _)
    | (intro _ _ _)
    | (intro _ _)
    | split
    | dsimp -zeta only)

theorem ok_doObjFree (cid : Nat) (s : State) (hok : memOk s) :
    memOk (doObjFree cid s) := by
  unfold doObjFree
  repeat' (first
    | with_reducible assumption
    | (extract_lets +onlyGivenNames x; first
      | (have hx : memOk x := ?_; clear_value x; rename' x => y; on_goal 2 => (dsimp -zeta only [x] <;> clear x))
      | (clear_value x; rename' x => y)
      | (rename' x => y))
    | with_reducible apply ok_dropObj
    | with_reducible refine memOk_of_mems (mems_startCmd ..) ?_
    | with_reducible refine memOk_of_mems (mems_finish0 ..) ?_
    | split
    | dsimp -zeta only)

theorem ok_switchGran (m : Mig) (x : MigG) (s : State) (hok : memOk s) :
    memOk (switchGran m x s) := by
  unfold switchGran
  repeat' (first
    | with_reducible assumption
    | (extract_lets +onlyGivenNames x; first
      | (have hx : memOk x := ?_; clear_value x; rename' x => y; on_goal 2 => (dsimp -zeta only [x] <;> clear x))
      | (clear_value x; rename' x => y)
      | (rename' x => y))
    | with_reducible refine memOk_of_mems (mems_updObj ..) ?_
    | with_reducible refine memOk_of_mems (mems_dropCopy ..) ?_
    | with_reducible refine memOk_of_mems (mems_updHz _ _ (by rfl)) ?_
    | with_reducible apply ok_freeHome
    | with_reducible apply ok_freeFrame
    | (intro _ _ _ _)
    | (intro _ _ _)
    | (intro _ _)
    | split
    | dsimp -zeta only)

theorem ok_switchMoves (ctx : Nat) (s : State) (hok : memOk s) :
    memOk (switchMoves ctx s) := by
  unfold switchMoves
  repeat' (first
    | with_reducible assumption
    | (extract_lets +onlyGivenNames x; first
      | (have hx : memOk x := ?_; clear_value x; rename' x => y; on_goal 2 => (dsimp -zeta only [x] <;> clear x))
      | (clear_value x; rename' x => y)
      | (rename' x => y))
    | with_reducible apply ok_switchGran
    | with_reducible refine memOk_of_mems (mems_updHz _ _ (by rfl)) ?_
    | with_reducible refine memOk_of_mems (mems_beginNext ..) ?_
    | with_reducible refine memOk_of_mems (mems_endMoves ..) ?_
    | with_reducible apply ok_foldl
    | with_reducible apply ok_fold2
    | (intro _ _ _ _)
    | (intro _ _ _)
    | (intro _ _)
    | split
    | dsimp -zeta only)

theorem ok_doMigrationCopyDone (handle granule : Nat) (s : State) (hok : memOk s) :
    memOk (doMigrationCopyDone handle granule s) := by
  unfold doMigrationCopyDone
  repeat' (first
    | with_reducible assumption
    | (extract_lets +onlyGivenNames x; first
      | (have hx : memOk x := ?_; clear_value x; rename' x => y; on_goal 2 => (dsimp -zeta only [x] <;> clear x))
      | (clear_value x; rename' x => y)
      | (rename' x => y))
    | with_reducible refine memOk_of_mems (mems_copyReach ..) ?_
    | with_reducible apply ok_copyNow
    | with_reducible refine memOk_of_mems (mems_updHz _ _ (by rfl)) ?_
    | with_reducible refine memOk_of_mems (mems_beginNext ..) ?_
    | with_reducible apply ok_switchMoves
    | (intro _ _ _ _)
    | (intro _ _ _)
    | (intro _ _)
    | split
    | dsimp -zeta only)

theorem ok_doPromotionCopyDone (handle granule : Nat) (s : State) (hok : memOk s) :
    memOk (doPromotionCopyDone handle granule s) := by
  unfold doPromotionCopyDone
  repeat' (first
    | with_reducible assumption
    | (extract_lets +onlyGivenNames x; first
      | (have hx : memOk x := ?_; clear_value x; rename' x => y; on_goal 2 => (dsimp -zeta only [x] <;> clear x))
      | (clear_value x; rename' x => y)
      | (rename' x => y))
    | with_reducible apply ok_copyNow
    | with_reducible refine memOk_of_mems (mems_copyReach ..) ?_
    | with_reducible refine memOk_of_mems (mems_updHz _ _ (by rfl)) ?_
    | (intro _ _ _ _)
    | (intro _ _ _)
    | (intro _ _)
    | split
    | dsimp -zeta only)

theorem ok_evictCopy (h : W32) (j : Nat) (s : State) (hok : memOk s) :
    memOk (evictCopy h j s) := by
  unfold evictCopy
  repeat' (first
    | with_reducible assumption
    | (extract_lets +onlyGivenNames x; first
      | (have hx : memOk x := ?_; clear_value x; rename' x => y; on_goal 2 => (dsimp -zeta only [x] <;> clear x))
      | (clear_value x; rename' x => y)
      | (rename' x => y))
    | with_reducible refine memOk_of_mems (mems_updObj ..) ?_
    | with_reducible refine memOk_of_mems (mems_copyUnits ..) ?_
    | with_reducible refine memOk_of_mems (mems_updHz _ _ (by rfl)) ?_
    | with_reducible apply ok_freeFrame
    | (intro _ _ _ _)
    | (intro _ _ _)
    | (intro _ _)
    | split
    | dsimp -zeta only)

theorem ok_evictFor (ctx n : Nat) (s : State) (h : memOk s) : memOk (evictFor ctx n s) := by
  induction n generalizing s with
  | zero => exact h
  | succ n ih => unfold evictFor; repeat' (first | exact h | split | exact ih _ (ok_evictCopy _ _ _ h))

theorem ok_settlePromos (ctx : Nat) (s : State) (hok : memOk s) :
    memOk (settlePromos ctx s) := by
  unfold settlePromos
  repeat' (first
    | with_reducible assumption
    | (extract_lets +onlyGivenNames x; first
      | (have hx : memOk x := ?_; clear_value x; rename' x => y; on_goal 2 => (dsimp -zeta only [x] <;> clear x))
      | (clear_value x; rename' x => y)
      | (rename' x => y))
    | with_reducible apply ok_freeFrame
    | with_reducible refine memOk_of_mems (mems_validatePromo ..) ?_
    | with_reducible refine memOk_of_mems (mems_updHz _ _ (by rfl)) ?_
    | with_reducible apply ok_evictFor
    | with_reducible apply ok_foldl
    | with_reducible apply ok_fold2
    | (intro _ _ _ _)
    | (intro _ _ _)
    | (intro _ _)
    | split
    | dsimp -zeta only)

theorem ok_retireFrames (ctx : Nat) (s : State) (hok : memOk s) :
    memOk (retireFrames ctx s) := by
  unfold retireFrames
  repeat' (first
    | with_reducible assumption
    | (extract_lets +onlyGivenNames x; first
      | (have hx : memOk x := ?_; clear_value x; rename' x => y; on_goal 2 => (dsimp -zeta only [x] <;> clear x))
      | (have hx : memOk x.2 := ?_; clear_value x; rename' x => y; on_goal 2 => (dsimp -zeta only [x] <;> clear x))
      | (have hx : memOk x.2.2 := ?_; clear_value x; rename' x => y; on_goal 2 => (dsimp -zeta only [x] <;> clear x))
      | (clear_value x; rename' x => y)
      | (rename' x => y))
    | with_reducible refine memOk_of_mems (mems_allocFrame ..) ?_
    | with_reducible apply ok_copyGranule
    | with_reducible refine memOk_of_mems (mems_updObj ..) ?_
    | with_reducible apply ok_freeFrame
    | with_reducible refine memOk_of_mems (mems_updHz _ _ (by rfl)) ?_
    | with_reducible refine memOk_of_mems (mems_learnFrame ..) ?_
    | with_reducible refine memOk_of_mems (mems_postRec ..) ?_
    | with_reducible apply ok_foldl
    | with_reducible apply ok_fold2
    | (intro _ _ _ _)
    | (intro _ _ _)
    | (intro _ _)
    | split
    | dsimp -zeta only
    | exact memOk_of_mems (s := s) rfl (by assumption)
    | exact memOk_of_mems rfl (by assumption))

theorem ok_dropTable (t : Sieve) (s : State) (hok : memOk s) :
    memOk (dropTable t s) := by
  unfold dropTable
  repeat' (first
    | with_reducible assumption
    | (extract_lets +onlyGivenNames x; first
      | (have hx : memOk x := ?_; clear_value x; rename' x => y; on_goal 2 => (dsimp -zeta only [x] <;> clear x))
      | (clear_value x; rename' x => y)
      | (rename' x => y))
    | with_reducible refine memOk_of_mems (mems_dropCopy ..) ?_
    | with_reducible apply ok_freeFrame
    | with_reducible apply ok_freeDrive
    | with_reducible apply ok_foldl
    | with_reducible apply ok_fold2
    | (intro _ _ _ _)
    | (intro _ _ _)
    | (intro _ _)
    | split
    | dsimp -zeta only)

theorem ok_doObjFallback (cid : Nat) (s : State) (hok : memOk s) :
    memOk (doObjFallback cid s) := by
  unfold doObjFallback
  repeat' (first
    | with_reducible assumption
    | (extract_lets +onlyGivenNames x; first
      | (have hx : memOk x := ?_; clear_value x; rename' x => y; on_goal 2 => (dsimp -zeta only [x] <;> clear x))
      | (have hx : memOk x.2 := ?_; clear_value x; rename' x => y; on_goal 2 => (dsimp -zeta only [x] <;> clear x))
      | (have hx : memOk x.2.2 := ?_; clear_value x; rename' x => y; on_goal 2 => (dsimp -zeta only [x] <;> clear x))
      | (have hx : ∀ s, memOk s → memOk (x s) := ?_; clear_value x; rename' x => y; on_goal 2 => (intro s hs; dsimp -zeta only [x] <;> clear x))
      | (have hx : ∀ a s, memOk s → memOk (x a s) := ?_; clear_value x; rename' x => y; on_goal 2 => (intro a s hs; dsimp -zeta only [x] <;> clear x))
      | (clear_value x; rename' x => y)
      | (rename' x => y))
    | with_reducible refine memOk_of_mems (mems_startCmd ..) ?_
    | with_reducible refine memOk_of_mems (mems_finish0 ..) ?_
    | with_reducible refine memOk_of_mems (mems_updObj ..) ?_
    | with_reducible apply ok_dropTable
    | with_reducible refine memOk_of_mems (mems_allocFrames ..) ?_
    | with_reducible apply ok_poolEmpty
    | with_reducible apply ok_dlogClear
    | with_reducible refine memOk_of_mems (mems_finish ..) ?_
    | with_reducible apply ok_foldl
    | with_reducible apply ok_fold2
    | (intro _ _ _ _)
    | (intro _ _ _)
    | (intro _ _)
    | split
    | dsimp -zeta only
    | (apply_assumption -symm -exfalso (transparency := .reducible))
    | exact memOk_of_mems (s := s) rfl (by assumption)
    | exact memOk_of_mems rfl (by assumption))

theorem ok_nvmeEnds (n : NvmeCmd) (res : NvmeResult) (s : State) (hok : memOk s) :
    memOk (nvmeEnds n res s) := by
  unfold nvmeEnds
  repeat' (first
    | with_reducible assumption
    | (extract_lets +onlyGivenNames x; first
      | (have hx : memOk x := ?_; clear_value x; rename' x => y; on_goal 2 => (dsimp -zeta only [x] <;> clear x))
      | (clear_value x; rename' x => y)
      | (rename' x => y))
    | with_reducible refine memOk_of_mems (mems_updHz _ _ (by rfl)) ?_
    | with_reducible refine memOk_of_mems (mems_mergeFlushed ..) ?_
    | with_reducible apply ok_respond
    | with_reducible apply ok_mergeStep
    | with_reducible refine memOk_of_mems (mems_settle ..) ?_
    | with_reducible apply ok_answerReq
    | with_reducible apply ok_foldl
    | with_reducible apply ok_fold2
    | (intro _ _ _ _)
    | (intro _ _ _)
    | (intro _ _)
    | split
    | dsimp -zeta only)

theorem ok_doHorizonResponse (req : Nat) (ans : HzAnswer) (s : State) (hok : memOk s) :
    memOk (doHorizonResponse req ans s) := by
  unfold doHorizonResponse
  repeat' (first
    | with_reducible assumption
    | (extract_lets +onlyGivenNames x; first
      | (have hx : memOk x := ?_; clear_value x; rename' x => y; on_goal 2 => (dsimp -zeta only [x] <;> clear x))
      | (have hx : memOk x.2 := ?_; clear_value x; rename' x => y; on_goal 2 => (dsimp -zeta only [x] <;> clear x))
      | (have hx : memOk x.2.2 := ?_; clear_value x; rename' x => y; on_goal 2 => (dsimp -zeta only [x] <;> clear x))
      | (have hx : ∀ s, memOk s → memOk (x s) := ?_; clear_value x; rename' x => y; on_goal 2 => (intro s hs; dsimp -zeta only [x] <;> clear x))
      | (have hx : ∀ a s, memOk s → memOk (x a s) := ?_; clear_value x; rename' x => y; on_goal 2 => (intro a s hs; dsimp -zeta only [x] <;> clear x))
      | (clear_value x; rename' x => y)
      | (rename' x => y))
    | with_reducible refine memOk_of_mems (mems_updHz _ _ (by rfl)) ?_
    | with_reducible apply ok_respond
    | with_reducible apply ok_winServed
    | with_reducible refine memOk_of_mems (mems_settle ..) ?_
    | with_reducible apply ok_answerReq
    | (intro _ _ _ _)
    | (intro _ _ _)
    | (intro _ _)
    | split
    | dsimp -zeta only
    | (apply_assumption -symm -exfalso (transparency := .reducible))
    | exact memOk_of_mems (s := s) rfl (by assumption)
    | exact memOk_of_mems rfl (by assumption))

theorem ok_doNvmeCompletion (drive cmd : Nat) (res : NvmeResult) (s : State) (hok : memOk s) :
    memOk (doNvmeCompletion drive cmd res s) := by
  unfold doNvmeCompletion
  repeat' (first
    | with_reducible assumption
    | (extract_lets +onlyGivenNames x; first
      | (have hx : memOk x := ?_; clear_value x; rename' x => y; on_goal 2 => (dsimp -zeta only [x] <;> clear x))
      | (clear_value x; rename' x => y)
      | (rename' x => y))
    | with_reducible apply ok_nvmeEnds
    | (intro _ _ _ _)
    | (intro _ _ _)
    | (intro _ _)
    | split
    | dsimp -zeta only)

theorem ok_doDriveFailed (drive : Nat) (cause : DriveCause) (status : W16) (s : State) (hok : memOk s) :
    memOk (doDriveFailed drive cause status s) := by
  unfold doDriveFailed
  repeat' (first
    | with_reducible assumption
    | (extract_lets +onlyGivenNames x; first
      | (have hx : memOk x := ?_; clear_value x; rename' x => y; on_goal 2 => (dsimp -zeta only [x] <;> clear x))
      | (clear_value x; rename' x => y)
      | (rename' x => y))
    | with_reducible refine memOk_of_mems (mems_updHz _ _ (by rfl)) ?_
    | with_reducible refine memOk_of_mems (mems_reportDegraded ..) ?_
    | with_reducible refine memOk_of_mems (mems_postRec ..) ?_
    | with_reducible apply ok_nvmeEnds
    | with_reducible apply ok_foldl
    | with_reducible apply ok_fold2
    | (intro _ _ _ _)
    | (intro _ _ _)
    | (intro _ _)
    | split
    | dsimp -zeta only)

end Sys2Proof.Machine
end

