-- ==== Sys2Proof/Laws/FormStep.lean ====
section
/-! SUPPORT. What stores keeps the canonical form of every memory: reductions, segments, steps and contexts. -/

namespace Sys2Proof.Machine

open Sys2Proof

set_option maxRecDepth 4096
set_option linter.all false

/-! ## Reduction -/

theorem ok_siltKeep (b : Bucket) (tag k : Nat) (fs : List (List Byte)) (s : State) (hok : memOk s) :
    memOk (siltKeep b tag k fs s) := by
  unfold siltKeep
  repeat' (first
    | with_reducible assumption
    | (extract_lets +onlyGivenNames x; first
      | (have hx : memOk x := ?_; clear_value x; rename' x => y; on_goal 2 => (dsimp -zeta only [x] <;> clear x))
      | (clear_value x; rename' x => y)
      | (rename' x => y))
    | with_reducible apply ok_objWriteAt
    | with_reducible apply ok_foldl
    | with_reducible apply ok_fold2
    | (intro _ _ _ _)
    | (intro _ _ _)
    | (intro _ _)
    | split
    | dsimp -zeta only)

theorem ok_setResult (b : Bucket) (tag k : Nat) (l : List W32) (promo : Bool) (fs : List (List Byte)) (s : State) (hok : memOk s) :
    memOk (setResult b tag k l promo fs s) := by
  unfold setResult
  repeat' (first
    | with_reducible assumption
    | (extract_lets +onlyGivenNames x; first
      | (have hx : memOk x := ?_; clear_value x; rename' x => y; on_goal 2 => (dsimp -zeta only [x] <;> clear x))
      | (clear_value x; rename' x => y)
      | (rename' x => y))
    | with_reducible refine memOk_of_mems (mems_failInst ..) ?_
    | with_reducible refine memOk_of_mems (mems_updInst ..) ?_
    | with_reducible refine memOk_of_mems (mems_updChunk ..) ?_
    | with_reducible refine memOk_of_mems (mems_siltCopy ..) ?_
    | with_reducible apply ok_siltKeep
    | with_reducible refine memOk_of_mems (mems_sendChunk ..) ?_
    | with_reducible refine memOk_of_mems (mems_serveWaits ..) ?_
    | with_reducible apply ok_foldl
    | with_reducible apply ok_fold2
    | (intro _ _ _ _)
    | (intro _ _ _)
    | (intro _ _)
    | split
    | dsimp -zeta only)

theorem ok_advanceChunk (tag k : Nat) (s : State) (hok : memOk s) :
    memOk (advanceChunk tag k s) := by
  unfold advanceChunk
  repeat' (first
    | with_reducible assumption
    | (extract_lets +onlyGivenNames x; first
      | (have hx : memOk x := ?_; clear_value x; rename' x => y; on_goal 2 => (dsimp -zeta only [x] <;> clear x))
      | (clear_value x; rename' x => y)
      | (rename' x => y))
    | with_reducible refine memOk_of_mems (mems_noteFlush ..) ?_
    | with_reducible refine memOk_of_mems (mems_updChunk ..) ?_
    | with_reducible apply ok_setResult
    | with_reducible refine memOk_of_mems (mems_noteStk ..) ?_
    | with_reducible refine memOk_of_mems (mems_failInst ..) ?_
    | with_reducible refine memOk_of_mems (mems_endIfOver ..) ?_
    | with_reducible refine memOk_of_mems (mems_sendChunk ..) ?_
    | (intro _ _ _ _)
    | (intro _ _ _)
    | (intro _ _)
    | split
    | dsimp -zeta only)

theorem ok_takeFlit (b : Bucket) (f : Flit) (s : State) (hok : memOk s) :
    memOk (takeFlit b f s) := by
  unfold takeFlit
  repeat' (first
    | with_reducible assumption
    | (extract_lets +onlyGivenNames x; first
      | (have hx : memOk x := ?_; clear_value x; rename' x => y; on_goal 2 => (dsimp -zeta only [x] <;> clear x))
      | (clear_value x; rename' x => y)
      | (rename' x => y))
    | with_reducible refine memOk_of_mems (mems_failInst ..) ?_
    | with_reducible refine memOk_of_mems (mems_updChunk ..) ?_
    | with_reducible refine memOk_of_mems (mems_updInst ..) ?_
    | with_reducible apply ok_setResult
    | with_reducible refine memOk_of_mems (mems_noteStk ..) ?_
    | with_reducible apply ok_advanceChunk
    | (intro _ _ _ _)
    | (intro _ _ _)
    | (intro _ _)
    | split
    | dsimp -zeta only)

theorem ok_takeEarly (tag : Nat) (s : State) (hok : memOk s) :
    memOk (takeEarly tag s) := by
  unfold takeEarly
  repeat' (first
    | with_reducible assumption
    | (extract_lets +onlyGivenNames x; first
      | (have hx : memOk x := ?_; clear_value x; rename' x => y; on_goal 2 => (dsimp -zeta only [x] <;> clear x))
      | (clear_value x; rename' x => y)
      | (rename' x => y))
    | with_reducible apply ok_takeFlit
    | with_reducible refine memOk_of_mems (mems_updFab ..) ?_
    | with_reducible apply ok_foldl
    | with_reducible apply ok_fold2
    | (intro _ _ _ _)
    | (intro _ _ _)
    | (intro _ _)
    | split
    | dsimp -zeta only)

theorem ok_postNow (i : Iss) (s : State) (hok : memOk s) :
    memOk (postNow i s) := by
  unfold postNow
  repeat' (first
    | with_reducible assumption
    | (extract_lets +onlyGivenNames x; first
      | (have hx : memOk x := ?_; clear_value x; rename' x => y; on_goal 2 => (dsimp -zeta only [x] <;> clear x))
      | (clear_value x; rename' x => y)
      | (rename' x => y))
    | with_reducible refine memOk_of_mems (mems_setWaitFor ..) ?_
    | with_reducible apply ok_takeEarly
    | with_reducible refine memOk_of_mems (mems_startInst ..) ?_
    | with_reducible refine memOk_of_mems (mems_workDone ..) ?_
    | with_reducible refine memOk_of_mems (mems_faultAt ..) ?_
    | with_reducible refine memOk_of_mems (mems_noteStk ..) ?_
    | with_reducible refine memOk_of_mems (mems_postRec ..) ?_
    | with_reducible refine memOk_of_mems (mems_failInst ..) ?_
    | with_reducible refine memOk_of_mems (mems_updInst ..) ?_
    | with_reducible refine memOk_of_mems (mems_updChunk ..) ?_
    | with_reducible apply ok_advanceChunk
    | with_reducible apply ok_foldl
    | with_reducible apply ok_fold2
    | (intro _ _ _ _)
    | (intro _ _ _)
    | (intro _ _)
    | split
    | dsimp -zeta only)

theorem ok_doRedPost (g t : Nat) (s : State) (hok : memOk s) :
    memOk (doRedPost g t s) := by
  unfold doRedPost
  repeat' (first
    | with_reducible assumption
    | (extract_lets +onlyGivenNames x; first
      | (have hx : memOk x := ?_; clear_value x; rename' x => y; on_goal 2 => (dsimp -zeta only [x] <;> clear x))
      | (clear_value x; rename' x => y)
      | (rename' x => y))
    | with_reducible apply ok_postNow
    | with_reducible apply ok_issueRow
    | (intro _ _ _ _)
    | (intro _ _ _)
    | (intro _ _)
    | split
    | dsimp -zeta only)

theorem ok_doReductionFlitArrive (f : Flit) (s : State) (hok : memOk s) :
    memOk (doReductionFlitArrive f s) := by
  unfold doReductionFlitArrive
  repeat' (first
    | with_reducible assumption
    | (extract_lets +onlyGivenNames x; first
      | (have hx : memOk x := ?_; clear_value x; rename' x => y; on_goal 2 => (dsimp -zeta only [x] <;> clear x))
      | (have hx : memOk x.2 := ?_; clear_value x; rename' x => y; on_goal 2 => (dsimp -zeta only [x] <;> clear x))
      | (have hx : memOk x.2.2 := ?_; clear_value x; rename' x => y; on_goal 2 => (dsimp -zeta only [x] <;> clear x))
      | (have hx : ∀ s, memOk s → memOk (x s) := ?_; clear_value x; rename' x => y; on_goal 2 => (intro s _; dsimp -zeta only [x] <;> clear x))
      | (have hx : ∀ a, memOk (x a) := ?_; clear_value x; rename' x => y; on_goal 2 => (intro a; dsimp -zeta only [x] <;> clear x))
      | (have hx : ∀ a s, memOk s → memOk (x a s) := ?_; clear_value x; rename' x => y; on_goal 2 => (intro a s _; dsimp -zeta only [x] <;> clear x))
      | (clear_value x; rename' x => y)
      | (rename' x => y))
    | with_reducible apply ok_takeEarly
    | with_reducible apply ok_takeFlit
    | with_reducible refine memOk_of_mems (mems_updFab ..) ?_
    | with_reducible refine memOk_of_mems (mems_startInst ..) ?_
    | apply_assumption -symm -exfalso (transparency := .reducible)
    | split
    | dsimp -zeta only)

theorem ok_servePosts (tag : Nat) (s : State) (hok : memOk s) :
    memOk (servePosts tag s) := by
  unfold servePosts
  repeat' (first
    | with_reducible assumption
    | (extract_lets +onlyGivenNames x; first
      | (have hx : memOk x := ?_; clear_value x; rename' x => y; on_goal 2 => (dsimp -zeta only [x] <;> clear x))
      | (clear_value x; rename' x => y)
      | (rename' x => y))
    | with_reducible apply ok_takeEarly
    | with_reducible apply ok_postNow
    | with_reducible apply ok_foldl
    | with_reducible apply ok_fold2
    | (intro _ _ _ _)
    | (intro _ _ _)
    | (intro _ _)
    | split
    | dsimp -zeta only)

theorem ok_wakeEarly (s : State) (hok : memOk s) :
    memOk (wakeEarly s) := by
  unfold wakeEarly
  repeat' (first
    | with_reducible assumption
    | (extract_lets +onlyGivenNames x; first
      | (have hx : memOk x := ?_; clear_value x; rename' x => y; on_goal 2 => (dsimp -zeta only [x] <;> clear x))
      | (clear_value x; rename' x => y)
      | (rename' x => y))
    | with_reducible apply ok_takeEarly
    | with_reducible refine memOk_of_mems (mems_startInst ..) ?_
    | with_reducible apply ok_foldl
    | with_reducible apply ok_fold2
    | (intro _ _ _ _)
    | (intro _ _ _)
    | (intro _ _)
    | split
    | dsimp -zeta only)

theorem ok_redAfter (s : State) (hok : memOk s) :
    memOk (redAfter s) := by
  unfold redAfter
  repeat' (first
    | with_reducible assumption
    | (extract_lets +onlyGivenNames x; first
      | (have hx : memOk x := ?_; clear_value x; rename' x => y; on_goal 2 => (dsimp -zeta only [x] <;> clear x))
      | (clear_value x; rename' x => y)
      | (rename' x => y))
    | with_reducible apply ok_servePosts
    | with_reducible apply ok_wakeEarly
    | with_reducible refine memOk_of_mems (mems_failGone ..) ?_
    | with_reducible apply ok_foldl
    | with_reducible apply ok_fold2
    | (intro _ _ _ _)
    | (intro _ _ _)
    | (intro _ _)
    | split
    | dsimp -zeta only)

theorem ok_doBucketTimeout (tag : Nat) (s : State) (hok : memOk s) :
    memOk (doBucketTimeout tag s) := by
  unfold doBucketTimeout
  repeat' (first
    | with_reducible assumption
    | (extract_lets +onlyGivenNames x; first
      | (have hx : memOk x := ?_; clear_value x; rename' x => y; on_goal 2 => (dsimp -zeta only [x] <;> clear x))
      | (clear_value x; rename' x => y)
      | (rename' x => y))
    | with_reducible apply ok_redAfter
    | with_reducible refine memOk_of_mems (mems_failInst ..) ?_
    | (intro _ _ _ _)
    | (intro _ _ _)
    | (intro _ _)
    | split
    | dsimp -zeta only)

theorem ok_doBucketFailureNotice (tag : Nat) (status : W16) (pkg : Nat) (s : State) (hok : memOk s) :
    memOk (doBucketFailureNotice tag status pkg s) := by
  unfold doBucketFailureNotice
  repeat' (first
    | with_reducible assumption
    | (extract_lets +onlyGivenNames x; first
      | (have hx : memOk x := ?_; clear_value x; rename' x => y; on_goal 2 => (dsimp -zeta only [x] <;> clear x))
      | (clear_value x; rename' x => y)
      | (rename' x => y))
    | with_reducible apply ok_takeEarly
    | with_reducible refine memOk_of_mems (mems_startInst ..) ?_
    | with_reducible apply ok_redAfter
    | with_reducible refine memOk_of_mems (mems_failInst ..) ?_
    | (intro _ _ _ _)
    | (intro _ _ _)
    | (intro _ _)
    | split
    | dsimp -zeta only)

theorem ok_doBucketResumeNotice (tag chunk pkg : Nat) (s : State) (hok : memOk s) :
    memOk (doBucketResumeNotice tag chunk pkg s) := by
  unfold doBucketResumeNotice
  repeat' (first
    | with_reducible assumption
    | (extract_lets +onlyGivenNames x; first
      | (have hx : memOk x := ?_; clear_value x; rename' x => y; on_goal 2 => (dsimp -zeta only [x] <;> clear x))
      | (clear_value x; rename' x => y)
      | (rename' x => y))
    | with_reducible apply ok_advanceChunk
    | with_reducible refine memOk_of_mems (mems_updFab ..) ?_
    | with_reducible refine memOk_of_mems (mems_dropPartials ..) ?_
    | split
    | dsimp -zeta only)

theorem ok_resumeChunks (ctx : Nat) (s : State) (hok : memOk s) :
    memOk (resumeChunks ctx s) := by
  unfold resumeChunks
  repeat' (first
    | with_reducible assumption
    | (extract_lets +onlyGivenNames x; first
      | (have hx : memOk x := ?_; clear_value x; rename' x => y; on_goal 2 => (dsimp -zeta only [x] <;> clear x))
      | (clear_value x; rename' x => y)
      | (rename' x => y))
    | with_reducible refine memOk_of_mems (mems_sendCtl ..) ?_
    | with_reducible apply ok_doBucketResumeNotice
    | with_reducible apply ok_foldl
    | with_reducible apply ok_fold2
    | (intro _ _ _ _)
    | (intro _ _ _)
    | (intro _ _)
    | split
    | dsimp -zeta only)

theorem ok_doDigestQuery (cid : Nat) (s : State) (hok : memOk s) :
    memOk (doDigestQuery cid s) := by
  unfold doDigestQuery
  repeat' (first
    | with_reducible assumption
    | (extract_lets +onlyGivenNames x; first
      | (have hx : memOk x := ?_; clear_value x; rename' x => y; on_goal 2 => (dsimp -zeta only [x] <;> clear x))
      | (clear_value x; rename' x => y)
      | (rename' x => y))
    | with_reducible apply ok_objWriteAt
    | with_reducible refine memOk_of_mems (mems_startCmd ..) ?_
    | with_reducible refine memOk_of_mems (mems_finish0 ..) ?_
    | with_reducible refine memOk_of_mems (mems_finish ..) ?_
    | split
    | dsimp -zeta only)

theorem ok_doRedPostThen (g t : Nat) (s : State) (hok : memOk s) :
    memOk (doRedPostThen g t s) := by
  unfold doRedPostThen
  repeat' (first
    | with_reducible assumption
    | (extract_lets +onlyGivenNames x; first
      | (have hx : memOk x := ?_; clear_value x; rename' x => y; on_goal 2 => (dsimp -zeta only [x] <;> clear x))
      | (clear_value x; rename' x => y)
      | (rename' x => y))
    | with_reducible apply ok_redAfter
    | with_reducible apply ok_doRedPost
    | (intro _ _ _ _)
    | (intro _ _ _)
    | (intro _ _)
    | split
    | dsimp -zeta only)

theorem ok_doRedWaitThen (g t : Nat) (s : State) (hok : memOk s) :
    memOk (doRedWaitThen g t s) := by
  unfold doRedWaitThen
  repeat' (first
    | with_reducible assumption
    | (extract_lets +onlyGivenNames x; first
      | (have hx : memOk x := ?_; clear_value x; rename' x => y; on_goal 2 => (dsimp -zeta only [x] <;> clear x))
      | (clear_value x; rename' x => y)
      | (rename' x => y))
    | with_reducible apply ok_redAfter
    | with_reducible refine memOk_of_mems (mems_doRedWait ..) ?_
    | (intro _ _ _ _)
    | (intro _ _ _)
    | (intro _ _)
    | split
    | dsimp -zeta only)

theorem ok_doRedFlitThen (f : Flit) (s : State) (hok : memOk s) :
    memOk (doRedFlitThen f s) := by
  unfold doRedFlitThen
  repeat' (first
    | with_reducible assumption
    | (extract_lets +onlyGivenNames x; first
      | (have hx : memOk x := ?_; clear_value x; rename' x => y; on_goal 2 => (dsimp -zeta only [x] <;> clear x))
      | (clear_value x; rename' x => y)
      | (rename' x => y))
    | with_reducible apply ok_redAfter
    | with_reducible apply ok_doReductionFlitArrive
    | (intro _ _ _ _)
    | (intro _ _ _)
    | (intro _ _)
    | split
    | dsimp -zeta only)

theorem ok_linksChanged (s : State) (hok : memOk s) :
    memOk (linksChanged s) := by
  unfold linksChanged
  repeat' (first
    | with_reducible assumption
    | (extract_lets +onlyGivenNames x; first
      | (have hx : memOk x := ?_; clear_value x; rename' x => y; on_goal 2 => (dsimp -zeta only [x] <;> clear x))
      | (clear_value x; rename' x => y)
      | (rename' x => y))
    | with_reducible apply ok_redAfter
    | with_reducible apply ok_failUnreachable
    | (intro _ _ _ _)
    | (intro _ _ _)
    | (intro _ _)
    | split
    | dsimp -zeta only)

theorem ok_hopFail (f : Flit) (s : State) (hok : memOk s) :
    memOk (hopFail f s) := by
  unfold hopFail
  repeat' (first
    | with_reducible assumption
    | (extract_lets +onlyGivenNames x; first
      | (have hx : memOk x := ?_; clear_value x; rename' x => y; on_goal 2 => (dsimp -zeta only [x] <;> clear x))
      | (clear_value x; rename' x => y)
      | (rename' x => y))
    | with_reducible refine memOk_of_mems (mems_failInst ..) ?_
    | with_reducible apply ok_winFail
    | (intro _ _ _ _)
    | (intro _ _ _)
    | (intro _ _)
    | split
    | dsimp -zeta only)

theorem ok_doFlitReceive (p : Nat) (f : Flit) (s : State) (hok : memOk s) :
    memOk (doFlitReceive p f s) := by
  unfold doFlitReceive
  repeat' (first
    | with_reducible assumption
    | (extract_lets +onlyGivenNames x; first
      | (have hx : memOk x := ?_; clear_value x; rename' x => y; on_goal 2 => (dsimp -zeta only [x] <;> clear x))
      | (clear_value x; rename' x => y)
      | (rename' x => y))
    | with_reducible refine memOk_of_mems (mems_flitIn ..) ?_
    | with_reducible apply ok_linksChanged
    | with_reducible apply ok_hopFail
    | (intro _ _ _ _)
    | (intro _ _ _)
    | (intro _ _)
    | split
    | dsimp -zeta only)

/-! ## Strata -/

theorem ok_writeEntry (ctx : Nat) (e : StrataEnt) (waited : Bool) (s : State) (hok : memOk s) :
    memOk (writeEntry ctx e waited s) := by
  unfold writeEntry
  repeat' (first
    | with_reducible assumption
    | (extract_lets +onlyGivenNames x; first
      | (have hx : memOk x := ?_; clear_value x; rename' x => y; on_goal 2 => (dsimp -zeta only [x] <;> clear x))
      | (clear_value x; rename' x => y)
      | (rename' x => y))
    | with_reducible apply ok_objWriteAt
    | with_reducible refine memOk_of_mems (mems_postRec ..) ?_
    | with_reducible refine memOk_of_mems (mems_updCtx ..) ?_
    | split
    | dsimp -zeta only)

theorem ok_flushEntries (ctx : Nat) (b : W64) (s : State) (hok : memOk s) :
    memOk (flushEntries ctx b s) := by
  unfold flushEntries
  repeat' (first
    | with_reducible assumption
    | (extract_lets +onlyGivenNames x; first
      | (have hx : memOk x := ?_; clear_value x; rename' x => y; on_goal 2 => (dsimp -zeta only [x] <;> clear x))
      | (clear_value x; rename' x => y)
      | (rename' x => y))
    | with_reducible apply ok_writeEntry
    | with_reducible refine memOk_of_mems (mems_updCtx ..) ?_
    | with_reducible apply ok_foldl
    | with_reducible apply ok_fold2
    | (intro _ _ _ _)
    | (intro _ _ _)
    | (intro _ _)
    | split
    | dsimp -zeta only)

theorem ok_resumeLease (ctx : Nat) (s : State) (hok : memOk s) :
    memOk (resumeLease ctx s) := by
  unfold resumeLease
  repeat' (first
    | with_reducible assumption
    | (extract_lets +onlyGivenNames x; first
      | (have hx : memOk x := ?_; clear_value x; rename' x => y; on_goal 2 => (dsimp -zeta only [x] <;> clear x))
      | (clear_value x; rename' x => y)
      | (rename' x => y))
    | with_reducible refine memOk_of_mems (mems_resendUnits ..) ?_
    | with_reducible apply ok_resumeChunks
    | (intro _ _ _ _)
    | (intro _ _ _)
    | (intro _ _)
    | split
    | dsimp -zeta only)

theorem ok_stepBoundary (ctx : Nat) (st : W16) (s : State) (hok : memOk s) :
    memOk (stepBoundary ctx st s) := by
  unfold stepBoundary
  repeat' (first
    | with_reducible assumption
    | (extract_lets +onlyGivenNames x; first
      | (have hx : memOk x := ?_; clear_value x; rename' x => y; on_goal 2 => (dsimp -zeta only [x] <;> clear x))
      | (clear_value x; rename' x => y)
      | (rename' x => y))
    | with_reducible refine memOk_of_mems (mems_updateBank ..) ?_
    | with_reducible refine memOk_of_mems (mems_rerunDiff ..) ?_
    | with_reducible apply ok_flushEntries
    | with_reducible apply ok_writeEntry
    | with_reducible refine memOk_of_mems (mems_sendDigest ..) ?_
    | with_reducible refine memOk_of_mems (mems_takePoint ..) ?_
    | with_reducible refine memOk_of_mems (mems_sendRisk ..) ?_
    | with_reducible refine memOk_of_mems (mems_endReplay ..) ?_
    | with_reducible refine memOk_of_mems (mems_updCtx ..) ?_
    | (intro _ _ _ _)
    | (intro _ _ _)
    | (intro _ _)
    | split
    | dsimp -zeta only)

/-! ## Schedule -/

theorem ok_scrubUnits (p base size : Nat) (s : State) (h : memOk s) : memOk (scrubUnits p base size s) := by
  obtain ⟨h1, h2, h3, h4, h5, h6, h7, h8⟩ := h
  refine ⟨h1, h2, h3, h4, h5, h6, h7, wf_lsOf_map _ _ ?_ h8⟩
  intro e
  dsimp only
  split
  · exact ⟨rfl, fun hx => wf_memClear _ _ _ hx⟩
  · exact ⟨rfl, id⟩

theorem ok_moveUnits (p base n dest : Nat) (s : State) (h : memOk s) : memOk (moveUnits p base n dest s) := by
  unfold moveUnits
  split
  · exact h
  · obtain ⟨h1, h2, h3, h4, h5, h6, h7, h8⟩ := h
    refine ⟨h1, h2, h3, h4, h5, h6, h7, wf_lsOf_map _ _ ?_ h8⟩
    intro e
    dsimp only
    split
    · refine ⟨rfl, fun hx => ?_⟩
      exact wf_foldl _ (fun m b hm => wf_memSet _ _ m hm) _ _ (wf_memClear _ _ _ (wf_memClear _ _ _ hx))
    · exact ⟨rfl, id⟩

theorem ok_relocate (p : Nat) (s : State) (hok : memOk s) :
    memOk (relocate p s) := by
  unfold relocate
  repeat' (first
    | with_reducible assumption
    | (extract_lets +onlyGivenNames x; first
      | (have hx : memOk x := ?_; clear_value x; rename' x => y; on_goal 2 => (dsimp -zeta only [x] <;> clear x))
      | (clear_value x; rename' x => y)
      | (rename' x => y))
    | with_reducible apply ok_moveUnits
    | with_reducible refine memOk_of_mems (mems_setPart ..) ?_
    | with_reducible apply ok_foldl
    | with_reducible apply ok_fold2
    | (intro _ _ _ _)
    | (intro _ _ _)
    | (intro _ _)
    | split
    | dsimp -zeta only)

theorem ok_grantResidency (p : Nat) (s : State) (hok : memOk s) :
    memOk (grantResidency p s) := by
  unfold grantResidency
  repeat' (first
    | with_reducible assumption
    | (extract_lets +onlyGivenNames x; first
      | (have hx : memOk x := ?_; clear_value x; rename' x => y; on_goal 2 => (dsimp -zeta only [x] <;> clear x))
      | (clear_value x; rename' x => y)
      | (rename' x => y))
    | with_reducible apply ok_relocate
    | with_reducible refine memOk_of_mems (mems_updPed2 ..) ?_
    | split
    | dsimp -zeta only)

theorem ok_dropResidency (ctx p : Nat) (s : State) (hok : memOk s) :
    memOk (dropResidency ctx p s) := by
  unfold dropResidency
  repeat' (first | with_reducible assumption | with_reducible apply ok_scrubUnits | with_reducible refine memOk_of_mems (mems_updPed2 ..) ?_ | split)

theorem ok_freeAreas (ctx : Nat) (s : State) (hok : memOk s) :
    memOk (freeAreas ctx s) := by
  unfold freeAreas
  repeat' (first
    | with_reducible assumption
    | (extract_lets +onlyGivenNames x; first
      | (have hx : memOk x := ?_; clear_value x; rename' x => y; on_goal 2 => (dsimp -zeta only [x] <;> clear x))
      | (clear_value x; rename' x => y)
      | (rename' x => y))
    | with_reducible apply ok_freeFrame
    | with_reducible apply ok_foldl
    | with_reducible apply ok_fold2
    | (intro _ _ _ _)
    | (intro _ _ _)
    | (intro _ _)
    | split
    | dsimp -zeta only)

theorem ok_stopPiece (p : Nat) (s : State) (hok : memOk s) :
    memOk (stopPiece p s) := by
  unfold stopPiece
  repeat' (first
    | with_reducible assumption
    | (extract_lets +onlyGivenNames x; first
      | (have hx : memOk x := ?_; clear_value x; rename' x => y; on_goal 2 => (dsimp -zeta only [x] <;> clear x))
      | (clear_value x; rename' x => y)
      | (rename' x => y))
    | with_reducible apply ok_scrubUnits
    | with_reducible refine memOk_of_mems (mems_updPed2 ..) ?_
    | with_reducible apply ok_foldl
    | with_reducible apply ok_fold2
    | (intro _ _ _ _)
    | (intro _ _ _)
    | (intro _ _)
    | split
    | dsimp -zeta only)

theorem ok_leasePed2 (ctx rsize p : Nat) (s : State) (hok : memOk s) :
    memOk (leasePed2 ctx rsize p s) := by
  unfold leasePed2
  repeat' (first
    | with_reducible assumption
    | (extract_lets +onlyGivenNames x; first
      | (have hx : memOk x := ?_; clear_value x; rename' x => y; on_goal 2 => (dsimp -zeta only [x] <;> clear x))
      | (clear_value x; rename' x => y)
      | (rename' x => y))
    | with_reducible apply ok_stopPiece
    | with_reducible apply ok_grantResidency
    | with_reducible refine memOk_of_mems (mems_handover ..) ?_
    | with_reducible refine memOk_of_mems (mems_updPed2 ..) ?_
    | with_reducible refine memOk_of_mems (mems_setPart ..) ?_
    | with_reducible refine memOk_of_mems (mems_settleDie ..) ?_
    | with_reducible apply ok_foldl
    | with_reducible apply ok_fold2
    | (intro _ _ _ _)
    | (intro _ _ _)
    | (intro _ _)
    | split
    | dsimp -zeta only)

theorem ok_leaseAll (c : Ctx) (d : SegD) (s : State) (hok : memOk s) : memOk (leaseAll c d s) := by
  unfold leaseAll
  extract_lets s1 held areas
  have h1 : memOk s1 := memOk_of_mems (mems_updCtx ..) hok
  have h2 : ∀ t, areas = some t → memOk t := by
    intro t ht
    dsimp -zeta only [areas] at ht
    split at ht
    · exact memOk_of_mems (mems_reserveAreas ht) h1
    · cases ht; exact h1
  clear_value s1 held areas
  split
  · exact memOk_of_mems (mems_endRun ..) h1
  · rename_i t
    have ht := h2 t rfl
    apply ok_resumeLease
    refine memOk_of_mems (mems_updCtx ..) ?_
    exact ok_foldl _ _ _ ht (fun s _ hs => ok_leasePed2 _ _ _ _ hs)

theorem ok_decideEach (l : List Nat) (b : Bool) (s : State) (h : memOk s) : memOk (decideEach l b s) := by
  induction l generalizing b s with
  | nil => exact h
  | cons w l ih =>
    unfold decideEach
    split
    · exact ih _ _ h
    · split
      · exact ih _ _ h
      · dsimp only
        split
        · exact ih _ _ (ok_leaseAll _ _ _ h)
        · split
          · exact ih _ _ h
          · refine ih _ _ (ok_foldl _ _ _ h ?_)
            intro s a hs
            split
            · exact memOk_of_mems (mems_updPed2 ..) hs
            · exact hs

theorem ok_claimPed2 (p : Nat) (s : State) (hok : memOk s) :
    memOk (claimPed2 p s) := by
  unfold claimPed2
  repeat' (first
    | with_reducible assumption
    | (extract_lets +onlyGivenNames x; first
      | (have hx : memOk x := ?_; clear_value x; rename' x => y; on_goal 2 => (dsimp -zeta only [x] <;> clear x))
      | (clear_value x; rename' x => y)
      | (rename' x => y))
    | with_reducible apply ok_stopPiece
    | with_reducible refine memOk_of_mems (mems_handover ..) ?_
    | with_reducible refine memOk_of_mems (mems_settleDie ..) ?_
    | with_reducible refine memOk_of_mems (mems_updPed2 ..) ?_
    | with_reducible apply ok_foldl
    | with_reducible apply ok_fold2
    | (intro _ _ _ _)
    | (intro _ _ _)
    | (intro _ _)
    | split
    | dsimp -zeta only)

theorem ok_claimTests (s : State) (hok : memOk s) :
    memOk (claimTests s) := by
  unfold claimTests
  repeat' (first
    | with_reducible assumption
    | (extract_lets +onlyGivenNames x; first
      | (have hx : memOk x := ?_; clear_value x; rename' x => y; on_goal 2 => (dsimp -zeta only [x] <;> clear x))
      | (clear_value x; rename' x => y)
      | (rename' x => y))
    | with_reducible apply ok_claimPed2
    | with_reducible apply ok_foldl
    | with_reducible apply ok_fold2
    | (intro _ _ _ _)
    | (intro _ _ _)
    | (intro _ _)
    | split
    | dsimp -zeta only)

theorem ok_decideLeases (s : State) (hok : memOk s) :
    memOk (decideLeases s) := by
  unfold decideLeases
  repeat' (first
    | with_reducible assumption
    | (extract_lets +onlyGivenNames x; first
      | (have hx : memOk x := ?_; clear_value x; rename' x => y; on_goal 2 => (dsimp -zeta only [x] <;> clear x))
      | (clear_value x; rename' x => y)
      | (rename' x => y))
    | with_reducible refine memOk_of_mems (mems_takeShares ..) ?_
    | with_reducible refine memOk_of_mems (mems_earn ..) ?_
    | with_reducible apply ok_claimTests
    | with_reducible refine memOk_of_mems (mems_dropReserved ..) ?_
    | with_reducible refine memOk_of_mems (mems_cleanRun ..) ?_
    | with_reducible apply ok_decideEach
    | with_reducible apply ok_foldl
    | with_reducible apply ok_fold2
    | (intro _ _ _ _)
    | (intro _ _ _)
    | (intro _ _)
    | split
    | dsimp -zeta only)

/-! ## Segments -/

theorem ok_dropXfers (ctx : Nat) (s : State) (hok : memOk s) :
    memOk (dropXfers ctx s) := by
  unfold dropXfers
  repeat' (first
    | with_reducible assumption
    | (extract_lets +onlyGivenNames x; first
      | (have hx : memOk x := ?_; clear_value x; rename' x => y; on_goal 2 => (dsimp -zeta only [x] <;> clear x))
      | (clear_value x; rename' x => y)
      | (rename' x => y))
    | with_reducible apply ok_freeFrame
    | with_reducible refine memOk_of_mems (mems_dropCopy ..) ?_
    | with_reducible refine memOk_of_mems (mems_updSeg ..) ?_
    | with_reducible apply ok_foldl
    | with_reducible apply ok_fold2
    | (intro _ _ _ _)
    | (intro _ _ _)
    | (intro _ _)
    | split
    | dsimp -zeta only)

theorem ok_clearWork (ctx : Nat) (s : State) (h : memOk s) : memOk (clearWork ctx s) := by
  unfold clearWork
  refine memOk_of_mems ?_ h
  unfold State.mems
  refine congrArg (Prod.mk _) (congrArg (Prod.mk _) (lsOf_map _ _ ?_))
  intro e
  refine ⟨rfl, ?_⟩
  dsimp only
  repeat' (first | rfl | split)

theorem ok_clearGrains (ctx : Nat) (s : State) (h : memOk s) : memOk (clearGrains ctx s) := by
  have h1 : memOk ((segGrains s ctx).foldl (fun s e => flushSamples e.1 s) (dropXfers ctx s)) :=
    ok_foldl _ _ _ (ok_dropXfers _ _ h) (fun s e hs => ok_flushSamples _ _ hs)
  unfold clearGrains
  exact ok_foldl _ _ _ (ok_clearWork _ _ h1) (fun s t hs => ok_settlePool _ _ hs)

theorem ok_boundaryWork (ctx : Nat) (s : State) (hok : memOk s) :
    memOk (boundaryWork ctx s) := by
  unfold boundaryWork
  repeat' (first
    | with_reducible assumption
    | (extract_lets +onlyGivenNames x; first
      | (have hx : memOk x := ?_; clear_value x; rename' x => y; on_goal 2 => (dsimp -zeta only [x] <;> clear x))
      | (clear_value x; rename' x => y)
      | (rename' x => y))
    | with_reducible apply ok_admitHot
    | with_reducible apply ok_mergeSwitch
    | with_reducible apply ok_retireFrames
    | with_reducible apply ok_settlePromos
    | with_reducible apply ok_switchMoves
    | (intro _ _ _ _)
    | (intro _ _ _)
    | (intro _ _)
    | split
    | dsimp -zeta only)

theorem ok_endSegment (r : RunSeg) (s : State) (hok : memOk s) :
    memOk (endSegment r s) := by
  unfold endSegment
  repeat' (first
    | with_reducible assumption
    | (extract_lets +onlyGivenNames x; first
      | (have hx : memOk x := ?_; clear_value x; rename' x => y; on_goal 2 => (dsimp -zeta only [x] <;> clear x))
      | (clear_value x; rename' x => y)
      | (rename' x => y))
    | with_reducible apply ok_writeBackAll
    | with_reducible refine memOk_of_mems (mems_checkRegrow ..) ?_
    | with_reducible refine memOk_of_mems (mems_releaseShared ..) ?_
    | with_reducible refine memOk_of_mems (mems_dropClods ..) ?_
    | with_reducible apply ok_clearGrains
    | with_reducible refine memOk_of_mems (mems_updCtx ..) ?_
    | with_reducible refine memOk_of_mems (mems_segStatus ..) ?_
    | with_reducible apply ok_stepBoundary
    | with_reducible refine memOk_of_mems (mems_sieveStepEnd ..) ?_
    | with_reducible refine memOk_of_mems (mems_charge ..) ?_
    | with_reducible apply ok_boundaryWork
    | with_reducible refine memOk_of_mems (mems_fwBoundary ..) ?_
    | with_reducible refine memOk_of_mems (mems_takeBallast ..) ?_
    | with_reducible refine memOk_of_mems (mems_takeBoundary ..) ?_
    | with_reducible refine memOk_of_mems (mems_holdBoundary ..) ?_
    | with_reducible refine memOk_of_mems (mems_afterSegment ..) ?_
    | (intro _ _ _ _)
    | (intro _ _ _)
    | (intro _ _)
    | split
    | dsimp -zeta only)

theorem ok_doSegmentStart (ctx : Nat) (s : State) (hok : memOk s) :
    memOk (doSegmentStart ctx s) := by
  unfold doSegmentStart
  repeat' (first
    | with_reducible assumption
    | (extract_lets +onlyGivenNames x; first
      | (have hx : memOk x := ?_; clear_value x; rename' x => y; on_goal 2 => (dsimp -zeta only [x] <;> clear x))
      | (clear_value x; rename' x => y)
      | (rename' x => y))
    | with_reducible apply ok_decideLeases
    | with_reducible refine memOk_of_mems (mems_settleLease ..) ?_
    | with_reducible refine memOk_of_mems (mems_endRun ..) ?_
    | with_reducible refine memOk_of_mems (mems_earn ..) ?_
    | with_reducible refine memOk_of_mems (mems_askFirst ..) ?_
    | with_reducible refine memOk_of_mems (mems_startSegment ..) ?_
    | with_reducible refine memOk_of_mems (mems_endHold ..) ?_
    | (intro _ _ _ _)
    | (intro _ _ _)
    | (intro _ _)
    | split
    | dsimp -zeta only)

theorem ok_doSegmentEnd (ctx : Nat) (s : State) (hok : memOk s) :
    memOk (doSegmentEnd ctx s) := by
  unfold doSegmentEnd
  repeat' (first
    | with_reducible assumption
    | (extract_lets +onlyGivenNames x; first
      | (have hx : memOk x := ?_; clear_value x; rename' x => y; on_goal 2 => (dsimp -zeta only [x] <;> clear x))
      | (clear_value x; rename' x => y)
      | (rename' x => y))
    | with_reducible apply ok_decideLeases
    | with_reducible refine memOk_of_mems (mems_settleLease ..) ?_
    | with_reducible refine memOk_of_mems (mems_takeShares ..) ?_
    | with_reducible refine memOk_of_mems (mems_settleFences ..) ?_
    | with_reducible apply ok_endSegment
    | with_reducible refine memOk_of_mems (mems_earn ..) ?_
    | (intro _ _ _ _)
    | (intro _ _ _)
    | (intro _ _)
    | split
    | dsimp -zeta only)

theorem ok_doDeepSaveDone (ctx p : Nat) (s : State) (hok : memOk s) :
    memOk (doDeepSaveDone ctx p s) := by
  unfold doDeepSaveDone
  repeat' (first | with_reducible assumption | with_reducible apply ok_grantResidency | with_reducible apply ok_dropResidency | split)

theorem ok_doDeepRestoreDone (ctx p : Nat) (s : State) (h : memOk s) : memOk (doDeepRestoreDone ctx p s) := by
  unfold doDeepRestoreDone
  split
  · exact h
  · split
    · refine memOk_of_mems (mems_updPed2 ..) (memOk_of_mems (mems_foldl _ ?_ _ _) ?_)
      · intro s e
        exact mems_updPhys _ _ _ (by intro _; rfl)
      · refine ok_foldl _ _ _ h (fun s e hs => ok_updPhys _ _ _ hs (fun x hx => ?_))
        exact wf_foldl _ (fun m b hm => wf_memSet _ _ m hm) _ _ hx
    · exact h

theorem ok_xferValid (ctx idx : Nat) (e : XferEnt) (s : State) (hok : memOk s) :
    memOk (xferValid ctx idx e s) := by
  unfold xferValid
  repeat' (first
    | with_reducible assumption
    | (extract_lets +onlyGivenNames x; first
      | (have hx : memOk x := ?_; clear_value x; rename' x => y; on_goal 2 => (dsimp -zeta only [x] <;> clear x))
      | (clear_value x; rename' x => y)
      | (rename' x => y))
    | with_reducible apply ok_freeFrame
    | with_reducible refine memOk_of_mems (mems_updHz _ _ (by rfl)) ?_
    | with_reducible refine memOk_of_mems (mems_validatePromo ..) ?_
    | with_reducible apply ok_copyNow
    | with_reducible refine memOk_of_mems (mems_copyReach ..) ?_
    | with_reducible refine memOk_of_mems (mems_setXfer ..) ?_
    | with_reducible apply ok_foldl
    | with_reducible apply ok_fold2
    | (intro _ _ _ _)
    | (intro _ _ _)
    | (intro _ _)
    | split
    | dsimp -zeta only)

theorem ok_doHubTransferComplete (ctx idx : Nat) (s : State) (hok : memOk s) :
    memOk (doHubTransferComplete ctx idx s) := by
  unfold doHubTransferComplete
  repeat' (first
    | with_reducible assumption
    | (extract_lets +onlyGivenNames x; first
      | (have hx : memOk x := ?_; clear_value x; rename' x => y; on_goal 2 => (dsimp -zeta only [x] <;> clear x))
      | (have hx : memOk x.2 := ?_; clear_value x; rename' x => y; on_goal 2 => (dsimp -zeta only [x] <;> clear x))
      | (have hx : memOk x.2.2 := ?_; clear_value x; rename' x => y; on_goal 2 => (dsimp -zeta only [x] <;> clear x))
      | (have hx : ∀ s, memOk s → memOk (x s) := ?_; clear_value x; rename' x => y; on_goal 2 => (intro s hs; dsimp -zeta only [x] <;> clear x))
      | (have hx : ∀ a s, memOk s → memOk (x a s) := ?_; clear_value x; rename' x => y; on_goal 2 => (intro a s hs; dsimp -zeta only [x] <;> clear x))
      | (clear_value x; rename' x => y)
      | (rename' x => y))
    | with_reducible refine memOk_of_mems (mems_setXfer ..) ?_
    | with_reducible refine memOk_of_mems (mems_semAdd ..) ?_
    | with_reducible apply ok_xferValid
    | with_reducible refine memOk_of_mems (mems_xferCopies ..) ?_
    | (intro _ _ _ _)
    | (intro _ _ _)
    | (intro _ _)
    | split
    | dsimp -zeta only
    | (apply_assumption -symm -exfalso (transparency := .reducible))
    | exact memOk_of_mems (s := s) rfl (by assumption)
    | exact memOk_of_mems rfl (by assumption))

/-! ## Contexts -/

theorem ok_dropSieves (ctx : Nat) (s : State) (hok : memOk s) :
    memOk (dropSieves ctx s) := by
  unfold dropSieves
  repeat' (first
    | with_reducible assumption
    | (extract_lets +onlyGivenNames x; first
      | (have hx : memOk x := ?_; clear_value x; rename' x => y; on_goal 2 => (dsimp -zeta only [x] <;> clear x))
      | (clear_value x; rename' x => y)
      | (rename' x => y))
    | with_reducible apply ok_dropTable
    | with_reducible apply ok_foldl
    | with_reducible apply ok_fold2
    | (intro _ _ _ _)
    | (intro _ _ _)
    | (intro _ _)
    | split
    | dsimp -zeta only)

theorem ok_dropResidencies (ctx : Nat) (s : State) (hok : memOk s) :
    memOk (dropResidencies ctx s) := by
  unfold dropResidencies
  repeat' (first
    | with_reducible assumption
    | (extract_lets +onlyGivenNames x; first
      | (have hx : memOk x := ?_; clear_value x; rename' x => y; on_goal 2 => (dsimp -zeta only [x] <;> clear x))
      | (clear_value x; rename' x => y)
      | (rename' x => y))
    | with_reducible apply ok_grantResidency
    | with_reducible apply ok_dropResidency
    | with_reducible apply ok_freeAreas
    | with_reducible refine memOk_of_mems (mems_releasePed2 ..) ?_
    | with_reducible refine memOk_of_mems (mems_updPed2 ..) ?_
    | with_reducible apply ok_foldl
    | with_reducible apply ok_fold2
    | (intro _ _ _ _)
    | (intro _ _ _)
    | (intro _ _)
    | split
    | dsimp -zeta only)

theorem ok_purgeCtx (ctx : Nat) (keep : Option Nat) (s : State) (h : memOk s) : memOk (purgeCtx ctx keep s) := by
  unfold purgeCtx
  extract_lets s1 s2 tags s3 s4 clean z s5 s6 s7 s8 s9 s10 s11 owner s12
  have h1 : memOk s1 := by with_reducible exact ok_dropXfers _ _ (memOk_of_mems (mems_dropClods ..) h)
  have h2 : memOk s2 := by with_reducible exact memOk_of_mems (mems_closeWindows ..) h1
  have h3 : memOk s3 := by clear_value s2; with_reducible exact memOk_of_mems (mems_freeOwed ..) h2
  have h4 : memOk s4 := by clear_value s3; with_reducible exact memOk_of_mems (mems_updFab ..) h3
  have h5 : memOk s5 := by
    refine memOk_of_mems ?_ h4
    clear_value s4
    unfold State.mems
    refine congrArg (Prod.mk _) (congrArg (Prod.mk _) (lsOf_map _ _ ?_))
    intro e
    exact ⟨rfl, rfl⟩
  have h6 : memOk s6 := by clear_value s5; with_reducible exact memOk_of_mems (mems_settleApers ..) h5
  have h7 : memOk s7 := by clear_value s6; with_reducible exact h6
  have h8 : memOk s8 := by clear_value s7; with_reducible exact ok_dropSieves _ _ h7
  have h9 : memOk s9 := by clear_value s8; exact ok_foldl _ _ _ h8 (fun s o hs => ok_dropObj _ _ hs)
  have h10 : memOk s10 := by clear_value s9; with_reducible exact ok_dropResidencies _ _ h9
  have h11 : memOk s11 := by clear_value s10; exact ok_foldl _ _ _ h10 (fun s o hs => ok_freeFrame _ _ _ hs)
  have h12 : memOk s12 := by clear_value s11; with_reducible exact memOk_of_mems (mems_updFn ..) h11
  clear_value s12
  with_reducible exact h12

theorem ok_doCtxDestroy (cid : Nat) (s : State) (hok : memOk s) :
    memOk (doCtxDestroy cid s) := by
  unfold doCtxDestroy
  repeat' (first
    | with_reducible assumption
    | (extract_lets +onlyGivenNames x; first
      | (have hx : memOk x := ?_; clear_value x; rename' x => y; on_goal 2 => (dsimp -zeta only [x] <;> clear x))
      | (clear_value x; rename' x => y)
      | (rename' x => y))
    | with_reducible apply ok_purgeCtx
    | with_reducible refine memOk_of_mems (mems_startCmd ..) ?_
    | with_reducible refine memOk_of_mems (mems_finish0 ..) ?_
    | split
    | dsimp -zeta only)

theorem ok_killCtx (ctx : Nat) (keep : Option Nat) (s : State) (hok : memOk s) :
    memOk (killCtx ctx keep s) := by
  unfold killCtx
  repeat' (first
    | with_reducible assumption
    | (extract_lets +onlyGivenNames x; first
      | (have hx : memOk x := ?_; clear_value x; rename' x => y; on_goal 2 => (dsimp -zeta only [x] <;> clear x))
      | (clear_value x; rename' x => y)
      | (rename' x => y))
    | with_reducible refine memOk_of_mems (mems_updCtx ..) ?_
    | with_reducible refine memOk_of_mems (mems_stopSeg ..) ?_
    | with_reducible refine memOk_of_mems (mems_failInst ..) ?_
    | with_reducible apply ok_purgeCtx
    | with_reducible apply ok_decideLeases
    | with_reducible apply ok_foldl
    | with_reducible apply ok_fold2
    | (intro _ _ _ _)
    | (intro _ _ _)
    | (intro _ _)
    | split
    | dsimp -zeta only)

theorem ok_doCtxKill (cid : Nat) (s : State) (hok : memOk s) :
    memOk (doCtxKill cid s) := by
  unfold doCtxKill
  repeat' (first
    | with_reducible assumption
    | (extract_lets +onlyGivenNames x; first
      | (have hx : memOk x := ?_; clear_value x; rename' x => y; on_goal 2 => (dsimp -zeta only [x] <;> clear x))
      | (clear_value x; rename' x => y)
      | (rename' x => y))
    | with_reducible apply ok_killCtx
    | with_reducible refine memOk_of_mems (mems_startCmd ..) ?_
    | with_reducible refine memOk_of_mems (mems_finish0 ..) ?_
    | with_reducible refine memOk_of_mems (mems_finish ..) ?_
    | split
    | dsimp -zeta only)

/-! ## Plans -/

theorem ok_doSegRun (cid : Nat) (s : State) (hok : memOk s) :
    memOk (doSegRun cid s) := by
  unfold doSegRun
  repeat' (first
    | with_reducible assumption
    | (extract_lets +onlyGivenNames x; first
      | (have hx : memOk x := ?_; clear_value x; rename' x => y; on_goal 2 => (dsimp -zeta only [x] <;> clear x))
      | (clear_value x; rename' x => y)
      | (rename' x => y))
    | with_reducible apply ok_decideLeases
    | with_reducible refine memOk_of_mems (mems_startCmd ..) ?_
    | with_reducible refine memOk_of_mems (mems_finish0 ..) ?_
    | with_reducible refine memOk_of_mems (mems_finish ..) ?_
    | with_reducible refine memOk_of_mems (mems_runBad ..) ?_
    | with_reducible refine memOk_of_mems (mems_updCtx ..) ?_
    | with_reducible refine memOk_of_mems (mems_earn ..) ?_
    | split
    | dsimp -zeta only)

end Sys2Proof.Machine
end

