-- ==== Sys2Proof/Laws/FormBoard.lean ====
section
/-! SUPPORT. What stores keeps the canonical form of every memory: power, start-up, resilience, security, the host interface and registers. -/

namespace Sys2Proof.Machine

open Sys2Proof

set_option maxRecDepth 4096
set_option linter.all false

/-! ## Startup -/

theorem ok_diesOff (s : State) (h : memOk s) : memOk (diesOff s) := by
  obtain ⟨h1, h2, h3, h4, h5, h6, h7, h8⟩ := h
  exact ⟨rfl, rfl, fun _ => rfl, h4, h5, h6, h7, fun _ => rfl⟩

theorem ok_beginCold (s : State) (hok : memOk s) :
    memOk (beginCold s) := by
  unfold beginCold
  repeat' (first | with_reducible assumption | with_reducible apply ok_diesOff | split)

theorem ok_packageReset (s : State) (hok : memOk s) :
    memOk (packageReset s) := by
  unfold packageReset
  repeat' (first | with_reducible assumption | with_reducible apply ok_beginCold | split)

theorem ok_doPowerOn (s : State) (h : memOk s) : memOk (doPowerOn s) := by
  obtain ⟨h1, h2, h3, h4, h5, h6, h7, h8⟩ := h
  refine ⟨rfl, rfl, fun _ => rfl, h4, h5, ?_, ?_, fun _ => rfl⟩
  · show Memory.wf (doPowerOn s).flash.slotA = true
    unfold doPowerOn
    dsimp only
    split <;> exact h6
  · show Memory.wf (doPowerOn s).flash.slotB = true
    unfold doPowerOn
    dsimp only
    split <;> exact h7

theorem ok_doMainEnAssert (s : State) (hok : memOk s) :
    memOk (doMainEnAssert s) := by
  unfold doMainEnAssert
  repeat' (first | with_reducible assumption | with_reducible apply ok_beginCold | split)

theorem ok_doMainEnDeassert (s : State) (hok : memOk s) :
    memOk (doMainEnDeassert s) := by
  unfold doMainEnDeassert
  repeat' (first | with_reducible assumption | with_reducible apply ok_diesOff | split)

theorem ok_doColdStart (s : State) (hok : memOk s) :
    memOk (doColdStart s) := by
  unfold doColdStart
  repeat' (first | with_reducible assumption | with_reducible apply ok_packageReset | split)

theorem ok_doTrialBootTimeout (s : State) (hok : memOk s) :
    memOk (doTrialBootTimeout s) := by
  unfold doTrialBootTimeout
  repeat' (first | with_reducible assumption | with_reducible apply ok_packageReset | split)

theorem ok_doEnabledMapBuild (s : State) (h : memOk s) : memOk (doEnabledMapBuild s) := by
  unfold doEnabledMapBuild
  split
  · exact h
  · refine memOk_of_mems ((mems_endMap _).trans (mems_buildPed2s _)) ?_
    obtain ⟨h1, h2, h3, h4, h5, h6, h7, h8⟩ := h
    exact ⟨h1, h2, h3, h4, h5, h6, h7, fun _ => rfl⟩

/-! ## Resilience -/

theorem ok_dropOldLbas (ctx : Nat) (s : State) (hok : memOk s) :
    memOk (dropOldLbas ctx s) := by
  unfold dropOldLbas
  repeat' (first
    | with_reducible assumption
    | (extract_lets +onlyGivenNames x; first
      | (have hx : memOk x := ?_; clear_value x; rename' x => y; on_goal 2 => (dsimp -zeta only [x] <;> clear x))
      | (clear_value x; rename' x => y)
      | (rename' x => y))
    | with_reducible apply ok_freeDrive
    | with_reducible refine memOk_of_mems (mems_updSieve ..) ?_
    | with_reducible apply ok_foldl
    | with_reducible apply ok_fold2
    | (intro _ _ _ _)
    | (intro _ _ _)
    | (intro _ _)
    | split
    | dsimp -zeta only)

theorem ok_pointEnded (ctx : Nat) (b : W64) (s : State) (hok : memOk s) :
    memOk (pointEnded ctx b s) := by
  unfold pointEnded
  repeat' (first
    | with_reducible assumption
    | (extract_lets +onlyGivenNames x; first
      | (have hx : memOk x := ?_; clear_value x; rename' x => y; on_goal 2 => (dsimp -zeta only [x] <;> clear x))
      | (clear_value x; rename' x => y)
      | (rename' x => y))
    | with_reducible apply ok_flushEntries
    | with_reducible refine memOk_of_mems (mems_startPoint ..) ?_
    | (intro _ _ _ _)
    | (intro _ _ _)
    | (intro _ _)
    | split
    | dsimp -zeta only)

theorem ok_doSecurePointComplete (ctx : Nat) (s : State) (hok : memOk s) :
    memOk (doSecurePointComplete ctx s) := by
  unfold doSecurePointComplete
  repeat' (first
    | with_reducible assumption
    | (extract_lets +onlyGivenNames x; first
      | (have hx : memOk x := ?_; clear_value x; rename' x => y; on_goal 2 => (dsimp -zeta only [x] <;> clear x))
      | (clear_value x; rename' x => y)
      | (rename' x => y))
    | with_reducible refine memOk_of_mems (mems_updCtx ..) ?_
    | with_reducible apply ok_dropOldLbas
    | with_reducible apply ok_pointEnded
    | with_reducible refine memOk_of_mems (mems_finish ..) ?_
    | with_reducible apply ok_foldl
    | with_reducible apply ok_fold2
    | (intro _ _ _ _)
    | (intro _ _ _)
    | (intro _ _)
    | split
    | dsimp -zeta only)

theorem ok_doSecurePointFail (ctx : Nat) (why : SecureFail) (s : State) (hok : memOk s) :
    memOk (doSecurePointFail ctx why s) := by
  unfold doSecurePointFail
  repeat' (first
    | with_reducible assumption
    | (extract_lets +onlyGivenNames x; first
      | (have hx : memOk x := ?_; clear_value x; rename' x => y; on_goal 2 => (dsimp -zeta only [x] <;> clear x))
      | (clear_value x; rename' x => y)
      | (rename' x => y))
    | with_reducible refine memOk_of_mems (mems_postRec ..) ?_
    | with_reducible apply ok_pointEnded
    | with_reducible refine memOk_of_mems (mems_failNow ..) ?_
    | with_reducible refine memOk_of_mems (mems_updCtx ..) ?_
    | (intro _ _ _ _)
    | (intro _ _ _)
    | (intro _ _)
    | split
    | dsimp -zeta only)

theorem ok_restoreObj (h : W32) (m : Mem) (s : State) (hok : memOk s) :
    memOk (restoreObj h m s) := by
  unfold restoreObj
  repeat' (first | with_reducible assumption | with_reducible apply ok_objWriteAt | split)

theorem ok_emptySieves (ctx : Nat) (s : State) (hok : memOk s) :
    memOk (emptySieves ctx s) := by
  unfold emptySieves
  repeat' (first
    | with_reducible assumption
    | (extract_lets +onlyGivenNames x; first
      | (have hx : memOk x := ?_; clear_value x; rename' x => y; on_goal 2 => (dsimp -zeta only [x] <;> clear x))
      | (clear_value x; rename' x => y)
      | (rename' x => y))
    | with_reducible apply ok_poolEmpty
    | with_reducible apply ok_foldl
    | with_reducible apply ok_fold2
    | (intro _ _ _ _)
    | (intro _ _ _)
    | (intro _ _)
    | split
    | dsimp -zeta only)

theorem ok_restore (ctx : Nat) (c : Ctx) (step : W64) (g : SecGen) (s : State) (hok : memOk s) :
    memOk (restore ctx c step g s) := by
  unfold restore
  repeat' (first
    | with_reducible assumption
    | (extract_lets +onlyGivenNames x; first
      | (have hx : memOk x := ?_; clear_value x; rename' x => y; on_goal 2 => (dsimp -zeta only [x] <;> clear x))
      | (clear_value x; rename' x => y)
      | (rename' x => y))
    | with_reducible apply ok_restoreObj
    | with_reducible refine memOk_of_mems (mems_updFab ..) ?_
    | with_reducible apply ok_emptySieves
    | with_reducible refine memOk_of_mems (mems_failNow ..) ?_
    | with_reducible refine memOk_of_mems (mems_updCtx ..) ?_
    | with_reducible apply ok_foldl
    | with_reducible apply ok_fold2
    | (intro _ _ _ _)
    | (intro _ _ _)
    | (intro _ _)
    | split
    | dsimp -zeta only)

theorem ok_doRollback (cid : Nat) (serves : List (Nat × Bool)) (s : State) (hok : memOk s) :
    memOk (doRollback cid serves s) := by
  unfold doRollback
  repeat' (first
    | with_reducible assumption
    | (extract_lets +onlyGivenNames x; first
      | (have hx : memOk x := ?_; clear_value x; rename' x => y; on_goal 2 => (dsimp -zeta only [x] <;> clear x))
      | (clear_value x; rename' x => y)
      | (rename' x => y))
    | with_reducible apply ok_restore
    | with_reducible refine memOk_of_mems (mems_startCmd ..) ?_
    | with_reducible refine memOk_of_mems (mems_finish0 ..) ?_
    | with_reducible refine memOk_of_mems (mems_finish ..) ?_
    | split
    | dsimp -zeta only)

theorem ok_doStrataRead (cid : Nat) (s : State) (hok : memOk s) :
    memOk (doStrataRead cid s) := by
  unfold doStrataRead
  repeat' (first
    | with_reducible assumption
    | (extract_lets +onlyGivenNames x; first
      | (have hx : memOk x := ?_; clear_value x; rename' x => y; on_goal 2 => (dsimp -zeta only [x] <;> clear x))
      | (clear_value x; rename' x => y)
      | (rename' x => y))
    | with_reducible apply ok_objWriteAt
    | with_reducible refine memOk_of_mems (mems_startCmd ..) ?_
    | with_reducible refine memOk_of_mems (mems_finish0 ..) ?_
    | with_reducible refine memOk_of_mems (mems_finish ..) ?_
    | split
    | dsimp -zeta only)

/-! ## SelfTest -/

theorem ok_doSelfTest (cid : Nat) (s : State) (hok : memOk s) :
    memOk (doSelfTest cid s) := by
  unfold doSelfTest
  repeat' (first
    | with_reducible assumption
    | (extract_lets +onlyGivenNames x; first
      | (have hx : memOk x := ?_; clear_value x; rename' x => y; on_goal 2 => (dsimp -zeta only [x] <;> clear x))
      | (clear_value x; rename' x => y)
      | (rename' x => y))
    | with_reducible apply ok_stopPiece
    | with_reducible apply ok_claimTests
    | with_reducible refine memOk_of_mems (mems_startCmd ..) ?_
    | with_reducible refine memOk_of_mems (mems_finish0 ..) ?_
    | with_reducible refine memOk_of_mems (mems_defer ..) ?_
    | with_reducible apply ok_foldl
    | with_reducible apply ok_fold2
    | (intro _ _ _ _)
    | (intro _ _ _)
    | (intro _ _)
    | split
    | dsimp -zeta only)

theorem ok_scrubFree (p : Nat) (s : State) (hok : memOk s) :
    memOk (scrubFree p s) := by
  unfold scrubFree
  repeat' (first
    | with_reducible assumption
    | (extract_lets +onlyGivenNames x; first
      | (have hx : memOk x := ?_; clear_value x; rename' x => y; on_goal 2 => (dsimp -zeta only [x] <;> clear x))
      | (clear_value x; rename' x => y)
      | (rename' x => y))
    | with_reducible apply ok_scrubUnits
    | with_reducible apply ok_foldl
    | with_reducible apply ok_fold2
    | (intro _ _ _ _)
    | (intro _ _ _)
    | (intro _ _)
    | split
    | dsimp -zeta only)

theorem ok_doBackgroundPieceDone (p : Nat) (failed : List Nat) (s : State) (hok : memOk s) :
    memOk (doBackgroundPieceDone p failed s) := by
  unfold doBackgroundPieceDone
  repeat' (first
    | with_reducible assumption
    | (extract_lets +onlyGivenNames x; first
      | (have hx : memOk x := ?_; clear_value x; rename' x => y; on_goal 2 => (dsimp -zeta only [x] <;> clear x))
      | (clear_value x; rename' x => y)
      | (rename' x => y))
    | with_reducible apply ok_scrubFree
    | with_reducible apply ok_decideLeases
    | with_reducible refine memOk_of_mems (mems_updPed2 ..) ?_
    | with_reducible refine memOk_of_mems (mems_failGrains ..) ?_
    | split
    | dsimp -zeta only)

theorem ok_doIntrusiveTestDone (cid : Nat) (failed : List (Nat × Nat)) (s : State) (hok : memOk s) :
    memOk (doIntrusiveTestDone cid failed s) := by
  unfold doIntrusiveTestDone
  repeat' (first
    | with_reducible assumption
    | (extract_lets +onlyGivenNames x; first
      | (have hx : memOk x := ?_; clear_value x; rename' x => y; on_goal 2 => (dsimp -zeta only [x] <;> clear x))
      | (clear_value x; rename' x => y)
      | (rename' x => y))
    | with_reducible apply ok_scrubFree
    | with_reducible apply ok_decideLeases
    | with_reducible refine memOk_of_mems (mems_failGrains ..) ?_
    | with_reducible refine memOk_of_mems (mems_releasePed2 ..) ?_
    | with_reducible refine memOk_of_mems (mems_finish ..) ?_
    | with_reducible apply ok_foldl
    | with_reducible apply ok_fold2
    | (intro _ _ _ _)
    | (intro _ _ _)
    | (intro _ _)
    | split
    | dsimp -zeta only)

theorem ok_doCalibrate (cid slack : Nat) (s : State) (hok : memOk s) :
    memOk (doCalibrate cid slack s) := by
  unfold doCalibrate
  repeat' (first
    | with_reducible assumption
    | (extract_lets +onlyGivenNames x; first
      | (have hx : memOk x := ?_; clear_value x; rename' x => y; on_goal 2 => (dsimp -zeta only [x] <;> clear x))
      | (have hx : memOk x.2 := ?_; clear_value x; rename' x => y; on_goal 2 => (dsimp -zeta only [x] <;> clear x))
      | (have hx : memOk x.2.2 := ?_; clear_value x; rename' x => y; on_goal 2 => (dsimp -zeta only [x] <;> clear x))
      | (have hx : ∀ s, memOk s → memOk (x s) := ?_; clear_value x; rename' x => y; on_goal 2 => (intro s hs; dsimp -zeta only [x] <;> clear x))
      | (have hx : ∀ a s, memOk s → memOk (x a s) := ?_; clear_value x; rename' x => y; on_goal 2 => (intro a s hs; dsimp -zeta only [x] <;> clear x))
      | (clear_value x; rename' x => y)
      | (rename' x => y))
    | with_reducible refine memOk_of_mems (mems_startCmd ..) ?_
    | with_reducible refine memOk_of_mems (mems_finish0 ..) ?_
    | with_reducible refine memOk_of_mems (mems_finish ..) ?_
    | with_reducible refine memOk_of_mems (mems_updFport ..) ?_
    | with_reducible apply ok_linksChanged
    | with_reducible refine memOk_of_mems (mems_startRetrain ..) ?_
    | with_reducible refine memOk_of_mems (mems_defer ..) ?_
    | (intro _ _ _ _)
    | (intro _ _ _)
    | (intro _ _)
    | split
    | dsimp -zeta only
    | (apply_assumption -symm -exfalso (transparency := .reducible))
    | exact memOk_of_mems (s := s) rfl (by assumption)
    | exact memOk_of_mems rfl (by assumption))

/-! ## Counters -/

theorem ok_doSnapshotWriteDone (s : State) (hok : memOk s) :
    memOk (doSnapshotWriteDone s) := by
  unfold doSnapshotWriteDone
  repeat' (first | with_reducible assumption | with_reducible apply ok_objWriteAt | with_reducible refine memOk_of_mems (mems_snapEnd ..) ?_ | with_reducible refine memOk_of_mems (mems_finish ..) ?_ | split)

/-! ## Firmware -/

theorem ok_slotWrite (slot off : Nat) (b : List Byte) (s : State) (h : memOk s) : memOk (slotWrite slot off b s) := by
  obtain ⟨h1, h2, h3, h4, h5, h6, h7, h8⟩ := h
  unfold slotWrite
  split
  · exact ⟨h1, h2, h3, h4, h5, wf_memWrite _ _ _ h6, h7, h8⟩
  · exact ⟨h1, h2, h3, h4, h5, h6, wf_memWrite _ _ _ h7, h8⟩

theorem ok_holdChunk (slot n : Nat) (data : List Byte) (s : State) (hok : memOk s) :
    memOk (holdChunk slot n data s) := by
  unfold holdChunk
  repeat' (first | with_reducible assumption | with_reducible apply ok_slotWrite | with_reducible refine memOk_of_mems (mems_settleStaging ..) ?_ | with_reducible refine memOk_of_mems (mems_writeDir ..) ?_ | split)

theorem ok_takeManifest (cid : Nat) (data : List Byte) (s : State) (hok : memOk s) :
    memOk (takeManifest cid data s) := by
  unfold takeManifest
  repeat' (first
    | with_reducible assumption
    | (extract_lets +onlyGivenNames x; first
      | (have hx : memOk x := ?_; clear_value x; rename' x => y; on_goal 2 => (dsimp -zeta only [x] <;> clear x))
      | (clear_value x; rename' x => y)
      | (rename' x => y))
    | with_reducible apply ok_holdChunk
    | with_reducible apply ok_slotWrite
    | with_reducible refine memOk_of_mems (mems_finish0 ..) ?_
    | with_reducible refine memOk_of_mems (mems_chunkOk ..) ?_
    | with_reducible refine memOk_of_mems (mems_settleStaging ..) ?_
    | with_reducible refine memOk_of_mems (mems_writeDir ..) ?_
    | split
    | dsimp -zeta only)

theorem ok_takeChunk (cid n : Nat) (digest data : List Byte) (s : State) (hok : memOk s) :
    memOk (takeChunk cid n digest data s) := by
  unfold takeChunk
  repeat' (first
    | with_reducible assumption
    | (extract_lets +onlyGivenNames x; first
      | (have hx : memOk x := ?_; clear_value x; rename' x => y; on_goal 2 => (dsimp -zeta only [x] <;> clear x))
      | (clear_value x; rename' x => y)
      | (rename' x => y))
    | with_reducible apply ok_holdChunk
    | with_reducible refine memOk_of_mems (mems_finish0 ..) ?_
    | with_reducible refine memOk_of_mems (mems_chunkOk ..) ?_
    | split
    | dsimp -zeta only)

theorem ok_doFwChunk (cid : Nat) (s : State) (hok : memOk s) :
    memOk (doFwChunk cid s) := by
  unfold doFwChunk
  repeat' (first
    | with_reducible assumption
    | (extract_lets +onlyGivenNames x; first
      | (have hx : memOk x := ?_; clear_value x; rename' x => y; on_goal 2 => (dsimp -zeta only [x] <;> clear x))
      | (clear_value x; rename' x => y)
      | (rename' x => y))
    | with_reducible apply ok_takeManifest
    | with_reducible apply ok_takeChunk
    | with_reducible refine memOk_of_mems (mems_startCmd ..) ?_
    | with_reducible refine memOk_of_mems (mems_finish0 ..) ?_
    | split
    | dsimp -zeta only)

theorem ok_doFwVerifyDone (s : State) (hok : memOk s) :
    memOk (doFwVerifyDone s) := by
  unfold doFwVerifyDone
  repeat' (first
    | with_reducible assumption
    | (extract_lets +onlyGivenNames x; first
      | (have hx : memOk x := ?_; clear_value x; rename' x => y; on_goal 2 => (dsimp -zeta only [x] <;> clear x))
      | (clear_value x; rename' x => y)
      | (rename' x => y))
    | with_reducible apply ok_packageReset
    | with_reducible refine memOk_of_mems (mems_writeDir ..) ?_
    | with_reducible refine memOk_of_mems (mems_endActivate ..) ?_
    | with_reducible apply ok_foldl
    | with_reducible apply ok_fold2
    | (intro _ _ _ _)
    | (intro _ _ _)
    | (intro _ _)
    | split
    | dsimp -zeta only)

/-! ## Security -/

theorem ok_doAttestQuote (cid : Nat) (s : State) (hok : memOk s) :
    memOk (doAttestQuote cid s) := by
  unfold doAttestQuote
  repeat' (first
    | with_reducible assumption
    | (extract_lets +onlyGivenNames x; first
      | (have hx : memOk x := ?_; clear_value x; rename' x => y; on_goal 2 => (dsimp -zeta only [x] <;> clear x))
      | (clear_value x; rename' x => y)
      | (rename' x => y))
    | with_reducible apply ok_hostWrite
    | with_reducible refine memOk_of_mems (mems_startCmd ..) ?_
    | with_reducible refine memOk_of_mems (mems_finish0 ..) ?_
    | with_reducible refine memOk_of_mems (mems_finish ..) ?_
    | split
    | dsimp -zeta only)

theorem ok_doMeasureLog (cid : Nat) (s : State) (hok : memOk s) :
    memOk (doMeasureLog cid s) := by
  unfold doMeasureLog
  repeat' (first
    | with_reducible assumption
    | (extract_lets +onlyGivenNames x; first
      | (have hx : memOk x := ?_; clear_value x; rename' x => y; on_goal 2 => (dsimp -zeta only [x] <;> clear x))
      | (clear_value x; rename' x => y)
      | (rename' x => y))
    | with_reducible refine memOk_of_mems (mems_startCmd ..) ?_
    | with_reducible refine memOk_of_mems (mems_finish0 ..) ?_
    | with_reducible refine memOk_of_mems (mems_finish ..) ?_
    | with_reducible apply ok_answerWrite
    | (intro _ _ _ _)
    | (intro _ _ _)
    | (intro _ _)
    | split
    | dsimp -zeta only)

theorem ok_spdmServe (tr : Transport) (go : State → State) (s : State) (h : memOk s)
    (hg : ∀ s, memOk s → memOk (go s)) : memOk (spdmServe tr go s) := by
  unfold spdmServe
  split
  · exact h
  · split
    · exact memOk_of_mems (mems_spdmError ..) h
    · exact hg _ h

theorem ok_spdmReady (tr : Transport) (go : State → State) (s : State) (h : memOk s)
    (hg : ∀ s, memOk s → memOk (go s)) : memOk (spdmReady tr go s) := by
  refine ok_spdmServe _ _ _ h (fun s hs => ?_)
  split
  · exact hg _ hs
  · exact memOk_of_mems (mems_spdmError ..) hs

/-! ## HostIf -/

theorem ok_noteFetch (c : Cmd) (s : State) (hok : memOk s) :
    memOk (noteFetch c s) := by
  unfold noteFetch
  repeat' (first
    | with_reducible assumption
    | (extract_lets +onlyGivenNames x; first
      | (have hx : memOk x := ?_; clear_value x; rename' x => y; on_goal 2 => (dsimp -zeta only [x] <;> clear x))
      | (clear_value x; rename' x => y)
      | (rename' x => y))
    | with_reducible apply ok_decideLeases
    | with_reducible refine memOk_of_mems (mems_updCtx ..) ?_
    | with_reducible refine memOk_of_mems (mems_earn ..) ?_
    | (intro _ _ _ _)
    | (intro _ _ _)
    | (intro _ _)
    | split
    | dsimp -zeta only)

theorem ok_fetchOne (fn : Nat) (ctx : Option Nat) (ring : Nat) (s : State) (hok : memOk s) :
    memOk (fetchOne fn ctx ring s) := by
  unfold fetchOne
  repeat' (first
    | with_reducible assumption
    | (extract_lets +onlyGivenNames x; first
      | (have hx : memOk x := ?_; clear_value x; rename' x => y; on_goal 2 => (dsimp -zeta only [x] <;> clear x))
      | (clear_value x; rename' x => y)
      | (rename' x => y))
    | with_reducible refine memOk_of_mems (mems_setSq ..) ?_
    | with_reducible refine memOk_of_mems (mems_nameCq ..) ?_
    | with_reducible refine memOk_of_mems (mems_updCtx ..) ?_
    | with_reducible apply ok_noteFetch
    | with_reducible refine memOk_of_mems (mems_takeReply ..) ?_
    | (intro _ _ _ _)
    | (intro _ _ _)
    | (intro _ _)
    | split
    | dsimp -zeta only)

theorem ok_fetchSome (fn : Nat) (ctx : Option Nat) (ring n : Nat) (s : State) (hok : memOk s) :
    memOk (fetchSome fn ctx ring n s) := by
  induction n generalizing s with
  | zero => exact hok
  | succ n ih =>
    unfold fetchSome
    split
    · exact ih _ (ok_fetchOne _ _ _ _ hok)
    · exact hok

theorem ok_doCommandFetch (fn : Nat) (ctx : Option Nat) (ring : FetchFrom) (s : State) (hok : memOk s) :
    memOk (doCommandFetch fn ctx ring s) := by
  unfold doCommandFetch
  repeat' (first
    | with_reducible assumption
    | (extract_lets +onlyGivenNames x; first
      | (have hx : memOk x := ?_; clear_value x; rename' x => y; on_goal 2 => (dsimp -zeta only [x] <;> clear x))
      | (clear_value x; rename' x => y)
      | (rename' x => y))
    | with_reducible refine memOk_of_mems (mems_takeMctp ..) ?_
    | with_reducible apply ok_fetchSome
    | (intro _ _ _ _)
    | (intro _ _ _)
    | (intro _ _)
    | split
    | dsimp -zeta only)

theorem ok_writeEntryTo (c : Cmd) (st : W16) (res : List Byte) (s : State) (hok : memOk s) :
    memOk (writeEntryTo c st res s) := by
  unfold writeEntryTo
  repeat' (first
    | with_reducible assumption
    | (extract_lets +onlyGivenNames x; first
      | (have hx : memOk x := ?_; clear_value x; rename' x => y; on_goal 2 => (dsimp -zeta only [x] <;> clear x))
      | (clear_value x; rename' x => y)
      | (rename' x => y))
    | with_reducible apply ok_hostWrite
    | with_reducible refine memOk_of_mems (mems_setCq ..) ?_
    | with_reducible refine memOk_of_mems (mems_signal ..) ?_
    | split
    | dsimp -zeta only)

theorem ok_doCompletionWrite (cid : Nat) (s : State) (hok : memOk s) :
    memOk (doCompletionWrite cid s) := by
  unfold doCompletionWrite
  repeat' (first
    | with_reducible assumption
    | (extract_lets +onlyGivenNames x; first
      | (have hx : memOk x := ?_; clear_value x; rename' x => y; on_goal 2 => (dsimp -zeta only [x] <;> clear x))
      | (have hx : memOk x.2 := ?_; clear_value x; rename' x => y; on_goal 2 => (dsimp -zeta only [x] <;> clear x))
      | (have hx : memOk x.2.2 := ?_; clear_value x; rename' x => y; on_goal 2 => (dsimp -zeta only [x] <;> clear x))
      | (have hx : ∀ s, memOk s → memOk (x s) := ?_; clear_value x; rename' x => y; on_goal 2 => (intro s hs; dsimp -zeta only [x] <;> clear x))
      | (have hx : ∀ a s, memOk s → memOk (x a s) := ?_; clear_value x; rename' x => y; on_goal 2 => (intro a s hs; dsimp -zeta only [x] <;> clear x))
      | (have hx : ∀ a b s, memOk s → memOk (x a b s) := ?_; clear_value x; rename' x => y; on_goal 2 => (intro a b s hs; dsimp -zeta only [x] <;> clear x))
      | (have hx : ∀ a b c s, memOk s → memOk (x a b c s) := ?_; clear_value x; rename' x => y; on_goal 2 => (intro a b c s hs; dsimp -zeta only [x] <;> clear x))
      | (clear_value x; rename' x => y)
      | (rename' x => y))
    | with_reducible refine memOk_of_mems (mems_mctpComplete ..) ?_
    | with_reducible refine memOk_of_mems (mems_updCmd ..) ?_
    | with_reducible refine memOk_of_mems (mems_updCtx ..) ?_
    | with_reducible refine memOk_of_mems (mems_putReply ..) ?_
    | with_reducible apply ok_writeEntryTo
    | with_reducible refine memOk_of_mems (mems_settleAdmin ..) ?_
    | (intro _ _ _ _)
    | (intro _ _ _)
    | (intro _ _)
    | split
    | dsimp -zeta only
    | (apply_assumption -symm -exfalso (transparency := .reducible))
    | exact memOk_of_mems (s := s) rfl (by assumption)
    | exact memOk_of_mems rfl (by assumption))

theorem ok_resetFns (pick : Nat → Bool) (s : State) (hok : memOk s) :
    memOk (resetFns pick s) := by
  unfold resetFns
  repeat' (first
    | with_reducible assumption
    | (extract_lets +onlyGivenNames x; first
      | (have hx : memOk x := ?_; clear_value x; rename' x => y; on_goal 2 => (dsimp -zeta only [x] <;> clear x))
      | (clear_value x; rename' x => y)
      | (rename' x => y))
    | with_reducible apply ok_killCtx
    | with_reducible refine memOk_of_mems (mems_aperMiss ..) ?_
    | with_reducible apply ok_foldl
    | with_reducible apply ok_fold2
    | (intro _ _ _ _)
    | (intro _ _ _)
    | (intro _ _)
    | split
    | dsimp -zeta only)

theorem ok_resetPort (port : Nat) (s : State) (hok : memOk s) :
    memOk (resetPort port s) := by
  unfold resetPort
  repeat' (first
    | with_reducible assumption
    | (extract_lets +onlyGivenNames x; first
      | (have hx : memOk x := ?_; clear_value x; rename' x => y; on_goal 2 => (dsimp -zeta only [x] <;> clear x))
      | (clear_value x; rename' x => y)
      | (rename' x => y))
    | with_reducible apply ok_resetFns
    | with_reducible refine memOk_of_mems (mems_updPort ..) ?_
    | (intro _ _ _ _)
    | (intro _ _ _)
    | (intro _ _)
    | split
    | dsimp -zeta only)

theorem ok_doPortReset (port : Nat) (s : State) (hok : memOk s) :
    memOk (doPortReset port s) := by
  unfold doPortReset
  repeat' (first | with_reducible assumption | with_reducible apply ok_resetPort | with_reducible refine memOk_of_mems (mems_updPort ..) ?_ | split)

theorem ok_doHostLinkDownTimeout (port : Nat) (s : State) (hok : memOk s) :
    memOk (doHostLinkDownTimeout port s) := by
  unfold doHostLinkDownTimeout
  repeat' (first | with_reducible assumption | with_reducible apply ok_resetPort | with_reducible refine memOk_of_mems (mems_updPort ..) ?_ | split)

theorem ok_doPfFlr (port : Nat) (s : State) (hok : memOk s) :
    memOk (doPfFlr port s) := by
  unfold doPfFlr
  repeat' (first
    | with_reducible assumption
    | (extract_lets +onlyGivenNames x; first
      | (have hx : memOk x := ?_; clear_value x; rename' x => y; on_goal 2 => (dsimp -zeta only [x] <;> clear x))
      | (clear_value x; rename' x => y)
      | (rename' x => y))
    | with_reducible apply ok_resetPort
    | (intro _ _ _ _)
    | (intro _ _ _)
    | (intro _ _)
    | split
    | dsimp -zeta only)

theorem ok_doVfFlr (port : Nat) (vf : Option Nat) (s : State) (hok : memOk s) :
    memOk (doVfFlr port vf s) := by
  unfold doVfFlr
  repeat' (first
    | with_reducible assumption
    | (extract_lets +onlyGivenNames x; first
      | (have hx : memOk x := ?_; clear_value x; rename' x => y; on_goal 2 => (dsimp -zeta only [x] <;> clear x))
      | (clear_value x; rename' x => y)
      | (rename' x => y))
    | with_reducible refine memOk_of_mems (mems_updPort ..) ?_
    | with_reducible apply ok_resetFns
    | (intro _ _ _ _)
    | (intro _ _ _)
    | (intro _ _)
    | split
    | dsimp -zeta only)

theorem ok_doPkgrstPin (s : State) (hok : memOk s) :
    memOk (doPkgrstPin s) := by
  unfold doPkgrstPin
  repeat' (first | with_reducible assumption | with_reducible apply ok_packageReset | split)

theorem ok_doPkgrstOtherPortNoLink (port : Nat) (s : State) (hok : memOk s) :
    memOk (doPkgrstOtherPortNoLink port s) := by
  unfold doPkgrstOtherPortNoLink
  repeat' (first | with_reducible assumption | with_reducible apply ok_packageReset | split)

/-! ## Registers -/

theorem mems_clkctl (b : Bool) (w : W32) (s : State) :
    (noteRwp b { s with pwr := { s.pwr with clkctl := w } }).mems = s.mems :=
  (mems_noteRwp ..).trans rfl

theorem mems_secTest (b : Bool) (w : W32) (s : State) :
    (noteRwp b { s with sec := { s.sec with test := w } }).mems = s.mems :=
  (mems_noteRwp ..).trans rfl

theorem mems_secScrub (b : Bool) (w : W32) (s : State) :
    (noteRwp b { s with sec := { s.sec with scrub := w } }).mems = s.mems :=
  (mems_noteRwp ..).trans rfl
/-- Every guarded register but HUB_PKGRST leaves memory as it is. -/
theorem mems_gTake (rq : Requester) (g : GReg) (v : W32) (s : State) (hg : g ≠ .pkgrst) : (gTake rq g v s).mems = s.mems := by
  unfold gTake
  split
  · exact absurd rfl hg
  · with_reducible rfl
  · exact mems_clkctl ..
  · extract_lets moved x s1
    have h1 : s1.mems = s.mems := (mems_noteRwp ..).trans (by with_reducible rfl)
    clear_value s1
    split
    · exact (mems_measureState ..).trans h1
    · exact h1
  · extract_lets s1 s2 b2 s3
    have h1 : s1.mems = s.mems := by with_reducible exact mems_rwpWrite ..
    have h2 : s2.mems = s1.mems := by with_reducible exact mems_eraseVolatile ..
    have h3 : s3.mems = s2.mems := by
      dsimp -zeta only [s3]
      clear_value s2
      split
      · with_reducible rfl
      · with_reducible rfl
    clear_value s3
    clear_value s2
    clear_value s1
    exact (mems_measureState ..).trans (h3.trans (h2.trans h1))
  · with_reducible exact (mems_writeDir ..).trans (mems_rwpWrite ..)
  · exact mems_secTest ..
  · exact mems_secScrub ..

theorem ok_gTake (rq : Requester) (g : GReg) (v : W32) (s : State) (h : memOk s) : memOk (gTake rq g v s) := by
  by_cases hg : g = .pkgrst
  · subst hg
    unfold gTake
    dsimp only
    have h1 := memOk_of_mems (mems_updPort (rqCode rq) (fun x => { x with pkgReq := true }) s) h
    split
    · exact ok_packageReset _ h1
    · exact h1
  · exact memOk_of_mems (mems_gTake rq g v s hg) h
theorem mems_guardB (rq : Requester) (g : GReg) (vb : W32) (s : State) (hg : g ≠ .pkgrst) : (guardB rq g vb s).mems = s.mems := by
  unfold guardB
  split
  · exact mems_guardFail ..
  · split
    · exact mems_guardFail ..
    · extract_lets s1
      have h1 : s1.mems = s.mems := mems_closePend ..
      clear_value s1
      split
      · exact (mems_guardFail ..).trans h1
      · split
        · exact (mems_guardFail ..).trans h1
        · exact (mems_gTake _ _ _ _ hg).trans h1

theorem mems_guardedPair (g : GReg) (rq : Requester) (vb : W32) (s : State) (hg : g ≠ .pkgrst) :
    (doGuardedPair g rq vb s).mems = s.mems :=
  mems_onBar _ _ (fun s' => mems_guardB _ _ _ s' hg) _

theorem ok_guardB (rq : Requester) (g : GReg) (vb : W32) (s : State) (h : memOk s) : memOk (guardB rq g vb s) := by
  unfold guardB
  split
  · exact memOk_of_mems (mems_guardFail ..) h
  · split
    · exact memOk_of_mems (mems_guardFail ..) h
    · extract_lets s1
      have h1 : memOk s1 := memOk_of_mems (mems_closePend ..) h
      clear_value s1
      split
      · exact memOk_of_mems (mems_guardFail ..) h1
      · split
        · exact memOk_of_mems (mems_guardFail ..) h1
        · exact ok_gTake _ _ _ _ h1

theorem ok_doGuardedPair (g : GReg) (rq : Requester) (vb : W32) (s : State) (hok : memOk s) :
    memOk (doGuardedPair g rq vb s) := by
  unfold doGuardedPair
  repeat' (first
    | with_reducible assumption
    | (extract_lets +onlyGivenNames x; first
      | (have hx : memOk x := ?_; clear_value x; rename' x => y; on_goal 2 => (dsimp -zeta only [x] <;> clear x))
      | (clear_value x; rename' x => y)
      | (rename' x => y))
    | with_reducible apply ok_onBar
    | with_reducible apply ok_guardB
    | (intro _ _ _ _)
    | (intro _ _ _)
    | (intro _ _)
    | split
    | dsimp -zeta only)

theorem ok_writeGuarded (rq : Requester) (g : GReg) (isB : Bool) (size : Nat) (val : W64) (s : State) (h : memOk s) :
    memOk (writeGuarded rq g isB size val s) := by
  unfold writeGuarded
  extract_lets off v s1
  have h1 : memOk s1 := memOk_of_mems (mems_dropHeld ..) h
  clear_value s1
  split
  · exact memOk_of_mems (mems_guardFail ..) h1
  · split
    · exact memOk_of_mems (mems_guardFail ..) h1
    · split
      · exact ok_guardB _ _ _ _ h1
      · exact memOk_of_mems (mems_guardA ..) h1

theorem ok_doRegisterWrite (rq : Requester) (off size : Nat) (val : W64) (s : State) (hok : memOk s) :
    memOk (doRegisterWrite rq off size val s) := by
  unfold doRegisterWrite
  repeat' (first
    | with_reducible assumption
    | (extract_lets +onlyGivenNames x; first
      | (have hx : memOk x := ?_; clear_value x; rename' x => y; on_goal 2 => (dsimp -zeta only [x] <;> clear x))
      | (clear_value x; rename' x => y)
      | (rename' x => y))
    | with_reducible refine memOk_of_mems (mems_badAccess ..) ?_
    | with_reducible apply ok_writeGuarded
    | with_reducible refine memOk_of_mems (mems_writeAt ..) ?_
    | (intro _ _ _ _)
    | (intro _ _ _)
    | (intro _ _)
    | split
    | dsimp -zeta only)

/-! ## Dump -/

theorem ok_dumpPort (slot p : Nat) (s : State) (hok : memOk s) :
    memOk (dumpPort slot p s) := by
  unfold dumpPort
  repeat' (first
    | with_reducible assumption
    | (extract_lets +onlyGivenNames x; first
      | (have hx : memOk x := ?_; clear_value x; rename' x => y; on_goal 2 => (dsimp -zeta only [x] <;> clear x))
      | (have hx : memOk x.2 := ?_; clear_value x; rename' x => y; on_goal 2 => (dsimp -zeta only [x] <;> clear x))
      | (have hx : memOk x.2.2 := ?_; clear_value x; rename' x => y; on_goal 2 => (dsimp -zeta only [x] <;> clear x))
      | (clear_value x; rename' x => y)
      | (rename' x => y))
    | with_reducible apply ok_hostWrite
    | with_reducible refine memOk_of_mems (mems_dumpFill ..) ?_
    | split
    | dsimp -zeta only)

theorem ok_doFatalError (s : State) (hok : memOk s) :
    memOk (doFatalError s) := by
  unfold doFatalError
  repeat' (first
    | with_reducible assumption
    | (extract_lets +onlyGivenNames x; first
      | (have hx : memOk x := ?_; clear_value x; rename' x => y; on_goal 2 => (dsimp -zeta only [x] <;> clear x))
      | (clear_value x; rename' x => y)
      | (rename' x => y))
    | with_reducible refine memOk_of_mems (mems_fwFails ..) ?_
    | with_reducible refine memOk_of_mems (mems_stopSeg ..) ?_
    | with_reducible apply ok_dumpPort
    | with_reducible apply ok_foldl
    | with_reducible apply ok_fold2
    | (intro _ _ _ _)
    | (intro _ _ _)
    | (intro _ _)
    | split
    | dsimp -zeta only)

/-! ## Tick -/

theorem ok_tick (s : State) (hok : memOk s) :
    memOk (tick s) := by
  unfold tick
  repeat' (first
    | with_reducible assumption
    | (extract_lets +onlyGivenNames x; first
      | (have hx : memOk x := ?_; clear_value x; rename' x => y; on_goal 2 => (dsimp -zeta only [x] <;> clear x))
      | (clear_value x; rename' x => y)
      | (rename' x => y))
    | with_reducible apply ok_laneStep
    | with_reducible refine memOk_of_mems (mems_eccStep ..) ?_
    | with_reducible refine memOk_of_mems (mems_charge ..) ?_
    | with_reducible refine memOk_of_mems (mems_warmStep ..) ?_
    | with_reducible refine memOk_of_mems (mems_gateStep ..) ?_
    | (intro _ _ _ _)
    | (intro _ _ _)
    | (intro _ _)
    | split
    | dsimp -zeta only)

end Sys2Proof.Machine
end

