-- ==== Sys2Proof/Laws/Bytes.lean ====
section
/-! SUPPORT. The memories and the commands, once and for every command: the commands that store nothing leave every byte as
it was, and every command keeps the canonical form. -/

namespace Sys2Proof.Machine

open Sys2Proof

/-- A command that stores nothing leaves every byte as it was. -/
theorem mems_exec (c : Instr) (s t : State) (hn : storesNothing c = true) (h : exec c s = .next t) : t.mems = s.mems := by
  cases c with
  | ping => cases h; exact mems_doPing ..
  | ctxCreate => cases h; exact mems_doCtxCreate ..
  | ctxDestroy => cases hn
  | ctxKill => cases hn
  | setShare => cases h; exact mems_doSetShare ..
  | objAlloc => cases h; exact mems_doObjAlloc ..
  | objFree => cases hn
  | objPlace => cases h; exact mems_doObjPlace ..
  | objMigrate => cases h; exact mems_doObjMigrate ..
  | objFallback => cases hn
  | planLoad => cases h; exact mems_doPlanLoad ..
  | planUnload => cases h; exact mems_doPlanUnload ..
  | segRun => cases hn
  | segFence => cases h; exact mems_doSegFence ..
  | winOpen => cases hn
  | winClose => cases h; exact mems_doWinClose ..
  | groupSet => cases h; exact mems_doGroupSet ..
  | bucketPolicy => cases hn
  | secureNow => cases h; exact mems_doSecureNow ..
  | securePolicy => cases h; exact mems_doSecurePolicy ..
  | rollback => cases hn
  | replayStep => cases h; exact mems_doReplayStep ..
  | digestQuery => cases hn
  | strataRead => cases hn
  | selfTest => cases hn
  | calibrate => cases hn
  | pmcConfig => cases h; exact mems_doPmcConfig ..
  | pmcSnapshot => cases h; exact mems_doPmcSnapshot ..
  | sampleConfig => cases h; exact mems_doSampleConfig ..
  | fwChunk => cases hn
  | fwStatus => cases h; exact mems_doFwStatus ..
  | fwActivate => cases h; exact mems_doFwActivate ..
  | fwAbort => cases h; exact mems_doFwAbort ..
  | attestQuote => cases hn
  | measureLog => cases hn
  | dumpConfig => cases h; exact mems_doDumpConfig ..
  | tilthRead => cases h; exact mems_doTilthRead ..
  | commandFetch => cases hn
  | completionWrite => cases hn
  | interruptTimeExpire => cases h; exact mems_doInterruptTimeExpire ..
  | commandRingDoorbell => cases h; exact mems_doCommandRingDoorbell ..
  | adminDoorbell => cases h; exact mems_onBar _ _ (fun _ => mems_doAdminDoorbell ..) _
  | pedDoorbell => cases h; exact mems_doPedDoorbell ..
  | adminRingEnable => cases h; exact mems_onBar _ _ (fun _ => mems_doAdminRingEnable ..) _
  | adminRingDisable => cases h; exact mems_onBar _ _ (fun _ => mems_doAdminRingDisable ..) _
  | ringTableWrite => cases h; exact mems_onBar _ _ (fun _ => mems_doRingTableWrite ..) _
  | fnAperWrite => cases h; exact mems_onBar _ _ (fun _ => mems_doFnAperWrite ..) _
  | bar4Access => cases h; exact mems_doBar4Access ..
  | busMasterDisable => cases h; exact mems_doBusMasterDisable ..
  | busMasterEnable => cases h; exact mems_doBusMasterEnable ..
  | portReset => cases hn
  | perstDeassert => cases h; exact mems_doPerstDeassert ..
  | hostLinkDownTimeout => cases hn
  | pfFlr => cases hn
  | vfFlr => cases hn
  | hubPkgrstPair => cases hn
  | pkgrstRequestLapse => cases h; exact mems_doPkgrstRequestLapse ..
  | pkgrstPin => cases hn
  | segmentStart => cases hn
  | segmentEnd => cases hn
  | segmentWatchdog => cases h; exact mems_doSegmentWatchdog ..
  | deepSaveDone => cases hn
  | deepRestoreDone => cases hn
  | fabricDrainEnd => cases h; exact mems_doFabricDrainEnd ..
  | diePark => cases h; exact mems_doDiePark ..
  | grainPllLock => cases h; exact mems_doGrainPllLock ..
  | hubTransferStart => cases h; exact mems_doHubTransferStart ..
  | hubTransferComplete => cases hn
  | descriptorBurstArrive => cases h; exact mems_doDescriptorBurstArrive ..
  | notbeforeReached => cases h; exact mems_doNotbeforeReached ..
  | descriptorComplete => cases hn
  | arrPass => cases hn
  | arrConv => cases hn
  | arrLoadw => cases h; exact mems_doArrLoadw ..
  | mv => cases h; exact mems_doMv ..
  | vec => cases hn
  | vecDeriv => cases hn
  | rngFill => cases hn
  | dmaGet => cases hn
  | dmaPut => cases hn
  | dmaPutFlush => cases hn
  | winPut => cases hn
  | winGet => cases hn
  | sieveGather => cases hn
  | sieveScatterAdd => cases hn
  | sieveScatterApply => cases hn
  | redPost => cases hn
  | redWait => cases hn
  | barrier => cases h; exact mems_doBarrier ..
  | semWait => cases h; exact mems_doSemWait ..
  | semSignal => cases h; exact mems_doSemSignal ..
  | deadline => cases h; exact mems_doDeadline ..
  | deadlineDue => cases hn
  | deadlineRung2Cutoff => cases hn
  | deadlineRung3Cutoff => cases hn
  | clodBegin => cases h; exact mems_doClodBegin ..
  | clodCommit => cases h; exact mems_doClodCommit ..
  | clodDecision => cases hn
  | clodDecisionApply => cases hn
  | clodAbort => cases h; exact mems_doClodAbort ..
  | specBegin => cases h; exact mems_doSpecBegin ..
  | specResolve => cases hn
  | route => cases hn
  | secureMark => cases h; exact mems_doSecureMark ..
  | pmcMark => cases hn
  | ballast => cases h; exact mems_doBallast ..
  | endOp => cases hn
  | arrayIdle => cases h; exact mems_doArrayIdle ..
  | ballastGapExpire => cases h; exact mems_doBallastGapExpire ..
  | arrayChecksumFault => cases h; exact mems_doArrayChecksumFault ..
  | mvRowCheckFault => cases h; exact mems_doMvRowCheckFault ..
  | vectorCheckFault => cases h; exact mems_doVectorCheckFault ..
  | spareCheckDone => cases h; exact mems_doSpareCheckDone ..
  | patrolScrubSlot => cases h; exact mems_doPatrolScrubSlot ..
  | cacheFillDone => cases h; exact mems_doCacheFillDone ..
  | tagGrant => cases hn
  | horizonResponse => cases hn
  | calibrationWindowStart => cases h; exact mems_doCalibrationWindowStart ..
  | calibrationWindowEnd => cases h; exact mems_doCalibrationWindowEnd ..
  | migrationCopyDone => cases hn
  | promotionCopyDone => cases hn
  | nvmeCompletion => cases hn
  | driveFailed => cases hn
  | ddr5ChannelFailed => cases h; exact mems_doDdr5ChannelFailed ..
  | sieveRowArrive => cases hn
  | dlogMergeGranuleDone => cases hn
  | lnkPortEnable => cases hn
  | portTrained => cases h; exact mems_doPortTrained ..
  | identReceived => cases h; with_reducible refine (mems_doIdentReceived ..).trans ?_; split <;> simp
  | flitReceive => cases hn
  | nakReceived => cases hn
  | portRetrainDone => cases h; exact mems_doPortRetrainDone ..
  | portLeaveUp => cases hn
  | windowAccessArrive => cases h; exact mems_doWindowAccessArrive ..
  | windowResponseArrive => cases hn
  | remoteTimeout => cases hn
  | reductionFlitArrive => cases hn
  | bucketTimeout => cases hn
  | bucketFailureNotice => cases hn
  | bucketHoldNotice => cases h; exact mems_doBucketHoldNotice ..
  | bucketResumeNotice => cases hn
  | lnkTorusWrite => cases h; exact mems_onBar _ _ (fun _ => mems_doLnkTorusWrite ..) _
  | lnkRouteWrite => cases hn
  | lnkCreditWrite => cases h; exact mems_onBar _ _ (fun _ => mems_doLnkCreditWrite ..) _
  | riskExchangeResult => cases h; exact mems_doRiskExchangeResult ..
  | securePointComplete => cases hn
  | securePointFail => cases hn
  | tilthPeriod => cases h; exact mems_doTilthPeriod ..
  | clockSlewDone => cases h; exact mems_doClockSlewDone ..
  | errRingTailWrite => cases h; exact mems_onBar _ _ (fun _ => mems_doErrRingTailWrite ..) _
  | errFatalClear => cases h; exact mems_onBar _ _ (fun _ => mems_doErrFatalClear ..) _
  | fatalError => cases hn
  | lockstepMismatch => cases h; exact mems_doLockstepMismatch ..
  | hubLogicMismatch => cases h; exact mems_doHubLogicMismatch ..
  | aoTick => cases h; exact mems_doAoTick ..
  | helperEraseDone => cases h; exact mems_doHelperEraseDone ..
  | powerSample => cases h; exact mems_doPowerSample ..
  | throttleSaturationTimeout => cases h; exact mems_doThrottleSaturationTimeout ..
  | boundaryHoldAdjust => cases h; exact mems_doBoundaryHoldAdjust ..
  | ped1Prewake => cases h; exact mems_doPed1Prewake ..
  | avsbusTimeout => cases h; exact mems_doAvsbusTimeout ..
  | powerOn => cases hn
  | mainEnAssert => cases hn
  | mainEnDeassert => cases hn
  | coldStart => cases hn
  | firmwareLoadDone => cases h; exact mems_doFirmwareLoadDone ..
  | dieBringupDone => cases h; exact mems_doDieBringupDone ..
  | configRecordSelect => cases h; exact mems_doConfigRecordSelect ..
  | hbmTrainingDone => cases h; exact mems_doHbmTrainingDone ..
  | ddr5TrainingDone => cases h; exact mems_doDdr5TrainingDone ..
  | nvmeEnumDone => cases h; exact mems_doNvmeEnumDone ..
  | startupSelftestDone => cases h; exact mems_doStartupSelftestDone ..
  | enabledMapBuild => cases hn
  | configRecordWrite => cases h; exact mems_doConfigRecordWrite ..
  | trialBootTimeout => cases hn
  | backgroundTestPiece => cases h; exact mems_doBackgroundTestPiece ..
  | backgroundPieceDone => cases hn
  | intrusiveTestDone => cases hn
  | calibrationDone => cases h; exact mems_doCalibrationDone ..
  | snapshotStamp => cases h; exact mems_doSnapshotStamp ..
  | snapshotWriteDone => cases hn
  | fwVerifyDone => cases hn
  | fwLoadDone => cases h; exact mems_doFwLoadDone ..
  | fwHandoverDone => cases h; exact mems_doFwHandoverDone ..
  | fwSwitchStamp => cases h; exact mems_doFwSwitchStamp ..
  | fwCommit => cases h; exact mems_doFwCommit ..
  | fwActivateDeadline => cases h; exact mems_doFwActivateDeadline ..
  | fwRevertDone => cases h; exact mems_doFwRevertDone ..
  | fwStandbyReady => cases h; exact mems_doFwStandbyReady ..
  | debugUnlock => cases h; exact mems_doDebugUnlock ..
  | getVersion => cases h; exact mems_doGetVersion ..
  | getCapabilities => cases h; exact mems_doGetCapabilities ..
  | negotiateAlgorithms => cases h; exact mems_doNegotiateAlgorithms ..
  | getDigests => cases h; exact mems_doGetDigests ..
  | getCertificate => cases h; exact mems_doGetCertificate ..
  | challenge => cases h; exact mems_doChallenge ..
  | getMeasurements => cases h; exact mems_doGetMeasurements ..
  | spdmUnsupportedRequest => cases h; exact mems_doSpdmUnsupportedRequest ..
  | guardedWriteA => cases h; exact mems_doGuardedWriteA ..
  | guardedWindowExpire => cases h; exact mems_doGuardedWindowExpire ..
  | pwrLimitPair => cases h; exact mems_guardedPair _ _ _ _ (by decide)
  | pwrClkctlPair => cases h; exact mems_guardedPair _ _ _ _ (by decide)
  | secAlarmPair => cases h; exact mems_guardedPair _ _ _ _ (by decide)
  | secAlarmClear => cases h; exact mems_guardedPair _ _ _ _ (by decide)
  | secEraseVolatile => cases h; exact mems_guardedPair _ _ _ _ (by decide)
  | secEraseHelper => cases h; exact mems_guardedPair _ _ _ _ (by decide)
  | secSlotPair => cases h; exact mems_guardedPair _ _ _ _ (by decide)
  | secTestPair => cases h; exact mems_guardedPair _ _ _ _ (by decide)
  | secScrubPair => cases h; exact mems_guardedPair _ _ _ _ (by decide)
  | hubNumctlWrite => cases h; exact mems_onBar _ _ (fun _ => mems_doHubNumctlWrite ..) _
  | hubNumringWrite => cases h; exact mems_onBar _ _ (fun _ => mems_doHubNumringWrite ..) _
  | hubSpecWrite => cases h; exact mems_onBar _ _ (fun _ => mems_doHubSpecWrite ..) _
  | pwrBallastWrite => cases h; exact mems_onBar _ _ (fun _ => mems_doPwrBallastWrite ..) _
  | pwrCtlWrite => cases h; exact mems_onBar _ _ (fun _ => mems_doPwrCtlWrite ..) _
  | errTilthWWrite => cases h; exact mems_onBar _ _ (fun _ => mems_doErrTilthWWrite ..) _
  | pmcSmpTailWrite => cases h; exact mems_onBar _ _ (fun _ => mems_doPmcSmpTailWrite ..) _
  | registerWrite => cases hn
  | registerReadLatch => cases h; exact mems_doRegisterReadLatch ..
  | hostLinkUp => cases h; exact mems_doHostLinkUp ..
  | hostLinkDown => cases h; exact mems_doHostLinkDown ..
  | portReadyAgain => cases h; exact mems_doPortReadyAgain ..
  | pkgrstOtherPortNoLink => cases hn
  | identTimeout => cases h; exact mems_doIdentTimeout ..

/-- Every command keeps the canonical form of the memories. -/
theorem ok_exec (c : Instr) (s t : State) (hs : memOk s) (h : exec c s = .next t) : memOk t := by
  cases c with
  | ping => cases h; exact memOk_of_mems (mems_doPing ..) hs
  | ctxCreate => cases h; exact memOk_of_mems (mems_doCtxCreate ..) hs
  | ctxDestroy => cases h; with_reducible apply ok_doCtxDestroy; exact hs
  | ctxKill => cases h; with_reducible apply ok_doCtxKill; exact hs
  | setShare => cases h; exact memOk_of_mems (mems_doSetShare ..) hs
  | objAlloc => cases h; exact memOk_of_mems (mems_doObjAlloc ..) hs
  | objFree => cases h; with_reducible apply ok_doObjFree; exact hs
  | objPlace => cases h; exact memOk_of_mems (mems_doObjPlace ..) hs
  | objMigrate => cases h; exact memOk_of_mems (mems_doObjMigrate ..) hs
  | objFallback => cases h; with_reducible apply ok_doObjFallback; exact hs
  | planLoad => cases h; exact memOk_of_mems (mems_doPlanLoad ..) hs
  | planUnload => cases h; exact memOk_of_mems (mems_doPlanUnload ..) hs
  | segRun => cases h; with_reducible apply ok_doSegRun; exact hs
  | segFence => cases h; exact memOk_of_mems (mems_doSegFence ..) hs
  | winOpen => cases h; with_reducible apply ok_doWinOpen; exact hs
  | winClose => cases h; exact memOk_of_mems (mems_doWinClose ..) hs
  | groupSet => cases h; exact memOk_of_mems (mems_doGroupSet ..) hs
  | bucketPolicy => cases h; exact ok_wakeEarly _ (memOk_of_mems (mems_doBucketPolicy ..) hs)
  | secureNow => cases h; exact memOk_of_mems (mems_doSecureNow ..) hs
  | securePolicy => cases h; exact memOk_of_mems (mems_doSecurePolicy ..) hs
  | rollback => cases h; with_reducible apply ok_doRollback; exact hs
  | replayStep => cases h; exact memOk_of_mems (mems_doReplayStep ..) hs
  | digestQuery => cases h; with_reducible apply ok_doDigestQuery; exact hs
  | strataRead => cases h; with_reducible apply ok_doStrataRead; exact hs
  | selfTest => cases h; with_reducible apply ok_doSelfTest; exact hs
  | calibrate => cases h; with_reducible apply ok_doCalibrate; exact hs
  | pmcConfig => cases h; exact memOk_of_mems (mems_doPmcConfig ..) hs
  | pmcSnapshot => cases h; exact memOk_of_mems (mems_doPmcSnapshot ..) hs
  | sampleConfig => cases h; exact memOk_of_mems (mems_doSampleConfig ..) hs
  | fwChunk => cases h; with_reducible apply ok_doFwChunk; exact hs
  | fwStatus => cases h; exact memOk_of_mems (mems_doFwStatus ..) hs
  | fwActivate => cases h; exact memOk_of_mems (mems_doFwActivate ..) hs
  | fwAbort => cases h; exact memOk_of_mems (mems_doFwAbort ..) hs
  | attestQuote => cases h; with_reducible apply ok_doAttestQuote; exact hs
  | measureLog => cases h; with_reducible apply ok_doMeasureLog; exact hs
  | dumpConfig => cases h; exact memOk_of_mems (mems_doDumpConfig ..) hs
  | tilthRead => cases h; exact memOk_of_mems (mems_doTilthRead ..) hs
  | commandFetch => cases h; with_reducible apply ok_doCommandFetch; exact hs
  | completionWrite => cases h; with_reducible apply ok_doCompletionWrite; exact hs
  | interruptTimeExpire => cases h; exact memOk_of_mems (mems_doInterruptTimeExpire ..) hs
  | commandRingDoorbell => cases h; exact memOk_of_mems (mems_doCommandRingDoorbell ..) hs
  | adminDoorbell => cases h; exact memOk_of_mems (mems_onBar _ _ (fun _ => mems_doAdminDoorbell ..) _) hs
  | pedDoorbell => cases h; exact memOk_of_mems (mems_doPedDoorbell ..) hs
  | adminRingEnable => cases h; exact memOk_of_mems (mems_onBar _ _ (fun _ => mems_doAdminRingEnable ..) _) hs
  | adminRingDisable => cases h; exact memOk_of_mems (mems_onBar _ _ (fun _ => mems_doAdminRingDisable ..) _) hs
  | ringTableWrite => cases h; exact memOk_of_mems (mems_onBar _ _ (fun _ => mems_doRingTableWrite ..) _) hs
  | fnAperWrite => cases h; exact memOk_of_mems (mems_onBar _ _ (fun _ => mems_doFnAperWrite ..) _) hs
  | bar4Access => cases h; exact memOk_of_mems (mems_doBar4Access ..) hs
  | busMasterDisable => cases h; exact memOk_of_mems (mems_doBusMasterDisable ..) hs
  | busMasterEnable => cases h; exact memOk_of_mems (mems_doBusMasterEnable ..) hs
  | portReset => cases h; with_reducible apply ok_doPortReset; exact hs
  | perstDeassert => cases h; exact memOk_of_mems (mems_doPerstDeassert ..) hs
  | hostLinkDownTimeout => cases h; with_reducible apply ok_doHostLinkDownTimeout; exact hs
  | pfFlr => cases h; with_reducible apply ok_doPfFlr; exact hs
  | vfFlr => cases h; with_reducible apply ok_doVfFlr; exact hs
  | hubPkgrstPair => cases h; exact ok_doGuardedPair _ _ _ _ hs
  | pkgrstRequestLapse => cases h; exact memOk_of_mems (mems_doPkgrstRequestLapse ..) hs
  | pkgrstPin => cases h; with_reducible apply ok_doPkgrstPin; exact hs
  | segmentStart => cases h; with_reducible apply ok_doSegmentStart; exact hs
  | segmentEnd => cases h; with_reducible apply ok_doSegmentEnd; exact hs
  | segmentWatchdog => cases h; exact memOk_of_mems (mems_doSegmentWatchdog ..) hs
  | deepSaveDone => cases h; with_reducible apply ok_doDeepSaveDone; exact hs
  | deepRestoreDone => cases h; with_reducible apply ok_doDeepRestoreDone; exact hs
  | fabricDrainEnd => cases h; exact memOk_of_mems (mems_doFabricDrainEnd ..) hs
  | diePark => cases h; exact memOk_of_mems (mems_doDiePark ..) hs
  | grainPllLock => cases h; exact memOk_of_mems (mems_doGrainPllLock ..) hs
  | hubTransferStart => cases h; exact memOk_of_mems (mems_doHubTransferStart ..) hs
  | hubTransferComplete => cases h; with_reducible apply ok_doHubTransferComplete; exact hs
  | descriptorBurstArrive => cases h; exact memOk_of_mems (mems_doDescriptorBurstArrive ..) hs
  | notbeforeReached => cases h; exact memOk_of_mems (mems_doNotbeforeReached ..) hs
  | descriptorComplete => cases h; with_reducible apply ok_doComplete; exact hs
  | arrPass => cases h; with_reducible apply ok_doArrPass; exact hs
  | arrConv => cases h; with_reducible apply ok_doArrConv; exact hs
  | arrLoadw => cases h; exact memOk_of_mems (mems_doArrLoadw ..) hs
  | mv => cases h; exact memOk_of_mems (mems_doMv ..) hs
  | vec => cases h; with_reducible apply ok_doVec; exact hs
  | vecDeriv => cases h; with_reducible apply ok_doVecDeriv; exact hs
  | rngFill => cases h; with_reducible apply ok_doRngFill; exact hs
  | dmaGet => cases h; with_reducible apply ok_doDmaGet; exact hs
  | dmaPut => cases h; with_reducible apply ok_doDmaPut; exact hs
  | dmaPutFlush => cases h; with_reducible apply ok_doDmaPutFlush; exact hs
  | winPut => cases h; with_reducible apply ok_doWinPut; exact hs
  | winGet => cases h; with_reducible apply ok_doWinGet; exact hs
  | sieveGather => cases h; with_reducible apply ok_doSieveGather; exact hs
  | sieveScatterAdd => cases h; with_reducible apply ok_doSieveScatterAdd; exact hs
  | sieveScatterApply => cases h; with_reducible apply ok_doSieveScatterApply; exact hs
  | redPost => cases h; with_reducible apply ok_doRedPostThen; exact hs
  | redWait => cases h; with_reducible apply ok_doRedWaitThen; exact hs
  | barrier => cases h; exact memOk_of_mems (mems_doBarrier ..) hs
  | semWait => cases h; exact memOk_of_mems (mems_doSemWait ..) hs
  | semSignal => cases h; exact memOk_of_mems (mems_doSemSignal ..) hs
  | deadline => cases h; exact memOk_of_mems (mems_doDeadline ..) hs
  | deadlineDue => cases h; with_reducible apply ok_doDeadlineDue; exact hs
  | deadlineRung2Cutoff => cases h; with_reducible apply ok_doDeadlineRung2Cutoff; exact hs
  | deadlineRung3Cutoff => cases h; with_reducible apply ok_doDeadlineRung3Cutoff; exact hs
  | clodBegin => cases h; exact memOk_of_mems (mems_doClodBegin ..) hs
  | clodCommit => cases h; exact memOk_of_mems (mems_doClodCommit ..) hs
  | clodDecision => cases h; with_reducible apply ok_doClodDecision; exact hs
  | clodDecisionApply => cases h; with_reducible apply ok_doClodDecisionApply; exact hs
  | clodAbort => cases h; exact memOk_of_mems (mems_doClodAbort ..) hs
  | specBegin => cases h; exact memOk_of_mems (mems_doSpecBegin ..) hs
  | specResolve => cases h; with_reducible apply ok_doSpecResolve; exact hs
  | route => cases h; with_reducible apply ok_doRoute; exact hs
  | secureMark => cases h; exact memOk_of_mems (mems_doSecureMark ..) hs
  | pmcMark => cases h; with_reducible apply ok_doPmcMark; exact hs
  | ballast => cases h; exact memOk_of_mems (mems_doBallast ..) hs
  | endOp => cases h; with_reducible apply ok_doEndOp; exact hs
  | arrayIdle => cases h; exact memOk_of_mems (mems_doArrayIdle ..) hs
  | ballastGapExpire => cases h; exact memOk_of_mems (mems_doBallastGapExpire ..) hs
  | arrayChecksumFault => cases h; exact memOk_of_mems (mems_doArrayChecksumFault ..) hs
  | mvRowCheckFault => cases h; exact memOk_of_mems (mems_doMvRowCheckFault ..) hs
  | vectorCheckFault => cases h; exact memOk_of_mems (mems_doVectorCheckFault ..) hs
  | spareCheckDone => cases h; exact memOk_of_mems (mems_doSpareCheckDone ..) hs
  | patrolScrubSlot => cases h; exact memOk_of_mems (mems_doPatrolScrubSlot ..) hs
  | cacheFillDone => cases h; exact memOk_of_mems (mems_doCacheFillDone ..) hs
  | tagGrant => cases h; with_reducible apply ok_doTagGrant; exact hs
  | horizonResponse => cases h; with_reducible apply ok_doHorizonResponse; exact hs
  | calibrationWindowStart => cases h; exact memOk_of_mems (mems_doCalibrationWindowStart ..) hs
  | calibrationWindowEnd => cases h; exact memOk_of_mems (mems_doCalibrationWindowEnd ..) hs
  | migrationCopyDone => cases h; with_reducible apply ok_doMigrationCopyDone; exact hs
  | promotionCopyDone => cases h; with_reducible apply ok_doPromotionCopyDone; exact hs
  | nvmeCompletion => cases h; with_reducible apply ok_doNvmeCompletion; exact hs
  | driveFailed => cases h; with_reducible apply ok_doDriveFailed; exact hs
  | ddr5ChannelFailed => cases h; exact memOk_of_mems (mems_doDdr5ChannelFailed ..) hs
  | sieveRowArrive => cases h; with_reducible apply ok_doSieveRowArrive; exact hs
  | dlogMergeGranuleDone => cases h; with_reducible apply ok_doDlogMergeGranuleDone; exact hs
  | lnkPortEnable => cases h; exact ok_linksChanged _ (memOk_of_mems (mems_onBar _ _ (fun _ => mems_doLnkPortEnable ..) _) hs)
  | portTrained => cases h; exact memOk_of_mems (mems_doPortTrained ..) hs
  | identReceived => cases h; refine memOk_of_mems ((mems_doIdentReceived ..).trans ?_) hs; split <;> simp
  | flitReceive => cases h; with_reducible apply ok_doFlitReceive; exact hs
  | nakReceived => cases h; exact ok_linksChanged _ (memOk_of_mems (mems_doNakReceived ..) hs)
  | portRetrainDone => cases h; exact memOk_of_mems (mems_doPortRetrainDone ..) hs
  | portLeaveUp => cases h; exact ok_linksChanged _ (memOk_of_mems (mems_doPortLeaveUp ..) hs)
  | windowAccessArrive => cases h; exact memOk_of_mems (mems_doWindowAccessArrive ..) hs
  | windowResponseArrive => cases h; with_reducible apply ok_doWindowResponseArrive; exact hs
  | remoteTimeout => cases h; with_reducible apply ok_doRemoteTimeout; exact hs
  | reductionFlitArrive => cases h; with_reducible apply ok_doRedFlitThen; exact hs
  | bucketTimeout => cases h; with_reducible apply ok_doBucketTimeout; exact hs
  | bucketFailureNotice => cases h; with_reducible apply ok_doBucketFailureNotice; exact hs
  | bucketHoldNotice => cases h; exact memOk_of_mems (mems_doBucketHoldNotice ..) hs
  | bucketResumeNotice => cases h; with_reducible apply ok_doBucketResumeNotice; exact hs
  | lnkTorusWrite => cases h; exact memOk_of_mems (mems_onBar _ _ (fun _ => mems_doLnkTorusWrite ..) _) hs
  | lnkRouteWrite => cases h; exact ok_linksChanged _ (memOk_of_mems (mems_onBar _ _ (fun _ => mems_doLnkRouteWrite ..) _) hs)
  | lnkCreditWrite => cases h; exact memOk_of_mems (mems_onBar _ _ (fun _ => mems_doLnkCreditWrite ..) _) hs
  | riskExchangeResult => cases h; exact memOk_of_mems (mems_doRiskExchangeResult ..) hs
  | securePointComplete => cases h; with_reducible apply ok_doSecurePointComplete; exact hs
  | securePointFail => cases h; with_reducible apply ok_doSecurePointFail; exact hs
  | tilthPeriod => cases h; exact memOk_of_mems (mems_doTilthPeriod ..) hs
  | clockSlewDone => cases h; exact memOk_of_mems (mems_doClockSlewDone ..) hs
  | errRingTailWrite => cases h; exact memOk_of_mems (mems_onBar _ _ (fun _ => mems_doErrRingTailWrite ..) _) hs
  | errFatalClear => cases h; exact memOk_of_mems (mems_onBar _ _ (fun _ => mems_doErrFatalClear ..) _) hs
  | fatalError => cases h; with_reducible apply ok_doFatalError; exact hs
  | lockstepMismatch => cases h; exact memOk_of_mems (mems_doLockstepMismatch ..) hs
  | hubLogicMismatch => cases h; exact memOk_of_mems (mems_doHubLogicMismatch ..) hs
  | aoTick => cases h; exact memOk_of_mems (mems_doAoTick ..) hs
  | helperEraseDone => cases h; exact memOk_of_mems (mems_doHelperEraseDone ..) hs
  | powerSample => cases h; exact memOk_of_mems (mems_doPowerSample ..) hs
  | throttleSaturationTimeout => cases h; exact memOk_of_mems (mems_doThrottleSaturationTimeout ..) hs
  | boundaryHoldAdjust => cases h; exact memOk_of_mems (mems_doBoundaryHoldAdjust ..) hs
  | ped1Prewake => cases h; exact memOk_of_mems (mems_doPed1Prewake ..) hs
  | avsbusTimeout => cases h; exact memOk_of_mems (mems_doAvsbusTimeout ..) hs
  | powerOn => cases h; with_reducible apply ok_doPowerOn; exact hs
  | mainEnAssert => cases h; with_reducible apply ok_doMainEnAssert; exact hs
  | mainEnDeassert => cases h; with_reducible apply ok_doMainEnDeassert; exact hs
  | coldStart => cases h; with_reducible apply ok_doColdStart; exact hs
  | firmwareLoadDone => cases h; exact memOk_of_mems (mems_doFirmwareLoadDone ..) hs
  | dieBringupDone => cases h; exact memOk_of_mems (mems_doDieBringupDone ..) hs
  | configRecordSelect => cases h; exact memOk_of_mems (mems_doConfigRecordSelect ..) hs
  | hbmTrainingDone => cases h; exact memOk_of_mems (mems_doHbmTrainingDone ..) hs
  | ddr5TrainingDone => cases h; exact memOk_of_mems (mems_doDdr5TrainingDone ..) hs
  | nvmeEnumDone => cases h; exact memOk_of_mems (mems_doNvmeEnumDone ..) hs
  | startupSelftestDone => cases h; exact memOk_of_mems (mems_doStartupSelftestDone ..) hs
  | enabledMapBuild => cases h; with_reducible apply ok_doEnabledMapBuild; exact hs
  | configRecordWrite => cases h; exact memOk_of_mems (mems_doConfigRecordWrite ..) hs
  | trialBootTimeout => cases h; with_reducible apply ok_doTrialBootTimeout; exact hs
  | backgroundTestPiece => cases h; exact memOk_of_mems (mems_doBackgroundTestPiece ..) hs
  | backgroundPieceDone => cases h; with_reducible apply ok_doBackgroundPieceDone; exact hs
  | intrusiveTestDone => cases h; with_reducible apply ok_doIntrusiveTestDone; exact hs
  | calibrationDone => cases h; exact memOk_of_mems (mems_doCalibrationDone ..) hs
  | snapshotStamp => cases h; exact memOk_of_mems (mems_doSnapshotStamp ..) hs
  | snapshotWriteDone => cases h; with_reducible apply ok_doSnapshotWriteDone; exact hs
  | fwVerifyDone => cases h; with_reducible apply ok_doFwVerifyDone; exact hs
  | fwLoadDone => cases h; exact memOk_of_mems (mems_doFwLoadDone ..) hs
  | fwHandoverDone => cases h; exact memOk_of_mems (mems_doFwHandoverDone ..) hs
  | fwSwitchStamp => cases h; exact memOk_of_mems (mems_doFwSwitchStamp ..) hs
  | fwCommit => cases h; exact memOk_of_mems (mems_doFwCommit ..) hs
  | fwActivateDeadline => cases h; exact memOk_of_mems (mems_doFwActivateDeadline ..) hs
  | fwRevertDone => cases h; exact memOk_of_mems (mems_doFwRevertDone ..) hs
  | fwStandbyReady => cases h; exact memOk_of_mems (mems_doFwStandbyReady ..) hs
  | debugUnlock => cases h; exact memOk_of_mems (mems_doDebugUnlock ..) hs
  | getVersion => cases h; exact memOk_of_mems (mems_doGetVersion ..) hs
  | getCapabilities => cases h; exact memOk_of_mems (mems_doGetCapabilities ..) hs
  | negotiateAlgorithms => cases h; exact memOk_of_mems (mems_doNegotiateAlgorithms ..) hs
  | getDigests => cases h; exact memOk_of_mems (mems_doGetDigests ..) hs
  | getCertificate => cases h; exact memOk_of_mems (mems_doGetCertificate ..) hs
  | challenge => cases h; exact memOk_of_mems (mems_doChallenge ..) hs
  | getMeasurements => cases h; exact memOk_of_mems (mems_doGetMeasurements ..) hs
  | spdmUnsupportedRequest => cases h; exact memOk_of_mems (mems_doSpdmUnsupportedRequest ..) hs
  | guardedWriteA => cases h; exact memOk_of_mems (mems_doGuardedWriteA ..) hs
  | guardedWindowExpire => cases h; exact memOk_of_mems (mems_doGuardedWindowExpire ..) hs
  | pwrLimitPair => cases h; exact memOk_of_mems (mems_guardedPair _ _ _ _ (by decide)) hs
  | pwrClkctlPair => cases h; exact memOk_of_mems (mems_guardedPair _ _ _ _ (by decide)) hs
  | secAlarmPair => cases h; exact memOk_of_mems (mems_guardedPair _ _ _ _ (by decide)) hs
  | secAlarmClear => cases h; exact memOk_of_mems (mems_guardedPair _ _ _ _ (by decide)) hs
  | secEraseVolatile => cases h; exact memOk_of_mems (mems_guardedPair _ _ _ _ (by decide)) hs
  | secEraseHelper => cases h; exact memOk_of_mems (mems_guardedPair _ _ _ _ (by decide)) hs
  | secSlotPair => cases h; exact memOk_of_mems (mems_guardedPair _ _ _ _ (by decide)) hs
  | secTestPair => cases h; exact memOk_of_mems (mems_guardedPair _ _ _ _ (by decide)) hs
  | secScrubPair => cases h; exact memOk_of_mems (mems_guardedPair _ _ _ _ (by decide)) hs
  | hubNumctlWrite => cases h; exact memOk_of_mems (mems_onBar _ _ (fun _ => mems_doHubNumctlWrite ..) _) hs
  | hubNumringWrite => cases h; exact memOk_of_mems (mems_onBar _ _ (fun _ => mems_doHubNumringWrite ..) _) hs
  | hubSpecWrite => cases h; exact memOk_of_mems (mems_onBar _ _ (fun _ => mems_doHubSpecWrite ..) _) hs
  | pwrBallastWrite => cases h; exact memOk_of_mems (mems_onBar _ _ (fun _ => mems_doPwrBallastWrite ..) _) hs
  | pwrCtlWrite => cases h; exact memOk_of_mems (mems_onBar _ _ (fun _ => mems_doPwrCtlWrite ..) _) hs
  | errTilthWWrite => cases h; exact memOk_of_mems (mems_onBar _ _ (fun _ => mems_doErrTilthWWrite ..) _) hs
  | pmcSmpTailWrite => cases h; exact memOk_of_mems (mems_onBar _ _ (fun _ => mems_doPmcSmpTailWrite ..) _) hs
  | registerWrite => cases h; with_reducible apply ok_doRegisterWrite; exact hs
  | registerReadLatch => cases h; exact memOk_of_mems (mems_doRegisterReadLatch ..) hs
  | hostLinkUp => cases h; exact memOk_of_mems (mems_doHostLinkUp ..) hs
  | hostLinkDown => cases h; exact memOk_of_mems (mems_doHostLinkDown ..) hs
  | portReadyAgain => cases h; exact memOk_of_mems (mems_doPortReadyAgain ..) hs
  | pkgrstOtherPortNoLink => cases h; with_reducible apply ok_doPkgrstOtherPortNoLink; exact hs
  | identTimeout => cases h; exact memOk_of_mems (mems_doIdentTimeout ..) hs

end Sys2Proof.Machine
end

