-- ==== Sys2Proof/Laws/Moves.lean ====
section
/-! SUPPORT. Everything that a step can do to the clocks (R325, R391, R393, R405, R487), once and for every command, and
what no step moves: the factory parts, the certificate chain and the rest of the queue. -/

namespace Sys2Proof.Machine

open Sys2Proof

/-- The clock of the package after its dies have gone into reset. -/
def coldClk (c : Clk) : Clk := { c with pccRun := false, pcc := 0, wallUs := 0 }

/-- What the always-on domain's own work leaves alone. -/
def sameMain (c d : Clk) : Prop :=
  d.vstby = c.vstby ∧ d.mainEn = c.mainEn ∧ d.pccRun = c.pccRun ∧ d.pcc = c.pcc ∧ d.wallUs = c.wallUs

/-- Every way in which a step moves the clocks. -/
inductive ClkMove (c : Clk) : Clk → Prop where
  | ao (d : Clk) (h : sameMain c d) : ClkMove c d
  | cold (hv : c.vstby = true) (hm : c.mainEn = true) : ClkMove c (coldClk c)
  | power : ClkMove c { Clk.reset with vstby := true }
  | mainOn (hv : c.vstby = true) : ClkMove c (coldClk { c with mainEn := true })
  | mainOff : ClkMove c (coldClk { c with mainEn := false })
  | release (hm : c.mainEn = true) (hp : c.pccRun = false) : ClkMove c { c with pccRun := true, pcc := 0 }
  | gc (us : Rat) (hp : c.pccRun = true) : ClkMove c { c with pcc := c.pcc + 1, wallUs := c.wallUs + us }

/-- What no step moves. -/
def sameRest (s t : State) : Prop := t.kept.2 = s.kept.2

theorem ClkMove.same (c : Clk) : ClkMove c c := .ao c ⟨rfl, rfl, rfl, rfl, rfl⟩

/-- A step's effect on the clocks and on what no step moves. -/
def Moves (s t : State) : Prop := ClkMove s.clk t.clk ∧ sameRest s t

theorem moves_of_kept {s t : State} (h : t.kept = s.kept) : Moves s t := by
  refine ⟨?_, congrArg Prod.snd h⟩
  rw [show t.clk = s.clk from congrArg Prod.fst h]
  exact .same _

theorem moves_then {s t u : State} (h : Moves s t) (k : u.kept = t.kept) : Moves s u := by
  refine ⟨?_, (congrArg Prod.snd k).trans h.2⟩
  rw [show u.clk = t.clk from congrArg Prod.fst k]
  exact h.1

theorem moves_after {s t u : State} (k : t.kept = s.kept) (h : Moves t u) : Moves s u := by
  refine ⟨?_, h.2.trans (congrArg Prod.snd k)⟩
  rw [← show t.clk = s.clk from congrArg Prod.fst k]
  exact h.1

theorem moves_packageReset (s : State) : Moves s (packageReset s) := by
  unfold packageReset
  split
  · rename_i h
    simp only [Bool.and_eq_true] at h
    exact ⟨.cold h.1 h.2, rfl⟩
  · exact moves_of_kept rfl

theorem moves_powerOn (s : State) : Moves s (doPowerOn s) := by
  refine ⟨.power, ?_⟩
  unfold doPowerOn
  simp only [sameRest, State.kept]
  split <;> rfl

theorem moves_mainOn (s : State) : Moves s (doMainEnAssert s) := by
  unfold doMainEnAssert
  split
  · exact moves_of_kept rfl
  · rename_i h
    have hv : s.clk.vstby = true := by cases hh : s.clk.vstby <;> simp_all
    exact ⟨.mainOn hv, rfl⟩

theorem moves_mainOff (s : State) : Moves s (doMainEnDeassert s) := by
  unfold doMainEnDeassert
  split
  · exact moves_of_kept rfl
  · exact ⟨.mainOff, rfl⟩

theorem moves_dieBringup (b : Bool) (l : List Nat) (n : BitVec 128) (s : State) : Moves s (doDieBringupDone b l n s) := by
  unfold doDieBringupDone
  split
  · exact moves_of_kept rfl
  · rename_i h
    have hm : s.clk.mainEn = true := by cases hh : s.clk.mainEn <;> simp_all
    have hp : s.clk.pccRun = false := by cases hh : s.clk.pccRun <;> simp_all
    extract_lets dies c x p q s1
    have h1 : Moves s s1 := ⟨.release hm hp, rfl⟩
    clear_value s1
    split
    · exact moves_then h1 (kept_endCold ..)
    · split
      · exact moves_then h1 (kept_endCold ..)
      · exact moves_then h1 rfl

theorem moves_aoFailover (smp : AoSample) (s : State) :
    sameMain s.clk (aoFailover smp s).clk ∧ sameRest s (aoFailover smp s) := by
  unfold aoFailover
  extract_lets was c s1
  split
  · exact ⟨⟨rfl, rfl, rfl, rfl, rfl⟩, rfl⟩
  · have k := kept_postRec 0x18 1 none 62 0xFFFFFFFF [(0, 1, 0), (1, 1, 2)] { s1 with clk := { s1.clk with aoh1 := true } }
    have k1 := congrArg Prod.fst k
    have k2 := congrArg Prod.snd k
    refine ⟨?_, k2⟩
    change (postRec 0x18 1 none 62 0xFFFFFFFF [(0, 1, 0), (1, 1, 2)] { s1 with clk := { s1.clk with aoh1 := true } }).clk = _ at k1
    rw [k1]
    exact ⟨rfl, rfl, rfl, rfl, rfl⟩

theorem moves_aoTick (smp : AoSample) (s : State) : Moves s (doAoTick smp s) := by
  unfold doAoTick
  split
  · exact moves_of_kept rfl
  · extract_lets c s1 s2 s3 pw s3' s4 s5
    have h1 : sameMain s.clk s1.clk ∧ sameRest s s1 := ⟨⟨rfl, rfl, rfl, rfl, rfl⟩, rfl⟩
    have h2 := moves_aoFailover smp s1
    have g2 : Moves s s2 := by
      refine ⟨.ao _ ?_, h2.2.trans h1.2⟩
      obtain ⟨a, b, c, d, e⟩ := h1.1
      obtain ⟨a', b', c', d', e'⟩ := h2.1
      exact ⟨a'.trans a, b'.trans b, c'.trans c, d'.trans d, e'.trans e⟩
    have k3 : s3.kept = s2.kept := by with_reducible exact kept_foldl _ (fun _ _ => kept_takeTemp ..) _ s2
    have k3' : s3'.kept = s3.kept := rfl
    clear_value pw
    have k4 : s4.kept = s3'.kept := by
      dsimp -zeta only [s4]
      split
      · with_reducible exact kept_foldl _ (fun _ _ => kept_railOut ..) _ s3'
      · rfl
    have k5 : s5.kept = s4.kept := by
      dsimp -zeta only [s5]
      split
      · split
        · with_reducible exact kept_postRec ..
        · rfl
      · rfl
    clear_value s5
    clear_value s4
    clear_value s3'
    clear_value s3
    clear_value s2
    exact moves_then g2 ((kept_takeAlarms ..).trans (k5.trans (k4.trans (k3'.trans k3))))

theorem moves_trialBootTimeout (s : State) : Moves s (doTrialBootTimeout s) := by
  unfold doTrialBootTimeout
  split
  · exact moves_packageReset s
  · exact moves_of_kept rfl

theorem moves_fwVerifyDone (s : State) : Moves s (doFwVerifyDone s) := by
  unfold doFwVerifyDone
  split
  · split
    · extract_lets
      exact moves_of_kept ((kept_endActivate ..).trans (kept_writeDir ..))
    · split
      · exact moves_of_kept rfl
      · split
        · exact moves_after (kept_writeDir ..) (moves_packageReset _)
        · extract_lets
          exact moves_of_kept ((kept_endActivate ..).trans (kept_writeDir ..))
  · exact moves_of_kept (kept_endActivate ..)
  · exact moves_of_kept rfl

theorem kept_eraseFlag (b : Bool) (s : State) :
    (if b then { s with sec := { s.sec with erasePending := true } } else s).kept = s.kept := by
  cases b <;> rfl

theorem kept_clkctl (b : Bool) (w : W32) (s : State) :
    (noteRwp b { s with pwr := { s.pwr with clkctl := w } }).kept = s.kept :=
  (kept_noteRwp ..).trans rfl

theorem moves_gTake (rq : Requester) (g : GReg) (v : W32) (s : State) : Moves s (gTake rq g v s) := by
  unfold gTake
  split
  · extract_lets p s1
    have h1 : s1.kept = s.kept := by with_reducible exact kept_updPort ..
    clear_value s1
    split
    · exact moves_after h1 (moves_packageReset _)
    · exact moves_of_kept h1
  · exact moves_of_kept (by with_reducible rfl)
  · exact moves_of_kept (kept_clkctl ..)
  · extract_lets moved x s1
    have h1 : s1.kept = s.kept := (kept_noteRwp ..).trans (by with_reducible rfl)
    clear_value s1
    split
    · exact moves_of_kept ((kept_measureState ..).trans h1)
    · exact moves_of_kept h1
  · extract_lets s1 s2 b2 s3
    have h1 : s1.kept = s.kept := by with_reducible exact kept_rwpWrite ..
    have h2 : s2.kept = s1.kept := by with_reducible exact kept_eraseVolatile ..
    have h3 : s3.kept = s2.kept := by
      dsimp -zeta only [s3]
      clear_value s2
      split
      · with_reducible rfl
      · with_reducible rfl
    clear_value s3
    clear_value s2
    clear_value s1
    exact moves_of_kept ((kept_measureState ..).trans (h3.trans (h2.trans h1)))
  · exact moves_of_kept (by with_reducible exact (kept_writeDir ..).trans (kept_rwpWrite ..))
  · extract_lets moved
    clear_value moved
    exact moves_of_kept ((kept_noteRwp ..).trans (by with_reducible rfl))
  · extract_lets moved
    clear_value moved
    exact moves_of_kept ((kept_noteRwp ..).trans (by with_reducible rfl))

theorem moves_guardB (rq : Requester) (g : GReg) (vb : W32) (s : State) : Moves s (guardB rq g vb s) := by
  unfold guardB
  split
  · exact moves_of_kept (kept_guardFail ..)
  · split
    · exact moves_of_kept (kept_guardFail ..)
    · extract_lets s1
      have h1 : s1.kept = s.kept := kept_closePend ..
      clear_value s1
      split
      · exact moves_of_kept ((kept_guardFail ..).trans h1)
      · split
        · exact moves_of_kept ((kept_guardFail ..).trans h1)
        · exact moves_after h1 (moves_gTake ..)

theorem moves_guardedPair (g : GReg) (rq : Requester) (vb : W32) (s : State) : Moves s (doGuardedPair g rq vb s) := by
  unfold doGuardedPair onBar
  split
  · exact moves_of_kept rfl
  · exact moves_after (kept_dropHeld ..) (moves_guardB ..)

theorem moves_otherPort (p : Nat) (s : State) : Moves s (doPkgrstOtherPortNoLink p s) := by
  unfold doPkgrstOtherPortNoLink
  split
  · exact moves_of_kept rfl
  · exact moves_packageReset s

theorem moves_writeGuarded (rq : Requester) (g : GReg) (isB : Bool) (size : Nat) (val : W64) (s : State) :
    Moves s (writeGuarded rq g isB size val s) := by
  unfold writeGuarded
  extract_lets off v s1
  have h1 : s1.kept = s.kept := kept_dropHeld ..
  clear_value s1
  refine moves_after h1 ?_
  split
  · exact moves_of_kept (kept_guardFail ..)
  · split
    · exact moves_of_kept (kept_guardFail ..)
    · split
      · exact moves_guardB ..
      · exact moves_of_kept (kept_guardA ..)

theorem kept_writeAt (rq : Requester) (off size : Nat) (val : W64) (s : State) : (writeAt rq off size val s).kept = s.kept := by
  unfold writeAt
  repeat' (first
    | with_reducible rfl
    | with_reducible exact kept_writeWord ..
    | with_reducible exact (kept_writeWord ..).trans (kept_writeWord ..)
    | with_reducible exact (kept_putReg ..).trans (kept_dropHeld ..)
    | with_reducible exact kept_dropHeld ..
    | split
    | dsimp only)

theorem moves_registerWrite (rq : Requester) (off size : Nat) (val : W64) (s : State) :
    Moves s (doRegisterWrite rq off size val s) := by
  unfold doRegisterWrite
  split
  · exact moves_of_kept rfl
  · extract_lets s1
    have h1 : s1.kept = s.kept := by
      dsimp -zeta only [s1]
      split
      · rfl
      · exact kept_badAccess ..
    clear_value s1
    refine moves_after h1 ?_
    split
    · exact moves_of_kept rfl
    · split
      · split
        · exact moves_of_kept rfl
        · exact moves_writeGuarded ..
      · split
        · exact moves_of_kept (kept_writeAt ..)
        · exact moves_of_kept rfl

theorem moves_tick (s : State) : Moves s (tick s) := by
  unfold tick
  split
  · exact moves_of_kept rfl
  · rename_i h
    have hp : s.clk.pccRun = true := by cases hh : s.clk.pccRun <;> simp_all
    extract_lets s1 n us s2 charge ck pw s3
    have h1 : s1.kept = s.kept := (kept_laneStep ..).trans (kept_eccStep ..)
    have h3 : s3.kept = State.kept { s1 with clk := { s1.clk with pcc := s1.clk.pcc + 1, wallUs := s1.clk.wallUs + us } } :=
      (kept_warmStep _).trans rfl
    clear_value s1 us
    refine moves_after h1 (moves_then (t := { s1 with clk := { s1.clk with pcc := s1.clk.pcc + 1, wallUs := s1.clk.wallUs + us } })
      ⟨.gc us ?_, rfl⟩ ((kept_gateStep ..).trans h3))
    rw [show s1.clk = s.clk from congrArg Prod.fst h1]; exact hp

/-- The one way in which every command moves the clocks, and that it moves neither the queue nor the factory parts. -/
theorem moves_exec (c : Instr) (s t : State) (h : exec c s = .next t) : Moves s t := by
  cases c with
  | ping => cases h; exact moves_of_kept (kept_doPing ..)
  | ctxCreate => cases h; exact moves_of_kept (kept_doCtxCreate ..)
  | ctxDestroy => cases h; exact moves_of_kept (kept_doCtxDestroy ..)
  | ctxKill => cases h; exact moves_of_kept (kept_doCtxKill ..)
  | setShare => cases h; exact moves_of_kept (kept_doSetShare ..)
  | objAlloc => cases h; exact moves_of_kept (kept_doObjAlloc ..)
  | objFree => cases h; exact moves_of_kept (kept_doObjFree ..)
  | objPlace => cases h; exact moves_of_kept (kept_doObjPlace ..)
  | objMigrate => cases h; exact moves_of_kept (kept_doObjMigrate ..)
  | objFallback => cases h; exact moves_of_kept (kept_doObjFallback ..)
  | planLoad => cases h; exact moves_of_kept (kept_doPlanLoad ..)
  | planUnload => cases h; exact moves_of_kept (kept_doPlanUnload ..)
  | segRun => cases h; exact moves_of_kept (kept_doSegRun ..)
  | segFence => cases h; exact moves_of_kept (kept_doSegFence ..)
  | winOpen => cases h; exact moves_of_kept (kept_doWinOpen ..)
  | winClose => cases h; exact moves_of_kept (kept_doWinClose ..)
  | groupSet => cases h; exact moves_of_kept (kept_doGroupSet ..)
  | bucketPolicy => cases h; exact moves_of_kept ((kept_wakeEarly ..).trans (kept_doBucketPolicy ..))
  | secureNow => cases h; exact moves_of_kept (kept_doSecureNow ..)
  | securePolicy => cases h; exact moves_of_kept (kept_doSecurePolicy ..)
  | rollback => cases h; exact moves_of_kept (kept_doRollback ..)
  | replayStep => cases h; exact moves_of_kept (kept_doReplayStep ..)
  | digestQuery => cases h; exact moves_of_kept (kept_doDigestQuery ..)
  | strataRead => cases h; exact moves_of_kept (kept_doStrataRead ..)
  | selfTest => cases h; exact moves_of_kept (kept_doSelfTest ..)
  | calibrate => cases h; exact moves_of_kept (kept_doCalibrate ..)
  | pmcConfig => cases h; exact moves_of_kept (kept_doPmcConfig ..)
  | pmcSnapshot => cases h; exact moves_of_kept (kept_doPmcSnapshot ..)
  | sampleConfig => cases h; exact moves_of_kept (kept_doSampleConfig ..)
  | fwChunk => cases h; exact moves_of_kept (kept_doFwChunk ..)
  | fwStatus => cases h; exact moves_of_kept (kept_doFwStatus ..)
  | fwActivate => cases h; exact moves_of_kept (kept_doFwActivate ..)
  | fwAbort => cases h; exact moves_of_kept (kept_doFwAbort ..)
  | attestQuote => cases h; exact moves_of_kept (kept_doAttestQuote ..)
  | measureLog => cases h; exact moves_of_kept (kept_doMeasureLog ..)
  | dumpConfig => cases h; exact moves_of_kept (kept_doDumpConfig ..)
  | tilthRead => cases h; exact moves_of_kept (kept_doTilthRead ..)
  | commandFetch => cases h; exact moves_of_kept (kept_doCommandFetch ..)
  | completionWrite => cases h; exact moves_of_kept (kept_doCompletionWrite ..)
  | interruptTimeExpire => cases h; exact moves_of_kept (kept_doInterruptTimeExpire ..)
  | commandRingDoorbell => cases h; exact moves_of_kept (kept_doCommandRingDoorbell ..)
  | adminDoorbell => cases h; exact moves_of_kept (kept_onBar _ _ (fun _ => kept_doAdminDoorbell ..) _)
  | pedDoorbell => cases h; exact moves_of_kept (kept_doPedDoorbell ..)
  | adminRingEnable => cases h; exact moves_of_kept (kept_onBar _ _ (fun _ => kept_doAdminRingEnable ..) _)
  | adminRingDisable => cases h; exact moves_of_kept (kept_onBar _ _ (fun _ => kept_doAdminRingDisable ..) _)
  | ringTableWrite => cases h; exact moves_of_kept (kept_onBar _ _ (fun _ => kept_doRingTableWrite ..) _)
  | fnAperWrite => cases h; exact moves_of_kept (kept_onBar _ _ (fun _ => kept_doFnAperWrite ..) _)
  | bar4Access => cases h; exact moves_of_kept (kept_doBar4Access ..)
  | busMasterDisable => cases h; exact moves_of_kept (kept_doBusMasterDisable ..)
  | busMasterEnable => cases h; exact moves_of_kept (kept_doBusMasterEnable ..)
  | portReset => cases h; exact moves_of_kept (kept_doPortReset ..)
  | perstDeassert => cases h; exact moves_of_kept (kept_doPerstDeassert ..)
  | hostLinkDownTimeout => cases h; exact moves_of_kept (kept_doHostLinkDownTimeout ..)
  | pfFlr => cases h; exact moves_of_kept (kept_doPfFlr ..)
  | vfFlr => cases h; exact moves_of_kept (kept_doVfFlr ..)
  | hubPkgrstPair => cases h; exact moves_guardedPair ..
  | pkgrstRequestLapse => cases h; exact moves_of_kept (kept_doPkgrstRequestLapse ..)
  | pkgrstPin => cases h; exact moves_packageReset ..
  | segmentStart => cases h; exact moves_of_kept (kept_doSegmentStart ..)
  | segmentEnd => cases h; exact moves_of_kept (kept_doSegmentEnd ..)
  | segmentWatchdog => cases h; exact moves_of_kept (kept_doSegmentWatchdog ..)
  | deepSaveDone => cases h; exact moves_of_kept (kept_doDeepSaveDone ..)
  | deepRestoreDone => cases h; exact moves_of_kept (kept_doDeepRestoreDone ..)
  | fabricDrainEnd => cases h; exact moves_of_kept (kept_doFabricDrainEnd ..)
  | diePark => cases h; exact moves_of_kept (kept_doDiePark ..)
  | grainPllLock => cases h; exact moves_of_kept (kept_doGrainPllLock ..)
  | hubTransferStart => cases h; exact moves_of_kept (kept_doHubTransferStart ..)
  | hubTransferComplete => cases h; exact moves_of_kept (kept_doHubTransferComplete ..)
  | descriptorBurstArrive => cases h; exact moves_of_kept (kept_doDescriptorBurstArrive ..)
  | notbeforeReached => cases h; exact moves_of_kept (kept_doNotbeforeReached ..)
  | descriptorComplete => cases h; exact moves_of_kept (kept_doComplete ..)
  | arrPass => cases h; exact moves_of_kept (kept_doArrPass ..)
  | arrConv => cases h; exact moves_of_kept (kept_doArrConv ..)
  | arrLoadw => cases h; exact moves_of_kept (kept_doArrLoadw ..)
  | mv => cases h; exact moves_of_kept (kept_doMv ..)
  | vec => cases h; exact moves_of_kept (kept_doVec ..)
  | vecDeriv => cases h; exact moves_of_kept (kept_doVecDeriv ..)
  | rngFill => cases h; exact moves_of_kept (kept_doRngFill ..)
  | dmaGet => cases h; exact moves_of_kept (kept_doDmaGet ..)
  | dmaPut => cases h; exact moves_of_kept (kept_doDmaPut ..)
  | dmaPutFlush => cases h; exact moves_of_kept (kept_doDmaPutFlush ..)
  | winPut => cases h; exact moves_of_kept (kept_doWinPut ..)
  | winGet => cases h; exact moves_of_kept (kept_doWinGet ..)
  | sieveGather => cases h; exact moves_of_kept (kept_doSieveGather ..)
  | sieveScatterAdd => cases h; exact moves_of_kept (kept_doSieveScatterAdd ..)
  | sieveScatterApply => cases h; exact moves_of_kept (kept_doSieveScatterApply ..)
  | redPost => cases h; exact moves_of_kept (kept_doRedPostThen ..)
  | redWait => cases h; exact moves_of_kept (kept_doRedWaitThen ..)
  | barrier => cases h; exact moves_of_kept (kept_doBarrier ..)
  | semWait => cases h; exact moves_of_kept (kept_doSemWait ..)
  | semSignal => cases h; exact moves_of_kept (kept_doSemSignal ..)
  | deadline => cases h; exact moves_of_kept (kept_doDeadline ..)
  | deadlineDue => cases h; exact moves_of_kept (kept_doDeadlineDue ..)
  | deadlineRung2Cutoff => cases h; exact moves_of_kept (kept_doDeadlineRung2Cutoff ..)
  | deadlineRung3Cutoff => cases h; exact moves_of_kept (kept_doDeadlineRung3Cutoff ..)
  | clodBegin => cases h; exact moves_of_kept (kept_doClodBegin ..)
  | clodCommit => cases h; exact moves_of_kept (kept_doClodCommit ..)
  | clodDecision => cases h; exact moves_of_kept (kept_doClodDecision ..)
  | clodDecisionApply => cases h; exact moves_of_kept (kept_doClodDecisionApply ..)
  | clodAbort => cases h; exact moves_of_kept (kept_doClodAbort ..)
  | specBegin => cases h; exact moves_of_kept (kept_doSpecBegin ..)
  | specResolve => cases h; exact moves_of_kept (kept_doSpecResolve ..)
  | route => cases h; exact moves_of_kept (kept_doRoute ..)
  | secureMark => cases h; exact moves_of_kept (kept_doSecureMark ..)
  | pmcMark => cases h; exact moves_of_kept (kept_doPmcMark ..)
  | ballast => cases h; exact moves_of_kept (kept_doBallast ..)
  | endOp => cases h; exact moves_of_kept (kept_doEndOp ..)
  | arrayIdle => cases h; exact moves_of_kept (kept_doArrayIdle ..)
  | ballastGapExpire => cases h; exact moves_of_kept (kept_doBallastGapExpire ..)
  | arrayChecksumFault => cases h; exact moves_of_kept (kept_doArrayChecksumFault ..)
  | mvRowCheckFault => cases h; exact moves_of_kept (kept_doMvRowCheckFault ..)
  | vectorCheckFault => cases h; exact moves_of_kept (kept_doVectorCheckFault ..)
  | spareCheckDone => cases h; exact moves_of_kept (kept_doSpareCheckDone ..)
  | patrolScrubSlot => cases h; exact moves_of_kept (kept_doPatrolScrubSlot ..)
  | cacheFillDone => cases h; exact moves_of_kept (kept_doCacheFillDone ..)
  | tagGrant => cases h; exact moves_of_kept (kept_doTagGrant ..)
  | horizonResponse => cases h; exact moves_of_kept (kept_doHorizonResponse ..)
  | calibrationWindowStart => cases h; exact moves_of_kept (kept_doCalibrationWindowStart ..)
  | calibrationWindowEnd => cases h; exact moves_of_kept (kept_doCalibrationWindowEnd ..)
  | migrationCopyDone => cases h; exact moves_of_kept (kept_doMigrationCopyDone ..)
  | promotionCopyDone => cases h; exact moves_of_kept (kept_doPromotionCopyDone ..)
  | nvmeCompletion => cases h; exact moves_of_kept (kept_doNvmeCompletion ..)
  | driveFailed => cases h; exact moves_of_kept (kept_doDriveFailed ..)
  | ddr5ChannelFailed => cases h; exact moves_of_kept (kept_doDdr5ChannelFailed ..)
  | sieveRowArrive => cases h; exact moves_of_kept (kept_doSieveRowArrive ..)
  | dlogMergeGranuleDone => cases h; exact moves_of_kept (kept_doDlogMergeGranuleDone ..)
  | lnkPortEnable => cases h; exact moves_of_kept ((kept_linksChanged ..).trans (kept_onBar _ _ (fun _ => kept_doLnkPortEnable ..) _))
  | portTrained => cases h; exact moves_of_kept (kept_doPortTrained ..)
  | identReceived => cases h; exact moves_of_kept ((kept_doIdentReceived ..).trans (by split; exacts [kept_updFport .., rfl]))
  | flitReceive => cases h; exact moves_of_kept (kept_doFlitReceive ..)
  | nakReceived => cases h; exact moves_of_kept ((kept_linksChanged ..).trans (kept_doNakReceived ..))
  | portRetrainDone => cases h; exact moves_of_kept (kept_doPortRetrainDone ..)
  | portLeaveUp => cases h; exact moves_of_kept ((kept_linksChanged ..).trans (kept_doPortLeaveUp ..))
  | windowAccessArrive => cases h; exact moves_of_kept (kept_doWindowAccessArrive ..)
  | windowResponseArrive => cases h; exact moves_of_kept (kept_doWindowResponseArrive ..)
  | remoteTimeout => cases h; exact moves_of_kept (kept_doRemoteTimeout ..)
  | reductionFlitArrive => cases h; exact moves_of_kept (kept_doRedFlitThen ..)
  | bucketTimeout => cases h; exact moves_of_kept (kept_doBucketTimeout ..)
  | bucketFailureNotice => cases h; exact moves_of_kept (kept_doBucketFailureNotice ..)
  | bucketHoldNotice => cases h; exact moves_of_kept (kept_doBucketHoldNotice ..)
  | bucketResumeNotice => cases h; exact moves_of_kept (kept_doBucketResumeNotice ..)
  | lnkTorusWrite => cases h; exact moves_of_kept (kept_onBar _ _ (fun _ => kept_doLnkTorusWrite ..) _)
  | lnkRouteWrite => cases h; exact moves_of_kept ((kept_linksChanged ..).trans (kept_onBar _ _ (fun _ => kept_doLnkRouteWrite ..) _))
  | lnkCreditWrite => cases h; exact moves_of_kept (kept_onBar _ _ (fun _ => kept_doLnkCreditWrite ..) _)
  | riskExchangeResult => cases h; exact moves_of_kept (kept_doRiskExchangeResult ..)
  | securePointComplete => cases h; exact moves_of_kept (kept_doSecurePointComplete ..)
  | securePointFail => cases h; exact moves_of_kept (kept_doSecurePointFail ..)
  | tilthPeriod => cases h; exact moves_of_kept (kept_doTilthPeriod ..)
  | clockSlewDone => cases h; exact moves_of_kept (kept_doClockSlewDone ..)
  | errRingTailWrite => cases h; exact moves_of_kept (kept_onBar _ _ (fun _ => kept_doErrRingTailWrite ..) _)
  | errFatalClear => cases h; exact moves_of_kept (kept_onBar _ _ (fun _ => kept_doErrFatalClear ..) _)
  | fatalError => cases h; exact moves_of_kept (kept_doFatalError ..)
  | lockstepMismatch => cases h; exact moves_of_kept (kept_doLockstepMismatch ..)
  | hubLogicMismatch => cases h; exact moves_of_kept (kept_doHubLogicMismatch ..)
  | aoTick => cases h; exact moves_aoTick ..
  | helperEraseDone => cases h; exact moves_of_kept (kept_doHelperEraseDone ..)
  | powerSample => cases h; exact moves_of_kept (kept_doPowerSample ..)
  | throttleSaturationTimeout => cases h; exact moves_of_kept (kept_doThrottleSaturationTimeout ..)
  | boundaryHoldAdjust => cases h; exact moves_of_kept (kept_doBoundaryHoldAdjust ..)
  | ped1Prewake => cases h; exact moves_of_kept (kept_doPed1Prewake ..)
  | avsbusTimeout => cases h; exact moves_of_kept (kept_doAvsbusTimeout ..)
  | powerOn => cases h; exact moves_powerOn ..
  | mainEnAssert => cases h; exact moves_mainOn ..
  | mainEnDeassert => cases h; exact moves_mainOff ..
  | coldStart => cases h; exact moves_packageReset ..
  | firmwareLoadDone => cases h; exact moves_of_kept (kept_doFirmwareLoadDone ..)
  | dieBringupDone => cases h; exact moves_dieBringup ..
  | configRecordSelect => cases h; exact moves_of_kept (kept_doConfigRecordSelect ..)
  | hbmTrainingDone => cases h; exact moves_of_kept (kept_doHbmTrainingDone ..)
  | ddr5TrainingDone => cases h; exact moves_of_kept (kept_doDdr5TrainingDone ..)
  | nvmeEnumDone => cases h; exact moves_of_kept (kept_doNvmeEnumDone ..)
  | startupSelftestDone => cases h; exact moves_of_kept (kept_doStartupSelftestDone ..)
  | enabledMapBuild => cases h; exact moves_of_kept (kept_doEnabledMapBuild ..)
  | configRecordWrite => cases h; exact moves_of_kept (kept_doConfigRecordWrite ..)
  | trialBootTimeout => cases h; exact moves_trialBootTimeout ..
  | backgroundTestPiece => cases h; exact moves_of_kept (kept_doBackgroundTestPiece ..)
  | backgroundPieceDone => cases h; exact moves_of_kept (kept_doBackgroundPieceDone ..)
  | intrusiveTestDone => cases h; exact moves_of_kept (kept_doIntrusiveTestDone ..)
  | calibrationDone => cases h; exact moves_of_kept (kept_doCalibrationDone ..)
  | snapshotStamp => cases h; exact moves_of_kept (kept_doSnapshotStamp ..)
  | snapshotWriteDone => cases h; exact moves_of_kept (kept_doSnapshotWriteDone ..)
  | fwVerifyDone => cases h; exact moves_fwVerifyDone ..
  | fwLoadDone => cases h; exact moves_of_kept (kept_doFwLoadDone ..)
  | fwHandoverDone => cases h; exact moves_of_kept (kept_doFwHandoverDone ..)
  | fwSwitchStamp => cases h; exact moves_of_kept (kept_doFwSwitchStamp ..)
  | fwCommit => cases h; exact moves_of_kept (kept_doFwCommit ..)
  | fwActivateDeadline => cases h; exact moves_of_kept (kept_doFwActivateDeadline ..)
  | fwRevertDone => cases h; exact moves_of_kept (kept_doFwRevertDone ..)
  | fwStandbyReady => cases h; exact moves_of_kept (kept_doFwStandbyReady ..)
  | debugUnlock => cases h; exact moves_of_kept (kept_doDebugUnlock ..)
  | getVersion => cases h; exact moves_of_kept (kept_doGetVersion ..)
  | getCapabilities => cases h; exact moves_of_kept (kept_doGetCapabilities ..)
  | negotiateAlgorithms => cases h; exact moves_of_kept (kept_doNegotiateAlgorithms ..)
  | getDigests => cases h; exact moves_of_kept (kept_doGetDigests ..)
  | getCertificate => cases h; exact moves_of_kept (kept_doGetCertificate ..)
  | challenge => cases h; exact moves_of_kept (kept_doChallenge ..)
  | getMeasurements => cases h; exact moves_of_kept (kept_doGetMeasurements ..)
  | spdmUnsupportedRequest => cases h; exact moves_of_kept (kept_doSpdmUnsupportedRequest ..)
  | guardedWriteA => cases h; exact moves_of_kept (kept_doGuardedWriteA ..)
  | guardedWindowExpire => cases h; exact moves_of_kept (kept_doGuardedWindowExpire ..)
  | pwrLimitPair => cases h; exact moves_guardedPair ..
  | pwrClkctlPair => cases h; exact moves_guardedPair ..
  | secAlarmPair => cases h; exact moves_guardedPair ..
  | secAlarmClear => cases h; exact moves_guardedPair ..
  | secEraseVolatile => cases h; exact moves_guardedPair ..
  | secEraseHelper => cases h; exact moves_guardedPair ..
  | secSlotPair => cases h; exact moves_guardedPair ..
  | secTestPair => cases h; exact moves_guardedPair ..
  | secScrubPair => cases h; exact moves_guardedPair ..
  | hubNumctlWrite => cases h; exact moves_of_kept (kept_onBar _ _ (fun _ => kept_doHubNumctlWrite ..) _)
  | hubNumringWrite => cases h; exact moves_of_kept (kept_onBar _ _ (fun _ => kept_doHubNumringWrite ..) _)
  | hubSpecWrite => cases h; exact moves_of_kept (kept_onBar _ _ (fun _ => kept_doHubSpecWrite ..) _)
  | pwrBallastWrite => cases h; exact moves_of_kept (kept_onBar _ _ (fun _ => kept_doPwrBallastWrite ..) _)
  | pwrCtlWrite => cases h; exact moves_of_kept (kept_onBar _ _ (fun _ => kept_doPwrCtlWrite ..) _)
  | errTilthWWrite => cases h; exact moves_of_kept (kept_onBar _ _ (fun _ => kept_doErrTilthWWrite ..) _)
  | pmcSmpTailWrite => cases h; exact moves_of_kept (kept_onBar _ _ (fun _ => kept_doPmcSmpTailWrite ..) _)
  | registerWrite => cases h; exact moves_registerWrite ..
  | registerReadLatch => cases h; exact moves_of_kept (kept_doRegisterReadLatch ..)
  | hostLinkUp => cases h; exact moves_of_kept (kept_doHostLinkUp ..)
  | hostLinkDown => cases h; exact moves_of_kept (kept_doHostLinkDown ..)
  | portReadyAgain => cases h; exact moves_of_kept (kept_doPortReadyAgain ..)
  | pkgrstOtherPortNoLink => cases h; exact moves_otherPort ..
  | identTimeout => cases h; exact moves_of_kept (kept_doIdentTimeout ..)
theorem moves_step (s t : State) (h : step s = .next t) :
    ClkMove s.clk t.clk ∧ t.flash.factA = s.flash.factA ∧ t.flash.factB = s.flash.factB ∧
      t.flash.certChain = s.flash.certChain ∧ t.pending = s.pending.tail := by
  unfold step at h
  split at h
  · rename_i hp
    cases h
    have m := moves_tick s
    have r : (tick s).kept.2 = s.kept.2 := m.2
    simp only [Prod.mk.injEq] at r
    exact ⟨m.1, r.1, r.2.1, r.2.2.1, by rw [r.2.2.2, hp]; rfl⟩
  · rename_i c rest hp
    have m := moves_exec c _ t h
    have r := m.2
    simp only [sameRest, Prod.mk.injEq] at r
    exact ⟨m.1, r.1, r.2.1, r.2.2.1, by rw [r.2.2.2, hp]; rfl⟩

end Sys2Proof.Machine
end

