-- ==== Sys2Proof/Laws/Numbers.lean ====
section
/-! SUPPORT. Little-endian bytes, bit fields, powers of two and the rounding of the number formats. -/

namespace Sys2Proof.Machine

open Sys2Proof

theorem satAdd_16 (n : Nat) : satAdd 16 n 1 = min (n + 1) 65535 := rfl

theorem getD_leBytes (n : Nat) : ∀ (v i : Nat), i < n → (leBytes n v).getD i 0 = BitVec.ofNat 8 (v / 256 ^ i % 256) := by
  induction n with
  | zero => intro v i h; omega
  | succ n ih =>
    intro v i h
    cases i with
    | zero => simp [leBytes]
    | succ i =>
      simp only [leBytes, List.getD_cons_succ]
      rw [ih _ _ (by omega), Nat.div_div_eq_div_mul, Nat.pow_succ, Nat.mul_comm 256]

theorem gAddr_between (x : Nat) (h1 : 0x200 ≤ x) (h2 : x < 0x600000) : gAddr x = none := by
  unfold gAddr gRegB gRegA
  simp
  omega

theorem getLsbD_two_pow (i j : Nat) (hi : i < 64) : (BitVec.ofNat 64 (2 ^ i)).getLsbD j = decide (j = i) := by
  rw [BitVec.getLsbD_ofNat, Nat.testBit_two_pow]
  by_cases h : j = i
  · subst h; simp [hi]
  · simp [h, Ne.symm h]

theorem pow2_eq (e : Int) : pow2 e = (2 : Rat) ^ e := by
  unfold pow2
  split
  · rename_i h
    obtain ⟨n, rfl⟩ := Int.eq_ofNat_of_zero_le h
    rw [Rat.mkRat_one]
    simp
  · rename_i h
    obtain ⟨n, hn⟩ := Int.eq_ofNat_of_zero_le (show 0 ≤ -e by omega)
    have : e = -(n : Int) := by omega
    subst this
    rw [Rat.mkRat_eq_div]
    simp

theorem rne_nat (n : Nat) : rne (n : Rat) = n := by
  unfold rne
  simp [Nat.mod_one]

theorem floorLog2_eq (q : Rat) (e : Int) (h1 : (2 : Rat) ^ e ≤ q) (h2 : q < (2 : Rat) ^ (e + 1)) : floorLog2 q = e := by
  have hq : 0 < q := lt_of_lt_of_le (by positivity) h1
  have hnum : 0 < q.num := Rat.num_pos.2 hq
  have hn0 : q.num.natAbs ≠ 0 := by omega
  have hd0 : q.den ≠ 0 := q.den_nz
  have qe : q = (q.num.natAbs : Rat) / (q.den : Rat) := by
    have : (q.num : Rat) = (q.num.natAbs : Rat) := by
      rw [← Int.cast_natCast, Int.natAbs_of_nonneg (le_of_lt hnum)]
    rw [← this]; exact (Rat.num_div_den q).symm
  have a1 : ((2 : Rat) ^ (Nat.log2 q.num.natAbs : Int)) ≤ q.num.natAbs := by
    rw [zpow_natCast]; exact_mod_cast Nat.log2_self_le hn0
  have a2 : (q.num.natAbs : Rat) < (2 : Rat) ^ ((Nat.log2 q.num.natAbs : Int) + 1) := by
    rw [show ((Nat.log2 q.num.natAbs : Int) + 1) = ((Nat.log2 q.num.natAbs + 1 : Nat) : Int) by push_cast; rfl, zpow_natCast]
    exact_mod_cast Nat.lt_log2_self
  have b1 : ((2 : Rat) ^ (Nat.log2 q.den : Int)) ≤ q.den := by
    rw [zpow_natCast]; exact_mod_cast Nat.log2_self_le hd0
  have b2 : (q.den : Rat) < (2 : Rat) ^ ((Nat.log2 q.den : Int) + 1) := by
    rw [show ((Nat.log2 q.den : Int) + 1) = ((Nat.log2 q.den + 1 : Nat) : Int) by push_cast; rfl, zpow_natCast]
    exact_mod_cast Nat.lt_log2_self
  have hdp : (0 : Rat) < q.den := by exact_mod_cast Nat.pos_of_ne_zero hd0
  generalize hL : (Nat.log2 q.num.natAbs : Int) = L at *
  generalize hM : (Nat.log2 q.den : Int) = M at *
  have lo : (2 : Rat) ^ (L - M - 1) < q := by
    rw [qe, lt_div_iff₀ hdp]
    calc (2 : Rat) ^ (L - M - 1) * q.den < (2 : Rat) ^ (L - M - 1) * (2 : Rat) ^ (M + 1) := by
          apply mul_lt_mul_of_pos_left b2; positivity
      _ = (2 : Rat) ^ L := by rw [← zpow_add₀ (by norm_num)]; congr 1; ring
      _ ≤ _ := a1
  have hi : q < (2 : Rat) ^ (L - M + 1) := by
    rw [qe, div_lt_iff₀ hdp]
    calc (q.num.natAbs : Rat) < (2 : Rat) ^ (L + 1) := a2
      _ = (2 : Rat) ^ (L - M + 1) * (2 : Rat) ^ M := by rw [← zpow_add₀ (by norm_num)]; congr 1; ring
      _ ≤ _ := by apply mul_le_mul_of_nonneg_left b1; positivity
  have m1 : ∀ x y : Int, (2 : Rat) ^ x < (2 : Rat) ^ y → x < y := fun x y h => (zpow_lt_zpow_iff_right₀ (by norm_num)).1 h
  unfold floorLog2
  simp only [hL, hM]
  rw [pow2_eq]
  split
  · rename_i h
    have c1 := m1 _ _ (lt_of_le_of_lt h1 h)
    have c2 := m1 _ _ (lt_trans lo h2)
    omega
  · rename_i h
    rw [not_lt] at h
    have c1 := m1 _ _ (lt_of_le_of_lt h h2)
    have c2 := m1 _ _ (lt_of_le_of_lt h1 hi)
    omega

theorem fmt_eq (f : Nat) (h : f ≤ 10) (hi : isInt f = false) : fmtW f = expB f + mantB f + 1 ∧ 1 ≤ biasOf f ∧ 1 ≤ mantB f := by
  interval_cases f <;> first | (exact ⟨rfl, by decide, by decide⟩) | cases hi

theorem bits_lt (v lo w : Nat) : bits v lo w < 2 ^ w := Nat.mod_lt _ (by positivity)

theorem code_split (c E m : Nat) (h : c < 2 ^ (E + m + 1)) :
   c = b2n (bitAt c (E + m)) * 2 ^ (E + m) + bits c m E * 2 ^ m + c % 2 ^ m := by
  unfold bitAt bits b2n
  have h1 : c / 2 ^ (E + m) < 2 := by
    rw [Nat.div_lt_iff_lt_mul (by positivity)]; rw [pow_succ] at h; omega
  have h2 : c = 2 ^ m * (c / 2 ^ m) + c % 2 ^ m := (Nat.div_add_mod c (2 ^ m)).symm
  have h3 : c / 2 ^ m = 2 ^ E * (c / 2 ^ m / 2 ^ E) + c / 2 ^ m % 2 ^ E := (Nat.div_add_mod _ _).symm
  have h4 : c / 2 ^ m / 2 ^ E = c / 2 ^ (E + m) := by rw [Nat.div_div_eq_div_mul, pow_add, Nat.mul_comm]
  rw [h4] at h3
  have h5 : (if (c / 2 ^ (E + m) % 2 == 1) = true then 1 else 0) = c / 2 ^ (E + m) := by
    rw [Nat.mod_eq_of_lt h1]
    have : c / 2 ^ (E + m) = 0 ∨ c / 2 ^ (E + m) = 1 := by
      clear h2 h3 h4 h; generalize c / 2 ^ (E + m) = x at *; omega
    rcases this with h | h <;> rw [h] <;> rfl
  rw [h5, pow_add]
  rw [pow_add] at h3
  conv => lhs; rw [h2, h3]
  ring

theorem mkRat_nat_one (n : Nat) : mkRat (Int.ofNat n) 1 = (n : Rat) := by rw [Rat.mkRat_one]; simp

theorem slice_append (a rest : List Byte) (h : a.length = 8) : slice (a ++ rest) 0 8 = a := by
  unfold slice; simp [h]

theorem leNat_leBytes (n : Nat) : ∀ v, leNat (leBytes n v) = v % 256 ^ n := by
  induction n with
  | zero => intro v; simp [leBytes, leNat, Nat.mod_one]
  | succ n ih =>
    intro v
    simp only [leBytes, leNat, ih]
    rw [pow_succ, Nat.mul_comm (256 ^ n), Nat.mod_mul]
    simp

theorem leBytes_length (n : Nat) : ∀ v, (leBytes n v).length = n := by
  induction n with
  | zero => intro v; rfl
  | succ n ih => intro v; simp [leBytes, ih]

theorem flitTc_dataFlit (tc vl : Nat) (h p : List Byte) (htc : tc < 8) (hvl : vl < 2) : flitTc (dataFlit tc vl h p) = tc := by
  unfold flitTc dataFlit u64
  rw [show leBytes 8 (vl * 2 ^ 31 + tc * 2 ^ 28) ++ pad 20 h ++ pad 224 p ++ zeros 4 = leBytes 8 (vl * 2 ^ 31 + tc * 2 ^ 28) ++ (pad 20 h ++ pad 224 p ++ zeros 4) by simp only [List.append_assoc]]
  rw [slice_append _ _ (leBytes_length _ _), leNat_leBytes]
  unfold bits
  omega

end Sys2Proof.Machine
end

