-- ==== Sys2Proof/Laws/State.lean ====
section
/-! SUPPORT. Every update of one part of State leaves every other part as it was: one lemma for each part, so that no
proof unfolds a record. -/

namespace Sys2Proof.Machine

open Sys2Proof

/-! ### updPort -/

@[simp] theorem updPort_clk (p : Nat) (f : Port → Port) (s : State) : (updPort p f s).clk = s.clk := by unfold updPort; split <;> rfl
@[simp] theorem updPort_pwr (p : Nat) (f : Port → Port) (s : State) : (updPort p f s).pwr = s.pwr := by unfold updPort; split <;> rfl
@[simp] theorem updPort_boot (p : Nat) (f : Port → Port) (s : State) : (updPort p f s).boot = s.boot := by unfold updPort; split <;> rfl
@[simp] theorem updPort_flash (p : Nat) (f : Port → Port) (s : State) : (updPort p f s).flash = s.flash := by unfold updPort; split <;> rfl
@[simp] theorem updPort_fw (p : Nat) (f : Port → Port) (s : State) : (updPort p f s).fw = s.fw := by unfold updPort; split <;> rfl
@[simp] theorem updPort_sec (p : Nat) (f : Port → Port) (s : State) : (updPort p f s).sec = s.sec := by unfold updPort; split <;> rfl
@[simp] theorem updPort_emap (p : Nat) (f : Port → Port) (s : State) : (updPort p f s).emap = s.emap := by unfold updPort; split <;> rfl
@[simp] theorem updPort_fns (p : Nat) (f : Port → Port) (s : State) : (updPort p f s).fns = s.fns := by unfold updPort; split <;> rfl
@[simp] theorem updPort_cmds (p : Nat) (f : Port → Port) (s : State) : (updPort p f s).cmds = s.cmds := by unfold updPort; split <;> rfl
@[simp] theorem updPort_nextCid (p : Nat) (f : Port → Port) (s : State) : (updPort p f s).nextCid = s.nextCid := by unfold updPort; split <;> rfl
@[simp] theorem updPort_ctxs (p : Nat) (f : Port → Port) (s : State) : (updPort p f s).ctxs = s.ctxs := by unfold updPort; split <;> rfl
@[simp] theorem updPort_tLast (p : Nat) (f : Port → Port) (s : State) : (updPort p f s).tLast = s.tLast := by unfold updPort; split <;> rfl
@[simp] theorem updPort_segs (p : Nat) (f : Port → Port) (s : State) : (updPort p f s).segs = s.segs := by unfold updPort; split <;> rfl
@[simp] theorem updPort_grains (p : Nat) (f : Port → Port) (s : State) : (updPort p f s).grains = s.grains := by unfold updPort; split <;> rfl
@[simp] theorem updPort_phys (p : Nat) (f : Port → Port) (s : State) : (updPort p f s).phys = s.phys := by unfold updPort; split <;> rfl
@[simp] theorem updPort_ped2s (p : Nat) (f : Port → Port) (s : State) : (updPort p f s).ped2s = s.ped2s := by unfold updPort; split <;> rfl
@[simp] theorem updPort_saves (p : Nat) (f : Port → Port) (s : State) : (updPort p f s).saves = s.saves := by unfold updPort; split <;> rfl
@[simp] theorem updPort_nextSer (p : Nat) (f : Port → Port) (s : State) : (updPort p f s).nextSer = s.nextSer := by unfold updPort; split <;> rfl
@[simp] theorem updPort_hz (p : Nat) (f : Port → Port) (s : State) : (updPort p f s).hz = s.hz := by unfold updPort; split <;> rfl
@[simp] theorem updPort_sieves (p : Nat) (f : Port → Port) (s : State) : (updPort p f s).sieves = s.sieves := by unfold updPort; split <;> rfl
@[simp] theorem updPort_gathers (p : Nat) (f : Port → Port) (s : State) : (updPort p f s).gathers = s.gathers := by unfold updPort; split <;> rfl
@[simp] theorem updPort_fab (p : Nat) (f : Port → Port) (s : State) : (updPort p f s).fab = s.fab := by unfold updPort; split <;> rfl
@[simp] theorem updPort_clods (p : Nat) (f : Port → Port) (s : State) : (updPort p f s).clods = s.clods := by unfold updPort; split <;> rfl
@[simp] theorem updPort_nextClod (p : Nat) (f : Port → Port) (s : State) : (updPort p f s).nextClod = s.nextClod := by unfold updPort; split <;> rfl
@[simp] theorem updPort_err (p : Nat) (f : Port → Port) (s : State) : (updPort p f s).err = s.err := by unfold updPort; split <;> rfl
@[simp] theorem updPort_test (p : Nat) (f : Port → Port) (s : State) : (updPort p f s).test = s.test := by unfold updPort; split <;> rfl
@[simp] theorem updPort_reg (p : Nat) (f : Port → Port) (s : State) : (updPort p f s).reg = s.reg := by unfold updPort; split <;> rfl
@[simp] theorem updPort_snap (p : Nat) (f : Port → Port) (s : State) : (updPort p f s).snap = s.snap := by unfold updPort; split <;> rfl
@[simp] theorem updPort_out (p : Nat) (f : Port → Port) (s : State) : (updPort p f s).out = s.out := by unfold updPort; split <;> rfl
@[simp] theorem updPort_freeCtr (p : Nat) (f : Port → Port) (s : State) : (updPort p f s).freeCtr = s.freeCtr := by unfold updPort; split <;> rfl
@[simp] theorem updPort_pending (p : Nat) (f : Port → Port) (s : State) : (updPort p f s).pending = s.pending := by unfold updPort; split <;> rfl

/-! ### updFn -/

@[simp] theorem updFn_clk (k : Nat) (f : Fn → Fn) (s : State) : (updFn k f s).clk = s.clk := rfl
@[simp] theorem updFn_pwr (k : Nat) (f : Fn → Fn) (s : State) : (updFn k f s).pwr = s.pwr := rfl
@[simp] theorem updFn_boot (k : Nat) (f : Fn → Fn) (s : State) : (updFn k f s).boot = s.boot := rfl
@[simp] theorem updFn_flash (k : Nat) (f : Fn → Fn) (s : State) : (updFn k f s).flash = s.flash := rfl
@[simp] theorem updFn_fw (k : Nat) (f : Fn → Fn) (s : State) : (updFn k f s).fw = s.fw := rfl
@[simp] theorem updFn_sec (k : Nat) (f : Fn → Fn) (s : State) : (updFn k f s).sec = s.sec := rfl
@[simp] theorem updFn_emap (k : Nat) (f : Fn → Fn) (s : State) : (updFn k f s).emap = s.emap := rfl
@[simp] theorem updFn_port0 (k : Nat) (f : Fn → Fn) (s : State) : (updFn k f s).port0 = s.port0 := rfl
@[simp] theorem updFn_port1 (k : Nat) (f : Fn → Fn) (s : State) : (updFn k f s).port1 = s.port1 := rfl
@[simp] theorem updFn_cmds (k : Nat) (f : Fn → Fn) (s : State) : (updFn k f s).cmds = s.cmds := rfl
@[simp] theorem updFn_nextCid (k : Nat) (f : Fn → Fn) (s : State) : (updFn k f s).nextCid = s.nextCid := rfl
@[simp] theorem updFn_ctxs (k : Nat) (f : Fn → Fn) (s : State) : (updFn k f s).ctxs = s.ctxs := rfl
@[simp] theorem updFn_tLast (k : Nat) (f : Fn → Fn) (s : State) : (updFn k f s).tLast = s.tLast := rfl
@[simp] theorem updFn_segs (k : Nat) (f : Fn → Fn) (s : State) : (updFn k f s).segs = s.segs := rfl
@[simp] theorem updFn_grains (k : Nat) (f : Fn → Fn) (s : State) : (updFn k f s).grains = s.grains := rfl
@[simp] theorem updFn_phys (k : Nat) (f : Fn → Fn) (s : State) : (updFn k f s).phys = s.phys := rfl
@[simp] theorem updFn_ped2s (k : Nat) (f : Fn → Fn) (s : State) : (updFn k f s).ped2s = s.ped2s := rfl
@[simp] theorem updFn_saves (k : Nat) (f : Fn → Fn) (s : State) : (updFn k f s).saves = s.saves := rfl
@[simp] theorem updFn_nextSer (k : Nat) (f : Fn → Fn) (s : State) : (updFn k f s).nextSer = s.nextSer := rfl
@[simp] theorem updFn_hz (k : Nat) (f : Fn → Fn) (s : State) : (updFn k f s).hz = s.hz := rfl
@[simp] theorem updFn_sieves (k : Nat) (f : Fn → Fn) (s : State) : (updFn k f s).sieves = s.sieves := rfl
@[simp] theorem updFn_gathers (k : Nat) (f : Fn → Fn) (s : State) : (updFn k f s).gathers = s.gathers := rfl
@[simp] theorem updFn_fab (k : Nat) (f : Fn → Fn) (s : State) : (updFn k f s).fab = s.fab := rfl
@[simp] theorem updFn_clods (k : Nat) (f : Fn → Fn) (s : State) : (updFn k f s).clods = s.clods := rfl
@[simp] theorem updFn_nextClod (k : Nat) (f : Fn → Fn) (s : State) : (updFn k f s).nextClod = s.nextClod := rfl
@[simp] theorem updFn_err (k : Nat) (f : Fn → Fn) (s : State) : (updFn k f s).err = s.err := rfl
@[simp] theorem updFn_test (k : Nat) (f : Fn → Fn) (s : State) : (updFn k f s).test = s.test := rfl
@[simp] theorem updFn_reg (k : Nat) (f : Fn → Fn) (s : State) : (updFn k f s).reg = s.reg := rfl
@[simp] theorem updFn_snap (k : Nat) (f : Fn → Fn) (s : State) : (updFn k f s).snap = s.snap := rfl
@[simp] theorem updFn_out (k : Nat) (f : Fn → Fn) (s : State) : (updFn k f s).out = s.out := rfl
@[simp] theorem updFn_freeCtr (k : Nat) (f : Fn → Fn) (s : State) : (updFn k f s).freeCtr = s.freeCtr := rfl
@[simp] theorem updFn_pending (k : Nat) (f : Fn → Fn) (s : State) : (updFn k f s).pending = s.pending := rfl

/-! ### updCtx -/

@[simp] theorem updCtx_clk (k : Nat) (f : Ctx → Ctx) (s : State) : (updCtx k f s).clk = s.clk := rfl
@[simp] theorem updCtx_pwr (k : Nat) (f : Ctx → Ctx) (s : State) : (updCtx k f s).pwr = s.pwr := rfl
@[simp] theorem updCtx_boot (k : Nat) (f : Ctx → Ctx) (s : State) : (updCtx k f s).boot = s.boot := rfl
@[simp] theorem updCtx_flash (k : Nat) (f : Ctx → Ctx) (s : State) : (updCtx k f s).flash = s.flash := rfl
@[simp] theorem updCtx_fw (k : Nat) (f : Ctx → Ctx) (s : State) : (updCtx k f s).fw = s.fw := rfl
@[simp] theorem updCtx_sec (k : Nat) (f : Ctx → Ctx) (s : State) : (updCtx k f s).sec = s.sec := rfl
@[simp] theorem updCtx_emap (k : Nat) (f : Ctx → Ctx) (s : State) : (updCtx k f s).emap = s.emap := rfl
@[simp] theorem updCtx_port0 (k : Nat) (f : Ctx → Ctx) (s : State) : (updCtx k f s).port0 = s.port0 := rfl
@[simp] theorem updCtx_port1 (k : Nat) (f : Ctx → Ctx) (s : State) : (updCtx k f s).port1 = s.port1 := rfl
@[simp] theorem updCtx_fns (k : Nat) (f : Ctx → Ctx) (s : State) : (updCtx k f s).fns = s.fns := rfl
@[simp] theorem updCtx_cmds (k : Nat) (f : Ctx → Ctx) (s : State) : (updCtx k f s).cmds = s.cmds := rfl
@[simp] theorem updCtx_nextCid (k : Nat) (f : Ctx → Ctx) (s : State) : (updCtx k f s).nextCid = s.nextCid := rfl
@[simp] theorem updCtx_tLast (k : Nat) (f : Ctx → Ctx) (s : State) : (updCtx k f s).tLast = s.tLast := rfl
@[simp] theorem updCtx_segs (k : Nat) (f : Ctx → Ctx) (s : State) : (updCtx k f s).segs = s.segs := rfl
@[simp] theorem updCtx_grains (k : Nat) (f : Ctx → Ctx) (s : State) : (updCtx k f s).grains = s.grains := rfl
@[simp] theorem updCtx_phys (k : Nat) (f : Ctx → Ctx) (s : State) : (updCtx k f s).phys = s.phys := rfl
@[simp] theorem updCtx_ped2s (k : Nat) (f : Ctx → Ctx) (s : State) : (updCtx k f s).ped2s = s.ped2s := rfl
@[simp] theorem updCtx_saves (k : Nat) (f : Ctx → Ctx) (s : State) : (updCtx k f s).saves = s.saves := rfl
@[simp] theorem updCtx_nextSer (k : Nat) (f : Ctx → Ctx) (s : State) : (updCtx k f s).nextSer = s.nextSer := rfl
@[simp] theorem updCtx_hz (k : Nat) (f : Ctx → Ctx) (s : State) : (updCtx k f s).hz = s.hz := rfl
@[simp] theorem updCtx_sieves (k : Nat) (f : Ctx → Ctx) (s : State) : (updCtx k f s).sieves = s.sieves := rfl
@[simp] theorem updCtx_gathers (k : Nat) (f : Ctx → Ctx) (s : State) : (updCtx k f s).gathers = s.gathers := rfl
@[simp] theorem updCtx_fab (k : Nat) (f : Ctx → Ctx) (s : State) : (updCtx k f s).fab = s.fab := rfl
@[simp] theorem updCtx_clods (k : Nat) (f : Ctx → Ctx) (s : State) : (updCtx k f s).clods = s.clods := rfl
@[simp] theorem updCtx_nextClod (k : Nat) (f : Ctx → Ctx) (s : State) : (updCtx k f s).nextClod = s.nextClod := rfl
@[simp] theorem updCtx_err (k : Nat) (f : Ctx → Ctx) (s : State) : (updCtx k f s).err = s.err := rfl
@[simp] theorem updCtx_test (k : Nat) (f : Ctx → Ctx) (s : State) : (updCtx k f s).test = s.test := rfl
@[simp] theorem updCtx_reg (k : Nat) (f : Ctx → Ctx) (s : State) : (updCtx k f s).reg = s.reg := rfl
@[simp] theorem updCtx_snap (k : Nat) (f : Ctx → Ctx) (s : State) : (updCtx k f s).snap = s.snap := rfl
@[simp] theorem updCtx_out (k : Nat) (f : Ctx → Ctx) (s : State) : (updCtx k f s).out = s.out := rfl
@[simp] theorem updCtx_freeCtr (k : Nat) (f : Ctx → Ctx) (s : State) : (updCtx k f s).freeCtr = s.freeCtr := rfl
@[simp] theorem updCtx_pending (k : Nat) (f : Ctx → Ctx) (s : State) : (updCtx k f s).pending = s.pending := rfl

/-! ### updCmd -/

@[simp] theorem updCmd_clk (k : Nat) (f : Cmd → Cmd) (s : State) : (updCmd k f s).clk = s.clk := rfl
@[simp] theorem updCmd_pwr (k : Nat) (f : Cmd → Cmd) (s : State) : (updCmd k f s).pwr = s.pwr := rfl
@[simp] theorem updCmd_boot (k : Nat) (f : Cmd → Cmd) (s : State) : (updCmd k f s).boot = s.boot := rfl
@[simp] theorem updCmd_flash (k : Nat) (f : Cmd → Cmd) (s : State) : (updCmd k f s).flash = s.flash := rfl
@[simp] theorem updCmd_fw (k : Nat) (f : Cmd → Cmd) (s : State) : (updCmd k f s).fw = s.fw := rfl
@[simp] theorem updCmd_sec (k : Nat) (f : Cmd → Cmd) (s : State) : (updCmd k f s).sec = s.sec := rfl
@[simp] theorem updCmd_emap (k : Nat) (f : Cmd → Cmd) (s : State) : (updCmd k f s).emap = s.emap := rfl
@[simp] theorem updCmd_port0 (k : Nat) (f : Cmd → Cmd) (s : State) : (updCmd k f s).port0 = s.port0 := rfl
@[simp] theorem updCmd_port1 (k : Nat) (f : Cmd → Cmd) (s : State) : (updCmd k f s).port1 = s.port1 := rfl
@[simp] theorem updCmd_fns (k : Nat) (f : Cmd → Cmd) (s : State) : (updCmd k f s).fns = s.fns := rfl
@[simp] theorem updCmd_nextCid (k : Nat) (f : Cmd → Cmd) (s : State) : (updCmd k f s).nextCid = s.nextCid := rfl
@[simp] theorem updCmd_ctxs (k : Nat) (f : Cmd → Cmd) (s : State) : (updCmd k f s).ctxs = s.ctxs := rfl
@[simp] theorem updCmd_tLast (k : Nat) (f : Cmd → Cmd) (s : State) : (updCmd k f s).tLast = s.tLast := rfl
@[simp] theorem updCmd_segs (k : Nat) (f : Cmd → Cmd) (s : State) : (updCmd k f s).segs = s.segs := rfl
@[simp] theorem updCmd_grains (k : Nat) (f : Cmd → Cmd) (s : State) : (updCmd k f s).grains = s.grains := rfl
@[simp] theorem updCmd_phys (k : Nat) (f : Cmd → Cmd) (s : State) : (updCmd k f s).phys = s.phys := rfl
@[simp] theorem updCmd_ped2s (k : Nat) (f : Cmd → Cmd) (s : State) : (updCmd k f s).ped2s = s.ped2s := rfl
@[simp] theorem updCmd_saves (k : Nat) (f : Cmd → Cmd) (s : State) : (updCmd k f s).saves = s.saves := rfl
@[simp] theorem updCmd_nextSer (k : Nat) (f : Cmd → Cmd) (s : State) : (updCmd k f s).nextSer = s.nextSer := rfl
@[simp] theorem updCmd_hz (k : Nat) (f : Cmd → Cmd) (s : State) : (updCmd k f s).hz = s.hz := rfl
@[simp] theorem updCmd_sieves (k : Nat) (f : Cmd → Cmd) (s : State) : (updCmd k f s).sieves = s.sieves := rfl
@[simp] theorem updCmd_gathers (k : Nat) (f : Cmd → Cmd) (s : State) : (updCmd k f s).gathers = s.gathers := rfl
@[simp] theorem updCmd_fab (k : Nat) (f : Cmd → Cmd) (s : State) : (updCmd k f s).fab = s.fab := rfl
@[simp] theorem updCmd_clods (k : Nat) (f : Cmd → Cmd) (s : State) : (updCmd k f s).clods = s.clods := rfl
@[simp] theorem updCmd_nextClod (k : Nat) (f : Cmd → Cmd) (s : State) : (updCmd k f s).nextClod = s.nextClod := rfl
@[simp] theorem updCmd_err (k : Nat) (f : Cmd → Cmd) (s : State) : (updCmd k f s).err = s.err := rfl
@[simp] theorem updCmd_test (k : Nat) (f : Cmd → Cmd) (s : State) : (updCmd k f s).test = s.test := rfl
@[simp] theorem updCmd_reg (k : Nat) (f : Cmd → Cmd) (s : State) : (updCmd k f s).reg = s.reg := rfl
@[simp] theorem updCmd_snap (k : Nat) (f : Cmd → Cmd) (s : State) : (updCmd k f s).snap = s.snap := rfl
@[simp] theorem updCmd_out (k : Nat) (f : Cmd → Cmd) (s : State) : (updCmd k f s).out = s.out := rfl
@[simp] theorem updCmd_freeCtr (k : Nat) (f : Cmd → Cmd) (s : State) : (updCmd k f s).freeCtr = s.freeCtr := rfl
@[simp] theorem updCmd_pending (k : Nat) (f : Cmd → Cmd) (s : State) : (updCmd k f s).pending = s.pending := rfl

/-! ### startCmd -/

@[simp] theorem startCmd_clk (k : Nat) (s : State) : (startCmd k s).clk = s.clk := rfl
@[simp] theorem startCmd_pwr (k : Nat) (s : State) : (startCmd k s).pwr = s.pwr := rfl
@[simp] theorem startCmd_boot (k : Nat) (s : State) : (startCmd k s).boot = s.boot := rfl
@[simp] theorem startCmd_flash (k : Nat) (s : State) : (startCmd k s).flash = s.flash := rfl
@[simp] theorem startCmd_fw (k : Nat) (s : State) : (startCmd k s).fw = s.fw := rfl
@[simp] theorem startCmd_sec (k : Nat) (s : State) : (startCmd k s).sec = s.sec := rfl
@[simp] theorem startCmd_emap (k : Nat) (s : State) : (startCmd k s).emap = s.emap := rfl
@[simp] theorem startCmd_port0 (k : Nat) (s : State) : (startCmd k s).port0 = s.port0 := rfl
@[simp] theorem startCmd_port1 (k : Nat) (s : State) : (startCmd k s).port1 = s.port1 := rfl
@[simp] theorem startCmd_fns (k : Nat) (s : State) : (startCmd k s).fns = s.fns := rfl
@[simp] theorem startCmd_nextCid (k : Nat) (s : State) : (startCmd k s).nextCid = s.nextCid := rfl
@[simp] theorem startCmd_ctxs (k : Nat) (s : State) : (startCmd k s).ctxs = s.ctxs := rfl
@[simp] theorem startCmd_tLast (k : Nat) (s : State) : (startCmd k s).tLast = s.tLast := rfl
@[simp] theorem startCmd_segs (k : Nat) (s : State) : (startCmd k s).segs = s.segs := rfl
@[simp] theorem startCmd_grains (k : Nat) (s : State) : (startCmd k s).grains = s.grains := rfl
@[simp] theorem startCmd_phys (k : Nat) (s : State) : (startCmd k s).phys = s.phys := rfl
@[simp] theorem startCmd_ped2s (k : Nat) (s : State) : (startCmd k s).ped2s = s.ped2s := rfl
@[simp] theorem startCmd_saves (k : Nat) (s : State) : (startCmd k s).saves = s.saves := rfl
@[simp] theorem startCmd_nextSer (k : Nat) (s : State) : (startCmd k s).nextSer = s.nextSer := rfl
@[simp] theorem startCmd_hz (k : Nat) (s : State) : (startCmd k s).hz = s.hz := rfl
@[simp] theorem startCmd_sieves (k : Nat) (s : State) : (startCmd k s).sieves = s.sieves := rfl
@[simp] theorem startCmd_gathers (k : Nat) (s : State) : (startCmd k s).gathers = s.gathers := rfl
@[simp] theorem startCmd_fab (k : Nat) (s : State) : (startCmd k s).fab = s.fab := rfl
@[simp] theorem startCmd_clods (k : Nat) (s : State) : (startCmd k s).clods = s.clods := rfl
@[simp] theorem startCmd_nextClod (k : Nat) (s : State) : (startCmd k s).nextClod = s.nextClod := rfl
@[simp] theorem startCmd_err (k : Nat) (s : State) : (startCmd k s).err = s.err := rfl
@[simp] theorem startCmd_test (k : Nat) (s : State) : (startCmd k s).test = s.test := rfl
@[simp] theorem startCmd_reg (k : Nat) (s : State) : (startCmd k s).reg = s.reg := rfl
@[simp] theorem startCmd_snap (k : Nat) (s : State) : (startCmd k s).snap = s.snap := rfl
@[simp] theorem startCmd_out (k : Nat) (s : State) : (startCmd k s).out = s.out := rfl
@[simp] theorem startCmd_freeCtr (k : Nat) (s : State) : (startCmd k s).freeCtr = s.freeCtr := rfl
@[simp] theorem startCmd_pending (k : Nat) (s : State) : (startCmd k s).pending = s.pending := rfl

/-! ### finish -/

@[simp] theorem finish_clk (k : Nat) (st : W16) (r : List Byte) (s : State) : (finish k st r s).clk = s.clk := rfl
@[simp] theorem finish_pwr (k : Nat) (st : W16) (r : List Byte) (s : State) : (finish k st r s).pwr = s.pwr := rfl
@[simp] theorem finish_boot (k : Nat) (st : W16) (r : List Byte) (s : State) : (finish k st r s).boot = s.boot := rfl
@[simp] theorem finish_flash (k : Nat) (st : W16) (r : List Byte) (s : State) : (finish k st r s).flash = s.flash := rfl
@[simp] theorem finish_fw (k : Nat) (st : W16) (r : List Byte) (s : State) : (finish k st r s).fw = s.fw := rfl
@[simp] theorem finish_sec (k : Nat) (st : W16) (r : List Byte) (s : State) : (finish k st r s).sec = s.sec := rfl
@[simp] theorem finish_emap (k : Nat) (st : W16) (r : List Byte) (s : State) : (finish k st r s).emap = s.emap := rfl
@[simp] theorem finish_port0 (k : Nat) (st : W16) (r : List Byte) (s : State) : (finish k st r s).port0 = s.port0 := rfl
@[simp] theorem finish_port1 (k : Nat) (st : W16) (r : List Byte) (s : State) : (finish k st r s).port1 = s.port1 := rfl
@[simp] theorem finish_fns (k : Nat) (st : W16) (r : List Byte) (s : State) : (finish k st r s).fns = s.fns := rfl
@[simp] theorem finish_nextCid (k : Nat) (st : W16) (r : List Byte) (s : State) : (finish k st r s).nextCid = s.nextCid := rfl
@[simp] theorem finish_ctxs (k : Nat) (st : W16) (r : List Byte) (s : State) : (finish k st r s).ctxs = s.ctxs := rfl
@[simp] theorem finish_tLast (k : Nat) (st : W16) (r : List Byte) (s : State) : (finish k st r s).tLast = s.tLast := rfl
@[simp] theorem finish_segs (k : Nat) (st : W16) (r : List Byte) (s : State) : (finish k st r s).segs = s.segs := rfl
@[simp] theorem finish_grains (k : Nat) (st : W16) (r : List Byte) (s : State) : (finish k st r s).grains = s.grains := rfl
@[simp] theorem finish_phys (k : Nat) (st : W16) (r : List Byte) (s : State) : (finish k st r s).phys = s.phys := rfl
@[simp] theorem finish_ped2s (k : Nat) (st : W16) (r : List Byte) (s : State) : (finish k st r s).ped2s = s.ped2s := rfl
@[simp] theorem finish_saves (k : Nat) (st : W16) (r : List Byte) (s : State) : (finish k st r s).saves = s.saves := rfl
@[simp] theorem finish_nextSer (k : Nat) (st : W16) (r : List Byte) (s : State) : (finish k st r s).nextSer = s.nextSer := rfl
@[simp] theorem finish_hz (k : Nat) (st : W16) (r : List Byte) (s : State) : (finish k st r s).hz = s.hz := rfl
@[simp] theorem finish_sieves (k : Nat) (st : W16) (r : List Byte) (s : State) : (finish k st r s).sieves = s.sieves := rfl
@[simp] theorem finish_gathers (k : Nat) (st : W16) (r : List Byte) (s : State) : (finish k st r s).gathers = s.gathers := rfl
@[simp] theorem finish_fab (k : Nat) (st : W16) (r : List Byte) (s : State) : (finish k st r s).fab = s.fab := rfl
@[simp] theorem finish_clods (k : Nat) (st : W16) (r : List Byte) (s : State) : (finish k st r s).clods = s.clods := rfl
@[simp] theorem finish_nextClod (k : Nat) (st : W16) (r : List Byte) (s : State) : (finish k st r s).nextClod = s.nextClod := rfl
@[simp] theorem finish_err (k : Nat) (st : W16) (r : List Byte) (s : State) : (finish k st r s).err = s.err := rfl
@[simp] theorem finish_test (k : Nat) (st : W16) (r : List Byte) (s : State) : (finish k st r s).test = s.test := rfl
@[simp] theorem finish_reg (k : Nat) (st : W16) (r : List Byte) (s : State) : (finish k st r s).reg = s.reg := rfl
@[simp] theorem finish_snap (k : Nat) (st : W16) (r : List Byte) (s : State) : (finish k st r s).snap = s.snap := rfl
@[simp] theorem finish_out (k : Nat) (st : W16) (r : List Byte) (s : State) : (finish k st r s).out = s.out := rfl
@[simp] theorem finish_freeCtr (k : Nat) (st : W16) (r : List Byte) (s : State) : (finish k st r s).freeCtr = s.freeCtr := rfl
@[simp] theorem finish_pending (k : Nat) (st : W16) (r : List Byte) (s : State) : (finish k st r s).pending = s.pending := rfl

/-! ### finish0 -/

@[simp] theorem finish0_clk (k : Nat) (st : W16) (s : State) : (finish0 k st s).clk = s.clk := rfl
@[simp] theorem finish0_pwr (k : Nat) (st : W16) (s : State) : (finish0 k st s).pwr = s.pwr := rfl
@[simp] theorem finish0_boot (k : Nat) (st : W16) (s : State) : (finish0 k st s).boot = s.boot := rfl
@[simp] theorem finish0_flash (k : Nat) (st : W16) (s : State) : (finish0 k st s).flash = s.flash := rfl
@[simp] theorem finish0_fw (k : Nat) (st : W16) (s : State) : (finish0 k st s).fw = s.fw := rfl
@[simp] theorem finish0_sec (k : Nat) (st : W16) (s : State) : (finish0 k st s).sec = s.sec := rfl
@[simp] theorem finish0_emap (k : Nat) (st : W16) (s : State) : (finish0 k st s).emap = s.emap := rfl
@[simp] theorem finish0_port0 (k : Nat) (st : W16) (s : State) : (finish0 k st s).port0 = s.port0 := rfl
@[simp] theorem finish0_port1 (k : Nat) (st : W16) (s : State) : (finish0 k st s).port1 = s.port1 := rfl
@[simp] theorem finish0_fns (k : Nat) (st : W16) (s : State) : (finish0 k st s).fns = s.fns := rfl
@[simp] theorem finish0_nextCid (k : Nat) (st : W16) (s : State) : (finish0 k st s).nextCid = s.nextCid := rfl
@[simp] theorem finish0_ctxs (k : Nat) (st : W16) (s : State) : (finish0 k st s).ctxs = s.ctxs := rfl
@[simp] theorem finish0_tLast (k : Nat) (st : W16) (s : State) : (finish0 k st s).tLast = s.tLast := rfl
@[simp] theorem finish0_segs (k : Nat) (st : W16) (s : State) : (finish0 k st s).segs = s.segs := rfl
@[simp] theorem finish0_grains (k : Nat) (st : W16) (s : State) : (finish0 k st s).grains = s.grains := rfl
@[simp] theorem finish0_phys (k : Nat) (st : W16) (s : State) : (finish0 k st s).phys = s.phys := rfl
@[simp] theorem finish0_ped2s (k : Nat) (st : W16) (s : State) : (finish0 k st s).ped2s = s.ped2s := rfl
@[simp] theorem finish0_saves (k : Nat) (st : W16) (s : State) : (finish0 k st s).saves = s.saves := rfl
@[simp] theorem finish0_nextSer (k : Nat) (st : W16) (s : State) : (finish0 k st s).nextSer = s.nextSer := rfl
@[simp] theorem finish0_hz (k : Nat) (st : W16) (s : State) : (finish0 k st s).hz = s.hz := rfl
@[simp] theorem finish0_sieves (k : Nat) (st : W16) (s : State) : (finish0 k st s).sieves = s.sieves := rfl
@[simp] theorem finish0_gathers (k : Nat) (st : W16) (s : State) : (finish0 k st s).gathers = s.gathers := rfl
@[simp] theorem finish0_fab (k : Nat) (st : W16) (s : State) : (finish0 k st s).fab = s.fab := rfl
@[simp] theorem finish0_clods (k : Nat) (st : W16) (s : State) : (finish0 k st s).clods = s.clods := rfl
@[simp] theorem finish0_nextClod (k : Nat) (st : W16) (s : State) : (finish0 k st s).nextClod = s.nextClod := rfl
@[simp] theorem finish0_err (k : Nat) (st : W16) (s : State) : (finish0 k st s).err = s.err := rfl
@[simp] theorem finish0_test (k : Nat) (st : W16) (s : State) : (finish0 k st s).test = s.test := rfl
@[simp] theorem finish0_reg (k : Nat) (st : W16) (s : State) : (finish0 k st s).reg = s.reg := rfl
@[simp] theorem finish0_snap (k : Nat) (st : W16) (s : State) : (finish0 k st s).snap = s.snap := rfl
@[simp] theorem finish0_out (k : Nat) (st : W16) (s : State) : (finish0 k st s).out = s.out := rfl
@[simp] theorem finish0_freeCtr (k : Nat) (st : W16) (s : State) : (finish0 k st s).freeCtr = s.freeCtr := rfl
@[simp] theorem finish0_pending (k : Nat) (st : W16) (s : State) : (finish0 k st s).pending = s.pending := rfl

/-! ### defer -/

@[simp] theorem defer_clk (k : Nat) (r : List Byte) (s : State) : (defer k r s).clk = s.clk := rfl
@[simp] theorem defer_pwr (k : Nat) (r : List Byte) (s : State) : (defer k r s).pwr = s.pwr := rfl
@[simp] theorem defer_boot (k : Nat) (r : List Byte) (s : State) : (defer k r s).boot = s.boot := rfl
@[simp] theorem defer_flash (k : Nat) (r : List Byte) (s : State) : (defer k r s).flash = s.flash := rfl
@[simp] theorem defer_fw (k : Nat) (r : List Byte) (s : State) : (defer k r s).fw = s.fw := rfl
@[simp] theorem defer_sec (k : Nat) (r : List Byte) (s : State) : (defer k r s).sec = s.sec := rfl
@[simp] theorem defer_emap (k : Nat) (r : List Byte) (s : State) : (defer k r s).emap = s.emap := rfl
@[simp] theorem defer_port0 (k : Nat) (r : List Byte) (s : State) : (defer k r s).port0 = s.port0 := rfl
@[simp] theorem defer_port1 (k : Nat) (r : List Byte) (s : State) : (defer k r s).port1 = s.port1 := rfl
@[simp] theorem defer_fns (k : Nat) (r : List Byte) (s : State) : (defer k r s).fns = s.fns := rfl
@[simp] theorem defer_nextCid (k : Nat) (r : List Byte) (s : State) : (defer k r s).nextCid = s.nextCid := rfl
@[simp] theorem defer_ctxs (k : Nat) (r : List Byte) (s : State) : (defer k r s).ctxs = s.ctxs := rfl
@[simp] theorem defer_tLast (k : Nat) (r : List Byte) (s : State) : (defer k r s).tLast = s.tLast := rfl
@[simp] theorem defer_segs (k : Nat) (r : List Byte) (s : State) : (defer k r s).segs = s.segs := rfl
@[simp] theorem defer_grains (k : Nat) (r : List Byte) (s : State) : (defer k r s).grains = s.grains := rfl
@[simp] theorem defer_phys (k : Nat) (r : List Byte) (s : State) : (defer k r s).phys = s.phys := rfl
@[simp] theorem defer_ped2s (k : Nat) (r : List Byte) (s : State) : (defer k r s).ped2s = s.ped2s := rfl
@[simp] theorem defer_saves (k : Nat) (r : List Byte) (s : State) : (defer k r s).saves = s.saves := rfl
@[simp] theorem defer_nextSer (k : Nat) (r : List Byte) (s : State) : (defer k r s).nextSer = s.nextSer := rfl
@[simp] theorem defer_hz (k : Nat) (r : List Byte) (s : State) : (defer k r s).hz = s.hz := rfl
@[simp] theorem defer_sieves (k : Nat) (r : List Byte) (s : State) : (defer k r s).sieves = s.sieves := rfl
@[simp] theorem defer_gathers (k : Nat) (r : List Byte) (s : State) : (defer k r s).gathers = s.gathers := rfl
@[simp] theorem defer_fab (k : Nat) (r : List Byte) (s : State) : (defer k r s).fab = s.fab := rfl
@[simp] theorem defer_clods (k : Nat) (r : List Byte) (s : State) : (defer k r s).clods = s.clods := rfl
@[simp] theorem defer_nextClod (k : Nat) (r : List Byte) (s : State) : (defer k r s).nextClod = s.nextClod := rfl
@[simp] theorem defer_err (k : Nat) (r : List Byte) (s : State) : (defer k r s).err = s.err := rfl
@[simp] theorem defer_test (k : Nat) (r : List Byte) (s : State) : (defer k r s).test = s.test := rfl
@[simp] theorem defer_reg (k : Nat) (r : List Byte) (s : State) : (defer k r s).reg = s.reg := rfl
@[simp] theorem defer_snap (k : Nat) (r : List Byte) (s : State) : (defer k r s).snap = s.snap := rfl
@[simp] theorem defer_out (k : Nat) (r : List Byte) (s : State) : (defer k r s).out = s.out := rfl
@[simp] theorem defer_freeCtr (k : Nat) (r : List Byte) (s : State) : (defer k r s).freeCtr = s.freeCtr := rfl
@[simp] theorem defer_pending (k : Nat) (r : List Byte) (s : State) : (defer k r s).pending = s.pending := rfl

/-! ### updSeg -/

@[simp] theorem updSeg_clk (k : Nat) (f : RunSeg → RunSeg) (s : State) : (updSeg k f s).clk = s.clk := rfl
@[simp] theorem updSeg_pwr (k : Nat) (f : RunSeg → RunSeg) (s : State) : (updSeg k f s).pwr = s.pwr := rfl
@[simp] theorem updSeg_boot (k : Nat) (f : RunSeg → RunSeg) (s : State) : (updSeg k f s).boot = s.boot := rfl
@[simp] theorem updSeg_flash (k : Nat) (f : RunSeg → RunSeg) (s : State) : (updSeg k f s).flash = s.flash := rfl
@[simp] theorem updSeg_fw (k : Nat) (f : RunSeg → RunSeg) (s : State) : (updSeg k f s).fw = s.fw := rfl
@[simp] theorem updSeg_sec (k : Nat) (f : RunSeg → RunSeg) (s : State) : (updSeg k f s).sec = s.sec := rfl
@[simp] theorem updSeg_emap (k : Nat) (f : RunSeg → RunSeg) (s : State) : (updSeg k f s).emap = s.emap := rfl
@[simp] theorem updSeg_port0 (k : Nat) (f : RunSeg → RunSeg) (s : State) : (updSeg k f s).port0 = s.port0 := rfl
@[simp] theorem updSeg_port1 (k : Nat) (f : RunSeg → RunSeg) (s : State) : (updSeg k f s).port1 = s.port1 := rfl
@[simp] theorem updSeg_fns (k : Nat) (f : RunSeg → RunSeg) (s : State) : (updSeg k f s).fns = s.fns := rfl
@[simp] theorem updSeg_cmds (k : Nat) (f : RunSeg → RunSeg) (s : State) : (updSeg k f s).cmds = s.cmds := rfl
@[simp] theorem updSeg_nextCid (k : Nat) (f : RunSeg → RunSeg) (s : State) : (updSeg k f s).nextCid = s.nextCid := rfl
@[simp] theorem updSeg_ctxs (k : Nat) (f : RunSeg → RunSeg) (s : State) : (updSeg k f s).ctxs = s.ctxs := rfl
@[simp] theorem updSeg_tLast (k : Nat) (f : RunSeg → RunSeg) (s : State) : (updSeg k f s).tLast = s.tLast := rfl
@[simp] theorem updSeg_grains (k : Nat) (f : RunSeg → RunSeg) (s : State) : (updSeg k f s).grains = s.grains := rfl
@[simp] theorem updSeg_phys (k : Nat) (f : RunSeg → RunSeg) (s : State) : (updSeg k f s).phys = s.phys := rfl
@[simp] theorem updSeg_ped2s (k : Nat) (f : RunSeg → RunSeg) (s : State) : (updSeg k f s).ped2s = s.ped2s := rfl
@[simp] theorem updSeg_saves (k : Nat) (f : RunSeg → RunSeg) (s : State) : (updSeg k f s).saves = s.saves := rfl
@[simp] theorem updSeg_nextSer (k : Nat) (f : RunSeg → RunSeg) (s : State) : (updSeg k f s).nextSer = s.nextSer := rfl
@[simp] theorem updSeg_hz (k : Nat) (f : RunSeg → RunSeg) (s : State) : (updSeg k f s).hz = s.hz := rfl
@[simp] theorem updSeg_sieves (k : Nat) (f : RunSeg → RunSeg) (s : State) : (updSeg k f s).sieves = s.sieves := rfl
@[simp] theorem updSeg_gathers (k : Nat) (f : RunSeg → RunSeg) (s : State) : (updSeg k f s).gathers = s.gathers := rfl
@[simp] theorem updSeg_fab (k : Nat) (f : RunSeg → RunSeg) (s : State) : (updSeg k f s).fab = s.fab := rfl
@[simp] theorem updSeg_clods (k : Nat) (f : RunSeg → RunSeg) (s : State) : (updSeg k f s).clods = s.clods := rfl
@[simp] theorem updSeg_nextClod (k : Nat) (f : RunSeg → RunSeg) (s : State) : (updSeg k f s).nextClod = s.nextClod := rfl
@[simp] theorem updSeg_err (k : Nat) (f : RunSeg → RunSeg) (s : State) : (updSeg k f s).err = s.err := rfl
@[simp] theorem updSeg_test (k : Nat) (f : RunSeg → RunSeg) (s : State) : (updSeg k f s).test = s.test := rfl
@[simp] theorem updSeg_reg (k : Nat) (f : RunSeg → RunSeg) (s : State) : (updSeg k f s).reg = s.reg := rfl
@[simp] theorem updSeg_snap (k : Nat) (f : RunSeg → RunSeg) (s : State) : (updSeg k f s).snap = s.snap := rfl
@[simp] theorem updSeg_out (k : Nat) (f : RunSeg → RunSeg) (s : State) : (updSeg k f s).out = s.out := rfl
@[simp] theorem updSeg_freeCtr (k : Nat) (f : RunSeg → RunSeg) (s : State) : (updSeg k f s).freeCtr = s.freeCtr := rfl
@[simp] theorem updSeg_pending (k : Nat) (f : RunSeg → RunSeg) (s : State) : (updSeg k f s).pending = s.pending := rfl

/-! ### updPed2 -/

@[simp] theorem updPed2_clk (k : Nat) (f : Ped2 → Ped2) (s : State) : (updPed2 k f s).clk = s.clk := rfl
@[simp] theorem updPed2_pwr (k : Nat) (f : Ped2 → Ped2) (s : State) : (updPed2 k f s).pwr = s.pwr := rfl
@[simp] theorem updPed2_boot (k : Nat) (f : Ped2 → Ped2) (s : State) : (updPed2 k f s).boot = s.boot := rfl
@[simp] theorem updPed2_flash (k : Nat) (f : Ped2 → Ped2) (s : State) : (updPed2 k f s).flash = s.flash := rfl
@[simp] theorem updPed2_fw (k : Nat) (f : Ped2 → Ped2) (s : State) : (updPed2 k f s).fw = s.fw := rfl
@[simp] theorem updPed2_sec (k : Nat) (f : Ped2 → Ped2) (s : State) : (updPed2 k f s).sec = s.sec := rfl
@[simp] theorem updPed2_emap (k : Nat) (f : Ped2 → Ped2) (s : State) : (updPed2 k f s).emap = s.emap := rfl
@[simp] theorem updPed2_port0 (k : Nat) (f : Ped2 → Ped2) (s : State) : (updPed2 k f s).port0 = s.port0 := rfl
@[simp] theorem updPed2_port1 (k : Nat) (f : Ped2 → Ped2) (s : State) : (updPed2 k f s).port1 = s.port1 := rfl
@[simp] theorem updPed2_fns (k : Nat) (f : Ped2 → Ped2) (s : State) : (updPed2 k f s).fns = s.fns := rfl
@[simp] theorem updPed2_cmds (k : Nat) (f : Ped2 → Ped2) (s : State) : (updPed2 k f s).cmds = s.cmds := rfl
@[simp] theorem updPed2_nextCid (k : Nat) (f : Ped2 → Ped2) (s : State) : (updPed2 k f s).nextCid = s.nextCid := rfl
@[simp] theorem updPed2_ctxs (k : Nat) (f : Ped2 → Ped2) (s : State) : (updPed2 k f s).ctxs = s.ctxs := rfl
@[simp] theorem updPed2_tLast (k : Nat) (f : Ped2 → Ped2) (s : State) : (updPed2 k f s).tLast = s.tLast := rfl
@[simp] theorem updPed2_segs (k : Nat) (f : Ped2 → Ped2) (s : State) : (updPed2 k f s).segs = s.segs := rfl
@[simp] theorem updPed2_grains (k : Nat) (f : Ped2 → Ped2) (s : State) : (updPed2 k f s).grains = s.grains := rfl
@[simp] theorem updPed2_phys (k : Nat) (f : Ped2 → Ped2) (s : State) : (updPed2 k f s).phys = s.phys := rfl
@[simp] theorem updPed2_saves (k : Nat) (f : Ped2 → Ped2) (s : State) : (updPed2 k f s).saves = s.saves := rfl
@[simp] theorem updPed2_nextSer (k : Nat) (f : Ped2 → Ped2) (s : State) : (updPed2 k f s).nextSer = s.nextSer := rfl
@[simp] theorem updPed2_hz (k : Nat) (f : Ped2 → Ped2) (s : State) : (updPed2 k f s).hz = s.hz := rfl
@[simp] theorem updPed2_sieves (k : Nat) (f : Ped2 → Ped2) (s : State) : (updPed2 k f s).sieves = s.sieves := rfl
@[simp] theorem updPed2_gathers (k : Nat) (f : Ped2 → Ped2) (s : State) : (updPed2 k f s).gathers = s.gathers := rfl
@[simp] theorem updPed2_fab (k : Nat) (f : Ped2 → Ped2) (s : State) : (updPed2 k f s).fab = s.fab := rfl
@[simp] theorem updPed2_clods (k : Nat) (f : Ped2 → Ped2) (s : State) : (updPed2 k f s).clods = s.clods := rfl
@[simp] theorem updPed2_nextClod (k : Nat) (f : Ped2 → Ped2) (s : State) : (updPed2 k f s).nextClod = s.nextClod := rfl
@[simp] theorem updPed2_err (k : Nat) (f : Ped2 → Ped2) (s : State) : (updPed2 k f s).err = s.err := rfl
@[simp] theorem updPed2_test (k : Nat) (f : Ped2 → Ped2) (s : State) : (updPed2 k f s).test = s.test := rfl
@[simp] theorem updPed2_reg (k : Nat) (f : Ped2 → Ped2) (s : State) : (updPed2 k f s).reg = s.reg := rfl
@[simp] theorem updPed2_snap (k : Nat) (f : Ped2 → Ped2) (s : State) : (updPed2 k f s).snap = s.snap := rfl
@[simp] theorem updPed2_out (k : Nat) (f : Ped2 → Ped2) (s : State) : (updPed2 k f s).out = s.out := rfl
@[simp] theorem updPed2_freeCtr (k : Nat) (f : Ped2 → Ped2) (s : State) : (updPed2 k f s).freeCtr = s.freeCtr := rfl
@[simp] theorem updPed2_pending (k : Nat) (f : Ped2 → Ped2) (s : State) : (updPed2 k f s).pending = s.pending := rfl

/-! ### updPhys -/

@[simp] theorem updPhys_clk (k : Nat) (f : Phys → Phys) (s : State) : (updPhys k f s).clk = s.clk := rfl
@[simp] theorem updPhys_pwr (k : Nat) (f : Phys → Phys) (s : State) : (updPhys k f s).pwr = s.pwr := rfl
@[simp] theorem updPhys_boot (k : Nat) (f : Phys → Phys) (s : State) : (updPhys k f s).boot = s.boot := rfl
@[simp] theorem updPhys_flash (k : Nat) (f : Phys → Phys) (s : State) : (updPhys k f s).flash = s.flash := rfl
@[simp] theorem updPhys_fw (k : Nat) (f : Phys → Phys) (s : State) : (updPhys k f s).fw = s.fw := rfl
@[simp] theorem updPhys_sec (k : Nat) (f : Phys → Phys) (s : State) : (updPhys k f s).sec = s.sec := rfl
@[simp] theorem updPhys_emap (k : Nat) (f : Phys → Phys) (s : State) : (updPhys k f s).emap = s.emap := rfl
@[simp] theorem updPhys_port0 (k : Nat) (f : Phys → Phys) (s : State) : (updPhys k f s).port0 = s.port0 := rfl
@[simp] theorem updPhys_port1 (k : Nat) (f : Phys → Phys) (s : State) : (updPhys k f s).port1 = s.port1 := rfl
@[simp] theorem updPhys_fns (k : Nat) (f : Phys → Phys) (s : State) : (updPhys k f s).fns = s.fns := rfl
@[simp] theorem updPhys_cmds (k : Nat) (f : Phys → Phys) (s : State) : (updPhys k f s).cmds = s.cmds := rfl
@[simp] theorem updPhys_nextCid (k : Nat) (f : Phys → Phys) (s : State) : (updPhys k f s).nextCid = s.nextCid := rfl
@[simp] theorem updPhys_ctxs (k : Nat) (f : Phys → Phys) (s : State) : (updPhys k f s).ctxs = s.ctxs := rfl
@[simp] theorem updPhys_tLast (k : Nat) (f : Phys → Phys) (s : State) : (updPhys k f s).tLast = s.tLast := rfl
@[simp] theorem updPhys_segs (k : Nat) (f : Phys → Phys) (s : State) : (updPhys k f s).segs = s.segs := rfl
@[simp] theorem updPhys_grains (k : Nat) (f : Phys → Phys) (s : State) : (updPhys k f s).grains = s.grains := rfl
@[simp] theorem updPhys_ped2s (k : Nat) (f : Phys → Phys) (s : State) : (updPhys k f s).ped2s = s.ped2s := rfl
@[simp] theorem updPhys_saves (k : Nat) (f : Phys → Phys) (s : State) : (updPhys k f s).saves = s.saves := rfl
@[simp] theorem updPhys_nextSer (k : Nat) (f : Phys → Phys) (s : State) : (updPhys k f s).nextSer = s.nextSer := rfl
@[simp] theorem updPhys_hz (k : Nat) (f : Phys → Phys) (s : State) : (updPhys k f s).hz = s.hz := rfl
@[simp] theorem updPhys_sieves (k : Nat) (f : Phys → Phys) (s : State) : (updPhys k f s).sieves = s.sieves := rfl
@[simp] theorem updPhys_gathers (k : Nat) (f : Phys → Phys) (s : State) : (updPhys k f s).gathers = s.gathers := rfl
@[simp] theorem updPhys_fab (k : Nat) (f : Phys → Phys) (s : State) : (updPhys k f s).fab = s.fab := rfl
@[simp] theorem updPhys_clods (k : Nat) (f : Phys → Phys) (s : State) : (updPhys k f s).clods = s.clods := rfl
@[simp] theorem updPhys_nextClod (k : Nat) (f : Phys → Phys) (s : State) : (updPhys k f s).nextClod = s.nextClod := rfl
@[simp] theorem updPhys_err (k : Nat) (f : Phys → Phys) (s : State) : (updPhys k f s).err = s.err := rfl
@[simp] theorem updPhys_test (k : Nat) (f : Phys → Phys) (s : State) : (updPhys k f s).test = s.test := rfl
@[simp] theorem updPhys_reg (k : Nat) (f : Phys → Phys) (s : State) : (updPhys k f s).reg = s.reg := rfl
@[simp] theorem updPhys_snap (k : Nat) (f : Phys → Phys) (s : State) : (updPhys k f s).snap = s.snap := rfl
@[simp] theorem updPhys_out (k : Nat) (f : Phys → Phys) (s : State) : (updPhys k f s).out = s.out := rfl
@[simp] theorem updPhys_freeCtr (k : Nat) (f : Phys → Phys) (s : State) : (updPhys k f s).freeCtr = s.freeCtr := rfl
@[simp] theorem updPhys_pending (k : Nat) (f : Phys → Phys) (s : State) : (updPhys k f s).pending = s.pending := rfl

/-! ### updGrain -/

@[simp] theorem updGrain_clk (k : Nat) (f : Grain → Grain) (s : State) : (updGrain k f s).clk = s.clk := rfl
@[simp] theorem updGrain_pwr (k : Nat) (f : Grain → Grain) (s : State) : (updGrain k f s).pwr = s.pwr := rfl
@[simp] theorem updGrain_boot (k : Nat) (f : Grain → Grain) (s : State) : (updGrain k f s).boot = s.boot := rfl
@[simp] theorem updGrain_flash (k : Nat) (f : Grain → Grain) (s : State) : (updGrain k f s).flash = s.flash := rfl
@[simp] theorem updGrain_fw (k : Nat) (f : Grain → Grain) (s : State) : (updGrain k f s).fw = s.fw := rfl
@[simp] theorem updGrain_sec (k : Nat) (f : Grain → Grain) (s : State) : (updGrain k f s).sec = s.sec := rfl
@[simp] theorem updGrain_emap (k : Nat) (f : Grain → Grain) (s : State) : (updGrain k f s).emap = s.emap := rfl
@[simp] theorem updGrain_port0 (k : Nat) (f : Grain → Grain) (s : State) : (updGrain k f s).port0 = s.port0 := rfl
@[simp] theorem updGrain_port1 (k : Nat) (f : Grain → Grain) (s : State) : (updGrain k f s).port1 = s.port1 := rfl
@[simp] theorem updGrain_fns (k : Nat) (f : Grain → Grain) (s : State) : (updGrain k f s).fns = s.fns := rfl
@[simp] theorem updGrain_cmds (k : Nat) (f : Grain → Grain) (s : State) : (updGrain k f s).cmds = s.cmds := rfl
@[simp] theorem updGrain_nextCid (k : Nat) (f : Grain → Grain) (s : State) : (updGrain k f s).nextCid = s.nextCid := rfl
@[simp] theorem updGrain_ctxs (k : Nat) (f : Grain → Grain) (s : State) : (updGrain k f s).ctxs = s.ctxs := rfl
@[simp] theorem updGrain_tLast (k : Nat) (f : Grain → Grain) (s : State) : (updGrain k f s).tLast = s.tLast := rfl
@[simp] theorem updGrain_segs (k : Nat) (f : Grain → Grain) (s : State) : (updGrain k f s).segs = s.segs := rfl
@[simp] theorem updGrain_phys (k : Nat) (f : Grain → Grain) (s : State) : (updGrain k f s).phys = s.phys := rfl
@[simp] theorem updGrain_ped2s (k : Nat) (f : Grain → Grain) (s : State) : (updGrain k f s).ped2s = s.ped2s := rfl
@[simp] theorem updGrain_saves (k : Nat) (f : Grain → Grain) (s : State) : (updGrain k f s).saves = s.saves := rfl
@[simp] theorem updGrain_nextSer (k : Nat) (f : Grain → Grain) (s : State) : (updGrain k f s).nextSer = s.nextSer := rfl
@[simp] theorem updGrain_hz (k : Nat) (f : Grain → Grain) (s : State) : (updGrain k f s).hz = s.hz := rfl
@[simp] theorem updGrain_sieves (k : Nat) (f : Grain → Grain) (s : State) : (updGrain k f s).sieves = s.sieves := rfl
@[simp] theorem updGrain_gathers (k : Nat) (f : Grain → Grain) (s : State) : (updGrain k f s).gathers = s.gathers := rfl
@[simp] theorem updGrain_fab (k : Nat) (f : Grain → Grain) (s : State) : (updGrain k f s).fab = s.fab := rfl
@[simp] theorem updGrain_clods (k : Nat) (f : Grain → Grain) (s : State) : (updGrain k f s).clods = s.clods := rfl
@[simp] theorem updGrain_nextClod (k : Nat) (f : Grain → Grain) (s : State) : (updGrain k f s).nextClod = s.nextClod := rfl
@[simp] theorem updGrain_err (k : Nat) (f : Grain → Grain) (s : State) : (updGrain k f s).err = s.err := rfl
@[simp] theorem updGrain_test (k : Nat) (f : Grain → Grain) (s : State) : (updGrain k f s).test = s.test := rfl
@[simp] theorem updGrain_reg (k : Nat) (f : Grain → Grain) (s : State) : (updGrain k f s).reg = s.reg := rfl
@[simp] theorem updGrain_snap (k : Nat) (f : Grain → Grain) (s : State) : (updGrain k f s).snap = s.snap := rfl
@[simp] theorem updGrain_out (k : Nat) (f : Grain → Grain) (s : State) : (updGrain k f s).out = s.out := rfl
@[simp] theorem updGrain_freeCtr (k : Nat) (f : Grain → Grain) (s : State) : (updGrain k f s).freeCtr = s.freeCtr := rfl
@[simp] theorem updGrain_pending (k : Nat) (f : Grain → Grain) (s : State) : (updGrain k f s).pending = s.pending := rfl

/-! ### updThr -/

@[simp] theorem updThr_clk (g t : Nat) (f : Thr → Thr) (s : State) : (updThr g t f s).clk = s.clk := rfl
@[simp] theorem updThr_pwr (g t : Nat) (f : Thr → Thr) (s : State) : (updThr g t f s).pwr = s.pwr := rfl
@[simp] theorem updThr_boot (g t : Nat) (f : Thr → Thr) (s : State) : (updThr g t f s).boot = s.boot := rfl
@[simp] theorem updThr_flash (g t : Nat) (f : Thr → Thr) (s : State) : (updThr g t f s).flash = s.flash := rfl
@[simp] theorem updThr_fw (g t : Nat) (f : Thr → Thr) (s : State) : (updThr g t f s).fw = s.fw := rfl
@[simp] theorem updThr_sec (g t : Nat) (f : Thr → Thr) (s : State) : (updThr g t f s).sec = s.sec := rfl
@[simp] theorem updThr_emap (g t : Nat) (f : Thr → Thr) (s : State) : (updThr g t f s).emap = s.emap := rfl
@[simp] theorem updThr_port0 (g t : Nat) (f : Thr → Thr) (s : State) : (updThr g t f s).port0 = s.port0 := rfl
@[simp] theorem updThr_port1 (g t : Nat) (f : Thr → Thr) (s : State) : (updThr g t f s).port1 = s.port1 := rfl
@[simp] theorem updThr_fns (g t : Nat) (f : Thr → Thr) (s : State) : (updThr g t f s).fns = s.fns := rfl
@[simp] theorem updThr_cmds (g t : Nat) (f : Thr → Thr) (s : State) : (updThr g t f s).cmds = s.cmds := rfl
@[simp] theorem updThr_nextCid (g t : Nat) (f : Thr → Thr) (s : State) : (updThr g t f s).nextCid = s.nextCid := rfl
@[simp] theorem updThr_ctxs (g t : Nat) (f : Thr → Thr) (s : State) : (updThr g t f s).ctxs = s.ctxs := rfl
@[simp] theorem updThr_tLast (g t : Nat) (f : Thr → Thr) (s : State) : (updThr g t f s).tLast = s.tLast := rfl
@[simp] theorem updThr_segs (g t : Nat) (f : Thr → Thr) (s : State) : (updThr g t f s).segs = s.segs := rfl
@[simp] theorem updThr_phys (g t : Nat) (f : Thr → Thr) (s : State) : (updThr g t f s).phys = s.phys := rfl
@[simp] theorem updThr_ped2s (g t : Nat) (f : Thr → Thr) (s : State) : (updThr g t f s).ped2s = s.ped2s := rfl
@[simp] theorem updThr_saves (g t : Nat) (f : Thr → Thr) (s : State) : (updThr g t f s).saves = s.saves := rfl
@[simp] theorem updThr_nextSer (g t : Nat) (f : Thr → Thr) (s : State) : (updThr g t f s).nextSer = s.nextSer := rfl
@[simp] theorem updThr_hz (g t : Nat) (f : Thr → Thr) (s : State) : (updThr g t f s).hz = s.hz := rfl
@[simp] theorem updThr_sieves (g t : Nat) (f : Thr → Thr) (s : State) : (updThr g t f s).sieves = s.sieves := rfl
@[simp] theorem updThr_gathers (g t : Nat) (f : Thr → Thr) (s : State) : (updThr g t f s).gathers = s.gathers := rfl
@[simp] theorem updThr_fab (g t : Nat) (f : Thr → Thr) (s : State) : (updThr g t f s).fab = s.fab := rfl
@[simp] theorem updThr_clods (g t : Nat) (f : Thr → Thr) (s : State) : (updThr g t f s).clods = s.clods := rfl
@[simp] theorem updThr_nextClod (g t : Nat) (f : Thr → Thr) (s : State) : (updThr g t f s).nextClod = s.nextClod := rfl
@[simp] theorem updThr_err (g t : Nat) (f : Thr → Thr) (s : State) : (updThr g t f s).err = s.err := rfl
@[simp] theorem updThr_test (g t : Nat) (f : Thr → Thr) (s : State) : (updThr g t f s).test = s.test := rfl
@[simp] theorem updThr_reg (g t : Nat) (f : Thr → Thr) (s : State) : (updThr g t f s).reg = s.reg := rfl
@[simp] theorem updThr_snap (g t : Nat) (f : Thr → Thr) (s : State) : (updThr g t f s).snap = s.snap := rfl
@[simp] theorem updThr_out (g t : Nat) (f : Thr → Thr) (s : State) : (updThr g t f s).out = s.out := rfl
@[simp] theorem updThr_freeCtr (g t : Nat) (f : Thr → Thr) (s : State) : (updThr g t f s).freeCtr = s.freeCtr := rfl
@[simp] theorem updThr_pending (g t : Nat) (f : Thr → Thr) (s : State) : (updThr g t f s).pending = s.pending := rfl

/-! ### updOut -/

@[simp] theorem updOut_clk (g k : Nat) (f : OutD → OutD) (s : State) : (updOut g k f s).clk = s.clk := rfl
@[simp] theorem updOut_pwr (g k : Nat) (f : OutD → OutD) (s : State) : (updOut g k f s).pwr = s.pwr := rfl
@[simp] theorem updOut_boot (g k : Nat) (f : OutD → OutD) (s : State) : (updOut g k f s).boot = s.boot := rfl
@[simp] theorem updOut_flash (g k : Nat) (f : OutD → OutD) (s : State) : (updOut g k f s).flash = s.flash := rfl
@[simp] theorem updOut_fw (g k : Nat) (f : OutD → OutD) (s : State) : (updOut g k f s).fw = s.fw := rfl
@[simp] theorem updOut_sec (g k : Nat) (f : OutD → OutD) (s : State) : (updOut g k f s).sec = s.sec := rfl
@[simp] theorem updOut_emap (g k : Nat) (f : OutD → OutD) (s : State) : (updOut g k f s).emap = s.emap := rfl
@[simp] theorem updOut_port0 (g k : Nat) (f : OutD → OutD) (s : State) : (updOut g k f s).port0 = s.port0 := rfl
@[simp] theorem updOut_port1 (g k : Nat) (f : OutD → OutD) (s : State) : (updOut g k f s).port1 = s.port1 := rfl
@[simp] theorem updOut_fns (g k : Nat) (f : OutD → OutD) (s : State) : (updOut g k f s).fns = s.fns := rfl
@[simp] theorem updOut_cmds (g k : Nat) (f : OutD → OutD) (s : State) : (updOut g k f s).cmds = s.cmds := rfl
@[simp] theorem updOut_nextCid (g k : Nat) (f : OutD → OutD) (s : State) : (updOut g k f s).nextCid = s.nextCid := rfl
@[simp] theorem updOut_ctxs (g k : Nat) (f : OutD → OutD) (s : State) : (updOut g k f s).ctxs = s.ctxs := rfl
@[simp] theorem updOut_tLast (g k : Nat) (f : OutD → OutD) (s : State) : (updOut g k f s).tLast = s.tLast := rfl
@[simp] theorem updOut_segs (g k : Nat) (f : OutD → OutD) (s : State) : (updOut g k f s).segs = s.segs := rfl
@[simp] theorem updOut_phys (g k : Nat) (f : OutD → OutD) (s : State) : (updOut g k f s).phys = s.phys := rfl
@[simp] theorem updOut_ped2s (g k : Nat) (f : OutD → OutD) (s : State) : (updOut g k f s).ped2s = s.ped2s := rfl
@[simp] theorem updOut_saves (g k : Nat) (f : OutD → OutD) (s : State) : (updOut g k f s).saves = s.saves := rfl
@[simp] theorem updOut_nextSer (g k : Nat) (f : OutD → OutD) (s : State) : (updOut g k f s).nextSer = s.nextSer := rfl
@[simp] theorem updOut_hz (g k : Nat) (f : OutD → OutD) (s : State) : (updOut g k f s).hz = s.hz := rfl
@[simp] theorem updOut_sieves (g k : Nat) (f : OutD → OutD) (s : State) : (updOut g k f s).sieves = s.sieves := rfl
@[simp] theorem updOut_gathers (g k : Nat) (f : OutD → OutD) (s : State) : (updOut g k f s).gathers = s.gathers := rfl
@[simp] theorem updOut_fab (g k : Nat) (f : OutD → OutD) (s : State) : (updOut g k f s).fab = s.fab := rfl
@[simp] theorem updOut_clods (g k : Nat) (f : OutD → OutD) (s : State) : (updOut g k f s).clods = s.clods := rfl
@[simp] theorem updOut_nextClod (g k : Nat) (f : OutD → OutD) (s : State) : (updOut g k f s).nextClod = s.nextClod := rfl
@[simp] theorem updOut_err (g k : Nat) (f : OutD → OutD) (s : State) : (updOut g k f s).err = s.err := rfl
@[simp] theorem updOut_test (g k : Nat) (f : OutD → OutD) (s : State) : (updOut g k f s).test = s.test := rfl
@[simp] theorem updOut_reg (g k : Nat) (f : OutD → OutD) (s : State) : (updOut g k f s).reg = s.reg := rfl
@[simp] theorem updOut_snap (g k : Nat) (f : OutD → OutD) (s : State) : (updOut g k f s).snap = s.snap := rfl
@[simp] theorem updOut_out (g k : Nat) (f : OutD → OutD) (s : State) : (updOut g k f s).out = s.out := rfl
@[simp] theorem updOut_freeCtr (g k : Nat) (f : OutD → OutD) (s : State) : (updOut g k f s).freeCtr = s.freeCtr := rfl
@[simp] theorem updOut_pending (g k : Nat) (f : OutD → OutD) (s : State) : (updOut g k f s).pending = s.pending := rfl

/-! ### updObj -/

@[simp] theorem updObj_clk (h : W32) (f : Obj → Obj) (s : State) : (updObj h f s).clk = s.clk := rfl
@[simp] theorem updObj_pwr (h : W32) (f : Obj → Obj) (s : State) : (updObj h f s).pwr = s.pwr := rfl
@[simp] theorem updObj_boot (h : W32) (f : Obj → Obj) (s : State) : (updObj h f s).boot = s.boot := rfl
@[simp] theorem updObj_flash (h : W32) (f : Obj → Obj) (s : State) : (updObj h f s).flash = s.flash := rfl
@[simp] theorem updObj_fw (h : W32) (f : Obj → Obj) (s : State) : (updObj h f s).fw = s.fw := rfl
@[simp] theorem updObj_sec (h : W32) (f : Obj → Obj) (s : State) : (updObj h f s).sec = s.sec := rfl
@[simp] theorem updObj_emap (h : W32) (f : Obj → Obj) (s : State) : (updObj h f s).emap = s.emap := rfl
@[simp] theorem updObj_port0 (h : W32) (f : Obj → Obj) (s : State) : (updObj h f s).port0 = s.port0 := rfl
@[simp] theorem updObj_port1 (h : W32) (f : Obj → Obj) (s : State) : (updObj h f s).port1 = s.port1 := rfl
@[simp] theorem updObj_fns (h : W32) (f : Obj → Obj) (s : State) : (updObj h f s).fns = s.fns := rfl
@[simp] theorem updObj_cmds (h : W32) (f : Obj → Obj) (s : State) : (updObj h f s).cmds = s.cmds := rfl
@[simp] theorem updObj_nextCid (h : W32) (f : Obj → Obj) (s : State) : (updObj h f s).nextCid = s.nextCid := rfl
@[simp] theorem updObj_ctxs (h : W32) (f : Obj → Obj) (s : State) : (updObj h f s).ctxs = s.ctxs := rfl
@[simp] theorem updObj_tLast (h : W32) (f : Obj → Obj) (s : State) : (updObj h f s).tLast = s.tLast := rfl
@[simp] theorem updObj_segs (h : W32) (f : Obj → Obj) (s : State) : (updObj h f s).segs = s.segs := rfl
@[simp] theorem updObj_grains (h : W32) (f : Obj → Obj) (s : State) : (updObj h f s).grains = s.grains := rfl
@[simp] theorem updObj_phys (h : W32) (f : Obj → Obj) (s : State) : (updObj h f s).phys = s.phys := rfl
@[simp] theorem updObj_ped2s (h : W32) (f : Obj → Obj) (s : State) : (updObj h f s).ped2s = s.ped2s := rfl
@[simp] theorem updObj_saves (h : W32) (f : Obj → Obj) (s : State) : (updObj h f s).saves = s.saves := rfl
@[simp] theorem updObj_nextSer (h : W32) (f : Obj → Obj) (s : State) : (updObj h f s).nextSer = s.nextSer := rfl
@[simp] theorem updObj_sieves (h : W32) (f : Obj → Obj) (s : State) : (updObj h f s).sieves = s.sieves := rfl
@[simp] theorem updObj_gathers (h : W32) (f : Obj → Obj) (s : State) : (updObj h f s).gathers = s.gathers := rfl
@[simp] theorem updObj_fab (h : W32) (f : Obj → Obj) (s : State) : (updObj h f s).fab = s.fab := rfl
@[simp] theorem updObj_clods (h : W32) (f : Obj → Obj) (s : State) : (updObj h f s).clods = s.clods := rfl
@[simp] theorem updObj_nextClod (h : W32) (f : Obj → Obj) (s : State) : (updObj h f s).nextClod = s.nextClod := rfl
@[simp] theorem updObj_err (h : W32) (f : Obj → Obj) (s : State) : (updObj h f s).err = s.err := rfl
@[simp] theorem updObj_test (h : W32) (f : Obj → Obj) (s : State) : (updObj h f s).test = s.test := rfl
@[simp] theorem updObj_reg (h : W32) (f : Obj → Obj) (s : State) : (updObj h f s).reg = s.reg := rfl
@[simp] theorem updObj_snap (h : W32) (f : Obj → Obj) (s : State) : (updObj h f s).snap = s.snap := rfl
@[simp] theorem updObj_out (h : W32) (f : Obj → Obj) (s : State) : (updObj h f s).out = s.out := rfl
@[simp] theorem updObj_freeCtr (h : W32) (f : Obj → Obj) (s : State) : (updObj h f s).freeCtr = s.freeCtr := rfl
@[simp] theorem updObj_pending (h : W32) (f : Obj → Obj) (s : State) : (updObj h f s).pending = s.pending := rfl

/-! ### updHz -/

@[simp] theorem updHz_clk (f : Hz → Hz) (s : State) : (updHz f s).clk = s.clk := rfl
@[simp] theorem updHz_pwr (f : Hz → Hz) (s : State) : (updHz f s).pwr = s.pwr := rfl
@[simp] theorem updHz_boot (f : Hz → Hz) (s : State) : (updHz f s).boot = s.boot := rfl
@[simp] theorem updHz_flash (f : Hz → Hz) (s : State) : (updHz f s).flash = s.flash := rfl
@[simp] theorem updHz_fw (f : Hz → Hz) (s : State) : (updHz f s).fw = s.fw := rfl
@[simp] theorem updHz_sec (f : Hz → Hz) (s : State) : (updHz f s).sec = s.sec := rfl
@[simp] theorem updHz_emap (f : Hz → Hz) (s : State) : (updHz f s).emap = s.emap := rfl
@[simp] theorem updHz_port0 (f : Hz → Hz) (s : State) : (updHz f s).port0 = s.port0 := rfl
@[simp] theorem updHz_port1 (f : Hz → Hz) (s : State) : (updHz f s).port1 = s.port1 := rfl
@[simp] theorem updHz_fns (f : Hz → Hz) (s : State) : (updHz f s).fns = s.fns := rfl
@[simp] theorem updHz_cmds (f : Hz → Hz) (s : State) : (updHz f s).cmds = s.cmds := rfl
@[simp] theorem updHz_nextCid (f : Hz → Hz) (s : State) : (updHz f s).nextCid = s.nextCid := rfl
@[simp] theorem updHz_ctxs (f : Hz → Hz) (s : State) : (updHz f s).ctxs = s.ctxs := rfl
@[simp] theorem updHz_tLast (f : Hz → Hz) (s : State) : (updHz f s).tLast = s.tLast := rfl
@[simp] theorem updHz_segs (f : Hz → Hz) (s : State) : (updHz f s).segs = s.segs := rfl
@[simp] theorem updHz_grains (f : Hz → Hz) (s : State) : (updHz f s).grains = s.grains := rfl
@[simp] theorem updHz_phys (f : Hz → Hz) (s : State) : (updHz f s).phys = s.phys := rfl
@[simp] theorem updHz_ped2s (f : Hz → Hz) (s : State) : (updHz f s).ped2s = s.ped2s := rfl
@[simp] theorem updHz_saves (f : Hz → Hz) (s : State) : (updHz f s).saves = s.saves := rfl
@[simp] theorem updHz_nextSer (f : Hz → Hz) (s : State) : (updHz f s).nextSer = s.nextSer := rfl
@[simp] theorem updHz_sieves (f : Hz → Hz) (s : State) : (updHz f s).sieves = s.sieves := rfl
@[simp] theorem updHz_gathers (f : Hz → Hz) (s : State) : (updHz f s).gathers = s.gathers := rfl
@[simp] theorem updHz_fab (f : Hz → Hz) (s : State) : (updHz f s).fab = s.fab := rfl
@[simp] theorem updHz_clods (f : Hz → Hz) (s : State) : (updHz f s).clods = s.clods := rfl
@[simp] theorem updHz_nextClod (f : Hz → Hz) (s : State) : (updHz f s).nextClod = s.nextClod := rfl
@[simp] theorem updHz_err (f : Hz → Hz) (s : State) : (updHz f s).err = s.err := rfl
@[simp] theorem updHz_test (f : Hz → Hz) (s : State) : (updHz f s).test = s.test := rfl
@[simp] theorem updHz_reg (f : Hz → Hz) (s : State) : (updHz f s).reg = s.reg := rfl
@[simp] theorem updHz_snap (f : Hz → Hz) (s : State) : (updHz f s).snap = s.snap := rfl
@[simp] theorem updHz_out (f : Hz → Hz) (s : State) : (updHz f s).out = s.out := rfl
@[simp] theorem updHz_freeCtr (f : Hz → Hz) (s : State) : (updHz f s).freeCtr = s.freeCtr := rfl
@[simp] theorem updHz_pending (f : Hz → Hz) (s : State) : (updHz f s).pending = s.pending := rfl

/-! ### updSieve -/

@[simp] theorem updSieve_clk (k : Nat) (f : Sieve → Sieve) (s : State) : (updSieve k f s).clk = s.clk := rfl
@[simp] theorem updSieve_pwr (k : Nat) (f : Sieve → Sieve) (s : State) : (updSieve k f s).pwr = s.pwr := rfl
@[simp] theorem updSieve_boot (k : Nat) (f : Sieve → Sieve) (s : State) : (updSieve k f s).boot = s.boot := rfl
@[simp] theorem updSieve_flash (k : Nat) (f : Sieve → Sieve) (s : State) : (updSieve k f s).flash = s.flash := rfl
@[simp] theorem updSieve_fw (k : Nat) (f : Sieve → Sieve) (s : State) : (updSieve k f s).fw = s.fw := rfl
@[simp] theorem updSieve_sec (k : Nat) (f : Sieve → Sieve) (s : State) : (updSieve k f s).sec = s.sec := rfl
@[simp] theorem updSieve_emap (k : Nat) (f : Sieve → Sieve) (s : State) : (updSieve k f s).emap = s.emap := rfl
@[simp] theorem updSieve_port0 (k : Nat) (f : Sieve → Sieve) (s : State) : (updSieve k f s).port0 = s.port0 := rfl
@[simp] theorem updSieve_port1 (k : Nat) (f : Sieve → Sieve) (s : State) : (updSieve k f s).port1 = s.port1 := rfl
@[simp] theorem updSieve_fns (k : Nat) (f : Sieve → Sieve) (s : State) : (updSieve k f s).fns = s.fns := rfl
@[simp] theorem updSieve_cmds (k : Nat) (f : Sieve → Sieve) (s : State) : (updSieve k f s).cmds = s.cmds := rfl
@[simp] theorem updSieve_nextCid (k : Nat) (f : Sieve → Sieve) (s : State) : (updSieve k f s).nextCid = s.nextCid := rfl
@[simp] theorem updSieve_ctxs (k : Nat) (f : Sieve → Sieve) (s : State) : (updSieve k f s).ctxs = s.ctxs := rfl
@[simp] theorem updSieve_tLast (k : Nat) (f : Sieve → Sieve) (s : State) : (updSieve k f s).tLast = s.tLast := rfl
@[simp] theorem updSieve_segs (k : Nat) (f : Sieve → Sieve) (s : State) : (updSieve k f s).segs = s.segs := rfl
@[simp] theorem updSieve_grains (k : Nat) (f : Sieve → Sieve) (s : State) : (updSieve k f s).grains = s.grains := rfl
@[simp] theorem updSieve_phys (k : Nat) (f : Sieve → Sieve) (s : State) : (updSieve k f s).phys = s.phys := rfl
@[simp] theorem updSieve_ped2s (k : Nat) (f : Sieve → Sieve) (s : State) : (updSieve k f s).ped2s = s.ped2s := rfl
@[simp] theorem updSieve_saves (k : Nat) (f : Sieve → Sieve) (s : State) : (updSieve k f s).saves = s.saves := rfl
@[simp] theorem updSieve_nextSer (k : Nat) (f : Sieve → Sieve) (s : State) : (updSieve k f s).nextSer = s.nextSer := rfl
@[simp] theorem updSieve_hz (k : Nat) (f : Sieve → Sieve) (s : State) : (updSieve k f s).hz = s.hz := rfl
@[simp] theorem updSieve_gathers (k : Nat) (f : Sieve → Sieve) (s : State) : (updSieve k f s).gathers = s.gathers := rfl
@[simp] theorem updSieve_fab (k : Nat) (f : Sieve → Sieve) (s : State) : (updSieve k f s).fab = s.fab := rfl
@[simp] theorem updSieve_clods (k : Nat) (f : Sieve → Sieve) (s : State) : (updSieve k f s).clods = s.clods := rfl
@[simp] theorem updSieve_nextClod (k : Nat) (f : Sieve → Sieve) (s : State) : (updSieve k f s).nextClod = s.nextClod := rfl
@[simp] theorem updSieve_err (k : Nat) (f : Sieve → Sieve) (s : State) : (updSieve k f s).err = s.err := rfl
@[simp] theorem updSieve_test (k : Nat) (f : Sieve → Sieve) (s : State) : (updSieve k f s).test = s.test := rfl
@[simp] theorem updSieve_reg (k : Nat) (f : Sieve → Sieve) (s : State) : (updSieve k f s).reg = s.reg := rfl
@[simp] theorem updSieve_snap (k : Nat) (f : Sieve → Sieve) (s : State) : (updSieve k f s).snap = s.snap := rfl
@[simp] theorem updSieve_out (k : Nat) (f : Sieve → Sieve) (s : State) : (updSieve k f s).out = s.out := rfl
@[simp] theorem updSieve_freeCtr (k : Nat) (f : Sieve → Sieve) (s : State) : (updSieve k f s).freeCtr = s.freeCtr := rfl
@[simp] theorem updSieve_pending (k : Nat) (f : Sieve → Sieve) (s : State) : (updSieve k f s).pending = s.pending := rfl

/-! ### updFab -/

@[simp] theorem updFab_clk (f : Fab → Fab) (s : State) : (updFab f s).clk = s.clk := rfl
@[simp] theorem updFab_pwr (f : Fab → Fab) (s : State) : (updFab f s).pwr = s.pwr := rfl
@[simp] theorem updFab_boot (f : Fab → Fab) (s : State) : (updFab f s).boot = s.boot := rfl
@[simp] theorem updFab_flash (f : Fab → Fab) (s : State) : (updFab f s).flash = s.flash := rfl
@[simp] theorem updFab_fw (f : Fab → Fab) (s : State) : (updFab f s).fw = s.fw := rfl
@[simp] theorem updFab_sec (f : Fab → Fab) (s : State) : (updFab f s).sec = s.sec := rfl
@[simp] theorem updFab_emap (f : Fab → Fab) (s : State) : (updFab f s).emap = s.emap := rfl
@[simp] theorem updFab_port0 (f : Fab → Fab) (s : State) : (updFab f s).port0 = s.port0 := rfl
@[simp] theorem updFab_port1 (f : Fab → Fab) (s : State) : (updFab f s).port1 = s.port1 := rfl
@[simp] theorem updFab_fns (f : Fab → Fab) (s : State) : (updFab f s).fns = s.fns := rfl
@[simp] theorem updFab_cmds (f : Fab → Fab) (s : State) : (updFab f s).cmds = s.cmds := rfl
@[simp] theorem updFab_nextCid (f : Fab → Fab) (s : State) : (updFab f s).nextCid = s.nextCid := rfl
@[simp] theorem updFab_ctxs (f : Fab → Fab) (s : State) : (updFab f s).ctxs = s.ctxs := rfl
@[simp] theorem updFab_tLast (f : Fab → Fab) (s : State) : (updFab f s).tLast = s.tLast := rfl
@[simp] theorem updFab_segs (f : Fab → Fab) (s : State) : (updFab f s).segs = s.segs := rfl
@[simp] theorem updFab_grains (f : Fab → Fab) (s : State) : (updFab f s).grains = s.grains := rfl
@[simp] theorem updFab_phys (f : Fab → Fab) (s : State) : (updFab f s).phys = s.phys := rfl
@[simp] theorem updFab_ped2s (f : Fab → Fab) (s : State) : (updFab f s).ped2s = s.ped2s := rfl
@[simp] theorem updFab_saves (f : Fab → Fab) (s : State) : (updFab f s).saves = s.saves := rfl
@[simp] theorem updFab_nextSer (f : Fab → Fab) (s : State) : (updFab f s).nextSer = s.nextSer := rfl
@[simp] theorem updFab_hz (f : Fab → Fab) (s : State) : (updFab f s).hz = s.hz := rfl
@[simp] theorem updFab_sieves (f : Fab → Fab) (s : State) : (updFab f s).sieves = s.sieves := rfl
@[simp] theorem updFab_gathers (f : Fab → Fab) (s : State) : (updFab f s).gathers = s.gathers := rfl
@[simp] theorem updFab_clods (f : Fab → Fab) (s : State) : (updFab f s).clods = s.clods := rfl
@[simp] theorem updFab_nextClod (f : Fab → Fab) (s : State) : (updFab f s).nextClod = s.nextClod := rfl
@[simp] theorem updFab_err (f : Fab → Fab) (s : State) : (updFab f s).err = s.err := rfl
@[simp] theorem updFab_test (f : Fab → Fab) (s : State) : (updFab f s).test = s.test := rfl
@[simp] theorem updFab_reg (f : Fab → Fab) (s : State) : (updFab f s).reg = s.reg := rfl
@[simp] theorem updFab_snap (f : Fab → Fab) (s : State) : (updFab f s).snap = s.snap := rfl
@[simp] theorem updFab_out (f : Fab → Fab) (s : State) : (updFab f s).out = s.out := rfl
@[simp] theorem updFab_freeCtr (f : Fab → Fab) (s : State) : (updFab f s).freeCtr = s.freeCtr := rfl
@[simp] theorem updFab_pending (f : Fab → Fab) (s : State) : (updFab f s).pending = s.pending := rfl

/-! ### updRing -/

@[simp] theorem updRing_clk (k : Nat) (f : ErrRing → ErrRing) (s : State) : (updRing k f s).clk = s.clk := by unfold updRing; split <;> rfl
@[simp] theorem updRing_pwr (k : Nat) (f : ErrRing → ErrRing) (s : State) : (updRing k f s).pwr = s.pwr := by unfold updRing; split <;> rfl
@[simp] theorem updRing_boot (k : Nat) (f : ErrRing → ErrRing) (s : State) : (updRing k f s).boot = s.boot := by unfold updRing; split <;> rfl
@[simp] theorem updRing_flash (k : Nat) (f : ErrRing → ErrRing) (s : State) : (updRing k f s).flash = s.flash := by unfold updRing; split <;> rfl
@[simp] theorem updRing_fw (k : Nat) (f : ErrRing → ErrRing) (s : State) : (updRing k f s).fw = s.fw := by unfold updRing; split <;> rfl
@[simp] theorem updRing_sec (k : Nat) (f : ErrRing → ErrRing) (s : State) : (updRing k f s).sec = s.sec := by unfold updRing; split <;> rfl
@[simp] theorem updRing_emap (k : Nat) (f : ErrRing → ErrRing) (s : State) : (updRing k f s).emap = s.emap := by unfold updRing; split <;> rfl
@[simp] theorem updRing_port0 (k : Nat) (f : ErrRing → ErrRing) (s : State) : (updRing k f s).port0 = s.port0 := by unfold updRing; split <;> rfl
@[simp] theorem updRing_port1 (k : Nat) (f : ErrRing → ErrRing) (s : State) : (updRing k f s).port1 = s.port1 := by unfold updRing; split <;> rfl
@[simp] theorem updRing_fns (k : Nat) (f : ErrRing → ErrRing) (s : State) : (updRing k f s).fns = s.fns := by unfold updRing; split <;> rfl
@[simp] theorem updRing_cmds (k : Nat) (f : ErrRing → ErrRing) (s : State) : (updRing k f s).cmds = s.cmds := by unfold updRing; split <;> rfl
@[simp] theorem updRing_nextCid (k : Nat) (f : ErrRing → ErrRing) (s : State) : (updRing k f s).nextCid = s.nextCid := by unfold updRing; split <;> rfl
@[simp] theorem updRing_ctxs (k : Nat) (f : ErrRing → ErrRing) (s : State) : (updRing k f s).ctxs = s.ctxs := by unfold updRing; split <;> rfl
@[simp] theorem updRing_tLast (k : Nat) (f : ErrRing → ErrRing) (s : State) : (updRing k f s).tLast = s.tLast := by unfold updRing; split <;> rfl
@[simp] theorem updRing_segs (k : Nat) (f : ErrRing → ErrRing) (s : State) : (updRing k f s).segs = s.segs := by unfold updRing; split <;> rfl
@[simp] theorem updRing_grains (k : Nat) (f : ErrRing → ErrRing) (s : State) : (updRing k f s).grains = s.grains := by unfold updRing; split <;> rfl
@[simp] theorem updRing_phys (k : Nat) (f : ErrRing → ErrRing) (s : State) : (updRing k f s).phys = s.phys := by unfold updRing; split <;> rfl
@[simp] theorem updRing_ped2s (k : Nat) (f : ErrRing → ErrRing) (s : State) : (updRing k f s).ped2s = s.ped2s := by unfold updRing; split <;> rfl
@[simp] theorem updRing_saves (k : Nat) (f : ErrRing → ErrRing) (s : State) : (updRing k f s).saves = s.saves := by unfold updRing; split <;> rfl
@[simp] theorem updRing_nextSer (k : Nat) (f : ErrRing → ErrRing) (s : State) : (updRing k f s).nextSer = s.nextSer := by unfold updRing; split <;> rfl
@[simp] theorem updRing_hz (k : Nat) (f : ErrRing → ErrRing) (s : State) : (updRing k f s).hz = s.hz := by unfold updRing; split <;> rfl
@[simp] theorem updRing_sieves (k : Nat) (f : ErrRing → ErrRing) (s : State) : (updRing k f s).sieves = s.sieves := by unfold updRing; split <;> rfl
@[simp] theorem updRing_gathers (k : Nat) (f : ErrRing → ErrRing) (s : State) : (updRing k f s).gathers = s.gathers := by unfold updRing; split <;> rfl
@[simp] theorem updRing_fab (k : Nat) (f : ErrRing → ErrRing) (s : State) : (updRing k f s).fab = s.fab := by unfold updRing; split <;> rfl
@[simp] theorem updRing_clods (k : Nat) (f : ErrRing → ErrRing) (s : State) : (updRing k f s).clods = s.clods := by unfold updRing; split <;> rfl
@[simp] theorem updRing_nextClod (k : Nat) (f : ErrRing → ErrRing) (s : State) : (updRing k f s).nextClod = s.nextClod := by unfold updRing; split <;> rfl
@[simp] theorem updRing_test (k : Nat) (f : ErrRing → ErrRing) (s : State) : (updRing k f s).test = s.test := by unfold updRing; split <;> rfl
@[simp] theorem updRing_reg (k : Nat) (f : ErrRing → ErrRing) (s : State) : (updRing k f s).reg = s.reg := by unfold updRing; split <;> rfl
@[simp] theorem updRing_snap (k : Nat) (f : ErrRing → ErrRing) (s : State) : (updRing k f s).snap = s.snap := by unfold updRing; split <;> rfl
@[simp] theorem updRing_out (k : Nat) (f : ErrRing → ErrRing) (s : State) : (updRing k f s).out = s.out := by unfold updRing; split <;> rfl
@[simp] theorem updRing_freeCtr (k : Nat) (f : ErrRing → ErrRing) (s : State) : (updRing k f s).freeCtr = s.freeCtr := by unfold updRing; split <;> rfl
@[simp] theorem updRing_pending (k : Nat) (f : ErrRing → ErrRing) (s : State) : (updRing k f s).pending = s.pending := by unfold updRing; split <;> rfl

/-! ### updDie -/

@[simp] theorem updDie_clk (k : Nat) (f : DiePwr → DiePwr) (s : State) : (updDie k f s).clk = s.clk := rfl
@[simp] theorem updDie_boot (k : Nat) (f : DiePwr → DiePwr) (s : State) : (updDie k f s).boot = s.boot := rfl
@[simp] theorem updDie_flash (k : Nat) (f : DiePwr → DiePwr) (s : State) : (updDie k f s).flash = s.flash := rfl
@[simp] theorem updDie_fw (k : Nat) (f : DiePwr → DiePwr) (s : State) : (updDie k f s).fw = s.fw := rfl
@[simp] theorem updDie_sec (k : Nat) (f : DiePwr → DiePwr) (s : State) : (updDie k f s).sec = s.sec := rfl
@[simp] theorem updDie_emap (k : Nat) (f : DiePwr → DiePwr) (s : State) : (updDie k f s).emap = s.emap := rfl
@[simp] theorem updDie_port0 (k : Nat) (f : DiePwr → DiePwr) (s : State) : (updDie k f s).port0 = s.port0 := rfl
@[simp] theorem updDie_port1 (k : Nat) (f : DiePwr → DiePwr) (s : State) : (updDie k f s).port1 = s.port1 := rfl
@[simp] theorem updDie_fns (k : Nat) (f : DiePwr → DiePwr) (s : State) : (updDie k f s).fns = s.fns := rfl
@[simp] theorem updDie_cmds (k : Nat) (f : DiePwr → DiePwr) (s : State) : (updDie k f s).cmds = s.cmds := rfl
@[simp] theorem updDie_nextCid (k : Nat) (f : DiePwr → DiePwr) (s : State) : (updDie k f s).nextCid = s.nextCid := rfl
@[simp] theorem updDie_ctxs (k : Nat) (f : DiePwr → DiePwr) (s : State) : (updDie k f s).ctxs = s.ctxs := rfl
@[simp] theorem updDie_tLast (k : Nat) (f : DiePwr → DiePwr) (s : State) : (updDie k f s).tLast = s.tLast := rfl
@[simp] theorem updDie_segs (k : Nat) (f : DiePwr → DiePwr) (s : State) : (updDie k f s).segs = s.segs := rfl
@[simp] theorem updDie_grains (k : Nat) (f : DiePwr → DiePwr) (s : State) : (updDie k f s).grains = s.grains := rfl
@[simp] theorem updDie_phys (k : Nat) (f : DiePwr → DiePwr) (s : State) : (updDie k f s).phys = s.phys := rfl
@[simp] theorem updDie_ped2s (k : Nat) (f : DiePwr → DiePwr) (s : State) : (updDie k f s).ped2s = s.ped2s := rfl
@[simp] theorem updDie_saves (k : Nat) (f : DiePwr → DiePwr) (s : State) : (updDie k f s).saves = s.saves := rfl
@[simp] theorem updDie_nextSer (k : Nat) (f : DiePwr → DiePwr) (s : State) : (updDie k f s).nextSer = s.nextSer := rfl
@[simp] theorem updDie_hz (k : Nat) (f : DiePwr → DiePwr) (s : State) : (updDie k f s).hz = s.hz := rfl
@[simp] theorem updDie_sieves (k : Nat) (f : DiePwr → DiePwr) (s : State) : (updDie k f s).sieves = s.sieves := rfl
@[simp] theorem updDie_gathers (k : Nat) (f : DiePwr → DiePwr) (s : State) : (updDie k f s).gathers = s.gathers := rfl
@[simp] theorem updDie_fab (k : Nat) (f : DiePwr → DiePwr) (s : State) : (updDie k f s).fab = s.fab := rfl
@[simp] theorem updDie_clods (k : Nat) (f : DiePwr → DiePwr) (s : State) : (updDie k f s).clods = s.clods := rfl
@[simp] theorem updDie_nextClod (k : Nat) (f : DiePwr → DiePwr) (s : State) : (updDie k f s).nextClod = s.nextClod := rfl
@[simp] theorem updDie_err (k : Nat) (f : DiePwr → DiePwr) (s : State) : (updDie k f s).err = s.err := rfl
@[simp] theorem updDie_test (k : Nat) (f : DiePwr → DiePwr) (s : State) : (updDie k f s).test = s.test := rfl
@[simp] theorem updDie_reg (k : Nat) (f : DiePwr → DiePwr) (s : State) : (updDie k f s).reg = s.reg := rfl
@[simp] theorem updDie_snap (k : Nat) (f : DiePwr → DiePwr) (s : State) : (updDie k f s).snap = s.snap := rfl
@[simp] theorem updDie_out (k : Nat) (f : DiePwr → DiePwr) (s : State) : (updDie k f s).out = s.out := rfl
@[simp] theorem updDie_freeCtr (k : Nat) (f : DiePwr → DiePwr) (s : State) : (updDie k f s).freeCtr = s.freeCtr := rfl
@[simp] theorem updDie_pending (k : Nat) (f : DiePwr → DiePwr) (s : State) : (updDie k f s).pending = s.pending := rfl

/-! ### emit -/

@[simp] theorem emit_clk (o : Out) (s : State) : (emit o s).clk = s.clk := rfl
@[simp] theorem emit_pwr (o : Out) (s : State) : (emit o s).pwr = s.pwr := rfl
@[simp] theorem emit_boot (o : Out) (s : State) : (emit o s).boot = s.boot := rfl
@[simp] theorem emit_flash (o : Out) (s : State) : (emit o s).flash = s.flash := rfl
@[simp] theorem emit_fw (o : Out) (s : State) : (emit o s).fw = s.fw := rfl
@[simp] theorem emit_sec (o : Out) (s : State) : (emit o s).sec = s.sec := rfl
@[simp] theorem emit_emap (o : Out) (s : State) : (emit o s).emap = s.emap := rfl
@[simp] theorem emit_port0 (o : Out) (s : State) : (emit o s).port0 = s.port0 := rfl
@[simp] theorem emit_port1 (o : Out) (s : State) : (emit o s).port1 = s.port1 := rfl
@[simp] theorem emit_fns (o : Out) (s : State) : (emit o s).fns = s.fns := rfl
@[simp] theorem emit_cmds (o : Out) (s : State) : (emit o s).cmds = s.cmds := rfl
@[simp] theorem emit_nextCid (o : Out) (s : State) : (emit o s).nextCid = s.nextCid := rfl
@[simp] theorem emit_ctxs (o : Out) (s : State) : (emit o s).ctxs = s.ctxs := rfl
@[simp] theorem emit_tLast (o : Out) (s : State) : (emit o s).tLast = s.tLast := rfl
@[simp] theorem emit_segs (o : Out) (s : State) : (emit o s).segs = s.segs := rfl
@[simp] theorem emit_grains (o : Out) (s : State) : (emit o s).grains = s.grains := rfl
@[simp] theorem emit_phys (o : Out) (s : State) : (emit o s).phys = s.phys := rfl
@[simp] theorem emit_ped2s (o : Out) (s : State) : (emit o s).ped2s = s.ped2s := rfl
@[simp] theorem emit_saves (o : Out) (s : State) : (emit o s).saves = s.saves := rfl
@[simp] theorem emit_nextSer (o : Out) (s : State) : (emit o s).nextSer = s.nextSer := rfl
@[simp] theorem emit_hz (o : Out) (s : State) : (emit o s).hz = s.hz := rfl
@[simp] theorem emit_sieves (o : Out) (s : State) : (emit o s).sieves = s.sieves := rfl
@[simp] theorem emit_gathers (o : Out) (s : State) : (emit o s).gathers = s.gathers := rfl
@[simp] theorem emit_fab (o : Out) (s : State) : (emit o s).fab = s.fab := rfl
@[simp] theorem emit_clods (o : Out) (s : State) : (emit o s).clods = s.clods := rfl
@[simp] theorem emit_nextClod (o : Out) (s : State) : (emit o s).nextClod = s.nextClod := rfl
@[simp] theorem emit_err (o : Out) (s : State) : (emit o s).err = s.err := rfl
@[simp] theorem emit_test (o : Out) (s : State) : (emit o s).test = s.test := rfl
@[simp] theorem emit_reg (o : Out) (s : State) : (emit o s).reg = s.reg := rfl
@[simp] theorem emit_snap (o : Out) (s : State) : (emit o s).snap = s.snap := rfl
@[simp] theorem emit_freeCtr (o : Out) (s : State) : (emit o s).freeCtr = s.freeCtr := rfl
@[simp] theorem emit_pending (o : Out) (s : State) : (emit o s).pending = s.pending := rfl

/-! ### noteRwp -/

@[simp] theorem noteRwp_clk (b : Bool) (s : State) : (noteRwp b s).clk = s.clk := by unfold noteRwp; split <;> rfl
@[simp] theorem noteRwp_pwr (b : Bool) (s : State) : (noteRwp b s).pwr = s.pwr := by unfold noteRwp; split <;> rfl
@[simp] theorem noteRwp_boot (b : Bool) (s : State) : (noteRwp b s).boot = s.boot := by unfold noteRwp; split <;> rfl
@[simp] theorem noteRwp_flash (b : Bool) (s : State) : (noteRwp b s).flash = s.flash := by unfold noteRwp; split <;> rfl
@[simp] theorem noteRwp_fw (b : Bool) (s : State) : (noteRwp b s).fw = s.fw := by unfold noteRwp; split <;> rfl
@[simp] theorem noteRwp_sec (b : Bool) (s : State) : (noteRwp b s).sec = s.sec := by unfold noteRwp; split <;> rfl
@[simp] theorem noteRwp_emap (b : Bool) (s : State) : (noteRwp b s).emap = s.emap := by unfold noteRwp; split <;> rfl
@[simp] theorem noteRwp_port0 (b : Bool) (s : State) : (noteRwp b s).port0 = s.port0 := by unfold noteRwp; split <;> rfl
@[simp] theorem noteRwp_port1 (b : Bool) (s : State) : (noteRwp b s).port1 = s.port1 := by unfold noteRwp; split <;> rfl
@[simp] theorem noteRwp_fns (b : Bool) (s : State) : (noteRwp b s).fns = s.fns := by unfold noteRwp; split <;> rfl
@[simp] theorem noteRwp_cmds (b : Bool) (s : State) : (noteRwp b s).cmds = s.cmds := by unfold noteRwp; split <;> rfl
@[simp] theorem noteRwp_nextCid (b : Bool) (s : State) : (noteRwp b s).nextCid = s.nextCid := by unfold noteRwp; split <;> rfl
@[simp] theorem noteRwp_ctxs (b : Bool) (s : State) : (noteRwp b s).ctxs = s.ctxs := by unfold noteRwp; split <;> rfl
@[simp] theorem noteRwp_tLast (b : Bool) (s : State) : (noteRwp b s).tLast = s.tLast := by unfold noteRwp; split <;> rfl
@[simp] theorem noteRwp_segs (b : Bool) (s : State) : (noteRwp b s).segs = s.segs := by unfold noteRwp; split <;> rfl
@[simp] theorem noteRwp_grains (b : Bool) (s : State) : (noteRwp b s).grains = s.grains := by unfold noteRwp; split <;> rfl
@[simp] theorem noteRwp_phys (b : Bool) (s : State) : (noteRwp b s).phys = s.phys := by unfold noteRwp; split <;> rfl
@[simp] theorem noteRwp_ped2s (b : Bool) (s : State) : (noteRwp b s).ped2s = s.ped2s := by unfold noteRwp; split <;> rfl
@[simp] theorem noteRwp_saves (b : Bool) (s : State) : (noteRwp b s).saves = s.saves := by unfold noteRwp; split <;> rfl
@[simp] theorem noteRwp_nextSer (b : Bool) (s : State) : (noteRwp b s).nextSer = s.nextSer := by unfold noteRwp; split <;> rfl
@[simp] theorem noteRwp_hz (b : Bool) (s : State) : (noteRwp b s).hz = s.hz := by unfold noteRwp; split <;> rfl
@[simp] theorem noteRwp_sieves (b : Bool) (s : State) : (noteRwp b s).sieves = s.sieves := by unfold noteRwp; split <;> rfl
@[simp] theorem noteRwp_gathers (b : Bool) (s : State) : (noteRwp b s).gathers = s.gathers := by unfold noteRwp; split <;> rfl
@[simp] theorem noteRwp_fab (b : Bool) (s : State) : (noteRwp b s).fab = s.fab := by unfold noteRwp; split <;> rfl
@[simp] theorem noteRwp_clods (b : Bool) (s : State) : (noteRwp b s).clods = s.clods := by unfold noteRwp; split <;> rfl
@[simp] theorem noteRwp_nextClod (b : Bool) (s : State) : (noteRwp b s).nextClod = s.nextClod := by unfold noteRwp; split <;> rfl
@[simp] theorem noteRwp_err (b : Bool) (s : State) : (noteRwp b s).err = s.err := by unfold noteRwp; split <;> rfl
@[simp] theorem noteRwp_test (b : Bool) (s : State) : (noteRwp b s).test = s.test := by unfold noteRwp; split <;> rfl
@[simp] theorem noteRwp_snap (b : Bool) (s : State) : (noteRwp b s).snap = s.snap := by unfold noteRwp; split <;> rfl
@[simp] theorem noteRwp_out (b : Bool) (s : State) : (noteRwp b s).out = s.out := by unfold noteRwp; split <;> rfl
@[simp] theorem noteRwp_freeCtr (b : Bool) (s : State) : (noteRwp b s).freeCtr = s.freeCtr := by unfold noteRwp; split <;> rfl
@[simp] theorem noteRwp_pending (b : Bool) (s : State) : (noteRwp b s).pending = s.pending := by unfold noteRwp; split <;> rfl

/-! ### dropHeld -/

@[simp] theorem dropHeld_clk (rq : Requester) (s : State) : (dropHeld rq s).clk = s.clk := rfl
@[simp] theorem dropHeld_pwr (rq : Requester) (s : State) : (dropHeld rq s).pwr = s.pwr := rfl
@[simp] theorem dropHeld_boot (rq : Requester) (s : State) : (dropHeld rq s).boot = s.boot := rfl
@[simp] theorem dropHeld_flash (rq : Requester) (s : State) : (dropHeld rq s).flash = s.flash := rfl
@[simp] theorem dropHeld_fw (rq : Requester) (s : State) : (dropHeld rq s).fw = s.fw := rfl
@[simp] theorem dropHeld_sec (rq : Requester) (s : State) : (dropHeld rq s).sec = s.sec := rfl
@[simp] theorem dropHeld_emap (rq : Requester) (s : State) : (dropHeld rq s).emap = s.emap := rfl
@[simp] theorem dropHeld_port0 (rq : Requester) (s : State) : (dropHeld rq s).port0 = s.port0 := rfl
@[simp] theorem dropHeld_port1 (rq : Requester) (s : State) : (dropHeld rq s).port1 = s.port1 := rfl
@[simp] theorem dropHeld_fns (rq : Requester) (s : State) : (dropHeld rq s).fns = s.fns := rfl
@[simp] theorem dropHeld_cmds (rq : Requester) (s : State) : (dropHeld rq s).cmds = s.cmds := rfl
@[simp] theorem dropHeld_nextCid (rq : Requester) (s : State) : (dropHeld rq s).nextCid = s.nextCid := rfl
@[simp] theorem dropHeld_ctxs (rq : Requester) (s : State) : (dropHeld rq s).ctxs = s.ctxs := rfl
@[simp] theorem dropHeld_tLast (rq : Requester) (s : State) : (dropHeld rq s).tLast = s.tLast := rfl
@[simp] theorem dropHeld_segs (rq : Requester) (s : State) : (dropHeld rq s).segs = s.segs := rfl
@[simp] theorem dropHeld_grains (rq : Requester) (s : State) : (dropHeld rq s).grains = s.grains := rfl
@[simp] theorem dropHeld_phys (rq : Requester) (s : State) : (dropHeld rq s).phys = s.phys := rfl
@[simp] theorem dropHeld_ped2s (rq : Requester) (s : State) : (dropHeld rq s).ped2s = s.ped2s := rfl
@[simp] theorem dropHeld_saves (rq : Requester) (s : State) : (dropHeld rq s).saves = s.saves := rfl
@[simp] theorem dropHeld_nextSer (rq : Requester) (s : State) : (dropHeld rq s).nextSer = s.nextSer := rfl
@[simp] theorem dropHeld_hz (rq : Requester) (s : State) : (dropHeld rq s).hz = s.hz := rfl
@[simp] theorem dropHeld_sieves (rq : Requester) (s : State) : (dropHeld rq s).sieves = s.sieves := rfl
@[simp] theorem dropHeld_gathers (rq : Requester) (s : State) : (dropHeld rq s).gathers = s.gathers := rfl
@[simp] theorem dropHeld_fab (rq : Requester) (s : State) : (dropHeld rq s).fab = s.fab := rfl
@[simp] theorem dropHeld_clods (rq : Requester) (s : State) : (dropHeld rq s).clods = s.clods := rfl
@[simp] theorem dropHeld_nextClod (rq : Requester) (s : State) : (dropHeld rq s).nextClod = s.nextClod := rfl
@[simp] theorem dropHeld_err (rq : Requester) (s : State) : (dropHeld rq s).err = s.err := rfl
@[simp] theorem dropHeld_test (rq : Requester) (s : State) : (dropHeld rq s).test = s.test := rfl
@[simp] theorem dropHeld_snap (rq : Requester) (s : State) : (dropHeld rq s).snap = s.snap := rfl
@[simp] theorem dropHeld_out (rq : Requester) (s : State) : (dropHeld rq s).out = s.out := rfl
@[simp] theorem dropHeld_freeCtr (rq : Requester) (s : State) : (dropHeld rq s).freeCtr = s.freeCtr := rfl
@[simp] theorem dropHeld_pending (rq : Requester) (s : State) : (dropHeld rq s).pending = s.pending := rfl

/-! ### setWait -/

@[simp] theorem setWait_clk (g t : Nat) (w : TSt × Nat) (s : State) : (setWait g t w s).clk = s.clk := rfl
@[simp] theorem setWait_pwr (g t : Nat) (w : TSt × Nat) (s : State) : (setWait g t w s).pwr = s.pwr := rfl
@[simp] theorem setWait_boot (g t : Nat) (w : TSt × Nat) (s : State) : (setWait g t w s).boot = s.boot := rfl
@[simp] theorem setWait_flash (g t : Nat) (w : TSt × Nat) (s : State) : (setWait g t w s).flash = s.flash := rfl
@[simp] theorem setWait_fw (g t : Nat) (w : TSt × Nat) (s : State) : (setWait g t w s).fw = s.fw := rfl
@[simp] theorem setWait_sec (g t : Nat) (w : TSt × Nat) (s : State) : (setWait g t w s).sec = s.sec := rfl
@[simp] theorem setWait_emap (g t : Nat) (w : TSt × Nat) (s : State) : (setWait g t w s).emap = s.emap := rfl
@[simp] theorem setWait_port0 (g t : Nat) (w : TSt × Nat) (s : State) : (setWait g t w s).port0 = s.port0 := rfl
@[simp] theorem setWait_port1 (g t : Nat) (w : TSt × Nat) (s : State) : (setWait g t w s).port1 = s.port1 := rfl
@[simp] theorem setWait_fns (g t : Nat) (w : TSt × Nat) (s : State) : (setWait g t w s).fns = s.fns := rfl
@[simp] theorem setWait_cmds (g t : Nat) (w : TSt × Nat) (s : State) : (setWait g t w s).cmds = s.cmds := rfl
@[simp] theorem setWait_nextCid (g t : Nat) (w : TSt × Nat) (s : State) : (setWait g t w s).nextCid = s.nextCid := rfl
@[simp] theorem setWait_ctxs (g t : Nat) (w : TSt × Nat) (s : State) : (setWait g t w s).ctxs = s.ctxs := rfl
@[simp] theorem setWait_tLast (g t : Nat) (w : TSt × Nat) (s : State) : (setWait g t w s).tLast = s.tLast := rfl
@[simp] theorem setWait_segs (g t : Nat) (w : TSt × Nat) (s : State) : (setWait g t w s).segs = s.segs := rfl
@[simp] theorem setWait_phys (g t : Nat) (w : TSt × Nat) (s : State) : (setWait g t w s).phys = s.phys := rfl
@[simp] theorem setWait_ped2s (g t : Nat) (w : TSt × Nat) (s : State) : (setWait g t w s).ped2s = s.ped2s := rfl
@[simp] theorem setWait_saves (g t : Nat) (w : TSt × Nat) (s : State) : (setWait g t w s).saves = s.saves := rfl
@[simp] theorem setWait_nextSer (g t : Nat) (w : TSt × Nat) (s : State) : (setWait g t w s).nextSer = s.nextSer := rfl
@[simp] theorem setWait_hz (g t : Nat) (w : TSt × Nat) (s : State) : (setWait g t w s).hz = s.hz := rfl
@[simp] theorem setWait_sieves (g t : Nat) (w : TSt × Nat) (s : State) : (setWait g t w s).sieves = s.sieves := rfl
@[simp] theorem setWait_gathers (g t : Nat) (w : TSt × Nat) (s : State) : (setWait g t w s).gathers = s.gathers := rfl
@[simp] theorem setWait_fab (g t : Nat) (w : TSt × Nat) (s : State) : (setWait g t w s).fab = s.fab := rfl
@[simp] theorem setWait_clods (g t : Nat) (w : TSt × Nat) (s : State) : (setWait g t w s).clods = s.clods := rfl
@[simp] theorem setWait_nextClod (g t : Nat) (w : TSt × Nat) (s : State) : (setWait g t w s).nextClod = s.nextClod := rfl
@[simp] theorem setWait_err (g t : Nat) (w : TSt × Nat) (s : State) : (setWait g t w s).err = s.err := rfl
@[simp] theorem setWait_test (g t : Nat) (w : TSt × Nat) (s : State) : (setWait g t w s).test = s.test := rfl
@[simp] theorem setWait_reg (g t : Nat) (w : TSt × Nat) (s : State) : (setWait g t w s).reg = s.reg := rfl
@[simp] theorem setWait_snap (g t : Nat) (w : TSt × Nat) (s : State) : (setWait g t w s).snap = s.snap := rfl
@[simp] theorem setWait_out (g t : Nat) (w : TSt × Nat) (s : State) : (setWait g t w s).out = s.out := rfl
@[simp] theorem setWait_freeCtr (g t : Nat) (w : TSt × Nat) (s : State) : (setWait g t w s).freeCtr = s.freeCtr := rfl
@[simp] theorem setWait_pending (g t : Nat) (w : TSt × Nat) (s : State) : (setWait g t w s).pending = s.pending := rfl

/-! ### segStatus -/

@[simp] theorem segStatus_clk (k : Nat) (st : W16) (s : State) : (segStatus k st s).clk = s.clk := rfl
@[simp] theorem segStatus_pwr (k : Nat) (st : W16) (s : State) : (segStatus k st s).pwr = s.pwr := rfl
@[simp] theorem segStatus_boot (k : Nat) (st : W16) (s : State) : (segStatus k st s).boot = s.boot := rfl
@[simp] theorem segStatus_flash (k : Nat) (st : W16) (s : State) : (segStatus k st s).flash = s.flash := rfl
@[simp] theorem segStatus_fw (k : Nat) (st : W16) (s : State) : (segStatus k st s).fw = s.fw := rfl
@[simp] theorem segStatus_sec (k : Nat) (st : W16) (s : State) : (segStatus k st s).sec = s.sec := rfl
@[simp] theorem segStatus_emap (k : Nat) (st : W16) (s : State) : (segStatus k st s).emap = s.emap := rfl
@[simp] theorem segStatus_port0 (k : Nat) (st : W16) (s : State) : (segStatus k st s).port0 = s.port0 := rfl
@[simp] theorem segStatus_port1 (k : Nat) (st : W16) (s : State) : (segStatus k st s).port1 = s.port1 := rfl
@[simp] theorem segStatus_fns (k : Nat) (st : W16) (s : State) : (segStatus k st s).fns = s.fns := rfl
@[simp] theorem segStatus_cmds (k : Nat) (st : W16) (s : State) : (segStatus k st s).cmds = s.cmds := rfl
@[simp] theorem segStatus_nextCid (k : Nat) (st : W16) (s : State) : (segStatus k st s).nextCid = s.nextCid := rfl
@[simp] theorem segStatus_ctxs (k : Nat) (st : W16) (s : State) : (segStatus k st s).ctxs = s.ctxs := rfl
@[simp] theorem segStatus_tLast (k : Nat) (st : W16) (s : State) : (segStatus k st s).tLast = s.tLast := rfl
@[simp] theorem segStatus_grains (k : Nat) (st : W16) (s : State) : (segStatus k st s).grains = s.grains := rfl
@[simp] theorem segStatus_phys (k : Nat) (st : W16) (s : State) : (segStatus k st s).phys = s.phys := rfl
@[simp] theorem segStatus_ped2s (k : Nat) (st : W16) (s : State) : (segStatus k st s).ped2s = s.ped2s := rfl
@[simp] theorem segStatus_saves (k : Nat) (st : W16) (s : State) : (segStatus k st s).saves = s.saves := rfl
@[simp] theorem segStatus_nextSer (k : Nat) (st : W16) (s : State) : (segStatus k st s).nextSer = s.nextSer := rfl
@[simp] theorem segStatus_hz (k : Nat) (st : W16) (s : State) : (segStatus k st s).hz = s.hz := rfl
@[simp] theorem segStatus_sieves (k : Nat) (st : W16) (s : State) : (segStatus k st s).sieves = s.sieves := rfl
@[simp] theorem segStatus_gathers (k : Nat) (st : W16) (s : State) : (segStatus k st s).gathers = s.gathers := rfl
@[simp] theorem segStatus_fab (k : Nat) (st : W16) (s : State) : (segStatus k st s).fab = s.fab := rfl
@[simp] theorem segStatus_clods (k : Nat) (st : W16) (s : State) : (segStatus k st s).clods = s.clods := rfl
@[simp] theorem segStatus_nextClod (k : Nat) (st : W16) (s : State) : (segStatus k st s).nextClod = s.nextClod := rfl
@[simp] theorem segStatus_err (k : Nat) (st : W16) (s : State) : (segStatus k st s).err = s.err := rfl
@[simp] theorem segStatus_test (k : Nat) (st : W16) (s : State) : (segStatus k st s).test = s.test := rfl
@[simp] theorem segStatus_reg (k : Nat) (st : W16) (s : State) : (segStatus k st s).reg = s.reg := rfl
@[simp] theorem segStatus_snap (k : Nat) (st : W16) (s : State) : (segStatus k st s).snap = s.snap := rfl
@[simp] theorem segStatus_out (k : Nat) (st : W16) (s : State) : (segStatus k st s).out = s.out := rfl
@[simp] theorem segStatus_freeCtr (k : Nat) (st : W16) (s : State) : (segStatus k st s).freeCtr = s.freeCtr := rfl
@[simp] theorem segStatus_pending (k : Nat) (st : W16) (s : State) : (segStatus k st s).pending = s.pending := rfl

end Sys2Proof.Machine
end

