-- ==== Sys2Proof/Laws/Frames.lean ====
section
/-! SUPPORT. What each shared operation over the state moves, and what a part reads as after it: one lemma for each, for proofs to
cite in place of the definition. -/

namespace Sys2Proof.Machine

open Sys2Proof

theorem portOf_updPort (s : State) (p : Nat) (f : Port → Port) (h : p ≤ 1) : portOf (updPort p f s) p = f (portOf s p) := by
  unfold portOf updPort; split <;> rfl

theorem portOf_updPort_other (s : State) (p : Nat) (f : Port → Port) (h : p ≤ 1) : portOf (updPort p f s) (1 - p) = portOf s (1 - p) := by
  obtain rfl | rfl : p = 0 ∨ p = 1 := by omega
  · rfl
  · rfl

theorem updPort_frame (s : State) (p : Nat) (f : Port → Port) : updPort p f s = { s with port0 := (updPort p f s).port0, port1 := (updPort p f s).port1 } := by
  unfold updPort; split <;> rfl

theorem fnOf_updFn (s : State) (k : Nat) (f : Fn → Fn) : fnOf (updFn k f s) k = f (fnOf s k) := by
  simp [fnOf, updFn, nmUpdD, nmGetD, nmGet_nmSet]

theorem fnOf_updFn_ne (s : State) (k j : Nat) (f : Fn → Fn) (h : j ≠ k) : fnOf (updFn k f s) j = fnOf s j := by
  simp [fnOf, updFn, nmUpdD, nmGetD, nmGet_nmSet_ne _ _ _ _ h]

theorem resetFns_fn (pick : Nat → Bool) (s : State) (fn : Nat) (h : fn < 128) (hp : pick fn = true) :
    ∃ f : Fn, fnOf (resetFns pick s) fn = { fnReset with inReset := true, aperMiss := f.aperMiss, dbDrop := f.dbDrop, replies := f.replies } := by
  unfold resetFns
  extract_lets mine s1 b fresh
  refine ⟨nmGetD s1.fns fn fnReset, ?_⟩
  unfold fnOf nmGetD
  dsimp only
  have := nmGet_foldl_nmSet pick ((List.range 128).filter pick) fresh s1.fns s1.fns fn (by simp [h, hp])
  unfold nmGetD at this
  rw [this]; rfl

theorem ctxOf_updCtx (s : State) (k : Nat) (f : Ctx → Ctx) : ctxOf (updCtx k f s) k = (ctxOf s k).map f := nmGet_nmUpd ..

theorem ctxOf_updCtx_ne (s : State) (k j : Nat) (f : Ctx → Ctx) (h : j ≠ k) : ctxOf (updCtx k f s) j = ctxOf s j := nmGet_nmUpd_ne _ _ _ _ h

theorem noteRwp_frame (b : Bool) (s : State) : noteRwp b s = { s with reg := (noteRwp b s).reg } := by
  unfold noteRwp; split <;> rfl

theorem ctxOf_noteRwp (b : Bool) (s : State) (k : Nat) : ctxOf (noteRwp b s) k = ctxOf s k := by unfold noteRwp; split <;> rfl

theorem fnOf_noteRwp (b : Bool) (s : State) (k : Nat) : fnOf (noteRwp b s) k = fnOf s k := by unfold noteRwp; split <;> rfl

theorem cmdOf_updCmd (s : State) (cid : Nat) (f : Cmd → Cmd) (hf : ∀ c, (f c).cid = c.cid) : cmdOf (updCmd cid f s) cid = (cmdOf s cid).map f := by
  unfold cmdOf updCmd updWhere
  dsimp only
  induction s.cmds with
  | nil => rfl
  | cons a l ih =>
    rw [List.map_cons, List.find?_cons, List.find?_cons]
    by_cases h : (a.cid == cid) = true
    · simp only [h, if_true, hf]; rfl
    · simp only [Bool.not_eq_true] at h
      simp only [h, Bool.false_eq_true, if_false]
      exact ih

theorem ready_spec {s : State} {cid op : Nat} {c : Cmd} (h : ready s cid op = some c) :
    cmdOf s cid = some c ∧ c.done = none ∧ c.opcode = op ∧ c.started = false := by
  unfold ready at h
  split at h
  · rename_i c' hc
    split at h
    · rename_i hh; cases h; simp at hh; exact ⟨hc, hh.1.1.1.2, hh.1.1.1.1.1, hh.1.1.1.1.2⟩
    · cases h
  · cases h

theorem doneWith_finish {s u : State} {cid op : Nat} {c : Cmd} (h : ready s cid op = some c) (hu : u.cmds = (startCmd cid s).cmds)
    (st : W16) (res : List Byte) : doneWith (finish cid st res u) cid st res := by
  obtain ⟨h1, h2, -⟩ := ready_spec h
  unfold doneWith finish
  rw [cmdOf_updCmd _ _ _ (by intro c; split <;> rfl)]
  have : cmdOf u cid = some { c with started := true } := by
    unfold cmdOf; rw [hu]
    show cmdOf (startCmd cid s) cid = _
    unfold startCmd
    rw [cmdOf_updCmd _ _ _ (by intro c; rfl), h1]; rfl
  rw [this]
  simp [h2]

theorem dropHeld_frame (s : State) (rq : Requester) : dropHeld rq s = { s with reg := (dropHeld rq s).reg } := rfl

theorem objRead_startCmd (cid : Nat) (s : State) (o : Obj) (off n : Nat) : objRead (startCmd cid s) o off n = objRead s o off n := by
  induction n generalizing off with
  | zero => rfl
  | succ n ih => simp only [objRead, ih]; rfl

theorem ctxOf_finish0 (cid : Nat) (st : W16) (s : State) (k : Nat) : ctxOf (finish0 cid st s) k = ctxOf s k := rfl

theorem ctxOf_finish (cid : Nat) (st : W16) (r : List Byte) (s : State) (k : Nat) : ctxOf (finish cid st r s) k = ctxOf s k := rfl

theorem nextIndex_startCmd (cid : Nat) (s : State) (ctx i n : Nat) : nextIndex (startCmd cid s) ctx i n = nextIndex s ctx i n := by
  induction n generalizing i with
  | zero => rfl
  | succ n ih => simp only [nextIndex, ih]; rfl

theorem pickIndex_startCmd (cid : Nat) (s : State) (ctx : Nat) : pickIndex (startCmd cid s) ctx = pickIndex s ctx := nextIndex_startCmd ..

theorem allocOn_objs (hzn i j : Nat) (host : Nat × Nat) (s : State) :
    (allocOn hzn i j host s).2.2.hz.objs = s.hz.objs ∧ (allocOn hzn i j host s).2.2.cmds = s.cmds := by
  unfold allocOn
  split
  · unfold allocFrame; dsimp only; split <;> exact ⟨rfl, rfl⟩
  · split
    · split
      · rename_i h; unfold allocDrive at h; dsimp only at h; split at h
        · cases h
        · cases h; exact ⟨rfl, rfl⟩
      · exact ⟨rfl, rfl⟩
    · exact ⟨rfl, rfl⟩

theorem alloc_foldl (pin : Bool) (hzn i port : Nat) (host : List Nat) (l : List Nat) (a : List Gran × State) :
    let r := l.foldl (fun (a : List Gran × State) j =>
            let x := allocOn hzn i j (port, host.getD j 0) a.2
            (a.1 ++ [newGran pin hzn x.1 x.2.1], x.2.2)) a
    r.1.length = a.1.length + l.length ∧ r.2.hz.objs = a.2.hz.objs ∧ r.2.cmds = a.2.cmds := by
  induction l generalizing a with
  | nil => exact ⟨rfl, rfl, rfl⟩
  | cons x l ih =>
    rw [List.foldl_cons]
    have := ih ((a.1 ++ [newGran pin hzn (allocOn hzn i x (port, host.getD x 0) a.2).1 (allocOn hzn i x (port, host.getD x 0) a.2).2.1], (allocOn hzn i x (port, host.getD x 0) a.2).2.2))
    have k := allocOn_objs hzn i x (port, host.getD x 0) a.2
    refine ⟨this.1.trans ?_, this.2.1.trans k.1, this.2.2.trans k.2⟩
    simp; omega

theorem sendNow_keeps (p : Nat) (f : Flit) (s : State) : (sendNow p f s).hz = s.hz ∧ (sendNow p f s).phys = s.phys ∧
    (sendNow p f s).fab.wins = s.fab.wins ∧ (sendNow p f s).fab.preparedWin = s.fab.preparedWin := ⟨rfl, rfl, rfl, rfl⟩

theorem routeFlit_keeps (k : Nat) (f : Flit) (s : State) : (routeFlit k f s).hz = s.hz ∧ (routeFlit k f s).phys = s.phys ∧
    (routeFlit k f s).fab.wins = s.fab.wins ∧ (routeFlit k f s).fab.preparedWin = s.fab.preparedWin := by
  unfold routeFlit routeFrom txFlit giveBack
  split
  · exact ⟨rfl, rfl, rfl, rfl⟩
  · exact ⟨rfl, rfl, rfl, rfl⟩
  · dsimp only
    split <;> exact ⟨rfl, rfl, rfl, rfl⟩

theorem bumpT_frame (g : Nat) (t : Option Nat) (e ev n : Nat) (s : State) : bumpT g t e ev n s = { s with ped2s := (bumpT g t e ev n s).ped2s } := by
  unfold bumpT
  dsimp only
  split
  · rfl
  · split <;> rfl

theorem refusedAt_keeps (c p g : Nat) (s : State) : (refusedAt c p g s).hz = s.hz ∧ (refusedAt c p g s).phys = s.phys ∧
    (refusedAt c p g s).fab.wins = s.fab.wins ∧ (refusedAt c p g s).fab.preparedWin = s.fab.preparedWin := by
  unfold refusedAt
  split
  · exact ⟨rfl, rfl, rfl, rfl⟩
  · dsimp only
    split <;> exact ⟨rfl, rfl, rfl, rfl⟩

theorem countRefused_keeps (s0 : State) (w : Option Win) (a b : Nat) (s : State) : (countRefused s0 w a b s).hz = s.hz ∧
    (countRefused s0 w a b s).phys = s.phys ∧ (countRefused s0 w a b s).fab.wins = s.fab.wins ∧
    (countRefused s0 w a b s).fab.preparedWin = s.fab.preparedWin := by
  unfold countRefused
  split
  · exact ⟨rfl, rfl, rfl, rfl⟩
  · split
    · split
      · exact refusedAt_keeps ..
      · exact ⟨rfl, rfl, rfl, rfl⟩
    · dsimp only
      split
      · exact refusedAt_keeps ..
      · exact ⟨rfl, rfl, rfl, rfl⟩

theorem signal_frame (fn v : Nat) (u : State) : signal fn v u = { u with fns := (signal fn v u).fns, out := (signal fn v u).out } := by
  unfold signal; dsimp only; split <;> (try split) <;> (try split) <;> rfl

theorem updRing_frame (h : Nat) (f : ErrRing → ErrRing) (s : State) : updRing h f s = { s with err := (updRing h f s).err } := by
  unfold updRing; split <;> rfl

theorem fatalPut_frame (b : List Byte) (s : State) : fatalPut b s = { s with err := (fatalPut b s).err } := by
  unfold fatalPut; dsimp only; split <;> rfl

def ErrOnly (u v : State) : Prop := u = { v with err := u.err, fns := u.fns, out := u.out }

theorem ErrOnly.tr {a b c : State} (h1 : ErrOnly a b) (h2 : ErrOnly b c) : ErrOnly a c := by
  unfold ErrOnly at *; rw [h2] at h1; exact h1

theorem signal_err (fn v : Nat) (u : State) : ErrOnly (signal fn v u) u := by
  unfold ErrOnly; rw [signal_frame]

theorem updRing_err (h : Nat) (f : ErrRing → ErrRing) (s : State) : ErrOnly (updRing h f s) s := by
  unfold ErrOnly; rw [updRing_frame]

theorem fatalPut_err (b : List Byte) (s : State) : ErrOnly (fatalPut b s) s := by
  unfold ErrOnly; rw [fatalPut_frame]

theorem postRec_frame (cls sev : Nat) (ctx : Option Nat) (die unit : Nat) (detail : List (Nat × Nat × Nat)) (s : State) :
    postRec cls sev ctx die unit detail s = { s with err := (postRec cls sev ctx die unit detail s).err, fns := (postRec cls sev ctx die unit detail s).fns, out := (postRec cls sev ctx die unit detail s).out } := by
  show ErrOnly _ _
  unfold postRec
  extract_lets b lost s1
  have h1 : ErrOnly s1 s := by
    dsimp -zeta only [s1]; split
    · exact fatalPut_err ..
    · rfl
  split
  · exact h1
  · split
    · exact ((signal_err ..).tr (updRing_err ..)).tr h1
    · exact ((signal_err ..).tr ((signal_err ..).tr ((updRing_err ..).tr (updRing_err ..)))).tr h1

theorem postRec_cLr (a b : Nat) (c : Option Nat) (d e : Nat) (f) (u : State) : (postRec a b c d e f u).err.cLr = u.err.cLr := by
  have hs : ∀ fn v u, (signal fn v u).err = u.err := by intro fn v u; rw [signal_frame]
  have hf : ∀ b' u, (fatalPut b' u).err.cLr = u.err.cLr := by
    intro b' u; unfold fatalPut; dsimp only; split <;> rfl
  have hr : ∀ p b' v, (updRing p b' v).err.cLr = v.err.cLr := by
    intro p b' v; unfold updRing; split <;> rfl
  unfold postRec
  extract_lets b1 lost s1
  have h1 : s1.err.cLr = u.err.cLr := by
    dsimp -zeta only [s1]; split
    · exact hf ..
    · rfl
  clear_value s1
  split
  · exact h1
  · split <;> simp [hs, h1, hr]

def HzOnly (u v : State) : Prop := u = { v with hz := u.hz, segs := u.segs, err := u.err, fns := u.fns, out := u.out }

theorem HzOnly.rfl' (v : State) : HzOnly v v := rfl

theorem HzOnly.tr {a b c : State} (h1 : HzOnly a b) (h2 : HzOnly b c) : HzOnly a c := by
  unfold HzOnly at *; rw [h2] at h1; exact h1

theorem HzOnly.fold {α : Type} (f : State → α → State) (hf : ∀ s a, HzOnly (f s a) s) (l : List α) (s : State) : HzOnly (l.foldl f s) s := by
  induction l generalizing s with
  | nil => exact HzOnly.rfl' s
  | cons a l ih => rw [List.foldl_cons]; exact (ih _).tr (hf _ _)

theorem locSet_hz (v : Byte) (l : Loc) (s : State) : HzOnly (locSet v l s) s := by
  unfold locSet HzOnly; split <;> (try split) <;> rfl

theorem noteWrite_hz (h : W32) (j : Nat) (s : State) : HzOnly (noteWrite h j s) s := rfl

theorem postRec_hz (a b : Nat) (c : Option Nat) (d e : Nat) (f) (u : State) : HzOnly (postRec a b c d e f u) u := by
  unfold HzOnly; rw [postRec_frame]

theorem hz4Failure_hz (o : Obj) (off cause : Nat) (s : State) : HzOnly (hz4Failure o off cause s) s := by
  unfold hz4Failure
  split
  · exact HzOnly.rfl' s
  · exact (postRec_hz ..).tr rfl

theorem objWrite_hz (h : W32) (bs : List (Nat × Byte)) (s : State) : HzOnly (objWrite h bs s) s := by
  unfold objWrite
  split
  · exact HzOnly.rfl' s
  · extract_lets s0 fails bs1 s1 s2 s3 r
    have h0 : HzOnly s0 s := by
      dsimp -zeta only [s0]; split
      · exact hz4Failure_hz ..
      · exact HzOnly.rfl' s
    have h1 : HzOnly s1 s0 := HzOnly.fold _ (fun s a => locSet_hz ..) _ _
    have h2 : HzOnly s2 s1 := rfl
    have h3 : HzOnly s3 s2 := HzOnly.fold _ (fun s a => by unfold HzOnly; rfl) _ _
    have h4 : ∀ (l : List Nat) (a : List Nat × State), HzOnly (l.foldl (fun (a : List Nat × State) j => if j ∈ a.1 then a else (j :: a.1, noteWrite h j a.2)) a).2 a.2 := by
      intro l; induction l with
      | nil => intro a; exact HzOnly.rfl' _
      | cons x l ih =>
        intro a; rw [List.foldl_cons]
        refine (ih _).tr ?_
        split
        · exact HzOnly.rfl' _
        · exact noteWrite_hz ..
    exact (h4 _ _).tr (h3.tr (h2.tr (h1.tr h0)))

theorem objWriteAt_hz (h : W32) (off : Nat) (b : List Byte) (s : State) : HzOnly (objWriteAt h off b s) s := objWrite_hz ..

theorem onBar_on (rq : Requester) (f : State → State) (s : State) (h : rqOff s rq = false) : onBar rq f s = f (dropHeld rq s) := by
  unfold onBar; rw [if_neg (by simp [h])]

theorem any_startCmd (cid : Nat) (s : State) (p : Cmd → Bool) (h : ∀ c, p { c with started := true } = p c) : (startCmd cid s).cmds.any p = s.cmds.any p := by
  show (updWhere _ _ s.cmds).any p = _
  unfold updWhere
  rw [List.any_map]
  congr 1; funext c; dsimp only [Function.comp]; split
  · exact h c
  · rfl

theorem allocFrames_frame (n : Nat) (l : List Nat) (s : State) : ∃ h f, (allocFrames n l s).2 = { s with hz := h, freeCtr := f } := by
  induction n generalizing l s with
  | zero => exact ⟨_, _, rfl⟩
  | succ n ih =>
    unfold allocFrames
    obtain ⟨h, f, e⟩ := ih (l ++ [(allocFrame 1 s).1]) (allocFrame 1 s).2
    rw [e]; exact ⟨h, f, rfl⟩

theorem signal_keeps (fn v : Nat) (u : State) : (signal fn v u).pwr = u.pwr ∧ (signal fn v u).boot = u.boot ∧ (signal fn v u).reg = u.reg ∧ (signal fn v u).hz = u.hz ∧ (signal fn v u).emap = u.emap ∧ (signal fn v u).flash = u.flash := by
  unfold signal; dsimp only; split <;> (try split) <;> exact ⟨rfl, rfl, rfl, rfl, rfl, rfl⟩

theorem postRec_keeps (a b : Nat) (c : Option Nat) (d e : Nat) (f) (u : State) : (postRec a b c d e f u).pwr = u.pwr ∧ (postRec a b c d e f u).boot = u.boot ∧ (postRec a b c d e f u).reg = u.reg ∧ (postRec a b c d e f u).hz = u.hz ∧ (postRec a b c d e f u).emap = u.emap ∧ (postRec a b c d e f u).flash = u.flash := by
  rw [postRec_frame]; exact ⟨rfl, rfl, rfl, rfl, rfl, rfl⟩

theorem updDie_foldl (l : List (Nat × Nat)) (u : State) : ∃ d, l.foldl (fun s e => updDie e.1 (fun d => { d with w := min e.2 65535 }) s) u = { u with pwr := { u.pwr with dies := d } } := by
  induction l generalizing u with
  | nil => exact ⟨u.pwr.dies, rfl⟩
  | cons a l ih => rw [List.foldl_cons]; obtain ⟨d, h⟩ := ih (updDie a.1 (fun d => { d with w := min a.2 65535 }) u); exact ⟨d, by rw [h]; rfl⟩

theorem measureImage_frame (n e : Nat) (s : State) : measureImage n e s = { s with sec := (measureImage n e s).sec } := by
  unfold measureImage
  extract_lets m s1
  have h1 : s1 = { s with sec := s1.sec } := rfl
  have key : ∀ (l : List Nat) (u : State), l.foldl (fun s ty => match partOf m ty with
    | some p => measure (ty + 2) e (BitVec.ofNat 32 (u32 p 4)) (Config.sm3 (partBytes s n p)) s
    | none => s) u = { u with sec := (l.foldl (fun s ty => match partOf m ty with
    | some p => measure (ty + 2) e (BitVec.ofNat 32 (u32 p 4)) (Config.sm3 (partBytes s n p)) s
    | none => s) u).sec } := by
    intro l; induction l with
    | nil => intro u; rfl
    | cons a l ih => intro u; rw [List.foldl_cons, ih]; split <;> rfl
  exact key _ s1

theorem measureState_frame (e : Nat) (s : State) : measureState e s = { s with sec := (measureState e s).sec } := rfl

theorem measureStart_frame (n e : Nat) (s : State) : measureStart n e s = { s with sec := (measureStart n e s).sec } := by
  unfold measureStart
  extract_lets s1 s2 fact s3 pick v
  have h2 : s2 = { s1 with sec := s2.sec } := by
    dsimp -zeta only [s2]; split
    · rfl
    · exact measureImage_frame ..
  have h3 : s3 = { s with sec := s3.sec } := by
    dsimp -zeta only [s3]; rw [h2]; rfl
  clear_value s3 v
  rw [h3]; rfl

theorem writeDir_frame (f : Dir → Dir) (s : State) : writeDir f s = { s with fw := (writeDir f s).fw, flash := (writeDir f s).flash } := by
  unfold writeDir; dsimp only; split <;> rfl

theorem trialCommit_frame (s : State) : trialCommit s = { s with fw := (trialCommit s).fw, flash := (trialCommit s).flash, sec := (trialCommit s).sec } := by
  unfold trialCommit
  split
  · rfl
  · extract_lets n fl s1 x s2
    have h1 : s1 = { s with fw := s1.fw, flash := s1.flash } := writeDir_frame ..
    rw [measureState_frame, measureImage_frame]
    dsimp -zeta only [s2]
    rw [h1]

theorem takeAdmin_foldl_frame (l : List (Nat × Fn)) (s : State) : l.foldl (fun s e => takeAdmin e.1 s) s = { s with fns := (l.foldl (fun s e => takeAdmin e.1 s) s).fns } := by
  induction l generalizing s with
  | nil => rfl
  | cons a l ih => rw [List.foldl_cons, ih]; rfl

theorem endCold_spec (o r : Nat) (s : State) (h : o ≠ 3) : (endCold o r s).boot = { s.boot with running := false, outcome := o, reason := r, elapsedMs := elapsed s, ready := true, phase := 15 } ∧ (endCold o r s).emap = s.emap := by
  unfold endCold
  simp only [if_neg h]
  rw [takeAdmin_foldl_frame, trialCommit_frame]
  exact ⟨rfl, rfl⟩

theorem fportOf_updFport (s : State) (p : Nat) (f : FPort → FPort) : fportOf (updFport p f s) p = f (fportOf s p) := by
  simp [fportOf, updFport, updFab, nmUpdD, nmGetD, nmGet_nmSet]

theorem postRec_keeps_fab (a b : Nat) (c : Option Nat) (d e : Nat) (f) (u : State) : (postRec a b c d e f u).fab = u.fab ∧ (postRec a b c d e f u).err.cLr = u.err.cLr :=
  ⟨by rw [postRec_frame], postRec_cLr ..⟩

theorem portRec_keeps (p e q : Nat) (s : State) : fportOf (portRec p e s) q = fportOf s q ∧ (portRec p e s).fab = s.fab ∧ (portRec p e s).err.cLr = s.err.cLr := by
  unfold portRec fportOf; dsimp only; rw [(postRec_keeps_fab ..).1, (postRec_keeps_fab ..).2]; exact ⟨rfl, rfl, rfl⟩

theorem ackBack_nil (p : Nat) (a : BitVec 12) (s : State) (h : (fportOf s p).buf = []) : ackBack p a s = s := by
  unfold ackBack; simp [h]

def portKey (x : FPort) : PSt × Bool × Nat × Nat × BitVec 12 × Nat := (x.st, x.retraining, x.retrains, x.naks, x.nakSeq, x.replays)

def SamePorts (u v : State) : Prop := u.err = v.err ∧ u.emap = v.emap ∧ ∀ q, portKey (fportOf u q) = portKey (fportOf v q)

theorem SamePorts.rfl' (u : State) : SamePorts u u := ⟨rfl, rfl, fun _ => rfl⟩

theorem SamePorts.tr {a b c : State} (h1 : SamePorts a b) (h2 : SamePorts b c) : SamePorts a c :=
  ⟨h1.1.trans h2.1, h1.2.1.trans h2.2.1, fun q => (h1.2.2 q).trans (h2.2.2 q)⟩

theorem SamePorts.fold {α : Type} (f : State → α → State) (hf : ∀ s a, SamePorts (f s a) s) (l : List α) (s : State) : SamePorts (l.foldl f s) s := by
  induction l generalizing s with
  | nil => exact .rfl' s
  | cons a l ih => rw [List.foldl_cons]; exact (ih _).tr (hf _ _)

theorem fportOf_upd_ne (s : State) (p q : Nat) (f : FPort → FPort) (h : q ≠ p) : fportOf (updFport p f s) q = fportOf s q := by
  show (nmGet (nmSet p _ _) q).getD _ = _; rw [nmGet_nmSet_ne _ _ _ _ h]; rfl

theorem samePorts_upd (p : Nat) (f : FPort → FPort) (s : State) (hf : ∀ x, portKey (f x) = portKey x) :
    SamePorts (updFport p f s) s := by
  refine ⟨rfl, rfl, fun q => ?_⟩
  by_cases h : q = p
  · rw [h, fportOf_updFport]; exact hf _
  · rw [fportOf_upd_ne _ _ _ _ h]

theorem samePorts_giveBack (o : Option (Nat × Nat)) (f : Flit) (s : State) : SamePorts (giveBack o f s) s := by
  unfold giveBack; split <;> exact ⟨rfl, rfl, fun _ => rfl⟩

theorem samePorts_sendNow (p : Nat) (f : Flit) (s : State) : SamePorts (sendNow p f s) s :=
  SamePorts.tr (b := updFport p _ s) ⟨rfl, rfl, fun _ => rfl⟩ (samePorts_upd _ _ _ (fun _ => rfl))

theorem samePorts_route (o : Option (Nat × Nat)) (k : Nat) (f : Flit) (s : State) : SamePorts (routeFrom o k f s) s := by
  unfold routeFrom
  split
  · exact samePorts_giveBack ..
  · exact (samePorts_giveBack ..).tr ⟨rfl, rfl, fun _ => rfl⟩
  · unfold txFlit
    dsimp only
    split
    · exact (samePorts_giveBack ..).tr (samePorts_sendNow ..)
    · exact samePorts_upd _ _ _ (fun _ => rfl)

theorem samePorts_rejoin (d : Nat) (s : State) : SamePorts (rejoinBundle d s) s := by
  unfold rejoinBundle
  dsimp only
  split
  · exact .rfl' s
  · exact (SamePorts.fold _ (fun s w => samePorts_route ..) _ _).tr (SamePorts.fold (fun s p => updFport p (fun x => { x with rejoin := false, wait := [] }) s) (fun s w => samePorts_upd w _ s (fun _ => rfl)) _ _)

theorem samePorts_drain (p n : Nat) (s : State) : SamePorts (drainPort p n s) s := by
  induction n generalizing s with
  | zero => exact .rfl' s
  | succ n ih =>
    unfold drainPort
    dsimp only
    split
    · exact .rfl' s
    · exact (ih _).tr ((samePorts_giveBack ..).tr ((samePorts_sendNow ..).tr (samePorts_upd _ _ _ (fun _ => rfl))))

theorem samePorts_ackBack (p : Nat) (a : BitVec 12) (s : State) : SamePorts (ackBack p a s) s := by
  unfold ackBack
  dsimp only
  split
  · exact (samePorts_rejoin ..).tr ((samePorts_drain ..).tr (samePorts_upd _ _ _ (fun _ => rfl)))
  · exact .rfl' s

theorem leaveUp_spec (p : Nat) (st : PSt) (s : State) : (leaveUp p st s).err = s.err ∧ (fportOf (leaveUp p st s) p).st = st ∧
    (fportOf (leaveUp p st s) p).retraining = (fportOf s p).retraining ∧ (fportOf (leaveUp p st s) p).retrains = (fportOf s p).retrains ∧
    ∀ q, q ≠ p → (fportOf (leaveUp p st s) q).st = (fportOf s q).st := by
  unfold leaveUp
  extract_lets fp fs s1 s2
  have k : SamePorts (fs.foldl (fun s f => if flitFt f.1 = 0 then routeFrom f.2 (keysel f.1) f.1 s else s) s2) s1 :=
    (SamePorts.fold _ (fun s w => by split; exact samePorts_route ..; exact .rfl' _) _ _).tr (samePorts_rejoin ..)
  refine ⟨k.1, ?_, ?_, ?_, ?_⟩
  · refine (congrArg (·.1) (k.2.2 p)).trans ?_; simp [s1, fportOf_updFport, portKey]
  · refine (congrArg (·.2.1) (k.2.2 p)).trans ?_; simp [s1, fportOf_updFport, portKey, fp]
  · refine (congrArg (·.2.2.1) (k.2.2 p)).trans ?_; simp [s1, fportOf_updFport, portKey]
  · intro q hq; refine (congrArg (·.1) (k.2.2 q)).trans ?_; simp [s1, fportOf_upd_ne _ _ _ _ hq, portKey]

theorem startRetrain_spec (p : Nat) (s : State) :
   (fportOf (startRetrain p s) p).st = .training ∧ (fportOf (startRetrain p s) p).retraining = true ∧
   (fportOf (startRetrain p s) p).identing = ((fportOf s p).st == .ident) ∧
   (fportOf (startRetrain p s) p).retrains = satAdd 16 (fportOf s p).retrains 1 ∧ (startRetrain p s).err.cLr = s.err.cLr + 1 := by
  unfold startRetrain
  dsimp only
  obtain ⟨k1, k2, -, k4, -⟩ := leaveUp_spec p .training s
  rw [(portRec_keeps _ _ p _).1, (portRec_keeps _ _ p _).2.2]
  have e : ∀ (F : FPort → FPort) (u : State), fportOf { updFport p F u with err := { (updFport p F u).err with cLr := (updFport p F u).err.cLr + 1 } } p = F (fportOf u p) := fun F u => fportOf_updFport ..
  rw [e]
  refine ⟨k2, rfl, rfl, ?_, ?_⟩
  · show satAdd 16 (fportOf (leaveUp p .training s) p).retrains 1 = _; rw [k4]
  · show (leaveUp p .training s).err.cLr + 1 = _; rw [k1]

theorem ped2Of_updPed2 (s : State) (p : Nat) (f : Ped2 → Ped2) : ped2Of (updPed2 p f s) p = f (ped2Of s p) := by
  simp [ped2Of, updPed2, nmUpdD, nmGetD, nmGet_nmSet]

theorem ped2Of_updPed2_ne (s : State) (p q : Nat) (f : Ped2 → Ped2) (h : q ≠ p) : ped2Of (updPed2 p f s) q = ped2Of s q := by
  simp [ped2Of, updPed2, nmUpdD, nmGetD, nmGet_nmSet_ne _ _ _ _ h]

theorem snapBefore_startCmd (s : State) (cid : Nat) : snapBefore (startCmd cid s) cid = snapBefore s cid := by
  unfold snapBefore startCmd updCmd updWhere
  rw [List.any_map]
  congr 1; funext x
  simp only [Function.comp_apply]; split <;> rfl

theorem writeDir_dir (f : Dir → Dir) (s : State) (hf : ∀ d, (f d).seq = d.seq ∧ (f d).valid = d.valid) : ∃ q v, (writeDir f s).fw = { s.fw with dir := { f s.fw.dir with seq := q, valid := v } } := by
  unfold writeDir; dsimp only; split
  · exact ⟨(f s.fw.dir).seq, (f s.fw.dir).valid, rfl⟩
  · exact ⟨_, _, rfl⟩

theorem endAct_some (st : W16) (r : List Byte) (s : State) (cid : Nat) (h : s.fw.actCid = some cid) : endActivate st r s = finish cid st r { s with fw := { s.fw with actCid := none } } := by
  unfold endActivate; rw [h]

theorem spdmOf_set (tr : Transport) (x : Spdm) (s : State) : spdmOf (spdmSet tr x s) tr = x := by
  unfold spdmOf spdmSet
  dsimp only
  rw [List.find?_append]
  have : (s.sec.spdm.filter (fun e => e.1 != tr)).find? (fun e => e.1 == tr) = none := by
    rw [List.find?_eq_none]; intro e he; simp at he; simpa using he.2
  rw [this]; simp

theorem spdmOf_emit (tr : Transport) (o : Out) (s : State) : spdmOf (emit o s) tr = spdmOf s tr := rfl

theorem serve_next (tr : Transport) (go : State → State) (s : State) (h1 : spdmServes s tr = true) (h2 : s.fw.st ≠ .handover) (h3 : s.fw.st ≠ .switch) : spdmServe tr go s = go s := by
  unfold spdmServe; rw [if_neg (by simp [h1]), if_neg (by simp [h2, h3])]

theorem serveReady_next (tr : Transport) (go : State → State) (s : State) (h1 : spdmServes s tr = true) (h2 : s.fw.st ≠ .handover) (h3 : s.fw.st ≠ .switch) (h4 : (spdmOf s tr).negotiated = true) : spdmReady tr go s = go s := by
  unfold spdmReady; rw [serve_next _ _ _ h1 h2 h3, if_pos h4]

theorem finish_hostWrite (cid : Nat) (st : W16) (r : List Byte) (a b : Nat) (c : List Byte) (u : State) :
  finish cid st r (hostWrite a b c (startCmd cid u)) = { u with cmds := (finish cid st r (hostWrite a b c (startCmd cid u))).cmds, out := (finish cid st r (hostWrite a b c (startCmd cid u))).out, hz := (hostWrite a b c u).hz } := by
  unfold hostWrite; dsimp only; split <;> rfl

theorem ctxOf_startCmd (cid : Nat) (s : State) (k : Nat) : ctxOf (startCmd cid s) k = ctxOf s k := rfl

theorem runOut_startCmd (cid : Nat) (s : State) (ctx : Nat) : runOut (startCmd cid s) ctx = runOut s ctx := by
  unfold runOut; rw [any_startCmd _ _ _ (fun _ => rfl)]; rfl

theorem servePosts_nil (tag : Nat) (s : State) (h : redWaiting s 0x18 tag = []) : servePosts tag s = s := by
  unfold servePosts; rw [h]; rfl

theorem servePosts_foldl (l : NatMap Bucket) (u : State) (h : ∀ e ∈ l, redWaiting u 0x18 e.1 = []) :
  l.foldl (fun s e => if redWaiting s 0x18 e.1 == [] then s else servePosts e.1 s) u = u := by
  induction l with
  | nil => rfl
  | cons a l ih =>
    rw [List.foldl_cons]
    have := h a (by simp)
    rw [if_pos (by simp [this])]
    exact ih (fun e he => h e (by simp [he]))

theorem instOf_updInst (s : State) (tag : Nat) (f : Inst → Inst) (hf : ∀ i, (f i).tag = i.tag) : instOf (updInst tag f s) tag = (instOf s tag).map f := by
  unfold instOf updInst updFab updWhere
  dsimp only
  induction s.fab.insts with
  | nil => rfl
  | cons a l ih =>
    rw [List.map_cons, List.find?_cons, List.find?_cons]
    by_cases h : (a.tag == tag) = true
    · simp only [h, if_true, hf]; rfl
    · simp only [Bool.not_eq_true] at h
      simp only [h, Bool.false_eq_true, if_false]
      exact ih

theorem updPhys_foldl_frame {α : Type} (l : List α) (k : State → α → Nat) (f : α → Phys → Phys) (s : State) : ∃ q, l.foldl (fun s e => updPhys (k s e) (f e) s) s = { s with phys := q } := by
  induction l generalizing s with
  | nil => exact ⟨s.phys, rfl⟩
  | cons a l ih => rw [List.foldl_cons]; obtain ⟨q, h⟩ := ih (updPhys (k s a) (f a) s); exact ⟨q, by rw [h]; rfl⟩

theorem physOf_updPhys (s : State) (p : Nat) (f : Phys → Phys) : physOf (updPhys p f s) p = f (physOf s p) := by
  simp [physOf, updPhys, nmUpdD, nmGetD, nmGet_nmSet]

theorem pendOf_closePend (rq : Requester) (g : GReg) (s : State) : pendOf (closePend rq g s) rq g = none := by
  unfold pendOf closePend
  simp only
  have : (s.reg.pend.filter (fun e => !(e.1 == rq && e.2.1 == g))).find? (fun e => e.1 == rq && e.2.1 == g) = none := by
    rw [List.find?_eq_none]; intro x hx; rw [List.mem_filter] at hx; have h := hx.2; intro hh; rw [hh] at h; cases h
  rw [this]; rfl

theorem pendOf_openPend (rq : Requester) (g : GReg) (v : W32) (s : State) : pendOf (openPend rq g v s) rq g = some v := by
  have h := pendOf_closePend rq g s
  unfold pendOf at h ⊢
  unfold openPend
  simp only
  rw [List.find?_append]
  rw [Option.map_eq_none_iff] at h
  rw [h]
  simp

theorem guardedPair_takes (rq : Requester) (g : GReg) (va : W32) (s : State) (h0 : rqOff s rq = false) (h1 : gMay rq g = true) (h2 : pendOf s rq g = some va)
   (h3 : gReject rq g va (closePend rq g (dropHeld rq s)) = false) :
   doGuardedPair g rq (~~~va) s = gTake rq g va (closePend rq g (dropHeld rq s)) := by
  unfold doGuardedPair onBar guardB
  rw [if_neg (by simp [h0])]
  have h2' : pendOf (dropHeld rq s) rq g = some va := h2
  simp only [h1, h2', h3]
  simp

theorem ctxOf_updCtx_some (ctx : Nat) (s : State) (c : Ctx) (f : Ctx → Ctx) (h : ctxOf s ctx = some c) (hf : ∀ c, (f c).num = c.num) :
   ctxOf (updCtx ctx f s) ctx = some (f c) := by rw [ctxOf_updCtx _ _ _, h]; rfl

theorem noteRwp_clear (b : Bool) (s : State) (x : W32) : { noteRwp b { s with sec := { s.sec with alarm := x } } with
    sec := { (noteRwp b { s with sec := { s.sec with alarm := x } }).sec with level := 0, cause := 0 } } =
    noteRwp b { s with sec := { s.sec with alarm := x, level := 0, cause := 0 } } := by cases b <;> rfl

theorem registerWrite_word (rq : Requester) (a size : Nat) (val : W64) (s : State) (h1 : rqOff s rq = false) (h2 : a % 4 = 0)
    (h : sizeOk a size = true) (h3 : mapAddr s rq a = some a) (h4 : gAddr a = none) :
    doRegisterWrite rq a size val s = writeAt rq a size val s := by
  have e : a / 4 * 4 = a := by omega
  unfold doRegisterWrite
  rw [if_neg (by simp [h1])]
  dsimp only
  rw [if_pos h, h3]
  dsimp only
  rw [e, h4]
  dsimp only
  rw [if_pos h]

theorem warmStep_frame (s : State) : warmStep s = { s with pwr := { s.pwr with level := (warmStep s).pwr.level, move := (warmStep s).pwr.move, saturated := (warmStep s).pwr.saturated } } := by unfold warmStep; split <;> rfl

theorem quietFold (bal : Option Bal) (l : List Nat) (u : State) : l.foldl (fun s g => updGrain g (fun gr => { gr with bal := bal, gated := false }) s) u =
    { u with grains := (l.foldl (fun s g => updGrain g (fun gr => { gr with bal := bal, gated := false }) s) u).grains } := by
  induction l generalizing u with
  | nil => rfl
  | cons a l ih => rw [List.foldl_cons, ih]; rfl

theorem endWake_frame (p i : Nat) (s : State) : endWake p i s = { s with grains := (endWake p i s).grains, ped2s := (endWake p i s).ped2s } := by
  unfold endWake
  extract_lets s1
  have h1 : s1 = { s with ped2s := s1.ped2s } := rfl
  clear_value s1
  split
  · split
    · rw [h1]
    · rw [quietFold, h1]
  · rw [h1]

theorem gateFold (l : List (Nat × Ped2)) (u : State) : ∃ g p, l.foldl (fun s e => (e.2.prewake.filter (fun w => w.2.toNat ≤ s.clk.pcc.toNat)).foldl
    (fun s w => endWake e.1 w.1 s) s) u = { u with grains := g, ped2s := p } := by
  have k1 : ∀ (p : Nat) (l : List (Nat × W64)) (u : State), ∃ g p', l.foldl (fun s w => endWake p w.1 s) u = { u with grains := g, ped2s := p' } := by
    intro p l; induction l with
    | nil => intro u; exact ⟨_, _, rfl⟩
    | cons a l ih => intro u; rw [List.foldl_cons]; obtain ⟨g, p', h⟩ := ih (endWake p a.1 u); rw [h, endWake_frame]; exact ⟨_, _, rfl⟩
  induction l generalizing u with
  | nil => exact ⟨_, _, rfl⟩
  | cons a l ih =>
    rw [List.foldl_cons]
    obtain ⟨g, p, h⟩ := k1 a.1 (a.2.prewake.filter (fun w => w.2.toNat ≤ u.clk.pcc.toNat)) u
    rw [h]
    obtain ⟨g', p', h'⟩ := ih { u with grains := g, ped2s := p }
    rw [h']; exact ⟨_, _, rfl⟩

theorem gateStep_frame (s : State) : gateStep s = { s with grains := (gateStep s).grains, ped2s := (gateStep s).ped2s } := by
  unfold gateStep
  extract_lets stop quiet s1
  have h1 : s1 = { s with grains := s1.grains, ped2s := s1.ped2s } := rfl
  clear_value s1
  obtain ⟨g, p, h⟩ := gateFold s1.ped2s s1
  rw [h, h1]

theorem tick_pcc (s : State) (h : s.clk.pccRun = true) : (tick s).clk.pccRun = true ∧ (tick s).clk.pcc = s.clk.pcc + 1 := by
  have k : (laneStep (eccStep s)).clk = s.clk := congrArg Prod.fst ((kept_laneStep ..).trans (kept_eccStep ..))
  unfold tick
  rw [if_neg (by simp [h])]
  dsimp only
  rw [gateStep_frame, warmStep_frame]
  exact ⟨(congrArg Clk.pccRun k).trans h, congrArg (fun c => c.pcc + 1) k⟩

theorem semVal_put (ped : W32) (i v : Nat) (c : Ctx) : semVal (semPut ped i v c) ped i = v := by
  unfold semVal semPut
  dsimp only
  split
  · rename_i h
    split at h
    · rename_i h2
      have : (c.sems.filter (fun e => !(e.1.1 == ped && e.1.2 == i))).find? (fun e => e.1.1 == ped && e.1.2 == i) = none := by
        rw [List.find?_eq_none]; intro x hx; rw [List.mem_filter] at hx; intro hh; rw [hh] at hx; cases hx.2
      rw [this] at h; cases h
    · simp at h; rw [← h]
  · rename_i h
    split at h
    · rename_i h2; exact h2.symm
    · simp at h

theorem semVal_put_ne (ped q : W32) (i j v : Nat) (c : Ctx) (h : (q, j) ≠ (ped, i)) : semVal (semPut ped i v c) q j = semVal c q j := by
  have hb : (ped == q && i == j) = false := by
    rw [Bool.eq_false_iff]; intro hh; simp at hh; exact h (by rw [hh.1, hh.2])
  have e : ∀ l : List ((W32 × Nat) × Nat), (l.filter (fun e => !(e.1.1 == ped && e.1.2 == i))).find? (fun e => e.1.1 == q && e.1.2 == j) = l.find? (fun e => e.1.1 == q && e.1.2 == j) := by
    intro l
    induction l with
    | nil => rfl
    | cons a l ih =>
      rw [List.filter_cons]
      split
      · rw [List.find?_cons, List.find?_cons, ih]
      · rename_i h2
        rw [List.find?_cons, ih]
        have : (a.1.1 == q && a.1.2 == j) = false := by
          simp at h2; rw [h2.1, h2.2]; exact hb
        rw [this]
  unfold semVal semPut
  dsimp only
  split
  · rename_i h1
    split at h1
    · rw [e] at h1; rw [h1]
    · rw [List.find?_cons] at h1
      dsimp only at h1
      rw [hb, e] at h1; dsimp only at h1; rw [h1]
  · rename_i h1
    split at h1
    · rw [e] at h1; rw [h1]
    · rw [List.find?_cons] at h1
      dsimp only at h1
      rw [hb, e] at h1; dsimp only at h1; rw [h1]

theorem ctxOf_bump (g ev n : Nat) (s : State) (x : Nat) : ctxOf (bump g ev n s) x = ctxOf s x := by
  unfold bump bumpT; dsimp only; split
  · rfl
  · split <;> rfl

theorem ctxOf_bump_if (b : Prop) [Decidable b] (g ev n : Nat) (s : State) (x : Nat) : ctxOf (if b then bump g ev n s else s) x = ctxOf s x := by
  split
  · exact ctxOf_bump ..
  · rfl

theorem ctxOf_updOut (g ser : Nat) (f : OutD → OutD) (s : State) (x : Nat) : ctxOf (updOut g ser f s) x = ctxOf s x := rfl

theorem semPut_waiters (ped : W32) (i v : Nat) (c : Ctx) : (semPut ped i v c).waiters = c.waiters := rfl

theorem sizeOk_iff (off size : Nat) : sizeOk off size = true ↔ ((size = 4 ∨ size = 8) ∧ off % size = 0) := by simp [sizeOk]

theorem sizeOk_not {off size : Nat} (h : ¬ ((size = 4 ∨ size = 8) ∧ off % size = 0)) : sizeOk off size = false := by
  rw [← sizeOk_iff] at h; simpa using h

theorem readWord_frame (rq : Requester) (a : Nat) (s : State) : (readWord rq a s).2 = { s with reg := { s.reg with shadow := (readWord rq a s).2.reg.shadow } } := by
  unfold readWord; dsimp only
  split
  · rfl
  · split
    · rfl
    · split <;> rfl

theorem readWords_frame (rq : Requester) (n : Nat) : ∀ (off : Nat) (s : State), (readWords rq off n s).2 = { s with reg := { s.reg with shadow := (readWords rq off n s).2.reg.shadow } } := by
  induction n with
  | zero => intro off s; rfl
  | succ n ih =>
    intro off s
    unfold readWords; dsimp only
    split
    · rename_i a ha
      have e := ih (off + 4) (readWord rq a s).2
      have e2 := readWord_frame rq a s
      generalize (readWord rq a s).2 = u at *
      generalize (readWords rq (off + 4) n u).2 = w at *
      rw [e, e2]
    · exact ih (off + 4) s

theorem guardFail_frame (rq : Requester) (cause off : Nat) (v : W32) (s : State) : ∃ t, t = guardFail rq cause off v s ∧
    t.reg = { s.reg with gFails := min (s.reg.gFails + 1) 65535, gReq := rqCode rq, gCause := cause, gFn := rqFn rq,
                         gOff := BitVec.ofNat 32 off } ∧
    t = { s with reg := t.reg, err := { s.err with ring0 := t.err.ring0, ring1 := t.err.ring1 }, fns := t.fns,
                 out := t.out } := by
  refine ⟨_, rfl, ?_⟩
  unfold guardFail postRec
  dsimp only [Option.bind]
  rw [if_neg (by simp), if_neg (by decide)]
  rw [signal_frame 64 0, signal_frame 0 0]
  exact ⟨rfl, rfl⟩

theorem pendOf_guardFail (rq : Requester) (cause off : Nat) (v : W32) (s : State) (q : Requester) (r : GReg) : pendOf (guardFail rq cause off v s) q r = pendOf s q r := by
  obtain ⟨t, ht, h, _⟩ := guardFail_frame rq cause off v s
  rw [← ht]; unfold pendOf; rw [h]

theorem pendOf_closePend_ne (rq : Requester) (g : GReg) (s : State) (q : Requester) (r : GReg) (h : (q, r) ≠ (rq, g)) : pendOf (closePend rq g s) q r = pendOf s q r := by
  have hb : (rq == q && g == r) = false := by
    rw [Bool.eq_false_iff]; intro hh; simp at hh; exact h (by rw [hh.1, hh.2])
  unfold pendOf closePend
  dsimp only
  congr 1
  generalize s.reg.pend = l
  induction l with
  | nil => rfl
  | cons a l ih =>
    rw [List.filter_cons]
    split
    · rw [List.find?_cons, List.find?_cons, ih]
    · rename_i h2
      rw [List.find?_cons, ih]
      have : (a.1 == q && a.2.1 == r) = false := by
        simp at h2; rw [h2.1, h2.2]; exact hb
      rw [this]

theorem pendOf_openPend_ne (rq : Requester) (g : GReg) (v : W32) (s : State) (q : Requester) (r : GReg) (h : (q, r) ≠ (rq, g)) : pendOf (openPend rq g v s) q r = pendOf s q r := by
  have hb : (rq == q && g == r) = false := by
    rw [Bool.eq_false_iff]; intro hh; simp at hh; exact h (by rw [hh.1, hh.2])
  rw [← pendOf_closePend_ne rq g s q r h]
  unfold openPend
  unfold pendOf
  dsimp only
  rw [List.find?_append, List.find?_cons, hb]
  simp

theorem guard_notWriter (s : State) (rq : Requester) (g : GReg) (v : W32) (h : gMay rq g = false) : guardA rq g v s = guardFail rq 5 (gRegA g) v s ∧ guardB rq g v s = guardFail rq 5 (gRegB g) v s := by
  unfold guardA guardB; simp [h]

theorem finish_frame (cid : Nat) (st : W16) (r : List Byte) (s : State) : finish cid st r (startCmd cid s) = { s with cmds := (finish cid st r (startCmd cid s)).cmds } := rfl

theorem emit_foldl_frame {α : Type} (l : List α) (f : α → Out) (s : State) : l.foldl (fun s d => emit (f d) s) s = { s with out := (l.foldl (fun s d => emit (f d) s) s).out } := by
  induction l generalizing s with
  | nil => rfl
  | cons a l ih => rw [List.foldl_cons, ih]; rfl

theorem emit_foldl2_frame {α β : Type} (l : List α) (g : α → List β) (f : α → β → Out) (s : State) : l.foldl (fun s c => (g c).foldl (fun s d => emit (f c d) s) s) s = { s with out := (l.foldl (fun s c => (g c).foldl (fun s d => emit (f c d) s) s) s).out } := by
  induction l generalizing s with
  | nil => rfl
  | cons a l ih => rw [List.foldl_cons, ih]; rw [emit_foldl_frame]

theorem dropClods_frame (ctx : Nat) (s : State) : dropClods ctx s = { s with out := (dropClods ctx s).out, clods := (dropClods ctx s).clods } := by
  unfold dropClods
  dsimp only
  rw [emit_foldl2_frame]

theorem segOf_updSeg (s : State) (ctx : Nat) (f : RunSeg → RunSeg) (hf : ∀ r, (f r).ctx = r.ctx) : segOf (updSeg ctx f s) ctx = (segOf s ctx).map f := by
  unfold segOf updSeg updWhere
  dsimp only
  generalize s.segs = l
  induction l with
  | nil => rfl
  | cons a l ih =>
    rw [List.map_cons, List.find?_cons, List.find?_cons]
    by_cases h : a.ctx = ctx
    · simp [h, hf]
    · have hb : (a.ctx == ctx) = false := by simpa using h
      simp only [hb, Bool.false_eq_true, if_false]; exact ih

theorem abortClods_frame (g : Nat) (cause : W16) (a : W64) (s : State) : abortClods g cause a s = { s with err := (abortClods g cause a s).err, fns := (abortClods g cause a s).fns, out := (abortClods g cause a s).out } := by
  show ErrOnly _ _
  unfold abortClods
  dsimp only
  generalize s.clods.filter (fun c => g ∈ c.members) = l
  induction l generalizing s with
  | nil => exact rfl
  | cons c l ih => rw [List.foldl_cons]; exact (ih _).tr (postRec_frame ..)

def StoreOnly (u v : State) : Prop := u = { v with phys := u.phys, ped2s := u.ped2s }

theorem StoreOnly.tr {a b c : State} (h1 : StoreOnly a b) (h2 : StoreOnly b c) : StoreOnly a c := by
  unfold StoreOnly at *; rw [h2] at h1; exact h1

theorem writeBack_store (g ser : Nat) (p : Place) (l : CacheLine) (s : State) : StoreOnly (writeBack g ser p l s) s := by
  unfold writeBack; split <;> rfl

theorem bump_store (g ev n : Nat) (s : State) : StoreOnly (bump g ev n s) s := by
  unfold bump StoreOnly; rw [bumpT_frame]

theorem flushLines_store (g ser : Nat) (p : Place) (s : State) : StoreOnly (flushLines g ser p s) s := by
  unfold flushLines
  extract_lets mine s1 s2
  have h1 : StoreOnly s1 s := by
    dsimp -zeta only [s1]
    generalize mine = l
    clear * -
    induction l generalizing s with
    | nil => exact rfl
    | cons a l ih => rw [List.foldl_cons]; exact (ih _).tr (writeBack_store ..)
  have h3 : StoreOnly s2 s1 := bump_store ..
  exact StoreOnly.tr (b := s2) rfl (h3.tr h1)

theorem flushFold (l : List (Nat × Grain)) (f : State → Nat → Place) (s : State) : l.foldl (fun s e => flushLines e.1 0 (f s e.1) s) s =
    { s with phys := (l.foldl (fun s e => flushLines e.1 0 (f s e.1) s) s).phys, ped2s := (l.foldl (fun s e => flushLines e.1 0 (f s e.1) s) s).ped2s } := by
  show StoreOnly _ _
  induction l generalizing s with
  | nil => exact rfl
  | cons e l ih => rw [List.foldl_cons]; exact (ih _).tr (flushLines_store ..)

theorem laneStep_none {s : State} (h : ∀ e ∈ s.phys, e.2.pend = []) : laneStep s = s := by
  unfold laneStep
  have : s.phys.filter (fun e => e.2.pend != []) = [] := by
    rw [List.filter_eq_nil_iff]; intro e he; simp [h e he]
  rw [this]; rfl

end Sys2Proof.Machine
end

