-- ==== Sys2Proof/Laws/Issuing.lean ====
section
/-! SUPPORT. Issuing a descriptor: a row whose descriptor issues is its act on the issued state, one that is held only waits, and what
each part of issuing moves. -/

namespace Sys2Proof.Machine

open Sys2Proof

theorem issueRow_issues {op : Nat} {faults : State → Iss → List (Bool × Nat)} {g t : Nat} {s : State} {i : Iss}
    (pick : List Byte → Bool) (act : Iss → State → State) (h : issues op faults g t s i) (hp : pick i.d = true) :
    issueRow pick faults act g t s = settle g (act i (issueDesc i s)) := by
  obtain ⟨gr, th, r, x, st, h1, h2, h3, h4, h5, h6, h7, h8, h9, h10, h11, h12, h13, h14⟩ := h
  unfold issueRow
  simp only [h1, h2, h3, h4, h5, h6, h7, h8, Bool.not_true, Bool.false_eq_true, if_false]
  rw [if_neg (by simp [hp]), if_neg (show ¬ (_ = true) from by rw [Bool.not_eq_true]; exact h9)]
  simp only [h10]
  rw [if_neg (by simp [h11])]
  have hl : lowest (commonFaults s gr th t r x (placeOf s g) i.d ++
      (if ((engineOf op).isNone || slotFault op i.d) = true then [] else faults s i)) = none := by
    apply lowest_none
    rw [List.all_append]
    have : i.pl = placeOf s g := by rw [h12]
    rw [← this, h13]
    split
    · rfl
    · rw [h14]; rfl
  rw [h12] at hl ⊢
  dsimp only at hl ⊢
  split
  · rename_i code hc; exact absurd (hl.symm.trans hc) (by simp)
  · rfl

theorem issues_dOp {op : Nat} {faults} {g t : Nat} {s : State} {i : Iss} (h : issues op faults g t s i) : dOp i.d = op := by
  obtain ⟨gr, th, r, x, st, h1, h2, h3, h4, h5, h6, h7, h8, h9⟩ := h; exact h8

theorem issueRow_of_issues {op : Nat} {faults} {g t : Nat} {s : State} {i : Iss} (act) (h : issues op faults g t s i) :
   issueRow (fun d => dOp d == op) faults act g t s = settle g (act i (issueDesc i s)) := issueRow_issues _ _ h (by simp [issues_dOp h])

theorem find_blocking_none {l : List OutD} (h : ∀ o ∈ l, blocking (dOp o.desc) = false) : l.find? (fun o => blocking (dOp o.desc)) = none := by
  rw [List.find?_eq_none]; intro o ho; simp [h o ho]

theorem issueRow_waits (pick : List Byte → Bool) (faults : State → Iss → List (Bool × Nat)) (act : Iss → State → State) (g t : Nat) (s : State)
    (gr : Grain) (th : Thr) (r : RunSeg) (x : Prog) (d : List Byte) (h : atTurn g t s gr th r x d) (hp : pick d = true) (w : TSt × Nat)
    (hw : waitBefore s gr t th r x.paired d = some w) : issueRow pick faults act g t s = setWait g t w s := by
  obtain ⟨h1, h2, h3, h4, h5, h6, h7, h8⟩ := h
  obtain ⟨st, hst⟩ := Option.isSome_iff_exists.1 h5
  unfold issueRow
  simp only [h1, h2, h3, h4, hst, h6, h7, hw]
  rw [if_neg (by simp), if_neg (by simp [hp]), if_neg (by simp [h8])]

def IssFrame (s u : State) : Prop := u = { s with nextSer := u.nextSer, grains := u.grains, ped2s := u.ped2s, hz := u.hz, phys := u.phys } ∧
    u.hz = { s.hz with reqs := u.hz.reqs, nextReq := u.hz.nextReq, nvme := u.hz.nvme, nextNvme := u.hz.nextNvme, xlat := u.hz.xlat }

theorem IssFrame.trans {s t u : State} (h1 : IssFrame s t) (h2 : IssFrame t u) : IssFrame s u := by
  obtain ⟨a, b⟩ := h1
  obtain ⟨c, d⟩ := h2
  refine ⟨?_, ?_⟩
  · rw [a] at c; exact c
  · rw [b] at d; exact d

theorem IssFrame.refl (s : State) : IssFrame s s := ⟨rfl, rfl⟩

theorem issFrame_updGrain (g : Nat) (f : Grain → Grain) (s : State) : IssFrame s (updGrain g f s) := ⟨rfl, rfl⟩

theorem issFrame_updThr (g t : Nat) (f : Thr → Thr) (s : State) : IssFrame s (updThr g t f s) := ⟨rfl, rfl⟩

theorem issFrame_moveTo (g t p : Nat) (s : State) : IssFrame s (moveTo g t p s) := ⟨rfl, rfl⟩

theorem issFrame_bumpT (g : Nat) (t : Option Nat) (e ev n : Nat) (s : State) : IssFrame s (bumpT g t e ev n s) := by
  unfold bumpT; dsimp only; split
  · exact .refl _
  · split
    · exact ⟨rfl, rfl⟩
    · exact .refl _

theorem issFrame_enterReq (q : Req) (s : State) : IssFrame s (enterReq q s) := by
  unfold enterReq reqStarts
  dsimp only
  split
  · split <;> exact ⟨rfl, rfl⟩
  · exact ⟨rfl, rfl⟩

theorem issFrame_translate (die : Nat) (o : Obj) (j : Nat) (s : State) : IssFrame s (translate die o j s) := by
  unfold translate
  have h1 : IssFrame s (xlatObj die (handleOf o) s) := ⟨rfl, rfl⟩
  dsimp only
  split
  · exact h1.trans ⟨rfl, rfl⟩
  · split
    · exact h1
    · exact h1.trans (issFrame_enterReq ..)

theorem issFrame_addReq (ctx g ser : Nat) (o : Obj) (off : Nat) (k : ReqKind) (s : State) : IssFrame s (addReq ctx g ser o off k s) := by
  unfold addReq addReqAt
  exact (issFrame_translate ..).trans ((issFrame_enterReq ..).trans (issFrame_bumpT ..))

theorem issFrame_requestBurst (g t b : Nat) (s : State) : IssFrame s (requestBurst g t b s) := by
  unfold requestBurst
  split
  · exact .refl _
  · split
    · exact .refl _
    · split
      · exact .refl _
      · split
        · exact .refl _
        · dsimp only
          split
          · exact (issFrame_updThr ..).trans ⟨rfl, rfl⟩
          · split
            · exact (issFrame_updThr ..).trans (issFrame_addReq ..)
            · exact issFrame_updThr ..

theorem issFrame_ite (b : Prop) [Decidable b] (s t u : State) (h1 : IssFrame s t) (h2 : IssFrame s u) : IssFrame s (if b then t else u) := by
  split
  · exact h1
  · exact h2

def Track (ns g t : Nat) (out : List OutD) (pos : Nat) (st : TSt) (u : State) : Prop :=
  u.nextSer = ns ∧ ∃ gr th, nmGet u.grains g = some gr ∧ gr.out = out ∧ nmGet gr.thr t = some th ∧ th.pos = pos ∧ th.st = st

theorem track_updThr {ns g t : Nat} {out pos st u} (h : Track ns g t out pos st u) (f : Thr → Thr) (h1 : ∀ x, (f x).pos = x.pos) (h2 : ∀ x, (f x).st = x.st) : Track ns g t out pos st (updThr g t f u) := by
  obtain ⟨n, gr, th, a, b, c, d, e⟩ := h
  refine ⟨n, { gr with thr := nmUpd t f gr.thr }, f th, ?_, b, ?_, by rw [h1, d], by rw [h2, e]⟩
  · unfold updThr updGrain; dsimp only; rw [nmGet_nmUpd, a]; rfl
  · show nmGet (nmUpd t f gr.thr) t = _
    rw [nmGet_nmUpd, c]; rfl

theorem track_moves {ns g t : Nat} {out pos st u} (h : Track ns g t out pos st u) (f : Thr → Thr) (pos' : Nat) (st' : TSt)
   (h1 : ∀ x, x.pos = pos → (f x).pos = pos') (h2 : ∀ x, x.st = st → (f x).st = st') : Track ns g t out pos' st' (updThr g t f u) := by
  obtain ⟨n, gr, th, a, b, c, d, e⟩ := h
  refine ⟨n, { gr with thr := nmUpd t f gr.thr }, f th, ?_, b, ?_, h1 _ d, h2 _ e⟩
  · unfold updThr updGrain; dsimp only; rw [nmGet_nmUpd, a]; rfl
  · show nmGet (nmUpd t f gr.thr) t = _
    rw [nmGet_nmUpd, c]; rfl

theorem bumpT_nextSer (g : Nat) (t : Option Nat) (e ev n : Nat) (s : State) : (bumpT g t e ev n s).nextSer = s.nextSer := by
  unfold bumpT; dsimp only; split
  · rfl
  · split <;> rfl

theorem bumpT_grains (g : Nat) (t : Option Nat) (e ev n : Nat) (s : State) : (bumpT g t e ev n s).grains = s.grains := by
  unfold bumpT; dsimp only; split
  · rfl
  · split <;> rfl

theorem track_bumpT {ns g t : Nat} {out pos st u} (h : Track ns g t out pos st u) (a : Nat) (b : Option Nat) (c d e : Nat) : Track ns g t out pos st (bumpT a b c d e u) := by
  unfold Track at *; rw [bumpT_grains, bumpT_nextSer]; exact h

theorem enterReq_moves (q : Req) (s : State) : (enterReq q s).grains = s.grains ∧ (enterReq q s).nextSer = s.nextSer := by
  unfold enterReq reqStarts
  dsimp only
  split
  · split <;> exact ⟨rfl, rfl⟩
  · exact ⟨rfl, rfl⟩

theorem translate_moves (die : Nat) (o : Obj) (j : Nat) (s : State) :
    (translate die o j s).grains = s.grains ∧ (translate die o j s).nextSer = s.nextSer := by
  unfold translate
  dsimp only
  split
  · exact ⟨rfl, rfl⟩
  · split
    · exact ⟨rfl, rfl⟩
    · exact enterReq_moves _ _

theorem addReq_grains (ctx g ser : Nat) (o : Obj) (off : Nat) (k : ReqKind) (s : State) : (addReq ctx g ser o off k s).grains = s.grains :=
  (bumpT_grains ..).trans ((enterReq_moves _ _).1.trans (translate_moves _ _ _ _).1)

theorem addReq_nextSer (ctx g ser : Nat) (o : Obj) (off : Nat) (k : ReqKind) (s : State) : (addReq ctx g ser o off k s).nextSer = s.nextSer :=
  (bumpT_nextSer ..).trans ((enterReq_moves _ _).2.trans (translate_moves _ _ _ _).2)

theorem track_requestBurst {ns g t : Nat} {out pos st u} (h : Track ns g t out pos st u) (b : Nat) : Track ns g t out pos st (requestBurst g t b u) := by
  unfold requestBurst
  split
  · exact h
  · split
    · exact h
    · split
      · exact h
      · split
        · exact h
        · dsimp only
          split
          · exact track_updThr h _ (fun _ => rfl) (fun _ => rfl)
          · split
            · unfold Track; rw [addReq_grains, addReq_nextSer]; exact track_updThr h _ (fun _ => rfl) (fun _ => rfl)
            · exact track_updThr h _ (fun _ => rfl) (fun _ => rfl)

theorem updGrain_get (g : Nat) (f : Grain → Grain) (s : State) : nmGet (updGrain g f s).grains g = (nmGet s.grains g).map f := nmGet_nmUpd ..

theorem track_ite {ns g t : Nat} {out pos st} (b : Prop) [Decidable b] (u v : State) (h1 : Track ns g t out pos st u) (h2 : Track ns g t out pos st v) : Track ns g t out pos st (if b then u else v) := by
  split
  · exact h1
  · exact h2

end Sys2Proof.Machine
end

