-- ==== Sys2Proof/WellFormed.lean ====
section
/-! DEFINITION. Which commands are well formed: every number lies in the range that the spec gives it. -/

namespace Sys2Proof

/-- A function number (R295). -/
def fnWf (fn : Nat) : Bool := fn < 128

def portWf (p : Nat) : Bool := p < 2

/-- A logical grain id and a thread (R25, R37). -/
def gtWf (g t : Nat) : Bool := g < 300000 && t < 8

def reqWf : Requester → Bool
  | .host fn => fnWf fn
  | .firmware => true
  | .mgmt => true

def chanWf : Chan → Bool
  | .hz1 st pc => st < 48 && pc < 64
  | .hz2 ch => ch < 48

def poolWf : Pool → Bool
  | .hz1 st => st < 48
  | .tdie t => t < 6
  | .port p => p < 2
  | .ldie l => l < 8

def trWf : Transport → Bool
  | .doe p => p < 2
  | .i3c => true
  | .smbus => true

/-- A register access: a size of R450 at an offset of BAR0. -/
def accWf (off size : Nat) : Bool := off < 0x4000000 && size ≠ 0

namespace Instr

/-- The operands lie in the ranges that the spec gives them. -/
def wf : Instr → Bool
  | .commandFetch fn ctx (.ring n) => fnWf fn && (match ctx with | some c => c < 1024 && n < 1024 | none => n == 0)
  | .commandFetch _ _ (.message b) => b.length == 64 || b.length == 65600
  | .interruptTimeExpire ctx cq => ctx < 1024 && cq < 64
  | .commandRingDoorbell fn page ring _ => fnWf fn && page < 1024 && ring < 1024
  | .pedDoorbell fn page ring _ => fnWf fn && page < 1024 && ring < 1024
  | .adminDoorbell fn _ | .adminRingEnable fn | .adminRingDisable fn | .fnAperWrite fn _ | .busMasterDisable fn
  | .busMasterEnable fn => fnWf fn
  | .ringTableWrite rq ctx _ | .hubNumctlWrite rq ctx _ | .hubNumringWrite rq ctx _ | .hubSpecWrite rq ctx _
  | .pmcSmpTailWrite rq ctx _ => reqWf rq && ctx < 1024
  | .bar4Access port off _ => portWf port && off < 2 ^ 36
  | .portReset p | .perstDeassert p | .hostLinkDownTimeout p | .pfFlr p | .pkgrstRequestLapse p | .hostLinkDown p
  | .portReadyAgain p | .pkgrstOtherPortNoLink p => portWf p
  | .hostLinkUp p w g => portWf p && w ∈ [1, 2, 4, 8, 16] && 1 ≤ g && g ≤ 5
  | .vfFlr p vf => portWf p && (match vf with | some n => 1 ≤ n && n < 64 | none => true)
  | .diePark c | .grainPllLock c | .avsbusTimeout c => c < 48
  | .descriptorBurstArrive g t _ | .notbeforeReached g t | .arrPass g t | .arrConv g t | .arrLoadw g t | .mv g t
  | .vec g t | .vecDeriv g t | .rngFill g t | .dmaGet g t | .dmaPut g t | .dmaPutFlush g t | .winPut g t
  | .winGet g t | .sieveGather g t | .sieveScatterAdd g t | .sieveScatterApply g t | .redPost g t | .redWait g t
  | .barrier g t | .semWait g t | .semSignal g t | .deadline g t | .deadlineDue g t | .deadlineRung2Cutoff g t
  | .deadlineRung3Cutoff g t | .clodBegin g t | .clodCommit g t | .clodAbort g t | .specBegin g t
  | .specResolve g t | .route g t | .secureMark g t | .pmcMark g t | .ballast g t | .endOp g t
  | .cacheFillDone g t => gtWf g t
  | .descriptorComplete g _ | .arrayIdle g | .ballastGapExpire g | .arrayChecksumFault g _ _
  | .mvRowCheckFault g _ _ | .vectorCheckFault g _ _ | .patrolScrubSlot g _ | .sieveRowArrive g _ _ => g < 300000
  | .spareCheckDone p _ | .backgroundTestPiece p | .backgroundPieceDone p _ => p < 1200
  | .tagGrant p => poolWf p
  | .calibrationWindowStart c | .calibrationWindowEnd c => chanWf c
  | .driveFailed d _ _ | .nvmeCompletion d _ _ => d < 24
  | .ddr5ChannelFailed ch => ch < 48
  | .lnkPortEnable rq n _ => reqWf rq && n < 64
  | .portTrained n _ | .identReceived n _ | .nakReceived n _ | .portRetrainDone n _ | .portLeaveUp n
  | .identTimeout n => n < 64
  | .flitReceive n f => n < 64 && f.length == 256
  | .windowAccessArrive f _ | .windowResponseArrive f _ | .reductionFlitArrive f => f.length == 256
  | .lnkRouteWrite rq id _ => reqWf rq && id < 16384
  | .hubPkgrstPair rq _ | .pwrLimitPair rq _ | .pwrClkctlPair rq _ | .secAlarmPair rq _ | .secAlarmClear rq _
  | .secEraseVolatile rq _ | .secEraseHelper rq _ | .secSlotPair rq _ | .secTestPair rq _ | .secScrubPair rq _
  | .lnkTorusWrite rq _ | .lnkCreditWrite rq _ | .errRingTailWrite rq _ | .errFatalClear rq _
  | .pwrBallastWrite rq _ | .pwrCtlWrite rq _ | .errTilthWWrite rq _ | .guardedWriteA rq _ _
  | .guardedWindowExpire rq _ => reqWf rq
  | .registerWrite rq off size _ | .registerReadLatch rq off size => reqWf rq && accWf off size
  | .lockstepMismatch h => h < 2
  | .hubLogicMismatch die _ => die < 64
  | .hbmTrainingDone st _ => st < 48
  | .ped1Prewake p => p < 19200
  | .getVersion tr | .getCapabilities tr | .negotiateAlgorithms tr _ _ | .getDigests tr | .getCertificate tr _ _ _
  | .challenge tr _ _ | .getMeasurements tr _ _ _ | .spdmUnsupportedRequest tr _ => trWf tr
  | .ping _ | .ctxCreate _ | .ctxDestroy _ | .ctxKill _ | .setShare _ | .objAlloc _ | .objFree _ | .objPlace _
  | .objMigrate _ | .objFallback _ | .planLoad _ | .planUnload _ | .segRun _ | .segFence _ | .winOpen _
  | .winClose _ | .groupSet _ | .bucketPolicy _ | .secureNow _ | .securePolicy _ | .rollback _ _ | .replayStep _
  | .digestQuery _ | .strataRead _ | .selfTest _ | .calibrate _ _ | .pmcConfig _ | .pmcSnapshot _
  | .sampleConfig _ | .fwChunk _ | .fwStatus _ | .fwActivate _ | .fwAbort _ | .attestQuote _ | .measureLog _
  | .dumpConfig _ | .tilthRead _ | .completionWrite _ | .pkgrstPin => true
  | .segmentStart c | .segmentEnd c | .segmentWatchdog c | .fabricDrainEnd c | .deepSaveDone c _
  | .deepRestoreDone c _ | .hubTransferStart c _ | .hubTransferComplete c _ | .clodDecision c _
  | .riskExchangeResult c _ _ | .securePointComplete c | .securePointFail c _ => c < 1024
  | .clodDecisionApply _ _ _ | .horizonResponse _ _ | .migrationCopyDone _ _ | .promotionCopyDone _ _
  | .dlogMergeGranuleDone _ _ | .remoteTimeout _ | .bucketTimeout _ | .bucketFailureNotice _ _ _
  | .bucketHoldNotice _ _ _ | .bucketResumeNotice _ _ _ | .tilthPeriod _ | .clockSlewDone | .fatalError
  | .aoTick _ | .helperEraseDone | .powerSample _ _ _ | .throttleSaturationTimeout | .boundaryHoldAdjust
  | .powerOn | .mainEnAssert | .mainEnDeassert | .coldStart | .firmwareLoadDone _ | .dieBringupDone _ _ _
  | .configRecordSelect | .ddr5TrainingDone _ | .nvmeEnumDone _ | .startupSelftestDone _ _ | .enabledMapBuild
  | .configRecordWrite | .trialBootTimeout | .intrusiveTestDone _ _ | .calibrationDone _ _ | .snapshotStamp
  | .snapshotWriteDone | .fwVerifyDone | .fwLoadDone | .fwHandoverDone | .fwSwitchStamp | .fwCommit
  | .fwActivateDeadline | .fwRevertDone | .fwStandbyReady | .debugUnlock _ => true

end Instr

end Sys2Proof
end

