-- ==== Sys2Proof/Tests/Slice0.lean ====
section
/-! SUPPORT. The model's own tests: an ill-formed command for each check of well-formedness, commands whose results the
spec works out, and for each statement with hypotheses a state and operands that meet them all. -/

set_option maxRecDepth 10000
set_option Elab.async false

namespace Sys2Proof.Tests

open Sys2Proof Sys2Proof.Machine

/-! ## A small package -/

/-- A package that has started: rails and PCC up, both host links up, ped-2 0 in service, READY. -/
def up : State :=
  { State.reset with
    clk := { Clk.reset with vstby := true, mainEn := true, pccRun := true, pcc := 1000 }
    boot := { Boot.reset with phase := 15, outcome := 1, ready := true, serialShown := true }
    emap := { EMap.reset with built := true, enabled := [(0, 2 ^ 250 - 1)], cold := [(0, 2 ^ 250 - 1)] }
    port0 := { Port.reset with linkUp := true, width := 16, gen := 5, perst := false, inReset := false }
    port1 := { Port.reset with linkUp := true, width := 16, gen := 5, perst := false, inReset := false }
    fns := [(0, { fnReset with bme := true })] }

/-- The address of ped-2 0 as a physical ped (R31). -/
def ped0 : W32 := 0x20000000

/-- Context 1 of function 0, on ped-2 0. -/
def ctx1 : Ctx := ctxNew 1 0 1 false ped0 1 0 1000

/-- A command of opcode op with these parameters, fetched from ring 0 of context 1. -/
def cmd (op : Nat) (param : List Byte) : Cmd :=
  { cid := 0, fn := 0, ctx := some 1, ring := 0, cq := 0, opcode := op, cflags := 0, pctx := 0xFFFF, tag := 0
    param := pad 48 param, data := [], fetchPcc := 0, started := false, deferred := none, deferredSent := false, deferredHeld := false, done := none
    written := false }

/-- Context 1 lives and the command waits. -/
def one (c : Ctx) (k : Cmd) : State := { up with ctxs := [(1, c)], cmds := [k] }

def gran1 (hzn loc : Nat) : Gran :=
  { promo := false, dirty := false, mig := false, pin := false, pframe := 0, hzn := hzn, unit := 0, loc := loc
    gen0 := false, gen1 := false, lru := 0 }

/-- Object i of context 1: one granule of the horizon. -/
def obj (i hzn loc : Nat) : Obj :=
  { ctx := 1, idx := i, base := 65536 * i, size := 65536, spread := 0, home := 0, pin := true, promote := false
    rdonly := false, port := 0, promoMax := 0, rung1 := 0, rung2 := 0, fbMode := 0, gran := [gran1 hzn loc] }

def withObjs (l : List Obj) (s : State) : State := { s with hz := { s.hz with objs := l } }

/-- The handle of object i of context 1. -/
def hd (i : Nat) : W32 := BitVec.ofNat 32 (4194304 + i)

/-! ### A grain that runs -/

def view (off a b c d fmt : Nat) : View :=
  { View.blank with off := off, sz0 := a, sz1 := b, sz2 := c, sz3 := d, st0 := 1, st1 := a, st2 := a * b
                    st3 := a * b * c, fmt := fmt }

/-- Views 0 and 1: four FP32 of the local store; 2: four of object 1; 3 and 4: BF16 of 4 and of 4 x 4; 5: BF16 of 4 x 2;
6: BF16 of 4 x 4 for the weights; 7 and 8: empty; 9 and 10: a route; 11: the ids of one bag of one. -/
def views : List View :=
  [view 0 4 1 1 1 0, view 256 4 1 1 1 0, { view 0 4 1 1 1 0 with handle := hd 1 }, view 0 4 1 1 1 1, view 64 4 4 1 1 1,
   view 0 4 2 1 1 1, view 64 4 4 1 1 1, view 0 4 0 1 1 1, view 0 4 0 1 1 0, view 0 2 2 1 1 0, view 512 64 1 1 1 0,
   view 0 2 1 1 1 0]

def prog : Prog :=
  { ped2 := 0, paired := false, cache := 0, views := views, masks := [], wheels := [2257, 2257, 2257, 2257]
    streams := [] }

def segd : SegD :=
  { length := 100000, regrow := false, last := true, source := 0, reserve := 0, progs := [prog]
    bars := [{ ped := ped0, planned := 100, threads := 255 }], xfers := [], chks := [] }

def run1 : RunSeg :=
  { ctx := 1, cid := 9, plan := 0, seg := 0, d := segd, gc0 := 0, leaseUs := 0, runUs := 0, dueUs := none, grains := 250
    bars := [{ arrived := [], done := false }], xfers := [], stop := none, status := none, specActive := true, rsem := []
    chkBytes := [] }

def thr (d : List Byte) : Thr :=
  { st := .ready, stream := some { handle := 0, off := 0, home := ped0 }, pos := 0, bufs := [(0, pad 256 d)], reqd := []
    spec := .none, task := none, heldSig := [], guards := [], clod := none, redo := [], redoTill := 0, charged := []
    cause := 0 }

def wts : Wts := { fmt := 1, scale := 0, sp24 := false, nt := 4, w := [], poison := false }

/-- Grain 0 with thread 0 at descriptor d. -/
def grain (d : List Byte) : Grain :=
  { ctx := 1, ped2 := 0, rank := 0, thr := [(0, thr d)], out := [], acc := [], active := some wts, shadow := none
    loading := none, arrT := none, arrLog := [], retry := [], bal := none, gated := false, fifos := [0, 0, 0, 0]
    samples := [], issued := 0, stall := [0, 0, 0, 0, 0, 0, 0, 0], engGc := [] }

/-- Context 1 runs its segment on ped-2 0, whose grain 0 is g. -/
def onGrain (g : Grain) : State :=
  { one { ctx1 with st := .running } (cmd 0 []) with
    segs := [run1], grains := [(0, g)]
    ped2s := [(0, { ped2Reset with slots := [(0, { ctx := 1, base := 0, size := 6, cache := 0, lastUs := 0 })]
                                   lease := some { ctx := 1, startUs := 0 }, wheels := [2257, 2257, 2257, 2257] })]
    hz := { Hz.reset with objs := [obj 1 1 16] } }

def at_ (d : List Byte) : State := onGrain (grain d)

/-- What an opcode's rules see of the descriptor at its issue. -/
def iss (s : State) (d : List Byte) : Iss :=
  { g := 0, t := 0, pos := 0, ser := s.nextSer, ctx := 1, ped2 := 0, pl := placeOf s 0, r := run1, d := pad 32 d
    daddr := BitVec.ofNat 64 (2 ^ 63), home := ped0 }

/-- Descriptor: opcode, slots VA, VB, VC and VD, parameter bytes from byte 10 on. -/
def desc (op va vb vc vd : Byte) (p : List Byte) : List Byte := [op, 0, 0, 0, 0, 0, va, vb, vc, vd] ++ p

/-- An outstanding descriptor. -/
def outd (ser : Nat) (d : List Byte) (w : OWait) : OutD :=
  { ser := ser, t := 0, pos := 0, daddr := 0, desc := pad 32 d, issue := 0, wait := w, sig := 0, stats := []
    counts := Counts.none, counted := false, redo := false, counted1 := false, held := false, stalled := 0, cause := 0
    sampled := false, marked := false, failed := none, guarded := false, moves := [], lines := []
    checked := none, checksOk := true }

/-! ### Rings, windows and the aperture -/

def ring0 : SubRing := { loaded := true, base := 0x1000, size := 4, kind := 1, ped := 0, pos := 0, tail := 0 }
def ringCtx : Ctx := { ctx1 with rtEn := true, sq := [(0, ring0)] }
def pedRing : SubRing := { ring0 with kind := 2, ped := ped0 }
def pedCtx : Ctx := { ctx1 with rtEn := true, sq := [(0, pedRing)] }
def onGrainCtx (c : Ctx) : State := { at_ [] with ctxs := [(1, c)] }
def cq0 : CplRing := { cplRingOff with loaded := true, size := 4, en := true, vector := 3, itime := 5, since := 1 }
def cqCtx : Ctx := { ctx1 with cq := [(0, cq0)] }

/-- Function 0 sees object 1 through its aperture (R306). -/
def aperUp : State :=
  { withObjs [obj 1 1 16] (one ctx1 (cmd 1 [])) with fns := [(0, { fnReset with aper := 2 ^ 63 + 65536 + 1 })] }

def creator : Cmd :=
  cmd 0x10 ([0xFF, 0xFF, 1, 0] ++ leBytes 4 ped0.toNat ++ [1, 0, 0, 0] ++ leBytes 4 1000)
def sharer : Cmd := { cmd 0x13 ([2, 0, 1, 0, 5, 0, 0, 0] ++ leBytes 4 1000) with pctx := 0 }

/-! ### A plan image: one segment of one program without threads (R160, R161) -/

def rawImage : List Byte :=
  leBytes 4 0x4E4C5051 ++ [1, 0, 1, 0] ++ zeros 16 ++ leBytes 4 64 ++ leBytes 4 192 ++ zeros 32 ++
    (leBytes 4 1000 ++ [2, 0, 0, 0] ++ zeros 4 ++ [1, 0, 0, 0] ++ leBytes 4 128 ++ zeros 44) ++ zeros 64

def image : List Byte := patch rawImage 56 (leBytes 8 (crc64 rawImage).toNat)

/-- Context 1 with object 1, which holds the image. -/
def imaged (k : Cmd) : State :=
  { one ctx1 k with hz := { Hz.reset with objs := [obj 1 1 16], hz1 := memWrite [] (16 * 65536) image } }

def loader : Cmd := cmd 0x30 (leBytes 4 (hd 1).toNat)
def plan0 : Plan := { id := 0, handle := hd 1, off := 0, peds := [], segs := [segd], fixed := [] }
def planned : Ctx := { ctx1 with plans := [plan0] }
def runner : Cmd := cmd 0x32 (leBytes 4 0 ++ [0, 0, 1, 0, 1])

/-! ### Horizons, power and start-up -/

def allocer : Cmd := cmd 0x20 (leBytes 8 65536 ++ [1])
def placer : Cmd := cmd 0x22 (leBytes 4 (hd 1).toNat ++ zeros 4 ++ [2])
def mover : Cmd := cmd 0x23 (leBytes 4 (hd 1).toNat ++ zeros 12 ++ leBytes 8 65536 ++ [2])

/-- One DDR5 channel of one 32 GiB DIMM. -/
def withHz2 (s : State) : State := { s with hz := { s.hz with channels := [0], dpc := 1, dimmGib := 32 } }

def migg : MigG := { granule := 0, frame := 40, begun := true, copied := false, dirtied := false }
def mig1 : Mig :=
  { cid := none, handle := hd 1, hzn := 1, spread := 0, home := 0, unit := 0, first := 0, fin := 1, setPin := false, apply := none
    left := [migg], moved := 0, recopies := 0 }
def migState : State :=
  { one ctx1 (cmd 1 []) with segs := [run1], hz := { Hz.reset with objs := [obj 1 2 16], migs := [mig1] } }
def promo1 : PromoC := { handle := hd 1, granule := 0, frame := 40, copied := false, dirtied := false }
def promoState : State :=
  { one ctx1 (cmd 1 []) with hz := { Hz.reset with objs := [obj 1 2 16], promos := [promo1] } }
def nvme1 : NvmeCmd := { id := 7, drive := 3, op := 0, lbas := [0], queue := some 0, reqs := [] }

def sample : AoSample :=
  { h0Standby := true, h1Standby := true, mainRailOut := false, standbyOut := false, railWarn := [], clockOut := false
    aoTempOut := false, dieTemps := [], meshBroken := false, tamperExtLow := false, debugEnabled := false
    pccMismatch := none }

/-- Thread 0 of grain 0 waits for gc 500, and its ped-1 is gated. -/
def waiting : State :=
  let d : List Byte := [0x3F, 0] ++ leBytes 3 500 ++ [0, 0xFF, 0xFF, 0xFF, 0xFF]
  { onGrain { grain d with thr := [(0, { thr d with st := .waitTime })] } with
    ped2s := [(0, { ped2Reset with gated := [0] })] }

def tdie5 : TDieTrain :=
  { tdie := 5, trained := List.replicate 8 true, dpc := 2, gib := 256, ranks := 2, devWidth := 8, grade := 6400
    uniform := true }

/-! ### Windows, flits and the fabric -/

def win1 : Win :=
  { ctx := 1, kind := 1, rights := 3, peerMap := none, peerBox := 0xF0F0F0F0, key := 7, target := hd 1, off := 0
    size := 64, closing := none }

/-- A flit of the opcode byte and these bytes from byte 9 on. -/
def flit (op : Byte) (b : List Byte) : Flit := pad 256 (zeros 8 ++ [op] ++ b)

/-- A WPUT or WGET of 32 bytes of window 0 with its key. -/
def winFlit (op : Byte) : Flit := flit (op + 16) (zeros 7 ++ leBytes 4 7)

def windowed : State :=
  { withObjs [obj 1 1 16] (one ctx1 (cmd 0x41 [])) with fab := { Fab.reset with wins := [(0, win1)] } }

def side : WinSide := { bytes := 32, clod := none, rsem := 0, poison := false, desc := 0, doff := 0, dlen := 32 }
def prepw : PrepW :=
  { src := 4, clod := 9, ldie := 0, win := 0, woff := 0, data := zeros 32, side := side }

def wreq (get tagged : Bool) : WReq :=
  { rtag := 5, ldie := 0, dst := 1, g := 0, ser := 0, isGet := get, win := 0, woff := 0, len := 32, moves := [], sent := 0
    tagged := tagged, flits := [], sides := [], clod := none, part := 0, ctx := 1
    dead := false, cut := false }
def asked (q : WReq) : State :=
  { up with clk := { up.clk with pcc := 2000000 }, fab := { Fab.reset with wreqs := [q] } }
/-- A response of the opcode for RTAG 5. -/
def answer (op : Byte) : Flit := flit op (zeros 16 ++ leBytes 2 5)

def req (k : ReqKind) (tagged : Bool) : Req :=
  { id := 0, ctx := 1, g := 0, ser := 0, handle := hd 1, unit := 256, kind := k, pool := .hz1 0, chan := 0
    tagged := tagged, dead := false, clod := none, part := 0, die := 0, since := 0, miss := false, nv := none, ans := .ok }

def ported (p : FPort) : State := { up with fab := { Fab.reset with torus := 0x00010000, ports := [(0, p)] } }
def port : FPort := { fportReset with st := .up, en := true }
/-- A data flit for package 2, with its CRC. -/
def dataFlit : Flit :=
  let b := pad 252 (zeros 10 ++ [2])
  b ++ leBytes 4 (crc32c b).toNat

/-! ### Counters, self-test and firmware -/

def pmc : Cmd := cmd 0x70 ([0, 1, 0, 0] ++ leBytes 4 0xFFFFFFFF ++ leBytes 8 (0x08 + 2 ^ 28 * 0x1FF))
def sampler : Cmd := cmd 0x72 (leBytes 4 (hd 1).toNat)
def snapper : Cmd := cmd 0x71 (zeros 8 ++ leBytes 4 (hd 1).toNat ++ leBytes 4 0xFFFFFFFF)
def withObj (k : Cmd) : State := withObjs [obj 1 1 16] (one ctx1 k)
def stamped (b : Option (List Byte)) : State :=
  { withObj snapper with snap := { stamp := 900, isPending := true, ctx := 1, cid := some 0, latched := b } }

def tester : Cmd := { cmd 0x60 (zeros 4 ++ leBytes 4 ped0.toNat) with ctx := none }
def calibrator (kind : Byte) : Cmd := { cmd 0x61 [kind] with ctx := none }

def fwOn (f : Fw) (k : Cmd) : State := { one ctx1 k with fw := f }
/-- One chunk staged in slot 1 of one. -/
def staged (st : FwSt) : Fw :=
  { Fw.reset with st := st, dir := { Dir.blank with stage := some 1, nchunk := 1, bitmap := 1 } }

def opener : Cmd := cmd 0x40 ([0, 1, 0, 0] ++ leBytes 4 7 ++ leBytes 4 ped0.toNat ++ zeros 8 ++ leBytes 8 32)
def openerObj : Cmd :=
  cmd 0x40 ([1, 3, 1, 0] ++ leBytes 4 7 ++ leBytes 4 (hd 1).toNat ++ zeros 8 ++ leBytes 8 64 ++ zeros 4 ++
    leBytes 4 (hd 1).toNat)
def sc : SpareCheck := { lg := 0, old := 0, failed := [], cause := 0 }
/-- Ped-2 0 with one spare grain, position 250, and a check under way. -/
def spared : State :=
  { up with emap := { up.emap with spare := [(0, 2 ^ 250)] }, ped2s := [(0, { ped2Reset with checks := [sc] })] }
def twoPorts (k : Cmd) : State := { one ctx1 k with fab := { Fab.reset with ports := [(0, port), (8, port)] } }
def quoter : Cmd := cmd 0x90 (zeros 40 ++ leBytes 4 1024)
def logReader : Cmd := cmd 0x91 (zeros 8 ++ leBytes 8 128)

theorem slice_memRead (m : Mem) (a n off k : Nat) (h : off + k ≤ n) : slice (memRead m a n) off k = memRead m (a + off) k := by
  induction off generalizing a n with
  | zero =>
    show (memRead m a n).take k = _
    induction k generalizing a n with
    | zero => rfl
    | succ k ih =>
      cases n with
      | zero => omega
      | succ n => simp only [memRead, List.take_succ_cons]; rw [ih (a + 1) n (by omega)]; rfl
  | succ off ih =>
    cases n with
    | zero => omega
    | succ n =>
      show slice (memRead m (a + 1) n) off k = _
      rw [ih _ _ (by omega), Nat.add_right_comm, Nat.add_assoc]

/-- The digest of a host page of zeros, and a command that stages chunk n with it. -/
def zeroDigest : Nat := (Config.sm3 (memRead [] 0 65536)).toNat
def chunker (n : Byte) : Cmd := cmd 0x80 (zeros 8 ++ [n] ++ zeros 7 ++ leBytes 32 zeroDigest)
/-- 32 bytes of a digest at an address. -/
def digestAt (a v : Nat) : Mem := (List.range' a 32).map (fun i => (i, (leBytes 32 v).getD (i - a) 0))
def chunked : State :=
  { fwOn { Fw.reset with st := .staging, dir := { Dir.blank with stage := some 1, nchunk := 2 } } (chunker 1) with
    flash := { Flash.reset with slotB := digestAt 1120 zeroDigest } }

/-- A slot whose five parts are empty, each with the digest of no bytes. -/
def emptySlot : Mem :=
  let v := (Config.sm3 []).toNat
  digestAt 80 v ++ (digestAt 144 v ++ (digestAt 208 v ++ (digestAt 272 v ++ (digestAt 336 v ++ []))))
def verified (actLive : Bool) : State :=
  { up with
    flash := { Flash.reset with slotB := emptySlot }
    fw := { staged .verify with
      actCid := some 0, actLive := actLive
      dir := { (staged .verify).dir with mdigest := mDigest (memRead emptySlot 0 65536) } } }

theorem param_digest (n : Byte) (v : Nat) : slice (pad 48 (zeros 8 ++ [n] ++ zeros 7 ++ leBytes 32 v)) 16 32 = leBytes 32 v := by
  rfl

theorem memByte_cells (f : Nat → Byte) (a n j : Nat) (r : Mem) :
    memByte ((List.range' a n).map (fun i => (i, f i)) ++ r) j = if a ≤ j ∧ j < a + n then f j else memByte r j := by
  induction n generalizing a with
  | zero => rw [if_neg (by omega)]; rfl
  | succ n ih =>
    rw [List.range'_succ, List.map_cons, List.cons_append, memByte, ih]
    by_cases h : a = j
    · subst h; rw [if_pos rfl, if_pos (by omega)]
    · rw [if_neg h]
      by_cases h2 : a + 1 ≤ j ∧ j < a + 1 + n
      · rw [if_pos h2, if_pos (by omega)]
      · rw [if_neg h2, if_neg (by omega)]

theorem read_cells (a v : Nat) (r : Mem) : memRead (digestAt a v ++ r) a 32 = leBytes 32 v := by
  have h : ∀ n b, memRead (digestAt a v ++ r) b n = (List.range n).map (fun i => memByte (digestAt a v ++ r) (b + i)) := by
    intro n
    induction n with
    | zero => intro b; rfl
    | succ n ih =>
      intro b
      rw [memRead, ih, List.range_succ_eq_map, List.map_cons, List.map_map]
      refine congrArg _ (List.map_congr_left fun i _ => ?_)
      exact congrArg _ (Nat.add_right_comm b 1 i)
  rw [h]
  trans (List.range 32).map (fun i => (leBytes 32 v).getD i 0)
  · refine List.map_congr_left fun i hi => ?_
    have := List.mem_range.1 hi
    rw [digestAt, memByte_cells, if_pos (by omega), Nat.add_sub_cancel_left]
  · rfl

theorem read_digest (v : Nat) : memRead (digestAt 1120 v) (0 + 1120) 32 = leBytes 32 v := by
  simpa using read_cells 1120 v []

theorem read_beside (a v : Nat) (r : Mem) (n b : Nat) (h : b + n ≤ a ∨ a + 32 ≤ b) :
    memRead (digestAt a v ++ r) b n = memRead r b n := by
  induction n generalizing b with
  | zero => rfl
  | succ n ih => rw [memRead, memRead, ih (b + 1) (by omega), digestAt, memByte_cells, if_neg (by omega)]

theorem emptySlot_zero (b n : Nat) (h : b + n ≤ 80 ∨ 112 ≤ b ∧ b + n ≤ 144 ∨ 176 ≤ b ∧ b + n ≤ 208 ∨
    240 ≤ b ∧ b + n ≤ 272 ∨ 304 ≤ b ∧ b + n ≤ 336) : memRead emptySlot b n = memRead [] b n := by
  unfold emptySlot
  dsimp only
  repeat rw [read_beside _ _ _ _ _ (by omega)]

theorem emptySlot_digest (k : Nat) (hk : k < 5) : memRead emptySlot (0 + (64 + 64 * k) + 16) 32 = sm3Bytes [] := by
  unfold emptySlot
  dsimp only
  interval_cases k
  · exact read_cells 80 _ _
  · rw [read_beside _ _ _ _ _ (by omega)]; exact read_cells 144 _ _
  · repeat rw [read_beside _ _ _ _ _ (by omega)]
    exact read_cells 208 _ _
  · repeat rw [read_beside _ _ _ _ _ (by omega)]
    exact read_cells 272 _ _
  · repeat rw [read_beside _ _ _ _ _ (by omega)]
    exact read_cells 336 _ _

theorem parts_empty (k : Nat) (hk : k < 5) :
    let p := memRead emptySlot (0 + (64 + 64 * k)) 64
    u32 p 8 = 0 ∧ u32 p 12 = 0 ∧ slice p 16 32 = sm3Bytes [] := by
  refine ⟨?_, ?_, ?_⟩
  · unfold u32; rw [slice_memRead _ _ _ _ _ (by omega), emptySlot_zero _ _ (by omega)]; rfl
  · unfold u32; rw [slice_memRead _ _ _ _ _ (by omega), emptySlot_zero _ _ (by omega)]; rfl
  · rw [slice_memRead _ _ _ _ _ (by omega), emptySlot_digest k hk]

theorem verifyBad_verified (b : Bool) : verifyBad (verified b) 1 = [] := by
  have hm : manifest (verified b) 1 = memRead emptySlot 0 65536 := rfl
  have hc : mChunks (memRead emptySlot 0 65536) = 0 := by
    unfold mChunks u32; rw [slice_memRead _ _ _ _ _ (by decide)]; rw [emptySlot_zero _ _ (by omega)]; rfl
  unfold verifyBad badChunks
  simp only [hm, hc]
  rw [if_pos (show mDigest (memRead emptySlot 0 65536) = (verified b).fw.dir.mdigest from rfl)]
  have : ((List.range 5).map (mPart (memRead emptySlot 0 65536))).filter
      (fun p => sm3Bytes (partBytes (verified b) 1 p) != slice p 16 32) = [] := by
    rw [List.filter_eq_nil_iff]
    intro p hp
    obtain ⟨k, hk, rfl⟩ := List.mem_map.1 hp
    have h5 := List.mem_range.1 hk
    obtain ⟨h1, h2, h3⟩ := parts_empty k h5
    have e : mPart (memRead emptySlot 0 65536) k = memRead emptySlot (0 + (64 + 64 * k)) 64 :=
      slice_memRead _ _ _ _ _ (by omega)
    rw [e]
    unfold partBytes slotRead
    rw [h1, h2, h3]
    simp [memRead, sm3Bytes]
  rw [this]
  rfl

theorem chunk_agrees : slice (chunker 1).param 16 32 = mChunkDigest (manifest chunked 1) 1 := by
  refine (param_digest 1 zeroDigest).trans ?_
  show _ = slice (memRead (digestAt 1120 zeroDigest) 0 65536) (1088 + 32 * 1) 32
  rw [slice_memRead _ _ _ _ _ (by decide)]
  exact (read_digest zeroDigest).symm

/-! ### Securing and errors -/

def group1 : Machine.Group := { ctx := 1, rank := 0, members := [0, 1], shape := [], digest := 0, listObj := 0 }
def pol1 : SecPol :=
  { kmin := 1, kmax := 4, sgroup := 0, bstride := 1, nbuddy := 1, en := true, regs := [], regtab := 0, silt := 0
    strata := hd 1, mirror := 0 }
def grouped (s : State) : State := { s with fab := { s.fab with groups := [(0, group1)] } }
def secCtx : Ctx := { ctx1 with sec := { secureReset with pol := some pol1 } }
def policer : Cmd :=
  cmd 0x51 ([1, 0, 4, 0, 0, 0, 1, 0, 1, 1, 0, 0] ++ leBytes 4 (hd 1).toNat ++ zeros 8 ++ leBytes 4 (hd 3).toNat ++
    leBytes 4 (hd 2).toNat)
def entry0 : StrataEnt := { entryNew 0 0 0 0 false with complete := true }

/-! ### Reductions and sieve tables -/

def bucket1 : Bucket :=
  { ctx := 1, group := 0, mode := 0, wfmt := 0, flits := 1, elems := 4, local_ := 1, scale := 0, timeout := 5
    bytes := zeros 18 }
def inst1 : Inst :=
  { tag := 0, step := 0, done := false, status := 0, firstPost := some 0, chunks := [], delivered := [], sentX := []
    recvX := [], promoted := 0, nancnt := 0, invcnt := 0, nanelem := none, nanrank := 0, amax := 0, rest := none }
def bucketed (l : List Inst) (s : State) : State :=
  { s with fab := { s.fab with groups := [(0, { group1 with members := [0] })], buckets := [(0, bucket1)], insts := l } }
def grouper : Cmd := cmd 0x42 ([0, 0, 1, 0, 0, 0, 0, 0] ++ leBytes 4 (hd 1).toNat)
def bucketer : Cmd := cmd 0x43 ([0, 0, 0, 0, 0, 0, 1, 0] ++ leBytes 4 4 ++ [1, 0, 0, 0] ++ leBytes 4 5)
def digester : Cmd := cmd 0x54 (zeros 12 ++ leBytes 4 (hd 1).toNat)

def sieve1 : Sieve :=
  { idx := 0, handle := hd 3, dim := 4, tfmt := 0, opt := 0, hot := 0, repl := false, sr := false, rstride := 16
    stateOff := 32768, tscale := 0, pool := hd 4, dlog := 0, salt := 0, shStride := 0, hotRows := [], misses := []
    marked := [], overflow := false, dropped := [], nextEnts := [], applying := none, left := [], waits := [], dlSeq := 0, dlDone := []
    merge := none, merging := [], oldLbas := [], hotFrames := [], ctrs := [] }
def sieved (d : List Byte) : State :=
  { at_ d with sieves := [sieve1], hz := { Hz.reset with objs := [obj 1 1 16, obj 3 1 18] } }
def gatherD : List Byte := desc 0x14 11 255 0 255 (leBytes 4 (hd 3).toNat ++ [0, 0, 1, 0, 1, 0])
def gather1 : Gather :=
  { g := 0, ser := 0, ids := [some 5], weights := [], poolm := 0, baglen := 1, nbag := 1, vc := view 0 4 1 1 1 0, got := []
    rung := [], bad := [], cs := Counts.none }
def hot5 : HotRow := { replica := 0, id := 5, slot := 0, lru := 0 }
def gathering : State :=
  { sieved [] with
    grains := [(0, { grain [] with out := [outd 0 gatherD .gather] })], gathers := [gather1]
    sieves := [{ sieve1 with hotRows := [hot5] }] }
def dl0 : DlogEnt := { slot := 0, id := 0, seq := 1, row := zeros 16, state := [], bad := false, done := [] }
def logged : Sieve := sieve1
def merging : State :=
  { one ctx1 (cmd 1 []) with sieves := [logged], hz := { Hz.reset with objs := [obj 3 3 0], drives := [0], driveGran := 10 } }

/-! ### Segments, threads and clods -/

def segrun : SegRun :=
  { cid := 9, plan := 0, seg := 0, count := 1, seed := none, ended := 0, firstGc0 := none, overrun := 0, status := none
    faultRes := none }
def runCtx : Ctx := { planned with st := .running, runs := [segrun] }
def part1 : LsPart := { ctx := 1, base := 0, size := 6, cache := 0, lastUs := 0 }
def area1 : SaveArea :=
  { ctx := 1, ped2 := 0, horizon := 1, frames := [], saved := true, data := [], bad := [] }
def xfer1 : XferEnt :=
  { start := 0, kind := 0, sem := 0, ped := ped0, handle := hd 1, off := 0, bytes := 32, dest := 0 }
def xferRun (x : XferSt) : RunSeg := { run1 with d := { segd with xfers := [xfer1] }, xfers := [x] }

/-- Grain 0 with one outstanding descriptor. -/
def busy (o : OutD) : State := onGrain { grain [] with out := [o] }

/-- Grain 0 whose thread 0 is th. -/
def withThr (th : Thr) : Grain := { grain [] with thr := [(0, th)] }
def guard (n : Nat) : Guard := { due := 5, step1 := 6, step2 := 7, fetch := some 3, stage := n, late := [] }
def clod1 : Clod :=
  { key := 0, ctx := 1, cid := 1, ped := ped0, t := 0, members := [0], committed := [0], preps := [], failed := none
    explicitAbort := false, size := 0, atom := none }
/-- Thread 0 of grain 0 at descriptor d inside its open clod. -/
def inClod (d : List Byte) : State := { onGrain (withThr { thr d with clod := some 0 }) with clods := [clod1] }
/-- Thread 0 at descriptor d with its task's descriptors all issued. -/
def inTask (d : List Byte) : State :=
  onGrain (withThr { thr d with spec := .spec, task := some { stage := 0, stageLen := 32, first := 0, size := 0, left := 0, altLeft := 0 } })
def semP : List Byte := leBytes 4 0xFFFFFFFF ++ [0, 0, 1, 0]

/-! ### Registers -/

def pended (rq : Requester) (g : GReg) (v : W32) : State := { up with reg := { up.reg with pend := [(rq, g, v)] } }

/-- A scratchpad window of grain 0 alone. -/
def grainWin : Win := { win1 with kind := 0, target := 0x90000000 }
theorem members_grainWin : winMembers windowed grainWin = [0] := by
  have h : pedOf windowed grainWin.ctx grainWin.target = .ok [(0, some [0])] := rfl
  unfold winMembers
  rw [h]
  simp [pedSetGrains, logicalId]
theorem total_grainWin : winTotal windowed grainWin = 64 := by unfold winTotal; rw [members_grainWin]; rfl
theorem grains_grainWin : winGrains windowed grainWin 32 32 = [0] := by unfold winGrains; rw [members_grainWin]; rfl

/-! ## Ill-formed commands: one for each check of well-formedness -/

def illFormed : List Instr :=
  [.adminDoorbell 128 0, .commandFetch 0 (some 1024) (.ring 0), .commandFetch 0 none (.ring 1), .commandFetch 0 none (.message []), .interruptTimeExpire 1 64,
   .commandRingDoorbell 0 1024 0 0, .pedDoorbell 0 0 1024 0, .ringTableWrite .mgmt 1024 0,
   .hubSpecWrite (.host 128) 1 0, .bar4Access 2 0 (.read 1), .bar4Access 0 (2 ^ 36) (.read 1), .portReset 2,
   .hostLinkUp 0 3 5, .hostLinkUp 0 16 6, .vfFlr 0 (some 64), .diePark 48, .arrPass 300000 0, .arrPass 0 8]

def illFormed2 : List Instr :=
  [.arrayIdle 300000, .backgroundTestPiece 1200, .tagGrant (.hz1 48), .tagGrant (.tdie 6), .tagGrant (.port 2),
   .tagGrant (.ldie 8), .calibrationWindowStart (.hz1 48 0), .calibrationWindowEnd (.hz2 48), .ddr5ChannelFailed 48,
   .driveFailed 24 .timeout 0, .lnkPortEnable .mgmt 64 0, .portLeaveUp 64, .flitReceive 0 [], .reductionFlitArrive [],
   .lnkRouteWrite .mgmt 16384 0, .pwrCtlWrite (.host 128) 0, .registerWrite .mgmt 0 0 0,
   .registerReadLatch .mgmt 0x4000000 4, .lockstepMismatch 2, .hubLogicMismatch 64 0, .ped1Prewake 19200,
   .getVersion (.doe 2), .segmentStart 1024]

theorem test_illFormed : illFormed.all (fun i => !i.wf) = true := by decide
theorem test_illFormed2 : illFormed2.all (fun i => !i.wf) = true := by decide
theorem test_wellFormed : ([.adminDoorbell 127 0, .commandFetch 127 (some 1023) (.ring 1023), .arrPass 299999 7,
    .hostLinkUp 1 16 5, .registerWrite .mgmt 0x3FFFFFF 4 0, .ped1Prewake 19199] : List Instr).all (·.wf) = true := by
  decide

/-- No row of the opcode table has bits. -/
theorem test_noWord : decodeTableWord 32 0x01 = none := rfl

/-! ## What the spec works out -/

/-- R492: CRC-64 over the ASCII bytes "123456789". -/
theorem test_crc64 : crc64 [0x31, 0x32, 0x33, 0x34, 0x35, 0x36, 0x37, 0x38, 0x39] = 0x6C40DF5F0B497347 := by
  decide +kernel

/-- Chapter 05's Marl-10 block. -/
theorem test_marl10 : marl10 0x2A 1 0x3E8 0x11 = (0x353B0C13, 0xF26389E8, 0x3459B487, 0xE55917E7) := by
  decide +kernel

/-- Chapter 01's grain (29, 17, 203): spares 5, 40, 97, 150, 201 and 240. -/
def graded : State :=
  { up with emap := { up.emap with cold := [(742, 2 ^ 256 - 1 - (2 ^ 5 + 2 ^ 40 + 2 ^ 97 + 2 ^ 150 + 2 ^ 201 + 2 ^ 240))] } }

theorem test_physId : physId graded 185698 = 190155 := by decide +kernel
theorem test_canonPed : canonPed graded 0x9002D562 = 0x07639600 := by decide +kernel
/-- It fails in service: the logical id passes to grain 5. -/
theorem test_physId_spare :
    physId { graded with emap := { graded.emap with subst := [(190155, 742 * 256 + 5)] } } 185698 = 742 * 256 + 5 := by
  decide +kernel

/-- Chapter 10's doorbell of ring 3 of context 17: tail 0 and head 500 of completion ring 2, which had 510 entries. -/
def ringed17 : State :=
  { up with ctxs := [(17, { ctx1 with
      num := 17, rtEn := true, sq := [(3, { ring0 with size := 8, pos := 254, tail := 254 })]
      cq := [(2, { cq0 with size := 9, pos := 510, fill := 20 })] })] }

theorem test_doorbell : (match exec (.commandRingDoorbell 0 17 3 0x000001F400050000) ringed17 with
    | .next t => (ctxOf t 17).map (fun c => ((nmGetD c.sq 3 subRingOff).tail, (nmGetD c.cq 2 cplRingOff).fill))
    | _ => none) = some (0, 10) := by decide +kernel

/-- Chapter 16's two hosts: host 1's pair completes and host 0's slot stays open. -/
def twoHosts : State :=
  { up with reg := { up.reg with pend := [(.host 0, .pwrLimit, 0x01904E20), (.host 64, .pwrLimit, 0x019061A8)] } }

theorem test_pair : (match exec (.pwrLimitPair (.host 64) 0xFE6F9E57) twoHosts with
    | .next t => (t.pwr.limit, pendOf t (.host 0) .pwrLimit) | _ => (0, none)) = (0x019061A8, some 0x01904E20) := by
  decide +kernel
theorem test_pair_alone : (match exec (.pwrLimitPair .mgmt 0xFE6FB1DF) up with
    | .next t => (t.reg.gFails, t.reg.gReq, t.reg.gCause, t.reg.gFn, t.reg.gOff) | _ => (0, 0, 0, 0, 0)) =
    (1, 3, 1, 0x7F, 0x00900018) := by decide +kernel

/-- R316: PING answers its cookie and the PCC. -/
theorem test_ping : (match exec (.ping 0) (one ctx1 (cmd 1 [5])) with
    | .next t => (cmdOf t 0).bind (·.done) | _ => none) =
    some (stOK, [5, 0, 0, 0, 0, 0, 0, 0, 0xE8, 3, 0, 0, 0, 0, 0, 0]) := by decide +kernel

/-- The chapter 05 dropout example: element 1 of the grain of rank 3 is kept. -/
def dropout : Iss :=
  { iss (at_ []) (desc 0x08 255 255 0 255 ([1, 0] ++ leBytes 4 0x11 ++ leBytes 6 1000 ++ leBytes 4 1000 ++
      leBytes 4 0x40000000)) with
    pl := { placeOf (at_ []) 0 with k := 3 }
    r := { run1 with d := { segd with progs := [{ prog with
      views := [{ view 0 4 1 1 1 3 with gix := true }] }] } } }

theorem test_dropout : (rngIndex dropout 1, (List.range 4).map (fun n => decide ((marlWord (marl10 0x2A 1 1000 0x11) n).toNat
    < u32 dropout.d 26))) = (4001, [true, false, true, false]) := by decide +kernel
theorem test_dropped : [rngBit { ctx1 with stepSeed := 0x2A, step := 1 } dropout 2] = [0] := by decide +kernel

/-- A byte written as what an unlisted byte reads as leaves no entry. -/
theorem test_memSet : memSet 5 0 (memSet 5 7 [(2, 1)]) = [(2, 1)] := by decide


/-! ## The causes that hold a descriptor -/

/-- Grain 0 of context 1, its thread 0 at descriptor d. -/
def held (g : Grain) (d : List Byte) (p : Prog) : State :=
  { onGrain { g with thr := [(0, thr d)] } with segs := [{ run1 with d := { segd with progs := [p] } }] }

def vecDesc : List Byte := desc 0x05 0 255 1 255 []

theorem witness_HeldDescriptors_blocking : ∃ s gr th r x d, atTurn 0 0 s gr th r x d ∧
    ∃ o ∈ outOf gr 0, blocking (dOp o.desc) = true :=
  ⟨held { grain [] with out := [outd 1 [0x20] .nothing] } vecDesc prog, _, _, _, _, pad 32 vecDesc,
    ⟨rfl, rfl, rfl, rfl, rfl, by decide +kernel, by decide +kernel, by decide +kernel⟩, outd 1 [0x20] .nothing, by decide +kernel, by decide +kernel⟩

theorem witness_HeldDescriptors_window : ∃ s gr th r x d, atTurn 0 0 s gr th r x d ∧
    (∀ o ∈ outOf gr 0, blocking (dOp o.desc) = false) ∧ 4 ≤ (outOf gr 0).length :=
  ⟨held { grain [] with out := (List.range 4).map (fun n => outd n vecDesc .nothing) } vecDesc prog, _, _, _, _,
    pad 32 vecDesc, ⟨rfl, rfl, rfl, rfl, rfl, by decide +kernel, by decide +kernel, by decide +kernel⟩, by decide +kernel, by decide +kernel⟩

theorem witness_HeldDescriptors_ord : ∃ s gr th r x d, atTurn 0 0 s gr th r x d ∧
    (∀ o ∈ outOf gr 0, blocking (dOp o.desc) = false) ∧ (outOf gr 0).length < 4 ∧ dOrd d = true ∧ outOf gr 0 ≠ [] :=
  ⟨held { grain [] with out := [outd 1 vecDesc .nothing] } [0x05, 0x80] prog, _, _, _, _, pad 32 [0x05, 0x80],
    ⟨rfl, rfl, rfl, rfl, rfl, by decide +kernel, by decide +kernel, by decide +kernel⟩, by decide +kernel, by decide +kernel, by decide +kernel, by decide +kernel⟩

theorem witness_HeldDescriptors_time : ∃ s gr th r x d, atTurn 0 0 s gr th r x d ∧
    (∀ o ∈ outOf gr 0, blocking (dOp o.desc) = false) ∧ (outOf gr 0).length < 4 ∧
    (dOrd d = false ∨ outOf gr 0 = []) ∧ th.redo = [] ∧ segGc s r < dNotBefore d :=
  ⟨held (grain []) [0x05, 0, 0xFF, 0xFF, 0xFF] prog, _, _, _, _, pad 32 [0x05, 0, 0xFF, 0xFF, 0xFF],
    ⟨rfl, rfl, rfl, rfl, rfl, by decide +kernel, by decide +kernel, by decide +kernel⟩, by decide +kernel, by decide +kernel, by decide +kernel, rfl, by decide +kernel⟩

theorem witness_HeldDescriptors_fifo : ∃ s gr th r x d, atTurn 0 0 s gr th r x d ∧
    (∀ o ∈ outOf gr 0, blocking (dOp o.desc) = false) ∧ (outOf gr 0).length < 4 ∧
    (dOrd d = false ∨ outOf gr 0 = []) ∧ dNotBefore d ≤ segGc s r ∧ x.paired = true ∧ pqBad 0 d = false ∧
    pqPop d = true ∧ gr.fifos.getD (pqPopQ d) 0 = 0 :=
  ⟨held (grain []) [0x10, 0, 0, 0, 0, 0xC0] { prog with paired := true }, _, _, _, _, pad 32 [0x10, 0, 0, 0, 0, 0xC0],
    ⟨rfl, rfl, rfl, rfl, rfl, by decide +kernel, by decide +kernel, by decide +kernel⟩, by decide +kernel, by decide +kernel, by decide +kernel, by decide +kernel, rfl, by decide +kernel,
    by decide +kernel, by decide +kernel⟩

theorem witness_HeldDescriptors_engine : ∃ s gr th r x d, atTurn 0 0 s gr th r x d ∧
    waitBefore s gr 0 th r x.paired d = none ∧ engineBusy s gr 0 r x.paired (engineOf (dOp d)) = true :=
  ⟨held { grain [] with engGc := [(3, up.clk.pcc)] } vecDesc prog, _, _, _, _, pad 32 vecDesc,
    ⟨rfl, rfl, rfl, rfl, rfl, by decide +kernel, by decide +kernel, by decide +kernel⟩, by decide +kernel, by decide +kernel⟩

/-! ## What meets the hypotheses of each statement, clause by clause -/

theorem witness_PortRowsAct : (∃ (s : State) (p : Nat), p ≤ 1) ∧ (∃ (s : State) (p : Nat), p ≤ 1) ∧ (∃ (s : State) (p
    w g : Nat), p ≤ 1 ∧ s.clk.mainEn = true ∧ (portOf s p).perst = false ∧ w ∈ [1, 2, 4, 8, 16] ∧ 1 ≤ g ∧ g ≤ 5) ∧ (∃
    (s : State) (p : Nat), p ≤ 1 ∧ (portOf s p).linkUp = true) ∧ (∃ (s : State) (p : Nat), p ≤ 1 ∧ (portOf s p).linkUp
    = false) ∧ (∃ (s : State) (p : Nat), p ≤ 1 ∧ (portOf s p).perst = false ∧ s.boot.ready = true) ∧ (∃ (s : State) (p
    : Nat), p ≤ 1) ∧ (∃ (s : State) (fn : Nat), fnOff s fn = false) ∧ (∃ (s : State) (fn : Nat), fnOff s fn = false ∧
    (fnOf s fn).pba = []) :=
  ⟨⟨up, 1,
    by decide +kernel⟩,
  ⟨up, 1,
    by decide +kernel⟩,
  ⟨up, 1, 16, 5,
    by decide +kernel⟩,
  ⟨up, 1,
    by decide +kernel⟩,
  ⟨{ up with port1 := Port.reset }, 1,
    by decide +kernel⟩,
  ⟨up, 0,
    by decide +kernel⟩,
  ⟨up, 1,
    by decide +kernel⟩,
  ⟨up, 0,
    by decide +kernel⟩,
  ⟨up, 127,
    by decide +kernel⟩⟩

theorem witness_FunctionAndPackageResets : (∃ (s : State) (p : Nat), p ≤ 1 ∧ (portOf s p).inReset = false) ∧ (∃ (s :
    State) (p v : Nat), p ≤ 1 ∧ (portOf s p).inReset = false ∧ 1 ≤ v ∧ v ≤ 63) ∧ (∃ (s : State) (p : Nat), p ≤ 1 ∧
    (portOf s p).inReset = false) ∧ (∃ s : State, s.clk.vstby = true ∧ s.clk.mainEn = true) ∧ (∃ (s : State) (p :
    Nat), p ≤ 1 ∧ s.clk.vstby = true ∧ s.clk.mainEn = true ∧ (portOf s p).linkUp = false ∧ (portOf s (1 - p)).pkgReq =
    true) ∧ (∃ (s : State) (fn : Nat), fn < 128) ∧ (∃ (s : State) (fn : Nat), fn % 64 = 0) :=
  ⟨⟨up, 1,
    by decide +kernel⟩,
  ⟨up, 1, 63,
    by decide +kernel⟩,
  ⟨up, 1,
    by decide +kernel⟩,
  ⟨up,
    by decide +kernel⟩,
  ⟨{ up with port1 := Port.reset, port0 := { up.port0 with pkgReq := true } }, 1,
    by decide +kernel⟩,
  ⟨up, 127,
    by decide +kernel⟩,
  ⟨up, 64,
    by decide +kernel⟩⟩

theorem witness_RingRowsAct : (∃ (s : State) (rq : Requester) (ctx : Nat) (val : W64) (c : Ctx), ctxOf s ctx = some c
    ∧ (rq = .firmware ∨ (rq = .host c.owner ∧ barOff s c.owner = false)) ∧ (ctxCmds s ctx).any outstanding = false) ∧
    (∃ (s : State) (fn : Nat) (val : W64), barOff s fn = false ∧ fn % 64 = 0) ∧ (∃ (s : State) (fn : Nat), barOff s fn
    = false ∧ (fnOf s fn).ctl.getLsbD 0 = false ∧ s.boot.running = true) ∧ (∃ (s : State) (fn : Nat), barOff s fn =
    false ∧ (fnOf s fn).ctl.getLsbD 0 = false ∧ s.boot.running = false) ∧ (∃ (s : State) (fn : Nat), barOff s fn =
    false ∧ (fnOf s fn).ctl.getLsbD 0 = true ∧ adminCmds s fn = []) ∧ (∃ (s : State) (fn page ring : Nat) (val : W64)
    (c : Ctx) (r : SubRing), barOff s fn = false ∧ pageCtx s fn page = some c ∧ nmGet s.ctxs c.num = some c ∧ nmGet
    c.sq ring = some r ∧ r.loaded = true ∧ r.kind = 1 ∧ c.rtEn = true ∧ ring ≤ 1023 ∧ val.toNat < 2 ^ 23 ∧ bitAt
    val.toNat 16 = false ∧ bits val.toNat 0 16 < 2 ^ r.size) ∧ (∃ (s : State) (fn : Nat) (val : W64), barOff s fn =
    false ∧ (fnOf s fn).ardy = true ∧ (fnOf s fn).asqr.kind = 1 ∧ val.toNat < 2 ^ 16 ∧ val.toNat < 2 ^ (fnOf s
    fn).asqr.size) ∧ (∃ (s : State) (fn page ring : Nat) (val : W64) (c : Ctx) (r : SubRing) (l : PedSet), barOff s fn
    = false ∧ pageCtx s fn page = some c ∧ nmGet c.sq ring = some r ∧ r.loaded = true ∧ r.kind = 2 ∧ c.rtEn = true ∧
    ring ≤ 1023 ∧ val.toNat < 2 ^ 24 ∧ bits val.toNat 0 16 ≠ 0 ∧ residentOn s c.num r.ped = true ∧ pedOf s c.num r.ped
    = .ok l) :=
  ⟨⟨one ctx1 { cmd 1 [] with ctx := none }, .host 0, 1, 0, ctx1,
    by decide +kernel⟩,
  ⟨up, 64, 0,
    by decide +kernel⟩,
  ⟨{ up with boot := { up.boot with running := true } }, 0,
    by decide +kernel⟩,
  ⟨up, 0,
    by decide +kernel⟩,
  ⟨{ up with fns := [(0, { fnReset with ctl := 1 })] }, 0,
    by decide +kernel⟩,
  ⟨one ringCtx (cmd 1 []), 0, 1, 0, 15, ringCtx, ring0,
    by decide +kernel⟩,
  ⟨{ up with fns := [(0, { fnReset with ardy := true, asqr := { ring0 with size := 4 } })] }, 0, 15,
    by decide +kernel⟩,
  ⟨onGrainCtx pedCtx, 0, 1, 0, 1, pedCtx, pedRing, [(0, none)],
    by decide +kernel⟩⟩

theorem witness_PingCompletionAndAperture : (∃ (s : State) (cid : Nat) (k : Cmd), ready s cid 0x01 = some k ∧ allZero
    (k.param.drop 8) = true) ∧ (∃ (s : State) (cid : Nat) (c : Cmd) (st : W16) (res : List Byte), cmdOf s cid = some c
    ∧ c.fn ≠ mgmtFn ∧ fnOff s c.fn = false ∧ ringsOn s c.fn = true ∧ c.deferred = none ∧ c.done = some (st, res) ∧
    (cqOf s c.fn c.ctx c.cq).fill < 2 ^ (cqOf s c.fn c.ctx c.cq).size) ∧ (∃ (s : State) (port off n : Nat) (l : List
    (Obj × Nat)), port ≤ 1 ∧ barOff s (64 * port) = false ∧ off + n ≤ (portOf s port).bar4 ∧ (List.range n).map (fun i
    => aperByte s (64 * port) (off + i)) = l.map some) ∧ (∃ (s : State) (port off : Nat) (b : List Byte) (l : List
    (Obj × Nat)), port ≤ 1 ∧ barOff s (64 * port) = false ∧ off + b.length ≤ (portOf s port).bar4 ∧ (List.range
    b.length).map (fun i => aperByte s (64 * port) (off + i)) = l.map some ∧ (∀ e ∈ l, e.1.rdonly = false)) ∧ (∃ (s :
    State) (q : Req) (o : Obj) (id : Nat) (places : List (Nat × Nat)) (d : List Byte) (ans : HzAnswer), objOf s
    q.handle = some o) ∧ (∃ (s : State) (q : Req) (o : Obj) (id : Nat) (places : List (Nat × Nat)) (ans : HzAnswer) (r
    : (Nat → Byte × Bool) × State), objOf s q.handle = some o ∧ r = sourceRead q o (places.map (·.2)) ans s ∧ (∀ e ∈
    places, (r.1 e.2).2 = false)) ∧ (∃ (s : State) (ctx q : Nat) (c : Ctx), ctxOf s ctx = some c ∧ (nmGetD c.cq q
    cplRingOff).en = true ∧ (nmGetD c.cq q cplRingOff).vector ≠ 0xFFFF ∧ (nmGetD c.cq q cplRingOff).itime ≠ 0 ∧
    (nmGetD c.cq q cplRingOff).since ≠ 0) ∧ (∃ (s : State) (fn ring : Nat) (ctx : Option Nat), (∀ x, ctx = some x → ∃
    c, ctxOf s x = some c ∧ c.owner = fn) ∧ mayFetch s fn ctx ring = true) ∧ (∃ (s : State) (fn : Nat) (ctx : Option
    Nat) (b : List Byte), s.clk.mainEn = true ∧ s.err.stopped = none ∧ s.boot.outcome ≠ 0) ∧ (∃ (s : State) (cid :
    Nat) (c : Cmd) (st : W16) (res : List Byte), cmdOf s cid = some c ∧ c.fn = mgmtFn ∧ c.done = some (st, res)) :=
  ⟨⟨one ctx1 (cmd 1 [7]), 0, cmd 1 [7],
    by decide +kernel⟩,
  ⟨one cqCtx { cmd 1 [] with done := some (0, zeros 16) }, 0, { cmd 1 [] with done := some (0, zeros 16) }, 0, zeros 16,
    by decide +kernel⟩,
  ⟨aperUp, 0, 0, 2, [(obj 1 1 16, 0), (obj 1 1 16, 1)],
    by decide +kernel⟩,
  ⟨aperUp, 0, 0, [7, 8], [(obj 1 1 16, 0), (obj 1 1 16, 1)],
    by decide +kernel⟩,
  ⟨aperUp, req (.aper 0 [(0, 5)] (some [7])) true, obj 1 1 16, 0, [(0, 5)], [7], .ok,
    by decide +kernel⟩,
  ⟨aperUp, req (.aper 0 [(0, 5)] none) true, obj 1 1 16, 0, [(0, 5)], .ok, _,
    by decide +kernel,
    rfl,
    by decide +kernel⟩,
  ⟨one cqCtx (cmd 1 []), 1, 0, cqCtx,
    by decide +kernel⟩,
  ⟨one { ringCtx with sq := [(0, { ring0 with tail := 1 })] } { cmd 1 [] with ctx := none }, 0, 0, some 1,
    (fun x h => by cases h; exact ⟨_, rfl, rfl⟩),
    by decide +kernel⟩,
  ⟨up, 0, none, [],
    by decide +kernel⟩,
  ⟨one ctx1 { cmd 1 [] with fn := mgmtFn, ctx := none, done := some (0, zeros 16) }, 0, { cmd 1 [] with fn := mgmtFn, ctx := none, done := some (0, zeros 16) }, 0, zeros 16,
    by decide +kernel⟩⟩

theorem witness_ContextCommandsAct : (∃ (s : State) (cid n : Nat) (c : Cmd), ready s cid 0x10 = some c ∧ createBad s c
    = false ∧ (if u16 c.param 0 = 0xFFFF then lowestFree s else if (ctxOf s (u16 c.param 0)).isSome then none else
    some (u16 c.param 0)) = some n ∧ (c.fn % 64 = 0 ∨ ownedBy s c.fn < 16) ∧ 128 ≤ freeFrames s 1 ∧ fits334 s (ctxNew
    n c.fn (u8 c.param 2) (u8 c.param 3 = 1) (BitVec.ofNat 32 (u32 c.param 4)) (u16 c.param 8) (u8 c.param 10) (u32
    c.param 12)) = true) ∧ (∃ (s : State) (cid n : Nat) (c : Cmd) (x : Ctx), ready s cid 0x11 = some c ∧ u16 c.param 0
    = n ∧ n ≤ 1023 ∧ n ≠ 0 ∧ allZero (c.param.drop 2) = true ∧ ctxOf s n = some x ∧ mayManage x c.fn = true ∧ runOut
    (startCmd cid s) n = false ∧ liveTags s n = []) ∧ (∃ (s : State) (cid n : Nat) (c : Cmd) (x : Ctx), ready s cid
    0x12 = some c ∧ u16 c.param 0 = n ∧ n ≤ 1023 ∧ n ≠ 0 ∧ allZero (c.param.drop 2) = true ∧ ctxOf s n = some x ∧
    mayManage x c.fn = true) ∧ (∃ (s : State) (cid n : Nat) (c : Cmd) (x : Ctx), ready s cid 0x13 = some c ∧ shareBad
    c.param = false ∧ u8 c.param 0 = 2 ∧ u16 c.param 2 = n ∧ n ≠ 0 ∧ ctxOf s n = some x ∧ mayManage x c.fn = true ∧
    fits334 s
    { x with weight := u16 c.param 4, limit := u8 c.param 6, slice := u32 c.param 8, deepNext := u8 c.param 7 = 1 } =
    true) ∧ (∃ (s : State) (cid : Nat) (c : Cmd), ready s cid 0x13 = some c ∧ shareBad c.param = false ∧ u8 c.param 0
    = 1 ∧ c.fn % 64 = 0 ∧ u16 c.param 2 / 64 = c.fn / 64) ∧ (∃ (s : State) (cid : Nat) (c : Cmd), ready s cid 0x13 =
    some c ∧ shareBad c.param = false ∧ u8 c.param 0 = 0 ∧ c.fn = mgmtFn ∧ u16 c.param 2 ≤ 1) :=
  ⟨⟨one ctx1 creator, 0, 2, creator,
    by decide +kernel⟩,
  ⟨one ctx1 (cmd 0x11 [1]), 0, 1, cmd 0x11 [1], ctx1,
    by decide +kernel⟩,
  ⟨one ctx1 (cmd 0x12 [1]), 0, 1, cmd 0x12 [1], ctx1,
    by decide +kernel⟩,
  ⟨one ctx1 sharer, 0, 1, sharer, ctx1,
    by decide +kernel⟩,
  ⟨one ctx1 (cmd 0x13 [1, 0, 2, 0, 5]), 0, cmd 0x13 [1, 0, 2, 0, 5],
    by decide +kernel⟩,
  ⟨one ctx1 { cmd 0x13 [0, 0, 1, 0, 5] with fn := mgmtFn, ctx := none }, 0, { cmd 0x13 [0, 0, 1, 0, 5] with fn := mgmtFn, ctx := none },
    by decide +kernel⟩⟩

theorem witness_PlanCommandsAct : (∃ (s : State) (cid : Nat) (k : Cmd) (c : Ctx) (o : Obj) (m : Image) (i : Nat),
    ready s cid 0x30 = some k ∧ k.ctx.bind (ctxOf s) = some c ∧ ctxOf s c.num = some c ∧ u32 k.param 4 = 0 ∧ allZero
    (k.param.drop 16) = true ∧ u64 k.param 8 % 256 = 0 ∧ ownObj s c.num (BitVec.ofNat 32 (u32 k.param 0)) = some o ∧
    u64 k.param 8 + 64 ≤ o.size ∧ 64 ≤ leNat (objRead s o (u64 k.param 8 + 28) 4) ∧ u64 k.param 8 + leNat (objRead s o
    (u64 k.param 8 + 28) 4) ≤ o.size ∧ readImage (startCmd cid s) c (objRead s o (u64 k.param 8) (leNat (objRead s o
    (u64 k.param 8 + 28) 4))) = some m ∧ m.segs.any (fun d => d.progs.any (fun x => !(inDomain c.domain x.ped2))) =
    false ∧ lowestPlan c = some i) ∧ (∃ (s : State) (cid : Nat) (k : Cmd) (c : Ctx), ready s cid 0x31 = some k ∧
    k.ctx.bind (ctxOf s) = some c ∧ ctxOf s c.num = some c ∧ allZero (k.param.drop 4) = true ∧ (planOf c (u32 k.param
    0)).isSome = true ∧ c.runs.any (fun r => r.plan == u32 k.param 0) = false ∧ s.cmds.any (fun q => q.ctx == some
    c.num && q.opcode == 0x32 && q.done.isNone && u32 q.param 0 == u32 k.param 0) = false) ∧ (∃ (s : State) (cid :
    Nat) (k : Cmd) (c : Ctx) (pl : Plan), ready s cid 0x32 = some k ∧ runTurn s k = true ∧ k.ctx.bind (ctxOf s) = some
    c ∧ c.lost = none ∧ planOf c (u32 k.param 0) = some pl ∧ u8 k.param 8 ≤ 1 ∧ allZero (slice k.param 9 7) = true ∧
    allZero (k.param.drop 24) = true ∧ 1 ≤ u16 k.param 6 ∧ u16 k.param 6 ≤ 4096 ∧ u16 k.param 4 + u16 k.param 6 ≤
    pl.segs.length ∧ (u8 k.param 8 = 1 → stepFirst pl (u16 k.param 4) = true) ∧ firstUnfit c pl (u16 k.param 4) (u16
    k.param 6) = none ∧ ((pl.segs.drop (u16 k.param 4)).take (u16 k.param 6)).all (limitOk (startCmd cid s) c) = true)
    ∧ (∃ (s : State) (cid : Nat) (k : Cmd) (c : Ctx), ready s cid 0x33 = some k ∧ k.ctx.bind (ctxOf s) = some c ∧
    allZero k.param = true ∧ (∀ r, segOf s c.num = some r → k.fetchPcc.toNat < r.gc0.toNat)) ∧ (∃ (s : State) (cid :
    Nat) (k : Cmd) (c : Ctx) (r : RunSeg), ready s cid 0x33 = some k ∧ k.ctx.bind (ctxOf s) = some c ∧ ctxOf s c.num =
    some c ∧ allZero k.param = true ∧ segOf s c.num = some r ∧ r.gc0.toNat ≤ k.fetchPcc.toNat) :=
  ⟨⟨imaged loader, 0, loader, ctx1, obj 1 1 16, _, 0,
    by decide +kernel,
    by decide +kernel,
    rfl,
    by decide +kernel,
    rfl,
    by decide +kernel,
    by decide +kernel,
    by decide +kernel,
    by decide +kernel,
    by decide +kernel,
    (Option.some_get (by decide +kernel)).symm,
    by decide +kernel⟩,
  ⟨one planned (cmd 0x31 []), 0, cmd 0x31 [], planned,
    by decide +kernel⟩,
  ⟨one planned runner, 0, runner, planned, plan0,
    by decide +kernel⟩,
  ⟨one ctx1 (cmd 0x33 []), 0, cmd 0x33 [], ctx1,
    by decide +kernel,
    by decide +kernel,
    rfl,
    (fun r h => by cases h)⟩,
  ⟨{ one ctx1 (cmd 0x33 []) with segs := [run1] }, 0, cmd 0x33 [], ctx1, run1,
    by decide +kernel⟩⟩

theorem witness_ObjectCommandsAct : (∃ (s : State) (cid base : Nat) (c : Cmd), ready s cid 0x20 = some c ∧ u64 c.param
    0 ≠ 0 ∧ u64 c.param 0 % 65536 = 0 ∧ u64 c.param 0 ≤ 2 ^ 48 ∧ placeBad s c.param (u64 c.param 0) = false ∧
    s.hz.objs.length < 1048576 ∧ roomFor s (resolveHzn s (parsePlace c.param).horizon) (pickIndex s (c.ctx.getD 0))
    (List.range (u64 c.param 0 / 65536)) (32 + 16 * (u64 c.param 0 / 65536)) = true ∧ findBase s (c.ctx.getD 0) (u64
    c.param 0) = some base) ∧ (∃ (s : State) (cid : Nat) (c : Cmd) (o : Obj), ready s cid 0x21 = some c ∧ allZero
    (c.param.drop 4) = true ∧ ownObj s (c.ctx.getD 0) (BitVec.ofNat 32 (u32 c.param 0)) = some o ∧ objHeld (startCmd
    cid s) (c.ctx.getD 0) (BitVec.ofNat 32 (u32 c.param 0)) = false ∧ groupNames s (c.ctx.getD 0) (BitVec.ofNat 32
    (u32 c.param 0)) = false) ∧ (∃ (s : State) (cid : Nat) (c : Cmd) (o : Obj) (h : W32) (q : PlaceP) (js : List Nat),
    ready s cid 0x22 = some c ∧ h = BitVec.ofNat 32 (u32 c.param 0) ∧ q = parsePlace c.param ∧ u32 c.param 4 = 0 ∧
    ownObj s (c.ctx.getD 0) h = some o ∧ placeBad s c.param o.size = false ∧ js = (List.range o.gran.length).filter
    (fun j => (granOf o j).hzn ≠ resolveHzn s q.horizon || (resolveHzn s q.horizon = 1 && (o.spread ≠ q.spread ||
    o.home ≠ q.home))) ∧ (resolveHzn s q.horizon = 4 → o.gran.all (fun g => g.hzn != 4) = true) ∧ (q.rdonly = true ∨
    (o.gran.any (fun g => g.hzn == 3) = false ∧ s.hz.migs.any (fun m => m.handle == h && m.hzn == 3) = false)) ∧ (js =
    [] ∨ moveBarred s o (resolveHzn s q.horizon) 0 o.size = false) ∧ (isRung s h = true → q.pin = true) ∧ (q.rdonly =
    true → o.rdonly = true ∨ winWrites s h = false) ∧ (js = [] ∨ s.hz.migs.any (fun m => m.handle == h) = false) ∧
    roomFor s (resolveHzn s q.horizon) o.idx js 0 = true) ∧ (∃ (s : State) (cid : Nat) (c : Cmd) (o : Obj) (h : W32)
    (off len hzn : Nat) (js : List Nat), ready s cid 0x23 = some c ∧ h = BitVec.ofNat 32 (u32 c.param 0) ∧ off = u64
    c.param 8 ∧ len = u64 c.param 16 ∧ u32 c.param 4 = 0 ∧ off % 65536 = 0 ∧ len ≠ 0 ∧ len % 65536 = 0 ∧ u8 c.param 24
    ≠ 0 ∧ u8 c.param 24 ≤ 5 ∧ u8 c.param 25 ≤ 1 ∧ allZero (c.param.drop 26) = true ∧ ownObj s (c.ctx.getD 0) h = some
    o ∧ hzn = resolveHzn s (u8 c.param 24) ∧ off + len ≤ o.size ∧ hznBad s (u8 c.param 24) o.rdonly o.port 0 = false ∧
    js = ((List.range (len / 65536)).map (fun j => off / 65536 + j)).filter (fun j => (granOf o j).hzn ≠ hzn) ∧
    moveBarred s o hzn off len = false ∧ s.hz.migs.any (fun m => m.handle == h && m.first < (off + len) / 65536 && off
    / 65536 < m.fin) = false ∧ roomFor s hzn o.idx js 0 = true) :=
  ⟨⟨one ctx1 allocer, 0, 65536, allocer,
    by decide +kernel⟩,
  ⟨withObjs [obj 1 1 16] (one ctx1 (cmd 0x21 [1, 0, 64])), 0, cmd 0x21 [1, 0, 64], obj 1 1 16,
    by decide +kernel⟩,
  ⟨withHz2 (withObjs [obj 1 1 16] (one ctx1 placer)), 0, placer, obj 1 1 16, _, _, [0],
    by decide +kernel,
    rfl,
    rfl,
    by decide +kernel⟩,
  ⟨withHz2 (withObjs [obj 1 1 16] (one ctx1 mover)), 0, mover, obj 1 1 16, _, 0, 65536, 2, [0],
    by decide +kernel,
    rfl,
    by decide +kernel⟩⟩

theorem witness_HorizonEventsAct : (∃ (s : State) (handle j : Nat) (m : Mig) (o : Obj) (x : MigG) (h : W32), h =
    BitVec.ofNat 32 handle ∧ s.hz.migs.find? (fun m => m.handle == h && m.left.any (fun x => x.granule == j && x.begun
    && !x.copied)) = some m ∧ objOf s h = some o ∧ m.left.find? (fun x => x.granule == j && x.begun && !x.copied) =
    some x ∧ copyOpen s h (.move j) false = false) ∧ (∃ (s : State) (handle j : Nat) (p : PromoC) (o : Obj) (h : W32),
    h = BitVec.ofNat 32 handle ∧ s.hz.promos.find? (fun p => p.handle == h && p.granule == j && !p.copied) = some p ∧
    objOf s h = some o ∧ copyOpen s h (.promo j) false = false) ∧ (∃ (s : State) (drive cmd : Nat) (res : NvmeResult)
    (n : NvmeCmd), s.hz.nvme.find? (fun n => n.drive == drive && n.id == cmd && n.queue.isSome) = some n ∧ n.reqs = []
    ∧ n.op ≠ 2 ∧ s.hz.nvme.all (fun x => x.drive != drive || x.queue.isSome) = true) ∧ (∃ (s : State) (drive : Nat)
    (cause : DriveCause) (status : W16), drive ∈ s.hz.drives ∧ drive ∉ s.hz.failedDrives ∧ s.hz.nvme.all (fun n =>
    n.drive != drive) = true) ∧ (∃ (s : State) (ch : Nat), ch ∈ s.hz.channels ∧ ch ∉ s.hz.failedCh) ∧ (∃ (s : State)
    (ch : Chan), windowOpen s.clk.pcc ch = true) ∧ (∃ (s : State) (ch : Chan), windowOpen s.clk.pcc ch = false) :=
  ⟨⟨migState, (hd 1).toNat, 0, mig1, obj 1 2 16, migg, _,
    rfl,
    by decide +kernel⟩,
  ⟨promoState, (hd 1).toNat, 0, promo1, obj 1 2 16, _,
    rfl,
    by decide +kernel⟩,
  ⟨{ up with hz := { Hz.reset with nvme := [nvme1] } }, 3, 7, .ok, nvme1,
    by decide +kernel⟩,
  ⟨{ up with hz := { Hz.reset with drives := [3] } }, 3, .timeout, 0,
    by decide +kernel⟩,
  ⟨withHz2 up, 0,
    by decide +kernel⟩,
  ⟨{ up with clk := { up.clk with pcc := 3199 } }, .hz2 0,
    by decide +kernel⟩,
  ⟨{ up with clk := { up.clk with pcc := 3200 } }, .hz2 0,
    by decide +kernel⟩⟩

theorem witness_PowerRowsAct : (∃ (s : State) (smp : AoSample), s.clk.vstby = true) ∧ (∃ (s : State) (pkgW : Nat)
    (dieW : List Nat) (lid : Int), s.clk.mainEn = true) ∧ (∃ s : State, s.pwr.saturated = true ∧ 1200 < s.pwr.clk) ∧
    (∃ s : State, s.pwr.saturated = true ∧ s.pwr.clk ≤ 1200 ∧ s.pwr.hold = none) ∧ (∃ (s : State) (h : Nat),
    s.pwr.hold = some h ∧ limitPkg s < s.pwr.pkgW) ∧ (∃ (s : State) (c : Nat), c ≤ 47) ∧ (∃ (s : State) (ped1 n gc :
    Nat), earliestWait s (ped1 / 16) (ped1 % 16) = some n ∧ ped1Gc s (ped1 / 16) (ped1 % 16) = some gc ∧ ped1 % 16 ∈
    (ped2Of s (ped1 / 16)).gated ∧ n ≤ gc + 128) ∧ (∃ (s : State) (rq : Requester) (val : W32), pfOrAbove rq = true ∧
    rqOff s rq = false) ∧ (∃ (s : State) (rq : Requester) (val : W32), pfOrAbove rq = true ∧ rqOff s rq = false) ∧ (∃
    (s : State) (c : Nat) (d : DiePwr), nmGet s.pwr.dies c = some d ∧ d.dstate = .idle ∧ s.pwr.ctl.getLsbD 0 = true ∧
    d.idleSince + 10000 ≤ s.clk.wallUs) ∧ (∃ (s : State) (c i : Nat) (d : DiePwr), nmGet s.pwr.dies c = some d ∧
    d.dstate = .parked ∧ i < 25 ∧ (ped2Of s (c * 25 + i)).lease.isSome = true) ∧ (∃ (s : State) (pkgW : Nat) (dieW :
    List Nat) (lid : Int), s.clk.mainEn = true ∧ bits s.pwr.limit.toNat 0 16 < min pkgW 65535) ∧ (∃ s : State,
    s.pwr.move = some true) ∧ (∃ s : State, s.pwr.move = some false ∧ thermalFloor s = 0) :=
  ⟨⟨up, sample,
    by decide +kernel⟩,
  ⟨up, 900, [], 40,
    by decide +kernel⟩,
  ⟨{ up with pwr := { up.pwr with saturated := true, clk := 1201 } },
    by decide +kernel⟩,
  ⟨{ up with pwr := { up.pwr with saturated := true, clk := 1200 } },
    by decide +kernel⟩,
  ⟨{ up with pwr := { up.pwr with hold := some 64, pkgW := limitPkg up + 1 } }, 64,
    by decide +kernel⟩,
  ⟨up, 47,
    by decide +kernel⟩,
  ⟨waiting, 0, 500, 1000,
    by decide +kernel⟩,
  ⟨up, .host 64, 1,
    by decide +kernel⟩,
  ⟨up, .firmware, 1,
    by decide +kernel⟩,
  ⟨{ up with clk := { up.clk with wallUs := 10000 }, pwr := { up.pwr with dies := [(47, { diePwrReset with dstate := .idle })] } }, 47, { diePwrReset with dstate := .idle },
    by decide +kernel⟩,
  ⟨{ at_ [] with pwr := { up.pwr with dies := [(0, { diePwrReset with dstate := .parked })] } }, 0, 0, { diePwrReset with dstate := .parked },
    by decide +kernel⟩,
  ⟨{ up with pwr := { up.pwr with limit := 0 } }, 5, [], 0,
    by decide +kernel⟩,
  ⟨{ up with pwr := { up.pwr with move := some true } },
    by decide +kernel⟩,
  ⟨{ up with pwr := { up.pwr with move := some false, level := 3 } },
    by decide +kernel⟩⟩

theorem witness_StartupRowsAct : (∃ s : State, s.clk.vstby = true ∧ s.clk.mainEn = false) ∧ (∃ s : State, s.clk.mainEn
    = true) ∧ (∃ s : State, s.clk.vstby = true ∧ s.clk.mainEn = true) ∧ (∃ (s : State) (rom : RomInputs),
    s.boot.running = true ∧ s.boot.phase = 1 ∧ rom.recoveryLow = true ∧ (s.fns.filter (fun e => e.2.aenHeld)) = []) ∧
    (∃ (s : State) (nonce : BitVec 128), s.boot.running = true ∧ s.boot.phase = 2 ∧ s.clk.mainEn = true ∧ s.clk.pccRun
    = false) ∧ (∃ s : State, s.boot.running = true ∧ s.boot.phase = 3 ∧ (s.flash.factA.valid = true ∨
    s.flash.factB.valid = true)) ∧ (∃ (s : State) (stack : Nat), trainingNow s = true ∧ stack ≤ 47 ∧ stack ∉
    s.boot.hbmDone) ∧ (∃ s : State, trainingNow s = true ∧ s.boot.ddrDone = false) ∧ (∃ (s : State) (x : TDieTrain),
    trainingNow s = true ∧ s.boot.ddrDone = false ∧ tdieOk x = true) ∧ (∃ s : State, trainingNow s = true ∧
    s.boot.nvmeDone = false ∧ s.boot.ddrDone = true) ∧ (∃ s : State, trainingNow s = true ∧ s.boot.testDone = false) ∧
    (∃ s : State, s.boot.running = true ∧ s.boot.phase = 5 ∧ s.boot.testDone = true) ∧ (∃ s : State, s.boot.recPending
    = true ∧ s.boot.fieldWritable = true) ∧ (∃ s : State, s.fw.trial = true ∧ s.boot.phase ≠ 15 ∧ s.clk.vstby = true ∧
    s.clk.mainEn = true) :=
  ⟨⟨{ up with clk := { up.clk with mainEn := false, pccRun := false } },
    by decide +kernel⟩,
  ⟨up,
    by decide +kernel⟩,
  ⟨up,
    by decide +kernel⟩,
  ⟨{ up with boot := { up.boot with running := true, phase := 1 } }, { recoveryLow := true, seed := none },
    by decide +kernel⟩,
  ⟨{ { up with boot := { up.boot with running := true, phase := 2 } } with clk := { up.clk with pccRun := false } }, 5,
    by decide +kernel⟩,
  ⟨{ up with boot := { up.boot with running := true, phase := 3 } },
    by decide +kernel⟩,
  ⟨{ up with boot := { up.boot with running := true, phase := 4 } }, 47,
    by decide +kernel⟩,
  ⟨{ up with boot := { up.boot with running := true, phase := 4 } },
    by decide +kernel⟩,
  ⟨{ up with boot := { up.boot with running := true, phase := 4 } }, tdie5,
    by decide +kernel⟩,
  ⟨{ up with boot := { up.boot with running := true, phase := 4, ddrDone := true } },
    by decide +kernel⟩,
  ⟨{ up with boot := { up.boot with running := true, phase := 5 } },
    by decide +kernel⟩,
  ⟨{ up with boot := { up.boot with running := true, phase := 5, testDone := true } },
    by decide +kernel⟩,
  ⟨{ up with boot := { up.boot with recPending := true, fieldWritable := true } },
    by decide +kernel⟩,
  ⟨{ { up with boot := { up.boot with running := true, phase := 4 } } with fw := { up.fw with trial := true } },
    by decide +kernel⟩⟩

theorem witness_WindowRowsAct : (∃ (s : State) (cid n ctx : Nat) (c : Cmd) (l : PedSet) (x : Ctx), ready s cid 0x40 =
    some c ∧ c.ctx.getD 0 = ctx ∧ u8 c.param 0 = 0 ∧ u8 c.param 1 ≠ 0 ∧ u8 c.param 1 ≤ 3 ∧ u8 c.param 2 = 0 ∧ u8
    c.param 3 = 0 ∧ allZero (c.param.drop 36) = true ∧ u32 c.param 4 ≠ 0 ∧ boxBad (u32 c.param 28) = false ∧ pedOf s
    ctx (BitVec.ofNat 32 (u32 c.param 8)) = .ok l ∧ pedLeased s ctx l = true ∧ u64 c.param 12 % 32 = 0 ∧ u64 c.param
    20 % 32 = 0 ∧ ctxOf s ctx = some x ∧ u64 c.param 12 + u64 c.param 20 ≤ x.rsize * 16384 ∧ u64 c.param 20 *
    pedSetCount l ≤ 2 ^ 40 ∧ grainWinsFull s l = false ∧ freeWin s.fab.wins 0 4096 = some n) ∧ (∃ (s : State) (cid n
    ctx : Nat) (c : Cmd) (m o : Obj), ready s cid 0x40 = some c ∧ c.ctx.getD 0 = ctx ∧ u8 c.param 0 = 1 ∧ u8 c.param 1
    ≠ 0 ∧ u8 c.param 1 ≤ 3 ∧ u8 c.param 2 = 1 ∧ u8 c.param 3 = 0 ∧ allZero (c.param.drop 36) = true ∧ u32 c.param 4 ≠
    0 ∧ ownObj s ctx (BitVec.ofNat 32 (u32 c.param 32)) = some m ∧ ownObj s ctx (BitVec.ofNat 32 (u32 c.param 8)) =
    some o ∧ (∀ g ∈ o.gran, g.hzn = 1 ∨ g.hzn = 2) ∧ (bitAt (u8 c.param 1) 1 = true → o.rdonly = false) ∧
    s.hz.migs.any (breaksWin (BitVec.ofNat 32 (u32 c.param 8)) (u64 c.param 12) (u64 c.param 20) (bitAt (u8 c.param 1)
    1)) = false ∧ u64 c.param 12 + u64 c.param 20 ≤ o.size ∧ u64 c.param 20 ≤ 2 ^ 40 ∧ freeWin s.fab.wins 0 4096 =
    some n) ∧ (∃ (s u : State) (cid n ctx : Nat) (c : Cmd) (o : Obj), ready s cid 0x40 = some c ∧ c.ctx.getD 0 = ctx ∧
    u8 c.param 0 = 1 ∧ u8 c.param 1 ≠ 0 ∧ u8 c.param 1 ≤ 3 ∧ u8 c.param 2 = 0 ∧ u8 c.param 3 = 0 ∧ allZero
    (c.param.drop 36) = true ∧ u32 c.param 4 ≠ 0 ∧ boxBad (u32 c.param 28) = false ∧ ownObj s ctx (BitVec.ofNat 32
    (u32 c.param 8)) = some o ∧ (∀ g ∈ o.gran, g.hzn = 1 ∨ g.hzn = 2) ∧ (bitAt (u8 c.param 1) 1 = true → o.rdonly =
    false) ∧ u64 c.param 12 + u64 c.param 20 ≤ o.size ∧ u64 c.param 20 ≤ 2 ^ 40 ∧ (freeWin s.fab.wins 0 4096).isSome =
    true ∧ u = endBreaking (BitVec.ofNat 32 (u32 c.param 8)) (u64 c.param 12) (u64 c.param 20) (bitAt (u8 c.param 1)
    1) (startCmd cid s) ∧ freeWin u.fab.wins 0 4096 = some n) ∧ (∃ (s : State) (m : Mig) (o : Obj) (k : Nat), objOf s
    m.handle = some o ∧ m.cid = some k) ∧ (∃ (s : State) (cid n : Nat) (c : Cmd) (w : Win), ready s cid 0x41 = some c
    ∧ u16 c.param 0 = n ∧ nmGet s.fab.wins n = some w ∧ allZero (c.param.drop 2) = true ∧ c.ctx = some w.ctx ∧
    w.closing = none) ∧ (∃ (s : State) (pkg clod : Nat) (x : PrepW) (w : Win) (commit : Bool),
    s.fab.preparedWin.filter (fun x => x.src == pkg && x.clod == clod) = [x] ∧ nmGet s.fab.wins x.win = some w) :=
  ⟨⟨{ at_ [] with cmds := [opener] }, 0, 0, 1, opener, [(0, none)], { ctx1 with st := .running },
    by decide +kernel⟩,
  ⟨withObj openerObj, 0, 0, 1, openerObj, obj 1 1 16, obj 1 1 16,
    by decide +kernel⟩,
  ⟨withObj { openerObj with param := patch (patch openerObj.param 2 [0]) 28 (leBytes 4 0xF0F0F0F0) }, _, 0, 0, 1, { openerObj with param := patch (patch openerObj.param 2 [0]) 28 (leBytes 4 0xF0F0F0F0) }, obj 1 1 16,
    by decide +kernel,
    by decide +kernel,
    rfl,
    by decide +kernel,
    by decide +kernel,
    rfl,
    by decide +kernel,
    by decide +kernel,
    by decide +kernel,
    rfl,
    rfl,
    by decide +kernel,
    by decide +kernel,
    by decide +kernel,
    by decide +kernel,
    rfl,
    rfl,
    by decide +kernel⟩,
  ⟨{ one ctx1 mover with hz := { Hz.reset with objs := [obj 1 2 16], migs := [{ mig1 with cid := some 0 }] } }, { mig1 with cid := some 0 }, obj 1 2 16, 0,
    by decide +kernel⟩,
  ⟨{ windowed with cmds := [cmd 0x41 []] }, 0, 0, cmd 0x41 [], win1,
    by decide +kernel⟩,
  ⟨{ windowed with fab := { windowed.fab with preparedWin := [prepw] } }, 4, 9, prepw, win1, true,
    by decide +kernel⟩⟩

theorem witness_FabricRowsAct : (∃ s : State, s.fab.wreqs = [] ∧ s.fab.buckets = [] ∧ s.fab.insts = [] ∧ s.fab.early =
    []) ∧ (∃ (s : State) (p : Nat) (f : Flit), (fportOf s p).st = .up ∧ (flitGood f = false ∨ (flitFt f = 0 ∧ flitSeq
    f ≠ (fportOf s p).rxSeq))) ∧ (∃ (s : State) (p : Nat) (f : Flit), (fportOf s p).st = .up ∧ flitGood f = true ∧
    flitFt f = 0 ∧ flitSeq f = (fportOf s p).rxSeq ∧ bits (u64 f 0) 36 8 = 0 ∧ flitNak f = false ∧ nextHop s (flitDst
    f) ≠ .inside ∧ (fportOf s p).buf = []) ∧ (∃ (s : State) (p : Nat) (a : BitVec 12), ((fportOf s p).st = .up ∨
    (fportOf s p).st = .ident) ∧ (fportOf s p).naks = 7 ∧ (fportOf s p).nakSeq = a + 1) ∧ (∃ (s : State) (p : Nat) (a
    : BitVec 12), ((fportOf s p).st = .up ∨ (fportOf s p).st = .ident) ∧ ((fportOf s p).naks < 7 ∨ (fportOf s
    p).nakSeq ≠ a + 1)) ∧ (∃ (s : State) (p : Nat), (fportOf s p).st = .up) ∧ (∃ (s : State) (p : Nat), (fportOf s
    p).retraining = true ∧ (fportOf s p).retrainCid = none) ∧ (∃ (s u : State) (p : Nat), (fportOf s p).retraining =
    true ∧ (fportOf s p).retrainCid = none ∧ u = portRec p 0 ((fportOf s p).buf.foldl (fun s f => emit (.flit p f) s)
    (updFport p (fun x =>
    { x with retraining := false, identing := false, st := if (fportOf s p).identing then .ident else .up, txSeq := BitVec.ofNat 12 (fportOf s p).buf.length, rxSeq := 0, credits := creditInit s, rejoin := !(fportOf s p).identing, retrainCid := none })
    s))) ∧ (∃ (s : State) (p : Nat) (ok : Bool), (fportOf s p).st = .training ∧ (fportOf s p).retraining = false ∧
    (fportOf s p).en = true) ∧ (∃ (s : State) (p : Nat) (id : Ident), (fportOf s p).st = .ident ∧ identOk s p id =
    true) ∧ (∃ (s : State) (p : Nat) (id : Ident), (fportOf s p).st = .ident ∧ identOk s p id = false) ∧ (∃ (s :
    State) (p : Nat), (fportOf s p).st = .ident) :=
  ⟨⟨up,
    by decide +kernel⟩,
  ⟨ported port, 0, [],
    by decide +kernel⟩,
  ⟨ported port, 0, dataFlit,
    by decide +kernel⟩,
  ⟨ported { port with naks := 7, nakSeq := 1 }, 0, 0,
    by decide +kernel⟩,
  ⟨ported { port with naks := 6, nakSeq := 1 }, 0, 0,
    by decide +kernel⟩,
  ⟨ported port, 0,
    by decide +kernel⟩,
  ⟨ported { port with retraining := true }, 0,
    by decide +kernel⟩,
  ⟨ported { port with st := .training, retraining := true }, _, 0,
    by decide +kernel,
    by decide +kernel,
    rfl⟩,
  ⟨ported { port with st := .training }, 0, true,
    by decide +kernel⟩,
  ⟨ported { port with st := .ident }, 0, { pkg := 1, dir := 1, ldie := 0 },
    by decide +kernel⟩,
  ⟨ported { port with st := .ident }, 0, { pkg := 1, dir := 1, ldie := 1 },
    by decide +kernel⟩,
  ⟨ported { port with st := .ident }, 0,
    by decide +kernel⟩⟩

theorem witness_CounterRowsAct : (∃ (s : State) (cid ctx : Nat) (k : Cmd) (c : Ctx), ready s cid 0x70 = some k ∧
    cmdCtx s k = .ok ctx ∧ ctxOf s ctx = some c ∧ 1 ≤ u8 k.param 1 ∧ u8 k.param 1 ≤ 5 ∧ u8 k.param 0 + u8 k.param 1 ≤
    16 ∧ u16 k.param 2 = 0 ∧ allZero (k.param.drop (8 + 8 * u8 k.param 1)) = true ∧ (∀ i < u8 k.param 1, selBad (u64
    k.param (8 + 8 * i)) = false) ∧ scopeBad s ctx (BitVec.ofNat 32 (u32 k.param 4)) = none) ∧ (∃ (s : State) (cid ctx
    : Nat) (k : Cmd) (c : Ctx) (h : W32), ready s cid 0x72 = some k ∧ cmdCtx s k = .ok ctx ∧ ctxOf s ctx = some c ∧ h
    = BitVec.ofNat 32 (u32 k.param 0) ∧ u8 k.param 4 ≤ 12 ∧ u8 k.param 5 ≤ 1 ∧ allZero (k.param.drop 8) = true ∧ (h =
    0 ∨ ∃ o, ownObj s ctx h = some o ∧ 2048 * 2 ^ u8 k.param 4 ≤ o.size)) ∧ (∃ (s : State) (cid ctx : Nat) (k : Cmd)
    (o : Obj), ready s cid 0x71 = some k ∧ cmdCtx s k = .ok ctx ∧ u64 k.param 16 % 64 = 0 ∧ u8 k.param 24 ≤ 15 ∧
    allZero (k.param.drop 25) = true ∧ (u64 k.param 0 = 0 ∨ k.fetchPcc.toNat + 4096 ≤ u64 k.param 0 ∧ u64 k.param 0 ≤
    k.fetchPcc.toNat + 2 ^ 32) ∧ scopeBad s ctx (BitVec.ofNat 32 (u32 k.param 12)) = none ∧ ownObj s ctx (BitVec.ofNat
    32 (u32 k.param 8)) = some o ∧ (∀ g ∈ o.gran, g.hzn ≠ 3) ∧ s.snap.isPending = false ∧ snapBefore s cid = false ∧
    u64 k.param 16 + snapSize (u8 k.param 24) false (snapScope s (some ctx) (BitVec.ofNat 32 (u32 k.param 12))) ≤
    o.size) ∧ (∃ (s : State) (cid : Nat) (k : Cmd) (o : Obj) (b : List Byte), s.snap.cid = some cid ∧ cmdOf s cid =
    some k ∧ s.snap.isPending = true ∧ s.snap.latched = none ∧ s.snap.stamp.toNat ≤ s.clk.pcc.toNat ∧ objOf s
    (BitVec.ofNat 32 (u32 k.param 8)) = some o ∧ b = snapBytes s (snapCtx s) (u8 k.param 24) s.snap.stamp (snapScope s
    (snapCtx s) (BitVec.ofNat 32 (u32 k.param 12))) ∧ u64 k.param 16 + b.length ≤ o.size) ∧ (∃ (s : State) (cid : Nat)
    (k : Cmd) (b : List Byte), s.snap.cid = some cid ∧ cmdOf s cid = some k ∧ s.snap.latched = some b ∧ k.done = none
    ∧ k.cid = cid) :=
  ⟨⟨one ctx1 pmc, 0, 1, pmc, ctx1,
    by decide +kernel⟩,
  ⟨withObj sampler, 0, 1, sampler, ctx1, _,
    by decide +kernel,
    by decide +kernel,
    rfl,
    rfl,
    by decide +kernel,
    by decide +kernel,
    rfl,
    Or.inr ⟨obj 1 1 16, by decide +kernel, by decide +kernel⟩⟩,
  ⟨withObj snapper, 0, 1, snapper, obj 1 1 16,
    by decide +kernel⟩,
  ⟨stamped none, 0, snapper, obj 1 1 16, _,
    by decide +kernel,
    by decide +kernel,
    rfl,
    by decide +kernel,
    by decide +kernel,
    rfl,
    rfl,
    by decide +kernel⟩,
  ⟨stamped (some (zeros 64)), 0, snapper, zeros 64,
    by decide +kernel⟩⟩

theorem witness_SelfTestRowsAct : (∃ (s : State) (cid : Nat) (k : Cmd) (l : PedSet) (ps : List Nat), ready s cid 0x60
    = some k ∧ u8 k.param 0 ≤ 2 ∧ allZero (slice k.param 1 3) = true ∧ allZero (k.param.drop 8) = true ∧ domainBad s
    (BitVec.ofNat 32 (u32 k.param 4)) = false ∧ physPed s (BitVec.ofNat 32 (u32 k.param 4)).toNat = .ok l ∧ ps =
    (pedSetPed2s l).filter (ped2InService s) ∧ (∀ p ∈ ps, underTest s p = false)) ∧ (∃ (s : State) (p : Nat), p ∈
    s.test.background ∧ ped2InService s p = true ∧ (ped2Of s p).lease = none ∧ reservedSoon s p = false ∧ (ped2Of s
    p).bgRunning = false ∧ (ped2Of s p).checks = [] ∧ (List.range 6).any (fun u => unitsFree (residents s p) u 1) =
    true ∧ s.err.stopped = none) ∧ (∃ (s : State) (p : Nat) (failed : List Nat), (ped2Of s p).bgRunning = true ∧
    s.err.stopped = none) ∧ (∃ (s : State) (cid n : Nat) (ps : List Nat), s.test.intrusive.find? (fun x => x.1 == cid
    && x.2.2) = some (cid, ps, true) ∧ s.err.stopped = none ∧ n = (ps.filter (ped2InService s)).foldl (fun n p => n +
    popCount (nmGetD s.emap.enabled p 0) + popCount (nmGetD s.emap.spare p 0)) 0) ∧ (∃ (s : State) (p q : Nat) (c :
    SpareCheck), (ped2Of s p).checks = [c] ∧ nextSpare s p c.failed = some q) :=
  ⟨⟨one ctx1 tester, 0, tester, [(0, none)], [0],
    by decide +kernel⟩,
  ⟨{ up with test := { Test.reset with background := [0] } }, 0,
    by decide +kernel⟩,
  ⟨{ up with ped2s := [(0, { ped2Reset with bgRunning := true })] }, 0, [],
    by decide +kernel⟩,
  ⟨{ up with test := { Test.reset with intrusive := [(0, [0], true)] } }, 0, 250, [0],
    by decide +kernel⟩,
  ⟨spared, 0, 250, sc,
    by decide +kernel⟩⟩

theorem witness_FirmwareRowsAct : (∃ (s : State) (cid n slot : Nat) (k : Cmd) (data : List Byte), ready s cid 0x80 =
    some k ∧ u16 k.param 8 = n ∧ n ≠ 0 ∧ u64 k.param 0 % 4096 = 0 ∧ allZero (slice k.param 10 6) = true ∧ activating s
    = false ∧ data = (if k.fn = mgmtFn then k.data else memRead (hostMem s (k.fn / 64)) (u64 k.param 0) 65536) ∧ (k.fn
    = mgmtFn → u64 k.param 0 = 0) ∧ sm3Bytes data = slice k.param 16 32 ∧ s.fw.dir.stage = some slot ∧ n <
    s.fw.dir.nchunk ∧ slice k.param 16 32 = mChunkDigest (manifest s slot) n) ∧ (∃ (s : State) (cid : Nat) (k : Cmd)
    (data : List Byte), ready s cid 0x80 = some k ∧ u16 k.param 8 = 0 ∧ u64 k.param 0 % 4096 = 0 ∧ allZero (slice
    k.param 10 6) = true ∧ activating s = false ∧ data = (if k.fn = mgmtFn then k.data else memRead (hostMem s (k.fn /
    64)) (u64 k.param 0) 65536) ∧ (k.fn = mgmtFn → u64 k.param 0 = 0) ∧ sm3Bytes data = slice k.param 16 32 ∧
    s.fw.dir.stage = none) ∧ (∃ (s : State) (cid : Nat) (k : Cmd), ready s cid 0x81 = some k ∧ allZero k.param = true)
    ∧ (∃ (s : State) (cid : Nat) (k : Cmd), ready s cid 0x83 = some k ∧ allZero k.param = true ∧ (s.fw.st = .verify ∨
    s.fw.st = .load ∨ s.fw.st = .handover)) ∧ (∃ (s : State) (cid : Nat) (k : Cmd), ready s cid 0x83 = some k ∧
    allZero k.param = true ∧ (s.fw.st = .idle ∨ s.fw.st = .staging ∨ s.fw.st = .staged)) ∧ (∃ s : State, s.fw.slotRun
    ≠ 2 ∧ activating s = false ∧ s.fw.st ≠ .revert) ∧ (∃ s : State, s.sec.erasePending = true) :=
  ⟨⟨chunked, 0, 1, 1, chunker 1, memRead [] 0 65536,
    rfl,
    rfl,
    by decide +kernel,
    rfl,
    rfl,
    by decide +kernel,
    rfl,
    (fun h => absurd h (by decide +kernel)),
    (param_digest 1 _).symm,
    rfl,
    by decide +kernel,
    chunk_agrees⟩,
  ⟨fwOn Fw.reset (chunker 0), 0, chunker 0, memRead [] 0 65536,
    rfl,
    rfl,
    rfl,
    rfl,
    by decide +kernel,
    rfl,
    (fun h => absurd h (by decide +kernel)),
    (param_digest 0 _).symm,
    rfl⟩,
  ⟨one ctx1 (cmd 0x81 []), 0, cmd 0x81 [],
    by decide +kernel⟩,
  ⟨fwOn (staged .load) (cmd 0x83 []), 0, cmd 0x83 [],
    by decide +kernel⟩,
  ⟨fwOn (staged .staged) (cmd 0x83 []), 0, cmd 0x83 [],
    by decide +kernel⟩,
  ⟨up,
    by decide +kernel⟩,
  ⟨{ up with sec := { up.sec with erasePending := true } },
    by decide +kernel⟩⟩

theorem witness_SecurityRowsAct : (∃ (s : State) (tok : Token), s.boot.serialShown = true ∧ tok.serial =
    s.boot.fact.serial ∧ tok.nonce = s.sec.nonce) ∧ (∃ (s : State) (tr : Transport), spdmServes s tr = true ∧ s.fw.st
    ≠ .handover ∧ s.fw.st ≠ .switch) ∧ (∃ (s : State) (tr : Transport), spdmServes s tr = true ∧ s.fw.st ≠ .handover ∧
    s.fw.st ≠ .switch ∧ (spdmOf s tr).versioned = true) ∧ (∃ (s : State) (tr : Transport), spdmServes s tr = true ∧
    s.fw.st ≠ .handover ∧ s.fw.st ≠ .switch ∧ (spdmOf s tr).caps = true) ∧ (∃ (s : State) (tr : Transport), spdmServes
    s tr = true ∧ s.fw.st ≠ .handover ∧ s.fw.st ≠ .switch ∧ (spdmOf s tr).negotiated = true) ∧ (∃ (s : State) (tr :
    Transport) (off len : Nat) (b : List Byte), spdmServes s tr = true ∧ s.fw.st ≠ .handover ∧ s.fw.st ≠ .switch ∧
    (spdmOf s tr).negotiated = true ∧ off ≤ s.flash.certChain.length ∧ b = slice s.flash.certChain off (min len
    (portionMax tr))) ∧ (∃ (s : State) (tr : Transport) (nonce : BitVec 256) (d : BitVec 256), spdmServes s tr = true
    ∧ s.fw.st ≠ .handover ∧ s.fw.st ≠ .switch ∧ (spdmOf s tr).negotiated = true ∧ s.sec.seed = some d ∧ s.sec.idok =
    true) ∧ (∃ (s : State) (tr : Transport) (index : Nat) (nonce : BitVec 256), spdmServes s tr = true ∧ s.fw.st ≠
    .handover ∧ s.fw.st ≠ .switch ∧ (spdmOf s tr).negotiated = true ∧ 1 ≤ index ∧ index ≤ 10) ∧ (∃ (s : State) (tr :
    Transport) (code : Byte), spdmServes s tr = true ∧ s.fw.st ≠ .handover ∧ s.fw.st ≠ .switch) :=
  ⟨⟨up, { serial := 0, nonce := 0, signature := [] },
    by decide +kernel⟩,
  ⟨up, .doe 1,
    by decide +kernel⟩,
  ⟨{ up with sec := { up.sec with idok := true, seed := some 5, spdm := [(.doe 1, { versioned := true, caps := true, negotiated := true, transcript := 3 })] } }, .doe 1,
    by decide +kernel⟩,
  ⟨{ up with sec := { up.sec with idok := true, seed := some 5, spdm := [(.doe 1, { versioned := true, caps := true, negotiated := true, transcript := 3 })] } }, .doe 1,
    by decide +kernel⟩,
  ⟨{ up with sec := { up.sec with idok := true, seed := some 5, spdm := [(.doe 1, { versioned := true, caps := true, negotiated := true, transcript := 3 })] } }, .doe 1,
    by decide +kernel⟩,
  ⟨{ up with sec := { up.sec with idok := true, seed := some 5, spdm := [(.doe 1, { versioned := true, caps := true, negotiated := true, transcript := 3 })] } }, .doe 1, 0, 16, [],
    by decide +kernel⟩,
  ⟨{ up with sec := { up.sec with idok := true, seed := some 5, spdm := [(.doe 1, { versioned := true, caps := true, negotiated := true, transcript := 3 })] } }, .doe 1, 1, 5,
    by decide +kernel⟩,
  ⟨{ up with sec := { up.sec with idok := true, seed := some 5, spdm := [(.doe 1, { versioned := true, caps := true, negotiated := true, transcript := 3 })] } }, .doe 1, 10, 1,
    by decide +kernel⟩,
  ⟨up, .smbus, 0x7F,
    by decide +kernel⟩⟩

theorem witness_SecureRowsAct : (∃ (s : State) (cid ctx : Nat) (k : Cmd) (c : Ctx) (p : SecPol), ready s cid 0x50 =
    some k ∧ k.ctx = some ctx ∧ ctxOf s ctx = some c ∧ c.sec.pol = some p ∧ p.en = true ∧ allZero k.param = true) ∧ (∃
    (s : State) (cid ctx n : Nat) (k : Cmd) (c : Ctx) (o : Obj) (ents : List (List Byte)), ready s cid 0x51 = some k ∧
    k.ctx.getD 0 = ctx ∧ ctxOf s ctx = some c ∧ runOut s ctx = false ∧ liveTags s ctx = [] ∧ c.sec.pointCids = [] ∧
    c.sec.nextCids = [] ∧ ownObj s ctx (BitVec.ofNat 32 (u32 k.param 12)) = some o ∧ n = u16 k.param 10 ∧ n ≤ 256 ∧
    u64 k.param 16 + 16 * n ≤ o.size ∧ ents = (List.range n).map (fun i => objRead s o (u64 k.param 16 + 16 * i) 16) ∧
    polBad s ctx k.param (parsePol k.param ents) ents true = false ∧ (∀ r ∈ (parsePol k.param ents).regs, r.2.1 =
    false)) ∧ (∃ (s : State) (ctx : Nat) (c : Ctx) (b : W64) (one : Bool), ctxOf s ctx = some c ∧ c.sec.point = some
    (b, one)) ∧ (∃ (s : State) (ctx dd : Nat) (c : Ctx) (p : SecPol) (b : W64) (one : Bool), ctxOf s ctx = some c ∧
    c.sec.point = some (b, one) ∧ c.sec.pol = some p ∧ dd ∈ buddies s p ∧ lnkRto s ≤ (s.clk.pcc -
    c.sec.pointPcc).toNat) ∧ (∃ (s : State) (cid ctx : Nat) (serves : List (Nat × Bool)) (k : Cmd) (c : Ctx) (p :
    SecPol) (g : SecGen) (step : W64), ready s cid 0x52 = some k ∧ k.ctx.getD 0 = ctx ∧ ctxOf s ctx = some c ∧
    c.sec.pol = some p ∧ p.en = true ∧ allZero (k.param.drop 8) = true ∧ runOut s ctx = false ∧ liveTags s ctx = [] ∧
    step = BitVec.ofNat 64 (u64 k.param 0) ∧ genOf c.sec step = some g ∧ (∃ e ∈ serves, e.1 ∈ buddies s p ∧ e.2 =
    true)) ∧ (∃ (s : State) (cid ctx : Nat) (k : Cmd) (c : Ctx), ready s cid 0x53 = some k ∧ k.ctx.getD 0 = ctx ∧
    ctxOf s ctx = some c ∧ allZero (k.param.drop 8) = true ∧ u64 k.param 0 = c.step.toNat ∧ c.stepFresh = true ∧ (∃ e
    ∈ c.sec.strata, e.complete = true ∧ e.step = c.step) ∧ runOut s ctx = false ∧ c.sec.replayCid = none) ∧ (∃ (s :
    State) (ctx : Nat) (c : Ctx) (b : W64) (one : Bool), ctxOf s ctx = some c ∧ c.sec.point = some (b, one) ∧
    c.sec.acked = false) ∧ (∃ (s : State) (ctx : Nat) (c : Ctx) (b : W64) (one : Bool), ctxOf s ctx = some c ∧
    c.sec.point = some (b, one) ∧ c.sec.acked = true ∧ b.toNat + 2 ≤ c.step.toNat ∧ siltOver c.sec = true ∧
    c.sec.pointCids = [] ∧ (∀ x ∈ s.sieves, sieveCtx x ≠ ctx)) :=
  ⟨⟨one secCtx (cmd 0x50 []), 0, 1, cmd 0x50 [], secCtx, pol1,
    by decide +kernel⟩,
  ⟨grouped (withHz2 (withObjs [obj 1 1 16, obj 2 2 3, { obj 3 1 40 with size := 33554432 }] (one ctx1 policer))), 0, 1, 0, policer, ctx1, obj 1 1 16, [],
    by decide +kernel⟩,
  ⟨one { secCtx with step := 2, sec := { secCtx.sec with point := some (0, true) } } (cmd 1 []), 1, { secCtx with step := 2, sec := { secCtx.sec with point := some (0, true) } }, 0, true,
    by decide +kernel⟩,
  ⟨{ grouped (one { secCtx with step := 2, sec := { secCtx.sec with point := some (0, true) } } (cmd 1 [])) with clk := { up.clk with pcc := 2000000000 } }, 1, 1, { secCtx with step := 2, sec := { secCtx.sec with point := some (0, true) } }, pol1, 0, true,
    by decide +kernel⟩,
  ⟨grouped (one { secCtx with sec := { secCtx.sec with gen0 := { secGenNone with valid := true } } } (cmd 0x52 [])), 0, 1, [(1, true)], cmd 0x52 [], { secCtx with sec := { secCtx.sec with gen0 := { secGenNone with valid := true } } }, pol1, { secGenNone with valid := true }, 0,
    by decide +kernel⟩,
  ⟨one { secCtx with sec := { secCtx.sec with strata := [entry0] } } (cmd 0x53 []), 0, 1, cmd 0x53 [], { secCtx with sec := { secCtx.sec with strata := [entry0] } },
    by decide +kernel⟩,
  ⟨one { secCtx with step := 2, sec := { secCtx.sec with point := some (0, true) } } (cmd 1 []), 1, { secCtx with step := 2, sec := { secCtx.sec with point := some (0, true) } }, 0, true,
    by decide +kernel⟩,
  ⟨one { secCtx with step := 2, sec := { secCtx.sec with point := some (0, true), acked := true } } (cmd 1 []), 1, { secCtx with step := 2, sec := { secCtx.sec with point := some (0, true), acked := true } }, 0, true,
    by decide +kernel⟩⟩

theorem witness_ErrorRowsAct : (∃ (s : State) (slack : List Nat), s.clk.pccRun = true) ∧ (∃ (s : State) (cid : Nat) (k
    : Cmd) (c : Ctx) (p : SecPol), ready s cid 0xB0 = some k ∧ allZero k.param = true ∧ k.pctx ≤ 1023 ∧ k.pctx ≠ 0 ∧
    ctxOf s k.pctx = some c ∧ mayManage c k.fn = true ∧ c.sec.pol = some p) ∧ (∃ (s : State) (cid : Nat) (k : Cmd) (c
    : Ctx), ready s cid 0xB0 = some k ∧ allZero k.param = true ∧ k.pctx ≤ 1023 ∧ k.pctx ≠ 0 ∧ ctxOf s k.pctx = some c
    ∧ mayManage c k.fn = true ∧ c.sec.pol = none) ∧ (∃ (s : State) (fn : Nat) (val : W64), rqOff s (.host fn) = false
    ∧ fn % 64 = 0 ∧ ((ringOf s (fn / 64)).head - BitVec.ofNat 16 (bits val.toNat 32 16)).toNat ≤ 4096) ∧ (∃ (s :
    State) (slot : Nat), s.err.stopped = some slot ∧ s.err.dumped = false) ∧ (∃ (s : State) (h : Nat), h ≤ 1 ∧
    s.clk.mainEn = true) ∧ (∃ (s : State) (die block : Nat), die ≤ 63 ∧ block ≤ 1 ∧ s.clk.mainEn = true) ∧ (∃ (s :
    State) (cid : Nat) (k : Cmd), ready s cid 0xA0 = some k ∧ u64 k.param 0 % 4096 = 0 ∧ 1048576 ≤ u64 k.param 8 ∧ u8
    k.param 16 ≤ 3 ∧ allZero (k.param.drop 17) = true ∧ k.fn / 64 ≤ 1) ∧ (∃ (s : State) (h : Nat), h ≤ 1 ∧
    s.clk.mainEn = true ∧ s.fw.standby = true ∧ h ∉ s.fw.standbyUsed) ∧ (∃ (s : State) (h : Nat), h ≤ 1 ∧ s.clk.mainEn
    = true ∧ s.fw.standby = false ∧ s.fw.st ≠ .switch) :=
  ⟨⟨up, [],
    by decide +kernel⟩,
  ⟨one secCtx { cmd 0xB0 [] with ctx := none, pctx := 1 }, 0, { cmd 0xB0 [] with ctx := none, pctx := 1 }, secCtx, pol1,
    by decide +kernel⟩,
  ⟨one ctx1 ({ cmd 0xB0 [] with ctx := none, pctx := 1 }), 0, { cmd 0xB0 [] with ctx := none, pctx := 1 }, ctx1,
    by decide +kernel⟩,
  ⟨{ up with err := { up.err with ring1 := { ErrRing.reset with head := 5, tail := 65535 } } }, 64, 2 ^ 32 * 5,
    by decide +kernel⟩,
  ⟨{ up with err := { up.err with stopped := some 3 } }, 3,
    by decide +kernel⟩,
  ⟨up, 1,
    by decide +kernel⟩,
  ⟨up, 63, 1,
    by decide +kernel⟩,
  ⟨one ctx1 ({ cmd 0xA0 (zeros 8 ++ leBytes 8 1048576 ++ [3]) with ctx := none, fn := 64 }), 0, { cmd 0xA0 (zeros 8 ++ leBytes 8 1048576 ++ [3]) with ctx := none, fn := 64 },
    by decide +kernel⟩,
  ⟨{ up with fw := { up.fw with standby := true } }, 1,
    by decide +kernel⟩,
  ⟨{ up with fw := { up.fw with standby := false } }, 1,
    by decide +kernel⟩⟩

theorem witness_ReductionRowsAct : (∃ (s : State) (cid ctx tag : Nat) (c : Cmd) (o : Obj) (r : List Byte), ready s cid
    0x54 = some c ∧ c.ctx.getD 0 = ctx ∧ tag = u16 c.param 0 ∧ u16 c.param 2 = 0 ∧ u64 c.param 16 % 64 = 0 ∧ allZero
    (c.param.drop 24) = true ∧ (∀ b, nmGet s.fab.buckets tag = some b → b.ctx = ctx) ∧ ownObj s ctx (BitVec.ofNat 32
    (u32 c.param 12)) = some o ∧ u64 c.param 16 + 192 ≤ o.size ∧ s.fab.digests.reverse.find? (fun e => e.1 == ctx &&
    u16 e.2 0 == tag && u32 e.2 4 == u64 c.param 4 % 2 ^ 32) = some (ctx, r)) ∧ (∃ (s : State) (g t : Nat) (i : Iss),
    issues 0x18 redPostFaults g t s i) ∧ (∃ (s : State) (g t : Nat) (i : Iss), issues 0x19 redWaitFaults g t s i) ∧ (∃
    (s : State) (f : Flit) (tag k : Nat) (b : Bucket) (i : Inst), flitOp f = 8 ∧ tag = u16 f 14 ∧ k = bits (u32 f 18)
    0 24 ∧ nmGet s.fab.buckets tag = some b ∧ instOf s tag = some i ∧ k < nChunks b ∧ redHere s tag (u16 f 16) = true
    ∧ tagBusy s tag = true) ∧ (∃ (s : State) (f : Flit), (flitOp f = 8 ∨ flitOp f = 9) ∧ nmGet s.fab.buckets (u16 f
    14) = none ∧ (∀ i ∈ s.fab.insts, i.tag = u16 f 14 → i.done = true)) ∧ (∃ (s : State) (tag : Nat) (i : Inst) (b :
    Bucket) (t0 : W64), instOf s tag = some i ∧ nmGet s.fab.buckets tag = some b ∧ i.firstPost = some t0 ∧ i.done =
    false ∧ b.timeout ≤ (s.clk.pcc - t0).toNat) ∧ (∃ (s : State) (tag pkg : Nat) (st : W16) (b : Bucket), nmGet
    s.fab.buckets tag = some b ∧ (tagBusy s tag || s.fab.insts.any (fun i => i.tag == tag && i.step == stepOf s
    b.ctx)) = true) ∧ (∃ (s : State) (tag k pkg : Nat) (i : Inst) (b : Bucket), instOf s tag = some i ∧ nmGet
    s.fab.buckets tag = some b ∧ i.done = false ∧ (chunkOf i k).result = none) ∧ (∃ (s : State) (tag k pkg : Nat) (i :
    Inst), instOf s tag = some i ∧ i.done = false ∧ (chunkOf i k).result = none) ∧ (∃ s : State, (∀ e ∈ s.fab.buckets,
    redWaiting s 0x18 e.1 = []) ∧ s.fab.early = [] ∧ (∀ i ∈ s.fab.insts, i.done = true)) :=
  ⟨⟨{ withObj digester with fab := { Fab.reset with digests := [(1, zeros 192)] } }, 0, 1, 0, digester, obj 1 1 16, zeros 192,
    by decide +kernel,
    by decide +kernel,
    rfl,
    by decide +kernel,
    rfl,
    by decide +kernel,
    (fun x h => by cases h),
    by decide +kernel⟩,
  ⟨bucketed [] (at_ (desc 0x18 0 255 255 255 [])), 0, 0, iss (bucketed [] (at_ (desc 0x18 0 255 255 255 []))) (desc 0x18 0 255 255 255 []),
    ⟨_, _, _, _, _, rfl, rfl, rfl, rfl, rfl, by decide +kernel, by decide +kernel, by decide +kernel, by decide +kernel, by decide +kernel, by decide +kernel, by decide +kernel, by decide +kernel⟩⟩,
  ⟨bucketed [] (at_ (desc 0x19 255 255 0 255 (leBytes 2 0 ++ leBytes 4 0 ++ leBytes 4 0xFFFFFFFF))), 0, 0, iss (bucketed [] (at_ (desc 0x19 255 255 0 255 (leBytes 2 0 ++ leBytes 4 0 ++ leBytes 4 0xFFFFFFFF)))) (desc 0x19 255 255 0 255 (leBytes 2 0 ++ leBytes 4 0 ++ leBytes 4 0xFFFFFFFF)),
    ⟨_, _, _, _, _, rfl, rfl, rfl, rfl, rfl, by decide +kernel, by decide +kernel, by decide +kernel, by decide +kernel, by decide +kernel, by decide +kernel, by decide +kernel, by decide +kernel⟩⟩,
  ⟨bucketed [inst1] (one ctx1 (cmd 1 [])), flit 8 [], 0, 0, bucket1, inst1,
    by decide +kernel⟩,
  ⟨up, flit 9 [],
    by decide +kernel⟩,
  ⟨bucketed [inst1] (one ctx1 (cmd 1 [])), 0, inst1, bucket1, 0,
    by decide +kernel⟩,
  ⟨bucketed [inst1] (one ctx1 (cmd 1 [])), 0, 1, 5, bucket1,
    by decide +kernel⟩,
  ⟨bucketed [inst1] (one ctx1 (cmd 1 [])), 0, 0, 1, inst1, bucket1,
    by decide +kernel⟩,
  ⟨bucketed [inst1] (one ctx1 (cmd 1 [])), 0, 0, 1, inst1,
    by decide +kernel⟩,
  ⟨up,
    by decide +kernel⟩⟩

theorem witness_ArrayRowsAct : (∃ (s : State) (g t : Nat) (i : Iss), issues 0x01 passFaults g t s i) ∧ (∃ (s : State)
    (g t : Nat) (i : Iss), issues 0x02 passFaults g t s i) ∧ (∃ (s : State) (g t : Nat) (i : Iss), issues 0x01
    passFaults g t s i ∧ passEmpty i.va i.d = true) ∧ (∃ (s : State) (g t : Nat) (i : Iss), issues 0x03 loadwFaults g
    t s i) ∧ (∃ (s : State) (g t : Nat) (i : Iss), issues 0x04 mvFaults g t s i) ∧ (∃ (s : State) (g t : Nat) (i :
    Iss), issues 0x3C ballastFaults g t s i) ∧ (∃ (s : State) (g b : Nat) (gr : Grain) (r : RunSeg), nmGet s.grains g
    = some gr ∧ (∀ o ∈ gr.out, engineOf (dOp o.desc) ≠ some 1) ∧ gr.bal = none ∧ gr.gated = false ∧ segOf s gr.ctx =
    some r ∧ b = (ballastOf s (dieOfPed2 gr.ped2)).toNat ∧ bitAt b 20 = true) ∧ (∃ (s : State) (g n : Nat) (gr :
    Grain), nmGet s.grains g = some gr ∧ gr.bal = some (.hub n true)) ∧ (∃ (s : State) (g ser v : Nat) (gr : Grain) (o
    : OutD), nmGet s.grains g = some gr ∧ gr.out.find? (fun o => o.ser == ser) = some o ∧ (dOp o.desc = 0x01 ∨ dOp
    o.desc = 0x02) ∧ checkMade o (.vector v) = true) ∧ (∃ (s : State) (g n lv : Nat) (gr : Grain) (x : Bool), nmGet
    s.grains g = some gr ∧ gr.bal = some (.hub lv x) ∧ n < 8) ∧ (∃ (s : State) (g ser row : Nat) (gr : Grain) (o :
    OutD), nmGet s.grains g = some gr ∧ gr.out.find? (fun o => o.ser == ser) = some o ∧ dOp o.desc = 0x04 ∧ checkMade
    o (.vector row) = true) :=
  ⟨⟨at_ (desc 0x01 5 255 255 255 []), 0, 0, iss (at_ (desc 0x01 5 255 255 255 [])) (desc 0x01 5 255 255 255 []),
    ⟨_, _, _, _, _, rfl, rfl, rfl, rfl, rfl, by decide +kernel, by decide +kernel, by decide +kernel, by decide +kernel, by decide +kernel, by decide +kernel, by decide +kernel, by decide +kernel⟩⟩,
  ⟨at_ (desc 0x02 5 255 255 255 [0, 0, 0, 0, 0, 0, 0, 0, 2, 0, 1, 0, 0, 0, 0x11, 0x11]), 0, 0, iss (at_ (desc 0x02 5 255 255 255 [0, 0, 0, 0, 0, 0, 0, 0, 2, 0, 1, 0, 0, 0, 0x11, 0x11])) (desc 0x02 5 255 255 255 [0, 0, 0, 0, 0, 0, 0, 0, 2, 0, 1, 0, 0, 0, 0x11, 0x11]),
    ⟨_, _, _, _, _, rfl, rfl, rfl, rfl, rfl, by decide +kernel, by decide +kernel, by decide +kernel, by decide +kernel, by decide +kernel, by decide +kernel, by decide +kernel, by decide +kernel⟩⟩,
  ⟨at_ (desc 0x01 7 255 255 255 []), 0, 0, iss (at_ (desc 0x01 7 255 255 255 [])) (desc 0x01 7 255 255 255 []),
    ⟨_, _, _, _, _, rfl, rfl, rfl, rfl, rfl, by decide +kernel, by decide +kernel, by decide +kernel, by decide +kernel, by decide +kernel, by decide +kernel, by decide +kernel, by decide +kernel⟩,
    by decide +kernel⟩,
  ⟨at_ (desc 0x03 255 255 255 6 []), 0, 0, iss (at_ (desc 0x03 255 255 255 6 [])) (desc 0x03 255 255 255 6 []),
    ⟨_, _, _, _, _, rfl, rfl, rfl, rfl, rfl, by decide +kernel, by decide +kernel, by decide +kernel, by decide +kernel, by decide +kernel, by decide +kernel, by decide +kernel, by decide +kernel⟩⟩,
  ⟨at_ (desc 0x04 3 255 0 4 []), 0, 0, iss (at_ (desc 0x04 3 255 0 4 [])) (desc 0x04 3 255 0 4 []),
    ⟨_, _, _, _, _, rfl, rfl, rfl, rfl, rfl, by decide +kernel, by decide +kernel, by decide +kernel, by decide +kernel, by decide +kernel, by decide +kernel, by decide +kernel, by decide +kernel⟩⟩,
  ⟨at_ (desc 0x3C 255 255 255 255 (leBytes 4 100)), 0, 0, iss (at_ (desc 0x3C 255 255 255 255 (leBytes 4 100))) (desc 0x3C 255 255 255 255 (leBytes 4 100)),
    ⟨_, _, _, _, _, rfl, rfl, rfl, rfl, rfl, by decide +kernel, by decide +kernel, by decide +kernel, by decide +kernel, by decide +kernel, by decide +kernel, by decide +kernel, by decide +kernel⟩⟩,
  ⟨{ at_ [] with pwr := { up.pwr with ballastDie := [(0, 2 ^ 20)] } }, 0, 1048576, grain [], run1,
    by decide +kernel⟩,
  ⟨onGrain { grain [] with bal := some (.hub 3 true) }, 0, 3, { grain [] with bal := some (.hub 3 true) },
    by decide +kernel⟩,
  ⟨busy { outd 4 (desc 0x02 0 0 0 0 []) .nothing with checked := some [1] }, 0, 4, 1, { grain [] with out := [{ outd 4 (desc 0x02 0 0 0 0 []) .nothing with checked := some [1] }] }, { outd 4 (desc 0x02 0 0 0 0 []) .nothing with checked := some [1] },
    by decide +kernel⟩,
  ⟨onGrain { grain [] with bal := some (.hub 3 true) }, 0, 7, 3, { grain [] with bal := some (.hub 3 true) }, true,
    by decide +kernel⟩,
  ⟨busy { outd 4 (desc 0x04 0 0 0 0 []) .nothing with checked := some [1] }, 0, 4, 1, { grain [] with out := [{ outd 4 (desc 0x04 0 0 0 0 []) .nothing with checked := some [1] }] }, { outd 4 (desc 0x04 0 0 0 0 []) .nothing with checked := some [1] },
    by decide +kernel⟩⟩

theorem witness_VectorRowsAct : (∃ (s : State) (g t : Nat) (i : Iss), issues 0x05 vecFaults g t s i) ∧ (∃ (s : State)
    (g t : Nat) (i : Iss), issues 0x06 derivFaults g t s i) ∧ (∃ (s : State) (g t : Nat) (i : Iss), issues 0x08
    rngFaults g t s i) ∧ (∃ (s : State) (g t : Nat) (i : Iss), issues 0x30 routeFaults g t s i) ∧ (∃ (s : State) (g t
    : Nat) (i : Iss), issues 0x05 vecFaults g t s i ∧ nelem i.vc = 0) ∧ (∃ (s : State) (g t : Nat) (i : Iss) (o :
    OutD), issues 0x05 vecFaults g t s i ∧ nelem i.vc ≠ 0 ∧ vecLines (issueDesc i s) i = [] ∧ outDOf (issueDesc i s)
    i.g i.ser = some o) ∧ (∃ (s u : State) (g t va : Nat) (gr : Grain) (q : Req) (ob : Obj) (f : Nat → Byte × Bool),
    nmGet s.grains g = some gr ∧ s.hz.reqs.find? (fun q => q.g == g && mayServe s q &&
    (match q.kind with | .fill u _ => u == t | _ => false)) = some q ∧ q.kind = .fill t va ∧ objOf s q.handle = some
    ob ∧ (f, u) = sourceRead q ob ((List.range 64).map (fun i => va - ob.base + i)) q.ans (updHz (fun h =>
    { h with reqs := h.reqs.filter (fun x => x.id != q.id) }) s)) ∧ (∃ (s : State) (g ser elem : Nat) (gr : Grain) (o
    : OutD), nmGet s.grains g = some gr ∧ gr.out.find? (fun o => o.ser == ser) = some o ∧ engineOf (dOp o.desc) = some
    3) :=
  ⟨⟨at_ (desc 0x05 0 255 1 255 []), 0, 0, iss (at_ (desc 0x05 0 255 1 255 [])) (desc 0x05 0 255 1 255 []),
    ⟨_, _, _, _, _, rfl, rfl, rfl, rfl, rfl, by decide +kernel, by decide +kernel, by decide +kernel, by decide +kernel, by decide +kernel, by decide +kernel, by decide +kernel, by decide +kernel⟩⟩,
  ⟨at_ (desc 0x06 0 1 1 255 [0x10]), 0, 0, iss (at_ (desc 0x06 0 1 1 255 [0x10])) (desc 0x06 0 1 1 255 [0x10]),
    ⟨_, _, _, _, _, rfl, rfl, rfl, rfl, rfl, by decide +kernel, by decide +kernel, by decide +kernel, by decide +kernel, by decide +kernel, by decide +kernel, by decide +kernel, by decide +kernel⟩⟩,
  ⟨at_ (desc 0x08 255 255 0 255 []), 0, 0, iss (at_ (desc 0x08 255 255 0 255 [])) (desc 0x08 255 255 0 255 []),
    ⟨_, _, _, _, _, rfl, rfl, rfl, rfl, rfl, by decide +kernel, by decide +kernel, by decide +kernel, by decide +kernel, by decide +kernel, by decide +kernel, by decide +kernel, by decide +kernel⟩⟩,
  ⟨at_ (desc 0x30 9 255 10 255 [1, 0, 1, 0]), 0, 0, iss (at_ (desc 0x30 9 255 10 255 [1, 0, 1, 0])) (desc 0x30 9 255 10 255 [1, 0, 1, 0]),
    ⟨_, _, _, _, _, rfl, rfl, rfl, rfl, rfl, by decide +kernel, by decide +kernel, by decide +kernel, by decide +kernel, by decide +kernel, by decide +kernel, by decide +kernel, by decide +kernel⟩⟩,
  ⟨at_ (desc 0x05 8 255 8 255 []), 0, 0, iss (at_ (desc 0x05 8 255 8 255 [])) (desc 0x05 8 255 8 255 []),
    ⟨_, _, _, _, _, rfl, rfl, rfl, rfl, rfl, by decide +kernel, by decide +kernel, by decide +kernel, by decide +kernel, by decide +kernel, by decide +kernel, by decide +kernel, by decide +kernel⟩,
    by decide +kernel⟩,
  ⟨at_ (desc 0x05 0 255 1 255 []), 0, 0, iss (at_ (desc 0x05 0 255 1 255 [])) (desc 0x05 0 255 1 255 []), _,
    ⟨_, _, _, _, _, rfl, rfl, rfl, rfl, rfl, by decide +kernel, by decide +kernel, by decide +kernel, by decide +kernel, by decide +kernel, by decide +kernel, by decide +kernel, by decide +kernel⟩,
    by decide +kernel,
    by decide +kernel,
    (Option.some_get (by decide +kernel)).symm⟩,
  ⟨{ busy (outd 0 (desc 0x05 0 255 1 255 []) (.fill 65536)) with hz := { Hz.reset with objs := [obj 1 1 16], reqs := [req (.fill 0 65536) true] } }, _, 0, 0, 65536, { grain [] with out := [outd 0 (desc 0x05 0 255 1 255 []) (.fill 65536)] }, req (.fill 0 65536) true, obj 1 1 16, _,
    by decide +kernel,
    by decide +kernel,
    rfl,
    by decide +kernel,
    rfl⟩,
  ⟨busy (outd 4 (desc 0x08 0 0 0 0 []) .nothing), 0, 4, 1, { grain [] with out := [outd 4 (desc 0x08 0 0 0 0 []) .nothing] }, outd 4 (desc 0x08 0 0 0 0 []) .nothing,
    by decide +kernel⟩⟩

theorem witness_DmaRowsAct : (∃ (s : State) (g t : Nat) (i : Iss), issues 0x10 dmaFaults g t s i) ∧ (∃ (s : State) (g
    t : Nat) (i : Iss), issues 0x11 dmaFaults g t s i ∧ dmaFlush i.d = false) ∧ (∃ (s : State) (g t : Nat) (i : Iss),
    issues 0x11 dmaFaults g t s i ∧ dmaFlush i.d = true) ∧ (∃ (s : State) (i : Iss), dmaFlush i.d = true) ∧ (∃ (s :
    State) (req : Nat) (ans : HzAnswer) (q : Req), s.hz.reqs.find? (fun q => q.id == req) = some q ∧ mayServe s q =
    true ∧ ((∃ ms, q.kind = .read ms) ∨ (∃ ws, q.kind = .write ws) ∨ (∃ n ms, q.kind = .rung n ms))) ∧ (∃ (s : State)
    (ans : HzAnswer) (q : Req) (ws l : List BitW) (u : State) (o : Obj) (w : BitW), q.kind = .write ws ∧ q.dead =
    false ∧ q.clod = none ∧ u = updHz (fun h => { h with reqs := h.reqs.filter (fun x => x.id != q.id) }) s ∧ objOf s
    q.handle = some o ∧ ws = w :: l ∧ hz4Cause u o (w.1 / 8) ans = none ∧ outDOf u q.g q.ser = none ∧ outDOf (noteObj
    q.ctx q.g 0xFF q.handle ws (objWriteBits q.handle ws u)) q.g q.ser = none) ∧ (∃ (s : State) (req n : Nat) (ans :
    HzAnswer) (q : Req) (f : Flit) (x : WinSide), s.hz.reqs.find? (fun q => q.id == req) = some q ∧ mayServe s q =
    true ∧ q.kind = .window f x n) ∧ (∃ (s : State) (g t : Nat) (i : Iss), issues 0x12 winFaults g t s i) ∧ (∃ (s :
    State) (g t : Nat) (i : Iss), issues 0x13 winFaults g t s i) ∧ (∃ (s : State) (f : Flit) (p : Bool) (q : WReq),
    s.fab.wreqs.find? (fun q => q.rtag == u16 f 25 && q.tagged) = some q ∧ q.dead = false ∧ q.isGet = false ∧ flitOp f
    = 4) ∧ (∃ (s : State) (f : Flit) (q : WReq), s.fab.wreqs.find? (fun q => q.rtag == u16 f 25 && q.tagged) = some q
    ∧ q.dead = false ∧ q.isGet = true ∧ q.clod = none ∧ flitOp f = 3) ∧ (∃ (s : State) (f : Flit) (p : Bool) (q :
    WReq), s.fab.wreqs.find? (fun q => q.rtag == u16 f 25 && q.tagged) = some q ∧ q.dead = false ∧ flitOp f = 5) ∧ (∃
    (s : State) (l : Nat) (q : WReq), s.fab.wreqs.all (fun q => nextHop s q.dst != .drop) = true ∧ s.fab.wreqs.find?
    (fun q => !q.tagged && !q.dead && q.ldie == l && winTagFree s l q.dst) = some q) ∧ (∃ (s : State) (pool : Pool) (q
    : Req), (∀ l, pool ≠ .ldie l) ∧ nextWaiter s pool = some q) :=
  ⟨⟨at_ (desc 0x10 2 255 0 255 []), 0, 0, iss (at_ (desc 0x10 2 255 0 255 [])) (desc 0x10 2 255 0 255 []),
    ⟨_, _, _, _, _, rfl, rfl, rfl, rfl, rfl, by decide +kernel, by decide +kernel, by decide +kernel, by decide +kernel, by decide +kernel, by decide +kernel, by decide +kernel, by decide +kernel⟩⟩,
  ⟨at_ (desc 0x11 0 255 2 255 []), 0, 0, iss (at_ (desc 0x11 0 255 2 255 [])) (desc 0x11 0 255 2 255 []),
    ⟨_, _, _, _, _, rfl, rfl, rfl, rfl, rfl, by decide +kernel, by decide +kernel, by decide +kernel, by decide +kernel, by decide +kernel, by decide +kernel, by decide +kernel, by decide +kernel⟩,
    by decide +kernel⟩,
  ⟨at_ (desc 0x11 255 255 255 255 [1]), 0, 0, iss (at_ (desc 0x11 255 255 255 255 [1])) (desc 0x11 255 255 255 255 [1]),
    ⟨_, _, _, _, _, rfl, rfl, rfl, rfl, rfl, by decide +kernel, by decide +kernel, by decide +kernel, by decide +kernel, by decide +kernel, by decide +kernel, by decide +kernel, by decide +kernel⟩,
    by decide +kernel⟩,
  ⟨at_ (desc 0x11 255 255 255 255 [1]), iss (at_ (desc 0x11 255 255 255 255 [1])) (desc 0x11 255 255 255 255 [1]),
    by decide +kernel⟩,
  ⟨{ up with hz := { Hz.reset with reqs := [req (.read []) true] } }, 0, .ok, req (.read []) true,
    by decide +kernel,
    by decide +kernel,
    Or.inl ⟨[], rfl⟩⟩,
  ⟨withObjs [obj 1 1 16] up, .ok, req (.write [(5, 1, 1, false)]) true, _, [], _, obj 1 1 16, (5, 1, 1, false),
    rfl,
    by decide +kernel,
    by decide +kernel,
    rfl,
    by decide +kernel,
    rfl,
    by decide +kernel⟩,
  ⟨{ up with hz := { Hz.reset with reqs := [req (.window (flit 1 []) side 0) true] } }, 0, 0, .ok, req (.window (flit 1 []) side 0) true, flit 1 [], side,
    by decide +kernel⟩,
  ⟨at_ (desc 0x12 0 255 255 255 []), 0, 0, iss (at_ (desc 0x12 0 255 255 255 [])) (desc 0x12 0 255 255 255 []),
    ⟨_, _, _, _, _, rfl, rfl, rfl, rfl, rfl, by decide +kernel, by decide +kernel, by decide +kernel, by decide +kernel, by decide +kernel, by decide +kernel, by decide +kernel, by decide +kernel⟩⟩,
  ⟨at_ (desc 0x13 255 255 0 255 []), 0, 0, iss (at_ (desc 0x13 255 255 0 255 [])) (desc 0x13 255 255 0 255 []),
    ⟨_, _, _, _, _, rfl, rfl, rfl, rfl, rfl, by decide +kernel, by decide +kernel, by decide +kernel, by decide +kernel, by decide +kernel, by decide +kernel, by decide +kernel, by decide +kernel⟩⟩,
  ⟨asked (wreq false true), answer 4, false, wreq false true,
    by decide +kernel⟩,
  ⟨asked (wreq true true), answer 3, wreq true true,
    by decide +kernel⟩,
  ⟨asked (wreq true true), answer 5, false, wreq true true,
    by decide +kernel⟩,
  ⟨asked { wreq true false with dst := 0 }, 0, { wreq true false with dst := 0 },
    by decide +kernel⟩,
  ⟨{ up with hz := { Hz.reset with reqs := [req (.read []) false] } }, .hz1 0, req (.read []) false,
    (fun l h => by cases h),
    by decide +kernel⟩⟩

theorem witness_SieveRowsAct : (∃ (s : State) (g t : Nat) (i : Iss), issues 0x14 gatherFaults g t s i) ∧ (∃ (s :
    State) (g t : Nat) (i : Iss), issues 0x15 scatterFaults g t s i ∧ isApply i.d = false) ∧ (∃ (s : State) (g t :
    Nat) (i : Iss), issues 0x15 scatterFaults g t s i ∧ isApply i.d = true) ∧ (∃ (s u : State) (g ser slot id src :
    Nat) (l : List Nat) (o : OutD) (ga : Gather) (i : Iss) (t : Sieve) (ob : Obj) (q : Req), outDOf s g ser = some o ∧
    gatherOf s g ser = some ga ∧ issOf s g o = some i ∧ sieveOf s i.ctx (BitVec.ofNat 32 (u32 i.d 10)) = some t ∧
    ga.ids.getD slot none = some id ∧ ownObj s i.ctx (BitVec.ofNat 32 (u32 i.d 10)) = some ob ∧ rowReqs s g ser slot =
    [q] ∧ mayServe s q = true ∧ q.kind = .row src l ∧ nmGet ga.got slot = none ∧ nmGet ga.rung slot = none ∧ u =
    rowTaken g ser slot s) ∧ (∃ (s : State) (table j : Nat) (t : Sieve), sieveAt s table = some t) ∧ (∃ (s : State)
    (cid : Nat) (c : Cmd) (o : Obj) (h r1 r2 : W32), ready s cid 0x24 = some c ∧ h = BitVec.ofNat 32 (u32 c.param 0) ∧
    r1 = BitVec.ofNat 32 (u32 c.param 4) ∧ r2 = BitVec.ofNat 32 (u32 c.param 8) ∧ u8 c.param 12 = 0 ∧ allZero (slice
    c.param 13 3) = true ∧ allZero (c.param.drop 16) = true ∧ ownObj s (c.ctx.getD 0) h = some o ∧ rungBad s
    (c.ctx.getD 0) r1 = false ∧ rungBad s (c.ctx.getD 0) r2 = false ∧ (r1 = 0 ∨ o.size ≤ rungSize s (c.ctx.getD 0) r1)
    ∧ s.sieves.all (fun t => t.handle != h) = true) ∧ (∃ (s u : State) (g ser slot id src : Nat) (l : List Nat) (o :
    OutD) (ga : Gather) (i : Iss) (t : Sieve) (ob : Obj) (q : Req), outDOf s g ser = some o ∧ gatherOf s g ser = some
    ga ∧ issOf s g o = some i ∧ sieveOf s i.ctx (BitVec.ofNat 32 (u32 i.d 10)) = some t ∧ ga.ids.getD slot none = some
    id ∧ ownObj s i.ctx (BitVec.ofNat 32 (u32 i.d 10)) = some ob ∧ rowReqs s g ser slot = [q] ∧ mayServe s q = true ∧
    q.kind = .row src l ∧ nmGet ga.got slot = none ∧ nmGet ga.rung slot = none ∧ u = rowTaken g ser slot s ∧ src = 2)
    ∧ (∃ (s u : State) (g ser slot id src : Nat) (l : List Nat) (o : OutD) (ga : Gather) (i : Iss) (t : Sieve) (ob :
    Obj) (q : Req) (r : _), outDOf s g ser = some o ∧ gatherOf s g ser = some ga ∧ issOf s g o = some i ∧ sieveOf s
    i.ctx (BitVec.ofNat 32 (u32 i.d 10)) = some t ∧ ga.ids.getD slot none = some id ∧ ownObj s i.ctx (BitVec.ofNat 32
    (u32 i.d 10)) = some ob ∧ rowReqs s g ser slot = [q] ∧ mayServe s q = true ∧ q.kind = .row src l ∧ nmGet ga.got
    slot = none ∧ nmGet ga.rung slot = none ∧ u = rowTaken g ser slot s ∧ src = 0 ∧ hotFind t (replicaOf t (dieOfPed2
    i.ped2)) id = some r) ∧ (∃ (s : State) (table j : Nat) (t : Sieve), sieveAt s table = some t ∧ t.merge = none) ∧
    (∃ (s : State) (table j : Nat) (t : Sieve) (m : _), sieveAt s table = some t ∧ t.merge = some m ∧ m.granule = j ∧
    m.phase = 4) :=
  ⟨⟨sieved gatherD, 0, 0, iss (sieved gatherD) (gatherD),
    ⟨_, _, _, _, _, rfl, rfl, rfl, rfl, rfl, by decide +kernel, by decide +kernel, by decide +kernel, by decide +kernel, by decide +kernel, by decide +kernel, by decide +kernel, by decide +kernel⟩⟩,
  ⟨sieved (desc 0x15 11 0 255 255 ([0, 0] ++ leBytes 4 (hd 3).toNat ++ [1, 0])), 0, 0, iss (sieved (desc 0x15 11 0 255 255 ([0, 0] ++ leBytes 4 (hd 3).toNat ++ [1, 0]))) (desc 0x15 11 0 255 255 ([0, 0] ++ leBytes 4 (hd 3).toNat ++ [1, 0])),
    ⟨_, _, _, _, _, rfl, rfl, rfl, rfl, rfl, by decide +kernel, by decide +kernel, by decide +kernel, by decide +kernel, by decide +kernel, by decide +kernel, by decide +kernel, by decide +kernel⟩,
    by decide +kernel⟩,
  ⟨sieved (desc 0x15 255 255 255 255 ([1, 0] ++ leBytes 4 (hd 3).toNat)), 0, 0, iss (sieved (desc 0x15 255 255 255 255 ([1, 0] ++ leBytes 4 (hd 3).toNat))) (desc 0x15 255 255 255 255 ([1, 0] ++ leBytes 4 (hd 3).toNat)),
    ⟨_, _, _, _, _, rfl, rfl, rfl, rfl, rfl, by decide +kernel, by decide +kernel, by decide +kernel, by decide +kernel, by decide +kernel, by decide +kernel, by decide +kernel, by decide +kernel⟩,
    by decide +kernel⟩,
  ⟨{ gathering with hz := { gathering.hz with reqs := [req (.row 2 [0]) true] } }, _, 0, 0, 0, 5, 2, [0], outd 0 gatherD .gather, gather1, _, { sieve1 with hotRows := [hot5] }, obj 3 1 18, req (.row 2 [0]) true,
    by decide +kernel,
    by decide +kernel,
    (Option.some_get (by decide +kernel)).symm,
    by decide +kernel,
    by decide +kernel,
    rfl,
    by decide +kernel,
    rfl,
    by decide +kernel,
    by decide +kernel,
    by decide +kernel,
    rfl⟩,
  ⟨{ one ctx1 (cmd 1 []) with sieves := [sieve1] }, 0, 0, sieve1,
    by decide +kernel⟩,
  ⟨withObjs [obj 1 1 16] (one ctx1 (cmd 0x24 [1, 0, 64])), 0, cmd 0x24 [1, 0, 64], obj 1 1 16, _, _, _,
    by decide +kernel,
    rfl,
    rfl,
    rfl,
    by decide +kernel⟩,
  ⟨{ gathering with hz := { gathering.hz with reqs := [req (.row 2 [0]) true] } }, _, 0, 0, 0, 5, 2, [0], outd 0 gatherD .gather, gather1, _, { sieve1 with hotRows := [hot5] }, obj 3 1 18, req (.row 2 [0]) true,
    by decide +kernel,
    by decide +kernel,
    (Option.some_get (by decide +kernel)).symm,
    by decide +kernel,
    by decide +kernel,
    rfl,
    by decide +kernel,
    rfl,
    by decide +kernel,
    by decide +kernel,
    by decide +kernel,
    rfl,
    by decide +kernel⟩,
  ⟨{ gathering with hz := { gathering.hz with reqs := [req (.row 0 [0]) true] } }, _, 0, 0, 0, 5, 0, [0], outd 0 gatherD .gather, gather1, _, { sieve1 with hotRows := [hot5] }, obj 3 1 18, req (.row 0 [0]) true, hot5,
    by decide +kernel,
    by decide +kernel,
    (Option.some_get (by decide +kernel)).symm,
    by decide +kernel,
    by decide +kernel,
    rfl,
    by decide +kernel,
    rfl,
    by decide +kernel,
    by decide +kernel,
    by decide +kernel,
    rfl,
    by decide +kernel⟩,
  ⟨{ one ctx1 (cmd 1 []) with sieves := [sieve1] }, 0, 0, sieve1,
    by decide +kernel⟩,
  ⟨{ one ctx1 (cmd 1 []) with sieves := [{ sieve1 with merge := some { granule := 0, phase := 4, frame := 0, seq := 1, flush := 0 } }] }, 0, 0, { sieve1 with merge := some { granule := 0, phase := 4, frame := 0, seq := 1, flush := 0 } }, { granule := 0, phase := 4, frame := 0, seq := 1, flush := 0 },
    by decide +kernel⟩⟩

theorem witness_SegmentRowsAct : (∃ (s : State) (ctx n : Nat) (c : Ctx) (r : SegRun) (pl : Plan) (d : SegD), ctxOf s
    ctx = some c ∧ nextSeg s c = some (r, pl, n, d) ∧ c.st = .running ∧ segOf s ctx = none ∧ s.err.stopped = none ∧
    pointHolds c = false) ∧ (∃ (s u : State) (ctx n : Nat) (c : Ctx) (r : SegRun) (pl : Plan) (d : SegD), u = openStep
    ctx (n = 0) pl (if r.ended = 0 then r.seed else none) (takeBallast (footprint d) (takeBoundary ctx s)) ∧ ctxOf u
    ctx = some c) ∧ (∃ (s : State) (ctx : Nat) (r : RunSeg), segOf s ctx = some r ∧ s.err.stopped = none ∧ segOver s r
    = true) ∧ (∃ (s : State) (ctx : Nat) (r : RunSeg), segOf s ctx = some r ∧ r.stop = none ∧ 2 * r.d.length ≤ segGc s
    r ∧ segOver s r = false) ∧ (∃ (s : State) (ctx p : Nat) (x : LsPart) (a : SaveArea), ctx ∈ (ped2Of s p).saving ∧
    lsPartOf s p ctx = some x ∧ areaOf s ctx p = some a ∧ s.err.stopped = none ∧ (∀ e ∈ s.phys, e.1 / 256 = p →
    lanesWait s e.1 (fun x => x.ctx == ctx) = false)) ∧ (∃ (s : State) (ctx p : Nat) (x : LsPart) (a : SaveArea),
    (ped2Of s p).restoring = true ∧ leasedTo s ctx p = true ∧ lsPartOf s p ctx = some x ∧ areaOf s ctx p = some a) ∧
    (∃ (s : State) (ctx : Nat) (c : Ctx), ctxOf s ctx = some c ∧ c.draining = true) ∧ (∃ (s : State) (ctx n : Nat) (c
    : Ctx) (r : SegRun) (pl : Plan) (d : SegD), ctxOf s ctx = some c ∧ nextSeg s c = some (r, pl, n, d) ∧ c.st =
    .running ∧ segOf s ctx = none ∧ s.err.stopped = none ∧ pointHolds c = false ∧ segDegraded s ctx d = true) ∧ (∃ (s
    : State) (ctx n : Nat) (c : Ctx) (r : SegRun) (pl : Plan) (d : SegD), ctxOf s ctx = some c ∧ nextSeg s c = some
    (r, pl, n, d) ∧ c.st = .running ∧ segOf s ctx = none ∧ s.err.stopped = none ∧ pointHolds c = false ∧ segDegraded s
    ctx d = false ∧ (∀ p ∈ footprint d, ped2Ready s ctx p = true ∧ heldBack s p = false)) :=
  ⟨⟨{ at_ [] with segs := [], ctxs := [(1, runCtx)] }, 1, 0, runCtx, segrun, plan0, segd,
    by decide +kernel⟩,
  ⟨{ at_ [] with segs := [], ctxs := [(1, runCtx)] }, _, 1, 0, _, segrun, plan0, segd,
    rfl,
    (Option.some_get (by decide +kernel)).symm⟩,
  ⟨{ at_ [] with segs := [{ run1 with stop := some .watchdog }] }, 1, { run1 with stop := some .watchdog },
    by decide +kernel⟩,
  ⟨{ at_ [] with segs := [{ run1 with d := { segd with length := 500 } }] }, 1, { run1 with d := { segd with length := 500 } },
    by decide +kernel⟩,
  ⟨{ up with saves := [area1], ped2s := [(0, { ped2Reset with saving := [1], slots := [(0, part1)] })] }, 1, 0, part1, area1,
    by decide +kernel⟩,
  ⟨{ up with saves := [area1], ped2s := [(0, { ped2Reset with restoring := true, slots := [(0, part1)], lease := some { ctx := 1, startUs := 0 } })] }, 1, 0, part1, area1,
    by decide +kernel⟩,
  ⟨one { ctx1 with draining := true } (cmd 1 []), 1, { ctx1 with draining := true },
    by decide +kernel⟩,
  ⟨{ at_ [] with segs := [], ctxs := [(1, runCtx)], emap := { up.emap with enabled := [] } }, 1, 0, runCtx, segrun, plan0, segd,
    by decide +kernel⟩,
  ⟨{ at_ [] with segs := [], ctxs := [(1, runCtx)] }, 1, 0, runCtx, segrun, plan0, segd,
    by decide +kernel⟩⟩

theorem witness_SyncRowsAct : (∃ (s : State) (g t : Nat) (i : Iss), issues 0x20 barrierFaults g t s i) ∧ (∃ (s :
    State) (g t : Nat) (i : Iss), issues 0x24 deadlineFaults g t s i) ∧ (∃ (s : State) (g t ser : Nat), dueGuards s g
    t 1 = [ser]) ∧ (∃ (s : State) (g t ser : Nat), dueGuards s g t 2 = [ser]) ∧ (∃ (s : State) (g t ser : Nat),
    dueGuards s g t 3 = [ser]) ∧ (∃ (s : State) (g t : Nat) (i : Iss), issues 0x28 clodBeginFaults g t s i) ∧ (∃ (s :
    State) (g t k : Nat) (i : Iss), issues 0x29 clodCommitFaults g t s i ∧ clodKeyOf (issueDesc i s) i.g i.t = some k)
    ∧ (∃ (s : State) (g t k : Nat) (i : Iss), issues 0x2A clodAbortFaults g t s i ∧ clodKeyOf (issueDesc i s) i.g i.t
    = some k) ∧ (∃ (s : State) (ctx key : Nat) (c : Clod), s.clods.find? (fun c => c.key == key && c.ctx == ctx) =
    some c ∧ clodReady s c = true ∧ c.failed = none ∧ c.explicitAbort = false) ∧ (∃ (s : State) (g t : Nat) (i : Iss),
    issues 0x2C specBeginFaults g t s i ∧ i.r.specActive = true) ∧ (∃ (s : State) (g t : Nat) (i : Iss), issues 0x2D
    specResolveFaults g t s i) ∧ (∃ (s : State) (g t : Nat) (i : Iss), issues 0x34 secureMarkFaults g t s i) ∧ (∃ (s :
    State) (g t : Nat) (i : Iss), issues 0x38 pmcMarkFaults g t s i) ∧ (∃ (s : State) (g : Nat), assigned s g = true ∧
    s.sec.dbg = false ∧ scrubSlot s (physId s g / 256) 0 = true) ∧ (∃ (s : State) (g : Nat), assigned s g = true ∧
    s.sec.dbg = false ∧ scrubSlot s (physId s g / 256) 0 = true) :=
  ⟨⟨at_ (desc 0x20 255 255 255 255 []), 0, 0, iss (at_ (desc 0x20 255 255 255 255 [])) (desc 0x20 255 255 255 255 []),
    ⟨_, _, _, _, _, rfl, rfl, rfl, rfl, rfl, by decide +kernel, by decide +kernel, by decide +kernel, by decide +kernel, by decide +kernel, by decide +kernel, by decide +kernel, by decide +kernel⟩⟩,
  ⟨at_ (desc 0x24 255 255 255 255 [1]), 0, 0, iss (at_ (desc 0x24 255 255 255 255 [1])) (desc 0x24 255 255 255 255 [1]),
    ⟨_, _, _, _, _, rfl, rfl, rfl, rfl, rfl, by decide +kernel, by decide +kernel, by decide +kernel, by decide +kernel, by decide +kernel, by decide +kernel, by decide +kernel, by decide +kernel⟩⟩,
  ⟨onGrain (withThr { thr [] with guards := [guard 0] }), 0, 0, 3,
    by decide +kernel⟩,
  ⟨onGrain (withThr { thr [] with guards := [guard 1] }), 0, 0, 3,
    by decide +kernel⟩,
  ⟨onGrain (withThr { thr [] with guards := [guard 2] }), 0, 0, 3,
    by decide +kernel⟩,
  ⟨at_ (desc 0x28 255 255 255 255 (leBytes 4 0xFFFFFFFF ++ [1])), 0, 0, iss (at_ (desc 0x28 255 255 255 255 (leBytes 4 0xFFFFFFFF ++ [1]))) (desc 0x28 255 255 255 255 (leBytes 4 0xFFFFFFFF ++ [1])),
    ⟨_, _, _, _, _, rfl, rfl, rfl, rfl, rfl, by decide +kernel, by decide +kernel, by decide +kernel, by decide +kernel, by decide +kernel, by decide +kernel, by decide +kernel, by decide +kernel⟩⟩,
  ⟨inClod (desc 0x29 255 255 255 255 ([0, 0, 0, 0, 1, 0] ++ leBytes 4 0xFFFFFFFF)), 0, 0, 0, iss (inClod (desc 0x29 255 255 255 255 ([0, 0, 0, 0, 1, 0] ++ leBytes 4 0xFFFFFFFF))) (desc 0x29 255 255 255 255 ([0, 0, 0, 0, 1, 0] ++ leBytes 4 0xFFFFFFFF)),
    ⟨_, _, _, _, _, rfl, rfl, rfl, rfl, rfl, by decide +kernel, by decide +kernel, by decide +kernel, by decide +kernel, by decide +kernel, by decide +kernel, by decide +kernel, by decide +kernel⟩,
    by decide +kernel⟩,
  ⟨inClod (desc 0x2A 255 255 255 255 [0, 0, 0, 0, 1]), 0, 0, 0, iss (inClod (desc 0x2A 255 255 255 255 [0, 0, 0, 0, 1])) (desc 0x2A 255 255 255 255 [0, 0, 0, 0, 1]),
    ⟨_, _, _, _, _, rfl, rfl, rfl, rfl, rfl, by decide +kernel, by decide +kernel, by decide +kernel, by decide +kernel, by decide +kernel, by decide +kernel, by decide +kernel, by decide +kernel⟩,
    by decide +kernel⟩,
  ⟨inClod [], 1, 0, clod1,
    by decide +kernel⟩,
  ⟨at_ (desc 0x2C 255 255 255 255 ([1, 0, 0, 0, 0, 0] ++ leBytes 4 32)), 0, 0, iss (at_ (desc 0x2C 255 255 255 255 ([1, 0, 0, 0, 0, 0] ++ leBytes 4 32))) (desc 0x2C 255 255 255 255 ([1, 0, 0, 0, 0, 0] ++ leBytes 4 32)),
    ⟨_, _, _, _, _, rfl, rfl, rfl, rfl, rfl, by decide +kernel, by decide +kernel, by decide +kernel, by decide +kernel, by decide +kernel, by decide +kernel, by decide +kernel, by decide +kernel⟩,
    by decide +kernel⟩,
  ⟨inTask (desc 0x2D 255 255 255 255 ([0, 0, 0, 0, 0, 0, 4, 0])), 0, 0, iss (inTask (desc 0x2D 255 255 255 255 ([0, 0, 0, 0, 0, 0, 4, 0]))) (desc 0x2D 255 255 255 255 ([0, 0, 0, 0, 0, 0, 4, 0])),
    ⟨_, _, _, _, _, rfl, rfl, rfl, rfl, rfl, by decide +kernel, by decide +kernel, by decide +kernel, by decide +kernel, by decide +kernel, by decide +kernel, by decide +kernel, by decide +kernel⟩⟩,
  ⟨at_ (desc 0x34 255 255 255 255 [4]), 0, 0, iss (at_ (desc 0x34 255 255 255 255 [4])) (desc 0x34 255 255 255 255 [4]),
    ⟨_, _, _, _, _, rfl, rfl, rfl, rfl, rfl, by decide +kernel, by decide +kernel, by decide +kernel, by decide +kernel, by decide +kernel, by decide +kernel, by decide +kernel, by decide +kernel⟩⟩,
  ⟨at_ (desc 0x38 255 255 255 255 []), 0, 0, iss (at_ (desc 0x38 255 255 255 255 [])) (desc 0x38 255 255 255 255 []),
    ⟨_, _, _, _, _, rfl, rfl, rfl, rfl, rfl, by decide +kernel, by decide +kernel, by decide +kernel, by decide +kernel, by decide +kernel, by decide +kernel, by decide +kernel, by decide +kernel⟩⟩,
  ⟨{ up with ped2s := [(0, { ped2Reset with wheels := [0x6000000, 0, 0, 0] })] }, 0,
    by decide +kernel⟩,
  ⟨{ up with ped2s := [(0, { ped2Reset with wheels := [0x6000000, 0, 0, 0] })] }, 0,
    by decide +kernel⟩⟩

theorem witness_RegisterRowsAct : (∃ (s : State) (rq : Requester) (g : GReg) (va : W32), rqOff s rq = false ∧ gMay rq
    g = true ∧ pendOf s rq g = none) ∧ (∃ (s u : State) (rq : Requester) (p : Nat), rqOff s rq = false ∧ p < 2 ∧ rq =
    .host (64 * p) ∧ pendOf s rq .pkgrst = some 1 ∧ u = closePend rq .pkgrst (dropHeld rq s) ∧ (portOf s (1 -
    p)).pkgReq = false ∧ noLink1s s (1 - p) = false) ∧ (∃ (s u : State) (rq : Requester) (p : Nat), rqOff s rq = false
    ∧ p < 2 ∧ rq = .host (64 * p) ∧ pendOf s rq .pkgrst = some 1 ∧ u = closePend rq .pkgrst (dropHeld rq s) ∧ (portOf
    s (1 - p)).pkgReq = true) ∧ (∃ (s u : State) (rq : Requester) (va : W32), rqOff s rq = false ∧ gMay rq .pwrLimit =
    true ∧ pendOf s rq .pwrLimit = some va ∧ u = closePend rq .pwrLimit (dropHeld rq s)) ∧ (∃ (s u : State) (rq :
    Requester) (va : W32), rqOff s rq = false ∧ gMay rq .pwrClkctl = true ∧ pendOf s rq .pwrClkctl = some va ∧ u =
    closePend rq .pwrClkctl (dropHeld rq s)) ∧ (∃ (s u : State) (va : W32), pendOf s .mgmt .secAlarm = some va ∧ u =
    closePend .mgmt .secAlarm (dropHeld .mgmt s) ∧ va.getLsbD 31 = false) ∧ (∃ (s u : State) (va : W32), pendOf s
    .mgmt .secAlarm = some va ∧ u = closePend .mgmt .secAlarm (dropHeld .mgmt s) ∧ va.getLsbD 31 = true ∧
    s.sec.srcActive = 0) ∧ (∃ (s u : State) (rq : Requester), rqOff s rq = false ∧ gMay rq .secErase = true ∧ pendOf s
    rq .secErase = some 1 ∧ u = closePend rq .secErase (dropHeld rq s)) ∧ (∃ (s u : State), pendOf s .mgmt .secErase =
    some 2 ∧ u = closePend .mgmt .secErase (dropHeld .mgmt s)) ∧ (∃ (s u : State) (rq : Requester) (va : W32), rqOff s
    rq = false ∧ gMay rq .secSlot = true ∧ pendOf s rq .secSlot = some va ∧ u = closePend rq .secSlot (dropHeld rq s)
    ∧ s.fw.st ≠ .staging) ∧ (∃ (s u : State) (rq : Requester) (va : W32), rqOff s rq = false ∧ gMay rq .secTest = true
    ∧ pendOf s rq .secTest = some va ∧ u = closePend rq .secTest (dropHeld rq s)) ∧ (∃ (s u : State) (rq : Requester)
    (va : W32), rqOff s rq = false ∧ gMay rq .secScrub = true ∧ pendOf s rq .secScrub = some va ∧ u = closePend rq
    .secScrub (dropHeld rq s)) :=
  ⟨⟨up, .host 0, .pwrLimit, 7,
    by decide +kernel⟩,
  ⟨pended (.host 64) .pkgrst 1, _, .host 64, 1,
    by decide +kernel,
    by decide +kernel,
    rfl,
    by decide +kernel,
    rfl,
    by decide +kernel⟩,
  ⟨{ pended (.host 64) .pkgrst 1 with port0 := { up.port0 with pkgReq := true } }, _, .host 64, 1,
    by decide +kernel,
    by decide +kernel,
    rfl,
    by decide +kernel,
    rfl,
    by decide +kernel⟩,
  ⟨pended (.host 64) .pwrLimit 1, _, .host 64, 1,
    by decide +kernel,
    by decide +kernel,
    rfl,
    rfl⟩,
  ⟨pended (.host 64) .pwrClkctl 1, _, .host 64, 1,
    by decide +kernel,
    by decide +kernel,
    rfl,
    rfl⟩,
  ⟨pended .mgmt .secAlarm 7, _, 7,
    by decide +kernel,
    rfl,
    by decide +kernel⟩,
  ⟨pended .mgmt .secAlarm 0x80000000, _, 0x80000000,
    by decide +kernel,
    rfl,
    by decide +kernel⟩,
  ⟨pended .mgmt .secErase 1, _, .mgmt,
    by decide +kernel,
    by decide +kernel,
    rfl,
    rfl⟩,
  ⟨pended .mgmt .secErase 2, _,
    by decide +kernel,
    rfl⟩,
  ⟨pended .mgmt .secSlot 1, _, .mgmt, 1,
    by decide +kernel,
    by decide +kernel,
    rfl,
    rfl,
    by decide +kernel⟩,
  ⟨pended .mgmt .secTest 1, _, .mgmt, 1,
    by decide +kernel,
    by decide +kernel,
    rfl,
    rfl⟩,
  ⟨pended .mgmt .secScrub 1, _, .mgmt, 1,
    by decide +kernel,
    by decide +kernel,
    rfl,
    rfl⟩⟩

theorem witness_StepRunsFrontCommand : (∃ (s : State) (c : Instr) (rest : List Instr), s.pending = c :: rest) ∧ (∃ s :
    State, s.pending = []) :=
  ⟨⟨{ up with pending := [.powerOn, .coldStart] }, .powerOn, [.coldStart],
    by decide +kernel⟩,
  ⟨up,
    by decide +kernel⟩⟩

theorem witness_QueueIsServedInOrder : ∃ s t : State, step s = .next t :=
  ⟨{ up with pending := [.powerOn, .coldStart] }, _,
    rfl⟩

theorem witness_ClocksKeepTheirShape : ∃ s t : State, clocksOk s ∧ step s = .next t :=
  ⟨{ up with pending := [.powerOn, .coldStart] }, _,
    ⟨fun _ => rfl, fun _ => rfl, fun h => absurd h (by decide +kernel)⟩,
    rfl⟩

theorem witness_PccNeverRunsBackwards : ∃ s t : State, step s = .next t ∧ s.clk.pccRun = true :=
  ⟨{ up with pending := [.powerOn, .coldStart] }, _,
    rfl,
    by decide +kernel⟩

theorem witness_FactoryPartNeverChanges : ∃ s t : State, step s = .next t :=
  ⟨{ up with pending := [.powerOn, .coldStart] }, _,
    rfl⟩

theorem witness_OneGcPasses : (∃ s u : State, s.clk.pccRun = true ∧ u = laneStep (eccStep s)) ∧ (∃ s : State, (∀ e ∈
    s.phys, e.2.pend = [])) ∧ (∃ s : State, s.clk.pccRun = false) :=
  ⟨⟨up, _,
    by decide +kernel,
    rfl⟩,
  ⟨up,
    by decide +kernel⟩,
  ⟨{ up with clk := { up.clk with pccRun := false } },
    by decide +kernel⟩⟩

theorem witness_SemaphoreSignals : (∃ (s : State) (ctx i n g : Nat) (ped : W32) (c : Ctx), ctxOf s ctx = some c ∧
    c.waiters = []) ∧ (∃ (s : State) (ctx i n g : Nat) (ped : W32) (c : Ctx) (w : SemWaiter), ctxOf s ctx = some c ∧
    c.waiters = [w] ∧ w.ped = ped ∧ w.idx = i ∧ w.n ≤ min (semVal c ped i + n) 65535) ∧ (∃ (s : State) (ctx i n g :
    Nat) (ped : W32) (c : Ctx) (w : SemWaiter), ctxOf s ctx = some c ∧ c.waiters = [w] ∧ w.ped = ped ∧ w.idx = i ∧ min
    (semVal c ped i + n) 65535 < w.n) ∧ (∃ (s : State) (ctx i n g : Nat) (ped : W32) (c : Ctx) (v w : SemWaiter),
    ctxOf s ctx = some c ∧ c.waiters = [v, w] ∧ v.ped = ped ∧ v.idx = i ∧ w.ped = ped ∧ w.idx = i ∧ v.ser ≠ w.ser ∧
    v.n ≤ min (semVal c ped i + n) 65535 ∧ min (semVal c ped i + n) 65535 < v.n + w.n) ∧ (∃ (s : State) (g t : Nat) (i
    : Iss), issues 0x21 semFaults g t s i) ∧ (∃ (s : State) (g t : Nat) (i : Iss), issues 0x22 semFaults g t s i ∧
    clodKeyOf (issueDesc i s) i.g i.t = none) ∧ (∃ (s : State) (g t k : Nat) (i : Iss), issues 0x22 semFaults g t s i
    ∧ clodKeyOf (issueDesc i s) i.g i.t = some k) :=
  ⟨⟨one ctx1 (cmd 1 []), 1, 3, 2, 0, ped0, ctx1,
    by decide +kernel⟩,
  ⟨one { ctx1 with waiters := [{ ped := ped0, idx := 3, n := 2, g := 0, t := 0, ser := 1 }] } (cmd 1 []), 1, 3, 2, 0, ped0, { ctx1 with waiters := [{ ped := ped0, idx := 3, n := 2, g := 0, t := 0, ser := 1 }] }, { ped := ped0, idx := 3, n := 2, g := 0, t := 0, ser := 1 },
    by decide +kernel⟩,
  ⟨one { ctx1 with waiters := [{ ped := ped0, idx := 3, n := 3, g := 0, t := 0, ser := 1 }] } (cmd 1 []), 1, 3, 2, 0, ped0, { ctx1 with waiters := [{ ped := ped0, idx := 3, n := 3, g := 0, t := 0, ser := 1 }] }, { ped := ped0, idx := 3, n := 3, g := 0, t := 0, ser := 1 },
    by decide +kernel⟩,
  ⟨one { ctx1 with waiters := [{ ped := ped0, idx := 3, n := 2, g := 0, t := 0, ser := 1 }, { ped := ped0, idx := 3, n := 1, g := 0, t := 0, ser := 2 }] } (cmd 1 []), 1, 3, 2, 0, ped0, { ctx1 with waiters := [{ ped := ped0, idx := 3, n := 2, g := 0, t := 0, ser := 1 }, { ped := ped0, idx := 3, n := 1, g := 0, t := 0, ser := 2 }] }, { ped := ped0, idx := 3, n := 2, g := 0, t := 0, ser := 1 }, { ped := ped0, idx := 3, n := 1, g := 0, t := 0, ser := 2 },
    by decide +kernel⟩,
  ⟨at_ (desc 0x21 255 255 255 255 semP), 0, 0, iss (at_ (desc 0x21 255 255 255 255 semP)) (desc 0x21 255 255 255 255 semP),
    ⟨_, _, _, _, _, rfl, rfl, rfl, rfl, rfl, by decide +kernel, by decide +kernel, by decide +kernel, by decide +kernel, by decide +kernel, by decide +kernel, by decide +kernel, by decide +kernel⟩⟩,
  ⟨at_ (desc 0x22 255 255 255 255 semP), 0, 0, iss (at_ (desc 0x22 255 255 255 255 semP)) (desc 0x22 255 255 255 255 semP),
    ⟨_, _, _, _, _, rfl, rfl, rfl, rfl, rfl, by decide +kernel, by decide +kernel, by decide +kernel, by decide +kernel, by decide +kernel, by decide +kernel, by decide +kernel, by decide +kernel⟩,
    by decide +kernel⟩,
  ⟨inClod (desc 0x22 255 255 255 255 semP), 0, 0, 0, iss (inClod (desc 0x22 255 255 255 255 semP)) (desc 0x22 255 255 255 255 semP),
    ⟨_, _, _, _, _, rfl, rfl, rfl, rfl, rfl, by decide +kernel, by decide +kernel, by decide +kernel, by decide +kernel, by decide +kernel, by decide +kernel, by decide +kernel, by decide +kernel⟩,
    by decide +kernel⟩⟩

theorem witness_WaitersStayInOrder : ∃ (w : SemWaiter) (l : List SemWaiter), l.Pairwise (fun a b => waiterBefore b a =
    false) :=
  ⟨{ ped := ped0, idx := 3, n := 1, g := 0, t := 0, ser := 1 }, [{ ped := ped0, idx := 3, n := 1, g := 0, t := 0, ser := 2 }, { ped := ped0, idx := 3, n := 1, g := 1, t := 0, ser := 3 }],
    by decide +kernel⟩

theorem witness_AccessSizes : (∃ (s : State) (rq : Requester) (off size : Nat), rqOff s rq = false ∧ (¬ ((size = 4 ∨
    size = 8) ∧ off % size = 0))) ∧ (∃ (s : State) (rq : Requester) (off size : Nat) (val : W64), rqOff s rq = false ∧
    (¬ ((size = 4 ∨ size = 8) ∧ off % size = 0)) ∧ (∀ a, mapAddr s rq off = some a → gAddr (a / 4 * 4) = none)) ∧ (∃
    (s : State) (rq : Requester) (off size : Nat), rqOff s rq = false ∧ (size = 4 ∨ size = 8) ∧ off % size = 0) ∧ (∃
    (s : State) (rq : Requester) (a : Nat) (val : W64), rqOff s rq = false ∧ a % 8 = 0 ∧ mapAddr s rq a = some a ∧
    gAddr a = none ∧ (regAt s rq a).1 = a ∧ (regAt s rq a).2.length = 8) ∧ (∃ (s : State) (rq : Requester) (a : Nat)
    (val : W64), rqOff s rq = false ∧ a % 4 = 0 ∧ mapAddr s rq a = some a ∧ gAddr a = none ∧ isAdb a = true) ∧ (∃ (s :
    State) (rq : Requester) (a : Nat) (val : W64), rqOff s rq = false ∧ a % 4 = 0 ∧ mapAddr s rq a = some a ∧ gAddr a
    = none ∧ isAdb a = false ∧ (regAt s rq a).1 = a ∧ (regAt s rq a).2.length = 8) ∧ (∃ (s : State) (rq : Requester)
    (a : Nat), rqOff s rq = false ∧ a % 4 = 0 ∧ mapAddr s rq a = some a ∧ (regAt s rq a).1 = a ∧ 4 < (regAt s rq
    a).2.length) ∧ (∃ (s : State) (rq : Requester) (a : Nat), rqOff s rq = false ∧ a % 4 = 0 ∧ mapAddr s rq a = none)
    ∧ (∃ (s : State) (fn off size : Nat) (val : W64), barOff s fn = true) :=
  ⟨⟨up, .firmware, 2, 4,
    by decide +kernel⟩,
  ⟨up, .firmware, 4, 8, 1,
    by decide +kernel,
    by decide +kernel,
    (fun a h => by cases h; decide +kernel)⟩,
  ⟨up, .mgmt, 8, 8,
    by decide +kernel⟩,
  ⟨one ctx1 (cmd 1 []), .firmware, 0x4010, 1,
    by decide +kernel⟩,
  ⟨up, .firmware, 0x210018, 1,
    by decide +kernel⟩,
  ⟨one ctx1 (cmd 1 []), .firmware, 0x4010, 1,
    by decide +kernel⟩,
  ⟨one ctx1 (cmd 1 []), .host 0, 0x4010,
    by decide +kernel⟩,
  ⟨up, .host 1, 0xA00000,
    by decide +kernel⟩,
  ⟨{ up with port1 := Port.reset }, 64, 0, 4, 1,
    by decide +kernel⟩⟩

theorem witness_ReadShadows : (∃ (s : State) (rq : Requester) (a : Nat), 4 < (regAt s rq a).2.length ∧ (regAt s rq
    a).1 = a) ∧ (∃ (s : State) (rq : Requester) (a : Nat) (y : RegVal), 4 < (regAt s rq a).2.length ∧ (regAt s rq a).1
    ≠ a ∧ shadowOf s rq = some y) ∧ (∃ (s : State) (rq : Requester) (a : Nat), (regAt s rq a).2.length ≤ 4) ∧ (∃ (s t
    : State) (rq : Requester) (off size : Nat), exec (.registerReadLatch rq off size) s = .next t) ∧ (∃ (s : State)
    (rq : Requester) (ctx : Nat) (val : W64) (c : Ctx), rqOff s rq = false ∧ ctxOf s ctx = some c ∧ ctxWriter rq c =
    true) ∧ (∃ (s : State) (rq : Requester) (ctx : Nat) (val : W64) (c : Ctx), rqOff s rq = false ∧ ctxOf s ctx = some
    c ∧ ctxWriter rq c = true) ∧ (∃ (s : State) (rq : Requester) (ctx : Nat) (val : W64) (c : Ctx), rqOff s rq = false
    ∧ ctxOf s ctx = some c ∧ ctxWriter rq c = true) ∧ (∃ (s : State) (rq : Requester) (val : W64), rqOff s rq = false
    ∧ errWriter rq = true) ∧ (∃ (s : State) (rq : Requester) (ctx : Nat) (val : W32) (c : Ctx), rqOff s rq = false ∧
    ctxOf s ctx = some c ∧ ctxWriter rq c = true ∧ (c.pmc.smpHead - val).toNat ≤ 64 * 2 ^ c.pmc.smpSize) :=
  ⟨⟨one ctx1 (cmd 1 []), .firmware, 0x4010,
    by decide +kernel⟩,
  ⟨{ one ctx1 (cmd 1 []) with reg := { up.reg with shadow := [(.firmware, 0x4010, zeros 8)] } }, .firmware, 0x4014, (0x4010, zeros 8),
    by decide +kernel⟩,
  ⟨up, .firmware, 0xA00010,
    by decide +kernel⟩,
  ⟨up, _, .firmware, 0, 4,
    rfl⟩,
  ⟨one ctx1 (cmd 1 []), .host 0, 1, 1, ctx1,
    by decide +kernel⟩,
  ⟨one ctx1 (cmd 1 []), .host 0, 1, 1, ctx1,
    by decide +kernel⟩,
  ⟨one ctx1 (cmd 1 []), .host 0, 1, 1, ctx1,
    by decide +kernel⟩,
  ⟨up, .mgmt, 1,
    by decide +kernel⟩,
  ⟨one ctx1 (cmd 1 []), .firmware, 1, 0, ctx1,
    by decide +kernel⟩⟩

theorem witness_FailedPairs : (∃ (s : State) (rq : Requester) (g : GReg) (v : W32), rqOff s rq = false ∧ gMay rq g =
    false) ∧ (∃ (s : State) (rq : Requester) (g : GReg) (v w : W32), rqOff s rq = false ∧ gMay rq g = true ∧ pendOf s
    rq g = some w) ∧ (∃ (s : State) (rq : Requester) (g : GReg) (v : W32), rqOff s rq = false ∧ gMay rq g = true ∧
    pendOf s rq g = none) ∧ (∃ (s : State) (rq : Requester) (g : GReg) (v w : W32), rqOff s rq = false ∧ gMay rq g =
    true ∧ pendOf s rq g = some w ∧ v ≠ ~~~w) ∧ (∃ (s : State) (rq : Requester) (g : GReg) (w : W32), rqOff s rq =
    false ∧ gMay rq g = true ∧ pendOf s rq g = some w ∧ gReject rq g w s = true) ∧ (∃ (s : State) (rq : Requester) (g
    : GReg) (va : W32), pendOf s rq g = some va) :=
  ⟨⟨up, .host 1, .pkgrst, 1,
    by decide +kernel⟩,
  ⟨pended .mgmt .secAlarm 7, .mgmt, .secAlarm, 8, 7,
    by decide +kernel⟩,
  ⟨up, .mgmt, .secAlarm, 8,
    by decide +kernel⟩,
  ⟨pended .mgmt .secAlarm 7, .mgmt, .secAlarm, 8, 7,
    by decide +kernel⟩,
  ⟨pended (.host 64) .pkgrst 2, .host 64, .pkgrst, 2,
    by decide +kernel⟩,
  ⟨pended .mgmt .secAlarm 7, .mgmt, .secAlarm, 7,
    by decide +kernel⟩⟩

theorem witness_PairsAreIndependent : (∃ (s t : State) (rq q : Requester) (g r : GReg) (v : W32), (q, r) ≠ (rq, g) ∧
    exec (.guardedWriteA rq g v) s = .next t) ∧ (∃ (s : State) (rq q : Requester) (g r : GReg) (v : W32), (q, r) ≠
    (rq, g) ∧ (∀ w, pendOf s rq g = some w → v ≠ ~~~w ∨ gReject rq g w s = true)) ∧ (∃ (s t : State) (rq q :
    Requester) (g r : GReg), (q, r) ≠ (rq, g) ∧ exec (.guardedWindowExpire rq g) s = .next t) :=
  ⟨⟨up, _, .mgmt, .firmware, .secAlarm, .secAlarm, 7,
    by decide +kernel,
    rfl⟩,
  ⟨pended .mgmt .secAlarm 7, .mgmt, .firmware, .secAlarm, .secAlarm, 8,
    by decide +kernel,
    (fun w h => by cases h; exact Or.inl (by decide +kernel))⟩,
  ⟨up, _, .mgmt, .mgmt, .secAlarm, .secTest,
    by decide +kernel,
    rfl⟩⟩

theorem witness_VfReachesNoPackageRegister : (∃ (s : State) (fn off a : Nat), fn < 128 ∧ fn % 64 ≠ 0 ∧ (∀ e ∈ (fnOf s
    fn).slots, e.2 < 1024) ∧ mapAddr s (.host fn) off = some a) ∧ (∃ (s : State) (rq : Requester) (p : Nat) (val :
    W64), rqOff s rq = false ∧ p < 64 ∧ pfOrAbove rq = true ∧ val.getLsbD 3 = true ∧ (fportOf s p).en = false) ∧ (∃ (s
    : State) (rq : Requester) (p : Nat) (val : W64), rqOff s rq = false ∧ p < 64 ∧ pfOrAbove rq = true ∧ val.getLsbD 3
    = false ∧ (fportOf s p).en = true ∧ (fportOf s p).retrainCid = none ∧ (fportOf s p).st ≠ .up) ∧ (∃ (s : State) (rq
    : Requester) (val : W32), rqOff s rq = false ∧ pfOrAbove rq = true ∧ allDown s = true) ∧ (∃ (s : State) (rq :
    Requester) (val : W32), rqOff s rq = false ∧ pfOrAbove rq = true ∧ allDown s = false) ∧ (∃ (s : State) (rq :
    Requester) (id : Nat) (val : Byte), rqOff s rq = false ∧ id < 16384 ∧ pfOrAbove rq = true) ∧ (∃ (s : State) (rq :
    Requester) (val : W64), rqOff s rq = false ∧ pfOrAbove rq = true ∧ allDown s = true) ∧ (∃ (s : State) (rq :
    Requester) (p id : Nat) (v : W32) (w : W64) (b : Byte), rqOff s rq = false ∧ pfOrAbove rq = false) :=
  ⟨⟨{ up with fns := [(1, { fnReset with slots := [(0, 1023)] })] }, 1, 0x4000, _,
    by decide +kernel,
    by decide +kernel,
    by decide +kernel,
    (Option.some_get (by decide +kernel)).symm⟩,
  ⟨up, .host 64, 63, 8,
    by decide +kernel⟩,
  ⟨ported { port with st := .training }, .firmware, 0, 0,
    by decide +kernel⟩,
  ⟨up, .host 0, 1,
    by decide +kernel⟩,
  ⟨ported port, .host 0, 1,
    by decide +kernel⟩,
  ⟨up, .mgmt, 16383, 1,
    by decide +kernel⟩,
  ⟨up, .host 0, 1,
    by decide +kernel⟩,
  ⟨up, .host 1, 0, 0, 0, 0, 0,
    by decide +kernel⟩⟩

theorem witness_RecordsReachTheirRing : (∃ (s : State) (cls sev ctx die unit : Nat) (detail : List (Nat × Nat × Nat))
    (c : Ctx), sev < 3 ∧ ctxOf s ctx = some c) ∧ (∃ (s : State) (cls sev die unit : Nat) (detail : List (Nat × Nat ×
    Nat)), sev < 3) ∧ (∃ (r : ErrRing) (cls sev : Nat) (b : List Byte), r.head - r.tail ≠ 4096) ∧ (∃ (seq : Nat) (b :
    List Byte), b.length = 64) :=
  ⟨⟨one ctx1 (cmd 1 []), 1, 2, 1, 0, 0, [], ctx1,
    by decide +kernel⟩,
  ⟨up, 1, 2, 0, 0, [],
    by decide +kernel⟩,
  ⟨ErrRing.reset, 1, 2, [],
    by decide +kernel⟩,
  ⟨7, zeros 64,
    by decide +kernel⟩⟩

theorem witness_FullRingsCoalesce : (∃ (r : ErrRing) (cls sev : Nat) (b : List Byte), r.head - r.tail = 4096 ∧ sev < 3
    ∧ (∀ x, nmGet r.coal cls = some x → x.active = false)) ∧ (∃ (r : ErrRing) (cls sev : Nat) (b : List Byte) (x :
    Coal), r.head - r.tail = 4096 ∧ sev < 3 ∧ nmGet r.coal cls = some x ∧ x.active = true) ∧ (∃ (s : State) (r :
    ErrRing) (cls : Nat) (x : Coal), nmGet r.coal cls = some x ∧ x.active = true ∧ r.head - r.tail ≠ 4096) :=
  ⟨⟨{ ErrRing.reset with head := 4096 }, 1, 2, [],
    by decide +kernel,
    by decide +kernel,
    (fun x h => by cases h)⟩,
  ⟨{ ErrRing.reset with head := 4096, coal := [(1, { first := zeros 64, last := zeros 64, count := 1, active := true })] }, 1, 2, [], { first := zeros 64, last := zeros 64, count := 1, active := true },
    by decide +kernel⟩,
  ⟨up, { ErrRing.reset with coal := [(1, { first := zeros 64, last := zeros 64, count := 1, active := true })] }, 1, { first := zeros 64, last := zeros 64, count := 1, active := true },
    by decide +kernel⟩⟩

theorem witness_FatalSlots : (∃ (b : List Byte) (s : State) (i : Nat), freeSlot s.err.valid = some i) ∧ (∃ (b : List
    Byte) (s : State), s.err.valid = 0xFFFFFFFFFFFFFFFF) ∧ (∃ (s : State) (cls die unit : Nat) (ctx : Option Nat)
    (detail : List (Nat × Nat × Nat)), s.err.valid = 0xFFFFFFFFFFFFFFFF) ∧ (∃ (s : State) (rq : Requester) (mask :
    W64), rqOff s rq = false ∧ errWriter rq = true) ∧ (∃ (s : State) (rq : Requester) (mask : W64), rqOff s rq = false
    ∧ rq ≠ .firmware ∧ pfOrAbove rq = true) :=
  ⟨⟨[], { up with err := { up.err with valid := 1 } }, 1,
    by decide +kernel⟩,
  ⟨[], { up with err := { up.err with valid := 0xFFFFFFFFFFFFFFFF } },
    by decide +kernel⟩,
  ⟨{ up with err := { up.err with valid := 0xFFFFFFFFFFFFFFFF } }, 1, 0, 0, none, [],
    by decide +kernel⟩,
  ⟨up, .mgmt, 1,
    by decide +kernel⟩,
  ⟨up, .host 64, 1,
    by decide +kernel⟩⟩

theorem witness_SecuringInterval : (∃ (p : SecPol) (r : Nat), p.kmin ≤ p.kmax ∧ r ≤ 65535) ∧ (∃ (s : State) (ctx risk
    : Nat) (now : Bool) (c : Ctx) (p : SecPol) (q : W64), ctxOf s ctx = some c ∧ c.sec.pol = some p ∧ c.sec.exch =
    true ∧ c.sec.lastPoint = some q ∧ risk ≤ 65535 ∧ (secGroup s p).rank ≠ 0) ∧ (∃ (s : State) (ctx risk : Nat) (now :
    Bool) (c : Ctx) (p : SecPol), ctxOf s ctx = some c ∧ c.sec.pol = some p ∧ c.sec.exch = true) ∧ (∃ (s : State) (cid
    ctx n : Nat) (k : Cmd) (c : Ctx) (p : SecPol) (o lo : Obj) (es : List StrataEnt) (b : List Byte), ready s cid 0x55
    = some k ∧ k.ctx.getD 0 = ctx ∧ n = u16 k.param 8 ∧ 1 ≤ n ∧ n ≤ 1024 ∧ u16 k.param 10 = 0 ∧ u64 k.param 16 % 64 =
    0 ∧ allZero (k.param.drop 24) = true ∧ ownObj s ctx (BitVec.ofNat 32 (u32 k.param 12)) = some o ∧ ctxOf s ctx =
    some c ∧ c.sec.pol = some p ∧ ownObj s ctx p.strata = some lo ∧ es = entriesFrom c.sec.strata (u64 k.param 0) n ∧
    es ≠ [] ∧ b = es.flatMap (fun x => objRead s lo x.off (entryLen x)) ∧ u64 k.param 16 + b.length ≤ o.size) :=
  ⟨⟨pol1, 65535,
    by decide +kernel⟩,
  ⟨{ one { secCtx with sec := { secCtx.sec with exch := true, lastPoint := some 0 } } (cmd 1 []) with fab := { Fab.reset with groups := [(0, { group1 with rank := 1 })] } }, 1, 65535, false, { secCtx with sec := { secCtx.sec with exch := true, lastPoint := some 0 } }, pol1, 0,
    by decide +kernel⟩,
  ⟨one { secCtx with sec := { secCtx.sec with exch := true, lastPoint := some 0 } } (cmd 1 []), 1, 300, false, { secCtx with sec := { secCtx.sec with exch := true, lastPoint := some 0 } }, pol1,
    by decide +kernel⟩,
  ⟨withObjs [obj 1 1 16] (one { secCtx with sec := { secCtx.sec with strata := [entry0] } } (cmd 0x55 (zeros 8 ++ [1, 0, 0, 0] ++ leBytes 4 (hd 1).toNat))), 0, 1, 1, cmd 0x55 (zeros 8 ++ [1, 0, 0, 0] ++ leBytes 4 (hd 1).toNat), { secCtx with sec := { secCtx.sec with strata := [entry0] } }, pol1, obj 1 1 16, obj 1 1 16, [entry0], _,
    by decide +kernel,
    by decide +kernel,
    rfl,
    by decide +kernel,
    by decide +kernel,
    rfl,
    by decide +kernel,
    by decide +kernel,
    by decide +kernel,
    rfl,
    rfl,
    by decide +kernel,
    by decide +kernel,
    by decide +kernel,
    rfl,
    by decide +kernel⟩⟩

theorem witness_AgeingMargin : (∃ (s : State) (c : Nat), 16 ≤ vceil s) ∧ (∃ (s : State) (c : Nat), 0 < vceil s ∧ vceil
    s < 16 ∧ (dieOf s c).vstep ≤ vceil s) ∧ (∃ (s : State) (c : Nat), vceil s = 0) ∧ (∃ (s : State) (slack : List
    Nat), s.clk.pccRun = true) ∧ (∃ (s : State) (cid slack : Nat) (k : Cmd), ready s cid 0x61 = some k ∧ u8 k.param 0
    = 3 ∧ u8 k.param 1 = 0 ∧ allZero (k.param.drop 4) = true ∧ u16 k.param 2 < 48 ∧ s.test.calib.any (fun c => c.1 ==
    3 && c.2.1 == u16 k.param 2) = false) ∧ (∃ (s : State) (cid slack : Nat) (k : Cmd), ready s cid 0x61 = some k ∧
    (u8 k.param 0 = 0 ∨ u8 k.param 0 = 1 ∧ u16 k.param 2 ∈ s.hz.channels) ∧ u8 k.param 1 = 0 ∧ allZero (k.param.drop
    4) = true ∧ u16 k.param 2 < 48 ∧ s.test.calib.any (fun c => c.1 == u8 k.param 0 && c.2.1 == u16 k.param 2) =
    false) ∧ (∃ (s : State) (cid slack : Nat) (k : Cmd), ready s cid 0x61 = some k ∧ u8 k.param 0 = 2 ∧ u8 k.param 1 =
    0 ∧ allZero (k.param.drop 4) = true ∧ u16 k.param 2 < 64 ∧ s.test.calib.any (fun c => c.1 == 2 && c.2.1 == u16
    k.param 2) = false ∧ (fportOf s (u16 k.param 2)).st = .up ∧ lastOfBundle s (u16 k.param 2) = false) ∧ (∃ (s :
    State) (kind unit : Nat) (c : Nat × Nat × Nat) (k : Cmd), kind ≤ 1 ∧ s.test.calib.find? (fun c => c.1 == kind &&
    c.2.1 == unit) = some c ∧ cmdOf s c.2.2 = some k ∧ k.done = none ∧ firstWindowOpen s c.2.2 = true) :=
  ⟨⟨up, 47,
    by decide +kernel⟩,
  ⟨{ up with pwr := { up.pwr with clkctlInForce := 0x000F0640 } }, 0,
    by decide +kernel⟩,
  ⟨{ up with pwr := { up.pwr with clkctlInForce := 0x00000640 } }, 0,
    by decide +kernel⟩,
  ⟨up, [],
    by decide +kernel⟩,
  ⟨one ctx1 (calibrator 3), 0, 0, calibrator 3,
    by decide +kernel⟩,
  ⟨one ctx1 (calibrator 0), 0, 0, calibrator 0,
    by decide +kernel⟩,
  ⟨twoPorts (calibrator 2), 0, 0, calibrator 2,
    by decide +kernel⟩,
  ⟨{ one ctx1 (calibrator 0) with test := { Test.reset with calib := [(0, 0, 0)] } }, 0, 0, (0, 0, 0), calibrator 0,
    by decide +kernel⟩⟩

theorem witness_ElementAddress : (∃ (v : View) (k i0 i1 i2 i3 : Nat), v.gix = false) ∧ (∃ (v : View) (k i0 i1 i2 i3 :
    Nat), v.gix = true) ∧ (∃ (s u : State) (ctx idx : Nat) (r : RunSeg) (e : XferEnt) (x : XferSt) (o : Obj), xferAt s
    ctx idx = some (r, e, x) ∧ r.stop = none ∧ x.started = false ∧ e.start ≤ segGc s r ∧ u = setXfer ctx idx
    { x with started := true } s ∧ ownObj u ctx e.handle = some o) ∧ (∃ (s u : State) (ctx idx : Nat) (r : RunSeg) (e
    : XferEnt) (x : XferSt), xferAt s ctx idx = some (r, e, x) ∧ r.stop = none ∧ x.started = true ∧ x.done = false ∧
    e.kind = 0 ∧ xferOpen s ctx idx = false ∧ u = setXfer ctx idx { x with done := true } s) ∧ (∃ (s u v : State) (ctx
    idx : Nat) (r ru : RunSeg) (e eu : XferEnt) (x y : XferSt) (o : Obj), xferAt s ctx idx = some (r, e, x) ∧ r.stop =
    none ∧ x.started = true ∧ x.done = false ∧ e.kind ≠ 0 ∧ ownObj s ctx e.handle = some o) :=
  ⟨⟨view 0 4 1 1 1 0, 3, 1, 0, 0, 0,
    by decide +kernel⟩,
  ⟨{ view 0 4 1 1 1 0 with gix := true }, 3, 1, 0, 0, 0,
    by decide +kernel⟩,
  ⟨{ at_ [] with segs := [xferRun { started := false, done := false, stale := [], frames := [], bad := false }] }, _, 1, 0, xferRun { started := false, done := false, stale := [], frames := [], bad := false }, xfer1, { started := false, done := false, stale := [], frames := [], bad := false }, obj 1 1 16,
    by decide +kernel,
    by decide +kernel,
    rfl,
    by decide +kernel,
    rfl,
    by decide +kernel⟩,
  ⟨{ at_ [] with segs := [xferRun { started := true, done := false, stale := [], frames := [], bad := false }] }, _, 1, 0, xferRun { started := true, done := false, stale := [], frames := [], bad := false }, xfer1, { started := true, done := false, stale := [], frames := [], bad := false },
    by decide +kernel,
    by decide +kernel,
    rfl,
    by decide +kernel,
    rfl,
    by decide +kernel,
    rfl⟩,
  ⟨{ at_ [] with segs := [{ xferRun { started := true, done := false, stale := [], frames := [], bad := false } with d := { segd with xfers := [{ xfer1 with kind := 1 }] } }] }, up, up, 1, 0, { xferRun { started := true, done := false, stale := [], frames := [], bad := false } with d := { segd with xfers := [{ xfer1 with kind := 1 }] } }, run1, { xfer1 with kind := 1 }, xfer1, { started := true, done := false, stale := [], frames := [], bad := false }, { started := true, done := false, stale := [], frames := [], bad := false }, obj 1 1 16,
    by decide +kernel⟩⟩

theorem witness_CodesSurvive : (∃ f c : Nat, f ≤ 10 ∧ c < 2 ^ fmtW f ∧ decodeF f c ≠ .nan) ∧ (∃ f : Nat, f ≤ 7) :=
  ⟨⟨3, 0x38,
    by decide +kernel⟩,
  ⟨7,
    by decide +kernel⟩⟩

theorem witness_BlockScaleElements : (∃ (ftz : Bool) (blk : List Byte) (j : Nat) (c : Counts), u8 blk 0 = 0) ∧ (∃ (blk
    : List Byte) (j : Nat) (c : Counts) (n : Bool) (q : Rat), 0 < u8 blk 0 ∧ u8 blk 0 < 255 ∧ decodeF 3 (u8 blk (j +
    1)) = .num n q) ∧ (∃ (ftz : Bool) (blk : List Byte) (j : Nat) (c : Counts), u8 blk 0 = 255) ∧ (∃ (s : State) (cid
    ctx n g off : Nat) (c : Cmd) (o : Obj) (ids shape : List Nat), ready s cid 0x42 = some c ∧ c.ctx.getD 0 = ctx ∧ n
    = u16 c.param 2 ∧ g = u16 c.param 0 ∧ off = u64 c.param 12 ∧ shape = [u8 c.param 20, u8 c.param 21, u8 c.param 22,
    u8 c.param 23] ∧ g ≤ 1023 ∧ 1 ≤ n ∧ n ≤ 16384 ∧ u16 c.param 4 < n ∧ u16 c.param 6 = 0 ∧ off % 2 = 0 ∧ allZero
    (c.param.drop 24) = true ∧ (shape = [0, 0, 0, 0] ∨ (∀ x ∈ shape, 1 ≤ x ∧ x ≤ 16) ∧ shape.foldl (· * ·) 1 = n) ∧
    ownObj s ctx (BitVec.ofNat 32 (u32 c.param 8)) = some o ∧ ids = (List.range n).map (fun i => leNat (objRead s o
    (off + 2 * i) 2)) ∧ off + 2 * n ≤ o.size ∧ ids.getD (u16 c.param 4) 0 = pkgId s ∧ distinct ids = true ∧ (∀ x ∈
    ids, idInTorus s.fab.torus x = true) ∧ (∀ x, nmGet s.fab.groups g = some x → x.ctx = ctx) ∧ groupBusy s g = false)
    ∧ (∃ (s : State) (cid ctx tag : Nat) (c : Cmd) (x : Sys2Proof.Machine.Group), ready s cid 0x43 = some c ∧
    c.ctx.getD 0 = ctx ∧ tag = u16 c.param 0 ∧ bits (u8 c.param 4) 0 2 ≠ 3 ∧ bits (u8 c.param 4) 2 2 ≠ 3 ∧ u8 c.param
    4 < 64 ∧ (u8 c.param 5 = 0 ∨ u8 c.param 5 = 1) ∧ 1 ≤ u16 c.param 6 ∧ u16 c.param 6 ≤ 256 ∧ 1 ≤ u32 c.param 8 ∧ u32
    c.param 8 ≤ 2 ^ 28 ∧ 1 ≤ u16 c.param 12 ∧ u16 c.param 12 ≤ 4096 ∧ u16 c.param 14 = 0 ∧ 1 ≤ u32 c.param 16 ∧
    allZero (c.param.drop 20) = true ∧ u16 c.param 2 ≤ 1023 ∧ nmGet s.fab.groups (u16 c.param 2) = some x ∧ x.ctx =
    ctx ∧ (∀ b, nmGet s.fab.buckets tag = some b → b.ctx = ctx) ∧ (bits (u8 c.param 4) 2 2 = 2 → x.shape ≠ []) ∧
    tagBusy s tag = false) :=
  ⟨⟨false, zeros 33, 3, Counts.none,
    by decide +kernel⟩,
  ⟨[127] ++ zeros 32, 3, Counts.none, _, _,
    by decide +kernel,
    by decide +kernel,
    rfl⟩,
  ⟨true, [255] ++ zeros 32, 3, Counts.none,
    by decide +kernel⟩,
  ⟨withObj grouper, 0, 1, 1, 0, 0, grouper, obj 1 1 16, _, _,
    by decide +kernel,
    by decide +kernel,
    rfl,
    by decide +kernel,
    rfl,
    rfl,
    by decide +kernel,
    by decide +kernel,
    by decide +kernel,
    by decide +kernel,
    rfl,
    rfl,
    by decide +kernel,
    by decide +kernel,
    by decide +kernel,
    rfl,
    by decide +kernel,
    by decide +kernel,
    by decide +kernel,
    by decide +kernel,
    (fun x h => by cases h),
    by decide +kernel⟩,
  ⟨grouped (one ctx1 bucketer), 0, 1, 0, bucketer, group1,
    by decide +kernel,
    by decide +kernel,
    rfl,
    by decide +kernel,
    by decide +kernel,
    by decide +kernel,
    by decide +kernel,
    by decide +kernel,
    of_decide_eq_true rfl,
    by decide +kernel,
    by decide +kernel,
    by decide +kernel,
    by decide +kernel,
    rfl,
    by decide +kernel,
    by decide +kernel,
    by decide +kernel,
    rfl,
    rfl,
    (fun x h => by cases h),
    by decide +kernel⟩⟩

theorem witness_WindowChecks : (∃ (s : State) (w : Win) (key : W32) (src off n : Nat) (wr : Bool), (w.closing.isSome =
    true ∨ w.key ≠ key ∨ peerOk w src = false ∨ bitAt w.rights (if wr then 1 else 0) = false ∨ winTotal s w < off +
    n)) ∧ (∃ (s : State) (w : Win) (key : W32) (src off n : Nat) (wr : Bool), w.closing = none ∧ w.key = key ∧ peerOk
    w src = true ∧ bitAt w.rights (if wr then 1 else 0) = true ∧ off + n ≤ winTotal s w ∧ w.kind ≠ 0) ∧ (∃ (s : State)
    (w : Win) (key : W32) (src off n g : Nat) (wr : Bool), w.closing = none ∧ w.key = key ∧ peerOk w src = true ∧
    bitAt w.rights (if wr then 1 else 0) = true ∧ off + n ≤ winTotal s w ∧ w.kind = 0 ∧ g ∈ winGrains s w off n ∧
    residentPlace s w.ctx g = none) ∧ (∃ (s : State) (f : Flit) (x : WinSide) (st : W16) (n off len : Nat) (w : Option
    Win), (flitOp f = 1 ∨ flitOp f = 2) ∧ n = bits (u16 f 14) 0 12 ∧ off = accessOff f ∧ len = accessLen f x ∧ w =
    nmGet s.fab.wins n ∧ winRefusal s w (BitVec.ofNat 32 (u32 f 16)) (flitSrc f) (flitOp f == 1) off len = some st) ∧
    (∃ (s u : State) (f : Flit) (x : WinSide) (w : Win) (n : Nat), (flitOp f = 1 ∨ flitOp f = 2) ∧ n = bits (u16 f 14)
    0 12 ∧ nmGet s.fab.wins n = some w ∧ winRefusal s (some w) (BitVec.ofNat 32 (u32 f 16)) (flitSrc f) (flitOp f ==
    1) (accessOff f) (accessLen f x) = none ∧ u = (if flitOp f = 1 ∧ bitAt (u8 f 8) 7 = true then updFab (fun b =>
    { b with acks := b.acks ++ [(n, f)] }) s else s)) ∧ (∃ (s : State) (rtag : Nat) (q : WReq), s.fab.wreqs.find? (fun
    q => q.rtag == rtag && q.tagged) = some q ∧ max 1 (bits s.fab.ctl.toNat 0 32) ≤ (s.clk.pcc - q.sent).toNat) ∧ (∃
    (s u : State) (f : Flit) (x : WinSide) (w : Win) (n : Nat) (o : _), (flitOp f = 1 ∨ flitOp f = 2) ∧ n = bits (u16
    f 14) 0 12 ∧ nmGet s.fab.wins n = some w ∧ winRefusal s (some w) (BitVec.ofNat 32 (u32 f 16)) (flitSrc f) (flitOp
    f == 1) (accessOff f) (accessLen f x) = none ∧ u = (if flitOp f = 1 ∧ bitAt (u8 f 8) 7 = true then updFab (fun b
    => { b with acks := b.acks ++ [(n, f)] }) s else s) ∧ x.clod = none ∧ w.kind = 1 ∧ objOf s w.target = some o ∧
    accessLen f x ≠ 0) ∧ (∃ (s u : State) (f : Flit) (x : WinSide) (w : Win) (n : Nat), (flitOp f = 1 ∨ flitOp f = 2)
    ∧ n = bits (u16 f 14) 0 12 ∧ nmGet s.fab.wins n = some w ∧ winRefusal s (some w) (BitVec.ofNat 32 (u32 f 16))
    (flitSrc f) (flitOp f == 1) (accessOff f) (accessLen f x) = none ∧ u = (if flitOp f = 1 ∧ bitAt (u8 f 8) 7 = true
    then updFab (fun b => { b with acks := b.acks ++ [(n, f)] }) s else s) ∧ x.clod = none ∧ w.kind = 0) ∧ (∃ (s u :
    State) (f : Flit) (x : WinSide) (w : Win) (n : Nat) (k v : _), (flitOp f = 1 ∨ flitOp f = 2) ∧ n = bits (u16 f 14)
    0 12 ∧ nmGet s.fab.wins n = some w ∧ winRefusal s (some w) (BitVec.ofNat 32 (u32 f 16)) (flitSrc f) (flitOp f ==
    1) (accessOff f) (accessLen f x) = none ∧ u = (if flitOp f = 1 ∧ bitAt (u8 f 8) 7 = true then updFab (fun b =>
    { b with acks := b.acks ++ [(n, f)] }) s else s) ∧ x.clod = some k ∧ flitOp f = 1 ∧ preparedAt s (accessLdie s f)
    + accessLen f x ≤ 2 ^ 20 ∧ v = updFab (fun b =>
    { b with preparedWin := b.preparedWin ++ [{ src := flitSrc f, clod := k, ldie := accessLdie s f, win := n, woff := accessOff f, data := (slice f 28 224).take (accessLen f x), side := x }] })
    s) :=
  ⟨⟨windowed, win1, 7, 0, 40, 32, true,
    by decide +kernel⟩,
  ⟨windowed, win1, 7, 0, 32, 32, true,
    by decide +kernel⟩,
  ⟨windowed, grainWin, 7, 0, 32, 32, 0, false,
    by decide +kernel,
    by decide +kernel,
    rfl,
    by decide +kernel,
    by rw [total_grainWin],
    by decide +kernel,
    by rw [grains_grainWin]; exact List.mem_singleton.2 rfl,
    by decide +kernel⟩,
  ⟨up, flit 1 [], side, stNOT_PERMITTED, _, _, _, _,
    by decide +kernel,
    rfl,
    rfl,
    rfl,
    rfl,
    by decide +kernel⟩,
  ⟨windowed, _, winFlit 1, side, win1, _,
    by decide +kernel,
    rfl,
    by decide +kernel,
    by decide +kernel,
    rfl⟩,
  ⟨asked (wreq true true), 5, wreq true true,
    by decide +kernel⟩,
  ⟨windowed, _, winFlit 1, side, win1, _, obj 1 1 16,
    by decide +kernel,
    rfl,
    by decide +kernel,
    by decide +kernel,
    rfl,
    by decide +kernel⟩,
  ⟨{ windowed with fab := { windowed.fab with wins := [(0, grainWin)] }, ped2s := (at_ []).ped2s }, _, winFlit 1, side, grainWin, _,
    by decide +kernel,
    rfl,
    by decide +kernel,
    by decide +kernel,
    rfl,
    by decide +kernel⟩,
  ⟨windowed, _, winFlit 1, { side with clod := some 9 }, win1, _, 9, _,
    by decide +kernel,
    rfl,
    by decide +kernel,
    by decide +kernel,
    rfl,
    by decide +kernel,
    by decide +kernel,
    by decide +kernel,
    rfl⟩⟩

theorem witness_FwActivateAnswers : (∃ (s : State) (cid : Nat) (k : Cmd), ready s cid 0x82 = some k ∧ (1 < u8 k.param
    0 ∨ allZero (k.param.drop 1) = false ∨ dirComplete s.fw.dir = false ∨ (u8 k.param 0 = 0 ∧ (s.fw.svn < mCompat
    (manifest s (s.fw.dir.stage.getD 0)) ∨ s.boot.recovery = true)))) ∧ (∃ (s : State) (cid : Nat) (k : Cmd), ready s
    cid 0x82 = some k ∧ u8 k.param 0 ≤ 1 ∧ allZero (k.param.drop 1) = true ∧ dirComplete s.fw.dir = true ∧ (u8 k.param
    0 = 0 → mCompat (manifest s (s.fw.dir.stage.getD 0)) ≤ s.fw.svn ∧ s.boot.recovery = false) ∧ activating s = true)
    ∧ (∃ (s : State) (cid : Nat) (k : Cmd), ready s cid 0x82 = some k ∧ u8 k.param 0 ≤ 1 ∧ allZero (k.param.drop 1) =
    true ∧ dirComplete s.fw.dir = true ∧ (u8 k.param 0 = 0 → mCompat (manifest s (s.fw.dir.stage.getD 0)) ≤ s.fw.svn ∧
    s.boot.recovery = false) ∧ activating s = false ∧ s.fw.st ≠ .revert ∧ s.fw.st ≠ .pendingCold) ∧ (∃ (s : State)
    (slot : Nat), s.fw.st = .verify ∧ s.fw.dir.stage = some slot ∧ verifyBad s slot = [] ∧ s.fw.actLive = true) ∧ (∃
    (s : State) (slot cid : Nat), s.fw.st = .verify ∧ s.fw.dir.stage = some slot ∧ verifyBad s slot = [] ∧
    s.fw.actLive = false ∧ s.boot.recovery = false ∧ s.fw.actCid = some cid) ∧ (∃ s : State, s.fw.st = .load) ∧ (∃ s :
    State, s.fw.st = .handover) ∧ (∃ (s : State) (x : W64), s.fw.stamp = some x ∧ s.fw.st = .switch ∧
    s.fw.unitsSwitched = false ∧ x.toNat ≤ s.clk.pcc.toNat) ∧ (∃ (s : State) (slot cid : Nat), s.fw.dir.stage = some
    slot ∧ s.fw.st = .switch ∧ allSwitched s = true ∧ s.fw.actCid = some cid) ∧ (∃ (s : State) (u : Rat), s.fw.loadUs
    = some u ∧ (s.fw.st = .load ∨ s.fw.st = .handover ∨ s.fw.st = .switch) ∧ u + 500000 ≤ s.clk.wallUs) ∧ (∃ (s :
    State) (cid : Nat), s.fw.st = .revert ∧ s.fw.switched = [] ∧ s.fw.actCid = some cid ∧ s.fw.abortCid = none) :=
  ⟨⟨one ctx1 (cmd 0x82 [2]), 0, cmd 0x82 [2],
    by decide +kernel⟩,
  ⟨fwOn (staged .load) (cmd 0x82 [1]), 0, cmd 0x82 [1],
    by decide +kernel⟩,
  ⟨fwOn (staged .staged) (cmd 0x82 [1]), 0, cmd 0x82 [1],
    by decide +kernel⟩,
  ⟨verified true, 1,
    by decide +kernel,
    by decide +kernel,
    verifyBad_verified true,
    by decide +kernel⟩,
  ⟨verified false, 1, 0,
    by decide +kernel,
    by decide +kernel,
    verifyBad_verified false,
    by decide +kernel⟩,
  ⟨fwOn (staged .load) (cmd 1 []),
    by decide +kernel⟩,
  ⟨fwOn (staged .handover) (cmd 1 []),
    by decide +kernel⟩,
  ⟨fwOn { staged .switch with stamp := some 1000 } (cmd 1 []), 1000,
    by decide +kernel⟩,
  ⟨fwOn { staged .switch with unitsSwitched := true, switched := [0], actCid := some 0 } (cmd 1 []), 1, 0,
    by decide +kernel⟩,
  ⟨{ fwOn { staged .load with loadUs := some 3 } (cmd 1 []) with clk := { up.clk with wallUs := 500003 } }, 3,
    by decide +kernel⟩,
  ⟨fwOn { staged .revert with actCid := some 0 } (cmd 0x82 []), 0,
    by decide +kernel⟩⟩

theorem witness_PingAnswers : (∃ (s : State) (cid : Nat) (k : Cmd), ready s cid 0x01 = some k ∧ allZero (k.param.drop
    8) = true) ∧ (∃ (s : State) (cid : Nat) (k : Cmd), ready s cid 0x01 = some k ∧ allZero (k.param.drop 8) = false) ∧
    (∃ (s : State) (cid mask : Nat) (k : Cmd) (d : BitVec 256) (q : List Byte), ready s cid 0x90 = some k ∧ mask = u32
    k.param 40 ∧ mask ≠ 0 ∧ mask % 2 = 0 ∧ mask < 2048 ∧ u64 k.param 32 % 64 = 0 ∧ u32 k.param 44 = 0 ∧ s.sec.seed =
    some d ∧ s.sec.idok = true ∧ q = quoteBytes s k.fn (slice k.param 0 32) mask) ∧ (∃ (s : State) (cid first : Nat)
    (k : Cmd) (es : List LogEnt) (ch : BitVec 256) (b : List Byte), ready s cid 0x91 = some k ∧ u64 k.param 0 % 64 = 0
    ∧ 128 ≤ u64 k.param 8 ∧ allZero (k.param.drop 24) = true ∧ first = max (u64 k.param 16) (oldestLog s) ∧ es =
    (s.sec.log.drop (first - oldestLog s)).take ((u64 k.param 8 - 64) / 64) ∧ ch = (s.sec.chainOld.drop (first -
    oldestLog s)).headD s.sec.chain ∧ b = pad 64 (leBytes 8 first ++ leBytes 8 es.length ++ leBytes 32 ch.toNat) ++
    es.flatMap logEntBytes) :=
  ⟨⟨one ctx1 (cmd 1 [7]), 0, cmd 1 [7],
    by decide +kernel⟩,
  ⟨one ctx1 (cmd 1 (zeros 8 ++ [1])), 0, cmd 1 (zeros 8 ++ [1]),
    by decide +kernel⟩,
  ⟨{ one ctx1 quoter with sec := { up.sec with idok := true, seed := some 5 } }, 0, 1024, quoter, 5, _,
    by decide +kernel,
    by decide +kernel,
    by decide +kernel,
    rfl,
    by decide +kernel,
    rfl,
    by decide +kernel,
    by decide +kernel,
    by decide +kernel,
    rfl⟩,
  ⟨one ctx1 logReader, 0, _, logReader, _, _, _,
    by decide +kernel,
    by decide +kernel,
    by decide +kernel,
    rfl,
    rfl,
    rfl,
    rfl,
    rfl⟩⟩

theorem witness_DroppedDoorbells : (∃ (s : State) (fn page ring : Nat) (val : W64), barOff s fn = false ∧ pageCtx s fn
    page = none) ∧ (∃ (s : State) (fn page ring : Nat) (val : W64) (c : Ctx) (r : SubRing) (cq : CplRing), barOff s fn
    = false ∧ pageCtx s fn page = some c ∧ nmGet s.ctxs c.num = some c ∧ r = ringFor s c ring (bitAt val.toNat 63) ∧
    cq = (if bitAt val.toNat 62 then cplEntry s c (bits val.toNat 17 6) else nmGetD c.cq (bits val.toNat 17 6)
    cplRingOff) ∧ (r.kind = 2 → bitAt val.toNat 63 = true) ∧ (r.kind = 0 ∨ dbReserved val.toNat = true ∨ 2 ^ r.size ≤
    bits val.toNat 0 16 ∨ (bitAt val.toNat 16 = true ∧ takeHead cq (bits val.toNat 32 16) = none) ∨ (bitAt val.toNat
    63 = true ∧ (ctxCmds s c.num).any (fun k => outstanding k && k.ring == ring) = true) ∨ (bitAt val.toNat 62 = true
    ∧ (ctxCmds s c.num).any (fun k => outstanding k && k.cq == bits val.toNat 17 6) = true) ∨ (bitAt val.toNat 62 =
    true ∧ ringsOn s c.owner = false))) ∧ (∃ (n head : Nat) (r : CplRing), r.en = true ∧ n = 2 ^ r.size ∧ (n ≤ head ∨
    r.fill < (head + n - (r.pos + n - r.fill) % n) % n)) :=
  ⟨⟨up, 0, 1, 0, 0,
    by decide +kernel⟩,
  ⟨one ringCtx (cmd 1 []), 0, 1, 0, 16, ringCtx, _, _,
    by decide +kernel,
    by decide +kernel,
    rfl,
    rfl,
    rfl,
    by decide +kernel⟩,
  ⟨16, 16, cq0,
    by decide +kernel⟩⟩

theorem witness_HeldDescriptors : (∃ (pick : List Byte → Bool) (faults : State → Iss → List (Bool × Nat)) (act : Iss →
    State → State) (g t : Nat) (s : State) (gr : Grain) (th : Thr) (r : RunSeg) (x : Prog) (d : List Byte), atTurn g t
    s gr th r x d ∧ pick d = true) ∧ (∃ (pick : List Byte → Bool) (faults : State → Iss → List (Bool × Nat)) (act :
    Iss → State → State) (g t : Nat) (s : State) (gr : Grain) (th : Thr) (r : RunSeg) (x : Prog) (st : Stream), nmGet
    s.grains g = some gr ∧ nmGet gr.thr t = some th ∧ segOf s gr.ctx = some r ∧ progOf r gr.ped2 = some x ∧ th.stream
    = some st ∧ live s gr th = true ∧ nextDesc s g gr th = none ∧ burstExists s gr.ctx g st (th.pos / 8) = true) ∧ (∃
    (s : State) (gr : Grain) (t : Nat) (th : Thr) (r : RunSeg) (p : Bool) (d : List Byte), live s gr th = true) :=
  ⟨⟨fun _ => true, fun _ _ => [], fun _ s => s, 0, 0, at_ (desc 0x05 0 255 1 255 []), grain (desc 0x05 0 255 1 255 []), thr (desc 0x05 0 255 1 255 []), run1, prog, pad 32 (desc 0x05 0 255 1 255 []),
    ⟨rfl, rfl, rfl, rfl, rfl, by decide +kernel, by decide +kernel, by decide +kernel⟩,
    rfl⟩,
  ⟨fun _ => true, fun _ _ => [], fun _ s => s, 0, 0, onGrain (withThr { thr [] with bufs := [] }), withThr { thr [] with bufs := [] }, { thr [] with bufs := [] }, run1, prog, { handle := 0, off := 0, home := ped0 },
    by decide +kernel⟩,
  ⟨at_ [], grain [], 0, thr [], run1, false, [],
    by decide +kernel⟩⟩

theorem witness_DescriptorFaults : (∃ (pick : List Byte → Bool) (faults : State → Iss → List (Bool × Nat)) (act : Iss
    → State → State) (g t code : Nat) (s : State) (gr : Grain) (th : Thr) (r : RunSeg) (x : Prog) (d : List Byte),
    atTurn g t s gr th r x d ∧ pick d = true ∧ waitBefore s gr t th r x.paired d = none ∧ engineBusy s gr t r x.paired
    (engineOf (dOp d)) = false ∧ (true, code) ∈ commonFaults s gr th t r x (placeOf s g) d ∧ (∀ e ∈ commonFaults s gr
    th t r x (placeOf s g) d, e.1 = true → code ≤ e.2) ∧ (∀ i, ∀ e ∈ faults s i, e.1 = true → code ≤ e.2)) ∧ (∃ (g t
    code : Nat) (s : State) (gr : Grain) (th : Thr) (r : RunSeg), nmGet s.grains g = some gr ∧ nmGet gr.thr t = some
    th ∧ segOf s gr.ctx = some r ∧ r.stop = none) ∧ (∃ (s : State) (g t : Nat) (i : Iss), issues 0x3F endFaults g t s
    i) ∧ (∃ (s : State) (g t : Nat) (gr : Grain) (th : Thr) (r : RunSeg) (d : List Byte), nmGet s.grains g = some gr ∧
    nmGet gr.thr t = some th ∧ segOf s gr.ctx = some r ∧ bufDesc th = some d ∧ th.st = .waitTime ∧ dNotBefore d ≤
    segGc s r) ∧ (∃ (s u : State) (g t b : Nat) (gr : Grain) (th : Thr) (st : Stream) (q : Option Req), nmGet s.grains
    g = some gr ∧ nmGet gr.thr t = some th ∧ th.stream = some st ∧ s.hz.reqs.find? (fun q => q.g == g && q.kind ==
    .burst t b) = q ∧ u = updHz (fun h =>
    { h with reqs := h.reqs.filter (fun q => !(q.g == g && q.kind == .burst t b)) }) s) ∧ (∃ (s : State) (g ser : Nat)
    (gr : Grain) (o : OutD) (th : Thr) (r : RunSeg) (x : Prog), nmGet s.grains g = some gr ∧ gr.out.find? (fun o =>
    o.ser == ser) = some o ∧ nmGet gr.thr o.t = some th ∧ segOf s gr.ctx = some r ∧ progOf r gr.ped2 = some x ∧
    x.paired = false) ∧ (∃ (s u : State) (g t b : Nat) (gr : Grain) (th : Thr) (st : Stream) (q : Option Req), nmGet
    s.grains g = some gr ∧ nmGet gr.thr t = some th ∧ th.stream = some st ∧ s.hz.reqs.find? (fun q => q.g == g &&
    q.kind == .burst t b) = q ∧ u = updHz (fun h =>
    { h with reqs := h.reqs.filter (fun q => !(q.g == g && q.kind == .burst t b)) }) s ∧ (b ∉ th.reqd ∨ (st.handle ≠ 0
    ∧ ∀ x, q = some x → mayServe s x = false) ∨ lanesWait s (physId s g) (fun e => e.g == g && e.why == .burst t b) =
    true)) ∧ (∃ (s u : State) (g t b : Nat) (gr : Grain) (th : Thr) (st : Stream) (q : Option Req) (d : _), nmGet
    s.grains g = some gr ∧ nmGet gr.thr t = some th ∧ th.stream = some st ∧ s.hz.reqs.find? (fun q => q.g == g &&
    q.kind == .burst t b) = q ∧ u = updHz (fun h =>
    { h with reqs := h.reqs.filter (fun q => !(q.g == g && q.kind == .burst t b)) }) s ∧ b ∈ th.reqd ∧ lanesWait s
    (physId s g) (fun e => e.g == g && e.why == .burst t b) = false ∧ st.handle = 0 ∧ q = none ∧ burstBytes u gr.ctx g
    st b = (d, false)) ∧ (∃ (s u : State) (g t b : Nat) (gr : Grain) (th : Thr) (st : Stream) (q : Option Req) (x y f
    v : _), nmGet s.grains g = some gr ∧ nmGet gr.thr t = some th ∧ th.stream = some st ∧ s.hz.reqs.find? (fun q =>
    q.g == g && q.kind == .burst t b) = q ∧ u = updHz (fun h =>
    { h with reqs := h.reqs.filter (fun q => !(q.g == g && q.kind == .burst t b)) }) s ∧ b ∈ th.reqd ∧ lanesWait s
    (physId s g) (fun e => e.g == g && e.why == .burst t b) = false ∧ q = some x ∧ mayServe s x = true ∧ objOf u
    x.handle = some y ∧ sourceRead x y ((List.range 256).map (fun i => st.off + 256 * b + i)) x.ans u = (f, v) ∧ (∀ i,
    i < 256 → (f (st.off + 256 * b + i)).2 = false)) ∧ (∃ (s : State) (g ser : Nat) (gr : Grain) (o : OutD) (th : Thr)
    (r : RunSeg) (x : Prog), nmGet s.grains g = some gr ∧ gr.out.find? (fun o => o.ser == ser) = some o ∧ nmGet gr.thr
    o.t = some th ∧ segOf s gr.ctx = some r ∧ progOf r gr.ped2 = some x ∧ x.paired = false ∧ (mayComplete s.clk.pcc gr
    o false = false ∨ lanesIn s g ser = false ∨ abandoned s r o = true)) ∧ (∃ (s : State) (g ser : Nat) (gr : Grain)
    (o : OutD) (th : Thr) (r : RunSeg) (x : Prog), nmGet s.grains g = some gr ∧ gr.out.find? (fun o => o.ser == ser) =
    some o ∧ nmGet gr.thr o.t = some th ∧ segOf s gr.ctx = some r ∧ progOf r gr.ped2 = some x ∧ x.paired = false ∧
    mayComplete s.clk.pcc gr o false = true ∧ lanesIn s g ser = true ∧ abandoned s r o = false) :=
  ⟨⟨fun _ => true, fun _ _ => [], fun _ s => s, 0, 0, 1, at_ ([0x40]), grain ([0x40]), thr ([0x40]), run1, prog, pad 32 ([0x40]),
    ⟨rfl, rfl, rfl, rfl, rfl, by decide +kernel, by decide +kernel, by decide +kernel⟩,
    rfl,
    by decide +kernel,
    by decide +kernel,
    by decide +kernel,
    by decide +kernel,
    by simp⟩,
  ⟨0, 0, 1, at_ [], grain [], thr [], run1,
    by decide +kernel⟩,
  ⟨at_ (desc 0x3F 255 255 255 255 []), 0, 0, iss (at_ (desc 0x3F 255 255 255 255 [])) (desc 0x3F 255 255 255 255 []),
    ⟨_, _, _, _, _, rfl, rfl, rfl, rfl, rfl, by decide +kernel, by decide +kernel, by decide +kernel, by decide +kernel, by decide +kernel, by decide +kernel, by decide +kernel, by decide +kernel⟩⟩,
  ⟨onGrain (withThr ({ thr ([0x3F, 0] ++ leBytes 3 500) with st := .waitTime })), 0, 0, withThr ({ thr ([0x3F, 0] ++ leBytes 3 500) with st := .waitTime }), { thr ([0x3F, 0] ++ leBytes 3 500) with st := .waitTime }, run1, pad 32 ([0x3F, 0] ++ leBytes 3 500),
    by decide +kernel⟩,
  ⟨onGrain (withThr { thr [] with reqd := [0], bufs := [] }), _, 0, 0, 0, withThr { thr [] with reqd := [0], bufs := [] }, { thr [] with reqd := [0], bufs := [] }, { handle := 0, off := 0, home := ped0 }, _,
    by decide +kernel,
    by decide +kernel,
    rfl,
    rfl,
    rfl⟩,
  ⟨busy { outd 4 (desc 0x05 0 255 1 255 []) .nothing with held := true }, 0, 4, { grain [] with out := [{ outd 4 (desc 0x05 0 255 1 255 []) .nothing with held := true }] }, { outd 4 (desc 0x05 0 255 1 255 []) .nothing with held := true }, thr [], run1, prog,
    by decide +kernel⟩,
  ⟨onGrain (withThr { thr [] with bufs := [] }), _, 0, 0, 0, withThr { thr [] with bufs := [] }, { thr [] with bufs := [] }, { handle := 0, off := 0, home := ped0 }, _,
    by decide +kernel,
    by decide +kernel,
    rfl,
    rfl,
    rfl,
    by decide +kernel⟩,
  ⟨onGrain (withThr { thr [] with reqd := [0], bufs := [] }), _, 0, 0, 0, withThr { thr [] with reqd := [0], bufs := [] }, { thr [] with reqd := [0], bufs := [] }, { handle := 0, off := 0, home := ped0 }, _, zeros 256,
    by decide +kernel,
    by decide +kernel,
    rfl,
    rfl,
    rfl,
    by decide +kernel,
    rfl,
    by decide +kernel,
    rfl,
    by decide +kernel⟩,
  ⟨{ onGrain (withThr { thr [] with reqd := [0], bufs := [], stream := some { handle := hd 1, off := 0, home := ped0 } }) with hz := { Hz.reset with objs := [obj 1 1 16], reqs := [req (.burst 0 0) true] } }, _, 0, 0, 0, withThr { thr [] with reqd := [0], bufs := [], stream := some { handle := hd 1, off := 0, home := ped0 } }, { thr [] with reqd := [0], bufs := [], stream := some { handle := hd 1, off := 0, home := ped0 } }, { handle := hd 1, off := 0, home := ped0 }, _, req (.burst 0 0) true, obj 1 1 16, _, _,
    by decide +kernel,
    by decide +kernel,
    rfl,
    rfl,
    rfl,
    by decide +kernel,
    rfl,
    rfl,
    by decide +kernel,
    by decide +kernel,
    rfl,
    by decide +kernel⟩,
  ⟨busy (outd 4 (desc 0x05 0 255 1 255 []) .requests), 0, 4, { grain [] with out := [outd 4 (desc 0x05 0 255 1 255 []) .requests] }, outd 4 (desc 0x05 0 255 1 255 []) .requests, thr [], run1, prog,
    by decide +kernel⟩,
  ⟨busy { outd 4 (desc 0x05 0 255 1 255 []) .nothing with held := true }, 0, 4, { grain [] with out := [{ outd 4 (desc 0x05 0 255 1 255 []) .nothing with held := true }] }, { outd 4 (desc 0x05 0 255 1 255 []) .nothing with held := true }, thr [], run1, prog,
    by decide +kernel⟩⟩

theorem witness_IssueMoves : (∃ (op : Nat) (faults : State → Iss → List (Bool × Nat)) (act : Iss → State → State) (g t
    : Nat) (s : State) (i : Iss), issues op faults g t s i) ∧ (∃ (i : Iss) (s : State) (gr : Grain) (c : Ctx) (th :
    Thr), nmGet s.grains i.g = some gr ∧ ctxOf s i.ctx = some c ∧ nmGet gr.thr i.t = some th) :=
  ⟨⟨0x05, (fun _ _ => []), (fun _ s => s), 0, 0, at_ (desc 0x05 0 255 1 255 []), iss (at_ (desc 0x05 0 255 1 255 [])) (desc 0x05 0 255 1 255 []),
    ⟨_, _, _, _, _, rfl, rfl, rfl, rfl, rfl, by decide +kernel, by decide +kernel, by decide +kernel, by decide +kernel, by decide +kernel, by decide +kernel, by decide +kernel, by decide +kernel⟩⟩,
  ⟨iss (at_ (desc 0x05 0 255 1 255 [])) (desc 0x05 0 255 1 255 []), at_ (desc 0x05 0 255 1 255 []), grain (desc 0x05 0 255 1 255 []), { ctx1 with st := .running }, thr (desc 0x05 0 255 1 255 []),
    by decide +kernel⟩⟩

theorem witness_MemoriesKeepForm : ∃ s t : State, memoriesOk s ∧ step s = .next t :=
  ⟨{ up with pending := [.powerOn, .coldStart] }, _,
    ⟨rfl, rfl, fun _ => rfl, rfl, rfl, rfl, rfl, fun _ => rfl⟩,
    rfl⟩

theorem witness_OnlyStoringRowsMoveBytes : (∃ (c : Instr) (rest : List Instr) (s t : State), s.pending = c :: rest ∧
    storesNothing c = true ∧ step s = .next t) ∧ (∃ s t : State, s.pending = [] ∧ step s = .next t) ∧ (∃ s t : State,
    s.pending = [] ∧ step s = .next t ∧ s.clk.pccRun = true) :=
  ⟨⟨.ping 0, [], { up with pending := [.ping 0] }, _,
    by decide +kernel,
    by decide +kernel,
    rfl⟩,
  ⟨up, _,
    by decide +kernel,
    rfl⟩,
  ⟨up, _,
    rfl,
    rfl,
    rfl⟩⟩

theorem witness_StoresReachTheirBytes : (∃ (v : Byte) (l k : Loc) (s : State), memoriesOk s ∧ (∀ p a, l = .hz4 p a → p
    < 2) ∧ (∀ p a, k = .hz4 p a → p < 2)) ∧ (∃ (p q a j : Nat) (b : List Byte) (s : State), memoriesOk s ∧ p < 2 ∧ q <
    2) ∧ (∃ (p : Place) (before after : List BitW) (x : BitW) (k : Nat) (s : State), memoriesOk s ∧ 8 * p.base + x.1 ≤
    k ∧ k < 8 * p.base + x.1 + x.2.1 ∧ (∀ y ∈ after, k < 8 * p.base + y.1 ∨ 8 * p.base + y.1 + y.2.1 ≤ k)) ∧ (∃ (p :
    Place) (ws : List BitW) (k : Nat) (s : State), memoriesOk s ∧ (∀ y ∈ ws, k < 8 * p.base + y.1 ∨ 8 * p.base + y.1 +
    y.2.1 ≤ k)) :=
  ⟨⟨7, .hz4 1 5, .hz4 0 5, up,
    ⟨rfl, rfl, fun _ => rfl, rfl, rfl, rfl, rfl, fun _ => rfl⟩,
    (fun p a h => by cases h; decide +kernel),
    (fun p a h => by cases h; decide +kernel)⟩,
  ⟨1, 0, 5, 6, [7, 8], up,
    ⟨rfl, rfl, fun _ => rfl, rfl, rfl, rfl, rfl, fun _ => rfl⟩,
    by decide +kernel⟩,
  ⟨{ q := 0, base := 32, scratch := 64, cacheUnits := 0, ctx := 1, k := 0 }, [], [(4, 4, 9, false)], (0, 4, 5, false), 259, up,
    ⟨rfl, rfl, fun _ => rfl, rfl, rfl, rfl, rfl, fun _ => rfl⟩,
    by decide +kernel⟩,
  ⟨{ q := 0, base := 32, scratch := 64, cacheUnits := 0, ctx := 1, k := 0 }, [(4, 4, 9, false)], 259, up,
    ⟨rfl, rfl, fun _ => rfl, rfl, rfl, rfl, rfl, fun _ => rfl⟩,
    by decide +kernel⟩⟩

end Sys2Proof.Tests
end

section
/-! PROOFS. The bytes of the memories and the scope of a reset: every step keeps the canonical form (O58), the rows that
store nothing and the gc move no other byte (O59), a stored byte is read back (O60), and what the resets of functions and
of the package leave (O2). -/

namespace Sys2Proof.Machine

open Sys2Proof

/-! ## The canonical form and the frame of the bytes -/

/-- The statements' form of `memOk`, in which the laws of the memories are stated. -/
theorem memoriesOk_iff_memOk (s : State) : memoriesOk s ↔ memOk s := Iff.rfl

/-- The statements' form of equal `mems`, in which the laws of the bytes are stated. -/
theorem sameBytes_of_mems {s t : State} (h : t.mems = s.mems) : sameBytes s t := by
  simp only [State.mems, Hz.mems, Prod.mk.injEq] at h
  obtain ⟨⟨h1, h2, h3, h4, h5⟩, ⟨hA, hB⟩, hls⟩ := h
  exact ⟨h1, h2, h3, h4, h5, hA, hB, congrFun hls⟩

theorem step_of_empty {s : State} (h : s.pending = []) : step s = .next (tick s) := by
  unfold step
  rw [h]

theorem step_of_command {s : State} {c : Instr} {rest : List Instr} (h : s.pending = c :: rest) :
    step s = exec c { s with pending := rest } := by
  unfold step
  rw [h]

/-- A gc with no lane waiting in any store lands none. -/
theorem laneStep_of_no_lanes {s : State} (h : ∀ e ∈ s.phys, e.2.pend = []) : laneStep s = s := by
  have none_left : s.phys.filter (fun e => e.2.pend != []) = [] := by
    rw [List.filter_eq_nil_iff]
    intro e he
    simp [h e he]
  unfold laneStep
  rw [none_left, List.foldl_nil]

theorem tick_of_stopped {s : State} (h : s.clk.pccRun = false) : tick s = s := by
  unfold tick
  rw [if_pos (by simp [h])]

/-- Settles O58: a gc by `ok_tick`, a command by `ok_exec`; taking it from the queue moves no byte. -/
theorem memoriesKeepForm : Obligations.MemoriesKeepForm := by
  intro s t hs hstep
  rw [memoriesOk_iff_memOk] at hs ⊢
  cases hp : s.pending with
  | nil =>
    rw [step_of_empty hp] at hstep
    cases hstep
    exact ok_tick s hs
  | cons c rest =>
    rw [step_of_command hp] at hstep
    exact ok_exec c { s with pending := rest } t hs hstep

/-- Settles O59: a row by `mems_exec`, a gc by `mems_tick` and `mems_eccStep`. -/
theorem onlyStoringRowsMoveBytes : Obligations.OnlyStoringRowsMoveBytes := by
  constructor
  · intro c rest s t hp hn hstep
    rw [step_of_command hp] at hstep
    exact sameBytes_of_mems (mems_exec c { s with pending := rest } t hn hstep)
  · intro s t hp hstep
    rw [step_of_empty hp] at hstep
    cases hstep
    refine ⟨tick_of_stopped, fun hrun => ?_⟩
    have htick : (tick s).mems = (laneStep (eccStep s)).mems := mems_tick s hrun
    refine ⟨sameBytes_of_mems (mems_eccStep s), sameBytes_of_mems htick, fun hnone => sameBytes_of_mems ?_⟩
    calc (tick s).mems = (laneStep (eccStep s)).mems := htick
      _ = (eccStep s).mems := by rw [laneStep_of_no_lanes hnone]
      _ = s.mems := mems_eccStep s

/-! ## A byte of a horizon -/

/-- A byte written on one drive is read back there, and every byte of every drive reads as before but that one. -/
theorem memByte_nmUpdD_memSet (m : NatMap Mem) (d e a b : Nat) (v : Byte) (h : Memory.wf (nmGetD m d []) = true) :
    memByte (nmGetD (nmUpdD d [] (memSet a v) m) e []) b =
      if e = d ∧ b = a then v else memByte (nmGetD m e []) b := by
  by_cases hed : e = d
  · subst hed
    have hget : nmGetD (nmUpdD e [] (memSet a v) m) e [] = memSet a v (nmGetD m e []) := by
      simp [nmUpdD, nmGetD, nmGet_nmSet]
    rw [hget, memByte_memSet _ _ _ _ h]
    simp
  · have hget : nmGetD (nmUpdD d [] (memSet a v) m) e [] = nmGetD m e [] := by
      simp [nmUpdD, nmGetD, nmGet_nmSet_ne _ _ _ _ hed]
    rw [hget, if_neg (fun h => hed h.1)]

/-- Read after write over the locations of the horizons (R7, R193). A port is 0 or 1. -/
theorem locByte_locSet (v : Byte) (l k : Loc) (s : State) (hs : memoriesOk s) (hl : ∀ p a, l = .hz4 p a → p < 2)
    (hk : ∀ p a, k = .hz4 p a → p < 2) : locByte (locSet v l s) k = if k = l then v else locByte s k := by
  obtain ⟨w1, w2, w3, w4, w5, -⟩ := hs
  cases l with
  | hz1 a =>
    cases k with
    | hz1 b => exact (memByte_memSet a b v _ w1).trans (by simp [locByte])
    | _ => rfl
  | hz2 a =>
    cases k with
    | hz2 b => exact (memByte_memSet a b v _ w2).trans (by simp [locByte])
    | _ => rfl
  | hz3 d a =>
    cases k with
    | hz3 e b => exact (memByte_nmUpdD_memSet _ d e a b v (w3 d)).trans (by simp [locByte])
    | _ => rfl
  | hz4 p a =>
    have hp : p = 0 ∨ p = 1 := by have := hl p a rfl; omega
    cases k with
    | hz4 q b =>
      have hq : q = 0 ∨ q = 1 := by have := hk q b rfl; omega
      rcases hp with rfl | rfl <;> rcases hq with rfl | rfl
      · exact (memByte_memSet a b v _ w4).trans (by simp [locByte, hostMem])
      · rfl
      · rfl
      · exact (memByte_memSet a b v _ w5).trans (by simp [locByte, hostMem])
    | _ => rcases hp with rfl | rfl <;> rfl

/-- A byte that is stored moves the memories of the horizons and nothing else. -/
theorem locSet_frame (v : Byte) (l : Loc) (s : State) :
    locSet v l s = { s with hz := (locSet v l s).hz } ∧
    (locSet v l s).hz = { s.hz with
      hz1 := (locSet v l s).hz.hz1, hz2 := (locSet v l s).hz.hz2, hz3 := (locSet v l s).hz.hz3
      host0 := (locSet v l s).hz.host0, host1 := (locSet v l s).hz.host1 } := by
  cases l with
  | hz4 p a => unfold locSet; dsimp only; split <;> exact ⟨rfl, rfl⟩
  | _ => exact ⟨rfl, rfl⟩

/-! ## A run of host memory -/

theorem hostMem_hostWrite_same (p a : Nat) (b : List Byte) (s : State) :
    hostMem (hostWrite p a b s) p = memWrite (hostMem s p) a b := by
  by_cases hp : p = 0
  · subst hp; rfl
  · simp [hostMem, hostWrite, updHz, emit, hp]

theorem hostMem_hostWrite_other (p q a : Nat) (b : List Byte) (s : State) (hp : p < 2) (hq : q < 2) (h : q ≠ p) :
    hostMem (hostWrite p a b s) q = hostMem s q := by
  obtain ⟨rfl, rfl⟩ | ⟨rfl, rfl⟩ : p = 0 ∧ q = 1 ∨ p = 1 ∧ q = 0 := by omega
  · rfl
  · rfl

theorem wf_hostMem {s : State} (hs : memoriesOk s) (p : Nat) : Memory.wf (hostMem s p) = true := by
  obtain ⟨-, -, -, w4, w5, -⟩ := hs
  unfold hostMem
  split
  · exact w4
  · exact w5

/-- Read after write of a run of bytes in the memory of a host (R193). -/
theorem memByte_hostWrite (p q a j : Nat) (b : List Byte) (s : State) (hs : memoriesOk s) (hp : p < 2) (hq : q < 2) :
    memByte (hostMem (hostWrite p a b s) q) j =
      if q = p ∧ a ≤ j ∧ j < a + b.length then b.getD (j - a) 0 else memByte (hostMem s q) j := by
  by_cases h : q = p
  · subst h
    rw [hostMem_hostWrite_same, memByte_memWrite _ _ _ _ (wf_hostMem hs q)]
    simp
  · rw [hostMem_hostWrite_other p q a b s hp hq h, if_neg (fun hh => h hh.1)]

/-- A run written to a host moves the hosts' memories and what the package has sent, and nothing else. -/
theorem hostWrite_frame (p a : Nat) (b : List Byte) (s : State) :
    hostWrite p a b s = { s with hz := (hostWrite p a b s).hz, out := (hostWrite p a b s).out } ∧
    (hostWrite p a b s).hz =
      { s.hz with host0 := (hostWrite p a b s).hz.host0, host1 := (hostWrite p a b s).hz.host1 } := by
  unfold hostWrite
  split <;> exact ⟨rfl, rfl⟩

/-! ## The elements of a local store -/

/-- Elements written one after the other, their bit addresses counted from `b`: what `lsWrite` does to a store. -/
def mergeBits (b : Nat) (ws : List BitW) (m : Mem) : Mem := ws.foldl (fun m w => memBits m (b + w.1) w.2.1 w.2.2.1) m

theorem ls_lsWrite (p : Place) (ws : List BitW) (s : State) :
    (physOf (lsWrite p ws s) p.q).ls = mergeBits (8 * p.base) ws (physOf s p.q).ls := by
  unfold lsWrite
  rw [physOf_updPhys]
  rfl

theorem wf_mergeBits (b : Nat) (ws : List BitW) (m : Mem) (h : Memory.wf m = true) :
    Memory.wf (mergeBits b ws m) = true :=
  wf_foldl _ (fun _ _ hm => wf_memBits _ _ _ _ hm) ws m h

theorem mergeBits_cons (b : Nat) (w : BitW) (ws : List BitW) (m : Mem) :
    mergeBits b (w :: ws) m = mergeBits b ws (memBits m (b + w.1) w.2.1 w.2.2.1) := rfl

theorem mergeBits_append (b : Nat) (ws vs : List BitW) (m : Mem) :
    mergeBits b (ws ++ vs) m = mergeBits b vs (mergeBits b ws m) := List.foldl_append

/-- A bit that no element covers reads as before. -/
theorem memBit_mergeBits_outside (b k : Nat) (ws : List BitW) (m : Mem) (hm : Memory.wf m = true)
    (h : ∀ y ∈ ws, k < b + y.1 ∨ b + y.1 + y.2.1 ≤ k) : memBit (mergeBits b ws m) k = memBit m k := by
  induction ws generalizing m with
  | nil => rfl
  | cons w ws ih =>
    have hw := h w List.mem_cons_self
    rw [mergeBits_cons, ih _ (wf_memBits _ _ _ _ hm) (fun y hy => h y (List.mem_cons_of_mem _ hy)),
      memBit_memBits _ _ _ _ _ hm, if_neg (by omega)]

/-- A bit reads as the last element written over it. -/
theorem memBit_mergeBits_last (b k : Nat) (before after : List BitW) (x : BitW) (m : Mem) (hm : Memory.wf m = true)
    (hlo : b + x.1 ≤ k) (hhi : k < b + x.1 + x.2.1) (h : ∀ y ∈ after, k < b + y.1 ∨ b + y.1 + y.2.1 ≤ k) :
    memBit (mergeBits b (before ++ x :: after) m) k = x.2.2.1.testBit (k - (b + x.1)) := by
  have hb := wf_mergeBits b before m hm
  rw [mergeBits_append, mergeBits_cons, memBit_mergeBits_outside b k after _ (wf_memBits _ _ _ _ hb) h,
    memBit_memBits _ _ _ _ _ hb, if_pos ⟨hlo, hhi⟩]

theorem physOf_lsWrite_other (p : Place) (ws : List BitW) (s : State) (q : Nat) (h : q ≠ p.q) :
    physOf (lsWrite p ws s) q = physOf s q := by
  simp [physOf, lsWrite, updPhys, nmUpdD, nmGetD, nmGet_nmSet_ne _ _ _ _ h]

/-- Of its own store a write of elements moves the bytes and the words' poison. -/
theorem physOf_lsWrite_frame (p : Place) (ws : List BitW) (s : State) :
    physOf (lsWrite p ws s) p.q = { physOf s p.q with
      ls := (physOf (lsWrite p ws s) p.q).ls, poison := (physOf (lsWrite p ws s) p.q).poison } := by
  unfold lsWrite
  rw [physOf_updPhys]

/-- Settles O60, memory by memory: `memByte_memSet` for a byte, `memByte_memWrite` for a run, and `memBit_memBits` along
the list of elements for a local store. -/
theorem storesReachTheirBytes : Obligations.StoresReachTheirBytes := by
  refine ⟨?_, ?_, ?_, ?_, ?_⟩
  · intro v l k s hs hl hk
    exact ⟨_, rfl, locByte_locSet v l k s hs hl hk, locSet_frame v l s⟩
  · intro p q a j b s hs hp hq
    exact ⟨_, rfl, memByte_hostWrite p q a j b s hs hp hq, hostWrite_frame p a b s⟩
  · intro p before after x k s hs hlo hhi hafter
    obtain ⟨-, -, -, -, -, -, -, wls⟩ := hs
    refine ⟨_, rfl, ?_⟩
    rw [ls_lsWrite]
    exact memBit_mergeBits_last _ k before after x _ (wls p.q) hlo hhi hafter
  · intro p ws k s hs hout
    obtain ⟨-, -, -, -, -, -, -, wls⟩ := hs
    rw [ls_lsWrite]
    exact memBit_mergeBits_outside _ k ws _ (wls p.q) hout
  · intro p ws s
    exact ⟨_, rfl, rfl, physOf_lsWrite_other p ws s, physOf_lsWrite_frame p ws s⟩

/-! ## Resets of functions and of the package -/

/-- R324: the commands of the functions that are reset are forgotten. -/
theorem cmds_resetFns (pick : Nat → Bool) (s : State) : ∀ c ∈ (resetFns pick s).cmds, pick c.fn = false := by
  intro c hc
  simpa using (List.mem_filter.1 hc).2

/-- R324: a function that is reset stands in reset, with no slot and with its control register at 0. -/
theorem fnOf_resetFns (pick : Nat → Bool) (s : State) (fn : Nat) (h : fn < 128) (hp : pick fn = true) :
    (fnOf (resetFns pick s) fn).inReset = true ∧ (fnOf (resetFns pick s) fn).slots = [] ∧
      (fnOf (resetFns pick s) fn).ctl = 0 := by
  obtain ⟨f, hf⟩ := resetFns_fn pick s fn h hp
  rw [hf]
  exact ⟨rfl, rfl, rfl⟩

theorem doPfFlr_ready {p : Nat} {s : State} (hp : p ≤ 1) (h : (portOf s p).inReset = false) :
    doPfFlr p s = resetFns (fun f => f / 64 == p) (updPort p (fun x => { x with vfEnable := false }) s) := by
  unfold doPfFlr
  rw [if_neg (by simp [h, hp])]
  rfl

/-- The functions that an FLR of VF v of port p resets. -/
def picksVf (p v f : Nat) : Bool := f / 64 == p && f % 64 != 0 && f % 64 == v

/-- R324: that VF, and no other function. -/
theorem picksVf_iff {p v : Nat} (f : Nat) (hv1 : 1 ≤ v) (hv63 : v ≤ 63) : picksVf p v f = true ↔ f = 64 * p + v := by
  simp only [picksVf, Bool.and_eq_true, beq_iff_eq, bne_iff_ne]
  omega

theorem doVfFlr_one {p : Nat} (v : Nat) {s : State} (hp : p ≤ 1) (h : (portOf s p).inReset = false) :
    doVfFlr p (some v) s = resetFns (picksVf p v) s := by
  unfold doVfFlr
  rw [if_neg (by simp [h, hp])]
  rfl

theorem doVfFlr_all {p : Nat} {s : State} (hp : p ≤ 1) (h : (portOf s p).inReset = false) :
    doVfFlr p none s =
      resetFns (fun f => f / 64 == p && f % 64 != 0) (updPort p (fun x => { x with vfEnable := false }) s) := by
  unfold doVfFlr
  rw [if_neg (by simp [h, hp])]
  simp only [Bool.and_true]
  rfl

/-- R325: with the supplies up a package reset starts the sequence again. -/
theorem packageReset_of_supplies {s : State} (hv : s.clk.vstby = true) (hm : s.clk.mainEn = true) :
    packageReset s = beginCold s := by
  unfold packageReset
  rw [if_pos (by simp [hv, hm])]

theorem doPkgrstOtherPortNoLink_of_request {p : Nat} {s : State} (hp : p ≤ 1) (hl : (portOf s p).linkUp = false)
    (hr : (portOf s (1 - p)).pkgReq = true) : doPkgrstOtherPortNoLink p s = packageReset s := by
  unfold doPkgrstOtherPortNoLink
  rw [if_neg (by simp [hl, hr, hp])]

/-! ## A function's header (R296) -/

theorem length_pciBarWord (s : State) (fn i : Nat) : (pciBarWord s fn i).length = 4 := by
  unfold pciBarWord
  split
  · rfl
  · split
    · exact length_leBytes ..
    · rfl

/-- The six base address registers of a header. -/
theorem length_pciBarWords (s : State) (fn : Nat) : ((List.range 6).flatMap (pciBarWord s fn)).length = 24 := by
  simp [List.length_flatMap, length_pciBarWord]

/-- The 16 bytes of a header before its base addresses. -/
def pciTop (s : State) (fn : Nat) : List Byte :=
  leBytes 2 (if fn % 64 = 0 then 0x1F8C else 0xFFFF) ++ leBytes 2 (if fn % 64 = 0 then 0x0048 else 0xFFFF) ++
    leBytes 2 (pciCommand (fnOf s fn)) ++ leBytes 2 0x10 ++ leBytes 1 (revision s) ++ leBytes 3 0x120000 ++ zeros 4

/-- The 24 bytes of a header after its base addresses. -/
def pciBottom (fn : Nat) : List Byte :=
  zeros 4 ++ leBytes 2 0x1F8C ++ leBytes 2 (if fn % 64 = 0 then 0x0048 else 0x0049) ++ zeros 13 ++ zeros 3

theorem pciHeader_eq (s : State) (fn : Nat) :
    pciHeader s fn = pciTop s fn ++ ((List.range 6).flatMap (pciBarWord s fn) ++ pciBottom fn) := by
  simp only [pciHeader, pciTop, pciBottom, List.append_assoc]

theorem length_pciTop (s : State) (fn : Nat) : (pciTop s fn).length = 16 := rfl

theorem length_pciBottom (fn : Nat) : (pciBottom fn).length = 24 := rfl

theorem length_pciHeader (s : State) (fn : Nat) : (pciHeader s fn).length = 64 := by
  rw [pciHeader_eq, List.length_append, List.length_append, length_pciTop, length_pciBarWords, length_pciBottom]

theorem slice_append_left (a b : List Byte) (off n : Nat) (h : off + n ≤ a.length) :
    slice (a ++ b) off n = slice a off n := by
  unfold slice
  rw [List.drop_append_of_le_length (by omega), List.take_append_of_le_length (by rw [List.length_drop]; omega)]

theorem slice_append_right (a b : List Byte) (off n : Nat) : slice (a ++ b) (a.length + off) n = slice b off n := by
  unfold slice
  rw [List.drop_append, List.drop_eq_nil_of_le (by omega), List.nil_append, Nat.add_sub_cancel_left]

theorem slice_pciHeader_top (s : State) (fn off n : Nat) (h : off + n ≤ 16) :
    slice (pciHeader s fn) off n = slice (pciTop s fn) off n := by
  rw [pciHeader_eq, slice_append_left _ _ _ _ (by rw [length_pciTop]; exact h)]

theorem slice_pciHeader_bottom (s : State) (fn off n : Nat) :
    slice (pciHeader s fn) (40 + off) n = slice (pciBottom fn) off n := by
  have hl : (pciTop s fn ++ (List.range 6).flatMap (pciBarWord s fn)).length = 40 := by
    rw [List.length_append, length_pciTop, length_pciBarWords]
  rw [pciHeader_eq, ← List.append_assoc, ← hl, slice_append_right]

/-- R4, R296: Vendor and Device ID of a PF; those of a VF read as all ones. -/
theorem slice_pciTop_ids (s : State) (fn : Nat) :
    slice (pciTop s fn) 0 4 = if fn % 64 = 0 then [0x8C, 0x1F, 0x48, 0] else [0xFF, 0xFF, 0xFF, 0xFF] := by
  unfold pciTop
  split <;> rfl

/-- R296: Revision ID and Class Code. -/
theorem slice_pciTop_class (s : State) (fn : Nat) :
    slice (pciTop s fn) 8 4 = BitVec.ofNat 8 (revision s) :: [0, 0, 0x12] := by
  have hrev : BitVec.ofNat 8 (revision s % 256) = BitVec.ofNat 8 (revision s) :=
    BitVec.eq_of_toNat_eq (by simp)
  rw [← hrev]
  rfl

/-- R4, R296: Subsystem Vendor and Subsystem ID. -/
theorem slice_pciBottom_subsystem (fn : Nat) :
    slice (pciBottom fn) 4 4 = [0x8C, 0x1F, if fn % 64 = 0 then 0x48 else 0x49, 0] := by
  unfold pciBottom
  split <;> rfl

/-- Settles O2: the resets of functions by what `resetFns` leaves, those of the package by `beginCold`, the identities by
the two ends of a header. -/
theorem functionAndPackageResets : Obligations.FunctionAndPackageResets := by
  refine ⟨?_, ?_, ?_, ?_, ?_, ?_, ?_⟩
  · intro s p hp hready
    refine ⟨_, rfl, ?_⟩
    rw [doPfFlr_ready hp hready]
    refine ⟨fun c hc => ?_, fun fn hfn hport => fnOf_resetFns _ _ fn hfn (by simpa using hport), rfl⟩
    simpa using cmds_resetFns _ _ c hc
  · intro s p v hp hready hv1 hv63
    refine ⟨_, rfl, ?_⟩
    rw [doVfFlr_one v hp hready]
    obtain ⟨hreset, hslots, -⟩ :=
      fnOf_resetFns (picksVf p v) s (64 * p + v) (by omega) ((picksVf_iff _ hv1 hv63).2 rfl)
    refine ⟨fun c hc heq => ?_, hreset, hslots⟩
    have hkept : picksVf p v c.fn = false := cmds_resetFns (picksVf p v) s c hc
    rw [(picksVf_iff c.fn hv1 hv63).2 heq] at hkept
    cases hkept
  · intro s p hp hready
    refine ⟨_, rfl, ?_⟩
    rw [doVfFlr_all hp hready]
    refine ⟨fun fn hfn hport hvf => ?_, rfl⟩
    exact (fnOf_resetFns _ _ fn hfn (by simp [hport, hvf])).1
  · intro s hv hm
    refine ⟨_, rfl, ?_⟩
    unfold doPkgrstPin
    rw [packageReset_of_supplies hv hm]
    exact ⟨rfl, rfl, rfl, rfl, rfl, rfl, rfl⟩
  · intro s p hp hv hm hlink hreq
    refine ⟨_, rfl, ?_⟩
    rw [doPkgrstOtherPortNoLink_of_request hp hlink hreq, packageReset_of_supplies hv hm]
    exact ⟨rfl, rfl, rfl, rfl⟩
  · intro s fn _
    refine ⟨length_pciHeader s fn, ?_, ?_, ?_, ?_⟩
    · rw [slice_pciHeader_top s fn 0 4 (by decide), slice_pciTop_ids]
    · rw [slice_pciHeader_top s fn 8 4 (by decide), slice_pciTop_class]
    · exact (slice_pciHeader_bottom s fn 4 4).trans (slice_pciBottom_subsystem fn)
    · exact slice_pciHeader_bottom s fn 21 1
  · intro s fn hpf
    unfold pciCaps
    simp [hpf]

end Sys2Proof.Machine
end

section
/-! PROOFS. What the rows of a segment do where their conditions hold (O24): its start and its end, the watchdog, the deep
save and restore of a context's scratchpads, and the end of a drain. -/

namespace Sys2Proof.Machine

open Sys2Proof

/-! ## SEGMENT_START (R36, R162, R360) -/

/-- R36: a segment that needs retired hardware completes its SEG_RUN, and what it held is leased anew
(log 111). -/
theorem doSegmentStart_of_degraded {s : State} {ctx n : Nat} {c : Ctx} {r : SegRun} {pl : Plan} {d : SegD}
    (hc : ctxOf s ctx = some c) (hnext : nextSeg s c = some (r, pl, n, d)) (hrun : c.st = .running)
    (hidle : segOf s ctx = none) (hgo : s.err.stopped = none) (hfree : pointHolds c = false)
    (hdeg : segDegraded s ctx d = true) :
    doSegmentStart ctx s = decideLeases (settleLease ctx ((footprint d).filter (leasedTo s ctx))
      (endRun ctx stDEGRADED c.step (earn s))) := by
  unfold doSegmentStart
  simp [hc, hnext, hrun, hidle, hgo, hfree, hdeg]

/-- R162: a segment whose footprint is ready starts once its first bursts are in, which are asked for where `c.first` names
another segment (log 119). -/
theorem doSegmentStart_of_ready {s : State} {ctx n : Nat} {c : Ctx} {r : SegRun} {pl : Plan} {d : SegD}
    (hc : ctxOf s ctx = some c) (hnext : nextSeg s c = some (r, pl, n, d)) (hrun : c.st = .running)
    (hidle : segOf s ctx = none) (hgo : s.err.stopped = none) (hfree : pointHolds c = false)
    (hsound : segDegraded s ctx d = false) (hready : ∀ p ∈ footprint d, ped2Ready s ctx p = true ∧ heldBack s p = false) :
    ∃ u, u = (if (match c.first with | some f => f.cid == r.cid && f.seg == n | none => false) = true then s
        else askFirst ctx r.cid n d s) ∧
      doSegmentStart ctx s =
        if firstIn u ctx r.cid n = true then startSegment ctx r pl n d (endHold ctx (footprint d) u) else u := by
  have hall : (footprint d).all (ped2Ready s ctx) = true := List.all_eq_true.2 fun p hp => (hready p hp).1
  have hnone : (footprint d).any (heldBack s) = false := List.any_eq_false.2 fun p hp => by simp [(hready p hp).2]
  refine ⟨_, rfl, ?_⟩
  unfold doSegmentStart
  simp only [hc, hnext, hrun, hidle, hgo, hfree, hsound, hall, hnone] <;> rfl

/-- R162, R165, R212: what gc 0 adds to the state `u` that the boundary's changes and the step's opening leave. -/
theorem startSegment_of_ctx {s u : State} {ctx n : Nat} {c : Ctx} {r : SegRun} {pl : Plan} {d : SegD}
    (hu : u = openStep ctx (n = 0) pl (if r.ended = 0 then r.seed else none)
      (takeBallast (footprint d) (takeBoundary ctx s))) (hc : ctxOf u ctx = some c) :
    ∃ v seg, v.segs = u.segs ++ [seg] ∧ seg.ctx = ctx ∧ seg.gc0 = u.clk.pcc ∧ seg.seg = n ∧ seg.plan = r.plan ∧
      seg.cid = r.cid ∧ seg.stop = none ∧ seg.status = none ∧ seg.specActive = specOn c ∧ seg.d.length = d.length ∧
      v = { u with segs := v.segs, ctxs := v.ctxs } ∧
      startSegment ctx r pl n d s = c.heldSigs.foldl (fun s e => semAdd ctx e.1 e.2.1 e.2.2
          (logicalId ((footprint d).headD 0) 0) s) (updCtx ctx (fun c => { c with first := none })
        (seg.d.progs.foldl (fun s x => startPed2 ctx c.pmc.smpPeriod x s) (loadEntries seg.d v))) := by
  subst hu
  generalize hstart : startSegment ctx r pl n d s = t
  unfold startSegment at hstart
  extract_lets fp boundary opened lease at hstart
  rw [show ctxOf opened ctx = some c from hc] at hstart
  dsimp -zeta only at hstart
  extract_lets viewed keys seg listed counted started cleared at hstart
  exact ⟨counted, seg, rfl, rfl, rfl, rfl, rfl, rfl, rfl, rfl, rfl, rfl, rfl, hstart.symm⟩

/-! ## SEGMENT_END and SEGMENT_WATCHDOG (R163, R338, R347) -/

theorem doSegmentEnd_of_over {s : State} {ctx : Nat} {r : RunSeg} (hr : segOf s ctx = some r)
    (hgo : s.err.stopped = none) (hover : segOver s r = true) :
    doSegmentEnd ctx s = decideLeases (settleLease ctx (footprint r.d)
      (takeShares (settleFences ctx (endSegment r (earn s))))) := by
  unfold doSegmentEnd
  simp [hr, hgo, hover]

theorem doSegmentWatchdog_of_late {s : State} {ctx : Nat} {r : RunSeg} (hr : segOf s ctx = some r) (hstop : r.stop = none)
    (hlate : 2 * r.d.length ≤ segGc s r) (hover : segOver s r = false) :
    doSegmentWatchdog ctx s = stopSeg ctx .watchdog stSTEP_LOST (r.d.progs.foldl (fun a x => watchdogRec s r x a) s) := by
  unfold doSegmentWatchdog
  simp [hr, hstop, hover, Nat.not_lt.2 hlate]

/-! ## Deep saves and restores (R342, R343) -/

/-- An update of the one save area that keeps its names is what `areaOf` then reads. -/
theorem areaOf_updWhere (s : State) (ctx p : Nat) (f : SaveArea → SaveArea)
    (hctx : ∀ a, (f a).ctx = a.ctx) (hped2 : ∀ a, (f a).ped2 = a.ped2) :
    areaOf { s with saves := updWhere (fun a => a.ctx == ctx && a.ped2 == p) f s.saves } ctx p =
      (areaOf s ctx p).map f :=
  find_updWhere_same s.saves _ f fun a => by rw [hctx, hped2]

/-- R342: with no lane of the context waiting on the ped-2, each grain's scratchpad stands in the save area, and the
residency is given up. -/
theorem doDeepSaveDone_of_quiet {s : State} {ctx p : Nat} {x : LsPart} {a : SaveArea} (hsaving : ctx ∈ (ped2Of s p).saving)
    (hx : lsPartOf s p ctx = some x) (ha : areaOf s ctx p = some a) (hgo : s.err.stopped = none)
    (hquiet : ∀ e ∈ s.phys, e.1 / 256 = p → lanesWait s e.1 (fun x => x.ctx == ctx) = false) :
    ∃ u b, doDeepSaveDone ctx p s = grantResidency p (dropResidency ctx p u) ∧ u = { s with saves := u.saves } ∧
      areaOf u ctx p = some b ∧ b.saved = true ∧
      (∀ k < 250, nmGetD b.data k [] = memMove (x.base * 16384) (scratchOf x) 0
        (physOf s (physId s (logicalId p k))).ls) := by
  have hnone : s.phys.any (fun e => e.1 / 256 == p && lanesWait s e.1 (fun x => x.ctx == ctx)) = false :=
    List.any_eq_false.2 fun e he => by
      by_cases hp : e.1 / 256 = p
      · simp [hquiet e he hp]
      · simp [hp]
  generalize hsave : doDeepSaveDone ctx p s = t
  unfold doDeepSaveDone at hsave
  rw [if_neg (by simp [hsaving, hgo, hnone]), hx] at hsave
  dsimp -zeta only at hsave
  extract_lets store n data bad put saved at hsave
  refine ⟨_, put a, hsave.symm, rfl, ?_, rfl, fun k hk => ?_⟩
  · exact (areaOf_updWhere s ctx p put (fun _ => rfl) (fun _ => rfl)).trans (by rw [ha]; rfl)
  · exact nmGetD_filterMap (fun k => memMove (x.base * 16384) n 0 (store k).ls) _ k (List.mem_range.2 hk)

/-- The two stages of a restore, in the order that DEEP_RESTORE_DONE takes them: the bytes of the save area, then its
poisoned words. -/
theorem doDeepRestoreDone_of_lease {s : State} {ctx p : Nat} {x : LsPart} {a : SaveArea}
    (hrestoring : (ped2Of s p).restoring = true) (hlease : leasedTo s ctx p = true)
    (hx : lsPartOf s p ctx = some x) (ha : areaOf s ctx p = some a) :
    doDeepRestoreDone ctx p s = updPed2 p (fun d => { d with restoring := false })
      (a.bad.foldl (fun s e => updPhys (physId s (logicalId p e.1)) (fun q => { q with
          poison := e.2.foldl (fun l w => addOnce (x.base * 512 + w) l) q.poison }) s)
        (a.data.foldl (fun s e => updPhys (physId s (logicalId p e.1)) (fun q => { q with
          ls := e.2.foldl (fun m b => memSet (x.base * 16384 + b.1) b.2 m) q.ls }) s) s)) := by
  unfold doDeepRestoreDone
  rw [if_neg (by simp [hrestoring, hlease]), hx, ha]

/-- A restore moves the local stores and the ped-2s, and nothing else. -/
theorem doDeepRestoreDone_frame {s : State} {ctx p : Nat} {x : LsPart} {a : SaveArea}
    (hrestoring : (ped2Of s p).restoring = true) (hlease : leasedTo s ctx p = true)
    (hx : lsPartOf s p ctx = some x) (ha : areaOf s ctx p = some a) :
    doDeepRestoreDone ctx p s =
      { s with phys := (doDeepRestoreDone ctx p s).phys, ped2s := (doDeepRestoreDone ctx p s).ped2s } := by
  rw [doDeepRestoreDone_of_lease hrestoring hlease hx ha]
  obtain ⟨bytes, hbytes⟩ := updPhys_foldl_frame a.data (fun s e => physId s (logicalId p e.1))
    (fun e q => { q with ls := e.2.foldl (fun m b => memSet (x.base * 16384 + b.1) b.2 m) q.ls }) s
  rw [hbytes]
  obtain ⟨words, hwords⟩ := updPhys_foldl_frame a.bad (fun s e => physId s (logicalId p e.1))
    (fun e q => { q with poison := e.2.foldl (fun l w => addOnce (x.base * 512 + w) l) q.poison })
    { s with phys := bytes }
  rw [hwords]
  rfl

/-! ## FABRIC_DRAIN_END (R345, R360) -/

/-- A secure point that is open sends its units again (log 44). -/
theorem doFabricDrainEnd_of_draining {s : State} {ctx : Nat} {c : Ctx} (hc : ctxOf s ctx = some c)
    (hdrain : c.draining = true) :
    doFabricDrainEnd ctx s = holdChunks ctx (updCtx ctx (fun c => { c with
      draining := false, sec := { c.sec with resend := c.sec.point.isSome } }) s) := by
  unfold doFabricDrainEnd
  simp [hc, hdrain]

/-- Settles O24: each clause by the lemma of its row. -/
theorem segmentRowsAct : Obligations.SegmentRowsAct := by
  refine ⟨?start, ?gcZero, ?finish, ?watchdog, ?save, ?restore, ?drain⟩
  case start =>
    intro s ctx n c r pl d hc hnext hrun hidle hgo hfree
    refine ⟨fun hdeg => ?_, fun hsound hready => ?_⟩
    · exact congrArg Host.Outcome.next (doSegmentStart_of_degraded hc hnext hrun hidle hgo hfree hdeg)
    · obtain ⟨u, hu, hstart⟩ := doSegmentStart_of_ready hc hnext hrun hidle hgo hfree hsound hready
      exact ⟨u, hu, congrArg Host.Outcome.next hstart⟩
  case gcZero =>
    intro s u ctx n c r pl d hu hc
    exact startSegment_of_ctx hu hc
  case finish =>
    intro s ctx r hr hgo hover
    exact congrArg Host.Outcome.next (doSegmentEnd_of_over hr hgo hover)
  case watchdog =>
    intro s ctx r hr hstop hlate hover
    exact congrArg Host.Outcome.next (doSegmentWatchdog_of_late hr hstop hlate hover)
  case save =>
    intro s ctx p x a hsaving hx ha hgo hquiet
    obtain ⟨u, b, hsave, hframe, harea, hsaved, hdata⟩ := doDeepSaveDone_of_quiet hsaving hx ha hgo hquiet
    exact ⟨_, u, b, rfl, hsave, hframe, harea, hsaved, hdata⟩
  case restore =>
    intro s ctx p x a hrestoring hlease hx ha
    have hrestore := doDeepRestoreDone_of_lease hrestoring hlease hx ha
    refine ⟨_, rfl, ?_, doDeepRestoreDone_frame hrestoring hlease hx ha, hrestore⟩
    rw [hrestore, ped2Of_updPed2]
  case drain =>
    intro s ctx c hc hdrain
    exact congrArg Host.Outcome.next (doFabricDrainEnd_of_draining hc hdrain)

end Sys2Proof.Machine
end

section
/-! PROOFS. Semaphores and their waiters (O36, O37): the waiters keep their order, and a signal serves them one by one. -/

namespace Sys2Proof.Machine

open Sys2Proof

/-! ## Waiters in order (R73) -/

theorem perm_insertWaiter (w : SemWaiter) (l : List SemWaiter) : (insertWaiter w l).Perm (w :: l) := by
  induction l with
  | nil => exact .refl _
  | cons x l ih =>
    unfold insertWaiter
    split
    · exact .refl _
    · exact (ih.cons x).trans (.swap w x l)

theorem mem_insertWaiter {w x : SemWaiter} {l : List SemWaiter} : x ∈ insertWaiter w l ↔ x = w ∨ x ∈ l := by
  rw [(perm_insertWaiter w l).mem_iff, List.mem_cons]

theorem waiterBefore_iff (a b : SemWaiter) : waiterBefore a b = true ↔ a.g < b.g ∨ (a.g = b.g ∧ a.t < b.t) := by
  simp [waiterBefore]

/-- The order is total and transitive: nothing that stands before x stands before w, where w does. -/
theorem not_waiterBefore_of_lt {w x y : SemWaiter} (hwx : waiterBefore w x = true) (hxy : waiterBefore y x = false) :
    waiterBefore y w = false := by
  rw [waiterBefore_iff] at hwx
  rw [Bool.eq_false_iff, Ne, waiterBefore_iff] at hxy ⊢
  omega

theorem waiterBefore_asymm {w x : SemWaiter} (h : waiterBefore w x = true) : waiterBefore x w = false := by
  rw [Bool.eq_false_iff, Ne, waiterBefore_iff]
  rw [waiterBefore_iff] at h
  omega

/-- Settles O37, by induction on the waiters. -/
theorem waitersStayInOrder : Obligations.WaitersStayInOrder := by
  intro w l hl
  refine ⟨?_, perm_insertWaiter w l⟩
  induction l with
  | nil => exact List.pairwise_singleton _ _
  | cons x l ih =>
    obtain ⟨hx, hrest⟩ := List.pairwise_cons.1 hl
    unfold insertWaiter
    split
    case isTrue hwx =>
      refine List.pairwise_cons.2 ⟨fun y hy => ?_, hl⟩
      rcases List.mem_cons.1 hy with rfl | hy
      · exact waiterBefore_asymm hwx
      · exact not_waiterBefore_of_lt hwx (hx y hy)
    case isFalse hwx =>
      refine List.pairwise_cons.2 ⟨fun y hy => ?_, ih hrest⟩
      rcases mem_insertWaiter.1 hy with rfl | hy
      · exact Bool.eq_false_iff.2 hwx
      · exact hx y hy

/-! ## A signal and its grants (R71-R73) -/

/-- What a grant to waiter w leaves of its context. -/
def semTaken (ped : W32) (i : Nat) (w : SemWaiter) (c : Ctx) : Ctx :=
  { semPut ped i (semVal c ped i - w.n) c with waiters := c.waiters.filter (fun x => !(x.g == w.g && x.ser == w.ser)) }

theorem semVal_semTaken (ped : W32) (i : Nat) (w : SemWaiter) (c : Ctx) :
    semVal (semTaken ped i w c) ped i = semVal c ped i - w.n :=
  semVal_put ped i (semVal c ped i - w.n) c

theorem semVal_semTaken_ne (ped q : W32) (i j : Nat) (w : SemWaiter) (c : Ctx) (h : (q, j) ≠ (ped, i)) :
    semVal (semTaken ped i w c) q j = semVal c q j :=
  semVal_put_ne ped q i j (semVal c ped i - w.n) c h

/-- A waiter that the value satisfies takes its n and waits no more; the next ones find what it left. -/
theorem ctxOf_semGrant_take {s : State} {ctx i : Nat} {ped : W32} {w : SemWaiter} {c : Ctx} (ws : List SemWaiter)
    (hc : ctxOf s ctx = some c) (hp : w.ped = ped) (hi : w.idx = i) (hn : w.n ≤ semVal c ped i) :
    ∃ u, semGrant ctx ped i (w :: ws) s = semGrant ctx ped i ws u ∧ ctxOf u ctx = some (semTaken ped i w c) := by
  refine ⟨updOut w.g w.ser (fun o => { o with wait := .nothing }) (updCtx ctx (semTaken ped i w) s), ?_, ?_⟩
  · rw [semGrant, hc]
    exact if_pos (by simp [hp, hi, hn])
  · rw [ctxOf_updOut, ctxOf_updCtx, hc]
    rfl

/-- A waiter that the value does not satisfy is passed over. -/
theorem semGrant_pass {s : State} {ctx i : Nat} {ped : W32} {w : SemWaiter} {c : Ctx} (ws : List SemWaiter)
    (hc : ctxOf s ctx = some c) (hn : semVal c ped i < w.n) :
    semGrant ctx ped i (w :: ws) s = semGrant ctx ped i ws s := by
  rw [semGrant, hc]
  exact if_neg (by simp [hn])

/-- A signal adds, saturating, and then serves the waiters. -/
theorem semAdd_of_ctx {s : State} {ctx i n g : Nat} {ped : W32} {c : Ctx} (hc : ctxOf s ctx = some c) :
    ∃ u, semAdd ctx ped i n g s = semGrant ctx ped i c.waiters u ∧
      ctxOf u ctx = some (semPut ped i (min (semVal c ped i + n) 65535) c) ∧ ∀ x, x ≠ ctx → ctxOf u x = ctxOf s x := by
  refine ⟨updCtx ctx (semPut ped i (min (semVal c ped i + n) 65535))
    (if 65535 < semVal c ped i + n then bump g 0x18 1 s else s), ?_, ?_, fun x hx => ?_⟩
  · unfold semAdd
    rw [hc]
  · rw [ctxOf_updCtx, ctxOf_bump_if, hc]
    rfl
  · rw [ctxOf_updCtx_ne _ _ _ _ hx, ctxOf_bump_if]

/-- Inside no clod a signal is added at once; inside one it is prepared (R374). -/
theorem semSignalAct_of_no_clod {i : Iss} {s : State} (h : clodKeyOf s i.g i.t = none) :
    semSignalAct i s = semAdd i.ctx (canonPed s (pedOperand i (u32 i.d 10))) (u8 i.d 14) (u16 i.d 16) i.g s := by
  unfold semSignalAct
  rw [h]

theorem semSignalAct_of_clod {i : Iss} {s : State} {k : Nat} (h : clodKeyOf s i.g i.t = some k) :
    semSignalAct i s =
      addPrep k i.g 0 (.sem (canonPed s (pedOperand i (u32 i.d 10))) (u8 i.d 14) (u16 i.d 16)) s := by
  unfold semSignalAct
  rw [h]

theorem doSemSignal_of_issues {s : State} {g t : Nat} {i : Iss} (h : issues 0x22 semFaults g t s i) :
    doSemSignal g t s = settle g (semSignalAct i (issueDesc i s)) :=
  issueRow_of_issues semSignalAct h

/-- Settles O36: the waiters are served one after the other, each against what the one before it left. -/
theorem semaphoreSignals : Obligations.SemaphoreSignals := by
  refine ⟨?alone, ?served, ?waits, ?two, ?wait, ?signal, ?prepared⟩
  case alone =>
    intro s ctx i n g ped c hc hnone
    obtain ⟨u, hadd, hu, hother⟩ := semAdd_of_ctx (i := i) (n := n) (g := g) (ped := ped) hc
    rw [show semAdd ctx ped i n g s = u by rw [hadd, hnone, semGrant]]
    exact ⟨_, hu, semVal_put .., fun q j h => semVal_put_ne _ _ _ _ _ _ h, rfl, hother⟩
  case served =>
    intro s ctx i n g ped c w hc hw hp hi hn
    obtain ⟨u, hadd, hu, -⟩ := semAdd_of_ctx (i := i) (n := n) (g := g) (ped := ped) hc
    obtain ⟨v, hgrant, hv⟩ := ctxOf_semGrant_take [] hu hp hi ((semVal_put ..).symm ▸ hn)
    rw [hadd, hw, hgrant]
    refine ⟨_, hv, ?_, by rw [semVal_semTaken, semVal_put], fun q j h => ?_⟩
    · simp [semTaken, semPut_waiters, hw]
    · rw [semVal_semTaken_ne _ _ _ _ _ _ h, semVal_put_ne _ _ _ _ _ _ h]
  case waits =>
    intro s ctx i n g ped c w hc hw _ _ hn
    obtain ⟨u, hadd, hu, -⟩ := semAdd_of_ctx (i := i) (n := n) (g := g) (ped := ped) hc
    rw [hadd, hw, semGrant_pass [] hu ((semVal_put ..).symm ▸ hn)]
    exact ⟨_, hu, hw, semVal_put ..⟩
  case two =>
    intro s ctx i n g ped c v w hc hw hp hi _ _ hne hn hlt
    obtain ⟨u, hadd, hu, -⟩ := semAdd_of_ctx (i := i) (n := n) (g := g) (ped := ped) hc
    obtain ⟨t, hgrant, ht⟩ := ctxOf_semGrant_take [w] hu hp hi ((semVal_put ..).symm ▸ hn)
    have hleft : semVal (semTaken ped i v (semPut ped i (min (semVal c ped i + n) 65535) c)) ped i =
        min (semVal c ped i + n) 65535 - v.n := by rw [semVal_semTaken, semVal_put]
    rw [hadd, hw, hgrant, semGrant_pass [] ht (by omega)]
    refine ⟨_, ht, ?_, hleft⟩
    simp [semTaken, semPut_waiters, hw, hne.symm]
  case wait =>
    intro s g t i h
    exact congrArg Host.Outcome.next (issueRow_of_issues semWaitAct h)
  case signal =>
    intro s g t i h hclod
    exact congrArg Host.Outcome.next ((doSemSignal_of_issues h).trans (by rw [semSignalAct_of_no_clod hclod]))
  case prepared =>
    intro s g t k i h hclod
    exact congrArg Host.Outcome.next ((doSemSignal_of_issues h).trans (by rw [semSignalAct_of_clod hclod]))

end Sys2Proof.Machine
end

section
/-! PROOFS. What issuing a descriptor moves (O57): the frame of issuing, and the descriptor that joins the outstanding ones. -/

namespace Sys2Proof.Machine

open Sys2Proof

/-! ## What issuing moves (R40, R41, R52) -/

theorem issFrame_issueDesc (i : Iss) (s : State) : IssFrame s (issueDesc i s) := by
  unfold issueDesc
  split
  case h_2 => exact .refl s
  case h_1 gr c hgr hc =>
  split
  case h_1 => exact .refl s
  case h_2 th hth =>
  extract_lets op paired pos again done1 sampling o s1 s2 s3 s4 s5 s6 s7 e s8 s9
  have h1 : IssFrame s s1 := ⟨rfl, rfl⟩
  have h2 : IssFrame s1 s2 := issFrame_ite _ _ _ _ (issFrame_updGrain ..) (.refl _)
  have h3 : IssFrame s2 s3 := issFrame_updGrain ..
  have h4 : IssFrame s3 s4 := issFrame_updThr ..
  have h5 : IssFrame s4 s5 := issFrame_ite _ _ _ _ (.refl _) (issFrame_moveTo ..)
  have h6 : IssFrame s5 s6 := issFrame_updThr ..
  have h7 : IssFrame s6 s7 :=
    issFrame_ite _ _ _ _ ((issFrame_requestBurst ..).trans (issFrame_requestBurst ..)) (.refl _)
  have h8 : IssFrame s7 s8 := issFrame_ite _ _ _ _ (issFrame_bumpT ..) (.refl _)
  have h9 : IssFrame s8 s9 := issFrame_bumpT ..
  have h10 : IssFrame s9 (if dMark i.d = true then bumpT i.g (some i.t) e 0x09 1 s9 else s9) :=
    issFrame_ite _ _ _ _ (issFrame_bumpT ..) (.refl _)
  exact h1.trans <| h2.trans <| h3.trans <| h4.trans <| h5.trans <| h6.trans <| h7.trans <| h8.trans <| h9.trans h10

theorem updGrain_get_some {g : Nat} {f : Grain → Grain} {s : State} {gr : Grain} (h : nmGet s.grains g = some gr) :
    nmGet (updGrain g f s).grains g = some (f gr) :=
  (updGrain_get ..).trans (congrArg (Option.map f) h)

theorem retryPoint_out (pos : Nat) (again : Bool) (gr : Grain) : (retryPoint pos again gr).out = gr.out := rfl

theorem retryPoint_thr (pos : Nat) (again : Bool) (gr : Grain) : (retryPoint pos again gr).thr = gr.thr := rfl

/-- A retry point that the array may record ahead of its descriptor changes neither the outstanding descriptors of the
grain nor its threads (R90). -/
theorem grain_retryPoint_if (b : Prop) [Decidable b] {g pos : Nat} {again : Bool} {s : State} {gr : Grain}
    (h : nmGet s.grains g = some gr) :
    ∃ gr', nmGet (if b then updGrain g (retryPoint pos again) s else s).grains g = some gr' ∧
      gr'.out = gr.out ∧ gr'.thr = gr.thr := by
  split
  · exact ⟨_, updGrain_get_some h, retryPoint_out .., retryPoint_thr ..⟩
  · exact ⟨gr, h, rfl, rfl⟩

/-- Issuing takes the next serial, adds one descriptor behind the outstanding ones and moves the thread on, unless the
array issues the descriptor again (R90). -/
theorem issueDesc_of_thread {i : Iss} {s : State} {gr : Grain} {c : Ctx} {th : Thr} (hgr : nmGet s.grains i.g = some gr)
    (hc : ctxOf s i.ctx = some c) (hth : nmGet gr.thr i.t = some th) :
    ∃ out o, out.length = gr.out.length ∧ o.ser = i.ser ∧ o.t = i.t ∧ o.desc = i.d ∧ o.issue = s.clk.pcc ∧
      o.wait = .nothing ∧ Track (s.nextSer + 1) i.g i.t (out ++ [o]) (if isRedo th then th.pos else th.pos + 1)
        (if blocking (dOp i.d) then .waitSync else .ready) (issueDesc i s) := by
  unfold issueDesc
  simp -zeta only [hgr, hc, hth]
  extract_lets op paired pos again done1 sampling o s1 s2 s3 s4 s5 s6 s7 e s8 s9
  obtain ⟨out, hlen, h3⟩ : ∃ out, out.length = gr.out.length ∧
      Track (s.nextSer + 1) i.g i.t (out ++ [o]) th.pos th.st s3 := by
    obtain ⟨gr2, hgr2, hout2, hthr2⟩ : ∃ gr2, nmGet s2.grains i.g = some gr2 ∧ gr2.out = gr.out ∧ gr2.thr = gr.thr :=
      grain_retryPoint_if _ (s := s1) hgr
    have hser : s2.nextSer = s.nextSer + 1 := by dsimp only [s2]; split <;> rfl
    refine ⟨_, ?_, hser, _, th, updGrain_get_some hgr2, rfl, hthr2.symm ▸ hth, rfl, rfl⟩
    rw [apply_ite List.length, updWhere_length, ite_self, hout2]
  generalize hst : (if blocking (dOp i.d) = true then TSt.waitSync else TSt.ready) = st
  generalize hp : (if isRedo th = true then th.pos else th.pos + 1) = p
  have h4 : Track (s.nextSer + 1) i.g i.t (out ++ [o]) th.pos st s4 :=
    track_moves h3 _ _ _ (fun _ h => h) (fun _ _ => hst)
  have h5 : Track (s.nextSer + 1) i.g i.t (out ++ [o]) p st s5 := by
    dsimp only [s5]
    split
    case isTrue hagain => exact ((if_pos hagain).symm.trans hp) ▸ h4
    case isFalse hfirst => exact track_moves h4 _ _ _ (fun _ _ => (if_neg hfirst).symm.trans hp) (fun _ h => h)
  have h6 : Track (s.nextSer + 1) i.g i.t (out ++ [o]) p st s6 :=
    track_updThr h5 _ (fun _ => (apply_ite Thr.pos ..).trans (ite_self _)) (fun _ => (apply_ite Thr.st ..).trans (ite_self _))
  have h7 : Track (s.nextSer + 1) i.g i.t (out ++ [o]) p st s7 :=
    track_ite _ _ _ (track_requestBurst (track_requestBurst h6 _) _) h6
  have h8 : Track (s.nextSer + 1) i.g i.t (out ++ [o]) p st s8 := track_ite _ _ _ (track_bumpT h7 ..) h7
  have h9 : Track (s.nextSer + 1) i.g i.t (out ++ [o]) p st s9 := track_bumpT h8 ..
  exact ⟨out, o, hlen, rfl, rfl, rfl, rfl, rfl, track_ite _ _ _ (track_bumpT h9 ..) h9⟩

/-- Issuing stores nothing in a local store. -/
theorem ls_issueDesc (i : Iss) (s : State) (q : Nat) : (physOf (issueDesc i s) q).ls = (physOf s q).ls :=
  congrFun (congrArg (fun m => m.2.2) (mems_issueDesc i s)) q

/-- Settles O57: the row is its act on the issued state, whose frame and whose new descriptor the lemmas above give. -/
theorem issueMoves : Obligations.IssueMoves := by
  refine ⟨fun op faults act g t s i h => issueRow_of_issues act h, fun i s => ?_, fun i s gr c th hgr hc hth => ?_⟩
  · obtain ⟨hstate, hhz⟩ := issFrame_issueDesc i s
    exact ⟨_, rfl, hstate, ls_issueDesc i s, hhz⟩
  · obtain ⟨out, o, hlen, hser, ht, hdesc, hissue, hwait, hnext, gr', th', hgr', hout, hth', hpos, hst⟩ :=
      issueDesc_of_thread hgr hc hth
    refine ⟨_, gr', o, th', rfl, hnext, hgr', by rw [hout, List.getLast?_concat], by rw [hout]; simp [hlen],
      hser, ht, hdesc, hissue, hwait, hth', fun hredo => ?_, hst⟩
    rw [hpos, if_neg (by simp [isRedo, hredo])]

end Sys2Proof.Machine
end

section
/-! PROOFS. What holds a thread's next descriptor (O55), one cause after the other, and what a thread that waits moves. -/

namespace Sys2Proof.Machine

open Sys2Proof

/-! ## What holds a descriptor before its issue (R40, R41, R45, R55) -/

section
variable {s : State} {gr : Grain} {t : Nat} {th : Thr} {r : RunSeg} {p : Bool} {d : List Byte}

theorem waitBefore_of_blocking {o : OutD} (hredo : isRedo th = false)
    (ho : (outOf gr t).find? (fun o => blocking (dOp o.desc)) = some o) :
    waitBefore s gr t th r p d = some (.waitSync, blockCause s gr (outOf gr t) o) := by
  simp [waitBefore, hredo, ho]

theorem waitBefore_of_window (hfree : ∀ o ∈ outOf gr t, blocking (dOp o.desc) = false) (hfull : 4 ≤ (outOf gr t).length) :
    waitBefore s gr t th r p d = some (.waitWindow, windowCause s gr (outOf gr t)) := by
  simp [waitBefore, find_blocking_none hfree, hfull]

theorem waitBefore_of_ord (hfree : ∀ o ∈ outOf gr t, blocking (dOp o.desc) = false) (hroom : (outOf gr t).length < 4)
    (hord : dOrd d = true) (hredo : th.redo = []) (hout : outOf gr t ≠ []) :
    waitBefore s gr t th r p d = some (.waitSync, heldOldest s gr (outOf gr t)) := by
  simp [waitBefore, find_blocking_none hfree, Nat.not_le.2 hroom, hord, hredo, hout]

/-- With no ORD flag, or with nothing outstanding before the descriptor, ORD holds nothing. -/
theorem ord_passes {before : List OutD} (h : dOrd d = false ∨ before = []) : (dOrd d && before != []) = false := by
  rcases h with h | h <;> simp [h]

theorem waitBefore_of_notBefore (hfree : ∀ o ∈ outOf gr t, blocking (dOp o.desc) = false)
    (hroom : (outOf gr t).length < 4) (hord : dOrd d = false ∨ outOf gr t = []) (hredo : th.redo = [])
    (hearly : segGc s r < dNotBefore d) : waitBefore s gr t th r p d = some (.waitTime, 0) := by
  have hpass := ord_passes hord
  simp [waitBefore, find_blocking_none hfree, Nat.not_le.2 hroom, hpass, hredo, isRedo, hearly]

theorem waitBefore_of_empty_fifo (hfree : ∀ o ∈ outOf gr t, blocking (dOp o.desc) = false)
    (hroom : (outOf gr t).length < 4) (hord : dOrd d = false ∨ outOf gr t = []) (hcome : dNotBefore d ≤ segGc s r)
    (hpaired : p = true) (hok : pqBad t d = false) (hpop : pqPop d = true) (hempty : gr.fifos.getD (pqPopQ d) 0 = 0) :
    waitBefore s gr t th r p d = some (.waitSync, 0x07) := by
  unfold waitBefore
  extract_lets mine before
  have hpass : (dOrd d && before != []) = false := ord_passes <| hord.imp_right fun hout => by
    dsimp only [before, mine]
    rw [hout]
    split <;> rfl
  simp only [mine, find_blocking_none hfree, ite_self, Nat.not_le.2 hroom, hpass, Nat.not_lt.2 hcome, hpaired, hok, hpop,
    hempty, decide_false, Bool.and_false, Bool.not_false, Bool.and_self, if_false, if_true, decide_true,
    Bool.false_eq_true]

end

/-- A descriptor that nothing but its engine holds waits for the engine (R40). -/
theorem issueRow_of_engineBusy {pick : List Byte → Bool} {faults : State → Iss → List (Bool × Nat)}
    {act : Iss → State → State} {g t : Nat} {s : State} {gr : Grain} {th : Thr} {r : RunSeg} {x : Prog} {d : List Byte}
    (hturn : atTurn g t s gr th r x d) (hpick : pick d = true) (hnone : waitBefore s gr t th r x.paired d = none)
    (hbusy : engineBusy s gr t r x.paired (engineOf (dOp d)) = true) :
    issueRow pick faults act g t s = setWait g t (.waitEngine, 0x03) s := by
  obtain ⟨hgr, hth, hr, hx, hstream, hlive, hnext, hskip⟩ := hturn
  obtain ⟨st, hst⟩ := Option.isSome_iff_exists.1 hstream
  simp [issueRow, hgr, hth, hr, hx, hst, hlive, hnext, hpick, hskip, hnone, hbusy]

/-- A burst that is not held leaves the thread waiting for it (R52). -/
theorem issueRow_of_no_burst {pick : List Byte → Bool} {faults : State → Iss → List (Bool × Nat)}
    {act : Iss → State → State} {g t : Nat} {s : State} {gr : Grain} {th : Thr} {r : RunSeg} {x : Prog} {st : Stream}
    (hgr : nmGet s.grains g = some gr) (hth : nmGet gr.thr t = some th) (hr : segOf s gr.ctx = some r)
    (hx : progOf r gr.ped2 = some x) (hst : th.stream = some st) (hlive : live s gr th = true)
    (hnone : nextDesc s g gr th = none) (hburst : burstExists s gr.ctx g st (th.pos / 8) = true) :
    issueRow pick faults act g t s = settle g s := by
  simp [issueRow, hgr, hth, hr, hx, hst, hlive, hnone, hburst]

/-- A change of one grain moves nothing but that grain. -/
theorem updGrain_frame (g : Nat) (f : Grain → Grain) (s : State) :
    ∃ y, updGrain g f s = { s with grains := y } ∧ nmGet y g = (nmGet s.grains g).map f ∧
      ∀ k, k ≠ g → nmGet y k = nmGet s.grains k :=
  ⟨_, rfl, nmGet_nmUpd .., fun _ h => nmGet_nmUpd_ne _ _ _ _ h⟩

theorem setWait_frame {g : Nat} {s : State} {gr : Grain} (t : Nat) (w : TSt × Nat) (hgr : nmGet s.grains g = some gr) :
    ∃ y, setWait g t w s = { s with grains := y } ∧
      nmGet y g = some { gr with thr := nmUpd t (fun th => { th with st := w.1, cause := w.2 }) gr.thr } ∧
      ∀ k, k ≠ g → nmGet y k = nmGet s.grains k := by
  obtain ⟨y, hy, hg, hother⟩ := updGrain_frame g
    (fun gr => { gr with thr := nmUpd t (fun th => { th with st := w.1, cause := w.2 }) gr.thr }) s
  exact ⟨y, hy, hg.trans (congrArg (Option.map _) hgr), hother⟩

/-- Settles O55: each cause by what `waitBefore` says of it. -/
theorem heldDescriptors : Obligations.HeldDescriptors := by
  refine ⟨fun pick faults act g t s gr th r x d hturn hpick => ?held,
    fun _ _ _ _ _ _ _ _ _ _ _ hgr hth hr hx hst hlive hnone hburst =>
      issueRow_of_no_burst hgr hth hr hx hst hlive hnone hburst,
    fun g s => updGrain_frame g (settled s g) s, fun s gr t th r p d hlive => ?state⟩
  case held =>
    have hwait (w : TSt × Nat) : waitBefore s gr t th r x.paired d = some w →
        issueRow pick faults act g t s = setWait g t w s := issueRow_waits pick faults act g t s gr th r x d hturn hpick w
    exact ⟨fun o hredo ho => hwait _ (waitBefore_of_blocking hredo ho),
      fun hfree hfull => hwait _ (waitBefore_of_window hfree hfull),
      fun hfree hroom hord hredo hout => hwait _ (waitBefore_of_ord hfree hroom hord hredo hout),
      fun hfree hroom hord hredo hearly => hwait _ (waitBefore_of_notBefore hfree hroom hord hredo hearly),
      fun hfree hroom hord hcome hpaired hok hpop hempty =>
        hwait _ (waitBefore_of_empty_fifo hfree hroom hord hcome hpaired hok hpop hempty),
      fun hnone hbusy => issueRow_of_engineBusy hturn hpick hnone hbusy,
      fun w => setWait_frame t w hturn.1⟩
  case state =>
    refine ⟨fun w hw => ?_, fun hnone hfree => ?_⟩
    · simp [heldNow, hlive, hw]
    · simp [heldNow, hlive, hnone, hfree]

end Sys2Proof.Machine
end

section
/-! PROOFS. The rows of the vector unit, of the SYN engine and of the patrol (O21, O25), each where its conditions hold. -/

namespace Sys2Proof.Machine

open Sys2Proof

/-! ## The vector unit (R61, R127-R154) -/

theorem vecAct_of_no_element {i : Iss} {s : State} (h : nelem i.vc = 0) : vecAct i s = noEffect i s := by
  simp [vecAct, vecEmpty, h]

theorem vecDo_of_vec {i : Iss} {s : State} (lines : List (Nat × List Byte × Bool)) (h : dOp i.d = 0x05) :
    vecDo i lines s = vecWork i lines (setWaitFor i .nothing s) := if_pos h

/-- With no cache line to touch, the descriptor runs on the lines that it holds. -/
theorem vecAct_of_no_lines {i : Iss} {s : State} {o : OutD} (hsome : nelem i.vc ≠ 0) (hlines : vecLines s i = [])
    (ho : outDOf s i.g i.ser = some o) : vecAct i s = vecDo i o.lines s := by
  have hempty : vecEmpty i = false := by simpa [vecEmpty] using hsome
  rw [vecAct, hempty, hlines, touchLines, ho]
  rfl

/-- A request's tag and place are free again (R204). -/
def freeReq (q : Req) (s : State) : State := updHz (fun h => { h with reqs := h.reqs.filter (fun x => x.id != q.id) }) s

/-- A fill that is due goes to the grain's CCH slots, unless its line is still on its way back (R61). -/
theorem doCacheFillDone_of_fill {s u : State} {g t va : Nat} {gr : Grain} {q : Req} {ob : Obj} {f : Nat → Byte × Bool}
    (hgr : nmGet s.grains g = some gr) (hq : s.hz.reqs.find? (fun q => q.g == g && mayServe s q &&
      (match q.kind with | .fill u _ => u == t | _ => false)) = some q) (hkind : q.kind = .fill t va)
    (hob : objOf s q.handle = some ob)
    (hread : (f, u) = sourceRead q ob ((List.range 64).map (fun i => va - ob.base + i)) q.ans (freeReq q s)) :
    doCacheFillDone g t s = if backOpen s g ob va then s else queueLanes (physId s g)
      { id := 0, ser := q.ser, ctx := gr.ctx, g := g, why := .fill va, issue := s.clk.pcc, owner := 5, far := false
        view := 0xFF, all := lineBits (((List.range 64).map (fun i => va - ob.base + i)).map f), ws := []
        rd := lineLanes (placeOf (freeReq q s) g) va } u := by
  unfold freeReq at hread ⊢
  unfold doCacheFillDone
  rw [hgr]
  dsimp only
  split
  case h_1 hnone => exact absurd (hnone.symm.trans hq) (by simp)
  case h_2 q' hq' =>
    obtain rfl : q' = q := Option.some.inj (hq'.symm.trans hq)
    rw [hkind, hob]
    dsimp only
    rw [← hread]
    rfl

theorem doVectorCheckFault_of_vector {s : State} {g ser elem : Nat} {gr : Grain} {o : OutD}
    (hgr : nmGet s.grains g = some gr) (ho : gr.out.find? (fun o => o.ser == ser) = some o)
    (hvec : engineOf (dOp o.desc) = some 3) :
    doVectorCheckFault g ser elem s = stopSeg gr.ctx .vectorCheck stSTEP_LOST (takeStrike g
      (postRec 0x04 2 (some gr.ctx) (dieOfPed2 gr.ped2) g [(0, 8, o.daddr.toNat), (8, 1, o.t), (12, 4, elem)] s)) := by
  unfold doVectorCheckFault
  rw [hgr]
  dsimp only
  rw [ho]
  dsimp only
  rw [hvec]
  rfl

/-- Settles O21: each row by what issuing it, or its event, does. -/
theorem vectorRowsAct : Obligations.VectorRowsAct := by
  refine ⟨?vec, ?deriv, ?rng, ?route, ?empty, ?runs, ?fill, ?fault⟩
  case vec => intro s g t i h; exact congrArg Host.Outcome.next (issueRow_of_issues vecAct h)
  case deriv => intro s g t i h; exact congrArg Host.Outcome.next (issueRow_of_issues vecAct h)
  case rng => intro s g t i h; exact congrArg Host.Outcome.next (issueRow_of_issues vecAct h)
  case route => intro s g t i h; exact congrArg Host.Outcome.next (issueRow_of_issues vecAct h)
  case empty =>
    intro s g t i h hnone
    exact congrArg Host.Outcome.next ((issueRow_of_issues vecAct h).trans (by rw [vecAct_of_no_element hnone]))
  case runs =>
    intro s g t i o h hsome hlines ho
    exact congrArg Host.Outcome.next ((issueRow_of_issues vecAct h).trans
      (by rw [vecAct_of_no_lines hsome hlines ho, vecDo_of_vec _ (issues_dOp h)]))
  case fill =>
    intro s u g t va gr q ob f hgr hq hkind hob hread
    exact congrArg Host.Outcome.next (doCacheFillDone_of_fill hgr hq hkind hob hread)
  case fault =>
    intro s g ser elem gr o hgr ho hvec
    exact congrArg Host.Outcome.next (doVectorCheckFault_of_vector hgr ho hvec)

/-! ## Cut-offs of guarded fetches (R185) -/

theorem cutoffs_of_one {s : State} {g t n ser : Nat} (h : dueGuards s g t n = [ser]) : cutoffs g t n s = cutoff g ser n s := by
  rw [cutoffs, h]
  rfl

/-! ## Clods and tasks (R178, R373-R377) -/

theorem clodCommitAct_of_clod {i : Iss} {s : State} {k : Nat} (h : clodKeyOf s i.g i.t = some k) :
    clodCommitAct i s =
      setWaitFor i (.clod k) (updClod k (fun c => { c with committed := addOnce i.g c.committed }) s) := by
  rw [clodCommitAct, h]

theorem clodAbortAct_of_clod {i : Iss} {s : State} {k : Nat} (h : clodKeyOf s i.g i.t = some k) :
    clodAbortAct i s = updThr i.g i.t (fun th => { th with clod := none })
      (updClod k (fun c => { c with committed := addOnce i.g c.committed, explicitAbort := true }) s) := by
  rw [clodAbortAct, h]

/-- A clod of which no part failed commits: everything it prepared takes effect (R375). -/
theorem doClodDecision_of_commit {s : State} {ctx key : Nat} {c : Clod}
    (hc : s.clods.find? (fun c => c.key == key && c.ctx == ctx) = some c) (hready : clodReady s c = true)
    (hfailed : c.failed = none) (habort : c.explicitAbort = false) :
    doClodDecision ctx key s = releaseCommits key 0 (clodAbortRec c (applyAllS ctx c.preps
      ((clodTargets c).foldl (fun s d => emit (.clodDecision d key true) s)
        { s with clods := s.clods.filter (fun x => x.key != key) }))) := by
  have hall : c.preps.filter (fun _ => true) = c.preps := List.filter_eq_self.2 fun _ _ => rfl
  simp only [doClodDecision, hc, hready, hfailed, habort, Option.isNone_none, Bool.not_true, Bool.not_false, Bool.and_self,
    Bool.true_or, Bool.false_eq_true, if_false, if_true, hall]

/-- A task begins in SPEC where speculation is on (R178). -/
theorem specBeginAct_of_active {i : Iss} {s : State} (h : i.r.specActive = true) :
    specBeginAct i s = updThr i.g i.t (fun th => { th with
      spec := .spec, heldSig := []
      task := some { stage := u32 i.d 12, stageLen := u32 i.d 16, first := i.pos + 1, size := u16 i.d 10,
                     left := u16 i.d 10, altLeft := 0 } }) s := by
  simp only [specBeginAct, h, if_true]

/-! ## The patrol (R59) -/

/-- The bank's next row is checked, and the patrol goes on to the row after it, from the last to the first. -/
def patrolled (bank row : Nat) (r : EccResult) (x : Phys) : Phys :=
  { x with
    patrol := (doPatrolScrubSlot.pad4 x.patrol).set bank ((row + 1) % 768)
    poison := if r = .uncorrectable then addOnce (4 * row + bank) x.poison else x.poison }

/-- A corrected error counts at the ped-2 and at the package (R58). -/
def countCorrected (p : Nat) (s : State) : State :=
  { updPed2 p (fun p => { p with corr := p.corr + 1 }) s with err := { s.err with cCe := s.err.cCe + 1 } }

theorem corr_countCorrected (p : Nat) (s : State) : (ped2Of (countCorrected p s) p).corr = (ped2Of s p).corr + 1 :=
  congrArg Ped2.corr (ped2Of_updPed2 s p fun x => { x with corr := x.corr + 1 })

theorem doPatrolScrubSlot_of_bank0 {s : State} {g : Nat} (r : EccResult) (hassigned : assigned s g = true)
    (hdbg : s.sec.dbg = false) (hslot : scrubSlot s (physId s g / 256) 0 = true) :
    doPatrolScrubSlot g [r] s =
      if r = .corrected then
        countCorrected (logicalPed2 g) (updPhys (physId s g) (patrolled 0 ((physOf s (physId s g)).patrol.getD 0 0) r) s)
      else updPhys (physId s g) (patrolled 0 ((physOf s (physId s g)).patrol.getD 0 0) r) s := by
  simp only [doPatrolScrubSlot, hassigned, hdbg, hslot, List.zip_cons_cons, List.zip_nil_left, List.filter_cons_of_pos,
    List.filter_nil, List.foldl_cons, List.foldl_nil, Bool.not_true, Bool.false_and, Bool.or_self, Bool.false_eq_true,
    if_false]
  rfl

theorem head?_patrol_patrolled (row : Nat) (r : EccResult) (x : Phys) :
    (patrolled 0 row r x).patrol.head? = some ((row + 1) % 768) := by
  have hlen : 0 < (doPatrolScrubSlot.pad4 x.patrol).length := by simp [doPatrolScrubSlot.pad4]; omega
  rw [patrolled, List.head?_eq_getElem?, List.getElem?_set_self hlen]

/-- Settles O25: each descriptor by its issue, each event by the lemma of its row. -/
theorem syncRowsAct : Obligations.SyncRowsAct := by
  refine ⟨?barrier, ?deadline, ?due, ?rung2, ?rung3, ?clodBegin, ?clodCommit, ?clodAbort, ?decision, ?specBegin,
    ?specResolve, ?secureMark, ?pmcMark, ?clean, ?corrected⟩
  case barrier => intro s g t i h; exact congrArg Host.Outcome.next (issueRow_of_issues barrierAct h)
  case deadline => intro s g t i h; exact congrArg Host.Outcome.next (issueRow_of_issues deadlineAct h)
  case due => intro s g t ser h; exact congrArg Host.Outcome.next (cutoffs_of_one h)
  case rung2 => intro s g t ser h; exact congrArg Host.Outcome.next (cutoffs_of_one h)
  case rung3 => intro s g t ser h; exact congrArg Host.Outcome.next (cutoffs_of_one h)
  case clodBegin => intro s g t i h; exact congrArg Host.Outcome.next (issueRow_of_issues clodBeginAct h)
  case clodCommit =>
    intro s g t k i h hclod
    exact congrArg Host.Outcome.next ((issueRow_of_issues clodCommitAct h).trans (by rw [clodCommitAct_of_clod hclod]))
  case clodAbort =>
    intro s g t k i h hclod
    exact congrArg Host.Outcome.next ((issueRow_of_issues clodAbortAct h).trans (by rw [clodAbortAct_of_clod hclod]))
  case decision =>
    intro s ctx key c hc hready hfailed habort
    exact congrArg Host.Outcome.next (doClodDecision_of_commit hc hready hfailed habort)
  case specBegin =>
    intro s g t i h hactive
    exact congrArg Host.Outcome.next ((issueRow_of_issues specBeginAct h).trans (by rw [specBeginAct_of_active hactive]))
  case specResolve => intro s g t i h; exact congrArg Host.Outcome.next (issueRow_of_issues specResolveAct h)
  case secureMark => intro s g t i h; exact congrArg Host.Outcome.next (issueRow_of_issues secureMarkAct h)
  case pmcMark => intro s g t i h; exact congrArg Host.Outcome.next (issueRow_of_issues pmcMarkAct h)
  case clean =>
    intro s g hassigned hdbg hslot
    have hrow := (doPatrolScrubSlot_of_bank0 .clean hassigned hdbg hslot).trans (if_neg nofun)
    exact ⟨_, congrArg Host.Outcome.next hrow, rfl, by rw [physOf_updPhys]; rfl,
      (congrArg (fun x => x.patrol.head?) (physOf_updPhys ..)).trans (head?_patrol_patrolled ..)⟩
  case corrected =>
    intro s g hassigned hdbg hslot
    have hrow := (doPatrolScrubSlot_of_bank0 .corrected hassigned hdbg hslot).trans (if_pos rfl)
    exact ⟨_, congrArg Host.Outcome.next hrow, rfl, corr_countCorrected .., rfl⟩

end Sys2Proof.Machine
end

section
/-! PROOFS. Transfers and window descriptors (O22): their issue, their answers and their tags. -/

namespace Sys2Proof.Machine

open Sys2Proof

/-! ## DMA_GET, DMA_PUT and its flush (R51, R62) -/

theorem doDmaPut_of_issues {s : State} {g t : Nat} {i : Iss} (h : issues 0x11 dmaFaults g t s i)
    (hdata : dmaFlush i.d = false) : doDmaPut g t s = settle g (putAct i (issueDesc i s)) :=
  issueRow_issues _ _ h (by simp [issues_dOp h, hdata])

theorem putAct_of_flush {i : Iss} {s : State} (h : dmaFlush i.d = true) :
    putAct i s = if fetchOpen (flushLines i.g i.ser i.pl s) i.g i.ser then setWaitFor i .requests (flushLines i.g i.ser i.pl s)
      else flushLines i.g i.ser i.pl s := by
  unfold putAct
  rw [if_pos h]

/-! ## HORIZON_RESPONSE (R204) -/

/-- Only a BAR4 access keeps behind the writes that came before it. -/
theorem aperBehind_of_not_aper {s : State} {q : Req} (h : ∀ id ps d, q.kind ≠ .aper id ps d) : aperBehind s q = false := by
  unfold aperBehind
  split
  case h_1 hkind => exact absurd hkind (h _ _ _)
  case h_2 => rfl

section
variable {s : State} {req : Nat} {q : Req}

/-- An access of another package is served where its granule lies (R267). -/
theorem doHorizonResponse_of_window {f : Flit} {x : WinSide} {n : Nat} (ans : HzAnswer)
    (hq : s.hz.reqs.find? (fun q => q.id == req) = some q) (hserve : mayServe s q = true) (hkind : q.kind = .window f x n) :
    doHorizonResponse req ans s = winServed q f x n ans (freeReq q s) := by
  have hfirst : aperBehind s q = false := aperBehind_of_not_aper (by simp [hkind])
  simp only [doHorizonResponse, hq, hserve, hfirst, hkind, Bool.not_true, Bool.or_self, Bool.false_eq_true, if_false]
  rfl

/-- A read, a write or a rung of a ladder is answered at once; it is no contribution and no APPLY. -/
theorem doHorizonResponse_of_transfer (ans : HzAnswer) (hq : s.hz.reqs.find? (fun q => q.id == req) = some q)
    (hserve : mayServe s q = true)
    (hkind : (∃ ms, q.kind = .read ms) ∨ (∃ ws, q.kind = .write ws) ∨ (∃ n ms, q.kind = .rung n ms)) :
    doHorizonResponse req ans s = settle q.g (respond q ans s) := by
  have hfirst : aperBehind s q = false :=
    aperBehind_of_not_aper (by rcases hkind with ⟨ms, h⟩ | ⟨ws, h⟩ | ⟨n, ms, h⟩ <;> simp [h])
  unfold doHorizonResponse
  simp only [hq, hserve, hfirst, Bool.not_true, Bool.or_self, Bool.false_eq_true, if_false]
  rcases hkind with ⟨ms, h⟩ | ⟨ws, h⟩ | ⟨n, ms, h⟩ <;> simp only [h, answerReq]

end

/-- An acknowledged write outside a clod stores its bits (R204). -/
theorem writeServed_of_accepted {s : State} {q : Req} {o : Obj} {w : BitW} {l : List BitW} {ans : HzAnswer}
    (ho : objOf s q.handle = some o) (hok : hz4Cause s o (w.1 / 8) ans = none) (hclod : q.clod = none)
    (hout : outDOf s q.g q.ser = none) :
    writeServed q (w :: l) ans s = noteObj q.ctx q.g 0xFF q.handle (w :: l) (objWriteBits q.handle (w :: l) s) := by
  simp [writeServed, ho, hok, hclod, hout]

/-- An answer to a request that no descriptor waits for is what it stores. -/
theorem respond_of_write {s : State} {q : Req} {ws : List BitW} {ans : HzAnswer} (hkind : q.kind = .write ws)
    (hlive : q.dead = false) (hout : outDOf (writeServed q ws ans (freeReq q s)) q.g q.ser = none) :
    respond q ans s = writeServed q ws ans (freeReq q s) := by
  unfold respond
  simp only [hlive, hkind, Bool.false_eq_true, if_false]
  split
  case h_1 => rfl
  case h_2 hsome => exact absurd (hout.symm.trans hsome) nofun

/-! ## WINDOW_RESPONSE_ARRIVE (R269, R273) -/

/-- The request of a window descriptor is over, and its tag is free (R273). -/
def freeWReq (q : WReq) (s : State) : State :=
  updFab (fun b => { b with wreqs := b.wreqs.filter (fun x => x.rtag != q.rtag) }) s

section
variable {s : State} {f : Flit} {q : WReq} (hq : s.fab.wreqs.find? (fun q => q.rtag == u16 f 25 && q.tagged) = some q)
  (hlive : q.dead = false)
include hq hlive

theorem doWindowResponseArrive_of_ack (p : Bool) (hput : q.isGet = false) (hop : flitOp f = 4) :
    doWindowResponseArrive f p s = winMaybeDone q.g q.ser (freeWReq q s) := by
  simp [doWindowResponseArrive, hq, hlive, hput, hop, freeWReq]

theorem doWindowResponseArrive_of_refusal (p : Bool) (hop : flitOp f = 5) :
    doWindowResponseArrive f p s = winFail q (BitVec.ofNat 16 (u8 f 27)) 0 s := by
  simp [doWindowResponseArrive, hq, hlive, hop]

theorem doWindowResponseArrive_of_data (hget : q.isGet = true) (hclod : q.clod = none) (hop : flitOp f = 3) :
    doWindowResponseArrive f false s = winMaybeDone q.g q.ser (winLocalWrite q.g q.ser (q.moves.map (fun m =>
      (m.2.1, m.2.2, (bitsFrom (fun a => (f.getD (28 + a) 0, false)) m.1 m.2.2).1, false))) (freeWReq q s)) := by
  simp [doWindowResponseArrive, hq, hlive, hget, hclod, hop, freeWReq]

end

/-! ## TAG_GRANT (R207, R270) -/

/-- With every destination reachable no request fails (R273). -/
theorem failUnreachable_of_reachable {s : State} (h : s.fab.wreqs.all (fun q => nextHop s q.dst != .drop) = true) :
    failUnreachable s = s := by
  have hnone : s.fab.wreqs.filter (fun q => nextHop s q.dst == .drop) = [] := by
    rw [List.filter_eq_nil_iff]
    intro q hq
    simpa using List.all_eq_true.1 h q hq
  rw [failUnreachable, hnone, List.foldl_nil]

theorem doTagGrant_of_ldie {s : State} {l : Nat} {q : WReq}
    (hreach : s.fab.wreqs.all (fun q => nextHop s q.dst != .drop) = true)
    (hq : s.fab.wreqs.find? (fun q => !q.tagged && !q.dead && q.ldie == l && winTagFree s l q.dst) = some q) :
    doTagGrant (.ldie l) s = settle q.g (winSend q s) := by
  simp only [doTagGrant, failUnreachable_of_reachable hreach, hq]

theorem doTagGrant_of_waiter {s : State} {pool : Pool} {q : Req} (hpool : ∀ l, pool ≠ .ldie l)
    (hq : nextWaiter s pool = some q) : doTagGrant pool s = settle q.g (grantReq q s) := by
  cases pool with
  | ldie l => exact absurd rfl (hpool l)
  | hz1 _ | tdie _ | port _ => simp only [doTagGrant, hq]

/-- Settles O22: each row by what issuing it, or its event, does. -/
theorem dmaRowsAct : Obligations.DmaRowsAct := by
  refine ⟨?get, ?put, ?flush, fun s i h => putAct_of_flush h, ?transfer, ?write, ?window, ?winPut, ?winGet, ?ack, ?data,
    ?refusal, ?ldie, ?pool⟩
  case get => intro s g t i h; exact congrArg Host.Outcome.next (issueRow_of_issues getAct h)
  case put => intro s g t i h hdata; exact congrArg Host.Outcome.next (doDmaPut_of_issues h hdata)
  case flush => intro s g t i h hflush; exact congrArg Host.Outcome.next (issueRow_issues dmaFlush putAct h hflush)
  case transfer =>
    intro s req ans q hq hserve hkind
    exact congrArg Host.Outcome.next (doHorizonResponse_of_transfer ans hq hserve hkind)
  case write =>
    intro s ans q ws l u o w hkind hlive hclod hu ho hws hok hout hout'
    subst hu hws
    have hstore := writeServed_of_accepted (s := freeReq q s) (l := l) ho hok hclod hout
    exact (respond_of_write hkind hlive (hstore ▸ hout')).trans hstore
  case window =>
    intro s req n ans q f x hq hserve hkind
    exact congrArg Host.Outcome.next (doHorizonResponse_of_window ans hq hserve hkind)
  case winPut => intro s g t i h; exact congrArg Host.Outcome.next (issueRow_of_issues winPutAct h)
  case winGet => intro s g t i h; exact congrArg Host.Outcome.next (issueRow_of_issues winGetAct h)
  case ack =>
    intro s f p q hq hlive hput hop
    exact ⟨_, rfl, doWindowResponseArrive_of_ack hq hlive p hput hop⟩
  case data =>
    intro s f q hq hlive hget hclod hop
    exact ⟨_, rfl, doWindowResponseArrive_of_data hq hlive hget hclod hop⟩
  case refusal =>
    intro s f p q hq hlive hop
    exact ⟨_, rfl, doWindowResponseArrive_of_refusal hq hlive p hop⟩
  case ldie =>
    intro s l q hreach hq
    exact congrArg Host.Outcome.next (doTagGrant_of_ldie hreach hq)
  case pool =>
    intro s pool q hpool hq
    exact congrArg Host.Outcome.next (doTagGrant_of_waiter hpool hq)

end Sys2Proof.Machine
end

section
/-! PROOFS. One gc (O35), the addresses of elements and hub transfers (O48). -/

namespace Sys2Proof.Machine

open Sys2Proof

/-! ## One gc (R63, R393, R397) -/

theorem stretched_iff (s : State) : stretched s = true ↔ s.clk.pcc.toNat % 16 < s.pwr.level := decide_eq_true_iff

/-- The clocks after a gc that lasts one period of the package clock, or two. -/
def gcClk (u : State) : Clk :=
  { u.clk with
    pcc := u.clk.pcc + 1
    wallUs := u.clk.wallUs + mkRat (if stretched u then 2 else 1) (max u.pwr.clk 1) }

/-- The throttle after a gc: STRETCH counts one that lasts two periods; the level, a step under way and the saturation
are what the gc leaves of them. -/
def gcPwr (u : State) (p : Pwr) : Pwr :=
  { u.pwr with
    stretch := u.pwr.stretch + (if stretched u then 1 else 0), level := p.level, move := p.move, saturated := p.saturated }

/-- Once the PCC runs, a gc lets the lanes of its slots pass and advances the clocks; it leaves alone the memories, the
registers and the queue. -/
theorem tick_of_running {s u : State} (h : s.clk.pccRun = true) (hu : u = laneStep (eccStep s)) :
    ∃ p ctxs ped2s grains sieves segs, tick s = { u with
      clk := gcClk u, pwr := gcPwr u p, ctxs := ctxs, ped2s := ped2s, grains := grains, sieves := sieves
      segs := segs } := by
  subst hu
  unfold tick
  rw [if_neg (by simp [h])]
  dsimp only
  rw [gateStep_frame, warmStep_frame]
  exact ⟨_, _, _, _, _, _, rfl⟩

theorem clk_laneStep_eccStep (s : State) : (laneStep (eccStep s)).clk = s.clk :=
  congrArg Prod.fst ((kept_laneStep ..).trans (kept_eccStep ..))

/-- Settles O35, from what one gc makes of the state after its lanes. -/
theorem oneGcPasses : Obligations.OneGcPasses := by
  refine ⟨fun s u hrun hu => ?_, fun s hnone => laneStep_of_no_lanes hnone, fun s hstop => tick_of_stopped hstop⟩
  have hclk : u.clk = s.clk := hu ▸ clk_laneStep_eccStep s
  obtain ⟨p, ctxs, ped2s, grains, sieves, segs, htick⟩ := tick_of_running hrun hu
  rw [htick]
  refine ⟨?_, ?_, ?_, rfl⟩
  · rw [← hclk]
    rfl
  · simp only [gcClk, stretched_iff, hclk]
  · simp only [gcPwr, stretched_iff, hclk]

/-! ## The bit address of an element (R48) -/

theorem elemBit_of_gix (v : View) (k i0 i1 i2 i3 : Nat) (h : v.gix = true) : elemBit v k i0 i1 i2 i3 =
    8 * v.off + fmtW v.fmt * (i0 * v.st0 + i1 * v.st1 + i2 * v.st2 + (i3 + k) * v.st3) := by
  rw [elemBit, if_pos h]

theorem elemBit_of_no_gix (v : View) (k i0 i1 i2 i3 : Nat) (h : v.gix = false) : elemBit v k i0 i1 i2 i3 =
    8 * v.off + fmtW v.fmt * (i0 * v.st0 + i1 * v.st1 + i2 * v.st2 + i3 * v.st3) := by
  rw [elemBit, if_neg (by simp [h]), Nat.add_zero]

/-! ## Hub transfers (R167, R168, R213) -/

/-- What a hub transfer that has ended leaves: it is done, and its semaphore receives 1 (R167). -/
def xferEnded (ctx idx : Nat) (r : RunSeg) (e : XferEnt) (x : XferSt) (s : State) : State :=
  let u := setXfer ctx idx { x with done := true } s
  if e.sem = 0 then u else semAdd ctx (canonPed u e.ped) e.sem 1 (logicalId ((footprint r.d).headD 0) 0) u

section
variable {s : State} {ctx idx : Nat} {r : RunSeg} {e : XferEnt} {x : XferSt} {o : Obj}
  (hx : xferAt s ctx idx = some (r, e, x)) (hgo : r.stop = none)
include hx hgo

/-- A transfer starts from its START on. -/
theorem doHubTransferStart_of_due (hidle : x.started = false) (hdue : e.start ≤ segGc s r)
    (ho : ownObj (setXfer ctx idx { x with started := true } s) ctx e.handle = some o) :
    doHubTransferStart ctx idx s =
      (let u := setXfer ctx idx { x with started := true } s
       if e.kind = 0 then (xferDies u ctx idx).foldl (fun s d => xferReads d ctx idx e o s) u else xferCopies ctx idx u) := by
  simp only [doHubTransferStart, hx, hgo, hidle, Nat.not_lt.2 hdue, ho, Option.isSome_none, decide_false, Bool.or_self,
    Bool.false_eq_true, if_false]

variable (hstarted : x.started = true) (hopen : x.done = false)
include hstarted hopen

/-- A KIND 0 transfer ends once none of its reads is open. -/
theorem doHubTransferComplete_of_read (hkind : e.kind = 0) (hread : xferOpen s ctx idx = false) :
    doHubTransferComplete ctx idx s = xferEnded ctx idx r e x s := by
  simp only [doHubTransferComplete, xferEnded, hx, hgo, hstarted, hopen, hkind, hread, Option.isSome_none, Bool.not_true, Bool.or_self,
    Bool.false_eq_true, if_false, if_true]

/-- A KIND 1 transfer of which a copy is missing begins it. -/
theorem doHubTransferComplete_of_missing (hkind : e.kind ≠ 0) (ho : ownObj s ctx e.handle = some o)
    (hpart : xferWhole s e idx x o = false) : doHubTransferComplete ctx idx s = xferCopies ctx idx s := by
  simp only [doHubTransferComplete, hx, hgo, hstarted, hopen, hkind, ho, hpart, Option.isSome_none, Bool.not_true,
    Bool.or_self, Bool.false_eq_true, if_false]

/-- A KIND 1 transfer whose range is resident makes its copies valid and ends. -/
theorem doHubTransferComplete_of_whole {ru : RunSeg} {eu : XferEnt} {y : XferSt} (hkind : e.kind ≠ 0)
    (ho : ownObj s ctx e.handle = some o) (hwhole : xferWhole s e idx x o = true)
    (hy : xferAt (xferValid ctx idx e s) ctx idx = some (ru, eu, y)) :
    doHubTransferComplete ctx idx s = xferEnded ctx idx r e y (xferValid ctx idx e s) := by
  simp only [doHubTransferComplete, xferEnded, hx, hgo, hstarted, hopen, hkind, ho, hwhole, hy, Option.isSome_none, Bool.not_true,
    Bool.or_self, Bool.false_eq_true, if_false, if_true]

end

/-- Settles O48: the addresses by the flag GIX, the transfers by their KIND. -/
theorem elementAddress : Obligations.ElementAddress := by
  refine ⟨fun v k i0 i1 i2 i3 h => elemBit_of_no_gix v k i0 i1 i2 i3 h,
    fun v k i0 i1 i2 i3 h => elemBit_of_gix v k i0 i1 i2 i3 h, by decide, ?start, ?read, ?copied⟩
  case start =>
    intro s u ctx idx r e x o hx hgo hidle hdue hu ho
    subst hu
    exact congrArg Host.Outcome.next (doHubTransferStart_of_due hx hgo hidle hdue ho)
  case read =>
    intro s u ctx idx r e x hx hgo hstarted hopen hkind hread hu
    subst hu
    exact congrArg Host.Outcome.next (doHubTransferComplete_of_read hx hgo hstarted hopen hkind hread)
  case copied =>
    intro s u v ctx idx r ru e eu x y o hx hgo hstarted hopen hkind ho
    refine ⟨fun hpart => ?_, fun hwhole hu hy hv => ?_⟩
    · exact congrArg Host.Outcome.next (doHubTransferComplete_of_missing hx hgo hstarted hopen hkind ho hpart)
    · subst hu hv
      exact congrArg Host.Outcome.next (doHubTransferComplete_of_whole hx hgo hstarted hopen hkind ho hwhole hy)

end Sys2Proof.Machine
end

section
/-! PROOFS. Accesses to a window of this package (O51): the checks, the refusals and what an accepted access does. -/

namespace Sys2Proof.Machine

open Sys2Proof

/-! ## The checks of an access (R271) -/

/-- The checks that every window makes of an access: it is open, the KEY and the source are right, the right is held, and
the bytes lie inside it. -/
def winAllows (s : State) (w : Win) (key : W32) (src off n : Nat) (wr : Bool) : Prop :=
  w.closing = none ∧ w.key = key ∧ peerOk w src = true ∧ bitAt w.rights (if wr then 1 else 0) = true ∧
    off + n ≤ winTotal s w

section
variable {s : State} {w : Win} {key : W32} {src off n : Nat} {wr : Bool}

theorem winAllows_iff : winAllows s w key src off n wr ↔ ¬ (w.closing.isSome || w.key != key || !(peerOk w src) ||
    !(bitAt w.rights (if wr then 1 else 0)) || winTotal s w < off + n) = true := by
  simp [winAllows, and_assoc]

theorem winRefusal_of_not_allows (h : ¬ winAllows s w key src off n wr) :
    winRefusal s (some w) key src wr off n = some stNOT_PERMITTED := by
  unfold winRefusal
  exact if_pos (not_not.1 (mt winAllows_iff.2 h))

theorem winRefusal_of_object (h : winAllows s w key src off n wr) (hkind : w.kind ≠ 0) :
    winRefusal s (some w) key src wr off n = none := by
  unfold winRefusal
  exact (if_neg (winAllows_iff.1 h)).trans (if_pos hkind)

/-- The owner's context is not resident on a grain that the access touches. -/
theorem winRefusal_of_absent {g : Nat} (h : winAllows s w key src off n wr) (hkind : w.kind = 0)
    (hg : g ∈ winGrains s w off n) (habsent : residentPlace s w.ctx g = none) :
    winRefusal s (some w) key src wr off n = some stBUSY := by
  have hany : (winGrains s w off n).any (fun g => (residentPlace s w.ctx g).isNone) = true :=
    List.any_eq_true.2 ⟨g, hg, by simp [habsent]⟩
  unfold winRefusal
  exact (if_neg (winAllows_iff.1 h)).trans ((if_neg (not_not.2 hkind)).trans (if_pos hany))

end

/-! ## WINDOW_ACCESS_ARRIVE (R69, R268-R271, R374) -/

/-- The flit that answers an access with a status (R272). -/
def winAnswer (f : Flit) (op status : Nat) (s : State) : Flit :=
  dataFlit 4 0 (winHdr s op 0 true (flitSrc f) (bits (u16 f 14) 0 12) (u32 f 16) (accessOff f) (u16 f 25) status) []

theorem winReply_of_status {f : Flit} {op status : Nat} {s : State} (h : op ≠ 3) :
    winReply f op 0 status [] false s =
      routeFlit (bits (u16 f 14) 0 12 + 2 ^ 12 * (accessOff f / 4096)) (winAnswer f op status s) s := by
  simp only [winReply, h, ne_eq, not_false_eq_true, if_true]
  rfl

theorem flitTc_winAnswer (f : Flit) (op status : Nat) (s : State) : flitTc (winAnswer f op status s) = 4 :=
  flitTc_dataFlit 4 0 _ _ (by decide) (by decide)

/-- The last flit of a put's unit is remembered until the unit is acknowledged (R269). -/
def noteLast (n : Nat) (f : Flit) (s : State) : State :=
  if flitOp f = 1 ∧ bitAt (u8 f 8) 7 = true then updFab (fun b => { b with acks := b.acks ++ [(n, f)] }) s else s

/-- An access is a put or a get. -/
theorem not_other_op {f : Flit} (h : flitOp f = 1 ∨ flitOp f = 2) : ¬ (flitOp f ≠ 1 && flitOp f ≠ 2) = true := by
  rcases h with h | h <;> simp [h]

section
variable {s : State} {f : Flit} {x : WinSide} (hop : flitOp f = 1 ∨ flitOp f = 2)
include hop

theorem doWindowAccessArrive_of_refusal {st : W16}
    (h : winRefusal s (nmGet s.fab.wins (bits (u16 f 14) 0 12)) (BitVec.ofNat 32 (u32 f 16)) (flitSrc f) (flitOp f == 1)
      (accessOff f) (accessLen f x) = some st) :
    doWindowAccessArrive f x s = winReply f 5 0 (st.toNat % 256) [] false
      (countRefused s (nmGet s.fab.wins (bits (u16 f 14) 0 12)) (accessOff f) (accessLen f x) s) := by
  simp only [doWindowAccessArrive, if_neg (not_other_op hop), h]

variable {n : Nat} {w : Win} (hn : n = bits (u16 f 14) 0 12) (hw : nmGet s.fab.wins n = some w)
  (hok : winRefusal s (some w) (BitVec.ofNat 32 (u32 f 16)) (flitSrc f) (flitOp f == 1) (accessOff f) (accessLen f x) = none)
include hn hw hok

theorem doWindowAccessArrive_of_object {o : Obj} (hclod : x.clod = none) (hkind : w.kind = 1)
    (ho : objOf s w.target = some o) (hlen : accessLen f x ≠ 0) :
    doWindowAccessArrive f x s = winRequests n w o f x (noteLast n f s) := by
  subst hn
  simp only [doWindowAccessArrive, if_neg (not_other_op hop), hw, hok, hclod, ho]
  simp [hkind, hlen, noteLast]

theorem doWindowAccessArrive_of_scratch (hclod : x.clod = none) (hkind : w.kind = 0) :
    doWindowAccessArrive f x s = serveScratch n w (some f) x (flitSrc f) (accessOff f) (accessLen f x)
      ((slice f 28 224).take (accessLen f x)) (noteLast n f s) := by
  subst hn
  simp only [doWindowAccessArrive, if_neg (not_other_op hop), hw, hok, hclod]
  cases objOf s w.target <;> simp [hkind, noteLast]

/-- A put of a clod is held prepared, while its L-die has room (R374). -/
theorem doWindowAccessArrive_of_clod {k : Nat} (hclod : x.clod = some k) (hput : flitOp f = 1)
    (hroom : preparedAt s (accessLdie s f) + accessLen f x ≤ 2 ^ 20) :
    doWindowAccessArrive f x s = ackUnit n f (noteLast n f (updFab (fun b => { b with preparedWin := b.preparedWin ++
      [{ src := flitSrc f, clod := k, ldie := accessLdie s f, win := n, woff := accessOff f,
         data := (slice f 28 224).take (accessLen f x), side := x }] }) s)) := by
  subst hn
  have hfull : ¬ 2 ^ 20 < preparedAt s (accessLdie s f) + accessLen f x := Nat.not_lt.2 hroom
  simp only [doWindowAccessArrive, if_neg (not_other_op hop), hw, hok, hclod, if_neg hfull]
  simp [hput, noteLast]

end

/-! ## The end of an access and of a request (R268, R269, R273) -/

section
variable {s : State} {a : WinAcc} {w : Win} {f : Flit} (hw : nmGet s.fab.wins a.win = some w) (hf : a.flit = some f)
include hw hf

theorem endAccess_of_put (hput : flitOp f = 1) :
    endAccess a s = closeIfIdle a.win (ackUnit a.win f (winSignal a.win w a.side a.src a.off a.len
      (updFab (fun b => { b with accs := b.accs.filter (fun e => e.id != a.id) }) s))) := by
  have hw' : nmGet (updFab (fun b => { b with accs := b.accs.filter (fun e => e.id != a.id) }) s).fab.wins a.win = some w := hw
  simp [endAccess, hw', hf, hput]

theorem endAccess_of_get (hget : flitOp f = 2) :
    endAccess a s = closeIfIdle a.win (winRead f a.len a.got
      (updFab (fun b => { b with accs := b.accs.filter (fun e => e.id != a.id) }) s)) := by
  have hw' : nmGet (updFab (fun b => { b with accs := b.accs.filter (fun e => e.id != a.id) }) s).fab.wins a.win = some w := hw
  simp [endAccess, hw', hf, hget]

end

theorem doRemoteTimeout_of_late {s : State} {rtag : Nat} {q : WReq}
    (hq : s.fab.wreqs.find? (fun q => q.rtag == rtag && q.tagged) = some q)
    (hlate : max 1 (bits s.fab.ctl.toNat 0 32) ≤ (s.clk.pcc - q.sent).toNat) :
    doRemoteTimeout rtag s = if q.dead then updFab (fun b => { b with wreqs := b.wreqs.filter (fun x => x.rtag != rtag) }) s
      else winFail q stSTEP_LOST 1 s := by
  unfold doRemoteTimeout
  rw [hq]
  exact if_neg (Nat.not_lt.2 hlate)

/-- Settles O51: the checks by what a window allows, an access that arrives by its end, a timeout by its row. -/
theorem windowChecks : Obligations.WindowChecks := by
  refine ⟨fun s key src off n wr => rfl, ?barred, ?object, ?busy, ?refused, ?accepted, ?timeout⟩
  case barred =>
    intro s w key src off n wr h
    refine winRefusal_of_not_allows ?_
    rintro ⟨hopen, hkey, hpeer, hright, hin⟩
    rcases h with h | h | h | h | h
    · simp [hopen] at h
    · exact h hkey
    · simp [hpeer] at h
    · simp [hright] at h
    · omega
  case object =>
    intro s w key src off n wr hopen hkey hpeer hright hin hkind
    exact winRefusal_of_object ⟨hopen, hkey, hpeer, hright, hin⟩ hkind
  case busy =>
    intro s w key src off n g wr hopen hkey hpeer hright hin hkind hg habsent
    exact winRefusal_of_absent ⟨hopen, hkey, hpeer, hright, hin⟩ hkind hg habsent
  case refused =>
    intro s f x st n off len w hop hn hoff hlen hw href
    subst hn hoff hlen hw
    have hrow := (doWindowAccessArrive_of_refusal hop href).trans (winReply_of_status (by decide))
    refine ⟨_, _, congrArg Host.Outcome.next hrow, rfl, flitTc_winAnswer .., ?_⟩
    obtain ⟨hhz, hphys, hwins, hprep⟩ := routeFlit_keeps (bits (u16 f 14) 0 12 + 2 ^ 12 * (accessOff f / 4096))
      (winAnswer f 5 (st.toNat % 256) (countRefused s (nmGet s.fab.wins (bits (u16 f 14) 0 12)) (accessOff f) (accessLen f x) s))
      (countRefused s (nmGet s.fab.wins (bits (u16 f 14) 0 12)) (accessOff f) (accessLen f x) s)
    obtain ⟨hhz', hphys', hwins', hprep'⟩ :=
      countRefused_keeps s (nmGet s.fab.wins (bits (u16 f 14) 0 12)) (accessOff f) (accessLen f x) s
    exact ⟨hhz.trans hhz', hphys.trans hphys', hwins.trans hwins', hprep.trans hprep'⟩
  case accepted =>
    intro s u f x w n hop hn hw hok hu
    subst hu
    refine ⟨fun hclod hkind o ho hlen => ?_, fun hclod hkind => ?_, fun a v ha hf hv => ?_, fun k v hclod hput hroom hv => ?_⟩
    · exact ⟨_, congrArg Host.Outcome.next (doWindowAccessArrive_of_object hop hn hw hok hclod hkind ho hlen), rfl⟩
    · exact ⟨_, congrArg Host.Outcome.next (doWindowAccessArrive_of_scratch hop hn hw hok hclod hkind), rfl⟩
    · subst ha hv
      exact ⟨endAccess_of_put hw hf, endAccess_of_get hw hf⟩
    · subst hv
      refine ⟨_, congrArg Host.Outcome.next (doWindowAccessArrive_of_clod hop hn hw hok hclod hput hroom), ?_⟩
      simp only [noteLast, hput, true_and]
  case timeout =>
    intro s rtag q hq hlate
    exact ⟨_, rfl, doRemoteTimeout_of_late hq hlate⟩

end Sys2Proof.Machine
end

section
/-! PROOFS. The array, matrix-vector and ballast rows (O20), each where its conditions hold. -/

namespace Sys2Proof.Machine

open Sys2Proof

/-! ## A pass, a convolution and planned ballast (R74, R101, R102) -/

/-- A pass without output elements has no effect (R101). -/
theorem passAct_of_empty {i : Iss} {s : State} (h : passEmpty i.va i.d = true) : passAct i s = noEffect i s := by
  unfold passAct
  exact if_pos h

/-! ## ARRAY_IDLE and BALLAST_GAP_EXPIRE (R103, R104) -/

theorem nmGet_updGrain {s : State} {g : Nat} {gr : Grain} (f : Grain → Grain) (h : nmGet s.grains g = some gr) :
    nmGet (updGrain g f s).grains g = some (f gr) := by
  rw [updGrain_get, h, Option.map_some]

/-- What the hub does for an idle array under PWR_BALLAST `b`: ballast over a short gap or one of unknown length, and the
cells gated over a long one. -/
def fillGap (b : Nat) (gap : Option Nat) (gr : Grain) : Grain :=
  match gap with
  | some n =>
    if n < bits b 0 16 then { gr with bal := some (.hub (min (bits b 16 4) 8) false) } else { gr with gated := true }
  | none => { gr with bal := some (.hub (min (bits b 16 4) 8) true) }

theorem fillGap_of_short {b n : Nat} (gr : Grain) (h : n < bits b 0 16) :
    fillGap b (some n) gr = { gr with bal := some (.hub (min (bits b 16 4) 8) false) } := if_pos h

theorem fillGap_of_long {b n : Nat} (gr : Grain) (h : bits b 0 16 ≤ n) : fillGap b (some n) gr = { gr with gated := true } :=
  if_neg (Nat.not_lt.2 h)

theorem doArrayIdle_of_idle {s : State} {g b : Nat} {gr : Grain} {r : RunSeg} (hgr : nmGet s.grains g = some gr)
    (hfree : ∀ o ∈ gr.out, engineOf (dOp o.desc) ≠ some 1) (hbal : gr.bal = none) (hgated : gr.gated = false)
    (hr : segOf s gr.ctx = some r) (hb : b = (ballastOf s (dieOfPed2 gr.ped2)).toNat) (henf : bitAt b 20 = true) :
    doArrayIdle g s = updGrain g (fillGap b (nextArrGap s gr r)) s := by
  subst hb
  have hany : gr.out.any (fun o => engineOf (dOp o.desc) == some 1) = false :=
    List.any_eq_false.2 fun o ho => by simpa using hfree o ho
  unfold doArrayIdle
  simp only [hgr, hany, hbal, hgated, hr, henf, Option.isSome_none, Bool.or_self, Bool.not_true, Bool.false_eq_true,
    if_false]
  cases nextArrGap s gr r with
  | none => rfl
  | some n =>
    by_cases hshort : n < bits (ballastOf s (dieOfPed2 gr.ped2)).toNat 0 16
    · exact (if_pos hshort).trans (congrArg (updGrain g · s) (funext fun gr => (fillGap_of_short gr hshort).symm))
    · exact (if_neg hshort).trans
        (congrArg (updGrain g · s) (funext fun gr => (fillGap_of_long gr (Nat.not_lt.1 hshort)).symm))

/-- Hub ballast over a gap of unknown length ends with the cells gated. -/
theorem nmGet_doBallastGapExpire {s : State} {g n : Nat} {gr : Grain} (hgr : nmGet s.grains g = some gr)
    (hbal : gr.bal = some (.hub n true)) :
    nmGet (doBallastGapExpire g s).grains g = some { gr with bal := none, gated := true } := by
  unfold doBallastGapExpire
  rw [nmGet_updGrain _ hgr, hbal]

/-! ## Checks of the array and of MV (R88, R90, R91, R99, R105) -/

section
variable {s : State} {g : Nat} {gr : Grain} (hgr : nmGet s.grains g = some gr)
include hgr

/-- A vector's mismatch in a pass or a convolution: its record and its strike, and after a first strike the array runs
again from the retry point. -/
theorem doArrayChecksumFault_of_pass {ser v : Nat} {o : OutD} (ho : gr.out.find? (fun o => o.ser == ser) = some o)
    (hop : dOp o.desc = 0x01 ∨ dOp o.desc = 0x02) (hmade : checkMade o (.vector v) = true) :
    doArrayChecksumFault g (some ser) (.vector v) s =
      if secondStrike s g then takeStrike g (checkRecord gr g o.daddr 0 2 o.t v 0xFFFF s)
      else replayFrom g o (takeStrike g (checkRecord gr g o.daddr 0 1 o.t v 0xFFFF s)) := by
  have harray : dOp o.desc ∈ [0x01, 0x02, 0x3C] := by rcases hop with h | h <;> simp [h]
  have hreal : dOp o.desc ≠ 0x3C := by rcases hop with h | h <;> simp [h]
  unfold doArrayChecksumFault
  simp only [hgr, ho, harray, hmade]
  cases secondStrike s g <;> simp [hreal]

/-- A mismatch in hub ballast, which is no descriptor: its record and its strike. -/
theorem doArrayChecksumFault_of_hub {n lv : Nat} {x : Bool} (hbal : gr.bal = some (.hub lv x)) (hcol : n < 8) :
    doArrayChecksumFault g none (.pass n) s =
      takeStrike g (checkRecord gr g 0 1 (if secondStrike s g then 2 else 1) (gr.arrT.getD 0) 0 n s) := by
  unfold doArrayChecksumFault
  simp only [hgr, hbal, hcol, if_true]

/-- A row of MV that fails its check: its record and its strike; the row is run again (R99). -/
theorem doMvRowCheckFault_of_made {ser row : Nat} {o : OutD} (ho : gr.out.find? (fun o => o.ser == ser) = some o)
    (hop : dOp o.desc = 0x04) (hmade : checkMade o (.vector row) = true) :
    doMvRowCheckFault g ser row s =
      takeStrike g (checkRecord gr g o.daddr 2 (if secondStrike s g then 2 else 1) o.t row 0xFFFF s) := by
  unfold doMvRowCheckFault
  simp [hgr, ho, hop, hmade]

end

/-- Settles O20: each descriptor by its issue, each event by the lemma of its row. -/
theorem arrayRowsAct : Obligations.ArrayRowsAct := by
  refine ⟨?pass, ?conv, ?empty, ?loadw, ?mv, ?ballast, ?idle, ?expire, ?passFault, ?hubFault, ?mvFault⟩
  case pass => intro s g t i h; exact congrArg Host.Outcome.next (issueRow_of_issues passAct h)
  case conv => intro s g t i h; exact congrArg Host.Outcome.next (issueRow_of_issues passAct h)
  case empty =>
    intro s g t i h hempty
    exact congrArg Host.Outcome.next ((issueRow_of_issues passAct h).trans (by rw [passAct_of_empty hempty]))
  case loadw => intro s g t i h; exact congrArg Host.Outcome.next (issueRow_of_issues loadwAct h)
  case mv => intro s g t i h; exact congrArg Host.Outcome.next (issueRow_of_issues mvAct h)
  case ballast => intro s g t i h; exact congrArg Host.Outcome.next (issueRow_of_issues ballastAct h)
  case idle =>
    intro s g b gr r hgr hfree hbal hgated hr hb henf
    have hidle := doArrayIdle_of_idle hgr hfree hbal hgated hr hb henf
    have hfilled := nmGet_updGrain (fillGap b (nextArrGap s gr r)) hgr
    refine ⟨_, congrArg Host.Outcome.next hidle, rfl, fun n hgap hshort => ?_, fun n hgap hlong => ?_, fun hgap => ?_⟩
    · rw [hfilled, hgap, fillGap_of_short gr hshort]
    · rw [hfilled, hgap, fillGap_of_long gr hlong]
    · rw [hfilled, hgap, fillGap]
  case expire =>
    intro s g n gr hgr hbal
    exact ⟨_, rfl, nmGet_doBallastGapExpire hgr hbal, rfl⟩
  case passFault =>
    intro s g ser v gr o hgr ho hop hmade
    exact ⟨_, rfl, doArrayChecksumFault_of_pass hgr ho hop hmade⟩
  case hubFault =>
    intro s g n lv gr x hgr hbal hcol
    exact ⟨_, rfl, doArrayChecksumFault_of_hub hgr hbal hcol⟩
  case mvFault =>
    intro s g ser row gr o hgr ho hop hmade
    exact ⟨_, rfl, doMvRowCheckFault_of_made hgr ho hop hmade⟩

end Sys2Proof.Machine
end

section
/-! PROOFS. The power rows (O9), each where its conditions hold, and the values of the register tables at reset (O31). -/

namespace Sys2Proof.Machine

open Sys2Proof

/-! ## AO_TICK (R391, R403) -/

/-- R391: the failover to the always-on domain of H1 moves only the marks of the two domains. -/
theorem clk_aoFailover (smp : AoSample) (s : State) :
    ∃ lost aoh1, (aoFailover smp s).clk = { s.clk with h0Lost := lost, aoh1 := aoh1 } := by
  unfold aoFailover
  dsimp only
  split
  · exact ⟨_, _, rfl⟩
  · rw [postRec_frame]
    exact ⟨_, _, rfl⟩

/-- A tick with the standby rail up: the RTC advances, the timebase is latched, and the PCC and the wall time stand. -/
theorem clk_doAoTick {s : State} (smp : AoSample) (h : s.clk.vstby = true) :
    ∃ low lost aoh1, (doAoTick smp s).clk = { s.clk with
      rtc := s.clk.rtc + 1, tbPcc := s.clk.pcc, tbRtc := s.clk.rtc + 1, tamperLow := low, h0Lost := lost, aoh1 := aoh1 } := by
  unfold doAoTick
  rw [if_neg (by simp [h])]
  extract_lets _ ticked failedOver warmed _ caused railed compared
  have hwarmed : warmed.kept = failedOver.kept := kept_foldl _ (fun s (e : Nat × Int) => kept_takeTemp e.1 e.2 s) _ _
  have hrailed : railed.kept = caused.kept := by
    dsimp -zeta only [railed]
    split
    · exact kept_foldl _ (fun s (e : Nat × W16) => kept_railOut e.1 e.2.toNat s) _ _
    · rfl
  have hcompared : compared.kept = railed.kept := by
    dsimp -zeta only [compared]
    split
    · split
      · exact kept_postRec ..
      · rfl
    · rfl
  have hclk : (takeAlarms smp compared).clk = failedOver.clk :=
    congrArg Prod.fst ((kept_takeAlarms smp compared).trans (hcompared.trans (hrailed.trans hwarmed)))
  obtain ⟨lost, aoh1, hfailover⟩ := clk_aoFailover smp ticked
  exact ⟨_, lost, aoh1, hclk.trans hfailover⟩

/-! ## POWER_SAMPLE and the level (R397, R398, R491) -/

theorem pwr_thermalRec (die ev : Nat) (temp : Int) (s : State) : (thermalRec die ev temp s).pwr = s.pwr :=
  (postRec_keeps ..).1

theorem pwr_takeLid (lid : Int) (s : State) : (takeLid lid s).pwr = { s.pwr with lidHot := decide (70 < lid) } := by
  unfold takeLid
  dsimp only
  split
  · rw [pwr_thermalRec]
  · rfl

/-- R398: a package above its limit asks for one level more. -/
theorem nextMove_of_over {s : State} (h : limitPkg s < s.pwr.pkgW) : nextMove s = some true := by
  simp [nextMove, overPower, h]

/-- What a power sample leaves in the throttle: the powers, the limit that it takes into force, and what it asks for. -/
theorem pwr_doPowerSample {s : State} (pkgW : Nat) (dieW : List Nat) (lid : Int) (h : s.clk.mainEn = true) :
    ∃ dies lowGc cause move saturated, (doPowerSample pkgW dieW lid s).pwr = { s.pwr with
        limitInForce := s.pwr.limit, pkgW := min pkgW 65535, dies := dies, lidHot := decide (70 < lid), lowGc := lowGc
        cause := cause, move := move, saturated := saturated } ∧
      (bits s.pwr.limit.toNat 0 16 < min pkgW 65535 → move = some true) := by
  unfold doPowerSample
  rw [if_neg (by simp [h])]
  extract_lets _ taken shared lidded _ counted _ caused _ moved
  obtain ⟨dies, hshared⟩ := updDie_foldl (List.zip (List.range 48) dieW) taken
  have hlidded : lidded.pwr = { taken.pwr with dies := dies, lidHot := decide (70 < lid) } :=
    (pwr_takeLid lid shared).trans (by rw [show shared = _ from hshared])
  have hcaused : caused.pwr = { taken.pwr with
      dies := dies, lidHot := decide (70 < lid), lowGc := counted.pwr.lowGc, cause := caused.pwr.cause } :=
    congrArg (fun p : Pwr => { p with lowGc := counted.pwr.lowGc, cause := caused.pwr.cause }) hlidded
  refine ⟨dies, counted.pwr.lowGc, caused.pwr.cause, nextMove caused, saturatedNow moved, ?_, fun hover => ?_⟩
  · exact congrArg (fun p : Pwr => { p with move := nextMove caused, saturated := saturatedNow moved }) hcaused
  · apply nextMove_of_over
    unfold limitPkg
    rw [hcaused]
    exact hover

theorem clk_doPowerSample (pkgW : Nat) (dieW : List Nat) (lid : Int) (s : State) :
    (doPowerSample pkgW dieW lid s).clk = s.clk :=
  congrArg Prod.fst (kept_doPowerSample ..)

theorem nextLevel_of_up {s : State} (h : s.pwr.move = some true) : nextLevel s = min 8 (s.pwr.level + 1) := by
  simp [nextLevel, h]

/-- A step down is taken only where no warm die holds the level. -/
theorem nextLevel_of_down {s : State} (h : s.pwr.move = some false) (hcool : thermalFloor s = 0) :
    nextLevel s = s.pwr.level - 1 := by
  simp [nextLevel, h, hcool]

/-! ## Saturation and the boundary hold (R398, R399, R402) -/

/-- R402: above 1,200 MHz a step takes the clock 25 MHz down, and the configuration record learns it. -/
theorem clockStep_of_high {s : State} (h : 1200 < s.pwr.clk) :
    clockStep s = { s with
      pwr := { s.pwr with clk := max 1200 (s.pwr.clk - 25), clkNext := some (max 1200 (s.pwr.clk - 25)) }
      boot := { s.boot with field := { s.boot.field with pclk := max 1200 (s.pwr.clk - 25) }, recPending := true } } := by
  have hlower : ¬ s.pwr.clk ≤ max 1200 (s.pwr.clk - 25) := by omega
  unfold clockStep slewTo
  exact if_neg hlower

theorem doThrottleSaturationTimeout_of_high {s : State} (hsat : s.pwr.saturated = true) (hclk : 1200 < s.pwr.clk) :
    doThrottleSaturationTimeout s = { s with
      pwr := { s.pwr with
        cause := s.pwr.cause ||| 0x10, clk := max 1200 (s.pwr.clk - 25), clkNext := some (max 1200 (s.pwr.clk - 25)) }
      boot := { s.boot with field := { s.boot.field with pclk := max 1200 (s.pwr.clk - 25) }, recPending := true } } := by
  unfold doThrottleSaturationTimeout
  rw [if_neg (by simp [hsat]), if_pos hclk]
  exact clockStep_of_high hclk

/-- R399: at 1,200 MHz the boundary is held for 1,024 gc. -/
theorem pwr_doThrottleSaturationTimeout_of_low {s : State} (hsat : s.pwr.saturated = true) (hclk : s.pwr.clk ≤ 1200)
    (hhold : s.pwr.hold = none) :
    (doThrottleSaturationTimeout s).pwr = { s.pwr with hold := some 1024, cause := s.pwr.cause ||| 0x20 } := by
  unfold doThrottleSaturationTimeout
  rw [if_neg (by simp [hsat]), if_neg (Nat.not_lt.2 hclk), if_neg (by simp [hhold]), pwr_thermalRec]

theorem doBoundaryHoldAdjust_of_over {s : State} {h : Nat} (hhold : s.pwr.hold = some h) (hover : limitPkg s < s.pwr.pkgW) :
    doBoundaryHoldAdjust s = { s with pwr := { s.pwr with hold := some (min (2 ^ 20) (2 * h)) } } := by
  unfold doBoundaryHoldAdjust
  rw [hhold]
  exact if_pos hover

/-! ## AVSBUS_TIMEOUT (R485, R487) -/

theorem dieOf_updDie (s : State) (c : Nat) (f : DiePwr → DiePwr) : dieOf (updDie c f s) c = f (dieOf s c) := by
  simp [dieOf, updDie, nmUpdD, nmGetD, nmGet_nmSet]

/-- A rail outside its window is warned of; what the dies' records say stands. -/
theorem dies_railOut (rail mv : Nat) (s : State) : (railOut rail mv s).pwr.dies = s.pwr.dies := by
  unfold railOut configWarn
  dsimp only
  split
  · rfl
  · rw [(postRec_keeps ..).1]

theorem boundsVoid_railOut (rail mv : Nat) (s : State) : (railOut rail mv s).reg.boundsVoid = true := by
  unfold railOut configWarn
  dsimp only
  split
  · rfl
  · rw [(postRec_keeps ..).2.2.1]

theorem doAvsbusTimeout_of_die {s : State} {c : Nat} (h : c ≤ 47) :
    doAvsbusTimeout c s = railOut c (freeBits 16 s).1.toNat
      (updDie c (fun d => { d with avsOk := false }) (freeBits 16 s).2) := by
  unfold doAvsbusTimeout
  exact if_neg (Nat.not_lt.2 h)

theorem avsOk_doAvsbusTimeout {s : State} {c : Nat} (h : c ≤ 47) : (dieOf (doAvsbusTimeout c s) c).avsOk = false := by
  rw [doAvsbusTimeout_of_die h]
  unfold dieOf
  rw [dies_railOut]
  exact congrArg DiePwr.avsOk (dieOf_updDie ..)

/-! ## Gating (R26, R395, R396) -/

/-- R396: a gated ped-1 whose NOTBEFORE is near is let go, and its wake ends 64 gc from now. -/
theorem doPed1Prewake_of_near {s : State} {ped1 n gc : Nat} (hwait : earliestWait s (ped1 / 16) (ped1 % 16) = some n)
    (hgc : ped1Gc s (ped1 / 16) (ped1 % 16) = some gc) (hgated : ped1 % 16 ∈ (ped2Of s (ped1 / 16)).gated)
    (hnear : n ≤ gc + 128) :
    doPed1Prewake ped1 s = updPed2 (ped1 / 16) (fun d => { d with prewake := d.prewake ++ [(ped1 % 16, s.clk.pcc + 64)] })
      (wakePed1 (ped1 / 16) (ped1 % 16) s) := by
  unfold doPed1Prewake
  simp only [hwait, hgc, hgated, Nat.not_lt.2 hnear, decide_true, decide_false, Bool.not_true, Bool.or_self,
    Bool.false_eq_true, if_false]

theorem ped2Of_doPed1Prewake {s : State} {ped1 n gc : Nat} (hwait : earliestWait s (ped1 / 16) (ped1 % 16) = some n)
    (hgc : ped1Gc s (ped1 / 16) (ped1 % 16) = some gc) (hgated : ped1 % 16 ∈ (ped2Of s (ped1 / 16)).gated)
    (hnear : n ≤ gc + 128) :
    ped2Of (doPed1Prewake ped1 s) (ped1 / 16) = { ped2Of s (ped1 / 16) with
      gated := del (ped1 % 16) (ped2Of s (ped1 / 16)).gated
      prewake := (ped2Of s (ped1 / 16)).prewake.filter (fun e => e.1 != ped1 % 16) ++ [(ped1 % 16, s.clk.pcc + 64)] } := by
  rw [doPed1Prewake_of_near hwait hgc hgated hnear, ped2Of_updPed2, wakePed1, ped2Of_updPed2]

theorem not_mem_del {α : Type} [DecidableEq α] (x : α) (l : List α) : x ∉ del x l := by
  simp [del]

/-- Only grains and ped-2s differ. -/
def GateOnly (u v : State) : Prop := u = { v with grains := u.grains, ped2s := u.ped2s }

theorem GateOnly.trans {a b c : State} (h1 : GateOnly a b) (h2 : GateOnly b c) : GateOnly a c := by
  unfold GateOnly at *
  rw [h2] at h1
  exact h1

theorem GateOnly.foldl {α : Type} (f : State → α → State) (hf : ∀ s a, GateOnly (f s a) s) (l : List α) (s : State) :
    GateOnly (l.foldl f s) s := by
  induction l generalizing s with
  | nil => exact rfl
  | cons a l ih => exact (ih (f s a)).trans (hf s a)

theorem updGrain_gateOnly (g : Nat) (f : Grain → Grain) (s : State) : GateOnly (updGrain g f s) s := rfl

theorem gatePed1_gateOnly (p i : Nat) (s : State) : GateOnly (gatePed1 p i s) s := by
  unfold gatePed1
  extract_lets grains quieted
  split
  · exact rfl
  · have hquieted : GateOnly quieted s := GateOnly.foldl _ (fun s g => updGrain_gateOnly g _ s) _ _
    exact GateOnly.trans (b := quieted) rfl hquieted

theorem applyGating_gateOnly (s : State) : GateOnly (applyGating s) s := by
  unfold applyGating
  split
  · exact rfl
  · exact GateOnly.foldl _ (fun s p => GateOnly.foldl _ (fun s i => gatePed1_gateOnly p i s) _ s) _ _

/-! ## PWR_CTL and PWR_BALLAST (R104, R394, R404) -/

theorem doPwrCtlWrite_of_allowed {s : State} {rq : Requester} (val : W32) (h : pfOrAbove rq = true) :
    doPwrCtlWrite rq val s =
      applyGating (noteRwp ((val ^^^ s.pwr.ctl) &&& 0xFFFFFFFC != 0) { s with pwr := { s.pwr with ctl := val } }) := by
  unfold doPwrCtlWrite
  exact if_neg (by simp [h])

theorem doPwrCtlWrite_frame {s : State} {rq : Requester} (val : W32) (h : pfOrAbove rq = true) :
    ∃ reg ped2s grains, doPwrCtlWrite rq val s =
      { s with pwr := { s.pwr with ctl := val }, reg := reg, ped2s := ped2s, grains := grains } := by
  rw [doPwrCtlWrite_of_allowed val h, applyGating_gateOnly, noteRwp_frame]
  exact ⟨_, _, _, rfl⟩

theorem doPwrBallastWrite_frame {s : State} {rq : Requester} (val : W32) (h : pfOrAbove rq = true) :
    ∃ reg, doPwrBallastWrite rq val s = { s with reg := reg, pwr := { s.pwr with
      ballast := (val &&& 0xFFF0FFFF) ||| BitVec.ofNat 32 (min 8 (bits val.toNat 16 4) * 65536) } } := by
  unfold doPwrBallastWrite
  rw [if_neg (by simp [h]), noteRwp_frame]
  exact ⟨_, rfl⟩

/-! ## A die's clock (R394) -/

theorem doDiePark_of_idle {s : State} {c : Nat} {d : DiePwr} (hd : nmGet s.pwr.dies c = some d) (hidle : d.dstate = .idle)
    (hpark : s.pwr.ctl.getLsbD 0 = true) (hlong : d.idleSince + 10000 ≤ s.clk.wallUs) :
    doDiePark c s = { s with pwr := { s.pwr with dies := nmSet c { d with dstate := .parked } s.pwr.dies } } := by
  unfold doDiePark
  rw [hd]
  exact if_pos (by simp [hidle, hpark, hlong])

theorem doGrainPllLock_of_lease {s : State} {c i : Nat} {d : DiePwr} (hd : nmGet s.pwr.dies c = some d)
    (hparked : d.dstate = .parked) (hi : i < 25) (hlease : (ped2Of s (c * 25 + i)).lease.isSome = true) :
    doGrainPllLock c s = { s with pwr := { s.pwr with dies := nmSet c { d with dstate := .active } s.pwr.dies } } := by
  have hany : (List.range 25).any (fun i => (ped2Of s (c * 25 + i)).lease.isSome) = true :=
    List.any_eq_true.2 ⟨i, List.mem_range.2 hi, hlease⟩
  unfold doGrainPllLock
  rw [hd]
  exact if_pos (by simp [hparked, hany])

/-- Settles O9: each clause by the lemma of its row. -/
theorem powerRowsAct : Obligations.PowerRowsAct := by
  refine ⟨fun s => ⟨_, rfl, rfl⟩, ?tick, ?sample, ?level, ?slow, ?hold, ?double, ?avs, ?wake, ?ctl, ?ballast, ?park, ?lock⟩
  case tick =>
    intro s smp h
    obtain ⟨low, lost, aoh1, hclk⟩ := clk_doAoTick smp h
    refine ⟨_, rfl, ?_⟩
    rw [hclk]
    exact ⟨rfl, rfl, rfl, rfl, rfl⟩
  case sample =>
    intro s pkgW dieW lid h
    obtain ⟨dies, lowGc, cause, move, saturated, hpwr, hmove⟩ := pwr_doPowerSample pkgW dieW lid h
    refine ⟨_, rfl, ?_⟩
    rw [hpwr]
    exact ⟨rfl, rfl, rfl, hmove, rfl, rfl, rfl, rfl, clk_doPowerSample ..⟩
  case level => intro s; exact ⟨rfl, nextLevel_of_up, nextLevel_of_down, rfl⟩
  case slow =>
    intro s hsat hclk
    exact ⟨_, congrArg Host.Outcome.next (doThrottleSaturationTimeout_of_high hsat hclk), rfl, rfl, rfl, rfl⟩
  case hold =>
    intro s hsat hclk hhold
    refine ⟨_, rfl, ?_⟩
    rw [pwr_doThrottleSaturationTimeout_of_low hsat hclk hhold]
    exact ⟨rfl, rfl, rfl⟩
  case double => intro s h hhold hover; exact ⟨_, rfl, doBoundaryHoldAdjust_of_over hhold hover⟩
  case avs =>
    intro s c h
    refine ⟨_, rfl, avsOk_doAvsbusTimeout h, ?_⟩
    rw [doAvsbusTimeout_of_die h, boundsVoid_railOut]
  case wake =>
    intro s ped1 n gc hwait hgc hgated hnear
    refine ⟨_, rfl, ?_, ?_, ?_⟩
    · rw [ped2Of_doPed1Prewake hwait hgc hgated hnear]
      exact not_mem_del _ _
    · rw [ped2Of_doPed1Prewake hwait hgc hgated hnear]
      exact List.mem_append_right _ (List.mem_singleton_self _)
    · rw [doPed1Prewake_of_near hwait hgc hgated hnear]
      rfl
  case ctl =>
    intro s rq val hpf hon
    obtain ⟨reg, ped2s, grains, hwrite⟩ := doPwrCtlWrite_frame (s := dropHeld rq s) val hpf
    exact ⟨_, congrArg Host.Outcome.next ((onBar_on _ _ _ hon).trans hwrite), rfl, rfl⟩
  case ballast =>
    intro s rq val hpf hon
    obtain ⟨reg, hwrite⟩ := doPwrBallastWrite_frame (s := dropHeld rq s) val hpf
    exact ⟨_, congrArg Host.Outcome.next ((onBar_on _ _ _ hon).trans hwrite), rfl, rfl⟩
  case park =>
    intro s c d hd hidle hpark hlong
    exact ⟨_, congrArg Host.Outcome.next (doDiePark_of_idle hd hidle hpark hlong), nmGet_nmSet .., rfl⟩
  case lock =>
    intro s c i d hd hparked hi hlease
    exact ⟨_, congrArg Host.Outcome.next (doGrainPllLock_of_lease hd hparked hi hlease), nmGet_nmSet .., rfl⟩

/-! ## The register tables at reset -/

/-- No function has an entry at reset, so each reads as one that has just been reset. -/
theorem fnOf_reset (fn : Nat) : fnOf State.reset fn = fnReset := rfl

/-- Settles O31: the registers of the package as the reset state holds them, those of a function by `fnOf_reset`. -/
theorem resetValues : Obligations.ResetValues := by
  refine ⟨rfl, rfl, rfl, rfl, rfl, rfl, rfl, rfl, rfl, rfl, rfl, rfl, rfl, rfl, rfl, rfl, rfl, rfl, rfl, rfl, rfl, rfl, rfl,
    rfl, fun fn => ?_⟩
  rw [fnOf_reset]
  exact ⟨rfl, rfl, rfl, rfl⟩

end Sys2Proof.Machine
end

section
/-! PROOFS. The codes of the number formats (O49): reading a code and writing the value it holds give the code again. -/

namespace Sys2Proof.Machine

open Sys2Proof

/-! ## The codes of a format (R107-R110) -/

theorem expB_pos (f : Nat) : 1 ≤ expB f := by
  unfold expB
  split <;> decide

/-- R107: an integer code is two's complement, and so is the code of its value. -/
theorem pack_decodeF_of_int {f c : Nat} (hi : isInt f = true) (hc : c < 2 ^ fmtW f) : pack f (decodeF f c) = c := by
  unfold pack decodeF
  simp only [hi, if_true, Nat.mod_eq_of_lt hc, mkRat_nat_one]
  by_cases hneg : 2 ^ (fmtW f - 1) ≤ c
  · simp only [hneg, if_true, rne_nat]
    rw [Nat.sub_sub_self hc.le, Nat.mod_eq_of_lt hc]
  · simp only [hneg, Bool.false_eq_true, if_false, rne_nat, Nat.mod_eq_of_lt hc]

section
variable {f c : Nat} (hfloat : isInt f = false)
include hfloat

/-- R108: exponent 0 codes a zero or a subnormal. -/
theorem decodeF_of_exp_zero (hex : bits c (mantB f) (expB f) = 0) : decodeF f c =
    .num (bitAt c (expB f + mantB f)) ((c % 2 ^ mantB f : Nat) * 2 ^ (1 - (biasOf f : Int) - mantB f)) := by
  have hones : 2 ^ expB f - 1 ≠ 0 := by have := Nat.pow_le_pow_right (by decide : 0 < 2) (expB_pos f); omega
  unfold decodeF
  simp only [hfloat, hex, mkRat_nat_one, pow2_eq]
  simp [hones.symm]

/-- R108: what a code that is no NaN holds. -/
theorem decodeF_cases (hnan : decodeF f c ≠ .nan) :
    (bits c (mantB f) (expB f) = 2 ^ expB f - 1 ∧ c % 2 ^ mantB f = 0 ∧ decodeF f c = .inf (bitAt c (expB f + mantB f))) ∨
    bits c (mantB f) (expB f) = 0 ∨
    (1 ≤ bits c (mantB f) (expB f) ∧ decodeF f c = .num (bitAt c (expB f + mantB f))
      ((2 ^ mantB f + c % 2 ^ mantB f : Nat) * 2 ^ ((bits c (mantB f) (expB f) : Int) - biasOf f - mantB f))) := by
  revert hnan
  unfold decodeF
  simp only [hfloat, Bool.false_eq_true, if_false, pow2_eq, mkRat_nat_one]
  split
  next hones =>
    simp only [Bool.and_eq_true, beq_iff_eq] at hones
    split
    next hmt => exact fun _ => .inl ⟨hones.2, hmt, rfl⟩
    next => exact fun h => absurd rfl h
  next =>
    split
    next => exact fun h => absurd rfl h
    next =>
      split
      next hex => exact fun _ => .inr (.inl hex)
      next hex => exact fun _ => .inr (.inr ⟨Nat.pos_of_ne_zero hex, rfl⟩)

theorem pack_inf (neg : Bool) :
    pack f (.inf neg) = b2n neg * 2 ^ (expB f + mantB f) + (2 ^ expB f - 1) * 2 ^ mantB f := by
  unfold pack
  simp [hfloat]

theorem pack_num_zero (neg : Bool) : pack f (.num neg 0) = b2n neg * 2 ^ (expB f + mantB f) := by
  unfold pack
  simp [hfloat]

end

/-- n units of 2^k lie in the binade of n. -/
theorem floorLog2_units {n : Nat} (k : Int) (hn : n ≠ 0) : floorLog2 ((n : Rat) * 2 ^ k) = Nat.log2 n + k := by
  have hlow : (2 : Rat) ^ Nat.log2 n ≤ n := by exact_mod_cast Nat.log2_self_le hn
  have hhigh : (n : Rat) < 2 ^ (Nat.log2 n + 1) := by exact_mod_cast Nat.lt_log2_self
  apply floorLog2_eq
  · rw [zpow_add₀ (by norm_num), zpow_natCast]
    gcongr
  · rw [show (Nat.log2 n : Int) + k + 1 = (Nat.log2 n + 1 : Nat) + k by push_cast; ring, zpow_add₀ (by norm_num),
      zpow_natCast]
    gcongr

/-- Units of 2^k are counted back by the inverse power. -/
theorem rne_units (n : Nat) {k l : Int} (h : k + l = 0) : rne ((n : Rat) * 2 ^ k * pow2 l) = n := by
  rw [pow2_eq, mul_assoc, ← zpow_add₀ (by norm_num), h, zpow_zero, mul_one, rne_nat]

theorem units_ne_zero {n : Nat} (k : Int) (hn : n ≠ 0) : (n : Rat) * 2 ^ k ≠ 0 :=
  mul_ne_zero (Nat.cast_ne_zero.2 hn) (zpow_ne_zero k (by norm_num))

section
variable {f n : Nat} (hfloat : isInt f = false) (neg : Bool) (hn : n < 2 ^ mantB f)
include hfloat hn

theorem pack_subnormal (hpos : n ≠ 0) :
    pack f (.num neg ((n : Rat) * 2 ^ (1 - (biasOf f : Int) - mantB f))) = b2n neg * 2 ^ (expB f + mantB f) + n := by
  have hlog : Nat.log2 n < mantB f := (Nat.log2_lt hpos).2 hn
  unfold pack
  simp only [hfloat, Bool.false_eq_true, if_false, units_ne_zero _ hpos, floorLog2_units _ hpos]
  rw [if_pos (by omega), rne_units n (by omega)]

theorem pack_normal {ex : Nat} (hex : 1 ≤ ex) :
    pack f (.num neg ((2 ^ mantB f + n : Nat) * 2 ^ ((ex : Int) - biasOf f - mantB f))) =
      b2n neg * 2 ^ (expB f + mantB f) + ex * 2 ^ mantB f + n := by
  have hpos : 2 ^ mantB f + n ≠ 0 := by positivity
  have hlog : Nat.log2 (2 ^ mantB f + n) = mantB f :=
    (Nat.log2_eq_iff hpos).2 ⟨Nat.le_add_right _ _, by rw [pow_succ]; omega⟩
  unfold pack
  simp only [hfloat, Bool.false_eq_true, if_false, units_ne_zero _ hpos, floorLog2_units _ hpos, hlog]
  rw [if_neg (by omega), rne_units _ (by omega), Nat.add_sub_cancel_left,
    show ((mantB f : Int) + (ex - biasOf f - mantB f) + biasOf f).toNat = ex by omega]

end

/-- R107, R108: the bits of a floating-point code that is no NaN are those of its value's code. -/
theorem pack_decodeF_of_float {f c : Nat} (hfloat : isInt f = false) (hc : c < 2 ^ (expB f + mantB f + 1))
    (hnan : decodeF f c ≠ .nan) : pack f (decodeF f c) = c := by
  have hsplit := code_split c (expB f) (mantB f) hc
  have hmant : c % 2 ^ mantB f < 2 ^ mantB f := Nat.mod_lt _ (by positivity)
  obtain ⟨hones, hzero, hinf⟩ | hex | ⟨hex, hnum⟩ := decodeF_cases hfloat hnan
  · rw [hinf, pack_inf hfloat, ← hones]
    omega
  · rw [decodeF_of_exp_zero hfloat hex]
    rw [hex, Nat.zero_mul, Nat.add_zero] at hsplit
    by_cases hzero : c % 2 ^ mantB f = 0
    · rw [hzero, Nat.cast_zero, zero_mul, pack_num_zero hfloat]
      omega
    · rw [pack_subnormal hfloat _ hmant hzero, ← hsplit]
  · rw [hnum, pack_normal hfloat _ hmant hex, ← hsplit]

/-- R108: the code of nothing but a sign is the zero of that sign. -/
theorem decodeF_sign {f : Nat} (hfloat : isInt f = false) (neg : Bool) :
    decodeF f (b2n neg * 2 ^ (expB f + mantB f)) = .num neg 0 := by
  have hdvd : b2n neg * 2 ^ (expB f + mantB f) = 2 ^ mantB f * (2 ^ expB f * b2n neg) := by rw [pow_add]; ring
  have hex : bits (b2n neg * 2 ^ (expB f + mantB f)) (mantB f) (expB f) = 0 := by
    unfold bits
    rw [hdvd, Nat.mul_div_cancel_left _ (by positivity), Nat.mul_mod_right]
  have hsign : bitAt (b2n neg * 2 ^ (expB f + mantB f)) (expB f + mantB f) = neg := by
    unfold bitAt
    rw [Nat.mul_div_cancel _ (by positivity)]
    cases neg <;> rfl
  rw [decodeF_of_exp_zero hfloat hex, hsign, hdvd, Nat.mul_mod_right, Nat.cast_zero, zero_mul]

theorem isInt_of_le {f : Nat} (h : f ≤ 7) : isInt f = false := by
  unfold isInt
  simp
  omega

/-- Settles O49: an integer format by its two's complement, a floating-point one field by field. -/
theorem codesSurvive : Obligations.CodesSurvive := by
  refine ⟨fun f c hf hc hnan => ?codes, ⟨rfl, rfl, rfl, rfl, rfl, rfl⟩, fun f hf => ?zeros⟩
  case codes =>
    cases hi : isInt f with
    | true => exact pack_decodeF_of_int hi hc
    | false =>
      obtain ⟨hwidth, -, -⟩ := fmt_eq f hf hi
      exact pack_decodeF_of_float hi (hwidth ▸ hc) hnan
  case zeros =>
    have hi := isInt_of_le hf
    obtain ⟨hwidth, -, -⟩ := fmt_eq f (by omega) hi
    have hplus := decodeF_sign hi false
    have hminus := decodeF_sign hi true
    simp only [b2n, Bool.false_eq_true, if_false, if_true, Nat.zero_mul, Nat.one_mul] at hplus hminus
    exact ⟨hplus, by rw [hwidth, Nat.add_sub_cancel]; exact hminus⟩

end Sys2Proof.Machine
end

section
/-! PROOFS. The elements of BS8 blocks, and the groups and buckets of the reduction engine (O50). -/

namespace Sys2Proof.Machine

open Sys2Proof

/-! ## The elements of a BS8 block (R135) -/

section
variable {ftz : Bool} {blk : List Byte} (j : Nat) (c : Counts)

theorem bs8Elem_of_zero_scale (h : u8 blk 0 = 0) : bs8Elem ftz blk j c = (.num false 0, c) := by
  unfold bs8Elem
  exact if_pos h

theorem bs8Elem_of_nan_scale (h : u8 blk 0 = 255) : bs8Elem ftz blk j c = (.nan, { c with nanin := c.nanin + 1 }) := by
  unfold bs8Elem
  simp [h]

/-- R135: in keep mode a block scale of 1 to 254 scales the element as its byte codes it. -/
theorem bs8Elem_of_scale {n : Bool} {q : Rat} (hpos : 0 < u8 blk 0) (hlt : u8 blk 0 < 255)
    (hcode : decodeF 3 (u8 blk (j + 1)) = .num n q) :
    bs8Elem false blk j c = (.num n (q * 2 ^ ((u8 blk 0 : Int) - 127)), c) := by
  have hread : readElem false 3 (u8 blk (j + 1)) c = (.num n q, c) := by
    unfold readElem
    simp [hcode]
  unfold bs8Elem
  simp only [if_neg hpos.ne', if_neg hlt.ne, hread, pow2_eq]

end

/-! ## GROUP_SET (R274) -/

/-- The box that a GROUP_SET names; all zeros is none. -/
def groupBox (p : List Byte) : List Nat := [u8 p 20, u8 p 21, u8 p 22, u8 p 23]

/-- The packages in the list of a GROUP_SET, in the order of their ranks. -/
def groupList (s : State) (o : Obj) (p : List Byte) : List Nat :=
  (List.range (u16 p 2)).map (fun i => leNat (objRead s o (u64 p 12 + 2 * i) 2))

/-- The group that a GROUP_SET makes. -/
def groupMade (s : State) (ctx : Nat) (o : Obj) (p : List Byte) : Group :=
  { ctx := ctx, rank := u16 p 4, members := groupList s o p, shape := if groupBox p = [0, 0, 0, 0] then [] else groupBox p
    digest := groupDigest (u16 p 2) (groupBox p) (groupList s o p), listObj := BitVec.ofNat 32 (u32 p 8) }

/-- The fields of a GROUP_SET lie in their ranges, and a box that it names holds its members. -/
structure GroupFieldsOk (p : List Byte) : Prop where
  index : u16 p 0 ≤ 1023
  nonempty : 1 ≤ u16 p 2
  members : u16 p 2 ≤ 16384
  rank : u16 p 4 < u16 p 2
  reserved : u16 p 6 = 0
  aligned : u64 p 12 % 2 = 0
  tail : allZero (p.drop 24) = true
  box : groupBox p = [0, 0, 0, 0] ∨ (∀ x ∈ groupBox p, 1 ≤ x ∧ x ≤ 16) ∧ (groupBox p).foldl (· * ·) 1 = u16 p 2

/-- The list of a GROUP_SET names distinct packages of the torus, this one at its rank, and the group may be set. -/
structure GroupListOk (s : State) (ctx : Nat) (o : Obj) (p : List Byte) : Prop where
  fits : u64 p 12 + 2 * u16 p 2 ≤ o.size
  self : (groupList s o p).getD (u16 p 4) 0 = pkgId s
  distinct : distinct (groupList s o p) = true
  torus : ∀ x ∈ groupList s o p, idInTorus s.fab.torus x = true
  owned : ∀ x, nmGet s.fab.groups (u16 p 0) = some x → x.ctx = ctx
  idle : groupBusy s (u16 p 0) = false

theorem groupBox_eq (p : List Byte) : [u8 p 20, u8 p 21, u8 p 22, u8 p 23] = groupBox p := rfl

theorem groupBox_all_zero_iff (p : List Byte) : (groupBox p).all (· == 0) = true ↔ groupBox p = [0, 0, 0, 0] := by
  simp [groupBox]

/-- The list lies in an object, which starting the command leaves as it is. -/
theorem groupList_startCmd (cid : Nat) (s : State) (o : Obj) (p : List Byte) :
    (List.range (u16 p 2)).map (fun i => leNat (objRead (startCmd cid s) o (u64 p 12 + 2 * i) 2)) = groupList s o p := by
  simp only [groupList, objRead_startCmd]

/-- A box that is named has no side out of range, and its sides hold the members. -/
theorem GroupFieldsOk.box_passes {p : List Byte} (h : GroupFieldsOk p) : groupBox p = [0, 0, 0, 0] ∨
    (groupBox p).any (fun x => x == 0 || 16 < x) = false ∧ (groupBox p).foldl (· * ·) 1 = u16 p 2 := by
  refine h.box.imp_right fun ⟨hsides, hmembers⟩ => ⟨?_, hmembers⟩
  rw [List.any_eq_false]
  intro x hx
  obtain ⟨hpos, hle⟩ := hsides x hx
  simp [Nat.ne_of_gt hpos, hle]

theorem doGroupSet_of_ok {s : State} {cid : Nat} {c : Cmd} {o : Obj} (hready : ready s cid 0x42 = some c)
    (hfields : GroupFieldsOk c.param) (ho : ownObj s (c.ctx.getD 0) (BitVec.ofNat 32 (u32 c.param 8)) = some o)
    (hlist : GroupListOk s (c.ctx.getD 0) o c.param) :
    doGroupSet cid s = finish0 cid stOK (updFab (fun b => { b with
      groups := nmSet (u16 c.param 0) (groupMade s (c.ctx.getD 0) o c.param) b.groups }) (startCmd cid s)) := by
  have ho' : ownObj (startCmd cid s) (c.ctx.getD 0) (BitVec.ofNat 32 (u32 c.param 8)) = some o := ho
  have hidle : groupBusy (startCmd cid s) (u16 c.param 0) = false := hlist.idle
  have hself : (groupList s o c.param).getD (u16 c.param 4) 0 = pkgId (startCmd cid s) := hlist.self
  unfold doGroupSet
  simp only [hready, ho', groupBox_eq, groupList_startCmd]
  rw [if_neg ?fields, if_neg ?owner, if_neg ?list, if_neg (by simp [hidle])]
  · simp only [groupBox_all_zero_iff, groupMade]
  case fields =>
    have hbox := hfields.box_passes
    obtain ⟨hindex, hnonempty, hmembers, hrank, hreserved, haligned, htail, -⟩ := hfields
    obtain hnone | ⟨hsides, hfill⟩ := hbox <;> simp [Nat.ne_of_gt hnonempty, *]
  case owner =>
    split
    next x hx => simp [hlist.owned x hx]
    next => exact Bool.false_ne_true
  case list =>
    have htorus : (groupList s o c.param).any (fun x => !(idInTorus s.fab.torus x)) = false := by
      simpa using hlist.torus
    rw [hself, startCmd_fab, htorus, hlist.distinct]
    simpa using hlist.fits

/-! ## BUCKET_POLICY (R276) -/

/-- The bucket of the fields of a BUCKET_POLICY. -/
def bucketMade (ctx : Nat) (p : List Byte) : Bucket :=
  { ctx := ctx, group := u16 p 2, mode := BitVec.ofNat 8 (u8 p 4), wfmt := u8 p 5, flits := u16 p 6, elems := u32 p 8
    local_ := u16 p 12, scale := u16 p 14, timeout := u32 p 16, bytes := slice p 2 18 }

/-- The fields of a BUCKET_POLICY of FP32 or BF16 lie in their ranges. -/
structure BucketFieldsOk (p : List Byte) : Prop where
  oper : bits (u8 p 4) 0 2 ≠ 3
  alg : bits (u8 p 4) 2 2 ≠ 3
  mode : u8 p 4 < 64
  wire : u8 p 5 = 0 ∨ u8 p 5 = 1
  someFlits : 1 ≤ u16 p 6
  flits : u16 p 6 ≤ 256
  someElems : 1 ≤ u32 p 8
  elems : u32 p 8 ≤ 2 ^ 28
  someLocal : 1 ≤ u16 p 12
  locals : u16 p 12 ≤ 4096
  scale : u16 p 14 = 0
  timeout : 1 ≤ u32 p 16
  tail : allZero (p.drop 20) = true
  group : u16 p 2 ≤ 1023

/-- The group of a BUCKET_POLICY and the tag's last bucket are the context's, a torus algorithm has a box, and
nothing of the tag runs. -/
structure BucketPlaceOk (s : State) (ctx : Nat) (g : Group) (p : List Byte) : Prop where
  group : nmGet s.fab.groups (u16 p 2) = some g
  groupOwned : g.ctx = ctx
  owned : ∀ b, nmGet s.fab.buckets (u16 p 0) = some b → b.ctx = ctx
  box : bits (u8 p 4) 2 2 = 2 → g.shape ≠ []
  idle : tagBusy s (u16 p 0) = false

theorem doBucketPolicy_of_ok {s : State} {cid : Nat} {c : Cmd} {g : Group} (hready : ready s cid 0x43 = some c)
    (hfields : BucketFieldsOk c.param) (hplace : BucketPlaceOk s (c.ctx.getD 0) g c.param) :
    doBucketPolicy cid s = finish0 cid stOK (updFab (fun f => { f with
      buckets := nmSet (u16 c.param 0) (bucketMade (c.ctx.getD 0) c.param) f.buckets
      insts := f.insts.filter (fun i => i.tag != u16 c.param 0)
      goneTags := f.goneTags.filter (fun e => e.1 != u16 c.param 0) }) (startCmd cid s)) := by
  have hidle : tagBusy (startCmd cid s) (u16 c.param 0) = false := hplace.idle
  have hwide : u8 c.param 5 ≠ 10 := by rcases hfields.wire with h | h <;> simp [h]
  unfold doBucketPolicy
  simp only [hready, startCmd_fab, hplace.group]
  rw [if_neg ?fields, if_neg ?owner, if_neg ?box, if_neg (by simp [hidle])]
  · rfl
  case fields =>
    obtain ⟨hoper, halg, hmode, hwire, hflits, hflits', helems, helems', hlocal, hlocal', hscale,
      htime, htail, hgroup⟩ := hfields
    have hwire' : u8 c.param 5 ∈ [0, 1, 10] := by rcases hwire with h | h <;> simp [h]
    simpa [hoper, halg, hmode, hwire', Nat.ne_of_gt hflits, hflits', Nat.ne_of_gt helems, Nat.ne_of_gt hlocal, hlocal',
      hscale, Nat.ne_of_gt htime, htail, hgroup] using helems'
  case owner =>
    split
    next b hb => simp [hplace.owned b hb, hplace.groupOwned]
    next => simp [hplace.groupOwned]
  case box => simpa [hwide] using hplace.box

/-- Settles O50: an element by its block scale, the two commands by what they leave where every check passes. -/
theorem blockScaleElements : Obligations.BlockScaleElements := by
  refine ⟨fun ftz blk j c h => bs8Elem_of_zero_scale j c h, fun blk j c n q hpos hlt hcode => ?scale,
    fun ftz blk j c h => bs8Elem_of_nan_scale j c h, ?group, ?bucket⟩
  case scale => rw [bs8Elem_of_scale j c hpos hlt hcode]
  case group =>
    rintro s cid ctx n g off c o ids shape hready rfl rfl rfl rfl rfl hindex hnonempty hmembers hrank hreserved haligned
      htail hbox ho rfl hfits hself hdistinct htorus howned hidle
    refine ⟨_, congrArg Host.Outcome.next (doGroupSet_of_ok hready
      ⟨hindex, hnonempty, hmembers, hrank, hreserved, haligned, htail, hbox⟩ ho
      ⟨hfits, hself, hdistinct, htorus, howned, hidle⟩), doneWith_finish hready rfl _ _, rfl, rfl⟩
  case bucket =>
    rintro s cid ctx tag c g hready rfl rfl hoper halg hmode hwire hflits hflits' helems helems' hlocal hlocal' hscale htime
      htail hgroup hg hgown howned hbox hidle
    have hset := doBucketPolicy_of_ok hready
      ⟨hoper, halg, hmode, hwire, hflits, hflits', helems, helems', hlocal, hlocal', hscale, htime, htail, hgroup⟩
      ⟨hg, hgown, howned, hbox, hidle⟩
    refine ⟨_, _, _, congrArg (Host.Outcome.next ∘ wakeEarly) hset, rfl, doneWith_finish hready rfl _ _,
      nmGet_nmSet .., ?_, ?_, fun k hk => nmGet_nmSet_ne _ _ _ _ hk, rfl⟩
    · rw [bucketMade, hscale]
    · -- what stays is of other tags (R276)
      exact List.find?_eq_none.2 fun i hi => by simpa using (List.mem_filter.1 hi).2

end Sys2Proof.Machine
end

section
/-! PROOFS. Reads of registers and the shadows of their readers, and the register writes that have a row of their own (O39). -/

namespace Sys2Proof.Machine

open Sys2Proof

/-! ## Shadows (R451, R456) -/

theorem shadowOf_latch (rq : Requester) (x : RegVal) (s : State) : shadowOf (latch rq x s) rq = some x := by
  have hold : (s.reg.shadow.filter (fun e => e.1 != rq)).find? (fun e => e.1 == rq) = none :=
    List.find?_eq_none.2 fun e he => by simpa using (List.mem_filter.1 he).2
  simp [shadowOf, latch, List.find?_append, hold]

theorem shadowOf_latch_ne {rq q : Requester} (x : RegVal) (s : State) (h : q ≠ rq) :
    shadowOf (latch rq x s) q = shadowOf s q := by
  have hkept : (s.reg.shadow.filter (fun e => e.1 != rq)).find? (fun e => e.1 == q) =
      s.reg.shadow.find? (fun e => e.1 == q) := by
    rw [List.find?_filter]
    congr 1
    funext e
    by_cases he : e.1 = q <;> simp [he, h]
  simp [shadowOf, latch, List.find?_append, hkept, h.symm]

section
variable {s : State} {rq : Requester} {a : Nat}

/-- R451: byte 0 of a wide register latches it for its reader. -/
theorem readWord_of_low (hwide : 4 < (regAt s rq a).2.length) (hlow : (regAt s rq a).1 = a) :
    readWord rq a s = ((regAt s rq a).2.take 4, latch rq (regAt s rq a) s) := by
  unfold readWord
  simp only [if_neg (Nat.not_le.2 hwide), hlow, if_true]

/-- R451: a higher word comes from the shadow that holds its register, and otherwise from the register. -/
theorem readWord_of_high {y : RegVal} (hwide : 4 < (regAt s rq a).2.length) (hhigh : (regAt s rq a).1 ≠ a)
    (hy : shadowOf s rq = some y) : readWord rq a s =
      (slice (if y.1 = (regAt s rq a).1 then y.2 else (regAt s rq a).2) (a - (regAt s rq a).1) 4, s) := by
  unfold readWord
  simp only [if_neg (Nat.not_le.2 hwide), if_neg hhigh.symm, hy]

theorem readWord_of_narrow (h : (regAt s rq a).2.length ≤ 4) : readWord rq a s = ((regAt s rq a).2, s) := by
  unfold readWord
  exact if_pos h

end

/-- R451, R464: a read moves the shadows, the count of refused accesses and what the package answers. -/
theorem doRegisterReadLatch_frame (rq : Requester) (off size : Nat) (s : State) :
    ∃ out shadow badsize, doRegisterReadLatch rq off size s =
      { s with out := out, reg := { s.reg with shadow := shadow, badsize := badsize } } := by
  unfold doRegisterReadLatch
  split
  next =>
    cases rq with
    | host fn => dsimp only; split <;> exact ⟨_, _, _, rfl⟩
    | firmware => exact ⟨_, _, _, rfl⟩
    | mgmt => exact ⟨_, _, _, rfl⟩
  next =>
    split
    next => exact ⟨_, _, _, rfl⟩
    next =>
      dsimp only
      rw [readWords_frame]
      exact ⟨_, _, _, rfl⟩

/-! ## Writes of a context's registers by their writer (R132, R183, R481) -/

section
variable {s : State} {rq : Requester} {ctx : Nat} {c : Ctx} (hc : ctxOf s ctx = some c) (hwriter : ctxWriter rq c = true)
include hc hwriter

theorem doHubNumctlWrite_of_writer (val : W64) : doHubNumctlWrite rq ctx val s =
    noteRwp (c.num_.rwp != val &&& numctlRwp) (updCtx ctx (fun c => { c with num_ := numctlTake val c.num_ }) s) := by
  simp [doHubNumctlWrite, hc, hwriter]

theorem doHubNumringWrite_of_writer (val : W64) : doHubNumringWrite rq ctx val s =
    noteRwp (c.num_.ringRwp != val &&& 0xFFFFFFFF00000000) (updCtx ctx (fun c => { c with
      num_ := { c.num_ with ring := val.setWidth 32, ringRwp := val &&& 0xFFFFFFFF00000000 } }) s) := by
  simp [doHubNumringWrite, hc, hwriter]

theorem doHubSpecWrite_of_writer (val : W64) : doHubSpecWrite rq ctx val s =
    noteRwp (c.spec.rwp != val &&& 0xFFFC) (updCtx ctx (fun c => { c with
      spec := { c.spec with en := val.getLsbD 0, rwp := val &&& 0xFFFC } }) s) := by
  simp [doHubSpecWrite, hc, hwriter]

theorem doPmcSmpTailWrite_of_writer {val : W32} (hring : (c.pmc.smpHead - val).toNat ≤ 64 * 2 ^ c.pmc.smpSize) :
    doPmcSmpTailWrite rq ctx val s = updCtx ctx (fun c => { c with pmc := { c.pmc with smpTail := val } }) s := by
  simp [doPmcSmpTailWrite, hc, hwriter, Nat.not_lt.2 hring, -BitVec.toNat_sub]

end

/-- R387: the write reaches ERR_TILTH_W, and the rest that it moves is the register block's. -/
theorem doErrTilthWWrite_of_writer {s : State} {rq : Requester} (val : W64) (h : errWriter rq = true) :
    ∃ reg, doErrTilthWWrite rq val s = { s with err := { s.err with w := val }, reg := reg } := by
  unfold doErrTilthWWrite
  rw [if_neg (by simp [h]), noteRwp_frame]
  exact ⟨_, rfl⟩

/-- What a context holds after a write of one of its registers by a requester whose BARs answer. -/
theorem ctxOf_updCtx_dropHeld {s : State} {ctx : Nat} {c : Ctx} (rq : Requester) (f : Ctx → Ctx) (hc : ctxOf s ctx = some c) :
    ctxOf (updCtx ctx f (dropHeld rq s)) ctx = some (f c) := by
  rw [ctxOf_updCtx]
  exact congrArg (Option.map f) hc

/-- Settles O39: the reads by what one word answers, the writes by what each sets in the state that its drop leaves. -/
theorem readShadows : Obligations.ReadShadows := by
  refine ⟨?low, ?high, fun s rq a h => readWord_of_narrow h, ?frame, ?numctl, ?numring, ?spec, ?tilth, ?tail⟩
  case low =>
    intro s rq a hwide hlow
    rw [readWord_of_low hwide hlow]
    exact ⟨rfl, shadowOf_latch .., fun q hq => shadowOf_latch_ne _ _ hq⟩
  case high =>
    intro s rq a y hwide hhigh hy
    rw [readWord_of_high hwide hhigh hy]
    exact ⟨rfl, fun hsame => by simp [hsame], fun hother => by simp [hother]⟩
  case frame =>
    rintro s t rq off size ⟨⟩
    obtain ⟨out, shadow, badsize, hread⟩ := doRegisterReadLatch_frame rq off size s
    rw [hread]
  case numctl =>
    intro s rq ctx val c hon hc hwriter
    exact ⟨_, _, congrArg Host.Outcome.next (onBar_on _ _ _ hon),
      doHubNumctlWrite_of_writer (s := dropHeld rq s) hc hwriter val, rfl, ctxOf_updCtx_dropHeld _ _ hc⟩
  case numring =>
    intro s rq ctx val c hon hc hwriter
    exact ⟨_, _, congrArg Host.Outcome.next (onBar_on _ _ _ hon),
      doHubNumringWrite_of_writer (s := dropHeld rq s) hc hwriter val, rfl, ctxOf_updCtx_dropHeld _ _ hc⟩
  case spec =>
    intro s rq ctx val c hon hc hwriter
    exact ⟨_, _, congrArg Host.Outcome.next (onBar_on _ _ _ hon),
      doHubSpecWrite_of_writer (s := dropHeld rq s) hc hwriter val, rfl, ctxOf_updCtx_dropHeld _ _ hc⟩
  case tilth =>
    intro s rq val hon hwriter
    obtain ⟨reg, hwrite⟩ := doErrTilthWWrite_of_writer (s := dropHeld rq s) val hwriter
    exact ⟨_, congrArg Host.Outcome.next ((onBar_on _ _ _ hon).trans hwrite), rfl, rfl⟩
  case tail =>
    intro s rq ctx val c hon hc hwriter hring
    exact ⟨_, congrArg Host.Outcome.next ((onBar_on _ _ _ hon).trans
      (doPmcSmpTailWrite_of_writer (s := dropHeld rq s) hc hwriter hring)), ctxOf_updCtx_dropHeld _ _ hc, rfl⟩

end Sys2Proof.Machine
end

section
/-! PROOFS. PLAN_LOAD, PLAN_UNLOAD, SEG_RUN and SEG_FENCE (O6). -/

namespace Sys2Proof.Machine

open Sys2Proof

section
variable {s : State} {cid : Nat} {k : Cmd} {c : Ctx}

/-- The context of a command, where it has one, is the same once a command has started. -/
theorem callerOf_startCmd (cid : Nat) (s : State) (x : Option Nat) :
    x.bind (ctxOf (startCmd cid s)) = x.bind (ctxOf s) := rfl

/-- What a context holds after an update of it by a command that has started. -/
theorem ctxOf_updCtx_startCmd {n : Nat} (cid : Nat) (f : Ctx → Ctx) (hc : ctxOf s n = some c) :
    ctxOf (updCtx n f (startCmd cid s)) n = some (f c) := by
  rw [ctxOf_updCtx]
  exact congrArg (Option.map f) hc

/-! ## PLAN_LOAD (R160, R165, R317) -/

/-- The plan that a PLAN_LOAD makes of an image. -/
def planMade (i : Nat) (p : List Byte) (m : Image) : Plan :=
  { id := i, handle := BitVec.ofNat 32 (u32 p 0), off := u64 p 8, peds := m.peds, segs := m.segs
    fixed := (m.bank.filter (fun e => e.2.policy == 0)).map (fun e => (e.1, e.2.scale)) }

/-- The context with a plan loaded; the image of its first plan also sets what R117 and R165 say. -/
def planAdded (m : Image) (pl : Plan) (c : Ctx) : Ctx := { firstLoad m c with plans := c.plans ++ [pl] }

/-- The length of the image that a PLAN_LOAD names, as the image's header gives it. -/
def imageSize (s : State) (o : Obj) (p : List Byte) : Nat := leNat (objRead s o (u64 p 8 + 28) 4)

/-- A PLAN_LOAD names a whole image, aligned, within an object of the context. -/
structure ImageNamed (s : State) (c : Ctx) (o : Obj) (p : List Byte) : Prop where
  reserved : u32 p 4 = 0
  tail : allZero (p.drop 16) = true
  aligned : u64 p 8 % 256 = 0
  owned : ownObj s c.num (BitVec.ofNat 32 (u32 p 0)) = some o
  header : u64 p 8 + 64 ≤ o.size
  size : 64 ≤ imageSize s o p
  fits : u64 p 8 + imageSize s o p ≤ o.size

theorem doPlanLoad_of_image {o : Obj} {m : Image} {i : Nat} (hready : ready s cid 0x30 = some k)
    (hctx : k.ctx.bind (ctxOf s) = some c) (hnamed : ImageNamed s c o k.param)
    (hread : readImage (startCmd cid s) c (objRead s o (u64 k.param 8) (imageSize s o k.param)) = some m)
    (hdomain : m.segs.any (fun d => d.progs.any (fun x => !(inDomain c.domain x.ped2))) = false)
    (hfree : lowestPlan c = some i) :
    doPlanLoad cid s = finish cid stOK (leBytes 4 i ++ leBytes 2 m.segs.length)
      (updCtx c.num (planAdded m (planMade i k.param m)) (startCmd cid s)) := by
  obtain ⟨hreserved, htail, haligned, howned, hheader, hsize, hfits⟩ := hnamed
  have howned' : ownObj (startCmd cid s) c.num (BitVec.ofNat 32 (u32 k.param 0)) = some o := howned
  have hlength : leNat (objRead s o (u64 k.param 8 + 28) 4) = imageSize s o k.param := rfl
  unfold doPlanLoad
  simp only [hready, callerOf_startCmd, hctx, howned', objRead_startCmd, hlength, hread, hfree]
  rw [if_neg (by simp [hreserved, htail, haligned]), if_neg (Nat.not_lt.2 hheader),
    if_neg (by simp [hsize, hfits]), if_neg (by simp only [hdomain, Bool.false_eq_true, not_false_eq_true])]
  rfl

/-! ## PLAN_UNLOAD (R165) -/

/-- The context without a plan. -/
def planDropped (id : Nat) (c : Ctx) : Ctx := { c with plans := c.plans.filter (fun x => x.id != id) }

theorem planOf_planDropped (id : Nat) (c : Ctx) : planOf (planDropped id c) id = none :=
  List.find?_eq_none.2 fun x hx => by simpa using (List.mem_filter.1 hx).2

theorem doPlanUnload_of_unused (hready : ready s cid 0x31 = some k) (hctx : k.ctx.bind (ctxOf s) = some c)
    (htail : allZero (k.param.drop 4) = true) (hplan : (planOf c (u32 k.param 0)).isSome = true)
    (hruns : c.runs.any (fun r => r.plan == u32 k.param 0) = false)
    (hcmds : s.cmds.any (fun q => q.ctx == some c.num && q.opcode == 0x32 && q.done.isNone &&
      u32 q.param 0 == u32 k.param 0) = false) :
    doPlanUnload cid s = finish0 cid stOK (updCtx c.num (planDropped (u32 k.param 0)) (startCmd cid s)) := by
  unfold doPlanUnload
  simp only [hready, callerOf_startCmd, hctx]
  rw [if_neg ?fields, if_neg ?unused]
  · rfl
  case fields => simpa [htail] using Option.isSome_iff_ne_none.1 hplan
  case unused =>
    rw [any_startCmd _ _ _ fun _ => rfl, hruns, hcmds]
    exact Bool.false_ne_true

/-! ## SEG_RUN (R165, R317) -/

/-- The run of the segments that a SEG_RUN names. -/
def runMade (cid : Nat) (pl : Plan) (p : List Byte) : SegRun :=
  { cid := cid, plan := pl.id, seg := u16 p 4, count := u16 p 6
    seed := if u8 p 8 = 1 then some (BitVec.ofNat 64 (u64 p 16)) else none
    ended := 0, firstGc0 := none, overrun := 0, status := none, faultRes := none }

/-- The context with one more run, which takes it out of IDLE. -/
def runJoined (r : SegRun) (c : Ctx) : Ctx :=
  { c with
    runs := c.runs ++ [r]
    st := if c.st = .idle then .ready else c.st
    deficit := if c.st = .idle then min c.deficit 0 else c.deficit }

/-- The fields of a SEG_RUN lie in their ranges, its segments exist, and a seed stands at the first of a step (R317). -/
structure RunFieldsOk (pl : Plan) (p : List Byte) : Prop where
  seedv : u8 p 8 ≤ 1
  reserved : allZero (slice p 9 7) = true
  tail : allZero (p.drop 24) = true
  nonempty : 1 ≤ u16 p 6
  count : u16 p 6 ≤ 4096
  exist : u16 p 4 + u16 p 6 ≤ pl.segs.length
  seeded : u8 p 8 = 1 → stepFirst pl (u16 p 4) = true

theorem doSegRun_of_ok {pl : Plan} (hready : ready s cid 0x32 = some k) (hturn : runTurn s k = true)
    (hctx : k.ctx.bind (ctxOf s) = some c) (hlost : c.lost = none) (hplan : planOf c (u32 k.param 0) = some pl)
    (hfields : RunFieldsOk pl k.param) (hfit : firstUnfit c pl (u16 k.param 4) (u16 k.param 6) = none)
    (hlimit : ((pl.segs.drop (u16 k.param 4)).take (u16 k.param 6)).all (limitOk (startCmd cid s) c) = true) :
    doSegRun cid s =
      decideLeases (updCtx c.num (runJoined (runMade cid pl k.param)) (earn (startCmd cid s))) := by
  obtain ⟨hseedv, hreserved, htail, hnonempty, hcount, hexist, hseeded⟩ := hfields
  unfold doSegRun doSegRun.slice'
  simp only [hready, hturn, callerOf_startCmd, hctx, hlost, hplan, hfit, hlimit]
  rw [if_neg (by simp), if_neg (by simp), if_neg ?fields, if_neg (by simp)]
  · rfl
  case fields => simpa [hseedv, hreserved, htail, Nat.ne_of_gt hnonempty, hcount, hexist] using hseeded

/-! ## SEG_FENCE (R210, R349) -/

/-- The context with one more SEG_FENCE that waits. -/
def fenceAdded (cid : Nat) (c : Ctx) : Ctx := { c with fences := c.fences ++ [cid] }

theorem doSegFence_of_no_earlier_segment (hready : ready s cid 0x33 = some k) (hctx : k.ctx.bind (ctxOf s) = some c)
    (hparam : allZero k.param = true) (hlater : ∀ r, segOf s c.num = some r → k.fetchPcc.toNat < r.gc0.toNat) :
    doSegFence cid s = finish cid stOK (leBytes 8 s.clk.pcc.toNat) (startCmd cid s) := by
  unfold doSegFence
  simp only [hready, callerOf_startCmd, hctx]
  rw [if_neg (by simp [hparam]), if_neg ?idle]
  · rfl
  case idle =>
    split
    next r hr => simpa using hlater r hr
    next => exact Bool.false_ne_true

theorem doSegFence_of_earlier_segment {r : RunSeg} (hready : ready s cid 0x33 = some k)
    (hctx : k.ctx.bind (ctxOf s) = some c) (hparam : allZero k.param = true) (hseg : segOf s c.num = some r)
    (hearlier : r.gc0.toNat ≤ k.fetchPcc.toNat) :
    doSegFence cid s = updCtx c.num (fenceAdded cid) (startCmd cid s) := by
  have hseg' : segOf (startCmd cid s) c.num = some r := hseg
  unfold doSegFence
  simp only [hready, callerOf_startCmd, hctx, hseg']
  rw [if_neg (by simp [hparam]), if_pos (by simp [hearlier])]
  rfl

end

/-- Settles O6: each command by what it leaves where its checks pass. -/
theorem planCommandsAct : Obligations.PlanCommandsAct := by
  refine ⟨?load, ?unload, ?run, ?answered, ?waiting⟩
  case load =>
    intro s cid k c o m i hready hctx hc hreserved htail haligned howned hheader hsize hfits hread hdomain hfree
    exact ⟨_, _, congrArg Host.Outcome.next (doPlanLoad_of_image hready hctx
      ⟨hreserved, htail, haligned, howned, hheader, hsize, hfits⟩ hread hdomain hfree),
      doneWith_finish hready rfl _ _, ctxOf_updCtx_startCmd cid _ hc, rfl, rfl⟩
  case unload =>
    intro s cid k c hready hctx hc htail hplan hruns hcmds
    exact ⟨_, _, congrArg Host.Outcome.next (doPlanUnload_of_unused hready hctx htail hplan hruns hcmds),
      doneWith_finish hready rfl _ _, ctxOf_updCtx_startCmd cid _ hc, planOf_planDropped _ c, rfl⟩
  case run =>
    intro s cid k c pl hready hturn hctx hlost hplan hseedv hreserved htail hnonempty hcount hexist hseeded hfit hlimit
    exact ⟨_, congrArg Host.Outcome.next (doSegRun_of_ok hready hturn hctx hlost hplan
      ⟨hseedv, hreserved, htail, hnonempty, hcount, hexist, hseeded⟩ hfit hlimit), rfl⟩
  case answered =>
    intro s cid k c hready hctx hparam hlater
    exact ⟨_, congrArg Host.Outcome.next (doSegFence_of_no_earlier_segment hready hctx hparam hlater),
      doneWith_finish hready rfl _ _, rfl⟩
  case waiting =>
    intro s cid k c r hready hctx hc hparam hseg hearlier
    exact ⟨_, _, congrArg Host.Outcome.next (doSegFence_of_earlier_segment hready hctx hparam hseg hearlier),
      ctxOf_updCtx_startCmd cid _ hc, rfl, rfl⟩

end Sys2Proof.Machine
end

section
/-! PROOFS. The horizons' own events (O8): copies, NVMe completions, failures and calibration windows. -/

namespace Sys2Proof.Machine

open Sys2Proof

/-! ## Copies (R211-R213) -/

/-- The state once a granule's copy is made, each end of it reached where it is served. -/
def granuleCopied (m : Mig) (o : Obj) (x : MigG) (j : Nat) (s : State) : State :=
  copyNow { o with spread := m.spread, home := m.home } (.move j) j (locOf o (j * 65536)) (moveDest s m o x)
    (copyReach o j (moveDest s m o x) (copyReach o j (locOf o (j * 65536)) s))

/-- The move of an object marks the granule as copied. -/
def markCopied (h : W32) (cid : Option Nat) (j : Nat) (s : State) : State :=
  updHz (fun z => { z with
    migs := updWhere (fun y => y.handle == h && y.cid == cid) (fun y => { y with
      left := updWhere (fun y => y.granule == j) (fun y => { y with copied := true }) y.left }) z.migs }) s

/-- The granules that a boundary would switch take their new home at once where no segment of the context runs. -/
def switchIdle (ctx : Nat) (s : State) : State := if (segOf s ctx).isNone then switchMoves ctx s else s

theorem doMigrationCopyDone_of_answered {s : State} {handle j : Nat} {m : Mig} {o : Obj} {x : MigG}
    (hm : s.hz.migs.find? (fun m => m.handle == BitVec.ofNat 32 handle &&
      m.left.any (fun x => x.granule == j && x.begun && !x.copied)) = some m)
    (ho : objOf s (BitVec.ofNat 32 handle) = some o)
    (hx : m.left.find? (fun x => x.granule == j && x.begun && !x.copied) = some x)
    (hanswered : copyOpen s (BitVec.ofNat 32 handle) (.move j) false = false) :
    doMigrationCopyDone handle j s = switchIdle o.ctx (beginNext (BitVec.ofNat 32 handle) m.cid
      (markCopied (BitVec.ofNat 32 handle) m.cid j (granuleCopied m o x j s))) := by
  simp only [doMigrationCopyDone, hm, ho, hx, hanswered, Bool.false_eq_true, if_false]
  rfl

theorem doPromotionCopyDone_of_answered {s : State} {handle j : Nat} {p : PromoC} {o : Obj}
    (hp : s.hz.promos.find? (fun p => p.handle == BitVec.ofNat 32 handle && p.granule == j && !p.copied) = some p)
    (ho : objOf s (BitVec.ofNat 32 handle) = some o)
    (hanswered : copyOpen s (BitVec.ofNat 32 handle) (.promo j) false = false) :
    doPromotionCopyDone handle j s = updHz (fun z => { z with
        promos := updWhere (fun x => x.handle == BitVec.ofNat 32 handle && x.granule == j)
          (fun x => { x with copied := true }) z.promos })
      (copyNow o (.promo j) j (homeLoc o (j * 65536)) (.hz1 (p.frame * 65536))
        (copyReach o j (homeLoc o (j * 65536)) s)) := by
  simp only [doPromotionCopyDone, hp, ho, hanswered, Bool.false_eq_true, if_false]

/-! ## NVMe (R219-R221, R380) -/

/-- The commands of a drive without one that has ended. -/
def nvmeTaken (id : Nat) (l : List NvmeCmd) : List NvmeCmd := l.filter (fun x => x.id != id)

theorem nvmeTaken_none_waits {n : NvmeCmd} {l : List NvmeCmd}
    (hgiven : l.all (fun x => x.drive != n.drive || x.queue.isSome) = true) :
    (nvmeTaken n.id l).find? (fun x => x.drive == n.drive && x.queue.isNone) = none := by
  refine List.find?_eq_none.2 fun x hx => ?_
  have hx' := List.all_eq_true.1 hgiven x (List.mem_filter.1 hx).1
  cases hq : x.queue <;> simp_all

/-- A command that serves no request and no merge, with none that waits for its queue, only leaves what it found bad. -/
theorem nvmeEnds_of_alone {s : State} {n : NvmeCmd} (res : NvmeResult) (hreqs : n.reqs = []) (hop : n.op ≠ 2)
    (hgiven : s.hz.nvme.all (fun x => x.drive != n.drive || x.queue.isSome) = true) :
    nvmeEnds n res s = updHz (fun h => { h with
      nvme := nvmeTaken n.id h.nvme
      pois3 := (readBad s n res).foldl (fun l b => addOnce (n.drive, b) l) h.pois3 }) s := by
  have hnone := nvmeTaken_none_waits hgiven
  unfold nvmeEnds
  extract_lets ended _ lost poisoned queued flushed
  have hqueued : queued = poisoned := by
    dsimp -zeta only [queued]
    split
    next k x _ hx => exact absurd (hnone.symm.trans hx) nofun
    next => rfl
  have hflushed : flushed = queued := if_neg hop
  rw [hreqs, List.foldl_nil, hflushed, hqueued]
  rfl

theorem doNvmeCompletion_of_alone {s : State} {drive cmd : Nat} {n : NvmeCmd} (res : NvmeResult)
    (hn : s.hz.nvme.find? (fun n => n.drive == drive && n.id == cmd && n.queue.isSome) = some n) (hreqs : n.reqs = [])
    (hop : n.op ≠ 2) (hgiven : s.hz.nvme.all (fun x => x.drive != drive || x.queue.isSome) = true) :
    doNvmeCompletion drive cmd res s = updHz (fun h => { h with
      nvme := nvmeTaken cmd h.nvme
      pois3 := (readBad s n res).foldl (fun l b => addOnce (n.drive, b) l) h.pois3 }) s := by
  obtain ⟨⟨rfl, rfl⟩, -⟩ : (n.drive = drive ∧ n.id = cmd) ∧ n.queue.isSome = true := by
    simpa using List.find?_some hn
  simp only [doNvmeCompletion, hn]
  exact nvmeEnds_of_alone res hreqs hop hgiven

/-- R221: the record of a drive that fails, and the outcome that follows. -/
def driveLost (drive : Nat) (cause : DriveCause) (status : W16) (s : State) : State :=
  reportDegraded (postRec 0x10 2 none (56 + drive / 4) drive
    [(0, 1, match cause with | .linkLoss => 0 | .fatalStatus => 1 | .timeout => 2), (2, 2, status.toNat)]
    (updHz (fun h => { h with failedDrives := h.failedDrives ++ [drive] }) s))

theorem hz_driveLost (drive : Nat) (cause : DriveCause) (status : W16) (s : State) :
    (driveLost drive cause status s).hz = { s.hz with failedDrives := s.hz.failedDrives ++ [drive] } := by
  unfold driveLost reportDegraded
  rw [postRec_frame]
  rfl

theorem outcome_driveLost (drive : Nat) (cause : DriveCause) (status : W16) (s : State) :
    (driveLost drive cause status s).boot.outcome = if s.boot.outcome = 1 then 2 else s.boot.outcome := by
  unfold driveLost reportDegraded
  rw [postRec_frame]
  rfl

theorem doDriveFailed_of_idle {s : State} {drive : Nat} (cause : DriveCause) (status : W16) (hdrive : drive ∈ s.hz.drives)
    (hgood : drive ∉ s.hz.failedDrives) (hidle : s.hz.nvme.all (fun n => n.drive != drive) = true) :
    doDriveFailed drive cause status s = driveLost drive cause status s := by
  have hmine : (driveLost drive cause status s).hz.nvme.filter (fun n => n.drive == drive) = [] := by
    rw [hz_driveLost]
    exact List.filter_eq_nil_iff.2 fun n hn => by simpa using List.all_eq_true.1 hidle n hn
  unfold doDriveFailed
  rw [if_neg (by simp [hdrive, hgood])]
  exact congrArg (List.foldl _ (driveLost drive cause status s)) hmine

theorem doDdr5ChannelFailed_of_good {s : State} {ch : Nat} (hch : ch ∈ s.hz.channels) (hgood : ch ∉ s.hz.failedCh) :
    doDdr5ChannelFailed ch s = reportDegraded (updHz (fun h => { h with failedCh := h.failedCh ++ [ch] }) s) := by
  unfold doDdr5ChannelFailed
  exact if_neg (by simp [hch, hgood])

/-! ## Calibration windows (R418) -/

theorem mem_addOnce_self {α : Type} [DecidableEq α] (x : α) (l : List α) : x ∈ addOnce x l := by
  unfold addOnce
  split <;> simp [*]

/-- Settles O8: each event by the lemma of its row. -/
theorem horizonEventsAct : Obligations.HorizonEventsAct := by
  refine ⟨?migration, ?promotion, ?nvme, ?drive, ?channel, ?opened, ?closed⟩
  case migration =>
    rintro s handle j m o x _ rfl hm ho hx hanswered
    exact ⟨_, _, congrArg Host.Outcome.next (doMigrationCopyDone_of_answered hm ho hx hanswered), rfl, rfl⟩
  case promotion =>
    rintro s handle j p o _ rfl hp ho hanswered
    exact ⟨_, congrArg Host.Outcome.next (doPromotionCopyDone_of_answered hp ho hanswered), rfl⟩
  case nvme =>
    intro s drive cmd res n hn hreqs hop hgiven
    exact ⟨_, congrArg Host.Outcome.next (doNvmeCompletion_of_alone res hn hreqs hop hgiven), rfl⟩
  case drive =>
    intro s drive cause status hdrive hgood hidle
    refine ⟨_, congrArg Host.Outcome.next (doDriveFailed_of_idle cause status hdrive hgood hidle), ?_,
      outcome_driveLost ..⟩
    rw [hz_driveLost]
    exact List.mem_append_right _ (List.mem_singleton_self _)
  case channel =>
    intro s ch hch hgood
    exact ⟨_, congrArg Host.Outcome.next (doDdr5ChannelFailed_of_good hch hgood), rfl, rfl⟩
  case opened =>
    intro s ch hopen
    exact ⟨_, congrArg Host.Outcome.next (if_pos hopen), mem_addOnce_self .., rfl⟩
  case closed =>
    intro s ch hclosed
    exact ⟨_, congrArg Host.Outcome.next (if_neg (by simp [hclosed])), not_mem_del _ _, rfl⟩

end Sys2Proof.Machine
end

section
/-! PROOFS. PING, the completion write, the completion ring's timer, fetches and the aperture (O4). -/

namespace Sys2Proof.Machine

open Sys2Proof

/-! ## PING (R316) -/

theorem doPing_of_ready {s : State} {cid : Nat} {k : Cmd} (hready : ready s cid 0x01 = some k)
    (htail : allZero (k.param.drop 8) = true) :
    doPing cid s = finish cid stOK (slice k.param 0 8 ++ leBytes 8 s.clk.pcc.toNat) (startCmd cid s) := by
  simp only [doPing, hready, htail, Bool.not_true, Bool.false_eq_true, if_false]
  rfl

/-! ## COMPLETION_WRITE (R313, R314, R438) -/

theorem cmds_settleAdmin (fn : Nat) (s : State) : (settleAdmin fn s).cmds = s.cmds := by
  unfold settleAdmin
  split <;> rfl

/-- The commands without the one that has left the package. -/
def cmdsWithout (cid : Nat) (l : List Cmd) : List Cmd := l.filter (fun k => k.cid != cid)

theorem cmdOf_of_without {s t : State} {cid : Nat} (h : t.cmds = cmdsWithout cid s.cmds) : cmdOf t cid = none := by
  unfold cmdOf
  rw [h]
  exact List.find?_eq_none.2 fun k hk => by simpa using (List.mem_filter.1 hk).2

/-- The completion of a command that has ended: its reply and, where it has a ring, its entry. -/
def completionPut (c : Cmd) (st : W16) (res : List Byte) (s : State) : State :=
  if c.cflags.getLsbD 1 || !(cqOf s c.fn c.ctx c.cq).en then putReply c st res s
  else writeEntryTo c st res (putReply c st res s)

section
variable {s : State} {cid : Nat} {c : Cmd} {st : W16} {res : List Byte} (hc : cmdOf s cid = some c)
  (hdone : c.done = some (st, res))
include hc hdone

theorem doCompletionWrite_of_room (hhost : c.fn ≠ mgmtFn) (hon : fnOff s c.fn = false) (hrings : ringsOn s c.fn = true)
    (hfinal : c.deferred = none) (hroom : (cqOf s c.fn c.ctx c.cq).fill < 2 ^ (cqOf s c.fn c.ctx c.cq).size) :
    doCompletionWrite cid s = settleAdmin c.fn
      { completionPut c st res s with cmds := cmdsWithout cid (completionPut c st res s).cmds } := by
  simp only [doCompletionWrite, hc, if_neg hhost, hon, hrings, hfinal, hdone, Nat.not_le.2 hroom, Bool.not_true,
    Bool.or_self, Bool.false_eq_true, if_false, decide_false, Bool.and_false]
  rfl

/-- R438: the answer of the management path goes out with a message. -/
theorem doCompletionWrite_of_message (hmgmt : c.fn = mgmtFn) :
    doCompletionWrite cid s =
      emit (.mctp (cplBytes c.tag st 0 0xFFFF 0 res)) { s with cmds := cmdsWithout c.cid s.cmds } := by
  simp only [doCompletionWrite, hc, if_pos hmgmt, mctpComplete, hdone]
  rfl

end

/-! ## INTERRUPT_TIME_EXPIRE (R322) -/

theorem doInterruptTimeExpire_of_waiting {s : State} {ctx q : Nat} {c : Ctx} (hc : ctxOf s ctx = some c)
    (hen : (nmGetD c.cq q cplRingOff).en = true) (hvector : (nmGetD c.cq q cplRingOff).vector ≠ 0xFFFF)
    (hitime : (nmGetD c.cq q cplRingOff).itime ≠ 0) (hsince : (nmGetD c.cq q cplRingOff).since ≠ 0) :
    doInterruptTimeExpire ctx q s = signal c.owner (nmGetD c.cq q cplRingOff).vector
      (updCq ctx q { nmGetD c.cq q cplRingOff with since := 0 } s) := by
  simp only [doInterruptTimeExpire, hc]
  exact if_neg (by simp [hen, hvector, hitime, hsince])

/-! ## COMMAND_FETCH (R306, R311, R438) -/

/-- A context's ring is fetched by the function that owns the context, up to eight packets at a time. -/
theorem doCommandFetch_of_ring {s : State} {fn ring : Nat} {ctx : Option Nat}
    (hmine : ∀ x, ctx = some x → ∃ c, ctxOf s x = some c ∧ c.owner = fn) (hmay : mayFetch s fn ctx ring = true) :
    doCommandFetch fn ctx (.ring ring) s = fetchSome fn ctx ring 7 (fetchOne fn ctx ring s) := by
  have hfetch : fetchSome fn ctx ring 8 s = fetchSome fn ctx ring 7 (fetchOne fn ctx ring s) := if_pos hmay
  cases ctx with
  | none => exact hfetch
  | some x =>
    obtain ⟨c, hc, howner⟩ := hmine x rfl
    simp only [doCommandFetch, hc, howner, beq_self_eq_true, if_true]
    exact hfetch

/-- The command that a message of the management path brings. -/
def messageCmd (s : State) (b : List Byte) : Cmd :=
  { cid := s.nextCid, fn := mgmtFn, ctx := none, ring := 0, cq := 0, opcode := u16 b 0, cflags := BitVec.ofNat 16 (u16 b 2)
    pctx := u16 b 4, tag := BitVec.ofNat 32 (u32 b 8), param := slice b 16 48, data := b.drop 64, fetchPcc := s.clk.pcc
    started := false, deferred := none, deferredSent := false, deferredHeld := false, written := false
    done := (mctpStatus s b).map (fun st => (st, zeros 16)) }

theorem takeMctp_of_up {s : State} (b : List Byte) (hm : s.clk.mainEn = true) (hgo : s.err.stopped = none)
    (hup : s.boot.outcome ≠ 0) :
    takeMctp b s = { s with cmds := s.cmds ++ [messageCmd s b], nextCid := s.nextCid + 1 } := by
  unfold takeMctp
  exact if_neg (by simp [hm, hgo, hup])

/-! ## BAR4_ACCESS (R204, R213) -/

theorem filterMap_id_map_some {α : Type} (l : List α) : (l.map some).filterMap id = l := by
  simp [List.filterMap_map]

section
variable {s : State} {port off : Nat} {l : List (Obj × Nat)} (hport : port ≤ 1) (hon : barOff s (64 * port) = false)
include hport hon

/-- A read that falls wholly on bytes of the context is remembered, and becomes requests to their objects. -/
theorem doBar4Access_of_read {n : Nat} (hin : off + n ≤ (portOf s port).bar4)
    (hbytes : (List.range n).map (fun i => aperByte s (64 * port) (off + i)) = l.map some) :
    doBar4Access port off (.read n) s = settleApers (aperAsk port s.hz.nextReq l none (updHz (fun h => { h with
      apers := h.apers ++ [{ id := s.hz.nextReq, port := port, len := n, got := [], bad := false }] }) s)) := by
  have hfn : fnOff s (64 * port) = false := (Bool.or_eq_false_iff.1 hon).1
  unfold doBar4Access
  dsimp only
  rw [if_neg (by simp [hfn, Nat.not_lt.2 hport, Nat.not_lt.2 hin]), if_neg (by simp [hon]), hbytes, if_neg (by simp),
    filterMap_id_map_some]

theorem doBar4Access_of_write {b : List Byte} (hin : off + b.length ≤ (portOf s port).bar4)
    (hbytes : (List.range b.length).map (fun i => aperByte s (64 * port) (off + i)) = l.map some)
    (hmay : ∀ e ∈ l, e.1.rdonly = false) :
    doBar4Access port off (.write b) s = aperAsk port s.hz.nextReq l (some b) s := by
  have hfn : fnOff s (64 * port) = false := (Bool.or_eq_false_iff.1 hon).1
  have hwritable : l.any (fun e => e.1.rdonly) = false := List.any_eq_false.2 fun e he => by simp [hmay e he]
  unfold doBar4Access
  dsimp only
  rw [if_neg (by simp [hfn, Nat.not_lt.2 hport, Nat.not_lt.2 hin]), if_neg (by simp [hon]), hbytes, if_neg (by simp),
    filterMap_id_map_some, if_neg (by simp [hwritable])]

end

section
variable {s : State} {q : Req} {o : Obj} (ho : objOf s q.handle = some o) (id : Nat) (places : List (Nat × Nat))
  (ans : HzAnswer)
include ho

theorem aperServed_of_write (d : List Byte) :
    aperServed q id places (some d) ans s = objWrite q.handle (List.zip (places.map (·.2)) d) s := by
  simp only [aperServed, ho]

/-- The bytes that a read brings, none of them bad, are kept for the access's answer. -/
theorem aperServed_of_read {r : (Nat → Byte × Bool) × State} (hr : r = sourceRead q o (places.map (·.2)) ans s)
    (hgood : ∀ e ∈ places, (r.1 e.2).2 = false) :
    aperServed q id places none ans s =
      settleApers (updHz (fun h => { h with apers := updWhere (fun a => a.id == id) (fun a => { a with
        got := a.got ++ places.map (fun e => (e.1, (r.1 e.2).1)) }) h.apers }) r.2) := by
  have hfind : places.find? (fun e => (r.1 e.2).2) = none := List.find?_eq_none.2 fun e he => by simp [hgood e he]
  have hany : places.any (fun e => (r.1 e.2).2) = false := List.any_eq_false.2 fun e he => by simp [hgood e he]
  simp only [aperServed, ho, ← hr, hfind, hany, Bool.or_false]

end

/-- Settles O4: each row, and the answer to an access, by its lemma. -/
theorem pingCompletionAndAperture : Obligations.PingCompletionAndAperture := by
  refine ⟨?ping, ?completion, ?read, ?write, fun s q o id places d ans ho => aperServed_of_write ho id places ans d,
    fun s q o id places ans r ho hr hgood => aperServed_of_read ho id places ans hr hgood, ?timer, ?ring, ?message, ?answer⟩
  case ping =>
    intro s cid k hready htail
    exact ⟨_, congrArg Host.Outcome.next (doPing_of_ready hready htail), doneWith_finish hready rfl _ _, rfl⟩
  case completion =>
    intro s cid c st res hc hhost hon hrings hfinal hdone hroom
    refine ⟨_, congrArg Host.Outcome.next (doCompletionWrite_of_room hc hdone hhost hon hrings hfinal hroom), ?_⟩
    exact cmdOf_of_without (cmds_settleAdmin ..)
  case read =>
    intro s port off n l hport hon hin hbytes
    exact congrArg Host.Outcome.next (doBar4Access_of_read hport hon hin hbytes)
  case write =>
    intro s port off b l hport hon hin hbytes hmay
    exact congrArg Host.Outcome.next (doBar4Access_of_write hport hon hin hbytes hmay)
  case timer =>
    intro s ctx q c hc hen hvector hitime hsince
    exact ⟨_, congrArg Host.Outcome.next (doInterruptTimeExpire_of_waiting hc hen hvector hitime hsince), rfl⟩
  case ring =>
    intro s fn ring ctx hmine hmay
    exact ⟨_, congrArg Host.Outcome.next (doCommandFetch_of_ring hmine hmay), rfl⟩
  case message =>
    intro s fn ctx b hm hgo hup
    exact ⟨_, messageCmd s b, congrArg Host.Outcome.next (takeMctp_of_up b hm hgo hup), rfl, rfl, rfl, rfl, rfl, rfl, rfl,
      rfl⟩
  case answer =>
    intro s cid c st res hc hmgmt hdone
    exact ⟨_, congrArg Host.Outcome.next (doCompletionWrite_of_message hc hdone hmgmt), rfl⟩

end Sys2Proof.Machine
end

section
/-! PROOFS. The sieve's rows (O23): gathers, scatters, the arrival of a row, merges of the log, and the ladder of an object. -/

namespace Sys2Proof.Machine

open Sys2Proof

/-! ## SIEVE_SCATTER (R236-R238) -/

theorem doSieveScatterAdd_of_issues {s : State} {g t : Nat} {i : Iss} (h : issues 0x15 scatterFaults g t s i)
    (hadd : isApply i.d = false) : doSieveScatterAdd g t s = settle g (addAct i (issueDesc i s)) :=
  issueRow_issues _ _ h (by simp [issues_dOp h, hadd])

theorem doSieveScatterApply_of_issues {s : State} {g t : Nat} {i : Iss} (h : issues 0x15 scatterFaults g t s i)
    (happly : isApply i.d = true) : doSieveScatterApply g t s = settle g (applyAct i (issueDesc i s)) :=
  issueRow_issues _ _ h happly

/-! ## SIEVE_ROW_ARRIVE (R215, R233, R240) -/

/-- A slot of a gather waits for its row: one request for it is open and may be served, and nothing has come for it yet. -/
structure RowAwaited (s : State) (g ser slot id src : Nat) (l : List Nat) (o : OutD) (ga : Gather) (i : Iss) (t : Sieve)
    (ob : Obj) (q : Req) : Prop where
  out : outDOf s g ser = some o
  gather : gatherOf s g ser = some ga
  issued : issOf s g o = some i
  table : sieveOf s i.ctx (BitVec.ofNat 32 (u32 i.d 10)) = some t
  row : ga.ids.getD slot none = some id
  obj : ownObj s i.ctx (BitVec.ofNat 32 (u32 i.d 10)) = some ob
  reqs : rowReqs s g ser slot = [q]
  served : mayServe s q = true
  kind : q.kind = .row src l
  notGot : nmGet ga.got slot = none
  noRung : nmGet ga.rung slot = none

section
variable {s : State} {g ser slot id src : Nat} {l : List Nat} {o : OutD} {ga : Gather} {i : Iss} {t : Sieve} {ob : Obj}
  {q : Req} (h : RowAwaited s g ser slot id src l o ga i t ob q)
include h

/-- A request that names the home is answered with the row of the home. -/
theorem doSieveRowArrive_of_home (hsrc : src = 2) :
    doSieveRowArrive g ser slot s = gatherEnd i (rowIn i t 2 slot ob (id * t.rstride) (rowBytes t)
      (rowVals t (ctxScale (rowTaken g ser slot s) i.ctx t.tscale)) q.ans (rowTaken g ser slot s)) := by
  obtain ⟨hout, hgather, hissued, htable, hrow, hobj, hreqs, hserved, hkind, hnotGot, hnoRung⟩ := h
  subst hsrc
  simp [-List.getD_eq_getElem?_getD, doSieveRowArrive, hout, hgather, hissued, htable, hrow, hobj, hreqs, hserved, hkind,
    hnotGot, hnoRung]

/-- A request that names the hot-row cache is answered with the row that the cache holds. -/
theorem doSieveRowArrive_of_hot {r : HotRow} (hsrc : src = 0)
    (hhot : hotFind t (replicaOf t (dieOfPed2 i.ped2)) id = some r) :
    doSieveRowArrive g ser slot s = gatherEnd i (rowVal i t 0 slot
      (rowVals t (ctxScale (rowTaken g ser slot s) i.ctx t.tscale) (hotBytes (rowTaken g ser slot s) t r.slot).1)
      (hotBytes (rowTaken g ser slot s) t r.slot).2
      (if (hotBytes (rowTaken g ser slot s) t r.slot).2 then
        consumeRow i true t.handle (id * t.rstride) slot (rowTaken g ser slot s) else rowTaken g ser slot s)) := by
  obtain ⟨hout, hgather, hissued, htable, hrow, hobj, hreqs, hserved, hkind, hnotGot, hnoRung⟩ := h
  subst hsrc
  simp [-List.getD_eq_getElem?_getD, doSieveRowArrive, hout, hgather, hissued, htable, hrow, hobj, hreqs, hserved, hkind,
    hnotGot, hnoRung, hhot]

end

/-! ## DLOG_MERGE_GRANULE_DONE (R245, R248) -/

theorem doDlogMergeGranuleDone_of_idle {s : State} {table : Nat} {t : Sieve} (j : Nat) (ht : sieveAt s table = some t)
    (hidle : t.merge = none) : doDlogMergeGranuleDone table j s = mergeStart table s := by
  simp only [doDlogMergeGranuleDone, ht, hidle]

/-- A granule that is rewritten and flushed waits for the boundary, and the rows that wait for the log try again. -/
theorem doDlogMergeGranuleDone_of_flushed {s : State} {table j : Nat} {t : Sieve} {m : MergeSt}
    (ht : sieveAt s table = some t) (hm : t.merge = some m) (hgranule : m.granule = j) (hflushed : m.phase = 4) :
    doDlogMergeGranuleDone table j s = applyWaits table (mergeStart table (updSieve table (fun t => { t with
      merge := none, merging := t.merging ++ [(j, m.frame, m.seq)] }) s)) := by
  simp [doDlogMergeGranuleDone, ht, hm, hgranule, hflushed]

/-! ## OBJ_FALLBACK (R242, R249) -/

/-- The object with a ladder of plain rungs. -/
def ladderSet (r1 r2 : W32) (o : Obj) : Obj := { o with rung1 := r1, rung2 := r2, fbMode := 0 }

/-- An OBJ_FALLBACK of mode 0 names an object of the context and rungs that fit it. -/
structure LadderOk (s : State) (ctx : Nat) (o : Obj) (p : List Byte) : Prop where
  mode : u8 p 12 = 0
  reserved : allZero (slice p 13 3) = true
  tail : allZero (p.drop 16) = true
  owned : ownObj s ctx (BitVec.ofNat 32 (u32 p 0)) = some o
  rung1 : rungBad s ctx (BitVec.ofNat 32 (u32 p 4)) = false
  rung2 : rungBad s ctx (BitVec.ofNat 32 (u32 p 8)) = false
  size : BitVec.ofNat 32 (u32 p 4) = 0 ∨ o.size ≤ rungSize s ctx (BitVec.ofNat 32 (u32 p 4))

theorem doObjFallback_of_ladder {s : State} {cid : Nat} {c : Cmd} {o : Obj} (hready : ready s cid 0x24 = some c)
    (hladder : LadderOk s (c.ctx.getD 0) o c.param)
    (hnoTable : s.sieves.all (fun t => t.handle != BitVec.ofNat 32 (u32 c.param 0)) = true) :
    doObjFallback cid s = finish0 cid stOK (updObj (BitVec.ofNat 32 (u32 c.param 0))
      (ladderSet (BitVec.ofNat 32 (u32 c.param 4)) (BitVec.ofNat 32 (u32 c.param 8))) (startCmd cid s)) := by
  obtain ⟨hmode, hreserved, htail, howned, hrung1, hrung2, hsize⟩ := hladder
  have howned' : ownObj (startCmd cid s) (c.ctx.getD 0) (BitVec.ofNat 32 (u32 c.param 0)) = some o := howned
  have hrung1' : rungBad (startCmd cid s) (c.ctx.getD 0) (BitVec.ofNat 32 (u32 c.param 4)) = false := hrung1
  have hrung2' : rungBad (startCmd cid s) (c.ctx.getD 0) (BitVec.ofNat 32 (u32 c.param 8)) = false := hrung2
  have hnone : (startCmd cid s).sieves.filter (fun t => t.handle == BitVec.ofNat 32 (u32 c.param 0)) = [] :=
    List.filter_eq_nil_iff.2 fun t ht => by simpa using List.all_eq_true.1 hnoTable t ht
  unfold doObjFallback
  simp only [hready, howned', hmode]
  rw [if_neg (by simp [hreserved, htail]), if_neg (by simp [hrung1', hrung2']), if_pos trivial, if_neg ?size, hnone]
  · rfl
  case size =>
    rcases hsize with h | h
    · simp [h]
    · simpa using fun _ => (show o.size ≤ rungSize (startCmd cid s) _ _ from h)

/-- Settles O23: the descriptors by their issue, the events and the command by the lemma of their row. -/
theorem sieveRowsAct : Obligations.SieveRowsAct := by
  refine ⟨?gather, ?add, ?apply, ?arrive, ?merge, ?fallback⟩
  case gather => intro s g t i h; exact congrArg Host.Outcome.next (issueRow_of_issues gatherAct h)
  case add => intro s g t i h hadd; exact congrArg Host.Outcome.next (doSieveScatterAdd_of_issues h hadd)
  case apply => intro s g t i h happly; exact congrArg Host.Outcome.next (doSieveScatterApply_of_issues h happly)
  case arrive =>
    rintro s _ g ser slot id src l o ga i t ob q hout hgather hissued htable hrow hobj hreqs hserved hkind hnotGot hnoRung rfl
    have h : RowAwaited s g ser slot id src l o ga i t ob q :=
      ⟨hout, hgather, hissued, htable, hrow, hobj, hreqs, hserved, hkind, hnotGot, hnoRung⟩
    exact ⟨fun hsrc => congrArg Host.Outcome.next (doSieveRowArrive_of_home h hsrc),
      fun r hsrc hhot => congrArg Host.Outcome.next (doSieveRowArrive_of_hot h hsrc hhot)⟩
  case merge =>
    intro s table j t ht
    exact ⟨fun hidle => congrArg Host.Outcome.next (doDlogMergeGranuleDone_of_idle j ht hidle),
      fun m hm hgranule hflushed => congrArg Host.Outcome.next (doDlogMergeGranuleDone_of_flushed ht hm hgranule hflushed)⟩
  case fallback =>
    rintro s cid c o _ _ _ hready rfl rfl rfl hmode hreserved htail howned hrung1 hrung2 hsize hnoTable
    exact ⟨_, congrArg Host.Outcome.next (doObjFallback_of_ladder hready
      ⟨hmode, hreserved, htail, howned, hrung1, hrung2, hsize⟩ hnoTable), doneWith_finish hready rfl _ _, rfl, rfl⟩

end Sys2Proof.Machine
end

section
/-! PROOFS. Power-on, the supplies and the rows of the start-up sequence (O10), each in its phase. -/

namespace Sys2Proof.Machine

open Sys2Proof

/-! ## The supplies and the start of the sequence (R325, R405-R407, R443) -/

theorem doMainEnAssert_of_low {s : State} (hv : s.clk.vstby = true) (hm : s.clk.mainEn = false) :
    doMainEnAssert s = beginCold { s with clk := { s.clk with mainEn := true } } := by
  unfold doMainEnAssert
  exact if_neg (by simp [hv, hm])

theorem doMainEnDeassert_of_high {s : State} (h : s.clk.mainEn = true) :
    doMainEnDeassert s = diesOff { s with clk := { s.clk with mainEn := false } } := by
  unfold doMainEnDeassert
  exact if_neg (by simp [h])

/-- R443: a trial boot that does not reach DONE in time is a package reset. -/
theorem doTrialBootTimeout_of_trial {s : State} (htrial : s.fw.trial = true) (hphase : s.boot.phase ≠ 15) :
    doTrialBootTimeout s = packageReset s := by
  unfold doTrialBootTimeout
  exact if_pos (by simp [htrial, hphase])

/-! ## P1: the slot that boots (R303, R443) -/

/-- Only the firmware's state, the security state and boot flash differ. -/
def FwOnly (u v : State) : Prop := u = { v with fw := u.fw, sec := u.sec, flash := u.flash }

theorem FwOnly.trans {a b c : State} (h1 : FwOnly a b) (h2 : FwOnly b c) : FwOnly a c := by
  unfold FwOnly at *
  rw [h2] at h1
  exact h1

theorem FwOnly.ite {p : Prop} [Decidable p] {u v : State} (h : FwOnly u v) : FwOnly (if p then u else v) v := by
  split
  · exact h
  · rfl

theorem writeDir_fwOnly (f : Dir → Dir) (s : State) : FwOnly (writeDir f s) s := by
  unfold FwOnly
  rw [writeDir_frame]

theorem measureState_fwOnly (e : Nat) (s : State) : FwOnly (measureState e s) s := rfl

theorem measureStart_fwOnly (n e : Nat) (s : State) : FwOnly (measureStart n e s) s := by
  unfold FwOnly
  rw [measureStart_frame]

theorem fw_measureStart (n e : Nat) (s : State) : (measureStart n e s).fw = s.fw := by
  rw [measureStart_frame]

/-- R443: with RECOVERY_N low the ROM enters recovery mode: no slot runs, and the sequence ends ready. -/
theorem doFirmwareLoadDone_of_recovery {s : State} {rom : RomInputs} (hrun : s.boot.running = true)
    (hphase : s.boot.phase = 1) (hlow : rom.recoveryLow = true) (hheld : s.fns.filter (fun e => e.2.aenHeld) = []) :
    ∃ fw sec flash, doFirmwareLoadDone rom s = { s with
        fw := fw, sec := sec, flash := flash
        boot := { s.boot with running := false, recovery := true, ready := true } } ∧ fw.slotRun = 2 := by
  unfold doFirmwareLoadDone
  rw [if_neg (by simp [hrun, hphase])]
  extract_lets _ _ _ _ _ seeded _ _ tried reverted _ slot _ _ _ chosen measured logged
  have hslot : slot = 2 := if_pos hlow
  have htried : FwOnly tried seeded := (writeDir_fwOnly ..).ite
  have hreverted : FwOnly reverted tried := (writeDir_fwOnly ..).ite
  have hmeasured : FwOnly measured chosen := measureStart_fwOnly ..
  have hlogged : FwOnly logged measured := (measureState_fwOnly ..).ite
  have hchosen : FwOnly chosen s :=
    FwOnly.trans (b := reverted) rfl (hreverted.trans (htried.trans (FwOnly.trans (b := s) rfl rfl)))
  have hall : FwOnly logged s := hlogged.trans (hmeasured.trans hchosen)
  have hrunning : logged.fw.slotRun = 2 := by
    have hfw : logged.fw = chosen.fw := by
      have hfw' : logged.fw = measured.fw := by
        dsimp -zeta only [logged]
        split <;> rfl
      exact hfw'.trans (fw_measureStart ..)
    rw [hfw]
    exact hslot
  have hnone : logged.fns.filter (fun e => e.2.aenHeld) = [] := (congrArg (fun u : State => u.fns.filter _) hall).trans hheld
  rw [if_pos hslot]
  clear_value logged
  exact ⟨logged.fw, logged.sec, logged.flash, (congrArg (List.foldl _ _) hnone).trans
    (congrArg (fun u : State => { u with boot := { u.boot with running := false, recovery := true, ready := true } }) hall),
    hrunning⟩

/-! ## P2 and P3 (R393, R410-R412) -/

/-- R393: the dies are brought up, each idle with its comparator's state, and the PCC is let go from 0. -/
def diesUp (nonce : BitVec 128) (s : State) : State :=
  { s with
    clk := { s.clk with pccRun := true, pcc := 0 }
    sec := { s.sec with nonce := nonce }
    pwr := { s.pwr with
      dies := (List.range 48).map (fun c => (c, { diePwrReset with dstate := .idle, thermal := (dieOf s c).thermal })) }
    boot := { s.boot with phase := 3 } }

theorem doDieBringupDone_of_good {s : State} (nonce : BitVec 128) (hrun : s.boot.running = true) (hphase : s.boot.phase = 2)
    (hm : s.clk.mainEn = true) (hp : s.clk.pccRun = false) : doDieBringupDone true [] nonce s = diesUp nonce s := by
  unfold doDieBringupDone
  rw [if_neg (by simp [hrun, hphase, hm, hp])]
  rfl

/-- Updates of the dies' records leave what the sequence has set. -/
theorem boot_foldl_updDie {α : Type} (k : α → Nat) (f : α → DiePwr → DiePwr) (l : List α) (s : State) :
    (l.foldl (fun s a => updDie (k a) (f a) s) s).boot = s.boot := by
  induction l generalizing s with
  | nil => rfl
  | cons a l ih => exact ih (updDie (k a) (f a) s)

theorem boot_configWarn (kind idx reason val : Nat) (s : State) : (configWarn kind idx reason val s).boot = s.boot :=
  (postRec_keeps ..).2.1

/-- R410: the factory part that is valid, copy A before copy B, is the package's. -/
def factChosen (s : State) : FactoryPart := if s.flash.factA.valid then s.flash.factA else s.flash.factB

theorem boot_doConfigRecordSelect {s : State} (hrun : s.boot.running = true) (hphase : s.boot.phase = 3)
    (hvalid : s.flash.factA.valid = true ∨ s.flash.factB.valid = true) :
    ∃ field copyA writable bin, (doConfigRecordSelect s).boot = { s.boot with
      fact := factChosen s, field := field, fieldCopyA := copyA, fieldWritable := writable, serialShown := true
      ready := true, phase := 4, clkbin := bin } := by
  unfold doConfigRecordSelect
  rw [if_neg (by simp [hrun, hphase])]
  extract_lets flash _ copyA writable _ field _ selected clk stepped _ _ _ clocked
  rw [if_neg (by rcases hvalid with h | h <;> simp [flash, h])]
  have hstepped : stepped.boot = selected.boot := boot_foldl_updDie id _ _ selected
  have hclocked : clocked.boot = { selected.boot with clkbin := (clk - 1200) / 25 } :=
    congrArg (fun b : Boot => { b with clkbin := (clk - 1200) / 25 }) hstepped
  refine ⟨field, copyA, writable, (clk - 1200) / 25, ?_⟩
  split
  · exact hclocked
  · exact (boot_configWarn ..).trans hclocked

/-! ## P4: training (R217, R218, R220) -/

theorem doHbmTrainingDone_of_trained {s : State} {stack : Nat} (hnow : trainingNow s = true) (hstack : stack ≤ 47)
    (hnew : stack ∉ s.boot.hbmDone) :
    doHbmTrainingDone stack true s = settleP4 { s with boot := { s.boot with hbmDone := addOnce stack s.boot.hbmDone } } := by
  unfold doHbmTrainingDone
  exact if_neg (by simp [hnow, hnew, hstack])

theorem doDdr5TrainingDone_of_none {s : State} (hnow : trainingNow s = true) (hnew : s.boot.ddrDone = false) :
    doDdr5TrainingDone [] s = settleP4 { s with boot := { s.boot with ddrDone := true, degraded := false } } := by
  unfold doDdr5TrainingDone
  exact if_neg (by simp [hnow, hnew])

theorem tdieSame_self (x : TDieTrain) : tdieSame x x = true := by simp [tdieSame]

/-- Of the six T-dies one has a given number. -/
theorem filter_range_six : ∀ k < 6, (List.range 6).filter (fun n => k == n) = [k] := by decide

/-- R217: one T-die that meets its conditions gives its eight channels, with none left out. -/
theorem doDdr5TrainingDone_of_one {s : State} {x : TDieTrain} (hnow : trainingNow s = true) (hnew : s.boot.ddrDone = false)
    (hok : tdieOk x = true) :
    doDdr5TrainingDone [x] s = settleP4 { s with
      hz := { s.hz with
        channels := (List.range 8).map (fun i => 8 * x.tdie + i), dpc := x.dpc, dimmGib := x.gib
        speed := speedCode (min x.grade (if x.dpc = 1 then 6400 else 5600)) }
      boot := { s.boot with ddrDone := true, degraded := s.boot.degraded } } := by
  have hjoins : (tdieOk x && tdieSame x x) = true := by simp [hok, tdieSame_self]
  have hlt : x.tdie < 6 := by simp [tdieOk] at hok; omega
  have hin : (List.range 6).filter (fun n => [x].any (fun t => t.tdie == n && (tdieOk t && tdieSame x t))) = [x.tdie] := by
    simp only [List.any_cons, List.any_nil, hjoins, Bool.and_true, Bool.or_false]
    exact filter_range_six x.tdie hlt
  have hout : [x].filter (fun t => !(tdieOk t && tdieSame x t)) = [] := by simp [hok, tdieSame_self]
  have hfirst : tdieFirst [x] = some x := by simp [tdieFirst, hok]
  unfold doDdr5TrainingDone
  rw [if_neg (by simp [hnow, hnew])]
  dsimp only
  rw [hfirst]
  dsimp only
  rw [hin, hout, List.flatMap_singleton, bne_self_eq_false, Bool.or_false]
  rfl

/-- R220: with no drive found none joins. -/
theorem doNvmeEnumDone_of_none {s : State} (hnow : trainingNow s = true) (hnew : s.boot.nvmeDone = false)
    (hddr : s.boot.ddrDone = true) :
    (doNvmeEnumDone [] s).boot.nvmeDone = true ∧ (s.hz.channels ≠ [] → (doNvmeEnumDone [] s).hz.drives = []) := by
  unfold doNvmeEnumDone
  rw [if_neg (by simp [hnow, hnew, hddr])]
  dsimp only
  by_cases hch : s.hz.channels = []
  · rw [if_pos hch]
    exact ⟨rfl, fun h => absurd hch h⟩
  · rw [if_neg hch]
    exact ⟨rfl, fun _ => rfl⟩

/-! ## P5 and P6 (R406, R409, R413, R414) -/

theorem doStartupSelftestDone_of_good {s : State} (hnow : trainingNow s = true) (hnew : s.boot.testDone = false) :
    doStartupSelftestDone [] [] s = { s with boot := { s.boot with testDone := true } } := by
  unfold doStartupSelftestDone
  exact if_neg (by simp [hnow, hnew])

/-- The end of P6: the map is built, and the sequence is over with READY or DEGRADED. -/
theorem endMap_ends (s : State) :
    (endMap s).emap.built = true ∧ (endMap s).boot.phase = 15 ∧ (endMap s).boot.running = false ∧
      (endMap s).boot.ready = true ∧ ((endMap s).boot.outcome = 1 ∨ (endMap s).boot.outcome = 2) := by
  unfold endMap
  extract_lets _ _ mapped ready
  have hone_two : (if ready then 1 else 2) = 1 ∨ (if ready then 1 else 2) = 2 := by split <;> simp
  obtain ⟨hboot, hmap⟩ := endCold_spec (if ready then 1 else 2) 0 mapped (by omega)
  rw [hboot, hmap]
  exact ⟨rfl, rfl, rfl, rfl, hone_two⟩

theorem doEnabledMapBuild_of_tested {s : State} (hrun : s.boot.running = true) (hphase : s.boot.phase = 5)
    (htest : s.boot.testDone = true) : doEnabledMapBuild s = endMap (buildPed2s
      { s with emap := EMap.reset, phys := [], grains := [], boot := { s.boot with phase := 6 } }) := by
  unfold doEnabledMapBuild
  exact if_neg (by simp [hrun, hphase, htest])

/-- R413: the field part with the SEQ of its next write. -/
def fieldWritten (s : State) : FieldPart :=
  { s.boot.field with
    valid := true
    seq := max (if s.flash.fieldA.valid then s.flash.fieldA.seq else 0)
      (if s.flash.fieldB.valid then s.flash.fieldB.seq else 0) + 1 }

theorem doConfigRecordWrite_of_pending {s : State} (hpending : s.boot.recPending = true)
    (hwritable : s.boot.fieldWritable = true) :
    doConfigRecordWrite s = { s with
      boot := { s.boot with field := fieldWritten s, recPending := false, fieldCopyA := !s.boot.fieldCopyA }
      flash := if s.boot.fieldCopyA then { s.flash with fieldB := fieldWritten s }
        else { s.flash with fieldA := fieldWritten s } } := by
  unfold doConfigRecordWrite
  exact if_neg (by simp [hpending, hwritable])

/-- Settles O10: each row by the lemma of its phase. -/
theorem startupRowsAct : Obligations.StartupRowsAct := by
  refine ⟨?powerOn, ?high, ?low, ?cold, ?firmware, ?bringup, ?record, ?hbm, ?noDdr, ?oneDdr, ?nvme, ?test, ?map, ?write,
    ?trial⟩
  case powerOn =>
    intro s
    refine ⟨_, rfl, rfl, ?_, ?_, rfl, rfl, rfl⟩
    · exact (apply_ite Flash.factA ..).trans (ite_self _)
    · exact (apply_ite Flash.factB ..).trans (ite_self _)
  case high =>
    intro s hv hm
    exact ⟨_, congrArg Host.Outcome.next (doMainEnAssert_of_low hv hm), rfl, rfl, rfl⟩
  case low =>
    intro s hm
    exact ⟨_, congrArg Host.Outcome.next (doMainEnDeassert_of_high hm), rfl, rfl, rfl, rfl, rfl, rfl⟩
  case cold =>
    intro s hv hm
    exact ⟨_, congrArg Host.Outcome.next (packageReset_of_supplies hv hm), rfl, rfl, rfl, rfl, rfl⟩
  case firmware =>
    intro s rom hrun hphase hlow hheld
    obtain ⟨fw, sec, flash, hrow, hslot⟩ := doFirmwareLoadDone_of_recovery hrun hphase hlow hheld
    exact ⟨_, congrArg Host.Outcome.next hrow, rfl, rfl, rfl, hslot, rfl⟩
  case bringup =>
    intro s nonce hrun hphase hm hp
    exact ⟨_, congrArg Host.Outcome.next (doDieBringupDone_of_good nonce hrun hphase hm hp), rfl, rfl, rfl, rfl⟩
  case record =>
    intro s hrun hphase hvalid
    obtain ⟨field, copyA, writable, bin, hboot⟩ := boot_doConfigRecordSelect hrun hphase hvalid
    refine ⟨_, rfl, ?_⟩
    rw [hboot]
    exact ⟨rfl, rfl, rfl⟩
  case hbm =>
    intro s stack hnow hstack hnew
    exact ⟨_, congrArg Host.Outcome.next (doHbmTrainingDone_of_trained hnow hstack hnew), mem_addOnce_self ..⟩
  case noDdr =>
    intro s hnow hnew
    exact ⟨_, congrArg Host.Outcome.next (doDdr5TrainingDone_of_none hnow hnew), rfl, rfl, rfl⟩
  case oneDdr =>
    intro s x hnow hnew hok
    exact ⟨_, congrArg Host.Outcome.next (doDdr5TrainingDone_of_one hnow hnew hok), rfl, rfl, rfl, rfl⟩
  case nvme =>
    intro s hnow hnew hddr
    exact ⟨_, rfl, doNvmeEnumDone_of_none hnow hnew hddr⟩
  case test =>
    intro s hnow hnew
    exact ⟨_, congrArg Host.Outcome.next (doStartupSelftestDone_of_good hnow hnew), rfl⟩
  case map =>
    intro s hrun hphase htest
    exact ⟨_, congrArg Host.Outcome.next (doEnabledMapBuild_of_tested hrun hphase htest), endMap_ends _⟩
  case write =>
    intro s hpending hwritable
    refine ⟨_, congrArg Host.Outcome.next (doConfigRecordWrite_of_pending hpending hwritable), rfl, rfl, ?_, ?_⟩
    · cases h : s.boot.fieldCopyA <;> simp
    · cases h : s.boot.fieldCopyA <;> simp
  case trial =>
    intro s htrial hphase hv hm
    exact ⟨_, congrArg Host.Outcome.next ((doTrialBootTimeout_of_trial htrial hphase).trans (packageReset_of_supplies hv hm)),
      rfl, rfl, rfl⟩

end Sys2Proof.Machine
end

section
/-! PROOFS. The object commands OBJ_ALLOC, OBJ_FREE, OBJ_PLACE and OBJ_MIGRATE (O7), each where its checks pass. -/

namespace Sys2Proof.Machine

open Sys2Proof

/-! ## OBJ_ALLOC (R193-R197) -/

/-- The granules of a new object, one after another, and the state that has given their places away. -/
def granulesPlaced (s : State) (q : PlaceP) (hzn i n : Nat) : List Gran × State :=
  (List.range n).foldl (fun (a : List Gran × State) j =>
    let x := allocOn hzn i j (q.port, (if hzn = 4 then hostGranules s q n else []).getD j 0) a.2
    (a.1 ++ [newGran q.pin hzn x.1 x.2.1], x.2.2)) ([], s)

theorem granulesPlaced_spec (s : State) (q : PlaceP) (hzn i n : Nat) :
    (granulesPlaced s q hzn i n).1.length = n ∧ (granulesPlaced s q hzn i n).2.hz.objs = s.hz.objs ∧
      (granulesPlaced s q hzn i n).2.cmds = s.cmds := by
  obtain ⟨hlen, hobjs, hcmds⟩ := alloc_foldl q.pin hzn i q.port (if hzn = 4 then hostGranules s q n else []) (List.range n)
    ([], s)
  exact ⟨hlen.trans (by simp), hobjs, hcmds⟩

/-- The object that an OBJ_ALLOC makes. -/
def objMade (ctx i base : Nat) (p : List Byte) (gran : List Gran) : Obj :=
  let q := parsePlace p
  { ctx := ctx, idx := i, base := base, size := u64 p 0, spread := q.spread, home := q.home, pin := q.pin
    promote := q.promote, rdonly := q.rdonly, port := q.port, promoMax := q.promoMax, rung1 := 0, rung2 := 0, fbMode := 0
    gran := gran }

/-- R197, R219: the LBAs of a new object of HZ3 are deallocated. -/
def lbasEmptied (hzn : Nat) (gran : List Gran) (s : State) : State :=
  if hzn = 3 then gran.foldl (fun s g => nvmePut g.unit 3 (granLbas g.loc) [] s) s else s

theorem lbasEmptied_keeps (hzn : Nat) (gran : List Gran) (s : State) :
    (lbasEmptied hzn gran s).hz.objs = s.hz.objs ∧ (lbasEmptied hzn gran s).cmds = s.cmds := by
  unfold lbasEmptied
  split
  · induction gran generalizing s with
    | nil => exact ⟨rfl, rfl⟩
    | cons g gran ih =>
      obtain ⟨hobjs, hcmds⟩ := ih (nvmePut g.unit 3 (granLbas g.loc) [] s)
      exact ⟨hobjs, hcmds⟩
  · exact ⟨rfl, rfl⟩

/-- The object joins the table, and its index is the last that its context was given. -/
def objAdded (o : Obj) (s : State) : State :=
  updHz (fun h => { h with objs := h.objs ++ [o], idxSeq := nmSet o.ctx o.idx h.idxSeq }) s

/-- The size and the place of an OBJ_ALLOC are valid, and there is room for it. -/
structure AllocOk (s : State) (ctx base : Nat) (p : List Byte) : Prop where
  nonempty : u64 p 0 ≠ 0
  granules : u64 p 0 % 65536 = 0
  size : u64 p 0 ≤ 2 ^ 48
  place : placeBad s p (u64 p 0) = false
  table : s.hz.objs.length < 1048576
  room : roomFor s (resolveHzn s (parsePlace p).horizon) (pickIndex s ctx) (List.range (u64 p 0 / 65536))
    (32 + 16 * (u64 p 0 / 65536)) = true
  base : findBase s ctx (u64 p 0) = some base

/-- The granules of an OBJ_ALLOC, and the state that has given their places away. -/
def allocGranules (s : State) (ctx : Nat) (p : List Byte) : List Gran × State :=
  granulesPlaced s (parsePlace p) (resolveHzn s (parsePlace p).horizon) (pickIndex s ctx) (u64 p 0 / 65536)

/-- The object of an OBJ_ALLOC, under the next free index of its context. -/
def allocObj (s : State) (ctx base : Nat) (p : List Byte) : Obj :=
  objMade ctx (pickIndex s ctx) base p (allocGranules s ctx p).1

/-- What an OBJ_ALLOC leaves before its answer. -/
def allocated (s : State) (ctx base : Nat) (p : List Byte) : State :=
  lbasEmptied (resolveHzn s (parsePlace p).horizon) (allocGranules s ctx p).1
    (objAdded (allocObj s ctx base p) (allocGranules s ctx p).2)

theorem objs_allocated (s : State) (ctx base : Nat) (p : List Byte) :
    (allocated s ctx base p).hz.objs = s.hz.objs ++ [allocObj s ctx base p] := by
  obtain ⟨-, hobjs, -⟩ := granulesPlaced_spec s (parsePlace p) (resolveHzn s (parsePlace p).horizon) (pickIndex s ctx)
    (u64 p 0 / 65536)
  exact (lbasEmptied_keeps ..).1.trans (congrArg (· ++ [allocObj s ctx base p]) hobjs)

theorem cmds_allocated (s : State) (ctx base : Nat) (p : List Byte) : (allocated s ctx base p).cmds = s.cmds := by
  obtain ⟨-, -, hcmds⟩ := granulesPlaced_spec s (parsePlace p) (resolveHzn s (parsePlace p).horizon) (pickIndex s ctx)
    (u64 p 0 / 65536)
  exact (lbasEmptied_keeps ..).2.trans hcmds

theorem length_gran_allocObj (s : State) (ctx base : Nat) (p : List Byte) :
    (allocObj s ctx base p).gran.length = u64 p 0 / 65536 :=
  (granulesPlaced_spec ..).1

theorem doObjAlloc_of_room {s : State} {cid base : Nat} {c : Cmd} (hready : ready s cid 0x20 = some c)
    (hok : AllocOk s (c.ctx.getD 0) base c.param) :
    doObjAlloc cid s = finish cid stOK
      (leBytes 4 (handleOf (allocObj (startCmd cid s) (c.ctx.getD 0) base c.param)).toNat ++ leBytes 8 base)
      (allocated (startCmd cid s) (c.ctx.getD 0) base c.param) := by
  obtain ⟨hnonempty, hgranules, hsize, hplace, htable, hroom, hbase⟩ := hok
  have hplace' : placeBad (startCmd cid s) c.param (u64 c.param 0) = false := hplace
  have hbase' : findBase (startCmd cid s) (c.ctx.getD 0) (u64 c.param 0) = some base := hbase
  have hroom' : roomFor (startCmd cid s) (resolveHzn (startCmd cid s) (parsePlace c.param).horizon)
      (pickIndex (startCmd cid s) (c.ctx.getD 0)) (List.range (u64 c.param 0 / 65536))
      (32 + 16 * (u64 c.param 0 / 65536)) = true := by
    rw [pickIndex_startCmd]
    exact hroom
  have htable' : ¬ 1048576 ≤ (startCmd cid s).hz.objs.length := Nat.not_le.2 htable
  unfold doObjAlloc
  simp only [hready, hplace', hroom', hbase']
  rw [if_neg (by simpa [hnonempty, hgranules] using hsize), if_neg (by rw [decide_eq_false htable']; exact nofun)]
  rfl

/-! ## OBJ_FREE (R198) -/

theorem doObjFree_of_unnamed {s : State} {cid : Nat} {c : Cmd} {o : Obj} (hready : ready s cid 0x21 = some c)
    (htail : allZero (c.param.drop 4) = true)
    (ho : ownObj s (c.ctx.getD 0) (BitVec.ofNat 32 (u32 c.param 0)) = some o)
    (hheld : objHeld (startCmd cid s) (c.ctx.getD 0) (BitVec.ofNat 32 (u32 c.param 0)) = false)
    (hgroup : groupNames s (c.ctx.getD 0) (BitVec.ofNat 32 (u32 c.param 0)) = false) :
    doObjFree cid s = finish0 cid stOK (dropObj o (startCmd cid s)) := by
  have ho' : ownObj (startCmd cid s) (c.ctx.getD 0) (BitVec.ofNat 32 (u32 c.param 0)) = some o := ho
  have hgroup' : groupNames (startCmd cid s) (c.ctx.getD 0) (BitVec.ofNat 32 (u32 c.param 0)) = false := hgroup
  simp only [doObjFree, hready, htail, ho', hheld, hgroup', Bool.not_true, Bool.or_self,
    Bool.false_eq_true, if_false]

/-- An object that was dropped is in the table no more. -/
theorem not_mem_dropObj (o : Obj) (s : State) : ∀ x ∈ (dropObj o s).hz.objs, ¬ (x.ctx = o.ctx ∧ x.idx = o.idx) := by
  intro x hx
  have hkept : (!(x.ctx == o.ctx && x.idx == o.idx)) = true := (List.mem_filter.1 hx).2
  rintro ⟨hctx, hidx⟩
  simp [hctx, hidx] at hkept

/-! ## OBJ_PLACE and OBJ_MIGRATE (R211, R222, R225) -/

/-- R225: the granules of an object that are not yet where an OBJ_PLACE puts them; in HZ1 a new spread moves them too. -/
def toPlace (s : State) (o : Obj) (q : PlaceP) : List Nat :=
  (List.range o.gran.length).filter (fun j => (granOf o j).hzn ≠ resolveHzn s q.horizon ||
    (resolveHzn s q.horizon = 1 && (o.spread ≠ q.spread || o.home ≠ q.home)))

theorem toPlace_eq (s : State) (o : Obj) (q : PlaceP) :
    (List.range o.gran.length).filter (fun j => (granOf o j).hzn ≠ resolveHzn s q.horizon ||
      (resolveHzn s q.horizon = 1 && (o.spread ≠ q.spread || o.home ≠ q.home))) = toPlace s o q := rfl

/-- The checks of an OBJ_PLACE pass, and it moves no granule that lies in HZ4 within HZ4. -/
structure PlaceOk (s : State) (ctx : Nat) (o : Obj) (p : List Byte) : Prop where
  reserved : u32 p 4 = 0
  owned : ownObj s ctx (BitVec.ofNat 32 (u32 p 0)) = some o
  place : placeBad s p o.size = false
  notWithinHz4 : resolveHzn s (parsePlace p).horizon = 4 → o.gran.all (fun g => g.hzn != 4) = true
  readOnly : (parsePlace p).rdonly = true ∨ (o.gran.any (fun g => g.hzn == 3) = false ∧
    s.hz.migs.any (fun m => m.handle == BitVec.ofNat 32 (u32 p 0) && m.hzn == 3) = false)
  allowed : toPlace s o (parsePlace p) = [] ∨ moveBarred s o (resolveHzn s (parsePlace p).horizon) 0 o.size = false
  rung : isRung s (BitVec.ofNat 32 (u32 p 0)) = true → (parsePlace p).pin = true
  windows : (parsePlace p).rdonly = true → o.rdonly = true ∨ winWrites s (BitVec.ofNat 32 (u32 p 0)) = false
  idle : toPlace s o (parsePlace p) = [] ∨ s.hz.migs.any (fun m => m.handle == BitVec.ofNat 32 (u32 p 0)) = false
  room : roomFor s (resolveHzn s (parsePlace p).horizon) o.idx (toPlace s o (parsePlace p)) 0 = true

/-- The start of a command leaves what its checks read. -/
theorem PlaceOk.startCmd {s : State} {ctx : Nat} {o : Obj} {p : List Byte} (h : PlaceOk s ctx o p) (cid : Nat) :
    PlaceOk (startCmd cid s) ctx o p :=
  { h with }

/-- Granules that stay in HZ4 are none where the object has none there, or goes elsewhere. -/
theorem none_within_hz4 {o : Obj} {hzn : Nat} (h : hzn = 4 → o.gran.all (fun g => g.hzn != 4) = true) :
    (List.range o.gran.length).filter (fun j => hzn == 4 && (granOf o j).hzn == 4) = [] := by
  refine List.filter_eq_nil_iff.2 fun j hj => ?_
  by_cases hz : hzn = 4
  · have hlt := List.mem_range.1 hj
    have hg := List.all_eq_true.1 (h hz) _ (List.getElem_mem hlt)
    simpa [granOf, hz, hlt] using hg
  · simp [hz]

theorem doObjPlace_of_allowed {s : State} {cid : Nat} {c : Cmd} {o : Obj} (hready : ready s cid 0x22 = some c)
    (hok : PlaceOk s (c.ctx.getD 0) o c.param) :
    doObjPlace cid s = endMoves (startMove cid o 0 o.gran.length (toPlace s o (parsePlace c.param))
      { hzn := resolveHzn s (parsePlace c.param).horizon, spread := (parsePlace c.param).spread
        home := (parsePlace c.param).home, port := (parsePlace c.param).port, setPin := false
        apply := some ((parsePlace c.param).promoMax, (parsePlace c.param).pin, (parsePlace c.param).promote,
          (parsePlace c.param).rdonly, (parsePlace c.param).port)
        host := if resolveHzn s (parsePlace c.param).horizon = 4 then hostGranules s (parsePlace c.param) o.gran.length
          else [] } (startCmd cid s)) := by
  obtain ⟨hreserved, howned, hplace, hhz4, hread, hallowed, hrung, hwindows, hidle, hroom⟩ := hok.startCmd cid
  have hbarred : (decide (toPlace (startCmd cid s) o (parsePlace c.param) ≠ []) &&
      moveBarred (startCmd cid s) o (resolveHzn (startCmd cid s) (parsePlace c.param).horizon) 0 o.size) = false := by
    rcases hallowed with h | h
    · rw [h]
      rfl
    · rw [h, Bool.and_false]
  have hrung' : (isRung (startCmd cid s) (BitVec.ofNat 32 (u32 c.param 0)) && !(parsePlace c.param).pin) = false := by
    simpa using hrung
  have hwindows' : ((parsePlace c.param).rdonly && !o.rdonly &&
      winWrites (startCmd cid s) (BitVec.ofNat 32 (u32 c.param 0))) = false := by
    simp only [Bool.and_eq_false_imp, Bool.and_eq_true, Bool.not_eq_true']
    rintro ⟨hro, hwas⟩
    exact (hwindows hro).resolve_left (by simp [hwas])
  unfold doObjPlace
  simp only [hready, howned, hplace, none_within_hz4 hhz4, List.foldl_nil]
  rw [toPlace_eq (startCmd cid s) o (parsePlace c.param), hbarred, hrung', hwindows', hroom, if_neg (by simp [hreserved]),
    if_neg ?read, if_neg nofun, if_neg ?idle, if_neg nofun]
  · rfl
  case read =>
    rcases hread with h | ⟨h, h'⟩
    · simp [h]
    · simp only [h, h', Bool.or_self, Bool.and_false, Bool.false_eq_true, not_false_eq_true]
  case idle =>
    rcases hidle with h | h
    · rw [h]
      exact nofun
    · rw [h, Bool.and_false]
      exact nofun

/-- The granules of a range that are not in the horizon that an OBJ_MIGRATE names. -/
def toMigrate (o : Obj) (off len hzn : Nat) : List Nat :=
  ((List.range (len / 65536)).map (fun j => off / 65536 + j)).filter (fun j => (granOf o j).hzn ≠ hzn)

theorem toMigrate_eq (o : Obj) (off len hzn : Nat) :
    ((List.range (len / 65536)).map (fun j => off / 65536 + j)).filter (fun j => (granOf o j).hzn ≠ hzn) =
      toMigrate o off len hzn := rfl

/-- The checks of an OBJ_MIGRATE pass. -/
structure MigrateOk (s : State) (ctx : Nat) (o : Obj) (p : List Byte) : Prop where
  reserved : u32 p 4 = 0
  aligned : u64 p 8 % 65536 = 0
  nonempty : u64 p 16 ≠ 0
  granules : u64 p 16 % 65536 = 0
  named : u8 p 24 ≠ 0
  horizon : u8 p 24 ≤ 5
  flags : u8 p 25 ≤ 1
  tail : allZero (p.drop 26) = true
  owned : ownObj s ctx (BitVec.ofNat 32 (u32 p 0)) = some o
  fits : u64 p 8 + u64 p 16 ≤ o.size
  place : hznBad s (u8 p 24) o.rdonly o.port 0 = false
  allowed : moveBarred s o (resolveHzn s (u8 p 24)) (u64 p 8) (u64 p 16) = false
  idle : s.hz.migs.any (fun m => m.handle == BitVec.ofNat 32 (u32 p 0) && m.first < (u64 p 8 + u64 p 16) / 65536 &&
    u64 p 8 / 65536 < m.fin) = false
  room : roomFor s (resolveHzn s (u8 p 24)) o.idx (toMigrate o (u64 p 8) (u64 p 16) (resolveHzn s (u8 p 24))) 0 = true

/-- The start of a command leaves what its checks read. -/
theorem MigrateOk.startCmd {s : State} {ctx : Nat} {o : Obj} {p : List Byte} (h : MigrateOk s ctx o p) (cid : Nat) :
    MigrateOk (startCmd cid s) ctx o p :=
  { h with }

theorem doObjMigrate_of_allowed {s : State} {cid : Nat} {c : Cmd} {o : Obj} (hready : ready s cid 0x23 = some c)
    (hok : MigrateOk s (c.ctx.getD 0) o c.param) :
    doObjMigrate cid s = endMoves (startMove cid o (u64 c.param 8 / 65536) ((u64 c.param 8 + u64 c.param 16) / 65536)
      (toMigrate o (u64 c.param 8) (u64 c.param 16) (resolveHzn s (u8 c.param 24)))
      { hzn := resolveHzn s (u8 c.param 24), spread := o.spread, home := o.home, port := o.port
        setPin := bitAt (u8 c.param 25) 0, apply := none, host := [] } (startCmd cid s)) := by
  obtain ⟨hreserved, haligned, hnonempty, hgranules, hnamed, hhorizon, hflags, htail, howned, hfits, hplace, hallowed,
    hidle, hroom⟩ := hok.startCmd cid
  unfold doObjMigrate
  simp only [hready, howned, hplace, hallowed, toMigrate_eq, hidle, hroom]
  rw [if_neg ?fields, if_neg (by simp [Nat.not_lt.2 hfits]), if_neg (by simp), if_neg (by simp), if_neg (by simp)]
  · rfl
  case fields =>
    simp [hreserved, haligned, hnonempty, hgranules, hnamed, htail, Nat.not_lt.2 hhorizon, Nat.not_lt.2 hflags]

/-- Settles O7: each command by what it leaves where its checks pass. -/
theorem objectCommandsAct : Obligations.ObjectCommandsAct := by
  refine ⟨?alloc, ?free, ?place, ?migrate⟩
  case alloc =>
    intro s cid base c hready hnonempty hgranules hsize hplace htable hroom hbase
    exact ⟨_, _, congrArg Host.Outcome.next (doObjAlloc_of_room hready
      ⟨hnonempty, hgranules, hsize, hplace, htable, hroom, hbase⟩), objs_allocated .., rfl, pickIndex_startCmd .., rfl, rfl,
      rfl, rfl, length_gran_allocObj .., doneWith_finish hready (cmds_allocated ..) _ _⟩
  case free =>
    intro s cid c o hready htail ho hheld hgroup
    exact ⟨_, congrArg Host.Outcome.next (doObjFree_of_unnamed hready htail ho hheld hgroup), rfl,
      not_mem_dropObj o (startCmd cid s)⟩
  case place =>
    rintro s cid c o _ _ _ hready rfl rfl hreserved howned hplace rfl hhz4 hread hallowed hrung hwindows hidle hroom
    exact ⟨_, congrArg Host.Outcome.next (doObjPlace_of_allowed hready
      ⟨hreserved, howned, hplace, hhz4, hread, hallowed, hrung, hwindows, hidle, hroom⟩), rfl⟩
  case migrate =>
    rintro s cid c o _ _ _ _ _ hready rfl rfl rfl hreserved haligned hnonempty hgranules hnamed hhorizon hflags htail howned
      rfl hfits hplace rfl hallowed hidle hroom
    exact ⟨_, congrArg Host.Outcome.next (doObjMigrate_of_allowed hready ⟨hreserved, haligned, hnonempty, hgranules, hnamed,
      hhorizon, hflags, htail, howned, hfits, hplace, hallowed, hidle, hroom⟩), rfl⟩

end Sys2Proof.Machine
end

section
/-! PROOFS. The rows of the reduction engine (O19): what follows a reduction event, the record of a digest, flits, failures
and the chunks that a member holds. -/

namespace Sys2Proof.Machine

open Sys2Proof

/-! ## What follows a reduction event (R280, R289) -/

/-- With no post waiting, no early flit and no reduction in flight nothing follows. -/
theorem redAfter_of_idle {s : State} (hposts : ∀ e ∈ s.fab.buckets, redWaiting s 0x18 e.1 = []) (hearly : s.fab.early = [])
    (hdone : ∀ i ∈ s.fab.insts, i.done = true) : redAfter s = s := by
  have hwake : wakeEarly s = s := by rw [wakeEarly, hearly, List.foldl_nil]
  have hnone : s.fab.insts.filter (fun i => !i.done) = [] := List.filter_eq_nil_iff.2 fun i hi => by simp [hdone i hi]
  simp only [redAfter, servePosts_foldl _ _ hposts, hwake, hnone, List.foldl_nil]

/-! ## DIGEST_QUERY (R292) -/

/-- A DIGEST_QUERY whose fields are valid, for a tag that is not another context's, into an object that has room. -/
structure DigestQueryOk (s : State) (ctx : Nat) (o : Obj) (p : List Byte) : Prop where
  reserved : u16 p 2 = 0
  aligned : u64 p 16 % 64 = 0
  tail : allZero (p.drop 24) = true
  own : ∀ b, nmGet s.fab.buckets (u16 p 0) = some b → b.ctx = ctx
  owned : ownObj s ctx (BitVec.ofNat 32 (u32 p 12)) = some o
  fits : u64 p 16 + 192 ≤ o.size

theorem doDigestQuery_of_record {s : State} {cid : Nat} {c : Cmd} {o : Obj} {r : Nat × List Byte}
    (hready : ready s cid 0x54 = some c) (hok : DigestQueryOk s (c.ctx.getD 0) o c.param)
    (hrec : s.fab.digests.reverse.find? (fun e => e.1 == c.ctx.getD 0 && u16 e.2 0 == u16 c.param 0 &&
      u32 e.2 4 == u64 c.param 4 % 2 ^ 32) = some r) :
    doDigestQuery cid s = finish cid stOK (slice r.2 16 8)
      (objWriteAt (BitVec.ofNat 32 (u32 c.param 12)) (u64 c.param 16) r.2 (startCmd cid s)) := by
  obtain ⟨hreserved, haligned, htail, hown, howned, hfits⟩ := hok
  have howned' : ownObj (startCmd cid s) (c.ctx.getD 0) (BitVec.ofNat 32 (u32 c.param 12)) = some o := howned
  have hroom : ¬ o.size < u64 c.param 16 + 192 := Nat.not_lt.2 hfits
  simp only [Nat.reducePow] at hrec
  unfold doDigestQuery
  cases hb : nmGet s.fab.buckets (u16 c.param 0) with
  | none => simp [hready, hreserved, haligned, htail, hb, howned', hroom, hrec]
  | some b => simp [hready, hreserved, haligned, htail, hb, hown b hb, howned', hroom, hrec]

theorem cmds_objWriteAt (h : W32) (off : Nat) (b : List Byte) (s : State) : (objWriteAt h off b s).cmds = s.cmds := by
  rw [objWriteAt_hz]

/-! ## REDUCTION_FLIT_ARRIVE (R280, R284, R289) -/

/-- A data flit of a reduction in flight joins those of its chunk. -/
theorem doReductionFlitArrive_of_data {s : State} {f : Flit} {b : Bucket} {i : Inst} (hop : flitOp f = 8)
    (hb : nmGet s.fab.buckets (u16 f 14) = some b) (hi : instOf s (u16 f 14) = some i)
    (hk : bits (u32 f 18) 0 24 < nChunks b) (hhere : redHere s (u16 f 14) (u16 f 16) = true)
    (hbusy : tagBusy s (u16 f 14) = true) :
    doReductionFlitArrive f s = updChunk (u16 f 14) (bits (u32 f 18) 0 24) (fun c => { c with
      rx := c.rx ++ [{ src := flitSrc f, result := bitAt (u8 f 22) 0, idx := bits (u32 f 18) 24 8
                       payload := slice f 28 224, promo := bitAt (u8 f 22) 1 }] }) s := by
  have htake : doReductionFlitArrive f s = takeFlit b f s := by
    simp [doReductionFlitArrive, hop, hb, hhere, hbusy]
  rw [htake]
  simp [takeFlit, hi, hop, Nat.not_le.2 hk]

/-- A tag with no policy and no reduction in flight has no chunk to take here. -/
theorem redHere_of_no_policy {s : State} {tag : Nat} (step : Nat) (hb : nmGet s.fab.buckets tag = none)
    (hdone : ∀ i ∈ s.fab.insts, i.tag = tag → i.done = true) : redHere s tag step = false := by
  have hnone : s.fab.insts.find? (fun t => t.tag == tag && !t.done) = none := by
    refine List.find?_eq_none.2 fun i hi => ?_
    by_cases htag : i.tag = tag
    · simp [hdone i hi htag]
    · simp [htag]
  simp [redHere, hnone, hb]

/-- A flit of a tag without a policy waits, unless its policy has gone; then the end of its chunk is counted. -/
theorem doReductionFlitArrive_of_no_policy {s : State} {f : Flit} (hop : flitOp f = 8 ∨ flitOp f = 9)
    (hb : nmGet s.fab.buckets (u16 f 14) = none)
    (hdone : ∀ i ∈ s.fab.insts, i.tag = u16 f 14 → i.done = true) :
    doReductionFlitArrive f s = { s with fab := (if (u16 f 14, u16 f 16) ∈ s.fab.goneTags then
      { s.fab with lateChunks := if flitOp f = 9 then s.fab.lateChunks + 1 else s.fab.lateChunks }
      else { s.fab with early := s.fab.early ++ [f] }) } := by
  have hred : ¬ (flitOp f ≠ 8 ∧ flitOp f ≠ 9) := by omega
  have hhere := redHere_of_no_policy (u16 f 16) hb hdone
  by_cases hgone : (u16 f 14, u16 f 16) ∈ s.fab.goneTags
  · by_cases hend : flitOp f = 9
    · simp [doReductionFlitArrive, hb, redWaits, hhere, hgone, hend, updFab]
    · simp [doReductionFlitArrive, hb, redWaits, hhere, hgone, hop.resolve_right hend]
  · simp [doReductionFlitArrive, hred, hb, redWaits, hhere, hgone, updFab]

/-! ## Failures of a bucket (R288-R290) -/

theorem doBucketTimeout_of_late {s : State} {tag : Nat} {i : Inst} {b : Bucket} {t0 : W64} (hi : instOf s tag = some i)
    (hb : nmGet s.fab.buckets tag = some b) (hfirst : i.firstPost = some t0) (hlive : i.done = false)
    (hlate : b.timeout ≤ (s.clk.pcc - t0).toNat) :
    doBucketTimeout tag s = redAfter (failInst tag stSTEP_LOST 0 (pkgId s) true s) := by
  simp only [doBucketTimeout, hi, hb, hfirst, hlive, hlate, Bool.not_false, decide_true, Bool.and_self, if_true]

theorem doBucketFailureNotice_of_started {s : State} {tag : Nat} {b : Bucket} (pkg : Nat) (st : W16)
    (hb : nmGet s.fab.buckets tag = some b)
    (hstarted : (tagBusy s tag || s.fab.insts.any (fun i => i.tag == tag && i.step == stepOf s b.ctx)) = true) :
    doBucketFailureNotice tag st pkg s = redAfter (failInst tag st 5 pkg false s) := by
  simp only [doBucketFailureNotice, hb, hstarted, if_true]

/-! ## Chunks that a member holds (R345) -/

/-- A chunk with its partial sums dropped, and what they counted. -/
def withoutPartials (c : Chunk) : Chunk :=
  { c with parts := [], rx := [], sentUp := false, promoted := false, nancnt := 0, invcnt := 0, nanelem := none
           nanrank := 0, amax := 0 }

/-- A chunk that starts anew from its own contribution. -/
def restarted (b : Bucket) (k rank : Nat) (c : Chunk) : Chunk :=
  if c.contrib.isSome then redContribute b k rank (withoutPartials c) else withoutPartials c

/-- A reduction in which one chunk starts anew. -/
def chunkRestarted (b : Bucket) (k rank : Nat) (i : Inst) : Inst :=
  { i with chunks := nmUpdD k chunkBlank (restarted b k rank) i.chunks }

theorem chunkOf_chunkRestarted (b : Bucket) (k rank : Nat) (i : Inst) :
    chunkOf (chunkRestarted b k rank i) k = restarted b k rank (chunkOf i k) := by
  simp [chunkOf, chunkRestarted, nmUpdD, nmGetD, nmGet_nmSet]

theorem dropPartials_of_policy {s : State} {tag : Nat} {b : Bucket} (k : Nat) (hb : nmGet s.fab.buckets tag = some b) :
    dropPartials tag k s = updInst tag (chunkRestarted b k (groupOf s b).rank) s := by
  simp only [dropPartials, hb]
  rfl

/-- The packages that hold a chunk, and the one more that does. -/
def chunkHeld (tag k pkg : Nat) (s : State) : State :=
  updFab (fun b => { b with held := addOnce (tag, k, pkg) b.held }) s

theorem doBucketHoldNotice_of_open {s : State} {tag k : Nat} {i : Inst} (pkg : Nat) (hi : instOf s tag = some i)
    (hlive : i.done = false) (hopen : (chunkOf i k).result = none) :
    doBucketHoldNotice tag k pkg s = dropPartials tag k (chunkHeld tag k pkg s) := by
  simp only [doBucketHoldNotice, hi, hlive, hopen, Option.isSome_none, Bool.or_self, Bool.false_eq_true, if_false]
  rfl

theorem doBucketResumeNotice_of_open {s : State} {tag k : Nat} {i : Inst} (pkg : Nat) (hi : instOf s tag = some i)
    (hlive : i.done = false) (hopen : (chunkOf i k).result = none) :
    doBucketResumeNotice tag k pkg s = advanceChunk tag k (dropPartials tag k
      (updFab (fun b => { b with held := del (tag, k, pkg) b.held }) s)) := by
  have hi' : instOf (updFab (fun b => { b with held := del (tag, k, pkg) b.held }) s) tag = some i := hi
  simp only [doBucketResumeNotice, hi', hlive, hopen, Option.isSome_none, Bool.or_self, Bool.false_eq_true, if_false]

/-- Settles O19: each row by its lemma, and what follows by `redAfter_of_idle`. -/
theorem reductionRowsAct : Obligations.ReductionRowsAct := by
  refine ⟨?digest, ?post, ?wait, ?data, ?unnamed, ?timeout, ?failure, ?hold, ?resume,
    fun s hposts hearly hdone => redAfter_of_idle hposts hearly hdone⟩
  case digest =>
    rintro s cid _ _ c o r hready rfl rfl hreserved haligned htail hown howned hfits hrec
    have hrow := doDigestQuery_of_record hready ⟨hreserved, haligned, htail, hown, howned, hfits⟩ hrec
    exact ⟨_, congrArg Host.Outcome.next hrow, doneWith_finish hready (cmds_objWriteAt ..) _ _, rfl⟩
  case post =>
    intro s g t i h
    exact congrArg (fun u => Host.Outcome.next (redAfter u)) (issueRow_of_issues postNow h)
  case wait =>
    intro s g t i h
    exact congrArg (fun u => Host.Outcome.next (redAfter u)) (issueRow_of_issues redWaitAct h)
  case data =>
    rintro s f _ _ b i hop rfl rfl hb hi hk hhere hbusy
    exact congrArg (fun u => Host.Outcome.next (redAfter u)) (doReductionFlitArrive_of_data hop hb hi hk hhere hbusy)
  case unnamed =>
    intro s f hop hb hdone
    exact congrArg (fun u => Host.Outcome.next (redAfter u)) (doReductionFlitArrive_of_no_policy hop hb hdone)
  case timeout =>
    intro s tag i b t0 hi hb hfirst hlive hlate
    exact congrArg Host.Outcome.next (doBucketTimeout_of_late hi hb hfirst hlive hlate)
  case failure =>
    intro s tag pkg st b hb hstarted
    exact congrArg Host.Outcome.next (doBucketFailureNotice_of_started pkg st hb hstarted)
  case hold =>
    intro s tag k pkg i b hi hb hlive hopen
    have hrow : doBucketHoldNotice tag k pkg s =
        updInst tag (chunkRestarted b k (groupOf s b).rank) (chunkHeld tag k pkg s) :=
      (doBucketHoldNotice_of_open pkg hi hlive hopen).trans (dropPartials_of_policy k hb)
    have hi' : instOf (chunkHeld tag k pkg s) tag = some i := hi
    have hj : instOf (updInst tag (chunkRestarted b k (groupOf s b).rank) (chunkHeld tag k pkg s)) tag =
        some (chunkRestarted b k (groupOf s b).rank i) := by
      rw [instOf_updInst _ _ (chunkRestarted b k (groupOf s b).rank) fun _ => rfl, hi', Option.map_some]
    exact ⟨_, _, _, congrArg Host.Outcome.next hrow, mem_addOnce_self .., hj, rfl, chunkOf_chunkRestarted .., rfl⟩
  case resume =>
    intro s tag k pkg i hi hlive hopen
    exact ⟨_, congrArg Host.Outcome.next (doBucketResumeNotice_of_open pkg hi hlive hopen), rfl⟩

end Sys2Proof.Machine
end

section
/-! PROOFS. The rows of the loess fabric (O12): links that change, flits, NAKs, retraining and identification. -/

namespace Sys2Proof.Machine

open Sys2Proof

/-- With no request, no bucket and no reduction nothing can fail for a link (R257, R273, R289). -/
theorem linksChanged_of_idle {s : State} (hreqs : s.fab.wreqs = []) (hbuckets : s.fab.buckets = [])
    (hinsts : s.fab.insts = []) (hearly : s.fab.early = []) : linksChanged s = s := by
  have hreach : failUnreachable s = s := failUnreachable_of_reachable (by rw [hreqs]; rfl)
  rw [linksChanged, hreach]
  exact redAfter_of_idle (by simp [hbuckets]) hearly (by simp [hinsts])

/-! ## What an update of a port leaves (R257, R259) -/

/-- What an update of a port keeps of it, it keeps of every port. -/
theorem fportOf_updFport_keeps {α : Type} (g : FPort → α) {f : FPort → FPort} (hf : ∀ x, g (f x) = g x) (p q : Nat)
    (s : State) : g (fportOf (updFport p f s) q) = g (fportOf s q) := by
  by_cases h : q = p
  · rw [h, fportOf_updFport, hf]
  · rw [fportOf_upd_ne _ _ _ _ h]

theorem updFport_updFport (p : Nat) (f g : FPort → FPort) (s : State) :
    updFport p g (updFport p f s) = updFport p (fun x => g (f x)) s := by
  simp [updFport, updFab, nmUpdD, nmGetD, nmGet_nmSet, nmSet_nmSet]

/-- Routes depend on the ports' states and on who waits to rejoin, and on nothing else of them. -/
theorem nextHop_updFport {f : FPort → FPort} (hst : ∀ x, (f x).st = x.st) (hrejoin : ∀ x, (f x).rejoin = x.rejoin)
    (p dst : Nat) (s : State) : nextHop (updFport p f s) dst = nextHop s dst := by
  have hup (dir : Nat) : upLdies (updFport p f s) dir = upLdies s dir := by
    simp only [upLdies, fportOf_updFport_keeps FPort.st hst, fportOf_updFport_keeps FPort.rejoin hrejoin]
  have hroute : routeByte (updFport p f s) dst = routeByte s dst := rfl
  simp only [nextHop, hup, hroute]

/-! ## FLIT_RECEIVE (R257, R261-R263) -/

/-- A flit with a bad CRC, or a DATA flit out of sequence, is not the next one that the port takes. -/
theorem inSequence_of_refused {s : State} {p : Nat} {f : Flit}
    (h : flitGood f = false ∨ (flitFt f = 0 ∧ flitSeq f ≠ (fportOf s p).rxSeq)) : inSequence s p f = false := by
  obtain hbad | ⟨hdata, hseq⟩ := h
  · simp [inSequence, hbad]
  · simp [inSequence, hdata, hseq]

theorem doFlitReceive_of_refused {s : State} {p : Nat} {f : Flit} (hup : (fportOf s p).st = .up)
    (hseq : inSequence s p f = false) : doFlitReceive p f s = linksChanged (sendNull p true 0 0 0 s) := by
  simp [doFlitReceive, hopsOut, flitIn, hup, hseq]

/-- The port has taken the next flit in sequence, which carries no NAK. -/
def flitTaken (p : Nat) (s : State) : State :=
  updFport p (fun x => { x with naks := 0 }) (updFport p (fun x => { x with rxSeq := x.rxSeq + 1 }) s)

theorem nextHop_flitTaken (p dst : Nat) (s : State) : nextHop (flitTaken p s) dst = nextHop s dst := by
  simp [flitTaken, nextHop_updFport]

theorem buf_flitTaken (p : Nat) (s : State) : (fportOf (flitTaken p s) p).buf = (fportOf s p).buf := by
  simp [flitTaken, fportOf_updFport]

/-- A good DATA flit in sequence for another package, with no credit and no NAK, at a port that waits for no
acknowledgement. -/
structure FlitPasses (s : State) (p : Nat) (f : Flit) : Prop where
  up : (fportOf s p).st = .up
  good : flitGood f = true
  data : flitFt f = 0
  next : flitSeq f = (fportOf s p).rxSeq
  noCredit : bits (u64 f 0) 36 8 = 0
  noNak : flitNak f = false
  onward : nextHop s (flitDst f) ≠ .inside
  acked : (fportOf s p).buf = []

section
variable {s : State} {p : Nat} {f : Flit} (h : FlitPasses s p f)
include h

theorem FlitPasses.inSequence : inSequence s p f = true := by
  simp [Machine.inSequence, h.good, h.next]

theorem hopsOut_of_passes : hopsOut s p f = decide (63 ≤ flitHops f) := by
  simp [hopsOut, h.up, h.inSequence, h.data, h.onward]

theorem flitIn_of_passes : flitIn p f s =
    if 63 ≤ flitHops f then sendNull p false 1 (flitTc f) (flitVl f)
      (updFab (fun b => { b with hopDrops := b.hopDrops + 1 }) (flitTaken p s))
    else routeFrom (some (p, flitVl f)) (keysel f) (patch f 9 (leBytes 1 (flitHops f + 1)))
      (sendNull p false 0 0 0 (flitTaken p s)) := by
  have hback : ackBack p (flitAck f) (flitTaken p s) = flitTaken p s :=
    ackBack_nil _ _ _ ((buf_flitTaken p s).trans h.acked)
  have honward : (nextHop (flitTaken p s) (flitDst f) == .inside) = false := by
    rw [nextHop_flitTaken]
    exact beq_false_of_ne h.onward
  have htaken : updFport p (fun x => { x with naks := 0 }) (updFport p (fun x => { x with rxSeq := x.rxSeq + 1#12 }) s) =
    flitTaken p s := rfl
  simp [flitIn, h.up, h.inSequence, h.data, h.noCredit, h.noNak, htaken, hback, honward, giveBack]

theorem doFlitReceive_of_forwarded (hhops : flitHops f < 63) :
    doFlitReceive p f s = linksChanged (routeFrom (some (p, flitVl f)) (keysel f)
      (patch f 9 (leBytes 1 (flitHops f + 1))) (sendNull p false 0 0 0 (flitTaken p s))) := by
  simp [doFlitReceive, hopsOut_of_passes h, flitIn_of_passes h, Nat.not_le.2 hhops]

theorem doFlitReceive_of_hops_out (hhops : 63 ≤ flitHops f) {v : State}
    (hv : v = sendNull p false 1 (flitTc f) (flitVl f)
      (updFab (fun b => { b with hopDrops := b.hopDrops + 1 }) (flitTaken p s))) :
    doFlitReceive p f s = linksChanged (if flitSrc f = pkgId s then hopFail f v else v) := by
  simp [doFlitReceive, hopsOut_of_passes h, flitIn_of_passes h, hhops, hv]

end

/-! ## NAK_RECEIVED (R262) -/

/-- NAKs in a row for one SEQ, with one more for SEQ `a`. -/
def nakRun (x : FPort) (a : BitVec 12) : Nat := if x.naks ≠ 0 ∧ x.nakSeq = a then x.naks + 1 else 1

/-- A port that has been asked for SEQ `a` again, `n` times in a row. -/
def nakCounted (a : BitVec 12) (n : Nat) (x : FPort) : FPort :=
  { x with naks := n, nakSeq := a, replays := satAdd 16 x.replays 1 }

/-- An acknowledgement leaves a port's state and its counts. -/
theorem ackBack_keeps (p : Nat) (a : BitVec 12) (s : State) :
    (fportOf (ackBack p a s) p).st = (fportOf s p).st ∧
      (fportOf (ackBack p a s) p).retraining = (fportOf s p).retraining ∧
      (fportOf (ackBack p a s) p).retrains = (fportOf s p).retrains ∧
      (fportOf (ackBack p a s) p).naks = (fportOf s p).naks ∧
      (fportOf (ackBack p a s) p).nakSeq = (fportOf s p).nakSeq ∧
      (fportOf (ackBack p a s) p).replays = (fportOf s p).replays := by
  obtain ⟨-, -, hports⟩ := samePorts_ackBack p a s
  simpa only [portKey, Prod.mk.injEq] using hports p

/-- The state with the NAK counted, before it is answered. -/
def nakTaken (p : Nat) (a : BitVec 12) (s : State) : State :=
  updFport p (nakCounted (a + 1) (nakRun (fportOf s p) (a + 1))) (ackBack p a s)

theorem fportOf_nakTaken (p : Nat) (a : BitVec 12) (s : State) : fportOf (nakTaken p a s) p =
    nakCounted (a + 1) (nakRun (fportOf s p) (a + 1)) (fportOf (ackBack p a s) p) := fportOf_updFport ..

theorem nakBack_eq (p : Nat) (a : BitVec 12) (s : State) : nakBack p a s =
    if 8 ≤ nakRun (fportOf s p) (a + 1) then startRetrain p (nakTaken p a s)
    else (fportOf (nakTaken p a s) p).buf.foldl (fun s f => emit (.flit p f) s) (nakTaken p a s) := by
  obtain ⟨-, -, -, hnaks, hseq, -⟩ := ackBack_keeps p a s
  simp only [nakBack, nakTaken, nakRun, Bool.and_eq_true, decide_eq_true_eq, hnaks, hseq]
  rfl

theorem doNakReceived_of_live {s : State} {p : Nat} (a : BitVec 12)
    (h : (fportOf s p).st = .up ∨ (fportOf s p).st = .ident) : doNakReceived p a s = nakBack p a s := by
  obtain hup | hident := h
  · simp [doNakReceived, hup]
  · simp [doNakReceived, hident]

/-- The eighth NAK in a row for one SEQ retrains the port. -/
theorem nakBack_of_eighth {s : State} {p : Nat} {a : BitVec 12} (hnaks : (fportOf s p).naks = 7)
    (hseq : (fportOf s p).nakSeq = a + 1) : nakBack p a s = startRetrain p (nakTaken p a s) := by
  rw [nakBack_eq, if_pos (by simp [nakRun, hnaks, hseq])]

/-- Any earlier one is answered by what is in the replay buffer. -/
theorem nakBack_of_fewer {s : State} {p : Nat} {a : BitVec 12}
    (h : (fportOf s p).naks < 7 ∨ (fportOf s p).nakSeq ≠ a + 1) :
    nakBack p a s = (fportOf (nakTaken p a s) p).buf.foldl (fun s f => emit (.flit p f) s) (nakTaken p a s) := by
  have hfew : ¬ 8 ≤ nakRun (fportOf s p) (a + 1) := by
    rw [nakRun]
    split
    case isTrue hrow =>
      have hlt := h.resolve_right (not_not.2 hrow.2)
      omega
    case isFalse => omega
  rw [nakBack_eq, if_neg hfew]

theorem fportOf_emit_foldl (p : Nat) (l : List Flit) (s : State) (q : Nat) :
    fportOf (l.foldl (fun s f => emit (.flit p f) s) s) q = fportOf s q := by
  rw [emit_foldl_frame l (fun f => Out.flit p f)]
  rfl

/-! ## PORT_LEAVE_UP and PORT_RETRAIN_DONE (R255, R259, R262) -/

theorem fportOf_portRec (p e q : Nat) (s : State) : fportOf (portRec p e s) q = fportOf s q := (portRec_keeps p e q s).1

theorem doPortLeaveUp_of_up {s : State} {p : Nat} (hup : (fportOf s p).st = .up) :
    doPortLeaveUp p s = portRec p 0 (startRetrain p s) := by
  simp [doPortLeaveUp, hup]

/-- A port that has retrained with `n` flits to send again: up, or once more in identification, or failed. -/
def portRetrained (s : State) (n : Nat) (ok ident : Bool) (x : FPort) : FPort :=
  { x with retraining := false, identing := false, st := if !ok then .failed else if ident then .ident else .up
           txSeq := BitVec.ofNat 12 n, rxSeq := 0, credits := creditInit s, buf := if ok then x.buf else []
           rejoin := ok && !ident, retrainCid := none }

section
variable {s : State} {p : Nat} (hre : (fportOf s p).retraining = true) (hcid : (fportOf s p).retrainCid = none)
include hre hcid

theorem doPortRetrainDone_of_failed :
    doPortRetrainDone p false s = portRec p 0 (updFport p
      (portRetrained s (fportOf s p).buf.length false (fportOf s p).identing) s) := by
  simp [doPortRetrainDone, hre, hcid]
  rfl

theorem doPortRetrainDone_of_trained {u : State} (hu : u = portRec p 0 ((fportOf s p).buf.foldl
      (fun s f => emit (.flit p f) s) (updFport p (portRetrained s (fportOf s p).buf.length true (fportOf s p).identing) s))) :
    doPortRetrainDone p true s = if (fportOf s p).identing then u else rejoinBundle (p % 8) u := by
  subst hu
  cases hident : (fportOf s p).identing with
  | true =>
    simp [doPortRetrainDone, hre, hcid, hident]
    rfl
  | false =>
    simp [doPortRetrainDone, hre, hcid, hident]
    rfl

end

/-! ## PORT_TRAINED, IDENT_RECEIVED and IDENT_TIMEOUT (R255, R407) -/

/-- The IDENT flit of a port (R255). -/
def identFlit (s : State) (p : Nat) : Flit :=
  sealFlit (2 * 2 ^ 25 + (0xFFF : Nat) * 2 ^ 12)
    (zeros 8 ++ pad 248 (leBytes 2 (pkgId s) ++ leBytes 1 (p % 8) ++ leBytes 1 (p / 8)))

/-- A port whose lanes have trained, with its IDENT flit on the way. -/
def portTrained (s : State) (f : Flit) (x : FPort) : FPort :=
  { x with st := .ident, txSeq := 1, rxSeq := 0, buf := [f], wait := [], credits := creditInit s }

section
variable {s : State} {p : Nat} (hst : (fportOf s p).st = .training) (hre : (fportOf s p).retraining = false)
  (hen : (fportOf s p).en = true)
include hst hre hen

theorem doPortTrained_of_failed :
    doPortTrained p false s = portRec p 0 (updFport p (fun x => { x with st := .failed }) s) := by
  simp [doPortTrained, hst, hre, hen]

theorem doPortTrained_of_trained :
    doPortTrained p true s = emit (.flit p (identFlit s p)) (updFport p (portTrained s (identFlit s p)) s) := by
  simp [doPortTrained, hst, hre, hen]
  rfl

end

/-- A port that knows its peer. -/
def peerKnown (id : Ident) (x : FPort) : FPort := { x with peer := id.pkg, peerdir := id.dir, rxSeq := 1 }

theorem doIdentReceived_of_ok {s : State} {p : Nat} {id : Ident} (hst : (fportOf s p).st = .ident)
    (hok : identOk s p id = true) :
    doIdentReceived p id (updFport p (fun x => { x with rxSeq := 1 }) s) = rejoinBundle (p % 8) (portRec p 0
      (updFport p (fun x => { peerKnown id x with st := .up, rejoin := true }) s)) := by
  have hok' (f : FPort → FPort) : identOk (updFport p f s) p id = true := hok
  simp [doIdentReceived, fportOf_updFport, hst, updFport_updFport, hok', peerKnown]

theorem doIdentReceived_of_miscabled {s : State} {p : Nat} {id : Ident} (hst : (fportOf s p).st = .ident)
    (hbad : identOk s p id = false) :
    doIdentReceived p id (updFport p (fun x => { x with rxSeq := 1 }) s) = portRec p 2
      (updFport p (fun x => { peerKnown id x with st := .miscabled, buf := [], wait := [] }) s) := by
  have hbad' (f : FPort → FPort) : identOk (updFport p f s) p id = false := hbad
  simp [doIdentReceived, fportOf_updFport, hst, updFport_updFport, hbad', peerKnown]

theorem exec_identReceived_of_ident {s : State} {p : Nat} (id : Ident) (hst : (fportOf s p).st = .ident) :
    exec (.identReceived p id) s = .next (doIdentReceived p id (updFport p (fun x => { x with rxSeq := 1 }) s)) :=
  congrArg (fun u => Host.Outcome.next (doIdentReceived p id u)) (if_pos (by rw [hst]; rfl))

theorem doIdentTimeout_of_ident {s : State} {p : Nat} (hst : (fportOf s p).st = .ident) :
    doIdentTimeout p s = portRec p 0 (updFport p (fun x => { x with st := .failed, buf := [], wait := [] }) s) := by
  simp [doIdentTimeout, hst]

/-- Settles O12: each row by its lemma, and what follows by `linksChanged_of_idle`. -/
theorem fabricRowsAct : Obligations.FabricRowsAct := by
  refine ⟨fun s => linksChanged_of_idle, ?refused, ?passes, ?eighth, ?fewer, ?leave, ?lost, ?retrained, ?trained, ?ident,
    ?miscabled, ?timeout⟩
  case refused =>
    intro s p f hup hbad
    exact congrArg Host.Outcome.next (doFlitReceive_of_refused hup (inSequence_of_refused hbad))
  case passes =>
    intro s p f hup hgood hdata hnext hcredit hnak honward hacked
    have h : FlitPasses s p f := ⟨hup, hgood, hdata, hnext, hcredit, hnak, honward, hacked⟩
    by_cases hhops : 63 ≤ flitHops f
    · exact ⟨_, _, congrArg Host.Outcome.next (doFlitReceive_of_hops_out h hhops rfl), rfl,
        fun hlt => absurd hhops (Nat.not_le.2 hlt), fun _ => ⟨_, rfl, rfl⟩⟩
    · exact ⟨_, _, congrArg Host.Outcome.next (doFlitReceive_of_forwarded h (Nat.not_le.1 hhops)), rfl, fun _ => rfl,
        fun hle => absurd hle hhops⟩
  case eighth =>
    intro s p a hlive hnaks hseq
    have hrow := (doNakReceived_of_live a hlive).trans (nakBack_of_eighth hnaks hseq)
    obtain ⟨hstate, -, hretrains, -⟩ := ackBack_keeps p a s
    obtain ⟨herrs, -⟩ := samePorts_ackBack p a s
    obtain ⟨hst, hre, hident, hcount, herr⟩ := startRetrain_spec p (nakTaken p a s)
    rw [fportOf_nakTaken] at hident hcount
    exact ⟨_, congrArg (fun u => Host.Outcome.next (linksChanged u)) hrow, hst, hre,
      hident.trans (congrArg (· == PSt.ident) hstate), hcount.trans (congrArg (satAdd 16 · 1) hretrains),
      herr.trans (congrArg (fun e => e.cLr + 1) herrs)⟩
  case fewer =>
    intro s p a hlive hfew
    have hrow := (doNakReceived_of_live a hlive).trans (nakBack_of_fewer hfew)
    obtain ⟨-, -, -, -, -, hreplays⟩ := ackBack_keeps p a s
    refine ⟨_, congrArg (fun u => Host.Outcome.next (linksChanged u)) hrow, ?_, ?_, fun hbuf => ?_⟩
    · rw [fportOf_emit_foldl, fportOf_nakTaken]
      rfl
    · rw [fportOf_emit_foldl, fportOf_nakTaken]
      exact congrArg (satAdd 16 · 1) hreplays
    · have hempty : (fportOf (nakTaken p a s) p).buf = [] := by
        rw [fportOf_nakTaken, ackBack_nil p a s hbuf]
        exact hbuf
      rw [hempty, List.foldl_nil, nakTaken, ackBack_nil p a s hbuf]
      rfl
  case leave =>
    intro s p hup
    obtain ⟨hst, hre, -, hcount, herr⟩ := startRetrain_spec p s
    refine ⟨_, congrArg (fun u => Host.Outcome.next (linksChanged u)) (doPortLeaveUp_of_up hup), ?_⟩
    rw [fportOf_portRec, (portRec_keeps p 0 p _).2.2]
    exact ⟨hst, hre, hcount, herr⟩
  case lost =>
    intro s p hre hcid
    refine ⟨_, congrArg Host.Outcome.next (doPortRetrainDone_of_failed hre hcid), ?_⟩
    rw [fportOf_portRec, fportOf_updFport]
    exact ⟨rfl, rfl⟩
  case retrained =>
    intro s u p hre hcid hu
    exact congrArg Host.Outcome.next (doPortRetrainDone_of_trained hre hcid hu)
  case trained =>
    intro s p ok hst hre hen
    cases ok with
    | false =>
      refine ⟨_, congrArg Host.Outcome.next (doPortTrained_of_failed hst hre hen), ?_, nofun⟩
      rw [fportOf_portRec, fportOf_updFport]
      rfl
    | true =>
      refine ⟨_, congrArg Host.Outcome.next (doPortTrained_of_trained hst hre hen), ?_⟩
      have hport : fportOf (emit (.flit p (identFlit s p)) (updFport p (portTrained s (identFlit s p)) s)) p =
        portTrained s (identFlit s p) (fportOf s p) := fportOf_updFport ..
      rw [hport]
      exact ⟨rfl, fun _ => ⟨rfl, rfl, rfl⟩⟩
  case ident =>
    intro s p id hst hok
    exact ⟨_, (exec_identReceived_of_ident id hst).trans (congrArg Host.Outcome.next (doIdentReceived_of_ok hst hok)), rfl⟩
  case miscabled =>
    intro s p id hst hbad
    refine ⟨_, (exec_identReceived_of_ident id hst).trans
      (congrArg Host.Outcome.next (doIdentReceived_of_miscabled hst hbad)), ?_⟩
    rw [fportOf_portRec, fportOf_updFport]
    exact ⟨rfl, rfl, rfl⟩
  case timeout =>
    intro s p hst
    refine ⟨_, congrArg Host.Outcome.next (doIdentTimeout_of_ident hst), ?_⟩
    rw [fportOf_portRec, fportOf_updFport]

end Sys2Proof.Machine
end

section
/-! PROOFS. The windows of this package (O11): WIN_OPEN and WIN_CLOSE where their checks pass, a move that a window ends,
and the decision of a remote clod. -/

namespace Sys2Proof.Machine

open Sys2Proof

/-! ## A move that a window forbids (R265, R267) -/

/-- A move that is given up is under way no more, and its command ends. -/
theorem dropMove_of_command {s : State} {m : Mig} {o : Obj} {k : Nat} (ho : objOf s m.handle = some o)
    (hcid : m.cid = some k) : ∃ u, dropMove m s = finish0 k stNOT_PERMITTED u ∧
      u.hz.migs.any (fun y => y.handle == m.handle && y.cid == m.cid) = false := by
  unfold dropMove
  simp only [ho, hcid]
  refine ⟨_, rfl, List.any_eq_false.2 fun y hy => ?_⟩
  simpa [hcid, ← not_and_or] using (List.mem_filter.1 hy).2

theorem endBreaking_of_none {s : State} {h : W32} {off size : Nat} {write : Bool}
    (hnone : s.hz.migs.any (breaksWin h off size write) = false) : endBreaking h off size write s = s := by
  have hempty : s.hz.migs.filter (breaksWin h off size write) = [] :=
    List.filter_eq_nil_iff.2 (List.any_eq_false.1 hnone)
  rw [endBreaking, hempty, List.foldl_nil]

/-! ## WIN_OPEN (R264, R265) -/

/-- The window that a WIN_OPEN asks for, `peers` its bitmap. -/
def winMade (ctx kind : Nat) (p : List Byte) (peers : Option (List Byte)) : Win :=
  { ctx := ctx, kind := kind, rights := u8 p 1, peerMap := peers, peerBox := BitVec.ofNat 32 (u32 p 28)
    key := BitVec.ofNat 32 (u32 p 4), target := BitVec.ofNat 32 (u32 p 8), off := u64 p 12, size := u64 p 20
    closing := none }

def winAdded (n : Nat) (w : Win) (s : State) : State := updFab (fun b => { b with wins := nmSet n w b.wins }) s

/-- The fields of a WIN_OPEN that hold for either kind. -/
structure WinFieldsOk (p : List Byte) : Prop where
  rights : u8 p 1 ≠ 0
  known : u8 p 1 ≤ 3
  reserved : u8 p 3 = 0
  tail : allZero (p.drop 36) = true
  key : u32 p 4 ≠ 0

/-- The peers of a WIN_OPEN: a box of coordinates, or a bitmap in an object of the context. -/
inductive PeersNamed (s : State) (ctx : Nat) (p : List Byte) : Option (List Byte) → Prop
  | box (form : u8 p 2 = 0) (valid : boxBad (u32 p 28) = false) : PeersNamed s ctx p none
  | bitmap {m : Obj} {b : List Byte} (form : u8 p 2 = 1) (owned : ownObj s ctx (BitVec.ofNat 32 (u32 p 32)) = some m)
      (bytes : objRead s m 0 2048 = b) : PeersNamed s ctx p (some b)

/-- A scratchpad range of a leased ped of the context. -/
structure ScratchRangeOk (s : State) (ctx : Nat) (p : List Byte) (l : PedSet) (x : Ctx) : Prop where
  named : pedOf s ctx (BitVec.ofNat 32 (u32 p 8)) = .ok l
  leased : pedLeased s ctx l = true
  offset : u64 p 12 % 32 = 0
  size : u64 p 20 % 32 = 0
  ctx : ctxOf s ctx = some x
  fits : u64 p 12 + u64 p 20 ≤ x.rsize * 16384
  small : u64 p 20 * pedSetCount l ≤ 2 ^ 40
  room : grainWinsFull s l = false

theorem physPed_startCmd (cid : Nat) (s : State) (a : Nat) : physPed (startCmd cid s) a = physPed s a := by
  have hserves : ped2InService (startCmd cid s) = ped2InService s := rfl
  have hranks (p : Nat) (pick : Nat → Bool) : ranksAt (startCmd cid s) p pick = ranksAt s p pick := rfl
  have hassigned (g : Nat) : assigned (startCmd cid s) g = assigned s g := rfl
  simp only [physPed, hserves, hranks, hassigned]

theorem pedOf_startCmd (cid : Nat) (s : State) (ctx : Nat) (a : W32) : pedOf (startCmd cid s) ctx a = pedOf s ctx a := by
  simp only [pedOf, resolvePeds, physPed_startCmd, ctxOf_startCmd]

theorem grainWinsFull_startCmd (cid : Nat) (s : State) (l : PedSet) :
    grainWinsFull (startCmd cid s) l = grainWinsFull s l := by
  simp only [grainWinsFull, pedOf_startCmd, startCmd_fab]

/-- The start of a command leaves what its checks read. -/
theorem ScratchRangeOk.startCmd {s : State} {ctx : Nat} {p : List Byte} {l : PedSet} {x : Ctx}
    (h : ScratchRangeOk s ctx p l x) (cid : Nat) : ScratchRangeOk (startCmd cid s) ctx p l x :=
  { h with
    named := (pedOf_startCmd ..).trans h.named
    room := (grainWinsFull_startCmd ..).trans h.room }

/-- A range of an object of the context that lies in HZ1 or HZ2, writable where the window grants write. -/
structure ObjectRangeOk (s : State) (ctx : Nat) (p : List Byte) (o : Obj) : Prop where
  owned : ownObj s ctx (BitVec.ofNat 32 (u32 p 8)) = some o
  placed : ∀ g ∈ o.gran, g.hzn = 1 ∨ g.hzn = 2
  writable : bitAt (u8 p 1) 1 = true → o.rdonly = false
  fits : u64 p 12 + u64 p 20 ≤ o.size
  small : u64 p 20 ≤ 2 ^ 40

theorem PeersNamed.form {s : State} {ctx : Nat} {p : List Byte} {peers : Option (List Byte)}
    (h : PeersNamed s ctx p peers) : u8 p 2 ≤ 1 ∧ (u8 p 2 = 0 → boxBad (u32 p 28) = false) := by
  cases h with
  | box hform hvalid => exact ⟨by omega, fun _ => hvalid⟩
  | bitmap hform => exact ⟨by omega, fun hbox => absurd (hform.symm.trans hbox) (by decide)⟩

section
variable {s : State} {cid n : Nat} {c : Cmd} {peers : Option (List Byte)} (hready : ready s cid 0x40 = some c)
  (hfields : WinFieldsOk c.param) (hpeers : PeersNamed (startCmd cid s) (c.ctx.getD 0) c.param peers)
include hready hfields hpeers

theorem doWinOpen_of_scratch {l : PedSet} {x : Ctx} (hkind : u8 c.param 0 = 0)
    (hrange : ScratchRangeOk s (c.ctx.getD 0) c.param l x)
    (hn : freeWin s.fab.wins 0 4096 = some n) :
    doWinOpen cid s = finish cid stOK (leBytes 2 n)
      (winAdded n (winMade (c.ctx.getD 0) 0 c.param peers) (startCmd cid s)) := by
  obtain ⟨hrights, hknown, hreserved, htail, hkey⟩ := hfields
  obtain ⟨hnamed, hleased, hoff, hsize, hctx, hfits, hsmall, hroom⟩ := hrange.startCmd cid
  obtain ⟨hform, hbox⟩ := hpeers.form
  unfold doWinOpen
  simp only [hready]
  rw [if_neg ?fields, if_neg ?peers, if_pos hkind]
  case fields => simpa [hkind, hrights, hknown, hreserved, htail, hkey, hform] using hbox
  case peers =>
    cases hpeers with
    | box hform => simp [hform]
    | bitmap _ howned => simp [howned]
  simp only [hnamed, hctx]
  rw [if_neg (by simp [hleased]), if_neg (by simpa [hoff, hsize, hfits] using hsmall), if_neg (by simp [hroom])]
  cases hpeers with
  | box hform =>
    simp only [startCmd_fab, hn, hform, hkind]
    rfl
  | bitmap hform howned hbytes =>
    simp only [startCmd_fab, hn, hform, hkind, howned, hbytes]
    rfl

theorem doWinOpen_of_object {u : State} {o : Obj} (hkind : u8 c.param 0 = 1)
    (hrange : ObjectRangeOk s (c.ctx.getD 0) c.param o)
    (hfree : (freeWin s.fab.wins 0 4096).isSome = true)
    (hu : endBreaking (BitVec.ofNat 32 (u32 c.param 8)) (u64 c.param 12) (u64 c.param 20) (bitAt (u8 c.param 1) 1)
      (startCmd cid s) = u) (hstay : PeersNamed u (c.ctx.getD 0) c.param peers)
    (hn : freeWin u.fab.wins 0 4096 = some n) :
    doWinOpen cid s = finish cid stOK (leBytes 2 n) (winAdded n (winMade (c.ctx.getD 0) 1 c.param peers) u) := by
  obtain ⟨hrights, hknown, hreserved, htail, hkey⟩ := hfields
  obtain ⟨hobj, hplaced, hwritable, hfits, hsmall⟩ := hrange
  obtain ⟨hform, hbox⟩ := hpeers.form
  have hobj' : ownObj (startCmd cid s) (c.ctx.getD 0) (BitVec.ofNat 32 (u32 c.param 8)) = some o := hobj
  have hhome : o.gran.any (fun g => g.hzn != 1 && g.hzn != 2) = false :=
    List.any_eq_false.2 fun g hg => by simpa using fun h1 => (hplaced g hg).resolve_left h1
  have hwrite : (bitAt (u8 c.param 1) 1 && o.rdonly) = false := by simpa using hwritable
  have hfree' : (freeWin s.fab.wins 0 4096).isNone = false := by simpa using hfree
  unfold doWinOpen
  simp only [hready]
  rw [if_neg ?fields, if_neg ?peers, if_neg (by simp [hkind])]
  case fields => simpa [hkind, hrights, hknown, hreserved, htail, hkey, hform] using hbox
  case peers =>
    cases hpeers with
    | box hform => simp [hform]
    | bitmap _ howned => simp [howned]
  simp only [hobj']
  rw [if_neg (by simpa [hhome, hwrite, hfits] using hsmall), if_neg (by simp [hfree']), hu]
  cases hstay with
  | box hform =>
    simp only [hn, hform, hkind]
    rfl
  | bitmap hform howned hbytes =>
    simp only [hn, hform, hkind, howned, hbytes]
    rfl

end

/-! ## WIN_CLOSE (R266) -/

/-- A window with an unfinished access: a prepared write, an access to scratchpads or a request of a horizon. -/
def winBusy (s : State) (n : Nat) : Bool :=
  s.fab.preparedWin.any (fun x => x.win == n) || s.fab.accs.any (fun a => a.win == n) ||
    s.hz.reqs.any (fun q => match q.kind with | .window _ _ m => m == n | _ => false)

/-- The window is closing for a command. -/
def winClosing (n cid : Nat) (s : State) : State :=
  updFab (fun b => { b with wins := nmUpd n (fun w => { w with closing := some cid }) b.wins }) s

/-- The window has closed, and nothing of it is left. -/
def winGone (n : Nat) (s : State) : State :=
  updFab (fun b => { b with wins := nmDel n b.wins, rsems := b.rsems.filter (fun x => x.win != n) }) s

theorem closeIfIdle_of_closing {s : State} {n cid : Nat} {w : Win} (hw : nmGet s.fab.wins n = some w)
    (hclosing : w.closing = some cid) :
    closeIfIdle n s = if winBusy s n = true then s else finish0 cid stOK (winGone n s) := by
  simp only [closeIfIdle, hw, hclosing]
  rfl

theorem nmGet_winClosing {s : State} {n cid : Nat} {w : Win} (hw : nmGet s.fab.wins n = some w) :
    nmGet (winClosing n cid s).fab.wins n = some { w with closing := some cid } := by
  simp only [winClosing, updFab, nmGet_nmUpd, hw, Option.map_some]

theorem nmGet_winClosing_ne {n k : Nat} (cid : Nat) (s : State) (h : k ≠ n) :
    nmGet (winClosing n cid s).fab.wins k = nmGet s.fab.wins k := by
  simp only [winClosing, updFab, nmGet_nmUpd_ne _ _ _ _ h]

theorem doWinClose_of_open {s : State} {cid : Nat} {c : Cmd} {w : Win} (hready : ready s cid 0x41 = some c)
    (hw : nmGet s.fab.wins (u16 c.param 0) = some w) (htail : allZero (c.param.drop 2) = true) (hctx : c.ctx = some w.ctx)
    (hopen : w.closing = none) : doWinClose cid s = if winBusy s (u16 c.param 0) = true
      then winClosing (u16 c.param 0) cid (startCmd cid s)
      else finish0 cid stOK (winGone (u16 c.param 0) (winClosing (u16 c.param 0) cid (startCmd cid s))) := by
  have hrow : doWinClose cid s = closeIfIdle (u16 c.param 0) (winClosing (u16 c.param 0) cid (startCmd cid s)) := by
    simp [doWinClose, hready, hw, htail, hctx, hopen, winClosing]
  exact hrow.trans (closeIfIdle_of_closing (nmGet_winClosing hw) rfl)

/-! ## CLOD_DECISION_APPLY (R375) -/

theorem doClodDecisionApply_of_one {s : State} {pkg clod : Nat} {x : PrepW} {w : Win} (commit : Bool)
    (hmine : s.fab.preparedWin.filter (fun x => x.src == pkg && x.clod == clod) = [x])
    (hw : nmGet s.fab.wins x.win = some w) {u : State} (hu : updFab (fun b => { b with
      preparedWin := b.preparedWin.filter (fun x => !(x.src == pkg && x.clod == clod)) }) s = u) :
    doClodDecisionApply pkg clod commit s =
      if commit = true ∧ w.kind = 0 then serveScratch x.win w none x.side pkg x.woff x.data.length x.data u
      else closeIfIdle x.win (winSignal x.win w x.side pkg x.woff x.data.length
        (if commit then winStore w x.woff x.data x.side.poison u else u)) := by
  have hw' : nmGet u.fab.wins x.win = some w := by rw [← hu]; exact hw
  unfold doClodDecisionApply
  simp only [hmine, hu, List.foldl_cons, List.foldl_nil, hw', Bool.and_eq_true, decide_eq_true_eq]

/-- Settles O11: each row by what it leaves where its checks pass. -/
theorem windowRowsAct : Obligations.WindowRowsAct := by
  refine ⟨?scratch, ?object, ?moving, fun s m o k ho hcid => dropMove_of_command ho hcid, ?close, ?decision⟩
  case scratch =>
    rintro s cid n _ c l x hready rfl hkind hrights hknown hform hreserved htail hkey hbox hnamed hleased hoff hsize hctx
      hfits hsmall hroom hn
    exact ⟨_, congrArg Host.Outcome.next (doWinOpen_of_scratch hready ⟨hrights, hknown, hreserved, htail, hkey⟩
      (.box hform hbox) hkind ⟨hnamed, hleased, hoff, hsize, hctx, hfits, hsmall, hroom⟩ hn),
      doneWith_finish hready rfl _ _, rfl, rfl⟩
  case object =>
    rintro s cid n _ c m o hready rfl hkind hrights hknown hform hreserved htail hkey hmap hobj hplaced hwritable hquiet
      hfits hsmall hn
    have hpeers : PeersNamed (startCmd cid s) (c.ctx.getD 0) c.param (some (objRead s m 0 2048)) :=
      .bitmap hform hmap (objRead_startCmd ..)
    exact ⟨_, congrArg Host.Outcome.next (doWinOpen_of_object hready ⟨hrights, hknown, hreserved, htail, hkey⟩ hpeers hkind
      ⟨hobj, hplaced, hwritable, hfits, hsmall⟩ (by rw [hn]; rfl) (endBreaking_of_none hquiet) hpeers hn),
      doneWith_finish hready rfl _ _, rfl, rfl⟩
  case moving =>
    rintro s u cid n _ c o hready rfl hkind hrights hknown hform hreserved htail hkey hbox hobj hplaced hwritable hfits
      hsmall hfree hu hn
    exact congrArg Host.Outcome.next (doWinOpen_of_object hready ⟨hrights, hknown, hreserved, htail, hkey⟩
      (.box hform hbox) hkind ⟨hobj, hplaced, hwritable, hfits, hsmall⟩ hfree hu.symm (.box hform hbox) hn)
  case close =>
    rintro s cid _ c w hready rfl hw htail hctx hopen
    have hrow := doWinClose_of_open hready hw htail hctx hopen
    have hother (k : Nat) (hk : k ≠ u16 c.param 0) :
        nmGet (winClosing (u16 c.param 0) cid (startCmd cid s)).fab.wins k = nmGet s.fab.wins k :=
      nmGet_winClosing_ne cid (startCmd cid s) hk
    by_cases hbusy : winBusy s (u16 c.param 0) = true
    · rw [if_pos hbusy] at hrow
      exact ⟨_, congrArg Host.Outcome.next hrow, (if_pos hbusy).mpr (nmGet_winClosing hw), hother, rfl⟩
    · rw [if_neg hbusy] at hrow
      exact ⟨_, congrArg Host.Outcome.next hrow, (if_neg hbusy).mpr ⟨doneWith_finish hready rfl _ _, nmGet_nmDel ..⟩,
        fun k hk => (nmGet_nmDel_ne _ _ _ hk).trans (hother k hk), rfl⟩
  case decision =>
    intro s pkg clod x w commit hmine hw
    exact ⟨_, congrArg Host.Outcome.next (doClodDecisionApply_of_one commit hmine hw rfl), _, rfl, rfl⟩

end Sys2Proof.Machine
end

section
/-! PROOFS. No command stops the package (O29), and the rows of the ports and of bus mastering (O1). -/

namespace Sys2Proof.Machine

open Sys2Proof

/-! ## Every command goes on (R309, R313, R453) -/

/-- Every arm of the dispatch gives its command a next state, whatever the state it runs in. -/
theorem exec_next (c : Instr) (s : State) : ∃ t, exec c s = .next t := by
  cases c <;> exact ⟨_, rfl⟩

/-- Settles O29: a step is the front command's or one gc, and neither stops. -/
theorem noCommandStops : Obligations.NoCommandStops := by
  refine ⟨exec_next, fun s => ?_⟩
  unfold goesOn step
  split
  case h_1 => exact ⟨_, rfl⟩
  case h_2 c rest _ => exact exec_next c { s with pending := rest }

/-! ## Rows that update one port, or one function -/

/-- What a row leaves that only updates port `p`. -/
theorem exec_of_updPort {c : Instr} {s : State} {p : Nat} {f : Port → Port} (hp : p ≤ 1)
    (hrow : exec c s = .next (updPort p f s)) :
    ∃ t, exec c s = .next t ∧ portOf t p = f (portOf s p) ∧ portOf t (1 - p) = portOf s (1 - p) ∧
      t = { s with port0 := t.port0, port1 := t.port1 } :=
  ⟨_, hrow, portOf_updPort s p f hp, portOf_updPort_other s p f hp, updPort_frame s p f⟩

/-- What a row leaves that only updates function `fn`. -/
theorem exec_of_updFn {c : Instr} {s : State} {fn : Nat} {f : Fn → Fn} (hrow : exec c s = .next (updFn fn f s)) :
    ∃ t, exec c s = .next t ∧ fnOf t fn = f (fnOf s fn) ∧ (∀ k, k ≠ fn → fnOf t k = fnOf s k) ∧
      t = { s with fns := t.fns } :=
  ⟨_, hrow, fnOf_updFn s fn f, fun k hk => fnOf_updFn_ne s fn k f hk, rfl⟩

/-! ## Resets, links and readiness of a port (R295, R324, R325, R407) -/

section
variable {s : State} {p : Nat} (hp : p ≤ 1)
include hp

theorem doPortReset_of_port :
    doPortReset p s = resetPort p (updPort p (fun x => { x with perst := true, inReset := true }) s) :=
  if_neg (Nat.not_lt.2 hp)

theorem doPerstDeassert_of_port : doPerstDeassert p s = updPort p (fun x => { x with perst := false }) s :=
  if_neg (Nat.not_lt.2 hp)

theorem doPkgrstRequestLapse_of_port : doPkgrstRequestLapse p s = updPort p (fun x => { x with pkgReq := false }) s :=
  if_neg (Nat.not_lt.2 hp)

theorem doHostLinkUp_of_power {w g : Nat} (hmain : s.clk.mainEn = true) (hperst : (portOf s p).perst = false)
    (hlink : linkOk w g = true) :
    doHostLinkUp p w g s = updPort p (fun x => { x with linkUp := true, width := w, gen := g }) s :=
  if_neg (by simp [Nat.not_lt.2 hp, hmain, hperst, hlink])

theorem doHostLinkDown_of_up (hup : (portOf s p).linkUp = true) :
    doHostLinkDown p s =
      updPort p (fun x => { x with linkUp := false, width := 0, gen := 0, downRtc := s.clk.rtc }) s :=
  if_neg (by simp [Nat.not_lt.2 hp, hup])

theorem doHostLinkDownTimeout_of_down (hdown : (portOf s p).linkUp = false) :
    doHostLinkDownTimeout p s = resetPort p (updPort p (fun x => { x with inReset := true }) s) :=
  if_neg (by simp [Nat.not_lt.2 hp, hdown])

end

/-- A function of port `p` once the port is ready again. -/
def fnReadyAgain (p fn : Nat) (f : Fn) : Fn := if fn / 64 = p then { f with inReset := false } else f

/-- R324, R407: the port leaves reset, and so does every function of it. -/
theorem doPortReadyAgain_of_ready {s : State} {p : Nat} (hp : p ≤ 1) (hperst : (portOf s p).perst = false)
    (hready : s.boot.ready = true) :
    doPortReadyAgain p s =
      { updPort p (fun x => { x with inReset := false }) s with fns := s.fns.map (fun e => (e.1, fnReadyAgain p e.1 e.2)) } := by
  have hmap : (fun e : Nat × Fn => if e.1 / 64 = p then (e.1, { e.2 with inReset := false }) else e) =
      fun e => (e.1, fnReadyAgain p e.1 e.2) := by
    funext e
    unfold fnReadyAgain
    split <;> rfl
  unfold doPortReadyAgain
  rw [if_neg (by simp [Nat.not_lt.2 hp, hperst, hready])]
  dsimp only
  rw [hmap, updPort_fns]

/-! ## Bus mastering (R323) -/

section
variable {s : State} {fn : Nat} (hon : fnOff s fn = false)
include hon

theorem doBusMasterDisable_of_on : doBusMasterDisable fn s = updFn fn (fun f => { f with bme := false }) s :=
  if_neg (by simp [hon])

/-- With no interrupt pending, bus mastering sends none. -/
theorem doBusMasterEnable_of_none_pending (hpba : (fnOf s fn).pba = []) :
    doBusMasterEnable fn s = updFn fn (fun f => { f with bme := true }) s := by
  have hnone : (fnOf (updFn fn (fun f => { f with bme := true }) s) fn).pba = [] := by rw [fnOf_updFn]; exact hpba
  unfold doBusMasterEnable flushPba
  rw [if_neg (by simp [hon]), hnone, List.foldl_nil]

end

/-- Settles O1: each row by what it leaves where its conditions hold. -/
theorem portRowsAct : Obligations.PortRowsAct := by
  refine ⟨fun s p hp => ⟨_, congrArg Host.Outcome.next (doPortReset_of_port hp), rfl⟩, ?perst, ?up, ?down,
    fun s p hp hdown => ⟨_, congrArg Host.Outcome.next (doHostLinkDownTimeout_of_down hp hdown), rfl⟩, ?again, ?lapse,
    ?disable, ?enable⟩
  case perst =>
    intro s p hp
    exact exec_of_updPort (c := .perstDeassert p) (s := s) hp (congrArg Host.Outcome.next (doPerstDeassert_of_port hp))
  case up =>
    intro s p w g hp hmain hperst hwidth hlow hhigh
    have hlink : linkOk w g = true := by simp [linkOk, hwidth, hlow, hhigh]
    exact exec_of_updPort (c := .hostLinkUp p w g) hp
      (congrArg Host.Outcome.next (doHostLinkUp_of_power hp hmain hperst hlink))
  case down =>
    intro s p hp hup
    exact exec_of_updPort (c := .hostLinkDown p) hp (congrArg Host.Outcome.next (doHostLinkDown_of_up hp hup))
  case lapse =>
    intro s p hp
    exact exec_of_updPort (c := .pkgrstRequestLapse p) (s := s) hp
      (congrArg Host.Outcome.next (doPkgrstRequestLapse_of_port hp))
  case disable =>
    intro s fn hon
    exact exec_of_updFn (c := .busMasterDisable fn) (congrArg Host.Outcome.next (doBusMasterDisable_of_on hon))
  case enable =>
    intro s fn hon hpba
    exact exec_of_updFn (c := .busMasterEnable fn)
      (congrArg Host.Outcome.next (doBusMasterEnable_of_none_pending hon hpba))
  case again =>
    intro s p hp hperst hready
    refine ⟨_, congrArg Host.Outcome.next (doPortReadyAgain_of_ready hp hperst hready), portOf_updPort s p _ hp,
      portOf_updPort_other s p _ hp, fun fn f hf => nmGet_map_at s.fns (fnReadyAgain p) fn f hf, ?_⟩
    conv_lhs => rw [updPort_frame]

end Sys2Proof.Machine
end

section
/-! PROOFS. Ring tables, the aperture register, admin rings and doorbells (O3), and doorbells that are dropped (O54). -/

namespace Sys2Proof.Machine

open Sys2Proof

/-! ## Fields of a doorbell's value (R308) -/

theorem bits_eq_zero_of_lt {v lo : Nat} (w : Nat) (h : v < 2 ^ lo) : bits v lo w = 0 := by
  rw [bits, Nat.div_eq_of_lt h, Nat.zero_mod]

theorem bits_zero_of_lt {v w : Nat} (h : v < 2 ^ w) : bits v 0 w = v := by
  rw [bits, pow_zero, Nat.div_one, Nat.mod_eq_of_lt h]

theorem bitAt_eq_false_of_lt {v i : Nat} (h : v < 2 ^ i) : bitAt v i = false := by
  rw [bitAt, Nat.div_eq_of_lt h]
  rfl

/-- The fields of R308 that lie at bit 23 or above, where the value ends below it. -/
theorem doorbell_high_fields {v : Nat} (h : v < 2 ^ 23) :
    dbReserved v = false ∧ bitAt v 62 = false ∧ bitAt v 63 = false := by
  have hlt {i : Nat} (hi : 23 ≤ i) : v < 2 ^ i := h.trans_le (Nat.pow_le_pow_right two_pos hi)
  refine ⟨?_, bitAt_eq_false_of_lt (hlt (by decide)), bitAt_eq_false_of_lt (hlt (by decide))⟩
  simp [dbReserved, bits_eq_zero_of_lt _ (hlt (i := 48) (by decide)), bits_eq_zero_of_lt _ h]

/-- A write of a register of its own by a function whose BARs answer. -/
theorem onBar_host_on {s : State} {fn : Nat} (f : State → State) (hon : barOff s fn = false) :
    onBar (.host fn) f s = f (dropHeld (.host fn) s) := onBar_on _ _ _ hon

/-! ## RING_TABLE and FN_APER (R304, R306) -/

/-- R304: firmware, or the owner while its BARs answer, may write the ring table. -/
def RingWriter (s : State) (rq : Requester) (c : Ctx) : Prop :=
  rq = .firmware ∨ (rq = .host c.owner ∧ barOff s c.owner = false)

theorem RingWriter.rqOff {s : State} {rq : Requester} {c : Ctx} (h : RingWriter s rq c) : rqOff s rq = false := by
  obtain rfl | ⟨rfl, hon⟩ := h
  · rfl
  · exact hon

/-- The ring table of a context after a write; `same` where it stands at the same place as before. -/
def ringTableSet (same : Bool) (val : W64) (c : Ctx) : Ctx :=
  { c with rtBase := val &&& ~~~1, rtEn := val.getLsbD 0, sq := if same then c.sq else [], cq := if same then c.cq else [] }

theorem doRingTableWrite_of_idle {s : State} {rq : Requester} {ctx : Nat} {c : Ctx} (val : W64) (hc : ctxOf s ctx = some c)
    (hmay : RingWriter s rq c) (hidle : (ctxCmds s ctx).any outstanding = false) :
    ∃ changed same, doRingTableWrite rq ctx val s = noteRwp changed (updCtx ctx (ringTableSet same val) s) := by
  obtain rfl | ⟨rfl, hon⟩ := hmay
  · simp only [doRingTableWrite, hc, hidle, Bool.not_true, Bool.false_eq_true, if_false]
    exact ⟨_, _, rfl⟩
  · simp only [doRingTableWrite, hc, hidle, hon, beq_self_eq_true, Bool.not_false, Bool.and_true, Bool.not_true,
      Bool.false_eq_true, if_false]
    exact ⟨_, _, rfl⟩

theorem doFnAperWrite_of_pf {s : State} {fn : Nat} (val : W64) (hon : barOff s fn = false) (hpf : fn % 64 = 0) :
    ∃ changed, doFnAperWrite fn val s = noteRwp changed (updFn fn (fun f => { f with aper := val }) s) :=
  ⟨_, if_neg (by simp [hon, hpf])⟩

/-! ## Admin rings (R303, R407) -/

/-- An admin ring taken into service stands at the bases that its registers give. -/
theorem fnOf_takeAdmin (fn : Nat) (s : State) :
    (fnOf (takeAdmin fn s) fn).ardy = true ∧ (fnOf (takeAdmin fn s) fn).ctl = (fnOf s fn).ctl ∧
      (fnOf (takeAdmin fn s) fn).asqr.base = (fnOf s fn).asq &&& 0xFFFFFFFFFFFFF000 ∧
      (fnOf (takeAdmin fn s) fn).acqr.base = (fnOf s fn).acq &&& 0xFFFFFFFFFFFFF000 := by
  unfold takeAdmin
  rw [fnOf_updFn]
  exact ⟨rfl, rfl, rfl, rfl⟩

/-- The state once the function has set the enable of its admin ring. -/
def adminEnabled (fn : Nat) (s : State) : State := updFn fn (fun f => { f with ctl := f.ctl ||| 1 }) s

theorem fnOf_adminEnabled (fn : Nat) (s : State) :
    fnOf (adminEnabled fn s) fn = { fnOf s fn with ctl := (fnOf s fn).ctl ||| 1 } := fnOf_updFn ..

section
variable {s : State} {fn : Nat} (hon : barOff s fn = false)
include hon

theorem doAdminRingEnable_of_off (hoff : (fnOf s fn).ctl.getLsbD 0 = false) :
    doAdminRingEnable fn s =
      if s.boot.running then updFn fn (fun f => { f with aenHeld := true }) (adminEnabled fn s)
      else takeAdmin fn (adminEnabled fn s) :=
  if_neg (by simpa [hon] using hoff)

/-- R303: with no command outstanding the rings leave service at once. -/
theorem doAdminRingDisable_of_no_command (hen : (fnOf s fn).ctl.getLsbD 0 = true) (hnone : adminCmds s fn = []) :
    doAdminRingDisable fn s = updFn fn (fun f => adminOff { f with ctl := f.ctl &&& ~~~1, aenHeld := false }) s := by
  unfold doAdminRingDisable
  dsimp only
  rw [if_neg (by simp [hon, hen]), if_pos hnone]

/-- A doorbell of an admin ring that only moves its TAIL. -/
theorem doAdminDoorbell_of_tail {val : W64} (hready : (fnOf s fn).ardy = true) (hkind : (fnOf s fn).asqr.kind = 1)
    (hval : val.toNat < 2 ^ 16) (hsize : val.toNat < 2 ^ (fnOf s fn).asqr.size) :
    doAdminDoorbell fn val s = updFn fn (fun f => { f with
      asqr := { (fnOf s fn).asqr with tail := val.toNat }, acqr := (fnOf s fn).acqr }) s := by
  obtain ⟨hreserved, hcrld, hrld⟩ := doorbell_high_fields (hval.trans (by decide))
  have hring : bits val.toNat 17 6 = 0 := bits_eq_zero_of_lt 6 (hval.trans (by decide))
  have hhead : bitAt val.toNat 16 = false := bitAt_eq_false_of_lt hval
  simp only [doAdminDoorbell, hon, hready, hkind, hreserved, hcrld, hrld, hring, hhead, bits_zero_of_lt hval,
    Nat.not_le.2 hsize, Bool.false_eq_true, if_false, Bool.not_true, ne_eq, not_true_eq_false, decide_false,
    Bool.or_self, Bool.false_and]

end

/-! ## COMMAND_RING_DOORBELL (R307-R309) -/

/-- R308: the completion ring after the doorbell's CQHEAD, where it gives one. -/
def headTaken (v : Nat) (cq : CplRing) : Option CplRing := if bitAt v 16 then takeHead cq (bits v 32 16) else some cq

/-- R309: what drops a doorbell of ring `r` before its CQHEAD is looked at. -/
def dbRefused (s : State) (c : Ctx) (ring : Nat) (r : SubRing) (v : Nat) : Bool :=
  1023 < ring || !c.rtEn || r.kind ≠ 1 || dbReserved v || 2 ^ r.size ≤ bits v 0 16 ||
    (bitAt v 63 && (ctxCmds s c.num).any (fun k => outstanding k && k.ring == ring)) ||
    (bitAt v 62 && (ctxCmds s c.num).any (fun k => outstanding k && k.cq == bits v 17 6)) ||
    (bitAt v 62 && !(ringsOn s c.owner))

/-- The completion ring that a doorbell names: as it stands, or read again. -/
def cplNamed (s : State) (c : Ctx) (v : Nat) : CplRing :=
  if bitAt v 62 then cplEntry s c (bits v 17 6) else nmGetD c.cq (bits v 17 6) cplRingOff

theorem doCommandRingDoorbell_of_no_page {s : State} {fn page : Nat} (ring : Nat) (val : W64) (hon : barOff s fn = false)
    (hpage : pageCtx s fn page = none) : doCommandRingDoorbell fn page ring val s = dropFnDb fn s := by
  simp only [doCommandRingDoorbell, hon, hpage, Bool.false_eq_true, if_false]

section
variable {s : State} {fn page ring : Nat} {val : W64} {c : Ctx} {r : SubRing} (hon : barOff s fn = false)
  (hpage : pageCtx s fn page = some c) (hr : ringFor s c ring (bitAt val.toNat 63) = r)
  (hped : r.kind = 2 → bitAt val.toNat 63 = true)
include hon hpage hr hped

/-- R308, R309: a refused doorbell is dropped, and so is one whose CQHEAD would pass the last completion. -/
theorem doCommandRingDoorbell_of_page :
    doCommandRingDoorbell fn page ring val s =
      if dbRefused s c ring r val.toNat then dropDb c.num s
      else (headTaken val.toNat (cplNamed s c val.toNat)).elim (dropDb c.num s) fun cq =>
        updCq c.num (bits val.toNat 17 6) cq (updSq c.num ring { r with tail := bits val.toNat 0 16 } s) := by
  have hpedoff : ¬ ((r.kind = 2 && !bitAt val.toNat 63) = true) := by simpa using hped
  unfold doCommandRingDoorbell
  rw [if_neg (by simp [hon])]
  simp only [hpage]
  rw [hr, if_neg hpedoff]
  refine if_congr Iff.rfl rfl ?_
  cases hhead : headTaken val.toNat (cplNamed s c val.toNat) <;>
    · unfold headTaken cplNamed at hhead
      rw [hhead]
      rfl

theorem doCommandRingDoorbell_of_dropped
    (hdrop : dbRefused s c ring r val.toNat = true ∨ headTaken val.toNat (cplNamed s c val.toNat) = none) :
    doCommandRingDoorbell fn page ring val s = dropDb c.num s := by
  rw [doCommandRingDoorbell_of_page hon hpage hr hped]
  obtain hrefused | hnone := hdrop
  · exact if_pos hrefused
  · rw [hnone, Option.elim_none, ite_self]

end

/-- A doorbell that only moves the TAIL of a command ring. -/
theorem doCommandRingDoorbell_of_tail {s : State} {fn page ring : Nat} {val : W64} {c : Ctx} {r : SubRing}
    (hon : barOff s fn = false) (hpage : pageCtx s fn page = some c) (hr : nmGet c.sq ring = some r)
    (hloaded : r.loaded = true) (hkind : r.kind = 1) (hen : c.rtEn = true) (hring : ring ≤ 1023) (hval : val.toNat < 2 ^ 23)
    (hhead : bitAt val.toNat 16 = false) (hsize : bits val.toNat 0 16 < 2 ^ r.size) :
    ∃ cq, doCommandRingDoorbell fn page ring val s = updCq c.num (bits val.toNat 17 6) cq
      (updSq c.num ring { r with tail := bits val.toNat 0 16 } s) := by
  obtain ⟨hreserved, hcrld, hrld⟩ := doorbell_high_fields hval
  have hfor : ringFor s c ring (bitAt val.toNat 63) = r := by simp [ringFor, nmGetD, hr, hloaded, hrld]
  have hgood : dbRefused s c ring r val.toNat = false := by
    simp [dbRefused, hkind, hen, hreserved, hcrld, hrld, Nat.not_lt.2 hring, Nat.not_le.2 hsize]
  have htaken : headTaken val.toNat (cplNamed s c val.toNat) = some (cplNamed s c val.toNat) := by
    simp [headTaken, hhead]
  refine ⟨cplNamed s c val.toNat, ?_⟩
  rw [doCommandRingDoorbell_of_page hon hpage hfor (by simp [hkind]), hgood, htaken]
  rfl

/-- The context of a doorbell once its ring and its completion ring have been set. -/
theorem ctxOf_updCq_updSq {s : State} {n ring q : Nat} {c : Ctx} (r : SubRing) (cq : CplRing) (hc : ctxOf s n = some c) :
    ctxOf (updCq n q cq (updSq n ring r s)) n = some { c with sq := nmSet ring r c.sq, cq := nmSet q cq c.cq } := by
  unfold updCq updSq
  rw [ctxOf_updCtx, ctxOf_updCtx, hc]
  rfl

/-! ## PED_DOORBELL (R310) -/

/-- On a context that is resident on the whole ped, COUNT is added to the semaphore at once. -/
theorem doPedDoorbell_of_resident {s : State} {fn page ring : Nat} {val : W64} {c : Ctx} {r : SubRing} {l : PedSet}
    (hon : barOff s fn = false) (hpage : pageCtx s fn page = some c) (hr : nmGet c.sq ring = some r)
    (hloaded : r.loaded = true) (hkind : r.kind = 2) (hen : c.rtEn = true) (hring : ring ≤ 1023) (hval : val.toNat < 2 ^ 24)
    (hcount : bits val.toNat 0 16 ≠ 0) (hresident : residentOn s c.num r.ped = true) (hped : pedOf s c.num r.ped = .ok l) :
    doPedDoorbell fn page ring val s = semAdd c.num (canonPed s r.ped) (bits val.toNat 16 8) (bits val.toNat 0 16)
      ((pedSetGrains l).headD 0) (updSq c.num ring r s) := by
  have hfor : ringFor s c ring false = r := by simp [ringFor, nmGetD, hr, hloaded]
  unfold doPedDoorbell
  rw [if_neg (by simp [hon])]
  simp only [hpage, hfor, hped]
  rw [if_neg (not_not.2 hkind), if_neg (by simpa [hen, hcount, Nat.not_lt.2 hring] using hval), if_pos hresident]

/-- Settles O3: each row in the state that the drop of a held low word leaves, where the row does drop one. -/
theorem ringRowsAct : Obligations.RingRowsAct := by
  refine ⟨?table, ?aper, ?held, ?taken, ?disable, ?doorbell, ?admin, ?ped⟩
  case table =>
    intro s rq ctx val c hc hmay hidle
    obtain ⟨changed, same, hrow⟩ := doRingTableWrite_of_idle (s := dropHeld rq s) val hc hmay hidle
    refine ⟨_, ringTableSet same val c,
      congrArg Host.Outcome.next ((onBar_on _ _ _ (RingWriter.rqOff hmay)).trans hrow), ?_, rfl, rfl, ?_⟩
    · rw [ctxOf_noteRwp, ctxOf_updCtx_dropHeld rq _ hc]
    · conv_lhs => rw [noteRwp_frame]
      rw [noteRwp_ctxs]
      rfl
  case aper =>
    intro s fn val hon hpf
    obtain ⟨changed, hrow⟩ := doFnAperWrite_of_pf (s := dropHeld (.host fn) s) val hon hpf
    refine ⟨_, congrArg Host.Outcome.next ((onBar_host_on _ hon).trans hrow), ?_, ?_⟩
    · rw [fnOf_noteRwp, fnOf_updFn]
      rfl
    · conv_lhs => rw [noteRwp_frame]
      rw [noteRwp_fns]
      rfl
  case held =>
    intro s fn hon hoff hrun
    have hrow := (doAdminRingEnable_of_off (s := dropHeld (.host fn) s) hon hoff).trans (if_pos hrun)
    refine ⟨_, congrArg Host.Outcome.next ((onBar_host_on _ hon).trans hrow), ?_⟩
    rw [fnOf_updFn, fnOf_adminEnabled]
    rfl
  case taken =>
    intro s fn hon hoff hrun
    have hrow := (doAdminRingEnable_of_off (s := dropHeld (.host fn) s) hon hoff).trans
      (if_neg (ne_true_of_eq_false hrun))
    obtain ⟨hardy, hctl, hasq, hacq⟩ := fnOf_takeAdmin fn (adminEnabled fn (dropHeld (.host fn) s))
    rw [fnOf_adminEnabled] at hctl hasq hacq
    exact ⟨_, congrArg Host.Outcome.next ((onBar_host_on _ hon).trans hrow), hardy, hctl, hasq, hacq⟩
  case disable =>
    intro s fn hon hen hnone
    refine ⟨_, congrArg Host.Outcome.next ((onBar_host_on _ hon).trans
      (doAdminRingDisable_of_no_command (s := dropHeld (.host fn) s) hon hen hnone)), ?_⟩
    rw [fnOf_updFn]
    exact ⟨rfl, by simp [adminOff]⟩
  case doorbell =>
    intro s fn page ring val c r hon hpage hc hr hloaded hkind hen hring hval hhead hsize
    obtain ⟨cq, hrow⟩ := doCommandRingDoorbell_of_tail hon hpage hr hloaded hkind hen hring hval hhead hsize
    exact ⟨_, _, congrArg Host.Outcome.next hrow, ctxOf_updCq_updSq _ _ hc, nmGet_nmSet .., rfl⟩
  case admin =>
    intro s fn val hon hready hkind hval hsize
    refine ⟨_, congrArg Host.Outcome.next ((onBar_host_on _ hon).trans
      (doAdminDoorbell_of_tail (s := dropHeld (.host fn) s) hon hready hkind hval hsize)), ?_⟩
    rw [fnOf_updFn]
    rfl
  case ped =>
    intro s fn page ring val c r l hon hpage hr hloaded hkind hen hring hval hcount hresident hped
    exact ⟨_, congrArg Host.Outcome.next (doPedDoorbell_of_resident hon hpage hr hloaded hkind hen hring hval hcount
      hresident hped), rfl⟩

/-! ## Dropped doorbells (R309) -/

/-- A CQHEAD off the ring, or past the last completion, is not taken. -/
theorem takeHead_of_passing {n head : Nat} {r : CplRing} (hen : r.en = true) (hn : n = 2 ^ r.size)
    (hpass : n ≤ head ∨ r.fill < (head + n - (r.pos + n - r.fill) % n) % n) : takeHead r head = none := by
  subst hn
  unfold takeHead
  rw [if_neg (by simp [hen])]
  exact if_pos (by simpa using hpass)

/-- Settles O54: the doorbells of no context, those that a context's ring drops, and the heads that are not taken. -/
theorem droppedDoorbells : Obligations.DroppedDoorbells := by
  refine ⟨?page, ?ring, fun n head r hen hn hpass => takeHead_of_passing hen hn hpass⟩
  case page =>
    intro s fn page ring val hon hpage
    exact exec_of_updFn (c := .commandRingDoorbell fn page ring val)
      (congrArg Host.Outcome.next (doCommandRingDoorbell_of_no_page ring val hon hpage))
  case ring =>
    rintro s fn page ring val c r cq hon hpage hc rfl rfl hped hcause
    have hdrop : dbRefused s c ring (ringFor s c ring (bitAt val.toNat 63)) val.toNat = true ∨
        headTaken val.toNat (cplNamed s c val.toNat) = none := by
      obtain hkind | hreserved | hsize | ⟨hbit, hhead⟩ | hbusy | hbusy | hunread := hcause
      · exact .inl (by simp [dbRefused, hkind])
      · exact .inl (by simp [dbRefused, hreserved])
      · exact .inl (by simp [dbRefused, hsize])
      · exact .inr ((if_pos hbit).trans hhead)
      · exact .inl (by simp only [dbRefused, hbusy, Bool.and_self, Bool.or_true, Bool.true_or])
      · exact .inl (by simp only [dbRefused, hbusy, Bool.and_self, Bool.or_true, Bool.true_or])
      · exact .inl (by simp [dbRefused, hunread])
    refine ⟨_, congrArg Host.Outcome.next (doCommandRingDoorbell_of_dropped hon hpage rfl hped hdrop), ?_,
      fun k hk => ctxOf_updCtx_ne s c.num k _ hk, rfl⟩
    unfold dropDb
    rw [ctxOf_updCtx]
    exact congrArg _ hc

end Sys2Proof.Machine
end

section
/-! PROOFS. PING, ATTEST_QUOTE and MEASURE_LOG (O53): their answers, and where their bytes go. -/

namespace Sys2Proof.Machine

open Sys2Proof

/-! ## A reserved byte of PING (R316) -/

theorem doPing_of_reserved {s : State} {cid : Nat} {k : Cmd} (hready : ready s cid 0x01 = some k)
    (htail : allZero (k.param.drop 8) = false) : doPing cid s = finish cid stBAD_PARAM [] (startCmd cid s) := by
  simp only [doPing, hready, htail, Bool.not_false, if_true]
  rfl

/-! ## ATTEST_QUOTE (R427, R428) -/

theorem cmds_hostWrite (p a : Nat) (b : List Byte) (s : State) : (hostWrite p a b s).cmds = s.cmds := by
  rw [(hostWrite_frame p a b s).1]

/-- The fields of an ATTEST_QUOTE: indices that exist, index 0 not among them, and an aligned address. -/
structure QuoteFieldsOk (p : List Byte) : Prop where
  some_index : u32 p 40 ≠ 0
  no_index_zero : u32 p 40 % 2 = 0
  known : u32 p 40 < 2048
  aligned : u64 p 32 % 64 = 0
  reserved : u32 p 44 = 0

/-- A quote with its signature by the identity key `d`. -/
def signedQuote (d : BitVec 256) (q : List Byte) : List Byte := q ++ pad 64 (Config.sm2Sign d q)

theorem doAttestQuote_of_identity {s : State} {cid : Nat} {k : Cmd} {d : BitVec 256} (hready : ready s cid 0x90 = some k)
    (hp : QuoteFieldsOk k.param) (hseed : s.sec.seed = some d) (hid : s.sec.idok = true) {b : List Byte}
    (hb : b = signedQuote d (quoteBytes s k.fn (slice k.param 0 32) (u32 k.param 40))) :
    doAttestQuote cid s = finish cid stOK (leBytes 4 b.length ++ zeros 4 ++ leBytes 8 (s.sec.logNext - 1))
      (hostWrite (k.fn / 64) (u64 k.param 32) b (startCmd cid s)) := by
  obtain ⟨hsome, heven, hknown, haligned, hreserved⟩ := hp
  have hseed' : (startCmd cid s).sec.seed = some d := hseed
  subst hb
  unfold doAttestQuote
  simp only [hready]
  rw [if_neg (by simp [hsome, heven, haligned, hreserved, Nat.not_le.2 hknown])]
  simp only [hseed']
  exact if_neg (by simpa using hid)

/-! ## MEASURE_LOG (R429) -/

/-- The fields of a MEASURE_LOG: an aligned address, room for the head and one entry, and no reserved byte set. -/
structure LogFieldsOk (p : List Byte) : Prop where
  aligned : u64 p 0 % 64 = 0
  room : 128 ≤ u64 p 8
  reserved : allZero (p.drop 24) = true

theorem doMeasureLog_of_fields {s : State} {cid first : Nat} {k : Cmd} {es : List LogEnt} {ch : BitVec 256} {b : List Byte}
    (hready : ready s cid 0x91 = some k) (hp : LogFieldsOk k.param) (hfirst : first = max (u64 k.param 16) (oldestLog s))
    (hes : es = (s.sec.log.drop (first - oldestLog s)).take ((u64 k.param 8 - 64) / 64))
    (hch : ch = (s.sec.chainOld.drop (first - oldestLog s)).headD s.sec.chain)
    (hb : b = pad 64 (leBytes 8 first ++ leBytes 8 es.length ++ leBytes 32 ch.toNat) ++ es.flatMap logEntBytes) :
    doMeasureLog cid s = finish cid stOK (leBytes 8 es.length ++ leBytes 8 (first + es.length))
      (answerWrite k (u64 k.param 0) b (startCmd cid s)) := by
  obtain ⟨haligned, hroom, hreserved⟩ := hp
  subst hfirst hes hch hb
  unfold doMeasureLog
  simp only [hready]
  rw [if_neg (by simp [haligned, hreserved, Nat.not_lt.2 hroom])]
  split
  case h_1 x l hold =>
    have hold' : s.sec.chainOld.drop (max (u64 k.param 16) (oldestLog s) - oldestLog s) = x :: l := hold
    rw [hold']
    rfl
  case h_2 hnone =>
    have hnone' : s.sec.chainOld.drop (max (u64 k.param 16) (oldestLog s) - oldestLog s) = [] := hnone
    rw [hnone']
    rfl

/-- Settles O53: each answer by its row's lemma, and what moves beside the command by where its bytes go. -/
theorem pingAnswers : Obligations.PingAnswers := by
  refine ⟨?ping, ?reserved, ?quote, ?log⟩
  case ping =>
    intro s cid k hready htail
    exact ⟨_, congrArg Host.Outcome.next (doPing_of_ready hready htail), doneWith_finish hready rfl _ _, rfl⟩
  case reserved =>
    intro s cid k hready htail
    exact ⟨_, congrArg Host.Outcome.next (doPing_of_reserved hready htail), doneWith_finish hready rfl _ _, rfl⟩
  case quote =>
    rintro s cid mask k d q hready rfl hsome heven hknown haligned hreserved hseed hid rfl
    exact ⟨_, congrArg Host.Outcome.next
      (doAttestQuote_of_identity hready ⟨hsome, heven, hknown, haligned, hreserved⟩ hseed hid rfl),
      doneWith_finish hready (cmds_hostWrite ..) _ _, finish_hostWrite ..⟩
  case log =>
    intro s cid first k es ch b hready haligned hroom hreserved hfirst hes hch hb
    have hrow := doMeasureLog_of_fields hready ⟨haligned, hroom, hreserved⟩ hfirst hes hch hb
    by_cases hmgmt : k.fn = mgmtFn
    · rw [answerWrite, if_pos hmgmt] at hrow
      exact ⟨_, congrArg Host.Outcome.next hrow, doneWith_finish hready rfl _ _, fun _ => ⟨rfl, rfl⟩,
        fun hhost => absurd hmgmt hhost⟩
    · rw [answerWrite, if_neg hmgmt] at hrow
      exact ⟨_, congrArg Host.Outcome.next hrow, doneWith_finish hready (cmds_hostWrite ..) _ _,
        fun h => absurd h hmgmt, fun _ => finish_hostWrite ..⟩

end Sys2Proof.Machine
end

section
/-! PROOFS. CTX_CREATE, CTX_DESTROY, CTX_KILL and SET_SHARE (O5), each where its checks pass. -/

namespace Sys2Proof.Machine

open Sys2Proof

/-! ## What the start of a command leaves of the checks (R327, R334) -/

theorem domainBad_startCmd (cid : Nat) (s : State) (a : W32) : domainBad (startCmd cid s) a = domainBad s a := by
  have hserves : ped2InService (startCmd cid s) = ped2InService s := rfl
  simp only [domainBad, physPed_startCmd, hserves]

theorem createBad_startCmd (cid : Nat) (s : State) (c : Cmd) : createBad (startCmd cid s) c = createBad s c := by
  simp only [createBad, domainBad_startCmd]

theorem domainOf_startCmd (cid : Nat) (s : State) (x : Ctx) : domainOf (startCmd cid s) x = domainOf s x := by
  have hserves : ped2InService (startCmd cid s) = ped2InService s := rfl
  simp only [domainOf, pedOf_startCmd, hserves]

theorem fitsOn_startCmd (cid : Nat) (s : State) : fitsOn (startCmd cid s) = fitsOn s := by
  funext cs p
  simp only [fitsOn, domainOf_startCmd]

theorem fits334_startCmd (cid : Nat) (s : State) (x : Ctx) : fits334 (startCmd cid s) x = fits334 s x := by
  simp only [fits334, domainOf_startCmd, fitsOn_startCmd, startCmd_ctxs]

/-! ## CTX_CREATE (R117, R327, R328) -/

/-- The number that a CTX_CREATE takes: the one that it asks for, where that is free, or the lowest free one. -/
def numberTaken (s : State) (p : List Byte) : Option Nat :=
  if u16 p 0 = 0xFFFF then lowestFree s else if (ctxOf s (u16 p 0)).isSome then none else some (u16 p 0)

/-- The context that a CTX_CREATE asks for, before it has the frames of its scale bank. -/
def ctxAsked (n : Nat) (c : Cmd) : Ctx :=
  ctxNew n c.fn (u8 c.param 2) (u8 c.param 3 = 1) (BitVec.ofNat 32 (u32 c.param 4)) (u16 c.param 8) (u8 c.param 10)
    (u32 c.param 12)

/-- The context joins the table, and the reserved bits of its share register read their reset value (R340). -/
def ctxAdded (n : Nat) (x : Ctx) (s : State) : State :=
  { s with ctxs := nmSet n x s.ctxs, reg := { s.reg with rwp := nmDel (0x100000 + 16 * n) s.reg.rwp } }

/-- A virtual function gives the context one of its slots; the PF of a port has none. -/
def slotTaken (fn n : Nat) (s : State) : State :=
  if fn % 64 = 0 then s else updFn fn (fun f => { f with slots := f.slots ++ [(freeFnSlot f, n)] }) s

theorem slotTaken_frame (fn n : Nat) (s : State) : slotTaken fn n s = { s with fns := (slotTaken fn n s).fns } := by
  unfold slotTaken
  split <;> rfl

theorem ctxOf_slotTaken (fn n k : Nat) (s : State) : ctxOf (slotTaken fn n s) k = ctxOf s k := by
  rw [slotTaken_frame]
  rfl

theorem ctxOf_ctxAdded (n : Nat) (x : Ctx) (s : State) : ctxOf (ctxAdded n x s) n = some x := nmGet_nmSet ..

theorem ctxOf_ctxAdded_ne {n k : Nat} (hk : k ≠ n) (x : Ctx) (s : State) : ctxOf (ctxAdded n x s) k = ctxOf s k :=
  nmGet_nmSet_ne _ _ _ _ hk

/-- What a CTX_CREATE leaves before its answer, where the bank's frames are `r.1` and `r.2` has given them away. -/
def ctxCreated (n : Nat) (c : Cmd) (r : List Nat × State) : State :=
  slotTaken c.fn n (ctxAdded n { ctxAsked n c with bankFrames := r.1 } r.2)

theorem ctxOf_ctxCreated (n : Nat) (c : Cmd) (r : List Nat × State) :
    ctxOf (ctxCreated n c r) n = some { ctxAsked n c with bankFrames := r.1 } :=
  (ctxOf_slotTaken ..).trans (ctxOf_ctxAdded ..)

theorem ctxOf_ctxCreated_ne {n k : Nat} (hk : k ≠ n) (c : Cmd) (r : List Nat × State) :
    ctxOf (ctxCreated n c r) k = ctxOf r.2 k :=
  (ctxOf_slotTaken ..).trans (ctxOf_ctxAdded_ne hk ..)

theorem hz_ctxCreated (n : Nat) (c : Cmd) (r : List Nat × State) : (ctxCreated n c r).hz = r.2.hz := by
  rw [ctxCreated, slotTaken_frame]
  rfl

theorem cmds_ctxCreated (n : Nat) (c : Cmd) (r : List Nat × State) : (ctxCreated n c r).cmds = r.2.cmds := by
  rw [ctxCreated, slotTaken_frame]
  rfl

theorem allocFrames_keeps (n : Nat) (l : List Nat) (s : State) :
    (allocFrames n l s).2.cmds = s.cmds ∧ (allocFrames n l s).2.ctxs = s.ctxs := by
  obtain ⟨h, f, hframe⟩ := allocFrames_frame n l s
  rw [hframe]
  exact ⟨rfl, rfl⟩

/-- A CTX_CREATE has valid fields, and there is a number, a slot of the function, the bank's frames and room on the
ped-2s of its domain. -/
structure CreateOk (s : State) (n : Nat) (c : Cmd) : Prop where
  fields : createBad s c = false
  number : numberTaken s c.param = some n
  slot : c.fn % 64 = 0 ∨ ownedBy s c.fn < 16
  frames : 128 ≤ freeFrames s 1
  fits : fits334 s (ctxAsked n c) = true

theorem doCtxCreate_of_room {s : State} {cid n : Nat} {c : Cmd} (hready : ready s cid 0x10 = some c)
    (hok : CreateOk s n c) :
    doCtxCreate cid s = finish cid stOK (leBytes 2 n) (ctxCreated n c (allocFrames 128 [] (startCmd cid s))) := by
  obtain ⟨hfields, hnumber, hslot, hframes, hfits⟩ := hok
  have hnumber' : numberTaken (startCmd cid s) c.param = some n := hnumber
  have hslot' : c.fn % 64 = 0 ∨ ownedBy (startCmd cid s) c.fn < 16 := hslot
  have hframes' : ¬ freeFrames (startCmd cid s) 1 < 128 := Nat.not_lt.2 hframes
  unfold numberTaken at hnumber'
  unfold ctxAsked at hfits
  unfold doCtxCreate
  simp only [hready, createBad_startCmd, hfields, hnumber', fits334_startCmd, hfits]
  rw [if_neg Bool.false_ne_true, if_neg (by simpa [hframes', Nat.not_le] using or_iff_not_imp_left.1 hslot')]
  rfl

/-! ## CTX_DESTROY and CTX_KILL (R330-R332) -/

/-- A command on context `x`, by its owner or the PF of its port: the number in its first field, and no reserved byte
set. -/
structure EndNamed (s : State) (n : Nat) (c : Cmd) (x : Ctx) : Prop where
  number : u16 c.param 0 = n
  range : n ≤ 1023
  nonzero : n ≠ 0
  reserved : allZero (c.param.drop 2) = true
  exist : ctxOf s n = some x
  manages : mayManage x c.fn = true

theorem ctxOf_purgeCtx (n : Nat) (keep : Option Nat) (s : State) : ctxOf (purgeCtx n keep s) n = none := by
  unfold purgeCtx ctxOf
  extract_lets
  dsimp -zeta only
  exact nmGet_nmDel ..

section
variable {s : State} {cid n : Nat} {c : Cmd} {x : Ctx}

theorem doCtxDestroy_of_idle (hready : ready s cid 0x11 = some c) (hnamed : EndNamed s n c x)
    (hruns : runOut (startCmd cid s) n = false) (htags : liveTags s n = []) :
    doCtxDestroy cid s = finish0 cid stOK (purgeCtx n (some cid) (startCmd cid s)) := by
  obtain ⟨hnumber, hrange, hnonzero, hreserved, hx, hmanages⟩ := hnamed
  have htags' : liveTags (startCmd cid s) n = [] := htags
  unfold doCtxDestroy
  simp only [hready, hnumber, ctxOf_startCmd, hx, hmanages, hruns, htags']
  rw [if_neg (by simp [hreserved, hrange]), if_neg hnonzero, if_neg (by simp), if_neg (by simp)]

theorem doCtxKill_of_named (hready : ready s cid 0x12 = some c) (hnamed : EndNamed s n c x) :
    doCtxKill cid s =
      finish cid stOK (leBytes 8 s.clk.pcc.toNat) (killCtx n (some cid) (startCmd cid s)) := by
  obtain ⟨hnumber, hrange, hnonzero, hreserved, hx, hmanages⟩ := hnamed
  unfold doCtxKill
  simp only [hready, hnumber, ctxOf_startCmd, hx, hmanages, startCmd_clk]
  rw [if_neg (by simp [hreserved, hrange]), if_neg hnonzero, if_neg (by simp)]

/-! ## SET_SHARE (R337) -/

/-- A context with the weight, limit, slice and switch kind of a SET_SHARE. -/
def shareSet (p : List Byte) (x : Ctx) : Ctx :=
  { x with weight := u16 p 4, limit := u8 p 6, slice := u32 p 8, deepNext := u8 p 7 = 1 }

/-- A function with the weight of a SET_SHARE. -/
def fnShareSet (p : List Byte) (f : Fn) : Fn := { f with weight := u16 p 4 }

/-- A port with the weight of a SET_SHARE. -/
def portShareSet (p : List Byte) (q : Port) : Port := { q with weight := u16 p 4 }

theorem doSetShare_of_context (hready : ready s cid 0x13 = some c) (hfields : shareBad c.param = false)
    (hlevel : u8 c.param 0 = 2) (hnumber : u16 c.param 2 = n) (hnonzero : n ≠ 0) (hx : ctxOf s n = some x)
    (hmanages : mayManage x c.fn = true) (hfits : fits334 s (shareSet c.param x) = true) :
    doSetShare cid s = finish0 cid stOK (updCtx n (fun _ => shareSet c.param x) (startCmd cid s)) := by
  unfold shareSet at hfits
  unfold doSetShare
  simp only [hready, hfields, hlevel, hnumber, ctxOf_startCmd, hx, hmanages, fits334_startCmd, hfits]
  rw [if_neg Bool.false_ne_true, if_neg (by decide), if_neg (by decide), if_neg hnonzero, if_neg (by simp),
    if_neg (by simp)]
  rfl

theorem doSetShare_of_function (hready : ready s cid 0x13 = some c) (hfields : shareBad c.param = false)
    (hlevel : u8 c.param 0 = 1) (hpf : c.fn % 64 = 0) (hport : u16 c.param 2 / 64 = c.fn / 64) :
    doSetShare cid s = finish0 cid stOK (updFn (u16 c.param 2) (fnShareSet c.param) (startCmd cid s)) := by
  unfold doSetShare
  simp only [hready, hfields, hlevel]
  rw [if_neg Bool.false_ne_true, if_neg (by decide), if_pos trivial, if_neg (by simp [hpf, hport])]
  rfl

theorem doSetShare_of_port (hready : ready s cid 0x13 = some c) (hfields : shareBad c.param = false)
    (hlevel : u8 c.param 0 = 0) (hmgmt : c.fn = mgmtFn) :
    doSetShare cid s = finish0 cid stOK (updPort (u16 c.param 2) (portShareSet c.param) (startCmd cid s)) := by
  unfold doSetShare
  simp only [hready, hfields, hlevel]
  rw [if_neg Bool.false_ne_true, if_pos trivial, if_neg (not_not.2 hmgmt)]
  rfl

end

/-- Settles O5: each command by what it leaves where its checks pass. -/
theorem contextCommandsAct : Obligations.ContextCommandsAct := by
  refine ⟨?create, ?destroy, ?kill, ?context, ?function, ?port⟩
  case create =>
    intro s cid n c hready hfields hnumber hslot hframes hfits
    obtain ⟨hcmds, hctxs⟩ := allocFrames_keeps 128 [] (startCmd cid s)
    refine ⟨_, congrArg Host.Outcome.next (doCtxCreate_of_room hready ⟨hfields, hnumber, hslot, hframes, hfits⟩),
      doneWith_finish hready ((cmds_ctxCreated ..).trans hcmds) _ _, ctxOf_ctxCreated .., hz_ctxCreated ..,
      fun k hk => ?_⟩
    calc ctxOf (ctxCreated n c (allocFrames 128 [] (startCmd cid s))) k
        = ctxOf (allocFrames 128 [] (startCmd cid s)).2 k := ctxOf_ctxCreated_ne hk ..
      _ = ctxOf s k := congrArg (nmGet · k) hctxs
  case destroy =>
    intro s cid n c x hready hnumber hrange hnonzero hreserved hx hmanages hruns htags
    exact ⟨_, congrArg Host.Outcome.next (doCtxDestroy_of_idle hready
      ⟨hnumber, hrange, hnonzero, hreserved, hx, hmanages⟩ hruns htags),
      (ctxOf_finish0 ..).trans (ctxOf_purgeCtx ..), rfl⟩
  case kill =>
    intro s cid n c x hready hnumber hrange hnonzero hreserved hx hmanages
    exact ⟨_, congrArg Host.Outcome.next (doCtxKill_of_named hready
      ⟨hnumber, hrange, hnonzero, hreserved, hx, hmanages⟩), rfl⟩
  case context =>
    intro s cid n c x hready hfields hlevel hnumber hnonzero hx hmanages hfits
    exact ⟨_, congrArg Host.Outcome.next
      (doSetShare_of_context hready hfields hlevel hnumber hnonzero hx hmanages hfits),
      doneWith_finish hready rfl _ _, (ctxOf_finish0 ..).trans (ctxOf_updCtx_startCmd cid _ hx), rfl⟩
  case function =>
    intro s cid c hready hfields hlevel hpf hport
    exact ⟨_, congrArg Host.Outcome.next (doSetShare_of_function hready hfields hlevel hpf hport),
      doneWith_finish hready rfl _ _, fnOf_updFn (startCmd cid s) _ (fnShareSet c.param), rfl⟩
  case port =>
    intro s cid c hready hfields hlevel hmgmt hport
    refine ⟨_, congrArg Host.Outcome.next (doSetShare_of_port hready hfields hlevel hmgmt),
      doneWith_finish hready (updPort_cmds ..) _ _, portOf_updPort _ _ _ hport, ?_⟩
    rw [updPort_frame]
    rfl

end Sys2Proof.Machine
end

section
/-! PROOFS. The securing interval and the exchange that agrees the risk, and STRATA_READ (O46). -/

namespace Sys2Proof.Machine

open Sys2Proof

/-! ## The securing interval (R365) -/

theorem floor_secK_quotient (p : SecPol) (r : Nat) :
    ⌊((p.kmax - p.kmin : Nat) : Rat) * r / 65535⌋ = (((p.kmax - p.kmin) * r / 65535 : Nat) : Int) := by
  have h := Rat.floor_natCast_div_natCast ((p.kmax - p.kmin) * r) 65535
  push_cast at h ⊢
  exact h

/-- At a risk within its range the interval is shortened by no more than the policy's range. -/
theorem secK_quotient_le (p : SecPol) {r : Nat} (hr : r ≤ 65535) : (p.kmax - p.kmin) * r / 65535 ≤ p.kmax - p.kmin :=
  Nat.div_le_of_le_mul (by rw [Nat.mul_comm 65535]; exact Nat.mul_le_mul_left _ hr)

theorem secK_zero (p : SecPol) : secK p 0 = p.kmax := by simp [secK]

theorem secK_highest {p : SecPol} (hk : p.kmin ≤ p.kmax) : secK p 65535 = p.kmin := by
  rw [secK, Nat.mul_div_cancel _ (by decide)]
  omega

/-! ## RISK_EXCHANGE_RESULT (R359, R365) -/

/-- The risk that an exchange agrees: the highest that came in, and at least what this package sent. -/
def riskAgreed (c : Ctx) (risk : Nat) : Nat := max (min risk 65535) c.sec.sentRisk

/-- A SECURE_NOW was asked for, by another package or by this one. -/
def nowAsked (c : Ctx) (now : Bool) : Bool := now || c.sec.sentNow

/-- K steps have passed since the last secure point, or there was none. -/
def pointDue (c : Ctx) (p : SecPol) (r : Nat) : Bool :=
  match c.sec.lastPoint with
  | none => true
  | some q => secK p r ≤ (c.step - q).toNat

/-- The end of the present step becomes a secure point. -/
def pointAgreed (c : Ctx) (p : SecPol) (risk : Nat) (now : Bool) : Bool :=
  !(c.sec.rerunTill.isSome || c.sec.replayCid.isSome) && (nowAsked c now || pointDue c p (riskAgreed c risk))

/-- A context whose exchange has been answered. -/
def riskTaken (c : Ctx) (p : SecPol) (risk : Nat) (now : Bool) (x : Ctx) : Ctx :=
  { x with sec := { x.sec with
      exch := false, rjob := riskAgreed c risk, agreed := pointAgreed c p risk now, sentNow := false
      nowreq := x.sec.nowreq || (nowAsked c now && !(pointAgreed c p risk now) && x.sec.nowSent != []) } }

/-- Rank 0 returns what was agreed to every other member of the securing group. -/
def riskReturned (ctx : Nat) (g : Group) (r : Nat) (now : Bool) (s : State) : State :=
  if g.rank ≠ 0 then s
  else g.members.foldl (fun s m => if m = pkgId s then s
    else sendCtl 6 m (.ctl m 4 ctx (BitVec.ofNat 64 (r + 65536 * b2n now))) s) s

theorem pointDue_iff (c : Ctx) (p : SecPol) (r : Nat) :
    pointDue c p r = true ↔ ∀ q, c.sec.lastPoint = some q → secK p r ≤ (c.step - q).toNat := by
  unfold pointDue
  split
  case h_1 h => simp [h]
  case h_2 q h => simp [h]

theorem pointAgreed_iff (c : Ctx) (p : SecPol) (risk : Nat) (now : Bool) : pointAgreed c p risk now = true ↔
    c.sec.rerunTill = none ∧ c.sec.replayCid = none ∧ ((now = true ∨ c.sec.sentNow = true) ∨
      ∀ q, c.sec.lastPoint = some q → secK p (riskAgreed c risk) ≤ (c.step - q).toNat) := by
  simp only [pointAgreed, nowAsked, Bool.and_eq_true, Bool.or_eq_true, Bool.not_eq_true', Bool.or_eq_false_iff,
    Option.isSome_eq_false_iff, Option.isNone_iff_eq_none, pointDue_iff, and_assoc]

theorem doRiskExchangeResult_of_exchange {s : State} {ctx : Nat} {c : Ctx} {p : SecPol} (risk : Nat) (now : Bool)
    (hc : ctxOf s ctx = some c) (hpol : c.sec.pol = some p) (hexch : c.sec.exch = true) :
    doRiskExchangeResult ctx risk now s = riskReturned ctx (secGroup s p) (riskAgreed c risk) (nowAsked c now)
      (updCtx ctx (riskTaken c p risk now) s) := by
  unfold doRiskExchangeResult
  simp only [hc, hpol, hexch, Bool.not_true, Bool.false_eq_true, if_false]
  rfl

/-! ## STRATA_READ (R370) -/

/-- The fields of a STRATA_READ: 1 to 1,024 steps, an aligned offset, and no reserved byte set. -/
structure StrataFieldsOk (p : List Byte) : Prop where
  some_step : 1 ≤ u16 p 8
  most : u16 p 8 ≤ 1024
  reserved : u16 p 10 = 0
  aligned : u64 p 16 % 64 = 0
  tail : allZero (p.drop 24) = true

theorem doStrataRead_of_entries {s : State} {cid ctx : Nat} {k : Cmd} {c : Ctx} {p : SecPol} {o lo : Obj}
    {es : List StrataEnt} {b : List Byte} (hready : ready s cid 0x55 = some k) (hctx : k.ctx.getD 0 = ctx)
    (hp : StrataFieldsOk k.param) (ho : ownObj s ctx (BitVec.ofNat 32 (u32 k.param 12)) = some o)
    (hc : ctxOf s ctx = some c) (hpol : c.sec.pol = some p) (hlo : ownObj s ctx p.strata = some lo)
    (hes : entriesFrom c.sec.strata (u64 k.param 0) (u16 k.param 8) = es) (hsome : es ≠ [])
    (hb : b = es.flatMap (fun x => objRead s lo x.off (entryLen x))) (hfits : u64 k.param 16 + b.length ≤ o.size) :
    doStrataRead cid s = finish cid stOK (leBytes 4 es.length ++ zeros 4 ++ leBytes 8 b.length)
      (objWriteAt (BitVec.ofNat 32 (u32 k.param 12)) (u64 k.param 16) b (startCmd cid s)) := by
  obtain ⟨hone, hmost, hreserved, haligned, htail⟩ := hp
  obtain ⟨e, l, rfl⟩ := List.exists_cons_of_ne_nil hsome
  have hown : ∀ h, ownObj (startCmd cid s) ctx h = ownObj s ctx h := fun _ => rfl
  unfold doStrataRead
  simp only [hready, hctx]
  rw [if_neg (by simp [hreserved, haligned, htail, Nat.not_lt.2 hmost, Nat.one_le_iff_ne_zero.1 hone])]
  simp only [hown, ho, ctxOf_startCmd, hc, hpol, hlo, hes, objRead_startCmd, ← hb, if_neg (Nat.not_lt.2 hfits)]

/-- Settles O46: the interval by the quotient's bounds, the exchange and STRATA_READ by what their rows leave. -/
theorem securingInterval : Obligations.SecuringInterval := by
  refine ⟨?interval, ?member, ?exchange, ?strata⟩
  case interval =>
    intro p r hk hr
    have hle := secK_quotient_le p hr
    rw [floor_secK_quotient]
    refine ⟨?_, ?_, ?_, secK_zero p, secK_highest hk⟩ <;> unfold secK <;> omega
  case member =>
    intro s ctx risk now c p q hc hpol hexch hlast hrisk hrank
    have hrow := doRiskExchangeResult_of_exchange risk now hc hpol hexch
    have hagreed : riskAgreed c risk = max risk c.sec.sentRisk := by rw [riskAgreed, Nat.min_eq_left hrisk]
    rw [riskReturned, if_pos hrank] at hrow
    refine ⟨_, _, congrArg Host.Outcome.next hrow, ctxOf_updCtx_some ctx s c _ hc (fun _ => rfl), hagreed, rfl, rfl, ?_⟩
    refine (pointAgreed_iff c p risk now).trans ?_
    simp only [hagreed, hlast, Option.some.injEq, forall_eq', and_assoc]
  case exchange =>
    intro s ctx risk now c p hc hpol hexch
    exact ⟨_, updCtx ctx (riskTaken c p risk now) s, _,
      congrArg Host.Outcome.next (doRiskExchangeResult_of_exchange risk now hc hpol hexch),
      ctxOf_updCtx_some ctx s c _ hc (fun _ => rfl), rfl, rfl, pointAgreed_iff c p risk now, rfl, rfl⟩
  case strata =>
    rintro s cid ctx n k c p o lo es b hready hctx rfl hone hmost hreserved haligned htail ho hc hpol hlo hes hsome hb
      hfits
    exact ⟨_, congrArg Host.Outcome.next (doStrataRead_of_entries hready hctx
      ⟨hone, hmost, hreserved, haligned, htail⟩ ho hc hpol hlo hes.symm hsome hb hfits),
      doneWith_finish hready (cmds_objWriteAt ..) _ _, rfl⟩

end Sys2Proof.Machine
end

section
/-! PROOFS. The error block: where a record goes (O43), a full ring (O44) and the fatal slots (O45). -/

namespace Sys2Proof.Machine

open Sys2Proof

/-! ## A record in its ring (R384, R385) -/

theorem err_signal (fn v : Nat) (s : State) : (signal fn v s).err = s.err := by rw [signal_frame]

theorem ringFull_iff (r : ErrRing) : ringFull r = true ↔ r.head - r.tail = 4096 := beq_iff_eq

theorem ringFull_of_room {r : ErrRing} (h : r.head - r.tail ≠ 4096) : ringFull r = false :=
  Bool.eq_false_iff.2 fun hfull => h ((ringFull_iff r).1 hfull)

theorem ringAdd_of_room {r : ErrRing} (cls sev : Nat) (b : List Byte) (h : r.head - r.tail ≠ 4096) :
    ringAdd r cls sev b = ringPut r b := by
  rw [ringAdd, if_neg (by simp [ringFull_of_room h])]

theorem ringAdd_of_full {r : ErrRing} {sev : Nat} (cls : Nat) (b : List Byte) (h : r.head - r.tail = 4096)
    (hsev : sev < 3) :
    ringAdd r cls sev b = ringCoalesce r cls b := by
  rw [ringAdd, if_pos ((ringFull_iff r).2 h), if_pos hsev]

/-- The SEQ of a record stands in its bytes 18 and 19. -/
theorem u16_withSeq {b : List Byte} (seq : Nat) (h : 20 ≤ b.length) : u16 (withSeq b seq) 18 = seq % 65536 := by
  have hhead : (b.take 18).length = 18 := by rw [List.length_take]; omega
  have hseq : slice (withSeq b seq) 18 2 = leBytes 2 seq :=
    calc slice (withSeq b seq) 18 2
        = slice (b.take 18 ++ (leBytes 2 seq ++ b.drop 20)) ((b.take 18).length + 0) 2 := by
          rw [hhead, withSeq, patch, length_leBytes, List.append_assoc]
      _ = slice (leBytes 2 seq ++ b.drop 20) 0 2 := slice_append_right ..
      _ = leBytes 2 seq := by rw [slice_append_left _ _ _ _ (by rw [length_leBytes])]; rfl
  rw [u16, hseq]
  exact leNat_leBytes 2 seq

theorem postRec_of_ctx {s : State} {cls sev ctx die unit : Nat} {detail : List (Nat × Nat × Nat)} {c : Ctx}
    (hsev : sev < 3) (hc : ctxOf s ctx = some c) : postRec cls sev (some ctx) die unit detail s =
      signal c.owner 0 (updRing (c.owner / 64)
        (fun r => ringAdd r cls sev (mkRec s cls sev (some ctx) die unit detail)) s) := by
  have hsev' : sev ≠ 3 := hsev.ne
  simp only [postRec, hsev', decide_false, Bool.false_and, Bool.false_eq_true, if_false, Option.bind_some, hc]

/-- Both error rings with one more record. -/
def inBothRings (cls sev : Nat) (b : List Byte) (s : State) : State :=
  updRing 1 (fun r => ringAdd r cls sev b) (updRing 0 (fun r => ringAdd r cls sev b) s)

theorem postRec_of_no_ctx {s : State} {cls sev die unit : Nat} {detail : List (Nat × Nat × Nat)} (hsev : sev < 3) :
    postRec cls sev none die unit detail s =
      signal 64 0 (signal 0 0 (inBothRings cls sev (mkRec s cls sev none die unit detail) s)) := by
  have hsev' : sev ≠ 3 := hsev.ne
  simp only [postRec, hsev', decide_false, Bool.false_and, Bool.false_eq_true, if_false, Option.bind_none, inBothRings]

/-- Settles O43: a record by the ring it reaches, the ring by what `ringPut` leaves. -/
theorem recordsReachTheirRing : Obligations.RecordsReachTheirRing := by
  refine ⟨fun s cls sev ctx die unit detail c hsev hc => postRec_of_ctx hsev hc, ?none, ?room, fun seq b h =>
    u16_withSeq seq (by omega)⟩
  case none =>
    intro s cls sev die unit detail hsev
    refine ⟨_, _, rfl, postRec_of_no_ctx hsev, rfl, rfl, ?_⟩
    rw [postRec_of_no_ctx hsev, err_signal, err_signal]
    rfl
  case room =>
    intro r cls sev b hroom
    rw [ringAdd_of_room cls sev b hroom]
    exact ⟨_, rfl, rfl, nmGet_nmSet .., fun k hk => nmGet_nmSet_ne _ _ _ _ hk, rfl⟩

/-! ## A full ring (R385) -/

theorem nmGetD_of_some {α : Type} {m : NatMap α} {k : Nat} {x : α} (d : α) (h : nmGet m k = some x) :
    nmGetD m k d = x := by
  rw [nmGetD, h]
  rfl

/-- A class at rest whose ring is full keeps the record as FIRST and LAST. -/
theorem coal_ringCoalesce_of_rest {r : ErrRing} {cls : Nat} (b : List Byte)
    (h : ∀ x, nmGet r.coal cls = some x → x.active = false) : nmGet (ringCoalesce r cls b).coal cls =
      some { first := withSeq b r.head.toNat, last := withSeq b r.head.toNat, count := 1, active := true } := by
  have hrest : (nmGetD r.coal cls { first := [], last := [], count := 0, active := false }).active = false := by
    unfold nmGetD
    cases hx : nmGet r.coal cls with
    | none => rfl
    | some x => exact h x hx
  simp only [ringCoalesce, hrest, Bool.false_eq_true, if_false, nmGet_nmSet]

/-- A class that is coalescing keeps its FIRST: the record becomes LAST and is counted. -/
theorem coal_ringCoalesce_of_active {r : ErrRing} {cls : Nat} {x : Coal} (b : List Byte) (hx : nmGet r.coal cls = some x)
    (hactive : x.active = true) : nmGet (ringCoalesce r cls b).coal cls =
      some { x with last := withSeq b r.head.toNat, count := x.count + 1 } := by
  simp only [ringCoalesce, nmGetD_of_some _ hx, hactive, if_true, nmGet_nmSet]

theorem ringDrain_of_active (s : State) {r : ErrRing} {cls : Nat} {x : Coal} (hx : nmGet r.coal cls = some x)
    (hactive : x.active = true) (hroom : r.head - r.tail ≠ 4096) : ∃ b, ringDrain s [cls] r =
      { ringPut r b with coal := nmSet cls { x with active := false, count := 0 } r.coal } := by
  simp only [ringDrain, hx, hactive, ringFull_of_room hroom, Bool.not_false, Bool.and_self, if_true]
  exact ⟨_, rfl⟩

/-- Settles O44: a record that finds its ring full by what `ringCoalesce` leaves, and the drain of one class. -/
theorem fullRingsCoalesce : Obligations.FullRingsCoalesce := by
  refine ⟨?first, ?later, ?drain⟩
  case first =>
    intro r cls sev b hfull hsev hrest
    rw [ringAdd_of_full cls b hfull hsev]
    exact ⟨_, rfl, coal_ringCoalesce_of_rest b hrest, rfl, rfl⟩
  case later =>
    intro r cls sev b x hfull hsev hx hactive
    rw [ringAdd_of_full cls b hfull hsev]
    exact ⟨_, rfl, coal_ringCoalesce_of_active b hx hactive, rfl, rfl⟩
  case drain =>
    intro s r cls x hx hactive hroom
    obtain ⟨b, hdrain⟩ := ringDrain_of_active s hx hactive hroom
    rw [hdrain]
    exact ⟨_, rfl, rfl, nmGet_nmSet .., rfl, rfl⟩

/-! ## Fatal slots (R386, R387) -/

theorem freeSlot_some {v : W64} {i : Nat} (h : freeSlot v = some i) :
    i < 64 ∧ v.getLsbD i = false ∧ ∀ j < i, v.getLsbD j = true := by
  obtain ⟨hfree, hlt, hbefore⟩ := List.find?_range_eq_some.1 h
  exact ⟨List.mem_range.1 hlt, by simpa using hfree, fun j hj => by simpa using hbefore j hj⟩

theorem freeSlot_of_all_valid : freeSlot 0xFFFFFFFFFFFFFFFF = none := by decide

theorem getLsbD_or_bit (v : W64) {i : Nat} (hi : i < 64) (j : Nat) :
    (v ||| BitVec.ofNat 64 (2 ^ i)).getLsbD j = (v.getLsbD j || decide (i = j)) := by
  rw [BitVec.getLsbD_or, BitVec.getLsbD_ofNat, Nat.testBit_two_pow]
  by_cases hij : i = j
  · subst hij; simp [hi]
  · simp [hij]

/-- The error block with a fatal record in free slot `i`. -/
theorem err_fatalPut_of_free {s : State} {i : Nat} (b : List Byte) (h : freeSlot s.err.valid = some i) :
    (fatalPut b s).err = { s.err with
      fseq := s.err.fseq + 1
      slots := nmSet i (withSeq b s.err.fseq.toNat) s.err.slots
      valid := s.err.valid ||| BitVec.ofNat 64 (2 ^ i)
      stopped := if s.err.stopped.isSome then s.err.stopped else some i
      stopCls := if s.err.stopped.isSome then s.err.stopCls else u8 b 16 } := by
  simp only [fatalPut, h]

theorem err_fatalPut_of_full {s : State} (b : List Byte) (h : freeSlot s.err.valid = none) :
    (fatalPut b s).err = { s.err with
      fseq := s.err.fseq + 1
      flost := satAdd 8 s.err.flost 1
      stopped := if s.err.stopped.isSome then s.err.stopped else some 64
      stopCls := if s.err.stopped.isSome then s.err.stopCls else u8 b 16 } := by
  simp only [fatalPut, h]

theorem postRec_fatal_of_full {s : State} {cls die unit : Nat} {ctx : Option Nat} {detail : List (Nat × Nat × Nat)}
    (h : freeSlot s.err.valid = none) :
    postRec cls 3 ctx die unit detail s = fatalPut (mkRec s cls 3 ctx die unit detail) s := by
  simp only [postRec, h, Option.isNone_none, decide_true, Bool.and_self, if_true]

/-- Thinning a map by its keys keeps what stands at a key that stays. -/
theorem nmGet_filter {α : Type} (p : Nat → Bool) (m : NatMap α) {k : Nat} (h : p k = true) :
    nmGet (m.filter (fun e => p e.1)) k = nmGet m k := by
  induction m with
  | nil => rfl
  | cons e m ih =>
    rw [List.filter_cons]
    split
    case isTrue hkeep => simp only [nmGet, ih]
    case isFalse hgone =>
      have hkey : e.1 ≠ k := fun hkey => hgone (hkey ▸ h)
      rw [ih, nmGet, if_neg hkey]

/-- The fatal slots without those of the mask. -/
def fatalCleared (mask : W64) (s : State) : State :=
  { s with err := { s.err with
      valid := s.err.valid &&& ~~~mask
      slots := s.err.slots.filter (fun e => !(mask.getLsbD e.1))
      noDump := s.err.noDump.filter (fun e => !(mask.getLsbD e.1)) } }

theorem exec_errFatalClear_of_writer {s : State} {rq : Requester} (mask : W64) (hon : rqOff s rq = false)
    (hwriter : errWriter rq = true) :
    exec (.errFatalClear rq mask) s = .next (fatalCleared mask (dropHeld rq s)) := by
  refine congrArg Host.Outcome.next ((onBar_on rq _ s hon).trans ?_)
  rw [doErrFatalClear, if_neg (by simp [hwriter])]
  rfl

theorem errWriter_of_pfOrAbove {rq : Requester} (hfirmware : rq ≠ .firmware) (h : pfOrAbove rq = true) :
    errWriter rq = true := by
  cases rq with
  | firmware => exact absurd rfl hfirmware
  | host fn => exact h
  | mgmt => rfl

theorem fatal_packageReset (s : State) : (packageReset s).err.slots = s.err.slots ∧
    (packageReset s).err.valid = s.err.valid ∧ (packageReset s).err.fseq = s.err.fseq := by
  unfold packageReset
  split <;> exact ⟨rfl, rfl, rfl⟩

/-- Settles O45: a fatal record by the slot it finds, a clear by the slots that stay, a reset by what it keeps. -/
theorem fatalSlots : Obligations.FatalSlots := by
  refine ⟨?free, ?full, ?ring, ?clear, fatal_packageReset, ?frame⟩
  case free =>
    intro b s i hfree
    obtain ⟨hlt, hinvalid, hbefore⟩ := freeSlot_some hfree
    refine ⟨_, rfl, hlt, hinvalid, hbefore, ?_⟩
    rw [err_fatalPut_of_free b hfree]
    refine ⟨nmGet_nmSet .., ?_, fun j hj => ⟨nmGet_nmSet_ne _ _ _ _ hj, ?_⟩, rfl, rfl⟩
    · rw [getLsbD_or_bit _ hlt, decide_eq_true rfl, Bool.or_true]
    · rw [getLsbD_or_bit _ hlt, decide_eq_false (Ne.symm hj), Bool.or_false]
  case full =>
    intro b s hvalid
    refine ⟨_, rfl, ?_⟩
    rw [err_fatalPut_of_full b (by rw [hvalid]; exact freeSlot_of_all_valid)]
    exact ⟨rfl, rfl, rfl, rfl⟩
  case ring =>
    intro s cls die unit ctx detail hvalid
    exact postRec_fatal_of_full (by rw [hvalid]; exact freeSlot_of_all_valid)
  case clear =>
    intro s rq mask hon hwriter
    exact ⟨_, exec_errFatalClear_of_writer mask hon hwriter, rfl,
      fun i hi => nmGet_filter (fun k => !(mask.getLsbD k)) _ (by simpa using hi), rfl, rfl⟩
  case frame =>
    intro s rq mask hon hfirmware hpf
    exact ⟨_, exec_errFatalClear_of_writer mask hon (errWriter_of_pfOrAbove hfirmware hpf), rfl, rfl, rfl, rfl⟩

end Sys2Proof.Machine
end

section
/-! PROOFS. SELF_TEST, the pieces of background tests, intrusive tests and spare checks (O14). -/

namespace Sys2Proof.Machine

open Sys2Proof

/-! ## SELF_TEST (R415-R417) -/

/-- Background tests run on these ped-2s from now on. -/
def backgroundOn (ps : List Nat) (s : State) : State :=
  { s with test := { s.test with background := ps.foldl (fun l x => addOnce x l) s.test.background } }

/-- Background tests no longer run on these ped-2s, and a piece that runs is stopped. -/
def backgroundOff (ps : List Nat) (s : State) : State :=
  ps.foldl (fun s x => stopPiece x s)
    { s with test := { s.test with background := s.test.background.filter (fun x => !(x ∈ ps)) } }

/-- An intrusive test waits for these ped-2s. -/
def intrusiveAsked (cid : Nat) (ps : List Nat) (s : State) : State :=
  { s with test := { s.test with intrusive := s.test.intrusive ++ [(cid, ps, false)] } }

/-- A SELF_TEST with valid fields, of ped-2s in service that no intrusive test has claimed. -/
structure SelfTestOk (s : State) (p : List Byte) (ps : List Nat) : Prop where
  kind : u8 p 0 ≤ 2
  reserved : allZero (slice p 1 3) = true
  tail : allZero (p.drop 8) = true
  domain : domainBad s (BitVec.ofNat 32 (u32 p 4)) = false
  named : ∃ l, physPed s (BitVec.ofNat 32 (u32 p 4)).toNat = .ok l ∧ ps = (pedSetPed2s l).filter (ped2InService s)
  unclaimed : ∀ x ∈ ps, underTest s x = false

theorem doSelfTest_of_ok {s : State} {cid : Nat} {k : Cmd} {ps : List Nat} (hready : ready s cid 0x60 = some k)
    (hok : SelfTestOk s k.param ps) :
    doSelfTest cid s =
      if u8 k.param 0 = 0 then finish0 cid stOK (backgroundOn ps (startCmd cid s))
      else if u8 k.param 0 = 2 then finish0 cid stOK (backgroundOff ps (startCmd cid s))
      else claimTests (intrusiveAsked cid ps (if ps.any (fun x => (ped2Of s x).lease.isSome)
        then defer cid (leBytes 8 (latestEnd (startCmd cid s) ps)) (startCmd cid s) else startCmd cid s)) := by
  obtain ⟨hkind, hreserved, htail, hdomain, ⟨l, hl, rfl⟩, hunclaimed⟩ := hok
  have hserves : ped2InService (startCmd cid s) = ped2InService s := rfl
  have hclaimed : underTest (startCmd cid s) = underTest s := rfl
  unfold doSelfTest
  simp only [hready, physPed_startCmd, hl, hserves, hclaimed, domainBad_startCmd, hdomain]
  rw [if_neg (by simp [hreserved, htail, Nat.not_lt.2 hkind]), if_neg (by simpa using hunclaimed)]
  rfl

/-! ## Pieces of a background test (R416) -/

theorem doBackgroundTestPiece_of_free {s : State} {p : Nat} (hon : p ∈ s.test.background)
    (hserves : ped2InService s p = true) (hlease : (ped2Of s p).lease = none)
    (hreserved : reservedSoon s p = false) (hidle : (ped2Of s p).bgRunning = false)
    (hchecks : (ped2Of s p).checks = []) (hunit : (List.range 6).any (fun u => unitsFree (residents s p) u 1) = true)
    (hgo : s.err.stopped = none) : doBackgroundTestPiece p s = updPed2 p (fun d => { d with bgRunning := true }) s := by
  unfold doBackgroundTestPiece
  dsimp only
  rw [hlease, hreserved, hidle, hchecks, hunit, hserves, hgo, if_neg (by simp [hon])]

theorem doBackgroundPieceDone_of_running {s : State} {p : Nat} (failed : List Nat) (hruns : (ped2Of s p).bgRunning = true)
    (hgo : s.err.stopped = none) : doBackgroundPieceDone p failed s =
      failGrains p failed (scrubFree p (updPed2 p (fun d => { d with bgRunning := false }) s)) := by
  unfold doBackgroundPieceDone
  rw [if_neg (by simp [hruns, hgo])]

/-! ## Intrusive tests (R417) -/

theorem failGrains_nil (p : Nat) (s : State) : failGrains p [] s = s := rfl

/-- The grains, spares among them, of the ped-2s in service. -/
def grainsTested (s : State) (ps : List Nat) : Nat :=
  (ps.filter (ped2InService s)).foldl (fun n p =>
    n + popCount (nmGetD s.emap.enabled p 0) + popCount (nmGetD s.emap.spare p 0)) 0

/-- The intrusive test of a command is over. -/
def intrusiveOver (cid : Nat) (s : State) : State :=
  { s with test := { s.test with intrusive := s.test.intrusive.filter (fun x => x.1 != cid) } }

/-- The ped-2s that context 0 held for a test are scrubbed and given back. -/
def testReleased (ps : List Nat) (s : State) : State :=
  ps.foldl (fun s p => if leasedTo s 0 p then releasePed2 p (scrubFree p s) else s) s

theorem doIntrusiveTestDone_of_none_failed {s : State} {cid : Nat} {ps : List Nat}
    (hruns : s.test.intrusive.find? (fun x => x.1 == cid && x.2.2) = some (cid, ps, true)) (hgo : s.err.stopped = none) :
    doIntrusiveTestDone cid [] s = decideLeases (finish cid stOK
      (leBytes 4 (grainsTested s ps) ++ leBytes 4 0 ++ leBytes 2 0) (testReleased ps (intrusiveOver cid s))) := by
  have hnone : ∀ u : State, ps.foldl (fun s p => failGrains p [] s) u = u := fun u =>
    List.foldl_fixed' (fun p => failGrains_nil p u) ps
  unfold doIntrusiveTestDone
  simp only [hruns, hgo, Option.isSome_none, Bool.false_eq_true, if_false, List.filter_nil, List.map_nil, hnone,
    Nat.sub_self]
  rfl

/-! ## SPARE_CHECK_DONE (R371) -/

theorem doSpareCheckDone_of_last_passed {s : State} {p q : Nat} {c : SpareCheck} (hchecks : (ped2Of s p).checks = [c])
    (hq : nextSpare s p c.failed = some q) :
    doSpareCheckDone p true s = updPed2 p (fun d => { d with checks := [] }) (mapSpare p c q s) := by
  unfold doSpareCheckDone
  simp only [hchecks, hq, if_true, ped2Of_updPed2]

/-- Settles O14: SELF_TEST by its three kinds, each event by the lemma of its row. -/
theorem selfTestRowsAct : Obligations.SelfTestRowsAct := by
  refine ⟨?selfTest, ?piece, ?done, ?intrusive, ?spare⟩
  case selfTest =>
    rintro s cid k l ps hready hkind hreserved htail hdomain hl hps hunclaimed
    have hrow := doSelfTest_of_ok hready ⟨hkind, hreserved, htail, hdomain, ⟨l, hl, hps⟩, hunclaimed⟩
    refine ⟨_, congrArg Host.Outcome.next hrow, fun h0 => ?_, fun h1 hfree => ?_, fun h2 => ?_⟩
    · rw [if_pos h0]
      exact ⟨doneWith_finish hready rfl _ _, fun p hp => mem_foldl_addOnce _ _ p (.inl hp), rfl⟩
    · rw [if_neg (by omega), if_neg (by omega), if_neg (by simpa using hfree)]
      rfl
    · rw [if_neg (by omega), if_pos h2]
      rfl
  case piece =>
    intro s p hon hserves hlease hreserved hidle hchecks hunit hgo
    refine ⟨_, congrArg Host.Outcome.next
      (doBackgroundTestPiece_of_free hon hserves hlease hreserved hidle hchecks hunit hgo), ?_, fun q hq => ?_, rfl⟩
    · rw [ped2Of_updPed2]
    · exact ped2Of_updPed2_ne _ _ _ _ hq
  case done =>
    intro s p failed hruns hgo
    exact ⟨_, congrArg Host.Outcome.next (doBackgroundPieceDone_of_running failed hruns hgo), rfl⟩
  case intrusive =>
    rintro s cid n ps hruns hgo rfl
    exact ⟨_, congrArg Host.Outcome.next (doIntrusiveTestDone_of_none_failed hruns hgo), _, rfl, rfl⟩
  case spare =>
    intro s p q c hchecks hq
    exact ⟨_, congrArg Host.Outcome.next (doSpareCheckDone_of_last_passed hchecks hq), rfl⟩

end Sys2Proof.Machine
end

section
/-! PROOFS. The securing commands, secure points, ROLLBACK and REPLAY_STEP (O17), each where its checks pass. -/

namespace Sys2Proof.Machine

open Sys2Proof

/-! ## SECURE_NOW and SECURE_POLICY (R350-R353, R362) -/

section
variable {s : State} {cid ctx : Nat} {k : Cmd} {c : Ctx} {p : SecPol}

/-- A context that a SECURE_NOW has asked for a secure point. -/
def nowTaken (cid : Nat) (c : Ctx) : Ctx :=
  { c with sec := { c.sec with nowreq := true, nowCids := c.sec.nowCids ++ [cid] } }

theorem doSecureNow_of_policy (hready : ready s cid 0x50 = some k) (hctx : k.ctx.getD 0 = ctx) (hc : ctxOf s ctx = some c)
    (hpol : c.sec.pol = some p) (hen : p.en = true) (hreserved : allZero k.param = true) :
    doSecureNow cid s = updCtx ctx (nowTaken cid) (startCmd cid s) := by
  unfold doSecureNow
  simp only [hready, hctx, ctxOf_startCmd, hc, Option.bind_some, hpol]
  rw [if_neg (by simp [hreserved, hen])]
  rfl

theorem polBad_startCmd (cid : Nat) (s : State) (ctx : Nat) (b : List Byte) (x : SecPol) (ents : List (List Byte))
    (ok : Bool) : polBad (startCmd cid s) ctx b x ents ok = polBad s ctx b x ents ok := rfl

/-- A context whose policy has been replaced, with both generations empty and no secure point in progress. -/
def policyTaken (c : Ctx) (x : SecPol) (d : Ctx) : Ctx :=
  let same := match c.sec.pol with | some q => q.strata == x.strata | none => false
  { d with sec := { d.sec with
      pol := some x, gen0 := secGenNone, gen1 := secGenNone, lastPoint := none, agreed := false, point := none
      nextPoint := none, nextCids := [], resend := false, pointCids := [], sentX := 0, recvX := 0, pointX := (0, 0)
      strata := if same then d.sec.strata else [], strataPos := if same then d.sec.strataPos else 0 } }

/-- The registration entries of a SECURE_POLICY: 16 bytes each of the table object. -/
def regEntries (s : State) (o : Obj) (b : List Byte) : List (List Byte) :=
  (List.range (u16 b 10)).map (fun i => objRead s o (u64 b 16 + 16 * i) 16)

theorem regEntries_startCmd (cid : Nat) (s : State) (o : Obj) (b : List Byte) :
    regEntries (startCmd cid s) o b = regEntries s o b := by
  simp only [regEntries, objRead_startCmd]

/-- A SECURE_POLICY of an idle context whose table lies within its object and holds valid fields. -/
structure PolicyOk (s : State) (ctx : Nat) (c : Ctx) (b : List Byte) (o : Obj) : Prop where
  no_run : runOut s ctx = false
  no_tag : liveTags s ctx = []
  no_point : c.sec.pointCids = []
  no_next : c.sec.nextCids = []
  table : ownObj s ctx (BitVec.ofNat 32 (u32 b 12)) = some o
  most : u16 b 10 ≤ 256
  within : u64 b 16 + 16 * u16 b 10 ≤ o.size
  fields : polBad s ctx b (parsePol b (regEntries s o b)) (regEntries s o b) true = false
  no_explicit : ∀ r ∈ (parsePol b (regEntries s o b)).regs, r.2.1 = false

theorem doSecurePolicy_of_ok {o : Obj} (hready : ready s cid 0x51 = some k) (hctx : k.ctx.getD 0 = ctx)
    (hc : ctxOf s ctx = some c) (hok : PolicyOk s ctx c k.param o) : doSecurePolicy cid s =
      finish0 cid stOK (updCtx ctx (policyTaken c (parsePol k.param (regEntries s o k.param))) (startCmd cid s)) := by
  obtain ⟨hrun, htag, hpoint, hnext, htable, hmost, hwithin, hfields, hexplicit⟩ := hok
  have hown : ∀ h, ownObj (startCmd cid s) ctx h = ownObj s ctx h := fun _ => rfl
  have htags : liveTags (startCmd cid s) ctx = [] := htag
  have hregs : (parsePol k.param (regEntries s o k.param)).regs.filter (fun r => r.2.1) = [] :=
    List.filter_eq_nil_iff.2 fun r hr => by simp [hexplicit r hr]
  unfold regEntries at hfields hregs
  unfold doSecurePolicy
  simp only [hready, hctx, ctxOf_startCmd, hc, runOut_startCmd, hrun, htags, hown, htable, hwithin, decide_true, hmost,
    Bool.and_self, if_true, objRead_startCmd, polBad_startCmd, hfields, hregs, hpoint, hnext]
  rfl

/-! ## The end of a secure point (R359, R362, R366) -/

/-- The buddies have acknowledged the explicit items. -/
def pointAcked (c : Ctx) : Ctx := { c with sec := { c.sec with acked := true } }

/-- The secure point in progress has ended with generation `one` valid. -/
def pointValid (one : Bool) (c : Ctx) : Ctx :=
  { c with sec := { c.sec with
      gen0 := if one then c.sec.gen0 else { c.sec.gen0 with valid := true }
      gen1 := if one then { c.sec.gen1 with valid := true } else c.sec.gen1
      point := none, pointCids := []
      sentX := c.sec.sentX ^^^ c.sec.pointX.1, recvX := c.sec.recvX ^^^ c.sec.pointX.2 } }

/-- The secure point in progress has ended without its copies: the present step is lost at its end. -/
def pointFailed (c : Ctx) : Ctx :=
  { c with sec := { c.sec with
      point := none, pointCids := [], failStep := true
      sentX := c.sec.sentX ^^^ c.sec.pointX.1, recvX := c.sec.recvX ^^^ c.sec.pointX.2 } }

theorem valid_pointValid (one : Bool) (c : Ctx) :
    (if one then (pointValid one c).sec.gen1.valid else (pointValid one c).sec.gen0.valid) = true := by
  cases one <;> rfl

theorem dropOldLbas_of_no_sieve (h : ∀ x ∈ s.sieves, sieveCtx x ≠ ctx) : dropOldLbas ctx s = s := by
  have hnone : s.sieves.filter (fun t => sieveCtx t == ctx) = [] :=
    List.filter_eq_nil_iff.2 fun x hx => by simpa using h x hx
  unfold dropOldLbas
  rw [hnone]
  rfl

section
variable {b : W64} {one : Bool}

theorem doSecurePointComplete_of_first (hc : ctxOf s ctx = some c) (hpoint : c.sec.point = some (b, one))
    (hacked : c.sec.acked = false) : doSecurePointComplete ctx s = updCtx ctx pointAcked s := by
  unfold doSecurePointComplete
  simp only [hc, hpoint, hacked, Bool.not_false, if_true]
  rfl

theorem doSecurePointComplete_of_second (hc : ctxOf s ctx = some c) (hpoint : c.sec.point = some (b, one))
    (hacked : c.sec.acked = true) (hstep : b.toNat + 2 ≤ c.step.toNat) (hsilt : siltOver c.sec = true)
    (hcids : c.sec.pointCids = []) (hsieves : ∀ x ∈ s.sieves, sieveCtx x ≠ ctx) :
    doSecurePointComplete ctx s = pointEnded ctx b (updCtx ctx (pointValid one) s) := by
  unfold doSecurePointComplete
  simp only [hc, hpoint, hacked, hcids, List.foldl_nil]
  rw [if_neg (by simp), if_neg (by simp [hsilt, Nat.not_lt.2 hstep])]
  exact congrArg (pointEnded ctx b) (dropOldLbas_of_no_sieve (s := updCtx ctx (pointValid one) s) hsieves)

theorem doSecurePointFail_of_late {dd : Nat} (hc : ctxOf s ctx = some c) (hpoint : c.sec.point = some (b, one))
    (hpol : c.sec.pol = some p) (hbuddy : dd ∈ buddies s p) (hlate : lnkRto s ≤ (s.clk.pcc - c.sec.pointPcc).toNat) :
    doSecurePointFail ctx (.ackTimeout dd) s = pointEnded ctx b (failNow c.sec.pointCids (updCtx ctx pointFailed
      (postRec 0x12 2 (some ctx) 0xFF 0xFFFFFFFF [(0, 8, b.toNat), (8, 2, dd), (10, 1, 0)] s))) := by
  have hstands : failStands s c p b (.ackTimeout dd) = true := by
    simp only [failStands, hbuddy, hlate, decide_true, Bool.and_self]
  unfold doSecurePointFail
  simp only [hc, hpoint, hpol, hstands, Bool.not_true, Bool.false_eq_true, if_false]
  rfl

end

/-! ## ROLLBACK and REPLAY_STEP (R367-R369) -/

/-- The bytes that a rollback restores: those of the registered objects and of the scale bank. -/
def bytesRestored (s : State) (ctx : Nat) (p : SecPol) : Nat :=
  regBytes s ctx p.regs false + regBytes s ctx p.regs true + nineMib

theorem doRollback_of_held {g : SecGen} {step : W64} {serves : List (Nat × Bool)} (hready : ready s cid 0x52 = some k)
    (hctx : k.ctx.getD 0 = ctx) (hc : ctxOf s ctx = some c) (hpol : c.sec.pol = some p) (hen : p.en = true)
    (hreserved : allZero (k.param.drop 8) = true) (hrun : runOut s ctx = false) (htag : liveTags s ctx = [])
    (hstep : BitVec.ofNat 64 (u64 k.param 0) = step) (hgen : genOf c.sec step = some g)
    (hserves : ∃ e ∈ serves, e.1 ∈ buddies s p ∧ e.2 = true) : doRollback cid serves s =
      finish cid stOK (leBytes 8 (step.toNat + 1) ++ leBytes 8 (bytesRestored s ctx p))
        (restore ctx c step g (startCmd cid s)) := by
  obtain ⟨e, he, hbuddy, hserve⟩ := hserves
  have hheld : e ∈ serves.filter (fun e => e.1 ∈ buddies (startCmd cid s) p) :=
    List.mem_filter.2 ⟨he, decide_eq_true hbuddy⟩
  have htags : liveTags (startCmd cid s) ctx = [] := htag
  unfold doRollback
  simp only [hready, hctx, ctxOf_startCmd, hc, hpol, runOut_startCmd, hrun, htags, hstep, hgen]
  rw [if_neg (by simp [hreserved, hen]), if_neg (by simp), if_neg (List.ne_nil_of_mem hheld), if_neg fun hall => ?_]
  · rfl
  · simpa [hserve] using List.all_eq_true.1 hall e hheld

/-- A context whose present step runs again. -/
def replayArmed (cid : Nat) (c : Ctx) : Ctx := { c with sec := { c.sec with replayCid := some cid, replayFlags := 0 } }

theorem doReplayStep_of_logged (hready : ready s cid 0x53 = some k) (hctx : k.ctx.getD 0 = ctx) (hc : ctxOf s ctx = some c)
    (hreserved : allZero (k.param.drop 8) = true) (hstep : u64 k.param 0 = c.step.toNat) (hfresh : c.stepFresh = true)
    (hlogged : ∃ e ∈ c.sec.strata, e.complete = true ∧ e.step = c.step) (hrun : runOut s ctx = false)
    (hidle : c.sec.replayCid = none) : doReplayStep cid s = updCtx ctx (replayArmed cid) (startCmd cid s) := by
  have hany : c.sec.strata.any (fun e => e.complete && e.step == c.step) = true := by simpa using hlogged
  unfold doReplayStep
  simp only [hready, hctx, ctxOf_startCmd, hc, runOut_startCmd, hrun, hidle, hstep, hfresh, hany, hreserved]
  rw [if_neg (by simp), if_neg (by simp)]
  rfl

end

/-- Settles O17: each row by what it leaves where its checks pass. -/
theorem secureRowsAct : Obligations.SecureRowsAct := by
  refine ⟨?now, ?policy, ?complete, ?fail, ?rollback, ?replay⟩
  case now =>
    intro s cid ctx k c p hready hctx hc hpol hen hreserved
    have hget : k.ctx.getD 0 = ctx := by rw [hctx]; rfl
    exact ⟨_, congrArg Host.Outcome.next (doSecureNow_of_policy hready hget hc hpol hen hreserved),
      ctxOf_updCtx_startCmd cid _ hc, rfl⟩
  case policy =>
    rintro s cid ctx n k c o ents hready hctx hc hrun htag hpoint hnext htable rfl hmost hwithin rfl hfields hexplicit
    have hrow := doSecurePolicy_of_ok hready hctx hc
      ⟨hrun, htag, hpoint, hnext, htable, hmost, hwithin, hfields, hexplicit⟩
    exact ⟨_, _, congrArg Host.Outcome.next hrow, doneWith_finish hready rfl _ _,
      (ctxOf_finish0 ..).trans (ctxOf_updCtx_startCmd cid _ hc), rfl, rfl, rfl, rfl, rfl, rfl, rfl, rfl⟩
  case complete =>
    intro s ctx c b one hc hpoint
    refine ⟨_, rfl, fun hacked => ?_, fun hacked hstep hsilt hcids hsieves => ?_⟩
    · rw [doSecurePointComplete_of_first hc hpoint hacked]
      exact ⟨ctxOf_updCtx_some ctx s c _ hc (fun _ => rfl), rfl⟩
    · exact ⟨_, _, doSecurePointComplete_of_second hc hpoint hacked hstep hsilt hcids hsieves,
        ctxOf_updCtx_some ctx s c _ hc (fun _ => rfl), rfl, valid_pointValid one c, rfl, rfl⟩
  case fail =>
    intro s ctx dd c p b one hc hpoint hpol hbuddy hlate
    exact ⟨_, congrArg Host.Outcome.next (doSecurePointFail_of_late hc hpoint hpol hbuddy hlate), rfl⟩
  case rollback =>
    rintro s cid ctx serves k c p g step hready hctx hc hpol hen hreserved hrun htag hstep hgen hserves
    exact ⟨_, congrArg Host.Outcome.next
      (doRollback_of_held hready hctx hc hpol hen hreserved hrun htag hstep.symm hgen hserves), rfl⟩
  case replay =>
    intro s cid ctx k c hready hctx hc hreserved hstep hfresh hlogged hrun hidle
    exact ⟨_, congrArg Host.Outcome.next
      (doReplayStep_of_logged hready hctx hc hreserved hstep hfresh hlogged hrun hidle),
      ctxOf_updCtx_startCmd cid _ hc, rfl⟩

end Sys2Proof.Machine
end

section
/-! PROOFS. The tilth monitor, the error rings' TAIL, mismatches, DUMP_CONFIG and the fatal error (O18). -/

namespace Sys2Proof.Machine

open Sys2Proof

/-! ## The tilth monitor (R364, R366) -/

/-- The error block after a tilth period. -/
def periodFolded (s : State) : State :=
  { s with err := { s.err with
      wInForce := s.err.w
      risk := nextRisk s.err.risk (riskSum s.err.wInForce s.err.cCe s.err.cLr s.err.cAf s.err.cTh
        ((List.range 48).foldl (fun m c => max m (mage s c)) 0))
      periods := s.err.periods + 1, cCe := 0, cLr := 0, cAf := 0, cTh := 0 } }

theorem doTilthPeriod_of_running {s : State} (slack : List Nat) (h : s.clk.pccRun = true) :
    doTilthPeriod slack s = ageDies slack (takeClkctl (periodFolded s)) := by
  unfold doTilthPeriod
  rw [if_neg (by simp [h])]
  rfl

/-- The answer of a TILTH_READ, for an interval and the steps left. -/
def tilthAnswer (s : State) (c : Ctx) (interval left : Nat) : List Byte :=
  leBytes 2 s.err.risk ++ leBytes 2 c.sec.rjob ++ leBytes 2 interval ++ leBytes 2 (min 65535 left) ++
    leBytes 8 (newestSecured c.sec)

/-- A TILTH_READ of a context that its sender may manage, with no parameter byte set. -/
structure TilthReadOk (s : State) (k : Cmd) (c : Ctx) : Prop where
  reserved : allZero k.param = true
  range : k.pctx ≤ 1023
  nonzero : k.pctx ≠ 0
  exist : ctxOf s k.pctx = some c
  manages : mayManage c k.fn = true

section
variable {s : State} {cid : Nat} {k : Cmd} {c : Ctx}

theorem doTilthRead_of_policy {p : SecPol} (hready : ready s cid 0xB0 = some k) (hok : TilthReadOk s k c)
    (hpol : c.sec.pol = some p) : doTilthRead cid s =
      finish cid stOK (tilthAnswer s c (secK p c.sec.rjob) (stepsLeft c p)) (startCmd cid s) := by
  obtain ⟨hreserved, hrange, hnonzero, hc, hmanages⟩ := hok
  unfold doTilthRead
  simp only [hready, ctxOf_startCmd, hc, hmanages, hpol]
  rw [if_neg (by simp [hreserved, hrange]), if_neg hnonzero, if_neg (by simp)]
  rfl

theorem doTilthRead_of_no_policy (hready : ready s cid 0xB0 = some k) (hok : TilthReadOk s k c) (hpol : c.sec.pol = none) :
    doTilthRead cid s = finish cid stOK
      (tilthAnswer s c (freeBits 16 s).1.toNat (freeBits 16 (freeBits 16 s).2).1.toNat)
      { startCmd cid s with freeCtr := s.freeCtr + 1 + 1 } := by
  obtain ⟨hreserved, hrange, hnonzero, hc, hmanages⟩ := hok
  unfold doTilthRead
  simp only [hready, ctxOf_startCmd, hc, hmanages, hpol]
  rw [if_neg (by simp [hreserved, hrange]), if_neg hnonzero, if_neg (by simp)]
  rfl

/-! ## DUMP_CONFIG (R389) -/

/-- The buffer that a DUMP_CONFIG gives its port. -/
def dumpAsked (p : List Byte) : DumpCfg :=
  { bus := BitVec.ofNat 64 (u64 p 0), size := u64 p 8, en := bitAt (u8 p 16) 0, lstore := bitAt (u8 p 16) 1 }

/-- The fields of a DUMP_CONFIG: an aligned buffer of at least 1 MiB, and no reserved bit set. -/
structure DumpFieldsOk (p : List Byte) : Prop where
  aligned : u64 p 0 % 4096 = 0
  room : 1048576 ≤ u64 p 8
  flags : u8 p 16 ≤ 3
  reserved : allZero (p.drop 17) = true

theorem doDumpConfig_of_fields (hready : ready s cid 0xA0 = some k) (hp : DumpFieldsOk k.param) : doDumpConfig cid s =
    finish0 cid stOK (updPort (k.fn / 64) (fun q => { q with dump := some (dumpAsked k.param) }) (startCmd cid s)) := by
  obtain ⟨haligned, hroom, hflags, hreserved⟩ := hp
  unfold doDumpConfig
  simp only [hready]
  rw [if_neg (by simp [haligned, hreserved, Nat.not_lt.2 hroom, Nat.not_lt.2 hflags])]
  rfl

end

/-! ## The TAIL of an error ring (R384, R385) -/

theorem rwpWrite_frame (off : Nat) (mask val : W64) (s : State) :
    rwpWrite off mask val s = { s with reg := (rwpWrite off mask val s).reg } := noteRwp_frame ..

/-- Both PFs are signalled on vector 0, `n` times. -/
def signalPfs (n : Nat) (s : State) : State := (List.range n).foldl (fun s _ => signal 64 0 (signal 0 0 s)) s

/-- The ring of H-die `h` with its TAIL moved, and with the COALESCED records that find room. -/
def tailMoved (h : Nat) (t : BitVec 16) (s : State) : State :=
  updRing h (fun r => ringDrain s (List.range 32) { r with tail := t }) s

theorem tailWrite_of_valid {s u : State} {h : Nat} {val : W64} (hu : u = rwpWrite (0x800000 + 0x80000 * h) 0xFE val s)
    (hlead : ((ringOf s h).head - BitVec.ofNat 16 (bits val.toNat 32 16)).toNat ≤ 4096) : tailWrite h val s =
      signalPfs ((ringOf (tailMoved h (BitVec.ofNat 16 (bits val.toNat 32 16)) u) h).head - (ringOf s h).head).toNat
        (tailMoved h (BitVec.ofNat 16 (bits val.toNat 32 16)) u) := by
  have hring : ringOf u h = ringOf s h := by rw [hu, rwpWrite_frame]; rfl
  unfold tailWrite
  rw [← hu]
  dsimp only
  rw [hring, if_neg (Nat.not_lt.2 hlead)]
  rfl

/-! ## Mismatches and the fatal error (R381, R388) -/

theorem doLockstepMismatch_of_standby {s : State} {h : Nat} (hh : h ≤ 1) (hm : s.clk.mainEn = true)
    (hstandby : s.fw.standby = true) (hunused : h ∉ s.fw.standbyUsed) : doLockstepMismatch h s =
      postRec 0x18 1 none (62 + h) 0xFFFFFFFF [(0, 1, h), (1, 1, 0)]
        { s with fw := { s.fw with standbyUsed := addOnce h s.fw.standbyUsed } } := by
  unfold doLockstepMismatch
  rw [if_neg (by simp [hm, Nat.not_lt.2 hh]), if_pos (by simp [hstandby, hunused])]

theorem doLockstepMismatch_of_no_pair {s : State} {h : Nat} (hh : h ≤ 1) (hm : s.clk.mainEn = true)
    (hstandby : s.fw.standby = false) (hst : s.fw.st ≠ .switch) : doLockstepMismatch h s =
      postRec 0x18 3 none (62 + h) 0xFFFFFFFF [(0, 1, h), (1, 1, 1)]
        { s with err := { s.err with barred := addOnce h s.err.barred } } := by
  unfold doLockstepMismatch
  rw [if_neg (by simp [hm, Nat.not_lt.2 hh]), if_neg (by simp [hstandby]), if_neg hst]

theorem doHubLogicMismatch_of_hub {s : State} {die block : Nat} (hdie : die ≤ 63) (hblock : block ≤ 1)
    (hm : s.clk.mainEn = true) : doHubLogicMismatch die block s =
      postRec 0x19 3 none die 0xFFFFFFFF [(0, 1, die), (1, 1, block)] s := by
  unfold doHubLogicMismatch
  rw [if_neg (by simp [hm, Nat.not_lt.2 hdie, Nat.not_lt.2 hblock])]

/-- Every running segment is stopped, as a fatal error stops it. -/
def allStopped (s : State) : State := (s.segs.map (·.ctx)).foldl (fun s c => stopSeg c .fatal stSTEP_LOST s) s

/-- The dumps of both ports are written. -/
def dumpsWritten (slot : Nat) (s : State) : State :=
  { dumpPort slot 1 (dumpPort slot 0 s) with
    err := { (dumpPort slot 1 (dumpPort slot 0 s)).err with dumped := true } }

theorem doFatalError_of_stopped {s : State} {slot : Nat} (hstop : s.err.stopped = some slot)
    (hdump : s.err.dumped = false) :
    doFatalError s = dumpsWritten slot (allStopped s) := by
  unfold doFatalError
  simp only [hstop, hdump, Option.isNone_some, Bool.false_and, Bool.false_eq_true, if_false]
  rfl

/-- Settles O18: each row by the lemma of its conditions. -/
theorem errorRowsAct : Obligations.ErrorRowsAct := by
  refine ⟨?period, ?policy, ?noPolicy, ?tail, ?fatal, ?lockstep, ?logic, ?dump⟩
  case period =>
    intro s slack hrun
    exact ⟨_, periodFolded s, congrArg Host.Outcome.next (doTilthPeriod_of_running slack hrun), rfl, rfl, rfl⟩
  case policy =>
    intro s cid k c p hready hreserved hrange hnonzero hc hmanages hpol
    exact ⟨_, congrArg Host.Outcome.next
      (doTilthRead_of_policy hready ⟨hreserved, hrange, hnonzero, hc, hmanages⟩ hpol),
      doneWith_finish hready rfl _ _, rfl⟩
  case noPolicy =>
    intro s cid k c hready hreserved hrange hnonzero hc hmanages hpol
    exact ⟨_, _, _, congrArg Host.Outcome.next
      (doTilthRead_of_no_policy hready ⟨hreserved, hrange, hnonzero, hc, hmanages⟩ hpol),
      doneWith_finish hready rfl _ _, rfl⟩
  case tail =>
    intro s fn val hon hpf hlead
    have hrow : doErrRingTailWrite (.host fn) val (dropHeld (.host fn) s) = _ :=
      (if_pos hpf).trans (tailWrite_of_valid (s := dropHeld (.host fn) s) rfl hlead)
    refine ⟨_, _, _, congrArg Host.Outcome.next ((onBar_on _ _ s hon).trans hrow), ?_, rfl, rfl⟩
    rw [rwpWrite_frame]
    rfl
  case fatal =>
    intro s slot hstop hdump
    exact ⟨_, congrArg Host.Outcome.next (doFatalError_of_stopped hstop hdump), rfl, allStopped s, rfl, rfl⟩
  case lockstep =>
    intro s h hh hm
    exact ⟨_, rfl, doLockstepMismatch_of_standby hh hm, doLockstepMismatch_of_no_pair hh hm⟩
  case logic =>
    intro s die block hdie hblock hm
    exact ⟨_, congrArg Host.Outcome.next (doHubLogicMismatch_of_hub hdie hblock hm), rfl⟩
  case dump =>
    intro s cid k hready haligned hroom hflags hreserved hport
    refine ⟨_, congrArg Host.Outcome.next (doDumpConfig_of_fields hready ⟨haligned, hroom, hflags, hreserved⟩),
      doneWith_finish hready (updPort_cmds ..) _ _, ?_, ?_⟩
    · exact congrArg Port.dump (portOf_updPort (startCmd cid s) _ _ hport)
    · rw [updPort_frame]
      rfl

end Sys2Proof.Machine
end

section
/-! PROOFS. Guarded registers (O26): what the A write opens, and what each register takes from a pair that matches. -/

namespace Sys2Proof.Machine

open Sys2Proof

/-! ## The writes of a pair (R447-R449) -/

theorem doGuardedWriteA_of_writer {s : State} {rq : Requester} {g : GReg} (va : W32) (hon : rqOff s rq = false)
    (hmay : gMay rq g = true) (hnone : pendOf s rq g = none) :
    doGuardedWriteA rq g va s = openPend rq g va (dropHeld rq s) := by
  have hnone' : pendOf (dropHeld rq s) rq g = none := hnone
  refine (onBar_on rq _ s hon).trans ?_
  rw [guardA, hmay, hnone', if_neg (by simp), if_neg (by simp)]

theorem guardedPair_rejects {s : State} {rq : Requester} {g : GReg} {va : W32} (hon : rqOff s rq = false)
    (hmay : gMay rq g = true) (hpend : pendOf s rq g = some va)
    (hreject : gReject rq g va (closePend rq g (dropHeld rq s)) = true) : doGuardedPair g rq (~~~va) s =
      guardFail rq 6 (gRegA g) va (closePend rq g (dropHeld rq s)) := by
  have hpend' : pendOf (dropHeld rq s) rq g = some va := hpend
  refine (onBar_on rq _ s hon).trans ?_
  unfold guardB
  rw [if_neg (by simp [hmay])]
  simp only [hpend']
  rw [if_neg (not_not.2 rfl), if_pos hreject]

/-! ## HUB_PKGRST (R325) -/

/-- The host of port `p` has asked for a package reset. -/
def resetAsked (p : Nat) (s : State) : State := updPort p (fun x => { x with pkgReq := true }) s

theorem portOf_resetAsked_other {p : Nat} (hp : p < 2) (s : State) : portOf (resetAsked p s) (1 - p) = portOf s (1 - p) :=
  portOf_updPort_other s p _ (Nat.le_of_lt_succ hp)

theorem noLink1s_resetAsked_other {p : Nat} (hp : p < 2) (s : State) :
    noLink1s (resetAsked p s) (1 - p) = noLink1s s (1 - p) := by
  have hclk : (resetAsked p s).clk = s.clk := updPort_clk ..
  rw [noLink1s, portOf_resetAsked_other hp, hclk, noLink1s]

theorem rqCode_pf (p : Nat) : rqCode (.host (64 * p)) = p := Nat.mul_div_cancel_left p (by decide)

theorem gMay_pf (p : Nat) : gMay (.host (64 * p)) .pkgrst = true := by simp [gMay]

/-- A package reset waits until the host of the other port has asked too, unless that port has had no link for 1 s. -/
theorem gTake_pkgrst {p : Nat} (hp : p < 2) (s : State) : gTake (.host (64 * p)) .pkgrst 1 s =
    if (portOf s (1 - p)).pkgReq || noLink1s s (1 - p) then packageReset (resetAsked p s) else resetAsked p s := by
  rw [← portOf_resetAsked_other hp s, ← noLink1s_resetAsked_other hp s]
  unfold gTake
  dsimp only
  rw [rqCode_pf]
  rfl

theorem hubPkgrstPair_takes {s : State} {p : Nat} (hon : rqOff s (.host (64 * p)) = false)
    (hpend : pendOf s (.host (64 * p)) .pkgrst = some 1) : exec (.hubPkgrstPair (.host (64 * p)) (~~~1)) s =
      .next (gTake (.host (64 * p)) .pkgrst 1 (closePend (.host (64 * p)) .pkgrst (dropHeld (.host (64 * p)) s))) :=
  congrArg Host.Outcome.next (guardedPair_takes _ .pkgrst 1 s hon (gMay_pf p) hpend rfl)

/-! ## SEC_ALARM, SEC_ERASE and SEC_SLOT (R424, R433, R446, R450) -/

theorem gTake_secAlarm_of_no_clear {va : W32} (rq : Requester) (s : State) (hclear : va.getLsbD 31 = false) :
    gTake rq .secAlarm va s = noteRwp ((va ^^^ s.sec.alarm) &&& 0x7FFFFC00 != 0)
      { s with sec := { s.sec with alarm := alarmNorm va } } := by
  unfold gTake
  rw [hclear]
  rfl

theorem gTake_secAlarm_of_clear {va : W32} (rq : Requester) {s : State} (hclear : va.getLsbD 31 = true)
    (hidle : s.sec.srcActive = 0) : gTake rq .secAlarm va s =
      measureState 3 (noteRwp ((va ^^^ s.sec.alarm) &&& 0x7FFFFC00 != 0)
        { s with sec := { s.sec with alarm := alarmNorm va, level := 0, cause := 0 } }) := by
  unfold gTake
  dsimp only
  rw [if_pos (by simp [hclear, hidle]), noteRwp_clear]

/-- SEC_ERASE takes level 1 from each of its writers. -/
theorem gReject_secErase_one (rq : Requester) (s : State) : gReject rq .secErase 1 s = false := by
  cases rq <;> rfl

theorem gReject_secSlot {rq : Requester} {va : W32} {s : State} (hst : s.fw.st ≠ .staging) : gReject rq .secSlot va s =
    !(manifestOk (manifest s (bits va.toNat 0 1)) s.fw.dir.svnFloor) := by
  unfold gReject
  rw [beq_eq_false_iff_ne.2 hst, Bool.false_or]

theorem doGuardedPair_secSlot {s : State} {rq : Requester} {va : W32} (hon : rqOff s rq = false)
    (hmay : gMay rq .secSlot = true) (hpend : pendOf s rq .secSlot = some va) (hst : s.fw.st ≠ .staging) :
    doGuardedPair .secSlot rq (~~~va) s =
      if manifestOk (manifest s (bits va.toNat 0 1)) s.fw.dir.svnFloor then
        gTake rq .secSlot va (closePend rq .secSlot (dropHeld rq s))
      else guardFail rq 6 (gRegA .secSlot) va (closePend rq .secSlot (dropHeld rq s)) := by
  have hreject := gReject_secSlot (rq := rq) (va := va) (s := closePend rq .secSlot (dropHeld rq s)) hst
  split
  case isTrue hok => exact guardedPair_takes _ _ _ s hon hmay hpend (hreject.trans (congrArg not hok))
  case isFalse hbad =>
    exact guardedPair_rejects hon hmay hpend (hreject.trans (congrArg not (Bool.eq_false_iff.2 hbad)))

/-- Settles O26: the A write by what it opens, each pair by what its register takes. -/
theorem registerRowsAct : Obligations.RegisterRowsAct := by
  refine ⟨?first, ?waits, ?resets, ?limit, ?clock, ?levels, ?clear, ?volatile, ?helper, ?slot, ?test, ?scrub⟩
  case first =>
    intro s rq g va hon hmay hnone
    exact ⟨_, congrArg Host.Outcome.next (doGuardedWriteA_of_writer va hon hmay hnone), pendOf_openPend .., rfl⟩
  case waits =>
    rintro s u rq p hon hp rfl hpend rfl hreq hlink
    rw [hubPkgrstPair_takes hon hpend, gTake_pkgrst hp, if_neg]
    · rfl
    · exact Bool.eq_false_iff.1 (Bool.or_eq_false_iff.2 ⟨hreq, hlink⟩)
  case resets =>
    rintro s u rq p hon hp rfl hpend rfl hreq
    rw [hubPkgrstPair_takes hon hpend, gTake_pkgrst hp, if_pos]
    · rfl
    · exact Bool.or_eq_true_iff.2 (.inl hreq)
  case limit =>
    rintro s u rq va hon hmay hpend rfl
    exact congrArg Host.Outcome.next (guardedPair_takes rq .pwrLimit va s hon hmay hpend rfl)
  case clock =>
    rintro s u rq va hon hmay hpend rfl
    exact congrArg Host.Outcome.next (guardedPair_takes rq .pwrClkctl va s hon hmay hpend rfl)
  case levels =>
    rintro s u va hpend rfl hclear
    exact congrArg Host.Outcome.next ((guardedPair_takes .mgmt .secAlarm va s rfl rfl hpend rfl).trans
      (gTake_secAlarm_of_no_clear _ _ hclear))
  case clear =>
    rintro s u va hpend rfl hclear hidle
    exact congrArg Host.Outcome.next ((guardedPair_takes .mgmt .secAlarm va s rfl rfl hpend rfl).trans
      (gTake_secAlarm_of_clear _ hclear hidle))
  case volatile =>
    rintro s u rq hon hmay hpend rfl
    exact congrArg Host.Outcome.next
      (guardedPair_takes rq .secErase 1 s hon hmay hpend (gReject_secErase_one rq _))
  case helper =>
    rintro s u hpend rfl
    exact ⟨_, rfl, congrArg Host.Outcome.next (guardedPair_takes .mgmt .secErase 2 s rfl rfl hpend rfl)⟩
  case slot =>
    rintro s u rq va hon hmay hpend rfl hst
    exact congrArg Host.Outcome.next (doGuardedPair_secSlot hon hmay hpend hst)
  case test =>
    rintro s u rq va hon hmay hpend rfl
    exact congrArg Host.Outcome.next (guardedPair_takes rq .secTest va s hon hmay hpend rfl)
  case scrub =>
    rintro s u rq va hon hmay hpend rfl
    exact congrArg Host.Outcome.next (guardedPair_takes rq .secScrub va s hon hmay hpend rfl)

end Sys2Proof.Machine
end

section
/-! PROOFS. What every step keeps of the clocks (O30, O32, O33), of the factory parts (O34) and of the queue (O27, O28). -/

namespace Sys2Proof.Machine

open Sys2Proof

/-! ## The queue -/

/-- Settles O27, by the two ways in which a step starts. -/
theorem stepRunsFrontCommand : Obligations.StepRunsFrontCommand :=
  ⟨fun _ _ _ hp => step_of_command hp, fun _ hp => step_of_empty hp⟩

/-- Settles O28: what every step moves, read at the queue. -/
theorem queueIsServedInOrder : Obligations.QueueIsServedInOrder := by
  intro s t hstep
  obtain ⟨_, _, _, _, hqueue⟩ := moves_step s t hstep
  exact hqueue

/-- Settles O34: what every step moves, read at the factory parts and the certificate chain. -/
theorem factoryPartNeverChanges : Obligations.FactoryPartNeverChanges := by
  intro s t hstep
  obtain ⟨_, hA, hB, hchain, _⟩ := moves_step s t hstep
  exact ⟨hA, hB, hchain⟩

/-! ## The clocks (R393, R405, R487) -/

/-- The shape of the clocks that `clocksOk` asks of a state. -/
def clkShape (c : Clk) : Prop :=
  (c.mainEn = true → c.vstby = true) ∧ (c.pccRun = true → c.mainEn = true) ∧
    (c.pccRun = false → c.pcc = 0 ∧ c.wallUs = 0)

theorem clocksOk_iff_clkShape (s : State) : clocksOk s ↔ clkShape s.clk := Iff.rfl

/-- Dies in reset hold the PCC at 0, so only the rails' own condition is left to show. -/
theorem clkShape_coldClk {c : Clk} (hrails : c.mainEn = true → c.vstby = true) : clkShape (coldClk c) :=
  ⟨hrails, fun h => Bool.noConfusion h, fun _ => ⟨rfl, rfl⟩⟩

/-- The clocks keep their shape in each of the ways in which a step moves them. -/
theorem ClkMove.keeps_shape {c d : Clk} (hmove : ClkMove c d) (hc : clkShape c) : clkShape d := by
  obtain ⟨hrails, hruns, hheld⟩ := hc
  cases hmove with
  | ao _ hsame =>
    obtain ⟨hv, hm, hrun, hpcc, hwall⟩ := hsame
    unfold clkShape
    rw [hv, hm, hrun, hpcc, hwall]
    exact ⟨hrails, hruns, hheld⟩
  | cold hv hm => exact clkShape_coldClk fun _ => hv
  | power => exact ⟨fun _ => rfl, fun h => Bool.noConfusion h, fun _ => ⟨rfl, rfl⟩⟩
  | mainOn hv => exact clkShape_coldClk fun _ => hv
  | mainOff => exact clkShape_coldClk fun h => Bool.noConfusion h
  | release hm hp => exact ⟨hrails, fun _ => hm, fun h => Bool.noConfusion h⟩
  | gc us hp => exact ⟨hrails, hruns, fun h => Bool.noConfusion (hp.symm.trans h)⟩

/-- Settles O32: every move of the clocks keeps their shape. -/
theorem clocksKeepTheirShape : Obligations.ClocksKeepTheirShape := by
  intro s t hs hstep
  rw [clocksOk_iff_clkShape] at hs ⊢
  exact (moves_step s t hstep).1.keeps_shape hs

/-- A PCC that runs on has stood still or moved on by one gc, however the clocks moved. -/
theorem ClkMove.pcc_of_runs_on {c d : Clk} (hmove : ClkMove c d) (hrun : c.pccRun = true) (hon : d.pccRun = true) :
    d.pcc = c.pcc ∨ d.pcc = c.pcc + 1 := by
  cases hmove with
  | ao _ hsame =>
    obtain ⟨_, _, _, hpcc, _⟩ := hsame
    exact .inl hpcc
  | cold | power | mainOn | mainOff => exact Bool.noConfusion hon
  | release hm hp => exact Bool.noConfusion (hp.symm.trans hrun)
  | gc us hp => exact .inr rfl

/-- A PCC that has been stopped stands at 0, however the clocks moved. -/
theorem ClkMove.pcc_of_stopped {c d : Clk} (hmove : ClkMove c d) (hrun : c.pccRun = true) (hoff : d.pccRun = false) :
    d.pcc = 0 := by
  cases hmove with
  | ao _ hsame =>
    obtain ⟨_, _, hsameRun, _, _⟩ := hsame
    exact Bool.noConfusion ((hoff.symm.trans hsameRun).trans hrun)
  | cold | power | mainOn | mainOff => rfl
  | release => exact Bool.noConfusion hoff
  | gc us hp => exact Bool.noConfusion (hp.symm.trans hoff)

/-- On an empty queue the PCC runs on: a gc stops nothing. -/
theorem pccRun_of_step_of_empty {s t : State} (hp : s.pending = []) (hrun : s.clk.pccRun = true)
    (hstep : step s = .next t) : t.clk.pccRun = true := by
  rw [step_of_empty hp] at hstep
  cases hstep
  exact (tick_pcc s hrun).1

/-- Settles O33: by every move of the clocks, and on an empty queue by what a gc leaves of the PCC. -/
theorem pccNeverRunsBackwards : Obligations.PccNeverRunsBackwards := by
  intro s t hstep hrun
  have hmove := (moves_step s t hstep).1
  refine ⟨hmove.pcc_of_runs_on hrun, fun hoff => ⟨hmove.pcc_of_stopped hrun hoff, fun hp => ?_⟩⟩
  rw [pccRun_of_step_of_empty hp hrun hstep] at hoff
  exact Bool.noConfusion hoff

/-! ## The state at reset -/

/-- Settles O30: the rails and the PCC are off, every memory is empty, and so is the queue. -/
theorem resetMeetsInvariants : Obligations.ResetMeetsInvariants := by
  refine ⟨⟨?rails, ?runs, ?held⟩, ⟨rfl, rfl, fun _ => rfl, rfl, rfl, rfl, rfl, fun _ => rfl⟩, rfl⟩
  case rails => exact fun h => Bool.noConfusion h
  case runs => exact fun h => Bool.noConfusion h
  case held => exact fun _ => ⟨rfl, rfl⟩

end Sys2Proof.Machine
end

section
/-! PROOFS. Guarded pairs that fail (O40) and the slots of other requesters (O41), and the sizes of register accesses
(O38). -/

namespace Sys2Proof.Machine

open Sys2Proof

/-! ## Guarded pairs that fail (R447-R449) -/

section
variable {s : State} {rq : Requester} {g : GReg}

theorem doGuardedWriteA_of_second {w : W32} (v : W32) (hon : rqOff s rq = false) (hmay : gMay rq g = true)
    (hpend : pendOf s rq g = some w) :
    doGuardedWriteA rq g v s = guardFail rq 4 (gRegA g) v (openPend rq g v (dropHeld rq s)) := by
  have hpend' : pendOf (dropHeld rq s) rq g = some w := hpend
  refine (onBar_on rq _ s hon).trans ?_
  rw [guardA, hmay, hpend', if_neg (by simp), if_pos (by simp)]

theorem guardB_of_no_pend (v : W32) (hmay : gMay rq g = true) (hpend : pendOf s rq g = none) :
    guardB rq g v s = guardFail rq 1 (gRegB g) v s := by
  rw [guardB, hmay, if_neg (by simp)]
  simp only [hpend]

theorem guardB_of_not_complement {v w : W32} (hmay : gMay rq g = true) (hpend : pendOf s rq g = some w)
    (hv : v ≠ ~~~w) : guardB rq g v s = guardFail rq 3 (gRegB g) v (closePend rq g s) := by
  rw [guardB, hmay, if_neg (by simp)]
  simp only [hpend]
  rw [if_pos hv]

theorem guardB_of_rejected {w : W32} (hmay : gMay rq g = true) (hpend : pendOf s rq g = some w)
    (hreject : gReject rq g w s = true) :
    guardB rq g (~~~w) s = guardFail rq 6 (gRegA g) w (closePend rq g s) := by
  have hreject' : gReject rq g w (closePend rq g s) = true := hreject
  rw [guardB, hmay, if_neg (by simp)]
  simp only [hpend]
  rw [if_neg (not_not.2 rfl), if_pos hreject']

theorem doGuardedWindowExpire_of_pend {w : W32} (hpend : pendOf s rq g = some w) :
    doGuardedWindowExpire rq g s = guardFail rq 2 (gRegA g) w (closePend rq g s) := by
  unfold doGuardedWindowExpire
  simp only [hpend]

end

/-- Settles O40: each way by the lemma of the write, or of the window, that fails. -/
theorem failedPairs : Obligations.FailedPairs := by
  refine ⟨?writer, ?second, ?noA, ?complement, ?rejected,
    fun s rq cause off v => guardFail_frame rq cause off v s, ?window⟩
  case writer =>
    intro s rq g v hon hmay
    obtain ⟨hA, hB⟩ := guard_notWriter (dropHeld rq s) rq g v hmay
    exact ⟨congrArg Host.Outcome.next ((onBar_on _ _ s hon).trans hA), (onBar_on _ _ s hon).trans hB⟩
  case second =>
    intro s rq g v w hon hmay hpend
    refine ⟨_, congrArg Host.Outcome.next (doGuardedWriteA_of_second v hon hmay hpend), rfl, ?_⟩
    rw [pendOf_guardFail, pendOf_openPend]
  case noA =>
    intro s rq g v hon hmay hpend
    exact (onBar_on _ _ s hon).trans (guardB_of_no_pend (s := dropHeld rq s) v hmay hpend)
  case complement =>
    intro s rq g v w hon hmay hpend hv
    exact (onBar_on _ _ s hon).trans (guardB_of_not_complement (s := dropHeld rq s) hmay hpend hv)
  case rejected =>
    intro s rq g w hon hmay hpend hreject
    exact (onBar_on _ _ s hon).trans (guardB_of_rejected (s := dropHeld rq s) hmay hpend hreject)
  case window =>
    intro s rq g w hpend
    exact ⟨_, _, congrArg Host.Outcome.next (doGuardedWindowExpire_of_pend hpend), rfl, pendOf_closePend .., rfl⟩

/-! ## The slots of other requesters (R448, R450) -/

/-- A requester whose BARs are off moves no slot, so that only what its access does counts. -/
theorem pendOf_onBar {s : State} {rq q : Requester} {r : GReg} {f : State → State}
    (haccess : pendOf (f (dropHeld rq s)) q r = pendOf s q r) : pendOf (onBar rq f s) q r = pendOf s q r := by
  unfold onBar
  split
  · rfl
  · exact haccess

section
variable {rq q : Requester} {g r : GReg} (hother : (q, r) ≠ (rq, g))
include hother

theorem pendOf_guardA_other (v : W32) (s : State) : pendOf (guardA rq g v s) q r = pendOf s q r := by
  unfold guardA
  split
  · exact pendOf_guardFail ..
  · split
    · rw [pendOf_guardFail, pendOf_openPend_ne _ _ _ _ _ _ hother]
    · exact pendOf_openPend_ne _ _ _ _ _ _ hother

theorem pendOf_guardB_of_fails {v : W32} {s : State}
    (hfails : ∀ w, pendOf s rq g = some w → v ≠ ~~~w ∨ gReject rq g w s = true) :
    pendOf (guardB rq g v s) q r = pendOf s q r := by
  have hclose : pendOf (closePend rq g s) q r = pendOf s q r := pendOf_closePend_ne _ _ _ _ _ hother
  cases hmay : gMay rq g with
  | false => rw [(guard_notWriter s rq g v hmay).2, pendOf_guardFail]
  | true =>
    cases hpend : pendOf s rq g with
    | none => rw [guardB_of_no_pend v hmay hpend, pendOf_guardFail]
    | some w =>
      by_cases hv : v = ~~~w
      · subst hv
        have hreject : gReject rq g w s = true := (hfails w hpend).resolve_left (not_not.2 rfl)
        rw [guardB_of_rejected hmay hpend hreject, pendOf_guardFail, hclose]
      · rw [guardB_of_not_complement hmay hpend hv, pendOf_guardFail, hclose]

theorem pendOf_doGuardedWindowExpire_other (s : State) : pendOf (doGuardedWindowExpire rq g s) q r = pendOf s q r := by
  unfold doGuardedWindowExpire
  split
  · rfl
  · rw [pendOf_guardFail, pendOf_closePend_ne _ _ _ _ _ hother]

end

/-- Settles O41: each access moves its own slot alone, by the lemma of the access. -/
theorem pairsAreIndependent : Obligations.PairsAreIndependent := by
  refine ⟨?first, ?second, ?window⟩
  case first =>
    rintro s t rq q g r v hother ⟨⟩
    exact pendOf_onBar (pendOf_guardA_other hother v (dropHeld rq s))
  case second =>
    intro s rq q g r v hother hfails
    exact pendOf_onBar (pendOf_guardB_of_fails (s := dropHeld rq s) hother hfails)
  case window =>
    rintro s t rq q g r hother ⟨⟩
    exact pendOf_doGuardedWindowExpire_other hother s

/-! ## Accesses that R453 refuses -/

section
variable {s : State} {rq : Requester} {off size : Nat} (hon : rqOff s rq = false)
include hon

theorem doRegisterReadLatch_of_size_bad (hsize : sizeOk off size = false) :
    doRegisterReadLatch rq off size s = emit (.regRead rq off (List.replicate size 0xFF)) (badAccess s) := by
  unfold doRegisterReadLatch
  rw [if_neg (by simp [hon]), if_pos (by simp [hsize])]

theorem doRegisterReadLatch_of_size_ok (hsize : sizeOk off size = true) : doRegisterReadLatch rq off size s =
    emit (.regRead rq off (readWords rq off (size / 4) s).1) (readWords rq off (size / 4) s).2 := by
  unfold doRegisterReadLatch
  rw [if_neg (by simp [hon]), if_neg (by simp [hsize])]

theorem doRegisterWrite_of_size_bad (val : W64) (hsize : sizeOk off size = false)
    (hplain : ∀ a, mapAddr s rq off = some a → gAddr (a / 4 * 4) = none) :
    doRegisterWrite rq off size val s = badAccess s := by
  have hmap : mapAddr (badAccess s) rq off = mapAddr s rq off := rfl
  unfold doRegisterWrite
  simp only [hon, hsize, Bool.false_eq_true, if_false, hmap]
  cases ha : mapAddr s rq off with
  | none => rfl
  | some a => simp only [hplain a ha]

end

/-- A function whose BARs are off takes no write, and answers a read with Unsupported Request unless it is in reset. -/
theorem doRegisterReadLatch_of_off {s : State} {fn : Nat} (off size : Nat) (hoff : barOff s fn = true) :
    doRegisterReadLatch (.host fn) off size s =
      if fnOff s fn = true then s else emit (.unsupported (.host fn) 0 off) s := if_pos hoff

theorem doRegisterWrite_of_off {s : State} {fn : Nat} (off size : Nat) (val : W64) (hoff : barOff s fn = true) :
    doRegisterWrite (.host fn) off size val s = s := if_pos hoff

/-! ## Aligned words of a register (R451, R452) -/

theorem readWords_one_of_some {s : State} {rq : Requester} {a b : Nat} (hmap : mapAddr s rq a = some b) :
    readWords rq a 1 s = readWord rq b s := by
  simp [readWords, hmap]

theorem readWords_one_of_none {s : State} {rq : Requester} {a : Nat} (hmap : mapAddr s rq a = none) :
    readWords rq a 1 s = (zeros 4, s) := by
  simp [readWords, hmap]

section
variable {s : State} {rq : Requester} {a : Nat} (val : W64) (hlow : (regAt s rq a).1 = a)
    (hwide : (regAt s rq a).2.length = 8)
include hlow hwide

theorem writeAt_whole : writeAt rq a 8 val s = putReg rq a val (dropHeld rq s) := by
  unfold writeAt
  rw [if_neg (by simp), if_pos (by simp [hlow, hwide])]

/-- R452: the low word of a 64-bit register is held for its writer, and replaces what that writer held before. -/
theorem writeWord_of_low (v : W32) : writeWord rq a v s =
    { s with reg := { s.reg with wshadow := s.reg.wshadow.filter (fun e => e.1 != rq) ++ [(rq, a, v)] } } := by
  have hheld : (s.reg.wshadow.filter (fun e => e.1 != rq || e.2.1 == a)).filter (fun e => e.1 != rq) =
      s.reg.wshadow.filter (fun e => e.1 != rq) := by
    rw [List.filter_filter]
    exact List.filter_congr fun e _ => by cases e.1 != rq <;> rfl
  unfold writeWord
  simp only [hwide, hlow, keepHeld, dropHeld, hheld]
  rfl

theorem writeAt_low_word (hplain : isAdb a = false) : writeAt rq a 4 val s =
    { s with reg := { s.reg with
        wshadow := s.reg.wshadow.filter (fun e => e.1 != rq) ++ [(rq, a, val.setWidth 32)] } } := by
  unfold writeAt
  rw [if_neg (by simp [hplain]), if_neg (by simp), if_neg (by decide), writeWord_of_low hlow hwide]

end

theorem writeAt_doorbell_word {s : State} {rq : Requester} {a : Nat} (val : W64) (hadb : isAdb a = true) :
    writeAt rq a 4 val s = dropHeld rq s := by
  unfold writeAt
  rw [if_pos (by simp [hadb])]

theorem sizeOk_four {a : Nat} (ha : a % 4 = 0) : sizeOk a 4 = true := (sizeOk_iff a 4).2 ⟨.inl rfl, ha⟩

/-! ## The bytes of a register (R453) -/

/-- Bit j of byte i of a little-endian number is its bit 8 x i + j. -/
theorem getLsbD_leBytes {n i j : Nat} (v : Nat) (hi : i < n) (hj : j < 8) :
    ((leBytes n v).getD i 0).getLsbD j = v.testBit (8 * i + j) := by
  rw [getD_leBytes n v i hi, BitVec.getLsbD_ofNat, show 256 ^ i = 2 ^ (8 * i) from (Nat.pow_mul 2 8 i).symm,
    show (256 : Nat) = 2 ^ 8 from rfl, Nat.testBit_mod_two_pow, Nat.testBit_div_two_pow]
  simp [hj, Nat.add_comm]

/-- Settles O38: the refused accesses by `badAccess`, the aligned ones by the word that they reach. -/
theorem accessSizes : Obligations.AccessSizes := by
  refine ⟨?readBad, ?writeBad, ?read, ?whole, ?doorbell, ?low, ?latch, ?unassigned, ?off, ?bytes⟩
  case readBad =>
    intro s rq off size hon hsize
    exact ⟨_, congrArg Host.Outcome.next (doRegisterReadLatch_of_size_bad hon (sizeOk_not hsize)), rfl, rfl, rfl⟩
  case writeBad =>
    intro s rq off size val hon hsize hplain
    exact ⟨_, congrArg Host.Outcome.next (doRegisterWrite_of_size_bad hon val (sizeOk_not hsize) hplain), rfl, rfl⟩
  case read =>
    intro s rq off size hon hsize haligned
    have hrow := doRegisterReadLatch_of_size_ok hon ((sizeOk_iff off size).2 ⟨hsize, haligned⟩)
    rw [readWords_frame] at hrow
    exact ⟨_, congrArg Host.Outcome.next hrow, rfl, rfl⟩
  case whole =>
    intro s rq a val hon haligned hmap hplain hlow hwide
    have hsize : sizeOk a 8 = true := (sizeOk_iff a 8).2 ⟨.inr rfl, haligned⟩
    exact congrArg Host.Outcome.next ((registerWrite_word rq a 8 val s hon (by omega) hsize hmap hplain).trans
      (writeAt_whole val hlow hwide))
  case doorbell =>
    intro s rq a val hon haligned hmap hplain hadb
    exact congrArg Host.Outcome.next ((registerWrite_word rq a 4 val s hon haligned (sizeOk_four haligned) hmap
      hplain).trans (writeAt_doorbell_word val hadb))
  case low =>
    intro s rq a val hon haligned hmap hplain hadb hlow hwide
    exact ⟨_, congrArg Host.Outcome.next ((registerWrite_word rq a 4 val s hon haligned (sizeOk_four haligned) hmap
      hplain).trans (writeAt_low_word val hlow hwide hadb)), rfl, rfl⟩
  case latch =>
    intro s rq a hon haligned hmap hlow hwide
    refine congrArg Host.Outcome.next ((doRegisterReadLatch_of_size_ok hon (sizeOk_four haligned)).trans ?_)
    rw [show 4 / 4 = 1 from rfl, readWords_one_of_some hmap, readWord_of_low hwide hlow]
  case unassigned =>
    intro s rq a hon haligned hmap
    refine congrArg Host.Outcome.next ((doRegisterReadLatch_of_size_ok hon (sizeOk_four haligned)).trans ?_)
    rw [show 4 / 4 = 1 from rfl, readWords_one_of_none hmap]
  case off =>
    intro s fn off size val hoff
    exact ⟨congrArg Host.Outcome.next (doRegisterWrite_of_off off size val hoff),
      congrArg Host.Outcome.next (doRegisterReadLatch_of_off off size hoff)⟩
  case bytes =>
    intro b v
    exact ⟨leBytes_length 8 v.toNat, fun i hi j hj => getLsbD_leBytes v.toNat hi hj⟩

end Sys2Proof.Machine
end

section
/-! PROOFS. The ageing margin and its use by the tilth monitor, and CALIBRATE (O47). -/

namespace Sys2Proof.Machine

open Sys2Proof

/-! ## The ageing margin (R401) -/

theorem mage_of_full_ceiling {s : State} (c : Nat) (h : 16 ≤ vceil s) : mage s c = 16 * (dieOf s c).vstep := by
  unfold mage
  dsimp only
  rw [if_neg (by omega), if_neg (by omega)]

theorem mage_of_low_ceiling {s : State} {c : Nat} (hpos : 0 < vceil s) (hlow : vceil s < 16)
    (hstep : (dieOf s c).vstep ≤ vceil s) :
    mage s c = 256 * (dieOf s c).vstep / vceil s ∧ 256 * (dieOf s c).vstep / vceil s ≤ 256 := by
  have hle : 256 * (dieOf s c).vstep / vceil s ≤ 256 := Nat.div_le_of_le_mul (by omega)
  refine ⟨?_, hle⟩
  unfold mage
  dsimp only
  rw [if_neg (by omega), if_pos hlow, Nat.min_eq_right hle]

theorem mage_of_no_ceiling {s : State} (c : Nat) (h : vceil s = 0) : mage s c = 256 := if_pos h

/-! ## The largest margin of any C-die (R364) -/

/-- The margin that the tilth monitor takes. -/
def largestAge (s : State) : Nat := (List.range 48).foldl (fun m c => max m (mage s c)) 0

theorem largestAge_spec (s : State) : (largestAge s = 0 ∨ ∃ c < 48, mage s c = largestAge s) ∧
    ∀ c < 48, mage s c ≤ largestAge s := by
  have hmax : (0 :: (List.range 48).map (mage s)).max? = some (largestAge s) := by
    rw [List.max?_cons', List.foldl_map]
    rfl
  obtain ⟨hmem, hle⟩ := List.max?_eq_some_iff.1 hmax
  simp only [List.mem_cons, List.mem_map, List.mem_range] at hmem
  exact ⟨hmem, fun c hc => hle _ (List.mem_cons_of_mem _ (List.mem_map_of_mem (List.mem_range.2 hc)))⟩

theorem largestAge_attained (s : State) : ∃ c < 48, mage s c = largestAge s := by
  obtain ⟨h0 | hsome, hle⟩ := largestAge_spec s
  · exact ⟨0, by decide, by have := hle 0 (by decide); omega⟩
  · exact hsome

/-! ## CALIBRATE (R418, R419) -/

/-- The calibration of a unit is under way. -/
def calibPending (kind unit cid : Nat) (s : State) : State :=
  { s with test := { s.test with calib := s.test.calib ++ [(kind, unit, cid)] } }

theorem fportOf_calibPending (kind unit cid p : Nat) (s : State) :
    fportOf (calibPending kind unit cid s) p = fportOf s p := rfl

theorem mem_calibPending (kind unit cid : Nat) (s : State) :
    (kind, unit, cid) ∈ (calibPending kind unit cid s).test.calib :=
  List.mem_append_right _ (List.mem_singleton_self _)

/-- A CALIBRATE with valid fields, of a unit that is not being calibrated. -/
structure CalibrateOk (s : State) (p : List Byte) : Prop where
  kind : u8 p 0 ≤ 3
  reserved : u8 p 1 = 0
  tail : allZero (p.drop 4) = true
  unit : u16 p 2 < if u8 p 0 = 2 then 64 else 48
  idle : s.test.calib.any (fun c => c.1 == u8 p 0 && c.2.1 == u16 p 2) = false

theorem doCalibrate_of_ok {s : State} {cid : Nat} (slack : Nat) {k : Cmd} (hready : ready s cid 0x61 = some k)
    (hok : CalibrateOk s k.param) : doCalibrate cid slack s =
    if u8 k.param 0 = 3 then finish cid stOK (leBytes 2 (min 1023 slack)) (startCmd cid s)
    else if u8 k.param 0 = 2 then
      if lastOfBundle s (u16 k.param 2) then finish0 cid stBUSY (startCmd cid s)
      else if (fportOf s (u16 k.param 2)).st = .up then
        calibPending (u8 k.param 0) (u16 k.param 2) cid (updFport (u16 k.param 2) (fun x => { x with retrainCid := some cid })
          (linksChanged (startRetrain (u16 k.param 2) (startCmd cid s))))
      else finish0 cid stDEGRADED (startCmd cid s)
    else if u8 k.param 0 = 1 && !(u16 k.param 2 ∈ s.hz.channels) then finish0 cid stDEGRADED (startCmd cid s)
    else calibPending (u8 k.param 0) (u16 k.param 2) cid
      (defer cid (leBytes 8 (firstWindow s (u8 k.param 0) (u16 k.param 2))) (startCmd cid s)) := by
  obtain ⟨hkind, hreserved, htail, hunit, hidle⟩ := hok
  unfold doCalibrate
  simp only [hready, startCmd_test, hidle]
  rw [if_neg (by simp [hreserved, htail, Nat.not_lt.2 hkind, Nat.not_le.2 hunit]), if_neg Bool.false_ne_true]
  rfl

/-- A command that is let through and gives a first answer only shows it. -/
theorem deferred_defer {s : State} {cid op : Nat} {k : Cmd} (hready : ready s cid op = some k) (res : List Byte) :
    (cmdOf (defer cid res (startCmd cid s)) cid).bind (·.deferred) = some (pad 16 res) := by
  obtain ⟨hk, -⟩ := ready_spec hready
  have hstarted : cmdOf (startCmd cid s) cid = some { k with started := true } := by
    rw [startCmd, cmdOf_updCmd _ _ _ (by intro _; rfl), hk]
    rfl
  rw [defer, cmdOf_updCmd _ _ _ (by intro _; rfl), hstarted]
  rfl

/-- A command that has not ended ends with the status and the result that it is given. -/
theorem doneWith_finish_of_open {s : State} {cid : Nat} {k : Cmd} (hk : cmdOf s cid = some k) (hopen : k.done = none)
    (st : W16) (res : List Byte) : doneWith (finish cid st res s) cid st res := by
  unfold doneWith finish
  rw [cmdOf_updCmd _ _ _ (by intro _; split <;> rfl), hk]
  simp [hopen]

/-- The calibration that command `cid` asked for is over. -/
def calibOver (cid : Nat) (s : State) : State :=
  { s with test := { s.test with calib := s.test.calib.filter (fun x => x.2.2 != cid) } }

theorem doCalibrationDone_of_window {s : State} {kind unit : Nat} {c : Nat × Nat × Nat} (hkind : kind ≤ 1)
    (hc : s.test.calib.find? (fun c => c.1 == kind && c.2.1 == unit) = some c)
    (hopen : firstWindowOpen s c.2.2 = true) :
    doCalibrationDone kind unit s = finish0 c.2.2 stOK (calibOver c.2.2 s) := by
  unfold doCalibrationDone
  rw [if_neg (Nat.not_lt.2 hkind)]
  simp only [hc, hopen, Bool.not_true, Bool.false_eq_true, if_false]
  rfl

/-- Settles O47: the margin by the ceiling, the monitor by the largest margin, CALIBRATE by the kind of its unit. -/
theorem ageingMargin : Obligations.AgeingMargin := by
  refine ⟨?full, ?low, fun s c => mage_of_no_ceiling c, ?period, ?die, ?memory, ?port, ?done⟩
  case full =>
    intro s c hceil
    have hage := mage_of_full_ceiling c hceil
    exact ⟨hage, fun hstep => by omega⟩
  case low =>
    intro s c hpos hlow hstep
    obtain ⟨hage, hle⟩ := mage_of_low_ceiling hpos hlow hstep
    exact ⟨hage, hage.trans_le hle⟩
  case period =>
    intro s slack hrun
    exact ⟨periodFolded s, largestAge s, congrArg Host.Outcome.next (doTilthPeriod_of_running slack hrun),
      (largestAge_spec s).2, largestAge_attained s, rfl⟩
  case die =>
    intro s cid slack k hready hkind hreserved htail hunit hidle
    have hrow := doCalibrate_of_ok slack hready ⟨by omega, hreserved, htail, by simpa [hkind] using hunit, hkind ▸ hidle⟩
    rw [if_pos hkind] at hrow
    exact ⟨_, congrArg Host.Outcome.next hrow, doneWith_finish hready rfl _ _, rfl⟩
  case memory =>
    intro s cid slack k hready hkind hreserved htail hunit hidle
    have hserves : (u8 k.param 0 = 1 && !(u16 k.param 2 ∈ s.hz.channels)) = false := by
      obtain h0 | ⟨_, hch⟩ := hkind
      · simp [h0]
      · simp [hch]
    have hrow := doCalibrate_of_ok slack hready ⟨by omega, hreserved, htail, by rw [if_neg (by omega)]; exact hunit, hidle⟩
    rw [if_neg (by omega), if_neg (by omega), hserves, if_neg Bool.false_ne_true] at hrow
    exact ⟨_, congrArg Host.Outcome.next hrow, rfl, deferred_defer hready _, rfl⟩
  case port =>
    intro s cid slack k hready hkind hreserved htail hunit hidle hup hlast
    have hrow := doCalibrate_of_ok slack hready ⟨by omega, hreserved, htail, by simpa [hkind] using hunit, hkind ▸ hidle⟩
    rw [if_neg (by omega), if_pos hkind, if_neg (by simp [hlast]), if_pos hup, hkind] at hrow
    refine ⟨_, congrArg Host.Outcome.next hrow, ?_, mem_calibPending ..⟩
    rw [fportOf_calibPending, fportOf_updFport]
  case done =>
    intro s kind unit c k hkind hc hk hopen hwindow
    have hdone := doneWith_finish_of_open (s := calibOver c.2.2 s) hk hopen stOK []
    refine ⟨_, congrArg Host.Outcome.next (doCalibrationDone_of_window hkind hc hwindow), ?_, ?_, rfl⟩
    · exact Option.ne_none_iff_exists'.2 ⟨_, hdone⟩
    · exact fun hmem => by simpa using (List.mem_filter.1 hmem).2

end Sys2Proof.Machine
end

section
/-! PROOFS. PMC_CONFIG, SAMPLE_CONFIG, PMC_SNAPSHOT and the rows of a snapshot (O13), each where its checks pass. -/

namespace Sys2Proof.Machine

open Sys2Proof

/-! ## What the start of a command leaves of the checks -/

theorem cmdCtx_startCmd (cid : Nat) (s : State) (k : Cmd) : cmdCtx (startCmd cid s) k = cmdCtx s k := rfl

theorem scopeBad_startCmd (cid : Nat) (s : State) (ctx : Nat) (a : W32) :
    scopeBad (startCmd cid s) ctx a = scopeBad s ctx a := by
  have hleased : pedLeased (startCmd cid s) = pedLeased s := rfl
  simp only [scopeBad, pedOf_startCmd, hleased]

theorem snapScope_startCmd (cid : Nat) (s : State) (ctx : Option Nat) (a : W32) :
    snapScope (startCmd cid s) ctx a = snapScope s ctx a := by
  have hped : ped2Of (startCmd cid s) = ped2Of s := rfl
  simp only [snapScope, hped, pedOf_startCmd, physPed_startCmd]

/-! ## PMC_CONFIG (R468-R470) -/

/-- The selectors of a PMC_CONFIG, put one after the other into what waits for the segment boundary. -/
def selectorsPut (first n : Nat) (v : Nat → W64) (m : NatMap W64) : NatMap W64 :=
  (List.range n).foldl (fun m i => nmSet (first + i) (v i) m) m

theorem nmGet_selectorsPut (first : Nat) (v : Nat → W64) (m : NatMap W64) {n i : Nat} (hi : i < n) :
    nmGet (selectorsPut first n v m) (first + i) = some (v i) := by
  induction n with
  | zero => omega
  | succ n ih =>
    rw [selectorsPut, List.range_succ, List.foldl_append, List.foldl_cons, List.foldl_nil]
    obtain hlt | rfl := Nat.lt_succ_iff_lt_or_eq.1 hi
    · rw [nmGet_nmSet_ne _ _ _ _ (by omega)]
      exact ih hlt
    · exact nmGet_nmSet ..

/-- A context whose counters take the settings of a PMC_CONFIG at its next segment boundary. -/
def pmcConfigured (p : List Byte) (c : Ctx) : Ctx :=
  { c with pmc := { c.pmc with
      scopeNext := some (BitVec.ofNat 32 (u32 p 4))
      selNext := selectorsPut (u8 p 0) (u8 p 1) (fun i => BitVec.ofNat 64 (u64 p (8 + 8 * i))) c.pmc.selNext } }

/-- A PMC_CONFIG of one to five selectors that exist, with valid values and a scope that the context may name. -/
structure PmcConfigOk (s : State) (ctx : Nat) (p : List Byte) : Prop where
  some_selector : 1 ≤ u8 p 1
  most : u8 p 1 ≤ 5
  exist : u8 p 0 + u8 p 1 ≤ 16
  reserved : u16 p 2 = 0
  tail : allZero (p.drop (8 + 8 * u8 p 1)) = true
  selectors : ∀ i < u8 p 1, selBad (u64 p (8 + 8 * i)) = false
  scope : scopeBad s ctx (BitVec.ofNat 32 (u32 p 4)) = none

theorem doPmcConfig_of_ok {s : State} {cid ctx : Nat} {k : Cmd} (hready : ready s cid 0x70 = some k)
    (hctx : cmdCtx s k = .ok ctx) (hok : PmcConfigOk s ctx k.param) :
    doPmcConfig cid s = finish0 cid stOK (updCtx ctx (pmcConfigured k.param) (startCmd cid s)) := by
  obtain ⟨hsome, hmost, hexist, hreserved, htail, hselectors, hscope⟩ := hok
  have hvalid : (List.range (u8 k.param 1)).any (fun i => selBad (u64 k.param (8 + 8 * i))) = false :=
    List.any_eq_false.2 fun i hi => by simp [hselectors i (List.mem_range.1 hi)]
  unfold doPmcConfig
  simp only [hready, cmdCtx_startCmd, hctx, scopeBad_startCmd, hscope, hvalid, htail, hreserved]
  rw [if_neg]
  · rfl
  · simp only [Bool.or_eq_true, decide_eq_true_eq, Bool.not_true, Bool.false_eq_true, ne_eq, not_true_eq_false,
      or_false]
    omega

/-! ## SAMPLE_CONFIG (R477) -/

/-- A context that samples as a SAMPLE_CONFIG says from its next segment boundary on. -/
def sampleConfigured (p : List Byte) (c : Ctx) : Ctx :=
  { c with pmc := { c.pmc with smpNext := some (BitVec.ofNat 32 (u32 p 0), u8 p 4, u8 p 5 = 1, u16 p 6) } }

/-- A SAMPLE_CONFIG with valid fields, of no object or of one that holds the ring. -/
structure SampleConfigOk (s : State) (ctx : Nat) (p : List Byte) : Prop where
  size : u8 p 4 ≤ 12
  flag : u8 p 5 ≤ 1
  reserved : allZero (p.drop 8) = true
  ring : BitVec.ofNat 32 (u32 p 0) = 0#32 ∨
    ∃ o, ownObj s ctx (BitVec.ofNat 32 (u32 p 0)) = some o ∧ 2048 * 2 ^ u8 p 4 ≤ o.size

theorem doSampleConfig_of_ok {s : State} {cid ctx : Nat} {k : Cmd} (hready : ready s cid 0x72 = some k)
    (hctx : cmdCtx s k = .ok ctx) (hok : SampleConfigOk s ctx k.param) :
    doSampleConfig cid s = finish0 cid stOK (updCtx ctx (sampleConfigured k.param) (startCmd cid s)) := by
  obtain ⟨hsize, hflag, hreserved, hring⟩ := hok
  have hown : ownObj (startCmd cid s) ctx = ownObj s ctx := rfl
  unfold doSampleConfig
  simp only [hready, cmdCtx_startCmd, hctx, hown]
  rw [if_neg (by simp [hreserved, Nat.not_lt.2 hsize, Nat.not_lt.2 hflag])]
  split
  case isTrue => rfl
  case isFalse hhandle =>
    obtain ⟨o, ho, hroom⟩ := hring.resolve_left hhandle
    simp only [ho]
    rw [if_neg (Nat.not_lt.2 hroom)]
    rfl

/-! ## PMC_SNAPSHOT (R474, R475) -/

/-- The stamp of a snapshot: the one asked for, or the next multiple of 16 gc at least 4,096 gc after the fetch. -/
def snapStamp (k : Cmd) : Nat :=
  if u64 k.param 0 = 0 then 16 * ceilDiv (k.fetchPcc.toNat + 4096) 16 else u64 k.param 0

/-- The one snapshot that is pending. -/
def snapAsked (ctx cid stamp : Nat) (s : State) : State :=
  { s with snap := { stamp := BitVec.ofNat 64 stamp, isPending := true, ctx := ctx, cid := some cid, latched := none } }

/-- A PMC_SNAPSHOT with valid fields into an object of the context that holds it, while no other is pending. -/
structure SnapshotOk (s : State) (cid ctx : Nat) (k : Cmd) (o : Obj) : Prop where
  aligned : u64 k.param 16 % 64 = 0
  content : u8 k.param 24 ≤ 15
  reserved : allZero (k.param.drop 25) = true
  stamp : u64 k.param 0 = 0 ∨ k.fetchPcc.toNat + 4096 ≤ u64 k.param 0 ∧ u64 k.param 0 ≤ k.fetchPcc.toNat + 2 ^ 32
  scope : scopeBad s ctx (BitVec.ofNat 32 (u32 k.param 12)) = none
  object : ownObj s ctx (BitVec.ofNat 32 (u32 k.param 8)) = some o
  resident : ∀ g ∈ o.gran, g.hzn ≠ 3
  free : s.snap.isPending = false
  first : snapBefore s cid = false
  room : u64 k.param 16 + snapSize (u8 k.param 24) false (snapScope s (some ctx) (BitVec.ofNat 32 (u32 k.param 12))) ≤ o.size

theorem doPmcSnapshot_of_ok {s : State} {cid ctx : Nat} {k : Cmd} {o : Obj} (hready : ready s cid 0x71 = some k)
    (hctx : cmdCtx s k = .ok ctx) (hok : SnapshotOk s cid ctx k o) :
    doPmcSnapshot cid s = snapAsked ctx cid (snapStamp k) (startCmd cid s) := by
  obtain ⟨haligned, hcontent, hreserved, hstamp, hscope, hobject, hresident, hfree, hfirst, hroom⟩ := hok
  have hobj : snapObj (startCmd cid s) k (some ctx) (BitVec.ofNat 32 (u32 k.param 8)) = some o := hobject
  have hgran : o.gran.any (fun g => g.hzn == 3) = false :=
    List.any_eq_false.2 fun g hg => by simpa using hresident g hg
  unfold doPmcSnapshot
  simp only [hready, cmdCtx_startCmd, hctx, scopeBad_startCmd, hscope, hobj, hgran, snapScope_startCmd,
    snapBefore_startCmd, hfirst, startCmd_snap, hfree, Option.isNone_some]
  rw [if_neg, if_neg Bool.false_ne_true, if_neg (by simp), if_neg (Nat.not_lt.2 hroom)]
  · rfl
  · simp only [haligned, hreserved, Bool.or_eq_true, Bool.and_eq_true, decide_eq_true_eq, Bool.not_true, Bool.false_eq_true,
      ne_eq, not_true_eq_false, false_or, or_false]
    omega

/-! ## The rows of a snapshot (R475, R476) -/

/-- The bytes of a snapshot that command `k` asked for. -/
def snapTaken (s : State) (k : Cmd) : List Byte :=
  snapBytes s (snapCtx s) (u8 k.param 24) s.snap.stamp (snapScope s (snapCtx s) (BitVec.ofNat 32 (u32 k.param 12)))

theorem doSnapshotStamp_of_due {s : State} {cid : Nat} {k : Cmd} {o : Obj} (hcid : s.snap.cid = some cid)
    (hk : cmdOf s cid = some k) (hpending : s.snap.isPending = true) (hnone : s.snap.latched = none)
    (hdue : s.snap.stamp.toNat ≤ s.clk.pcc.toNat) (ho : objOf s (BitVec.ofNat 32 (u32 k.param 8)) = some o)
    (hroom : u64 k.param 16 + (snapTaken s k).length ≤ o.size) :
    doSnapshotStamp s = { s with snap := { s.snap with latched := some (snapTaken s k) } } := by
  unfold doSnapshotStamp
  simp only [hcid, Option.bind_some, hk, hpending, hnone, ho]
  rw [if_neg (by simp [Nat.not_lt.2 hdue])]
  exact if_neg (Nat.not_lt.2 hroom)

theorem doSnapshotWriteDone_of_latched {s : State} {cid : Nat} {k : Cmd} {b : List Byte} (hcid : s.snap.cid = some cid)
    (hk : cmdOf s cid = some k) (hb : s.snap.latched = some b) : doSnapshotWriteDone s =
      snapEnd (finish k.cid stOK (leBytes 8 s.snap.stamp.toNat ++ leBytes 8 b.length)
        (objWriteAt (BitVec.ofNat 32 (u32 k.param 8)) (u64 k.param 16) b s)) := by
  unfold doSnapshotWriteDone
  simp only [hcid, Option.bind_some, hk, hb]

/-- Settles O13: each row by what it leaves where its checks pass. -/
theorem counterRowsAct : Obligations.CounterRowsAct := by
  refine ⟨?config, ?sample, ?snapshot, ?stamp, ?written⟩
  case config =>
    intro s cid ctx k c hready hctx hc hsome hmost hexist hreserved htail hselectors hscope
    have hrow := doPmcConfig_of_ok hready hctx ⟨hsome, hmost, hexist, hreserved, htail, hselectors, hscope⟩
    refine ⟨_, pmcConfigured k.param c, congrArg Host.Outcome.next hrow, doneWith_finish hready rfl _ _, ?_, rfl,
      fun i hi => nmGet_selectorsPut _ _ _ hi, rfl, rfl⟩
    rw [ctxOf_finish0, ctxOf_updCtx, ctxOf_startCmd, hc]
    rfl
  case sample =>
    rintro s cid ctx k c h hready hctx hc rfl hsize hflag hreserved hring
    have hrow := doSampleConfig_of_ok hready hctx ⟨hsize, hflag, hreserved, hring⟩
    refine ⟨_, congrArg Host.Outcome.next hrow, doneWith_finish hready rfl _ _, ?_, rfl⟩
    rw [ctxOf_finish0, ctxOf_updCtx, ctxOf_startCmd, hc]
    rfl
  case snapshot =>
    intro s cid ctx k o hready hctx haligned hcontent hreserved hstamp hscope ho hresident hfree hfirst hroom
    have hrow := doPmcSnapshot_of_ok hready hctx
      ⟨haligned, hcontent, hreserved, hstamp, hscope, ho, hresident, hfree, hfirst, hroom⟩
    exact ⟨_, congrArg Host.Outcome.next hrow, rfl, rfl, rfl, rfl, rfl, rfl⟩
  case stamp =>
    rintro s cid k o b hcid hk hpending hnone hdue ho rfl hroom
    exact ⟨_, congrArg Host.Outcome.next (doSnapshotStamp_of_due hcid hk hpending hnone hdue ho hroom), rfl⟩
  case written =>
    intro s cid k b hcid hk hb _ _
    exact ⟨_, congrArg Host.Outcome.next (doSnapshotWriteDone_of_latched hcid hk hb), rfl, rfl, rfl, rfl⟩

end Sys2Proof.Machine
end

section
/-! PROOFS. Staging firmware, its status and its abort (O15), and the rows of an activation (O52). -/

namespace Sys2Proof.Machine

open Sys2Proof

/-! ## What staging moves (R437, R438) -/

theorem slotWrite_frame (slot off : Nat) (b : List Byte) (s : State) :
    slotWrite slot off b s = { s with flash := (slotWrite slot off b s).flash } := by
  unfold slotWrite
  split <;> rfl

/-- The manifest of a new staging is programmed, and the directory names its slot. -/
def manifestHeld (slot : Nat) (data : List Byte) (s : State) : State :=
  settleStaging (writeDir (fun d => { d with
    stage := some slot, bitmap := 1, nchunk := mChunks data, mdigest := mDigest data }) (slotWrite slot 0 data s))

/-- What the slot directory names once a staging has begun; the slot that boots stays. -/
structure StagingBegun (slot : Nat) (data : List Byte) (was d : Dir) : Prop where
  stage : d.stage = some slot
  bitmap : d.bitmap = 1
  nchunk : d.nchunk = mChunks data
  mdigest : d.mdigest = mDigest data
  active : d.active = was.active

theorem manifestHeld_dir (slot : Nat) (data : List Byte) (s : State) :
    StagingBegun slot data s.fw.dir (manifestHeld slot data s).fw.dir := by
  obtain ⟨q, v, hfw⟩ := writeDir_dir (fun d => { d with
    stage := some slot, bitmap := 1, nchunk := mChunks data, mdigest := mDigest data }) (slotWrite slot 0 data s)
    fun _ => ⟨rfl, rfl⟩
  rw [slotWrite_frame] at hfw
  rw [manifestHeld, settleStaging, slotWrite_frame, hfw]
  exact ⟨rfl, rfl, rfl, rfl, rfl⟩

theorem manifestHeld_cmds (slot : Nat) (data : List Byte) (s : State) : (manifestHeld slot data s).cmds = s.cmds := by
  rw [manifestHeld, settleStaging, writeDir_frame, slotWrite_frame]

theorem stagedState_of_no_stage {d : Dir} (h : d.stage = none) : stagedState d = .idle := by
  rw [stagedState, h]
  rfl

/-- A discarded staging leaves no slot staged. -/
theorem dropStaging_idle (s : State) : (dropStaging s).fw.dir.stage = none ∧ (dropStaging s).fw.st = .idle := by
  obtain ⟨q, v, hdir⟩ := writeDir_dir (fun d => { d with stage := none, nchunk := 0, bitmap := 0, mdigest := 0 }) s
    fun _ => ⟨rfl, rfl⟩
  have hstage : (dropStaging s).fw.dir.stage = none := by
    rw [dropStaging, settleStaging]
    exact congrArg (fun f : Fw => f.dir.stage) hdir
  exact ⟨hstage, stagedState_of_no_stage hstage⟩

theorem dropStaging_frame (s : State) :
    dropStaging s = { s with fw := (dropStaging s).fw, flash := (dropStaging s).flash } := by
  rw [dropStaging, settleStaging, writeDir_frame]

/-! ## FW_CHUNK (R437, R438) -/

/-- The data of a chunk: those of host memory, or with the command itself on the management path. -/
def chunkData (s : State) (k : Cmd) : List Byte :=
  if k.fn = mgmtFn then k.data else memRead (hostMem s (k.fn / 64)) (u64 k.param 0) 65536

/-- A chunk with valid fields and data that agree with its digest, while no activation runs. -/
structure ChunkOk (s : State) (k : Cmd) : Prop where
  aligned : u64 k.param 0 % 4096 = 0
  reserved : allZero (slice k.param 10 6) = true
  no_address : k.fn = mgmtFn → u64 k.param 0 = 0
  no_activation : activating s = false
  digest : sm3Bytes (chunkData s k) = slice k.param 16 32

theorem doFwChunk_of_ok {s : State} {cid : Nat} {k : Cmd} (hready : ready s cid 0x80 = some k) (hok : ChunkOk s k) :
    doFwChunk cid s = if u16 k.param 8 = 0 then takeManifest cid (chunkData s k) (startCmd cid s)
      else takeChunk cid (u16 k.param 8) (slice k.param 16 32) (chunkData s k) (startCmd cid s) := by
  obtain ⟨haligned, hreserved, haddress, hidle, hdigest⟩ := hok
  have hidle' : activating (startCmd cid s) = false := hidle
  unfold doFwChunk
  simp only [hready, hidle']
  rw [if_neg (by simpa [haligned, hreserved] using haddress), if_neg Bool.false_ne_true]
  exact if_neg (not_not.2 hdigest)

theorem takeChunk_of_staged {s : State} {cid n slot : Nat} {digest : List Byte} (data : List Byte)
    (hstage : s.fw.dir.stage = some slot) (hn : n < s.fw.dir.nchunk)
    (hdigest : digest = mChunkDigest (manifest s slot) n) : takeChunk cid n digest data s =
      if s.fw.dir.bitmap.getLsbD n then chunkOk cid s else chunkOk cid (holdChunk slot n data s) := by
  unfold takeChunk
  simp only [hstage]
  rw [if_neg (by simp [← hdigest, Nat.not_le.2 hn])]

theorem takeManifest_of_no_stage {s : State} {cid : Nat} {data : List Byte} (hstage : s.fw.dir.stage = none) :
    takeManifest cid data s =
      if manifestOk data s.fw.dir.svnFloor then chunkOk cid (manifestHeld (stagingSlot s) data s)
      else finish0 cid stBAD_PARAM s := by
  unfold takeManifest
  simp only [hstage]
  cases manifestOk data s.fw.dir.svnFloor <;> rfl

/-! ## FW_STATUS and FW_ABORT (R439) -/

section
variable {s : State} {cid : Nat} {k : Cmd}

/-- The eight fields of FW_STATUS. -/
def fwFields (s : State) : List Byte :=
  leBytes 1 (fwCode s.fw.st) ++ leBytes 1 s.fw.dir.active ++ leBytes 1 (s.fw.dir.stage.getD 0xFF) ++
    leBytes 1 (s.fw.dir.pend.getD 0xFF) ++ leBytes 2 (dirReceived s.fw.dir) ++ leBytes 2 s.fw.dir.nchunk ++
    leBytes 4 (stagedSvn s) ++ leBytes 4 s.fw.svn

theorem doFwStatus_of_ready (hready : ready s cid 0x81 = some k) (hreserved : allZero k.param = true) :
    doFwStatus cid s = finish cid stOK (fwFields s) (startCmd cid s) := by
  simp only [doFwStatus, hready, hreserved, Bool.not_true, Bool.false_eq_true, if_false]
  rfl

/-- The activation turns back, as command `cid` asked. -/
def abortAsked (cid : Nat) (s : State) : State := { s with fw := { s.fw with st := .revert, abortCid := some cid } }

theorem doFwAbort_of_activation (hready : ready s cid 0x83 = some k) (hreserved : allZero k.param = true)
    (hst : s.fw.st = .verify ∨ s.fw.st = .load ∨ s.fw.st = .handover) :
    doFwAbort cid s = abortAsked cid (startCmd cid s) := by
  simp only [doFwAbort, hready, hreserved, Bool.not_true, Bool.false_eq_true, if_false, startCmd_fw]
  obtain h | h | h := hst <;> rw [h] <;> rfl

theorem doFwAbort_of_staging (hready : ready s cid 0x83 = some k) (hreserved : allZero k.param = true)
    (hst : s.fw.st = .idle ∨ s.fw.st = .staging ∨ s.fw.st = .staged) :
    doFwAbort cid s = finish0 cid stOK (dropStaging (startCmd cid s)) := by
  simp only [doFwAbort, hready, hreserved, Bool.not_true, Bool.false_eq_true, if_false, startCmd_fw]
  obtain h | h | h := hst <;> rw [h]

end

/-! ## The other pair, and the helper data (R433, R443) -/

theorem doFwStandbyReady_of_idle {s : State} (hslot : s.fw.slotRun ≠ 2) (hidle : activating s = false)
    (hst : s.fw.st ≠ .revert) : doFwStandbyReady s = { s with fw := { s.fw with standby := true } } := by
  unfold doFwStandbyReady
  rw [if_neg (by simp [hslot, hidle, hst])]

theorem doHelperEraseDone_of_pending {s : State} (h : s.sec.erasePending = true) : doHelperEraseDone s =
    { s with sec := { s.sec with erasePending := false }
             flash := { s.flash with helper0 := false, helper1 := false } } := by
  unfold doHelperEraseDone
  rw [if_neg (by simp [h])]

/-- Settles O15: each row by what it leaves where its conditions hold. -/
theorem firmwareRowsAct : Obligations.FirmwareRowsAct := by
  refine ⟨?chunk, ?manifest, ?status, ?revert, ?drop, ?standby, ?erase⟩
  case chunk =>
    rintro s cid n slot k data hready rfl hn haligned hreserved hidle rfl haddress hdigest hstage hcount hchunk
    have hrow := (doFwChunk_of_ok hready ⟨haligned, hreserved, haddress, hidle, hdigest⟩).trans (if_neg hn)
    exact ⟨_, congrArg Host.Outcome.next (hrow.trans (takeChunk_of_staged (s := startCmd cid s) _ hstage hcount hchunk)),
      rfl⟩
  case manifest =>
    intro s cid k data hready hn haligned hreserved hidle hdata haddress hdigest hstage
    obtain rfl : data = chunkData s k := hdata
    have hrow := ((doFwChunk_of_ok hready ⟨haligned, hreserved, haddress, hidle, hdigest⟩).trans (if_pos hn)).trans
      (takeManifest_of_no_stage (s := startCmd cid s) hstage)
    by_cases hvalid : manifestOk (chunkData s k) s.fw.dir.svnFloor = true
    · obtain ⟨hslot, hbits, hcount, hmdigest, hactive⟩ := manifestHeld_dir (stagingSlot s) (chunkData s k) (startCmd cid s)
      refine ⟨_, congrArg Host.Outcome.next (hrow.trans (if_pos hvalid)), ?_⟩
      rw [if_pos hvalid]
      exact ⟨hslot, hbits, hcount, hmdigest, hactive, doneWith_finish hready (manifestHeld_cmds ..) _ _⟩
    · refine ⟨_, congrArg Host.Outcome.next (hrow.trans (if_neg hvalid)), ?_⟩
      rw [if_neg hvalid]
      exact ⟨doneWith_finish hready rfl _ _, rfl⟩
  case status =>
    intro s cid k hready hreserved
    exact ⟨_, congrArg Host.Outcome.next (doFwStatus_of_ready hready hreserved), doneWith_finish hready rfl _ _, rfl⟩
  case revert =>
    intro s cid k hready hreserved hst
    exact ⟨_, congrArg Host.Outcome.next (doFwAbort_of_activation hready hreserved hst), rfl, rfl⟩
  case drop =>
    intro s cid k hready hreserved hst
    obtain ⟨hstage, hidle⟩ := dropStaging_idle (startCmd cid s)
    have hframe := dropStaging_frame (startCmd cid s)
    refine ⟨_, congrArg Host.Outcome.next (doFwAbort_of_staging hready hreserved hst),
      doneWith_finish hready ((congrArg State.cmds hframe).trans rfl) _ _, hstage, hidle, ?_⟩
    rw [hframe]
    rfl
  case standby =>
    intro s hslot hidle hst
    exact ⟨_, congrArg Host.Outcome.next (doFwStandbyReady_of_idle hslot hidle hst), rfl⟩
  case erase =>
    intro s hpending
    exact ⟨_, congrArg Host.Outcome.next (doHelperEraseDone_of_pending hpending), rfl⟩

end Sys2Proof.Machine
end

section
/-! PROOFS. FW_ACTIVATE and the rows of an activation (O52), each in its state of the activation. -/

namespace Sys2Proof.Machine

open Sys2Proof

/-! ## FW_ACTIVATE (R440) -/

section
variable {s : State} {cid : Nat} {k : Cmd}

/-- R440: what FW_ACTIVATE answers with BAD_PARAM: a field out of range, a staging that lacks chunks, and a LIVE
activation that the new image or recovery mode forbids. -/
def activateBad (s : State) (p : List Byte) : Bool :=
  decide (1 < u8 p 0) || !(allZero (p.drop 1)) || !(dirComplete s.fw.dir) ||
    (decide (u8 p 0 = 0) && (decide (s.fw.svn < mCompat (manifest s (s.fw.dir.stage.getD 0))) || s.boot.recovery))

theorem activateBad_iff (s : State) (p : List Byte) : activateBad s p = true ↔
    1 < u8 p 0 ∨ allZero (p.drop 1) = false ∨ dirComplete s.fw.dir = false ∨
      (u8 p 0 = 0 ∧ (s.fw.svn < mCompat (manifest s (s.fw.dir.stage.getD 0)) ∨ s.boot.recovery = true)) := by
  simp only [activateBad, Bool.or_eq_true, Bool.and_eq_true, decide_eq_true_eq, Bool.not_eq_true', or_assoc]

theorem activateBad_eq_false {s : State} {p : List Byte} (hmode : u8 p 0 ≤ 1) (hreserved : allZero (p.drop 1) = true)
    (hcomplete : dirComplete s.fw.dir = true)
    (hlive : u8 p 0 = 0 → mCompat (manifest s (s.fw.dir.stage.getD 0)) ≤ s.fw.svn ∧ s.boot.recovery = false) :
    activateBad s p = false := by
  rw [← Bool.not_eq_true, activateBad_iff, hreserved, hcomplete]
  rintro (hbad | hbad | hbad | ⟨h0, hbad⟩)
  · omega
  · exact Bool.noConfusion hbad
  · exact Bool.noConfusion hbad
  · obtain ⟨hcompat, hrecovery⟩ := hlive h0
    obtain hold | hrec := hbad
    · omega
    · exact Bool.noConfusion (hrecovery.symm.trans hrec)

/-- The verification of the staged image has started. -/
def verifyStarted (cid : Nat) (p : List Byte) (s : State) : State :=
  { s with fw := { s.fw with st := .verify, actCid := some cid, actLive := decide (u8 p 0 = 0) } }

theorem doFwActivate_of_ready (hready : ready s cid 0x82 = some k) : doFwActivate cid s =
    if activateBad s k.param then finish0 cid stBAD_PARAM (startCmd cid s)
    else if activating s || s.fw.st = .revert || s.fw.st = .pendingCold then finish0 cid stBUSY (startCmd cid s)
    else verifyStarted cid k.param (startCmd cid s) := by
  unfold doFwActivate
  simp only [hready]
  rfl

end

/-! ## The rows of an activation (R440-R443, R445) -/

section
variable {s : State} {slot : Nat}

theorem doFwVerifyDone_of_live (hst : s.fw.st = .verify) (hstage : s.fw.dir.stage = some slot)
    (hgood : verifyBad s slot = []) (hlive : s.fw.actLive = true) : doFwVerifyDone s =
      { s with fw := { s.fw with st := .load, loadUs := some s.clk.wallUs, standby := false } } := by
  unfold doFwVerifyDone
  rw [hst, hstage]
  simp only [hgood, hlive, if_true]

/-- The staged slot is to boot at the next cold start, on trial. -/
def coldPending (slot : Nat) (s : State) : State :=
  { writeDir (fun d => { d with pend := some slot, tries := 1 }) s with
    fw := { (writeDir (fun d => { d with pend := some slot, tries := 1 }) s).fw with st := .pendingCold } }

theorem doFwVerifyDone_of_cold (hst : s.fw.st = .verify) (hstage : s.fw.dir.stage = some slot)
    (hgood : verifyBad s slot = []) (hcold : s.fw.actLive = false) (hrecovery : s.boot.recovery = false) :
    doFwVerifyDone s = endActivate stOK [] (coldPending slot s) := by
  unfold doFwVerifyDone
  rw [hst, hstage]
  simp only [hgood, hcold, hrecovery, Bool.false_eq_true, if_false]
  rfl

/-- The firmware's state once the staged slot is to boot: that of before but for the directory's own sequence number. -/
theorem coldPending_fw (slot : Nat) (s : State) : ∃ q v, (coldPending slot s).fw = { s.fw with
    st := .pendingCold, dir := { s.fw.dir with pend := some slot, tries := 1, seq := q, valid := v } } := by
  obtain ⟨q, v, hfw⟩ := writeDir_dir (fun d => { d with pend := some slot, tries := 1 }) s fun _ => ⟨rfl, rfl⟩
  refine ⟨q, v, ?_⟩
  rw [coldPending, hfw]

theorem doFwLoadDone_of_load (hst : s.fw.st = .load) :
    doFwLoadDone s = { s with fw := { s.fw with st := .handover } } := if_pos hst

theorem doFwHandoverDone_of_handover (hst : s.fw.st = .handover) : doFwHandoverDone s = { s with fw := { s.fw with
    st := .switch, stamp := some (s.clk.pcc + 1600000), switched := [], unitsSwitched := false } } := if_pos hst

theorem doFwSwitchStamp_of_due {x : W64} (hstamp : s.fw.stamp = some x) (hst : s.fw.st = .switch)
    (hunits : s.fw.unitsSwitched = false) (hdue : x.toNat ≤ s.clk.pcc.toNat) : doFwSwitchStamp s = { s with fw := { s.fw with
      unitsSwitched := true, switched := (idlePed2s s).foldl (fun l p => addOnce p l) s.fw.switched } } := by
  unfold doFwSwitchStamp
  split
  case h_1 hnone => exact absurd (hnone.symm.trans hstamp) (by simp)
  case h_2 y hsome =>
    obtain rfl : y = x := Option.some.inj (hsome.symm.trans hstamp)
    rw [if_neg (by simp [hst, hunits, Nat.not_lt.2 hdue])]

/-- The slot directory and the firmware's state of a commit, before it is measured. -/
def committed (slot : Nat) (s : State) : State :=
  let u := writeDir (fun d => { d with
    active := slot, svnFloor := max d.svnFloor (mFloor (manifest s slot)), stage := none, nchunk := 0, bitmap := 0
    mdigest := 0 }) s
  { u with fw := { u.fw with
      st := .idle, slotRun := slot, svn := mSvn (manifest s slot), stamp := none, switched := [], unitsSwitched := false
      loadUs := none } }

theorem committed_fw (slot : Nat) (s : State) : ∃ q v, (committed slot s).fw = { s.fw with
    st := .idle, slotRun := slot, svn := mSvn (manifest s slot), stamp := none, switched := [], unitsSwitched := false
    loadUs := none
    dir := { s.fw.dir with
      active := slot, svnFloor := max s.fw.dir.svnFloor (mFloor (manifest s slot)), stage := none, nchunk := 0, bitmap := 0
      mdigest := 0, seq := q, valid := v } } := by
  obtain ⟨q, v, hfw⟩ := writeDir_dir (fun d => { d with
    active := slot, svnFloor := max d.svnFloor (mFloor (manifest s slot)), stage := none, nchunk := 0, bitmap := 0
    mdigest := 0 }) s fun _ => ⟨rfl, rfl⟩
  refine ⟨q, v, ?_⟩
  rw [committed, hfw]

/-- Indices 2-7 and 10 of a committed image are measured. -/
def commitMeasured (slot : Nat) (s : State) : State := measureState 1 (measureImage slot 1 (committed slot s))

theorem commitMeasured_fw (slot : Nat) (s : State) : (commitMeasured slot s).fw = (committed slot s).fw := by
  rw [commitMeasured, measureState_frame, measureImage_frame]

theorem doFwCommit_of_switched (hstage : s.fw.dir.stage = some slot) (hst : s.fw.st = .switch)
    (hall : allSwitched s = true) : doFwCommit s =
      endActivate stOK (leBytes 8 (commitMeasured slot s).clk.pcc.toNat ++ leBytes 4 (mSvn (manifest s slot)))
        (commitMeasured slot s) := by
  unfold doFwCommit
  split
  case h_1 hnone => exact absurd (hnone.symm.trans hstage) (by simp)
  case h_2 n hsome =>
    obtain rfl : n = slot := Option.some.inj (hsome.symm.trans hstage)
    rw [if_neg (by simp [hst, hall])]
    rfl

theorem doFwActivateDeadline_of_late {u : Rat} (hload : s.fw.loadUs = some u)
    (hst : s.fw.st = .load ∨ s.fw.st = .handover ∨ s.fw.st = .switch) (hlate : u + 500000 ≤ s.clk.wallUs) :
    doFwActivateDeadline s = { s with fw := { s.fw with st := .revert } } := by
  unfold doFwActivateDeadline
  split
  case h_1 hnone => exact absurd (hnone.symm.trans hload) (by simp)
  case h_2 x hsome =>
    obtain rfl : x = u := Option.some.inj (hsome.symm.trans hload)
    exact if_pos (by simpa [or_assoc] using ⟨hst, hlate⟩)

/-- An activation that has turned back: the staging state is the directory's again. -/
def revertedFw (f : Fw) : Fw :=
  { f with st := stagedState f.dir, stamp := none, switched := [], unitsSwitched := false, loadUs := none }

theorem endActivate_abortCid (st : W16) (res : List Byte) (s : State) :
    (endActivate st res s).fw.abortCid = s.fw.abortCid := by
  unfold endActivate
  split <;> rfl

theorem doFwRevertDone_of_none_switched (hst : s.fw.st = .revert) (hnone : s.fw.switched = [])
    (habort : s.fw.abortCid = none) :
    doFwRevertDone s = endActivate stABORTED_TXN [] { s with fw := revertedFw s.fw } := by
  unfold doFwRevertDone
  rw [if_neg (by simp [hst, hnone])]
  extract_lets _ settled ended _
  have habort' : ended.fw.abortCid = none := (endActivate_abortCid ..).trans habort
  rw [habort']
  rfl

end

/-- Settles O52: the command by its checks, each row by the lemma of its state. -/
theorem fwActivateAnswers : Obligations.FwActivateAnswers := by
  refine ⟨?refused, ?busy, ?starts, ?live, ?cold, ?load, ?handover, ?switch, ?commit, ?deadline, ?reverted⟩
  case refused =>
    intro s cid k hready hbad
    have hrow := (doFwActivate_of_ready hready).trans (if_pos ((activateBad_iff s k.param).2 hbad))
    exact ⟨_, congrArg Host.Outcome.next hrow, doneWith_finish hready rfl _ _, rfl⟩
  case busy =>
    intro s cid k hready hmode hreserved hcomplete hlive hbusy
    have hrow := doFwActivate_of_ready hready
    rw [activateBad_eq_false hmode hreserved hcomplete hlive, if_neg Bool.false_ne_true, if_pos (by simp [hbusy])] at hrow
    exact ⟨_, congrArg Host.Outcome.next hrow, doneWith_finish hready rfl _ _, rfl⟩
  case starts =>
    intro s cid k hready hmode hreserved hcomplete hlive hidle hrevert hpending
    have hrow := doFwActivate_of_ready hready
    rw [activateBad_eq_false hmode hreserved hcomplete hlive, if_neg Bool.false_ne_true,
      if_neg (by simp [hidle, hrevert, hpending])] at hrow
    exact ⟨_, congrArg Host.Outcome.next hrow, rfl⟩
  case live =>
    intro s slot hst hstage hgood hlive
    exact ⟨_, congrArg Host.Outcome.next (doFwVerifyDone_of_live hst hstage hgood hlive), rfl⟩
  case cold =>
    intro s slot cid hst hstage hgood hcold hrecovery hcid
    obtain ⟨q, v, hfw⟩ := coldPending_fw slot s
    have hcid' : (coldPending slot s).fw.actCid = some cid := (congrArg Fw.actCid hfw).trans hcid
    have hrow := doFwVerifyDone_of_cold hst hstage hgood hcold hrecovery
    rw [endAct_some _ _ _ _ hcid', hfw] at hrow
    exact ⟨_, congrArg Host.Outcome.next hrow, rfl, rfl, rfl, rfl⟩
  case load =>
    intro s hst
    exact ⟨_, congrArg Host.Outcome.next (doFwLoadDone_of_load hst), rfl⟩
  case handover =>
    intro s hst
    exact ⟨_, congrArg Host.Outcome.next (doFwHandoverDone_of_handover hst), rfl⟩
  case switch =>
    intro s x hstamp hst hunits hdue
    have hrow := doFwSwitchStamp_of_due hstamp hst hunits hdue
    have hidle := mem_foldl_addOnce (idlePed2s s) s.fw.switched
    generalize (idlePed2s s).foldl (fun l p => addOnce p l) s.fw.switched = l at hrow hidle
    exact ⟨_, congrArg Host.Outcome.next hrow, rfl, fun p hp => hidle p (.inl hp), rfl⟩
  case commit =>
    intro s slot cid hstage hst hall hcid
    obtain ⟨q, v, hfw⟩ := committed_fw slot s
    have hfw' := (commitMeasured_fw slot s).trans hfw
    have hcid' : (commitMeasured slot s).fw.actCid = some cid := (congrArg Fw.actCid hfw').trans hcid
    have hrow := doFwCommit_of_switched hstage hst hall
    rw [endAct_some _ _ _ _ hcid', hfw'] at hrow
    exact ⟨_, congrArg Host.Outcome.next hrow, rfl, rfl, rfl, rfl, rfl, rfl, rfl⟩
  case deadline =>
    intro s u hload hst hlate
    exact ⟨_, congrArg Host.Outcome.next (doFwActivateDeadline_of_late hload hst hlate), rfl⟩
  case reverted =>
    intro s cid hst hnone hcid habort
    have hrow := doFwRevertDone_of_none_switched hst hnone habort
    rw [endAct_some _ _ { s with fw := revertedFw s.fw } cid hcid] at hrow
    exact ⟨_, congrArg Host.Outcome.next hrow, rfl, rfl⟩

end Sys2Proof.Machine
end

section
/-! PROOFS. Debug unlock and the eight requests of the SPDM responder (O16). -/

namespace Sys2Proof.Machine

open Sys2Proof

/-! ## Debug unlock (R435) -/

/-- What the vendor signs to unlock debug. -/
def unlockMessage (tok : Token) : List Byte := leBytes 8 tok.serial.toNat ++ leBytes 16 tok.nonce.toNat

/-- Debug is unlocked: every key is gone, and the state is measured. -/
def debugUnlocked (s : State) : State :=
  measureState 4 { eraseVolatile s with sec := { (eraseVolatile s).sec with dbg := true } }

theorem doDebugUnlock_of_this_package {s : State} {tok : Token} (hshown : s.boot.serialShown = true)
    (hserial : tok.serial = s.boot.fact.serial) (hnonce : tok.nonce = s.sec.nonce) : doDebugUnlock tok s =
      if Config.sm2Verify Config.vendorKey (unlockMessage tok) tok.signature then debugUnlocked s else s := by
  have hbad : (!s.boot.serialShown || tok.serial ≠ s.boot.fact.serial || tok.nonce ≠ s.sec.nonce ||
      !(Config.sm2Verify Config.vendorKey (unlockMessage tok) tok.signature)) =
      !(Config.sm2Verify Config.vendorKey (unlockMessage tok) tok.signature) := by
    simp [hshown, hserial, hnonce]
  unfold doDebugUnlock
  dsimp only
  rw [← unlockMessage, hbad]
  cases Config.sm2Verify Config.vendorKey (unlockMessage tok) tok.signature <;> rfl

/-! ## Responses (R430, R431) -/

section
variable (tr : Transport) (code : Byte) (data : List Byte) (x : Spdm) (s : State)

theorem spdmOf_spdmAnswer : spdmOf (spdmAnswer tr code data x s) tr = { x with transcript := x.transcript + 1 } := by
  rw [spdmAnswer, spdmOf_emit, spdmOf_set]

theorem spdmAnswer_out : (spdmAnswer tr code data x s).out = s.out ++ [.spdm tr code data] := rfl

/-- A response moves the state of its transport and what the package answers. -/
theorem spdmAnswer_frame : spdmAnswer tr code data x s = { s with
    sec := { s.sec with spdm := (spdmAnswer tr code data x s).sec.spdm }
    out := (spdmAnswer tr code data x s).out } := rfl

end

/-- A signed response, with the identity key `d` held. -/
theorem spdmSigned_of_identity {s : State} {d : BitVec 256} (tr : Transport) (code : Byte) (nonce : BitVec 256)
    {data body : List Byte} (hseed : s.sec.seed = some d) (hid : s.sec.idok = true)
    (hbody : body = data ++ leBytes 32 (freeBits 256 s).1.toNat) : spdmSigned tr code nonce data s =
      spdmAnswer tr code (body ++ pad 64 (Config.sm2Sign d (leBytes 8 (spdmOf s tr).transcript ++
        leBytes 32 nonce.toNat ++ body))) (spdmOf s tr) (freeBits 256 s).2 := by
  subst hbody
  unfold spdmSigned
  simp only [hseed, hid, Bool.not_true, Bool.false_eq_true, if_false]

/-! ## The requests -/

section
variable {s : State} {tr : Transport} (hserves : spdmServes s tr = true) (hhandover : s.fw.st ≠ .handover)
    (hswitch : s.fw.st ≠ .switch)
include hserves hhandover hswitch

theorem doGetVersion_of_served :
    doGetVersion tr s = spdmAnswer tr 0x04 [0x12] { spdmNew with versioned := true } s :=
  serve_next _ _ _ hserves hhandover hswitch

theorem doGetCapabilities_of_versioned (hversioned : (spdmOf s tr).versioned = true) : doGetCapabilities tr s =
    spdmAnswer tr 0x61 ([17] ++ leBytes 4 0x36) { spdmOf s tr with caps := true } s :=
  (serve_next _ _ _ hserves hhandover hswitch).trans (if_pos hversioned)

theorem doNegotiateAlgorithms_of_caps (hcaps : (spdmOf s tr).caps = true) : doNegotiateAlgorithms tr true true s =
    spdmAnswer tr 0x63 [1, 1] { spdmOf s tr with negotiated := true } s := by
  refine (serve_next _ _ _ hserves hhandover hswitch).trans ?_
  dsimp only
  rw [if_neg (by simp [hcaps])]
  rfl

theorem doSpdmUnsupportedRequest_of_served (code : Byte) : doSpdmUnsupportedRequest tr code s = spdmError tr 0x07 s :=
  serve_next _ _ _ hserves hhandover hswitch

variable (hnegotiated : (spdmOf s tr).negotiated = true)
include hnegotiated

theorem doGetDigests_of_negotiated : doGetDigests tr s =
    spdmAnswer tr 0x01 ([1] ++ sm3Bytes s.flash.certChain) (spdmOf s tr) s :=
  serveReady_next _ _ _ hserves hhandover hswitch hnegotiated

theorem doGetCertificate_of_slot_zero {off len : Nat} {b : List Byte} (hoff : off ≤ s.flash.certChain.length)
    (hb : b = slice s.flash.certChain off (min len (portionMax tr))) : doGetCertificate tr 0 off len s =
      spdmAnswer tr 0x02 (leBytes 2 b.length ++ leBytes 2 (s.flash.certChain.length - off - b.length) ++ b)
        (spdmOf s tr) s := by
  subst hb
  refine (serveReady_next _ _ _ hserves hhandover hswitch hnegotiated).trans ?_
  exact (if_neg (not_not.2 rfl)).trans (if_neg (Nat.not_lt.2 hoff))

theorem doChallenge_of_slot_zero (nonce : BitVec 256) : doChallenge tr 0 nonce s =
    spdmSigned tr 0x03 nonce (sm3Bytes s.flash.certChain ++
      ((List.range 11).drop 1).flatMap (fun i => leBytes 32 (nmGetD s.sec.meas i 0).toNat)) s :=
  (serveReady_next _ _ _ hserves hhandover hswitch hnegotiated).trans (if_neg (not_not.2 rfl))

theorem doGetMeasurements_of_index {index : Nat} (nonce : BitVec 256) (hlow : 1 ≤ index) (hhigh : index ≤ 10) :
    doGetMeasurements tr index false nonce s = spdmAnswer tr 0x60 (leBytes 1 1 ++ measBlock s index) (spdmOf s tr) s := by
  refine (serveReady_next _ _ _ hserves hhandover hswitch hnegotiated).trans ?_
  have hone : index ≠ 0xFF := by omega
  dsimp only
  rw [if_neg hone, if_neg (by simp; omega), if_neg Bool.false_ne_true, List.flatMap_singleton]
  rfl

end

/-- Settles O16: the token by its signature, each request by what its row answers. -/
theorem securityRowsAct : Obligations.SecurityRowsAct := by
  refine ⟨?unlock, ?version, ?capabilities, ?algorithms, ?digests, ?certificate, ?challenge, ?measurements, ?other⟩
  case unlock =>
    intro s tok hshown hserial hnonce
    refine ⟨_, congrArg Host.Outcome.next (doDebugUnlock_of_this_package hshown hserial hnonce), ?_⟩
    unfold unlockMessage
    split
    · exact ⟨rfl, rfl, rfl, rfl⟩
    · rfl
  case version =>
    intro s tr hserves hhandover hswitch
    exact ⟨_, congrArg Host.Outcome.next (doGetVersion_of_served hserves hhandover hswitch), spdmOf_spdmAnswer .., rfl, rfl⟩
  case capabilities =>
    intro s tr hserves hhandover hswitch hversioned
    exact ⟨_, congrArg Host.Outcome.next (doGetCapabilities_of_versioned hserves hhandover hswitch hversioned),
      spdmOf_spdmAnswer .., rfl, rfl⟩
  case algorithms =>
    intro s tr hserves hhandover hswitch hcaps
    exact ⟨_, congrArg Host.Outcome.next (doNegotiateAlgorithms_of_caps hserves hhandover hswitch hcaps),
      congrArg Spdm.negotiated (spdmOf_spdmAnswer ..), rfl, rfl⟩
  case digests =>
    intro s tr hserves hhandover hswitch hnegotiated
    exact ⟨_, congrArg Host.Outcome.next (doGetDigests_of_negotiated hserves hhandover hswitch hnegotiated), rfl, rfl⟩
  case certificate =>
    intro s tr off len b hserves hhandover hswitch hnegotiated hoff hb
    exact ⟨_, congrArg Host.Outcome.next
      (doGetCertificate_of_slot_zero hserves hhandover hswitch hnegotiated hoff hb), rfl, rfl⟩
  case challenge =>
    intro s tr nonce d hserves hhandover hswitch hnegotiated hseed hid
    exact ⟨_, _, congrArg Host.Outcome.next ((doChallenge_of_slot_zero hserves hhandover hswitch hnegotiated nonce).trans
      (spdmSigned_of_identity tr 0x03 nonce hseed hid rfl)), rfl, rfl, rfl⟩
  case measurements =>
    intro s tr index nonce hserves hhandover hswitch hnegotiated hlow hhigh
    exact ⟨_, congrArg Host.Outcome.next
      (doGetMeasurements_of_index hserves hhandover hswitch hnegotiated nonce hlow hhigh), rfl, rfl⟩
  case other =>
    intro s tr code hserves hhandover hswitch
    exact ⟨_, congrArg Host.Outcome.next (doSpdmUnsupportedRequest_of_served hserves hhandover hswitch code), rfl⟩

end Sys2Proof.Machine
end
